-- ==== Sys2Proof/Word.lean ====
section
/-! DEFINITION. The word types of the module (R12, R13): bytes, register words and the numbers that
packets and records carry.  Data is little-endian and bit 0 is the least significant bit. -/

namespace Sys2Proof

/-- A byte of memory, of a packet or of a record. -/
abbrev Byte := BitVec 8

/-- A 64-bit register or sync-object value. -/
abbrev Word := BitVec 64

/-- A 32-bit scalar register of a tile, or one lane of a vector register. -/
abbrev Lane := BitVec 32

end Sys2Proof
end

