-- ==== Sys2Proof/Machine/Maps.lean ====
section
/-! DEFINITION. Sparse maps as plain data: lists of key and value pairs in one canonical form (keys
strictly rising, no entry equal to what an unlisted key reads as).  Memory, the register file, the
tiles and every table of the module that is indexed by a number is held this way, so that equal
contents are equal data. -/

namespace Sys2Proof.Machine

/-- A sparse map from numbers to values. -/
abbrev SMap (α : Type) := List (Nat × α)

/-- The value at key `k`, if the map lists it. -/
def SMap.find {α : Type} : SMap α → Nat → Option α
  | [], _ => none
  | (j, v) :: m, k => if j = k then some v else SMap.find m k

/-- The value at key `k`, or what an unlisted key reads as. -/
def SMap.getD {α : Type} (d : α) (m : SMap α) (k : Nat) : α := (m.find k).getD d

/-- Takes key `k` out of the map. -/
def SMap.del {α : Type} (m : SMap α) (k : Nat) : SMap α := m.filter fun e => decide (e.1 ≠ k)

/-- Puts `v` at key `k`, keeping the keys rising. -/
def SMap.put {α : Type} : SMap α → Nat → α → SMap α
  | [], k, v => [(k, v)]
  | (j, w) :: m, k, v =>
    if k < j then (k, v) :: (j, w) :: m
    else if k = j then (k, v) :: m
    else (j, w) :: SMap.put m k v

/-- Puts `v` at key `k`, or takes the key out when `v` is what an unlisted key reads as. -/
def SMap.putD {α : Type} [DecidableEq α] (d : α) (m : SMap α) (k : Nat) (v : α) : SMap α :=
  if v = d then m.del k else m.put k v

/-- The entries of a run of values from key `k` on, but for those equal to what an unlisted key reads as. -/
def SMap.run {α : Type} [DecidableEq α] (d : α) (k : Nat) : List α → SMap α
  | [] => []
  | v :: vs => if v = d then SMap.run d (k + 1) vs else (k, v) :: SMap.run d (k + 1) vs

/-- Puts a run of values at the keys from `k` on. -/
def SMap.splice {α : Type} [DecidableEq α] (d : α) (k : Nat) (vs : List α) : SMap α → SMap α
  | [] => SMap.run d k vs
  | (j, v) :: m =>
    if j < k then (j, v) :: SMap.splice d k vs m
    else SMap.run d k vs ++ ((j, v) :: m).filter fun e => ! (decide (k ≤ e.1) && decide (e.1 < k + vs.length))

/-- Changes the value at key `k`; an unlisted key starts from `d`. -/
def SMap.mod {α : Type} (d : α) (m : SMap α) (k : Nat) (f : α → α) : SMap α := m.put k (f (m.getD d k))

/-- Changes the value at key `k` only when it is listed. -/
def SMap.upd {α : Type} (m : SMap α) (k : Nat) (f : α → α) : SMap α :=
  m.map fun e => if e.1 = k then (e.1, f e.2) else e

/-- The keys of the map. -/
def SMap.keys {α : Type} (m : SMap α) : List Nat := m.map (·.1)

/-- Whether the keys rise strictly from `lo` on and no listed value is `d`. -/
def SMap.wfFrom {α : Type} [DecidableEq α] (d : α) : Nat → SMap α → Bool
  | _, [] => true
  | lo, (k, v) :: m => decide (lo ≤ k) && decide (v ≠ d) && SMap.wfFrom d (k + 1) m

/-- The canonical form: keys strictly rising, no entry equal to what an unlisted key reads as. -/
def SMap.wf {α : Type} [DecidableEq α] (d : α) (m : SMap α) : Bool := SMap.wfFrom d 0 m

/-- A set of numbers, as a list in rising order. -/
abbrev NSet := List Nat

/-- Adds a number to a set. -/
def NSet.add : NSet → Nat → NSet
  | [], k => [k]
  | j :: m, k => if k < j then k :: j :: m else if k = j then j :: m else j :: NSet.add m k

/-- Takes a number out of a set. -/
def NSet.rem (m : NSet) (k : Nat) : NSet := m.filter (· ≠ k)

/-- The numbers `lo`, `lo + 1`, …, `lo + n - 1`. -/
def upto (lo n : Nat) : List Nat := (List.range n).map (lo + ·)

end Sys2Proof.Machine
end

