-- ==== Sys2Proof/Machine/OperandTypes.lean ====
section
/-! DEFINITION. The operands of the commands: where a packet command comes from, its chunks, and the
messages, measurements and descriptors that the other rows carry. -/

namespace Sys2Proof

/-- An order of another authority that reaches the same object in the same cycle (R221, R222):
`port` is its sequencer port, 0 to 6. -/
structure Rival where
  port : Fin 7
  deriving DecidableEq, Repr

/-- Where a packet command comes from: issuing partition (0 for the owner), its queue, the command
processor that serves it, and a contradictory order of the same cycle, if one arrives (R221). -/
structure QRef where
  pid : Fin 256
  queue : Fin 16
  cp : Fin 4
  rival : Option Rival
  deriving DecidableEq, Repr

/-- The chunks of a command (R199): 64 × (1 + `EXT`) bytes; bytes not supplied read zero (R583). -/
abbrev Packet := List Byte

/-- What has happened at a tile since its last pulse: whether a slice that reached its final `COMMIT` left 64 tile cycles
(R107), SRAM granules in which an uncorrectable or a single-bit error has arisen (R104), self-test sections whose answer has
changed (0 PASS, 1 MARGINAL, 2 FAIL; R108), and whether a parity error stands in its sequencer state or frame logic
(R101). -/
structure TileUpset where
  slack : Bool
  bad : List (Fin 16384)
  weak : List (Fin 16384)
  sections : List (Fin 16 × Fin 3)
  parity : Bool
  deriving DecidableEq, Repr

/-- The stroke pulse of a physical tile (R42), and what has happened to the tile's silicon since the pulse before. -/
structure TilePulse where
  tile : Fin 1152
  upset : TileUpset
  deriving DecidableEq, Repr

/-- A flit that arrives at a router's input (R143): its header and its 64 bytes. -/
structure FlitIn where
  header : BitVec 64
  payload : List Byte
  deriving DecidableEq, Repr

/-- A CSI-2 long packet at a camera port (R314, R327): virtual channel, data type, how its header's ECC came
out (0 sound, 1 corrected, 2 uncorrectable), whether its payload's CRC failed, whether the read of the
holding area that drains it meets an uncorrectable error (R326), and its payload. -/
structure CsiPacket where
  vc : Fin 16
  dt : BitVec 6
  hdr : Fin 3
  crcBad : Bool
  heldBad : Bool
  payload : List Byte
  deriving DecidableEq, Repr

/-- An Ethernet frame at a lidar port (R315): its bytes from the destination address to the end of the
payload, whether its FCS is sound, and whether the read of the holding area that drains it meets an
uncorrectable error. -/
structure EthFrame where
  fcsOk : Bool
  heldBad : Bool
  bytes : List Byte
  deriving DecidableEq, Repr

/-- An error that the fusion engine's store meets (R347): one that SECDED corrects, or an uncorrectable one in a
track's slot or in the working area of the running batch, with the granule that it hits. -/
inductive FusUpset where
  | corrected
  | track (granule : Fin 524288) (pid : Fin 256) (set : Fin 4) (slot : Fin 4096)
  | area (granule : Fin 524288)
  deriving DecidableEq, Repr

/-- An uncorrectable error in a Datum's occupancy store (R357): in the root slab of a top cell, the node slab of
one of its octants, the leaf slab of a brick, or a distance brick. -/
inductive TrvUpset where
  | root (tx ty : Fin 32)
  | node (tx ty : Fin 32) (oct : Fin 8)
  | leaf (bx by_ : Fin 512) (bz : Fin 16)
  | dist (ix iy : Fin 256) (iz : Fin 8)
  deriving DecidableEq, Repr

/-- A memory request that arrives at a station (R151): requester (a logical tile, or 1,024 and up for the hub and the
die's own masters), partition, tag, whether it writes, DPA, length, and a write's data and stain. -/
structure MemMsg where
  src : Fin 1056
  pid : Fin 256
  tag : BitVec 16
  write : Bool
  addr : BitVec 48
  len : Fin 2049
  data : List Byte
  stain : Bool
  deriving DecidableEq, Repr

/-- An operation that a port presents at the sync-object store (R223): port 0 to 40, partition, object, operation
(0 READ, 1 SET, 2 ADD) and value. -/
structure StoreReq where
  port : Fin 41
  pid : Fin 256
  idx : BitVec 16
  op : Fin 3
  value : BitVec 64
  deriving DecidableEq, Repr

/-- What an arbitration phase meets (R438): the operations that ports present at the sync-object store, and the
repetitions of the crossing flit by the link of a die edge (R153). -/
structure ArbInput where
  ops : List StoreReq
  retries : Fin 65536
  deriving DecidableEq, Repr

/-- What a training sweep of a byte lane found (R412): for each of the 128 Vref codes the delay steps that passed, for
reads and for writes. -/
structure LaneSweep where
  rd : List (BitVec 64)
  wr : List (BitVec 64)
  deriving DecidableEq, Repr

/-- Errors that a line has taken since it was last read (R417): differences by symbol of the 77, and flips of the
eight stain copies of its two half-lines (R411). -/
structure LineUpset where
  errors : List (Fin 77 × Byte)
  copies : BitVec 8
  deriving DecidableEq, Repr

/-- What a peer port sees (R473): a frame, with its bytes from the peer header on, or no acknowledgement in time. -/
inductive PeerEvent where
  | frame (fcsOk : Bool) (bytes : List Byte)
  | noAck
  deriving DecidableEq, Repr

/-- What another member's Datum firmware sends on a management network (R476, R478): its member record, or the CRC of its
group record. -/
inductive MgmtMsg where
  | record (group : BitVec 64) (member : Fin 8) (epoch : Byte) (state : Fin 5) (hubStopped : Bool) (manager : Fin 16)
  | join (group : BitVec 64) (member : Fin 8) (crc : BitVec 32)
  deriving DecidableEq, Repr

/-- A shard that a member supplies to a new manager (R484, R487): member, number (a record's, or 2^32 + the PID of a
checkpoint) and bytes. -/
structure ShardMsg where
  member : Fin 8
  number : BitVec 48
  bytes : List Byte
  deriving DecidableEq, Repr

/-- A request of an application core that leaves its cluster (R499): hart, kind (0 line fill for a load, 1 write-back of a
line that leaves L2, 2 walk read, 3 `NC` read, 4 `NC` write, 5 instruction fill, 6 fill for an AMO, LR or SC, 7 line fill
for a store, 8 write-back of a line that stays, 9 `CBO.INVAL`, 10 `CBO.CLEAN`, 11 `CBO.FLUSH`), or a store to a line that L2
holds (12), which the snoop filter sees; virtual address, length of an `NC` read, data of an `NC` write or a store, and
whether the system cache still holds the line if it has taken it in. -/
structure ApcOp where
  hart : Fin 32
  kind : Fin 13
  va : BitVec 48
  len : Fin 65
  data : List Byte
  hit : Bool
  deriving DecidableEq, Repr

/-- An access to the sync-object window (R188): from an application core (its hart) or a PCIe requester (port and requester
ID); its form (0 an 8-byte read, 1 an 8-byte write, 2 an 8-byte atomic add, 3 any other), virtual address, and value. -/
structure WinAccess where
  pcie : Bool
  hart : Fin 32
  port : Fin 2
  rid : BitVec 16
  form : Fin 4
  va : BitVec 48
  value : BitVec 64
  deriving DecidableEq, Repr

/-- A request of a PCIe requester (R177): port, requester ID, kind (0 memory read, 1 memory write, 2 FetchAdd), address,
length of a read, data of a write or FetchAdd, and whether Relaxed Ordering is set (R185). -/
structure Tlp where
  port : Fin 2
  rid : BitVec 16
  kind : Fin 3
  addr : BitVec 64
  len : Fin 4097
  data : List Byte
  ro : Bool
  deriving DecidableEq, Repr

/-- What reaches a PCIe port: a request; or, on a port in endpoint role, what the host sets of a function's MSI-X (its enable
and function mask, the mask of one entry), or the virtual functions it enables (R617, R623). -/
inductive PcieReq where
  | mem (t : Tlp)
  | msix (port : Fin 2) (rid : BitVec 16) (enable maskAll : Bool)
  | mask (port : Fin 2) (rid : BitVec 16) (entry : Fin 2048) (masked : Bool)
  | vfs (port : Fin 2) (n : Fin 65)
  deriving DecidableEq, Repr

/-- What the power monitors report at an evaluation of the governor (R519, R520): J1 current in mA, input power in W
averaged over the last 100 strokes and its highest value in them, J2 current in mA, camera power in W, the die and the
cluster that draw the most power, and the application cluster that is the hottest element, if one is. -/
structure PowerSample where
  j1ma : BitVec 16
  inW : BitVec 16
  peakW : BitVec 16
  j2ma : BitVec 16
  camW : BitVec 16
  topDie : Fin 4
  topCluster : Fin 4
  hottest : Option (Fin 4)
  deriving DecidableEq, Repr

/-- What bringing the silicon up meets (R433, R452, R556, R563): the training sweeps of the 128 byte lanes (a lane beyond
the list passes everywhere), the UCIe modules that train by edge (an edge beyond the list trains all), the command
processors that pass their lockstep self-test, and whether what a `MODULE_WARM` saves before it resets was saved (R218). -/
structure BringUp where
  sweeps : List LaneSweep
  edges : List (Fin 7)
  cpPass : BitVec 4
  saved : Bool
  deriving DecidableEq, Repr

/-- What the housing label says of a module (R1, R4): whether the ordering code ends in D, the hardware revision, the
serial number of 12 decimal digits, and the date code.  Manufacture fixes it in the silicon. -/
structure Label where
  development : Bool
  revLetter : Fin 26
  revDigit : Fin 10
  serial : Fin 1000000000000
  year : BitVec 16
  week : Fin 54
  deriving DecidableEq, Repr

/-- What a start-up meets besides the state of the silicon (R1, R556): the module's label, and the clock identity of the
time source that it finds, if any. -/
structure StartInput where
  label : Label
  source : Option (BitVec 64)
  deriving DecidableEq, Repr

/-- Who writes a doorbell (R180, R198): an application core by its hart, or a PCIe requester by its port and requester
ID. -/
inductive DoorSrc where
  | core (hart : Fin 32)
  | pcie (port : Fin 2) (rid : BitVec 16)
  deriving DecidableEq, Repr

/-- A write that reaches the register region (R609): the PID that it carries, the block, the offset, whether it is an
aligned 8-byte write and no AMO, and the value. -/
structure RegWrite where
  pid : Fin 256
  block : BitVec 11
  off : BitVec 16
  whole : Bool
  value : BitVec 64
  deriving DecidableEq, Repr

/-- A TAP instruction (R575 to R578): identification, bypass, a read of the `DBG` block, a scan read of the flops, a read
of a tile's SRAM granule or of one of the hub's and Datums' memories, entry to the read-out sub-mode, a read of a
physical line in it, and an access to a debug module of an application core, a command processor or a Datum core. -/
inductive TapOp where
  | idcode
  | bypass
  | dbg (off : BitVec 16)
  | scan
  | granule (tile : Fin 1152) (g : BitVec 14)
  | store (memory : BitVec 8) (g : BitVec 32)
  | readout
  | line (channel : Fin 64) (l : BitVec 26)
  | core (n : Fin 40)
  deriving DecidableEq, Repr

/-- A frame of an image update (R554): `KIND`, byte offset, CRC-32C of the data, the data, and whether it is the last of
its image. -/
structure ImageFrame where
  kind : Fin 3
  off : BitVec 32
  crc : BitVec 32
  data : List Byte
  last : Bool
  deriving DecidableEq, Repr

end Sys2Proof
end

