-- ==== Sys2Proof/Syntax.lean ====
section
/-! DEFINITION. The commands that the block takes: one constructor of `Instr` per row of
spec/opcode_table.json, with the row's operands.  A packet command (rows `NOP` to `TRACE_CONFIG`)
carries the queue it is issued on and its chunks, byte by byte, as R199 and R583 lay them out; a tile
operation carries its tile and its descriptor; every other row carries what the event itself brings
(which unit, which message, which measurement). -/

namespace Sys2Proof

/-- The commands of the block: one constructor per row of spec/opcode_table.json. -/
inductive Instr where
  /-- `NOP` (R588): Command 0x00 completes with no effect. -/
  | nop (q : QRef) (p : Packet)
  /-- `FENCE` (R588): Command 0x01 begins only when every command that the issuer accepted before it has completed. -/
  | fence (q : QRef) (p : Packet)
  /-- `ECHO` (R588): Command 0x02 returns its VALUE in RESULT. -/
  | echo (q : QRef) (p : Packet)
  /-- `QUERY` (R590): Command 0x03 returns mode, time, stencil, quota or identity values selected by SEL. -/
  | query (q : QRef) (p : Packet)
  /-- `MEM_FILL` (R589): Rerun command 0x10 writes a repeated pattern over a range, clears stain and may make whole frames CLEAN. -/
  | memFill (q : QRef) (p : Packet)
  /-- `MEM_COPY` (R588): Rerun command 0x11 copies a range, carrying stain from source to destination. -/
  | memCopy (q : QRef) (p : Packet)
  /-- `MEM_QUERY` (R588): Command 0x13 returns the attribute bits of the leaf that translates a virtual address. -/
  | memQuery (q : QRef) (p : Packet)
  /-- `SOB_SET` (R591): Command 0x20 sets a sync object through the sequencer port, applied once under R210. -/
  | sobSet (q : QRef) (p : Packet)
  /-- `SOB_ADD` (R591): Command 0x21 adds to a sync object and returns the previous value. -/
  | sobAdd (q : QRef) (p : Packet)
  /-- `SOB_WAIT` (R592): Rerun command 0x22 registers a watch on a sync object and completes at its last firing or its timeout. -/
  | sobWait (q : QRef) (p : Packet)
  /-- `SOB_READ` (R591): Command 0x23 returns the value of a sync object. -/
  | sobRead (q : QRef) (p : Packet)
  /-- `MODEL_LOAD` (R231): Rerun command 0x30 reads and checks a Lylen model image and registers it under a handle. -/
  | modelLoad (q : QRef) (p : Packet)
  /-- `MODEL_PIN` (R237): Command 0x31 sets PINNED and starts installation of a registered image. -/
  | modelPin (q : QRef) (p : Packet)
  /-- `MODEL_UNPIN` (R237): Command 0x32 clears PINNED. -/
  | modelUnpin (q : QRef) (p : Packet)
  /-- `MODEL_EVICT` (R237): Command 0x33 returns an image to REGISTERED and, with RELEASE, ends its registration. -/
  | modelEvict (q : QRef) (p : Packet)
  /-- `MODEL_QUERY` (R594): Command 0x34 writes the state record of a registered image. -/
  | modelQuery (q : QRef) (p : Packet)
  /-- `JOB_SUBMIT` (R595): Engine command 0x40 submits a job of a registered image with a batch size, deadline, start gate and arguments. -/
  | jobSubmit (q : QRef) (p : Packet)
  /-- `JOB_CANCEL` (R597): Command 0x41 stops binding slices of a job and completes it FAIL_CANCELLED. -/
  | jobCancel (q : QRef) (p : Packet)
  /-- `JOB_QUERY` (R597): Command 0x42 returns the state and lowest job stroke index of a job. -/
  | jobQuery (q : QRef) (p : Packet)
  /-- `SEQ_CREATE` (R265): Command 0x50 creates a sequence record with LEN 0 and zeroed page-list entries. -/
  | seqCreate (q : QRef) (p : Packet)
  /-- `SEQ_FORK` (R265): Command 0x51 copies a sequence's page list into a new sequence and raises sheet reference counts. -/
  | seqFork (q : QRef) (p : Packet)
  /-- `SEQ_TRUNCATE` (R265): Command 0x52 shortens a sequence, releasing sheets beyond the new length. -/
  | seqTruncate (q : QRef) (p : Packet)
  /-- `SEQ_FREE` (R265): Command 0x53 releases every sheet of a sequence and clears LIVE. -/
  | seqFree (q : QRef) (p : Packet)
  /-- `SEQ_QUERY` (R265): Command 0x54 copies a sequence record to partition memory. -/
  | seqQuery (q : QRef) (p : Packet)
  /-- `GAZ_PUBLISH` (R277): Command 0x55 publishes prefix blocks of a sequence as gazetteer nodes. -/
  | gazPublish (q : QRef) (p : Packet)
  /-- `GAZ_LOOKUP` (R278): Command 0x56 attaches an empty sequence to the deepest matching gazetteer chain. -/
  | gazLookup (q : QRef) (p : Packet)
  /-- `GAZ_RETIRE` (R280): Command 0x57 retires the nodes of one publish and frees nodes no longer referenced. -/
  | gazRetire (q : QRef) (p : Packet)
  /-- `STREAM_OPEN` (R322): Command 0x60 opens a camera or lidar stream from a stream descriptor. -/
  | streamOpen (q : QRef) (p : Packet)
  /-- `STREAM_CLOSE` (R332): Command 0x61 closes a stream, discarding a buffer in progress. -/
  | streamClose (q : QRef) (p : Packet)
  /-- `STREAM_QUERY` (R333): Command 0x62 returns a stream's state, physical port, buffer count and lost total. -/
  | streamQuery (q : QRef) (p : Packet)
  /-- `TRIGGER_SET` (R599): Command 0x63 sets the delay adjustment of one trigger of a camera stream, effective at the next coat boundary. -/
  | triggerSet (q : QRef) (p : Packet)
  /-- `FUS_CONFIG` (R336): Command 0x70 creates, replaces or releases a fusion track set. -/
  | fusConfig (q : QRef) (p : Packet)
  /-- `FUS_BATCH` (R341): Engine command 0x71 predicts, gates, assigns and updates a track set from a batch of measurements. -/
  | fusBatch (q : QRef) (p : Packet)
  /-- `FUS_READ` (R352): Command 0x72 writes the committed tracks of a set to partition memory. -/
  | fusRead (q : QRef) (p : Packet)
  /-- `FUS_DROP_TRACK` (R352): Command 0x73 deletes one track and frees its slot. -/
  | fusDropTrack (q : QRef) (p : Packet)
  /-- `TRV_SURVEY_UPDATE` (R359): Engine command 0x80 delivers an occupancy update to both Datums for application at a fixed later stroke. -/
  | trvSurveyUpdate (q : QRef) (p : Packet)
  /-- `TRV_CHECK` (R371): Engine command 0x81 queues a candidate trajectory for a verdict in both Datums. -/
  | trvCheck (q : QRef) (p : Packet)
  /-- `TRV_COMMIT` (R375): Command 0x82 delivers a committed trajectory to both Datums for adoption. -/
  | trvCommit (q : QRef) (p : Packet)
  /-- `TRV_DUST_SHEET` (R375): Command 0x83 delivers a dust sheet to both Datums as a pending sheet. -/
  | trvDustSheet (q : QRef) (p : Packet)
  /-- `TRV_ENVELOPE` (R362): Owner command 0x84 delivers the vehicle envelope record to both Datums. -/
  | trvEnvelope (q : QRef) (p : Packet)
  /-- `PART_CREATE` (R602): Owner command 0xC0 creates a partition with its queues, quotas, requesters and allotment. -/
  | partCreate (q : QRef) (p : Packet)
  /-- `PART_DESTROY` (R167): Owner command 0xC1 resets a partition, drains it and frees every resource it holds. -/
  | partDestroy (q : QRef) (p : Packet)
  /-- `PART_RESET` (R603): Owner command 0xC2 performs PARTITION_RESET of one partition. -/
  | partReset (q : QRef) (p : Packet)
  /-- `MAP` (R172): Owner command 0xC3 places pages into a context after the frame-owner checks. -/
  | map (q : QRef) (p : Packet)
  /-- `UNMAP` (R174): Owner command 0xC4 removes pages from a context with translation-cache invalidation. -/
  | unmap (q : QRef) (p : Packet)
  /-- `STENCIL_LOAD` (R68): Owner command 0xC5 applies the admission checks to a stencil image and fills the shadow bank. -/
  | stencilLoad (q : QRef) (p : Packet)
  /-- `STENCIL_SWAP` (R55): Owner command 0xC6 requests that the shadow bank become active at a coat boundary. -/
  | stencilSwap (q : QRef) (p : Packet)
  /-- `BUDGET_SET` (R59): Owner command 0xC7 changes one partition row or window budget of the active bank at the next coat boundary. -/
  | budgetSet (q : QRef) (p : Packet)
  /-- `GRANT` (R165): Owner command 0xC8 sets a partition's rights byte. -/
  | grant (q : QRef) (p : Packet)
  /-- `SOB_ALLOC` (R192): Owner command 0xC9 gives a free zeroed sync-object block to a partition. -/
  | sobAlloc (q : QRef) (p : Packet)
  /-- `HEALTH_READ` (R466): Owner command 0xCA writes a health-sheet or journal-pair section to owner memory. -/
  | healthRead (q : QRef) (p : Packet)
  /-- `TILE_RETIRE` (R451): Owner command 0xCB retires a physical tile and relocates its logical position without self-test. -/
  | tileRetire (q : QRef) (p : Packet)
  /-- `TILE_REINSTATE` (R451): Owner command 0xCC self-tests a retired tile and admits it as a free slot when it passes. -/
  | tileReinstate (q : QRef) (p : Packet)
  /-- `CHANNEL_RETIRE` (R430): Owner command 0xCD retires a DRAM channel. -/
  | channelRetire (q : QRef) (p : Packet)
  /-- `MODE_SET` (R561): Owner command 0xCE requests a mode transition. -/
  | modeSet (q : QRef) (p : Packet) (b : BringUp)
  /-- `SAFE_POLICY` (R401): Owner command 0xCF selects the native or the Firad-1-compatible safe-state policy in both Datums. -/
  | safePolicy (q : QRef) (p : Packet)
  /-- `GROUP_CONFIG` (R475): Owner command 0xD0 configures this module's membership of a manager and worker group. -/
  | groupConfig (q : QRef) (p : Packet)
  /-- `EVENT_CONFIG` (R462): Owner command 0xD1 configures the event ring, group enables and notifications. -/
  | eventConfig (q : QRef) (p : Packet)
  /-- `FREEZE_ARM` (R571): Owner command 0xE0 arms or disarms a freeze condition. -/
  | freezeArm (q : QRef) (p : Packet)
  /-- `SELFTEST_RUN` (R606): Engine command 0xE1 runs the self-test of a tile, a die, the checkers or the full self-test. -/
  | selftestRun (q : QRef) (p : Packet) (bad : List (Fin 9))
  /-- `DEBUG_UNLOCK` (R576): Owner command 0xE2 checks a debug credential and grants a debug level, breaking lockstep. -/
  | debugUnlock (q : QRef) (p : Packet)
  /-- `TRACE_CONFIG` (R579): Owner command 0xE3 starts, changes or stops the trace ring. -/
  | traceConfig (q : QRef) (p : Packet)
  /-- `DOORBELL_WRITE` (R197): A write to a doorbell page sets a queue's SQ_TAIL or CQ_HEAD. -/
  | doorbellWrite (src : DoorSrc) (page : BitVec 36) (off : BitVec 12) (v : BitVec 64)
  /-- `FETCH_GRANT` (R201): The fetch arbiter grants a queue's next command chunks when all fetch conditions hold. -/
  | fetchGrant (pid : Fin 256) (queue : Fin 16) (cp : Fin 4)
  /-- `COMMAND_ACCEPT` (R205): A fetched command's journal records become durable, and it is accepted with a sequence number or refused. -/
  | commandAccept (pid : Fin 256) (queue : Fin 16) (rival : Option Rival)
  /-- `COMPLETION_POST` (R209): A finished command's completion is posted in acceptance order, with the SOB_ON_DONE addition, mirror and vector. -/
  | completionPost (pid : Fin 256) (queue : Fin 16)
  /-- `CP_LOCKSTEP_MISMATCH` (R384): A command-processor lockstep comparator finds a difference and stops the processor. -/
  | cpLockstepMismatch (cp : Fin 4) (kind : Fin 3)
  /-- `CP_TAKEOVER` (R218): Remaining command processors take over a stopped processor's queues from the journal. -/
  | cpTakeover (cp by_ : Fin 4)
  /-- `STROKE_PULSE` (R40): At each stroke boundary STROKE_COUNT advances by one and buckets refill. -/
  | strokePulse
  /-- `COAT_BOUNDARY` (R46): At a stroke where STROKE_COUNT mod L equals PHASE the coat-boundary actions run in order. -/
  | coatBoundary
  /-- `STENCIL_SWAP_EFFECT` (R55): A pending swap makes the shadow bank active at the first eligible coat boundary. -/
  | stencilSwapEffect
  /-- `BUDGET_SET_EFFECT` (R59): Accepted budget changes apply to the active bank at the coat boundary. -/
  | budgetSetEffect
  /-- `TRIGGER_ADJUST_EFFECT` (R54): Trigger adjustments set during the old coat take effect at the coat boundary. -/
  | triggerAdjustEffect
  /-- `TILE_ADMISSION` (R451): A reinstated tile that passed its self-test joins its row as a free slot at the coat boundary. -/
  | tileAdmission
  /-- `CAMERA_TRIGGER` (R54): At a trigger's effective offset the camera port sends a frame-sync trigger. -/
  | cameraTrigger (p : Fin 24)
  /-- `TRIGGER_LOW` (R321): TRIG_WIDTH strokes after a trigger the camera GPIO is driven low. -/
  | triggerLow (p : Fin 24)
  /-- `TILE_STROKE_PULSE` (R63): At its local stroke pulse a tile's stroke gate closes the old slice and opens or holds the next. -/
  | tileStrokePulse (t : TilePulse)
  /-- `ST_LATE` (R108): A tile that has not completed a self-test rotation within 100 ms raises ST_LATE. -/
  | stLate (t : Fin 1152)
  /-- `ROW_SHIFT_COMPLETE` (R159): The row-shift copy ends and the occupancy mask changes at the next pulse. -/
  | rowShiftComplete (row : Fin 64)
  /-- `SUBSTITUTE_COPY_COMPLETE` (R160): A vacant position's windows are copied to a substitute and routers redirect its flits. -/
  | substituteCopyComplete (l : Fin 1024) (pid : Fin 256)
  /-- `TOD_NOP` (R85): TOD 0x00 has no effect. -/
  | todNop (t : Fin 1152)
  /-- `SETS` (R85): TOD 0x01 sets or adds to a sequencer register. -/
  | sets (t : Fin 1152)
  /-- `COMMIT` (R155): TOD 0x02 waits for every unit, signs, and with FINAL performs staged stores, SOB_OPs and notices and ends the slice. -/
  | commit (t : Fin 1152)
  /-- `BARRIER` (R85): TOD 0x03 waits until COUNT tiles of the activity reach the barrier in this stroke. -/
  | barrier (t : Fin 1152)
  /-- `SOB_OP` (R85): TOD 0x04 holds a SET or ADD until the final COMMIT, or performs a READ at once. -/
  | sobOp (t : Fin 1152)
  /-- `VPROG` (R85): TOD 0x05 runs a TVI program until HALT. -/
  | vprog (t : Fin 1152)
  /-- `LUT_LOAD` (R94): TOD 0x06 loads a lookup table. -/
  | lutLoad (t : Fin 1152)
  /-- `TOD_SELFTEST` (R85): TOD 0x07 runs self-test sections in a PID 0 slice. -/
  | todSelftest (t : Fin 1152)
  /-- `MATMUL` (R624): TOD 0x10 forms a matrix product in the MAC output cells by flush accumulation. -/
  | matmul (t : Fin 1152)
  /-- `MATMUL_SPARSE` (R115): TOD 0x11 forms a product with 2:4 compressed weights. -/
  | matmulSparse (t : Fin 1152)
  /-- `CONV2D` (R287): TOD 0x12 performs direct convolution on the MAC array. -/
  | conv2d (t : Fin 1152)
  /-- `CONV2D_FFT` (R292): TOD 0x13 performs FFT convolution in FP32. -/
  | conv2dFft (t : Fin 1152)
  /-- `ATTN_BLOCK` (R253): TOD 0x14 runs SCAN, ACC or FINISH of latent attention over one block of keys. -/
  | attnBlock (t : Fin 1152)
  /-- `EXPSCAN` (R124): TOD 0x15 sends the largest product exponent to the root tile. -/
  | expscan (t : Fin 1152)
  /-- `ACC_CLEAR` (R85): TOD 0x16 zeroes flush accumulators. -/
  | accClear (t : Fin 1152)
  /-- `ACC_READ` (R125): TOD 0x17 converts accumulators to the output format. -/
  | accRead (t : Fin 1152)
  /-- `DWCONV` (R289): TOD 0x20 performs depthwise or grouped convolution on the vector unit. -/
  | dwconv (t : Fin 1152)
  /-- `POOL` (R85): TOD 0x21 performs max, average or sum pooling. -/
  | pool (t : Fin 1152)
  /-- `ELTWISE` (R85): TOD 0x22 applies an element-wise function. -/
  | eltwise (t : Fin 1152)
  /-- `ACT` (R85): TOD 0x23 applies a lookup table. -/
  | act (t : Fin 1152)
  /-- `NORM` (R85): TOD 0x24 performs layer or RMS normalisation. -/
  | norm (t : Fin 1152)
  /-- `SOFTMAX` (R85): TOD 0x25 performs online softmax. -/
  | softmax (t : Fin 1152)
  /-- `REDUCE` (R85): TOD 0x26 performs a sum, max or min reduction. -/
  | reduce (t : Fin 1152)
  /-- `TOPK` (R85): TOD 0x27 selects the largest K keys with payloads. -/
  | topk (t : Fin 1152)
  /-- `SORT` (R85): TOD 0x28 stably sorts keys with payloads. -/
  | sort (t : Fin 1152)
  /-- `QUANT` (R128): TOD 0x29 forms MX block scales and elements. -/
  | quant (t : Fin 1152)
  /-- `DEQUANT` (R129): TOD 0x2A applies block scales. -/
  | dequant (t : Fin 1152)
  /-- `TRANSPOSE` (R85): TOD 0x2B swaps DIM0 and DIM1. -/
  | transpose (t : Fin 1152)
  /-- `GATHER` (R85): TOD 0x2C gathers table entries by index. -/
  | gather (t : Fin 1152)
  /-- `SCATTER` (R624): TOD 0x2D combines values into table entries by index. -/
  | scatter (t : Fin 1152)
  /-- `FFT` (R85): TOD 0x2E performs a 1-D or 2-D FFT. -/
  | fft (t : Fin 1152)
  /-- `CONVERT` (R129): TOD 0x2F converts formats. -/
  | convert (t : Fin 1152)
  /-- `COPY` (R85): TOD 0x30 copies within SRAM. -/
  | copy (t : Fin 1152)
  /-- `FILL` (R85): TOD 0x31 fills an operand with a pattern and clears whole-granule stain. -/
  | fill (t : Fin 1152)
  /-- `SEND` (R85): TOD 0x40 sends data to a remote tile slot. -/
  | send (t : Fin 1152)
  /-- `RECV` (R85): TOD 0x41 waits until the expected bytes have arrived on a slot. -/
  | recv (t : Fin 1152)
  /-- `HALO_SEND` (R294): TOD 0x42 sends a halo strip to a neighbour tile. -/
  | haloSend (t : Fin 1152)
  /-- `HALO_RECV` (R294): TOD 0x43 waits for a halo strip and copies it into the margins. -/
  | haloRecv (t : Fin 1152)
  /-- `LEVEL_SEND` (R124): TOD 0x44 forms the auto level from EXPSCAN results and sends it to a rectangle. -/
  | levelSend (t : Fin 1152)
  /-- `LEVEL_RECV` (R86): TOD 0x45 waits for the level and writes LVL. -/
  | levelRecv (t : Fin 1152)
  /-- `DMA_LOAD` (R625): TOD 0x50 moves rows from DRAM to SRAM, directly or by page-list walk. -/
  | dmaLoad (t : Fin 1152)
  /-- `DMA_STORE` (R87): TOD 0x51 stages SRAM rows for storing to DRAM at the final COMMIT. -/
  | dmaStore (t : Fin 1152)
  /-- `VALU` (R91): TVI 0x01 applies a lane function to two vectors. -/
  | valu (t : Fin 1152)
  /-- `VALUX` (R91): TVI 0x02 applies a lane function to a vector and a scalar. -/
  | valux (t : Fin 1152)
  /-- `VCMP` (R90): TVI 0x03 compares lanes into a predicate. -/
  | vcmp (t : Fin 1152)
  /-- `VLD` (R90): TVI 0x04 loads a vector register from SRAM. -/
  | vld (t : Fin 1152)
  /-- `VST` (R90): TVI 0x05 stores a vector register to SRAM. -/
  | vst (t : Fin 1152)
  /-- `VGATH` (R90): TVI 0x06 gathers words by lane address. -/
  | vgath (t : Fin 1152)
  /-- `VSCAT` (R90): TVI 0x07 scatters words by lane address. -/
  | vscat (t : Fin 1152)
  /-- `VMACC` (R121): TVI 0x08 adds lane products into flush accumulators. -/
  | vmacc (t : Fin 1152)
  /-- `VRED` (R90): TVI 0x09 reduces lanes by sum, max or min. -/
  | vred (t : Fin 1152)
  /-- `VLUT` (R94): TVI 0x0A applies a lookup table to lanes. -/
  | vlut (t : Fin 1152)
  /-- `VSORT` (R90): TVI 0x0B sorts 64 keys with payloads. -/
  | vsort (t : Fin 1152)
  /-- `VFFT` (R90): TVI 0x0C performs one radix-2 FFT stage. -/
  | vfft (t : Fin 1152)
  /-- `VPERM` (R90): TVI 0x0D permutes or shifts lanes. -/
  | vperm (t : Fin 1152)
  /-- `VCVT` (R129): TVI 0x0E converts lane formats. -/
  | vcvt (t : Fin 1152)
  /-- `VMV` (R90): TVI 0x0F moves between a lane and a scalar. -/
  | vmv (t : Fin 1152)
  /-- `SALU` (R93): TVI 0x10 applies a scalar function. -/
  | salu (t : Fin 1152)
  /-- `SADDI` (R90): TVI 0x11 adds an immediate to a scalar. -/
  | saddi (t : Fin 1152)
  /-- `SLUI` (R90): TVI 0x12 loads an upper immediate. -/
  | slui (t : Fin 1152)
  /-- `SLD` (R90): TVI 0x13 loads a word into a scalar. -/
  | sld (t : Fin 1152)
  /-- `SST` (R90): TVI 0x14 stores a scalar word. -/
  | sst (t : Fin 1152)
  /-- `BR` (R90): TVI 0x15 branches on a scalar condition or loop counter. -/
  | br (t : Fin 1152)
  /-- `JMP` (R90): TVI 0x16 jumps. -/
  | jmp (t : Fin 1152)
  /-- `CALL` (R96): TVI 0x17 pushes a call frame and jumps. -/
  | call (t : Fin 1152)
  /-- `RET` (R96): TVI 0x18 pops a call frame and returns. -/
  | ret (t : Fin 1152)
  /-- `PSET` (R90): TVI 0x19 combines or sets predicates. -/
  | pset (t : Fin 1152)
  /-- `TRAP` (R90): TVI 0x1A raises the TRAP exception. -/
  | trap (t : Fin 1152)
  /-- `XRET` (R99): TVI 0x1B pops an exception frame and resumes. -/
  | xret (t : Fin 1152)
  /-- `ABORT` (R99): TVI 0x1C abandons the slice and fails the job. -/
  | abort (t : Fin 1152)
  /-- `ACCRD` (R90): TVI 0x1D reads accumulators into lanes with conversion. -/
  | accrd (t : Fin 1152)
  /-- `HALT` (R90): TVI 0x1E ends the program and resumes TOD issue. -/
  | halt (t : Fin 1152)
  /-- `TVI_NOP` (R90): TVI 0x1F has no effect. -/
  | tviNop (t : Fin 1152)
  /-- `FLIT_ROUTE` (R148): A router takes a flit from an input, checks its header and forwards it by dimension order. -/
  | flitRoute (l : Fin 1024) (port : Fin 5) (a : Option FlitIn)
  /-- `DATA_MESSAGE_LANDING` (R154): A DATA or HALO message lands in the half of the receiver's area that its parity selects. -/
  | dataMessageLanding (src dst : Fin 1024)
  /-- `COMMIT_NOTICE` (R155): A COMMIT flit arrives and counts toward committing a held-input half. -/
  | commitNotice (src dst : Fin 1024)
  /-- `RELEASE_NOTICE` (R156): A RELEASE flit arrives and frees a half for the producer. -/
  | releaseNotice (src dst : Fin 1024)
  /-- `MEM_REQUEST_ARRIVAL` (R151): A MEM_RD or MEM_WR arrives at a memory station and joins its partition's queue or gets RETRY. -/
  | memRequestArrival (c : Fin 64) (m : MemMsg)
  /-- `ARBITRATION_PHASE` (R438): An arbiter instance grants its next slot to an eligible requester in ring order. -/
  | arbitrationPhase (i : Fin 78) (ops : ArbInput)
  /-- `MEMORY_BURST` (R417): A granted burst reads or writes a DRAM line and applies the inline code. -/
  | memoryBurst (c : Fin 64) (u : LineUpset) (act : Bool)
  /-- `STRIPE_WRITE_DURABLE` (R428): The stripe engine writes P and Q, making a STRIPED write durable. -/
  | stripeWriteDurable (stripe : Fin 14680064)
  /-- `SCRUB_REWRITE` (R418): A line on the scrub queue is rewritten or its stain copies are written. -/
  | scrubRewrite (c : Fin 64)
  /-- `PATROL_READ` (R423): The patrol reads lines of INITIALIZED frames, repairing or staining them. -/
  | patrolRead (c : Fin 64) (u : LineUpset)
  /-- `PATROL_LATE` (R444): No full patrol pass completes within 32 s. -/
  | patrolLate
  /-- `HAIRLINE_LEAK` (R424): At each 2^LEAK stroke boundary every hairline counter above 0 falls by one. -/
  | hairlineLeak
  /-- `REFRESH` (R415): A controller issues per-bank refresh at the required rate. -/
  | refresh (c : Fin 64)
  /-- `RETRAINING` (R413): Channels due for retraining retrain in a QUIET window. -/
  | retraining
  /-- `TRAINING_COMPLETE` (R412): Training chooses delay and Vref per lane or retires the channel. -/
  | trainingComplete (c : Fin 64) (a b : LaneSweep)
  /-- `CHANNEL_RETIREMENT` (R431): A retirement freezes the channel's arbiter, drains granted bursts and installs the new in-service map. -/
  | channelRetirement (c : Fin 64)
  /-- `STRIPE_REBUILD` (R433): STRIPED shares of a re-admitted channel are rebuilt in the background. -/
  | stripeRebuild
  /-- `EDGE_MODULE_LOST` (R153): A UCIe module of an edge is lost and capacity is reduced. -/
  | edgeModuleLost (e : Fin 6)
  /-- `INSTALLATION_COMPLETE` (R236): The last load segment of an image is written and it becomes RESIDENT. -/
  | installationComplete (pid : Fin 256) (hd : Fin 64)
  /-- `JOB_BEGIN` (R241): A job begins in the first window stroke where all begin conditions hold and its argument block is written. -/
  | jobBegin (pid : Fin 256) (act : Fin 1024)
  /-- `DEADLINE_MISS` (R245): A checkpoint's due stroke passes unreached and the job switches to its undercoat or fails. -/
  | deadlineMiss (pid : Fin 256) (seq : BitVec 48)
  /-- `DUPLEX_REPORT` (R386): A die's signature report for a job stroke reaches the Datums, which compare the copies. -/
  | duplexReport (pid : Fin 256) (seq : BitVec 48) (copy : Fin 2) (k : BitVec 32) (die : Fin 4)
  /-- `DUPLEX_REPORT_TIMEOUT` (R390): A copy's report missing 2,100 strokes after the other's is treated as a mismatch. -/
  | duplexReportTimeout (pid : Fin 256) (seq : BitVec 48)
  /-- `SHEET_ZEROED` (R261): A freed sheet finishes zero-filling and becomes ZEROED. -/
  | sheetZeroed (n : BitVec 32)
  /-- `DFIN_NOTICE` (R300): A notice reaches a detection finisher and opens, extends or closes a request. -/
  | dfinNotice (src : Fin 1024) (fin : Fin 4)
  /-- `DFIN_REQUEST_DONE` (R307): A finisher writes boxes and summary and adds to the partition's sync object. -/
  | dfinRequestDone (fin : Fin 4) (pid : Fin 256)
  /-- `CAM_LINK_UP` (R317): A camera port trains at a gear and the link comes up. -/
  | camLinkUp (q : Fin 24) (gear : Fin 6)
  /-- `CAM_LINK_RETRY` (R317): A port whose link is down repeats the training sequence every 100 ms. -/
  | camLinkRetry (q : Fin 24)
  /-- `LINK_DOWN` (R317): A sensor link is lost and retraining starts. -/
  | linkDown (p : Fin 40)
  /-- `CAMERA_IDENTITY_READ` (R318): The I2C identity read completes and ID_STATE is set on every port. -/
  | cameraIdentityRead (q : Fin 24) (id : Option (List Byte))
  /-- `FRAME_START` (R327): A CSI-2 Frame Start opens the next buffer of a camera stream. -/
  | frameStart (q : Fin 24) (vc : Fin 16) (num : BitVec 16) (ns10 : Fin 100)
  /-- `LONG_PACKET` (R327): An accepted long packet lands as the next line of the frame. -/
  | longPacket (q : Fin 24) (p : CsiPacket)
  /-- `FRAME_END` (R327): A CSI-2 Frame End completes the buffer. -/
  | frameEnd (q : Fin 24) (vc : Fin 16) (ns10 : Fin 100)
  /-- `LIDAR_FRAME` (R328): A matching lidar frame is packed into the current buffer. -/
  | lidarFrame (q : Fin 8) (f : EthFrame) (ns10 : Fin 100)
  /-- `LIDAR_FLUSH` (R328): FLUSH strokes after its first frame a lidar buffer completes. -/
  | lidarFlush (pid : Fin 256) (hd : Fin 32)
  /-- `BUFFER_COMPLETE` (R329): Buffer data and record are acknowledged and DONE_ADD is added. -/
  | bufferComplete (pid : Fin 256) (hd : Fin 32)
  /-- `POWER_OPEN` (R316): Load current below 20 mA for 10 ms moves the switch to OPEN. -/
  | powerOpen (q : Fin 24) (ma mv : BitVec 16)
  /-- `POWER_OVERCURRENT` (R316): Current above ILIM for 1 ms turns the switch off. -/
  | powerOvercurrent (q : Fin 24) (ma mv : BitVec 16)
  /-- `POWER_SHORT_GND` (R316): A short-circuit trip turns the switch off within 10 µs. -/
  | powerShortGnd (q : Fin 24) (ma mv : BitVec 16)
  /-- `POWER_SHORT_BAT` (R541): Output voltage above the rail or reverse current turns the switch off, reverse-blocked. -/
  | powerShortBat (q : Fin 24) (ma mv : BitVec 16)
  /-- `CAMRAIL_TRIP` (R508): Rail current above 12.5 A for 1 ms moves the highest ON port to OVERCURRENT. -/
  | camrailTrip (ma : BitVec 16)
  /-- `FUSION_SCHEDULE` (R349): Each stroke the fusion engine gives its cycles to one ready batch, saving a preempted one. -/
  | fusionSchedule (u : Option FusUpset)
  /-- `FUSION_BATCH_COMMIT` (R352): A batch's outputs are acknowledged and its staged tracks applied in one sequencer step. -/
  | fusionBatchCommit (pid : Fin 256) (set : Fin 4)
  /-- `FUSION_DEADLINE` (R351): A batch not committed by its deadline completes FAIL_DEADLINE. -/
  | fusionDeadline
  /-- `VERDICT_SLOT` (R369): Each stroke each Datum fixes the trajectory, survey and envelope of its verdict slot and decodes poses. -/
  | verdictSlot (d : Fin 2) (u : Option TrvUpset)
  /-- `VERDICT_RECORD_COMPLETE` (R373): A verdict's queries and reduction finish and its record is complete. -/
  | verdictRecordComplete (d : Fin 2)
  /-- `VERDICT_COMPARE` (R374): A Datum receives the other's verdict record and compares it. -/
  | verdictCompare (d : Fin 2) (arrives : Bool)
  /-- `TRAJECTORY_ADOPTION` (R375): An ordered committed trajectory or dust sheet is adopted at the stroke boundary. -/
  | trajectoryAdoption
  /-- `SURVEY_DELIVERY` (R359): A survey record reaches both Datums, which check it and build the new tree aside. -/
  | surveyDelivery (ok : Bool)
  /-- `SURVEY_APPLY` (R361): At stroke a + 3,000 both Datums apply the update and recompute the distance field. -/
  | surveyApply
  /-- `SHAPER_COMPLETE` (R366): The shaper turns a waypoint record into primitives or fails it. -/
  | shaperComplete
  /-- `CANDIDATE_DEADLINE` (R371): A candidate not begun by its deadline is removed and completes FAIL_DEADLINE. -/
  | candidateDeadline
  /-- `HEARTBEAT` (R382): A Datum receives the peer's heartbeat over the cross-link. -/
  | heartbeat (d : Fin 2) (valid differ : Bool)
  /-- `PEER_LOST` (R382): No valid heartbeat for 3 strokes latches PEER_LOST. -/
  | peerLost (d : Fin 2)
  /-- `MONITOR_LINK_MESSAGE` (R381): A Datum receives a stroke marker, report, fault or delivery on a monitor link. -/
  | monitorLinkMessage (d : Fin 2) (e : Fin 5) (fails : Fin 3) (spread : Fin 256)
  /-- `MONITOR_LINK_LOST` (R381): A second check failure or 3 silent strokes loses a monitor link. -/
  | monitorLinkLost (d : Fin 2) (e : Fin 5) (second : Bool)
  /-- `DATUM_LOCKSTEP_MISMATCH` (R383): A Datum lockstep comparator stops both cores and forces its loop inactive. -/
  | datumLockstepMismatch (d : Fin 2)
  /-- `OUT_VALID_EVALUATION` (R393): Each stroke a Datum re-evaluates its validity conditions and drives its loop. -/
  | outValidEvaluation (d : Fin 2) (ppm : BitVec 16)
  /-- `LOOP_READBACK` (R535): Each stroke a Datum measures its loop and latches LOOP after two differing readbacks. -/
  | loopReadback (d : Fin 2) (ip in_ : Fin 65536) (mv : Fin 65536)
  /-- `STATUS_RECORD_SEND` (R397): A source sends its status record every 1,000 strokes or after a change. -/
  | statusRecordSend (src : Fin 3)
  /-- `CHECKER_TEST` (R404): A checker receives an injected fault or known answer and must report it. -/
  | checkerTest (d : Fin 2) (row : Fin 9) (die : Option (Fin 4)) (pass : Bool)
  /-- `DIE_RESTART` (R402): Under the compatible policy the DIE_RESET of attributed dies begins. -/
  | dieRestart
  /-- `RESTART_COMPLETE` (R402): Restarted dies are back in service and the reason clears. -/
  | restartComplete
  /-- `RESTART_TIMEOUT` (R402): A die not back by S+750,000 keeps its reason and the native policy applies. -/
  | restartTimeout
  /-- `MAIN_POWER_LOSS` (R512): J1 dropout is detected and the tile clocks stop. -/
  | mainPowerLoss (mv : BitVec 17)
  /-- `LOSS_SEQUENCE_STAGE` (R512): At S+1, S+10 and S+100 further J1 domains switch off and hub records are sent. -/
  | lossSequenceStage (gotA gotB : Bool)
  /-- `AUX12_LOSS` (R400): J2 falls below the Datum supervisor threshold and both Datums reset. -/
  | aux12Loss (mv : BitVec 17)
  /-- `J1_OVERVOLTAGE` (R506): J1 above 60 V for 10 µs stops the 48 V stages. -/
  | j1Overvoltage (mv : BitVec 17)
  /-- `INPUT_RANGE` (R506): An input leaves its operating range. -/
  | inputRange (j2 : Bool) (mv : BitVec 17)
  /-- `RAIL_FAULT` (R515): A rail outside its window for 2 µs is handled by its domain's reaction. -/
  | railFault (k : Fin 48)
  /-- `RETURN_CURRENT_STOP` (R532): J1 return above 2 A in AUX12_N for 5 µs stops the 48 V stages. -/
  | returnCurrentStop
  /-- `GOVERNOR_EVALUATION` (R520): Every 100 strokes the governor withdraws boost, lowers a cap or a cluster clock. -/
  | governorEvaluation (p : PowerSample)
  /-- `GOVERNOR_RAISE` (R521): Every 1,000 strokes the governor raises a cap or cluster clock, or restores boost. -/
  | governorRaise
  /-- `CAPACITY_SHED` (R453): At a stroke boundary whole partitions are shed in order until the checks fit. -/
  | capacityShed
  /-- `TEMPERATURE_SAMPLE` (R522): Every 100 strokes each sensor is sampled against its thresholds. -/
  | temperatureSample (ts : List (BitVec 8))
  /-- `EVENT_RECORD_WRITE` (R460): Each stroke the event engine writes up to 16 staged records to the ring. -/
  | eventRecordWrite
  /-- `EVENT_ENTRY_EXPIRY` (R460): A staged entry waiting 2^39 strokes is dropped and counted lost. -/
  | eventEntryExpiry
  /-- `HEALTH_UPDATE` (R464): Every 2^20 strokes part scores and WATCH or RETIRE_ADVISED states are updated. -/
  | healthUpdate
  /-- `PEER_FRAME` (R473): A peer frame is received, forwarded, acknowledged or discarded. -/
  | peerFrame (port : Fin 2) (e : PeerEvent)
  /-- `SUBJOB_TIMEOUT` (R486): SUB_DL passes without DONE and the sub-job is reissued. -/
  | subjobTimeout (gseq : BitVec 48)
  /-- `WORKER_LOST` (R486): No frame from a member for 1,000 strokes marks it lost. -/
  | workerLost (i : Fin 8)
  /-- `MEMBER_REJOIN` (R486): A lost member rejoins at a coat boundary after its links carry frames again. -/
  | memberRejoin (i : Fin 8)
  /-- `MANAGER_TAKEOVER` (R487): The standby raises the epoch, rebuilds the journal and checkpoints and becomes manager. -/
  | managerTakeover (sup : List ShardMsg)
  /-- `CHECKPOINT_CAPTURE` (R485): At a checkpoint coat the manager captures group partitions' regions and sends shards. -/
  | checkpointCapture
  /-- `PEER_TIME_MEASURE` (R477): Every 1,000 strokes each link measures the time offset between its ends. -/
  | peerTimeMeasure (p : Fin 2) (ofs : BitVec 32)
  /-- `MEMBER_RECORD_SEND` (R478): Datum firmware sends a member record on the management networks. -/
  | memberRecordSend (d : Fin 2) (m : Option MgmtMsg)
  /-- `APC_SLICE_END` (R497): At the pulse ending a core slice the kernel stops the virtual hart and switches partitions. -/
  | apcSliceEnd (hart : Fin 32)
  /-- `GUEST_TIMER` (R493): A partition's vstimecmp becomes due and its timer interrupt is taken. -/
  | guestTimer (pid : Fin 256) (hart : Fin 32) (cmp : Option (BitVec 64)) (ns10 : Fin 100)
  /-- `APC_MEMORY_REQUEST` (R499): An application-core cache miss or write-back passes the cluster regulator. -/
  | apcMemoryRequest (o : ApcOp)
  /-- `SOB_WINDOW_ACCESS` (R188): A core or PCIe access to the sync-object window performs READ, SET or ADD. -/
  | sobWindowAccess (a : WinAccess)
  /-- `PCIE_TLP` (R177): A PCIe request is translated in its bound PID's context or answered Unsupported Request. -/
  | pcieTlp (r : PcieReq)
  /-- `PCIE_MSI_WRITE` (R618): A downstream requester's interrupt write sets an identity in its PID's route. -/
  | pcieMsiWrite (port : Fin 2) (rid : BitVec 16) (data : List Byte)
  /-- `PCIE_LINK_TRAINED` (R545): A PCIe link trains and reports any degradation. -/
  | pcieLinkTrained (port : Fin 2) (gen : Fin 6) (log2w : Fin 4)
  /-- `FRZ_N` (R537): FRZ_N low for 1 µs requests a freeze. -/
  | frzN (low : Bool)
  /-- `PORST_N` (R537): PORST_N low for 10 µs performs PORST. -/
  | porstN (low : Bool)
  /-- `WAKE` (R561): WAKE high for 10 ms starts the module or leaves PARKED. -/
  | wake (high : Bool)
  /-- `PPS_IN_EDGE` (R537): A PPS_IN rising edge is used for steering or rejected. -/
  | ppsInEdge (ns10 : Fin 100) (good : Bool)
  /-- `DBG_EN_N` (R406): DBG_EN_N asserted breaks lockstep in BENCH or SERVICE or is refused. -/
  | dbgEnN (low : Bool)
  /-- `CAN_WAKE` (R561): A CAN XL wake-up pattern on an enabled channel leaves PARKED. -/
  | canWake (ch : Fin 2)
  /-- `CAN_FAULT` (R539): A CAN XL controller changes error state. -/
  | canFault (ch : Fin 4) (st : Fin 6)
  /-- `PAIR_DIAGNOSTIC` (R543): A down Ethernet link runs its TDR cable diagnostic every 100 ms. -/
  | pairDiagnostic (p : Fin 40) (r : Fin 3)
  /-- `PTP_SYNC` (R619): A Sync message or usable edge yields a time measurement for steering. -/
  | ptpSync (port : Fin 2) (off : BitVec 64) (clockId : BitVec 64)
  /-- `HOLDOVER` (R43): Loss of the time source holds steering and sets the holdover indication. -/
  | holdover (left : Bool)
  /-- `STARTUP` (R556): The module runs its start-up steps from reset to STANDBY. -/
  | startup (b : BringUp) (j1 j2 : BitVec 17) (hubOk : Bool) (src : StartInput)
  /-- `FULL_SELFTEST_DONE` (R558): The full self-test completes and partition fabric windows may run. -/
  | fullSelftestDone
  /-- `PARK_DELAY_EXPIRY` (R561): WAKE low for PARK_DELAY moves STANDBY to PARKED. -/
  | parkDelayExpiry
  /-- `OFF_DELAY_EXPIRY` (R561): WAKE low for OFF_DELAY in PARKED switches every domain off. -/
  | offDelayExpiry
  /-- `PARKED_EXIT` (R563): The module powers, retrains and recovers from PARKED to STANDBY. -/
  | parkedExit (b : BringUp)
  /-- `MODULE_WARM` (R564): The hub and compute dies reset while Datums and DRAM contents are kept. -/
  | moduleWarm (b : BringUp)
  /-- `DIE_RESET` (R564): One compute die's quadrant, edge and control domains reset and rebuild their masks. -/
  | dieReset (d : Fin 4)
  /-- `DATUM_RESET` (R566): A Datum's own supervisor resets it and it boots again from its flash. -/
  | datumReset (d : Fin 2)
  /-- `IMAGE_FRAME` (R554): An image-update frame on MGMT_A is written to the non-booted slot of both Datums. -/
  | imageFrame (x : ImageFrame)
  /-- `FREEZE` (R572): A freeze acts: loops go OFF, the sequencer stops and memory arbiters freeze. -/
  | freeze
  /-- `FREEZE_POINT` (R573): At the freeze point every functional clock stops and the module is FROZEN. -/
  | freezePoint
  /-- `TAP_INSTRUCTION` (R575): A TAP instruction gives access at the held debug level or acts as BYPASS. -/
  | tapInstruction (op : TapOp)
  /-- `REGISTER_WRITE` (R609): An owner write to a register without behaviour of its own acts under the field access codes. -/
  | registerWrite (w : RegWrite)
  /-- `MOD_INT_EOI` (R615): A write of EOI acknowledges or re-raises the owner summary. -/
  | modIntEoi (v : BitVec 64)
  /-- `TIME_STEP` (R620): A write to TIME_STEP requests a step of module time or is refused. -/
  | timeStep (v : BitVec 64)
  /-- `TIME_STEP_EFFECT` (R620): At the coat boundary STROKE_COUNT advances by the step and deadlines move. -/
  | timeStepEffect
  /-- `TIME_SRC_WRITE` (R619): A write changing SRC switches the time source at the next stroke boundary. -/
  | timeSrcWrite (v : BitVec 64)
  /-- `EVT_HEAD_WRITE` (R470): A write to EVT_HEAD frees ring slots for the event engine. -/
  | evtHeadWrite (v : BitVec 64)
  /-- `PWR_EN_WRITE` (R316): A write of PWR_EN switches a camera port's power and clears a fault state by 0 then 1. -/
  | pwrEnWrite (q : Fin 24) (on above : Bool)
  /-- `MAIN_POWER_RETURN` (R564): J1 returns to its operating range after a main-power loss and the module performs PORST and starts up. -/
  | mainPowerReturn (mv : BitVec 17)
  /-- `REFERENCE_LOSS` (R517): Loss of the 100 MHz module reference stops every module-derived clock, and both Datums then latch MONITOR_LINK and CLOCK. -/
  | referenceLoss
  /-- `CP_WATCHDOG` (R225): A command processor's watchdog expires, the processor stops with CP_FAULT0 cause 2, and its queues are taken over. -/
  | cpWatchdog (cp : Fin 4)
  /-- `LINK_UP` (R542): A lidar, backbone, management or peer Ethernet link comes up, so that streams, time, status records or peer traffic can use it. -/
  | linkUp (p : Fin 40)
  deriving DecidableEq, Repr

end Sys2Proof
end

