-- ==== Sys2Proof/Decode.lean ====
section
/-! DEFINITION. The command that a table word spells.  No row of spec/opcode_table.json gives bits, so
no word spells one. -/

namespace Sys2Proof

/-- The command that the bits of a table row spell: none, since no row gives bits. -/
def decodeTableWord (_nbits _w : Nat) : Option Instr := none

end Sys2Proof
end

