-- ==== Sys2Proof/Config.lean ====
section
/-! DEFINITION. What an implementation fixes and the manual leaves open: the free values.  Each is an
opaque constant without a body, so no proof can see a value of it. -/

namespace Sys2Proof.Config

/-- A free 64-bit value for the `n`-th open result of a run (results "unpredictable within the issuing
partition", R9, and results the manual does not state); log entry 3. -/
opaque freeWord : Nat → Word

/-- The `n`-th draw of a hardware random source (R416, R576); log entry 4. -/
opaque randomWord : Nat → Word

/-- What stands in the header of an image (R552): its version, its `SECVER` and its SHA-384 digest; whether an image of a
kind verifies against a Datum's keys; log entry 12. -/
opaque imageVersion : List (BitVec 8) → Nat
opaque imageSecver : List (BitVec 8) → Nat
opaque imageDigest : List (BitVec 8) → Nat
opaque imageGood : Nat → List (BitVec 8) → Bool

/-- Whether the signature of a debug credential verifies (R576); log entry 12. -/
opaque credentialGood : List (BitVec 8) → Bool

/-- What a frozen module's flops, memories and check bytes hold where the manual states no content, by freeze and item
(R577, R578); log entry 36. -/
opaque frozenData : Nat → Nat → List Nat

/-- The `DETAIL` of a refusal `REJ_NO_RESOURCE` or `REJ_BUSY` for which no entry states one (R213 calls it
opcode-specific), by opcode; log entry 39. -/
opaque refusalDetail : Nat → Nat → BitVec 32

/-- The page in which firmware holds the page table of a level to which an entry of the level above points, by context, level
and entry (R175); log entry 53. -/
opaque tablePage : Nat → Nat → Nat → BitVec 36

end Sys2Proof.Config
end

