-- ==== Sys2Proof/Machine/Bits.lean ====
section
/-! DEFINITION. Bit fields, byte order (R13), sign extension and the checks over bytes that records
carry. -/

namespace Sys2Proof.Machine

/-- Bits `lo + len - 1 : lo` of a number. -/
def bits (w lo len : Nat) : Nat := (w >>> lo) % 2 ^ len

/-- Bit `i` of a number as a Bool. -/
def bit (w i : Nat) : Bool := w.testBit i

/-- A number with bits `lo + len - 1 : lo` replaced by `v`. -/
def setBits (w lo len v : Nat) : Nat :=
  w - (bits w lo len) * 2 ^ lo + (v % 2 ^ len) * 2 ^ lo

/-- The value of a two's-complement field of `len` bits. -/
def sx (len v : Nat) : Int :=
  let u := v % 2 ^ len
  if u < 2 ^ (len - 1) then (u : Int) else (u : Int) - (2 ^ len : Nat)

/-- An integer as a two's-complement field of `len` bits. -/
def unsx (len : Nat) (v : Int) : Nat := (v % ((2 ^ len : Nat) : Int)).toNat

/-- One or zero. -/
def b2n (b : Bool) : Nat := if b then 1 else 0

/-- A counter field of `len` bits that saturates instead of wrapping. -/
def satAdd (len v n : Nat) : Nat := min (v + n) (2 ^ len - 1)

/-- The ceiling of a quotient. -/
def cdiv (a b : Nat) : Nat := (a + b - 1) / b

/-- The number that a little-endian run of bytes holds (R13). -/
def leNat : List Byte → Nat
  | [] => 0
  | b :: bs => b.toNat + 256 * leNat bs

/-- The `n` little-endian bytes of a number (R13). -/
def leBytes : Nat → Nat → List Byte
  | 0, _ => []
  | n + 1, v => BitVec.ofNat 8 v :: leBytes n (v / 256)

/-- `n` zero bytes. -/
def zeros (n : Nat) : List Byte := List.replicate n 0

/-- The number in bytes `at` to `at + n - 1` of a record; bytes beyond its end read zero. -/
def field (bs : List Byte) (lo n : Nat) : Nat := leNat ((bs.drop lo).take n)

/-- A record with bytes `lo` on replaced by `v`. -/
def patch (bs : List Byte) (lo : Nat) (v : List Byte) : List Byte :=
  bs.take lo ++ zeros (lo - bs.length) ++ v ++ bs.drop (lo + v.length)

/-- A record with the `n`-byte field at `lo` set to `v`. -/
def putField (bs : List Byte) (lo n v : Nat) : List Byte := patch bs lo (leBytes n v)

/-- Cuts or zero-fills a run of bytes to length `n`. -/
def fit (n : Nat) (bs : List Byte) : List Byte := bs.take n ++ zeros (n - bs.length)

/-- One bit of a reflected CRC of 32 bits with the Castagnoli polynomial. -/
def crcBit (c : Nat) : Nat := if c % 2 = 1 then (c / 2) ^^^ 0x82F63B78 else c / 2

/-- The register of CRC-32C after a byte. -/
def crcByte (c : Nat) (b : Byte) : Nat := (List.range 8).foldl (fun c _ => crcBit c) (c ^^^ b.toNat)

/-- The register of CRC-32C after bytes.  The `match` makes each register a numeral before the next byte, for
evaluation. -/
def crcBytes : Nat → List Byte → Nat
  | c, [] => c
  | c, b :: bs =>
    match crcByte c b with
    | 0 => crcBytes 0 bs
    | n + 1 => crcBytes (n + 1) bs

/-- CRC-32C over bytes (R215, R461).  The register's start and end values are the usual ones of
CRC-32C; PRESUMED, log entry 6. -/
def crc32c (bs : List Byte) : Nat := crcBytes 0xFFFFFFFF bs ^^^ 0xFFFFFFFF

/-- A CRC of `w` bits, most significant bit first, polynomial `p`, start value 0, over bits given as
Bools. -/
def crcMsb (w p : Nat) (bs : List Bool) : Nat :=
  bs.foldl (fun c b =>
    let top := (c >>> (w - 1)) % 2 = 1
    let c := (c * 2) % 2 ^ w
    if (top != b) then c ^^^ p else c) 0

/-- The bits of a number, most significant first. -/
def bitsMsb (len v : Nat) : List Bool := (List.range len).reverse.map fun i => v.testBit i

/-- The base-2 logarithm rounded down (0 for 0). -/
def log2 (n : Nat) : Nat := Nat.log2 n

/-- The integer square root rounded down, by bits from the top. -/
def isqrtGo : Nat → Nat → Nat → Nat
  | 0, _, r => r
  | k + 1, n, r =>
    let c := r + 2 ^ k
    isqrtGo k n (if c * c ≤ n then c else r)

/-- The integer square root rounded down. -/
def isqrt (n : Nat) : Nat := isqrtGo (log2 n / 2 + 1) n 0

/-- The lowest number below `n` that satisfies `p`. -/
def firstNat (n : Nat) (p : Nat → Bool) : Option Nat := (List.range n).find? p

/-- The number of numbers below `n` that satisfy `p`. -/
def countNat (n : Nat) (p : Nat → Bool) : Nat := (List.range n).countP p

/-- Sum of a list of numbers. -/
def sumNat (l : List Nat) : Nat := l.foldl (· + ·) 0

/-- Stable insertion into a list ordered by `le`. -/
def insertBy {α : Type} (le : α → α → Bool) (x : α) : List α → List α
  | [] => [x]
  | y :: ys => if le y x then y :: insertBy le x ys else x :: y :: ys

/-- Stable sort by insertion: equal elements keep their order. -/
def sortBy {α : Type} (le : α → α → Bool) (l : List α) : List α :=
  l.foldl (fun acc x => insertBy le x acc) []

/-- Replaces element `i` of a list; no change beyond its end. -/
def setNth {α : Type} (l : List α) (i : Nat) (v : α) : List α := l.set i v

end Sys2Proof.Machine
end

