-- ==== Sys2Proof/Machine/RegTable.lean ====
section
/-! DEFINITION. The register map of the module (R608, R612): every register of every block, as the
block tables of R72, R109, R191, R193, R225, R226, R313, R334, R335, R353, R378, R408, R443, R444,
R445, R470, R491, R528, R582, R613, R621, R622 and R623 list it, with the access code (R14) and the
reset value of each field.  A register whose table gives no reset value ("—") has the value that
assumption log entry 2 names. -/

namespace Sys2Proof.Machine

/-- The access codes of R14. -/
inductive Access where
  | ro | rw | wo | w1c | w1s | rwl
  deriving DecidableEq, Repr

/-- One field of a register: lowest bit, width, access code and reset value. -/
structure FieldSpec where
  lo : Nat
  len : Nat
  acc : Access
  reset : Nat
  deriving DecidableEq, Repr

/-- One row group of a block table: the register stands in `nblk` blocks from `block` on, `stride`
block numbers apart, at `count` offsets from `off` on, 8 bytes apart. -/
structure RegSpec where
  block : Nat
  nblk : Nat
  stride : Nat
  off : Nat
  count : Nat
  fields : List FieldSpec
  deriving DecidableEq, Repr

/-- Names one field of one register: block number, byte offset, lowest bit and width. -/
structure Fld where
  block : Nat
  off : Nat
  lo : Nat
  len : Nat
  deriving DecidableEq, Repr

/-- The same field in the block `n` further on (one block per tile, channel, port or processor). -/
def Fld.blk (f : Fld) (n : Nat) : Fld := { f with block := f.block + n }

/-- The same field `n` registers further on in its block. -/
def Fld.nth (f : Fld) (n : Nat) : Fld := { f with off := f.off + 8 * n }

/-- The same field for the second port of the `PCIE` block (R623). -/
def Fld.port (f : Fld) (n : Nat) : Fld := { f with off := f.off + 0x800 * n }

/-- The same field for Datum `n` in the `DTM` and `TRV` blocks (R612). -/
def Fld.datum (f : Fld) (n : Nat) : Fld := { f with block := f.block + 8 * n }

/-- The same field, `n` bits further up (bit n of a status or a map). -/
def Fld.bit (f : Fld) (n : Nat) : Fld := { f with lo := f.lo + n, len := 1 }

/-- The registers of block `STN` (R72). -/
def regsSTN : List RegSpec :=
  [
   ⟨0x10, 1, 1, 0x0, 1, [⟨0, 1, .ro, 0⟩, ⟨1, 1, .ro, 0⟩, ⟨2, 1, .ro, 0⟩, ⟨3, 1, .ro, 0⟩]⟩,
   ⟨0x10, 1, 1, 0x8, 1, [⟨0, 18, .ro, 1000⟩]⟩,
   ⟨0x10, 1, 1, 0x10, 1, [⟨0, 18, .ro, 0⟩]⟩,
   ⟨0x10, 1, 1, 0x18, 1, [⟨0, 64, .ro, 0⟩]⟩,
   ⟨0x10, 1, 1, 0x20, 1, [⟨0, 18, .ro, 0⟩]⟩,
   ⟨0x10, 1, 1, 0x28, 1, [⟨0, 64, .ro, 0⟩]⟩,
   ⟨0x10, 1, 1, 0x30, 1, [⟨0, 8, .ro, 0⟩, ⟨8, 12, .ro, 0⟩, ⟨32, 32, .ro, 0⟩]⟩,
   ⟨0x10, 1, 1, 0x38, 1, [⟨0, 32, .ro, 0⟩]⟩,
   ⟨0x10, 1, 1, 0x40, 1, [⟨0, 1, .w1c, 0⟩, ⟨1, 1, .w1c, 0⟩, ⟨2, 1, .w1c, 0⟩, ⟨3, 1, .w1c, 0⟩, ⟨4, 1, .w1c, 0⟩]⟩,
   ⟨0x10, 1, 1, 0x48, 1, [⟨0, 5, .rw, 0⟩]⟩,
   ⟨0x10, 1, 1, 0x50, 1, [⟨0, 8, .rw, 0⟩, ⟨8, 3, .rw, 0⟩]⟩,
   ⟨0x10, 1, 1, 0x58, 1, [⟨0, 32, .ro, 0⟩]⟩]

/-- The registers of block `TILE` (R109). -/
def regsTILE : List RegSpec :=
  [
   ⟨0x100, 1152, 1, 0x0, 1, [⟨0, 2, .ro, 0⟩, ⟨2, 4, .ro, 0⟩, ⟨6, 5, .ro, 0⟩, ⟨16, 5, .ro, 0⟩, ⟨21, 5, .ro, 0⟩, ⟨26, 1, .ro, 0⟩]⟩,
   ⟨0x100, 1152, 1, 0x8, 1, [⟨0, 3, .ro, 1⟩, ⟨3, 1, .ro, 0⟩, ⟨4, 1, .ro, 0⟩, ⟨8, 8, .ro, 0⟩, ⟨16, 10, .ro, 0⟩]⟩,
   ⟨0x100, 1152, 1, 0x10, 1, [⟨0, 11, .ro, 400⟩]⟩,
   ⟨0x100, 1152, 1, 0x18, 1, [⟨0, 19, .ro, 0⟩, ⟨19, 19, .ro, 0⟩]⟩,
   ⟨0x100, 1152, 1, 0x20, 8, [⟨0, 8, .ro, 0⟩, ⟨8, 1, .ro, 0⟩, ⟨16, 7, .ro, 0⟩, ⟨24, 7, .ro, 0⟩]⟩,
   ⟨0x100, 1152, 1, 0x60, 1, [⟨0, 1, .w1c, 0⟩, ⟨1, 1, .w1c, 0⟩, ⟨4, 4, .ro, 0⟩]⟩,
   ⟨0x100, 1152, 1, 0x68, 1, [⟨0, 64, .ro, 0⟩]⟩,
   ⟨0x100, 1152, 1, 0x70, 1, [⟨0, 8, .ro, 0⟩, ⟨8, 10, .ro, 0⟩, ⟨18, 12, .ro, 0⟩, ⟨32, 19, .ro, 0⟩]⟩,
   ⟨0x100, 1152, 1, 0x78, 1, [⟨0, 19, .ro, 0⟩, ⟨19, 19, .ro, 0⟩, ⟨38, 19, .ro, 0⟩]⟩,
   ⟨0x100, 1152, 1, 0x80, 1, [⟨0, 2, .ro, 0⟩, ⟨2, 4, .ro, 0⟩, ⟨32, 32, .ro, 0⟩]⟩,
   ⟨0x100, 1152, 1, 0x88, 1, [⟨0, 32, .ro, 0⟩, ⟨32, 16, .ro, 0⟩]⟩,
   ⟨0x100, 1152, 1, 0x90, 1, [⟨0, 1, .w1c, 0⟩, ⟨1, 1, .w1c, 0⟩, ⟨2, 1, .w1c, 0⟩, ⟨3, 1, .w1c, 0⟩]⟩] ++
  [
   ⟨0x100, 1152, 1, 0x98, 1, [⟨0, 4, .rw, 0⟩]⟩]

/-- The registers of block `PMMU` (R191). -/
def regsPMMU : List RegSpec :=
  [
   ⟨0x18, 1, 1, 0x0, 1, [⟨0, 1, .ro, 0⟩, ⟨1, 13, .ro, 4096⟩]⟩,
   ⟨0x18, 1, 1, 0x8, 1, [⟨12, 36, .ro, 0⟩]⟩,
   ⟨0x18, 1, 1, 0x10, 1, [⟨0, 4, .rwl, 0⟩]⟩,
   ⟨0x18, 1, 1, 0x18, 1, [⟨0, 1, .w1s, 0⟩]⟩,
   ⟨0x18, 1, 1, 0x20, 1, [⟨0, 1, .w1c, 0⟩, ⟨1, 1, .w1c, 0⟩, ⟨2, 3, .ro, 0⟩, ⟨5, 3, .ro, 0⟩, ⟨8, 8, .ro, 0⟩]⟩,
   ⟨0x18, 1, 1, 0x28, 1, [⟨0, 48, .ro, 0⟩]⟩,
   ⟨0x18, 1, 1, 0x30, 1, [⟨0, 64, .ro, 0⟩]⟩,
   ⟨0x18, 1, 1, 0x38, 1, [⟨0, 1, .w1c, 0⟩, ⟨1, 1, .w1c, 0⟩]⟩,
   ⟨0x18, 1, 1, 0x40, 1, [⟨0, 2, .rw, 0⟩]⟩]

/-- The registers of block `SOB` (R193). -/
def regsSOB : List RegSpec :=
  [
   ⟨0x20, 1, 1, 0x0, 1, [⟨0, 11, .ro, 1020⟩]⟩,
   ⟨0x20, 1, 1, 0x8, 1, [⟨0, 1, .w1c, 0⟩, ⟨1, 1, .w1c, 0⟩, ⟨2, 3, .ro, 0⟩, ⟨8, 8, .ro, 0⟩, ⟨16, 16, .ro, 0⟩, ⟨32, 32, .ro, 0⟩]⟩,
   ⟨0x20, 1, 1, 0x10, 1, [⟨0, 1, .w1c, 0⟩]⟩,
   ⟨0x20, 1, 1, 0x18, 1, [⟨0, 1, .rw, 0⟩]⟩,
   ⟨0x20, 1, 1, 0x1000, 128, [⟨0, 64, .ro, 0⟩]⟩]

/-- The registers of block `CP` (R225). -/
def regsCP : List RegSpec :=
  [
   ⟨0x8, 4, 1, 0x0, 1, [⟨0, 2, .ro, 0⟩, ⟨2, 1, .ro, 0⟩]⟩,
   ⟨0x8, 4, 1, 0x8, 1, [⟨0, 64, .ro, 0⟩]⟩,
   ⟨0x8, 4, 1, 0x10, 1, [⟨0, 1, .w1c, 0⟩, ⟨1, 1, .w1c, 0⟩, ⟨2, 2, .ro, 0⟩, ⟨32, 32, .ro, 0⟩]⟩,
   ⟨0x8, 4, 1, 0x18, 1, [⟨0, 1, .w1c, 0⟩, ⟨1, 1, .w1c, 0⟩]⟩,
   ⟨0x8, 4, 1, 0x20, 1, [⟨0, 2, .rw, 0⟩]⟩]

/-- The registers of block `JNL` (R226). -/
def regsJNL : List RegSpec :=
  [
   ⟨0x30, 1, 1, 0x0, 1, [⟨0, 2, .ro, 0⟩, ⟨2, 1, .ro, 0⟩]⟩,
   ⟨0x30, 1, 1, 0x8, 1, [⟨16, 32, .ro, 0⟩]⟩,
   ⟨0x30, 1, 1, 0x10, 1, [⟨0, 23, .ro, 4194304⟩, ⟨32, 23, .ro, 4128768⟩]⟩,
   ⟨0x30, 1, 1, 0x18, 1, [⟨0, 64, .ro, 0⟩]⟩,
   ⟨0x30, 1, 1, 0x20, 1, [⟨0, 16, .ro, 0⟩, ⟨16, 16, .ro, 0⟩, ⟨32, 16, .ro, 0⟩]⟩,
   ⟨0x30, 1, 1, 0x28, 1, [⟨0, 1, .w1c, 0⟩, ⟨1, 1, .w1c, 0⟩, ⟨2, 1, .w1c, 0⟩]⟩,
   ⟨0x30, 1, 1, 0x30, 1, [⟨0, 3, .rw, 0⟩]⟩]

/-- The registers of block `DFIN` (R313). -/
def regsDFIN : List RegSpec :=
  [
   ⟨0x748, 1, 1, 0x0, 1, [⟨0, 4, .ro, 0⟩]⟩,
   ⟨0x748, 1, 1, 0x8, 4, [⟨0, 11, .ro, 0⟩, ⟨11, 11, .ro, 0⟩, ⟨32, 32, .ro, 0⟩]⟩,
   ⟨0x748, 1, 1, 0x28, 1, [⟨0, 1, .w1c, 0⟩, ⟨1, 1, .w1c, 0⟩, ⟨2, 2, .ro, 0⟩, ⟨4, 3, .ro, 0⟩, ⟨8, 8, .ro, 0⟩, ⟨16, 16, .ro, 0⟩, ⟨32, 32, .ro, 0⟩]⟩,
   ⟨0x748, 1, 1, 0x30, 1, [⟨0, 1, .w1c, 0⟩, ⟨1, 1, .w1c, 0⟩]⟩,
   ⟨0x748, 1, 1, 0x38, 1, [⟨0, 2, .rw, 0⟩]⟩]

/-- The registers of block `CAM` (R334). -/
def regsCAM : List RegSpec :=
  [
   ⟨0x700, 24, 1, 0x0, 1, [⟨0, 1, .rw, 0⟩, ⟨1, 1, .rwl, 0⟩, ⟨2, 3, .rwl, 5⟩, ⟨5, 3, .rwl, 1⟩, ⟨8, 1, .rwl, 1⟩, ⟨9, 1, .rwl, 0⟩, ⟨10, 4, .rwl, 0⟩, ⟨16, 8, .rwl, 10⟩, ⟨24, 8, .rwl, 0⟩, ⟨32, 7, .rwl, 100⟩, ⟨40, 16, .rwl, 10000⟩]⟩,
   ⟨0x700, 24, 1, 0x8, 1, [⟨0, 7, .rwl, 0⟩, ⟨8, 16, .rwl, 0⟩, ⟨24, 5, .rwl, 8⟩]⟩,
   ⟨0x700, 24, 1, 0x10, 2, [⟨0, 64, .rwl, 0⟩]⟩,
   ⟨0x700, 24, 1, 0x20, 2, [⟨0, 64, .ro, 0⟩]⟩,
   ⟨0x700, 24, 1, 0x30, 1, [⟨0, 2, .ro, 0⟩, ⟨2, 3, .ro, 0⟩, ⟨5, 3, .ro, 0⟩, ⟨8, 3, .ro, 0⟩, ⟨11, 5, .ro, 31⟩, ⟨16, 5, .ro, 31⟩]⟩,
   ⟨0x700, 24, 1, 0x38, 1, [⟨0, 16, .ro, 0⟩, ⟨16, 16, .ro, 0⟩]⟩,
   ⟨0x700, 24, 1, 0x40, 1, [⟨0, 32, .ro, 0⟩, ⟨32, 32, .ro, 0⟩]⟩,
   ⟨0x700, 24, 1, 0x48, 1, [⟨0, 16, .ro, 0⟩, ⟨16, 16, .ro, 0⟩, ⟨32, 16, .ro, 0⟩, ⟨48, 16, .ro, 0⟩]⟩,
   ⟨0x700, 24, 1, 0x50, 1, [⟨0, 1, .w1c, 0⟩, ⟨1, 1, .w1c, 0⟩, ⟨2, 1, .w1c, 0⟩, ⟨3, 1, .w1c, 0⟩, ⟨4, 1, .w1c, 0⟩, ⟨5, 1, .w1c, 0⟩, ⟨6, 1, .w1c, 0⟩]⟩,
   ⟨0x700, 24, 1, 0x58, 1, [⟨0, 7, .rw, 0⟩]⟩,
   ⟨0x700, 24, 1, 0x60, 1, [⟨0, 1, .w1s, 0⟩]⟩]

/-- The registers of block `LID` (R335). -/
def regsLID : List RegSpec :=
  [
   ⟨0x720, 8, 1, 0x0, 1, [⟨0, 1, .rwl, 0⟩, ⟨1, 1, .rwl, 0⟩, ⟨2, 1, .rwl, 1⟩, ⟨8, 8, .rwl, 0⟩]⟩,
   ⟨0x720, 8, 1, 0x8, 1, [⟨0, 2, .ro, 0⟩, ⟨8, 4, .ro, 15⟩, ⟨12, 4, .ro, 15⟩]⟩,
   ⟨0x720, 8, 1, 0x10, 1, [⟨0, 32, .ro, 0⟩, ⟨32, 32, .ro, 0⟩]⟩,
   ⟨0x720, 8, 1, 0x18, 1, [⟨0, 32, .ro, 0⟩, ⟨32, 32, .ro, 0⟩]⟩,
   ⟨0x720, 8, 1, 0x20, 1, [⟨0, 1, .w1c, 0⟩, ⟨1, 1, .w1c, 0⟩, ⟨2, 1, .w1c, 0⟩]⟩,
   ⟨0x720, 8, 1, 0x28, 1, [⟨0, 3, .rw, 0⟩]⟩,
   ⟨0x720, 8, 1, 0x30, 1, [⟨0, 1, .w1s, 0⟩]⟩]

/-- The registers of block `FUS` (R353). -/
def regsFUS : List RegSpec :=
  [
   ⟨0x740, 1, 1, 0x0, 1, [⟨0, 1, .ro, 0⟩, ⟨8, 8, .ro, 0⟩, ⟨16, 2, .ro, 0⟩, ⟨18, 7, .ro, 0⟩, ⟨32, 13, .ro, 4096⟩]⟩,
   ⟨0x740, 1, 1, 0x8, 1, [⟨0, 64, .ro, 0⟩]⟩,
   ⟨0x740, 1, 1, 0x10, 1, [⟨0, 32, .ro, 0⟩, ⟨32, 32, .ro, 0⟩]⟩,
   ⟨0x740, 1, 1, 0x18, 1, [⟨0, 1, .w1c, 0⟩, ⟨1, 1, .w1c, 0⟩, ⟨2, 3, .ro, 0⟩, ⟨8, 8, .ro, 0⟩, ⟨16, 2, .ro, 0⟩, ⟨32, 32, .ro, 0⟩]⟩,
   ⟨0x740, 1, 1, 0x20, 1, [⟨0, 32, .ro, 0⟩, ⟨32, 16, .ro, 0⟩]⟩,
   ⟨0x740, 1, 1, 0x28, 1, [⟨0, 1, .w1c, 0⟩, ⟨1, 1, .w1c, 0⟩]⟩,
   ⟨0x740, 1, 1, 0x30, 1, [⟨0, 2, .rw, 0⟩]⟩]

/-- The registers of block `TRV` (R378). -/
def regsTRV : List RegSpec :=
  [
   ⟨0x790, 2, 8, 0x0, 1, [⟨0, 1, .ro, 0⟩, ⟨1, 1, .ro, 0⟩, ⟨2, 1, .ro, 0⟩, ⟨3, 1, .ro, 0⟩, ⟨4, 1, .ro, 0⟩, ⟨5, 1, .ro, 0⟩]⟩,
   ⟨0x790, 2, 8, 0x8, 1, [⟨0, 32, .ro, 0⟩, ⟨32, 32, .ro, 0⟩]⟩,
   ⟨0x790, 2, 8, 0x10, 1, [⟨0, 64, .ro, 0⟩]⟩,
   ⟨0x790, 2, 8, 0x18, 1, [⟨0, 18, .ro, 0⟩, ⟨32, 15, .ro, 0⟩]⟩,
   ⟨0x790, 2, 8, 0x20, 1, [⟨0, 48, .ro, 0⟩, ⟨48, 8, .ro, 0⟩]⟩,
   ⟨0x790, 2, 8, 0x28, 1, [⟨0, 48, .ro, 0⟩, ⟨48, 8, .ro, 0⟩, ⟨56, 2, .ro, 0⟩]⟩,
   ⟨0x790, 2, 8, 0x30, 1, [⟨0, 8, .ro, 5⟩, ⟨8, 8, .ro, 0⟩, ⟨32, 32, .ro, 0⟩]⟩,
   ⟨0x790, 2, 8, 0x38, 1, [⟨0, 8, .ro, 5⟩, ⟨8, 8, .ro, 0⟩, ⟨32, 32, .ro, 0⟩]⟩,
   ⟨0x790, 2, 8, 0x40, 1, [⟨0, 7, .ro, 0⟩]⟩,
   ⟨0x790, 2, 8, 0x48, 1, [⟨0, 64, .ro, 0⟩]⟩,
   ⟨0x790, 2, 8, 0x50, 1, [⟨0, 1, .w1c, 0⟩, ⟨1, 1, .w1c, 0⟩, ⟨2, 3, .ro, 0⟩, ⟨8, 8, .ro, 0⟩, ⟨32, 32, .ro, 0⟩]⟩,
   ⟨0x790, 2, 8, 0x58, 1, [⟨0, 1, .w1c, 0⟩, ⟨1, 1, .w1c, 0⟩, ⟨2, 1, .w1c, 0⟩, ⟨3, 1, .w1c, 0⟩]⟩] ++
  [
   ⟨0x790, 2, 8, 0x60, 1, [⟨0, 4, .rw, 0⟩]⟩]

/-- The registers of block `DTM` (R408). -/
def regsDTM : List RegSpec :=
  [
   ⟨0x780, 2, 8, 0x0, 1, [⟨0, 1, .ro, 0⟩, ⟨1, 1, .ro, 0⟩, ⟨2, 1, .ro, 0⟩, ⟨3, 1, .ro, 1⟩, ⟨4, 1, .ro, 0⟩, ⟨5, 1, .ro, 0⟩, ⟨6, 1, .ro, 0⟩, ⟨7, 1, .ro, 0⟩, ⟨8, 8, .ro, 0⟩, ⟨16, 8, .ro, 32⟩]⟩,
   ⟨0x780, 2, 8, 0x8, 1, [⟨0, 64, .ro, 0⟩]⟩,
   ⟨0x780, 2, 8, 0x10, 1, [⟨0, 16, .ro, 0⟩]⟩,
   ⟨0x780, 2, 8, 0x18, 1, [⟨0, 32, .ro, 0⟩, ⟨32, 16, .ro, 0⟩, ⟨48, 16, .ro, 0⟩]⟩,
   ⟨0x780, 2, 8, 0x20, 1, [⟨0, 16, .ro, 0⟩, ⟨16, 8, .ro, 0⟩]⟩,
   ⟨0x780, 2, 8, 0x28, 1, [⟨0, 5, .ro, 0⟩, ⟨5, 1, .ro, 0⟩]⟩,
   ⟨0x780, 2, 8, 0x30, 1, [⟨0, 32, .ro, 0⟩, ⟨32, 8, .ro, 0⟩, ⟨40, 2, .ro, 0⟩]⟩,
   ⟨0x780, 2, 8, 0x38, 1, [⟨0, 1, .w1c, 0⟩, ⟨1, 1, .w1c, 0⟩, ⟨8, 8, .ro, 0⟩, ⟨16, 8, .ro, 0⟩, ⟨24, 8, .ro, 0⟩, ⟨32, 32, .ro, 0⟩]⟩,
   ⟨0x780, 2, 8, 0x40, 1, [⟨0, 1, .w1c, 0⟩, ⟨1, 1, .w1c, 0⟩, ⟨2, 1, .w1c, 0⟩, ⟨3, 1, .w1c, 0⟩, ⟨4, 1, .w1c, 0⟩]⟩,
   ⟨0x780, 2, 8, 0x48, 1, [⟨0, 5, .rw, 0⟩]⟩]

/-- The registers of block `MC` (R443). -/
def regsMC : List RegSpec :=
  [
   ⟨0x600, 64, 1, 0x0, 1, [⟨0, 3, .ro, 0⟩, ⟨3, 1, .ro, 0⟩, ⟨4, 1, .ro, 0⟩, ⟨8, 2, .ro, 0⟩]⟩,
   ⟨0x600, 64, 1, 0x8, 1, [⟨0, 32, .ro, 0⟩, ⟨32, 8, .ro, 0⟩, ⟨40, 8, .ro, 0⟩, ⟨48, 16, .ro, 0⟩]⟩,
   ⟨0x600, 64, 1, 0x10, 2, [⟨0, 6, .ro, 0⟩, ⟨6, 6, .ro, 0⟩, ⟨12, 7, .ro, 0⟩, ⟨19, 7, .ro, 0⟩, ⟨26, 1, .ro, 0⟩, ⟨32, 8, .ro, 0⟩, ⟨40, 8, .ro, 0⟩, ⟨48, 8, .ro, 0⟩]⟩,
   ⟨0x600, 64, 1, 0x20, 1, [⟨0, 5, .rwl, 10⟩, ⟨5, 1, .rwl, 0⟩]⟩,
   ⟨0x600, 64, 1, 0x28, 1, [⟨0, 32, .ro, 0⟩, ⟨32, 16, .ro, 0⟩]⟩,
   ⟨0x600, 64, 1, 0x30, 1, [⟨0, 64, .ro, 0⟩]⟩,
   ⟨0x600, 64, 1, 0x38, 1, [⟨0, 1, .w1c, 0⟩, ⟨1, 1, .w1c, 0⟩, ⟨2, 1, .w1c, 0⟩]⟩,
   ⟨0x600, 64, 1, 0x40, 1, [⟨0, 3, .rw, 0⟩]⟩,
   ⟨0x600, 64, 1, 0x48, 1, [⟨0, 1, .w1s, 0⟩]⟩]

/-- The registers of block `ECC` (R444). -/
def regsECC : List RegSpec :=
  [
   ⟨0x640, 1, 1, 0x0, 1, [⟨0, 8, .ro, 0⟩, ⟨8, 8, .ro, 0⟩]⟩,
   ⟨0x640, 1, 1, 0x8, 1, [⟨0, 64, .ro, 0⟩]⟩,
   ⟨0x640, 1, 1, 0x10, 1, [⟨0, 16, .rwl, 64⟩, ⟨16, 5, .rwl, 24⟩]⟩,
   ⟨0x640, 1, 1, 0x18, 1, [⟨0, 16, .rwl, 16⟩, ⟨16, 5, .rwl, 26⟩]⟩,
   ⟨0x640, 1, 1, 0x20, 1, [⟨0, 32, .ro, 0⟩, ⟨32, 32, .ro, 0⟩]⟩,
   ⟨0x640, 1, 1, 0x28, 1, [⟨0, 32, .ro, 0⟩, ⟨32, 16, .ro, 0⟩]⟩,
   ⟨0x640, 1, 1, 0x30, 1, [⟨0, 48, .ro, 281474976710655⟩]⟩,
   ⟨0x640, 1, 1, 0x38, 1, [⟨0, 64, .w1c, 0⟩]⟩,
   ⟨0x640, 1, 1, 0x40, 1, [⟨0, 1, .w1c, 0⟩, ⟨1, 1, .w1c, 0⟩, ⟨2, 1, .w1c, 0⟩, ⟨3, 1, .w1c, 0⟩, ⟨4, 1, .w1c, 0⟩]⟩,
   ⟨0x640, 1, 1, 0x48, 1, [⟨0, 5, .rw, 0⟩]⟩,
   ⟨0x640, 1, 1, 0x50, 1, [⟨0, 1, .w1s, 0⟩]⟩,
   ⟨0x640, 1, 1, 0x100, 64, [⟨0, 16, .ro, 0⟩]⟩] ++
  [
   ⟨0x640, 1, 1, 0x1000, 1152, [⟨0, 16, .ro, 0⟩]⟩,
   ⟨0x640, 1, 1, 0x4000, 18, [⟨0, 64, .w1c, 0⟩]⟩]

/-- The registers of block `ARB` (R445). -/
def regsARB : List RegSpec :=
  [
   ⟨0x648, 1, 1, 0x0, 1, [⟨0, 64, .w1c, 0⟩]⟩,
   ⟨0x648, 1, 1, 0x8, 1, [⟨0, 14, .w1c, 0⟩]⟩,
   ⟨0x648, 1, 1, 0x10, 1, [⟨0, 64, .ro, 0⟩]⟩,
   ⟨0x648, 1, 1, 0x18, 1, [⟨0, 14, .ro, 0⟩]⟩,
   ⟨0x648, 1, 1, 0x20, 1, [⟨0, 16, .rw, 2048⟩, ⟨16, 16, .rw, 8192⟩, ⟨32, 16, .rw, 512⟩, ⟨48, 16, .rw, 256⟩]⟩,
   ⟨0x648, 1, 1, 0x28, 1, [⟨0, 7, .rw, 0⟩, ⟨8, 8, .rw, 0⟩]⟩,
   ⟨0x648, 1, 1, 0x30, 1, [⟨0, 16, .ro, 0⟩, ⟨16, 16, .ro, 0⟩, ⟨32, 16, .ro, 0⟩, ⟨48, 8, .ro, 0⟩, ⟨56, 1, .ro, 0⟩]⟩,
   ⟨0x648, 1, 1, 0x38, 1, [⟨0, 1, .w1c, 0⟩]⟩,
   ⟨0x648, 1, 1, 0x40, 1, [⟨0, 1, .rw, 0⟩]⟩]

/-- The registers of block `EVT` (R470). -/
def regsEVT : List RegSpec :=
  [
   ⟨0x28, 1, 1, 0x0, 1, [⟨0, 1, .ro, 0⟩, ⟨1, 1, .ro, 0⟩, ⟨2, 1, .ro, 0⟩]⟩,
   ⟨0x28, 1, 1, 0x8, 1, [⟨6, 42, .ro, 0⟩, ⟨48, 5, .ro, 0⟩]⟩,
   ⟨0x28, 1, 1, 0x10, 1, [⟨0, 32, .rw, 0⟩]⟩,
   ⟨0x28, 1, 1, 0x18, 1, [⟨0, 32, .ro, 0⟩]⟩,
   ⟨0x28, 1, 1, 0x20, 1, [⟨0, 32, .ro, 0⟩]⟩,
   ⟨0x28, 1, 1, 0x28, 1, [⟨0, 19, .ro, 0⟩]⟩,
   ⟨0x28, 1, 1, 0x30, 1, [⟨0, 64, .ro, 0⟩]⟩,
   ⟨0x28, 1, 1, 0x38, 1, [⟨0, 64, .ro, 0⟩]⟩,
   ⟨0x28, 1, 1, 0x40, 1, [⟨0, 9, .ro, 511⟩, ⟨16, 9, .ro, 0⟩]⟩,
   ⟨0x28, 1, 1, 0x48, 1, [⟨0, 1, .w1c, 0⟩, ⟨1, 1, .w1c, 0⟩, ⟨2, 1, .w1c, 0⟩, ⟨3, 1, .w1c, 0⟩]⟩,
   ⟨0x28, 1, 1, 0x50, 1, [⟨0, 4, .rw, 0⟩]⟩]

/-- The registers of block `PEER` (R491). -/
def regsPEER : List RegSpec :=
  [
   ⟨0x738, 1, 1, 0x0, 1, [⟨0, 4, .ro, 0⟩, ⟨4, 4, .ro, 0⟩, ⟨8, 4, .ro, 15⟩, ⟨12, 4, .ro, 0⟩, ⟨16, 3, .ro, 0⟩, ⟨24, 8, .ro, 0⟩, ⟨32, 1, .ro, 0⟩, ⟨33, 1, .ro, 0⟩]⟩,
   ⟨0x738, 1, 1, 0x8, 1, [⟨0, 64, .ro, 0⟩]⟩,
   ⟨0x738, 1, 1, 0x10, 1, [⟨0, 8, .ro, 0⟩, ⟨8, 8, .ro, 0⟩, ⟨16, 8, .ro, 0⟩, ⟨24, 8, .ro, 0⟩]⟩,
   ⟨0x738, 1, 1, 0x18, 1, [⟨0, 4, .ro, 0⟩]⟩,
   ⟨0x738, 1, 1, 0x20, 2, [⟨0, 32, .ro, 0⟩, ⟨32, 16, .ro, 0⟩, ⟨48, 16, .ro, 0⟩]⟩,
   ⟨0x738, 1, 1, 0x30, 1, [⟨0, 16, .ro, 0⟩, ⟨16, 16, .ro, 0⟩]⟩,
   ⟨0x738, 1, 1, 0x38, 1, [⟨0, 32, .ro, 0⟩, ⟨32, 16, .ro, 0⟩, ⟨48, 16, .ro, 0⟩]⟩,
   ⟨0x738, 1, 1, 0x40, 1, [⟨0, 20, .ro, 1000000⟩]⟩,
   ⟨0x738, 1, 1, 0x48, 1, [⟨0, 1, .w1c, 0⟩, ⟨1, 1, .w1c, 0⟩, ⟨2, 1, .w1c, 0⟩, ⟨3, 1, .w1c, 0⟩, ⟨4, 1, .w1c, 0⟩]⟩,
   ⟨0x738, 1, 1, 0x50, 1, [⟨0, 5, .rw, 0⟩]⟩]

/-- The registers of block `PWR` (R528). -/
def regsPWR : List RegSpec :=
  [
   ⟨0x1, 1, 1, 0x0, 1, [⟨0, 1, .ro, 0⟩, ⟨1, 1, .ro, 0⟩, ⟨2, 1, .ro, 0⟩, ⟨3, 1, .ro, 0⟩, ⟨4, 1, .ro, 0⟩]⟩,
   ⟨0x1, 1, 1, 0x8, 1, [⟨0, 17, .ro, 0⟩, ⟨32, 16, .ro, 0⟩]⟩,
   ⟨0x1, 1, 1, 0x10, 1, [⟨0, 16, .ro, 0⟩, ⟨16, 16, .ro, 0⟩, ⟨32, 16, .ro, 0⟩, ⟨48, 16, .ro, 0⟩]⟩,
   ⟨0x1, 1, 1, 0x18, 1, [⟨0, 10, .rwl, 750⟩, ⟨10, 1, .rwl, 1⟩]⟩,
   ⟨0x1, 1, 1, 0x20, 1, [⟨0, 8, .rwl, 8⟩, ⟨8, 8, .rwl, 8⟩, ⟨16, 8, .rwl, 8⟩, ⟨24, 8, .rwl, 8⟩]⟩,
   ⟨0x1, 1, 1, 0x28, 1, [⟨0, 48, .ro, 0⟩]⟩,
   ⟨0x1, 1, 1, 0x30, 1, [⟨0, 48, .w1c, 0⟩]⟩,
   ⟨0x1, 1, 1, 0x38, 1, [⟨0, 16, .ro, 1400⟩, ⟨16, 16, .ro, 1400⟩, ⟨32, 16, .ro, 1400⟩, ⟨48, 16, .ro, 1400⟩]⟩,
   ⟨0x1, 1, 1, 0x40, 1, [⟨0, 7, .rw, 0⟩]⟩,
   ⟨0x1, 1, 1, 0x48, 1, [⟨0, 8, .ro, 0⟩, ⟨8, 8, .ro, 0⟩, ⟨32, 32, .ro, 0⟩]⟩,
   ⟨0x1, 1, 1, 0x50, 1, [⟨0, 8, .ro, 0⟩, ⟨8, 8, .ro, 0⟩, ⟨16, 1, .ro, 0⟩, ⟨17, 1, .ro, 0⟩]⟩,
   ⟨0x1, 1, 1, 0x58, 1, [⟨0, 1, .w1c, 0⟩, ⟨1, 1, .w1c, 0⟩, ⟨2, 1, .w1c, 0⟩, ⟨3, 1, .w1c, 0⟩, ⟨4, 1, .w1c, 0⟩, ⟨5, 1, .w1c, 0⟩]⟩] ++
  [
   ⟨0x1, 1, 1, 0x60, 1, [⟨0, 6, .rw, 0⟩]⟩,
   ⟨0x1, 1, 1, 0x68, 1, [⟨0, 1, .w1s, 0⟩]⟩]

/-- The registers of block `DBG` (R582). -/
def regsDBG : List RegSpec :=
  [
   ⟨0x7c0, 1, 1, 0x0, 1, [⟨0, 1, .ro, 0⟩, ⟨1, 1, .ro, 0⟩, ⟨2, 1, .ro, 0⟩, ⟨3, 2, .ro, 0⟩, ⟨5, 1, .ro, 0⟩, ⟨6, 1, .ro, 0⟩]⟩,
   ⟨0x7c0, 1, 1, 0x8, 1, [⟨0, 2, .ro, 0⟩, ⟨16, 16, .ro, 0⟩, ⟨32, 16, .ro, 0⟩]⟩,
   ⟨0x7c0, 1, 1, 0x10, 1, [⟨0, 64, .ro, 0⟩]⟩,
   ⟨0x7c0, 1, 1, 0x18, 1, [⟨0, 64, .ro, 0⟩]⟩,
   ⟨0x7c0, 1, 1, 0x20, 1, [⟨0, 64, .ro, 0⟩]⟩,
   ⟨0x7c0, 1, 1, 0x28, 1, [⟨0, 32, .ro, 0⟩, ⟨32, 32, .ro, 0⟩]⟩,
   ⟨0x7c0, 1, 1, 0x30, 1, [⟨0, 1, .w1c, 0⟩, ⟨1, 1, .w1c, 0⟩, ⟨2, 1, .w1c, 0⟩]⟩,
   ⟨0x7c0, 1, 1, 0x38, 1, [⟨0, 3, .rw, 0⟩]⟩]

/-- The registers of block `MOD` (R613). -/
def regsMOD : List RegSpec :=
  [
   ⟨0x0, 1, 1, 0x0, 1, [⟨0, 8, .ro, 65⟩, ⟨8, 8, .ro, 65⟩, ⟨16, 8, .ro, 48⟩, ⟨32, 8, .ro, 0⟩, ⟨40, 8, .ro, 0⟩, ⟨48, 8, .ro, 2⟩]⟩,
   ⟨0x0, 1, 1, 0x8, 1, [⟨0, 40, .ro, 0⟩]⟩,
   ⟨0x0, 1, 1, 0x10, 1, [⟨0, 16, .ro, 0⟩, ⟨16, 8, .ro, 0⟩]⟩,
   ⟨0x0, 1, 1, 0x18, 1, [⟨0, 3, .ro, 2⟩, ⟨8, 3, .ro, 0⟩, ⟨32, 32, .ro, 0⟩]⟩,
   ⟨0x0, 1, 1, 0x20, 1, [⟨0, 4, .ro, 0⟩, ⟨4, 1, .ro, 0⟩, ⟨8, 4, .ro, 0⟩, ⟨16, 3, .ro, 0⟩, ⟨32, 16, .ro, 0⟩]⟩,
   ⟨0x0, 1, 1, 0x28, 1, [⟨0, 1, .w1c, 0⟩, ⟨1, 1, .w1c, 0⟩, ⟨2, 1, .w1c, 0⟩, ⟨3, 1, .w1c, 0⟩]⟩,
   ⟨0x0, 1, 1, 0x30, 1, [⟨0, 4, .rw, 0⟩]⟩,
   ⟨0x0, 1, 1, 0x38, 1, [⟨0, 64, .ro, 0⟩]⟩,
   ⟨0x0, 1, 1, 0x40, 1, [⟨0, 64, .rw, 0⟩]⟩,
   ⟨0x0, 1, 1, 0x48, 1, [⟨0, 11, .rw, 0⟩, ⟨16, 1, .ro, 0⟩]⟩,
   ⟨0x0, 1, 1, 0x50, 1, [⟨0, 1, .wo, 0⟩]⟩,
   ⟨0x0, 1, 1, 0x58, 1, [⟨0, 24, .ro, 0⟩, ⟨24, 8, .ro, 0⟩]⟩] ++
  [
   ⟨0x0, 1, 1, 0x60, 1, [⟨0, 64, .ro, 0⟩]⟩,
   ⟨0x0, 1, 1, 0x68, 18, [⟨0, 64, .ro, 0⟩]⟩,
   ⟨0x0, 1, 1, 0x100, 1, [⟨0, 32, .ro, 0⟩, ⟨32, 8, .ro, 0⟩]⟩,
   ⟨0x0, 1, 1, 0x800, 256, [⟨0, 2, .ro, 0⟩, ⟨2, 1, .ro, 0⟩, ⟨8, 5, .ro, 0⟩, ⟨13, 3, .ro, 0⟩, ⟨16, 16, .ro, 0⟩]⟩]

/-- The registers of block `TIME` (R621). -/
def regsTIME : List RegSpec :=
  [
   ⟨0x2, 1, 1, 0x0, 1, [⟨0, 64, .ro, 0⟩]⟩,
   ⟨0x2, 1, 1, 0x8, 1, [⟨0, 64, .ro, 0⟩]⟩,
   ⟨0x2, 1, 1, 0x10, 1, [⟨0, 2, .rwl, 3⟩]⟩,
   ⟨0x2, 1, 1, 0x18, 1, [⟨0, 1, .ro, 0⟩, ⟨1, 1, .ro, 0⟩, ⟨2, 1, .ro, 0⟩, ⟨16, 16, .ro, 0⟩]⟩,
   ⟨0x2, 1, 1, 0x20, 1, [⟨0, 32, .ro, 0⟩, ⟨32, 16, .ro, 0⟩]⟩,
   ⟨0x2, 1, 1, 0x28, 1, [⟨0, 64, .ro, 0⟩]⟩,
   ⟨0x2, 1, 1, 0x30, 1, [⟨0, 64, .wo, 0⟩]⟩,
   ⟨0x2, 1, 1, 0x38, 1, [⟨0, 1, .w1c, 0⟩, ⟨1, 1, .w1c, 0⟩, ⟨2, 1, .w1c, 0⟩, ⟨3, 1, .w1c, 0⟩, ⟨4, 1, .w1c, 0⟩]⟩,
   ⟨0x2, 1, 1, 0x40, 1, [⟨0, 5, .rw, 0⟩]⟩,
   ⟨0x2, 1, 1, 0x48, 1, [⟨0, 1, .w1s, 0⟩]⟩]

/-- The registers of block `BB` (R622). -/
def regsBB : List RegSpec :=
  [
   ⟨0x728, 1, 1, 0x0, 1, [⟨0, 1, .rwl, 0⟩, ⟨1, 1, .rwl, 0⟩, ⟨2, 1, .rwl, 0⟩, ⟨3, 1, .rwl, 0⟩]⟩,
   ⟨0x728, 1, 1, 0x8, 1, [⟨0, 2, .ro, 0⟩, ⟨2, 2, .ro, 0⟩, ⟨4, 2, .ro, 0⟩, ⟨6, 2, .ro, 0⟩, ⟨8, 1, .ro, 0⟩, ⟨9, 1, .ro, 0⟩]⟩,
   ⟨0x728, 1, 1, 0x10, 2, [⟨0, 32, .ro, 0⟩, ⟨32, 32, .ro, 0⟩]⟩,
   ⟨0x728, 1, 1, 0x20, 1, [⟨0, 16, .ro, 0⟩, ⟨16, 16, .ro, 0⟩, ⟨32, 16, .ro, 0⟩, ⟨48, 16, .ro, 0⟩]⟩,
   ⟨0x728, 1, 1, 0x28, 1, [⟨0, 1, .w1c, 0⟩, ⟨1, 1, .w1c, 0⟩, ⟨2, 1, .w1c, 0⟩, ⟨3, 1, .w1c, 0⟩, ⟨4, 1, .w1c, 0⟩]⟩,
   ⟨0x728, 1, 1, 0x30, 1, [⟨0, 5, .rw, 0⟩]⟩,
   ⟨0x728, 1, 1, 0x38, 1, [⟨0, 1, .w1s, 0⟩]⟩]

/-- The registers of block `PCIE` (R623). -/
def regsPCIE : List RegSpec :=
  [
   ⟨0x730, 1, 1, 0x0, 1, [⟨0, 1, .ro, 0⟩, ⟨1, 1, .ro, 0⟩]⟩,
   ⟨0x730, 1, 1, 0x800, 1, [⟨0, 1, .ro, 0⟩, ⟨1, 1, .ro, 0⟩]⟩,
   ⟨0x730, 1, 1, 0x8, 1, [⟨0, 1, .ro, 0⟩, ⟨1, 3, .ro, 0⟩, ⟨4, 2, .ro, 0⟩, ⟨8, 7, .ro, 0⟩]⟩,
   ⟨0x730, 1, 1, 0x808, 1, [⟨0, 1, .ro, 0⟩, ⟨1, 3, .ro, 0⟩, ⟨4, 2, .ro, 0⟩, ⟨8, 7, .ro, 0⟩]⟩,
   ⟨0x730, 1, 1, 0x10, 1, [⟨0, 16, .ro, 0⟩, ⟨16, 16, .ro, 0⟩, ⟨32, 16, .ro, 0⟩, ⟨48, 16, .ro, 0⟩]⟩,
   ⟨0x730, 1, 1, 0x810, 1, [⟨0, 16, .ro, 0⟩, ⟨16, 16, .ro, 0⟩, ⟨32, 16, .ro, 0⟩, ⟨48, 16, .ro, 0⟩]⟩,
   ⟨0x730, 1, 1, 0x18, 1, [⟨0, 1, .w1c, 0⟩, ⟨1, 1, .w1c, 0⟩, ⟨2, 1, .w1c, 0⟩, ⟨3, 1, .w1c, 0⟩, ⟨4, 1, .w1c, 0⟩]⟩,
   ⟨0x730, 1, 1, 0x818, 1, [⟨0, 1, .w1c, 0⟩, ⟨1, 1, .w1c, 0⟩, ⟨2, 1, .w1c, 0⟩, ⟨3, 1, .w1c, 0⟩, ⟨4, 1, .w1c, 0⟩]⟩,
   ⟨0x730, 1, 1, 0x20, 1, [⟨0, 5, .rw, 0⟩]⟩,
   ⟨0x730, 1, 1, 0x820, 1, [⟨0, 5, .rw, 0⟩]⟩,
   ⟨0x730, 1, 1, 0x100, 64, [⟨0, 16, .ro, 0⟩, ⟨16, 8, .ro, 0⟩, ⟨24, 1, .ro, 0⟩]⟩,
   ⟨0x730, 1, 1, 0x900, 64, [⟨0, 16, .ro, 0⟩, ⟨16, 8, .ro, 0⟩, ⟨24, 1, .ro, 0⟩]⟩]

/-- Every block of R612. -/
def regTable : List RegSpec :=
  regsSTN ++ (regsTILE ++ (regsPMMU ++ (regsSOB ++ (regsCP ++ (regsJNL ++ (regsDFIN ++ (regsCAM ++ (regsLID ++ (
    regsFUS ++ (regsTRV ++ (regsDTM ++ (regsMC ++ (regsECC ++ (regsARB ++ (regsEVT ++ (regsPEER ++ (regsPWR ++ (
    regsDBG ++ (regsMOD ++ (regsTIME ++ (regsBB ++ (regsPCIE))))))))))))))))))))))

namespace F

def STN_STATUS_ACTIVE_BANK : Fld := ⟨0x10, 0x0, 0, 1⟩
def STN_STATUS_SHADOW_VALID : Fld := ⟨0x10, 0x0, 1, 1⟩
def STN_STATUS_SWAP_PENDING : Fld := ⟨0x10, 0x0, 2, 1⟩
def STN_STATUS_BRIDGE : Fld := ⟨0x10, 0x0, 3, 1⟩
def STN_COAT_LEN_L : Fld := ⟨0x10, 0x8, 0, 18⟩
def STN_PHASE_PHASE : Fld := ⟨0x10, 0x10, 0, 18⟩
def STN_COAT_COUNT_COATS : Fld := ⟨0x10, 0x18, 0, 64⟩
def STN_STROKE_IN_COAT_POS : Fld := ⟨0x10, 0x20, 0, 18⟩
def STN_ACTIVE_ID_STENCIL_ID : Fld := ⟨0x10, 0x28, 0, 64⟩
def STN_LOAD_RESULT_CHECK : Fld := ⟨0x10, 0x30, 0, 8⟩
def STN_LOAD_RESULT_ITEM : Fld := ⟨0x10, 0x30, 8, 12⟩
def STN_LOAD_RESULT_AT : Fld := ⟨0x10, 0x30, 32, 32⟩
def STN_OVERRUN_COUNT_COUNT : Fld := ⟨0x10, 0x38, 0, 32⟩
def STN_INT_STATUS_OVERRUN : Fld := ⟨0x10, 0x40, 0, 1⟩
def STN_INT_STATUS_SWAP_DONE : Fld := ⟨0x10, 0x40, 1, 1⟩
def STN_INT_STATUS_LOAD_REFUSED : Fld := ⟨0x10, 0x40, 2, 1⟩
def STN_INT_STATUS_TRIGGER_DROPPED : Fld := ⟨0x10, 0x40, 3, 1⟩
def STN_INT_STATUS_RESERVE_SHORT : Fld := ⟨0x10, 0x40, 4, 1⟩
def STN_INT_ENABLE_EN : Fld := ⟨0x10, 0x48, 0, 5⟩
def STN_EXH_SEL_PID : Fld := ⟨0x10, 0x50, 0, 8⟩
def STN_EXH_SEL_DIM : Fld := ⟨0x10, 0x50, 8, 3⟩
def STN_EXH_COUNT_COUNT : Fld := ⟨0x10, 0x58, 0, 32⟩
def TILE_ID_DIE : Fld := ⟨0x100, 0x0, 0, 2⟩
def TILE_ID_ROW : Fld := ⟨0x100, 0x0, 2, 4⟩
def TILE_ID_COL : Fld := ⟨0x100, 0x0, 6, 5⟩
def TILE_ID_LX : Fld := ⟨0x100, 0x0, 16, 5⟩
def TILE_ID_LY : Fld := ⟨0x100, 0x0, 21, 5⟩
def TILE_ID_MAPPED : Fld := ⟨0x100, 0x0, 26, 1⟩
def TILE_STATE_STATE : Fld := ⟨0x100, 0x8, 0, 3⟩
def TILE_STATE_GATE : Fld := ⟨0x100, 0x8, 3, 1⟩
def TILE_STATE_HOLD : Fld := ⟨0x100, 0x8, 4, 1⟩
def TILE_STATE_PID : Fld := ⟨0x100, 0x8, 8, 8⟩
def TILE_STATE_ACT : Fld := ⟨0x100, 0x8, 16, 10⟩
def TILE_CLK_MHZ : Fld := ⟨0x100, 0x10, 0, 11⟩
def TILE_STACK_STK_LO : Fld := ⟨0x100, 0x18, 0, 19⟩
def TILE_STACK_STK_HI : Fld := ⟨0x100, 0x18, 19, 19⟩
def TILE_SWIN_PID : Fld := ⟨0x100, 0x20, 0, 8⟩
def TILE_SWIN_VALID : Fld := ⟨0x100, 0x20, 8, 1⟩
def TILE_SWIN_FIRST : Fld := ⟨0x100, 0x20, 16, 7⟩
def TILE_SWIN_LAST : Fld := ⟨0x100, 0x20, 24, 7⟩
def TILE_FAULT0_VALID : Fld := ⟨0x100, 0x60, 0, 1⟩
def TILE_FAULT0_MORE : Fld := ⟨0x100, 0x60, 1, 1⟩
def TILE_FAULT0_CAUSE : Fld := ⟨0x100, 0x60, 4, 4⟩
def TILE_FAULT1_STROKE : Fld := ⟨0x100, 0x68, 0, 64⟩
def TILE_FAULT2_PID : Fld := ⟨0x100, 0x70, 0, 8⟩
def TILE_FAULT2_ACT : Fld := ⟨0x100, 0x70, 8, 10⟩
def TILE_FAULT2_TOD_IDX : Fld := ⟨0x100, 0x70, 18, 12⟩
def TILE_FAULT2_PC : Fld := ⟨0x100, 0x70, 32, 19⟩
def TILE_FAULT3_VSP : Fld := ⟨0x100, 0x78, 0, 19⟩
def TILE_FAULT3_STK_LO : Fld := ⟨0x100, 0x78, 19, 19⟩
def TILE_FAULT3_STK_HI : Fld := ⟨0x100, 0x78, 38, 19⟩
def TILE_ST_RESULT : Fld := ⟨0x100, 0x80, 0, 2⟩
def TILE_ST_SECTION : Fld := ⟨0x100, 0x80, 2, 4⟩
def TILE_ST_AT : Fld := ⟨0x100, 0x80, 32, 32⟩
def TILE_SRAM_ERR_CORRECTED : Fld := ⟨0x100, 0x88, 0, 32⟩
def TILE_SRAM_ERR_UNCORR : Fld := ⟨0x100, 0x88, 32, 16⟩
def TILE_INT_STATUS_FAULT_STOP : Fld := ⟨0x100, 0x90, 0, 1⟩
def TILE_INT_STATUS_STAIN_CONSUMED : Fld := ⟨0x100, 0x90, 1, 1⟩
def TILE_INT_STATUS_ST_FAIL : Fld := ⟨0x100, 0x90, 2, 1⟩
def TILE_INT_STATUS_ST_LATE : Fld := ⟨0x100, 0x90, 3, 1⟩
def TILE_INT_ENABLE_EN : Fld := ⟨0x100, 0x98, 0, 4⟩
def PMMU_STATUS_INV_BUSY : Fld := ⟨0x18, 0x0, 0, 1⟩
def PMMU_STATUS_SETS_FREE : Fld := ⟨0x18, 0x0, 1, 13⟩
def PMMU_CTX_BASE_BASE : Fld := ⟨0x18, 0x8, 12, 36⟩
def PMMU_SCRATCH_UNITS : Fld := ⟨0x18, 0x10, 0, 4⟩
def PMMU_LOCK_LOCK : Fld := ⟨0x18, 0x18, 0, 1⟩
def PMMU_FAULT0_VALID : Fld := ⟨0x18, 0x20, 0, 1⟩
def PMMU_FAULT0_MORE : Fld := ⟨0x18, 0x20, 1, 1⟩
def PMMU_FAULT0_AGENT : Fld := ⟨0x18, 0x20, 2, 3⟩
def PMMU_FAULT0_CAUSE : Fld := ⟨0x18, 0x20, 5, 3⟩
def PMMU_FAULT0_PID : Fld := ⟨0x18, 0x20, 8, 8⟩
def PMMU_FAULT1_ADDR : Fld := ⟨0x18, 0x28, 0, 48⟩
def PMMU_FAULT2_STROKE : Fld := ⟨0x18, 0x30, 0, 64⟩
def PMMU_INT_STATUS_FAULT : Fld := ⟨0x18, 0x38, 0, 1⟩
def PMMU_INT_STATUS_OWNER_VIOL : Fld := ⟨0x18, 0x38, 1, 1⟩
def PMMU_INT_ENABLE_EN : Fld := ⟨0x18, 0x40, 0, 2⟩
def SOB_STATUS_FREE_BLOCKS : Fld := ⟨0x20, 0x0, 0, 11⟩
def SOB_VIOL0_VALID : Fld := ⟨0x20, 0x8, 0, 1⟩
def SOB_VIOL0_MORE : Fld := ⟨0x20, 0x8, 1, 1⟩
def SOB_VIOL0_AGENT : Fld := ⟨0x20, 0x8, 2, 3⟩
def SOB_VIOL0_PID : Fld := ⟨0x20, 0x8, 8, 8⟩
def SOB_VIOL0_INDEX : Fld := ⟨0x20, 0x8, 16, 16⟩
def SOB_VIOL0_AT : Fld := ⟨0x20, 0x8, 32, 32⟩
def SOB_INT_STATUS_VIOLATION : Fld := ⟨0x20, 0x10, 0, 1⟩
def SOB_INT_ENABLE_EN : Fld := ⟨0x20, 0x18, 0, 1⟩
def SOB_OWNER_OWNER : Fld := ⟨0x20, 0x1000, 0, 64⟩
def CP_STATUS_STATE : Fld := ⟨0x8, 0x0, 0, 2⟩
def CP_STATUS_OWNER_Q : Fld := ⟨0x8, 0x0, 2, 1⟩
def CP_CHUNKS_COUNT : Fld := ⟨0x8, 0x8, 0, 64⟩
def CP_FAULT0_VALID : Fld := ⟨0x8, 0x10, 0, 1⟩
def CP_FAULT0_MORE : Fld := ⟨0x8, 0x10, 1, 1⟩
def CP_FAULT0_CAUSE : Fld := ⟨0x8, 0x10, 2, 2⟩
def CP_FAULT0_AT : Fld := ⟨0x8, 0x10, 32, 32⟩
def CP_INT_STATUS_FAULT : Fld := ⟨0x8, 0x18, 0, 1⟩
def CP_INT_STATUS_TAKEOVER : Fld := ⟨0x8, 0x18, 1, 1⟩
def CP_INT_ENABLE_EN : Fld := ⟨0x8, 0x20, 0, 2⟩
def JNL_STATUS_STATE : Fld := ⟨0x30, 0x0, 0, 2⟩
def JNL_STATUS_DEGRADED : Fld := ⟨0x30, 0x0, 2, 1⟩
def JNL_BASE_BASE : Fld := ⟨0x30, 0x8, 16, 32⟩
def JNL_FREE_RECORDS : Fld := ⟨0x30, 0x10, 0, 23⟩
def JNL_FREE_QUOTA : Fld := ⟨0x30, 0x10, 32, 23⟩
def JNL_ACCEPTED_COUNT : Fld := ⟨0x30, 0x18, 0, 64⟩
def JNL_RECOVERY_RERUN : Fld := ⟨0x30, 0x20, 0, 16⟩
def JNL_RECOVERY_REPOSTED : Fld := ⟨0x30, 0x20, 16, 16⟩
def JNL_RECOVERY_ABORTED : Fld := ⟨0x30, 0x20, 32, 16⟩
def JNL_INT_STATUS_RECOVERED : Fld := ⟨0x30, 0x28, 0, 1⟩
def JNL_INT_STATUS_DEGRADED : Fld := ⟨0x30, 0x28, 1, 1⟩
def JNL_INT_STATUS_MRAM_STALE : Fld := ⟨0x30, 0x28, 2, 1⟩
def JNL_INT_ENABLE_EN : Fld := ⟨0x30, 0x30, 0, 3⟩
def DFIN_STATUS_BUSY : Fld := ⟨0x748, 0x0, 0, 4⟩
def DFIN_LOAD_OPEN : Fld := ⟨0x748, 0x8, 0, 11⟩
def DFIN_LOAD_CLOSED : Fld := ⟨0x748, 0x8, 11, 11⟩
def DFIN_LOAD_DONE : Fld := ⟨0x748, 0x8, 32, 32⟩
def DFIN_FAULT0_VALID : Fld := ⟨0x748, 0x28, 0, 1⟩
def DFIN_FAULT0_MORE : Fld := ⟨0x748, 0x28, 1, 1⟩
def DFIN_FAULT0_FIN : Fld := ⟨0x748, 0x28, 2, 2⟩
def DFIN_FAULT0_CAUSE : Fld := ⟨0x748, 0x28, 4, 3⟩
def DFIN_FAULT0_PID : Fld := ⟨0x748, 0x28, 8, 8⟩
def DFIN_FAULT0_REQ : Fld := ⟨0x748, 0x28, 16, 16⟩
def DFIN_FAULT0_AT : Fld := ⟨0x748, 0x28, 32, 32⟩
def DFIN_INT_STATUS_FAULT : Fld := ⟨0x748, 0x30, 0, 1⟩
def DFIN_INT_STATUS_DISCARDED : Fld := ⟨0x748, 0x30, 1, 1⟩
def DFIN_INT_ENABLE_EN : Fld := ⟨0x748, 0x38, 0, 2⟩
def CAM_CTRL_PWR_EN : Fld := ⟨0x700, 0x0, 0, 1⟩
def CAM_CTRL_LINK_EN : Fld := ⟨0x700, 0x0, 1, 1⟩
def CAM_CTRL_GEAR : Fld := ⟨0x700, 0x0, 2, 3⟩
def CAM_CTRL_GEAR_MIN : Fld := ⟨0x700, 0x0, 5, 3⟩
def CAM_CTRL_IDCHK : Fld := ⟨0x700, 0x0, 8, 1⟩
def CAM_CTRL_REMAP_EN : Fld := ⟨0x700, 0x0, 9, 1⟩
def CAM_CTRL_TRIG_GPIO : Fld := ⟨0x700, 0x0, 10, 4⟩
def CAM_CTRL_TRIG_WIDTH : Fld := ⟨0x700, 0x0, 16, 8⟩
def CAM_CTRL_PID : Fld := ⟨0x700, 0x0, 24, 8⟩
def CAM_CTRL_ILIM : Fld := ⟨0x700, 0x0, 32, 7⟩
def CAM_CTRL_FS_WINDOW : Fld := ⟨0x700, 0x0, 40, 16⟩
def CAM_ID_READ_I2C_ADDR : Fld := ⟨0x700, 0x8, 0, 7⟩
def CAM_ID_READ_REG : Fld := ⟨0x700, 0x8, 8, 16⟩
def CAM_ID_READ_LEN : Fld := ⟨0x700, 0x8, 24, 5⟩
def CAM_ID_EXP_ID_EXP : Fld := ⟨0x700, 0x10, 0, 64⟩
def CAM_ID_FOUND_ID_FOUND : Fld := ⟨0x700, 0x20, 0, 64⟩
def CAM_STATUS_LINK : Fld := ⟨0x700, 0x30, 0, 2⟩
def CAM_STATUS_GEAR_NOW : Fld := ⟨0x700, 0x30, 2, 3⟩
def CAM_STATUS_PWR_STATE : Fld := ⟨0x700, 0x30, 5, 3⟩
def CAM_STATUS_ID_STATE : Fld := ⟨0x700, 0x30, 8, 3⟩
def CAM_STATUS_MAP : Fld := ⟨0x700, 0x30, 11, 5⟩
def CAM_STATUS_REMOTE : Fld := ⟨0x700, 0x30, 16, 5⟩
def CAM_PWR_MEAS_MA : Fld := ⟨0x700, 0x38, 0, 16⟩
def CAM_PWR_MEAS_MV : Fld := ⟨0x700, 0x38, 16, 16⟩
def CAM_COUNT_FRAMES : Fld := ⟨0x700, 0x40, 0, 32⟩
def CAM_COUNT_LOST : Fld := ⟨0x700, 0x40, 32, 32⟩
def CAM_ERR_HDR_CORR : Fld := ⟨0x700, 0x48, 0, 16⟩
def CAM_ERR_HDR_UNCORR : Fld := ⟨0x700, 0x48, 16, 16⟩
def CAM_ERR_CRC : Fld := ⟨0x700, 0x48, 32, 16⟩
def CAM_ERR_RETRAIN : Fld := ⟨0x700, 0x48, 48, 16⟩
def CAM_INT_STATUS_LINK_DOWN : Fld := ⟨0x700, 0x50, 0, 1⟩
def CAM_INT_STATUS_SWAPPED : Fld := ⟨0x700, 0x50, 1, 1⟩
def CAM_INT_STATUS_ID_FAULT : Fld := ⟨0x700, 0x50, 2, 1⟩
def CAM_INT_STATUS_PWR_FAULT : Fld := ⟨0x700, 0x50, 3, 1⟩
def CAM_INT_STATUS_OVERFLOW : Fld := ⟨0x700, 0x50, 4, 1⟩
def CAM_INT_STATUS_NO_FRAME : Fld := ⟨0x700, 0x50, 5, 1⟩
def CAM_INT_STATUS_TRIG_DROPPED : Fld := ⟨0x700, 0x50, 6, 1⟩
def CAM_INT_ENABLE_EN : Fld := ⟨0x700, 0x58, 0, 7⟩
def CAM_LOCK_LOCK : Fld := ⟨0x700, 0x60, 0, 1⟩
def LID_CTRL_LINK_EN : Fld := ⟨0x720, 0x0, 0, 1⟩
def LID_CTRL_REMAP_EN : Fld := ⟨0x720, 0x0, 1, 1⟩
def LID_CTRL_GPTP_EN : Fld := ⟨0x720, 0x0, 2, 1⟩
def LID_CTRL_PID : Fld := ⟨0x720, 0x0, 8, 8⟩
def LID_STATUS_LINK : Fld := ⟨0x720, 0x8, 0, 2⟩
def LID_STATUS_MAP : Fld := ⟨0x720, 0x8, 8, 4⟩
def LID_STATUS_REMOTE : Fld := ⟨0x720, 0x8, 12, 4⟩
def LID_COUNT_ACCEPTED : Fld := ⟨0x720, 0x10, 0, 32⟩
def LID_COUNT_DROPPED : Fld := ⟨0x720, 0x10, 32, 32⟩
def LID_ERR_FCS : Fld := ⟨0x720, 0x18, 0, 32⟩
def LID_ERR_UNCLAIMED : Fld := ⟨0x720, 0x18, 32, 32⟩
def LID_INT_STATUS_LINK_DOWN : Fld := ⟨0x720, 0x20, 0, 1⟩
def LID_INT_STATUS_SWAPPED : Fld := ⟨0x720, 0x20, 1, 1⟩
def LID_INT_STATUS_OVERFLOW : Fld := ⟨0x720, 0x20, 2, 1⟩
def LID_INT_ENABLE_EN : Fld := ⟨0x720, 0x28, 0, 3⟩
def LID_LOCK_LOCK : Fld := ⟨0x720, 0x30, 0, 1⟩
def FUS_STATUS_RUNNING : Fld := ⟨0x740, 0x0, 0, 1⟩
def FUS_STATUS_PID : Fld := ⟨0x740, 0x0, 8, 8⟩
def FUS_STATUS_SET : Fld := ⟨0x740, 0x0, 16, 2⟩
def FUS_STATUS_SETS : Fld := ⟨0x740, 0x0, 18, 7⟩
def FUS_STATUS_SLOTS_FREE : Fld := ⟨0x740, 0x0, 32, 13⟩
def FUS_CYCLES_COUNT : Fld := ⟨0x740, 0x8, 0, 64⟩
def FUS_BATCHES_DONE : Fld := ⟨0x740, 0x10, 0, 32⟩
def FUS_BATCHES_FAILED : Fld := ⟨0x740, 0x10, 32, 32⟩
def FUS_FAULT0_VALID : Fld := ⟨0x740, 0x18, 0, 1⟩
def FUS_FAULT0_MORE : Fld := ⟨0x740, 0x18, 1, 1⟩
def FUS_FAULT0_CAUSE : Fld := ⟨0x740, 0x18, 2, 3⟩
def FUS_FAULT0_PID : Fld := ⟨0x740, 0x18, 8, 8⟩
def FUS_FAULT0_SET : Fld := ⟨0x740, 0x18, 16, 2⟩
def FUS_FAULT0_AT : Fld := ⟨0x740, 0x18, 32, 32⟩
def FUS_STORE_ERR_CORRECTED : Fld := ⟨0x740, 0x20, 0, 32⟩
def FUS_STORE_ERR_UNCORR : Fld := ⟨0x740, 0x20, 32, 16⟩
def FUS_INT_STATUS_FAULT : Fld := ⟨0x740, 0x28, 0, 1⟩
def FUS_INT_STATUS_STORE_ERR : Fld := ⟨0x740, 0x28, 1, 1⟩
def FUS_INT_ENABLE_EN : Fld := ⟨0x740, 0x30, 0, 2⟩
def TRV_STATUS_ENVELOPE : Fld := ⟨0x790, 0x0, 0, 1⟩
def TRV_STATUS_SURVEY : Fld := ⟨0x790, 0x0, 1, 1⟩
def TRV_STATUS_COMMITTED : Fld := ⟨0x790, 0x0, 2, 1⟩
def TRV_STATUS_DUST_VALID : Fld := ⟨0x790, 0x0, 3, 1⟩
def TRV_STATUS_PENDING : Fld := ⟨0x790, 0x0, 4, 1⟩
def TRV_STATUS_BRAKE : Fld := ⟨0x790, 0x0, 5, 1⟩
def TRV_SURVEY_SURVEY_SEQ : Fld := ⟨0x790, 0x8, 0, 32⟩
def TRV_SURVEY_FRAME_ID : Fld := ⟨0x790, 0x8, 32, 32⟩
def TRV_SURVEY_AT_T_SURVEY : Fld := ⟨0x790, 0x10, 0, 64⟩
def TRV_STORE_SLABS : Fld := ⟨0x790, 0x18, 0, 18⟩
def TRV_STORE_BRICKS : Fld := ⟨0x790, 0x18, 32, 15⟩
def TRV_COMMITTED_TRAJ_SEQ : Fld := ⟨0x790, 0x20, 0, 48⟩
def TRV_COMMITTED_PID : Fld := ⟨0x790, 0x20, 48, 8⟩
def TRV_DUST_TRAJ_SEQ : Fld := ⟨0x790, 0x28, 0, 48⟩
def TRV_DUST_PID : Fld := ⟨0x790, 0x28, 48, 8⟩
def TRV_DUST_COATS : Fld := ⟨0x790, 0x28, 56, 2⟩
def TRV_LAST_C_OUTCOME : Fld := ⟨0x790, 0x30, 0, 8⟩
def TRV_LAST_C_REASON : Fld := ⟨0x790, 0x30, 8, 8⟩
def TRV_LAST_C_MARGIN_MM : Fld := ⟨0x790, 0x30, 32, 32⟩
def TRV_LAST_D_OUTCOME : Fld := ⟨0x790, 0x38, 0, 8⟩
def TRV_LAST_D_REASON : Fld := ⟨0x790, 0x38, 8, 8⟩
def TRV_LAST_D_MARGIN_MM : Fld := ⟨0x790, 0x38, 32, 32⟩
def TRV_QUEUE_QUEUED : Fld := ⟨0x790, 0x40, 0, 7⟩
def TRV_VERDICTS_COUNT : Fld := ⟨0x790, 0x48, 0, 64⟩
def TRV_FAULT0_VALID : Fld := ⟨0x790, 0x50, 0, 1⟩
def TRV_FAULT0_MORE : Fld := ⟨0x790, 0x50, 1, 1⟩
def TRV_FAULT0_CAUSE : Fld := ⟨0x790, 0x50, 2, 3⟩
def TRV_FAULT0_PID : Fld := ⟨0x790, 0x50, 8, 8⟩
def TRV_FAULT0_AT : Fld := ⟨0x790, 0x50, 32, 32⟩
def TRV_INT_STATUS_COMMIT_NOT_CLEAR : Fld := ⟨0x790, 0x58, 0, 1⟩
def TRV_INT_STATUS_DUST_LOST : Fld := ⟨0x790, 0x58, 1, 1⟩
def TRV_INT_STATUS_STALE : Fld := ⟨0x790, 0x58, 2, 1⟩
def TRV_INT_STATUS_FAULT : Fld := ⟨0x790, 0x58, 3, 1⟩
def TRV_INT_ENABLE_EN : Fld := ⟨0x790, 0x60, 0, 4⟩
def DTM_STATUS_LINE : Fld := ⟨0x780, 0x0, 0, 1⟩
def DTM_STATUS_LOOP_READ : Fld := ⟨0x780, 0x0, 1, 1⟩
def DTM_STATUS_LATCHED : Fld := ⟨0x780, 0x0, 2, 1⟩
def DTM_STATUS_HOLD : Fld := ⟨0x780, 0x0, 3, 1⟩
def DTM_STATUS_LOCKSTEP_BROKEN : Fld := ⟨0x780, 0x0, 4, 1⟩
def DTM_STATUS_PEER_OK : Fld := ⟨0x780, 0x0, 5, 1⟩
def DTM_STATUS_COMPAT : Fld := ⟨0x780, 0x0, 6, 1⟩
def DTM_STATUS_RESTARTING : Fld := ⟨0x780, 0x0, 7, 1⟩
def DTM_STATUS_REASON : Fld := ⟨0x780, 0x0, 8, 8⟩
def DTM_STATUS_HOLD_REASON : Fld := ⟨0x780, 0x0, 16, 8⟩
def DTM_SINCE_STROKE : Fld := ⟨0x780, 0x8, 0, 64⟩
def DTM_REASONS_SET : Fld := ⟨0x780, 0x10, 0, 16⟩
def DTM_DUPLEX_MATCHED : Fld := ⟨0x780, 0x18, 0, 32⟩
def DTM_DUPLEX_MISMATCHED : Fld := ⟨0x780, 0x18, 32, 16⟩
def DTM_DUPLEX_RESOLVED : Fld := ⟨0x780, 0x18, 48, 16⟩
def DTM_CLOCK_PPM : Fld := ⟨0x780, 0x20, 0, 16⟩
def DTM_CLOCK_SPREAD : Fld := ⟨0x780, 0x20, 16, 8⟩
def DTM_LINKS_MON_OK : Fld := ⟨0x780, 0x28, 0, 5⟩
def DTM_LINKS_XLINK_OK : Fld := ⟨0x780, 0x28, 5, 1⟩
def DTM_SELFTEST_ROTATION_AT : Fld := ⟨0x780, 0x30, 0, 32⟩
def DTM_SELFTEST_CHECKER : Fld := ⟨0x780, 0x30, 32, 8⟩
def DTM_SELFTEST_RESULT : Fld := ⟨0x780, 0x30, 40, 2⟩
def DTM_FAULT0_VALID : Fld := ⟨0x780, 0x38, 0, 1⟩
def DTM_FAULT0_MORE : Fld := ⟨0x780, 0x38, 1, 1⟩
def DTM_FAULT0_REASON : Fld := ⟨0x780, 0x38, 8, 8⟩
def DTM_FAULT0_DIE : Fld := ⟨0x780, 0x38, 16, 8⟩
def DTM_FAULT0_PID : Fld := ⟨0x780, 0x38, 24, 8⟩
def DTM_FAULT0_AT : Fld := ⟨0x780, 0x38, 32, 32⟩
def DTM_INT_STATUS_LATCH : Fld := ⟨0x780, 0x40, 0, 1⟩
def DTM_INT_STATUS_HOLD : Fld := ⟨0x780, 0x40, 1, 1⟩
def DTM_INT_STATUS_MISMATCH : Fld := ⟨0x780, 0x40, 2, 1⟩
def DTM_INT_STATUS_CHECKER_FAIL : Fld := ⟨0x780, 0x40, 3, 1⟩
def DTM_INT_STATUS_RESTART_DONE : Fld := ⟨0x780, 0x40, 4, 1⟩
def DTM_INT_ENABLE_EN : Fld := ⟨0x780, 0x48, 0, 5⟩
def MC_STATUS_STATE : Fld := ⟨0x600, 0x0, 0, 3⟩
def MC_STATUS_TRAIN_DUE : Fld := ⟨0x600, 0x0, 3, 1⟩
def MC_STATUS_DEVICE_LOST : Fld := ⟨0x600, 0x0, 4, 1⟩
def MC_STATUS_CAUSE : Fld := ⟨0x600, 0x0, 8, 2⟩
def MC_TRAIN_AT : Fld := ⟨0x600, 0x8, 0, 32⟩
def MC_TRAIN_TEMP : Fld := ⟨0x600, 0x8, 32, 8⟩
def MC_TRAIN_TEMP_NOW : Fld := ⟨0x600, 0x8, 40, 8⟩
def MC_TRAIN_COUNT : Fld := ⟨0x600, 0x8, 48, 16⟩
def MC_LANE_RD_DQS : Fld := ⟨0x600, 0x10, 0, 6⟩
def MC_LANE_WR_DQ : Fld := ⟨0x600, 0x10, 6, 6⟩
def MC_LANE_VREF_RD : Fld := ⟨0x600, 0x10, 12, 7⟩
def MC_LANE_VREF_WR : Fld := ⟨0x600, 0x10, 19, 7⟩
def MC_LANE_MARGINAL : Fld := ⟨0x600, 0x10, 26, 1⟩
def MC_LANE_RD_WIDTH : Fld := ⟨0x600, 0x10, 32, 8⟩
def MC_LANE_WR_WIDTH : Fld := ⟨0x600, 0x10, 40, 8⟩
def MC_LANE_VREF_WIDTH : Fld := ⟨0x600, 0x10, 48, 8⟩
def MC_PARA_LOG2_P : Fld := ⟨0x600, 0x20, 0, 5⟩
def MC_PARA_PLUS2 : Fld := ⟨0x600, 0x20, 5, 1⟩
def MC_ERR_CORRECTED : Fld := ⟨0x600, 0x28, 0, 32⟩
def MC_ERR_UNCORR : Fld := ⟨0x600, 0x28, 32, 16⟩
def MC_PARA_COUNT_COUNT : Fld := ⟨0x600, 0x30, 0, 64⟩
def MC_INT_STATUS_RETIRED : Fld := ⟨0x600, 0x38, 0, 1⟩
def MC_INT_STATUS_MARGINAL : Fld := ⟨0x600, 0x38, 1, 1⟩
def MC_INT_STATUS_UNCORR : Fld := ⟨0x600, 0x38, 2, 1⟩
def MC_INT_ENABLE_EN : Fld := ⟨0x600, 0x40, 0, 3⟩
def MC_LOCK_LOCK : Fld := ⟨0x600, 0x48, 0, 1⟩
def ECC_STATUS_DEV_LOST : Fld := ⟨0x640, 0x0, 0, 8⟩
def ECC_STATUS_DEV_DEGRADED : Fld := ⟨0x640, 0x0, 8, 8⟩
def ECC_RETIRED_CH : Fld := ⟨0x640, 0x8, 0, 64⟩
def ECC_HAIR_CH_DEPTH : Fld := ⟨0x640, 0x10, 0, 16⟩
def ECC_HAIR_CH_LEAK : Fld := ⟨0x640, 0x10, 16, 5⟩
def ECC_HAIR_TILE_DEPTH : Fld := ⟨0x640, 0x18, 0, 16⟩
def ECC_HAIR_TILE_LEAK : Fld := ⟨0x640, 0x18, 16, 5⟩
def ECC_PATROL_PASSES : Fld := ⟨0x640, 0x20, 0, 32⟩
def ECC_PATROL_AT : Fld := ⟨0x640, 0x20, 32, 32⟩
def ECC_STRIPE_DEGRADED : Fld := ⟨0x640, 0x28, 0, 32⟩
def ECC_STRIPE_LOST : Fld := ⟨0x640, 0x28, 32, 16⟩
def ECC_REBUILD_POS : Fld := ⟨0x640, 0x30, 0, 48⟩
def ECC_HAIR_OVF_CH_OVF : Fld := ⟨0x640, 0x38, 0, 64⟩
def ECC_INT_STATUS_HAIR_CH : Fld := ⟨0x640, 0x40, 0, 1⟩
def ECC_INT_STATUS_HAIR_TILE : Fld := ⟨0x640, 0x40, 1, 1⟩
def ECC_INT_STATUS_DEV_LOST : Fld := ⟨0x640, 0x40, 2, 1⟩
def ECC_INT_STATUS_STRIPE_LOST : Fld := ⟨0x640, 0x40, 3, 1⟩
def ECC_INT_STATUS_PATROL_LATE : Fld := ⟨0x640, 0x40, 4, 1⟩
def ECC_INT_ENABLE_EN : Fld := ⟨0x640, 0x48, 0, 5⟩
def ECC_LOCK_LOCK : Fld := ⟨0x640, 0x50, 0, 1⟩
def ECC_CH_LEVEL_LEVEL : Fld := ⟨0x640, 0x100, 0, 16⟩
def ECC_TILE_LEVEL_LEVEL : Fld := ⟨0x640, 0x1000, 0, 16⟩
def ECC_HAIR_OVF_TILE_OVF : Fld := ⟨0x640, 0x4000, 0, 64⟩
def ARB_STARVE0_FLAG : Fld := ⟨0x648, 0x0, 0, 64⟩
def ARB_STARVE1_FLAG : Fld := ⟨0x648, 0x8, 0, 14⟩
def ARB_FROZEN0_FROZEN : Fld := ⟨0x648, 0x10, 0, 64⟩
def ARB_FROZEN1_FROZEN : Fld := ⟨0x648, 0x18, 0, 14⟩
def ARB_THRESH_PORT : Fld := ⟨0x648, 0x20, 0, 16⟩
def ARB_THRESH_EDGE : Fld := ⟨0x648, 0x20, 16, 16⟩
def ARB_THRESH_STORE : Fld := ⟨0x648, 0x20, 32, 16⟩
def ARB_THRESH_FETCH : Fld := ⟨0x648, 0x20, 48, 16⟩
def ARB_SEL_INSTANCE : Fld := ⟨0x648, 0x28, 0, 7⟩
def ARB_SEL_REQ : Fld := ⟨0x648, 0x28, 8, 8⟩
def ARB_VIEW_WEIGHT : Fld := ⟨0x648, 0x30, 0, 16⟩
def ARB_VIEW_WAITING : Fld := ⟨0x648, 0x30, 16, 16⟩
def ARB_VIEW_MAX_WAIT : Fld := ⟨0x648, 0x30, 32, 16⟩
def ARB_VIEW_LAST_OWNER : Fld := ⟨0x648, 0x30, 48, 8⟩
def ARB_VIEW_PARKED : Fld := ⟨0x648, 0x30, 56, 1⟩
def ARB_INT_STATUS_STARVE : Fld := ⟨0x648, 0x38, 0, 1⟩
def ARB_INT_ENABLE_EN : Fld := ⟨0x648, 0x40, 0, 1⟩
def EVT_STATUS_RING_VALID : Fld := ⟨0x28, 0x0, 0, 1⟩
def EVT_STATUS_RING_FULL : Fld := ⟨0x28, 0x0, 1, 1⟩
def EVT_STATUS_FAULT : Fld := ⟨0x28, 0x0, 2, 1⟩
def EVT_RING_BASE : Fld := ⟨0x28, 0x8, 6, 42⟩
def EVT_RING_LOG2_SIZE : Fld := ⟨0x28, 0x8, 48, 5⟩
def EVT_HEAD_HEAD : Fld := ⟨0x28, 0x10, 0, 32⟩
def EVT_TAIL_TAIL : Fld := ⟨0x28, 0x18, 0, 32⟩
def EVT_SEQ_SEQ : Fld := ⟨0x28, 0x20, 0, 32⟩
def EVT_STAGED_ENTRIES : Fld := ⟨0x28, 0x28, 0, 19⟩
def EVT_LOST_COUNT : Fld := ⟨0x28, 0x30, 0, 64⟩
def EVT_FILTERED_COUNT : Fld := ⟨0x28, 0x38, 0, 64⟩
def EVT_GROUPS_ENABLE : Fld := ⟨0x28, 0x40, 0, 9⟩
def EVT_GROUPS_NOTIFY : Fld := ⟨0x28, 0x40, 16, 9⟩
def EVT_INT_STATUS_RECORD : Fld := ⟨0x28, 0x48, 0, 1⟩
def EVT_INT_STATUS_RING_FULL : Fld := ⟨0x28, 0x48, 1, 1⟩
def EVT_INT_STATUS_LOST : Fld := ⟨0x28, 0x48, 2, 1⟩
def EVT_INT_STATUS_RING_FAULT : Fld := ⟨0x28, 0x48, 3, 1⟩
def EVT_INT_ENABLE_EN : Fld := ⟨0x28, 0x50, 0, 4⟩
def PEER_STATUS_SELF : Fld := ⟨0x738, 0x0, 0, 4⟩
def PEER_STATUS_MANAGER : Fld := ⟨0x738, 0x0, 4, 4⟩
def PEER_STATUS_STANDBY : Fld := ⟨0x738, 0x0, 8, 4⟩
def PEER_STATUS_N : Fld := ⟨0x738, 0x0, 12, 4⟩
def PEER_STATUS_STATE : Fld := ⟨0x738, 0x0, 16, 3⟩
def PEER_STATUS_EPOCH : Fld := ⟨0x738, 0x0, 24, 8⟩
def PEER_STATUS_LINK0 : Fld := ⟨0x738, 0x0, 32, 1⟩
def PEER_STATUS_LINK1 : Fld := ⟨0x738, 0x0, 33, 1⟩
def PEER_GROUP_ID_ID : Fld := ⟨0x738, 0x8, 0, 64⟩
def PEER_MEMBERS_IN_SERVICE : Fld := ⟨0x738, 0x10, 0, 8⟩
def PEER_MEMBERS_LOST : Fld := ⟨0x738, 0x10, 8, 8⟩
def PEER_MEMBERS_SEEN_A : Fld := ⟨0x738, 0x10, 16, 8⟩
def PEER_MEMBERS_SEEN_B : Fld := ⟨0x738, 0x10, 24, 8⟩
def PEER_JOIN_REASON : Fld := ⟨0x738, 0x18, 0, 4⟩
def PEER_LINK_RETRIES : Fld := ⟨0x738, 0x20, 0, 32⟩
def PEER_LINK_CRC_ERR : Fld := ⟨0x738, 0x20, 32, 16⟩
def PEER_LINK_DOWN : Fld := ⟨0x738, 0x20, 48, 16⟩
def PEER_OFFSET_OFS0 : Fld := ⟨0x738, 0x30, 0, 16⟩
def PEER_OFFSET_OFS1 : Fld := ⟨0x738, 0x30, 16, 16⟩
def PEER_SUBJOBS_DISPATCHED : Fld := ⟨0x738, 0x38, 0, 32⟩
def PEER_SUBJOBS_REISSUED : Fld := ⟨0x738, 0x38, 32, 16⟩
def PEER_SUBJOBS_LATE : Fld := ⟨0x738, 0x38, 48, 16⟩
def PEER_PROGRESS_SHARE : Fld := ⟨0x738, 0x40, 0, 20⟩
def PEER_INT_STATUS_LINK : Fld := ⟨0x738, 0x48, 0, 1⟩
def PEER_INT_STATUS_MEMBER_LOST : Fld := ⟨0x738, 0x48, 1, 1⟩
def PEER_INT_STATUS_TAKEOVER : Fld := ⟨0x738, 0x48, 2, 1⟩
def PEER_INT_STATUS_REISSUE : Fld := ⟨0x738, 0x48, 3, 1⟩
def PEER_INT_STATUS_JOIN_FAILED : Fld := ⟨0x738, 0x48, 4, 1⟩
def PEER_INT_ENABLE_EN : Fld := ⟨0x738, 0x50, 0, 5⟩
def PWR_STATUS_J1_OK : Fld := ⟨0x1, 0x0, 0, 1⟩
def PWR_STATUS_J2_OK : Fld := ⟨0x1, 0x0, 1, 1⟩
def PWR_STATUS_BOOST : Fld := ⟨0x1, 0x0, 2, 1⟩
def PWR_STATUS_CAPPING : Fld := ⟨0x1, 0x0, 3, 1⟩
def PWR_STATUS_CAMRAIL_TRIP : Fld := ⟨0x1, 0x0, 4, 1⟩
def PWR_INPUT_J1_MV : Fld := ⟨0x1, 0x8, 0, 17⟩
def PWR_INPUT_J2_MV : Fld := ⟨0x1, 0x8, 32, 16⟩
def PWR_POWER_J1_MA : Fld := ⟨0x1, 0x10, 0, 16⟩
def PWR_POWER_IN_W : Fld := ⟨0x1, 0x10, 16, 16⟩
def PWR_POWER_J2_MA : Fld := ⟨0x1, 0x10, 32, 16⟩
def PWR_POWER_CAM_W : Fld := ⟨0x1, 0x10, 48, 16⟩
def PWR_LIMIT_LIMIT_W : Fld := ⟨0x1, 0x18, 0, 10⟩
def PWR_LIMIT_BOOST_EN : Fld := ⟨0x1, 0x18, 10, 1⟩
def PWR_APC_FLOOR_FLOOR0 : Fld := ⟨0x1, 0x20, 0, 8⟩
def PWR_APC_FLOOR_FLOOR1 : Fld := ⟨0x1, 0x20, 8, 8⟩
def PWR_APC_FLOOR_FLOOR2 : Fld := ⟨0x1, 0x20, 16, 8⟩
def PWR_APC_FLOOR_FLOOR3 : Fld := ⟨0x1, 0x20, 24, 8⟩
def PWR_DOMAIN_ON : Fld := ⟨0x1, 0x28, 0, 48⟩
def PWR_RAIL_FAULT_FAULT : Fld := ⟨0x1, 0x30, 0, 48⟩
def PWR_CAP_CAP0 : Fld := ⟨0x1, 0x38, 0, 16⟩
def PWR_CAP_CAP1 : Fld := ⟨0x1, 0x38, 16, 16⟩
def PWR_CAP_CAP2 : Fld := ⟨0x1, 0x38, 32, 16⟩
def PWR_CAP_CAP3 : Fld := ⟨0x1, 0x38, 48, 16⟩
def PWR_TEMP_SEL_SENSOR : Fld := ⟨0x1, 0x40, 0, 7⟩
def PWR_TEMP_NOW : Fld := ⟨0x1, 0x48, 0, 8⟩
def PWR_TEMP_MAX : Fld := ⟨0x1, 0x48, 8, 8⟩
def PWR_TEMP_ABOVE : Fld := ⟨0x1, 0x48, 32, 32⟩
def PWR_COOLANT_IN_C : Fld := ⟨0x1, 0x50, 0, 8⟩
def PWR_COOLANT_OUT_C : Fld := ⟨0x1, 0x50, 8, 8⟩
def PWR_COOLANT_FLOW_LOW : Fld := ⟨0x1, 0x50, 16, 1⟩
def PWR_COOLANT_INLET_HIGH : Fld := ⟨0x1, 0x50, 17, 1⟩
def PWR_INT_STATUS_INPUT_RANGE : Fld := ⟨0x1, 0x58, 0, 1⟩
def PWR_INT_STATUS_RAIL : Fld := ⟨0x1, 0x58, 1, 1⟩
def PWR_INT_STATUS_CAP : Fld := ⟨0x1, 0x58, 2, 1⟩
def PWR_INT_STATUS_OVER_TEMP : Fld := ⟨0x1, 0x58, 3, 1⟩
def PWR_INT_STATUS_COOLANT : Fld := ⟨0x1, 0x58, 4, 1⟩
def PWR_INT_STATUS_CAMRAIL : Fld := ⟨0x1, 0x58, 5, 1⟩
def PWR_INT_ENABLE_EN : Fld := ⟨0x1, 0x60, 0, 6⟩
def PWR_LOCK_LOCK : Fld := ⟨0x1, 0x68, 0, 1⟩
def DBG_STATUS_FROZEN : Fld := ⟨0x7c0, 0x0, 0, 1⟩
def DBG_STATUS_READOUT : Fld := ⟨0x7c0, 0x0, 1, 1⟩
def DBG_STATUS_DBG_EN : Fld := ⟨0x7c0, 0x0, 2, 1⟩
def DBG_STATUS_LEVEL : Fld := ⟨0x7c0, 0x0, 3, 2⟩
def DBG_STATUS_ARMED : Fld := ⟨0x7c0, 0x0, 5, 1⟩
def DBG_STATUS_TRACE : Fld := ⟨0x7c0, 0x0, 6, 1⟩
def DBG_ARM_COND : Fld := ⟨0x7c0, 0x8, 0, 2⟩
def DBG_ARM_EVT_TYPE : Fld := ⟨0x7c0, 0x8, 16, 16⟩
def DBG_ARM_EVT_SOURCE : Fld := ⟨0x7c0, 0x8, 32, 16⟩
def DBG_ARM_AT_AT : Fld := ⟨0x7c0, 0x10, 0, 64⟩
def DBG_FREEZE_AT_STROKE : Fld := ⟨0x7c0, 0x18, 0, 64⟩
def DBG_CHALLENGE_NONCE : Fld := ⟨0x7c0, 0x20, 0, 64⟩
def DBG_TRACE_WRITTEN : Fld := ⟨0x7c0, 0x28, 0, 32⟩
def DBG_TRACE_DROPPED : Fld := ⟨0x7c0, 0x28, 32, 32⟩
def DBG_INT_STATUS_REFUSED : Fld := ⟨0x7c0, 0x30, 0, 1⟩
def DBG_INT_STATUS_UNLOCKED : Fld := ⟨0x7c0, 0x30, 1, 1⟩
def DBG_INT_STATUS_TRACE_DROP : Fld := ⟨0x7c0, 0x30, 2, 1⟩
def DBG_INT_ENABLE_EN : Fld := ⟨0x7c0, 0x38, 0, 3⟩
def MOD_ID_SUFFIX : Fld := ⟨0x0, 0x0, 0, 8⟩
def MOD_ID_REV_LETTER : Fld := ⟨0x0, 0x0, 8, 8⟩
def MOD_ID_REV_DIGIT : Fld := ⟨0x0, 0x0, 16, 8⟩
def MOD_ID_FW_PATCH : Fld := ⟨0x0, 0x0, 32, 8⟩
def MOD_ID_FW_MINOR : Fld := ⟨0x0, 0x0, 40, 8⟩
def MOD_ID_FW_MAJOR : Fld := ⟨0x0, 0x0, 48, 8⟩
def MOD_SERIAL_SERIAL : Fld := ⟨0x0, 0x8, 0, 40⟩
def MOD_DATE_YEAR : Fld := ⟨0x0, 0x10, 0, 16⟩
def MOD_DATE_WEEK : Fld := ⟨0x0, 0x10, 16, 8⟩
def MOD_MODE_MODE : Fld := ⟨0x0, 0x18, 0, 3⟩
def MOD_MODE_PREV : Fld := ⟨0x0, 0x18, 8, 3⟩
def MOD_MODE_AT : Fld := ⟨0x0, 0x18, 32, 32⟩
def MOD_START_STEP : Fld := ⟨0x0, 0x20, 0, 4⟩
def MOD_START_FULL_ST : Fld := ⟨0x0, 0x20, 4, 1⟩
def MOD_START_DRIVE_BLOCK : Fld := ⟨0x0, 0x20, 8, 4⟩
def MOD_START_LAST_RESET : Fld := ⟨0x0, 0x20, 16, 3⟩
def MOD_START_WARM_COUNT : Fld := ⟨0x0, 0x20, 32, 16⟩
def MOD_INT_STATUS_MODE : Fld := ⟨0x0, 0x28, 0, 1⟩
def MOD_INT_STATUS_SELFTEST : Fld := ⟨0x0, 0x28, 1, 1⟩
def MOD_INT_STATUS_ROUTE : Fld := ⟨0x0, 0x28, 2, 1⟩
def MOD_INT_STATUS_VEC_DROP : Fld := ⟨0x0, 0x28, 3, 1⟩
def MOD_INT_ENABLE_EN : Fld := ⟨0x0, 0x30, 0, 4⟩
def MOD_INT_PEND_PEND : Fld := ⟨0x0, 0x38, 0, 64⟩
def MOD_INT_MASK_MASK : Fld := ⟨0x0, 0x40, 0, 64⟩
def MOD_INT_VECTOR_VECTOR : Fld := ⟨0x0, 0x48, 0, 11⟩
def MOD_INT_VECTOR_INSVC : Fld := ⟨0x0, 0x48, 16, 1⟩
def MOD_INT_EOI_EOI : Fld := ⟨0x0, 0x50, 0, 1⟩
def MOD_PORT_PEND_CAM : Fld := ⟨0x0, 0x58, 0, 24⟩
def MOD_PORT_PEND_LID : Fld := ⟨0x0, 0x58, 24, 8⟩
def MOD_MC_PEND_MC : Fld := ⟨0x0, 0x60, 0, 64⟩
def MOD_TILE_PEND_TILE : Fld := ⟨0x0, 0x68, 0, 64⟩
def MOD_VEC_DROP_COUNT : Fld := ⟨0x0, 0x100, 0, 32⟩
def MOD_VEC_DROP_PID : Fld := ⟨0x0, 0x100, 32, 8⟩
def MOD_ROUTE_KIND : Fld := ⟨0x0, 0x800, 0, 2⟩
def MOD_ROUTE_PORT : Fld := ⟨0x0, 0x800, 2, 1⟩
def MOD_ROUTE_HART : Fld := ⟨0x0, 0x800, 8, 5⟩
def MOD_ROUTE_GFILE : Fld := ⟨0x0, 0x800, 13, 3⟩
def MOD_ROUTE_RID : Fld := ⟨0x0, 0x800, 16, 16⟩
def TIME_COUNT_STROKE_COUNT : Fld := ⟨0x2, 0x0, 0, 64⟩
def TIME_NS_NS : Fld := ⟨0x2, 0x8, 0, 64⟩
def TIME_SRC_SRC : Fld := ⟨0x2, 0x10, 0, 2⟩
def TIME_STATUS_LOCKED : Fld := ⟨0x2, 0x18, 0, 1⟩
def TIME_STATUS_HOLDOVER : Fld := ⟨0x2, 0x18, 1, 1⟩
def TIME_STATUS_STEP_PENDING : Fld := ⟨0x2, 0x18, 2, 1⟩
def TIME_STATUS_PPS_REJECT : Fld := ⟨0x2, 0x18, 16, 16⟩
def TIME_OFFSET_OFFSET : Fld := ⟨0x2, 0x20, 0, 32⟩
def TIME_OFFSET_STEER : Fld := ⟨0x2, 0x20, 32, 16⟩
def TIME_GM_CLOCK_ID : Fld := ⟨0x2, 0x28, 0, 64⟩
def TIME_STEP_DELTA : Fld := ⟨0x2, 0x30, 0, 64⟩
def TIME_INT_STATUS_HOLDOVER : Fld := ⟨0x2, 0x38, 0, 1⟩
def TIME_INT_STATUS_LOCKED : Fld := ⟨0x2, 0x38, 1, 1⟩
def TIME_INT_STATUS_STEP_DONE : Fld := ⟨0x2, 0x38, 2, 1⟩
def TIME_INT_STATUS_STEP_REFUSED : Fld := ⟨0x2, 0x38, 3, 1⟩
def TIME_INT_STATUS_PPS_REJECT : Fld := ⟨0x2, 0x38, 4, 1⟩
def TIME_INT_ENABLE_EN : Fld := ⟨0x2, 0x40, 0, 5⟩
def TIME_LOCK_LOCK : Fld := ⟨0x2, 0x48, 0, 1⟩
def BB_CTRL_LINK_EN0 : Fld := ⟨0x728, 0x0, 0, 1⟩
def BB_CTRL_LINK_EN1 : Fld := ⟨0x728, 0x0, 1, 1⟩
def BB_CTRL_ROLE0 : Fld := ⟨0x728, 0x0, 2, 1⟩
def BB_CTRL_ROLE1 : Fld := ⟨0x728, 0x0, 3, 1⟩
def BB_STATUS_LINK0 : Fld := ⟨0x728, 0x8, 0, 2⟩
def BB_STATUS_LINK1 : Fld := ⟨0x728, 0x8, 2, 2⟩
def BB_STATUS_MGMT_A : Fld := ⟨0x728, 0x8, 4, 2⟩
def BB_STATUS_MGMT_B : Fld := ⟨0x728, 0x8, 6, 2⟩
def BB_STATUS_PTP0 : Fld := ⟨0x728, 0x8, 8, 1⟩
def BB_STATUS_PTP1 : Fld := ⟨0x728, 0x8, 9, 1⟩
def BB_COUNT_TX : Fld := ⟨0x728, 0x10, 0, 32⟩
def BB_COUNT_RX : Fld := ⟨0x728, 0x10, 32, 32⟩
def BB_ERR_FCS0 : Fld := ⟨0x728, 0x20, 0, 16⟩
def BB_ERR_FCS1 : Fld := ⟨0x728, 0x20, 16, 16⟩
def BB_ERR_STAINED : Fld := ⟨0x728, 0x20, 32, 16⟩
def BB_ERR_TX_DROP : Fld := ⟨0x728, 0x20, 48, 16⟩
def BB_INT_STATUS_LINK_DOWN0 : Fld := ⟨0x728, 0x28, 0, 1⟩
def BB_INT_STATUS_LINK_DOWN1 : Fld := ⟨0x728, 0x28, 1, 1⟩
def BB_INT_STATUS_PAIR_FAULT0 : Fld := ⟨0x728, 0x28, 2, 1⟩
def BB_INT_STATUS_PAIR_FAULT1 : Fld := ⟨0x728, 0x28, 3, 1⟩
def BB_INT_STATUS_STAINED : Fld := ⟨0x728, 0x28, 4, 1⟩
def BB_INT_ENABLE_EN : Fld := ⟨0x728, 0x30, 0, 5⟩
def BB_LOCK_LOCK : Fld := ⟨0x728, 0x38, 0, 1⟩
def PCIE_CFG_ROLE : Fld := ⟨0x730, 0x0, 0, 1⟩
def PCIE_CFG_SRIS : Fld := ⟨0x730, 0x0, 1, 1⟩
def PCIE_STATUS_UP : Fld := ⟨0x730, 0x8, 0, 1⟩
def PCIE_STATUS_GEN : Fld := ⟨0x730, 0x8, 1, 3⟩
def PCIE_STATUS_LOG2_WIDTH : Fld := ⟨0x730, 0x8, 4, 2⟩
def PCIE_STATUS_NUM_VF : Fld := ⟨0x730, 0x8, 8, 7⟩
def PCIE_ERR_UR : Fld := ⟨0x730, 0x10, 0, 16⟩
def PCIE_ERR_POISONED : Fld := ⟨0x730, 0x10, 16, 16⟩
def PCIE_ERR_MSI_DROPPED : Fld := ⟨0x730, 0x10, 32, 16⟩
def PCIE_ERR_RETRAIN : Fld := ⟨0x730, 0x10, 48, 16⟩
def PCIE_INT_STATUS_LINK_DOWN : Fld := ⟨0x730, 0x18, 0, 1⟩
def PCIE_INT_STATUS_DEGRADED : Fld := ⟨0x730, 0x18, 1, 1⟩
def PCIE_INT_STATUS_UR : Fld := ⟨0x730, 0x18, 2, 1⟩
def PCIE_INT_STATUS_MSI_DROP : Fld := ⟨0x730, 0x18, 3, 1⟩
def PCIE_INT_STATUS_POISONED : Fld := ⟨0x730, 0x18, 4, 1⟩
def PCIE_INT_ENABLE_EN : Fld := ⟨0x730, 0x20, 0, 5⟩
def PCIE_BIND_RID : Fld := ⟨0x730, 0x100, 0, 16⟩
def PCIE_BIND_PID : Fld := ⟨0x730, 0x100, 16, 8⟩
def PCIE_BIND_VALID : Fld := ⟨0x730, 0x100, 24, 1⟩

end F

end Sys2Proof.Machine
end

