-- ==== Sys2Proof/Machine/Float.lean ====
section
/-! DEFINITION. Exact values and floating-point formats (R110): decoding, rounding once to a format
(R92, R126, R132), and the lane functions on exact values (R91, R92). -/

namespace Sys2Proof.Machine

/-- An exact value: (−1)^`s` × `m` × 2^`e`, an infinity, or not a number.  A zero keeps its sign. -/
inductive Val where
  | num (s : Bool) (m : Nat) (e : Int)
  | inf (s : Bool)
  | nan
  deriving DecidableEq, Repr

/-- A binary floating-point format (R110): significand bits with the hidden bit, exponent bits, bias,
whether the top exponent is IEEE's for infinities and NaNs, and the largest finite encoding. -/
structure FpFmt where
  p : Nat
  ebits : Nat
  bias : Nat
  ieee : Bool
  nanTop : Bool
  maxEnc : Nat
  deriving DecidableEq, Repr

def fpE4M3 : FpFmt := ⟨4, 4, 7, false, true, 0x7E⟩
def fpE5M2 : FpFmt := ⟨3, 5, 15, true, false, 0x7B⟩
def fpE2M3 : FpFmt := ⟨4, 2, 1, false, false, 0x1F⟩
def fpE3M2 : FpFmt := ⟨3, 3, 3, false, false, 0x1F⟩
def fpE2M1 : FpFmt := ⟨2, 2, 1, false, false, 0x7⟩
def fp16 : FpFmt := ⟨11, 5, 15, true, false, 0x7BFF⟩
def fpBf16 : FpFmt := ⟨8, 8, 127, true, false, 0x7F7F⟩
def fp32 : FpFmt := ⟨24, 8, 127, true, false, 0x7F7FFFFF⟩
def fp64 : FpFmt := ⟨53, 11, 1023, true, false, 0x7FEFFFFFFFFFFFFF⟩

/-- The exponent of the smallest normal value (R110). -/
def FpFmt.emin (f : FpFmt) : Int := 1 - (f.bias : Int)

/-- The place of the sign bit. -/
def FpFmt.signBit (f : FpFmt) : Nat := f.p - 1 + f.ebits

/-- The exact value of an encoding (R110). -/
def FpFmt.decode (f : FpFmt) (w : Nat) : Val :=
  let s := bit w f.signBit
  let e := bits w (f.p - 1) f.ebits
  let m := bits w 0 (f.p - 1)
  if f.ieee ∧ e = 2 ^ f.ebits - 1 then (if m = 0 then .inf s else .nan)
  else if f.nanTop ∧ e = 2 ^ f.ebits - 1 ∧ m = 2 ^ (f.p - 1) - 1 then .nan
  else if e = 0 then .num s m (f.emin - (f.p - 1 : Nat))
  else .num s (m + 2 ^ (f.p - 1)) ((e : Int) - f.bias - (f.p - 1 : Nat))

/-- How a magnitude is rounded to an integer: to nearest even, or stochastically with a 32-bit draw
(R132). -/
inductive Rnd where
  | rne
  | stoch (r : Nat)
  deriving DecidableEq, Repr

/-- `m` × 2^`k` rounded to an integer. -/
def roundShift (rd : Rnd) (m : Nat) (k : Int) : Nat :=
  if 0 ≤ k then m * 2 ^ k.toNat
  else
    let d := 2 ^ (-k).toNat
    let n := m / d
    let r := m % d
    match rd with
    | .rne => if 2 * r > d ∨ (2 * r = d ∧ n % 2 = 1) then n + 1 else n
    | .stoch u => if r * 2 ^ 32 / d + u ≥ 2 ^ 32 then n + 1 else n

/-- The exponent of the leading bit of `m` × 2^`e`, for `m` not 0. -/
def topExp (m : Nat) (e : Int) : Int := (Nat.log2 m : Int) + e

/-- A magnitude rounded to a format with unbounded top: its encoding without sign, which may exceed
`maxEnc` (R126; subnormals kept). -/
def FpFmt.roundMag (f : FpFmt) (rd : Rnd) (m : Nat) (e : Int) : Nat :=
  if m = 0 then 0
  else
    let t := max (topExp m e) f.emin
    let u := t - (f.p - 1 : Nat)
    let n := roundShift rd m (e - u)
    let ex := (t - f.emin).toNat
    -- an encoding is exponent field and fraction side by side, so a carry out of the significand
    -- moves to the next exponent by itself
    if n < 2 ^ (f.p - 1) then n else n + ex * 2 ^ (f.p - 1)

/-- Puts the sign bit on an encoding. -/
def FpFmt.signed (f : FpFmt) (s : Bool) (w : Nat) : Nat := w + b2n s * 2 ^ f.signBit

/-- The canonical quiet NaN of a format (R92, R127). -/
def FpFmt.qnan (f : FpFmt) : Nat :=
  if f.nanTop then 2 ^ f.signBit - 1
  else (2 ^ f.ebits - 1) * 2 ^ (f.p - 1) + 2 ^ (f.p - 2)

/-- The encoding of infinity of an IEEE-style format. -/
def FpFmt.infEnc (f : FpFmt) (s : Bool) : Nat := f.signed s ((2 ^ f.ebits - 1) * 2 ^ (f.p - 1))

/-- Rounds an exact value to a lane format (R92): to nearest even, beyond the largest finite value to
infinity (log entry 10). -/
def FpFmt.lane (f : FpFmt) (v : Val) : Nat :=
  match v with
  | .nan => f.qnan
  | .inf s => f.infEnc s
  | .num s m e =>
    let w := f.roundMag .rne m e
    if w > f.maxEnc then f.infEnc s else f.signed s w

/-- The sum of two exact finite values; an exact zero of two values of one sign keeps it, else +0. -/
def addNum (s : Bool) (m : Nat) (e : Int) (t : Bool) (n : Nat) (g : Int) : Val :=
  let lo := min e g
  let a : Int := (if s then -1 else 1) * (m * 2 ^ (e - lo).toNat : Nat)
  let b : Int := (if t then -1 else 1) * (n * 2 ^ (g - lo).toNat : Nat)
  let c := a + b
  .num (if c = 0 then s && t else decide (c < 0)) c.natAbs lo

/-- Addition of exact values (IEEE rules for infinities and NaN). -/
def Val.add : Val → Val → Val
  | .nan, _ => .nan
  | _, .nan => .nan
  | .inf s, .inf t => if s = t then .inf s else .nan
  | .inf s, _ => .inf s
  | _, .inf t => .inf t
  | .num s m e, .num t n g => addNum s m e t n g

/-- Negation. -/
def Val.neg : Val → Val
  | .nan => .nan
  | .inf s => .inf !s
  | .num s m e => .num (!s) m e

/-- Absolute value. -/
def Val.abs : Val → Val
  | .nan => .nan
  | .inf _ => .inf false
  | .num _ m e => .num false m e

/-- Subtraction. -/
def Val.sub (a b : Val) : Val := a.add b.neg

/-- Multiplication: exact; an infinity times zero is NaN. -/
def Val.mul : Val → Val → Val
  | .nan, _ => .nan
  | _, .nan => .nan
  | .inf s, .inf t => .inf (s != t)
  | .inf s, .num t n _ => if n = 0 then .nan else .inf (s != t)
  | .num s m _, .inf t => if m = 0 then .nan else .inf (s != t)
  | .num s m e, .num t n g => .num (s != t) (m * n) (e + g)

/-- A quotient of magnitudes with a sticky bit below 160 good bits, so that one rounding is right. -/
def divMag (m : Nat) (e : Int) (n : Nat) (g : Int) : Nat × Int :=
  let k := Nat.log2 n + 160
  let q := m * 2 ^ k / n
  let st := m * 2 ^ k % n ≠ 0
  (2 * q + b2n st, e - g - k - 1)

/-- Division (IEEE rules at zero, infinity and NaN). -/
def Val.div : Val → Val → Val
  | .nan, _ => .nan
  | _, .nan => .nan
  | .inf _, .inf _ => .nan
  | .inf s, .num t _ _ => .inf (s != t)
  | .num s _ _, .inf t => .num (s != t) 0 0
  | .num s m e, .num t n g =>
    if n = 0 then (if m = 0 then .nan else .inf (s != t))
    else let (q, x) := divMag m e n g; .num (s != t) q x

/-- Square root; −0 gives −0, a negative value NaN. -/
def Val.sqrt : Val → Val
  | .nan => .nan
  | .inf s => if s then .nan else .inf false
  | .num s m e =>
    if m = 0 then .num s 0 0
    else if s then .nan
    else
      let k : Nat := 320 + (if (e % 2 = 0) then 0 else 1)
      let x := m * 2 ^ k
      let r := isqrt x
      .num false (2 * r + b2n (r * r ≠ x)) ((e - k) / 2 - 1)

/-- One. -/
def Val.one : Val := .num false 1 0

/-- Zero. -/
def Val.zero : Val := .num false 0 0

/-- Reciprocal. -/
def Val.recip (a : Val) : Val := Val.one.div a

/-- Reciprocal square root, from the exact square: 1 ÷ √a = √(1 ÷ a); the reciprocal carries enough
bits that its square root rounds right. -/
def Val.rsqrt : Val → Val
  | .nan => .nan
  | .inf s => if s then .nan else .zero
  | .num s m e =>
    if m = 0 then .inf s
    else if s then .nan
    else
      let j : Nat := if e % 2 = 0 then 0 else 1
      -- 1/sqrt(m 2^e) = sqrt(2^(2K+j) / m) 2^(-(K + (e + j)/2)), with K large
      let k := 160 + Nat.log2 m
      let x := 2 ^ (2 * k + j) / m
      let ex := 2 ^ (2 * k + j) % m = 0
      let r := isqrt x
      .num false (2 * r + b2n (! (ex && r * r = x))) (-(k : Int) - (e + j) / 2 - 1)

/-- The number of fraction bits that the transcendental functions work in (log entry 11). -/
def fxBits : Nat := 256

/-- ln 2 in fixed point: Σ 1 ÷ (n 2^n). -/
def fxLn2 : Nat := sumNat ((upto 1 270).map fun n => 2 ^ (fxBits + 16) / (n * 2 ^ n)) / 2 ^ 16

/-- e^y for 0 ≤ y < 1 in fixed point: Σ y^n ÷ n!. -/
def fxExpGo (y : Nat) : Nat → Nat → Nat → Nat → Nat
  | 0, _, _, acc => acc
  | k + 1, n, term, acc =>
    let t := term * y / 2 ^ fxBits / n
    fxExpGo y k (n + 1) t (acc + t)

/-- e^y for 0 ≤ y < 1 in fixed point. -/
def fxExp (y : Nat) : Nat := fxExpGo y 70 1 (2 ^ fxBits) (2 ^ fxBits)

/-- 2^x (R91): exact for an integer x, else with a sticky bit. -/
def Val.exp2 : Val → Val
  | .nan => .nan
  | .inf s => if s then .zero else .inf false
  | .num s m e =>
    if m = 0 then .one
    else if topExp m e > 20 then (if s then .num false 1 (-2 ^ 20) else .num false 1 (2 ^ 20))
    else
      -- x in fixed point, rounded down, with a mark for lost bits
      let sh := e + fxBits
      let fx := if 0 ≤ sh then m * 2 ^ sh.toNat else m / 2 ^ (-sh).toNat
      let lost := decide (sh < 0) && m % 2 ^ (-sh).toNat ≠ 0
      let x : Int := if s then -(fx : Int) else fx
      let i := x / (2 ^ fxBits : Nat)
      let f := (x % (2 ^ fxBits : Nat)).toNat
      if f = 0 ∧ ! lost then .num false 1 i
      else if f = 0 then
        -- a nonzero fraction below the grid: just above or just below a power of two
        if s then .num false (2 ^ 200 - 1) (i - 200) else .num false (2 ^ 200 + 1) (i - 200)
      else .num false (2 * (fxExp (f * fxLn2 / 2 ^ fxBits)) + 1) (i - fxBits - 1)

/-- The fraction bits of log2 of a fixed-point number in [1, 2), by repeated squaring. -/
def fxLog2Go : Nat → Nat → Nat → Nat
  | 0, _, acc => acc
  | k + 1, x, acc =>
    let y := x * x / 2 ^ fxBits
    if y ≥ 2 ^ (fxBits + 1) then fxLog2Go k (y / 2) (2 * acc + 1) else fxLog2Go k y (2 * acc)

/-- log2 x (R91): exact for a power of two, else with a sticky bit. -/
def Val.log2 : Val → Val
  | .nan => .nan
  | .inf s => if s then .nan else .inf false
  | .num s m e =>
    if m = 0 then .inf true
    else if s then .nan
    else
      let t := topExp m e
      let k := Nat.log2 m
      if m = 2 ^ k then .num (decide (t < 0)) t.natAbs 0
      else
        let f := fxLog2Go 128 (m * 2 ^ fxBits / 2 ^ k) 0
        let v : Int := t * (2 ^ 128 : Nat) + f
        .num (decide (v < 0)) (if v < 0 then 2 * v.natAbs - 1 else 2 * v.natAbs + 1) (-129)

/-- The order of two values that are not NaN, −0 below +0 (R92). -/
def Val.le : Val → Val → Bool
  | .nan, _ => false
  | _, .nan => false
  | .inf s, b => s || b == .inf false
  | _, .inf t => !t
  | .num s m e, .num t n g =>
    let lo := min e g
    let a := m * 2 ^ (e - lo).toNat
    let b := n * 2 ^ (g - lo).toNat
    match s, t with
    | true, false => true
    | false, true => false
    | false, false => decide (a ≤ b)
    | true, true => decide (b ≤ a)

/-- Equality of numbers: +0 equals −0, NaN equals nothing. -/
def Val.eq (a b : Val) : Bool :=
  match a, b with
  | .num _ 0 _, .num _ 0 _ => true
  | _, _ => a.le b && b.le a

/-- Strictly below, +0 not below −0 nor the other way round. -/
def Val.lt (a b : Val) : Bool := a.le b && ! a.eq b

/-- IEEE 754-2019 minimum and maximum (R92). -/
def Val.min (a b : Val) : Val :=
  match a, b with
  | .nan, _ => .nan
  | _, .nan => .nan
  | a, b => if a.le b then a else b

def Val.max (a b : Val) : Val :=
  match a, b with
  | .nan, _ => .nan
  | _, .nan => .nan
  | a, b => if a.le b then b else a

/-- An integer as an exact value. -/
def Val.ofInt (i : Int) : Val := .num (decide (i < 0)) i.natAbs 0

/-- The greatest integer not above a finite value; 0 for the others. -/
def Val.floor : Val → Int
  | .num s m e =>
    let a : Int := if s then -(m : Int) else m
    if 0 ≤ e then a * (2 ^ e.toNat : Nat) else a / ((2 ^ (-e).toNat : Nat) : Int)
  | _ => 0

/-- Whether a value is a finite zero. -/
def Val.isZero : Val → Bool
  | .num _ m _ => m = 0
  | _ => false

/-- Whether a value is finite. -/
def Val.isNum : Val → Bool
  | .num .. => true
  | _ => false

/-- A value times 2^k. -/
def Val.scale (v : Val) (k : Int) : Val :=
  match v with
  | .num s m e => .num s m (e + k)
  | v => v

end Sys2Proof.Machine
end

