-- ==== Sys2Proof/Machine/Flags.lean ====
section
/-! DEFINITION. Element formats (R82, R110 to R113), the flush accumulator (R116 to R119), conversion
to output formats (R125 to R129), stochastic rounding (R130 to R132), and the sticky flags that these
set (R133). -/

namespace Sys2Proof.Machine

/-- The bits of one element of a format code (R82, R110). -/
def fmtBits (c : Nat) : Nat :=
  match c with
  | 0x0 => 4 | 0x1 => 8 | 0x2 => 32 | 0x3 => 8 | 0x4 => 8 | 0x5 => 6 | 0x6 => 6 | 0x7 => 8
  | 0x8 => 8 | 0x9 => 6 | 0xA => 6 | 0xB => 4 | 0xC => 8 | 0xD => 16 | 0xE => 16 | _ => 32

/-- Whether a format code is an MX format (R82). -/
def isMx (c : Nat) : Bool := decide (7 ≤ c) && decide (c ≤ 0xC)

/-- The floating-point format of an element, where it has one: for MX codes that of the element. -/
def elemFp (c : Nat) : Option FpFmt :=
  match c with
  | 0x3 => some fpE4M3 | 0x4 => some fpE5M2 | 0x5 => some fpE2M3 | 0x6 => some fpE3M2
  | 0x7 => some fpE4M3 | 0x8 => some fpE5M2 | 0x9 => some fpE2M3 | 0xA => some fpE3M2
  | 0xB => some fpE2M1 | 0xD => some fp16 | 0xE => some fpBf16 | 0xF => some fp32
  | _ => none

/-- The exact value of an element's encoding, block scale apart (R110, R113). -/
def elemVal (c w : Nat) : Val :=
  match elemFp c with
  | some f => f.decode w
  | none =>
    let v := Val.ofInt (sx (fmtBits c) w)
    if c = 0xC then v.scale (-6) else v

/-- An element times its block scale byte (R113). -/
def scaled (scale : Nat) (v : Val) : Val := if scale = 0xFF then .nan else v.scale ((scale : Int) - 127)

/-- A flush accumulator (R116): a 96-bit two's-complement integer, held modulo 2^96, and a tag (0 NUM,
1 +INF, 2 −INF, 3 NAN). -/
structure Acc where
  a : Nat
  tag : Nat
  deriving DecidableEq, Repr

/-- A cleared accumulator. -/
def Acc.zero : Acc := ⟨0, 0⟩

/-- The tags combined (R119). -/
def tagJoin (a b : Nat) : Nat :=
  if a = 0 then b else if b = 0 then a else if a = b then a else 3

/-- The term's integer on the grid of level `lam`, and whether it lies outside the window (R118). -/
def gridTerm (lam : Int) (s : Bool) (m : Nat) (e : Int) : Int × Bool :=
  let k := e - (lam - 48)
  let t := roundShift .rne m k
  let exact := decide (0 ≤ k) || m % 2 ^ (-k).toNat = 0
  ((if s then -(t : Int) else t), ! (exact && decide (t ≤ 2 ^ 95)))

/-- Adds one term at level `lam` (R118, R119); answers whether it lay outside the window, which sets
`INEXACT`. -/
def Acc.addTerm (lam : Int) (x : Acc) (v : Val) : Acc × Bool :=
  match v with
  | .num s m e =>
    let (t, out) := gridTerm lam s m e
    (⟨(((x.a : Int) + t) % (2 ^ 96 : Nat)).toNat, x.tag⟩, out)
  | .inf s => (⟨x.a, tagJoin x.tag (if s then 2 else 1)⟩, false)
  | .nan => (⟨x.a, 3⟩, false)

/-- Adds a list of terms. -/
def Acc.addTerms (lam : Int) (x : Acc) (vs : List Val) : Acc × Bool :=
  vs.foldl (fun (x, i) v => let (y, j) := x.addTerm lam v; (y, i || j)) (x, false)

/-- The exact value of an accumulator at a reading level (R116, R125). -/
def Acc.val (lam : Int) (x : Acc) : Val :=
  match x.tag with
  | 0 => let i := sx 96 x.a; .num (decide (i < 0)) i.natAbs (lam - 48)
  | 1 => .inf false
  | 2 => .inf true
  | _ => .nan

/-- Conversion to an integer format of `n` bits with weight 2^`w` (R126, R127). -/
def toInteger (n : Nat) (w : Int) (rd : Rnd) (v : Val) : Nat × Bool :=
  let hi : Nat := 2 ^ (n - 1) - 1
  let lo : Nat := 2 ^ (n - 1)
  match v with
  | .nan => (0, true)
  | .inf s => (if s then lo else hi, true)
  | .num s m e =>
    let r := roundShift rd m (e - w)
    if s then (if r > lo then (lo, true) else (unsx n (-(r : Int)), false))
    else if r > hi then (hi, true) else (r, false)

/-- Conversion to a floating-point format (R126, R127): limited to the largest finite value. -/
def toFp (f : FpFmt) (rd : Rnd) (v : Val) : Nat × Bool :=
  match v with
  | .nan => if f.ieee || f.nanTop then (f.qnan, false) else (0, true)
  | .inf s => if f.ieee then (f.infEnc s, false) else (f.signed s f.maxEnc, true)
  | .num s m e =>
    if m = 0 then (0, false)
    else
      let w := f.roundMag rd m e
      if w > f.maxEnc then (f.signed s f.maxEnc, true) else (f.signed s w, false)

/-- Conversion of one value to a format code that is not MX, or to the element of an MX format
(R126, R127): the encoding and `OVERFLOW`. -/
def toElem (c : Nat) (rd : Rnd) (v : Val) : Nat × Bool :=
  match elemFp c with
  | some f => toFp f rd v
  | none => toInteger (fmtBits c) (if c = 0xC then -6 else 0) rd v

/-- The element exponent of R128. -/
def elemExp (c : Nat) : Int :=
  match c with
  | 0x7 => 8 | 0x8 => 15 | 0x9 => 2 | 0xA => 4 | 0xB => 2 | _ => 0

/-- The exponent of the largest magnitude of a block of finite values; `none` when all are zero. -/
def blockTop (vs : List Val) : Option Int :=
  vs.foldl (fun t v =>
    match v with
    | .num _ m e => if m = 0 then t else
        match t with
        | some x => some (max x (topExp m e))
        | none => some (topExp m e)
    | _ => t) none

/-- Conversion of a block of 32 values to an MX format (R128): the scale byte, the elements and
`OVERFLOW`.  `rds` gives each element's rounding. -/
def toMxBlock (c : Nat) (vs : List (Val × Rnd)) : Nat × List Nat × Bool :=
  if vs.any fun v => ! v.1.isNum then (0xFF, vs.map fun _ => 0, true)
  else
    match blockTop (vs.map (·.1)) with
    | none => (0, vs.map fun _ => 0, false)
    | some t =>
      let es0 := t - elemExp c
      let es := max (-127) (min 127 es0)
      ((es + 127).toNat, vs.map (fun v => (toElem c v.2 (v.1.scale (-es))).1), decide (es0 > 127))

/-- mix64 of R130. -/
def mix64 (z : Nat) : Nat :=
  let z := (z + 0x9E3779B97F4A7C15) % 2 ^ 64
  let z := ((z ^^^ (z >>> 30)) * 0xBF58476D1CE4E5B9) % 2 ^ 64
  let z := ((z ^^^ (z >>> 27)) * 0x94D049BB133111EB) % 2 ^ 64
  z ^^^ (z >>> 31)

/-- The stroke seed (R130): 0 in a PID 0 window. -/
def strokeSeed (pid seq k : Nat) : Nat :=
  if pid = 0 then 0 else mix64 (mix64 (pid * 2 ^ 48 + seq) ^^^ k)

/-- The 32-bit draw of element `e` under stochastic rounding (R131). -/
def srDraw (seed s13 e : Nat) : Nat := mix64 (seed ^^^ ((s13 + e) % 2 ^ 32)) >>> 32

end Sys2Proof.Machine
end

