-- ==== Sys2Proof/Machine/TypesCore.lean ====
section
/-! DEFINITION. The records that the state is made of, part 1: partitions, queues and the journal
(R163 to R226), memory and its owners (R169 to R176), sync objects (R187, R224), events (R456 to
R462) and the stencil (R47 to R59).  All of it is plain data. -/

namespace Sys2Proof.Machine

/-- A queue descriptor (R194). -/
structure QueueDesc where
  sqVa : Nat
  cqVa : Nat
  mirrorVa : Nat
  log2Size : Nat
  vector : Nat
  deriving DecidableEq, Repr, Inhabited

/-- A submission queue: its descriptor, its four free-running counters (R195), the queue-state entry
of the journal (R216), the mirror's `STATE` (R196) and the sequence number of its last
sync-object command or `SOB_ON_DONE` addition (R210, log entry 7).  `fetchedSlots` counts slots fetched and not yet
taken. -/
structure Queue where
  desc : QueueDesc
  sqTail : Nat
  sqHead : Nat
  cqHead : Nat
  nTaken : Nat
  nStarted : Nat
  nPosted : Nat
  lastSeq : Nat
  mirror : Nat
  fetchedSlots : Nat
  sobSeq : Nat
  deriving DecidableEq, Repr

/-- A slice of an application-core allotment (R494). -/
structure ApcSlice where
  core : Nat
  start : Nat
  count : Nat
  deriving DecidableEq, Repr

/-- An application-core allotment (R494), with the guest interrupt file that the separation kernel holds for
the partition on `irqCore` (R616; log entry 29). -/
structure Allot where
  slices : List ApcSlice
  ways : List Nat
  entry : Nat
  irqCore : Nat
  gfile : Nat
  deriving DecidableEq, Repr

/-- A partition (R163 to R166), or the owner with PID 0 (R168, R198): class, rights byte, quotas,
next sequence number (R205) and queues. -/
structure Part where
  cls : Nat
  rights : Nat
  jnlQuota : Nat
  sheetQuota : Nat
  seqQuota : Nat
  nextSeq : Nat
  destroying : Bool
  shed : Bool
  allot : Option Allot
  queues : SMap Queue
  deriving DecidableEq, Repr

/-- A completion entry (R211), but for `PHASE`, which follows from the slot's pass at posting. -/
structure Entry where
  status : Nat
  relocated : Bool
  inexact : Bool
  overflow : Bool
  duplexChecked : Bool
  queue : Nat
  tag : Nat
  seq : Nat
  slot : Nat
  result : Nat
  doneAt : Nat
  detail : Nat
  deriving DecidableEq, Repr

/-- What the journal holds for one command taken from a ring (R214, R215): its ACCEPT and CHUNK
records (`pkt`, with `seq` 0 for a REFUSED record), whether it has begun, and its DONE or REFUSED
record's completion entry.  `posted` holds once the entry is in the completion ring. -/
structure Cmd where
  pid : Nat
  queue : Nat
  num : Nat
  seq : Nat
  slot : Nat
  port : Nat
  pkt : List Byte
  acceptAt : Nat
  begun : Bool
  finishAt : Nat
  entry : Option Entry
  posted : Bool
  recs : List Nat
  deriving DecidableEq, Repr

/-- A command whose chunks have been read from its ring and which awaits acceptance (R201 to R206). -/
structure Fetched where
  pid : Nat
  queue : Nat
  cp : Nat
  slot : Nat
  slots : Nat
  pkt : List Byte
  stained : Bool
  extStained : Bool
  fault : Option (Nat × Nat)
  grantAt : Nat
  deriving DecidableEq, Repr

/-- A pair (`ACC_SEQ`, `POST_SEQ`) of a Datum's MRAM (R220), with the stroke of its last change. -/
structure MramPair where
  acc : Nat
  post : Nat
  stale : Bool
  at_ : Nat
  deriving DecidableEq, Repr

/-- The pair of a queue that has accepted nothing. -/
def MramPair.none : MramPair := { acc := 0, post := 0, stale := false, at_ := 0 }

/-- A watch on a sync object (R224, R592), held by a `SOB_WAIT` or a start gate. -/
structure Watch where
  pid : Nat
  queue : Nat
  num : Nat
  gate : Bool
  sob : Nat
  t : Nat
  s : Nat
  n : Nat
  fired : Nat
  regAt : Nat
  timeout : Nat
  done : Bool
  deriving DecidableEq, Repr

/-- A frame-owner entry (R170). -/
structure Frame where
  owner : Nat
  set : Nat
  shared : Bool
  state : Nat
  striped : Bool
  firmware : Bool
  deriving DecidableEq, Repr

/-- A share set (R170): the read map and the write map. -/
structure ShareSet where
  rd : NSet
  wr : NSet
  deriving DecidableEq, Repr

/-- A context's translation (R175): its valid level-1 leaves by VA bits 47:21 and its valid level-0
leaves by VA bits 47:12, each as the page-table entry of R176. -/
structure Ctx where
  l1 : SMap Nat
  l0 : SMap Nat
  deriving DecidableEq, Repr

/-- The memory that partitions and the owner reach by DPA (R169): the bytes of DRAM and scratch, the
stained 32-byte granules (R10, R419), the 64-byte lines of UNINIT frames that have been written since
PORST (R422), the frame-owner table, the share sets and the 256 contexts; and the channels whose every line was
stained at re-admission (R433) with the granules of them overwritten since. -/
structure Mem where
  cells : List Host.Cell
  stain : NSet
  written : NSet
  frames : SMap Frame
  sets : SMap ShareSet
  ctxs : SMap Ctx
  chStain : NSet
  chClear : NSet
  deriving DecidableEq, Repr

/-- A staged event (R457, R461). -/
structure EvtEntry where
  type : Nat
  firstAt : Nat
  lastAt : Nat
  count : Nat
  pid : Nat
  detail : Nat
  mixedPid : Bool
  mixedDetail : Bool
  spanSat : Bool
  deriving DecidableEq, Repr

/-- The event engine (R457 to R462): staging queues and lost counts by source, the last source
served round-robin, the ring's vector, the stroke in which that vector was last raised, and the stroke in which the
engine last wrote. -/
structure EvtSt where
  staged : SMap (List EvtEntry)
  lost : SMap Nat
  lastServed : Nat
  vector : Nat
  vectorAt : Option Nat
  wroteAt : Option Nat
  deriving DecidableEq, Repr

/-- A partition row of the stencil (R49). -/
structure PartRow where
  pid : Nat
  cls : Nat
  priority : Nat
  cpOps : Nat
  fusCycles : Nat
  trvShare : Nat
  apcBytes : Nat
  deriving DecidableEq, Repr

/-- An activity of the stencil (R50). -/
structure ActRow where
  pid : Nat
  kind : Nat
  duplex : Bool
  fragTag : Nat
  deriving DecidableEq, Repr

/-- A window of the stencil (R51). -/
structure WinRow where
  start : Nat
  count : Nat
  act : Nat
  tset : Nat
  dramBytes : Nat
  d2dFlits : Nat
  fMin : Nat
  partner : Nat
  deriving DecidableEq, Repr

/-- A trigger of the stencil (R53), with the adjustment in force and the one set for the next coat
(R54). -/
structure TrigRow where
  port : Nat
  adj : Nat
  offset : Nat
  cur : Nat
  next : Option Nat
  deriving DecidableEq, Repr

/-- A stencil bank (R47 to R53).  A tile set is the 1,024-bit bitmap of R52 as one number. -/
structure Stencil where
  coatLen : Nat
  phase : Nat
  id : Nat
  parts : List PartRow
  acts : List ActRow
  tsets : List Nat
  wins : List WinRow
  trigs : List TrigRow
  deriving DecidableEq, Repr

/-- A `BUDGET_SET` accepted and not yet applied (R59). -/
structure BudgetChange where
  pid : Nat
  queue : Nat
  num : Nat
  row : Option PartRow
  window : Nat
  dramBytes : Nat
  d2dFlits : Nat
  deriving DecidableEq, Repr

/-- The stencil block (R55 to R62): the two banks, a pending swap with the stroke of its acceptance
and the commands that wait for it, pending budget changes, the end of the bridge with its length, the
per-coat counters left and the per-stroke buckets, and the exhaustion counters by PID × 8 + dimension
with the marks that keep each stroke or coat counted once. -/
structure StnSt where
  active : Stencil
  shadow : Option Stencil
  swapAt : Option Nat
  swapCmd : Option (Nat × Nat × Nat)
  budgets : List BudgetChange
  bridgeEnd : Option Nat
  bridgeLen : Nat
  cpOps : SMap Nat
  fusCycles : SMap Nat
  apcBytes : SMap Nat
  dramTokens : SMap Nat
  d2dTokens : SMap Nat
  trvTokens : SMap Int
  exhausted : SMap Nat
  exhMark : NSet
  everSwapped : Bool
  coatDone : Option Nat
  deriving DecidableEq, Repr

/-- The vectors raised in the present stroke, as route and vector (R617), and the routes that
changed in it with their values at its start (R616). -/
structure VecSt where
  raised : List (Nat × Nat)
  oldRoutes : SMap Nat
  deriving DecidableEq, Repr

/-- The MSI-X state of one PCIe function (R617): enable, function mask, masked entries and pending
bits. -/
structure MsixFn where
  enable : Bool
  maskAll : Bool
  masked : NSet
  pend : NSet
  deriving DecidableEq, Repr

/-- What leaves the module at a connector. -/
inductive Out where
  /-- An MSI-X message from function `rid` on a PCIe port, table entry `vec` (R617). -/
  | msix (port rid vec : Nat)
  /-- A completion on a PCIe port: requester, status (0 success, 1 Unsupported Request), poisoned,
  data (R177, R421). -/
  | completion (port rid status : Nat) (poisoned : Bool) (data : List Byte)
  /-- A GPIO of the camera on a port, `TRIG_GPIO`, is driven high or low (R54, R321). -/
  | trigger (port gpio : Nat) (high : Bool)
  /-- An Ethernet frame on a backbone (0, 1), management (2, 3) or peer (4, 5) port. -/
  | ethernet (port : Nat) (payload : List Byte)
  /-- A CAN XL frame on a channel 0 to 3 with its priority identifier, SDU type and acceptance field (R398). -/
  | can (channel priority sdu accept : Nat) (payload : List Byte)
  /-- A lidar port distributes module time as the gPTP master (R315, log entry 54): port and `STROKE_COUNT`. -/
  | gptp (port : Nat) (time : Nat)
  /-- A read of a camera's I2C device over the A-PHY back channel (R318): device address, register and bytes. -/
  | camera (port device register bytes : Nat)
  /-- Data on the TAP (R575). -/
  | tap (data : List Nat)
  deriving DecidableEq, Repr

/-- A detected fault on its way to the Datums over the monitor links (R394, R396): reason code, die
it is attributed to (`none` for no die), partition, stroke of detection and which Datums have still
to learn of it. -/
structure Detected where
  code : Nat
  die : Option Nat
  pid : Nat
  atStroke : Nat
  toA : Bool
  toB : Bool
  deriving DecidableEq, Repr

end Sys2Proof.Machine
end

