-- ==== Sys2Proof/Machine/TypesTile.lean ====
section
/-! DEFINITION. The records that the state is made of, part 2: the tile (R73 to R109), its bindings
and held inputs (R154 to R158), the mesh (R143 to R161), model images (R227 to R239) and jobs (R240 to
R247). -/

namespace Sys2Proof.Machine

/-- The sequencer state of R95 but for the sticky flags and `XLIVE`, which stand beside it: TOD index,
TVI program counter, scalars, loop counters, predicates (128-bit masks), vector registers (each the
2,048-bit little-endian number of its 256 bytes), their stain bits, the stain bits of the scalars, the
special registers, whether a TVI program runs, the TOD index that follows it, and the cause of the
exception last raised. -/
structure Seq where
  todIdx : Nat
  pc : Nat
  s : List Nat
  sStain : List Bool
  lc : List Nat
  p : List Nat
  v : SMap Nat
  vStain : SMap Nat
  vsp : Nat
  stkLo : Nat
  stkHi : Nat
  exb : Nat
  acb : Nat
  lvl : Nat
  vlevel : Nat
  seed : Nat
  inexact : Bool
  overflow : Bool
  xlive : Bool
  inProg : Bool
  afterProg : Nat
  excCause : Nat
  deriving DecidableEq, Repr

/-- How a slice ended (R80). -/
inductive SliceEnd where
  | running | committed | cutOff | stained | abandoned | faultStop
  deriving DecidableEq, Repr

/-- A store staged until the final `COMMIT` (R87): a run at a virtual address, or token `token` of a
page-list walk (R271), with its data and stain. -/
structure Staged where
  va : Nat
  list : Option (Nat × Nat × Nat)
  data : List Byte
  stain : Bool
  deriving DecidableEq, Repr

/-- A `SOB_OP` held until the final `COMMIT` (R85, R87): object, whether it adds, and the value. -/
structure HeldSob where
  idx : Nat
  add : Bool
  value : Nat
  deriving DecidableEq, Repr

/-- A message that a slice has sent (R155): destination logical tile, slot and bytes. -/
structure Sent where
  dst : Nat
  slot : Nat
  bytes : Nat
  deriving DecidableEq, Repr

/-- A TOD that has issued to its units and waits there (R84): its units (bits of a `WAIT` mask: 0 MAC, 1 VEC, 2 DMA,
3 NET), its index and descriptor, and whether it waits for bytes from the mesh rather than for DRAM (R65). -/
structure Waiting where
  units : Nat
  idx : Nat
  tod : List Byte
  net : Bool
  deriving DecidableEq, Repr

/-- The slice that a tile runs or has just ended (R79, R80): whose it is, its job's command and image,
its copy, its job stroke `k`, the address of its TOD list, its staged stores, held `SOB_OP`s and notices
(R87), the messages it sent (R155), its signature (R385), the held-input halves it has read, as slot and
half (R156), the shape and level of its last MAC operation (R624), the carry areas it has read (R255), a
failed translation that its final `COMMIT` must meet (R178, R272), the logical position as which it runs (R160), its
window's `F_MIN` (R65), the TODs that its units have issued and not completed (R84),
and the channels at which a request of it waits for tokens ahead of its partition's later ones (R151). -/
structure Slice where
  pid : Nat
  act : Nat
  handle : Nat
  copy : Nat
  queue : Nat
  num : Nat
  seq : Nat
  k : Nat
  list : Nat
  dup : Bool
  state : SliceEnd
  staged : List Staged
  sobs : List HeldSob
  sent : List Sent
  notices : List (List Byte)
  sig : Nat
  readHalves : List (Nat × Nat)
  lastMac : Option (Nat × Nat × Int)
  carryRead : NSet
  failed : Option (Nat × Nat)
  pos : Nat
  fMin : Nat
  waits : List Waiting
  portsHeld : List Nat
  deriving DecidableEq, Repr

/-- What a tile of a `DUPLEX` job keeps of a job stroke, in its logical position, until the copies match (R387): its staged stores,
held `SOB_OP`s and notices (empty on copy 1 but for notices), the `RELEASE` flits withheld as slot and
half, its signature, and how many of the stores and then `SOB_OP`s have taken their tokens, once the copies match (R60). -/
structure DupHeld where
  tile : Nat
  pos : Nat
  pid : Nat
  seq : Nat
  copy : Nat
  k : Nat
  staged : List Staged
  sobs : List HeldSob
  notices : List (List Byte)
  releases : List (Nat × Nat)
  sig : Nat
  paid : Nat
  deriving DecidableEq, Repr

/-- A held-input area (R154): slot, base, half size in bytes, declared senders as logical tiles, and
the `COMMIT`s that have arrived, as sender, K, bytes and the stroke of arrival (R42). -/
structure Area where
  slot : Nat
  base : Nat
  half : Nat
  senders : List Nat
  got : List (Nat × Nat × Nat × Nat)
  deriving DecidableEq, Repr

/-- A slice run of a binding (R229). -/
structure Run where
  kFirst : Nat
  kCount : Nat
  p : Nat
  slices : List Nat
  deriving DecidableEq, Repr

/-- What firmware has bound on a tile for one image of a partition and one of its logical positions (R78, R154, R160,
R241, R242). -/
structure Binding where
  pid : Nat
  pos : Nat
  handle : Nat
  copy : Nat
  stkLo : Nat
  stkHi : Nat
  arg : Nat
  areas : List Area
  runs : List Run
  deriving DecidableEq, Repr

/-- A message landed at a tile for the job in progress (R145, R294): sender, slot, PID, K, whether it was a `HALO`, and the
bytes of it that arrived. -/
structure Landed where
  src : Nat
  slot : Nat
  pid : Nat
  k : Nat
  halo : Bool
  bytes : Nat
  deriving DecidableEq, Repr

/-- A slice that overran (`cause` 0 to 3, R65) or ended in FAULT_STOP (`cause` 4, R101): its stroke, PID, activity, job and
job stroke, and whether its test has been made and the redo of its job stroke is due or running (R66, R103).  A tile that
ran no slice has PID 0. -/
structure Overrun where
  stroke : Nat
  pid : Nat
  act : Nat
  cause : Nat
  seq : Nat
  k : Nat
  worked : Bool
  deriving DecidableEq, Repr

/-- A physical tile: SRAM with its stain bits (by granule), granules that carry an uncorrectable or a
correctable error (R104), the activities that each SRAM window serves (R76, R232), sequencer, accumulators and
MAC output cells (index order of R624), lookup tables (260 words each), the present slice, bindings,
the messages written with what releases them (destination with PID and image, slot, K, stroke of the `RELEASE`; R42,
R156), bytes arrived in this stroke by
source and slot (R85 `RECV`), messages landed for the present jobs (R145, R294), `EXPSCAN` results and
levels received (identifier, PID, value; R124), the auto level kept for each activity by PID × 1,024 +
activity (R86) and the jobs that completed a `LEVEL_RECV` here (PID, sequence number), the next
self-test section and when the last rotation ended (R107, R108), whether a test after a duplex mismatch is due (R389),
the scrub position, and what each self-test section answers on this silicon now (0 PASS, 1
MARGINAL, 2 FAIL; R108; entry 16 is not 0 while there is a parity error, R101), the stroke of its last pulse, its overruns and
FAULT_STOPs (R65, R66, R103), and the job stroke for which it has no slice (PID, queue, command, copy × 1,024 + position, k;
R242). -/
structure Tile where
  sram : List Host.Cell
  stain : NSet
  badGranules : NSet
  weakGranules : NSet
  winAct : SMap NSet
  seq : Seq
  accs : SMap Acc
  cells : SMap Acc
  luts : SMap (List Nat)
  slice : Option Slice
  binds : List Binding
  owed : List (Nat × Nat × Nat × Option Nat)
  arrived : List (Nat × Nat × Nat)
  landed : List Landed
  expIn : List (Nat × Nat × Int)
  lvlIn : List (Nat × Nat × Nat)
  lvlKept : SMap Nat
  lvlJobs : List (Nat × Nat)
  section_ : Nat
  rotationAt : Nat
  lateRaised : Bool
  testDue : Bool
  scrubPos : Nat
  condition : List Nat
  pulsedAt : Nat
  overruns : List Overrun
  idleFor : Option (Nat × Nat × Nat × Nat × Nat)
  deriving DecidableEq, Repr

/-- A piece of a message's data: the 64 bytes, or fewer at the end, of the data flit with an index from 0, and its stain
(R147, R152). -/
structure MsgPiece where
  idx : Nat
  data : List Byte
  stain : Bool
  deriving DecidableEq, Repr

/-- A message on the mesh (R152, R155, R156): from and to logical tiles (a notice: to a finisher's number), the PID and
class of its flits, its kind (`TYPE` of R144), slot, K, destination address, bytes, and the pieces of its data. -/
structure Msg where
  src : Nat
  dst : Nat
  pid : Nat
  cls : Nat
  type : Nat
  slot : Nat
  k : Nat
  addr : Nat
  bytes : Nat
  pieces : List MsgPiece
  deriving DecidableEq, Repr

/-- A flit: its header (R143) and payload. -/
structure Flit where
  header : Nat
  payload : List Byte
  deriving DecidableEq, Repr

/-- A request at a memory station (R151): requester (a logical tile, or 1024 and up for the hub), its
partition, tag, address, length, data of a write, stain. -/
structure MemReq where
  src : Nat
  pid : Nat
  tag : Nat
  write : Bool
  addr : Nat
  len : Nat
  data : List Byte
  stain : Bool
  deriving DecidableEq, Repr

/-- A redirection of a vacant position's flits to a substitute (R160). -/
structure Redirect where
  pid : Nat
  vacant : Nat
  subst : Nat
  deriving DecidableEq, Repr

/-- A relocation in progress (R159, R160): a row shift or a substitution copy, the retired physical
tile (`none` for a position of a short row), its logical position, the free column or the substitute, the PID of a substitution, when its
gates closed. -/
structure Reloc where
  shift : Bool
  die : Nat
  row : Nat
  retired : Option Nat
  logical : Nat
  target : Nat
  pid : Nat
  sinceStroke : Nat
  cmd : Option (Nat × Nat × Nat)
  deriving DecidableEq, Repr

/-- The mesh and its placement: occupancy masks by row (die × 16 + row, R137), retired physical tiles,
those with a faulty router, those whose router has met a failed header check (R451), the Datums' MRAM records of retired tiles, vacancies, redirections,
relocations under way, reinstated tiles that passed and await
admission with their command, router input queues by (logical tile × 5 + port), what reached local ports and stations,
the flits that wait to cross an edge, by direction, each with the input queue to which it goes (5,120 and up: into the hub;
R60, R153), the place of each router output (logical tile × 5 + side) in its class sequence and the input that it served
last by output × 4 + class (R150), station queues by channel × 256 + PID, what stations answered, requests answered with
RETRY and requests that tiles hold back (R151), UCIe modules in service by edge, the tiles that have reached each barrier in this stroke (PID,
activity, root, identifier, tile), the positions for which a PID has no substitute (PID, logical tile; R160), and of the
finishers' cycles those that classes have used in this stroke and the partition served last, by finisher × 4 + class (R310). -/
structure Fabric where
  rowMask : SMap Nat
  retired : NSet
  badRouter : NSet
  headerBad : NSet
  mramRetired : NSet
  vacant : NSet
  redirects : List Redirect
  relocs : List Reloc
  admitted : List (Nat × Nat × Nat × Nat)
  inq : SMap (List Flit)
  local_ : SMap (List Flit)
  station : SMap (List Flit)
  edgeQ : SMap (List (Nat × Flit))
  outSeq : SMap Nat
  outTurn : SMap Nat
  barriers : List (Nat × Nat × Nat × Nat × Nat)
  stationQ : SMap (List MemReq)
  responses : List MemReq
  retryMarks : List MemReq
  heldBack : List MemReq
  modules : SMap Nat
  unplaced : List (Nat × Nat)
  dfinUsed : SMap Nat
  dfinTurn : SMap Nat
  deriving DecidableEq, Repr

/-- A load segment (R229). -/
structure LoadSeg where
  src : Nat
  addr : Nat
  bytes : Nat
  deriving DecidableEq, Repr

/-- A tile entry of a way (R228). -/
structure TileEntry where
  logical : Nat
  copy : Nat
  first : Nat
  last : Nat
  stkLo : Nat
  stkHi : Nat
  arg : Nat
  loads : List LoadSeg
  areas : List Area
  runs : List Run
  deriving DecidableEq, Repr

/-- A milestone (R230): reporter tiles of the two copies and its job strokes by batch size. -/
structure Milestone where
  r0 : Nat
  r1 : Nat
  ks : List Nat
  deriving DecidableEq, Repr

/-- A registered image (R227, R231, R234): the header's fields, its ways and milestones, its state (0
`REGISTERED`, 1 `INSTALLING`, 2 `RESIDENT`), occupied way, marks, use stamp, whether it waits for a way
(R235), and the bytes of the installation that its buckets have allowed (R236). -/
structure Model where
  va : Nat
  bytes : Nat
  duplex : Bool
  isUndercoat : Bool
  hasUndercoat : Bool
  streaming : Bool
  imageId : Nat
  undercoatId : Nat
  ucHandle : Nat
  fragTag : Nat
  batches : List Nat
  js : List Nat
  streamBytes : Nat
  ways : List (List TileEntry)
  miles : List Milestone
  state : Nat
  way : Nat
  pinned : Bool
  ucPinned : Bool
  useStamp : Nat
  wantInstall : Bool
  installed : Nat
  deriving DecidableEq, Repr

/-- An accepted job (R240 to R247): its command, image, batch, deadline, when it began on the model it
runs, whether on the undercoat, the progress of each tile (copy × 1024 + logical → job strokes passed),
the next checkpoint, a miss that awaits its pulse, the flags of committed work, a failure that awaits
the end of the stroke, a cancellation (R597), whether its start gate has fired, and for a `DUPLEX` job the job strokes that
have matched, the reports received (copy, die, k, tile count, sum, stroke; R386), the job stroke whose mismatch awaits its
pulse, and whether a mismatch is being redone (R389). -/
structure Job where
  pid : Nat
  queue : Nat
  num : Nat
  seq : Nat
  handle : Nat
  batch : Nat
  dl : Option Nat
  args : List Nat
  fragTag : Nat
  begun : Option Nat
  under : Bool
  beginsEver : Bool
  progress : SMap Nat
  nextCp : Nat
  miss : Option (Nat × Nat)
  mainDone : Nat
  relocated : Bool
  inexact : Bool
  overflow : Bool
  matched : Nat
  reports : List (Nat × Nat × Nat × Nat × Nat × Nat)
  redo : Option Nat
  mismatchedOnce : Bool
  fail : Option (Nat × Nat)
  cancelled : Option Nat
  group : Bool
  gseq : Nat
  fired : Bool
  deriving DecidableEq, Repr

end Sys2Proof.Machine
end

