-- ==== Sys2Proof/Machine/TypesSeq.lean ====
section
/-! DEFINITION. The records that the state is made of, part 3: sequences, sheets and the gazetteer
(R258 to R281), and the configuration image (R555). -/

namespace Sys2Proof.Machine

/-- A live sequence's record (R263): `layers` is `LAYERS`, one below the layer count; `lenAtStart` is
`LEN` as it stood at the start of the stroke, which the walker uses (R273). -/
structure SeqRec where
  plVa : Nat
  len : Nat
  cap : Nat
  dieTokens : Nat
  layers : Nat
  log2Rank : Nat
  fmt : Nat
  position : Bool
  node : Nat
  lenAtStart : Nat
  deriving DecidableEq, Repr

/-- A sheet record (R259). -/
structure SheetRec where
  ref : Nat
  owner : Nat
  gaz : Bool
  zeroed : Bool
  reserved : Bool
  link : Nat
  deriving DecidableEq, Repr

/-- A sheet that is free and zero-filled: what an unlisted sheet is. -/
def SheetRec.free : SheetRec :=
  { ref := 0, owner := 0, gaz := false, zeroed := true, reserved := false, link := 0 }

/-- A gazetteer node's record (R276); `state` is 0 free, 1 live, 2 retired. -/
structure GazNode where
  hash : Nat
  ns : Nat
  parent : Nat
  depth : Nat
  pub : Nat
  state : Nat
  refs : Nat
  children : Nat
  tbl : Nat
  layers : Nat
  rankfmt : Nat
  entry : Nat
  deriving DecidableEq, Repr

/-- The gazetteer (R276): its nodes that are not free, its sheet table, and the entry handles in use by
PID × 1,024 + handle, with the nodes that each publish created. -/
structure Gaz where
  nodes : SMap GazNode
  table : SMap Nat
  entries : SMap (List Nat)
  deriving DecidableEq, Repr

/-- The key-value store: sequences by PID × 65,536 + handle, sheet records by sheet number, the
sheets reserved by walks that have not resolved (tile, sequence key, page-list index, sheet, and the sheet copied into it,
0 for none; R268), and
the gazetteer. -/
structure Kv where
  seqs : SMap SeqRec
  sheets : SMap SheetRec
  reserved : List (Nat × Nat × Nat × Nat × Nat)
  gaz : Gaz
  deriving DecidableEq, Repr

/-- A source that may write the owner queue's doorbells (R198): a PCIe requester (port × 65,536 +
requester ID) or an application-core partition, and whether it is marked for DRIVE. -/
structure OwnerSource where
  pcie : Bool
  id : Nat
  drive : Bool
  deriving DecidableEq, Repr, Inhabited

/-- A CAN XL channel's settings (R538). -/
structure CanCfg where
  nominalKbit : Nat
  dataKbit : Nat
  terminated : Bool
  priorityId : Nat
  sdu : Nat
  accept : Nat
  wake : Bool
  deriving DecidableEq, Repr, Inhabited

/-- The configuration image (R555): identity, owner queue and its sources, the pages of context 0 that
firmware maps at start-up, the sheet pool's sizes and first frames (R258), the initial `CAM` and `LID`
registers, the roles of the J4 and J6 ports (as `BB_CTRL` and `PCIE_CFG` hold them), the CAN XL channels, the multicast
addresses, the time source, the values of `PWR_LIMIT` and `PWR_APC_FLOOR`, and the delays. The pages of context 0 are given
as virtual address and bytes. -/
structure Cfg where
  identity : List Byte
  ownerQueue : QueueDesc
  sources : List OwnerSource
  ownerPages : List (Nat × Nat)
  evtRing : Option (Nat × Nat)
  nPlain : Nat
  nStriped : Nat
  plainFrame : Nat
  stripedFrame : Nat
  camLid : List (Nat × Nat × Nat)
  lidRoles : List Nat
  pcieRoles : List Nat
  can : List CanCfg
  statusMac : Nat
  memberMac : Nat
  timeSrc : Nat
  pwrLimit : Nat
  apcFloor : Nat
  pwrLock : Bool
  parkDelay : Nat
  offDelay : Nat
  deriving DecidableEq, Repr, Inhabited

end Sys2Proof.Machine
end

