-- ==== Sys2Proof/Machine/TypesUnits.lean ====
section
/-! DEFINITION. The records that the state is made of, part 4: the engines beside the tiles. -/

namespace Sys2Proof.Machine

/-- A request of a detection finisher (R300): finisher, PID, tag, the descriptor read when it opened and its address, the
ranges announced, the `FINAL` notices received, the stroke in which it closed, whether it consumed stained data in its
descriptor or a notice, the records as they stood when they were announced (R311), the cycles that it has received since its
close (R308, R310), and the lines of its memory traffic that its partition's buckets have borne (R309). -/
structure DfinReq where
  fin : Nat
  pid : Nat
  req : Nat
  desc : List Byte
  descVa : Nat
  ranges : List (Nat × Nat)
  finals : Nat
  closedAt : Option Nat
  stained : Bool
  seen : SMap (List Byte)
  spent : Nat
  paid : Nat
  deriving DecidableEq, Repr

/-- A buffer of a stream (R327 to R330): its number, the flags of its record, its stamps in ns (start, end,
trigger), bytes written, units, the place of the next unit, frame number, physical port, packets with CRC
errors, coat and stroke in coat at its start, the stroke of its first unit, and whether a write of it has met a
failed translation. -/
structure IngBuf where
  n : Nat
  bufFull : Bool
  incomplete : Bool
  hdrErr : Bool
  crcErr : Bool
  overflow : Bool
  stained : Bool
  late : Bool
  untriggered : Bool
  remapped : Bool
  tStart : Nat
  tEnd : Nat
  tTrig : Nat
  bytes : Nat
  units : Nat
  off : Nat
  frameNum : Nat
  phys : Nat
  crcCount : Nat
  coat : Nat
  pos : Nat
  firstAt : Nat
  failed : Bool
  deriving DecidableEq, Repr

/-- An open stream (R322, R323): the fields of its descriptor, whether it is FAULTED, the buffers opened and
completed, the frames lost in all and since the last record, the buffer in progress, and those whose data is
still to be drained. -/
structure Stream where
  lidar : Bool
  hold : Bool
  emb : Bool
  port : Nat
  doneSob : Nat
  relSob : Nat
  rate : Nat
  bufVa : Nat
  bufBytes : Nat
  nBuf : Nat
  recVa : Nat
  doneAdd : Nat
  vc : Nat
  dt : Nat
  pitch : Nat
  srcMac : Nat
  etherType : Nat
  udpDst : Nat
  faulted : Bool
  opened : Nat
  completed : Nat
  lostTotal : Nat
  lostSince : Nat
  cur : Option IngBuf
  done : List IngBuf
  deriving DecidableEq, Repr

/-- Bytes in a port's share of the holding area (R324): the stream and buffer that they belong to, where they
go, and their stain. -/
structure IngWrite where
  key : Nat
  n : Nat
  va : Nat
  data : List Byte
  stain : Bool
  deriving DecidableEq, Repr

/-- A camera port (R317 to R321): the latest trigger, whether one has been sent since the last Frame Start,
the physical port and stroke at which its GPIO goes low, how the identity read went (0 none, 1 read, 2
failed), when its training began, and the packets of unsupported types that it has discarded as unclaimed (R314). -/
structure CamSt where
  lastTrig : Option Nat
  armed : Bool
  lowAt : Option (Nat × Nat)
  idRead : Nat
  trainAt : Nat
  unclaimed : Nat
  deriving DecidableEq, Repr

/-- The ingest ports: streams by PID × 32 + handle, the shares of the holding area by port (cameras 0 to 23,
lidars 24 to 31), the port whose turn it is for spare drain bytes, the camera ports, the cable diagnoses of
Ethernet ports (1 short, 2 open; R543) with the strokes in which they ran, and the management and peer links
that are up. -/
structure Ingest where
  streams : SMap Stream
  share : SMap (List IngWrite)
  turn : Nat
  cams : SMap CamSt
  pairs : SMap Nat
  pairAt : SMap Nat
  mgmtUp : NSet
  deriving DecidableEq, Repr

/-- A fusion track (R341 to R344): identifier, whether CONFIRMED, class, hits, misses, the ns that its state
stands for, state and lower covariance as FP64 encodings, `T_LAST` and NIS by sensor, and whether its slot is
stained. -/
structure FusTrack where
  id : Nat
  confirmed : Bool
  cls : Nat
  hits : Nat
  misses : Nat
  time : Nat
  x : List Nat
  p : List Nat
  tLast : SMap Nat
  nis : SMap Nat
  stained : Bool
  deriving DecidableEq, Repr

/-- A fusion track set (R336): its configuration block, model, dimensions, capacity, next identifier, last
committed `T_VALID` and live tracks by slot. -/
structure FusSet where
  cfg : List Byte
  model : Nat
  threeD : Bool
  nExtra : Nat
  capacity : Nat
  nextId : Nat
  lastValid : Option Nat
  tracks : SMap FusTrack
  deriving DecidableEq, Repr

/-- What a batch has computed and not yet committed (R341, R345): flags, counts, output records, the tracks
that the commit leaves, the next identifier, and the engine cycles of stages 1 to 10. -/
structure FusOut where
  flags : Nat
  nMeas : Nat
  coarse : Nat
  gated : Nat
  assigned : Nat
  born : Nat
  deleted : Nat
  records : List (List Byte)
  tracks : SMap FusTrack
  nextId : Nat
  cycles : List Nat
  deriving DecidableEq, Repr

/-- An accepted `FUS_BATCH` (R349 to R351): its command, set, deadline, whether the command and the batch have
begun, cycles used, whether its work is saved and on its way back, the lines that it owes to its partition's buckets
(R60), whether they are those of its output, whether its working area is stained, and what it has computed. -/
structure FusBatch where
  pid : Nat
  queue : Nat
  num : Nat
  seq : Nat
  set : Nat
  m : Nat
  measVa : Nat
  outVa : Nat
  workVa : Nat
  outMode : Nat
  tValid : Nat
  dl : Option Nat
  ready : Bool
  used : Nat
  saved : Bool
  back : Bool
  owes : List (Nat × Bool)
  written : Bool
  stained : Bool
  out : Option FusOut
  deriving DecidableEq, Repr

/-- The fusion engine: track sets by PID × 4 + handle, accepted batches, the one that holds the engine, and the
stroke in which cycles were last given. -/
structure Fus where
  sets : SMap FusSet
  batches : List FusBatch
  running : Option (Nat × Nat × Nat)
  ranAt : Option Nat
  deriving DecidableEq, Repr

end Sys2Proof.Machine
end

