-- ==== Sys2Proof/Machine/TypesDatum.lean ====
section
/-! DEFINITION. The records that the state is made of, part 5: the two Datums and their Traverse engines
(R354 to R408). -/

namespace Sys2Proof.Machine

/-- A survey in effect (R356 to R361): its number, frame, `T_SURVEY`, the volume's `OXI`, `OYI`, `OZI`, the
`KNOWN` top cells as bits 32 × ty + tx, the stored bricks by (x × 512 + y) × 16 + z with their 512 leaf bits,
the bricks that count as full after an uncorrectable error in a slab, and the distance bricks that read zero
after one, by (x × 256 + y) × 8 + z. -/
structure Survey where
  seq : Nat
  frame : Nat
  tSurvey : Nat
  oxi : Int
  oyi : Int
  ozi : Int
  known : Nat
  bricks : SMap Nat
  badBricks : NSet
  badDist : NSet
  deriving DecidableEq, Repr

/-- A trajectory record as delivered (R363), with the command that supplied it. -/
structure Traj where
  pid : Nat
  seq : Nat
  bytes : List Byte
  shaped : Bool
  deriving DecidableEq, Repr

/-- A candidate (R371): its command, its deadline as a stroke, its result address, its record, whether it still
waits for the shaper, and the record that the shaper made. -/
structure Cand where
  pid : Nat
  queue : Nat
  num : Nat
  seq : Nat
  dl : Option Nat
  resVa : Nat
  traj : Traj
  toShape : Bool
  deriving DecidableEq, Repr

/-- A verdict in the engine's stages (R369 to R374): slot stroke, kind (0 committed, 1 dust, 2 candidate, 3
brake), outcome, reason, its 64-byte record, whether it checks the pending sheet or the held one, its candidate,
whether the record is complete, and whether it has been compared. -/
structure Verdict where
  stroke : Nat
  kind : Nat
  outcome : Nat
  reason : Nat
  margin : Nat
  bytes : List Byte
  ofPending : Bool
  cand : Option Cand
  complete : Bool
  compared : Bool
  deriving DecidableEq, Repr

/-- A Datum: whether a lockstep difference has stopped it (R383) or it is down after a reset of its own or
without supply (R400, R566), and whether its loop stays OFF until PORST (R566); its Traverse engine (envelope, the one before it and the stroke of its adoption,
survey, survey numbers used, trajectories, coat boundaries since the dust sheet's adoption, whether its latest
verdict is CLEAR, the stroke from which an owed check may run, whether the brake profile is in use, candidates, the
PID last served, verdicts in their stages, the stroke of the last slot); its latched reasons with the
stroke of their latching and detection, the dies that they are attributed to, the stroke of the last valid
heartbeat, the strokes of the last monitor-link messages and the links lost, its loop's level (0 OFF, 1
INACTIVE, 2 ACTIVE) with the stroke of its last change and the readbacks that differed in a row; the stroke in which its hold
reason arose; the checkers
tested in this rotation; and its status records: bytes 4 to 6 and sequence numbers last sent, the stroke of the
last record, its count, and the record itself; its copy of module time, which its own oscillator drives (R30); and its 4 MiB of working
SRAM (R21), whose use no rule states. -/
structure Datum where
  stopped : Bool
  down : Bool
  loopOff : Bool
  env : Option (List Byte)
  envPrev : Option (List Byte)
  envAt : Nat
  survey : Option Survey
  surveys : Nat
  committed : Option Traj
  pendingDust : Option Traj
  dust : Option Traj
  dustCoats : Nat
  dustClear : Bool
  owedAt : Option Nat
  brake : Bool
  queue : List Cand
  lastPid : Nat
  slots : List Verdict
  slotAt : Option Nat
  latched : SMap (Nat × Nat)
  dies : NSet
  peerAt : Nat
  linkAt : SMap Nat
  linkLost : NSet
  level : Nat
  levelAt : Nat
  differs : Nat
  holdAt : Nat
  tested : NSet
  sentKey : List Byte
  sentAt : Option Nat
  sentCount : Nat
  lastRec : List Byte
  time : Nat
  work : List Host.Cell
  deriving DecidableEq, Repr

/-- A `TRV_SURVEY_UPDATE` under way (R359): its command, acceptance stroke, record, and whether it has been
delivered to both Datums. -/
structure SurveyUpd where
  pid : Nat
  queue : Nat
  num : Nat
  acceptAt : Nat
  bytes : List Byte
  delivered : Bool
  deriving DecidableEq, Repr

/-- A trajectory ordered for adoption at the next stroke boundary (R375): dust sheet or committed, its command,
and the stroke of the order. -/
structure TrajOrder where
  dust : Bool
  traj : Traj
  queue : Nat
  num : Nat
  at_ : Nat
  deriving DecidableEq, Repr

/-- A restart under the Firad-1-compatible policy (R401, R402): the dies, the stroke of detection, and whether
their resets have begun. -/
structure Restart where
  dies : NSet
  since : Nat
  begun : Bool
  deriving DecidableEq, Repr

/-- What the hub keeps for the Traverse engines and the safety path: the acceptance strokes of the last survey
update and dust sheet, updates and orders under way, the candidate of a stroke's slot, the trajectories last
delivered for adoption (committed, dust sheet), the hub's own reason with its stroke, its status records, the
restart that runs, the stroke in which the last one completed, and whether the hub still accepts `TRV_*` commands
(R400). -/
structure TrvHub where
  lastSurvey : Option Nat
  lastDust : Option Nat
  updates : List SurveyUpd
  orders : List TrajOrder
  pick : Option (Nat × Option (Nat × Nat × Nat))
  sentCommit : Option Traj
  sentDust : Option Traj
  hubReason : Option (Nat × Nat)
  hubKey : List Byte
  hubSentAt : Option Nat
  hubCount : Nat
  restart : Option Restart
  restartedAt : Option Nat
  refuses : Bool
  deriving DecidableEq, Repr

/-- A Datum right after its reset. -/
def Datum.reset : Datum :=
  { stopped := false, down := false, loopOff := false, env := none, envPrev := none, envAt := 0, survey := none, surveys := 0,
    committed := none, pendingDust := none, dust := none, dustCoats := 0, dustClear := false, owedAt := none,
    brake := false, queue := [], lastPid := 0, slots := [], slotAt := none, latched := [], dies := [], peerAt := 0,
    linkAt := [], linkLost := [], level := 0, levelAt := 0, differs := 0, holdAt := 0, tested := [], sentKey := [],
    sentAt := none, sentCount := 0, lastRec := [], time := 0, work := [] }

/-- The hub's side of the safety path right after PORST. -/
def TrvHub.reset : TrvHub :=
  { lastSurvey := none, lastDust := none, updates := [], orders := [], pick := none, sentCommit := none,
    sentDust := none, hubReason := none, hubKey := [], hubSentAt := none, hubCount := 0, restart := none,
    restartedAt := none, refuses := false }

end Sys2Proof.Machine
end

