-- ==== Sys2Proof/Machine/TypesSys.lean ====
section
/-! DEFINITION. The records that the state is made of, part 6: DRAM and the arbiters (R409 to R445), the
application cores (R492 to R505), power and clocks (R506 to R528), images, modes and resets (R551 to R569),
freeze and trace (R570 to R582), module time (R619, R620) and groups (R471 to R491). -/

namespace Sys2Proof.Machine

open Sys2Proof

/-- A retirement under way (R431): channel, cause code of `MC_STATUS`, stroke of the cause, and the command that
asked for it. -/
structure Retiring where
  channel : Nat
  cause : Nat
  at_ : Nat
  cmd : Option (Nat × Nat × Nat)
  deriving DecidableEq, Repr

/-- The DRAM side of memory: errors that stand in a line, as pairs of symbol and difference (R417), by line (DPA
over 64); flips of a line's eight stain copies (R411, R418); the scrub queue with the stroke of each entry
(R418); the data line at which each channel's patrol stands, the channels that have finished the pass in progress,
the stroke at which the last one ended or its time began again, and whether its lateness has been reported (R423,
R444); retirements under way (R431); channels in training with
the stroke in which it began (R412); channels whose STRIPED shares are being rebuilt (R433); stripes whose parity is
valid (R428); STRIPED writes not yet durable as stripe, channel, line and stroke (R428); the stroke of each channel's last refresh
(R415), and the stroke of the last hairline leak (R424). -/
structure Dram where
  faults : SMap (List (Nat × Nat))
  copies : SMap Nat
  scrub : List (Nat × Nat)
  patrol : SMap Nat
  patrolled : NSet
  passAt : Nat
  lateRaised : Bool
  retiring : List Retiring
  trainAt : SMap Nat
  rebuild : NSet
  parity : NSet
  durable : List (Nat × Nat × Nat × Nat)
  refreshAt : SMap Nat
  leakAt : Nat
  deriving DecidableEq, Repr

/-- An arbiter instance (R436 to R441): the ring's pointer, the slots left of the visit in progress, the last
owner, whether the grant is parked, the waiting counts and their largest values by requester, the stroke whose slots
are counted with their number, the requests granted and not yet served, the stroke of its `FREEZE`, and at command fetch the last
queue served of each PID (R202). -/
structure Arb where
  ptr : Nat
  left : Nat
  last : Option Nat
  parked : Bool
  waiting : SMap Nat
  maxWait : SMap Nat
  slotAt : Nat
  slots : Nat
  granted : List MemReq
  freeze : Option Nat
  lastQueue : SMap Nat
  deriving DecidableEq, Repr

/-- A fault handed to a partition's operating system (R501): partition, hart, cause and address. -/
structure GuestFault where
  pid : Nat
  hart : Nat
  cause : Nat
  addr : Nat
  deriving DecidableEq, Repr

/-- A regulated request of an application core that waits (R499, R500): its partition, hart and kind as the request gave
them, virtual address, data, whether the system cache still holds the line if it took it in, whether the page is uncached,
the pieces to which its address translated (R174), and whether the regulator has let it pass. -/
structure ApcReq where
  pid : Nat
  hart : Nat
  kind : Nat
  va : Nat
  data : List Byte
  hit : Bool
  nc : Bool
  ps : List (Nat × Nat)
  paid : Bool
  deriving DecidableEq, Repr

/-- A line that L2 holds (R498): the DRAM line that it is of, its 64 bytes, their stain, whether they have changed since they
were read or written back, and which of them stores have overwritten since they were read (R501). -/
structure L2Line where
  dpa : Nat
  bytes : List Byte
  stain : Bool
  dirty : Bool
  cover : NSet
  deriving DecidableEq, Repr

/-- A line that the cache portion of the system cache holds (R183): the partition whose request brought it, its 64 bytes,
their stain, and whether memory does not hold them yet. -/
structure ScLine where
  pid : Nat
  bytes : List Byte
  stain : Bool
  dirty : Bool
  deriving DecidableEq, Repr

/-- A PCIe request that waits (R60, R70, R185), with the PID and the pieces to which its address translated when it came
(R174). -/
structure WaitTlp where
  t : Tlp
  pid : Nat
  ps : List (Nat × Nat)
  deriving DecidableEq, Repr

/-- An `UNMAP` whose pages no longer translate and which waits for the requests that translated through them (R174): its
command, the context, the frames that its pages mapped, and the number of its pages. -/
structure Unmapping where
  queue : Nat
  num : Nat
  ctx : Nat
  frames : NSet
  pages : Nat
  deriving DecidableEq, Repr

/-- The application cores: the partition whose slice runs on each hart, the stroke from which it runs after a
switch, the partition whose state each hart holds (R497), `vstimecmp` by PID × 32 + hart, the timers that await
their slice and those taken (R493), partitions that begin at `ENTRY` in their next slice (R505), faults handed to
guests, requests that wait at a regulator, the lines held in L2 by (cluster × 256 + PID) × 2^42 + line of the virtual address
(R498), and the lines held in the system cache by DPA over 64 (R183). -/
structure Apc where
  running : SMap Nat
  from_ : SMap Nat
  holds : SMap Nat
  timers : SMap Nat
  timerDue : NSet
  timerTaken : NSet
  restart : NSet
  faults : List GuestFault
  waiting : List ApcReq
  lines : SMap L2Line
  sysc : SMap ScLine
  deriving DecidableEq, Repr

/-- The governor and the sensors (R518 to R525): latest and highest temperatures by sensor, as two's complement
octets, and strokes above the throttle threshold since manufacture; sensors at or above their throttle threshold;
the last stroke in which boost was ruled out by input power; whether boost is withdrawn; cluster clocks in units of
100 MHz (unlisted: 26); the strokes since when each element (dies 0 to 3, clusters 4 to 7, input 8) has stayed over
its limit with no action left; the strokes of the last evaluation, raise and sample; the stroke since when the
outlet has been too warm; and dies held in `DIE_RESET` by R523. -/
structure Gov where
  temps : SMap Nat
  maxT : SMap Nat
  above : SMap Nat
  hot : NSet
  noBoostAt : Nat
  withdrawn : Bool
  clocks : SMap Nat
  stuck : SMap Nat
  evalAt : Nat
  raiseAt : Nat
  sampleAt : Nat
  outletAt : Option Nat
  dieHeld : NSet
  deriving DecidableEq, Repr

/-- A trace (R579, R580): ring, size, sources, the tile and instance observed, records not yet in the ring, and the
stroke whose records are counted with their number. -/
structure Trace where
  va : Nat
  log2Size : Nat
  src : Nat
  tileX : Nat
  tileY : Nat
  inst : Nat
  queue : List (Nat × List Byte)
  strokeAt : Nat
  inStroke : Nat
  deriving DecidableEq, Repr

/-- A slot of a Datum's boot flash (R551, R552): the bytes received, and for a complete image its kind, version,
`SECVER`, digest and whether its signature and digest verify. -/
structure FlashImg where
  bytes : List Byte
  version : Nat
  secver : Nat
  digest : Nat
  good : Bool
  deriving DecidableEq, Repr

/-- The flash and fuses (R551 to R554): slots by Datum × 6 + kind × 2 + slot, fuse counters and booted slots by
Datum × 3 + kind, the bytes received of an update by kind, and its length. -/
structure Flash where
  slots : SMap FlashImg
  fuses : SMap Nat
  booted : SMap Nat
  update : SMap (SMap Byte)
  deriving DecidableEq, Repr

/-- A member of a group as this module knows it (R475 to R478, R486): the stroke of its last frame by the ring,
the CRC of its record, whether it is lost, whether its frames have come back since, the strokes of its member records
on the two networks, whether they report its hub stopped, and the manager that they name. -/
structure GMember where
  heardAt : Nat
  crc : Option Nat
  lost : Bool
  back : Bool
  recA : Option Nat
  recB : Option Nat
  stopped : Bool
  deriving DecidableEq, Repr

/-- A group job on the manager (R481 to R486): its command, `GSEQ`, current attempt's `DSEQ` and worker (15 local),
`SUB_DL`, `SUB_LIMIT`, `PLACE`, whether an attempt has been dispatched and one reissued, the strokes of acceptance and
dispatch, the worker of the attempt that failed, the transfer descriptor, the job's own deadline, the output bytes received of
the current attempt, and the sequence number of a `JOB_CANCEL`. -/
structure GJob where
  pid : Nat
  queue : Nat
  num : Nat
  gseq : Nat
  dseq : Nat
  worker : Nat
  subDl : Nat
  subLimit : Nat
  place : Nat
  dispatched : Bool
  reissued : Bool
  issuedAt : Nat
  sentAt : Nat
  failed : Option Nat
  xfer : List Byte
  dl : Option Nat
  got : Nat
  cancelled : Option Nat
  deriving DecidableEq, Repr

/-- A sub-job on a worker (R481): partition, `DSEQ`, its manager, its job's chunks, transfer descriptor, `SUB_DL`,
input bytes received and expected, the command number of its local job, and the stroke of its dispatch. -/
structure SubJob where
  pid : Nat
  dseq : Nat
  manager : Nat
  pkt : List Byte
  xfer : List Byte
  subDl : Nat
  got : Nat
  need : Nat
  num : Option Nat
  startAt : Nat
  deriving DecidableEq, Repr

/-- A `JOB_SUBMIT` that awaits its shards (R481): where it came from, its chunks, its `GSEQ` and the members that have
not acknowledged. -/
structure HeldSubmit where
  pid : Nat
  queue : Nat
  cp : Nat
  pkt : List Byte
  gseq : Nat
  waits : NSet
  deriving DecidableEq, Repr

/-- A peer port's frames (R473): next number to send and to receive, frames sent and not acknowledged, and frames
that wait for tokens. -/
structure PeerPort where
  nextSend : Nat
  nextRecv : Nat
  sent : List (Nat × List Byte)
  queue : List (List Byte)
  deriving DecidableEq, Repr

/-- A checkpoint that the manager captures or has captured (R485): partition, number, its bytes, the members that
have not acknowledged their shards, and whether it is the latest whole one. -/
structure Ckpt where
  pid : Nat
  number : Nat
  data : List Byte
  waits : NSet
  latest : Bool
  deriving DecidableEq, Repr

/-- The group (R471 to R491): the record of `GROUP_CONFIG` (empty for none), the members, the two ports, the
latest time offsets in ns and those beyond 2 µs in a row by port, the next journal record, the next `GSEQ` and `DSEQ`, group jobs and sub-jobs, submissions that await
shards, the manager's journal records by number, shards kept for a manager by record number (checkpoints from 2^32 on), checkpoints, peer
buckets by port × 256 + PID, the worker window strokes of attempts as (stroke, spent, useful) within 24 hours (R489), and the last member record
sent by each Datum with its stroke. -/
structure Group where
  config : List Byte
  members : SMap GMember
  ports : SMap PeerPort
  offsets : SMap Int
  badOffsets : SMap Nat
  recNext : Nat
  gseq : Nat
  dseq : Nat
  jobs : List GJob
  subs : List SubJob
  held : List HeldSubmit
  journal : SMap (List Byte)
  shards : SMap (List Byte)
  ckpts : List Ckpt
  tokens : SMap Nat
  work : List (Nat × Nat × Nat)
  sentA : Option Nat
  sentB : Option Nat
  recA : List Byte
  recB : List Byte
  deriving DecidableEq, Repr

/-- A creation record (R602) as read, with its allotment record when it names one. -/
structure CreateRec where
  pid : Nat
  cls : Nat
  jnl : Nat
  sheets : Nat
  seqs : Nat
  queues : List QueueDesc
  reqs : List (Nat × Nat)
  allot : Option Allot
  deriving DecidableEq, Repr

/-- What the checks of an accepted command read and its effect uses at its turn (R204, R208): the record of a `PART_CREATE`
(R602), a stencil (R55), or a stream with its key (R322). -/
inductive Kept where
  | part (r : CreateRec)
  | stencil (s : Stencil)
  | stream (key : Nat) (s : Stream)
  deriving DecidableEq, Repr

/-- The rest of the module: DRAM, arbiters by instance, application cores, governor, trace, flash, group; WAKE's level
with the stroke of its last change; FRZ_N and PORST_N low; the stroke of a main-power loss and the stages of its
sequence done (R512); whether start-up has stopped (R559) and whether Datum B is in its recovery state; the stroke in
which a freeze acted (R572); the debug level unlocked and whether a TAP refusal has been reported (R575); dies that
await `DIE_RESET` with the stroke and detail of the fault (R449); a pending time step with its stroke (R620); the time
source in use, the stroke of a change of `SRC`, measurements in a row within 100 ns, whether the source has been
measured, and the ns of the last usable PPS edge (R619); CAN XL states (R539); the requests refused on FRZ_N once per
assertion are seen from `frzLow`; deadlines of class-A and class-D jobs that were not met, and whether the coat in
progress holds an excluded interval (R467); sensors and peers late in it are part of that; and the source, by its place in the configuration image, of the last
write of the owner queue's doorbells (R198, R562); whether the 100 MHz reference is lost (R517); and the PCIe
requests that wait for a QUIET window to end or for a bucket's refill (R60, R70); whether a wake has been asked for in PARKED
(R561); the stroke of the last change of mode; and of a frozen module, the number by which its unstated contents are told
apart (log entry 36) and the check lines read out, by channel × 2^23 + group (R578); and what the housing label says, once a
start-up has read it from the silicon (R4); the `UNMAP`s that wait (R174); and what the
checks of accepted commands have read for their effects, by PID, queue and command count (R204, R208). -/
structure Sys where
  dram : Dram
  arbs : SMap Arb
  apc : Apc
  gov : Gov
  trace : Option Trace
  flash : Flash
  grp : Group
  wake : Bool
  wakeAt : Nat
  frzLow : Bool
  porstLow : Bool
  lost : Option Nat
  lossStage : Nat
  startStop : Bool
  recoveryB : Bool
  frozenAt : Option Nat
  dbgLevel : Nat
  tapRefused : Bool
  dieDue : SMap (Nat × Nat)
  step : Option (Int × Nat)
  srcInUse : Nat
  srcAt : Option Nat
  locks : Nat
  measured : Bool
  ppsAt : Option Nat
  can : SMap Nat
  missed : List Nat
  coatExcluded : Bool
  ownerSrc : Option Nat
  refLost : Bool
  tlps : List WaitTlp
  wakeReq : Bool
  modeAt : Nat
  frozenIx : Nat
  checkRead : NSet
  label : Option Label
  unmaps : List Unmapping
  kept : List (Nat × Nat × Nat × Kept)
  deriving DecidableEq, Repr

/-- DRAM right after PORST. -/
def Dram.reset : Dram :=
  { faults := [], copies := [], scrub := [], patrol := [], patrolled := [], passAt := 0, lateRaised := false, retiring := [],
    trainAt := [], rebuild := [], parity := [], durable := [], refreshAt := [], leakAt := 0 }

/-- An arbiter that has granted nothing. -/
def Arb.idle : Arb :=
  { ptr := 0, left := 0, last := none, parked := false, waiting := [], maxWait := [], slotAt := 0, slots := 0, granted := [],
    freeze := none, lastQueue := [] }

/-- The cores before any slice. -/
def Apc.reset : Apc :=
  { running := [], from_ := [], holds := [], timers := [], timerDue := [], timerTaken := [], restart := [], faults := [],
    waiting := [], lines := [], sysc := [] }

/-- The governor at PORST. -/
def Gov.reset : Gov :=
  { temps := [], maxT := [], above := [], hot := [], noBoostAt := 0, withdrawn := false, clocks := [], stuck := [], evalAt := 0,
    raiseAt := 0, sampleAt := 0, outletAt := none, dieHeld := [] }

/-- Flash and fuses as a module is delivered: in slot 0 of each kind a valid image, the fuses at 0 (log entry 12). -/
def Flash.delivered : Flash :=
  { slots := (List.range 6).map fun i => (2 * i, { bytes := [], version := 0x2_0000, secver := 0, digest := i % 3, good := true }),
    fuses := [], booted := [], update := [] }

/-- No group. -/
def Group.none : Group :=
  { config := [], members := [], ports := [], offsets := [], badOffsets := [], recNext := 0, gseq := 0, dseq := 0, jobs := [], subs := [], held := [],
    journal := [], shards := [], ckpts := [], tokens := [], work := [], sentA := .none, sentB := .none, recA := [],
    recB := [] }

/-- The rest of the module right after PORST with WAKE high. -/
def Sys.reset : Sys :=
  { dram := Dram.reset, arbs := [], apc := Apc.reset, gov := Gov.reset, trace := none, flash := Flash.delivered,
    grp := Group.none, wake := true, wakeAt := 0, frzLow := false, porstLow := false, lost := none, lossStage := 0,
    startStop := false, recoveryB := false, frozenAt := none, dbgLevel := 0, tapRefused := false, dieDue := [], step := none,
    srcInUse := 3, srcAt := none, locks := 0, measured := false, ppsAt := none, can := [], missed := [],
    coatExcluded := false, ownerSrc := none, refLost := false, tlps := [], wakeReq := false,
    modeAt := 0, frozenIx := 0, checkRead := [], label := none, unmaps := [], kept := [] }

end Sys2Proof.Machine
end

