-- ==== Sys2Proof/Machine/TypesHw.lean ====
section
/-! DEFINITION. The whole hardware state but for the queue of waiting commands. -/

namespace Sys2Proof.Machine

/-- Everything that the manual gives the module: its register file (`regs`, every register of R608 to
R623 at a value other than its reset value), its memory, its partitions, queues and journal, its
engines and ports. `health` counts the inputs of R464 by part, input and sub-window, and `scores` holds
the sheet of the last update: a part's score with its four groups of points, 16 bits each, and from key 2,000 on the
fields of the header. `freeIx` and `rndIx` number the free values and the random draws taken. -/
structure Hw where
  regs : SMap Nat
  freeIx : Nat
  rndIx : Nat
  mem : Mem
  parts : SMap Part
  cmds : List Cmd
  fetched : List Fetched
  mram : SMap MramPair
  sobs : SMap Nat
  watches : List Watch
  evt : EvtSt
  stn : StnSt
  vec : VecSt
  tiles : SMap Tile
  fab : Fabric
  models : SMap Model
  jobs : List Job
  dup : List DupHeld
  kv : Kv
  cfg : Cfg
  msix : SMap MsixFn
  gfiles : NSet
  outs : List Out
  health : SMap Nat
  scores : SMap Nat
  watch : NSet
  advised : NSet
  healthAt : Nat
  coatLog : List (Nat × Bool)
  freezeReq : Bool
  seqStopped : Bool
  detected : List Detected
  dfin : List DfinReq
  ing : Ingest
  fus : Fus
  datA : Datum
  datB : Datum
  trv : TrvHub
  sys : Sys
  deriving DecidableEq, Repr

end Sys2Proof.Machine
end

