-- ==== Sys2Proof/Machine/Regs.lean ====
section
/-! DEFINITION. Reading and writing registers (R14 to R16, R608 to R611): every register has one home,
the sparse register file, and reads its reset value where the file lists nothing. -/

namespace Sys2Proof.Machine

/-- The row of the register map that describes the register at this block and offset. -/
def regSpec? (block off : Nat) : Option RegSpec :=
  regTable.find? fun r =>
    Nat.ble r.block block && (Nat.blt block (r.block + r.nblk * r.stride) &&
      (Nat.beq ((block - r.block) % r.stride) 0 &&
        (Nat.ble r.off off && (Nat.blt off (r.off + 8 * r.count) && Nat.beq ((off - r.off) % 8) 0))))

/-- The reset value of a register: the reset values of its fields, reserved bits zero (R15). -/
def RegSpec.reset (r : RegSpec) : Nat :=
  r.fields.foldl (fun v f => v + f.reset * 2 ^ f.lo) 0

/-- The reset value of the register at this block and offset; an offset that no table lists reads
zero (R608).  `TILE_ID` holds the tile's own place (R109, R612): bits 1:0 die, 5:2 row, 10:6 column. -/
def regReset (block off : Nat) : Nat :=
  match regSpec? block off with
  | some r =>
    if 0x100 ≤ block ∧ block ≤ 0x57F ∧ off = 0 then
      let t := block - 0x100
      t / 288 + (t % 288 / 18) * 4 + (t % 18) * 64
    else r.reset
  | none => 0

/-- The key of a register in the register file. -/
def regKey (block off : Nat) : Nat := block * 0x10000 + off

/-- The stored value of a register. -/
def Hw.reg (h : Hw) (block off : Nat) : Nat :=
  match h.regs.find (regKey block off) with
  | some v => v
  | none => regReset block off

/-- Stores a register, keeping the file canonical. -/
def Hw.setReg (h : Hw) (block off v : Nat) : Hw :=
  { h with regs := SMap.putD (regReset block off) h.regs (regKey block off) v }

/-- The bits of a value that lie in fields of a register; a reserved bit takes nothing (R15). -/
def RegSpec.masked (r : RegSpec) (v : Nat) : Nat :=
  r.fields.foldl (fun acc f => setBits acc f.lo f.len (bits v f.lo f.len)) 0

/-- Firmware stores a whole register: its fields take their bits, and its reserved bits stay zero (R15). -/
def Hw.setFields (h : Hw) (block off v : Nat) : Hw :=
  match regSpec? block off with
  | some r => h.setReg block off (r.masked v)
  | none => h

/-- The value of a field. -/
def Hw.get (h : Hw) (f : Fld) : Nat := bits (h.reg f.block f.off) f.lo f.len

/-- Whether a one-bit field is set. -/
def Hw.on (h : Hw) (f : Fld) : Bool := h.get f ≠ 0

/-- Hardware sets a field. -/
def Hw.put (h : Hw) (f : Fld) (v : Nat) : Hw :=
  h.setReg f.block f.off (setBits (h.reg f.block f.off) f.lo f.len v)

/-- Hardware sets a bit `n` of a field. -/
def Hw.raiseBit (h : Hw) (f : Fld) (n : Nat) : Hw := h.put (f.bit n) 1

/-- Hardware adds to a counter field that saturates. -/
def Hw.addSat (h : Hw) (f : Fld) (n : Nat) : Hw := h.put f (satAdd f.len (h.get f) n)

/-- Hardware adds to a counter field that wraps. -/
def Hw.addWrap (h : Hw) (f : Fld) (n : Nat) : Hw := h.put f ((h.get f + n) % 2 ^ f.len)

/-- What a write of `v` to a field leaves in it under its access code (R14). -/
def FieldSpec.written (f : FieldSpec) (locked : Bool) (old v : Nat) : Nat :=
  let o := bits old f.lo f.len
  let n := bits v f.lo f.len
  match f.acc with
  | .ro => o
  | .rw => n
  | .wo => 0
  | .w1c => o - (o &&& n)
  | .w1s => o ||| n
  | .rwl => if locked then o else n

/-- What an 8-byte write of `v` to a register leaves in it: each field under its access code,
reserved bits ignored (R14, R15). -/
def RegSpec.written (r : RegSpec) (locked : Bool) (old v : Nat) : Nat :=
  r.fields.foldl (fun acc f => setBits acc f.lo f.len (f.written locked old v)) old

/-- The offset of each block's `LOCK` register (R16), for the blocks that have one. -/
def lockOff (block : Nat) : Option Nat :=
  if block = 0x001 then some 0x68
  else if block = 0x002 then some 0x48
  else if block = 0x018 then some 0x18
  else if 0x600 ≤ block ∧ block ≤ 0x63F then some 0x48
  else if block = 0x640 then some 0x50
  else if 0x700 ≤ block ∧ block ≤ 0x717 then some 0x60
  else if 0x720 ≤ block ∧ block ≤ 0x727 then some 0x30
  else if block = 0x728 then some 0x38
  else none

/-- Whether the block's `LOCK` bit is set (R16). -/
def Hw.locked (h : Hw) (block : Nat) : Bool :=
  match lockOff block with
  | some o => bit (h.reg block o) 0
  | none => false

/-- Forgets every register of the blocks `lo` to `hi`: each returns to its reset value. -/
def Hw.resetBlocks (h : Hw) (lo hi : Nat) : Hw :=
  { h with regs := h.regs.filter fun e => !(decide (lo ≤ e.1 / 0x10000) && decide (e.1 / 0x10000 ≤ hi)) }

/-- Module time (R40). -/
def Hw.now (h : Hw) : Nat := h.get F.TIME_COUNT_STROKE_COUNT

/-- The current mode (R560, R613). -/
def Hw.mode (h : Hw) : Nat := h.get F.MOD_MODE_MODE

/-- Whether the fabric runs: a mode from STANDBY to SERVICE, no freeze, no loss of main power, which stops the
tile clocks, and no loss of the reference (R34, R517, R560, R573). -/
def Hw.fabricOn (h : Hw) : Bool :=
  decide (2 ≤ h.mode) && decide (h.mode ≤ 5) && ! h.on F.DBG_STATUS_FROZEN && h.sys.lost.isNone && ! h.sys.refLost

/-- Whether a power domain is on (R513). -/
def Hw.domainOn (h : Hw) (k : Nat) : Bool := bit (h.get F.PWR_DOMAIN_ON) k

/-- Switches a power domain (R514). -/
def Hw.switch (h : Hw) (k : Nat) (on : Bool) : Hw := h.put (F.PWR_DOMAIN_ON.bit k) (b2n on)

/-- Whether the hub's control side runs: PD_H_CP has its supply, and no clock stop holds it (R513, R517, R573). -/
def Hw.hubOn (h : Hw) : Bool := h.domainOn 28 && ! h.on F.DBG_STATUS_FROZEN && ! h.sys.refLost

/-- Whether acceptance and posting have stopped on a loss of main power (R220): within one stroke of its detection. -/
def Hw.lossStops (h : Hw) : Bool := h.sys.lost.any fun t => decide (t < h.now)

/-- The power domain of a physical tile's quadrant (R513). -/
def tileDomain (t : Nat) : Nat := 7 * (t / 288) + 2 * (t % 288 / 144) + t % 18 / 9

/-- Whether a register block can be reached: its domain has its supply and is not held in a reset (R611, R612); the blocks
of a Datum come to the hub over its monitor link. -/
def Hw.blockOn (h : Hw) (b : Nat) : Bool :=
  if b ≤ 0x002 ∨ b = 0x7C0 then true
  else if 0x100 ≤ b ∧ b < 0x580 then h.domainOn (tileDomain (b - 0x100)) && ! h.sys.gov.dieHeld.contains ((b - 0x100) / 288)
  else if 0x600 ≤ b ∧ b < 0x640 then h.domainOn (7 * ((b - 0x600) / 16) + 5)
  else if 0x700 ≤ b ∧ b ≤ 0x738 then h.domainOn 34
  else if b = 0x740 then h.domainOn 35
  else if b = 0x780 ∨ b = 0x790 then h.domainOn (if b = 0x780 then 37 else 38) && ! h.datA.down && ! h.datA.linkLost.contains 4
  else if b = 0x788 ∨ b = 0x798 then h.domainOn (if b = 0x788 then 40 else 41) && ! h.datB.down && ! h.datB.linkLost.contains 4
  else h.domainOn 28

/-- Takes the next free value (log entry 3). -/
def Hw.free (h : Hw) : Word × Hw := (Config.freeWord h.freeIx, { h with freeIx := h.freeIx + 1 })

/-- Free bytes, eight at a time (R9). -/
def Hw.freeBytes (h : Hw) : Nat → List Byte × Hw
  | 0 => ([], h)
  | n + 1 =>
    let (w, h) := h.free
    let (bs, h) := h.freeBytes n
    (leBytes 8 w.toNat ++ bs, h)

/-- Takes the next random draw (log entry 4). -/
def Hw.random (h : Hw) : Word × Hw := (Config.randomWord h.rndIx, { h with rndIx := h.rndIx + 1 })

end Sys2Proof.Machine
end

