-- ==== Sys2Proof/Machine/Events.lean ====
section
/-! DEFINITION. Raising events (R456 to R458, R463), vectors on the routes of PIDs (R614 to R617) and
the owner summary (R615). -/

namespace Sys2Proof.Machine

/-- The event sources of R456. -/
def srcTile (t : Nat) : Nat := t
def srcChannel (c : Nat) : Nat := 0x500 + c
def srcEdge (i : Nat) : Nat := 0x540 + i
def srcDie (d : Nat) : Nat := 0x550 + d
def srcCp (c : Nat) : Nat := 0x560 + c
def srcSeq : Nat := 0x568
def srcStn : Nat := 0x569
def srcPmmu : Nat := 0x56A
def srcSob : Nat := 0x56B
def srcEcc : Nat := 0x56C
def srcArb : Nat := 0x56D
def srcCam (n : Nat) : Nat := 0x580 + n
def srcLid (n : Nat) : Nat := 0x598 + n
/-- Backbone 0, 1; PCIe 2, 3; peer 4, 5; CAN XL channels 2 and 3 as 6 and 7. -/
def srcPort (n : Nat) : Nat := 0x5A0 + n
def srcFus : Nat := 0x5B0
def srcDfin (n : Nat) : Nat := 0x5B1 + n
def srcDatum (n : Nat) : Nat := 0x5C0 + n
def srcPower : Nat := 0x5D0
def srcThermal : Nat := 0x5D1
def srcTime : Nat := 0x5D2
def srcFw : Nat := 0x5E0

/-- Whether events of a type's group are staged (R462): groups 0x04 and 0x06 always are. -/
def Hw.groupOn (h : Hw) (type : Nat) : Bool :=
  let g := type / 256
  g == 4 || g == 6 || bit (h.get F.EVT_GROUPS_ENABLE) (g - 1)

/-- A new staged entry (R457). -/
def newEntry (type pid detail now : Nat) : EvtEntry :=
  { type := type, firstAt := now, lastAt := now, count := 1, pid := pid, detail := detail,
    mixedPid := false, mixedDetail := false, spanSat := false }

/-- An event coalesced into the newest entry of its source (R457, R461): the count rises, the span
grows up to 65,535 strokes, and the mixed marks are set. -/
def EvtEntry.merge (e : EvtEntry) (pid detail now : Nat) : EvtEntry :=
  let far := decide (now - e.firstAt > 65535)
  { e with count := e.count + 1,
           lastAt := if far || e.spanSat then e.firstAt + 65535 else now,
           spanSat := e.spanSat || far,
           mixedPid := e.mixedPid || decide (pid ≠ e.pid),
           mixedDetail := e.mixedDetail || decide (detail ≠ e.detail) }

/-- What a source's staging queue becomes when an event arrives (R457); `none` drops the event. -/
def stageInto (q : List EvtEntry) (type pid detail now : Nat) : Option (List EvtEntry) :=
  match q.getLast? with
  | some e =>
    if e.type = type ∧ e.count < 65535 then some (q.dropLast ++ [e.merge pid detail now])
    else if q.length < 256 then some (q ++ [newEntry type pid detail now]) else none
  | none => some [newEntry type pid detail now]

/-- The total of staged entries (R470 `EVT_STAGED`). -/
def Hw.countStaged (h : Hw) : Nat := sumNat (h.evt.staged.map fun e => e.2.length)

/-- Loses `n` events of a source (R457, R458, R460). -/
def Hw.loseEvents (h : Hw) (src n : Nat) : Hw :=
  let h := { h with evt := { h.evt with lost := h.evt.lost.put src (satAdd 16 (h.evt.lost.getD 0 src) n) } }
  (h.addWrap F.EVT_LOST_COUNT n).put F.EVT_INT_STATUS_LOST 1

/-- An armed freeze on an event type and source fires when such an event is staged, coalesced events
included (R571, condition 2): the request is kept in `freezeReq` for the `FREEZE` command. -/
def Hw.freezeOnEvent (h : Hw) (src type : Nat) : Hw :=
  if h.on F.DBG_STATUS_ARMED ∧ h.get F.DBG_ARM_COND = 2 ∧ h.get F.DBG_ARM_EVT_TYPE = type ∧
     (h.get F.DBG_ARM_EVT_SOURCE = src ∨ h.get F.DBG_ARM_EVT_SOURCE = 0xFFFF)
  then { h with freezeReq := true } else h

/-- Puts the trace. -/
def Hw.setTrace (h : Hw) (t : Trace) : Hw := { h with sys := { h.sys with trace := some t } }

/-- A trace record is taken when its source is traced (R579, R580): kind 0 step, 1 gate, 2 grant, 3 event.  The
allowance is 128 records a stroke; the time since the pulse is a free value below 100. -/
def Hw.traceAdd (h : Hw) (kind pid : Nat) (data : List Byte) : Hw :=
  match h.sys.trace with
  | none => h
  | some t =>
    let n := if t.strokeAt = h.now then t.inStroke else 0
    if ! bit t.src kind then h
    else if 128 ≤ n then (h.addSat F.DBG_TRACE_DROPPED 1).put F.DBG_INT_STATUS_TRACE_DROP 1
    else
      let (w, h) := h.free
      let num := h.get F.DBG_TRACE_WRITTEN
      let r := leBytes 8 h.now ++ leBytes 1 kind ++ leBytes 1 pid ++ leBytes 2 (w.toNat % 100) ++ leBytes 4 num ++ fit 16 data
      let t := { t with queue := t.queue ++ [(num, r)], strokeAt := h.now, inStroke := n + 1 }
      (h.addWrap F.DBG_TRACE_WRITTEN 1).setTrace t

/-- Puts a source's staging queue. -/
def Hw.setStaged (h : Hw) (src : Nat) (q : List EvtEntry) : Hw :=
  { h with evt := { h.evt with staged := h.evt.staged.putD [] src q } }

/-- Raises an event (R457, R462): filtered, coalesced, staged or dropped. -/
def Hw.event (h : Hw) (src type pid detail : Nat) : Hw :=
  if ! h.groupOn type then h.addWrap F.EVT_FILTERED_COUNT 1
  else
    match stageInto (h.evt.staged.getD [] src) type pid (detail % 2 ^ 32) h.now with
    | some q =>
      let h := h.setStaged src q
      ((h.put F.EVT_STAGED_ENTRIES h.countStaged).freezeOnEvent src type).traceAdd 3 pid
        (leBytes 2 type ++ leBytes 2 src ++ leBytes 4 detail)
    | none => h.loseEvents src 1

/-- The pending output of the block whose `INT_STATUS` and `INT_ENABLE` stand at these offsets
(R614). -/
def Hw.pending (h : Hw) (block st en : Nat) : Bool := (h.reg block st &&& h.reg block en) ≠ 0

/-- The offsets of `INT_STATUS` and `INT_ENABLE` of a block, where it has them (R614). -/
def intOffs (block : Nat) : Option (Nat × Nat) :=
  if block = 0x000 then some (0x28, 0x30)
  else if block = 0x001 then some (0x58, 0x60)
  else if block = 0x002 then some (0x38, 0x40)
  else if 0x008 ≤ block ∧ block ≤ 0x00B then some (0x18, 0x20)
  else if block = 0x010 then some (0x40, 0x48)
  else if block = 0x018 then some (0x38, 0x40)
  else if block = 0x020 then some (0x10, 0x18)
  else if block = 0x028 then some (0x48, 0x50)
  else if block = 0x030 then some (0x28, 0x30)
  else if 0x100 ≤ block ∧ block ≤ 0x57F then some (0x90, 0x98)
  else if 0x600 ≤ block ∧ block ≤ 0x63F then some (0x38, 0x40)
  else if block = 0x640 then some (0x40, 0x48)
  else if block = 0x648 then some (0x38, 0x40)
  else if 0x700 ≤ block ∧ block ≤ 0x717 then some (0x50, 0x58)
  else if 0x720 ≤ block ∧ block ≤ 0x727 then some (0x20, 0x28)
  else if block = 0x728 then some (0x28, 0x30)
  else if block = 0x730 then some (0x18, 0x20)
  else if block = 0x738 then some (0x48, 0x50)
  else if block = 0x740 then some (0x28, 0x30)
  else if block = 0x748 then some (0x30, 0x38)
  else if block = 0x780 ∨ block = 0x788 then some (0x40, 0x48)
  else if block = 0x790 ∨ block = 0x798 then some (0x58, 0x60)
  else if block = 0x7C0 then some (0x30, 0x38)
  else none

/-- The pending output of a block (R614), none while it cannot be reached (R611).  The `PCIE` block serves two ports
(R623), and either port's sources make it pending. -/
def Hw.blockPend (h : Hw) (block : Nat) : Bool :=
  match intOffs block with
  | some (st, en) =>
    h.blockOn block && (h.pending block st en || (block == 0x730 && h.pending block (st + 0x800) (en + 0x800)))
  | none => false

/-- A number whose bit `i` is `p i`, for `i` below `n`. -/
def mask (n : Nat) (p : Nat → Bool) : Nat :=
  (List.range n).foldl (fun v i => if p i then v + 2 ^ i else v) 0

/-- The blocks of sources 0 to 23 (R612). -/
def sourceBlocks : List Nat :=
  [0x000, 0x001, 0x002, 0x008, 0x009, 0x00A, 0x00B, 0x010, 0x018, 0x020, 0x028, 0x030, 0x640, 0x648,
   0x728, 0x730, 0x738, 0x740, 0x748, 0x780, 0x788, 0x790, 0x798, 0x7C0]

/-- Whether any listed register makes a tile block pending: only registers at other than reset
values can. -/
def Hw.tilePend (h : Hw) (t : Nat) : Bool := h.blockPend (0x100 + t)

/-- The tiles whose block file lists anything. -/
def Hw.tilesListed (h : Hw) : NSet :=
  h.regs.foldl (fun s e =>
    let b := e.1 / 0x10000
    if 0x100 ≤ b ∧ b ≤ 0x57F then NSet.add s (b - 0x100) else s) []

/-- `MOD_INT_PEND` (R614). -/
def Hw.intPend (h : Hw) : Nat :=
  mask 24 (fun i => h.blockPend (sourceBlocks.getD i 0xFFFF)) +
  2 ^ 24 * b2n (h.tilesListed.any h.tilePend) +
  2 ^ 25 * b2n ((List.range 64).any fun c => h.blockPend (0x600 + c)) +
  2 ^ 26 * b2n ((List.range 24).any fun c => h.blockPend (0x700 + c)) +
  2 ^ 27 * b2n ((List.range 8).any fun c => h.blockPend (0x720 + c))

/-- The route of a PID as `MOD_ROUTE` holds it (R613). -/
def Hw.route (h : Hw) (pid : Nat) : Nat := h.reg 0x000 (0x800 + 8 * pid)

/-- The route in force at the start of the stroke (R616). -/
def Hw.routeAtStart (h : Hw) (pid : Nat) : Nat :=
  match h.vec.oldRoutes.find pid with
  | some r => r
  | none => h.route pid

/-- Changes a route (R616); a change of the route of PID 0 sets `ROUTE`. -/
def Hw.setRoute (h : Hw) (pid r : Nat) : Hw :=
  let old := h.route pid
  if old = r then h
  else
    let h := match h.vec.oldRoutes.find pid with
      | some _ => h
      | none => { h with vec := { h.vec with oldRoutes := h.vec.oldRoutes.put pid old } }
    let h := h.setReg 0x000 (0x800 + 8 * pid) r
    if pid = 0 then h.put F.MOD_INT_STATUS_ROUTE 1 else h

/-- A guest interrupt file's pending identity as one number (R617, kind 2). -/
def gfileKey (hart gfile v : Nat) : Nat := (hart * 8 + gfile) * 2048 + v

/-- Counts a dropped raise (R617). -/
def Hw.dropVector (h : Hw) (pid : Nat) : Hw :=
  let h := (h.addSat F.MOD_VEC_DROP_COUNT 1).put F.MOD_VEC_DROP_PID pid
  h.put F.MOD_INT_STATUS_VEC_DROP 1

/-- The MSI-X state of a function on a port; MSI-X is disabled until the host enables it. -/
def Hw.msixOf (h : Hw) (port rid : Nat) : MsixFn :=
  h.msix.getD { enable := false, maskAll := false, masked := [], pend := [] } (port * 65536 + rid)

/-- Delivers an MSI-X raise (R617, kind 1): dropped while disabled or the link is down; pending while
masked; otherwise a message. -/
def Hw.sendMsix (h : Hw) (pid port rid v : Nat) : Hw :=
  let fn := h.msixOf port rid
  if ! fn.enable || ! h.on (F.PCIE_STATUS_UP.port port) then
    ((h.dropVector pid).addSat (F.PCIE_ERR_MSI_DROPPED.port port) 1).put (F.PCIE_INT_STATUS_MSI_DROP.port port) 1
  else if fn.maskAll || fn.masked.contains v then
    { h with msix := h.msix.put (port * 65536 + rid) { fn with pend := NSet.add fn.pend v } }
  else { h with outs := h.outs ++ [.msix port rid v] }

/-- Raises vector `v` on the route of a PID (R617).  Nothing is raised in PARKED, OFF or FROZEN
(R618), and one vector on one route is delivered once a stroke. -/
def Hw.raiseVector (h : Hw) (pid v : Nat) : Hw :=
  if v = 0 ∨ h.mode ≤ 1 ∨ h.mode = 6 ∨ h.on F.DBG_STATUS_FROZEN then h
  else
    let r := h.routeAtStart pid
    if h.vec.raised.contains (r, v) then h
    else
      let h := { h with vec := { h.vec with raised := (r, v) :: h.vec.raised } }
      match bits r 0 2 with
      | 2 => { h with gfiles := NSet.add h.gfiles (gfileKey (bits r 8 5) (bits r 13 3) v) }
      | 1 => h.sendMsix pid (bits r 2 1) (bits r 16 16) v
      | _ => h.dropVector pid

/-- The owner summary S (R615). -/
def Hw.summary (h : Hw) : Bool := (h.intPend &&& h.get F.MOD_INT_MASK_MASK) ≠ 0

/-- Raises the owner summary when S is 1 and no message is outstanding (R615). -/
def Hw.ownerSummary (h : Hw) : Hw :=
  let v := h.get F.MOD_INT_VECTOR_VECTOR
  if v ≠ 0 ∧ h.summary ∧ ! h.on F.MOD_INT_VECTOR_INSVC then
    (h.raiseVector 0 v).put F.MOD_INT_VECTOR_INSVC 1
  else h

end Sys2Proof.Machine
end

