-- ==== Sys2Proof/Machine/Health.lean ====
section
/-! DEFINITION. What wear and errors add to: the inputs of the health sheet (R464) and the hairline
counters (R424). -/

namespace Sys2Proof.Machine

/-- The inputs of R464, in the order of its table. -/
def inHairline : Nat := 0
def inUncorr : Nat := 1
def inRetry : Nat := 2
def inRetrain : Nat := 3
def inEdgeLost : Nat := 4
def inTrain : Nat := 5
def inMarginal : Nat := 6
def inFlit : Nat := 7
def inHot : Nat := 8

/-- The parts of R464 after the tiles. -/
def partDie (d : Nat) : Nat := 1152 + d
def partDevice (d : Nat) : Nat := 1156 + d
def partChannel (c : Nat) : Nat := 1164 + c
def partEdge (e : Nat) : Nat := 1228 + e
def partPort (p : Nat) : Nat := 1234 + p
def partDatum (d : Nat) : Nat := 1278 + d

/-- The key of a count: part, input and sub-window of 2^35 strokes; inputs that count over the life of
the module stand in sub-window 0. -/
def healthKey (part input sub : Nat) : Nat := (part * 16 + input) * 2 ^ 32 + sub

/-- Counts an input of the health sheet (R464). -/
def Hw.healthAdd (h : Hw) (part input n : Nat) : Hw :=
  let sub := if input = inHot ∨ input = inEdgeLost then 0 else h.now / 2 ^ 35
  { h with health := h.health.mod 0 (healthKey part input sub) (· + n) }

/-- A tile's hairline counter rises by one (R424). -/
def Hw.hairTile (h : Hw) (t : Nat) : Hw :=
  let f := F.ECC_TILE_LEVEL_LEVEL.nth t
  let depth := max 1 (h.get F.ECC_HAIR_TILE_DEPTH)
  if h.get f < depth then h.put f (h.get f + 1)
  else
    let h := ((h.put f 0).raiseBit (F.ECC_HAIR_OVF_TILE_OVF.nth (t / 64)) (t % 64)).put F.ECC_INT_STATUS_HAIR_TILE 1
    (h.event (srcTile t) 0x0104 0 depth).healthAdd t inHairline 1

/-- A channel's hairline counter rises by one (R424). -/
def Hw.hairChannel (h : Hw) (c : Nat) : Hw :=
  let f := F.ECC_CH_LEVEL_LEVEL.nth c
  let depth := max 1 (h.get F.ECC_HAIR_CH_DEPTH)
  if h.get f < depth then h.put f (h.get f + 1)
  else
    let h := ((h.put f 0).raiseBit F.ECC_HAIR_OVF_CH_OVF c).put F.ECC_INT_STATUS_HAIR_CH 1
    (h.event (srcChannel c) 0x0104 0 depth).healthAdd (partChannel c) inHairline 1

/-- A die fault (R449): 0 router, 1 edge, 2 die control.  Module firmware owes the die its `DIE_RESET`. -/
def Hw.dieFault (h : Hw) (d detail : Nat) : Hw :=
  let h := h.event (srcDie d) 0x020A 0 detail
  if (h.sys.dieDue.find d).isSome then h
  else { h with sys := { h.sys with dieDue := h.sys.dieDue.put d (h.now, detail) } }

end Sys2Proof.Machine
end

