-- ==== Sys2Proof/Machine/Rs.lean ====
section
/-! DEFINITION. The field GF(2^8) of R417 and the outcome of the inline code. -/

namespace Sys2Proof.Machine

/-- Multiplication by α = 2 in GF(2^8) with x^8 + x^4 + x^3 + x^2 + 1 (R417). -/
def gfDouble (x : Nat) : Nat := if x < 128 then 2 * x else (2 * x) ^^^ 0x11D

/-- α to the power `n`. -/
def gfAlpha : Nat → Nat
  | 0 => 1
  | n + 1 => gfDouble (gfAlpha n)

/-- Multiplication in GF(2^8). -/
def gfMul (a b : Nat) : Nat :=
  ((List.range 8).foldl (fun (s : Nat × Nat) i => (if bit b i then s.1 ^^^ s.2 else s.1, gfDouble s.2)) (0, a)).1

/-- Syndrome `i` of an error pattern: symbol `j` of the 77, virtual ones first, has exponent 76 − j (R417). -/
def syndrome (es : List (Nat × Nat)) (i : Nat) : Nat :=
  es.foldl (fun s e => s ^^^ gfMul e.2 (gfAlpha (i * (76 - e.1) % 255))) 0

/-- What a read of a line finds (R417): clean, corrected at a stored symbol by a value, or uncorrectable. -/
inductive Outcome where
  | clean
  | corrected (symbol value : Nat)
  | uncorrectable
  deriving DecidableEq, Repr

/-- The outcome of the inline code for an error pattern (R417): all syndromes zero, one error located at a stored
symbol, or anything else. -/
def codeOutcome (es : List (Nat × Nat)) : Outcome :=
  let ss := (List.range 8).map (syndrome es)
  if ss.all (· == 0) then .clean
  else
    let v := ss.getD 0 0
    match (upto 5 72).find? fun j => v ≠ 0 &&
      (List.range 8).all fun i => ss.getD i 0 == gfMul v (gfAlpha (i * (76 - j) % 255)) with
    | some j => .corrected j v
    | none => .uncorrectable

/-- Adds an error to a pattern; one that cancels goes. -/
def addError (es : List (Nat × Nat)) (e : Nat × Nat) : List (Nat × Nat) :=
  if e.2 = 0 then es
  else match es.find? fun x => x.1 == e.1 with
  | some x => if x.2 ^^^ e.2 = 0 then es.filter fun y => y.1 ≠ e.1
              else es.map fun y => if y.1 = e.1 then (y.1, y.2 ^^^ e.2) else y
  | none => es ++ [e]

/-- The 64 data bytes as stored: each written byte with the error at its symbol, 5 + its place. -/
def storedBytes (bs : List Byte) (es : List (Nat × Nat)) : List Byte :=
  (List.range bs.length).map fun j =>
    let b := bs.getD j 0
    match es.find? fun e => e.1 == 5 + j with
    | some e => BitVec.ofNat 8 (b.toNat ^^^ e.2)
    | none => b

end Sys2Proof.Machine
end

