-- ==== Sys2Proof/Machine/Mem.lean ====
section
/-! DEFINITION. Memory: the address map (R169), frame ownership and firewalls (R170, R180),
translation (R175 to R178), the interleave and the STRIPED class (R410, R411, R427 to R429), and reading and
writing bytes with their errors and stain (R417 to R420). -/

namespace Sys2Proof.Machine

/-- The regions of the DPA space (R169). -/
inductive Region where
  | dram | tileSram | scratch | regs | doorbell | sobWin | none
  deriving DecidableEq, Repr

/-- The end of DRAM: 224 GiB (R169). -/
def dramEnd : Nat := 0x0038_0000_0000

/-- The scratch size in bytes (R169, R191): values 13 to 15 of `UNITS` act as 12. -/
def Hw.scratchSize (h : Hw) : Nat := min (h.get F.PMMU_SCRATCH_UNITS) 12 * 0x40_0000

/-- The region of a DPA (R169). -/
def Hw.region (h : Hw) (a : Nat) : Region :=
  if a < dramEnd then .dram
  else if 0x0100_0000_0000 ≤ a ∧ a ≤ 0x0100_23FF_FFFF then .tileSram
  else if 0x0200_0000_0000 ≤ a ∧ a < 0x0200_0000_0000 + h.scratchSize then .scratch
  else if 0x0400_0000_0000 ≤ a ∧ a ≤ 0x0400_07FF_FFFF then .regs
  else if 0x0480_0000_0000 ≤ a ∧ a ≤ 0x0480_000F_FFFF then .doorbell
  else if 0x0500_0000_0000 ≤ a ∧ a ≤ 0x0500_0007_FFFF then .sobWin
  else .none

/-- The frame of a DRAM or scratch address: DRAM frames first, then the 768 scratch frames (R170). -/
def frameOf (a : Nat) : Nat :=
  if a < dramEnd then a / 0x10000 else 3670016 + (a - 0x0200_0000_0000) / 0x10000

/-- The DPA of a frame's first byte. -/
def frameBase (f : Nat) : Nat :=
  if f < 3670016 then f * 0x10000 else 0x0200_0000_0000 + (f - 3670016) * 0x10000

/-- A frame at PORST: UNINIT, mapped nowhere (R170). -/
def Frame.fresh : Frame :=
  { owner := 0, set := 0, shared := false, state := 0, striped := false, firmware := false }

/-- The frame-owner entry of a frame. -/
def Mem.frame (m : Mem) (f : Nat) : Frame := m.frames.getD Frame.fresh f

/-- Sets a frame-owner entry. -/
def Mem.setFrame (m : Mem) (f : Nat) (e : Frame) : Mem :=
  { m with frames := m.frames.putD Frame.fresh f e }

/-- The 32-bit entry of the frame-owner table (R170). -/
def Frame.word (f : Frame) : Nat :=
  f.owner + f.set * 2 ^ 8 + b2n f.shared * 2 ^ 20 + f.state * 2 ^ 21 + b2n f.striped * 2 ^ 23 +
    b2n f.firmware * 2 ^ 24

/-- The byte that DRAM or scratch holds; an unlisted byte reads zero (log entry 5). -/
def Mem.byte (m : Mem) (a : Nat) : Byte := SMap.getD 0 m.cells a

/-- The canonical form of memory: addresses strictly rising, and no entry equal to what an unlisted address reads as. -/
def Memory.wf (m : Mem) : Bool := SMap.wf 0 m.cells

/-- Stores one byte. -/
def Mem.setByte (m : Mem) (a : Nat) (v : Byte) : Mem := { m with cells := SMap.putD 0 m.cells a v }

/-- Stores a run of bytes. -/
def Mem.setBytes (m : Mem) (a : Nat) (bs : List Byte) : Mem := { m with cells := SMap.splice 0 a bs m.cells }

/-- A run of bytes. -/
def Mem.bytes (m : Mem) (a n : Nat) : List Byte := (List.range n).map fun i => m.byte (a + i)

/-- The half-lines of 32 bytes that a run touches. -/
def halves (a n : Nat) : List Nat := if n = 0 then [] else upto (a / 32) ((a + n - 1) / 32 - a / 32 + 1)

/-- The lines of 64 bytes that a run touches. -/
def lines (a n : Nat) : List Nat := if n = 0 then [] else upto (a / 64) ((a + n - 1) / 64 - a / 64 + 1)

/-- The device of a PLAIN DPA (R410). -/
def deviceOf (a : Nat) : Nat := (a >>> 11) % 8

/-- The channel of a PLAIN DPA (R410). -/
def channelOf (a : Nat) : Nat :=
  let g := a >>> 11
  8 * (g % 8) + ((g >>> 3) ^^^ (g >>> 9) ^^^ (g >>> 15)) % 8

/-- The data line of a PLAIN DPA within its channel (R410). -/
def dataLineOf (a : Nat) : Nat := 32 * (a >>> 17) + (a % 2048) / 64

/-- The physical line of a data line (R411). -/
def physLine (l : Nat) : Nat := 8 * (l / 7) + l % 7

/-- A stripe of a STRIPED block (R427): its number, and the DPA of its first granule. -/
structure StripeAt where
  number : Nat
  base : Nat
  deriving DecidableEq, Repr

/-- The stripe that a data-frame DPA of a STRIPED block lies in, with its share and byte (R427). -/
def Mem.stripeOf (m : Mem) (a : Nat) : Option (StripeAt × Nat × Nat) :=
  let f := m.frame (frameOf a)
  if a < dramEnd ∧ f.striped ∧ frameOf a % 32 < 24 then
    let o := a % 0x20_0000
    let s := o / 12288
    some ({ number := 128 * (a / 0x20_0000) + s, base := a / 0x20_0000 * 0x20_0000 + 16384 * s }, o % 12288 / 2048, o % 2048)
  else none

/-- The device of a data share (R427); P lies on device `s` mod 8 and Q on the next. -/
def StripeAt.device (x : StripeAt) (k : Nat) : Nat := (x.number % 128 + 2 + k) % 8

/-- The granule of a stripe on a device. -/
def StripeAt.granule (x : StripeAt) (dev : Nat) : Nat := x.base + 2048 * dev

/-- The channel of a stripe's share on a device. -/
def StripeAt.channel (x : StripeAt) (dev : Nat) : Nat := channelOf (x.granule dev)

/-- Where a DPA's byte is stored: a PLAIN address at itself, a STRIPED one in its share's granule (R410, R427). -/
def Mem.place (m : Mem) (a : Nat) : Nat :=
  match m.stripeOf a with
  | some (x, k, j) => x.granule (x.device k) + j
  | none => a

/-- The channel that holds a DRAM address. -/
def Mem.channelAt (m : Mem) (a : Nat) : Nat := channelOf (m.place a)

/-- Whether a half-line is stained: marked itself, or of a channel whose lines were all stained at re-admission
and not overwritten since (R433). -/
def Mem.stained (m : Mem) (g : Nat) : Bool :=
  m.stain.contains g ||
    (! m.chStain.isEmpty && decide (g * 32 < dramEnd) && m.chStain.contains (m.channelAt (g * 32)) && ! m.chClear.contains g)

/-- Stains a half-line. -/
def Mem.addStain (m : Mem) (g : Nat) : Mem := { m with stain := NSet.add m.stain g }

/-- Clears a half-line's stain. -/
def Mem.clearStain (m : Mem) (g : Nat) : Mem :=
  { m with stain := NSet.rem m.stain g, chClear := if m.chStain.isEmpty then m.chClear else NSet.add m.chClear g }

/-- A run read from memory carries stain when any half-line of it is stained (R420). -/
def Mem.runStained (m : Mem) (a n : Nat) : Bool := (halves a n).any m.stained

/-- Whether the half-line `g` lies wholly in the run. -/
def wholeHalf (a n g : Nat) : Bool := decide (a ≤ g * 32) && decide (g * 32 + 32 ≤ a + n)

/-- The stain after a write (R420): a stained write stains both half-lines of every flit it writes,
an unstained write clears each whole half-line and leaves a half-line written in part as it was. -/
def Mem.writeStain (m : Mem) (a n : Nat) (st : Bool) : Mem :=
  if st then (lines a n).foldl (fun m l => (m.addStain (2 * l)).addStain (2 * l + 1)) m
  else (halves a n).foldl (fun m g => if wholeHalf a n g then m.clearStain g else m) m

/-- Whether the bytes of a line are defined: its frame has been written since PORST, or the line
itself has (R422). -/
def Mem.lineDefined (m : Mem) (l : Nat) : Bool :=
  (m.frame (frameOf (l * 64))).state ≠ 0 || m.written.contains l

/-- Makes a line that has never been written hold unpredictable bytes (R422) before a partial write
or a read fixes part of it. -/
def Hw.defineLine (h : Hw) (l : Nat) : Hw :=
  if h.mem.lineDefined l then h
  else
    (List.range 8).foldl (fun h i =>
      let (w, h) := h.free
      { h with mem := h.mem.setBytes (l * 64 + 8 * i) (leBytes 8 w.toNat) })
      { h with mem := { h.mem with written := NSet.add h.mem.written l } }

/-- Changes the DRAM records. -/
def Hw.modDram (h : Hw) (f : Dram → Dram) : Hw := { h with sys := { h.sys with dram := f h.sys.dram } }

/-- Whether a channel is retired (R430). -/
def Hw.chRetired (h : Hw) (c : Nat) : Bool := h.get (F.MC_STATUS_STATE.blk c) == 3

/-- The error pattern that stands in a line. -/
def Hw.lineErrors (h : Hw) (l : Nat) : List (Nat × Nat) := h.sys.dram.faults.getD [] l

/-- Whether a line cannot be corrected (R417). -/
def Hw.lineBad (h : Hw) (l : Nat) : Bool :=
  match h.sys.dram.faults.find l with
  | some es => codeOutcome es == .uncorrectable
  | none => false

/-- The stain copies of a half-line that are set (R411, R418): four, or none, but for those that have flipped. -/
def Hw.stainCopies (h : Hw) (g : Nat) : Nat :=
  bits (h.sys.dram.copies.getD 0 (g / 2)) (4 * (g % 2)) 4 ^^^ (if h.mem.stained g then 15 else 0)

/-- Whether the copies of a half-line read as stained: two or more are set (R418). -/
def Hw.copiesSet (h : Hw) (g : Nat) : Bool :=
  if h.sys.dram.copies.isEmpty then h.mem.stained g
  else decide (2 ≤ countNat 4 fun i => bit (h.stainCopies g) i)

/-- Whether a stripe's share on a device is erased for one byte place (R429): its channel is retired or its
share not yet rebuilt, or its line is uncorrectable. -/
def Hw.shareErased (h : Hw) (x : StripeAt) (dev j : Nat) : Bool :=
  let c := x.channel dev
  h.chRetired c || (h.sys.dram.rebuild.contains c && decide (h.get F.ECC_REBUILD_POS ≤ x.base)) ||
    h.lineBad ((x.granule dev + j) / 64)

/-- The shares of a stripe that are erased at one byte place. -/
def Hw.erasedShares (h : Hw) (x : StripeAt) (j : Nat) : Nat := countNat 8 fun dev => h.shareErased x dev j

/-- How a half-line of a line is delivered stained (R418, R425, R429, R431). -/
def Hw.gStained (h : Hw) (g : Nat) : Bool :=
  if dramEnd ≤ g * 32 then h.mem.stained g
  else if h.copiesSet g then true
  else if h.sys.dram.faults.isEmpty && h.get F.ECC_RETIRED_CH == 0 && h.sys.dram.rebuild.isEmpty then false
  else match h.mem.stripeOf (g * 32) with
  | none => h.chRetired (channelOf (g * 32)) || h.lineBad (g / 2)
  | some (x, k, j) =>
    h.shareErased x (x.device k) j && (decide (3 ≤ h.erasedShares x j) || ! h.sys.dram.parity.contains x.number)

/-- A line that a demand read finds in error goes onto the scrub queue (R418). -/
def Hw.queueScrub (h : Hw) (l : Nat) : Hw :=
  if h.sys.dram.scrub.any fun e => e.1 == l then h
  else h.modDram fun d => { d with scrub := d.scrub ++ [(l, h.now)] }

/-- A corrected error of a channel is counted (R417, R424, R443). -/
def Hw.countCorrected (h : Hw) (c : Nat) : Hw := (h.addSat (F.MC_ERR_CORRECTED.blk c) 1).hairChannel c

/-- An uncorrectable error of a channel is counted (R417, R443, R463, R464). -/
def Hw.countUncorr (h : Hw) (c line : Nat) : Hw :=
  let h := (h.addSat (F.MC_ERR_UNCORR.blk c) 1).put (F.MC_INT_STATUS_UNCORR.blk c) 1
  let h := h.event (srcChannel c) 0x0102 0 (physLine (dataLineOf line))
  if bit (h.get F.ECC_STATUS_DEV_LOST) (c / 8) then h else h.healthAdd (partChannel c) inUncorr 1

/-- What a read of a DRAM line counts and queues (R417, R418): its place is the granule that stores it. -/
def Hw.noteRead (h : Hw) (l : Nat) : Hw :=
  let p := h.mem.place (l * 64)
  let c := channelOf p
  if dramEnd ≤ l * 64 ∨ h.chRetired c then h
  else
    let both := h.copiesSet (2 * l) && h.copiesSet (2 * l + 1)
    let split := [2 * l, 2 * l + 1].any fun g => h.stainCopies g ≠ 0 && h.stainCopies g ≠ 15
    let h := if split then (h.countCorrected c).queueScrub l else h
    if both then h
    else match h.sys.dram.faults.find (p / 64) with
    | none => h
    | some es =>
      match codeOutcome es with
      | .clean => h
      | .corrected _ _ => (h.countCorrected c).queueScrub l
      | .uncorrectable => (h.countUncorr c p).queueScrub l

/-- The 64 bytes that a read of a DRAM line delivers: corrected, reconstructed, zeros from a retired channel, or as
stored (R417, R429, R431). -/
def Hw.lineBytes (h : Hw) (l : Nat) : List Byte :=
  let bs := h.mem.bytes (l * 64) 64
  if dramEnd ≤ l * 64 ∨ (h.sys.dram.faults.isEmpty ∧ h.get F.ECC_RETIRED_CH = 0) then bs
  else
    let p := h.mem.place (l * 64)
    let lost := h.gStained (2 * l)
    if h.chRetired (channelOf p) then (if (h.mem.stripeOf (l * 64)).isSome && ! lost then bs else zeros 64)
    else match h.sys.dram.faults.find (p / 64) with
    | none => bs
    | some es =>
      match codeOutcome es with
      | .clean => storedBytes bs es
      | .corrected j v => storedBytes bs (addError es (j, v))
      | .uncorrectable => if (h.mem.stripeOf (l * 64)).isSome && ! lost then bs else storedBytes bs es

/-- Reads a run of DRAM or scratch bytes as PID 0: a line never written reads unpredictable bytes,
which it then keeps (R422), and errors count (R417).  Answers the bytes and whether any half-line is stained. -/
def Hw.load (h : Hw) (a n : Nat) : List Byte × Bool × Hw :=
  let h := (lines a n).foldl Hw.defineLine h
  let st := (halves a n).any h.gStained
  let bs := ((lines a n).flatMap h.lineBytes).drop (a % 64)
  (bs.take n, st, (lines a n).foldl Hw.noteRead h)

/-- Puts the bytes of a line that a partial write reads back into it (R420): what stood in it uncorrectable is from
now on its content, with stain on the half-lines that the write does not cover whole. -/
def Hw.settleLine (h : Hw) (a n l : Nat) : Hw :=
  let p := h.mem.place (l * 64) / 64
  match h.sys.dram.faults.find p with
  | none => h
  | some es =>
    let bs := h.lineBytes l
    let bad := codeOutcome es == .uncorrectable && h.gStained (2 * l)
    let m := h.mem.setBytes (l * 64) bs
    let m := if bad then [2 * l, 2 * l + 1].foldl (fun m g => if wholeHalf a n g then m else m.addStain g) m else m
    ({ h with mem := m }).modDram fun d => { d with faults := d.faults.del p }

/-- Whether a write to a line is discarded: its PLAIN granule's channel is retired, or its share is one of three
erased (R429, R431). -/
def Hw.writeLost (h : Hw) (l : Nat) : Bool :=
  if dramEnd ≤ l * 64 ∨ (h.sys.dram.faults.isEmpty ∧ h.get F.ECC_RETIRED_CH = 0 ∧ h.sys.dram.rebuild.isEmpty) then false
  else match h.mem.stripeOf (l * 64) with
  | none => h.chRetired (channelOf (l * 64))
  | some (x, k, j) => h.shareErased x (x.device k) j && decide (3 ≤ h.erasedShares x j)

/-- A write of a STRIPED line: its parity is valid from now on, and its durability is outstanding (R428). -/
def Hw.noteStripe (h : Hw) (l : Nat) : Hw :=
  match h.mem.stripeOf (l * 64) with
  | none => h
  | some (x, k, _) =>
    h.modDram fun d =>
      let e := (x.number, x.channel (x.device k), l, h.now)
      { d with parity := NSet.add d.parity x.number,
               durable := (d.durable.filter fun y => ! (y.1 == e.1 && y.2.2.1 == l)) ++ [e] }

/-- The parts of a run that lie in one line each: line, offset into the run, length. -/
def lineParts (a n : Nat) : List (Nat × Nat × Nat) :=
  (lines a n).map fun l =>
    let lo := max a (l * 64)
    (l, lo - a, min (a + n) (l * 64 + 64) - lo)

/-- Writes the part of a run that lies in one line. -/
def Hw.storeLine (h : Hw) (a : Nat) (bs : List Byte) (st : Bool) (l : Nat) : Hw :=
  let n := bs.length
  if h.writeLost l then h
  else
    let h := if n = 64 then
        let p := h.mem.place (l * 64) / 64
        let h := if (h.sys.dram.faults.find p).isSome then h.modDram fun d => { d with faults := d.faults.del p } else h
        if h.mem.lineDefined l then h else { h with mem := { h.mem with written := NSet.add h.mem.written l } }
      else (h.defineLine l).settleLine a n l
    let h := if (h.sys.dram.copies.find l).isSome then
        let set := [2 * l, 2 * l + 1].filter h.copiesSet
        let m := [2 * l, 2 * l + 1].foldl (fun m g => if set.contains g then m.addStain g else m.clearStain g) h.mem
        ({ h with mem := m }).modDram fun d => { d with copies := d.copies.del l }
      else h
    ({ h with mem := (h.mem.setBytes a bs).writeStain a n st }).noteStripe l

/-- Writes the parts of a run of bytes one after another. -/
def Hw.storeParts (h : Hw) (a : Nat) (bs : List Byte) (st : Bool) : List (Nat × Nat × Nat) → Hw
  | [] => h
  | p :: ps => (h.storeLine a (bs.take p.2.2) st p.1).storeParts (a + p.2.2) (bs.drop p.2.2) st ps

/-- Writes a run of DRAM or scratch bytes as PID 0. -/
def Hw.store (h : Hw) (a : Nat) (bs : List Byte) (st : Bool) : Hw := h.storeParts a bs st (lineParts a bs.length)

/-- The frame-owner check of a memory or scratch port (R180). -/
def Mem.portPermits (m : Mem) (pid a : Nat) (write : Bool) : Bool :=
  let f := m.frame (frameOf a)
  pid == 0 || (f.state == 3 &&
    (if f.shared then
      let s := m.sets.getD ⟨[], []⟩ f.set
      (if write then s.wr else s.rd).contains pid
     else f.owner == pid))

/-- A fault is detected (R394, R396): it travels to both Datums. -/
def Hw.detect (h : Hw) (code : Nat) (die : Option Nat) (pid : Nat) : Hw :=
  { h with detected := h.detected ++
      [{ code := code, die := die, pid := pid, atStroke := h.now, toA := true, toB := true }] }

/-- The die of the memory port that serves a DPA: its channel's die (R22), none for scratch. -/
def Mem.portDie (m : Mem) (a : Nat) : Option Nat := if a < dramEnd then some (m.channelAt a / 16) else none

/-- Records a fault in `PMMU_FAULT0` to `PMMU_FAULT2` (R178, R191, R610): the first is kept, later
ones set `MORE`. -/
def Hw.pmmuRecord (h : Hw) (agent cause pid addr : Nat) : Hw :=
  if h.on F.PMMU_FAULT0_VALID then h.put F.PMMU_FAULT0_MORE 1
  else
    let h := (h.put F.PMMU_FAULT0_AGENT agent).put F.PMMU_FAULT0_CAUSE cause
    let h := (h.put F.PMMU_FAULT0_PID pid).put F.PMMU_FAULT1_ADDR addr
    (h.put F.PMMU_FAULT2_STROKE h.now).put F.PMMU_FAULT0_VALID 1

/-- A failed translation (R178): recorded, signalled and raised as `TRANSLATION_FAULT`. -/
def Hw.translationFault (h : Hw) (agent cause pid va : Nat) : Hw :=
  let h := (h.pmmuRecord agent cause pid va).put F.PMMU_INT_STATUS_FAULT 1
  h.event srcPmmu 0x0803 pid (agent + cause * 8)

/-- A memory-port violation (R180): recorded, raised as `OWNER_VIOLATION`, and a detected fault that
both Datums learn of (`detected` counts it for the monitor links). -/
def Hw.ownerViolation (h : Hw) (pid a : Nat) : Hw :=
  let h := (h.pmmuRecord 6 4 pid a).put F.PMMU_INT_STATUS_OWNER_VIOL 1
  (h.event srcPmmu 0x0804 pid (a / 65536)).detect 0x0C (h.mem.portDie a) pid

/-- The PID's record; the owner is PID 0 (R168). -/
def Hw.part (h : Hw) (pid : Nat) : Option Part := h.parts.find pid

/-- Whether a partition holds the GAZETTEER right (R165). -/
def Hw.gazetteer (h : Hw) (pid : Nat) : Bool := bit (((h.part pid).map (·.rights)).getD 0) 0

/-- Whether a sheet number names a sheet (R258). -/
def Hw.sheetExists (h : Hw) (n : Nat) : Bool :=
  (decide (1 ≤ n) && decide (n ≤ h.cfg.nPlain)) ||
  (decide (0x8000_0001 ≤ n) && decide (n ≤ 0x8000_0000 + h.cfg.nStriped))

/-- The DPA of a sheet: one frame each, from the first frame of its part (R258), in the STRIPED part the 24 data frames
of each block (R426). -/
def Hw.sheetDpa (h : Hw) (n : Nat) : Nat :=
  frameBase (if n < 0x8000_0000 then h.cfg.plainFrame + (n - 1) else h.cfg.stripedFrame + (n - 0x8000_0001) / 24 * 32 + (n - 0x8000_0001) % 24)

/-- A sheet record. -/
def Hw.sheet (h : Hw) (n : Nat) : SheetRec := h.kv.sheets.getD SheetRec.free n

/-- Whether a PID may read a sheet (R260). -/
def Hw.sheetReadable (h : Hw) (pid n : Nat) : Bool :=
  h.sheetExists n && (pid == 0 || (h.sheet n).owner == pid || ((h.sheet n).gaz && h.gazetteer pid))

/-- Whether a PID may write a sheet (R260). -/
def Hw.sheetWritable (h : Hw) (pid n : Nat) : Bool :=
  h.sheetExists n && (pid == 0 || ((h.sheet n).owner == pid && ! (h.sheet n).gaz))

/-- The sheet whose frame a DPA lies in (R258). -/
def Hw.sheetOf (h : Hw) (a : Nat) : Option Nat :=
  let f := frameOf a
  let k := f - h.cfg.stripedFrame
  if h.cfg.plainFrame ≤ f ∧ f < h.cfg.plainFrame + h.cfg.nPlain then some (1 + (f - h.cfg.plainFrame))
  else if h.cfg.stripedFrame ≤ f ∧ k % 32 < 24 ∧ k / 32 * 24 + k % 32 < h.cfg.nStriped then
    some (0x8000_0001 + k / 32 * 24 + k % 32)
  else none

/-- The check of a memory or scratch port (R180): in the sheet pool that of the sheet record (R260), elsewhere the frame's. -/
def Hw.portPermits (h : Hw) (pid a : Nat) (write : Bool) : Bool :=
  match h.sheetOf a with
  | some n => if write then h.sheetWritable pid n else h.sheetReadable pid n
  | none => h.mem.portPermits pid a write

/-- Reads as a PID through the memory port: a violation returns zeros, stained (R180). -/
def Hw.portRead (h : Hw) (pid a n : Nat) : List Byte × Bool × Hw :=
  if h.portPermits pid a false then h.load a n
  else (zeros n, true, h.ownerViolation pid a)

/-- Writes as a PID through the memory port: a violation drops the write (R180). -/
def Hw.portWrite (h : Hw) (pid a : Nat) (bs : List Byte) (st : Bool) : Hw :=
  if h.portPermits pid a true then h.store a bs st else h.ownerViolation pid a

/-- A context; one that has never been written maps nothing. -/
def Mem.ctx (m : Mem) (c : Nat) : Ctx := m.ctxs.getD ⟨[], []⟩ c

/-- Sets a context. -/
def Mem.setCtx (m : Mem) (c : Nat) (x : Ctx) : Mem := { m with ctxs := m.ctxs.putD ⟨[], []⟩ c x }

/-- The leaf that translates a virtual address (R175), with its page size: a level-1 leaf maps 2 MiB,
a level-0 leaf 4 KiB. -/
def Mem.leaf (m : Mem) (c va : Nat) : Option (Nat × Nat) :=
  match (m.ctx c).l1.find (va / 0x20_0000) with
  | some e => some (e, 0x20_0000)
  | none => ((m.ctx c).l0.find (va / 0x1000)).map fun e => (e, 0x1000)

/-- Whether a context maps anything below an entry of a table of level 1 to 3, which then points to the next table (R175). -/
def Ctx.below (x : Ctx) (level i : Nat) : Bool :=
  let r := 2 ^ (9 * level)
  x.l0.any (fun e => e.1 / r == i) || (decide (2 ≤ level) && x.l1.any fun e => e.1 / (r / 512) == i)

/-- The page-table entry with number `i` among those of a level, over all tables of that level of a context (R175, R176): a
leaf, a pointer to the table of the next level, or 0, which is not valid.  Where firmware places the tables is open
(log entry 53). -/
def Mem.entry (m : Mem) (c level i : Nat) : Nat :=
  let x := m.ctx c
  let pointer := if x.below level i then 1 + 0x1000 * (Config.tablePage c (level - 1) i).toNat else 0
  if level = 0 then (x.l0.find i).getD 0
  else if level = 1 then (x.l1.find i).getD pointer
  else pointer

/-- The walk of the four levels for a virtual address (R175): the leaf and its page size.  A leaf at level 3 or 2 is
invalid. -/
def Mem.walk (m : Mem) (c va : Nat) : Option (Nat × Nat) :=
  let e3 := m.entry c 3 (va / 2 ^ 39)
  let e2 := m.entry c 2 (va / 2 ^ 30)
  let e1 := m.entry c 1 (va / 2 ^ 21)
  let e0 := m.entry c 0 (va / 2 ^ 12)
  if ! bit e3 0 || bit e3 1 || ! bit e2 0 || bit e2 1 || ! bit e1 0 then none
  else if bit e1 1 then some (e1, 0x20_0000)
  else if bit e0 0 && bit e0 1 then some (e0, 0x1000)
  else none

/-- The kinds of access that a translation is asked for (R178). -/
inductive Acs where
  | rd | wr | fetch | table
  deriving DecidableEq, Repr

/-- Translates a virtual address (R175 to R178): the DPA, or the cause code of `PMMU_FAULT0` (0 no
leaf, 1 permission, 2 not `TE`, 3 `DEV`).  `noDev` refuses device pages. -/
def Mem.translate (m : Mem) (c va : Nat) (acc : Acs) (noDev : Bool) : Except Nat Nat :=
  match m.leaf c va with
  | none => .error 0
  | some (e, sz) =>
    if noDev && bit e 5 then .error 3
    else if acc == .table && ! bit e 4 then .error 2
    else if (acc == .fetch && ! bit e 10) || (acc ≠ .fetch && ! bit e 2) || (acc == .wr && ! bit e 3) then .error 1
    else .ok (bits e 12 36 * 0x1000 / sz * sz + va % sz)

/-- Splits a run of virtual addresses at 4 KiB page boundaries: pieces (start, length). -/
def pieces (va n : Nat) : List (Nat × Nat) :=
  if n = 0 then []
  else (upto (va / 0x1000) ((va + n - 1) / 0x1000 - va / 0x1000 + 1)).map fun p =>
    let lo := max va (p * 0x1000)
    (lo, min (va + n) ((p + 1) * 0x1000) - lo)

/-- The pieces of a run of virtual addresses as DPAs, or the first failing address with its cause. -/
def Mem.translateRun (m : Mem) (c va n : Nat) (acc : Acs) (noDev : Bool) :
    Except (Nat × Nat) (List (Nat × Nat)) :=
  (pieces va n).mapM fun (a, k) =>
    match m.translate c a acc noDev with
    | .ok d => .ok (d, k)
    | .error e => .error (a, e)

/-- Reads pieces at DPAs for a PID and joins them. -/
def Hw.readPieces (h : Hw) (pid : Nat) : List (Nat × Nat) → List Byte × Bool × Hw
  | [] => ([], false, h)
  | (a, n) :: ps =>
    let (bs, st, h) := h.portRead pid a n
    let (cs, st', h) := h.readPieces pid ps
    (bs ++ cs, st || st', h)

/-- Writes bytes over pieces at DPAs for a PID. -/
def Hw.writePieces (h : Hw) (pid : Nat) (bs : List Byte) (st : Bool) : List (Nat × Nat) → Hw
  | [] => h
  | (a, n) :: ps => (h.portWrite pid a (bs.take n) st).writePieces pid (bs.drop n) st ps

/-- Reads memory by virtual address for an agent (R177): the bytes and their stain, or the failing
address and cause, recorded and raised (R178). -/
def Hw.readVa (h : Hw) (agent pid va n : Nat) (acc : Acs := .rd) :
    Except (Nat × Nat) (List Byte × Bool) × Hw :=
  match h.mem.translateRun pid va n acc true with
  | .error (a, c) => (.error (a, c), h.translationFault agent c pid a)
  | .ok ps => let (bs, st, h) := h.readPieces pid ps; (.ok (bs, st), h)

/-- Writes memory by virtual address for an agent: `none` when done, or the failing address and
cause.  Nothing is written unless every page translates. -/
def Hw.writeVa (h : Hw) (agent pid va : Nat) (bs : List Byte) (st : Bool) :
    Option (Nat × Nat) × Hw :=
  match h.mem.translateRun pid va bs.length .wr true with
  | .error (a, c) => (some (a, c), h.translationFault agent c pid a)
  | .ok ps => (none, h.writePieces pid bs st ps)

/-- The status and detail with which a command completes on a failed translation (R178, R213). -/
def pageStatus (e : Nat × Nat) : Nat × Nat :=
  (if e.2 = 3 then 0x3003 else 0x3002, e.1 % 2 ^ 32)

end Sys2Proof.Machine
end

