-- ==== Sys2Proof/Machine/Caches.lean ====
section
/-! DEFINITION. The lines that L2 and the cache portion of the system cache hold (R183, R184, R498, R501; log entry 52), and
the coherent reads and writes of them. -/

namespace Sys2Proof.Machine

open Sys2Proof

/-- Changes the application cores. -/
def Hw.modApc (h : Hw) (f : Apc → Apc) : Hw := { h with sys := { h.sys with apc := f h.sys.apc } }

/-- The PID of an L2 line by its key (R498). -/
def keyPid (k : Nat) : Nat := k / 2 ^ 42 % 256

/-- The line that the system cache holds of a DRAM line. -/
def Hw.scLine (h : Hw) (l : Nat) : Option ScLine := h.sys.apc.sysc.find l

/-- The system cache takes a line. -/
def Hw.putSc (h : Hw) (l : Nat) (x : ScLine) : Hw := h.modApc fun a => { a with sysc := a.sysc.put l x }

/-- The L2 line with a key passes its changed bytes on to the system cache, and stays unchanged from then on. -/
def Hw.pushL2 (h : Hw) (e : Nat × L2Line) : Hw :=
  if e.2.dirty then
    (h.putSc e.2.dpa { pid := keyPid e.1, bytes := e.2.bytes, stain := e.2.stain, dirty := true }).modApc fun a =>
      { a with lines := a.lines.upd e.1 fun x => { x with dirty := false } }
  else h

/-- The snoop filter finds the changed copy of a line in whatever L2 holds it (R183). -/
def Hw.snoop (h : Hw) (l : Nat) : Hw := (h.sys.apc.lines.filter fun e => e.2.dpa == l).foldl Hw.pushL2 h

/-- The system cache writes a changed line to its memory port. -/
def Hw.cleanSc (h : Hw) (l : Nat) : Hw :=
  match h.scLine l with
  | some x => if x.dirty then (h.portWrite x.pid (l * 64) x.bytes x.stain).putSc l { x with dirty := false } else h
  | none => h

/-- The L2 lines that `p` names and the system-cache lines that `q` names are written back and invalidated. -/
def Hw.purge (h : Hw) (p : Nat × L2Line → Bool) (q : Nat → Bool) : Hw :=
  let h := (h.sys.apc.lines.filter p).foldl Hw.pushL2 h
  let h := h.modApc fun a => { a with lines := a.lines.filter fun e => ! p e }
  let h := ((h.sys.apc.sysc.map (·.1)).filter q).foldl Hw.cleanSc h
  h.modApc fun a => { a with sysc := a.sysc.filter fun e => ! q e.1 }

/-- A line is discarded wherever it is held, and nothing is written back (R184). -/
def Hw.discardLine (h : Hw) (l : Nat) : Hw :=
  h.modApc fun a => { a with lines := a.lines.filter fun e => e.2.dpa ≠ l, sysc := a.sysc.del l }

/-- Whether a cache holds changed bytes of a line. -/
def Hw.lineDirty (h : Hw) (l : Nat) : Bool :=
  h.sys.apc.lines.any (fun e => e.2.dpa == l && e.2.dirty) || (h.scLine l).any (·.dirty)

/-- The copies of a line in L2 go, but for the one with a key. -/
def Hw.ownLine (h : Hw) (k l : Nat) : Hw :=
  h.modApc fun a => { a with lines := a.lines.filter fun e => e.1 == k || e.2.dpa ≠ l }

/-- A write on its way to the memory port: every cached copy of its lines is invalidated, and what had changed in one is
written first (R183). -/
def Hw.invalidate (h : Hw) (ps : List (Nat × Nat)) : Hw :=
  let hit (l : Nat) : Bool := ps.any fun p => decide (p.1 < l * 64 + 64) && decide (l * 64 < p.1 + p.2)
  h.purge (fun e => hit e.2.dpa) hit

/-- A write of an agent that is coherent with the caches and does not use them (R183): a PCIe requester or a sensor port. -/
def Hw.writeThrough (h : Hw) (pid : Nat) (bs : List Byte) (st : Bool) (ps : List (Nat × Nat)) : Hw :=
  (h.invalidate ps).writePieces pid bs st ps

/-- A coherent read of bytes that lie in one line (R183): from the system cache when it holds the line, after a changed copy
in L2 has reached it, else through the memory port. -/
def Hw.cohRead (h : Hw) (pid a n : Nat) : List Byte × Bool × Hw :=
  let h := if a < dramEnd then h.snoop (a / 64) else h
  match h.scLine (a / 64) with
  | some x => if a < dramEnd then ((x.bytes.drop (a % 64)).take n, x.stain, h) else h.portRead pid a n
  | none => h.portRead pid a n

end Sys2Proof.Machine
end

