-- ==== Sys2Proof/Machine/CmdBase.lean ====
section
/-! DEFINITION. Command packets and the journal's records of them (R199, R211, R214 to R216), and
finishing a command with its DONE record (R209). -/

namespace Sys2Proof.Machine

open Sys2Proof

/-- A queue of a partition. -/
def Hw.queue (h : Hw) (pid q : Nat) : Option Queue := (h.part pid).bind fun p => p.queues.find q

/-- Changes a queue. -/
def Hw.modQueue (h : Hw) (pid q : Nat) (f : Queue → Queue) : Hw :=
  { h with parts := h.parts.upd pid fun p => { p with queues := p.queues.upd q f } }

/-- Changes a partition. -/
def Hw.modPart (h : Hw) (pid : Nat) (f : Part → Part) : Hw := { h with parts := h.parts.upd pid f }

/-- Keeps what the checks of a command have read for its effect (R204, R208). -/
def Hw.keep (h : Hw) (c : Cmd) (k : Kept) : Hw :=
  { h with sys := { h.sys with kept := h.sys.kept ++ [(c.pid, c.queue, c.num, k)] } }

/-- What the checks of a command have kept, and the module without it. -/
def Hw.takeKept (h : Hw) (c : Cmd) : Option Kept × Hw :=
  let mine (x : Nat × Nat × Nat × Kept) : Bool := x.1 == c.pid && x.2.1 == c.queue && x.2.2.1 == c.num
  ((h.sys.kept.find? mine).map (·.2.2.2), { h with sys := { h.sys with kept := h.sys.kept.filter fun x => ! mine x } })

/-- The class code of a PID: 0 for the owner and for a PID that does not exist. -/
def Hw.clsOf (h : Hw) (pid : Nat) : Nat := ((h.part pid).map (·.cls)).getD 0

/-- Whether a partition exists (R163); PID 0 is none. -/
def Hw.exists? (h : Hw) (pid : Nat) : Bool := pid ≠ 0 && (h.part pid).isSome

/-- The number that `n` bytes of a packet hold, from byte `lo` of chunk 0 (R583). -/
def Cmd.f (c : Cmd) (lo n : Nat) : Nat := field c.pkt lo n

/-- The opcode of a command (R199). -/
def Cmd.opc (c : Cmd) : Nat := c.f 0 1

/-- The flags of byte 1 (R199). -/
def Cmd.ordered (c : Cmd) : Bool := bit (c.f 1 1) 0
def Cmd.notify (c : Cmd) : Bool := bit (c.f 1 1) 1
def Cmd.sobOnDone (c : Cmd) : Bool := bit (c.f 1 1) 2
def Cmd.long (c : Cmd) : Bool := bit (c.f 1 1) 3

/-- The extra chunks that the packet names (R199). -/
def Cmd.ext (c : Cmd) : Nat := c.f 2 1

/-- The slots that a packet takes: an `EXT` of 4 to 255 takes one (R199). -/
def slotsOf (p : Packet) : Nat := let e := field p 2 1; if e ≤ 3 then 1 + e else 1

/-- Whether a command is complete: its DONE or REFUSED record exists. -/
def Cmd.complete (c : Cmd) : Bool := c.entry.isSome

/-- Whether two records are of the same command. -/
def Cmd.same (c : Cmd) (pid q num : Nat) : Bool := c.pid == pid && c.queue == q && c.num == num

/-- A command by its queue and command count. -/
def Hw.cmd? (h : Hw) (pid q num : Nat) : Option Cmd := h.cmds.find? fun c => c.same pid q num

/-- Changes a command's records. -/
def Hw.modCmd (h : Hw) (pid q num : Nat) (f : Cmd → Cmd) : Hw :=
  { h with cmds := h.cmds.map fun c => if c.same pid q num then f c else c }

/-- The journal records that a command holds (R214). -/
def Cmd.records (c : Cmd) : Nat := if c.seq = 0 then 1 else 1 + c.pkt.length / 64

/-- The lowest `n` journal records that hold nothing (log entry 55). -/
def Hw.freeRecords (h : Hw) (n : Nat) : List Nat :=
  let used := h.cmds.flatMap (·.recs)
  (((List.range (used.length + n)).filter fun r => ! used.contains r)).take n

/-- The journal records in use by a PID. -/
def Hw.jnlUsed (h : Hw) (pid : Nat) : Nat :=
  sumNat ((h.cmds.filter fun c => c.pid = pid).map Cmd.records)

/-- The bytes of a completion entry (R211) for the slot pass `phase`. -/
def Entry.bytes (e : Entry) (phase : Nat) : List Byte :=
  leBytes 2 e.status ++
  leBytes 1 (phase + 2 * b2n e.relocated + 4 * b2n e.inexact + 8 * b2n e.overflow + 16 * b2n e.duplexChecked) ++
  leBytes 1 e.queue ++ leBytes 4 e.tag ++ leBytes 6 e.seq ++ leBytes 2 e.slot ++ leBytes 8 e.result ++
  leBytes 4 e.doneAt ++ leBytes 4 e.detail

/-- `PHASE` of the entry for command count `num` in a ring of `size` entries: 1 in the first pass,
inverted on each later pass (R211). -/
def phaseOf (num size : Nat) : Nat := 1 - (num / size) % 2

/-- The 128 bytes of a journal record (R215): `type` 1 ACCEPT, 2 CHUNK, 3 DONE, 4 REFUSED. -/
def Cmd.record (c : Cmd) (type chunk : Nat) (entry body : List Byte) : List Byte :=
  let ext := if type = 1 then min c.ext 3 else 0
  let at_ := if type = 2 then 0 else if type = 3 then c.finishAt else c.acceptAt
  let b := leBytes 1 type ++ leBytes 1 c.pid ++ leBytes 1 (c.queue + 16 * chunk + 64 * ext) ++
    leBytes 1 c.port ++ leBytes 6 c.seq ++ leBytes 2 c.slot ++ leBytes 4 c.num ++
    leBytes 8 at_ ++ fit 32 entry ++ zeros 4 ++ zeros 4 ++ fit 64 body
  putField b 60 4 (crc32c b)

/-- Whether a record is valid (R215): its `CRC` matches. -/
def recordValid (b : List Byte) : Bool := field b 60 4 == crc32c (putField b 60 4 0)

/-- The `k`-th record of a command: REFUSED alone, or ACCEPT, its CHUNKs and DONE (R214); a DONE that is not written yet
is free.  `phase` is that of its completion entry. -/
def Cmd.recordAt (c : Cmd) (phase k : Nat) : List Byte :=
  let entry := (c.entry.map fun e => e.bytes phase).getD []
  if c.seq = 0 then c.record 4 0 entry (c.pkt.take 64)
  else if k = 0 then c.record 1 0 [] (c.pkt.take 64)
  else if k + 1 < c.records then c.record 2 k [] ((c.pkt.drop (64 * k)).take 64)
  else if c.entry.isSome then c.record 3 0 entry []
  else zeros 128

/-- The 64 bytes of a queue-state entry (R216). -/
def Queue.stateBytes (q : Queue) : List Byte :=
  let b := leBytes 4 q.sqHead ++ leBytes 4 q.nTaken ++ leBytes 4 q.nStarted ++ leBytes 4 q.nPosted ++
    leBytes 4 q.cqHead ++ leBytes 6 q.lastSeq ++ zeros 38
  putField b 60 4 (crc32c b)

/-- The 64 bytes of a queue mirror (R196). -/
def Queue.mirrorBytes (q : Queue) : List Byte :=
  leBytes 4 q.sqHead ++ leBytes 4 q.nPosted ++ leBytes 6 q.lastSeq ++ zeros 2 ++ leBytes 1 q.mirror ++ zeros 47

/-- The completion flags that committed work set (R211). -/
structure WorkFlags where
  relocated : Bool := false
  inexact : Bool := false
  overflow : Bool := false
  duplexChecked : Bool := false
  deriving DecidableEq, Repr

/-- A completion entry for a command (R211). -/
def Cmd.mkEntry (c : Cmd) (now status result detail : Nat) (w : WorkFlags) : Entry :=
  { status := status, relocated := w.relocated, inexact := w.inexact, overflow := w.overflow,
    duplexChecked := w.duplexChecked, queue := c.queue, tag := c.f 4 4, seq := c.seq, slot := c.slot,
    result := result % 2 ^ 64, doneAt := now % 2 ^ 32, detail := detail % 2 ^ 32 }

/-- `N_STARTED` of a queue (R216): it passes each command that has begun, in acceptance order, and stops at the first that
has not; at most `n` of them. -/
def Hw.startCount (h : Hw) (pid q taken : Nat) : Nat → Nat → Nat
  | 0, at_ => at_
  | n + 1, at_ =>
    if at_ ≠ taken ∧ (h.cmd? pid q at_).all (·.begun) then h.startCount pid q taken n ((at_ + 1) % 2 ^ 32) else at_

/-- `N_STARTED` follows the commands that have begun (R216). -/
def Hw.countStarted (h : Hw) (pid q : Nat) : Hw :=
  h.modQueue pid q fun qu => { qu with nStarted := h.startCount pid q qu.nTaken h.cmds.length qu.nStarted }

/-- A command finishes: the journal engine writes its DONE record with the completion entry (R209).
A command that is already complete keeps its entry: exactly one completion (R207). -/
def Hw.finishAt (h : Hw) (pid q num status result detail : Nat) (w : WorkFlags) : Hw :=
  (h.modCmd pid q num fun c =>
    if c.entry.isSome then c
    else { c with begun := true, finishAt := h.now, entry := some (c.mkEntry h.now status result detail w) }).countStarted pid q

/-- A command finishes with a status, a result and a detail. -/
def Hw.finish (h : Hw) (c : Cmd) (status result detail : Nat) : Hw :=
  h.finishAt c.pid c.queue c.num status result detail {}

/-- The statuses with which an accepted command may complete when the manual leaves its completion open (R9, R213). -/
def openStatuses : List Nat :=
  [0x1001, 0x1002, 0x3001, 0x3002, 0x3003, 0x3004, 0x3005, 0x3006, 0x3007, 0x3008, 0x4001, 0x4002]

/-- A command completes `DONE` with a result. -/
def Hw.done (h : Hw) (c : Cmd) (result : Nat) : Hw := h.finish c 0 result 0

/-- A completion that an error of its issuer leaves open (R9, R182): a status of class 1, 3 or 4, and a free result and
detail. -/
def Hw.wildEnd (h : Hw) (c : Cmd) : Hw :=
  let (s, h) := h.free
  let (r, h) := h.free
  let (d, h) := h.free
  h.finish c (openStatuses.getD (s.toNat % 12) 0) r.toNat d.toNat

/-- A command fails on a translation (R178, R585). -/
def Hw.failPage (h : Hw) (c : Cmd) (e : Nat × Nat) : Hw :=
  let (s, d) := pageStatus e
  h.finish c s 0 d

end Sys2Proof.Machine
end

