-- ==== Sys2Proof/Machine/Sync.lean ====
section
/-! DEFINITION. The sync-object store (R187, R188, R192, R223) and the watches on it (R224, R592). -/

namespace Sys2Proof.Machine

/-- The operations of the store (R188). -/
inductive SobOp where
  | read
  | set (v : Nat)
  | add (v : Nat)
  deriving DecidableEq, Repr

/-- The PID that `SOB_OWNER` gives for a block of 64 objects (R193); 0 is PID 0 for blocks 0 to 3 and
free for every other block. -/
def Hw.sobOwner (h : Hw) (blk : Nat) : Nat :=
  h.get { block := 0x020, off := 0x1000 + 8 * (blk / 8), lo := 8 * (blk % 8), len := 8 }

/-- Sets a block's owner. -/
def Hw.setSobOwner (h : Hw) (blk pid : Nat) : Hw :=
  h.put { block := 0x020, off := 0x1000 + 8 * (blk / 8), lo := 8 * (blk % 8), len := 8 } pid

/-- Whether a PID holds an object (R180): the block's owner, and PID 0 always. -/
def Hw.holdsSob (h : Hw) (pid idx : Nat) : Bool :=
  pid == 0 || (decide (4 ≤ idx / 64) && decide (idx < 65536) && h.sobOwner (idx / 64) == pid)

/-- The value of an object. -/
def Hw.sob (h : Hw) (idx : Nat) : Nat := h.sobs.getD 0 idx

/-- Records a violation in `SOB_VIOL0` (R193, R610) and raises `SOB_VIOLATION`; `agent` is 0 tile,
1 command processor, 2 application core, 3 PCIe, 4 Datum. -/
def Hw.sobViolation (h : Hw) (agent pid idx : Nat) : Hw :=
  let h :=
    if h.on F.SOB_VIOL0_VALID then h.put F.SOB_VIOL0_MORE 1
    else
      let h := (h.put F.SOB_VIOL0_AGENT agent).put F.SOB_VIOL0_PID pid
      let h := (h.put F.SOB_VIOL0_INDEX idx).put F.SOB_VIOL0_AT (h.now % 2 ^ 32)
      h.put F.SOB_VIOL0_VALID 1
  (h.put F.SOB_INT_STATUS_VIOLATION 1).event srcSob 0x0802 pid idx

/-- Whether a value has reached a threshold: their difference as a signed 64-bit number is not
negative (R224). -/
def reached (v t : Nat) : Bool := decide ((v + 2 ^ 64 - t % 2 ^ 64) % 2 ^ 64 < 2 ^ 63)

/-- The number of firings a watch is built for: one when `S` is 0, else `N`, an `N` of 0 acting as 1
(R592). -/
def Watch.total (w : Watch) : Nat := if w.s = 0 then 1 else max w.n 1

/-- Fires a watch for each further threshold that a value has reached (R224). -/
def Watch.fire (w : Watch) (v : Nat) : Nat → Watch
  | 0 => w
  | k + 1 =>
    if w.fired < w.total ∧ reached v ((w.t + w.fired * w.s) % 2 ^ 64) then
      Watch.fire { w with fired := w.fired + 1 } v k
    else w

/-- A watch evaluated after an operation on its object (R224): it fires once for every threshold
crossed, and is done at its last firing. -/
def Watch.eval (w : Watch) (v : Nat) : Watch :=
  if w.done then w
  else
    let w := Watch.fire w v (w.total - w.fired)
    { w with done := decide (w.fired ≥ w.total) }

/-- Completes the `SOB_WAIT`s whose watch has fired for the last time, with the value after that
operation as `RESULT` (R591), and drops their watches; the watch of a start gate stays for its job. -/
def Hw.settleWatches (h : Hw) (v : Nat) : List Watch → Hw
  | [] => h
  | w :: ws =>
    let h := h.settleWatches v ws
    if w.done && ! w.gate then h.finishAt w.pid w.queue w.num 0 v 0 {}
    else { h with watches := w :: h.watches }

/-- Evaluates every watch on an object after an operation left `v` in it (R223, R224). -/
def Hw.evalWatches (h : Hw) (idx v : Nat) : Hw :=
  ({ h with watches := [] }).settleWatches v
    (h.watches.map fun (w : Watch) => if w.sob = idx then w.eval v else w)

/-- Performs an operation on an object, without the owner check; answers the previous value.  ADD
wraps modulo 2^64 (R188). -/
def Hw.sobPerform (h : Hw) (idx : Nat) (op : SobOp) : Nat × Hw :=
  let old := h.sob idx
  match op with
  | .read => (old, h)
  | .set v => (old, ({ h with sobs := h.sobs.putD 0 idx (v % 2 ^ 64) }).evalWatches idx (v % 2 ^ 64))
  | .add v =>
    let n := (old + v) % 2 ^ 64
    (old, ({ h with sobs := h.sobs.putD 0 idx n }).evalWatches idx n)

/-- An operation of an agent on the store (R88, R180): blocked, and reading zero, on an object that the
PID does not hold. -/
def Hw.sobAccess (h : Hw) (agent pid idx : Nat) (op : SobOp) : Nat × Hw :=
  if h.holdsSob pid idx then h.sobPerform idx op else (0, h.sobViolation agent pid idx)

end Sys2Proof.Machine
end

