-- ==== Sys2Proof/Machine/Cmds.lean ====
section
/-! DEFINITION. The checks before acceptance (R204), acceptance (R205), beginning in order (R200) and
posting (R209, R211). -/

namespace Sys2Proof.Machine

open Sys2Proof

/-- Writes the queue mirror (R196); a mirror whose address does not translate is lost, and the
failure is recorded (R178, log entry 9). -/
def Hw.writeMirror (h : Hw) (pid q : Nat) : Hw :=
  match h.queue pid q with
  | some qu => (h.writeVa 2 pid qu.desc.mirrorVa qu.mirrorBytes false).2
  | none => h

/-- Sets the mirror's `STATE`, and writes the mirror when it changes to a state of waiting or from one (R196). -/
def Hw.setMirror (h : Hw) (pid q st : Nat) : Hw :=
  let old := ((h.queue pid q).map (·.mirror)).getD 0
  let h := h.modQueue pid q fun qu => { qu with mirror := st }
  if old ≠ st ∧ (2 ≤ st ∨ 2 ≤ old) then h.writeMirror pid q else h

/-- The sequencer port of a queue's commands (R221). -/
def portOf (q : QRef) : Nat := if q.pid.val = 0 then 2 else 3 + q.cp.val

/-- The pair that each Datum that runs keeps of a queue in its MRAM (R220), by Datum × 4,096 + PID × 16 + queue. -/
def Hw.setMram (h : Hw) (pid q : Nat) (f : MramPair → MramPair) : Hw :=
  let up (d : Nat) (down : Bool) (m : SMap MramPair) : SMap MramPair :=
    if down then m else m.mod MramPair.none (d * 4096 + pid * 16 + q) fun x => { f x with at_ := h.now }
  { h with mram := up 1 (h.datB.stopped || h.datB.down) (up 0 (h.datA.stopped || h.datA.down) h.mram) }

/-- Takes a command from its ring: its records are durable, `SQ_HEAD` passes its slots, and an
accepted command takes the next sequence number of its partition (R205, R214, R216, R220). -/
def Hw.take (h : Hw) (c : Cmd) (slots : Nat) : Hw :=
  let h := { h with cmds := h.cmds ++ [c] }
  let h := h.modQueue c.pid c.queue fun q =>
    { q with sqHead := (q.sqHead + slots) % 2 ^ 32, nTaken := (q.nTaken + 1) % 2 ^ 32,
             lastSeq := if c.seq = 0 then q.lastSeq else c.seq }
  let h := h.put F.JNL_FREE_RECORDS (h.get F.JNL_FREE_RECORDS - c.records)
  let h := if c.seq = 0 then h else
    let h := h.addWrap F.JNL_ACCEPTED_COUNT 1
    let h := h.modPart c.pid fun p => { p with nextSeq := p.nextSeq + 1 }
    h.setMram c.pid c.queue fun m =>
      if c.seq = 1 then { MramPair.none with acc := 1 } else { m with acc := c.seq }
  h.writeMirror c.pid c.queue

/-- Marks a command begun (R200, R216). -/
def Hw.begin (h : Hw) (c : Cmd) : Hw :=
  ((h.modCmd c.pid c.queue c.num fun c => { c with begun := true }).traceAdd 0 c.pid
    (leBytes 2 c.opc ++ leBytes 6 c.seq)).countStarted c.pid c.queue

/-- Who may issue an opcode (R587). -/
inductive Issuer where
  | any | classD | gaz | owner | feeder | planner
  deriving DecidableEq, Repr

/-- In which modes an opcode is accepted (R587). -/
inductive Modes where
  | all | notDrive | bench
  deriving DecidableEq, Repr

/-- An opcode's own checks of R204: `allow` belongs to order 1; `modeOk`, `busy` and `res` answer `none` when they pass.  They answer the `RESULT` and
`DETAIL` of their refusal; a `DETAIL` that no entry states is `none`, a free value.  `onAccept` and
`onRefuse` are what acceptance and refusal themselves do. -/
structure OpSpec where
  opc : Nat
  issuer : Issuer := .any
  modes : Modes := .all
  allow : Hw → Cmd → Bool := fun _ _ => true
  handles : Hw → Cmd → Bool := fun _ _ => true
  fields : Hw → Cmd → Bool := fun _ _ => true
  modeOk : Hw → Cmd → Option (Nat × Nat) := fun _ _ => none
  busy : Hw → Cmd → Option (Nat × Option Nat) := fun _ _ => none
  res : Hw → Cmd → Option (Nat × Option Nat) := fun _ _ => none
  onAccept : Hw → Cmd → Hw := fun h _ => h
  onRefuse : Hw → Cmd → Hw := fun h _ => h

/-- The envelope by which feeders and planners are admitted (R359, R362): that of a Datum that runs. -/
def Hw.envelope (h : Hw) : Option (List Byte) :=
  if ! h.datA.stopped && ! h.datA.down then h.datA.env else h.datB.env

/-- Whether a partition is one of the envelope's feeders (R359). -/
def Hw.isFeeder (h : Hw) (pid : Nat) : Bool :=
  pid ≠ 0 && h.envelope.any fun e => (List.range 4).any fun i => field e (49 + i) 1 == pid

/-- Whether a partition may commit trajectories (R362): of class D, and named by `PLANNER` unless all its
entries are zero. -/
def Hw.isPlanner (h : Hw) (pid : Nat) : Bool :=
  pid ≠ 0 && h.clsOf pid == 0 &&
  match h.envelope with
  | some e => field e 53 4 == 0 || (List.range 4).any fun i => field e (53 + i) 1 == pid
  | none => true

/-- Whether an issuer may issue an opcode (R204 order 1, R587). -/
def OpSpec.permits (sp : OpSpec) (h : Hw) (pid : Nat) : Bool :=
  match sp.issuer with
  | .any => true
  | .classD => pid ≠ 0 && h.clsOf pid == 0
  | .gaz => h.gazetteer pid
  | .owner => pid == 0
  | .feeder => h.isFeeder pid
  | .planner => h.isPlanner pid

/-- Whether the present mode admits an opcode (R587). -/
def OpSpec.inMode (sp : OpSpec) (mode : Nat) : Bool :=
  match sp.modes with
  | .all => true
  | .notDrive => mode ≠ 3
  | .bench => mode == 4 || mode == 5

/-- The `DETAIL` of a refusal for which no entry states one (R213): a free value (log entry 39). -/
def Hw.openDetail (h : Hw) (c : Cmd) : Nat := (Config.refusalDetail c.opc h.freeIx).toNat

/-- The checks of R204 in their order: `none` admits the command, else status, result and detail of
the refusal.  A refusal under orders 1 to 3 names its order, one under order 4 the mode (R213). -/
def OpSpec.check (sp : OpSpec) (h : Hw) (c : Cmd) : Option (Nat × Nat × Nat) :=
  if ! sp.permits h c.pid || decide (c.ext > 3) || ! sp.allow h c then some (0x2001, 0, 1)
  else if (c.sobOnDone && ! h.holdsSob c.pid (c.f 8 2)) || ! sp.handles h c then some (0x2001, 0, 2)
  else if ! sp.fields h c then some (0x2001, 0, 3)
  else if ! sp.inMode h.mode then some (0x2004, 0, h.mode)
  else match sp.modeOk h c with
  | some (r, d) => some (0x2004, r, d)
  | none => match sp.busy h c with
    | some (r, d) => some (0x2003, r, d.getD (h.openDetail c))
    | none => match sp.res h c with
      | some (r, d) => some (0x2002, r, d.getD (h.openDetail c))
      | none => none

/-- Whether a command was taken from its queue before another, by the distances of their numbers from `CQ_HEAD`, since
counts run modulo 2^32 (R195, R200). -/
def Hw.takenBefore (h : Hw) (e c : Cmd) : Bool :=
  let from_ := ((h.queue c.pid c.queue).map (·.cqHead)).getD 0
  decide ((e.num + 2 ^ 32 - from_) % 2 ^ 32 < (c.num + 2 ^ 32 - from_) % 2 ^ 32)

/-- Whether a command may begin (R200): every earlier command of its queue is complete, or has begun
with `LONG` set and this one is not `ORDERED`.  A `FENCE` also waits for every earlier command of its
partition (R588), and `MAP` and `UNMAP` for an `UNMAP` under way (R174). -/
def Hw.canBegin (h : Hw) (c : Cmd) : Bool :=
  (h.cmds.all fun e =>
    ! (e.pid == c.pid && e.queue == c.queue && h.takenBefore e c) ||
      e.complete || (e.begun && e.long && ! c.ordered)) &&
  ((c.opc ≠ 0xC3 && c.opc ≠ 0xC4) || h.sys.unmaps.isEmpty) &&
  (c.opc ≠ 0x01 || h.cmds.all fun e => ! (e.pid == c.pid && decide (e.seq < c.seq)) || e.complete)

/-- The rank of a sequencer port (R221). -/
def portRank (p : Nat) : Nat := if p ≤ 1 then 2 else if p = 2 then 1 else 0

/-- Whether a contradictory order of the same cycle wins over this command (R221, R222): a Datum
safe-state order over trajectory, dust sheet and mode commands, an owner's `PART_RESET` or
`PART_DESTROY` over any command of the partition, and the higher port of two trajectory or two
dust-sheet commands. -/
def superseded (opc port : Nat) (r : Option Rival) : Option Nat :=
  match r with
  | none => none
  | some r =>
    let p := r.port.val
    let traj := opc == 0x82 || opc == 0x83
    let wins :=
      if p ≤ 1 then traj || opc == 0xCE
      else if p = 2 then decide (port ≥ 3)
      else traj && decide (port ≥ 3) && decide (p > port)
    if wins then some p else none

/-- The command that a packet makes at the front of its queue. -/
def mkCmd (h : Hw) (q : QRef) (qu : Queue) (pkt : Packet) (seq : Nat) : Cmd :=
  { pid := q.pid.val, queue := q.queue.val, num := qu.nTaken, seq := seq,
    slot := qu.sqHead % 2 ^ qu.desc.log2Size, port := portOf q, pkt := pkt, acceptAt := h.now,
    begun := false, finishAt := 0, entry := none, posted := false
    recs := h.freeRecords (if seq = 0 then 1 else 1 + pkt.length / 64) }

/-- Takes a fetched command out of those in flight (R201, R205). -/
def Hw.unfetch (h : Hw) (f : Fetched) : Hw :=
  { h.modQueue f.pid f.queue (fun q => { q with fetchedSlots := q.fetchedSlots - f.slots }) with fetched := h.fetched.erase f }

/-- The oldest fetched command of a queue. -/
def Hw.oldestFetched (h : Hw) (pid q : Nat) : Option Fetched := h.fetched.find? fun f => f.pid == pid && f.queue == q

/-- Accepts or refuses a packet (R204, R205).  A refused command's REFUSED record holds its entry. -/
def Hw.judge (h : Hw) (sp : OpSpec) (q : QRef) (qu : Queue) (pkt : Packet) : Cmd × Hw :=
  let c0 := mkCmd h q qu pkt 0
  match sp.check h c0 with
  | some (st, r, d) =>
    let c := { c0 with begun := true, finishAt := h.now, entry := some (c0.mkEntry h.now st r d {}) }
    let h := h.take c (slotsOf pkt)
    (c, sp.onRefuse (h.countStarted c.pid c.queue) c)
  | none =>
    let c := mkCmd h q qu pkt (((h.part q.pid.val).map (·.nextSeq)).getD 1)
    let h := h.take c (slotsOf pkt)
    match superseded c.opc c.port q.rival with
    | some p => (c, (h.begin c).finish c 0x4002 0 p)
    | none => (c, sp.onAccept h c)

/-- The packet of a row: chunk 0's opcode byte is the row's, and the chunks are those that `EXT`
names (R199). -/
def rowPacket (opc : Nat) (p : Packet) : Packet := fit (64 * slotsOf p) (patch p 0 [BitVec.ofNat 8 opc])

/-- The oldest accepted command of a queue that has not begun. -/
def Hw.waiting (h : Hw) (pid q : Nat) : Option Cmd :=
  h.cmds.find? fun c => c.pid == pid && c.queue == q && ! c.begun && c.seq ≠ 0

/-- The stroke in coat (R45). -/
def Stencil.pos (s : Stencil) (n : Nat) : Nat := (n + (s.coatLen - s.phase)) % s.coatLen

/-- Whether a window runs at a stroke in coat (R51). -/
def WinRow.at_ (w : WinRow) (p : Nat) : Bool := decide (w.start ≤ p) && decide (p < w.start + w.count)

/-- The activity of a window. -/
def Stencil.winAct (s : Stencil) (w : WinRow) : ActRow :=
  s.acts.getD w.act { pid := 0, kind := 1, duplex := false, fragTag := 0 }

/-- The windows that run at a stroke in coat. -/
def Stencil.winsOn (s : Stencil) (p : Nat) : List WinRow := s.wins.filter fun w => w.at_ p

/-- A partition's row (R49). -/
def Stencil.rowOf (s : Stencil) (pid : Nat) : Option PartRow := s.parts.find? fun r => r.pid == pid

/-- Whether a kind of PID 0 window runs at a stroke in coat (R70). -/
def Stencil.kindOn (s : Stencil) (kind p : Nat) : Bool := (s.winsOn p).any fun w => (s.winAct w).kind == kind

/-- The present stroke in coat. -/
def Hw.coatPos (h : Hw) : Nat := h.stn.active.pos h.now

/-- Whether the present stroke is a coat boundary of the active stencil (R45). -/
def Hw.atCoat (h : Hw) : Bool := h.coatPos == 0

/-- Whether a QUIET window runs in the present stroke (R70). -/
def Hw.quiet (h : Hw) : Bool := h.stn.active.kindOn 1 h.coatPos

/-- Whether the sequencer takes steps: the module is in STANDBY, DRIVE, BENCH or SERVICE (R587), no
freeze has stopped it (R572), and no main-power loss has (R220). -/
def Hw.sequencing (h : Hw) : Bool :=
  decide (2 ≤ h.mode) && decide (h.mode ≤ 5) && ! h.seqStopped && h.hubOn && ! h.lossStops

/-- Whether a `JOB_SUBMIT` of a queue awaits the shards of its record: it holds up the commands behind it (R481). -/
def Hw.isHeld (h : Hw) (q : QRef) : Bool := h.sys.grp.held.any fun x => x.pid == q.pid.val && x.queue == q.queue.val

/-- Whether a processor serves queues (R225). -/
def Hw.cpRuns (h : Hw) (cp : Nat) : Bool := h.get (F.CP_STATUS_STATE.blk cp) == 0

/-- Whether a processor has stopped on a fault and its queues have not been taken over yet (R218). -/
def Hw.awaitsTakeover (h : Hw) (cp : Nat) : Bool :=
  h.get (F.CP_STATUS_STATE.blk cp) == 1 && ! h.on (F.CP_INT_STATUS_TAKEOVER.blk cp)

/-- The fetch point of a queue: the slot after those fetched (R195). -/
def Queue.fetchPoint (q : Queue) : Nat := (q.sqHead + q.fetchedSlots) % 2 ^ 32

/-- The submitted slots that are not yet fetched. -/
def Queue.submitted (q : Queue) : Nat := (q.sqTail + 2 ^ 32 - q.fetchPoint) % 2 ^ 32

/-- The commands of a queue that are fetched and not yet taken. -/
def Hw.inFlight (h : Hw) (pid q : Nat) : List Fetched := h.fetched.filter fun f => f.pid == pid && f.queue == q

/-- The journal records that a PID's commands in flight will need (R214). -/
def Hw.recordsInFlight (h : Hw) (pid : Nat) : Nat :=
  sumNat ((h.fetched.filter fun f => f.pid == pid).map fun f => 1 + f.slots)

/-- The journal quota of a PID: 65,536 records for the owner queue (R214). -/
def Hw.quotaOf (h : Hw) (pid : Nat) : Nat := if pid = 0 then 65536 else ((h.part pid).map (·.jnlQuota)).getD 0

/-- What the mirror's `STATE` shows (R196). -/
def mirIdle : Nat := 0
def mirFetching : Nat := 1
def mirBudget : Nat := 2
def mirCq : Nat := 3
def mirQuota : Nat := 4
def mirQuiet : Nat := 5
def mirRecovering : Nat := 6

/-- The state in which a queue waits with a command of `slots` slots at its fetch point; `none` when it may be
fetched (R201). -/
def Hw.fetchWait (h : Hw) (pid q : Nat) (qu : Queue) (slots : Nat) : Option Nat :=
  if h.quiet then some mirQuiet
  else if 2 ^ qu.desc.log2Size ≤ (qu.nTaken + (h.inFlight pid q).length + 2 ^ 32 - qu.cqHead) % 2 ^ 32 then some mirCq
  else if h.quotaOf pid < h.jnlUsed pid + h.recordsInFlight pid + 1 + slots then some mirQuota
  else if h.stn.cpOps.getD 0 pid < slots then some mirBudget
  else none

/-- A processor takes `n` chunks from the budget of a PID (R60, R201). -/
def Hw.chargeFetch (h : Hw) (pid cp n : Nat) : Hw :=
  let h := { h with stn := { h.stn with cpOps := SMap.putD 0 h.stn.cpOps pid (h.stn.cpOps.getD 0 pid - n) } }
  h.put (F.CP_CHUNKS_COUNT.blk cp) ((h.get (F.CP_CHUNKS_COUNT.blk cp) + n) % 2 ^ 64)

/-- A packet comes from its queue: the oldest that was fetched, which is no longer in flight; or, with none in flight, the
packet at the fetch point, which is fetched now when every condition of R201 holds.  Any other packet does not come. -/
def Hw.presented (h : Hw) (q : QRef) (qu : Queue) (pkt : Packet) : Option Hw :=
  match h.oldestFetched q.pid.val q.queue.val with
  | some f => if f.pkt = pkt && ! f.stained && f.fault.isNone then some (h.unfetch f) else none
  | none =>
    let n := slotsOf pkt
    if n ≤ qu.submitted && (h.fetchWait q.pid.val q.queue.val qu n).isNone then some (h.chargeFetch q.pid.val q.cp.val n) else none

/-- A command whose turn it is begins with its effect, unless a contradictory order of the same cycle wins (R221). -/
def Hw.begins (h : Hw) (q : QRef) (c : Cmd) (eff : Hw → Cmd → Hw) : Hw :=
  if ! h.canBegin c then h
  else
    match superseded c.opc c.port q.rival with
    | some p => (h.begin c).finish c 0x4002 0 p
    | none => eff (h.begin c) c

/-- Whether a processor presents commands of a queue: a processor that does not run presents nothing, a QUIET window, in
which the journal cannot be written, lets nothing be taken (R70), and nothing comes from a partition that is being destroyed
(R603). -/
def Hw.presents (h : Hw) (q : QRef) : Bool :=
  h.sequencing && h.cpRuns q.cp.val && ! h.quiet && ! (h.part q.pid.val).any (·.destroying)

/-- Takes a packet from the front of its queue (R201, R204, R205), unless it does not come or a submission is held there. -/
def Hw.takeNext (h : Hw) (sp : OpSpec) (q : QRef) (pkt : Packet) : Option Cmd × Hw :=
  if h.isHeld q then (none, h)
  else match h.queue q.pid.val q.queue.val with
    | none => (none, h)
    | some qu =>
      match h.presented q qu pkt with
      | none => (none, h)
      | some h => let (c, h) := h.judge sp q qu pkt; (some c, h)

/-- A packet command (log entry 8).  When the oldest accepted command of the queue that has not begun
is this packet, it begins if R200 lets it, with its effect `eff`; otherwise the packet is taken from
the queue now: refused, or accepted, and begun when R200 lets it. -/
def Hw.issue (h : Hw) (sp : OpSpec) (q : QRef) (p : Packet) (eff : Hw → Cmd → Hw) : Hw :=
  if ! h.presents q then h
  else
    let pkt := rowPacket sp.opc p
    match h.waiting q.pid.val q.queue.val with
    | some c => if c.pkt = pkt then h.begins q c eff else (h.takeNext sp q pkt).2
    | none =>
      match h.takeNext sp q pkt with
      | (some c, h) => if (h.cmd? c.pid c.queue c.num).any (·.complete) then h else h.begins q c eff
      | (none, h) => h

/-- Reads memory for a command (R177, R585): context 0 on the owner queue. -/
def Hw.cmdRead (h : Hw) (pid va n : Nat) : Except (Nat × Nat) (List Byte × Bool) × Hw :=
  h.readVa 2 pid va n

/-- Writes memory for a command (R177, R585). -/
def Hw.cmdWrite (h : Hw) (pid va : Nat) (bs : List Byte) (st : Bool) : Option (Nat × Nat) × Hw :=
  h.writeVa 2 pid va bs st

/-- Reads a record for a command and goes on with it; a failed translation or a stained record ends
the command (R178, R585; `FAIL_STAINED` under R106). -/
def Hw.withRecord (h : Hw) (c : Cmd) (va n : Nat) (k : Hw → List Byte → Hw) : Hw :=
  match h.cmdRead c.pid va n with
  | (.error e, h) => h.failPage c e
  | (.ok (bs, st), h) => if st then h.finish c 0x3001 0 0xFFFF_FFFF else k h bs

/-- Writes a record for a command and completes it `DONE` with a result; a failed translation ends it. -/
def Hw.doneWriting (h : Hw) (c : Cmd) (va : Nat) (bs : List Byte) (result : Nat) : Hw :=
  match h.cmdWrite c.pid va bs false with
  | (some e, h) => h.failPage c e
  | (none, h) => h.done c result

/-- A sync-object operation that a command originates (R210): the store ignores it when its sequence number is not above
that of the queue's last such operation, a command's or a `SOB_ON_DONE` addition's. -/
def Hw.sobCommand (h : Hw) (c : Cmd) (idx : Nat) (op : SobOp) : Nat × Hw :=
  match h.queue c.pid c.queue with
  | some q =>
    if c.seq ≤ q.sobSeq then (h.sob idx, h)
    else
      let (v, h) := h.sobAccess 1 c.pid idx op
      (v, h.modQueue c.pid c.queue fun q => { q with sobSeq := c.seq })
  | none => (0, h)

/-- The next command of a queue to be posted (R209). -/
def Hw.toPost (h : Hw) (pid q : Nat) : Option Cmd :=
  (h.queue pid q).bind fun qu => h.cmd? pid q qu.nPosted

/-- The addition of `SOB_ON_DONE` at posting (R209, step 1; R210), for statuses of classes 0, 1, 3
and 4. -/
def Hw.sobOnDone (h : Hw) (c : Cmd) (status : Nat) : Hw :=
  if c.sobOnDone ∧ status / 0x1000 ≠ 2 then (h.sobCommand c (c.f 8 2) (.add (c.f 12 4))).2 else h

/-- Writes a command's completion entry at its slot of the completion ring (R209, R211). -/
def Hw.writeEntry (h : Hw) (c : Cmd) (e : Entry) : Hw :=
  match h.queue c.pid c.queue with
  | some q =>
    let size := 2 ^ q.desc.log2Size
    (h.writeVa 2 c.pid (q.desc.cqVa + 32 * (c.num % size)) (e.bytes (phaseOf c.num size)) false).2
  | none => h

/-- Posts the next finished command of a queue (R209): the `SOB_ON_DONE` addition, the queue state, the
completion entry, the mirror, and the vector when `NOTIFY` is 1. -/
def Hw.post (h : Hw) (pid q : Nat) : Hw :=
  match h.toPost pid q with
  | none => h
  | some c =>
    match c.entry with
    | none => h
    | some e =>
      let h := h.sobOnDone c e.status
      let h := h.modQueue pid q fun qu => { qu with nPosted := (qu.nPosted + 1) % 2 ^ 32 }
      let h := h.modCmd pid q c.num fun c => { c with posted := true }
      let h := if c.seq = 0 then h else h.setMram pid q fun m => { m with post := c.seq }
      let h := h.writeEntry c e
      let h := h.writeMirror pid q
      if c.notify then h.raiseVector pid (((h.queue pid q).map (·.desc.vector)).getD 0) else h

/-- Frees the records of the commands whose entries `CQ_HEAD` has passed (R214). -/
def Hw.freeConsumed (h : Hw) (pid q : Nat) : Hw :=
  match h.queue pid q with
  | none => h
  | some qu =>
    let gone (c : Cmd) : Bool := c.pid == pid && c.queue == q && c.posted &&
      decide ((qu.cqHead + 2 ^ 32 - c.num - 1) % 2 ^ 32 < 2 ^ 31)
    let n := sumNat ((h.cmds.filter gone).map Cmd.records)
    let h := { h with cmds := h.cmds.filter fun c => ! gone c }
    h.put F.JNL_FREE_RECORDS (min 4194304 (h.get F.JNL_FREE_RECORDS + n))

end Sys2Proof.Machine
end

