-- ==== Sys2Proof/Machine/TileOps.lean ====
section
/-! DEFINITION. The tile's shared operations: placement of logical tiles (R136, R137, R160), SRAM under
its windows and stain (R77, R104, R105), the frame stack (R96, R97), exceptions (R98, R99), FAULT_STOP
(R101) and stain consumption (R106). -/

namespace Sys2Proof.Machine

open Sys2Proof

/-- The sequencer state at PORST; every slice start sets it again (R95). -/
def Seq.fresh : Seq :=
  { todIdx := 0, pc := 0, s := List.replicate 16 0, sStain := List.replicate 16 false,
    lc := [0, 0, 0, 0], p := List.replicate 8 (2 ^ 128 - 1), v := [], vStain := [], vsp := 0, stkLo := 0,
    stkHi := 0, exb := 0, acb := 0, lvl := 0, vlevel := 0, seed := 0, inexact := false,
    overflow := false, xlive := false, inProg := false, afterProg := 0, excCause := 0 }

/-- A tile at PORST: SRAM zero, nothing bound. -/
def Tile.fresh : Tile :=
  { sram := [], stain := [], badGranules := [], weakGranules := [], winAct := [], seq := Seq.fresh,
    accs := [], cells := [], luts := [], slice := none, binds := [], owed := [], arrived := [],
    landed := [], expIn := [], lvlIn := [], lvlKept := [], lvlJobs := [], section_ := 0,
    rotationAt := 0, lateRaised := false, testDue := false,
    scrubPos := 0, condition := [], pulsedAt := 0, overruns := [], idleFor := none }

/-- Whether the tile's silicon shows a parity error in its sequencer state or frame logic (R101, cause 3): entry 16 of its
condition, after the 16 sections. -/
def Tile.parityBad (x : Tile) : Bool := decide (x.condition.getD 16 0 ≠ 0)

/-- A physical tile, numbered die × 288 + row × 18 + column (R456). -/
def Hw.tile (h : Hw) (t : Nat) : Tile := h.tiles.getD Tile.fresh t

/-- Changes a tile. -/
def Hw.modTile (h : Hw) (t : Nat) (f : Tile → Tile) : Hw :=
  { h with tiles := h.tiles.putD Tile.fresh t (f (h.tile t)) }

/-- Changes a tile's sequencer state. -/
def Hw.modSeq (h : Hw) (t : Nat) (f : Seq → Seq) : Hw := h.modTile t fun x => { x with seq := f x.seq }

/-- Changes a tile's slice. -/
def Hw.modSlice (h : Hw) (t : Nat) (f : Slice → Slice) : Hw :=
  h.modTile t fun x => { x with slice := x.slice.map f }

/-- The occupancy mask of a physical row, numbered die × 16 + row (R137). -/
def Hw.rowMask (h : Hw) (r : Nat) : Nat := h.fab.rowMask.getD 0xFFFF r

/-- The physical column of the `j`-th set bit of a mask of 18 bits, from `col` on. -/
def colOf (m : Nat) : Nat → Nat → Nat → Option Nat
  | 0, _, _ => none
  | fuel + 1, col, j =>
    if bit m col then (match j with
      | 0 => some col
      | j + 1 => colOf m fuel (col + 1) j)
    else colOf m fuel (col + 1) j

/-- The physical row, die × 16 + row, and logical column of a logical tile 32y + x (R136). -/
def rowOfLogical (l : Nat) : Nat × Nat :=
  let x := l % 32
  let y := l / 32
  ((x / 16 + 2 * (y / 16)) * 16 + y % 16, x % 16)

/-- The physical tile that holds a logical position (R137). -/
def Hw.physOf (h : Hw) (l : Nat) : Option Nat :=
  let (r, j) := rowOfLogical l
  (colOf (h.rowMask r) 18 0 j).map fun c => r / 16 * 288 + r % 16 * 18 + c

/-- The logical position that a physical tile holds (R137). -/
def Hw.logicalOf (h : Hw) (t : Nat) : Option Nat :=
  let die := t / 288
  let row := t % 288 / 18
  let col := t % 18
  let m := h.rowMask (die * 16 + row)
  if bit m col then
    let j := countNat col (bit m)
    some ((16 * (die / 2) + row) * 32 + 16 * (die % 2) + j)
  else none

/-- The logical tile that serves a position for a PID: the substitute of a vacant one (R160). -/
def Hw.redirect (h : Hw) (pid l : Nat) : Nat :=
  match h.fab.redirects.find? fun r => r.pid == pid && r.vacant == l with
  | some r => r.subst
  | none => l

/-- The physical tile that serves a logical position for a PID (R137, R160). -/
def Hw.physFor (h : Hw) (pid l : Nat) : Option Nat := h.physOf (h.redirect pid l)

/-- Whether an address lies in an SRAM window of a PID (R76, R77). -/
def Hw.inWindow (h : Hw) (t pid a : Nat) : Bool :=
  (List.range 8).any fun i =>
    h.on ((F.TILE_SWIN_VALID.blk t).nth i) && h.get ((F.TILE_SWIN_PID.blk t).nth i) == pid &&
    decide (h.get ((F.TILE_SWIN_FIRST.blk t).nth i) ≤ a / 4096) &&
    decide (a / 4096 ≤ h.get ((F.TILE_SWIN_LAST.blk t).nth i))

/-- A byte with its stain. -/
abbrev SByte := Byte × Bool

/-- The granules of 32 bytes that a run touches. -/
def granules (a n : Nat) : List Nat := halves a n

/-- Raises the security event of a blocked access (R77): one for each blocked granule, with the granule's base as its
address (DESIGN CHOICE, log entry 50). -/
def Hw.windowEvent (h : Hw) (t pid a : Nat) : Hw := h.event (srcTile t) 0x0801 pid a

/-- A read finds an error in a granule (R104): an uncorrectable one stains it, a single-bit one is
corrected, counted and written back. -/
def Hw.sramErrors (h : Hw) (t g : Nat) : Hw :=
  let x := h.tile t
  if x.badGranules.contains g then
    let h := h.modTile t fun x =>
      { x with badGranules := NSet.rem x.badGranules g, stain := NSet.add x.stain g }
    ((h.addSat (F.TILE_SRAM_ERR_UNCORR.blk t) 1).event (srcTile t) 0x0103 0 g).healthAdd t inUncorr 1
  else if x.weakGranules.contains g then
    let h := h.modTile t fun x => { x with weakGranules := NSet.rem x.weakGranules g }
    (h.addSat (F.TILE_SRAM_ERR_CORRECTED.blk t) 1).hairTile t
  else h

/-- Meets the windows and the decoders for every granule of a run that is read; each blocked granule raises its own event
(DESIGN CHOICE, log entry 50). -/
def Hw.visitRead (h : Hw) (t pid : Nat) : List Nat → Hw
  | [] => h
  | g :: gs =>
    (if h.inWindow t pid (g * 32) then h.sramErrors t g else h.windowEvent t pid (g * 32)).visitRead t pid gs

/-- The held-input halves of the slice's areas that a read touches (R156). -/
def halvesRead (as : List Area) (a n : Nat) : List (Nat × Nat) :=
  as.flatMap fun r =>
    (if decide (a < r.base + r.half) && decide (r.base < a + n) then [(r.slot, 0)] else []) ++
    (if decide (a < r.base + 2 * r.half) && decide (r.base + r.half < a + n) then [(r.slot, 1)] else [])

/-- The binding that a slice runs under. -/
def Tile.binding (x : Tile) (s : Slice) : Option Binding :=
  x.binds.find? fun b => b.pid == s.pid && b.handle == s.handle && b.copy == s.copy && b.pos == s.pos

/-- The held-input areas of a PID on a tile (R154). -/
def Tile.areasOf (x : Tile) (pid : Nat) : List Area :=
  (x.binds.filter fun b => b.pid == pid).flatMap (·.areas)

/-- Notes that a slice has read held inputs. -/
def Hw.noteHalves (h : Hw) (t a n : Nat) : Hw :=
  match (h.tile t).slice with
  | some s =>
    match (h.tile t).binding s with
    | some b =>
      let r := (halvesRead b.areas a n).filter fun e => ! s.readHalves.contains e
      if r.isEmpty then h else h.modSlice t fun s => { s with readHalves := s.readHalves ++ r }
    | none => h
  | none => h

/-- A slice or another agent of a PID reads SRAM (R77): a blocked granule reads zero, unstained. -/
def Hw.rdSram (h : Hw) (t pid a n : Nat) : List SByte × Hw :=
  let h := (h.visitRead t pid (granules a n)).noteHalves t a n
  let x := h.tile t
  ((List.range n).map fun i =>
    if h.inWindow t pid (a + i) then (SMap.getD 0 x.sram (a + i), x.stain.contains ((a + i) / 32))
    else (0, false), h)

/-- The stain of a granule after a write that puts these bytes, at these places, into it (R105). -/
def stainAfter (s : NSet) (g : Nat) (ws : List (Nat × SByte)) : NSet :=
  let here := ws.filter fun w => w.1 / 32 == g
  if here.any (·.2.2) then NSet.add s g
  else if decide (here.length ≥ 32) then NSet.rem s g
  else s

/-- Writes bytes into a tile's SRAM without the window check, as module firmware does. -/
def Hw.pokeSram (h : Hw) (t a : Nat) (bs : List SByte) : Hw :=
  let ws := (List.range bs.length).map fun i => (a + i, bs.getD i (0, false))
  h.modTile t fun x =>
    { x with sram := ws.foldl (fun m w => SMap.putD 0 m w.1 w.2.1) x.sram,
             stain := (granules a bs.length).foldl (fun s g => stainAfter s g ws) x.stain,
             badGranules := x.badGranules.filter fun g =>
               ! ((granules a bs.length).contains g && wholeHalf a bs.length g),
             weakGranules := x.weakGranules.filter fun g =>
               ! ((granules a bs.length).contains g && wholeHalf a bs.length g) }

/-- Writes one granule's share of a run, if the windows of the PID hold it (R77). -/
def Hw.wrGranule (h : Hw) (t pid a : Nat) (bs : List SByte) (g : Nat) : Hw :=
  if h.inWindow t pid (g * 32) then
    let lo := max a (g * 32)
    let hi := min (a + bs.length) (g * 32 + 32)
    h.pokeSram t lo ((bs.drop (lo - a)).take (hi - lo))
  else h.windowEvent t pid (g * 32)

/-- A slice, or a message of a PID, writes SRAM (R77): a blocked granule keeps its bytes. -/
def Hw.wrSram (h : Hw) (t pid a : Nat) (bs : List SByte) : Hw :=
  (granules a bs.length).foldl (fun h g => h.wrGranule t pid a bs g) h

/-- The bytes of granule `g` that a run covers, as a mask. -/
def runMask (a n g : Nat) : Nat := 2 ^ (min (a + n) (g * 32 + 32) - g * 32) - 2 ^ (max a (g * 32) - g * 32)

/-- The granules that rows touch, each with the mask of the bytes that they cover together. -/
def coverage (rows : List (Nat × List SByte)) : SMap Nat :=
  rows.foldl (fun m r => (granules r.1 r.2.length).foldl
    (fun m g => SMap.mod 0 m g fun v => v ||| runMask r.1 r.2.length g) m) []

/-- Whether a row brings a stained byte to a granule. -/
def stains (r : Nat × List SByte) (g : Nat) : Bool :=
  (upto (max r.1 (g * 32)) (min (r.1 + r.2.length) (g * 32 + 32) - max r.1 (g * 32))).any fun i => (r.2.getD (i - r.1) (0, false)).2

/-- Clears the stain of each granule that rows, once written, have overwritten whole with unstained data (R105). -/
def Hw.sealRows (h : Hw) (t pid : Nat) (rows : List (Nat × List SByte)) : Hw :=
  (coverage rows).foldl (fun h e =>
    if e.2 = 2 ^ 32 - 1 ∧ (rows.all fun r => ! stains r e.1) ∧ h.inWindow t pid (e.1 * 32) then
      h.modTile t fun x => { x with stain := NSet.rem x.stain e.1 }
    else h) h

/-- Marks a run of plain bytes with one stain. -/
def withStain (st : Bool) (bs : List Byte) : List SByte := bs.map fun b => (b, st)

/-- The job of a slice. -/
def Hw.jobOf (h : Hw) (s : Slice) : Option Job :=
  h.jobs.find? fun j => j.pid == s.pid && j.queue == s.queue && j.num == s.num

/-- Changes a job. -/
def Hw.modJob (h : Hw) (pid q num : Nat) (f : Job → Job) : Hw :=
  { h with jobs := h.jobs.map fun j => if j.pid == pid && j.queue == q && j.num == num then f j else j }

/-- A job meets a failure in this stroke: the first is kept until the stroke's events are settled at the
pulse (R247). -/
def Hw.failJob (h : Hw) (s : Slice) (status detail : Nat) : Hw :=
  h.modJob s.pid s.queue s.num fun j => if j.fail.isSome then j else { j with fail := some (status, detail) }

/-- The sheets reserved by a slice's walks return to the pool (R270); a tile holds reservations of one
slice only. -/
def Hw.dropReservations (h : Hw) (t : Nat) : Hw :=
  let mine := h.kv.reserved.filter fun r => r.1 == t
  let sheets := mine.foldl (fun (m : SMap SheetRec) r =>
    m.putD SheetRec.free r.2.2.2.1 { SheetRec.free with zeroed := false }) h.kv.sheets
  { h with kv := { h.kv with reserved := h.kv.reserved.filter (fun r => r.1 ≠ t), sheets := sheets } }

/-- Whether a slice drains its staged stores at a `COMMIT` (R566). -/
def Slice.draining (s : Slice) : Bool :=
  s.state == .running && s.waits.any fun w => decide (w.units = 0) && decide (field w.tod 0 1 = 2)

/-- Ends a slice other than by its final `COMMIT`: nothing that it staged, held or collected becomes
visible (R80, R87). -/
def Hw.endSlice (h : Hw) (t : Nat) (e : SliceEnd) : Hw :=
  let h := h.dropReservations t
  let h := h.modSlice t fun s => { s with state := e, staged := [], sobs := [], notices := [], waits := [] }
  (h.modSeq t fun q => { q with inProg := false }).put (F.TILE_STATE_GATE.blk t) 0

/-- A slice consumes stained data (R106). -/
def Hw.consume (h : Hw) (t : Nat) : Hw :=
  match (h.tile t).slice with
  | some s =>
    let h := (h.put (F.TILE_INT_STATUS_STAIN_CONSUMED.blk t) 1).event (srcTile t) 0x0101 s.pid
      (h.tile t).seq.todIdx
    (h.failJob s 0x3001 s.pos).endSlice t .stained
  | none => h

/-- The fault record of a FAULT_STOP (R101, R109): the first is kept, a later one sets `MORE`. -/
def Hw.faultRecord (h : Hw) (t cause : Nat) : Hw :=
  if h.on (F.TILE_FAULT0_VALID.blk t) then h.put (F.TILE_FAULT0_MORE.blk t) 1
  else
    let q := (h.tile t).seq
    let (pid, act) := match (h.tile t).slice with
      | some s => (s.pid, s.act)
      | none => (0, 0)
    let h := (h.put (F.TILE_FAULT0_VALID.blk t) 1).put (F.TILE_FAULT0_CAUSE.blk t) cause
    let h := (h.put (F.TILE_FAULT1_STROKE.blk t) h.now).put (F.TILE_FAULT2_PID.blk t) pid
    let h := (h.put (F.TILE_FAULT2_ACT.blk t) act).put (F.TILE_FAULT2_TOD_IDX.blk t) q.todIdx
    let h := h.put (F.TILE_FAULT2_PC.blk t) (if q.inProg then q.pc else 0)
    let h := (h.put (F.TILE_FAULT3_VSP.blk t) q.vsp).put (F.TILE_FAULT3_STK_LO.blk t) q.stkLo
    h.put (F.TILE_FAULT3_STK_HI.blk t) q.stkHi

/-- The tile enters FAULT_STOP (R101); one that runs no slice is tested in its next stroke (R103). -/
def Hw.faultStop (h : Hw) (t cause : Nat) : Hw :=
  let pid := ((h.tile t).slice.map (·.pid)).getD 0
  let runs := (h.tile t).slice.any fun s => s.state == .running
  let h := if runs then h
    else h.modTile t fun x =>
      { x with overruns := x.overruns ++ [{ stroke := h.now, pid := 0, act := 0, cause := 4, seq := 0, k := 0, worked := false }] }
  let h := (h.faultRecord t cause).put (F.TILE_STATE_STATE.blk t) 3
  let h := (h.put (F.TILE_INT_STATUS_FAULT_STOP.blk t) 1).event (srcTile t) 0x0201 pid cause
  if runs then h.endSlice t .faultStop else h.put (F.TILE_STATE_GATE.blk t) 0

/-- Whether a push of `n` bytes is valid (R96). -/
def Seq.canPush (q : Seq) (n : Nat) : Bool :=
  q.vsp % 32 == 0 && decide (q.vsp ≤ q.stkHi) && decide (q.stkLo + n ≤ q.vsp)

/-- Whether a pop of `n` bytes is valid (R96). -/
def Seq.canPop (q : Seq) (n : Nat) : Bool := q.vsp % 32 == 0 && decide (q.vsp + n ≤ q.stkHi)

/-- The 64 bytes of an exception frame (R97). -/
def excFrame (q : Seq) (cause pc info insn : Nat) : List SByte :=
  let plain (bs : List Byte) : List SByte := withStain false bs
  let reg (i : Nat) : List SByte := withStain (q.sStain.getD i false) (leBytes 4 (q.s.getD i 0))
  plain (leBytes 1 2 ++ leBytes 1 cause ++ leBytes 2 q.todIdx ++ leBytes 4 pc ++
    q.lc.flatMap (leBytes 2) ++ leBytes 4 info ++ leBytes 4 insn) ++
  reg 1 ++ reg 2 ++ reg 3 ++ reg 4 ++ plain (zeros 24)

/-- The slice is abandoned (R99): nothing is committed and the job fails. -/
def Hw.abandon (h : Hw) (t code : Nat) : Hw :=
  match (h.tile t).slice with
  | some s =>
    let h := h.event (srcTile t) 0x0202 s.pid code
    (h.failJob s 0x3005 s.pos).endSlice t .abandoned
  | none => h

/-- An exception is raised (R98, R99, R101): in a running handler it is a FAULT_STOP, without a handler
the slice is abandoned, otherwise a frame is pushed and the handler runs. -/
def Hw.raiseExc (h : Hw) (t cause info insn : Nat) : Hw :=
  let q := (h.tile t).seq
  let pid := ((h.tile t).slice.map (·.pid)).getD 0
  if q.xlive then h.faultStop t 2
  else if q.exb = 0 then h.abandon t cause
  else if ! q.canPush 64 then h.faultStop t 1
  else
    let fr := excFrame q cause (if q.inProg then q.pc else 0) info insn
    let h := h.wrSram t pid (q.vsp - 64) fr
    h.modSeq t fun q =>
      { q with vsp := q.vsp - 64, xlive := true, pc := q.exb, excCause := cause,
               afterProg := if q.inProg then q.afterProg else (q.todIdx + 1) % 4096, inProg := true }

end Sys2Proof.Machine
end

