-- ==== Sys2Proof/Machine/Operands.lean ====
section
/-! DEFINITION. Tile operation descriptors (R81), operand slots (R83) and tensors in SRAM (R83, R111,
R112): every operand form of a TOD. -/

namespace Sys2Proof.Machine

open Sys2Proof

/-- How a TOD or a TVI instruction ends other than by completing: an exception with its information,
stained data consumed, FAULT_STOP, or a wait on the mesh or on DRAM. -/
inductive Stop where
  | exc (cause info : Nat)
  | consumed
  | fault (cause : Nat)
  | waitNet
  | waitDram
  deriving DecidableEq, Repr

/-- A computation of a tile: it changes the hardware and may stop. -/
abbrev T (α : Type) := ExceptT Stop (StateM Hw) α

/-- Stops unless a condition holds. -/
def need (c : Bool) (s : Stop) : T Unit := if c then pure () else throw s

/-- A free word of 32 bits (R9). -/
def freeT : T Nat := do
  let (w, h) := (← get).free
  set h
  pure (w.toNat % 2 ^ 32)

/-- Consumes stained data (R105, R106). -/
def useClean (stained : Bool) : T Unit := if stained then throw .consumed else pure ()

/-- `ILLEGAL` and `DESC` (R98). -/
def illegal (info : Nat) : Stop := .exc 1 info
def descErr (info : Nat) : Stop := .exc 3 info

/-- A TOD header (R81). -/
structure Header where
  opc : Nat
  autoLevel : Bool
  sr : Bool
  keep : Bool
  hold : Bool
  level : Nat
  pred : Nat
  pneg : Bool
  fmtA : Nat
  fmtB : Nat
  fmtOut : Nat
  lc : Nat
  loopEn : Bool
  back : Nat
  param : Nat
  wait : Nat
  deriving DecidableEq, Repr

/-- Reads a TOD header (R81).  Reserved bits are ignored (R15; log entry 13). -/
def header (d : List Byte) : Header :=
  let f := field d 1 1
  let l := field d 6 2
  { opc := field d 0 1, autoLevel := bit f 0, sr := bit f 1, keep := bit f 2, hold := bit f 3,
    level := field d 2 1, pred := bits (field d 3 1) 0 3, pneg := bit (field d 3 1) 3,
    fmtA := bits (field d 4 1) 0 4, fmtB := bits (field d 4 1) 4 4, fmtOut := bits (field d 5 1) 0 4,
    lc := bits l 0 2, loopEn := bit l 2, back := bits l 3 10, param := field d 8 8, wait := bits f 4 4 }

/-- An operand slot (R83), with its index (0 A, 1 B, 2 D): every field of the four kinds. -/
structure Opnd where
  ix : Nat
  kind : Nat
  offset : Nat
  base : Nat
  d0 : Nat
  d1 : Nat
  d2 : Nat
  s1 : Nat
  s2 : Nat
  scale : Nat
  va : Nat
  rowBytes : Nat
  rows : Nat
  pitch : Nat
  x : Nat
  y : Nat
  x1 : Nat
  y1 : Nat
  slot : Nat
  bytes : Nat
  deriving DecidableEq, Repr

/-- Reads operand slot `ix` of a TOD (R83). -/
def opnd (d : List Byte) (ix : Nat) : Opnd :=
  let o := 16 + 16 * ix
  let w := field d o 4
  let f (i n : Nat) : Nat := field d (o + i) n
  { ix := ix, kind := bits w 24 4, offset := bits w 0 19, base := bits w 19 4,
    d0 := f 4 2, d1 := f 6 2, d2 := f 8 2, s1 := f 10 2, s2 := f 12 2, scale := bits (f 14 2) 0 14,
    va := f 4 6, rowBytes := f 10 2, rows := f 12 2, pitch := f 14 2,
    x := bits (f 4 1) 0 5, y := bits (f 5 1) 0 5, x1 := bits (f 6 1) 0 5, y1 := bits (f 7 1) 0 5,
    slot := bits (f 8 1) 0 4, bytes := f 10 4 }

/-- Checks an operand's kind against the kinds that its entry admits, and its counts (R83, R85). -/
def Opnd.demand (o : Opnd) (ks : List Nat) : T Unit := do
  need (decide (o.kind ≤ 4)) (illegal o.ix)
  need (ks.contains o.kind) (descErr o.ix)
  match o.kind with
  | 1 => need (o.d0 ≠ 0 && o.d1 ≠ 0 && o.d2 ≠ 0) (descErr o.ix)
  | 2 => need (o.rowBytes ≠ 0 && o.rows ≠ 0) (descErr o.ix)
  | 3 => need (o.d0 ≠ 0 && o.d1 ≠ 0 && decide (o.d0 * o.d1 + bits o.offset 0 10 ≤ 1024)) (descErr o.ix)
  | 4 => need (o.bytes ≠ 0 && decide (o.bytes ≤ 524288)) (descErr o.ix)
  | _ => pure ()

/-- The first accumulator of a kind-3 operand. -/
def Opnd.acc (o : Opnd) : Nat := bits o.offset 0 10

/-- The logical tile that a kind-4 operand names. -/
def Opnd.tile (o : Opnd) : Nat := 32 * o.y + o.x

/-- The slice that a tile runs; the operations below are only reached with one. -/
def sliceT (t : Nat) : T Slice := do
  let h ← get
  match (h.tile t).slice with
  | some s => pure s
  | none => throw .consumed

/-- The value of scalar register `i`, with its stain; s0 reads zero. -/
def Seq.scalar (q : Seq) (i : Nat) : Nat × Bool :=
  if i = 0 then (0, false) else (q.s.getD i 0, q.sStain.getD i false)

/-- The base that a kind-1, kind-2 or kind-4 operand adds; a stained base is consumed as an address
(R83, R105). -/
def Opnd.baseVal (o : Opnd) (t : Nat) : T Nat := do
  let (v, st) := ((← get).tile t).seq.scalar o.base
  useClean st
  pure v

/-- The SRAM address of a kind-1 operand, or the remote one of a kind-4 operand. -/
def Opnd.addr (o : Opnd) (t : Nat) : T Nat := do pure ((o.offset + (← o.baseVal t)) % 2 ^ 32)

/-- Reads SRAM for the slice, as a move: bytes with their stain. -/
def rdT (t a n : Nat) : T (List SByte) := do
  let s ← sliceT t
  let h ← get
  let (bs, h) := h.rdSram t s.pid a n
  set h
  pure bs

/-- Reads SRAM for the slice as an arithmetic, address or control use (R105). -/
def useT (t a n : Nat) : T (List Byte) := do
  let bs ← rdT t a n
  useClean (bs.any (·.2))
  pure (bs.map (·.1))

/-- Writes SRAM for the slice. -/
def wrT (t a : Nat) (bs : List SByte) : T Unit := do
  let s ← sliceT t
  modify fun h => h.wrSram t s.pid a bs

/-- Writes an operation's rows: the granules that its rows together overwrite with unstained data lose their stain
(R105). -/
def wrRows (t : Nat) (rows : List (Nat × List SByte)) : T Unit := do
  let s ← sliceT t
  modify fun h => (rows.foldl (fun h r => h.wrSram t s.pid r.1 r.2) h).sealRows t s.pid rows

/-- A row that an operation writes to an address as it comes, for the rows that it has written so far (R105). -/
def wrRow (t a : Nat) (bs : List SByte) : T (Nat × List SByte) := do
  wrT t a bs
  pure (a, bs)

/-- The end of an operation that wrote rows one after another: the granules that they together overwrite with unstained
data lose their stain (R105). -/
def sealT (t : Nat) (rows : List (Nat × List SByte)) : T Unit := do
  let s ← sliceT t
  modify fun h => h.sealRows t s.pid rows

/-- The bytes of one row of `n` elements in a format (R111). -/
def rowLen (c n : Nat) : Nat := n * fmtBits c / 8

/-- Whether a row of `n` elements can be packed (R111, R112). -/
def packable (c n : Nat) : Bool :=
  (fmtBits c ≠ 4 || n % 2 == 0) && (fmtBits c ≠ 6 || n % 4 == 0) && (! isMx c || n % 32 == 0)

/-- The packing rule as a check of an operand. -/
def Opnd.packs (o : Opnd) (c : Nat) : T Unit := need (packable c o.d0) (descErr o.ix)

/-- The rows of a kind-1 operand as offsets from its address, `DIM1` fastest. -/
def Opnd.rowOffs (o : Opnd) : List Nat :=
  (List.range o.d2).flatMap fun k => (List.range o.d1).map fun j => j * o.s1 + 32 * k * o.s2

/-- The encodings that a row of bytes holds (R111). -/
def unpack (c n : Nat) (bs : List Byte) : List Nat :=
  let w := leNat bs
  let b := fmtBits c
  (List.range n).map fun i => bits w (b * i) b

/-- The bytes of a row of encodings (R111). -/
def pack (c : Nat) (es : List Nat) : List Byte :=
  let b := fmtBits c
  let w := (es.foldr (fun e w => e + 2 ^ b * w) 0)
  leBytes (rowLen c es.length) w

/-- Reads the encodings of a kind-1 operand row by row, as a use. -/
def Opnd.encs (o : Opnd) (t c : Nat) : T (List Nat) := do
  o.packs c
  let a ← o.addr t
  let rows ← o.rowOffs.mapM fun r => do
    let bs ← useT t (a + r) (rowLen c o.d0)
    pure (unpack c o.d0 bs)
  pure rows.flatten

/-- The block scale bytes of an MX operand (R112), as a use. -/
def Opnd.scales (o : Opnd) (t : Nat) : T (List Byte) :=
  useT t (o.scale * 32) (o.d2 * o.d1 * (o.d0 / 32))

/-- The exact values of a kind-1 operand, `DIM0` fastest (R110 to R113). -/
def Opnd.vals (o : Opnd) (t c : Nat) : T (List Val) := do
  let es ← o.encs t c
  if isMx c then
    let sc ← o.scales t
    pure ((List.range es.length).map fun i =>
      scaled ((sc.getD (i / 32) 0).toNat) (elemVal c (es.getD i 0)))
  else pure (es.map (elemVal c))

/-- Writes encodings to a kind-1 operand row by row; what it writes is unstained. -/
def Opnd.putEncs (o : Opnd) (t c : Nat) (es : List Nat) : T Unit := do
  let a ← o.addr t
  let offs := o.rowOffs
  wrRows t ((List.range offs.length).map fun i =>
    (a + offs.getD i 0, withStain false (pack c ((es.drop (i * o.d0)).take o.d0))))

/-- Sets sticky flags (R133). -/
def flagsT (t : Nat) (inexact overflow : Bool) : T Unit :=
  if inexact || overflow then
    modify fun h => h.modSeq t fun q => { q with inexact := q.inexact || inexact, overflow := q.overflow || overflow }
  else pure ()

/-- The rounding of output element `e` (R131, R132). -/
def rndOf (sr : Bool) (seed s13 e : Nat) : Rnd := if sr then .stoch (srDraw seed s13 e) else .rne

/-- Groups a list into blocks of 32. -/
def blocksOf {α : Type} : Nat → List α → List (List α)
  | 0, _ => []
  | n + 1, l => l.take 32 :: blocksOf n (l.drop 32)

/-- Converts values to a kind-1 operand's format and writes them (R125 to R132). -/
def Opnd.putVals (o : Opnd) (t : Nat) (hd : Header) (vs : List Val) : T Unit := do
  o.packs hd.fmtOut
  let q := ((← get).tile t).seq
  let rv := (List.range vs.length).map fun e =>
    (vs.getD e Val.zero, rndOf hd.sr q.seed (q.s.getD 13 0) e)
  if isMx hd.fmtOut then
    let bl := (blocksOf (vs.length / 32) rv).map (toMxBlock hd.fmtOut)
    o.putEncs t hd.fmtOut (bl.flatMap (·.2.1))
    wrT t (o.scale * 32) (withStain false (bl.map fun b => BitVec.ofNat 8 b.1))
    flagsT t false (bl.any (·.2.2))
  else
    let es := rv.map fun v => toElem hd.fmtOut v.2 v.1
    o.putEncs t hd.fmtOut (es.map (·.1))
    flagsT t false (es.any (·.2))

/-- As `putVals`, with the overflow of the conversion of operands beforehand (R126, R129, R133). -/
def Opnd.putOver (o : Opnd) (t : Nat) (hd : Header) (ovf : Bool) (vs : List Val) : T Unit := do
  o.packs hd.fmtOut
  flagsT t false ovf
  o.putVals t hd vs

/-- The reading level λ of a TOD (R116); an auto level in a job that has completed no `LEVEL_RECV` on
the tile is a free value (R86). -/
def levelT (t : Nat) (hd : Header) : T Int := do
  if hd.autoLevel then
    let s ← sliceT t
    let h ← get
    if (h.tile t).lvlJobs.contains (s.pid, s.seq) then pure (sx 8 (h.tile t).seq.lvl)
    else
      let (w, h) := h.free
      set h
      pure (sx 8 w.toNat)
  else pure (sx 8 hd.level)

/-- A tile accumulator. -/
def Tile.acc (x : Tile) (i : Nat) : Acc := x.accs.getD Acc.zero i

/-- Sets a tile accumulator. -/
def setAccT (t i : Nat) (a : Acc) : T Unit :=
  modify fun h => h.modTile t fun x => { x with accs := x.accs.putD Acc.zero i a }

/-- Clears `n` accumulators from `i`. -/
def clearAccs (t i n : Nat) : T Unit :=
  modify fun h => h.modTile t fun x => { x with accs := x.accs.filter fun e => ! (decide (i ≤ e.1) && decide (e.1 < i + n)) }

/-- Adds lists of terms into accumulators from index `f` on, one list for each (R118, R624). -/
def addAccs (t f : Nat) (lam : Int) (terms : List (List Val)) : T Unit :=
  (List.range terms.length).forM fun i => do
    let a := ((← get).tile t).acc (f + i)
    let (b, inx) := a.addTerms lam (terms.getD i [])
    setAccT t (f + i) b
    flagsT t inx false

/-- Whether a format code is one of the 4-bit ones. -/
def is4 (c : Nat) : Bool := c == 0 || c == 0xB

/-- Whether a format code is FP16 or BF16. -/
def is16 (c : Nat) : Bool := c == 0xD || c == 0xE

/-- The most output columns of a MAC operation (R114). -/
def macN (a b : Nat) : Nat := if is4 a && is4 b then 64 else 32

/-- The formats of a MAC operation (R114): INT32 and FP32 raise `DESC`. -/
def macFmts (hd : Header) : T Unit := do
  need (hd.fmtA ≠ 2 && hd.fmtA ≠ 0xF) (descErr 0)
  need (hd.fmtB ≠ 2 && hd.fmtB ≠ 0xF) (descErr 1)

end Sys2Proof.Machine
end

