-- ==== Sys2Proof/Machine/SheetOps.lean ====
section
/-! DEFINITION. The sheet pool, sequences and the page-list walk (R248 to R273): the operations that the
tiles, the sequence commands and the gazetteer share. -/

namespace Sys2Proof.Machine

open Sys2Proof

/-- Bytes of one latent element: 1 for the FP8 formats, 2 for BF16 (R249). -/
def SeqRec.elem (s : SeqRec) : Nat := if s.fmt = 0xE then 2 else 1

/-- `RANK`. -/
def SeqRec.rank (s : SeqRec) : Nat := 2 ^ s.log2Rank

/-- Bytes of one token's latent. -/
def SeqRec.tokenBytes (s : SeqRec) : Nat := s.rank * s.elem

/-- TPS, the tokens of a sheet (R249). -/
def SeqRec.tps (s : SeqRec) : Nat := 65536 / s.tokenBytes

/-- MAXS (R264). -/
def SeqRec.maxs (s : SeqRec) : Nat := cdiv s.cap s.tps

/-- The key of a partition's sequence handle. -/
def seqKey (pid hd : Nat) : Nat := pid * 65536 + hd

/-- A partition's live sequence. -/
def Hw.seqOf (h : Hw) (pid hd : Nat) : Option SeqRec := h.kv.seqs.find (seqKey pid hd)

/-- Sets a sequence record. -/
def Hw.setSeq (h : Hw) (pid hd : Nat) (s : SeqRec) : Hw :=
  { h with kv := { h.kv with seqs := h.kv.seqs.put (seqKey pid hd) s } }

/-- Sets a sheet record. -/
def Hw.setSheet (h : Hw) (n : Nat) (r : SheetRec) : Hw :=
  { h with kv := { h.kv with sheets := h.kv.sheets.putD SheetRec.free n r } }

/-- Whether a sheet is a partition's own, outside the gazetteer, and held (R265, R266). -/
def Hw.ownSheet (h : Hw) (pid n : Nat) : Bool :=
  let r := h.sheet n
  h.sheetExists n && r.owner == pid && ! r.gaz && decide (1 ≤ r.ref)

/-- The sheets charged to a partition, reserved ones included (R261). -/
def Hw.sheetsHeld (h : Hw) (pid : Nat) : Nat := h.kv.sheets.countP fun e => e.2.owner == pid

/-- Whether a sheet can be handed out: free and zero-filled (R261). -/
def Hw.sheetFree (h : Hw) (n : Nat) : Bool :=
  let r := h.sheet n
  h.sheetExists n && r.owner == 0 && ! r.gaz && ! r.reserved && r.ref == 0 && r.zeroed

/-- The first free sheet of a part from sheet `lo` on; the record lists every sheet that is not free, so
one beyond its length is.  A part's free sheets are linked in rising order (R259, log entry 55). -/
def Hw.findSheet (h : Hw) (lo : Nat) : Option Nat :=
  (upto lo (h.kv.sheets.length + 1)).find? h.sheetFree

/-- `LINK` of a sheet (R259): of a free sheet the next free one, 0 after the last; else what its record holds. -/
def Hw.sheetLink (h : Hw) (n : Nat) : Nat := if h.sheetFree n then (h.findSheet (n + 1)).getD 0 else (h.sheet n).link

/-- The 8 bytes of a sheet's record (R259). -/
def Hw.sheetBytes (h : Hw) (n : Nat) : List Byte :=
  let r := h.sheet n
  leBytes 2 r.ref ++ leBytes 1 r.owner ++ leBytes 1 (b2n r.gaz + 2 * b2n r.zeroed + 4 * b2n r.reserved) ++
  leBytes 4 (h.sheetLink n)

/-- Takes a sheet from a partition's quota, from the STRIPED part for class D (R258, R261). -/
def Hw.takeSheet (h : Hw) (pid : Nat) (r : SheetRec) : Option (Nat × Hw) :=
  match h.part pid with
  | some p =>
    if h.sheetsHeld pid < p.sheetQuota then
      (h.findSheet (if p.cls = 0 then 0x8000_0001 else 1)).map fun n =>
        (n, h.setSheet n { r with owner := pid, zeroed := false })
    else none
  | none => none

/-- A sheet becomes free; it is handed out again only after its zero-fill (R261). -/
def Hw.freeSheet (h : Hw) (n : Nat) : Hw := h.setSheet n { SheetRec.free with zeroed := false }

/-- Releases a page-list entry's sheet (R266). -/
def Hw.releaseSheet (h : Hw) (pid n : Nat) : Hw :=
  if h.ownSheet pid n then
    let r := h.sheet n
    if r.ref = 1 then h.freeSheet n else h.setSheet n { r with ref := r.ref - 1 }
  else h

/-- The virtual address of a page-list entry (R264). -/
def SeqRec.entryVa (s : SeqRec) (layer i : Nat) : Nat := s.plVa + 4 * (layer * s.maxs + i)

/-- Why a walk fails (R272): status, and the event to raise. -/
inductive WalkErr where
  | page (cause : Nat)
  | handle
  | sheet
  | quota
  | stained
  | tokens (dim : Nat)
  deriving DecidableEq, Repr

/-- Reads a page-list entry as the walker does: through the partition's context, from a page with `R`
and `TE` (R264, R272). -/
def Hw.readEntry (h : Hw) (pid : Nat) (s : SeqRec) (layer i : Nat) : Except WalkErr Nat × Hw :=
  match h.readVa 1 pid (s.entryVa layer i) 4 .table with
  | (.error (_, c), h) => (.error (.page c), h)
  | (.ok (bs, st), h) => (if st then .error .stained else .ok (leNat bs), h)

/-- Writes a page-list entry through the partition's context with PID 0, whatever `W` holds (R264). -/
def Hw.writeEntryPl (h : Hw) (pid : Nat) (s : SeqRec) (layer i n : Nat) : Hw :=
  match h.mem.translateRun pid (s.entryVa layer i) 4 .rd true with
  | .ok ps => h.writePieces 0 (leBytes 4 n) false ps
  | .error (a, c) => h.translationFault 1 c pid a

/-- The event of a failed walk (R272): a translation failure has raised its own; the others of the
security group are raised with the walker as agent (log entry 14). -/
def Hw.walkEvent (h : Hw) (t pid hd : Nat) : WalkErr → Hw
  | .page _ => h
  | .handle => h.event srcPmmu 0x0803 pid 1
  | .sheet => h.event srcPmmu 0x0803 pid (1 + 4 * 8)
  | .quota => h.event (srcTile t) 0x010A pid hd
  | .stained => h
  | .tokens _ => h

/-- The status and detail of a failed walk at the entry address `va` (R178, R213, R272). -/
def WalkErr.status (va : Nat) : WalkErr → Nat × Nat
  | .page c => pageStatus (va, c)
  | .stained => (0x3001, 0)
  | _ => (0x3002, 0)

/-- Tokens of the DRAM bucket of a PID at a channel's port (R60). -/
def Hw.dramTokens (h : Hw) (pid ch : Nat) : Nat := h.stn.dramTokens.getD 0 (ch * 256 + pid)

/-- Marks a PID's budget dimension as reached in this stroke or coat (R62), by the
`DIM` codes of `STN_EXH_SEL` (R72): 0 DRAM, 1 D2D, 2 command processor, 3 application core, 4 Traverse,
5 fusion. -/
def Hw.noteExhausted (h : Hw) (pid dim : Nat) : Hw :=
  let k := pid * 8 + dim
  if h.stn.exhMark.contains k then h
  else { h with stn := { h.stn with exhMark := NSet.add h.stn.exhMark k,
                                    exhausted := h.stn.exhausted.mod 0 k fun n => min (n + 1) 0xFFFF_FFFF } }

/-- The channels and bytes that a line of a run costs (R60, R428): a PLAIN line or a STRIPED read its own 64 bytes; a
STRIPED write the old and new line at its share, P and Q, but 64 bytes at each of eight shares when the run covers
the whole stripe. -/
def Mem.lineCost (m : Mem) (wr : Bool) (a n l : Nat) : List (Nat × Nat) :=
  if dramEnd ≤ l * 64 then []
  else match m.stripeOf (l * 64) with
  | none => [(channelOf (l * 64), 64)]
  | some (x, k, j) =>
    let first := l * 64 - k * 2048 - j
    let c := x.channel (x.device k)
    let pq := [x.channel (x.number % 128 % 8), x.channel ((x.number % 128 + 1) % 8)]
    if ! wr then [(c, 64)]
    else if a ≤ first ∧ first + 12288 ≤ a + n then (c, 64) :: (if k = 0 then pq.map fun y => (y, 64) else [])
    else (c, 128) :: pq.map fun y => (y, 128)

/-- The DRAM bytes that runs of DPAs take at each channel, in whole lines. -/
def Mem.channelCosts (m : Mem) (wr : Bool) (runs : List (Nat × Nat)) : SMap Nat :=
  runs.foldl (fun s r => (lines r.1 r.2).foldl (fun s l =>
    (m.lineCost wr r.1 r.2 l).foldl (fun s e => SMap.mod 0 s e.1 (· + e.2)) s) s) []

/-- Takes a transfer's bytes from the partition's buckets at its memory ports, or answers `none` when a
bucket holds too few (R60, R61); PID 0 has no bucket. -/
def Hw.chargeDram (h : Hw) (pid : Nat) (runs : List (Nat × Nat)) (wr : Bool) : Option Hw :=
  if pid = 0 then some h
  else
    let cs := h.mem.channelCosts wr runs
    if cs.all fun e => decide (e.2 ≤ h.dramTokens pid e.1) then
      some { h with stn := { h.stn with dramTokens := cs.foldl (fun m e =>
        SMap.putD 0 m (e.1 * 256 + pid) (h.dramTokens pid e.1 - e.2)) h.stn.dramTokens } }
    else none

/-- The lines of 64 bytes that a range of addresses touches, each with whether it is written. -/
def linesOf (va n : Nat) (wr : Bool) : List (Nat × Bool) :=
  if n = 0 then [] else (upto (va / 64) ((va + n - 1) / 64 + 1 - va / 64)).map fun l => (l, wr)

/-- A line's bytes from the partition's buckets (R60); a line that does not translate costs nothing. -/
def Hw.payLine (h : Hw) (pid : Nat) (l : Nat × Bool) : Option Hw :=
  match h.mem.translateRun pid (64 * l.1) 64 (if l.2 then .wr else .rd) true with
  | .error _ => some h
  | .ok ps => h.chargeDram pid ps l.2

/-- Pays for lines until a bucket holds too few; how many were paid. -/
def Hw.payLines (h : Hw) (pid : Nat) : List (Nat × Bool) → Nat × Hw
  | [] => (0, h)
  | l :: ls =>
    match h.payLine pid l with
    | none => (0, h.noteExhausted pid 0)
    | some h => let (n, h) := h.payLines pid ls; (n + 1, h)

/-- Tokens of the D2D bucket of a PID at an edge direction (R60). -/
def Hw.edgeTokens (h : Hw) (pid dir : Nat) : Nat := h.stn.d2dTokens.getD 0 (dir * 256 + pid)

/-- The edge directions, counted from 0, that a way from one die to another crosses, x first (R148, R436). -/
def edgePath (a b : Nat) : List Nat :=
  (if a % 2 = b % 2 then [] else [2 * (a / 2) + a % 2]) ++
  (if a / 2 = b / 2 then [] else [2 * (2 + b % 2) + a / 2])

/-- The flits that DMA runs of a tile on a die send over each edge direction (R60, R144): per granule piece a
request of one flit and a response of its data, or a write of its data and an acknowledgement. -/
def Mem.edgeCosts (m : Mem) (die : Nat) (wr : Bool) (runs : List (Nat × Nat)) : SMap Nat :=
  runs.foldl (fun s r =>
    (if r.2 = 0 then [] else upto (r.1 / 2048) ((r.1 + r.2 - 1) / 2048 - r.1 / 2048 + 1)).foldl (fun s g =>
      let lo := max r.1 (g * 2048)
      let n := (lines lo (min (r.1 + r.2) (g * 2048 + 2048) - lo)).length
      match m.portDie lo with
      | none => s
      | some d =>
        let s := (edgePath die d).foldl (fun s e => SMap.mod 0 s e (· + if wr then n + 1 else 1)) s
        (edgePath d die).foldl (fun s e => SMap.mod 0 s e (· + if wr then 1 else n)) s) s) []

/-- Takes flits from a partition's buckets at the edges, or answers `none` (R60, R61). -/
def Hw.chargeEdges (h : Hw) (pid : Nat) (cs : SMap Nat) : Option Hw :=
  if pid = 0 then some h
  else if cs.all fun e => decide (e.2 ≤ h.edgeTokens pid e.1) then
    some { h with stn := { h.stn with d2dTokens := cs.foldl (fun m e =>
      SMap.putD 0 m (e.1 * 256 + pid) (h.edgeTokens pid e.1 - e.2)) h.stn.d2dTokens } }
  else none

/-- The channels whose bucket of a PID holds too few tokens for a transfer (R60). -/
def Hw.shortPorts (h : Hw) (pid : Nat) (runs : List (Nat × Nat)) (wr : Bool) : List Nat :=
  ((h.mem.channelCosts wr runs).filter fun e => decide (h.dramTokens pid e.1 < e.2)).map (·.1)

/-- Whether an earlier request of a partition waits at one of a transfer's ports (R151): in the station's queue, or as the
request of another tile's slice that found too few tokens. -/
def Hw.portsBusy (h : Hw) (t pid : Nat) (runs : List (Nat × Nat)) (wr : Bool) : Bool :=
  (h.mem.channelCosts wr runs).any fun e =>
    ! (h.fab.stationQ.getD [] (e.1 * 256 + pid)).isEmpty ||
    (List.range 1152).any fun u => u ≠ t && (h.tile u).slice.any fun s =>
      s.state == .running && s.pid == pid && s.portsHeld.contains e.1

/-- Takes a tile's transfer from its partition's buckets at the memory ports and the edges, or answers the
dimension for which it waits (R60, R62, R151). -/
def Hw.chargeDma (h : Hw) (t pid : Nat) (runs : List (Nat × Nat)) (wr : Bool) : Except Nat Hw :=
  if h.portsBusy t pid runs wr then .error 0
  else match h.chargeDram pid runs wr with
  | none => .error 0
  | some h' =>
    match h'.chargeEdges pid (h.mem.edgeCosts (t / 288) wr runs) with
    | none => .error 1
    | some h'' => .ok h''

/-- A tile's transfer waits (R62, R65, R151): it counts toward its partition's exhausted buckets, and its slice's request
holds later ones of the partition at the ports that lack tokens. -/
def Hw.noteShort (h : Hw) (t pid dim : Nat) (runs : List (Nat × Nat)) (wr : Bool) : Hw :=
  if dim ≠ 0 then h.noteExhausted pid dim
  else
    let cs := h.shortPorts pid runs wr
    let h := if cs.isEmpty then h else h.noteExhausted pid 0
    h.modTile t fun x => { x with slice := x.slice.map fun s => { s with portsHeld := s.portsHeld ++ cs } }

/-- Copies a sheet's 64 KiB with its stain. -/
def Hw.copySheet (h : Hw) (src dst : Nat) : Hw :=
  (List.range 1024).foldl (fun h i =>
    let (bs, st, h) := h.load (h.sheetDpa src + 64 * i) 64
    h.store (h.sheetDpa dst + 64 * i) bs st) h

/-- The key of a page-list index: layer × 2^20 + index. -/
def plKey (layer i : Nat) : Nat := layer * 1048576 + i

/-- The sheet that a tile's walk has reserved for an index of a sequence, with the sheet copied into it (R268). -/
def Hw.reservedFor (h : Hw) (t sk pk : Nat) : Option (Nat × Nat) :=
  (h.kv.reserved.find? fun r => r.1 == t && r.2.1 == sk && r.2.2.1 == pk).map (·.2.2.2)

/-- A copy of a sheet draws on the partition's buckets at the memory ports (R60, R268): the state with its bytes taken, or the
dimension that lacks them. -/
def Hw.chargeCopy (h : Hw) (t pid src dst : Nat) : Except (Nat × Hw) Hw :=
  match h.chargeDma t pid [(h.sheetDpa src, 65536)] false with
  | .error d => .error (d, h.noteShort t pid d [(h.sheetDpa src, 65536)] false)
  | .ok h' =>
    match h'.chargeDma t pid [(h.sheetDpa dst, 65536)] true with
    | .error d => .error (d, h.noteShort t pid d [(h.sheetDpa dst, 65536)] true)
    | .ok h => .ok h

/-- Drops a reservation's note; the sheet itself is dealt with by the caller. -/
def Hw.unreserve (h : Hw) (t sk pk : Nat) : Hw :=
  { h with kv := { h.kv with reserved := h.kv.reserved.filter fun r => ! (r.1 == t && r.2.1 == sk && r.2.2.1 == pk) } }

/-- The walker resolves one sheet of a page-list store when the store issues (R268): it reserves a sheet
when the entry is 0 or the sheet is shared, and copies the shared one into it, once the buckets hold the copy's bytes. -/
def Hw.walkStore (h : Hw) (t pid hd : Nat) (s : SeqRec) (layer i : Nat) : Except WalkErr Unit × Hw :=
  match h.readEntry pid s layer i with
  | (.error e, h) => (.error e, h)
  | (.ok n, h) =>
    if n ≠ 0 && ! h.sheetReadable pid n then (.error .sheet, h)
    else
      let r := h.sheet n
      if n ≠ 0 && decide (r.ref ≤ 1) && ! r.gaz then (.ok (), h)
      else if (h.reservedFor t (seqKey pid hd) (plKey layer i)).isSome then (.ok (), h)
      else
        match h.takeSheet pid { SheetRec.free with reserved := true } with
        | none => (.error .quota, h)
        | some (m, h') =>
          let h' := { h' with kv := { h'.kv with reserved := h'.kv.reserved ++ [(t, seqKey pid hd, plKey layer i, m, n)] } }
          if n = 0 then (.ok (), h')
          else
            match h'.chargeCopy t pid n m with
            | .error (d, h) => (.error (.tokens d), h)
            | .ok h' => (.ok (), h'.copySheet n m)

/-- The sheet with which a store at an index goes on when the sequencer resolves it (R269): the entry is
made to name a sheet that is the partition's own and unshared. -/
def Hw.resolveStore (h : Hw) (t pid hd : Nat) (s : SeqRec) (layer i : Nat) : Except WalkErr Nat × Hw :=
  let sk := seqKey pid hd
  let pk := plKey layer i
  let install (m : Nat) (h : Hw) : Hw :=
    let h := h.setSheet m { SheetRec.free with ref := 1, owner := pid, zeroed := false }
    (h.writeEntryPl pid s layer i m).unreserve t sk pk
  match h.readEntry pid s layer i with
  | (.error e, h) => (.error e, h)
  | (.ok n, h) =>
    if n = 0 then
      match h.reservedFor t sk pk with
      | some (m, 0) => (.ok m, install m h)
      | _ =>
        match h.takeSheet pid SheetRec.free with
        | some (m, h) => (.ok m, install m h)
        | none => (.error .quota, h)
    else if ! h.sheetReadable pid n then (.error .sheet, h)
    else
      let r := h.sheet n
      if ! r.gaz && decide (r.ref ≤ 1) then
        match h.reservedFor t sk pk with
        | some (m, _) => (.ok n, (h.freeSheet m).unreserve t sk pk)
        | none => (.ok n, h)
      else
        let old (h : Hw) : Hw := if r.gaz then h else h.setSheet n { h.sheet n with ref := (h.sheet n).ref - 1 }
        match h.reservedFor t sk pk with
        | some (m, from_) => (.ok m, old (install m (if from_ = n then h else h.copySheet n m)))
        | none =>
          match h.takeSheet pid SheetRec.free with
          | some (m, h) => (.ok m, old (install m (h.copySheet n m)))
          | none => (.error .quota, h)

/-- One token as the walker reads it (R271 to R273): bytes with the stain of their flits of 64 bytes (R105, R420), zero beyond `LEN` and where
the entry is 0. -/
def Hw.walkToken (h : Hw) (pid : Nat) (s : SeqRec) (layer pos : Nat) : Except WalkErr (List SByte) × Hw :=
  if s.cap ≤ pos then (.error .handle, h)
  else if s.lenAtStart ≤ pos then (.ok (withStain false (zeros s.tokenBytes)), h)
  else
    match h.readEntry pid s layer (pos / s.tps) with
    | (.error e, h) => (.error e, h)
    | (.ok n, h) =>
      if n = 0 then (.ok (withStain false (zeros s.tokenBytes)), h)
      else if ! h.sheetReadable pid n then (.error .sheet, h)
      else
        let a := h.sheetDpa n + pos % s.tps * s.tokenBytes
        let (bs, _, h) := h.load a s.tokenBytes
        (.ok ((List.range bs.length).map fun i =>
          (bs.getD i 0, h.gStained ((a + i) / 64 * 2) || h.gStained ((a + i) / 64 * 2 + 1))), h)

/-- The runs of DPAs that a walk over tokens reads, for the buckets; tokens that read as zero take
none. -/
def Hw.walkRuns (h : Hw) (pid : Nat) (s : SeqRec) (layer pos n : Nat) : List (Nat × Nat) :=
  (upto pos n).flatMap fun p =>
    if s.lenAtStart ≤ p ∨ s.cap ≤ p then []
    else
      match (h.readEntry pid s layer (p / s.tps)).1 with
      | .ok m => if m = 0 ∨ ! h.sheetReadable pid m then [] else
          [(h.sheetDpa m + p % s.tps * s.tokenBytes, s.tokenBytes)]
      | .error _ => []

end Sys2Proof.Machine
end

