-- ==== Sys2Proof/Machine/State.lean ====
section
/-! DEFINITION. The state of the block: the hardware, and the queue of commands that wait. -/

namespace Sys2Proof.Machine

open Sys2Proof

/-- Why a step stops with a fault.  No command of this module stops it: what the manual reports, it
reports in registers, events and completions, which are effects. -/
inductive Fault where
  /-- Raised by nobody; safe. -/
  | none
  deriving DecidableEq, Repr

/-- Why a step answers no meaning. -/
inductive Refusal where
  /-- The command has no meaning in this model yet; safe, since nothing is claimed of it. -/
  | notModelled (mnemonic : String)
  deriving DecidableEq, Repr

/-- The state: the commands that wait, first in, first out, and the hardware. -/
structure State where
  pending : List Instr
  hw : Hw
  deriving DecidableEq, Repr

/-- The firmware stencil (R58): L 1,000, `PHASE` 0, `STENCIL_ID` 0, no partition row and no trigger, and
two PID 0 windows without a tile set: SELFTEST at strokes 0 to 7 and QUIET at strokes 960 to 999. -/
def Stencil.firmware : Stencil :=
  { coatLen := 1000, phase := 0, id := 0, parts := [],
    acts := [{ pid := 0, kind := 2, duplex := false, fragTag := 0 },
             { pid := 0, kind := 1, duplex := false, fragTag := 0 }],
    tsets := [],
    wins := [{ start := 0, count := 8, act := 0, tset := 0x3FF, dramBytes := 0, d2dFlits := 0, fMin := 400,
               partner := 0xFFFF },
             { start := 960, count := 40, act := 1, tset := 0x3FF, dramBytes := 0, d2dFlits := 0,
               fMin := 400, partner := 0xFFFF }],
    trigs := [] }

/-- The memory at reset: no byte listed, every frame UNINIT, no context maps anything (R170, R422). -/
def Mem.reset : Mem := { cells := [], stain := [], written := [], frames := [], sets := [], ctxs := [], chStain := [], chClear := [] }

/-- The configuration image that the module holds before an integrator's has been written: an owner
queue of 256 slots at virtual address 0, no sheet pool, no wake source (log entry 12). -/
def Cfg.reset : Cfg :=
  { identity := [], ownerQueue := { sqVa := 0, cqVa := 0, mirrorVa := 0, log2Size := 8, vector := 0 },
    sources := [], ownerPages := [], evtRing := none, nPlain := 0, nStriped := 0, plainFrame := 0,
    stripedFrame := 0, camLid := [], lidRoles := [], pcieRoles := [], can := [], statusMac := 0,
    memberMac := 0, timeSrc := 0, pwrLimit := 0x6EE, apcFloor := 0x0808_0808, pwrLock := false, parkDelay := 0,
    offDelay := 0 }

/-- The hardware right after PORST: every register at its reset value. -/
def Hw.reset : Hw :=
  { regs := [], freeIx := 0, rndIx := 0, mem := Mem.reset, parts := [], cmds := [], fetched := [],
    mram := [], sobs := [], watches := [],
    evt := { staged := [], lost := [], lastServed := 0, vector := 0, vectorAt := none, wroteAt := none },
    stn := { active := Stencil.firmware, shadow := none, swapAt := none, swapCmd := none, budgets := [],
             bridgeEnd := none, bridgeLen := 0, cpOps := [], fusCycles := [], apcBytes := [],
             dramTokens := [], d2dTokens := [], trvTokens := [], exhausted := [], exhMark := [],
             everSwapped := false, coatDone := none },
    vec := { raised := [], oldRoutes := [] }, tiles := [],
    fab := { rowMask := [], retired := [], badRouter := [], headerBad := [], mramRetired := [], vacant := [],
             redirects := [], relocs := [], admitted := [], inq := [], local_ := [],
             station := [], edgeQ := [], outSeq := [], outTurn := [], barriers := [], stationQ := [], responses := [],
             retryMarks := [], heldBack := [], modules := [], unplaced := [], dfinUsed := [], dfinTurn := [] },
    models := [], jobs := [], dup := [], kv := { seqs := [], sheets := [], reserved := [], gaz := { nodes := [], table := [], entries := [] } },
    cfg := Cfg.reset, msix := [], gfiles := [], outs := [], health := [], scores := [], watch := [], advised := [], healthAt := 0, coatLog := [], freezeReq := false,
    seqStopped := false, detected := [], dfin := [],
    ing := { streams := [], share := [], turn := 0, cams := [], pairs := [], pairAt := [], mgmtUp := [] },
    fus := { sets := [], batches := [], running := none, ranAt := none },
    datA := Datum.reset, datB := Datum.reset, trv := TrvHub.reset, sys := Sys.reset }

/-- The block right after reset: no command waits. -/
def State.reset : State := { pending := [], hw := Hw.reset }

/-- The next state in which the hardware has changed by `f` and the waiting commands are as before. -/
def State.next (f : Hw → Hw) (s : State) : Host.Outcome State Fault Refusal := .next { s with hw := f s.hw }

end Sys2Proof.Machine
end

