-- ==== Sys2Proof/Machine/Housekeeping.lean ====
section
/-! DEFINITION. The commands 0x00 to 0x13 but for `QUERY`: housekeeping and memory (R588, R589). -/

namespace Sys2Proof.Machine

open Sys2Proof

/-- The checks of `NOP` (R587). -/
def specNop : OpSpec :=
  { opc := 0x00 }

/-- `NOP` (R588): no effect. -/
def cmdNop (q : QRef) (p : Packet) (h : Hw) : Hw := h.issue specNop q p fun h c => h.done c 0

/-- The checks of `FENCE` (R587). -/
def specFence : OpSpec :=
  { opc := 0x01 }

/-- `FENCE` (R588): begins when every earlier command of the partition has completed
(`Hw.canBegin`). -/
def cmdFence (q : QRef) (p : Packet) (h : Hw) : Hw := h.issue specFence q p fun h c => h.done c 0

/-- The checks of `ECHO` (R587). -/
def specEcho : OpSpec :=
  { opc := 0x02 }

/-- `ECHO` (R588). -/
def cmdEcho (q : QRef) (p : Packet) (h : Hw) : Hw := h.issue specEcho q p fun h c => h.done c (c.f 16 8)

/-- Whether `MEM_FILL` names a physical range (R588). -/
def fillPhys (c : Cmd) : Bool := bit (c.f 30 1) 0

/-- The range of `MEM_FILL`: the low 6 bits, with `PHYS` the low 16, are ignored (R589). -/
def fillRange (c : Cmd) : Nat × Nat :=
  let g := if fillPhys c then 0x10000 else 64
  (c.f 16 6 / g * g, c.f 24 6 / g * g)

/-- The isolation check of `PHYS` (R588, R589): owner only, DRAM only, and every frame covered is
neither `FIRMWARE` nor MAPPED. -/
def fillFieldsOk (h : Hw) (c : Cmd) : Bool :=
  ! fillPhys c ||
    (c.pid == 0 &&
      let (a, n) := fillRange c
      decide (a + n ≤ dramEnd) &&
      (upto (a / 0x10000) (n / 0x10000)).all fun f =>
        let e := h.mem.frame f
        ! e.firmware && e.state ≠ 3)

/-- `PATTERN` repeated over `n` bytes, little-endian (R588). -/
def patternBytes (pat n : Nat) : List Byte :=
  ((List.range (cdiv n 8)).flatMap fun _ => leBytes 8 pat).take n

/-- Sets a filled frame CLEAN when it was UNINIT or DIRTY (R171). -/
def Mem.cleanFrame (m : Mem) (f : Nat) : Mem :=
  let e := m.frame f
  if e.state ≤ 1 then m.setFrame f { e with state := 2 } else m

/-- Takes a command processor's transfer from its partition's DRAM buckets (R60, R589), as far as they hold tokens: the
transfer itself is one step here. -/
def Hw.spendDram (h : Hw) (pid va n : Nat) (wr : Bool) : Hw :=
  if pid = 0 then h
  else match h.mem.translateRun pid va n (if wr then .wr else .rd) true with
  | .error _ => h
  | .ok ps =>
    let cs := h.mem.channelCosts wr ps
    let h := if cs.any fun e => decide (h.dramTokens pid e.1 < e.2) then h.noteExhausted pid 0 else h
    { h with stn := { h.stn with dramTokens := cs.foldl (fun m e =>
        SMap.putD 0 m (e.1 * 256 + pid) (h.dramTokens pid e.1 - e.2)) h.stn.dramTokens } }

/-- The effect of `MEM_FILL` (R589): writes the pattern, clears stain, and makes whole filled frames
CLEAN. -/
def fillEffect (h : Hw) (c : Cmd) : Hw :=
  let (a, n) := fillRange c
  let bs := patternBytes (c.f 32 8) n
  if fillPhys c then
    let h := { h with mem := (upto (a / 0x10000) (n / 0x10000)).foldl Mem.cleanFrame h.mem }
    (h.store a bs false).done c n
  else (h.spendDram c.pid a n true).doneWriting c a bs n

/-- The checks of `MEM_FILL` (R587). -/
def specMemFill : OpSpec :=
  { opc := 0x10, fields := fillFieldsOk }

/-- `MEM_FILL` (R588, R589). -/
def cmdMemFill (q : QRef) (p : Packet) (h : Hw) : Hw :=
  h.issue specMemFill q p fillEffect

/-- Copies lines of 64 bytes one after another; a stained source half stains the line it arrives in
(R420).  With overlapping ranges each line takes free bytes instead (R208). -/
def copyLines (c : Cmd) (src dst total : Nat) (overlap : Bool) : Nat → Hw → Hw
  | 0, h => h.done c total
  | k + 1, h =>
    let i := total / 64 - (k + 1)
    match h.cmdRead c.pid (src + 64 * i) 64 with
    | (.error e, h) => h.failPage c e
    | (.ok (bs, st), h) =>
      let (fb, h) := if overlap then h.freeBytes 8 else (bs, h)
      match h.cmdWrite c.pid (dst + 64 * i) fb st with
      | (some e, h) => h.failPage c e
      | (none, h) => copyLines c src dst total overlap k h

/-- The effect of `MEM_COPY` (R588, R589): the low 6 bits of addresses and length are ignored. -/
def copyEffect (h : Hw) (c : Cmd) : Hw :=
  let src := c.f 16 6 / 64 * 64
  let dst := c.f 24 6 / 64 * 64
  let n := c.f 32 6 / 64 * 64
  let h := (h.spendDram c.pid src n false).spendDram c.pid dst n true
  copyLines c src dst n (decide (src < dst + n) && decide (dst < src + n)) (n / 64) h

/-- The checks of `MEM_COPY` (R587). -/
def specMemCopy : OpSpec :=
  { opc := 0x11 }

/-- `MEM_COPY` (R588, R589). -/
def cmdMemCopy (q : QRef) (p : Packet) (h : Hw) : Hw := h.issue specMemCopy q p copyEffect

/-- Whether a context exists: context 0 and the contexts of partitions (R168). -/
def Hw.ctxExists (h : Hw) (c : Nat) : Bool := c == 0 || h.exists? c

/-- The result of `MEM_QUERY` (R588): bits 10:0 of the leaf, bit 11 for level 1, bit 12 `SHARED`. -/
def memQueryResult (h : Hw) (ctx va : Nat) : Nat :=
  match h.mem.leaf ctx va with
  | none => 0
  | some (e, sz) =>
    let a := bits e 12 36 * 0x1000
    let sh := (h.region a == .dram || h.region a == .scratch) && (h.mem.frame (frameOf a)).shared
    bits e 0 11 + 2048 * b2n (sz == 0x20_0000) + 4096 * b2n sh

/-- The checks of `MEM_QUERY` (R587). -/
def specMemQuery : OpSpec :=
  { opc := 0x13, fields := fun h c => if c.pid = 0 then h.ctxExists (c.f 22 1) else c.f 22 1 == 0 }

/-- `MEM_QUERY` (R588). -/
def cmdMemQuery (q : QRef) (p : Packet) (h : Hw) : Hw :=
  h.issue specMemQuery q p
    fun h c => h.done c (memQueryResult h (if c.pid = 0 then c.f 22 1 else c.pid) (c.f 16 6))

/-- `NOP`. -/
def execNop (q : QRef) (p : Packet) (s : State) : Host.Outcome State Fault Refusal := s.next (cmdNop q p)

/-- `FENCE`. -/
def execFence (q : QRef) (p : Packet) (s : State) : Host.Outcome State Fault Refusal := s.next (cmdFence q p)

/-- `ECHO`. -/
def execEcho (q : QRef) (p : Packet) (s : State) : Host.Outcome State Fault Refusal := s.next (cmdEcho q p)

/-- `MEM_FILL`. -/
def execMemFill (q : QRef) (p : Packet) (s : State) : Host.Outcome State Fault Refusal := s.next (cmdMemFill q p)

/-- `MEM_COPY`. -/
def execMemCopy (q : QRef) (p : Packet) (s : State) : Host.Outcome State Fault Refusal := s.next (cmdMemCopy q p)

/-- `MEM_QUERY`. -/
def execMemQuery (q : QRef) (p : Packet) (s : State) : Host.Outcome State Fault Refusal := s.next (cmdMemQuery q p)

end Sys2Proof.Machine
end

