-- ==== Sys2Proof/Machine/PartCmds.lean ====
section
/-! DEFINITION. `PART_CREATE`, `GRANT` and `SOB_ALLOC` (R163 to R166, R192, R194, R494, R495, R602, R603,
R605, R616). -/

namespace Sys2Proof.Machine

open Sys2Proof

/-- A queue descriptor (R194), when its size and alignments are admitted and its reserved fields zero. -/
def parseDesc (b : List Byte) : Option QueueDesc :=
  let ok := field b 0 6 % 0x1000 == 0 && zeroAt b 6 2 && field b 8 6 % 0x1000 == 0 && zeroAt b 14 2 &&
    field b 16 6 % 64 == 0 && zeroAt b 22 2 && decide (6 ≤ field b 24 1) && decide (field b 24 1 ≤ 16) &&
    zeroAt b 25 1 && decide (field b 26 2 < 2048) && zeroAt b 28 4
  if ok then
    some { sqVa := field b 0 6, cqVa := field b 8 6, mirrorVa := field b 16 6, log2Size := field b 24 1,
           vector := field b 26 2 }
  else none
where
  /-- Whether bytes are zero. -/
  zeroAt (b : List Byte) (lo n : Nat) : Bool := field b lo n == 0

/-- Whether two slices overlap on one core. -/
def slicesMeet (a b : ApcSlice) : Bool :=
  a.core == b.core && decide (a.start < b.start + b.count) && decide (b.start < a.start + a.count)

/-- An allotment record (R494), when its fields are admitted (R495). -/
def parseAllot (b : List Byte) : Option Allot :=
  let n := bits (field b 0 1) 0 6
  let ss := (List.range n).map fun k =>
    let w := field b (32 + 8 * k) 8
    ApcSlice.mk (bits w 0 5) (bits w 5 18) (bits w 23 18)
  let ways := (List.range 4).map fun k => field b (2 + 2 * k) 2
  let irq := bits (field b 16 1) 0 5
  let ok := decide (1 ≤ n) && decide (n ≤ 32) &&
    ss.all (fun s => decide (20 ≤ s.count) && decide (s.start + s.count ≤ 200000)) &&
    ss.any (fun s => s.core == irq) &&
    (List.range n).all (fun i => (List.range i).all fun j =>
      ! slicesMeet (ss.getD i ⟨0, 0, 0⟩) (ss.getD j ⟨0, 0, 0⟩)) &&
    ss.all (fun s => ways.getD (s.core / 8) 0 ≠ 0) && ways.all fun w => ! bit w 15
  if ok then some { slices := ss, ways := ways, entry := field b 10 6, irqCore := irq, gfile := 0 } else none

/-- What a `PART_CREATE` reads: nothing readable, a record with a bad field, or a record. -/
inductive CreateRead where
  | unread
  | bad
  | good (r : CreateRec)
  deriving DecidableEq, Repr

/-- Reads the creation record and its allotment record (R494, R602). -/
def Hw.readCreate (h : Hw) (c : Cmd) : CreateRead :=
  match (h.cmdRead c.pid (c.f 24 6) 832).1 with
  | .error _ => .unread
  | .ok (_, true) => .unread
  | .ok (bs, false) =>
    let nq := bits (field bs 2 1) 0 5
    let nr := bits (field bs 14 1) 0 7
    let qs := (List.range nq).filterMap fun i => parseDesc ((bs.drop (64 + 32 * i)).take 32)
    let av := field bs 16 6
    let ok := decide (1 ≤ field bs 0 1) && decide (1 ≤ nq) && decide (nq ≤ 16) && qs.length == nq &&
      decide (2 + 3 * nq ≤ field bs 4 4) && decide (nr ≤ 64)
    let mk (a : Option Allot) : CreateRec :=
      { pid := field bs 0 1, cls := bits (field bs 1 1) 0 2, jnl := field bs 4 4, sheets := field bs 8 4,
        seqs := field bs 12 2, queues := qs
        reqs := (List.range nr).map fun i =>
          let w := field bs (576 + 4 * i) 4
          (bits w 16 1, bits w 0 16)
        allot := a }
    if ! ok then .bad
    else if av = 0 then .good (mk none)
    else
      match (h.cmdRead c.pid av 288).1 with
      | .error _ => .unread
      | .ok (_, true) => .unread
      | .ok (ab, false) =>
        match parseAllot ab with
        | some a => .good (mk (some a))
        | none => .bad

/-- The PID to which a requester is bound on a port (R623). -/
def Hw.boundPid (h : Hw) (port rid : Nat) : Option Nat :=
  ((List.range 64).find? fun i =>
    h.on ((F.PCIE_BIND_VALID.port port).nth i) && h.get ((F.PCIE_BIND_RID.port port).nth i) == rid).map fun i =>
      h.get ((F.PCIE_BIND_PID.port port).nth i)

/-- The bindings in use on a port. -/
def Hw.bindings (h : Hw) (port : Nat) : Nat := countNat 64 fun i => h.on ((F.PCIE_BIND_VALID.port port).nth i)

/-- `PART_CREATE` is busy while the PID exists or a requester is bound (R167, R602). -/
def createBusy (h : Hw) (c : Cmd) : Option (Nat × Option Nat) :=
  match h.readCreate c with
  | .good r =>
    if h.exists? r.pid || r.reqs.any (fun q => (h.boundPid q.1 q.2).any (· ≠ r.pid)) then some (0, none) else none
  | _ => none

/-- The allotments of the partitions. -/
def Hw.allots (h : Hw) : List Allot := h.parts.filterMap fun e => e.2.allot

/-- Whether an allotment fits beside the others (R495). -/
def Hw.allotFits (h : Hw) (a : Allot) : Bool :=
  let os := h.allots
  (a.slices.all fun s => os.all fun o => o.slices.all fun x => ! slicesMeet s x) &&
  (List.range 4).all (fun k => os.all fun o => (a.ways.getD k 0 &&& o.ways.getD k 0) == 0) &&
  (a.slices.all fun s => decide ((os.filter fun o => o.slices.any fun x => x.core == s.core).length < 7))

/-- The quotas of the partitions that use the same part of the sheet pool (R258). -/
def Hw.sheetQuotas (h : Hw) (striped : Bool) : Nat :=
  sumNat ((h.parts.filter fun e => e.1 ≠ 0 && (e.2.cls == 0) == striped).map (·.2.sheetQuota))

/-- `PART_CREATE` is refused when a resource it needs is not there (R214, R258, R495, R602). -/
def createRes (h : Hw) (c : Cmd) : Option (Nat × Option Nat) :=
  match h.readCreate c with
  | .good r =>
    let quota := sumNat ((h.parts.filter fun e => e.1 ≠ 0).map (·.2.jnlQuota))
    let pool := if r.cls = 0 then h.cfg.nStriped else h.cfg.nPlain
    let onPort (p : Nat) : Nat := h.bindings p + (r.reqs.filter fun q => q.1 == p).length
    if 4128768 < quota + r.jnl ∨ pool < h.sheetQuotas (r.cls == 0) + r.sheets ∨ 64 < onPort 0 ∨ 64 < onPort 1 ∨
       r.allot.any (fun a => ! h.allotFits a) then some (0, none) else none
  | _ => none

/-- Binds a requester in the lowest free entry of its port (R623). -/
def Hw.bindRequester (h : Hw) (pid : Nat) (q : Nat × Nat) : Hw :=
  match firstNat 64 fun i => ! h.on ((F.PCIE_BIND_VALID.port q.1).nth i) with
  | some i =>
    let h := (h.put ((F.PCIE_BIND_RID.port q.1).nth i) q.2).put ((F.PCIE_BIND_PID.port q.1).nth i) pid
    h.put ((F.PCIE_BIND_VALID.port q.1).nth i) 1
  | none => h

/-- The lowest guest interrupt file of a hart that no partition holds (log entry 29). -/
def Hw.freeGfile (h : Hw) (hart : Nat) : Nat :=
  ((upto 1 7).find? fun g => ! h.allots.any fun a => a.irqCore == hart && a.gfile == g).getD 7

/-- A route of kind 1 or 2 as `MOD_ROUTE` holds it (R613). -/
def routeCore (hart gfile : Nat) : Nat := 2 + hart * 2 ^ 8 + gfile * 2 ^ 13
def routeFn (port rid : Nat) : Nat := 1 + port * 4 + rid * 2 ^ 16

/-- The route of a new partition (R616). -/
def Hw.routeFor (h : Hw) (r : CreateRec) (a : Option Allot) : Nat :=
  match a with
  | some a => routeCore a.irqCore a.gfile
  | none =>
    match r.reqs.find? fun q => h.get (F.PCIE_CFG_ROLE.port q.1) == 1 with
    | some q => routeFn q.1 q.2
    | none => 0

/-- A queue at `PART_CREATE`: counters at 0. -/
def Queue.fresh (d : QueueDesc) : Queue :=
  { desc := d, sqTail := 0, sqHead := 0, cqHead := 0, nTaken := 0, nStarted := 0, nPosted := 0, lastSeq := 0,
    mirror := 0, fetchedSlots := 0, sobSeq := 0 }

/-- Queues numbered from 0. -/
def queueMap (ds : List QueueDesc) : SMap Queue :=
  (List.range ds.length).map fun i => (i, Queue.fresh (ds.getD i ⟨0, 0, 0, 6, 0⟩))

/-- Creates a partition (R163, R602): an empty context, no sync objects, no rights, numbers from 1. -/
def Hw.createPart (h : Hw) (r : CreateRec) : Hw :=
  let allot := r.allot.map fun a => { a with gfile := h.freeGfile a.irqCore }
  let route := h.routeFor r allot
  let p : Part :=
    { cls := r.cls, rights := 0, jnlQuota := r.jnl, sheetQuota := r.sheets, seqQuota := r.seqs, nextSeq := 1,
      destroying := false, shed := false, allot := allot, queues := queueMap r.queues }
  let h := { h with parts := h.parts.put r.pid p
                    mram := (List.range r.queues.length).foldl (fun m i => SMap.del (SMap.del m (r.pid * 16 + i)) (4096 + r.pid * 16 + i)) h.mram }
  let h := h.put F.JNL_FREE_QUOTA (h.get F.JNL_FREE_QUOTA - r.jnl)
  (r.reqs.foldl (fun h q => h.bindRequester r.pid q) h).setRoute r.pid route

/-- The module with the partitions of every accepted `PART_CREATE`: what the checks of a further one meet (R204, order 6). -/
def Hw.planned (h : Hw) : Hw :=
  h.sys.kept.foldl (fun h x => match x.2.2.2 with | .part r => h.createPart r | _ => h) h

/-- The checks of `PART_CREATE` (R587). -/
def specPartCreate : OpSpec :=
  { opc := 0xC0, issuer := .owner
    fields := fun h c => h.readCreate c ≠ .bad
    busy := fun h c => createBusy h.planned c, res := fun h c => createRes h.planned c
    onAccept := fun h c => match h.readCreate c with
      | .good r => h.keep c (.part r)
      | _ => h }

/-- The effect of `PART_CREATE` (R208, R602): one step with the record as the checks read it.  A record that they could not
read fails as its reading does; one that can be read by then was changed in between, which leaves the completion open (R182). -/
def partCreate (h : Hw) (c : Cmd) : Hw :=
  match h.takeKept c with
  | (some (.part r), h) => (h.createPart r).done c 0
  | (_, h) =>
    h.withRecord c (c.f 24 6) 832 fun h bs =>
      let av := field bs 16 6
      if av = 0 then h.wildEnd c else h.withRecord c av 288 fun h _ => h.wildEnd c

/-- `PART_CREATE` (R602). -/
def execPartCreate (q : QRef) (p : Packet) (s : State) : Host.Outcome State Fault Refusal :=
  s.next fun h => h.issue specPartCreate q p partCreate

/-- Whether the PID that an owner command names exists. -/
def namesPart (h : Hw) (c : Cmd) : Bool := h.exists? (c.f 16 1)

/-- Whether a partition holds the gazetteer's right in use: an attached sequence or a live entry handle
(R281). -/
def Hw.gazInUse (h : Hw) (pid : Nat) : Bool :=
  h.kv.seqs.any (fun e => e.1 / 65536 == pid && e.2.node ≠ 0x1F_FFFF) || h.kv.gaz.entries.any fun e => e.1 / 1024 == pid

/-- Whether a partition is being destroyed. -/
def Hw.destroying (h : Hw) (pid : Nat) : Bool := (h.part pid).any (·.destroying)

/-- The checks of `GRANT` (R587). -/
def specGrant : OpSpec :=
  { opc := 0xC8, issuer := .owner, fields := fun h c => namesPart h c && decide (c.f 17 1 < 2)
    busy := fun h c => if h.destroying (c.f 16 1) || (c.f 17 1 == 0 && h.gazetteer (c.f 16 1) && h.gazInUse (c.f 16 1))
      then some (0, none) else none
    res := fun h c =>
      if c.f 17 1 == 1 && ! h.gazetteer (c.f 16 1) && decide (8 ≤ h.parts.countP fun e => bit e.2.rights 0)
      then some (0, none) else none }

/-- `GRANT` (R165, R281, R605). -/
def execGrant (q : QRef) (p : Packet) (s : State) : Host.Outcome State Fault Refusal :=
  s.next fun h => h.issue specGrant q p
    fun h c => (h.modPart (c.f 16 1) fun p => { p with rights := c.f 17 1 }).done c 0

/-- The lowest free block of sync objects (log entry 30). -/
def Hw.freeBlock (h : Hw) : Option Nat := (upto 4 1020).find? fun b => h.sobOwner b == 0

/-- Gives a block to a partition, its objects zero (R192). -/
def Hw.allocBlock (h : Hw) (pid b : Nat) : Hw :=
  let h := (h.setSobOwner b pid).put F.SOB_STATUS_FREE_BLOCKS (h.get F.SOB_STATUS_FREE_BLOCKS - 1)
  { h with sobs := h.sobs.filter fun e => e.1 / 64 ≠ b }

/-- The checks of `SOB_ALLOC` (R587). -/
def specSobAlloc : OpSpec :=
  { opc := 0xC9, issuer := .owner, fields := namesPart
    busy := fun h c => if h.destroying (c.f 16 1) then some (0, none) else none
    res := fun h _ => if h.freeBlock.isNone then some (0, none) else none }

/-- The effect of `SOB_ALLOC` (R192, R605). -/
def sobAlloc (h : Hw) (c : Cmd) : Hw :=
  match h.freeBlock with
  | some b => (h.allocBlock (c.f 16 1) b).done c b
  | none => h.wildEnd c

/-- `SOB_ALLOC` (R192, R605). -/
def execSobAlloc (q : QRef) (p : Packet) (s : State) : Host.Outcome State Fault Refusal :=
  s.next fun h => h.issue specSobAlloc q p sobAlloc

end Sys2Proof.Machine
end

