-- ==== Sys2Proof/Machine/JobOps.lean ====
section
/-! DEFINITION. Jobs (R240 to R247): the model that a job runs, its progress, and its completion. -/

namespace Sys2Proof.Machine

open Sys2Proof

/-- The handle of the model that a job runs: its image, or after a switch its undercoat (R245). -/
def Hw.runHandle (h : Hw) (j : Job) : Nat :=
  if j.under then ((h.models.find (j.pid * 64 + j.handle)).map (·.ucHandle)).getD 0 else j.handle

/-- The model that a job runs. -/
def Hw.runModel (h : Hw) (j : Job) : Option Model := h.models.find (j.pid * 64 + h.runHandle j)

/-- The index of a job's batch size in a model. -/
def Model.batchIx (m : Model) (b : Nat) : Option Nat := m.batches.findIdx? (· == b)

/-- J: the length of a job in job strokes (R227). -/
def Model.jobLen (m : Model) (b : Nat) : Nat := ((m.batchIx b).map fun i => m.js.getD i 0).getD 0

/-- The tiles of a model's occupied way, as copy × 1,024 + logical tile. -/
def Model.slots (m : Model) : List Nat := (m.ways.getD m.way []).map fun e => e.copy * 1024 + e.logical

/-- The job strokes that a tile has passed. -/
def Job.passed (j : Job) (slot : Nat) : Nat := j.progress.getD 0 slot

/-- Whether every tile of the job has passed its last job stroke (R242), and for a `DUPLEX` job whether
every job stroke has matched (R391). -/
def Hw.workDone (h : Hw) (j : Job) : Bool :=
  match h.runModel j with
  | none => false
  | some m =>
    j.begun.isSome && m.slots.all (fun s => decide (m.jobLen j.batch ≤ j.passed s)) &&
      (! m.duplex || decide (m.jobLen j.batch ≤ j.matched))

/-- The lowest job stroke index that any of a job's tiles has reached (R597). -/
def Hw.lowest (h : Hw) (j : Job) : Nat :=
  match h.runModel j with
  | none => 0
  | some m => (m.slots.map j.passed).foldl min (m.jobLen j.batch)

/-- A job leaves the module: its record, what duplex holds for it and its gate's watch go. -/
def Hw.dropJob (h : Hw) (j : Job) : Hw :=
  { h with jobs := h.jobs.filter fun x => ! (x.pid == j.pid && x.queue == j.queue && x.num == j.num)
           dup := h.dup.filter fun d => ! (d.pid == j.pid && d.seq == j.seq)
           watches := h.watches.filter fun w => ! (w.gate && w.pid == j.pid && w.queue == j.queue && w.num == j.num) }

/-- The completion flags of a job (R211, R246, R391). -/
def Job.flags (j : Job) (checked : Bool) : WorkFlags :=
  { relocated := j.relocated, inexact := j.inexact, overflow := j.overflow, duplexChecked := checked }

/-- A job of class D or A is not on time (R467): its deadline is kept until the coat in which it falls is counted, unless
the completion counts as delivered; one that fails through its own budget (R62) excludes the coat. -/
def Hw.noteMissed (h : Hw) (j : Job) (status : Nat) : Hw :=
  match j.dl with
  | none => h
  | some d =>
    if 1 < h.clsOf j.pid ∨ [0x3002, 0x3003, 0x3006].contains status then h
    else if h.stn.exhMark.any fun k => k / 8 == j.pid then { h with sys := { h.sys with coatExcluded := true } }
    else { h with sys := { h.sys with missed := h.sys.missed ++ [d] } }

/-- A job completes with a status of class 3 or 4 (R212). -/
def Hw.endJob (h : Hw) (j : Job) (status detail : Nat) : Hw :=
  let h := if j.dl.any fun d => decide (h.now ≤ d) then h.noteMissed j status else h
  (h.finishAt j.pid j.queue j.num status (if j.group then j.gseq else 0) detail (j.flags false)).dropJob j

/-- A job's work is complete: `DONE_UNDERCOAT`, `DONE_INEXACT` or `DONE` (R212, R245). -/
def Hw.finishJob (h : Hw) (j : Job) : Hw :=
  let status := if j.under then 0x1001 else if j.inexact then 0x1002 else 0
  let dup := ((h.runModel j).map (·.duplex)).getD false
  (h.finishAt j.pid j.queue j.num status (if j.group then j.gseq else 0) (if j.under then j.mainDone else 0)
    (j.flags dup)).dropJob j

/-- Whether a job may still complete by its own outcome: it has met no failure or cancellation, and its
deadline has not passed (R245, R247). -/
def Hw.mayFinish (h : Hw) (j : Job) : Bool :=
  j.fail.isNone && j.cancelled.isNone && j.miss.isNone && j.redo.isNone &&
    (match j.dl with
     | some d => decide (h.now ≤ d)
     | none => true)

/-- Completes a job whose work has just been completed. -/
def Hw.settleDone (h : Hw) (pid q num : Nat) : Hw :=
  match h.jobs.find? fun j => j.pid == pid && j.queue == q && j.num == num with
  | some j => if h.workDone j && h.mayFinish j then h.finishJob j else h
  | none => h

/-- Credits a tile with the job strokes before `k` (R242). -/
def Hw.credit (h : Hw) (pid q num slot k : Nat) : Hw :=
  h.modJob pid q num fun j => { j with progress := j.progress.put slot (max k (j.passed slot)) }

/-- Whether a job's start gate has fired (R592). -/
def Hw.gateFired (h : Hw) (j : Job) : Bool :=
  j.fired || h.watches.any fun w => w.gate && w.done && w.pid == j.pid && w.queue == j.queue && w.num == j.num

end Sys2Proof.Machine
end

