-- ==== Sys2Proof/Machine/Placement.lean ====
section
/-! DEFINITION. Placement and relocation (R136 to R140, R159 to R161, R451): retiring a tile, shifting its
row, substituting a vacant position, and rebuilding the masks of a die. -/

namespace Sys2Proof.Machine

open Sys2Proof

/-- Whether a window's tile set holds a logical tile (R51, R52). -/
def Stencil.winHas (s : Stencil) (w : WinRow) (l : Nat) : Bool := bit (s.tsets.getD w.tset 0) l

/-- The PID of a window's activity. -/
def Stencil.winPid (s : Stencil) (w : WinRow) : Nat := (s.acts[w.act]?.map (·.pid)).getD 0

/-- Whether two windows share a stroke of the coat. -/
def winsMeet (v w : WinRow) : Bool :=
  decide (v.start < w.start + w.count) && decide (w.start < v.start + v.count)

/-- The windows of a PID that include a logical tile. -/
def Stencil.winsAt (s : Stencil) (pid l : Nat) : List WinRow :=
  s.wins.filter fun w => s.winPid w == pid && s.winHas w l

/-- The PIDs with a window that includes a logical tile. -/
def Stencil.pidsAt (s : Stencil) (l : Nat) : NSet :=
  s.wins.foldl (fun m w => if s.winHas w l && s.winPid w ≠ 0 then NSet.add m (s.winPid w) else m) []

/-- The die of a logical tile (R136). -/
def dieOfLogical (l : Nat) : Nat := (rowOfLogical l).1 / 16

/-- The physical tile at a row (die × 16 + row) and column. -/
def tileAt (r col : Nat) : Nat := r / 16 * 288 + r % 16 * 18 + col

/-- The row (die × 16 + row) of a physical tile. -/
def rowOfTile (t : Nat) : Nat := t / 288 * 16 + t % 288 / 18

/-- Whether a position is vacant: it has no column, or its column keeps a retired tile (R160, R161). -/
def Hw.isVacant (h : Hw) (l : Nat) : Bool := (h.physOf l).isNone || h.fab.vacant.contains l

/-- The logical position of a row (die × 16 + row) and a logical column (R136). -/
def logicalAt (r j : Nat) : Nat := (16 * (r / 32) + r % 16) * 32 + 16 * (r / 16 % 2) + j

/-- The vacant positions: those whose column keeps a retired tile, and those of rows with fewer than 16 columns (R160,
R161). -/
def Hw.vacantList (h : Hw) : List Nat :=
  h.fab.vacant ++ h.fab.rowMask.flatMap fun e =>
    ((List.range 16).filter fun j => (colOf e.2 18 0 j).isNone).map fun j => logicalAt e.1 j

/-- The vacancies of a die. -/
def Hw.vacancies (h : Hw) (d : Nat) : Nat := (h.vacantList.filter fun l => dieOfLogical l == d).length

/-- The usable tiles of a die, as check 8 of R68 counts them: its positions that are not vacant. -/
def Hw.usableTiles (h : Hw) (d : Nat) : Nat := 256 - h.vacancies d

/-- Whether a tile's router works (R139, R451). -/
def Hw.routerWorks (h : Hw) (t : Nat) : Bool := ! h.fab.badRouter.contains t && ! h.fab.headerBad.contains t

/-- The free slots of a row (R137): unoccupied columns whose tile is usable, whose router works (R139) and which no
relocation under way is filling. -/
def Hw.freeSlots (h : Hw) (r : Nat) : List Nat :=
  (List.range 18).filter fun c =>
    ! bit (h.rowMask r) c && ! h.fab.retired.contains (tileAt r c) && h.routerWorks (tileAt r c) &&
    h.get (F.TILE_STATE_STATE.blk (tileAt r c)) == 1 &&
    ! h.fab.relocs.any fun x => x.shift && x.die * 16 + x.row == r && x.target == c

/-- The distance of two columns. -/
def colDist (a b : Nat) : Nat := max a b - min a b

/-- The free slot nearest to a column, the eastern one of two equally near (R159). -/
def nearestSlot (c : Nat) (l : List Nat) : Option Nat :=
  l.foldl (fun b x =>
    match b with
    | none => some x
    | some y => if colDist c x ≤ colDist c y then some x else some y) none

/-- Whether every 4 KiB unit that a PID's SRAM windows occupy on tile `v` is unallocated on tile `s`
(R160). -/
def Hw.unitsFree (h : Hw) (pid v s : Nat) : Bool :=
  let unit (t i : Nat) : Nat × Nat :=
    (h.get ((F.TILE_SWIN_FIRST.blk t).nth i), h.get ((F.TILE_SWIN_LAST.blk t).nth i))
  (List.range 8).all fun i =>
    if h.on ((F.TILE_SWIN_VALID.blk v).nth i) && h.get ((F.TILE_SWIN_PID.blk v).nth i) == pid then
      (List.range 8).all fun j =>
        ! h.on ((F.TILE_SWIN_VALID.blk s).nth j) ||
          decide ((unit v i).2 < (unit s j).1) || decide ((unit s j).2 < (unit v i).1)
    else true

/-- Whether a partition is shed (R454). -/
def Hw.isShed (h : Hw) (pid : Nat) : Bool := ((h.part pid).map (·.shed)).getD false

/-- Whether a logical tile can substitute a vacant position for a PID (R160).  DESIGN CHOICE (log entry 46): the windows of a
shed partition, whose gates pass nothing, do not hold a tile. -/
def Hw.canSubstitute (h : Hw) (pid v s : Nat) : Bool :=
  let st := h.stn.active
  s ≠ v && dieOfLogical s == dieOfLogical v && ! h.isVacant s &&
  ((st.winsAt pid v).all fun w => st.wins.all fun u =>
    h.isShed (st.winPid u) || ! (st.winHas u s && winsMeet u w)) &&
  (match h.physOf v, h.physOf s with
   | some tv, some ts => h.unitsFree pid tv ts
   | none, some _ => true
   | _, _ => false)

/-- The substitute of a vacant position for a PID: the lowest that serves (R160). -/
def Hw.substituteFor (h : Hw) (pid v : Nat) : Option Nat := firstNat 1024 (h.canSubstitute pid v)

/-- A die's reserve is exhausted (R71, R160): the PID's position is noted for shedding, and the module reports it. -/
def Hw.reserveShort (h : Hw) (pid l : Nat) : Hw :=
  if h.fab.unplaced.contains (pid, l) then h
  else
    (({ h with fab := { h.fab with unplaced := h.fab.unplaced ++ [(pid, l)] } }).put F.STN_INT_STATUS_RESERVE_SHORT 1).event
      srcStn 0x0904 0 (dieOfLogical l)

/-- Starts the substitution of a vacant position for a PID; a PID without a substitute,
or beyond the limits of a die, is met by shedding (R71, R160). -/
def Hw.startSubstitute (h : Hw) (l pid : Nat) (cmd : Option (Nat × Nat × Nat)) : Hw :=
  let d := dieOfLogical l
  let red := (h.fab.redirects.filter fun r => dieOfLogical r.vacant == d).length +
    (h.fab.relocs.filter fun r => ! r.shift && r.die == d).length
  match h.substituteFor pid l with
  | some s =>
    if h.vacancies d ≤ 16 ∧ red < 64 then
      { h with fab := { h.fab with
          unplaced := h.fab.unplaced.filter fun u => u ≠ (pid, l)
          relocs := h.fab.relocs ++
            [{ shift := false, die := d, row := l / 32 % 16, retired := h.physOf l, logical := l,
               target := s, pid := pid, sinceStroke := h.now, cmd := cmd }] } }
    else h.reserveShort pid l
  | none => h.reserveShort pid l

/-- Starts a substitution for each PID with a window on a vacant position (R160). -/
def Hw.startSubstitutes (h : Hw) (l : Nat) (cmd : Option (Nat × Nat × Nat)) : Hw :=
  (h.stn.active.pidsAt l).foldl (fun h pid => h.startSubstitute l pid cmd) h

/-- Whether a PID's position has a substitute or is about to have one. -/
def Hw.substituted (h : Hw) (pid l : Nat) : Bool :=
  (h.fab.redirects.any fun r => r.pid == pid && r.vacant == l) ||
    h.fab.relocs.any fun r => ! r.shift && r.pid == pid && r.logical == l

/-- Every vacant position gets substitutes for the PIDs that have windows on it and none yet: at a stencil swap or a coat
boundary after a rebuild, and after shedding (R71, R160, R161). -/
def Hw.fillVacancies (h : Hw) : Hw :=
  h.vacantList.foldl (fun h l =>
    (h.stn.active.pidsAt l).foldl (fun h pid =>
      if h.substituted pid l || h.isShed pid then h else h.startSubstitute l pid none) h) h

/-- The positions left without a substitute, with shedding as given (R160). -/
def Hw.unplacedNow (h : Hw) (shed : Nat → Bool) : List (Nat × Nat) := h.fab.unplaced.filter fun u => ! shed u.1

/-- Records a tile as retired (R101, R161, R448): its state, both Datums' MRAM, and its event; `cause` is
0 self-test, 1 `TILE_RETIRE`, 2 rebuild. -/
def Hw.markRetired (h : Hw) (t cause : Nat) : Hw :=
  let h := { h with fab := { h.fab with retired := NSet.add h.fab.retired t,
                                        mramRetired := NSet.add h.fab.mramRetired t } }
  (h.put (F.TILE_STATE_STATE.blk t) 4).event (srcTile t) 0x0205 0 cause

/-- Retires a tile and starts the relocation of the position that it holds, if it holds one (R159, R160,
R451). -/
def Hw.retireTile (h : Hw) (t cause : Nat) (cmd : Option (Nat × Nat × Nat)) : Hw :=
  if h.fab.retired.contains t then h
  else
    let held := h.logicalOf t
    let h := match (h.tile t).slice with
      | some s => if s.draining then h.failJob s 0x3008 1 else h
      | none => h
    let h := (h.endSlice t .abandoned).markRetired t cause
    let fin (h : Hw) (r : Nat) : Hw :=
      match cmd with
      | some (p, q, n) => h.finishAt p q n 0 r 0 {}
      | none => h
    match held with
    | none => fin h 2
    | some l =>
      let r := rowOfTile t
      match nearestSlot (t % 18) (h.freeSlots r) with
      | some c =>
        { h with fab := { h.fab with relocs := h.fab.relocs ++
            [{ shift := true, die := r / 16, row := r % 16, retired := some t, logical := l, target := c, pid := 0,
               sinceStroke := h.now, cmd := cmd }] } }
      | none =>
        let h := { h with fab := { h.fab with vacant := NSet.add h.fab.vacant l } }
        let n := h.fab.relocs.length
        let h := h.startSubstitutes l cmd
        if h.fab.relocs.length = n then fin h 1 else h

/-- The column from which a relocation moves. -/
def Reloc.fromCol (x : Reloc) : Nat := x.retired.getD 0 % 18

/-- Whether a tile's gate is closed by a row shift (R159): it lies in a segment and the pulse after the
retirement has passed. -/
def Hw.inShift (h : Hw) (t : Nat) : Bool :=
  h.fab.relocs.any fun x =>
    x.shift && decide (x.sinceStroke < h.now) && x.die * 16 + x.row == rowOfTile t &&
    decide (min x.fromCol x.target ≤ t % 18) && decide (t % 18 ≤ max x.fromCol x.target)

/-- What moves from one tile to another in a row shift: SRAM with its stain (an uncorrectable granule
arrives stained), bindings and all that belongs to the position; self-test state stays with the
hardware (R159). -/
def Tile.moved (src dst : Tile) : Tile :=
  { src with
    stain := src.badGranules.foldl NSet.add src.stain
    badGranules := [], weakGranules := [], luts := dst.luts, section_ := dst.section_,
    rotationAt := dst.rotationAt, lateRaised := dst.lateRaised, testDue := false,
    scrubPos := dst.scrubPos, condition := dst.condition }

/-- The registers of the SRAM windows and the stack window (R109). -/
def winOffs : List Nat := [0x18, 0x20, 0x28, 0x30, 0x38, 0x40, 0x48, 0x50, 0x58]

/-- Copies the SRAM windows and the stack window of a tile. -/
def Hw.moveWindows (h : Hw) (src dst : Nat) : Hw :=
  winOffs.foldl (fun h o => h.setReg (0x100 + dst) o (h.reg (0x100 + src) o)) h

/-- Clears the SRAM windows and the stack window of a tile. -/
def Hw.clearWindows (h : Hw) (t : Nat) : Hw := winOffs.foldl (fun h o => h.setReg (0x100 + t) o 0) h

/-- The jobs that run images bound on a tile carry `RELOCATED` (R159, R246, R448). -/
def Hw.markRelocated (h : Hw) (t pid : Nat) : Hw :=
  let bs := (h.tile t).binds
  { h with jobs := h.jobs.map fun j =>
      if (pid == 0 || j.pid == pid) && bs.any fun b => b.pid == j.pid && b.handle == h.runHandle j
      then { j with relocated := true } else j }

/-- Moves one tile of a segment one column towards the free slot. -/
def Hw.moveTile (h : Hw) (src dst : Nat) : Hw :=
  let h := h.markRelocated src 0
  let x := (h.tile src).moved (h.tile dst)
  let h := (h.modTile dst fun _ => x).moveWindows src dst
  h.put (F.TILE_STATE_STATE.blk dst) 0

/-- The columns of a segment in the order in which they move: from the free slot back to the retired
column, as pairs of source and destination. -/
def segmentMoves (c f : Nat) : List (Nat × Nat) :=
  if c < f then (List.range (f - c)).map fun i => (f - 1 - i, f - i)
  else (List.range (c - f)).map fun i => (f + 1 + i, f + i)

/-- The row-shift copy ends and the mask changes (R159). -/
def Hw.completeShift (h : Hw) (x : Reloc) : Hw :=
  let r := x.die * 16 + x.row
  let c := x.fromCol
  let was := tileAt r c
  let h := (segmentMoves c x.target).foldl (fun h m => h.moveTile (tileAt r m.1) (tileAt r m.2)) h
  let old := h.tile was
  let h := h.modTile was fun _ =>
    { Tile.fresh with section_ := old.section_, rotationAt := old.rotationAt, condition := old.condition,
                      luts := old.luts, scrubPos := old.scrubPos, sram := old.sram, stain := old.stain,
                      badGranules := old.badGranules, weakGranules := old.weakGranules }
  let h := h.clearWindows was
  let m := setBits (setBits (h.rowMask r) c 1 0) x.target 1 1
  let h := { h with fab := { h.fab with rowMask := SMap.putD 0xFFFF h.fab.rowMask r m,
                                        relocs := h.fab.relocs.filter fun y => y ≠ x } }
  let h := h.event (srcTile was) 0x0206 0 ((h.now - x.sinceStroke) % 65536 * 65536)
  match x.cmd with
  | some (p, q, n) => h.finishAt p q n 0 0 0 {}
  | none => h

/-- The mask of a row at a rebuild: its lowest 16 columns that are not retired (R161). -/
def rebuildMask (usable : Nat → Bool) : Nat :=
  ((List.range 18).foldl (fun (m : Nat × Nat) c =>
    if usable c && decide (m.2 < 16) then (m.1 + 2 ^ c, m.2 + 1) else m) (0, 0)).1

/-- Rebuilds the masks of a die (R161): retired tiles and columns of faulty routers (R139, R449) are left out, and
vacancies, redirections and relocations of the die end. -/
def Hw.rebuildDie (h : Hw) (d : Nat) : Hw :=
  let bad := h.fab.mramRetired.foldl NSet.add h.fab.retired
  let usable (r c : Nat) : Bool := ! bad.contains (tileAt r c) && h.routerWorks (tileAt r c)
  let masks := (upto (d * 16) 16).foldl (fun m r => SMap.putD 0xFFFF m r (rebuildMask (usable r))) h.fab.rowMask
  let h := { h with fab := { h.fab with
    rowMask := masks, retired := bad, vacant := h.fab.vacant.filter fun l => dieOfLogical l ≠ d,
    redirects := h.fab.redirects.filter fun r => dieOfLogical r.vacant ≠ d,
    relocs := h.fab.relocs.filter fun r => r.die ≠ d,
    unplaced := h.fab.unplaced.filter fun u => dieOfLogical u.2 ≠ d } }
  (upto (d * 288) 288).foldl (fun h t =>
    h.put (F.TILE_STATE_STATE.blk t)
      (if bad.contains t || ! h.routerWorks t then 4 else if (h.logicalOf t).isSome then 0 else 1)) h

end Sys2Proof.Machine
end

