-- ==== Sys2Proof/Machine/StnOps.lean ====
section
/-! DEFINITION. Stencils (R45 to R71): positions and windows, budgets and their refill, reading an image,
and the checks of R68. -/

namespace Sys2Proof.Machine

open Sys2Proof

/-- Whether a channel is in service (R430). -/
def Hw.channelOn (h : Hw) (c : Nat) : Bool := h.get (F.MC_STATUS_STATE.blk c) ≠ 3

/-- The channels in service, C of R60. -/
def Hw.channels (h : Hw) : Nat := countNat 64 h.channelOn

/-- The windows whose budgets count in the present stroke: those of partitions that are not shed. -/
def Hw.budgetWins (h : Hw) : List WinRow :=
  (h.stn.active.winsOn h.coatPos).filter fun w => ! h.isShed (h.stn.active.winPid w)

/-- A partition's `DRAM_BYTES` in the present stroke (R60). -/
def Hw.dramSum (h : Hw) (pid : Nat) : Nat :=
  sumNat ((h.budgetWins.filter fun w => h.stn.active.winPid w == pid).map (·.dramBytes))

/-- A partition's `D2D_FLITS` in the present stroke (R60). -/
def Hw.d2dSum (h : Hw) (pid : Nat) : Nat :=
  sumNat ((h.budgetWins.filter fun w => h.stn.active.winPid w == pid).map (·.d2dFlits))

/-- The refill of a channel's bucket (R60). -/
def dramRefill (bytes channels : Nat) : Nat := cdiv (cdiv bytes (max channels 1)) 32 * 32

/-- The edge directions of R436: 64 + 2e + r, counted from 0. -/
def edgeDirs : List Nat := List.range 12

/-- The Traverse share of a partition in the active bank (R49, R370); a shed partition has none. -/
def Hw.trvShareNow (h : Hw) (p : Nat) : Int :=
  if h.isShed p then 0 else ((h.stn.active.rowOf p).map fun r => (r.trvShare : Int)).getD 0

/-- Refills the per-stroke buckets but for the Traverse level (R60, R61): unused tokens are lost. -/
def Hw.refillBuckets (h : Hw) : Hw :=
  let st := h.stn.active
  let pids := st.parts.map (·.pid)
  let live := pids.filter fun p => ! h.isShed p
  let chans := (List.range 64).filter h.channelOn
  let dram := live.foldl (fun m p =>
    let n := dramRefill (h.dramSum p) chans.length
    chans.foldl (fun m c => SMap.putD 0 m (c * 256 + p) n) m) ([] : SMap Nat)
  let d2d := live.foldl (fun m p =>
    edgeDirs.foldl (fun m e => SMap.putD 0 m (e * 256 + p) (h.d2dSum p)) m) ([] : SMap Nat)
  let apc := live.foldl (fun m p =>
    (List.range 4).foldl (fun m k => SMap.putD 0 m (k * 256 + p) (((st.rowOf p).map (·.apcBytes)).getD 0)) m)
    ([] : SMap Nat)
  { h with stn := { h.stn with dramTokens := dram, d2dTokens := d2d, apcBytes := apc,
                               exhMark := h.stn.exhMark.filter fun k => k % 8 == 2 || k % 8 == 5 } }

/-- A per-coat budget, scaled in a bridge (R56). -/
def StnSt.scaled (s : StnSt) (n : Nat) : Nat :=
  match s.bridgeEnd with
  | some _ => n * s.bridgeLen / s.active.coatLen
  | none => n

/-- The refill at a stroke boundary (R60, R61, R370): the Traverse level, which may be below zero, gains the share once and
never stands above it. -/
def Hw.refillStroke (h : Hw) : Hw :=
  let trv := (h.stn.active.parts.map (·.pid)).foldl (fun m p =>
    SMap.put m p (min (SMap.getD 0 h.stn.trvTokens p + h.trvShareNow p) (h.trvShareNow p))) ([] : SMap Int)
  ({ h with stn := { h.stn with trvTokens := trv } }).refillBuckets

/-- The budgets of a bank that has taken effect since the stroke's refill, from the state `old` before it: the buckets are those
of the new bank, and the share that the stroke's refill added gives way to the new one (R55, R59, R61). -/
def Hw.refillAfter (h old : Hw) : Hw :=
  let trv := (h.stn.active.parts.map (·.pid)).foldl (fun m p =>
    SMap.put m p (min (SMap.getD 0 old.stn.trvTokens p - old.trvShareNow p + h.trvShareNow p) (h.trvShareNow p))) ([] : SMap Int)
  ({ h with stn := { h.stn with trvTokens := trv } }).refillBuckets

/-- Reloads the per-coat counters from the active bank (R46, step 6; R454). -/
def Hw.reloadCoat (h : Hw) : Hw :=
  let ps := h.stn.active.parts
  let cp := ps.foldl (fun m r => SMap.putD 0 m r.pid (h.stn.scaled r.cpOps)) ([] : SMap Nat)
  let fu := ps.foldl (fun m r =>
    SMap.putD 0 m r.pid (if h.isShed r.pid then 0 else h.stn.scaled r.fusCycles)) ([] : SMap Nat)
  { h with stn := { h.stn with cpOps := cp, fusCycles := fu, exhMark := h.stn.exhMark.filter fun k => ! (k % 8 == 2 || k % 8 == 5) } }

/-- The fields of a stencil image that a record's reserved bytes must leave zero. -/
def zeroIn (bs : List Byte) (lo n : Nat) : Bool := ((bs.drop lo).take n).all (· == 0)

/-- A partition row as its 32 bytes hold it (R49), when its fields are in range (check 3 of R68). -/
def parseRow (b : List Byte) : Option PartRow :=
  let ok := decide (1 ≤ field b 0 1) && decide (field b 1 1 < 4) && decide (field b 12 2 ≤ 256) &&
    zeroIn b 14 2 && zeroIn b 20 12
  if ok then
    some { pid := field b 0 1, cls := field b 1 1, priority := field b 2 2, cpOps := field b 4 4,
           fusCycles := field b 8 4, trvShare := field b 12 2, apcBytes := field b 16 4 }
  else none

/-- An activity entry (R50). -/
def parseAct (b : List Byte) : Option ActRow :=
  if field b 1 1 ≤ 2 ∧ field b 2 2 < 2 ∧ zeroIn b 8 8 then
    some { pid := field b 0 1, kind := field b 1 1, duplex := bit (field b 2 2) 0, fragTag := field b 4 4 }
  else none

/-- A window entry (R51); an `F_MIN` out of its range fails check 3, as `KIND` and `TRV_SHARE` in their entries do (DESIGN
CHOICE, log entry 51). -/
def parseWin (b : List Byte) : Option WinRow :=
  let ok := decide (field b 0 4 < 2 ^ 18) && decide (field b 4 4 < 2 ^ 18) && decide (field b 8 2 < 1024) &&
    decide (field b 10 2 < 1024) && decide (400 ≤ field b 18 2) && decide (field b 18 2 ≤ 1400) && zeroIn b 22 10
  if ok then
    some { start := field b 0 4, count := field b 4 4, act := field b 8 2, tset := field b 10 2,
           dramBytes := field b 12 4, d2dFlits := field b 16 2, fMin := field b 18 2, partner := field b 20 2 }
  else none

/-- A trigger entry (R53). -/
def parseTrig (b : List Byte) : Option TrigRow :=
  if field b 0 1 < 32 ∧ zeroIn b 1 1 ∧ field b 2 2 < 1024 ∧ field b 4 4 < 2 ^ 18 then
    some { port := field b 0 1, adj := field b 2 2, offset := field b 4 4, cur := 0, next := none }
  else none

/-- Reads a table of `n` entries of `k` bytes, or gives the index of the first bad one. -/
def parseTable {α : Type} (f : List Byte → Option α) (k : Nat) : Nat → Nat → List Byte → Except Nat (List α)
  | 0, _, _ => .ok []
  | n + 1, i, bs =>
    match f (bs.take k) with
    | none => .error i
    | some x => (parseTable f k n (i + 1) (bs.drop k)).map (x :: ·)

/-- Reads a stencil image (R47 to R53): check 3 of R68, or the index of the failing entry. -/
def parseStencil (bs : List Byte) : Except Nat Stencil := do
  let l := field bs 8 4
  let np := field bs 16 2
  let na := field bs 18 2
  let nt := field bs 20 2
  let nw := field bs 22 2
  let ng := field bs 24 2
  let ok := decide (64 ≤ bs.length) && field bs 0 4 == 0x53544E32 && field bs 4 2 == 2 && zeroIn bs 6 2 &&
    decide (1000 ≤ l) && decide (l ≤ 200000) && decide (field bs 12 4 < l) && decide (np ≤ 255) &&
    decide (1 ≤ na) && decide (na ≤ 1024) && decide (nt ≤ 1023) && decide (1 ≤ nw) && decide (nw ≤ 4096) &&
    decide (ng ≤ 384) && zeroIn bs 26 6 && zeroIn bs 40 20 &&
    bs.length == 64 + 32 * np + 16 * na + 128 * nt + 32 * nw + 8 * ng &&
    crc32c (putField bs 60 4 0) == field bs 60 4
  if ! ok then throw 0 else pure ()
  let ps ← parseTable parseRow 32 np 0 (bs.drop 64)
  let as ← parseTable parseAct 16 na 0 (bs.drop (64 + 32 * np))
  let ts ← parseTable (fun b => some (leNat b)) 128 nt 0 (bs.drop (64 + 32 * np + 16 * na))
  let ws ← parseTable parseWin 32 nw 0 (bs.drop (64 + 32 * np + 16 * na + 128 * nt))
  let gs ← parseTable parseTrig 8 ng 0 (bs.drop (64 + 32 * np + 16 * na + 128 * nt + 32 * nw))
  pure { coatLen := l, phase := field bs 12 4, id := field bs 32 8, parts := ps, acts := as, tsets := ts,
         wins := ws, trigs := gs }

/-- The index of the first element that fails. -/
def firstBad {α : Type} (l : List α) (ok : Nat → α → Bool) : Option Nat :=
  ((List.zip (List.range l.length) l).find? fun e => ! ok e.1 e.2).map (·.1)

/-- Whether a row names a partition that exists, with its own class, and has a `PRIORITY` that its class
allows (check 4 of R68). -/
def Hw.rowOk (h : Hw) (r : PartRow) : Bool :=
  h.exists? r.pid && h.clsOf r.pid == r.cls && (r.cls == 1 || r.priority == 0)

/-- Check 4 of R68; two rows with one PID (R49) fail it too, at the later row (DESIGN CHOICE, log entry 51). -/
def Hw.check4 (h : Hw) (s : Stencil) : Option Nat :=
  (firstBad s.parts fun i r => h.rowOk r && ! (s.parts.take i).any fun q => q.pid == r.pid).orElse fun _ =>
    firstBad s.acts fun _ a => if a.pid = 0 then a.kind ≠ 0 else s.parts.any fun r => r.pid == a.pid

/-- Check 5 of R68. -/
def check5 (s : Stencil) : Option Nat :=
  firstBad s.wins fun _ w =>
    decide (w.start < s.coatLen) && decide (1 ≤ w.count) && decide (w.start + w.count ≤ s.coatLen) &&
    decide (w.act < s.acts.length) &&
    (if w.tset = 0x3FF then (s.winAct w).kind ≠ 0 else decide (w.tset < s.tsets.length))

/-- The tile set of a window as a bitmap. -/
def Stencil.bitmap (s : Stencil) (w : WinRow) : Nat := if w.tset = 0x3FF then 0 else s.tsets.getD w.tset 0

/-- The strokes in coat at which the set of running windows can change. -/
def Stencil.points (s : Stencil) : List Nat :=
  (s.wins.foldl (fun m w => NSet.add (NSet.add m w.start) (w.start + w.count)) [0]).filter fun p => decide (p < s.coatLen)

/-- Check 6 of R68. -/
def check6 (s : Stencil) : Option Nat :=
  firstBad s.wins fun i w => (s.wins.take i).all fun v => ! winsMeet v w || (s.bitmap v &&& s.bitmap w) == 0

/-- The logical tiles of a die that a bitmap holds. -/
def tilesOnDie (b d : Nat) : Nat := countNat 1024 fun l => dieOfLogical l == d && bit b l

/-- Check 7 of R68; a `DUPLEX` activity belongs to a class-D partition (R50, R164). -/
def check7 (s : Stencil) : Option Nat :=
  firstBad s.wins fun i w =>
    let a := s.winAct w
    ! a.duplex ||
      (decide (w.partner ≠ i) && ((s.rowOf a.pid).map (·.cls)) == some 0 &&
       match s.wins[w.partner]? with
       | some v => v.act == w.act && v.start == w.start && v.count == w.count && v.partner == i &&
           (List.range 4).all fun d => tilesOnDie (s.bitmap w) d == 0 || tilesOnDie (s.bitmap v) d == 0
       | none => false)

/-- The windows of partitions that are not shed, at a stroke in coat. -/
def Stencil.demand (s : Stencil) (shed : Nat → Bool) (p : Nat) : List WinRow :=
  (s.winsOn p).filter fun w => ! shed (s.winPid w)

/-- The strokes at which a per-stroke check fails; the first, divided by 64, is the item (R72). -/
def firstStroke (s : Stencil) (ok : Nat → Bool) : Option Nat := ((s.points.find? fun p => ! ok p)).map (· / 64)

/-- Check 8 of R68: the tiles scheduled on each die leave the relocation reserve.  For the active bank (`inUse`) the reserve is
there to be used: it fails only when relocations consume more than the 16 reserve tiles of the die (R71). -/
def Hw.fits8 (h : Hw) (s : Stencil) (shed : Nat → Bool) (p : Nat) (inUse : Bool) : Bool :=
  let b := (s.demand shed p).foldl (fun b w => b ||| s.bitmap w) 0
  (List.range 4).all fun d => (inUse && decide (h.vacancies d ≤ 16)) || decide (tilesOnDie b d + 16 ≤ h.usableTiles d)

/-- Check 9 of R68. -/
def Hw.fits9 (h : Hw) (s : Stencil) (shed : Nat → Bool) (p : Nat) : Bool :=
  let ws := s.demand shed p
  let pids := ws.foldl (fun m w => NSet.add m (s.winPid w)) ([] : NSet)
  decide (sumNat (pids.map fun q =>
    dramRefill (sumNat ((ws.filter fun w => s.winPid w == q).map (·.dramBytes))) h.channels) ≤ 14976)

/-- The UCIe modules of an edge in service, in the edge order of R436. -/
def Hw.edgeModules (h : Hw) (e : Nat) : Nat := h.fab.modules.getD (if e < 4 then 6 else 4) e

/-- The flits per direction and stroke of an edge (R153). -/
def Hw.edgeFlits (h : Hw) (e : Nat) : Nat := h.edgeModules e * 4000

/-- The admissible flits of check 10: 14,400, or 90% of the smallest edge when that is less (R69, R153). -/
def Hw.d2dLimit (h : Hw) : Nat := (List.range 6).foldl (fun m e => min m (h.edgeFlits e * 9 / 10)) 14400

/-- Check 10 of R68. -/
def Hw.fits10 (h : Hw) (s : Stencil) (shed : Nat → Bool) (p : Nat) : Bool :=
  decide (sumNat ((s.demand shed p).map (·.d2dFlits)) ≤ h.d2dLimit)

/-- Whether a cluster hosts a partition (R495). -/
def Hw.hosts (h : Hw) (k pid : Nat) : Bool :=
  match (h.part pid).bind (·.allot) with
  | some a => a.slices.any fun s => s.core / 8 == k
  | none => false

/-- Check 11 of R68, as the first cluster that fails. -/
def Hw.check11 (h : Hw) (s : Stencil) (shed : Nat → Bool) : Option Nat :=
  firstBad (List.range 4) fun _ k =>
    decide (sumNat ((s.parts.filter fun r => ! shed r.pid && h.hosts k r.pid).map (·.apcBytes)) ≤ 48000)

/-- Check 12 of R68. -/
def check12 (s : Stencil) (shed : Nat → Bool) : Option Nat :=
  let ps := s.parts.filter fun r => ! shed r.pid
  if sumNat (ps.map (·.trvShare)) ≤ 250 ∧ sumNat (s.parts.map (·.cpOps)) ≤ 24 * s.coatLen ∧
     sumNat (ps.map (·.fusCycles)) ≤ 950 * s.coatLen then none else some 0

/-- The capacity checks 8 to 12 of R68, of a stencil to be admitted or of the active bank: the first that fails, with its
item. -/
def Hw.capacityOf (h : Hw) (s : Stencil) (shed : Nat → Bool) (inUse : Bool) : Option (Nat × Nat) :=
  match firstStroke s (fun p => h.fits8 s shed p inUse) with
  | some i => some (8, i)
  | none => match firstStroke s (h.fits9 s shed) with
    | some i => some (9, i)
    | none => match firstStroke s (h.fits10 s shed) with
      | some i => some (10, i)
      | none => match h.check11 s shed with
        | some i => some (11, i)
        | none => (check12 s shed).map fun i => (12, i)

/-- The capacity checks of a stencil to be admitted. -/
def Hw.capacity (h : Hw) (s : Stencil) (shed : Nat → Bool) : Option (Nat × Nat) := h.capacityOf s shed false

/-- What the active bank fails against the capacity in service (R71, R453): checks 8 to 12, or (as 71) a position for which a
PID has no substitute or which lies beyond the limits of R160. -/
def Hw.activeCapacity (h : Hw) (s : Stencil) (shed : Nat → Bool) : Option (Nat × Nat) :=
  match h.capacityOf s shed true with
  | some r => some r
  | none =>
    match (h.unplacedNow shed).find? fun u => (h.substituteFor u.1 u.2).isNone || decide (16 < h.vacancies (dieOfLogical u.2)) with
    | some u => some (71, u.2)
    | none => none

/-- Check 13 of R68: the firmware windows of R70. -/
def check13 (s : Stencil) : Option Nat :=
  let isK (k : Nat) (w : WinRow) : Bool := (s.winAct w).kind == k && s.winPid w == 0
  let tests := s.wins.filter (isK 2)
  let starts := tests.foldl (fun m w => NSet.add m w.start) ([] : NSet)
  let next (a : Nat) : Nat := (starts.find? fun b => decide (a < b)).getD (starts.headD 0 + s.coatLen)
  if ! s.wins.any fun w => isK 1 w && decide (40 ≤ w.count) then some 0
  else if tests.isEmpty then some 0
  else
    (firstBad s.wins fun _ w => w.dramBytes == 0 || ! s.wins.any fun q => isK 1 q && winsMeet q w).orElse fun _ =>
    (firstBad s.wins fun _ w => ! isK 2 w || decide (8 ≤ w.count)).orElse fun _ =>
    firstBad s.wins fun _ w => ! isK 2 w || decide (next w.start - w.start ≤ 5000)

/-- Check 14 of R68. -/
def check14 (s : Stencil) : Option Nat :=
  firstBad s.trigs fun i t =>
    decide (t.port < 24) && decide (t.offset + t.adj < s.coatLen) &&
    (List.zip (List.range s.trigs.length) s.trigs).all fun e =>
      e.1 == i || e.2.port ≠ t.port ||
        (decide (100 ≤ (t.offset + s.coatLen - e.2.offset) % s.coatLen) &&
         decide (100 ≤ (e.2.offset + s.coatLen - t.offset) % s.coatLen))

/-- Checks 4 to 14 of R68 on a stencil that has been read. -/
def Hw.admitStencil (h : Hw) (s : Stencil) : Option (Nat × Nat) :=
  let c (n : Nat) (r : Option Nat) (k : Unit → Option (Nat × Nat)) : Option (Nat × Nat) :=
    match r with
    | some i => some (n, i)
    | none => k ()
  c 4 (h.check4 s) fun _ => c 5 (check5 s) fun _ => c 6 (check6 s) fun _ => c 7 (check7 s) fun _ =>
    match h.capacity s (fun _ => false) with
    | some r => some r
    | none => c 13 (check13 s) fun _ => c 14 (check14 s) fun _ => none

/-- The windows of an activity, as index (R79). -/
def Stencil.winsOf (s : Stencil) (act : Nat) : List WinRow := s.wins.filter fun w => w.act == act

/-- The activity of a partition that carries a `FRAG_TAG` (R50). -/
def Stencil.actOf (s : Stencil) (pid frag : Nat) : Option Nat :=
  (s.acts.findIdx? fun a => a.pid == pid && a.fragTag == frag && a.kind == 0)

/-- Strokes in coat below `x` that intervals, in rising order of start, cover. -/
def coverBelow (x : Nat) : Nat → List (Nat × Nat) → Nat
  | _, [] => 0
  | e, (a, b) :: is =>
    let lo := max a e
    let hi := min b x
    (hi - lo) + coverBelow x (max e b) is

/-- The window strokes of an activity before stroke `n`, counted from a fixed stroke. -/
def Stencil.winCount (s : Stencil) (act n : Nat) : Nat :=
  let is := sortBy (fun a b => decide (a.1 ≤ b.1)) ((s.winsOf act).map fun w => (w.start, w.start + w.count))
  let m := n + (s.coatLen - s.phase)
  m / s.coatLen * coverBelow s.coatLen 0 is + coverBelow (m % s.coatLen) 0 is

/-- The window strokes of an activity from stroke `a` to stroke `b` (R244). -/
def Stencil.winsBetween (s : Stencil) (act a b : Nat) : Nat := s.winCount act (b + 1) - s.winCount act a

/-- Whether the present stroke is a window stroke of an activity (R241). -/
def Hw.actOn (h : Hw) (act : Nat) : Bool := (h.stn.active.winsOf act).any fun w => w.at_ h.coatPos

end Sys2Proof.Machine
end

