-- ==== Sys2Proof/Machine/Apc.lean ====
section
/-! DEFINITION. The application cores and the separation kernel (R492 to R505): slices, guest timers and the regulated
requests of the clusters. -/

namespace Sys2Proof.Machine

open Sys2Proof

/-- Whether a hart's cluster has its clocks and its supply (R513, R515). -/
def Hw.hartOn (h : Hw) (hart : Nat) : Bool :=
  h.domainOn (29 + hart / 8) && ! h.on F.DBG_STATUS_FROZEN && h.sys.lost.isNone && ! h.sys.refLost

/-- Whether a slice covers the present stroke in coat (R496): one whose `START` is L or more does not run. -/
def ApcSlice.covers (s : ApcSlice) (pos : Nat) : Bool := decide (s.start ≤ pos) && decide (pos < s.start + s.count)

/-- The partition whose slice a hart runs in the present stroke (R496).  A partition that awaits its restart begins with
the first stroke of a slice (R505). -/
def Hw.sliceOwner (h : Hw) (hart : Nat) : Option Nat :=
  (h.parts.find? fun e =>
    (e.2.allot.map (·.slices)).getD [] |>.any fun s =>
      s.core == hart && s.covers h.coatPos &&
        (s.start == h.coatPos || ! h.sys.apc.restart.contains e.1)).map (·.1)

/-- The key of a virtual hart's timer. -/
def timerKey (pid hart : Nat) : Nat := pid * 32 + hart

/-- A partition begins or goes on on a hart (R497): after a switch it runs from the third stroke of its slice; timers that
became due meanwhile are taken (R493). -/
def Apc.runOn (a : Apc) (hart pid now : Nat) : Apc :=
  let switch := a.holds.find hart ≠ some pid || a.restart.contains pid
  let due := a.timerDue.contains (timerKey pid hart)
  { a with running := a.running.put hart pid
           from_ := a.from_.put hart (if switch then now + 2 else now)
           holds := a.holds.put hart pid
           restart := a.restart.filter (· ≠ pid)
           timerDue := a.timerDue.filter (· ≠ timerKey pid hart)
           timerTaken := if due then NSet.add a.timerTaken (timerKey pid hart) else a.timerTaken }

/-- A hart stops: it is idle, and holds the state of the partition that ran last (R496, R497). -/
def Apc.stop (a : Apc) (hart : Nat) : Apc := { a with running := a.running.del hart, from_ := a.from_.del hart }

/-- The slices of a hart at a stroke pulse (R496, R497). -/
def Hw.sliceEnd (h : Hw) (hart : Nat) : Hw :=
  let p := if h.hartOn hart then h.sliceOwner hart else none
  if h.sys.apc.running.find hart = p then h
  else h.modApc fun a => match p with
    | none => a.stop hart
    | some pid => a.runOn hart pid h.now

/-- `APC_SLICE_END` (R497). -/
def execApcSliceEnd (hart : Fin 32) (s : State) : Host.Outcome State Fault Refusal := s.next fun h => h.sliceEnd hart

/-- Whether a partition has a slice on a hart. -/
def Hw.onHart (h : Hw) (pid hart : Nat) : Bool :=
  ((((h.part pid).bind (·.allot)).map (·.slices)).getD []).any fun s => s.core == hart

/-- Whether a partition runs on a hart now: in its slice, past the switch (R497). -/
def Hw.runsOn (h : Hw) (pid hart : Nat) : Bool :=
  h.hartOn hart && h.sys.apc.running.find hart == some pid && decide (h.sys.apc.from_.getD 0 hart ≤ h.now)

/-- The time that the `time` CSR shows `ns10` steps of 10 ns after the pulse (R493). -/
def Hw.csrTime (h : Hw) (ns10 : Nat) : Nat := h.now * 100 + ns10

/-- `vstimecmp` of a virtual hart: its value, when the guest has written one (R493). -/
def Hw.guestTimer (h : Hw) (pid hart : Nat) (cmp : Option (BitVec 64)) (ns10 : Nat) : Hw :=
  let k := timerKey pid hart
  if ! h.onHart pid hart then h
  else
    let h := match cmp with
      | none => h
      | some v => h.modApc fun a => { a with timers := a.timers.put k v.toNat, timerDue := a.timerDue.filter (· ≠ k)
                                             timerTaken := a.timerTaken.filter (· ≠ k) }
    match h.sys.apc.timers.find k with
    | none => h
    | some v =>
      if h.csrTime ns10 < v ∨ h.sys.apc.timerTaken.contains k then h
      else h.modApc fun a =>
        if h.runsOn pid hart then { a with timerTaken := NSet.add a.timerTaken k } else { a with timerDue := NSet.add a.timerDue k }

/-- `GUEST_TIMER` (R493): the guest writes `cmp` to `vstimecmp`, or leaves it, and the comparison is made `ns10` steps of
10 ns after the stroke pulse. -/
def execGuestTimer (pid : Fin 256) (hart : Fin 32) (cmp : Option (BitVec 64)) (ns10 : Fin 100) (s : State) :
    Host.Outcome State Fault Refusal :=
  s.next fun h => h.guestTimer pid hart cmp ns10

/-! Regulated requests (R499 to R501). -/

/-- A fault handed to a partition's operating system (R501). -/
def Hw.toGuest (h : Hw) (pid hart cause addr : Nat) : Hw :=
  h.modApc fun a => { a with faults := a.faults ++ [{ pid := pid, hart := hart, cause := cause, addr := addr }] }

/-- A request's fault. -/
def Hw.guestFault (h : Hw) (r : ApcReq) (cause : Nat) : Hw := h.toGuest r.pid r.hart cause r.va

/-- The partition whose slice runs on a hart, past the switch (R497). -/
def Hw.hartPid (h : Hw) (hart : Nat) : Option Nat := (h.sys.apc.running.find hart).filter fun p => h.runsOn p hart

/-- The access that a request makes.  A cache-block operation needs only that the page is mapped for reading
(log entry 52). -/
def ApcReq.acs (r : ApcReq) : Acs :=
  if r.kind = 5 then .fetch
  else if r.kind = 1 ∨ r.kind = 4 ∨ r.kind = 6 ∨ r.kind = 7 ∨ r.kind = 8 ∨ r.kind = 12 then .wr else .rd

/-- The guest-page fault of a request (R501): a cache-block operation's is that of a store (log entry 52). -/
def ApcReq.pageCause (r : ApcReq) : Nat :=
  if r.kind = 5 then 20 else if r.acs = .wr ∨ 9 ≤ r.kind then 23 else 21

/-- The run of addresses that a request reaches: a line, a page-table entry, the bytes of an `NC` access, or those of a
store. -/
def apcSpan (o : ApcOp) : Nat × Nat :=
  let va := o.va.toNat
  if o.kind.val = 2 then (va / 8 * 8, 8)
  else if o.kind.val = 3 then (va, o.len.val)
  else if o.kind.val = 4 ∨ o.kind.val = 12 then (va, min o.data.length 64)
  else (va / 64 * 64, 64)

/-- The key of a line in L2: cluster, partition, line (R498). -/
def lineKey (pid hart va : Nat) : Nat := (hart / 8 * 256 + pid) * 2 ^ 42 + va / 64

/-- The key of the line that a request names. -/
def ApcReq.key (r : ApcReq) : Nat := lineKey r.pid r.hart r.va

/-- The line that L2 holds of a request's address, in the partition's own ways (R498). -/
def Hw.ownL2 (h : Hw) (r : ApcReq) : Option L2Line := h.sys.apc.lines.find r.key

/-- The DRAM line of a request. -/
def ApcReq.dpa (r : ApcReq) : Nat := ((r.ps.map (·.1)).headD 0) / 64

/-- The fault that consuming stained data raises (R501); a store to part of a stained line raises none. -/
def ApcReq.stainCause (r : ApcReq) : Option Nat :=
  if r.kind = 5 then some 1 else if r.kind = 6 then some 7 else if r.kind = 0 ∨ r.kind = 2 ∨ r.kind = 3 then some 5 else none

/-- Data that a request consumes, with their stain (R501). -/
def Hw.consumed (h : Hw) (r : ApcReq) (st : Bool) : Hw :=
  match st, r.stainCause with
  | true, some c => h.guestFault r c
  | _, _ => h

/-- A line after a store to it (R501): its stain goes when stores have overwritten all of it. -/
def L2Line.stored (x : L2Line) (off : Nat) (bs : List Byte) : L2Line :=
  let cover := (upto off bs.length).foldl NSet.add x.cover
  { x with bytes := x.bytes.take off ++ bs ++ x.bytes.drop (off + bs.length), dirty := true, cover := cover
           stain := x.stain && decide (cover.length < 64) }

/-- A request that finds its line in L2: no request leaves the cluster (R499).  A store makes the copy the only one in any
L2 (R183). -/
def Hw.hitL2 (h : Hw) (r : ApcReq) (x : L2Line) : Hw :=
  if r.kind = 12 then
    (h.ownLine r.key x.dpa).modApc fun a => { a with lines := a.lines.put r.key (x.stored (r.va % 64) (r.data.take (64 - r.va % 64))) }
  else h.consumed r x.stain

/-- L2 takes the line of a fill, stained when its data are (R501); the fill of a store or an AMO leaves no other copy in any
L2 (R183). -/
def Hw.fillL2 (h : Hw) (r : ApcReq) (bs : List Byte) (st : Bool) : Hw :=
  let h := if r.kind = 6 ∨ r.kind = 7 then h.ownLine r.key r.dpa else h
  h.modApc fun a => { a with lines := a.lines.put r.key { dpa := r.dpa, bytes := bs, stain := st, dirty := false, cover := [] } }

/-- The line of a write-back goes on to the system cache when that holds the line, or to memory; a line that leaves L2 is
gone from it (R499 to R501). -/
def Hw.writeBack (h : Hw) (r : ApcReq) (x : L2Line) (held : Bool) : Hw :=
  let h := h.pushL2 (r.key, x)
  let h := if held then h else (h.cleanSc x.dpa).modApc fun a => { a with sysc := a.sysc.del x.dpa }
  if r.kind = 1 then h.modApc fun a => { a with lines := a.lines.del r.key } else h

/-- A cache-block operation reaches memory (R184): what any cache has changed is written to the memory port, and with
`CBO.FLUSH` no copy stays. -/
def Hw.blockOp (h : Hw) (r : ApcReq) : Hw :=
  let h := (h.snoop r.dpa).cleanSc r.dpa
  if r.kind = 11 then h.discardLine r.dpa else h

/-- Whether the system cache holds a request's line. -/
def Hw.hitSc (h : Hw) (r : ApcReq) : Bool := r.hit && ! r.nc && (h.scLine r.dpa).isSome

/-- A request reaches memory, or the system cache (R177, R180, R183, R501).  A line that the system cache takes in for a line
that it holds no longer replaces what was there. -/
def Hw.apcAccess (h : Hw) (r : ApcReq) : Hw :=
  if r.kind = 4 then h.writePieces r.pid r.data false r.ps
  else if r.nc ∨ r.kind = 3 then
    let (_, st, h) := h.readPieces r.pid r.ps
    h.consumed r st
  else
    let held := h.hitSc r
    match h.scLine r.dpa, held with
    | some x, true =>
      let h := if r.kind = 2 then h else h.fillL2 r x.bytes x.stain
      h.consumed r x.stain
    | _, _ =>
      let h := (h.cleanSc r.dpa).modApc fun a => { a with sysc := a.sysc.del r.dpa }
      let (bs, st, h) := h.readPieces r.pid r.ps
      if r.kind = 2 then h.consumed r st
      else ((h.putSc r.dpa { pid := r.pid, bytes := bs, stain := st, dirty := false }).fillL2 r bs st).consumed r st

/-- What a request does once the regulator has let it pass, and its tokens are taken. -/
def Hw.apcPerform (h : Hw) (r : ApcReq) : Hw :=
  if r.kind = 1 ∨ r.kind = 8 then
    match h.ownL2 r with
    | some x => h.writeBack r x (h.hitSc r)
    | none => h
  else if r.kind = 10 ∨ r.kind = 11 then h.blockOp r
  else h.apcAccess r

/-- Puts a request with those that wait until the next refill or the end of a QUIET window (R70, R499, R500). -/
def Hw.apcWait (h : Hw) (r : ApcReq) : Hw := h.modApc fun a => { a with waiting := a.waiting ++ [r] }

/-- Whether every piece of a run lies in DRAM or scratch; the other regions are reached without the regulator (R499). -/
def Hw.allMemory (h : Hw) (ps : List (Nat × Nat)) : Bool :=
  ps.all fun p => h.region p.1 == .dram || h.region p.1 == .scratch

/-- Whether a request is served within its cluster: it finds its line in L2, or it concerns a line whose copies have nothing
to write back (R499). -/
def Hw.inCluster (h : Hw) (r : ApcReq) : Bool :=
  if r.nc then decide (r.kind = 1 ∨ 8 ≤ r.kind)
  else if r.kind = 0 ∨ r.kind = 5 ∨ r.kind = 6 ∨ r.kind = 7 then (h.ownL2 r).isSome
  else if r.kind = 1 ∨ r.kind = 8 then ! (h.ownL2 r).any (·.dirty)
  else if r.kind = 10 ∨ r.kind = 11 then ! h.lineDirty r.dpa
  else decide (r.kind = 9 ∨ r.kind = 12)

/-- What a request that is served within its cluster does: an uncached page holds no lines. -/
def Hw.apcLocal (h : Hw) (r : ApcReq) : Hw :=
  if r.nc then h
  else if r.kind = 1 then h.modApc fun a => { a with lines := a.lines.del r.key }
  else if r.kind = 9 ∨ r.kind = 11 then h.discardLine r.dpa
  else if r.kind = 8 ∨ r.kind = 10 then h
  else match h.ownL2 r with
  | some x => h.hitL2 r x
  | none => h

/-- Whether a request reaches its memory port: it finds its data neither in the system cache nor, changed, in an L2, or it
writes to memory. -/
def Hw.misses (h : Hw) (r : ApcReq) : Bool :=
  if r.kind = 10 ∨ r.kind = 11 then true
  else ! h.hitSc r

/-- A request passes the cluster's regulator, and when it misses the system cache the DRAM buckets (R499, R500); in a QUIET
window a miss waits at the regulator (R70). -/
def Hw.apcServe (h : Hw) (r : ApcReq) : Hw :=
  if h.inCluster r then h.apcLocal r
  else
    let b := r.hart / 8 * 256 + r.pid
    let left := h.stn.apcBytes.getD 0 b
    if ! r.paid && decide (left < 64) then (h.noteExhausted r.pid 3).apcWait r
    else
      let h := if r.paid then h else { h with stn := { h.stn with apcBytes := h.stn.apcBytes.putD 0 b (left - 64) } }
      let r := { r with paid := true }
      let h := if r.nc || decide (r.kind = 1 ∨ r.kind = 8) then h else h.snoop r.dpa
      if ! h.misses r then h.apcPerform r
      else if h.quiet && r.ps.any fun p => h.region p.1 == .dram then h.apcWait r
      else match h.chargeDram r.pid r.ps (r.acs == .wr && decide (r.kind ≠ 6 ∧ r.kind ≠ 7) || decide (10 ≤ r.kind)) with
      | none => (h.noteExhausted r.pid 0).apcWait r
      | some h => h.apcPerform r

/-- The waiting requests are tried again, in order, after a refill (R499, R500). -/
def Hw.apcRetry (h : Hw) : Hw :=
  let ws := h.sys.apc.waiting
  ws.foldl (fun h r => h.apcServe r) (h.modApc fun a => { a with waiting := [] })

/-- Whether cores keep no lines of a page: one with `NC`, and the scratch, whose contents every agent sees (R183). -/
def Hw.uncached (h : Hw) (pid va : Nat) (ps : List (Nat × Nat)) : Bool :=
  (h.mem.leaf pid va).any (fun e => bit e.1 7) || ps.any fun p => h.region p.1 == .scratch

/-- A request of the partition that runs on a hart (R499): its address translates when it comes.  A request to registers is
refused by the firewall (R180): its security event, and nothing else. -/
def Hw.apcRequest (h : Hw) (o : ApcOp) : Hw :=
  match h.sys.apc.running.find o.hart.val with
  | none => h
  | some pid =>
    if ! h.runsOn pid o.hart.val then h
    else
      let r : ApcReq := { pid := pid, hart := o.hart.val, kind := o.kind.val, va := o.va.toNat, data := o.data.take 64, hit := o.hit
                          nc := false, ps := [], paid := false }
      let sp := apcSpan o
      match h.mem.translateRun pid sp.1 sp.2 r.acs false with
      | .error (a, c) => (h.translationFault 3 c pid a).guestFault r r.pageCause
      | .ok ps =>
        if ps.any fun p => h.region p.1 == .regs then
          h.event srcFw 0x0805 pid ((((ps.map (·.1)).headD 0) - 0x0400_0000_0000) / 65536)
        else if h.allMemory ps then h.apcServe { r with ps := ps, nc := h.uncached pid o.va.toNat ps }
        else h

/-- `APC_MEMORY_REQUEST` (R499 to R501). -/
def execApcMemoryRequest (o : ApcOp) (s : State) : Host.Outcome State Fault Refusal := s.next fun h => h.apcRequest o

/-! What resets do to the cores (R505). -/

/-- The pending identities of a partition's guest interrupt file are cleared (R505, R617). -/
def Hw.clearGfile (h : Hw) (pid : Nat) : Hw :=
  match (h.part pid).bind (·.allot) with
  | none => h
  | some a => { h with gfiles := h.gfiles.filter fun k => k / 2048 ≠ a.irqCore * 8 + a.gfile }

/-- `PARTITION_RESET` at the cores (R505): ways written back and invalidated, guest files cleared, and the partition
begins at `ENTRY` in its next slice; its virtual harts stop at the next stroke boundary. -/
def Hw.apcPartReset (h : Hw) (pid : Nat) : Hw :=
  if ((h.part pid).bind (·.allot)).isNone then h
  else
    ((h.clearGfile pid).purge (fun e => keyPid e.1 == pid) fun _ => false).modApc fun a =>
      { a with restart := NSet.add a.restart pid
               waiting := a.waiting.filter fun r => r.pid ≠ pid
               timers := a.timers.filter fun e => e.1 / 32 ≠ pid
               timerDue := a.timerDue.filter fun k => k / 32 ≠ pid
               timerTaken := a.timerTaken.filter fun k => k / 32 ≠ pid }

/-- Harts of a partition that awaits its restart stop at the stroke boundary (R505). -/
def Hw.apcStroke (h : Hw) : Hw :=
  let h := h.modApc fun a =>
    (a.running.filter fun e => a.restart.contains e.2).foldl (fun a e => a.stop e.1) a
  h.apcRetry

/-- `PART_DESTROY` at the cores: slices and guest files are free (R505). -/
def Hw.apcDestroy (h : Hw) (pid : Nat) : Hw :=
  let h := h.apcPartReset pid
  h.modApc fun a =>
    { (a.running.filter fun e => e.2 == pid).foldl (fun a e => a.stop e.1) a with
        restart := a.restart.filter (· ≠ pid), holds := a.holds.filter fun e => e.2 ≠ pid }

/-- `MODULE_WARM` at the cores: the kernel restarts, and every partition begins at `ENTRY` with its memory kept (R505): what
the caches had changed reaches memory first (log entry 52). -/
def Hw.apcWarm (h : Hw) : Hw :=
  (h.purge (fun _ => true) fun _ => true).modApc fun _ =>
    { Apc.reset with restart := (h.parts.filter fun e => e.2.allot.isSome).foldl (fun s e => NSet.add s e.1) [] }

end Sys2Proof.Machine
end

