-- ==== Sys2Proof/Machine/Fetch.lean ====
section
/-! DEFINITION. Command fetch (R195, R201 to R203): what stands at the fetch point of a queue, what keeps it from
being fetched, and the fetch itself. -/

namespace Sys2Proof.Machine

open Sys2Proof

/-- Reads a chunk of a queue's submission ring through its context (R177, R206). -/
def Hw.readChunk (h : Hw) (pid : Nat) (q : Queue) (slot : Nat) : Except (Nat × Nat) (List Byte × Bool) × Hw :=
  h.readVa 2 pid (q.desc.sqVa + 64 * (slot % 2 ^ q.desc.log2Size)) 64

/-- Reads chunk 0: its bytes, whether the granule of its `EXT` byte is stained, and whether the other is (R203, R420). -/
def Hw.readFirst (h : Hw) (pid : Nat) (q : Queue) (slot : Nat) :
    Except (Nat × Nat) (List Byte × Bool × Bool) × Hw :=
  let va := q.desc.sqVa + 64 * (slot % 2 ^ q.desc.log2Size)
  match h.readVa 2 pid va 32 with
  | (.error e, h) => (.error e, h)
  | (.ok (a, st), h) =>
    match h.readVa 2 pid (va + 32) 32 with
    | (.error e, h) => (.error e, h)
    | (.ok (b, st'), h) => (.ok (a ++ b, st, st'), h)

/-- The rest of a command's chunks, and whether any is stained, or the first failing address and cause. -/
def Hw.readChunks (h : Hw) (pid : Nat) (q : Queue) : Nat → Nat → Except (Nat × Nat) (List Byte × Bool) × Hw
  | 0, _ => (.ok ([], false), h)
  | n + 1, slot =>
    match h.readChunk pid q slot with
    | (.error e, h) => (.error e, h)
    | (.ok (bs, st), h) =>
      match h.readChunks pid q n (slot + 1) with
      | (.error e, h) => (.error e, h)
      | (.ok (cs, st'), h) => (.ok (bs ++ cs, st || st'), h)

/-- A processor that fetches from the owner queue serves it now (R202, R225). -/
def Hw.serveOwner (h : Hw) (pid cp : Nat) : Hw :=
  if pid ≠ 0 ∨ h.on (F.CP_STATUS_OWNER_Q.blk cp) then h
  else ((List.range 4).foldl (fun h n => h.put (F.CP_STATUS_OWNER_Q.blk n) 0) h).put (F.CP_STATUS_OWNER_Q.blk cp) 1

/-- Enters a command as fetched, and takes its chunks from the budget (R60, R201). -/
def Hw.enterFetched (h : Hw) (f : Fetched) : Hw :=
  let h := { h with fetched := h.fetched ++ [f] }
  let h := h.modQueue f.pid f.queue fun q => { q with fetchedSlots := q.fetchedSlots + f.slots }
  ((h.chargeFetch f.pid f.cp f.slots).serveOwner f.pid f.cp).setMirror f.pid f.queue mirFetching

/-- A queue's next command is fetched when every condition of R201 holds; one whose budget is reached counts it
(R62).  A chunk whose page fails translation is taken like a stained one, with one slot. -/
def Hw.fetchNext (h : Hw) (pid q cp : Nat) : Hw :=
  match h.queue pid q with
  | none => h
  | some qu =>
    if ! h.sequencing || ! h.hubOn || ! h.cpRuns cp || ((h.part pid).map (·.destroying)).getD false then h
    else if qu.submitted = 0 then h.setMirror pid q mirIdle
    else
      let base : Fetched :=
        { pid := pid, queue := q, cp := cp, slot := qu.fetchPoint % 2 ^ qu.desc.log2Size, slots := 1, pkt := [],
          stained := false, extStained := false, fault := none, grantAt := h.now }
      let go (h : Hw) (f : Fetched) : Hw :=
        match h.fetchWait pid q qu f.slots with
        | none => h.enterFetched f
        | some w => (if w = mirBudget then h.noteExhausted pid 2 else h).setMirror pid q w
      match h.fetchWait pid q qu 1 with
      | some w => (if w = mirBudget then h.noteExhausted pid 2 else h).setMirror pid q w
      | none =>
        match h.readFirst pid qu qu.fetchPoint with
        | (.error e, h) => go h { base with pkt := zeros 64, fault := some (pageStatus e) }
        | (.ok (bs, true, _), h) => go h { base with pkt := bs, stained := true, extStained := true }
        | (.ok (bs, false, late), h) =>
          let n := slotsOf bs
          if qu.submitted < n then h.setMirror pid q mirIdle
          else
            match h.fetchWait pid q qu n with
            | some w => (if w = mirBudget then h.noteExhausted pid 2 else h).setMirror pid q w
            | none =>
              match h.readChunks pid qu (n - 1) (qu.fetchPoint + 1) with
              | (.error e, h) => go h { base with pkt := bs ++ zeros (64 * (n - 1)), slots := n, fault := some (pageStatus e) }
              | (.ok (cs, st), h) => go h { base with pkt := bs ++ cs, slots := n, stained := late || st }

/-- Whether a grant to a queue would fetch its next command, all chunks of it (R201 to R203). -/
def Hw.fetchable (h : Hw) (pid q cp : Nat) : Bool := decide (h.fetched.length < (h.fetchNext pid q cp).fetched.length)

/-- `FETCH_GRANT` (R201). -/
def execFetchGrant (pid : Fin 256) (queue : Fin 16) (cp : Fin 4) (s : State) : Host.Outcome State Fault Refusal :=
  s.next fun h => h.fetchNext pid.val queue.val cp.val

end Sys2Proof.Machine
end

