-- ==== Sys2Proof/Machine/Flits.lean ====
section
/-! DEFINITION. Flits (R143 to R147, R152): the fields and the check of a header, the flits of a message, and the
message that a receiver reads from the flits that have reached it. -/

namespace Sys2Proof.Machine

open Sys2Proof

/-! Headers. -/

/-- The destination, as 32y + x (R143). -/
def hdrDst (w : Nat) : Nat := bits w 0 10

/-- The source, as 32y + x (R143). -/
def hdrSrc (w : Nat) : Nat := bits w 10 10

/-- `PID` (R143). -/
def hdrPid (w : Nat) : Nat := bits w 20 8

/-- `CLS` (R143). -/
def hdrCls (w : Nat) : Nat := bits w 28 2

/-- `TYPE` (R143). -/
def hdrType (w : Nat) : Nat := bits w 30 4

/-- `STAIN` (R143). -/
def hdrStain (w : Nat) : Bool := bit w 34

/-- `VC` (R143). -/
def hdrVc (w : Nat) : Nat := bits w 35 2

/-- `SEQ` (R143). -/
def hdrSeq (w : Nat) : Nat := bits w 37 12

/-- `LAST` (R143). -/
def hdrLast (w : Nat) : Bool := bit w 49

/-- The header check (R145): the CRC of bits 49 down to 0. -/
def hdrCheck (w : Nat) : Nat := crcMsb 14 0x202D (bitsMsb 50 w)

/-- The `VC` that a TYPE requires (R144); `none` for the reserved types. -/
def typeVc (ty : Nat) : Option Nat :=
  if ty = 5 ∨ ty = 6 ∨ ty = 8 ∨ ty = 0xB then some 1
  else if ty ≤ 0xD then some 0 else none

/-- Whether a header passes its check (R144, R145); a `CFG` flit of a partition fails it (log entry 47). -/
def hdrGood (w : Nat) : Bool :=
  hdrCheck w == bits w 50 14 && typeVc (hdrType w) == some (hdrVc w) && (hdrType w ≠ 0xD || hdrPid w == 0)

/-- A header with its check (R145). -/
def hdrSeal (w : Nat) : Nat := bits w 0 50 + hdrCheck w * 2 ^ 50

/-- Bits 19:0 of a header: where a flit goes and whence it comes (R143). -/
def hdrWay (dst src : Nat) : Nat := dst % 1024 + src % 1024 * 2 ^ 10

/-- Bits 29:20 of a header, in their place: for whom a flit moves (R143, R146). -/
def hdrOwner (pid cls : Nat) : Nat := pid % 256 * 2 ^ 20 + cls % 4 * 2 ^ 28

/-- Bits 49:30 of a header, in their place: what a flit is (R143). -/
def hdrKind (ty seq : Nat) (stain last : Bool) : Nat :=
  ty % 16 * 2 ^ 30 + b2n stain * 2 ^ 34 + (typeVc ty).getD 0 * 2 ^ 35 + seq % 4096 * 2 ^ 37 + b2n last * 2 ^ 49

/-- A header as the injecting router writes it for a tile: its source, PID and class replace what the flit carried
(R146). -/
def hdrStamp (w src pid cls : Nat) : Nat :=
  hdrSeal (hdrWay (hdrDst w) src + hdrOwner pid cls + bits w 30 20 * 2 ^ 30)

/-! Places. -/

/-- The logical tile beside which a DRAM channel attaches (R142). -/
def channelTile (c : Nat) : Nat :=
  let d := c / 8
  let m := c % 8
  let n := d / 2
  let e := d % 2
  32 * (16 * (n / 2) + 2 * m + e) + (16 * (n % 2) + 15 * e)

/-- The physical tile that raises a logical tile's events. -/
def Hw.routerTile (h : Hw) (l : Nat) : Nat := (h.physOf l).getD 0

/-! Messages as flits. -/

/-- The logical tiles beside the detection finishers of C0 to C3 (R141). -/
def finisherTile : List Nat := [0, 31, 31 * 32, 31 * 32 + 31]

/-- The descriptor of a message (R152). `COMMIT` and `RELEASE` notices carry slot, bytes and K in the same places (log
entry 48). -/
def Msg.describe (m : Msg) : List Byte :=
  putField (putField (putField (putField (zeros 64) 0 4 (m.addr % 2 ^ 19)) 4 1 (m.slot % 16)) 8 4 m.bytes) 12 4 m.k

/-- One flit of a message. -/
def Msg.flit (m : Msg) (seq : Nat) (stain last : Bool) (p : List Byte) : Flit :=
  { header := hdrSeal (hdrWay (if m.type = 9 then finisherTile.getD m.dst 0 else m.dst) m.src + hdrOwner m.pid m.cls +
      hdrKind m.type seq stain last)
    payload := fit 64 p }

/-- The count of the data flits of a message (R152). -/
def Msg.dataFlits (m : Msg) : Nat := cdiv m.bytes 64

/-- The flits of a message (R144, R152). -/
def Msg.toFlits (m : Msg) : List Flit :=
  if m.type ≤ 1 then
    m.flit 0 false m.pieces.isEmpty m.describe ::
      m.pieces.map fun p => m.flit (p.idx + 1) p.stain (p.idx + 1 == m.dataFlits) p.data
  else if m.type = 9 then m.pieces.map fun p => m.flit p.idx p.stain true p.data
  else [m.flit m.slot false true m.describe]

/-- The pieces of a message's data: 64 bytes each, with the stain of the flit that carries them (R147). -/
def piecesOf (bs : List SByte) : List MsgPiece :=
  (List.range (cdiv bs.length 64)).map fun i =>
    let p := (bs.drop (64 * i)).take 64
    { idx := i, data := p.map (·.1), stain := p.any (·.2) }

/-- The bytes of a message that its flits brought. -/
def Msg.got (m : Msg) : Nat := sumNat (m.pieces.map fun p => p.data.length)

/-- A piece of a message as its bytes, each with its flit's stain (R147). -/
def MsgPiece.sbytes (p : MsgPiece) : List SByte := p.data.map fun b => (b, p.stain)

/-- Injects a message's flits at the router of the tile that sends it (R148). -/
def Hw.post1 (h : Hw) (m : Msg) : Hw :=
  { h with fab := { h.fab with inq := h.fab.inq.mod [] (5 * h.redirect m.pid m.src + 4) (· ++ m.toFlits) } }

/-! Messages read from flits. -/

/-- What keeps flits in order (R149): source, destination, class and channel. -/
def Flit.stream (f : Flit) : Nat := bits f.header 0 20 + hdrCls f.header * 2 ^ 20 + hdrVc f.header * 2 ^ 22

/-- The message that a flit opens. -/
def Flit.msg (f : Flit) : Msg :=
  let w := f.header
  { src := hdrSrc w, dst := hdrDst w, pid := hdrPid w, cls := hdrCls w, type := hdrType w, slot := field f.payload 4 1 % 16
    k := field f.payload 12 4, addr := field f.payload 0 4 % 2 ^ 19, bytes := field f.payload 8 4
    pieces := if hdrType w = 9 then [⟨0, f.payload, hdrStain w⟩] else [] }

/-- Gathers the data flits of a message after the flit of index `i`: the message with how many flits it took, once its
end is known by `LAST` or by a flit that belongs to no part of it. Flits that were lost leave gaps (R145, R152). -/
def Msg.gather (m : Msg) (i : Nat) : List Flit → Option (Msg × Nat)
  | [] => none
  | f :: fs =>
    let w := f.header
    let j := i + 1 + (hdrSeq w + 4095 - i % 4096) % 4096
    if hdrType w ≠ m.type ∨ m.dataFlits < j then some (m, 0)
    else
      let m := { m with pieces := m.pieces ++ [⟨j - 1, f.payload.take (m.bytes - 64 * (j - 1)), hdrStain w⟩] }
      if hdrLast w then some (m, 1) else (m.gather j fs).map fun x => (x.1, x.2 + 1)

/-- The message at the front of a stream and the count of its flits; a data flit whose descriptor was lost is taken
alone and is no message (R145). -/
def readMsg : List Flit → Option Msg × Nat
  | [] => (none, 0)
  | f :: fs =>
    let m := f.msg
    if 1 < m.type ∨ (hdrSeq f.header = 0 ∧ hdrLast f.header = true) then (some m, 1)
    else if hdrSeq f.header ≠ 0 then (none, 1)
    else match m.gather 0 fs with
      | some (m, n) => (some m, n + 1)
      | none => (none, 0)

/-- Takes the first `n` flits of a stream out of a queue. -/
def dropStream (k : Nat) : Nat → List Flit → List Flit
  | 0, q => q
  | _, [] => []
  | n + 1, f :: fs => if f.stream = k then dropStream k n fs else f :: dropStream k (n + 1) fs

/-- The first flit of a queue that is wanted and is the first of its stream there (R149). -/
def firstHead (want : Flit → Bool) : NSet → List Flit → Option Flit
  | _, [] => none
  | seen, f :: fs =>
    if seen.contains f.stream then firstHead want seen fs
    else if want f then some f else firstHead want (NSet.add seen f.stream) fs

/-- The next message in a queue of arrived flits that is wanted, and the queue without its flits. -/
def takeQueued (want : Flit → Bool) (q : List Flit) : Option (Option Msg × List Flit) :=
  (firstHead want [] q).map fun f =>
    let (m, n) := readMsg (q.filter fun g => g.stream == f.stream)
    (m, dropStream f.stream n q)

end Sys2Proof.Machine
end

