-- ==== Sys2Proof/Machine/Station.lean ====
section
/-! DEFINITION. The memory stations' queues (R151): a request that arrives, waits, is answered RETRY or is held back by its
tile. -/

namespace Sys2Proof.Machine

open Sys2Proof

/-- A request that a retired channel answers (R431): zeros with stain, or an acknowledgement. -/
def MemReq.retired (r : MemReq) : MemReq :=
  if r.write then { r with data := [], stain := false } else { r with data := zeros r.len, stain := true }

/-- Whether a request has the form of R144 and belongs to a channel's station (R141, R410). -/
def Hw.stationOk (h : Hw) (c : Nat) (r : MemReq) : Bool :=
  decide (64 ≤ r.len) && decide (r.len ≤ 2048) && decide (r.addr % 2048 + r.len ≤ 2048) && decide (r.addr < dramEnd) &&
    h.mem.channelAt r.addr == c && (! r.write || r.data.length == r.len)

/-- An arbiter instance (R436). -/
def Hw.arb (h : Hw) (i : Nat) : Arb := h.sys.arbs.getD Arb.idle i

/-- The messages that a requester has outstanding at a channel's station, as PID and tag (R151). -/
def Hw.stationLoad (h : Hw) (c src : Nat) : NSet :=
  let rs := (h.fab.stationQ.filter fun e => e.1 / 256 == c).flatMap (·.2) ++ (h.arb c).granted
  (rs.filter fun r => r.src == src).foldl (fun s r => NSet.add s (r.pid * 65536 + r.tag)) []

/-- A request at a channel's station (R151): it joins its partition's queue, or is answered RETRY when that is full. -/
def Hw.joinMem (h : Hw) (c : Nat) (r : MemReq) : Hw :=
  let k := c * 256 + r.pid
  if 8 ≤ (h.fab.stationQ.getD [] k).length then { h with fab := { h.fab with retryMarks := h.fab.retryMarks ++ [r] } }
  else { h with fab := { h.fab with stationQ := h.fab.stationQ.mod [] k (· ++ [r]) } }

/-- A request for channel `c`'s station (R151): one for another station is discarded (R141), one of a retired channel is
answered as such (R431), and a tile that has 8 outstanding there holds it back. -/
def Hw.arriveMem (h : Hw) (c : Nat) (r : MemReq) : Hw :=
  if ! h.stationOk c r then h.event (srcTile (h.routerTile (channelTile c))) 0x0209 r.pid (if r.write then 4 else 3)
  else if h.chRetired c then { h with fab := { h.fab with responses := h.fab.responses ++ [r.retired] } }
  else if r.src < 1024 ∧ 8 ≤ (h.stationLoad c r.src).length then
    { h with fab := { h.fab with heldBack := h.fab.heldBack ++ [r] } }
  else h.joinMem c r

/-- Tiles send the first request that they hold back for a channel, now that one of theirs has been served there (R151). -/
def Hw.sendHeld (h : Hw) (c : Nat) : Hw :=
  match h.fab.heldBack.find? fun r => h.mem.channelAt r.addr == c && decide ((h.stationLoad c r.src).length < 8) with
  | some r => ({ h with fab := { h.fab with heldBack := h.fab.heldBack.erase r } }).arriveMem c r
  | none => h

/-- Requests answered RETRY are sent again, in order (R151). -/
def Hw.resendMem (h : Hw) (mine : MemReq → Bool) : Hw :=
  let (rs, left) := h.fab.retryMarks.partition mine
  rs.foldl (fun h r => h.arriveMem (h.mem.channelAt r.addr) r) { h with fab := { h.fab with retryMarks := left } }

end Sys2Proof.Machine
end

