-- ==== Sys2Proof/Machine/Dram.lean ====
section
/-! DEFINITION. DRAM (R409 to R435): refresh, training, the scrub queue, the patrol, hairline leaks, channel
retirement and device loss, rebuilding, and edge modules (R153). -/

namespace Sys2Proof.Machine

open Sys2Proof

/-! Training (R412 to R414). -/

/-- The longest run of consecutive numbers below `n` that satisfy `p`, as first and length; the first of equal
runs. -/
def longestRun (n : Nat) (p : Nat → Bool) : Nat × Nat :=
  let (best, cur) := (List.range n).foldl (fun (s : (Nat × Nat) × (Nat × Nat)) i =>
    if p i then
      let cur := (if s.2.2 = 0 then i else s.2.1, s.2.2 + 1)
      (if s.1.2 < cur.2 then cur else s.1, cur)
    else (s.1, (0, 0))) ((0, 0), (0, 0))
  if best.2 < cur.2 then cur else best

/-- The middle of a run, rounded down. -/
def midRun (r : Nat × Nat) : Nat := r.1 + (r.2 - 1) / 2

/-- What a sweep chooses (R412): Vref, delay, the delay run's width and the Vref run's width. -/
structure LaneChoice where
  vref : Nat
  delay : Nat
  width : Nat
  codes : Nat
  deriving DecidableEq, Repr

/-- The choice from a sweep's delay steps by Vref code (R412); `none` when no run is long enough. -/
def chooseLane (sweep : List (BitVec 64)) : Option LaneChoice :=
  let runs := (List.range 128).map fun v => longestRun 64 fun i => bit (sweep.getD v 0).toNat i
  let codes := longestRun 128 fun v => decide (12 ≤ (runs.getD v (0, 0)).2)
  if codes.2 < 8 then none
  else
    let v := midRun codes
    let r := runs.getD v (0, 0)
    some { vref := v, delay := midRun r, width := r.2, codes := codes.2 }

/-- Whether a choice is marginal (R412). -/
def LaneChoice.marginal (c : LaneChoice) : Bool := decide (c.width < 20) || decide (c.codes < 12)

/-- The settings of a byte lane (R443). -/
def Hw.setLane (h : Hw) (c lane : Nat) (r w : LaneChoice) : Hw :=
  let f (x : Fld) : Fld := (x.blk c).nth lane
  let h := (h.put (f F.MC_LANE_RD_DQS) r.delay).put (f F.MC_LANE_WR_DQ) w.delay
  let h := (h.put (f F.MC_LANE_VREF_RD) r.vref).put (f F.MC_LANE_VREF_WR) w.vref
  let h := h.put (f F.MC_LANE_MARGINAL) (b2n (r.marginal || w.marginal))
  let h := (h.put (f F.MC_LANE_RD_WIDTH) r.width).put (f F.MC_LANE_WR_WIDTH) w.width
  h.put (f F.MC_LANE_VREF_WIDTH) (min r.codes w.codes)

/-- A lane's `MARGINAL` is reported (R412, R463, R464). -/
def Hw.noteMarginal (h : Hw) (c lane : Nat) : Hw :=
  if h.on ((F.MC_LANE_MARGINAL.blk c).nth lane) then
    (h.put (F.MC_INT_STATUS_MARGINAL.blk c) 1).event (srcChannel c) 0x010B 0 lane
  else h

/-- A channel's two lanes are trained (R412): whether a choice was found on both. -/
def Hw.trainChannel (h : Hw) (c : Nat) (a b : LaneSweep) : Bool × Hw :=
  let h := (h.put (F.MC_TRAIN_AT.blk c) (h.now % 2 ^ 32)).put (F.MC_TRAIN_TEMP.blk c) (h.get (F.MC_TRAIN_TEMP_NOW.blk c))
  let h := (h.addSat (F.MC_TRAIN_COUNT.blk c) 1).put (F.MC_STATUS_TRAIN_DUE.blk c) 0
  let h := h.modDram fun d => { d with trainAt := d.trainAt.del c }
  match chooseLane a.rd, chooseLane a.wr, chooseLane b.rd, chooseLane b.wr with
  | some r0, some w0, some r1, some w1 =>
    let h := (((h.setLane c 0 r0 w0).setLane c 1 r1 w1).noteMarginal c 0).noteMarginal c 1
    let marg := r0.marginal || w0.marginal || r1.marginal || w1.marginal
    (true, if marg then h.healthAdd (partChannel c) inTrain 1 else h)
  | _, _, _, _ => (false, h)

/-! Retirement (R430 to R432). -/

/-- Changes an arbiter instance. -/
def Hw.modArb (h : Hw) (i : Nat) (f : Arb → Arb) : Hw :=
  { h with sys := { h.sys with arbs := h.sys.arbs.mod Arb.idle i f } }

/-- `FROZEN` of an instance (R445). -/
def frozenFld (i : Nat) : Fld := if i < 64 then F.ARB_FROZEN0_FROZEN.bit i else F.ARB_FROZEN1_FROZEN.bit (i - 64)

/-- `ARB_FROZEN` follows an instance: frozen and drained (R440). -/
def Hw.showFrozen (h : Hw) (i : Nat) : Hw :=
  h.put (frozenFld i) (b2n ((h.arb i).freeze.isSome && (h.arb i).granted.isEmpty))

/-- Firmware sets or clears `FREEZE` of an instance (R440). -/
def Hw.freezeArb (h : Hw) (i : Nat) (on : Bool) : Hw :=
  (h.modArb i fun a => { a with freeze := if on then some (a.freeze.getD h.now) else none }).showFrozen i

/-- A channel begins to retire (R430, R431), with the command that asked for it. -/
def Hw.startRetire (h : Hw) (c cause : Nat) (cmd : Option (Nat × Nat × Nat)) : Hw :=
  if h.chRetired c then h
  else
    let h := h.modDram fun d =>
      { d with retiring := d.retiring ++ [{ channel := c, cause := cause, at_ := h.now, cmd := cmd }]
               trainAt := d.trainAt.del c }
    h.freezeArb c true

/-- The STRIPED blocks of 2 MiB (R426). -/
def Mem.stripedBlocks (m : Mem) : NSet :=
  m.frames.foldl (fun s e => if e.2.striped && decide (e.1 < 3670016) then NSet.add s (e.1 / 32) else s) []

/-- Stripe `s` of a block (R427). -/
def stripeAt (block s : Nat) : StripeAt := { number := 128 * block + s, base := block * 0x20_0000 + 16384 * s }

/-- The largest number of shares of a stripe that are erased at one byte place (R429). -/
def Hw.stripeErased (h : Hw) (x : StripeAt) : Nat :=
  if h.sys.dram.faults.isEmpty then h.erasedShares x 0
  else (List.range 32).foldl (fun n l => max n (h.erasedShares x (64 * l))) 0

/-- The stripes with three or more erased shares. -/
def Hw.lostStripes (h : Hw) : List Nat :=
  h.mem.stripedBlocks.flatMap fun b => (List.range 128).filterMap fun s =>
    if 3 ≤ h.stripeErased (stripeAt b s) then some (128 * b + s) else none

/-- The number of stripes with one or two erased shares. -/
def Hw.degradedStripes (h : Hw) : Nat :=
  sumNat (h.mem.stripedBlocks.map fun b => countNat 128 fun s =>
    let n := h.stripeErased (stripeAt b s)
    decide (n = 1) || decide (n = 2))

/-- `ECC_STRIPE` follows the stripes (R444); each stripe that was not lost before raises `STRIPE_LOST`. -/
def Hw.countStripes (h : Hw) (before : List Nat) : Hw :=
  let lost := h.lostStripes
  let h := (h.put F.ECC_STRIPE_DEGRADED (min h.degradedStripes (2 ^ 32 - 1))).put F.ECC_STRIPE_LOST (min lost.length 65535)
  lost.foldl (fun h n =>
    if before.contains n then h else (h.put F.ECC_INT_STATUS_STRIPE_LOST 1).event srcEcc 0x0107 0 n) h

/-- `JOURNAL_REBUILD` (R219): the journal is rebuilt, and every entry from `CQ_HEAD` to `CQ_TAIL` is rewritten from
its record. -/
def Hw.rebuildJournal (h : Hw) : Hw :=
  let h := (h.put F.JNL_STATUS_DEGRADED 1).put F.JNL_INT_STATUS_DEGRADED 1
  let posted := h.cmds.filter (·.posted)
  let h := h.addSat F.JNL_RECOVERY_REPOSTED posted.length
  posted.foldl (fun h c => match c.entry with | some e => h.writeEntry c e | none => h) h

/-- A device is lost (R432): its remaining channels retire together. -/
def Hw.loseDevice (h : Hw) (d : Nat) : Hw :=
  if bit (h.get F.ECC_STATUS_DEV_LOST) d then h
  else
    let h := (h.put (F.ECC_STATUS_DEV_LOST.bit d) 1).put F.ECC_INT_STATUS_DEV_LOST 1
    let h := h.event srcEcc 0x0106 0 d
    let h := (upto (8 * d) 8).foldl (fun h c =>
      let h := h.put (F.MC_STATUS_DEVICE_LOST.blk c) 1
      if h.sys.dram.retiring.any fun r => r.channel == c then h else h.startRetire c 3 none) h
    h.rebuildJournal

/-- The requests that wait at a channel are answered as retired. -/
def Hw.answerRetired (h : Hw) (c : Nat) : Hw :=
  let (mine, rest) := h.fab.stationQ.partition fun e => e.1 / 256 == c
  { h with fab := { h.fab with stationQ := rest
                               responses := h.fab.responses ++ (mine.flatMap (·.2)).map MemReq.retired } }

/-- STRIPED writes of a lost channel that were not yet durable: their data share is stained (R429). -/
def Hw.loseDurable (h : Hw) (c : Nat) : Hw :=
  let (mine, rest) := h.sys.dram.durable.partition fun e => e.2.1 == c
  let m := mine.foldl (fun m e => (m.addStain (2 * e.2.2.1)).addStain (2 * e.2.2.1 + 1)) h.mem
  ({ h with mem := m }).modDram fun d => { d with durable := rest }

/-- A retirement ends (R431, S+3): the channel reads as retired, and the third of a device loses the device. -/
def Hw.completeRetire (h : Hw) (c : Nat) : Hw :=
  match h.sys.dram.retiring.find? fun r => r.channel == c with
  | none => h
  | some r =>
    if h.now < r.at_ + 3 then h
    else
      let (mine, rest) := h.sys.dram.retiring.partition fun r => r.channel == c
      let before := h.lostStripes
      let h := h.modDram fun d => { d with retiring := rest, scrub := d.scrub.filter fun e => h.mem.channelAt (e.1 * 64) ≠ c }
      let h := (h.put (F.MC_STATUS_STATE.blk c) 3).put (F.MC_STATUS_CAUSE.blk c) r.cause
      let h := (h.put (F.MC_STATUS_TRAIN_DUE.blk c) 0).put (F.MC_INT_STATUS_RETIRED.blk c) 1
      let h := (h.put (F.ECC_RETIRED_CH.bit c) 1).put (F.ECC_STATUS_DEV_DEGRADED.bit (c / 8)) 1
      let h := ((h.event (srcChannel c) 0x0105 0 r.cause).loseDurable c).answerRetired c
      let h := mine.foldl (fun h r => match r.cmd with | some (p, q, n) => h.finishAt p q n 0 0 0 {} | none => h) h
      let h := if 3 ≤ countNat 8 fun m => h.chRetired (8 * (c / 8) + m) then h.loseDevice (c / 8) else h
      h.countStripes before

/-- `CHANNEL_RETIREMENT` (R431): the retirement of a channel completes. -/
def execChannelRetirement (c : Fin 64) (s : State) : Host.Outcome State Fault Refusal :=
  s.next fun h => if h.fabricOn then h.completeRetire c.val else h

/-- The checks of `CHANNEL_RETIRE` (R587). -/
def specChannelRetire : OpSpec :=
  { opc := 0xCD, issuer := .owner, fields := fun _ c => decide (c.f 16 1 < 64) }

/-- `CHANNEL_RETIRE` (R430): nothing for a channel that is retired already. -/
def execChannelRetire (q : QRef) (p : Packet) (s : State) : Host.Outcome State Fault Refusal :=
  s.next fun h => h.issue specChannelRetire q p fun h c =>
    if h.chRetired (c.f 16 1) then h.done c 0 else h.startRetire (c.f 16 1) 2 (some (c.pid, c.queue, c.num))

/-! Refresh, retraining and training (R413 to R415). -/

/-- Whether a channel's controller works on its device: it is in service or in training, and not in self-refresh. -/
def Hw.chAlive (h : Hw) (c : Nat) : Bool :=
  let st := h.get (F.MC_STATUS_STATE.blk c)
  decide (1 ≤ st) && decide (st ≤ 2) && h.fabricOn

/-- `REFRESH` (R415). -/
def execRefresh (c : Fin 64) (s : State) : Host.Outcome State Fault Refusal :=
  s.next fun h => if h.chAlive c.val then h.modDram fun d => { d with refreshAt := d.refreshAt.put c.val h.now } else h

/-- `RETRAINING` (R413): at the start of a QUIET window every channel that is due begins to retrain. -/
def Hw.retrain (h : Hw) : Hw :=
  let st := h.stn.active
  let starts := st.wins.any fun w => (st.winAct w).kind == 1 && decide (w.start = h.coatPos)
  if ! h.fabricOn || ! starts then h
  else (List.range 64).foldl (fun h c =>
    if h.on (F.MC_STATUS_TRAIN_DUE.blk c) && h.get (F.MC_STATUS_STATE.blk c) == 1 &&
       ! (h.sys.dram.retiring.any fun r => r.channel == c) then
      (h.put (F.MC_STATUS_STATE.blk c) 2).modDram fun d => { d with trainAt := d.trainAt.put c h.now }
    else h) h

/-- `RETRAINING`. -/
def execRetraining (s : State) : Host.Outcome State Fault Refusal := s.next Hw.retrain

/-- `TRAINING_COMPLETE` (R412, R414): after 32 strokes a retraining channel is in service with new settings, or
begins to retire. -/
def execTrainingComplete (c : Fin 64) (a b : LaneSweep) (s : State) : Host.Outcome State Fault Refusal :=
  s.next fun h =>
    match h.sys.dram.trainAt.find c.val with
    | some t0 =>
      if ! h.fabricOn || decide (h.now < t0 + 32) then h
      else
        match h.trainChannel c.val a b with
        | (true, h) => h.put (F.MC_STATUS_STATE.blk c.val) 1
        | (false, h) => (h.put (F.MC_STATUS_STATE.blk c.val) 1).startRetire c.val 1 none
    | none => h

/-! Errors, the scrub queue and the patrol (R417 to R424). -/

/-- Errors that a line takes (R417, R411), where its granule stores it. -/
def Hw.upsetLine (h : Hw) (l : Nat) (u : LineUpset) : Hw :=
  if u.errors.isEmpty ∧ u.copies = 0 then h
  else
    let p := h.mem.place (l * 64) / 64
    h.modDram fun d =>
      { d with faults := SMap.putD [] d.faults p (u.errors.foldl (fun es e => addError es (e.1.val, e.2.toNat)) (d.faults.getD [] p))
               copies := SMap.putD 0 d.copies l (d.copies.getD 0 l ^^^ u.copies.toNat) }

/-- What a rewrite leaves of a line (R418, R419, R423, R429): a corrected line holds its corrected bytes; an
uncorrectable one keeps its bytes with both halves stained, unless its stripe reconstructs it; the copies agree. -/
def Hw.rewriteLine (h : Hw) (l : Nat) : Hw :=
  let p := h.mem.place (l * 64) / 64
  let set := [2 * l, 2 * l + 1].filter h.copiesSet
  let bad := h.lineBad p
  let lost := bad && h.gStained (2 * l)
  let bs := h.lineBytes l
  let m := if (h.sys.dram.faults.find p).isSome then h.mem.setBytes (l * 64) bs else h.mem
  let m := [2 * l, 2 * l + 1].foldl (fun m g => if set.contains g || lost then m.addStain g else m.clearStain g) m
  ({ h with mem := m }).modDram fun d => { d with faults := d.faults.del p, copies := d.copies.del l }

/-- `SCRUB_REWRITE` (R418): the oldest line on the scrub queue of a channel is rewritten, outside QUIET windows. -/
def execScrubRewrite (c : Fin 64) (s : State) : Host.Outcome State Fault Refusal :=
  s.next fun h =>
    match h.sys.dram.scrub.find? fun e => channelOf (h.mem.place (e.1 * 64)) == c.val with
    | some e =>
      if h.quiet || ! h.chAlive c.val then h
      else (h.rewriteLine e.1).modDram fun d => { d with scrub := d.scrub.filter fun x => x.1 ≠ e.1 }
    | none => h

/-- The lines that the patrol visits on a channel, in increasing DPA (R423): those of INITIALIZED frames. -/
def Hw.patrolNext (h : Hw) (c after : Nat) : Option Nat :=
  (h.mem.frames.flatMap fun e =>
    if e.2.state ≠ 0 && decide (e.1 < 3670016) && ! (e.2.firmware && ! e.2.striped) && decide (after < (e.1 + 1) * 1024) then
      (upto (e.1 * 1024) 1024).filter fun l => decide (after ≤ l) && h.mem.channelAt (l * 64) == c
    else []).head?

/-- The patrol reads a line (R423): errors count, and a line in error is repaired or stained. -/
def Hw.patrolLine (h : Hw) (l : Nat) : Hw :=
  let bad := (h.sys.dram.faults.find (h.mem.place (l * 64) / 64)).isSome || (h.sys.dram.copies.find l).isSome
  let before := if bad then h.lostStripes else []
  let h := h.noteRead l
  let h := if bad then (h.rewriteLine l).modDram fun d => { d with scrub := d.scrub.filter fun x => x.1 ≠ l } else h
  let h := match h.mem.stripeOf (l * 64) with
    | some (x, _, _) => h.modDram fun d => { d with parity := NSet.add d.parity x.number }
    | none => h
  if bad then h.countStripes before else h

/-- A pass of the patrol has ended on every channel in service (R423, R444). -/
def Hw.patrolPass (h : Hw) : Hw :=
  if (List.range 64).all fun c => h.chRetired c || h.sys.dram.patrolled.contains c then
    (((h.addSat F.ECC_PATROL_PASSES 1).put F.ECC_PATROL_AT (h.now % 2 ^ 32))).modDram fun d =>
      { d with patrolled := [], patrol := [], passAt := h.now, lateRaised := false }
  else h

/-- Whether the patrol runs: outside QUIET windows, and not while shares are rebuilt (R423, R433). -/
def Hw.patrolRuns (h : Hw) : Bool := h.fabricOn && ! h.quiet && h.sys.dram.rebuild.isEmpty

/-- `PATROL_READ` (R423): the patrol reads its next line on a channel, which may have taken errors. -/
def execPatrolRead (c : Fin 64) (u : LineUpset) (s : State) : Host.Outcome State Fault Refusal :=
  s.next fun h =>
    if ! h.patrolRuns || h.chRetired c.val || h.sys.dram.patrolled.contains c.val then h
    else
      match h.patrolNext c.val (h.sys.dram.patrol.getD 0 c.val) with
      | some l => ((h.upsetLine l u).patrolLine l).modDram fun d => { d with patrol := d.patrol.put c.val (l + 1) }
      | none => (h.modDram fun d => { d with patrolled := NSet.add d.patrolled c.val }).patrolPass

/-- `PATROL_LATE` (R444): no pass has ended for 32 s. -/
def execPatrolLate (s : State) : Host.Outcome State Fault Refusal :=
  s.next fun h =>
    if h.fabricOn && ! h.sys.dram.lateRaised && decide (h.sys.dram.passAt + 32000000 < h.now) then
      ((h.put F.ECC_INT_STATUS_PATROL_LATE 1).event srcEcc 0x0109 0 0).modDram fun d => { d with lateRaised := true }
    else h

/-- One level falls by one while it is above 0 (R424). -/
def Hw.leakOne (h : Hw) (f : Fld) : Hw := let v := h.get f; if v = 0 then h else h.put f (v - 1)

/-- The hairline leak of a stroke boundary (R424), once in each stroke. -/
def Hw.leak (h : Hw) : Hw :=
  if h.now ≤ h.sys.dram.leakAt then h
  else
    let ch := h.now % 2 ^ h.get F.ECC_HAIR_CH_LEAK == 0
    let ti := h.now % 2 ^ h.get F.ECC_HAIR_TILE_LEAK == 0
    let h := if ch then (List.range 64).foldl (fun h c => h.leakOne (F.ECC_CH_LEVEL_LEVEL.nth c)) h else h
    let h := if ti then (List.range 1152).foldl (fun h t => h.leakOne (F.ECC_TILE_LEVEL_LEVEL.nth t)) h else h
    h.modDram fun d => { d with leakAt := h.now }

/-- `HAIRLINE_LEAK` (R424). -/
def execHairlineLeak (s : State) : Host.Outcome State Fault Refusal :=
  s.next fun h => if h.fabricOn then h.leak else h

/-- A level above a changed `DEPTH` becomes `DEPTH` from the next stroke on (R424). -/
def Hw.clampHairlines (h : Hw) : Hw :=
  let cap (h : Hw) (f : Fld) (d : Nat) : Hw := if d < h.get f then h.put f d else h
  let dc := max 1 (h.get F.ECC_HAIR_CH_DEPTH)
  let dt := max 1 (h.get F.ECC_HAIR_TILE_DEPTH)
  let listed := h.regs.filterMap fun e =>
    if e.1 / 0x10000 = 0x640 then some (e.1 % 0x10000) else none
  listed.foldl (fun h o =>
    if 0x100 ≤ o ∧ o ≤ 0x2F8 then cap h (F.ECC_CH_LEVEL_LEVEL.nth ((o - 0x100) / 8)) dc
    else if 0x1000 ≤ o ∧ o ≤ 0x33F8 then cap h (F.ECC_TILE_LEVEL_LEVEL.nth ((o - 0x1000) / 8)) dt
    else h) h

/-! STRIPED writes and rebuilding (R428, R433). -/

/-- `STRIPE_WRITE_DURABLE` (R428): P and Q of a stripe are written, outside QUIET windows. -/
def execStripeWriteDurable (stripe : Fin 14680064) (s : State) : Host.Outcome State Fault Refusal :=
  s.next fun h =>
    if h.fabricOn && ! h.quiet then
      h.modDram fun d => { d with durable := d.durable.filter fun e => e.1 ≠ stripe.val }
    else h

/-- The first stripe of a STRIPED block at or after a DPA. -/
def Hw.stripeFrom (h : Hw) (a : Nat) : Option StripeAt :=
  (h.mem.stripedBlocks.flatMap fun b => (List.range 128).filterMap fun s =>
    let x := stripeAt b s
    if a ≤ x.base then some x else none).head?

/-- Starts or restarts the rebuild at the first stripe (R433). -/
def Hw.startRebuild (h : Hw) : Hw :=
  match h.stripeFrom 0 with
  | some x => h.put F.ECC_REBUILD_POS x.base
  | none => (h.put F.ECC_REBUILD_POS 0xFFFF_FFFF_FFFF).modDram fun d => { d with rebuild := [] }

/-- Rebuilds the shares of a stripe on the channels that have come back (R433): a data share with stain where its
stripe has lost three, else as reconstructed. -/
def Hw.rebuildStripe (h : Hw) (x : StripeAt) : Hw :=
  (List.range 6).foldl (fun h k =>
    if h.sys.dram.rebuild.contains (x.channel (x.device k)) then
      let first := x.base / 0x20_0000 * 0x20_0000 + x.number % 128 * 12288 + 2048 * k
      (List.range 32).foldl (fun h l =>
        let line := first / 64 + l
        let lost := h.gStained (2 * line)
        let m := [2 * line, 2 * line + 1].foldl (fun m g => if lost then m.addStain g else m.clearStain g) h.mem
        { h with mem := m }) h
    else h) h

/-- `STRIPE_REBUILD` (R433): the next stripe is rebuilt, on the patrol's allocation. -/
def execStripeRebuild (s : State) : Host.Outcome State Fault Refusal :=
  s.next fun h =>
    if ! h.fabricOn || h.quiet || h.sys.dram.rebuild.isEmpty then h
    else
      match h.stripeFrom (h.get F.ECC_REBUILD_POS) with
      | none => (h.put F.ECC_REBUILD_POS 0xFFFF_FFFF_FFFF).modDram fun d => { d with rebuild := [] }
      | some x =>
        let before := h.lostStripes
        let h := (h.rebuildStripe x).put F.ECC_REBUILD_POS (x.base + 1)
        let h := match h.stripeFrom (x.base + 1) with
          | some y => h.put F.ECC_REBUILD_POS y.base
          | none => (h.put F.ECC_REBUILD_POS 0xFFFF_FFFF_FFFF).modDram fun d => { d with rebuild := [] }
        h.countStripes before

/-- A retired channel returns to service at PORST or `MODULE_WARM` (R433): every line of it is stained until it is
overwritten, and its shares are rebuilt. -/
def Hw.readmit (h : Hw) (c : Nat) : Hw :=
  let h := (h.put (F.MC_STATUS_STATE.blk c) 1).put (F.MC_STATUS_CAUSE.blk c) 0
  let h := (h.put (F.ECC_RETIRED_CH.bit c) 0).freezeArb c false
  let m := h.mem
  let h := { h with mem := { m with chStain := NSet.add m.chStain c,
                                    chClear := m.chClear.filter fun g => m.channelAt (g * 32) ≠ c } }
  let h := h.modDram fun d => { d with rebuild := NSet.add d.rebuild c }
  let d := c / 8
  let n := countNat 8 fun m => h.chRetired (8 * d + m)
  let h := h.put (F.ECC_STATUS_DEV_DEGRADED.bit d) (b2n (decide (0 < n)))
  if n = 0 then
    let h : Hw := (upto (8 * d) 8).foldl (fun h c => h.put (F.MC_STATUS_DEVICE_LOST.blk c) 0) (h.put (F.ECC_STATUS_DEV_LOST.bit d) 0)
    if h.get F.ECC_STATUS_DEV_LOST = 0 then h.put F.JNL_STATUS_DEGRADED 0 else h
  else h

/-! Edge modules (R153). -/

/-- The compute dies at the ends of an edge (R436). -/
def edgeDies (e : Nat) : List Nat :=
  match e with
  | 0 => [0, 1]
  | 1 => [2, 3]
  | 2 => [0, 2]
  | 3 => [1, 3]
  | 4 => [0]
  | _ => [1]

/-- `EDGE_MODULE_LOST` (R153): an edge goes on with one module less; the loss of a second is a die fault of the
compute dies at its ends. -/
def execEdgeModuleLost (e : Fin 6) (s : State) : Host.Outcome State Fault Refusal :=
  s.next fun h =>
    let n := h.edgeModules e.val
    if ! h.fabricOn || n = 0 then h
    else
      let h := { h with fab := { h.fab with modules := h.fab.modules.put e.val (n - 1) } }
      let h := (h.event (srcEdge (2 * e.val)) 0x050A 0 (n - 1)).healthAdd (partEdge e.val) inEdgeLost 1
      if n + 1 ≤ (if e.val < 4 then 6 else 4) then (edgeDies e.val).foldl (fun h d => h.dieFault d 1) h else h

end Sys2Proof.Machine
end

