-- ==== Sys2Proof/Machine/MapCmds.lean ====
section
/-! DEFINITION. `MAP` and `UNMAP` (R172 to R176, R426, R603, R604): pages, frame ownership, share sets and
STRIPED blocks. -/

namespace Sys2Proof.Machine

open Sys2Proof

/-- What `MAP` asks for (R604). -/
structure MapReq where
  ctx : Nat
  size : Nat
  r : Bool
  w : Bool
  te : Bool
  dev : Bool
  nc : Bool
  x : Bool
  striped : Bool
  count : Nat
  va : Nat
  dpa : Nat
  deriving DecidableEq, Repr

/-- The parameters of `MAP` (R604). -/
def mapReq (c : Cmd) : MapReq :=
  let b := c.f 17 1
  { ctx := c.f 16 1, size := bits b 0 2, r := bit b 2, w := bit b 3, te := bit b 4, dev := bit b 5,
    nc := bit b 6, x := bit b 7, striped := bit (c.f 18 1) 0, count := bits (c.f 20 2) 0 10, va := c.f 24 6,
    dpa := c.f 32 6 }

/-- The page size in bytes. -/
def MapReq.page (m : MapReq) : Nat := if m.size = 0 then 0x1000 else if m.size = 1 then 0x10000 else 0x20_0000

/-- The bytes that the pages cover. -/
def MapReq.len (m : MapReq) : Nat := m.page * m.count

/-- Whether DRAM or scratch lies behind a request (R169). -/
def MapReq.isMem (h : Hw) (m : MapReq) : Bool := h.region m.dpa == .dram || h.region m.dpa == .scratch

/-- The frames that a request covers: none outside DRAM and scratch (R173). -/
def MapReq.frames (h : Hw) (m : MapReq) : List Nat :=
  if m.isMem h then upto (frameOf m.dpa) ((m.dpa % 0x10000 + m.len + 0xFFFF) / 0x10000) else []

/-- Whether the region of a request permits it, with its attribute (R169). -/
def MapReq.regionOk (h : Hw) (m : MapReq) : Bool :=
  let one := h.region m.dpa == h.region (m.dpa + m.len - 1)
  one && match h.region m.dpa with
    | .dram | .scratch => ! m.dev
    | .tileSram | .regs => m.ctx == 0 && m.dev
    | .doorbell => m.dev && (m.ctx == 0 || (m.dpa == 0x0480_0000_0000 + m.ctx * 0x1000 && m.len == 0x1000))
    | .sobWin => m.dev && m.dpa == 0x0500_0000_0000 && m.len == 0x8_0000
    | .none => false

/-- Whether a context maps a page that meets a run of virtual addresses. -/
def Mem.vaUsed (m : Mem) (c va n : Nat) : Bool :=
  let x := m.ctx c
  x.l1.any (fun e => decide (e.1 * 0x20_0000 < va + n) && decide (va < (e.1 + 1) * 0x20_0000)) ||
  x.l0.any (fun e => decide (e.1 * 0x1000 < va + n) && decide (va < (e.1 + 1) * 0x1000))

/-- The device physical address that a leaf gives. -/
def leafDpa (e : Nat) : Nat := bits e 12 36 * 0x1000

/-- Whether a leaf maps part of a frame. -/
def leafHits (e sz f : Nat) : Bool :=
  let a := leafDpa e
  let b := frameBase f
  decide (a < b + 0x10000) && decide (b < a + sz)

/-- The leaves of a context that map part of a frame. -/
def Ctx.leavesOn (x : Ctx) (f : Nat) : List Nat :=
  ((x.l1.filter fun e => leafHits e.2 0x20_0000 f) ++ (x.l0.filter fun e => leafHits e.2 0x1000 f)).map (·.2)

/-- The contexts that map a frame. -/
def Mem.holders (m : Mem) (f : Nat) : NSet :=
  m.ctxs.foldl (fun s e => if (e.2.leavesOn f).isEmpty then s else NSet.add s e.1) []

/-- The contexts that map a frame writable. -/
def Mem.writers (m : Mem) (f : Nat) : NSet :=
  m.ctxs.foldl (fun s e => if (e.2.leavesOn f).any (fun l => bit l 3) then NSet.add s e.1 else s) []

/-- Whether a context is a class-D partition's. -/
def Hw.ctxD (h : Hw) (c : Nat) : Bool := c ≠ 0 && h.clsOf c == 0

/-- The class rule of R172 for a frame. -/
def Hw.classRule (h : Hw) (m : MapReq) (f : Nat) : Bool :=
  if m.ctx = 0 then true
  else if h.ctxD m.ctx then ! (h.mem.writers f).any fun c => c ≠ 0 && ! h.ctxD c
  else ! m.w || ! (h.mem.holders f).any h.ctxD

/-- The frames of a 2 MiB block of DRAM (R426). -/
def blockFrames (b : Nat) : List Nat := upto (32 * b) 32

/-- Whether a block is STRIPED. -/
def Mem.blockStriped (m : Mem) (b : Nat) : Bool := (m.frame (32 * b)).striped

/-- Whether a PLAIN block may be converted to STRIPED (R426). -/
def Mem.canStripe (m : Mem) (b : Nat) : Bool :=
  (blockFrames b).all fun f => (m.frame f).state == 2 && ! (m.frame f).firmware

/-- Whether a STRIPED block may be converted back (R426). -/
def Mem.canPlain (m : Mem) (b : Nat) : Bool := (upto (32 * b) 24).all fun f => (m.frame f).state == 2

/-- The blocks of a request. -/
def MapReq.blocks (h : Hw) (m : MapReq) : NSet := (m.frames h).foldl (fun s f => NSet.add s (f / 32)) []

/-- The class rule of blocks (R426). -/
def MapReq.stripeOk (h : Hw) (m : MapReq) : Bool :=
  if h.region m.dpa = .dram then
    if m.striped then
      m.size ≠ 2 && (m.frames h).all fun f => decide (f % 32 < 24) && (h.mem.blockStriped (f / 32) || h.mem.canStripe (f / 32))
    else (m.blocks h).all fun b => ! h.mem.blockStriped b || h.mem.canPlain b
  else ! m.striped

/-- The frames as they stand after the conversions that a request brings (R426). -/
def MapReq.convert (h : Hw) (m : MapReq) : Mem :=
  if h.region m.dpa = .dram then
    (m.blocks h).foldl (fun (x : Mem) b =>
      if x.blockStriped b == m.striped then x
      else (blockFrames b).foldl (fun (x : Mem) f =>
        x.setFrame f { x.frame f with striped := m.striped && decide (f % 32 < 24)
                                      firmware := m.striped && decide (24 ≤ f % 32) }) x) h.mem
  else h.mem

/-- Whether a frame admits a mapping (R172): not firmware's, and CLEAN or MAPPED.  A parity frame of a block
that is converted back counts as CLEAN. -/
def MapReq.frameOk (h : Hw) (m : MapReq) (f : Nat) : Bool :=
  let e := (m.convert h).frame f
  ! e.firmware && (e.state == 2 || e.state == 3) && h.classRule m f

/-- Whether a context is the owner's or that of a partition that is not being destroyed (R604, R607). -/
def Hw.ctxLive (h : Hw) (c : Nat) : Bool :=
  c == 0 || ((h.part c).any fun p => ! p.destroying)

/-- The checks of `MAP` (R172, R426, R604). -/
def mapOk (h : Hw) (c : Cmd) : Bool :=
  let m := mapReq c
  h.ctxLive m.ctx && m.size ≠ 3 && (! m.w || m.r) && decide (1 ≤ m.count) && decide (m.count ≤ 512) &&
  m.va % m.page == 0 && m.dpa % m.page == 0 && decide (m.va + m.len ≤ 2 ^ 48) && m.regionOk h &&
  ! (m.dev && (m.te || m.x)) && ! h.mem.vaUsed m.ctx m.va m.len && m.stripeOk h &&
  (m.frames h).all (m.frameOk h)

/-- Whether a mapping of a frame needs a new share set (R172). -/
def needsSet (x : Mem) (ctx f : Nat) : Bool :=
  let e := x.frame f
  e.state == 3 && ! e.shared && (x.holders f).any (· ≠ ctx)

/-- `MAP` is refused when share sets run out (R172). -/
def mapRes (h : Hw) (c : Cmd) : Option (Nat × Option Nat) :=
  let m := mapReq c
  if h.mem.sets.length + ((m.frames h).filter (needsSet h.mem m.ctx)).length ≤ 4096 then none else some (0, none)

/-- The leaf of a page (R176); `off` is its offset from the first. -/
def MapReq.leaf (h : Hw) (m : MapReq) (off : Nat) : Nat :=
  1 + 2 + 4 * b2n m.r + 8 * b2n m.w + 16 * b2n m.te + 32 * b2n m.dev + 64 * b2n (m.size == 1) + 128 * b2n m.nc +
    256 * b2n m.striped + 512 * b2n (m.isMem h) + 1024 * b2n m.x + (m.dpa + off) / 0x1000 * 0x1000

/-- The context with a request's leaves (R175). -/
def MapReq.enter (h : Hw) (m : MapReq) (x : Ctx) : Ctx :=
  if m.size = 2 then
    { x with l1 := (List.range m.count).foldl (fun l i =>
        l.put (m.va / 0x20_0000 + i) (m.leaf h (i * 0x20_0000))) x.l1 }
  else
    { x with l0 := (List.range (m.len / 0x1000)).foldl (fun l i =>
        l.put (m.va / 0x1000 + i) (m.leaf h (i * 0x1000))) x.l0 }

/-- The lowest share set that is free. -/
def Mem.freeSet (m : Mem) : Nat := (firstNat 4097 fun i => (m.sets.find i).isNone).getD 0

/-- Writes a frame's share set from the contexts that map it. -/
def Mem.fillSet (m : Mem) (f : Nat) : Mem :=
  { m with sets := m.sets.put (m.frame f).set { rd := m.holders f, wr := m.writers f } }

/-- The ownership of a frame after a mapping into a context (R170, R172). -/
def Mem.frameMapped (m : Mem) (ctx f : Nat) : Mem :=
  let e := m.frame f
  if e.state ≠ 3 then m.setFrame f { e with state := 3, owner := ctx, shared := false, set := 0 }
  else if e.shared then m.fillSet f
  else if (m.holders f).any (· ≠ ctx) then
    (m.setFrame f { e with shared := true, set := m.freeSet }).fillSet f
  else m

/-- `SETS_FREE` follows the share sets in use. -/
def Hw.showSets (h : Hw) : Hw := h.put F.PMMU_STATUS_SETS_FREE (4096 - h.mem.sets.length)

/-- The effect of `MAP`. -/
def mapEffect (h : Hw) (c : Cmd) : Hw :=
  let m := mapReq c
  let x := m.convert h
  let fs := m.frames h
  let x := x.setCtx m.ctx (m.enter h (x.ctx m.ctx))
  (({ h with mem := fs.foldl (fun x f => x.frameMapped m.ctx f) x }).showSets).done c 0

/-- The checks of `MAP` (R587). -/
def specMap : OpSpec :=
  { opc := 0xC3, issuer := .owner, fields := mapOk, res := mapRes }

/-- `MAP` (R172, R603, R604). -/
def execMap (q : QRef) (p : Packet) (s : State) : Host.Outcome State Fault Refusal :=
  s.next fun h => h.issue specMap q p mapEffect

/-- Whether a level-0 page at index `i` lies wholly in a run: for a 64 KiB page all its 16 leaves. -/
def pageIn (va n i e : Nat) : Bool :=
  let lo := if bit e 6 then i / 16 * 0x10000 else i * 0x1000
  let sz := if bit e 6 then 0x10000 else 0x1000
  decide (va ≤ lo) && decide (lo + sz ≤ va + n)

/-- A context without the pages that lie wholly in a run, the removed leaves with their sizes, and the number
of pages removed. -/
def Ctx.without (x : Ctx) (va n : Nat) : Ctx × List (Nat × Nat) × Nat :=
  let in1 (e : Nat × Nat) : Bool := decide (va ≤ e.1 * 0x20_0000) && decide ((e.1 + 1) * 0x20_0000 ≤ va + n)
  let g1 := x.l1.filter in1
  let g0 := x.l0.filter fun e => pageIn va n e.1 e.2
  let pages := g1.length + (g0.filter fun e => ! bit e.2 6 || e.1 % 16 == 0).length
  ({ l1 := x.l1.filter fun e => ! in1 e, l0 := x.l0.filter fun e => ! pageIn va n e.1 e.2 },
   g1.map (fun e => (e.2, 0x20_0000)) ++ g0.map (fun e => (e.2, 0x1000)), pages)

/-- The frames that leaves map. -/
def leafFrames (h : Hw) (ls : List (Nat × Nat)) : NSet :=
  ls.foldl (fun s l =>
    let a := leafDpa l.1
    if h.region a = .dram ∨ h.region a = .scratch then
      (upto (frameOf a) ((a % 0x10000 + l.2 + 0xFFFF) / 0x10000)).foldl NSet.add s
    else s) []

/-- The ownership of a frame after mappings of it have ended (R170 to R172). -/
def Mem.frameUnmapped (m : Mem) (f : Nat) : Mem :=
  let e := m.frame f
  if e.state ≠ 3 then m
  else if (m.holders f).isEmpty then
    let m := if e.shared then { m with sets := m.sets.del e.set } else m
    m.setFrame f { e with state := 1, owner := 0, shared := false, set := 0 }
  else if e.shared then m.fillSet f
  else m

/-- Steps 1 and 2 of R174: the pages of a context that lie wholly in a run translate no longer.  Answers how many they are and
the frames that they mapped. -/
def Hw.unmapPages (h : Hw) (ctx va n : Nat) : Nat × NSet × Hw :=
  let (x, ls, k) := (h.mem.ctx ctx).without va n
  (k, leafFrames h ls, { h with mem := h.mem.setCtx ctx x })

/-- Lines that the caches hold of frames which a context has left, or nobody maps any more, are written back and invalidated,
so that no later holder of a frame meets them (R172; log entry 52). -/
def Hw.leaveFrames (h : Hw) (ctx : Nat) (fs : NSet) : Hw :=
  let free (l : Nat) : Bool := fs.contains (frameOf (l * 64)) && (h.mem.holders (frameOf (l * 64))).isEmpty
  h.purge (fun e => free e.2.dpa || (keyPid e.1 == ctx && fs.contains (frameOf (e.2.dpa * 64)))) free

/-- Step 4 of R174: the frame-owner entries follow. -/
def Hw.unmapFrames (h : Hw) (ctx : Nat) (fs : NSet) : Hw :=
  let h := h.leaveFrames ctx fs
  ({ h with mem := fs.foldl Mem.frameUnmapped h.mem }).showSets

/-- Removes the pages of a context that lie wholly in a run when no request that translated through them is left; answers how
many. -/
def Hw.unmapRange (h : Hw) (ctx va n : Nat) : Nat × Hw :=
  let (k, fs, h) := h.unmapPages ctx va n
  (k, h.unmapFrames ctx fs)

/-- Whether a run of DPAs meets frames. -/
def meets (fs : NSet) (a n : Nat) : Bool := (upto (frameOf a) (frameOf (a + n - 1) + 1 - frameOf a)).any fs.contains

/-- Whether a request of a context that translated through pages of some frames has not completed at its target (step 3 of
R174): at a memory port or on its way there, at a PCIe port, or at a regulator.  A request whose flits are still in the mesh
counts whatever its address. -/
def Hw.translated (h : Hw) (ctx : Nat) (fs : NSet) : Bool :=
  let mine (r : MemReq) : Bool := r.pid == ctx && meets fs r.addr r.len
  let onWay (f : Flit) : Bool := hdrPid f.header == ctx && (hdrType f.header == 3 || hdrType f.header == 4)
  let run (ps : List (Nat × Nat)) : Bool := ps.any fun p => meets fs p.1 p.2
  h.fab.stationQ.any (fun e => e.2.any mine) || h.sys.arbs.any (fun e => e.2.granted.any mine) ||
    (h.fab.retryMarks ++ h.fab.heldBack).any mine ||
    (h.fab.inq ++ h.fab.local_ ++ h.fab.station).any (fun e => e.2.any onWay) ||
    h.fab.edgeQ.any (fun e => e.2.any fun x => onWay x.2) ||
    h.sys.tlps.any (fun w => w.pid == ctx && run w.ps) || h.sys.apc.waiting.any fun r => r.pid == ctx && run r.ps

/-- `INV_BUSY` follows the `UNMAP`s that wait. -/
def Hw.showUnmaps (h : Hw) : Hw := h.put F.PMMU_STATUS_INV_BUSY (b2n (! h.sys.unmaps.isEmpty))

/-- An `UNMAP` whose requests have all completed ends; another waits on (R174). -/
def Hw.settleUnmap (h : Hw) (u : Unmapping) : Hw :=
  if h.translated u.ctx u.frames then { h with sys := { h.sys with unmaps := h.sys.unmaps ++ [u] } }
  else (h.unmapFrames u.ctx u.frames).finishAt 0 u.queue u.num 0 u.pages 0 {}

/-- The `UNMAP`s that wait are looked at again. -/
def Hw.settleUnmaps (h : Hw) : Hw :=
  (h.sys.unmaps.foldl Hw.settleUnmap { h with sys := { h.sys with unmaps := [] } }).showUnmaps

/-- The checks of `UNMAP` (R587). -/
def specUnmap : OpSpec :=
  { opc := 0xC4, issuer := .owner
    fields := fun h c => h.ctxExists (c.f 16 1) && c.f 24 6 % 0x1000 == 0 && c.f 32 6 % 0x1000 == 0 &&
      decide (c.f 24 6 + c.f 32 6 ≤ 2 ^ 48) }

/-- `UNMAP` (R174, R603): it ends at once when no request is left that translated through its pages, else with the last of
them (`Hw.settleUnmaps`). -/
def execUnmap (q : QRef) (p : Packet) (s : State) : Host.Outcome State Fault Refusal :=
  s.next fun h => h.issue specUnmap q p
    fun h c =>
      let (k, fs, h) := h.unmapPages (c.f 16 1) (c.f 24 6) (c.f 32 6)
      (h.settleUnmap { queue := c.queue, num := c.num, ctx := c.f 16 1, frames := fs, pages := k }).showUnmaps

end Sys2Proof.Machine
end

