-- ==== Sys2Proof/Machine/SelfTest.lean ====
section
/-! DEFINITION. The self-test slice of a tile (R73, R107, R108): running a section, running all of them,
and what a result does. -/

namespace Sys2Proof.Machine

/-- What a section answers on a tile's silicon: 0 PASS, 1 MARGINAL, 2 FAIL (R108). -/
def Tile.answers (x : Tile) (i : Nat) : Nat := min (x.condition.getD i 0) 2

/-- A section runs (R107, R108): its result is reported; MARGINAL feeds the health sheet, FAIL raises
its event, and section 10 tests the router (R139). -/
def Hw.runSection (h : Hw) (t i : Nat) : Hw :=
  let r := (h.tile t).answers i
  let h := (h.put (F.TILE_ST_RESULT.blk t) (r + 1)).put (F.TILE_ST_SECTION.blk t) i
  let h := if r = 1 then h.healthAdd t inMarginal 1 else h
  let h := if r = 2 then
      ((h.put (F.TILE_INT_STATUS_ST_FAIL.blk t) 1).event (srcTile t) 0x0203 0 i)
    else h
  let h := if r = 2 ∧ i = 10 then
      ({ h with fab := { h.fab with badRouter := NSet.add h.fab.badRouter t } }).dieFault (t / 288) 0
    else h
  let h := if i = 15 then
      (h.put (F.TILE_ST_AT.blk t) (h.now % 2 ^ 32)).modTile t fun x => { x with rotationAt := h.now, lateRaised := false }
    else h
  h.modTile t fun x => { x with section_ := (i + 1) % 16 }

/-- All 16 sections run. -/
def Hw.runAllSections (h : Hw) (t : Nat) : Hw := (List.range 16).foldl (fun h i => h.runSection t i) h

/-- Whether any of the 16 sections fails on a tile. -/
def Tile.fails (x : Tile) : Bool := (List.range 16).any fun i => x.answers i == 2

/-- Whether every section passes. -/
def Tile.passes (x : Tile) : Bool := (List.range 16).all fun i => x.answers i == 0

/-- The next due section runs in rotation; a FAIL retires the tile (R107, R108). -/
def Hw.rotateSection (h : Hw) (t : Nat) : Hw :=
  let i := (h.tile t).section_ % 16
  let bad := (h.tile t).answers i == 2
  let h := h.runSection t i
  if bad then h.retireTile t 0 none else h

end Sys2Proof.Machine
end

