-- ==== Sys2Proof/Machine/TodBase.lean ====
section
/-! DEFINITION. Issuing a tile operation descriptor (R81, R84, R85, R95): fetching the next TOD of a
tile's list, its predicate and its loop field, and the ways in which it can end. -/

namespace Sys2Proof.Machine

open Sys2Proof

/-- The TOD opcodes (R85); any other value raises `ILLEGAL`. -/
def todOpcodes : List Nat :=
  [0x00, 0x01, 0x02, 0x03, 0x04, 0x05, 0x06, 0x07, 0x10, 0x11, 0x12, 0x13, 0x14, 0x15, 0x16, 0x17,
   0x20, 0x21, 0x22, 0x23, 0x24, 0x25, 0x26, 0x27, 0x28, 0x29, 0x2A, 0x2B, 0x2C, 0x2D, 0x2E, 0x2F,
   0x30, 0x31, 0x40, 0x41, 0x42, 0x43, 0x44, 0x45, 0x50, 0x51]

/-- Whether a tile has a running slice whose TOD list (`prog` false) or TVI program (`prog` true) is in
progress. -/
def Hw.tileRuns (h : Hw) (t : Nat) (prog : Bool) : Bool :=
  h.fabricOn && ((h.tile t).slice.any fun s => s.state == .running) && (h.tile t).seq.inProg == prog

/-- The index of the TOD after this one, with its loop field (R81), and the loop counters. -/
def nextIdx (q : Seq) (hd : Header) : Nat × List Nat :=
  if hd.loopEn then
    let c := (q.lc.getD hd.lc 0 + 65535) % 65536
    (if c ≠ 0 then (q.todIdx + 4096 - hd.back) % 4096 else (q.todIdx + 1) % 4096, q.lc.set hd.lc c)
  else ((q.todIdx + 1) % 4096, q.lc)

/-- Moves past a TOD that has issued: its loop field acts; a `VPROG` that has just started keeps its own
index until `HALT`. -/
def Hw.advanceTod (h : Hw) (t : Nat) (hd : Header) : Hw :=
  h.modSeq t fun q =>
    let (i, lc) := nextIdx q hd
    if q.inProg then { q with afterProg := i, lc := lc } else { q with todIdx := i, lc := lc }

/-- The units on which a TOD runs (R84, R85), as bits of a `WAIT` mask: 0 MAC, 1 VEC, 2 DMA, 3 NET; 0 for a sequencer TOD. -/
def todUnits (opc : Nat) : Nat :=
  if opc = 0x10 ∨ opc = 0x11 ∨ opc = 0x12 ∨ opc = 0x16 then 1
  else if opc = 0x13 then 3
  else if opc = 0x14 then 7
  else if opc = 0x06 ∨ opc = 0x15 ∨ opc = 0x17 ∨ (0x20 ≤ opc ∧ opc ≤ 0x2F) ∨ opc = 0x31 then 2
  else if opc = 0x30 ∨ opc = 0x50 ∨ opc = 0x51 then 4
  else if opc = 0x03 ∨ (0x40 ≤ opc ∧ opc ≤ 0x45) then 8
  else 0

/-- The units whose earlier TODs must have completed before a TOD issues (R84): those of its `WAIT` mask and, unless its
predicate makes it a `NOP`, its own; a `COMMIT` waits for every unit (R85). -/
def Header.awaits (hd : Header) (runs : Bool) : Nat :=
  if runs && hd.opc == 2 then 15 else hd.wait ||| (if runs then todUnits hd.opc else 0)

/-- Whether a TOD may issue now (R84). -/
def Slice.canIssue (s : Slice) (hd : Header) (runs : Bool) : Bool :=
  s.waits.all fun w => (w.units &&& hd.awaits runs) == 0

/-- Notes a TOD that has issued and waits (R65, R84). -/
def Hw.noteWait (h : Hw) (t : Nat) (w : Waiting) : Hw := h.modSlice t fun s => { s with waits := s.waits ++ [w] }

/-- A TOD that has waited completes. -/
def Hw.endWait (h : Hw) (t : Nat) (w : Waiting) : Hw := h.modSlice t fun s => { s with waits := s.waits.erase w }

/-- Ends a TOD or a TVI instruction as its computation says: `go` moves on after completion, and `stay` says what a wait for
bytes from the mesh (`true`) or for DRAM leaves. -/
def settle (t insn : Nat) (go : Hw → Hw) (stay : Bool → Hw → Hw) : Except Stop Unit × Hw → Hw
  | (.ok _, h) => go h
  | (.error (.exc c i), h) => h.raiseExc t c i insn
  | (.error .consumed, h) => h.consume t
  | (.error (.fault c), h) => h.faultStop t c
  | (.error .waitNet, h) => stay true h
  | (.error .waitDram, h) => stay false h

/-- Runs a computation of a tile. -/
def runT (m : T Unit) (h : Hw) : Except Stop Unit × Hw := (m.run).run h

/-- A TOD that waits after its issue: the sequencer moves past one of a unit, and stays at one of its own (R84). -/
def Hw.stayTod (h : Hw) (t : Nat) (d : List Byte) (net : Bool) : Hw :=
  let hd := header d
  let h' := h.noteWait t { units := todUnits hd.opc, idx := (h.tile t).seq.todIdx, tod := d, net := net }
  if todUnits hd.opc = 0 then h' else h'.advanceTod t hd

/-- A fetched TOD issues (R84, R85): a loop without `BACK` is illegal, a false predicate makes it a
`NOP` whose loop field still acts. -/
def Hw.runTod (h : Hw) (t : Nat) (d : List Byte) (eff : Header → List Byte → T Unit) : Hw :=
  let hd := header d
  let q := (h.tile t).seq
  if hd.loopEn && hd.back == 0 then h.raiseExc t 1 0 hd.opc
  else if bit (q.p.getD hd.pred 0) 0 == hd.pneg then h.advanceTod t hd
  else settle t hd.opc (fun h => h.advanceTod t hd) (fun net h => h.stayTod t d net) (runT (eff hd d) h)

/-- Puts the sequencer back where it stood before a waiting TOD was tried again: an exception that the TOD raised returns
there (R98). -/
def Hw.backTo (h : Hw) (t : Nat) (q0 : Seq) : Hw :=
  h.modSeq t fun q => { q with todIdx := q0.todIdx, afterProg := if q.inProg && ! q0.inProg then q0.todIdx else q.afterProg }

/-- A TOD that waits in its units is tried again (R84); a sequencer TOD that completes moves the sequencer on. -/
def Hw.retryTod (h : Hw) (t : Nat) (w : Waiting) (eff : Header → List Byte → T Unit) : Hw :=
  let hd := header w.tod
  if w.units = 0 then settle t hd.opc (fun h => (h.endWait t w).advanceTod t hd) (fun _ h => h) (runT (eff hd w.tod) h)
  else (settle t hd.opc (fun h => h.endWait t w) (fun _ h => h)
    (runT (eff hd w.tod) (h.modSeq t fun q => { q with todIdx := w.idx }))).backTo t (h.tile t).seq

/-- The waiting TOD of an opcode in a tile's running slice. -/
def Hw.waitingTod (h : Hw) (t opc : Nat) : Option Waiting :=
  if h.fabricOn then
    match (h.tile t).slice with
    | some s => if s.state = .running then s.waits.find? fun w => field w.tod 0 1 == opc else none
    | none => none
  else none

/-- The next TOD of a tile's list, if the tile is about to fetch one: the descriptor bytes with their
stain, and the state after the fetch. -/
def Hw.fetchTod (h : Hw) (t : Nat) : Option (List SByte × Slice × Hw) :=
  if h.tileRuns t false then
    (h.tile t).slice.map fun s =>
      let (bs, h) := h.rdSram t s.pid (s.list + 64 * (h.tile t).seq.todIdx) 64
      (bs, s, h)
  else none

/-- Whether the predicate of a TOD is true (R81). -/
def Hw.predTrue (h : Hw) (t : Nat) (hd : Header) : Bool := bit ((h.tile t).seq.p.getD hd.pred 0) 0 != hd.pneg

/-- The tile's next TOD issues, when its opcode is `opc` (log entry 15) and its units are free (R84).  A parity error stops the tile (R101).  A list that is not aligned
raises `MISALIGN`, a stained descriptor is consumed, an unlisted opcode raises `ILLEGAL` (R85, R98,
R105). -/
def Hw.issueNext (h : Hw) (t opc : Nat) (eff : Header → List Byte → T Unit) : Hw :=
  match h.fetchTod t with
  | none => h
  | some (bs, s, h') =>
    let d := bs.map (·.1)
    let o := field d 0 1
    if (h.tile t).parityBad then h.faultStop t 3
    else if s.list % 64 ≠ 0 then h.raiseExc t 2 s.list 0
    else if bs.any (·.2) then h'.consume t
    else if ! todOpcodes.contains o then h'.raiseExc t 1 0 o
    else if o ≠ opc ∨ ! s.canIssue (header d) (h.predTrue t (header d)) then h
    else h'.runTod t d eff

/-- A TOD row acts on a tile: it tries again the TOD of its opcode that waits in its units, or lets the next one issue
(R84). -/
def Hw.issueTod (h : Hw) (t opc : Nat) (eff : Header → List Byte → T Unit) : Hw :=
  match h.waitingTod t opc with
  | some w => h.retryTod t w eff
  | none => h.issueNext t opc eff

end Sys2Proof.Machine
end

