-- ==== Sys2Proof/Machine/CommitOps.lean ====
section
/-! DEFINITION. What a slice's final `COMMIT` performs (R87, R155, R156, R269, R298, R385, R387): its
signature, its staged stores, its held `SOB_OP`s, its notices and its `COMMIT` and `RELEASE` flits. -/

namespace Sys2Proof.Machine

open Sys2Proof

/-- The CRC-64 of R385 over a key and bytes. -/
def crc64 (key : Nat) (bs : List Byte) : Nat :=
  crcMsb 64 0x42F0E1EBA9EA3693 ((leBytes 8 key ++ bs).flatMap fun b => bitsMsb 8 b.toNat)

/-- The contributions of granules of a `COMMIT`'s operand A (R385). -/
def sigGranules (s12 : Nat) (bs : List Byte) : Nat :=
  sumNat ((List.range (cdiv bs.length 32)).map fun i =>
    crc64 (0x1000_0000_0000_0000 + (s12 + i) % 2 ^ 32) (fit 32 ((bs.drop (32 * i)).take 32))) % 2 ^ 64

/-- The address that stands for a staged run in the signature: its virtual address, or, for a page-list
store, the token's place in the operand form of R271 above its byte offset (log entry 16). -/
def Staged.sigVa (x : Staged) : Nat :=
  match x.list with
  | none => x.va
  | some (sq, layer, pos) => (sq + layer * 2 ^ 16 + pos * 2 ^ 24) * 4096 + x.va

/-- The contribution of one granule of a staged store (R385): the mask of bytes written and the granule
with unwritten bytes zero. -/
def sigStoreGranule (a : Nat) (data : List Byte) (g : Nat) : Nat :=
  let lo := max a (g * 32)
  let hi := min (a + data.length) (g * 32 + 32)
  let o := lo - g * 32
  let n := hi - lo
  crc64 (0x2000_0000_0000_0000 + bits (g * 32) 5 43)
    (leBytes 4 ((2 ^ n - 1) * 2 ^ o) ++ fit 32 (zeros o ++ (data.drop (lo - a)).take n))

/-- The contributions of a staged run. -/
def sigStaged (x : Staged) : Nat :=
  sumNat ((halves x.sigVa x.data.length).map (sigStoreGranule x.sigVa x.data))

/-- The contribution of a held `SOB_OP` (R385). -/
def sigSob (x : HeldSob) : Nat := crc64 (0x3000_0000_0000_0000 + x.idx) (leBytes 1 (b2n x.add) ++ leBytes 8 x.value)

/-- The signature of a slice at its final `COMMIT`. -/
def Slice.finalSig (s : Slice) : Nat :=
  (s.sig + sumNat (s.staged.map sigStaged) + sumNat (s.sobs.map sigSob)) % 2 ^ 64

/-- The first staged run whose pages do not translate (R178). -/
def Hw.stagedFault (h : Hw) (pid : Nat) (l : List Staged) : Option (Nat × Nat) :=
  l.findSome? fun x =>
    if x.list.isSome then none
    else match h.mem.translateRun pid x.va x.data.length .wr true with
      | .error e => some e
      | .ok _ => none

/-- Writes a staged run to memory: by its virtual address, or at its token's place in the sheet that the
page list now names. -/
def Hw.writeStaged (h : Hw) (pid : Nat) (x : Staged) : Hw :=
  match x.list with
  | none => (h.writeVa 0 pid x.va x.data x.stain).2
  | some (sq, layer, pos) =>
    match h.seqOf pid sq with
    | none => h
    | some s =>
      match h.readEntry pid s layer (pos / s.tps) with
      | (.ok n, h) => h.store (h.sheetDpa n + pos % s.tps * s.tokenBytes + x.va) x.data x.stain
      | (.error _, h) => h

/-- The page-list places that staged stores write, each once: sequence handle, layer, index. -/
def stagedPlaces (h : Hw) (pid : Nat) (l : List Staged) : List (Nat × Nat × Nat) :=
  l.foldl (fun m x =>
    match x.list with
    | none => m
    | some (sq, layer, pos) =>
      let tps := ((h.seqOf pid sq).map SeqRec.tps).getD 1
      let p := (sq, layer, pos / tps)
      if m.contains p then m else m ++ [p]) []

/-- Resolves page-list stores one after another (R269). -/
def Hw.resolveAll (h : Hw) (t pid : Nat) : List (Nat × Nat × Nat) → Except (Nat × Nat × WalkErr) Hw
  | [] => .ok h
  | (sq, layer, i) :: ps =>
    match h.seqOf pid sq with
    | none => .error (sq, 0, .handle)
    | some s =>
      match h.resolveStore t pid sq s layer i with
      | (.ok _, h) => h.resolveAll t pid ps
      | (.error e, _) => .error (sq, s.entryVa layer i, e)

/-- `LEN` becomes the highest stored position plus one, when that is larger (R269). -/
def Hw.growLens (h : Hw) (pid : Nat) (l : List Staged) : Hw :=
  l.foldl (fun h x =>
    match x.list with
    | none => h
    | some (sq, _, pos) =>
      match h.seqOf pid sq with
      | some s => if s.len ≤ pos then h.setSeq pid sq { s with len := pos + 1 } else h
      | none => h) h

/-- Performs staged stores: every address is translated and every page-list store resolved before any
byte is written; a failure leaves everything as it was and gives the job's status and detail
(R178, R269, R272). -/
def Hw.performStores (h : Hw) (t pid : Nat) (l : List Staged) : Except (Nat × Nat × Hw) Hw :=
  match h.stagedFault pid l with
  | some (a, c) =>
    let (st, d) := pageStatus (a, c)
    .error (st, d, h.translationFault 0 c pid a)
  | none =>
    match h.resolveAll t pid (stagedPlaces h pid l) with
    | .error (sq, va, e) =>
      .error ((e.status va).1, (e.status va).2, match e with
        | .page c => h.translationFault 1 c pid va
        | e => h.walkEvent t pid sq e)
    | .ok h => .ok ((l.foldl (fun h x => h.writeStaged pid x) h).growLens pid l)

/-- The sheet into which a staged page-list store will be written, as the walk left it: the reserved one, or the one that the
entry names (R268). -/
def Hw.storeSheet (h : Hw) (t pid sq layer pos : Nat) : Option Nat :=
  (h.seqOf pid sq).bind fun s =>
    match h.reservedFor t (seqKey pid sq) (plKey layer (pos / s.tps)) with
    | some (m, _) => some m
    | none =>
      match (h.readEntry pid s layer (pos / s.tps)).1 with
      | .ok n => if n = 0 then none else some n
      | .error _ => none

/-- The runs of DPAs that staged stores write, for the buckets (R60). -/
def Hw.stagedRuns (h : Hw) (t pid : Nat) (l : List Staged) : List (Nat × Nat) :=
  l.flatMap fun x =>
    match x.list with
    | some (sq, layer, pos) =>
      match h.seqOf pid sq, h.storeSheet t pid sq layer pos with
      | some s, some n => [(h.sheetDpa n + pos % s.tps * s.tokenBytes + x.va, x.data.length)]
      | _, _ => []
    | none => match h.mem.translateRun pid x.va x.data.length .wr true with
      | .ok ps => ps
      | .error _ => []

/-- Performs held `SOB_OP`s in TOD order (R85, R88). -/
def Hw.performSobs (h : Hw) (pid : Nat) (l : List HeldSob) : Hw :=
  l.foldl (fun h x => (h.sobAccess 0 pid x.idx (if x.add then .add x.value else .set x.value)).2) h

/-- The edge directions that a flit from a logical tile's die to its hub column crosses (R60, R436): the hub attaches lie
south of the dies C0 and C1. -/
def hubPath (l : Nat) : List Nat :=
  let d := dieOfLogical l
  (if d / 2 = 0 then [] else edgePath d (d % 2)) ++ [9 + 2 * (d % 2)]

/-- The edge directions of the way back from the hub (R60, R144). -/
def hubBack (l : Nat) : List Nat :=
  let d := dieOfLogical l
  (8 + 2 * (d % 2)) :: (if d / 2 = 0 then [] else edgePath (d % 2) d)

/-- The flits of held `SOB_OP`s on their way to the sync-object store (R60, R144). -/
def Hw.chargeSobs (h : Hw) (s : Slice) : Except Nat Hw :=
  match h.chargeEdges s.pid ((hubPath s.pos).map fun d => (d, s.sobs.length)) with
  | none => .error 1
  | some h => .ok h

/-- Takes what a slice's final `COMMIT` sends from the partition's buckets (R60), or answers the state in which it waits. -/
def Hw.chargeCommit (h : Hw) (t : Nat) (s : Slice) : Except Hw Hw :=
  let runs := h.stagedRuns t s.pid s.staged
  match h.chargeDma t s.pid runs true with
  | .error d => .error (h.noteShort t s.pid d runs true)
  | .ok h' =>
    if s.sobs = [] then .ok h'
    else match h'.chargeSobs s with
      | .error d => .error (h.noteExhausted s.pid d)
      | .ok h'' => .ok h''

/-- A control message of a slice. -/
def ctlMsg (h : Hw) (s : Slice) (src dst type slot k bytes : Nat) : Msg :=
  { src := src, dst := dst, pid := s.pid, cls := h.clsOf s.pid, type := type, slot := slot, k := k,
    addr := 0, bytes := bytes, pieces := [] }

/-- Sends a slice's notices to their finishers (R298); the first byte of a kept notice is the
finisher's number, with bit 7 set when the notice is stained (R147). -/
def Hw.sendNotices (h : Hw) (s : Slice) (src : Nat) (l : List (List Byte)) : Hw :=
  l.foldl (fun h n => h.post1
    { ctlMsg h s src ((n.headD 0).toNat % 128) 0x9 15 0 64 with
      pieces := [⟨0, n.drop 1, decide (128 ≤ (n.headD 0).toNat)⟩] }) h

/-- The messages of a slice by destination and slot, with their bytes. -/
def sentTotals (l : List Sent) : List (Nat × Nat × Nat) :=
  l.foldl (fun m x =>
    match m.find? fun e => e.1 == x.dst && e.2.1 == x.slot with
    | some _ => m.map fun e => if e.1 == x.dst && e.2.1 == x.slot then (e.1, e.2.1, e.2.2 + x.bytes) else e
    | none => m ++ [(x.dst, x.slot, x.bytes)]) []

/-- Whether a receiver's slot has a held-input area of this PID that declares the sender (R154). -/
def Hw.hasArea (h : Hw) (pid dst slot : Nat) : Bool :=
  match h.physFor pid dst with
  | some t => ((h.tile t).areasOf pid).any fun a => a.slot == slot
  | none => false

/-- The key under which a producer notes a receiver that must release a half: receiver, PID, image. -/
def owedKey (pid handle dst : Nat) : Nat := dst + 1024 * (pid + 256 * handle)

/-- Sends the `COMMIT` flits of step 3 of R155 and notes the halves that the receivers must release
(R156). -/
def Hw.sendCommits (h : Hw) (t : Nat) (s : Slice) (src : Nat) : Hw :=
  (sentTotals s.sent).foldl (fun h e =>
    let h := h.post1 (ctlMsg h s src e.1 0xA e.2.1 s.k e.2.2)
    if h.hasArea s.pid e.1 e.2.1 then
      h.modTile t fun x => { x with owed := x.owed ++ [(owedKey s.pid s.handle e.1, e.2.1, s.k, none)] }
    else h) h

/-- The K for which an area's half was committed last. -/
def Area.halfK (a : Area) (half : Nat) : Option Nat :=
  (a.got.filter fun g => g.2.1 % 2 == half).getLast?.map (·.2.1)

/-- Sends the `RELEASE` flits of the halves that a slice read (R156), and forgets their `COMMIT`s. -/
def Hw.sendReleases (h : Hw) (t : Nat) (s : Slice) (src : Nat) (l : List (Nat × Nat)) : Hw :=
  l.foldl (fun h e =>
    match (h.tile t).binding s with
    | none => h
    | some b =>
      match b.areas.find? fun a => a.slot == e.1 with
      | none => h
      | some a =>
        match a.halfK e.2 with
        | none => h
        | some k =>
          let h := a.senders.foldl (fun h d => h.post1 (ctlMsg h s src d 0xB e.1 k 0)) h
          h.modTile t fun x => { x with binds := x.binds.map fun y =>
            if y = b then { y with areas := y.areas.map fun z =>
              if z.slot == e.1 then { z with got := z.got.filter fun g => g.2.1 ≠ k } else z } else y }) h

/-- A tile's progress in its job and its sticky flags, at its final `COMMIT` (R95, R242, R246): a slice of the main model that
commits after the switch still contributes its flags. -/
def Hw.creditJob (h : Hw) (t : Nat) (s : Slice) (src : Nat) : Hw :=
  let q := (h.tile t).seq
  let mine := (h.jobOf s).any fun j => h.runHandle j == s.handle
  (if mine then h.credit s.pid s.queue s.num (s.copy * 1024 + src) (s.k + 1) else h).modJob s.pid s.queue s.num fun j =>
    { j with inexact := j.inexact || q.inexact, overflow := j.overflow || q.overflow }

/-- Closes a slice that has reached its final `COMMIT`. -/
def Hw.closeSlice (h : Hw) (t : Nat) : Hw :=
  (h.dropReservations t).modSlice t fun s => { s with state := .committed, staged := [], sobs := [], notices := [], waits := [] }

/-- The final `COMMIT` of a slice (R87, R155, R156; R387 for a `DUPLEX` job): a failed translation
discards what it staged and held and fails the job (R178, R272). -/
def Hw.finalCommit (h : Hw) (t : Nat) (s : Slice) : Hw :=
  let src := s.pos
  match s.failed with
  | some (st, d) => ((h.failJob s st d).closeSlice t)
  | none =>
    if s.dup then
      let sig := s.finalSig
      let kept : DupHeld :=
        { tile := t, pos := s.pos, pid := s.pid, seq := s.seq, copy := s.copy, k := s.k,
          staged := if s.copy = 0 then s.staged else [], sobs := if s.copy = 0 then s.sobs else [],
          notices := s.notices, releases := s.readHalves, sig := sig, paid := 0 }
      let h := { h with dup := h.dup ++ [kept] }
      ((h.sendCommits t s src).creditJob t s src).modSlice t fun s =>
        { s with state := .committed, staged := [], sobs := [], notices := [], waits := [] }
    else
      match h.performStores t s.pid s.staged with
      | .error (st, d, h) => (h.failJob s st d).closeSlice t
      | .ok h =>
        let h := (h.sendNotices s src s.notices).performSobs s.pid s.sobs
        let h := (h.sendCommits t s src).sendReleases t s src s.readHalves
        ((h.creditJob t s src).closeSlice t).settleDone s.pid s.queue s.num

end Sys2Proof.Machine
end

