-- ==== Sys2Proof/Machine/Mesh.lean ====
section
/-! DEFINITION. The mesh (R136 to R157): routing a flit, and the arrival of the messages that slices
send: `DATA` and `HALO` messages, `COMMIT` and `RELEASE` notices. -/

namespace Sys2Proof.Machine

open Sys2Proof

/-- The ports of a router, as inputs: north, east, south, west, local. -/
def portNorth : Nat := 0
def portEast : Nat := 1
def portSouth : Nat := 2
def portWest : Nat := 3
def portLocal : Nat := 4

/-- Whether a station beside a tile diverts a TYPE (R141). -/
def diverts (l ty : Nat) : Bool :=
  match ty with
  | 0x3 | 0x4 => (List.range 64).any fun c => channelTile c == l
  | 0x7 | 0xC => decide (l < 32)
  | 0x9 => (finisherTile.contains l)
  | _ => false

/-- Where a router sends a flit (R148): to a neighbour's input port, into a station, or to its local
port. -/
inductive Hop where
  | to (l port : Nat)
  | station
  | here
  deriving DecidableEq, Repr

/-- Dimension-ordered routing at a logical tile (R148). -/
def hopOf (l dst ty : Nat) : Hop :=
  let x := l % 32
  let dx := dst % 32
  if x < dx then .to (l + 1) portWest
  else if dx < x then .to (l - 1) portEast
  else if l / 32 < dst / 32 then .to (l + 32) portSouth
  else if dst / 32 < l / 32 then .to (l - 32) portNorth
  else if diverts l ty then .station
  else .here

/-! Arrival (R144 to R146). -/

/-- Puts a flit into a router's input. -/
def Hw.enqueue (h : Hw) (l port : Nat) (f : Flit) : Hw :=
  { h with fab := { h.fab with inq := h.fab.inq.mod [] (5 * l + port) (· ++ [f]) } }

/-- Puts a flit before an edge direction, on its way to an input queue (R60). -/
def Hw.toEdge (h : Hw) (dir target : Nat) (f : Flit) : Hw :=
  { h with fab := { h.fab with edgeQ := h.fab.edgeQ.mod [] dir (· ++ [(target, f)]) } }

/-- A flit as its router injects it (R146): with the PID, class and position of the slice for which the tile's stroke gate
is open; with no such slice it is firmware's, PID 0. -/
def Hw.stamped (h : Hw) (l : Nat) (f : Flit) : Flit :=
  match (h.tile (h.routerTile l)).slice.filter fun s => s.state == .running with
  | some s => { f with header := hdrStamp f.header s.pos s.pid (h.clsOf s.pid) }
  | none => { f with header := hdrStamp f.header l 0 0 }

/-- A flit fails its header check (R145): at a tile's local port the tile enters FAULT_STOP (log entry 27); elsewhere the
flit is discarded and the router raises an event. -/
def Hw.badFlit (h : Hw) (l port pid : Nat) : Hw :=
  let t := h.routerTile l
  if port = portLocal then h.faultStop t 4
  else
    let h := { h with fab := { h.fab with headerBad := NSet.add h.fab.headerBad t } }
    (h.event (srcTile t) 0x0208 pid port).healthAdd (partDie (t / 288)) inFlit 1

/-- A flit arrives at input `port` of a router from outside the mesh (R141, R145, R146): from the hub it must first cross
the hub attach. -/
def Hw.arriveFlit (h : Hw) (l port : Nat) (x : FlitIn) : Hw :=
  let f : Flit := ⟨x.header.toNat, fit 64 x.payload⟩
  if ! hdrGood f.header then h.badFlit l port (hdrPid f.header)
  else if port = portLocal then
    let g := h.stamped l f
    if hdrGood g.header then h.enqueue l port g else h
  else if port = portSouth ∧ l < 32 then h.toEdge (8 + 2 * dieOfLogical l) (5 * l + port) f
  else h.enqueue l port f

/-! Routing and the arbitration of a router's output (R148, R150). -/

/-- Where a router sends a flit, with the redirection of vacant positions (R160). -/
def Hw.nextHop (h : Hw) (l : Nat) (f : Flit) : Hop :=
  hopOf l (h.redirect (hdrPid f.header) (hdrDst f.header)) (hdrType f.header)

/-- The side of a tile on which a station stands (R141, R142). -/
def stationSide (l ty : Nat) : Nat :=
  if ty = 3 ∨ ty = 4 then (if l % 16 = 0 then portWest else portEast)
  else if l < 32 then portSouth else portNorth

/-- The output of a router to which a flit goes: a side, numbered as the inputs are, or the local port. -/
def Hw.outputOf (h : Hw) (l : Nat) (f : Flit) : Nat :=
  match h.nextHop l f with
  | .to _ p => (p + 2) % 4
  | .station => stationSide l (hdrType f.header)
  | .here => portLocal

/-- The sequence in which an output serves the classes (R150). -/
def classTurns : List Nat := [0, 1, 2, 0, 1, 3, 0, 1, 2, 0]

/-- The first flit of a class and channel in an input queue, with its place. -/
def headOf (c v : Nat) : Nat → List Flit → Option (Nat × Flit)
  | _, [] => none
  | i, f :: fs => if hdrCls f.header = c ∧ hdrVc f.header = v then some (i, f) else headOf c v (i + 1) fs

/-- The flit of a class that an input has ready for an output, return before forward (R150). -/
def Hw.readyAt (h : Hw) (l o c port : Nat) : Option (Nat × Flit) :=
  let q := h.fab.inq.getD [] (5 * l + port)
  let ok (v : Nat) : Option (Nat × Flit) := (headOf c v 0 q).filter fun x => h.outputOf l x.2 == o
  (ok 1).orElse fun _ => ok 0

/-- The choice of an output (R150): class, input, and the flit with its place in the input's queue. -/
def Hw.outPick (h : Hw) (l o : Nat) : Option (Nat × Nat × Nat × Flit) :=
  (classTurns.getD (h.fab.outSeq.getD 0 (5 * l + o)) 0 :: [0, 1, 2, 3]).findSome? fun c =>
    let last := h.fab.outTurn.getD 4 ((5 * l + o) * 4 + c)
    ((List.range 5).map fun i => (last + 1 + i) % 5).findSome? fun p =>
      (h.readyAt l o c p).map fun x => (c, p, x.1, x.2)

/-- The TYPEs whose flits wait at a local port for the landing of their message; every other flit is taken there at once
(R149). -/
def landsHere (ty : Nat) : Bool := ty ≤ 1 || ty == 0xA || ty == 0xB

/-- A router sends a flit on (R148): over a die edge or a hub attach it waits for its partition's turn and tokens there
(R60, R153). -/
def Hw.forward (h : Hw) (l : Nat) (f : Flit) : Hw :=
  match h.nextHop l f with
  | .to m p =>
    match edgePath (dieOfLogical l) (dieOfLogical m) with
    | dir :: _ => h.toEdge dir (5 * m + p) f
    | [] => h.enqueue m p f
  | .station =>
    if hdrType f.header = 7 ∨ hdrType f.header = 0xC then h.toEdge (9 + 2 * dieOfLogical l) 5120 f
    else { h with fab := { h.fab with station := h.fab.station.mod [] l (· ++ [f]) } }
  | .here =>
    if landsHere (hdrType f.header) then { h with fab := { h.fab with local_ := h.fab.local_.mod [] l (· ++ [f]) } } else h

/-- A cycle of a router's output (R150): the flit that it chooses leaves its input and goes on. -/
def Hw.serveOutput (h : Hw) (l o : Nat) : Hw :=
  match h.outPick l o with
  | none => h
  | some (c, p, i, f) =>
    let q := (h.fab.inq.getD [] (5 * l + p)).eraseIdx i
    let h := { h with fab := { h.fab with
      inq := SMap.putD [] h.fab.inq (5 * l + p) q
      outSeq := SMap.putD 0 h.fab.outSeq (5 * l + o) ((h.fab.outSeq.getD 0 (5 * l + o) + 1) % 10)
      outTurn := SMap.putD 4 h.fab.outTurn ((5 * l + o) * 4 + c) p } }
    h.forward l f

/-- The router of a logical tile serves the output for which the first flit of an input waits; a flit that arrives there in
this cycle joins the queue first (R148, R150). -/
def Hw.flitStep (h : Hw) (l port : Nat) (a : Option FlitIn) : Hw :=
  if ! h.fabricOn then h
  else
    let h := match a with
      | some x => h.arriveFlit l port x
      | none => h
    match (h.fab.inq.getD [] (5 * l + port)).head? with
    | none => h
    | some f => h.serveOutput l (h.outputOf l f)

/-- `FLIT_ROUTE` (R148). -/
def execFlitRoute (l : Fin 1024) (port : Fin 5) (a : Option FlitIn) (s : State) :
    Host.Outcome State Fault Refusal :=
  s.next fun h => h.flitStep l.val port.val a

/-! Messages that arrive (R152 to R156). -/

/-- The first local port of a list at which a wanted message is next, the message, and the queue that it leaves. -/
def Hw.takeAt (h : Hw) (want : Flit → Bool) : List Nat → Option (Nat × Option Msg × List Flit)
  | [] => none
  | l :: ls =>
    match takeQueued want (h.fab.local_.getD [] l) with
    | some (m, q) => some (l, m, q)
    | none => h.takeAt want ls

/-- Takes the next message of the given kinds from one logical tile to another at the local port of the tile that serves
it; none overtakes another of its class and channel (R149, R160). -/
def Hw.takeMsg (h : Hw) (src dst : Nat) (types : List Nat) : Option Msg × Hw :=
  let want (f : Flit) : Bool := hdrSrc f.header == src && hdrDst f.header == dst && types.contains (hdrType f.header)
  match h.takeAt want (dst :: (h.fab.redirects.filter fun r => r.vacant == dst).map (·.subst)) with
  | none => (none, h)
  | some (l, m, q) => (m, { h with fab := { h.fab with local_ := SMap.putD [] h.fab.local_ l q } })

/-- Takes the next notice from a logical tile at a finisher's station (R298). -/
def Hw.takeDfin (h : Hw) (src fin : Nat) : Option Msg × Hw :=
  let l := finisherTile.getD fin 0
  match takeQueued (fun f => hdrSrc f.header == src && hdrType f.header == 9) (h.fab.station.getD [] l) with
  | none => (none, h)
  | some (m, q) => (m, { h with fab := { h.fab with station := SMap.putD [] h.fab.station l q } })

/-- The address at which a message lands (R154, R295). -/
def landAddr (as : List Area) (m : Msg) : Nat :=
  match as.find? fun a => a.slot == m.slot with
  | some a => m.addr + m.k % 2 * a.half
  | none => if m.type = 1 then haloLand m.addr m.k m.bytes else m.addr
where
  /-- A halo strip without an area lands in the half of its parity. -/
  haloLand (addr k bytes : Nat) : Nat := addr + k % 2 * (cdiv bytes 32 * 32)

/-- A `DATA` or `HALO` message lands at its receiver: the bytes that its flits brought (R77, R145, R154, R295). -/
def Hw.landMsg (h : Hw) (m : Msg) : Hw :=
  match h.physFor m.pid m.dst with
  | none => h
  | some t =>
    let a := landAddr ((h.tile t).areasOf m.pid) m
    let rows := m.pieces.map fun p => (a + 64 * p.idx, p.sbytes)
    let h := (rows.foldl (fun h r => h.wrSram t m.pid r.1 r.2) h).sealRows t m.pid rows
    h.modTile t fun x =>
      { x with arrived := x.arrived ++ [(m.src, m.slot, m.got)]
               landed := x.landed ++ [⟨m.src, m.slot, m.pid, m.k, m.type == 1, m.got⟩] }

/-- `DATA_MESSAGE_LANDING` (R154): the oldest data message from `src` to `dst` lands. -/
def execDataMessageLanding (src dst : Fin 1024) (s : State) : Host.Outcome State Fault Refusal :=
  s.next fun h =>
    if h.fabricOn then
      match h.takeMsg src.val dst.val [0, 1] with
      | (some m, h) => h.landMsg m
      | (none, h) => h
    else h

/-- A `COMMIT` counts toward committing the half of its parity (R155). -/
def Hw.commitArrives (h : Hw) (m : Msg) : Hw :=
  match h.physFor m.pid m.dst with
  | none => h
  | some t =>
    h.modTile t fun x => { x with binds := x.binds.map fun b =>
      if b.pid == m.pid then
        { b with areas := b.areas.map fun a =>
            if a.slot == m.slot then { a with got := a.got ++ [(m.src, m.k, m.bytes, h.now)] } else a }
      else b }

/-- `COMMIT_NOTICE` (R155): the oldest `COMMIT` from `src` reaches `dst`. -/
def execCommitNotice (src dst : Fin 1024) (s : State) : Host.Outcome State Fault Refusal :=
  s.next fun h =>
    if h.fabricOn then
      match h.takeMsg src.val dst.val [0xA] with
      | (some m, h) => h.commitArrives m
      | (none, h) => h
    else h

/-- A `RELEASE` frees a half for the producer (R156), from the next stroke on (R42). -/
def Hw.releaseArrives (h : Hw) (m : Msg) : Hw :=
  match h.physFor m.pid m.dst with
  | none => h
  | some t =>
    h.modTile t fun x => { x with owed := x.owed.map fun o =>
      if o.1 % 262144 == m.src + 1024 * m.pid && o.2.1 == m.slot && o.2.2.1 == m.k && o.2.2.2.isNone then
        (o.1, o.2.1, o.2.2.1, some h.now) else o }

/-- `RELEASE_NOTICE` (R156): the oldest `RELEASE` from `src` reaches `dst`. -/
def execReleaseNotice (src dst : Fin 1024) (s : State) : Host.Outcome State Fault Refusal :=
  s.next fun h =>
    if h.fabricOn then
      match h.takeMsg src.val dst.val [0xB] with
      | (some m, h) => h.releaseArrives m
      | (none, h) => h
    else h

end Sys2Proof.Machine
end

