-- ==== Sys2Proof/Machine/Arbiter.lean ====
section
/-! DEFINITION. The memory stations and the shared arbiter (R151, R436 to R441), and the data phase of a granted
burst (R416, R417, R420). -/

namespace Sys2Proof.Machine

open Sys2Proof

/-! Requests at a station (R151). -/

/-- The flits of a request leave the station's queue (R144): those of its TYPE, requester, partition and tag. -/
def Hw.takeRequest (h : Hw) (c : Nat) (r : MemReq) : Hw :=
  let mine (f : Flit) : Bool := hdrType f.header == (if r.write then 4 else 3) && hdrSrc f.header == r.src &&
    hdrPid f.header == r.pid && hdrSeq f.header == r.tag % 4096
  let q := (h.fab.station.getD [] (channelTile c)).filter fun f => ! mine f
  { h with fab := { h.fab with station := SMap.putD [] h.fab.station (channelTile c) q } }

/-- `MEM_REQUEST_ARRIVAL` (R151). -/
def execMemRequestArrival (c : Fin 64) (m : MemMsg) (s : State) : Host.Outcome State Fault Refusal :=
  s.next fun h =>
    if h.fabricOn then
      let r : MemReq := { src := m.src.val, pid := m.pid.val, tag := m.tag.toNat, write := m.write, addr := m.addr.toNat,
                          len := m.len.val, data := m.data, stain := m.stain }
      (h.takeRequest c.val r).arriveMem c.val r
    else h

/-! The ring (R438, R439, R441). -/

/-- The next requester: the visit in progress while it lasts, else the next eligible one in the ring (R438). -/
def Arb.pick (a : Arb) (el : List Nat) (weight : Nat → Nat) : Option (Nat × Arb) :=
  if 0 < a.left ∧ el.contains a.ptr then some (a.ptr, { a with left := a.left - 1 })
  else
    match (el.find? fun r => decide (a.ptr < r)).orElse fun _ => el.head? with
    | some r => some (r, { a with ptr := r, left := weight r - 1 })
    | none => none

/-- The starvation threshold of an instance (R441, R445); 0 acts as 1. -/
def Hw.starveAt (h : Hw) (i : Nat) : Nat :=
  max 1 (h.get (if i < 64 then F.ARB_THRESH_PORT else if i < 76 then F.ARB_THRESH_EDGE
    else if i = 76 then F.ARB_THRESH_STORE else F.ARB_THRESH_FETCH))

/-- Sets an instance's starvation flag (R441, R463). -/
def Hw.starve (h : Hw) (i pid : Nat) : Hw :=
  let f := if i < 64 then F.ARB_STARVE0_FLAG.bit i else F.ARB_STARVE1_FLAG.bit (i - 64)
  ((h.put f 1).put F.ARB_INT_STATUS_STARVE 1).event srcArb 0x0305 pid i

/-- `HINT` of a requester (R439): the data phases granted and the remaining weight of the visits ahead of it. -/
def Arb.hint (a : Arb) (el : List Nat) (weight : Nat → Nat) (r : Nat) : Nat :=
  let ahead := if a.ptr < r then el.filter fun x => decide (a.ptr < x) && decide (x < r)
    else el.filter fun x => decide (a.ptr < x) || decide (x < r)
  min 255 (a.granted.length + (if el.contains a.ptr && a.ptr ≠ r then a.left else 0) + sumNat (ahead.map weight))

/-- What a grant to `r` does to the waiting counts of the other eligible requesters (R441), to the parking (R437) and
to the trace (R580). -/
def Hw.noteGrant (h : Hw) (i r : Nat) (el : List Nat) (pidOf : Nat → Nat) (hint : Nat) : Hw :=
  let waited := (h.arb i).waiting.getD 0 r
  let others := el.filter fun x => x ≠ r
  let h := h.modArb i fun a =>
    let w := others.foldl (fun m x => SMap.mod 0 m x fun n => min 65535 (n + 1)) (a.waiting.del r)
    { a with waiting := w, last := some r, parked := others.isEmpty
             maxWait := others.foldl (fun m x => SMap.mod 0 m x fun n => max n (w.getD 0 x)) a.maxWait }
  let h := others.foldl (fun h x => if (h.arb i).waiting.getD 0 x = h.starveAt i + 1 then h.starve i (pidOf x) else h) h
  if h.sys.trace.any fun t => t.inst == i then
    h.traceAdd 2 (pidOf r) (leBytes 1 r ++ leBytes 1 hint ++ leBytes 2 waited)
  else h

/-- The count of the slots that an instance has granted in the present stroke. -/
def Hw.slotsUsed (h : Hw) (i : Nat) : Nat := let a := h.arb i; if a.slotAt = h.now then a.slots else 0

/-- Counts slots of the present stroke. -/
def Hw.useSlots (h : Hw) (i n : Nat) : Hw :=
  let u := h.slotsUsed i
  h.modArb i fun a => { a with slotAt := h.now, slots := u + n }

/-! The memory ports (R409, R436). -/

/-- The first burst of a message and what is left of it. -/
def MemReq.burst (r : MemReq) : MemReq × Option MemReq :=
  let n := min r.len (64 - r.addr % 64)
  ({ r with len := n, data := r.data.take n },
   if r.len ≤ n then none else some { r with addr := r.addr + n, len := r.len - n, data := r.data.drop n })

/-- The PIDs whose requests wait at a channel. -/
def Hw.portWaiters (h : Hw) (c : Nat) : List Nat :=
  (h.fab.stationQ.filter fun e => e.1 / 256 == c && ! e.2.isEmpty).map fun e => e.1 % 256

/-- The first request of a PID at a channel. -/
def Hw.portHead (h : Hw) (c pid : Nat) : Option MemReq := (h.fab.stationQ.getD [] (c * 256 + pid)).head?

/-- Whether a PID's first burst at a channel has its tokens (R60). -/
def Hw.portEligible (h : Hw) (c pid : Nat) : Bool :=
  match h.portHead c pid with
  | some r => let b := r.burst.1; (h.chargeDram pid [(b.addr, b.len)] b.write).isSome
  | none => false

/-- The weight of a PID at a memory port (R436). -/
def Hw.portWeight (h : Hw) (pid : Nat) : Nat :=
  if pid = 0 then 16 else max 1 (cdiv (dramRefill (h.dramSum pid) h.channels) 64)

/-- The slots of a memory port in the present stroke: 333, and 334 in the third of each group (R409). -/
def Hw.portSlots (h : Hw) : Nat := if h.now % 3 = 2 then 334 else 333

/-- An arbitration phase of a memory port (R438): one burst is granted. -/
def Hw.grantPort (h : Hw) (c : Nat) : Hw :=
  let ws := h.portWaiters c
  let el := ws.filter (h.portEligible c)
  let h := ws.foldl (fun h p => if el.contains p then h else h.noteExhausted p 0) h
  if h.get (F.MC_STATUS_STATE.blk c) ≠ 1 ∨ h.portSlots ≤ h.slotsUsed c then h
  else
    let a := h.arb c
    match a.pick el h.portWeight with
    | none => h
    | some (p, a') =>
      match h.portHead c p with
      | none => h
      | some r =>
        let (b, rest) := r.burst
        let h := (h.chargeDram p [(b.addr, b.len)] b.write).getD h
        let h := h.modArb c fun _ => { a' with granted := a'.granted ++ [b] }
        let left := rest.toList ++ (h.fab.stationQ.getD [] (c * 256 + p)).drop 1
        let h := { h with fab := { h.fab with stationQ := SMap.putD [] h.fab.stationQ (c * 256 + p) left } }
        (h.noteGrant c p el id (a.hint el h.portWeight p)).useSlots c 1

/-- A data phase at channel `c` (R417, R420): the burst granted first reads or writes its line, which may have taken
errors, under the firewall of R180. -/
def Hw.serveBurst (h : Hw) (c : Nat) (u : LineUpset) : Hw :=
  match (h.arb c).granted with
  | [] => h
  | r :: rs =>
    let before := if u.errors.isEmpty then [] else h.lostStripes
    let h := (h.modArb c fun a => { a with granted := rs }).upsetLine (r.addr / 64) u
    let h := if u.errors.isEmpty then h else h.countStripes before
    let answer (h : Hw) (bs : List Byte) (st : Bool) : Hw :=
      { h with fab := { h.fab with responses := h.fab.responses ++ [{ r with data := bs, stain := st }] } }
    let h := if r.write then answer (h.portWrite r.pid r.addr r.data r.stain) [] false
      else let (bs, st, h) := h.portRead r.pid r.addr r.len; answer h bs st
    ((h.sendHeld c).showFrozen c).settleUnmaps

/-- `NEIGHBOUR_REFRESH` at an activate (R416): with probability 2^−`LOG2_P` the neighbouring rows are refreshed. -/
def Hw.neighbourRefresh (h : Hw) (c : Nat) : Hw :=
  let p := max 6 (min 16 (h.get (F.MC_PARA_LOG2_P.blk c)))
  let (w, h) := h.random
  if w.toNat % 2 ^ p = 0 then
    h.addWrap (F.MC_PARA_COUNT_COUNT.blk c) (if h.on (F.MC_PARA_PLUS2.blk c) then 4 else 2)
  else h

/-- `MEMORY_BURST` (R417): `act` says whether the burst activates a row. -/
def execMemoryBurst (c : Fin 64) (u : LineUpset) (act : Bool) (s : State) : Host.Outcome State Fault Refusal :=
  s.next fun h =>
    if ! h.fabricOn || (h.arb c.val).granted.isEmpty then h
    else (if act then h.neighbourRefresh c.val else h).serveBurst c.val u

/-! The edges (R153, R436). -/

/-- The PIDs whose flits wait at an edge direction. -/
def Hw.edgeWaiters (h : Hw) (dir : Nat) : NSet :=
  (h.fab.edgeQ.getD [] dir).foldl (fun s x => NSet.add s (hdrPid x.2.header)) []

/-- The first flit of a PID at an edge direction, and the queue without it. -/
def edgeHead (pid : Nat) : List (Nat × Flit) → Option ((Nat × Flit) × List (Nat × Flit))
  | [] => none
  | x :: q => if hdrPid x.2.header = pid then some (x, q) else (edgeHead pid q).map fun y => (y.1, x :: y.2)

/-- The weight of a PID at an edge (R436). -/
def Hw.edgeWeight (h : Hw) (p : Nat) : Nat := if p = 0 then 64 else max 1 (cdiv (h.d2dSum p) 64)

/-- A flit that has crossed joins the input queue to which it goes; what goes into the hub leaves the mesh (log entry 47). -/
def Hw.crossed (h : Hw) (x : Nat × Flit) : Hw :=
  if x.1 < 5120 then { h with fab := { h.fab with inq := h.fab.inq.mod [] x.1 (· ++ [x.2]) } } else h

/-- An arbitration phase of an edge direction (R438): one flit crosses, after `retries` repetitions by the link, each
counted for the health sheet (R153). -/
def Hw.grantEdge (h : Hw) (dir retries : Nat) : Hw :=
  let i := 64 + dir
  let ws := h.edgeWaiters dir
  let el := ws.filter fun p => p == 0 || decide (0 < h.edgeTokens p dir)
  let h := ws.foldl (fun h p => if el.contains p then h else h.noteExhausted p 1) h
  if h.edgeFlits (dir / 2) ≤ h.slotsUsed i then h
  else
    let a := h.arb i
    match a.pick el h.edgeWeight with
    | none => h
    | some (p, a') =>
      match edgeHead p (h.fab.edgeQ.getD [] dir) with
      | none => h
      | some (x, q) =>
        let h := (h.chargeEdges p [(dir, 1)]).getD h
        let h := { h with fab := { h.fab with edgeQ := SMap.putD [] h.fab.edgeQ dir q } }
        let h := if retries = 0 then h else h.healthAdd (partEdge (dir / 2)) inRetry retries
        let h := (h.crossed x).modArb i fun _ => a'
        (h.noteGrant i p el id (a.hint el h.edgeWeight p)).useSlots i 1

/-! The sync-object store (R187, R223). -/

/-- The agent code of a store port for a violation (R193): tile columns, the sequencer, cores, PCIe, Datums. -/
def storeAgent (port : Nat) : Nat :=
  if port ≤ 1 then 4 else if port = 2 then 1 else if port ≤ 34 then 0 else if port ≤ 38 then 2 else 3

/-- A round of the store (R223, R438): the operations presented together are performed in port order, and each port
is answered with the value before its operation. -/
def Hw.storeRound (h : Hw) (ops : List StoreReq) : Hw :=
  let sorted := sortBy (fun (a b : StoreReq) => decide (a.port.val ≤ b.port.val)) ops
  let ports := sorted.foldl (fun s (o : StoreReq) => NSet.add s o.port.val) ([] : NSet)
  sorted.foldl (fun h o =>
    let p := o.port.val
    let waiting := ports.filter fun x => decide (p ≤ x)
    let op : SobOp := if o.op.val = 0 then .read else if o.op.val = 1 then .set o.value.toNat else .add o.value.toNat
    let (old, h) := h.sobAccess (storeAgent p) o.pid.val o.idx.toNat op
    let ans : MemReq :=
      { src := 1024, pid := o.pid.val, tag := p, write := false, addr := o.idx.toNat, len := 8, data := leBytes 8 old,
        stain := false }
    let h := { h with fab := { h.fab with responses := h.fab.responses ++ [ans] } }
    h.noteGrant 76 p waiting (fun _ => 0) 0) h

/-! Command fetch (R202, R436). -/

/-- The positions of the fetch ring that are eligible: 1 the owner queue, 1 + PID a partition (R438); partitions have
24 of the 32 chunks of a stroke (R69). -/
def Hw.fetchEligible (h : Hw) (cp : Nat) : List Nat :=
  (if h.fetchable 0 0 cp then [1] else []) ++
  (if 24 ≤ h.slotsUsed 77 then []
   else (h.parts.filter fun e => e.1 ≠ 0 && e.2.queues.any fun q => h.fetchable e.1 q.1 cp).map fun e => 1 + e.1)

/-- A queue from which no command can be fetched shows in its mirror what it waits for, and a budget that is reached counts
(R62, R196). -/
def Hw.showWaits (h : Hw) (cp : Nat) : Hw :=
  (h.parts.flatMap fun e => e.2.queues.map fun q => (e.1, q.1)).foldl (fun h q =>
    if h.fetchable q.1 q.2 cp then h else h.fetchNext q.1 q.2 cp) h

/-- The weight of a fetch position (R436). -/
def Hw.fetchWeight (h : Hw) (r : Nat) : Nat :=
  if r ≤ 1 then 4
  else match h.stn.active.rowOf (r - 1) with
  | some x => max 1 (x.cpOps * 32 / h.stn.active.coatLen)
  | none => 1

/-- The next queue of a partition to be served, round-robin by command (R202). -/
def Hw.nextQueue (h : Hw) (pid cp : Nat) : Option Nat :=
  let qs := (((h.part pid).map (·.queues)).getD []).filterMap fun e => if h.fetchable pid e.1 cp then some e.1 else none
  match (h.arb 77).lastQueue.find pid with
  | some l => (qs.find? fun q => decide (l < q)).orElse fun _ => qs.head?
  | none => qs.head?

/-- An arbitration phase of command fetch (R202, R438): the chunks of one command are granted. -/
def Hw.grantFetch (h : Hw) : Hw :=
  match firstNat 4 h.cpRuns with
  | none => h
  | some cp =>
    let h := h.showWaits cp
    let el := h.fetchEligible cp
    let a := h.arb 77
    match a.pick el h.fetchWeight with
    | none => h
    | some (r, a') =>
      let pid := r - 1
      match h.nextQueue pid cp with
      | none => h
      | some q =>
        let hint := a.hint el h.fetchWeight r
        let n0 := h.fetched.length
        let h := h.fetchNext pid q cp
        let n := sumNat ((h.fetched.drop n0).map (·.slots))
        let h := h.modArb 77 fun _ => { a' with left := a'.left - (n - 1), lastQueue := a'.lastQueue.put pid q }
        (h.noteGrant 77 r el (fun x => x - 1) hint).useSlots 77 (if pid = 0 then 0 else n)

/-- `TRACE_RECORD`: the records taken since the last writing go to the trace ring, with PID 0 in context 0 (R579,
R580). -/
def Hw.flushTrace (h : Hw) : Hw :=
  match h.sys.trace with
  | none => h
  | some t =>
    if t.queue.isEmpty then h
    else
      let h := t.queue.foldl (fun h r => (h.writeVa 2 0 (t.va + 32 * (r.1 % 2 ^ t.log2Size)) r.2 false).2) h
      { h with sys := { h.sys with trace := h.sys.trace.map fun t => { t with queue := [] } } }

/-- `ARBITRATION_PHASE` (R438) of instance `i`: the operations that ports present count at the store, instance 76, and the
repetitions by a link at an edge, instances 64 to 75. -/
def execArbitrationPhase (i : Fin 78) (ops : ArbInput) (s : State) : Host.Outcome State Fault Refusal :=
  s.next fun h =>
    if ! h.fabricOn || (h.arb i.val).freeze.isSome then h
    else if i.val < 64 then (h.grantPort i.val).flushTrace
    else if i.val < 76 then (h.grantEdge (i.val - 64) ops.retries.val).flushTrace
    else if i.val = 76 then (h.storeRound ops.ops).flushTrace
    else h.grantFetch.flushTrace

end Sys2Proof.Machine
end

