-- ==== Sys2Proof/Machine/Lut.lean ====
section
/-! DEFINITION. FP32 lane arithmetic on encodings (R92), lookup tables (R94), and the fast Fourier
transform in FP32 (R292). -/

namespace Sys2Proof.Machine

/-- FP32 operations on encodings, each rounded once (R92). -/
def f32v (a : Nat) : Val := fp32.decode a
def f32add (a b : Nat) : Nat := fp32.lane ((f32v a).add (f32v b))
def f32sub (a b : Nat) : Nat := fp32.lane ((f32v a).sub (f32v b))
def f32mul (a b : Nat) : Nat := fp32.lane ((f32v a).mul (f32v b))
def f32div (a b : Nat) : Nat := fp32.lane ((f32v a).div (f32v b))
def f32fma (a b c : Nat) : Nat := fp32.lane (((f32v a).mul (f32v b)).add (f32v c))
def f32max (a b : Nat) : Nat := fp32.lane ((f32v a).max (f32v b))
def f32min (a b : Nat) : Nat := fp32.lane ((f32v a).min (f32v b))

/-- A value converted to FP32 under R126. -/
def toF32 (v : Val) : Nat := (toFp fp32 .rne v).1

/-- Whether the conversion of an exact value to FP32 overflows (R126). -/
def f32over (v : Val) : Bool := (toFp fp32 .rne v).2

/-- A natural number in FP32. -/
def f32nat (n : Nat) : Nat := fp32.lane (Val.ofInt n)

/-- A lookup table applied to an FP32 input (R94): words 0 and 1 are `LO` and `SCALE`, T[i] is word
2 + i. -/
def lutApply (ws : List Nat) (x : Nat) : Nat :=
  match f32v x with
  | .nan => fp32.qnan
  | _ =>
    let t := f32mul (f32sub x (ws.getD 0 0)) (ws.getD 1 0)
    match f32v t with
    | .nan => fp32.qnan
    | _ =>
      let t := f32min (f32max t 0) (f32nat 256)
      let i := min (f32v t).floor.toNat 255
      let f := f32sub t (f32nat i)
      let a := ws.getD (2 + i) 0
      f32fma f (f32sub (ws.getD (3 + i) 0) a) a

/-- RN(cos(2πk ÷ 64)) in FP32 for k from 0 to 16 (R292). -/
def cos64 : List Nat :=
  [0x3F800000, 0x3F7EC46D, 0x3F7B14BE, 0x3F74FA0B, 0x3F6C835E, 0x3F61C598,
   0x3F54DB31, 0x3F45E403, 0x3F3504F3, 0x3F226799, 0x3F0E39DA, 0x3EF15AEA,
   0x3EC3EF15, 0x3E94A031, 0x3E47C5C2, 0x3DC8BD36, 0x00000000]

/-- RN(cos(2πk ÷ n)) for n dividing 64. -/
def cosN (n k : Nat) : Nat :=
  let j := k * (64 / n) % 64
  if j ≤ 16 then cos64.getD j 0
  else if j < 32 then f32neg0 (cos64.getD (32 - j) 0)
  else if j ≤ 48 then f32neg0 (cos64.getD (j - 32) 0)
  else cos64.getD (64 - j) 0
where
  /-- Negation, with +0 for zero. -/
  f32neg0 (a : Nat) : Nat := if a = 0 then 0 else a ^^^ 0x80000000

/-- The sine for transforms of any size from 2 to 64: sin(2πk ÷ n) = cos(2π(64k ÷ n − 16) ÷ 64). -/
def sin64 (n k : Nat) : Nat := cosN 64 (k * (64 / n) + 48)

/-- A complex value as two FP32 encodings. -/
abbrev Cx := Nat × Nat

/-- The twiddle factor tw(k) (R292). -/
def twiddle (n k : Nat) (inv : Bool) : Cx :=
  let s := sin64 n k
  (cosN n k, if inv then s else if s = 0 then 0x80000000 else s ^^^ 0x80000000)

/-- The product of R292. -/
def cxMul (w b : Cx) : Cx :=
  (f32sub (f32mul w.1 b.1) (f32mul w.2 b.2), f32add (f32mul w.1 b.2) (f32mul w.2 b.1))

def cxAdd (a b : Cx) : Cx := (f32add a.1 b.1, f32add a.2 b.2)
def cxSub (a b : Cx) : Cx := (f32sub a.1 b.1, f32sub a.2 b.2)

/-- The conjugate, an operation under R92. -/
def cxConj (a : Cx) : Cx := (a.1, fp32.lane (f32v a.2).neg)

/-- One stage of butterflies of span `m` over values of transforms of `n` points (R292). -/
def fftStage (n m : Nat) (inv : Bool) (z : List Cx) : List Cx :=
  (List.range z.length).map fun i =>
    let j := i % m
    if j < m / 2 then
      cxAdd (z.getD i (0, 0)) (cxMul (twiddle n (j * (n / m)) inv) (z.getD (i + m / 2) (0, 0)))
    else
      cxSub (z.getD (i - m / 2) (0, 0)) (cxMul (twiddle n ((j - m / 2) * (n / m)) inv) (z.getD i (0, 0)))

/-- The bit reversal of an index of `b` bits. -/
def bitRev : Nat → Nat → Nat
  | 0, _ => 0
  | b + 1, i => (i % 2) * 2 ^ b + bitRev b (i / 2)

/-- A transform of 2^`b` points (R292). -/
def fft1 (b : Nat) (inv : Bool) (z : List Cx) : List Cx :=
  let z := (List.range (2 ^ b)).map fun i => z.getD (bitRev b i) (0, 0)
  (List.range b).foldl (fun z s => fftStage (2 ^ b) (2 ^ (s + 1)) inv z) z

/-- Cuts a list into `k` rows of `n`. -/
def rowsOf {α : Type} : Nat → Nat → List α → List (List α)
  | 0, _, _ => []
  | k + 1, n, l => l.take n :: rowsOf k n (l.drop n)

/-- The transpose of `k` rows of `n` values. -/
def transposeRows {α : Type} (d : α) (n : Nat) (rows : List (List α)) : List (List α) :=
  (List.range n).map fun j => rows.map fun r => r.getD j d

/-- A 2-D transform: every row, then every column (R292). -/
def fft2 (b : Nat) (inv : Bool) (z : List Cx) : List Cx :=
  let n := 2 ^ b
  let rows := (rowsOf n n z).map (fft1 b inv)
  let cols := (transposeRows (0, 0) n rows).map (fft1 b inv)
  (transposeRows (0, 0) n cols).flatten

/-- Multiplication by 2^(−k). -/
def cxScale (k : Nat) (z : Cx) : Cx :=
  let s (a : Nat) : Nat := fp32.lane ((f32v a).scale (-(k : Int)))
  (s z.1, s z.2)

end Sys2Proof.Machine
end

