-- ==== Sys2Proof/Machine/Trig.lean ====
section
/-! DEFINITION. Sine and cosine of exact values (R304), in fixed point far beyond the precision of FP32; the
caller rounds once (log entry 11). -/

namespace Sys2Proof.Machine

/-- Fraction bits of the trigonometric functions. -/
def tgBits : Nat := 640

/-- arctan(1 ÷ x) in fixed point: alternating sum of 1 ÷ ((2k + 1) x^(2k + 1)). -/
def atanInv (x : Nat) : Nat → Nat → Nat → Int
  | 0, _, _ => 0
  | n + 1, k, t =>
    let term : Int := t / (2 * k + 1)
    (if k % 2 = 0 then term else -term) + atanInv x n (k + 1) (t / (x * x))

/-- π in fixed point, by 16 arctan(1 ÷ 5) − 4 arctan(1 ÷ 239). -/
def fxPi : Nat :=
  let one := 2 ^ (tgBits + 32)
  ((16 * atanInv 5 160 0 (one / 5) - 4 * atanInv 239 60 0 (one / 239)) / ((2 ^ 32 : Nat) : Int)).toNat

/-- Σ (−1)^k t y² ÷ ((a + 1)(a + 2)) …: the tail of a sine or cosine series from term `t` of degree `a`. -/
def trigSeries (y2 : Nat) : Nat → Nat → Nat → Int
  | 0, _, _ => 0
  | n + 1, a, t => (t : Int) - trigSeries y2 n (a + 2) (t * y2 / 2 ^ tgBits / ((a + 1) * (a + 2)))

/-- Sine and cosine of an angle in [0, π ÷ 2) in fixed point. -/
def fxSinCos (y : Nat) : Int × Int :=
  let y2 := y * y / 2 ^ tgBits
  (trigSeries y2 90 1 y, trigSeries y2 90 0 (2 ^ tgBits))

/-- A fixed-point result as an exact value with a sticky bit. -/
def fxVal (v : Int) : Val := .num (decide (v < 0)) (2 * v.natAbs + 1) (-(tgBits : Int) - 1)

/-- Sine and cosine of a finite magnitude `m` × 2^`e`, by its quadrant. -/
def sinCosMag (m : Nat) (e : Int) : Int × Int :=
  let sh := e + tgBits
  let y := if 0 ≤ sh then m * 2 ^ sh.toNat else m / 2 ^ (-sh).toNat
  let half := fxPi / 2
  let q := y / half
  let (s, c) := fxSinCos (y % half)
  match q % 4 with
  | 0 => (s, c)
  | 1 => (c, -s)
  | 2 => (-s, -c)
  | _ => (-c, s)

/-- The sine of an exact value: NaN of an infinity or NaN, a zero of a zero. -/
def Val.sin : Val → Val
  | .num s 0 e => .num s 0 e
  | .num s m e => let v := (sinCosMag m e).1; fxVal (if s then -v else v)
  | _ => .nan

/-- The cosine of an exact value: exactly 1 of a zero. -/
def Val.cos : Val → Val
  | .num _ 0 _ => .one
  | .num _ m e => fxVal (sinCosMag m e).2
  | _ => .nan

/-- The tangent of an exact value. -/
def Val.tan (a : Val) : Val := a.sin.div a.cos

/-- Σ (−1)^k t y² …÷ (2k + 1): the arctangent series from term `t` of degree `a`. -/
def atanSeries (y2 : Nat) : Nat → Nat → Nat → Int
  | 0, _, _ => 0
  | n + 1, a, t => (t / a : Nat) - atanSeries y2 n (a + 2) (t * y2 / 2 ^ tgBits)

/-- arctan y for 0 ≤ y ≤ 1 in fixed point, after `k` halvings of the angle. -/
def fxAtan : Nat → Nat → Int
  | 0, y => atanSeries (y * y / 2 ^ tgBits) 160 1 y
  | k + 1, y =>
    let one := 2 ^ tgBits
    2 * fxAtan k (y * one / (one + isqrt (one * one + y * y)))

/-- The angle of the vector (x, y) of exact finite values, in (−π, π]; zero for the zero vector. -/
def Val.atan2 (y x : Val) : Val :=
  match y, x with
  | .num s m e, .num t n g =>
    if m = 0 ∧ n = 0 then .zero
    else
      let lo : Int := if e ≤ g then e else g
      let a := m * 2 ^ (e - lo).toNat
      let b := n * 2 ^ (g - lo).toNat
      let one := 2 ^ tgBits
      let q : Int := if a ≤ b then fxAtan 4 (a * one / b) else (fxPi / 2 : Nat) - fxAtan 4 (b * one / a)
      let v : Int := if t && n ≠ 0 then (fxPi : Int) - q else q
      if m = 0 then (if t && n ≠ 0 then fxVal fxPi else .zero) else fxVal (if s then -v else v)
  | _, _ => .nan

end Sys2Proof.Machine
end

