-- ==== Sys2Proof/Machine/FusMath.lean ====
section
/-! DEFINITION. The arithmetic of the fusion engine (R338 to R343): binary64 operations that each round
once, with every sum in increasing index order (R340), and the assignment solver (R342). -/

namespace Sys2Proof.Machine

/-! Binary64 operations on encodings (R340). -/

def f64v (a : Nat) : Val := fp64.decode a
def f64add (a b : Nat) : Nat := fp64.lane ((f64v a).add (f64v b))
def f64sub (a b : Nat) : Nat := fp64.lane ((f64v a).sub (f64v b))
def f64mul (a b : Nat) : Nat := fp64.lane ((f64v a).mul (f64v b))
def f64div (a b : Nat) : Nat := fp64.lane ((f64v a).div (f64v b))
def f64sqrt (a : Nat) : Nat := fp64.lane (f64v a).sqrt
def f64sin (a : Nat) : Nat := fp64.lane (f64v a).sin
def f64cos (a : Nat) : Nat := fp64.lane (f64v a).cos
def f64neg (a : Nat) : Nat := fp64.lane (f64v a).neg
def f64int (i : Int) : Nat := fp64.lane (Val.ofInt i)
def f64zero : Nat := 0
def f64one : Nat := 0x3FF0_0000_0000_0000

/-- 10^−9 and 10^−6 in binary64. -/
def f64nano : Nat := 0x3E11_2E0B_E826_D695
def f64micro : Nat := 0x3EB0_C6F7_A0B5_ED8D

/-- An FP32 encoding as binary64, exactly (R340). -/
def f64of32 (a : Nat) : Nat := fp64.lane (f32v a)

/-- A binary64 encoding as FP32, rounded to nearest even; beyond the FP32 range an infinity (R340). -/
def f64to32 (a : Nat) : Nat := fp32.lane (f64v a)

/-- Whether an encoding is finite. -/
def f64finite (a : Nat) : Bool := (f64v a).isNum

/-- A matrix by rows. -/
abbrev Mat := List (List Nat)

/-- An entry; zero beyond the edges. -/
def Mat.at_ (a : Mat) (i j : Nat) : Nat := (a.getD i []).getD j 0

/-- A matrix from its entries. -/
def matOf (n m : Nat) (f : Nat → Nat → Nat) : Mat :=
  (List.range n).map fun i => (List.range m).map fun j => f i j

/-- A sum in increasing index order. -/
def f64sum : List Nat → Nat
  | [] => f64zero
  | x :: xs => xs.foldl f64add x

/-- The inner product of `k` terms. -/
def f64dot (k : Nat) (a b : Nat → Nat) : Nat := f64sum ((List.range k).map fun i => f64mul (a i) (b i))

/-- A product of an n × k and a k × m matrix, entry by entry (R340). -/
def matMul (n k m : Nat) (a b : Mat) : Mat :=
  matOf n m fun i j => f64dot k (a.at_ i) fun l => b.at_ l j

/-- The transpose. -/
def matT (n m : Nat) (a : Mat) : Mat := matOf m n fun i j => a.at_ j i

/-- A symmetric matrix from its lower triangle row by row (R339, R345). -/
def symMat (n : Nat) (l : List Nat) : Mat :=
  matOf n n fun i j => l.getD (if j ≤ i then i * (i + 1) / 2 + j else j * (j + 1) / 2 + i) 0

/-- The lower triangle of a matrix, row by row. -/
def lowTri (n : Nat) (a : Mat) : List Nat :=
  (List.range n).flatMap fun i => (List.range (i + 1)).map fun j => a.at_ i j

/-! Motion (R338). -/

/-- The core dimension of a model. -/
def coreDim (model : Nat) (threeD : Bool) : Nat :=
  match model with
  | 0 => if threeD then 6 else 4
  | 1 => if threeD then 9 else 6
  | _ => 5

/-- The most extra components of a model. -/
def maxExtra (model : Nat) (threeD : Bool) : Nat :=
  match model with
  | 0 => if threeD then 6 else 8
  | 1 => if threeD then 3 else 6
  | _ => 7

/-- The dimension of a set's state. -/
def FusSet.n (s : FusSet) : Nat := coreDim s.model s.threeD + s.nExtra

/-- The number of position components: x, y and, in three dimensions, z. -/
def FusSet.axes (s : FusSet) : Nat := if s.threeD then 3 else 2

/-- A binary64 field of the configuration block. -/
def FusSet.q (s : FusSet) (off : Nat) : Nat := field s.cfg off 8

/-- Δt from a difference in ns (R340). -/
def deltaT (ns : Int) : Nat := f64mul (f64int ns) f64nano

/-- Δt^`k`. -/
def f64pow (dt : Nat) : Nat → Nat
  | 0 => f64one
  | k + 1 => if k = 0 then dt else f64mul (f64pow dt k) dt

/-- The transition matrix of CV and CA: per axis 1, Δt and Δt² ÷ 2. -/
def linearF (n axes order : Nat) (dt : Nat) : Mat :=
  matOf n n fun i j =>
    if i = j then f64one
    else if axes * (order + 1) ≤ j ∨ j < i ∨ (j - i) % axes ≠ 0 then f64zero
    else if (j - i) / axes = 1 then dt
    else f64div (f64pow dt 2) (f64int 2)

/-- The state map of CTRV (log entry 31). -/
def ctrvMap (x : List Nat) (dt : Nat) : List Nat :=
  let g (i : Nat) : Nat := x.getD i 0
  let v := g 2
  let psi := g 3
  let w := g 4
  if (f64v f64micro).le (f64v w).abs then
    let r := f64div v w
    let p1 := f64add psi (f64mul w dt)
    [f64add (g 0) (f64mul r (f64sub (f64sin p1) (f64sin psi))),
     f64add (g 1) (f64mul r (f64sub (f64cos psi) (f64cos p1))), v, p1, w] ++ x.drop 5
  else
    let d := f64mul v dt
    [f64add (g 0) (f64mul d (f64cos psi)), f64add (g 1) (f64mul d (f64sin psi)), v, psi, w] ++ x.drop 5

/-- The Jacobian of the CTRV map at a state, each entry by its own formula (log entry 31). -/
def ctrvF (n : Nat) (x : List Nat) (dt : Nat) : Mat :=
  let g (i : Nat) : Nat := x.getD i 0
  let v := g 2
  let psi := g 3
  let w := g 4
  let turning := (f64v f64micro).le (f64v w).abs
  let p1 := f64add psi (f64mul w dt)
  let ds := f64sub (f64sin p1) (f64sin psi)
  let dc := f64sub (f64cos psi) (f64cos p1)
  let r := f64div v w
  let rw := f64div v (f64mul w w)
  let vt := f64div (f64mul v dt) w
  matOf n n fun i j =>
    if i = j then f64one
    else if turning then
      match i, j with
      | 0, 2 => f64div ds w
      | 0, 3 => f64mul r (f64sub (f64cos p1) (f64cos psi))
      | 0, 4 => f64sub (f64mul vt (f64cos p1)) (f64mul rw ds)
      | 1, 2 => f64div dc w
      | 1, 3 => f64mul r ds
      | 1, 4 => f64sub (f64mul vt (f64sin p1)) (f64mul rw dc)
      | 3, 4 => dt
      | _, _ => f64zero
    else
      match i, j with
      | 0, 2 => f64mul dt (f64cos psi)
      | 0, 3 => f64neg (f64mul (f64mul v dt) (f64sin psi))
      | 1, 2 => f64mul dt (f64sin psi)
      | 1, 3 => f64mul (f64mul v dt) (f64cos psi)
      | _, _ => f64zero

/-- The process noise of CV and CA between orders `a` and `b` of one axis. -/
def axisQ (order a b q dt : Nat) : Nat :=
  let t (k d : Nat) : Nat := f64mul q (f64div (f64pow dt k) (f64int (d : Int)))
  if order = 1 then
    (if a + b = 0 then t 3 3 else if a + b = 1 then t 2 2 else f64mul q dt)
  else
    match a + b with
    | 0 => t 5 20
    | 1 => t 4 8
    | 2 => if a = b then t 3 3 else t 3 6
    | 3 => t 2 2
    | _ => f64mul q dt

/-- The process noise over Δt (R338). -/
def FusSet.noise (s : FusSet) (dt : Nat) : Mat :=
  let core := coreDim s.model s.threeD
  let ax := s.axes
  let qm := s.q 40
  let qt := s.q 48
  matOf s.n s.n fun i j =>
    if core ≤ i ∨ core ≤ j then
      (if i = j then f64mul (s.q (64 + 8 * (i - core))) dt else f64zero)
    else if s.model = 2 then
      match i, j with
      | 2, 2 => f64mul qm dt
      | 3, 3 => f64mul qt (f64div (f64pow dt 3) (f64int 3))
      | 3, 4 => f64mul qt (f64div (f64pow dt 2) (f64int 2))
      | 4, 3 => f64mul qt (f64div (f64pow dt 2) (f64int 2))
      | 4, 4 => f64mul qt dt
      | _, _ => f64zero
    else if i % ax = j % ax then axisQ (s.model + 1) (i / ax) (j / ax) qm dt
    else f64zero

/-- The entries of a sum of two matrices. -/
def matAdd (n : Nat) (a b : Mat) : Mat := matOf n n fun i j => f64add (a.at_ i j) (b.at_ i j)

/-- Stage 3 for one track: it moves to `tv` (R338, R341). -/
def FusSet.predict (s : FusSet) (tv : Nat) (t : FusTrack) : FusTrack :=
  let n := s.n
  let dt := deltaT ((tv : Int) - t.time)
  let f := if s.model = 2 then ctrvF n t.x dt else linearF n s.axes (s.model + 1) dt
  let x := if s.model = 2 then ctrvMap t.x dt
    else (List.range n).map fun i => f64dot n (f.at_ i) fun l => t.x.getD l 0
  let p := matAdd n (matMul n n n (matMul n n n f (symMat n t.p)) (matT n n f)) (s.noise dt)
  { t with x := x, p := lowTri n p, time := tv }

/-! Measurements and gating (R339, R341). -/

/-- A measurement record. -/
structure Meas where
  cls : Nat
  noBirth : Bool
  sensor : Nat
  dim : Nat
  sel : Nat
  time : Nat
  z : List Nat
  r : List Nat
  tag : Nat
  deriving DecidableEq, Repr

/-- Reads a measurement record (R339); FP32 inputs convert exactly. -/
def parseMeas (b : List Byte) : Meas :=
  { cls := bits (field b 0 1) 0 4, noBirth := bit (field b 0 1) 4, sensor := bits (field b 1 1) 0 4,
    dim := bits (field b 2 1) 0 3, sel := bits (field b 4 2) 0 12, time := field b 8 8,
    z := (List.range 6).map fun i => f64of32 (field b (16 + 4 * i) 4),
    r := (List.range 21).map fun i => f64of32 (field b (40 + 4 * i) 4), tag := field b 124 4 }

/-- The state components that a measurement selects, in rising order. -/
def Meas.comps (m : Meas) : List Nat := (List.range 12).filter fun i => bit m.sel i

/-- Whether a record is one whose results the manual fixes (R339): `SEL` matches `M_DIM` and selects state
components. -/
def Meas.sound (m : Meas) (n : Nat) : Bool :=
  decide (1 ≤ m.dim) && decide (m.dim ≤ 6) && m.comps.length == m.dim && decide (m.sel < 2 ^ n)

/-- `CLASS_COST` of a track class and a measurement class (R337). -/
def FusSet.classCost (s : FusSet) (a b : Nat) : Nat := field s.cfg (256 + 2 * (16 * a + b)) 2

/-- Stage 4: the coarse gate for a pair. -/
def FusSet.coarse (s : FusSet) (t : FusTrack) (m : Meas) : Bool :=
  s.classCost t.cls m.cls ≠ 0xFFFF &&
  (List.range m.dim).all fun k =>
    let c := m.comps.getD k 0
    decide (s.axes ≤ c) ||
      (f64v (f64sub (m.z.getD k 0) (t.x.getD c 0))).abs.le (f64v (s.q 24))

/-- One row of a Cholesky factor, given the rows above it; `none` when its pivot is not positive or an entry
is not finite. -/
def cholRow (s : Mat) (l : Mat) (i : Nat) : Option (List Nat) :=
  let row := (List.range i).foldl (fun (row : List Nat) j =>
    let x := (List.range j).foldl (fun x k => f64sub x (f64mul (row.getD k 0) (l.at_ j k))) (s.at_ i j)
    row ++ [f64div x (l.at_ j j)]) []
  let d := (List.range i).foldl (fun x k => f64sub x (f64mul (row.getD k 0) (row.getD k 0))) (s.at_ i i)
  if Val.lt .zero (f64v d) && f64finite d && row.all f64finite then some (row ++ [f64sqrt d]) else none

/-- The Cholesky factor of an m × m matrix, row by row. -/
def chol (s : Mat) : Nat → Option Mat
  | 0 => some []
  | i + 1 => (chol s i).bind fun l => (cholRow s l i).map fun r => l ++ [r]

/-- Solves L w = y forward. -/
def solveLow (l : Mat) (y : List Nat) (m : Nat) : List Nat :=
  (List.range m).foldl (fun (w : List Nat) i =>
    let x := (List.range i).foldl (fun x k => f64sub x (f64mul (l.at_ i k) (w.getD k 0))) (y.getD i 0)
    w ++ [f64div x (l.at_ i i)]) []

/-- Solves Lᵀ k = w backward; sums run in increasing index order. -/
def solveUp (l : Mat) (w : List Nat) (m : Nat) : List Nat :=
  (List.range m).reverse.foldl (fun (ks : List Nat) i =>
    let x := (List.range (m - 1 - i)).foldl (fun x d =>
      f64sub x (f64mul (l.at_ (i + 1 + d) i) (ks.getD d 0))) (w.getD i 0)
    f64div x (l.at_ i i) :: ks) []

/-- The innovation of a pair. -/
def innovation (t : FusTrack) (m : Meas) : List Nat :=
  (List.range m.dim).map fun k => f64sub (m.z.getD k 0) (t.x.getD (m.comps.getD k 0) 0)

/-- The innovation covariance S of a pair. -/
def innovCov (n : Nat) (t : FusTrack) (m : Meas) : Mat :=
  let p := symMat n t.p
  let r := symMat 6 m.r
  matOf m.dim m.dim fun i j => f64add (p.at_ (m.comps.getD i 0) (m.comps.getD j 0)) (r.at_ i j)

/-- Stage 5 for a pair: d², or `none` when the pair is bad. -/
def fineD2 (n : Nat) (t : FusTrack) (m : Meas) : Option Nat :=
  (chol (innovCov n t m) m.dim).bind fun l =>
    let w := solveLow l (innovation t m) m.dim
    let d := f64sum (w.map fun x => f64mul x x)
    if f64finite d && w.all f64finite then some d else none

/-- Stage 6: the cost of a gated pair. -/
def pairCost (d2 cc : Nat) : Nat :=
  min (toInteger 64 0 .rne ((f64v d2).scale 16)).1 (2 ^ 36) + cc

/-! The solver (R342). -/

/-- The solver's variables. -/
structure Solver where
  u : SMap Int
  v : SMap Int
  rowOf : SMap Nat
  minv : SMap Int
  used : NSet
  way : SMap Nat
  col : Nat
  edges : Nat
  passes : Nat
  deriving DecidableEq, Repr

/-- One pass of the inner loop: from column `col`, over the edges of its row, to the next column. -/
def Solver.pass (edges : List (List (Nat × Int))) (s : Solver) : Solver :=
  let used := NSet.add s.used s.col
  let r := s.rowOf.getD 0 s.col
  let es := edges.getD r []
  let free := es.filter fun e => ! used.contains e.1
  let (minv, way) := free.foldl (fun (a : SMap Int × SMap Nat) e =>
    let cur := e.2 - SMap.getD 0 s.u r - SMap.getD 0 s.v e.1
    match a.1.find e.1 with
    | some x => if cur < x then (a.1.put e.1 cur, a.2.put e.1 s.col) else a
    | none => (a.1.put e.1 cur, a.2.put e.1 s.col)) (s.minv, s.way)
  let open_ := minv.filter fun e => ! used.contains e.1
  let best := open_.foldl (fun (b : Option (Nat × Int)) e =>
    match b with
    | some x => if e.2 < x.2 then some e else b
    | none => some e) none
  match best with
  | none => { s with passes := s.passes + 1 }
  | some (next, delta) =>
    let (u, v) := used.foldl (fun (a : SMap Int × SMap Int) j =>
      (a.1.mod 0 (s.rowOf.getD 0 j) (· + delta), a.2.mod 0 j (· - delta))) (s.u, s.v)
    { s with u := u, v := v, used := used, way := way, col := next, edges := s.edges + es.length,
             minv := minv.map fun e => if used.contains e.1 then e else (e.1, e.2 - delta),
             passes := s.passes + 1 }

/-- The inner loop, to a column without a row. -/
def Solver.inner (edges : List (List (Nat × Int))) : Nat → Solver → Solver
  | 0, s => s
  | k + 1, s =>
    let s := s.pass edges
    if (s.rowOf.find s.col).isNone then s else s.inner edges k

/-- The reassignment along the path found. -/
def Solver.augment : Nat → Solver → Solver
  | 0, s => s
  | k + 1, s =>
    if s.col = 0 then s
    else
      let prev := s.way.getD 0 s.col
      Solver.augment k { s with rowOf := s.rowOf.put s.col (s.rowOf.getD 0 prev), col := prev }

/-- The outer loop over the rows; `cols` is the number of columns. -/
def solveRows (edges : List (List (Nat × Int))) (cols : Nat) : List Nat → Solver → Solver
  | [], s => s
  | i :: is, s =>
    let s := { s with minv := [], used := [], way := [], col := 0, rowOf := s.rowOf.put 0 i }
    let s := (s.inner edges (cols + 1)).augment (cols + 1)
    solveRows edges cols is s

/-- The assignment: column of each row, with the edges examined and the passes made. -/
def assign (edges : List (List (Nat × Int))) (cols : Nat) : Solver :=
  let s := solveRows edges cols (List.range edges.length)
    { u := [], v := [], rowOf := [], minv := [], used := [], way := [], col := 0, edges := 0, passes := 0 }
  { s with rowOf := s.rowOf.del 0 }

/-! Updates (R341, stage 8). -/

/-- Stage 8 for an assigned pair: the Kalman update in the Joseph form. -/
def kalman (n : Nat) (t : FusTrack) (m : Meas) : FusTrack :=
  match chol (innovCov n t m) m.dim with
  | none => t
  | some l =>
    let p := symMat n t.p
    let y := innovation t m
    let k : Mat := (List.range n).map fun i =>
      solveUp l (solveLow l ((List.range m.dim).map fun j => p.at_ i (m.comps.getD j 0)) m.dim) m.dim
    let x := (List.range n).map fun i => f64add (t.x.getD i 0) (f64dot m.dim (k.at_ i) fun j => y.getD j 0)
    let a := matOf n n fun i j =>
      let e := if i = j then f64one else f64zero
      match (List.range m.dim).find? fun d => m.comps.getD d 0 == j with
      | some d => f64sub e (k.at_ i d)
      | none => e
    let r := symMat 6 m.r
    let q := matAdd n (matMul n n n (matMul n n n a p) (matT n n a))
      (matMul n m.dim n (matMul n m.dim m.dim k r) (matT n m.dim k))
    { t with x := x, p := lowTri n q }

/-- Whether a track's state and covariance are finite. -/
def FusTrack.finite (t : FusTrack) : Bool := t.x.all f64finite && t.p.all f64finite

end Sys2Proof.Machine
end

