-- ==== Sys2Proof/Machine/SurveyOps.lean ====
section
/-! DEFINITION. The survey: occupancy, the distance field and updates (R356 to R361). -/

namespace Sys2Proof.Machine

open Sys2Proof

/-! Keys and bricks. -/

/-- The key of a leaf brick of the volume. -/
def brickKey (x y z : Nat) : Nat := (x * 512 + y) * 16 + z
def brickX (k : Nat) : Nat := k / 8192
def brickY (k : Nat) : Nat := k / 16 % 512
def brickZ (k : Nat) : Nat := k % 16

/-- The bit of a top cell in `KNOWN` (R360). -/
def topBit (tx ty : Nat) : Nat := 32 * ty + tx

/-- The top cell of a brick. -/
def brickTop (k : Nat) : Nat := topBit (brickX k / 16) (brickY k / 16)

/-- Whether a top cell is KNOWN. -/
def Survey.isKnown (s : Survey) (tx ty : Nat) : Bool := bit s.known (topBit tx ty)

/-! The distance field (R358), in units of 50 mm from the volume's lower corner: leaf `l` has its centre at
2l + 1, cell `c` at 4c + 2. -/

/-- The least distance on one axis from a cell's centre `c` to a leaf centre of the leaves `lo` to `hi`. -/
def axisDist (c lo hi : Nat) : Nat :=
  if c < 2 * lo + 1 then 2 * lo + 1 - c else if c > 2 * hi + 1 then c - (2 * hi + 1) else 1

/-- The square of a number. -/
def sq (n : Nat) : Nat := n * n

/-- The least squared distance to the leaves outside the volume. -/
def outsideD2 (cx cy cz : Nat) : Nat :=
  let m := min (min (min (cx + 1) (8193 - cx)) (min (cy + 1) (8193 - cy))) (min (cz + 1) (257 - cz))
  sq m + 2

/-- The least squared distance to the leaves of UNKNOWN top cells and outside the volume: the implicit part. -/
def Survey.implicitD2 (s : Survey) (cx cy cz : Nat) : Nat :=
  (List.range 1024).foldl (fun m t =>
    if bit s.known t then m
    else
      let lx := t % 32 * 128
      let ly := t / 32 * 128
      min m (sq (axisDist cx lx (lx + 127)) + sq (axisDist cy ly (ly + 127)) + 1)) (outsideD2 cx cy cz)

/-- Whether a brick may hold a leaf within 6.5 m of a point on one axis. -/
def nearAxis (c b : Nat) : Bool := decide (16 * b ≤ c + 130) && decide (c ≤ 16 * b + 146)

/-- The least squared distance to the occupied leaves of a brick. -/
def brickD2 (cx cy cz k w m : Nat) : Nat :=
  let x0 := 8 * brickX k
  let y0 := 8 * brickY k
  let z0 := 8 * brickZ k
  (List.range 512).foldl (fun m i =>
    if bit w i then
      let d (c l : Nat) : Nat := axisDist c l l
      min m (sq (d cx (x0 + i % 8)) + sq (d cy (y0 + i / 8 % 8)) + sq (d cz (z0 + i / 64)))
    else m) m

/-- The least squared distance to the occupied leaves of the stored bricks, those in error counted full (R357):
the stored part. -/
def Survey.storedD2 (s : Survey) (cx cy cz m : Nat) : Nat :=
  let near (k : Nat) : Bool := nearAxis cx (brickX k) && nearAxis cy (brickY k) && nearAxis cz (brickZ k)
  let m := s.bricks.foldl (fun m e => if near e.1 then brickD2 cx cy cz e.1 e.2 m else m) m
  s.badBricks.foldl (fun m k =>
    if near k then
      let lo (b : Nat) : Nat := 8 * b
      min m (sq (axisDist cx (lo (brickX k)) (lo (brickX k) + 7)) + sq (axisDist cy (lo (brickY k)) (lo (brickY k) + 7)) +
        sq (axisDist cz (lo (brickZ k)) (lo (brickZ k) + 7)))
    else m) m

/-- The largest q from 0 to 255 with (25q + 87)² ≤ 2,500 `d`, or 0 (R358). -/
def cellValue (d : Nat) : Nat :=
  let e := isqrt (2500 * d)
  if e < 87 then 0 else min 255 ((e - 87) / 25)

/-- The value of the distance cell (i, j, k) of the volume. -/
def Survey.cell (s : Survey) (i j k : Nat) : Nat :=
  if s.badDist.contains ((i / 8 * 256 + j / 8) * 8 + k / 8) then 0
  else
    let cx := 4 * i + 2
    let cy := 4 * j + 2
    let cz := 4 * k + 2
    cellValue (s.storedD2 cx cy cz (s.implicitD2 cx cy cz))

/-! The store's counts (R357). -/

/-- The octant of a brick: its top cell, and its half on each axis. -/
def brickOct (k : Nat) : Nat := brickTop k * 8 + brickX k / 8 % 2 + 2 * (brickY k / 8 % 2) + 4 * (brickZ k / 8)

/-- The slabs in use: a root for each top cell with a stored brick, a node for each such octant, a leaf slab for
each stored brick. -/
def Survey.slabs (s : Survey) : Nat :=
  let tops : NSet := s.bricks.foldl (fun m e => NSet.add m (brickTop e.1)) []
  let octs : NSet := s.bricks.foldl (fun m e => NSet.add m (brickOct e.1)) []
  tops.length + octs.length + s.bricks.length

/-- The least distance on one axis from the cells of distance brick `b` to a leaf centre. -/
def brickAxis (b l : Nat) : Nat :=
  (List.range 8).foldl (fun m i => min m (axisDist (4 * (8 * b + i) + 2) l l)) 100000

/-- Whether a distance brick has a stored-part cell below 255, on account of a brick of leaves. -/
def distReached (dx dy dz k w : Nat) : Bool :=
  (List.range 512).any fun i =>
    bit w i && decide (2500 * (sq (brickAxis dx (8 * brickX k + i % 8)) + sq (brickAxis dy (8 * brickY k + i / 8 % 8)) +
      sq (brickAxis dz (8 * brickZ k + i / 64))) < 6462 * 6462)

/-- The distance bricks in use: those whose stored part is not 255 throughout (R358). -/
def Survey.distBricks (s : Survey) : Nat :=
  let cands : NSet := s.bricks.foldl (fun m e =>
    let x := brickX e.1 / 2
    let y := brickY e.1 / 2
    (upto (x - 5) 11).foldl (fun m dx => (upto (y - 5) 11).foldl (fun m dy => (List.range 8).foldl (fun m dz =>
      if dx < 256 ∧ dy < 256 then NSet.add m ((dx * 256 + dy) * 8 + dz) else m) m) m) m) []
  (cands.filter fun c => s.bricks.any fun e => distReached (c / 2048) (c / 8 % 256) (c % 8) e.1 e.2).length

/-! Updates (R360, R361). -/

/-- `N_BRICK` of an update record. -/
def updCount (b : List Byte) : Nat := field b 24 2

/-- Whether an update's header is sound: long enough, `N_BRICK` in range, reserved bytes zero. -/
def updHeader (b : List Byte) : Bool :=
  decide (192 ≤ b.length) && decide (updCount b ≤ 4096) && decide (192 + 72 * updCount b ≤ b.length) &&
  ((b.drop 26).take 38).all (· == 0)

/-- Entry `i` of an update. -/
def updEntry (b : List Byte) (i : Nat) : List Byte := (b.drop (192 + 72 * i)).take 72

/-- The brick of an entry. -/
def updBrick (b : List Byte) (i : Nat) : Nat :=
  let e := updEntry b i
  brickKey (bits (field e 0 2) 0 9) (bits (field e 2 2) 0 9) (bits (field e 4 1) 0 4)

/-- Whether an entry is sound: reserved bits zero, not listed before, inside a KNOWN top cell. -/
def updEntryOk (b : List Byte) (i : Nat) : Bool :=
  let e := updEntry b i
  decide (field e 0 2 < 512) && decide (field e 2 2 < 512) && decide (field e 4 1 < 16) && field e 5 3 == 0 &&
  ((List.range i).all fun j => updBrick b j ≠ updBrick b i) && bit (field b 64 128) (brickTop (updBrick b i))

/-- The check of an update: `none` when it is sound, else the index of its first failing entry or 0xFFFF_FFFF
(R359). -/
def updFault (b : List Byte) : Option Nat :=
  if updHeader b then firstNat (updCount b) fun i => ! updEntryOk b i else some 0xFFFF_FFFF

/-- A survey with its volume moved by (dx, dy) top cells: what leaves is dropped, what enters is UNKNOWN. -/
def Survey.shift (s : Survey) (dx dy : Int) : Survey :=
  let at_ (t : Nat) (d : Int) : Option Nat :=
    let v := (t : Int) - d
    if 0 ≤ v ∧ v < 32 then some v.toNat else none
  let known := (List.range 1024).foldl (fun m t =>
    if bit s.known t then
      match at_ (t % 32) dx, at_ (t / 32) dy with
      | some x, some y => m + 2 ^ topBit x y
      | _, _ => m
    else m) 0
  let move (k : Nat) : Option Nat :=
    match at_ (brickX k / 16) dx, at_ (brickY k / 16) dy with
    | some x, some y => some (brickKey (16 * x + brickX k % 16) (16 * y + brickY k % 16) (brickZ k))
    | _, _ => none
  { s with known := known,
           bricks := s.bricks.foldl (fun m e => match move e.1 with | some k => m.put k e.2 | none => m) [],
           badBricks := s.badBricks.foldl (fun m k => match move k with | some k => NSet.add m k | none => m) [] }

/-- The survey that an update leaves (R361), but for its number. -/
def applyUpdate (old : Option Survey) (b : List Byte) : Survey :=
  let frame := field b 0 4
  let oxi := sx 32 (field b 4 4)
  let oyi := sx 32 (field b 8 4)
  let ozi := sx 32 (field b 12 4)
  let fresh : Survey :=
    { seq := 0, frame := frame, tSurvey := 0, oxi := oxi, oyi := oyi, ozi := ozi, known := 0, bricks := [],
      badBricks := [], badDist := [] }
  let base := match old with
    | some s => if s.frame = frame ∧ s.ozi = ozi then s.shift (oxi - s.oxi) (oyi - s.oyi) else fresh
    | none => fresh
  let mask := field b 64 128
  let keep (k : Nat) : Bool := ! bit mask (brickTop k)
  let bricks := (List.range (updCount b)).foldl (fun (m : SMap Nat) i =>
    let w := field (updEntry b i) 8 64
    if w = 0 then m else m.put (updBrick b i) w) (base.bricks.filter fun e => keep e.1)
  { base with tSurvey := field b 16 8, oxi := oxi, oyi := oyi, known := base.known ||| mask, bricks := bricks,
              badBricks := base.badBricks.filter keep, badDist := [] }

/-- Whether a survey fits the store (R357). -/
def Survey.fits (s : Survey) : Bool := decide (s.slabs ≤ 196608) && decide (s.distBricks ≤ 22528)

/-- An uncorrectable error in the store (R357): what the slab covers counts as full, a distance brick reads
zero. -/
def Survey.upset (s : Survey) (u : TrvUpset) : Survey :=
  let fill (p : Nat → Bool) : Survey :=
    if s.bricks.any fun e => p e.1 then
      { s with badBricks := (List.range 4194304).foldl (fun m k => if p k then NSet.add m k else m) s.badBricks }
    else s
  match u with
  | .root tx ty => fill fun k => brickTop k == topBit tx.val ty.val
  | .node tx ty o => fill fun k => brickOct k == topBit tx.val ty.val * 8 + o.val
  | .leaf x y z => fill fun k => k == brickKey x.val y.val z.val
  | .dist x y z => { s with badDist := NSet.add s.badDist ((x.val * 256 + y.val) * 8 + z.val) }

end Sys2Proof.Machine
end

