-- ==== Sys2Proof/Machine/TravPath.lean ====
section
/-! DEFINITION. Trajectories: the record, the decoder with its checks, the brake profile and the shaper of
waypoints (R363 to R367, R376).  All arithmetic is binary64, each operation rounded once, in the order
written (R354). -/

namespace Sys2Proof.Machine

/-! Constants and comparisons. -/

def f64tan (a : Nat) : Nat := fp64.lane (f64v a).tan
def f64atan2 (y x : Nat) : Nat := fp64.lane ((f64v y).atan2 (f64v x))
def f64abs (a : Nat) : Nat := fp64.lane (f64v a).abs
def f64le (a b : Nat) : Bool := (f64v a).le (f64v b)
def f64lt (a b : Nat) : Bool := f64le a b && ! f64le b a
def f64max (a b : Nat) : Nat := if f64lt a b then b else a
def f64min (a b : Nat) : Nat := if f64lt b a then b else a
def f64half : Nat := 0x3FE0_0000_0000_0000
def f64two : Nat := 0x4000_0000_0000_0000
def f64six : Nat := 0x4018_0000_0000_0000
def f64four : Nat := 0x4010_0000_0000_0000
/-- 0.01, 0.1, 12 and 10^9 in binary64. -/
def f64c01 : Nat := 0x3F84_7AE1_47AE_147B
def f64c1 : Nat := 0x3FB9_9999_9999_999A
def f64twelve : Nat := 0x4028_0000_0000_0000
def f64giga : Nat := 0x41CD_CD65_0000_0000
def f64thousand : Nat := 0x408F_4000_0000_0000
/-- π in binary64. -/
def f64pi : Nat := 0x4009_21FB_5444_2D18

/-- ⌈a⌉ of a finite encoding. -/
def f64ceil (a : Nat) : Int := -(f64v a).neg.floor

/-- a rounded to the nearest integer, ties to even. -/
def f64rne (a : Nat) : Int :=
  match f64v a with
  | .num s m e => (if s then -1 else 1) * (roundShift .rne m e : Int)
  | _ => 0

/-! Reasons of R373. -/

def rsFormat : Nat := 1
def rsSpeed : Nat := 2
def rsAccel : Nat := 3
def rsJerk : Nat := 4
def rsCurvature : Nat := 5
def rsCurvRate : Nat := 6
def rsLateral : Nat := 7
def rsDirection : Nat := 8
def rsPoses : Nat := 9
def rsHorizon : Nat := 10
def rsFrame : Nat := 11
def rsNoEnvelope : Nat := 12
def rsNoStop : Nat := 13
def rsHeading : Nat := 14
def rsGeometry : Nat := 15

/-! The envelope (R362). -/

/-- An FP32 field of the envelope, in binary64. -/
def envF (e : List Byte) (off : Nat) : Nat := f64of32 (field e off 4)

/-- Whether an FP32 field of a record is finite and lies between two FP32 bounds. -/
def f32within (b : List Byte) (off lo hi : Nat) : Bool :=
  let v := f32v (field b off 4)
  v.isNum && (f32v lo).le v && v.le (f32v hi)

/-- The FP32 fields of the envelope with their bounds rounded to FP32: offset, least, greatest. -/
def envBounds : List (Nat × Nat × Nat) :=
  [(0, 0x3DCC_CCCD, 0x428C_0000), (4, 0, 0x4120_0000), (8, 0x3DCC_CCCD, 0x4120_0000),
   (12, 0x3F00_0000, 0x4170_0000), (16, 0x3F00_0000, 0x4248_0000), (20, 0x3A83_126F, 0x4000_0000),
   (24, 0x3A83_126F, 0x4120_0000), (28, 0x3DCC_CCCD, 0x4170_0000), (32, 0, 0x3E4C_CCCD)]

/-- Whether a field of a sphere's entry is sound: entries from `N_SPH` on are zero, `R` is from 0.05 to 5. -/
def sphereOk (e : List Byte) (i k : Nat) : Bool :=
  let off := 64 + 16 * i + 4 * k
  if field e 48 1 ≤ i then field e off 4 == 0
  else if k = 3 then f32within e off 0x3D4C_CCCD 0x40A0_0000 else (f32v (field e off 4)).isNum

/-- The offset of the first field of an envelope that fails, in byte order (R362); `plannerOk` judges a
`PLANNER` entry. -/
def envFault (e : List Byte) (plannerOk : Nat → Bool) : Option Nat :=
  let fp (t : Nat × Nat × Nat) : List (Nat × Bool) := [(t.1, f32within e t.1 t.2.1 t.2.2)]
  let checks : List (Nat × Bool) :=
    envBounds.flatMap fp ++
    [(36, decide (field e 36 4 ≤ 5000)), (40, f32within e 40 0 0x43FA_0000),
     (44, decide (1000 ≤ field e 44 4) && decide (field e 44 4 ≤ 1000000)),
     (48, decide (1 ≤ field e 48 1) && decide (field e 48 1 ≤ 16))] ++
    ((List.range 4).map fun i => (53 + i, plannerOk (field e (53 + i) 1))) ++
    ((List.range 64).map fun j => (64 + 4 * j, sphereOk e (j / 4) (j % 4)))
  (checks.find? fun c => ! c.2).map (·.1)

/-! The record (R363). -/

/-- `N` of a record. -/
def trajN (b : List Byte) : Nat := field b 2 2

/-- The bytes that a record is read as, from its header. -/
def trajBytes (hdr : List Byte) : Nat := 64 + 16 * trajN hdr

/-- Whether a record's form is sound: every FP field finite, every `DUR` above 0, `N` and `FORM` in range. -/
def trajForm (b : List Byte) : Bool :=
  let form := field b 0 1
  let f (o : Nat) : Bool := (f32v (field b o 4)).isNum
  let ent (i k : Nat) : Nat := 64 + 16 * i + 4 * k
  decide (form ≤ 1) && decide (1 ≤ trajN b) && decide (trajN b ≤ if form = 1 then 64 else 256) &&
  decide (trajBytes b ≤ b.length) && f64finite (field b 16 8) && f64finite (field b 24 8) &&
  [32, 36, 40, 44, 48].all f &&
  (List.range (trajN b)).all fun i =>
    f (ent i 0) && f (ent i 1) && f (ent i 2) && (form == 1 || Val.lt .zero (f32v (field b (ent i 0) 4)))

/-- An FP32 field of a record in binary64. -/
def trajF (b : List Byte) (o : Nat) : Nat := f64of32 (field b o 4)

/-! The decoder (R364, R365). -/

/-- A pose: time in ns, position, heading, speed, curvature, primitive and signed arc length in it. -/
structure Pose where
  ns : Int
  x : Nat
  y : Nat
  psi : Nat
  v : Nat
  kap : Nat
  prim : Nat
  u : Nat
  deriving DecidableEq, Repr

/-- A primitive's path: heading and curvature at its start, sharpness, signed arc length, direction. -/
structure Seg where
  psi : Nat
  kap : Nat
  sg : Nat
  u : Nat
  d : Bool
  deriving DecidableEq, Repr

/-- ps(w) = psi + kap·w + sg·w·w ÷ 2. -/
def psAt (psi kap sg w : Nat) : Nat :=
  f64add (f64add psi (f64mul kap w)) (f64div (f64mul (f64mul sg w) w) f64two)

/-- One Simpson step from arc length u0 to u. -/
def simpson (x y psi kap sg u0 u : Nat) : Nat × Nat :=
  let um := f64div (f64add u0 u) f64two
  let f := f64div (f64sub u u0) f64six
  let a := psAt psi kap sg u0
  let b := psAt psi kap sg um
  let c := psAt psi kap sg u
  (f64add x (f64mul f (f64add (f64add (f64cos a) (f64mul f64four (f64cos b))) (f64cos c))),
   f64add y (f64mul f (f64add (f64add (f64sin a) (f64mul f64four (f64sin b))) (f64sin c))))

/-- v + a·τ + j·τ·τ ÷ 2. -/
def speedAt (v a j tau : Nat) : Nat :=
  f64add (f64add v (f64mul a tau)) (f64div (f64mul (f64mul j tau) tau) f64two)

/-- v·τ + a·τ·τ ÷ 2 + j·τ·τ·τ ÷ 6. -/
def distAt (v a j tau : Nat) : Nat :=
  f64add (f64add (f64mul v tau) (f64div (f64mul (f64mul a tau) tau) f64two))
    (f64div (f64mul (f64mul (f64mul j tau) tau) tau) f64six)

/-- The decoder's state: time, position, heading, curvature, speed, acceleration, direction, poses (last
first), paths, and the reason of the first failure (0 none). -/
structure Dec where
  t : Nat
  x : Nat
  y : Nat
  psi : Nat
  kap : Nat
  v : Nat
  a : Nat
  d : Bool
  poses : List Pose
  segs : List Seg
  reason : Nat
  deriving DecidableEq, Repr

/-- The speeds at a primitive's ends and at its vertex. -/
def primSpeeds (v a j tt : Nat) : List Nat :=
  let tv := f64div (f64neg a) j
  [v, speedAt v a j tt] ++
    (if ! (f64v j).isZero && f64lt f64zero tv && f64lt tv tt then [speedAt v a j tv] else [])

/-- The steps of a primitive of duration `tt` and greatest speed `vm`. -/
def primSteps (tt vm : Nat) : Nat :=
  let lim := if f64lt f64zero vm then f64min f64c01 (f64div f64c1 vm) else f64c01
  (f64ceil (f64div tt lim)).toNat

/-- One primitive (R364), with the checks of R365 against the envelope `e`. -/
def decodePrim (e : List Byte) (t0 : Int) (i : Nat) (b : List Byte) (s : Dec) : Dec :=
  if s.reason ≠ 0 then s
  else
    let o := 64 + 16 * i
    let tt := trajF b o
    let j := trajF b (o + 4)
    let sg := trajF b (o + 8)
    let d := bit (field b (o + 12) 1) 0
    let vStop := envF e 32
    if d ≠ s.d ∧ ! f64le (f64abs s.v) vStop then { s with reason := rsDirection }
    else
      let s := if d ≠ s.d then { s with v := f64zero, a := f64zero, d := d } else s
      let sp := primSpeeds s.v s.a j tt
      let vmax := sp.foldl f64max (sp.getD 0 0)
      let n := primSteps tt vmax
      if s.poses.length + n > 4608 then { s with reason := rsPoses }
      else
        let hh := f64div tt (f64int n)
        let first := s.poses.length
        let (x, y, u, ps) := (List.range n).foldl (fun (a : Nat × Nat × Nat × List Pose) (k : Nat) =>
          let (x, y, u0, ps) := a
          let tau := f64mul (f64int ((k : Int) + 1)) hh
          let m := distAt s.v s.a j tau
          let u := if d then f64neg m else m
          let (x, y) := simpson x y s.psi s.kap sg u0 u
          let v := f64max f64zero (speedAt s.v s.a j tau)
          let p : Pose :=
            { ns := t0 + f64rne (f64mul (f64add s.t tau) f64giga), x := x, y := y, psi := psAt s.psi s.kap sg u, v := v,
              kap := f64add s.kap (f64mul sg u), prim := i, u := u }
          (x, y, u, p :: ps)) (s.x, s.y, f64zero, s.poses)
        let kap1 := f64add s.kap (f64mul sg u)
        let a1 := f64add s.a (f64mul j tt)
        let aMin := f64neg (envF e 12)
        let aMax := envF e 8
        let vLim := if d then envF e 4 else envF e 0
        let lat (p : Pose) : Bool := f64le (f64mul (f64mul p.v p.v) (f64abs p.kap)) (envF e 28)
        let fresh := ps.take (ps.length - (if i = 0 then 0 else first))
        let reason :=
          if ! sp.all (fun v => f64le v vLim && f64le (f64neg vStop) v) then rsSpeed
          else if ! [s.a, a1].all (fun a => f64le aMin a && f64le a aMax) then rsAccel
          else if ! f64le (f64abs j) (envF e 16) then rsJerk
          else if ! [s.kap, kap1].all (fun k => f64le (f64abs k) (envF e 20)) then rsCurvature
          else if ! f64le (f64mul (f64abs sg) (f64max f64zero vmax)) (envF e 24) then rsCurvRate
          else if ! fresh.all lat then rsLateral
          else 0
        { t := f64add s.t tt, x := x, y := y, psi := psAt s.psi s.kap sg u, kap := kap1,
          v := speedAt s.v s.a j tt, a := a1, d := d, poses := ps,
          segs := s.segs ++ [{ psi := s.psi, kap := s.kap, sg := sg, u := u, d := d }], reason := reason }

/-- Decodes a sound `FORM` 0 record against an envelope (R364, R365); poses come last first. -/
def decodeTraj (e : List Byte) (b : List Byte) : Dec :=
  let t0 : Int := field b 8 8
  let v0 := trajF b 40
  let p0 : Pose :=
    { ns := t0, x := field b 16 8, y := field b 24 8, psi := trajF b 32, v := f64max f64zero v0, kap := trajF b 36,
      prim := 0, u := f64zero }
  let s0 : Dec :=
    { t := f64zero, x := p0.x, y := p0.y, psi := p0.psi, kap := p0.kap, v := v0, a := trajF b 44,
      d := bit (field b 1 1) 0, poses := [p0], segs := [],
      reason := if f64lt v0 (f64neg (envF e 32)) then rsSpeed else 0 }
  let s := (List.range (trajN b)).foldl (fun s i => decodePrim e t0 i b s) s0
  if s.reason = 0 ∧ f64lt f64twelve s.t then { s with reason := rsHorizon } else s

/-! The brake profile (R376). -/

/-- Where the profile is on the path: position, the path in force (no length: beyond the path), its index and the
arc length reached on it. -/
structure BrakeAt where
  x : Nat
  y : Nat
  seg : Seg
  open_ : Bool
  idx : Nat
  u : Nat
  sgMax : Nat
  deriving DecidableEq, Repr

/-- Travels `step` metres on along the path, crossing at most `fuel` path ends. -/
def brakeMove (segs : List Seg) (d : Bool) : Nat → Nat → BrakeAt → BrakeAt
  | 0, _, b => b
  | k + 1, step, b =>
    if ! f64lt f64zero step then b
    else
      let room := if b.open_ then step else f64max f64zero (f64sub (f64abs b.seg.u) (f64abs b.u))
      let take := f64min step room
      let nu := f64add b.u (if d then f64neg take else take)
      let (x, y) := simpson b.x b.y b.seg.psi b.seg.kap b.seg.sg b.u nu
      let left := f64sub step take
      let b := { b with x := x, y := y, u := nu }
      if ! f64lt f64zero left then b
      else
        match segs[b.idx + 1]? with
        | some s =>
          if s.d = d then
            brakeMove segs d k left { b with seg := s, idx := b.idx + 1, u := f64zero, sgMax := f64max b.sgMax (f64abs s.sg) }
          else
            brakeMove segs d k left
              { b with seg := { psi := psAt b.seg.psi b.seg.kap b.seg.sg b.u, kap := f64add b.seg.kap (f64mul b.seg.sg b.u),
                                sg := f64zero, u := f64zero, d := d }, open_ := true, u := f64zero }
        | none =>
          brakeMove segs d k left
            { b with seg := { psi := psAt b.seg.psi b.seg.kap b.seg.sg b.u, kap := f64add b.seg.kap (f64mul b.seg.sg b.u),
                              sg := f64zero, u := f64zero, d := d }, open_ := true, u := f64zero }

/-- The brake profile from a decoded committed trajectory for the slot that starts at `slot` ns: poses in order, or
the reason of a failed check (R376; log entry 32). -/
def brakePoses (e : List Byte) (dir0 : Bool) (dc : Dec) (slot : Int) : Except Nat (List Pose) :=
  match (dc.poses.find? fun p => decide (p.ns ≤ slot)).or dc.poses.getLast? with
  | none => .error rsFormat
  | some p =>
    let start : Seg := { psi := p.psi, kap := p.kap, sg := f64zero, u := f64zero, d := dir0 }
    let seg := dc.segs.getD p.prim start
    let d := seg.d
    let dm := envF e 12
    let tau := f64div p.v dm
    let n := if f64lt f64zero p.v then primSteps tau p.v else 0
    if n + 1 > 4608 then .error rsPoses
    else
      let b0 : BrakeAt :=
        { x := p.x, y := p.y, seg := seg, open_ := dc.segs.isEmpty, idx := p.prim, u := p.u, sgMax := f64abs seg.sg }
      let q0 : Pose := { p with ns := slot }
      let (_, b, ps) := (List.range n).foldl (fun (a : Nat × BrakeAt × List Pose) (k : Nat) =>
        let (done, b, ps) := a
        let t := f64div (f64mul (f64int ((k : Int) + 1)) tau) (f64int n)
        let dist := f64sub (f64mul p.v t) (f64div (f64mul (f64mul dm t) t) f64two)
        let b := brakeMove dc.segs d (dc.segs.length + 2) (f64sub dist done) b
        let q : Pose :=
          { ns := slot + f64rne (f64mul t f64giga), x := b.x, y := b.y, psi := psAt b.seg.psi b.seg.kap b.seg.sg b.u,
            v := f64max f64zero (f64sub p.v (f64mul dm t)), kap := f64add b.seg.kap (f64mul b.seg.sg b.u), prim := b.idx,
            u := b.u }
        (dist, b, q :: ps)) (f64zero, b0, [q0])
      if ! f64le p.v (if d then envF e 4 else envF e 0) then .error rsSpeed
      else if ! ps.all (fun q => f64le (f64abs q.kap) (envF e 20)) then .error rsCurvature
      else if ! f64le (f64mul b.sgMax p.v) (envF e 24) then .error rsCurvRate
      else if ! ps.all (fun q => f64le (f64mul (f64mul q.v q.v) (f64abs q.kap)) (envF e 28)) then .error rsLateral
      else .ok ps.reverse

/-! The shaper (R366, R367). -/

/-- The result of 60 bisection steps on [0, `hi`] for the largest value that satisfies `p`. -/
def bisect (p : Nat → Bool) (hi : Nat) : Nat :=
  ((List.range 60).foldl (fun (a : Nat × Nat) _ =>
    let m := f64div (f64add a.1 a.2) f64two
    if p m then (m, a.2) else (a.1, m)) (f64zero, hi)).1

/-- R(v1, v2, A): the distance of a ramp (R367). -/
def rampDist (jm v1 v2 a : Nat) : Nat :=
  let dv := f64abs (f64sub v2 v1)
  if f64le (f64div (f64mul a a) jm) dv then
    f64mul (f64div (f64add v1 v2) f64two) (f64add (f64div dv a) (f64div a jm))
  else f64mul (f64add v1 v2) (f64sqrt (f64div dv jm))

/-- The phases of a ramp: duration and jerk. -/
def rampPhases (jm v1 v2 a : Nat) : List (Nat × Nat) :=
  let dv := f64abs (f64sub v2 v1)
  let j := if f64le v1 v2 then jm else f64neg jm
  if f64le (f64div (f64mul a a) jm) dv then
    [(f64div a jm, j), (f64sub (f64div dv a) (f64div a jm), f64zero), (f64div a jm, f64neg j)]
  else [(f64sqrt (f64div dv jm), j), (f64sqrt (f64div dv jm), f64neg j)]

/-- A piece of the path (R366): its length, its speed limit, and the sharpnesses of its halves. -/
structure Piece where
  len : Nat
  lim : Nat
  sg : Nat
  corner : Bool
  deriving DecidableEq, Repr

/-- The end of a clothoid of sharpness `sg` and length `l` from the origin, in steps of at most 0.1 m. -/
def clothoidEnd (sg l : Nat) : Nat × Nat :=
  let n := (f64ceil (f64div l f64c1)).toNat
  let hh := f64div l (f64int n)
  ((List.range n).foldl (fun (a : Nat × Nat × Nat) (k : Nat) =>
    let u := f64mul (f64int ((k : Int) + 1)) hh
    let (x, y) := simpson a.1 a.2.1 f64zero f64zero sg a.2.2 u
    (x, y, u)) (f64zero, f64zero, f64zero)) |> fun r => (r.1, r.2.1)

/-- An angle wrapped to (−π, π]. -/
def wrapPi (a : Nat) : Nat :=
  let two := f64mul f64two f64pi
  if f64lt f64pi a then f64sub a two else if f64le a (f64neg f64pi) then f64add a two else a

/-- The pieces of the path of a `FORM` 1 record, or the reason that it fails (R366). -/
def shapePieces (e b : List Byte) : Except Nat (List Piece) :=
  let n := trajN b
  let px (i : Nat) : Nat := if i = 0 then field b 16 8 else f64add (field b 16 8) (trajF b (64 + 16 * (i - 1)))
  let py (i : Nat) : Nat := if i = 0 then field b 24 8 else f64add (field b 24 8) (trajF b (68 + 16 * (i - 1)))
  let vMax := envF e 0
  let cap (i : Nat) : Nat :=
    let c := trajF b (72 + 16 * (i - 1))
    if (f64v c).isZero then vMax else f64min c vMax
  let dx (i : Nat) : Nat := f64sub (px i) (px (i - 1))
  let dy (i : Nat) : Nat := f64sub (py i) (py (i - 1))
  let dir (i : Nat) : Nat := f64atan2 (dy i) (dx i)
  let leg (i : Nat) : Nat := f64sqrt (f64add (f64mul (dx i) (dx i)) (f64mul (dy i) (dy i)))
  let kMax := envF e 20
  let corner (i : Nat) : Except Nat (Nat × Piece) :=
    let d := wrapPi (f64sub (dir (i + 1)) (dir i))
    let ad := f64abs d
    let vc := f64min (cap i) (cap (i + 1))
    if ! f64le ad (f64div (f64mul (f64int 3) f64pi) f64four) then .error rsGeometry
    else if (f64v d).isZero then .ok (f64zero, { len := f64zero, lim := vc, sg := f64zero, corner := true })
    else
      let sg0 := f64div (envF e 24) vc
      let k2 := f64mul kMax kMax
      let sg := if f64lt k2 (f64mul sg0 ad) then f64div k2 ad else sg0
      let l := f64sqrt (f64div ad sg)
      let (x, y) := clothoidEnd sg l
      let t := f64add x (f64mul y (f64tan (f64div ad f64two)))
      let u := f64min vc (f64sqrt (f64div (envF e 28) (f64mul sg l)))
      .ok (t, { len := f64mul f64two l, lim := u, sg := if f64lt d f64zero then f64neg sg else sg, corner := true })
  if ! ((f64v (trajF b 36)).isZero && (f64v (trajF b 44)).isZero && ! bit (field b 1 1) 0) then .error rsFormat
  else if ! f64le (f64abs (wrapPi (f64sub (dir 1) (trajF b 32)))) f64c01 then .error rsHeading
  else
    match (upto 1 (n - 1)).mapM corner with
    | .error r => .error r
    | .ok cs =>
      let t (i : Nat) : Nat := if i = 0 then f64zero else (cs.map (·.1)).getD (i - 1) f64zero
      let len (i : Nat) : Nat := f64sub (f64sub (leg i) (t (i - 1))) (t i)
      if ! (upto 1 n).all fun i => f64le f64zero (len i) then .error rsGeometry
      else .ok ((upto 1 n).flatMap fun i =>
        ({ len := len i, lim := cap i, sg := f64zero, corner := false } : Piece) ::
          (match cs[i - 1]? with | some c => [c.2] | none => []))

/-- The entry speeds of the pieces from the last back to the first (R367, step 2). -/
def shapeBack (e : List Byte) : List Piece → Nat → List Nat × Nat
  | [], _ => ([], f64zero)
  | p :: ps, prev =>
    let (es, exit) := shapeBack e ps p.lim
    let w := bisect (fun w => f64le (rampDist (envF e 16) w exit (envF e 12)) p.len) (envF e 0)
    let entry := f64min (f64min p.lim prev) w
    (entry :: es, entry)

/-- The exit speeds forward (R367, step 4): from the entry of a piece and the entries that follow it. -/
def shapeFwd (e : List Byte) : List Piece → Nat → List Nat → List (Nat × Nat)
  | [], _, _ => []
  | p :: ps, entry, nexts =>
    let exit0 := nexts.headD f64zero
    let w := bisect (fun w => f64le (rampDist (envF e 16) entry w (envF e 8)) p.len) (envF e 0)
    let exit := if f64lt w exit0 then w else exit0
    (entry, exit) :: shapeFwd e ps exit nexts.tail

/-- The phases of a piece (R367, step 5): ramp, cruise, ramp. -/
def piecePhases (e : List Byte) (p : Piece) (v1 v2 : Nat) : List (Nat × Nat) :=
  let jm := envF e 16
  let lim (a b : Nat) : Nat := if f64le a b then envF e 8 else envF e 12
  let dist (w : Nat) : Nat := f64add (rampDist jm v1 w (lim v1 w)) (rampDist jm w v2 (lim w v2))
  let least := f64max v1 v2
  let w := f64max least (bisect (fun w => f64le w least || (f64le w p.lim && f64le (dist w) p.len)) (envF e 0))
  let rest := f64sub p.len (dist w)
  rampPhases jm v1 w (lim v1 w) ++
    (if f64lt f64zero rest && f64lt f64zero w then [(f64div rest w, f64zero)] else []) ++
    rampPhases jm w v2 (lim w v2)

/-- Splits the phases of a corner where half its length has been run, by bisection on s(τ): phases before and
after. -/
def splitPhases : List (Nat × Nat) → Nat → Nat → Nat → List (Nat × Nat) × List (Nat × Nat)
  | [], _, _, _ => ([], [])
  | (t, j) :: ps, v, a, left =>
    let s := distAt v a j t
    if f64le s left then
      let (x, y) := splitPhases ps (speedAt v a j t) (f64add a (f64mul j t)) (f64sub left s)
      ((t, j) :: x, y)
    else
      let tau := bisect (fun m => f64le (distAt v a j m) left) t
      ([(tau, j)], (f64sub t tau, j) :: ps)

/-- The primitives of a piece: duration, jerk, sharpness. -/
def piecePrims (e : List Byte) (p : Piece) (v1 v2 : Nat) : List (Nat × Nat × Nat) :=
  let ph := piecePhases e p v1 v2
  if p.corner then
    let (x, y) := splitPhases ph v1 f64zero (f64div p.len f64two)
    (x.map fun q => (q.1, q.2, p.sg)) ++ (y.map fun q => (q.1, q.2, f64neg p.sg))
  else ph.map fun q => (q.1, q.2, f64zero)

/-- Cuts a run of primitives at 12 s. -/
def cutPrims : List (Nat × Nat × Nat) → Nat → List (Nat × Nat × Nat)
  | [], _ => []
  | (t, j, s) :: ps, at_ =>
    let next := f64add at_ t
    if f64le next f64twelve then (t, j, s) :: cutPrims ps next
    else if f64lt at_ f64twelve then [(f64sub f64twelve at_, j, s)] else []

/-- The shaper (R366, R367): the `FORM` 0 record of a `FORM` 1 record, or the reason that it fails. -/
def shape (e b : List Byte) : Except Nat (List Byte) :=
  match shapePieces e b with
  | .error r => .error r
  | .ok ps =>
    let (es, entry) := shapeBack e ps ((ps.map (·.lim)).headD f64zero)
    let v0 := trajF b 40
    if f64lt entry v0 then .error rsSpeed
    else
      let speeds := shapeFwd e ps v0 es.tail
      let prims := (List.range ps.length).flatMap fun i =>
        match ps[i]?, speeds[i]? with
        | some p, some v => piecePrims e p v.1 v.2
        | _, _ => []
      let prims := (cutPrims prims f64zero).filter fun q => Val.lt .zero (f32v (f64to32 q.1))
      if prims.length > 256 then .error rsPoses
      else if prims.isEmpty then .error rsGeometry
      else
        let hdr := putField (putField (fit 64 b) 0 1 0) 2 2 prims.length
        .ok (hdr ++ prims.flatMap fun q =>
          leBytes 4 (f64to32 q.1) ++ leBytes 4 (f64to32 q.2.1) ++ leBytes 4 (f64to32 q.2.2) ++ zeros 4)

end Sys2Proof.Machine
end

