-- ==== Sys2Proof/Machine/Traverse.lean ====
section
/-! DEFINITION. The Traverse engines: queries, verdicts and their stages (R368 to R378). -/

namespace Sys2Proof.Machine

open Sys2Proof

/-! The two Datums. -/

/-- Datum A (0) or B (1). -/
def Hw.datum (h : Hw) (d : Nat) : Datum := if d = 0 then h.datA else h.datB

/-- Changes a Datum. -/
def Hw.modDatum (h : Hw) (d : Nat) (f : Datum → Datum) : Hw :=
  if d = 0 then { h with datA := f h.datA } else { h with datB := f h.datB }

/-- Whether a Datum runs. -/
def Hw.datumOn (h : Hw) (d : Nat) : Bool := ! (h.datum d).stopped && ! (h.datum d).down

/-- The Datums that run. -/
def Hw.datumsOn (h : Hw) : List Nat := [0, 1].filter h.datumOn

/-- Module time as a Datum keeps it from its own oscillator (R30). -/
def Hw.datNow (h : Hw) (d : Nat) : Nat := (h.datum d).time

/-- Module time as the Datums that run act on it. -/
def Hw.trvNow (h : Hw) : Nat := match h.datumsOn with | d :: _ => h.datNow d | [] => h.now

/-- Whether a record can reach both Datums (R26, R359): both run, and the hub's monitor link of each is up. -/
def Hw.deliverable (h : Hw) : Bool :=
  [0, 1].all fun d => h.datumOn d && ! (h.datum d).linkLost.contains 4

/-- Whether a Datum holds a valid dust sheet (R376); a restart suspends the limit of two coats (R401). -/
def Hw.dustValid (h : Hw) (d : Nat) : Bool :=
  let x := h.datum d
  x.dust.isSome && x.dustClear && (decide (x.dustCoats ≤ 2) || h.trv.restart.isSome)

/-- The registers of a Datum's engine follow its state (R378). -/
def Hw.showTrv (h : Hw) (d : Nat) : Hw :=
  let x := h.datum d
  let h := (h.put (F.TRV_STATUS_ENVELOPE.datum d) (b2n x.env.isSome)).put (F.TRV_STATUS_SURVEY.datum d) (b2n x.survey.isSome)
  let h := (h.put (F.TRV_STATUS_COMMITTED.datum d) (b2n x.committed.isSome)).put (F.TRV_STATUS_DUST_VALID.datum d) (b2n (h.dustValid d))
  let h := (h.put (F.TRV_STATUS_PENDING.datum d) (b2n x.pendingDust.isSome)).put (F.TRV_STATUS_BRAKE.datum d) (b2n x.brake)
  let h := (h.put (F.TRV_COMMITTED_TRAJ_SEQ.datum d) ((x.committed.map (·.seq)).getD 0)).put
    (F.TRV_COMMITTED_PID.datum d) ((x.committed.map (·.pid)).getD 0)
  let h := (h.put (F.TRV_DUST_TRAJ_SEQ.datum d) ((x.dust.map (·.seq)).getD 0)).put
    (F.TRV_DUST_PID.datum d) ((x.dust.map (·.pid)).getD 0)
  let h := (h.put (F.TRV_DUST_COATS.datum d) (if x.dust.isSome then min x.dustCoats 3 else 0)).put
    (F.TRV_QUEUE_QUEUED.datum d) x.queue.length
  match x.survey with
  | some s =>
    let h := (h.put (F.TRV_SURVEY_SURVEY_SEQ.datum d) s.seq).put (F.TRV_SURVEY_FRAME_ID.datum d) s.frame
    h.put (F.TRV_SURVEY_AT_T_SURVEY.datum d) s.tSurvey
  | none =>
    let h := (h.put (F.TRV_SURVEY_SURVEY_SEQ.datum d) 0).put (F.TRV_SURVEY_FRAME_ID.datum d) 0
    h.put (F.TRV_SURVEY_AT_T_SURVEY.datum d) 0

/-- Records a fault in a Datum's `TRV_FAULT0` (R378, R610): 0 update refused, 1 store full, 2 delivery failed, 3
verdict mismatch, 4 store uncorrectable. -/
def Hw.trvFault (h : Hw) (d cause pid : Nat) : Hw :=
  let h := h.put (F.TRV_INT_STATUS_FAULT.datum d) 1
  if h.on (F.TRV_FAULT0_VALID.datum d) then h.put (F.TRV_FAULT0_MORE.datum d) 1
  else
    let h := (h.put (F.TRV_FAULT0_CAUSE.datum d) cause).put (F.TRV_FAULT0_PID.datum d) pid
    (h.put (F.TRV_FAULT0_AT.datum d) (h.datNow d % 2 ^ 32)).put (F.TRV_FAULT0_VALID.datum d) 1

/-- A delivery that reaches not both Datums (R26, R359): a detected fault, and `FAIL_STAINED`. -/
def Hw.deliveryFailed (h : Hw) (pid q num : Nat) : Hw :=
  let h := h.datumsOn.foldl (fun h d => h.trvFault d 2 pid) h
  (h.detect 0x0D none pid).finishAt pid q num 0x3001 0 0xFFFF_FFFF {}

/-! Queries (R368). -/

/-- What the queries of a trajectory have found. -/
structure Query where
  n : Nat
  clear : Int
  margin : Int
  tConf : Option Int
  poseMin : Nat
  sphere : Nat
  outside : Bool
  unknown : Bool
  deriving DecidableEq, Repr

/-- The value of the distance cell that holds a point, with OUTSIDE and UNKNOWN. -/
def cellAt (sv : Option Survey) (x y z : Nat) : Nat × Bool × Bool :=
  match sv with
  | none => (0, true, false)
  | some s =>
    if ! (f64finite x && f64finite y && f64finite z) then (0, true, false)
    else
      let cell (a : Nat) : Int := ((Val.ofInt 5).mul (f64v a)).floor
      let i := cell x - (64 * s.oxi - 1024)
      let j := cell y - (64 * s.oyi - 1024)
      let k := cell z - 4 * s.ozi
      if 0 ≤ i ∧ i < 2048 ∧ 0 ≤ j ∧ j < 2048 ∧ 0 ≤ k ∧ k < 64 then
        if s.isKnown (i.toNat / 64) (j.toNat / 64) then (s.cell i.toNat j.toNat k.toNat, false, false)
        else (0, false, true)
      else (0, true, false)

/-- clear(k, i) of one sphere at a pose. -/
def sphereClear (e : List Byte) (sv : Option Survey) (z0 : Nat) (p : Pose) (i : Nat) : Int × Bool × Bool :=
  let o := 64 + 16 * i
  let c := f64cos p.psi
  let s := f64sin p.psi
  let ox := envF e o
  let oy := envF e (o + 4)
  let x := f64sub (f64add p.x (f64mul ox c)) (f64mul oy s)
  let y := f64add (f64add p.y (f64mul ox s)) (f64mul oy c)
  let (q, out, unk) := cellAt sv x y (f64add z0 (envF e (o + 8)))
  (25 * (q : Int) - 174 - f64ceil (f64mul f64thousand (envF e (o + 12))), out, unk)

/-- req(k) of a pose. -/
def reqOf (e : List Byte) (p : Pose) : Int := field e 36 4 + f64ceil (f64mul (envF e 40) p.v)

/-- The queries of one pose (`k` its index in the trajectory). -/
def Query.pose (e : List Byte) (sv : Option Survey) (z0 : Nat) (g : Query) (k : Nat) (p : Pose) : Query :=
  let req := reqOf e p
  let g := (List.range (field e 48 1)).foldl (fun (g : Query × Bool) i =>
    let (c, out, unk) := sphereClear e sv z0 p i
    let g' := { g.1 with outside := g.1.outside || out, unknown := g.1.unknown || unk }
    let first := g.2 && g.1.n == 0
    let g' := if first || decide (c < g'.clear) then { g' with clear := c, poseMin := k, sphere := i } else g'
    let g' := if first || decide (c - req < g'.margin) then { g' with margin := c - req } else g'
    let g' := if c - req < 0 ∧ g'.tConf.isNone then { g' with tConf := some p.ns } else g'
    (g', false)) (g, true)
  { g.1 with n := g.1.n + 1 }

/-- The queries of the poses from the slot's start on. -/
def runQueries (e : List Byte) (sv : Option Survey) (z0 : Nat) (ps : List Pose) (slot : Int) : Query :=
  (List.range ps.length).foldl (fun g k =>
    match ps[k]? with
    | some p => if slot ≤ p.ns then Query.pose e sv z0 g k p else g
    | none => g)
    { n := 0, clear := 0, margin := 0, tConf := none, poseMin := 0, sphere := 0, outside := false, unknown := false }

/-! Verdicts (R369, R373). -/

/-- The poses that a slot checks, in order, with the reason of the first check that fails. -/
def posesOf (e : List Byte) (sv : Option Survey) (kind : Nat) (t : Option Traj) (slot : Int) : Except Nat (List Pose) :=
  match t with
  | none => .error rsFormat
  | some t =>
    if ! trajForm t.bytes then .error rsFormat
    else if sv.any fun s => s.frame ≠ field t.bytes 4 4 then .error rsFrame
    else
      let d := decodeTraj e t.bytes
      if d.reason ≠ 0 then .error d.reason
      else if kind = 3 then brakePoses e (bit (field t.bytes 1 1) 0) d slot
      else if kind = 1 ∧ ! f64le d.v (envF e 32) then .error rsNoStop
      else .ok d.poses.reverse

/-- A verdict's outcome, reason, queries, and whether a pose was skipped. -/
structure Finding where
  outcome : Nat
  reason : Nat
  q : Option Query
  skipped : Bool
  deriving DecidableEq, Repr

/-- Judges a slot (R373): `t` is the trajectory checked, for the brake profile the committed one. -/
def judgeSlot (env : Option (List Byte)) (sv : Option Survey) (kind stroke age : Nat) (t : Option Traj) : Finding :=
  if t.isNone ∧ kind ≠ 3 then { outcome := 5, reason := 0, q := none, skipped := false }
  else
    match env with
    | none => { outcome := 2, reason := rsNoEnvelope, q := none, skipped := false }
    | some e =>
      let slot : Int := stroke * 1000
      match posesOf e sv kind t slot with
      | .error r => { outcome := 2, reason := r, q := none, skipped := false }
      | .ok ps =>
        let skipped := ps.any fun p => decide (p.ns < slot)
        let z0 := (t.map fun t => trajF t.bytes 48).getD f64zero
        let q := runQueries e sv z0 ps slot
        if q.n = 0 then { outcome := 4, reason := 0, q := none, skipped := skipped }
        else
          let o := if sv.isNone ∨ field e 44 4 < age then 3 else if q.margin < 0 then 1 else 0
          { outcome := o, reason := 0, q := some q, skipped := skipped }

/-- The verdict record (R373). -/
def verdictRecord (d kind stroke age seqNo : Nat) (noDust : Bool) (t : Option Traj) (f : Finding) : List Byte :=
  let num (v : Int) : Nat := unsx 32 v
  let mm (v : Option Int) : Nat := match v with | some x => num x | none => 0x8000_0000
  let flags := b2n noDust + 2 * b2n (t.any (·.shaped)) + 4 * b2n f.skipped +
    8 * b2n (f.q.any (·.outside)) + 16 * b2n (f.q.any (·.unknown))
  let own := if kind = 3 then none else t
  let b := leBytes 8 stroke ++ leBytes 1 kind ++ leBytes 1 f.outcome ++ leBytes 1 f.reason ++ leBytes 1 d ++
    leBytes 1 flags ++ leBytes 1 ((own.map (·.pid)).getD 0) ++ leBytes 2 ((f.q.map (·.sphere)).getD 0) ++
    leBytes 6 ((own.map (·.seq)).getD 0) ++ zeros 2 ++ leBytes 4 (mm (f.q.map (·.clear))) ++
    leBytes 4 (mm (f.q.map (·.margin))) ++
    leBytes 8 (match f.q.bind (·.tConf) with | some x => unsx 64 x | none => 2 ^ 64 - 1) ++
    leBytes 4 ((f.q.map (·.poseMin)).getD 0) ++ leBytes 4 ((f.q.map (·.n)).getD 0) ++ leBytes 4 seqNo ++
    leBytes 4 age ++ leBytes 4 ((own.map fun t => field t.bytes 52 4).getD 0) ++ zeros 4
  putField b 60 4 (crc32c b)

/-- `SURVEY_AGE` in µs, saturating (R373). -/
def surveyAge (sv : Option Survey) (stroke : Nat) : Nat :=
  let at_ := (sv.map (·.tSurvey)).getD 0
  min ((stroke * 1000 - at_) / 1000) 0xFFFF_FFFF

/-- The envelope in force at the start of the present stroke (R362). -/
def Datum.slotEnv (x : Datum) (now : Nat) : Option (List Byte) := if x.envAt < now then x.env else x.envPrev

/-- The verdict of a slot of the present stroke. -/
def Hw.slotVerdict (h : Hw) (d kind : Nat) (t : Option Traj) (ofPending : Bool) (c : Option Cand) : Verdict :=
  let x := h.datum d
  let age := surveyAge x.survey (h.datNow d)
  let f := judgeSlot (x.slotEnv (h.datNow d)) x.survey kind (h.datNow d) age t
  { stroke := h.datNow d, kind := kind, outcome := f.outcome, reason := f.reason,
    margin := match f.q with | some q => unsx 32 q.margin | none => 0x8000_0000,
    bytes := [], ofPending := ofPending, cand := c, complete := false, compared := false } |> fun (v : Verdict) =>
  { v with bytes := verdictRecord d kind (h.datNow d) age ((x.survey.map (·.seq)).getD 0) (! h.dustValid d) t f }

end Sys2Proof.Machine
end

