-- ==== Sys2Proof/Machine/TravCmds.lean ====
section
/-! DEFINITION. The commands and events of the Traverse engines: survey updates, the envelope, trajectories,
candidates, and the stages of the verdicts (R359 to R377, R601). -/

namespace Sys2Proof.Machine

open Sys2Proof

/-! Survey updates (R359 to R361). -/

/-- Whether the hub has stopped accepting `TRV_*` commands (R400). -/
def trvRefused (h : Hw) : Option (Nat × Option Nat) := if h.trv.refuses then some (0, none) else none

/-- The checks of `TRV_SURVEY_UPDATE` (R359). -/
def specTrvSurveyUpdate : OpSpec :=
  { opc := 0x80, issuer := .feeder
    busy := fun h _ => (trvRefused h).or
      (if h.trv.lastSurvey.any fun a => decide (h.now < a + 10000) then some (0, none) else none)
    onAccept := fun h c => { h with trv := { h.trv with lastSurvey := some c.acceptAt } } }

/-- The command processor reads the record (R359, step 1). -/
def trvSurveyUpdate (h : Hw) (c : Cmd) : Hw :=
  h.withRecord c (c.f 24 6) (min (c.f 32 4) 295104) fun h bs =>
    { h with trv := { h.trv with updates := h.trv.updates ++
        [{ pid := c.pid, queue := c.queue, num := c.num, acceptAt := c.acceptAt, bytes := bs, delivered := false }] } }

/-- `TRV_SURVEY_UPDATE` (R359). -/
def execTrvSurveyUpdate (q : QRef) (p : Packet) (s : State) : Host.Outcome State Fault Refusal :=
  s.next fun h => h.issue specTrvSurveyUpdate q p trvSurveyUpdate

/-- Takes an update out of the list. -/
def Hw.dropUpdate (h : Hw) (u : SurveyUpd) : Hw :=
  { h with trv := { h.trv with updates := h.trv.updates.filter fun x =>
      ! (x.pid == u.pid && x.queue == u.queue && x.num == u.num) } }

/-- An update that did not reach both Datums ends (R359, step 2). -/
def Hw.failUpdate (h : Hw) (u : SurveyUpd) : Hw := (h.dropUpdate u).deliveryFailed u.pid u.queue u.num

/-- Whether the time in which an update reaches both Datums has passed (R359, step 2). -/
def SurveyUpd.late (u : SurveyUpd) (now : Nat) : Bool := ! u.delivered && decide (u.acceptAt + 1000 < now)

/-- `SURVEY_DELIVERY` (R359, steps 2 and 3): the oldest undelivered update reaches both Datums, or fails. -/
def execSurveyDelivery (ok : Bool) (s : State) : Host.Outcome State Fault Refusal :=
  s.next fun h =>
    match h.trv.updates.find? fun u => ! u.delivered with
    | none => h
    | some u =>
      if ok && h.deliverable && ! u.late h.trvNow then
        { h with trv := { h.trv with updates := h.trv.updates.map fun x => if x = u then { x with delivered := true } else x } }
      else h.failUpdate u

/-- What a Datum makes of an update (R359): 0 applied, 1 refused, 2 without room. -/
def Datum.takeUpdate (x : Datum) (b : List Byte) : Nat × Datum :=
  if (updFault b).isSome then (1, x)
  else
    let s := applyUpdate x.survey b
    if s.fits then (0, { x with survey := some { s with seq := (x.surveys + 1) % 2 ^ 32 }, surveys := x.surveys + 1 })
    else (2, x)

/-- Both Datums apply a delivered update, and its command completes (R359, step 4; R361). -/
def Hw.applySurvey (h : Hw) (u : SurveyUpd) : Hw :=
  if ! u.delivered then h.failUpdate u
  else
    let r := (match h.datumsOn with | d :: _ => ((h.datum d).takeUpdate u.bytes).1 | [] => 0)
    let h := h.datumsOn.foldl (fun h d =>
      let (r, x) := (h.datum d).takeUpdate u.bytes
      let h := h.modDatum d fun _ => x
      let h := if r = 0 then
          match x.survey with
          | some s => (h.put (F.TRV_STORE_SLABS.datum d) s.slabs).put (F.TRV_STORE_BRICKS.datum d) s.distBricks
          | none => h
        else h.trvFault d (r - 1) u.pid
      h.showTrv d) h
    let idx := if r = 1 then (updFault u.bytes).getD 0 else 0
    (h.dropUpdate u).finishAt u.pid u.queue u.num 0 (r + idx * 256) 0 {}

/-- The updates that are due at the present stroke boundary: 3,000 strokes after their acceptance, or late for their
delivery. -/
def Hw.applySurveys (h : Hw) : Hw :=
  (h.trv.updates.filter fun u => decide (u.acceptAt + 3000 ≤ h.trvNow) || u.late h.trvNow).foldl Hw.applySurvey h

/-- `SURVEY_APPLY` (R359, R361). -/
def execSurveyApply (s : State) : Host.Outcome State Fault Refusal := s.next Hw.applySurveys

/-! The envelope (R362). -/

/-- The checks of `TRV_ENVELOPE`. -/
def specTrvEnvelope : OpSpec := { opc := 0x84, issuer := .owner, modes := .notDrive, busy := fun h _ => trvRefused h }

/-- The effect of `TRV_ENVELOPE` (R362). -/
def trvEnvelope (h : Hw) (c : Cmd) : Hw :=
  h.withRecord c (c.f 24 6) 320 fun h bs =>
    if ! h.deliverable then h.deliveryFailed c.pid c.queue c.num
    else
      match envFault bs fun p => p == 0 || (h.exists? p && h.clsOf p == 0) with
      | some off => h.done c (1 + off)
      | none =>
        let h := h.datumsOn.foldl (fun h d => (h.modDatum d fun x =>
          { x with envPrev := x.slotEnv (h.datNow d), env := some bs, envAt := h.datNow d }).showTrv d) h
        h.done c 0

/-- `TRV_ENVELOPE` (R362). -/
def execTrvEnvelope (q : QRef) (p : Packet) (s : State) : Host.Outcome State Fault Refusal :=
  s.next fun h => h.issue specTrvEnvelope q p trvEnvelope

/-! Committed trajectories and dust sheets (R375). -/

/-- Reads a trajectory record as 64 + 16 × `N` bytes (R363). -/
def Hw.withTraj (h : Hw) (c : Cmd) (k : Hw → List Byte → Hw) : Hw :=
  h.withRecord c (c.f 24 6) 64 fun h hdr => h.withRecord c (c.f 24 6) (trajBytes hdr) k

/-- Whether a record's `FORM`, where it can be read, is 0 (R363). -/
def trajFormZero (h : Hw) (c : Cmd) : Bool :=
  match (h.cmdRead c.pid (c.f 24 6) 64).1 with
  | .ok (bs, false) => field bs 0 1 == 0
  | _ => true

/-- The checks of `TRV_COMMIT`. -/
def specTrvCommit : OpSpec :=
  { opc := 0x82, issuer := .planner, fields := trajFormZero, busy := fun h _ => trvRefused h }

/-- Whether a dust sheet is pending or ordered, or one was accepted within 1,000 strokes (R375). -/
def dustBusy (h : Hw) (_ : Cmd) : Option (Nat × Option Nat) :=
  if h.trv.refuses || [0, 1].any (fun d => h.datumOn d && (h.datum d).pendingDust.isSome) ||
     h.trv.orders.any (·.dust) || h.trv.lastDust.any (fun a => decide (h.now < a + 1000)) then some (0, none) else none

/-- The checks of `TRV_DUST_SHEET`. -/
def specTrvDustSheet : OpSpec :=
  { opc := 0x83, issuer := .planner, fields := trajFormZero, busy := dustBusy
    onAccept := fun h c => { h with trv := { h.trv with lastDust := some c.acceptAt } } }

/-- A record is delivered to both Datums and its adoption ordered for the next stroke boundary (R375). -/
def Hw.orderTraj (h : Hw) (dust : Bool) (c : Cmd) : Hw :=
  h.withTraj c fun h bs =>
    if h.deliverable then
      { h with trv := { h.trv with orders := h.trv.orders ++
          [{ dust := dust, traj := { pid := c.pid, seq := c.seq, bytes := bs, shaped := false }, queue := c.queue, num := c.num,
             at_ := h.now }] } }
    else h.deliveryFailed c.pid c.queue c.num

/-- `TRV_COMMIT` (R375). -/
def execTrvCommit (q : QRef) (p : Packet) (s : State) : Host.Outcome State Fault Refusal :=
  s.next fun h => h.issue specTrvCommit q p fun h c => h.orderTraj false c

/-- `TRV_DUST_SHEET` (R375). -/
def execTrvDustSheet (q : QRef) (p : Packet) (s : State) : Host.Outcome State Fault Refusal :=
  s.next fun h => h.issue specTrvDustSheet q p fun h c => h.orderTraj true c

/-- The multicast frame of a backbone port: destination, EtherType 0x88B5, data (R398). -/
def bbFrame (h : Hw) (data : List Byte) : List Byte := (leBytes 6 h.cfg.statusMac).reverse ++ [0x88, 0xB5] ++ data

/-- A frame of a backbone port: it leaves and is counted while the link is up, and is counted as dropped else (R622). -/
def Hw.sendBbOn (h : Hw) (k : Nat) (f : List Byte) : Hw :=
  if h.get (if k = 0 then F.BB_STATUS_LINK0 else F.BB_STATUS_LINK1) = 2 then
    { h.addSat (F.BB_COUNT_TX.nth k) 1 with outs := h.outs ++ [.ethernet k f] }
  else h.addSat F.BB_ERR_TX_DROP 1

/-- The hub sends data on BB0 and BB1 as identical copies (R398), while their ports have their supply. -/
def Hw.sendBb (h : Hw) (data : List Byte) : Hw :=
  if h.blockOn 0x728 then (h.sendBbOn 0 (bbFrame h data)).sendBbOn 1 (bbFrame h data) else h

/-- The hub sends a trajectory record in fragments of at most 1,024 bytes (R398). -/
def Hw.sendTraj (h : Hw) (dust : Bool) (t : Traj) : Hw :=
  let n := cdiv t.bytes.length 1024
  (List.range n).foldl (fun h i =>
    h.sendBb (leBytes 4 t.seq ++ leBytes 1 (b2n dust) ++ leBytes 1 i ++ leBytes 1 n ++ zeros 9 ++
      (t.bytes.drop (1024 * i)).take 1024)) h

/-- An ordered trajectory is adopted by the Datums that run, and its command completes (R375). -/
def Hw.adoptTraj (h : Hw) (o : TrajOrder) : Hw :=
  let h := h.datumsOn.foldl (fun h d => (h.modDatum d fun x =>
    if o.dust then { x with pendingDust := some o.traj } else { x with committed := some o.traj }).showTrv d) h
  let h := { h with trv := { h.trv with
      orders := h.trv.orders.filter fun x => ! (x.traj.pid == o.traj.pid && x.queue == o.queue && x.num == o.num),
      sentDust := if o.dust then some o.traj else h.trv.sentDust,
      sentCommit := if o.dust then h.trv.sentCommit else some o.traj } }
  (if o.dust then h else h.sendTraj false o.traj).finishAt o.traj.pid o.queue o.num 0 0 0 {}

/-- The orders of earlier strokes take effect, in their order. -/
def Hw.adoptTrajs (h : Hw) : Hw := (h.trv.orders.filter fun o => decide (o.at_ < h.trvNow)).foldl Hw.adoptTraj h

/-- `TRAJECTORY_ADOPTION` (R375). -/
def execTrajectoryAdoption (s : State) : Host.Outcome State Fault Refusal := s.next Hw.adoptTrajs

/-- What takes effect at the present stroke boundary: updates and adoptions (R369, R377). -/
def Hw.trvBoundary (h : Hw) : Hw := h.applySurveys.adoptTrajs

/-! Candidates (R370, R371). -/

/-- The partition's share in the active bank. -/
def Hw.trvShare (h : Hw) (pid : Nat) : Nat := ((h.stn.active.rowOf pid).map (·.trvShare)).getD 0

/-- The queue of candidates, as a Datum that runs holds it. -/
def Hw.candQueue (h : Hw) : List Cand := (match h.datumsOn with | d :: _ => (h.datum d).queue | [] => [])

/-- The candidates that the Datums hold: queued, and in their stages. -/
def Hw.candHeld (h : Hw) : Nat :=
  h.candQueue.length +
    (match h.datumsOn with | d :: _ => ((h.datum d).slots.filter fun v => v.cand.isSome).length | [] => 0)

/-- The checks of `TRV_CHECK` (R371). -/
def specTrvCheck : OpSpec :=
  { opc := 0x81, busy := fun h _ => trvRefused h
    res := fun h c =>
      if h.trvShare c.pid == 0 || decide ((h.candQueue.filter fun x => x.pid == c.pid).length ≥ 8) ||
         decide (h.candHeld ≥ 64) then some (0, none) else none }

/-- The effect of `TRV_CHECK` (R371): the record reaches both Datums; a `FORM` 1 record waits for the shaper. -/
def trvCheck (h : Hw) (c : Cmd) : Hw :=
  h.withTraj c fun h bs =>
    if ! h.deliverable then h.deliveryFailed c.pid c.queue c.num
    else
      let dl := c.f 40 4
      let x : Cand :=
        { pid := c.pid, queue := c.queue, num := c.num, seq := c.seq, resVa := c.f 32 6 / 64 * 64,
          dl := if dl = 0 then none else some (c.acceptAt + dl),
          traj := { pid := c.pid, seq := c.seq, bytes := bs, shaped := false }, toShape := field bs 0 1 == 1 }
      h.datumsOn.foldl (fun h d => (h.modDatum d fun y => { y with queue := y.queue ++ [x] }).showTrv d) h

/-- `TRV_CHECK` (R371). -/
def execTrvCheck (q : QRef) (p : Packet) (s : State) : Host.Outcome State Fault Refusal :=
  s.next fun h => h.issue specTrvCheck q p trvCheck

/-- Whether two candidates are the same. -/
def Cand.same (a b : Cand) : Bool := a.pid == b.pid && a.queue == b.queue && a.num == b.num

/-- Takes a candidate out of a Datum's queue. -/
def Hw.dropCand (h : Hw) (d : Nat) (c : Cand) : Hw :=
  (h.modDatum d fun x => { x with queue := x.queue.filter fun y => ! y.same c }).showTrv d

/-- The shaper finishes the oldest waypoint record in one Datum (R366, R371): the candidate joins its queue, or a
failure yields a verdict with no slot. -/
def Hw.shapeIn (h : Hw) (d : Nat) (c : Cand) : Hw :=
  let x := h.datum d
  let made : Except Nat (List Byte) := match x.env with
    | none => .error rsNoEnvelope
    | some e => if trajForm c.traj.bytes then shape e c.traj.bytes else .error rsFormat
  match made with
  | .ok b =>
    let shaped (y : Cand) : Cand :=
      if y.same c = true then { y with toShape := false, traj := { y.traj with bytes := b, shaped := true } } else y
    h.modDatum d fun x => { x with queue := x.queue.map shaped }
  | .error r =>
    let f : Finding := { outcome := 2, reason := r, q := none, skipped := false }
    let rec_ := verdictRecord d 2 (h.datNow d) (surveyAge x.survey (h.datNow d)) ((x.survey.map (·.seq)).getD 0) (! h.dustValid d)
      (some c.traj) f
    let v : Verdict :=
      { stroke := h.datNow d, kind := 2, outcome := 2, reason := r, margin := 0x8000_0000, bytes := rec_, ofPending := false,
        cand := some c, complete := true, compared := false }
    let h := h.modDatum d fun x => { x with slots := x.slots ++ [v] }
    (h.dropCand d c).addWrap (F.TRV_VERDICTS_COUNT.datum d) 1

/-- `SHAPER_COMPLETE` (R366, R371): the oldest record that waits for the shaper. -/
def execShaperComplete (s : State) : Host.Outcome State Fault Refusal :=
  s.next fun h => h.datumsOn.foldl (fun h d =>
    match (h.datum d).queue.find? fun c => c.toShape with
    | some c => h.shapeIn d c
    | none => h) h

/-- Removes candidates from both queues and completes their commands. -/
def Hw.endCands (h : Hw) (p : Cand → Bool) (status detail : Nat) : Hw :=
  let cs := ((h.datA.queue ++ h.datB.queue).filter p)
  let h := cs.foldl (fun h c => h.finishAt c.pid c.queue c.num status 0 detail {}) h
  let cut (x : Datum) : Datum := { x with queue := x.queue.filter fun c => ! p c }
  (({ h with datA := cut h.datA, datB := cut h.datB }).showTrv 0).showTrv 1

/-- `CANDIDATE_DEADLINE` (R371). -/
def execCandidateDeadline (s : State) : Host.Outcome State Fault Refusal :=
  s.next fun h => h.endCands (fun c => c.dl.any fun x => decide (x < h.trvNow)) 0x3004 0

/-- Queued candidates of a partition whose share has become 0, or which is shed, are revoked (R370). -/
def Hw.revokeCands (h : Hw) (pid : Nat) : Hw := h.endCands (fun c => c.pid == pid) 0x4001 (h.clsOf pid)

/-- Queued and running candidates end with a reset of their partition, or of the module when `pid` is none
(R377). -/
def Hw.abortCands (h : Hw) (pid : Option Nat) (detail : Nat) : Hw :=
  let mine (c : Cand) : Bool := pid.all fun p => c.pid == p
  let run := (h.datA.slots ++ h.datB.slots).filterMap fun v => v.cand
  let h := (run.filter mine).foldl (fun h c => h.finishAt c.pid c.queue c.num 0x3008 0 detail {}) h
  let cut (x : Datum) : Datum :=
    { x with slots := x.slots.map fun v => if v.cand.any mine then { v with cand := none } else v }
  ({ h with datA := cut h.datA, datB := cut h.datB }).endCands mine 0x3008 detail

/-! Slots (R369, R370). -/

/-- The candidates of a Datum that may start: shaped, within their deadline, of partitions whose level is above
zero. -/
def Hw.candReady (h : Hw) (d : Nat) : List Cand :=
  (h.datum d).queue.filter fun c => ! c.toShape && ! c.dl.any (fun x => decide (x < h.datNow d)) &&
    decide (0 < SMap.getD 0 h.stn.trvTokens c.pid)

/-- The candidate of the present slot (R370): round-robin in PID order after the last served, and in acceptance
order within a partition. -/
def Hw.candPick (h : Hw) (d : Nat) : Option Cand :=
  let last := (h.datum d).lastPid
  let key (c : Cand) : Nat := ((c.pid + 255 - last) % 256) * 2 ^ 49 + c.seq
  (h.candReady d).foldl (fun (m : Option Cand) c =>
    match m with
    | some x => if key c < key x then some c else m
    | none => some c) none

/-- The first Datum's choice of a candidate. -/
def Hw.chooseCand (h : Hw) (d : Nat) : Option Cand × Hw :=
  match h.candPick d with
  | some c =>
    let h := { h with trv := { h.trv with pick := some (h.datNow d, some (c.pid, c.queue, c.num)) },
                      stn := { h.stn with trvTokens := SMap.mod 0 h.stn.trvTokens c.pid fun l => l - 256 } }
    (some c, (h.dropCand d c).modDatum d fun x => { x with lastPid := c.pid })
  | none => (none, { h with trv := { h.trv with pick := some (h.datNow d, none) } })

/-- Takes the candidate of the present stroke in a Datum: the choice is made and paid for once. -/
def Hw.takeCand (h : Hw) (d : Nat) : Option Cand × Hw :=
  let h := (h.datum d).queue.foldl (fun h c =>
    if ! c.toShape && decide (SMap.getD 0 h.stn.trvTokens c.pid ≤ 0) then h.noteExhausted c.pid 4 else h) h
  match h.trv.pick with
  | some (at_, choice) =>
    if at_ = h.datNow d then
      match choice.bind fun k => (h.datum d).queue.find? fun c => c.pid == k.1 && c.queue == k.2.1 && c.num == k.2.2 with
      | some c => (some c, (h.dropCand d c).modDatum d fun x => { x with lastPid := c.pid })
      | none => (none, h)
    else h.chooseCand d
  | none => h.chooseCand d

/-- The brake profile comes into use (R376). -/
def Hw.brakeBegins (h : Hw) (d : Nat) : Hw :=
  if (h.datum d).brake then h
  else ((h.modDatum d fun x => { x with brake := true }).put (F.TRV_INT_STATUS_DUST_LOST.datum d) 1).event (srcDatum d) 0x0404 0 1

/-- What the slot of the present stroke checks (R369): its verdict, with what the choice changes. -/
def Hw.slotChoice (h : Hw) (d : Nat) : Verdict × Hw :=
  let x := h.datum d
  let m := h.datNow d % 100
  if m = 0 then (h.slotVerdict d 0 x.committed false none, h)
  else if m = 50 then
    match x.pendingDust with
    | some t => (h.slotVerdict d 1 (some t) true none, h)
    | none =>
      if h.dustValid d then (h.slotVerdict d 1 x.dust false none, h)
      else let h := h.brakeBegins d; (h.slotVerdict d 3 x.committed false none, h)
  else if x.owedAt.any (fun a => decide (a ≤ h.datNow d)) && x.dust.isSome then
    (h.slotVerdict d 1 x.dust false none, h.modDatum d fun x => { x with owedAt := none })
  else
    match h.takeCand d with
    | (some c, h) => (h.slotVerdict d 2 (some c.traj) false (some c), h)
    | (none, h) => (h.slotVerdict d 0 x.committed false none, h)

/-- An uncorrectable error in a Datum's store (R357). -/
def Hw.trvUpset (h : Hw) (d : Nat) (u : TrvUpset) : Hw :=
  let h := h.modDatum d fun x => { x with survey := x.survey.map fun s => s.upset u }
  let g := match u with
    | .root tx ty => topBit tx.val ty.val
    | .node tx ty o => topBit tx.val ty.val * 8 + o.val
    | .leaf x y z => brickKey x.val y.val z.val
    | .dist x y z => (x.val * 256 + y.val) * 8 + z.val
  ((h.trvFault d 4 0).event (srcDatum d) 0x0103 0 g).healthAdd (partDatum d) inUncorr 1

/-- `VERDICT_SLOT` (R369): once a stroke in each Datum that runs, with an error that its store meets. -/
def execVerdictSlot (d : Fin 2) (u : Option TrvUpset) (s : State) : Host.Outcome State Fault Refusal :=
  s.next fun h =>
    if ! h.datumOn d.val then h
    else
      let h := match u with | some e => h.trvUpset d.val e | none => h
      let h := h.trvBoundary
      if (h.datum d.val).slotAt = some (h.datNow d.val) then h
      else
        let (v, h) := h.slotChoice d.val
        (h.modDatum d.val fun x => { x with slots := x.slots ++ [v], slotAt := some (h.datNow d.val) }).showTrv d.val

/-! Completion and comparison of verdicts (R372 to R375). -/

/-- What a dust-slot verdict does to the sheets (R375, R376). -/
def Hw.dustVerdict (h : Hw) (d : Nat) (v : Verdict) : Hw :=
  let x := h.datum d
  if v.kind ≠ 1 then h
  else if v.ofPending then
    if v.outcome = 0 then
      let t := x.pendingDust
      let h := h.modDatum d fun x =>
        { x with dust := t, pendingDust := none, dustCoats := 0, dustClear := true, brake := false, owedAt := none }
      let h := if x.brake then h.event (srcDatum d) 0x0404 0 0 else h
      match t with
      | some t => if d = (h.datumsOn.headD 0) then h.sendTraj true t else h
      | none => h
    else h.modDatum d fun x =>
      { x with pendingDust := none, owedAt := if x.dust.isSome then some (v.stroke + 3) else none }
  else h.modDatum d fun x => { x with dustClear := v.outcome == 0 }

/-- A verdict's record is complete (R372, R378). -/
def Hw.completeVerdict (h : Hw) (d : Nat) (v : Verdict) : Hw :=
  let h := h.addWrap (F.TRV_VERDICTS_COUNT.datum d) 1
  let h := h.modDatum d fun x => { x with slots := x.slots.map fun y => if y = v then { y with complete := true } else y }
  let h := if v.outcome = 3 then h.put (F.TRV_INT_STATUS_STALE.datum d) 1 else h
  let last (h : Hw) (o r m : Fld) : Hw := ((h.put (o.datum d) v.outcome).put (r.datum d) v.reason).put (m.datum d) v.margin
  let h := if v.kind = 0 then
      let h := last h F.TRV_LAST_C_OUTCOME F.TRV_LAST_C_REASON F.TRV_LAST_C_MARGIN_MM
      if v.outcome ≠ 0 then h.put (F.TRV_INT_STATUS_COMMIT_NOT_CLEAR.datum d) 1 else h
    else if v.kind = 1 ∨ v.kind = 3 then last h F.TRV_LAST_D_OUTCOME F.TRV_LAST_D_REASON F.TRV_LAST_D_MARGIN_MM
    else h
  (h.dustVerdict d v).showTrv d

/-- `VERDICT_RECORD_COMPLETE` (R372, R373): the records of slots two strokes old. -/
def execVerdictRecordComplete (d : Fin 2) (s : State) : Host.Outcome State Fault Refusal :=
  s.next fun h =>
    if ! h.datumOn d.val then h
    else (((h.datum d.val).slots.filter fun v => ! v.complete && decide (v.stroke + 2 ≤ h.datNow d.val))).foldl
      (fun h v => h.completeVerdict d.val v) h

/-- Whether two verdicts are of the same slot. -/
def Verdict.sameSlot (a b : Verdict) : Bool :=
  a.stroke == b.stroke && (a.kind == 2) == (b.kind == 2) &&
  match a.cand, b.cand with
  | some x, some y => x.same y
  | none, none => true
  | _, _ => false

/-- Whether two records agree: every field but `DATUM` and `CRC` (R374). -/
def recordsAgree (a b : List Byte) : Bool :=
  patch (a.take 60) 11 [0] == patch (b.take 60) 11 [0]

/-- A candidate's end (R371): both records, and the shaped record, are written at `RES_VA`; a Datum that has none
leaves unpredictable bytes there. -/
def Hw.finishCand (h : Hw) (c : Cand) : Hw :=
  let of (x : Datum) : Option Verdict := x.slots.find? fun v => v.cand.any fun y => y.same c
  let a := of h.datA
  let b := of h.datB
  let ok := match a, b with | some x, some y => recordsAgree x.bytes y.bytes | _, _ => false
  let bytes (v : Option Verdict) (h : Hw) : List Byte × Hw := match v with
    | some v => (v.bytes, h)
    | none => h.freeBytes 8
  let (ra, h) := bytes a h
  let (rb, h) := bytes b h
  let t := ((a.or b).bind (·.cand)).map (·.traj)
  let extra := match t with | some t => if t.shaped then t.bytes else [] | none => []
  let cut (x : Datum) : Datum :=
    { x with slots := x.slots.map fun v => if v.cand.any fun y => y.same c then { v with cand := none } else v }
  let h := { h with datA := cut h.datA, datB := cut h.datB }
  match h.writeVa 2 c.pid c.resVa (ra ++ rb ++ extra) false with
  | (some e, h) =>
    let (st, d) := pageStatus e
    h.finishAt c.pid c.queue c.num st 0 d {}
  | (none, h) =>
    h.finishAt c.pid c.queue c.num 0
      (field ra 9 1 + 256 * field rb 9 1 + 2 ^ 16 * b2n ok + 2 ^ 32 * field ra 28 4) 0 {}

/-- A Datum compares one of its verdicts with the record that the other sent (R374). -/
def Hw.compareOne (h : Hw) (d : Nat) (arrives : Bool) (v : Verdict) : Hw :=
  let peer := (h.datum (1 - d)).slots.find? fun y => y.complete && y.sameSlot v
  let agree := arrives && h.datumOn (1 - d) && peer.any fun y => recordsAgree y.bytes v.bytes
  let h := h.modDatum d fun x => { x with slots := x.slots.map fun y => if y = v then { y with compared := true } else y }
  let h := if agree then h else (h.trvFault d 3 0).detect 0x05 none 0
  match v.cand with
  | some c => if peer.all (fun y => y.compared) then h.finishCand c else h
  | none => h

/-- Verdicts that neither Datum needs any more are forgotten. -/
def Datum.prune (x y : Datum) (now : Nat) : Datum :=
  { x with slots := x.slots.filter fun v =>
      ! (v.compared && v.cand.isNone && (decide (v.stroke + 10 ≤ now) || y.slots.all fun w => ! w.sameSlot v || w.compared)) }

/-- `VERDICT_COMPARE` (R374): the verdicts of slots three strokes old, with the record that arrives over the
cross-link or not. -/
def execVerdictCompare (d : Fin 2) (arrives : Bool) (s : State) : Host.Outcome State Fault Refusal :=
  s.next fun h =>
    if ! h.datumOn d.val then h
    else
      let h := ((h.datum d.val).slots.filter fun v => v.complete && ! v.compared && decide (v.stroke + 3 ≤ h.datNow d.val)).foldl
        (fun h v => h.compareOne d.val arrives v) h
      let a := h.datA.prune h.datB (h.datNow 0)
      { h with datA := a, datB := h.datB.prune a (h.datNow 1) }

/-- A coat boundary passes for the dust sheets (R376), and the hub sends the trajectories again (R398). -/
def Hw.trvCoat (h : Hw) : Hw :=
  let h := h.datumsOn.foldl (fun h d => (h.modDatum d fun x => { x with dustCoats := min (x.dustCoats + 1) 3 }).showTrv d) h
  match h.datumsOn with
  | d :: _ =>
    let h := match (h.datum d).committed with | some t => h.sendTraj false t | none => h
    match (h.datum d).dust with | some t => h.sendTraj true t | none => h
  | [] => h

end Sys2Proof.Machine
end

