-- ==== Sys2Proof/Machine/DatumOps.lean ====
section
/-! DEFINITION. The safety path: reasons, output validity, links between the Datums and the rest, and status
records (R379 to R401, R534, R535). -/

namespace Sys2Proof.Machine

open Sys2Proof

/-! Latched reasons (R394 to R396). -/

/-- Whether a reason may be attributed to a die (R394). -/
def dieReason (code : Nat) : Bool := [0x04, 0x07, 0x0B, 0x0C, 0x0E].contains code

/-- The first latched reason: the earliest latched, the lowest code among those of one stroke, with the stroke of
its detection. -/
def Datum.first (x : Datum) : Option (Nat × Nat) :=
  (x.latched.foldl (fun (m : Option (Nat × Nat × Nat)) e =>
    match m with
    | some y => if e.2.1 < y.2.1 then some e else m
    | none => some e) none).map fun e => (e.1, e.2.2)

/-- The registers of `DTM` follow the Datum's reasons (R408). -/
def Hw.showDtm (h : Hw) (d : Nat) : Hw :=
  let x := h.datum d
  let h := h.put (F.DTM_STATUS_LATCHED.datum d) (b2n (! x.latched.isEmpty))
  let h := (h.put (F.DTM_STATUS_REASON.datum d) ((x.first.map (·.1)).getD 0)).put (F.DTM_SINCE_STROKE.datum d)
    ((x.first.map (·.2)).getD 0)
  let h := h.put (F.DTM_REASONS_SET.datum d) (mask 16 fun i => (x.latched.find (i + 1)).isSome)
  h.put (F.DTM_STATUS_RESTARTING.datum d) (b2n h.trv.restart.isSome)

/-- A reason is latched in a Datum that runs (R394, R408): `die` is 0 to 3, or 4 for the hub, when it is attributed.
An armed freeze on a latched reason is asked for (R571, condition 3). -/
def Hw.latch (h : Hw) (d code : Nat) (die : Option Nat) (pid s0 : Nat) : Hw :=
  if ! h.datumOn d then h
  else
    let die := if dieReason code then die else none
    let h := h.modDatum d fun x =>
      { x with dies := match die with | some n => if n < 4 then NSet.add x.dies n else x.dies | none => x.dies }
    if ((h.datum d).latched.find code).isSome then h
    else
      let dd := die.getD 0xFF
      let h := h.modDatum d fun x => { x with latched := x.latched.put code (h.datNow d, s0) }
      let h := if h.on F.DBG_STATUS_ARMED ∧ h.get F.DBG_ARM_COND = 3 then { h with freezeReq := true } else h
      let h := if h.on (F.DTM_FAULT0_VALID.datum d) then h.put (F.DTM_FAULT0_MORE.datum d) 1
        else
          let h := (h.put (F.DTM_FAULT0_REASON.datum d) code).put (F.DTM_FAULT0_DIE.datum d) dd
          let h := (h.put (F.DTM_FAULT0_PID.datum d) pid).put (F.DTM_FAULT0_AT.datum d) (h.datNow d % 2 ^ 32)
          h.put (F.DTM_FAULT0_VALID.datum d) 1
      ((h.put (F.DTM_INT_STATUS_LATCH.datum d) 1).event (srcDatum d) 0x0401 pid (code + dd * 256)).showDtm d

/-- A fault that one Datum sees: latched in it, and known to the other from the next stroke on (R396). -/
def Hw.latchOwn (h : Hw) (d code : Nat) (die : Option Nat) (pid : Nat) : Hw :=
  let h := h.latch d code die pid (h.datNow d)
  { h with detected := h.detected ++
      [{ code := code, die := die, pid := pid, atStroke := h.datNow d, toA := d ≠ 0, toB := d = 0 }] }

/-- Detected faults of earlier strokes are latched in a Datum (R396). -/
def Hw.latchDue (h : Hw) (d : Nat) : Hw :=
  if ! h.datumOn d then h
  else
    let mine (x : Detected) : Bool := (if d = 0 then x.toA else x.toB) && decide (x.atStroke < h.datNow d)
    let due := h.detected.filter mine
    let told := h.detected.map fun x =>
      if mine x then (if d = 0 then { x with toA := false } else { x with toB := false }) else x
    let h := { h with detected := told.filter fun x => x.toA || x.toB }
    due.foldl (fun h x => h.latch d x.code x.die x.pid x.atStroke) h

/-- Clears latched reasons in a Datum (R395). -/
def Hw.unlatch (h : Hw) (d : Nat) (gone : Nat → Bool) : Hw :=
  let h := h.modDatum d fun x =>
    let left := x.latched.filter fun e => ! gone e.1
    { x with latched := left, dies := if left.any (fun e => dieReason e.1) then x.dies else [] }
  h.showDtm d

/-- Whether the cause of a reason is still present in a Datum (R395): a lost monitor link, peer or loop. -/
def Hw.causePresent (h : Hw) (d code : Nat) : Bool :=
  let x := h.datum d
  (code == 0x07 && ! x.linkLost.isEmpty) || (code == 0x06 && ! h.on (F.DTM_STATUS_PEER_OK.datum d)) ||
  (code == 0x09 && decide (0 < x.differs))

/-- A `MODE_SET` to STANDBY clears reasons in a Datum whose causes are gone (R395). -/
def Hw.clearAtStandby (h : Hw) (d : Nat) : Hw :=
  if (h.datum d).latched.any fun e => h.causePresent d e.1 then h
  else h.unlatch d fun c => c ≠ 0x01 ∧ c ≠ 0x10

/-- `MODULE_WARM` clears every reason but `DATUM_LOCKSTEP` and `DEBUG` (R395); `PEER_LOST` stays while the peer's
loop is held OFF until PORST (R566). -/
def Hw.clearAtWarm (h : Hw) (d : Nat) : Hw :=
  h.unlatch d fun c => c ≠ 0x01 && c ≠ 0x10 && ! (c == 0x06 && (h.datum (1 - d)).loopOff)

/-! Output validity (R393, R534). -/

/-- The lowest hold reason that applies in a Datum (R394), or 0. -/
def Hw.holdReason (h : Hw) (d : Nat) : Nat :=
  if h.mode ≠ 3 ∧ h.mode ≠ 4 then 0x20
  else if h.get (F.TRV_LAST_C_OUTCOME.datum d) ≠ 0 then 0x21
  else if h.get (F.TRV_LAST_D_OUTCOME.datum d) ≠ 0 then 0x22
  else if (h.datum d).env.isNone then 0x23
  else if h.trv.restart.isSome then 0x24
  else 0

/-- Whether the peer's heartbeat is current (R382). -/
def Hw.peerCurrent (h : Hw) (d : Nat) : Bool :=
  h.on (F.DTM_STATUS_PEER_OK.datum d) && decide (h.datNow d ≤ (h.datum d).peerAt + 3)

/-- Whether the output stage has its supply: PD_SAFEOUT is on (R515). -/
def Hw.safeOut (h : Hw) : Bool := bit (h.get F.PWR_DOMAIN_ON) 47

/-- Whether the conditions of R393 hold in a Datum. -/
def Hw.outValid (h : Hw) (d : Nat) : Bool :=
  h.datumOn d && h.holdReason d == 0 && (h.datum d).latched.isEmpty &&
  ! h.on (F.DTM_STATUS_LOCKSTEP_BROKEN.datum d) && h.peerCurrent d

/-- The level that a Datum drives its loop at (R534): 0 OFF, 1 INACTIVE, 2 ACTIVE. -/
def Hw.loopLevel (h : Hw) (d : Nat) : Nat :=
  let x := h.datum d
  if ! h.datumOn d || x.loopOff || (x.latched.find 0x09).isSome || ! h.safeOut || h.sys.frozenAt.isSome || h.mode = 0 || h.mode = 6 then 0
  else if h.outValid d then 2 else 1

/-- Commands a loop (R393, R534, R535). -/
def Hw.driveLoop (h : Hw) (d : Nat) : Hw :=
  let l := h.loopLevel d
  let h := h.put (F.DTM_STATUS_LINE.datum d) (b2n (l = 2))
  if l = (h.datum d).level then h
  else h.modDatum d fun x => { x with level := l, levelAt := h.datNow d, differs := 0 }

/-- The hold of a Datum (R394, R408). -/
def Hw.setHold (h : Hw) (d : Nat) : Hw :=
  let r := h.holdReason d
  let was := h.on (F.DTM_STATUS_HOLD.datum d)
  let h := if r = h.get (F.DTM_STATUS_HOLD_REASON.datum d) then h else h.modDatum d fun x => { x with holdAt := h.datNow d }
  let h := (h.put (F.DTM_STATUS_HOLD.datum d) (b2n (r ≠ 0))).put (F.DTM_STATUS_HOLD_REASON.datum d) r
  if r ≠ 0 ∧ ! was then (h.put (F.DTM_INT_STATUS_HOLD.datum d) 1).event (srcDatum d) 0x0402 0 r else h

/-! Restarts under the Firad-1-compatible policy (R401). -/

/-- Whether the compatible policy answers the latched reasons with a restart (R401): the first is attributed to
dies, no other is set, and none completed in the last 60,000,000 strokes. -/
def Hw.restartDue (h : Hw) (d : Nat) : Bool :=
  let x := h.datum d
  h.on (F.DTM_STATUS_COMPAT.datum d) && x.latched.length == 1 && x.latched.all (fun e => dieReason e.1) &&
  ! x.dies.isEmpty && h.trv.restart.isNone && ! h.trv.restartedAt.any fun a => decide (h.datNow d < a + 60000000)

/-- A restart begins to apply (R401, R402). -/
def Hw.startRestart (h : Hw) (d : Nat) : Hw :=
  if h.restartDue d then
    let x := h.datum d
    let s0 := (x.first.map (·.2)).getD (h.datNow d)
    (({ h with trv := { h.trv with restart := some { dies := x.dies, since := s0, begun := false } } }).showDtm 0).showDtm 1
  else h

/-- One evaluation of a Datum (R393): faults known are latched, a stroke length beyond 1 µs ± 200 ppm is a clock
fault (R403), and the loop is driven. -/
def Hw.evalDatum (h : Hw) (d : Nat) (ppm : BitVec 16) : Hw :=
  if ! h.datumOn d then h.driveLoop d
  else
    let h := h.put (F.DTM_CLOCK_PPM.datum d) ppm.toNat
    let h := h.latchDue d
    let h := if ppm.toInt < -2000 ∨ 2000 < ppm.toInt then h.latchOwn d 0x08 none 0 else h
    ((h.startRestart d).setHold d).driveLoop d

/-- `OUT_VALID_EVALUATION` (R393): with the stroke length error that the Datum measures, in 0.1 ppm. -/
def execOutValidEvaluation (d : Fin 2) (ppm : BitVec 16) (s : State) : Host.Outcome State Fault Refusal :=
  s.next fun h => h.evalDatum d.val ppm

/-! Links (R381, R382). -/

/-- `HEARTBEAT` (R382): a Datum receives the peer's heartbeat, valid or not; `differ` when the duplex results that
it carries differ from its own. -/
def execHeartbeat (d : Fin 2) (valid differ : Bool) (s : State) : Host.Outcome State Fault Refusal :=
  s.next fun h =>
    if ! h.datumOn d.val || ! h.datumOn (1 - d.val) || ! valid then h
    else
      let h := h.modDatum d.val fun x => { x with peerAt := h.datNow d.val }
      let h := (h.put (F.DTM_STATUS_PEER_OK.datum d.val) 1).put (F.DTM_LINKS_XLINK_OK.datum d.val) 1
      let h := if differ then h.detect 0x05 none 0 else h
      h.latchDue d.val

/-- `PEER_LOST` (R382): no valid heartbeat for 3 strokes. -/
def execPeerLost (d : Fin 2) (s : State) : Host.Outcome State Fault Refusal :=
  s.next fun h =>
    if h.datumOn d.val && decide ((h.datum d.val).peerAt + 4 ≤ h.datNow d.val) then
      ((h.put (F.DTM_STATUS_PEER_OK.datum d.val) 0).put (F.DTM_LINKS_XLINK_OK.datum d.val) 0).latchOwn d.val 0x06 none 0
    else h

/-- A monitor link counts as lost (R381): `e` is a compute die, or 4 for the hub. -/
def Hw.loseMonitor (h : Hw) (d e : Nat) : Hw :=
  if (h.datum d).linkLost.contains e then h
  else
    let h := h.modDatum d fun x => { x with linkLost := NSet.add x.linkLost e }
    (h.put ((F.DTM_LINKS_MON_OK.bit e).datum d) 0).latchOwn d 0x07 (some e) 0

/-- `MONITOR_LINK_MESSAGE` (R381): a message from a die or the hub (4), with the check failures that it met and the
arrival spread of the stroke's markers in ns (R403). -/
def execMonitorLinkMessage (d : Fin 2) (e : Fin 5) (fails : Fin 3) (spread : Fin 256) (s : State) :
    Host.Outcome State Fault Refusal :=
  s.next fun h =>
    if ! h.datumOn d.val || (h.datum d.val).linkLost.contains e.val then h
    else if fails.val = 2 then h.loseMonitor d.val e.val
    else
      let h := h.modDatum d.val fun x => { x with linkAt := x.linkAt.put e.val (h.datNow d.val) }
      let h := h.put ((F.DTM_LINKS_MON_OK.bit e.val).datum d.val) 1
      let h := if h.get (F.DTM_CLOCK_SPREAD.datum d.val) < spread.val then h.put (F.DTM_CLOCK_SPREAD.datum d.val) spread.val
        else h
      let h := if 50 < spread.val then h.latchOwn d.val 0x08 none 0 else h
      h.latchDue d.val

/-- `MONITOR_LINK_LOST` (R381): a second check failure, or 3 silent strokes. -/
def execMonitorLinkLost (d : Fin 2) (e : Fin 5) (second : Bool) (s : State) : Host.Outcome State Fault Refusal :=
  s.next fun h =>
    if h.datumOn d.val && (second || decide ((h.datum d.val).linkAt.getD 0 e.val + 4 ≤ h.datNow d.val)) then h.loseMonitor d.val e.val
    else h

/-- `DATUM_LOCKSTEP_MISMATCH` (R383): both cores stop, the loop goes inactive, and the other Datum learns of it. -/
def execDatumLockstepMismatch (d : Fin 2) (s : State) : Host.Outcome State Fault Refusal :=
  s.next fun h =>
    if ! h.datumOn d.val || h.on (F.DTM_STATUS_LOCKSTEP_BROKEN.datum d.val) then h
    else
      let h := (h.modDatum d.val fun x => { x with stopped := true }).driveLoop d.val
      { h with detected := h.detected ++
          [{ code := 0x01, die := none, pid := 0, atStroke := h.datNow d.val, toA := d.val = 1, toB := d.val = 0 }] }

/-- Lockstep is broken (R406): the comparators are off until PORST, and `DEBUG` is latched; `kind` is that of the
request. -/
def Hw.breakLockstep (h : Hw) (kind : Nat) : Hw :=
  [0, 1].foldl (fun h d =>
    ((h.put (F.DTM_STATUS_LOCKSTEP_BROKEN.datum d) 1).event (srcDatum d) 0x0407 0 kind).latch d 0x10 none 0 (h.datNow d)) h

/-- `LOOP_READBACK` (R535): the currents out of _P and into _N in µA and the voltage between the pins in mV. -/
def execLoopReadback (d : Fin 2) (ip in_ : Fin 65536) (mv : Fin 65536) (s : State) : Host.Outcome State Fault Refusal :=
  s.next fun h =>
    if ! h.datumOn d.val then h
    else
      let x := h.datum d.val
      let near := decide (ip.val ≤ in_.val + 2000) && decide (in_.val ≤ ip.val + 2000) &&
        decide (100 * ip.val ≤ 1000 * mv.val) && decide (1000 * mv.val ≤ 400 * ip.val)
      let active := decide (18000 ≤ ip.val) && decide (ip.val ≤ 22000) && near
      let h := h.put (F.DTM_STATUS_LOOP_READ.datum d.val) (b2n active)
      if h.datNow d.val ≤ x.levelAt then h
      else
        let equal :=
          if x.level = 2 then active
          else if x.level = 1 then decide (6000 ≤ ip.val) && decide (ip.val ≤ 10000) && near
          else decide (ip.val < 500) && decide (in_.val < 500)
        if equal then h.modDatum d.val fun x => { x with differs := 0 }
        else
          let h := h.modDatum d.val fun x => { x with differs := x.differs + 1 }
          if x.differs + 1 ≥ 2 then (h.latchOwn d.val 0x09 none 0).driveLoop d.val else h

/-! Status records (R397, R398). -/

/-- Bytes 4 to 6 of a record with `DUST_SEQ` and `COMMIT_SEQ`: a change asks for a new record. -/
def recordKey (b : List Byte) : List Byte := (b.drop 4).take 3 ++ (b.drop 24).take 6 ++ (b.drop 36).take 6

/-- A record from its fields. -/
def statusRecord (source flags reason stroke since dustSeq dustPid dustCrc comSeq comPid comMargin dustMargin count : Nat) :
    List Byte :=
  let b := leBytes 4 0x4C46_5353 ++ leBytes 1 source ++ leBytes 1 flags ++ leBytes 1 reason ++ zeros 1 ++ leBytes 8 stroke ++
    leBytes 8 since ++ leBytes 6 dustSeq ++ leBytes 1 dustPid ++ zeros 1 ++ leBytes 4 dustCrc ++ leBytes 6 comSeq ++
    leBytes 1 comPid ++ zeros 1 ++ leBytes 4 comMargin ++ leBytes 4 dustMargin ++ leBytes 4 count ++ zeros 8
  putField b 60 4 (crc32c b)

/-- The record of a Datum (R397). -/
def Hw.datumRecord (h : Hw) (d : Nat) : List Byte :=
  let x := h.datum d
  let hold := h.get (F.DTM_STATUS_HOLD_REASON.datum d)
  let flags := h.get (F.DTM_STATUS_LINE.datum d) + 2 * b2n (! x.latched.isEmpty) + 4 * b2n (hold ≠ 0) +
    8 * h.get (F.DTM_STATUS_COMPAT.datum d) + 16 * b2n x.brake
  let since := match x.first with
    | some f => f.2
    | none => if hold ≠ 0 then x.holdAt else 0
  statusRecord d flags ((x.first.map (·.1)).getD hold) (h.datNow d) since ((x.dust.map (·.seq)).getD 0) ((x.dust.map (·.pid)).getD 0)
    ((x.dust.map fun t => crc32c t.bytes).getD 0) ((x.committed.map (·.seq)).getD 0) ((x.committed.map (·.pid)).getD 0)
    (h.get (F.TRV_LAST_C_MARGIN_MM.datum d)) (h.get (F.TRV_LAST_D_MARGIN_MM.datum d)) ((x.sentCount + 1) % 2 ^ 32)

/-- The lower of the margins of the records that are current. -/
def lowerMargin (off : Nat) (rs : List (List Byte)) : Nat :=
  match rs with
  | [] => 0
  | r :: rs => unsx 32 (rs.foldl (fun m r => min m (sx 32 (field r off 4))) (sx 32 (field r off 4)))

/-- The hub's own record (R397), merged from the latest records of the Datums that run. -/
def Hw.hubRecord (h : Hw) : List Byte :=
  let rs := (h.datumsOn.map fun d => (h.datum d).lastRec).filter fun r => r.length == 64
  let flag (i : Nat) : Bool := rs.any fun r => bit (field r 5 1) i
  let key (r : List Byte) : Nat := field r 16 8 * 256 + field r 6 1
  let least (p : List Byte → Bool) (k : List Byte → Nat) : Option (List Byte) :=
    (rs.filter p).foldl (fun (m : Option (List Byte)) r =>
      match m with
      | some x => if k r < k x then some r else m
      | none => some r) none
  let latched := least (fun r => bit (field r 5 1) 1) key
  let held := least (fun r => bit (field r 5 1) 2) fun r => field r 6 1
  let (lat, reason, since) := match h.trv.hubReason, latched, held with
    | some (c, at_), _, _ => (true, c, at_)
    | none, some r, _ => (true, field r 6 1, field r 16 8)
    | none, none, some r => (false, field r 6 1, field r 16 8)
    | none, none, none => (false, 0, 0)
  let dust := h.trv.sentDust
  let com := h.trv.sentCommit
  statusRecord 2 (2 * b2n lat + 4 * b2n (flag 2) + 8 * b2n (flag 3) + 16 * b2n (flag 4)) reason h.now since
    ((dust.map (·.seq)).getD 0) ((dust.map (·.pid)).getD 0) ((dust.map fun t => crc32c t.bytes).getD 0)
    ((com.map (·.seq)).getD 0) ((com.map (·.pid)).getD 0) (lowerMargin 44 rs) (lowerMargin 48 rs)
    ((h.trv.hubCount + 1) % 2 ^ 32)

/-- Whether a source sends its record now (R397): 1,000 strokes after its last, or after a change. -/
def recordDue (now : Nat) (key : List Byte) (lastKey : List Byte) (lastAt : Option Nat) : Bool :=
  match lastAt with
  | none => true
  | some a => decide (a + 1000 ≤ now) || key ≠ lastKey

/-- A Datum's record leaves in a CAN XL frame of its channel, with the fields of the configuration image (R398), while the
channel's transceiver has its supply and its controller can transmit: error active or passive (R539). -/
def Hw.sendCan (h : Hw) (d : Nat) (r : List Byte) : Hw :=
  let c := h.cfg.can.getD d default
  if h.safeOut && decide (h.sys.can.getD 0 d ≤ 1) then
    { h with outs := h.outs ++ [.can d c.priorityId c.sdu c.accept r] }
  else h

/-- A Datum sends its record on its CAN XL channel, and the hub relays it on the backbone (R397, R398). -/
def Hw.sendDatumRecord (h : Hw) (d : Nat) : Hw :=
  let x := h.datum d
  let r := h.datumRecord d
  if h.datumOn d && h.sys.frozenAt.isNone && recordDue (h.datNow d) (recordKey r) x.sentKey x.sentAt then
    let h := h.modDatum d fun x =>
      { x with sentKey := recordKey r, sentAt := some (h.datNow d), sentCount := x.sentCount + 1, lastRec := r }
    let h := h.sendCan d r
    if ! x.linkLost.contains 4 && h.hubOn then h.sendBb r else h
  else h

/-- The hub sends its own record. -/
def Hw.sendHubRecord (h : Hw) : Hw :=
  let r := h.hubRecord
  if h.hubOn && h.sys.frozenAt.isNone && recordDue h.now (recordKey r) h.trv.hubKey h.trv.hubSentAt then
    ({ h with trv := { h.trv with hubKey := recordKey r, hubSentAt := some h.now, hubCount := h.trv.hubCount + 1 } }).sendBb r
  else h

/-- `STATUS_RECORD_SEND` (R397): Datum A (0), Datum B (1) or the hub (2). -/
def execStatusRecordSend (src : Fin 3) (s : State) : Host.Outcome State Fault Refusal :=
  s.next fun h => if src.val < 2 then h.sendDatumRecord src.val else h.sendHubRecord

/-! Checkers and the policy (R401, R404). -/

/-- A Datum's record of the test of a checker (its row of R404, from 0), on one compute die or on none. -/
def Hw.checkerTest (h : Hw) (d row : Nat) (die : Option Nat) (pass : Bool) : Hw :=
  if ! h.datumOn d then h
  else
    let h := (h.put (F.DTM_SELFTEST_CHECKER.datum d) row).put (F.DTM_SELFTEST_RESULT.datum d) (if pass then 1 else 2)
    let t := NSet.add (h.datum d).tested row
    let h := if t.length = 9 then
        (h.put (F.DTM_SELFTEST_ROTATION_AT.datum d) (h.datNow d % 2 ^ 32)).modDatum d fun x => { x with tested := [] }
      else h.modDatum d fun x => { x with tested := t }
    if pass then h
    else ((h.put (F.DTM_INT_STATUS_CHECKER_FAIL.datum d) 1).event (srcDatum d) 0x0405 0 row).latchOwn d 0x0E die 0

/-- `CHECKER_TEST` (R404): the test of a checker passes or fails. -/
def execCheckerTest (d : Fin 2) (row : Fin 9) (die : Option (Fin 4)) (pass : Bool) (s : State) :
    Host.Outcome State Fault Refusal :=
  s.next fun h => h.checkerTest d.val row.val (die.map (·.val)) pass

/-- The checks of `SAFE_POLICY` (R401). -/
def specSafePolicy : OpSpec :=
  { opc := 0xCF, issuer := .owner, modes := .notDrive, fields := fun _ c => decide (c.f 16 1 ≤ 1) }

/-- `SAFE_POLICY` (R401): delivered to both Datums under R26. -/
def execSafePolicy (q : QRef) (p : Packet) (s : State) : Host.Outcome State Fault Refusal :=
  s.next fun h => h.issue specSafePolicy q p fun h c =>
    if h.deliverable then
      ((h.put (F.DTM_STATUS_COMPAT.datum 0) (c.f 16 1)).put (F.DTM_STATUS_COMPAT.datum 1) (c.f 16 1)).done c 0
    else h.deliveryFailed c.pid c.queue c.num

/-! Losing a Datum's state (R377, R566). -/

/-- A Datum's own reset: its blocks and its state go, but for `LOCKSTEP_BROKEN`; its loop stays OFF until PORST. -/
def Hw.resetDatum (h : Hw) (d : Nat) : Hw :=
  let broken := h.on (F.DTM_STATUS_LOCKSTEP_BROKEN.datum d)
  let h := (h.resetBlocks (0x780 + 8 * d) (0x780 + 8 * d)).resetBlocks (0x790 + 8 * d) (0x790 + 8 * d)
  let h := h.put (F.DTM_STATUS_LOCKSTEP_BROKEN.datum d) (b2n broken)
  h.modDatum d fun _ => { Datum.reset with loopOff := true, time := h.now, levelAt := h.now, peerAt := h.now }

/-- `DATUM_RESET` (R566): a Datum's own supervisor resets it; the queued candidates of a Datum whose peer does not
run are lost with it (R377). -/
def execDatumReset (d : Fin 2) (s : State) : Host.Outcome State Fault Refusal :=
  s.next fun h => if (h.datum d.val).stopped then h else h.resetDatum d.val

end Sys2Proof.Machine
end

