-- ==== Sys2Proof/Machine/Finisher.lean ====
section
/-! DEFINITION. The detection finishers (R298 to R313). -/

namespace Sys2Proof.Machine

open Sys2Proof

/-! Fields of a request descriptor (R301). -/

/-- The number in `n` bytes of a request's descriptor from byte `lo` on. -/
def DfinReq.f (r : DfinReq) (lo n : Nat) : Nat := field r.desc lo n

def DfinReq.nMax (r : DfinReq) : Nat := bits (r.f 32 4) 0 17
def DfinReq.mode (r : DfinReq) : Nat := bits (r.f 36 1) 0 3
def DfinReq.agn (r : DfinReq) : Bool := bit (r.f 36 1) 3
def DfinReq.nSend (r : DfinReq) : Nat := bits (r.f 37 1) 0 7
def DfinReq.outK (r : DfinReq) : Nat := bits (r.f 38 2) 0 12
def DfinReq.preK (r : DfinReq) : Nat := bits (r.f 40 2) 0 13
def DfinReq.iouQ (r : DfinReq) : Nat := r.f 42 2
def DfinReq.qLog2 (r : DfinReq) : Int := sx 8 (r.f 44 1)
def DfinReq.outVa (r : DfinReq) : Nat := r.f 8 6
def DfinReq.bev (r : DfinReq) : Bool := r.mode == 2 || r.mode == 3 || r.mode == 5

/-- Whether every field of a descriptor lies in its range (R301); outside them the results are
unpredictable. -/
def DfinReq.inRange (r : DfinReq) : Bool :=
  decide (1 ≤ r.nMax) && decide (r.nMax ≤ 65536) && decide (r.mode < 6) && decide (1 ≤ r.nSend) &&
  decide (r.nSend ≤ 64) && decide (1 ≤ r.outK) && decide (r.outK ≤ 2048) && decide (1 ≤ r.preK) &&
  decide (r.preK ≤ 4096) && decide (-16 ≤ r.qLog2) && decide (r.qLog2 ≤ 16) && r.outVa % 64 == 0 &&
  r.f 16 6 % 4096 == 0

/-- Whether a request is that of a finisher, a PID and a tag. -/
def DfinReq.is (r : DfinReq) (fin pid req : Nat) : Bool := r.fin == fin && r.pid == pid && r.req == req

/-! Opening and closing (R299, R300). -/

/-- Records a fault in `DFIN_FAULT0` (R313, R610). -/
def Hw.dfinRecord (h : Hw) (fin cause pid req : Nat) : Hw :=
  if h.on F.DFIN_FAULT0_VALID then h.put F.DFIN_FAULT0_MORE 1
  else
    let h := (h.put F.DFIN_FAULT0_FIN fin).put F.DFIN_FAULT0_CAUSE cause
    let h := (h.put F.DFIN_FAULT0_PID pid).put F.DFIN_FAULT0_REQ req
    (h.put F.DFIN_FAULT0_AT (h.now % 2 ^ 32)).put F.DFIN_FAULT0_VALID 1

/-- A request ends on a fault: recorded and signalled. -/
def Hw.dfinFault (h : Hw) (fin cause pid req : Nat) : Hw :=
  (h.dfinRecord fin cause pid req).put F.DFIN_INT_STATUS_FAULT 1

/-- `DFIN_LOAD0` to `DFIN_LOAD3` and `DFIN_STATUS` follow the requests (R313). -/
def Hw.showDfin (h : Hw) : Hw :=
  (List.range 4).foldl (fun h n =>
    let rs := h.dfin.filter fun r => r.fin == n
    let closed := (rs.filter fun r => r.closedAt.isSome).length
    let h := (h.put (F.DFIN_LOAD_OPEN.nth n) (rs.length - closed)).put (F.DFIN_LOAD_CLOSED.nth n) closed
    h.put (F.DFIN_STATUS_BUSY.bit n) (b2n (decide (0 < closed)))) h

/-- The records of a range that are announced for the first time, as they stand (R302, R311): those that can be read. -/
def Hw.seeRecords (h : Hw) (r : DfinReq) (first count : Nat) : SMap (List Byte) :=
  ((upto first count).filter fun i => decide (i < r.nMax)).foldl (fun m i =>
    if (m.find i).isSome then m
    else match (h.readVa 0 r.pid (r.f 0 6 + 32 * i) 32).1 with
      | .ok (bs, _) => m.put i bs
      | .error _ => m) r.seen

/-- Adds a notice to an open request, and closes it at its last `FINAL` (R300). -/
def Hw.addNotice (h : Hw) (fin pid : Nat) (n : List Byte) (stained : Bool) : Hw :=
  let req := field n 0 2
  let upd (r : DfinReq) : DfinReq :=
    let finals := r.finals + b2n (bit (field n 2 1) 0)
    let first := bits (field n 4 4) 0 17
    let count := bits (field n 8 4) 0 17
    { r with ranges := r.ranges ++ [(first, count)], seen := h.seeRecords r first count
             finals := finals, stained := r.stained || stained
             closedAt := if stained || decide (r.nSend ≤ finals) then some h.now else none }
  let (mine, rest) := h.dfin.partition fun r => r.is fin pid req && r.closedAt.isNone
  -- requests that are closed stand in the order of their closing
  { h with dfin := rest ++ mine.map upd }

/-- Opens a request with its descriptor (R300, R309): a descriptor that cannot be read ends it at once. -/
def Hw.openRequest (h : Hw) (fin pid : Nat) (n : List Byte) : Hw × Bool :=
  let req := field n 0 2
  let va := field n 16 6 / 128 * 128
  match h.readVa 0 pid va 128 with
  | (.error _, h) => (h.dfinFault fin 3 pid req, false)
  | (.ok (bs, st), h) =>
    ({ h with dfin := h.dfin ++
        [{ fin := fin, pid := pid, req := req, desc := bs, descVa := va, ranges := [], finals := 0, closedAt := none,
           stained := st, seen := [], spent := 0, paid := 0 }] }, true)

/-- A notice reaches a finisher (R298 to R300). -/
def Hw.takeNotice (h : Hw) (fin pid : Nat) (n : List Byte) (stained : Bool) : Hw :=
  let req := field n 0 2
  if h.dfin.any fun r => r.is fin pid req && r.closedAt.isNone then (h.addNotice fin pid n stained).showDfin
  else if 4 ≤ (h.dfin.filter fun r => r.fin == fin && r.pid == pid && r.closedAt.isNone).length then
    ((h.dfinRecord fin 4 pid req).put F.DFIN_INT_STATUS_DISCARDED 1).event (srcDfin fin) 0x0808 pid req
  else
    match h.openRequest fin pid n with
    | (h, true) => (h.addNotice fin pid n stained).showDfin
    | (h, false) => h

/-- `DFIN_NOTICE` (R300): the oldest notice from `src` reaches finisher `fin`. -/
def execDfinNotice (src : Fin 1024) (fin : Fin 4) (s : State) : Host.Outcome State Fault Refusal :=
  s.next fun h =>
    if h.fabricOn then
      match h.takeDfin src.val fin.val with
      | (some m, h) => h.takeNotice fin.val m.pid (fit 64 (m.pieces.flatMap (·.data))) (m.pieces.any (·.stain))
      | (none, h) => h
    else h

/-! Decoding (R302 to R304). -/

/-- A candidate that survived decoding: index, class, score, its five values and its region. -/
structure DfinBox where
  idx : Nat
  cls : Nat
  score : Nat
  vals : List Nat
  region : List (Int × Int)
  deriving DecidableEq, Repr

/-- EXP2(t × 0x3FB8_AA3B) (R303). -/
def dfinExp (t : Nat) : Nat := fp32.lane ((f32v (f32mul t 0x3FB8_AA3B)).exp2)

/-- One half in FP32. -/
def f32half : Nat := 0x3F00_0000

/-- Negation in FP32. -/
def f32neg (a : Nat) : Nat := fp32.lane (f32v a).neg

/-- Whether an FP32 value is finite. -/
def f32finite (a : Nat) : Bool := (f32v a).isNum

/-- The corners x ∓ w × 0.5, y ∓ h × 0.5. -/
def cornersOf (x y w l : Nat) : List Nat :=
  let hw := f32mul w f32half
  let hl := f32mul l f32half
  [f32sub x hw, f32sub y hl, f32add x hw, f32add y hl]

/-- The decoded values of a record under a mode (R303): four corners in 2D, x, y, w, l, θ in BEV. -/
def DfinReq.decodeBox (r : DfinReq) (rec anchor : List Byte) : List Nat :=
  let t (i : Nat) : Nat := field rec (12 + 4 * i) 4
  let sx' := r.f 56 4
  let sy := r.f 60 4
  let cx := f32add (f32mul (f32add (f32nat (field rec 4 2)) f32half) sx') (r.f 64 4)
  let cy := f32add (f32mul (f32add (f32nat (field rec 6 2)) f32half) sy) (r.f 68 4)
  let aw := field anchor 0 4
  let al := field anchor 4 4
  match r.mode with
  | 0 => cornersOf (f32add cx (f32mul (t 0) aw)) (f32add cy (f32mul (t 1) al)) (f32mul aw (dfinExp (t 2))) (f32mul al (dfinExp (t 3)))
  | 1 => [f32sub cx (f32mul (t 0) sx'), f32sub cy (f32mul (t 1) sy), f32add cx (f32mul (t 2) sx'), f32add cy (f32mul (t 3) sy)]
  | 2 =>
    let d := fp32.lane (f32v (f32add (f32mul aw aw) (f32mul al al))).sqrt
    [f32add cx (f32mul (t 0) d), f32add cy (f32mul (t 1) d), f32mul aw (dfinExp (t 2)), f32mul al (dfinExp (t 3)),
     f32add (field anchor 8 4) (t 4)]
  | 3 =>
    [f32add cx (f32mul (t 0) sx'), f32add cy (f32mul (t 1) sy), f32mul (dfinExp (t 2)) sx', f32mul (dfinExp (t 3)) sy, t 4]
  | 4 => [t 0, t 1, t 2, t 3]
  | _ => [t 0, t 1, t 2, t 3, t 4]

/-- RNE(v ÷ 2^q); `none` for a value that is not finite or beyond 2^30 in magnitude (R304). -/
def quantize (q : Int) (v : Nat) : Option Int :=
  match f32v v with
  | .num s m e =>
    let n : Int := roundShift .rne m (e - q)
    if n ≤ 2 ^ 30 then some (if s then -n else n) else none
  | _ => none

/-- The four corners of a rotated box (R304). -/
def rotCorners (b : List Nat) : List (Nat × Nat) :=
  let v (i : Nat) : Nat := b.getD i 0
  let c := fp32.lane (f32v (v 4)).cos
  let s := fp32.lane (f32v (v 4)).sin
  let hl := f32mul (v 3) f32half
  let hw := f32mul (v 2) f32half
  let sg (p : Bool) (a : Nat) : Nat := if p then a else f32neg a
  [(true, true), (false, true), (false, false), (true, false)].map fun (p, n) =>
    (f32sub (f32add (v 0) (sg p (f32mul hl c))) (sg n (f32mul hw s)),
     f32add (f32add (v 1) (sg p (f32mul hl s))) (sg n (f32mul hw c)))

/-- Twice the signed area of the triangle o, a, b. -/
def cross3 (o a b : Int × Int) : Int := (a.1 - o.1) * (b.2 - o.2) - (a.2 - o.2) * (b.1 - o.1)

/-- One half of a convex hull, over points in their order, as a stack. -/
def hullPush : List (Int × Int) → Int × Int → List (Int × Int)
  | a :: b :: st, p => if cross3 b a p ≤ 0 then hullPush (b :: st) p else p :: a :: b :: st
  | st, p => p :: st

/-- The convex hull of points, counter-clockwise. -/
def hull (ps : List (Int × Int)) : List (Int × Int) :=
  let le (a b : Int × Int) : Bool := decide (a.1 < b.1) || (a.1 == b.1 && decide (a.2 ≤ b.2))
  let qs := sortBy le ps.eraseDups
  let lower := qs.foldl hullPush []
  let upper := qs.reverse.foldl hullPush []
  (lower.drop 1).reverse ++ (upper.drop 1).reverse

/-- Twice the area of a polygon with integer vertices. -/
def area2 (ps : List (Int × Int)) : Int :=
  (((List.zip ps (ps.rotateLeft 1)).map fun (a, b) => a.1 * b.2 - a.2 * b.1).foldl (· + ·) 0)

/-- The region of a decoded box on the grid, when it is not bad (R304). -/
def DfinReq.region (r : DfinReq) (b : List Nat) : Option (List (Int × Int)) :=
  let q := quantize r.qLog2
  let pts : Option (List (Int × Int)) :=
    if ! b.all f32finite then none
    else if r.bev then (rotCorners b).mapM fun (x, y) => (q x).bind fun i => (q y).map fun j => (i, j)
    else do
      let x1 ← q (b.getD 0 0)
      let y1 ← q (b.getD 1 0)
      let x2 ← q (b.getD 2 0)
      let y2 ← q (b.getD 3 0)
      pure [(x1, y1), (x2, y1), (x2, y2), (x1, y2)]
  pts.bind fun p =>
    let hu := hull p
    if 3 ≤ hu.length ∧ 0 < area2 hu then some hu else none

/-! Exact intersections (R305): points with rational coordinates. -/

/-- Cuts a convex polygon by the half-plane to the left of the line from `a` to `b`. -/
def clipEdge (a b : Int × Int) (ps : List (Rat × Rat)) : List (Rat × Rat) :=
  let side (p : Rat × Rat) : Rat := ((b.1 - a.1 : Int) : Rat) * (p.2 - a.2) - ((b.2 - a.2 : Int) : Rat) * (p.1 - a.1)
  (List.zip ps (ps.rotateLeft 1)).flatMap fun (p, q) =>
    let u := side p
    let v := side q
    let cut : Rat × Rat := (p.1 + (q.1 - p.1) * (u / (u - v)), p.2 + (q.2 - p.2) * (u / (u - v)))
    if 0 ≤ u then (if 0 ≤ v then [q] else [cut])
    else if 0 ≤ v then [cut, q] else []

/-- Twice the area of the intersection of two convex polygons. -/
def meet2 (p q : List (Int × Int)) : Rat :=
  let c := (List.zip q (q.rotateLeft 1)).foldl (fun ps e => clipEdge e.1 e.2 ps)
    (p.map fun v => ((v.1 : Rat), (v.2 : Rat)))
  (((List.zip c (c.rotateLeft 1)).map fun (a, b) => a.1 * b.2 - a.2 * b.1).foldl (· + ·) 0)

/-- Whether a box is suppressed by a kept one (R305). -/
def suppresses (iouQ : Nat) (a b : DfinBox) : Bool :=
  let i := meet2 a.region b.region
  decide ((iouQ : Rat) * ((area2 a.region : Rat) + (area2 b.region : Rat) - i) < 65536 * i)

/-- Compares a box with the boxes kept, in the order in which they were kept: whether it is suppressed, and
the comparisons made. -/
def tryKeep (agn : Bool) (iouQ : Nat) (b : DfinBox) : List DfinBox → Nat → Bool × Nat
  | [], n => (false, n)
  | k :: ks, n =>
    if agn || k.cls == b.cls then
      if suppresses iouQ k b then (true, n + 1) else tryKeep agn iouQ b ks (n + 1)
    else tryKeep agn iouQ b ks n

/-- Suppression (R305): the boxes kept, those suppressed and the comparisons made. -/
def suppress (agn : Bool) (iouQ outK : Nat) : List DfinBox → List DfinBox → Nat → Nat → List DfinBox × Nat × Nat
  | [], kept, ns, nc => (kept, ns, nc)
  | b :: bs, kept, ns, nc =>
    if outK ≤ kept.length then (kept, ns, nc)
    else
      let (gone, n) := tryKeep agn iouQ b kept nc
      if gone then suppress agn iouQ outK bs kept (ns + 1) n else suppress agn iouQ outK bs (kept ++ [b]) ns n

/-! Running a request (R306 to R309). -/

/-- How the reading of a request's inputs went: valid records, bad boxes, candidates that passed, the status with which it
failed, and whether a record differs from what was announced (R311). -/
structure DfinRun where
  nIn : Nat
  nBad : Nat
  boxes : List DfinBox
  fail : Option Nat
  changed : Bool
  deriving DecidableEq, Repr

/-- The `STATUS` of a failed translation (R306, R309). -/
def dfinStatus (cause : Nat) : Nat := if cause = 3 then 3 else 2

/-- The announced candidates, each once, in order (R300). -/
def DfinReq.announced (r : DfinReq) : NSet :=
  (List.range r.nMax).filter fun i => r.ranges.any fun a => decide (a.1 ≤ i) && decide (i < a.1 + a.2)

/-- Reads the anchor entry of a record in modes 0 and 2 (R301). -/
def Hw.readAnchor (h : Hw) (r : DfinReq) (rec : List Byte) : Except Nat (List Byte) × Hw :=
  if r.mode = 0 ∨ r.mode = 2 then
    match h.readVa 0 r.pid (r.f 24 6 + 16 * field rec 2 1) 16 with
    | (.error (_, c), h) => (.error (dfinStatus c), h)
    | (.ok (bs, st), h) => (if st then .error 1 else .ok bs, h)
  else (.ok (zeros 16), h)

/-- Reads and decodes one announced record (R302, R303). -/
def Hw.readCandidate (h : Hw) (r : DfinReq) (x : DfinRun) (i : Nat) : DfinRun × Hw :=
  if x.fail.isSome then (x, h)
  else
    match h.readVa 0 r.pid (r.f 0 6 + 32 * i) 32 with
    | (.error (_, c), h) => ({ x with fail := some (dfinStatus c) }, h)
    | (.ok (rec, st), h) =>
      let x := if (r.seen.find i).any (· ≠ rec) then { x with changed := true } else x
      if st then ({ x with fail := some 1 }, h)
      else if ! bit (field rec 0 1) 0 then (x, h)
      else
        let x := { x with nIn := x.nIn + 1 }
        let score := field rec 8 4
        if f32v score == .nan || (f32v score).lt (f32v (r.f 52 4)) then (x, h)
        else
          match h.readAnchor r rec with
          | (.error s, h) => ({ x with fail := some s }, h)
          | (.ok a, h) =>
            let b := r.decodeBox rec a
            match r.region b with
            | none => ({ x with nBad := x.nBad + 1 }, h)
            | some g =>
              ({ x with boxes := x.boxes ++
                  [{ idx := i, cls := field rec 1 1, score := score, vals := b, region := g }] }, h)

/-- A box record (R306). -/
def DfinReq.boxRecord (r : DfinReq) (b : DfinBox) : List Byte :=
  leBytes 2 b.idx ++ leBytes 1 b.cls ++ leBytes 1 (b2n r.bev) ++ leBytes 4 b.score ++
  (List.range 5).flatMap (fun i => leBytes 4 (b.vals.getD i 0)) ++ zeros 4

/-- ⌈log2 n⌉. -/
def clog2 (n : Nat) : Nat := if n ≤ 1 then 0 else Nat.log2 (n - 1) + 1

/-- The cycles of a request (R308). -/
def DfinReq.cycles (r : DfinReq) (u nt no c : Nat) : Nat :=
  64 + cdiv u 2 + (if nt ≤ 1 then 0 else cdiv nt 16 * clog2 nt) + cdiv c (if r.bev then 8 else 64) + cdiv no 2

/-- A summary (R306). -/
def dfinSummary (status nOut nIn nBad nPass nPre nSupp compares closed now cycles crc req : Nat) : List Byte :=
  leBytes 2 status ++ leBytes 2 nOut ++ leBytes 4 nIn ++ leBytes 4 nBad ++ leBytes 4 nPass ++ leBytes 4 nPre ++
  leBytes 4 nSupp ++ leBytes 8 compares ++ leBytes 8 closed ++ leBytes 8 now ++ leBytes 4 cycles ++
  leBytes 4 crc ++ leBytes 2 req ++ zeros 6

/-- The addition of a request (R307); an object that the partition does not hold is blocked (R88). -/
def Hw.dfinAdd (h : Hw) (r : DfinReq) : Hw := (h.sobAccess 0 r.pid (r.f 46 2) (.add (r.f 48 4))).2

/-- Writes a summary, and box records before it, then adds; a failure at `OUT_VA` ends the request without
either (R307, R309). -/
def Hw.dfinWrite (h : Hw) (r : DfinReq) (summary boxes : List Byte) : Hw :=
  match h.mem.translateRun r.pid r.outVa (64 + boxes.length) .wr true with
  | .error (a, c) => (h.translationFault 0 c r.pid a).dfinFault r.fin 3 r.pid r.req
  | .ok ps => (h.writePieces r.pid (summary ++ boxes) false ps).dfinAdd r

/-- A request ends on a fault with a summary and the addition (R309): the counts are of what it had read, and the cycles of
such a request are unstated (log entry 56). -/
def Hw.dfinFailed (h : Hw) (r : DfinReq) (x : DfinRun) (status : Nat) : Hw :=
  let h := h.dfinFault r.fin (status - 1) r.pid r.req
  let h := if status = 1 then h.event (srcDfin r.fin) 0x0101 r.pid 0 else h
  let (c, h) := h.free
  h.dfinWrite r (dfinSummary status 0 x.nIn x.nBad x.boxes.length 0 0 0 (r.closedAt.getD h.now) h.now (c.toNat % 2 ^ 32)
    (crc32c []) r.req) []

/-- Results that the manual leaves unpredictable within the partition (R301, R303). -/
def Hw.dfinWild (h : Hw) (r : DfinReq) : Hw :=
  let (bs, h) := h.freeBytes (8 + 4 * min r.outK 2048)
  h.dfinWrite r (bs.take 64) (bs.drop 64)

/-- The work area's contents become unpredictable (R301). -/
def Hw.dfinScratch (h : Hw) (r : DfinReq) : Option Nat × Hw :=
  let (bs, h) := h.freeBytes r.nMax
  match h.writeVa 0 r.pid (r.f 16 6) bs false with
  | (some (_, c), h) => (some (dfinStatus c), h)
  | (none, h) => (none, h)

/-- A request that has read nothing. -/
def DfinRun.start : DfinRun := { nIn := 0, nBad := 0, boxes := [], fail := none, changed := false }

/-- Reads and decodes the announced records in their order. -/
def Hw.readRecords (h : Hw) (r : DfinReq) : DfinRun × Hw :=
  r.announced.foldl (fun (a : DfinRun × Hw) i => a.2.readCandidate r a.1 i) (DfinRun.start, h)

/-- The candidates that enter suppression: the first `PRE_K` by score (R305). -/
def DfinReq.entering (r : DfinReq) (x : DfinRun) : List DfinBox :=
  (sortBy (fun (a b : DfinBox) => ! (f32v a.score).lt (f32v b.score)) x.boxes).take r.preK

/-- Suppression of what a request has read: the boxes kept, those suppressed and the comparisons made (R305). -/
def DfinReq.keeps (r : DfinReq) (x : DfinRun) : List DfinBox × Nat × Nat := suppress r.agn r.iouQ r.outK (r.entering x) [] 0 0

/-- The cycles of a request that has read its records (R308). -/
def DfinReq.uses (r : DfinReq) (x : DfinRun) : Nat :=
  r.cycles r.announced.length x.boxes.length (r.keeps x).1.length (r.keeps x).2.2

/-- Runs a closed request to its end (R302 to R309). -/
def Hw.runRequest (h : Hw) (r : DfinReq) : Hw :=
  if r.stained then h.dfinFailed r DfinRun.start 1
  else if ! r.inRange then h.dfinWild r
  else
    let (x, h) := h.readRecords r
    if x.changed then h.dfinWild r
    else match x.fail with
    | some st => h.dfinFailed r x st
    | none =>
      match h.dfinScratch r with
      | (some st, h) => h.dfinFailed r x st
      | (none, h) =>
        let (kept, ns, nc) := r.keeps x
        let boxes := kept.flatMap r.boxRecord
        h.dfinWrite r (dfinSummary 0 kept.length x.nIn x.nBad x.boxes.length (r.entering x).length ns nc
          (r.closedAt.getD h.now) h.now (r.uses x) (crc32c boxes) r.req) boxes

/-- A request leaves its finisher, and counts as finished. -/
def Hw.dropRequest (h : Hw) (r : DfinReq) : Hw :=
  ({ h with dfin := h.dfin.erase r }).addSat (F.DFIN_LOAD_DONE.nth r.fin) 1

/-- The oldest closed request of a PID on a finisher: within a partition requests run in order of closing
(R310). -/
def Hw.nextRequest (h : Hw) (fin pid : Nat) : Option DfinReq :=
  h.dfin.find? fun r => r.fin == fin && r.pid == pid && r.closedAt.isSome

/-! Cycles and memory traffic (R308 to R310). -/

/-- The cycles that a closed request takes (R308); a request that will fail, or whose results are unpredictable, takes those
that it begins with. -/
def Hw.dfinNeed (h : Hw) (r : DfinReq) : Nat :=
  if r.stained || ! r.inRange then 64
  else
    let x := (h.readRecords r).1
    if x.changed || x.fail.isSome then 64 else r.uses x

/-- The lines of virtual memory that a request reads and writes, each with whether it is written: its descriptor, the
announced records, and its summary with its boxes (R308, R309; log entry 56). -/
def Hw.dfinLines (h : Hw) (r : DfinReq) : List (Nat × Bool) :=
  let reads := r.announced.foldl (fun s i => NSet.add s ((r.f 0 6 + 32 * i) / 64)) ([] : NSet)
  let x := (h.readRecords r).1
  let boxes := if r.stained || x.fail.isSome then 0 else if ! r.inRange || x.changed then min r.outK 2048 else (r.keeps x).1.length
  [(r.descVa / 64, false), (r.descVa / 64 + 1, false)] ++ reads.map (fun l => (l, false)) ++
  (upto (r.outVa / 64) (1 + cdiv boxes 2)).map fun l => (l, true)

/-- Replaces a request. -/
def Hw.putRequest (h : Hw) (r r' : DfinReq) : Hw := { h with dfin := h.dfin.map fun x => if x = r then r' else x }

/-- A request's memory traffic goes on as far as its partition's buckets let it. -/
def Hw.dfinMove (h : Hw) (r : DfinReq) : DfinReq × Hw :=
  let (n, h) := h.payLines r.pid ((h.dfinLines r).drop r.paid)
  let r' := { r with paid := r.paid + n }
  (r', h.putRequest r r')

/-- The share of a class in a finisher's cycles of a stroke (R310). -/
def dfinShare (c : Nat) : Nat := [400, 300, 200, 100].getD c 0

/-- The first requests of the partitions of a class that have closed requests on a finisher, by PID. -/
def Hw.dfinFronts (h : Hw) (fin c : Nat) : List DfinReq :=
  (h.parts.filter fun e => e.2.cls == c).filterMap fun e => h.nextRequest fin e.1

/-- The other classes that leave cycles of a finisher unused: no request of theirs needs any. -/
def Hw.dfinIdle (h : Hw) (fin c : Nat) : List Nat :=
  (List.range 4).filter fun k => k ≠ c && (h.dfinFronts fin k).all fun r => decide (h.dfinNeed r ≤ r.spent)

/-- The cycles of a stroke that a class may still use (R310): what is left of its share, and for the first class with a closed
request what the others leave unused. -/
def Hw.dfinLeft (h : Hw) (fin c : Nat) : Nat :=
  let own (k : Nat) : Nat := dfinShare k - h.fab.dfinUsed.getD 0 (4 * fin + k)
  let first := firstNat 4 fun k => ! (h.dfinFronts fin k).isEmpty
  own c + if first = some c then sumNat ((h.dfinIdle fin c).map own) else 0

/-- Takes cycles for a class: first of its own share, then of those of the classes that leave theirs. -/
def Hw.dfinSpend (h : Hw) (fin c n : Nat) : Hw :=
  let m := ((c :: h.dfinIdle fin c).foldl (fun (x : SMap Nat × Nat) k =>
    let used := x.1.getD 0 (4 * fin + k)
    let take := min x.2 (dfinShare k - used)
    (SMap.putD 0 x.1 (4 * fin + k) (used + take), x.2 - take)) (h.fab.dfinUsed, n)).1
  { h with fab := { h.fab with dfinUsed := m } }

/-- A turn of a request: at most `n` cycles of those that its class may still use, and no more than it needs. -/
def Hw.dfinTurn (h : Hw) (r : DfinReq) (n : Nat) : DfinReq × Hw :=
  let c := h.clsOf r.pid
  let k := min n (min (h.dfinNeed r - r.spent) (h.dfinLeft r.fin c))
  let r' := { r with spent := r.spent + k }
  let h := (h.dfinSpend r.fin c k).putRequest r r'
  (r', { h with fab := { h.fab with dfinTurn := h.fab.dfinTurn.put (4 * r.fin + c) r.pid } })

/-- The partition of a class whose turn it is: the next by PID after the last served that has a closed request which needs
cycles. -/
def Hw.dfinNext (h : Hw) (fin c : Nat) : Option DfinReq :=
  let rs := (h.dfinFronts fin c).filter fun r => decide (r.spent < h.dfinNeed r)
  match h.fab.dfinTurn.find (4 * fin + c) with
  | some l => (rs.find? fun r => decide (l < r.pid)).orElse fun _ => rs.head?
  | none => rs.head?

/-- The rest of a stroke's cycles of a finisher, in quanta of 50 (R310): each class its share, then the first class with a
closed request what others leave. -/
def Hw.dfinQuanta (h : Hw) (fin c : Nat) : Nat → Hw
  | 0 => h
  | n + 1 =>
    match h.dfinNext fin c with
    | some r => if h.dfinLeft fin c = 0 then h else (h.dfinTurn r 50).2.dfinQuanta fin c n
    | none => h

/-- What the finishers have done in a stroke that ends: the cycles that no request had yet received, and the memory traffic
that the buckets bear; the next stroke has cycles of its own. -/
def Hw.dfinStroke (h : Hw) : Hw :=
  if h.dfin.isEmpty then h
  else
    let h := (List.range 4).foldl (fun h fin => [0, 1, 2, 3, 0, 1, 2, 3].foldl (fun h c => h.dfinQuanta fin c 64) h) h
    let h := (h.dfin.filter fun r => r.closedAt.isSome && h.nextRequest r.fin r.pid == some r).foldl (fun h r => (h.dfinMove r).2) h
    { h with fab := { h.fab with dfinUsed := [] } }

/-- The cycles that a partition may claim within a stroke: its part of what its class may still use (R310). -/
def Hw.dfinPart (h : Hw) (r : DfinReq) : Nat :=
  let c := h.clsOf r.pid
  h.dfinLeft r.fin c / max 1 (h.dfinFronts r.fin c).length

/-- `DFIN_REQUEST_DONE` (R307): the oldest closed request of a partition on a finisher runs to its end, once it has had the
cycles that it takes (R308, R310) and the buckets have borne its memory traffic (R309); until then it goes on as far as it
can. -/
def execDfinRequestDone (fin : Fin 4) (pid : Fin 256) (s : State) : Host.Outcome State Fault Refusal :=
  s.next fun h =>
    if h.fabricOn then
      match h.nextRequest fin.val pid.val with
      | some r =>
        let (r, h) := h.dfinMove r
        let (r, h) := h.dfinTurn r (h.dfinPart r)
        if r.spent < h.dfinNeed r ∨ r.paid < (h.dfinLines r).length then h
        else ((h.dropRequest r).runRequest r).showDfin
      | none => h
    else h

/-- The requests of a partition end with no summary and no addition (R311, `PARTITION_RESET`). -/
def Hw.dfinPartReset (h : Hw) (pid : Nat) : Hw := ({ h with dfin := h.dfin.filter fun r => r.pid ≠ pid }).showDfin

/-- The requests at a finisher end, those included that a reset of its die had ended already; firmware writes each summary with `STATUS` 4 and performs the addition
(R311, `DIE_RESET` and `MODULE_WARM`). -/
def Hw.dfinDieReset (h : Hw) (fin : Nat) : Hw :=
  let rs := h.dfin.filter fun r => r.fin % 4 == fin
  (rs.foldl (fun (h : Hw) (r : DfinReq) =>
    h.dfinWrite r (dfinSummary 4 0 0 0 0 0 0 0 (r.closedAt.getD 0) h.now 0 (crc32c []) r.req) [])
    { h with dfin := h.dfin.filter fun r => r.fin % 4 ≠ fin }).showDfin

end Sys2Proof.Machine
end

