-- ==== Sys2Proof/Machine/Images.lean ====
section
/-! DEFINITION. Lylen model images: layout and the checks of its bytes (R227 to R231), and the claims of
registered images on tiles (R232). -/

namespace Sys2Proof.Machine

open Sys2Proof

/-- A check of an image: the byte offset of the first failing field (R231). -/
abbrev Chk (α : Type) := Except Nat α

/-- Fails at an offset unless a condition holds. -/
def chk (c : Bool) (off : Nat) : Chk Unit := if c then .ok () else .error off

/-- Runs a check over the numbers below `n` and collects the results. -/
def chkAll {α : Type} (n : Nat) (f : Nat → Chk α) : Chk (List α) := (List.range n).mapM f

/-- A record with a range of SRAM: first and last 4 KiB unit. -/
def TileEntry.lo (e : TileEntry) : Nat := e.first * 4096
def TileEntry.hi (e : TileEntry) : Nat := (e.last + 1) * 4096

/-- A load segment (R229). -/
def parseLoad (bs : List Byte) (lo hi o : Nat) : Chk LoadSeg := do
  let n := field bs (o + 12) 4
  let a := field bs (o + 8) 4
  chk (decide (field bs o 8 + n ≤ bs.length)) o
  chk (a % 32 == 0 && decide (lo ≤ a)) (o + 8)
  chk (n % 32 == 0 && decide (32 ≤ n) && decide (n ≤ 524288) && decide (a + n ≤ hi)) (o + 12)
  pure { src := field bs o 8, addr := a, bytes := n }

/-- A held-input area with its senders (R154, R229). -/
def parseArea (bs : List Byte) (lo hi o : Nat) : Chk Area := do
  let n := field bs (o + 1) 1
  let a := field bs (o + 4) 4
  let half := field bs (o + 8) 4 * 32
  let so := field bs (o + 16) 8
  chk (decide (field bs o 1 < 16)) o
  chk (decide (1 ≤ n) && decide (n ≤ 32)) (o + 1)
  chk (zeroIn bs (o + 2) 2) (o + 2)
  chk (decide (lo ≤ a)) (o + 4)
  chk (decide (32 ≤ half) && decide (half ≤ 8192 * 32) && decide (a + 2 * half ≤ hi)) (o + 8)
  chk (zeroIn bs (o + 12) 4) (o + 12)
  chk (decide (so + 2 * n ≤ bs.length)) (o + 16)
  let ss ← chkAll n fun i => do
    let x := field bs (so + 2 * i) 1
    let y := field bs (so + 2 * i + 1) 1
    chk (decide (x < 32)) (so + 2 * i)
    chk (decide (y < 32)) (so + 2 * i + 1)
    pure (32 * y + x)
  pure { slot := field bs o 1, base := a, half := half, senders := ss, got := [] }

/-- A slice run (R229). -/
def parseRun (bs : List Byte) (o : Nat) : Chk Run := do
  let p := field bs (o + 8) 1
  chk (decide (1 ≤ field bs (o + 4) 4)) (o + 4)
  chk (decide (1 ≤ p) && decide (p ≤ 4)) (o + 8)
  chk (zeroIn bs (o + 9) 7) (o + 9)
  let ss ← chkAll 4 fun i => do
    let w := field bs (o + 16 + 4 * i) 4
    chk (if i < p then decide (w < 2 ^ 19) && w % 64 == 0 else w == 0) (o + 16 + 4 * i)
    pure w
  pure { kFirst := field bs o 4, kCount := field bs (o + 4) 4, p := p, slices := ss.take p }

/-- A tile entry with its records (R228, R229). -/
def parseTile (bs : List Byte) (dup : Bool) (o : Nat) : Chk TileEntry := do
  let f (i n : Nat) : Nat := field bs (o + i) n
  let lo := f 4 1 * 4096
  let hi := (f 5 1 + 1) * 4096
  chk (decide (f 0 1 < 32)) o
  chk (decide (f 1 1 < 32)) (o + 1)
  chk (decide (f 2 1 < 2) && (dup || f 2 1 == 0)) (o + 2)
  chk (zeroIn bs (o + 3) 1) (o + 3)
  chk (decide (f 4 1 < 128)) (o + 4)
  chk (decide (f 5 1 < 128) && decide (f 4 1 ≤ f 5 1)) (o + 5)
  chk (zeroIn bs (o + 6) 2) (o + 6)
  chk (f 8 4 % 32 == 0 && decide (lo ≤ f 8 4)) (o + 8)
  chk (f 12 4 % 32 == 0 && decide (f 12 4 ≤ hi) && decide (f 8 4 + 256 ≤ f 12 4) && decide (f 12 4 ≤ f 8 4 + 65536)) (o + 12)
  chk (f 16 4 % 32 == 0 && decide (lo ≤ f 16 4) && decide (f 16 4 + 128 ≤ hi)) (o + 16)
  chk (decide (f 22 2 ≤ 16)) (o + 22)
  chk (zeroIn bs (o + 26) 6) (o + 26)
  chk (decide (f 32 8 + 16 * f 20 2 ≤ bs.length)) (o + 32)
  chk (decide (f 40 8 + 24 * f 22 2 ≤ bs.length)) (o + 40)
  chk (decide (f 48 8 + 32 * f 24 2 ≤ bs.length)) (o + 48)
  chk (zeroIn bs (o + 56) 8) (o + 56)
  let ls ← chkAll (f 20 2) fun i => parseLoad bs lo hi (f 32 8 + 16 * i)
  let as ← chkAll (f 22 2) fun i => parseArea bs lo hi (f 40 8 + 24 * i)
  let rs ← chkAll (f 24 2) fun i => parseRun bs (f 48 8 + 32 * i)
  pure { logical := 32 * f 1 1 + f 0 1, copy := f 2 1, first := f 4 1, last := f 5 1, stkLo := f 8 4,
         stkHi := f 12 4, arg := f 16 4, loads := ls, areas := as, runs := rs }

/-- The tiles of a way with their copies, as a set. -/
def wayTiles (w : List TileEntry) : NSet := w.foldl (fun m e => NSet.add m (e.copy * 1024 + e.logical)) []

/-- A way (R228). -/
def parseWay (bs : List Byte) (dup : Bool) (o : Nat) : Chk (List TileEntry) := do
  let n := field bs (o + 8) 2
  let t := field bs o 8
  chk (decide (t + 64 * n ≤ bs.length)) o
  chk (decide (1 ≤ n) && decide (n ≤ 2048)) (o + 8)
  chk (zeroIn bs (o + 10) 6) (o + 10)
  let es ← chkAll n fun i => parseTile bs dup (t + 64 * i)
  chk ((wayTiles es).length == es.length) t
  pure es

/-- A milestone (R230). -/
def parseMile (bs : List Byte) (dup : Bool) (o : Nat) : Chk Milestone := do
  (List.range 4).forM fun i => chk (decide (field bs (o + i) 1 < 32) && (dup || decide (i < 2) || field bs (o + i) 1 == 0)) (o + i)
  chk (zeroIn bs (o + 4) 4) (o + 4)
  pure { r0 := 32 * field bs (o + 1) 1 + field bs o 1, r1 := 32 * field bs (o + 3) 1 + field bs (o + 2) 1,
         ks := (List.range 8).map fun b => field bs (o + 8 + 4 * b) 4 }

/-- Reads and checks an image of `n` bytes (R227 to R230; outcome `FORMAT` of R231). -/
def parseImage (bs : List Byte) (va n : Nat) : Chk Model := do
  let f (i k : Nat) : Nat := field bs i k
  let fl := f 6 2
  let dup := bit fl 0
  let nb := f 31 1
  let nm := f 32 1
  let batches := (List.range 8).map fun i => f (40 + 2 * i) 2
  let js := (List.range 8).map fun i => f (56 + 4 * i) 4
  chk (f 0 4 == 0x32494D4C) 0
  chk (f 4 2 == 2) 4
  chk (decide (fl < 16)) 6
  chk (bit fl 2 || f 16 8 == 0) 16
  chk (decide (1 ≤ f 30 1) && decide (f 30 1 ≤ 4)) 30
  chk (decide (1 ≤ nb) && decide (nb ≤ 8)) 31
  chk (decide (nm ≤ 64)) 32
  chk (zeroIn bs 33 3) 33
  (List.range 8).forM fun i =>
    chk (if i < nb then decide ((if i = 0 then 0 else batches.getD (i - 1) 0) < batches.getD i 0)
         else batches.getD i 0 == 0) (40 + 2 * i)
  (List.range nb).forM fun i => chk (decide (1 ≤ js.getD i 0) && decide (js.getD i 0 ≤ 2 ^ 31)) (56 + 4 * i)
  chk (f 88 8 == n) 88
  chk (decide (f 96 8 + 16 * f 30 1 ≤ n)) 96
  chk (decide (f 104 8 + 40 * nm ≤ n)) 104
  chk (zeroIn bs 112 140) 112
  chk (crc32c (putField bs 252 4 0) == f 252 4) 252
  let ways ← chkAll (f 30 1) fun i => parseWay bs dup (f 96 8 + 16 * i)
  chk (ways.all fun w => wayTiles w == wayTiles (ways.headD [])) (f 96 8)
  let miles ← chkAll nm fun i => parseMile bs dup (f 104 8 + 40 * i)
  (List.range nm).forM fun i => (List.range nb).forM fun b =>
    let k := (miles[i]?.map fun m => m.ks.getD b 0).getD 0
    let prev := if i = 0 then none else (miles[i - 1]?).map fun m => m.ks.getD b 0
    chk ((match prev with
          | some p => decide (p < k)
          | none => true) && decide (k + 1 < js.getD b 0)) (f 104 8 + 40 * i + 8 + 4 * b)
  pure { va := va, bytes := n, duplex := dup, isUndercoat := bit fl 1, hasUndercoat := bit fl 2,
         streaming := bit fl 3, imageId := f 8 8, undercoatId := f 16 8, ucHandle := 0, fragTag := f 24 4,
         batches := batches.take nb, js := js.take nb, streamBytes := f 36 4, ways := ways, miles := miles,
         state := 0, way := 0, pinned := false, ucPinned := false, useStamp := 0, wantInstall := false,
         installed := 0 }

/-- The key of a partition's model handle. -/
def modelKey (pid hd : Nat) : Nat := pid * 64 + hd

/-- A registered image. -/
def Hw.model (h : Hw) (pid hd : Nat) : Option Model := h.models.find (modelKey pid hd)

/-- Changes a registered image. -/
def Hw.modModel (h : Hw) (pid hd : Nat) (f : Model → Model) : Hw :=
  { h with models := h.models.upd (modelKey pid hd) f }

/-- The ranges that an image claims, as logical tile, first and last unit (R232). -/
def Model.claims (m : Model) : List (Nat × Nat × Nat) := m.ways.flatten.map fun e => (e.logical, e.first, e.last)

/-- The units that a partition claims on a logical tile, as a bit mask of 128 units. -/
def Hw.claimMask (h : Hw) (pid l : Nat) : Nat :=
  (h.models.filter fun e => e.1 / 64 == pid).foldl (fun b e =>
    e.2.claims.foldl (fun b c => if c.1 = l then b ||| ((2 ^ (c.2.2 + 1 - c.2.1) - 1) * 2 ^ c.2.1) else b) b) 0

/-- The contiguous runs of a mask of units: first and last unit. -/
def maskRuns (m : Nat) : List (Nat × Nat) :=
  ((List.range 128).filter fun i => bit m i && (i == 0 || ! bit m (i - 1))).map fun i =>
    (i, i + (((List.range (128 - i)).find? fun k => ! bit m (i + k)).getD (128 - i)) - 1)

/-- The PIDs with registered images. -/
def Hw.modelPids (h : Hw) : NSet := h.models.foldl (fun s e => NSet.add s (e.1 / 64)) []

/-- The SRAM windows that a physical tile must hold: those of the position that it holds, but for PIDs
redirected from it, and those of vacant positions that it substitutes (R76, R160, R232). -/
def Hw.windowRuns (h : Hw) (t : Nat) : List (Nat × Nat × Nat) :=
  match h.logicalOf t with
  | none => []
  | some l =>
    h.modelPids.flatMap fun pid =>
      let own := if h.redirect pid l = l then h.claimMask pid l else 0
      let others := (h.fab.redirects.filter fun r => r.pid == pid && r.subst == l).foldl (fun b r =>
        b ||| h.claimMask pid r.vacant) 0
      (maskRuns (own ||| others)).map fun r => (pid, r.1, r.2)

/-- The register value of an SRAM window (R109). -/
def swinWord (pid first last : Nat) : Nat := pid + 256 + first * 65536 + last * 2 ^ 24

/-- The activities whose images claim units of a run on a tile (R76, R232). -/
def Hw.runActs (h : Hw) (t pid first last : Nat) : NSet :=
  let l := (h.logicalOf t).getD 1024
  let here (x : Nat) : Bool := (x == l && h.redirect pid l == l) ||
    h.fab.redirects.any fun r => r.pid == pid && r.subst == l && r.vacant == x
  (h.models.filter fun e => e.1 / 64 == pid).foldl (fun s e =>
    if e.2.claims.any fun c => here c.1 && decide (c.2.1 ≤ last) && decide (first ≤ c.2.2) then
      match h.stn.active.actOf pid e.2.fragTag with
      | some a => NSet.add s a
      | none => s
    else s) []

/-- Sets a tile's SRAM windows from the claims, and the activities that each serves (R76). -/
def Hw.setWindows (h : Hw) (t : Nat) : Hw :=
  let rs := h.windowRuns t
  let h := (List.range 8).foldl (fun h i =>
    h.setReg (0x100 + t) (0x20 + 8 * i) (match rs[i]? with
      | some (p, a, b) => swinWord p a b
      | none => 0)) h
  let acts := (List.range (min 8 rs.length)).foldl (fun (m : SMap NSet) i =>
    match rs[i]? with
    | some (p, a, b) => m.put i (h.runActs t p a b)
    | none => m) []
  h.modTile t fun x => { x with winAct := acts }

/-- The tiles that serve an image's positions. -/
def Hw.modelTiles (h : Hw) (pid : Nat) (m : Model) : NSet :=
  m.claims.foldl (fun s c =>
    match h.physFor pid c.1 with
    | some t => NSet.add s t
    | none => s) []

/-- Zeroes the units of a mask on a tile, clearing their stain (R232). -/
def Hw.zeroUnits (h : Hw) (t m : Nat) : Hw :=
  h.modTile t fun x =>
    { x with sram := x.sram.filter fun e => ! bit m (e.1 / 4096)
             stain := x.stain.filter fun g => ! bit m (g / 128)
             badGranules := x.badGranules.filter fun g => ! bit m (g / 128)
             weakGranules := x.weakGranules.filter fun g => ! bit m (g / 128) }

/-- Whether an image's claims conflict with another partition's, or break the limit of 8 windows on a
tile (R232): the index of the failing tile entry within the first way that fails. -/
def Hw.claimConflict (h : Hw) (pid : Nat) (m : Model) : Option Nat :=
  let other (l : Nat) : Nat := (h.modelPids.filter (· ≠ pid)).foldl (fun b q => b ||| h.claimMask q l) 0
  let mine (l : Nat) : Nat := m.claims.foldl (fun b c =>
    if c.1 = l then b ||| ((2 ^ (c.2.2 + 1 - c.2.1) - 1) * 2 ^ c.2.1) else b) (h.claimMask pid l)
  let runs (l : Nat) : Nat :=
    (maskRuns (mine l)).length +
      sumNat ((h.modelPids.filter (· ≠ pid)).map fun q => (maskRuns (h.claimMask q l)).length)
  m.ways.findSome? fun w => firstBad w fun _ e =>
    let r := (2 ^ (e.last + 1 - e.first) - 1) * 2 ^ e.first
    (r &&& other e.logical) == 0 && decide (runs e.logical ≤ 8)

/-- Registers an image: claims its units, zeroing the new ones, and sets the windows (R231, R232). -/
def Hw.register (h : Hw) (pid hd : Nat) (m : Model) : Hw :=
  let before (l : Nat) : Nat := h.claimMask pid l
  let h' := { h with models := h.models.put (modelKey pid hd) m }
  let ls := m.claims.foldl (fun s c => NSet.add s c.1) ([] : NSet)
  ls.foldl (fun h' l =>
    match h'.physFor pid l with
    | some t => (h'.zeroUnits t (h'.claimMask pid l ^^^ before l)).setWindows t
    | none => h') h'

/-- Ends a registration (R232, R237). -/
def Hw.unregister (h : Hw) (pid hd : Nat) : Hw :=
  match h.model pid hd with
  | none => h
  | some m =>
    let ts := h.modelTiles pid m
    let h := { h with models := h.models.del (modelKey pid hd) }
    ts.foldl (fun h t => h.setWindows t) h

/-- Whether two lists of tile entries overlap (R235). -/
def waysMeet (a b : List TileEntry) : Bool :=
  a.any fun x => b.any fun y => x.logical == y.logical && decide (x.first ≤ y.last) && decide (y.first ≤ x.last)

/-- An image's occupied way (R234). -/
def Model.occupied (m : Model) : Option (List TileEntry) := if m.state = 0 then none else m.ways[m.way]?

/-- Whether a begun job that has not completed uses an image (R234). -/
def Hw.inUse (h : Hw) (pid hd : Nat) : Bool :=
  h.jobs.any fun j => j.pid == pid && (j.begun.isSome || j.beginsEver) &&
    (j.handle == hd || ((h.model pid j.handle).any fun m => m.hasUndercoat && m.ucHandle == hd))

/-- The other images of a partition. -/
def Hw.others (h : Hw) (pid hd : Nat) : List (Nat × Model) :=
  ((h.models.filter fun e => e.1 / 64 == pid && e.1 % 64 ≠ hd)).map fun e => (e.1 % 64, e.2)

/-- The other images of a partition whose occupied way overlaps a way. -/
def Hw.victims (h : Hw) (pid hd : Nat) (w : List TileEntry) : List (Nat × Model) :=
  (h.others pid hd).filter fun e => e.2.occupied.any fun o => waysMeet o w

/-- Whether a way is blocked by a pinned or undercoat-pinned image (R237, R240). -/
def Hw.pinBlocked (h : Hw) (pid hd : Nat) (w : List TileEntry) : Bool :=
  (h.victims pid hd w).any fun e => e.2.pinned || e.2.ucPinned

/-- Whether a way is blocked at installation (R235, step 1). -/
def Hw.wayBlocked (h : Hw) (pid hd : Nat) (w : List TileEntry) : Bool :=
  (h.victims pid hd w).any fun e => e.2.pinned || e.2.ucPinned || h.inUse pid e.1

/-- The way that R235 chooses: one that overlaps nothing, else the one whose most recent victim is
oldest, else none. -/
def Hw.chooseWay (h : Hw) (pid hd : Nat) (m : Model) : Option Nat :=
  let is := (List.range m.ways.length).filter fun i => ! h.wayBlocked pid hd (m.ways.getD i [])
  let stamp (i : Nat) : Nat := (h.victims pid hd (m.ways.getD i [])).foldl (fun s e => max s e.2.useStamp) 0
  match is.find? fun i => (h.victims pid hd (m.ways.getD i [])).isEmpty with
  | some i => some i
  | none => is.foldl (fun b i =>
      match b with
      | none => some i
      | some j => if stamp i < stamp j then some i else some j) none

/-- Takes a partition's bindings of an image off every tile. -/
def Hw.unbind (h : Hw) (pid hd : Nat) : Hw :=
  { h with tiles := h.tiles.map fun e =>
      (e.1, { e.2 with binds := e.2.binds.filter fun b => ! (b.pid == pid && b.handle == hd) }) }

/-- An image returns to `REGISTERED` (R235, R237, R239). -/
def Hw.toRegistered (h : Hw) (pid hd : Nat) : Hw :=
  (h.unbind pid hd).modModel pid hd fun m => { m with state := 0, way := 0, installed := 0 }

/-- Starts an installation under R235, or lets the image wait for a way. -/
def Hw.install (h : Hw) (pid hd : Nat) : Hw :=
  match h.model pid hd with
  | none => h
  | some m =>
    if m.state ≠ 0 then h
    else
      match h.chooseWay pid hd m with
      | none => h.modModel pid hd fun m => { m with wantInstall := true }
      | some i =>
        let h := (h.victims pid hd (m.ways.getD i [])).foldl (fun h e => h.toRegistered pid e.1) h
        h.modModel pid hd fun m => { m with state := 1, way := i, installed := 0, wantInstall := false }

/-- Reconsiders the waiting images of a partition, in handle order (R235, R238). -/
def Hw.reinstall (h : Hw) (pid : Nat) : Hw :=
  ((h.models.filter fun e => e.1 / 64 == pid && e.2.wantInstall).map fun e => e.1 % 64).foldl (fun h hd => h.install pid hd) h

/-- The bytes that an installation writes. -/
def Model.loadBytes (m : Model) : Nat :=
  sumNat ((m.ways.getD m.way []).map fun e => sumNat (e.loads.map (·.bytes)))

/-- Binds an installed image on its tiles (R78, R154, R241). -/
def Hw.bindModel (h : Hw) (pid hd : Nat) (m : Model) : Hw :=
  (m.ways.getD m.way []).foldl (fun h e =>
    match h.physFor pid e.logical with
    | some t => h.modTile t fun x => { x with binds := x.binds ++
        [{ pid := pid, pos := e.logical, handle := hd, copy := e.copy, stkLo := e.stkLo, stkHi := e.stkHi, arg := e.arg,
           areas := e.areas, runs := e.runs }] }
    | none => h) (h.unbind pid hd)

/-- One load segment is read from the image and written into a tile, a move under R105 (R236). -/
def Hw.loadSegment (h : Hw) (pid t va : Nat) (s : LoadSeg) : Except (Nat × Nat) Hw :=
  match h.mem.translateRun pid (va + s.src) s.bytes .rd true with
  | .error e => .error e
  | .ok ps =>
    let (bs, h) := ps.foldl (fun (r : List SByte × Hw) p =>
      let (b, st, h) := r.2.portRead pid p.1 p.2
      let ok := h.portPermits pid p.1 false
      (r.1 ++ (List.range b.length).map fun i =>
        (b.getD i 0, if ok then h.gStained ((p.1 + i) / 64 * 2) || h.gStained ((p.1 + i) / 64 * 2 + 1) else st), h)) ([], h)
    .ok (h.wrSram t pid s.addr bs)

/-- All load segments of an image, or the first failing translation. -/
def Hw.loadAll (h : Hw) (pid va : Nat) : List (Nat × LoadSeg) → Except (Nat × Nat × Hw) Hw
  | [] => .ok h
  | (t, s) :: l =>
    match h.loadSegment pid t va s with
    | .error (a, c) => .error (a, c, h)
    | .ok h => h.loadAll pid va l

end Sys2Proof.Machine
end

