-- ==== Sys2Proof/Machine/SyncCmds.lean ====
section
/-! DEFINITION. The sync-object commands 0x20 to 0x23 (R591, R592). -/

namespace Sys2Proof.Machine

open Sys2Proof

/-- The object of a sync-object command is a handle: the issuer must hold it (R181, R591). -/
def sobHandle (h : Hw) (c : Cmd) : Bool := h.holdsSob c.pid (c.f 16 2)

/-- The checks of `SOB_SET` (R587). -/
def specSobSet : OpSpec :=
  { opc := 0x20, handles := sobHandle }

/-- `SOB_SET` (R591). -/
def cmdSobSet (q : QRef) (p : Packet) (h : Hw) : Hw :=
  h.issue specSobSet q p fun h c =>
    ((h.sobCommand c (c.f 16 2) (.set (c.f 24 8))).2).done c 0

/-- The checks of `SOB_ADD` (R587). -/
def specSobAdd : OpSpec :=
  { opc := 0x21, handles := sobHandle }

/-- `SOB_ADD` (R591): `RESULT` is the previous value. -/
def cmdSobAdd (q : QRef) (p : Packet) (h : Hw) : Hw :=
  h.issue specSobAdd q p fun h c =>
    let (v, h) := h.sobCommand c (c.f 16 2) (.add (c.f 24 8))
    h.done c v

/-- The watch that a `SOB_WAIT` registers (R591, R592). -/
def waitWatch (h : Hw) (c : Cmd) : Watch :=
  { pid := c.pid, queue := c.queue, num := c.num, gate := false, sob := c.f 16 2, t := c.f 24 8,
    s := c.f 32 8, n := c.f 40 4, fired := 0, regAt := h.now, timeout := c.f 44 4, done := false }

/-- Registers a watch, unless one of this command is already there (restored by R218), and evaluates
it once against the object's current value (R592). -/
def Hw.registerWatch (h : Hw) (w : Watch) : Hw :=
  if h.watches.any fun x => x.pid == w.pid && x.queue == w.queue && x.num == w.num then h
  else ({ h with watches := [] }).settleWatches (h.sob w.sob) (h.watches ++ [w.eval (h.sob w.sob)])

/-- The checks of `SOB_WAIT` (R587). -/
def specSobWait : OpSpec :=
  { opc := 0x22, handles := sobHandle }

/-- `SOB_WAIT` (R591, R592): completes at its watch's last firing. -/
def cmdSobWait (q : QRef) (p : Packet) (h : Hw) : Hw :=
  h.issue specSobWait q p fun h c => h.registerWatch (waitWatch h c)

/-- The checks of `SOB_READ` (R587). -/
def specSobRead : OpSpec :=
  { opc := 0x23, handles := sobHandle }

/-- `SOB_READ` (R591). -/
def cmdSobRead (q : QRef) (p : Packet) (h : Hw) : Hw :=
  h.issue specSobRead q p fun h c =>
    let (v, h) := h.sobAccess 1 c.pid (c.f 16 2) .read
    h.done c v

/-- The timeouts of `SOB_WAIT`s at a stroke (R591, R592): a watch whose `TIMEOUT` strokes from its
registration have passed ends `FAIL_DEADLINE` with the firings consumed. -/
def Hw.watchTimeouts (h : Hw) : Hw :=
  let late (w : Watch) : Bool := ! w.gate && ! w.done && w.timeout ≠ 0 && decide (h.now ≥ w.regAt + w.timeout)
  let h' := (h.watches.filter late).foldl (fun h w => h.finishAt w.pid w.queue w.num 0x3004 0 w.fired {}) h
  { h' with watches := h.watches.filter fun w => ! late w }

/-- `SOB_SET`. -/
def execSobSet (q : QRef) (p : Packet) (s : State) : Host.Outcome State Fault Refusal := s.next (cmdSobSet q p)

/-- `SOB_ADD`. -/
def execSobAdd (q : QRef) (p : Packet) (s : State) : Host.Outcome State Fault Refusal := s.next (cmdSobAdd q p)

/-- `SOB_WAIT`. -/
def execSobWait (q : QRef) (p : Packet) (s : State) : Host.Outcome State Fault Refusal := s.next (cmdSobWait q p)

/-- `SOB_READ`. -/
def execSobRead (q : QRef) (p : Packet) (s : State) : Host.Outcome State Fault Refusal := s.next (cmdSobRead q p)

end Sys2Proof.Machine
end

