-- ==== Sys2Proof/Machine/Jobs.lean ====
section
/-! DEFINITION. Jobs: cancelling and querying (R597), beginning (R241), the deadline monitor (R244, R245,
R247), and the matching of the copies of a `DUPLEX` job (R386 to R391). -/

namespace Sys2Proof.Machine

open Sys2Proof

/-- The accepted job of a partition with a sequence number. -/
def Hw.jobBySeq (h : Hw) (pid seq : Nat) : Option Job := h.jobs.find? fun j => j.pid == pid && j.seq == seq

/-- The activity in which a job runs (R50). -/
def Hw.jobAct (h : Hw) (j : Job) : Option Nat := h.stn.active.actOf j.pid j.fragTag

/-- The group job of a partition with a sequence number, on the manager (R479). -/
def Hw.gjobBySeq (h : Hw) (pid seq : Nat) : Option GJob :=
  h.sys.grp.jobs.find? fun j => j.pid == pid && (h.cmd? j.pid j.queue j.num).any fun c => c.seq == seq && ! c.complete

/-- `JOB_CANCEL` (R597): the job completes `FAIL_CANCELLED` at the next stroke pulse. -/
def jobCancel (h : Hw) (c : Cmd) : Hw :=
  match h.jobBySeq c.pid (c.f 16 6) with
  | none =>
    match h.gjobBySeq c.pid (c.f 16 6) with
    | none => h.done c 0
    | some g =>
      let js := h.sys.grp.jobs.map fun x => if x.gseq = g.gseq then { x with cancelled := some (x.cancelled.getD c.seq) } else x
      { h with sys := { h.sys with grp := { h.sys.grp with jobs := js } } }.done c 1
  | some j =>
    (h.modJob j.pid j.queue j.num fun j =>
      { j with cancelled := some (j.cancelled.getD c.seq) }).done c 1

/-- The checks of `JOB_CANCEL` (R587). -/
def specJobCancel : OpSpec :=
  { opc := 0x41 }

/-- `JOB_CANCEL`. -/
def execJobCancel (q : QRef) (p : Packet) (s : State) : Host.Outcome State Fault Refusal :=
  s.next fun h => h.issue specJobCancel q p jobCancel

/-- The tiles on which a job's model is bound, as copy, logical and physical tile. -/
def Hw.jobTiles (h : Hw) (j : Job) : List (Nat × Nat × Nat) :=
  match h.runModel j with
  | none => []
  | some m => (m.ways.getD m.way []).filterMap fun e => (h.physFor j.pid e.logical).map fun t => (e.copy, e.logical, t)

/-- Whether a job waits for a redo, a test or a relocation (R597, state 5). -/
def Hw.jobPaused (h : Hw) (j : Job) : Bool :=
  j.redo.isSome || j.mismatchedOnce ||
    (h.jobTiles j).any fun e => let x := h.tile e.2.2
      x.testDue || h.inShift e.2.2 || x.overruns.any fun o => o.pid == j.pid && o.seq == j.seq &&
        ! (o.worked && x.slice.any fun s => s.state == .running && s.pid == j.pid && s.seq == j.seq)

/-- The state code of `JOB_QUERY` (R597). -/
def Hw.jobState (h : Hw) (j : Job) : Nat :=
  if j.begun.isNone then
    if ((h.runModel j).map (·.state)) == some 1 then 2 else 1
  else if h.jobPaused j then 5
  else if j.under then 4 else 3

/-- The checks of `JOB_QUERY` (R587). -/
def specJobQuery : OpSpec :=
  { opc := 0x42 }

/-- `JOB_QUERY` (R597). -/
def execJobQuery (q : QRef) (p : Packet) (s : State) : Host.Outcome State Fault Refusal :=
  s.next fun h => h.issue specJobQuery q p fun h c =>
    match h.jobBySeq c.pid (c.f 16 6) with
    | none => h.done c (((h.gjobBySeq c.pid (c.f 16 6)).map fun g => if g.dispatched then 3 else 1).getD 0)
    | some j => h.done c (h.jobState j + h.lowest j % 2 ^ 32 * 16)

/-! Beginning a job (R241). -/

/-- Whether a job has begun, on its image or on its undercoat (R241, R245). -/
def Job.started (j : Job) : Bool := j.begun.isSome || j.beginsEver

/-- The head of an activity (R241): the job that has begun and not completed, else the oldest. -/
def Hw.actHead (h : Hw) (act : Nat) : Option Job :=
  let js := h.jobs.filter fun j => h.jobAct j == some act
  match js.find? fun j => j.started with
  | some j => some j
  | none => js.foldl (fun b j =>
      match b with
      | some i => if j.seq < i.seq then some j else some i
      | none => some j) none

/-- Whether an installation runs in the windows of an activity (R236, R241). -/
def Hw.installingIn (h : Hw) (pid frag : Nat) : Bool :=
  h.models.any fun e => e.1 / 64 == pid && e.2.state == 1 && e.2.fragTag == frag

/-- Whether an image is resident. -/
def Hw.resident (h : Hw) (pid hd : Nat) : Bool := (h.model pid hd).any fun m => m.state == 2

/-- The handles that a job's begin needs resident: the model that it runs and the undercoat that its
image names. -/
def Hw.jobHandles (h : Hw) (j : Job) : List Nat :=
  h.runHandle j :: ((h.model j.pid j.handle).toList.filter (·.hasUndercoat)).map (·.ucHandle)

/-- The handles whose use stamp a job's begin sets: its image and the undercoat that the image names (R234). -/
def Hw.stampHandles (h : Hw) (j : Job) : List Nat :=
  j.handle :: ((h.model j.pid j.handle).toList.filter (·.hasUndercoat)).map (·.ucHandle)

/-- The argument block (R241). -/
def argBlock (j : Job) (va : Nat) : List Byte :=
  ((List.range 15).flatMap fun i => leBytes 8 (j.args.getD i 0)) ++ leBytes 8 va

/-- The command processor writes the argument block to every tile entry of the way, with the partition's
PID (R241). -/
def Hw.writeArgs (h : Hw) (j : Job) (m : Model) : Hw :=
  (m.ways.getD m.way []).foldl (fun h e =>
    match h.physFor j.pid e.logical with
    | some t => h.wrSram t j.pid e.arg (withStain false (argBlock j m.va))
    | none => h) h

/-- A new job of an image finds no half committed and none to be released on the image's tiles. -/
def Hw.clearInputs (h : Hw) (j : Job) : Hw :=
  let hd := h.runHandle j
  (h.jobTiles j).foldl (fun h e => h.modTile e.2.2 fun x =>
    { x with owed := x.owed.filter fun o => ! (o.1 / 1024 == j.pid + 256 * hd)
             binds := x.binds.map fun b =>
               if b.pid == j.pid && b.handle == hd then { b with areas := b.areas.map fun a => { a with got := [] } } else b
             landed := x.landed.filter fun e => ! (e.pid == j.pid && (h.jobTiles j).any fun i => i.2.1 == e.src)
             overruns := x.overruns.filter fun o => ! (o.worked && o.pid == j.pid &&
               (o.seq == j.seq || (h.jobBySeq o.pid o.seq).isNone))
             testDue := false }) h

/-- The `JOB_SUBMIT` of a job has begun, or it is its turn to begin (R200, R241). -/
def Hw.mayBegin (h : Hw) (j : Job) : Bool := (h.cmd? j.pid j.queue j.num).any fun c => c.begun || h.canBegin c

/-- The `JOB_SUBMIT` of a job begins with it (R217, R241). -/
def Hw.beginSubmit (h : Hw) (j : Job) : Hw :=
  match h.cmd? j.pid j.queue j.num with
  | some c => if c.begun then h else h.begin c
  | none => h

/-- A job begins (R234, R241): its begin stroke is the present one. -/
def Hw.beginJob (h : Hw) (j : Job) (m : Model) : Hw :=
  let h := ((h.beginSubmit j).clearInputs j).writeArgs j m
  let h := (h.stampHandles j).foldl (fun h hd => h.modModel j.pid hd fun m => { m with useStamp := h.now }) h
  h.modJob j.pid j.queue j.num fun j =>
    { j with begun := some h.now, beginsEver := j.beginsEver || ! j.under, progress := [], fired := true,
             nextCp := 0, matched := 0, reports := [], redo := none, mismatchedOnce := false }

/-- `JOB_BEGIN` for an activity of a partition (R241): the head of the activity begins when its
conditions hold; when its image is not resident at that point, its installation starts. -/
def Hw.tryBegin (h : Hw) (pid act : Nat) : Hw :=
  match h.actHead act with
  | none => h
  | some j =>
    if j.pid ≠ pid || j.begun.isSome || ! h.mayBegin j || ! h.actOn act || h.isShed pid || j.cancelled.isSome ||
       j.fail.isSome || ! h.gateFired j then h
    else
      let missing := (h.jobHandles j).filter fun hd => ! h.resident pid hd
      if missing ≠ [] then missing.foldl (fun h hd => h.install pid hd) h
      else if h.installingIn pid j.fragTag then h
      else
        match h.runModel j with
        | some m => h.beginJob j m
        | none => h

/-- `JOB_BEGIN` (R241). -/
def execJobBegin (pid : Fin 256) (act : Fin 1024) (s : State) : Host.Outcome State Fault Refusal :=
  s.next fun h => if h.fabricOn then h.tryBegin pid.val act.val else h

/-! The deadline monitor (R244, R245, R247). -/

/-- R of a checkpoint: the job strokes that remain at it, or `none` beyond the final one (R244). -/
def Hw.cpRemaining (j : Job) (m : Model) (c : Nat) : Option Nat :=
  let n := m.miles.length
  let len := m.jobLen j.batch
  if c = 0 then some len
  else if c ≤ n then
    (m.batchIx j.batch).bind fun b => (m.miles[c - 1]?).map fun i => len - 1 - i.ks.getD b 0
  else if c = n + 1 then some 0
  else none

/-- Whether a checkpoint has been reached (R243, R244). -/
def Hw.cpReached (h : Hw) (j : Job) (m : Model) (c : Nat) : Bool :=
  let n := m.miles.length
  if c = 0 then j.begun.isSome
  else if c ≤ n then
    match m.batchIx j.batch, m.miles[c - 1]? with
    | some b, some i =>
      let k := i.ks.getD b 0
      decide (k < j.passed i.r0) && (! m.duplex || decide (k < j.passed (1024 + i.r1)))
    | _, _ => false
  else h.workDone j

/-- Whether `R` window strokes of an activity from stroke `a` on end after the deadline: `W(a, R) > DL`
(R244). -/
def Hw.tooLate (h : Hw) (act a r dl : Nat) : Bool :=
  if r = 0 then decide (dl < a - 1) else decide (h.stn.active.winsBetween act a dl < r)

/-- The projected test of the checkpoints reached in the stroke before stroke `a` (R244): the next
checkpoint, and the first of them that misses. -/
def Hw.project (h : Hw) (j : Job) (m : Model) (act dl a : Nat) : Nat → Nat → Nat × Option Nat
  | 0, c => (c, none)
  | fuel + 1, c =>
    if h.cpReached j m c then
      match Hw.cpRemaining j m c with
      | some r => if h.tooLate act a r dl then (c, some c) else h.project j m act dl a fuel (c + 1)
      | none => (c, none)
    else (c, none)

/-- Whether a model's first checkpoint has fallen due before the present stroke (R244, R245). -/
def Hw.passedDue (h : Hw) (act r dl : Nat) : Bool := h.tooLate act (h.now + 1) r dl

/-- The job leaves its main model for its undercoat (R245): no slice of the main model is bound any
more. -/
def Hw.switchJob (h : Hw) (j : Job) : Hw :=
  let first := if j.beginsEver then h.lowest j else 0
  let h := h.event srcSeq 0x0303 j.pid j.seq
  let h := { h with
    dup := h.dup.filter fun d => ! (d.pid == j.pid && d.seq == j.seq)
    tiles := h.tiles.map fun (e : Nat × Tile) =>
      (e.1, { e.2 with
        idleFor := e.2.idleFor.filter fun x => ! (x.1 == j.pid && x.2.1 == j.queue && x.2.2.1 == j.num)
        overruns := e.2.overruns.map fun (o : Overrun) => if o.pid == j.pid && o.seq == j.seq then { o with seq := 0 } else o }) }
  h.modJob j.pid j.queue j.num fun x =>
    { x with under := true, begun := none, progress := [], nextCp := 0, miss := none, mainDone := first,
             matched := 0, reports := [], redo := none, mismatchedOnce := false }

/-- The module with a stencil bank active: what the deadline monitor evaluates by (R244). -/
def Hw.inBank (h : Hw) (b : Stencil) : Hw := { h with stn := { h.stn with active := b } }

/-- Acts on a miss of an earlier stroke (R245): a switch, or `FAIL_DEADLINE` with the checkpoint. -/
def Hw.actMiss (h : Hw) (b : Stencil) (j : Job) (cp : Nat) : Hw :=
  let failed (h : Hw) : Hw :=
    (h.event srcSeq 0x0304 j.pid j.seq).endJob j 0x3004 (cp + if j.under then 0x100 else 0)
  match (h.inBank b).jobAct j, j.dl, (h.model j.pid j.handle) with
  | some act, some dl, some m =>
    if j.under || ! m.hasUndercoat then failed h
    else
      match h.model j.pid m.ucHandle with
      | some u => if (h.inBank b).passedDue act (u.jobLen j.batch) dl then failed h else h.switchJob j
      | none => failed h
  | _, _, _ => failed h

/-- Whether a tile redoes a job stroke of a job, and the redo, whose stroke has ended, has overrun or ended in FAULT_STOP
(R66, R103). -/
def Hw.secondFailure (h : Hw) (j : Job) : Bool :=
  h.tiles.any fun e => e.2.slice.any fun s =>
    s.pid == j.pid && s.seq == j.seq && s.handle == h.runHandle j && decide (e.2.pulsedAt < h.now) &&
    (s.state == .running || s.state == .faultStop) &&
    e.2.overruns.any fun o => o.worked && o.pid == j.pid && o.seq == j.seq && o.k == s.k

/-- One evaluation of the deadline monitor for a job by a stencil bank (R244, R245): a miss found in an earlier stroke is
acted on; otherwise the checkpoints reached in the stroke before `a` are projected, and a checkpoint
whose due stroke has passed is a miss of this stroke.  During the resolution of a duplex mismatch the monitor
waits, and a redo that fails in the same stroke goes before a miss (R247). -/
def Hw.missStep (h : Hw) (b : Stencil) (a : Nat) (j : Job) : Hw :=
  match (h.inBank b).jobAct j, j.dl, h.runModel j with
  | some act, some dl, some m =>
    let noted (h : Hw) (c : Nat) : Hw := h.modJob j.pid j.queue j.num fun j => { j with miss := some (c, h.now) }
    if j.redo.isSome || j.mismatchedOnce || h.secondFailure j then h
    else
      match j.miss with
      | some (c, s) => if s < h.now then h.actMiss b j c else h
      | none =>
        match (h.inBank b).project j m act dl a (m.miles.length + 2) j.nextCp with
        | (_, some c) => if a = h.now then h.actMiss b j c else noted h c
        | (c, none) =>
          let h := h.modJob j.pid j.queue j.num fun j => { j with nextCp := c }
          match Hw.cpRemaining j m c with
          | some r => if (h.inBank b).passedDue act r dl then noted h c else h
          | none => h
  | _, _, _ => h

/-- `DEADLINE_MISS` (R245): the monitor's evaluation of one accepted job within a stroke, in which every checkpoint reached
since its pulse counts for this stroke. -/
def execDeadlineMiss (pid : Fin 256) (seq : BitVec 48) (s : State) : Host.Outcome State Fault Refusal :=
  s.next fun h =>
    if h.sequencing then
      match h.jobBySeq pid.val seq.toNat with
      | some j => h.missStep h.stn.active (h.now + 1) j
      | none => h
    else h

/-- What a job has met in the stroke that ends, settled at the pulse (R247): a cancellation, then its first
failure. -/
def Hw.settleJob (h : Hw) (j : Job) : Hw :=
  match j.cancelled, j.fail with
  | some s, _ => h.endJob j 0x3006 s
  | none, some (st, d) => h.endJob j st d
  | none, none => h

/-- Credits the tiles that had no slice in the stroke that ends (R242). -/
def Hw.creditIdle (h : Hw) (t : Nat) : Hw :=
  match (h.tile t).idleFor with
  | some (p, q, n, c, k) =>
    let h := (h.credit p q n c (k + 1)).modTile t fun x => { x with idleFor := none }
    h.settleDone p q n
  | none => h

/-! Matching the copies of a `DUPLEX` job (R386 to R391). -/

/-- The physical tiles of a job's copy on a die, with their logical tiles. -/
def Hw.copyTiles (h : Hw) (j : Job) (copy die : Nat) : List (Nat × Nat) :=
  ((h.jobTiles j).filter fun e => e.1 == copy && e.2.2 / 288 == die).map fun e => (e.2.1, e.2.2)

/-- The dies on which a copy of a job has tile entries. -/
def Hw.copyDies (h : Hw) (j : Job) (copy : Nat) : List Nat :=
  (List.range 4).filter fun d => ! (h.copyTiles j copy d).isEmpty

/-- Whether every tile of a copy on a die has passed a job stroke (R386). -/
def Hw.diePassed (h : Hw) (j : Job) (copy die k : Nat) : Bool :=
  let ts := h.copyTiles j copy die
  ! ts.isEmpty && ts.all fun e => decide (k < j.passed (copy * 1024 + e.1))

/-- The sum of the signatures of a copy's tiles on a die for a job stroke; a tile without a slice
contributes 0 (R386). -/
def Hw.dieSum (h : Hw) (j : Job) (copy die k : Nat) : Nat :=
  sumNat ((h.dup.filter fun d => d.pid == j.pid && d.seq == j.seq && d.copy == copy && d.k == k &&
    d.tile / 288 == die).map (·.sig)) % 2 ^ 64

/-- The reports of a copy for a job stroke. -/
def Job.reportsOf (j : Job) (copy k : Nat) : List (Nat × Nat × Nat × Nat × Nat × Nat) :=
  j.reports.filter fun r => r.1 == copy && r.2.2.1 == k

/-- A copy's total for a job stroke, once the reports of all its dies are in (R386). -/
def Hw.copyTotal (h : Hw) (j : Job) (copy k : Nat) : Option Nat :=
  let rs := j.reportsOf copy k
  if (h.copyDies j copy).all fun d => rs.any fun r => r.2.1 == d then
    some (sumNat (rs.map fun r => r.2.2.2.2.1) % 2 ^ 64)
  else none

/-- A count of duplex matching in the `DTM` blocks of both Datums (R408). -/
def Hw.countDuplex (h : Hw) (f : Fld) : Hw := [0, 1].foldl (fun h d => h.addSat (f.datum d) 1) h

/-- A mismatch as the `DTM` blocks of both Datums show it (R408). -/
def Hw.showMismatch (h : Hw) : Hw :=
  [0, 1].foldl (fun h d => h.put (F.DTM_INT_STATUS_MISMATCH.datum d) 1) (h.countDuplex F.DTM_DUPLEX_MISMATCHED)

/-- Both Datums raise `DUPLEX_MISMATCH` (R391). -/
def Hw.mismatchEvent (h : Hw) (pid detail : Nat) : Hw :=
  (h.event (srcDatum 0) 0x0403 pid detail).event (srcDatum 1) 0x0403 pid detail

/-- The slice that a `DUPLEX` tile's held effects belong to, for its messages. -/
def Hw.heldSlice (h : Hw) (d : DupHeld) (j : Job) : Slice :=
  { pid := d.pid, act := (h.jobAct j).getD 0, handle := h.runHandle j, copy := d.copy, queue := j.queue,
    num := j.num, seq := j.seq, k := d.k, list := 0, dup := true, state := .committed, staged := [], sobs := [],
    sent := [], notices := [], sig := 0, readHalves := d.releases, lastMac := none, carryRead := [],
    failed := none, pos := d.pos, fMin := 0, waits := [], portsHeld := [] }

/-- What a tile kept for a job stroke is performed when the job stroke matches (R387, steps 3 and 4). -/
def Hw.performHeld (h : Hw) (j : Job) (d : DupHeld) : Hw :=
  let s := h.heldSlice d j
  let src := d.pos
  match h.performStores d.tile d.pid d.staged with
  | .error (st, e, h) => h.failJob s st e
  | .ok h => ((h.sendNotices s src d.notices).performSobs d.pid d.sobs).sendReleases d.tile s src d.releases

/-- Takes the tokens of held requests in order, as far as they last (R60): the state and the count of those paid. -/
def Hw.payInOrder : List (Hw → Except Hw Hw) → Hw → Hw × Nat
  | [], h => (h, 0)
  | c :: cs, h =>
    match c h with
    | .error h => (h, 0)
    | .ok h => let (h, n) := payInOrder cs h; (h, n + 1)

/-- What the stores and `SOB_OP`s that a tile of a `DUPLEX` job holds take from the partition's buckets, each in its turn
(R60, R387). -/
def heldCosts (d : DupHeld) : List (Hw → Except Hw Hw) :=
  d.staged.map (fun x h =>
    let runs := h.stagedRuns d.tile d.pid [x]
    match h.chargeDma d.tile d.pid runs true with
    | .ok h => .ok h
    | .error dim => .error (h.noteShort d.tile d.pid dim runs true)) ++
  d.sobs.map (fun _ h =>
    match h.chargeEdges d.pid ((hubPath d.pos).map fun e => (e, 1)) with
    | some h => .ok h
    | none => .error (h.noteExhausted d.pid 1))

/-- What a tile holds for a matched job stroke is performed once its requests have their tokens; until then it waits
(R60, R387). -/
def Hw.tryHeld (h : Hw) (j : Job) (d : DupHeld) : Hw :=
  let (h, n) := Hw.payInOrder ((heldCosts d).drop d.paid) h
  let d' := { d with paid := d.paid + n }
  if d'.paid = d.staged.length + d.sobs.length then ({ h with dup := h.dup.erase d }).performHeld j d'
  else { h with dup := h.dup.replace d d' }

/-- What the tiles hold for job stroke k of a job. -/
def Hw.heldOf (h : Hw) (j : Job) (k : Nat) : List DupHeld := h.dup.filter fun d => d.pid == j.pid && d.seq == j.seq && d.k == k

/-- Job stroke k of a job has matched (R387, R391); it counts as matched once everything held for it has been performed. -/
def Hw.matchStroke (h : Hw) (j : Job) (k : Nat) : Hw :=
  let h := (h.heldOf j k).foldl (fun h d => h.tryHeld j d) h
  if ! (h.heldOf j k).isEmpty then h
  else
  let h := h.countDuplex F.DTM_DUPLEX_MATCHED
  let h := if j.mismatchedOnce then (h.countDuplex F.DTM_DUPLEX_RESOLVED).mismatchEvent j.pid (2 ^ 31 + k % 2 ^ 31) else h
  (h.modJob j.pid j.queue j.num fun j =>
    { j with matched := k + 1, mismatchedOnce := false, reports := j.reports.filter fun r => r.2.2.1 ≠ k })

/-- Job stroke k of a job is mismatched (R389): a pause, or after a redo the end of the job. -/
def Hw.mismatchStroke (h : Hw) (j : Job) (k : Nat) : Hw :=
  let h := h.showMismatch
  if j.mismatchedOnce then
    (h.copyDies j 0 ++ h.copyDies j 1).foldl (fun h d => h.detect 0x04 (some d) j.pid) (h.endJob j 0x3007 k)
  else
    (h.mismatchEvent j.pid (k % 2 ^ 31)).modJob j.pid j.queue j.num fun j => { j with redo := some k }

/-- Compares the copies of a job as far as their totals are complete (R386): job strokes are matched in
order. -/
def Hw.compareCopies (h : Hw) (pid seq : Nat) : Nat → Hw
  | 0 => h
  | fuel + 1 =>
    match h.jobBySeq pid seq with
    | none => h
    | some j =>
      if j.redo.isSome then h
      else
        match h.copyTotal j 0 j.matched, h.copyTotal j 1 j.matched with
        | some a, some b =>
          if a = b then
            let h := h.matchStroke j j.matched
            if (h.heldOf j j.matched).isEmpty then (h.settleDone j.pid j.queue j.num).compareCopies pid seq fuel else h
          else h.mismatchStroke j j.matched
        | _, _ => h

/-- A die's report of a copy for a job stroke reaches both Datums (R386). -/
def Hw.duplexReport (h : Hw) (pid seq copy k die : Nat) : Hw :=
  match h.jobBySeq pid seq with
  | none => h
  | some j =>
    if ! ((h.runModel j).any (·.duplex)) || j.begun.isNone || k < j.matched || ! h.diePassed j copy die k ||
       (j.reportsOf copy k).any (fun r => r.2.1 == die) then h
    else
      let r := (copy, die, k, (h.copyTiles j copy die).length, h.dieSum j copy die k, h.now)
      (h.modJob j.pid j.queue j.num fun j => { j with reports := j.reports ++ [r] }).compareCopies pid seq 3

/-- `DUPLEX_REPORT` (R386). -/
def execDuplexReport (pid : Fin 256) (seq : BitVec 48) (copy : Fin 2) (k : BitVec 32) (die : Fin 4) (s : State) :
    Host.Outcome State Fault Refusal :=
  s.next fun h => if h.fabricOn then h.duplexReport pid.val seq.toNat copy.val k.toNat die.val else h

/-- A copy's report that stays out for 2,100 strokes after the other copy's makes the job stroke a mismatch
(R390). -/
def Hw.duplexTimeout (h : Hw) (pid seq : Nat) : Hw :=
  match h.jobBySeq pid seq with
  | none => h
  | some j =>
    let k := j.matched
    let old (c : Nat) : Bool := (h.copyTotal j c k).isSome &&
      (j.reportsOf c k).all fun r => decide (r.2.2.2.2.2 + 2100 ≤ h.now)
    if j.redo.isNone && ((old 0 && (h.copyTotal j 1 k).isNone) || (old 1 && (h.copyTotal j 0 k).isNone))
    then h.mismatchStroke j k else h

/-- `DUPLEX_REPORT_TIMEOUT` (R390). -/
def execDuplexReportTimeout (pid : Fin 256) (seq : BitVec 48) (s : State) : Host.Outcome State Fault Refusal :=
  s.next fun h => if h.fabricOn then h.duplexTimeout pid.val seq.toNat else h

/-- The pause of a mismatch takes effect at the next pulse (R389): what both copies did from the job stroke
on is dropped, and the tiles that had a slice in it are due for their test. -/
def Hw.duplexPause (h : Hw) (j : Job) : Hw :=
  match j.redo with
  | none => h
  | some k =>
    let had := (h.dup.filter fun d => d.pid == j.pid && d.seq == j.seq && d.k == k).map (·.tile)
    let h := { h with dup := h.dup.filter fun d => ! (d.pid == j.pid && d.seq == j.seq && decide (k ≤ d.k)) }
    let h := had.foldl (fun h t => h.modTile t fun x => { x with testDue := true }) h
    h.modJob j.pid j.queue j.num fun j =>
      { j with redo := none, mismatchedOnce := true, progress := j.progress.map (fun e => (e.1, min e.2 k))
               reports := j.reports.filter fun r => r.2.2.1 < k }

end Sys2Proof.Machine
end

