-- ==== Sys2Proof/Machine/StnCmds.lean ====
section
/-! DEFINITION. The stencil commands (R55 to R59, R68, R603) and the coat-boundary actions on stencils,
budgets, triggers and reinstated tiles (R46, R54 to R59, R451). -/

namespace Sys2Proof.Machine

open Sys2Proof

/-- What the checks of R68 say of the image that a `STENCIL_LOAD` names. -/
inductive StnVerdict where
  | unread
  | bad (check item : Nat)
  | good (s : Stencil)
  deriving DecidableEq, Repr

/-- Checks 2 to 14 of R68 on the image at `IMG_VA`; an image that cannot be read is judged by no check. -/
def Hw.judgeStencil (h : Hw) (c : Cmd) : StnVerdict :=
  if h.stn.swapAt.isSome then .bad 2 0
  else
    let n := c.f 32 4
    if n < 64 ∨ 289696 < n then .bad 3 0
    else
      match (h.cmdRead c.pid (c.f 24 6) n).1 with
      | .error _ => .unread
      | .ok (_, true) => .unread
      | .ok (bs, false) =>
        match parseStencil bs with
        | .error i => .bad 3 i
        | .ok s =>
          match h.admitStencil s with
          | some (k, i) => .bad k i
          | none => .good s

/-- Whether a check's refusal is `REJ_NO_RESOURCE` (R68). -/
def capacityCheck (k : Nat) : Bool := decide (8 ≤ k) && decide (k ≤ 13)

/-- `STN_LOAD_RESULT` (R72). -/
def Hw.loadResult (h : Hw) (check item : Nat) : Hw :=
  let h := (h.put F.STN_LOAD_RESULT_CHECK check).put F.STN_LOAD_RESULT_ITEM (min item 4095)
  h.put F.STN_LOAD_RESULT_AT (h.now % 2 ^ 32)

/-- A refused `STENCIL_LOAD` (R68): the result, the status bit and the event.  A packet refused for its issuer
or `EXT` reached no check. -/
def stencilRefused (h : Hw) (c : Cmd) : Hw :=
  if c.pid ≠ 0 ∨ c.ext > 3 then h
  else
    match h.judgeStencil c with
    | .bad k i => ((h.loadResult k i).put F.STN_INT_STATUS_LOAD_REFUSED 1).event srcStn 0x0901 0 k
    | _ => h

/-- An admitted `STENCIL_LOAD` keeps the stencil that its checks have read (R55). -/
def stencilAccepted (h : Hw) (c : Cmd) : Hw :=
  match h.judgeStencil c with
  | .good s => h.keep c (.stencil s)
  | _ => h

/-- The effect of `STENCIL_LOAD` (R55, R208): one step with the image as the checks read it.  An image that they could not
read fails as its reading does; one that can be read by then was changed in between, which leaves the completion open (R182). -/
def stencilLoad (h : Hw) (c : Cmd) : Hw :=
  match h.takeKept c with
  | (some (.stencil s), h) =>
    (({ h with stn := { h.stn with shadow := some s } }.put F.STN_STATUS_SHADOW_VALID 1).loadResult 0 0).done c 0
  | (_, h) => h.withRecord c (c.f 24 6) (min (c.f 32 4) 289696) fun h _ => h.wildEnd c

/-- The checks of `STENCIL_LOAD` (R587). -/
def specStencilLoad : OpSpec :=
  { opc := 0xC5, issuer := .owner
    fields := fun h c => match h.judgeStencil c with
      | .bad k _ => k == 2 || capacityCheck k
      | _ => true
    busy := fun h c => match h.judgeStencil c with
      | .bad 2 _ => some (0, none)
      | _ => none
    res := fun h c => match h.judgeStencil c with
      | .bad k _ => if capacityCheck k then some (0, none) else none
      | _ => none
    onAccept := stencilAccepted, onRefuse := stencilRefused }

/-- `STENCIL_LOAD` (R55, R57, R68). -/
def execStencilLoad (q : QRef) (p : Packet) (s : State) : Host.Outcome State Fault Refusal :=
  s.next fun h => h.issue specStencilLoad q p stencilLoad

/-- The effect of `STENCIL_SWAP` (R55, R57): a swap that is pending already stands. -/
def stencilSwap (h : Hw) (c : Cmd) : Hw :=
  match h.stn.swapAt with
  | some _ => h.done c (h.get F.STN_COAT_COUNT_COATS)
  | none =>
    ({ h with stn := { h.stn with swapAt := some c.acceptAt, swapCmd := some (c.pid, c.queue, c.num) } }).put
      F.STN_STATUS_SWAP_PENDING 1

/-- The checks of `STENCIL_SWAP` (R587). -/
def specStencilSwap : OpSpec :=
  { opc := 0xC6, issuer := .owner
    modeOk := fun h _ => if h.stn.shadow.isNone then some (0, h.mode) else none
    busy := fun h _ => if h.on F.TIME_STATUS_STEP_PENDING then some (0, none) else none }

/-- `STENCIL_SWAP` (R55, R57). -/
def execStencilSwap (q : QRef) (p : Packet) (s : State) : Host.Outcome State Fault Refusal :=
  s.next fun h => h.issue specStencilSwap q p stencilSwap

/-- A stencil after a budget change (R59). -/
def Stencil.applyBudget (s : Stencil) (b : BudgetChange) : Stencil :=
  match b.row with
  | some r =>
    { s with parts := if s.parts.any fun x => x.pid == r.pid
        then s.parts.map fun x => if x.pid = r.pid then r else x
        else s.parts ++ [r] }
  | none =>
    { s with wins := (List.range s.wins.length).map fun i =>
        let w := s.wins.getD i { start := 0, count := 1, act := 0, tset := 0x3FF, dramBytes := 0, d2dFlits := 0,
                                 fMin := 400, partner := 0xFFFF }
        if i = b.window then { w with dramBytes := b.dramBytes, d2dFlits := b.d2dFlits } else w }

/-- The budget change that a `BUDGET_SET` names, when its fields are admitted (R59, R603). -/
def budgetOf (h : Hw) (c : Cmd) : Option BudgetChange :=
  let pid := c.f 16 1
  let mk (r : Option PartRow) : BudgetChange :=
    { pid := c.pid, queue := c.queue, num := c.num, row := r, window := c.f 18 2, dramBytes := c.f 20 4,
      d2dFlits := c.f 24 2 }
  if bit (c.f 17 1) 0 then
    match h.stn.active.wins[c.f 18 2]? with
    | some w => if pid ≠ 0 ∧ h.stn.active.winPid w = pid then some (mk none) else none
    | none => none
  else
    match parseRow ((c.pkt.drop 32).take 32) with
    | some r => if r.pid = pid ∧ h.rowOk r then some (mk (some r)) else none
    | none => none

/-- The active bank as it would stand after every accepted change and this one. -/
def Hw.bankAfter (h : Hw) (b : BudgetChange) : Stencil :=
  (h.stn.budgets ++ [b]).foldl Stencil.applyBudget h.stn.active

/-- The checks of `BUDGET_SET` (R587). -/
def specBudgetSet : OpSpec :=
  { opc := 0xC7, issuer := .owner
    fields := fun h c => (budgetOf h c).isSome
    res := fun h c => match budgetOf h c with
      | some b => (h.activeCapacity (h.bankAfter b) fun _ => false).map fun _ => (0, none)
      | none => none
    onAccept := fun h c => match budgetOf h c with
      | some b => { h with stn := { h.stn with budgets := h.stn.budgets ++ [{ b with num := c.num }] } }
      | none => h }

/-- `BUDGET_SET` (R59): it completes when the change takes effect. -/
def execBudgetSet (q : QRef) (p : Packet) (s : State) : Host.Outcome State Fault Refusal :=
  s.next fun h => h.issue specBudgetSet q p fun h _ => h

/-! The actions at a coat boundary (R46). -/

/-- Whether the present stroke begins a coat: a boundary of the active stencil, or the swap boundary that
opened a bridge (R45, R56). -/
def Hw.boundaryNow (h : Hw) : Bool :=
  h.atCoat || h.stn.bridgeEnd.any fun e => e == h.now + h.stn.bridgeLen

/-- Whether the coat actions of the present boundary are still to be taken. -/
def Hw.boundaryDue (h : Hw) : Bool := h.boundaryNow && h.stn.coatDone ≠ some h.now

/-- Opens a bridge when the present stroke is no coat boundary of the active stencil, or closes it when it
is (R56). -/
def Hw.setBridge (h : Hw) : Hw :=
  let p := h.coatPos
  if p = 0 then ({ h with stn := { h.stn with bridgeEnd := none, bridgeLen := 0 } }).put F.STN_STATUS_BRIDGE 0
  else
    let n := h.stn.active.coatLen - p
    ({ h with stn := { h.stn with bridgeEnd := some (h.now + n), bridgeLen := n } }).put F.STN_STATUS_BRIDGE 1

/-- The registers that show the active stencil (R72). -/
def Hw.showStencil (h : Hw) : Hw :=
  let st := h.stn.active
  let h := (h.put F.STN_COAT_LEN_L st.coatLen).put F.STN_PHASE_PHASE st.phase
  (h.put F.STN_ACTIVE_ID_STENCIL_ID st.id).put F.STN_STROKE_IN_COAT_POS h.coatPos

/-- The trigger rows of a new stencil keep the adjustments of triggers that it keeps (R54): those with the same port and
`OFFSET`, cut to the new `ADJ` (DESIGN CHOICE, log entry 51). -/
def keepAdjust (old : List TrigRow) (t : TrigRow) : TrigRow :=
  match old.find? fun o => o.port == t.port && o.offset == t.offset with
  | some o => { t with cur := min o.cur t.adj, next := o.next.map fun n => min n t.adj }
  | none => t

/-- The index in a new stencil of an activity of the old one. -/
def actMoved (old new : Stencil) (a : Nat) : Option Nat :=
  match old.acts[a]? with
  | some x => new.actOf x.pid x.fragTag
  | none => none

/-- The tiles' notes of activities follow the new stencil's numbering. -/
def Tile.renumber (mv : Nat → Option Nat) (x : Tile) : Tile :=
  { x with
    lvlKept := x.lvlKept.foldl (fun m e => match mv (e.1 % 1024) with
      | some a => SMap.put m (e.1 / 1024 * 1024 + a) e.2
      | none => m) []
    winAct := x.winAct.map fun e => (e.1, e.2.filterMap mv)
    slice := x.slice.map fun s => { s with act := (mv s.act).getD s.act }
    overruns := x.overruns.filterMap fun o => (if o.pid = 0 then some o.act else mv o.act).map fun b => { o with act := b } }

/-- The jobs whose activity a new stencil does not hold complete `REVOKED_CAPACITY` (R58, R247), which counts as
delivered (R467). -/
def Hw.revokeLost (h : Hw) : Hw :=
  let h' := (h.jobs.filter fun j => (h.jobAct j).isNone).foldl (fun h j => h.endJob j 0x4001 (h.clsOf j.pid)) h
  { h' with sys := { h'.sys with missed := h.sys.missed, coatExcluded := h.sys.coatExcluded } }

/-- Supersedes the budget changes due at a swap (R57). -/
def Hw.supersedeBudgets (h : Hw) : Hw :=
  let bs := h.stn.budgets
  bs.foldl (fun h b => h.finishAt b.pid b.queue b.num 0x4002 0 2 {}) { h with stn := { h.stn with budgets := [] } }

/-- A swap takes effect (R46 step 2, R55 to R58, R455). -/
def Hw.swapNow (h : Hw) (new : Stencil) : Hw :=
  let was := h
  let old := h.stn.active
  let trigs := new.trigs.map (keepAdjust old.trigs)
  let h := { h with
    stn := { h.stn with active := { new with trigs := trigs }, shadow := none, swapAt := none, swapCmd := none,
                        everSwapped := true }
    tiles := h.tiles.map fun (e : Nat × Tile) => (e.1, e.2.renumber (actMoved old new))
    parts := h.parts.map fun (e : Nat × Part) => (e.1, { e.2 with shed := false }) }
  let h := (h.put F.STN_STATUS_ACTIVE_BANK (1 - h.get F.STN_STATUS_ACTIVE_BANK)).put F.STN_STATUS_SHADOW_VALID 0
  let h := (h.put F.STN_STATUS_SWAP_PENDING 0).put F.STN_INT_STATUS_SWAP_DONE 1
  let h := ((h.setBridge).showStencil).event srcStn 0x0902 0 new.id
  (h.supersedeBudgets.revokeLost).refillAfter was

/-- The pending swap, when it falls due at the present boundary (R55); not before the full self-test is
complete (R558). -/
def Hw.dueSwap (h : Hw) : Option Stencil :=
  match h.stn.swapAt, h.stn.shadow with
  | some s, some new => if h.boundaryDue && decide (s + 16 ≤ h.now) && h.on F.MOD_START_FULL_ST then some new else none
  | _, _ => none

/-- Step 2 of R46. -/
def Hw.swapStep (h : Hw) : Hw :=
  match h.dueSwap with
  | none => h
  | some new =>
    let cmd := h.stn.swapCmd
    let h := h.swapNow new
    match cmd with
    | some (p, q, n) => h.finishAt p q n 0 ((h.get F.STN_COAT_COUNT_COATS + 1) % 2 ^ 64) 0 {}
    | none => h

/-- `STENCIL_SWAP_EFFECT` (R55). -/
def execStencilSwapEffect (s : State) : Host.Outcome State Fault Refusal :=
  s.next fun h => if h.sequencing then h.swapStep else h

/-- The stroke in which a command was accepted. -/
def Hw.acceptedAt (h : Hw) (pid q num : Nat) : Nat := ((h.cmd? pid q num).map (·.acceptAt)).getD 0

/-- Step 3 of R46: the changes accepted before the present boundary are applied in acceptance order. -/
def Hw.budgetStep (h : Hw) : Hw :=
  if ! h.boundaryDue then h
  else
    let due (b : BudgetChange) : Bool := decide (h.acceptedAt b.pid b.queue b.num < h.now)
    let bs := h.stn.budgets.filter due
    let was := h
    let h := { h with stn := { h.stn with active := bs.foldl Stencil.applyBudget h.stn.active
                                          budgets := h.stn.budgets.filter fun b => ! due b } }
    bs.foldl (fun h b => h.finishAt b.pid b.queue b.num 0 0 0 {}) (if bs.isEmpty then h else h.refillAfter was)

/-- `BUDGET_SET_EFFECT` (R59). -/
def execBudgetSetEffect (s : State) : Host.Outcome State Fault Refusal :=
  s.next fun h => if h.sequencing then h.budgetStep else h

/-- Step 4 of R46: the trigger adjustments made during the old coat take effect (R54). -/
def Hw.adjustStep (h : Hw) : Hw :=
  if ! h.boundaryDue then h
  else
    let ts := h.stn.active.trigs.map fun t => { t with cur := t.next.getD t.cur, next := none }
    { h with stn := { h.stn with active := { h.stn.active with trigs := ts } } }

/-- `TRIGGER_ADJUST_EFFECT` (R54). -/
def execTriggerAdjustEffect (s : State) : Host.Outcome State Fault Refusal :=
  s.next fun h => if h.sequencing then h.adjustStep else h

/-- Step 5 of R46: tiles that passed their reinstatement test join their rows as free slots (R451). -/
def Hw.admitStep (h : Hw) : Hw :=
  if ! h.boundaryDue then h
  else
    let as := h.fab.admitted
    as.foldl (fun h a =>
      let (t, p, q, n) := a
      let h := { h with fab := { h.fab with retired := NSet.rem h.fab.retired t
                                            mramRetired := NSet.rem h.fab.mramRetired t } }
      ((h.put (F.TILE_STATE_STATE.blk t) 1).event (srcTile t) 0x0207 0 0).finishAt p q n 0 0 0 {})
      { h with fab := { h.fab with admitted := [] } }

/-- `TILE_ADMISSION` (R451). -/
def execTileAdmission (s : State) : Host.Outcome State Fault Refusal :=
  s.next fun h => if h.sequencing then h.admitStep else h

end Sys2Proof.Machine
end

