-- ==== Sys2Proof/Machine/PeerOps.lean ====
section
/-! DEFINITION. Groups (R471 to R491), part 1: the peer ring with its frames and budgets, members, and the group
journal with its shards. -/

namespace Sys2Proof.Machine

open Sys2Proof

/-! The group's record and members (R471, R475). -/

/-- Changes the group's records. -/
def Hw.modGrp (h : Hw) (f : Group → Group) : Hw := { h with sys := { h.sys with grp := f h.sys.grp } }

/-- The members of the group; 0 for none. -/
def Hw.grpN (h : Hw) : Nat := h.get F.PEER_STATUS_N

/-- This module's member index. -/
def Hw.grpSelf (h : Hw) : Nat := h.get F.PEER_STATUS_SELF

/-- The group's state (R491): 0 NONE, 1 JOINING, 2 FORMED, 3 DEGRADED, 4 ENDED. -/
def Hw.grpState (h : Hw) : Nat := h.get F.PEER_STATUS_STATE

/-- Whether a group runs on this module. -/
def Hw.grpRuns (h : Hw) : Bool := h.hubOn && (h.grpState == 2 || h.grpState == 3)

/-- Whether this module is the group's manager. -/
def Hw.isManager (h : Hw) : Bool :=
  decide (1 ≤ h.grpState) && decide (h.grpState ≤ 3) && h.grpSelf == h.get F.PEER_STATUS_MANAGER

/-- Entry `k` of the group record (R475). -/
def grpEntry (rec_ : List Byte) (k : Nat) : List Byte := (rec_.drop (32 + 16 * k)).take 16

/-- The entries of a group record that name a partition. -/
def grpEntries (rec_ : List Byte) : List (List Byte) :=
  ((List.range 16).map (grpEntry rec_)).filter fun e => field e 0 1 ≠ 0

/-- The entry of a group partition. -/
def Hw.grpPart (h : Hw) (pid : Nat) : Option (List Byte) :=
  (grpEntries h.sys.grp.config).find? fun e => field e 0 1 == pid && pid ≠ 0

/-- Whether a member is in service (R491). -/
def Hw.inService (h : Hw) (i : Nat) : Bool := bit (h.get F.PEER_MEMBERS_IN_SERVICE) i

/-- The other members in service. -/
def Hw.othersInService (h : Hw) : NSet :=
  (List.range h.grpN).filter fun i => i ≠ h.grpSelf && h.inService i

/-- A member's record; one of which nothing has been heard. -/
def Hw.gmember (h : Hw) (i : Nat) : GMember :=
  h.sys.grp.members.getD { heardAt := 0, crc := none, lost := false, back := false, recA := none, recB := none,
                           stopped := false } i

/-- Changes a member's record. -/
def Hw.modMember (h : Hw) (i : Nat) (f : GMember → GMember) : Hw :=
  h.modGrp fun g => { g with members := g.members.put i (f (h.gmember i)) }

/-- The CRC of a group record with `SELF` zeroed (R476). -/
def grpCrc (rec_ : List Byte) : Nat := crc32c (putField rec_ 9 1 0)

/-! The ring (R472, R473). -/

/-- Whether a peer link is up: port 0 or 1. -/
def Hw.peerUp (h : Hw) (p : Nat) : Bool := if p = 0 then h.on F.PEER_STATUS_LINK0 else h.on F.PEER_STATUS_LINK1

/-- The port by which frames to a member leave: the shorter way, ties by PEER0, the other way when that link is down
(R473). -/
def Hw.routePort (h : Hw) (dst : Nat) : Nat :=
  let n := max 1 h.grpN
  let d := (dst + n - h.grpSelf % n) % n
  let p := if 2 * d ≤ n then 0 else 1
  if h.peerUp p || ! h.peerUp (1 - p) then p else 1 - p

/-- A port's frames. -/
def Hw.peerPort (h : Hw) (p : Nat) : PeerPort :=
  h.sys.grp.ports.getD { nextSend := 0, nextRecv := 0, sent := [], queue := [] } p

/-- Changes a port's frames. -/
def Hw.modPeerPort (h : Hw) (p : Nat) (f : PeerPort → PeerPort) : Hw :=
  h.modGrp fun g => { g with ports := g.ports.put p (f (h.peerPort p)) }

/-- A peer frame: the header of R473 and its payload, padded to a multiple of 64. -/
def peerFrameBytes (ptype src dst pid cls dseq epoch off : Nat) (payload : List Byte) : List Byte :=
  let n := cdiv payload.length 64 * 64
  leBytes 1 ptype ++ leBytes 1 (src + 16 * dst) ++ leBytes 1 pid ++ leBytes 1 cls ++ leBytes 4 0 ++ leBytes 6 dseq ++
    leBytes 1 epoch ++ zeros 1 ++ leBytes 8 off ++ leBytes 4 n ++ zeros 4 ++ fit n payload

/-- The bucket that a frame draws on (R472, R474): the partition's for its data, 256 for journal shards, dispatch,
heartbeats and time, 257 for checkpoint shards. -/
def frameBucket (f : List Byte) : Nat :=
  let t := field f 0 1
  if t = 4 ∨ t = 5 then field f 2 1
  else if t = 7 ∧ 2 ^ 32 ≤ field f 8 6 then 257 else 256

/-- A bucket's refill in bytes per stroke (R472, R474). -/
def Hw.peerRefill (h : Hw) (b : Nat) : Nat :=
  if b = 256 then 1000 else if b = 257 then 3000 else ((h.grpPart b).map fun e => field e 2 2).getD 0

/-- The tokens of a bucket at a port. -/
def Hw.peerTokens (h : Hw) (p b : Nat) : Nat := h.sys.grp.tokens.getD 0 (p * 1024 + b)

/-- Refills the buckets of both ports (R60, R474). -/
def Hw.refillPeer (h : Hw) : Hw :=
  let bs := 256 :: 257 :: (grpEntries h.sys.grp.config).map fun e => field e 0 1
  h.modGrp fun g => { g with
    tokens := bs.foldl (fun m b => SMap.putD 0 (SMap.putD 0 m b (h.peerRefill b)) (1024 + b) (h.peerRefill b)) [] }

/-- A frame goes onto the wire with its `LSEQ` (R473). -/
def Hw.wirePeer (h : Hw) (p : Nat) (f : List Byte) : Hw :=
  let x := h.peerPort p
  let f := putField f 4 4 x.nextSend
  let h := h.modPeerPort p fun x =>
    { x with nextSend := (x.nextSend + 1) % 2 ^ 32, sent := x.sent ++ [(x.nextSend, f)] }
  { h with outs := h.outs ++ [.ethernet (4 + p) ([0x88, 0xB6] ++ f)] }

/-- The head and the rest of a frame cut after `n` payload bytes. -/
def cutFrame (f : List Byte) (n : Nat) : List Byte × List Byte :=
  let len := field f 24 4
  (putField (f.take (32 + n)) 24 4 n,
   putField (putField (f.take 32 ++ f.drop (32 + n)) 16 8 (field f 16 8 + n)) 24 4 (len - n))

/-- Sends what waits at a port, in order, while the link is up and at most 8 frames are unacknowledged; a partition
whose bucket is empty waits, and no other waits for it (R473, R474). -/
def Hw.pumpPeer (h : Hw) (p : Nat) : Nat → NSet → List (List Byte) → List (List Byte) → Hw
  | 0, _, kept, fs => h.modPeerPort p fun x => { x with queue := kept ++ fs }
  | _, _, kept, [] => h.modPeerPort p fun x => { x with queue := kept }
  | k + 1, waits, kept, f :: fs =>
    let b := frameBucket f
    let len := field f 24 4
    let tok := h.peerTokens p b
    if ! h.peerUp p || 8 ≤ (h.peerPort p).sent.length then h.modPeerPort p fun x => { x with queue := kept ++ f :: fs }
    else if waits.contains b then h.pumpPeer p k waits (kept ++ [f]) fs
    else
      let n := min (min len 2048) (tok / 64 * 64)
      let pay (h : Hw) : Hw := h.modGrp fun g => { g with tokens := SMap.putD 0 g.tokens (p * 1024 + b) (tok - n) }
      if n = len then (pay (h.wirePeer p f)).pumpPeer p k waits kept fs
      else if n = 0 then h.pumpPeer p k (NSet.add waits b) (kept ++ [f]) fs
      else
        let (a, rest) := cutFrame f n
        (pay (h.wirePeer p a)).pumpPeer p k waits kept (rest :: fs)

/-- Sends what a port's tokens and window allow. -/
def Hw.pump (h : Hw) (p : Nat) : Hw :=
  let fs := (h.peerPort p).queue
  if fs.isEmpty then h else h.pumpPeer p (fs.length + 64) [] [] fs

/-- Puts a frame at a port. -/
def Hw.queuePeer (h : Hw) (p : Nat) (f : List Byte) : Hw :=
  (h.modPeerPort p fun x => { x with queue := x.queue ++ [f] }).pump p

/-- Sends a frame to a member, or with 15 to all of them by both ways. -/
def Hw.sendPeer (h : Hw) (ptype dst pid dseq off : Nat) (payload : List Byte) : Hw :=
  if h.grpN = 0 then h
  else
    let f := peerFrameBytes ptype h.grpSelf dst pid (h.clsOf pid) dseq (h.get F.PEER_STATUS_EPOCH) off payload
    if dst = 15 then (h.queuePeer 0 f).queuePeer 1 f else h.queuePeer (h.routePort dst) f

/-- Acknowledgement up to a number (R473). -/
def Hw.ackPeer (h : Hw) (p next : Nat) : Hw :=
  (h.modPeerPort p fun x =>
    { x with sent := x.sent.filter fun e => ! decide ((next + 2 ^ 32 - e.1 - 1) % 2 ^ 32 < 2 ^ 31) }).pump p

/-- The unacknowledged frames are sent again (R473). -/
def Hw.resendPeer (h : Hw) (p : Nat) : Hw :=
  let fs := (h.peerPort p).sent
  let h := (h.addSat (F.PEER_LINK_RETRIES.nth p) fs.length).healthAdd (partPort (38 + p)) inRetry fs.length
  { h with outs := h.outs ++ fs.map fun e => .ethernet (4 + p) ([0x88, 0xB6] ++ e.2) }

/-! The journal and its shards (R483, R484). -/

/-- The exclusive or of two runs of bytes. -/
def xorBytes (a b : List Byte) : List Byte :=
  (List.range (max a.length b.length)).map fun i => a.getD i 0 ^^^ b.getD i 0

/-- A run of bytes times a number of the field. -/
def scaleBytes (k : Nat) (a : List Byte) : List Byte := a.map fun b => BitVec.ofNat 8 (gfMul k b.toNat)

/-- The inverse in GF(2^8): the power 254. -/
def gfInv (a : Nat) : Nat := (List.range 254).foldl (fun r _ => gfMul r a) 1

/-- The bytes of one shard of `len` bytes (R484). -/
def shardLen (n len : Nat) : Nat := if n ≤ 2 then len else cdiv (cdiv len (n - 2)) 64 * 64

/-- Data shard `k`. -/
def dataShard (n : Nat) (b : List Byte) (k : Nat) : List Byte :=
  let s := shardLen n b.length
  fit s ((b.drop (s * k)).take s)

/-- The shard that member `i` keeps (R484). -/
def shardOf (n : Nat) (b : List Byte) (i : Nat) : List Byte :=
  if n ≤ 2 then b
  else if i = 0 then (List.range (n - 2)).foldl (fun x k => xorBytes x (dataShard n b k)) []
  else if i = 1 then (List.range (n - 2)).foldl (fun x k => xorBytes x (scaleBytes (gfAlpha k) (dataShard n b k))) []
  else dataShard n b ((i + n - 2) % n)

/-- Rebuilds a whole from the shards of members, as far as n − 2 of them are there (R484). -/
def unshard (n : Nat) (have_ : SMap (List Byte)) : Option (List Byte) :=
  if n ≤ 2 then (have_.head?).map (·.2)
  else
    let ks := List.range (n - 2)
    let d (k : Nat) : Option (List Byte) := have_.find ((k + 2) % n)
    let gone := ks.filter fun k => (d k).isNone
    let sumP := ks.foldl (fun x k => xorBytes x ((d k).getD [])) []
    let sumQ := ks.foldl (fun x k => xorBytes x (scaleBytes (gfAlpha k) ((d k).getD []))) []
    let out (f : Nat → List Byte) : List Byte := ks.flatMap fun k => (d k).getD (f k)
    match gone, have_.find 0, have_.find 1 with
    | [], _, _ => some (out fun _ => [])
    | [_], some p, _ => some (out fun _ => xorBytes p sumP)
    | [x], none, some q => some (out fun _ => scaleBytes (gfInv (gfAlpha x)) (xorBytes q sumQ))
    | [x, y], some p, some q =>
      let pp := xorBytes p sumP
      let qq := xorBytes q sumQ
      let dx := scaleBytes (gfInv (gfAlpha x ^^^ gfAlpha y)) (xorBytes qq (scaleBytes (gfAlpha y) pp))
      some (out fun k => if k = x then dx else xorBytes pp dx)
    | _, _, _ => none

/-- A group journal record (R483). -/
def grpRecord (type pid queue worker gseq dseq at_ subDl : Nat) (entry body : List Byte) : List Byte :=
  let b := leBytes 1 type ++ leBytes 1 pid ++ leBytes 1 queue ++ leBytes 1 worker ++ leBytes 6 gseq ++ leBytes 6 dseq ++
    leBytes 8 at_ ++ leBytes 8 subDl ++ fit 32 entry ++ fit 60 body
  let b := fit 128 b
  putField b 124 4 (crc32c b)

/-- The members that keep a shard: in service, this one among them. -/
def Hw.shardMembers (h : Hw) : List Nat := (List.range h.grpN).filter fun i => i == h.grpSelf || h.inService i

/-- Keeps or sends the shard of place `j` of `n` to member `i`, under a number, in frames of up to 2,048 bytes; record
numbers are below 2^32, and a checkpoint of a partition is 2^32 + its PID. -/
def Hw.sendShard (h : Hw) (n num i j : Nat) (b : List Byte) : Hw :=
  let s := shardOf n b j
  if i = h.grpSelf then h.modGrp fun g => { g with shards := g.shards.put num s }
  else (List.range (cdiv s.length 2048)).foldl (fun h k =>
    h.sendPeer 7 i 0 num (2048 * k) ((s.drop (2048 * k)).take 2048)) h

/-- Deals the shards of a whole among the members that keep them, in rising order of index (R484). -/
def Hw.sendShards (h : Hw) (num : Nat) (b : List Byte) : Hw :=
  let ms := h.shardMembers
  (List.range ms.length).foldl (fun h j => h.sendShard ms.length num (ms.getD j 0) j b) h

/-- Whether a journal record belongs to a job that has not completed, or is a checkpoint's. -/
def Hw.recordLive (h : Hw) (b : List Byte) : Bool :=
  field b 0 1 == 4 || h.sys.grp.jobs.any fun j => j.gseq == field b 4 6 && field b 0 1 ≠ 0

/-- The number for the next record: the first of the 32,768 from the last on whose record is not live. -/
def Hw.nextRecord (h : Hw) : Nat :=
  (((upto h.sys.grp.recNext 32768).find? fun i =>
    ! (h.sys.grp.journal.find (i % 32768)).any h.recordLive).getD h.sys.grp.recNext) % 32768

/-- Writes a record into the group journal and deals its shards (R481, R483): answers its number. -/
def Hw.writeGrpRecord (h : Hw) (b : List Byte) : Nat × Hw :=
  let i := h.nextRecord
  let h := h.modGrp fun g => { g with journal := g.journal.put i b, recNext := (i + 1) % 32768 }
  (i, h.sendShards i b)

/-- Every live record and the latest checkpoints are dealt anew (R484). -/
def Hw.reencode (h : Hw) : Hw :=
  let h := (h.sys.grp.journal.filter fun e => h.recordLive e.2).foldl (fun h e => h.sendShards e.1 e.2) h
  (h.sys.grp.ckpts.filter (·.latest)).foldl (fun h c => h.sendShards (2 ^ 32 + c.pid) c.data) h

end Sys2Proof.Machine
end

