-- ==== Sys2Proof/Machine/GroupOps.lean ====
section
/-! DEFINITION. Groups (R471 to R491), part 2: jobs and their submission (R240, R479, R595), group jobs on the
manager and sub-jobs on a worker (R480 to R482, R486). -/

namespace Sys2Proof.Machine

open Sys2Proof

/-! `JOB_SUBMIT` (R240, R595, R596). -/

/-- The model handle of a `JOB_SUBMIT`. -/
def subHandle (c : Cmd) : Nat := bits (c.f 16 1) 0 6

/-- `PLACE`: 0 local, 1 to 8 a member, 15 the manager's choice; other values act as 0 (R595). -/
def subPlace (c : Cmd) : Nat :=
  let p := bits (c.f 17 1) 0 4
  if p ≤ 8 ∨ p = 15 then p else 0

/-- `GATE_EN`. -/
def subGate (c : Cmd) : Bool := bit (c.f 17 1) 4

/-- Whether every way of an image is blocked by pinned images (R240). -/
def Hw.allPinned (h : Hw) (pid hd : Nat) : Bool :=
  (h.model pid hd).any fun m => m.ways.all fun w => h.pinBlocked pid hd w

/-- `JOB_SUBMIT` is refused busy when the image or its undercoat has no way that is not blocked (R240). -/
def submitBusy (h : Hw) (c : Cmd) : Option (Nat × Option Nat) :=
  match h.model c.pid (subHandle c) with
  | some m => if h.allPinned c.pid (subHandle c) || (m.hasUndercoat && h.allPinned c.pid m.ucHandle) then some (0, some 1) else none
  | none => none

/-- The refusals of `JOB_SUBMIT` for want of a resource (R240, R454, R479). -/
def submitRes (h : Hw) (c : Cmd) : Option (Nat × Option Nat) :=
  match h.model c.pid (subHandle c) with
  | some m =>
    if (h.stn.active.actOf c.pid m.fragTag).isNone then some (0, some 1)
    else if ! m.batches.contains (c.f 18 2) then some (0, some 2)
    else if h.isShed c.pid then some (0, some 3)
    else
      let p := subPlace c
      if p ≠ 0 && p ≠ 15 && p - 1 ≠ h.grpSelf && ! h.inService (p - 1) then some (0, none) else none
  | none => none

/-- The job that an accepted command makes. -/
def Hw.jobFor (h : Hw) (c : Cmd) : Job :=
  let m := h.model c.pid (subHandle c)
  { pid := c.pid, queue := c.queue, num := c.num, seq := c.seq, handle := subHandle c, batch := c.f 18 2,
    dl := if c.f 20 4 = 0 then none else some (c.acceptAt + c.f 20 4)
    args := (List.range 15).map fun i => field c.pkt (64 + 8 * i) 8
    fragTag := (m.map (·.fragTag)).getD 0, begun := none, under := false, beginsEver := false, progress := [], nextCp := 0,
    miss := none, mainDone := 0, relocated := false, inexact := false, overflow := false, matched := 0, reports := [],
    redo := none, mismatchedOnce := false, fail := none, cancelled := none, group := false, gseq := 0,
    fired := ! subGate c }

/-- Registers a job's start gate (R224, R592). -/
def Hw.registerGate (h : Hw) (c : Cmd) : Hw :=
  if subGate c then
    h.registerWatch { pid := c.pid, queue := c.queue, num := c.num, gate := true, sob := c.f 24 2, t := c.f 32 8,
                      s := c.f 40 8, n := c.f 28 4, fired := 0, regAt := h.now, timeout := 0, done := false }
  else h

/-- Whether the start gate of an accepted command has fired. -/
def Hw.gateOf (h : Hw) (c : Cmd) : Bool :=
  ! subGate c || h.watches.any fun w => w.gate && w.done && w.pid == c.pid && w.queue == c.queue && w.num == c.num

/-- What acceptance does: a job of this module, or a group job with its `GSEQ` (R479, R481). -/
def submitAccepted (gseq : Nat) (h : Hw) (c : Cmd) : Hw :=
  let h := h.registerGate c
  if subPlace c = 0 then { h with jobs := h.jobs ++ [h.jobFor c] }
  else
    h.modGrp fun g => { g with jobs := g.jobs ++
      [{ pid := c.pid, queue := c.queue, num := c.num, gseq := gseq, dseq := 0, worker := 15, subDl := 0, subLimit := 0,
         place := subPlace c, dispatched := false, reissued := false, issuedAt := c.acceptAt, sentAt := 0, failed := none,
         xfer := [], dl := if c.f 20 4 = 0 then none else some (c.acceptAt + c.f 20 4), got := 0, cancelled := none }] }

/-- The checks of `JOB_SUBMIT` (R240, R479, R587). -/
def specJobSubmit : OpSpec :=
  { opc := 0x40
    allow := fun h c => subPlace c == 0 || ((h.grpPart c.pid).isSome && h.isManager)
    handles := fun h c => (h.model c.pid (subHandle c)).isSome && (! subGate c || h.holdsSob c.pid (c.f 24 2))
    busy := submitBusy, res := submitRes, onAccept := submitAccepted 0 }

/-! Transfers (R480). -/

/-- The segments of a transfer descriptor, as source, destination and bytes: inputs or outputs. -/
def xferSegs (x : List Byte) (out : Bool) : List (Nat × Nat × Nat) :=
  let ni := field x 4 1
  let no := field x 5 1
  (upto (if out then ni else 0) (if out then no else ni)).map fun k =>
    (field x (16 + 16 * k) 6, field x (22 + 16 * k) 6, field x (28 + 16 * k) 4 / 64 * 64)

/-- Whether a transfer descriptor's fields are in range (R480); with any other value the results are unpredictable within
the issuing partition, so free bytes stand in its place. -/
def xferSound (x : List Byte) : Bool :=
  let n := field x 4 1 + field x 5 1
  decide (1000 ≤ field x 0 4) && decide (field x 0 4 ≤ 2 ^ 24) && decide (1 ≤ n) && decide (n ≤ 31) &&
    (List.range n).all fun k => field x (28 + 16 * k) 4 % 64 == 0

/-- The bytes of segments. -/
def segBytes (l : List (Nat × Nat × Nat)) : Nat := sumNat (l.map fun s => s.2.2)

/-- The addresses of the 64-byte units of segments: sources or destinations. -/
def segUnits (l : List (Nat × Nat × Nat)) (dst : Bool) : List Nat :=
  l.flatMap fun s => (List.range (s.2.2 / 64)).map fun i => (if dst then s.2.1 else s.1) + 64 * i

/-- What takes the place of a stained unit that leaves the module (R421). -/
def stainPattern : List Byte := (List.range 16).flatMap fun _ => leBytes 4 0xDEAD_5EA1

/-- Reads units to be sent; stained ones are replaced (R421).  Answers the bytes, whether any was stained, and the first
failing translation. -/
def Hw.readUnits (h : Hw) (pid : Nat) : List Nat → List Byte × Bool × Option (Nat × Nat) × Hw
  | [] => ([], false, none, h)
  | a :: as =>
    match h.readVa 2 pid a 64 with
    | (.error e, h) => ([], false, some e, h)
    | (.ok (bs, st), h) =>
      let (rest, st', e, h) := h.readUnits pid as
      ((if st then stainPattern else bs) ++ rest, st || st', e, h)

/-- Writes units at addresses. -/
def Hw.writeUnits (h : Hw) (pid : Nat) : List Nat → List Byte → Option (Nat × Nat) × Hw
  | [], _ => (none, h)
  | a :: as, bs =>
    match h.writeVa 2 pid a (bs.take 64) false with
    | (some e, h) => (some e, h)
    | (none, h) => h.writeUnits pid as (bs.drop 64)

/-- Sends data to a member in frames of up to 2,048 bytes. -/
def Hw.sendData (h : Hw) (ptype dst pid dseq : Nat) (bs : List Byte) : Hw :=
  (List.range (cdiv bs.length 2048)).foldl (fun h k =>
    h.sendPeer ptype dst pid dseq (2048 * k) ((bs.drop (2048 * k)).take 2048)) h

/-- Sends the bytes of segments, each with its own offsets (R473, R481). -/
def Hw.sendSegs (h : Hw) (ptype dst pid dseq : Nat) (segs : List (Nat × Nat × Nat)) (bs : List Byte) : Hw :=
  (segs.foldl (fun (x : Hw × List Byte) s =>
    (x.1.sendData ptype dst pid dseq (x.2.take s.2.2), x.2.drop s.2.2)) (h, bs)).1

/-- Data left the module stained by a peer port (R421, R463). -/
def Hw.stainedExit (h : Hw) (port pid : Nat) : Hw := h.event (srcPort port) 0x0108 pid 0

/-! Group jobs on the manager (R481, R482, R486). -/

/-- Changes a group job. -/
def Hw.modGJob (h : Hw) (gseq : Nat) (f : GJob → GJob) : Hw :=
  h.modGrp fun g => { g with jobs := g.jobs.map fun j => if j.gseq = gseq then f j else j }

/-- A group job leaves the manager: its `DSEQ` is retired. -/
def Hw.dropGJob (h : Hw) (j : GJob) : Hw :=
  { h.modGrp (fun g => { g with jobs := g.jobs.filter fun x => x.gseq ≠ j.gseq }) with
    watches := h.watches.filter fun w => ! (w.gate && w.pid == j.pid && w.queue == j.queue && w.num == j.num) }

/-- A group job completes (R481 step 6, R482): its DONE record is written, and `RESULT` holds `GSEQ`. -/
def Hw.endGJob (h : Hw) (j : GJob) (status detail : Nat) (w : WorkFlags) : Hw :=
  let h := h.finishAt j.pid j.queue j.num status j.gseq detail { w with relocated := w.relocated || j.reissued }
  let entry := (((h.cmd? j.pid j.queue j.num).bind (·.entry)).map fun e => e.bytes 0).getD []
  ((h.writeGrpRecord (grpRecord 3 j.pid j.queue j.worker j.gseq j.dseq h.now j.subDl entry [])).2).dropGJob j

/-- The sub-jobs outstanding on a member. -/
def Hw.outstanding (h : Hw) (w : Nat) : Nat := h.sys.grp.jobs.countP fun j => j.dispatched && j.worker == w

/-- The in-service worker with the fewest outstanding sub-jobs, ties going to the lowest index, other than one
(R479, R486). -/
def Hw.chooseWorker (h : Hw) (but : Option Nat) : Option Nat :=
  (h.othersInService.filter fun i => some i ≠ but).foldl (fun (b : Option Nat) i =>
    match b with
    | some x => if h.outstanding i < h.outstanding x then some i else some x
    | none => some i) none

/-- A group job runs on the manager itself (R486). -/
def Hw.runLocal (h : Hw) (j : GJob) (c : Cmd) : Hw :=
  let h := (h.writeGrpRecord (grpRecord 2 j.pid j.queue 15 j.gseq 0 h.now 0 [] [])).2
  let h := { h with jobs := h.jobs ++
    [{ h.jobFor c with group := true, gseq := j.gseq, relocated := j.reissued, fired := true }] }
  h.modGJob j.gseq fun j => { j with dispatched := true, worker := 15, dseq := 0, sentAt := h.now }

/-- Dispatches an attempt (R481 steps 2 and 3): a fresh `DSEQ`, a DISPATCHED record, DISPATCH, and the inputs. -/
def Hw.dispatchTo (h : Hw) (j : GJob) (c : Cmd) (w : Nat) : Hw :=
  match h.readVa 2 j.pid (c.f 48 6) 512 with
  | (.error e, h) => h.endGJob j (pageStatus e).1 (pageStatus e).2 {}
  | (.ok (x, st), h) =>
    if st then h.endGJob j 0x3001 0xFFFF_FFFF {}
    else
      let (x, h) := if xferSound x then (x, h) else h.freeBytes 64
      let d := h.sys.grp.dseq
      let limit := max 1000 (min (field x 0 4) (2 ^ 24))
      let dl := h.now + limit
      let h := h.modGrp fun g => { g with dseq := (g.dseq + 1) % 2 ^ 48 }
      let h := (h.writeGrpRecord (grpRecord 2 j.pid j.queue w j.gseq d h.now dl [] [])).2
      let h := (h.modGJob j.gseq fun j =>
        { j with dseq := d, worker := w, subDl := dl, subLimit := limit, dispatched := true, sentAt := h.now, xfer := x,
                 got := 0 }).addSat F.PEER_SUBJOBS_DISPATCHED 1
      let h := h.sendPeer 3 w j.pid d 0 (fit 64 (leBytes 8 dl) ++ fit 256 c.pkt ++ x)
      match h.readUnits j.pid (segUnits (xferSegs x false) false) with
      | (_, _, some e, h) => h.endGJob { j with dseq := d } (pageStatus e).1 (pageStatus e).2 {}
      | (bs, st, none, h) =>
        let h := h.sendSegs 4 w j.pid d (xferSegs x false) bs
        if st then (h.stainedExit (4 + h.routePort w) j.pid).endGJob { j with dseq := d } 0x3001 0xFFFF_FFFF {} else h

/-- Dispatches or runs a group job for the first time: on the member that `PLACE` names, on the worker that the manager
chooses, or locally. -/
def Hw.startGJob (h : Hw) (j : GJob) (c : Cmd) : Hw :=
  let w := if j.place = 15 then h.chooseWorker none
    else if j.place - 1 = h.grpSelf then none else some (j.place - 1)
  match w with
  | some w => (if c.begun then h else h.begin c).dispatchTo j c w
  | none => h.runLocal j c

/-- The strokes of a rolling 24 hours (R489). -/
def dayStrokes : Nat := 86_400_000_000

/-- Notes the worker window strokes of an ended attempt, and forgets those of more than 24 hours ago (R489). -/
def Hw.noteWork (h : Hw) (spent useful : Nat) : Hw :=
  h.modGrp fun g => { g with
    work := (g.work.filter fun e => decide (h.now < e.1 + dayStrokes)) ++ [(h.now, spent, useful)] }

/-- The useful share of the worker window strokes of the last 24 hours, in millionths (R489, R491). -/
def Hw.showProgress (h : Hw) : Hw :=
  let w := h.sys.grp.work.filter fun e => decide (h.now < e.1 + dayStrokes)
  let spent := sumNat (w.map (·.2.1))
  let useful := sumNat (w.map (·.2.2))
  h.put F.PEER_PROGRESS_SHARE (if spent = 0 then 1000000 else useful * 1000000 / spent)

/-- Whether an attempt's strokes count when it fails (R489): not when its worker has been lost, nor when neither link of
this module is up. -/
def Hw.attemptCounts (h : Hw) (w : Nat) : Bool := h.inService w && (h.peerUp 0 || h.peerUp 1)

/-- A sub-job is reissued (R486): a new `DSEQ` on another worker, or the job runs locally.  `spent` counts the worker window
strokes that the failed attempt took, as far as the manager knows them. -/
def Hw.reissue (h : Hw) (j : GJob) (spent : Nat) : Hw :=
  match h.cmd? j.pid j.queue j.num with
  | none => h.dropGJob j
  | some c =>
    let h := (h.addSat F.PEER_SUBJOBS_REISSUED 1).put F.PEER_INT_STATUS_REISSUE 1
    let h := h.event srcFw 0x0703 j.pid j.dseq
    let h := if h.attemptCounts j.worker then (h.noteWork spent 0).showProgress else h
    let j := { j with reissued := true, failed := some j.worker }
    let h := h.modGJob j.gseq fun _ => j
    match h.chooseWorker (some j.worker) with
    | some w => h.dispatchTo j c w
    | none => h.runLocal j c

/-- A DONE of a worker (R481 step 6, R482): status, flags, detail and the worker's window strokes. -/
def Hw.grpDone (h : Hw) (dseq : Nat) (p : List Byte) : Hw :=
  match h.sys.grp.jobs.find? fun j => j.dispatched && j.worker ≠ 15 && j.dseq == dseq with
  | none => (h.addSat F.PEER_SUBJOBS_LATE 1).event srcFw 0x0704 0 dseq
  | some j =>
    let status := field p 0 2
    let fl := field p 2 1
    let n := field p 8 8
    if status = 0x3008 ∨ status = 0x4001 then h.reissue j n
    else
      let h := (h.noteWork n n).showProgress
      h.endGJob j status (field p 4 4)
        { relocated := bit fl 1, inexact := bit fl 2, overflow := bit fl 3, duplexChecked := bit fl 4 }

/-- Output bytes of a worker (R481 step 5): written only while `DSEQ` is the current attempt. -/
def Hw.grpDataOut (h : Hw) (dseq : Nat) (bs : List Byte) : Hw :=
  match h.sys.grp.jobs.find? fun j => j.dispatched && j.worker ≠ 15 && j.dseq == dseq with
  | none => (h.addSat F.PEER_SUBJOBS_LATE 1).event srcFw 0x0704 0 dseq
  | some j =>
    let us := ((segUnits (xferSegs j.xfer true) true).drop (j.got / 64)).take (bs.length / 64)
    match h.writeUnits j.pid us bs with
    | (some e, h) => h.endGJob j (pageStatus e).1 (pageStatus e).2 {}
    | (none, h) => h.modGJob j.gseq fun j => { j with got := j.got + bs.length }

/-- What each stroke does to the manager's group jobs: those complete leave; a cancellation or a deadline that has
passed ends one (R482, R597); one whose turn it is and whose gate has fired is dispatched, which begins it, or is run
here, where it begins as a job does (R241). -/
def Hw.gjobStroke (h : Hw) (j : GJob) : Hw :=
  match h.cmd? j.pid j.queue j.num with
  | none => h.dropGJob j
  | some c =>
    let local_ := j.dispatched && j.worker == 15
    if c.complete then h.dropGJob j
    else match j.cancelled with
    | some s => if local_ then h else h.endGJob j 0x3006 s {}
    | none =>
      if ! local_ && j.dl.any (fun d => decide (d < h.now)) then
        (h.event srcSeq 0x0304 j.pid c.seq).endGJob j 0x3004 0 {}
      else if ! j.dispatched && (c.begun || h.canBegin c) && h.gateOf c then h.startGJob j c
      else h

/-! Sub-jobs on a worker (R481). -/

/-- The command that a worker enters on queue 15: the job's packet with its deadline and no gate (R481 step 4). -/
def subPacket (h : Hw) (s : SubJob) : Packet :=
  let p := fit (64 * slotsOf s.pkt) s.pkt
  let p := putField (putField (putField p 1 1 0) 8 8 0) 17 1 0
  putField p 20 4 (max 1 (s.subDl - h.now))

/-- Changes a sub-job. -/
def Hw.modSub (h : Hw) (dseq : Nat) (f : SubJob → SubJob) : Hw :=
  h.modGrp fun g => { g with subs := g.subs.map fun s => if s.dseq = dseq then f s else s }

/-- A worker tells the manager how an attempt ended, and forgets it; a worker that has become the manager tells itself. -/
def Hw.endSub (h : Hw) (s : SubJob) (status detail flags strokes : Nat) : Hw :=
  let p := leBytes 2 status ++ leBytes 1 flags ++ zeros 1 ++ leBytes 4 detail ++ leBytes 8 strokes
  let h := if s.manager = h.grpSelf then h.grpDone s.dseq p else h.sendPeer 6 s.manager s.pid s.dseq 0 p
  h.modGrp fun g => { g with subs := g.subs.filter fun x => x.dseq ≠ s.dseq }

/-- A worker's local job is entered on queue 15 of the partition, which the manager alone feeds (R479, R481). -/
def Hw.enterSub (h : Hw) (s : SubJob) : Hw :=
  match h.queue s.pid 15 with
  | none => h.endSub s 0x2001 1 0 0
  | some qu =>
    if h.part s.pid |>.any (·.destroying) then h.endSub s 0x3008 2 0 0
    else
      let pkt := subPacket h s
      let h := h.modQueue s.pid 15 fun q => { q with sqTail := (q.sqTail + slotsOf pkt) % 2 ^ 32 }
      let q : QRef := { pid := ⟨s.pid % 256, Nat.mod_lt _ (by decide)⟩, queue := 15, cp := 0, rival := none }
      let (c, h) := h.judge specJobSubmit q qu pkt
      h.modSub s.dseq fun s => { s with num := some c.num }

/-- Input bytes of a sub-job (R481 step 3): written through the worker's own context. -/
def Hw.grpDataIn (h : Hw) (dseq : Nat) (bs : List Byte) : Hw :=
  match h.sys.grp.subs.find? fun s => s.dseq == dseq && s.num.isNone with
  | none => h
  | some s =>
    let us := ((segUnits (xferSegs s.xfer false) true).drop (s.got / 64)).take (bs.length / 64)
    match h.writeUnits s.pid us bs with
    | (some e, h) => h.endSub s (pageStatus e).1 (pageStatus e).2 0 0
    | (none, h) =>
      let s := { s with got := s.got + bs.length }
      let h := h.modSub dseq fun _ => s
      if s.need ≤ s.got then h.enterSub s else h

/-- A DISPATCH arrives (R481 step 2). -/
def Hw.grpDispatch (h : Hw) (src pid dseq : Nat) (p : List Byte) : Hw :=
  let x := (p.drop 320).take 512
  let s : SubJob :=
    { pid := pid, dseq := dseq, manager := src, pkt := (p.drop 64).take 256, xfer := x, subDl := field p 0 8, got := 0,
      need := segBytes (xferSegs x false), num := none, startAt := h.now }
  if (h.grpPart pid).isNone then h.endSub s 0x2001 1 0 0
  else
    let h := h.modGrp fun g => { g with subs := g.subs ++ [s] }
    if s.need = 0 then h.enterSub s else h

/-- The worker window strokes that a sub-job has spent. -/
def Hw.subStrokes (h : Hw) (s : SubJob) : Nat :=
  match h.model s.pid (bits (field s.pkt 16 1) 0 6) with
  | some m =>
    match h.stn.active.actOf s.pid m.fragTag with
    | some a => h.stn.active.winsBetween a (s.startAt + 1) h.now
    | none => 0
  | none => 0

/-- A worker's sub-job whose local job has completed (R481 steps 5 and 6): its outputs and its DONE are sent; its entry on
queue 15 is consumed when it is posted. -/
def Hw.subStroke (h : Hw) (s : SubJob) : Hw :=
  match s.num with
  | none => h
  | some n =>
    match h.cmd? s.pid 15 n with
    | none => h.endSub s 0x3008 2 0 0
    | some c =>
      match c.entry with
      | none => h
      | some e =>
        let fl := 2 * b2n e.relocated + 4 * b2n e.inexact + 8 * b2n e.overflow + 16 * b2n e.duplexChecked
        if e.status / 0x1000 ≤ 1 then
          match h.readUnits s.pid (segUnits (xferSegs s.xfer true) false) with
          | (_, _, some x, h) => h.endSub s (pageStatus x).1 (pageStatus x).2 fl 0
          | (bs, st, none, h) =>
            let h := if s.manager = h.grpSelf then h.grpDataOut s.dseq bs
              else h.sendSegs 5 s.manager s.pid s.dseq (xferSegs s.xfer true) bs
            if st then (h.stainedExit (4 + h.routePort s.manager) s.pid).endSub s 0x3001 0xFFFF_FFFF fl 0
            else h.endSub s e.status e.detail fl (h.subStrokes s)
        else h.endSub s e.status e.detail fl (h.subStrokes s)

/-- The entries posted on queue 15 of group partitions are consumed by the module that feeds it (R479). -/
def Hw.consumeSubs (h : Hw) : Hw :=
  if h.isManager then h
  else (grpEntries h.sys.grp.config).foldl (fun h e =>
    let pid := field e 0 1
    match h.queue pid 15 with
    | some q => if q.cqHead = q.nPosted then h
        else (h.modQueue pid 15 fun q => { q with cqHead := q.nPosted }).freeConsumed pid 15
    | none => h) h

end Sys2Proof.Machine
end

