-- ==== Sys2Proof/Machine/Ingest.lean ====
section
/-! DEFINITION. Sensor ingest (R314 to R333): buffers and records of streams, the holding area and its drain,
delivery of logical ports from physical ones, and the power, link and identity of camera ports. -/

namespace Sys2Proof.Machine

open Sys2Proof

/-- A camera port that nothing has happened to. -/
def CamSt.fresh : CamSt := { lastTrig := none, armed := false, lowAt := none, idRead := 0, trainAt := 0, unclaimed := 0 }

/-- A camera port's state. -/
def Hw.cam (h : Hw) (p : Nat) : CamSt := h.ing.cams.getD CamSt.fresh p

/-- Changes a camera port's state. -/
def Hw.modCam (h : Hw) (p : Nat) (f : CamSt → CamSt) : Hw :=
  { h with ing := { h.ing with cams := h.ing.cams.putD CamSt.fresh p (f (h.cam p)) } }

/-- The key of a partition's stream handle. -/
def streamKey (pid hd : Nat) : Nat := pid * 32 + hd

/-- An open stream. -/
def Hw.stream (h : Hw) (k : Nat) : Option Stream := h.ing.streams.find k

/-- Changes an open stream. -/
def Hw.modStream (h : Hw) (k : Nat) (f : Stream → Stream) : Hw :=
  { h with ing := { h.ing with streams := h.ing.streams.upd k f } }

/-- The streams on a logical port, as keys. -/
def Hw.streamOn (h : Hw) (lidar : Bool) (p : Nat) : Option Nat :=
  (h.ing.streams.find? fun e => e.2.lidar == lidar && e.2.port == p).map (·.1)

/-- The physical port that delivers a stream's logical port, if one does (R319, R320). -/
def Hw.physPort (h : Hw) (s : Stream) : Option Nat :=
  if s.lidar then (let m := h.get (F.LID_STATUS_MAP.blk s.port); if m = 15 then none else some m)
  else (let m := h.get (F.CAM_STATUS_MAP.blk s.port); if m = 31 then none else some m)

/-- The event source of a stream's logical port. -/
def Stream.source (s : Stream) : Nat := if s.lidar then srcLid s.port else srcCam s.port

/-- A port of the holding area: cameras 0 to 23, lidars from 24. -/
def sharePort (lidar : Bool) (q : Nat) : Nat := if lidar then 24 + q else q

/-- The bytes that a port's share holds. -/
def Hw.shareBytes (h : Hw) (q : Nat) : Nat := sumNat ((h.ing.share.getD [] q).map fun w => w.data.length)

/-- Puts bytes into a port's share. -/
def Hw.hold (h : Hw) (q : Nat) (w : IngWrite) : Hw :=
  if w.data.isEmpty then h else { h with ing := { h.ing with share := h.ing.share.mod [] q (· ++ [w]) } }

/-- A stamp in ns: the stroke and tens of ns into it (R331). -/
def Hw.stamp (h : Hw) (ns10 : Nat) : Nat := h.now * 1000 + 10 * ns10

/-- Frames of a stream are lost (R329, R330, R334, R335). -/
def Hw.loseFrames (h : Hw) (k n : Nat) : Hw :=
  match h.stream k with
  | none => h
  | some s =>
    let h := h.modStream k fun s => { s with lostTotal := s.lostTotal + n, lostSince := s.lostSince + n }
    if s.lidar then h.addSat (F.LID_COUNT_DROPPED.blk s.port) n else h.addSat (F.CAM_COUNT_LOST.blk s.port) n

/-- The buffer in progress completes and waits for its drain (R327, R328). -/
def Hw.closeBuf (h : Hw) (k : Nat) (f : IngBuf → IngBuf) : Hw :=
  h.modStream k fun s =>
    match s.cur with
    | some b => { s with cur := none, done := s.done ++ [f b] }
    | none => s

/-- A buffer in progress completes `INCOMPLETE` (R327, R328, R332). -/
def Hw.cutBuf (h : Hw) (k : Nat) : Hw := h.closeBuf k fun b => { b with incomplete := true }

/-- Whether the next buffer may be opened (R329). -/
def Hw.mayOpen (h : Hw) (s : Stream) : Bool :=
  ! s.hold || decide ((s.opened : Int) - s.nBuf + 1 ≤ sx 64 (h.sob s.relSob))

/-- Opens the next buffer of a stream (R327, R329). -/
def Hw.openBuf (h : Hw) (k : Nat) (s : Stream) (phys stamp frameNum : Nat) (late untrig : Bool) : Hw :=
  let trig := if s.lidar then none else (h.cam s.port).lastTrig
  let b : IngBuf :=
    { n := s.opened, bufFull := false, incomplete := false, hdrErr := false, crcErr := false, overflow := false,
      stained := false, late := late, untriggered := untrig, remapped := decide (phys ≠ s.port), tStart := stamp,
      tEnd := stamp, tTrig := (trig.map (· * 1000)).getD 0, bytes := 0, units := 0, off := 0,
      frameNum := frameNum, phys := phys, crcCount := 0, coat := h.get F.STN_COAT_COUNT_COATS, pos := h.coatPos,
      firstAt := h.now, failed := false }
  h.modStream k fun s => { s with opened := s.opened + 1, cur := some b }

/-- Where a stream's buffer begins in memory (R323, R329). -/
def Stream.bufAt (s : Stream) (n : Nat) : Nat := s.bufVa + n % max s.nBuf 1 * s.bufBytes

/-- A record of a completed buffer (R330). -/
def recordOf (s : Stream) (b : IngBuf) : List Byte :=
  let flags := b2n b.bufFull + 2 * b2n b.incomplete + 4 * b2n b.hdrErr + 8 * b2n b.crcErr + 16 * b2n b.overflow +
    32 * b2n b.stained + 64 * b2n b.late + 128 * b2n b.untriggered + 256 * b2n b.remapped
  leBytes 4 b.n ++ leBytes 2 flags ++ leBytes 2 (min s.lostSince 0xFFFF) ++ leBytes 8 b.tStart ++ leBytes 8 b.tEnd ++
  leBytes 8 b.tTrig ++ leBytes 4 b.bytes ++ leBytes 4 b.units ++ leBytes 2 b.frameNum ++ leBytes 1 b.phys ++
  zeros 1 ++ leBytes 4 b.crcCount ++ leBytes 8 b.coat ++ leBytes 4 b.pos ++ zeros 4

/-! The drain (R324 to R326). -/

/-- Changes a stream's buffer by its number. -/
def Stream.modBuf (s : Stream) (n : Nat) (f : IngBuf → IngBuf) : Stream :=
  { s with cur := s.cur.map fun b => if b.n = n then f b else b
           done := s.done.map fun b => if b.n = n then f b else b }

/-- The buffer with a number. -/
def Stream.bufNo (s : Stream) (n : Nat) : Option IngBuf := (s.cur.toList ++ s.done).find? fun b => b.n == n

/-- Whether the fields of a stream's descriptor that nothing checks hold what R323 lists; with any other the results are
unpredictable within the partition (R322). -/
def Stream.fieldsOk (s : Stream) : Bool :=
  decide (64 ≤ s.rate) && s.bufVa % 4096 == 0 && decide (4096 ≤ s.bufBytes) && decide (s.bufBytes ≤ 67108864) &&
  s.bufBytes % 4096 == 0 && decide (2 ≤ s.nBuf) && decide (s.nBuf ≤ 1024) && s.recVa % 64 == 0 &&
  (if s.lidar then ! s.emb && s.vc == 0 && s.dt == 0 && decide (1 ≤ s.pitch)
   else decide (0x18 ≤ s.dt) && s.pitch % 32 == 0 && s.srcMac == 0 && s.etherType == 0 && s.udpDst == 0)

/-- What a stream writes: free values where its descriptor leaves the results unpredictable (R9, R322). -/
def Hw.streamBytes (h : Hw) (s : Stream) (bs : List Byte) : List Byte × Hw :=
  if s.fieldsOk then (bs, h)
  else
    let (fs, h) := h.freeBytes (cdiv bs.length 8)
    (fs.take bs.length, h)

/-- Writes drained bytes with the stream's PID (R326); a failed translation discards the rest of the frame
(R332). -/
def Hw.drainWrite (h : Hw) (w : IngWrite) : Hw :=
  match h.stream w.key with
  | none => h
  | some s =>
    if s.faulted || (s.bufNo w.n).all (·.failed) then h
    else
      let pid := w.key / 32
      match h.mem.translateRun pid w.va w.data.length .wr true with
      | .error (a, c) =>
        (h.translationFault 5 c pid a).modStream w.key fun s =>
          s.modBuf w.n fun b => { b with failed := true, incomplete := true }
      | .ok ps =>
        let (data, h) := h.streamBytes s w.data
        let h := h.writeThrough pid data w.stain ps
        if w.stain then h.modStream w.key fun s => s.modBuf w.n fun b => { b with stained := true } else h

/-- Drains up to `n` bytes of a port's share; `fuel` bounds the runs that it holds. -/
def Hw.drainPort (h : Hw) (q : Nat) : Nat → Nat → Hw
  | 0, _ => h
  | fuel + 1, n =>
    match h.ing.share.getD [] q with
    | [] => h
    | w :: ws =>
      if n = 0 then h
      else
        let k := min n w.data.length
        let rest := if k = w.data.length then ws
          else { w with va := w.va + k, data := w.data.drop k } :: ws
        let h := { h with ing := { h.ing with share := SMap.putD [] h.ing.share q rest } }
        (h.drainWrite { w with data := w.data.take k }).drainPort q fuel (n - k)

/-- The `RATE` of the streams that a port delivers. -/
def Hw.portRate (h : Hw) (q : Nat) : Nat :=
  sumNat ((h.ing.streams.filter fun e =>
    ((h.physPort e.2).map (sharePort e.2.lidar)) == some q).map fun e => e.2.rate)

/-- The runs of a port's share. -/
def Hw.shareRuns (h : Hw) (q : Nat) : Nat := (h.ing.share.getD [] q).length

/-- The spare bytes go to the ports with data in turn (R324). -/
def Hw.drainSpare (h : Hw) : Nat → Nat → Nat → Hw
  | 0, _, _ => h
  | fuel + 1, q, n =>
    let k := min n (h.shareBytes q)
    let h := h.drainPort q (h.shareRuns q) k
    if n - k = 0 then { h with ing := { h.ing with turn := (q + 1) % 32 } }
    else h.drainSpare fuel ((q + 1) % 32) (n - k)

/-- One stroke's drain, outside QUIET windows (R70, R324): each port its streams' `RATE`, then the spare of
40,960 bytes. -/
def Hw.drainIngest (h : Hw) : Hw :=
  if h.quiet then h
  else
    let (h, left) := (List.range 32).foldl (fun (a : Hw × Nat) q =>
      let k := min a.2 (min (a.1.portRate q) (a.1.shareBytes q))
      (a.1.drainPort q (a.1.shareRuns q) k, a.2 - k)) (h, 40960)
    if left = 0 then h else h.drainSpare 32 h.ing.turn left

/-- Whether bytes of a buffer are still in a share. -/
def Hw.undrained (h : Hw) (k n : Nat) : Bool := h.ing.share.any fun e => e.2.any fun w => w.key == k && w.n == n

/-- A stream becomes FAULTED (R332). -/
def Hw.faultStream (h : Hw) (k : Nat) (s : Stream) : Hw :=
  (h.modStream k fun s => { s with faulted := true, cur := none, done := [] }).event s.source 0x0509 (k / 32) (k % 32)

/-- The oldest drained buffer of a stream completes (R329): record, then the addition. -/
def Hw.completeBuf (h : Hw) (k : Nat) : Hw :=
  match h.stream k with
  | none => h
  | some s =>
    match s.done with
    | [] => h
    | b :: bs =>
      if s.faulted || h.quiet || h.undrained k b.n then h
      else
        let (rec, h) := h.streamBytes s (recordOf s b)
        match h.writeVa 5 (k / 32) (s.recVa + 64 * (b.n % max s.nBuf 1)) rec false with
        | (some _, h) => h.faultStream k s
        | (none, h) =>
          if ! h.holdsSob (k / 32) s.doneSob then h.faultStream k s
          else
            let h := (h.sobPerform s.doneSob (.add s.doneAdd)).2
            let h := h.modStream k fun s => { s with done := bs, completed := (s.completed + 1) % 2 ^ 32, lostSince := 0 }
            if s.lidar then h else h.addSat (F.CAM_COUNT_FRAMES.blk s.port) 1

/-! Delivery (R318 to R320). -/

/-- The identity found on a physical port, or expected of a logical camera, as one number. -/
def Hw.idFound (h : Hw) (q : Nat) : Nat :=
  h.get (F.CAM_ID_FOUND_ID_FOUND.blk q) + 2 ^ 64 * h.get ((F.CAM_ID_FOUND_ID_FOUND.blk q).nth 1)
def Hw.idExp (h : Hw) (p : Nat) : Nat :=
  h.get (F.CAM_ID_EXP_ID_EXP.blk p) + 2 ^ 64 * h.get ((F.CAM_ID_EXP_ID_EXP.blk p).nth 1)

/-- Whether a camera port's link is up. -/
def Hw.camUp (h : Hw) (q : Nat) : Bool := h.get (F.CAM_STATUS_LINK.blk q) == 2

/-- Whether an identity has been read on a port whose link is up. -/
def Hw.idKnown (h : Hw) (q : Nat) : Bool := h.camUp q && h.on (F.CAM_CTRL_IDCHK.blk q) && (h.cam q).idRead == 1

/-- `ID_STATE` and `REMOTE` of a physical port (R318). -/
def Hw.judgeId (h : Hw) (q : Nat) : Nat × Nat :=
  if ! h.camUp q || ! h.on (F.CAM_CTRL_IDCHK.blk q) || (h.cam q).idRead == 0 then (0, 31)
  else if (h.cam q).idRead = 2 then (5, 31)
  else
    let f := h.idFound q
    let ps := (List.range 24).filter fun p => h.idExp p == f
    if 1 < ps.length || (List.range 24).any fun r => r ≠ q && h.idKnown r && h.idFound r == f then (4, 31)
    else
      match ps with
      | [p] => if p = q then (1, 31) else (2, p)
      | _ => (3, 31)

/-- Sets a port's `ID_STATE`; a fault code is signalled when it is new or the port has just been read
(R318). -/
def Hw.setId (h : Hw) (q : Nat) (fresh : Bool) : Hw :=
  let (st, rem) := h.judgeId q
  let old := h.get (F.CAM_STATUS_ID_STATE.blk q)
  let h := (h.put (F.CAM_STATUS_ID_STATE.blk q) st).put (F.CAM_STATUS_REMOTE.blk q) rem
  if 2 ≤ st ∧ (fresh ∨ st ≠ old) then
    let h := (h.put (F.CAM_INT_STATUS_ID_FAULT.blk q) 1).event (srcCam q) 0x0504 0 st
    if st = 2 then (h.put (F.CAM_INT_STATUS_SWAPPED.blk q) 1).event (srcCam q) 0x0505 0 rem else h
  else h

/-- The physical port that delivers a logical camera (R319); 31 for none. -/
def Hw.camMap (h : Hw) (p : Nat) : Nat :=
  if h.get (F.CAM_STATUS_ID_STATE.blk p) = 1 then p
  else if ! h.on (F.CAM_CTRL_IDCHK.blk p) && h.camUp p then p
  else if h.on (F.CAM_CTRL_REMAP_EN.blk p) then
    (firstNat 24 fun q => h.get (F.CAM_STATUS_ID_STATE.blk q) == 2 && h.get (F.CAM_STATUS_REMOTE.blk q) == p).getD 31
  else 31

/-- Re-evaluates `MAP` of every logical camera (R319); a frame in progress on one that changes completes
`INCOMPLETE` (R332). -/
def Hw.remapCams (h : Hw) : Hw :=
  (List.range 24).foldl (fun h p =>
    let m := h.camMap p
    if m = h.get (F.CAM_STATUS_MAP.blk p) then h
    else
      let h := h.put (F.CAM_STATUS_MAP.blk p) m
      match h.streamOn false p with
      | some k => h.cutBuf k
      | none => h) h

/-- Identities and delivery are judged anew (R318, R319); `q` is the port just read, if one was. -/
def Hw.judgeCams (h : Hw) (q : Option Nat) : Hw :=
  ((List.range 24).foldl (fun h i => h.setId i (q == some i)) h).remapCams

/-! Camera power and links (R316, R317). -/

/-- The gears that a port tries: its highest and its lowest (R334). -/
def Hw.camGears (h : Hw) (q : Nat) : Nat × Nat :=
  let g := h.get (F.CAM_CTRL_GEAR.blk q)
  let hi := if g = 0 ∨ 5 < g then 1 else g
  let m := h.get (F.CAM_CTRL_GEAR_MIN.blk q)
  (hi, max 1 (min m hi))

/-- Whether a port's switch is ON: only then is its power measured, and only then can a fault be detected (R541). -/
def Hw.camPowered (h : Hw) (q : Nat) : Bool := h.get (F.CAM_STATUS_PWR_STATE.blk q) == 1

/-- A camera link is lost or goes off (R317, R332): `link` is its new state. -/
def Hw.camLost (h : Hw) (q link : Nat) : Hw :=
  let up := h.camUp q
  let h := (h.put (F.CAM_STATUS_LINK.blk q) link).put (F.CAM_STATUS_GEAR_NOW.blk q) 0
  let h := h.modCam q fun c => { c with idRead := 0, trainAt := h.now }
  if up then
    let h := (h.put (F.CAM_INT_STATUS_LINK_DOWN.blk q) 1).event (srcCam q) 0x0502 0 0
    let h := if link = 1 then (h.addSat (F.CAM_ERR_RETRAIN.blk q) 1).healthAdd (partPort q) inRetrain 1 else h
    h.judgeCams none
  else h

/-- The link follows the switch and `LINK_EN` (R317). -/
def Hw.camFollow (h : Hw) (q : Nat) : Hw :=
  let want := h.on (F.CAM_CTRL_LINK_EN.blk q) && h.get (F.CAM_STATUS_PWR_STATE.blk q) == 1
  let link := h.get (F.CAM_STATUS_LINK.blk q)
  if want then (if link = 0 then (h.put (F.CAM_STATUS_LINK.blk q) 1).modCam q fun c => { c with trainAt := h.now } else h)
  else if link = 2 ∧ h.get (F.CAM_STATUS_PWR_STATE.blk q) = 2 ∧ h.on (F.CAM_CTRL_LINK_EN.blk q) then h
  else if link = 0 then h else h.camLost q 0

/-- A switch enters a fault state (R316, R541); `ma` and `mv` are what was measured. -/
def Hw.camFault (h : Hw) (q st ma mv : Nat) : Hw :=
  let h := (h.put (F.CAM_PWR_MEAS_MA.blk q) ma).put (F.CAM_PWR_MEAS_MV.blk q) mv
  let h := (h.put (F.CAM_STATUS_PWR_STATE.blk q) st).put (F.CAM_INT_STATUS_PWR_FAULT.blk q) 1
  (h.event (srcCam q) 0x0506 0 st).camFollow q

/-- Whether camera power is available: not PARKED or OFF, and PD_CAMPWR on (R316). -/
def Hw.camRail (h : Hw) : Bool := decide (2 ≤ h.mode) && bit (h.get F.PWR_DOMAIN_ON) 46

/-- The switch follows `PWR_EN` and the rail (R316): it is ON while `PWR_EN` is 1 and the rail is there, and OFF otherwise; only
`PWR_EN` 0 ends a fault state. -/
def Hw.camPower (h : Hw) (q : Nat) : Hw :=
  let f := F.CAM_STATUS_PWR_STATE.blk q
  let h := if ! h.on (F.CAM_CTRL_PWR_EN.blk q) then h.put f 0
    else if h.get f ≤ 1 then h.put f (b2n h.camRail)
    else h
  h.camFollow q

/-- Every lidar port that is up and that no other port has taken over delivers itself (R320). -/
def Hw.remapLids (h : Hw) : Hw :=
  (List.range 8).foldl (fun h p =>
    let f := F.LID_STATUS_MAP.blk p
    let m := h.get f
    let up (q : Nat) : Bool := h.get (F.LID_STATUS_LINK.blk q) == 2
    if m ≠ 15 ∧ up m then h
    else
      let n := if up p then p else 15
      if n = m then h
      else
        let h := h.put f n
        match h.streamOn true p with
        | some k => h.cutBuf k
        | none => h) h

/-- The bytes of a frame in network order. -/
def beNat (bs : List Byte) : Nat := leNat bs.reverse

/-- The EtherType of a frame, whether it is tagged, and where its payload begins (R315, R323). -/
def ethHead (b : List Byte) : Nat × Bool × Nat :=
  let t := beNat ((b.drop 12).take 2)
  if t = 0x8100 then (beNat ((b.drop 16).take 2), true, 18) else (t, false, 14)

/-- The UDP destination port of a frame: IPv4 without options, IPv6 without extension headers (R323). -/
def udpPort (b : List Byte) : Option Nat :=
  let (t, _, o) := ethHead b
  let at1 (i : Nat) : Nat := field b (o + i) 1
  if t = 0x0800 ∧ at1 0 = 0x45 ∧ at1 9 = 17 then some (beNat ((b.drop (o + 22)).take 2))
  else if t = 0x86DD ∧ at1 0 / 16 = 6 ∧ at1 6 = 17 then some (beNat ((b.drop (o + 42)).take 2))
  else none

/-- Whether a frame matches a stream's filter (R323). -/
def Stream.matchesFrame (s : Stream) (b : List Byte) : Bool :=
  (s.srcMac == 0 || beNat ((b.drop 6).take 6) == s.srcMac) && (s.etherType == 0 || (ethHead b).1 == s.etherType) &&
  (s.udpDst == 0 || udpPort b == some s.udpDst)

end Sys2Proof.Machine
end

