-- ==== Sys2Proof/Machine/IngestCmds.lean ====
section
/-! DEFINITION. The stream commands 0x60 to 0x63 (R322, R323, R332, R333, R599), the events of camera and lidar
ports (R316 to R321, R327 to R329, R541 to R543), and frame-sync triggers (R54, R321). -/

namespace Sys2Proof.Machine

open Sys2Proof

/-! Stream commands. -/

/-- A stream descriptor (R323). -/
def parseStream (b : List Byte) : Stream :=
  let f0 := field b 0 1
  { lidar := bit f0 0, hold := bit f0 1, emb := bit f0 2, port := bits (field b 1 1) 0 5, doneSob := field b 2 2,
    relSob := field b 4 2, rate := field b 6 2, bufVa := field b 8 6, bufBytes := field b 16 4, nBuf := field b 20 2,
    recVa := field b 24 6, doneAdd := field b 32 4, vc := bits (field b 36 1) 0 4, dt := bits (field b 37 1) 0 6,
    pitch := field b 38 2, srcMac := field b 40 6, etherType := field b 46 2, udpDst := field b 48 2,
    faulted := false, opened := 0, completed := 0, lostTotal := 0, lostSince := 0, cur := none, done := [] }

/-- The descriptor that a `STREAM_OPEN` names, when it can be read. -/
def Hw.readStream (h : Hw) (c : Cmd) : Option Stream :=
  match (h.cmdRead c.pid (c.f 24 6) 64).1 with
  | .ok (bs, false) => some (parseStream bs)
  | _ => none

/-- The partition bound to a stream's logical port (R322). -/
def Hw.portPid (h : Hw) (s : Stream) : Nat :=
  if s.lidar then h.get (F.LID_CTRL_PID.blk s.port) else h.get (F.CAM_CTRL_PID.blk s.port)

/-- The isolation checks of `STREAM_OPEN` (R322). -/
def streamFields (h : Hw) (c : Cmd) : Bool :=
  decide (c.f 16 1 < 32) &&
    (h.readStream c).all fun s =>
      decide (s.port < if s.lidar then 8 else 24) && c.pid ≠ 0 && h.portPid s == c.pid &&
      h.holdsSob c.pid s.doneSob && (! s.hold || h.holdsSob c.pid s.relSob)

/-- A stream is open. -/
def Hw.openStream (h : Hw) (k : Nat) (s : Stream) : Hw :=
  { h with ing := { h.ing with streams := h.ing.streams.put k s } }

/-- The module with the streams of every accepted `STREAM_OPEN`: what the checks of a further one meet (R204, R322). -/
def Hw.plannedStreams (h : Hw) : Hw :=
  h.sys.kept.foldl (fun h x => match x.2.2.2 with | .stream k s => h.openStream k s | _ => h) h

/-- A handle in use, or a port that has a stream (R322). -/
def streamBusy (h : Hw) (c : Cmd) : Option (Nat × Option Nat) :=
  let h := h.plannedStreams
  if (h.stream (streamKey c.pid (c.f 16 1))).isSome ||
     (h.readStream c).any (fun s => (h.streamOn s.lidar s.port).isSome) then some (0, none) else none

/-- The admission limit (R322). -/
def streamRes (h : Hw) (c : Cmd) : Option (Nat × Option Nat) :=
  let h := h.plannedStreams
  match h.readStream c with
  | some s => if 32768 < s.rate + sumNat (h.ing.streams.map fun e => e.2.rate) then some (0, none) else none
  | none => none

/-- The checks of `STREAM_OPEN` (R322, R587). -/
def specStreamOpen : OpSpec :=
  { opc := 0x60, fields := streamFields, busy := streamBusy, res := streamRes
    onAccept := fun h c => match h.readStream c with
      | some s => h.keep c (.stream (streamKey c.pid (c.f 16 1)) s)
      | none => h }

/-- The effect of `STREAM_OPEN` (R208, R322): one step with the descriptor as the checks read it; one that they could not read
fails as its reading does, and one that was changed in between leaves the completion open (R182). -/
def streamOpen (h : Hw) (c : Cmd) : Hw :=
  match h.takeKept c with
  | (some (.stream k s), h) => (h.openStream k s).done c (if (h.physPort s).isSome then 1 else 2)
  | (_, h) => h.withRecord c (c.f 24 6) 64 fun h _ => h.wildEnd c

/-- `STREAM_OPEN` (R322, R599). -/
def execStreamOpen (q : QRef) (p : Packet) (s : State) : Host.Outcome State Fault Refusal :=
  s.next fun h => h.issue specStreamOpen q p streamOpen

/-- Whether a handle names an open stream of the issuer (R599). -/
def streamHandle (h : Hw) (c : Cmd) : Bool :=
  decide (c.f 16 1 < 32) && (h.stream (streamKey c.pid (c.f 16 1))).isSome

/-- A stream closes (R332): its buffers and undrained bytes are dropped, and adjustments that have not taken
effect are discarded. -/
def Hw.closeStream (h : Hw) (k : Nat) : Hw :=
  match h.stream k with
  | none => h
  | some s =>
    let trigs := h.stn.active.trigs.map fun (t : TrigRow) =>
      if ! s.lidar && t.port == s.port then { t with next := none } else t
    { h with
      ing := { h.ing with streams := h.ing.streams.del k
                          share := h.ing.share.foldl (fun (m : SMap (List IngWrite)) e =>
                            SMap.putD [] m e.1 (e.2.filter fun w => w.key ≠ k)) [] }
      stn := { h.stn with active := { h.stn.active with trigs := trigs } } }

/-- The checks of `STREAM_CLOSE` (R587). -/
def specStreamClose : OpSpec := { opc := 0x61, handles := streamHandle }

/-- `STREAM_CLOSE` (R332, R599). -/
def execStreamClose (q : QRef) (p : Packet) (s : State) : Host.Outcome State Fault Refusal :=
  s.next fun h => h.issue specStreamClose q p fun h c => (h.closeStream (streamKey c.pid (c.f 16 1))).done c 0

/-- The result of `STREAM_QUERY` (R333). -/
def streamResult (h : Hw) (k : Nat) : Nat :=
  match h.stream k with
  | none => 0xFF00
  | some s =>
    let ph := h.physPort s
    (if s.faulted then 3 else if ph.isSome then 1 else 2) + ph.getD 0xFF * 2 ^ 8 + s.completed % 2 ^ 32 * 2 ^ 16 +
      min s.lostTotal 0xFFFF * 2 ^ 48

/-- The checks of `STREAM_QUERY` (R587). -/
def specStreamQuery : OpSpec := { opc := 0x62, fields := fun _ c => decide (c.f 16 1 < 32) }

/-- `STREAM_QUERY` (R333, R599). -/
def execStreamQuery (q : QRef) (p : Packet) (s : State) : Host.Outcome State Fault Refusal :=
  s.next fun h => h.issue specStreamQuery q p fun h c => h.done c (streamResult h (streamKey c.pid (c.f 16 1)))

/-- Whether a handle names an open camera stream of the issuer. -/
def cameraHandle (h : Hw) (c : Cmd) : Bool :=
  decide (c.f 16 1 < 32) && (h.stream (streamKey c.pid (c.f 16 1))).any fun s => ! s.lidar

/-- The checks of `TRIGGER_SET` (R54, R587). -/
def specTriggerSet : OpSpec := { opc := 0x63, handles := cameraHandle }

/-- The triggers of a logical camera by rising `OFFSET` (R599). -/
def trigsOf (l : List TrigRow) (p : Nat) : List TrigRow :=
  sortBy (fun a b => decide (a.offset ≤ b.offset)) (l.filter fun t => t.port == p)

/-- The effect of `TRIGGER_SET` (R54, R599). -/
def triggerSet (h : Hw) (c : Cmd) : Hw :=
  match h.stream (streamKey c.pid (c.f 16 1)) with
  | none => h.wildEnd c
  | some s =>
    match (trigsOf h.stn.active.trigs s.port)[c.f 17 1]? with
    | none => h.done c 1
    | some t =>
      let trigs := h.stn.active.trigs.map fun (x : TrigRow) =>
        if x = t then { x with next := some (min (c.f 18 2) x.adj) } else x
      ({ h with stn := { h.stn with active := { h.stn.active with trigs := trigs } } }).done c 0

/-- `TRIGGER_SET` (R54, R599). -/
def execTriggerSet (q : QRef) (p : Packet) (s : State) : Host.Outcome State Fault Refusal :=
  s.next fun h => h.issue specTriggerSet q p triggerSet

/-! Triggers (R54, R321). -/

/-- A trigger that the back channel cannot send is dropped (R54). -/
def Hw.dropTrigger (h : Hw) (p : Nat) : Hw :=
  let h := (h.put F.STN_INT_STATUS_TRIGGER_DROPPED 1).put (F.CAM_INT_STATUS_TRIG_DROPPED.blk p) 1
  h.event (srcCam p) 0x0501 0 p

/-- A trigger that no Frame Start answered before the next one (R321). -/
def Hw.noFrame (h : Hw) (p : Nat) : Hw :=
  let h := match h.streamOn false p with
    | some k => h.loseFrames k 1
    | none => h.addSat (F.CAM_COUNT_LOST.blk p) 1
  (h.put (F.CAM_INT_STATUS_NO_FRAME.blk p) 1).event (srcCam p) 0x0507 0 0

/-- The trigger of a logical camera in the present stroke (R54, R319, R321): it leaves the physical port in
`MAP`, and goes nowhere while no port delivers the camera. -/
def Hw.fireTrigger (h : Hw) (p : Nat) : Hw :=
  let q := h.get (F.CAM_STATUS_MAP.blk p)
  if q = 31 then (if h.camUp p then h else h.dropTrigger p)
  else
    let h := if (h.cam p).armed then h.noFrame p else h
    let w := max 1 (h.get (F.CAM_CTRL_TRIG_WIDTH.blk p))
    let h := h.modCam p fun c => { c with lastTrig := some h.now, armed := true, lowAt := some (q, h.now + w) }
    { h with outs := h.outs ++ [.trigger q (h.get (F.CAM_CTRL_TRIG_GPIO.blk p)) true] }

/-- `CAMERA_TRIGGER` (R54). -/
def execCameraTrigger (p : Fin 24) (s : State) : Host.Outcome State Fault Refusal :=
  s.next fun h =>
    if h.fabricOn && (h.stn.active.trigs.any fun t => t.port == p.val && t.offset + t.cur == h.coatPos) &&
       (h.cam p.val).lastTrig ≠ some h.now then h.fireTrigger p.val else h

/-- `TRIGGER_LOW` (R321): `TRIG_WIDTH` strokes after a trigger its GPIO is driven low. -/
def execTriggerLow (p : Fin 24) (s : State) : Host.Outcome State Fault Refusal :=
  s.next fun h =>
    match (h.cam p.val).lowAt with
    | some (q, t) =>
      if h.fabricOn ∧ t ≤ h.now then
        let h := h.modCam p.val fun c => { c with lowAt := none }
        if h.camUp q then { h with outs := h.outs ++ [.trigger q (h.get (F.CAM_CTRL_TRIG_GPIO.blk p.val)) false] } else h
      else h
    | none => h

/-! Camera ports. -/

/-- How many bytes the identity of a camera on a port has: `LEN`, 1 to 16 (R318). -/
def Hw.idLen (h : Hw) (q : Nat) : Nat := max 1 (min 16 (h.get (F.CAM_ID_READ_LEN.blk q)))

/-- The port asks its camera for its identity at each link-up with `IDCHK` 1 (R318). -/
def Hw.askIdentity (h : Hw) (q : Nat) : Hw :=
  if h.on (F.CAM_CTRL_IDCHK.blk q) then
    { h with outs := h.outs ++ [.camera q (h.get (F.CAM_ID_READ_I2C_ADDR.blk q)) (h.get (F.CAM_ID_READ_REG.blk q)) (h.idLen q)] }
  else h

/-- `CAM_LINK_UP` (R317, R318): the port trained at a gear. -/
def execCamLinkUp (q : Fin 24) (gear : Fin 6) (s : State) : Host.Outcome State Fault Refusal :=
  s.next fun h =>
    let (hi, lo) := h.camGears q.val
    if h.fabricOn && h.get (F.CAM_STATUS_LINK.blk q.val) == 1 && decide (lo ≤ gear.val) && decide (gear.val ≤ hi) then
      let h := (h.put (F.CAM_STATUS_LINK.blk q.val) 2).put (F.CAM_STATUS_GEAR_NOW.blk q.val) gear.val
      let h := h.modCam q.val fun c => { c with idRead := 0 }
      let h := if gear.val < hi then (h.event (srcCam q.val) 0x0503 0 gear.val).healthAdd (partPort q.val) inRetrain 1 else h
      (h.askIdentity q.val).judgeCams none
    else h

/-- `CAM_LINK_RETRY` (R317): a training sequence in which no gear came up leaves the link DOWN, and the
sequence repeats 100 ms after it began. -/
def execCamLinkRetry (q : Fin 24) (s : State) : Host.Outcome State Fault Refusal :=
  s.next fun h =>
    let (hi, lo) := h.camGears q.val
    let f := F.CAM_STATUS_LINK.blk q.val
    let age := h.now - (h.cam q.val).trainAt
    if ! h.fabricOn then h
    else if h.get f = 1 ∧ 20000 * (hi - lo + 1) ≤ age then h.put f 3
    else if h.get f = 3 ∧ 100000 ≤ age then (h.put f 1).modCam q.val fun c => { c with trainAt := h.now }
    else h

/-- The identity bytes of a read, zero-extended (R318). -/
def Hw.putIdentity (h : Hw) (q : Nat) (id : List Byte) : Hw :=
  let b := fit 16 (id.take (h.idLen q))
  (h.put (F.CAM_ID_FOUND_ID_FOUND.blk q) (field b 0 8)).put ((F.CAM_ID_FOUND_ID_FOUND.blk q).nth 1) (field b 8 8)

/-- `CAMERA_IDENTITY_READ` (R318): the I2C read ends, with the bytes read or without success. -/
def execCameraIdentityRead (q : Fin 24) (id : Option (List Byte)) (s : State) : Host.Outcome State Fault Refusal :=
  s.next fun h =>
    if h.fabricOn && h.camUp q.val && h.on (F.CAM_CTRL_IDCHK.blk q.val) then
      let h := match id with
        | some bs => (h.putIdentity q.val bs).modCam q.val fun c => { c with idRead := 1 }
        | none => h.modCam q.val fun c => { c with idRead := 2 }
      h.judgeCams (some q.val)
    else h

/-- The logical camera that a physical port delivers, with its open stream's key (R319). -/
def Hw.camOf (h : Hw) (q : Nat) : Option Nat := firstNat 24 fun p => h.get (F.CAM_STATUS_MAP.blk p) == q

/-- What a Frame Start says of the triggers (R321): `LATE` and `UNTRIGGERED`. -/
def Hw.frameTiming (h : Hw) (p : Nat) : Bool × Bool :=
  let c := h.cam p
  (c.lastTrig.any fun t => decide (h.get (F.CAM_CTRL_FS_WINDOW.blk p) < h.now - t), ! c.armed)

/-- A Frame Start (R321, R327, R329). -/
def Hw.frameStart (h : Hw) (q vc num ns10 : Nat) : Hw :=
  match h.camOf q with
  | none => h
  | some p =>
    let k := h.streamOn false p
    match k.bind fun k => (h.stream k).map fun s => (k, s) with
    | none => h.modCam p fun c => { c with armed := false }
    | some (k, s) =>
      if s.vc ≠ vc then h
      else
        let (late, un) := h.frameTiming p
        let h := (h.modCam p fun c => { c with armed := false }).cutBuf k
        if s.faulted then h
        else if h.mayOpen s then h.openBuf k s q (h.stamp ns10) num late un
        else h.loseFrames k 1

/-- `FRAME_START` (R327). -/
def execFrameStart (q : Fin 24) (vc : Fin 16) (num : BitVec 16) (ns10 : Fin 100) (s : State) :
    Host.Outcome State Fault Refusal :=
  s.next fun h => if h.fabricOn && h.camUp q.val then h.frameStart q.val vc.val num.toNat ns10.val else h

/-- The open stream that a physical camera port feeds. -/
def Hw.camStream (h : Hw) (q : Nat) : Option (Nat × Stream) :=
  (h.camOf q).bind fun p => (h.streamOn false p).bind fun k => (h.stream k).map fun s => (k, s)

/-- Changes the buffer in progress of a stream. -/
def Hw.modCur (h : Hw) (k : Nat) (f : IngBuf → IngBuf) : Hw :=
  h.modStream k fun s => { s with cur := s.cur.map f }

/-- Bytes that a full share discards (R325). -/
def Hw.overflow (h : Hw) (lidar : Bool) (q n : Nat) : Hw :=
  if lidar then (h.put (F.LID_INT_STATUS_OVERFLOW.blk q) 1).event (srcLid q) 0x0508 0 n
  else (h.put (F.CAM_INT_STATUS_OVERFLOW.blk q) 1).event (srcCam q) 0x0508 0 n

/-- An accepted long packet is the next line of the frame (R325, R327). -/
def Hw.takeLine (h : Hw) (q k : Nat) (s : Stream) (b : IngBuf) (p : CsiPacket) : Hw :=
  let at_ := if s.pitch = 0 then b.off else b.units * s.pitch
  let inBuf := p.payload.take (s.bufBytes - at_)
  let room := 131072 - h.shareBytes q
  let kept := inBuf.take room
  let lost := inBuf.length - kept.length
  let h := h.hold q { key := k, n := b.n, va := s.bufAt b.n + at_, data := kept, stain := p.heldBad }
  let h := if 0 < lost then h.overflow false q lost else h
  let h := if p.crcBad then h.addSat (F.CAM_ERR_CRC.blk q) 1 else h
  h.modCur k fun b =>
    { b with units := b.units + 1, off := at_ + p.payload.length, bytes := b.bytes + kept.length
             bufFull := b.bufFull || decide (inBuf.length < p.payload.length)
             overflow := b.overflow || decide (0 < lost)
             crcErr := b.crcErr || p.crcBad, crcCount := b.crcCount + b2n p.crcBad }

/-- The data types of long packets that a port does not support (R314). -/
def oddType (dt : Nat) : Bool := decide (2 ≤ dt) && decide (dt ≤ 0x17) && dt ≠ 0x12

/-- A long packet (R314, R327): one of a type that is not supported is discarded and counted as unclaimed. -/
def Hw.longPacket (h : Hw) (q : Nat) (p : CsiPacket) : Hw :=
  let h := if p.hdr = 1 then h.addSat (F.CAM_ERR_HDR_CORR.blk q) 1 else h
  if p.hdr = 2 then
    let h := h.addSat (F.CAM_ERR_HDR_UNCORR.blk q) 1
    match h.camStream q with
    | some (k, _) => h.modCur k fun b => { b with hdrErr := true }
    | none => h
  else if oddType p.dt.toNat then h.modCam q fun c => { c with unclaimed := c.unclaimed + 1 }
  else
    match h.camStream q with
    | none => h
    | some (k, s) =>
      match s.cur with
      | none => h
      | some b =>
        let dt := p.dt.toNat
        if s.vc = p.vc.val ∧ (dt = s.dt ∨ (s.emb ∧ dt = 0x12)) ∧ (dt = 0x12 ∨ 0x18 ≤ dt) ∧ ! s.faulted ∧ ! b.failed
        then h.takeLine q k s b p else h

/-- `LONG_PACKET` (R327). -/
def execLongPacket (q : Fin 24) (p : CsiPacket) (s : State) : Host.Outcome State Fault Refusal :=
  s.next fun h => if h.fabricOn && h.camUp q.val then h.longPacket q.val p else h

/-- `FRAME_END` (R327). -/
def execFrameEnd (q : Fin 24) (vc : Fin 16) (ns10 : Fin 100) (s : State) : Host.Outcome State Fault Refusal :=
  s.next fun h =>
    match h.camStream q.val with
    | some (k, st) =>
      if h.fabricOn && h.camUp q.val && st.vc == vc.val then
        h.closeBuf k fun b => { b with tEnd := h.stamp ns10.val }
      else h
    | none => h

/-! Camera power (R316, R508, R541). -/

/-- `POWER_OPEN` (R316): below 20 mA for 10 ms while ON. -/
def execPowerOpen (q : Fin 24) (ma mv : BitVec 16) (s : State) : Host.Outcome State Fault Refusal :=
  s.next fun h =>
    if h.get (F.CAM_STATUS_PWR_STATE.blk q.val) = 1 ∧ ma.toNat < 20 then h.camFault q.val 2 ma.toNat mv.toNat else h

/-- The current limit in mA (R334). -/
def Hw.camIlim (h : Hw) (q : Nat) : Nat := 10 * max 10 (min 125 (h.get (F.CAM_CTRL_ILIM.blk q)))

/-- `POWER_OVERCURRENT` (R316): above `ILIM` for 1 ms. -/
def execPowerOvercurrent (q : Fin 24) (ma mv : BitVec 16) (s : State) : Host.Outcome State Fault Refusal :=
  s.next fun h => if h.camPowered q.val ∧ h.camIlim q.val < ma.toNat then h.camFault q.val 3 ma.toNat mv.toNat else h

/-- `POWER_SHORT_GND` (R316, R541): a short-circuit current above 3 A. -/
def execPowerShortGnd (q : Fin 24) (ma mv : BitVec 16) (s : State) : Host.Outcome State Fault Refusal :=
  s.next fun h => if h.camPowered q.val ∧ 3000 < ma.toNat then h.camFault q.val 4 ma.toNat mv.toNat else h

/-- `POWER_SHORT_BAT` (R541): a voltage above the rail or reverse current while ON. -/
def execPowerShortBat (q : Fin 24) (ma mv : BitVec 16) (s : State) : Host.Outcome State Fault Refusal :=
  s.next fun h => if h.camPowered q.val then h.camFault q.val 5 ma.toNat mv.toNat else h

/-- `CAMRAIL_TRIP` (R508): the rail current has been above 12.5 A for 1 ms; the highest port that is ON moves
to OVERCURRENT. -/
def execCamrailTrip (ma : BitVec 16) (s : State) : Host.Outcome State Fault Refusal :=
  s.next fun h =>
    match (List.range 24).reverse.find? h.camPowered with
    | some q =>
      if 12500 < ma.toNat then
        ((h.put F.PWR_STATUS_CAMRAIL_TRIP 1).put F.PWR_INT_STATUS_CAMRAIL 1).camFault q 3 (h.get (F.CAM_PWR_MEAS_MA.blk q))
          (h.get (F.CAM_PWR_MEAS_MV.blk q))
      else h
    | none => h

/-! Lidar streams (R320, R328). -/

/-- Frames from a stream's `SRC_MAC` arrive on another port (R320). -/
def Hw.strayFrame (h : Hw) (q p : Nat) : Hw :=
  let rem := F.LID_STATUS_REMOTE.blk q
  let h := if h.get rem = p then h else
    ((h.put rem p).put (F.LID_INT_STATUS_SWAPPED.blk q) 1).event (srcLid q) 0x0505 0 p
  if h.on (F.LID_CTRL_REMAP_EN.blk p) ∧ h.get (F.LID_STATUS_MAP.blk p) ≠ q then
    let h := h.put (F.LID_STATUS_MAP.blk p) q
    match h.streamOn true p with
    | some k => h.cutBuf k
    | none => h
  else h

/-- The place of the next header: a 32-byte boundary (R328). -/
def up32 (n : Nat) : Nat := cdiv n 32 * 32

/-- The bytes that a frame takes in a buffer (R328). -/
def lidarUnit (q stamp : Nat) (b : List Byte) : List Byte :=
  leBytes 8 stamp ++ leBytes 2 b.length ++ leBytes 1 (b2n (ethHead b).2.1) ++ leBytes 1 q ++ zeros 4 ++ b

/-- A frame of a stream that could not be kept (R325, R329). -/
def Hw.dropLidar (h : Hw) (k : Nat) : Hw := h.loseFrames k 1

/-- Packs a frame into the buffer in progress (R325, R328). -/
def Hw.packFrame (h : Hw) (q k : Nat) (s : Stream) (b : IngBuf) (stamp : Nat) (f : EthFrame) : Hw :=
  let u := lidarUnit q stamp f.bytes
  if 131072 < h.shareBytes (24 + q) + u.length then
    ((h.overflow true q u.length).dropLidar k).modCur k fun b => { b with overflow := true }
  else
    let h := h.hold (24 + q) { key := k, n := b.n, va := s.bufAt b.n + b.off, data := u, stain := f.heldBad }
    (h.addSat (F.LID_COUNT_ACCEPTED.blk s.port) 1).modCur k fun b =>
      { b with off := up32 (b.off + u.length), bytes := b.bytes + u.length, units := b.units + 1, tEnd := stamp }

/-- A matching frame reaches its stream (R328, R329). -/
def Hw.takeFrame (h : Hw) (q k stamp : Nat) (f : EthFrame) : Hw :=
  match h.stream k with
  | none => h
  | some s =>
    if s.faulted then h
    else
      let need := 16 + f.bytes.length
      let h := if s.cur.any fun b => decide (s.bufBytes < b.off + need) then h.closeBuf k id else h
      match h.stream k with
      | none => h
      | some s =>
        match s.cur with
        | some b => if b.failed then h else h.packFrame q k s b stamp f
        | none =>
          if s.bufBytes < need ∨ ! h.mayOpen s then h.dropLidar k
          else
            let h := h.openBuf k s q stamp 0 false false
            match (h.stream k).bind (·.cur) with
            | some b => h.packFrame q k s b stamp f
            | none => h

/-- A frame at a lidar port (R315, R320, R323, R328). -/
def Hw.lidarFrame (h : Hw) (q stamp : Nat) (f : EthFrame) : Hw :=
  if f.bytes.length < 60 ∨ 9212 < f.bytes.length then h
  else if ! f.fcsOk then h.addSat (F.LID_ERR_FCS.blk q) 1
  else
    let src := beNat ((f.bytes.drop 6).take 6)
    let strays := h.ing.streams.filter fun e => e.2.lidar && e.2.srcMac ≠ 0 && e.2.srcMac == src && e.2.port ≠ q
    let h := strays.foldl (fun h e => h.strayFrame q e.2.port) h
    match h.ing.streams.find? fun e => e.2.lidar && h.physPort e.2 == some q && e.2.matchesFrame f.bytes with
    | some e => h.takeFrame q e.1 stamp f
    | none => h.addSat (F.LID_ERR_UNCLAIMED.blk q) 1

/-- `LIDAR_FRAME` (R328). -/
def execLidarFrame (q : Fin 8) (f : EthFrame) (ns10 : Fin 100) (s : State) : Host.Outcome State Fault Refusal :=
  s.next fun h =>
    if h.fabricOn && h.get (F.LID_STATUS_LINK.blk q.val) == 2 then h.lidarFrame q.val (h.stamp ns10.val) f else h

/-- `LIDAR_FLUSH` (R328): `FLUSH` strokes after its first frame a buffer completes. -/
def execLidarFlush (pid : Fin 256) (hd : Fin 32) (s : State) : Host.Outcome State Fault Refusal :=
  s.next fun h =>
    let k := streamKey pid.val hd.val
    match h.stream k with
    | some st =>
      if h.fabricOn && st.lidar && st.cur.any fun b => decide (b.firstAt + st.pitch ≤ h.now) then h.closeBuf k id else h
    | none => h

/-- `BUFFER_COMPLETE` (R329). -/
def execBufferComplete (pid : Fin 256) (hd : Fin 32) (s : State) : Host.Outcome State Fault Refusal :=
  s.next fun h => if h.fabricOn then h.completeBuf (streamKey pid.val hd.val) else h

/-! Links of sensor and Ethernet ports, numbered as the ports of R464: cameras 0 to 23, lidars 24 to 31, BB0 and
BB1 32 and 33, management 34 and 35, peer 38 and 39. -/

/-- The event source of an Ethernet port (R456). -/
def ethSource (p : Nat) : Nat :=
  if p < 32 then srcLid (p - 24) else if p < 34 then srcPort (p - 32) else if p < 36 then srcDatum (p - 34)
  else srcPort (p - 34)

/-- Whether an Ethernet link is up. -/
def Hw.ethUp (h : Hw) (p : Nat) : Bool :=
  if p < 24 then false
  else if p < 32 then h.get (F.LID_STATUS_LINK.blk (p - 24)) == 2
  else if p = 32 then h.get F.BB_STATUS_LINK0 == 2
  else if p = 33 then h.get F.BB_STATUS_LINK1 == 2
  else if p < 36 then h.ing.mgmtUp.contains p
  else if p < 38 then h.on (F.PCIE_STATUS_UP.port (p - 36))
  else if p = 38 then h.on F.PEER_STATUS_LINK0
  else p == 39 && h.on F.PEER_STATUS_LINK1

/-- Whether an Ethernet link is enabled. -/
def Hw.ethEnabled (h : Hw) (p : Nat) : Bool :=
  if p < 24 then false
  else if p < 32 then h.on (F.LID_CTRL_LINK_EN.blk (p - 24))
  else if p = 32 then h.on F.BB_CTRL_LINK_EN0
  else if p = 33 then h.on F.BB_CTRL_LINK_EN1
  else p < 36 || p == 38 || p == 39

/-- Records an Ethernet link's state: 1 training, 2 up. -/
def Hw.setEth (h : Hw) (p st : Nat) : Hw :=
  if p < 32 then h.put (F.LID_STATUS_LINK.blk (p - 24)) st
  else if p = 32 then h.put F.BB_STATUS_LINK0 st
  else if p = 33 then h.put F.BB_STATUS_LINK1 st
  else if p = 34 then
    ({ h with ing := { h.ing with mgmtUp := if st = 2 then NSet.add h.ing.mgmtUp p else NSet.rem h.ing.mgmtUp p } }).put
      F.BB_STATUS_MGMT_A st
  else if p = 35 then
    ({ h with ing := { h.ing with mgmtUp := if st = 2 then NSet.add h.ing.mgmtUp p else NSet.rem h.ing.mgmtUp p } }).put
      F.BB_STATUS_MGMT_B st
  else if p < 38 then
    ((h.put (F.PCIE_STATUS_UP.port (p - 36)) 0).put (F.PCIE_STATUS_GEN.port (p - 36)) 0).put (F.PCIE_STATUS_LOG2_WIDTH.port (p - 36)) 0
  else if p = 38 then h.put F.PEER_STATUS_LINK0 (b2n (st == 2))
  else h.put F.PEER_STATUS_LINK1 (b2n (st == 2))

/-- `LINK_UP` (R542): a lidar, backbone, management or peer link comes up. -/
def execLinkUp (p : Fin 40) (s : State) : Host.Outcome State Fault Refusal :=
  s.next fun h =>
    if h.ethEnabled p.val && ! h.ethUp p.val && decide (2 ≤ h.mode) then
      let h := h.setEth p.val 2
      let h := { h with ing := { h.ing with pairs := h.ing.pairs.del p.val, pairAt := h.ing.pairAt.del p.val } }
      if p.val < 32 then h.remapLids
      else if 38 ≤ p.val then (h.put F.PEER_INT_STATUS_LINK 1).event (ethSource p.val) 0x0701 0 0
      else h
    else h

/-- An Ethernet link is lost (R473, R542, R543, R622). -/
def Hw.ethLost (h : Hw) (p : Nat) : Hw :=
  let h := h.setEth p 1
  if 38 ≤ p then ((h.put F.PEER_INT_STATUS_LINK 1).addSat (F.PEER_LINK_DOWN.nth (p - 38)) 1).event (ethSource p) 0x0701 0 1
  else
    let h := (h.event (ethSource p) 0x0502 0 0).healthAdd (partPort p) inRetrain 1
    if p < 32 then
      let h := h.put (F.LID_INT_STATUS_LINK_DOWN.blk (p - 24)) 1
      let ks := (h.ing.streams.filter fun e => e.2.lidar && h.physPort e.2 == some (p - 24)).map (·.1)
      (ks.foldl (fun h k => h.cutBuf k) h).remapLids
    else if p = 32 then h.put F.BB_INT_STATUS_LINK_DOWN0 1
    else if p = 33 then h.put F.BB_INT_STATUS_LINK_DOWN1 1
    else if 36 ≤ p then h.put (F.PCIE_INT_STATUS_LINK_DOWN.port (p - 36)) 1
    else h

/-- `LINK_DOWN` (R317): a link is lost and retraining starts. -/
def execLinkDown (p : Fin 40) (s : State) : Host.Outcome State Fault Refusal :=
  s.next fun h =>
    if p.val < 24 then (if h.camUp p.val then h.camLost p.val (if h.camPowered p.val then 1 else 0) else h)
    else if h.ethUp p.val then h.ethLost p.val else h

/-- `PAIR_DIAGNOSTIC` (R543): the cable diagnostic of a down Ethernet link: 0 sound, 1 short, 2 open. -/
def execPairDiagnostic (p : Fin 40) (r : Fin 3) (s : State) : Host.Outcome State Fault Refusal :=
  s.next fun h =>
    let due := match h.ing.pairAt.find p.val with
      | some t => decide (t + 100000 ≤ h.now)
      | none => true
    if decide (24 ≤ p.val) && decide (p.val < 36) && decide (2 ≤ h.mode) && h.ethEnabled p.val && ! h.ethUp p.val && due then
      let old := h.ing.pairs.getD 0 p.val
      let h := { h with ing := { h.ing with pairs := h.ing.pairs.putD 0 p.val r.val, pairAt := h.ing.pairAt.put p.val h.now } }
      if r.val = 0 ∨ r.val = old then h
      else
        let h := h.event (ethSource p.val) 0x050B 0 (r.val - 1)
        if p.val = 32 then h.put F.BB_INT_STATUS_PAIR_FAULT0 1
        else if p.val = 33 then h.put F.BB_INT_STATUS_PAIR_FAULT1 1
        else h
    else h

end Sys2Proof.Machine
end

