-- ==== Sys2Proof/Machine/Fusion.lean ====
section
/-! DEFINITION. The fusion engine: track sets, batches and their commit (R336 to R353). -/

namespace Sys2Proof.Machine

open Sys2Proof

/-! Track sets (R336, R338). -/

/-- The key of a track set. -/
def fusKey (pid hd : Nat) : Nat := pid * 4 + hd

/-- A track set. -/
def Hw.fusSet (h : Hw) (pid hd : Nat) : Option FusSet := h.fus.sets.find (fusKey pid hd)

/-- `FUS_STATUS` follows the sets and the batch that holds the engine (R353). -/
def Hw.showFus (h : Hw) : Hw :=
  let h := h.put F.FUS_STATUS_SETS h.fus.sets.length
  let h := h.put F.FUS_STATUS_SLOTS_FREE (4096 - sumNat (h.fus.sets.map fun e => e.2.capacity))
  match h.fus.running.bind fun r => h.fus.batches.find? fun b => b.pid == r.1 && b.queue == r.2.1 && b.num == r.2.2 with
  | some b => ((h.put F.FUS_STATUS_RUNNING 1).put F.FUS_STATUS_PID b.pid).put F.FUS_STATUS_SET b.set
  | none => ((h.put F.FUS_STATUS_RUNNING 0).put F.FUS_STATUS_PID 0).put F.FUS_STATUS_SET 0

/-- Replaces the track sets. -/
def Hw.setFusSets (h : Hw) (m : SMap FusSet) : Hw := ({ h with fus := { h.fus with sets := m } }).showFus

/-- Whether the fields of a `FUS_CONFIG` lie in the table of R338. -/
def fusFields (c : Cmd) : Bool :=
  let md := c.f 18 1
  let three := bit (c.f 17 1) 1
  decide (c.f 16 1 ≤ 3) && decide (md ≤ 2) && ! (md == 2 && three) &&
  decide (c.f 19 1 ≤ maxExtra md three) && decide (1 ≤ c.f 20 2) && decide (c.f 20 2 ≤ 4096)

/-- Whether a set has an accepted batch that has not completed. -/
def fusBusy (h : Hw) (c : Cmd) : Option (Nat × Option Nat) :=
  if h.fus.batches.any fun b => b.pid == c.pid && b.set == c.f 16 1 then some (0, none) else none

/-- Whether a set may be made: a 65th set, or a slot beyond 4,096, is refused (R336). -/
def fusRes (h : Hw) (c : Cmd) : Option (Nat × Option Nat) :=
  if bit (c.f 17 1) 0 then none
  else
    let k := fusKey c.pid (c.f 16 1)
    let others := h.fus.sets.filter fun e => e.1 ≠ k
    if others.length ≥ 64 ∨ sumNat (others.map fun e => e.2.capacity) + c.f 20 2 > 4096 then some (0, none) else none

/-- The checks of `FUS_CONFIG` (R336). -/
def specFusConfig : OpSpec :=
  { opc := 0x70, fields := fun _ c => fusFields c, busy := fusBusy, res := fusRes }

/-- The effect of `FUS_CONFIG` (R336): a replaced set loses its tracks and goes on counting identifiers. -/
def fusConfig (h : Hw) (c : Cmd) : Hw :=
  let k := fusKey c.pid (c.f 16 1)
  if bit (c.f 17 1) 0 then (h.setFusSets (h.fus.sets.del k)).done c 0
  else h.withRecord c (c.f 24 6) 1024 fun h bs =>
    let next := ((h.fus.sets.find k).map (·.nextId)).getD 1
    (h.setFusSets (h.fus.sets.put k
      { cfg := bs, model := c.f 18 1, threeD := bit (c.f 17 1) 1, nExtra := c.f 19 1, capacity := c.f 20 2,
        nextId := next, lastValid := none, tracks := [] })).done c 0

/-- `FUS_CONFIG` (R336 to R338). -/
def execFusConfig (q : QRef) (p : Packet) (s : State) : Host.Outcome State Fault Refusal :=
  s.next fun h => h.issue specFusConfig q p fusConfig

/-! Output records (R344, R345). -/

/-- The sensors in `MASK` (R344). -/
def FusTrack.sensors (t : FusTrack) (tv window : Nat) : List Nat :=
  (List.range 16).filter fun s =>
    match t.tLast.find s with
    | some l => decide ((tv : Int) - l ≤ window)
    | none => false

/-- A track's output record (R345): `state` 0 to 2, the marks `BORN` and `UPDATED`, and the measurement
assigned with its tag. -/
def FusTrack.record (t : FusTrack) (slot state tv window n : Nat) (born : Bool) (meas : Option (Nat × Nat)) : List Byte :=
  let ss := t.sensors tv window
  let age := match ss.foldl (fun (m : Option Nat) s =>
      let l := t.tLast.getD 0 s
      some (match m with | some x => min x l | none => l)) none with
    | some l => ((tv + 2 ^ 64) - l) % 2 ^ 64
    | none => 2 ^ 64 - 1
  let b := leBytes 4 t.id ++ leBytes 2 slot ++ leBytes 1 state ++
    leBytes 1 (t.cls + 16 * b2n born + 32 * b2n meas.isSome) ++ leBytes 8 tv ++ leBytes 8 age ++
    leBytes 2 (sumNat (ss.map fun s => 2 ^ s)) ++ leBytes 1 t.hits ++ leBytes 1 t.misses ++
    leBytes 4 ((meas.map (·.1)).getD 0xFFFF_FFFF) ++ leBytes 4 ((meas.map (·.2)).getD 0) ++ zeros 4 ++
    fit 48 ((t.x.take n).flatMap fun v => leBytes 4 (f64to32 v)) ++
    fit 312 (t.p.flatMap fun v => leBytes 4 (f64to32 v)) ++
    (List.range 16).flatMap fun s => leBytes 4 (if ss.contains s then f64to32 (t.nis.getD 0 s) else fp32.qnan)
  fit 512 b

/-- The summary (R345). -/
def fusSummary (nOut nMeas coarse gated assigned born deleted flags cycles now : Nat) : List Byte :=
  fit 64 (leBytes 4 nOut ++ leBytes 4 nMeas ++ leBytes 4 coarse ++ leBytes 4 gated ++ leBytes 4 assigned ++
    leBytes 4 born ++ leBytes 4 deleted ++ leBytes 4 flags ++ leBytes 8 cycles ++ leBytes 8 now)

/-! The stages of a batch (R341 to R343). -/

/-- A gated pair: measurement, slot, d² and cost. -/
structure FusPair where
  meas : Nat
  slot : Nat
  d2 : Nat
  cost : Nat
  deriving DecidableEq, Repr

/-- What the gates have found: coarse pairs with the fine gate's cycles, gated pairs in order, `BAD_S` and
`PAIRS_FULL`. -/
structure Gates where
  coarse : Nat
  fineCycles : Nat
  pairs : List FusPair
  badS : Bool
  full : Bool
  deriving DecidableEq, Repr

/-- Stages 4 to 6 for one pair. -/
def FusSet.gatePair (s : FusSet) (g : Gates) (i : Nat) (m : Meas) (slot : Nat) (t : FusTrack) : Gates :=
  if ! s.coarse t m then g
  else
    let n := s.n
    let g := { g with coarse := g.coarse + 1,
                      fineCycles := g.fineCycles + cdiv (n * m.dim * m.dim + m.dim ^ 3) 4 + 24 }
    match fineD2 n t m with
    | none => { g with badS := true }
    | some d =>
      if (f64v d).le (f64v (s.q 16)) then
        if g.pairs.length < 262144 then
          { g with pairs := g.pairs ++ [{ meas := i, slot := slot, d2 := d, cost := pairCost d (s.classCost t.cls m.cls) }] }
        else { g with full := true }
      else g

/-- Stages 4 to 6 for every measurement in index order and every track in slot order. -/
def FusSet.gates (s : FusSet) (ms : List Meas) (ts : SMap FusTrack) : Gates :=
  (List.range ms.length).foldl (fun g i =>
    match ms[i]? with
    | some m => ts.foldl (fun g e => s.gatePair g i m e.1 e.2) g
    | none => g) { coarse := 0, fineCycles := 0, pairs := [], badS := false, full := false }

/-- The edges of the solver's rows: the gated pairs' columns and each row's dummy (R342). -/
def solverEdges (slots : List Nat) (newCost nMeas : Nat) (ps : List FusPair) : List (List (Nat × Int)) :=
  (List.range nMeas).map fun i =>
    (ps.filter fun p => p.meas == i).map (fun p => (slots.idxOf p.slot + 1, (p.cost : Int))) ++
      [(slots.length + i + 1, (newCost : Int))]

/-- The gated pair that the solver assigned to each slot. -/
def assignedPairs (slots : List Nat) (sol : Solver) (ps : List FusPair) : SMap FusPair :=
  ps.foldl (fun m p =>
    if sol.rowOf.find (slots.idxOf p.slot + 1) = some p.meas then m.put p.slot p else m) []

/-- Stages 8 and 9 for one live track (R343): the track, and whether it is DELETED. -/
def FusSet.manage (s : FusSet) (t : FusTrack) (a : Option (Meas × Nat)) : FusTrack × Bool :=
  let was := t.finite
  match a with
  | some (m, d2) =>
    let t := kalman s.n t m
    let hits := min (t.hits + 1) 255
    let t := { t with hits := hits, misses := 0, confirmed := t.confirmed || decide (field s.cfg 0 1 ≤ hits),
                      tLast := t.tLast.put m.sensor m.time, nis := t.nis.put m.sensor d2 }
    (t, ! was || ! t.finite)
  | none =>
    let t := { t with misses := min (t.misses + 1) 255 }
    (t, decide (field s.cfg 1 1 ≤ t.misses) || ! was)

/-- A birth (R343): selected components take z and R, the others 0 and `INIT_VAR`. -/
def FusSet.birth (s : FusSet) (m : Meas) (id tv : Nat) : FusTrack :=
  let at_ (c : Nat) : Option Nat := (List.range m.dim).find? fun k => m.comps.getD k 0 == c
  let r := symMat 6 m.r
  { id := id, confirmed := false, cls := m.cls, hits := 1, misses := 0, time := tv,
    x := (List.range s.n).map fun c => match at_ c with | some k => m.z.getD k 0 | none => f64zero,
    p := lowTri s.n (matOf s.n s.n fun i j =>
      match at_ i, at_ j with
      | some a, some b => r.at_ a b
      | none, none => if i = j then s.q (128 + 8 * i) else f64zero
      | _, _ => f64zero),
    tLast := [], nis := [], stained := false }

/-- Births of the unassigned measurements in index order: the tracks with their marks, the next identifier,
the number born and `NO_SLOT`. -/
def FusSet.births (s : FusSet) (tv : Nat) : List Meas → SMap FusTrack → Nat → Nat → Bool → NSet →
    SMap FusTrack × Nat × Nat × Bool × NSet
  | [], ts, id, n, full, bs => (ts, id, n, full, bs)
  | m :: ms, ts, id, n, full, bs =>
    match firstNat s.capacity fun k => (ts.find k).isNone with
    | some k => s.births tv ms (ts.put k (s.birth m id tv)) ((id + 1) % 2 ^ 32) (n + 1) full (NSet.add bs k)
    | none => s.births tv ms ts id n true bs

/-- `NEW_COST` (R337). -/
def FusSet.newCost (s : FusSet) : Nat := bits (field s.cfg 32 8) 0 38

/-- Whether a set's configuration has a field outside its range (R337). -/
def FusSet.cfgSound (s : FusSet) : Bool :=
  decide (1 ≤ field s.cfg 0 1) && decide (1 ≤ field s.cfg 1 1) && decide (s.newCost ≤ 2 ^ 37)

/-- Stages 3 to 10 of a batch on its measurements (R341). -/
def FusSet.run (s : FusSet) (tv outMode : Nat) (ms : List Meas) : FusOut :=
  let n := s.n
  let pred : SMap FusTrack := s.tracks.map fun e => (e.1, s.predict tv e.2)
  let g := s.gates ms pred
  let slots := pred.keys
  let sol := assign (solverEdges slots s.newCost ms.length g.pairs) (slots.length + ms.length)
  let won := assignedPairs slots sol g.pairs
  let managed : SMap (FusTrack × Bool) := pred.map fun e =>
    (e.1, s.manage e.2 ((won.find e.1).bind fun p => (ms[p.meas]?).map fun m => (m, p.d2)))
  let taken : NSet := won.foldl (fun t e => NSet.add t e.2.meas) []
  let fresh := ((List.range ms.length).filter fun i => ! taken.contains i).filterMap fun i =>
    (ms[i]?).bind fun m => if m.noBirth then none else some m
  let (all, nextId, nBorn, noSlot, bornAt) := s.births tv fresh (managed.map fun e => (e.1, e.2.1)) s.nextId 0 false []
  let dead (k : Nat) : Bool := (managed.find k).any (·.2)
  let live := all.filter fun e => ! dead e.1
  let shown := all.filter fun e => outMode == 0 || e.2.confirmed
  let recs := shown.map fun e =>
    let st := if dead e.1 then 2 else if e.2.confirmed then 1 else 0
    let meas := (won.find e.1).map fun p => (p.meas, ((ms[p.meas]?).map (·.tag)).getD 0)
    e.2.record e.1 st tv (s.q 8) n (bornAt.contains e.1) meas
  let nT := s.tracks.length
  let nDead := (managed.filter fun e => e.2.2).length
  let updCycles := won.foldl (fun a e =>
    let m := ((ms[e.2.meas]?).map (·.dim)).getD 0
    a + cdiv (n * n * m + n * m * m) 4 + 40) 0
  { flags := 2 * b2n g.full + 4 * b2n noSlot + 8 * b2n g.badS, nMeas := ms.length, coarse := g.coarse,
    gated := g.pairs.length, assigned := won.length, born := nBorn, deleted := nDead, records := recs,
    tracks := live, nextId := nextId,
    cycles := [200, 2 * ms.length, nT * (cdiv (n ^ 3) 4 + 40), cdiv (nT * ms.length) 16, g.fineCycles, 0,
               4 * sol.edges + 8 * sol.passes, updCycles, nBorn * (n * n + 40) + 4 * live.length,
               16 * recs.length] }

/-- The cycles that a batch takes in all. -/
def FusOut.total (o : FusOut) : Nat := sumNat o.cycles

/-- A run of free words. -/
def Hw.freeWords (h : Hw) : Nat → List Nat × Hw
  | 0 => ([], h)
  | k + 1 =>
    let (w, h) := h.free
    let (ws, h) := h.freeWords k
    (w.toNat :: ws, h)

/-- What a batch computes when a record or the configuration lies outside its range (R337, R339): results
unpredictable within the partition, that is records, tracks and counts of free values. -/
def Hw.wildOut (h : Hw) (s : FusSet) (o : FusOut) : FusOut × Hw :=
  let (recs, h) := o.records.foldl (fun (a : List (List Byte) × Hw) _ =>
    let (b, h) := a.2.freeBytes 64
    (a.1 ++ [b], h)) (([] : List (List Byte)), h)
  let (ts, h) := o.tracks.foldl (fun (a : SMap FusTrack × Hw) e =>
    let (xs, h) := a.2.freeWords s.n
    let (ps, h) := h.freeWords (s.n * (s.n + 1) / 2)
    (a.1 ++ [(e.1, { e.2 with x := xs, p := ps })], h)) (([] : SMap FusTrack), h)
  let (w, h) := h.free
  ({ o with records := recs, tracks := ts, flags := bits w.toNat 0 4, assigned := bits w.toNat 4 13,
            born := bits w.toNat 17 13, deleted := bits w.toNat 30 13 }, h)

/-- The stage of R341 that a batch has reached (R351). -/
def FusBatch.stage (b : FusBatch) : Nat :=
  match b.out with
  | none => 1
  | some o =>
    let rec go : Nat → Nat → List Nat → Nat
      | n, _, [] => n - 1
      | n, left, c :: cs => if left < c then n else go (n + 1) (left - c) cs
    min 10 (go 1 b.used o.cycles)

/-! How batches end (R350, R351). -/

/-- Takes a batch out of the engine. -/
def Hw.dropBatch (h : Hw) (b : FusBatch) : Hw :=
  let gone (r : Nat × Nat × Nat) : Bool := r.1 == b.pid && r.2.1 == b.queue && r.2.2 == b.num
  ({ h with fus := { h.fus with
      batches := h.fus.batches.filter fun x => ! (x.pid == b.pid && x.queue == b.queue && x.num == b.num),
      running := if h.fus.running.any gone then none else h.fus.running } }).showFus

/-- Records a fault in `FUS_FAULT0` (R353, R610). -/
def Hw.fusRecord (h : Hw) (cause pid set : Nat) : Hw :=
  if h.on F.FUS_FAULT0_VALID then h.put F.FUS_FAULT0_MORE 1
  else
    let h := ((h.put F.FUS_FAULT0_CAUSE cause).put F.FUS_FAULT0_PID pid).put F.FUS_FAULT0_SET set
    (h.put F.FUS_FAULT0_AT (h.now % 2 ^ 32)).put F.FUS_FAULT0_VALID 1

/-- A batch ends without a commit (R351); `cause` is that of `FUS_FAULT0`, where it has one. -/
def Hw.fusFail (h : Hw) (b : FusBatch) (cause : Option Nat) (status detail : Nat) : Hw :=
  let h := match cause with
    | some c => (h.fusRecord c b.pid b.set).put F.FUS_INT_STATUS_FAULT 1
    | none => h
  ((h.dropBatch b).addSat F.FUS_BATCHES_FAILED 1).finishAt b.pid b.queue b.num status 0 detail {}

/-- A batch ends on a failed translation (R178, R351). -/
def Hw.fusPage (h : Hw) (b : FusBatch) (e : Nat × Nat) : Hw :=
  let (st, d) := pageStatus e
  h.fusFail b (some (if e.2 = 3 then 2 else 1)) st d

/-- Every batch of a partition ends with a status (`PARTITION_RESET`, shedding; R351). -/
def Hw.fusAbort (h : Hw) (pid status detail : Nat) : Hw :=
  (h.fus.batches.filter fun b => b.pid == pid).foldl (fun h b => h.fusFail b none status detail) h

/-- Every set of a partition is released (`PART_DESTROY`, R352). -/
def Hw.fusRelease (h : Hw) (pid : Nat) : Hw := h.setFusSets (h.fus.sets.filter fun e => e.1 / 4 ≠ pid)

/-- `MODULE_WARM` (R352): batches end, tracks are discarded, configurations and identifiers stay. -/
def Hw.fusWarm (h : Hw) : Hw :=
  let h := h.fus.batches.foldl (fun h b => h.fusFail b none 0x3008 4) h
  h.setFusSets (h.fus.sets.map fun e => (e.1, { e.2 with tracks := [] }))

/-! Batches (R341, R349, R350). -/

/-- An accepted batch becomes known to the engine. -/
def Hw.addBatch (h : Hw) (c : Cmd) : Hw :=
  let b : FusBatch :=
    { pid := c.pid, queue := c.queue, num := c.num, seq := c.seq, set := c.f 16 1, m := c.f 20 4,
      measVa := c.f 24 6, outVa := c.f 32 6, workVa := c.f 40 6, outMode := min (c.f 17 1) 1,
      tValid := c.f 48 8, dl := if c.f 56 4 = 0 then none else some (c.acceptAt + c.f 56 4),
      ready := false, used := 0, saved := false, back := false, owes := [], written := false, stained := false, out := none }
  { h with fus := { h.fus with batches := h.fus.batches ++ [b] } }

/-- The checks of `FUS_BATCH`, refused while PD_H_FUS is off (R515; R350), whose acceptance makes it known to the engine. -/
def specFusBatch : OpSpec :=
  { opc := 0x71
    handles := fun h c => (h.fusSet c.pid (c.f 16 1)).isSome && decide (c.f 16 1 ≤ 3)
    fields := fun _ c => decide (1 ≤ c.f 20 4) && decide (c.f 20 4 ≤ 8192)
    modeOk := fun h _ => if h.domainOn 35 then none else some (0, h.mode)
    res := fun h c =>
      if ((h.stn.active.rowOf c.pid).map (·.fusCycles)).getD 0 = 0 then some (0, none) else none
    onAccept := fun h c => h.addBatch c }

/-- Changes a batch. -/
def Hw.modBatch (h : Hw) (b : FusBatch) (f : FusBatch → FusBatch) : Hw :=
  { h with fus := { h.fus with batches := h.fus.batches.map fun x =>
      if x.pid = b.pid ∧ x.queue = b.queue ∧ x.num = b.num then f x else x } }

/-- `FUS_BATCH` (R341, R350): the command begins; the engine takes its batch up by R349. -/
def execFusBatch (q : QRef) (p : Packet) (s : State) : Host.Outcome State Fault Refusal :=
  s.next fun h => h.issue specFusBatch q p fun h c =>
    match h.fus.batches.find? fun b => b.pid == c.pid && b.queue == c.queue && b.num == c.num with
    | some b => h.modBatch b fun b => { b with ready := true }
    | none => h

/-- Whether a batch is ready or has begun (R349). -/
def Hw.fusReady (h : Hw) (b : FusBatch) : Bool :=
  b.out.isSome ||
  (b.ready && h.fus.batches.all fun x =>
    ! (x.pid == b.pid && decide (x.seq < b.seq)) || (x.out.isSome && x.set ≠ b.set))

/-- The rank of a class for the engine: D before A, A before B, B before S (R349). -/
def Hw.fusRank (h : Hw) (b : FusBatch) : Nat := h.clsOf b.pid

/-- Whether a batch holds the engine. -/
def Hw.isRunning (h : Hw) (b : FusBatch) : Bool :=
  h.fus.running.any fun r => r.1 == b.pid && r.2.1 == b.queue && r.2.2 == b.num

/-- The best of the ready batches whose partition has cycles left (R349): the highest class, within it the running batch,
then the lowest sequence number of the lowest PID (log entry 31). -/
def Hw.fusBest (h : Hw) (p : FusBatch → Bool) : Option FusBatch :=
  let cs := h.fus.batches.filter fun b => h.fusReady b && decide (0 < h.stn.fusCycles.getD 0 b.pid) && p b
  let key (b : FusBatch) : Nat := ((h.fusRank b * 2 + b2n (! h.isRunning b)) * 256 + b.pid) * 2 ^ 49 + b.seq
  cs.foldl (fun (m : Option FusBatch) b =>
    match m with
    | some x => if key b < key x then some b else m
    | none => some b) none

/-- The batch that gets the stroke (R349); one that is saved has to be restored first. -/
def Hw.fusPick (h : Hw) : Option FusBatch := h.fusBest fun b => ! b.saved

/-- A batch whose set its partition released after acceptance: its results are unpredictable (R182). -/
def Hw.fusWild (h : Hw) (b : FusBatch) : Hw :=
  let (s, h) := h.free
  let (r, h) := h.free
  let (d, h) := h.free
  ((h.dropBatch b).addSat F.FUS_BATCHES_FAILED 1).finishAt b.pid b.queue b.num
    (openStatuses.getD (s.toNat % 12) 0) r.toNat d.toNat {}

/-- A batch begins (R341, stages 1 to 9): it reads its measurements, which it owes to its partition's buckets (R60), and
computes, or fails. -/
def Hw.fusBegin (h : Hw) (b : FusBatch) : Except Hw Hw :=
  match h.fusSet b.pid b.set with
  | none => .error (h.fusWild b)
  | some s =>
    if s.lastValid.any fun l => decide (b.tValid < l) then
      let o : FusOut :=
        { flags := 1, nMeas := 0, coarse := 0, gated := 0, assigned := 0, born := 0, deleted := 0, records := [],
          tracks := s.tracks, nextId := s.nextId, cycles := [200, 0, 0, 0, 0, 0, 0, 0, 0, 0] }
      .ok (h.modBatch b fun b => { b with out := some o })
    else
      match h.readVa 2 b.pid b.measVa (128 * b.m) with
      | (.error e, h) => .error (h.fusPage b e)
      | (.ok (bs, st), h) =>
        if st || s.tracks.any (fun e => e.2.stained) then .error (h.fusFail b (some 0) 0x3001 0xFFFF_FFFF)
        else
          let ms := (List.range b.m).map fun i => parseMeas ((bs.drop (128 * i)).take 128)
          let o := s.run b.tValid b.outMode ms
          let (o, h) := if s.cfgSound && ms.all (fun m => m.sound s.n) then (o, h) else h.wildOut s o
          .ok (h.modBatch b fun x => { x with out := some o, owes := linesOf b.measVa (128 * b.m) false })

/-- A batch that stops unfinished is saved to its `WORK_VA` (R349): the bytes there become unpredictable, at
the cost of the partition's DRAM buckets. -/
def Hw.fusSave (h : Hw) (b : FusBatch) : Hw :=
  match h.mem.translateRun b.pid b.workVa 3932160 .wr true with
  | .error (a, c) => (h.translationFault 2 c b.pid a).fusPage b (a, c)
  | .ok ps =>
    let (bs, h) := h.freeBytes 491520
    (h.writePieces b.pid bs false ps).modBatch b fun x =>
      { x with saved := true, back := false, owes := x.owes ++ linesOf b.workVa 3932160 true }

/-- The restore of a saved batch starts: its saved bytes are read back through the other working area, and stain there is
consumed (R347, R349). -/
def Hw.fusRestore (h : Hw) (b : FusBatch) : Hw :=
  match h.readVa 2 b.pid b.workVa 3932160 with
  | (.error e, h) => h.fusPage b e
  | (.ok (_, st), h) =>
    if st then h.fusFail b (some 0) 0x3001 0xFFFF_FFFF
    else h.modBatch b fun x => { x with back := true, owes := linesOf b.workVa 3932160 false }

/-- What a batch owes is drawn from its partition's buckets as far as they go (R60, R349); a restore that is paid for is
complete. -/
def Hw.fusPay (h : Hw) (b : FusBatch) : Hw :=
  let (n, h) := h.payLines b.pid b.owes
  h.modBatch b fun x =>
    let left := x.owes.drop n
    if left.isEmpty && x.back then { x with owes := [], saved := false, back := false } else { x with owes := left }

/-- Every batch pays what it owes, in the order of acceptance. -/
def Hw.fusPayAll (h : Hw) : Hw := h.fus.batches.foldl Hw.fusPay h

/-- The restore of the best saved batch starts, when its save is complete and no save or restore holds the other working
area (R347, R349). -/
def Hw.fusBringBack (h : Hw) : Hw :=
  if h.fus.batches.any fun b => b.saved && ! b.owes.isEmpty then h
  else match h.fusBest (·.saved) with
    | some b => (h.fusRestore b).fusPayAll
    | none => h

/-- A store error (R347). -/
def Hw.fusUpset (h : Hw) (u : FusUpset) : Hw :=
  match u with
  | .corrected => h.addSat F.FUS_STORE_ERR_CORRECTED 1
  | .track g pid set slot =>
    let k := fusKey pid.val set.val
    let h := { h with fus := { h.fus with sets := h.fus.sets.upd k fun s =>
      { s with tracks := s.tracks.upd slot.val fun t => { t with stained := true } } } }
    (((h.addSat F.FUS_STORE_ERR_UNCORR 1).put F.FUS_INT_STATUS_STORE_ERR 1).fusRecord 4 pid.val set.val).event
      srcFus 0x0103 pid.val g.val
  | .area g =>
    let b := h.fus.batches.find? h.isRunning
    let pid := (b.map (·.pid)).getD 0
    let h := match b with
      | some b => h.modBatch b fun b => { b with stained := true }
      | none => h
    (((h.addSat F.FUS_STORE_ERR_UNCORR 1).put F.FUS_INT_STATUS_STORE_ERR 1).fusRecord 4 pid
      ((b.map (·.set)).getD 0)).event srcFus 0x0103 pid g.val

/-- The batch that held the engine and no longer gets the stroke is saved when it is unfinished. -/
def Hw.fusSwitch (h : Hw) (next : Option FusBatch) : Hw :=
  match h.fus.batches.find? h.isRunning with
  | some r =>
    let stays := next.any fun b => b.pid == r.pid && b.queue == r.queue && b.num == r.num
    if stays then h
    else
      let h := { h with fus := { h.fus with running := none } }
      if r.out.any fun o => decide (r.used < o.total) then h.fusSave r else h
  | none => h

/-- A batch takes up to 950 cycles of the stroke, within its partition's budget (R60, R349); while it owes memory traffic it
holds the engine and takes none (log entry 57). -/
def Hw.fusGive (h : Hw) (b : FusBatch) : Hw :=
  match h.fus.batches.find? fun x => x.pid == b.pid && x.queue == b.queue && x.num == b.num with
  | none => h
  | some b =>
    if b.stained then h.fusFail b (some 0) 0x3001 0xFFFF_FFFF
    else
      match b.out with
      | none => h
      | some o =>
        let left := h.stn.fusCycles.getD 0 b.pid
        let n := if b.owes.isEmpty then min (min 950 (o.total - b.used)) left else 0
        let h := h.modBatch b fun b => { b with used := b.used + n }
        let h := { h with stn := { h.stn with fusCycles := SMap.putD 0 h.stn.fusCycles b.pid (left - n) } }
        let h := h.addWrap F.FUS_CYCLES_COUNT n
        let h := { h with fus := { h.fus with running := some (b.pid, b.queue, b.num) } }
        if n = left ∧ b.used + n < o.total then h.noteExhausted b.pid 5 else h

/-- The partitions whose ready batches wait because their cycles of the coat are used up count it (R60, R62). -/
def Hw.fusShort (h : Hw) : Hw :=
  let bs := h.fus.batches.filter fun b => h.fusReady b && h.stn.fusCycles.getD 0 b.pid == 0
  (bs.foldl (fun s b => NSet.add s b.pid) ([] : NSet)).foldl (fun h p => h.noteExhausted p 5) h

/-- One stroke of the engine (R349). -/
def Hw.fusStroke (h : Hw) : Hw :=
  let h := { h with fus := { h.fus with ranAt := some h.now } }
  let h := h.fusShort.fusPayAll.fusBringBack
  let next := h.fusPick
  let h := h.fusSwitch next
  match next with
  | none => h
  | some b =>
    match if b.out.isNone then (h.fusBegin b).map Hw.fusPayAll else .ok h with
    | .error h => h
    | .ok h => h.fusGive b

/-- `FUSION_SCHEDULE` (R349): once a stroke, with an error that the store meets (R347). -/
def execFusionSchedule (u : Option FusUpset) (s : State) : Host.Outcome State Fault Refusal :=
  s.next fun h =>
    if ! h.fabricOn then h
    else
      let h := match u with | some e => h.fusUpset e | none => h
      if h.fus.ranAt = some h.now then h else h.fusStroke.showFus

/-- Whether a batch has passed its deadline without a commit (R351). -/
def Hw.fusLate (h : Hw) (b : FusBatch) : Bool := b.dl.any fun d => decide (d < h.now)

/-- The `RESULT` of a batch (R350). -/
def FusOut.result (o : FusOut) : Nat :=
  o.records.length + o.assigned * 2 ^ 13 + o.born * 2 ^ 26 + o.deleted * 2 ^ 39 + o.flags * 2 ^ 52

/-- A batch commits (R341, stage 10; R352). -/
def Hw.fusCommit (h : Hw) (b : FusBatch) (o : FusOut) : Hw :=
  if o.flags = 1 ∧ o.nMeas = 0 then
    ((h.dropBatch b).addSat F.FUS_BATCHES_FAILED 1).finishAt b.pid b.queue b.num 0 o.result 0 {}
  else
    let sm := fusSummary o.records.length o.nMeas o.coarse o.gated o.assigned o.born o.deleted o.flags o.total h.now
    match h.writeVa 2 b.pid b.outVa (sm ++ o.records.flatten) false with
    | (some e, h) => h.fusPage b e
    | (none, h) =>
      let h := { h with fus := { h.fus with sets := h.fus.sets.upd (fusKey b.pid b.set) fun s =>
        { s with tracks := o.tracks, nextId := o.nextId, lastValid := some b.tValid } } }
      ((h.dropBatch b).addSat F.FUS_BATCHES_DONE 1).finishAt b.pid b.queue b.num 0 o.result 0 {}

/-- The bytes that a batch writes at its commit. -/
def FusOut.outBytes (o : FusOut) : Nat := if o.flags = 1 ∧ o.nMeas = 0 then 0 else 64 + 512 * o.records.length

/-- A batch that has taken all its cycles writes its output as its partition's buckets let it, and then commits (R60,
R352). -/
def Hw.fusEnd (h : Hw) (b : FusBatch) (o : FusOut) : Hw :=
  let b := if b.written then b else { b with written := true, owes := linesOf b.outVa o.outBytes true }
  let (n, h) := h.payLines b.pid b.owes
  if b.owes.length ≤ n then h.fusCommit b o
  else h.modBatch b fun x => { x with written := true, owes := b.owes.drop n }

/-- `FUSION_BATCH_COMMIT` (R352): the batch of a set that has taken all its cycles. -/
def execFusionBatchCommit (pid : Fin 256) (set : Fin 4) (s : State) : Host.Outcome State Fault Refusal :=
  s.next fun h =>
    if ! h.fabricOn then h
    else
      match h.fus.batches.find? fun b => b.pid == pid.val && b.set == set.val && b.out.isSome with
      | some b =>
        match b.out with
        | some o =>
          if h.fusLate b then h.fusFail b (some 3) 0x3004 b.stage
          else if b.stained then h.fusFail b (some 0) 0x3001 0xFFFF_FFFF
          else if o.total ≤ b.used then h.fusEnd b o else h
        | none => h
      | none => h

/-- `FUSION_DEADLINE` (R351): every batch not committed by its deadline ends. -/
def execFusionDeadline (s : State) : Host.Outcome State Fault Refusal :=
  s.next fun h =>
    if ! h.fabricOn then h
    else (h.fus.batches.filter h.fusLate).foldl (fun h b => h.fusFail b (some 3) 0x3004 b.stage) h

/-! Reading and dropping tracks (R352). -/

/-- Whether a command's handle names a set. -/
def fusHandle (h : Hw) (c : Cmd) : Bool := (h.fusSet c.pid (c.f 16 1)).isSome && decide (c.f 16 1 ≤ 3)

/-- The checks of `FUS_READ`. -/
def specFusRead : OpSpec := { opc := 0x72, handles := fusHandle }

/-- Writes records one after another, each with its stain. -/
def Hw.writeRecords (h : Hw) (pid va : Nat) : List (List Byte × Bool) → Hw
  | [] => h
  | (b, st) :: rs => (h.writeVa 2 pid va b st).2.writeRecords pid (va + b.length) rs

/-- The effect of `FUS_READ` (R352): nothing is written unless every page translates. -/
def fusRead (h : Hw) (c : Cmd) : Hw :=
  match h.fusSet c.pid (c.f 16 1) with
  | none => h.done c 0
  | some s =>
    let tv := s.lastValid.getD 0
    let ts := s.tracks.filter fun e => c.f 17 1 == 0 || e.2.confirmed
    let recs := ts.map fun e =>
      (e.2.record e.1 (b2n e.2.confirmed) tv (s.q 8) s.n false none, e.2.stained)
    let all := (fusSummary recs.length 0 0 0 0 0 0 0 0 h.now, false) :: recs
    match h.mem.translateRun c.pid (c.f 24 6) (64 + 512 * recs.length) .wr true with
    | .error (a, e) => (h.translationFault 2 e c.pid a).failPage c (a, e)
    | .ok _ => (h.writeRecords c.pid (c.f 24 6) all).done c recs.length

/-- `FUS_READ` (R352). -/
def execFusRead (q : QRef) (p : Packet) (s : State) : Host.Outcome State Fault Refusal :=
  s.next fun h => h.issue specFusRead q p fusRead

/-- The checks of `FUS_DROP_TRACK`. -/
def specFusDropTrack : OpSpec := { opc := 0x73, handles := fusHandle, busy := fusBusy }

/-- The effect of `FUS_DROP_TRACK` (R352). -/
def fusDropTrack (h : Hw) (c : Cmd) : Hw :=
  match (h.fusSet c.pid (c.f 16 1)).bind fun s => s.tracks.find? fun e => e.2.id == c.f 20 4 with
  | some e =>
    ({ h with fus := { h.fus with sets := h.fus.sets.upd (fusKey c.pid (c.f 16 1)) fun s =>
        { s with tracks := s.tracks.del e.1 } } }).done c 1
  | none => h.done c 0

/-- `FUS_DROP_TRACK` (R352). -/
def execFusDropTrack (q : QRef) (p : Packet) (s : State) : Host.Outcome State Fault Refusal :=
  s.next fun h => h.issue specFusDropTrack q p fusDropTrack

end Sys2Proof.Machine
end

