-- ==== Sys2Proof/Machine/Units.lean ====
section
/-! DEFINITION. Units and their records (R451 to R466, R590): `TILE_RETIRE`, `TILE_REINSTATE`, shedding, the event
engine, the health sheet and `QUERY`. -/

namespace Sys2Proof.Machine

open Sys2Proof

/-! Tiles (R451). -/

/-- The checks of `TILE_RETIRE` (R451, R587). -/
def specTileRetire : OpSpec :=
  { opc := 0xCB, issuer := .owner, fields := fun _ c => decide (c.f 16 2 < 1152)
    busy := fun h c => if h.fab.retired.contains (c.f 16 2) then some (0, none) else none }

/-- `TILE_RETIRE` (R451): completes when the mask has changed. -/
def execTileRetire (q : QRef) (p : Packet) (s : State) : Host.Outcome State Fault Refusal :=
  s.next fun h => h.issue specTileRetire q p fun h c => h.retireTile (c.f 16 2) 1 (some (c.pid, c.queue, c.num))

/-- The checks of `TILE_REINSTATE` (R451, R587). -/
def specTileReinstate : OpSpec :=
  { opc := 0xCC, issuer := .owner, fields := fun _ c => decide (c.f 16 2 < 1152)
    busy := fun h c =>
      if ! h.fab.retired.contains (c.f 16 2) || h.fab.admitted.any (fun a => a.1 == c.f 16 2) then some (0, some 1)
      else if ! h.routerWorks (c.f 16 2) then some (0, some 2) else none }

/-- A tile is reset, becomes REINSTATING and runs its 16 sections (R451, R564): it awaits admission when every one gives
PASS, else it stays retired. -/
def Hw.reinstate (h : Hw) (t : Nat) (c : Cmd) : Hw :=
  let ok := (h.tile t).passes
  let h := (h.put (F.TILE_STATE_STATE.blk t) 5).runAllSections t
  if ok then { h with fab := { h.fab with admitted := h.fab.admitted ++ [(t, c.pid, c.queue, c.num)] } }
  else (h.put (F.TILE_STATE_STATE.blk t) 4).done c 1

/-- `TILE_REINSTATE` (R451). -/
def execTileReinstate (q : QRef) (p : Packet) (s : State) : Host.Outcome State Fault Refusal :=
  s.next fun h => h.issue specTileReinstate q p fun h c => h.reinstate (c.f 16 2) c

/-! Shedding (R453, R454). -/

/-- The demand that a capacity check measures at the stroke in coat, or on the whole coat, with some partitions shed. -/
def Stencil.load (s : Stencil) (h : Hw) (check : Nat) (shed : Nat → Bool) (p : Nat) : Nat :=
  let ws := s.demand shed p
  let rows := s.parts.filter fun r => ! shed r.pid
  match check with
  | 8 =>
    let b := ws.foldl (fun b w => b ||| s.bitmap w) 0
    sumNat ((List.range 4).map fun d => if h.vacancies d ≤ 16 ∨ tilesOnDie b d + 16 ≤ h.usableTiles d then 0 else tilesOnDie b d)
  | 71 =>
    let b := ws.foldl (fun b w => b ||| s.bitmap w) 0
    sumNat ((List.range 4).map fun d =>
      if h.fab.unplaced.any fun u => dieOfLogical u.2 == d then tilesOnDie b d else 0)
  | 9 => sumNat (ws.map (·.dramBytes))
  | 10 => sumNat (ws.map (·.d2dFlits))
  | 11 => sumNat ((List.range 4).map fun k =>
      let n := sumNat ((rows.filter fun r => h.hosts k r.pid).map (·.apcBytes))
      if 48000 < n then n else 0)
  | _ => sumNat (rows.map fun r => r.trvShare + r.fusCycles)

/-- The demand of a failing check over the strokes at which it fails. -/
def Hw.failingLoad (h : Hw) (check : Nat) (now shed : Nat → Bool) : Nat :=
  let s := h.stn.active
  let bad (p : Nat) : Bool :=
    match check with
    | 8 => ! h.fits8 s now p true
    | 9 => ! h.fits9 s now p
    | 10 => ! h.fits10 s now p
    | 71 => true
    | _ => p == 0
  sumNat ((s.points.filter bad).map (s.load h check shed))

/-- The order in which partitions are shed (R453): class S, then B, highest PID first, then A by priority. -/
def Hw.shedOrder (h : Hw) : List Nat :=
  let ofClass (k : Nat) : List Nat := ((h.parts.filter fun e => e.1 ≠ 0 && e.2.cls == k).map (·.1)).reverse
  let prio (p : Nat) : Nat := ((h.stn.active.rowOf p).map (·.priority)).getD 0
  ofClass 3 ++ ofClass 2 ++ sortBy (fun a b => decide (prio a ≤ prio b)) (ofClass 1)

/-- A partition is shed (R454). -/
def Hw.shedPart (h : Hw) (pid cause : Nat) : Hw :=
  let cls := h.clsOf pid
  let h := h.modPart pid fun p => { p with shed := true }
  let h := (h.jobs.filter fun j => j.pid == pid).foldl (fun h j => h.endJob j 0x4001 cls) h
  let h := (h.fusAbort pid 0x4001 cls).revokeCands pid
  let h := { h with stn := { h.stn with fusCycles := h.stn.fusCycles.del pid } }
  h.event srcFw 0x0903 pid (cls + cause * 256)

/-- The reserve tiles of a die in use (R160): positions for which others stand in. -/
def Hw.reserveUsed (h : Hw) (d : Nat) : Nat := (h.fab.redirects.filter fun r => dieOfLogical r.vacant == d).length

/-- The cause code of a failing capacity check (R453). -/
def Hw.shedCause (h : Hw) (check : Nat) : Nat :=
  match check with
  | 8 => 1
  | 71 => 6
  | 9 => 2
  | 10 => 3
  | _ => 4

/-- Partitions are shed one at a time until the capacity checks fit, or none that helps is left (R453). -/
def Hw.shedUntilFit (h : Hw) : Nat → Hw
  | 0 => h
  | n + 1 =>
    match h.activeCapacity h.stn.active h.isShed with
    | none => h
    | some (k, _) =>
      let here := h.failingLoad k h.isShed h.isShed
      match h.shedOrder.find? fun p =>
        ! h.isShed p && decide (h.failingLoad k h.isShed (fun q => h.isShed q || q == p) < here) with
      | some p => (h.shedPart p (h.shedCause k)).shedUntilFit n
      | none => h

/-- Shedding is decided, and what it frees takes the positions that had no substitute (R71, R160, R453). -/
def Hw.shedAndPlace (h : Hw) : Hw :=
  let h := h.shedUntilFit 256
  if h.fab.unplaced = [] then h else h.fillVacancies

/-! The event engine (R458 to R462). -/

/-- The checks of `EVENT_CONFIG` (R462, R587). -/
def specEventConfig : OpSpec :=
  { opc := 0xD1, issuer := .owner
    fields := fun _ c => c.f 24 6 % 64 == 0 && (c.f 16 1 == 0 || (decide (6 ≤ c.f 16 1) && decide (c.f 16 1 ≤ 16))) }

/-- A ring is configured (R462): the counters start at 0 and the pass at 1. -/
def Hw.setRing (h : Hw) (va log2Size : Nat) : Hw :=
  let h := (h.put F.EVT_RING_BASE (va / 64)).put F.EVT_RING_LOG2_SIZE log2Size
  let h := (h.put F.EVT_TAIL_TAIL 0).put F.EVT_HEAD_HEAD 0
  ((h.put F.EVT_STATUS_RING_VALID (b2n (decide (log2Size ≠ 0)))).put F.EVT_STATUS_FAULT 0).put F.EVT_STATUS_RING_FULL 0

/-- `EVENT_CONFIG` (R462). -/
def execEventConfig (q : QRef) (p : Packet) (s : State) : Host.Outcome State Fault Refusal :=
  s.next fun h => h.issue specEventConfig q p fun h c =>
    let h := (h.setRing (c.f 24 6) (c.f 16 1)).put F.EVT_GROUPS_ENABLE (bits (c.f 20 2) 0 9)
    let h := h.put F.EVT_GROUPS_NOTIFY (bits (c.f 22 2) 0 9)
    { h with evt := { h.evt with vector := bits (c.f 18 2) 0 11 } }.done c 0

/-- A record (R461). -/
def EvtEntry.record (e : EvtEntry) (src seq lost phase now : Nat) : List Byte :=
  let b := leBytes 2 e.type ++ leBytes 2 src ++ leBytes 4 seq ++ leBytes 8 e.firstAt ++ leBytes 8 e.lastAt ++
    leBytes 2 e.count ++ leBytes 2 lost ++ leBytes 1 e.pid ++
    leBytes 1 (phase + 2 * b2n e.mixedPid + 4 * b2n e.mixedDetail + 8 * b2n e.spanSat + 16 * b2n (decide (65535 ≤ lost))) ++
    zeros 2 ++ leBytes 4 e.detail ++ zeros 12 ++ leBytes 8 now ++ zeros 8
  putField b 60 4 (crc32c b)

/-- Sources that have lost events and have no staged entry stage an `EVENTS_LOST` (R458). -/
def Hw.stageLost (h : Hw) : Hw :=
  (h.evt.lost.filter fun e => e.2 ≠ 0 && (h.evt.staged.find e.1).isNone).foldl (fun h e =>
    { h with evt := { h.evt with staged := h.evt.staged.put e.1 [newEntry 0x090B 0 0 h.now] } }) h

/-- The source whose entry is written next (R460): the oldest head of group 0x04, else round-robin. -/
def EvtSt.nextSource (e : EvtSt) : Option Nat :=
  let heads := e.staged.filterMap fun s => s.2.head?.map fun x => (s.1, x)
  let urgent := heads.filter fun s => s.2.type / 256 == 4
  match sortBy (fun (a b : Nat × EvtEntry) => decide (a.2.firstAt ≤ b.2.firstAt)) urgent with
  | s :: _ => some s.1
  | [] => ((heads.find? fun s => decide (e.lastServed < s.1)).orElse fun _ => heads.head?).map (·.1)

/-- Whether the ring is full (R459). -/
def Hw.ringFull (h : Hw) : Bool :=
  decide (2 ^ h.get F.EVT_RING_LOG2_SIZE ≤ (h.get F.EVT_TAIL_TAIL + 2 ^ 32 - h.get F.EVT_HEAD_HEAD) % 2 ^ 32)

/-- Writes the record of the next source; `none` when there is nothing to write or the ring cannot take it. -/
def Hw.writeRecord (h : Hw) : Option Hw :=
  match h.evt.nextSource with
  | none => none
  | some src =>
    match h.evt.staged.getD [] src with
    | [] => none
    | e :: es =>
      let size := 2 ^ h.get F.EVT_RING_LOG2_SIZE
      let tail := h.get F.EVT_TAIL_TAIL
      let seq := (h.get F.EVT_SEQ_SEQ + 1) % 2 ^ 32
      let b := e.record src seq (h.evt.lost.getD 0 src) (phaseOf tail size) h.now
      match h.writeVa 2 0 (h.get F.EVT_RING_BASE * 64 + 64 * (tail % size)) b false with
      | (some _, h) =>
        some (((h.put F.EVT_STATUS_FAULT 1).put F.EVT_STATUS_RING_VALID 0).put F.EVT_INT_STATUS_RING_FAULT 1)
      | (none, h) =>
        -- an event that the write itself raised has joined the queue behind the entry written
        let rest := (h.evt.staged.getD [] src).drop 1
        let rest := if rest.isEmpty then es else rest
        let h := { h with evt := { h.evt with staged := SMap.putD [] h.evt.staged src rest,
                                              lost := h.evt.lost.del src, lastServed := src } }
        let h := (h.addWrap F.EVT_TAIL_TAIL 1).put F.EVT_SEQ_SEQ seq
        let h := (h.put F.EVT_INT_STATUS_RECORD 1).put F.EVT_STAGED_ENTRIES h.countStaged
        let wants := bit (h.get F.EVT_GROUPS_NOTIFY) (e.type / 256 - 1) && h.evt.vectorAt ≠ some h.now
        some (if wants then ({ h with evt := { h.evt with vectorAt := some h.now } }).raiseVector 0 h.evt.vector else h)

/-- Writes up to `n` records (R459, R460). -/
def Hw.writeRecords16 (h : Hw) : Nat → Hw
  | 0 => h
  | n + 1 =>
    if ! h.on F.EVT_STATUS_RING_VALID then h
    else if h.ringFull then
      if h.evt.nextSource.isSome then (h.put F.EVT_STATUS_RING_FULL 1).put F.EVT_INT_STATUS_RING_FULL 1 else h
    else match h.writeRecord with
    | some h => h.writeRecords16 n
    | none => h

/-- `EVENT_RECORD_WRITE` (R460): up to 16 records, once in a stroke. -/
def execEventRecordWrite (s : State) : Host.Outcome State Fault Refusal :=
  s.next fun h =>
    if h.mode ≤ 1 || ! h.hubOn || h.evt.wroteAt == some h.now then h
    else
      let h := { h with evt := { h.evt with wroteAt := some h.now } }.stageLost
      h.writeRecords16 16

/-- `EVENT_ENTRY_EXPIRY` (R460): entries that have waited 2^39 strokes are dropped and counted. -/
def execEventEntryExpiry (s : State) : Host.Outcome State Fault Refusal :=
  s.next fun h =>
    h.evt.staged.foldl (fun h e =>
      let old := e.2.filter fun x => decide (x.firstAt + 2 ^ 39 ≤ h.now)
      if old.isEmpty then h
      else
        let kept := e.2.filter fun x => ! decide (x.firstAt + 2 ^ 39 ≤ h.now)
        let h := { h with evt := { h.evt with staged := SMap.putD [] h.evt.staged e.1 kept } }
        (h.put F.EVT_STAGED_ENTRIES h.countStaged).loseEvents e.1 old.length) h

/-- `EVT_HEAD_WRITE` (R470): the owner frees slots of the ring. -/
def execEvtHeadWrite (v : BitVec 64) (s : State) : Host.Outcome State Fault Refusal :=
  s.next fun h =>
    if ! h.hubOn then h
    else
      let h := h.put F.EVT_HEAD_HEAD (v.toNat % 2 ^ 32)
      if h.on F.EVT_STATUS_RING_FULL && ! h.ringFull then h.put F.EVT_STATUS_RING_FULL 0 else h

/-! The health sheet (R464 to R466). -/

/-- The count of an input over its window (R464): eight sub-windows of 2^35 strokes, or the life of the module. -/
def Hw.inputCount (h : Hw) (part input : Nat) : Nat :=
  let now := h.now / 2 ^ 35
  sumNat ((h.health.filter fun e => e.1 / 2 ^ 32 == part * 16 + input &&
    (input == inHot || input == inEdgeLost || decide (now < e.1 % 2 ^ 32 + 8))).map (·.2))

/-- The points of a part, in the four groups of R466: errors, links and training, self-test and router, and
temperature. -/
def Hw.points (h : Hw) (part : Nat) : Nat × Nat × Nat × Nat :=
  let n (i : Nat) : Nat := h.inputCount part i
  (min 400 (40 * n inHairline) + min 600 (100 * n inUncorr),
   min 300 (n inRetry / 100000 * 10) + min 300 (20 * n inRetrain) + min 300 (300 * n inEdgeLost) + min 300 (100 * n inTrain),
   min 400 (25 * n inMarginal) + min 400 (20 * n inFlit),
   min 500 (n inHot / 2 ^ 32))

/-- Whether a part is retired or lost (R464). -/
def Hw.partLost (h : Hw) (part : Nat) : Bool :=
  if part < 1152 then h.fab.retired.contains part
  else if part < 1156 then false
  else if part < 1164 then bit (h.get F.ECC_STATUS_DEV_LOST) (part - 1156)
  else if part < 1228 then h.chRetired (part - 1164)
  else if part < 1234 then h.edgeModules (part - 1228) == 0
  else false

/-- The score of a part before the limits of dies and devices. -/
def Hw.baseScore (h : Hw) (part : Nat) : Nat :=
  let (a, b, c, d) := h.points part
  if h.partLost part then 0 else 1000 - (a + b + c + d)

/-- The score of a part (R464). -/
def Hw.score (h : Hw) (part : Nat) : Nat :=
  let s := h.baseScore part
  if 1152 ≤ part ∧ part < 1156 then
    min s (sumNat ((upto (288 * (part - 1152)) 288).map h.baseScore) / 288)
  else if 1156 ≤ part ∧ part < 1164 then
    (upto (1164 + 8 * (part - 1156)) 8).foldl (fun m c => min m (h.baseScore c)) s
  else s

/-- A part's score and points as the sheet holds them, and whether it is retired or lost. -/
def Hw.sheetWord (h : Hw) (part : Nat) : Nat :=
  let (a, b, c, d) := h.points part
  h.score part + a * 2 ^ 16 + b * 2 ^ 32 + c * 2 ^ 48 + d * 2 ^ 64 + b2n (h.partLost part) * 2 ^ 80

/-- Enters or leaves WATCH or RETIRE_ADVISED (R465). -/
def Hw.judgePart (h : Hw) (part : Nat) : Hw :=
  let s := h.score part
  let h := if h.watch.contains part then (if 650 ≤ s then { h with watch := NSet.rem h.watch part } else h)
    else if s < 600 then ({ h with watch := NSet.add h.watch part }).event srcFw 0x0905 0 part else h
  if h.advised.contains part then (if 350 ≤ s then { h with advised := NSet.rem h.advised part } else h)
  else if s < 300 then ({ h with advised := NSet.add h.advised part }).event srcFw 0x0906 0 part else h

/-- Free row slots of the module (R466). -/
def Hw.sparesFree (h : Hw) : Nat := sumNat ((List.range 64).map fun r => (h.freeSlots r).length)

/-- The fields of the sheet's header by key (R466): free row slots; reserve tiles in use and vacancies by die; coats
evaluated and short coats among them. -/
def Hw.sheetHeader (h : Hw) : List (Nat × Nat) :=
  [(2000, h.sparesFree)] ++ ((List.range 4).flatMap fun d => [(2004 + d, h.reserveUsed d), (2008 + d, h.vacancies d)]) ++
  [(2012, h.coatLog.length), (2013, (h.coatLog.filter fun e => e.2).length)]

/-- The sheet is brought up to date (R464, R465). -/
def Hw.updateHealth (h : Hw) : Hw :=
  let sheet := (List.range 1280).foldl (fun m p => SMap.putD 1000 m p (h.sheetWord p)) ([] : SMap Nat)
  let sheet := h.sheetHeader.foldl (fun m e => m.put e.1 e.2) sheet
  let h := (List.range 1280).foldl (fun h p => h.judgePart p) h
  { h with scores := sheet, healthAt := h.now }

/-- `HEALTH_UPDATE` (R464): every 2^20 strokes. -/
def execHealthUpdate (s : State) : Host.Outcome State Fault Refusal :=
  s.next fun h => if 2 ≤ h.mode ∧ h.hubOn ∧ h.healthAt / 2 ^ 20 < h.now / 2 ^ 20 then h.updateHealth else h

/-- The header of section 0 (R466). -/
def Hw.healthHeader (h : Hw) : List Byte :=
  let g (k d : Nat) : Nat := h.scores.getD d k
  let by4 (k : Nat) : List Byte := (List.range 4).flatMap fun d => leBytes 1 (min 255 (g (k + d) 0))
  fit 128 (leBytes 4 0x4854_4C48 ++ leBytes 1 (h.get F.MOD_ID_SUFFIX) ++ leBytes 1 (h.get F.MOD_ID_REV_LETTER) ++
    leBytes 1 (h.get F.MOD_ID_REV_DIGIT) ++ zeros 1 ++ leBytes 8 (h.get F.MOD_SERIAL_SERIAL) ++
    leBytes 1 (h.get F.MOD_ID_FW_MAJOR) ++ leBytes 1 (h.get F.MOD_ID_FW_MINOR) ++ leBytes 1 (h.get F.MOD_ID_FW_PATCH) ++
    zeros 5 ++ leBytes 8 h.healthAt ++ leBytes 2 (g 2000 128) ++ zeros 2 ++ by4 2004 ++ by4 2008 ++
    leBytes 2 h.watch.length ++ leBytes 2 h.advised.length ++ leBytes 8 (g 2012 0) ++ leBytes 4 (g 2013 0))

/-- A part's entry (R466). -/
def Hw.healthEntry (h : Hw) (part : Nat) : List Byte :=
  let w := h.scores.getD 1000 part
  leBytes 2 (bits w 0 16) ++
    leBytes 1 (b2n (h.watch.contains part) + 2 * b2n (h.advised.contains part) + 4 * bits w 80 1) ++ zeros 5 ++
    leBytes 2 (bits w 16 16) ++ leBytes 2 (bits w 32 16) ++ leBytes 2 (bits w 48 16) ++ leBytes 2 (bits w 64 16)

/-- A journal pair's entry (R466): the pair that a Datum keeps of a queue, and whether the Datum has marked it
`STALE`. -/
def Hw.pairEntry (h : Hw) (d pid q : Nat) : List Byte :=
  let m := h.mram.getD MramPair.none (d * 4096 + pid * 16 + q)
  leBytes 1 pid ++ leBytes 1 q ++ leBytes 1 (b2n (h.queue pid q).isSome + 2 * b2n m.stale) ++ zeros 1 ++
    leBytes 6 m.acc ++ leBytes 6 m.post

/-- The section that `HEALTH_READ` names (R466). -/
def Hw.healthSection (h : Hw) (sec : Nat) : List Byte :=
  if sec = 0 then h.healthHeader ++ (List.range 1280).flatMap h.healthEntry
  else h.pairEntry (sec - 1) 0 0 ++ (upto 1 255).flatMap fun p => (List.range 16).flatMap fun q => h.pairEntry (sec - 1) p q

/-- The checks of `HEALTH_READ` (R587). -/
def specHealthRead : OpSpec :=
  { opc := 0xCA, issuer := .owner, fields := fun _ c => decide (c.f 16 1 ≤ 2) }

/-- `HEALTH_READ` (R466). -/
def execHealthRead (q : QRef) (p : Packet) (s : State) : Host.Outcome State Fault Refusal :=
  s.next fun h => h.issue specHealthRead q p fun h c => h.doneWriting c (c.f 24 6) (h.healthSection (c.f 16 1)) 0

/-! `QUERY` (R590). -/

/-- The value that `QUERY` returns. -/
def queryValue (h : Hw) (c : Cmd) : Nat :=
  match c.f 16 1 with
  | 0 => h.mode + h.clsOf c.pid * 2 ^ 8 + ((h.part c.pid).map (·.rights)).getD 0 * 2 ^ 16 + h.get F.MOD_ID_SUFFIX * 2 ^ 24
  | 1 => h.now
  | 2 => h.stn.active.id
  | 3 => h.stn.active.coatLen + h.stn.active.phase * 2 ^ 18 + h.coatPos * 2 ^ 36
  | 4 =>
    (h.quotaOf c.pid - h.jnlUsed c.pid) + (((h.part c.pid).map (·.sheetQuota)).getD 0 - h.sheetsHeld c.pid) * 2 ^ 32
  | 5 =>
    h.get F.MOD_ID_FW_MAJOR + h.get F.MOD_ID_FW_MINOR * 2 ^ 8 + h.get F.MOD_ID_FW_PATCH * 2 ^ 16 +
      h.get F.MOD_ID_REV_LETTER * 2 ^ 32 + h.get F.MOD_ID_REV_DIGIT * 2 ^ 40
  | _ => 0

/-- The checks of `QUERY` (R587). -/
def specQuery : OpSpec := { opc := 0x03 }

/-- `QUERY` (R590). -/
def execQuery (q : QRef) (p : Packet) (s : State) : Host.Outcome State Fault Refusal :=
  s.next fun h => h.issue specQuery q p fun h c => h.done c (queryValue h c)

end Sys2Proof.Machine
end

