-- ==== Sys2Proof/Machine/Resets.lean ====
section
/-! DEFINITION. Resets of dies and of the module (R161, R217, R218, R239, R311, R333, R402, R433, R449, R564 to R566). -/

namespace Sys2Proof.Machine

open Sys2Proof

/-- The codes by which a reset is named in `DETAIL` of `FAIL_ABORTED_RESET` (R213) and of `RESET` (R463); 0 is PORST. -/
def rstPart : Nat := 2
def rstDie : Nat := 3
def rstWarm : Nat := 4

/-- A tile right after a reset (R564, R565): zeroed, with what it answers to its self-test and where its rotation of
self-tests stands. -/
def Tile.afterReset (x : Tile) : Tile :=
  { Tile.fresh with condition := x.condition, rotationAt := x.rotationAt, lateRaised := x.lateRaised, section_ := x.section_
                    pulsedAt := x.pulsedAt }

/-- Resets the tiles that `mine` names; the sheets that walks on them had reserved return to the pool (R267, R270, R564). -/
def Hw.clearTiles (h : Hw) (mine : Nat → Bool) : Hw :=
  let tiles := (h.tiles.map fun (e : Nat × Tile) => if mine e.1 then (e.1, e.2.afterReset) else e).filter fun e => e.2 ≠ Tile.fresh
  let h := (h.kv.reserved.filter fun r => mine r.1).foldl (fun h r => h.dropReservations r.1) h
  { h with tiles := tiles
           dup := h.dup.filter fun d => ! mine d.tile
           fab := { h.fab with barriers := h.fab.barriers.filter fun b => ! mine b.2.2.2.2 } }

/-- The messages and flits of the positions that `gone` names are lost with their routers. -/
def Hw.clearMesh (h : Hw) (gone : Nat → Bool) : Hw :=
  { h with fab := { h.fab with
    inq := h.fab.inq.filter fun e => ! gone (e.1 / 5)
    local_ := h.fab.local_.filter fun e => ! gone e.1
    edgeQ := (h.fab.edgeQ.map fun (e : Nat × List (Nat × Flit)) =>
      (e.1, e.2.filter fun x => ! (decide (x.1 < 5120) && gone (x.1 / 5)))).filter fun e => ! e.2.isEmpty
    outSeq := h.fab.outSeq.filter fun e => ! gone (e.1 / 5)
    outTurn := h.fab.outTurn.filter fun e => ! gone (e.1 / 20) } }

/-- Relocations of a die end with the rebuild of its masks (R161, R469): a `TILE_RETIRE` that waited completes. -/
def Hw.endRelocs (h : Hw) (d : Nat) : Hw :=
  (h.fab.relocs.filter fun r => r.die == d).foldl (fun h r =>
    match r.cmd with
    | some (p, q, n) => h.finishAt p q n 0 (if r.shift then 0 else 1) 0 {}
    | none => h) h

/-- Pinned images install again, those that are undercoat-pinned first, in handle order within each partition (R239). -/
def Hw.reinstallPinned (h : Hw) : Hw :=
  let want (f : Model → Bool) (h : Hw) : Hw :=
    ((h.models.filter fun e => e.2.state == 0 && f e.2).map (·.1)).foldl (fun h k => h.install (k / 64) (k % 64)) h
  want (fun m => m.pinned) (want (fun m => m.ucPinned) h)

/-- Firmware sets the SRAM windows of the tiles that serve images from their claims again (R232). -/
def Hw.restoreWindows (h : Hw) (mine : Nat → Bool) : Hw :=
  let ts := h.models.foldl (fun (s : NSet) e => (h.modelTiles (e.1 / 64) e.2).foldl NSet.add s) []
  (ts.filter mine).foldl (fun h t => h.setWindows t) h

/-- The domains that `DIE_RESET` switches (R514): the quadrants, the edge and the control of a die. -/
def dieDomains (d : Nat) : List Nat := [0, 1, 2, 3, 4, 6].map (7 * d + ·)

/-- Switches a list of domains. -/
def Hw.switchAll (h : Hw) (ks : List Nat) (on : Bool) : Hw := ks.foldl (fun h k => h.switch k on) h

/-- Whether a die's control is up. -/
def Hw.dieUp? (h : Hw) (d : Nat) : Bool := h.domainOn (7 * d + 6)

/-- A `DIE_RESET` begins (R217, R239, R311, R449, R564): work with slices on the die ends, its tiles and blocks are
initialised, and its domains go off.  The requests at its finisher end; their summaries wait for the die. -/
def Hw.dieDown (h : Hw) (d : Nat) : Hw :=
  let mine (t : Nat) : Bool := t / 288 == d
  let hit := h.jobs.filter fun j => j.begun.isSome && (h.jobTiles j).any fun e => mine e.2.2
  let lost := h.models.filter fun e => (h.modelTiles (e.1 / 64) e.2).any mine
  let h := hit.foldl (fun h j => h.endJob j 0x3008 rstDie) h
  let h := lost.foldl (fun h e => h.toRegistered (e.1 / 64) (e.1 % 64)) h
  let h := (h.clearTiles mine).clearMesh fun l => dieOfLogical l == d
  let dfin := h.dfin.map fun (r : DfinReq) => if r.fin == d then { r with fin := d + 4 } else r
  let h := ({ h with dfin := dfin }).showDfin
  let h := h.resetBlocks (0x100 + 288 * d) (0x100 + 288 * d + 287)
  (h.switchAll (dieDomains d) false).event srcFw 0x0908 0 rstDie

/-- Tests every tile of a die that is not retired: all 16 sections; one that fails is retired (R108, R556). -/
def Hw.testDie (h : Hw) (d : Nat) : Hw :=
  (upto (288 * d) 288).foldl (fun h t =>
    if h.fab.retired.contains t then h
    else
      let bad := (h.tile t).fails
      let h := h.runAllSections t
      if bad then { h.markRetired t 0 with sys := { h.sys with dieDue := h.sys.dieDue.del d } } else h) h

/-- A `DIE_RESET` ends (R161, R402, R564): the die has its supply, its tiles are tested, its masks are rebuilt, its images
install again, and the summaries of the requests that its finisher lost are written. -/
def Hw.dieBack (h : Hw) (d : Nat) : Hw :=
  let mine (t : Nat) : Bool := t / 288 == d
  let h := ((h.switchAll (dieDomains d) true).testDie d).endRelocs d
  let h := ((h.rebuildDie d).restoreWindows mine).reinstallPinned
  let h := h.dfinDieReset d
  { h with sys := { h.sys with dieDue := h.sys.dieDue.del d } }

/-- Whether the module runs in a mode in which dies are reset. -/
def Hw.running (h : Hw) : Bool := h.fabricOn

/-- `DIE_RESET` (R449, R564): a die that a restart or a thermal stop has reset already is brought back, unless its
temperature still holds it (R523). -/
def execDieReset (d : Fin 4) (s : State) : Host.Outcome State Fault Refusal :=
  s.next fun h =>
    if ! h.running || h.sys.gov.dieHeld.contains d.val then h
    else (if h.dieUp? d.val then h.dieDown d.val else h).dieBack d.val

/-! Restarts under the Firad-1-compatible policy (R401, R402). -/

/-- `DIE_RESTART` (R402): at S+600 the attributed dies reset. -/
def execDieRestart (s : State) : Host.Outcome State Fault Refusal :=
  s.next fun h =>
    match h.trv.restart with
    | none => h
    | some r =>
      if ! h.running || r.begun || decide (h.now < r.since + 600) then h
      else
        let h := (r.dies.filter h.dieUp?).foldl (fun h d => h.dieDown d) h
        let h := { h with trv := { h.trv with restart := some { r with begun := true } } }
        h.datumsOn.foldl (fun h d => h.event (srcDatum d) 0x0406 0 (mask 4 fun i => r.dies.contains i)) h

/-- The bits of a restart in `RESTART` (R463). -/
def Restart.bits (r : Restart) : Nat := mask 4 fun i => r.dies.contains i

/-- `RESTART_COMPLETE` (R402): the dies are back in service, and the reason clears. -/
def execRestartComplete (s : State) : Host.Outcome State Fault Refusal :=
  s.next fun h =>
    match h.trv.restart with
    | none => h
    | some r =>
      if ! h.running || ! r.begun || r.dies.any h.sys.gov.dieHeld.contains then h
      else
        let h := (r.dies.filter fun d => ! h.dieUp? d).foldl (fun h d => h.dieBack d) h
        let h := { h with trv := { h.trv with restart := none, restartedAt := some h.now } }
        let h := [0, 1].foldl (fun h d => h.unlatch d dieReason) h
        h.datumsOn.foldl (fun h d =>
          (h.put (F.DTM_INT_STATUS_RESTART_DONE.datum d) 1).event (srcDatum d) 0x0406 0 (r.bits + 256)) h

/-- `RESTART_TIMEOUT` (R402): a die that is not back by S+750,000 keeps its reason, and the native policy applies. -/
def execRestartTimeout (s : State) : Host.Outcome State Fault Refusal :=
  s.next fun h =>
    match h.trv.restart with
    | none => h
    | some r =>
      if h.now < r.since + 750000 then h
      else (({ h with trv := { h.trv with restart := none } }).showDtm 0).showDtm 1

/-! Bringing silicon up (R412, R433, R452). -/

/-- A sweep in which every point passes. -/
def fullSweep : LaneSweep :=
  { rd := List.replicate 128 (BitVec.allOnes 64), wr := List.replicate 128 (BitVec.allOnes 64) }

/-- A lane's sweep. -/
def laneOf (b : BringUp) (n : Nat) : LaneSweep := b.sweeps.getD n fullSweep

/-- Trains a channel that is about to serve (R412, R433): one that was retired is re-admitted when it passes; one that
fails retires, or stays retired. -/
def Hw.bringChannel (h : Hw) (b : BringUp) (c : Nat) : Hw :=
  let was := h.chRetired c
  match h.trainChannel c (laneOf b (2 * c)) (laneOf b (2 * c + 1)) with
  | (true, h) => if was then h.readmit c else h.put (F.MC_STATUS_STATE.blk c) 1
  | (false, h) => if was then h else (h.put (F.MC_STATUS_STATE.blk c) 1).startRetire c 1 none

/-- The UCIe modules in service after link training (R153, R452). -/
def Hw.bringEdges (h : Hw) (b : BringUp) : Hw :=
  let full (e : Nat) : Nat := if e < 4 then 6 else 4
  let up (e : Nat) : Nat :=
    match b.edges[e]? with
    | some n => Nat.min n.val (full e)
    | none => full e
  let ms := (List.range 6).foldl (fun m e => SMap.putD (full e) m e (up e)) []
  { h with fab := { h.fab with modules := ms } }

/-- The command processors run their lockstep self-test (R225, R452): TESTING, then RUN or FAILED; the first that runs serves
the owner queue. -/
def Hw.bringCps (h : Hw) (b : BringUp) : Hw :=
  let h := (List.range 4).foldl (fun h n => h.put (F.CP_STATUS_STATE.blk n) 2) h
  let h := (List.range 4).foldl (fun h n => h.put (F.CP_STATUS_STATE.blk n) (if b.cpPass.getLsbD n then 0 else 3)) h
  match firstNat 4 fun n => b.cpPass.getLsbD n with
  | some n => h.put (F.CP_STATUS_OWNER_Q.blk n) 1
  | none => h

/-! `MODULE_WARM` (R218, R564, R565). -/

/-- The engine opcodes (R208). -/
def engineOpc (o : Nat) : Bool := [0x40, 0x71, 0x80, 0x81, 0xE1].contains o

/-- What was fetched and not taken is fetched again after a recovery (R217). -/
def Hw.dropFetched (h : Hw) (f : Fetched → Bool) : Hw :=
  let gone := h.fetched.filter f
  let h := gone.foldl (fun h x => h.modQueue x.pid x.queue fun q => { q with fetchedSlots := q.fetchedSlots - x.slots }) h
  let held := h.sys.grp.held.filter fun y => ! gone.any fun x => x.pid == y.pid && x.queue == y.queue && x.pkt == y.pkt
  let kept := h.fetched.filter fun x => ! f x
  { h with fetched := kept, sys := { h.sys with grp := { h.sys.grp with held := held } } }

/-- The trajectories ordered and not yet adopted are ordered again from the start of their commands (R218). -/
def Hw.rerunOrders (h : Hw) : Hw :=
  let os := h.trv.orders
  let h := { h with trv := { h.trv with orders := [] } }
  os.foldl (fun h o => h.modCmd o.traj.pid o.queue o.num fun c => { c with begun := false }) h

/-- Step and Rerun commands that had begun without completing run again from their start (R217, R218).  What such a command
has left in the module stands as running it again leaves it: the watch of a `SOB_WAIT`, which it resumes; the order of a
swap, a budget change, a destruction or an `UNMAP`; an installation, which starts anew. -/
def Hw.rerun (h : Hw) (mine : Cmd → Bool) : Hw :=
  h.addSat F.JNL_RECOVERY_RERUN (h.cmds.countP fun c => c.begun && c.entry.isNone && ! engineOpc c.opc && mine c)

/-- Posts what stands finished in a queue, in order (R218); at most `n` entries. -/
def Hw.postAll (h : Hw) (pid q : Nat) : Nat → Hw
  | 0 => h
  | n + 1 =>
    match (h.toPost pid q).bind (·.entry) with
    | some _ => ((h.post pid q).addSat F.JNL_RECOVERY_REPOSTED 1).postAll pid q n
    | none => h

/-- The queues of the module. -/
def Hw.allQueues (h : Hw) : List (Nat × Nat) := h.parts.flatMap fun p => p.2.queues.map fun q => (p.1, q.1)

/-- The recovery of every queue (R218), whose mirrors show it until fetching resumes (R196). -/
def Hw.recoverQueues (h : Hw) : Hw :=
  let n := h.cmds.length
  let h := h.allQueues.foldl (fun h q => h.setMirror q.1 q.2 mirRecovering) h
  let h := h.parts.foldl (fun h p => p.2.queues.foldl (fun h q => h.postAll p.1 q.1 n) h) h
  h.put F.JNL_INT_STATUS_RECOVERED 1

/-- Engine commands that had begun end (R217, R218). -/
def Hw.abortEngines (h : Hw) : Hw :=
  let begun (p q n : Nat) : Bool := (h.cmd? p q n).any (·.begun)
  let jobs := h.jobs.filter fun j => begun j.pid j.queue j.num
  let gjobs := h.sys.grp.jobs.filter fun j => begun j.pid j.queue j.num
  let h := jobs.foldl (fun h j => h.endJob j 0x3008 rstWarm) h
  let h := gjobs.foldl (fun h j => h.endGJob j 0x3008 rstWarm {}) h
  let h := (h.fusWarm).abortCands none rstWarm
  let h := h.trv.updates.foldl (fun h u => h.finishAt u.pid u.queue u.num 0x3008 0 rstWarm {}) h
  { h with trv := { h.trv with updates := h.trv.updates.filter (·.delivered) } }

/-- Buffers in progress are discarded and counted as lost (R333). -/
def Hw.loseBuffers (h : Hw) : Hw :=
  h.ing.streams.foldl (fun h e =>
    match e.2.cur with
    | none => h
    | some b =>
      let share := h.ing.share.foldl (fun (m : SMap (List IngWrite)) x =>
        SMap.putD [] m x.1 (x.2.filter fun w => ! (w.key == e.1 && w.n == b.n))) []
      let h := { h with ing := { h.ing with share := share } }
      h.modStream e.1 fun s => { s with cur := none, lostTotal := s.lostTotal + 1, lostSince := s.lostSince + 1 }) h

/-- Every tile, router, station and finisher as a reset of the hub and all dies leaves them (R161, R239, R311, R565). -/
def Hw.resetFabric (h : Hw) : Hw :=
  let h := h.models.foldl (fun h e => h.toRegistered (e.1 / 64) (e.1 % 64)) h
  let h := (h.clearTiles fun _ => true).clearMesh fun _ => true
  let h := { h with fab := { h.fab with station := [], stationQ := [], responses := [], retryMarks := [] }, dup := [] }
  let h := h.resetBlocks 0x100 0x57F
  let h := (List.range 4).foldl (fun h d => ((h.endRelocs d).rebuildDie d).dfinDieReset d) h
  let arbs := h.sys.arbs.map fun (e : Nat × Arb) => (e.1, { e.2 with granted := [], parked := false, left := 0 })
  { h with sys := { h.sys with dieDue := [], arbs := arbs } }

/-- Retirements under way end with the reset: their commands complete, and the channels train (R431, R433). -/
def Hw.settleRetiring (h : Hw) : Hw :=
  let cs := h.sys.dram.retiring.map (·.channel)
  let old := h.modDram fun d => { d with retiring := d.retiring.map fun r => { r with at_ := r.at_ - 3 } }
  cs.foldl (fun h c => h.completeRetire c) (old.modDram fun d => { d with durable := [] })

/-- The domains that are on while the module runs (R514): all. -/
def runDomains : List Nat := List.range 48

/-- The 48 V domains of the hub's compute side. -/
def hubDomains : List Nat := [28, 29, 30, 31, 32, 33, 34, 35]

/-- `MODULE_WARM` whose save has completed (R218, R564, R565): the hub and the compute dies reset; Datums and DRAM keep
their contents. -/
def Hw.warmReset (h : Hw) (b : BringUp) : Hw :=
  let h := ((h.put F.JNL_RECOVERY_RERUN 0).put F.JNL_RECOVERY_REPOSTED 0).put F.JNL_RECOVERY_ABORTED 0
  let before := (h.cmds.filter fun c => c.entry.isNone && engineOpc c.opc).length
  let h := h.abortEngines
  let h := h.put F.JNL_RECOVERY_ABORTED (min 65535 (before - (h.cmds.filter fun c => c.entry.isNone && engineOpc c.opc).length))
  let h := (((h.rerun fun _ => true).rerunOrders).dropFetched fun _ => true).loseBuffers
  let h := { h with seqStopped := false }
  let h := (h.settleRetiring).resetFabric
  let h := ((h.resetBlocks 0x008 0x00B).bringCps b).bringEdges b
  let h := h.switchAll (hubDomains ++ ((List.range 4).filter fun d => ! h.sys.gov.dieHeld.contains d).flatMap dieDomains) true
  let h := ((List.range 64).filter h.chRetired).foldl (fun h c => h.bringChannel b c) h
  let h := if h.sys.dram.rebuild.isEmpty then h else h.startRebuild
  let h := (((h.restoreWindows fun _ => true).reinstallPinned).apcWarm).clearAtWarm 0
  let h := (h.clearAtWarm 1)
  let h := { h with trv := { h.trv with restart := none, hubReason := none } }
  let h := ((h.showDtm 0).showDtm 1).addSat F.MOD_START_WARM_COUNT 1
  ((h.put F.MOD_START_LAST_RESET 3).event srcFw 0x0908 0 rstWarm).recoverQueues

/-! PORST (R161, R220, R464, R537, R564, R565, R574). -/

/-- A Datum marks pairs `STALE` (R220, R574). -/
def Hw.markStale (h : Hw) (d : Nat) (which : MramPair → Bool) : Hw :=
  { h with mram := h.mram.map fun (e : Nat × MramPair) =>
      if e.1 / 4096 == d && which e.2 then (e.1, { e.2 with stale := true }) else e }

/-- The journal pairs that a Datum marks `STALE` at PORST: those that changed in the 10 strokes before the freeze point
that PORST ends (R574), and all when PORST cuts a loss sequence before the final pairs were sent (R220). -/
def Hw.staleAtPorst (h : Hw) : Hw :=
  let h := match h.sys.frozenAt with
    | some f =>
      let near (m : MramPair) : Bool := decide (f + 2 ≤ m.at_ + 10)
      (h.markStale 0 near).markStale 1 near
    | none => h
  if h.sys.lost.isSome ∧ h.sys.lossStage < 3 then (h.markStale 0 fun _ => true).markStale 1 fun _ => true else h

/-- The identity registers show what the housing label says (R4), once a start-up has read it. -/
def Hw.showLabel (h : Hw) : Hw :=
  match h.sys.label with
  | none => h
  | some l =>
    let h := (h.put F.MOD_ID_SUFFIX (if l.development then 0x44 else 0x41)).put F.MOD_ID_REV_LETTER (0x41 + l.revLetter.val)
    let h := (h.put F.MOD_ID_REV_DIGIT (0x30 + l.revDigit.val)).put F.MOD_SERIAL_SERIAL l.serial.val
    (h.put F.MOD_DATE_YEAR l.year.toNat).put F.MOD_DATE_WEEK l.week.val

/-- PORST (R564, R565): everything returns to its reset value but for what the Datums' MRAM and flash keep, the fuses, the
counts kept for the life of the module, the levels on the pins, and the silicon itself.  With WAKE low the module is OFF. -/
def Hw.porst (h : Hw) (last : Nat) : Hw :=
  let h := h.staleAtPorst
  let dbg := h.on F.DBG_STATUS_DBG_EN
  let (nonce, h) := h.random
  let r := Hw.reset
  let tiles := (h.tiles.map fun (e : Nat × Tile) => (e.1, { Tile.fresh with condition := e.2.condition })).filter fun e => e.2 ≠ Tile.fresh
  let sys := { r.sys with
    flash := h.sys.flash, wake := h.sys.wake, frzLow := h.sys.frzLow, porstLow := h.sys.porstLow, can := h.sys.can
    label := h.sys.label
    gov := { r.sys.gov with above := h.sys.gov.above } }
  let n : Hw := { r with
    freeIx := h.freeIx, rndIx := h.rndIx, mram := h.mram, tiles := tiles, health := h.health, watch := h.watch
    advised := h.advised, outs := h.outs, sys := sys
    fab := { r.fab with mramRetired := h.fab.mramRetired, badRouter := h.fab.badRouter, headerBad := h.fab.headerBad } }
  let n := (n.put F.DBG_CHALLENGE_NONCE nonce.toNat).put F.DBG_STATUS_DBG_EN (b2n dbg)
  let n := (n.put F.MOD_START_LAST_RESET last).showLabel
  if n.sys.wake then n else n.put F.MOD_MODE_MODE 0

/-- `MODULE_WARM` (R218, R564): when what it saves before it resets is not saved, the reset goes on as PORST. -/
def Hw.moduleWarm (h : Hw) (b : BringUp) : Hw := if b.saved then h.warmReset b else h.porst 3

end Sys2Proof.Machine
end

