-- ==== Sys2Proof/Machine/TileGate.lean ====
section
/-! DEFINITION. The stroke gate (R63 to R66, R79, R103, R242): what a tile does at its local stroke pulse;
the end of a relocation (R159, R160), and a late self-test (R108). -/

namespace Sys2Proof.Machine

open Sys2Proof

/-- The window that a physical tile serves in the present stroke, with the logical tile as which it serves it
(R51, R63, R160): its own position's, but for PIDs redirected from it, or that of a vacant position which it
substitutes. -/
def Hw.gateWindow (h : Hw) (t : Nat) : Option (WinRow × Nat) :=
  match h.logicalOf t with
  | none => none
  | some l =>
    let st := h.stn.active
    (st.winsOn h.coatPos).findSome? fun w =>
      let pid := st.winPid w
      if st.winHas w l && h.redirect pid l == l then some (w, l)
      else
        match h.fab.redirects.find? fun r => r.pid == pid && r.subst == l && st.winHas w r.vacant with
        | some r => some (w, r.vacant)
        | none => none

/-- `CAP` of a die (R519). -/
def Hw.dieCap (h : Hw) (d : Nat) : Nat := bits (h.reg 0x001 0x38) (16 * d) 16

/-- B of R519. -/
def Hw.baseClock (h : Hw) : Nat := if h.on F.PWR_STATUS_BOOST then 1400 else 1200

/-- The clock that firmware gives a tile for a stroke (R519): that of its window, 400 MHz without one; in a
SELFTEST window the present one. -/
def Hw.tileClock (h : Hw) (t : Nat) : Nat :=
  match h.gateWindow t with
  | none => 400
  | some (w, _) =>
    if (h.stn.active.winAct w).kind = 2 then h.get (F.TILE_CLK_MHZ.blk t)
    else max (cdiv w.fMin 100 * 100) (min (h.dieCap (t / 288)) h.baseClock)

/-- The cause of an overrun (R65): the clock below the window's `F_MIN`, a wait for bytes, a wait for DRAM,
or the slice itself.  DESIGN CHOICE (log entry 44): where several hold, the first of `CLOCK`, `WAIT_RECV`, `WAIT_DRAM`,
`SLICE` is recorded. -/
def Hw.cutCause (h : Hw) (t : Nat) (s : Slice) : Nat :=
  if h.get (F.TILE_CLK_MHZ.blk t) < s.fMin then 3
  else if s.waits.any (·.net) then 1
  else if s.waits ≠ [] then 2
  else 0

/-- The causes that the tiles of an incident report (R66): those that overran in the same stroke of the same activity, those
included whose own pulse is still to come. -/
def Hw.incidentCauses (h : Hw) (o : Overrun) : List Nat :=
  h.tiles.flatMap fun e =>
    ((e.2.overruns.filter fun x => x.stroke == o.stroke && x.pid == o.pid && x.act == o.act && x.cause ≠ 4).map (·.cause)) ++
    (match e.2.slice with
     | some s => if s.state = .running ∧ s.pid = o.pid ∧ s.act = o.act ∧ e.2.pulsedAt < h.now ∧ o.stroke + 1 = h.now
         then [h.cutCause e.1 s] else []
     | none => [])

/-- Whether a tile's overrun or FAULT_STOP calls for the known-answer test (R66 step 1, R103). -/
def Hw.incidentTests (h : Hw) (o : Overrun) : Bool := o.cause ≠ 1 || (h.incidentCauses o).all (· == 1)

/-- Whether a tile redoes a job stroke of a job (R66, R103). -/
def Tile.redoing (x : Tile) (pid seq k : Nat) : Bool :=
  x.overruns.any fun o => o.worked && o.pid == pid && o.seq == seq && o.k == k

/-- A job ends `FAIL_TILE_FAULT` over a tile (R66, R103); for class D it is a detected fault. -/
def Hw.tileFault (h : Hw) (t pid seq l : Nat) : Hw :=
  let h := match h.jobBySeq pid seq with
    | some j => h.modJob j.pid j.queue j.num fun j => if j.fail.isSome then j else { j with fail := some (0x3005, l) }
    | none => h
  if pid ≠ 0 && h.clsOf pid == 0 then h.detect 0x0B (some (t / 288)) pid else h

/-- Notes how a slice ended (R66, R103).  The first time its job stroke awaits its test and redo; when a redone job stroke
ends so again, whichever of the two ways each was (log entry 45), the job fails, and only a FAULT_STOP leaves a test due. -/
def Hw.noteFailure (h : Hw) (t : Nat) (s : Slice) (cause : Nat) : Hw :=
  let bound := (h.jobBySeq s.pid s.seq).any fun j => h.runHandle j == s.handle
  let o : Overrun :=
    { stroke := h.now - 1, pid := s.pid, act := s.act, cause := cause, seq := if bound then s.seq else 0, k := s.k, worked := false }
  let mine (y : Overrun) : Bool := y.pid == s.pid && y.seq == s.seq
  if (h.tile t).redoing s.pid s.seq s.k then
    (h.tileFault t s.pid s.seq s.pos).modTile t fun x =>
      { x with overruns := x.overruns.filter (fun y => ! mine y) ++ if cause = 4 then [o] else [] }
  else h.modTile t fun x => { x with overruns := x.overruns.filter (fun y => ! mine y) ++ [o] }

/-- A slice still running is cut off (R65), reported, and its incident opened (R66). -/
def Hw.cutOff (h : Hw) (t : Nat) (s : Slice) : Hw :=
  let c := h.cutCause t s
  let h := (h.event (srcTile t) 0x0301 s.pid (c + s.act % 1024 * 65536)).addSat F.STN_OVERRUN_COUNT_COUNT 1
  let h := (h.put F.STN_INT_STATUS_OVERRUN 1).endSlice t .cutOff
  h.noteFailure t s c

/-- A slice that ended in FAULT_STOP is due for its test (R103). -/
def Hw.noteFaultStop (h : Hw) (t : Nat) (s : Slice) : Hw :=
  (h.noteFailure t s 4).modTile t fun x => { x with slice := none }

/-- A slice has reached its final `COMMIT`: a redo of its job stroke has succeeded, and with 64 cycles left the tile has run
its next section (R66, R107). -/
def Hw.closeCommitted (h : Hw) (t : Nat) (s : Slice) (slack : Bool) : Hw :=
  let h := h.modTile t fun x =>
    { x with overruns := x.overruns.filter fun y => ! (y.worked && y.pid == s.pid && y.seq == s.seq && y.k == s.k) }
  if slack then h.rotateSection t else h

/-- Closes the stroke that ends at a tile (R78, steps 1 and 2); `slack` says whether a committed slice left 64 tile cycles. -/
def Hw.closeStroke (h : Hw) (t : Nat) (slack : Bool) : Hw :=
  match (h.tile t).slice with
  | none => h
  | some s =>
    match s.state with
    | .running => h.cutOff t s
    | .faultStop => h.noteFaultStop t s
    | .committed => h.closeCommitted t s slack
    | _ => h

/-- The begun job of an activity. -/
def Hw.runningJob (h : Hw) (pid act : Nat) : Option Job :=
  h.jobs.find? fun j => j.pid == pid && j.begun.isSome && h.jobAct j == some act

/-- Sets or drops a tile's note of a failed slice. -/
def Tile.workedOff (x : Tile) (o : Overrun) (keep : Bool) : Tile :=
  { x with overruns := if keep then x.overruns.map fun y => if y = o then { o with worked := true } else y
                       else x.overruns.filter fun y => y ≠ o }

/-- What follows an overrun or a FAULT_STOP whose tested tile is sound (R66, R103): the stroke is redone
once, or the job fails. -/
def Hw.afterSound (h : Hw) (t l : Nat) (o : Overrun) : Hw :=
  if ! (h.jobBySeq o.pid o.seq).any fun j => j.fail.isNone then h.modTile t (·.workedOff o false)
  else if o.cause = 4 ∧ 2 ≤ h.clsOf o.pid then (h.tileFault t o.pid o.seq l).modTile t (·.workedOff o false)
  else h.modTile t (·.workedOff o true)

/-- The known-answer test of a tile runs in place of a slice (R66, R103, R389): the state that `TILE_STATE` shows in that
stroke, and whether the tile is bad, which retires it. -/
def Hw.testTile (h : Hw) (t : Nat) : Hw × Bool :=
  let bad := (h.tile t).fails
  let h := (h.runAllSections t).put (F.TILE_STATE_STATE.blk t) 2
  (if bad then h.retireTile t 0 none else h, bad)

/-- Works off an overrun or FAULT_STOP of a tile in a stroke of its activity (R66, R103), with the known-answer
test where one is due. -/
def Hw.workIncident (h : Hw) (t l : Nat) (o : Overrun) : Hw :=
  if h.incidentTests o then
    let bad := (h.tile t).fails
    let h := if bad then h.modTile t (·.workedOff o (o.pid ≠ 0)) else h
    let h := (h.testTile t).1
    if bad then h else h.afterSound t l o
  else h.afterSound t l o

/-- The test of a tile after a duplex mismatch (R389, step 2). -/
def Hw.workDuplexTest (h : Hw) (t : Nat) : Hw :=
  ((h.modTile t fun x => { x with testDue := false }).testTile t).1

/-- A scrub of 256 granules (R107): what a read of them would find, it finds. -/
def Hw.scrub (h : Hw) (t : Nat) : Hw :=
  let x := h.tile t
  let lo := x.scrubPos
  let gs := (x.badGranules ++ x.weakGranules).filter fun g => decide (lo ≤ g) && decide (g < lo + 256)
  (gs.foldl (fun h g => h.sramErrors t g) h).modTile t fun x => { x with scrubPos := (lo + 256) % 16384 }

/-- The gate of a tile without a slice: no partition and no activity has it (R109). -/
def Hw.shutGate (h : Hw) (t : Nat) : Hw :=
  ((h.put (F.TILE_STATE_GATE.blk t) 0).put (F.TILE_STATE_PID.blk t) 0).put (F.TILE_STATE_ACT.blk t) 0

/-- A stroke in which the gate passes no partition work (R63, R107): the next section in rotation; a tile in FAULT_STOP,
in which no section runs, scrubs. -/
def Hw.idleStroke (h : Hw) (t : Nat) : Hw :=
  let h := h.shutGate t
  let st := h.get (F.TILE_STATE_STATE.blk t)
  if st = 0 ∨ st = 1 then h.rotateSection t
  else if st = 4 then h
  else h.scrub t

/-- The bytes of a sender's messages to a slot that have landed for a K (R145). -/
def Tile.landedBytes (x : Tile) (pid src slot k : Nat) : Nat :=
  sumNat ((x.landed.filter fun e => e.pid == pid && e.src == src && e.slot == slot && e.k == k).map (·.bytes))

/-- Whether every input half that a slice for job stroke `k` depends on is committed (R64, R155): for each
held-input area a `COMMIT` for k − 1 from every declared sender (log entry 28), which came in an earlier stroke (R42) and
whose bytes have all landed (R145). -/
def inputsCommitted (x : Tile) (b : Binding) (k now : Nat) : Bool :=
  k == 0 || b.areas.all fun a => a.senders.all fun s => a.got.any fun g =>
    g.1 == s && g.2.1 + 1 == k && decide (g.2.2.2 < now) && decide (g.2.2.1 ≤ x.landedBytes b.pid s a.slot g.2.1)

/-- Whether every half that the slice may write has been released, in an earlier stroke, for the strokes before (R42,
R156). -/
def outputsReleased (x : Tile) (pid hd k now : Nat) : Bool :=
  x.owed.all fun o => ! (o.1 / 1024 == pid + 256 * hd && o.2.2.1 % 2 == k % 2 && decide (o.2.2.1 < k) &&
    ! o.2.2.2.any fun r => decide (r < now))

/-- The slice bound on a tile for job stroke `k` (R79, R229, R242): its list address. -/
def Binding.sliceFor (b : Binding) (k : Nat) : Option Nat :=
  (b.runs.find? fun r => decide (r.kFirst ≤ k) && decide (k < r.kFirst + r.kCount)).map fun r =>
    r.slices.getD ((k - r.kFirst) % r.p) 0

/-- The slice start state (R95). -/
def startSeq (old : Seq) (b : Binding) (batch k lvl seed : Nat) : Seq :=
  { Seq.fresh with
    s := (((List.replicate 16 0).set 14 batch).set 15 (k % 2 ^ 32))
    vsp := b.stkHi, stkLo := b.stkLo, stkHi := b.stkHi, lvl := lvl, seed := seed
    vlevel := old.vlevel, pc := old.pc }

/-- The trace record of a gate that opens or holds, when its tile is the one observed (R579, R580). -/
def Hw.traceGate (h : Hw) (l act pid k hold : Nat) : Hw :=
  if h.sys.trace.any fun t => t.tileX + 32 * t.tileY == l then
    h.traceAdd 1 pid (leBytes 4 act ++ leBytes 4 k ++ leBytes 1 hold)
  else h

/-- The gate opens and the slice starts (R78, steps 5 and 6; R95). -/
def Hw.startSlice (h : Hw) (t : Nat) (w : WinRow) (j : Job) (b : Binding) (dup : Bool) (k list : Nat) : Hw :=
  let act := w.act
  let sl : Slice :=
    { pid := j.pid, act := act, handle := b.handle, copy := b.copy, queue := j.queue, num := j.num, seq := j.seq,
      k := k, list := list, dup := dup, state := .running, staged := [], sobs := [], sent := [], notices := [],
      sig := 0, readHalves := [], lastMac := none, carryRead := [], failed := none, pos := b.pos,
      fMin := w.fMin, waits := [], portsHeld := [] }
  let h := h.modTile t fun x =>
    { x with
      seq := startSeq x.seq b j.batch k (x.lvlKept.getD 0 (j.pid * 1024 + act)) (strokeSeed j.pid j.seq k)
      accs := [], cells := [], slice := some sl
      owed := x.owed.filter fun o => ! o.2.2.2.any fun r => decide (r < h.now) }
  let h := (h.put (F.TILE_STACK_STK_LO.blk t) b.stkLo).put (F.TILE_STACK_STK_HI.blk t) b.stkHi
  let h := (h.put (F.TILE_STATE_PID.blk t) j.pid).put (F.TILE_STATE_ACT.blk t) act
  (h.put (F.TILE_STATE_GATE.blk t) 1).put (F.TILE_STATE_HOLD.blk t) 0

/-- A hold (R64): the slice does not start in this stroke. -/
def Hw.holdTile (h : Hw) (t : Nat) : Hw := (h.put (F.TILE_STATE_HOLD.blk t) 1).idleStroke t

/-- Whether a `DUPLEX` job holds a job stroke back (R388, R389). -/
def Hw.dupHolds (h : Hw) (j : Job) (k : Nat) : Bool :=
  j.redo.isSome || decide (j.matched + 1 < k) ||
    (j.mismatchedOnce && (h.jobTiles j).any fun e => (h.tile e.2.2).testDue ||
      (h.get (F.TILE_STATE_STATE.blk e.2.2) == 2 && (h.tile e.2.2).pulsedAt == h.now))

/-- The gate of a tile with a window (R78, steps 4 to 6; R242). -/
def Hw.gateFor (h : Hw) (t l : Nat) (w : WinRow) (j : Job) (m : Model) (b : Binding) : Hw :=
  let act := w.act
  let k := j.passed (b.copy * 1024 + l)
  if m.jobLen j.batch ≤ k then h.idleStroke t
  else if m.duplex && h.dupHolds j k then (h.traceGate l act j.pid k 1).holdTile t
  else
    match b.sliceFor k with
    | none => (h.modTile t fun x => { x with idleFor := some (j.pid, j.queue, j.num, b.copy * 1024 + l, k) }).idleStroke t
    | some list =>
      if inputsCommitted (h.tile t) b k h.now && outputsReleased (h.tile t) j.pid b.handle k h.now then
        (h.traceGate l act j.pid k 0).startSlice t w j b m.duplex k list
      else (h.traceGate l act j.pid k 1).holdTile t

/-- The job's slice, when one is bound for this stroke. -/
def Hw.gateRun (h : Hw) (t l pid : Nat) (w : WinRow) : Hw :=
  match h.runningJob pid w.act with
  | none => h.idleStroke t
  | some j =>
    if ! j.begun.any (fun b => decide (b < h.now)) || j.cancelled.isSome || j.fail.isSome then h.idleStroke t
    else
      match h.runModel j, (h.tile t).binds.find? fun b => b.pid == pid && b.handle == h.runHandle j && b.pos == l with
      | some m, some b =>
        if m.duplex && (h.tile t).testDue then (h.workDuplexTest t).shutGate t else h.gateFor t l w j m b
      | _, _ => h.idleStroke t

/-- The note of a failed slice that a tile works off in a stroke of a partition's activity: that activity's, or one of a tile
that ran no slice (R66, R103). -/
def Tile.incident (x : Tile) (pid act : Nat) : Option Overrun :=
  x.overruns.find? fun o => ! o.worked && (o.pid == 0 || (o.pid == pid && o.act == act))

/-- The gate opens, holds or stays closed for the stroke that begins (R63, R64, R78). -/
def Hw.openGate (h : Hw) (t : Nat) : Hw :=
  let h := h.put (F.TILE_STATE_HOLD.blk t) 0
  let x := h.tile t
  match h.gateWindow t with
  | none =>
    match x.incident 0 0 with
    | some o => (h.workIncident t 0 o).shutGate t
    | none => h.idleStroke t
  | some (w, l) =>
    let pid := h.stn.active.winPid w
    if pid = 0 ∨ h.isShed pid ∨ h.inShift t then h.idleStroke t
    else
      match x.incident pid w.act with
      | some o => (h.workIncident t l o).shutGate t
      | none => if h.get (F.TILE_STATE_STATE.blk t) = 0 then h.gateRun t l pid w else h.idleStroke t

/-- What has happened to a tile's silicon since its last pulse (R101, R104, R108). -/
def Hw.upsetTile (h : Hw) (t : Nat) (u : TileUpset) : Hw :=
  h.modTile t fun x =>
    { x with badGranules := u.bad.foldl (fun s g => NSet.add s g.val) x.badGranules
             weakGranules := u.weak.foldl (fun s g => NSet.add s g.val) x.weakGranules
             condition := if u.sections = [] ∧ u.parity = decide (x.condition.getD 16 0 ≠ 0) then x.condition
               else (u.sections.foldl (fun c e => c.set e.1.val e.2.val) ((List.range 17).map fun i => x.condition.getD i 0)).set 16 (b2n u.parity) }

/-- A test that has ended shows no longer (R109). -/
def Hw.endTest (h : Hw) (t : Nat) : Hw :=
  if h.get (F.TILE_STATE_STATE.blk t) = 2 then h.put (F.TILE_STATE_STATE.blk t) (if (h.logicalOf t).isSome then 0 else 1) else h

/-- A tile's local stroke pulse (R42, R63, R78): it acts once in each stroke. -/
def Hw.tilePulse (h : Hw) (t : Nat) (u : TileUpset) : Hw :=
  if ! h.fabricOn || h.seqStopped || ! h.domainOn (tileDomain t) || h.sys.gov.dieHeld.contains (t / 288) ||
     decide (h.now ≤ (h.tile t).pulsedAt) then h
  else
    let h := ((((h.upsetTile t u).closeStroke t u.slack).creditIdle t).endTest t).modTile t fun x =>
      { x with pulsedAt := h.now, slice := match x.slice with
          | some s => if s.state = .running then x.slice else none
          | none => none }
    let h := h.put (F.TILE_CLK_MHZ.blk t) (h.tileClock t)
    (h.resendMem fun r => decide (r.src < 1024) && h.physOf r.src == some t).openGate t

/-- `TILE_STROKE_PULSE` (R63). -/
def execTileStrokePulse (t : TilePulse) (s : State) : Host.Outcome State Fault Refusal :=
  s.next fun h => h.tilePulse t.tile.val t.upset

/-- `ST_LATE` (R108): a rotation has not ended for 100,000 strokes. -/
def execStLate (t : Fin 1152) (s : State) : Host.Outcome State Fault Refusal :=
  s.next fun h =>
    let x := h.tile t.val
    if h.fabricOn && ! h.fab.retired.contains t.val && ! x.lateRaised && decide (x.rotationAt + 100000 ≤ h.now) then
      ((h.put (F.TILE_INT_STATUS_ST_LATE.blk t.val) 1).event (srcTile t.val) 0x0204 0 0).modTile t.val fun x =>
        { x with lateRaised := true }
    else h

/-- `ROW_SHIFT_COMPLETE` (R159): the copy of a row has ended and its mask changes at the pulse after. -/
def execRowShiftComplete (row : Fin 64) (s : State) : Host.Outcome State Fault Refusal :=
  s.next fun h =>
    match h.fab.relocs.find? fun x => x.shift && x.die * 16 + x.row == row.val with
    | some x => if h.fabricOn ∧ x.sinceStroke + 2 ≤ h.now then h.completeShift x else h
    | none => h

/-- The addresses of the SRAM windows of a PID that hold a position's units (R76, R160). -/
def Hw.unitsOf (h : Hw) (pid l a : Nat) : Bool := bit (h.claimMask pid l) (a / 4096)

/-- The copy of a PID's windows to a substitute ends, and the routers redirect its flits (R160).  A position without a column
has nothing to copy. -/
def Hw.completeSubstitute (h : Hw) (x : Reloc) : Hw :=
  match h.physOf x.target with
  | none => h
  | some ts =>
    let inW (a : Nat) : Bool := h.unitsOf x.pid x.logical a
    let h := match x.retired with
      | none => h
      | some was =>
        let src : Tile := h.tile was
        (h.markRelocated was x.pid).modTile ts fun (d : Tile) =>
          { d with
            sram := (src.sram.filter fun (e : Host.Cell) => inW e.1).foldl (fun m (e : Host.Cell) => SMap.putD 0 m e.1 e.2)
                      (d.sram.filter fun e => ! inW e.1)
            stain := ((src.badGranules.foldl NSet.add src.stain).filter fun g => inW (g * 32)).foldl NSet.add
                      (d.stain.filter fun g => ! inW (g * 32))
            binds := d.binds ++ src.binds.filter fun (b : Binding) => b.pid == x.pid && b.pos == x.logical
            owed := d.owed ++ src.owed.filter fun (o : Nat × Nat × Nat × Option Nat) => o.1 / 1024 % 256 == x.pid
            landed := d.landed ++ src.landed.filter fun (e : Landed) => e.pid == x.pid
            lvlKept := (src.lvlKept.filter fun (e : Nat × Nat) => e.1 / 1024 == x.pid).foldl (fun m (e : Nat × Nat) => SMap.put m e.1 e.2) d.lvlKept
            lvlJobs := d.lvlJobs ++ src.lvlJobs.filter fun (e : Nat × Nat) => e.1 == x.pid && ! d.lvlJobs.contains e
            overruns := d.overruns ++ src.overruns.filter fun (o : Overrun) => o.pid == x.pid }
    let h := { h with fab := { h.fab with
      redirects := h.fab.redirects ++ [Redirect.mk x.pid x.logical x.target]
      relocs := h.fab.relocs.filter fun y => y ≠ x } }
    let h := h.setWindows ts
    let h := h.event (srcTile (x.retired.getD ts)) 0x0206 x.pid (1 + (h.now - x.sinceStroke) % 65536 * 65536)
    match x.cmd with
    | some (p, q, n) =>
      if h.fab.relocs.any fun y => y.logical == x.logical then h else h.finishAt p q n 0 1 0 {}
    | none => h

/-- `SUBSTITUTE_COPY_COMPLETE` (R160): the copy of a PID's windows from a vacant position has ended. -/
def execSubstituteCopyComplete (l : Fin 1024) (pid : Fin 256) (s : State) : Host.Outcome State Fault Refusal :=
  s.next fun h =>
    match h.fab.relocs.find? fun x => ! x.shift && x.logical == l.val && x.pid == pid.val with
    | some x => if h.fabricOn ∧ x.sinceStroke < h.now then h.completeSubstitute x else h
    | none => h

end Sys2Proof.Machine
end

