-- ==== Sys2Proof/Machine/Power.lean ====
section
/-! DEFINITION. Power, capping and temperatures (R400, R453, R506 to R525, R532). -/

namespace Sys2Proof.Machine

open Sys2Proof

/-! Inputs (R506, R528). -/

/-- Whether an input lies in its operating range (R506): J1 (`false`) 36 to 54 V, J2 9 to 16 V. -/
def inputOk (j2 : Bool) (mv : Nat) : Bool :=
  if j2 then decide (9000 ≤ mv) && decide (mv ≤ 16000) else decide (36000 ≤ mv) && decide (mv ≤ 54000)

/-- An input's voltage is measured (R528); `left` when it has left its operating range. -/
def Hw.setInput (h : Hw) (j2 : Bool) (mv : Nat) : Bool × Hw :=
  let ok := inputOk j2 mv
  let f := if j2 then F.PWR_STATUS_J2_OK else F.PWR_STATUS_J1_OK
  let was := h.on f
  let h := (h.put f (b2n ok)).put (if j2 then F.PWR_INPUT_J2_MV else F.PWR_INPUT_J1_MV) mv
  if was && ! ok then (true, h.put F.PWR_INT_STATUS_INPUT_RANGE 1) else (false, h)

/-- `INPUT_RANGE` (R506): an input is at a voltage; the event is raised once for each time it leaves its range. -/
def execInputRange (j2 : Bool) (mv : BitVec 17) (s : State) : Host.Outcome State Fault Refusal :=
  s.next fun h =>
    let (left, h) := h.setInput j2 mv.toNat
    if left then h.event srcPower 0x0602 0 (b2n j2 + mv.toNat * 256) else h

/-! Main-power loss (R220, R400, R512). -/

/-- The domains of J1 (R513): all but the Datums' and the output stage's. -/
def j1Domains : List Nat := List.range 36 ++ [42, 43, 44, 45, 46]

/-- The camera switches follow PD_CAMPWR (R316). -/
def Hw.followCams (h : Hw) : Hw := (List.range 24).foldl (fun h q => h.camPower q) h

/-- Main-power loss is detected (R512): S+0.  In FROZEN the module switches off and sends nothing (R573), and
a freeze of the same stroke is not performed (R581). -/
def Hw.mainPowerLoss (h : Hw) : Hw :=
  if h.sys.lost.isSome || h.mode = 0 then h
  else if h.on F.DBG_STATUS_FROZEN then
    ({ h with sys := { h.sys with lost := some h.now, lossStage := 3 } }.switchAll (List.range 48) false).put F.MOD_MODE_MODE 0
  else
    let h := if h.sys.frozenAt = some h.now then { h with seqStopped := false, sys := { h.sys with frozenAt := none } } else h
    let h := { h with sys := { h.sys with lost := some h.now, lossStage := 0 }
                      trv := { h.trv with hubReason := some (0x0A, h.now) } }
    ((h.switch 46 false).followCams.event srcPower 0x0601 0 0).detect 0x0A none 0

/-- `MAIN_POWER_LOSS` (R512): J1 has dropped to a voltage below 32 V, or current has reversed. -/
def execMainPowerLoss (mv : BitVec 17) (s : State) : Host.Outcome State Fault Refusal :=
  s.next fun h => (h.setInput false mv.toNat).2.mainPowerLoss

/-- `J1_OVERVOLTAGE` (R506): J1 above 60 V for 10 µs. -/
def execJ1Overvoltage (mv : BitVec 17) (s : State) : Host.Outcome State Fault Refusal :=
  s.next fun h => (h.setInput false mv.toNat).2.mainPowerLoss

/-- `RETURN_CURRENT_STOP` (R532): the return current of J1 flows in AUX12_N. -/
def execReturnCurrentStop (s : State) : Host.Outcome State Fault Refusal := s.next fun h => h.mainPowerLoss

/-- A stage of the loss sequence (R220, R512): 0 at S+1, 1 at S+10, 2 at S+100; `gotA` and `gotB` tell which Datums have
received the final pairs. -/
def Hw.lossStep (h : Hw) (stage : Nat) (gotA gotB : Bool) : Hw :=
  match stage with
  | 0 =>
    let h := h.switchAll [29, 30, 31, 32, 35] false
    (List.range 32).foldl (fun h n => h.sliceEnd n) h
  | 1 => h.switchAll ((List.range 4).flatMap fun d => [0, 1, 2, 3, 4].map (7 * d + ·)) false
  | _ =>
    let h := h.sendHubRecord.switchAll j1Domains false
    let h := if gotA then h else h.markStale 0 fun _ => true
    let h := if gotB then h else h.markStale 1 fun _ => true
    h.put F.JNL_INT_STATUS_MRAM_STALE (b2n (! gotA || ! gotB))

/-- The stroke of a stage after detection. -/
def lossAt (stage : Nat) : Nat := if stage = 0 then 1 else if stage = 1 then 10 else 100

/-- `LOSS_SEQUENCE_STAGE` (R512): the next stage that is due. -/
def execLossSequenceStage (gotA gotB : Bool) (s : State) : Host.Outcome State Fault Refusal :=
  s.next fun h =>
    match h.sys.lost with
    | none => h
    | some t =>
      let k := h.sys.lossStage
      if 3 ≤ k ∨ h.now < t + lossAt k then h
      else ({ h with sys := { h.sys with lossStage := k + 1 } }).lossStep k gotA gotB

/-- A Datum goes down: without supply, it loses its state and drives nothing (R400). -/
def Hw.downDatum (h : Hw) (d : Nat) : Hw :=
  ((h.resetDatum d).modDatum d fun x => { x with down := true }).driveLoop d

/-- `AUX12_LOSS` (R400): J2 below 7.5 V at the Datum converters: both Datums reset, both loops open. -/
def execAux12Loss (mv : BitVec 17) (s : State) : Host.Outcome State Fault Refusal :=
  s.next fun h =>
    let h := (h.setInput true mv.toNat).2
    if ! h.domainOn 36 && ! h.domainOn 39 then h
    else
      let h := (h.switchAll [36, 37, 38, 39, 40, 41, 47] false).downDatum 0 |>.downDatum 1
      let h := match h.trv.hubReason with
        | some (0x0A, _) => h
        | _ => { h with trv := { h.trv with hubReason := some (0x06, h.now) } }
      { h with detected := [] }

/-! Rails (R515). -/

/-- The reaction to a rail fault (R515). -/
def Hw.railReaction (h : Hw) (k : Nat) : Hw :=
  if k < 28 then
    let d := k / 7
    if k % 7 < 4 then h.dieFault d 0
    else if k % 7 = 4 then h.dieFault d 1
    else if k % 7 = 5 then (h.loseDevice (2 * d)).loseDevice (2 * d + 1)
    else h.dieFault d 2
  else if k = 28 ∨ k = 33 ∨ k = 34 then h.mainPowerLoss
  else if k ≤ 32 then (upto (8 * (k - 29)) 8).foldl (fun h n => h.sliceEnd n) (h.switch k false)
  else if k = 35 then (h.fus.batches.map (·.pid)).foldl (fun h p => h.fusAbort p 0x3008 rstWarm) (h.switch 35 false)
  else if k ≤ 41 then
    let d := (k - 36) / 3
    ((h.resetDatum d).driveLoop d).latchOwn (1 - d) 0x06 none 0
  else if k ≤ 45 then (h.loseDevice (2 * (k - 42))).loseDevice (2 * (k - 42) + 1)
  else if k = 46 then
    let on := (List.range 24).filter fun q => h.get (F.CAM_STATUS_PWR_STATE.blk q) == 1
    let h := (h.switch 46 false).followCams
    on.foldl (fun h q => (h.put (F.CAM_INT_STATUS_PWR_FAULT.blk q) 1).event (srcCam q) 0x0506 0 0) h
  else [0, 1].foldl (fun h d => (h.driveLoop d).latchOwn d 0x09 none 0) (h.switch 47 false)

/-- `RAIL_FAULT` (R515): in a domain that is on; none is recorded in one that the loss sequence is switching off (R527). -/
def execRailFault (k : Fin 48) (s : State) : Host.Outcome State Fault Refusal :=
  s.next fun h =>
    if ! h.domainOn k.val || (h.sys.lost.isSome && j1Domains.contains k.val) then h
    else
      let h := (h.put (F.PWR_RAIL_FAULT_FAULT.bit k.val) 1).put F.PWR_INT_STATUS_RAIL 1
      if h.on F.DBG_STATUS_FROZEN then h
      else (h.event srcPower 0x0606 0 k.val).railReaction k.val

/-! Operating points and capping (R519 to R521). -/

/-- Changes the governor. -/
def Hw.modGov (h : Hw) (f : Gov → Gov) : Hw := { h with sys := { h.sys with gov := f h.sys.gov } }

/-- A sensor's reading in °C (R522). -/
def Hw.temp (h : Hw) (s : Nat) : Int := sx 8 (h.sys.gov.temps.getD 0 s)

/-- The boost thresholds of R522. -/
def boostAt (s : Nat) : Option Int :=
  if s < 72 then some 95 else if s < 80 then some 90 else if 90 ≤ s ∧ s ≤ 93 then some 95 else none

/-- The throttle thresholds of R522. -/
def throttleAt (s : Nat) : Option Int :=
  if s < 72 then some 105 else if s < 80 then some 100 else if s < 88 then some 85 else if s ≤ 93 then some 110 else none

/-- The temperatures at which `THERMAL` is latched (R522). -/
def thermalAt (s : Nat) : Option Int :=
  if s < 72 then some 120 else if s < 80 then some 115 else if s < 88 then some 95 else if s ≤ 93 then some 125 else none

/-- `LIMIT_W`: values outside 300 to 750 act as the nearer end (R528). -/
def Hw.limitW (h : Hw) : Nat := max 300 (min 750 (h.get F.PWR_LIMIT_LIMIT_W))

/-- The floor of a cluster's clock in units of 100 MHz (R528). -/
def Hw.apcFloor (h : Hw) (k : Nat) : Nat := max 8 (min 26 (bits (h.reg 0x001 0x20) (8 * k) 8))

/-- A cluster's clock in units of 100 MHz. -/
def Hw.apcClock (h : Hw) (k : Nat) : Nat := h.sys.gov.clocks.getD 26 k

/-- Boost is permitted or not (R519). -/
def Hw.refreshBoost (h : Hw) : Hw :=
  let cool := (List.range 96).all fun s => (boostAt s).all fun t => decide (h.temp s < t)
  let ok := h.on F.PWR_LIMIT_BOOST_EN && ! h.sys.gov.withdrawn && cool && decide (h.sys.gov.noBoostAt + 1000 ≤ h.now)
  h.put F.PWR_STATUS_BOOST (b2n ok)

/-- `CAPPING` follows the caps and the cluster clocks (R528). -/
def Hw.showCapping (h : Hw) : Hw :=
  h.put F.PWR_STATUS_CAPPING (b2n ((List.range 4).any fun n => decide (h.dieCap n < 1400) || decide (h.apcClock n < 26)))

/-- A die's cap changes (R520). -/
def Hw.setCap (h : Hw) (d mhz : Nat) : Hw :=
  let h := h.setReg 0x001 0x38 (setBits (h.reg 0x001 0x38) (16 * d) 16 mhz)
  ((h.put F.PWR_INT_STATUS_CAP 1).event srcThermal 0x0603 0 (d + mhz * 65536)).showCapping

/-- A cluster's clock changes. -/
def Hw.setApcClock (h : Hw) (k v : Nat) : Hw :=
  (h.modGov fun g => { g with clocks := SMap.putD 26 g.clocks k v }).showCapping

/-- The highest F among the windows that run on a die in the present stroke (R519, R520). -/
def Hw.dieF (h : Hw) (d : Nat) : Nat :=
  let s := h.stn.active
  ((s.winsOn h.coatPos).filter fun w => (s.winAct w).kind == 0 && tilesOnDie (s.bitmap w) d ≠ 0).foldl
    (fun m w => max m (cdiv w.fMin 100 * 100)) 0

/-- The sensors of an element of R520: a die with its PHY edges and the sensors beside its devices, a cluster (the hub's
sensors), the input (those of the power stages). -/
def elementSensors (e : Nat) : List Nat :=
  if e < 4 then upto (18 * e) 18 ++ [80 + 2 * e, 81 + 2 * e] else if e < 8 then upto 72 8 else upto 90 4

/-- Whether an element is over its limit (R520). -/
def Hw.overLimit (h : Hw) (p : PowerSample) (e : Nat) : Bool :=
  let hot := (elementSensors e).any h.sys.gov.hot.contains
  if e < 4 then hot
  else if e < 8 then hot && (p.hottest.getD p.topCluster).val == e - 4
  else hot || decide (h.limitW < p.inW.toNat)

/-- The first action of R520 that still has an effect on an element; `none` when none has. -/
def Hw.capAction (h : Hw) (p : PowerSample) (e : Nat) : Option Hw :=
  if h.on F.PWR_STATUS_BOOST then some (h.modGov fun g => { g with withdrawn := true }).refreshBoost
  else
    let die := if e < 4 then some e else if e = 8 then some p.topDie.val else none
    let cl := if e < 4 then p.hottest.map (·.val) else if e < 8 then some (e - 4) else some p.topCluster.val
    let lower (d : Nat) : Option Hw :=
      let now := min (h.dieCap d) h.baseClock
      let new := max (now - 100) (max (h.dieF d) 400)
      if new < now then some (h.setCap d new) else none
    let slow (k : Nat) : Option Hw := if h.apcFloor k < h.apcClock k then some (h.setApcClock k (h.apcClock k - 1)) else none
    (die.bind lower).orElse fun _ => cl.bind slow

/-- Whether a partition has windows on an element. -/
def Hw.onElement (h : Hw) (e pid : Nat) : Bool :=
  let s := h.stn.active
  if e < 4 then s.wins.any fun w => s.winPid w == pid && tilesOnDie (s.bitmap w) e ≠ 0
  else if e < 8 then h.hosts (e - 4) pid
  else s.wins.any fun w => s.winPid w == pid

/-- An element over its limit on which no action has an effect (R520): after 100,000 strokes the module sheds, with cause 5. -/
def Hw.stuckElement (h : Hw) (e : Nat) : Hw :=
  match h.sys.gov.stuck.find e with
  | none => h.modGov fun g => { g with stuck := g.stuck.put e h.now }
  | some t =>
    if h.now < t + 100000 then h
    else
      let h := h.modGov fun g => { g with stuck := g.stuck.put e h.now }
      match h.shedOrder.find? fun p => ! h.isShed p && h.onElement e p with
      | some p => h.shedPart p 5
      | none => h

/-- The evaluation of one element (R520). -/
def Hw.evalElement (h : Hw) (p : PowerSample) (e : Nat) : Hw :=
  let clear (h : Hw) : Hw := h.modGov fun g => { g with stuck := g.stuck.del e }
  if h.overLimit p e then
    match h.capAction p e with
    | some h => clear h
    | none => h.stuckElement e
  else clear h

/-- `GOVERNOR_EVALUATION` (R520): once in 100 strokes. -/
def execGovernorEvaluation (p : PowerSample) (s : State) : Host.Outcome State Fault Refusal :=
  s.next fun h =>
    if ! h.running || decide (h.now < h.sys.gov.evalAt + 100) then h
    else
      let h := (h.put F.PWR_POWER_J1_MA p.j1ma.toNat).put F.PWR_POWER_IN_W p.inW.toNat
      let h := (h.put F.PWR_POWER_J2_MA p.j2ma.toNat).put F.PWR_POWER_CAM_W p.camW.toNat
      let h := h.modGov fun g => { g with evalAt := h.now }
      let h := if h.limitW ≤ p.peakW.toNat + 100 then h.modGov fun g => { g with noBoostAt := h.now } else h
      (List.range 9).foldl (fun h e => h.evalElement p e) h.refreshBoost

/-- Whether the sensors of an element and the input power let it rise (R521). -/
def Hw.mayRaise (h : Hw) (e : Nat) : Bool :=
  ((elementSensors e).all fun s => (throttleAt s).all fun t => decide (h.temp s + 5 ≤ t)) &&
  decide (100 * h.get F.PWR_POWER_IN_W ≤ 95 * h.limitW)

/-- Raises a cap or a cluster clock by 100 MHz (R521). -/
def Hw.raiseElement (h : Hw) (e : Nat) : Hw :=
  if ! h.mayRaise e then h
  else if e < 4 then (if h.dieCap e < 1400 then h.setCap e (min 1400 (h.dieCap e + 100)) else h)
  else if h.apcClock (e - 4) < 26 then h.setApcClock (e - 4) (h.apcClock (e - 4) + 1) else h

/-- `GOVERNOR_RAISE` (R521): once in 1,000 strokes; boost last. -/
def execGovernorRaise (s : State) : Host.Outcome State Fault Refusal :=
  s.next fun h =>
    if ! h.running || decide (h.now < h.sys.gov.raiseAt + 1000) then h
    else
      let h := h.modGov fun g => { g with raiseAt := h.now }
      let full := (List.range 4).all fun n => h.dieCap n == 1400 && h.apcClock n == 26
      if full then
        let back := (h.modGov fun g => { g with withdrawn := false }).refreshBoost
        if back.on F.PWR_STATUS_BOOST then back else h
      else (List.range 8).foldl (fun h e => h.raiseElement e) h

/-- `CAPACITY_SHED` (R453): decided at a stroke boundary. -/
def execCapacityShed (s : State) : Host.Outcome State Fault Refusal :=
  s.next fun h => if h.running then h.shedAndPlace else h

/-! Temperatures and coolant (R522 to R525). -/

/-- The parts whose time above the throttle threshold one sensor counts (R522): tiles by their row sensor, a device and its
channels, a Datum. -/
def hotParts (s : Nat) : List Nat :=
  if s < 72 then (if s % 18 < 16 then upto (288 * (s / 18) + 18 * (s % 18)) 18 else [])
  else if 80 ≤ s ∧ s < 88 then partDevice (s - 80) :: (upto (8 * (s - 80)) 8).map partChannel
  else if s = 88 ∨ s = 89 then [partDatum (s - 88)] else []

/-- One sensor's sample (R522): the highest reading, the throttle threshold and the temperature of `THERMAL`. -/
def Hw.sampleSensor (h : Hw) (s : Nat) (b : BitVec 8) : Hw :=
  let t := b.toInt
  let h := h.modGov fun g =>
    { g with temps := SMap.putD 0 g.temps s b.toNat
             maxT := match g.maxT.find s with
               | some m => if sx 8 m < t then g.maxT.put s b.toNat else g.maxT
               | none => g.maxT.put s b.toNat }
  let reached := (throttleAt s).any fun x => decide (x ≤ t)
  let was := h.sys.gov.hot.contains s
  let h := h.modGov fun g => { g with hot := if reached then NSet.add g.hot s else NSet.rem g.hot s }
  let h := if reached && ! was then
      (h.put F.PWR_INT_STATUS_OVER_TEMP 1).event srcThermal 0x0604 0 (s + unsx 16 t * 65536)
    else h
  let h := if (throttleAt s).any fun x => decide (x < t) then
      let h := h.modGov fun g => { g with above := g.above.mod 0 s (· + 100) }
      (hotParts s).foldl (fun h p => h.healthAdd p inHot 100) h
    else h
  if (thermalAt s).any fun x => decide (x ≤ t) then h.detect 0x0F none 0 else h

/-- The time above the throttle threshold of a die, by any of its sensors (R522). -/
def Hw.dieTime (h : Hw) (d : Nat) : Hw :=
  if (upto (18 * d) 18).any fun s => decide (105 < h.temp s) then h.healthAdd (partDie d) inHot 100 else h

/-- The thermal stop of a die (R523): at 125 °C it is held in `DIE_RESET` until every sensor reads below 100 °C. -/
def Hw.thermalStop (h : Hw) (d : Nat) : Hw :=
  let ts := (upto (18 * d) 18).map h.temp
  if h.sys.gov.dieHeld.contains d then
    if ts.all fun t => decide (t < 100) then
      (h.modGov fun g => { g with dieHeld := NSet.rem g.dieHeld d }).dieBack d
    else h
  else if ts.any fun t => decide (125 ≤ t) then
    let h := h.modGov fun g => { g with dieHeld := NSet.add g.dieHeld d }
    if h.dieUp? d then h.dieDown d else h
  else h

/-- The coolant flags (R525). -/
def Hw.sampleCoolant (h : Hw) : Hw :=
  let i := h.temp 94
  let o := h.temp 95
  let h := (h.put F.PWR_COOLANT_IN_C (unsx 8 i)).put F.PWR_COOLANT_OUT_C (unsx 8 o)
  let warm := decide (((h.get F.PWR_POWER_IN_W : Nat) : Int) < 235 * (o - i - 2))
  let h := h.modGov fun g => { g with outletAt := if warm then g.outletAt.orElse fun _ => some h.now else none }
  let low := h.sys.gov.outletAt.any fun t => decide (t + 1000 ≤ h.now)
  let high := decide (65 < i)
  let rose := (low && ! h.on F.PWR_COOLANT_FLOW_LOW) || (high && ! h.on F.PWR_COOLANT_INLET_HIGH)
  let h := (h.put F.PWR_COOLANT_FLOW_LOW (b2n low)).put F.PWR_COOLANT_INLET_HIGH (b2n high)
  if rose then (h.put F.PWR_INT_STATUS_COOLANT 1).event srcThermal 0x0605 0 (unsx 32 i) else h

/-- `TEMPERATURE_SAMPLE` (R522): once in 100 strokes, the readings of the sensors in °C; a sensor beyond the list keeps its
reading. -/
def execTemperatureSample (ts : List (BitVec 8)) (s : State) : Host.Outcome State Fault Refusal :=
  s.next fun h =>
    if ! h.running || decide (h.now < h.sys.gov.sampleAt + 100) then h
    else
      let h := h.modGov fun g => { g with sampleAt := h.now }
      let h := (List.zip (List.range 96) ts).foldl (fun h e => h.sampleSensor e.1 e.2) h
      let h := (List.range 4).foldl (fun h d => (h.dieTime d).thermalStop d) h
      h.sampleCoolant.refreshBoost

/-- `CAP` and temperatures of R528 that registers show: the view that `PWR_TEMP_SEL` selects. -/
def Hw.tempView (h : Hw) : Nat :=
  let s := h.get F.PWR_TEMP_SEL_SENSOR
  if 96 ≤ s then 0
  else
    h.sys.gov.temps.getD 0 s + h.sys.gov.maxT.getD 0 s * 2 ^ 8 +
      min (2 ^ 32 - 1) (h.sys.gov.above.getD 0 s / 2 ^ 20) * 2 ^ 32

end Sys2Proof.Machine
end

