-- ==== Sys2Proof/Machine/Time.lean ====
section
/-! DEFINITION. Module time: its sources, measurements, holdover and steps (R40 to R43, R537, R619, R620). -/

namespace Sys2Proof.Machine

open Sys2Proof

/-! Sources (R619). -/

/-- The source in use is lost (R43, R619): `HOLDOVER`, and no lock. -/
def Hw.sourceLost (h : Hw) : Hw :=
  let h := (h.put F.TIME_STATUS_LOCKED 0)
  let h := { h with sys := { h.sys with locks := 0, ppsAt := none } }
  if h.on F.TIME_STATUS_HOLDOVER then h
  else ((h.put F.TIME_STATUS_HOLDOVER 1).put F.TIME_INT_STATUS_HOLDOVER 1).event srcTime 0x0302 0 1

/-- The steering that follows a measurement: a free value within ±100 ppm in units of 0.01 ppm (R40; log entry 33). -/
def Hw.steer (h : Hw) : Hw :=
  let (w, h) := h.free
  h.put F.TIME_OFFSET_STEER (unsx 16 ((w.toNat % 20001 : Nat) - 10000 : Int))

/-- A valid measurement of the source in use, with its offset in ns (R619). -/
def Hw.measured (h : Hw) (off : Int) : Hw :=
  let h := if h.on F.TIME_STATUS_HOLDOVER then (h.put F.TIME_STATUS_HOLDOVER 0).event srcTime 0x0302 0 0 else h
  let sat : Int := if off < -(2 ^ 31) then -(2 ^ 31) else if 2 ^ 31 - 1 < off then 2 ^ 31 - 1 else off
  let h := (h.put F.TIME_OFFSET_OFFSET (unsx 32 sat)).steer
  let n := if off.natAbs ≤ 100 then h.sys.locks + 1 else 0
  let h := { h with sys := { h.sys with locks := n, measured := true } }
  if 1000 < off.natAbs then h.put F.TIME_STATUS_LOCKED 0
  else if 16 ≤ n && ! h.on F.TIME_STATUS_LOCKED then (h.put F.TIME_STATUS_LOCKED 1).put F.TIME_INT_STATUS_LOCKED 1
  else h

/-- Whether the module keeps time: the hub and its reference run. -/
def Hw.timeRuns (h : Hw) : Bool := h.hubOn && decide (2 ≤ h.mode)

/-- `PTP_SYNC` (R619): a Sync message on a backbone port in the slave state, with the offset that it yields (source time
minus module time, ns) and the grandmaster's identity; only the selected port steers (R550). -/
def execPtpSync (port : Fin 2) (off : BitVec 64) (clockId : BitVec 64) (s : State) : Host.Outcome State Fault Refusal :=
  s.next fun h =>
    if ! h.timeRuns then h
    else
      let h := (h.addSat (F.BB_COUNT_RX.nth port.val) 1).put (if port.val = 0 then F.BB_STATUS_PTP0 else F.BB_STATUS_PTP1) 1
      if h.sys.srcInUse = port.val then (h.put F.TIME_GM_CLOCK_ID clockId.toNat).measured off.toInt else h

/-- The distance in ns from a time to the nearest whole second after `base`. -/
def nearSecond (base ns : Nat) : Int :=
  let r := (ns - base) % 1000000000
  if r ≤ 500000000 then -(r : Int) else ((1000000000 - r : Nat) : Int)

/-- `PPS_IN_EDGE` (R537, R619): a rising edge, `ns10` steps of 10 ns after the stroke pulse; `good` when its rise time and
its high time are within their bounds.  The predicted second lies whole seconds after the last usable edge. -/
def execPpsInEdge (ns10 : Fin 100) (good : Bool) (s : State) : Host.Outcome State Fault Refusal :=
  s.next fun h =>
    if ! h.timeRuns then h
    else
      let t := 1000 * h.now + 10 * ns10.val
      let near := match h.sys.ppsAt with
        | some a => decide ((nearSecond a t).natAbs ≤ 10000)
        | none => true
      if ! good then h
      else if ! near then
        (h.addSat F.TIME_STATUS_PPS_REJECT 1).put F.TIME_INT_STATUS_PPS_REJECT 1
      else if h.sys.srcInUse = 2 then
        ({ h with sys := { h.sys with ppsAt := some t } }.put F.TIME_GM_CLOCK_ID 0).measured (nearSecond 0 t)
      else { h with sys := { h.sys with ppsAt := some t } }

/-- `HOLDOVER` (R43, R537, R619): the source in use is lost: a backbone port leaves the slave state (`left`) or is silent
for 3 sync intervals, or PPS_IN has had no usable edge for 2.5 s. -/
def execHoldover (left : Bool) (s : State) : Host.Outcome State Fault Refusal :=
  s.next fun h =>
    let k := h.sys.srcInUse
    if ! h.timeRuns || k == 3 then h
    else if k = 2 then
      if h.sys.ppsAt.all fun a => decide (a + 2500000000 ≤ 1000 * h.now) then h.sourceLost else h
    else
      let h := if left then h.put (if k = 0 then F.BB_STATUS_PTP0 else F.BB_STATUS_PTP1) 0 else h
      h.sourceLost

/-- `TIME_SRC_WRITE` (R619, R621): a write of `TIME_SRC`, which its `LOCK` holds; a change acts at the next stroke
boundary. -/
def Hw.writeSrc (h : Hw) (v : Nat) : Hw :=
  if h.locked 0x002 || bits v 0 2 == h.get F.TIME_SRC_SRC then h
  else { (h.put F.TIME_SRC_SRC (bits v 0 2)) with sys := { h.sys with srcAt := some h.now } }

/-- `TIME_SRC_WRITE`. -/
def execTimeSrcWrite (v : BitVec 64) (s : State) : Host.Outcome State Fault Refusal :=
  s.next fun h => if h.hubOn then h.writeSrc v.toNat else h

/-- The stroke boundary after a change of source (R619): a loss of the old source; `TIME_GM` reads 0 while the source is no
backbone port (R621). -/
def Hw.switchSource (h : Hw) : Hw :=
  match h.sys.srcAt with
  | none => h
  | some _ =>
    let old := h.sys.srcInUse
    let h := { h with sys := { h.sys with srcInUse := h.get F.TIME_SRC_SRC, srcAt := none, measured := false } }
    let h := if 2 ≤ h.sys.srcInUse then h.put F.TIME_GM_CLOCK_ID 0 else h
    if old = 3 then h else h.sourceLost

/-! Steps (R620). -/

/-- A write of `TIME_STEP`: refused, or a step awaits its coat boundary (R620). -/
def Hw.writeStep (h : Hw) (v : Nat) : Hw :=
  let d := sx 64 v
  let ok := (h.mode == 2 || h.mode == 4 || h.mode == 5) && h.stn.swapAt.isNone && h.sys.step.isNone &&
    decide (d.natAbs ≤ 2 ^ 62)
  if ok then { h.put F.TIME_STATUS_STEP_PENDING 1 with sys := { h.sys with step := some (d, h.now) } }
  else h.put F.TIME_INT_STATUS_STEP_REFUSED 1

/-- `TIME_STEP` (R620). -/
def execTimeStep (v : BitVec 64) (s : State) : Host.Outcome State Fault Refusal :=
  s.next fun h => if h.hubOn then h.writeStep v.toNat else h

/-- A stroke moved by a number of strokes.  A step of Δ moves the deadlines that R620 names by Δ, and the starts of
intervals by Δ − 1, since the boundary's own stroke has passed (log entry 34). -/
def moved (d : Int) (n : Nat) : Nat := ((n : Int) + d).toNat

/-- A Datum's strokes moved by a step: deadlines and the starts of running intervals. -/
def Datum.moved (d : Int) (x : Datum) : Datum :=
  let m := Machine.moved (d - 1)
  let md := Machine.moved d
  { x with
    envAt := m x.envAt
    owedAt := x.owedAt.map m
    queue := x.queue.map fun c => { c with dl := c.dl.map md }
    slots := x.slots.map fun v => { v with stroke := m v.stroke }
    slotAt := x.slotAt.map m
    peerAt := m x.peerAt
    linkAt := x.linkAt.map fun e => (e.1, m e.2)
    levelAt := m x.levelAt
    sentAt := x.sentAt.map m
    time := m x.time % 2 ^ 64 }

/-- The hub's side of the safety path moved by a step. -/
def TrvHub.moved (d : Int) (x : TrvHub) : TrvHub :=
  let m := Machine.moved (d - 1)
  { x with
    lastSurvey := x.lastSurvey.map m
    lastDust := x.lastDust.map m
    updates := x.updates.map fun u => { u with acceptAt := m u.acceptAt }
    orders := x.orders.map fun o => { o with at_ := m o.at_ }
    hubSentAt := x.hubSentAt.map m
    restart := x.restart.map fun r => { r with since := m r.since }
    restartedAt := x.restartedAt.map m }

/-- A group's strokes moved by a step. -/
def Group.moved (d : Int) (g : Group) : Group :=
  let m := Machine.moved (d - 1)
  let md := Machine.moved d
  { g with
    members := g.members.map fun (e : Nat × GMember) =>
      (e.1, { e.2 with heardAt := m e.2.heardAt, recA := e.2.recA.map m, recB := e.2.recB.map m })
    jobs := g.jobs.map fun j => { j with subDl := md j.subDl, dl := j.dl.map md, issuedAt := m j.issuedAt, sentAt := m j.sentAt }
    subs := g.subs.map fun x => { x with subDl := md x.subDl, startAt := m x.startAt }
    sentA := g.sentA.map m
    sentB := g.sentB.map m
    work := g.work.map fun e => (m e.1, e.2) }

/-- The strokes of DRAM, cores and governor moved by a step. -/
def Sys.moved (d : Int) (x : Sys) : Sys :=
  let m := Machine.moved (d - 1)
  let at1 (l : SMap Nat) : SMap Nat := l.map fun e => (e.1, m e.2)
  { x with
    dram := { x.dram with
      scrub := x.dram.scrub.map fun e => (e.1, m e.2)
      passAt := m x.dram.passAt
      retiring := x.dram.retiring.map fun r => { r with at_ := m r.at_ }
      trainAt := at1 x.dram.trainAt
      durable := x.dram.durable.map fun e => (e.1, e.2.1, e.2.2.1, m e.2.2.2)
      refreshAt := at1 x.dram.refreshAt
      leakAt := m x.dram.leakAt }
    apc := { x.apc with from_ := at1 x.apc.from_ }
    gov := { x.gov with
      noBoostAt := m x.gov.noBoostAt
      stuck := at1 x.gov.stuck
      evalAt := m x.gov.evalAt
      raiseAt := m x.gov.raiseAt
      sampleAt := m x.gov.sampleAt
      outletAt := x.gov.outletAt.map m }
    grp := x.grp.moved d
    wakeAt := m x.wakeAt
    dieDue := x.dieDue.map fun (e : Nat × Nat × Nat) => (e.1, m e.2.1, e.2.2) }

/-- Every stored deadline and the start of every interval that runs move by a step, so that no interval still to run
changes (R620); stamps, records, `AT` fields and the `AT` of `FREEZE_ARM` keep their values. -/
def Hw.moveTimes (h : Hw) (d : Int) : Hw :=
  let m := moved (d - 1)
  let md := moved d
  { h with
    jobs := h.jobs.map fun (j : Job) =>
      { j with dl := j.dl.map md, begun := j.begun.map m, miss := j.miss.map fun e => (e.1, m e.2)
               reports := j.reports.map fun r => (r.1, r.2.1, r.2.2.1, r.2.2.2.1, r.2.2.2.2.1, m r.2.2.2.2.2) }
    watches := h.watches.map fun (w : Watch) => { w with regAt := md w.regAt }
    mram := h.mram.map fun (e : Nat × MramPair) => (e.1, { e.2 with at_ := m e.2.at_ })
    detected := h.detected.map fun (x : Detected) => { x with atStroke := m x.atStroke }
    tiles := h.tiles.map fun (e : Nat × Tile) => (e.1, { e.2 with rotationAt := m e.2.rotationAt, pulsedAt := m e.2.pulsedAt })
    fab := { h.fab with relocs := h.fab.relocs.map fun r => { r with sinceStroke := m r.sinceStroke } }
    fus := { h.fus with batches := h.fus.batches.map fun b => { b with dl := b.dl.map md }, ranAt := h.fus.ranAt.map m }
    ing := { h.ing with
      cams := h.ing.cams.map fun (e : Nat × CamSt) =>
        (e.1, { e.2 with lastTrig := e.2.lastTrig.map m, lowAt := e.2.lowAt.map fun x => (x.1, m x.2), trainAt := m e.2.trainAt })
      pairAt := h.ing.pairAt.map fun e => (e.1, m e.2) }
    dfin := h.dfin.map fun (r : DfinReq) => { r with closedAt := r.closedAt.map m }
    stn := { h.stn with coatDone := none }
    datA := h.datA.moved d
    datB := h.datB.moved d
    trv := h.trv.moved d
    healthAt := m h.healthAt
    sys := h.sys.moved d }

/-- A step that is due takes effect at the present coat boundary (R620): the budget changes of that boundary first, then
the count and everything that counts from it, in both Datums too, then the bridge and, as at a swap (R40), the buckets of the new
position. -/
def Hw.timeStep (h : Hw) : Hw :=
  match h.sys.step with
  | none => h
  | some (d, at_) =>
    if ! h.boundaryDue || decide (h.now < at_ + 16) then h
    else
      let h := h.budgetStep
      let h := { h with sys := { h.sys with step := none } }
      let h := (h.moveTimes d).put F.TIME_COUNT_STROKE_COUNT ((moved (d - 1) h.now) % 2 ^ 64)
      let h := (h.put F.TIME_STATUS_STEP_PENDING 0).put F.TIME_INT_STATUS_STEP_DONE 1
      ((h.setBridge).showStencil).refillBuckets

/-- `TIME_STEP_EFFECT` (R620). -/
def execTimeStepEffect (s : State) : Host.Outcome State Fault Refusal := s.next fun h => if h.timeRuns then h.timeStep else h

/-- A pending step is cancelled by a transition into DRIVE (R620). -/
def Hw.cancelStep (h : Hw) : Hw :=
  if h.sys.step.isNone then h
  else { (h.put F.TIME_STATUS_STEP_PENDING 0).put F.TIME_INT_STATUS_STEP_REFUSED 1 with sys := { h.sys with step := none } }

/-- `REFERENCE_LOSS` (R517): every module-derived clock stops; both Datums see no stroke markers on any monitor link and
latch `MONITOR_LINK` and `CLOCK`. -/
def execReferenceLoss (s : State) : Host.Outcome State Fault Refusal :=
  s.next fun h =>
    let h := { h with sys := { h.sys with refLost := true } }
    h.datumsOn.foldl (fun h d =>
      let h := (upto 0 5).foldl (fun h e => h.loseMonitor d e) h
      ((h.latchOwn d 0x08 none 0).setHold d).driveLoop d) h

end Sys2Proof.Machine
end

