-- ==== Sys2Proof/Machine/Registers.lean ====
section
/-! DEFINITION. The register region (R14 to R16, R608 to R623): what a read returns, what a write does, and the owner
summary's acknowledgement. -/

namespace Sys2Proof.Machine

open Sys2Proof

/-! Reads (R609, R611). -/

/-- `ARB_VIEW` (R445). -/
def Hw.arbView (h : Hw) : Nat :=
  let i := h.get F.ARB_SEL_INSTANCE
  let r := h.get F.ARB_SEL_REQ
  if 78 ≤ i then 0
  else
    let a := h.arb i
    let w := if i < 64 then h.portWeight r
      else if i < 76 then (if r = 0 then 64 else max 1 (cdiv (h.d2dSum r) 64))
      else if i = 76 then 1 else h.fetchWeight r
    min 65535 w + min 65535 (a.waiting.getD 0 r) * 2 ^ 16 + min 65535 (a.maxWait.getD 0 r) * 2 ^ 32 +
      (a.last.getD 0 % 256) * 2 ^ 48 + b2n a.parked * 2 ^ 56

/-- `TILE_ID` (R109): the place of the physical tile, and the logical tile that is mapped to it. -/
def Hw.tileId (h : Hw) (t : Nat) : Nat :=
  regReset (0x100 + t) 0 +
    match h.logicalOf t with
    | some l => l % 32 * 2 ^ 16 + l / 32 * 2 ^ 21 + 2 ^ 26
    | none => 0

/-- Whether the comparators are off: lockstep has been broken (R406). -/
def Hw.comparatorsOff (h : Hw) : Bool := [0, 1].any fun d => h.on (F.DTM_STATUS_LOCKSTEP_BROKEN.datum d)

/-- The first of conditions 1 to 6 of R562 that fails, or 0. -/
def Hw.driveBlock (h : Hw) : Nat :=
  let both (p : Nat → Bool) : Bool := p 0 && p 1
  if ! h.on F.MOD_START_FULL_ST then 1
  else if h.stn.active.id = 0 then 2
  else if ! both fun d => (h.datum d).env.isSome && h.on (F.DTM_STATUS_PEER_OK.datum d) then 3
  else if h.comparatorsOff then 4
  else if ! both fun d => (h.datum d).latched.isEmpty then 5
  else if ! h.on F.PWR_STATUS_J1_OK || ! h.on F.PWR_STATUS_J2_OK then 6
  else 0

/-- The value of a register at an instant (R609): those that show other state, and the stored ones. -/
def Hw.regValue (h : Hw) (block off : Nat) : Nat :=
  if ! h.blockOn block then 0
  else if block = 0x000 then
    if off = 0x38 then h.intPend
    else if off = 0x58 then
      mask 24 (fun i => h.blockPend (0x700 + i)) + 2 ^ 24 * mask 8 (fun i => h.blockPend (0x720 + i))
    else if off = 0x60 then mask 64 fun i => h.blockPend (0x600 + i)
    else if 0x68 ≤ off ∧ off < 0xF8 then mask 64 fun i => h.blockPend (0x100 + 64 * ((off - 0x68) / 8) + i)
    else h.reg block off
  else if block = 0x001 ∧ off = 0x48 then h.tempView
  else if block = 0x010 ∧ off = 0x20 then h.coatPos
  else if block = 0x010 ∧ off = 0x58 then
    h.stn.exhausted.getD 0 (h.get F.STN_EXH_SEL_PID * 8 + h.get F.STN_EXH_SEL_DIM)
  else if block = 0x648 ∧ off = 0x30 then h.arbView
  else if block = 0x030 ∧ off = 0 then
    let st := if h.get F.MOD_START_STEP < 10 || h.mode ≤ 1 then 0 else if h.quiet || h.lossStops || h.seqStopped then 2
      else if (List.range 4).any h.awaitsTakeover then 3 else 1
    setBits (h.reg block off) 0 2 st
  else if 0x100 ≤ block ∧ block < 0x580 ∧ off = 0 then h.tileId (block - 0x100)
  else h.reg block off

/-- A read of a register: `TIME_NS` holds a time since the stroke pulse that is a free value in steps of 10 ns, and a read
of `PWR_STATUS` clears `CAMRAIL_TRIP` (R528). -/
def Hw.readReg (h : Hw) (block off : Nat) : Nat × Hw :=
  if block = 0x002 ∧ off = 0x08 then
    let (w, h) := h.free
    ((1000 * h.now + 10 * (w.toNat % 100)) % 2 ^ 64, h)
  else
    let v := h.regValue block off
    (v, if block = 0x001 ∧ off = 0 then h.put F.PWR_STATUS_CAMRAIL_TRIP 0 else h)

/-! Writes (R14 to R16, R609). -/

/-- Whether a scratch frame is MAPPED (R191). -/
def Hw.scratchMapped (h : Hw) : Bool := h.mem.frames.any fun e => decide (3670016 ≤ e.1) && e.2.state == 3

/-- `MOD_INT_EOI` (R615): a write of 1 raises the summary again while it is set, and clears `INSVC` else. -/
def Hw.writeEoi (h : Hw) (v : Nat) : Hw :=
  if ! bit v 0 then h
  else
    let n := h.get F.MOD_INT_VECTOR_VECTOR
    if h.summary && n ≠ 0 then (h.raiseVector 0 n).put F.MOD_INT_VECTOR_INSVC 1
    else if h.summary then h
    else h.put F.MOD_INT_VECTOR_INSVC 0

/-- `MOD_INT_EOI`. -/
def execModIntEoi (v : BitVec 64) (s : State) : Host.Outcome State Fault Refusal :=
  s.next fun h => if h.hubOn then h.writeEoi v.toNat else h

/-- An Ethernet link trains when its `LINK_EN` is 1, and goes off when it is 0 (R334, R335, R622). -/
def Hw.followEth (h : Hw) (p : Nat) : Hw :=
  if h.ethEnabled p then (if h.ethUp p then h else h.setEth p 1)
  else if h.ethUp p then (h.ethLost p).setEth p 0
  else h.setEth p 0

/-- A `PID` field keeps its value while the port has an open stream (R334). -/
def keepPid (h : Hw) (lidar : Bool) (p : Nat) (f : Fld) (h' : Hw) : Hw :=
  if (h.streamOn lidar p).isSome then h'.put f (h.get f) else h'

/-- The fields of a register as the access codes of R14 leave them. -/
def Hw.writeFields (h : Hw) (block off v : Nat) : Hw :=
  match regSpec? block off with
  | none => h
  | some r => h.setReg block off (r.written (h.locked block) (h.reg block off) (v % 2 ^ 64))

/-- What a write of a register does beyond its fields. -/
def Hw.afterWrite (h0 : Hw) (block off : Nat) (h : Hw) : Hw :=
  if 0x700 ≤ block ∧ block < 0x718 then
    let q := block - 0x700
    if off = 0 then ((keepPid h0 false q (F.CAM_CTRL_PID.blk q) h).camPower q).judgeCams none
    else if off = 0x10 ∨ off = 0x18 then h.judgeCams none
    else h
  else if 0x720 ≤ block ∧ block < 0x728 then
    let p := block - 0x720
    if off = 0 then ((keepPid h0 true p (F.LID_CTRL_PID.blk p) h).followEth (24 + p)).remapLids else h
  else if block = 0x728 ∧ off = 0 then
    let h := if h0.on F.BB_CTRL_LINK_EN0 then h.put F.BB_CTRL_ROLE0 (h0.get F.BB_CTRL_ROLE0) else h
    let h := if h0.on F.BB_CTRL_LINK_EN1 then h.put F.BB_CTRL_ROLE1 (h0.get F.BB_CTRL_ROLE1) else h
    (h.followEth 32).followEth 33
  else if block = 0x001 ∧ off = 0x18 then h.refreshBoost
  else if block = 0x028 ∧ off = 0x10 then
    if h.on F.EVT_STATUS_RING_FULL && ! h.ringFull then h.put F.EVT_STATUS_RING_FULL 0 else h
  else h

/-- A write of a register by PID 0 (R609, R611, R612). -/
def Hw.writeReg (h : Hw) (block off v : Nat) : Hw :=
  if ! h.hubOn || ! h.blockOn block then h
  else if block = 0x000 ∧ off = 0x50 then h.writeEoi v
  else if block = 0x002 ∧ off = 0x10 then h.writeSrc v
  else if block = 0x002 ∧ off = 0x30 then h.writeStep v
  else if block = 0x018 ∧ off = 0x10 ∧ h.scratchMapped then h
  else Hw.afterWrite h block off (h.writeFields block off v)

/-- An access that the region does not take (R180, R609). -/
def Hw.regRefused (h : Hw) (pid block : Nat) : Hw := h.event srcFw 0x0805 pid block

/-- `REGISTER_WRITE` (R609). -/
def execRegisterWrite (w : RegWrite) (s : State) : Host.Outcome State Fault Refusal :=
  s.next fun h =>
    if ! h.hubOn then h
    else if w.pid.val ≠ 0 || ! w.whole || w.off.toNat % 8 ≠ 0 then h.regRefused w.pid.val w.block.toNat
    else h.writeReg w.block.toNat w.off.toNat w.value.toNat

/-- `PWR_EN_WRITE` (R316): the owner writes `PWR_EN` of a camera port; `above` when the conductor already lies above the
rail, which keeps the switch open (R550). -/
def execPwrEnWrite (q : Fin 24) (on above : Bool) (s : State) : Host.Outcome State Fault Refusal :=
  s.next fun h =>
    if ! h.hubOn || ! h.blockOn (0x700 + q.val) then h
    else
      let h := h.put (F.CAM_CTRL_PWR_EN.blk q.val) (b2n on)
      if on && above && h.camRail && h.get (F.CAM_STATUS_PWR_STATE.blk q.val) == 0 then
        h.camFault q.val 5 (h.get (F.CAM_PWR_MEAS_MA.blk q.val)) (h.get (F.CAM_PWR_MEAS_MV.blk q.val))
      else h.camPower q.val

end Sys2Proof.Machine
end

