-- ==== Sys2Proof/Machine/CpCmds.lean ====
section
/-! DEFINITION. Doorbells (R180, R197, R198, R479), posting (R209), and the faults and takeover of command processors
(R217, R218, R225, R384). -/

namespace Sys2Proof.Machine

open Sys2Proof

/-! Doorbells. -/

/-- The place of a source among those that the configuration image permits for the owner queue (R198): a core is one while it
runs the partition that the image names. -/
def Hw.ownerSource (h : Hw) (src : DoorSrc) : Option Nat :=
  firstNat h.cfg.sources.length fun i =>
    match h.cfg.sources[i]?, src with
    | some s, .core hart => ! s.pcie && h.hartPid hart.val == some s.id
    | some s, .pcie port rid => s.pcie && s.id == port.val * 65536 + rid.toNat
    | none, _ => false

/-- The source as it acts for the owner now: in DRIVE only the source that is marked for DRIVE (R198). -/
def Hw.actsAsOwner (h : Hw) (src : DoorSrc) : Option Nat :=
  (h.ownerSource src).filter fun i => h.mode ≠ 3 || (h.cfg.sources[i]?).any (·.drive)

/-- The PID that a source's requests carry: of the partition that a core runs, or that a requester is bound to (R177). -/
def Hw.sourcePid (h : Hw) (src : DoorSrc) : Option Nat :=
  match src with
  | .core hart => h.hartPid hart.val
  | .pcie port rid => h.boundPid port.val rid.toNat

/-- The context in which a source's addresses translate (R168, R177): a bound requester's partition; else the owner's of an
owner source; else the partition that a core runs. -/
def Hw.sourceCtx (h : Hw) (src : DoorSrc) : Option Nat :=
  match src with
  | .core _ => if (h.ownerSource src).isSome then some 0 else h.sourcePid src
  | .pcie _ _ => (h.sourcePid src).or ((h.ownerSource src).map fun _ => 0)

/-- The number by which `OWNER_SOURCE` names a source: its requester ID, or a core's PID. -/
def Hw.srcId (h : Hw) (src : DoorSrc) : Nat :=
  match src with
  | .core hart => (h.hartPid hart.val).getD 0
  | .pcie _ rid => rid.toNat

/-- A source that is not permitted writes doorbell page 0 or reaches context 0 (R198). -/
def Hw.ownerRefused (h : Hw) (src : DoorSrc) : Hw := h.event srcFw 0x0807 0 (h.srcId src)

/-- Sets a counter of a queue (R197): `SQ_TAIL` at 16q, `CQ_HEAD` at 16q + 8; other offsets, absent queues and queue 15 of
a group partition on a worker ignore the write (R479). -/
def Hw.ringDoorbell (h : Hw) (page off v : Nat) : Hw :=
  let q := off / 16
  let v := v % 2 ^ 32
  if 0x100 ≤ off || (h.queue page q).isNone then h
  else if q = 15 && (h.grpPart page).isSome && ! h.isManager then h
  else if off % 16 = 0 then h.modQueue page q fun x => { x with sqTail := v }
  else if off % 16 = 8 then (h.modQueue page q fun x => { x with cqHead := v }).freeConsumed page q
  else h

/-- A write of a doorbell page (R180, R197, R198). -/
def Hw.doorbell (h : Hw) (src : DoorSrc) (page off v : Nat) : Hw :=
  match h.actsAsOwner src with
  | some i =>
    if page = 0 then { h.ringDoorbell 0 off v with sys := { h.sys with ownerSrc := some i } }
    else h.ringDoorbell page off v
  | none =>
    if page = 0 then h.ownerRefused src
    else if h.sourcePid src = some page then h.ringDoorbell page off v
    else h.event srcFw 0x0806 ((h.sourcePid src).getD 0) page

/-- A counter as a read of a doorbell page shows it (R197). -/
def Hw.readDoorbell (h : Hw) (page off : Nat) : Nat :=
  match h.queue page (off / 16) with
  | some q => if 0x100 ≤ off then 0 else if off % 16 = 0 then q.sqTail else if off % 16 = 8 then q.cqHead else 0
  | none => 0

/-- A source's request whose address does not translate (R177, R178): a core's is a guest-page fault, a requester's write is
discarded. -/
def Hw.sourceFault (h : Hw) (src : DoorSrc) (ctx va cause : Nat) : Hw :=
  match src with
  | .core hart => (h.translationFault 3 cause ctx va).toGuest ((h.sourcePid src).getD 0) hart.val 23 va
  | .pcie _ _ => h.translationFault 4 cause ctx va

/-- A write of a source to a virtual address at which its context maps doorbell pages (R169, R177, R197); a requester that
has no context gets Unsupported Request, and an address at which something else is mapped is no doorbell. -/
def Hw.doorbellAt (h : Hw) (src : DoorSrc) (va v : Nat) : Hw :=
  match h.sourceCtx src with
  | none =>
    match src with
    | .core _ => h
    | .pcie port _ => (h.addSat (F.PCIE_ERR_UR.port port.val) 1).put (F.PCIE_INT_STATUS_UR.port port.val) 1
  | some ctx =>
    match h.mem.translate ctx va .wr false with
    | .error c => h.sourceFault src ctx va c
    | .ok a => if h.region a = .doorbell then h.doorbell src ((a - 0x0480_0000_0000) / 4096) (a % 4096) v else h

/-- `DOORBELL_WRITE` (R197): `page` and `off` are bits 47:12 and 11:0 of the virtual address. -/
def execDoorbellWrite (src : DoorSrc) (page : BitVec 36) (off : BitVec 12) (v : BitVec 64) (s : State) : Host.Outcome State Fault Refusal :=
  s.next fun h => if h.hubOn then h.doorbellAt src (page ++ off).toNat v.toNat else h

/-! Posting. -/

/-- `COMPLETION_POST` (R209): the next finished command of a queue, in acceptance order. -/
def execCompletionPost (pid : Fin 256) (queue : Fin 16) (s : State) : Host.Outcome State Fault Refusal :=
  s.next fun h => if h.sequencing && ! h.quiet then h.post pid.val queue.val else h

/-! Faults of command processors. -/

/-- A processor stops on a fault (R225): 0 lockstep mismatch, 1 uncorrectable ECC, 2 watchdog. -/
def Hw.stopCp (h : Hw) (cp cause : Nat) : Hw :=
  let h := h.put (F.CP_STATUS_STATE.blk cp) 1
  let h := if h.on (F.CP_FAULT0_VALID.blk cp) then h.put (F.CP_FAULT0_MORE.blk cp) 1
    else ((h.put (F.CP_FAULT0_VALID.blk cp) 1).put (F.CP_FAULT0_CAUSE.blk cp) cause).put (F.CP_FAULT0_AT.blk cp) (h.now % 2 ^ 32)
  h.put (F.CP_INT_STATUS_FAULT.blk cp) 1

/-- `CP_LOCKSTEP_MISMATCH` (R384): `kind` 0 the comparator, 1 an uncorrectable error in the processor's memories, 2 one in
the journal engine's or in the system-cache tags, which stops no processor. -/
def execCpLockstepMismatch (cp : Fin 4) (kind : Fin 3) (s : State) : Host.Outcome State Fault Refusal :=
  s.next fun h =>
    if ! h.hubOn then h
    else if kind.val = 2 then h.detect 0x03 none 0
    else if ! h.cpRuns cp.val || (kind.val == 0 && h.comparatorsOff) then h
    else (h.stopCp cp.val kind.val).detect (if kind.val = 0 then 0x02 else 0x03) none 0

/-- `CP_WATCHDOG` (R225). -/
def execCpWatchdog (cp : Fin 4) (s : State) : Host.Outcome State Fault Refusal :=
  s.next fun h => if h.hubOn && h.cpRuns cp.val then h.stopCp cp.val 2 else h

/-- `CP_TAKEOVER` (R217, R218): the queues of a stopped processor go to `by_`.  What it had fetched is fetched again, Step
and Rerun commands of its that had not completed run again, and finished commands are posted; Engine commands continue. -/
def execCpTakeover (cp by_ : Fin 4) (s : State) : Host.Outcome State Fault Refusal :=
  s.next fun h =>
    if ! h.hubOn || ! h.sequencing || h.get (F.CP_STATUS_STATE.blk cp.val) ≠ 1 || ! h.cpRuns by_.val ||
       h.on (F.CP_INT_STATUS_TAKEOVER.blk cp.val) then h
    else
      let h := ((h.put F.JNL_RECOVERY_RERUN 0).put F.JNL_RECOVERY_REPOSTED 0).put F.JNL_RECOVERY_ABORTED 0
      let h := (h.dropFetched fun f => f.cp == cp.val).put (F.CP_INT_STATUS_TAKEOVER.blk cp.val) 1
      let h := h.rerun fun c => c.port == 3 + cp.val || (c.port == 2 && h.on (F.CP_STATUS_OWNER_Q.blk cp.val))
      let h := if h.on (F.CP_STATUS_OWNER_Q.blk cp.val) then
          (h.put (F.CP_STATUS_OWNER_Q.blk cp.val) 0).put (F.CP_STATUS_OWNER_Q.blk by_.val) 1 else h
      h.recoverQueues.event (srcCp cp.val) 0x090A 0 by_.val

end Sys2Proof.Machine
end

