-- ==== Sys2Proof/Machine/Connectors.lean ====
section
/-! DEFINITION. The sync-object window (R188), the PCIe ports (R177, R421, R545, R609, R617, R618, R623) and the CAN XL
controllers (R539). -/

namespace Sys2Proof.Machine

open Sys2Proof

/-! The sync-object window. -/

/-- An access to the window (R180, R188): form 0 READ, 1 SET, 2 ADD; any other form on an object that the PID holds answers a
free value, and its store leaves one.  Answers the value that the access returns. -/
def Hw.sobWindow (h : Hw) (agent pid idx form v : Nat) : Nat × Hw :=
  if form = 0 then h.sobAccess agent pid idx .read
  else if form = 1 then h.sobAccess agent pid idx (.set v)
  else if form = 2 then h.sobAccess agent pid idx (.add v)
  else if ! h.holdsSob pid idx then (0, h.sobViolation agent pid idx)
  else
    let (w, h) := h.free
    let (x, h) := h.free
    (w.toNat, (h.sobPerform idx (.set x.toNat)).2)

/-! PCIe. -/

/-- A completion leaves a port. -/
def Hw.complete (h : Hw) (t : Tlp) (status : Nat) (poisoned : Bool) (bs : List Byte) : Hw :=
  { h with outs := h.outs ++ [.completion t.port.val t.rid.toNat status poisoned bs] }

/-- Unsupported Request (R177, R178): a read or FetchAdd is answered so; a write is discarded. -/
def Hw.unsupported (h : Hw) (t : Tlp) : Hw :=
  let h := (h.addSat (F.PCIE_ERR_UR.port t.port.val) 1).put (F.PCIE_INT_STATUS_UR.port t.port.val) 1
  if t.kind.val = 1 then h else h.complete t 1 false []

/-- Reads memory for a request, coherently with the cores' caches (R183): stained parts leave with every word replaced
(R421). -/
def Hw.readOut (h : Hw) (pid : Nat) : List (Nat × Nat) → List Byte × Bool × Hw
  | [] => ([], false, h)
  | (a, n) :: ps =>
    let (bs, st, h) := h.cohRead pid a n
    let bs := if st then (stainPattern.drop (a % 64)).take n else bs
    let (cs, st', h) := h.readOut pid ps
    (bs ++ cs, st || st', h)

/-- The pieces of a run cut at 64-byte units. -/
def units (ps : List (Nat × Nat)) : List (Nat × Nat) :=
  ps.flatMap fun p => (lineParts p.1 p.2).map fun x => (p.1 + x.2.1, x.2.2)

/-- A request waits, with those that came before it. -/
def Hw.holdTlp (h : Hw) (w : WaitTlp) : Hw := { h with sys := { h.sys with tlps := h.sys.tlps ++ [w] } }

/-- A request to DRAM or scratch (R60, R70, R180, R421): a read waits in a QUIET window and a write is held through it, and a
request waits whose bucket holds too little. -/
def Hw.tlpMemory (h : Hw) (t : Tlp) (pid : Nat) (ps : List (Nat × Nat)) : Hw :=
  if h.quiet && ps.any fun p => h.region p.1 == .dram then h.holdTlp ⟨t, pid, ps⟩
  else match h.chargeDram pid (ps.filter fun p => h.region p.1 == .dram) (t.kind.val == 1) with
  | none => (h.noteExhausted pid 0).holdTlp ⟨t, pid, ps⟩
  | some h =>
    if t.kind.val = 1 then h.writeThrough pid t.data false ps
    else
      let (bs, st, h) := h.readOut pid (units ps)
      let h := if st then
          ((h.event (srcPort (2 + t.port.val)) 0x0108 pid 0).addSat (F.PCIE_ERR_POISONED.port t.port.val) 1).put
            (F.PCIE_INT_STATUS_POISONED.port t.port.val) 1
        else h
      h.complete t 0 st bs

/-- A request to the register region (R180, R609). -/
def Hw.tlpRegs (h : Hw) (t : Tlp) (pid a n : Nat) : Hw :=
  let o := a - 0x0400_0000_0000
  let block := o / 65536
  let off := o % 65536
  if pid ≠ 0 then
    let h := h.regRefused pid block
    if t.kind.val = 1 then h else h.complete t 0 false (zeros n)
  else if t.kind.val = 0 then
    if (n = 1 ∨ n = 2 ∨ n = 4 ∨ n = 8) ∧ off % n = 0 then
      let (v, h) := h.readReg block (off / 8 * 8)
      h.complete t 0 false (((leBytes 8 v).drop (off % 8)).take n)
    else (h.regRefused pid block).complete t 0 false (zeros n)
  else if t.kind.val = 1 ∧ n = 8 ∧ off % 8 = 0 then h.writeReg block off (leNat t.data)
  else
    let h := h.regRefused pid block
    if t.kind.val = 1 then h else h.complete t 0 false (zeros n)

/-- A request to a doorbell page (R180, R197). -/
def Hw.tlpDoorbell (h : Hw) (t : Tlp) (a n : Nat) : Hw :=
  let page := (a - 0x0480_0000_0000) / 4096
  let off := a % 4096
  if t.kind.val = 0 then h.complete t 0 false (fit n ((leBytes 8 (h.readDoorbell page (off / 8 * 8))).drop (off % 8)))
  else if t.kind.val = 1 then
    if (n = 4 ∨ n = 8) ∧ off % 8 = 0 then h.doorbell (.pcie t.port t.rid) page off (leNat (t.data.take 4)) else h
  else h.unsupported t

/-- A request to the sync-object window (R188). -/
def Hw.tlpSob (h : Hw) (t : Tlp) (pid a n : Nat) : Hw :=
  let whole := n = 8 ∧ a % 8 = 0
  let form := if whole then (if t.kind.val = 0 then 0 else t.kind.val) else 3
  let (v, h) := h.sobWindow 3 pid ((a - 0x0500_0000_0000) / 8) form (leNat (t.data.take 8))
  if t.kind.val = 1 then h else h.complete t 0 false (fit n (leBytes 8 v))

/-- A request of the owner to the tile SRAM window (R168, R169). -/
def Hw.tlpSram (h : Hw) (t : Tlp) (a n : Nat) : Hw :=
  let o := a - 0x0100_0000_0000
  let tl := o / 0x8_0000
  let on := h.domainOn (tileDomain tl)
  if t.kind.val = 1 then (if on then h.pokeSram tl (o % 0x8_0000) (withStain false t.data) else h)
  else if t.kind.val = 0 then
    let x := h.tile tl
    let bs := (List.range n).map fun i => if on then SMap.getD 0 x.sram (o % 0x8_0000 + i) else 0
    let st := on && (granules (o % 0x8_0000) n).any x.stain.contains
    h.complete t 0 st (if st then (stainPattern.drop (o % 64)).take n else bs)
  else h.unsupported t

/-- The PID that a requester's memory requests carry: the one it is bound to, or 0 for an owner source (R168, R177, R198). -/
def Hw.tlpPid (h : Hw) (t : Tlp) : Option Nat :=
  match h.boundPid t.port.val t.rid.toNat with
  | some p => some p
  | none => (h.ownerSource (.pcie t.port t.rid)).map fun _ => 0

/-- A request acts at its target. -/
def Hw.tlpTarget (h : Hw) (t : Tlp) (pid : Nat) (ps : List (Nat × Nat)) : Hw :=
  if t.kind.val ≠ 2 ∧ h.allMemory ps then h.tlpMemory t pid ps
  else
    match ps with
    | [(a, k)] =>
      match h.region a with
      | .regs => h.tlpRegs t pid a k
      | .doorbell => h.tlpDoorbell t a k
      | .sobWin => h.tlpSob t pid a k
      | .tileSram => h.tlpSram t a k
      | _ => h.unsupported t
    | _ => h.unsupported t

/-- Whether a request must not pass one that waits (R185): a posted write of the same requester, unless that has Relaxed
Ordering set and the later one writes as well. -/
def tlpBehind (t : Tlp) (w : WaitTlp) : Bool :=
  w.t.port == t.port && w.t.rid == t.rid && w.t.kind.val == 1 && ! (w.t.ro && t.kind.val ≠ 0)

/-- A request acts at its target, or waits behind one that it must not pass (R185). -/
def Hw.tlpServe (h : Hw) (w : WaitTlp) : Hw :=
  if h.sys.tlps.any (tlpBehind w.t) then h.holdTlp w else h.tlpTarget w.t w.pid w.ps

/-- A memory request (R177, R178). -/
def Hw.tlp (h : Hw) (t : Tlp) : Hw :=
  let n := if t.kind.val = 0 then t.len.val else t.data.length
  match h.tlpPid t with
  | none => h.unsupported t
  | some pid =>
    if pid = 0 && (h.actsAsOwner (.pcie t.port t.rid)).isNone then
      let h := h.ownerRefused (.pcie t.port t.rid)
      if t.kind.val = 1 then h else h.unsupported t
    else
      match h.mem.translateRun pid t.addr.toNat n (if t.kind.val = 0 then .rd else .wr) false with
      | .error (a, c) =>
        let h := h.translationFault 4 c pid a
        if t.kind.val = 1 then h else h.unsupported t
      | .ok ps => h.tlpServe ⟨t, pid, ps⟩

/-- An access of a core to the sync-object window (R177, R188): an address that translates to something else is no access to
it.  The value of a READ or ADD goes back to the core's cluster. -/
def Hw.coreWindow (h : Hw) (hart va form v : Nat) : Hw :=
  match h.hartPid hart with
  | none => h
  | some pid =>
    match h.mem.translate pid va (if form = 0 then .rd else .wr) false with
    | .error c => (h.translationFault 3 c pid va).toGuest pid hart (if form = 0 then 21 else 23) va
    | .ok a =>
      if h.region a ≠ .sobWin then h
      else
        let idx := (a - 0x0500_0000_0000) / 8
        let (old, h) := h.sobWindow 2 pid idx (if a % 8 = 0 then form else 3) v
        if form = 1 then h
        else
          let ans : MemReq :=
            { src := 1024, pid := pid, tag := 35 + hart / 8, write := false, addr := idx, len := 8, data := leBytes 8 old, stain := false }
          { h with fab := { h.fab with responses := h.fab.responses ++ [ans] } }

/-- The request by which a PCIe requester makes an access to the window: form 3 is one of 4 bytes. -/
def winTlp (a : WinAccess) : Tlp :=
  let k : Fin 3 := if a.form.val = 0 then 0 else if a.form.val = 2 then 2 else 1
  { port := a.port, rid := a.rid, kind := k, addr := a.va.setWidth 64, len := 8
    data := if a.form.val = 0 then [] else leBytes (if a.form.val = 3 then 4 else 8) a.value.toNat, ro := false }

/-- Whether a port takes requests. -/
def Hw.portRuns (h : Hw) (p : Nat) : Bool := h.fabricOn && h.blockOn 0x730 && h.on (F.PCIE_STATUS_UP.port p)

/-- `SOB_WINDOW_ACCESS` (R188): by the partition that runs on a hart, or by a PCIe requester. -/
def execSobWindowAccess (a : WinAccess) (s : State) : Host.Outcome State Fault Refusal :=
  s.next fun h =>
    if a.pcie then (if h.portRuns a.port.val then h.tlp (winTlp a) else h)
    else if h.fabricOn && h.hubOn then h.coreWindow a.hart.val a.va.toNat a.form.val a.value.toNat
    else h

/-- The requests that wait are tried again, in order (R60, R70). -/
def Hw.retryTlps (h : Hw) : Hw :=
  if h.fabricOn then
    h.sys.tlps.foldl (fun h w => h.tlpServe w) { h with sys := { h.sys with tlps := [] } }
  else h

/-- An interrupt write of a downstream requester on a root port (R618). -/
def Hw.msiWrite (h : Hw) (port rid : Nat) (bs : List Byte) : Hw :=
  match h.boundPid port rid with
  | none => (h.addSat (F.PCIE_ERR_UR.port port) 1).put (F.PCIE_INT_STATUS_UR.port port) 1
  | some pid =>
    let r := h.route pid
    let d := leNat bs
    if bs.length = 4 ∧ bits r 0 2 = 2 ∧ d ≠ 0 ∧ d < 2048 then
      { h with gfiles := NSet.add h.gfiles (gfileKey (bits r 8 5) (bits r 13 3) d) }
    else (h.addSat (F.PCIE_ERR_MSI_DROPPED.port port) 1).put (F.PCIE_INT_STATUS_MSI_DROP.port port) 1

/-- `PCIE_MSI_WRITE` (R618). -/
def execPcieMsiWrite (port : Fin 2) (rid : BitVec 16) (data : List Byte) (s : State) : Host.Outcome State Fault Refusal :=
  s.next fun h =>
    if h.portRuns port.val && h.get (F.PCIE_CFG_ROLE.port port.val) == 0 then h.msiWrite port.val rid.toNat data else h

/-- Sends the pending messages of a function that are no longer masked (R617). -/
def Hw.sendPending (h : Hw) (port rid : Nat) : Hw :=
  let fn := h.msixOf port rid
  if ! fn.enable || fn.maskAll || ! h.on (F.PCIE_STATUS_UP.port port) then h
  else
    let go := fn.pend.filter fun v => ! fn.masked.contains v
    { h with msix := h.msix.put (port * 65536 + rid) { fn with pend := fn.pend.filter fn.masked.contains }
             outs := h.outs ++ go.map fun v => .msix port rid v }

/-- `PCIE_TLP` (R177, R617, R623). -/
def execPcieTlp (r : PcieReq) (s : State) : Host.Outcome State Fault Refusal :=
  s.next fun h =>
    match r with
    | .mem t =>
      if ! h.portRuns t.port.val then h
      else if t.addr.toNat = 2 ^ 48 ∧ t.kind.val = 1 ∧ h.get (F.PCIE_CFG_ROLE.port t.port.val) = 0 then
        h.msiWrite t.port.val t.rid.toNat t.data
      else h.tlp t
    | .msix port rid enable maskAll =>
      if ! h.portRuns port.val then h
      else
        let fn := h.msixOf port.val rid.toNat
        ({ h with msix := h.msix.put (port.val * 65536 + rid.toNat) { fn with enable := enable, maskAll := maskAll } }).sendPending
          port.val rid.toNat
    | .mask port rid e masked =>
      if ! h.portRuns port.val then h
      else
        let fn := h.msixOf port.val rid.toNat
        let ms := if masked then NSet.add fn.masked e.val else NSet.rem fn.masked e.val
        ({ h with msix := h.msix.put (port.val * 65536 + rid.toNat) { fn with masked := ms } }).sendPending port.val rid.toNat
    | .vfs port n => if h.portRuns port.val && h.get (F.PCIE_CFG_ROLE.port port.val) == 1 then h.put (F.PCIE_STATUS_NUM_VF.port port.val) n.val else h

/-- `PCIE_LINK_TRAINED` (R545): generation 1 to 5 (0 trains nothing) and log2 of the width; a link that is up retrains. -/
def execPcieLinkTrained (port : Fin 2) (gen : Fin 6) (log2w : Fin 4) (s : State) : Host.Outcome State Fault Refusal :=
  s.next fun h =>
    let p := port.val
    if gen.val = 0 || ! h.fabricOn || ! h.blockOn 0x730 then h
    else
      let h := if h.on (F.PCIE_STATUS_UP.port p) then h.addSat (F.PCIE_ERR_RETRAIN.port p) 1 else h
      let h := ((h.put (F.PCIE_STATUS_UP.port p) 1).put (F.PCIE_STATUS_GEN.port p) gen.val).put (F.PCIE_STATUS_LOG2_WIDTH.port p) log2w.val
      if gen.val < 5 ∨ log2w.val < 3 then
        (h.event (srcPort (2 + p)) 0x0503 0 (gen.val + 16 * log2w.val)).put (F.PCIE_INT_STATUS_DEGRADED.port p) 1
      else h

/-! CAN XL. -/

/-- `CAN_FAULT` (R539): a controller enters an error state from 1 to 5, or returns to 0. -/
def execCanFault (ch : Fin 4) (st : Fin 6) (s : State) : Host.Outcome State Fault Refusal :=
  s.next fun h =>
    if h.sys.can.getD 0 ch.val = st.val || (decide (2 ≤ ch.val) && ! h.domainOn 34) then h
    else
      let h := { h with sys := { h.sys with can := h.sys.can.putD 0 ch.val st.val } }
      h.event (if ch.val < 2 then srcDatum ch.val else srcPort (4 + ch.val)) 0x050C 0 st.val

end Sys2Proof.Machine
end

