-- ==== Sys2Proof/Machine/Journal.lean ====
section
/-! DEFINITION. The journal region of DRAM (R214 to R216): which bytes its records and queue-state entries are, and where
they lie (log entry 55). -/

namespace Sys2Proof.Machine

open Sys2Proof

/-- The bytes of records in the journal region: 4,194,304 records of 128 bytes (R214). -/
def recordSpace : Nat := 4194304 * 128

/-- The place of a queue-state entry among the 4,081: the owner queue, then 16 for each PID (R216). -/
def stateSlot (pid q : Nat) : Nat := if pid = 0 then 0 else 1 + (pid - 1) * 16 + q

/-- The 64 bytes at an offset of the journal region: half of a record, a queue-state entry, or nothing. -/
def Hw.journalAt (h : Hw) (off : Nat) : List Byte :=
  if off < recordSpace then
    let r := off / 128
    match h.cmds.find? fun c => c.recs.contains r with
    | none => zeros 64
    | some c =>
      let size := ((h.queue c.pid c.queue).map fun q => 2 ^ q.desc.log2Size).getD 64
      let k := (c.recs.findIdx? (· == r)).getD 0
      ((c.recordAt (phaseOf c.num size) k).drop (off % 128)).take 64
  else
    let n := (off - recordSpace) / 64
    match h.queue (if n = 0 then 0 else 1 + (n - 1) / 16) (if n = 0 then 0 else (n - 1) % 16) with
    | some q => if 4081 ≤ n then zeros 64 else q.stateBytes
    | none => zeros 64

/-- What the journal holds at a data line of DRAM, when the line lies in its region: `JNL_BASE`, in blocks of 2 MiB of which
1.5 MiB are data (R226, R426). -/
def Hw.journalLine (h : Hw) (l : Nat) : Option (List Byte) :=
  let a := 64 * l
  let b := a / 0x20_0000
  let b0 := h.get F.JNL_BASE_BASE / 32
  if b0 = 0 ∨ b < b0 ∨ b0 + 342 ≤ b then none else some (h.journalAt ((b - b0) * 0x18_0000 + a % 0x20_0000))

end Sys2Proof.Machine
end

