-- ==== Sys2Proof/Machine/Modes.lean ====
section
/-! DEFINITION. Operating modes: transitions, DRIVE, PARKED and OFF (R435, R553, R560 to R563, R616, R620). -/

namespace Sys2Proof.Machine

open Sys2Proof

/-! The mode register and what follows it. -/

/-- The route of the owner's present source (R616): in DRIVE the one marked for it, else the first. -/
def Hw.ownerRoute (h : Hw) (drive : Bool) : Nat :=
  match (if drive then h.cfg.sources.find? (·.drive) else h.cfg.sources.head?) with
  | none => 0
  | some s =>
    if s.pcie then
      (if h.get (F.PCIE_CFG_ROLE.port (s.id / 65536)) = 1 then routeFn (s.id / 65536) (s.id % 65536) else 0)
    else match (h.part s.id).bind (·.allot) with
      | some a => routeCore a.irqCore a.gfile
      | none => 0

/-- Trace stops (R579). -/
def Hw.stopTrace (h : Hw) : Hw :=
  ({ h with sys := { h.sys with trace := none } }).put F.DBG_STATUS_TRACE 0

/-- The access level of the TAP (R575): the level unlocked, in BENCH, SERVICE or FROZEN with DBG_EN_N asserted. -/
def Hw.showLevel (h : Hw) : Hw :=
  let ok := (h.mode == 4 || h.mode == 5 || h.mode == 6) && h.on F.DBG_STATUS_DBG_EN
  h.put F.DBG_STATUS_LEVEL (if ok then h.sys.dbgLevel else 0)

/-- Whether a mode honours freeze and debug (R560). -/
def benchMode (m : Nat) : Bool := m == 4 || m == 5

/-- What stands on the pins at the entry into BENCH or SERVICE takes effect (R406, R537). -/
def Hw.honourPins (h : Hw) : Hw :=
  let h := if h.sys.frzLow then { h with freezeReq := true } else h
  if h.on F.DBG_STATUS_DBG_EN && ! h.comparatorsOff then h.breakLockstep 2 else h

/-- The fuse counters advance at the entry into DRIVE (R553). -/
def Hw.advanceFuses (h : Hw) : Hw :=
  let f := h.sys.flash
  let up := f.booted.foldl (fun m e =>
    let d := e.1 / 3
    let k := e.1 % 3
    match f.slots.find (d * 6 + k * 2 + e.2) with
    | some i => SMap.putD 0 m e.1 (max (m.getD 0 e.1) i.secver)
    | none => m) f.fuses
  { h with sys := { h.sys with flash := { f with fuses := up } } }

/-- The module enters a mode (R560, R561). -/
def Hw.setMode (h : Hw) (m : Nat) : Hw :=
  let old := h.mode
  let h := ((h.put F.MOD_MODE_PREV old).put F.MOD_MODE_MODE m).put F.MOD_MODE_AT (h.now % 2 ^ 32)
  let h := if benchMode old && ! benchMode m then
      (if m = 6 then h else h.put F.DBG_STATUS_ARMED 0).stopTrace else h
  let h := if m = 3 then (h.advanceFuses.cancelStep).setRoute 0 (h.ownerRoute true)
    else if old = 3 then h.setRoute 0 (h.ownerRoute false) else h
  let h := if benchMode m then h.honourPins else h
  let h := if m = 1 ∨ m = 2 then { h with sys := { h.sys with wakeAt := h.now } } else h
  ({ h with sys := { h.sys with modeAt := h.now } }).showLevel

/-- A transition completes: the mode, its interrupt and its event (R561). -/
def Hw.changeMode (h : Hw) (m : Nat) : Hw := ((h.setMode m).put F.MOD_INT_STATUS_MODE 1).event srcFw 0x0907 0 m

/-! DRIVE (R562). -/

/-- Whether the owner's last doorbell came from the source marked for DRIVE (R198, R562). -/
def Hw.fromDriveSource (h : Hw) : Bool := (h.sys.ownerSrc.bind fun i => h.cfg.sources[i]?).any (·.drive)

/-- The condition of R562 that refuses DRIVE, or 0. -/
def Hw.driveRefusal (h : Hw) : Nat :=
  if h.driveBlock ≠ 0 then h.driveBlock else if h.fromDriveSource then 0 else 7

/-- Whether `MODE_SET` makes a transition (R561): to STANDBY from STANDBY only with `WARM`. -/
def modeStep (old m : Nat) (warm : Bool) : Bool :=
  (old == 2 && (m == 1 || m == 3 || m == 4 || m == 5)) || (old == 2 && m == 2 && warm) ||
  ((old == 3 || old == 4 || old == 5) && m == 2)

/-! PARKED (R563). -/

/-- Every stream closes (R333). -/
def Hw.closeStreams (h : Hw) : Hw := (h.ing.streams.map (·.1)).foldl (fun h k => h.closeStream k) h

/-- Sets the channels in service to a state: 1 IN_SERVICE, 4 SELF_REFRESH (R435, R572). -/
def Hw.setChannels (h : Hw) (from_ to_ : Nat) : Hw :=
  (List.range 64).foldl (fun h c =>
    if h.get (F.MC_STATUS_STATE.blk c) = from_ then h.put (F.MC_STATUS_STATE.blk c) to_ else h) h

/-- The domains that are off in PARKED (R514). -/
def parkedOff : List Nat :=
  ((List.range 4).flatMap fun d => [0, 1, 2, 3, 4, 6].map (7 * d + ·)) ++ [28, 29, 30, 31, 32, 33, 34, 35, 46]

/-- The links of PD_H_IO: lidars, backbone, PCIe and peer ports go off with their supply (R514). -/
def Hw.dropLinks (h : Hw) : Hw := (upto 24 10 ++ upto 36 4).foldl (fun h p => h.setEth p 0) h

/-- Lidar and backbone ports whose `LINK_EN` is 1 begin training (R334, R335, R556, R622). -/
def Hw.trainLinks (h : Hw) : Hw := (upto 24 10).foldl (fun h p => h.followEth p) h

/-- Entry to PARKED (R563): running commands end as at `MODULE_WARM`, finished ones are posted, streams close, DRAM
refreshes itself, and the domains go off. -/
def Hw.park (h : Hw) : Hw :=
  let h := ((h.abortEngines.rerunOrders).dropFetched fun _ => true).loseBuffers
  let n := h.cmds.length
  let h := h.parts.foldl (fun h p => p.2.queues.foldl (fun h q => h.postAll p.1 q.1 n) h) h
  let h := (h.closeStreams.changeMode 1).setChannels 1 4
  let h := { h with sys := { h.sys with tlps := [] } }
  let h := ((h.dropLinks.switchAll parkedOff false).followCams).clearTiles fun _ => true
  (List.range 32).foldl (fun h n => h.sliceEnd n) h

/-- Exit from PARKED (R435, R563): the domains are powered, every channel retrains, the tiles are written and tested, and
the recovery of `MODULE_WARM` runs, or PORST when what that needs was not saved (R218). -/
def Hw.unpark (h : Hw) (b : BringUp) : Hw :=
  if ! b.saved then h.porst 4
  else
  let h := h.switchAll runDomains true
  let h := (List.range 64).foldl (fun h c => if h.chRetired c then h else h.bringChannel b c) h
  let h := h.warmReset b
  let h := (List.range 4).foldl (fun h d => if h.sys.gov.dieHeld.contains d then h else (h.testDie d).rebuildDie d) h
  let h := { h with sys := { h.sys with gov := { h.sys.gov with noBoostAt := h.now } } }
  ((h.changeMode 2).followCams.trainLinks).put F.MOD_START_LAST_RESET 4

/-! `MODE_SET` (R561 to R564). -/

/-- The checks of `MODE_SET` (R561, R562, R605). -/
def specModeSet : OpSpec :=
  { opc := 0xCE, issuer := .owner, fields := fun _ c => decide (c.f 16 1 ≤ 6)
    modeOk := fun h c =>
      let m := c.f 16 1
      if ! modeStep h.mode m (bit (c.f 17 1) 0) then some (0, h.mode)
      else if m = 3 ∧ h.driveRefusal ≠ 0 then some (h.driveRefusal, h.mode)
      else none }

/-- The effect of `MODE_SET`: with `WARM`, on a transition to STANDBY from STANDBY, BENCH or SERVICE, `MODULE_WARM` runs. -/
def modeEffect (b : BringUp) (h : Hw) (c : Cmd) : Hw :=
  let m := c.f 16 1
  let old := h.mode
  let h := h.done c 0
  if m = 1 then h.park
  else if m ≠ 2 then h.changeMode m
  else
    let h := if old = 2 then h else (h.changeMode 2).clearAtStandby 0 |>.clearAtStandby 1
    if bit (c.f 17 1) 0 && old ≠ 3 then h.moduleWarm b else h

/-- Whether a freeze is due (R570, R571): FRZ_N or an armed condition on an event or a reason has asked for it; or the
armed condition is immediate and its `FREEZE_ARM` has been posted, or is a stroke that has come. -/
def Hw.freezeDue (h : Hw) : Bool :=
  let posted := h.cmds.all fun c => ! (c.opc == 0xE0 && c.pid == 0 && c.complete) || c.posted
  h.freezeReq || (h.on F.DBG_STATUS_ARMED &&
    ((h.get F.DBG_ARM_COND == 0 && posted) ||
     (h.get F.DBG_ARM_COND == 1 && (h.get F.DBG_ARM_AT_AT == h.now || (decide (h.get F.DBG_ARM_AT_AT < h.now) && posted)))))

/-- `MODE_SET`, with what `MODULE_WARM` meets.  A freeze that is asked for in BENCH or SERVICE goes first (R581), and a
main-power loss as well (R527). -/
def execModeSet (q : QRef) (p : Packet) (b : BringUp) (s : State) : Host.Outcome State Fault Refusal :=
  s.next fun h => if h.sys.lost.isSome || (benchMode h.mode && h.freezeDue) then h else h.issue specModeSet q p (modeEffect b)

/-- `MODULE_WARM` that firmware starts: when no command processor runs (R564). -/
def execModuleWarm (b : BringUp) (s : State) : Host.Outcome State Fault Refusal :=
  s.next fun h => if h.fabricOn && h.hubOn && ! (List.range 4).any h.cpRuns then h.moduleWarm b else h

/-! Wake and park (R561, R563). -/

/-- Whether WAKE has read low for a number of seconds (0: never). -/
def Hw.wakeLowFor (h : Hw) (seconds : Nat) : Bool :=
  seconds ≠ 0 && ! h.sys.wake && decide (h.sys.wakeAt + seconds * 1000000 ≤ h.now)

/-- `PARK_DELAY_EXPIRY` (R561). -/
def execParkDelayExpiry (s : State) : Host.Outcome State Fault Refusal :=
  s.next fun h =>
    if h.mode = 2 ∧ h.sequencing ∧ h.sys.lost.isNone ∧ h.wakeLowFor h.cfg.parkDelay then h.park else h

/-- `CAN_WAKE` (R561): a wake-up pattern on channel 0 or 1, where the configuration image enables it. -/
def execCanWake (ch : Fin 2) (s : State) : Host.Outcome State Fault Refusal :=
  s.next fun h =>
    if h.mode = 1 ∧ (h.cfg.can[ch.val]?).any (·.wake) then { h with sys := { h.sys with wakeReq := true } } else h

/-- `PARKED_EXIT` (R563): a wake has been asked for. -/
def execParkedExit (b : BringUp) (s : State) : Host.Outcome State Fault Refusal :=
  s.next fun h =>
    if h.mode = 1 ∧ h.sys.lost.isNone ∧ (h.sys.wake || h.sys.wakeReq) then
      ({ h with sys := { h.sys with wakeReq := false } }).unpark b
    else h

end Sys2Proof.Machine
end

