-- ==== Sys2Proof/Machine/Startup.lean ====
section
/-! DEFINITION. Images, start-up, PORST and OFF (R161, R198, R258, R422, R462, R507, R537, R551 to R561, R564, R565, R574,
R619). -/

namespace Sys2Proof.Machine

open Sys2Proof

/-! Images (R551 to R554). -/

/-- What a configuration image says (R555); log entry 12. -/
opaque imageConfig : List Byte → Cfg

/-- A slot of a Datum's flash, when its image is valid (R552). -/
def Flash.valid (f : Flash) (d k s : Nat) : Option FlashImg :=
  (f.slots.find (d * 6 + k * 2 + s)).filter fun i => i.good && decide (f.fuses.getD 0 (d * 3 + k) ≤ i.secver)

/-- The slot that a Datum boots (R553): higher `SECVER`, then higher `VERSION`, then slot 0. -/
def Flash.bootOf (f : Flash) (d k : Nat) : Option Nat :=
  match f.valid d k 0, f.valid d k 1 with
  | some a, some b => if a.secver < b.secver ∨ (a.secver = b.secver ∧ a.version < b.version) then some 1 else some 0
  | some _, none => some 0
  | none, some _ => some 1
  | none, none => none

/-- The image that a Datum boots. -/
def Flash.booting (f : Flash) (d k : Nat) : Option FlashImg := (f.bootOf d k).bind fun s => f.valid d k s

/-- An image as a Datum verifies it (R552). -/
def imageOf (k : Nat) (bs : List Byte) : FlashImg :=
  { bytes := bs, version := Config.imageVersion bs, secver := Config.imageSecver bs, digest := Config.imageDigest bs
    good := Config.imageGood k bs }

/-- The bytes of an update that have arrived, in order from offset 0. -/
def updateBytes (m : SMap Byte) (len : Nat) : List Byte := (List.range len).map fun i => SMap.getD 0 m i

/-- Whether an update holds every byte up to a length. -/
def updateWhole (m : SMap Byte) (len : Nat) : Bool := m.length == len && m.all fun e => decide (e.1 < len)

/-- A Datum writes its copy into the slot that it has not booted; an invalid copy is erased. -/
def Flash.install (f : Flash) (d k : Nat) (i : FlashImg) : Flash × Bool :=
  let s := 1 - f.booted.getD 1 (d * 3 + k)
  let ok := i.good && decide (f.fuses.getD 0 (d * 3 + k) ≤ i.secver)
  let key := d * 6 + k * 2 + s
  ({ f with slots := if ok then f.slots.put key i else f.slots.del key }, ok)

/-- `IMAGE_FRAME` (R554): a frame whose length or CRC fails is dropped; after the last, both copies are verified and the
answer leaves on MGMT_A. -/
def execImageFrame (x : ImageFrame) (s : State) : Host.Outcome State Fault Refusal :=
  s.next fun h =>
    let n := x.data.length
    if (h.mode ≠ 5 ∧ ! h.sys.startStop) ∨ h.datA.down ∨ n < 64 ∨ 1024 < n ∨ crc32c x.data ≠ x.crc.toNat then h
    else
      let f := h.sys.flash
      let m := (List.range n).foldl (fun m i => SMap.put m (x.off.toNat + i) (x.data.getD i 0)) (f.update.getD [] x.kind.val)
      if ! x.last then { h with sys := { h.sys with flash := { f with update := f.update.put x.kind.val m } } }
      else
        let len := x.off.toNat + n
        let i := if updateWhole m len then imageOf x.kind.val (updateBytes m len)
          else { bytes := [], version := 0, secver := 0, digest := 0, good := false }
        let f := { f with update := f.update.del x.kind.val }
        let (f, a) := f.install 0 x.kind.val i
        let (f, b) := f.install 1 x.kind.val i
        { h with sys := { h.sys with flash := f }, outs := h.outs ++ [.ethernet 2 [if a && b then 0 else 1]] }

/-! PORST, and the pins that ask for it (R510, R537, R561). -/

/-- `PORST_N` (R537): the pin is low for 10 µs, or is released.  A main-power loss that has not ended keeps the module off
until the power returns (R510). -/
def execPorstN (low : Bool) (s : State) : Host.Outcome State Fault Refusal :=
  s.next fun h =>
    let h := { h with sys := { h.sys with porstLow := low } }
    if ! low then h
    else
      let lost := h.sys.lost
      let n := h.porst 1
      if lost.isSome then { n with sys := { n.sys with lost := lost, lossStage := 3 } } else n

/-- `MAIN_POWER_RETURN` (R510, R564): J1 is back in its operating range after the loss sequence has ended. -/
def execMainPowerReturn (mv : BitVec 17) (s : State) : Host.Outcome State Fault Refusal :=
  s.next fun h =>
    if h.sys.lost.isSome ∧ 3 ≤ h.sys.lossStage ∧ inputOk false mv.toNat then (h.porst 2).setInput false mv.toNat |>.2 else h

/-- `WAKE` (R537, R561): the pin has read high for 10 ms, or reads low.  From OFF the module starts; in PARKED a wake is
asked for. -/
def execWake (high : Bool) (s : State) : Host.Outcome State Fault Refusal :=
  s.next fun h =>
    let since := if high = h.sys.wake then h.sys.wakeAt else h.now
    let h := { h with sys := { h.sys with wake := high, wakeAt := since } }
    if high ∧ h.mode = 0 ∧ h.sys.lost.isNone then h.porst 0
    else if high ∧ h.mode = 1 then { h with sys := { h.sys with wakeReq := true } }
    else h

/-- `OFF_DELAY_EXPIRY` (R561): every domain off; nothing of the state stays but what PORST keeps. -/
def execOffDelayExpiry (s : State) : Host.Outcome State Fault Refusal :=
  s.next fun h =>
    if h.mode = 1 ∧ h.sys.lost.isNone ∧ ! h.sys.wakeReq ∧ h.wakeLowFor h.cfg.offDelay then
      ((h.porst 0).put F.MOD_MODE_MODE 0).put F.MOD_MODE_PREV 1
    else h

/-! Start-up (R556 to R559). -/

/-- Start-up stops after a step (R559): both loops stay OFF, and Datum A waits for images. -/
def Hw.stopStart (h : Hw) (step : Nat) : Hw :=
  { h.put F.MOD_START_STEP step with sys := { h.sys with startStop := true } }

/-- The first frame of the firmware blocks at the top of DRAM (R426): 342 blocks of the journal and 10 of the frame-owner
table (log entry 35). -/
def topFrame : Nat := 3670016 - 352 * 32

/-- A firmware frame (R170). -/
def firmwareFrame (striped : Bool) : Frame :=
  { owner := 0, set := 0, shared := false, state := 1, striped := striped, firmware := true }

/-- The places that firmware gives its regions, from the top of DRAM down (R258, R426, R555; log entry 35): the sheet pool's
parts, and below them the pages of context 0. -/
def Cfg.placed (c : Cfg) : Cfg :=
  let striped := topFrame - cdiv c.nStriped 24 * 32
  { c with stripedFrame := striped, plainFrame := striped - c.nPlain }

/-- The frames of the pages of context 0, each with its virtual address and bytes, downward from a frame. -/
def ownerRuns (top : Nat) : List (Nat × Nat) → List (Nat × Nat × Nat)
  | [] => []
  | (va, n) :: rest => let f := top - cdiv n 0x10000; (f, va, n) :: ownerRuns f rest

/-- Step 7 (R422, R426, R556): firmware's own regions, and the pages that it fills with zeros and maps for the owner. -/
def Hw.layFirmware (h : Hw) : Hw :=
  let c := h.cfg
  let runs := ownerRuns c.plainFrame c.ownerPages
  let low := (runs.map (·.1)).foldl min c.plainFrame
  let own : Frame := { owner := 0, set := 0, shared := false, state := 3, striped := false, firmware := false }
  let frames := ((upto low (c.plainFrame - low)).map fun f => (f, own)) ++
    ((upto c.plainFrame (c.stripedFrame - c.plainFrame)).map fun f => (f, firmwareFrame false)) ++
    ((upto c.stripedFrame (3670016 - c.stripedFrame)).map fun f => (f, firmwareFrame true))
  let leaves := runs.flatMap fun r => (List.range (cdiv r.2.2 0x1000)).map fun i =>
    (r.2.1 / 0x1000 + i, 0x20F + r.1 * 0x10000 + i * 0x1000)
  let l0 := leaves.foldl (fun m e => SMap.put m e.1 e.2) []
  ({ h with mem := { h.mem with frames := frames, ctxs := SMap.putD ⟨[], []⟩ h.mem.ctxs 0 ⟨[], l0⟩ } }).put F.JNL_BASE_BASE
    (3670016 - 342 * 32)

/-- Step 9: the registers that the configuration image carries (R555). -/
def Hw.applyConfig (h : Hw) : Hw :=
  let c := h.cfg
  let h := c.camLid.foldl (fun h r => h.setFields r.1 r.2.1 r.2.2) h
  let h := [0, 1].foldl (fun h p => h.setReg 0x730 (0x800 * p) (c.pcieRoles.getD p 0 % 4)) h
  let h := (h.put F.BB_CTRL_ROLE0 (c.lidRoles.getD 8 0)).put F.BB_CTRL_ROLE1 (c.lidRoles.getD 9 0)
  let h := (h.setFields 0x001 0x18 c.pwrLimit).setFields 0x001 0x20 c.apcFloor
  let h := (h.put F.PWR_LOCK_LOCK (b2n c.pwrLock)).put F.TIME_SRC_SRC c.timeSrc
  let h := { h with sys := { h.sys with srcInUse := c.timeSrc } }
  match c.evtRing with
  | some (va, n) => h.setRing va n
  | none => h

/-- The owner queue opens (R168, R198, R214). -/
def Hw.openOwner (h : Hw) : Hw :=
  let p : Part :=
    { cls := 0, rights := 0, jnlQuota := 65536, sheetQuota := 0, seqQuota := 0, nextSeq := 1, destroying := false, shed := false
      allot := none, queues := queueMap [h.cfg.ownerQueue] }
  ({ h with parts := h.parts.put 0 p }).setRoute 0 (h.ownerRoute false)

/-- A Datum right after its boot, its links up (R381, R382). -/
def Hw.startDatum (h : Hw) (d : Nat) : Hw :=
  let h := h.modDatum d fun _ =>
    { Datum.reset with time := h.now, peerAt := h.now, linkAt := (List.range 5).map fun e => (e, h.now), levelAt := h.now, holdAt := h.now }
  let h := (h.put (F.DTM_STATUS_PEER_OK.datum d) 1).put (F.DTM_LINKS_XLINK_OK.datum d) 1
  (h.put (F.DTM_LINKS_MON_OK.datum d) 31).setHold d

/-- Datum B stays in its boot-ROM recovery state, and Datum A latches `PEER_LOST` (R559). -/
def Hw.recoverB (h : Hw) : Hw :=
  let h := h.modDatum 1 fun _ => { Datum.reset with down := true, loopOff := true }
  let h := { h with sys := { h.sys with recoveryB := true } }
  ((h.put (F.DTM_STATUS_PEER_OK.datum 0) 0).put (F.DTM_LINKS_XLINK_OK.datum 0) 0).latch 0 0x06 none 0 h.now

/-- Steps 4 to 10 (R556): the hub runs, and the owner queue opens in STANDBY. -/
def Hw.startRest (h : Hw) (b : BringUp) (src : Option (BitVec 64)) (hub cfg : FlashImg) (recB : Bool) : Hw :=
  let h := match src with
    | some t => { h.put F.TIME_COUNT_STROKE_COUNT t.toNat with sys := { h.sys with measured := true } }
    | none => h
  let h := { h with cfg := (if cfg.bytes.isEmpty then Cfg.reset else imageConfig cfg.bytes).placed }
  let h := (h.put F.MOD_ID_FW_MAJOR (bits hub.version 16 8)).put F.MOD_ID_FW_MINOR (bits hub.version 8 8)
  let h := (h.put F.MOD_ID_FW_PATCH (bits hub.version 0 8)).switchAll runDomains true
  let h := (h.bringCps b).bringEdges b
  let h := (List.range 64).foldl (fun h c => h.bringChannel b c) h
  let h := h.layFirmware
  let h := (List.range 4).foldl (fun h d => (h.testDie d).rebuildDie d) h
  let h := (h.applyConfig.startDatum 0).startDatum 1
  let h := if recB then h.recoverB else h
  let h := { h with
    healthAt := h.now
    sys := { h.sys with gov := { h.sys.gov with noBoostAt := h.now }
                        dram := { h.sys.dram with passAt := h.now, leakAt := h.now } } }
  let h := if h.mram.any fun e => e.2.stale then h.put F.JNL_INT_STATUS_MRAM_STALE 1 else h
  let h := (h.openOwner.put F.MOD_START_STEP 10).showStencil
  ((h.changeMode 2).followCams.trainLinks).put F.MOD_MODE_PREV 0

/-- Start-up (R556, R559), with what the silicon, the inputs, the hub's confirmation and the time source bring. -/
def Hw.startup (h : Hw) (b : BringUp) (j1 j2 : Nat) (hubOk : Bool) (src : Option (BitVec 64)) : Hw :=
  let h := ((h.setInput false j1).2.setInput true j2).2
  if ! inputOk false j1 || ! inputOk true j2 then h
  else
    let h := h.switchAll [36, 37, 38, 39, 40, 41, 47] true
    let f := h.sys.flash
    if (f.bootOf 0 0).isNone then h.stopStart 1
    else
      let recB := (f.bootOf 1 0).isNone
      match f.booting 0 1, f.booting 0 2 with
      | some hub, some cfg =>
        let same (k : Nat) (i : FlashImg) : Bool := (f.booting 1 k).any fun j => j.digest == i.digest
        if ! recB && ! (same 1 hub && same 2 cfg) then h.stopStart 2
        else
          let booted := (List.range 6).foldl (fun m i =>
            match f.bootOf (i / 3) (i % 3) with
            | some s => if recB && decide (3 ≤ i) then m else SMap.put m i s
            | none => m) []
          let h := { h with sys := { h.sys with flash := { f with booted := booted } } }
          if ! hubOk then h.stopStart 3
          else if b.cpPass = 0 then ((h.switchAll hubDomains true).bringCps b).stopStart 4
          else h.startRest b src hub cfg recB
      | _, _ => h.stopStart 2

/-- The first start-up reads from the silicon what manufacture has fixed in it (R4); no later one reads anything else. -/
def Hw.readLabel (h : Hw) (label : Label) : Hw :=
  ({ h with sys := { h.sys with label := h.sys.label.or (some label) } }).showLabel

/-- `STARTUP` (R556): from PORST, with PORST_N released and WAKE high. -/
def execStartup (b : BringUp) (j1 j2 : BitVec 17) (hubOk : Bool) (src : StartInput) (s : State) :
    Host.Outcome State Fault Refusal :=
  s.next fun h =>
    if h.mode = 2 ∧ h.get F.MOD_START_STEP = 0 ∧ ! h.sys.porstLow ∧ ! h.sys.startStop ∧ h.sys.lost.isNone then
      (h.readLabel src.label).startup b j1.toNat j2.toNat hubOk src.source
    else h

/-- `FULL_SELFTEST_DONE` (R558): a unit that fails is retired; partition windows may run from the next swap on. -/
def execFullSelftestDone (s : State) : Host.Outcome State Fault Refusal :=
  s.next fun h =>
    if h.get F.MOD_START_STEP ≠ 10 ∨ ! h.fabricOn then h
    else
      let h := (List.range 1152).foldl (fun h t => if (h.tile t).fails then h.retireTile t 0 none else h) h
      ((h.put F.MOD_START_STEP 11).put F.MOD_START_FULL_ST 1).put F.MOD_INT_STATUS_SELFTEST 1

end Sys2Proof.Machine
end

