-- ==== Sys2Proof/Machine/Freeze.lean ====
section
/-! DEFINITION. Freeze, the test access port, read-out and trace (R406, R440, R537, R570 to R582). -/

namespace Sys2Proof.Machine

open Sys2Proof

/-! The pins (R406, R537). -/

/-- A debug request is refused (R406, R570, R575, R576): 0 FRZ_N, 1 `FREEZE_ARM`, 2 DBG_EN_N or TAP, 3 `DEBUG_UNLOCK`. -/
def Hw.debugRefused (h : Hw) (kind : Nat) : Hw := h.event srcFw 0x0809 0 kind

/-- `FRZ_N` (R537, R570): low for 1 µs, or released.  One report for each assertion outside BENCH and SERVICE. -/
def execFrzN (low : Bool) (s : State) : Host.Outcome State Fault Refusal :=
  s.next fun h =>
    if low = h.sys.frzLow then h
    else
      let h := { h with sys := { h.sys with frzLow := low } }
      if ! low then h
      else if benchMode h.mode then { h with freezeReq := true }
      else if h.mode = 2 ∨ h.mode = 3 then (h.debugRefused 0).put F.DBG_INT_STATUS_REFUSED 1
      else h

/-- `DBG_EN_N` (R406): asserted or released. -/
def execDbgEnN (low : Bool) (s : State) : Host.Outcome State Fault Refusal :=
  s.next fun h =>
    if low = h.on F.DBG_STATUS_DBG_EN then h
    else
      let h := h.put F.DBG_STATUS_DBG_EN (b2n low)
      let h := if ! low then h
        else if benchMode h.mode then (if h.comparatorsOff then h else h.breakLockstep 2)
        else if h.mode = 3 then h.debugRefused 2
        else h
      h.showLevel

/-! Freeze (R570 to R574). -/

/-- `FREEZE_ARM` is refused (R570). -/
def armRefused (h : Hw) (c : Cmd) : Hw :=
  if c.entry.any fun e => e.status == 0x2004 then
    let h := h.put F.DBG_INT_STATUS_REFUSED 1
    if h.mode = 3 then h.debugRefused 1 else h
  else h

/-- The checks of `FREEZE_ARM` (R570, R606). -/
def specFreezeArm : OpSpec := { opc := 0xE0, issuer := .owner, modes := .bench, onRefuse := armRefused }

/-- `FREEZE_ARM` (R571). -/
def execFreezeArm (q : QRef) (p : Packet) (s : State) : Host.Outcome State Fault Refusal :=
  s.next fun h => h.issue specFreezeArm q p fun h c =>
    let h := if bit (c.f 16 1) 2 then h.put F.DBG_STATUS_ARMED 0
      else
        let h := ((h.put F.DBG_STATUS_ARMED 1).put F.DBG_ARM_COND (c.f 16 1 % 4)).put F.DBG_ARM_EVT_TYPE (c.f 18 2)
        (h.put F.DBG_ARM_EVT_SOURCE (c.f 20 2)).put F.DBG_ARM_AT_AT (c.f 24 8)
    h.done c 0

/-- `FREEZE` (R570, R572, R581): it acts in a stroke that began in BENCH or SERVICE, unless main power is lost in it; the
loops go OFF and the sequencer stops. -/
def execFreeze (s : State) : Host.Outcome State Fault Refusal :=
  s.next fun h =>
    if benchMode h.mode && decide (h.sys.modeAt < h.now) && h.sys.lost.isNone && h.sys.frozenAt.isNone && h.freezeDue then
      let h := { h with freezeReq := false, seqStopped := true, sys := { h.sys with frozenAt := some h.now } }
      (h.driveLoop 0).driveLoop 1
    else h

/-- S+1 of a freeze (R440, R572): every memory-port arbiter freezes, and every device refreshes itself. -/
def Hw.freezeMemory (h : Hw) : Hw :=
  if h.sys.frozenAt.any fun t => t + 1 == h.now then
    ((List.range 64).foldl (fun h i => h.freezeArb i true) h).setChannels 1 4
  else h

/-- Whether the freeze point has come: the pulse that begins S+2 acts on no consumer (R572). -/
def Hw.atFreezePoint (h : Hw) : Bool := h.sys.frozenAt.any fun t => decide (t + 1 ≤ h.now)

/-- `FREEZE_POINT` (R573): the clocks stop, and the module is FROZEN; one that has lost main power since switches off. -/
def execFreezePoint (s : State) : Host.Outcome State Fault Refusal :=
  s.next fun h =>
    if ! h.atFreezePoint || h.on F.DBG_STATUS_FROZEN then h
    else if h.sys.lost.isSome then
      ({ h with sys := { h.sys with lossStage := 3 } }.switchAll (List.range 48) false).put F.MOD_MODE_MODE 0
    else
      let h := { h with freeIx := h.freeIx + 1, sys := { h.sys with frozenIx := h.freeIx } }
      ((h.put F.DBG_FREEZE_AT_STROKE h.now).setMode 6).put F.DBG_STATUS_FROZEN 1

/-! Unlocking (R406, R575, R576). -/

/-- Whether a credential is granted (R576): on LF2-256D only its level counts. -/
def Hw.credentialOk (h : Hw) (b : List Byte) : Bool :=
  let level := field b 4 1
  (level == 1 || level == 2) &&
  (h.get F.MOD_ID_SUFFIX == 0x44 ||
    (field b 0 4 == 0x444C4B31 && field b 8 8 == h.get F.MOD_SERIAL_SERIAL &&
      field b 16 8 == h.get F.DBG_CHALLENGE_NONCE && Config.credentialGood b))

/-- The checks of `DEBUG_UNLOCK` (R576): a credential that cannot be read fails at its reading. -/
def specDebugUnlock : OpSpec :=
  { opc := 0xE2, issuer := .owner, modes := .bench
    fields := fun h c => match (h.cmdRead c.pid (c.f 24 6) 128).1 with
      | .ok (b, st) => st || h.credentialOk b
      | .error _ => true
    onRefuse := fun h c =>
      if c.entry.any fun e => e.status == 0x2001 && e.detail == 3 then
        let (w, h) := (h.debugRefused 3).random
        (h.put F.DBG_CHALLENGE_NONCE w.toNat).put F.DBG_INT_STATUS_REFUSED 1
      else if (c.entry.any fun e => e.status == 0x2004) && h.mode == 3 then h.debugRefused 3
      else h }

/-- `DEBUG_UNLOCK` (R406, R575, R576). -/
def execDebugUnlock (q : QRef) (p : Packet) (s : State) : Host.Outcome State Fault Refusal :=
  s.next fun h => h.issue specDebugUnlock q p fun h c =>
    h.withRecord c (c.f 24 6) 128 fun h b =>
      let h := { h with sys := { h.sys with dbgLevel := max h.sys.dbgLevel (field b 4 1) } }
      let h := if h.comparatorsOff then h else h.breakLockstep 3
      (h.showLevel.put F.DBG_INT_STATUS_UNLOCKED 1).done c 0

/-! Trace (R579). -/

/-- The checks of `TRACE_CONFIG` (R579, R606). -/
def specTraceConfig : OpSpec :=
  { opc := 0xE3, issuer := .owner, modes := .bench
    fields := fun _ c =>
      let n := c.f 16 1
      (n == 0 || (decide (6 ≤ n) && decide (n ≤ 16))) && decide (c.f 17 1 < 16) && decide (c.f 18 1 < 32) &&
      decide (c.f 19 1 < 32) && decide (c.f 20 1 < 78) && c.f 24 6 % 64 == 0 }

/-- `TRACE_CONFIG` (R579, R581): the old ring stops between two records. -/
def execTraceConfig (q : QRef) (p : Packet) (s : State) : Host.Outcome State Fault Refusal :=
  s.next fun h => h.issue specTraceConfig q p fun h c =>
    let h := h.flushTrace.stopTrace
    let h := if c.f 16 1 = 0 then h
      else
        let t : Trace :=
          { va := c.f 24 6, log2Size := c.f 16 1, src := c.f 17 1 % 16, tileX := c.f 18 1, tileY := c.f 19 1, inst := c.f 20 1
            queue := [], strokeAt := h.now, inStroke := 0 }
        (({ h with sys := { h.sys with trace := some t } }).put F.DBG_STATUS_TRACE 1).put F.DBG_TRACE_WRITTEN 0
    h.done c 0

/-! Read-out of DRAM (R411, R417, R578). -/

/-- The generator of R417, highest coefficient first. -/
def rsGen : List Nat :=
  (List.range 8).foldl (fun g i => List.zipWith (· ^^^ ·) (g ++ [0]) (0 :: g.map (gfMul (gfAlpha i)))) [1]

/-- The check bytes of a data line (R417): those of the channel and line number, then the data. -/
def rsCheck (c p : Nat) (bs : List Byte) : List Byte :=
  let msg := (leBytes 5 (c * 2 ^ 27 + p)).reverse ++ bs
  (msg.foldl (fun (r : List Nat) b =>
    let fb := b.toNat ^^^ r.headD 0
    List.zipWith (· ^^^ ·) (r.tail ++ [0]) (rsGen.tail.map (gfMul fb))) (List.replicate 8 0)).map (BitVec.ofNat 8)

/-- The granule address of a channel's data line: the inverse of R410. -/
def lineAddr (c l : Nat) : Nat :=
  let r := l / 32
  let low := (c % 8) ^^^ ((r >>> 3) % 8) ^^^ ((r >>> 9) % 8)
  (r * 64 + low * 8 + c / 8) * 2048 + l % 32 * 64

/-- What the manual does not state of a frozen module (log entry 36). -/
def Hw.frozenBytes (h : Hw) (item n : Nat) : List Byte :=
  fit n ((Config.frozenData h.sys.frozenIx item).map (BitVec.ofNat 8))

/-- What a data line holds: the journal's records and entries in their region, and elsewhere what was last written there. -/
def Hw.dataLine (h : Hw) (l : Nat) : List Byte × Hw :=
  match h.journalLine l with
  | some bs => (bs, h)
  | none => let h := h.defineLine l; (h.mem.bytes (l * 64) 64, h)

/-- What a data line's place in DRAM was last written with, and the copies of its half-lines that are set (R411, R427): a
PLAIN line, a data share, or a parity share, which is unstated until its stripe's parity is valid (R428). -/
def Hw.heldLine (h : Hw) (a : Nat) : List Byte × Nat × Nat × Hw :=
  let take (h : Hw) (l : Nat) : List Byte × Nat × Nat × Hw :=
    let (bs, h) := h.dataLine l
    (bs, h.stainCopies (2 * l), h.stainCopies (2 * l + 1), h)
  let b := a / 0x20_0000
  if ! (h.mem.frame (frameOf (b * 0x20_0000))).striped then take h (a / 64)
  else
    let s := a % 0x20_0000 / 16384
    let k := (deviceOf a + 14 - s % 8) % 8
    let share (k : Nat) : Nat := (b * 0x20_0000 + s * 12288 + 2048 * k + a % 2048) / 64
    if k < 6 then take h (share k)
    else if ! h.sys.dram.parity.contains (128 * b + s) then (h.frozenBytes (2 ^ 40 + a / 64) 64, 0, 0, h)
    else
      let (rows, h) := (List.range 6).foldl (fun (x : List (List Byte) × Hw) k =>
        let (bs, h) := x.2.dataLine (share k)
        (x.1 ++ [bs], h)) ([], h)
      let at_ (k i : Nat) : Nat := (((rows.getD k []).getD i 0) : Byte).toNat
      let sum (w : Nat → Nat) (i : Nat) : Nat := (List.range 6).foldl (fun v j => v ^^^ gfMul (at_ j i) (w j)) 0
      ((List.range 64).map fun i => BitVec.ofNat 8 (sum (fun j => if k = 6 then 1 else gfAlpha j) i), 0, 0, h)

/-- The number of copies that the record shows of a half-line, as two bits of which both are set when two or more
are (R578). -/
def shownCopies (n : Nat) : Nat := 2 ^ min 2 (countNat 4 fun i => bit n i) - 1

/-- The check line of a group of seven data lines (R411). -/
def Hw.checkLine (h : Hw) (c g : Nat) : List Byte × Hw :=
  let (check, copies, h) := (List.range 7).foldl (fun (x : List Byte × Nat × Hw) k =>
    let a := lineAddr c (7 * g + k)
    let (bs, lo, hi, h) := x.2.2.heldLine a
    let cs := rsCheck c (8 * g + k) bs
    let es := h.lineErrors (a / 64)
    let cs := (List.range 8).map fun i =>
      match es.find? fun e => e.1 == 69 + i with
      | some e => BitVec.ofNat 8 ((cs.getD i 0).toNat ^^^ e.2)
      | none => cs.getD i 0
    (x.1 ++ cs, x.2.1 + (lo + 16 * hi) * 2 ^ (8 * k), h)) ([], 0, h)
  (check ++ leBytes 7 copies ++ [0], h)

/-- The record of a physical line (R578): 520 bits. -/
def Hw.lineRecord (h : Hw) (c p : Nat) : Nat × Hw :=
  let key := c * 2 ^ 23 + p / 8
  let copiesFree := leNat (h.frozenBytes (2 ^ 41 + c * 2 ^ 26 + p) 1) % 16
  if h.get (F.MC_STATUS_STATE.blk c) ≠ 1 then (3 * 2 ^ 512, h)
  else if p % 8 = 7 then
    let (bs, h) := h.checkLine c (p / 8)
    (leNat bs + 3 * 2 ^ 512 + copiesFree * 2 ^ 514,
      { h with sys := { h.sys with checkRead := NSet.add h.sys.checkRead key } })
  else
    let a := lineAddr c (7 * (p / 8) + p % 8)
    let (bs, lo, hi, h) := h.heldLine a
    let es := h.lineErrors (a / 64)
    let raw := leNat (storedBytes bs es)
    if ! h.sys.checkRead.contains key then (raw + 3 * 2 ^ 512 + copiesFree * 2 ^ 514, h)
    else
      let o := match codeOutcome es with
        | .clean => 0
        | .corrected _ _ => 1
        | .uncorrectable => 2
      (raw + o * 2 ^ 512 + shownCopies lo * 2 ^ 514 + shownCopies hi * 2 ^ 516, h)

/-! The test access port (R575 to R578). -/

/-- The level that a TAP instruction needs. -/
def tapNeeds (op : TapOp) : Nat :=
  match op with
  | .idcode => 0
  | .bypass => 0
  | .core _ => 2
  | .dbg _ => 1
  | .scan => 1
  | .granule _ _ => 1
  | .store _ _ => 1
  | .readout => 1
  | .line _ _ => 1

/-- A TAP answer. -/
def Hw.tapOut (h : Hw) (v : Nat) : Hw := { h with outs := h.outs ++ [.tap [v]] }

/-- An item of the frozen module whose content the manual does not state. -/
def Hw.tapFrozen (h : Hw) (item : Nat) : Hw :=
  { h with outs := h.outs ++ [.tap (Config.frozenData h.sys.frozenIx item)] }

/-- The 296-bit record of an SRAM granule (R577): data, check bytes as stored, and stain. -/
def Hw.granuleRecord (h : Hw) (t g : Nat) : Nat :=
  let x := h.tile t
  let bs := (List.range 32).map fun i => SMap.getD 0 x.sram (32 * g + i)
  leNat (bs ++ h.frozenBytes (2 ^ 43 + t * 2 ^ 14 + g) 4) + b2n (x.stain.contains g) * 2 ^ 288

/-- What an instruction gives at its level (R575): outside the mode in which it acts, BYPASS. -/
def Hw.tapGives (h : Hw) (op : TapOp) : Hw :=
  let frozen := h.on F.DBG_STATUS_FROZEN
  match op with
  | .idcode => h.tapFrozen 0
  | .bypass => h.tapOut 0
  | .dbg off => h.tapOut (h.regValue 0x7C0 off.toNat)
  | .scan => if frozen then h.tapFrozen 1 else h.tapOut 0
  | .granule t g => if frozen then h.tapOut (h.granuleRecord t.val g.toNat) else h.tapOut 0
  | .store m g =>
    if frozen then h.tapOut (leNat (h.frozenBytes (2 ^ 44 + m.toNat * 2 ^ 32 + g.toNat) 36) +
      (leNat (h.frozenBytes (2 ^ 45 + m.toNat * 2 ^ 32 + g.toNat) 1) % 2) * 2 ^ 288)
    else h.tapOut 0
  | .readout =>
    if frozen && ! h.on F.DBG_STATUS_READOUT then ((h.setChannels 4 1).put F.DBG_STATUS_READOUT 1).tapOut 0 else h.tapOut 0
  | .line c l =>
    if frozen && h.on F.DBG_STATUS_READOUT then
      let (v, h) := h.lineRecord c.val l.toNat
      h.tapOut v
    else h.tapOut 0
  | .core n =>
    if benchMode h.mode then
      let h := if n.val < 32 || h.comparatorsOff then h else h.breakLockstep 2
      let (w, h) := h.free
      h.tapOut w.toNat
    else h.tapOut 0

/-- `TAP_INSTRUCTION` (R575): an instruction that needs a higher level than the module holds acts as BYPASS, and is
reported once per PORST. -/
def execTapInstruction (op : TapOp) (s : State) : Host.Outcome State Fault Refusal :=
  s.next fun h =>
    if h.mode = 0 then h
    else if tapNeeds op ≤ h.get F.DBG_STATUS_LEVEL then h.tapGives op
    else
      let h := if h.sys.tapRefused || h.on F.DBG_STATUS_FROZEN then h
        else ((h.debugRefused 2).put F.DBG_INT_STATUS_REFUSED 1)
      ({ h with sys := { h.sys with tapRefused := h.sys.tapRefused || ! h.on F.DBG_STATUS_FROZEN } }).tapOut 0

end Sys2Proof.Machine
end

