-- ==== Sys2Proof/Machine/GroupCmds.lean ====
section
/-! DEFINITION. Groups (R471 to R491), part 3: `JOB_SUBMIT`, `GROUP_CONFIG`, peer frames, members, takeover and
checkpoints. -/

namespace Sys2Proof.Machine

open Sys2Proof

/-! Submission (R240, R481, R595). -/

/-- Takes a held `JOB_SUBMIT` whose record is durable (R481 step 1). -/
def Hw.acceptHeld (h : Hw) (x : HeldSubmit) : Hw :=
  let h := h.modGrp fun g => { g with held := g.held.filter fun y => y.gseq ≠ x.gseq }
  match h.queue x.pid x.queue with
  | none => h
  | some qu =>
    let q : QRef := { pid := ⟨x.pid % 256, Nat.mod_lt _ (by decide)⟩, queue := ⟨x.queue % 16, Nat.mod_lt _ (by decide)⟩,
                      cp := ⟨x.cp % 4, Nat.mod_lt _ (by decide)⟩, rival := none }
    let c := mkCmd h q qu x.pkt (((h.part x.pid).map (·.nextSeq)).getD 1)
    let h := (h.presented q qu x.pkt).getD h
    submitAccepted x.gseq (h.take c (slotsOf x.pkt)) c

/-- Takes the held submissions that wait for nobody. -/
def Hw.acceptReady (h : Hw) : Hw := (h.sys.grp.held.filter fun x => x.waits.isEmpty).foldl (fun h x => h.acceptHeld x) h

/-- A group submission that has passed its checks (R481 step 1): its ISSUED record is written, and it waits for the members
in service to have their shards. -/
def Hw.holdSubmit (h : Hw) (q : QRef) (pkt : Packet) : Hw :=
  let g := h.sys.grp.gseq
  let h := (h.writeGrpRecord (grpRecord 1 q.pid.val q.queue.val 15 g 0 h.now 0 [] (pkt.take 60))).2
  let h := h.modGrp fun x => { x with
    gseq := (g + 1) % 2 ^ 48
    held := x.held ++ [{ pid := q.pid.val, queue := q.queue.val, cp := q.cp.val, pkt := pkt, gseq := g,
                         waits := h.othersInService }] }
  h.acceptReady

/-- Whether a packet at the front of its queue is a group submission that passes its checks and is not superseded. -/
def Hw.groupSubmit (h : Hw) (q : QRef) (qu : Queue) (pkt : Packet) : Bool :=
  let c := mkCmd h q qu pkt 0
  subPlace c ≠ 0 && (specJobSubmit.check h c).isNone && (superseded c.opc c.port q.rival).isNone

/-- `JOB_SUBMIT` (R240, R595): a group submission is taken when its record is durable, any other at once.  Its job begins in
a window stroke of its own (R241), so a packet that its queue has already accepted does nothing here. -/
def execJobSubmit (q : QRef) (p : Packet) (s : State) : Host.Outcome State Fault Refusal :=
  s.next fun h =>
    let pkt := rowPacket 0x40 p
    match h.queue q.pid.val q.queue.val with
    | none => h
    | some qu =>
      if ! h.presents q || h.isHeld q then h
      else if h.groupSubmit q qu pkt && (h.presented q qu pkt).isSome then h.holdSubmit q pkt
      else (h.takeNext specJobSubmit q pkt).2

/-! `GROUP_CONFIG` (R475). -/

/-- The group record that a command names, when it can be read. -/
def Hw.readGroup (h : Hw) (c : Cmd) : Option (List Byte) :=
  match (h.cmdRead c.pid (c.f 24 6) 288).1 with
  | .ok (bs, false) => some bs
  | _ => none

/-- Whether a record's fields are admitted (R475). -/
def Hw.groupOk (h : Hw) (b : List Byte) : Bool :=
  let n := field b 8 1
  let es := grpEntries b
  let standby := field b 11 1
  zeroIn b 13 19 &&
  (n == 0 || (decide (2 ≤ n) && decide (n ≤ 8) && decide (field b 9 1 < n) && decide (field b 10 1 < n) &&
    (standby == 0xFF || decide (standby < n)) && standby ≠ field b 10 1 &&
    (es.all fun e =>
      let pid := field e 0 1
      h.exists? pid && h.clsOf pid == field e 1 1 && (h.queue pid 15).isSome && h.holdsSob pid (field e 14 2) &&
        (es.countP fun x => field x 0 1 == pid) == 1)))

/-- The bytes of checkpoint shards that leave by a port (R484, R485). -/
def ckptBytes (b : List Byte) (port : Nat) : Nat :=
  let n := field b 8 1
  let m := field b 10 1
  sumNat ((grpEntries b).map fun e =>
    let s := shardLen n (field e 4 4)
    sumNat ((List.range n).map fun i =>
      let d := (i + n - m) % n
      if i = m then 0 else if (if 2 * d ≤ n then 0 else 1) = port then s else 0))

/-- Whether a record's sums exceed what a group may use (R475, R485). -/
def Hw.groupRes (h : Hw) (b : List Byte) : Bool :=
  let es := grpEntries b
  field b 8 1 ≠ 0 &&
  (decide (20000 < sumNat (es.map fun e => field e 2 2)) || decide (0x400_0000 < sumNat (es.map fun e => field e 4 4)) ||
   [0, 1].any fun p => decide (3000 * field b 12 1 * h.stn.active.coatLen < ckptBytes b p))

/-- Whether a sub-job of this module is outstanding. -/
def Hw.subsOut (h : Hw) : Bool := ! h.sys.grp.jobs.isEmpty || ! h.sys.grp.subs.isEmpty || ! h.sys.grp.held.isEmpty

/-- The checks of `GROUP_CONFIG` (R475, R587). -/
def specGroupConfig : OpSpec :=
  { opc := 0xD0, issuer := .owner, modes := .notDrive
    fields := fun h c => match h.readGroup c with
      | some b => h.groupOk b
      | none => true
    busy := fun h _ => if h.subsOut then some (0, none) else none
    res := fun h c => match h.readGroup c with
      | some b => if h.groupRes b then some (0, none) else none
      | none => none }

/-- Sends this module's JOIN on the ring and on both management networks (R476). -/
def Hw.sendJoin (h : Hw) : Hw :=
  let crc := leBytes 4 (grpCrc h.sys.grp.config)
  let h := h.sendPeer 9 15 0 0 0 crc
  let f := (leBytes 6 h.cfg.memberMac).reverse ++ [0x88, 0xB6] ++
    peerFrameBytes 9 h.grpSelf 15 0 0 0 (h.get F.PEER_STATUS_EPOCH) 0 crc
  { h with outs := h.outs ++ [.ethernet 2 f, .ethernet 3 f] }

/-- The registers of a group record (R475, R476, R491). -/
def Hw.enterGroup (h : Hw) (b : List Byte) : Hw :=
  let n := field b 8 1
  let h := h.modGrp fun g => { Group.none with ports := g.ports }
  let h := (h.put F.PEER_MEMBERS_IN_SERVICE 0).put F.PEER_MEMBERS_LOST 0
  let h := ((h.put F.PEER_MEMBERS_SEEN_A 0).put F.PEER_MEMBERS_SEEN_B 0).put F.PEER_STATUS_EPOCH 0
  let h := h.put F.PEER_JOIN_REASON 0
  if n = 0 then
    let h := ((h.put F.PEER_STATUS_SELF 0).put F.PEER_STATUS_MANAGER 0).put F.PEER_STATUS_STANDBY 15
    ((h.put F.PEER_STATUS_N 0).put F.PEER_STATUS_STATE 0).put F.PEER_GROUP_ID_ID 0
  else
    let h := h.modGrp fun g => { g with config := b }
    let h := (h.put F.PEER_STATUS_SELF (field b 9 1)).put F.PEER_STATUS_MANAGER (field b 10 1)
    let h := h.put F.PEER_STATUS_STANDBY (if field b 11 1 = 0xFF then 15 else field b 11 1)
    let h := ((h.put F.PEER_STATUS_N n).put F.PEER_STATUS_STATE 1).put F.PEER_GROUP_ID_ID (field b 0 8)
    h.sendJoin

/-- `GROUP_CONFIG` (R475, R476). -/
def execGroupConfig (q : QRef) (p : Packet) (s : State) : Host.Outcome State Fault Refusal :=
  s.next fun h => h.issue specGroupConfig q p fun h c =>
    h.withRecord c (c.f 24 6) 288 fun h b => (h.enterGroup b).done c 0

/-! Members (R476, R477, R486). -/

/-- Why the group has not formed (R491): 0 none, 1 a record differs, 2 a partition that its record names is
not there as it says (R475), 3 time, 4 a link. -/
def Hw.joinReason (h : Hw) : Nat :=
  let own := grpCrc h.sys.grp.config
  let far (p : Nat) : Bool := (h.sys.grp.offsets.find p).any fun o => decide (1000 < o.natAbs)
  if (List.range h.grpN).any fun i => i ≠ h.grpSelf && ((h.gmember i).crc).any (· ≠ own) then 1
  else if (grpEntries h.sys.grp.config).any fun e =>
    ! h.exists? (field e 0 1) || h.clsOf (field e 0 1) ≠ field e 1 1 || (h.queue (field e 0 1) 15).isNone then 2
  else if far 0 || far 1 then 3
  else if ! h.peerUp 0 || ! h.peerUp 1 then 4
  else 0

/-- Whether every member has reported this module's record, and every offset has been measured (R476, R477). -/
def Hw.allJoined (h : Hw) : Bool :=
  (List.range h.grpN).all (fun i => i == h.grpSelf || (h.gmember i).crc == some (grpCrc h.sys.grp.config)) &&
  (h.sys.grp.offsets.find 0).isSome && (h.sys.grp.offsets.find 1).isSome

/-- A group that is JOINING forms, or reports why it does not (R476). -/
def Hw.tryForm (h : Hw) : Hw :=
  if h.grpState ≠ 1 then h
  else
    let r := h.joinReason
    let h := if r ≠ 0 ∧ r ≠ h.get F.PEER_JOIN_REASON then h.put F.PEER_INT_STATUS_JOIN_FAILED 1 else h
    let h := h.put F.PEER_JOIN_REASON r
    if r = 0 && h.allJoined then
      let h := (List.range h.grpN).foldl (fun h i => h.modMember i fun m => { m with heardAt := h.now, lost := false }) h
      (h.put F.PEER_STATUS_STATE 2).put F.PEER_MEMBERS_IN_SERVICE (2 ^ h.grpN - 1)
    else h

/-- The lowest in-service worker becomes the standby (R487). -/
def Hw.newStandby (h : Hw) : Hw :=
  let ws := (List.range h.grpN).filter fun i => h.inService i && i ≠ h.get F.PEER_STATUS_MANAGER
  h.put F.PEER_STATUS_STANDBY ((ws.head?).getD 15)

/-- A member is lost (R477, R486): it gets no dispatch, and the manager deals the records anew. -/
def Hw.loseMember (h : Hw) (i : Nat) : Hw :=
  if ! h.inService i then h
  else
    let h := ((h.put (F.PEER_MEMBERS_IN_SERVICE.bit i) 0).put (F.PEER_MEMBERS_LOST.bit i) 1).put F.PEER_STATUS_STATE 3
    let h := (h.put F.PEER_INT_STATUS_MEMBER_LOST 1).modMember i fun m => { m with lost := true, back := false }
    let h := if h.get F.PEER_STATUS_STANDBY = i then h.newStandby else h
    if ! h.isManager then h
    else
      let h := h.event srcFw 0x0702 0 i
      let h := h.modGrp fun g => { g with
        held := g.held.map fun x => { x with waits := NSet.rem x.waits i }
        ckpts := g.ckpts.map fun x => { x with waits := NSet.rem x.waits i } }
      h.reencode.acceptReady

/-- `WORKER_LOST` (R486): no frame from a member for 1,000 strokes. -/
def execWorkerLost (i : Fin 8) (s : State) : Host.Outcome State Fault Refusal :=
  s.next fun h =>
    if h.grpRuns && h.isManager && i.val ≠ h.grpSelf && decide ((h.gmember i.val).heardAt + 1000 ≤ h.now)
    then h.loseMember i.val else h

/-- `MEMBER_REJOIN` (R486): at a coat boundary a lost member whose links carry frames again, and whose record agrees, is back
in service. -/
def execMemberRejoin (i : Fin 8) (s : State) : Host.Outcome State Fault Refusal :=
  s.next fun h =>
    let m := h.gmember i.val
    if h.grpRuns && bit (h.get F.PEER_MEMBERS_LOST) i.val && m.back && h.boundaryNow &&
       m.crc == some (grpCrc h.sys.grp.config) then
      let h := (h.put (F.PEER_MEMBERS_LOST.bit i.val) 0).put (F.PEER_MEMBERS_IN_SERVICE.bit i.val) 1
      let h := h.modMember i.val fun m => { m with lost := false, back := false, heardAt := h.now }
      let h := if h.get F.PEER_MEMBERS_LOST = 0 then h.put F.PEER_STATUS_STATE 2 else h
      let h := if h.get F.PEER_STATUS_STANDBY = 15 then h.newStandby else h
      if h.isManager then h.reencode else h
    else h

/-- `PEER_TIME_MEASURE` (R477): the time offset of a link, in ns. -/
def execPeerTimeMeasure (p : Fin 2) (ofs : BitVec 32) (s : State) : Host.Outcome State Fault Refusal :=
  s.next fun h =>
    if ! h.hubOn || h.grpN = 0 || ! h.peerUp p.val then h
    else
      let o := ofs.toInt
      let far := decide (2000 < o.natAbs)
      let k := if far then h.sys.grp.badOffsets.getD 0 p.val + 1 else 0
      let h := h.modGrp fun g => { g with offsets := g.offsets.put p.val o, badOffsets := g.badOffsets.putD 0 p.val k }
      let clamped : Int := if o < -32768 then -32768 else if 32767 < o then 32767 else o
      let h := h.put (if p.val = 0 then F.PEER_OFFSET_OFS0 else F.PEER_OFFSET_OFS1) (unsx 16 clamped)
      let n := max 1 h.grpN
      let h := h.sendPeer 2 (if p.val = 0 then (h.grpSelf + 1) % n else (h.grpSelf + n - 1) % n) 0 0 0 []
      if 3 ≤ k then h.loseMember (if p.val = 0 then (h.grpSelf + 1) % n else (h.grpSelf + n - 1) % n) else h

/-- `SUBJOB_TIMEOUT` (R486): `SUB_DL` of a group job's attempt has passed without DONE. -/
def execSubjobTimeout (gseq : BitVec 48) (s : State) : Host.Outcome State Fault Refusal :=
  s.next fun h =>
    if ! h.grpRuns || ! h.isManager then h
    else match h.sys.grp.jobs.find? fun j => j.gseq == gseq.toNat with
    | some j => if j.dispatched && j.worker ≠ 15 && decide (j.subDl < h.now) then h.reissue j (h.now - j.sentAt) else h
    | none => h

/-! Frames (R473). -/

/-- The number of the ISSUED record of a group job. -/
def Hw.issuedRecord (h : Hw) (gseq : Nat) : Option Nat :=
  (h.sys.grp.journal.find? fun e => field e.2 0 1 == 1 && field e.2 4 6 == gseq).map (·.1)

/-- A checkpoint whose shards are all durable becomes the latest, and its CKPT record is written (R485). -/
def Hw.settleCkpts (h : Hw) : Hw :=
  (h.sys.grp.ckpts.filter fun c => c.waits.isEmpty && ! c.latest).foldl (fun h c =>
    let h := h.modGrp fun g => { g with ckpts := (g.ckpts.filter fun x => ! (x.pid == c.pid && x.latest)).map fun x =>
      if x.pid = c.pid ∧ x.number = c.number then { x with latest := true } else x }
    (h.writeGrpRecord (grpRecord 4 c.pid 0 15 0 0 h.now 0 [] (leBytes 8 c.number ++ leBytes 8 c.data.length))).2) h

/-- A member acknowledges a shard up to a byte (R481, R484). -/
def Hw.shardAck (h : Hw) (src num upTo : Nat) : Hw :=
  let h := h.modGrp fun g => { g with
    held := g.held.map fun x => if h.issuedRecord x.gseq = some num then { x with waits := NSet.rem x.waits src } else x
    ckpts := g.ckpts.map fun c =>
      if num = 2 ^ 32 + c.pid ∧ shardLen h.shardMembers.length c.data.length ≤ upTo
      then { c with waits := NSet.rem c.waits src } else c }
  h.acceptReady.settleCkpts

/-- A member follows a manager of a higher epoch, or of its own epoch and a lower index (R487, R490). -/
def Hw.followManager (h : Hw) (epoch manager : Nat) : Hw :=
  let own := h.get F.PEER_STATUS_EPOCH
  let cur := h.get F.PEER_STATUS_MANAGER
  if own < epoch ∨ (epoch = own ∧ manager < cur ∧ cur = h.grpSelf) then
    let h := (h.put F.PEER_STATUS_EPOCH epoch).put F.PEER_STATUS_MANAGER manager
    let h := (h.put F.PEER_INT_STATUS_TAKEOVER 1).modGrp fun g => { g with
      jobs := g.jobs.filter fun j => j.worker == 15, held := []
      subs := g.subs.map fun s => { s with manager := manager } }
    h.newStandby
  else h

/-- A frame for this member (R473, R476, R481, R484). -/
def Hw.handlePeer (h : Hw) (f : List Byte) : Hw :=
  let src := field f 1 1 % 16
  let pid := field f 2 1
  let dseq := field f 8 6
  let p := f.drop 32
  let fromManager := src == h.get F.PEER_STATUS_MANAGER
  match field f 0 1 with
  | 1 => h.followManager (field f 14 1) (field p 0 1)
  | 3 => if fromManager then h.grpDispatch src pid dseq p else h
  | 4 => if fromManager then h.grpDataIn dseq p else h
  | 5 => if h.isManager then h.grpDataOut dseq p else h
  | 6 => if h.isManager then h.grpDone dseq p else h
  | 7 =>
    let h := h.modGrp fun g => { g with
      shards := g.shards.put dseq (patch (if field f 16 8 = 0 then [] else g.shards.getD [] dseq) (field f 16 8) p) }
    h.sendPeer 8 src 0 dseq (field f 16 8 + p.length) []
  | 8 => if h.isManager then h.shardAck src dseq (field f 16 8) else h
  | 9 =>
    let fresh := (h.gmember src).crc.isNone
    let h := h.modMember src fun m => { m with crc := some (field p 0 4) }
    (if fresh then h.sendJoin else h).tryForm
  | _ => h

/-- A sound frame in sequence (R473): acknowledged, handled when it is for this member, and forwarded when it is for
another. -/
def Hw.takePeer (h : Hw) (port : Nat) (f : List Byte) : Hw :=
  let src := field f 1 1 % 16
  let dst := field f 1 1 / 16
  let n := max 1 h.grpN
  let h := h.modMember src fun m => { m with heardAt := h.now, back := m.back || m.lost }
  let next := if port = 0 then (h.grpSelf + n - 1) % n else (h.grpSelf + 1) % n
  if field f 14 1 < h.get F.PEER_STATUS_EPOCH then h
  else if dst = h.grpSelf then h.handlePeer f
  else if dst = 15 then
    let h := if next = src then h else h.queuePeer (1 - port) f
    h.handlePeer f
  else h.queuePeer (if h.peerUp (1 - port) then 1 - port else port) f

/-- Acknowledges what has arrived at a port with a LINK frame, which carries the port's number (R544, log entry 58). -/
def Hw.sendAck (h : Hw) (port : Nat) : Hw :=
  let f := peerFrameBytes 0 h.grpSelf 15 0 0 0 (h.get F.PEER_STATUS_EPOCH) (h.peerPort port).nextRecv (leBytes 1 port)
  { h with outs := h.outs ++ [.ethernet (4 + port) ([0x88, 0xB6] ++ f)] }

/-- A LINK frame shows that a port meets its own like (R544): the link is not used, and `PEER_JOIN` says so. -/
def Hw.crossedPeer (h : Hw) (port : Nat) : Hw :=
  let h := h.put (if port = 0 then F.PEER_STATUS_LINK0 else F.PEER_STATUS_LINK1) 0
  let h := ((h.put F.PEER_INT_STATUS_LINK 1).addSat (F.PEER_LINK_DOWN.nth port) 1).event (srcPort (4 + port)) 0x0701 0 1
  (h.put F.PEER_JOIN_REASON 4).put F.PEER_INT_STATUS_JOIN_FAILED 1

/-- Whether a LINK frame names the port that it arrives at (R544). -/
def linkCrossed (port : Nat) (f : List Byte) : Bool := decide (0 < field f 24 4) && field f 32 1 == port

/-- What a peer port sees (R473). -/
def Hw.peerEvent (h : Hw) (port : Nat) (e : PeerEvent) : Hw :=
  if ! h.hubOn || ! h.peerUp port || h.grpN = 0 then h
  else match e with
  | .noAck => h.resendPeer port
  | .frame ok f =>
    if ! ok || 9 < field f 0 1 then h.addSat (F.PEER_LINK_CRC_ERR.nth port) 1
    else if field f 0 1 = 0 then (if linkCrossed port f then h.crossedPeer port else h.ackPeer port (field f 16 4))
    else if field f 4 4 ≠ (h.peerPort port).nextRecv then h.sendAck port
    else
      let h := h.modPeerPort port fun x => { x with nextRecv := (x.nextRecv + 1) % 2 ^ 32 }
      (h.sendAck port).takePeer port (fit (32 + field f 24 4 % 4096) f)

/-- `PEER_FRAME` (R473). -/
def execPeerFrame (port : Fin 2) (e : PeerEvent) (s : State) : Host.Outcome State Fault Refusal :=
  s.next fun h => h.peerEvent port.val e

/-! Member records (R478). -/

/-- Whether a member's record on a network is current. -/
def current (now : Nat) (at_ : Option Nat) : Bool := at_.any fun a => decide (now < a + 3000)

/-- The registers that show which records are current (R491). -/
def Hw.showSeen (h : Hw) : Hw :=
  let seen (f : GMember → Option Nat) : Nat := mask 8 fun i => i ≠ h.grpSelf && current h.now (f (h.gmember i))
  (h.put F.PEER_MEMBERS_SEEN_A (seen (·.recA))).put F.PEER_MEMBERS_SEEN_B (seen (·.recB))

/-- This module's member record (R478). -/
def Hw.memberRecord (h : Hw) : List Byte :=
  leBytes 8 (h.get F.PEER_GROUP_ID_ID) ++ leBytes 1 h.grpSelf ++ leBytes 1 (h.get F.PEER_STATUS_EPOCH) ++
    leBytes 1 h.grpState ++ leBytes 1 (b2n (! h.hubOn)) ++ leBytes 1 (h.get F.PEER_STATUS_MANAGER)

/-- A Datum sends the member record on its management network, every 1,000 strokes and after a change (R478). -/
def Hw.sendMember (h : Hw) (d : Nat) : Hw :=
  let r := h.memberRecord
  let g := h.sys.grp
  let due := match (if d = 0 then g.sentA else g.sentB) with
    | none => true
    | some a => decide (a + 1000 ≤ h.now) || r ≠ (if d = 0 then g.recA else g.recB)
  if ! h.datumOn d || h.grpN = 0 || ! due then h
  else
    let f := (leBytes 6 h.cfg.memberMac).reverse ++ [0x88, 0xB6] ++ r
    let h := h.modGrp fun g =>
      if d = 0 then { g with sentA := some h.now, recA := r } else { g with sentB := some h.now, recB := r }
    { h with outs := h.outs ++ [.ethernet (2 + d) f] }

/-- Another member's record or JOIN arrives on a management network. -/
def Hw.takeMember (h : Hw) (d : Nat) (m : MgmtMsg) : Hw :=
  match m with
  | .record g i ep _ st mgr =>
    if g.toNat ≠ h.get F.PEER_GROUP_ID_ID ∨ i.val = h.grpSelf then h
    else
      let h := h.modMember i.val fun x =>
        { x with recA := if d = 0 then some h.now else x.recA, recB := if d = 0 then x.recB else some h.now, stopped := st }
      (if h.grpRuns && decide (h.get F.PEER_STATUS_EPOCH < ep.toNat) then h.followManager ep.toNat mgr.val else h).showSeen
  | .join g i crc =>
    if g.toNat ≠ h.get F.PEER_GROUP_ID_ID ∨ i.val = h.grpSelf then h
    else (h.modMember i.val fun x => { x with crc := some crc.toNat }).tryForm

/-- `MEMBER_RECORD_SEND` (R478): Datum A (0) or B (1) sends this module's record on its network, or receives what another
member's Datum has sent there. -/
def execMemberRecordSend (d : Fin 2) (m : Option MgmtMsg) (s : State) : Host.Outcome State Fault Refusal :=
  s.next fun h =>
    match m with
    | none => h.sendMember d.val
    | some x => if h.datumOn d.val && decide (0 < h.grpN) then h.takeMember d.val x else h

/-! Takeover (R487). -/

/-- Whether nothing has come from a member for 3,000 strokes, on the ring or on either network. -/
def Hw.silent (h : Hw) (i : Nat) : Bool :=
  let m := h.gmember i
  decide (m.heardAt + 3000 ≤ h.now) && ! current h.now m.recA && ! current h.now m.recB

/-- Whether the manager is lost (R487): a current record says that its hub has stopped, or it is silent. -/
def Hw.managerGone (h : Hw) : Bool :=
  let i := h.get F.PEER_STATUS_MANAGER
  let m := h.gmember i
  (m.stopped && (current h.now m.recA || current h.now m.recB)) || h.silent i

/-- What stands under a number in the shards of this module and of the members that supply theirs (R484). -/
def Hw.rebuildShard (h : Hw) (ms : List Nat) (sup : List ShardMsg) (num : Nat) : Option (List Byte) :=
  let have_ := (List.range ms.length).foldl (fun (m : SMap (List Byte)) j =>
    let i := ms.getD j 0
    if i = h.grpSelf then match h.sys.grp.shards.find num with
      | some b => m.put j b
      | none => m
    else match sup.find? fun x => x.member.val == i && x.number.toNat == num with
      | some x => m.put j x.bytes
      | none => m) []
  unshard ms.length have_

/-- A checkpoint is written to its region, and its object counts (R487). -/
def Hw.restoreCkpt (h : Hw) (e : List Byte) (b : List Byte) : Hw :=
  let pid := field e 0 1
  let n := field e 4 4
  match h.writeVa 2 pid (field e 8 6) (fit n b) false with
  | (some _, h) => h
  | (none, h) =>
    let h := h.modGrp fun g => { g with ckpts := g.ckpts ++
      [{ pid := pid, number := 0, data := fit n b, waits := [], latest := true }] }
    (h.sobAccess 1 pid (field e 14 2) (.add 1)).2

/-- A group job of the old manager stands in the same queue of this module (R487): its attempt is kept when a DISPATCHED
record names one on another member, else it is issued again. -/
def Hw.adoptJob (h : Hw) (old : Nat) (r : List Byte) : Hw :=
  let pid := field r 1 1
  let qn := field r 2 1
  let gseq := field r 4 6
  match h.queue pid qn with
  | none => h
  | some qu =>
    let (args, h) := h.freeBytes 24
    let chunk := (r.drop 64).take 60 ++ zeros 4
    let pkt := fit (64 * slotsOf chunk) (chunk ++ args)
    let q : QRef := { pid := ⟨pid % 256, Nat.mod_lt _ (by decide)⟩, queue := ⟨qn % 16, Nat.mod_lt _ (by decide)⟩,
                      cp := 0, rival := none }
    let c := mkCmd h q qu pkt (((h.part pid).map (·.nextSeq)).getD 1)
    let h := (h.take c 0).begin c
    let sent := (h.sys.grp.journal.filter fun e => field e.2 0 1 == 2 && field e.2 4 6 == gseq).foldl
      (fun (b : Option (List Byte)) e => match b with
        | some x => if field x 16 8 ≤ field e.2 16 8 then some e.2 else some x
        | none => some e.2) none
    let d := (c.f 20 4)
    let base : GJob :=
      { pid := pid, queue := qn, num := c.num, gseq := gseq, dseq := 0, worker := 15, subDl := 0, subLimit := 0,
        place := subPlace c, dispatched := false, reissued := false, issuedAt := field r 16 8, sentAt := h.now, failed := none,
        xfer := [], dl := if d = 0 then none else some (field r 16 8 + d), got := 0, cancelled := none }
    match sent with
    | some x =>
      let w := field x 3 1
      let (xf, h) := match h.readVa 2 pid (c.f 48 6) 512 with
        | (.ok (b, false), h) => (b, h)
        | (_, h) => ([], h)
      let j := { base with dseq := field x 10 6, worker := w, subDl := field x 24 8, dispatched := true, xfer := xf }
      let h := h.modGrp fun g => { g with jobs := g.jobs ++ [j] }
      if w = 15 ∨ w = old then h.reissue j 0 else h
    | none => h.modGrp fun g => { g with jobs := g.jobs ++ [{ base with place := 15 }] }

/-- The standby becomes manager (R487): with the shards that the other members supply. -/
def Hw.takeOver (h : Hw) (sup : List ShardMsg) : Hw :=
  let old := h.get F.PEER_STATUS_MANAGER
  let ms := h.shardMembers
  let nums := (h.sys.grp.shards.keys ++ sup.map fun x => x.number.toNat).foldl NSet.add []
  let whole := nums.filterMap fun k => (h.rebuildShard ms sup k).map fun b => (k, b)
  let recs := (whole.filter fun e => decide (e.1 < 2 ^ 32)).map fun e => (e.1, e.2.take 128)
  let h := (h.addWrap F.PEER_STATUS_EPOCH 1).put F.PEER_STATUS_MANAGER h.grpSelf
  let h := (h.put F.PEER_INT_STATUS_TAKEOVER 1).loseMember old
  let top (o : Nat) : Nat := recs.foldl (fun m e => max m (field e.2 o 6 + 1)) 0
  let h := h.modGrp fun g => { g with
    journal := recs, gseq := max g.gseq (top 4), dseq := max g.dseq (top 10)
    subs := g.subs.map fun s => { s with manager := h.grpSelf } }
  let h := h.newStandby
  let h := (h.sendPeer 1 15 0 0 0 [BitVec.ofNat 8 h.grpSelf]).sendMember 0 |>.sendMember 1
  let h := (grpEntries h.sys.grp.config).foldl (fun h e =>
    match whole.find? fun w => w.1 == 2 ^ 32 + field e 0 1 with
    | some w => h.restoreCkpt e w.2
    | none => h) h
  let open_ := recs.filter fun e => field e.2 0 1 == 1 &&
    ! recs.any fun d => field d.2 0 1 == 3 && field d.2 4 6 == field e.2 4 6
  (open_.foldl (fun h e => h.adoptJob old e.2) h).reencode

/-- `MANAGER_TAKEOVER` (R487): the standby takes over; a member that has lost both manager and standby within one coat runs
alone. -/
def execManagerTakeover (sup : List ShardMsg) (s : State) : Host.Outcome State Fault Refusal :=
  s.next fun h =>
    if ! h.grpRuns || h.isManager || ! h.managerGone then h
    else if h.get F.PEER_STATUS_STANDBY = h.grpSelf then h.takeOver sup
    else
      let a := (h.gmember (h.get F.PEER_STATUS_MANAGER)).heardAt
      let b := (h.gmember (h.get F.PEER_STATUS_STANDBY)).heardAt
      if h.silent (h.get F.PEER_STATUS_STANDBY) && decide (max a b - min a b < h.stn.active.coatLen) then
        h.put F.PEER_STATUS_STATE 4
      else h

/-! Checkpoints (R485). -/

/-- Captures one group partition's region, and deals its shards. -/
def Hw.capture (h : Hw) (e : List Byte) : Hw :=
  let pid := field e 0 1
  let n := field e 4 4
  if n = 0 then h
  else match h.readUnits pid ((List.range (n / 64)).map fun i => field e 8 6 + 64 * i) with
  | (_, _, some _, h) => h
  | (bs, st, none, h) =>
    let num := h.get F.STN_COAT_COUNT_COATS
    let h := if st then h.stainedExit 4 pid else h
    let h := h.modGrp fun g => { g with ckpts := (g.ckpts.filter fun x => ! (x.pid == pid && ! x.latest)) ++
      [{ pid := pid, number := num, data := bs, waits := h.othersInService, latest := false }] }
    let h := (h.sobAccess 1 pid (field e 14 2) (.add 1)).2
    (h.sendShards (2 ^ 32 + pid) bs).settleCkpts

/-- `CHECKPOINT_CAPTURE` (R485): at a coat boundary whose count is a multiple of `CKPT_COATS`. -/
def execCheckpointCapture (s : State) : Host.Outcome State Fault Refusal :=
  s.next fun h =>
    let k := field h.sys.grp.config 12 1
    if h.grpRuns && h.isManager && h.boundaryNow && decide (0 < k) && h.get F.STN_COAT_COUNT_COATS % k == 0 then
      (grpEntries h.sys.grp.config).foldl Hw.capture h
    else h

/-! What each stroke does to the group, and resets. -/

/-- A stroke of the group: buckets, heartbeats, jobs and sub-jobs. -/
def Hw.groupStroke (h : Hw) : Hw :=
  if h.grpN = 0 || ! h.hubOn then h
  else
    let h := h.refillPeer
    let h := (h.pump 0).pump 1
    let h := if h.now % 100 = 0 then h.sendPeer 1 15 0 0 0 [BitVec.ofNat 8 (h.get F.PEER_STATUS_MANAGER)] else h
    let h := h.tryForm.acceptReady
    let h := h.sys.grp.jobs.foldl (fun h j => h.gjobStroke j) h
    let h := h.sys.grp.subs.foldl (fun h s => h.subStroke s) h
    h.consumeSubs.showSeen

/-- `PARTITION_RESET` of a group partition (R490): on the manager its group jobs complete `FAIL_ABORTED_RESET`; on a worker its
attempts end. -/
def Hw.grpPartReset (h : Hw) (pid : Nat) : Hw :=
  let h := (h.sys.grp.jobs.filter fun j => j.pid == pid).foldl (fun h j => h.endGJob j 0x3008 2 {}) h
  let h := (h.sys.grp.subs.filter fun s => s.pid == pid).foldl (fun h s => h.endSub s 0x3008 2 0 0) h
  h.modGrp fun g => { g with held := g.held.filter fun x => x.pid ≠ pid }

end Sys2Proof.Machine
end

