-- ==== Sys2Proof/Machine/ModelCmds.lean ====
section
/-! DEFINITION. The model commands 0x30 to 0x34 (R231 to R238, R593, R594), and the end of an
installation (R236). -/

namespace Sys2Proof.Machine

open Sys2Proof

/-- The handle of a model command. -/
def mHandle (c : Cmd) : Nat := c.f 16 1

/-- The handle field names a listed value (R593). -/
def mHandleOk (_ : Hw) (c : Cmd) : Bool := decide (mHandle c ≤ 63)

/-- The handle of commands 0x31 to 0x34 is not empty (R593). -/
def mHandleUsed (h : Hw) (c : Cmd) : Bool := decide (63 < mHandle c) || (h.model c.pid (mHandle c)).isSome

/-- Whether a handle is in use or reserved by an accepted `MODEL_LOAD` (R593). -/
def loadBusy (h : Hw) (c : Cmd) : Option (Nat × Option Nat) :=
  if (h.model c.pid (mHandle c)).isSome ||
     h.cmds.any (fun x => x.pid == c.pid && x.opc == 0x30 && x.seq ≠ 0 && ! x.complete && mHandle x == mHandle c)
  then some (0, none) else none

/-- The first page of an image whose leaf is absent or lacks `R` (outcome `ACCESS`), or the address of a
`DEV` page (R231). -/
def imagePages (h : Hw) (pid va n : Nat) : List (Nat × Except Nat Nat) :=
  let ps := pieces va n
  (List.range ps.length).map fun i => (i, h.mem.translate pid ((ps.getD i (0, 0)).1) .rd true)

/-- Whether a page of an image lies in a STRIPED frame. -/
def stripedAt (h : Hw) (a : Nat) : Bool := (h.mem.frame (frameOf a)).striped

/-- The outcome `CLASS` (R231): the failing index. -/
def classFault (h : Hw) (pid : Nat) (pages : List Nat) (m : Model) : Option Nat :=
  let d := h.clsOf pid == 0
  if m.duplex ≠ d then some 0
  else
    (m.ways.findSome? fun w => firstBad w fun i e =>
      (w.take i).all fun x => x.copy == e.copy || dieOfLogical x.logical ≠ dieOfLogical e.logical).orElse fun _ =>
    if d then firstBad pages fun _ a => stripedAt h a else none

/-- Whether the undercoat that a handle names fits an image (outcome `UNDERCOAT`, R231). -/
def ucFits (h : Hw) (pid hd : Nat) (m : Model) : Bool :=
  decide (hd < 64) && (h.model pid hd).any fun u =>
    u.imageId == m.undercoatId && u.fragTag == m.fragTag && u.duplex == m.duplex && u.batches == m.batches &&
    u.isUndercoat && ! u.hasUndercoat

/-- The result of a registration: outcome and index. -/
def loadResult (o i : Nat) : Nat := o + i * 256

/-- Registers an image whose bytes have been read (R231, R232, R238). -/
def loadChecked (h : Hw) (c : Cmd) (pages : List Nat) (bs : List Byte) : Hw :=
  let hd := mHandle c
  let uc := c.f 17 1
  match parseImage bs (c.f 24 6) (c.f 32 6) with
  | .error off => h.done c (loadResult 1 off)
  | .ok m =>
    match classFault h c.pid pages m with
    | some i => h.done c (loadResult 4 i)
    | none =>
      if m.hasUndercoat && ! ucFits h c.pid uc m then h.done c (loadResult 5 0)
      else
        match h.claimConflict c.pid m with
        | some i => h.done c (loadResult 3 i)
        | none =>
          let h := h.register c.pid hd { m with ucHandle := uc, useStamp := h.now }
          let h := if m.hasUndercoat then
              (h.modModel c.pid uc fun u => { u with ucPinned := true }).install c.pid uc
            else h
          h.done c 0

/-- The effect of `MODEL_LOAD` (R231). -/
def modelLoad (h : Hw) (c : Cmd) : Hw :=
  let va := c.f 24 6
  let n := c.f 32 6
  if 1024 ≤ h.models.length then h.done c (loadResult 6 0)
  else
    let ps := imagePages h c.pid va n
    match ps.find? fun p => match p.2 with
      | .error _ => true
      | .ok _ => false with
    | some (i, .error e) =>
      let a := ((pieces va n).getD i (va, 0)).1
      let h := h.translationFault 2 e c.pid a
      if e = 3 then h.failPage c (a, 3) else h.done c (loadResult 2 i)
    | some (i, .ok _) => h.done c (loadResult 2 i)
    | none =>
      h.withRecord c va n fun h bs =>
        loadChecked h c (ps.map fun p => match p.2 with
          | .ok a => a
          | .error _ => 0) bs

/-- The checks of `MODEL_LOAD` (R587). -/
def specModelLoad : OpSpec :=
  { opc := 0x30, fields := mHandleOk, busy := loadBusy }

/-- `MODEL_LOAD` (R593). -/
def execModelLoad (q : QRef) (p : Packet) (s : State) : Host.Outcome State Fault Refusal :=
  s.next fun h => h.issue specModelLoad q p modelLoad

/-- `MODEL_PIN` is refused when every way of a `REGISTERED` image overlaps another pinned image (R237). -/
def pinRes (h : Hw) (c : Cmd) : Option (Nat × Option Nat) :=
  match h.model c.pid (mHandle c) with
  | some m => if m.state == 0 && m.ways.all (h.pinBlocked c.pid (mHandle c)) then some (0, none) else none
  | none => none

/-- The checks of `MODEL_PIN` (R587). -/
def specModelPin : OpSpec :=
  { opc := 0x31, handles := mHandleUsed, fields := mHandleOk, res := pinRes }

/-- `MODEL_PIN` (R237). -/
def execModelPin (q : QRef) (p : Packet) (s : State) : Host.Outcome State Fault Refusal :=
  s.next fun h => h.issue specModelPin q p fun h c =>
    ((h.modModel c.pid (mHandle c) fun m => { m with pinned := true }).install c.pid (mHandle c)).done c 0

/-- The checks of `MODEL_UNPIN` (R587). -/
def specModelUnpin : OpSpec :=
  { opc := 0x32, handles := mHandleUsed, fields := mHandleOk }

/-- `MODEL_UNPIN` (R237); images that waited for the pin are reconsidered (R235). -/
def execModelUnpin (q : QRef) (p : Packet) (s : State) : Host.Outcome State Fault Refusal :=
  s.next fun h => h.issue specModelUnpin q p fun h c =>
    ((h.modModel c.pid (mHandle c) fun m => { m with pinned := false }).reinstall c.pid).done c 0

/-- The accepted jobs of an image that have not completed, as queue and command number: its own, and group jobs, which a
member may run (R479). -/
def Hw.jobsOf (h : Hw) (pid hd : Nat) : List (Nat × Nat) :=
  let own := (h.jobs.filter fun j => j.pid == pid && j.handle == hd).map fun j => (j.queue, j.num)
  let grp := (h.sys.grp.jobs.filter fun g => g.pid == pid &&
    (h.cmd? pid g.queue g.num).any fun c => ! c.complete && bits (c.f 16 1) 0 6 == hd).map fun g => (g.queue, g.num)
  own ++ grp.filter fun x => ! own.contains x

/-- `MODEL_EVICT` is refused while the image is pinned or has jobs (R237). -/
def evictBusy (h : Hw) (c : Cmd) : Option (Nat × Option Nat) :=
  match h.model c.pid (mHandle c) with
  | some m => if m.pinned || m.ucPinned || ! (h.jobsOf c.pid (mHandle c)).isEmpty then some (0, none) else none
  | none => none

/-- Clears the pin that an image holds on its undercoat, when no other image holds it (R234, R237). -/
def Hw.dropUcPin (h : Hw) (pid : Nat) (m : Model) : Hw :=
  if m.hasUndercoat then
    let held := h.models.any fun e => e.1 / 64 == pid && e.2.hasUndercoat && e.2.ucHandle == m.ucHandle
    h.modModel pid m.ucHandle fun u => { u with ucPinned := held }
  else h

/-- The effect of `MODEL_EVICT` (R237). -/
def modelEvict (h : Hw) (c : Cmd) : Hw :=
  let hd := mHandle c
  let h := h.toRegistered c.pid hd
  let h := if bit (c.f 17 1) 0 then
      match h.model c.pid hd with
      | some m => (h.unregister c.pid hd).dropUcPin c.pid m
      | none => h
    else h
  (h.reinstall c.pid).done c 0

/-- The checks of `MODEL_EVICT` (R587). -/
def specModelEvict : OpSpec :=
  { opc := 0x33, handles := mHandleUsed, fields := mHandleOk, busy := evictBusy }

/-- `MODEL_EVICT` (R237). -/
def execModelEvict (q : QRef) (p : Packet) (s : State) : Host.Outcome State Fault Refusal :=
  s.next fun h => h.issue specModelEvict q p modelEvict

/-- The record of `MODEL_QUERY` (R594). -/
def modelRecord (h : Hw) (pid hd : Nat) (m : Model) : List Byte :=
  leBytes 1 m.state ++ leBytes 1 (if m.state = 0 then 0xFF else m.way) ++
  leBytes 1 (b2n m.pinned + 2 * b2n m.ucPinned + 4 * b2n (h.inUse pid hd)) ++ zeros 1 ++
  leBytes 4 m.streamBytes ++ leBytes 8 m.useStamp ++ leBytes 8 m.imageId ++ leBytes 4 (h.jobsOf pid hd).length ++
  zeros 4

/-- The checks of `MODEL_QUERY` (R587). -/
def specModelQuery : OpSpec :=
  { opc := 0x34, handles := mHandleUsed, fields := mHandleOk }

/-- `MODEL_QUERY` (R594): the record is 32 bytes; `RESULT` is its first 8. -/
def execModelQuery (q : QRef) (p : Packet) (s : State) : Host.Outcome State Fault Refusal :=
  s.next fun h => h.issue specModelQuery q p fun h c =>
    match h.model c.pid (mHandle c) with
    | some m =>
      let r := modelRecord h c.pid (mHandle c) m
      h.doneWriting c (c.f 24 6 / 32 * 32) r (field r 0 8)
    | none => h.done c 0

/-- Every job that waits at the head of its activity for an image fails when the installation does (R236). -/
def Hw.failWaiting (h : Hw) (pid hd status detail : Nat) : Hw :=
  (h.jobs.filter fun j => j.pid == pid && j.begun.isNone && h.runHandle j == hd &&
    ((h.jobAct j).bind h.actHead).any fun x => x.queue == j.queue && x.num == j.num).foldl (fun h j => h.endJob j status detail) h

/-- The last load segment of an image is written (R236): once its buckets have allowed all its bytes. -/
def Hw.finishInstall (h : Hw) (pid hd : Nat) : Hw :=
  match h.model pid hd with
  | none => h
  | some m =>
    if m.state = 1 ∧ m.loadBytes ≤ m.installed then
      let segs := (m.ways.getD m.way []).flatMap fun e =>
        match h.physFor pid e.logical with
        | some t => e.loads.map fun l => (t, l)
        | none => []
      match h.loadAll pid m.va segs with
      | .ok h => (h.bindModel pid hd m).modModel pid hd fun m => { m with state := 2 }
      | .error (a, cse, h) =>
        let (st, d) := pageStatus (a, cse)
        ((h.translationFault 0 cse pid a).toRegistered pid hd).failWaiting pid hd st d
    else h

/-- `INSTALLATION_COMPLETE` (R236). -/
def execInstallationComplete (pid : Fin 256) (hd : Fin 64) (s : State) : Host.Outcome State Fault Refusal :=
  s.next fun h => if h.fabricOn then h.finishInstall pid.val hd.val else h

end Sys2Proof.Machine
end

