-- ==== Sys2Proof/Machine/SeqCmds.lean ====
section
/-! DEFINITION. The sequence and gazetteer commands (R262 to R281, R598), and the zero-fill of a free sheet
(R261). -/

namespace Sys2Proof.Machine

open Sys2Proof

/-- A gazetteer node index that names none (R263, R276). -/
def noNode : Nat := 0x1F_FFFF

/-- A partition's `SEQ_QUOTA`. -/
def Hw.seqQuota (h : Hw) (pid : Nat) : Nat := ((h.part pid).map (·.seqQuota)).getD 0

/-- Whether a handle names a live sequence of the issuer (R265). -/
def Hw.seqLive (h : Hw) (pid hd : Nat) : Bool := decide (hd < h.seqQuota pid) && (h.seqOf pid hd).isSome

/-- Reads `n` page-list entries of a layer from index `i` on, for a command (R264). -/
def Hw.readRun (h : Hw) (pid : Nat) (s : SeqRec) (layer i n : Nat) : Except (Nat × Nat) (List Nat × Bool) × Hw :=
  match h.readVa 2 pid (s.entryVa layer i) (4 * n) .table with
  | (.error e, h) => (.error e, h)
  | (.ok (bs, st), h) => (.ok ((List.range n).map fun k => field bs (4 * k) 4, st), h)

/-- Writes page-list entries of a layer from index `i` on with PID 0, whatever `W` holds (R264). -/
def Hw.writeRun (h : Hw) (pid : Nat) (s : SeqRec) (layer i : Nat) (es : List Nat) : Option (Nat × Nat) × Hw :=
  match h.mem.translateRun pid (s.entryVa layer i) (4 * es.length) .table true with
  | .error (a, c) => (some (a, c), h.translationFault 2 c pid a)
  | .ok ps => (none, h.writePieces 0 (es.flatMap fun e => leBytes 4 e) false ps)

/-- Reads the entries from index `i` on, `n` of them, of every layer below `k`, and goes on with them; a
failed translation or a stained entry ends the command (R178, R106). -/
def Hw.withEntries (h : Hw) (c : Cmd) (s : SeqRec) (i n : Nat) (acc : List (List Nat)) (k : Hw → List (List Nat) → Hw) :
    Nat → Hw
  | 0 => k h acc
  | m + 1 =>
    match h.readRun c.pid s (s.layers - m) i n with
    | (.error e, h) => h.failPage c e
    | (.ok (es, st), h) => if st then h.finish c 0x3001 0 0xFFFF_FFFF else h.withEntries c s i n (acc ++ [es]) k m

/-- Writes entries from index `i` on for every layer; the first failing page ends it (R178). -/
def Hw.writeLayers (h : Hw) (pid : Nat) (s : SeqRec) (i : Nat) : Nat → List (List Nat) → Option (Nat × Nat) × Hw
  | _, [] => (none, h)
  | l, es :: more =>
    match h.writeRun pid s l i es with
    | (some e, h) => (some e, h)
    | (none, h) => h.writeLayers pid s i (l + 1) more

/-- `n` empty entries for every layer of a sequence. -/
def SeqRec.blank (s : SeqRec) (n : Nat) : List (List Nat) := List.replicate (s.layers + 1) (List.replicate n 0)

/-- Whether every page of entries `i` to `i + n - 1` of each layer can be reached (R264). -/
def Hw.runsFault (h : Hw) (pid : Nat) (s : SeqRec) (i n : Nat) : Option (Nat × Nat) :=
  (List.range (s.layers + 1)).findSome? fun l =>
    match h.mem.translateRun pid (s.entryVa l i) (4 * n) .table true with
    | .error e => some e
    | .ok _ => none

/-! Gazetteer nodes. -/

/-- A node that is not free. -/
def Hw.node (h : Hw) (n : Nat) : Option GazNode := h.kv.gaz.nodes.find n

/-- Changes a node. -/
def Hw.modNode (h : Hw) (n : Nat) (f : GazNode → GazNode) : Hw :=
  { h with kv := { h.kv with gaz := { h.kv.gaz with nodes := h.kv.gaz.nodes.upd n f } } }

/-- TPS of a node's sheets. -/
def GazNode.tps (g : GazNode) : Nat := 65536 / (2 ^ (g.rankfmt % 16) * (if g.rankfmt / 16 = 0xE then 2 else 1))

/-- The sheets of a block for one layer. -/
def GazNode.perLayer (g : GazNode) : Nat := 256 / g.tps

/-- The entries of the gazetteer sheet table that a node owns (R276). -/
def GazNode.count (g : GazNode) : Nat := (g.layers + 1) * g.perLayer

/-- A node's sheets. -/
def Hw.nodeSheets (h : Hw) (g : GazNode) : List Nat := (upto g.tbl g.count).map fun i => h.kv.gaz.table.getD 0 i

/-- Frees a node that is retired and that nothing holds, and then its parent when that falls due (R280). -/
def Hw.freeNode (h : Hw) (n : Nat) : Nat → Hw
  | 0 => h
  | fuel + 1 =>
    match h.node n with
    | none => h
    | some g =>
      if g.state = 2 ∧ g.refs = 0 ∧ g.children = 0 then
        let h := (h.nodeSheets g).foldl Hw.freeSheet h
        let h := { h with kv := { h.kv with gaz := { h.kv.gaz with
          nodes := h.kv.gaz.nodes.del n
          table := (upto g.tbl g.count).foldl (fun (m : SMap Nat) i => m.del i) h.kv.gaz.table } } }
        (h.modNode g.parent fun p => { p with children := p.children - 1 }).freeNode g.parent fuel
      else h

/-- Detaches from a node (R279). -/
def Hw.detach (h : Hw) (n : Nat) : Hw :=
  if n = noNode then h else (h.modNode n fun g => { g with refs := g.refs - 1 }).freeNode n 4096

/-- Attaches to a node (R278, R279). -/
def Hw.attach (h : Hw) (n : Nat) : Hw := if n = noNode then h else h.modNode n fun g => { g with refs := g.refs + 1 }

/-- The node on a node's path at a depth; none at depth 0. -/
def Hw.atDepth (h : Hw) (n d : Nat) : Nat → Nat
  | 0 => noNode
  | fuel + 1 =>
    match h.node n with
    | none => noNode
    | some g => if g.depth ≤ d then n else h.atDepth g.parent d fuel

/-- Moves a sequence's attachment to another node. -/
def Hw.moveAttach (h : Hw) (pid hd : Nat) (s : SeqRec) (n : Nat) : Hw :=
  if n = s.node then h else ((h.setSeq pid hd { s with node := n }).attach n).detach s.node

/-- The live node with a parent and a hash (R277, R278). -/
def Hw.findNode (h : Hw) (parent hash : Nat) : Option Nat :=
  (h.kv.gaz.nodes.find? fun e => e.2.state == 1 && e.2.parent == parent && e.2.hash == hash).map (·.1)

/-! Sequences. -/

/-- The record that `SEQ_CREATE` carries (R598). -/
def createSeqRec (c : Cmd) : SeqRec :=
  { plVa := c.f 24 6, len := 0, cap := c.f 32 4, dieTokens := c.f 36 4, layers := c.f 40 1,
    log2Rank := bits (c.f 41 1) 0 4, fmt := bits (c.f 41 1) 4 4, position := bit (c.f 42 1) 0, node := noNode,
    lenAtStart := 0 }

/-- Whether a record's fields lie in the ranges of R263. -/
def SeqRec.fieldsOk (s : SeqRec) : Bool :=
  s.plVa % 64 == 0 && decide (1 ≤ s.cap) && decide (s.cap ≤ 2 ^ 20) && decide (s.dieTokens < 2 ^ 21) &&
  decide (5 ≤ s.log2Rank) && decide (s.log2Rank ≤ 10) && (s.fmt == 0x3 || s.fmt == 0x4 || s.fmt == 0xE)

/-- The refusals of a new sequence (R265). -/
def newSeqBusy (hd : Cmd → Nat) (h : Hw) (c : Cmd) : Option (Nat × Option Nat) :=
  if (h.seqOf c.pid (hd c)).isSome then some (0, none) else none

/-- All sequences of the module are live (R262, R265). -/
def newSeqRes (h : Hw) (_ : Cmd) : Option (Nat × Option Nat) := if 65536 ≤ h.kv.seqs.length then some (0, none) else none

/-- The effect of `SEQ_CREATE` (R265). -/
def seqCreate (h : Hw) (c : Cmd) : Hw :=
  let s := createSeqRec c
  match h.runsFault c.pid s 0 s.maxs with
  | some (a, e) => (h.translationFault 2 e c.pid a).failPage c (a, e)
  | none => (((h.writeLayers c.pid s 0 0 (s.blank s.maxs)).2).setSeq c.pid (c.f 16 2) s).done c 0

/-- The checks of `SEQ_CREATE` (R587). -/
def specSeqCreate : OpSpec :=
  { opc := 0x50
    handles := fun h c => decide (c.f 16 2 < h.seqQuota c.pid)
    fields := fun _ c => (createSeqRec c).fieldsOk
    busy := newSeqBusy fun c => c.f 16 2
    res := newSeqRes }

/-- `SEQ_CREATE` (R265, R598). -/
def execSeqCreate (q : QRef) (p : Packet) (s : State) : Host.Outcome State Fault Refusal :=
  s.next fun h => h.issue specSeqCreate q p seqCreate

/-- A sheet that a fork's entries name gains a holder (R265). -/
def Hw.shareSheet (h : Hw) (pid n : Nat) : Hw :=
  if h.ownSheet pid n then h.setSheet n { h.sheet n with ref := (h.sheet n).ref + 1 } else h

/-- The effect of `SEQ_FORK` (R265, R279). -/
def seqFork (h : Hw) (c : Cmd) : Hw :=
  match h.seqOf c.pid (c.f 16 2) with
  | none => h.wildEnd c
  | some src =>
    let dst := { src with plVa := c.f 24 6 }
    match h.runsFault c.pid dst 0 dst.maxs with
    | some (a, e) => (h.translationFault 2 e c.pid a).failPage c (a, e)
    | none =>
      h.withEntries c src 0 src.maxs [] (fun h es =>
        let h := (h.writeLayers c.pid dst 0 0 es).2
        let h := es.flatten.foldl (fun h n => h.shareSheet c.pid n) h
        ((h.attach src.node).setSeq c.pid (c.f 18 2) dst).done c 0) (src.layers + 1)

/-- The checks of `SEQ_FORK` (R587). -/
def specSeqFork : OpSpec :=
  { opc := 0x51
    handles := fun h c => h.seqLive c.pid (c.f 16 2) && decide (c.f 18 2 < h.seqQuota c.pid)
    fields := fun _ c => c.f 24 6 % 64 == 0
    busy := newSeqBusy fun c => c.f 18 2
    res := newSeqRes }

/-- `SEQ_FORK` (R265, R598). -/
def execSeqFork (q : QRef) (p : Packet) (s : State) : Host.Outcome State Fault Refusal :=
  s.next fun h => h.issue specSeqFork q p seqFork

/-- Sets the entries from index `i` on to 0 and releases their sheets (R265, R266). -/
def Hw.dropEntries (h : Hw) (c : Cmd) (s : SeqRec) (i : Nat) (k : Hw → Hw) : Hw :=
  let n := s.maxs - i
  h.withEntries c s i n [] (fun h es =>
    let h := (h.writeLayers c.pid s i 0 (s.blank n)).2
    k (es.flatten.foldl (fun h m => h.releaseSheet c.pid m) h)) (s.layers + 1)

/-- The effect of `SEQ_TRUNCATE` (R265). -/
def seqTruncate (h : Hw) (c : Cmd) : Hw :=
  let hd := c.f 16 2
  let n := bits (c.f 20 4) 0 21
  match h.seqOf c.pid hd with
  | none => h.wildEnd c
  | some s =>
    if s.len < n then h.done c s.len
    else
      h.dropEntries c s (cdiv n s.tps) fun h =>
        let s := { s with len := n }
        ((h.setSeq c.pid hd s).moveAttach c.pid hd s (h.atDepth s.node (cdiv n 256) 4097)).done c n

/-- A command on a live sequence (R265). -/
def seqHandle (h : Hw) (c : Cmd) : Bool := h.seqLive c.pid (c.f 16 2)

/-- The checks of `SEQ_TRUNCATE` (R587). -/
def specSeqTruncate : OpSpec :=
  { opc := 0x52, handles := seqHandle }

/-- `SEQ_TRUNCATE` (R265, R598). -/
def execSeqTruncate (q : QRef) (p : Packet) (s : State) : Host.Outcome State Fault Refusal :=
  s.next fun h => h.issue specSeqTruncate q p seqTruncate

/-- A sequence's handle is free again, and nothing is attached for it. -/
def Hw.dropSeq (h : Hw) (pid hd : Nat) (s : SeqRec) : Hw :=
  ({ h with kv := { h.kv with seqs := h.kv.seqs.del (seqKey pid hd) } }).detach s.node

/-- The effect of `SEQ_FREE` (R265). -/
def seqFree (h : Hw) (c : Cmd) : Hw :=
  let hd := c.f 16 2
  match h.seqOf c.pid hd with
  | none => h.wildEnd c
  | some s =>
    h.withEntries c s 0 s.maxs [] (fun h es =>
      let h := es.flatten.foldl (fun h m => h.releaseSheet c.pid m) h
      (h.dropSeq c.pid hd s).done c 0) (s.layers + 1)

/-- The checks of `SEQ_FREE` (R587). -/
def specSeqFree : OpSpec :=
  { opc := 0x53, handles := seqHandle }

/-- `SEQ_FREE` (R265, R598). -/
def execSeqFree (q : QRef) (p : Packet) (s : State) : Host.Outcome State Fault Refusal :=
  s.next fun h => h.issue specSeqFree q p seqFree

/-- A sequence's record (R263). -/
def SeqRec.bytes (s : SeqRec) : List Byte :=
  leBytes 8 s.plVa ++ leBytes 4 s.len ++ leBytes 4 s.cap ++ leBytes 4 s.dieTokens ++ leBytes 1 s.layers ++
  leBytes 1 (s.log2Rank + 16 * s.fmt) ++ leBytes 1 (b2n s.position + 2) ++ zeros 1 ++ leBytes 4 s.node ++ zeros 4

/-- The checks of `SEQ_QUERY` (R587). -/
def specSeqQuery : OpSpec :=
  { opc := 0x54, handles := seqHandle }

/-- `SEQ_QUERY` (R263, R265, R598): the record is written at `OUT_VA`, whose low 5 bits are ignored. -/
def execSeqQuery (q : QRef) (p : Packet) (s : State) : Host.Outcome State Fault Refusal :=
  s.next fun h => h.issue specSeqQuery q p fun h c =>
    match h.seqOf c.pid (c.f 16 2) with
    | some r => h.doneWriting c (c.f 24 6 / 32 * 32) r.bytes r.len
    | none => h.wildEnd c

/-! The gazetteer. -/

/-- The chain's seed (R275). -/
def gazSeed (ns : Nat) (s : SeqRec) : Nat := mix64 (ns ^^^ ((s.layers + 1) * 2 ^ 16 + s.log2Rank * 2 ^ 8 + s.fmt))

/-- One block of the chain (R275). -/
def gazNext (x : Nat) (tok : List Byte) : Nat :=
  (List.range 128).foldl (fun x i => mix64 (x ^^^ field tok (8 * i) 8)) x

/-- The chain values of the first `n` blocks: h[1] to h[n]. -/
def gazChain (x : Nat) (tok : List Byte) : Nat → List Nat
  | 0 => []
  | n + 1 => let y := gazNext x (tok.take 1024); y :: gazChain y (tok.drop 1024) n

/-- The lowest entry handle of a partition that is free (R276). -/
def Hw.freeEntry (h : Hw) (pid : Nat) : Option Nat := firstNat 1024 fun e => (h.kv.gaz.entries.find (pid * 1024 + e)).isNone

/-- The lowest node that is free. -/
def Hw.freeNodeIx (h : Hw) : Option Nat :=
  if 1048576 ≤ h.kv.gaz.nodes.length then none
  else firstNat (h.kv.gaz.nodes.length + 1) fun n => (h.node n).isNone

/-- The lowest run of `n` free entries of the gazetteer sheet table. -/
def Hw.freeTable (h : Hw) (n : Nat) : Option Nat :=
  let used := h.kv.gaz.nodes.map fun e => (e.2.tbl, e.2.tbl + e.2.count)
  let starts := (used.map (·.2)).foldl NSet.add [0]
  starts.find? fun a => decide (a + n ≤ 16777216) && used.all fun u => decide (a + n ≤ u.1) || decide (u.2 ≤ a)

/-- What publishing has reached: depth, the deepest node, the reason for stopping and the nodes created. -/
structure PubState where
  depth : Nat
  at_ : Nat
  reason : Nat
  made : List Nat
  deriving DecidableEq, Repr

/-- Creates a node for a block with its sheets (R277, step 2). -/
def Hw.makeNode (h : Hw) (pid entry n tbl ns parent hash depth : Nat) (s : SeqRec) (sheets : List Nat) : Hw :=
  let g : GazNode :=
    { hash := hash, ns := ns, parent := parent, depth := depth, pub := pid, state := 1, refs := 0, children := 0,
      tbl := tbl, layers := s.layers, rankfmt := s.log2Rank + 16 * s.fmt, entry := entry }
  let h := { h with kv := { h.kv with gaz := { h.kv.gaz with
    nodes := h.kv.gaz.nodes.put n g
    table := (List.range sheets.length).foldl (fun (m : SMap Nat) i => m.put (tbl + i) (sheets.getD i 0)) h.kv.gaz.table } } }
  let h := sheets.foldl (fun h m => h.setSheet m { h.sheet m with gaz := true, ref := 1, link := n }) h
  h.modNode parent fun p => { p with children := p.children + 1 }

/-- Whether a sheet may be published (R277, step 2). -/
def Hw.publishable (h : Hw) (pid m : Nat) : Bool := h.ownSheet pid m && (h.sheet m).ref == 1

/-- Publishes the blocks of a chain one after another (R277). -/
def Hw.publish (h : Hw) (pid entry ns : Nat) (s : SeqRec) (es : List (List Nat)) :
    Nat → List Nat → PubState → PubState × Hw
  | _, [], st => (st, h)
  | j, x :: xs, st =>
    match h.findNode st.at_ x with
    | some n => h.publish pid entry ns s es (j + 1) xs { st with depth := j, at_ := n }
    | none =>
      let per := 256 / s.tps
      let sheets := es.flatMap fun l => (l.drop ((j - 1) * per)).take per
      if ! sheets.all (h.publishable pid) then ({ st with reason := 1 }, h)
      else
        match h.freeNodeIx, h.freeTable sheets.length with
        | none, _ => ({ st with reason := 2 }, h)
        | _, none => ({ st with reason := 3 }, h)
        | some n, some tbl =>
          (h.makeNode pid entry n tbl ns st.at_ x j s sheets).publish pid entry ns s es (j + 1) xs
            { st with depth := j, at_ := n, made := st.made ++ [n] }

/-- The effect of `GAZ_PUBLISH` (R277). -/
def gazPublish (h : Hw) (c : Cmd) : Hw :=
  let hd := c.f 16 2
  let n := c.f 20 2
  match h.seqOf c.pid hd, h.freeEntry c.pid with
  | some s, some entry =>
    h.withRecord c (c.f 24 6) (1024 * n) fun h tok =>
      h.withEntries c s 0 (n * (256 / s.tps)) [] (fun h es =>
        let chain := gazChain (gazSeed (c.f 32 8) s) tok n
        let (st, h) := h.publish c.pid entry (c.f 32 8) s es 1 chain { depth := 0, at_ := noNode, reason := 0, made := [] }
        let h := if st.made.isEmpty then h else
          { h with kv := { h.kv with gaz := { h.kv.gaz with entries := h.kv.gaz.entries.put (c.pid * 1024 + entry) st.made } } }
        let h := if st.depth = 0 then h else h.moveAttach c.pid hd s st.at_
        h.done c (st.depth + st.reason * 2 ^ 13 + (if st.made.isEmpty then 0x3FF else entry) * 2 ^ 16)) (s.layers + 1)
  | _, _ => h.wildEnd c

/-- The checks of `GAZ_PUBLISH` (R587). -/
def specGazPublish : OpSpec :=
  { opc := 0x55, issuer := .gaz, handles := seqHandle
    fields := fun h c => decide (1 ≤ c.f 20 2) && decide (c.f 20 2 ≤ 4096) &&
      (h.seqOf c.pid (c.f 16 2)).all fun s => decide (s.tps ≤ 256)
    busy := fun h c => if (h.seqOf c.pid (c.f 16 2)).any fun s => decide (s.len < 256 * c.f 20 2) then some (0, none) else none
    res := fun h c => if (h.freeEntry c.pid).isNone then some (0, none) else none }

/-- `GAZ_PUBLISH` (R277, R598). -/
def execGazPublish (q : QRef) (p : Packet) (s : State) : Host.Outcome State Fault Refusal :=
  s.next fun h => h.issue specGazPublish q p gazPublish

/-- The nodes of the longest unbroken chain of live nodes (R278). -/
def Hw.chainNodes (h : Hw) (parent : Nat) : List Nat → List Nat
  | [] => []
  | x :: xs =>
    match h.findNode parent x with
    | some n => n :: h.chainNodes n xs
    | none => []

/-- The page-list entries of a layer that nodes give. -/
def Hw.nodeEntries (h : Hw) (layer : Nat) (ns : List Nat) : List Nat :=
  ns.flatMap fun n =>
    match h.node n with
    | some g => (upto (g.tbl + layer * g.perLayer) g.perLayer).map fun i => h.kv.gaz.table.getD 0 i
    | none => []

/-- The effect of `GAZ_LOOKUP` (R278). -/
def gazLookup (h : Hw) (c : Cmd) : Hw :=
  let hd := c.f 16 2
  let n := c.f 20 2
  match h.seqOf c.pid hd with
  | none => h.wildEnd c
  | some s =>
    h.withRecord c (c.f 24 6) (1024 * n) fun h tok =>
      let chain := gazChain (gazSeed (c.f 32 8) s) tok (min n (s.cap / 256))
      let ns := h.chainNodes noNode chain
      if ns.isEmpty then h.done c 0
      else
        let es := (List.range (s.layers + 1)).map fun l => h.nodeEntries l ns
        match h.writeLayers c.pid s 0 0 es with
        | (some e, h) => h.failPage c e
        | (none, h) =>
          let at_ := ns.getLastD noNode
          ((h.setSeq c.pid hd { s with len := 256 * ns.length, node := at_ }).attach at_).done c ns.length

/-- The checks of `GAZ_LOOKUP` (R587). -/
def specGazLookup : OpSpec :=
  { opc := 0x56, issuer := .gaz, handles := seqHandle
    busy := fun h c => if (h.seqOf c.pid (c.f 16 2)).any fun s => s.len ≠ 0 || s.node ≠ noNode
      then some (0, none) else none }

/-- `GAZ_LOOKUP` (R278, R598). -/
def execGazLookup (q : QRef) (p : Packet) (s : State) : Host.Outcome State Fault Refusal :=
  s.next fun h => h.issue specGazLookup q p gazLookup

/-- Retires the nodes of an entry handle that are still live, and frees the handle (R280); answers how
many. -/
def Hw.retireEntry (h : Hw) (pid entry : Nat) : Nat × Hw :=
  let key := pid * 1024 + entry
  let mine := (h.kv.gaz.entries.getD [] key).filter fun n => (h.node n).any fun g => g.state == 1 && g.pub == pid && g.entry == entry
  let h := { h with kv := { h.kv with gaz := { h.kv.gaz with entries := h.kv.gaz.entries.del key } } }
  let h := mine.foldl (fun h n => h.modNode n fun g => { g with state := 2 }) h
  (mine.length, mine.foldl (fun h n => h.freeNode n 4096) h)

/-- The checks of `GAZ_RETIRE` (R587). -/
def specGazRetire : OpSpec :=
  { opc := 0x57, issuer := .gaz, handles := fun _ c => decide (c.f 16 2 < 1024) }

/-- `GAZ_RETIRE` (R280, R598): a handle above 1,023 names none; one that names no publish retires nothing. -/
def execGazRetire (q : QRef) (p : Packet) (s : State) : Host.Outcome State Fault Refusal :=
  s.next fun h => h.issue specGazRetire q p fun h c =>
      let (n, h) := h.retireEntry c.pid (c.f 16 2)
      h.done c n

/-- A free sheet is filled with zeros, which clears its stain, and may be handed out (R261). -/
def Hw.zeroSheet (h : Hw) (n : Nat) : Hw :=
  let r := h.sheet n
  if h.sheetExists n && r.owner == 0 && ! r.gaz && ! r.reserved && r.ref == 0 && ! r.zeroed then
    ((List.range 1024).foldl (fun h i => h.store (h.sheetDpa n + 64 * i) (zeros 64) false) h).setSheet n SheetRec.free
  else h

/-- `SHEET_ZEROED` (R261). -/
def execSheetZeroed (n : BitVec 32) (s : State) : Host.Outcome State Fault Refusal :=
  s.next fun h => if h.fabricOn then h.zeroSheet n.toNat else h

end Sys2Proof.Machine
end

