-- ==== Sys2Proof/Machine/Teardown.lean ====
section
/-! DEFINITION. `PARTITION_RESET`, the end of a partition, and self-tests on command (R108, R167, R217, R239, R267, R281, R311,
R333, R351, R352, R377, R404, R490, R505, R558, R564, R565, R603, R606). -/

namespace Sys2Proof.Machine

open Sys2Proof

/-! `PARTITION_RESET`. -/

/-- A tile without what has arrived for a partition's jobs. -/
def Tile.forget (x : Tile) (pid : Nat) : Tile :=
  { x with expIn := x.expIn.filter (fun e => e.2.1 ≠ pid), lvlIn := x.lvlIn.filter (fun e => e.2.1 ≠ pid)
           lvlJobs := x.lvlJobs.filter (fun e => e.1 ≠ pid) }

/-- What the tiles hold of a partition's work goes: slices, what they had reserved, and what has arrived for them. -/
def Hw.endSlices (h : Hw) (pid : Nat) : Hw :=
  let ts := (h.tiles.filter fun e => e.2.slice.any fun s => s.pid == pid).map (·.1)
  let h := ts.foldl (fun h t => (h.endSlice t .abandoned).modTile t fun x => { x with slice := none }) h
  let h := (h.kv.reserved.filter fun r => r.2.1 / 65536 == pid).foldl (fun h r => h.dropReservations r.1) h
  let tiles := (h.tiles.map fun (e : Nat × Tile) => (e.1, e.2.forget pid)).filter fun e => e.2 ≠ Tile.fresh
  { h with tiles := tiles, fab := { h.fab with inq := flitsBut pid h.fab.inq, local_ := flitsBut pid h.fab.local_,
                                               station := flitsBut pid h.fab.station
                                               edgeQ := (h.fab.edgeQ.map fun (e : Nat × List (Nat × Flit)) =>
                                                 (e.1, e.2.filter fun x => hdrPid x.2.header ≠ pid)).filter fun e => ! e.2.isEmpty } }
where
  /-- Queues of flits without those of a PID. -/
  flitsBut (pid : Nat) (m : SMap (List Flit)) : SMap (List Flit) :=
    (m.map fun (e : Nat × List Flit) => (e.1, e.2.filter fun f => hdrPid f.header ≠ pid)).filter fun e => ! e.2.isEmpty

/-- Zeroes the units that claims cover. -/
def Hw.clearUnits (h : Hw) (pid : Nat) (cs : List (Nat × Nat × Nat)) : Hw :=
  cs.foldl (fun h c =>
    match h.physFor pid c.1 with
    | some t => h.zeroUnits t ((2 ^ (c.2.2 + 1 - c.2.1) - 1) * 2 ^ c.2.1)
    | none => h) h

/-- Every image of a partition is REGISTERED, and its claimed SRAM zero (R239, R565). -/
def Hw.clearClaims (h : Hw) (pid : Nat) : Hw :=
  (h.models.filter fun e => e.1 / 64 == pid).foldl (fun h e =>
    (h.toRegistered pid (e.1 % 64)).clearUnits pid e.2.claims) h

/-- A partition's work in every engine ends (R217, R311, R333, R351, R377, R490). -/
def Hw.endWork (h : Hw) (pid : Nat) : Hw :=
  let h := h.grpPartReset pid
  let h := (h.jobs.filter fun j => j.pid == pid).foldl (fun h j => h.endJob j 0x3008 rstPart) h
  let h := ((h.endSlices pid).fusAbort pid 0x3008 rstPart).abortCands (some pid) rstPart
  let h := { h with trv := { h.trv with updates := h.trv.updates.filter fun u => u.pid ≠ pid || u.delivered
                                        orders := h.trv.orders.filter fun o => o.traj.pid ≠ pid }
                    watches := h.watches.filter fun w => w.pid ≠ pid }
  let h := h.dfinPartReset pid
  ((h.ing.streams.map (·.1)).filter fun k => k / 32 == pid).foldl (fun h k => h.closeStream k) h

/-- What a partition has submitted and the module has not taken is dropped (R217, R565). -/
def Hw.dropDoorbells (h : Hw) (pid : Nat) : Hw :=
  (h.dropFetched fun f => f.pid == pid).modPart pid fun p =>
    { p with queues := p.queues.map fun (e : Nat × Queue) => (e.1, { e.2 with sqTail := e.2.sqHead, fetchedSlots := 0 }) }

/-- `PARTITION_RESET` (R217, R505, R564, R565): every command taken and not finished ends `FAIL_ABORTED_RESET`. -/
def Hw.partReset (h : Hw) (pid : Nat) : Hw :=
  let h := (h.endWork pid).clearClaims pid
  let h := { h with sys := { h.sys with kept := h.sys.kept.filter fun x => x.1 ≠ pid } }
  let open_ := h.cmds.filter fun c => c.pid == pid && ! c.complete
  let h := open_.foldl (fun h c => h.finish c 0x3008 0 rstPart) h
  ((h.dropDoorbells pid).apcPartReset pid).event srcFw 0x0908 pid rstPart

/-- A command that names a partition being destroyed (log entry 37). -/
def namesDestroyed (h : Hw) (c : Cmd) : Option (Nat × Option Nat) := if h.destroying (c.f 16 1) then some (0, none) else none

/-- The checks of `PART_RESET` (R587). -/
def specPartReset : OpSpec := { opc := 0xC2, issuer := .owner, fields := namesPart, busy := namesDestroyed }

/-- `PART_RESET` (R603); it is not performed in the stroke of a main-power loss (R527). -/
def execPartReset (q : QRef) (p : Packet) (s : State) : Host.Outcome State Fault Refusal :=
  s.next fun h => if h.sys.lost.isSome then h else h.issue specPartReset q p fun h c => ((h.partReset (c.f 16 1)).reinstallPinned).done c 0

/-! `PART_DESTROY`. -/

/-- The checks of `PART_DESTROY` (R587). -/
def specPartDestroy : OpSpec := { opc := 0xC1, issuer := .owner, fields := namesPart, busy := namesDestroyed }

/-- `PART_DESTROY` (R167, R603): the effects of `PART_RESET`, and fetching stops; `destroyStep` ends it. -/
def execPartDestroy (q : QRef) (p : Packet) (s : State) : Host.Outcome State Fault Refusal :=
  s.next fun h => h.issue specPartDestroy q p fun h c =>
    (h.partReset (c.f 16 1)).modPart (c.f 16 1) fun p => { p with destroying := true }

/-- Whether nothing that carries a PID is left in the module: its commands are posted, and no request of it waits (R167). -/
def Hw.drained (h : Hw) (pid : Nat) : Bool :=
  h.cmds.all (fun c => c.pid ≠ pid || c.posted) && h.fetched.all (fun f => f.pid ≠ pid) &&
  h.fab.stationQ.all (fun e => e.2.all fun r => r.pid ≠ pid) && h.sys.arbs.all (fun e => e.2.granted.all fun r => r.pid ≠ pid) &&
  (h.fab.inq ++ h.fab.local_ ++ h.fab.station).all (fun e => e.2.all fun f => hdrPid f.header ≠ pid) &&
  h.fab.edgeQ.all (fun e => e.2.all fun x => hdrPid x.2.header ≠ pid) &&
  (h.fab.retryMarks ++ h.fab.heldBack).all (fun r => r.pid ≠ pid) &&
  h.sys.tlps.all (fun w => w.pid ≠ pid) && h.sys.apc.waiting.all fun r => r.pid ≠ pid

/-- `SEQ_FREE` of a partition's sequence by the module (R267): that of a command which is in no queue. -/
def Hw.freeSeq (h : Hw) (pid hd : Nat) : Hw :=
  let c : Cmd :=
    { pid := pid, queue := 16, num := 0, seq := 0, slot := 0, port := 0, pkt := putField (zeros 64) 16 2 hd, acceptAt := 0
      begun := true, finishAt := 0, entry := none, posted := false, recs := [] }
  let h := seqFree h c
  match h.seqOf pid hd with
  | some s => h.dropSeq pid hd s
  | none => h

/-- The gazetteer after its publisher's end (R281): the nodes are retired, and they and their sheets belong to nobody. -/
def Hw.retireNodes (h : Hw) (pid : Nat) : Hw :=
  let es := (h.kv.gaz.entries.filter fun e => e.1 / 1024 == pid).map (·.1 % 1024)
  let mine := (h.kv.gaz.nodes.filter fun e => e.2.pub == pid).map (·.1)
  let h := mine.foldl (fun h n =>
    match h.node n with
    | some g => (h.nodeSheets g).foldl (fun h m => h.setSheet m { h.sheet m with owner := 0 }) h
    | none => h) h
  let h := es.foldl (fun h e => (h.retireEntry pid e).2) h
  let h := mine.foldl (fun h n => h.modNode n fun g => { g with state := 2, pub := 0 }) h
  mine.foldl (fun h n => h.freeNode n 4096) h

/-- What a partition holds is free (R167, R192, R232, R267, R352, R505, R603, R616, R623). -/
def Hw.freePart (h : Hw) (pid : Nat) : Hw :=
  let seqs := (h.kv.seqs.filter fun e => e.1 / 65536 == pid).map (·.1 % 65536)
  let h := (seqs.foldl (fun h hd => h.freeSeq pid hd) h).retireNodes pid
  let h := ((h.unmapRange pid 0 (2 ^ 48)).2.fusRelease pid).apcDestroy pid
  let h := ((h.models.filter fun e => e.1 / 64 == pid).map (·.1 % 64)).foldl (fun h hd => h.unregister pid hd) h
  let h := ((upto 4 1020).filter fun b => h.sobOwner b == pid).foldl (fun h b =>
    (h.setSobOwner b 0).put F.SOB_STATUS_FREE_BLOCKS (h.get F.SOB_STATUS_FREE_BLOCKS + 1)) h
  let h := [0, 1].foldl (fun h p => (List.range 64).foldl (fun h i =>
    if h.on ((F.PCIE_BIND_VALID.port p).nth i) && h.get ((F.PCIE_BIND_PID.port p).nth i) == pid then
      ((h.put ((F.PCIE_BIND_VALID.port p).nth i) 0).put ((F.PCIE_BIND_PID.port p).nth i) 0).put ((F.PCIE_BIND_RID.port p).nth i) 0
    else h) h) h
  let recs := h.jnlUsed pid
  let quota := ((h.part pid).map (·.jnlQuota)).getD 0
  let h := h.put F.JNL_FREE_RECORDS (min 4194304 (h.get F.JNL_FREE_RECORDS + recs))
  let h := (h.put F.JNL_FREE_QUOTA (h.get F.JNL_FREE_QUOTA + quota)).setRoute pid 0
  { h with parts := h.parts.del pid, cmds := h.cmds.filter fun c => c.pid ≠ pid }

/-- The `PART_DESTROY` of a partition that is under way. -/
def Hw.destroyCmd (h : Hw) (pid : Nat) : Option Cmd :=
  h.cmds.find? fun c => c.pid == 0 && c.opc == 0xC1 && c.begun && ! c.complete && c.f 16 1 == pid

/-- `PART_DESTROY` completes when nothing of the partition is left under way (R167). -/
def Hw.destroyStep (h : Hw) : Hw :=
  ((h.parts.filter fun e => e.2.destroying).map (·.1)).foldl (fun h pid =>
    if h.drained pid then
      let cmd := h.destroyCmd pid
      let h := h.freePart pid
      match cmd with
      | some c => h.done c 0
      | none => h
    else h) h

/-! `SELFTEST_RUN` (R606). -/

/-- The tiles that a target names and that are in service with their supply. -/
def Hw.testTiles (h : Hw) (target index : Nat) : List Nat :=
  let ts := if target = 0 then [index] else if target = 1 then upto (288 * index) 288 else if target = 3 then List.range 1152 else []
  ts.filter fun t => ! h.fab.retired.contains t && h.domainOn (tileDomain t)

/-- The sections of tiles that answer a result. -/
def Hw.countSections (h : Hw) (ts : List Nat) (r : Nat) : Nat :=
  sumNat (ts.map fun t => countNat 16 fun i => (h.tile t).answers i == r)

/-- The effect of `SELFTEST_RUN`: all sections of the tiles, and for targets 2 and 3 a rotation of the checkers, of which
`bad` fail. -/
def selftestRun (bad : List (Fin 9)) (h : Hw) (c : Cmd) : Hw :=
  let target := c.f 16 1
  let ts := h.testTiles target (c.f 18 2)
  let fails := countNat 9 fun r => bad.any fun b => b.val == r
  let rot := decide (2 ≤ target)
  let pass := h.countSections ts 0 + (if rot then 9 - fails else 0)
  let fail := h.countSections ts 2 + (if rot then fails else 0)
  let result := min 65535 pass + min 65535 (h.countSections ts 1) * 2 ^ 16 + min 65535 fail * 2 ^ 32
  let h := ts.foldl (fun h t =>
    let f := (h.tile t).fails
    let h := h.runAllSections t
    if f then h.retireTile t 0 none else h) h
  let h := if rot then (List.range 9).foldl (fun h r => [0, 1].foldl (fun h d =>
      h.checkerTest d r none (! bad.any fun b => b.val == r)) h) h else h
  h.done c result

/-- The checks of `SELFTEST_RUN` (R606). -/
def specSelftestRun : OpSpec :=
  { opc := 0xE1, issuer := .owner, modes := .bench
    fields := fun _ c => decide (c.f 16 1 < 4) && (c.f 16 1 ≠ 0 || decide (c.f 18 2 < 1152)) &&
      (c.f 16 1 ≠ 1 || decide (c.f 18 2 < 4)) }

/-- `SELFTEST_RUN` (R606), with the checkers that fail their tests (R404). -/
def execSelftestRun (q : QRef) (p : Packet) (bad : List (Fin 9)) (s : State) : Host.Outcome State Fault Refusal :=
  s.next fun h => h.issue specSelftestRun q p (selftestRun bad)

end Sys2Proof.Machine
end

