-- ==== Sys2Proof/Machine/OpTable.lean ====
section
/-! DEFINITION. The opcodes of the command reference (R587) with the checks of R204 that each has. -/

namespace Sys2Proof.Machine

open Sys2Proof

/-- Opcodes 0x00 to 0x2F: housekeeping, memory and sync objects. -/
def opsBasic : List OpSpec :=
  [specNop, specFence, specEcho, specQuery, specMemFill, specMemCopy, specMemQuery, specSobSet,
   specSobAdd, specSobWait, specSobRead]

/-- Opcodes 0x30 to 0x4F: models and jobs. -/
def opsModel : List OpSpec :=
  [specModelLoad, specModelPin, specModelUnpin, specModelEvict, specModelQuery, specJobSubmit,
   specJobCancel, specJobQuery]

/-- Opcodes 0x50 to 0x5F: sequences and the gazetteer. -/
def opsSeq : List OpSpec :=
  [specSeqCreate, specSeqFork, specSeqTruncate, specSeqFree, specSeqQuery, specGazPublish,
   specGazLookup, specGazRetire]

/-- Opcodes 0x60 to 0x8F: streams, fusion and Traverse. -/
def opsUnit : List OpSpec :=
  [specStreamOpen, specStreamClose, specStreamQuery, specTriggerSet, specFusConfig, specFusBatch,
   specFusRead, specFusDropTrack, specTrvSurveyUpdate, specTrvCheck, specTrvCommit, specTrvDustSheet,
   specTrvEnvelope]

/-- Opcodes 0xC0 to 0xEF: the owner. -/
def opsOwner : List OpSpec :=
  [specPartCreate, specPartDestroy, specPartReset, specMap, specUnmap, specStencilLoad, specStencilSwap,
   specBudgetSet, specGrant, specSobAlloc, specHealthRead, specTileRetire, specTileReinstate,
   specChannelRetire, specModeSet, specSafePolicy, specGroupConfig, specEventConfig, specFreezeArm,
   specSelftestRun, specDebugUnlock, specTraceConfig]

/-- The checks of an opcode; an opcode that is not listed is permitted to nobody (R204 order 1). -/
def specOf (opc : Nat) : OpSpec :=
  match (opsBasic ++ opsModel ++ opsSeq ++ opsUnit ++ opsOwner).find? fun sp => sp.opc == opc with
  | some sp => sp
  | none => { opc := opc, allow := fun _ _ => false }

end Sys2Proof.Machine
end

