-- ==== Sys2Proof/Machine/QueueSteps.lean ====
section
/-! DEFINITION. Acceptance of fetched commands (R203 to R205). -/

namespace Sys2Proof.Machine

open Sys2Proof

/-- The packet that a fetch leaves which could not be read whole.  Of a stained chunk 0 only `TAG` is taken, with one
slot; a `DONE_SOB` that the issuer does not hold is not added to (R181, R203, log entry 38). -/
def spoiltPacket (h : Hw) (q : QRef) (qu : Queue) (f : Fetched) : Packet :=
  let p := if f.extStained then patch f.pkt 1 [0, 0] else f.pkt
  let c := mkCmd h q qu p 0
  if c.sobOnDone && ! h.holdsSob f.pid (c.f 8 2) then patch p 1 [p.getD 1 0 &&& 0xFB] else p

/-- A fetched command that could not be read whole is accepted and completes at once (R178, R203). -/
def Hw.acceptSpoilt (h : Hw) (q : QRef) (qu : Queue) (f : Fetched) (status detail : Nat) : Hw :=
  let h := h.unfetch f
  let c := mkCmd h q qu (spoiltPacket h q qu f) (((h.part f.pid).map (·.nextSeq)).getD 1)
  let h := h.take c (slotsOf c.pkt)
  (h.begin c).finish c status 0 detail

/-- The oldest fetched command of a queue is accepted or refused (R204, R205). -/
def Hw.acceptFetched (h : Hw) (pid : Fin 256) (queue : Fin 16) (rival : Option Rival) : Hw :=
  match h.oldestFetched pid.val queue.val, h.queue pid.val queue.val with
  | some f, some qu =>
    let q : QRef := { pid := pid, queue := queue, cp := ⟨f.cp % 4, Nat.mod_lt _ (by decide)⟩, rival := rival }
    if ! h.presents q || h.isHeld q then h
    else match f.fault with
    | some (st, d) => h.acceptSpoilt q qu f st d
    | none =>
      if f.stained then h.acceptSpoilt q qu f 0x3001 0xFFFF_FFFF
      else if field f.pkt 0 1 = 0x40 ∧ h.groupSubmit q qu f.pkt then h.holdSubmit q f.pkt
      else ((h.unfetch f).judge (specOf (field f.pkt 0 1)) q qu f.pkt).2
  | _, _ => h

/-- `COMMAND_ACCEPT` (R205). The effect of the command begins with the row of its opcode (log entry 8). -/
def execCommandAccept (pid : Fin 256) (queue : Fin 16) (rival : Option Rival) (s : State) : Host.Outcome State Fault Refusal :=
  s.next fun h => h.acceptFetched pid queue rival

end Sys2Proof.Machine
end

