-- ==== Sys2Proof/Machine/Strokes.lean ====
section
/-! DEFINITION. The stroke pulse and the coat boundary (R40 to R46, R56, R60 to R62, R236, R242, R247, R376, R467, R468, R562,
R572). -/

namespace Sys2Proof.Machine

open Sys2Proof

/-! What the stroke that ends leaves. -/

/-- The work of the stroke that ends is settled: job strokes without slices, completions, then cancellations, failures and
the pauses of a mismatch (R242, R247, R389). -/
def Hw.settleStroke (h : Hw) : Hw :=
  let h := (h.tiles.map (·.1)).foldl (fun h t => h.creditIdle t) h
  let js := h.jobs
  let h := js.foldl (fun h j => h.settleDone j.pid j.queue j.num) h
  let h := h.jobs.foldl (fun h j => h.settleJob j) h
  h.jobs.foldl (fun h j => h.duplexPause j) h

/-- Moves what is left of a run of an image in lines, as far as the partition's buckets hold tokens (R60, R236): the bytes
moved.  A line whose address does not translate takes none: it ends the installation when that is complete. -/
def Hw.moveLines (h : Hw) (pid va : Nat) : List (Nat × Nat × Nat) → Nat × Hw
  | [] => (0, h)
  | (_, off, n) :: ls =>
    match h.mem.translateRun pid (va + off) n .rd true with
    | .error _ => let (k, h) := h.moveLines pid va ls; (n + k, h)
    | .ok ps =>
      match h.chargeDram pid ps false with
      | none => (0, h.noteExhausted pid 0)
      | some h => let (k, h) := h.moveLines pid va ls; (n + k, h)

/-- Moves what is left of an image's load segments, in order, after `skip` bytes (R236). -/
def Hw.moveLoads (h : Hw) (pid va : Nat) : List LoadSeg → Nat → Nat × Hw
  | [], _ => (0, h)
  | s :: ss, skip =>
    if s.bytes ≤ skip then h.moveLoads pid va ss (skip - s.bytes)
    else
      let (k, h) := h.moveLines pid (va + s.src + skip) (lineParts (va + s.src + skip) (s.bytes - skip))
      if k < s.bytes - skip then (k, h)
      else let (j, h) := h.moveLoads pid va ss 0; (k + j, h)

/-- Whether the installations of a tag's images run in the present stroke (R236): in a window of the activity, with no job of
it running. -/
def Hw.installsRun (h : Hw) (pid frag : Nat) : Bool :=
  match h.stn.active.actOf pid frag with
  | some a => (h.stn.active.winsOn h.coatPos).any (fun w => w.act == a) && (h.runningJob pid a).isNone
  | none => false

/-- The bytes that installations have moved in the stroke that ends, in handle order, out of what its work has left in the
partitions' buckets (R60, R236); `h0` is the stroke before its jobs were settled. -/
def Hw.creditInstalls (h h0 : Hw) : Hw :=
  h.models.foldl (fun h e =>
    if e.2.state == 1 && h0.installsRun (e.1 / 64) e.2.fragTag then
      let m := e.2
      let (n, h) := h.moveLoads (e.1 / 64) m.va ((m.ways.getD m.way []).flatMap (·.loads)) m.installed
      h.modModel (e.1 / 64) (e.1 % 64) fun m => { m with installed := m.installed + n }
    else h) h

/-! Coats that deliver (R467). -/

/-- Whether the present stroke belongs to an excluded interval (R467). -/
def Hw.excludedNow (h : Hw) : Bool :=
  h.mode ≠ 3 || ! h.on F.PWR_STATUS_J1_OK || ! h.on F.PWR_STATUS_J2_OK || h.sys.gov.outletAt.isSome ||
  (List.range 24).any (fun q => decide (2 ≤ h.get (F.CAM_STATUS_PWR_STATE.blk q))) || ! h.ing.pairs.isEmpty ||
  ! h.sys.can.isEmpty || h.ing.streams.any (fun e => e.2.faulted || e.2.cur.any (·.late)) ||
  h.sys.grp.members.any fun e => e.2.lost

/-- Deadlines that have passed in the stroke that has ended with their job unfinished (R467). -/
def Hw.noteDeadlines (h : Hw) : Hw :=
  let h := (h.jobs.filter fun j => j.dl.any fun d => d + 1 == h.now).foldl (fun h j => h.noteMissed j 0x3004) h
  if h.excludedNow then { h with sys := { h.sys with coatExcluded := true } } else h

/-- The coat that ends is counted (R467, R468). -/
def Hw.countCoat (h : Hw) : Hw :=
  let short := h.sys.missed.any fun d => decide (d < h.now)
  let old := h.coatLog.filter fun e => decide (h.now < e.1 + 86400000000)
  let out := h.sys.coatExcluded
  let h := { h with coatLog := if out then old else old ++ [(h.now, short)]
                    sys := { h.sys with missed := h.sys.missed.filter (fun d => decide (h.now ≤ d)), coatExcluded := h.excludedNow } }
  let n := (h.coatLog.filter fun e => e.2).length
  if ! out && Nat.blt h.coatLog.length (10000 * n) then h.event srcFw 0x0909 0 n else h

/-! The stroke pulse. -/

/-- Whether stroke pulses come (R34, R38, R517, R572, R573): not in OFF or FROZEN, nor from the freeze point on, without the
reference, or after a loss sequence has ended. -/
def Hw.pulses (h : Hw) : Bool :=
  h.mode ≠ 0 && ! h.on F.DBG_STATUS_FROZEN && ! h.sys.refLost && ! h.atFreezePoint && ! (h.sys.lost.isSome && decide (3 ≤ h.sys.lossStage))

/-- Each Datum that has its supply advances its own copy of module time by its own oscillator (R30, R379). -/
def Hw.tickDatums (h : Hw) : Hw :=
  let next (x : Datum) : Datum := if x.down then x else { x with time := (x.time + 1) % 2 ^ 64 }
  { h with datA := next h.datA, datB := next h.datB }

/-- What a stroke begins with (R30, R40, R616, R617). -/
def Hw.tick (h : Hw) : Hw :=
  let h := (h.addWrap F.TIME_COUNT_STROKE_COUNT 1).tickDatums
  { h with vec := { h.vec with raised := [], oldRoutes := [] } }

/-- Whether the Datums run on without stroke pulses (R34, R517): the hub has lost its supply or the reference, and neither OFF
nor a freeze stops the Datums' own clocks. -/
def Hw.datumsAlone (h : Hw) : Bool :=
  ! h.pulses && h.mode ≠ 0 && ! h.on F.DBG_STATUS_FROZEN && ! h.atFreezePoint

/-- The stroke's own state of tiles and sequences begins anew (R85, R86, R154, R264). -/
def Hw.freshStroke (h : Hw) : Hw :=
  { h with tiles := (h.tiles.map fun (e : Nat × Tile) => (e.1, { e.2 with arrived := [], expIn := [] })).filter (fun e => e.2 ≠ Tile.fresh)
           fab := { h.fab with barriers := [] }
           kv := { h.kv with seqs := h.kv.seqs.map fun (e : Nat × SeqRec) => (e.1, { e.2 with lenAtStart := e.2.len }) } }

/-- Budgets refill (R60); the owner queue has 8 command-processor operations each stroke (R202). -/
def Hw.refill (h : Hw) : Hw :=
  let h := h.refillStroke
  { h with stn := { h.stn with cpOps := SMap.putD 0 h.stn.cpOps 0 8 } }

/-- The lidar ports that run as gPTP masters distribute module time, every 125 ms (R315, log entry 54). -/
def Hw.lidarTime (h : Hw) : Hw :=
  if h.now % 125000 ≠ 0 then h
  else
    let ps := (List.range 8).filter fun q => h.on (F.LID_CTRL_GPTP_EN.blk q) && h.get (F.LID_STATUS_LINK.blk q) == 2
    { h with outs := h.outs ++ ps.map fun q => .gptp q h.now }

/-- What the module does at the start of a stroke while its fabric runs. -/
def Hw.openStroke (h : Hw) : Hw :=
  let h := (h.freshStroke.refill).switchSource
  let bank := h.dueSwap.getD h.stn.active
  let h := h.jobs.foldl (fun h j => h.missStep bank h.now j) h
  let h := h.jobs.foldl (fun h j => if (h.runModel j).any (·.duplex) then h.compareCopies j.pid j.seq 3 else h) h
  let h := h.modelPids.foldl (fun h p => h.reinstall p) h
  let h := ((h.watchTimeouts.groupStroke).apcStroke).retryTlps
  let h := h.resendMem fun r => decide (1024 ≤ r.src)
  let h := ((h.drainIngest.flushTrace).clampHairlines).refreshBoost
  ((h.lidarTime.settleUnmaps).destroyStep.noteDeadlines).put F.MOD_START_DRIVE_BLOCK h.driveBlock

/-- From S+3 of a loss of AUX12 on the hub refuses what it would deliver to the Datums (R400). -/
def Hw.refuseLate (h : Hw) : Hw :=
  match h.trv.hubReason with
  | some (6, t) => if t + 3 ≤ h.now then { h with trv := { h.trv with refuses := true } } else h
  | _ => h

/-- A stroke pulse (R40, R42): the old stroke is settled, the count advances, and the new one begins. -/
def Hw.strokePulse (h : Hw) : Hw :=
  let h := if h.fabricOn then h.settleStroke.dfinStroke.creditInstalls h else h
  let h := h.tick
  let h := if h.fabricOn then h.openStroke else h
  (h.freezeMemory.refuseLate).ownerSummary

/-- `STROKE_PULSE` (R40): a stroke passes.  Where no pulse comes, the Datums' own copies of module time still advance (R30,
R34). -/
def execStrokePulse (s : State) : Host.Outcome State Fault Refusal :=
  s.next fun h => if h.pulses then h.strokePulse else if h.datumsAlone then h.tickDatums else h

/-! The coat boundary (R46). -/

/-- A bridge ends at the first coat boundary of its stencil (R56). -/
def Hw.endBridge (h : Hw) : Hw := if h.coatPos = 0 then h.setBridge else h

/-- The candidates of partitions whose share has become 0 are revoked (R370). -/
def Hw.revokeShareless (h : Hw) : Hw :=
  ((h.candQueue.map (·.pid)).filter fun p => h.trvShare p == 0).foldl (fun h p => h.revokeCands p) h

/-- The actions of R46 in their order, each once at a boundary; a due step of module time comes first (R620). -/
def Hw.coatBoundary (h : Hw) : Hw :=
  let h := (h.countCoat).timeStep
  let h := (((h.swapStep.budgetStep).adjustStep).admitStep).endBridge.fillVacancies
  let h := ((h.reloadCoat).addWrap F.STN_COAT_COUNT_COATS 1).showStencil
  let h := h.trvCoat.revokeShareless
  { h with stn := { h.stn with coatDone := some h.now } }

/-- `COAT_BOUNDARY` (R46). -/
def execCoatBoundary (s : State) : Host.Outcome State Fault Refusal :=
  s.next fun h => if h.sequencing && h.boundaryDue then h.coatBoundary else h

end Sys2Proof.Machine
end

