-- ==== Sys2Proof/Machine/MacOps.lean ====
section
/-! DEFINITION. What the MAC and vector TODs share: forming outputs in the output cells or in the tile's
accumulators (R624), convolution geometry (R286, R287), and sparse operands (R115). -/

namespace Sys2Proof.Machine

open Sys2Proof

/-- A MAC output cell. -/
def Tile.cell (x : Tile) (i : Nat) : Acc := x.cells.getD Acc.zero i

/-- A free accumulator: what an unpredictable starting cell holds (R9). -/
def freeAcc : T Acc := do
  let (a, h) := (← get).free
  let (b, h) := h.free
  set h
  pure ⟨a.toNat + 2 ^ 64 * (b.toNat % 2 ^ 32), b.toNat / 2 ^ 32 % 4⟩

/-- Prepares the output cells (R624): `ACC_KEEP` 0 clears them, `ACC_KEEP` 1 goes on from those of a
previous operation of the same shape and level, and from unpredictable ones after another. -/
def prepareCells (t rows cols : Nat) (lam : Int) (keep : Bool) : T Unit := do
  let s ← sliceT t
  if ! keep then modify fun h => h.modTile t fun x => { x with cells := [] }
  else if s.lastMac.isSome && s.lastMac ≠ some (rows, cols, lam) then
    (List.range (rows * cols)).forM fun i => do
      let a ← freeAcc
      modify fun h => h.modTile t fun x => { x with cells := x.cells.putD Acc.zero i a }
  else pure ()

/-- Adds terms into the output cells (R118). -/
def addCells (t : Nat) (lam : Int) (terms : List (List Val)) : T Unit :=
  (List.range terms.length).forM fun i => do
    let (b, inx) := (((← get).tile t).cell i).addTerms lam (terms.getD i [])
    modify fun h => h.modTile t fun x => { x with cells := x.cells.putD Acc.zero i b }
    flagsT t inx false

/-- Notes the shape and level of the slice's last MAC operation. -/
def noteMac (t : Nat) (m : Nat × Nat × Int) : T Unit :=
  modify fun h => h.modSlice t fun s => { s with lastMac := some m }

/-- A MAC operation's outputs (R624): `terms` lists the terms of each output, row by row of `cols`; with a
kind-3 D they go into the tile's accumulators, with a kind-1 D through the cells to `FMT_OUT`. `ACC_KEEP` 0 with a kind-3 D
clears the accumulators of the outputs, also where D names more (DESIGN CHOICE, log entry 50). -/
def macOut (t : Nat) (hd : Header) (o : Opnd) (rows cols : Nat) (terms : List (List Val)) : T Unit := do
  let lam ← levelT t hd
  if o.kind = 3 then
    need (decide (rows * cols + o.acc ≤ 1024)) (descErr o.ix)
    if hd.keep then pure () else clearAccs t o.acc (rows * cols)
    addAccs t o.acc lam terms
    noteMac t (0, 0, lam)
  else
    if hd.hold then pure () else o.packs hd.fmtOut
    prepareCells t rows cols lam hd.keep
    addCells t lam terms
    noteMac t (rows, cols, lam)
    if hd.hold then pure ()
    else
      let x := (← get).tile t
      o.putVals t hd ((List.range (rows * cols)).map fun i => (x.cell i).val lam)

/-- The products of two rows. -/
def dotTerms (a b : List Val) : List Val := List.zipWith Val.mul a b

/-- The rows of a kind-1 operand as lists of values. -/
def Opnd.valRows (o : Opnd) (t c : Nat) : T (List (List Val)) := do
  pure (rowsOf (o.d1 * o.d2) o.d0 (← o.vals t c))

/-- The checks of a product's shape (R85, R114): at most 32 rows, at most N columns, and K a multiple of
32 with an MX operand. -/
def checkMatmul (hd : Header) (m n k : Nat) : T Unit := do
  macFmts hd
  need (decide (m ≤ 32)) (descErr 0)
  need (decide (n ≤ macN hd.fmtA hd.fmtB)) (descErr 1)
  need (! (isMx hd.fmtA || isMx hd.fmtB) || k % 32 == 0) (descErr 0)

/-- A kind-1 D has the shape of the outputs (log entry 19). -/
def checkOut (o : Opnd) (cols rows : Nat) : T Unit :=
  need (o.kind ≠ 1 || (o.d0 == cols && o.d1 * o.d2 == rows)) (descErr o.ix)

/-- Expands a row of B under its 2:4 metadata (R115): `pos` gives the two positions of each group.  The
answer is `none` when a first position is not below its second. -/
def expandRow (stored : List Val) (pos : List (Nat × Nat)) : Option (List Val) :=
  ((List.range pos.length).mapM fun g =>
    let (p, q) := pos.getD g (0, 1)
    if p < q then
      some ((List.range 4).map fun i =>
        if i = p then stored.getD (2 * g) Val.zero
        else if i = q then stored.getD (2 * g + 1) Val.zero
        else Val.zero)
    else none).map List.flatten

/-- The position nibbles of row `n` with `g` groups (R115). -/
def metaRow (bs : List Byte) (n g : Nat) : List (Nat × Nat) :=
  (List.range g).map fun i =>
    let j := n * g + i
    let b := (bs.getD (j / 2) 0).toNat
    let nib := if j % 2 = 0 then b % 16 else b / 16
    (nib % 4, nib / 4)

/-- The geometry of a convolution (R85, R286): filter size, stride, padding and dilation. -/
structure Conv where
  kh : Nat
  kw : Nat
  sy : Nat
  sx : Nat
  py : Nat
  px : Nat
  dy : Nat
  dx : Nat
  deriving DecidableEq, Repr

/-- The geometry in `PARAM` (R85). -/
def convOf (p : Nat) : Conv :=
  { kh := bits p 0 4, kw := bits p 4 4, sy := bits p 8 2 + 1, sx := bits p 10 2 + 1, py := bits p 12 4,
    px := bits p 16 4, dy := bits p 20 2 + 1, dx := bits p 22 2 + 1 }

/-- The taps of an output position that lie inside the input: input position and tap index (R287). -/
def Conv.taps (c : Conv) (hh ww oy ox : Nat) : List (Nat × Nat) :=
  (List.range c.kh).flatMap fun ky => (List.range c.kw).filterMap fun kx =>
    let iy := oy * c.sy + ky * c.dy
    let ix := ox * c.sx + kx * c.dx
    if c.py ≤ iy ∧ iy - c.py < hh ∧ c.px ≤ ix ∧ ix - c.px < ww then
      some ((iy - c.py) * ww + (ix - c.px), ky * c.kw + kx)
    else none

/-- The terms of every output of a convolution with `g` groups, N fastest, then OW, then OH (R287,
R289): `a` lists the input positions' channels, `b` the filters' taps. -/
def convTerms (c : Conv) (hh ww ch n g ow oh : Nat) (a b : List (List Val)) : List (List Val) :=
  let per := ch / g
  (List.range oh).flatMap fun oy => (List.range ow).flatMap fun ox =>
    let taps := c.taps hh ww oy ox
    (List.range n).map fun k =>
      let gi := k * g / n
      taps.flatMap fun e =>
        dotTerms (((a.getD e.1 []).drop (gi * per)).take per) (b.getD (k * (c.kh * c.kw) + e.2) [])

/-- The filter sizes of `CONV2D` and `DWCONV` are 1 to 8 (R85). -/
def checkFilter (c : Conv) : T Unit :=
  need (decide (1 ≤ c.kh) && decide (c.kh ≤ 8) && decide (1 ≤ c.kw) && decide (c.kw ≤ 8)) (descErr 1)

end Sys2Proof.Machine
end

