-- ==== Sys2Proof/Machine/TodSeq.lean ====
section
/-! DEFINITION. The TODs of the sequencer, the barrier and the lookup tables (R85): `NOP`, `SETS`,
`COMMIT`, `BARRIER`, `SOB_OP`, `VPROG`, `LUT_LOAD` and `SELFTEST`. -/

namespace Sys2Proof.Machine

open Sys2Proof

/-- Checks the three operands of a TOD against the kinds that its entry admits. -/
def admit3 (d : List Byte) (a b c : List Nat) : T Unit := do
  (opnd d 0).demand a
  (opnd d 1).demand b
  (opnd d 2).demand c

/-- Sets a scalar register; a write to s0 is discarded (R93). -/
def setS (t i v : Nat) (st : Bool) : T Unit :=
  if i = 0 then pure ()
  else modify fun h => h.modSeq t fun q => { q with s := q.s.set i (v % 2 ^ 32), sStain := q.sStain.set i st }

/-- `NOP` (R85). -/
def todNop (_ : Header) (d : List Byte) : T Unit := admit3 d [0] [0] [0]

/-- `TOD_NOP`: the tile's next TOD is a `NOP`. -/
def execTodNop (t : Fin 1152) (s : State) : Host.Outcome State Fault Refusal :=
  s.next fun h => h.issueTod t.val 0x00 todNop

/-- `SETS` (R85): sets, or with `ADD` adds to, a sequencer register. -/
def todSets (t : Nat) (hd : Header) (d : List Byte) : T Unit := do
  admit3 d [0] [0] [0]
  let reg := bits hd.param 0 5
  let add := bit hd.param 5
  let v := bits hd.param 32 32
  need (decide (reg ≤ 23)) (illegal reg)
  let q := ((← get).tile t).seq
  let upd (w old : Nat) : Nat := if add then (old + v) % 2 ^ w else v % 2 ^ w
  if reg < 16 then setS t reg (upd 32 (q.scalar reg).1) (add && (q.scalar reg).2)
  else if reg < 20 then
    modify fun h => h.modSeq t fun q => { q with lc := q.lc.set (reg - 16) (upd 16 (q.lc.getD (reg - 16) 0)) }
  else if reg = 20 then modify fun h => h.modSeq t fun q => { q with exb := upd 19 q.exb }
  else if reg = 21 then modify fun h => h.modSeq t fun q => { q with vsp := upd 19 q.vsp }
  else if reg = 22 then do
    let s ← sliceT t
    modify fun h => h.modTile t fun x =>
      { x with seq := { x.seq with lvl := upd 8 x.seq.lvl }, lvlKept := x.lvlKept.put (s.pid * 1024 + s.act) (upd 8 x.seq.lvl) }
  else modify fun h => h.modSeq t fun q => { q with acb := upd 10 q.acb }

/-- `SETS`. -/
def execSets (t : Fin 1152) (s : State) : Host.Outcome State Fault Refusal :=
  s.next fun h => h.issueTod t.val 0x01 (todSets t.val)

/-- The granules that a kind-1 operand's rows touch, each once, in row order (R385). -/
def opndGranules (t : Nat) (c : Nat) (o : Opnd) : T (List Nat) := do
  o.packs c
  let a ← o.addr t
  pure ((o.rowOffs.flatMap fun r => granules (a + r) (rowLen c o.d0)).foldl
    (fun l g => if l.contains g then l else l ++ [g]) [])

/-- The bytes of the granules of operand A of a `COMMIT`, as a use (R385). -/
def sigBytes (t : Nat) (hd : Header) (o : Opnd) : T (List Byte) := do
  let gs ← opndGranules t hd.fmtA o
  let bs ← gs.mapM fun g => useT t (g * 32) 32
  pure bs.flatten

/-- The bytes of a kind-1 operand, row after row, as a use. -/
def rowBytes (t c : Nat) (o : Opnd) : T (List Byte) := do
  o.packs c
  let a ← o.addr t
  let rows ← o.rowOffs.mapM fun r => useT t (a + r) (rowLen c o.d0)
  pure rows.flatten

/-- `COMMIT` (R85, R155, R385): with `SIG` in a `DUPLEX` job it adds A to the stroke signature; with
`FINAL` it performs the slice's final `COMMIT`, waiting while the buckets lack the bytes of its stores
(R60). -/
def todCommit (t : Nat) (hd : Header) (d : List Byte) : T Unit := do
  admit3 d [0, 1] [0] [0]
  let s ← sliceT t
  let o := opnd d 0
  if bit hd.param 1 && s.dup && o.kind == 1 then
    let s12 := (((← get).tile t).seq.scalar 12).1
    let bs ← sigBytes t hd o
    modify fun h => h.modSlice t fun s => { s with sig := (s.sig + sigGranules s12 bs) % 2 ^ 64 }
  else pure ()
  if bit hd.param 0 then
    let h ← get
    if s.dup then
      useClean (s.failed.isNone && s.staged.any (·.stain))
      match (h.tile t).slice with
      | some s => set (h.finalCommit t s)
      | none => pure ()
    else
      match h.chargeCommit t s with
      | .error h => do
        set h
        throw .waitDram
      | .ok h => set (h.finalCommit t s)
  else pure ()

/-- `COMMIT`. -/
def execCommit (t : Fin 1152) (s : State) : Host.Outcome State Fault Refusal :=
  s.next fun h => h.issueTod t.val 0x02 (todCommit t.val)

/-- `BARRIER` (R85): waits until `COUNT` tiles of the activity have reached barrier `ID` of the root in
this stroke; a `COUNT` outside 2 to 1,024 is taken as it stands (DESIGN CHOICE, log entry 50). -/
def todBarrier (t : Nat) (hd : Header) (d : List Byte) : T Unit := do
  admit3 d [4] [0] [0]
  let s ← sliceT t
  let o := opnd d 0
  let _ ← o.baseVal t
  let key := (s.pid, s.act, o.tile, bits hd.param 0 4)
  let mine := (key.1, key.2.1, key.2.2.1, key.2.2.2, t)
  modify fun h =>
    if h.fab.barriers.contains mine then h
    else { h with fab := { h.fab with barriers := h.fab.barriers ++ [mine] } }
  let h ← get
  let n := h.fab.barriers.countP fun b => b.1 == key.1 && b.2.1 == key.2.1 && b.2.2.1 == key.2.2.1 && b.2.2.2.1 == key.2.2.2
  need (decide (bits hd.param 4 11 ≤ n)) .waitNet

/-- `BARRIER`. -/
def execBarrier (t : Fin 1152) (s : State) : Host.Outcome State Fault Refusal :=
  s.next fun h => h.issueTod t.val 0x03 (todBarrier t.val)

/-- The flits of a `SOB_OP` READ at the edges: the request to the hub and its answer (R60, R144). -/
def readPath (l : Nat) : SMap Nat := (hubPath l ++ hubBack l).map fun d => (d, 1)

/-- `SOB_OP` (R85, R88): SET and ADD are held until the final `COMMIT`, READ is performed at once.  A
stained value is consumed (log entry 17); the 32-bit register is extended with zeros (log entry 18), and the value of a
64-bit object that READ finds is cut to its low 32 bits (DESIGN CHOICE, log entry 50). -/
def todSobOp (t : Nat) (hd : Header) (d : List Byte) : T Unit := do
  admit3 d [0] [0] [0]
  let op := bits hd.param 0 2
  let r := bits hd.param 2 4
  let idx := bits hd.param 16 16
  need (op ≠ 3) (illegal op)
  let s ← sliceT t
  if op = 2 then
    match (← get).chargeEdges s.pid (readPath s.pos) with
    | none => do
      modify fun h => h.noteExhausted s.pid 1
      throw .waitDram
    | some h => do
      let (v, h) := h.sobAccess 0 s.pid idx .read
      set h
      setS t r v false
  else
    let (v, st) := ((← get).tile t).seq.scalar r
    useClean st
    modify fun h => h.modSlice t fun s => { s with sobs := s.sobs ++ [{ idx := idx, add := op == 1, value := v }] }

/-- `SOB_OP`. -/
def execSobOp (t : Fin 1152) (s : State) : Host.Outcome State Fault Refusal :=
  s.next fun h => h.issueTod t.val 0x04 (todSobOp t.val)

/-- `VPROG` (R85): the TVI program at `ENTRY` starts, with the TOD's level as `VLEVEL`. -/
def todVprog (t : Nat) (hd : Header) (d : List Byte) : T Unit := do
  admit3 d [0] [0] [0]
  let entry := bits hd.param 0 19
  need (entry % 4 == 0) (.exc 2 entry)
  let lam ← levelT t hd
  modify fun h => h.modSeq t fun q => { q with pc := entry, inProg := true, vlevel := unsx 8 lam }

/-- `VPROG`. -/
def execVprog (t : Fin 1152) (s : State) : Host.Outcome State Fault Refusal :=
  s.next fun h => h.issueTod t.val 0x05 (todVprog t.val)

/-- `LUT_LOAD` (R85, R94): A is the table's 1,040-byte image; a table keeps no stain, so a stained image
is consumed. -/
def todLutLoad (t : Nat) (hd : Header) (d : List Byte) : T Unit := do
  admit3 d [1] [0] [0]
  let o := opnd d 0
  let bs ← rowBytes t hd.fmtA o
  need (bs.length == 1040) (descErr 0)
  let ws := (List.range 260).map fun i => field bs (4 * i) 4
  modify fun h => h.modTile t fun x => { x with luts := x.luts.put (bits hd.param 0 3) ws }

/-- `LUT_LOAD`. -/
def execLutLoad (t : Fin 1152) (s : State) : Host.Outcome State Fault Refusal :=
  s.next fun h => h.issueTod t.val 0x06 (todLutLoad t.val)

/-- `SELFTEST` (R85, R107): runs one section, or all; outside PID 0 it raises `ILLEGAL`, and a FAIL
retires the tile. -/
def todSelftest (t : Nat) (hd : Header) (d : List Byte) : T Unit := do
  admit3 d [0] [0] [0]
  let s ← sliceT t
  need (s.pid == 0) (illegal 7)
  let is := if bit hd.param 4 then List.range 16 else [bits hd.param 0 4]
  modify fun h => is.foldl (fun h i => h.runSection t i) h
  let h ← get
  if is.any fun i => (h.tile t).answers i == 2 then set (h.retireTile t 0 none) else pure ()

/-- `SELFTEST`. -/
def execTodSelftest (t : Fin 1152) (s : State) : Host.Outcome State Fault Refusal :=
  s.next fun h => h.issueTod t.val 0x07 (todSelftest t.val)

end Sys2Proof.Machine
end

