-- ==== Sys2Proof/Machine/TodNet.lean ====
section
/-! DEFINITION. The TODs of the mesh (R85, R124, R152, R154, R294, R298): `SEND`, `RECV`, `HALO_SEND`,
`HALO_RECV`, `LEVEL_SEND` and `LEVEL_RECV`. -/

namespace Sys2Proof.Machine

open Sys2Proof

/-- The bytes of a kind-1 operand, row after row, with their stain, as a move. -/
def moveBytes (t c : Nat) (o : Opnd) : T (List SByte) := do
  o.packs c
  let a ← o.addr t
  let rows ← o.rowOffs.mapM fun r => rdT t (a + r) (rowLen c o.d0)
  pure rows.flatten

/-- Puts a `DATA` or `HALO` message into the mesh and notes it for the slice's `COMMIT` flits (R152,
R155): its flits of 64 bytes carry the stain of their payload (R147). More data than 8,192 flits hold raises `DESC` for A
(log entry 49). -/
def sendMsg (t type addr : Nat) (o : Opnd) (bs : List SByte) : T Unit := do
  let s ← sliceT t
  need (decide (bs.length ≤ 524288)) (descErr 0)
  modify fun h =>
    let m : Msg :=
      { src := s.pos, dst := o.tile, pid := s.pid, cls := h.clsOf s.pid, type := type,
        slot := o.slot, k := s.k, addr := addr, bytes := bs.length, pieces := piecesOf bs }
    (h.post1 m).modSlice t fun s => { s with sent := s.sent ++ [⟨o.tile, o.slot, bs.length⟩] }

/-- The finisher that a notice names (R298). -/
def finisherOf (l : Nat) : Option Nat :=
  if l = 0 then some 0 else if l = 31 then some 1 else if l = 31 * 32 then some 2
  else if l = 31 * 32 + 31 then some 3 else none

/-- The bytes that a slice has staged (R87, R298, R387). -/
def Slice.stagedBytes (s : Slice) : Nat :=
  sumNat (s.staged.map fun x => x.data.length) + 64 * s.notices.length + (if s.dup then 16 * s.sobs.length else 0)

/-- The staging limit (R87, R387). -/
def Slice.stageLimit (s : Slice) : Nat := if s.dup then 16384 else 32768

/-- `SEND` (R85, R298): a message to a remote slot, or with slot 15 a notice to a finisher, which is
staged. -/
def todSend (t : Nat) (hd : Header) (d : List Byte) : T Unit := do
  admit3 d [1] [0] [4]
  let a := opnd d 0
  let o := opnd d 2
  let ad ← o.addr t
  if o.slot = 15 then
    let n := rowLen hd.fmtA a.d0 * a.d1 * a.d2
    match finisherOf o.tile with
    | none => throw (descErr 2)
    | some f =>
      need (n == 64) (descErr 2)
      let s ← sliceT t
      need (decide (s.stagedBytes + 64 ≤ s.stageLimit)) (.exc 4 0)
      let bs ← moveBytes t hd.fmtA a
      modify fun h => h.modSlice t fun s =>
        { s with notices := s.notices ++ [BitVec.ofNat 8 (f + 128 * b2n (bs.any (·.2))) :: bs.map (·.1)] }
  else
    let bs ← moveBytes t hd.fmtA a
    sendMsg t 0 ad o bs

/-- `SEND`. -/
def execSend (t : Fin 1152) (s : State) : Host.Outcome State Fault Refusal :=
  s.next fun h => h.issueTod t.val 0x40 (todSend t.val)

/-- The bytes that have arrived from a source on a slot in this stroke. -/
def Tile.arrivedOn (x : Tile) (src slot : Nat) : Nat :=
  sumNat ((x.arrived.filter fun e => e.1 == src && e.2.1 == slot).map (·.2.2))

/-- `RECV` (R85). -/
def todRecv (t : Nat) (_ : Header) (d : List Byte) : T Unit := do
  admit3 d [4] [0] [0]
  let o := opnd d 0
  let _ ← o.baseVal t
  let x := (← get).tile t
  need (decide (o.bytes ≤ x.arrivedOn o.tile o.slot)) .waitNet

/-- `RECV`. -/
def execRecv (t : Fin 1152) (s : State) : Host.Outcome State Fault Refusal :=
  s.next fun h => h.issueTod t.val 0x41 (todRecv t.val)

/-- The checks of a halo strip (R294). -/
def checkStrip (c bytes : Nat) (o : Opnd) : T Unit := do
  need (! (decide (o.d1 > 8) && decide (o.d2 > 8))) (descErr o.ix)
  need (! isMx c) (descErr o.ix)
  o.packs c
  need (rowLen c o.d0 * o.d1 * o.d2 == bytes) (descErr o.ix)

/-- `HALO_SEND` (R294). -/
def todHaloSend (t : Nat) (hd : Header) (d : List Byte) : T Unit := do
  admit3 d [1] [0] [4]
  let a := opnd d 0
  let o := opnd d 2
  checkStrip hd.fmtA o.bytes a
  let ad ← o.addr t
  let bs ← moveBytes t hd.fmtA a
  sendMsg t 1 ad o bs

/-- `HALO_SEND`. -/
def execHaloSend (t : Fin 1152) (s : State) : Host.Outcome State Fault Refusal :=
  s.next fun h => h.issueTod t.val 0x42 (todHaloSend t.val)

/-- The halo bytes of a partition's job that have arrived from a source on a slot with a K (R294). -/
def Tile.haloOn (x : Tile) (pid src slot k : Nat) : Nat :=
  sumNat ((x.landed.filter fun e => e.halo && e.pid == pid && e.src == src && e.slot == slot && e.k == k).map (·.bytes))

/-- Where a halo message of parity `k` lands (R295). -/
def haloAddr (addr k bytes : Nat) : Nat := addr + k % 2 * (cdiv bytes 32 * 32)

/-- A free byte for each place of a row, with its stain (R9, R295). -/
def freeRow (bs : List SByte) : T (List SByte) := bs.mapM fun b => do pure (BitVec.ofNat 8 (← freeT), b.2)

/-- `HALO_RECV` (R294, R295): waits for the strip whose K is the slice's s15, then copies it into the
margin; on a slot with a held-input area the bytes are free values. With `ZERO` it ignores A and fills the margin with
zeros. -/
def todHaloRecv (t : Nat) (hd : Header) (d : List Byte) : T Unit := do
  let zero := bit hd.param 0
  if zero then pure () else (opnd d 0).demand [4]
  (opnd d 1).demand [0]
  (opnd d 2).demand [1]
  let a := opnd d 0
  let o := opnd d 2
  let od ← o.addr t
  let n := rowLen hd.fmtA o.d0
  if zero then
    checkStrip hd.fmtA (n * o.d1 * o.d2) o
    wrRows t (o.rowOffs.map fun r => (od + r, withStain false (zeros n)))
  else
    checkStrip hd.fmtA a.bytes o
    let ad ← a.addr t
    let s ← sliceT t
    let x := (← get).tile t
    let k := (x.seq.scalar 15).1
    need (decide (a.bytes ≤ x.haloOn s.pid a.tile a.slot k)) .waitNet
    let src := haloAddr ad k a.bytes
    let open_ := (x.areasOf s.pid).any fun y => y.slot == a.slot
    let offs := o.rowOffs
    let done ← (List.range offs.length).mapM fun i => do
      let bs ← rdT t (src + i * n) n
      wrRow t (od + offs.getD i 0) (← if open_ then freeRow bs else pure bs)
    sealT t done

/-- `HALO_RECV`. -/
def execHaloRecv (t : Fin 1152) (s : State) : Host.Outcome State Fault Refusal :=
  s.next fun h => h.issueTod t.val 0x43 (todHaloRecv t.val)

/-- The level formed from the largest exponent (R124). -/
def autoLevel (es : List Int) : Int :=
  let e := es.foldl max (-32768)
  if e = -32768 then 48 else max (-128) (min 127 (e - 22))

/-- The logical tiles of a rectangle (R83). -/
def rectTiles (o : Opnd) : List Nat :=
  (upto (min o.y o.y1) (max o.y o.y1 - min o.y o.y1 + 1)).flatMap fun y =>
    (upto (min o.x o.x1) (max o.x o.x1 - min o.x o.x1 + 1)).map fun x => 32 * y + x

/-- `LEVEL_SEND` (R124): waits for `COUNT` results, forms the level of the `COUNT` that came first and sends it to the
rectangle. -/
def todLevelSend (t : Nat) (hd : Header) (d : List Byte) : T Unit := do
  admit3 d [0] [0] [4]
  let o := opnd d 2
  let _ ← o.baseVal t
  let s ← sliceT t
  let id := bits hd.param 0 4
  let count := bits hd.param 4 11
  let x := (← get).tile t
  let mine := (x.expIn.filter fun e => e.1 == id && e.2.1 == s.pid).take count
  need (decide (count ≤ mine.length)) .waitNet
  let lv := unsx 8 (autoLevel (mine.map (·.2.2)))
  modify fun h =>
    let h := h.modTile t fun x => { x with expIn := mine.foldl List.erase x.expIn }
    (rectTiles o).foldl (fun h l =>
      match h.physFor s.pid l with
      | some r => h.modTile r fun x => { x with lvlIn := x.lvlIn ++ [(id, s.pid, lv)] }
      | none => h) h

/-- `LEVEL_SEND`. -/
def execLevelSend (t : Fin 1152) (s : State) : Host.Outcome State Fault Refusal :=
  s.next fun h => h.issueTod t.val 0x44 (todLevelSend t.val)

/-- `LEVEL_RECV` (R86): waits for the level and writes `LVL`. -/
def todLevelRecv (t : Nat) (hd : Header) (d : List Byte) : T Unit := do
  admit3 d [0] [0] [0]
  let s ← sliceT t
  let id := bits hd.param 0 4
  let x := (← get).tile t
  match x.lvlIn.find? fun e => e.1 == id && e.2.1 == s.pid with
  | none => throw .waitNet
  | some e =>
    modify fun h => h.modTile t fun x =>
      { x with seq := { x.seq with lvl := e.2.2 }
               lvlIn := x.lvlIn.erase e
               lvlKept := x.lvlKept.put (s.pid * 1024 + s.act) e.2.2
               lvlJobs := if x.lvlJobs.contains (s.pid, s.seq) then x.lvlJobs else x.lvlJobs ++ [(s.pid, s.seq)] }

/-- `LEVEL_RECV`. -/
def execLevelRecv (t : Fin 1152) (s : State) : Host.Outcome State Fault Refusal :=
  s.next fun h => h.issueTod t.val 0x45 (todLevelRecv t.val)

end Sys2Proof.Machine
end

