-- ==== Sys2Proof/Machine/TodDma.lean ====
section
/-! DEFINITION. The DMA TODs (R85, R87, R88, R178, R268, R271 to R273, R625): `DMA_LOAD` and
`DMA_STORE`, direct and by page-list walk. -/

namespace Sys2Proof.Machine

open Sys2Proof

/-- Notes a failed translation of the slice's DMA (R178, R272): the TOD completes without transfer and
the first failure decides what the final `COMMIT` meets. -/
def noteFail (t status detail : Nat) : T Unit :=
  modify fun h => h.modSlice t fun s => if s.failed.isSome then s else { s with failed := some (status, detail) }

/-- The runs of a kind-2 operand (R625): row r at `VA` + 64 × `PITCH` × r. -/
def Opnd.memRows (o : Opnd) (va : Nat) : List (Nat × Nat) :=
  (List.range o.rows).map fun r => ((va + 64 * o.pitch * r) % 2 ^ 48, o.rowBytes)

/-- Translates rows, or gives the first failing address and cause. -/
def Hw.rowPieces (h : Hw) (pid : Nat) (rows : List (Nat × Nat)) (acc : Acs) :
    Except (Nat × Nat) (List (List (Nat × Nat))) :=
  rows.mapM fun r => h.mem.translateRun pid r.1 r.2 acc true

/-- The shape rule of a DMA transfer (R625). -/
def checkRows (m s : Opnd) : T Unit := need (m.rows == s.d1 * s.d2) (descErr s.ix)

/-- Takes a transfer's bytes from the buckets or waits for them (R60, R65). -/
def chargeT (t pid : Nat) (runs : List (Nat × Nat)) : T Unit := do
  match (← get).chargeDma t pid runs false with
  | .ok h => set h
  | .error dim => do
    modify fun h => h.noteShort t pid dim runs false
    throw .waitDram

/-- Reads pieces at DPAs as a slice's DMA: stain arrives per flit of 64 bytes (R420). -/
def Hw.dmaRead (h : Hw) (pid : Nat) : List (Nat × Nat) → List SByte × Hw
  | [] => ([], h)
  | (a, n) :: ps =>
    let (bs, st, h) := h.portRead pid a n
    let ok := h.portPermits pid a false
    let here := (List.range bs.length).map fun i =>
      (bs.getD i 0, if ok then h.gStained ((a + i) / 64 * 2) || h.gStained ((a + i) / 64 * 2 + 1) else st)
    let (rest, h) := h.dmaRead pid ps
    (here ++ rest, h)

/-- The operand fields of a page-list operand (R271): handle, layer and first position. -/
def Opnd.plFields (o : Opnd) (base : Nat) : Nat × Nat × Nat :=
  (bits o.va 0 16, bits o.va 16 8, (bits o.va 24 21 + base) % 2 ^ 32)

/-- A live sequence for a walk, with its layer in range (R272). -/
def walkSeq (t pid hd layer : Nat) : T (Option SeqRec) := do
  match (← get).seqOf pid hd with
  | some s =>
    if layer ≤ s.layers then pure (some s)
    else do
      modify fun h => h.walkEvent t pid hd .handle
      noteFail t 0x3002 0
      pure none
  | none => do
    modify fun h => h.walkEvent t pid hd .handle
    noteFail t 0x3002 0
    pure none

/-- Ends a walk on its failure at the entry address `va` (R272): a stained entry is consumed, a copy waits for its bytes
(R268), the others let the slice run on. -/
def walkFail (t pid hd va : Nat) (e : WalkErr) : T Unit := do
  match e with
  | .stained => throw .consumed
  | .tokens _ => throw .waitDram
  | e => do
    modify fun h => h.walkEvent t pid hd e
    noteFail t (e.status va).1 (e.status va).2

/-- Loads tokens by a walk: the tokens in order, or `none` after a failure (R271 to R273). -/
def walkTokens (t pid hd layer pos n : Nat) (s : SeqRec) : T (Option (List (List SByte))) := do
  let runs := (← get).walkRuns pid s layer pos n
  chargeT t pid runs
  (upto pos n).foldlM (fun acc p =>
    match acc with
    | none => pure none
    | some l => do
      match (← get).walkToken pid s layer p with
      | (.ok bs, h) => do
        set h
        pure (some (l ++ [bs]))
      | (.error e, h) => do
        set h
        walkFail t pid hd (s.entryVa layer (p / s.tps)) e
        pure none) (some [])

/-- `DMA_LOAD` (R85, R88, R178, R271, R625). -/
def todDmaLoad (t : Nat) (hd : Header) (d : List Byte) : T Unit := do
  admit3 d [2] [0] [1]
  let a := opnd d 0
  let o := opnd d 2
  checkRows a o
  let base ← a.baseVal t
  let od ← o.addr t
  let s ← sliceT t
  let offs := o.rowOffs
  if bit hd.param 0 then
    let (sh, layer, pos) := a.plFields base
    match ← walkSeq t s.pid sh layer with
    | none => pure ()
    | some q =>
      need (a.rowBytes == q.tokenBytes) (descErr 0)
      match ← walkTokens t s.pid sh layer pos a.rows q with
      | none => pure ()
      | some toks => wrRows t ((List.range offs.length).map fun i => (od + offs.getD i 0, toks.getD i []))
  else
    match (← get).rowPieces s.pid (a.memRows ((a.va + base) % 2 ^ 48)) .rd with
    | .error (va, c) => do
      modify fun h => h.translationFault 0 c s.pid va
      let (st, dt) := pageStatus (va, c)
      noteFail t st dt
    | .ok rows =>
      chargeT t s.pid rows.flatten
      let done ← (List.range offs.length).mapM fun i => do
        let (bs, h) := (← get).dmaRead s.pid (rows.getD i [])
        set h
        wrRow t (od + offs.getD i 0) bs
      sealT t done

/-- `DMA_LOAD`. -/
def execDmaLoad (t : Fin 1152) (s : State) : Host.Outcome State Fault Refusal :=
  s.next fun h => h.issueTod t.val 0x50 (todDmaLoad t.val)

/-- Cuts a stored run at 64-byte lines, each a flit that is stained when any byte of it is (R147). -/
def stagePieces (a : Nat) (list : Option (Nat × Nat × Nat)) (bs : List SByte) : List Staged :=
  (lines a bs.length).map fun l =>
    let lo := max a (l * 64)
    let hi := min (a + bs.length) (l * 64 + 64)
    let p := (bs.drop (lo - a)).take (hi - lo)
    { va := lo, list := list, data := p.map (·.1), stain := p.any (·.2) }

/-- Adds pieces to what a slice has staged. -/
def stage (t : Nat) (l : List Staged) : T Unit :=
  modify fun h => h.modSlice t fun s => { s with staged := s.staged ++ l }

/-- The walker resolves every sheet that a store touches (R268). -/
def walkStores (t pid hd layer pos n : Nat) (s : SeqRec) : T Bool :=
  let is := (upto (pos / s.tps) ((pos + n - 1) / s.tps - pos / s.tps + 1))
  is.foldlM (fun ok i =>
    if ! ok then pure false
    else do
      match (← get).walkStore t pid hd s layer i with
      | (.ok _, h) => do
        set h
        pure true
      | (.error e, h) => do
        set h
        walkFail t pid hd (s.entryVa layer i) e
        pure false) true

/-- `DMA_STORE` (R85, R87, R178, R268, R271, R625): the rows are staged until the final `COMMIT`. -/
def todDmaStore (t : Nat) (hd : Header) (d : List Byte) : T Unit := do
  admit3 d [1] [0] [2]
  let a := opnd d 0
  let o := opnd d 2
  checkRows o a
  let base ← o.baseVal t
  let ad ← a.addr t
  let s ← sliceT t
  need (decide (s.stagedBytes + o.rows * o.rowBytes ≤ s.stageLimit)) (.exc 4 2)
  let offs := a.rowOffs
  if bit hd.param 0 then
    let (sh, layer, pos) := o.plFields base
    match ← walkSeq t s.pid sh layer with
    | none => pure ()
    | some q =>
      need (o.rowBytes == q.tokenBytes) (descErr 2)
      if q.cap < pos + o.rows then walkFail t s.pid sh 0 .handle
      else if ← walkStores t s.pid sh layer pos o.rows q then
        (List.range offs.length).forM fun i => do
          let bs ← rdT t (ad + offs.getD i 0) o.rowBytes
          stage t (stagePieces 0 (some (sh, layer, pos + i)) bs)
      else pure ()
  else
    let rows := o.memRows ((o.va + base) % 2 ^ 48)
    match (← get).rowPieces s.pid rows .wr with
    | .error (va, c) => do
      modify fun h => h.translationFault 0 c s.pid va
      let (st, dt) := pageStatus (va, c)
      noteFail t st dt
    | .ok _ =>
      (List.range offs.length).forM fun i => do
        let bs ← rdT t (ad + offs.getD i 0) o.rowBytes
        stage t (stagePieces (rows.getD i (0, 0)).1 none bs)

/-- `DMA_STORE`. -/
def execDmaStore (t : Fin 1152) (s : State) : Host.Outcome State Fault Refusal :=
  s.next fun h => h.issueTod t.val 0x51 (todDmaStore t.val)

end Sys2Proof.Machine
end

