-- ==== Sys2Proof/Machine/TodAttn.lean ====
section
/-! DEFINITION. `ATTN_BLOCK` (R250 to R256, R282 to R284): SCAN, ACC and FINISH of latent attention over
one block of 32 keys, directly or in ring mode. -/

namespace Sys2Proof.Machine

open Sys2Proof

/-- The attention descriptor (R251). -/
structure Attn where
  wk : Nat
  wv : Nat
  work : Nat
  dh : Nat
  fmtW : Nat
  fmtE : Nat
  lk : Int
  lv : Int
  ls : Int
  causal : Bool
  forceRing : Bool
  rslot : Nat
  scale : Nat
  qpos : Nat
  nkey : Nat
  kpos : Nat
  window : Nat
  ring : List Nat
  noRing : Bool
  rbufIn : Nat
  rbufOut : Nat
  maxv : Nat
  carry : Nat
  deriving DecidableEq, Repr

/-- Reads the attention descriptor (R251). -/
def attnOf (b : List Byte) : Attn :=
  let a (i : Nat) : Nat := bits (field b i 4) 0 19
  let p (i : Nat) : Nat := bits (field b i 4) 0 21
  let l (i : Nat) : Int := sx 8 (field b i 1)
  { wk := a 0, wv := a 4, work := a 8, dh := field b 12 2, fmtW := bits (field b 14 1) 0 4,
    fmtE := bits (field b 14 1) 4 4, lk := l 15, lv := l 16, ls := l 17, causal := bit (field b 18 1) 0,
    forceRing := bit (field b 18 1) 1, rslot := bits (field b 19 1) 0 4, scale := field b 20 4,
    qpos := p 24, nkey := p 28, kpos := p 32, window := p 36,
    ring := (List.range 4).map fun i =>
      if field b (40 + 2 * i) 1 < 32 then 32 * field b (41 + 2 * i) 1 + field b (40 + 2 * i) 1 else 1024,
    noRing := field b 40 8 = 2 ^ 64 - 1, rbufIn := a 48, rbufOut := a 52, maxv := a 56, carry := a 60 }

/-- The range checks of the descriptor (R251). -/
def Attn.ok (x : Attn) : Bool :=
  ([x.wk, x.wv, x.work, x.rbufIn, x.rbufOut, x.maxv, x.carry].all fun a => a % 32 == 0) &&
  decide (32 ≤ x.dh) && decide (x.dh ≤ 256) && x.dh % 32 == 0 &&
  [1, 3, 4, 0xE].contains x.fmtW && [3, 4, 0xD, 0xE].contains x.fmtE &&
  (x.noRing || (x.ring.map dieOfLogical == [0, 1, 3, 2] && x.ring.all fun l => decide (l < 1024))) &&
  (! x.forceRing || ! x.noRing)

/-- This tile's ring position; 0 for a tile outside any group (log entry 24). -/
def Attn.rho (x : Attn) (self : Nat) : Nat :=
  if x.noRing then 0 else ((x.ring.findIdx? fun l => l == self)).getD 0

/-- A row of terms flushed at a level and converted to a format (R253): encoding and flags `INEXACT`,
`OVERFLOW`. -/
def flushConv (c : Nat) (lam : Int) (ts : List Val) : Nat × Bool × Bool :=
  let (a, i) := Acc.zero.addTerms lam ts
  let (e, o) := toElem c .rne (a.val lam)
  (e, i, o)

/-- Expands latents with an up-projection (R253): rows of `DH` values in `FMT_E`, with the flags. -/
def expand (fmtE : Nat) (lam : Int) (w lat : List (List Val)) : List (List Val) × Bool × Bool :=
  let rs := lat.map fun c => w.map fun r => flushConv fmtE lam (dotTerms c r)
  (rs.map fun r => r.map fun e => elemVal fmtE e.1, rs.any fun r => r.any (·.2.1), rs.any fun r => r.any (·.2.2))

/-- Whether a pair of a query and a key is live (R253). -/
def Attn.live (x : Attn) (m k : Nat) : Bool :=
  let q := x.qpos + m
  decide (k < x.nkey) && (! x.causal || decide (k ≤ q)) && (x.window == 0 || decide (q < k + x.window))

/-- The scaled exponent e of a pair (R253), in FP32. -/
def Attn.score (x : Attn) (q k : List Val) : Nat × Bool × Bool :=
  let (s, i, o) := flushConv 0xF x.ls (dotTerms q k)
  (f32mul (f32mul s x.scale) 0x3FB8AA3B, i, o)

/-- ceil(e) clamped to ±2^24, infinities included; `none` for NaN (R253). -/
def ceilClamp (e : Nat) : Option Int :=
  match f32v e with
  | .nan => none
  | .inf s => some (if s then -16777216 else 16777216)
  | v => some (min (max (-(v.neg.floor)) (-16777216)) 16777216)

/-- Rows of a matrix at an SRAM address, as a use. -/
def readMatrix (t c a rows cols : Nat) : T (List (List Val)) :=
  (List.range rows).mapM fun r => do
    let bs ← useT t (a + r * rowLen c cols) (rowLen c cols)
    pure ((unpack c cols bs).map (elemVal c))

/-- Tokens as latent values; stained latents are consumed. -/
def latentVals (c n : Nat) (toks : List (List SByte)) : T (List (List Val)) := do
  useClean (toks.any fun k => k.any (·.2))
  pure (toks.map fun k => (unpack c n (k.map (·.1))).map (elemVal c))

/-- Whether a page-list `ATTN_BLOCK` runs in ring mode (R282). -/
def Attn.ringMode (x : Attn) (q : SeqRec) : Bool :=
  ! x.noRing && q.position && ((decide (x.nkey > q.dieTokens) && q.dieTokens ≠ 0) || x.forceRing)

/-- The latents of the block with the position of its first key: from SRAM, by the walk, or from the ring
buffer; `none` when the walk failed, an empty block when it lies beyond `NKEY` (R252, R283, R284). -/
def attnBlock (t : Nat) (hd : Header) (x : Attn) (b : Opnd) : T (Option (List (List Val) × Nat × Nat)) := do
  let s ← sliceT t
  if b.kind = 1 then
    need (b.d1 * b.d2 == 32 && [32, 64, 128, 256, 512, 1024].contains b.d0) (descErr 1)
    let rows ← b.valRows t hd.fmtB
    pure (some (rows, x.kpos, b.d0))
  else
    let (sh, layer, _) := b.plFields 0
    match ← walkSeq t s.pid sh layer with
    | none => pure none
    | some q =>
      need (! x.forceRing || q.position) (descErr 1)
      let self := s.pos
      let (g, st) := ((← get).tile t).seq.scalar (bits hd.param 24 4)
      useClean st
      let step := bits hd.param 21 2
      let rho := x.rho self
      let j := g + (rho + 4 - step) % 4
      let n := 32 * q.tokenBytes
      let ring := x.ringMode q
      let s15 := (((← get).tile t).seq.scalar 15).1
      let toks ← if ring && step ≠ 0 then do
          let half := (((← get).tile t).areasOf s.pid).find? fun r => r.base == x.rbufIn
          let bs ← rdT t (x.rbufIn + (s15 + 1) % 2 * (half.map (·.half)).getD n) n
          pure (some (rowsOf 32 q.tokenBytes bs))
        else if x.nkey ≤ 32 * j then pure (some (List.replicate 32 (withStain false (zeros q.tokenBytes))))
        else walkTokens t s.pid sh layer (32 * j) 32 q
      match toks with
      | none => pure none
      | some toks =>
        if ring && decide (step ≤ 2) then
          let l := x.ring.getD ((rho + 1) % 4) 0
          let o : Opnd := { b with x := l % 32, y := l / 32, slot := x.rslot }
          sendMsg t 0 x.rbufOut o toks.flatten
        else pure ()
        let vs ← latentVals q.fmt q.rank toks
        pure (some (vs, 32 * j, q.rank))

/-- Fills the work area: the manual does not say what it holds afterwards (log entry 25). -/
def scratchWork (t : Nat) (x : Attn) : T Unit := do
  let done ← (List.range (16 * x.dh)).mapM fun i => do
    let (w, h) := (← get).free
    set h
    wrRow t (x.work + 8 * i) (withStain false (leBytes 8 w.toNat))
  sealT t done

/-- The queries of SCAN and ACC (R252). -/
def queries (t : Nat) (hd : Header) (x : Attn) (a : Opnd) : T (List (List Val)) := do
  macFmts hd
  need (a.d0 == x.dh && decide (a.d1 * a.d2 ≤ 32)) (descErr 0)
  a.valRows t hd.fmtA

/-- `ATTN_BLOCK` in mode SCAN (R252, R253). -/
def attnScan (t : Nat) (hd : Header) (x : Attn) (d : List Byte) : T Unit := do
  admit3 d [1] [1, 2] [1]
  let a := opnd d 0
  let o := opnd d 2
  let m := a.d1 * a.d2
  let qs ← queries t hd x a
  need (o.d0 * o.d1 * o.d2 == m) (descErr 2)
  match ← attnBlock t hd x (opnd d 1) with
  | none => pure ()
  | some (lat, k0, rank) =>
    let wk ← readMatrix t x.fmtW x.wk x.dh rank
    let (ks, i1, o1) := expand x.fmtE x.lk wk lat
    let old ← if hd.keep then o.encs t 2 else pure (List.replicate m 0x80000000)
    let rs := (List.range m).map fun r =>
      ((List.range 32).filter fun n => x.live r (k0 + n)).map fun n => x.score (qs.getD r []) (ks.getD n [])
    flagsT t (i1 || rs.any fun r => r.any (·.2.1)) (o1 || rs.any fun r => r.any (·.2.2))
    scratchWork t x
    o.putEncs t 2 ((List.range m).map fun r =>
      unsx 32 (((rs.getD r []).filterMap fun e => ceilClamp e.1).foldl max (sx 32 (old.getD r 0))))

/-- Half `half` of a carry area as accumulators (R255), as a use. -/
def readCarry (t a n half : Nat) : T (List Acc) := do
  let bs ← useT t (a + half * (16 * n)) (16 * n)
  pure ((List.range n).map fun i => ⟨field bs (16 * i) 12, field bs (16 * i + 12) 1 % 4⟩)

/-- Adds carried accumulators into the tile's (R255): exact, and sets no flag. -/
def addCarry (t f : Nat) (l : List Acc) : T Unit :=
  (List.range l.length).forM fun i => do
    let a := ((← get).tile t).acc (f + i)
    let c := l.getD i Acc.zero
    setAccT t (f + i) ⟨(a.a + c.a) % 2 ^ 96, tagJoin a.tag c.tag⟩

/-- Writes the tile's accumulators into half `half` of a carry area (R255). -/
def writeCarry (t a f n half : Nat) : T Unit := do
  let x := (← get).tile t
  wrT t (a + half * (16 * n)) (withStain false ((List.range n).flatMap fun i =>
    leBytes 12 (x.acc (f + i)).a ++ leBytes 4 (x.acc (f + i)).tag))

/-- The terms of one row of ACC (R253): for each dimension the weighted values, then the weights. -/
def accTerms (x : Attn) (k0 r mx : Nat) (q : List Val) (ks vs : List (List Val)) :
    List (List Val) × List Val × Bool × Bool :=
  let ps := ((List.range 32).filter fun n => x.live r (k0 + n)).map fun n =>
    let (e, i, o) := x.score q (ks.getD n [])
    let y := f32sub e (toF32 (Val.ofInt (sx 32 mx)))
    let z := fp32.lane (f32v y).exp2
    let (p, o2) := toFp fpBf16 .rne (f32v z)
    (n, fpBf16.decode p, i, o || o2)
  ((List.range x.dh).map fun d => ps.map fun p => p.2.1.mul ((vs.getD p.1 []).getD d Val.zero),
   ps.map (·.2.1), ps.any (·.2.2.1), ps.any (·.2.2.2))

/-- `ATTN_BLOCK` in mode ACC (R252, R253, R255). -/
def attnAcc (t : Nat) (hd : Header) (x : Attn) (d : List Byte) : T Unit := do
  admit3 d [1] [1, 2] [3]
  let a := opnd d 0
  let o := opnd d 2
  let m := a.d1 * a.d2
  let n := m * (x.dh + 1)
  let f := o.acc
  let qs ← queries t hd x a
  need (decide (n + f ≤ 1024)) (descErr 2)
  match ← attnBlock t hd x (opnd d 1) with
  | none => pure ()
  | some (lat, k0, rank) =>
    let wk ← readMatrix t x.fmtW x.wk x.dh rank
    let wv ← readMatrix t x.fmtW x.wv x.dh rank
    let (ks, i1, o1) := expand x.fmtE x.lk wk lat
    let (vs, i2, o2) := expand x.fmtE x.lv wv lat
    let mb ← useT t x.maxv (4 * m)
    let s15 := (((← get).tile t).seq.scalar 15).1
    let s ← sliceT t
    if hd.keep then
      if x.carry ≠ 0 && ! s.carryRead.contains x.carry then
        addCarry t f (← readCarry t x.carry n ((s15 + 1) % 2))
      else pure ()
    else clearAccs t f n
    if x.carry ≠ 0 then
      modify fun h => h.modSlice t fun s => { s with carryRead := NSet.add s.carryRead x.carry }
    else pure ()
    let lam ← levelT t hd
    let rs := (List.range m).map fun r => accTerms x k0 r (field mb (4 * r) 4) (qs.getD r []) ks vs
    flagsT t (i1 || i2 || rs.any (·.2.2.1)) (o1 || o2 || rs.any (·.2.2.2))
    scratchWork t x
    addAccs t f lam (rs.flatMap (·.1))
    addAccs t (f + m * x.dh) lam (rs.map (·.2.1))
    if x.carry ≠ 0 then writeCarry t x.carry f n (s15 % 2) else pure ()

/-- The quotient of FINISH (R254): the tags combined, zero for a zero denominator, else the exact
quotient of the two integers. -/
def quotient (n d : Acc) : Val :=
  match tagJoin n.tag d.tag with
  | 0 =>
    if sx 96 d.a = 0 then Val.zero
    else (Val.ofInt (sx 96 n.a)).div (Val.ofInt (sx 96 d.a))
  | 1 => .inf false
  | 2 => .inf true
  | _ => .nan

/-- `ATTN_BLOCK` in mode FINISH (R252, R254, R255). -/
def attnFinish (t : Nat) (hd : Header) (x : Attn) (d : List Byte) : T Unit := do
  admit3 d [3] [0] [1]
  let a := opnd d 0
  let o := opnd d 2
  let m := o.d1 * o.d2
  let n := m * (x.dh + 1)
  let f := a.acc
  need (o.d0 == x.dh && decide (m ≤ 32)) (descErr 2)
  need (decide (n + f ≤ 1024)) (descErr 0)
  if x.carry ≠ 0 then
    let s15 := (((← get).tile t).seq.scalar 15).1
    addCarry t f (← readCarry t x.carry n ((s15 + 1) % 2))
  else pure ()
  let y := (← get).tile t
  o.putVals t hd ((List.range m).flatMap fun r => (List.range x.dh).map fun k =>
    quotient (y.acc (f + r * x.dh + k)) (y.acc (f + m * x.dh + r)))

/-- `ATTN_BLOCK` (R250 to R256). -/
def todAttnBlock (t : Nat) (hd : Header) (d : List Byte) : T Unit := do
  let mode := bits hd.param 19 2
  need (mode ≠ 3) (illegal 3)
  let ad := bits hd.param 0 19
  need (ad % 64 == 0) (descErr 0)
  let x := attnOf (← useT t ad 64)
  need x.ok (descErr 0)
  if mode = 0 then attnScan t hd x d
  else if mode = 1 then attnAcc t hd x d
  else attnFinish t hd x d

/-- `ATTN_BLOCK`. -/
def execAttnBlock (t : Fin 1152) (s : State) : Host.Outcome State Fault Refusal :=
  s.next fun h => h.issueTod t.val 0x14 (todAttnBlock t.val)

end Sys2Proof.Machine
end

