-- ==== Sys2Proof/Machine/TodMac.lean ====
section
/-! DEFINITION. The TODs of the MAC array and of the accumulators (R85, R624): `MATMUL`,
`MATMUL_SPARSE`, `CONV2D`, `CONV2D_FFT`, `EXPSCAN`, `ACC_CLEAR` and `ACC_READ`. -/

namespace Sys2Proof.Machine

open Sys2Proof

/-- `MATMUL` (R85, R114, R624): D = A × Bᵀ. -/
def todMatmul (t : Nat) (hd : Header) (d : List Byte) : T Unit := do
  admit3 d [1] [1] [1, 3]
  let a := opnd d 0
  let b := opnd d 1
  let o := opnd d 2
  let m := a.d1 * a.d2
  let n := b.d1 * b.d2
  checkMatmul hd m n a.d0
  need (a.d0 == b.d0) (descErr 1)
  checkOut o n m
  let ra ← a.valRows t hd.fmtA
  let rb ← b.valRows t hd.fmtB
  macOut t hd o m n (ra.flatMap fun x => rb.map fun y => dotTerms x y)

/-- `MATMUL`. -/
def execMatmul (t : Fin 1152) (s : State) : Host.Outcome State Fault Refusal :=
  s.next fun h => h.issueTod t.val 0x10 (todMatmul t.val)

/-- `MATMUL_SPARSE` (R85, R114, R115): as `MATMUL` with B expanded; metadata with a first position not
below the second gives unpredictable results. -/
def todMatmulSparse (t : Nat) (hd : Header) (d : List Byte) : T Unit := do
  admit3 d [1] [1] [1, 3]
  let a := opnd d 0
  let b := opnd d 1
  let o := opnd d 2
  let m := a.d1 * a.d2
  let n := b.d1 * b.d2
  let k := a.d0
  checkMatmul hd m n k
  need (! (is16 hd.fmtA || is16 hd.fmtB)) (descErr 0)
  need (k % 4 == 0 && (! isMx hd.fmtB || k % 64 == 0)) (descErr 0)
  need (b.d0 == k / 2) (descErr 1)
  checkOut o n m
  let ra ← a.valRows t hd.fmtA
  let rb ← b.valRows t hd.fmtB
  let g := k / 4
  let ms ← useT t (bits hd.param 0 19) (cdiv (n * g) 2)
  match (List.range n).mapM fun i => expandRow (rb.getD i []) (metaRow ms i g) with
  | some ex => macOut t hd o m n (ra.flatMap fun x => ex.map fun y => dotTerms x y)
  | none =>
    let fs ← (List.range (m * n)).mapM fun _ => do pure [(← freeAcc).val 48]
    macOut t hd o m n fs

/-- `MATMUL_SPARSE`. -/
def execMatmulSparse (t : Fin 1152) (s : State) : Host.Outcome State Fault Refusal :=
  s.next fun h => h.issueTod t.val 0x11 (todMatmulSparse t.val)

/-- `CONV2D` (R286 to R288): each tap is an exact term of the flush accumulation, and there is no sparse form. -/
def todConv2d (t : Nat) (hd : Header) (d : List Byte) : T Unit := do
  admit3 d [1] [1] [1, 3]
  let a := opnd d 0
  let b := opnd d 1
  let o := opnd d 2
  let c := convOf hd.param
  checkFilter c
  macFmts hd
  let oh := if o.kind = 3 then 1 else o.d2
  need (a.d0 == b.d0 && b.d1 == c.kh * c.kw) (descErr 1)
  need (decide (o.d1 * oh ≤ 32)) (descErr 2)
  need (decide (b.d2 ≤ macN hd.fmtA hd.fmtB)) (descErr 1)
  need (o.d0 == b.d2) (descErr 2)
  need (! (isMx hd.fmtA || isMx hd.fmtB) || a.d0 % 32 == 0) (descErr 0)
  let ra ← a.valRows t hd.fmtA
  let rb ← b.valRows t hd.fmtB
  macOut t hd o (o.d1 * oh) b.d2 (convTerms c a.d2 a.d1 a.d0 b.d2 1 o.d1 oh ra rb)

/-- `CONV2D`. -/
def execConv2d (t : Fin 1152) (s : State) : Host.Outcome State Fault Refusal :=
  s.next fun h => h.issueTod t.val 0x12 (todConv2d t.val)

/-- The fields of `CONV2D_FFT` (R291): filter height and width, log2 of the transform size, mode and
padding. -/
structure FftConv where
  kh : Nat
  kw : Nat
  b : Nat
  mode : Nat
  py : Nat
  px : Nat
  deriving DecidableEq, Repr

/-- `PARAM` of `CONV2D_FFT` (R291). -/
def fftConvOf (p : Nat) : FftConv :=
  { kh := bits p 0 4 + 9, kw := bits p 4 4 + 9, b := bits p 8 2 + 4, mode := bits p 10 2,
    py := bits p 12 5, px := bits p 17 5 }

/-- The block X_c of an input channel, in FP32 (R292). -/
def fftInput (f : FftConv) (hh ww c : Nat) (a : List (List Val)) : List Cx :=
  let n := 2 ^ f.b
  (List.range n).flatMap fun u => (List.range n).map fun v =>
    if f.py ≤ u ∧ u - f.py < hh ∧ f.px ≤ v ∧ v - f.px < ww then
      (toF32 ((a.getD ((u - f.py) * ww + (v - f.px)) []).getD c Val.zero), 0)
    else (0, 0)

/-- The spectrum S of a filter (R292): `rows` lists its taps' channels. -/
def fftFilter (f : FftConv) (c : Nat) (rows : List (List Val)) : List Cx :=
  let n := 2 ^ f.b
  let w := (List.range n).flatMap fun y => (List.range n).map fun x =>
    if y < f.kh ∧ x < f.kw then (toF32 ((rows.getD (y * f.kw + x) []).getD c Val.zero), 0) else (0, 0)
  (fft2 f.b false w).map cxConj

/-- The filters' spectra in the order (n, c), c fastest (R292). -/
def fftSpectra (f : FftConv) (n ch : Nat) (b : List (List Val)) : List (List Cx) :=
  (List.range n).flatMap fun k => (List.range ch).map fun c =>
    fftFilter f c ((b.drop (k * (f.kh * f.kw))).take (f.kh * f.kw))

/-- Sums of products over channels, in order (R292). -/
def fftSum (xs ss : List (List Cx)) : List Cx :=
  match List.zipWith (fun x s => List.zipWith cxMul x s) xs ss with
  | [] => []
  | p :: ps => ps.foldl (fun a b => List.zipWith cxAdd a b) p

/-- One output channel's plane Y_n (R292). -/
def fftPlane (f : FftConv) (xs ss : List (List Cx)) : List Cx :=
  (fft2 f.b true (fftSum xs ss)).map (cxScale (2 * f.b))

/-- Spectra read from B in mode 1 (R292). -/
def readSpectra (t : Nat) (f : FftConv) (b : Opnd) : T (List (List Cx)) := do
  let es ← b.encs t 0xF
  let n2 := 4 ^ f.b
  pure (rowsOf (es.length / (2 * n2)) n2 ((List.range (es.length / 2)).map fun i =>
    (es.getD (2 * i) 0, es.getD (2 * i + 1) 0)))

/-- `CONV2D_FFT` (R291 to R293): computed in FP32 in the order of R292, not flush-accumulated. -/
def todConv2dFft (t : Nat) (hd : Header) (d : List Byte) : T Unit := do
  let f := fftConvOf hd.param
  need (f.b ≠ 7) (illegal 3)
  need (f.mode ≠ 3) (illegal 3)
  admit3 d [1] [1] [1]
  let a := opnd d 0
  let b := opnd d 1
  let o := opnd d 2
  let n := 2 ^ f.b
  need (decide (f.kh ≤ n) && decide (f.kw ≤ n)) (descErr 1)
  need (decide (o.d2 + f.kh ≤ n + 1) && decide (o.d1 + f.kw ≤ n + 1)) (descErr 2)
  need (decide (a.d1 ≤ n) && decide (a.d2 ≤ n)) (descErr 0)
  need (! (isMx hd.fmtA || isMx hd.fmtB || isMx hd.fmtOut)) (descErr 0)
  if f.mode = 2 then
    let rb ← b.valRows t hd.fmtB
    let ss := fftSpectra f b.d2 b.d0 rb
    need (o.d0 * o.d1 * o.d2 == ss.length * n * n * 2) (descErr 2)
    o.putEncs t 0xF (ss.flatMap fun s => s.flatMap fun z => [z.1, z.2])
  else
    let ra ← a.valRows t hd.fmtA
    let xs := (List.range a.d0).map fun c => fft2 f.b false (fftInput f a.d2 a.d1 c ra)
    let (ss, fltOver) ← if f.mode = 1 then do pure (← readSpectra t f b, false)
      else do
        let rb ← b.valRows t hd.fmtB
        pure (fftSpectra f b.d2 b.d0 rb, rb.any fun r => r.any f32over)
    let planes := (List.range o.d0).map fun k => fftPlane f xs ((ss.drop (k * a.d0)).take a.d0)
    let ovf := ra.any (fun r => r.any f32over) || (f.mode = 0 && fltOver)
    o.putOver t hd ovf ((List.range o.d2).flatMap fun oy => (List.range o.d1).flatMap fun ox =>
      (List.range o.d0).map fun k => f32v (((planes.getD k []).getD (oy * n + ox) (0, 0)).1))

/-- `CONV2D_FFT`. -/
def execConv2dFft (t : Fin 1152) (s : State) : Host.Outcome State Fault Refusal :=
  s.next fun h => h.issueTod t.val 0x13 (todConv2dFft t.val)

/-- The largest exponent of the nonzero finite terms (R124), −32,768 when there is none. -/
def maxExp (ts : List Val) : Int :=
  match blockTop ts with
  | some e => e
  | none => -32768

/-- `EXPSCAN` (R124): sends the largest exponent of the terms that `MATMUL` would form to the root. -/
def todExpscan (t : Nat) (hd : Header) (d : List Byte) : T Unit := do
  admit3 d [1] [1] [4]
  let a := opnd d 0
  let b := opnd d 1
  let o := opnd d 2
  checkMatmul hd (a.d1 * a.d2) (b.d1 * b.d2) a.d0
  need (a.d0 == b.d0) (descErr 1)
  let _ ← o.baseVal t
  let ra ← a.valRows t hd.fmtA
  let rb ← b.valRows t hd.fmtB
  let e := maxExp (ra.flatMap fun x => rb.flatMap fun y => (dotTerms x y).filter Val.isNum)
  let s ← sliceT t
  modify fun h =>
    match h.physFor s.pid o.tile with
    | some r => h.modTile r fun x => { x with expIn := x.expIn ++ [(bits hd.param 0 4, s.pid, e)] }
    | none => h

/-- `EXPSCAN`. -/
def execExpscan (t : Fin 1152) (s : State) : Host.Outcome State Fault Refusal :=
  s.next fun h => h.issueTod t.val 0x15 (todExpscan t.val)

/-- `ACC_CLEAR` (R85). -/
def todAccClear (t : Nat) (_ : Header) (d : List Byte) : T Unit := do
  admit3 d [0] [0] [3]
  let o := opnd d 2
  clearAccs t o.acc (o.d0 * o.d1)

/-- `ACC_CLEAR`. -/
def execAccClear (t : Fin 1152) (s : State) : Host.Outcome State Fault Refusal :=
  s.next fun h => h.issueTod t.val 0x16 (todAccClear t.val)

/-- `ACC_READ` (R85, R125). -/
def todAccRead (t : Nat) (hd : Header) (d : List Byte) : T Unit := do
  admit3 d [3] [0] [1]
  let a := opnd d 0
  let o := opnd d 2
  need (o.d0 * o.d1 * o.d2 == a.d0 * a.d1) (descErr 2)
  let lam ← levelT t hd
  let x := (← get).tile t
  o.putVals t hd ((List.range (a.d0 * a.d1)).map fun i => (x.acc (a.acc + i)).val lam)
  if bit hd.param 0 then clearAccs t a.acc (a.d0 * a.d1) else pure ()

/-- `ACC_READ`. -/
def execAccRead (t : Fin 1152) (s : State) : Host.Outcome State Fault Refusal :=
  s.next fun h => h.issueTod t.val 0x17 (todAccRead t.val)

end Sys2Proof.Machine
end

