-- ==== Sys2Proof/Machine/LaneOps.lean ====
section
/-! DEFINITION. The lane functions (R91, R92) and the scalar functions (R93). -/

namespace Sys2Proof.Machine

/-- A lane width code (R89): 0 is 64 lanes of 32 bits, 1 is 128 lanes of INT16 or FP16, 2 is 128 lanes of
BF16. -/
def laneBits (w : Nat) : Nat := if w = 0 then 32 else 16
def laneCount (w : Nat) : Nat := if w = 0 then 64 else 128
def laneFp (w : Nat) : FpFmt := if w = 0 then fp32 else if w = 1 then fp16 else fpBf16

/-- Whether a function code of `VALU` is defined (R91): int-only and FP-only functions exclude the other
kind. -/
def fnLegal (fn : Nat) : Bool :=
  let f := bit fn 5
  let k := fn % 32
  decide (k ≤ 20) && ! (f && decide (8 ≤ k) && decide (k ≤ 13)) && (f || ! (decide (14 ≤ k) && decide (k ≤ 19)))

/-- Whether a function reads its second operand. -/
def fnBinary (fn : Nat) : Bool :=
  let k := fn % 32
  decide (k ≤ 5) || (decide (8 ≤ k) && decide (k ≤ 14))

/-- Shifts and logic on `n`-bit integers. -/
def sraInt (n a k : Nat) : Nat := unsx n (sx n a / ((2 ^ k : Nat) : Int))

/-- An integer lane function (R91, R92): arithmetic wraps modulo the lane width. -/
def intLane (n k a b c : Nat) : Nat :=
  let m := 2 ^ n
  let sh := b % n
  match k with
  | 0 => (a + b) % m
  | 1 => (a + m - b) % m
  | 2 => a * b % m
  | 3 => (a * b + c) % m
  | 4 => if sx n a ≤ sx n b then a else b
  | 5 => if sx n a ≤ sx n b then b else a
  | 6 => unsx n (sx n a).natAbs
  | 7 => (m - a) % m
  | 8 => a &&& b
  | 9 => a ||| b
  | 10 => a ^^^ b
  | 11 => a * 2 ^ sh % m
  | 12 => a / 2 ^ sh
  | 13 => sraInt n a sh
  | _ => a

/-- A floating-point lane function on exact values (R91, R92). -/
def fpLane (k : Nat) (a b c : Val) : Val :=
  match k with
  | 0 => a.add b
  | 1 => a.sub b
  | 2 => a.mul b
  | 3 => (a.mul b).add c
  | 4 => a.min b
  | 5 => a.max b
  | 6 => a.abs
  | 7 => a.neg
  | 14 => a.div b
  | 15 => a.sqrt
  | 16 => a.recip
  | 17 => a.rsqrt
  | 18 => a.exp2
  | 19 => a.log2
  | _ => a

/-- A lane function on encodings: `w` is the lane width code, `fn` the function (R91), `c` the old
value of the destination, which FMA adds. An integer function with `W` 2 works on 16-bit integers (DESIGN CHOICE, log
entry 50). -/
def laneFn (w fn a b c : Nat) : Nat :=
  if bit fn 5 then
    let f := laneFp w
    f.lane (fpLane (fn % 32) (f.decode a) (f.decode b) (f.decode c))
  else intLane (laneBits w) (fn % 32) a b c

/-- The scalar functions of `SALU` that compute a value (R93): `none` for the others. -/
def saluFn (fn a b : Nat) : Option Nat :=
  let m := 2 ^ 32
  match fn with
  | 0 => some ((a + b) % m)
  | 1 => some ((a + m - b) % m)
  | 2 => some (a * b % m)
  | 3 => some (a &&& b)
  | 4 => some (a ||| b)
  | 5 => some (a ^^^ b)
  | 6 => some (a * 2 ^ (b % 32) % m)
  | 7 => some (a / 2 ^ (b % 32))
  | 8 => some (sraInt 32 a (b % 32))
  | 9 => some (b2n (decide (sx 32 a < sx 32 b)))
  | 10 => some (b2n (decide (a < b)))
  | 11 => some (if sx 32 a ≤ sx 32 b then a else b)
  | 12 => some (if sx 32 a ≤ sx 32 b then b else a)
  | _ => none

/-- The largest or smallest of values in the lane order (R92): a NaN makes it NaN. -/
def extreme (mx : Bool) : List Val → Val
  | [] => .nan
  | v :: vs => vs.foldl (fun a b => if mx then a.max b else a.min b) v

/-- The order in which keys are sorted (R92): numbers by value with −0 below +0, NaN after every number
(log entry 20). -/
def keyLe (a b : Val) : Bool :=
  match a, b with
  | _, .nan => true
  | .nan, _ => false
  | a, b => a.le b

/-- Stable sort of indexed keys, ascending or descending; equal keys keep the lower index first. -/
def sortKeys {α : Type} (desc : Bool) (l : List (Val × α)) : List (Val × α) :=
  sortBy (fun x y => if desc then (match x.1, y.1 with
      | .nan, .nan => true
      | .nan, _ => false
      | _, .nan => true
      | a, b => b.le a) else keyLe x.1 y.1) l

end Sys2Proof.Machine
end

