-- ==== Sys2Proof/Machine/TodVec.lean ====
section
/-! DEFINITION. The TODs of the vector unit (R85, R94, R122, R128, R129, R289). -/

namespace Sys2Proof.Machine

open Sys2Proof

/-- What an operation forms in working accumulators goes to a kind-1 D (R125, R624); with `ACC_HOLD` it is not written. -/
def workOut (t : Nat) (hd : Header) (o : Opnd) (lam : Int) (ts : List (List Val)) (f : Acc → Val) : T Unit := do
  let rs := ts.map (Acc.zero.addTerms lam)
  if hd.hold then flagsT t (rs.any (·.2)) false
  else
    o.packs hd.fmtOut
    flagsT t (rs.any (·.2)) false
    o.putVals t hd (rs.map fun r => f r.1)

/-- `DWCONV` (R289, R290): depthwise and grouped convolution. -/
def todDwconv (t : Nat) (hd : Header) (d : List Byte) : T Unit := do
  admit3 d [1] [1] [1, 3]
  let a := opnd d 0
  let b := opnd d 1
  let o := opnd d 2
  let c := convOf hd.param
  let g := bits hd.param 24 8 + 1
  checkFilter c
  macFmts hd
  let oh := if o.kind = 3 then 1 else o.d2
  need (a.d0 % g == 0 && b.d2 % g == 0) (descErr 0)
  need (b.d0 == a.d0 / g && b.d1 == c.kh * c.kw) (descErr 1)
  need (decide (o.d1 * oh * b.d2 ≤ 1024)) (descErr 2)
  need (o.d0 == b.d2) (descErr 2)
  let ra ← a.valRows t hd.fmtA
  let rb ← b.valRows t hd.fmtB
  let ts := convTerms c a.d2 a.d1 a.d0 b.d2 g o.d1 oh ra rb
  let lam ← levelT t hd
  if o.kind = 3 then
    need (decide (ts.length + o.acc ≤ 1024)) (descErr 2)
    if hd.keep then pure () else clearAccs t o.acc ts.length
    addAccs t o.acc lam ts
  else workOut t hd o lam ts fun x => x.val lam

/-- `DWCONV`. -/
def execDwconv (t : Fin 1152) (s : State) : Host.Outcome State Fault Refusal :=
  s.next fun h => h.issueTod t.val 0x20 (todDwconv t.val)

/-- The elements of a pooling window (R85): those of the input that lie inside it. -/
def poolWindow (kh kw sy sx hh ww oy ox ch : Nat) (a : List (List Val)) : List Val :=
  (List.range kh).flatMap fun ky => (List.range kw).filterMap fun kx =>
    let iy := oy * sy + ky
    let ix := ox * sx + kx
    if iy < hh ∧ ix < ww then some ((a.getD (iy * ww + ix) []).getD ch Val.zero) else none

/-- `POOL` (R85, R125): AVG and SUM accumulate in working flush accumulators; AVG divides exactly by
`KH` × `KW` and rounds once. -/
def todPool (t : Nat) (hd : Header) (d : List Byte) : T Unit := do
  admit3 d [1] [0] [1]
  let a := opnd d 0
  let o := opnd d 2
  let mode := bits hd.param 0 2
  let kh := bits hd.param 2 4
  let kw := bits hd.param 6 4
  let sy := bits hd.param 10 2 + 1
  let sx := bits hd.param 12 2 + 1
  need (mode ≠ 3) (illegal 3)
  need (kh ≠ 0 && kw ≠ 0) (descErr 0)
  need (o.d0 == a.d0) (descErr 2)
  let ra ← a.valRows t hd.fmtA
  let wins := (List.range o.d2).flatMap fun oy => (List.range o.d1).flatMap fun ox =>
    (List.range o.d0).map fun c => poolWindow kh kw sy sx a.d2 a.d1 oy ox c ra
  if mode = 0 then o.putVals t hd (wins.map (extreme true))
  else
    let lam ← levelT t hd
    workOut t hd o lam wins fun x => if mode = 1 then (x.val lam).div (Val.ofInt (kh * kw)) else x.val lam

/-- `POOL`. -/
def execPool (t : Fin 1152) (s : State) : Host.Outcome State Fault Refusal :=
  s.next fun h => h.issueTod t.val 0x21 (todPool t.val)

/-- An operand element as a lane input: FP32 for the floating-point functions, INT32 for the others
(R129). -/
def laneIn (fn : Nat) (v : Val) : Nat := if bit fn 5 then toF32 v else (toInteger 32 0 .rne v).1

/-- Whether the conversion of an operand element to its lane overflows (R126, R127). -/
def laneOver (fn : Nat) (v : Val) : Bool := if bit fn 5 then f32over v else (toInteger 32 0 .rne v).2

/-- A lane result as an exact value. -/
def laneOut (fn w : Nat) : Val := if bit fn 5 then f32v w else Val.ofInt (sx 32 w)

/-- `ELTWISE` (R85, R91): FMA adds the old value of the output. -/
def todEltwise (t : Nat) (hd : Header) (d : List Byte) : T Unit := do
  let fn := bits hd.param 0 6
  need (fnLegal fn) (illegal fn)
  admit3 d [1] (if fnBinary fn then [1] else [0, 1]) [1]
  let a := opnd d 0
  let b := opnd d 1
  let o := opnd d 2
  let n := a.d0 * a.d1 * a.d2
  need (o.d0 * o.d1 * o.d2 == n) (descErr 2)
  need (! fnBinary fn || b.d0 * b.d1 * b.d2 == n) (descErr 1)
  let xs ← a.vals t hd.fmtA
  let ys ← if fnBinary fn then b.vals t hd.fmtB else pure []
  let zs ← if fn % 32 = 3 then o.vals t hd.fmtOut else pure []
  o.putOver t hd ((xs ++ ys ++ zs).any (laneOver fn)) ((List.range n).map fun i =>
    laneOut fn (laneFn 0 fn (laneIn fn (xs.getD i Val.zero)) (laneIn fn (ys.getD i Val.zero))
      (laneIn fn (zs.getD i Val.zero))))

/-- `ELTWISE`. -/
def execEltwise (t : Fin 1152) (s : State) : Host.Outcome State Fault Refusal :=
  s.next fun h => h.issueTod t.val 0x22 (todEltwise t.val)

/-- The words of a lookup table; one never loaded holds zeros. -/
def Tile.lut (x : Tile) (i : Nat) : List Nat := (x.luts.find i).getD []

/-- `ACT` (R85, R94, R125). -/
def todAct (t : Nat) (hd : Header) (d : List Byte) : T Unit := do
  admit3 d [1, 3] [0] [1]
  let a := opnd d 0
  let o := opnd d 2
  let n := if a.kind = 3 then a.d0 * a.d1 else a.d0 * a.d1 * a.d2
  need (o.d0 * o.d1 * o.d2 == n) (descErr 2)
  let xs ← if a.kind = 3 then do
      let lam ← levelT t hd
      let x := (← get).tile t
      pure ((List.range n).map fun i => (x.acc (a.acc + i)).val lam)
    else a.vals t hd.fmtA
  let ws := ((← get).tile t).lut (bits hd.param 0 3)
  o.putOver t hd (xs.any f32over) (xs.map fun v => f32v (lutApply ws (toF32 v)))

/-- `ACT`. -/
def execAct (t : Fin 1152) (s : State) : Host.Outcome State Fault Refusal :=
  s.next fun h => h.issueTod t.val 0x23 (todAct t.val)

/-- Sum of FP32 encodings in element order (R122). -/
def f32sum : List Nat → Nat
  | [] => 0
  | x :: xs => xs.foldl f32add x

/-- Normalisation of one row in FP32, in element order (R85, R122; log entry 21). -/
def normRow (rms : Bool) (eps : Nat) (xs g b : List Nat) : List Nat :=
  let n := f32nat xs.length
  let mean := f32div (f32sum xs) n
  let ys := if rms then xs else xs.map fun x => f32sub x mean
  let var := f32div (f32sum (ys.map fun y => f32mul y y)) n
  let r := fp32.lane ((f32v (f32add var eps)).rsqrt)
  (List.range ys.length).map fun i => f32fma (f32mul (ys.getD i 0) r) (g.getD i 0) (b.getD i 0)

/-- `NORM` (R85, R122): γ is row 0 of B and β row 1; a B of one row has β zero (log entry 21). -/
def todNorm (t : Nat) (hd : Header) (d : List Byte) : T Unit := do
  admit3 d [1] [1] [1]
  let a := opnd d 0
  let b := opnd d 1
  let o := opnd d 2
  need (b.d0 == a.d0) (descErr 1)
  need (o.d0 == a.d0 && o.d1 * o.d2 == a.d1 * a.d2) (descErr 2)
  let ra ← a.valRows t hd.fmtA
  let rb ← b.valRows t hd.fmtB
  let f (l : List Val) : List Nat := l.map toF32
  o.putOver t hd ((ra ++ rb.take 2).any fun r => r.any f32over) ((ra.flatMap fun r =>
    normRow (bit hd.param 0) (bits hd.param 32 32) (f r) (f (rb.getD 0 [])) (f (rb.getD 1 []))).map f32v)

/-- `NORM`. -/
def execNorm (t : Fin 1152) (s : State) : Host.Outcome State Fault Refusal :=
  s.next fun h => h.issueTod t.val 0x24 (todNorm t.val)

/-- e^x in FP32 by `EXP2` of x × log2 e, with the constant of R253. -/
def f32exp (x : Nat) : Nat := fp32.lane (f32v (f32mul x 0x3FB8AA3B)).exp2

/-- Softmax or its logarithm over one row in FP32 (R85, R122; log entry 21). -/
def softmaxRow (log : Bool) (xs : List Nat) : List Nat :=
  match xs with
  | [] => []
  | x :: rest =>
    let (m, s) := rest.foldl (fun (s : Nat × Nat) y =>
      let m := f32max s.1 y
      (m, f32add (f32mul s.2 (f32exp (f32sub s.1 m))) (f32exp (f32sub y m)))) (x, f32nat 1)
    if log then
      let ls := f32mul (fp32.lane (f32v s).log2) 0x3F317218
      xs.map fun y => f32sub (f32sub y m) ls
    else xs.map fun y => f32div (f32exp (f32sub y m)) s

/-- `SOFTMAX` (R85, R122). -/
def todSoftmax (t : Nat) (hd : Header) (d : List Byte) : T Unit := do
  admit3 d [1] [0] [1]
  let a := opnd d 0
  let o := opnd d 2
  need (o.d0 == a.d0 && o.d1 * o.d2 == a.d1 * a.d2) (descErr 2)
  let ra ← a.valRows t hd.fmtA
  o.putOver t hd (ra.any fun r => r.any f32over) ((ra.flatMap fun r => softmaxRow (bit hd.param 0) (r.map toF32)).map f32v)

/-- `SOFTMAX`. -/
def execSoftmax (t : Fin 1152) (s : State) : Host.Outcome State Fault Refusal :=
  s.next fun h => h.issueTod t.val 0x25 (todSoftmax t.val)

/-- The elements along an axis for every output of a reduction (R85). -/
def reduceTerms (axis d0 d1 d2 : Nat) (xs : List Val) : List (List Val) :=
  let n0 := if axis = 0 then 1 else d0
  let n1 := if axis = 1 then 1 else d1
  let n2 := if axis = 2 then 1 else d2
  let len := if axis = 0 then d0 else if axis = 1 then d1 else d2
  (List.range n2).flatMap fun k => (List.range n1).flatMap fun j => (List.range n0).map fun i =>
    (List.range len).map fun x =>
      let (i, j, k) := if axis = 0 then (x, j, k) else if axis = 1 then (i, x, k) else (i, j, x)
      xs.getD ((k * d1 + j) * d0 + i) Val.zero

/-- `REDUCE` (R85, R92, R624). -/
def todReduce (t : Nat) (hd : Header) (d : List Byte) : T Unit := do
  let op := bits hd.param 0 2
  let axis := bits hd.param 2 2
  need (op ≠ 3) (illegal op)
  need (axis ≠ 3) (illegal axis)
  admit3 d [1] [0] (if op = 0 then [1, 3] else [1])
  let a := opnd d 0
  let o := opnd d 2
  let ts := reduceTerms axis a.d0 a.d1 a.d2 (← a.vals t hd.fmtA)
  if op ≠ 0 then
    need (o.d0 * o.d1 * o.d2 == ts.length) (descErr 2)
    o.putVals t hd (ts.map (extreme (op == 1)))
  else
    let lam ← levelT t hd
    if o.kind = 3 then
      need (decide (ts.length + o.acc ≤ 1024)) (descErr 2)
      if hd.keep then pure () else clearAccs t o.acc ts.length
      addAccs t o.acc lam ts
    else
      need (o.d0 * o.d1 * o.d2 == ts.length) (descErr 2)
      workOut t hd o lam ts fun x => x.val lam

/-- `REDUCE`. -/
def execReduce (t : Fin 1152) (s : State) : Host.Outcome State Fault Refusal :=
  s.next fun h => h.issueTod t.val 0x26 (todReduce t.val)

/-- One row of values in `FMT_OUT` (R126 to R128, R131), its first element at position `e` of D: the encodings, the block
scales of an MX format, and `OVERFLOW`. -/
def convRow (hd : Header) (q : Seq) (e : Nat) (vs : List Val) : List Nat × List Byte × Bool :=
  let rv := (List.range vs.length).map fun i => (vs.getD i Val.zero, rndOf hd.sr q.seed (q.s.getD 13 0) (e + i))
  if isMx hd.fmtOut then
    let bl := (blocksOf (vs.length / 32) rv).map (toMxBlock hd.fmtOut)
    (bl.flatMap (·.2.1), bl.map (fun b => BitVec.ofNat 8 b.1), bl.any (·.2.2))
  else
    let es := rv.map fun v => toElem hd.fmtOut v.2 v.1
    (es.map (·.1), [], es.any (·.2))

/-- The rows of keys of a `TOPK` or `SORT` in `FMT_OUT` (log entry 22): those of row r stand in output row 2r. -/
def keyRows (hd : Header) (q : Seq) (d0 : Nat) (rows : List (List (Val × Nat))) : List (List Nat × List Byte × Bool) :=
  (List.range rows.length).map fun r => convRow hd q (2 * r * d0) ((rows.getD r []).map (·.1))

/-- Writes rows of keys and payloads (log entry 22): output row 2r holds the keys of row r in `FMT_OUT`,
row 2r + 1 their payloads as encodings of `FMT_B` cut to the width of `FMT_OUT`; block scales are written for the keys. -/
def putKeyed (t : Nat) (hd : Header) (o : Opnd) (rows : List (List (Val × Nat))) : T Unit := do
  o.packs hd.fmtOut
  let es := keyRows hd ((← get).tile t).seq o.d0 rows
  flagsT t false (es.any (·.2.2))
  o.putEncs t hd.fmtOut ((List.range rows.length).flatMap fun i =>
    ((es.getD i ([], [], false)).1) ++ (rows.getD i []).map fun e => e.2 % 2 ^ fmtBits hd.fmtOut)
  if isMx hd.fmtOut then
    wrRows t ((List.range rows.length).map fun i =>
      (o.scale * 32 + 2 * i * (o.d0 / 32), withStain false (es.getD i ([], [], false)).2.1))
  else pure ()

/-- The rows of keys with their payloads. -/
def keyedRows (t : Nat) (hd : Header) (a b : Opnd) : T (List (List (Val × Nat))) := do
  need (b.d0 == a.d0 && b.d1 * b.d2 == a.d1 * a.d2) (descErr 1)
  let ks ← a.valRows t hd.fmtA
  let ps ← b.encs t hd.fmtB
  pure ((List.range ks.length).map fun r => (ks.getD r []).zip ((ps.drop (r * a.d0)).take a.d0))

/-- `TOPK` (R85): the largest `K` keys of each row with their payloads; a row with fewer keys is filled up with zero keys
and payloads (DESIGN CHOICE, log entry 50). -/
def todTopk (t : Nat) (hd : Header) (d : List Byte) : T Unit := do
  admit3 d [1] [1] [1]
  let a := opnd d 0
  let o := opnd d 2
  let k := bits hd.param 0 11
  need (decide (1 ≤ k) && decide (k ≤ 1024)) (descErr 2)
  need (o.d0 == k && o.d1 * o.d2 == 2 * (a.d1 * a.d2)) (descErr 2)
  let rows ← keyedRows t hd a (opnd d 1)
  putKeyed t hd o (rows.map fun r =>
    (sortKeys true r).take k ++ List.replicate (k - r.length) (Val.zero, 0))

/-- `TOPK`. -/
def execTopk (t : Fin 1152) (s : State) : Host.Outcome State Fault Refusal :=
  s.next fun h => h.issueTod t.val 0x27 (todTopk t.val)

/-- `SORT` (R85): stable sort of each row by key. -/
def todSort (t : Nat) (hd : Header) (d : List Byte) : T Unit := do
  admit3 d [1] [1] [1]
  let a := opnd d 0
  let o := opnd d 2
  need (o.d0 == a.d0 && o.d1 * o.d2 == 2 * (a.d1 * a.d2)) (descErr 2)
  let rows ← keyedRows t hd a (opnd d 1)
  putKeyed t hd o (rows.map (sortKeys (bit hd.param 0)))

/-- `SORT`. -/
def execSort (t : Fin 1152) (s : State) : Host.Outcome State Fault Refusal :=
  s.next fun h => h.issueTod t.val 0x28 (todSort t.val)

/-- Conversion of A to `FMT_OUT` (R129). -/
def convertT (t : Nat) (hd : Header) (d : List Byte) : T Unit := do
  admit3 d [1] [0] [1]
  let a := opnd d 0
  let o := opnd d 2
  need (o.d0 * o.d1 * o.d2 == a.d0 * a.d1 * a.d2) (descErr 2)
  o.putVals t hd (← a.vals t hd.fmtA)

/-- Whether a format code is INT4, INT8, INT32 or MX. -/
def mxOrInt (c : Nat) : Bool := decide (c ≤ 2) || isMx c

/-- `QUANT` (R85, R128). -/
def todQuant (t : Nat) (hd : Header) (d : List Byte) : T Unit := do
  need (mxOrInt hd.fmtOut) (descErr 2)
  convertT t hd d

/-- `QUANT`. -/
def execQuant (t : Fin 1152) (s : State) : Host.Outcome State Fault Refusal :=
  s.next fun h => h.issueTod t.val 0x29 (todQuant t.val)

/-- `DEQUANT` (R85, R129). -/
def todDequant (t : Nat) (hd : Header) (d : List Byte) : T Unit := do
  need (mxOrInt hd.fmtA) (descErr 0)
  convertT t hd d

/-- `DEQUANT`. -/
def execDequant (t : Fin 1152) (s : State) : Host.Outcome State Fault Refusal :=
  s.next fun h => h.issueTod t.val 0x2A (todDequant t.val)

/-- `CONVERT` (R85, R129). -/
def execConvert (t : Fin 1152) (s : State) : Host.Outcome State Fault Refusal :=
  s.next fun h => h.issueTod t.val 0x2F (convertT t.val)

/-- The encodings of a row with the stain of the bytes that each lies in. -/
def unpackS (c n : Nat) (bs : List SByte) : List (Nat × Bool) :=
  let es := unpack c n (bs.map (·.1))
  let b := fmtBits c
  (List.range n).map fun i =>
    (es.getD i 0, (upto (i * b / 8) (((i + 1) * b - 1) / 8 + 1 - i * b / 8)).any fun j => (bs.getD j (0, false)).2)

/-- The bytes of a row of stained encodings: a byte that receives any stained element is stained
(R105). -/
def packS (c : Nat) (es : List (Nat × Bool)) : List SByte :=
  let bs := pack c (es.map (·.1))
  let b := fmtBits c
  (List.range bs.length).map fun j =>
    (bs.getD j 0, (upto (8 * j / b) ((8 * j + 7) / b + 1 - 8 * j / b)).any fun i => (es.getD i (0, false)).2)

/-- `TRANSPOSE` (R85, R105): swaps `DIM0` and `DIM1` of each plane, moving encodings with their stain. -/
def todTranspose (t : Nat) (hd : Header) (d : List Byte) : T Unit := do
  admit3 d [1] [0] [1]
  let a := opnd d 0
  let o := opnd d 2
  need (o.d0 == a.d1 && o.d1 == a.d0 && o.d2 == a.d2) (descErr 2)
  a.packs hd.fmtA
  o.packs hd.fmtA
  let ad ← a.addr t
  let od ← o.addr t
  let rows ← a.rowOffs.mapM fun r => do
    pure (unpackS hd.fmtA a.d0 (← rdT t (ad + r) (rowLen hd.fmtA a.d0)))
  wrRows t ((List.range o.d2).flatMap fun k => (List.range o.d1).map fun j =>
    (od + j * o.s1 + 32 * k * o.s2,
      packS hd.fmtA ((List.range o.d0).map fun i => (rows.getD (k * a.d1 + i) []).getD j (0, false))))

/-- `TRANSPOSE`. -/
def execTranspose (t : Fin 1152) (s : State) : Host.Outcome State Fault Refusal :=
  s.next fun h => h.issueTod t.val 0x2B (todTranspose t.val)

/-- An index as an integer. -/
def indexOf (v : Val) : Int := v.floor

/-- The values of one table row at an index (log entry 23): row i of the operand, `STRIDE1` apart. -/
def Opnd.rowAt (o : Opnd) (t c : Nat) (i : Int) : T (List Val) := do
  o.packs c
  let a ← o.addr t
  let r : Int := a + i * o.s1
  let bs ← useT t (unsx 32 r) (rowLen c o.d0)
  let es := unpack c o.d0 bs
  if isMx c then
    let sc ← useT t (unsx 32 ((o.scale * 32 : Nat) + i * (o.d0 / 32 : Nat))) (o.d0 / 32)
    pure ((List.range es.length).map fun k => scaled ((sc.getD (k / 32) 0).toNat) (elemVal c (es.getD k 0)))
  else pure (es.map (elemVal c))

/-- `GATHER` (R85): row i of D is the row of the table that index i names. -/
def todGather (t : Nat) (hd : Header) (d : List Byte) : T Unit := do
  admit3 d [1] [1] [1]
  let a := opnd d 0
  let b := opnd d 1
  let o := opnd d 2
  let is ← b.vals t hd.fmtB
  need (o.d0 * o.d1 * o.d2 == a.d0 * is.length) (descErr 2)
  let rows ← is.mapM fun i => a.rowAt t hd.fmtA (indexOf i)
  o.putVals t hd rows.flatten

/-- `GATHER`. -/
def execGather (t : Fin 1152) (s : State) : Host.Outcome State Fault Refusal :=
  s.next fun h => h.issueTod t.val 0x2C (todGather t.val)

/-- The indices of a scatter, each once, in order of first use. -/
def distinct (l : List Int) : List Int := l.foldl (fun m i => if m.contains i then m else m ++ [i]) []

/-- Writes a table row at an index. -/
def Opnd.putRowAt (o : Opnd) (t : Nat) (hd : Header) (i : Int) (vs : List Val) : T Unit := do
  let a ← o.addr t
  o.packs hd.fmtOut
  let (es, sc, ov) := convRow hd ((← get).tile t).seq (i.toNat * o.d0) vs
  wrT t (unsx 32 ((a : Int) + i * o.s1)) (withStain false (pack hd.fmtOut es))
  if isMx hd.fmtOut then wrT t (unsx 32 ((o.scale * 32 : Nat) + i * (o.d0 / 32 : Nat))) (withStain false sc) else pure ()
  flagsT t false ov

/-- `SCATTER` (R85, R624): rows of A are combined with the rows of the table that the indices name, in
index order; ADD starts each touched entry's working accumulator from its existing value and writes it
once, but for `ACC_HOLD`, which leaves D as it is (R125). -/
def todScatter (t : Nat) (hd : Header) (d : List Byte) : T Unit := do
  let mode := bits hd.param 0 2
  need (mode ≠ 3) (illegal mode)
  admit3 d [1] [1] [1]
  let a := opnd d 0
  let b := opnd d 1
  let o := opnd d 2
  need (o.d0 == a.d0) (descErr 2)
  let ra ← a.valRows t hd.fmtA
  let is := (← b.vals t hd.fmtB).map indexOf
  need (is.length == ra.length) (descErr 1)
  let pairs := is.zip ra
  let lam ← if mode = 1 then levelT t hd else pure 0
  (distinct is).forM fun i => do
    let rows := (pairs.filter fun p => p.1 == i).map (·.2)
    if mode = 0 then o.putRowAt t hd i (rows.getLastD [])
    else
      let old ← o.rowAt t hd.fmtOut i
      let cols := (List.range o.d0).map fun e => (old :: rows).map fun r => r.getD e Val.zero
      if mode = 2 then o.putRowAt t hd i (cols.map (extreme true))
      else
        let rs := cols.map (Acc.zero.addTerms lam)
        if hd.hold then flagsT t (rs.any (·.2)) false
        else
          o.packs hd.fmtOut
          flagsT t (rs.any (·.2)) false
          o.putRowAt t hd i (rs.map fun r => r.1.val lam)

/-- `SCATTER`. -/
def execScatter (t : Fin 1152) (s : State) : Host.Outcome State Fault Refusal :=
  s.next fun h => h.issueTod t.val 0x2D (todScatter t.val)

/-- Complex values from interleaved real and imaginary parts (log entry 21). -/
def pairsOf (xs : List Val) : List Cx :=
  (List.range (xs.length / 2)).map fun i => (toF32 (xs.getD (2 * i) Val.zero), toF32 (xs.getD (2 * i + 1) Val.zero))

/-- `FFT` (R85, R122, R292; log entry 21): each `DIM1` row, or with `TWO_D` each plane, is one transform of
interleaved complex values. -/
def todFft (t : Nat) (hd : Header) (d : List Byte) : T Unit := do
  admit3 d [1] [0] [1]
  let a := opnd d 0
  let o := opnd d 2
  let b := bits hd.param 0 3
  let two := bit hd.param 3
  let inv := bit hd.param 4
  need (decide (1 ≤ b) && decide (b ≤ 6)) (descErr 0)
  let n := 2 ^ b
  need (a.d0 == 2 * n && (! two || a.d1 == n)) (descErr 0)
  need (o.d0 == a.d0 && o.d1 * o.d2 == a.d1 * a.d2) (descErr 2)
  let xs ← a.vals t hd.fmtA
  let m := if two then n * n else n
  let sc := if two then 2 * b else b
  let zs := (rowsOf (xs.length / (2 * m)) m (pairsOf xs)).flatMap fun z =>
    let y := if two then fft2 b inv z else fft1 b inv z
    if inv then y.map (cxScale sc) else y
  o.putOver t hd (xs.any f32over) (zs.flatMap fun z => [f32v z.1, f32v z.2])

/-- `FFT`. -/
def execFft (t : Fin 1152) (s : State) : Host.Outcome State Fault Refusal :=
  s.next fun h => h.issueTod t.val 0x2E (todFft t.val)

/-- `FILL` (R85, R105): each `DIM1` row receives the pattern from its first byte. -/
def todFill (t : Nat) (hd : Header) (d : List Byte) : T Unit := do
  admit3 d [0] [0] [1]
  let o := opnd d 2
  o.packs hd.fmtOut
  let a ← o.addr t
  let n := rowLen hd.fmtOut o.d0
  let pat := leBytes 4 (bits hd.param 32 32)
  let row := (List.range n).map fun i => (pat.getD (i % 4) 0, false)
  wrRows t (o.rowOffs.map fun r => (a + r, row))

/-- `FILL`. -/
def execFill (t : Fin 1152) (s : State) : Host.Outcome State Fault Refusal :=
  s.next fun h => h.issueTod t.val 0x31 (todFill t.val)

/-- `COPY` (R85, R105): a local copy that carries stain. -/
def todCopy (t : Nat) (hd : Header) (d : List Byte) : T Unit := do
  admit3 d [1] [0] [1]
  let a := opnd d 0
  let o := opnd d 2
  need (o.d0 == a.d0 && o.d1 * o.d2 == a.d1 * a.d2) (descErr 2)
  a.packs hd.fmtA
  let ad ← a.addr t
  let od ← o.addr t
  let n := rowLen hd.fmtA a.d0
  let src := a.rowOffs
  let dst := o.rowOffs
  let done ← (List.range src.length).mapM fun i => do
    let bs ← rdT t (ad + src.getD i 0) n
    wrRow t (od + dst.getD i 0) bs
  sealT t done

/-- `COPY`. -/
def execCopy (t : Fin 1152) (s : State) : Host.Outcome State Fault Refusal :=
  s.next fun h => h.issueTod t.val 0x30 (todCopy t.val)

end Sys2Proof.Machine
end

