-- ==== Sys2Proof/Machine/TviBase.lean ====
section
/-! DEFINITION. Issuing a TVI instruction (R89, R90, R95, R105): fetching it at the program counter, its
predicate, its fields, and the vector registers with their stain. -/

namespace Sys2Proof.Machine

open Sys2Proof

/-- Fields of a TVI instruction (R89). -/
def insnP (w : Nat) : Nat := bits w 6 3
def insnVd (w : Nat) : Nat := bits w 9 5
def insnVa (w : Nat) : Nat := bits w 14 5
def insnVb (w : Nat) : Nat := bits w 19 5
def insnW (w : Nat) : Nat := bits w 24 2
def insnFn (w : Nat) : Nat := bits w 26 6
def insnXSb (w : Nat) : Nat := bits w 19 4
def insnMSb (w : Nat) : Nat := bits w 14 4
def insnOff (w : Nat) : Nat := bits w 20 12
def insnSd (w : Nat) : Nat := bits w 9 4
def insnSa (w : Nat) : Nat := bits w 13 4
def insnSb (w : Nat) : Nat := bits w 17 4
def insnSFn (w : Nat) : Nat := bits w 21 11
def insnImm15 (w : Nat) : Int := sx 15 (bits w 17 15)
def insnImm16 (w : Nat) : Int := sx 16 (bits w 16 16)
def insnImm19 (w : Nat) : Nat := bits w 13 19
def insnBrSa (w : Nat) : Nat := bits w 9 4
def insnCond (w : Nat) : Nat := bits w 13 3

/-- A byte address moved by a signed number of bytes, in `n` bits. -/
def addSigned (n a : Nat) (d : Int) : Nat := unsx n ((a : Int) + d)

/-- The program counter moves on by one instruction. -/
def Hw.nextPc (h : Hw) (t : Nat) : Hw := h.modSeq t fun q => { q with pc := (q.pc + 4) % 2 ^ 19 }

/-- Whether an opcode's instructions are gated as a whole by bit 0 of their predicate (R89): the scalar
and control ones. -/
def isScalarOp (op : Nat) : Bool := (decide (0x10 ≤ op) && decide (op ≤ 0x18)) || (decide (0x1A ≤ op) && op ≠ 0x1D)

/-- Whether an opcode's format has the `W` field (R89, R90). -/
def hasW (op : Nat) : Bool := ! isScalarOp op && op ≠ 0x04 && op ≠ 0x05

/-- A fetched instruction issues.  `jump` marks the instructions that set the program counter
themselves. -/
def Hw.runTvi (h : Hw) (t w : Nat) (jump : Bool) (eff : Nat → T Unit) : Hw :=
  let op := bits w 0 6
  let q := (h.tile t).seq
  if isScalarOp op && ! bit (q.p.getD (insnP w) 0) 0 then h.nextPc t
  else if hasW op && insnW w == 3 then h.raiseExc t 1 3 w
  else settle t w (fun h => if jump then h else h.nextPc t) (fun _ h => h) (runT (eff w) h)

/-- The instruction at a tile's program counter issues, when its opcode is `op` (log entry 15).  A parity
error stops the tile (R101); a misaligned program counter raises `MISALIGN`, a stained instruction is consumed, an unlisted opcode
raises `ILLEGAL` (R90, R98, R105). -/
def Hw.issueTvi (h : Hw) (t op : Nat) (jump : Bool) (eff : Nat → T Unit) : Hw :=
  if h.tileRuns t true then
    match (h.tile t).slice with
    | none => h
    | some s =>
      let pc := (h.tile t).seq.pc
      if (h.tile t).parityBad then h.faultStop t 3
      else if pc % 4 ≠ 0 then h.raiseExc t 2 pc 0
      else
        let (bs, h') := h.rdSram t s.pid pc 4
        let w := leNat (bs.map (·.1))
        let o := bits w 0 6
        if bs.any (·.2) then h'.consume t
        else if o = 0 ∨ 0x20 ≤ o then h'.raiseExc t 1 o w
        else if o ≠ op then h
        else h'.runTvi t w jump eff
  else h

/-- The sequencer state of a tile. -/
def seqT (t : Nat) : T Seq := do pure ((← get).tile t).seq

/-- Whether lane `i` is enabled by an instruction's predicate. -/
def Seq.lane (q : Seq) (w i : Nat) : Bool := bit (q.p.getD (insnP w) 0) i

/-- Lane `i` of `n` bits of a vector register. -/
def Seq.vlane (q : Seq) (v n i : Nat) : Nat := bits (q.v.getD 0 v) (n * i) n

/-- The 32-byte segment that holds lane `i` of `n` bits. -/
def segOf (n i : Nat) : Nat := n * i / 256

/-- Whether a lane of a vector register is stained. -/
def Seq.vstained (q : Seq) (v n i : Nat) : Bool := bit (q.vStain.getD 0 v) (segOf n i)

/-- Reads a lane as arithmetic or as an address. -/
def useLane (t v n i : Nat) : T Nat := do
  let q ← seqT t
  useClean (q.vstained v n i)
  pure (q.vlane v n i)

/-- Reads a scalar as arithmetic, as an address or as control. -/
def useS (t i : Nat) : T Nat := do
  let (v, st) := (← seqT t).scalar i
  useClean st
  pure v

/-- The stain of a register's segments after lanes of `n` bits have been written with these stains: a
segment that receives stain is stained, one that is written whole without stain is cleared, one written
in part is as it was. -/
def segStain (old n : Nat) (ws : List (Nat × Bool)) : Nat :=
  mask 8 fun s =>
    let here := ws.filter fun e => segOf n e.1 == s
    here.any (·.2) || (bit old s && ! decide (256 ≤ here.length * n))

/-- Writes lanes of `n` bits of a vector register: lane, value, stain. -/
def setLanes (t v n : Nat) (ws : List (Nat × Nat × Bool)) : T Unit :=
  modify fun h => h.modSeq t fun q =>
    { q with v := SMap.putD 0 q.v v (ws.foldl (fun r e => setBits r (n * e.1) n e.2.1) (q.v.getD 0 v))
             vStain := SMap.putD 0 q.vStain v (segStain (q.vStain.getD 0 v) n (ws.map fun e => (e.1, e.2.2))) }

/-- The enabled lanes of an instruction among `k` lanes. -/
def enabled (t w k : Nat) : T (List Nat) := do
  let q ← seqT t
  pure ((List.range k).filter (q.lane w))

/-- Computes every enabled lane and writes the results, unstained. -/
def mapLanes (t w v n k : Nat) (f : Nat → T Nat) : T Unit := do
  let is ← enabled t w k
  let rs ← is.mapM fun i => do pure (i, (← f i) % 2 ^ n, false)
  setLanes t v n rs

/-- Sets a predicate register; a write to p0 is discarded (R95). -/
def setP (t i v : Nat) : T Unit :=
  if i = 0 then pure ()
  else modify fun h => h.modSeq t fun q => { q with p := q.p.set i (v % 2 ^ 128) }

/-- Sets the program counter. -/
def setPc (t v : Nat) : T Unit := modify fun h => h.modSeq t fun q => { q with pc := v % 2 ^ 19 }

end Sys2Proof.Machine
end

