-- ==== Sys2Proof/Machine/TviScalar.lean ====
section
/-! DEFINITION. The scalar and control instructions of TVI (R90, R93, R96, R97, R99). -/

namespace Sys2Proof.Machine

open Sys2Proof

/-- `SALU` (R90, R93). -/
def tviSalu (t w : Nat) : T Unit := do
  let fn := insnSFn w
  let d := insnSd w
  if fn ≤ 12 then
    let a ← useS t (insnSa w)
    let b ← useS t (insnSb w)
    setS t d ((saluFn fn a b).getD 0) false
  else if fn = 18 then setS t d (← seqT t).vsp false
  else if fn = 21 then
    let q ← seqT t
    setS t d (b2n q.inexact + 2 * b2n q.overflow) false
  else
    need (decide (16 ≤ fn) && decide (fn ≤ 20)) (illegal fn)
    let a ← useS t (insnSa w)
    modify fun h => h.modSeq t fun q =>
      if fn = 16 then { q with lc := q.lc.set (d % 4) (a % 2 ^ 16) }
      else if fn = 17 then { q with vsp := a % 2 ^ 19 }
      else if fn = 19 then { q with acb := a % 2 ^ 10 }
      else { q with exb := a % 2 ^ 19 }

/-- `SALU`. -/
def execSalu (t : Fin 1152) (s : State) : Host.Outcome State Fault Refusal :=
  s.next fun h => h.issueTvi t.val 0x10 false (tviSalu t.val)

/-- `SADDI` (R90); a stained scalar is consumed, as `SALU` does (DESIGN CHOICE, log entry 50). -/
def tviSaddi (t w : Nat) : T Unit := do
  let a ← useS t (insnSa w)
  setS t (insnSd w) (addSigned 32 a (insnImm15 w)) false

/-- `SADDI`. -/
def execSaddi (t : Fin 1152) (s : State) : Host.Outcome State Fault Refusal :=
  s.next fun h => h.issueTvi t.val 0x11 false (tviSaddi t.val)

/-- `SLUI` (R90). -/
def tviSlui (t w : Nat) : T Unit := setS t (insnSd w) (insnImm19 w * 8192) false

/-- `SLUI`. -/
def execSlui (t : Fin 1152) (s : State) : Host.Outcome State Fault Refusal :=
  s.next fun h => h.issueTvi t.val 0x12 false (tviSlui t.val)

/-- The word address of `SLD` and `SST`: a multiple of 4 (R98). -/
def siAddr (t w : Nat) : T Nat := do
  let a := addSigned 32 (← useS t (insnSa w)) (insnImm15 w)
  need (a % 4 == 0) (.exc 2 a)
  pure a

/-- `SLD` (R90): the register takes the word's stain. -/
def tviSld (t w : Nat) : T Unit := do
  let a ← siAddr t w
  let x ← rdT t a 4
  setS t (insnSd w) (leNat (x.map (·.1))) (x.any (·.2))

/-- `SLD`. -/
def execSld (t : Fin 1152) (s : State) : Host.Outcome State Fault Refusal :=
  s.next fun h => h.issueTvi t.val 0x13 false (tviSld t.val)

/-- `SST` (R90): the word takes the register's stain. -/
def tviSst (t w : Nat) : T Unit := do
  let a ← siAddr t w
  let (v, st) := (← seqT t).scalar (insnSd w)
  wrT t a (withStain st (leBytes 4 v))

/-- `SST`. -/
def execSst (t : Fin 1152) (s : State) : Host.Outcome State Fault Refusal :=
  s.next fun h => h.issueTvi t.val 0x14 false (tviSst t.val)

/-- Whether the condition of a `BR` holds for a scalar (R90). -/
def condHolds (c v : Nat) : Bool :=
  let i := sx 32 v
  match c with
  | 0 => decide (i = 0)
  | 1 => decide (i ≠ 0)
  | 2 => decide (i < 0)
  | 3 => decide (0 ≤ i)
  | 4 => decide (0 < i)
  | _ => decide (i ≤ 0)

/-- Moves the program counter by a signed number of instructions. -/
def jumpBy (t : Nat) (d : Int) : T Unit := do
  setPc t (addSigned 19 (← seqT t).pc (4 * d))

/-- `BR` (R90). -/
def tviBr (t w : Nat) : T Unit := do
  let c := insnCond w
  let d := insnImm16 w
  need (c ≠ 7) (illegal c)
  if c = 6 then
    let i := insnBrSa w % 4
    let n := ((← seqT t).lc.getD i 0 + 65535) % 65536
    modify fun h => h.modSeq t fun q => { q with lc := q.lc.set i n }
    jumpBy t (if n ≠ 0 then d else 1)
  else
    let v ← useS t (insnBrSa w)
    jumpBy t (if condHolds c v then d else 1)

/-- `BR`. -/
def execBr (t : Fin 1152) (s : State) : Host.Outcome State Fault Refusal :=
  s.next fun h => h.issueTvi t.val 0x15 true (tviBr t.val)

/-- `JMP` (R90). -/
def tviJmp (t w : Nat) : T Unit := jumpBy t (sx 19 (insnImm19 w))

/-- `JMP`. -/
def execJmp (t : Fin 1152) (s : State) : Host.Outcome State Fault Refusal :=
  s.next fun h => h.issueTvi t.val 0x16 true (tviJmp t.val)

/-- The 32 bytes of a call frame (R97). -/
def callFrame (q : Seq) : List Byte :=
  leBytes 1 1 ++ leBytes 1 0 ++ leBytes 2 q.todIdx ++ leBytes 4 ((q.pc + 4) % 2 ^ 19) ++
    q.lc.flatMap (leBytes 2) ++ zeros 16

/-- `CALL` (R90, R96, R97). -/
def tviCall (t w : Nat) : T Unit := do
  let q ← seqT t
  need (q.canPush 32) (.fault 1)
  wrT t (q.vsp - 32) (withStain false (callFrame q))
  modify fun h => h.modSeq t fun q => { q with vsp := q.vsp - 32 }
  jumpBy t (sx 19 (insnImm19 w))

/-- `CALL`. -/
def execCall (t : Fin 1152) (s : State) : Host.Outcome State Fault Refusal :=
  s.next fun h => h.issueTvi t.val 0x17 true (tviCall t.val)

/-- Reads the frame at `VSP` of a size and type (R96, R97). -/
def popFrame (t size type : Nat) : T (List SByte) := do
  let q ← seqT t
  need (q.canPop size) (.fault 1)
  let fr ← rdT t q.vsp size
  useClean ((fr.take 16).any (·.2))
  let bs := fr.map (·.1)
  need (field bs 0 1 == type) (illegal (field bs 0 1))
  pure fr

/-- `RET` (R90, R96, R97): the program goes on at the return address. -/
def tviRet (t _w : Nat) : T Unit := do
  let fr ← popFrame t 32 1
  modify fun h => h.modSeq t fun q => { q with vsp := q.vsp + 32 }
  setPc t (field (fr.map (·.1)) 4 4)

/-- `RET`. -/
def execRet (t : Fin 1152) (s : State) : Host.Outcome State Fault Refusal :=
  s.next fun h => h.issueTvi t.val 0x18 true (tviRet t.val)

/-- `TRAP` (R90, R98). -/
def tviTrap (_t w : Nat) : T Unit := throw (.exc 5 (insnImm19 w))

/-- `TRAP`. -/
def execTrap (t : Fin 1152) (s : State) : Host.Outcome State Fault Refusal :=
  s.next fun h => h.issueTvi t.val 0x1A true (tviTrap t.val)

/-- `XRET` (R90, R97, R99). -/
def tviXret (t _w : Nat) : T Unit := do
  let fr ← popFrame t 64 2
  let bs := fr.map (·.1)
  let idx := field bs 2 2 % 4096
  let pc := field bs 4 4 % 2 ^ 19
  let sv (k : Nat) : Nat × Bool :=
    (field bs (24 + 4 * k) 4, ((fr.drop (24 + 4 * k)).take 4).any (·.2))
  (List.range 4).forM fun k => setS t (k + 1) (sv k).1 (sv k).2
  modify fun h => h.modSeq t fun q =>
    let q := { q with vsp := q.vsp + 64, xlive := false
                      lc := (List.range 4).map fun k => field bs (8 + 2 * k) 2 }
    if pc ≠ 0 then
      { q with pc := (pc + 4) % 2 ^ 19, todIdx := idx
               afterProg := if idx = q.todIdx then q.afterProg else (idx + 1) % 4096 }
    else { q with todIdx := (idx + 1) % 4096, inProg := false }

/-- `XRET`. -/
def execXret (t : Fin 1152) (s : State) : Host.Outcome State Fault Refusal :=
  s.next fun h => h.issueTvi t.val 0x1B true (tviXret t.val)

/-- `ABORT` (R90, R99): the slice is abandoned with the code of the exception that the handler runs
for, or 0 outside a handler (log entry 26). -/
def tviAbort (t _w : Nat) : T Unit :=
  modify fun h => h.abandon t (if (h.tile t).seq.xlive then (h.tile t).seq.excCause else 0)

/-- `ABORT`. -/
def execAbort (t : Fin 1152) (s : State) : Host.Outcome State Fault Refusal :=
  s.next fun h => h.issueTvi t.val 0x1C true (tviAbort t.val)

/-- `HALT` (R90): TOD issue resumes. -/
def tviHalt (t _w : Nat) : T Unit :=
  modify fun h => h.modSeq t fun q => { q with inProg := false, todIdx := q.afterProg }

/-- `HALT`. -/
def execHalt (t : Fin 1152) (s : State) : Host.Outcome State Fault Refusal :=
  s.next fun h => h.issueTvi t.val 0x1E true (tviHalt t.val)

/-- `NOP` of TVI (R90). -/
def execTviNop (t : Fin 1152) (s : State) : Host.Outcome State Fault Refusal :=
  s.next fun h => h.issueTvi t.val 0x1F false fun _ => pure ()

end Sys2Proof.Machine
end

