-- ==== Sys2Proof/Machine/TviVec.lean ====
section
/-! DEFINITION. The vector instructions of TVI (R90 to R94, R121, R129). -/

namespace Sys2Proof.Machine

open Sys2Proof

/-- A lane function over va and a second operand (R91): FMA also reads the old vd. -/
def valuLanes (t w : Nat) (second : Nat → T Nat) : T Unit := do
  let wc := insnW w
  let fn := insnFn w
  need (fnLegal fn) (illegal fn)
  let n := laneBits wc
  mapLanes t w (insnVd w) n (laneCount wc) fun i => do
    let a ← useLane t (insnVa w) n i
    let b ← if fnBinary fn then second i else pure 0
    let c ← if fn % 32 == 3 then useLane t (insnVd w) n i else pure 0
    pure (laneFn wc fn a b c)

/-- `VALU` (R90, R91). -/
def tviValu (t w : Nat) : T Unit := valuLanes t w fun i => useLane t (insnVb w) (laneBits (insnW w)) i

/-- `VALU`. -/
def execValu (t : Fin 1152) (s : State) : Host.Outcome State Fault Refusal :=
  s.next fun h => h.issueTvi t.val 0x01 false (tviValu t.val)

/-- `VALUX` (R90, R91). -/
def tviValux (t w : Nat) : T Unit :=
  valuLanes t w fun _ => do pure ((← useS t (insnXSb w)) % 2 ^ laneBits (insnW w))

/-- `VALUX`. -/
def execValux (t : Fin 1152) (s : State) : Host.Outcome State Fault Refusal :=
  s.next fun h => h.issueTvi t.val 0x02 false (tviValux t.val)

/-- The relations of `VCMP` (R90), signed for integers. -/
def relation (k : Nat) (fp : Bool) (wc a b : Nat) : Bool :=
  let f := laneFp wc
  let n := laneBits wc
  let eq := if fp then (f.decode a).eq (f.decode b) else a == b
  let lt := if fp then (f.decode a).lt (f.decode b) else decide (sx n a < sx n b)
  match k with
  | 0 => eq
  | 1 => ! eq
  | 2 => lt
  | _ => lt || eq

/-- `VCMP` (R90). -/
def tviVcmp (t w : Nat) : T Unit := do
  let wc := insnW w
  let n := laneBits wc
  let is ← enabled t w (laneCount wc)
  let rs ← is.mapM fun i => do
    let a ← useLane t (insnVa w) n i
    let b ← useLane t (insnVb w) n i
    pure (i, relation (insnFn w % 4) (bit (insnFn w) 5) wc a b)
  let d := insnVd w % 8
  setP t d (rs.foldl (fun p r => setBits p r.1 1 (b2n r.2)) ((← seqT t).p.getD d 0))

/-- `VCMP`. -/
def execVcmp (t : Fin 1152) (s : State) : Host.Outcome State Fault Refusal :=
  s.next fun h => h.issueTvi t.val 0x03 false (tviVcmp t.val)

/-- The base of a `VLD` or `VST`, and the address with its offset: the base is a multiple of 32 (R98). -/
def vmAddr (t w : Nat) : T Nat := do
  let b ← useS t (insnMSb w)
  need (b % 32 == 0) (.exc 2 b)
  pure ((b + 32 * insnOff w) % 2 ^ 32)

/-- `VLD` (R90): 64 words; disabled 32-bit lanes keep their value. -/
def tviVld (t w : Nat) : T Unit := do
  let a ← vmAddr t w
  let bs ← rdT t a 256
  let is ← enabled t w 64
  setLanes t (insnVd w) 32 (is.map fun i =>
    let x := (bs.drop (4 * i)).take 4
    (i, leNat (x.map (·.1)), x.any (·.2)))

/-- `VLD`. -/
def execVld (t : Fin 1152) (s : State) : Host.Outcome State Fault Refusal :=
  s.next fun h => h.issueTvi t.val 0x04 false (tviVld t.val)

/-- `VST` (R90): the enabled 32-bit lanes are stored. -/
def tviVst (t w : Nat) : T Unit := do
  let a ← vmAddr t w
  let q ← seqT t
  let v := insnVd w
  let is ← enabled t w 64
  wrRows t (is.map fun i => (a + 4 * i, withStain (q.vstained v 32 i) (leBytes 4 (q.vlane v 32 i))))

/-- `VST`. -/
def execVst (t : Fin 1152) (s : State) : Host.Outcome State Fault Refusal :=
  s.next fun h => h.issueTvi t.val 0x05 false (tviVst t.val)

/-- The word addresses of the enabled lanes: each a multiple of 4 (R98). -/
def wordAddrs (t w : Nat) : T (List (Nat × Nat)) := do
  let is ← enabled t w 64
  is.mapM fun i => do
    let a ← useLane t (insnVa w) 32 i
    need (a % 4 == 0) (.exc 2 a)
    pure (i, a)

/-- `VGATH` (R90); the words carry their stain. -/
def tviVgath (t w : Nat) : T Unit := do
  let as ← wordAddrs t w
  let ws ← as.mapM fun (i, a) => do
    let x ← rdT t a 4
    pure (i, leNat (x.map (·.1)), x.any (·.2))
  setLanes t (insnVd w) 32 ws

/-- `VGATH`. -/
def execVgath (t : Fin 1152) (s : State) : Host.Outcome State Fault Refusal :=
  s.next fun h => h.issueTvi t.val 0x06 false (tviVgath t.val)

/-- `VSCAT` (R90): in lane order. -/
def tviVscat (t w : Nat) : T Unit := do
  let as ← wordAddrs t w
  let q ← seqT t
  let v := insnVb w
  wrRows t (as.map fun e => (e.2, withStain (q.vstained v 32 e.1) (leBytes 4 (q.vlane v 32 e.1))))

/-- `VSCAT`. -/
def execVscat (t : Fin 1152) (s : State) : Host.Outcome State Fault Refusal :=
  s.next fun h => h.issueTvi t.val 0x07 false (tviVscat t.val)

/-- The exact value of a lane: floating point or a signed integer. -/
def laneVal (fp : Bool) (wc a : Nat) : Val :=
  if fp then (laneFp wc).decode a else Val.ofInt (sx (laneBits wc) a)

/-- The level of the running TVI program. -/
def vlevelT (t : Nat) : T Int := do pure (sx 8 (← seqT t).vlevel)

/-- `VMACC` (R90, R121): `FN` bit 5 selects floating point (log entry 26). -/
def tviVmacc (t w : Nat) : T Unit := do
  let wc := insnW w
  let n := laneBits wc
  let fp := bit (insnFn w) 5
  let lam ← vlevelT t
  let acb := (← seqT t).acb
  let is ← enabled t w (laneCount wc)
  let ps ← is.mapM fun i => do
    let a ← useLane t (insnVa w) n i
    let b ← useLane t (insnVb w) n i
    pure (i, (laneVal fp wc a).mul (laneVal fp wc b))
  ps.forM fun (i, p) => addAccs t ((acb + i) % 1024) lam [[p]]

/-- `VMACC`. -/
def execVmacc (t : Fin 1152) (s : State) : Host.Outcome State Fault Refusal :=
  s.next fun h => h.issueTvi t.val 0x08 false (tviVmacc t.val)

/-- `VRED` (R90, R92, R121): floating-point lanes (log entry 26). -/
def tviVred (t w : Nat) : T Unit := do
  let wc := insnW w
  let n := laneBits wc
  let fn := insnFn w
  need (decide (fn ≤ 2)) (illegal fn)
  let is ← enabled t w (laneCount wc)
  let vs ← is.mapM fun i => do pure (laneVal true wc (← useLane t (insnVa w) n i))
  if fn = 0 then addAccs t (← seqT t).acb (← vlevelT t) [vs]
  else if is.contains 0 then setLanes t (insnVd w) n [(0, (laneFp wc).lane (extreme (fn == 1) vs), false)]
  else pure ()

/-- `VRED`. -/
def execVred (t : Fin 1152) (s : State) : Host.Outcome State Fault Refusal :=
  s.next fun h => h.issueTvi t.val 0x09 false (tviVred t.val)

/-- `VLUT` (R90, R94): computed in FP32; narrower lanes are converted on the way in and out (R129). -/
def tviVlut (t w : Nat) : T Unit := do
  let wc := insnW w
  let n := laneBits wc
  let f := laneFp wc
  let ws := ((← get).tile t).luts.getD [] (insnFn w % 8)
  mapLanes t w (insnVd w) n (laneCount wc) fun i => do
    let a ← useLane t (insnVa w) n i
    if wc = 0 then pure (lutApply ws a)
    else
      let (y, ov) := toFp f .rne (f32v (lutApply ws (toF32 (f.decode a))))
      flagsT t false ov
      pure y

/-- `VLUT`. -/
def execVlut (t : Fin 1152) (s : State) : Host.Outcome State Fault Refusal :=
  s.next fun h => h.issueTvi t.val 0x0A false (tviVlut t.val)

/-- Writes a pair of registers, vd and vd + 1, lane by lane; with `VD` 31 the second is v0 (DESIGN CHOICE, log entry 50). -/
def setPair (t w : Nat) (is : List Nat) (rs : List (Nat × Nat)) : T Unit := do
  let xs := List.zip is rs
  setLanes t (insnVd w) 32 (xs.map fun e => (e.1, e.2.1, false))
  setLanes t ((insnVd w + 1) % 32) 32 (xs.map fun e => (e.1, e.2.2, false))

/-- Reads the enabled lanes of va and vb. -/
def usePairs (t w : Nat) (is : List Nat) : T (List (Nat × Nat)) :=
  is.mapM fun i => do pure (← useLane t (insnVa w) 32 i, ← useLane t (insnVb w) 32 i)

/-- `VSORT` (R90, R92): FP32 keys; the enabled lanes are sorted among themselves (log entry 26). -/
def tviVsort (t w : Nat) : T Unit := do
  let is ← enabled t w 64
  let ps ← usePairs t w is
  setPair t w is ((sortKeys (! bit (insnFn w) 0) (ps.map fun p => (f32v p.1, p))).map (·.2))

/-- `VSORT`. -/
def execVsort (t : Fin 1152) (s : State) : Host.Outcome State Fault Refusal :=
  s.next fun h => h.issueTvi t.val 0x0B false (tviVsort t.val)

/-- `VFFT` (R90, R292): one stage of 64 points; a stage above 5 has no butterfly in 64 points, and its
results are free values (log entry 26). -/
def tviVfft (t w : Nat) : T Unit := do
  let st := insnFn w % 8
  let is ← enabled t w 64
  if st ≤ 5 then
    let m := 2 ^ (st + 1)
    let used := (List.range 64).filter fun i => is.any fun j => i / m == j / m && i % (m / 2) == j % (m / 2)
    let ps ← usePairs t w used
    let z := (List.range 64).map fun i =>
      match (List.zip used ps).find? fun e => e.1 == i with
      | some e => e.2
      | none => (0, 0)
    let y := fftStage 64 m (bit (insnFn w) 3) z
    setPair t w is (is.map fun i => y.getD i (0, 0))
  else
    let _ ← usePairs t w is
    let rs ← is.mapM fun _ => do pure (← freeT, ← freeT)
    setPair t w is rs

/-- `VFFT`. -/
def execVfft (t : Fin 1152) (s : State) : Host.Outcome State Fault Refusal :=
  s.next fun h => h.issueTvi t.val 0x0C false (tviVfft t.val)

/-- The source lane of a lane under `VPERM` (R90): `none` where nothing is shifted in. -/
def permSource (fn k i : Nat) (b : Nat → Nat) : Option Nat :=
  match fn with
  | 0 => some (b i % k)
  | 1 => some (b 0 % k)
  | 2 => if i = 0 then none else some (i - 1)
  | _ => if i + 1 = k then none else some (i + 1)

/-- `VPERM` (R90): a move, whose lanes carry the stain of the lane they take and of the index that chose
it; what is shifted in is a free value (log entry 26). -/
def tviVperm (t w : Nat) : T Unit := do
  let wc := insnW w
  let n := laneBits wc
  let k := laneCount wc
  let fn := insnFn w
  need (decide (fn ≤ 3)) (illegal fn)
  let q ← seqT t
  let is ← enabled t w k
  let rs ← is.mapM fun i => do
    match permSource fn k i (q.vlane (insnVb w) n) with
    | some j =>
      let ixSt := (fn == 0 && q.vstained (insnVb w) n i) || (fn == 1 && q.vstained (insnVb w) n 0)
      pure (i, q.vlane (insnVa w) n j, q.vstained (insnVa w) n j || ixSt)
    | none => do pure (i, (← freeT) % 2 ^ n, false)
  setLanes t (insnVd w) n rs

/-- `VPERM`. -/
def execVperm (t : Fin 1152) (s : State) : Host.Outcome State Fault Refusal :=
  s.next fun h => h.issueTvi t.val 0x0D false (tviVperm t.val)

/-- The rounding of lane `i` (R131). -/
def laneRnd (q : Seq) (sr : Bool) (i : Nat) : Rnd := rndOf sr q.seed (q.s.getD 13 0) i

/-- `VCVT` (R90, R129): a lane holds an encoding in its low bits (log entry 26). -/
def tviVcvt (t w : Nat) : T Unit := do
  let n := laneBits (insnW w)
  let src := bits (insnFn w) 0 4
  let dst := bits (insnVb w) 0 4
  let q ← seqT t
  mapLanes t w (insnVd w) n (laneCount (insnW w)) fun i => do
    let a ← useLane t (insnVa w) n i
    let (y, ov) := toElem dst (laneRnd q (bit (insnFn w) 4) i) (elemVal src (a % 2 ^ fmtBits src))
    flagsT t false ov
    pure y

/-- `VCVT`. -/
def execVcvt (t : Fin 1152) (s : State) : Host.Outcome State Fault Refusal :=
  s.next fun h => h.issueTvi t.val 0x0E false (tviVcvt t.val)

/-- `VMV` (R90): a move between a scalar and lanes.  A lane number beyond the register reads a free value
(log entry 26). -/
def tviVmv (t w : Nat) : T Unit := do
  let wc := insnW w
  let n := laneBits wc
  let k := laneCount wc
  let fn := insnFn w
  need (decide (fn ≤ 1)) (illegal fn)
  let q ← seqT t
  let (v, st) := q.scalar (insnXSb w)
  if fn = 0 then
    if v < k then setS t (insnVd w % 16) (q.vlane (insnVa w) n v) (q.vstained (insnVa w) n v || st)
    else setS t (insnVd w % 16) (← freeT) st
  else
    let is ← enabled t w k
    setLanes t (insnVd w) n (is.map fun i => (i, v % 2 ^ n, st))

/-- `VMV`. -/
def execVmv (t : Fin 1152) (s : State) : Host.Outcome State Fault Refusal :=
  s.next fun h => h.issueTvi t.val 0x0F false (tviVmv t.val)

/-- `PSET` (R90): a bit whose bit of the instruction's predicate is 0 keeps its value. -/
def tviPset (t w : Nat) : T Unit := do
  let fn := insnFn w
  need (decide (fn ≤ 5)) (illegal fn)
  let q ← seqT t
  let m := q.p.getD (insnP w) 0
  let old := q.p.getD (insnVd w % 8) 0
  let a := q.p.getD (insnVa w % 8) 0
  let b := q.p.getD (insnVb w % 8) 0
  let ones := 2 ^ 128 - 1
  let new := match fn with
    | 0 => a &&& b
    | 1 => a ||| b
    | 2 => a ^^^ b
    | 3 => a ^^^ ones
    | 4 => ones
    | _ => 0
  setP t (insnVd w % 8) ((new &&& m) ||| (old &&& (m ^^^ ones)))

/-- `PSET`. -/
def execPset (t : Fin 1152) (s : State) : Host.Outcome State Fault Refusal :=
  s.next fun h => h.issueTvi t.val 0x19 false (tviPset t.val)

/-- `ACCRD` (R90, R125). -/
def tviAccrd (t w : Nat) : T Unit := do
  let n := laneBits (insnW w)
  let fmt := bits (insnFn w) 0 4
  let q ← seqT t
  let lam ← vlevelT t
  mapLanes t w (insnVd w) n (laneCount (insnW w)) fun i => do
    let j := (q.acb + i) % 1024
    let a := ((← get).tile t).acc j
    let (y, ov) := toElem fmt (laneRnd q (bit (insnFn w) 4) i) (a.val lam)
    flagsT t false ov
    if bit (insnFn w) 5 then setAccT t j Acc.zero else pure ()
    pure y

/-- `ACCRD`. -/
def execAccrd (t : Fin 1152) (s : State) : Host.Outcome State Fault Refusal :=
  s.next fun h => h.issueTvi t.val 0x1D false (tviAccrd t.val)

end Sys2Proof.Machine
end

