-- ==== Sys2Proof/Machine/Dispatch.lean ====
section
/-! DEFINITION. The dispatch of the block: one arm per command, each one direct call of its
meaning. -/

namespace Sys2Proof.Machine

open Sys2Proof

def exec (i : Instr) (s : State) : Host.Outcome State Fault Refusal :=
  match i with
  | .nop q p => Sys2Proof.Machine.execNop q p s
  | .fence q p => Sys2Proof.Machine.execFence q p s
  | .echo q p => Sys2Proof.Machine.execEcho q p s
  | .query q p => Sys2Proof.Machine.execQuery q p s
  | .memFill q p => Sys2Proof.Machine.execMemFill q p s
  | .memCopy q p => Sys2Proof.Machine.execMemCopy q p s
  | .memQuery q p => Sys2Proof.Machine.execMemQuery q p s
  | .sobSet q p => Sys2Proof.Machine.execSobSet q p s
  | .sobAdd q p => Sys2Proof.Machine.execSobAdd q p s
  | .sobWait q p => Sys2Proof.Machine.execSobWait q p s
  | .sobRead q p => Sys2Proof.Machine.execSobRead q p s
  | .modelLoad q p => Sys2Proof.Machine.execModelLoad q p s
  | .modelPin q p => Sys2Proof.Machine.execModelPin q p s
  | .modelUnpin q p => Sys2Proof.Machine.execModelUnpin q p s
  | .modelEvict q p => Sys2Proof.Machine.execModelEvict q p s
  | .modelQuery q p => Sys2Proof.Machine.execModelQuery q p s
  | .jobSubmit q p => Sys2Proof.Machine.execJobSubmit q p s
  | .jobCancel q p => Sys2Proof.Machine.execJobCancel q p s
  | .jobQuery q p => Sys2Proof.Machine.execJobQuery q p s
  | .seqCreate q p => Sys2Proof.Machine.execSeqCreate q p s
  | .seqFork q p => Sys2Proof.Machine.execSeqFork q p s
  | .seqTruncate q p => Sys2Proof.Machine.execSeqTruncate q p s
  | .seqFree q p => Sys2Proof.Machine.execSeqFree q p s
  | .seqQuery q p => Sys2Proof.Machine.execSeqQuery q p s
  | .gazPublish q p => Sys2Proof.Machine.execGazPublish q p s
  | .gazLookup q p => Sys2Proof.Machine.execGazLookup q p s
  | .gazRetire q p => Sys2Proof.Machine.execGazRetire q p s
  | .streamOpen q p => Sys2Proof.Machine.execStreamOpen q p s
  | .streamClose q p => Sys2Proof.Machine.execStreamClose q p s
  | .streamQuery q p => Sys2Proof.Machine.execStreamQuery q p s
  | .triggerSet q p => Sys2Proof.Machine.execTriggerSet q p s
  | .fusConfig q p => Sys2Proof.Machine.execFusConfig q p s
  | .fusBatch q p => Sys2Proof.Machine.execFusBatch q p s
  | .fusRead q p => Sys2Proof.Machine.execFusRead q p s
  | .fusDropTrack q p => Sys2Proof.Machine.execFusDropTrack q p s
  | .trvSurveyUpdate q p => Sys2Proof.Machine.execTrvSurveyUpdate q p s
  | .trvCheck q p => Sys2Proof.Machine.execTrvCheck q p s
  | .trvCommit q p => Sys2Proof.Machine.execTrvCommit q p s
  | .trvDustSheet q p => Sys2Proof.Machine.execTrvDustSheet q p s
  | .trvEnvelope q p => Sys2Proof.Machine.execTrvEnvelope q p s
  | .partCreate q p => Sys2Proof.Machine.execPartCreate q p s
  | .partDestroy q p => Sys2Proof.Machine.execPartDestroy q p s
  | .partReset q p => Sys2Proof.Machine.execPartReset q p s
  | .map q p => Sys2Proof.Machine.execMap q p s
  | .unmap q p => Sys2Proof.Machine.execUnmap q p s
  | .stencilLoad q p => Sys2Proof.Machine.execStencilLoad q p s
  | .stencilSwap q p => Sys2Proof.Machine.execStencilSwap q p s
  | .budgetSet q p => Sys2Proof.Machine.execBudgetSet q p s
  | .grant q p => Sys2Proof.Machine.execGrant q p s
  | .sobAlloc q p => Sys2Proof.Machine.execSobAlloc q p s
  | .healthRead q p => Sys2Proof.Machine.execHealthRead q p s
  | .tileRetire q p => Sys2Proof.Machine.execTileRetire q p s
  | .tileReinstate q p => Sys2Proof.Machine.execTileReinstate q p s
  | .channelRetire q p => Sys2Proof.Machine.execChannelRetire q p s
  | .modeSet q p b => Sys2Proof.Machine.execModeSet q p b s
  | .safePolicy q p => Sys2Proof.Machine.execSafePolicy q p s
  | .groupConfig q p => Sys2Proof.Machine.execGroupConfig q p s
  | .eventConfig q p => Sys2Proof.Machine.execEventConfig q p s
  | .freezeArm q p => Sys2Proof.Machine.execFreezeArm q p s
  | .selftestRun q p bad => Sys2Proof.Machine.execSelftestRun q p bad s
  | .debugUnlock q p => Sys2Proof.Machine.execDebugUnlock q p s
  | .traceConfig q p => Sys2Proof.Machine.execTraceConfig q p s
  | .doorbellWrite src page off v => Sys2Proof.Machine.execDoorbellWrite src page off v s
  | .fetchGrant pid queue cp => Sys2Proof.Machine.execFetchGrant pid queue cp s
  | .commandAccept pid queue rival => Sys2Proof.Machine.execCommandAccept pid queue rival s
  | .completionPost pid queue => Sys2Proof.Machine.execCompletionPost pid queue s
  | .cpLockstepMismatch cp kind => Sys2Proof.Machine.execCpLockstepMismatch cp kind s
  | .cpTakeover cp by_ => Sys2Proof.Machine.execCpTakeover cp by_ s
  | .strokePulse => Sys2Proof.Machine.execStrokePulse s
  | .coatBoundary => Sys2Proof.Machine.execCoatBoundary s
  | .stencilSwapEffect => Sys2Proof.Machine.execStencilSwapEffect s
  | .budgetSetEffect => Sys2Proof.Machine.execBudgetSetEffect s
  | .triggerAdjustEffect => Sys2Proof.Machine.execTriggerAdjustEffect s
  | .tileAdmission => Sys2Proof.Machine.execTileAdmission s
  | .cameraTrigger p => Sys2Proof.Machine.execCameraTrigger p s
  | .triggerLow p => Sys2Proof.Machine.execTriggerLow p s
  | .tileStrokePulse t => Sys2Proof.Machine.execTileStrokePulse t s
  | .stLate t => Sys2Proof.Machine.execStLate t s
  | .rowShiftComplete row => Sys2Proof.Machine.execRowShiftComplete row s
  | .substituteCopyComplete l pid => Sys2Proof.Machine.execSubstituteCopyComplete l pid s
  | .todNop t => Sys2Proof.Machine.execTodNop t s
  | .sets t => Sys2Proof.Machine.execSets t s
  | .commit t => Sys2Proof.Machine.execCommit t s
  | .barrier t => Sys2Proof.Machine.execBarrier t s
  | .sobOp t => Sys2Proof.Machine.execSobOp t s
  | .vprog t => Sys2Proof.Machine.execVprog t s
  | .lutLoad t => Sys2Proof.Machine.execLutLoad t s
  | .todSelftest t => Sys2Proof.Machine.execTodSelftest t s
  | .matmul t => Sys2Proof.Machine.execMatmul t s
  | .matmulSparse t => Sys2Proof.Machine.execMatmulSparse t s
  | .conv2d t => Sys2Proof.Machine.execConv2d t s
  | .conv2dFft t => Sys2Proof.Machine.execConv2dFft t s
  | .attnBlock t => Sys2Proof.Machine.execAttnBlock t s
  | .expscan t => Sys2Proof.Machine.execExpscan t s
  | .accClear t => Sys2Proof.Machine.execAccClear t s
  | .accRead t => Sys2Proof.Machine.execAccRead t s
  | .dwconv t => Sys2Proof.Machine.execDwconv t s
  | .pool t => Sys2Proof.Machine.execPool t s
  | .eltwise t => Sys2Proof.Machine.execEltwise t s
  | .act t => Sys2Proof.Machine.execAct t s
  | .norm t => Sys2Proof.Machine.execNorm t s
  | .softmax t => Sys2Proof.Machine.execSoftmax t s
  | .reduce t => Sys2Proof.Machine.execReduce t s
  | .topk t => Sys2Proof.Machine.execTopk t s
  | .sort t => Sys2Proof.Machine.execSort t s
  | .quant t => Sys2Proof.Machine.execQuant t s
  | .dequant t => Sys2Proof.Machine.execDequant t s
  | .transpose t => Sys2Proof.Machine.execTranspose t s
  | .gather t => Sys2Proof.Machine.execGather t s
  | .scatter t => Sys2Proof.Machine.execScatter t s
  | .fft t => Sys2Proof.Machine.execFft t s
  | .convert t => Sys2Proof.Machine.execConvert t s
  | .copy t => Sys2Proof.Machine.execCopy t s
  | .fill t => Sys2Proof.Machine.execFill t s
  | .send t => Sys2Proof.Machine.execSend t s
  | .recv t => Sys2Proof.Machine.execRecv t s
  | .haloSend t => Sys2Proof.Machine.execHaloSend t s
  | .haloRecv t => Sys2Proof.Machine.execHaloRecv t s
  | .levelSend t => Sys2Proof.Machine.execLevelSend t s
  | .levelRecv t => Sys2Proof.Machine.execLevelRecv t s
  | .dmaLoad t => Sys2Proof.Machine.execDmaLoad t s
  | .dmaStore t => Sys2Proof.Machine.execDmaStore t s
  | .valu t => Sys2Proof.Machine.execValu t s
  | .valux t => Sys2Proof.Machine.execValux t s
  | .vcmp t => Sys2Proof.Machine.execVcmp t s
  | .vld t => Sys2Proof.Machine.execVld t s
  | .vst t => Sys2Proof.Machine.execVst t s
  | .vgath t => Sys2Proof.Machine.execVgath t s
  | .vscat t => Sys2Proof.Machine.execVscat t s
  | .vmacc t => Sys2Proof.Machine.execVmacc t s
  | .vred t => Sys2Proof.Machine.execVred t s
  | .vlut t => Sys2Proof.Machine.execVlut t s
  | .vsort t => Sys2Proof.Machine.execVsort t s
  | .vfft t => Sys2Proof.Machine.execVfft t s
  | .vperm t => Sys2Proof.Machine.execVperm t s
  | .vcvt t => Sys2Proof.Machine.execVcvt t s
  | .vmv t => Sys2Proof.Machine.execVmv t s
  | .salu t => Sys2Proof.Machine.execSalu t s
  | .saddi t => Sys2Proof.Machine.execSaddi t s
  | .slui t => Sys2Proof.Machine.execSlui t s
  | .sld t => Sys2Proof.Machine.execSld t s
  | .sst t => Sys2Proof.Machine.execSst t s
  | .br t => Sys2Proof.Machine.execBr t s
  | .jmp t => Sys2Proof.Machine.execJmp t s
  | .call t => Sys2Proof.Machine.execCall t s
  | .ret t => Sys2Proof.Machine.execRet t s
  | .pset t => Sys2Proof.Machine.execPset t s
  | .trap t => Sys2Proof.Machine.execTrap t s
  | .xret t => Sys2Proof.Machine.execXret t s
  | .abort t => Sys2Proof.Machine.execAbort t s
  | .accrd t => Sys2Proof.Machine.execAccrd t s
  | .halt t => Sys2Proof.Machine.execHalt t s
  | .tviNop t => Sys2Proof.Machine.execTviNop t s
  | .flitRoute l port a => Sys2Proof.Machine.execFlitRoute l port a s
  | .dataMessageLanding src dst => Sys2Proof.Machine.execDataMessageLanding src dst s
  | .commitNotice src dst => Sys2Proof.Machine.execCommitNotice src dst s
  | .releaseNotice src dst => Sys2Proof.Machine.execReleaseNotice src dst s
  | .memRequestArrival c m => Sys2Proof.Machine.execMemRequestArrival c m s
  | .arbitrationPhase sel ops => Sys2Proof.Machine.execArbitrationPhase sel ops s
  | .memoryBurst c u act => Sys2Proof.Machine.execMemoryBurst c u act s
  | .stripeWriteDurable stripe => Sys2Proof.Machine.execStripeWriteDurable stripe s
  | .scrubRewrite c => Sys2Proof.Machine.execScrubRewrite c s
  | .patrolRead c u => Sys2Proof.Machine.execPatrolRead c u s
  | .patrolLate => Sys2Proof.Machine.execPatrolLate s
  | .hairlineLeak => Sys2Proof.Machine.execHairlineLeak s
  | .refresh c => Sys2Proof.Machine.execRefresh c s
  | .retraining => Sys2Proof.Machine.execRetraining s
  | .trainingComplete c a b => Sys2Proof.Machine.execTrainingComplete c a b s
  | .channelRetirement c => Sys2Proof.Machine.execChannelRetirement c s
  | .stripeRebuild => Sys2Proof.Machine.execStripeRebuild s
  | .edgeModuleLost e => Sys2Proof.Machine.execEdgeModuleLost e s
  | .installationComplete pid hd => Sys2Proof.Machine.execInstallationComplete pid hd s
  | .jobBegin pid act => Sys2Proof.Machine.execJobBegin pid act s
  | .deadlineMiss pid seq => Sys2Proof.Machine.execDeadlineMiss pid seq s
  | .duplexReport pid seq copy k die => Sys2Proof.Machine.execDuplexReport pid seq copy k die s
  | .duplexReportTimeout pid seq => Sys2Proof.Machine.execDuplexReportTimeout pid seq s
  | .sheetZeroed n => Sys2Proof.Machine.execSheetZeroed n s
  | .dfinNotice src fin => Sys2Proof.Machine.execDfinNotice src fin s
  | .dfinRequestDone fin pid => Sys2Proof.Machine.execDfinRequestDone fin pid s
  | .camLinkUp q gear => Sys2Proof.Machine.execCamLinkUp q gear s
  | .camLinkRetry q => Sys2Proof.Machine.execCamLinkRetry q s
  | .linkDown p => Sys2Proof.Machine.execLinkDown p s
  | .cameraIdentityRead q id => Sys2Proof.Machine.execCameraIdentityRead q id s
  | .frameStart q vc num ns10 => Sys2Proof.Machine.execFrameStart q vc num ns10 s
  | .longPacket q p => Sys2Proof.Machine.execLongPacket q p s
  | .frameEnd q vc ns10 => Sys2Proof.Machine.execFrameEnd q vc ns10 s
  | .lidarFrame q f ns10 => Sys2Proof.Machine.execLidarFrame q f ns10 s
  | .lidarFlush pid hd => Sys2Proof.Machine.execLidarFlush pid hd s
  | .bufferComplete pid hd => Sys2Proof.Machine.execBufferComplete pid hd s
  | .powerOpen q ma mv => Sys2Proof.Machine.execPowerOpen q ma mv s
  | .powerOvercurrent q ma mv => Sys2Proof.Machine.execPowerOvercurrent q ma mv s
  | .powerShortGnd q ma mv => Sys2Proof.Machine.execPowerShortGnd q ma mv s
  | .powerShortBat q ma mv => Sys2Proof.Machine.execPowerShortBat q ma mv s
  | .camrailTrip ma => Sys2Proof.Machine.execCamrailTrip ma s
  | .fusionSchedule u => Sys2Proof.Machine.execFusionSchedule u s
  | .fusionBatchCommit pid set => Sys2Proof.Machine.execFusionBatchCommit pid set s
  | .fusionDeadline => Sys2Proof.Machine.execFusionDeadline s
  | .verdictSlot d u => Sys2Proof.Machine.execVerdictSlot d u s
  | .verdictRecordComplete d => Sys2Proof.Machine.execVerdictRecordComplete d s
  | .verdictCompare d arrives => Sys2Proof.Machine.execVerdictCompare d arrives s
  | .trajectoryAdoption => Sys2Proof.Machine.execTrajectoryAdoption s
  | .surveyDelivery ok => Sys2Proof.Machine.execSurveyDelivery ok s
  | .surveyApply => Sys2Proof.Machine.execSurveyApply s
  | .shaperComplete => Sys2Proof.Machine.execShaperComplete s
  | .candidateDeadline => Sys2Proof.Machine.execCandidateDeadline s
  | .heartbeat d valid differ => Sys2Proof.Machine.execHeartbeat d valid differ s
  | .peerLost d => Sys2Proof.Machine.execPeerLost d s
  | .monitorLinkMessage d e fails spread => Sys2Proof.Machine.execMonitorLinkMessage d e fails spread s
  | .monitorLinkLost d e second => Sys2Proof.Machine.execMonitorLinkLost d e second s
  | .datumLockstepMismatch d => Sys2Proof.Machine.execDatumLockstepMismatch d s
  | .outValidEvaluation d ppm => Sys2Proof.Machine.execOutValidEvaluation d ppm s
  | .loopReadback d ip in_ mv => Sys2Proof.Machine.execLoopReadback d ip in_ mv s
  | .statusRecordSend src => Sys2Proof.Machine.execStatusRecordSend src s
  | .checkerTest d row die pass => Sys2Proof.Machine.execCheckerTest d row die pass s
  | .dieRestart => Sys2Proof.Machine.execDieRestart s
  | .restartComplete => Sys2Proof.Machine.execRestartComplete s
  | .restartTimeout => Sys2Proof.Machine.execRestartTimeout s
  | .mainPowerLoss mv => Sys2Proof.Machine.execMainPowerLoss mv s
  | .lossSequenceStage gotA gotB => Sys2Proof.Machine.execLossSequenceStage gotA gotB s
  | .aux12Loss mv => Sys2Proof.Machine.execAux12Loss mv s
  | .j1Overvoltage mv => Sys2Proof.Machine.execJ1Overvoltage mv s
  | .inputRange j2 mv => Sys2Proof.Machine.execInputRange j2 mv s
  | .railFault k => Sys2Proof.Machine.execRailFault k s
  | .returnCurrentStop => Sys2Proof.Machine.execReturnCurrentStop s
  | .governorEvaluation p => Sys2Proof.Machine.execGovernorEvaluation p s
  | .governorRaise => Sys2Proof.Machine.execGovernorRaise s
  | .capacityShed => Sys2Proof.Machine.execCapacityShed s
  | .temperatureSample ts => Sys2Proof.Machine.execTemperatureSample ts s
  | .eventRecordWrite => Sys2Proof.Machine.execEventRecordWrite s
  | .eventEntryExpiry => Sys2Proof.Machine.execEventEntryExpiry s
  | .healthUpdate => Sys2Proof.Machine.execHealthUpdate s
  | .peerFrame port e => Sys2Proof.Machine.execPeerFrame port e s
  | .subjobTimeout gseq => Sys2Proof.Machine.execSubjobTimeout gseq s
  | .workerLost w => Sys2Proof.Machine.execWorkerLost w s
  | .memberRejoin w => Sys2Proof.Machine.execMemberRejoin w s
  | .managerTakeover sup => Sys2Proof.Machine.execManagerTakeover sup s
  | .checkpointCapture => Sys2Proof.Machine.execCheckpointCapture s
  | .peerTimeMeasure p ofs => Sys2Proof.Machine.execPeerTimeMeasure p ofs s
  | .memberRecordSend d m => Sys2Proof.Machine.execMemberRecordSend d m s
  | .apcSliceEnd hart => Sys2Proof.Machine.execApcSliceEnd hart s
  | .guestTimer pid hart cmp ns10 => Sys2Proof.Machine.execGuestTimer pid hart cmp ns10 s
  | .apcMemoryRequest o => Sys2Proof.Machine.execApcMemoryRequest o s
  | .sobWindowAccess a => Sys2Proof.Machine.execSobWindowAccess a s
  | .pcieTlp r => Sys2Proof.Machine.execPcieTlp r s
  | .pcieMsiWrite port rid data => Sys2Proof.Machine.execPcieMsiWrite port rid data s
  | .pcieLinkTrained port gen log2w => Sys2Proof.Machine.execPcieLinkTrained port gen log2w s
  | .frzN low => Sys2Proof.Machine.execFrzN low s
  | .porstN low => Sys2Proof.Machine.execPorstN low s
  | .wake high => Sys2Proof.Machine.execWake high s
  | .ppsInEdge ns10 good => Sys2Proof.Machine.execPpsInEdge ns10 good s
  | .dbgEnN low => Sys2Proof.Machine.execDbgEnN low s
  | .canWake ch => Sys2Proof.Machine.execCanWake ch s
  | .canFault ch st => Sys2Proof.Machine.execCanFault ch st s
  | .pairDiagnostic p r => Sys2Proof.Machine.execPairDiagnostic p r s
  | .ptpSync port off clockId => Sys2Proof.Machine.execPtpSync port off clockId s
  | .holdover left => Sys2Proof.Machine.execHoldover left s
  | .startup b j1 j2 hubOk src => Sys2Proof.Machine.execStartup b j1 j2 hubOk src s
  | .fullSelftestDone => Sys2Proof.Machine.execFullSelftestDone s
  | .parkDelayExpiry => Sys2Proof.Machine.execParkDelayExpiry s
  | .offDelayExpiry => Sys2Proof.Machine.execOffDelayExpiry s
  | .parkedExit b => Sys2Proof.Machine.execParkedExit b s
  | .moduleWarm b => Sys2Proof.Machine.execModuleWarm b s
  | .dieReset d => Sys2Proof.Machine.execDieReset d s
  | .datumReset d => Sys2Proof.Machine.execDatumReset d s
  | .imageFrame x => Sys2Proof.Machine.execImageFrame x s
  | .freeze => Sys2Proof.Machine.execFreeze s
  | .freezePoint => Sys2Proof.Machine.execFreezePoint s
  | .tapInstruction op => Sys2Proof.Machine.execTapInstruction op s
  | .registerWrite w => Sys2Proof.Machine.execRegisterWrite w s
  | .modIntEoi v => Sys2Proof.Machine.execModIntEoi v s
  | .timeStep v => Sys2Proof.Machine.execTimeStep v s
  | .timeStepEffect => Sys2Proof.Machine.execTimeStepEffect s
  | .timeSrcWrite v => Sys2Proof.Machine.execTimeSrcWrite v s
  | .evtHeadWrite v => Sys2Proof.Machine.execEvtHeadWrite v s
  | .pwrEnWrite q on above => Sys2Proof.Machine.execPwrEnWrite q on above s
  | .mainPowerReturn mv => Sys2Proof.Machine.execMainPowerReturn mv s
  | .referenceLoss => Sys2Proof.Machine.execReferenceLoss s
  | .cpWatchdog cp => Sys2Proof.Machine.execCpWatchdog cp s
  | .linkUp p => Sys2Proof.Machine.execLinkUp p s

end Sys2Proof.Machine
end

