-- ==== Sys2Proof/WellFormed.lean ====
section
/-! DEFINITION. Which terms of `Instr` are commands that the block can receive: the sizes that the types do not fix. -/

namespace Sys2Proof

open Sys2Proof.Machine

/-- The chunks of a packet command (R199): byte 0 holds the opcode, and `EXT` further chunks of 64 bytes follow the first. -/
def wfPacket (opc : Nat) (p : Packet) : Bool := p.length == 64 * slotsOf p && field p 0 1 == opc

/-- A flit carries 64 payload bytes (R143). -/
def wfFlit : Option FlitIn → Bool
  | some a => a.payload.length == 64
  | none => true

/-- A write carries the bytes it writes, a read none (R151). -/
def wfMem (m : MemMsg) : Bool :=
  decide (1 ≤ m.len.val) && (if m.write then m.data.length == m.len.val else m.data.isEmpty)

/-- A sweep covers the 128 Vref codes (R412). -/
def wfSweep (s : LaneSweep) : Bool := s.rd.length == 128 && s.wr.length == 128

/-- Bringing up concerns 128 byte lanes and six edges (R433, R436). -/
def wfBring (b : BringUp) : Bool :=
  decide (b.sweeps.length ≤ 128) && b.sweeps.all wfSweep && decide (b.edges.length ≤ 6)

/-- An Ethernet frame holds at least its two addresses and its type, and at most 9,216 bytes. -/
def wfEth (f : EthFrame) : Bool := decide (14 ≤ f.bytes.length) && decide (f.bytes.length ≤ 9216)

/-- A peer frame fits an Ethernet frame. -/
def wfPeer : PeerEvent → Bool
  | .frame _ bytes => decide (bytes.length ≤ 9216)
  | .noAck => true

/-- A write of a core carries the bytes it writes, up to 64 (R499); a store lies in one line. -/
def wfApc (o : ApcOp) : Bool :=
  match o.kind.val with
  | 3 => decide (1 ≤ o.len.val) && o.data.isEmpty
  | 4 => decide (1 ≤ o.data.length) && decide (o.data.length ≤ 64)
  | 12 => decide (1 ≤ o.data.length) && decide (o.va.toNat % 64 + o.data.length ≤ 64)
  | _ => o.data.isEmpty

/-- A read asks for at least a byte, a write carries 1 to 4,096, a FetchAdd 4 or 8 (R177, R188). -/
def wfPcie : PcieReq → Bool
  | .mem t =>
    match t.kind.val with
    | 0 => decide (1 ≤ t.len.val) && t.data.isEmpty
    | 1 => decide (1 ≤ t.data.length) && decide (t.data.length ≤ 4096)
    | _ => t.data.length == 4 || t.data.length == 8
  | _ => true

/-- A command that the block can receive. -/
def Instr.wellFormed (i : Instr) : Bool :=
  match i with
  | .nop _ p => wfPacket 0x00 p
  | .fence _ p => wfPacket 0x01 p
  | .echo _ p => wfPacket 0x02 p
  | .query _ p => wfPacket 0x03 p
  | .memFill _ p => wfPacket 0x10 p
  | .memCopy _ p => wfPacket 0x11 p
  | .memQuery _ p => wfPacket 0x13 p
  | .sobSet _ p => wfPacket 0x20 p
  | .sobAdd _ p => wfPacket 0x21 p
  | .sobWait _ p => wfPacket 0x22 p
  | .sobRead _ p => wfPacket 0x23 p
  | .modelLoad _ p => wfPacket 0x30 p
  | .modelPin _ p => wfPacket 0x31 p
  | .modelUnpin _ p => wfPacket 0x32 p
  | .modelEvict _ p => wfPacket 0x33 p
  | .modelQuery _ p => wfPacket 0x34 p
  | .jobSubmit _ p => wfPacket 0x40 p
  | .jobCancel _ p => wfPacket 0x41 p
  | .jobQuery _ p => wfPacket 0x42 p
  | .seqCreate _ p => wfPacket 0x50 p
  | .seqFork _ p => wfPacket 0x51 p
  | .seqTruncate _ p => wfPacket 0x52 p
  | .seqFree _ p => wfPacket 0x53 p
  | .seqQuery _ p => wfPacket 0x54 p
  | .gazPublish _ p => wfPacket 0x55 p
  | .gazLookup _ p => wfPacket 0x56 p
  | .gazRetire _ p => wfPacket 0x57 p
  | .streamOpen _ p => wfPacket 0x60 p
  | .streamClose _ p => wfPacket 0x61 p
  | .streamQuery _ p => wfPacket 0x62 p
  | .triggerSet _ p => wfPacket 0x63 p
  | .fusConfig _ p => wfPacket 0x70 p
  | .fusBatch _ p => wfPacket 0x71 p
  | .fusRead _ p => wfPacket 0x72 p
  | .fusDropTrack _ p => wfPacket 0x73 p
  | .trvSurveyUpdate _ p => wfPacket 0x80 p
  | .trvCheck _ p => wfPacket 0x81 p
  | .trvCommit _ p => wfPacket 0x82 p
  | .trvDustSheet _ p => wfPacket 0x83 p
  | .trvEnvelope _ p => wfPacket 0x84 p
  | .partCreate _ p => wfPacket 0xC0 p
  | .partDestroy _ p => wfPacket 0xC1 p
  | .partReset _ p => wfPacket 0xC2 p
  | .map _ p => wfPacket 0xC3 p
  | .unmap _ p => wfPacket 0xC4 p
  | .stencilLoad _ p => wfPacket 0xC5 p
  | .stencilSwap _ p => wfPacket 0xC6 p
  | .budgetSet _ p => wfPacket 0xC7 p
  | .grant _ p => wfPacket 0xC8 p
  | .sobAlloc _ p => wfPacket 0xC9 p
  | .healthRead _ p => wfPacket 0xCA p
  | .tileRetire _ p => wfPacket 0xCB p
  | .tileReinstate _ p => wfPacket 0xCC p
  | .channelRetire _ p => wfPacket 0xCD p
  | .modeSet _ p b => wfPacket 0xCE p && wfBring b
  | .safePolicy _ p => wfPacket 0xCF p
  | .groupConfig _ p => wfPacket 0xD0 p
  | .eventConfig _ p => wfPacket 0xD1 p
  | .freezeArm _ p => wfPacket 0xE0 p
  | .selftestRun _ p _ => wfPacket 0xE1 p
  | .debugUnlock _ p => wfPacket 0xE2 p
  | .traceConfig _ p => wfPacket 0xE3 p
  | .flitRoute _ _ a => wfFlit a
  | .memRequestArrival _ m => wfMem m
  | .trainingComplete _ a b => wfSweep a && wfSweep b
  | .cameraIdentityRead _ id => id.all fun (bs : List Byte) => decide (bs.length ≤ 16)
  | .longPacket _ p => decide (p.payload.length ≤ 65535)
  | .lidarFrame _ f _ => wfEth f
  | .temperatureSample ts => decide (ts.length ≤ 96)
  | .peerFrame _ e => wfPeer e
  | .apcMemoryRequest o => wfApc o
  | .pcieTlp r => wfPcie r
  | .pcieMsiWrite _ _ data => data.length == 4
  | .startup b _ _ _ _ => wfBring b
  | .parkedExit b => wfBring b
  | .moduleWarm b => wfBring b
  | .tileStrokePulse t => decide (t.upset.sections.length ≤ 16)
  | .imageFrame x => decide (64 ≤ x.data.length) && decide (x.data.length ≤ 1024)
  | .doorbellWrite _ _ _ _ | .fetchGrant _ _ _ | .commandAccept _ _ _ | .completionPost _ _
  | .cpLockstepMismatch _ _ | .cpTakeover _ _ | .strokePulse | .coatBoundary | .stencilSwapEffect
  | .budgetSetEffect | .triggerAdjustEffect | .tileAdmission | .cameraTrigger _ | .triggerLow _
  | .stLate _ | .rowShiftComplete _ | .substituteCopyComplete _ _ | .todNop _ | .sets _
  | .commit _ | .barrier _ | .sobOp _ | .vprog _ | .lutLoad _ | .todSelftest _ | .matmul _ | .matmulSparse _
  | .conv2d _ | .conv2dFft _ | .attnBlock _ | .expscan _ | .accClear _ | .accRead _ | .dwconv _ | .pool _
  | .eltwise _ | .act _ | .norm _ | .softmax _ | .reduce _ | .topk _ | .sort _ | .quant _ | .dequant _
  | .transpose _ | .gather _ | .scatter _ | .fft _ | .convert _ | .copy _ | .fill _ | .send _ | .recv _
  | .haloSend _ | .haloRecv _ | .levelSend _ | .levelRecv _ | .dmaLoad _ | .dmaStore _ | .valu _ | .valux _
  | .vcmp _ | .vld _ | .vst _ | .vgath _ | .vscat _ | .vmacc _ | .vred _ | .vlut _ | .vsort _ | .vfft _ | .vperm _
  | .vcvt _ | .vmv _ | .salu _ | .saddi _ | .slui _ | .sld _ | .sst _ | .br _ | .jmp _ | .call _ | .ret _ | .pset _
  | .trap _ | .xret _ | .abort _ | .accrd _ | .halt _ | .tviNop _ | .dataMessageLanding _ _ | .commitNotice _ _
  | .releaseNotice _ _ | .arbitrationPhase _ _ | .memoryBurst _ _ _ | .stripeWriteDurable _ | .scrubRewrite _
  | .patrolRead _ _ | .patrolLate | .hairlineLeak | .refresh _ | .retraining | .channelRetirement _
  | .stripeRebuild | .edgeModuleLost _ | .installationComplete _ _ | .jobBegin _ _ | .deadlineMiss _ _
  | .duplexReport _ _ _ _ _ | .duplexReportTimeout _ _ | .sheetZeroed _ | .dfinNotice _ _ | .dfinRequestDone _ _
  | .camLinkUp _ _ | .camLinkRetry _ | .linkDown _ | .frameStart _ _ _ _ | .frameEnd _ _ _ | .lidarFlush _ _
  | .bufferComplete _ _ | .powerOpen _ _ _ | .powerOvercurrent _ _ _ | .powerShortGnd _ _ _ | .powerShortBat _ _ _
  | .camrailTrip _ | .fusionSchedule _ | .fusionBatchCommit _ _ | .fusionDeadline | .verdictSlot _ _
  | .verdictRecordComplete _ | .verdictCompare _ _ | .trajectoryAdoption | .surveyDelivery _ | .surveyApply
  | .shaperComplete | .candidateDeadline | .heartbeat _ _ _ | .peerLost _ | .monitorLinkMessage _ _ _ _
  | .monitorLinkLost _ _ _ | .datumLockstepMismatch _ | .outValidEvaluation _ _ | .loopReadback _ _ _ _
  | .statusRecordSend _ | .checkerTest _ _ _ _ | .dieRestart | .restartComplete | .restartTimeout
  | .mainPowerLoss _ | .lossSequenceStage _ _ | .aux12Loss _ | .j1Overvoltage _ | .inputRange _ _ | .railFault _
  | .returnCurrentStop | .governorEvaluation _ | .governorRaise | .capacityShed | .eventRecordWrite
  | .eventEntryExpiry | .healthUpdate | .subjobTimeout _ | .workerLost _ | .memberRejoin _ | .managerTakeover _
  | .checkpointCapture | .peerTimeMeasure _ _ | .memberRecordSend _ _ | .apcSliceEnd _ | .guestTimer _ _ _ _
  | .sobWindowAccess _ | .pcieLinkTrained _ _ _ | .frzN _ | .porstN _ | .wake _ | .ppsInEdge _ _ | .dbgEnN _
  | .canWake _ | .canFault _ _ | .pairDiagnostic _ _ | .ptpSync _ _ _ | .holdover _ | .fullSelftestDone
  | .parkDelayExpiry | .offDelayExpiry | .dieReset _ | .datumReset _ | .freeze | .freezePoint | .tapInstruction _
  | .registerWrite _ | .modIntEoi _ | .timeStep _ | .timeStepEffect | .timeSrcWrite _ | .evtHeadWrite _
  | .pwrEnWrite _ _ _ | .mainPowerReturn _ | .referenceLoss | .cpWatchdog _ | .linkUp _ => true

end Sys2Proof
end

