-- ==== Sys2Proof/Safety.lean ====
section
/-! DEFINITION. The terms in which claims are made: what every state of a run keeps, when a command of a
queue begins, when a tile issues, and what a command leaves alone. -/

namespace Sys2Proof.Machine

open Sys2Proof

/-- A command has an effect in a state: it answers the next state in which the hardware is as `P` says, and the commands
that wait are as before. -/
def Does (c : Instr) (s : State) (P : Hw → Prop) : Prop :=
  ∃ h', Sys2Proof.Machine.exec c s = .next { s with hw := h' } ∧ P h'

/-- Every command that waits is one that the block can receive, and memory has its canonical form. -/
def State.Sound (s : State) : Prop := (∀ c ∈ s.pending, c.wellFormed = true) ∧ Memory.wf s.hw.mem = true

/-- The command that a packet makes when it is accepted in a state (R205). -/
def acceptedCmd (h : Hw) (q : QRef) (qu : Queue) (pkt : Packet) : Cmd :=
  mkCmd h q qu pkt (((h.part q.pid.val).map (·.nextSeq)).getD 1)

/-- The state after a packet has come from its queue (R201). -/
def cameHw (h : Hw) (q : QRef) (qu : Queue) (pkt : Packet) : Hw := (h.presented q qu pkt).getD h

/-- The state in which a packet command has come from its queue and been taken from its ring (R201, R205). -/
def takenHw (h : Hw) (sp : OpSpec) (q : QRef) (qu : Queue) (pkt : Packet) : Hw :=
  let h := cameHw h q qu pkt
  let c := acceptedCmd h q qu pkt
  sp.onAccept (h.take c (slotsOf pkt)) c

/-- The state in which the effect of a packet command begins: it has come from its queue, been taken from its ring, and
begun (R200, R205). -/
def begunHw (h : Hw) (sp : OpSpec) (q : QRef) (qu : Queue) (pkt : Packet) : Hw :=
  (takenHw h sp q qu pkt).begin (acceptedCmd (cameHw h q qu pkt) q qu pkt)

/-- A row of the packet commands is at the front of its queue and begins now (R200, R204, R205): the sequencer runs, the
processor serves its queues, no QUIET window runs, the partition is not being destroyed, no other command of the queue
waits to begin, the packet comes from its queue (R201), the checks of R204 allow it, no contradictory order wins (R221),
and R200 lets it begin. -/
structure Ready (h : Hw) (sp : OpSpec) (q : QRef) (p : Packet) (qu : Queue) (c : Cmd) : Prop where
  runs : h.sequencing = true
  serves : h.cpRuns q.cp.val = true
  open_ : h.quiet = false
  alive : (h.part q.pid.val).any (·.destroying) = false
  queue : h.queue q.pid.val q.queue.val = some qu
  front : h.waiting q.pid.val q.queue.val = none
  free : h.isHeld q = false
  comes : (h.presented q qu (rowPacket sp.opc p)).isSome = true
  isCmd : c = acceptedCmd (cameHw h q qu (rowPacket sp.opc p)) q qu (rowPacket sp.opc p)
  admitted : sp.check (cameHw h q qu (rowPacket sp.opc p)) (mkCmd (cameHw h q qu (rowPacket sp.opc p)) q qu (rowPacket sp.opc p) 0) = none
  norival : superseded c.opc c.port q.rival = none
  first : (sp.onAccept ((cameHw h q qu (rowPacket sp.opc p)).take c (slotsOf (rowPacket sp.opc p))) c).cmd? c.pid c.queue c.num = some c
  turn : (sp.onAccept ((cameHw h q qu (rowPacket sp.opc p)).take c (slotsOf (rowPacket sp.opc p))) c).canBegin c = true

/-- A command has completed with a status, a result and a detail (R209, R211). -/
def Completed (h : Hw) (c : Cmd) (status result detail : Nat) : Prop :=
  ∃ e, (h.cmd? c.pid c.queue c.num).bind (·.entry) = some e ∧ e.status = status ∧ e.result = result % 2 ^ 64 ∧
    e.detail = detail % 2 ^ 32 ∧ e.seq = c.seq ∧ e.queue = c.queue ∧ e.slot = c.slot ∧ e.tag = c.f 4 4

/-- A command has ended with a status, a result and a detail, and nothing else has changed since the state `b` but for the
count of the begun commands of its queue (R216). -/
def Ends (b h' : Hw) (c : Cmd) (status result detail : Nat) : Prop :=
  Completed h' c status result detail ∧ { h' with cmds := b.cmds } = b.countStarted c.pid c.queue

/-- A row of the packet commands is ready, and `b` is the state in which its effect begins. -/
structure Acting (h : Hw) (sp : OpSpec) (q : QRef) (p : Packet) (qu : Queue) (c : Cmd) (b : Hw) : Prop where
  ready : Ready h sp q p qu c
  state : b = begunHw h sp q qu (rowPacket sp.opc p)

/-- A packet command is accepted now: the processor presents its queue, the packet comes from the queue (R201), no
submission is held there (R481), the checks of R204 allow it and no contradictory order wins (R221); `b` is the state in
which it has been taken. -/
structure Taking (h : Hw) (sp : OpSpec) (q : QRef) (p : Packet) (qu : Queue) (c : Cmd) (b : Hw) : Prop where
  presents : h.presents q = true
  queue : h.queue q.pid.val q.queue.val = some qu
  free : h.isHeld q = false
  comes : (h.presented q qu (rowPacket sp.opc p)).isSome = true
  isCmd : c = acceptedCmd (cameHw h q qu (rowPacket sp.opc p)) q qu (rowPacket sp.opc p)
  admitted : sp.check (cameHw h q qu (rowPacket sp.opc p)) (mkCmd (cameHw h q qu (rowPacket sp.opc p)) q qu (rowPacket sp.opc p) 0) = none
  norival : superseded c.opc c.port q.rival = none
  state : b = takenHw h sp q qu (rowPacket sp.opc p)

/-- Whether a watch is registered under a command's name. -/
def Watch.same (w : Watch) (c : Cmd) : Bool := w.pid == c.pid && w.queue == c.queue && w.num == c.num

/-- A command reads the page-list entries `i` to `i + n - 1` of every layer of a sequence, with no failed translation and
no stain: it goes on with `es` in the state `k`. -/
def ReadsEntries (b : Hw) (c : Cmd) (s : SeqRec) (i n : Nat) (es : List (List Nat)) (k : Hw) : Prop :=
  ∀ f, b.withEntries c s i n [] f (s.layers + 1) = f k es

/-- The reading of those entries ends the command (R106, R178): the first layer of which a page fails or an entry is stained
decides how. -/
def EntriesEnd (b : Hw) (c : Cmd) (s : SeqRec) (i n : Nat) (k : Hw) : Prop :=
  ∃ (m : Nat) (es : List (List Nat)) (j j2 : Hw), m ≤ s.layers ∧
    (∀ f, b.withEntries c s i n [] f (s.layers + 1) = j.withEntries c s i n es f (s.layers + 1 - m)) ∧
    ((∃ e, j.readRun c.pid s m i n = (.error e, j2) ∧ k = j2.failPage c e) ∨
     (∃ x, j.readRun c.pid s m i n = (.ok (x, true), j2) ∧ k = j2.finish c 0x3001 0 0xFFFF_FFFF))

/-- The reading of a record ends the command (R106, R178): a page fails, or the record is stained. -/
def RecordEnds (b : Hw) (c : Cmd) (va n : Nat) (k : Hw) : Prop :=
  ∃ j, (∃ e, b.cmdRead c.pid va n = (.error e, j) ∧ k = j.failPage c e) ∨
    (∃ bs, b.cmdRead c.pid va n = (.ok (bs, true), j) ∧ k = j.finish c 0x3001 0 0xFFFF_FFFF)

/-- Every page of the image of a `MODEL_LOAD` translates, and its bytes have been read in the state `k` (R231). -/
structure ImageRead (b : Hw) (c : Cmd) (ps : List Nat) (bs : List Byte) (k : Hw) : Prop where
  room : b.models.length < 1024
  pages : imagePages b c.pid (c.f 24 6) (c.f 32 6) =
    (List.range ps.length).map fun i => (i, (Except.ok (ps.getD i 0) : Except Nat Nat))
  bytes : b.cmdRead c.pid (c.f 24 6) (c.f 32 6) = (.ok (bs, false), k)

/-- Lines of 64 bytes copied one after the other from virtual address `src` to `dst` (R420, R588); between ranges that overlap
each line takes free bytes (R208). `none` when a page of a line fails. -/
def copiedLines (pid src dst : Nat) (overlap : Bool) : List Nat → Hw → Option Hw
  | [], h => some h
  | i :: l, h =>
    match h.cmdRead pid (src + 64 * i) 64 with
    | (.error _, _) => none
    | (.ok (bs, st), h) =>
      let (fb, h) := if overlap then h.freeBytes 8 else (bs, h)
      match h.cmdWrite pid (dst + 64 * i) fb st with
      | (some _, _) => none
      | (none, h) => copiedLines pid src dst overlap l h

/-- A state but for what raising an event, tracing and counting an error may change. -/
def Hw.mute (h : Hw) : Hw :=
  { h with regs := [], freeIx := 0, evt := ⟨[], [], 0, 0, none, none⟩, freezeReq := false, health := [],
           sys := { h.sys with trace := none } }

/-- A memory but for what an access may change. -/
def Mem.bare (m : Mem) : Mem := { m with cells := [], stain := [], written := [], chClear := [] }

/-- A state but for memory's contents, the DRAM records and the detected faults. -/
def Hw.quell (h : Hw) : Hw :=
  { h with mem := h.mem.bare, detected := [], sys := { h.sys with dram := Dram.reset } }

/-- A state but for what raising events and accessing memory may change. -/
def Hw.calm (h : Hw) : Hw := h.mute.quell

/-- A step of a tile's program leaves everything else alone: the other tiles, all state outside the tile but for the
records of raised events and counted errors, and the registers but for those of the event log, the trace, the error
counters and the tile itself. -/
structure OnlyTile (t : Nat) (h h' : Hw) : Prop where
  others : ∀ u, u ≠ t → h'.tile u = h.tile u
  rest : { h'.mute with tiles := [] } = { h.mute with tiles := [] }
  regs : ∀ f : Fld, f.off < 0x10000 → f.block ≠ 0x028 → f.block ≠ 0x7C0 → f.block ≠ 0x640 → f.block ≠ 0x100 + t →
    h'.get f = h.get f

/-- A tile runs a slice and holds no stain: neither in its SRAM, whose granules hold no uncorrectable error, nor in a
scalar or vector register (R104, R105). -/
structure Clean (h : Hw) (t : Nat) : Prop where
  runs : ((h.tile t).slice.any fun s => s.state == .running) = true
  sram : (h.tile t).stain = []
  sound : (h.tile t).badGranules = []
  scalars : ∀ i, (h.tile t).seq.sStain.getD i false = false
  vectors : ∀ v, (h.tile t).seq.vStain.getD 0 v = 0

/-- The bytes that a partition reads through its windows on a tile of which `m` is the SRAM and in which nothing is
stained (R77): zero outside its windows. -/
def bytesIn (h : Hw) (t : Nat) (m : SMap Byte) (pid a n : Nat) : List SByte :=
  (List.range n).map fun i => (if h.inWindow t pid (a + i) then SMap.getD 0 m (a + i) else 0, false)

/-- The bytes that a partition reads from a tile's SRAM when nothing in it is stained. -/
def sramBytes (h : Hw) (t pid a n : Nat) : List SByte := bytesIn h t (h.tile t).sram pid a n

/-- The TVI instruction that a tile issues next (R89, R90, R95, R98, R101, R105): the tile runs the program of a slice
and holds no stain, its sequencer shows no parity error, the program counter is a multiple of 4 and `w` is the word
there, the opcode is `op`; a scalar or control instruction is enabled by bit 0 of its predicate, and a width field
holds a defined width. -/
structure TviReady (h : Hw) (t : Nat) (s : Slice) (op w : Nat) : Prop where
  runs : h.tileRuns t true = true
  parity : (h.tile t).parityBad = false
  aligned : (h.tile t).seq.pc % 4 = 0
  clean : Clean h t
  slice : (h.tile t).slice = some s
  word : w = leNat ((sramBytes h t s.pid (h.tile t).seq.pc 4).map (·.1))
  opcode : bits w 0 6 = op
  enabled : isScalarOp op = true → bit ((h.tile t).seq.p.getD (insnP w) 0) 0 = true
  width : hasW op = true → insnW w ≠ 3

/-- A tile's program has gone one step: the tile becomes `x` but for its correctable errors, its slice notes
which held halves it has read, and nothing outside the tile changes. -/
structure TileStep (t : Nat) (s : Slice) (h h' : Hw) (x : Tile) : Prop where
  only : OnlyTile t h h'
  tile : ∃ (k : NSet) (r : List (Nat × Nat)), h'.tile t =
    { x with weakGranules := k, slice := some { s with readHalves := r } }

/-- In the middle of a step: the tile has become `x`, but for correctable errors and notes of halves read. -/
structure Mid (t : Nat) (s : Slice) (h k : Hw) (x : Tile) : Prop where
  only : OnlyTile t h k
  tile : ∃ (w : NSet) (r : List (Nat × Nat)), k.tile t =
    { x with weakGranules := w, slice := some { s with readHalves := r } }
  window : ∀ pid a, k.inWindow t pid a = h.inWindow t pid a

/-- The sequencer's program counter moves on by one instruction. -/
def Seq.bump (q : Seq) : Seq := { q with pc := (q.pc + 4) % 2 ^ 19 }

/-- A scalar register takes a value and a stain; a write to s0 is discarded (R93). -/
def Seq.withS (q : Seq) (i v : Nat) (st : Bool) : Seq :=
  if i = 0 then q else { q with s := q.s.set i (v % 2 ^ 32), sStain := q.sStain.set i st }

/-- A tile with another sequencer state. -/
def Tile.withSeq (x : Tile) (q : Seq) : Tile := { x with seq := q }

/-- What `SALU` makes of the sequencer (R90, R93): a value for `Sd`, or a sequencer register set from `Sa`. -/
def Seq.salu (q : Seq) (w : Nat) : Seq :=
  let a := (q.scalar (insnSa w)).1
  let b := (q.scalar (insnSb w)).1
  let d := insnSd w
  match insnSFn w with
  | 16 => { q with lc := q.lc.set (d % 4) (a % 2 ^ 16) }
  | 17 => { q with vsp := a % 2 ^ 19 }
  | 18 => q.withS d q.vsp false
  | 19 => { q with acb := a % 2 ^ 10 }
  | 20 => { q with exb := a % 2 ^ 19 }
  | 21 => q.withS d (b2n q.inexact + 2 * b2n q.overflow) false
  | fn => q.withS d ((saluFn fn a b).getD 0) false

/-- The program counter moved by a signed number of instructions. -/
def Seq.jump (q : Seq) (d : Int) : Seq := { q with pc := addSigned 19 q.pc (4 * d) % 2 ^ 19 }

/-- What `BR` makes of the sequencer (R90). -/
def Seq.branch (q : Seq) (w : Nat) : Seq :=
  if insnCond w = 6 then
    let n := (q.lc.getD (insnBrSa w % 4) 0 + 65535) % 65536
    { q with lc := q.lc.set (insnBrSa w % 4) n }.jump (if n ≠ 0 then insnImm16 w else 1)
  else q.jump (if condHolds (insnCond w) (q.scalar (insnBrSa w)).1 then insnImm16 w else 1)

/-- A predicate register takes a value; a write to p0 is discarded (R95). -/
def Seq.withP (q : Seq) (i v : Nat) : Seq := if i = 0 then q else { q with p := q.p.set i (v % 2 ^ 128) }

/-- The value that `PSET` writes (R90): where bits of the instruction's predicate `m` are 1 a logical function of two
predicates, all ones or zero, and elsewhere the old value. -/
def psetValue (fn m old a b : Nat) : Nat :=
  let new := match fn with
    | 0 => a &&& b
    | 1 => a ||| b
    | 2 => a ^^^ b
    | 3 => a ^^^ (2 ^ 128 - 1)
    | 4 => 2 ^ 128 - 1
    | _ => 0
  (new &&& m) ||| (old &&& (m ^^^ (2 ^ 128 - 1)))

/-- The bytes of a run that a partition may write through its windows (R77). -/
def writtenBy (h : Hw) (t pid a : Nat) (bs : List SByte) (b : Nat) : Option Byte :=
  if a ≤ b ∧ b < a + bs.length ∧ h.inWindow t pid b then some (bs.getD (b - a) (0, false)).1 else none

/-- What `XRET` makes of the sequencer from the bytes of an exception frame (R97, R99). -/
def Seq.xret (q : Seq) (bs : List Byte) : Seq :=
  let q := (List.range 4).foldl (fun (q : Seq) k => q.withS (k + 1) (field bs (24 + 4 * k) 4) false) q
  let idx := field bs 2 2 % 4096
  let pc := field bs 4 4 % 2 ^ 19
  let q := { q with vsp := q.vsp + 64, xlive := false, lc := (List.range 4).map fun k => field bs (8 + 2 * k) 2 }
  if pc ≠ 0 then
    { q with pc := (pc + 4) % 2 ^ 19, todIdx := idx, afterProg := if idx = q.todIdx then q.afterProg else (idx + 1) % 4096 }
  else { q with todIdx := (idx + 1) % 4096, inProg := false }

/-- What taking an exception makes of the sequencer (R98, R99): a frame of 64 bytes is pushed and the handler runs. -/
def Seq.raised (q : Seq) (cause : Nat) : Seq :=
  { q with vsp := q.vsp - 64, xlive := true, pc := q.exb, excCause := cause,
           afterProg := if q.inProg then q.afterProg else (q.todIdx + 1) % 4096, inProg := true }

/-- A vector register has been written by lanes of `n` bits, without stain: lane `i` holds a value of which `p i` holds,
the other vector registers and the rest of the sequencer are as they were; with `ov` the sticky flag `OVERFLOW` is set. -/
structure LanesSet (q q' : Seq) (v n : Nat) (ov : Bool) (p : Nat → Nat → Prop) : Prop where
  lanes : ∀ i, p i (q'.vlane v n i)
  others : ∀ j, j ≠ v → q'.v.getD 0 j = q.v.getD 0 j
  clean : ∀ j, q'.vStain.getD 0 j = 0
  rest : q' = { q with v := q'.v, vStain := q'.vStain, overflow := q.overflow || ov }

/-- The lanes of `k` that an instruction's predicate enables (R89). -/
def Seq.enabledLane (q : Seq) (w k i : Nat) : Prop := i < k ∧ q.lane w i = true

/-- What lane `i` of `VALU` or `VALUX` computes from its second operand (R91): FMA adds the old value. -/
def Seq.valuLane (q : Seq) (w : Nat) (b : Nat → Nat) (i : Nat) : Nat :=
  let n := laneBits (insnW w)
  laneFn (insnW w) (insnFn w) (q.vlane (insnVa w) n i) (if fnBinary (insnFn w) then b i else 0)
    (if insnFn w % 32 == 3 then q.vlane (insnVd w) n i else 0)

/-- What lane `i` of `VLUT` computes through the words of a table, and whether its conversion overflows (R90, R94,
R129). -/
def Seq.vlutLane (q : Seq) (w : Nat) (ws : List Nat) (i : Nat) : Nat × Bool :=
  let f := laneFp (insnW w)
  let a := q.vlane (insnVa w) (laneBits (insnW w)) i
  if insnW w = 0 then (lutApply ws a, false) else toFp f .rne (f32v (lutApply ws (toF32 (f.decode a))))

/-- What lane `i` of `VCVT` computes, and whether its conversion overflows (R90, R129). -/
def Seq.vcvtLane (q : Seq) (w i : Nat) : Nat × Bool :=
  let src := bits (insnFn w) 0 4
  toElem (bits (insnVb w) 0 4) (laneRnd q (bit (insnFn w) 4) i)
    (elemVal src (q.vlane (insnVa w) (laneBits (insnW w)) i % 2 ^ fmtBits src))

/-- The predicate that `VCMP` writes: the relation's result in each enabled lane, the old bit in the others (R90). -/
def Seq.vcmp (q : Seq) (w : Nat) : Nat :=
  let n := laneBits (insnW w)
  ((List.range (laneCount (insnW w))).filter (q.lane w)).foldl (fun p i =>
    setBits p i 1 (b2n (relation (insnFn w % 4) (bit (insnFn w) 5) (insnW w) (q.vlane (insnVa w) n i)
      (q.vlane (insnVb w) n i)))) (q.p.getD (insnVd w % 8) 0)

/-- The byte that writes, in order, leave at an address that they reach through the windows of a partition. -/
def writesBy (h : Hw) (t pid : Nat) : List (Nat × List SByte) → Nat → Option Byte
  | [], _ => none
  | (a, bs) :: ws, b => (writesBy h t pid ws b).or (writtenBy h t pid a bs b)

/-- A tile's SRAM after writes. -/
def SramAfter (h : Hw) (t pid : Nat) (m : SMap Byte) (ws : List (Nat × List SByte)) (y : SMap Byte) : Prop :=
  ∀ b, SMap.getD 0 y b = (writesBy h t pid ws b).getD (SMap.getD 0 m b)

/-- A tile with terms added into one of its accumulators, and the sticky flag `INEXACT` of the additions (R118, R133). -/
def Tile.addAcc (x : Tile) (j : Nat) (lam : Int) (ts : List Val) : Tile :=
  { x with accs := x.accs.putD Acc.zero j ((x.acc j).addTerms lam ts).1
           seq := { x.seq with inexact := x.seq.inexact || ((x.acc j).addTerms lam ts).2 } }

/-- The enabled lanes of `k`, in order. -/
def Seq.lanesOn (q : Seq) (w k : Nat) : List Nat := (List.range k).filter (q.lane w)

/-- The word address of lane `i` of a `VGATH` or `VSCAT` (R90). -/
def Seq.laneAddr (q : Seq) (w i : Nat) : Nat := q.vlane (insnVa w) 32 i

/-- The address of a `VLD` or `VST` (R90). -/
def Seq.vmAddr (q : Seq) (w : Nat) : Nat := ((q.scalar (insnMSb w)).1 + 32 * insnOff w) % 2 ^ 32

/-- The pairs of keys and payloads that `VSORT` puts into the enabled lanes, in order (R90, R92). -/
def Seq.vsorted (q : Seq) (w : Nat) : List (Nat × Nat) :=
  (sortKeys (! bit (insnFn w) 0) ((q.lanesOn w 64).map fun i =>
    (f32v (q.vlane (insnVa w) 32 i), (q.vlane (insnVa w) 32 i, q.vlane (insnVb w) 32 i)))).map (·.2)

/-- A pair of vector registers, `v` and the one after it, has been written in the enabled lanes: the k-th enabled lane
takes the k-th pair; where the two are the same register the second write stands. -/
def PairSet (q q' : Seq) (w : Nat) (rs : List (Nat × Nat)) : Prop :=
  ∃ q1, LanesSet q q1 (insnVd w) 32 false (fun i y => (∀ k, (q.lanesOn w 64)[k]? = some i → y = (rs.getD k (0, 0)).1 % 2 ^ 32) ∧
      (¬ q.enabledLane w 64 i → y = q.vlane (insnVd w) 32 i)) ∧
    LanesSet q1 q' ((insnVd w + 1) % 32) 32 false (fun i y =>
      (∀ k, (q.lanesOn w 64)[k]? = some i → y = (rs.getD k (0, 0)).2 % 2 ^ 32) ∧
      (¬ q.enabledLane w 64 i → y = q1.vlane ((insnVd w + 1) % 32) 32 i))

/-- The values that the enabled lanes of a `VFFT` take from one butterfly stage below 6 (R90, R292). -/
def Seq.vffted (q : Seq) (w : Nat) : List (Nat × Nat) :=
  let m := 2 ^ (insnFn w % 8 + 1)
  let is := q.lanesOn w 64
  let used := (List.range 64).filter fun i => is.any fun j => i / m == j / m && i % (m / 2) == j % (m / 2)
  let z := (List.range 64).map fun i =>
    match (List.zip used (used.map fun i => (q.vlane (insnVa w) 32 i, q.vlane (insnVb w) 32 i))).find? fun e => e.1 == i with
    | some e => e.2
    | none => (0, 0)
  is.map fun i => (fftStage 64 m (bit (insnFn w) 3) z).getD i (0, 0)

/-- The product that lane `i` of a `VMACC` adds (R90, R121). -/
def Seq.vmaccTerm (q : Seq) (w i : Nat) : Val :=
  let n := laneBits (insnW w)
  let fp := bit (insnFn w) 5
  (laneVal fp (insnW w) (q.vlane (insnVa w) n i)).mul (laneVal fp (insnW w) (q.vlane (insnVb w) n i))

/-- The values that a `VRED` reduces (R90, R92). -/
def Seq.vredTerms (q : Seq) (w : Nat) : List Val :=
  (q.lanesOn w (laneCount (insnW w))).map fun i => laneVal true (insnW w) (q.vlane (insnVa w) (laneBits (insnW w)) i)

/-- What lane `i` of `ACCRD` reads from a tile's accumulators, and whether its conversion overflows (R90, R125). -/
def Tile.accrdLane (x : Tile) (w i : Nat) : Nat × Bool :=
  toElem (bits (insnFn w) 0 4) (laneRnd x.seq (bit (insnFn w) 4) i) ((x.acc ((x.seq.acb + i) % 1024)).val (sx 8 x.seq.vlevel))

/-- The descriptor at a tile's TOD index (R81, R95). -/
def todBytes (h : Hw) (t : Nat) (s : Slice) : List Byte :=
  (sramBytes h t s.pid (s.list + 64 * (h.tile t).seq.todIdx) 64).map (·.1)

/-- The TOD that a tile issues next (R81, R84, R85, R95, R98, R101, R105): the tile runs the TOD list of a slice and
holds no stain, its sequencer shows no parity error, the list is a multiple of 64, `d` is the descriptor at the TOD
index, its opcode is `opc`, no TOD of that opcode waits in its units, the units that it and its `WAIT` mask name have
completed their earlier TODs, a loop field names a target, and its predicate lets it issue. -/
structure TodReady (h : Hw) (t : Nat) (s : Slice) (opc : Nat) (d : List Byte) : Prop where
  runs : h.tileRuns t false = true
  parity : (h.tile t).parityBad = false
  aligned : s.list % 64 = 0
  clean : Clean h t
  slice : (h.tile t).slice = some s
  desc : d = todBytes h t s
  opcode : field d 0 1 = opc
  idle : h.waitingTod t opc = none
  units : s.canIssue (header d) true = true
  loop : ((header d).loopEn && (header d).back == 0) = false
  enabled : bit ((h.tile t).seq.p.getD (header d).pred 0) 0 ≠ (header d).pneg

/-- The sequencer after a TOD has completed (R81): its loop field acts; a `VPROG` that has just started keeps its own
index until `HALT`. -/
def Seq.advance (q : Seq) (hd : Header) : Seq :=
  if q.inProg then { q with afterProg := (nextIdx q hd).1, lc := (nextIdx q hd).2 }
  else { q with todIdx := (nextIdx q hd).1, lc := (nextIdx q hd).2 }

/-- The kind and the counts of an operand are those that a TOD's entry admits (R83, R85). -/
def Opnd.admits (o : Opnd) (ks : List Nat) : Bool :=
  decide (o.kind ≤ 4) && ks.contains o.kind &&
  (match o.kind with
    | 1 => o.d0 ≠ 0 && o.d1 ≠ 0 && o.d2 ≠ 0
    | 2 => o.rowBytes ≠ 0 && o.rows ≠ 0
    | 3 => o.d0 ≠ 0 && o.d1 ≠ 0 && decide (o.d0 * o.d1 + bits o.offset 0 10 ≤ 1024)
    | 4 => o.bytes ≠ 0 && decide (o.bytes ≤ 524288)
    | _ => true)

/-- The three operands of a TOD are of kinds that its entry admits. -/
def admits3 (d : List Byte) (a b c : List Nat) : Bool := (opnd d 0).admits a && (opnd d 1).admits b && (opnd d 2).admits c

/-- The SRAM address of a kind-1 operand, or the remote one of a kind-4 operand (R83). -/
def Opnd.addrIn (o : Opnd) (q : Seq) : Nat := (o.offset + (q.scalar o.base).1) % 2 ^ 32

/-- The encodings that a kind-1 operand holds on a tile that becomes `x` (R83, R111). -/
def Opnd.encsIn (o : Opnd) (h : Hw) (t pid : Nat) (x : Tile) (c : Nat) : List Nat :=
  (o.rowOffs.map fun r => unpack c o.d0 ((bytesIn h t x.sram pid (o.addrIn x.seq + r) (rowLen c o.d0)).map (·.1))).flatten

/-- The exact values that a kind-1 operand holds (R110 to R113). -/
def Opnd.valsIn (o : Opnd) (h : Hw) (t pid : Nat) (x : Tile) (c : Nat) : List Val :=
  let es := o.encsIn h t pid x c
  if isMx c then
    let sc := (bytesIn h t x.sram pid (o.scale * 32) (o.d2 * o.d1 * (o.d0 / 32))).map (·.1)
    (List.range es.length).map fun i => scaled ((sc.getD (i / 32) 0).toNat) (elemVal c (es.getD i 0))
  else es.map (elemVal c)

/-- The values of an operand, row by row. -/
def Opnd.rowsIn (o : Opnd) (h : Hw) (t pid : Nat) (x : Tile) (c : Nat) : List (List Val) :=
  rowsOf (o.d1 * o.d2) o.d0 (o.valsIn h t pid x c)

/-- The writes of encodings to a kind-1 operand, row by row (R83, R111). -/
def Opnd.encWrites (o : Opnd) (q : Seq) (c : Nat) (es : List Nat) : List (Nat × List SByte) :=
  (List.range o.rowOffs.length).map fun i =>
    (o.addrIn q + o.rowOffs.getD i 0, withStain false (pack c ((es.drop (i * o.d0)).take o.d0)))

/-- The values of an output with the rounding of each element (R131, R132). -/
def roundings (hd : Header) (q : Seq) (vs : List Val) : List (Val × Rnd) :=
  (List.range vs.length).map fun e => (vs.getD e Val.zero, rndOf hd.sr q.seed (q.s.getD 13 0) e)

/-- The blocks of an MX output. -/
def mxBlocks (hd : Header) (q : Seq) (vs : List Val) : List (Nat × List Nat × Bool) :=
  (blocksOf (vs.length / 32) (roundings hd q vs)).map (toMxBlock hd.fmtOut)

/-- The writes of values to a kind-1 operand in `FMT_OUT` (R125 to R132). -/
def Opnd.valWrites (o : Opnd) (hd : Header) (q : Seq) (vs : List Val) : List (Nat × List SByte) :=
  if isMx hd.fmtOut then
    o.encWrites q hd.fmtOut ((mxBlocks hd q vs).flatMap (·.2.1)) ++
      [(o.scale * 32, withStain false ((mxBlocks hd q vs).map fun b => BitVec.ofNat 8 b.1))]
  else o.encWrites q hd.fmtOut ((roundings hd q vs).map fun v => (toElem hd.fmtOut v.2 v.1).1)

/-- Whether an output's conversion overflows (R133). -/
def valsOver (hd : Header) (q : Seq) (vs : List Val) : Bool :=
  if isMx hd.fmtOut then (mxBlocks hd q vs).any (·.2.2)
  else ((roundings hd q vs).map fun v => toElem hd.fmtOut v.2 v.1).any (·.2)

/-- A tile whose output operand has received values: its SRAM holds them, its sticky flag `OVERFLOW` collects their
conversions', and nothing else of it has changed. -/
def ValsPut (h : Hw) (t pid : Nat) (o : Opnd) (hd : Header) (vs : List Val) (x y : Tile) : Prop :=
  ∃ m, y = { x with sram := m, seq := { x.seq with overflow := x.seq.overflow || valsOver hd x.seq vs } } ∧
    SramAfter h t pid x.sram (o.valWrites hd x.seq vs) m

/-- The reading level of a TOD (R86, R116): a job that has completed no `LEVEL_RECV` on the tile reads any level. -/
def LevelIs (x : Tile) (s : Slice) (hd : Header) (lam : Int) : Prop :=
  (hd.autoLevel = false → lam = sx 8 hd.level) ∧
  (hd.autoLevel = true → x.lvlJobs.contains (s.pid, s.seq) = true → lam = sx 8 x.seq.lvl)

/-- A tile with lists of terms added into its accumulators from `f` on (R118, R624). -/
def Tile.addAll (x : Tile) (f : Nat) (lam : Int) (terms : List (List Val)) : Tile :=
  (List.range terms.length).foldl (fun x i => x.addAcc (f + i) lam (terms.getD i [])) x

/-- A tile with `n` accumulators from `i` on cleared. -/
def Tile.cleared (x : Tile) (i n : Nat) : Tile :=
  { x with accs := x.accs.filter fun e => ! (decide (i ≤ e.1) && decide (e.1 < i + n)) }

/-- The number of elements of a kind-1 operand. -/
def Opnd.count (o : Opnd) : Nat := o.d0 * o.d1 * o.d2

/-- Two operands have rows of one length and equally many of them. -/
def Opnd.sameShape (o a : Opnd) : Bool := o.d0 == a.d0 && o.d1 * o.d2 == a.d1 * a.d2

/-- The rows of operand `k` of a TOD, read in the format `c` (R83, R110 to R113). -/
def rowsAt (h : Hw) (t : Nat) (s : Slice) (d : List Byte) (k c : Nat) : List (List Val) :=
  (opnd d k).rowsIn h t s.pid (h.tile t) c

/-- The values of operand `k` of a TOD, read in the format `c`. -/
def valsAt (h : Hw) (t : Nat) (s : Slice) (d : List Byte) (k c : Nat) : List Val :=
  (opnd d k).valsIn h t s.pid (h.tile t) c

/-- What a TOD that has completed leaves (R81): its tile has become `y`, which `P` describes, with its sequencer moved on,
its slice `s'`, and nothing outside the tile has changed. -/
def TodDone (h h' : Hw) (t : Nat) (d : List Byte) (P : Slice → Tile → Prop) : Prop :=
  ∃ s' y, TileStep t s' h h' (y.withSeq (y.seq.advance (header d))) ∧ P s' y

/-- A tile with its sticky flags collected (R133). -/
def Tile.noteFlags (x : Tile) (i o : Bool) : Tile :=
  x.withSeq { x.seq with inexact := x.seq.inexact || i, overflow := x.seq.overflow || o }

/-- Operand 2 of a TOD has received values; the slice is as it was. -/
def Gives (h : Hw) (t : Nat) (s : Slice) (d : List Byte) (vs : List Val) (s' : Slice) (y : Tile) : Prop :=
  s' = s ∧ ValsPut h t s.pid (opnd d 2) (header d) vs (h.tile t) y

/-- Operand 2 of a TOD has received values, after the conversion of its operands, which overflows when `over` holds (R126,
R129, R133). -/
def GivesOver (h : Hw) (t : Nat) (s : Slice) (d : List Byte) (ovf : Bool) (vs : List Val) (s' : Slice) (y : Tile) : Prop :=
  s' = s ∧ ValsPut h t s.pid (opnd d 2) (header d) vs ((h.tile t).noteFlags false ovf) y

/-- Sums of terms in working flush accumulators, with whether they are inexact (R92, R624). -/
def workSums (lam : Int) (ts : List (List Val)) : List (Acc × Bool) := ts.map (Acc.zero.addTerms lam)

/-- A tile with its sticky flag `INEXACT` set when `b` holds (R133). -/
def Tile.noteInexact (x : Tile) (b : Bool) : Tile :=
  x.withSeq { x.seq with inexact := x.seq.inexact || b }

/-- Sums of terms have gone where operand 2 of a vector TOD says (R624): with kind 3 into the tile's accumulators, added
to what they hold with `ACC_KEEP`; with kind 1 as values, each formed by `f` from a working accumulator, or nowhere with
`ACC_HOLD` (R125). -/
def Accumulates (h : Hw) (t : Nat) (s : Slice) (d : List Byte) (ts : List (List Val)) (f : Int → Acc → Val)
    (s' : Slice) (y : Tile) : Prop :=
  s' = s ∧ ∃ lam, LevelIs (h.tile t) s (header d) lam ∧
    ((opnd d 2).kind = 3 → y = (if (header d).keep then h.tile t else (h.tile t).cleared (opnd d 2).acc ts.length).addAll
      (opnd d 2).acc lam ts) ∧
    ((opnd d 2).kind ≠ 3 →
      if (header d).hold then y = (h.tile t).noteInexact ((workSums lam ts).any (·.2))
      else ValsPut h t s.pid (opnd d 2) (header d) ((workSums lam ts).map fun r => f lam r.1)
        ((h.tile t).noteInexact ((workSums lam ts).any (·.2))) y)

/-- The rows of keys of a `TOPK` or `SORT` with their payloads (R85). -/
def keyedIn (h : Hw) (t : Nat) (s : Slice) (d : List Byte) : List (List (Val × Nat)) :=
  let ks := rowsAt h t s d 0 (header d).fmtA
  let ps := (opnd d 1).encsIn h t s.pid (h.tile t) (header d).fmtB
  (List.range ks.length).map fun r => (ks.getD r []).zip ((ps.drop (r * (opnd d 0).d0)).take (opnd d 0).d0)

/-- The writes of rows of keys, each followed by its row of payloads, and of the block scales of MX keys (log entry 22). -/
def keyedWrites (o : Opnd) (hd : Header) (q : Seq) (rows : List (List (Val × Nat))) : List (Nat × List SByte) :=
  let es := keyRows hd q o.d0 rows
  o.encWrites q hd.fmtOut ((List.range rows.length).flatMap fun i =>
      ((es.getD i ([], [], false)).1) ++ (rows.getD i []).map fun e => e.2 % 2 ^ fmtBits hd.fmtOut) ++
    if isMx hd.fmtOut then (List.range rows.length).map fun i =>
      (o.scale * 32 + 2 * i * (o.d0 / 32), withStain false (es.getD i ([], [], false)).2.1)
    else []

/-- Operand 2 of a `TOPK` or `SORT` has received rows of keys, each followed by its row of payloads (log entry 22). -/
def GivesKeyed (h : Hw) (t : Nat) (s : Slice) (d : List Byte) (rows : List (List (Val × Nat))) (s' : Slice) (y : Tile) : Prop :=
  s' = s ∧ ∃ m, y = { (h.tile t).noteFlags false ((keyRows (header d) (h.tile t).seq (opnd d 2).d0 rows).any (·.2.2)) with sram := m } ∧
    SramAfter h t s.pid (h.tile t).sram (keyedWrites (opnd d 2) (header d) (h.tile t).seq rows) m

/-- The values of the table row that an index names (R85, log entry 23). -/
def Opnd.rowAtIn (o : Opnd) (h : Hw) (t pid : Nat) (x : Tile) (c : Nat) (i : Int) : List Val :=
  let es := unpack c o.d0 ((bytesIn h t x.sram pid (unsx 32 ((o.addrIn x.seq : Int) + i * o.s1)) (rowLen c o.d0)).map (·.1))
  if isMx c then
    let sc := (bytesIn h t x.sram pid (unsx 32 ((o.scale * 32 : Nat) + i * (o.d0 / 32 : Nat))) (o.d0 / 32)).map (·.1)
    (List.range es.length).map fun k => scaled ((sc.getD (k / 32) 0).toNat) (elemVal c (es.getD k 0))
  else es.map (elemVal c)

/-- Rows of bytes copied one after the other inside a tile's SRAM: each pair is a source and a destination address. -/
def CopiedRows (h : Hw) (t pid n : Nat) : List (Nat × Nat) → SMap Byte → SMap Byte → Prop
  | [], m, z => z = m
  | e :: es, m, z => ∃ y, SramAfter h t pid m [(e.2, bytesIn h t m pid e.1 n)] y ∧ CopiedRows h t pid n es y z

/-- Operand 2 of a TOD has received bytes by writes in order, and nothing else has changed. -/
def Stores (h : Hw) (t : Nat) (s : Slice) (ws : List (Nat × List SByte)) (s' : Slice) (y : Tile) : Prop :=
  s' = s ∧ ∃ m, y = { h.tile t with sram := m } ∧ SramAfter h t s.pid (h.tile t).sram ws m

/-- The rows that a `FILL` writes (R85): each starts with the first byte of its pattern. -/
def fillWrites (h : Hw) (t : Nat) (d : List Byte) : List (Nat × List SByte) :=
  (opnd d 2).rowOffs.map fun r => ((opnd d 2).addrIn (h.tile t).seq + r,
    (List.range (rowLen (header d).fmtOut (opnd d 2).d0)).map fun i =>
      ((leBytes 4 (bits (header d).param 32 32)).getD (i % 4) 0, false))

/-- The rows that a `TRANSPOSE` writes (R85). -/
def transposeWrites (h : Hw) (t : Nat) (s : Slice) (d : List Byte) : List (Nat × List SByte) :=
  let a := opnd d 0
  let o := opnd d 2
  let c := (header d).fmtA
  let rows := a.rowOffs.map fun r => unpackS c a.d0 (sramBytes h t s.pid (a.addrIn (h.tile t).seq + r) (rowLen c a.d0))
  (List.range o.d2).flatMap fun k => (List.range o.d1).map fun j =>
    (o.addrIn (h.tile t).seq + j * o.s1 + 32 * k * o.s2,
      packS c ((List.range o.d0).map fun i => (rows.getD (k * a.d1 + i) []).getD j (0, false)))

/-- The complex results of an `FFT` (R85, R292). -/
def fftOut (d : List Byte) (xs : List Val) : List Cx :=
  let b := bits (header d).param 0 3
  let two := bit (header d).param 3
  let inv := bit (header d).param 4
  let m := if two then 2 ^ b * 2 ^ b else 2 ^ b
  (rowsOf (xs.length / (2 * m)) m (pairsOf xs)).flatMap fun z =>
    let y := if two then fft2 b inv z else fft1 b inv z
    if inv then y.map (cxScale (if two then 2 * b else b)) else y

/-- The results of an `ELTWISE` (R85, R91): `FMA` adds the old value of the output. -/
def eltwiseOut (h : Hw) (t : Nat) (s : Slice) (d : List Byte) : List Val :=
  let fn := bits (header d).param 0 6
  let xs := valsAt h t s d 0 (header d).fmtA
  let ys := if fnBinary fn then valsAt h t s d 1 (header d).fmtB else []
  let zs := if fn % 32 = 3 then valsAt h t s d 2 (header d).fmtOut else []
  (List.range (opnd d 0).count).map fun i =>
    laneOut fn (laneFn 0 fn (laneIn fn (xs.getD i Val.zero)) (laneIn fn (ys.getD i Val.zero)) (laneIn fn (zs.getD i Val.zero)))

/-- The values that an `ACT` takes (R85): the accumulators of a kind-3 operand at a level, or the operand's values. -/
def actIn (h : Hw) (t : Nat) (s : Slice) (d : List Byte) (n : Nat) (lam : Int) : List Val :=
  if (opnd d 0).kind = 3 then (List.range n).map fun i => ((h.tile t).acc ((opnd d 0).acc + i)).val lam
  else valsAt h t s d 0 (header d).fmtA

/-- Whether the conversion of the operands of an `ELTWISE` to lanes overflows (R126, R127, R129). -/
def eltwiseOver (h : Hw) (t : Nat) (s : Slice) (d : List Byte) : Bool :=
  let fn := bits (header d).param 0 6
  (valsAt h t s d 0 (header d).fmtA ++ (if fnBinary fn then valsAt h t s d 1 (header d).fmtB else []) ++
    if fn % 32 = 3 then valsAt h t s d 2 (header d).fmtOut else []).any (laneOver fn)

/-- The windows of a `POOL`, one for each output element (R85). -/
def poolWindows (h : Hw) (t : Nat) (s : Slice) (d : List Byte) : List (List Val) :=
  let p := (header d).param
  let a := opnd d 0
  let o := opnd d 2
  (List.range o.d2).flatMap fun oy => (List.range o.d1).flatMap fun ox => (List.range o.d0).map fun c =>
    poolWindow (bits p 2 4) (bits p 6 4) (bits p 10 2 + 1) (bits p 12 2 + 1) a.d2 a.d1 oy ox c
      (rowsAt h t s d 0 (header d).fmtA)

/-- The terms of every output of a `CONV2D` or of a `DWCONV` of `g` groups (R287, R289). -/
def convIn (h : Hw) (t : Nat) (s : Slice) (d : List Byte) (g : Nat) : List (List Val) :=
  let a := opnd d 0
  let b := opnd d 1
  let o := opnd d 2
  convTerms (convOf (header d).param) a.d2 a.d1 a.d0 b.d2 g o.d1 (if o.kind = 3 then 1 else o.d2)
    (rowsAt h t s d 0 (header d).fmtA) (rowsAt h t s d 1 (header d).fmtB)

/-- The filter of a convolution is at most 8 by 8 (R85). -/
def Conv.fits (c : Conv) : Bool := decide (1 ≤ c.kh) && decide (c.kh ≤ 8) && decide (1 ≤ c.kw) && decide (c.kw ≤ 8)

/-- The formats that a MAC operation takes (R114). -/
def macFormats (hd : Header) : Bool := decide (hd.fmtA ≠ 2 ∧ hd.fmtA ≠ 0xF) && decide (hd.fmtB ≠ 2 ∧ hd.fmtB ≠ 0xF)

/-- The indices of a `SCATTER` (R85). -/
def scatterIx (h : Hw) (t : Nat) (s : Slice) (d : List Byte) : List Int := (valsAt h t s d 1 (header d).fmtB).map indexOf

/-- Every write of a list goes to the row of operand 2 that one of the indices names, or in an MX format to the block
scales of that row. -/
def rowWrites (h : Hw) (t : Nat) (d : List Byte) (is : List Int) (ws : List (Nat × List SByte)) : Prop :=
  ∀ e ∈ ws, ∃ i ∈ is, e.1 = unsx 32 (((opnd d 2).addrIn (h.tile t).seq : Int) + i * (opnd d 2).s1) ∨
    (isMx (header d).fmtOut = true ∧
      e.1 = unsx 32 (((opnd d 2).scale * 32 : Nat) + i * ((opnd d 2).d0 / 32 : Nat)))

/-- What `SETS` makes of the sequencer (R85). -/
def Seq.sets (q : Seq) (p : Nat) : Seq :=
  let reg := bits p 0 5
  let v := bits p 32 32
  let upd (w old : Nat) : Nat := if bit p 5 then (old + v) % 2 ^ w else v % 2 ^ w
  if reg < 16 then q.withS reg (upd 32 (q.scalar reg).1) false
  else if reg < 20 then { q with lc := q.lc.set (reg - 16) (upd 16 (q.lc.getD (reg - 16) 0)) }
  else if reg = 20 then { q with exb := upd 19 q.exb }
  else if reg = 21 then { q with vsp := upd 19 q.vsp }
  else if reg = 22 then { q with lvl := upd 8 q.lvl }
  else { q with acb := upd 10 q.acb }

/-- What `SETS` makes of a tile: a value of `LVL` is kept for the activity (R85, R86). -/
def Tile.sets (x : Tile) (s : Slice) (p : Nat) : Tile :=
  { x.withSeq (x.seq.sets p) with
    lvlKept := if bits p 0 5 = 22 then x.lvlKept.put (s.pid * 1024 + s.act) (x.seq.sets p).lvl else x.lvlKept }

/-- A tile with lists of terms added into its MAC output cells from the first on (R118). -/
def Tile.addCells (x : Tile) (lam : Int) (terms : List (List Val)) : Tile :=
  (List.range terms.length).foldl (fun x i =>
    { x with cells := x.cells.putD Acc.zero i ((x.cell i).addTerms lam (terms.getD i [])).1
             seq := { x.seq with inexact := x.seq.inexact || ((x.cell i).addTerms lam (terms.getD i [])).2 } }) x

/-- The output cells from which a MAC operation goes on (R624): cleared without `ACC_KEEP`; those of an operation of the
same shape and level, or of no operation yet, with it; after another operation they hold unpredictable values. -/
def CellsFrom (x : Tile) (s : Slice) (hd : Header) (shape : Nat × Nat × Int) (c : SMap Acc) : Prop :=
  (hd.keep = false → c = []) ∧ (hd.keep = true → s.lastMac = none ∨ s.lastMac = some shape → c = x.cells)

/-- A MAC operation has put the sums of its terms where operand 2 says (R624): with kind 3 into the tile's accumulators;
with kind 1 into the output cells and, without `HOLD`, from them as values into the operand.  The slice notes the shape and
the level of the operation. -/
def MacOut (h : Hw) (t : Nat) (s : Slice) (d : List Byte) (rows cols : Nat) (terms : List (List Val)) (s' : Slice) (y : Tile) : Prop :=
  ∃ lam, LevelIs (h.tile t) s (header d) lam ∧
    ((opnd d 2).kind = 3 → s' = { s with lastMac := some (0, 0, lam) } ∧
      y = (if (header d).keep then h.tile t else (h.tile t).cleared (opnd d 2).acc (rows * cols)).addAll (opnd d 2).acc lam terms) ∧
    ((opnd d 2).kind ≠ 3 → s' = { s with lastMac := some (rows, cols, lam) } ∧
      ∃ c, CellsFrom (h.tile t) s (header d) (rows, cols, lam) c ∧
        if (header d).hold then y = { h.tile t with cells := c }.addCells lam terms
        else ValsPut h t s.pid (opnd d 2) (header d)
          ((List.range (rows * cols)).map fun i => (({ h.tile t with cells := c }.addCells lam terms).cell i).val lam)
          ({ h.tile t with cells := c }.addCells lam terms) y)

/-- The checks of a MAC operation's output operand (R85, R624). -/
def macFits (d : List Byte) (rows cols : Nat) : Bool :=
  if (opnd d 2).kind = 3 then decide (rows * cols + (opnd d 2).acc ≤ 1024)
  else (header d).hold || packable (header d).fmtOut (opnd d 2).d0

/-- The checks of a product's shape and formats (R85, R114). -/
def productFits (d : List Byte) : Bool :=
  let a := opnd d 0
  let b := opnd d 1
  let hd := header d
  macFormats hd && decide (a.d1 * a.d2 ≤ 32) && decide (b.d1 * b.d2 ≤ macN hd.fmtA hd.fmtB) &&
    (! (isMx hd.fmtA || isMx hd.fmtB) || a.d0 % 32 == 0)

/-- The output operand of a product has the product's shape (log entry 19). -/
def outFits (d : List Byte) : Bool :=
  (opnd d 2).kind ≠ 1 || ((opnd d 2).d0 == (opnd d 1).d1 * (opnd d 1).d2 &&
    (opnd d 2).d1 * (opnd d 2).d2 == (opnd d 0).d1 * (opnd d 0).d2)

/-- The rows of B of a `MATMUL_SPARSE` expanded under its metadata (R115); none when a first position is not below its
second. -/
def sparseRows (h : Hw) (t : Nat) (s : Slice) (d : List Byte) : Option (List (List Val)) :=
  let n := (opnd d 1).d1 * (opnd d 1).d2
  let g := (opnd d 0).d0 / 4
  let ms := (sramBytes h t s.pid (bits (header d).param 0 19) (cdiv (n * g) 2)).map (·.1)
  (List.range n).mapM fun i => expandRow ((rowsAt h t s d 1 (header d).fmtB).getD i []) (metaRow ms i g)

/-- The values of a `CONV2D_FFT` in modes 0 and 1 from the filters' spectra (R292). -/
def fftConvOut (h : Hw) (t : Nat) (s : Slice) (d : List Byte) (ss : List (List Cx)) : List Val :=
  let f := fftConvOf (header d).param
  let a := opnd d 0
  let o := opnd d 2
  let xs := (List.range a.d0).map fun c => fft2 f.b false (fftInput f a.d2 a.d1 c (rowsAt h t s d 0 (header d).fmtA))
  let planes := (List.range o.d0).map fun k => fftPlane f xs ((ss.drop (k * a.d0)).take a.d0)
  (List.range o.d2).flatMap fun oy => (List.range o.d1).flatMap fun ox =>
    (List.range o.d0).map fun k => f32v (((planes.getD k []).getD (oy * 2 ^ f.b + ox) (0, 0)).1)

/-- The spectra that a `CONV2D_FFT` in mode 1 reads from B (R292). -/
def spectraIn (h : Hw) (t : Nat) (s : Slice) (d : List Byte) : List (List Cx) :=
  let es := (opnd d 1).encsIn h t s.pid (h.tile t) 0xF
  let n2 := 4 ^ (fftConvOf (header d).param).b
  rowsOf (es.length / (2 * n2)) n2 ((List.range (es.length / 2)).map fun i => (es.getD (2 * i) 0, es.getD (2 * i + 1) 0))

/-- The spectra that a `CONV2D_FFT` in modes 0 and 2 forms from its filters (R292). -/
def spectraOf (h : Hw) (t : Nat) (s : Slice) (d : List Byte) : List (List Cx) :=
  fftSpectra (fftConvOf (header d).param) (opnd d 1).d2 (opnd d 1).d0 (rowsAt h t s d 1 (header d).fmtB)

/-- The checks of a `CONV2D_FFT` (R291). -/
def fftConvFits (d : List Byte) : Bool :=
  let f := fftConvOf (header d).param
  let n := 2 ^ f.b
  let a := opnd d 0
  let o := opnd d 2
  let hd := header d
  f.b ≠ 7 && f.mode ≠ 3 && (decide (f.kh ≤ n) && decide (f.kw ≤ n)) &&
    (decide (o.d2 + f.kh ≤ n + 1) && decide (o.d1 + f.kw ≤ n + 1)) &&
    (decide (a.d1 ≤ n) && decide (a.d2 ≤ n)) && ! (isMx hd.fmtA || isMx hd.fmtB || isMx hd.fmtOut)

/-- What a `SCATTER` has made of the tile so far: writes to rows that its indices name, and sticky flags. -/
structure Scattered (h : Hw) (t pid : Nat) (d : List Byte) (is : List Int) (y : Tile) : Prop where
  flags : y = { h.tile t with
    sram := y.sram, seq := { (h.tile t).seq with inexact := y.seq.inexact, overflow := y.seq.overflow } }
  rows : ∃ ws, rowWrites h t d is ws ∧ SramAfter h t pid (h.tile t).sram ws y.sram

/-- The attention descriptor of an `ATTN_BLOCK` (R251). -/
def attnIn (h : Hw) (t : Nat) (s : Slice) (d : List Byte) : Attn :=
  attnOf ((sramBytes h t s.pid (bits (header d).param 0 19) 64).map (·.1))

/-- The rows of a matrix in a tile's SRAM (R251). -/
def matrixIn (h : Hw) (t : Nat) (s : Slice) (c a rows cols : Nat) : List (List Val) :=
  (List.range rows).map fun r =>
    (unpack c cols ((sramBytes h t s.pid (a + r * rowLen c cols) (rowLen c cols)).map (·.1))).map (elemVal c)

/-- The descriptor of an `ATTN_BLOCK` in a mode is well placed and in range (R251, R252). -/
def attnReady (h : Hw) (t : Nat) (s : Slice) (d : List Byte) (mode : Nat) : Prop :=
  bits (header d).param 19 2 = mode ∧ bits (header d).param 0 19 % 64 = 0 ∧ (attnIn h t s d).ok = true

/-- The checks of the queries and of the block in SRAM of SCAN and ACC (R252). -/
def attnShape (x : Attn) (d : List Byte) : Bool :=
  let a := opnd d 0
  let b := opnd d 1
  let hd := header d
  macFormats hd && (a.d0 == x.dh && decide (a.d1 * a.d2 ≤ 32)) && b.kind == 1 &&
    (b.d1 * b.d2 == 32 && [32, 64, 128, 256, 512, 1024].contains b.d0) &&
    packable hd.fmtA a.d0 && packable hd.fmtB b.d0

/-- The keys of the block in `FMT_E`, with the flags of their flushes (R253). -/
def attnKeys (h : Hw) (t : Nat) (s : Slice) (d : List Byte) : List (List Val) × Bool × Bool :=
  let x := attnIn h t s d
  expand x.fmtE x.lk (matrixIn h t s x.fmtW x.wk x.dh (opnd d 1).d0) (rowsAt h t s d 1 (header d).fmtB)

/-- The values of the block in `FMT_E`, with the flags of their flushes (R253). -/
def attnVals (h : Hw) (t : Nat) (s : Slice) (d : List Byte) : List (List Val) × Bool × Bool :=
  let x := attnIn h t s d
  expand x.fmtE x.lv (matrixIn h t s x.fmtW x.wv x.dh (opnd d 1).d0) (rowsAt h t s d 1 (header d).fmtB)

/-- The scores of the live pairs of a SCAN, row by row (R253). -/
def scanScores (h : Hw) (t : Nat) (s : Slice) (d : List Byte) : List (List (Nat × Bool × Bool)) :=
  let x := attnIn h t s d
  (List.range ((opnd d 0).d1 * (opnd d 0).d2)).map fun r =>
    ((List.range 32).filter fun n => x.live r (x.kpos + n)).map fun n =>
      x.score ((rowsAt h t s d 0 (header d).fmtA).getD r []) ((attnKeys h t s d).1.getD n [])

/-- The maxima that a SCAN leaves (R253): with `ACC_KEEP` it goes on from those of operand 2. -/
def scanMaxima (h : Hw) (t : Nat) (s : Slice) (d : List Byte) : List Nat :=
  let m := (opnd d 0).d1 * (opnd d 0).d2
  let old := if (header d).keep then (opnd d 2).encsIn h t s.pid (h.tile t) 2 else List.replicate m 0x80000000
  (List.range m).map fun r =>
    unsx 32 ((((scanScores h t s d).getD r []).filterMap fun e => ceilClamp e.1).foldl max (sx 32 (old.getD r 0)))

/-- Every write of a list lies in a range of addresses. -/
def writesWithin (a n : Nat) (ws : List (Nat × List SByte)) : Prop :=
  ∀ e ∈ ws, a ≤ e.1 ∧ e.1 + e.2.length ≤ a + n

/-- The accumulators of a half of a carry area (R255). -/
def carryIn (h : Hw) (t : Nat) (s : Slice) (a n half : Nat) : List Acc :=
  let bs := (sramBytes h t s.pid (a + half * (16 * n)) (16 * n)).map (·.1)
  (List.range n).map fun i => ⟨field bs (16 * i) 12, field bs (16 * i + 12) 1 % 4⟩

/-- A tile with carried accumulators added into its own from `f` on, exactly and without a flag (R255). -/
def Tile.addCarry (x : Tile) (f : Nat) (l : List Acc) : Tile :=
  (List.range l.length).foldl (fun x i =>
    let b : Acc := ⟨((x.acc (f + i)).a + (l.getD i Acc.zero).a) % 2 ^ 96, tagJoin (x.acc (f + i)).tag (l.getD i Acc.zero).tag⟩
    { x with accs := x.accs.putD Acc.zero (f + i) b }) x

/-- The terms of each row of an ACC (R253). -/
def accRows (h : Hw) (t : Nat) (s : Slice) (d : List Byte) : List (List (List Val) × List Val × Bool × Bool) :=
  let x := attnIn h t s d
  let m := (opnd d 0).d1 * (opnd d 0).d2
  let mb := (sramBytes h t s.pid x.maxv (4 * m)).map (·.1)
  (List.range m).map fun r => accTerms x x.kpos r (field mb (4 * r) 4) ((rowsAt h t s d 0 (header d).fmtA).getD r [])
    (attnKeys h t s d).1 (attnVals h t s d).1

/-- The accumulators from which an ACC goes on (R255): cleared without `ACC_KEEP`; with it the tile's, to which the first
ACC of the slice on a carry area adds the half that the previous stroke left. -/
def accStart (h : Hw) (t : Nat) (s : Slice) (d : List Byte) : Tile :=
  let x := attnIn h t s d
  let n := (opnd d 0).d1 * (opnd d 0).d2 * (x.dh + 1)
  if (header d).keep then
    if x.carry ≠ 0 && ! s.carryRead.contains x.carry then
      (h.tile t).addCarry (opnd d 2).acc (carryIn h t s x.carry n ((((h.tile t).seq.scalar 15).1 + 1) % 2))
    else h.tile t
  else (h.tile t).cleared (opnd d 2).acc n

/-- The quotients of a FINISH (R254), from a tile's accumulators. -/
def finishVals (x : Attn) (d : List Byte) (z : Tile) : List Val :=
  let m := (opnd d 2).d1 * (opnd d 2).d2
  let f := (opnd d 0).acc
  (List.range m).flatMap fun r => (List.range x.dh).map fun k =>
    quotient (z.acc (f + r * x.dh + k)) (z.acc (f + m * x.dh + r))

/-- The bytes that an ACC writes for `n` accumulators from `f` on to a carry area (R255). -/
def Tile.carryBytes (x : Tile) (f n : Nat) : List SByte :=
  withStain false ((List.range n).flatMap fun i => leBytes 12 (x.acc (f + i)).a ++ leBytes 4 (x.acc (f + i)).tag)

/-- The sticky flags of an ACC (R133, R253). -/
def accFlags (h : Hw) (t : Nat) (s : Slice) (d : List Byte) : Bool × Bool :=
  ((attnKeys h t s d).2.1 || (attnVals h t s d).2.1 || (accRows h t s d).any (·.2.2.1),
   (attnKeys h t s d).2.2 || (attnVals h t s d).2.2 || (accRows h t s d).any (·.2.2.2))

/-- What an ACC leaves (R253, R255): the weighted values and the weights added into the accumulators, the work area with
values that the manual does not give, and with a carry area the accumulators in the half of this stroke. -/
def AccDone (h : Hw) (t : Nat) (s : Slice) (d : List Byte) (n : Nat) (s' : Slice) (y : Tile) : Prop :=
  let x := attnIn h t s d
  let f := (opnd d 2).acc
  s' = (if x.carry ≠ 0 then { s with carryRead := NSet.add s.carryRead x.carry } else s) ∧
  ∃ (lam : Int) (ws : List (Nat × List SByte)) (m : SMap Byte), LevelIs (h.tile t) s (header d) lam ∧ writesWithin x.work (128 * x.dh) ws ∧
    SramAfter h t s.pid (h.tile t).sram ws m ∧
    ∃ z : Tile, z = (Tile.addAll { (accStart h t s d).noteFlags (accFlags h t s d).1 (accFlags h t s d).2 with sram := m } f lam
        ((accRows h t s d).flatMap (·.1))).addAll (f + (opnd d 0).d1 * (opnd d 0).d2 * x.dh) lam
        ((accRows h t s d).map (·.2.1)) ∧
      (x.carry = 0 → y = z) ∧
      (x.carry ≠ 0 → ∃ w, y = { z with sram := w } ∧ SramAfter h t s.pid m
        [(x.carry + ((h.tile t).seq.scalar 15).1 % 2 * (16 * n), z.carryBytes f n)] w)

/-- The end of a TOD that has completed (R81): the sequencer moves on. -/
def Hw.todEnd (h : Hw) (t : Nat) (d : List Byte) : Hw := h.modSeq t fun q => q.advance (header d)

/-- A TOD that acts outside its tile has completed: after the reads of its operands, which change nothing but their
records, `eff` has acted. -/
def TodActs (h h' : Hw) (t : Nat) (s : Slice) (d : List Byte) (eff : Hw → Hw) : Prop :=
  ∃ k, Mid t s h k (h.tile t) ∧ h' = (eff k).todEnd t d

/-- The bytes of operand 0 of a TOD, row after row, in its format. -/
def bytesAt (h : Hw) (t : Nat) (s : Slice) (d : List Byte) : List SByte :=
  ((opnd d 0).rowOffs.map fun r => sramBytes h t s.pid ((opnd d 0).addrIn (h.tile t).seq + r)
    (rowLen (header d).fmtA (opnd d 0).d0)).flatten

/-- The message of a `SEND` or a `HALO_SEND` (R85, R152, R294). -/
def msgOf (h : Hw) (t : Nat) (s : Slice) (d : List Byte) (type : Nat) : Msg :=
  let o := opnd d 2
  let bs := bytesAt h t s d
  { src := s.pos, dst := o.tile, pid := s.pid, cls := h.clsOf s.pid, type := type, slot := o.slot, k := s.k,
    addr := o.addrIn (h.tile t).seq, bytes := bs.length, pieces := piecesOf bs }

/-- A `SEND` or a `HALO_SEND` puts its message into the mesh and notes it for the slice's `COMMIT` flits (R152, R155). -/
def sends (h : Hw) (t : Nat) (s : Slice) (d : List Byte) (type : Nat) (k : Hw) : Hw :=
  (k.post1 (msgOf h t s d type)).modSlice t fun x =>
    { x with sent := x.sent ++ [⟨(opnd d 2).tile, (opnd d 2).slot, (bytesAt h t s d).length⟩] }

/-- The largest exponent that an `EXPSCAN` finds (R124). -/
def scanExp (h : Hw) (t : Nat) (s : Slice) (d : List Byte) : Int :=
  maxExp ((rowsAt h t s d 0 (header d).fmtA).flatMap fun x =>
    (rowsAt h t s d 1 (header d).fmtB).flatMap fun y => (dotTerms x y).filter Val.isNum)

/-- An `EXPSCAN` sends its result to the root (R124). -/
def sendsExp (h : Hw) (t : Nat) (s : Slice) (d : List Byte) (k : Hw) : Hw :=
  match h.physFor s.pid (opnd d 2).tile with
  | some r => k.modTile r fun x => { x with expIn := x.expIn ++ [(bits (header d).param 0 4, s.pid, scanExp h t s d)] }
  | none => k

/-- The results of `EXPSCAN` that a `LEVEL_SEND` collects (R124): the `COUNT` that came first. -/
def expsFor (h : Hw) (t : Nat) (s : Slice) (d : List Byte) : List (Nat × Nat × Int) :=
  ((h.tile t).expIn.filter fun e => e.1 == bits (header d).param 0 4 && e.2.1 == s.pid).take (bits (header d).param 4 11)

/-- A `LEVEL_SEND` consumes the results and sends the level that they form to the tiles of its rectangle (R124). -/
def sendsLevel (h : Hw) (t : Nat) (s : Slice) (d : List Byte) (k : Hw) : Hw :=
  let id := bits (header d).param 0 4
  (rectTiles (opnd d 2)).foldl (fun k l =>
    match k.physFor s.pid l with
    | some r => k.modTile r fun x =>
        { x with lvlIn := x.lvlIn ++ [(id, s.pid, unsx 8 (autoLevel ((expsFor h t s d).map (·.2.2))))] }
    | none => k)
    (k.modTile t fun x => { x with expIn := (expsFor h t s d).foldl List.erase x.expIn })

/-- A `SOB_OP` READ puts the low 32 bits of the object into its register (R85, R88), the flits of its request and of the
answer taken from the buckets of the edges (R60), of which `g` holds what is left. -/
def readsSob (h : Hw) (t : Nat) (d : List Byte) (g k : Hw) : Hw :=
  let k := { k with stn := g.stn }
  let r := bits (header d).param 2 4
  if r = 0 then k else k.modSeq t fun q => q.withS r (h.sob (bits (header d).param 16 16)) false

/-- The slice of a tile that runs one, as it stands. -/
def Hw.sliceAt (k : Hw) (t : Nat) (s : Slice) : Slice := (k.tile t).slice.getD s

/-- The buckets of a partition hold what a final `COMMIT` sends (R60), whatever its operand reads have recorded before. -/
def CommitPaid (h : Hw) (t : Nat) (s : Slice) : Prop :=
  ∀ k, Mid t s h k (h.tile t) → ∃ g, k.chargeCommit t (k.sliceAt t s) = .ok g

/-- A final `COMMIT` pays for what it sends and ends its slice (R60, R87, R155). -/
def commits (t : Nat) (s : Slice) (k : Hw) : Hw :=
  match k.chargeCommit t (k.sliceAt t s) with
  | .ok g => g.finalCommit t (k.sliceAt t s)
  | .error g => g

/-- The barrier of a `BARRIER` as it is counted: its root, its number and who has reached it (R85). -/
def barrierKey (t : Nat) (s : Slice) (d : List Byte) : Nat × Nat × Nat × Nat × Nat :=
  (s.pid, s.act, (opnd d 0).tile, bits (header d).param 0 4, t)

/-- A tile reaches a barrier (R85). -/
def Hw.reach (h : Hw) (key : Nat × Nat × Nat × Nat × Nat) : Hw :=
  if h.fab.barriers.contains key then h else { h with fab := { h.fab with barriers := h.fab.barriers ++ [key] } }

/-- How many tiles have reached the barrier of a key. -/
def Hw.reachedBy (h : Hw) (key : Nat × Nat × Nat × Nat × Nat) : Nat :=
  h.fab.barriers.countP fun b => b.1 == key.1 && b.2.1 == key.2.1 && b.2.2.1 == key.2.2.1 && b.2.2.2.1 == key.2.2.2.1

/-- The rows of memory that a `DMA_LOAD` reads or a `DMA_STORE` writes directly (R625). -/
def dmaRows (h : Hw) (t k : Nat) (d : List Byte) : List (Nat × Nat) :=
  (opnd d k).memRows (((opnd d k).va + ((h.tile t).seq.scalar (opnd d k).base).1) % 2 ^ 48)

/-- The rows of a direct `DMA_LOAD` arrive in SRAM one after the other, and the granules that they together overwrite with
unstained data lose their stain (R85, R105, R625). -/
def dmaArrive (t pid : Nat) (od : Nat) (offs : List Nat) (rows : List (List (Nat × Nat))) (k : Hw) : Hw :=
  let e := (List.range offs.length).foldl (fun (e : List (Nat × List SByte) × Hw) i =>
    let (bs, k) := e.2.dmaRead pid (rows.getD i [])
    (e.1 ++ [(od + offs.getD i 0, bs)], k.wrSram t pid (od + offs.getD i 0) bs)) ([], k)
  e.2.sealRows t pid e.1

/-- The pieces that a direct `DMA_STORE` stages (R87, R625). -/
def dmaStaged (h : Hw) (t : Nat) (s : Slice) (d : List Byte) : List Staged :=
  (List.range (opnd d 0).rowOffs.length).flatMap fun i =>
    stagePieces ((dmaRows h t 2 d).getD i (0, 0)).1 none
      (sramBytes h t s.pid ((opnd d 0).addrIn (h.tile t).seq + (opnd d 0).rowOffs.getD i 0) (opnd d 2).rowBytes)

end Sys2Proof.Machine
end

