-- ==== Sys2Proof/Certificates/Slice0/Obligations.lean ====
section
/-! DEFINITION. The statements about the block, for the provers. -/

open Sys2Proof Sys2Proof.Machine

/-- A packet command NOP, FENCE, ECHO, QUERY or MEM_QUERY that is taken and begins completes with status DONE, DETAIL 0
and as RESULT 0, 0, its VALUE, the value that SEL selects, and the leaf bits of the address in the issuer's context
(or, for the owner, the named one); from the state in which it begins nothing changes but its own record. With
INDEX an object that the issuer holds and no watch registered under the command's own name, SOB_SET writes VALUE
and completes with RESULT 0, SOB_ADD adds modulo 2^64 and returns the previous value, SOB_READ returns the value
and changes nothing but its record. The operation of SOB_SET and SOB_ADD is applied once: when the queue has
already applied this or a later one the object keeps its value. SOB_WAIT leaves its watch registered, or has
completed with the value when all its firings are already reached. Every other object keeps its value. Each clause
about a command concludes that exec answers a next state, under conditions on the state and the operands alone; the
constructors covered: nop, fence, echo, query, memQuery, sobSet, sobAdd, sobRead, sobWait. -/
def Obligations.PacketResultsAndSyncObjects : Prop :=
  (∀ (st : State) (q : QRef) (p : Packet) (qu : Queue) (c : Cmd) (b : Hw),
    Acting st.hw specNop q p qu c b →
    Does (.nop q p) st fun h' => Ends b h' c 0 0 0) ∧
  (∀ (st : State) (q : QRef) (p : Packet) (qu : Queue) (c : Cmd) (b : Hw),
    Acting st.hw specFence q p qu c b →
    Does (.fence q p) st fun h' => Ends b h' c 0 0 0) ∧
  (∀ (st : State) (q : QRef) (p : Packet) (qu : Queue) (c : Cmd) (b : Hw),
    Acting st.hw specEcho q p qu c b →
    Does (.echo q p) st fun h' => Ends b h' c 0 (c.f 16 8) 0) ∧
  (∀ (st : State) (q : QRef) (p : Packet) (qu : Queue) (c : Cmd) (b : Hw),
    Acting st.hw specQuery q p qu c b →
    Does (.query q p) st fun h' => Ends b h' c 0 (queryValue b c) 0) ∧
  (∀ (st : State) (q : QRef) (p : Packet) (qu : Queue) (c : Cmd) (b : Hw),
    Acting st.hw specMemQuery q p qu c b →
    Does (.memQuery q p) st fun h' => Ends b h' c 0 (memQueryResult b (if c.pid = 0 then c.f 22 1 else c.pid) (c.f 16 6)) 0) ∧
  (∀ (st : State) (q : QRef) (p : Packet) (qu : Queue) (c : Cmd) (b : Hw),
    Acting st.hw specSobSet q p qu c b →
    b.holdsSob c.pid (c.f 16 2) = true →
    ((∀ w ∈ b.watches, w.same c = false)) →
    Does (.sobSet q p) st fun h' => Completed h' c 0 0 0 ∧ (∀ k, k ≠ c.f 16 2 → h'.sob k = b.sob k) ∧
      ∃ x, b.queue c.pid c.queue = some x ∧
        h'.sob (c.f 16 2) = if c.seq ≤ x.sobSeq then b.sob (c.f 16 2) else c.f 24 8 % 2 ^ 64) ∧
  (∀ (st : State) (q : QRef) (p : Packet) (qu : Queue) (c : Cmd) (b : Hw),
    Acting st.hw specSobAdd q p qu c b →
    b.holdsSob c.pid (c.f 16 2) = true →
    ((∀ w ∈ b.watches, w.same c = false)) →
    Does (.sobAdd q p) st fun h' => (∀ k, k ≠ c.f 16 2 → h'.sob k = b.sob k) ∧
      ∃ x, b.queue c.pid c.queue = some x ∧ Completed h' c 0 (b.sob (c.f 16 2)) 0 ∧
        h'.sob (c.f 16 2) = if c.seq ≤ x.sobSeq then b.sob (c.f 16 2) else (b.sob (c.f 16 2) + c.f 24 8) % 2 ^ 64) ∧
  (∀ (st : State) (q : QRef) (p : Packet) (qu : Queue) (c : Cmd) (b : Hw),
    Acting st.hw specSobRead q p qu c b →
    b.holdsSob c.pid (c.f 16 2) = true →
    Does (.sobRead q p) st fun h' => Ends b h' c 0 (b.sob (c.f 16 2)) 0) ∧
  (∀ (st : State) (q : QRef) (p : Packet) (qu : Queue) (c : Cmd) (b : Hw),
    Acting st.hw specSobWait q p qu c b →
    ((∀ w ∈ b.watches, w.same c = false)) →
    Does (.sobWait q p) st fun h' => (∀ k, h'.sob k = b.sob k) ∧
      (((waitWatch b c).eval (b.sob (c.f 16 2))).done = true → Completed h' c 0 (b.sob (c.f 16 2)) 0) ∧
      (((waitWatch b c).eval (b.sob (c.f 16 2))).done = false →
        (waitWatch b c).eval (b.sob (c.f 16 2)) ∈ h'.watches))

/-- MEM_FILL of a virtual range, rounded down to whole 64-byte lines, pays as the DRAM buckets allow, stores PATTERN
repeated over the range when every page allows a write, and completes with the bytes written; a page that fails
ends it with the status of the failure. With PHYS it makes every whole UNINIT or DIRTY frame CLEAN and stores the
pattern there. MEM_COPY copies its lines one after the other, each with its stain (free bytes for ranges that
overlap), and completes with the bytes copied; the first line of which a page fails ends it. Nothing else changes
but what an access records. MAP that its checks allow converts the blocks whose class it changes, enters the leaves
of all its pages into the context and makes each frame MAPPED with its owner or share set; UNMAP takes the pages
wholly in the range out of the context, and when no request that translated through them is left makes the frames
that nothing maps any more DIRTY and answers the pages removed; while such a request is left it waits with INV_BUSY
set. SETS_FREE follows the share sets. Each clause about a command concludes that exec answers a next state, under
conditions on the state and the operands alone; the constructors covered: memFill, memCopy, map, unmap. -/
def Obligations.PacketMemoryAndMapping : Prop :=
  (∀ (st : State) (q : QRef) (p : Packet) (qu : Queue) (c : Cmd) (b : Hw) (k : Hw),
    Acting st.hw specMemFill q p qu c b →
    fillPhys c = false →
    (b.spendDram c.pid (fillRange c).1 (fillRange c).2 true).cmdWrite c.pid (fillRange c).1
      (patternBytes (c.f 32 8) (fillRange c).2) false = (none, k) →
    Does (.memFill q p) st fun h' => Ends k h' c 0 (fillRange c).2 0 ∧
      k.calm = (b.spendDram c.pid (fillRange c).1 (fillRange c).2 true).calm) ∧
  (∀ (st : State) (q : QRef) (p : Packet) (qu : Queue) (c : Cmd) (b : Hw) (e : Nat × Nat) (k : Hw),
    Acting st.hw specMemFill q p qu c b →
    fillPhys c = false →
    (b.spendDram c.pid (fillRange c).1 (fillRange c).2 true).cmdWrite c.pid (fillRange c).1
      (patternBytes (c.f 32 8) (fillRange c).2) false = (some e, k) →
    Does (.memFill q p) st fun h' => h' = k.failPage c e) ∧
  (∀ (st : State) (q : QRef) (p : Packet) (qu : Queue) (c : Cmd) (b : Hw),
    Acting st.hw specMemFill q p qu c b →
    fillPhys c = true →
    Does (.memFill q p) st fun h' => Ends (({ b with mem :=
        (upto ((fillRange c).1 / 0x10000) ((fillRange c).2 / 0x10000)).foldl Mem.cleanFrame b.mem } : Hw).store (fillRange c).1 (patternBytes (c.f 32 8) (fillRange c).2) false) h' c 0 (fillRange c).2 0) ∧
  (∀ (st : State) (q : QRef) (p : Packet) (qu : Queue) (c : Cmd) (b : Hw),
    Acting st.hw specMemCopy q p qu c b →
    c.f 32 6 < 64 →
    Does (.memCopy q p) st fun h' => ∃ k : Hw, k.calm = b.calm ∧ Ends k h' c 0 0 0) ∧
  (∀ (st : State) (q : QRef) (p : Packet) (qu : Queue) (c : Cmd) (b : Hw) (k k2 k3 : Hw) (bs : List Byte) (sd : Bool),
    Acting st.hw specMemCopy q p qu c b →
    c.f 32 6 / 64 = 1 →
    c.f 16 6 / 64 ≠ c.f 24 6 / 64 →
    k = (b.spendDram c.pid (c.f 16 6 / 64 * 64) 64 false).spendDram c.pid (c.f 24 6 / 64 * 64) 64 true →
    k.cmdRead c.pid (c.f 16 6 / 64 * 64) 64 = (.ok (bs, sd), k2) →
    k2.cmdWrite c.pid (c.f 24 6 / 64 * 64) bs sd = (none, k3) →
    Does (.memCopy q p) st fun h' => Ends k3 h' c 0 64 0) ∧
  (∀ (st : State) (q : QRef) (p : Packet) (qu : Queue) (c : Cmd) (b : Hw) (k : Hw),
    Acting st.hw specMemCopy q p qu c b →
    copiedLines c.pid (c.f 16 6 / 64 * 64) (c.f 24 6 / 64 * 64) (decide (c.f 16 6 / 64 * 64 < c.f 24 6 / 64 * 64 + c.f 32 6 / 64 * 64) &&
      decide (c.f 24 6 / 64 * 64 < c.f 16 6 / 64 * 64 + c.f 32 6 / 64 * 64))
      (List.range (c.f 32 6 / 64))
      ((b.spendDram c.pid (c.f 16 6 / 64 * 64) (c.f 32 6 / 64 * 64) false).spendDram c.pid (c.f 24 6 / 64 * 64) (c.f 32 6 / 64 * 64) true) = some k →
    Does (.memCopy q p) st fun h' => Ends k h' c 0 (c.f 32 6 / 64 * 64) 0) ∧
  (∀ (st : State) (q : QRef) (p : Packet) (qu : Queue) (c : Cmd) (b : Hw) (i : Nat) (e : Nat × Nat) (k k2 : Hw),
    Acting st.hw specMemCopy q p qu c b →
    i < c.f 32 6 / 64 →
    copiedLines c.pid (c.f 16 6 / 64 * 64) (c.f 24 6 / 64 * 64) (decide (c.f 16 6 / 64 * 64 < c.f 24 6 / 64 * 64 + c.f 32 6 / 64 * 64) &&
      decide (c.f 24 6 / 64 * 64 < c.f 16 6 / 64 * 64 + c.f 32 6 / 64 * 64))
      (List.range i)
      ((b.spendDram c.pid (c.f 16 6 / 64 * 64) (c.f 32 6 / 64 * 64) false).spendDram c.pid (c.f 24 6 / 64 * 64) (c.f 32 6 / 64 * 64) true) = some k →
    k.cmdRead c.pid (c.f 16 6 / 64 * 64 + 64 * i) 64 = (.error e, k2) →
    Does (.memCopy q p) st fun h' => h' = k2.failPage c e) ∧
  (∀ (st : State) (q : QRef) (p : Packet) (qu : Queue) (c : Cmd) (b : Hw) (i : Nat) (e : Nat × Nat) (bs : List Byte) (sd : Bool) (k k2 k3 : Hw),
    Acting st.hw specMemCopy q p qu c b →
    (decide (c.f 16 6 / 64 * 64 < c.f 24 6 / 64 * 64 + c.f 32 6 / 64 * 64) &&
      decide (c.f 24 6 / 64 * 64 < c.f 16 6 / 64 * 64 + c.f 32 6 / 64 * 64)) = false →
    i < c.f 32 6 / 64 →
    copiedLines c.pid (c.f 16 6 / 64 * 64) (c.f 24 6 / 64 * 64) false
      (List.range i)
      ((b.spendDram c.pid (c.f 16 6 / 64 * 64) (c.f 32 6 / 64 * 64) false).spendDram c.pid (c.f 24 6 / 64 * 64) (c.f 32 6 / 64 * 64) true) = some k →
    k.cmdRead c.pid (c.f 16 6 / 64 * 64 + 64 * i) 64 = (.ok (bs, sd), k2) →
    k2.cmdWrite c.pid (c.f 24 6 / 64 * 64 + 64 * i) bs sd = (some e, k3) →
    Does (.memCopy q p) st fun h' => h' = k3.failPage c e) ∧
  (∀ (st : State) (q : QRef) (p : Packet) (qu : Queue) (c : Cmd) (b : Hw) (m : Mem),
    Acting st.hw specMap q p qu c b →
    (m = ((mapReq c).frames b).foldl (fun x f => x.frameMapped (mapReq c).ctx f)
      (((mapReq c).convert b).setCtx (mapReq c).ctx ((mapReq c).enter b (((mapReq c).convert b).ctx (mapReq c).ctx)))) →
    Does (.map q p) st fun h' => Ends ({ b with mem := m } : Hw).showSets h' c 0 0 0) ∧
  (∀ (st : State) (q : QRef) (p : Packet) (qu : Queue) (c : Cmd) (b : Hw) (n : Nat) (fs : NSet) (k : Hw),
    Acting st.hw specUnmap q p qu c b →
    b.unmapPages (c.f 16 1) (c.f 24 6) (c.f 32 6) = (n, fs, k) →
    k.translated (c.f 16 1) fs = false →
    Does (.unmap q p) st fun h' => Completed h' c 0 n 0 ∧
      h' = ((k.unmapFrames (c.f 16 1) fs).finishAt 0 c.queue c.num 0 n 0 {}).showUnmaps) ∧
  (∀ (st : State) (q : QRef) (p : Packet) (qu : Queue) (c : Cmd) (b : Hw) (n : Nat) (fs : NSet) (k : Hw),
    Acting st.hw specUnmap q p qu c b →
    b.unmapPages (c.f 16 1) (c.f 24 6) (c.f 32 6) = (n, fs, k) →
    k.translated (c.f 16 1) fs = true →
    Does (.unmap q p) st fun h' => h' = ({ k with sys := { k.sys with unmaps := k.sys.unmaps ++
        [{ queue := c.queue, num := c.num, ctx := c.f 16 1, frames := fs, pages := n }] } } : Hw).showUnmaps ∧
      h'.get F.PMMU_STATUS_INV_BUSY = 1) ∧
  (∀ (h : Hw) (u : Unmapping), h.sys.unmaps = [u] →
    (h.translated u.ctx u.frames = false → h.settleUnmaps =
      ((({ h with sys := { h.sys with unmaps := [] } } : Hw).unmapFrames u.ctx u.frames).finishAt 0 u.queue u.num 0 u.pages 0 {}).showUnmaps) ∧
    (h.translated u.ctx u.frames = true → h.settleUnmaps = h.showUnmaps))

/-- MODEL_LOAD answers the outcome of the first check that fails, and then registers nothing: FULL with 1,024
registrations; ACCESS with the first page that does not translate for reading (a DEV page fails the command);
FORMAT with the offset of the first failing field; CLASS, UNDERCOAT and CLAIM with their index. An image that
passes them is registered under the handle with RESULT 0, and an undercoat that it names is undercoat-pinned and
installed. MODEL_PIN sets PINNED and starts the installation, MODEL_UNPIN clears PINNED and reconsiders the waiting
images, MODEL_EVICT returns the image to REGISTERED and with RELEASE ends its registration, MODEL_QUERY writes the
record of the image and answers its first 8 bytes. Each clause about a command concludes that exec answers a next
state, under conditions on the state and the operands alone; the constructors covered: modelLoad, modelPin,
modelUnpin, modelEvict, modelQuery. -/
def Obligations.PacketModels : Prop :=
  (∀ (st : State) (q : QRef) (p : Packet) (qu : Queue) (c : Cmd) (b : Hw),
    Acting st.hw specModelLoad q p qu c b →
    1024 ≤ b.models.length →
    Does (.modelLoad q p) st fun h' => Ends b h' c 0 6 0) ∧
  (∀ (st : State) (q : QRef) (p : Packet) (qu : Queue) (c : Cmd) (b : Hw) (i e a : Nat),
    Acting st.hw specModelLoad q p qu c b →
    b.models.length < 1024 →
    ((imagePages b c.pid (c.f 24 6) (c.f 32 6)).find? (fun x => match x.2 with
      | .error _ => true
      | .ok _ => false) = some (i, .error e)) →
    a = ((pieces (c.f 24 6) (c.f 32 6)).getD i (c.f 24 6, 0)).1 →
    Does (.modelLoad q p) st fun h' => (e ≠ 3 → Ends (b.translationFault 2 e c.pid a) h' c 0 (2 + i % 2 ^ 32 * 256) 0) ∧
      (e = 3 → h' = (b.translationFault 2 e c.pid a).failPage c (a, 3))) ∧
  (∀ (st : State) (q : QRef) (p : Packet) (qu : Queue) (c : Cmd) (b : Hw) (ps : List Nat) (k : Hw),
    Acting st.hw specModelLoad q p qu c b →
    b.models.length < 1024 →
    (imagePages b c.pid (c.f 24 6) (c.f 32 6) =
      (List.range ps.length).map fun i => (i, (Except.ok (ps.getD i 0) : Except Nat Nat))) →
    RecordEnds b c (c.f 24 6) (c.f 32 6) k →
    Does (.modelLoad q p) st fun h' => h' = k) ∧
  (∀ (st : State) (q : QRef) (p : Packet) (qu : Queue) (c : Cmd) (b : Hw) (ps : List Nat) (bs : List Byte) (k : Hw) (off : Nat),
    Acting st.hw specModelLoad q p qu c b →
    ImageRead b c ps bs k →
    parseImage bs (c.f 24 6) (c.f 32 6) = .error off →
    Does (.modelLoad q p) st fun h' => Ends k h' c 0 (1 + off % 2 ^ 32 * 256) 0) ∧
  (∀ (st : State) (q : QRef) (p : Packet) (qu : Queue) (c : Cmd) (b : Hw) (ps : List Nat) (bs : List Byte) (k : Hw) (m : Model) (i : Nat),
    Acting st.hw specModelLoad q p qu c b →
    ImageRead b c ps bs k →
    parseImage bs (c.f 24 6) (c.f 32 6) = .ok m →
    classFault k c.pid ps m = some i →
    Does (.modelLoad q p) st fun h' => Ends k h' c 0 (4 + i % 2 ^ 32 * 256) 0) ∧
  (∀ (st : State) (q : QRef) (p : Packet) (qu : Queue) (c : Cmd) (b : Hw) (ps : List Nat) (bs : List Byte) (k : Hw) (m : Model),
    Acting st.hw specModelLoad q p qu c b →
    ImageRead b c ps bs k →
    parseImage bs (c.f 24 6) (c.f 32 6) = .ok m →
    classFault k c.pid ps m = none →
    m.hasUndercoat = true →
    ucFits k c.pid (c.f 17 1) m = false →
    Does (.modelLoad q p) st fun h' => Ends k h' c 0 5 0) ∧
  (∀ (st : State) (q : QRef) (p : Packet) (qu : Queue) (c : Cmd) (b : Hw) (ps : List Nat) (bs : List Byte) (k : Hw) (m : Model) (i : Nat),
    Acting st.hw specModelLoad q p qu c b →
    ImageRead b c ps bs k →
    parseImage bs (c.f 24 6) (c.f 32 6) = .ok m →
    classFault k c.pid ps m = none →
    (m.hasUndercoat = false ∨ ucFits k c.pid (c.f 17 1) m = true) →
    k.claimConflict c.pid m = some i →
    Does (.modelLoad q p) st fun h' => Ends k h' c 0 (3 + i % 2 ^ 32 * 256) 0) ∧
  (∀ (st : State) (q : QRef) (p : Packet) (qu : Queue) (c : Cmd) (b : Hw) (ps : List Nat) (bs : List Byte) (k : Hw) (m : Model),
    Acting st.hw specModelLoad q p qu c b →
    ImageRead b c ps bs k →
    parseImage bs (c.f 24 6) (c.f 32 6) = .ok m →
    classFault k c.pid ps m = none →
    m.hasUndercoat = false →
    k.claimConflict c.pid m = none →
    Does (.modelLoad q p) st fun h' => Ends (k.register c.pid (mHandle c) { m with ucHandle := c.f 17 1, useStamp := k.now }) h' c 0 0 0) ∧
  (∀ (st : State) (q : QRef) (p : Packet) (qu : Queue) (c : Cmd) (b : Hw) (ps : List Nat) (bs : List Byte) (k : Hw) (m : Model),
    Acting st.hw specModelLoad q p qu c b →
    ImageRead b c ps bs k →
    parseImage bs (c.f 24 6) (c.f 32 6) = .ok m →
    classFault k c.pid ps m = none →
    m.hasUndercoat = true →
    ucFits k c.pid (c.f 17 1) m = true →
    k.claimConflict c.pid m = none →
    Does (.modelLoad q p) st fun h' => Ends (((k.register c.pid (mHandle c) { m with ucHandle := c.f 17 1, useStamp := k.now }).modModel c.pid (c.f 17 1) fun u => { u with ucPinned := true }).install c.pid (c.f 17 1)) h' c 0 0 0) ∧
  (∀ (st : State) (q : QRef) (p : Packet) (qu : Queue) (c : Cmd) (b : Hw),
    Acting st.hw specModelPin q p qu c b →
    Does (.modelPin q p) st fun h' => Ends ((b.modModel c.pid (mHandle c) fun m => { m with pinned := true }).install c.pid (mHandle c)) h' c 0 0 0) ∧
  (∀ (st : State) (q : QRef) (p : Packet) (qu : Queue) (c : Cmd) (b : Hw),
    Acting st.hw specModelUnpin q p qu c b →
    Does (.modelUnpin q p) st fun h' => Ends ((b.modModel c.pid (mHandle c) fun m => { m with pinned := false }).reinstall c.pid) h' c 0 0 0) ∧
  (∀ (st : State) (q : QRef) (p : Packet) (qu : Queue) (c : Cmd) (b : Hw),
    Acting st.hw specModelEvict q p qu c b →
    bit (c.f 17 1) 0 = false →
    Does (.modelEvict q p) st fun h' => Ends ((b.toRegistered c.pid (mHandle c)).reinstall c.pid) h' c 0 0 0) ∧
  (∀ (st : State) (q : QRef) (p : Packet) (qu : Queue) (c : Cmd) (b : Hw) (m : Model),
    Acting st.hw specModelEvict q p qu c b →
    bit (c.f 17 1) 0 = true →
    (b.toRegistered c.pid (mHandle c)).model c.pid (mHandle c) = some m →
    Does (.modelEvict q p) st fun h' => Ends ((((b.toRegistered c.pid (mHandle c)).unregister c.pid (mHandle c)).dropUcPin c.pid m).reinstall c.pid) h' c 0 0 0) ∧
  (∀ (st : State) (q : QRef) (p : Packet) (qu : Queue) (c : Cmd) (b : Hw) (m : Model) (k : Hw),
    Acting st.hw specModelQuery q p qu c b →
    b.model c.pid (mHandle c) = some m →
    b.cmdWrite c.pid (c.f 24 6 / 32 * 32) (modelRecord b c.pid (mHandle c) m) false = (none, k) →
    Does (.modelQuery q p) st fun h' => Ends k h' c 0 (field (modelRecord b c.pid (mHandle c) m) 0 8) 0)

/-- A JOB_SUBMIT placed on this module enters, at its acceptance, a job under its own queue and sequence number with
its handle, batch size, deadline and argument words, which waits to begin; a group submission on the manager is
held until its record is durable. JOB_CANCEL of an accepted job, of this module or of the group, marks it as
cancelled and answers 1, and 0 when no job has the number; JOB_QUERY answers the state and the lowest job stroke of
the job (of a group job whether it is dispatched), and 0 when there is none. Each clause about a command concludes
that exec answers a next state, under conditions on the state and the operands alone; the constructors covered:
jobSubmit, jobCancel, jobQuery. -/
def Obligations.PacketJobs : Prop :=
  (∀ (st : State) (q : QRef) (p : Packet) (qu : Queue) (c : Cmd) (b : Hw),
    Taking st.hw specJobSubmit q p qu c b →
    subPlace c = 0 →
    Does (.jobSubmit q p) st fun h' => h' = b ∧ ∃ j ∈ h'.jobs, j.pid = c.pid ∧ j.queue = c.queue ∧ j.num = c.num ∧ j.seq = c.seq ∧
      j.handle = subHandle c ∧ j.batch = c.f 18 2 ∧ j.begun = none ∧
      (j.dl = if c.f 20 4 = 0 then none else some (c.acceptAt + c.f 20 4)) ∧
      j.args = (List.range 15).map fun i => field c.pkt (64 + 8 * i) 8) ∧
  (∀ (st : State) (q : QRef) (p : Packet) (qu : Queue) (c : Cmd) (b : Hw),
    Taking st.hw specJobSubmit q p qu c b →
    st.hw.groupSubmit q qu (rowPacket 0x40 p) = true →
    Does (.jobSubmit q p) st fun h' => h' = st.hw.holdSubmit q (rowPacket 0x40 p)) ∧
  (∀ (st : State) (q : QRef) (p : Packet) (qu : Queue) (c : Cmd) (b : Hw) (j : Job),
    Acting st.hw specJobCancel q p qu c b →
    b.jobBySeq c.pid (c.f 16 6) = some j →
    Does (.jobCancel q p) st fun h' => Ends (b.modJob j.pid j.queue j.num fun j => { j with cancelled := some (j.cancelled.getD c.seq) }) h' c 0 1 0) ∧
  (∀ (st : State) (q : QRef) (p : Packet) (qu : Queue) (c : Cmd) (b : Hw) (g : GJob) (k : Hw),
    Acting st.hw specJobCancel q p qu c b →
    b.jobBySeq c.pid (c.f 16 6) = none →
    b.gjobBySeq c.pid (c.f 16 6) = some g →
    (k = { b with sys := { b.sys with grp := { b.sys.grp with jobs := b.sys.grp.jobs.map fun x =>
      if x.gseq = g.gseq then { x with cancelled := some (x.cancelled.getD c.seq) } else x } } }) →
    Does (.jobCancel q p) st fun h' => Ends k h' c 0 1 0) ∧
  (∀ (st : State) (q : QRef) (p : Packet) (qu : Queue) (c : Cmd) (b : Hw),
    Acting st.hw specJobCancel q p qu c b →
    b.jobBySeq c.pid (c.f 16 6) = none →
    b.gjobBySeq c.pid (c.f 16 6) = none →
    Does (.jobCancel q p) st fun h' => Ends b h' c 0 0 0) ∧
  (∀ (st : State) (q : QRef) (p : Packet) (qu : Queue) (c : Cmd) (b : Hw) (j : Job),
    Acting st.hw specJobQuery q p qu c b →
    b.jobBySeq c.pid (c.f 16 6) = some j →
    Does (.jobQuery q p) st fun h' => Ends b h' c 0 (b.jobState j + b.lowest j % 2 ^ 32 * 16) 0) ∧
  (∀ (st : State) (q : QRef) (p : Packet) (qu : Queue) (c : Cmd) (b : Hw) (g : GJob),
    Acting st.hw specJobQuery q p qu c b →
    b.jobBySeq c.pid (c.f 16 6) = none →
    b.gjobBySeq c.pid (c.f 16 6) = some g →
    Does (.jobQuery q p) st fun h' => Ends b h' c 0 (if g.dispatched then 3 else 1) 0) ∧
  (∀ (st : State) (q : QRef) (p : Packet) (qu : Queue) (c : Cmd) (b : Hw),
    Acting st.hw specJobQuery q p qu c b →
    b.jobBySeq c.pid (c.f 16 6) = none →
    b.gjobBySeq c.pid (c.f 16 6) = none →
    Does (.jobQuery q p) st fun h' => Ends b h' c 0 0 0)

/-- SEQ_CREATE makes a live record with LEN 0 and the fields of the command; SEQ_FORK makes a record that equals the
source but for its page list and shares the sheets that the entries name; SEQ_TRUNCATE to no more than LEN sets LEN
and releases the sheets beyond it, and to more answers LEN; SEQ_FREE releases every sheet and frees the handle;
SEQ_QUERY writes the record and answers LEN. A page list or a record that the issuer's context does not reach, or a
stained entry, ends the command with its failure. With a free entry handle, GAZ_PUBLISH walks its chain of block
hashes, creates the nodes that are missing while sheets may be published and room is left, and answers the depth,
the reason for stopping and the entry handle (0x3FF when it made no node); GAZ_LOOKUP that finds no chain answers 0
and changes nothing, and one that finds a chain attaches the empty sequence to its deepest node with LEN 256 per
block; GAZ_RETIRE retires the live nodes of the entry handle and answers how many. Tokens or a page list that
cannot be read, or are stained, end the command with their failure. Each clause about a command concludes that exec
answers a next state, under conditions on the state and the operands alone; the constructors covered: seqCreate,
seqFork, seqTruncate, seqFree, seqQuery, gazPublish, gazLookup, gazRetire. -/
def Obligations.PacketSequencesAndGazetteer : Prop :=
  (∀ (st : State) (q : QRef) (p : Packet) (qu : Queue) (c : Cmd) (b : Hw),
    Acting st.hw specSeqCreate q p qu c b →
    b.runsFault c.pid (createSeqRec c) 0 (createSeqRec c).maxs = none →
    Does (.seqCreate q p) st fun h' => h'.seqOf c.pid (c.f 16 2) = some (createSeqRec c) ∧ (createSeqRec c).len = 0 ∧
      ∃ k : Hw, k.calm = b.calm ∧ Ends (k.setSeq c.pid (c.f 16 2) (createSeqRec c)) h' c 0 0 0) ∧
  (∀ (st : State) (q : QRef) (p : Packet) (qu : Queue) (c : Cmd) (b : Hw) (a e : Nat),
    Acting st.hw specSeqCreate q p qu c b →
    b.runsFault c.pid (createSeqRec c) 0 (createSeqRec c).maxs = some (a, e) →
    Does (.seqCreate q p) st fun h' => h' = (b.translationFault 2 e c.pid a).failPage c (a, e)) ∧
  (∀ (st : State) (q : QRef) (p : Packet) (qu : Queue) (c : Cmd) (b : Hw) (s : SeqRec) (x e : Nat),
    Acting st.hw specSeqFork q p qu c b →
    b.seqOf c.pid (c.f 16 2) = some s →
    b.runsFault c.pid { s with plVa := c.f 24 6 } 0 s.maxs = some (x, e) →
    Does (.seqFork q p) st fun h' => h' = (b.translationFault 2 e c.pid x).failPage c (x, e)) ∧
  (∀ (st : State) (q : QRef) (p : Packet) (qu : Queue) (c : Cmd) (b : Hw) (s : SeqRec) (k : Hw),
    Acting st.hw specSeqFork q p qu c b →
    b.seqOf c.pid (c.f 16 2) = some s →
    b.runsFault c.pid { s with plVa := c.f 24 6 } 0 s.maxs = none →
    EntriesEnd b c s 0 s.maxs k →
    Does (.seqFork q p) st fun h' => h' = k) ∧
  (∀ (st : State) (q : QRef) (p : Packet) (qu : Queue) (c : Cmd) (b : Hw) (s : SeqRec) (es : List (List Nat)) (k : Hw),
    Acting st.hw specSeqFork q p qu c b →
    b.seqOf c.pid (c.f 16 2) = some s →
    b.runsFault c.pid { s with plVa := c.f 24 6 } 0 s.maxs = none →
    ReadsEntries b c s 0 s.maxs es k →
    Does (.seqFork q p) st fun h' => Ends (((es.flatten.foldl (fun h n => h.shareSheet c.pid n)
      (k.writeLayers c.pid { s with plVa := c.f 24 6 } 0 0 es).2).attach s.node).setSeq c.pid (c.f 18 2)
        { s with plVa := c.f 24 6 }) h' c 0 0 0) ∧
  (∀ (st : State) (q : QRef) (p : Packet) (qu : Queue) (c : Cmd) (b : Hw) (s : SeqRec),
    Acting st.hw specSeqTruncate q p qu c b →
    b.seqOf c.pid (c.f 16 2) = some s →
    s.len < bits (c.f 20 4) 0 21 →
    Does (.seqTruncate q p) st fun h' => Ends b h' c 0 s.len 0) ∧
  (∀ (st : State) (q : QRef) (p : Packet) (qu : Queue) (c : Cmd) (b : Hw) (s : SeqRec) (n i : Nat) (es : List (List Nat)) (k : Hw),
    Acting st.hw specSeqTruncate q p qu c b →
    b.seqOf c.pid (c.f 16 2) = some s →
    n = bits (c.f 20 4) 0 21 →
    n ≤ s.len →
    i = cdiv n s.tps →
    ReadsEntries b c s i (s.maxs - i) es k →
    Does (.seqTruncate q p) st fun h' => ∃ y, y = es.flatten.foldl (fun h m => h.releaseSheet c.pid m)
        (k.writeLayers c.pid s i 0 (s.blank (s.maxs - i))).2 ∧
      Ends ((y.setSeq c.pid (c.f 16 2) { s with len := n }).moveAttach c.pid (c.f 16 2) { s with len := n }
        (y.atDepth s.node (cdiv n 256) 4097)) h' c 0 n 0) ∧
  (∀ (st : State) (q : QRef) (p : Packet) (qu : Queue) (c : Cmd) (b : Hw) (s : SeqRec) (i : Nat) (k : Hw),
    Acting st.hw specSeqTruncate q p qu c b →
    b.seqOf c.pid (c.f 16 2) = some s →
    bits (c.f 20 4) 0 21 ≤ s.len →
    i = cdiv (bits (c.f 20 4) 0 21) s.tps →
    EntriesEnd b c s i (s.maxs - i) k →
    Does (.seqTruncate q p) st fun h' => h' = k) ∧
  (∀ (st : State) (q : QRef) (p : Packet) (qu : Queue) (c : Cmd) (b : Hw) (s : SeqRec) (k : Hw),
    Acting st.hw specSeqFree q p qu c b →
    b.seqOf c.pid (c.f 16 2) = some s →
    EntriesEnd b c s 0 s.maxs k →
    Does (.seqFree q p) st fun h' => h' = k) ∧
  (∀ (st : State) (q : QRef) (p : Packet) (qu : Queue) (c : Cmd) (b : Hw) (s : SeqRec) (es : List (List Nat)) (k : Hw),
    Acting st.hw specSeqFree q p qu c b →
    b.seqOf c.pid (c.f 16 2) = some s →
    ReadsEntries b c s 0 s.maxs es k →
    Does (.seqFree q p) st fun h' => h'.seqOf c.pid (c.f 16 2) = none ∧
      Ends ((es.flatten.foldl (fun h m => h.releaseSheet c.pid m) k).dropSeq c.pid (c.f 16 2) s) h' c 0 0 0) ∧
  (∀ (st : State) (q : QRef) (p : Packet) (qu : Queue) (c : Cmd) (b : Hw) (s : SeqRec) (e : Nat × Nat) (k : Hw),
    Acting st.hw specSeqQuery q p qu c b →
    b.seqOf c.pid (c.f 16 2) = some s →
    b.cmdWrite c.pid (c.f 24 6 / 32 * 32) s.bytes false = (some e, k) →
    Does (.seqQuery q p) st fun h' => h' = k.failPage c e) ∧
  (∀ (st : State) (q : QRef) (p : Packet) (qu : Queue) (c : Cmd) (b : Hw) (s : SeqRec) (k : Hw),
    Acting st.hw specSeqQuery q p qu c b →
    b.seqOf c.pid (c.f 16 2) = some s →
    b.cmdWrite c.pid (c.f 24 6 / 32 * 32) s.bytes false = (none, k) →
    Does (.seqQuery q p) st fun h' => Ends k h' c 0 s.len 0) ∧
  (∀ (st : State) (q : QRef) (p : Packet) (qu : Queue) (c : Cmd) (b : Hw) (s : SeqRec) (e : Nat) (tok : List Byte) (k k2 k3 : Hw) (es : List (List Nat)) (r : PubState),
    Acting st.hw specGazPublish q p qu c b →
    b.seqOf c.pid (c.f 16 2) = some s →
    b.freeEntry c.pid = some e →
    b.cmdRead c.pid (c.f 24 6) (1024 * c.f 20 2) = (.ok (tok, false), k) →
    ReadsEntries k c s 0 (c.f 20 2 * (256 / s.tps)) es k2 →
    k2.publish c.pid e (c.f 32 8) s es 1 (gazChain (gazSeed (c.f 32 8) s) tok (c.f 20 2)) ⟨0, noNode, 0, []⟩ = (r, k3) →
    r.made = [] →
    r.depth = 0 →
    Does (.gazPublish q p) st fun h' => Ends k3 h' c 0 (r.reason * 2 ^ 13 + 0x3FF * 2 ^ 16) 0) ∧
  (∀ (st : State) (q : QRef) (p : Packet) (qu : Queue) (c : Cmd) (b : Hw) (s : SeqRec) (e : Nat) (tok : List Byte) (k k2 k3 : Hw) (es : List (List Nat)) (r : PubState),
    Acting st.hw specGazPublish q p qu c b →
    b.seqOf c.pid (c.f 16 2) = some s →
    b.freeEntry c.pid = some e →
    b.cmdRead c.pid (c.f 24 6) (1024 * c.f 20 2) = (.ok (tok, false), k) →
    ReadsEntries k c s 0 (c.f 20 2 * (256 / s.tps)) es k2 →
    k2.publish c.pid e (c.f 32 8) s es 1 (gazChain (gazSeed (c.f 32 8) s) tok (c.f 20 2)) ⟨0, noNode, 0, []⟩ = (r, k3) →
    r.made = [] →
    r.depth ≠ 0 →
    Does (.gazPublish q p) st fun h' => Ends (k3.moveAttach c.pid (c.f 16 2) s r.at_) h' c 0 (r.depth + r.reason * 2 ^ 13 + 0x3FF * 2 ^ 16) 0) ∧
  (∀ (st : State) (q : QRef) (p : Packet) (qu : Queue) (c : Cmd) (b : Hw) (s : SeqRec) (e : Nat) (tok : List Byte) (k k2 k3 : Hw) (es : List (List Nat)) (r : PubState),
    Acting st.hw specGazPublish q p qu c b →
    b.seqOf c.pid (c.f 16 2) = some s →
    b.freeEntry c.pid = some e →
    b.cmdRead c.pid (c.f 24 6) (1024 * c.f 20 2) = (.ok (tok, false), k) →
    ReadsEntries k c s 0 (c.f 20 2 * (256 / s.tps)) es k2 →
    k2.publish c.pid e (c.f 32 8) s es 1 (gazChain (gazSeed (c.f 32 8) s) tok (c.f 20 2)) ⟨0, noNode, 0, []⟩ = (r, k3) →
    r.made ≠ [] →
    r.depth ≠ 0 →
    Does (.gazPublish q p) st fun h' => Ends (({ k3 with kv :=
      { k3.kv with gaz := { k3.kv.gaz with entries := k3.kv.gaz.entries.put (c.pid * 1024 + e) r.made } } } : Hw).moveAttach c.pid (c.f 16 2) s r.at_) h' c 0
      (r.depth + r.reason * 2 ^ 13 + e * 2 ^ 16) 0) ∧
  (∀ (st : State) (q : QRef) (p : Packet) (qu : Queue) (c : Cmd) (b : Hw) (s : SeqRec) (k : Hw),
    Acting st.hw specGazPublish q p qu c b →
    b.seqOf c.pid (c.f 16 2) = some s →
    (b.freeEntry c.pid).isSome = true →
    RecordEnds b c (c.f 24 6) (1024 * c.f 20 2) k →
    Does (.gazPublish q p) st fun h' => h' = k) ∧
  (∀ (st : State) (q : QRef) (p : Packet) (qu : Queue) (c : Cmd) (b : Hw) (s : SeqRec) (tok : List Byte) (k k2 : Hw),
    Acting st.hw specGazPublish q p qu c b →
    b.seqOf c.pid (c.f 16 2) = some s →
    (b.freeEntry c.pid).isSome = true →
    b.cmdRead c.pid (c.f 24 6) (1024 * c.f 20 2) = (.ok (tok, false), k) →
    EntriesEnd k c s 0 (c.f 20 2 * (256 / s.tps)) k2 →
    Does (.gazPublish q p) st fun h' => h' = k2) ∧
  (∀ (st : State) (q : QRef) (p : Packet) (qu : Queue) (c : Cmd) (b : Hw) (s : SeqRec) (tok : List Byte) (k : Hw),
    Acting st.hw specGazLookup q p qu c b →
    b.seqOf c.pid (c.f 16 2) = some s →
    b.cmdRead c.pid (c.f 24 6) (1024 * c.f 20 2) = (.ok (tok, false), k) →
    k.chainNodes noNode (gazChain (gazSeed (c.f 32 8) s) tok (min (c.f 20 2) (s.cap / 256))) = [] →
    Does (.gazLookup q p) st fun h' => Ends k h' c 0 0 0) ∧
  (∀ (st : State) (q : QRef) (p : Packet) (qu : Queue) (c : Cmd) (b : Hw) (s : SeqRec) (tok : List Byte) (k k2 : Hw) (ns : List Nat),
    Acting st.hw specGazLookup q p qu c b →
    b.seqOf c.pid (c.f 16 2) = some s →
    b.cmdRead c.pid (c.f 24 6) (1024 * c.f 20 2) = (.ok (tok, false), k) →
    ns = k.chainNodes noNode (gazChain (gazSeed (c.f 32 8) s) tok (min (c.f 20 2) (s.cap / 256))) →
    ns ≠ [] →
    (k.writeLayers c.pid s 0 0 ((List.range (s.layers + 1)).map fun l => k.nodeEntries l ns) = (none, k2)) →
    Does (.gazLookup q p) st fun h' => Ends ((k2.setSeq c.pid (c.f 16 2) { s with len := 256 * ns.length, node := ns.getLastD noNode }).attach
      (ns.getLastD noNode)) h' c 0 ns.length 0) ∧
  (∀ (st : State) (q : QRef) (p : Packet) (qu : Queue) (c : Cmd) (b : Hw) (s : SeqRec) (k : Hw),
    Acting st.hw specGazLookup q p qu c b →
    b.seqOf c.pid (c.f 16 2) = some s →
    RecordEnds b c (c.f 24 6) (1024 * c.f 20 2) k →
    Does (.gazLookup q p) st fun h' => h' = k) ∧
  (∀ (st : State) (q : QRef) (p : Packet) (qu : Queue) (c : Cmd) (b : Hw) (s : SeqRec) (tok : List Byte) (k k2 : Hw) (ns : List Nat) (e : Nat × Nat),
    Acting st.hw specGazLookup q p qu c b →
    b.seqOf c.pid (c.f 16 2) = some s →
    b.cmdRead c.pid (c.f 24 6) (1024 * c.f 20 2) = (.ok (tok, false), k) →
    k.chainNodes noNode (gazChain (gazSeed (c.f 32 8) s) tok (min (c.f 20 2) (s.cap / 256))) = ns →
    ns ≠ [] →
    (k.writeLayers c.pid s 0 0 ((List.range (s.layers + 1)).map fun l => k.nodeEntries l ns) = (some e, k2)) →
    Does (.gazLookup q p) st fun h' => h' = k2.failPage c e) ∧
  (∀ (st : State) (q : QRef) (p : Packet) (qu : Queue) (c : Cmd) (b : Hw),
    Acting st.hw specGazRetire q p qu c b →
    Does (.gazRetire q p) st fun h' => Ends (b.retireEntry c.pid (c.f 16 2)).2 h' c 0 (b.retireEntry c.pid (c.f 16 2)).1 0)

/-- The checks of a STENCIL_LOAD keep the stencil that they find good; when the command begins, the shadow bank takes
that stencil and the command completes DONE. One whose image no check could read ends with the failure of its
reading, and one changed in between is left open. STENCIL_SWAP notes the stroke of its acceptance and its command
and sets SWAP_PENDING; when a swap is pending already it completes with the count of coats and changes nothing
else. BUDGET_SET has entered its change among those that wait for the coat boundary and waits itself. The checks of
a PART_CREATE keep the record that they find good; when the command begins it makes the partition, with the class,
quotas and queues of the record, no rights and sequence numbers from 1, and completes. One whose record no check
could read ends with the failure of its reading, and one changed in between is left open. PART_RESET performs the
reset of the partition, installs pinned images again and completes (while a main-power loss runs it is not
performed); PART_DESTROY performs the reset and marks the partition as being destroyed. GRANT sets the rights byte;
SOB_ALLOC gives the lowest free block to the partition and answers its number; GROUP_CONFIG enters the group record
that it reads, or ends with the failure of its reading. Each clause about a command concludes that exec answers a
next state, under conditions on the state and the operands alone; the constructors covered: stencilLoad,
stencilSwap, budgetSet, partCreate, partReset, groupConfig, partDestroy, grant, sobAlloc. -/
def Obligations.PacketStencilsAndPartitions : Prop :=
  (∀ (st : State) (q : QRef) (p : Packet) (qu : Queue) (c : Cmd) (b : Hw) (s : Stencil) (k : Hw),
    Acting st.hw specStencilLoad q p qu c b →
    b.takeKept c = (some (.stencil s), k) →
    Does (.stencilLoad q p) st fun h' => Ends ((({ k with stn := { k.stn with shadow := some s } } : Hw).put F.STN_STATUS_SHADOW_VALID 1).loadResult 0 0) h' c 0 0 0) ∧
  (∀ (st : State) (q : QRef) (p : Packet) (qu : Queue) (c : Cmd) (b : Hw) (j k : Hw) (e : Nat × Nat),
    Acting st.hw specStencilLoad q p qu c b →
    b.takeKept c = (none, j) →
    j.cmdRead c.pid (c.f 24 6) (min (c.f 32 4) 289696) = (.error e, k) →
    Does (.stencilLoad q p) st fun h' => h' = k.failPage c e) ∧
  (∀ (st : State) (q : QRef) (p : Packet) (qu : Queue) (c : Cmd) (b : Hw) (j k : Hw),
    Acting st.hw specStencilLoad q p qu c b →
    b.takeKept c = (none, j) →
    RecordEnds j c (c.f 24 6) (min (c.f 32 4) 289696) k →
    Does (.stencilLoad q p) st fun h' => h' = k) ∧
  (∀ (st : State) (q : QRef) (p : Packet) (qu : Queue) (c : Cmd) (b : Hw) (j k : Hw) (bs : List Byte),
    Acting st.hw specStencilLoad q p qu c b →
    b.takeKept c = (none, j) →
    j.cmdRead c.pid (c.f 24 6) (min (c.f 32 4) 289696) = (.ok (bs, false), k) →
    Does (.stencilLoad q p) st fun h' => h' = k.wildEnd c) ∧
  (∀ (h : Hw) (c : Cmd) (s : Stencil), h.judgeStencil c = .good s →
    (c.pid, c.queue, c.num, Kept.stencil s) ∈ (specStencilLoad.onAccept h c).sys.kept) ∧
  (∀ (st : State) (q : QRef) (p : Packet) (qu : Queue) (c : Cmd) (b : Hw),
    Acting st.hw specStencilSwap q p qu c b →
    b.stn.swapAt = none →
    Does (.stencilSwap q p) st fun h' => h' =
      ({ b with stn := { b.stn with swapAt := some c.acceptAt, swapCmd := some (c.pid, c.queue, c.num) } } : Hw).put
        F.STN_STATUS_SWAP_PENDING 1) ∧
  (∀ (st : State) (q : QRef) (p : Packet) (qu : Queue) (c : Cmd) (b : Hw),
    Acting st.hw specStencilSwap q p qu c b →
    b.stn.swapAt.isSome = true →
    Does (.stencilSwap q p) st fun h' => Ends b h' c 0 (b.get F.STN_COAT_COUNT_COATS) 0) ∧
  (∀ (st : State) (q : QRef) (p : Packet) (qu : Queue) (c : Cmd) (b : Hw),
    Acting st.hw specBudgetSet q p qu c b →
    Does (.budgetSet q p) st fun h' => h' = b ∧
      ∀ x, budgetOf ((cameHw st.hw q qu (rowPacket 0xC7 p)).take c (slotsOf (rowPacket 0xC7 p))) c = some x → { x with num := c.num } ∈ h'.stn.budgets) ∧
  (∀ (st : State) (q : QRef) (p : Packet) (qu : Queue) (c : Cmd) (b : Hw) (r : CreateRec) (k : Hw),
    Acting st.hw specPartCreate q p qu c b →
    b.takeKept c = (some (.part r), k) →
    Does (.partCreate q p) st fun h' => Ends (k.createPart r) h' c 0 0 0 ∧
        ∃ x, h'.part r.pid = some x ∧ x.cls = r.cls ∧ x.rights = 0 ∧ x.jnlQuota = r.jnl ∧ x.sheetQuota = r.sheets ∧
          x.seqQuota = r.seqs ∧ x.nextSeq = 1 ∧ x.destroying = false ∧ x.queues = queueMap r.queues) ∧
  (∀ (st : State) (q : QRef) (p : Packet) (qu : Queue) (c : Cmd) (b : Hw) (j k : Hw) (e : Nat × Nat),
    Acting st.hw specPartCreate q p qu c b →
    b.takeKept c = (none, j) →
    j.cmdRead c.pid (c.f 24 6) 832 = (.error e, k) →
    Does (.partCreate q p) st fun h' => h' = k.failPage c e) ∧
  (∀ (st : State) (q : QRef) (p : Packet) (qu : Queue) (c : Cmd) (b : Hw) (j k : Hw),
    Acting st.hw specPartCreate q p qu c b →
    b.takeKept c = (none, j) →
    RecordEnds j c (c.f 24 6) 832 k →
    Does (.partCreate q p) st fun h' => h' = k) ∧
  (∀ (st : State) (q : QRef) (p : Packet) (qu : Queue) (c : Cmd) (b : Hw) (j k : Hw) (bs : List Byte),
    Acting st.hw specPartCreate q p qu c b →
    b.takeKept c = (none, j) →
    j.cmdRead c.pid (c.f 24 6) 832 = (.ok (bs, false), k) →
    field bs 16 6 = 0 →
    Does (.partCreate q p) st fun h' => h' = k.wildEnd c) ∧
  (∀ (st : State) (q : QRef) (p : Packet) (qu : Queue) (c : Cmd) (b : Hw) (j k l : Hw) (bs al : List Byte),
    Acting st.hw specPartCreate q p qu c b →
    b.takeKept c = (none, j) →
    j.cmdRead c.pid (c.f 24 6) 832 = (.ok (bs, false), k) →
    field bs 16 6 ≠ 0 →
    k.cmdRead c.pid (field bs 16 6) 288 = (.ok (al, false), l) →
    Does (.partCreate q p) st fun h' => h' = l.wildEnd c) ∧
  (∀ (st : State) (q : QRef) (p : Packet) (qu : Queue) (c : Cmd) (b : Hw) (j k l : Hw) (bs : List Byte),
    Acting st.hw specPartCreate q p qu c b →
    b.takeKept c = (none, j) →
    j.cmdRead c.pid (c.f 24 6) 832 = (.ok (bs, false), k) →
    field bs 16 6 ≠ 0 →
    RecordEnds k c (field bs 16 6) 288 l →
    Does (.partCreate q p) st fun h' => h' = l) ∧
  (∀ (h : Hw) (c : Cmd) (r : CreateRec), h.readCreate c = .good r →
    (c.pid, c.queue, c.num, Kept.part r) ∈ (specPartCreate.onAccept h c).sys.kept) ∧
  (∀ (st : State) (q : QRef) (p : Packet) (qu : Queue) (c : Cmd) (b : Hw),
    Acting st.hw specPartReset q p qu c b →
    st.hw.sys.lost = none →
    Does (.partReset q p) st fun h' => h' = ((b.partReset (c.f 16 1)).reinstallPinned).done c 0) ∧
  (∀ (s : State) (q : QRef) (p : Packet), s.hw.sys.lost.isSome = true → Does (.partReset q p) s fun h' => h' = s.hw) ∧
  (∀ (b : Hw) (c : Cmd), b.freeBlock = none → sobAlloc b c = b.wildEnd c) ∧
  (∀ (st : State) (q : QRef) (p : Packet) (qu : Queue) (c : Cmd) (b : Hw) (k : Hw),
    Acting st.hw specGroupConfig q p qu c b →
    RecordEnds b c (c.f 24 6) 288 k →
    Does (.groupConfig q p) st fun h' => h' = k) ∧
  (∀ (st : State) (q : QRef) (p : Packet) (qu : Queue) (c : Cmd) (b : Hw),
    Acting st.hw specPartDestroy q p qu c b →
    Does (.partDestroy q p) st fun h' => h' = (b.partReset (c.f 16 1)).modPart (c.f 16 1) fun x => { x with destroying := true }) ∧
  (∀ (st : State) (q : QRef) (p : Packet) (qu : Queue) (c : Cmd) (b : Hw),
    Acting st.hw specGrant q p qu c b →
    Does (.grant q p) st fun h' => Ends (b.modPart (c.f 16 1) fun x => { x with rights := c.f 17 1 }) h' c 0 0 0) ∧
  (∀ (st : State) (q : QRef) (p : Packet) (qu : Queue) (c : Cmd) (b : Hw) (n : Nat),
    Acting st.hw specSobAlloc q p qu c b →
    b.freeBlock = some n →
    Does (.sobAlloc q p) st fun h' => Ends (b.allocBlock (c.f 16 1) n) h' c 0 n 0) ∧
  (∀ (st : State) (q : QRef) (p : Packet) (qu : Queue) (c : Cmd) (b : Hw) (bs : List Byte) (k : Hw),
    Acting st.hw specGroupConfig q p qu c b →
    b.cmdRead c.pid (c.f 24 6) 288 = (.ok (bs, false), k) →
    Does (.groupConfig q p) st fun h' => h' = (k.enterGroup bs).done c 0)

/-- A MODE_SET that begins completes DONE with RESULT 0 and then parks the module (mode 1), or changes to DRIVE, BENCH
or SERVICE (3, 4, 5), or enters STANDBY: from STANDBY it runs MODULE_WARM; from DRIVE, BENCH or SERVICE the mode
changes and both Datums clear the reasons whose causes are gone, and with WARM from BENCH or SERVICE MODULE_WARM
runs. In BENCH or SERVICE a freeze that is asked for goes first, and in every mode a main-power loss: the command
is not taken. Each clause about a command concludes that exec answers a next state, under conditions on the state
and the operands alone; the constructor covered: modeSet. -/
def Obligations.PacketModes : Prop :=
  (∀ (st : State) (q : QRef) (p : Packet) (qu : Queue) (c : Cmd) (b : Hw) (u : BringUp),
    Acting st.hw specModeSet q p qu c b →
    (st.hw.sys.lost.isSome || (benchMode st.hw.mode && st.hw.freezeDue)) = false →
    c.f 16 1 = 1 →
    Does (.modeSet q p u) st fun h' => h' = (b.done c 0).park) ∧
  (∀ (st : State) (q : QRef) (p : Packet) (qu : Queue) (c : Cmd) (b : Hw) (u : BringUp),
    Acting st.hw specModeSet q p qu c b →
    (st.hw.sys.lost.isSome || (benchMode st.hw.mode && st.hw.freezeDue)) = false →
    c.f 16 1 ≠ 1 →
    c.f 16 1 ≠ 2 →
    Does (.modeSet q p u) st fun h' => h' = (b.done c 0).changeMode (c.f 16 1)) ∧
  (∀ (st : State) (q : QRef) (p : Packet) (qu : Queue) (c : Cmd) (b : Hw) (u : BringUp),
    Acting st.hw specModeSet q p qu c b →
    (st.hw.sys.lost.isSome || (benchMode st.hw.mode && st.hw.freezeDue)) = false →
    c.f 16 1 = 2 →
    b.mode = 2 →
    bit (c.f 17 1) 0 = true →
    Does (.modeSet q p u) st fun h' => h' = (b.done c 0).moduleWarm u) ∧
  (∀ (st : State) (q : QRef) (p : Packet) (qu : Queue) (c : Cmd) (b : Hw) (u : BringUp),
    Acting st.hw specModeSet q p qu c b →
    (st.hw.sys.lost.isSome || (benchMode st.hw.mode && st.hw.freezeDue)) = false →
    c.f 16 1 = 2 →
    b.mode ≠ 2 →
    (bit (c.f 17 1) 0 = false ∨ b.mode = 3) →
    Does (.modeSet q p u) st fun h' => h' = (((b.done c 0).changeMode 2).clearAtStandby 0).clearAtStandby 1) ∧
  (∀ (st : State) (q : QRef) (p : Packet) (qu : Queue) (c : Cmd) (b : Hw) (u : BringUp),
    Acting st.hw specModeSet q p qu c b →
    (st.hw.sys.lost.isSome || (benchMode st.hw.mode && st.hw.freezeDue)) = false →
    c.f 16 1 = 2 →
    b.mode ≠ 2 →
    b.mode ≠ 3 →
    bit (c.f 17 1) 0 = true →
    Does (.modeSet q p u) st fun h' => h' = ((((b.done c 0).changeMode 2).clearAtStandby 0).clearAtStandby 1).moduleWarm u) ∧
  (∀ (s : State) (q : QRef) (p : Packet) (u : BringUp), (s.hw.sys.lost.isSome || (benchMode s.hw.mode && s.hw.freezeDue)) = true →
    Does (.modeSet q p u) s fun h' => h' = s.hw)

/-- FREEZE_ARM disarms, or arms its condition with the event and the stroke that it names, and completes. SELFTEST_RUN
runs all sections of the tiles in service that its target names, retires those that fail, rotates the checkers for
targets 2 and 3, and answers the sections that passed, were marginal and failed. DEBUG_UNLOCK whose credential can
be read raises the debug level, breaks lockstep unless it is broken, shows the level and completes; one that cannot
be read fails. TRACE_CONFIG stops the old ring and, with a size, starts the new one with its selections and WRITTEN
0. HEALTH_READ writes its section and completes, or fails with its page. TILE_RETIRE retires the tile with cause 1
and completes when the mask has changed. TILE_REINSTATE makes the tile REINSTATING and runs its 16 sections: when
every one gives PASS the tile awaits admission, else it stays retired and the command answers 1. CHANNEL_RETIRE of
a retired channel completes at once, else the retirement begins with cause 2 for the command. SAFE_POLICY that can
be delivered sets COMPAT in both Datums; one that cannot fails its delivery. EVENT_CONFIG sets the ring, the group
enables, the notifications and the vector. Each clause about a command concludes that exec answers a next state,
under conditions on the state and the operands alone; the constructors covered: freezeArm, selftestRun,
debugUnlock, traceConfig, healthRead, tileRetire, tileReinstate, channelRetire, safePolicy, eventConfig. -/
def Obligations.PacketUnitsAndDebug : Prop :=
  (∀ (st : State) (q : QRef) (p : Packet) (qu : Queue) (c : Cmd) (b : Hw),
    Acting st.hw specFreezeArm q p qu c b →
    bit (c.f 16 1) 2 = true →
    Does (.freezeArm q p) st fun h' => Ends (b.put F.DBG_STATUS_ARMED 0) h' c 0 0 0) ∧
  (∀ (st : State) (q : QRef) (p : Packet) (qu : Queue) (c : Cmd) (b : Hw),
    Acting st.hw specFreezeArm q p qu c b →
    bit (c.f 16 1) 2 = false →
    Does (.freezeArm q p) st fun h' => Ends (((((b.put F.DBG_STATUS_ARMED 1).put F.DBG_ARM_COND (c.f 16 1 % 4)).put F.DBG_ARM_EVT_TYPE (c.f 18 2)).put
      F.DBG_ARM_EVT_SOURCE (c.f 20 2)).put F.DBG_ARM_AT_AT (c.f 24 8)) h' c 0 0 0) ∧
  (∀ (st : State) (q : QRef) (p : Packet) (qu : Queue) (c : Cmd) (b : Hw) (bad : List (Fin 9)) (ts : List Nat) (f n : Nat) (j k : Hw),
    Acting st.hw specSelftestRun q p qu c b →
    ts = b.testTiles (c.f 16 1) (c.f 18 2) →
    (f = if 2 ≤ c.f 16 1 then countNat 9 (fun r => bad.any fun x => x.val == r) else 0) →
    (n = if 2 ≤ c.f 16 1 then 9 else 0) →
    (j = ts.foldl (fun x t => if (x.tile t).fails = true then (x.runAllSections t).retireTile t 0 none else x.runAllSections t) b) →
    (k = if 2 ≤ c.f 16 1 then (List.range 9).foldl (fun x r => [0, 1].foldl (fun x d =>
      x.checkerTest d r none (! bad.any fun y => y.val == r)) x) j else j) →
    Does (.selftestRun q p bad) st fun h' => h' = k.done c (min 65535 (b.countSections ts 0 + (n - f)) + min 65535 (b.countSections ts 1) * 2 ^ 16 +
      min 65535 (b.countSections ts 2 + f) * 2 ^ 32)) ∧
  (∀ (st : State) (q : QRef) (p : Packet) (qu : Queue) (c : Cmd) (b : Hw) (bs : List Byte) (k x y : Hw),
    Acting st.hw specDebugUnlock q p qu c b →
    b.cmdRead c.pid (c.f 24 6) 128 = (.ok (bs, false), k) →
    x = { k with sys := { k.sys with dbgLevel := max k.sys.dbgLevel (field bs 4 1) } } →
    (y = if x.comparatorsOff then x else x.breakLockstep 3) →
    Does (.debugUnlock q p) st fun h' => h' = ((y.showLevel).put F.DBG_INT_STATUS_UNLOCKED 1).done c 0) ∧
  (∀ (st : State) (q : QRef) (p : Packet) (qu : Queue) (c : Cmd) (b : Hw) (k : Hw),
    Acting st.hw specDebugUnlock q p qu c b →
    RecordEnds b c (c.f 24 6) 128 k →
    Does (.debugUnlock q p) st fun h' => h' = k) ∧
  (∀ (st : State) (q : QRef) (p : Packet) (qu : Queue) (c : Cmd) (b : Hw),
    Acting st.hw specTraceConfig q p qu c b →
    c.f 16 1 = 0 →
    Does (.traceConfig q p) st fun h' => h' = (b.flushTrace.stopTrace).done c 0) ∧
  (∀ (st : State) (q : QRef) (p : Packet) (qu : Queue) (c : Cmd) (b : Hw) (k : Hw) (t : Trace),
    Acting st.hw specTraceConfig q p qu c b →
    c.f 16 1 ≠ 0 →
    k = b.flushTrace.stopTrace →
    t = { va := c.f 24 6, log2Size := c.f 16 1, src := c.f 17 1 % 16, tileX := c.f 18 1, tileY := c.f 19 1, inst := c.f 20 1, queue := [], strokeAt := k.now, inStroke := 0 } →
    Does (.traceConfig q p) st fun h' => h' = ((({ k with sys := { k.sys with trace := some t } } : Hw).put F.DBG_STATUS_TRACE 1).put F.DBG_TRACE_WRITTEN 0).done c 0) ∧
  (∀ (st : State) (q : QRef) (p : Packet) (qu : Queue) (c : Cmd) (b : Hw) (k : Hw),
    Acting st.hw specHealthRead q p qu c b →
    b.cmdWrite c.pid (c.f 24 6) (b.healthSection (c.f 16 1)) false = (none, k) →
    Does (.healthRead q p) st fun h' => Ends k h' c 0 0 0) ∧
  (∀ (st : State) (q : QRef) (p : Packet) (qu : Queue) (c : Cmd) (b : Hw) (e : Nat × Nat) (k : Hw),
    Acting st.hw specHealthRead q p qu c b →
    b.cmdWrite c.pid (c.f 24 6) (b.healthSection (c.f 16 1)) false = (some e, k) →
    Does (.healthRead q p) st fun h' => h' = k.failPage c e) ∧
  (∀ (st : State) (q : QRef) (p : Packet) (qu : Queue) (c : Cmd) (b : Hw),
    Acting st.hw specTileRetire q p qu c b →
    Does (.tileRetire q p) st fun h' => h' = b.retireTile (c.f 16 2) 1 (some (c.pid, c.queue, c.num))) ∧
  (∀ (st : State) (q : QRef) (p : Packet) (qu : Queue) (c : Cmd) (b : Hw) (k : Hw),
    Acting st.hw specTileReinstate q p qu c b →
    (b.tile (c.f 16 2)).passes = true →
    k = (b.put (F.TILE_STATE_STATE.blk (c.f 16 2)) 5).runAllSections (c.f 16 2) →
    Does (.tileReinstate q p) st fun h' => h' =
      { k with fab := { k.fab with admitted := k.fab.admitted ++ [(c.f 16 2, c.pid, c.queue, c.num)] } }) ∧
  (∀ (st : State) (q : QRef) (p : Packet) (qu : Queue) (c : Cmd) (b : Hw) (k : Hw),
    Acting st.hw specTileReinstate q p qu c b →
    (b.tile (c.f 16 2)).passes = false →
    k = (b.put (F.TILE_STATE_STATE.blk (c.f 16 2)) 5).runAllSections (c.f 16 2) →
    Does (.tileReinstate q p) st fun h' => h' = (k.put (F.TILE_STATE_STATE.blk (c.f 16 2)) 4).done c 1) ∧
  (∀ (st : State) (q : QRef) (p : Packet) (qu : Queue) (c : Cmd) (b : Hw),
    Acting st.hw specChannelRetire q p qu c b →
    b.chRetired (c.f 16 1) = true →
    Does (.channelRetire q p) st fun h' => Ends b h' c 0 0 0) ∧
  (∀ (st : State) (q : QRef) (p : Packet) (qu : Queue) (c : Cmd) (b : Hw),
    Acting st.hw specChannelRetire q p qu c b →
    b.chRetired (c.f 16 1) = false →
    Does (.channelRetire q p) st fun h' => h' = b.startRetire (c.f 16 1) 2 (some (c.pid, c.queue, c.num))) ∧
  (∀ (st : State) (q : QRef) (p : Packet) (qu : Queue) (c : Cmd) (b : Hw),
    Acting st.hw specSafePolicy q p qu c b →
    b.deliverable = true →
    Does (.safePolicy q p) st fun h' => Ends ((b.put (F.DTM_STATUS_COMPAT.datum 0) (c.f 16 1)).put (F.DTM_STATUS_COMPAT.datum 1) (c.f 16 1)) h' c 0 0 0) ∧
  (∀ (st : State) (q : QRef) (p : Packet) (qu : Queue) (c : Cmd) (b : Hw),
    Acting st.hw specSafePolicy q p qu c b →
    b.deliverable = false →
    Does (.safePolicy q p) st fun h' => h' = b.deliveryFailed c.pid c.queue c.num) ∧
  (∀ (st : State) (q : QRef) (p : Packet) (qu : Queue) (c : Cmd) (b : Hw) (k : Hw),
    Acting st.hw specEventConfig q p qu c b →
    k = ((b.setRing (c.f 24 6) (c.f 16 1)).put F.EVT_GROUPS_ENABLE (bits (c.f 20 2) 0 9)).put F.EVT_GROUPS_NOTIFY
      (bits (c.f 22 2) 0 9) →
    Does (.eventConfig q p) st fun h' => Ends { k with evt := { k.evt with vector := bits (c.f 18 2) 0 11 } } h' c 0 0 0)

/-- A TVI instruction SADDI, SLUI, SALU, PSET or NOP that a tile issues next completes: SADDI, SLUI and SALU write the
scalar or sequencer register that the tables give (a write to s0 is discarded), PSET the predicate register (a
write to p0 is discarded), NOP nothing; PC moves on by 4, and nothing else changes: no other register of the
sequencer, no byte of SRAM, no other tile, nothing outside the tile but raised events and error counts. Each clause
about a command concludes that exec answers a next state, under conditions on the state and the operands alone; the
constructors covered: saddi, slui, salu, pset, tviNop. -/
def Obligations.TviScalarResults : Prop :=
  (∀ (st : State) (t : Fin 1152) (s : Slice) (w : Nat),
    TviReady st.hw t.val s 0x11 w →
    Does (.saddi t) st fun h' => TileStep t.val s st.hw h' ((st.hw.tile t.val).withSeq ((st.hw.tile t.val).seq.withS (insnSd w)
        (addSigned 32 ((st.hw.tile t.val).seq.scalar (insnSa w)).1 (insnImm15 w)) false).bump)) ∧
  (∀ (st : State) (t : Fin 1152) (s : Slice) (w : Nat),
    TviReady st.hw t.val s 0x12 w →
    Does (.slui t) st fun h' => TileStep t.val s st.hw h'
        ((st.hw.tile t.val).withSeq ((st.hw.tile t.val).seq.withS (insnSd w) (insnImm19 w * 8192) false).bump)) ∧
  (∀ (st : State) (t : Fin 1152) (s : Slice) (w : Nat),
    TviReady st.hw t.val s 0x10 w → insnSFn w ≤ 12 ∨ 16 ≤ insnSFn w ∧ insnSFn w ≤ 21 →
    Does (.salu t) st fun h' => TileStep t.val s st.hw h' ((st.hw.tile t.val).withSeq ((st.hw.tile t.val).seq.salu w).bump)) ∧
  (∀ (st : State) (t : Fin 1152) (s : Slice) (w : Nat),
    TviReady st.hw t.val s 0x19 w → insnFn w ≤ 5 →
    Does (.pset t) st fun h' => TileStep t.val s st.hw h' ((st.hw.tile t.val).withSeq ((st.hw.tile t.val).seq.withP (insnVd w % 8)
        (psetValue (insnFn w) ((st.hw.tile t.val).seq.p.getD (insnP w) 0) ((st.hw.tile t.val).seq.p.getD (insnVd w % 8) 0)
          ((st.hw.tile t.val).seq.p.getD (insnVa w % 8) 0) ((st.hw.tile t.val).seq.p.getD (insnVb w % 8) 0))).bump)) ∧
  (∀ (st : State) (t : Fin 1152) (s : Slice) (w : Nat),
    TviReady st.hw t.val s 0x1F w →
    Does (.tviNop t) st fun h' => TileStep t.val s st.hw h' ((st.hw.tile t.val).withSeq (st.hw.tile t.val).seq.bump))

/-- With an address that is a multiple of 4, SLD writes the little-endian word that the partition reads there to its
scalar register and changes no byte of SRAM; SST stores the word of its scalar register there, through the windows
of the partition, and every other byte reads as before; PC moves by 4, and nothing else changes. With aligned
addresses, VLD and VGATH write each enabled lane of vd with the word that the partition reads for it and keep the
other lanes; VST and VSCAT store the words of the enabled lanes, in lane order, and every other byte of SRAM reads
as before; PC moves by 4 and nothing else changes. Each clause about a command concludes that exec answers a next
state, under conditions on the state and the operands alone; the constructors covered: sld, sst, vld, vst, vgath,
vscat. -/
def Obligations.TviMemory : Prop :=
  (∀ (st : State) (t : Fin 1152) (s : Slice) (w : Nat) (a : Nat),
    TviReady st.hw t.val s 0x13 w → a = addSigned 32 ((st.hw.tile t.val).seq.scalar (insnSa w)).1 (insnImm15 w) →
    a % 4 = 0 →
    Does (.sld t) st fun h' => TileStep t.val s st.hw h' ((st.hw.tile t.val).withSeq ((st.hw.tile t.val).seq.withS (insnSd w)
        (leNat ((sramBytes st.hw t.val s.pid a 4).map (·.1))) false).bump)) ∧
  (∀ (st : State) (t : Fin 1152) (s : Slice) (w : Nat) (a : Nat),
    TviReady st.hw t.val s 0x14 w → a = addSigned 32 ((st.hw.tile t.val).seq.scalar (insnSa w)).1 (insnImm15 w) →
    a % 4 = 0 →
    Does (.sst t) st fun h' => ∃ y, TileStep t.val s st.hw h' ({ st.hw.tile t.val with sram := y }.withSeq (st.hw.tile t.val).seq.bump) ∧
        ∀ b, SMap.getD 0 y b = (writtenBy st.hw t.val s.pid a
          (withStain false (leBytes 4 ((st.hw.tile t.val).seq.scalar (insnSd w)).1)) b).getD (SMap.getD 0 (st.hw.tile t.val).sram b)) ∧
  (∀ (st : State) (t : Fin 1152) (s : Slice) (w : Nat),
    TviReady st.hw t.val s 0x04 w → ((st.hw.tile t.val).seq.scalar (insnMSb w)).1 % 32 = 0 →
    Does (.vld t) st fun h' => ∃ q', TileStep t.val s st.hw h' ((st.hw.tile t.val).withSeq q'.bump) ∧
        LanesSet (st.hw.tile t.val).seq q' (insnVd w) 32 false (fun i y =>
          ((st.hw.tile t.val).seq.enabledLane w 64 i → y = leNat ((((sramBytes st.hw t.val s.pid ((st.hw.tile t.val).seq.vmAddr w) 256).drop (4 * i)).take 4).map (·.1)) % 2 ^ 32) ∧
          (¬ (st.hw.tile t.val).seq.enabledLane w 64 i → y = (st.hw.tile t.val).seq.vlane (insnVd w) 32 i))) ∧
  (∀ (st : State) (t : Fin 1152) (s : Slice) (w : Nat),
    TviReady st.hw t.val s 0x05 w → ((st.hw.tile t.val).seq.scalar (insnMSb w)).1 % 32 = 0 →
    Does (.vst t) st fun h' => ∃ y, TileStep t.val s st.hw h' ({ st.hw.tile t.val with sram := y }.withSeq (st.hw.tile t.val).seq.bump) ∧
        SramAfter st.hw t.val s.pid (st.hw.tile t.val).sram (((st.hw.tile t.val).seq.lanesOn w 64).map fun i =>
          ((st.hw.tile t.val).seq.vmAddr w + 4 * i, withStain false (leBytes 4 ((st.hw.tile t.val).seq.vlane (insnVd w) 32 i)))) y) ∧
  (∀ (st : State) (t : Fin 1152) (s : Slice) (w : Nat),
    TviReady st.hw t.val s 0x06 w →
    (∀ i, (st.hw.tile t.val).seq.enabledLane w 64 i → (st.hw.tile t.val).seq.laneAddr w i % 4 = 0) →
    Does (.vgath t) st fun h' => ∃ q', TileStep t.val s st.hw h' ((st.hw.tile t.val).withSeq q'.bump) ∧
        LanesSet (st.hw.tile t.val).seq q' (insnVd w) 32 false (fun i y =>
          ((st.hw.tile t.val).seq.enabledLane w 64 i → y = leNat ((sramBytes st.hw t.val s.pid ((st.hw.tile t.val).seq.laneAddr w i) 4).map (·.1)) % 2 ^ 32) ∧
          (¬ (st.hw.tile t.val).seq.enabledLane w 64 i → y = (st.hw.tile t.val).seq.vlane (insnVd w) 32 i))) ∧
  (∀ (st : State) (t : Fin 1152) (s : Slice) (w : Nat),
    TviReady st.hw t.val s 0x07 w →
    (∀ i, (st.hw.tile t.val).seq.enabledLane w 64 i → (st.hw.tile t.val).seq.laneAddr w i % 4 = 0) →
    Does (.vscat t) st fun h' => ∃ y, TileStep t.val s st.hw h' ({ st.hw.tile t.val with sram := y }.withSeq (st.hw.tile t.val).seq.bump) ∧
        SramAfter st.hw t.val s.pid (st.hw.tile t.val).sram (((st.hw.tile t.val).seq.lanesOn w 64).map fun i =>
          ((st.hw.tile t.val).seq.laneAddr w i, withStain false (leBytes 4 ((st.hw.tile t.val).seq.vlane (insnVb w) 32 i)))) y)

/-- With EXB set, XLIVE clear and room for a frame, TRAP pushes the 64-byte exception frame with cause 5 and its
immediate at VSP - 64 (the only bytes written), sets XLIVE and continues at EXB; ABORT abandons the slice with the
cause that its handler runs for (0 outside a handler, the model's choice of log entry 26). JMP, BR, CALL, RET, XRET
and HALT that a tile issues next complete: JMP and a taken BR move PC by four times the immediate, a BR not taken
by 4 (condition 6 decrements the loop counter first); CALL pushes its 32-byte frame at VSP - 32, the only bytes
written, and jumps; RET and XRET pop a frame of their TYPE and resume what it says; HALT ends the program and TOD
issue resumes. Nothing else changes. Each clause about a command concludes that exec answers a next state, under
conditions on the state and the operands alone; the constructors covered: trap, abort, jmp, br, call, ret, xret,
halt. -/
def Obligations.TviControlFlowAndExceptions : Prop :=
  (∀ (st : State) (t : Fin 1152) (s : Slice) (w : Nat),
    TviReady st.hw t.val s 0x1A w → (st.hw.tile t.val).seq.xlive = false → (st.hw.tile t.val).seq.exb ≠ 0 →
    (st.hw.tile t.val).seq.canPush 64 = true →
    Does (.trap t) st fun h' => ∃ y, Mid t.val s st.hw h' ({ st.hw.tile t.val with sram := y }.withSeq ((st.hw.tile t.val).seq.raised 5)) ∧
        ∀ b, SMap.getD 0 y b = (writtenBy st.hw t.val s.pid ((st.hw.tile t.val).seq.vsp - 64)
          (excFrame (st.hw.tile t.val).seq 5 (if (st.hw.tile t.val).seq.inProg then (st.hw.tile t.val).seq.pc else 0) (insnImm19 w) w) b).getD
            (SMap.getD 0 (st.hw.tile t.val).sram b)) ∧
  (∀ (st : State) (t : Fin 1152) (s : Slice) (w : Nat),
    TviReady st.hw t.val s 0x1C w →
    Does (.abort t) st fun h' => ∃ k, Mid t.val s st.hw k (st.hw.tile t.val) ∧ h' =
        k.abandon t.val (if (st.hw.tile t.val).seq.xlive then (st.hw.tile t.val).seq.excCause else 0)) ∧
  (∀ (st : State) (t : Fin 1152) (s : Slice) (w : Nat),
    TviReady st.hw t.val s 0x16 w →
    Does (.jmp t) st fun h' => TileStep t.val s st.hw h' ((st.hw.tile t.val).withSeq ((st.hw.tile t.val).seq.jump (sx 19 (insnImm19 w))))) ∧
  (∀ (st : State) (t : Fin 1152) (s : Slice) (w : Nat),
    TviReady st.hw t.val s 0x15 w → insnCond w ≠ 7 →
    Does (.br t) st fun h' => TileStep t.val s st.hw h' ((st.hw.tile t.val).withSeq ((st.hw.tile t.val).seq.branch w))) ∧
  (∀ (st : State) (t : Fin 1152) (s : Slice) (w : Nat),
    TviReady st.hw t.val s 0x17 w → (st.hw.tile t.val).seq.canPush 32 = true →
    Does (.call t) st fun h' => ∃ y, TileStep t.val s st.hw h' ({ st.hw.tile t.val with sram := y }.withSeq
          ({ (st.hw.tile t.val).seq with vsp := (st.hw.tile t.val).seq.vsp - 32 }.jump (sx 19 (insnImm19 w)))) ∧
        ∀ b, SMap.getD 0 y b = (writtenBy st.hw t.val s.pid ((st.hw.tile t.val).seq.vsp - 32)
          (withStain false (callFrame (st.hw.tile t.val).seq)) b).getD (SMap.getD 0 (st.hw.tile t.val).sram b)) ∧
  (∀ (st : State) (t : Fin 1152) (s : Slice) (w : Nat) (bs : List Byte),
    TviReady st.hw t.val s 0x18 w → (st.hw.tile t.val).seq.canPop 32 = true →
    bs = (sramBytes st.hw t.val s.pid (st.hw.tile t.val).seq.vsp 32).map (·.1) → field bs 0 1 = 1 →
    Does (.ret t) st fun h' => TileStep t.val s st.hw h' ((st.hw.tile t.val).withSeq
        { (st.hw.tile t.val).seq with vsp := (st.hw.tile t.val).seq.vsp + 32, pc := field bs 4 4 % 2 ^ 19 })) ∧
  (∀ (st : State) (t : Fin 1152) (s : Slice) (w : Nat) (bs : List Byte),
    TviReady st.hw t.val s 0x1B w → (st.hw.tile t.val).seq.canPop 64 = true →
    bs = (sramBytes st.hw t.val s.pid (st.hw.tile t.val).seq.vsp 64).map (·.1) → field bs 0 1 = 2 →
    Does (.xret t) st fun h' => TileStep t.val s st.hw h' ((st.hw.tile t.val).withSeq ((st.hw.tile t.val).seq.xret bs))) ∧
  (∀ (st : State) (t : Fin 1152) (s : Slice) (w : Nat),
    TviReady st.hw t.val s 0x1E w →
    Does (.halt t) st fun h' => TileStep t.val s st.hw h'
        ((st.hw.tile t.val).withSeq { (st.hw.tile t.val).seq with inProg := false, todIdx := (st.hw.tile t.val).seq.afterProg }))

/-- VALU, VALUX, VLUT, VCVT, VPERM and VMV to a vector write each enabled lane of vd with the value of the row, keep
the old value in every other lane and change no other vector register; VCMP writes its predicate register, VMV to a
scalar its scalar register; VLUT and VCVT collect OVERFLOW. PC moves by 4 and nothing else changes. The lane that
VPERM shifts in, and VMV of a lane number beyond the register, are free values (log entry 26). Each clause about a
command concludes that exec answers a next state, under conditions on the state and the operands alone; the
constructors covered: valu, valux, vcmp, vlut, vcvt, vperm, vmv. -/
def Obligations.TviLaneResults : Prop :=
  (∀ (st : State) (t : Fin 1152) (s : Slice) (w : Nat),
    TviReady st.hw t.val s 0x01 w → fnLegal (insnFn w) = true →
    Does (.valu t) st fun h' => ∃ q', TileStep t.val s st.hw h' ((st.hw.tile t.val).withSeq q'.bump) ∧
        LanesSet (st.hw.tile t.val).seq q' (insnVd w) (laneBits (insnW w)) false (fun i y =>
          ((st.hw.tile t.val).seq.enabledLane w (laneCount (insnW w)) i →
            y = (st.hw.tile t.val).seq.valuLane w ((st.hw.tile t.val).seq.vlane (insnVb w) (laneBits (insnW w))) i % 2 ^ laneBits (insnW w)) ∧
          (¬ (st.hw.tile t.val).seq.enabledLane w (laneCount (insnW w)) i →
            y = (st.hw.tile t.val).seq.vlane (insnVd w) (laneBits (insnW w)) i))) ∧
  (∀ (st : State) (t : Fin 1152) (s : Slice) (w : Nat),
    TviReady st.hw t.val s 0x02 w → fnLegal (insnFn w) = true →
    Does (.valux t) st fun h' => ∃ q', TileStep t.val s st.hw h' ((st.hw.tile t.val).withSeq q'.bump) ∧
        LanesSet (st.hw.tile t.val).seq q' (insnVd w) (laneBits (insnW w)) false (fun i y =>
          ((st.hw.tile t.val).seq.enabledLane w (laneCount (insnW w)) i →
            y = (st.hw.tile t.val).seq.valuLane w (fun _ => ((st.hw.tile t.val).seq.scalar (insnXSb w)).1 % 2 ^ laneBits (insnW w)) i %
              2 ^ laneBits (insnW w)) ∧
          (¬ (st.hw.tile t.val).seq.enabledLane w (laneCount (insnW w)) i →
            y = (st.hw.tile t.val).seq.vlane (insnVd w) (laneBits (insnW w)) i))) ∧
  (∀ (st : State) (t : Fin 1152) (s : Slice) (w : Nat),
    TviReady st.hw t.val s 0x03 w →
    Does (.vcmp t) st fun h' => TileStep t.val s st.hw h' ((st.hw.tile t.val).withSeq
        ((st.hw.tile t.val).seq.withP (insnVd w % 8) ((st.hw.tile t.val).seq.vcmp w)).bump)) ∧
  (∀ (st : State) (t : Fin 1152) (s : Slice) (w : Nat),
    TviReady st.hw t.val s 0x0A w →
    Does (.vlut t) st fun h' => ∃ q', TileStep t.val s st.hw h' ((st.hw.tile t.val).withSeq q'.bump) ∧
        LanesSet (st.hw.tile t.val).seq q' (insnVd w) (laneBits (insnW w))
          (((List.range (laneCount (insnW w))).filter ((st.hw.tile t.val).seq.lane w)).any fun i =>
            ((st.hw.tile t.val).seq.vlutLane w ((st.hw.tile t.val).luts.getD [] (insnFn w % 8)) i).2) (fun i y =>
          ((st.hw.tile t.val).seq.enabledLane w (laneCount (insnW w)) i →
            y = ((st.hw.tile t.val).seq.vlutLane w ((st.hw.tile t.val).luts.getD [] (insnFn w % 8)) i).1 % 2 ^ laneBits (insnW w)) ∧
          (¬ (st.hw.tile t.val).seq.enabledLane w (laneCount (insnW w)) i →
            y = (st.hw.tile t.val).seq.vlane (insnVd w) (laneBits (insnW w)) i))) ∧
  (∀ (st : State) (t : Fin 1152) (s : Slice) (w : Nat),
    TviReady st.hw t.val s 0x0E w →
    Does (.vcvt t) st fun h' => ∃ q', TileStep t.val s st.hw h' ((st.hw.tile t.val).withSeq q'.bump) ∧
        LanesSet (st.hw.tile t.val).seq q' (insnVd w) (laneBits (insnW w))
          (((List.range (laneCount (insnW w))).filter ((st.hw.tile t.val).seq.lane w)).any fun i =>
            ((st.hw.tile t.val).seq.vcvtLane w i).2) (fun i y =>
          ((st.hw.tile t.val).seq.enabledLane w (laneCount (insnW w)) i →
            y = ((st.hw.tile t.val).seq.vcvtLane w i).1 % 2 ^ laneBits (insnW w)) ∧
          (¬ (st.hw.tile t.val).seq.enabledLane w (laneCount (insnW w)) i →
            y = (st.hw.tile t.val).seq.vlane (insnVd w) (laneBits (insnW w)) i))) ∧
  (∀ (st : State) (t : Fin 1152) (s : Slice) (w : Nat),
    TviReady st.hw t.val s 0x0D w → insnFn w ≤ 3 →
    Does (.vperm t) st fun h' => ∃ q', TileStep t.val s st.hw h' ((st.hw.tile t.val).withSeq q'.bump) ∧
        LanesSet (st.hw.tile t.val).seq q' (insnVd w) (laneBits (insnW w)) false (fun i y =>
          ((st.hw.tile t.val).seq.enabledLane w (laneCount (insnW w)) i → ∀ j,
            permSource (insnFn w) (laneCount (insnW w)) i ((st.hw.tile t.val).seq.vlane (insnVb w) (laneBits (insnW w))) = some j →
              y = (st.hw.tile t.val).seq.vlane (insnVa w) (laneBits (insnW w)) j % 2 ^ laneBits (insnW w)) ∧
          (¬ (st.hw.tile t.val).seq.enabledLane w (laneCount (insnW w)) i →
            y = (st.hw.tile t.val).seq.vlane (insnVd w) (laneBits (insnW w)) i))) ∧
  (∀ (st : State) (t : Fin 1152) (s : Slice) (w : Nat),
    TviReady st.hw t.val s 0x0F w → insnFn w = 0 →
    Does (.vmv t) st fun h' => ∃ y, TileStep t.val s st.hw h'
          ((st.hw.tile t.val).withSeq ((st.hw.tile t.val).seq.withS (insnVd w % 16) y false).bump) ∧
        (((st.hw.tile t.val).seq.scalar (insnXSb w)).1 < laneCount (insnW w) →
          y = (st.hw.tile t.val).seq.vlane (insnVa w) (laneBits (insnW w)) ((st.hw.tile t.val).seq.scalar (insnXSb w)).1)) ∧
  (∀ (st : State) (t : Fin 1152) (s : Slice) (w : Nat),
    TviReady st.hw t.val s 0x0F w → insnFn w = 1 →
    Does (.vmv t) st fun h' => ∃ q', TileStep t.val s st.hw h' ((st.hw.tile t.val).withSeq q'.bump) ∧
        LanesSet (st.hw.tile t.val).seq q' (insnVd w) (laneBits (insnW w)) false (fun i y =>
          ((st.hw.tile t.val).seq.enabledLane w (laneCount (insnW w)) i →
            y = ((st.hw.tile t.val).seq.scalar (insnXSb w)).1 % 2 ^ laneBits (insnW w)) ∧
          (¬ (st.hw.tile t.val).seq.enabledLane w (laneCount (insnW w)) i →
            y = (st.hw.tile t.val).seq.vlane (insnVd w) (laneBits (insnW w)) i)))

/-- VSORT puts the sorted keys and payloads of the enabled lanes into vd and vd + 1; VFFT of a stage up to 5 puts there
the butterfly results, and of a stage above 5 free values; the other lanes and registers keep their values, PC
moves by 4 and nothing else changes. That VSORT sorts FP32 keys among the enabled lanes, and the free values, are
the model's choices of log entry 26. VMACC adds the product of each enabled lane into acc[(ACB + lane) mod 1024] on
the grid of VLEVEL; VRED adds the sum of the enabled lanes into acc[ACB], or writes the largest or smallest to lane
0; ACCRD converts the accumulators of the enabled lanes into vd, and with FN bit 5 zeroes exactly those. PC moves
by 4 and nothing else changes. That FN bit 5 of VMACC selects floating point and that VRED reads floating-point
lanes is the model's choice of log entry 26. Each clause about a command concludes that exec answers a next state,
under conditions on the state and the operands alone; the constructors covered: vsort, vfft, vmacc, vred, accrd. -/
def Obligations.TviAccumulatorsSortAndFft : Prop :=
  (∀ (st : State) (t : Fin 1152) (s : Slice) (w : Nat),
    TviReady st.hw t.val s 0x0B w →
    Does (.vsort t) st fun h' => ∃ q', TileStep t.val s st.hw h' ((st.hw.tile t.val).withSeq q'.bump) ∧
        PairSet (st.hw.tile t.val).seq q' w ((st.hw.tile t.val).seq.vsorted w)) ∧
  (∀ (st : State) (t : Fin 1152) (s : Slice) (w : Nat),
    TviReady st.hw t.val s 0x0C w → insnFn w % 8 ≤ 5 →
    Does (.vfft t) st fun h' => ∃ q', TileStep t.val s st.hw h' ((st.hw.tile t.val).withSeq q'.bump) ∧
        PairSet (st.hw.tile t.val).seq q' w ((st.hw.tile t.val).seq.vffted w)) ∧
  (∀ (st : State) (t : Fin 1152) (s : Slice) (w : Nat),
    TviReady st.hw t.val s 0x0C w → 5 < insnFn w % 8 →
    Does (.vfft t) st fun h' => ∃ rs q', TileStep t.val s st.hw h' ((st.hw.tile t.val).withSeq q'.bump) ∧
        PairSet (st.hw.tile t.val).seq q' w rs) ∧
  (∀ (st : State) (t : Fin 1152) (s : Slice) (w : Nat),
    TviReady st.hw t.val s 0x08 w →
    Does (.vmacc t) st fun h' => ∃ y, TileStep t.val s st.hw h' (y.withSeq y.seq.bump) ∧
        y = ((st.hw.tile t.val).seq.lanesOn w (laneCount (insnW w))).foldl (fun y i =>
          y.addAcc (((st.hw.tile t.val).seq.acb + i) % 1024) (sx 8 (st.hw.tile t.val).seq.vlevel) [(st.hw.tile t.val).seq.vmaccTerm w i]) (st.hw.tile t.val)) ∧
  (∀ (st : State) (t : Fin 1152) (s : Slice) (w : Nat),
    TviReady st.hw t.val s 0x09 w → insnFn w = 0 →
    Does (.vred t) st fun h' => ∃ y, TileStep t.val s st.hw h' (y.withSeq y.seq.bump) ∧
        y = (st.hw.tile t.val).addAcc (st.hw.tile t.val).seq.acb (sx 8 (st.hw.tile t.val).seq.vlevel) ((st.hw.tile t.val).seq.vredTerms w)) ∧
  (∀ (st : State) (t : Fin 1152) (s : Slice) (w : Nat),
    TviReady st.hw t.val s 0x09 w → insnFn w = 1 ∨ insnFn w = 2 →
    Does (.vred t) st fun h' => ∃ q', TileStep t.val s st.hw h' ((st.hw.tile t.val).withSeq q'.bump) ∧
        (((st.hw.tile t.val).seq.enabledLane w (laneCount (insnW w)) 0 ∧
          LanesSet (st.hw.tile t.val).seq q' (insnVd w) (laneBits (insnW w)) false (fun i y =>
            (i = 0 → y = (laneFp (insnW w)).lane (extreme (insnFn w == 1) ((st.hw.tile t.val).seq.vredTerms w)) % 2 ^ laneBits (insnW w)) ∧
            (i ≠ 0 → y = (st.hw.tile t.val).seq.vlane (insnVd w) (laneBits (insnW w)) i))) ∨
         (¬ (st.hw.tile t.val).seq.enabledLane w (laneCount (insnW w)) 0 ∧ q' = (st.hw.tile t.val).seq))) ∧
  (∀ (st : State) (t : Fin 1152) (s : Slice) (w : Nat),
    TviReady st.hw t.val s 0x1D w →
    Does (.accrd t) st fun h' => ∃ A q', TileStep t.val s st.hw h' ({ st.hw.tile t.val with accs := A }.withSeq q'.bump) ∧
        LanesSet (st.hw.tile t.val).seq q' (insnVd w) (laneBits (insnW w))
          (((st.hw.tile t.val).seq.lanesOn w (laneCount (insnW w))).any fun i => ((st.hw.tile t.val).accrdLane w i).2) (fun i y =>
          ((st.hw.tile t.val).seq.enabledLane w (laneCount (insnW w)) i →
            y = ((st.hw.tile t.val).accrdLane w i).1 % 2 ^ laneBits (insnW w)) ∧
          (¬ (st.hw.tile t.val).seq.enabledLane w (laneCount (insnW w)) i →
            y = (st.hw.tile t.val).seq.vlane (insnVd w) (laneBits (insnW w)) i)) ∧
        ∀ j, (bit (insnFn w) 5 = true → (∃ i, (st.hw.tile t.val).seq.enabledLane w (laneCount (insnW w)) i ∧
            j = ((st.hw.tile t.val).seq.acb + i) % 1024) → A.getD Acc.zero j = Acc.zero) ∧
          (¬ (bit (insnFn w) 5 = true ∧ ∃ i, (st.hw.tile t.val).seq.enabledLane w (laneCount (insnW w)) i ∧
            j = ((st.hw.tile t.val).seq.acb + i) % 1024) → A.getD Acc.zero j = (st.hw.tile t.val).acc j))

/-- NOP, SETS, VPROG, a COMMIT without FINAL or SIG of a duplicated slice, LUT_LOAD and SOB_OP that a tile issues next
complete: SETS sets or adds to its register, VPROG starts its program with the level of the TOD, LUT_LOAD fills its
table from the 1,040 bytes of A, SOB_OP READ writes the value of a sync object that the partition holds, SET and
ADD are held in the slice. The sequencer moves on under the loop field, and nothing else changes. That SOB_OP
extends its 32-bit register with zeros is the model's choice of log entry 18. Each clause about a command concludes
that exec answers a next state, under conditions on the state and the operands alone; the constructors covered:
todNop, sets, vprog, commit, lutLoad, sobOp. -/
def Obligations.TodSequencer : Prop :=
  (∀ (st : State) (t : Fin 1152) (s : Slice) (d : List Byte),
    TodReady st.hw t.val s 0x00 d → admits3 d [0] [0] [0] = true →
    Does (.todNop t) st fun h' => TodDone st.hw h' t.val d fun s' y => s' = s ∧ y = st.hw.tile t.val) ∧
  (∀ (st : State) (t : Fin 1152) (s : Slice) (d : List Byte),
    TodReady st.hw t.val s 0x01 d → admits3 d [0] [0] [0] = true → bits (header d).param 0 5 ≤ 23 →
    Does (.sets t) st fun h' => TodDone st.hw h' t.val d fun s' y =>
        s' = s ∧ y = (st.hw.tile t.val).sets s (header d).param) ∧
  (∀ (st : State) (t : Fin 1152) (s : Slice) (d : List Byte),
    TodReady st.hw t.val s 0x05 d → admits3 d [0] [0] [0] = true → bits (header d).param 0 19 % 4 = 0 →
    Does (.vprog t) st fun h' => TodDone st.hw h' t.val d fun s' y => s' = s ∧ ∃ lam, LevelIs (st.hw.tile t.val) s (header d) lam ∧
        y = (st.hw.tile t.val).withSeq { (st.hw.tile t.val).seq with
          pc := bits (header d).param 0 19, inProg := true, vlevel := unsx 8 lam }) ∧
  (∀ (st : State) (t : Fin 1152) (s : Slice) (d : List Byte),
    TodReady st.hw t.val s 0x02 d → admits3 d [0, 1] [0] [0] = true →
    (bit (header d).param 1 && s.dup && (opnd d 0).kind == 1) = false → bit (header d).param 0 = false →
    Does (.commit t) st fun h' => TodDone st.hw h' t.val d fun s' y => s' = s ∧ y = st.hw.tile t.val) ∧
  (∀ (st : State) (t : Fin 1152) (s : Slice) (d : List Byte),
    TodReady st.hw t.val s 0x06 d → admits3 d [1] [0] [0] = true → packable (header d).fmtA (opnd d 0).d0 = true →
    ∀ (bs : List Byte),
    bs = ((opnd d 0).rowOffs.map fun r => (sramBytes st.hw t.val s.pid ((opnd d 0).addrIn (st.hw.tile t.val).seq + r) (rowLen (header d).fmtA (opnd d 0).d0)).map (·.1)).flatten →
    bs.length = 1040 →
    Does (.lutLoad t) st fun h' => TodDone st.hw h' t.val d fun s' y => s' = s ∧
        y = { st.hw.tile t.val with
          luts := (st.hw.tile t.val).luts.put (bits (header d).param 0 3) ((List.range 260).map fun i => field bs (4 * i) 4) }) ∧
  (∀ (st : State) (t : Fin 1152) (s : Slice) (d : List Byte),
    TodReady st.hw t.val s 0x04 d → admits3 d [0] [0] [0] = true → bits (header d).param 0 2 = 2 →
    st.hw.holdsSob s.pid (bits (header d).param 16 16) = true → ∀ (g : Hw),
    st.hw.chargeEdges s.pid (readPath s.pos) = some g →
    Does (.sobOp t) st fun h' => TodActs st.hw h' t.val s d (readsSob st.hw t.val d g)) ∧
  (∀ (st : State) (t : Fin 1152) (s : Slice) (d : List Byte),
    TodReady st.hw t.val s 0x04 d → admits3 d [0] [0] [0] = true → bits (header d).param 0 2 < 2 →
    Does (.sobOp t) st fun h' => TodDone st.hw h' t.val d fun s' y => y = st.hw.tile t.val ∧ s' = { s with
        sobs := s.sobs ++ [{ idx := bits (header d).param 16 16, add := bits (header d).param 0 2 == 1,
                             value := ((st.hw.tile t.val).seq.scalar (bits (header d).param 2 4)).1 }] })

/-- MATMUL, MATMUL_SPARSE and CONV2D with operands and formats that their rows allow complete: the terms of each output
are summed in the output cells (cleared first without ACC_KEEP) and, without HOLD, written to D in FMT_OUT; with D
of kind 3 they are added into the accumulators from its first index. Metadata of MATMUL_SPARSE with a first
position not below its second gives unstated terms. Only the tile changes. That D has the shape of the product is
the model's choice of log entry 19. Each clause about a command concludes that exec answers a next state, under
conditions on the state and the operands alone; the constructors covered: matmul, matmulSparse, conv2d. -/
def Obligations.TodProducts : Prop :=
  (∀ (st : State) (t : Fin 1152) (s : Slice) (d : List Byte),
    TodReady st.hw t.val s 0x10 d → admits3 d [1] [1] [1, 3] = true → productFits d = true →
    (opnd d 0).d0 = (opnd d 1).d0 → outFits d = true →
    macFits d ((opnd d 0).d1 * (opnd d 0).d2) ((opnd d 1).d1 * (opnd d 1).d2) = true →
    packable (header d).fmtA (opnd d 0).d0 = true → packable (header d).fmtB (opnd d 1).d0 = true →
    Does (.matmul t) st fun h' => TodDone st.hw h' t.val d
        (MacOut st.hw t.val s d ((opnd d 0).d1 * (opnd d 0).d2) ((opnd d 1).d1 * (opnd d 1).d2)
          ((rowsAt st.hw t.val s d 0 (header d).fmtA).flatMap fun x => (rowsAt st.hw t.val s d 1 (header d).fmtB).map fun y => dotTerms x y))) ∧
  (∀ (st : State) (t : Fin 1152) (s : Slice) (d : List Byte),
    TodReady st.hw t.val s 0x11 d → admits3 d [1] [1] [1, 3] = true → productFits d = true →
    (is16 (header d).fmtA || is16 (header d).fmtB) = false → (opnd d 0).d0 % 4 = 0 →
    (isMx (header d).fmtB = true → (opnd d 0).d0 % 64 = 0) → (opnd d 1).d0 = (opnd d 0).d0 / 2 → outFits d = true →
    macFits d ((opnd d 0).d1 * (opnd d 0).d2) ((opnd d 1).d1 * (opnd d 1).d2) = true →
    packable (header d).fmtA (opnd d 0).d0 = true → packable (header d).fmtB (opnd d 1).d0 = true →
    Does (.matmulSparse t) st fun h' => TodDone st.hw h' t.val d fun s' y =>
        ∃ terms, (∀ ex, sparseRows st.hw t.val s d = some ex →
          terms = (rowsAt st.hw t.val s d 0 (header d).fmtA).flatMap fun x => ex.map fun y => dotTerms x y) ∧
        MacOut st.hw t.val s d ((opnd d 0).d1 * (opnd d 0).d2) ((opnd d 1).d1 * (opnd d 1).d2) terms s' y) ∧
  (∀ (st : State) (t : Fin 1152) (s : Slice) (d : List Byte),
    TodReady st.hw t.val s 0x12 d → admits3 d [1] [1] [1, 3] = true → (convOf (header d).param).fits = true →
    macFormats (header d) = true → ∀ (oh : Nat), (oh = if (opnd d 2).kind = 3 then 1 else (opnd d 2).d2) →
    (opnd d 0).d0 = (opnd d 1).d0 ∧ (opnd d 1).d1 = (convOf (header d).param).kh * (convOf (header d).param).kw →
    (opnd d 2).d1 * oh ≤ 32 → (opnd d 1).d2 ≤ macN (header d).fmtA (header d).fmtB → (opnd d 2).d0 = (opnd d 1).d2 →
    (! (isMx (header d).fmtA || isMx (header d).fmtB) || (opnd d 0).d0 % 32 == 0) = true →
    packable (header d).fmtA (opnd d 0).d0 = true → packable (header d).fmtB (opnd d 1).d0 = true →
    macFits d ((opnd d 2).d1 * oh) (opnd d 1).d2 = true →
    Does (.conv2d t) st fun h' => TodDone st.hw h' t.val d
        (MacOut st.hw t.val s d ((opnd d 2).d1 * oh) (opnd d 1).d2 (convIn st.hw t.val s d 1)))

/-- ACC_CLEAR zeroes exactly the accumulators that D names; ACC_READ writes the values of the accumulators of A to D in
FMT_OUT and with CLEAR zeroes them; EXPSCAN sends the largest exponent of the product terms of A and B to its root;
CONV2D_FFT writes the convolution by FFT, from its own or from stored spectra, or the spectra. The sequencer moves
on, and nothing else changes. Each clause about a command concludes that exec answers a next state, under
conditions on the state and the operands alone; the constructors covered: accClear, accRead, expscan, conv2dFft. -/
def Obligations.TodAccumulatorOps : Prop :=
  (∀ (st : State) (t : Fin 1152) (s : Slice) (d : List Byte),
    TodReady st.hw t.val s 0x16 d → admits3 d [0] [0] [3] = true →
    Does (.accClear t) st fun h' => TodDone st.hw h' t.val d fun s' y => s' = s ∧
        y = (st.hw.tile t.val).cleared (opnd d 2).acc ((opnd d 2).d0 * (opnd d 2).d1)) ∧
  (∀ (st : State) (t : Fin 1152) (s : Slice) (d : List Byte),
    TodReady st.hw t.val s 0x17 d → admits3 d [3] [0] [1] = true → (opnd d 2).count = (opnd d 0).d0 * (opnd d 0).d1 →
    packable (header d).fmtOut (opnd d 2).d0 = true →
    Does (.accRead t) st fun h' => TodDone st.hw h' t.val d fun s' y => s' = s ∧ ∃ lam z, LevelIs (st.hw.tile t.val) s (header d) lam ∧
        ValsPut st.hw t.val s.pid (opnd d 2) (header d) ((List.range ((opnd d 0).d0 * (opnd d 0).d1)).map fun i =>
          ((st.hw.tile t.val).acc ((opnd d 0).acc + i)).val lam) (st.hw.tile t.val) z ∧
        y = if bit (header d).param 0 then z.cleared (opnd d 0).acc ((opnd d 0).d0 * (opnd d 0).d1) else z) ∧
  (∀ (st : State) (t : Fin 1152) (s : Slice) (d : List Byte),
    TodReady st.hw t.val s 0x15 d → admits3 d [1] [1] [4] = true → productFits d = true →
    (opnd d 0).d0 = (opnd d 1).d0 → packable (header d).fmtA (opnd d 0).d0 = true →
    packable (header d).fmtB (opnd d 1).d0 = true →
    Does (.expscan t) st fun h' => TodActs st.hw h' t.val s d (sendsExp st.hw t.val s d)) ∧
  (∀ (st : State) (t : Fin 1152) (s : Slice) (d : List Byte),
    TodReady st.hw t.val s 0x13 d → admits3 d [1] [1] [1] = true → fftConvFits d = true →
    packable (header d).fmtA (opnd d 0).d0 = true →
    (packable (if (fftConvOf (header d).param).mode = 1 then 0xF else (header d).fmtB) (opnd d 1).d0 = true) →
    packable (header d).fmtOut (opnd d 2).d0 = true →
    ((fftConvOf (header d).param).mode = 2 → (opnd d 2).count = (spectraOf st.hw t.val s d).length * 2 ^ (fftConvOf (header d).param).b * 2 ^ (fftConvOf (header d).param).b * 2) →
    Does (.conv2dFft t) st fun h' => TodDone st.hw h' t.val d fun s' y => s' = s ∧
        ((fftConvOf (header d).param).mode = 2 → Stores st.hw t.val s ((opnd d 2).encWrites (st.hw.tile t.val).seq 0xF
          ((spectraOf st.hw t.val s d).flatMap fun z => z.flatMap fun z => [z.1, z.2])) s' y) ∧
        ((fftConvOf (header d).param).mode = 1 → GivesOver st.hw t.val s d
          ((rowsAt st.hw t.val s d 0 (header d).fmtA).any fun r => r.any f32over) (fftConvOut st.hw t.val s d (spectraIn st.hw t.val s d)) s' y) ∧
        ((fftConvOf (header d).param).mode = 0 → GivesOver st.hw t.val s d
          (((rowsAt st.hw t.val s d 0 (header d).fmtA).any fun r => r.any f32over) ||
            (rowsAt st.hw t.val s d 1 (header d).fmtB).any fun r => r.any f32over)
          (fftConvOut st.hw t.val s d (spectraOf st.hw t.val s d)) s' y))

/-- SCAN writes the row maxima of the live scores to D; ACC adds the weighted values and the weights of the block into
the accumulators, adds the carried half first and writes the new half of the carry area when one is named; FINISH
writes the quotients to D. The work area holds free values afterwards (log entry 25), and nothing else outside the
named operands changes. That a tile outside a group has ring position 0 is the model's choice of log entry 24. Each
clause about a command concludes that exec answers a next state, under conditions on the state and the operands
alone; the constructor covered: attnBlock. -/
def Obligations.TodAttention : Prop :=
  (∀ (st : State) (t : Fin 1152) (s : Slice) (d : List Byte),
    TodReady st.hw t.val s 0x14 d → attnReady st.hw t.val s d 0 → admits3 d [1] [1, 2] [1] = true →
    attnShape (attnIn st.hw t.val s d) d = true → (opnd d 2).count = (opnd d 0).d1 * (opnd d 0).d2 →
    Does (.attnBlock t) st fun h' => TodDone st.hw h' t.val d fun s' y => s' = s ∧ ∃ ws m,
        writesWithin (attnIn st.hw t.val s d).work (128 * (attnIn st.hw t.val s d).dh) ws ∧
        y = { (st.hw.tile t.val).noteFlags ((attnKeys st.hw t.val s d).2.1 || (scanScores st.hw t.val s d).any fun r => r.any (·.2.1))
          ((attnKeys st.hw t.val s d).2.2 || (scanScores st.hw t.val s d).any fun r => r.any (·.2.2)) with sram := m } ∧
        SramAfter st.hw t.val s.pid (st.hw.tile t.val).sram (ws ++ (opnd d 2).encWrites (st.hw.tile t.val).seq 2 (scanMaxima st.hw t.val s d)) m) ∧
  (∀ (st : State) (t : Fin 1152) (s : Slice) (d : List Byte),
    TodReady st.hw t.val s 0x14 d → attnReady st.hw t.val s d 1 → admits3 d [1] [1, 2] [3] = true →
    attnShape (attnIn st.hw t.val s d) d = true → ∀ (n : Nat),
    n = (opnd d 0).d1 * (opnd d 0).d2 * ((attnIn st.hw t.val s d).dh + 1) → n + (opnd d 2).acc ≤ 1024 →
    Does (.attnBlock t) st fun h' => TodDone st.hw h' t.val d (AccDone st.hw t.val s d n)) ∧
  (∀ (st : State) (t : Fin 1152) (s : Slice) (d : List Byte),
    TodReady st.hw t.val s 0x14 d → attnReady st.hw t.val s d 2 → admits3 d [3] [0] [1] = true →
    (opnd d 2).d0 = (attnIn st.hw t.val s d).dh ∧ (opnd d 2).d1 * (opnd d 2).d2 ≤ 32 → ∀ (n : Nat),
    n = (opnd d 2).d1 * (opnd d 2).d2 * ((attnIn st.hw t.val s d).dh + 1) → n + (opnd d 0).acc ≤ 1024 →
    packable (header d).fmtOut (opnd d 2).d0 = true → ∀ (z : Tile),
    (z = if (attnIn st.hw t.val s d).carry ≠ 0 then (st.hw.tile t.val).addCarry (opnd d 0).acc (carryIn st.hw t.val s (attnIn st.hw t.val s d).carry n ((((st.hw.tile t.val).seq.scalar 15).1 + 1) % 2)) else st.hw.tile t.val) →
    Does (.attnBlock t) st fun h' => TodDone st.hw h' t.val d fun s' y => s' = s ∧
        ValsPut st.hw t.val s.pid (opnd d 2) (header d) (finishVals (attnIn st.hw t.val s d) d z) z y)

/-- ELTWISE, ACT, NORM, SOFTMAX, REDUCE, POOL and DWCONV with admitted operands complete: D (of kind 1) holds the
results of the row in FMT_OUT with OVERFLOW collected, or (of kind 3) its accumulators the sums; every byte outside
D reads as before and nothing outside the tile changes. The order of the FP32 steps of NORM and SOFTMAX is the
model's choice of log entry 21. TOPK and SORT write keys in order with their payloads, QUANT, DEQUANT and CONVERT
the values of A in FMT_OUT, FFT the transforms of its rows or planes; every byte outside D reads as before and
nothing outside the tile changes. The places of keys and payloads in D (log entry 22), the order of NaN and of the
zeros among keys (log entry 20) and the interleaving of complex values (log entry 21) are the model's choices. Each
clause about a command concludes that exec answers a next state, under conditions on the state and the operands
alone; the constructors covered: eltwise, act, norm, softmax, reduce, pool, dwconv, topk, sort, quant, dequant,
convert, fft. -/
def Obligations.TodVectorResults : Prop :=
  (∀ (st : State) (t : Fin 1152) (s : Slice) (d : List Byte),
    TodReady st.hw t.val s 0x22 d → fnLegal (bits (header d).param 0 6) = true →
    (admits3 d [1] (if fnBinary (bits (header d).param 0 6) then [1] else [0, 1]) [1] = true) →
    ((opnd d 2).count == (opnd d 0).count) = true →
    (fnBinary (bits (header d).param 0 6) = true → (opnd d 1).count = (opnd d 0).count ∧ packable (header d).fmtB (opnd d 1).d0 = true) →
    packable (header d).fmtA (opnd d 0).d0 = true → packable (header d).fmtOut (opnd d 2).d0 = true →
    Does (.eltwise t) st fun h' => TodDone st.hw h' t.val d (GivesOver st.hw t.val s d (eltwiseOver st.hw t.val s d) (eltwiseOut st.hw t.val s d))) ∧
  (∀ (st : State) (t : Fin 1152) (s : Slice) (d : List Byte),
    TodReady st.hw t.val s 0x23 d → admits3 d [1, 3] [0] [1] = true → ∀ (n : Nat),
    (n = if (opnd d 0).kind = 3 then (opnd d 0).d0 * (opnd d 0).d1 else (opnd d 0).count) → (opnd d 2).count = n →
    ((opnd d 0).kind ≠ 3 → packable (header d).fmtA (opnd d 0).d0 = true) →
    packable (header d).fmtOut (opnd d 2).d0 = true →
    Does (.act t) st fun h' => TodDone st.hw h' t.val d fun s' y => ∃ lam, LevelIs (st.hw.tile t.val) s (header d) lam ∧
        GivesOver st.hw t.val s d ((actIn st.hw t.val s d n lam).any f32over) ((actIn st.hw t.val s d n lam).map fun v =>
          f32v (lutApply ((st.hw.tile t.val).lut (bits (header d).param 0 3)) (toF32 v))) s' y) ∧
  (∀ (st : State) (t : Fin 1152) (s : Slice) (d : List Byte),
    TodReady st.hw t.val s 0x24 d → admits3 d [1] [1] [1] = true → ((opnd d 1).d0 == (opnd d 0).d0) = true →
    (opnd d 2).sameShape (opnd d 0) = true → packable (header d).fmtA (opnd d 0).d0 = true →
    packable (header d).fmtB (opnd d 1).d0 = true → packable (header d).fmtOut (opnd d 2).d0 = true →
    Does (.norm t) st fun h' => TodDone st.hw h' t.val d (GivesOver st.hw t.val s d
        ((rowsAt st.hw t.val s d 0 (header d).fmtA ++ (rowsAt st.hw t.val s d 1 (header d).fmtB).take 2).any fun x => x.any f32over)
        (((rowsAt st.hw t.val s d 0 (header d).fmtA).flatMap fun x => normRow (bit (header d).param 0) (bits (header d).param 32 32)
          (x.map toF32) (((rowsAt st.hw t.val s d 1 (header d).fmtB).getD 0 []).map toF32)
          (((rowsAt st.hw t.val s d 1 (header d).fmtB).getD 1 []).map toF32)).map f32v))) ∧
  (∀ (st : State) (t : Fin 1152) (s : Slice) (d : List Byte),
    TodReady st.hw t.val s 0x25 d → admits3 d [1] [0] [1] = true → (opnd d 2).sameShape (opnd d 0) = true →
    packable (header d).fmtA (opnd d 0).d0 = true → packable (header d).fmtOut (opnd d 2).d0 = true →
    Does (.softmax t) st fun h' => TodDone st.hw h' t.val d (GivesOver st.hw t.val s d ((rowsAt st.hw t.val s d 0 (header d).fmtA).any fun x => x.any f32over)
        (((rowsAt st.hw t.val s d 0 (header d).fmtA).flatMap fun x => softmaxRow (bit (header d).param 0)
          (x.map toF32)).map f32v))) ∧
  (∀ (st : State) (t : Fin 1152) (s : Slice) (d : List Byte),
    TodReady st.hw t.val s 0x26 d → bits (header d).param 0 2 ≠ 3 → bits (header d).param 2 2 ≠ 3 →
    (admits3 d [1] [0] (if bits (header d).param 0 2 = 0 then [1, 3] else [1]) = true) →
    packable (header d).fmtA (opnd d 0).d0 = true → ∀ (ts : List (List Val)),
    ts = reduceTerms (bits (header d).param 2 2) (opnd d 0).d0 (opnd d 0).d1 (opnd d 0).d2 (valsAt st.hw t.val s d 0 (header d).fmtA) →
    ((opnd d 2).kind = 3 → ts.length + (opnd d 2).acc ≤ 1024) →
    ((opnd d 2).kind ≠ 3 → (opnd d 2).count = ts.length) →
    ((opnd d 2).kind ≠ 3 → ((decide (bits (header d).param 0 2 = 0) && (header d).hold) || packable (header d).fmtOut (opnd d 2).d0) = true) →
    Does (.reduce t) st fun h' => TodDone st.hw h' t.val d fun s' y =>
        (bits (header d).param 0 2 ≠ 0 → Gives st.hw t.val s d (ts.map (extreme (bits (header d).param 0 2 == 1))) s' y) ∧
        (bits (header d).param 0 2 = 0 → Accumulates st.hw t.val s d ts (fun lam a => a.val lam) s' y)) ∧
  (∀ (st : State) (t : Fin 1152) (s : Slice) (d : List Byte),
    TodReady st.hw t.val s 0x21 d → admits3 d [1] [0] [1] = true → bits (header d).param 0 2 ≠ 3 →
    bits (header d).param 2 4 ≠ 0 ∧ bits (header d).param 6 4 ≠ 0 → (opnd d 2).d0 = (opnd d 0).d0 →
    packable (header d).fmtA (opnd d 0).d0 = true →
    ((decide (bits (header d).param 0 2 ≠ 0) && (header d).hold) || packable (header d).fmtOut (opnd d 2).d0) = true →
    Does (.pool t) st fun h' => TodDone st.hw h' t.val d fun s' y =>
        (bits (header d).param 0 2 = 0 → Gives st.hw t.val s d ((poolWindows st.hw t.val s d).map (extreme true)) s' y) ∧
        (bits (header d).param 0 2 ≠ 0 → Accumulates st.hw t.val s d (poolWindows st.hw t.val s d) (fun lam a =>
          if bits (header d).param 0 2 = 1 then (a.val lam).div (Val.ofInt (bits (header d).param 2 4 * bits (header d).param 6 4))
          else a.val lam) s' y)) ∧
  (∀ (st : State) (t : Fin 1152) (s : Slice) (d : List Byte),
    TodReady st.hw t.val s 0x20 d → admits3 d [1] [1] [1, 3] = true → ∀ (g : Nat),
    g = bits (header d).param 24 8 + 1 → (convOf (header d).param).fits = true → macFormats (header d) = true →
    ∀ (oh : Nat), (oh = if (opnd d 2).kind = 3 then 1 else (opnd d 2).d2) →
    (opnd d 0).d0 % g = 0 ∧ (opnd d 1).d2 % g = 0 →
    (opnd d 1).d0 = (opnd d 0).d0 / g ∧ (opnd d 1).d1 = (convOf (header d).param).kh * (convOf (header d).param).kw →
    (opnd d 2).d1 * oh * (opnd d 1).d2 ≤ 1024 → (opnd d 2).d0 = (opnd d 1).d2 →
    packable (header d).fmtA (opnd d 0).d0 = true → packable (header d).fmtB (opnd d 1).d0 = true →
    ((opnd d 2).kind = 3 → (convIn st.hw t.val s d g).length + (opnd d 2).acc ≤ 1024) →
    ((opnd d 2).kind ≠ 3 → ((header d).hold || packable (header d).fmtOut (opnd d 2).d0) = true) →
    Does (.dwconv t) st fun h' => TodDone st.hw h' t.val d
        (Accumulates st.hw t.val s d (convIn st.hw t.val s d g) fun lam a => a.val lam)) ∧
  (∀ (st : State) (t : Fin 1152) (s : Slice) (d : List Byte),
    TodReady st.hw t.val s 0x27 d → admits3 d [1] [1] [1] = true → ∀ (n : Nat), n = bits (header d).param 0 11 →
    1 ≤ n ∧ n ≤ 1024 → (opnd d 2).d0 = n ∧ (opnd d 2).d1 * (opnd d 2).d2 = 2 * ((opnd d 0).d1 * (opnd d 0).d2) →
    ((opnd d 1).sameShape (opnd d 0)) = true → packable (header d).fmtA (opnd d 0).d0 = true →
    packable (header d).fmtB (opnd d 1).d0 = true → packable (header d).fmtOut (opnd d 2).d0 = true →
    Does (.topk t) st fun h' => TodDone st.hw h' t.val d (GivesKeyed st.hw t.val s d
        ((keyedIn st.hw t.val s d).map fun l => (sortKeys true l).take n ++ List.replicate (n - l.length) (Val.zero, 0)))) ∧
  (∀ (st : State) (t : Fin 1152) (s : Slice) (d : List Byte),
    TodReady st.hw t.val s 0x28 d → admits3 d [1] [1] [1] = true →
    (opnd d 2).d0 = (opnd d 0).d0 ∧ (opnd d 2).d1 * (opnd d 2).d2 = 2 * ((opnd d 0).d1 * (opnd d 0).d2) →
    ((opnd d 1).sameShape (opnd d 0)) = true → packable (header d).fmtA (opnd d 0).d0 = true →
    packable (header d).fmtB (opnd d 1).d0 = true → packable (header d).fmtOut (opnd d 2).d0 = true →
    Does (.sort t) st fun h' => TodDone st.hw h' t.val d (GivesKeyed st.hw t.val s d
        ((keyedIn st.hw t.val s d).map (sortKeys (bit (header d).param 0))))) ∧
  (∀ (st : State) (t : Fin 1152) (s : Slice) (d : List Byte),
    TodReady st.hw t.val s 0x29 d → admits3 d [1] [0] [1] = true → ((opnd d 2).count == (opnd d 0).count) = true →
    packable (header d).fmtA (opnd d 0).d0 = true → packable (header d).fmtOut (opnd d 2).d0 = true →
    mxOrInt (header d).fmtOut = true →
    Does (.quant t) st fun h' => TodDone st.hw h' t.val d (Gives st.hw t.val s d (valsAt st.hw t.val s d 0 (header d).fmtA))) ∧
  (∀ (st : State) (t : Fin 1152) (s : Slice) (d : List Byte),
    TodReady st.hw t.val s 0x2A d → admits3 d [1] [0] [1] = true → ((opnd d 2).count == (opnd d 0).count) = true →
    packable (header d).fmtA (opnd d 0).d0 = true → packable (header d).fmtOut (opnd d 2).d0 = true →
    mxOrInt (header d).fmtA = true →
    Does (.dequant t) st fun h' => TodDone st.hw h' t.val d (Gives st.hw t.val s d (valsAt st.hw t.val s d 0 (header d).fmtA))) ∧
  (∀ (st : State) (t : Fin 1152) (s : Slice) (d : List Byte),
    TodReady st.hw t.val s 0x2F d → admits3 d [1] [0] [1] = true → ((opnd d 2).count == (opnd d 0).count) = true →
    packable (header d).fmtA (opnd d 0).d0 = true → packable (header d).fmtOut (opnd d 2).d0 = true →
    Does (.convert t) st fun h' => TodDone st.hw h' t.val d (Gives st.hw t.val s d (valsAt st.hw t.val s d 0 (header d).fmtA))) ∧
  (∀ (st : State) (t : Fin 1152) (s : Slice) (d : List Byte),
    TodReady st.hw t.val s 0x2E d → admits3 d [1] [0] [1] = true →
    1 ≤ bits (header d).param 0 3 ∧ bits (header d).param 0 3 ≤ 6 →
    (opnd d 0).d0 = 2 * 2 ^ bits (header d).param 0 3 →
    (bit (header d).param 3 = true → (opnd d 0).d1 = 2 ^ bits (header d).param 0 3) →
    (opnd d 2).sameShape (opnd d 0) = true → packable (header d).fmtA (opnd d 0).d0 = true →
    packable (header d).fmtOut (opnd d 2).d0 = true →
    Does (.fft t) st fun h' => TodDone st.hw h' t.val d (GivesOver st.hw t.val s d ((valsAt st.hw t.val s d 0 (header d).fmtA).any f32over)
        ((fftOut d (valsAt st.hw t.val s d 0 (header d).fmtA)).flatMap fun z => [f32v z.1, f32v z.2])))

/-- COPY, FILL and TRANSPOSE write the rows of D with the bytes of their rows, GATHER the table rows that the indices
name; SCATTER writes only rows of D that its indices name and sticky flags. Every other byte of SRAM reads as
before, the sequencer moves on, and nothing outside the tile changes. That row i of a table is STRIDE1 apart is the
model's choice of log entry 23. A direct DMA_LOAD whose rows translate and whose buckets pay reads the rows of A
and writes them to D; a direct DMA_STORE within the staging limit only stages its rows: no byte of DRAM changes; a
COMMIT with FINAL of a slice that is not duplicated pays for the staged stores and performs the final commit.
Nothing else changes. Each clause about a command concludes that exec answers a next state, under conditions on the
state and the operands alone; the constructors covered: copy, fill, transpose, gather, scatter, dmaLoad, dmaStore,
commit. -/
def Obligations.TodMovesAndDramAccess : Prop :=
  (∀ (st : State) (t : Fin 1152) (s : Slice) (d : List Byte),
    TodReady st.hw t.val s 0x30 d → admits3 d [1] [0] [1] = true → (opnd d 2).sameShape (opnd d 0) = true →
    packable (header d).fmtA (opnd d 0).d0 = true →
    Does (.copy t) st fun h' => TodDone st.hw h' t.val d fun s' y => s' = s ∧ ∃ m, y = { st.hw.tile t.val with sram := m } ∧
        CopiedRows st.hw t.val s.pid (rowLen (header d).fmtA (opnd d 0).d0)
          ((List.range (opnd d 0).rowOffs.length).map fun i =>
            ((opnd d 0).addrIn (st.hw.tile t.val).seq + (opnd d 0).rowOffs.getD i 0,
             (opnd d 2).addrIn (st.hw.tile t.val).seq + (opnd d 2).rowOffs.getD i 0)) (st.hw.tile t.val).sram m) ∧
  (∀ (st : State) (t : Fin 1152) (s : Slice) (d : List Byte),
    TodReady st.hw t.val s 0x31 d → admits3 d [0] [0] [1] = true → packable (header d).fmtOut (opnd d 2).d0 = true →
    Does (.fill t) st fun h' => TodDone st.hw h' t.val d (Stores st.hw t.val s (fillWrites st.hw t.val d))) ∧
  (∀ (st : State) (t : Fin 1152) (s : Slice) (d : List Byte),
    TodReady st.hw t.val s 0x2B d → admits3 d [1] [0] [1] = true →
    (opnd d 2).d0 = (opnd d 0).d1 ∧ (opnd d 2).d1 = (opnd d 0).d0 ∧ (opnd d 2).d2 = (opnd d 0).d2 →
    packable (header d).fmtA (opnd d 0).d0 = true → packable (header d).fmtA (opnd d 2).d0 = true →
    Does (.transpose t) st fun h' => TodDone st.hw h' t.val d (Stores st.hw t.val s (transposeWrites st.hw t.val s d))) ∧
  (∀ (st : State) (t : Fin 1152) (s : Slice) (d : List Byte),
    TodReady st.hw t.val s 0x2C d → admits3 d [1] [1] [1] = true → ∀ (is : List Int),
    is = (valsAt st.hw t.val s d 1 (header d).fmtB).map indexOf → (opnd d 2).count = (opnd d 0).d0 * is.length →
    packable (header d).fmtA (opnd d 0).d0 = true → packable (header d).fmtB (opnd d 1).d0 = true →
    packable (header d).fmtOut (opnd d 2).d0 = true →
    Does (.gather t) st fun h' => TodDone st.hw h' t.val d (Gives st.hw t.val s d
        (is.map fun i => (opnd d 0).rowAtIn st.hw t.val s.pid (st.hw.tile t.val) (header d).fmtA i).flatten)) ∧
  (∀ (st : State) (t : Fin 1152) (s : Slice) (d : List Byte),
    TodReady st.hw t.val s 0x2D d → admits3 d [1] [1] [1] = true → bits (header d).param 0 2 ≠ 3 →
    (opnd d 2).d0 = (opnd d 0).d0 →
    (scatterIx st.hw t.val s d).length = (rowsAt st.hw t.val s d 0 (header d).fmtA).length →
    packable (header d).fmtA (opnd d 0).d0 = true → packable (header d).fmtB (opnd d 1).d0 = true →
    packable (header d).fmtOut (opnd d 2).d0 = true →
    Does (.scatter t) st fun h' => TodDone st.hw h' t.val d fun s' y =>
        s' = s ∧ Scattered st.hw t.val s.pid d (scatterIx st.hw t.val s d) y) ∧
  (∀ (st : State) (t : Fin 1152) (s : Slice) (d : List Byte),
    TodReady st.hw t.val s 0x50 d → admits3 d [2] [0] [1] = true → (opnd d 0).rows = (opnd d 2).d1 * (opnd d 2).d2 →
    bit (header d).param 0 = false → ∀ (rows : List (List (Nat × Nat))),
    st.hw.rowPieces s.pid (dmaRows st.hw t.val 0 d) .rd = .ok rows → ∀ (h2 : Hw),
    st.hw.chargeDma t.val s.pid rows.flatten false = .ok h2 →
    Does (.dmaLoad t) st fun h' => TodActs st.hw h' t.val s d fun k =>
        dmaArrive t.val s.pid ((opnd d 2).addrIn (st.hw.tile t.val).seq) (opnd d 2).rowOffs rows { k with stn := h2.stn }) ∧
  (∀ (st : State) (t : Fin 1152) (s : Slice) (d : List Byte),
    TodReady st.hw t.val s 0x51 d → admits3 d [1] [0] [2] = true → (opnd d 2).rows = (opnd d 0).d1 * (opnd d 0).d2 →
    bit (header d).param 0 = false → s.stagedBytes + (opnd d 2).rows * (opnd d 2).rowBytes ≤ s.stageLimit →
    ∀ (rows : List (List (Nat × Nat))), st.hw.rowPieces s.pid (dmaRows st.hw t.val 2 d) .wr = .ok rows →
    Does (.dmaStore t) st fun h' => TodDone st.hw h' t.val d fun s' y => y = st.hw.tile t.val ∧
        s' = { s with staged := s.staged ++ dmaStaged st.hw t.val s d }) ∧
  (∀ (st : State) (t : Fin 1152) (s : Slice) (d : List Byte),
    TodReady st.hw t.val s 0x02 d → admits3 d [0, 1] [0] [0] = true → s.dup = false → bit (header d).param 0 = true →
    CommitPaid st.hw t.val s →
    Does (.commit t) st fun h' => TodActs st.hw h' t.val s d (commits t.val s))

/-- SEND and HALO_SEND put one message with the bytes of A into the mesh and note it for the COMMIT flits; a SEND to
slot 15 of a finisher holds its 64 bytes as a notice of the slice; HALO_RECV copies a halo that has arrived (or
zeros) into the margins; LEVEL_SEND consumes the EXPSCAN results of its ID and sends the level to every tile of its
rectangle. Nothing else changes. BARRIER completes when COUNT tiles have reached it, this one counted; RECV when
the bytes from its tile have arrived on its slot; LEVEL_RECV takes the level that has arrived for its ID into LVL;
SELFTEST of a PID 0 slice runs its section, or all 16, and a section that answers FAIL retires the tile. The
sequencer moves on, and nothing else changes. Each clause about a command concludes that exec answers a next state,
under conditions on the state and the operands alone; the constructors covered: send, haloSend, haloRecv,
levelSend, barrier, recv, levelRecv, todSelftest. -/
def Obligations.TodMessagesAndMeetings : Prop :=
  (∀ (st : State) (t : Fin 1152) (s : Slice) (d : List Byte),
    TodReady st.hw t.val s 0x40 d → admits3 d [1] [0] [4] = true → (opnd d 2).slot ≠ 15 →
    packable (header d).fmtA (opnd d 0).d0 = true → (bytesAt st.hw t.val s d).length ≤ 524288 →
    Does (.send t) st fun h' => TodActs st.hw h' t.val s d (sends st.hw t.val s d 0)) ∧
  (∀ (st : State) (t : Fin 1152) (s : Slice) (d : List Byte),
    TodReady st.hw t.val s 0x40 d → admits3 d [1] [0] [4] = true → (opnd d 2).slot = 15 → ∀ (f : Nat),
    finisherOf (opnd d 2).tile = some f → rowLen (header d).fmtA (opnd d 0).d0 * (opnd d 0).d1 * (opnd d 0).d2 = 64 →
    s.stagedBytes + 64 ≤ s.stageLimit → packable (header d).fmtA (opnd d 0).d0 = true →
    Does (.send t) st fun h' => TodDone st.hw h' t.val d fun s' y => y = st.hw.tile t.val ∧ s' = { s with
        notices := s.notices ++ [BitVec.ofNat 8 (f + 128 * b2n ((bytesAt st.hw t.val s d).any (·.2))) :: (bytesAt st.hw t.val s d).map (·.1)] }) ∧
  (∀ (st : State) (t : Fin 1152) (s : Slice) (d : List Byte),
    TodReady st.hw t.val s 0x42 d → admits3 d [1] [0] [4] = true → ¬ ((opnd d 0).d1 > 8 ∧ (opnd d 0).d2 > 8) →
    isMx (header d).fmtA = false →
    rowLen (header d).fmtA (opnd d 0).d0 * (opnd d 0).d1 * (opnd d 0).d2 = (opnd d 2).bytes →
    packable (header d).fmtA (opnd d 0).d0 = true → (bytesAt st.hw t.val s d).length ≤ 524288 →
    Does (.haloSend t) st fun h' => TodActs st.hw h' t.val s d (sends st.hw t.val s d 1)) ∧
  (∀ (st : State) (t : Fin 1152) (s : Slice) (d : List Byte),
    TodReady st.hw t.val s 0x43 d →
    ((bit (header d).param 0 || (opnd d 0).admits [4]) && (opnd d 1).admits [0] && (opnd d 2).admits [1]) = true →
    ¬ ((opnd d 2).d1 > 8 ∧ (opnd d 2).d2 > 8) → isMx (header d).fmtA = false →
    packable (header d).fmtA (opnd d 2).d0 = true → ∀ (n : Nat), n = rowLen (header d).fmtA (opnd d 2).d0 →
    (bit (header d).param 0 = false → n * (opnd d 2).d1 * (opnd d 2).d2 = (opnd d 0).bytes ∧ (opnd d 0).bytes ≤ (st.hw.tile t.val).haloOn s.pid (opnd d 0).tile (opnd d 0).slot ((st.hw.tile t.val).seq.scalar 15).1) →
    Does (.haloRecv t) st fun h' => TodDone st.hw h' t.val d fun s' y => s' = s ∧ ∃ m, y = { st.hw.tile t.val with sram := m } ∧
        (bit (header d).param 0 = true → SramAfter st.hw t.val s.pid (st.hw.tile t.val).sram ((opnd d 2).rowOffs.map fun r =>
          ((opnd d 2).addrIn (st.hw.tile t.val).seq + r, withStain false (zeros n))) m) ∧
        (bit (header d).param 0 = false → ((st.hw.tile t.val).areasOf s.pid).any (fun a => a.slot == (opnd d 0).slot) = false →
          CopiedRows st.hw t.val s.pid n ((List.range (opnd d 2).rowOffs.length).map fun i =>
          (haloAddr ((opnd d 0).addrIn (st.hw.tile t.val).seq) ((st.hw.tile t.val).seq.scalar 15).1 (opnd d 0).bytes + i * n,
           (opnd d 2).addrIn (st.hw.tile t.val).seq + (opnd d 2).rowOffs.getD i 0)) (st.hw.tile t.val).sram m) ∧
        (bit (header d).param 0 = false → ((st.hw.tile t.val).areasOf s.pid).any (fun a => a.slot == (opnd d 0).slot) = true →
          ∃ ws, (ws.map fun e : Nat × List SByte => (e.1, e.2.length)) = ((List.range (opnd d 2).rowOffs.length).map fun i =>
            ((opnd d 2).addrIn (st.hw.tile t.val).seq + (opnd d 2).rowOffs.getD i 0, n)) ∧ SramAfter st.hw t.val s.pid (st.hw.tile t.val).sram ws m)) ∧
  (∀ (st : State) (t : Fin 1152) (s : Slice) (d : List Byte),
    TodReady st.hw t.val s 0x44 d → admits3 d [0] [0] [4] = true →
    bits (header d).param 4 11 ≤ (expsFor st.hw t.val s d).length →
    Does (.levelSend t) st fun h' => TodActs st.hw h' t.val s d (sendsLevel st.hw t.val s d)) ∧
  (∀ (st : State) (t : Fin 1152) (s : Slice) (d : List Byte),
    TodReady st.hw t.val s 0x03 d → admits3 d [4] [0] [0] = true →
    bits (header d).param 4 11 ≤ (st.hw.reach (barrierKey t.val s d)).reachedBy (barrierKey t.val s d) →
    Does (.barrier t) st fun h' => TodActs st.hw h' t.val s d (fun k => k.reach (barrierKey t.val s d))) ∧
  (∀ (st : State) (t : Fin 1152) (s : Slice) (d : List Byte),
    TodReady st.hw t.val s 0x41 d → admits3 d [4] [0] [0] = true →
    (opnd d 0).bytes ≤ (st.hw.tile t.val).arrivedOn (opnd d 0).tile (opnd d 0).slot →
    Does (.recv t) st fun h' => TodDone st.hw h' t.val d fun s' y => s' = s ∧ y = st.hw.tile t.val) ∧
  (∀ (st : State) (t : Fin 1152) (s : Slice) (d : List Byte),
    TodReady st.hw t.val s 0x45 d → admits3 d [0] [0] [0] = true → ∀ (e : Nat × Nat × Nat),
    ((st.hw.tile t.val).lvlIn.find? fun e => e.1 == bits (header d).param 0 4 && e.2.1 == s.pid) = some e →
    Does (.levelRecv t) st fun h' => TodDone st.hw h' t.val d fun s' y => s' = s ∧ y = { st.hw.tile t.val with
        seq := { (st.hw.tile t.val).seq with lvl := e.2.2 }
        lvlIn := (st.hw.tile t.val).lvlIn.erase e
        lvlKept := (st.hw.tile t.val).lvlKept.put (s.pid * 1024 + s.act) e.2.2
        lvlJobs := if (st.hw.tile t.val).lvlJobs.contains (s.pid, s.seq) then (st.hw.tile t.val).lvlJobs
          else (st.hw.tile t.val).lvlJobs ++ [(s.pid, s.seq)] }) ∧
  (∀ (st : State) (t : Fin 1152) (s : Slice) (d : List Byte),
    TodReady st.hw t.val s 0x07 d → admits3 d [0] [0] [0] = true → s.pid = 0 → ∀ (is : List Nat),
    (is = if bit (header d).param 4 then List.range 16 else [bits (header d).param 0 4]) →
    Does (.todSelftest t) st fun h' => TodActs st.hw h' t.val s d fun k =>
        let k := is.foldl (fun x i => x.runSection t.val i) k
        if is.any fun i => (k.tile t.val).answers i == 2 then k.retireTile t.val 0 none else k)

/-- With the hub on, the address of a source translates in its own context; one at which a doorbell page is mapped is a
doorbell write. A source that is not the owner writes on its own page, and one that acts for the owner on any:
offset 16q sets SQ_TAIL of queue q to the low 32 bits, offset 16q + 8 sets CQ_HEAD and frees the records of the
entries that it passes; an absent queue, another offset and queue 15 of a group partition on a worker take no
write. A write of page 0 also makes the source the owner's source. A write of page 0 by any other source, and one
of another partition's page, changes nothing but the event that it raises. A requester with no context gets
Unsupported Request, a page that fails translation is reported, and an address that is no doorbell, or a write with
the hub off, changes nothing. Each clause about a command concludes that exec answers a next state, under
conditions on the state and the operands alone; the constructor covered: doorbellWrite. -/
def Obligations.DoorbellWrites : Prop :=
  (∀ (s : State) (h : Hw) (src : DoorSrc) (page : BitVec 36) (off : BitVec 12) (v : BitVec 64) (ctx a pg q : Nat),
    s.hw = h →
    h.hubOn = true →
    h.sourceCtx src = some ctx →
    h.mem.translate ctx (page ++ off).toNat .wr false = .ok a →
    h.region a = .doorbell →
    pg = (a - 0x0480_0000_0000) / 4096 →
    pg ≠ 0 →
    ((h.actsAsOwner src).isSome = true ∨ h.sourcePid src = some pg) →
    q < 16 →
    a % 4096 = 16 * q →
    (h.queue pg q).isSome = true →
    (q ≠ 15 ∨ (h.grpPart pg).isSome = false ∨ h.isManager = true) →
    Does (.doorbellWrite src page off v) s fun h' => h' = h.modQueue pg q fun x => { x with sqTail := v.toNat % 2 ^ 32 }) ∧
  (∀ (s : State) (h : Hw) (src : DoorSrc) (page : BitVec 36) (off : BitVec 12) (v : BitVec 64) (ctx a pg q : Nat),
    s.hw = h →
    h.hubOn = true →
    h.sourceCtx src = some ctx →
    h.mem.translate ctx (page ++ off).toNat .wr false = .ok a →
    h.region a = .doorbell →
    pg = (a - 0x0480_0000_0000) / 4096 →
    pg ≠ 0 →
    ((h.actsAsOwner src).isSome = true ∨ h.sourcePid src = some pg) →
    q < 16 →
    a % 4096 = 16 * q + 8 →
    (h.queue pg q).isSome = true →
    (q ≠ 15 ∨ (h.grpPart pg).isSome = false ∨ h.isManager = true) →
    Does (.doorbellWrite src page off v) s fun h' => h' = (h.modQueue pg q fun x => { x with cqHead := v.toNat % 2 ^ 32 }).freeConsumed pg q) ∧
  (∀ (s : State) (h : Hw) (src : DoorSrc) (page : BitVec 36) (off : BitVec 12) (v : BitVec 64) (ctx a pg i q : Nat),
    s.hw = h →
    h.hubOn = true →
    h.sourceCtx src = some ctx →
    h.mem.translate ctx (page ++ off).toNat .wr false = .ok a →
    h.region a = .doorbell →
    pg = (a - 0x0480_0000_0000) / 4096 →
    h.actsAsOwner src = some i →
    pg = 0 →
    q < 16 →
    a % 4096 = 16 * q →
    (h.queue pg q).isSome = true →
    (q ≠ 15 ∨ (h.grpPart pg).isSome = false ∨ h.isManager = true) →
    Does (.doorbellWrite src page off v) s fun h' => h' = { h.modQueue 0 q (fun x => { x with sqTail := v.toNat % 2 ^ 32 }) with sys := { h.sys with ownerSrc := some i } }) ∧
  (∀ (s : State) (h : Hw) (src : DoorSrc) (page : BitVec 36) (off : BitVec 12) (v : BitVec 64) (ctx a pg i q : Nat) (k : Hw),
    s.hw = h →
    h.hubOn = true →
    h.sourceCtx src = some ctx →
    h.mem.translate ctx (page ++ off).toNat .wr false = .ok a →
    h.region a = .doorbell →
    pg = (a - 0x0480_0000_0000) / 4096 →
    h.actsAsOwner src = some i →
    pg = 0 →
    q < 16 →
    a % 4096 = 16 * q + 8 →
    (h.queue pg q).isSome = true →
    (q ≠ 15 ∨ (h.grpPart pg).isSome = false ∨ h.isManager = true) →
    (k = (h.modQueue 0 q fun x => { x with cqHead := v.toNat % 2 ^ 32 }).freeConsumed 0 q) →
    Does (.doorbellWrite src page off v) s fun h' => h' = { k with sys := { h.sys with ownerSrc := some i } }) ∧
  (∀ (s : State) (h : Hw) (src : DoorSrc) (page : BitVec 36) (off : BitVec 12) (v : BitVec 64) (ctx a pg q : Nat),
    s.hw = h →
    h.hubOn = true →
    h.sourceCtx src = some ctx →
    h.mem.translate ctx (page ++ off).toNat .wr false = .ok a →
    h.region a = .doorbell →
    pg = (a - 0x0480_0000_0000) / 4096 →
    pg ≠ 0 →
    ((h.actsAsOwner src).isSome = true ∨ h.sourcePid src = some pg) →
    q = a % 4096 / 16 →
    (16 ≤ q ∨ (h.queue pg q).isNone = true ∨ (q = 15 ∧ (h.grpPart pg).isSome = true ∧ h.isManager = false) ∨ (a % 16 ≠ 0 ∧ a % 16 ≠ 8)) →
    Does (.doorbellWrite src page off v) s fun h' => h' = h) ∧
  (∀ (s : State) (h : Hw) (src : DoorSrc) (page : BitVec 36) (off : BitVec 12) (v : BitVec 64) (ctx a pg : Nat),
    s.hw = h →
    h.hubOn = true →
    h.sourceCtx src = some ctx →
    h.mem.translate ctx (page ++ off).toNat .wr false = .ok a →
    h.region a = .doorbell →
    pg = (a - 0x0480_0000_0000) / 4096 →
    h.actsAsOwner src = none →
    pg = 0 →
    Does (.doorbellWrite src page off v) s fun h' => h' = h.event srcFw 0x0807 0 (h.srcId src)) ∧
  (∀ (s : State) (h : Hw) (src : DoorSrc) (page : BitVec 36) (off : BitVec 12) (v : BitVec 64) (ctx a pg : Nat),
    s.hw = h →
    h.hubOn = true →
    h.sourceCtx src = some ctx →
    h.mem.translate ctx (page ++ off).toNat .wr false = .ok a →
    h.region a = .doorbell →
    pg = (a - 0x0480_0000_0000) / 4096 →
    h.actsAsOwner src = none →
    pg ≠ 0 →
    h.sourcePid src ≠ some pg →
    Does (.doorbellWrite src page off v) s fun h' => h' = h.event srcFw 0x0806 ((h.sourcePid src).getD 0) pg) ∧
  (∀ (s : State) (h : Hw) (src : DoorSrc) (page : BitVec 36) (off : BitVec 12) (v : BitVec 64) (ctx a : Nat),
    s.hw = h →
    h.hubOn = true →
    h.sourceCtx src = some ctx →
    h.mem.translate ctx (page ++ off).toNat .wr false = .ok a →
    h.region a ≠ .doorbell →
    Does (.doorbellWrite src page off v) s fun h' => h' = h) ∧
  (∀ (s : State) (h : Hw) (src : DoorSrc) (page : BitVec 36) (off : BitVec 12) (v : BitVec 64) (ctx e : Nat),
    s.hw = h →
    h.hubOn = true →
    h.sourceCtx src = some ctx →
    h.mem.translate ctx (page ++ off).toNat .wr false = .error e →
    Does (.doorbellWrite src page off v) s fun h' => h' = h.sourceFault src ctx (page ++ off).toNat e) ∧
  (∀ (s : State) (h : Hw) (port : Fin 2) (rid : BitVec 16) (page : BitVec 36) (off : BitVec 12) (v : BitVec 64),
    s.hw = h →
    h.hubOn = true →
    h.sourceCtx (.pcie port rid) = none →
    Does (.doorbellWrite (.pcie port rid) page off v) s fun h' => h' = (h.addSat (F.PCIE_ERR_UR.port port.val) 1).put (F.PCIE_INT_STATUS_UR.port port.val) 1) ∧
  (∀ (s : State) (h : Hw) (hart : Fin 32) (page : BitVec 36) (off : BitVec 12) (v : BitVec 64),
    s.hw = h →
    h.hubOn = true →
    h.sourceCtx (.core hart) = none →
    Does (.doorbellWrite (.core hart) page off v) s fun h' => h' = h) ∧
  (∀ (s : State) (h : Hw) (src : DoorSrc) (page : BitVec 36) (off : BitVec 12) (v : BitVec 64),
    s.hw = h →
    h.hubOn = false →
    Does (.doorbellWrite src page off v) s fun h' => h' = h)

/-- When the sequencer and the processor run and the conditions of R201 hold, FETCH_GRANT reads the chunks of the next
command of the queue through its context and enters it as fetched, with the slots that its EXT names, against the
command-processor budget of the partition. A chunk 0 whose page fails is entered with one slot and that fault, a
later one with its slots; a chunk 0 stained where its EXT lies is entered with one slot as stained, any other stain
with its slots. A condition that does not hold shows its state in the mirror, and a budget that is reached is
counted; a queue with nothing more submitted becomes idle; a processor that does not run fetches nothing. The
oldest fetched command of a queue that the sequencer serves, whole and unstained: when the checks of its opcode
allow it and no contradictory order wins, it is taken from its ring with the next sequence number of its partition,
with what its acceptance does; when a check fails, its REFUSED record holds the status, result and detail of the
first check that fails, and its DONE record nothing else; when a contradictory order wins it completes superseded,
naming the port. A group submission is held until its record is durable, and holds up what is behind it. A stained
one is taken and completes FAIL_STAINED, and one whose page failed completes with that fault. Nothing is accepted
from a queue with nothing fetched or that the sequencer does not serve. Each clause about a command concludes that
exec answers a next state, under conditions on the state and the operands alone; the constructors covered:
fetchGrant, commandAccept. -/
def Obligations.CommandFetchAndAcceptance : Prop :=
  (∀ (s : State) (h : Hw) (pid : Fin 256) (queue : Fin 16) (cp : Fin 4) (qu : Queue) (n : Nat) (bs cs : List Byte) (late st : Bool) (k k2 : Hw),
    s.hw = h →
    h.sequencing = true →
    h.hubOn = true →
    h.cpRuns cp.val = true →
    ((h.part pid.val).map (·.destroying)).getD false = false →
    h.queue pid.val queue.val = some qu →
    qu.submitted ≠ 0 →
    h.fetchWait pid.val queue.val qu 1 = none →
    h.readFirst pid.val qu qu.fetchPoint = (.ok (bs, false, late), k) →
    n = slotsOf bs →
    n ≤ qu.submitted →
    k.fetchWait pid.val queue.val qu n = none →
    k.readChunks pid.val qu (n - 1) (qu.fetchPoint + 1) = (.ok (cs, st), k2) →
    k2.fetchWait pid.val queue.val qu n = none →
    Does (.fetchGrant pid queue cp) s fun h' => h' = k2.enterFetched
      { pid := pid.val, queue := queue.val, cp := cp.val, slot := qu.fetchPoint % 2 ^ qu.desc.log2Size, slots := n,
        pkt := bs ++ cs, stained := late || st, extStained := false, fault := none, grantAt := h.now }) ∧
  (∀ (s : State) (h : Hw) (pid : Fin 256) (queue : Fin 16) (cp : Fin 4) (qu : Queue) (n : Nat) (bs : List Byte) (late : Bool) (e : Nat × Nat) (k k2 : Hw),
    s.hw = h →
    h.sequencing = true →
    h.hubOn = true →
    h.cpRuns cp.val = true →
    ((h.part pid.val).map (·.destroying)).getD false = false →
    h.queue pid.val queue.val = some qu →
    qu.submitted ≠ 0 →
    h.fetchWait pid.val queue.val qu 1 = none →
    h.readFirst pid.val qu qu.fetchPoint = (.ok (bs, false, late), k) →
    n = slotsOf bs →
    n ≤ qu.submitted →
    k.fetchWait pid.val queue.val qu n = none →
    k.readChunks pid.val qu (n - 1) (qu.fetchPoint + 1) = (.error e, k2) →
    k2.fetchWait pid.val queue.val qu n = none →
    Does (.fetchGrant pid queue cp) s fun h' => h' = k2.enterFetched
      { pid := pid.val, queue := queue.val, cp := cp.val, slot := qu.fetchPoint % 2 ^ qu.desc.log2Size, slots := n,
        pkt := bs ++ zeros (64 * (n - 1)), stained := false, extStained := false, fault := some (pageStatus e), grantAt := h.now }) ∧
  (∀ (s : State) (h : Hw) (pid : Fin 256) (queue : Fin 16) (cp : Fin 4) (qu : Queue) (bs : List Byte) (late : Bool) (k : Hw),
    s.hw = h →
    h.sequencing = true →
    h.hubOn = true →
    h.cpRuns cp.val = true →
    ((h.part pid.val).map (·.destroying)).getD false = false →
    h.queue pid.val queue.val = some qu →
    qu.submitted ≠ 0 →
    h.fetchWait pid.val queue.val qu 1 = none →
    h.readFirst pid.val qu qu.fetchPoint = (.ok (bs, true, late), k) →
    k.fetchWait pid.val queue.val qu 1 = none →
    Does (.fetchGrant pid queue cp) s fun h' => h' = k.enterFetched
      { pid := pid.val, queue := queue.val, cp := cp.val, slot := qu.fetchPoint % 2 ^ qu.desc.log2Size, slots := 1,
        pkt := bs, stained := true, extStained := true, fault := none, grantAt := h.now }) ∧
  (∀ (s : State) (h : Hw) (pid : Fin 256) (queue : Fin 16) (cp : Fin 4) (qu : Queue) (e : Nat × Nat) (k : Hw),
    s.hw = h →
    h.sequencing = true →
    h.hubOn = true →
    h.cpRuns cp.val = true →
    ((h.part pid.val).map (·.destroying)).getD false = false →
    h.queue pid.val queue.val = some qu →
    qu.submitted ≠ 0 →
    h.fetchWait pid.val queue.val qu 1 = none →
    h.readFirst pid.val qu qu.fetchPoint = (.error e, k) →
    k.fetchWait pid.val queue.val qu 1 = none →
    Does (.fetchGrant pid queue cp) s fun h' => h' = k.enterFetched
      { pid := pid.val, queue := queue.val, cp := cp.val, slot := qu.fetchPoint % 2 ^ qu.desc.log2Size, slots := 1,
        pkt := zeros 64, stained := false, extStained := false, fault := some (pageStatus e), grantAt := h.now }) ∧
  (∀ (s : State) (h : Hw) (pid : Fin 256) (queue : Fin 16) (cp : Fin 4) (qu : Queue) (w : Nat),
    s.hw = h →
    h.sequencing = true →
    h.hubOn = true →
    h.cpRuns cp.val = true →
    ((h.part pid.val).map (·.destroying)).getD false = false →
    h.queue pid.val queue.val = some qu →
    qu.submitted ≠ 0 →
    h.fetchWait pid.val queue.val qu 1 = some w →
    Does (.fetchGrant pid queue cp) s fun h' => h' = (if w = mirBudget then h.noteExhausted pid.val 2 else h).setMirror pid.val queue.val w) ∧
  (∀ (s : State) (h : Hw) (pid : Fin 256) (queue : Fin 16) (cp : Fin 4) (qu : Queue) (w : Nat) (bs : List Byte) (late : Bool) (k : Hw),
    s.hw = h →
    h.sequencing = true →
    h.hubOn = true →
    h.cpRuns cp.val = true →
    ((h.part pid.val).map (·.destroying)).getD false = false →
    h.queue pid.val queue.val = some qu →
    qu.submitted ≠ 0 →
    h.fetchWait pid.val queue.val qu 1 = none →
    h.readFirst pid.val qu qu.fetchPoint = (.ok (bs, false, late), k) →
    slotsOf bs ≤ qu.submitted →
    k.fetchWait pid.val queue.val qu (slotsOf bs) = some w →
    Does (.fetchGrant pid queue cp) s fun h' => h' = (if w = mirBudget then k.noteExhausted pid.val 2 else k).setMirror pid.val queue.val w) ∧
  (∀ (s : State) (h : Hw) (pid : Fin 256) (queue : Fin 16) (cp : Fin 4) (qu : Queue) (bs : List Byte) (late : Bool) (k : Hw),
    s.hw = h →
    h.sequencing = true →
    h.hubOn = true →
    h.cpRuns cp.val = true →
    ((h.part pid.val).map (·.destroying)).getD false = false →
    h.queue pid.val queue.val = some qu →
    qu.submitted ≠ 0 →
    h.fetchWait pid.val queue.val qu 1 = none →
    h.readFirst pid.val qu qu.fetchPoint = (.ok (bs, false, late), k) →
    qu.submitted < slotsOf bs →
    Does (.fetchGrant pid queue cp) s fun h' => h' = k.setMirror pid.val queue.val mirIdle) ∧
  (∀ (s : State) (h : Hw) (pid : Fin 256) (queue : Fin 16) (cp : Fin 4) (qu : Queue),
    s.hw = h →
    h.sequencing = true →
    h.hubOn = true →
    h.cpRuns cp.val = true →
    ((h.part pid.val).map (·.destroying)).getD false = false →
    h.queue pid.val queue.val = some qu →
    qu.submitted = 0 →
    Does (.fetchGrant pid queue cp) s fun h' => h' = h.setMirror pid.val queue.val mirIdle) ∧
  (∀ (s : State) (h : Hw) (pid : Fin 256) (queue : Fin 16) (cp : Fin 4),
    s.hw = h →
    (h.queue pid.val queue.val = none ∨ h.sequencing = false ∨ h.cpRuns cp.val = false ∨ (h.part pid.val).any (·.destroying) = true) →
    Does (.fetchGrant pid queue cp) s fun h' => h' = h) ∧
  (∀ (s : State) (h : Hw) (pid : Fin 256) (queue : Fin 16) (rival : Option Rival) (f : Fetched) (qu : Queue) (q : QRef) (g : Hw) (sp : OpSpec) (c : Cmd),
    s.hw = h →
    h.oldestFetched pid.val queue.val = some f →
    h.queue pid.val queue.val = some qu →
    q = { pid := pid, queue := queue, cp := ⟨f.cp % 4, Nat.mod_lt _ (by decide)⟩, rival := rival } →
    h.presents q = true →
    h.isHeld q = false →
    f.fault = none →
    f.stained = false →
    (¬(field f.pkt 0 1 = 0x40 ∧ h.groupSubmit q qu f.pkt = true)) →
    g = h.unfetch f →
    sp = specOf (field f.pkt 0 1) →
    sp.check g (mkCmd g q qu f.pkt 0) = none →
    c = acceptedCmd g q qu f.pkt →
    superseded c.opc c.port rival = none →
    Does (.commandAccept pid queue rival) s fun h' => h' = sp.onAccept (g.take c (slotsOf f.pkt)) c) ∧
  (∀ (s : State) (h : Hw) (pid : Fin 256) (queue : Fin 16) (rival : Option Rival) (f : Fetched) (qu : Queue) (q : QRef) (g : Hw) (sp : OpSpec) (c : Cmd) (x y z : Nat),
    s.hw = h →
    h.oldestFetched pid.val queue.val = some f →
    h.queue pid.val queue.val = some qu →
    q = { pid := pid, queue := queue, cp := ⟨f.cp % 4, Nat.mod_lt _ (by decide)⟩, rival := rival } →
    h.presents q = true →
    h.isHeld q = false →
    f.fault = none →
    f.stained = false →
    (¬(field f.pkt 0 1 = 0x40 ∧ h.groupSubmit q qu f.pkt = true)) →
    g = h.unfetch f →
    sp = specOf (field f.pkt 0 1) →
    sp.check g (mkCmd g q qu f.pkt 0) = some (x, y, z) →
    c = { mkCmd g q qu f.pkt 0 with begun := true, finishAt := g.now, entry := some ((mkCmd g q qu f.pkt 0).mkEntry g.now x y z {}) } →
    Does (.commandAccept pid queue rival) s fun h' => h' = sp.onRefuse ((g.take c (slotsOf f.pkt)).countStarted c.pid c.queue) c) ∧
  (∀ (s : State) (h : Hw) (pid : Fin 256) (queue : Fin 16) (rival : Option Rival) (f : Fetched) (qu : Queue) (q : QRef) (g : Hw) (sp : OpSpec) (c : Cmd) (p : Nat),
    s.hw = h →
    h.oldestFetched pid.val queue.val = some f →
    h.queue pid.val queue.val = some qu →
    q = { pid := pid, queue := queue, cp := ⟨f.cp % 4, Nat.mod_lt _ (by decide)⟩, rival := rival } →
    h.presents q = true →
    h.isHeld q = false →
    f.fault = none →
    f.stained = false →
    (¬(field f.pkt 0 1 = 0x40 ∧ h.groupSubmit q qu f.pkt = true)) →
    g = h.unfetch f →
    sp = specOf (field f.pkt 0 1) →
    sp.check g (mkCmd g q qu f.pkt 0) = none →
    c = acceptedCmd g q qu f.pkt →
    superseded c.opc c.port rival = some p →
    Does (.commandAccept pid queue rival) s fun h' => h' = ((g.take c (slotsOf f.pkt)).begin c).finish c 0x4002 0 p) ∧
  (∀ (s : State) (h : Hw) (pid : Fin 256) (queue : Fin 16) (rival : Option Rival) (f : Fetched) (qu : Queue) (q : QRef),
    s.hw = h →
    h.oldestFetched pid.val queue.val = some f →
    h.queue pid.val queue.val = some qu →
    q = { pid := pid, queue := queue, cp := ⟨f.cp % 4, Nat.mod_lt _ (by decide)⟩, rival := rival } →
    h.presents q = true →
    h.isHeld q = false →
    f.fault = none →
    f.stained = false →
    field f.pkt 0 1 = 0x40 →
    h.groupSubmit q qu f.pkt = true →
    Does (.commandAccept pid queue rival) s fun h' => h' = h.holdSubmit q f.pkt) ∧
  (∀ (s : State) (h : Hw) (pid : Fin 256) (queue : Fin 16) (rival : Option Rival) (f : Fetched) (qu : Queue) (q : QRef),
    s.hw = h →
    h.oldestFetched pid.val queue.val = some f →
    h.queue pid.val queue.val = some qu →
    q = { pid := pid, queue := queue, cp := ⟨f.cp % 4, Nat.mod_lt _ (by decide)⟩, rival := rival } →
    h.presents q = true →
    h.isHeld q = false →
    f.fault = none →
    f.stained = true →
    Does (.commandAccept pid queue rival) s fun h' => h' = h.acceptSpoilt q qu f 0x3001 0xFFFF_FFFF) ∧
  (∀ (s : State) (h : Hw) (pid : Fin 256) (queue : Fin 16) (rival : Option Rival) (f : Fetched) (qu : Queue) (q : QRef) (st d : Nat),
    s.hw = h →
    h.oldestFetched pid.val queue.val = some f →
    h.queue pid.val queue.val = some qu →
    q = { pid := pid, queue := queue, cp := ⟨f.cp % 4, Nat.mod_lt _ (by decide)⟩, rival := rival } →
    h.presents q = true →
    h.isHeld q = false →
    f.fault = some (st, d) →
    Does (.commandAccept pid queue rival) s fun h' => h' = h.acceptSpoilt q qu f st d) ∧
  (∀ (s : State) (h : Hw) (pid : Fin 256) (queue : Fin 16) (rival : Option Rival) (f : Fetched) (qu : Queue) (q : QRef),
    s.hw = h →
    h.oldestFetched pid.val queue.val = some f →
    h.queue pid.val queue.val = some qu →
    q = { pid := pid, queue := queue, cp := ⟨f.cp % 4, Nat.mod_lt _ (by decide)⟩, rival := rival } →
    (h.presents q = false ∨ h.isHeld q = true) →
    Does (.commandAccept pid queue rival) s fun h' => h' = h) ∧
  (∀ (s : State) (h : Hw) (pid : Fin 256) (queue : Fin 16) (rival : Option Rival),
    s.hw = h →
    (h.oldestFetched pid.val queue.val = none ∨ h.queue pid.val queue.val = none) →
    Does (.commandAccept pid queue rival) s fun h' => h' = h)

/-- When the sequencer runs, no QUIET window runs and the next command of the queue to be posted is complete,
COMPLETION_POST adds DONE_ADD to the object of SOB_ON_DONE, advances nPosted, marks the command posted, keeps its
sequence number in the pairs of the Datums when it has one, writes the completion entry at its slot of the ring and
the mirror, and raises the vector of the queue when NOTIFY is 1; when the next command is not complete, or none is
left to post, or the sequencer does not run, nothing changes. With the hub on and the processor running: a lockstep
mismatch (unless the comparators are off) stops it with cause 0 and is detected as code 0x02, an uncorrectable
error in its memories with cause 1 and code 0x03, its watchdog with cause 2; an error in the journal engine's
memories or the system-cache tags only is detected. A running processor takes over the queues of one that stopped
and was not taken over: the recovery counters start at 0, what the stopped one had fetched is dropped, its Step and
Rerun commands that had not completed run again, TAKEOVER and, with the owner queue, OWNER_Q are handed on, the
queues are recovered, and the event is raised. Nothing else happens on a processor that does not run. Each clause
about a command concludes that exec answers a next state, under conditions on the state and the operands alone; the
constructors covered: completionPost, cpLockstepMismatch, cpWatchdog, cpTakeover. -/
def Obligations.CompletionsAndProcessorFaults : Prop :=
  (∀ (s : State) (h : Hw) (pid : Fin 256) (queue : Fin 16) (c : Cmd) (e : Entry) (a b d : Hw),
    s.hw = h →
    h.sequencing = true →
    h.quiet = false →
    h.toPost pid.val queue.val = some c →
    c.entry = some e →
    (a = ((h.sobOnDone c e.status).modQueue pid.val queue.val fun x => { x with nPosted := (x.nPosted + 1) % 2 ^ 32 }).modCmd
      pid.val queue.val c.num fun x => { x with posted := true }) →
    (b = if c.seq = 0 then a else a.setMram pid.val queue.val fun m => { m with post := c.seq }) →
    d = (b.writeEntry c e).writeMirror pid.val queue.val →
    Does (.completionPost pid queue) s fun h' => h' = if c.notify = true then d.raiseVector pid.val (((d.queue pid.val queue.val).map (·.desc.vector)).getD 0) else d) ∧
  (∀ (s : State) (h : Hw) (pid : Fin 256) (queue : Fin 16) (c : Cmd),
    s.hw = h →
    h.sequencing = true →
    h.quiet = false →
    h.toPost pid.val queue.val = some c →
    c.entry = none →
    Does (.completionPost pid queue) s fun h' => h' = h) ∧
  (∀ (s : State) (h : Hw) (pid : Fin 256) (queue : Fin 16),
    s.hw = h →
    (h.sequencing = false ∨ h.quiet = true ∨ h.toPost pid.val queue.val = none) →
    Does (.completionPost pid queue) s fun h' => h' = h) ∧
  (∀ (s : State) (h : Hw) (cp : Fin 4) (kind : Fin 3),
    s.hw = h →
    h.hubOn = true →
    kind.val = 0 →
    h.cpRuns cp.val = true →
    h.comparatorsOff = false →
    Does (.cpLockstepMismatch cp kind) s fun h' => h' = (h.stopCp cp.val 0).detect 0x02 none 0) ∧
  (∀ (s : State) (h : Hw) (cp : Fin 4) (kind : Fin 3),
    s.hw = h →
    h.hubOn = true →
    kind.val = 1 →
    h.cpRuns cp.val = true →
    Does (.cpLockstepMismatch cp kind) s fun h' => h' = (h.stopCp cp.val 1).detect 0x03 none 0) ∧
  (∀ (s : State) (h : Hw) (cp : Fin 4) (kind : Fin 3),
    s.hw = h →
    h.hubOn = true →
    kind.val = 2 →
    Does (.cpLockstepMismatch cp kind) s fun h' => h' = h.detect 0x03 none 0) ∧
  (∀ (s : State) (h : Hw) (cp : Fin 4) (kind : Fin 3),
    s.hw = h →
    (h.hubOn = false ∨ (kind.val ≠ 2 ∧ h.cpRuns cp.val = false) ∨ (kind.val = 0 ∧ h.comparatorsOff = true)) →
    Does (.cpLockstepMismatch cp kind) s fun h' => h' = h) ∧
  (∀ (s : State) (h : Hw) (cp : Fin 4),
    s.hw = h →
    (h.hubOn = false ∨ h.cpRuns cp.val = false) →
    Does (.cpWatchdog cp) s fun h' => h' = h) ∧
  (∀ (s : State) (h : Hw) (cp : Fin 4),
    s.hw = h →
    h.hubOn = true →
    h.cpRuns cp.val = true →
    Does (.cpWatchdog cp) s fun h' => h' = h.stopCp cp.val 2) ∧
  (∀ (s : State) (h : Hw) (cp by_ : Fin 4) (a b : Hw),
    s.hw = h →
    h.hubOn = true →
    h.sequencing = true →
    h.get (F.CP_STATUS_STATE.blk cp.val) = 1 →
    h.cpRuns by_.val = true →
    h.on (F.CP_INT_STATUS_TAKEOVER.blk cp.val) = false →
    (a = ((((h.put F.JNL_RECOVERY_RERUN 0).put F.JNL_RECOVERY_REPOSTED 0).put F.JNL_RECOVERY_ABORTED 0).dropFetched
      fun f => f.cp == cp.val).put (F.CP_INT_STATUS_TAKEOVER.blk cp.val) 1) →
    (b = a.rerun fun c => c.port == 3 + cp.val || (c.port == 2 && a.on (F.CP_STATUS_OWNER_Q.blk cp.val))) →
    Does (.cpTakeover cp by_) s fun h' => h' = (if b.on (F.CP_STATUS_OWNER_Q.blk cp.val) = true then
      (b.put (F.CP_STATUS_OWNER_Q.blk cp.val) 0).put (F.CP_STATUS_OWNER_Q.blk by_.val) 1 else b).recoverQueues.event
        (srcCp cp.val) 0x090A 0 by_.val) ∧
  (∀ (s : State) (h : Hw) (cp by_ : Fin 4),
    s.hw = h →
    (h.hubOn = false ∨ h.sequencing = false ∨ h.get (F.CP_STATUS_STATE.blk cp.val) ≠ 1 ∨ h.cpRuns by_.val = false ∨ h.on (F.CP_INT_STATUS_TAKEOVER.blk cp.val) = true) →
    Does (.cpTakeover cp by_) s fun h' => h' = h)

/-- At a coat boundary whose actions are still due, with the sequencer running: a pending swap that is due makes its
stencil active and completes its command with the number of the coat that begins; the budget changes accepted
before the boundary are applied in order and complete; every trigger takes its adjustment; every admitted tile
leaves the retirement masks, becomes ACTIVE and its command completes; COAT_BOUNDARY counts the coat that ends,
takes a due time step and then these actions in this order, ends a bridge, fills vacant positions, reloads the coat
counters, advances COATS, shows the stencil, and marks the boundary done. At a stroke that is no boundary, or whose
actions have been taken, these rows change nothing. Each clause about a command concludes that exec answers a next
state, under conditions on the state and the operands alone; the constructors covered: stencilSwapEffect,
budgetSetEffect, triggerAdjustEffect, tileAdmission, coatBoundary. -/
def Obligations.CoatBoundaryActions : Prop :=
  (∀ (s : State) (h : Hw) (new : Stencil),
    s.hw = h →
    h.sequencing = true →
    h.dueSwap = some new →
    h.stn.swapCmd = none →
    Does (.stencilSwapEffect) s fun h' => h' = h.swapNow new) ∧
  (∀ (s : State) (h : Hw) (new : Stencil) (p q n : Nat),
    s.hw = h →
    h.sequencing = true →
    h.dueSwap = some new →
    h.stn.swapCmd = some (p, q, n) →
    Does (.stencilSwapEffect) s fun h' => h' = (h.swapNow new).finishAt p q n 0 (((h.swapNow new).get F.STN_COAT_COUNT_COATS + 1) % 2 ^ 64) 0 {}) ∧
  (∀ (s : State) (h : Hw),
    s.hw = h →
    h.sequencing = true →
    h.dueSwap = none →
    Does (.stencilSwapEffect) s fun h' => h' = h) ∧
  (∀ (s : State) (h : Hw) (bs : List BudgetChange) (a : Hw),
    s.hw = h →
    h.sequencing = true →
    h.boundaryDue = true →
    (bs = h.stn.budgets.filter fun b => decide (h.acceptedAt b.pid b.queue b.num < h.now)) →
    bs ≠ [] →
    (a = { h with stn := { h.stn with active := bs.foldl Stencil.applyBudget h.stn.active, budgets := h.stn.budgets.filter fun b => ! decide (h.acceptedAt b.pid b.queue b.num < h.now) } }) →
    Does (.budgetSetEffect) s fun h' => h' = bs.foldl (fun x b => x.finishAt b.pid b.queue b.num 0 0 0 {}) (a.refillAfter h)) ∧
  (∀ (s : State) (h : Hw),
    s.hw = h →
    h.sequencing = true →
    h.boundaryDue = true →
    ((h.stn.budgets.filter fun b => decide (h.acceptedAt b.pid b.queue b.num < h.now)) = []) →
    Does (.budgetSetEffect) s fun h' => h' = h) ∧
  (∀ (s : State) (h : Hw),
    s.hw = h →
    h.sequencing = true →
    h.boundaryDue = true →
    Does (.triggerAdjustEffect) s fun h' => h' = { h with stn := { h.stn with active := { h.stn.active with
      trigs := h.stn.active.trigs.map fun t => { t with cur := t.next.getD t.cur, next := none } } } }) ∧
  (∀ (s : State) (h : Hw),
    s.hw = h →
    h.sequencing = true →
    h.boundaryDue = true →
    h.fab.admitted = [] →
    Does (.tileAdmission) s fun h' => h' = h) ∧
  (∀ (s : State) (h : Hw) (t p q n : Nat) (a : Hw),
    s.hw = h →
    h.sequencing = true →
    h.boundaryDue = true →
    h.fab.admitted = [(t, p, q, n)] →
    a = { h with fab := { h.fab with admitted := [], retired := NSet.rem h.fab.retired t, mramRetired := NSet.rem h.fab.mramRetired t } } →
    Does (.tileAdmission) s fun h' => h' = ((a.put (F.TILE_STATE_STATE.blk t) 1).event (srcTile t) 0x0207 0 0).finishAt p q n 0 0 0 {}) ∧
  (∀ (s : State) (h : Hw),
    s.hw = h →
    h.sequencing = true →
    h.boundaryDue = true →
    Does (.tileAdmission) s fun h' => h' = h.fab.admitted.foldl (fun x a =>
      (((({ x with fab := { x.fab with retired := NSet.rem x.fab.retired a.1, mramRetired := NSet.rem x.fab.mramRetired a.1 } } : Hw).put
        (F.TILE_STATE_STATE.blk a.1) 1).event (srcTile a.1) 0x0207 0 0).finishAt a.2.1 a.2.2.1 a.2.2.2 0 0 0 {}))
      { h with fab := { h.fab with admitted := [] } }) ∧
  (∀ (s : State) (h : Hw) (a b : Hw),
    s.hw = h →
    h.sequencing = true →
    h.boundaryDue = true →
    a = ((((h.countCoat.timeStep).swapStep.budgetStep).adjustStep).admitStep).endBridge.fillVacancies →
    b = ((a.reloadCoat.addWrap F.STN_COAT_COUNT_COATS 1).showStencil).trvCoat.revokeShareless →
    Does (.coatBoundary) s fun h' => h' = { b with stn := { b.stn with coatDone := some b.now } }) ∧
  (∀ (s : State) (h : Hw),
    s.hw = h →
    (h.sequencing && h.boundaryDue) = false →
    Does (.coatBoundary) s fun h' => h' = h) ∧
  (∀ (s : State) (h : Hw),
    s.hw = h →
    h.sequencing = false →
    Does (.stencilSwapEffect) s fun h' => h' = h) ∧
  (∀ (s : State) (h : Hw),
    s.hw = h →
    h.sequencing = false →
    Does (.budgetSetEffect) s fun h' => h' = h) ∧
  (∀ (s : State) (h : Hw),
    s.hw = h →
    h.sequencing = false →
    Does (.triggerAdjustEffect) s fun h' => h' = h) ∧
  (∀ (s : State) (h : Hw),
    s.hw = h →
    h.sequencing = false →
    Does (.tileAdmission) s fun h' => h' = h) ∧
  (∀ (s : State) (h : Hw),
    s.hw = h →
    h.boundaryDue = false →
    Does (.budgetSetEffect) s fun h' => h' = h) ∧
  (∀ (s : State) (h : Hw),
    s.hw = h →
    h.boundaryDue = false →
    Does (.triggerAdjustEffect) s fun h' => h' = h) ∧
  (∀ (s : State) (h : Hw),
    s.hw = h →
    h.boundaryDue = false →
    Does (.tileAdmission) s fun h' => h' = h)

/-- Where stroke pulses come, a pulse settles the work of the stroke that ends and credits the installations while the
fabric runs, advances STROKE_COUNT by one modulo 2^64, forgets the vectors raised and the old routes of the old
stroke, and opens the new stroke while the fabric runs; then the memory of a freeze, the refusals of a lost hub and
the summary for the owner follow. Where no pulses come (OFF, FROZEN, from the freeze point on, without the
reference, after a loss sequence) nothing changes but, without the reference and after a loss sequence, each
Datum's own copy of module time. Each clause about a command concludes that exec answers a next state, under
conditions on the state and the operands alone; the constructor covered: strokePulse. -/
def Obligations.StrokePulses : Prop :=
  (∀ (s : State) (h : Hw) (a b d : Hw),
    s.hw = h →
    h.pulses = true →
    (a = if h.fabricOn = true then h.settleStroke.dfinStroke.creditInstalls h else h) →
    b = a.tick →
    (d = if b.fabricOn = true then b.openStroke else b) →
    Does (.strokePulse) s fun h' => h' = (d.freezeMemory.refuseLate).ownerSummary) ∧
  (∀ (s : State) (h : Hw),
    s.hw = h →
    h.pulses = false →
    h.datumsAlone = false →
    Does (.strokePulse) s fun h' => h' = h) ∧
  (∀ (s : State) (h : Hw),
    s.hw = h →
    h.pulses = false →
    h.datumsAlone = true →
    Does (.strokePulse) s fun h' => h' = h.tickDatums) ∧
  (∀ h : Hw, h.tick.now = (h.now + 1) % 2 ^ 64 ∧ h.tick.vec = { h.vec with raised := [], oldRoutes := [] } ∧
    ∀ f : Fld, regKey f.block f.off ≠ regKey 0x002 0 → h.tick.get f = h.get f)

/-- INPUT_RANGE shows the voltage and whether the input lies in its operating range (J1 36 to 54 V, J2 9 to 16 V); only
when the input was in range and has left it are the interrupt bit and the event of INPUT_RANGE raised. A rail fault
in a domain that is on shows RAIL and the rail, raises the event and reacts; in FROZEN it only shows them, and in a
domain that is off, or that the loss sequence is switching off, nothing changes. MAIN_POWER_LOSS, J1_OVERVOLTAGE
(each after its voltage is measured) and RETURN_CURRENT_STOP, in a module that has not lost its power, is not in
OFF or FROZEN (and whose freeze of this stroke is not performed): the stroke of the loss is noted with stage 0, the
hub's reason is MAIN_POWER, PD_CAMPWR and the camera switches go off, the event is raised and the fault detected. A
loss already noted changes nothing more; in FROZEN every domain goes off and the mode is OFF. The next stage of the
loss sequence that is due is taken once. AUX12_LOSS measures J2, and with a Datum's supply on it takes the domains
of the Datums down with both Datums, gives the hub the reason AUX12 unless it has MAIN_POWER, and drops what was
detected. Each clause about a command concludes that exec answers a next state, under conditions on the state and
the operands alone; the constructors covered: inputRange, railFault, mainPowerLoss, j1Overvoltage,
returnCurrentStop, lossSequenceStage, aux12Loss. -/
def Obligations.PowerInputsAndLoss : Prop :=
  (∀ (s : State) (h : Hw) (j2 : Bool) (mv : BitVec 17) (f g : Fld),
    s.hw = h →
    (f = if j2 then F.PWR_STATUS_J2_OK else F.PWR_STATUS_J1_OK) →
    (g = if j2 then F.PWR_INPUT_J2_MV else F.PWR_INPUT_J1_MV) →
    (h.on f && ! inputOk j2 mv.toNat) = false →
    Does (.inputRange j2 mv) s fun h' => h' = (h.put f (b2n (inputOk j2 mv.toNat))).put g mv.toNat) ∧
  (∀ (s : State) (h : Hw) (j2 : Bool) (mv : BitVec 17) (f g : Fld),
    s.hw = h →
    (f = if j2 then F.PWR_STATUS_J2_OK else F.PWR_STATUS_J1_OK) →
    (g = if j2 then F.PWR_INPUT_J2_MV else F.PWR_INPUT_J1_MV) →
    h.on f = true →
    inputOk j2 mv.toNat = false →
    Does (.inputRange j2 mv) s fun h' => h' = (((h.put f 0).put g mv.toNat).put F.PWR_INT_STATUS_INPUT_RANGE 1).event srcPower 0x0602 0 (b2n j2 + mv.toNat * 256)) ∧
  (∀ (s : State) (h : Hw) (k : Fin 48) (a : Hw),
    s.hw = h →
    h.domainOn k.val = true →
    (h.sys.lost.isSome && j1Domains.contains k.val) = false →
    h.on F.DBG_STATUS_FROZEN = false →
    a = (h.put (F.PWR_RAIL_FAULT_FAULT.bit k.val) 1).put F.PWR_INT_STATUS_RAIL 1 →
    Does (.railFault k) s fun h' => h' = (a.event srcPower 0x0606 0 k.val).railReaction k.val) ∧
  (∀ (s : State) (h : Hw) (k : Fin 48) (a : Hw),
    s.hw = h →
    h.domainOn k.val = true →
    (h.sys.lost.isSome && j1Domains.contains k.val) = false →
    h.on F.DBG_STATUS_FROZEN = true →
    a = (h.put (F.PWR_RAIL_FAULT_FAULT.bit k.val) 1).put F.PWR_INT_STATUS_RAIL 1 →
    Does (.railFault k) s fun h' => h' = a) ∧
  (∀ (s : State) (h : Hw) (k : Fin 48),
    s.hw = h →
    (h.domainOn k.val = false ∨ (h.sys.lost.isSome = true ∧ j1Domains.contains k.val = true)) →
    Does (.railFault k) s fun h' => h' = h) ∧
  (∀ (s : State) (h : Hw) (mv : BitVec 17) (a u : Hw),
    s.hw = h →
    a = (h.setInput false mv.toNat).2 →
    a.sys.lost = none →
    a.mode ≠ 0 →
    a.on F.DBG_STATUS_FROZEN = false →
    (u = if a.sys.frozenAt = some a.now then { a with seqStopped := false, sys := { a.sys with frozenAt := none } } else a) →
    Does (.mainPowerLoss mv) s fun h' => h' = ((({ u with sys := { u.sys with lost := some u.now, lossStage := 0 }, trv := { u.trv with hubReason := some (0x0A, u.now) } } : Hw).switch
      46 false).followCams.event srcPower 0x0601 0 0).detect 0x0A none 0) ∧
  (∀ (s : State) (h : Hw) (mv : BitVec 17) (a u : Hw),
    s.hw = h →
    a = (h.setInput false mv.toNat).2 →
    a.sys.lost = none →
    a.mode ≠ 0 →
    a.on F.DBG_STATUS_FROZEN = false →
    (u = if a.sys.frozenAt = some a.now then { a with seqStopped := false, sys := { a.sys with frozenAt := none } } else a) →
    Does (.j1Overvoltage mv) s fun h' => h' = ((({ u with sys := { u.sys with lost := some u.now, lossStage := 0 }, trv := { u.trv with hubReason := some (0x0A, u.now) } } : Hw).switch
      46 false).followCams.event srcPower 0x0601 0 0).detect 0x0A none 0) ∧
  (∀ (s : State) (h : Hw)  (a u : Hw),
    s.hw = h →
    a = h →
    a.sys.lost = none →
    a.mode ≠ 0 →
    a.on F.DBG_STATUS_FROZEN = false →
    (u = if a.sys.frozenAt = some a.now then { a with seqStopped := false, sys := { a.sys with frozenAt := none } } else a) →
    Does (.returnCurrentStop) s fun h' => h' = ((({ u with sys := { u.sys with lost := some u.now, lossStage := 0 }, trv := { u.trv with hubReason := some (0x0A, u.now) } } : Hw).switch
      46 false).followCams.event srcPower 0x0601 0 0).detect 0x0A none 0) ∧
  (∀ (s : State) (h : Hw) (mv : BitVec 17) (a : Hw),
    s.hw = h →
    a = (h.setInput false mv.toNat).2 →
    a.sys.lost = none →
    a.mode ≠ 0 →
    a.on F.DBG_STATUS_FROZEN = true →
    Does (.mainPowerLoss mv) s fun h' => h' = (({ a with sys := { a.sys with lost := some a.now, lossStage := 3 } } : Hw).switchAll (List.range 48) false).put F.MOD_MODE_MODE 0) ∧
  (∀ (s : State) (h : Hw) (mv : BitVec 17) (a : Hw),
    s.hw = h →
    a = (h.setInput false mv.toNat).2 →
    (a.sys.lost.isSome = true ∨ a.mode = 0) →
    Does (.mainPowerLoss mv) s fun h' => h' = a) ∧
  (∀ (s : State) (h : Hw) (mv : BitVec 17) (a : Hw),
    s.hw = h →
    a = (h.setInput false mv.toNat).2 →
    a.sys.lost = none →
    a.mode ≠ 0 →
    a.on F.DBG_STATUS_FROZEN = true →
    Does (.j1Overvoltage mv) s fun h' => h' = (({ a with sys := { a.sys with lost := some a.now, lossStage := 3 } } : Hw).switchAll (List.range 48) false).put F.MOD_MODE_MODE 0) ∧
  (∀ (s : State) (h : Hw) (mv : BitVec 17) (a : Hw),
    s.hw = h →
    a = (h.setInput false mv.toNat).2 →
    (a.sys.lost.isSome = true ∨ a.mode = 0) →
    Does (.j1Overvoltage mv) s fun h' => h' = a) ∧
  (∀ (s : State) (h : Hw)  (a : Hw),
    s.hw = h →
    a = h →
    a.sys.lost = none →
    a.mode ≠ 0 →
    a.on F.DBG_STATUS_FROZEN = true →
    Does (.returnCurrentStop) s fun h' => h' = (({ a with sys := { a.sys with lost := some a.now, lossStage := 3 } } : Hw).switchAll (List.range 48) false).put F.MOD_MODE_MODE 0) ∧
  (∀ (s : State) (h : Hw)  (a : Hw),
    s.hw = h →
    a = h →
    (a.sys.lost.isSome = true ∨ a.mode = 0) →
    Does (.returnCurrentStop) s fun h' => h' = a) ∧
  (∀ (s : State) (h : Hw) (gotA gotB : Bool) (t : Nat),
    s.hw = h →
    h.sys.lost = some t →
    h.sys.lossStage < 3 →
    t + lossAt h.sys.lossStage ≤ h.now →
    Does (.lossSequenceStage gotA gotB) s fun h' => h' = ({ h with sys := { h.sys with lossStage := h.sys.lossStage + 1 } } : Hw).lossStep h.sys.lossStage gotA gotB) ∧
  (∀ (s : State) (h : Hw) (gotA gotB : Bool),
    s.hw = h →
    (∀ t, h.sys.lost = some t → 3 ≤ h.sys.lossStage ∨ h.now < t + lossAt h.sys.lossStage) →
    Does (.lossSequenceStage gotA gotB) s fun h' => h' = h) ∧
  (∀ (s : State) (h : Hw) (mv : BitVec 17) (a b d : Hw),
    s.hw = h →
    a = (h.setInput true mv.toNat).2 →
    (a.domainOn 36 = true ∨ a.domainOn 39 = true) →
    b = ((a.switchAll [36, 37, 38, 39, 40, 41, 47] false).downDatum 0).downDatum 1 →
    (∀ t, b.trv.hubReason ≠ some (0x0A, t)) →
    d = { b with trv := { b.trv with hubReason := some (0x06, b.now) } } →
    Does (.aux12Loss mv) s fun h' => h' = { d with detected := [] }) ∧
  (∀ (s : State) (h : Hw) (mv : BitVec 17) (a b : Hw) (t : Nat),
    s.hw = h →
    a = (h.setInput true mv.toNat).2 →
    (a.domainOn 36 = true ∨ a.domainOn 39 = true) →
    b = ((a.switchAll [36, 37, 38, 39, 40, 41, 47] false).downDatum 0).downDatum 1 →
    b.trv.hubReason = some (0x0A, t) →
    Does (.aux12Loss mv) s fun h' => h' = { b with detected := [] }) ∧
  (∀ (s : State) (h : Hw) (mv : BitVec 17) (a : Hw),
    s.hw = h →
    a = (h.setInput true mv.toNat).2 →
    a.domainOn 36 = false →
    a.domainOn 39 = false →
    Does (.aux12Loss mv) s fun h' => h' = a)

/-- In a running module, 100 strokes after the last one, a governor evaluation shows the measured currents and powers,
notes its stroke and the stroke of a peak within 100 W of the limit, refreshes boost and evaluates the nine
elements in order; 1,000 strokes after the last one a raise brings boost back when every cap and cluster clock is
at its highest, else lets each of the eight elements rise once. A sample of the temperatures, 100 strokes after the
last one, takes the readings in sensor order, counts the hot time of the dies, applies the thermal stop of each
die, and follows the coolant and boost. CAPACITY_SHED sheds partitions until the capacity checks fit, or none that
helps is left, and places what was vacant. Before those intervals nothing changes. Each clause about a command
concludes that exec answers a next state, under conditions on the state and the operands alone; the constructors
covered: governorEvaluation, governorRaise, capacityShed, temperatureSample. -/
def Obligations.PowerGovernor : Prop :=
  (∀ (s : State) (h : Hw) (p : PowerSample) (a b d : Hw),
    s.hw = h →
    h.running = true →
    h.sys.gov.evalAt + 100 ≤ h.now →
    a = (((h.put F.PWR_POWER_J1_MA p.j1ma.toNat).put F.PWR_POWER_IN_W p.inW.toNat).put F.PWR_POWER_J2_MA p.j2ma.toNat).put
      F.PWR_POWER_CAM_W p.camW.toNat →
    (b = a.modGov fun g => { g with evalAt := a.now }) →
    (d = if b.limitW ≤ p.peakW.toNat + 100 then b.modGov fun g => { g with noBoostAt := b.now } else b) →
    Does (.governorEvaluation p) s fun h' => h' = (List.range 9).foldl (fun x e => x.evalElement p e) d.refreshBoost) ∧
  (∀ (s : State) (h : Hw) (p : PowerSample),
    s.hw = h →
    (h.running = false ∨ h.now < h.sys.gov.evalAt + 100) →
    Does (.governorEvaluation p) s fun h' => h' = h) ∧
  (∀ (s : State) (h : Hw) (a : Hw),
    s.hw = h →
    h.running = true →
    h.sys.gov.raiseAt + 1000 ≤ h.now →
    (a = h.modGov fun g => { g with raiseAt := h.now }) →
    (((List.range 4).all fun n => a.dieCap n == 1400 && a.apcClock n == 26) = false) →
    Does (.governorRaise) s fun h' => h' = (List.range 8).foldl (fun x e => x.raiseElement e) a) ∧
  (∀ (s : State) (h : Hw) (a b : Hw),
    s.hw = h →
    h.running = true →
    h.sys.gov.raiseAt + 1000 ≤ h.now →
    (a = h.modGov fun g => { g with raiseAt := h.now }) →
    (((List.range 4).all fun n => a.dieCap n == 1400 && a.apcClock n == 26) = true) →
    (b = (a.modGov fun g => { g with withdrawn := false }).refreshBoost) →
    Does (.governorRaise) s fun h' => h' = if b.on F.PWR_STATUS_BOOST = true then b else a) ∧
  (∀ (s : State) (h : Hw),
    s.hw = h →
    (h.running = false ∨ h.now < h.sys.gov.raiseAt + 1000) →
    Does (.governorRaise) s fun h' => h' = h) ∧
  (∀ (s : State) (h : Hw),
    s.hw = h →
    h.running = true →
    h.activeCapacity h.stn.active h.isShed = none →
    Does (.capacityShed) s fun h' => h' = if h.fab.unplaced = [] then h else h.fillVacancies) ∧
  (∀ (s : State) (h : Hw) (k i p : Nat) (g : Hw),
    s.hw = h →
    h.running = true →
    h.activeCapacity h.stn.active h.isShed = some (k, i) →
    ((h.shedOrder.find? fun p => ! h.isShed p &&
      decide (h.failingLoad k h.isShed (fun q => h.isShed q || q == p) < h.failingLoad k h.isShed h.isShed)) = some p) →
    g = (h.shedPart p (h.shedCause k)).shedUntilFit 255 →
    Does (.capacityShed) s fun h' => h' = if g.fab.unplaced = [] then g else g.fillVacancies) ∧
  (∀ (s : State) (h : Hw) (k i : Nat),
    s.hw = h →
    h.running = true →
    h.activeCapacity h.stn.active h.isShed = some (k, i) →
    ((h.shedOrder.find? fun p => ! h.isShed p &&
      decide (h.failingLoad k h.isShed (fun q => h.isShed q || q == p) < h.failingLoad k h.isShed h.isShed)) = none) →
    Does (.capacityShed) s fun h' => h' = if h.fab.unplaced = [] then h else h.fillVacancies) ∧
  (∀ (s : State) (h : Hw),
    s.hw = h →
    h.running = false →
    Does (.capacityShed) s fun h' => h' = h) ∧
  (∀ (s : State) (h : Hw) (ts : List (BitVec 8)) (a b : Hw),
    s.hw = h →
    h.running = true →
    h.sys.gov.sampleAt + 100 ≤ h.now →
    (a = (List.zip (List.range 96) ts).foldl (fun x e => x.sampleSensor e.1 e.2) (h.modGov fun g => { g with sampleAt := h.now })) →
    (b = (List.range 4).foldl (fun x d => (x.dieTime d).thermalStop d) a) →
    Does (.temperatureSample ts) s fun h' => h' = b.sampleCoolant.refreshBoost) ∧
  (∀ (s : State) (h : Hw) (ts : List (BitVec 8)),
    s.hw = h →
    (h.running = false ∨ h.now < h.sys.gov.sampleAt + 100) →
    Does (.temperatureSample ts) s fun h' => h' = h)

/-- WAKE notes the level and when it changed; read high in OFF it performs the PORST of a start, in PARKED it asks for
a wake. PARK_DELAY_EXPIRY in STANDBY, with WAKE low for the delay, parks; CAN_WAKE in PARKED on an enabled channel
and WAKE ask for the wake that PARKED_EXIT performs; OFF_DELAY_EXPIRY in PARKED with no wake asked for leaves the
module OFF with PREV PARKED. PORST_N low performs PORST with LAST_RESET 1 (keeping a power loss that has not ended)
and released only notes the level; MAIN_POWER_RETURN after a loss sequence performs PORST with LAST_RESET 2 and
measures J1. MODULE_WARM that firmware starts runs when no command processor runs. Where its condition does not
hold, a row changes nothing. Each clause about a command concludes that exec answers a next state, under conditions
on the state and the operands alone; the constructors covered: wake, parkDelayExpiry, canWake, parkedExit,
offDelayExpiry, porstN, mainPowerReturn, moduleWarm. -/
def Obligations.ModuleModes : Prop :=
  (∀ (s : State) (h : Hw) (high : Bool) (a : Hw),
    s.hw = h →
    (a = { h with sys := { h.sys with wake := high, wakeAt := if high = h.sys.wake then h.sys.wakeAt else h.now } }) →
    high = true →
    h.mode = 0 →
    h.sys.lost = none →
    Does (.wake high) s fun h' => h' = a.porst 0) ∧
  (∀ (s : State) (h : Hw) (high : Bool) (a : Hw),
    s.hw = h →
    (a = { h with sys := { h.sys with wake := high, wakeAt := if high = h.sys.wake then h.sys.wakeAt else h.now } }) →
    high = true →
    h.mode = 1 →
    Does (.wake high) s fun h' => h' = { a with sys := { a.sys with wakeReq := true } }) ∧
  (∀ (s : State) (h : Hw) (high : Bool) (a : Hw),
    s.hw = h →
    (a = { h with sys := { h.sys with wake := high, wakeAt := if high = h.sys.wake then h.sys.wakeAt else h.now } }) →
    (high = false ∨ 2 ≤ h.mode ∨ (h.mode = 0 ∧ h.sys.lost.isSome = true)) →
    Does (.wake high) s fun h' => h' = a) ∧
  (∀ (s : State) (h : Hw),
    s.hw = h →
    h.mode = 2 →
    h.sequencing = true →
    h.sys.lost = none →
    h.wakeLowFor h.cfg.parkDelay = true →
    Does (.parkDelayExpiry) s fun h' => h' = h.park) ∧
  (∀ (s : State) (h : Hw) (ch : Fin 2),
    s.hw = h →
    h.mode = 1 →
    (h.cfg.can[ch.val]?).any (·.wake) = true →
    Does (.canWake ch) s fun h' => h' = { h with sys := { h.sys with wakeReq := true } }) ∧
  (∀ (s : State) (h : Hw) (b : BringUp),
    s.hw = h →
    h.mode = 1 →
    h.sys.lost = none →
    (h.sys.wake || h.sys.wakeReq) = true →
    Does (.parkedExit b) s fun h' => h' = ({ h with sys := { h.sys with wakeReq := false } } : Hw).unpark b) ∧
  (∀ (s : State) (h : Hw),
    s.hw = h →
    h.mode = 1 →
    h.sys.lost = none →
    h.sys.wakeReq = false →
    h.wakeLowFor h.cfg.offDelay = true →
    Does (.offDelayExpiry) s fun h' => h' = ((h.porst 0).put F.MOD_MODE_MODE 0).put F.MOD_MODE_PREV 1) ∧
  (∀ (s : State) (h : Hw) (low : Bool) (a : Hw),
    s.hw = h →
    a = { h with sys := { h.sys with porstLow := low } } →
    low = true →
    h.sys.lost = none →
    Does (.porstN low) s fun h' => h' = a.porst 1) ∧
  (∀ (s : State) (h : Hw) (low : Bool) (a n : Hw),
    s.hw = h →
    a = { h with sys := { h.sys with porstLow := low } } →
    low = true →
    h.sys.lost.isSome = true →
    n = a.porst 1 →
    Does (.porstN low) s fun h' => h' = { n with sys := { n.sys with lost := h.sys.lost, lossStage := 3 } }) ∧
  (∀ (s : State) (h : Hw) (low : Bool),
    s.hw = h →
    low = false →
    Does (.porstN low) s fun h' => h' = { h with sys := { h.sys with porstLow := false } }) ∧
  (∀ (s : State) (h : Hw) (mv : BitVec 17),
    s.hw = h →
    h.sys.lost.isSome = true →
    3 ≤ h.sys.lossStage →
    inputOk false mv.toNat = true →
    Does (.mainPowerReturn mv) s fun h' => h' = ((h.porst 2).setInput false mv.toNat).2) ∧
  (∀ (s : State) (h : Hw),
    s.hw = h →
    (h.mode ≠ 2 ∨ h.sequencing = false ∨ h.sys.lost.isSome = true ∨ h.wakeLowFor h.cfg.parkDelay = false) →
    Does (.parkDelayExpiry) s fun h' => h' = h) ∧
  (∀ (s : State) (h : Hw) (ch : Fin 2),
    s.hw = h →
    (h.mode ≠ 1 ∨ (h.cfg.can[ch.val]?).any (·.wake) = false) →
    Does (.canWake ch) s fun h' => h' = h) ∧
  (∀ (s : State) (h : Hw) (b : BringUp),
    s.hw = h →
    (h.mode ≠ 1 ∨ h.sys.lost.isSome = true ∨ (h.sys.wake || h.sys.wakeReq) = false) →
    Does (.parkedExit b) s fun h' => h' = h) ∧
  (∀ (s : State) (h : Hw),
    s.hw = h →
    (h.mode ≠ 1 ∨ h.sys.lost.isSome = true ∨ h.sys.wakeReq = true ∨ h.wakeLowFor h.cfg.offDelay = false) →
    Does (.offDelayExpiry) s fun h' => h' = h) ∧
  (∀ (s : State) (h : Hw) (mv : BitVec 17),
    s.hw = h →
    (h.sys.lost = none ∨ h.sys.lossStage < 3 ∨ inputOk false mv.toNat = false) →
    Does (.mainPowerReturn mv) s fun h' => h' = h) ∧
  (∀ (s : State) (h : Hw) (b : BringUp),
    s.hw = h →
    (h.fabricOn = false ∨ h.hubOn = false ∨ (List.range 4).any h.cpRuns = true) →
    Does (.moduleWarm b) s fun h' => h' = h) ∧
  (∀ (s : State) (h : Hw) (b : BringUp),
    s.hw = h →
    h.fabricOn = true →
    h.hubOn = true →
    (List.range 4).any h.cpRuns = false →
    Does (.moduleWarm b) s fun h' => h' = h.moduleWarm b)

/-- STARTUP from PORST (step 0, PORST_N released, no stop, no lost power) reads the module's label and measures both
inputs; with both in range it powers the safe side; without a bootable Datum A image it stops at step 1, without
equal hub and configuration images at step 2 (a Datum B with no bootable image takes Datum A's), without the hub's
confirmation at step 3, with no command processor that passes at step 4, and else performs the rest of the start. A
stop shows the step and makes Datum A wait for images. FULL_SELFTEST_DONE at step 10 retires every tile that fails
and shows step 11 with FULL_ST and its interrupt. An IMAGE_FRAME that Datum A does not wait for, or with a bad
length or CRC, is dropped; one that is not the last joins its image; the last has the image checked and installed
in both flashes and the answer sent. DIE_RESET in a running module, of a die that no temperature holds, takes a die
that is up down and brings it back. DIE_RESTART at S+600 takes down the dies of the restart that are up, marks it
begun and raises the event in every Datum that runs; RESTART_COMPLETE brings back the dies that are down, ends the
restart, clears the reasons of dies in both Datums and raises the event with DONE; RESTART_TIMEOUT at S+750,000
ends the restart and the registers of both Datums follow. Without a restart, and before its times, these rows
change nothing. Each clause about a command concludes that exec answers a next state, under conditions on the state
and the operands alone; the constructors covered: startup, fullSelftestDone, imageFrame, dieReset, dieRestart,
restartComplete, restartTimeout. -/
def Obligations.StartUpAndResets : Prop :=
  (∀ (s : State) (h : Hw) (b : BringUp) (j1 j2 : BitVec 17) (hubOk : Bool) (src : StartInput) (a : Hw) (g : Hw) (hub cfg : FlashImg) (recB : Bool),
    s.hw = h →
    h.mode = 2 →
    h.get F.MOD_START_STEP = 0 →
    h.sys.porstLow = false →
    h.sys.startStop = false →
    h.sys.lost = none →
    inputOk false j1.toNat = true →
    inputOk true j2.toNat = true →
    a = (((h.readLabel src.label).setInput false j1.toNat).2.setInput true j2.toNat).2.switchAll [36, 37, 38, 39, 40, 41, 47] true →
    (a.sys.flash.bootOf 0 0).isSome = true →
    a.sys.flash.booting 0 1 = some hub →
    a.sys.flash.booting 0 2 = some cfg →
    recB = (a.sys.flash.bootOf 1 0).isNone →
    ((recB || ((a.sys.flash.booting 1 1).any (fun j => j.digest == hub.digest) && (a.sys.flash.booting 1 2).any fun j => j.digest == cfg.digest)) = true) →
    (g = { a with sys := { a.sys with flash := { a.sys.flash with booted := (List.range 6).foldl (fun m i => match a.sys.flash.bootOf (i / 3) (i % 3) with | some s => if recB && decide (3 ≤ i) then m else SMap.put m i s | none => m) [] } } }) →
    hubOk = true →
    b.cpPass ≠ 0 →
    Does (.startup b j1 j2 hubOk src) s fun h' => h' = g.startRest b src.source hub cfg recB) ∧
  (∀ (s : State) (h : Hw) (b : BringUp) (j1 j2 : BitVec 17) (hubOk : Bool) (src : StartInput) (a : Hw) (g : Hw) (hub cfg : FlashImg) (recB : Bool),
    s.hw = h →
    h.mode = 2 →
    h.get F.MOD_START_STEP = 0 →
    h.sys.porstLow = false →
    h.sys.startStop = false →
    h.sys.lost = none →
    inputOk false j1.toNat = true →
    inputOk true j2.toNat = true →
    a = (((h.readLabel src.label).setInput false j1.toNat).2.setInput true j2.toNat).2.switchAll [36, 37, 38, 39, 40, 41, 47] true →
    (a.sys.flash.bootOf 0 0).isSome = true →
    a.sys.flash.booting 0 1 = some hub →
    a.sys.flash.booting 0 2 = some cfg →
    recB = (a.sys.flash.bootOf 1 0).isNone →
    ((recB || ((a.sys.flash.booting 1 1).any (fun j => j.digest == hub.digest) && (a.sys.flash.booting 1 2).any fun j => j.digest == cfg.digest)) = true) →
    (g = { a with sys := { a.sys with flash := { a.sys.flash with booted := (List.range 6).foldl (fun m i => match a.sys.flash.bootOf (i / 3) (i % 3) with | some s => if recB && decide (3 ≤ i) then m else SMap.put m i s | none => m) [] } } }) →
    hubOk = false →
    Does (.startup b j1 j2 hubOk src) s fun h' => h' = { g.put F.MOD_START_STEP 3 with sys := { g.sys with startStop := true } }) ∧
  (∀ (s : State) (h : Hw) (b : BringUp) (j1 j2 : BitVec 17) (hubOk : Bool) (src : StartInput) (a : Hw) (g k : Hw) (hub cfg : FlashImg) (recB : Bool),
    s.hw = h →
    h.mode = 2 →
    h.get F.MOD_START_STEP = 0 →
    h.sys.porstLow = false →
    h.sys.startStop = false →
    h.sys.lost = none →
    inputOk false j1.toNat = true →
    inputOk true j2.toNat = true →
    a = (((h.readLabel src.label).setInput false j1.toNat).2.setInput true j2.toNat).2.switchAll [36, 37, 38, 39, 40, 41, 47] true →
    (a.sys.flash.bootOf 0 0).isSome = true →
    a.sys.flash.booting 0 1 = some hub →
    a.sys.flash.booting 0 2 = some cfg →
    recB = (a.sys.flash.bootOf 1 0).isNone →
    ((recB || ((a.sys.flash.booting 1 1).any (fun j => j.digest == hub.digest) && (a.sys.flash.booting 1 2).any fun j => j.digest == cfg.digest)) = true) →
    (g = { a with sys := { a.sys with flash := { a.sys.flash with booted := (List.range 6).foldl (fun m i => match a.sys.flash.bootOf (i / 3) (i % 3) with | some s => if recB && decide (3 ≤ i) then m else SMap.put m i s | none => m) [] } } }) →
    hubOk = true →
    b.cpPass = 0 →
    k = (g.switchAll hubDomains true).bringCps b →
    Does (.startup b j1 j2 hubOk src) s fun h' => h' = { k.put F.MOD_START_STEP 4 with sys := { k.sys with startStop := true } }) ∧
  (∀ (s : State) (h : Hw) (b : BringUp) (j1 j2 : BitVec 17) (hubOk : Bool) (src : StartInput) (a : Hw) (hub cfg : FlashImg) (recB : Bool),
    s.hw = h →
    h.mode = 2 →
    h.get F.MOD_START_STEP = 0 →
    h.sys.porstLow = false →
    h.sys.startStop = false →
    h.sys.lost = none →
    inputOk false j1.toNat = true →
    inputOk true j2.toNat = true →
    a = (((h.readLabel src.label).setInput false j1.toNat).2.setInput true j2.toNat).2.switchAll [36, 37, 38, 39, 40, 41, 47] true →
    (a.sys.flash.bootOf 0 0).isSome = true →
    a.sys.flash.booting 0 1 = some hub →
    a.sys.flash.booting 0 2 = some cfg →
    recB = (a.sys.flash.bootOf 1 0).isNone →
    recB = false →
    (((a.sys.flash.booting 1 1).any (fun j => j.digest == hub.digest) && (a.sys.flash.booting 1 2).any fun j => j.digest == cfg.digest) = false) →
    Does (.startup b j1 j2 hubOk src) s fun h' => h' = { a.put F.MOD_START_STEP 2 with sys := { a.sys with startStop := true } }) ∧
  (∀ (s : State) (h : Hw) (b : BringUp) (j1 j2 : BitVec 17) (hubOk : Bool) (src : StartInput) (a : Hw),
    s.hw = h →
    h.mode = 2 →
    h.get F.MOD_START_STEP = 0 →
    h.sys.porstLow = false →
    h.sys.startStop = false →
    h.sys.lost = none →
    inputOk false j1.toNat = true →
    inputOk true j2.toNat = true →
    a = (((h.readLabel src.label).setInput false j1.toNat).2.setInput true j2.toNat).2.switchAll [36, 37, 38, 39, 40, 41, 47] true →
    (a.sys.flash.bootOf 0 0).isSome = true →
    (a.sys.flash.booting 0 1 = none ∨ a.sys.flash.booting 0 2 = none) →
    Does (.startup b j1 j2 hubOk src) s fun h' => h' = { a.put F.MOD_START_STEP 2 with sys := { a.sys with startStop := true } }) ∧
  (∀ (s : State) (h : Hw) (b : BringUp) (j1 j2 : BitVec 17) (hubOk : Bool) (src : StartInput) (a : Hw),
    s.hw = h →
    h.mode = 2 →
    h.get F.MOD_START_STEP = 0 →
    h.sys.porstLow = false →
    h.sys.startStop = false →
    h.sys.lost = none →
    inputOk false j1.toNat = true →
    inputOk true j2.toNat = true →
    a = (((h.readLabel src.label).setInput false j1.toNat).2.setInput true j2.toNat).2.switchAll [36, 37, 38, 39, 40, 41, 47] true →
    a.sys.flash.bootOf 0 0 = none →
    Does (.startup b j1 j2 hubOk src) s fun h' => h' = { a.put F.MOD_START_STEP 1 with sys := { a.sys with startStop := true } }) ∧
  (∀ (s : State) (h : Hw) (b : BringUp) (j1 j2 : BitVec 17) (hubOk : Bool) (src : StartInput),
    s.hw = h →
    h.mode = 2 →
    h.get F.MOD_START_STEP = 0 →
    h.sys.porstLow = false →
    h.sys.startStop = false →
    h.sys.lost = none →
    (inputOk false j1.toNat = false ∨ inputOk true j2.toNat = false) →
    Does (.startup b j1 j2 hubOk src) s fun h' => h' = (((h.readLabel src.label).setInput false j1.toNat).2.setInput true j2.toNat).2) ∧
  (∀ (s : State) (h : Hw) (b : BringUp) (j1 j2 : BitVec 17) (hubOk : Bool) (src : StartInput),
    s.hw = h →
    (h.mode ≠ 2 ∨ h.get F.MOD_START_STEP ≠ 0 ∨ h.sys.porstLow = true ∨ h.sys.startStop = true ∨ h.sys.lost.isSome = true) →
    Does (.startup b j1 j2 hubOk src) s fun h' => h' = h) ∧
  (∀ (s : State) (h : Hw),
    s.hw = h →
    (h.get F.MOD_START_STEP ≠ 10 ∨ h.fabricOn = false) →
    Does (.fullSelftestDone) s fun h' => h' = h) ∧
  (∀ (s : State) (h : Hw) (x : ImageFrame),
    s.hw = h →
    ((h.mode ≠ 5 ∧ h.sys.startStop = false) ∨ h.datA.down = true) →
    Does (.imageFrame x) s fun h' => h' = h) ∧
  (∀ (s : State) (h : Hw) (x : ImageFrame) (n : Nat) (m : SMap Byte) (i : FlashImg) (f fa fb : Flash) (a b : Bool),
    s.hw = h →
    (h.mode = 5 ∨ h.sys.startStop = true) →
    h.datA.down = false →
    n = x.data.length →
    64 ≤ n →
    n ≤ 1024 →
    crc32c x.data = x.crc.toNat →
    x.last = true →
    (m = (List.range n).foldl (fun m i => SMap.put m (x.off.toNat + i) (x.data.getD i 0)) (h.sys.flash.update.getD [] x.kind.val)) →
    (i = if updateWhole m (x.off.toNat + n) then imageOf x.kind.val (updateBytes m (x.off.toNat + n))
      else { bytes := [], version := 0, secver := 0, digest := 0, good := false }) →
    f = { h.sys.flash with update := h.sys.flash.update.del x.kind.val } →
    f.install 0 x.kind.val i = (fa, a) →
    fa.install 1 x.kind.val i = (fb, b) →
    Does (.imageFrame x) s fun h' => h' = { h with sys := { h.sys with flash := fb }, outs := h.outs ++ [.ethernet 2 [if a && b then 0 else 1]] }) ∧
  (∀ (s : State) (h : Hw) (a : Hw),
    s.hw = h →
    h.get F.MOD_START_STEP = 10 →
    h.fabricOn = true →
    (a = (List.range 1152).foldl (fun x t => if (x.tile t).fails then x.retireTile t 0 none else x) h) →
    Does (.fullSelftestDone) s fun h' => h' = ((a.put F.MOD_START_STEP 11).put F.MOD_START_FULL_ST 1).put F.MOD_INT_STATUS_SELFTEST 1) ∧
  (∀ (s : State) (h : Hw) (x : ImageFrame),
    s.hw = h →
    (x.data.length < 64 ∨ 1024 < x.data.length ∨ crc32c x.data ≠ x.crc.toNat) →
    Does (.imageFrame x) s fun h' => h' = h) ∧
  (∀ (s : State) (h : Hw) (x : ImageFrame) (n : Nat) (m : SMap Byte),
    s.hw = h →
    (h.mode = 5 ∨ h.sys.startStop = true) →
    h.datA.down = false →
    n = x.data.length →
    64 ≤ n →
    n ≤ 1024 →
    crc32c x.data = x.crc.toNat →
    x.last = false →
    (m = (List.range n).foldl (fun m i => SMap.put m (x.off.toNat + i) (x.data.getD i 0)) (h.sys.flash.update.getD [] x.kind.val)) →
    Does (.imageFrame x) s fun h' => h' = { h with sys := { h.sys with flash := { h.sys.flash with update := h.sys.flash.update.put x.kind.val m } } }) ∧
  (∀ (s : State) (h : Hw) (d : Fin 4),
    s.hw = h →
    h.running = true →
    h.sys.gov.dieHeld.contains d.val = false →
    Does (.dieReset d) s fun h' => h' = (if h.dieUp? d.val = true then h.dieDown d.val else h).dieBack d.val) ∧
  (∀ (s : State) (h : Hw) (d : Fin 4),
    s.hw = h →
    (h.running = false ∨ h.sys.gov.dieHeld.contains d.val = true) →
    Does (.dieReset d) s fun h' => h' = h) ∧
  (∀ (s : State) (h : Hw) (r : Restart),
    s.hw = h →
    h.trv.restart = some r →
    (h.running = false ∨ r.begun = true ∨ h.now < r.since + 600) →
    Does (.dieRestart) s fun h' => h' = h) ∧
  (∀ (s : State) (h : Hw) (r : Restart),
    s.hw = h →
    h.trv.restart = some r →
    (h.running = false ∨ r.begun = false ∨ r.dies.any h.sys.gov.dieHeld.contains = true) →
    Does (.restartComplete) s fun h' => h' = h) ∧
  (∀ (s : State) (h : Hw) (r : Restart),
    s.hw = h →
    h.trv.restart = some r →
    h.now < r.since + 750000 →
    Does (.restartTimeout) s fun h' => h' = h) ∧
  (∀ (s : State) (h : Hw) (r : Restart) (a b : Hw),
    s.hw = h →
    h.trv.restart = some r →
    h.running = true →
    r.begun = false →
    r.since + 600 ≤ h.now →
    (a = (r.dies.filter h.dieUp?).foldl (fun x d => x.dieDown d) h) →
    b = { a with trv := { a.trv with restart := some { r with begun := true } } } →
    Does (.dieRestart) s fun h' => h' = b.datumsOn.foldl (fun x d => x.event (srcDatum d) 0x0406 0 (mask 4 fun i => r.dies.contains i)) b) ∧
  (∀ (s : State) (h : Hw) (r : Restart) (a b d : Hw),
    s.hw = h →
    h.trv.restart = some r →
    h.running = true →
    r.begun = true →
    r.dies.any h.sys.gov.dieHeld.contains = false →
    (a = (r.dies.filter fun d => ! h.dieUp? d).foldl (fun x d => x.dieBack d) h) →
    b = { a with trv := { a.trv with restart := none, restartedAt := some a.now } } →
    d = (b.unlatch 0 dieReason).unlatch 1 dieReason →
    Does (.restartComplete) s fun h' => h' = d.datumsOn.foldl (fun x d => (x.put (F.DTM_INT_STATUS_RESTART_DONE.datum d) 1).event (srcDatum d) 0x0406 0 (r.bits + 256)) d) ∧
  (∀ (s : State) (h : Hw) (r : Restart),
    s.hw = h →
    h.trv.restart = some r →
    r.since + 750000 ≤ h.now →
    Does (.restartTimeout) s fun h' => h' = (({ h with trv := { h.trv with restart := none } } : Hw).showDtm 0).showDtm 1) ∧
  (∀ (s : State) (h : Hw),
    s.hw = h →
    h.trv.restart = none →
    Does (.restartTimeout) s fun h' => h' = h) ∧
  (∀ (s : State) (h : Hw),
    s.hw = h →
    h.trv.restart = none →
    Does (.dieRestart) s fun h' => h' = h) ∧
  (∀ (s : State) (h : Hw),
    s.hw = h →
    h.trv.restart = none →
    Does (.restartComplete) s fun h' => h' = h)

/-- A freeze that is due, in a stroke that began in BENCH or SERVICE with power, stops the sequencer, notes the stroke
and opens both loops; at its point the module becomes FROZEN with a new choice of what the manual does not state of
it, or switches off when main power is lost. FRZ_N low asks for the freeze in BENCH and SERVICE and is refused with
its event in STANDBY and DRIVE; DBG_EN_N follows the pin, breaks lockstep in BENCH and SERVICE, is refused in DRIVE
and shows the level. A TAP instruction outside OFF answers its item at its level, and BYPASS with one report for
each PORST above its level. Each clause about a command concludes that exec answers a next state, under conditions
on the state and the operands alone; the constructors covered: freeze, freezePoint, frzN, dbgEnN, tapInstruction. -/
def Obligations.FreezeAndTap : Prop :=
  (∀ (s : State) (h : Hw) (a : Hw),
    s.hw = h →
    benchMode h.mode = true →
    h.sys.modeAt < h.now →
    h.sys.lost = none →
    h.sys.frozenAt = none →
    h.freezeDue = true →
    a = { h with freezeReq := false, seqStopped := true, sys := { h.sys with frozenAt := some h.now } } →
    Does (.freeze) s fun h' => h' = (a.driveLoop 0).driveLoop 1) ∧
  (∀ (s : State) (h : Hw),
    s.hw = h →
    (h.freezeDue = false ∨ benchMode h.mode = false ∨ h.now ≤ h.sys.modeAt ∨ h.sys.lost.isSome = true ∨ h.sys.frozenAt.isSome = true) →
    Does (.freeze) s fun h' => h' = h) ∧
  (∀ (s : State) (h : Hw) (a : Hw),
    s.hw = h →
    h.atFreezePoint = true →
    h.on F.DBG_STATUS_FROZEN = false →
    h.sys.lost = none →
    a = { h with freeIx := h.freeIx + 1, sys := { h.sys with frozenIx := h.freeIx } } →
    Does (.freezePoint) s fun h' => h' = ((a.put F.DBG_FREEZE_AT_STROKE h.now).setMode 6).put F.DBG_STATUS_FROZEN 1) ∧
  (∀ (s : State) (h : Hw),
    s.hw = h →
    h.atFreezePoint = true →
    h.on F.DBG_STATUS_FROZEN = false →
    h.sys.lost.isSome = true →
    Does (.freezePoint) s fun h' => h' = (({ h with sys := { h.sys with lossStage := 3 } } : Hw).switchAll (List.range 48) false).put F.MOD_MODE_MODE 0) ∧
  (∀ (s : State) (h : Hw),
    s.hw = h →
    (h.atFreezePoint = false ∨ h.on F.DBG_STATUS_FROZEN = true) →
    Does (.freezePoint) s fun h' => h' = h) ∧
  (∀ (s : State) (h : Hw) (low : Bool),
    s.hw = h →
    low = h.sys.frzLow →
    Does (.frzN low) s fun h' => h' = h) ∧
  (∀ (s : State) (h : Hw) (low : Bool),
    s.hw = h →
    low = true →
    h.sys.frzLow = false →
    benchMode h.mode = false →
    h.mode ≠ 2 →
    h.mode ≠ 3 →
    Does (.frzN low) s fun h' => h' = { h with sys := { h.sys with frzLow := true } }) ∧
  (∀ (s : State) (h : Hw) (low : Bool),
    s.hw = h →
    low = true →
    h.sys.frzLow = false →
    benchMode h.mode = true →
    Does (.frzN low) s fun h' => h' = { h with freezeReq := true, sys := { h.sys with frzLow := true } }) ∧
  (∀ (s : State) (h : Hw) (low : Bool) (a : Hw),
    s.hw = h →
    low = true →
    h.sys.frzLow = false →
    (h.mode = 2 ∨ h.mode = 3) →
    a = { h with sys := { h.sys with frzLow := true } } →
    Does (.frzN low) s fun h' => h' = (a.debugRefused 0).put F.DBG_INT_STATUS_REFUSED 1) ∧
  (∀ (s : State) (h : Hw) (low : Bool),
    s.hw = h →
    low = false →
    Does (.frzN low) s fun h' => h' = { h with sys := { h.sys with frzLow := false } }) ∧
  (∀ (s : State) (h : Hw) (low : Bool) (a : Hw),
    s.hw = h →
    low = true →
    h.on F.DBG_STATUS_DBG_EN = false →
    a = h.put F.DBG_STATUS_DBG_EN 1 →
    benchMode a.mode = true →
    a.comparatorsOff = false →
    Does (.dbgEnN low) s fun h' => h' = (a.breakLockstep 2).showLevel) ∧
  (∀ (s : State) (h : Hw) (low : Bool),
    s.hw = h →
    low = h.on F.DBG_STATUS_DBG_EN →
    Does (.dbgEnN low) s fun h' => h' = h) ∧
  (∀ (s : State) (h : Hw) (low : Bool) (a : Hw),
    s.hw = h →
    low = true →
    h.on F.DBG_STATUS_DBG_EN = false →
    a = h.put F.DBG_STATUS_DBG_EN 1 →
    ((benchMode a.mode = true ∧ a.comparatorsOff = true) ∨ (benchMode a.mode = false ∧ a.mode ≠ 3)) →
    Does (.dbgEnN low) s fun h' => h' = a.showLevel) ∧
  (∀ (s : State) (h : Hw) (low : Bool) (a : Hw),
    s.hw = h →
    low = true →
    h.on F.DBG_STATUS_DBG_EN = false →
    a = h.put F.DBG_STATUS_DBG_EN 1 →
    benchMode a.mode = false →
    a.mode = 3 →
    Does (.dbgEnN low) s fun h' => h' = (a.debugRefused 2).showLevel) ∧
  (∀ (s : State) (h : Hw) (low : Bool),
    s.hw = h →
    low = false →
    h.on F.DBG_STATUS_DBG_EN = true →
    Does (.dbgEnN low) s fun h' => h' = (h.put F.DBG_STATUS_DBG_EN 0).showLevel) ∧
  (∀ (s : State) (h : Hw) (op : TapOp),
    s.hw = h →
    h.mode ≠ 0 →
    tapNeeds op ≤ h.get F.DBG_STATUS_LEVEL →
    Does (.tapInstruction op) s fun h' => h' = h.tapGives op) ∧
  (∀ (s : State) (h : Hw) (op : TapOp) (a : Hw),
    s.hw = h →
    h.mode ≠ 0 →
    h.get F.DBG_STATUS_LEVEL < tapNeeds op →
    h.sys.tapRefused = false →
    h.on F.DBG_STATUS_FROZEN = false →
    a = (h.debugRefused 2).put F.DBG_INT_STATUS_REFUSED 1 →
    Does (.tapInstruction op) s fun h' => h' = ({ a with sys := { a.sys with tapRefused := a.sys.tapRefused || ! a.on F.DBG_STATUS_FROZEN } } : Hw).tapOut 0) ∧
  (∀ (s : State) (h : Hw) (op : TapOp),
    s.hw = h →
    h.mode ≠ 0 →
    h.get F.DBG_STATUS_LEVEL < tapNeeds op →
    (h.sys.tapRefused = true ∨ h.on F.DBG_STATUS_FROZEN = true) →
    Does (.tapInstruction op) s fun h' => h' = ({ h with sys := { h.sys with tapRefused := h.sys.tapRefused || ! h.on F.DBG_STATUS_FROZEN } } : Hw).tapOut 0) ∧
  (∀ (s : State) (h : Hw) (op : TapOp),
    s.hw = h →
    h.mode = 0 →
    Does (.tapInstruction op) s fun h' => h' = h)

/-- While the module keeps time: a Sync message counts as received and shows the port in the slave state and, on the
selected port, gives a measurement with the grandmaster; a good PPS edge near the predicted second is noted and,
when selected, gives a measurement; one too far is counted as rejected, and a bad one changes nothing. Holdover
follows the loss of the source in use. A write of TIME_SRC with another value, not locked, notes the stroke; a
write of TIME_STEP in STANDBY, BENCH or SERVICE with no swap and no step pending sets STEP_PENDING, else
STEP_REFUSED; a pending step acts as timeStep says. The loss of the reference notes itself, and every Datum that
runs loses its five monitor links, latches CLOCK, and its loop follows. Each clause about a command concludes that
exec answers a next state, under conditions on the state and the operands alone; the constructors covered: ptpSync,
ppsInEdge, holdover, timeSrcWrite, timeStep, timeStepEffect, referenceLoss. -/
def Obligations.ModuleTime : Prop :=
  (∀ (s : State) (h : Hw) (port : Fin 2) (off clockId : BitVec 64) (a : Hw),
    s.hw = h →
    h.timeRuns = true →
    a = (h.addSat (F.BB_COUNT_RX.nth port.val) 1).put (if port.val = 0 then F.BB_STATUS_PTP0 else F.BB_STATUS_PTP1) 1 →
    h.sys.srcInUse = port.val →
    Does (.ptpSync port off clockId) s fun h' => h' = (a.put F.TIME_GM_CLOCK_ID clockId.toNat).measured off.toInt) ∧
  (∀ (s : State) (h : Hw) (port : Fin 2) (off clockId : BitVec 64) (a : Hw),
    s.hw = h →
    h.timeRuns = true →
    a = (h.addSat (F.BB_COUNT_RX.nth port.val) 1).put (if port.val = 0 then F.BB_STATUS_PTP0 else F.BB_STATUS_PTP1) 1 →
    h.sys.srcInUse ≠ port.val →
    Does (.ptpSync port off clockId) s fun h' => h' = a) ∧
  (∀ (s : State) (h : Hw) (ns10 : Fin 100) (good : Bool) (t : Nat),
    s.hw = h →
    h.timeRuns = true →
    t = 1000 * h.now + 10 * ns10.val →
    good = true →
    (∀ x, h.sys.ppsAt = some x → (nearSecond x t).natAbs ≤ 10000) →
    h.sys.srcInUse = 2 →
    Does (.ppsInEdge ns10 good) s fun h' => h' = (({ h with sys := { h.sys with ppsAt := some t } } : Hw).put F.TIME_GM_CLOCK_ID 0).measured (nearSecond 0 t)) ∧
  (∀ (s : State) (h : Hw) (ns10 : Fin 100) (good : Bool) (t : Nat),
    s.hw = h →
    h.timeRuns = true →
    t = 1000 * h.now + 10 * ns10.val →
    good = true →
    (∀ x, h.sys.ppsAt = some x → (nearSecond x t).natAbs ≤ 10000) →
    h.sys.srcInUse ≠ 2 →
    Does (.ppsInEdge ns10 good) s fun h' => h' = { h with sys := { h.sys with ppsAt := some t } }) ∧
  (∀ (s : State) (h : Hw) (ns10 : Fin 100) (good : Bool) (t x : Nat),
    s.hw = h →
    h.timeRuns = true →
    t = 1000 * h.now + 10 * ns10.val →
    good = true →
    h.sys.ppsAt = some x →
    10000 < (nearSecond x t).natAbs →
    Does (.ppsInEdge ns10 good) s fun h' => h' = (h.addSat F.TIME_STATUS_PPS_REJECT 1).put F.TIME_INT_STATUS_PPS_REJECT 1) ∧
  (∀ (s : State) (h : Hw) (port : Fin 2) (off clockId : BitVec 64),
    s.hw = h →
    h.timeRuns = false →
    Does (.ptpSync port off clockId) s fun h' => h' = h) ∧
  (∀ (s : State) (h : Hw) (ns10 : Fin 100) (good : Bool),
    s.hw = h →
    (good = false ∨ h.timeRuns = false) →
    Does (.ppsInEdge ns10 good) s fun h' => h' = h) ∧
  (∀ (s : State) (h : Hw) (left : Bool),
    s.hw = h →
    h.timeRuns = true →
    h.sys.srcInUse = 2 →
    (∀ x, h.sys.ppsAt = some x → x + 2500000000 ≤ 1000 * h.now) →
    Does (.holdover left) s fun h' => h' = h.sourceLost) ∧
  (∀ (s : State) (h : Hw) (left : Bool) (a : Hw),
    s.hw = h →
    h.timeRuns = true →
    h.sys.srcInUse < 2 →
    (a = if left then h.put (if h.sys.srcInUse = 0 then F.BB_STATUS_PTP0 else F.BB_STATUS_PTP1) 0 else h) →
    Does (.holdover left) s fun h' => h' = a.sourceLost) ∧
  (∀ (s : State) (h : Hw) (left : Bool) (x : Nat),
    s.hw = h →
    h.timeRuns = true →
    h.sys.srcInUse = 2 →
    h.sys.ppsAt = some x →
    1000 * h.now < x + 2500000000 →
    Does (.holdover left) s fun h' => h' = h) ∧
  (∀ (s : State) (h : Hw) (left : Bool),
    s.hw = h →
    (h.sys.srcInUse = 3 ∨ h.timeRuns = false) →
    Does (.holdover left) s fun h' => h' = h) ∧
  (∀ (s : State) (h : Hw) (v : BitVec 64),
    s.hw = h →
    h.hubOn = true →
    h.locked 0x002 = false →
    bits v.toNat 0 2 ≠ h.get F.TIME_SRC_SRC →
    Does (.timeSrcWrite v) s fun h' => h' = { h.put F.TIME_SRC_SRC (bits v.toNat 0 2) with sys := { h.sys with srcAt := some h.now } }) ∧
  (∀ (s : State) (h : Hw) (v : BitVec 64),
    s.hw = h →
    (h.hubOn = false ∨ h.locked 0x002 = true ∨ bits v.toNat 0 2 = h.get F.TIME_SRC_SRC) →
    Does (.timeSrcWrite v) s fun h' => h' = h) ∧
  (∀ (s : State) (h : Hw) (v : BitVec 64),
    s.hw = h →
    h.hubOn = true →
    (h.mode = 2 ∨ h.mode = 4 ∨ h.mode = 5) →
    h.stn.swapAt = none →
    h.sys.step = none →
    (sx 64 v.toNat).natAbs ≤ 2 ^ 62 →
    Does (.timeStep v) s fun h' => h' = { h.put F.TIME_STATUS_STEP_PENDING 1 with sys := { h.sys with step := some (sx 64 v.toNat, h.now) } }) ∧
  (∀ (s : State) (h : Hw) (v : BitVec 64),
    s.hw = h →
    h.hubOn = true →
    (h.stn.swapAt.isSome = true ∨ h.sys.step.isSome = true ∨ 2 ^ 62 < (sx 64 v.toNat).natAbs ∨ (h.mode ≠ 2 ∧ h.mode ≠ 4 ∧ h.mode ≠ 5)) →
    Does (.timeStep v) s fun h' => h' = h.put F.TIME_INT_STATUS_STEP_REFUSED 1) ∧
  (∀ (s : State) (h : Hw) (v : BitVec 64),
    s.hw = h →
    h.hubOn = false →
    Does (.timeStep v) s fun h' => h' = h) ∧
  (∀ (s : State) (h : Hw) (d : Int) (at_ : Nat),
    s.hw = h →
    (h.timeRuns = false ∨ (h.sys.step = some (d, at_) ∧ (h.boundaryDue = false ∨ h.now < at_ + 16))) →
    Does (.timeStepEffect) s fun h' => h' = h) ∧
  (∀ (s : State) (h : Hw) (d : Int) (at_ : Nat) (a b : Hw),
    s.hw = h →
    h.timeRuns = true →
    h.sys.step = some (d, at_) →
    h.boundaryDue = true →
    at_ + 16 ≤ h.now →
    a = { h.budgetStep with sys := { h.budgetStep.sys with step := none } } →
    b = (a.moveTimes d).put F.TIME_COUNT_STROKE_COUNT (moved (d - 1) a.now % 2 ^ 64) →
    Does (.timeStepEffect) s fun h' => h' = ((((b.put F.TIME_STATUS_STEP_PENDING 0).put F.TIME_INT_STATUS_STEP_DONE 1).setBridge).showStencil).refillBuckets) ∧
  (∀ (s : State) (h : Hw),
    s.hw = h →
    h.sys.step = none →
    Does (.timeStepEffect) s fun h' => h' = h) ∧
  (∀ (s : State) (h : Hw) (a : Hw),
    s.hw = h →
    a = { h with sys := { h.sys with refLost := true } } →
    Does (.referenceLoss) s fun h' => h' = a.datumsOn.foldl (fun x d => ((((upto 0 5).foldl (fun x e => x.loseMonitor d e) x).latchOwn d 0x08 none 0).setHold d).driveLoop d) a)

/-- A valid heartbeat between two Datums that run notes the stroke, shows the peer and the cross link as good, latches
a difference of the duplex results, and takes the detected faults that are due. A peer silent for 4 strokes is
lost: PEER_LOST is latched. A monitor message with two failed checks or a silent link loses the link once and
latches MONITOR_LINK; a good message notes the stroke, shows the link and the largest spread, and a spread above 50
ns latches CLOCK. A lockstep mismatch stops the Datum, its loop follows, and only the other Datum learns of it. A
Datum's own reset clears its blocks and its state but for LOCKSTEP_BROKEN. These rows change nothing for a Datum
that does not run. Each clause about a command concludes that exec answers a next state, under conditions on the
state and the operands alone; the constructors covered: heartbeat, peerLost, monitorLinkMessage, monitorLinkLost,
datumLockstepMismatch, datumReset. -/
def Obligations.DatumLinks : Prop :=
  (∀ (s : State) (h : Hw) (d : Fin 2) (valid differ : Bool) (a b : Hw),
    s.hw = h →
    h.datumOn d.val = true →
    h.datumOn (1 - d.val) = true →
    valid = true →
    (a = h.modDatum d.val fun x => { x with peerAt := h.datNow d.val }) →
    b = (a.put (F.DTM_STATUS_PEER_OK.datum d.val) 1).put (F.DTM_LINKS_XLINK_OK.datum d.val) 1 →
    Does (.heartbeat d valid differ) s fun h' => h' = (if differ then b.detect 0x05 none 0 else b).latchDue d.val) ∧
  (∀ (s : State) (h : Hw) (d : Fin 2) (valid differ : Bool),
    s.hw = h →
    (valid = false ∨ h.datumOn d.val = false ∨ h.datumOn (1 - d.val) = false) →
    Does (.heartbeat d valid differ) s fun h' => h' = h) ∧
  (∀ (s : State) (h : Hw) (d : Fin 2),
    s.hw = h →
    h.datumOn d.val = true →
    (h.datum d.val).peerAt + 4 ≤ h.datNow d.val →
    Does (.peerLost d) s fun h' => h' = ((h.put (F.DTM_STATUS_PEER_OK.datum d.val) 0).put (F.DTM_LINKS_XLINK_OK.datum d.val) 0).latchOwn d.val 0x06 none 0) ∧
  (∀ (s : State) (h : Hw) (d : Fin 2),
    s.hw = h →
    (h.datumOn d.val = false ∨ h.datNow d.val < (h.datum d.val).peerAt + 4) →
    Does (.peerLost d) s fun h' => h' = h) ∧
  (∀ (s : State) (h : Hw) (d : Fin 2) (e : Fin 5) (fails : Fin 3) (spread : Fin 256),
    s.hw = h →
    h.datumOn d.val = true →
    (h.datum d.val).linkLost.contains e.val = false →
    fails.val = 2 →
    Does (.monitorLinkMessage d e fails spread) s fun h' => h' = ((h.modDatum d.val fun x => { x with linkLost := NSet.add x.linkLost e.val }).put ((F.DTM_LINKS_MON_OK.bit e.val).datum d.val) 0).latchOwn d.val 0x07
      (some e.val) 0) ∧
  (∀ (s : State) (h : Hw) (d : Fin 2) (e : Fin 5) (fails : Fin 3) (spread : Fin 256) (a b g : Hw),
    s.hw = h →
    h.datumOn d.val = true →
    (h.datum d.val).linkLost.contains e.val = false →
    fails.val ≠ 2 →
    (a = (h.modDatum d.val fun x => { x with linkAt := x.linkAt.put e.val (h.datNow d.val) }).put ((F.DTM_LINKS_MON_OK.bit e.val).datum d.val) 1) →
    (b = if a.get (F.DTM_CLOCK_SPREAD.datum d.val) < spread.val then a.put (F.DTM_CLOCK_SPREAD.datum d.val) spread.val else a) →
    (g = if 50 < spread.val then b.latchOwn d.val 0x08 none 0 else b) →
    Does (.monitorLinkMessage d e fails spread) s fun h' => h' = g.latchDue d.val) ∧
  (∀ (s : State) (h : Hw) (d : Fin 2) (e : Fin 5) (fails : Fin 3) (spread : Fin 256),
    s.hw = h →
    (h.datumOn d.val = false ∨ (h.datum d.val).linkLost.contains e.val = true) →
    Does (.monitorLinkMessage d e fails spread) s fun h' => h' = h) ∧
  (∀ (s : State) (h : Hw) (d : Fin 2) (e : Fin 5) (second : Bool),
    s.hw = h →
    h.datumOn d.val = true →
    (h.datum d.val).linkLost.contains e.val = false →
    (second = true ∨ (h.datum d.val).linkAt.getD 0 e.val + 4 ≤ h.datNow d.val) →
    Does (.monitorLinkLost d e second) s fun h' => h' = ((h.modDatum d.val fun x => { x with linkLost := NSet.add x.linkLost e.val }).put ((F.DTM_LINKS_MON_OK.bit e.val).datum d.val) 0).latchOwn d.val 0x07
      (some e.val) 0) ∧
  (∀ (s : State) (h : Hw) (d : Fin 2) (e : Fin 5) (second : Bool),
    s.hw = h →
    (h.datumOn d.val = false ∨ (h.datum d.val).linkLost.contains e.val = true ∨ (second = false ∧ h.datNow d.val < (h.datum d.val).linkAt.getD 0 e.val + 4)) →
    Does (.monitorLinkLost d e second) s fun h' => h' = h) ∧
  (∀ (s : State) (h : Hw) (d : Fin 2),
    s.hw = h →
    (h.datumOn d.val = false ∨ h.on (F.DTM_STATUS_LOCKSTEP_BROKEN.datum d.val) = true) →
    Does (.datumLockstepMismatch d) s fun h' => h' = h) ∧
  (∀ (s : State) (h : Hw) (d : Fin 2),
    s.hw = h →
    (h.datum d.val).stopped = true →
    Does (.datumReset d) s fun h' => h' = h) ∧
  (∀ (s : State) (h : Hw) (d : Fin 2) (a : Hw),
    s.hw = h →
    h.datumOn d.val = true →
    h.on (F.DTM_STATUS_LOCKSTEP_BROKEN.datum d.val) = false →
    (a = (h.modDatum d.val fun x => { x with stopped := true }).driveLoop d.val) →
    Does (.datumLockstepMismatch d) s fun h' => h' = { a with detected := a.detected ++ [{ code := 0x01, die := none, pid := 0, atStroke := a.datNow d.val, toA := d.val = 1, toB := d.val = 0 }] }) ∧
  (∀ (s : State) (h : Hw) (d : Fin 2) (a : Hw),
    s.hw = h →
    (h.datum d.val).stopped = false →
    a = ((h.resetBlocks (0x780 + 8 * d.val) (0x780 + 8 * d.val)).resetBlocks (0x790 + 8 * d.val) (0x790 + 8 * d.val)).put
      (F.DTM_STATUS_LOCKSTEP_BROKEN.datum d.val) (b2n (h.on (F.DTM_STATUS_LOCKSTEP_BROKEN.datum d.val))) →
    Does (.datumReset d) s fun h' => h' = a.modDatum d.val fun _ => { Datum.reset with loopOff := true, time := a.now, levelAt := a.now, peerAt := a.now })

/-- OUT_VALID_EVALUATION of a Datum that runs shows the length error of the stroke, latches the faults that are due,
latches CLOCK beyond 200 ppm, and lets restart, hold and loop follow; the loop of one that does not run follows
alone. LOOP_READBACK shows whether the loop reads ACTIVE; after the stroke of the last command a readback that
agrees with the level clears the count of differences, one that differs counts, and the second latches the loop
fault. A status record that is due is noted with its key and number, sent on CAN XL when the output stage has its
supply and the channel can transmit, and relayed on the backbone when the hub runs and the monitor link is up. A
checker test shows row and result and completes the rotation at nine; a failure raises its event and latches
CHECKER. Each clause about a command concludes that exec answers a next state, under conditions on the state and
the operands alone; the constructors covered: outValidEvaluation, loopReadback, statusRecordSend, checkerTest. -/
def Obligations.DatumOutputs : Prop :=
  (∀ (s : State) (h : Hw) (d : Fin 2) (ppm : BitVec 16) (a b : Hw),
    s.hw = h →
    h.datumOn d.val = true →
    a = (h.put (F.DTM_CLOCK_PPM.datum d.val) ppm.toNat).latchDue d.val →
    (b = if ppm.toInt < -2000 ∨ 2000 < ppm.toInt then a.latchOwn d.val 0x08 none 0 else a) →
    Does (.outValidEvaluation d ppm) s fun h' => h' = ((b.startRestart d.val).setHold d.val).driveLoop d.val) ∧
  (∀ (s : State) (h : Hw) (d : Fin 2) (ppm : BitVec 16),
    s.hw = h →
    h.datumOn d.val = false →
    Does (.outValidEvaluation d ppm) s fun h' => h' = h.driveLoop d.val) ∧
  (∀ (s : State) (h : Hw) (d : Fin 2) (ip in_ mv : Fin 65536) (n : Bool) (a : Hw),
    s.hw = h →
    h.datumOn d.val = true →
    n = (decide (ip.val ≤ in_.val + 2000) && decide (in_.val ≤ ip.val + 2000) && decide (100 * ip.val ≤ 1000 * mv.val) &&
      decide (1000 * mv.val ≤ 400 * ip.val)) →
    a = h.put (F.DTM_STATUS_LOOP_READ.datum d.val) (b2n (decide (18000 ≤ ip.val) && decide (ip.val ≤ 22000) && n)) →
    a.datNow d.val ≤ (h.datum d.val).levelAt →
    Does (.loopReadback d ip in_ mv) s fun h' => h' = a) ∧
  (∀ (s : State) (h : Hw) (d : Fin 2) (ip in_ mv : Fin 65536) (n e : Bool) (a b : Hw),
    s.hw = h →
    h.datumOn d.val = true →
    n = (decide (ip.val ≤ in_.val + 2000) && decide (in_.val ≤ ip.val + 2000) && decide (100 * ip.val ≤ 1000 * mv.val) &&
      decide (1000 * mv.val ≤ 400 * ip.val)) →
    a = h.put (F.DTM_STATUS_LOOP_READ.datum d.val) (b2n (decide (18000 ≤ ip.val) && decide (ip.val ≤ 22000) && n)) →
    (h.datum d.val).levelAt < a.datNow d.val →
    (e = if (h.datum d.val).level = 2 then decide (18000 ≤ ip.val) && decide (ip.val ≤ 22000) && n
      else if (h.datum d.val).level = 1 then decide (6000 ≤ ip.val) && decide (ip.val ≤ 10000) && n
      else decide (ip.val < 500) && decide (in_.val < 500)) →
    (b = a.modDatum d.val fun x => { x with differs := x.differs + 1 }) →
    Does (.loopReadback d ip in_ mv) s fun h' => h' = if e then a.modDatum d.val fun x => { x with differs := 0 }
      else if 1 ≤ (h.datum d.val).differs then (b.latchOwn d.val 0x09 none 0).driveLoop d.val else b) ∧
  (∀ (s : State) (h : Hw) (d : Fin 2) (ip in_ mv : Fin 65536),
    s.hw = h →
    h.datumOn d.val = false →
    Does (.loopReadback d ip in_ mv) s fun h' => h' = h) ∧
  (∀ (s : State) (h : Hw) (src : Fin 3) (r : List Byte) (a b : Hw),
    s.hw = h →
    src.val < 2 →
    h.datumOn src.val = true →
    h.sys.frozenAt = none →
    r = h.datumRecord src.val →
    recordDue (h.datNow src.val) (recordKey r) (h.datum src.val).sentKey (h.datum src.val).sentAt = true →
    (a = h.modDatum src.val fun x => { x with sentKey := recordKey r, sentAt := some (h.datNow src.val), sentCount := x.sentCount + 1, lastRec := r }) →
    (b = if a.safeOut && decide (a.sys.can.getD 0 src.val ≤ 1) then { a with outs := a.outs ++
      [.can src.val (a.cfg.can.getD src.val default).priorityId (a.cfg.can.getD src.val default).sdu (a.cfg.can.getD src.val default).accept r] } else a) →
    Does (.statusRecordSend src) s fun h' => h' = if (! (h.datum src.val).linkLost.contains 4 && b.hubOn) = true then b.sendBb r else b) ∧
  (∀ (s : State) (h : Hw) (src : Fin 3) (r : List Byte),
    s.hw = h →
    src.val = 2 →
    h.hubOn = true →
    h.sys.frozenAt = none →
    r = h.hubRecord →
    recordDue h.now (recordKey r) h.trv.hubKey h.trv.hubSentAt = true →
    Does (.statusRecordSend src) s fun h' => h' = ({ h with trv := { h.trv with hubKey := recordKey r, hubSentAt := some h.now, hubCount := h.trv.hubCount + 1 } } : Hw).sendBb r) ∧
  (∀ (s : State) (h : Hw) (src : Fin 3),
    s.hw = h →
    src.val < 2 →
    (h.datumOn src.val = false ∨ h.sys.frozenAt.isSome = true ∨ recordDue (h.datNow src.val) (recordKey (h.datumRecord src.val)) (h.datum src.val).sentKey (h.datum src.val).sentAt = false) →
    Does (.statusRecordSend src) s fun h' => h' = h) ∧
  (∀ (s : State) (h : Hw) (src : Fin 3),
    s.hw = h →
    src.val = 2 →
    (h.hubOn = false ∨ h.sys.frozenAt.isSome = true ∨ recordDue h.now (recordKey h.hubRecord) h.trv.hubKey h.trv.hubSentAt = false) →
    Does (.statusRecordSend src) s fun h' => h' = h) ∧
  (∀ (s : State) (h : Hw) (d : Fin 2) (row : Fin 9) (die : Option (Fin 4)) (pass : Bool) (a b : Hw) (t : NSet),
    s.hw = h →
    h.datumOn d.val = true →
    a = (h.put (F.DTM_SELFTEST_CHECKER.datum d.val) row.val).put (F.DTM_SELFTEST_RESULT.datum d.val) (if pass then 1 else 2) →
    t = NSet.add (a.datum d.val).tested row.val →
    (b = if t.length = 9 then (a.put (F.DTM_SELFTEST_ROTATION_AT.datum d.val) (a.datNow d.val % 2 ^ 32)).modDatum d.val (fun x => { x with tested := [] })
      else a.modDatum d.val fun x => { x with tested := t }) →
    Does (.checkerTest d row die pass) s fun h' => h' = if pass then b else
      ((b.put (F.DTM_INT_STATUS_CHECKER_FAIL.datum d.val) 1).event (srcDatum d.val) 0x0405 0 row.val).latchOwn d.val 0x0E (die.map (·.val)) 0) ∧
  (∀ (s : State) (h : Hw) (d : Fin 2) (row : Fin 9) (die : Option (Fin 4)) (pass : Bool),
    s.hw = h →
    h.datumOn d.val = false →
    Does (.checkerTest d row die pass) s fun h' => h' = h)

/-- APC_SLICE_END makes a hart run the partition whose slice covers the stroke, with what its switch begins, or stop
when there is none; a hart that already does so is unchanged. A guest's write of vstimecmp sets its timer and
forgets what was due; a timer that is due is taken while the partition runs on the hart and else kept as due. A
memory request of a partition that runs on the hart: a page that fails is recorded and handed to the guest;
registers are refused with their event, and what is no memory takes no request; one that its cluster serves is
served there; without 64 bytes of the cluster's budget it waits; else it takes 64 bytes, other clusters' changed
lines come back, and a hit in the system cache is performed, while a miss waits in a QUIET window and without DRAM
tokens and else is performed. A request of a hart that runs nothing changes nothing. Each clause about a command
concludes that exec answers a next state, under conditions on the state and the operands alone; the constructors
covered: apcSliceEnd, guestTimer, apcMemoryRequest. -/
def Obligations.ApplicationCores : Prop :=
  (∀ (s : State) (h : Hw) (hart : Fin 32) (pid : Nat),
    s.hw = h →
    h.hartOn hart.val = true →
    h.sliceOwner hart.val = some pid →
    h.sys.apc.running.find hart.val ≠ some pid →
    Does (.apcSliceEnd hart) s fun h' => h' = h.modApc fun a => a.runOn hart.val pid h.now) ∧
  (∀ (s : State) (h : Hw) (hart : Fin 32),
    s.hw = h →
    (h.hartOn hart.val = false ∨ h.sliceOwner hart.val = none) →
    (h.sys.apc.running.find hart.val).isSome = true →
    Does (.apcSliceEnd hart) s fun h' => h' = h.modApc fun a => a.stop hart.val) ∧
  (∀ (s : State) (h : Hw) (hart : Fin 32),
    s.hw = h →
    (h.sys.apc.running.find hart.val = if h.hartOn hart.val then h.sliceOwner hart.val else none) →
    Does (.apcSliceEnd hart) s fun h' => h' = h) ∧
  (∀ (s : State) (h : Hw) (pid : Fin 256) (hart : Fin 32) (cmp : Option (BitVec 64)) (ns10 : Fin 100) (v : BitVec 64),
    s.hw = h →
    h.onHart pid.val hart.val = true →
    cmp = some v →
    h.csrTime ns10.val < v.toNat →
    Does (.guestTimer pid hart cmp ns10) s fun h' => h' = h.modApc fun a => { a with timers := a.timers.put (timerKey pid.val hart.val) v.toNat, timerDue := a.timerDue.filter (· ≠ timerKey pid.val hart.val), timerTaken := a.timerTaken.filter (· ≠ timerKey pid.val hart.val) }) ∧
  (∀ (s : State) (h : Hw) (pid : Fin 256) (hart : Fin 32) (cmp : Option (BitVec 64)) (ns10 : Fin 100) (v : Nat),
    s.hw = h →
    h.onHart pid.val hart.val = true →
    cmp = none →
    h.sys.apc.timers.find (timerKey pid.val hart.val) = some v →
    v ≤ h.csrTime ns10.val →
    h.sys.apc.timerTaken.contains (timerKey pid.val hart.val) = false →
    Does (.guestTimer pid hart cmp ns10) s fun h' => h' = h.modApc fun a => if h.runsOn pid.val hart.val then { a with timerTaken := NSet.add a.timerTaken (timerKey pid.val hart.val) }
      else { a with timerDue := NSet.add a.timerDue (timerKey pid.val hart.val) }) ∧
  (∀ (s : State) (h : Hw) (pid : Fin 256) (hart : Fin 32) (cmp : Option (BitVec 64)) (ns10 : Fin 100),
    s.hw = h →
    h.onHart pid.val hart.val = true →
    cmp = none →
    (∀ v, h.sys.apc.timers.find (timerKey pid.val hart.val) = some v → h.csrTime ns10.val < v ∨ h.sys.apc.timerTaken.contains (timerKey pid.val hart.val) = true) →
    Does (.guestTimer pid hart cmp ns10) s fun h' => h' = h) ∧
  (∀ (s : State) (h : Hw) (pid : Fin 256) (hart : Fin 32) (cmp : Option (BitVec 64)) (ns10 : Fin 100) (v : BitVec 64) (a : Hw),
    s.hw = h →
    h.onHart pid.val hart.val = true →
    cmp = some v →
    v.toNat ≤ h.csrTime ns10.val →
    (a = h.modApc fun a => { a with timers := a.timers.put (timerKey pid.val hart.val) v.toNat, timerDue := a.timerDue.filter (· ≠ timerKey pid.val hart.val), timerTaken := a.timerTaken.filter (· ≠ timerKey pid.val hart.val) }) →
    Does (.guestTimer pid hart cmp ns10) s fun h' => h' = a.modApc fun x => if a.runsOn pid.val hart.val then { x with timerTaken := NSet.add x.timerTaken (timerKey pid.val hart.val) }
      else { x with timerDue := NSet.add x.timerDue (timerKey pid.val hart.val) }) ∧
  (∀ (s : State) (h : Hw) (pid : Fin 256) (hart : Fin 32) (cmp : Option (BitVec 64)) (ns10 : Fin 100),
    s.hw = h →
    h.onHart pid.val hart.val = false →
    Does (.guestTimer pid hart cmp ns10) s fun h' => h' = h) ∧
  (∀ (s : State) (h : Hw) (o : ApcOp) (pid : Nat) (r : ApcReq) (a e : Nat),
    s.hw = h →
    h.sys.apc.running.find o.hart.val = some pid →
    h.runsOn pid o.hart.val = true →
    r = { pid := pid, hart := o.hart.val, kind := o.kind.val, va := o.va.toNat, data := o.data.take 64, hit := o.hit, nc := false, ps := [], paid := false } →
    h.mem.translateRun pid (apcSpan o).1 (apcSpan o).2 r.acs false = .error (a, e) →
    Does (.apcMemoryRequest o) s fun h' => h' = (h.translationFault 3 e pid a).guestFault r r.pageCause) ∧
  (∀ (s : State) (h : Hw) (o : ApcOp) (pid : Nat) (r : ApcReq) (ps : List (Nat × Nat)),
    s.hw = h →
    h.sys.apc.running.find o.hart.val = some pid →
    h.runsOn pid o.hart.val = true →
    r = { pid := pid, hart := o.hart.val, kind := o.kind.val, va := o.va.toNat, data := o.data.take 64, hit := o.hit, nc := false, ps := [], paid := false } →
    h.mem.translateRun pid (apcSpan o).1 (apcSpan o).2 r.acs false = .ok ps →
    (ps.any (fun x => h.region x.1 == .regs) = true) →
    Does (.apcMemoryRequest o) s fun h' => h' = h.event srcFw 0x0805 pid (((ps.map (·.1)).headD 0 - 0x0400_0000_0000) / 65536)) ∧
  (∀ (s : State) (h : Hw) (o : ApcOp) (pid : Nat) (r : ApcReq) (ps : List (Nat × Nat)),
    s.hw = h →
    h.sys.apc.running.find o.hart.val = some pid →
    h.runsOn pid o.hart.val = true →
    r = { pid := pid, hart := o.hart.val, kind := o.kind.val, va := o.va.toNat, data := o.data.take 64, hit := o.hit, nc := false, ps := [], paid := false } →
    h.mem.translateRun pid (apcSpan o).1 (apcSpan o).2 r.acs false = .ok ps →
    (ps.any (fun x => h.region x.1 == .regs) = false) →
    h.allMemory ps = false →
    Does (.apcMemoryRequest o) s fun h' => h' = h) ∧
  (∀ (s : State) (h : Hw) (o : ApcOp) (pid : Nat) (r : ApcReq) (ps : List (Nat × Nat)),
    s.hw = h →
    h.sys.apc.running.find o.hart.val = some pid →
    h.runsOn pid o.hart.val = true →
    r = { pid := pid, hart := o.hart.val, kind := o.kind.val, va := o.va.toNat, data := o.data.take 64, hit := o.hit, nc := h.uncached pid o.va.toNat ps, ps := ps, paid := false } →
    h.mem.translateRun pid (apcSpan o).1 (apcSpan o).2 r.acs false = .ok ps →
    (ps.any (fun x => h.region x.1 == .regs) = false) →
    h.allMemory ps = true →
    h.inCluster r = true →
    Does (.apcMemoryRequest o) s fun h' => h' = h.apcLocal r) ∧
  (∀ (s : State) (h : Hw) (o : ApcOp) (pid : Nat) (r : ApcReq) (ps : List (Nat × Nat)),
    s.hw = h →
    h.sys.apc.running.find o.hart.val = some pid →
    h.runsOn pid o.hart.val = true →
    r = { pid := pid, hart := o.hart.val, kind := o.kind.val, va := o.va.toNat, data := o.data.take 64, hit := o.hit, nc := h.uncached pid o.va.toNat ps, ps := ps, paid := false } →
    h.mem.translateRun pid (apcSpan o).1 (apcSpan o).2 r.acs false = .ok ps →
    (ps.any (fun x => h.region x.1 == .regs) = false) →
    h.allMemory ps = true →
    h.inCluster r = false →
    h.stn.apcBytes.getD 0 (o.hart.val / 8 * 256 + pid) < 64 →
    Does (.apcMemoryRequest o) s fun h' => h' = (h.noteExhausted pid 3).apcWait r) ∧
  (∀ (s : State) (h : Hw) (o : ApcOp) (pid : Nat) (r : ApcReq) (ps : List (Nat × Nat)) (n : Nat) (f g : Hw),
    s.hw = h →
    h.sys.apc.running.find o.hart.val = some pid →
    h.runsOn pid o.hart.val = true →
    r = { pid := pid, hart := o.hart.val, kind := o.kind.val, va := o.va.toNat, data := o.data.take 64, hit := o.hit, nc := h.uncached pid o.va.toNat ps, ps := ps, paid := false } →
    h.mem.translateRun pid (apcSpan o).1 (apcSpan o).2 r.acs false = .ok ps →
    (ps.any (fun x => h.region x.1 == .regs) = false) →
    h.allMemory ps = true →
    h.inCluster r = false →
    n = h.stn.apcBytes.getD 0 (o.hart.val / 8 * 256 + pid) →
    64 ≤ n →
    f = { h with stn := { h.stn with apcBytes := h.stn.apcBytes.putD 0 (o.hart.val / 8 * 256 + pid) (n - 64) } } →
    (g = if r.nc || decide (r.kind = 1 ∨ r.kind = 8) then f else f.snoop r.dpa) →
    g.misses { r with paid := true } = false →
    Does (.apcMemoryRequest o) s fun h' => h' = g.apcPerform { r with paid := true }) ∧
  (∀ (s : State) (h : Hw) (o : ApcOp) (pid : Nat) (r : ApcReq) (ps : List (Nat × Nat)) (n : Nat) (f g : Hw),
    s.hw = h →
    h.sys.apc.running.find o.hart.val = some pid →
    h.runsOn pid o.hart.val = true →
    r = { pid := pid, hart := o.hart.val, kind := o.kind.val, va := o.va.toNat, data := o.data.take 64, hit := o.hit, nc := h.uncached pid o.va.toNat ps, ps := ps, paid := false } →
    h.mem.translateRun pid (apcSpan o).1 (apcSpan o).2 r.acs false = .ok ps →
    (ps.any (fun x => h.region x.1 == .regs) = false) →
    h.allMemory ps = true →
    h.inCluster r = false →
    n = h.stn.apcBytes.getD 0 (o.hart.val / 8 * 256 + pid) →
    64 ≤ n →
    f = { h with stn := { h.stn with apcBytes := h.stn.apcBytes.putD 0 (o.hart.val / 8 * 256 + pid) (n - 64) } } →
    (g = if r.nc || decide (r.kind = 1 ∨ r.kind = 8) then f else f.snoop r.dpa) →
    g.misses { r with paid := true } = true →
    ((g.quiet && ps.any fun p => g.region p.1 == .dram) = true) →
    Does (.apcMemoryRequest o) s fun h' => h' = g.apcWait { r with paid := true }) ∧
  (∀ (s : State) (h : Hw) (o : ApcOp) (pid : Nat) (r : ApcReq) (ps : List (Nat × Nat)) (n : Nat) (f g : Hw),
    s.hw = h →
    h.sys.apc.running.find o.hart.val = some pid →
    h.runsOn pid o.hart.val = true →
    r = { pid := pid, hart := o.hart.val, kind := o.kind.val, va := o.va.toNat, data := o.data.take 64, hit := o.hit, nc := h.uncached pid o.va.toNat ps, ps := ps, paid := false } →
    h.mem.translateRun pid (apcSpan o).1 (apcSpan o).2 r.acs false = .ok ps →
    (ps.any (fun x => h.region x.1 == .regs) = false) →
    h.allMemory ps = true →
    h.inCluster r = false →
    n = h.stn.apcBytes.getD 0 (o.hart.val / 8 * 256 + pid) →
    64 ≤ n →
    f = { h with stn := { h.stn with apcBytes := h.stn.apcBytes.putD 0 (o.hart.val / 8 * 256 + pid) (n - 64) } } →
    (g = if r.nc || decide (r.kind = 1 ∨ r.kind = 8) then f else f.snoop r.dpa) →
    g.misses { r with paid := true } = true →
    ((g.quiet && ps.any fun p => g.region p.1 == .dram) = false) →
    (g.chargeDram pid ps (r.acs == .wr && decide (r.kind ≠ 6 ∧ r.kind ≠ 7) || decide (10 ≤ r.kind)) = none) →
    Does (.apcMemoryRequest o) s fun h' => h' = (g.noteExhausted pid 0).apcWait { r with paid := true }) ∧
  (∀ (s : State) (h : Hw) (o : ApcOp) (pid : Nat) (r : ApcReq) (ps : List (Nat × Nat)) (k : Hw) (n : Nat) (f g : Hw),
    s.hw = h →
    h.sys.apc.running.find o.hart.val = some pid →
    h.runsOn pid o.hart.val = true →
    r = { pid := pid, hart := o.hart.val, kind := o.kind.val, va := o.va.toNat, data := o.data.take 64, hit := o.hit, nc := h.uncached pid o.va.toNat ps, ps := ps, paid := false } →
    h.mem.translateRun pid (apcSpan o).1 (apcSpan o).2 r.acs false = .ok ps →
    (ps.any (fun x => h.region x.1 == .regs) = false) →
    h.allMemory ps = true →
    h.inCluster r = false →
    n = h.stn.apcBytes.getD 0 (o.hart.val / 8 * 256 + pid) →
    64 ≤ n →
    f = { h with stn := { h.stn with apcBytes := h.stn.apcBytes.putD 0 (o.hart.val / 8 * 256 + pid) (n - 64) } } →
    (g = if r.nc || decide (r.kind = 1 ∨ r.kind = 8) then f else f.snoop r.dpa) →
    g.misses { r with paid := true } = true →
    ((g.quiet && ps.any fun p => g.region p.1 == .dram) = false) →
    (g.chargeDram pid ps (r.acs == .wr && decide (r.kind ≠ 6 ∧ r.kind ≠ 7) || decide (10 ≤ r.kind)) = some k) →
    Does (.apcMemoryRequest o) s fun h' => h' = k.apcPerform { r with paid := true }) ∧
  (∀ (s : State) (h : Hw) (o : ApcOp),
    s.hw = h →
    (∀ p, h.sys.apc.running.find o.hart.val = some p → h.runsOn p o.hart.val = false) →
    Does (.apcMemoryRequest o) s fun h' => h' = h)

/-- EVENT_RECORD_WRITE above PARKED with the hub on, once in a stroke, notes the stroke, stages what was lost and
writes up to 16 records; the first one with a valid ring that is not full goes to the slot of EVT_TAIL with the
next sequence number, its source's lost count and the pass, and advances tail and sequence number; a record whose
page fails makes the ring invalid with FAULT, a full ring with something to write shows RING_FULL, and an invalid
ring or nothing to write changes nothing more. Entries that have waited 2^39 strokes are dropped and counted as
lost. A write of EVT_HEAD frees slots and clears RING_FULL when the ring is no longer full. HEALTH_UPDATE, once in
each 2^20 strokes from STANDBY on, judges the 1,280 parts and writes the sheet with its header and the stroke. Each
clause about a command concludes that exec answers a next state, under conditions on the state and the operands
alone; the constructors covered: eventRecordWrite, eventEntryExpiry, evtHeadWrite, healthUpdate. -/
def Obligations.EventsAndHealth : Prop :=
  (∀ (s : State) (h : Hw) (a : Hw),
    s.hw = h →
    1 < h.mode →
    h.hubOn = true →
    h.evt.wroteAt ≠ some h.now →
    a = ({ h with evt := { h.evt with wroteAt := some h.now } } : Hw).stageLost →
    Does (.eventRecordWrite) s fun h' => h' = a.writeRecords16 16) ∧
  (∀ (s : State) (h : Hw),
    s.hw = h →
    (h.mode ≤ 1 ∨ h.hubOn = false ∨ h.evt.wroteAt = some h.now) →
    Does (.eventRecordWrite) s fun h' => h' = h) ∧
  (∀ (h k a : Hw) (n src tail : Nat) (e : EvtEntry) (es : List EvtEntry),
    h.on F.EVT_STATUS_RING_VALID = true → h.ringFull = false → h.evt.nextSource = some src → h.evt.staged.getD [] src = e :: es →
    tail = h.get F.EVT_TAIL_TAIL →
    h.writeVa 2 0 (h.get F.EVT_RING_BASE * 64 + 64 * (tail % 2 ^ h.get F.EVT_RING_LOG2_SIZE))
      (e.record src ((h.get F.EVT_SEQ_SEQ + 1) % 2 ^ 32) (h.evt.lost.getD 0 src) (phaseOf tail (2 ^ h.get F.EVT_RING_LOG2_SIZE))
        h.now) false = (none, k) →
    h.writeRecord = some a →
    a.get F.EVT_TAIL_TAIL = (k.get F.EVT_TAIL_TAIL + 1) % 2 ^ 32 ∧ a.get F.EVT_SEQ_SEQ = (h.get F.EVT_SEQ_SEQ + 1) % 2 ^ 32 ∧
      a.mem = k.mem ∧ a.evt.lastServed = src ∧ h.writeRecords16 (n + 1) = a.writeRecords16 n) ∧
  (∀ (h : Hw) (n : Nat),
    (h.on F.EVT_STATUS_RING_VALID = false → h.writeRecords16 n = h) ∧
    (h.on F.EVT_STATUS_RING_VALID = true → h.ringFull = false → h.evt.nextSource = none → h.writeRecords16 n = h) ∧
    (h.on F.EVT_STATUS_RING_VALID = true → h.ringFull = true → h.writeRecords16 (n + 1) =
      if h.evt.nextSource.isSome = true then (h.put F.EVT_STATUS_RING_FULL 1).put F.EVT_INT_STATUS_RING_FULL 1 else h)) ∧
  (∀ (h k : Hw) (n src tail : Nat) (e : EvtEntry) (es : List EvtEntry) (x : Nat × Nat),
    h.on F.EVT_STATUS_RING_VALID = true → h.ringFull = false → h.evt.nextSource = some src → h.evt.staged.getD [] src = e :: es →
    tail = h.get F.EVT_TAIL_TAIL →
    h.writeVa 2 0 (h.get F.EVT_RING_BASE * 64 + 64 * (tail % 2 ^ h.get F.EVT_RING_LOG2_SIZE))
      (e.record src ((h.get F.EVT_SEQ_SEQ + 1) % 2 ^ 32) (h.evt.lost.getD 0 src) (phaseOf tail (2 ^ h.get F.EVT_RING_LOG2_SIZE))
        h.now) false = (some x, k) →
    h.writeRecords16 (n + 1) =
      (((k.put F.EVT_STATUS_FAULT 1).put F.EVT_STATUS_RING_VALID 0).put F.EVT_INT_STATUS_RING_FAULT 1).writeRecords16 n) ∧
  (∀ (s : State) (h : Hw),
    s.hw = h →
    Does (.eventEntryExpiry) s fun h' => h' = h.evt.staged.foldl (fun x e =>
      if (e.2.filter fun y => decide (y.firstAt + 2 ^ 39 ≤ x.now)).isEmpty then x
      else (({ x with evt := { x.evt with staged := SMap.putD [] x.evt.staged e.1 (e.2.filter fun y => ! decide (y.firstAt + 2 ^ 39 ≤ x.now)) } } : Hw).put F.EVT_STAGED_ENTRIES
        ({ x with evt := { x.evt with staged := SMap.putD [] x.evt.staged e.1 (e.2.filter fun y => ! decide (y.firstAt + 2 ^ 39 ≤ x.now)) } } : Hw).countStaged).loseEvents e.1
        (e.2.filter fun y => decide (y.firstAt + 2 ^ 39 ≤ x.now)).length) h) ∧
  (∀ (s : State) (h : Hw) (a : SMap (List EvtEntry)),
    s.hw = h →
    a = h.evt.staged →
    a = [] →
    Does (.eventEntryExpiry) s fun h' => h' = h) ∧
  (∀ (s : State) (h : Hw) (n : Nat) (es kept : List EvtEntry) (a : Hw),
    s.hw = h →
    h.evt.staged = [(n, es)] →
    (kept = es.filter fun x => ! decide (x.firstAt + 2 ^ 39 ≤ h.now)) →
    kept.length < es.length →
    a = { h with evt := { h.evt with staged := SMap.putD [] h.evt.staged n kept } } →
    Does (.eventEntryExpiry) s fun h' => h' = (a.put F.EVT_STAGED_ENTRIES a.countStaged).loseEvents n (es.length - kept.length)) ∧
  (∀ (s : State) (h : Hw) (v : BitVec 64) (a : Hw),
    s.hw = h →
    h.hubOn = true →
    a = h.put F.EVT_HEAD_HEAD (v.toNat % 2 ^ 32) →
    Does (.evtHeadWrite v) s fun h' => h' = if (a.on F.EVT_STATUS_RING_FULL && ! a.ringFull) = true then a.put F.EVT_STATUS_RING_FULL 0 else a) ∧
  (∀ (s : State) (h : Hw) (a : Hw) (x : SMap Nat),
    s.hw = h →
    2 ≤ h.mode →
    h.hubOn = true →
    h.healthAt / 2 ^ 20 < h.now / 2 ^ 20 →
    (a = (List.range 1280).foldl (fun y p => y.judgePart p) h) →
    (x = h.sheetHeader.foldl (fun m e => m.put e.1 e.2) ((List.range 1280).foldl (fun m p => SMap.putD 1000 m p (h.sheetWord p)) [])) →
    Does (.healthUpdate) s fun h' => h' = { a with scores := x, healthAt := a.now }) ∧
  (∀ (s : State) (h : Hw),
    s.hw = h →
    (h.now / 2 ^ 20 ≤ h.healthAt / 2 ^ 20 ∨ h.mode < 2 ∨ h.hubOn = false) →
    Does (.healthUpdate) s fun h' => h' = h) ∧
  (∀ (s : State) (h : Hw) (v : BitVec 64),
    s.hw = h →
    h.hubOn = false →
    Does (.evtHeadWrite v) s fun h' => h' = h)

/-- With the hub on, an aligned 8-byte write of PID 0 to a register of a block that can be reached leaves in the
register each field under its access code, with what the register does beyond it; MOD_INT_EOI, TIME_SRC and
TIME_STEP act as their writes do, the scratch size does not change while a page of it is mapped, and a block that
cannot be reached takes no write. A write by another PID, of another size or unaligned is refused with its event. A
write of MOD_INT_EOI without bit 0 changes nothing; with it and nothing pending INSVC clears, else the vector is
raised again. PWR_EN follows the write of the owner and the camera switch follows it, or enters its fault state
when the conductor lies above the rail. With the hub off nothing changes. Each clause about a command concludes
that exec answers a next state, under conditions on the state and the operands alone; the constructors covered:
registerWrite, modIntEoi, pwrEnWrite. -/
def Obligations.RegisterAccess : Prop :=
  (∀ (s : State) (h : Hw) (w : RegWrite) (r : RegSpec),
    s.hw = h →
    h.hubOn = true →
    w.pid.val = 0 →
    w.whole = true →
    w.off.toNat % 8 = 0 →
    h.blockOn w.block.toNat = true →
    regSpec? w.block.toNat w.off.toNat = some r →
    (w.block.toNat = 0x010 ∨ w.block.toNat = 0x640 ∨ w.block.toNat = 0x648) →
    Does (.registerWrite w) s fun h' => h' = h.setReg w.block.toNat w.off.toNat (r.written (h.locked w.block.toNat) (h.reg w.block.toNat w.off.toNat) w.value.toNat)) ∧
  (∀ (s : State) (h : Hw) (w : RegWrite),
    s.hw = h →
    h.hubOn = true →
    w.pid.val = 0 →
    w.whole = true →
    w.off.toNat % 8 = 0 →
    h.blockOn w.block.toNat = true →
    (¬(w.block.toNat = 0x000 ∧ w.off.toNat = 0x50)) →
    (¬(w.block.toNat = 0x002 ∧ (w.off.toNat = 0x10 ∨ w.off.toNat = 0x30))) →
    (¬(w.block.toNat = 0x018 ∧ w.off.toNat = 0x10 ∧ h.scratchMapped = true)) →
    Does (.registerWrite w) s fun h' => h' = h.afterWrite w.block.toNat w.off.toNat (h.writeFields w.block.toNat w.off.toNat w.value.toNat)) ∧
  (∀ (s : State) (h : Hw) (w : RegWrite),
    s.hw = h →
    h.hubOn = true →
    w.pid.val = 0 →
    w.whole = true →
    w.off.toNat % 8 = 0 →
    h.blockOn w.block.toNat = true →
    w.block.toNat = 0x000 →
    w.off.toNat = 0x50 →
    Does (.registerWrite w) s fun h' => h' = h.writeEoi w.value.toNat) ∧
  (∀ (s : State) (h : Hw) (w : RegWrite),
    s.hw = h →
    h.hubOn = true →
    w.pid.val = 0 →
    w.whole = true →
    w.off.toNat % 8 = 0 →
    h.blockOn w.block.toNat = true →
    w.block.toNat = 0x002 →
    w.off.toNat = 0x10 →
    Does (.registerWrite w) s fun h' => h' = h.writeSrc w.value.toNat) ∧
  (∀ (s : State) (h : Hw) (w : RegWrite),
    s.hw = h →
    h.hubOn = true →
    w.pid.val = 0 →
    w.whole = true →
    w.off.toNat % 8 = 0 →
    h.blockOn w.block.toNat = true →
    w.block.toNat = 0x002 →
    w.off.toNat = 0x30 →
    Does (.registerWrite w) s fun h' => h' = h.writeStep w.value.toNat) ∧
  (∀ (s : State) (h : Hw) (w : RegWrite),
    s.hw = h →
    h.hubOn = true →
    w.pid.val = 0 →
    w.whole = true →
    w.off.toNat % 8 = 0 →
    h.blockOn w.block.toNat = true →
    w.block.toNat = 0x018 →
    w.off.toNat = 0x10 →
    h.scratchMapped = true →
    Does (.registerWrite w) s fun h' => h' = h) ∧
  (∀ (s : State) (h : Hw) (w : RegWrite),
    s.hw = h →
    h.hubOn = true →
    w.pid.val = 0 →
    w.whole = true →
    w.off.toNat % 8 = 0 →
    h.blockOn w.block.toNat = false →
    Does (.registerWrite w) s fun h' => h' = h) ∧
  (∀ (s : State) (h : Hw) (w : RegWrite),
    s.hw = h →
    h.hubOn = true →
    (w.pid.val ≠ 0 ∨ w.whole = false ∨ w.off.toNat % 8 ≠ 0) →
    Does (.registerWrite w) s fun h' => h' = h.event srcFw 0x0805 w.pid.val w.block.toNat) ∧
  (∀ (s : State) (h : Hw) (w : RegWrite),
    s.hw = h →
    h.hubOn = false →
    Does (.registerWrite w) s fun h' => h' = h) ∧
  (∀ (s : State) (h : Hw) (v : BitVec 64),
    s.hw = h →
    h.hubOn = true →
    bit v.toNat 0 = true →
    h.summary = false →
    Does (.modIntEoi v) s fun h' => h' = h.put F.MOD_INT_VECTOR_INSVC 0) ∧
  (∀ (s : State) (h : Hw) (v : BitVec 64),
    s.hw = h →
    h.hubOn = true →
    bit v.toNat 0 = true →
    h.summary = true →
    h.get F.MOD_INT_VECTOR_VECTOR ≠ 0 →
    Does (.modIntEoi v) s fun h' => h' = (h.raiseVector 0 (h.get F.MOD_INT_VECTOR_VECTOR)).put F.MOD_INT_VECTOR_INSVC 1) ∧
  (∀ (s : State) (h : Hw) (v : BitVec 64),
    s.hw = h →
    h.hubOn = true →
    bit v.toNat 0 = true →
    h.summary = true →
    h.get F.MOD_INT_VECTOR_VECTOR = 0 →
    Does (.modIntEoi v) s fun h' => h' = h) ∧
  (∀ (s : State) (h : Hw) (v : BitVec 64),
    s.hw = h →
    (h.hubOn = false ∨ bit v.toNat 0 = false) →
    Does (.modIntEoi v) s fun h' => h' = h) ∧
  (∀ (s : State) (h : Hw) (q : Fin 24) (on above : Bool) (a : Hw),
    s.hw = h →
    h.hubOn = true →
    h.blockOn (0x700 + q.val) = true →
    a = h.put (F.CAM_CTRL_PWR_EN.blk q.val) (b2n on) →
    (on = false ∨ above = false ∨ a.camRail = false ∨ a.get (F.CAM_STATUS_PWR_STATE.blk q.val) ≠ 0) →
    Does (.pwrEnWrite q on above) s fun h' => h' = a.camPower q.val) ∧
  (∀ (s : State) (h : Hw) (q : Fin 24) (on above : Bool) (a : Hw),
    s.hw = h →
    h.hubOn = true →
    h.blockOn (0x700 + q.val) = true →
    a = h.put (F.CAM_CTRL_PWR_EN.blk q.val) (b2n on) →
    on = true →
    above = true →
    a.camRail = true →
    a.get (F.CAM_STATUS_PWR_STATE.blk q.val) = 0 →
    Does (.pwrEnWrite q on above) s fun h' => h' = a.camFault q.val 5 (a.get (F.CAM_PWR_MEAS_MA.blk q.val)) (a.get (F.CAM_PWR_MEAS_MV.blk q.val))) ∧
  (∀ (s : State) (h : Hw) (q : Fin 24) (on above : Bool),
    s.hw = h →
    (h.hubOn = false ∨ h.blockOn (0x700 + q.val) = false) →
    Does (.pwrEnWrite q on above) s fun h' => h' = h)

/-- For every row of the register map and every field of it, after an 8-byte write of v to a register that held old,
the field holds what its access code leaves: RO the old value, RW the written one, WO zero, W1C the old value
without the bits written 1, W1S the old value with them, RWL the written value while LOCK is 0 and the old one
else. Every bit that belongs to no field keeps its value. -/
def Obligations.RegisterFields : Prop :=
  (∀ (r : RegSpec) (f : FieldSpec) (locked : Bool) (old v : Nat), r ∈ regTable → f ∈ r.fields →
    bits (r.written locked old v) f.lo f.len = f.written locked old v % 2 ^ f.len) ∧
  (∀ (r : RegSpec) (locked : Bool) (old v i : Nat), r ∈ regTable → (∀ f ∈ r.fields, i < f.lo ∨ f.lo + f.len ≤ i) →
    (r.written locked old v).testBit i = old.testBit i) ∧
  (∀ (f : FieldSpec) (locked : Bool) (old v i : Nat), i < f.len →
    (f.written locked old v).testBit i = match f.acc with
      | .ro => old.testBit (f.lo + i)
      | .rw => v.testBit (f.lo + i)
      | .wo => false
      | .w1c => old.testBit (f.lo + i) && ! v.testBit (f.lo + i)
      | .w1s => old.testBit (f.lo + i) || v.testBit (f.lo + i)
      | .rwl => if locked then old.testBit (f.lo + i) else v.testBit (f.lo + i))

/-- With the fabric on (and, for scrub, patrol, parity and rebuild, outside QUIET windows): REFRESH notes the stroke;
SCRUB_REWRITE rewrites the oldest line of the channel's scrub queue and takes it off; PATROL_READ reads its next
line with the errors that it has taken and moves on, or ends the channel's pass; PATROL_LATE is raised once when no
pass has ended for 32 s; the hairline counters leak once in a stroke; retraining begins for the channels due at the
start of a QUIET window; after 32 strokes a training puts the channel in service or begins its retirement;
STRIPE_WRITE_DURABLE makes the writes of its stripe durable; the rebuild goes to the next stripe; an edge goes on
with one module less, and a second loss is a die fault of its dies. Each clause about a command concludes that exec
answers a next state, under conditions on the state and the operands alone; the constructors covered: refresh,
scrubRewrite, patrolRead, patrolLate, hairlineLeak, retraining, trainingComplete, stripeWriteDurable,
stripeRebuild, edgeModuleLost. -/
def Obligations.DramMaintenance : Prop :=
  (∀ (s : State) (h : Hw) (c : Fin 64),
    s.hw = h →
    h.chAlive c.val = true →
    Does (.refresh c) s fun h' => h' = h.modDram fun d => { d with refreshAt := d.refreshAt.put c.val h.now }) ∧
  (∀ (s : State) (h : Hw) (c : Fin 64),
    s.hw = h →
    h.chAlive c.val = false →
    Does (.refresh c) s fun h' => h' = h) ∧
  (∀ (s : State) (h : Hw) (c : Fin 64),
    s.hw = h →
    (h.sys.dram.scrub.find? (fun e => channelOf (h.mem.place (e.1 * 64)) == c.val) = none ∨ h.quiet = true ∨ h.chAlive c.val = false) →
    Does (.scrubRewrite c) s fun h' => h' = h) ∧
  (∀ (s : State) (h : Hw) (c : Fin 64) (e : Nat × Nat),
    s.hw = h →
    (h.sys.dram.scrub.find? (fun e => channelOf (h.mem.place (e.1 * 64)) == c.val) = some e) →
    h.quiet = false →
    h.chAlive c.val = true →
    Does (.scrubRewrite c) s fun h' => h' = (h.rewriteLine e.1).modDram fun d => { d with scrub := d.scrub.filter fun x => x.1 ≠ e.1 }) ∧
  (∀ (s : State) (h : Hw) (c : Fin 64) (u : LineUpset) (l : Nat),
    s.hw = h →
    h.patrolRuns = true →
    h.chRetired c.val = false →
    h.sys.dram.patrolled.contains c.val = false →
    h.patrolNext c.val (h.sys.dram.patrol.getD 0 c.val) = some l →
    Does (.patrolRead c u) s fun h' => h' = ((h.upsetLine l u).patrolLine l).modDram fun d => { d with patrol := d.patrol.put c.val (l + 1) }) ∧
  (∀ (s : State) (h : Hw) (c : Fin 64) (u : LineUpset),
    s.hw = h →
    h.patrolRuns = true →
    h.chRetired c.val = false →
    h.sys.dram.patrolled.contains c.val = false →
    h.patrolNext c.val (h.sys.dram.patrol.getD 0 c.val) = none →
    Does (.patrolRead c u) s fun h' => h' = (h.modDram fun d => { d with patrolled := NSet.add d.patrolled c.val }).patrolPass) ∧
  (∀ (s : State) (h : Hw) (c : Fin 64) (u : LineUpset),
    s.hw = h →
    (h.patrolRuns = false ∨ h.chRetired c.val = true ∨ h.sys.dram.patrolled.contains c.val = true) →
    Does (.patrolRead c u) s fun h' => h' = h) ∧
  (∀ (s : State) (h : Hw),
    s.hw = h →
    h.fabricOn = true →
    h.sys.dram.lateRaised = false →
    h.sys.dram.passAt + 32000000 < h.now →
    Does (.patrolLate) s fun h' => h' = ((h.put F.ECC_INT_STATUS_PATROL_LATE 1).event srcEcc 0x0109 0 0).modDram fun d => { d with lateRaised := true }) ∧
  (∀ (s : State) (h : Hw),
    s.hw = h →
    (h.fabricOn = false ∨ h.sys.dram.lateRaised = true ∨ h.now ≤ h.sys.dram.passAt + 32000000) →
    Does (.patrolLate) s fun h' => h' = h) ∧
  (∀ (s : State) (h : Hw) (a b : Hw),
    s.hw = h →
    h.fabricOn = true →
    h.sys.dram.leakAt < h.now →
    (a = if h.now % 2 ^ h.get F.ECC_HAIR_CH_LEAK = 0 then (List.range 64).foldl (fun x c => x.leakOne (F.ECC_CH_LEVEL_LEVEL.nth c)) h else h) →
    (b = if h.now % 2 ^ h.get F.ECC_HAIR_TILE_LEAK = 0 then (List.range 1152).foldl (fun x t => x.leakOne (F.ECC_TILE_LEVEL_LEVEL.nth t)) a else a) →
    Does (.hairlineLeak) s fun h' => h' = b.modDram fun d => { d with leakAt := b.now }) ∧
  (∀ (s : State) (h : Hw),
    s.hw = h →
    (h.fabricOn = false ∨ h.now ≤ h.sys.dram.leakAt) →
    Does (.hairlineLeak) s fun h' => h' = h) ∧
  (∀ (s : State) (h : Hw),
    s.hw = h →
    h.fabricOn = true →
    ((h.stn.active.wins.any fun w => (h.stn.active.winAct w).kind == 1 && decide (w.start = h.coatPos)) = true) →
    Does (.retraining) s fun h' => h' = (List.range 64).foldl (fun x c =>
      if (x.on (F.MC_STATUS_TRAIN_DUE.blk c) && x.get (F.MC_STATUS_STATE.blk c) == 1 &&
          ! (x.sys.dram.retiring.any fun r => r.channel == c)) = true then
        (x.put (F.MC_STATUS_STATE.blk c) 2).modDram fun d => { d with trainAt := d.trainAt.put c x.now }
      else x) h) ∧
  (∀ (s : State) (h : Hw),
    s.hw = h →
    (h.fabricOn = false ∨ (h.stn.active.wins.any fun w => (h.stn.active.winAct w).kind == 1 && decide (w.start = h.coatPos)) = false) →
    Does (.retraining) s fun h' => h' = h) ∧
  (∀ (s : State) (h : Hw) (c : Fin 64) (a b : LaneSweep),
    s.hw = h →
    (∀ t0, h.sys.dram.trainAt.find c.val = some t0 → h.fabricOn = false ∨ h.now < t0 + 32) →
    Does (.trainingComplete c a b) s fun h' => h' = h) ∧
  (∀ (s : State) (h : Hw) (c : Fin 64) (a b : LaneSweep) (t0 : Nat) (k : Hw),
    s.hw = h →
    h.fabricOn = true →
    h.sys.dram.trainAt.find c.val = some t0 →
    t0 + 32 ≤ h.now →
    h.trainChannel c.val a b = (true, k) →
    Does (.trainingComplete c a b) s fun h' => h' = k.put (F.MC_STATUS_STATE.blk c.val) 1) ∧
  (∀ (s : State) (h : Hw) (c : Fin 64) (a b : LaneSweep) (t0 : Nat) (k : Hw),
    s.hw = h →
    h.fabricOn = true →
    h.sys.dram.trainAt.find c.val = some t0 →
    t0 + 32 ≤ h.now →
    h.trainChannel c.val a b = (false, k) →
    Does (.trainingComplete c a b) s fun h' => h' = (k.put (F.MC_STATUS_STATE.blk c.val) 1).startRetire c.val 1 none) ∧
  (∀ (s : State) (h : Hw) (stripe : Fin 14680064),
    s.hw = h →
    h.fabricOn = true →
    h.quiet = false →
    Does (.stripeWriteDurable stripe) s fun h' => h' = h.modDram fun d => { d with durable := d.durable.filter fun e => e.1 ≠ stripe.val }) ∧
  (∀ (s : State) (h : Hw) (stripe : Fin 14680064),
    s.hw = h →
    (h.fabricOn = false ∨ h.quiet = true) →
    Does (.stripeWriteDurable stripe) s fun h' => h' = h) ∧
  (∀ (s : State) (h : Hw),
    s.hw = h →
    (h.fabricOn = false ∨ h.quiet = true ∨ h.sys.dram.rebuild.isEmpty = true) →
    Does (.stripeRebuild) s fun h' => h' = h) ∧
  (∀ (s : State) (h : Hw) (x : StripeAt) (a : Hw),
    s.hw = h →
    h.fabricOn = true →
    h.quiet = false →
    h.sys.dram.rebuild.isEmpty = false →
    h.stripeFrom (h.get F.ECC_REBUILD_POS) = some x →
    a = (h.rebuildStripe x).put F.ECC_REBUILD_POS (x.base + 1) →
    a.stripeFrom (x.base + 1) = none →
    Does (.stripeRebuild) s fun h' => h' = ((a.put F.ECC_REBUILD_POS 0xFFFF_FFFF_FFFF).modDram fun d => { d with rebuild := [] }).countStripes h.lostStripes) ∧
  (∀ (s : State) (h : Hw) (e : Fin 6),
    s.hw = h →
    (h.fabricOn = false ∨ h.edgeModules e.val = 0) →
    Does (.edgeModuleLost e) s fun h' => h' = h) ∧
  (∀ (s : State) (h : Hw),
    s.hw = h →
    h.fabricOn = true →
    h.quiet = false →
    h.sys.dram.rebuild.isEmpty = false →
    h.stripeFrom (h.get F.ECC_REBUILD_POS) = none →
    Does (.stripeRebuild) s fun h' => h' = (h.put F.ECC_REBUILD_POS 0xFFFF_FFFF_FFFF).modDram fun d => { d with rebuild := [] }) ∧
  (∀ (s : State) (h : Hw) (x y : StripeAt) (a : Hw),
    s.hw = h →
    h.fabricOn = true →
    h.quiet = false →
    h.sys.dram.rebuild.isEmpty = false →
    h.stripeFrom (h.get F.ECC_REBUILD_POS) = some x →
    a = (h.rebuildStripe x).put F.ECC_REBUILD_POS (x.base + 1) →
    a.stripeFrom (x.base + 1) = some y →
    Does (.stripeRebuild) s fun h' => h' = (a.put F.ECC_REBUILD_POS y.base).countStripes h.lostStripes) ∧
  (∀ (s : State) (h : Hw) (e : Fin 6) (n : Nat) (a b : Hw),
    s.hw = h →
    h.fabricOn = true →
    n = h.edgeModules e.val →
    0 < n →
    a = { h with fab := { h.fab with modules := h.fab.modules.put e.val (n - 1) } } →
    b = (a.event (srcEdge (2 * e.val)) 0x050A 0 (n - 1)).healthAdd (partEdge e.val) inEdgeLost 1 →
    Does (.edgeModuleLost e) s fun h' => h' = if n + 1 ≤ (if e.val < 4 then 6 else 4) then (edgeDies e.val).foldl (fun x d => x.dieFault d 1) b else b)

/-- With the fabric on: the flits of a request leave the station's queue; a request that is not for the station is
discarded with its event, one for a retired channel is answered as retired, one of a tile with eight outstanding
there is held back, one whose partition has eight waiting is marked for RETRY, and any other joins the end of its
partition's queue. An arbitration phase of an instance that is not frozen grants as its kind says (a memory port,
an edge, the store, the fetch) and then the trace records leave. A burst that was granted, with the errors that its
line takes and the neighbour refresh of a row that it activates, reads its line for the partition and is answered
with the data and the stain, or writes it and is acknowledged; then a request held back joins, and an UNMAP that
waited for it ends; nothing granted changes nothing. A retirement that is 3 strokes old ends: the channel reads as
retired with its cause. Each clause about a command concludes that exec answers a next state, under conditions on
the state and the operands alone; the constructors covered: memRequestArrival, arbitrationPhase, memoryBurst,
channelRetirement. -/
def Obligations.MemoryRequests : Prop :=
  (∀ (s : State) (h : Hw) (c : Fin 64) (m : MemMsg) (r : MemReq) (g : Hw),
    s.hw = h →
    h.fabricOn = true →
    r = { src := m.src.val, pid := m.pid.val, tag := m.tag.toNat, write := m.write, addr := m.addr.toNat, len := m.len.val, data := m.data, stain := m.stain } →
    g = h.takeRequest c.val r →
    g.stationOk c.val r = false →
    Does (.memRequestArrival c m) s fun h' => h' = g.event (srcTile (g.routerTile (channelTile c.val))) 0x0209 r.pid (if r.write then 4 else 3)) ∧
  (∀ (s : State) (h : Hw) (c : Fin 64) (m : MemMsg) (r : MemReq) (g : Hw),
    s.hw = h →
    h.fabricOn = true →
    r = { src := m.src.val, pid := m.pid.val, tag := m.tag.toNat, write := m.write, addr := m.addr.toNat, len := m.len.val, data := m.data, stain := m.stain } →
    g = h.takeRequest c.val r →
    g.stationOk c.val r = true →
    g.chRetired c.val = true →
    Does (.memRequestArrival c m) s fun h' => h' = { g with fab := { g.fab with responses := g.fab.responses ++ [r.retired] } }) ∧
  (∀ (s : State) (h : Hw) (c : Fin 64) (m : MemMsg) (r : MemReq) (g : Hw),
    s.hw = h →
    h.fabricOn = true →
    r = { src := m.src.val, pid := m.pid.val, tag := m.tag.toNat, write := m.write, addr := m.addr.toNat, len := m.len.val, data := m.data, stain := m.stain } →
    g = h.takeRequest c.val r →
    g.stationOk c.val r = true →
    g.chRetired c.val = false →
    r.src < 1024 →
    8 ≤ (g.stationLoad c.val r.src).length →
    Does (.memRequestArrival c m) s fun h' => h' = { g with fab := { g.fab with heldBack := g.fab.heldBack ++ [r] } }) ∧
  (∀ (s : State) (h : Hw) (c : Fin 64) (m : MemMsg) (r : MemReq) (g : Hw),
    s.hw = h →
    h.fabricOn = true →
    r = { src := m.src.val, pid := m.pid.val, tag := m.tag.toNat, write := m.write, addr := m.addr.toNat, len := m.len.val, data := m.data, stain := m.stain } →
    g = h.takeRequest c.val r →
    g.stationOk c.val r = true →
    g.chRetired c.val = false →
    (1024 ≤ r.src ∨ (g.stationLoad c.val r.src).length < 8) →
    8 ≤ (g.fab.stationQ.getD [] (c.val * 256 + r.pid)).length →
    Does (.memRequestArrival c m) s fun h' => h' = { g with fab := { g.fab with retryMarks := g.fab.retryMarks ++ [r] } }) ∧
  (∀ (s : State) (h : Hw) (c : Fin 64) (m : MemMsg) (r : MemReq) (g : Hw),
    s.hw = h →
    h.fabricOn = true →
    r = { src := m.src.val, pid := m.pid.val, tag := m.tag.toNat, write := m.write, addr := m.addr.toNat, len := m.len.val, data := m.data, stain := m.stain } →
    g = h.takeRequest c.val r →
    g.stationOk c.val r = true →
    g.chRetired c.val = false →
    (1024 ≤ r.src ∨ (g.stationLoad c.val r.src).length < 8) →
    (g.fab.stationQ.getD [] (c.val * 256 + r.pid)).length < 8 →
    Does (.memRequestArrival c m) s fun h' => h' = { g with fab := { g.fab with stationQ := g.fab.stationQ.mod [] (c.val * 256 + r.pid) (· ++ [r]) } }) ∧
  (∀ (s : State) (h : Hw) (c : Fin 64) (m : MemMsg),
    s.hw = h →
    h.fabricOn = false →
    Does (.memRequestArrival c m) s fun h' => h' = h) ∧
  (∀ (s : State) (h : Hw) (i : Fin 78) (ops : ArbInput),
    s.hw = h →
    h.fabricOn = true →
    (h.arb i.val).freeze = none →
    i.val < 64 →
    Does (.arbitrationPhase i ops) s fun h' => h' = (h.grantPort i.val).flushTrace) ∧
  (∀ (s : State) (h : Hw) (i : Fin 78) (ops : ArbInput),
    s.hw = h →
    h.fabricOn = true →
    (h.arb i.val).freeze = none →
    64 ≤ i.val →
    i.val < 76 →
    Does (.arbitrationPhase i ops) s fun h' => h' = (h.grantEdge (i.val - 64) ops.retries.val).flushTrace) ∧
  (∀ (s : State) (h : Hw) (i : Fin 78) (ops : ArbInput),
    s.hw = h →
    h.fabricOn = true →
    (h.arb i.val).freeze = none →
    i.val = 76 →
    Does (.arbitrationPhase i ops) s fun h' => h' = (h.storeRound ops.ops).flushTrace) ∧
  (∀ (s : State) (h : Hw) (i : Fin 78) (ops : ArbInput),
    s.hw = h →
    h.fabricOn = true →
    (h.arb i.val).freeze = none →
    i.val = 77 →
    Does (.arbitrationPhase i ops) s fun h' => h' = h.grantFetch.flushTrace) ∧
  (∀ (s : State) (h : Hw) (i : Fin 78) (ops : ArbInput),
    s.hw = h →
    (h.fabricOn = false ∨ (h.arb i.val).freeze.isSome = true) →
    Does (.arbitrationPhase i ops) s fun h' => h' = h) ∧
  (∀ (h : Hw) (c p : Nat) (r : MemReq) (el : List Nat) (a : Arb),
    c < 64 → (h.portWaiters c).all (fun x => h.portEligible c x) = true → el = h.portWaiters c → h.get (F.MC_STATUS_STATE.blk c) = 1 →
    h.slotsUsed c < h.portSlots → (h.arb c).pick el h.portWeight = some (p, a) → h.portHead c p = some r →
    ((h.grantPort c).arb c).granted = (h.arb c).granted ++ [r.burst.1]) ∧
  (∀ (s : State) (h : Hw) (c : Fin 64) (u : LineUpset) (act : Bool),
    s.hw = h →
    (h.fabricOn = false ∨ (h.arb c.val).granted = []) →
    Does (.memoryBurst c u act) s fun h' => h' = h) ∧
  (∀ (s : State) (h : Hw) (c : Fin 64) (u : LineUpset) (act : Bool) (r : MemReq) (rs : List MemReq) (a b d k : Hw) (bs : List Byte) (sd : Bool),
    s.hw = h →
    h.fabricOn = true →
    (h.arb c.val).granted ≠ [] →
    (a = if act = true then h.neighbourRefresh c.val else h) →
    (a.arb c.val).granted = r :: rs →
    (b = (a.modArb c.val fun x => { x with granted := rs }).upsetLine (r.addr / 64) u) →
    (d = if u.errors.isEmpty = true then b else b.countStripes a.lostStripes) →
    r.write = false →
    d.portRead r.pid r.addr r.len = (bs, sd, k) →
    Does (.memoryBurst c u act) s fun h' => h' = ((({ k with fab := { k.fab with responses := k.fab.responses ++ [{ r with data := bs, stain := sd }] } } : Hw).sendHeld c.val).showFrozen c.val).settleUnmaps) ∧
  (∀ (s : State) (h : Hw) (c : Fin 64) (u : LineUpset) (act : Bool) (r : MemReq) (rs : List MemReq) (a b d k : Hw),
    s.hw = h →
    h.fabricOn = true →
    (h.arb c.val).granted ≠ [] →
    (a = if act = true then h.neighbourRefresh c.val else h) →
    (a.arb c.val).granted = r :: rs →
    (b = (a.modArb c.val fun x => { x with granted := rs }).upsetLine (r.addr / 64) u) →
    (d = if u.errors.isEmpty = true then b else b.countStripes a.lostStripes) →
    r.write = true →
    k = d.portWrite r.pid r.addr r.data r.stain →
    Does (.memoryBurst c u act) s fun h' => h' = ((({ k with fab := { k.fab with responses := k.fab.responses ++ [{ r with data := [], stain := false }] } } : Hw).sendHeld c.val).showFrozen c.val).settleUnmaps) ∧
  (∀ (s : State) (h : Hw) (c : Fin 64),
    s.hw = h →
    (h.fabricOn = false ∨ (∃ r, h.sys.dram.retiring.find? (fun r => r.channel == c.val) = some r ∧ h.now < r.at_ + 3)) →
    Does (.channelRetirement c) s fun h' => h' = h) ∧
  (∀ (s : State) (h : Hw) (c : Fin 64),
    s.hw = h →
    h.fabricOn = true →
    (h.sys.dram.retiring.find? (fun r => r.channel == c.val) = none) →
    Does (.channelRetirement c) s fun h' => h' = h) ∧
  (∀ (s : State) (h : Hw) (c : Fin 64) (r : Retiring) (l : List Retiring × List Retiring) (a b d e g : Hw),
    s.hw = h →
    h.fabricOn = true →
    (h.sys.dram.retiring.find? (fun r => r.channel == c.val) = some r) →
    r.at_ + 3 ≤ h.now →
    (l = h.sys.dram.retiring.partition fun r => r.channel == c.val) →
    (a = h.modDram fun d => { d with retiring := l.2, scrub := d.scrub.filter fun e => h.mem.channelAt (e.1 * 64) ≠ c.val }) →
    b = (((a.put (F.MC_STATUS_STATE.blk c.val) 3).put (F.MC_STATUS_CAUSE.blk c.val) r.cause).put (F.MC_STATUS_TRAIN_DUE.blk c.val) 0).put
      (F.MC_INT_STATUS_RETIRED.blk c.val) 1 →
    d = (((((b.put (F.ECC_RETIRED_CH.bit c.val) 1).put (F.ECC_STATUS_DEV_DEGRADED.bit (c.val / 8)) 1).event (srcChannel c.val) 0x0105 0 r.cause).loseDurable
      c.val).answerRetired c.val) →
    (e = l.1.foldl (fun h r => match r.cmd with | some (p, q, n) => h.finishAt p q n 0 0 0 {} | none => h) d) →
    (g = if 3 ≤ countNat 8 (fun m => e.chRetired (8 * (c.val / 8) + m)) then e.loseDevice (c.val / 8) else e) →
    Does (.channelRetirement c) s fun h' => h' = g.countStripes h.lostStripes)

/-- With the fabric on, a flit that arrives from outside the mesh and fails its header check is discarded with event
0x0208 and a note for the die, and at the local port puts the tile in FAULT_STOP (log entry 27); one that passes
joins the input, at the local port stamped with the slice that sends it, at the hub side after its attach. The
output for which the first flit of the named input waits serves the class whose turn it is when one of it is ready,
and the flit that it chooses leaves its input for the neighbour, the edge, the station or the local port that
dimension order names. A data message that is next at its receiver is written there row by row, sealed and noted as
arrived; a COMMIT joins the area of its slot; a RELEASE frees the half that its producer owed. A row with nothing
to take changes nothing. Each clause about a command concludes that exec answers a next state, under conditions on
the state and the operands alone; the constructors covered: flitRoute, dataMessageLanding, commitNotice,
releaseNotice. -/
def Obligations.MeshMessages : Prop :=
  (∀ (s : State) (h : Hw) (l : Fin 1024) (port : Fin 5) (a : Option FlitIn) (k : Hw),
    s.hw = h →
    h.fabricOn = true →
    k = (match a with | some x => h.arriveFlit l.val port.val x | none => h) →
    (k.fab.inq.getD [] (5 * l.val + port.val)).head? = none →
    Does (.flitRoute l port a) s fun h' => h' = k) ∧
  (∀ (s : State) (h : Hw) (l : Fin 1024) (port : Fin 5) (a : Option FlitIn) (k : Hw) (f : Flit),
    s.hw = h →
    h.fabricOn = true →
    k = (match a with | some x => h.arriveFlit l.val port.val x | none => h) →
    (k.fab.inq.getD [] (5 * l.val + port.val)).head? = some f →
    Does (.flitRoute l port a) s fun h' => h' = k.serveOutput l.val (k.outputOf l.val f)) ∧
  (∀ (s : State) (h : Hw) (l : Fin 1024) (port : Fin 5) (a : Option FlitIn),
    s.hw = h →
    h.fabricOn = false →
    Does (.flitRoute l port a) s fun h' => h' = h) ∧
  (∀ (h : Hw) (l port : Nat) (x : FlitIn) (f : Flit), f = ⟨x.header.toNat, fit 64 x.payload⟩ →
    (hdrGood f.header = false → port = 4 → h.arriveFlit l port x = h.faultStop (h.routerTile l) 4) ∧
      (hdrGood f.header = false → port ≠ 4 → h.arriveFlit l port x = (({ h with fab := { h.fab with headerBad := NSet.add h.fab.headerBad (h.routerTile l) } } : Hw).event
        (srcTile (h.routerTile l)) 0x0208 (hdrPid f.header) port).healthAdd (partDie (h.routerTile l / 288)) inFlit 1) ∧
      (hdrGood f.header = true → port = 4 → hdrGood (h.stamped l f).header = true → h.arriveFlit l port x = h.enqueue l port (h.stamped l f)) ∧
      (hdrGood f.header = true → port = 4 → hdrGood (h.stamped l f).header = false → h.arriveFlit l port x = h) ∧
      (hdrGood f.header = true → port = 2 → l < 32 → h.arriveFlit l port x = h.toEdge (8 + 2 * dieOfLogical l) (5 * l + port) f) ∧
      (hdrGood f.header = true → port ≠ 4 → ¬ (port = 2 ∧ l < 32) → h.arriveFlit l port x = h.enqueue l port f)) ∧
  (∀ (h : Hw) (l o : Nat), (h.outPick l o = none → h.serveOutput l o = h) ∧
    ∀ c p i f, h.outPick l o = some (c, p, i, f) → h.serveOutput l o =
      ({ h with fab := { h.fab with
        inq := SMap.putD [] h.fab.inq (5 * l + p) ((h.fab.inq.getD [] (5 * l + p)).eraseIdx i)
        outSeq := SMap.putD 0 h.fab.outSeq (5 * l + o) ((h.fab.outSeq.getD 0 (5 * l + o) + 1) % 10)
        outTurn := SMap.putD 4 h.fab.outTurn ((5 * l + o) * 4 + c) p } } : Hw).forward l f) ∧
  (∀ (h : Hw) (l o c : Nat), c = classTurns.getD (h.fab.outSeq.getD 0 (5 * l + o)) 0 → (∃ p, p < 5 ∧ (h.readyAt l o c p).isSome = true) →
    ∃ p i f, h.outPick l o = some (c, p, i, f) ∧ p < 5 ∧ h.readyAt l o c p = some (i, f) ∧
      ∀ y, y < (p + 9 - h.fab.outTurn.getD 4 ((5 * l + o) * 4 + c)) % 5 → h.readyAt l o c ((h.fab.outTurn.getD 4 ((5 * l + o) * 4 + c) + 1 + y) % 5) = none) ∧
  (∀ (h : Hw) (l : Nat) (f : Flit),
    (∀ m p, h.nextHop l f = .to m p → edgePath (dieOfLogical l) (dieOfLogical m) = [] → h.forward l f = h.enqueue m p f) ∧
      (∀ m p d ds, h.nextHop l f = .to m p → edgePath (dieOfLogical l) (dieOfLogical m) = d :: ds → h.forward l f = h.toEdge d (5 * m + p) f) ∧
      (h.nextHop l f = .station → hdrType f.header ≠ 7 → hdrType f.header ≠ 0xC →
        h.forward l f = { h with fab := { h.fab with station := h.fab.station.mod [] l (· ++ [f]) } }) ∧
      (h.nextHop l f = .station → hdrType f.header = 7 ∨ hdrType f.header = 0xC → h.forward l f = h.toEdge (9 + 2 * dieOfLogical l) 5120 f) ∧
      (h.nextHop l f = .here → landsHere (hdrType f.header) = true →
        h.forward l f = { h with fab := { h.fab with local_ := h.fab.local_.mod [] l (· ++ [f]) } }) ∧
      (h.nextHop l f = .here → landsHere (hdrType f.header) = false → h.forward l f = h)) ∧
  (∀ (l dst ty : Nat), l < 1024 → dst < 1024 →
    (l % 32 < dst % 32 → hopOf l dst ty = .to (l + 1) portWest) ∧ (dst % 32 < l % 32 → hopOf l dst ty = .to (l - 1) portEast) ∧
      (l % 32 = dst % 32 → l / 32 < dst / 32 → hopOf l dst ty = .to (l + 32) portSouth) ∧
      (l % 32 = dst % 32 → dst / 32 < l / 32 → hopOf l dst ty = .to (l - 32) portNorth) ∧
      (l = dst → hopOf l dst ty = if diverts l ty = true then .station else .here)) ∧
  (∀ (s : State) (h : Hw) (src dst : Fin 1024) (m : Msg) (k : Hw) (t : Nat) (rows : List (Nat × List SByte)),
    s.hw = h →
    h.fabricOn = true →
    h.takeMsg src.val dst.val [0, 1] = (some m, k) →
    k.physFor m.pid m.dst = some t →
    (rows = m.pieces.map fun p => (landAddr ((k.tile t).areasOf m.pid) m + 64 * p.idx, p.sbytes)) →
    Does (.dataMessageLanding src dst) s fun h' => h' = ((rows.foldl (fun x r => x.wrSram t m.pid r.1 r.2) k).sealRows t m.pid rows).modTile t fun x =>
      { x with arrived := x.arrived ++ [(m.src, m.slot, m.got)]
               landed := x.landed ++ [⟨m.src, m.slot, m.pid, m.k, m.type == 1, m.got⟩] }) ∧
  (∀ (s : State) (h : Hw) (src dst : Fin 1024) (m : Msg) (k : Hw) (t : Nat),
    s.hw = h →
    h.fabricOn = true →
    h.takeMsg src.val dst.val [0xA] = (some m, k) →
    k.physFor m.pid m.dst = some t →
    Does (.commitNotice src dst) s fun h' => h' = k.modTile t fun x => { x with binds := x.binds.map fun y =>
      if y.pid = m.pid then { y with areas := y.areas.map fun a =>
        if a.slot = m.slot then { a with got := a.got ++ [(m.src, m.k, m.bytes, k.now)] } else a }
      else y }) ∧
  (∀ (s : State) (h : Hw) (src dst : Fin 1024) (m : Msg) (k : Hw) (t : Nat),
    s.hw = h →
    h.fabricOn = true →
    h.takeMsg src.val dst.val [0xB] = (some m, k) →
    k.physFor m.pid m.dst = some t →
    Does (.releaseNotice src dst) s fun h' => h' = k.modTile t fun x => { x with owed := x.owed.map fun o =>
      if o.1 % 262144 = m.src + 1024 * m.pid ∧ o.2.1 = m.slot ∧ o.2.2.1 = m.k ∧ o.2.2.2 = none then (o.1, o.2.1, o.2.2.1, some k.now) else o }) ∧
  (∀ (s : State) (h : Hw) (src dst : Fin 1024) (m : Msg) (k : Hw),
    s.hw = h →
    h.fabricOn = true →
    h.takeMsg src.val dst.val [0, 1] = (some m, k) →
    k.physFor m.pid m.dst = none →
    Does (.dataMessageLanding src dst) s fun h' => h' = k) ∧
  (∀ (s : State) (h : Hw) (src dst : Fin 1024) (m : Msg) (k : Hw),
    s.hw = h →
    h.fabricOn = true →
    h.takeMsg src.val dst.val [0xA] = (some m, k) →
    k.physFor m.pid m.dst = none →
    Does (.commitNotice src dst) s fun h' => h' = k) ∧
  (∀ (s : State) (h : Hw) (src dst : Fin 1024) (m : Msg) (k : Hw),
    s.hw = h →
    h.fabricOn = true →
    h.takeMsg src.val dst.val [0xB] = (some m, k) →
    k.physFor m.pid m.dst = none →
    Does (.releaseNotice src dst) s fun h' => h' = k) ∧
  (∀ (s : State) (h : Hw) (src dst : Fin 1024) (k : Hw),
    s.hw = h →
    h.fabricOn = true →
    h.takeMsg src.val dst.val [0, 1] = (none, k) →
    Does (.dataMessageLanding src dst) s fun h' => h' = k) ∧
  (∀ (s : State) (h : Hw) (src dst : Fin 1024) (k : Hw),
    s.hw = h →
    h.fabricOn = true →
    h.takeMsg src.val dst.val [0xA] = (none, k) →
    Does (.commitNotice src dst) s fun h' => h' = k) ∧
  (∀ (s : State) (h : Hw) (src dst : Fin 1024) (k : Hw),
    s.hw = h →
    h.fabricOn = true →
    h.takeMsg src.val dst.val [0xB] = (none, k) →
    Does (.releaseNotice src dst) s fun h' => h' = k) ∧
  (∀ (s : State) (h : Hw) (src dst : Fin 1024),
    s.hw = h →
    h.fabricOn = false →
    Does (.dataMessageLanding src dst) s fun h' => h' = h) ∧
  (∀ (s : State) (h : Hw) (src dst : Fin 1024),
    s.hw = h →
    h.fabricOn = false →
    Does (.commitNotice src dst) s fun h' => h' = h) ∧
  (∀ (s : State) (h : Hw) (src dst : Fin 1024),
    s.hw = h →
    h.fabricOn = false →
    Does (.releaseNotice src dst) s fun h' => h' = h)

/-- At its pulse, once in a stroke, a tile that runs takes what has happened to its silicon, closes the stroke that
ends (a slice still running is cut off), credits its job, ends a test, takes the clock of its window, sends what
RETRY held up again and opens its gate, which without a window stays closed. Before that stroke's boundary, or when
the tile does not run, nothing changes. ST_LATE marks a tile in service whose rotation has not ended for 100,000
strokes, once. A row shift ends at the second pulse after it began, the copy of a substitute at the next. Each
clause about a command concludes that exec answers a next state, under conditions on the state and the operands
alone; the constructors covered: tileStrokePulse, stLate, rowShiftComplete, substituteCopyComplete. -/
def Obligations.TileGates : Prop :=
  (∀ (s : State) (h : Hw) (t : TilePulse) (n : Nat) (a b : Hw),
    s.hw = h →
    h.fabricOn = true →
    n = t.tile.val →
    h.seqStopped = false →
    h.domainOn (tileDomain n) = true →
    h.sys.gov.dieHeld.contains (n / 288) = false →
    (h.tile n).pulsedAt < h.now →
    (a = ((((h.upsetTile n t.upset).closeStroke n t.upset.slack).creditIdle n).endTest n).modTile n fun x =>
      { x with pulsedAt := h.now, slice := x.slice.filter fun y => decide (y.state = .running) }) →
    b = a.put (F.TILE_CLK_MHZ.blk n) (a.tileClock n) →
    Does (.tileStrokePulse t) s fun h' => h' = (b.resendMem fun r => decide (r.src < 1024) && b.physOf r.src == some n).openGate n) ∧
  (∀ (s : State) (h : Hw) (t : TilePulse) (n : Nat),
    s.hw = h →
    n = t.tile.val →
    (h.fabricOn = false ∨ h.seqStopped = true ∨ h.domainOn (tileDomain n) = false ∨ h.sys.gov.dieHeld.contains (n / 288) = true ∨ h.now ≤ (h.tile n).pulsedAt) →
    Does (.tileStrokePulse t) s fun h' => h' = h) ∧
  (∀ (h : Hw) (t : Nat) (slack : Bool), (h.tile t).slice = none → h.closeStroke t slack = h) ∧
  (∀ (h : Hw) (t : Nat) (sl : Slice) (slack : Bool), (h.tile t).slice = some sl →
    (sl.state = .running → h.closeStroke t slack = ((((h.event (srcTile t) 0x0301 sl.pid (h.cutCause t sl + sl.act % 1024 * 65536)).addSat F.STN_OVERRUN_COUNT_COUNT 1).put
        F.STN_INT_STATUS_OVERRUN 1).endSlice t .cutOff).noteFailure t sl (h.cutCause t sl)) ∧
      (sl.state = .faultStop → h.closeStroke t slack = (h.noteFailure t sl 4).modTile t fun x => { x with slice := none }) ∧
      (sl.state = .committed → h.closeStroke t slack = h.closeCommitted t sl slack)) ∧
  (∀ (h : Hw) (t : Nat), h.gateWindow t = none → h.tileClock t = 400) ∧
  (∀ (h : Hw) (t l : Nat) (w : WinRow), h.gateWindow t = some (w, l) → (h.stn.active.winAct w).kind ≠ 2 →
    h.tileClock t = max (cdiv w.fMin 100 * 100) (min (h.dieCap (t / 288)) h.baseClock)) ∧
  (∀ (h a : Hw) (t : Nat), a = h.put (F.TILE_STATE_HOLD.blk t) 0 → a.gateWindow t = none →
    ((a.tile t).incident 0 0 = none → h.openGate t = a.idleStroke t) ∧
      ∀ o, (a.tile t).incident 0 0 = some o → h.openGate t = (a.workIncident t 0 o).shutGate t) ∧
  (∀ (h a : Hw) (t l pid : Nat) (w : WinRow), a = h.put (F.TILE_STATE_HOLD.blk t) 0 → a.gateWindow t = some (w, l) → pid = a.stn.active.winPid w →
    (pid = 0 ∨ a.isShed pid = true ∨ a.inShift t = true → h.openGate t = a.idleStroke t) ∧
      (pid ≠ 0 → a.isShed pid = false → a.inShift t = false →
        (∀ o, (a.tile t).incident pid w.act = some o → h.openGate t = (a.workIncident t l o).shutGate t) ∧
        ((a.tile t).incident pid w.act = none → h.openGate t = if a.get (F.TILE_STATE_STATE.blk t) = 0 then a.gateRun t l pid w else a.idleStroke t))) ∧
  (∀ (h : Hw) (t : Nat), t < 1152 →
    (h.shutGate t).get (F.TILE_STATE_GATE.blk t) = 0 ∧ (h.shutGate t).get (F.TILE_STATE_PID.blk t) = 0 ∧ (h.shutGate t).get (F.TILE_STATE_ACT.blk t) = 0) ∧
  (∀ (s : State) (h : Hw) (t : Fin 1152),
    s.hw = h →
    h.fabricOn = true →
    h.fab.retired.contains t.val = false →
    (h.tile t.val).lateRaised = false →
    (h.tile t.val).rotationAt + 100000 ≤ h.now →
    Does (.stLate t) s fun h' => h' = ((h.put (F.TILE_INT_STATUS_ST_LATE.blk t.val) 1).event (srcTile t.val) 0x0204 0 0).modTile t.val fun x => { x with lateRaised := true }) ∧
  (∀ (s : State) (h : Hw) (t : Fin 1152),
    s.hw = h →
    (h.fabricOn = false ∨ h.fab.retired.contains t.val = true ∨ (h.tile t.val).lateRaised = true ∨ h.now < (h.tile t.val).rotationAt + 100000) →
    Does (.stLate t) s fun h' => h' = h) ∧
  (∀ (s : State) (h : Hw) (row : Fin 64) (x : Reloc),
    s.hw = h →
    h.fabricOn = true →
    (h.fab.relocs.find? (fun x => x.shift && x.die * 16 + x.row == row.val) = some x) →
    x.sinceStroke + 2 ≤ h.now →
    Does (.rowShiftComplete row) s fun h' => h' = h.completeShift x) ∧
  (∀ (s : State) (h : Hw) (row : Fin 64),
    s.hw = h →
    (h.fab.relocs.find? (fun x => x.shift && x.die * 16 + x.row == row.val) = none) →
    Does (.rowShiftComplete row) s fun h' => h' = h) ∧
  (∀ (s : State) (h : Hw) (row : Fin 64) (x : Reloc),
    s.hw = h →
    (h.fab.relocs.find? (fun x => x.shift && x.die * 16 + x.row == row.val) = some x) →
    (h.fabricOn = false ∨ h.now < x.sinceStroke + 2) →
    Does (.rowShiftComplete row) s fun h' => h' = h) ∧
  (∀ (s : State) (h : Hw) (l : Fin 1024) (pid : Fin 256) (x : Reloc),
    s.hw = h →
    (h.fab.relocs.find? (fun x => ! x.shift && x.logical == l.val && x.pid == pid.val) = some x) →
    (h.fabricOn = false ∨ h.now ≤ x.sinceStroke) →
    Does (.substituteCopyComplete l pid) s fun h' => h' = h) ∧
  (∀ (s : State) (h : Hw) (l : Fin 1024) (pid : Fin 256) (x : Reloc),
    s.hw = h →
    h.fabricOn = true →
    (h.fab.relocs.find? (fun x => ! x.shift && x.logical == l.val && x.pid == pid.val) = some x) →
    x.sinceStroke < h.now →
    Does (.substituteCopyComplete l pid) s fun h' => h' = h.completeSubstitute x) ∧
  (∀ (s : State) (h : Hw) (l : Fin 1024) (pid : Fin 256),
    s.hw = h →
    (h.fab.relocs.find? (fun x => ! x.shift && x.logical == l.val && x.pid == pid.val) = none) →
    Does (.substituteCopyComplete l pid) s fun h' => h' = h)

/-- The head of an activity that is on, whose command has begun, whose gate has fired and which is neither cancelled
nor failed begins when its images are resident and nothing is installed in its windows; when one is not resident
its installation starts. The deadline monitor notes a miss of this stroke and acts on one of an earlier stroke. A
die's report of a copy joins the reports and the totals are compared; the other copy's report out for 2,100 strokes
is a mismatch. An installation whose bytes are all loaded binds the image and makes it resident. A free sheet
record whose frame is not zeroed is zeroed. Where the conditions of a row do not hold, it changes nothing. Each
clause about a command concludes that exec answers a next state, under conditions on the state and the operands
alone; the constructors covered: jobBegin, deadlineMiss, duplexReport, duplexReportTimeout, installationComplete,
sheetZeroed. -/
def Obligations.JobEvents : Prop :=
  (∀ (s : State) (h : Hw) (pid : Fin 256) (act : Fin 1024) (j : Job) (m : Model),
    s.hw = h →
    h.fabricOn = true →
    h.actHead act.val = some j →
    j.pid = pid.val →
    j.begun = none →
    h.mayBegin j = true →
    h.actOn act.val = true →
    h.isShed pid.val = false →
    j.cancelled = none →
    j.fail = none →
    h.gateFired j = true →
    ((h.jobHandles j).filter (fun hd => ! h.resident pid.val hd) = []) →
    h.installingIn pid.val j.fragTag = false →
    h.runModel j = some m →
    Does (.jobBegin pid act) s fun h' => h' = h.beginJob j m) ∧
  (∀ (s : State) (h : Hw) (pid : Fin 256) (act : Fin 1024) (j : Job) (xs : List Nat),
    s.hw = h →
    h.fabricOn = true →
    h.actHead act.val = some j →
    j.pid = pid.val →
    j.begun = none →
    h.mayBegin j = true →
    h.actOn act.val = true →
    h.isShed pid.val = false →
    j.cancelled = none →
    j.fail = none →
    h.gateFired j = true →
    (xs = (h.jobHandles j).filter fun hd => ! h.resident pid.val hd) →
    xs ≠ [] →
    Does (.jobBegin pid act) s fun h' => h' = xs.foldl (fun x hd => x.install pid.val hd) h) ∧
  (∀ (s : State) (h : Hw) (pid : Fin 256) (act : Fin 1024),
    s.hw = h →
    (h.fabricOn = false ∨ h.actHead act.val = none) →
    Does (.jobBegin pid act) s fun h' => h' = h) ∧
  (∀ (s : State) (h : Hw) (pid : Fin 256) (act : Fin 1024) (j : Job),
    s.hw = h →
    h.actHead act.val = some j →
    (j.pid ≠ pid.val ∨ j.begun.isSome = true ∨ h.mayBegin j = false ∨ h.actOn act.val = false ∨ h.isShed pid.val = true ∨ j.cancelled.isSome = true ∨ j.fail.isSome = true ∨ h.gateFired j = false) →
    Does (.jobBegin pid act) s fun h' => h' = h) ∧
  (∀ (s : State) (h : Hw) (pid : Fin 256) (act : Fin 1024) (j : Job),
    s.hw = h →
    h.fabricOn = true →
    h.actHead act.val = some j →
    j.pid = pid.val →
    j.begun = none →
    h.mayBegin j = true →
    h.actOn act.val = true →
    h.isShed pid.val = false →
    j.cancelled = none →
    j.fail = none →
    h.gateFired j = true →
    ((h.jobHandles j).filter (fun hd => ! h.resident pid.val hd) = []) →
    h.installingIn pid.val j.fragTag = true →
    Does (.jobBegin pid act) s fun h' => h' = h) ∧
  (∀ (h : Hw) (j : Job) (m : Model) (x : Job), x ∈ (h.beginJob j m).jobs → x.pid = j.pid → x.queue = j.queue → x.num = j.num →
    x.begun = some (((h.beginSubmit j).clearInputs j).writeArgs j m).now ∧ x.progress = [] ∧ x.nextCp = 0 ∧ x.matched = 0 ∧ x.reports = [] ∧ x.redo = none) ∧
  (∀ (s : State) (h : Hw) (pid : Fin 256) (seq : BitVec 48) (j : Job) (act dl c t : Nat) (m : Model),
    s.hw = h →
    h.sequencing = true →
    h.jobBySeq pid.val seq.toNat = some j →
    h.jobAct j = some act →
    j.dl = some dl →
    h.runModel j = some m →
    j.redo = none →
    j.mismatchedOnce = false →
    h.secondFailure j = false →
    j.miss = some (c, t) →
    t < h.now →
    Does (.deadlineMiss pid seq) s fun h' => h' = h.actMiss h.stn.active j c) ∧
  (∀ (s : State) (h : Hw) (pid : Fin 256) (seq : BitVec 48) (j : Job) (act dl c t : Nat) (m : Model),
    s.hw = h →
    h.sequencing = true →
    h.jobBySeq pid.val seq.toNat = some j →
    h.jobAct j = some act →
    j.dl = some dl →
    h.runModel j = some m →
    j.redo = none →
    j.mismatchedOnce = false →
    h.secondFailure j = false →
    j.miss = some (c, t) →
    h.now ≤ t →
    Does (.deadlineMiss pid seq) s fun h' => h' = h) ∧
  (∀ (s : State) (h : Hw) (pid : Fin 256) (seq : BitVec 48) (j : Job) (act dl c c0 : Nat) (m : Model),
    s.hw = h →
    h.sequencing = true →
    h.jobBySeq pid.val seq.toNat = some j →
    h.jobAct j = some act →
    j.dl = some dl →
    h.runModel j = some m →
    j.redo = none →
    j.mismatchedOnce = false →
    h.secondFailure j = false →
    j.miss = none →
    h.project j m act dl (h.now + 1) (m.miles.length + 2) j.nextCp = (c0, some c) →
    Does (.deadlineMiss pid seq) s fun h' => h' = h.modJob j.pid j.queue j.num fun x => { x with miss := some (c, h.now) }) ∧
  (∀ (s : State) (h : Hw) (pid : Fin 256) (seq : BitVec 48) (j : Job) (act dl c r : Nat) (m : Model) (k : Hw),
    s.hw = h →
    h.sequencing = true →
    h.jobBySeq pid.val seq.toNat = some j →
    h.jobAct j = some act →
    j.dl = some dl →
    h.runModel j = some m →
    j.redo = none →
    j.mismatchedOnce = false →
    h.secondFailure j = false →
    j.miss = none →
    h.project j m act dl (h.now + 1) (m.miles.length + 2) j.nextCp = (c, none) →
    (k = h.modJob j.pid j.queue j.num fun x => { x with nextCp := c }) →
    Hw.cpRemaining j m c = some r →
    Does (.deadlineMiss pid seq) s fun h' => h' = if k.passedDue act r dl = true then k.modJob j.pid j.queue j.num fun x => { x with miss := some (c, k.now) } else k) ∧
  (∀ (s : State) (h : Hw) (pid : Fin 256) (seq : BitVec 48) (j : Job) (act dl c : Nat) (m : Model),
    s.hw = h →
    h.sequencing = true →
    h.jobBySeq pid.val seq.toNat = some j →
    h.jobAct j = some act →
    j.dl = some dl →
    h.runModel j = some m →
    j.redo = none →
    j.mismatchedOnce = false →
    h.secondFailure j = false →
    j.miss = none →
    h.project j m act dl (h.now + 1) (m.miles.length + 2) j.nextCp = (c, none) →
    Hw.cpRemaining j m c = none →
    Does (.deadlineMiss pid seq) s fun h' => h' = h.modJob j.pid j.queue j.num fun x => { x with nextCp := c }) ∧
  (∀ (s : State) (h : Hw) (pid : Fin 256) (seq : BitVec 48) (j : Job),
    s.hw = h →
    h.jobBySeq pid.val seq.toNat = some j →
    (j.dl = none ∨ h.jobAct j = none ∨ h.runModel j = none ∨ j.redo.isSome = true ∨ j.mismatchedOnce = true ∨ h.secondFailure j = true) →
    Does (.deadlineMiss pid seq) s fun h' => h' = h) ∧
  (∀ (s : State) (h : Hw) (pid : Fin 256) (seq : BitVec 48),
    s.hw = h →
    (h.sequencing = false ∨ h.jobBySeq pid.val seq.toNat = none) →
    Does (.deadlineMiss pid seq) s fun h' => h' = h) ∧
  (∀ (h : Hw) (b : Stencil) (j : Job) (act dl cp : Nat) (m : Model), (h.inBank b).jobAct j = some act → j.dl = some dl → h.model j.pid j.handle = some m →
    (j.under = true ∨ m.hasUndercoat = false) →
    h.actMiss b j cp = (h.event srcSeq 0x0304 j.pid j.seq).endJob j 0x3004 (cp + if j.under = true then 0x100 else 0)) ∧
  (∀ (h : Hw) (b : Stencil) (j : Job) (act dl cp : Nat) (m u : Model), (h.inBank b).jobAct j = some act → j.dl = some dl → h.model j.pid j.handle = some m →
    j.under = false → m.hasUndercoat = true → h.model j.pid m.ucHandle = some u →
    h.actMiss b j cp = if (h.inBank b).passedDue act (u.jobLen j.batch) dl = true then (h.event srcSeq 0x0304 j.pid j.seq).endJob j 0x3004 cp else h.switchJob j) ∧
  (∀ (s : State) (h : Hw) (pid : Fin 256) (seq : BitVec 48) (copy : Fin 2) (k : BitVec 32) (die : Fin 4),
    s.hw = h →
    (h.fabricOn = false ∨ h.jobBySeq pid.val seq.toNat = none) →
    Does (.duplexReport pid seq copy k die) s fun h' => h' = h) ∧
  (∀ (s : State) (h : Hw) (pid : Fin 256) (seq : BitVec 48) (copy : Fin 2) (k : BitVec 32) (die : Fin 4) (j : Job),
    s.hw = h →
    h.jobBySeq pid.val seq.toNat = some j →
    ((h.runModel j).any (·.duplex) = false ∨ j.begun = none ∨ k.toNat < j.matched ∨ h.diePassed j copy.val die.val k.toNat = false ∨ (j.reportsOf copy.val k.toNat).any (fun r => r.2.1 == die.val) = true) →
    Does (.duplexReport pid seq copy k die) s fun h' => h' = h) ∧
  (∀ (s : State) (h : Hw) (pid : Fin 256) (seq : BitVec 48) (copy : Fin 2) (k : BitVec 32) (die : Fin 4) (j : Job),
    s.hw = h →
    h.fabricOn = true →
    h.jobBySeq pid.val seq.toNat = some j →
    (h.runModel j).any (·.duplex) = true →
    j.begun.isSome = true →
    j.matched ≤ k.toNat →
    h.diePassed j copy.val die.val k.toNat = true →
    ((j.reportsOf copy.val k.toNat).any (fun r => r.2.1 == die.val) = false) →
    Does (.duplexReport pid seq copy k die) s fun h' => h' = (h.modJob j.pid j.queue j.num fun x => { x with reports := x.reports ++
      [(copy.val, die.val, k.toNat, (h.copyTiles j copy.val die.val).length, h.dieSum j copy.val die.val k.toNat, h.now)] }).compareCopies pid.val seq.toNat 3) ∧
  (∀ (h : Hw) (pid seq n a b : Nat) (j : Job), h.jobBySeq pid seq = some j → j.redo = none → h.copyTotal j 0 j.matched = some a → h.copyTotal j 1 j.matched = some b →
    h.compareCopies pid seq (n + 1) = if a = b then
        (if ((h.matchStroke j j.matched).heldOf j j.matched).isEmpty = true then ((h.matchStroke j j.matched).settleDone j.pid j.queue j.num).compareCopies pid seq n
         else h.matchStroke j j.matched)
      else h.mismatchStroke j j.matched) ∧
  (∀ (s : State) (h : Hw) (pid : Fin 256) (seq : BitVec 48) (j : Job) (c : Nat),
    s.hw = h →
    h.fabricOn = true →
    h.jobBySeq pid.val seq.toNat = some j →
    j.redo = none →
    c < 2 →
    (h.copyTotal j c j.matched).isSome = true →
    ((j.reportsOf c j.matched).all (fun r => decide (r.2.2.2.2.2 + 2100 ≤ h.now)) = true) →
    h.copyTotal j (1 - c) j.matched = none →
    Does (.duplexReportTimeout pid seq) s fun h' => h' = h.mismatchStroke j j.matched) ∧
  (∀ (s : State) (h : Hw) (pid : Fin 256) (seq : BitVec 48),
    s.hw = h →
    (h.fabricOn = false ∨ h.jobBySeq pid.val seq.toNat = none) →
    Does (.duplexReportTimeout pid seq) s fun h' => h' = h) ∧
  (∀ (s : State) (h : Hw) (pid : Fin 256) (seq : BitVec 48) (j : Job),
    s.hw = h →
    h.jobBySeq pid.val seq.toNat = some j →
    (j.redo.isSome = true ∨ (∀ c, c < 2 → ¬ ((h.copyTotal j c j.matched).isSome = true ∧ (j.reportsOf c j.matched).all (fun r => decide (r.2.2.2.2.2 + 2100 ≤ h.now)) = true ∧ h.copyTotal j (1 - c) j.matched = none))) →
    Does (.duplexReportTimeout pid seq) s fun h' => h' = h) ∧
  (∀ (s : State) (h : Hw) (pid : Fin 256) (hd : Fin 64) (m : Model) (k : Hw) (segs : List (Nat × LoadSeg)),
    s.hw = h →
    h.fabricOn = true →
    h.model pid.val hd.val = some m →
    m.state = 1 →
    m.loadBytes ≤ m.installed →
    (segs = (m.ways.getD m.way []).flatMap fun e => match h.physFor pid.val e.logical with
      | some t => e.loads.map fun l => (t, l)
      | none => []) →
    h.loadAll pid.val m.va segs = .ok k →
    Does (.installationComplete pid hd) s fun h' => h' = (k.bindModel pid.val hd.val m).modModel pid.val hd.val fun x => { x with state := 2 }) ∧
  (∀ (s : State) (h : Hw) (pid : Fin 256) (hd : Fin 64) (m : Model) (k : Hw) (a e : Nat) (segs : List (Nat × LoadSeg)),
    s.hw = h →
    h.fabricOn = true →
    h.model pid.val hd.val = some m →
    m.state = 1 →
    m.loadBytes ≤ m.installed →
    (segs = (m.ways.getD m.way []).flatMap fun e => match h.physFor pid.val e.logical with
      | some t => e.loads.map fun l => (t, l)
      | none => []) →
    h.loadAll pid.val m.va segs = .error (a, e, k) →
    Does (.installationComplete pid hd) s fun h' => h' = ((k.translationFault 0 e pid.val a).toRegistered pid.val hd.val).failWaiting pid.val hd.val (pageStatus (a, e)).1 (pageStatus (a, e)).2) ∧
  (∀ (s : State) (h : Hw) (pid : Fin 256) (hd : Fin 64),
    s.hw = h →
    (h.fabricOn = false ∨ h.model pid.val hd.val = none) →
    Does (.installationComplete pid hd) s fun h' => h' = h) ∧
  (∀ (s : State) (h : Hw) (pid : Fin 256) (hd : Fin 64) (m : Model),
    s.hw = h →
    h.fabricOn = true →
    h.model pid.val hd.val = some m →
    (m.state ≠ 1 ∨ m.installed < m.loadBytes) →
    Does (.installationComplete pid hd) s fun h' => h' = h) ∧
  (∀ (s : State) (h : Hw) (n : BitVec 32),
    s.hw = h →
    h.fabricOn = true →
    h.sheetExists n.toNat = true →
    (h.sheet n.toNat).owner = 0 →
    (h.sheet n.toNat).gaz = false →
    (h.sheet n.toNat).reserved = false →
    (h.sheet n.toNat).ref = 0 →
    (h.sheet n.toNat).zeroed = false →
    Does (.sheetZeroed n) s fun h' => h' = ((List.range 1024).foldl (fun x i => x.store (h.sheetDpa n.toNat + 64 * i) (zeros 64) false) h).setSheet n.toNat SheetRec.free) ∧
  (∀ (s : State) (h : Hw) (n : BitVec 32),
    s.hw = h →
    (h.fabricOn = false ∨ h.sheetExists n.toNat = false ∨ (h.sheet n.toNat).owner ≠ 0 ∨ (h.sheet n.toNat).gaz = true ∨ (h.sheet n.toNat).reserved = true ∨ (h.sheet n.toNat).ref ≠ 0 ∨ (h.sheet n.toNat).zeroed = true) →
    Does (.sheetZeroed n) s fun h' => h' = h)

/-- The checks of a STREAM_OPEN keep the stream that they read; when the command begins it enters the stream under the
issuer's handle and completes with RESULT 1 when a physical port delivers its logical port, else 2; one whose
descriptor no check could read ends with the failure of its reading, and one changed in between is left open.
STREAM_CLOSE drops the stream, its undrained bytes and the adjustments of its triggers that have not taken effect.
STREAM_QUERY answers state, physical port, buffers completed and frames lost, or 0xFF00 for a handle without a
stream. TRIGGER_SET notes the adjustment, at most ADJ, of the named trigger of the stream's port for the next coat
boundary and answers 0, or 1 when the port has no such trigger; a handle freed in between leaves it open.
FUS_CONFIG releases its set, or makes it anew from its record with no tracks and the identifiers going on, or ends
with the failure of its reading. A FUS_BATCH that begins makes the batch that its acceptance entered, with its set,
addresses, time and deadline, ready for the engine. FUS_READ whose output pages allow the write writes a summary
and a record for each (confirmed) track and answers their number, and 0 for a set that has been released.
FUS_DROP_TRACK frees the slot of a live identifier and answers 1, and answers 0 for one that is not live. Each
clause about a command concludes that exec answers a next state, under conditions on the state and the operands
alone; the constructors covered: streamOpen, streamClose, streamQuery, triggerSet, fusConfig, fusBatch, fusRead,
fusDropTrack. -/
def Obligations.PacketStreamsAndFusion : Prop :=
  (∀ (st : State) (q : QRef) (p : Packet) (qu : Queue) (c : Cmd) (b : Hw) (n : Nat) (k : Hw) (x : Stream),
    Acting st.hw specStreamOpen q p qu c b →
    b.takeKept c = (some (.stream n x), k) →
    Does (.streamOpen q p) st fun h' => Ends (k.openStream n x) h' c 0 (if ((k.openStream n x).physPort x).isSome = true then 1 else 2) 0) ∧
  (∀ (st : State) (q : QRef) (p : Packet) (qu : Queue) (c : Cmd) (b : Hw) (j k : Hw),
    Acting st.hw specStreamOpen q p qu c b →
    b.takeKept c = (none, j) →
    RecordEnds j c (c.f 24 6) 64 k →
    Does (.streamOpen q p) st fun h' => h' = k) ∧
  (∀ (b j k : Hw) (c : Cmd) (bs : List Byte), b.takeKept c = (none, j) → j.cmdRead c.pid (c.f 24 6) 64 = (.ok (bs, false), k) →
    streamOpen b c = k.wildEnd c) ∧
  (∀ (h : Hw) (c : Cmd) (x : Stream), h.readStream c = some x →
    (c.pid, c.queue, c.num, Kept.stream (streamKey c.pid (c.f 16 1)) x) ∈ (specStreamOpen.onAccept h c).sys.kept) ∧
  (∀ (st : State) (q : QRef) (p : Packet) (qu : Queue) (c : Cmd) (b : Hw),
    Acting st.hw specStreamClose q p qu c b →
    Does (.streamClose q p) st fun h' => (h'.stream (streamKey c.pid (c.f 16 1))) = none ∧ Ends (b.closeStream (streamKey c.pid (c.f 16 1))) h' c 0 0 0) ∧
  (∀ (h : Hw) (k n : Nat) (w : IngWrite), (h.stream k).isSome = true → w ∈ (h.closeStream k).ing.share.getD [] n → w.key ≠ k) ∧
  (∀ (st : State) (q : QRef) (p : Packet) (qu : Queue) (c : Cmd) (b : Hw),
    Acting st.hw specStreamQuery q p qu c b →
    Does (.streamQuery q p) st fun h' => Ends b h' c 0 (streamResult b (streamKey c.pid (c.f 16 1))) 0) ∧
  (∀ (h : Hw) (k : Nat), h.stream k = none → streamResult h k = 0xFF00) ∧
  (∀ (st : State) (q : QRef) (p : Packet) (qu : Queue) (c : Cmd) (b : Hw) (x : Stream) (t : TrigRow),
    Acting st.hw specTriggerSet q p qu c b →
    b.stream (streamKey c.pid (c.f 16 1)) = some x →
    (trigsOf b.stn.active.trigs x.port)[c.f 17 1]? = some t →
    Does (.triggerSet q p) st fun h' => Ends ({ b with stn := { b.stn with active := { b.stn.active with trigs := b.stn.active.trigs.map fun y =>
      if y = t then { y with next := some (min (c.f 18 2) y.adj) } else y } } } : Hw) h' c 0 0 0) ∧
  (∀ (b : Hw) (c : Cmd), b.stream (streamKey c.pid (c.f 16 1)) = none → triggerSet b c = b.wildEnd c) ∧
  (∀ (st : State) (q : QRef) (p : Packet) (qu : Queue) (c : Cmd) (b : Hw) (x : Stream),
    Acting st.hw specTriggerSet q p qu c b →
    b.stream (streamKey c.pid (c.f 16 1)) = some x →
    (trigsOf b.stn.active.trigs x.port)[c.f 17 1]? = none →
    Does (.triggerSet q p) st fun h' => Ends b h' c 0 1 0) ∧
  (∀ (st : State) (q : QRef) (p : Packet) (qu : Queue) (c : Cmd) (b : Hw),
    Acting st.hw specFusConfig q p qu c b →
    bit (c.f 17 1) 0 = true →
    Does (.fusConfig q p) st fun h' => Ends (b.setFusSets (b.fus.sets.del (fusKey c.pid (c.f 16 1)))) h' c 0 0 0) ∧
  (∀ (st : State) (q : QRef) (p : Packet) (qu : Queue) (c : Cmd) (b : Hw) (bs : List Byte) (k : Hw),
    Acting st.hw specFusConfig q p qu c b →
    bit (c.f 17 1) 0 = false →
    b.cmdRead c.pid (c.f 24 6) 1024 = (.ok (bs, false), k) →
    Does (.fusConfig q p) st fun h' => Ends (k.setFusSets (k.fus.sets.put (fusKey c.pid (c.f 16 1))
      { cfg := bs, model := c.f 18 1, threeD := bit (c.f 17 1) 1, nExtra := c.f 19 1, capacity := c.f 20 2,
        nextId := ((k.fus.sets.find (fusKey c.pid (c.f 16 1))).map (·.nextId)).getD 1, lastValid := none, tracks := [] })) h' c 0 0 0) ∧
  (∀ (st : State) (q : QRef) (p : Packet) (qu : Queue) (c : Cmd) (b : Hw) (k : Hw),
    Acting st.hw specFusConfig q p qu c b →
    bit (c.f 17 1) 0 = false →
    RecordEnds b c (c.f 24 6) 1024 k →
    Does (.fusConfig q p) st fun h' => h' = k) ∧
  (∀ (st : State) (q : QRef) (p : Packet) (qu : Queue) (c : Cmd) (b : Hw),
    Acting st.hw specFusBatch q p qu c b →
    Does (.fusBatch q p) st fun h' => h'.cmds = b.cmds ∧ ∃ x ∈ h'.fus.batches, x.pid = c.pid ∧ x.queue = c.queue ∧ x.num = c.num ∧ x.ready = true ∧
      x.set = c.f 16 1 ∧ x.m = c.f 20 4 ∧ x.measVa = c.f 24 6 ∧ x.outVa = c.f 32 6 ∧ x.workVa = c.f 40 6 ∧ x.tValid = c.f 48 8 ∧
      x.dl = (if c.f 56 4 = 0 then none else some (c.acceptAt + c.f 56 4)) ∧ x.out = none ∧ x.used = 0) ∧
  (∀ (st : State) (q : QRef) (p : Packet) (qu : Queue) (c : Cmd) (b : Hw) (x : FusSet) (rs : List (List Byte × Bool)) (ps : List (Nat × Nat)),
    Acting st.hw specFusRead q p qu c b →
    b.fusSet c.pid (c.f 16 1) = some x →
    (rs = (x.tracks.filter fun e => c.f 17 1 == 0 || e.2.confirmed).map fun e =>
      (e.2.record e.1 (b2n e.2.confirmed) (x.lastValid.getD 0) (x.q 8) x.n false none, e.2.stained)) →
    b.mem.translateRun c.pid (c.f 24 6) (64 + 512 * rs.length) .wr true = .ok ps →
    Does (.fusRead q p) st fun h' => Ends (b.writeRecords c.pid (c.f 24 6) ((fusSummary rs.length 0 0 0 0 0 0 0 0 b.now, false) :: rs)) h' c 0 rs.length 0) ∧
  (∀ (st : State) (q : QRef) (p : Packet) (qu : Queue) (c : Cmd) (b : Hw) (x : FusSet) (n a e : Nat),
    Acting st.hw specFusRead q p qu c b →
    b.fusSet c.pid (c.f 16 1) = some x →
    (n = (x.tracks.filter fun e => c.f 17 1 == 0 || e.2.confirmed).length) →
    b.mem.translateRun c.pid (c.f 24 6) (64 + 512 * n) .wr true = .error (a, e) →
    Does (.fusRead q p) st fun h' => h' = (b.translationFault 2 e c.pid a).failPage c (a, e)) ∧
  (∀ (b : Hw) (c : Cmd), b.fusSet c.pid (c.f 16 1) = none → fusRead b c = b.done c 0) ∧
  (∀ (b : Hw) (c : Cmd), b.fusSet c.pid (c.f 16 1) = none → fusDropTrack b c = b.done c 0) ∧
  (∀ (st : State) (q : QRef) (p : Packet) (qu : Queue) (c : Cmd) (b : Hw) (x : FusSet) (e : Nat × FusTrack),
    Acting st.hw specFusDropTrack q p qu c b →
    b.fusSet c.pid (c.f 16 1) = some x →
    (x.tracks.find? (fun e => e.2.id == c.f 20 4) = some e) →
    Does (.fusDropTrack q p) st fun h' => Ends ({ b with fus := { b.fus with sets := b.fus.sets.upd (fusKey c.pid (c.f 16 1)) fun y => { y with tracks := y.tracks.del e.1 } } } : Hw) h' c 0 1 0) ∧
  (∀ (st : State) (q : QRef) (p : Packet) (qu : Queue) (c : Cmd) (b : Hw) (x : FusSet),
    Acting st.hw specFusDropTrack q p qu c b →
    b.fusSet c.pid (c.f 16 1) = some x →
    (x.tracks.find? (fun e => e.2.id == c.f 20 4) = none) →
    Does (.fusDropTrack q p) st fun h' => Ends b h' c 0 0 0)

/-- With the fabric on, at the stroke in coat of a trigger's OFFSET plus adjustment, once in a stroke, CAMERA_TRIGGER
drives the GPIO of the physical port in MAP high, notes the stroke and when it falls, and a trigger still
unanswered counts a lost frame; with no port delivering and the camera's own link down it is dropped with event
0x0501. TRIGGER_LOW drives the GPIO low when it is due. A link in training comes up at a gear within its range,
with an event when below the highest, and asks its camera for its identity; a training sequence in which none came
up is DOWN and repeats 100 ms after it began. An identity read stores the bytes and is judged anew. Each clause
about a command concludes that exec answers a next state, under conditions on the state and the operands alone; the
constructors covered: cameraTrigger, triggerLow, camLinkUp, camLinkRetry, cameraIdentityRead. -/
def Obligations.CameraLinksAndTriggers : Prop :=
  (∀ (s : State) (h : Hw) (p : Fin 24) (m : Nat) (a : Hw),
    s.hw = h →
    h.fabricOn = true →
    ((h.stn.active.trigs.any fun t => t.port == p.val && t.offset + t.cur == h.coatPos) = true) →
    (h.cam p.val).lastTrig ≠ some h.now →
    m = h.get (F.CAM_STATUS_MAP.blk p.val) →
    m ≠ 31 →
    (a = if (h.cam p.val).armed = true then h.noFrame p.val else h) →
    Does (.cameraTrigger p) s fun h' => ∃ k : Hw, k = a.modCam p.val (fun x => { x with lastTrig := some a.now, armed := true, lowAt := some (m, a.now + max 1 (a.get (F.CAM_CTRL_TRIG_WIDTH.blk p.val))) }) ∧
      h' = { k with outs := a.outs ++ [.trigger m (a.get (F.CAM_CTRL_TRIG_GPIO.blk p.val)) true] }) ∧
  (∀ (s : State) (h : Hw) (p : Fin 24),
    s.hw = h →
    h.fabricOn = true →
    ((h.stn.active.trigs.any fun t => t.port == p.val && t.offset + t.cur == h.coatPos) = true) →
    (h.cam p.val).lastTrig ≠ some h.now →
    h.get (F.CAM_STATUS_MAP.blk p.val) = 31 →
    h.camUp p.val = false →
    Does (.cameraTrigger p) s fun h' => h' = ((h.put F.STN_INT_STATUS_TRIGGER_DROPPED 1).put (F.CAM_INT_STATUS_TRIG_DROPPED.blk p.val) 1).event (srcCam p.val) 0x0501 0 p.val) ∧
  (∀ (s : State) (h : Hw) (p : Fin 24),
    s.hw = h →
    h.fabricOn = true →
    ((h.stn.active.trigs.any fun t => t.port == p.val && t.offset + t.cur == h.coatPos) = true) →
    (h.cam p.val).lastTrig ≠ some h.now →
    h.get (F.CAM_STATUS_MAP.blk p.val) = 31 →
    h.camUp p.val = true →
    Does (.cameraTrigger p) s fun h' => h' = h) ∧
  (∀ (s : State) (h : Hw) (p : Fin 24),
    s.hw = h →
    (h.fabricOn = false ∨ (h.stn.active.trigs.any fun t => t.port == p.val && t.offset + t.cur == h.coatPos) = false ∨ (h.cam p.val).lastTrig = some h.now) →
    Does (.cameraTrigger p) s fun h' => h' = h) ∧
  (∀ (s : State) (h : Hw) (p : Fin 24) (q t : Nat) (a : Hw),
    s.hw = h →
    h.fabricOn = true →
    (h.cam p.val).lowAt = some (q, t) →
    t ≤ h.now →
    (a = h.modCam p.val fun x => { x with lowAt := none }) →
    Does (.triggerLow p) s fun h' => h' = if a.camUp q = true then { a with outs := a.outs ++ [.trigger q (a.get (F.CAM_CTRL_TRIG_GPIO.blk p.val)) false] } else a) ∧
  (∀ (s : State) (h : Hw) (p : Fin 24),
    s.hw = h →
    (∀ q t, (h.cam p.val).lowAt = some (q, t) → h.fabricOn = false ∨ h.now < t) →
    Does (.triggerLow p) s fun h' => h' = h) ∧
  (∀ (s : State) (h : Hw) (q : Fin 24) (gear : Fin 6) (hi lo : Nat) (a b : Hw),
    s.hw = h →
    h.fabricOn = true →
    h.camGears q.val = (hi, lo) →
    h.get (F.CAM_STATUS_LINK.blk q.val) = 1 →
    lo ≤ gear.val →
    gear.val ≤ hi →
    (a = ((h.put (F.CAM_STATUS_LINK.blk q.val) 2).put (F.CAM_STATUS_GEAR_NOW.blk q.val) gear.val).modCam q.val fun x => { x with idRead := 0 }) →
    (b = if gear.val < hi then (a.event (srcCam q.val) 0x0503 0 gear.val).healthAdd (partPort q.val) inRetrain 1 else a) →
    Does (.camLinkUp q gear) s fun h' => h' = (b.askIdentity q.val).judgeCams none) ∧
  (∀ (s : State) (h : Hw) (q : Fin 24) (gear : Fin 6) (hi lo : Nat),
    s.hw = h →
    h.camGears q.val = (hi, lo) →
    (h.fabricOn = false ∨ gear.val < lo ∨ hi < gear.val ∨ h.get (F.CAM_STATUS_LINK.blk q.val) ≠ 1) →
    Does (.camLinkUp q gear) s fun h' => h' = h) ∧
  (∀ (s : State) (h : Hw) (q : Fin 24) (hi lo : Nat),
    s.hw = h →
    h.fabricOn = true →
    h.camGears q.val = (hi, lo) →
    h.get (F.CAM_STATUS_LINK.blk q.val) = 1 →
    20000 * (hi - lo + 1) ≤ h.now - (h.cam q.val).trainAt →
    Does (.camLinkRetry q) s fun h' => h' = h.put (F.CAM_STATUS_LINK.blk q.val) 3) ∧
  (∀ (s : State) (h : Hw) (q : Fin 24),
    s.hw = h →
    h.fabricOn = true →
    h.get (F.CAM_STATUS_LINK.blk q.val) = 3 →
    100000 ≤ h.now - (h.cam q.val).trainAt →
    Does (.camLinkRetry q) s fun h' => h' = (h.put (F.CAM_STATUS_LINK.blk q.val) 1).modCam q.val fun x => { x with trainAt := h.now }) ∧
  (∀ (s : State) (h : Hw) (q : Fin 24) (hi lo : Nat),
    s.hw = h →
    h.camGears q.val = (hi, lo) →
    (h.fabricOn = false ∨ ¬ (h.get (F.CAM_STATUS_LINK.blk q.val) = 1 ∧ 20000 * (hi - lo + 1) ≤ h.now - (h.cam q.val).trainAt) ∧ ¬ (h.get (F.CAM_STATUS_LINK.blk q.val) = 3 ∧ 100000 ≤ h.now - (h.cam q.val).trainAt)) →
    Does (.camLinkRetry q) s fun h' => h' = h) ∧
  (∀ (s : State) (h : Hw) (q : Fin 24) (id : Option (List Byte)),
    s.hw = h →
    h.fabricOn = true →
    h.camUp q.val = true →
    h.on (F.CAM_CTRL_IDCHK.blk q.val) = true →
    Does (.cameraIdentityRead q id) s fun h' => h' = (match id with
      | some bs => (h.putIdentity q.val bs).modCam q.val fun x => { x with idRead := 1 }
      | none => h.modCam q.val fun x => { x with idRead := 2 }).judgeCams (some q.val)) ∧
  (∀ (s : State) (h : Hw) (q : Fin 24) (id : Option (List Byte)),
    s.hw = h →
    (h.fabricOn = false ∨ h.camUp q.val = false ∨ h.on (F.CAM_CTRL_IDCHK.blk q.val) = false) →
    Does (.cameraIdentityRead q id) s fun h' => h' = h) ∧
  (∀ (h : Hw) (q f p : Nat), q < 24 → h.camUp q = true → h.on (F.CAM_CTRL_IDCHK.blk q) = true → (h.cam q).idRead = 1 → f = h.idFound q →
    (List.range 24).filter (fun p => h.idExp p == f) = [p] → (∀ r, r < 24 → r ≠ q → h.idKnown r = true → h.idFound r ≠ f) →
    h.judgeId q = if p = q then (1, 31) else (2, p))

/-- On a physical port whose link is up and that delivers a stream: a Frame Start of its virtual channel cuts the
buffer in progress short and opens the next one, when the consumer has released enough, else counts a lost frame; a
packet whose header cannot be corrected marks the buffer; a line of its data type, or of embedded data where the
stream asks for it, is held at its place in the buffer; one of a type that is not supported is counted as
unclaimed; a Frame End closes the buffer with its time. A lidar frame of bad length is ignored, one with a bad
check is counted, one that no stream claims is counted, any other is taken by its stream. A buffer whose first
frame is FLUSH strokes old closes. The oldest drained buffer of a stream writes its record and adds to its sync
object; a page that fails and an object that is not held fault the stream. Each clause about a command concludes
that exec answers a next state, under conditions on the state and the operands alone; the constructors covered:
frameStart, longPacket, frameEnd, lidarFrame, lidarFlush, bufferComplete. -/
def Obligations.Frames : Prop :=
  (∀ (s : State) (h : Hw) (q : Fin 24) (vc : Fin 16) (num : BitVec 16) (ns10 : Fin 100) (p k : Nat) (x : Stream) (a : Hw),
    s.hw = h →
    h.fabricOn = true →
    h.camUp q.val = true →
    h.camOf q.val = some p →
    h.streamOn false p = some k →
    h.stream k = some x →
    x.vc = vc.val →
    x.faulted = false →
    (a = (h.modCam p fun y => { y with armed := false }).cutBuf k) →
    Does (.frameStart q vc num ns10) s fun h' => h' = if a.mayOpen x = true then a.openBuf k x q.val (h.now * 1000 + 10 * ns10.val) num.toNat
      ((h.cam p).lastTrig.any fun t => decide (h.get (F.CAM_CTRL_FS_WINDOW.blk p) < h.now - t)) (! (h.cam p).armed) else a.loseFrames k 1) ∧
  (∀ (s : State) (h : Hw) (q : Fin 24) (vc : Fin 16) (num : BitVec 16) (ns10 : Fin 100) (p k : Nat) (x : Stream),
    s.hw = h →
    h.fabricOn = true →
    h.camUp q.val = true →
    h.camOf q.val = some p →
    h.streamOn false p = some k →
    h.stream k = some x →
    x.vc = vc.val →
    x.faulted = true →
    Does (.frameStart q vc num ns10) s fun h' => h' = (h.modCam p fun y => { y with armed := false }).cutBuf k) ∧
  (∀ (s : State) (h : Hw) (q : Fin 24) (vc : Fin 16) (num : BitVec 16) (ns10 : Fin 100) (p k : Nat) (x : Stream),
    s.hw = h →
    h.fabricOn = true →
    h.camUp q.val = true →
    h.camOf q.val = some p →
    h.streamOn false p = some k →
    h.stream k = some x →
    x.vc ≠ vc.val →
    Does (.frameStart q vc num ns10) s fun h' => h' = h) ∧
  (∀ (s : State) (h : Hw) (q : Fin 24) (vc : Fin 16) (num : BitVec 16) (ns10 : Fin 100) (p : Nat),
    s.hw = h →
    h.fabricOn = true →
    h.camUp q.val = true →
    h.camOf q.val = some p →
    (h.streamOn false p).bind h.stream = none →
    Does (.frameStart q vc num ns10) s fun h' => h' = h.modCam p fun y => { y with armed := false }) ∧
  (∀ (s : State) (h : Hw) (q : Fin 24) (vc : Fin 16) (num : BitVec 16) (ns10 : Fin 100),
    s.hw = h →
    (h.fabricOn = false ∨ h.camUp q.val = false ∨ h.camOf q.val = none) →
    Does (.frameStart q vc num ns10) s fun h' => h' = h) ∧
  (∀ (s : State) (h : Hw) (q : Fin 24) (p : CsiPacket) (a : Hw) (k : Nat) (x : Stream) (y : IngBuf),
    s.hw = h →
    h.fabricOn = true →
    h.camUp q.val = true →
    p.hdr ≠ 2 →
    (a = if p.hdr = 1 then h.addSat (F.CAM_ERR_HDR_CORR.blk q.val) 1 else h) →
    oddType p.dt.toNat = false →
    a.camStream q.val = some (k, x) →
    x.cur = some y →
    x.vc = p.vc.val →
    (p.dt.toNat = x.dt ∨ x.emb = true ∧ p.dt.toNat = 0x12) →
    (p.dt.toNat = 0x12 ∨ 0x18 ≤ p.dt.toNat) →
    x.faulted = false →
    y.failed = false →
    Does (.longPacket q p) s fun h' => h' = a.takeLine q.val k x y p) ∧
  (∀ (s : State) (h : Hw) (q : Fin 24) (p : CsiPacket) (a : Hw) (k : Nat) (x : Stream) (y : IngBuf),
    s.hw = h →
    h.fabricOn = true →
    h.camUp q.val = true →
    p.hdr ≠ 2 →
    (a = if p.hdr = 1 then h.addSat (F.CAM_ERR_HDR_CORR.blk q.val) 1 else h) →
    oddType p.dt.toNat = false →
    a.camStream q.val = some (k, x) →
    x.cur = some y →
    (x.vc ≠ p.vc.val ∨ (p.dt.toNat ≠ x.dt ∧ (x.emb = false ∨ p.dt.toNat ≠ 0x12)) ∨ x.faulted = true ∨ y.failed = true) →
    Does (.longPacket q p) s fun h' => h' = a) ∧
  (∀ (s : State) (h : Hw) (q : Fin 24) (p : CsiPacket) (a : Hw),
    s.hw = h →
    h.fabricOn = true →
    h.camUp q.val = true →
    p.hdr ≠ 2 →
    (a = if p.hdr = 1 then h.addSat (F.CAM_ERR_HDR_CORR.blk q.val) 1 else h) →
    oddType p.dt.toNat = false →
    (∀ k x, a.camStream q.val = some (k, x) → x.cur = none) →
    Does (.longPacket q p) s fun h' => h' = a) ∧
  (∀ (s : State) (h : Hw) (q : Fin 24) (p : CsiPacket) (a : Hw),
    s.hw = h →
    h.fabricOn = true →
    h.camUp q.val = true →
    p.hdr ≠ 2 →
    (a = if p.hdr = 1 then h.addSat (F.CAM_ERR_HDR_CORR.blk q.val) 1 else h) →
    oddType p.dt.toNat = true →
    Does (.longPacket q p) s fun h' => h' = a.modCam q.val fun x => { x with unclaimed := x.unclaimed + 1 }) ∧
  (∀ (s : State) (h : Hw) (q : Fin 24) (p : CsiPacket) (a : Hw) (k : Nat) (x : Stream),
    s.hw = h →
    h.fabricOn = true →
    h.camUp q.val = true →
    p.hdr = 2 →
    a = h.addSat (F.CAM_ERR_HDR_UNCORR.blk q.val) 1 →
    a.camStream q.val = some (k, x) →
    Does (.longPacket q p) s fun h' => h' = a.modStream k fun z => { z with cur := z.cur.map fun y => { y with hdrErr := true } }) ∧
  (∀ (s : State) (h : Hw) (q : Fin 24) (p : CsiPacket) (a : Hw),
    s.hw = h →
    h.fabricOn = true →
    h.camUp q.val = true →
    p.hdr = 2 →
    a = h.addSat (F.CAM_ERR_HDR_UNCORR.blk q.val) 1 →
    a.camStream q.val = none →
    Does (.longPacket q p) s fun h' => h' = a) ∧
  (∀ (s : State) (h : Hw) (q : Fin 24) (p : CsiPacket),
    s.hw = h →
    (h.fabricOn = false ∨ h.camUp q.val = false) →
    Does (.longPacket q p) s fun h' => h' = h) ∧
  (∀ (s : State) (h : Hw) (q : Fin 24) (vc : Fin 16) (ns10 : Fin 100) (k : Nat) (x : Stream),
    s.hw = h →
    h.fabricOn = true →
    h.camUp q.val = true →
    h.camStream q.val = some (k, x) →
    x.vc = vc.val →
    Does (.frameEnd q vc ns10) s fun h' => h' = h.closeBuf k fun y => { y with tEnd := h.now * 1000 + 10 * ns10.val }) ∧
  (∀ (s : State) (h : Hw) (q : Fin 24) (vc : Fin 16) (ns10 : Fin 100),
    s.hw = h →
    (∀ k x, h.camStream q.val = some (k, x) → h.fabricOn = false ∨ h.camUp q.val = false ∨ x.vc ≠ vc.val) →
    Does (.frameEnd q vc ns10) s fun h' => h' = h) ∧
  (∀ (s : State) (h : Hw) (q : Fin 8) (f : EthFrame) (ns10 : Fin 100),
    s.hw = h →
    h.fabricOn = true →
    h.get (F.LID_STATUS_LINK.blk q.val) = 2 →
    (f.bytes.length < 60 ∨ 9212 < f.bytes.length) →
    Does (.lidarFrame q f ns10) s fun h' => h' = h) ∧
  (∀ (s : State) (h : Hw) (q : Fin 8) (f : EthFrame) (ns10 : Fin 100),
    s.hw = h →
    h.fabricOn = true →
    h.get (F.LID_STATUS_LINK.blk q.val) = 2 →
    60 ≤ f.bytes.length →
    f.bytes.length ≤ 9212 →
    f.fcsOk = false →
    Does (.lidarFrame q f ns10) s fun h' => h' = h.addSat (F.LID_ERR_FCS.blk q.val) 1) ∧
  (∀ (s : State) (h : Hw) (q : Fin 8) (f : EthFrame) (ns10 : Fin 100) (a : Hw) (e : Nat × Stream),
    s.hw = h →
    h.fabricOn = true →
    h.get (F.LID_STATUS_LINK.blk q.val) = 2 →
    60 ≤ f.bytes.length →
    f.bytes.length ≤ 9212 →
    f.fcsOk = true →
    (a = (h.ing.streams.filter fun e => e.2.lidar && e.2.srcMac ≠ 0 && e.2.srcMac == beNat ((f.bytes.drop 6).take 6) && e.2.port ≠ q.val).foldl
      (fun x e => x.strayFrame q.val e.2.port) h) →
    (a.ing.streams.find? (fun e => e.2.lidar && a.physPort e.2 == some q.val && e.2.matchesFrame f.bytes) = some e) →
    Does (.lidarFrame q f ns10) s fun h' => h' = a.takeFrame q.val e.1 (h.now * 1000 + 10 * ns10.val) f) ∧
  (∀ (s : State) (h : Hw) (q : Fin 8) (f : EthFrame) (ns10 : Fin 100) (a : Hw),
    s.hw = h →
    h.fabricOn = true →
    h.get (F.LID_STATUS_LINK.blk q.val) = 2 →
    60 ≤ f.bytes.length →
    f.bytes.length ≤ 9212 →
    f.fcsOk = true →
    (a = (h.ing.streams.filter fun e => e.2.lidar && e.2.srcMac ≠ 0 && e.2.srcMac == beNat ((f.bytes.drop 6).take 6) && e.2.port ≠ q.val).foldl
      (fun x e => x.strayFrame q.val e.2.port) h) →
    (a.ing.streams.find? (fun e => e.2.lidar && a.physPort e.2 == some q.val && e.2.matchesFrame f.bytes) = none) →
    Does (.lidarFrame q f ns10) s fun h' => h' = a.addSat (F.LID_ERR_UNCLAIMED.blk q.val) 1) ∧
  (∀ (s : State) (h : Hw) (q : Fin 8) (f : EthFrame) (ns10 : Fin 100),
    s.hw = h →
    (h.fabricOn = false ∨ h.get (F.LID_STATUS_LINK.blk q.val) ≠ 2) →
    Does (.lidarFrame q f ns10) s fun h' => h' = h) ∧
  (∀ (s : State) (h : Hw) (pid : Fin 256) (hd : Fin 32) (x : Stream) (y : IngBuf),
    s.hw = h →
    h.fabricOn = true →
    h.stream (streamKey pid.val hd.val) = some x →
    x.lidar = true →
    x.cur = some y →
    y.firstAt + x.pitch ≤ h.now →
    Does (.lidarFlush pid hd) s fun h' => h' = h.closeBuf (streamKey pid.val hd.val) id) ∧
  (∀ (s : State) (h : Hw) (pid : Fin 256) (hd : Fin 32),
    s.hw = h →
    (∀ x, h.stream (streamKey pid.val hd.val) = some x → h.fabricOn = false ∨ x.lidar = false ∨ (∀ y, x.cur = some y → h.now < y.firstAt + x.pitch)) →
    Does (.lidarFlush pid hd) s fun h' => h' = h) ∧
  (∀ (s : State) (h : Hw) (pid : Fin 256) (hd : Fin 32) (n : Nat) (x : Stream) (y : IngBuf) (ys : List IngBuf) (rec : List Byte) (g a : Hw),
    s.hw = h →
    h.fabricOn = true →
    n = streamKey pid.val hd.val →
    h.stream n = some x →
    x.done = y :: ys →
    x.faulted = false →
    h.quiet = false →
    h.undrained n y.n = false →
    h.streamBytes x (recordOf x y) = (rec, g) →
    g.writeVa 5 (n / 32) (x.recVa + 64 * (y.n % max x.nBuf 1)) rec false = (none, a) →
    a.holdsSob (n / 32) x.doneSob = true →
    Does (.bufferComplete pid hd) s fun h' => ∃ k : Hw, k = (a.sobPerform x.doneSob (.add x.doneAdd)).2.modStream n (fun z => { z with done := ys, completed := (z.completed + 1) % 2 ^ 32, lostSince := 0 }) ∧
      h' = if x.lidar = true then k else k.addSat (F.CAM_COUNT_FRAMES.blk x.port) 1) ∧
  (∀ (s : State) (h : Hw) (pid : Fin 256) (hd : Fin 32) (n : Nat) (x : Stream) (y : IngBuf) (ys : List IngBuf) (rec : List Byte) (g a : Hw),
    s.hw = h →
    h.fabricOn = true →
    n = streamKey pid.val hd.val →
    h.stream n = some x →
    x.done = y :: ys →
    x.faulted = false →
    h.quiet = false →
    h.undrained n y.n = false →
    h.streamBytes x (recordOf x y) = (rec, g) →
    g.writeVa 5 (n / 32) (x.recVa + 64 * (y.n % max x.nBuf 1)) rec false = (none, a) →
    a.holdsSob (n / 32) x.doneSob = false →
    Does (.bufferComplete pid hd) s fun h' => h' = a.faultStream n x) ∧
  (∀ (s : State) (h : Hw) (pid : Fin 256) (hd : Fin 32) (n : Nat) (x : Stream) (y : IngBuf) (ys : List IngBuf) (rec : List Byte) (g a : Hw) (e : Nat × Nat),
    s.hw = h →
    h.fabricOn = true →
    n = streamKey pid.val hd.val →
    h.stream n = some x →
    x.done = y :: ys →
    x.faulted = false →
    h.quiet = false →
    h.undrained n y.n = false →
    h.streamBytes x (recordOf x y) = (rec, g) →
    g.writeVa 5 (n / 32) (x.recVa + 64 * (y.n % max x.nBuf 1)) rec false = (some e, a) →
    Does (.bufferComplete pid hd) s fun h' => h' = a.faultStream n x) ∧
  (∀ (s : State) (h : Hw) (pid : Fin 256) (hd : Fin 32) (n : Nat),
    s.hw = h →
    n = streamKey pid.val hd.val →
    (h.fabricOn = false ∨ h.quiet = true ∨ h.stream n = none ∨ (∃ x, h.stream n = some x ∧ (x.done = [] ∨ x.faulted = true ∨ ∃ y ys, x.done = y :: ys ∧ h.undrained n y.n = true))) →
    Does (.bufferComplete pid hd) s fun h' => h' = h)

/-- POWER_OPEN, OVERCURRENT, SHORT_GND and SHORT_BAT put a camera switch into state 2, 3, 4 or 5 with the current and
the voltage measured, when it is ON and the current is below 20 mA, above ILIM, above 3 A, or whatever it is;
otherwise nothing changes. A rail current above 12.5 A puts the highest powered port into OVERCURRENT. LINK_UP
records an enabled link that is down as up; LINK_DOWN of a camera that is up starts its retraining when its power
stays on, that of another link marks it as training with its event. PAIR_DIAGNOSTIC of a down link, once in 100,000
strokes, notes the result and raises an event when it is a new fault. Each clause about a command concludes that
exec answers a next state, under conditions on the state and the operands alone; the constructors covered:
powerOpen, powerOvercurrent, powerShortGnd, powerShortBat, camrailTrip, linkUp, linkDown, pairDiagnostic. -/
def Obligations.CameraPowerAndEthernetLinks : Prop :=
  (∀ (s : State) (h : Hw) (q : Fin 24) (ma mv : BitVec 16),
    s.hw = h →
    h.get (F.CAM_STATUS_PWR_STATE.blk q.val) = 1 →
    ma.toNat < 20 →
    Does (.powerOpen q ma mv) s fun h' => h' = h.camFault q.val 2 ma.toNat mv.toNat) ∧
  (∀ (s : State) (h : Hw) (q : Fin 24) (ma mv : BitVec 16),
    s.hw = h →
    (h.get (F.CAM_STATUS_PWR_STATE.blk q.val) ≠ 1 ∨ 20 ≤ ma.toNat) →
    Does (.powerOpen q ma mv) s fun h' => h' = h) ∧
  (∀ (s : State) (h : Hw) (q : Fin 24) (ma mv : BitVec 16),
    s.hw = h →
    h.camPowered q.val = true →
    10 * max 10 (min 125 (h.get (F.CAM_CTRL_ILIM.blk q.val))) < ma.toNat →
    Does (.powerOvercurrent q ma mv) s fun h' => h' = h.camFault q.val 3 ma.toNat mv.toNat) ∧
  (∀ (s : State) (h : Hw) (q : Fin 24) (ma mv : BitVec 16),
    s.hw = h →
    (h.camPowered q.val = false ∨ ma.toNat ≤ 10 * max 10 (min 125 (h.get (F.CAM_CTRL_ILIM.blk q.val)))) →
    Does (.powerOvercurrent q ma mv) s fun h' => h' = h) ∧
  (∀ (s : State) (h : Hw) (q : Fin 24) (ma mv : BitVec 16),
    s.hw = h →
    h.camPowered q.val = true →
    3000 < ma.toNat →
    Does (.powerShortGnd q ma mv) s fun h' => h' = h.camFault q.val 4 ma.toNat mv.toNat) ∧
  (∀ (s : State) (h : Hw) (q : Fin 24) (ma mv : BitVec 16),
    s.hw = h →
    h.camPowered q.val = true →
    Does (.powerShortBat q ma mv) s fun h' => h' = h.camFault q.val 5 ma.toNat mv.toNat) ∧
  (∀ (s : State) (h : Hw) (q : Fin 24) (ma mv : BitVec 16),
    s.hw = h →
    (h.camPowered q.val = false ∨ ma.toNat ≤ 3000) →
    Does (.powerShortGnd q ma mv) s fun h' => h' = h) ∧
  (∀ (s : State) (h : Hw) (q : Fin 24) (ma mv : BitVec 16),
    s.hw = h →
    h.camPowered q.val = false →
    Does (.powerShortBat q ma mv) s fun h' => h' = h) ∧
  (∀ (h a : Hw) (q st ma mv : Nat),
    a = ((((h.put (F.CAM_PWR_MEAS_MA.blk q) ma).put (F.CAM_PWR_MEAS_MV.blk q) mv).put (F.CAM_STATUS_PWR_STATE.blk q) st).put
      (F.CAM_INT_STATUS_PWR_FAULT.blk q) 1).event (srcCam q) 0x0506 0 st → h.camFault q st ma mv = a.camFollow q) ∧
  (∀ (s : State) (h : Hw) (ma : BitVec 16) (q : Nat),
    s.hw = h →
    (List.range 24).reverse.find? h.camPowered = some q →
    12500 < ma.toNat →
    Does (.camrailTrip ma) s fun h' => h' = ((h.put F.PWR_STATUS_CAMRAIL_TRIP 1).put F.PWR_INT_STATUS_CAMRAIL 1).camFault q 3 (h.get (F.CAM_PWR_MEAS_MA.blk q))
      (h.get (F.CAM_PWR_MEAS_MV.blk q))) ∧
  (∀ (s : State) (h : Hw) (ma : BitVec 16),
    s.hw = h →
    (ma.toNat ≤ 12500 ∨ (List.range 24).reverse.find? h.camPowered = none) →
    Does (.camrailTrip ma) s fun h' => h' = h) ∧
  (∀ (s : State) (h : Hw) (p : Fin 40) (a : Hw),
    s.hw = h →
    h.ethEnabled p.val = true →
    h.ethUp p.val = false →
    2 ≤ h.mode →
    a = h.setEth p.val 2 →
    Does (.linkUp p) s fun h' => ∃ k : Hw, k = { a with ing := { a.ing with pairs := a.ing.pairs.del p.val, pairAt := a.ing.pairAt.del p.val } } ∧
      h' = if p.val < 32 then k.remapLids
        else if 38 ≤ p.val then (k.put F.PEER_INT_STATUS_LINK 1).event (ethSource p.val) 0x0701 0 0 else k) ∧
  (∀ (s : State) (h : Hw) (p : Fin 40),
    s.hw = h →
    (h.ethEnabled p.val = false ∨ h.ethUp p.val = true ∨ h.mode < 2) →
    Does (.linkUp p) s fun h' => h' = h) ∧
  (∀ (s : State) (h : Hw) (p : Fin 40),
    s.hw = h →
    p.val < 24 →
    h.camUp p.val = true →
    Does (.linkDown p) s fun h' => h' = h.camLost p.val (if h.camPowered p.val = true then 1 else 0)) ∧
  (∀ (s : State) (h : Hw) (p : Fin 40),
    s.hw = h →
    24 ≤ p.val →
    h.ethUp p.val = true →
    Does (.linkDown p) s fun h' => h' = h.ethLost p.val) ∧
  (∀ (s : State) (h : Hw) (p : Fin 40),
    s.hw = h →
    (p.val < 24 ∧ h.camUp p.val = false ∨ 24 ≤ p.val ∧ h.ethUp p.val = false) →
    Does (.linkDown p) s fun h' => h' = h) ∧
  (∀ (s : State) (h : Hw) (p : Fin 40) (r : Fin 3) (a : Hw),
    s.hw = h →
    24 ≤ p.val →
    p.val < 36 →
    2 ≤ h.mode →
    h.ethEnabled p.val = true →
    h.ethUp p.val = false →
    (∀ t, h.ing.pairAt.find p.val = some t → t + 100000 ≤ h.now) →
    a = { h with ing := { h.ing with pairs := h.ing.pairs.putD 0 p.val r.val, pairAt := h.ing.pairAt.put p.val h.now } } →
    Does (.pairDiagnostic p r) s fun h' => ∃ k : Hw, k = a.event (ethSource p.val) 0x050B 0 (r.val - 1) ∧
      h' = if r.val = 0 ∨ r.val = h.ing.pairs.getD 0 p.val then a
        else if p.val = 32 then k.put F.BB_INT_STATUS_PAIR_FAULT0 1
        else if p.val = 33 then k.put F.BB_INT_STATUS_PAIR_FAULT1 1 else k) ∧
  (∀ (s : State) (h : Hw) (p : Fin 40) (r : Fin 3),
    s.hw = h →
    (h.ethUp p.val = true ∨ p.val < 24 ∨ 36 ≤ p.val ∨ h.mode < 2 ∨ h.ethEnabled p.val = false ∨ (∃ t, h.ing.pairAt.find p.val = some t ∧ h.now < t + 100000)) →
    Does (.pairDiagnostic p r) s fun h' => h' = h)

/-- With the fabric on, after an error that its store meets, once in a stroke, the engine notes the stroke, counts the
partitions out of cycles, has the batches pay the memory traffic that they owe, brings a saved batch back, gives
the stroke to the batch that R349 picks (which it begins when it has no results) and saves one that stops
unfinished; a batch that has its results and owes nothing takes at most 950 cycles within its partition's budget. A
batch that has taken all its cycles and is neither late nor stained pays for its output and commits: summary and
records are written, then the set takes the staged tracks, the next identifier and T_VALID together and the command
completes DONE with its counts; one whose T_VALID lies before the set's only fails. A late batch ends FAIL_DEADLINE
with its stage; one that ends otherwise leaves every track as it was. Each clause about a command concludes that
exec answers a next state, under conditions on the state and the operands alone; the constructors covered:
fusionSchedule, fusionBatchCommit, fusionDeadline. -/
def Obligations.FusionEngine : Prop :=
  (∀ (s : State) (h : Hw) (u : Option FusUpset) (g : Hw),
    s.hw = h →
    h.fabricOn = true →
    g = (match u with | some e => h.fusUpset e | none => h) →
    g.fus.ranAt = some g.now →
    Does (.fusionSchedule u) s fun h' => h' = g) ∧
  (∀ (s : State) (h : Hw) (u : Option FusUpset) (g a : Hw),
    s.hw = h →
    h.fabricOn = true →
    g = (match u with | some e => h.fusUpset e | none => h) →
    g.fus.ranAt ≠ some g.now →
    a = ({ g with fus := { g.fus with ranAt := some g.now } } : Hw).fusShort.fusPayAll.fusBringBack →
    a.fusPick = none →
    Does (.fusionSchedule u) s fun h' => h' = (a.fusSwitch none).showFus) ∧
  (∀ (s : State) (h : Hw) (u : Option FusUpset) (g a : Hw) (x : FusBatch),
    s.hw = h →
    h.fabricOn = true →
    g = (match u with | some e => h.fusUpset e | none => h) →
    g.fus.ranAt ≠ some g.now →
    a = ({ g with fus := { g.fus with ranAt := some g.now } } : Hw).fusShort.fusPayAll.fusBringBack →
    a.fusPick = some x →
    x.out.isSome = true →
    Does (.fusionSchedule u) s fun h' => h' = ((a.fusSwitch (some x)).fusGive x).showFus) ∧
  (∀ (s : State) (h : Hw) (u : Option FusUpset) (g a k : Hw) (x : FusBatch),
    s.hw = h →
    h.fabricOn = true →
    g = (match u with | some e => h.fusUpset e | none => h) →
    g.fus.ranAt ≠ some g.now →
    a = ({ g with fus := { g.fus with ranAt := some g.now } } : Hw).fusShort.fusPayAll.fusBringBack →
    a.fusPick = some x →
    x.out = none →
    (a.fusSwitch (some x)).fusBegin x = .error k →
    Does (.fusionSchedule u) s fun h' => h' = k.showFus) ∧
  (∀ (s : State) (h : Hw) (u : Option FusUpset) (g a k : Hw) (x : FusBatch),
    s.hw = h →
    h.fabricOn = true →
    g = (match u with | some e => h.fusUpset e | none => h) →
    g.fus.ranAt ≠ some g.now →
    a = ({ g with fus := { g.fus with ranAt := some g.now } } : Hw).fusShort.fusPayAll.fusBringBack →
    a.fusPick = some x →
    x.out = none →
    (a.fusSwitch (some x)).fusBegin x = .ok k →
    Does (.fusionSchedule u) s fun h' => h' = (k.fusPayAll.fusGive x).showFus) ∧
  (∀ (s : State) (h : Hw) (u : Option FusUpset),
    s.hw = h →
    h.fabricOn = false →
    Does (.fusionSchedule u) s fun h' => h' = h) ∧
  (∀ h : Hw, h.fusUpset .corrected = h.addSat F.FUS_STORE_ERR_CORRECTED 1) ∧
  (∀ (h : Hw) (x : FusBatch) (o : FusOut), h.fus.batches.find? (fun y => y.pid == x.pid && y.queue == x.queue && y.num == x.num) = some x →
    x.stained = false → x.out = some o →
    (∀ y ∈ (h.fusGive x).fus.batches, y.pid = x.pid → y.queue = x.queue → y.num = x.num →
      ∃ z ∈ h.fus.batches, y = { z with used := z.used +
        if x.owes.isEmpty = true then min (min 950 (o.total - x.used)) (h.stn.fusCycles.getD 0 x.pid) else 0 }) ∧
    (h.fusGive x).fus.running = some (x.pid, x.queue, x.num) ∧ (h.fusGive x).fus.sets = h.fus.sets) ∧
  (∀ (s : State) (h : Hw) (pid : Fin 256) (set : Fin 4) (x : FusBatch) (o : FusOut),
    s.hw = h →
    h.fabricOn = true →
    (h.fus.batches.find? (fun x => x.pid == pid.val && x.set == set.val && x.out.isSome) = some x) →
    x.out = some o →
    h.fusLate x = true →
    Does (.fusionBatchCommit pid set) s fun h' => h' = h.fusFail x (some 3) 0x3004 x.stage) ∧
  (∀ (s : State) (h : Hw) (pid : Fin 256) (set : Fin 4) (x : FusBatch) (o : FusOut),
    s.hw = h →
    h.fabricOn = true →
    (h.fus.batches.find? (fun x => x.pid == pid.val && x.set == set.val && x.out.isSome) = some x) →
    x.out = some o →
    h.fusLate x = false →
    x.stained = true →
    Does (.fusionBatchCommit pid set) s fun h' => h' = h.fusFail x (some 0) 0x3001 0xFFFF_FFFF) ∧
  (∀ (s : State) (h : Hw) (pid : Fin 256) (set : Fin 4) (x : FusBatch) (o : FusOut),
    s.hw = h →
    h.fabricOn = true →
    (h.fus.batches.find? (fun x => x.pid == pid.val && x.set == set.val && x.out.isSome) = some x) →
    x.out = some o →
    h.fusLate x = false →
    x.stained = false →
    x.used < o.total →
    Does (.fusionBatchCommit pid set) s fun h' => h' = h) ∧
  (∀ (s : State) (h : Hw) (pid : Fin 256) (set : Fin 4) (x y : FusBatch) (o : FusOut) (n : Nat) (g : Hw),
    s.hw = h →
    h.fabricOn = true →
    (h.fus.batches.find? (fun x => x.pid == pid.val && x.set == set.val && x.out.isSome) = some x) →
    x.out = some o →
    h.fusLate x = false →
    x.stained = false →
    o.total ≤ x.used →
    (y = if x.written = true then x else { x with written := true, owes := linesOf x.outVa o.outBytes true }) →
    h.payLines x.pid y.owes = (n, g) →
    n < y.owes.length →
    Does (.fusionBatchCommit pid set) s fun h' => h' = g.modBatch y fun z => { z with written := true, owes := y.owes.drop n }) ∧
  (∀ (s : State) (h : Hw) (pid : Fin 256) (set : Fin 4) (x y : FusBatch) (o : FusOut) (n : Nat) (g : Hw),
    s.hw = h →
    h.fabricOn = true →
    (h.fus.batches.find? (fun x => x.pid == pid.val && x.set == set.val && x.out.isSome) = some x) →
    x.out = some o →
    h.fusLate x = false →
    x.stained = false →
    o.total ≤ x.used →
    (y = if x.written = true then x else { x with written := true, owes := linesOf x.outVa o.outBytes true }) →
    h.payLines x.pid y.owes = (n, g) →
    y.owes.length ≤ n →
    o.flags = 1 →
    o.nMeas = 0 →
    Does (.fusionBatchCommit pid set) s fun h' => h' = ((g.dropBatch y).addSat F.FUS_BATCHES_FAILED 1).finishAt y.pid y.queue y.num 0
        (o.records.length + o.assigned * 2 ^ 13 + o.born * 2 ^ 26 + o.deleted * 2 ^ 39 + o.flags * 2 ^ 52) 0 {}) ∧
  (∀ (s : State) (h : Hw) (pid : Fin 256) (set : Fin 4) (x y : FusBatch) (o : FusOut) (n : Nat) (g : Hw) (e : Nat × Nat) (k : Hw),
    s.hw = h →
    h.fabricOn = true →
    (h.fus.batches.find? (fun x => x.pid == pid.val && x.set == set.val && x.out.isSome) = some x) →
    x.out = some o →
    h.fusLate x = false →
    x.stained = false →
    o.total ≤ x.used →
    (y = if x.written = true then x else { x with written := true, owes := linesOf x.outVa o.outBytes true }) →
    h.payLines x.pid y.owes = (n, g) →
    y.owes.length ≤ n →
    (¬ (o.flags = 1 ∧ o.nMeas = 0)) →
    g.writeVa 2 y.pid y.outVa (fusSummary o.records.length o.nMeas o.coarse o.gated o.assigned o.born o.deleted o.flags o.total g.now ++ o.records.flatten) false = (some e, k) →
    Does (.fusionBatchCommit pid set) s fun h' => h' = k.fusPage y e) ∧
  (∀ (s : State) (h : Hw) (pid : Fin 256) (set : Fin 4) (x y : FusBatch) (o : FusOut) (n : Nat) (g : Hw) (k : Hw),
    s.hw = h →
    h.fabricOn = true →
    (h.fus.batches.find? (fun x => x.pid == pid.val && x.set == set.val && x.out.isSome) = some x) →
    x.out = some o →
    h.fusLate x = false →
    x.stained = false →
    o.total ≤ x.used →
    (y = if x.written = true then x else { x with written := true, owes := linesOf x.outVa o.outBytes true }) →
    h.payLines x.pid y.owes = (n, g) →
    y.owes.length ≤ n →
    (¬ (o.flags = 1 ∧ o.nMeas = 0)) →
    g.writeVa 2 y.pid y.outVa (fusSummary o.records.length o.nMeas o.coarse o.gated o.assigned o.born o.deleted o.flags o.total g.now ++ o.records.flatten) false = (none, k) →
    Does (.fusionBatchCommit pid set) s fun h' => ∃ m : Hw, m = { k with fus := { k.fus with sets := k.fus.sets.upd (fusKey y.pid y.set) fun z => { z with tracks := o.tracks, nextId := o.nextId, lastValid := some y.tValid } } } ∧
      h' = ((m.dropBatch y).addSat F.FUS_BATCHES_DONE 1).finishAt y.pid y.queue y.num 0
        (o.records.length + o.assigned * 2 ^ 13 + o.born * 2 ^ 26 + o.deleted * 2 ^ 39 + o.flags * 2 ^ 52) 0 {}) ∧
  (∀ (s : State) (h : Hw) (pid : Fin 256) (set : Fin 4),
    s.hw = h →
    (h.fabricOn = false ∨ h.fus.batches.find? (fun x => x.pid == pid.val && x.set == set.val && x.out.isSome) = none) →
    Does (.fusionBatchCommit pid set) s fun h' => h' = h) ∧
  (∀ (s : State) (h : Hw),
    s.hw = h →
    h.fabricOn = true →
    Does (.fusionDeadline) s fun h' => h' = (h.fus.batches.filter h.fusLate).foldl (fun y x => y.fusFail x (some 3) 0x3004 x.stage) h) ∧
  (∀ (s : State) (h : Hw),
    s.hw = h →
    h.fabricOn = false →
    Does (.fusionDeadline) s fun h' => h' = h) ∧
  (∀ (s : State) (h : Hw),
    s.hw = h →
    h.fabricOn = true →
    h.fus.batches.filter h.fusLate = [] →
    Does (.fusionDeadline) s fun h' => h' = h) ∧
  (∀ (s : State) (h : Hw) (x : FusBatch),
    s.hw = h →
    h.fabricOn = true →
    h.fus.batches.filter h.fusLate = [x] →
    Does (.fusionDeadline) s fun h' => h' = h.fusFail x (some 3) 0x3004 x.stage) ∧
  (∀ (h : Hw) (x : FusBatch) (cs : Option Nat) (st d : Nat), (h.fusFail x cs st d).fus.sets = h.fus.sets ∧
    ∀ y ∈ (h.fusFail x cs st d).fus.batches, ¬ (y.pid = x.pid ∧ y.queue = x.queue ∧ y.num = x.num))

/-- TRV_SURVEY_UPDATE holds its update for delivery; TRV_ENVELOPE of a sound record becomes the envelope of every Datum
that runs, and of an unsound one answers 1 plus the offset of its fault; TRV_COMMIT and TRV_DUST_SHEET order the
adoption of their record for the next stroke boundary; TRV_CHECK puts a candidate with its deadline into the queue
of every Datum that runs. Records that cannot be read, and an envelope, trajectory or candidate that does not reach
both Datums, end the command with their failure. Each clause about a command concludes that exec answers a next
state, under conditions on the state and the operands alone; the constructors covered: trvSurveyUpdate,
trvEnvelope, trvCommit, trvDustSheet, trvCheck. -/
def Obligations.PacketTraverse : Prop :=
  (∀ (st : State) (q : QRef) (p : Packet) (qu : Queue) (c : Cmd) (b : Hw) (bs : List Byte) (k : Hw),
    Acting st.hw specTrvSurveyUpdate q p qu c b →
    b.cmdRead c.pid (c.f 24 6) (min (c.f 32 4) 295104) = (.ok (bs, false), k) →
    Does (.trvSurveyUpdate q p) st fun h' => ∃ u, u = ({ pid := c.pid, queue := c.queue, num := c.num, acceptAt := c.acceptAt, bytes := bs, delivered := false } : SurveyUpd) ∧
      h' = { k with trv := { k.trv with updates := k.trv.updates ++ [u] } }) ∧
  (∀ (st : State) (q : QRef) (p : Packet) (qu : Queue) (c : Cmd) (b : Hw) (k : Hw),
    Acting st.hw specTrvSurveyUpdate q p qu c b →
    RecordEnds b c (c.f 24 6) (min (c.f 32 4) 295104) k →
    Does (.trvSurveyUpdate q p) st fun h' => h' = k) ∧
  (∀ (st : State) (q : QRef) (p : Packet) (qu : Queue) (c : Cmd) (b : Hw) (k : Hw),
    Acting st.hw specTrvEnvelope q p qu c b →
    RecordEnds b c (c.f 24 6) 320 k →
    Does (.trvEnvelope q p) st fun h' => h' = k) ∧
  (∀ (st : State) (q : QRef) (p : Packet) (qu : Queue) (c : Cmd) (b : Hw) (bs : List Byte) (k : Hw),
    Acting st.hw specTrvEnvelope q p qu c b →
    b.cmdRead c.pid (c.f 24 6) 320 = (.ok (bs, false), k) →
    k.deliverable = false →
    Does (.trvEnvelope q p) st fun h' => h' = k.deliveryFailed c.pid c.queue c.num) ∧
  (∀ (st : State) (q : QRef) (p : Packet) (qu : Queue) (c : Cmd) (b : Hw) (bs : List Byte) (k : Hw) (o : Nat),
    Acting st.hw specTrvEnvelope q p qu c b →
    b.cmdRead c.pid (c.f 24 6) 320 = (.ok (bs, false), k) →
    k.deliverable = true →
    (envFault bs (fun n => n == 0 || (k.exists? n && k.clsOf n == 0)) = some o) →
    Does (.trvEnvelope q p) st fun h' => Ends k h' c 0 (1 + o) 0) ∧
  (∀ (st : State) (q : QRef) (p : Packet) (qu : Queue) (c : Cmd) (b : Hw) (bs : List Byte) (k : Hw),
    Acting st.hw specTrvEnvelope q p qu c b →
    b.cmdRead c.pid (c.f 24 6) 320 = (.ok (bs, false), k) →
    k.deliverable = true →
    (envFault bs (fun n => n == 0 || (k.exists? n && k.clsOf n == 0)) = none) →
    Does (.trvEnvelope q p) st fun h' => Ends (k.datumsOn.foldl (fun x d => (x.modDatum d fun y => { y with envPrev := y.slotEnv (x.datNow d), env := some bs, envAt := x.datNow d }).showTrv d) k) h' c 0 0 0) ∧
  (∀ (st : State) (q : QRef) (p : Packet) (qu : Queue) (c : Cmd) (b : Hw) (k : Hw),
    Acting st.hw specTrvCommit q p qu c b →
    RecordEnds b c (c.f 24 6) 64 k →
    Does (.trvCommit q p) st fun h' => h' = k) ∧
  (∀ (st : State) (q : QRef) (p : Packet) (qu : Queue) (c : Cmd) (b : Hw) (k : Hw),
    Acting st.hw specTrvDustSheet q p qu c b →
    RecordEnds b c (c.f 24 6) 64 k →
    Does (.trvDustSheet q p) st fun h' => h' = k) ∧
  (∀ (st : State) (q : QRef) (p : Packet) (qu : Queue) (c : Cmd) (b : Hw) (k : Hw),
    Acting st.hw specTrvCheck q p qu c b →
    RecordEnds b c (c.f 24 6) 64 k →
    Does (.trvCheck q p) st fun h' => h' = k) ∧
  (∀ (st : State) (q : QRef) (p : Packet) (qu : Queue) (c : Cmd) (b : Hw) (hd : List Byte) (k k2 : Hw),
    Acting st.hw specTrvCommit q p qu c b →
    b.cmdRead c.pid (c.f 24 6) 64 = (.ok (hd, false), k) →
    RecordEnds k c (c.f 24 6) (trajBytes hd) k2 →
    Does (.trvCommit q p) st fun h' => h' = k2) ∧
  (∀ (st : State) (q : QRef) (p : Packet) (qu : Queue) (c : Cmd) (b : Hw) (hd : List Byte) (k k2 : Hw),
    Acting st.hw specTrvDustSheet q p qu c b →
    b.cmdRead c.pid (c.f 24 6) 64 = (.ok (hd, false), k) →
    RecordEnds k c (c.f 24 6) (trajBytes hd) k2 →
    Does (.trvDustSheet q p) st fun h' => h' = k2) ∧
  (∀ (st : State) (q : QRef) (p : Packet) (qu : Queue) (c : Cmd) (b : Hw) (hd : List Byte) (k k2 : Hw),
    Acting st.hw specTrvCheck q p qu c b →
    b.cmdRead c.pid (c.f 24 6) 64 = (.ok (hd, false), k) →
    RecordEnds k c (c.f 24 6) (trajBytes hd) k2 →
    Does (.trvCheck q p) st fun h' => h' = k2) ∧
  (∀ (st : State) (q : QRef) (p : Packet) (qu : Queue) (c : Cmd) (b : Hw) (hd bs : List Byte) (k k2 : Hw),
    Acting st.hw specTrvCommit q p qu c b →
    b.cmdRead c.pid (c.f 24 6) 64 = (.ok (hd, false), k) →
    k.cmdRead c.pid (c.f 24 6) (trajBytes hd) = (.ok (bs, false), k2) →
    k2.deliverable = false →
    Does (.trvCommit q p) st fun h' => h' = k2.deliveryFailed c.pid c.queue c.num) ∧
  (∀ (st : State) (q : QRef) (p : Packet) (qu : Queue) (c : Cmd) (b : Hw) (hd bs : List Byte) (k k2 : Hw),
    Acting st.hw specTrvDustSheet q p qu c b →
    b.cmdRead c.pid (c.f 24 6) 64 = (.ok (hd, false), k) →
    k.cmdRead c.pid (c.f 24 6) (trajBytes hd) = (.ok (bs, false), k2) →
    k2.deliverable = false →
    Does (.trvDustSheet q p) st fun h' => h' = k2.deliveryFailed c.pid c.queue c.num) ∧
  (∀ (st : State) (q : QRef) (p : Packet) (qu : Queue) (c : Cmd) (b : Hw) (hd bs : List Byte) (k k2 : Hw),
    Acting st.hw specTrvCheck q p qu c b →
    b.cmdRead c.pid (c.f 24 6) 64 = (.ok (hd, false), k) →
    k.cmdRead c.pid (c.f 24 6) (trajBytes hd) = (.ok (bs, false), k2) →
    k2.deliverable = false →
    Does (.trvCheck q p) st fun h' => h' = k2.deliveryFailed c.pid c.queue c.num) ∧
  (∀ (st : State) (q : QRef) (p : Packet) (qu : Queue) (c : Cmd) (b : Hw) (hd bs : List Byte) (k k2 : Hw),
    Acting st.hw specTrvCommit q p qu c b →
    b.cmdRead c.pid (c.f 24 6) 64 = (.ok (hd, false), k) →
    k.cmdRead c.pid (c.f 24 6) (trajBytes hd) = (.ok (bs, false), k2) →
    k2.deliverable = true →
    Does (.trvCommit q p) st fun h' => ∃ o, o = ({ dust := false, traj := { pid := c.pid, seq := c.seq, bytes := bs, shaped := false }, queue := c.queue, num := c.num, at_ := k2.now } : TrajOrder) ∧
      h' = { k2 with trv := { k2.trv with orders := k2.trv.orders ++ [o] } }) ∧
  (∀ (st : State) (q : QRef) (p : Packet) (qu : Queue) (c : Cmd) (b : Hw) (hd bs : List Byte) (k k2 : Hw),
    Acting st.hw specTrvDustSheet q p qu c b →
    b.cmdRead c.pid (c.f 24 6) 64 = (.ok (hd, false), k) →
    k.cmdRead c.pid (c.f 24 6) (trajBytes hd) = (.ok (bs, false), k2) →
    k2.deliverable = true →
    Does (.trvDustSheet q p) st fun h' => ∃ o, o = ({ dust := true, traj := { pid := c.pid, seq := c.seq, bytes := bs, shaped := false }, queue := c.queue, num := c.num, at_ := k2.now } : TrajOrder) ∧
      h' = { k2 with trv := { k2.trv with orders := k2.trv.orders ++ [o] } }) ∧
  (∀ (st : State) (q : QRef) (p : Packet) (qu : Queue) (c : Cmd) (b : Hw) (hd bs : List Byte) (k k2 : Hw) (x : Cand),
    Acting st.hw specTrvCheck q p qu c b →
    b.cmdRead c.pid (c.f 24 6) 64 = (.ok (hd, false), k) →
    k.cmdRead c.pid (c.f 24 6) (trajBytes hd) = (.ok (bs, false), k2) →
    k2.deliverable = true →
    (x = { pid := c.pid, queue := c.queue, num := c.num, seq := c.seq, resVa := c.f 32 6 / 64 * 64, dl := if c.f 40 4 = 0 then none else some (c.acceptAt + c.f 40 4), traj := { pid := c.pid, seq := c.seq, bytes := bs, shaped := false }, toShape := field bs 0 1 == 1 }) →
    Does (.trvCheck q p) st fun h' => h' = k2.datumsOn.foldl (fun y d => (y.modDatum d fun z => { z with queue := z.queue ++ [x] }).showTrv d) k2)

/-- VERDICT_SLOT, once in a stroke in each Datum that runs, after the updates and adoptions that are due, checks the
committed trajectory when STROKE_COUNT mod 100 is 0, at 50 the pending dust sheet, else the held one when valid,
else the brake profile, in between what is owed or the next candidate, else the committed trajectory again, and
adds the verdict to the slots. Records of slots two strokes old complete; complete verdicts three strokes old are
compared, and a record that does not arrive is a detected fault. An order of an earlier stroke is adopted by every
Datum that runs and its command completes. An update is delivered, or fails when it is late or does not reach both,
applies 3,000 strokes after acceptance, the oldest waypoint record is shaped, and candidates past their deadline
end FAIL_DEADLINE. Each clause about a command concludes that exec answers a next state, under conditions on the
state and the operands alone; the constructors covered: verdictSlot, verdictRecordComplete, verdictCompare,
trajectoryAdoption, surveyDelivery, surveyApply, shaperComplete, candidateDeadline. -/
def Obligations.TraverseEvents : Prop :=
  (∀ (s : State) (h : Hw) (d : Fin 2) (u : Option TrvUpset) (a k : Hw) (v : Verdict),
    s.hw = h →
    h.datumOn d.val = true →
    a = (match u with | some e => h.trvUpset d.val e | none => h).trvBoundary →
    (a.datum d.val).slotAt ≠ some (a.datNow d.val) →
    a.slotChoice d.val = (v, k) →
    Does (.verdictSlot d u) s fun h' => h' = (k.modDatum d.val fun x => { x with slots := x.slots ++ [v], slotAt := some (k.datNow d.val) }).showTrv d.val) ∧
  (∀ (s : State) (h : Hw) (d : Fin 2) (u : Option TrvUpset) (a : Hw),
    s.hw = h →
    h.datumOn d.val = true →
    a = (match u with | some e => h.trvUpset d.val e | none => h).trvBoundary →
    (a.datum d.val).slotAt = some (a.datNow d.val) →
    Does (.verdictSlot d u) s fun h' => h' = a) ∧
  (∀ (s : State) (h : Hw) (d : Fin 2) (u : Option TrvUpset),
    s.hw = h →
    h.datumOn d.val = false →
    Does (.verdictSlot d u) s fun h' => h' = h) ∧
  (∀ (h : Hw) (d : Nat), h.datNow d % 100 = 0 → h.slotChoice d = (h.slotVerdict d 0 (h.datum d).committed false none, h)) ∧
  (∀ (h : Hw) (d : Nat) (t : Traj), h.datNow d % 100 = 50 → (h.datum d).pendingDust = some t → h.slotChoice d = (h.slotVerdict d 1 (some t) true none, h)) ∧
  (∀ (h : Hw) (d : Nat), h.datNow d % 100 = 50 → (h.datum d).pendingDust = none →
    h.slotChoice d = if h.dustValid d = true then (h.slotVerdict d 1 (h.datum d).dust false none, h)
      else ((h.brakeBegins d).slotVerdict d 3 (h.datum d).committed false none, h.brakeBegins d)) ∧
  (∀ (h : Hw) (d : Nat), h.datNow d % 100 ≠ 0 → h.datNow d % 100 ≠ 50 → (h.datum d).owedAt.any (fun a => decide (a ≤ h.datNow d)) = true → (h.datum d).dust.isSome = true →
    h.slotChoice d = (h.slotVerdict d 1 (h.datum d).dust false none, h.modDatum d fun x => { x with owedAt := none })) ∧
  (∀ (h k : Hw) (d : Nat) (o : Option Cand), h.datNow d % 100 ≠ 0 → h.datNow d % 100 ≠ 50 → (h.datum d).owedAt.any (fun a => decide (a ≤ h.datNow d)) = false ∨ (h.datum d).dust = none →
    h.takeCand d = (o, k) → h.slotChoice d = match o with
      | some c => (k.slotVerdict d 2 (some c.traj) false (some c), k)
      | none => (k.slotVerdict d 0 (h.datum d).committed false none, k)) ∧
  (∀ (s : State) (h : Hw) (d : Fin 2) (v : Verdict),
    s.hw = h →
    h.datumOn d.val = true →
    ((h.datum d.val).slots.filter (fun v => ! v.complete && decide (v.stroke + 2 ≤ h.datNow d.val)) = [v]) →
    Does (.verdictRecordComplete d) s fun h' => h' = h.completeVerdict d.val v) ∧
  (∀ (s : State) (h : Hw) (d : Fin 2),
    s.hw = h →
    h.datumOn d.val = true →
    ((h.datum d.val).slots.filter (fun v => ! v.complete && decide (v.stroke + 2 ≤ h.datNow d.val)) = []) →
    Does (.verdictRecordComplete d) s fun h' => h' = h) ∧
  (∀ (h : Hw) (d : Nat) (v y : Verdict), d < 2 → y ∈ ((h.completeVerdict d v).datum d).slots → (y = v ∨ y = { v with complete := true }) → y.complete = true) ∧
  (∀ (s : State) (h : Hw) (d : Fin 2),
    s.hw = h →
    h.datumOn d.val = true →
    Does (.verdictRecordComplete d) s fun h' => h' = ((h.datum d.val).slots.filter fun v => ! v.complete && decide (v.stroke + 2 ≤ h.datNow d.val)).foldl (fun x v => x.completeVerdict d.val v) h) ∧
  (∀ (s : State) (h : Hw) (d : Fin 2),
    s.hw = h →
    h.datumOn d.val = false →
    Does (.verdictRecordComplete d) s fun h' => h' = h) ∧
  (∀ (s : State) (h : Hw) (d : Fin 2) (arrives : Bool),
    s.hw = h →
    h.datumOn d.val = false →
    Does (.verdictCompare d arrives) s fun h' => h' = h) ∧
  (∀ (s : State) (h : Hw) (d : Fin 2) (arrives : Bool) (k : Hw) (x : Datum),
    s.hw = h →
    h.datumOn d.val = true →
    (k = ((h.datum d.val).slots.filter fun v => v.complete && ! v.compared && decide (v.stroke + 3 ≤ h.datNow d.val)).foldl (fun y v => y.compareOne d.val arrives v) h) →
    x = k.datA.prune k.datB (k.datNow 0) →
    Does (.verdictCompare d arrives) s fun h' => h' = { k with datA := x, datB := k.datB.prune x (k.datNow 1) }) ∧
  (∀ (h a : Hw) (d : Nat) (v : Verdict), v.cand = none →
    a = h.modDatum d (fun x => { x with slots := x.slots.map fun y => if y = v then { y with compared := true } else y }) →
    h.compareOne d false v = (a.trvFault d 3 0).detect 0x05 none 0) ∧
  (∀ (s : State) (h : Hw),
    s.hw = h →
    Does (.trajectoryAdoption) s fun h' => h' = (h.trv.orders.filter fun o => decide (o.at_ < h.trvNow)).foldl Hw.adoptTraj h) ∧
  (∀ (h a k : Hw) (o : TrajOrder), o.dust = false → a = h.datumsOn.foldl (fun x d => (x.modDatum d fun y => { y with committed := some o.traj }).showTrv d) h →
    k = { a with trv := { a.trv with orders := a.trv.orders.filter fun x => ! (x.traj.pid == o.traj.pid && x.queue == o.queue && x.num == o.num), sentCommit := some o.traj } } →
    h.adoptTraj o = (k.sendTraj false o.traj).finishAt o.traj.pid o.queue o.num 0 0 0 {}) ∧
  (∀ (h a k : Hw) (o : TrajOrder), o.dust = true → a = h.datumsOn.foldl (fun x d => (x.modDatum d fun y => { y with pendingDust := some o.traj }).showTrv d) h →
    k = { a with trv := { a.trv with orders := a.trv.orders.filter fun x => ! (x.traj.pid == o.traj.pid && x.queue == o.queue && x.num == o.num), sentDust := some o.traj } } →
    h.adoptTraj o = k.finishAt o.traj.pid o.queue o.num 0 0 0 {}) ∧
  (∀ (s : State) (h : Hw) (ok : Bool) (u : SurveyUpd),
    s.hw = h →
    (h.trv.updates.find? (fun u => ! u.delivered) = some u) →
    ok = true →
    h.deliverable = true →
    u.late h.trvNow = false →
    Does (.surveyDelivery ok) s fun h' => h' = { h with trv := { h.trv with updates := h.trv.updates.map fun x => if x = u then { x with delivered := true } else x } }) ∧
  (∀ (s : State) (h : Hw) (ok : Bool) (u : SurveyUpd),
    s.hw = h →
    (h.trv.updates.find? (fun u => ! u.delivered) = some u) →
    (ok = false ∨ h.deliverable = false ∨ u.late h.trvNow = true) →
    Does (.surveyDelivery ok) s fun h' => h' = (h.dropUpdate u).deliveryFailed u.pid u.queue u.num) ∧
  (∀ (s : State) (h : Hw) (ok : Bool),
    s.hw = h →
    (h.trv.updates.find? (fun u => ! u.delivered) = none) →
    Does (.surveyDelivery ok) s fun h' => h' = h) ∧
  (∀ (s : State) (h : Hw),
    s.hw = h →
    Does (.surveyApply) s fun h' => h' = (h.trv.updates.filter fun u => decide (u.acceptAt + 3000 ≤ h.trvNow) || u.late h.trvNow).foldl Hw.applySurvey h) ∧
  (∀ (h : Hw) (u : SurveyUpd), u.delivered = false → h.applySurvey u = (h.dropUpdate u).deliveryFailed u.pid u.queue u.num) ∧
  (∀ (x : Datum) (bs : List Byte), updFault bs = none → (applyUpdate x.survey bs).fits = true →
    x.takeUpdate bs = (0, { x with survey := some { applyUpdate x.survey bs with seq := (x.surveys + 1) % 2 ^ 32 }, surveys := x.surveys + 1 })) ∧
  (∀ (s : State) (h : Hw),
    s.hw = h →
    Does (.shaperComplete) s fun h' => h' = h.datumsOn.foldl (fun x d => match (x.datum d).queue.find? fun c => c.toShape with
      | some c => x.shapeIn d c
      | none => x) h) ∧
  (∀ (s : State) (h : Hw),
    s.hw = h →
    (∀ d, d ∈ h.datumsOn → (h.datum d).queue.find? (fun c => c.toShape) = none) →
    Does (.shaperComplete) s fun h' => h' = h) ∧
  (∀ (s : State) (h : Hw) (d : Nat) (c : Cand),
    s.hw = h →
    h.datumsOn = [d] →
    ((h.datum d).queue.find? (fun c => c.toShape) = some c) →
    Does (.shaperComplete) s fun h' => h' = h.shapeIn d c) ∧
  (∀ (s : State) (h : Hw) (c e : Cand) (a : Hw),
    s.hw = h →
    h.datumsOn = [0, 1] →
    ((h.datum 0).queue.find? (fun c => c.toShape) = some c) →
    a = h.shapeIn 0 c →
    ((a.datum 1).queue.find? (fun c => c.toShape) = some e) →
    Does (.shaperComplete) s fun h' => h' = a.shapeIn 1 e) ∧
  (∀ (s : State) (h : Hw) (a : Hw) (late : Cand → Bool) (cut : Datum → Datum),
    s.hw = h →
    (late = fun c => c.dl.any fun x => decide (x < h.trvNow)) →
    (a = ((h.datA.queue ++ h.datB.queue).filter late).foldl (fun y c => y.finishAt c.pid c.queue c.num 0x3004 0 0 {}) h) →
    (cut = fun x => { x with queue := x.queue.filter fun c => ! late c }) →
    Does (.candidateDeadline) s fun h' => ∃ m : Hw, m = { a with datA := cut a.datA, datB := cut a.datB } ∧ h' = (m.showTrv 0).showTrv 1)

/-- On a peer link that is up, in a group: NoAck sends the unacknowledged frames again; a frame that fails its check is
counted; one out of sequence is acknowledged only; the next in sequence is acknowledged and taken. On the manager a
member silent on the ring for 1,000 strokes is lost, and an attempt past its SUB_DL is issued again. At a coat
boundary a lost member whose frames and record agree is in service again. When the manager is gone the standby
takes over with a new epoch, and a member that lost both within a coat is ENDED. At a coat boundary the manager
captures its checkpoints. Time offsets are measured, and a member record is sent when due and received. Each clause
about a command concludes that exec answers a next state, under conditions on the state and the operands alone; the
constructors covered: peerFrame, workerLost, memberRejoin, managerTakeover, checkpointCapture, peerTimeMeasure,
memberRecordSend, subjobTimeout. -/
def Obligations.GroupEvents : Prop :=
  (∀ (s : State) (h : Hw) (port : Fin 2) (e : PeerEvent),
    s.hw = h →
    h.hubOn = true →
    h.peerUp port.val = true →
    h.grpN ≠ 0 →
    e = .noAck →
    Does (.peerFrame port e) s fun h' => h' = h.resendPeer port.val) ∧
  (∀ (s : State) (h : Hw) (port : Fin 2) (e : PeerEvent) (ok : Bool) (f : List Byte),
    s.hw = h →
    h.hubOn = true →
    h.peerUp port.val = true →
    h.grpN ≠ 0 →
    e = .frame ok f →
    (ok = false ∨ 9 < field f 0 1) →
    Does (.peerFrame port e) s fun h' => h' = h.addSat (F.PEER_LINK_CRC_ERR.nth port.val) 1) ∧
  (∀ (s : State) (h : Hw) (port : Fin 2) (e : PeerEvent) (f : List Byte),
    s.hw = h →
    h.hubOn = true →
    h.peerUp port.val = true →
    h.grpN ≠ 0 →
    e = .frame true f →
    field f 0 1 = 0 →
    Does (.peerFrame port e) s fun h' => h' = if linkCrossed port.val f = true then h.crossedPeer port.val else h.ackPeer port.val (field f 16 4)) ∧
  (∀ (s : State) (h : Hw) (port : Fin 2) (e : PeerEvent) (f : List Byte),
    s.hw = h →
    h.hubOn = true →
    h.peerUp port.val = true →
    h.grpN ≠ 0 →
    e = .frame true f →
    0 < field f 0 1 →
    field f 0 1 ≤ 9 →
    field f 4 4 ≠ (h.peerPort port.val).nextRecv →
    Does (.peerFrame port e) s fun h' => h' = h.sendAck port.val) ∧
  (∀ (s : State) (h : Hw) (port : Fin 2) (e : PeerEvent) (f : List Byte),
    s.hw = h →
    h.hubOn = true →
    h.peerUp port.val = true →
    h.grpN ≠ 0 →
    e = .frame true f →
    0 < field f 0 1 →
    field f 0 1 ≤ 9 →
    field f 4 4 = (h.peerPort port.val).nextRecv →
    Does (.peerFrame port e) s fun h' => h' = ((h.modPeerPort port.val fun x => { x with nextRecv := (x.nextRecv + 1) % 2 ^ 32 }).sendAck port.val).takePeer port.val
      (fit (32 + field f 24 4 % 4096) f)) ∧
  (∀ (s : State) (h : Hw) (port : Fin 2) (e : PeerEvent),
    s.hw = h →
    (h.hubOn = false ∨ h.peerUp port.val = false ∨ h.grpN = 0) →
    Does (.peerFrame port e) s fun h' => h' = h) ∧
  (∀ (s : State) (h : Hw) (i : Fin 8),
    s.hw = h →
    h.grpRuns = true →
    h.isManager = true →
    i.val ≠ h.grpSelf →
    (h.gmember i.val).heardAt + 1000 ≤ h.now →
    Does (.workerLost i) s fun h' => h' = h.loseMember i.val) ∧
  (∀ (s : State) (h : Hw) (i : Fin 8),
    s.hw = h →
    (h.grpRuns = false ∨ h.isManager = false ∨ i.val = h.grpSelf ∨ h.now < (h.gmember i.val).heardAt + 1000) →
    Does (.workerLost i) s fun h' => h' = h) ∧
  (∀ (s : State) (h : Hw) (i : Fin 8) (a b d e : Hw),
    s.hw = h →
    h.grpRuns = true →
    bit (h.get F.PEER_MEMBERS_LOST) i.val = true →
    (h.gmember i.val).back = true →
    h.boundaryNow = true →
    (h.gmember i.val).crc = some (grpCrc h.sys.grp.config) →
    a = ((h.put (F.PEER_MEMBERS_LOST.bit i.val) 0).put (F.PEER_MEMBERS_IN_SERVICE.bit i.val) 1) →
    (b = a.modMember i.val fun m => { m with lost := false, back := false, heardAt := a.now }) →
    (d = if b.get F.PEER_MEMBERS_LOST = 0 then b.put F.PEER_STATUS_STATE 2 else b) →
    (e = if d.get F.PEER_STATUS_STANDBY = 15 then d.newStandby else d) →
    Does (.memberRejoin i) s fun h' => h' = if e.isManager = true then e.reencode else e) ∧
  (∀ (s : State) (h : Hw) (i : Fin 8),
    s.hw = h →
    (h.grpRuns = false ∨ bit (h.get F.PEER_MEMBERS_LOST) i.val = false ∨ h.boundaryNow = false ∨ (h.gmember i.val).back = false ∨ (h.gmember i.val).crc ≠ some (grpCrc h.sys.grp.config)) →
    Does (.memberRejoin i) s fun h' => h' = h) ∧
  (∀ (s : State) (h : Hw) (sup : List ShardMsg),
    s.hw = h →
    h.grpRuns = true →
    h.isManager = false →
    h.managerGone = true →
    h.get F.PEER_STATUS_STANDBY = h.grpSelf →
    Does (.managerTakeover sup) s fun h' => h' = h.takeOver sup) ∧
  (∀ (s : State) (h : Hw) (sup : List ShardMsg) (x y : Nat),
    s.hw = h →
    h.grpRuns = true →
    h.isManager = false →
    h.managerGone = true →
    h.get F.PEER_STATUS_STANDBY ≠ h.grpSelf →
    h.silent (h.get F.PEER_STATUS_STANDBY) = true →
    x = (h.gmember (h.get F.PEER_STATUS_MANAGER)).heardAt →
    y = (h.gmember (h.get F.PEER_STATUS_STANDBY)).heardAt →
    max x y - min x y < h.stn.active.coatLen →
    Does (.managerTakeover sup) s fun h' => h' = h.put F.PEER_STATUS_STATE 4) ∧
  (∀ (s : State) (h : Hw) (sup : List ShardMsg),
    s.hw = h →
    (h.grpRuns = false ∨ h.isManager = true ∨ h.managerGone = false) →
    Does (.managerTakeover sup) s fun h' => h' = h) ∧
  (∀ (s : State) (h : Hw) (sup : List ShardMsg) (x y : Nat),
    s.hw = h →
    h.get F.PEER_STATUS_STANDBY ≠ h.grpSelf →
    x = (h.gmember (h.get F.PEER_STATUS_MANAGER)).heardAt →
    y = (h.gmember (h.get F.PEER_STATUS_STANDBY)).heardAt →
    (h.silent (h.get F.PEER_STATUS_STANDBY) = false ∨ h.stn.active.coatLen ≤ max x y - min x y) →
    Does (.managerTakeover sup) s fun h' => h' = h) ∧
  (∀ (s : State) (h : Hw),
    s.hw = h →
    h.grpRuns = true →
    h.isManager = true →
    h.boundaryNow = true →
    0 < field h.sys.grp.config 12 1 →
    h.get F.STN_COAT_COUNT_COATS % field h.sys.grp.config 12 1 = 0 →
    Does (.checkpointCapture) s fun h' => h' = (grpEntries h.sys.grp.config).foldl Hw.capture h) ∧
  (∀ (s : State) (h : Hw),
    s.hw = h →
    (h.grpRuns = false ∨ h.isManager = false ∨ h.boundaryNow = false ∨ field h.sys.grp.config 12 1 = 0 ∨ h.get F.STN_COAT_COUNT_COATS % field h.sys.grp.config 12 1 ≠ 0) →
    Does (.checkpointCapture) s fun h' => h' = h) ∧
  (∀ (s : State) (h : Hw) (p : Fin 2) (ofs : BitVec 32) (a b : Hw) (m : Nat),
    s.hw = h →
    h.hubOn = true →
    h.grpN ≠ 0 →
    h.peerUp p.val = true →
    ofs.toInt.natAbs ≤ 2000 →
    (a = h.modGrp fun g => { g with offsets := g.offsets.put p.val ofs.toInt, badOffsets := g.badOffsets.putD 0 p.val 0 }) →
    b = a.put (if p.val = 0 then F.PEER_OFFSET_OFS0 else F.PEER_OFFSET_OFS1) (unsx 16 ofs.toInt) →
    m = max 1 b.grpN →
    Does (.peerTimeMeasure p ofs) s fun h' => h' = b.sendPeer 2 (if p.val = 0 then (b.grpSelf + 1) % m else (b.grpSelf + m - 1) % m) 0 0 0 []) ∧
  (∀ (s : State) (h : Hw) (p : Fin 2) (ofs : BitVec 32) (a b c : Hw) (n k : Nat),
    s.hw = h →
    h.hubOn = true →
    h.grpN ≠ 0 →
    h.peerUp p.val = true →
    2000 < ofs.toInt.natAbs →
    k = h.sys.grp.badOffsets.getD 0 p.val + 1 →
    (a = h.modGrp fun g => { g with offsets := g.offsets.put p.val ofs.toInt, badOffsets := g.badOffsets.putD 0 p.val k }) →
    b = a.put (if p.val = 0 then F.PEER_OFFSET_OFS0 else F.PEER_OFFSET_OFS1) (unsx 16 (max (-32768) (min 32767 ofs.toInt))) →
    n = (if p.val = 0 then (b.grpSelf + 1) % max 1 b.grpN else (b.grpSelf + max 1 b.grpN - 1) % max 1 b.grpN) →
    c = b.sendPeer 2 n 0 0 0 [] →
    Does (.peerTimeMeasure p ofs) s fun h' => h' = if 3 ≤ k then c.loseMember (if p.val = 0 then (c.grpSelf + 1) % max 1 b.grpN else (c.grpSelf + max 1 b.grpN - 1) % max 1 b.grpN) else c) ∧
  (∀ (s : State) (h : Hw) (p : Fin 2) (ofs : BitVec 32),
    s.hw = h →
    (h.hubOn = false ∨ h.grpN = 0 ∨ h.peerUp p.val = false) →
    Does (.peerTimeMeasure p ofs) s fun h' => h' = h) ∧
  (∀ (s : State) (h : Hw) (d : Fin 2) (m : Option MgmtMsg),
    s.hw = h →
    m = none →
    Does (.memberRecordSend d m) s fun h' => h' = h.sendMember d.val) ∧
  (∀ (h a : Hw) (d : Nat), d < 2 → h.datumOn d = true → h.grpN ≠ 0 → (if d = 0 then h.sys.grp.sentA else h.sys.grp.sentB) = none →
    a = h.modGrp (fun g => if d = 0 then { g with sentA := some h.now, recA := h.memberRecord } else { g with sentB := some h.now, recB := h.memberRecord }) →
    h.sendMember d = { a with outs := a.outs ++ [.ethernet (2 + d) ((leBytes 6 h.cfg.memberMac).reverse ++ [0x88, 0xB6] ++ h.memberRecord)] }) ∧
  (∀ (h a : Hw) (d t : Nat), d < 2 → h.datumOn d = true → h.grpN ≠ 0 → (if d = 0 then h.sys.grp.sentA else h.sys.grp.sentB) = some t →
    (t + 1000 ≤ h.now ∨ h.memberRecord ≠ if d = 0 then h.sys.grp.recA else h.sys.grp.recB) →
    a = h.modGrp (fun g => if d = 0 then { g with sentA := some h.now, recA := h.memberRecord } else { g with sentB := some h.now, recB := h.memberRecord }) →
    h.sendMember d = { a with outs := a.outs ++ [.ethernet (2 + d) ((leBytes 6 h.cfg.memberMac).reverse ++ [0x88, 0xB6] ++ h.memberRecord)] }) ∧
  (∀ (h : Hw) (d t : Nat), d < 2 → (h.datumOn d = false ∨ h.grpN = 0 ∨
      (if d = 0 then h.sys.grp.sentA else h.sys.grp.sentB) = some t ∧ h.now < t + 1000 ∧ h.memberRecord = if d = 0 then h.sys.grp.recA else h.sys.grp.recB) →
    h.sendMember d = h) ∧
  (∀ (s : State) (h : Hw) (d : Fin 2) (m : Option MgmtMsg) (x : MgmtMsg),
    s.hw = h →
    m = some x →
    h.datumOn d.val = true →
    0 < h.grpN →
    Does (.memberRecordSend d m) s fun h' => h' = h.takeMember d.val x) ∧
  (∀ (s : State) (h : Hw) (d : Fin 2) (m : Option MgmtMsg) (x : MgmtMsg),
    s.hw = h →
    m = some x →
    (h.datumOn d.val = false ∨ h.grpN = 0) →
    Does (.memberRecordSend d m) s fun h' => h' = h) ∧
  (∀ (s : State) (h : Hw) (gseq : BitVec 48) (j : GJob),
    s.hw = h →
    h.grpRuns = true →
    h.isManager = true →
    (h.sys.grp.jobs.find? (fun j => j.gseq == gseq.toNat) = some j) →
    j.dispatched = true →
    j.worker ≠ 15 →
    j.subDl < h.now →
    Does (.subjobTimeout gseq) s fun h' => h' = h.reissue j (h.now - j.sentAt)) ∧
  (∀ (s : State) (h : Hw) (gseq : BitVec 48) (j : GJob),
    s.hw = h →
    h.grpRuns = true →
    h.isManager = true →
    (h.sys.grp.jobs.find? (fun j => j.gseq == gseq.toNat) = some j) →
    (j.dispatched = false ∨ j.worker = 15 ∨ h.now ≤ j.subDl) →
    Does (.subjobTimeout gseq) s fun h' => h' = h) ∧
  (∀ (s : State) (h : Hw) (gseq : BitVec 48),
    s.hw = h →
    (h.grpRuns = false ∨ h.isManager = false) →
    Does (.subjobTimeout gseq) s fun h' => h' = h) ∧
  (∀ (s : State) (h : Hw) (gseq : BitVec 48),
    s.hw = h →
    h.grpRuns = true →
    h.isManager = true →
    (h.sys.grp.jobs.find? (fun j => j.gseq == gseq.toNat) = none) →
    Does (.subjobTimeout gseq) s fun h' => h' = h)

/-- With the fabric on, a notice that has crossed its edges and matches an open request joins its ranges, and closes it
at the last FINAL (or when stained); one that matches none opens a request with the descriptor of DESC_VA, unless
the PID has four open requests there: then it is discarded with its security event. A descriptor that cannot be
read ends the request. The oldest closed request of a PID moves on and takes its turn; once it has had the cycles
that it takes and the buckets have borne its lines it runs to its end, until then it stays: a stained one ends with
STATUS 1; a summary and its boxes are written where OUT_VA translates, and then the addition is performed; where it
does not, neither. Each clause about a command concludes that exec answers a next state, under conditions on the
state and the operands alone; the constructors covered: dfinNotice, dfinRequestDone. -/
def Obligations.DetectionFinishers : Prop :=
  (∀ (s : State) (h : Hw) (src : Fin 1024) (fin : Fin 4) (m : Msg) (k : Hw),
    s.hw = h →
    h.fabricOn = true →
    h.takeDfin src.val fin.val = (some m, k) →
    Does (.dfinNotice src fin) s fun h' => h' = k.takeNotice fin.val m.pid (fit 64 (m.pieces.flatMap (·.data))) (m.pieces.any (·.stain))) ∧
  (∀ (s : State) (h : Hw) (src : Fin 1024) (fin : Fin 4) (k : Hw),
    s.hw = h →
    h.fabricOn = true →
    h.takeDfin src.val fin.val = (none, k) →
    Does (.dfinNotice src fin) s fun h' => h' = k) ∧
  (∀ (s : State) (h : Hw) (src : Fin 1024) (fin : Fin 4),
    s.hw = h →
    h.fabricOn = false →
    Does (.dfinNotice src fin) s fun h' => h' = h) ∧
  (∀ (h k : Hw) (fin pid : Nat) (n : List Byte) (st : Bool) (r : DfinReq), h.dfin.filter (fun r => r.is fin pid (field n 0 2) && r.closedAt.isNone) = [r] →
    k = { h with dfin := h.dfin.filter (fun r => ! (r.is fin pid (field n 0 2) && r.closedAt.isNone)) ++
      [{ r with
          ranges := r.ranges ++ [(bits (field n 4 4) 0 17, bits (field n 8 4) 0 17)],
          seen := h.seeRecords r (bits (field n 4 4) 0 17) (bits (field n 8 4) 0 17),
          finals := r.finals + b2n (bit (field n 2 1) 0),
          stained := r.stained || st,
          closedAt := if st = true ∨ r.nSend ≤ r.finals + b2n (bit (field n 2 1) 0) then some h.now else none }] } →
    h.takeNotice fin pid n st = k.showDfin) ∧
  (∀ (h k : Hw) (fin pid a c : Nat) (n : List Byte) (st : Bool), h.dfin.any (fun r => r.is fin pid (field n 0 2) && r.closedAt.isNone) = false →
    (h.dfin.filter fun r => r.fin == fin && r.pid == pid && r.closedAt.isNone).length < 4 → h.readVa 0 pid (field n 16 6 / 128 * 128) 128 = (.error (a, c), k) →
    h.takeNotice fin pid n st = k.dfinFault fin 3 pid (field n 0 2)) ∧
  (∀ (h k : Hw) (fin pid : Nat) (n bs : List Byte) (st ds : Bool) (r : DfinReq), h.dfin.any (fun r => r.is fin pid (field n 0 2) && r.closedAt.isNone) = false →
    (h.dfin.filter fun r => r.fin == fin && r.pid == pid && r.closedAt.isNone).length < 4 → h.readVa 0 pid (field n 16 6 / 128 * 128) 128 = (.ok (bs, ds), k) →
    r = { fin := fin, pid := pid, req := field n 0 2, desc := bs, descVa := field n 16 6 / 128 * 128, ranges := [], finals := 0, closedAt := none,
          stained := ds, seen := [], spent := 0, paid := 0 } →
    h.takeNotice fin pid n st = (({ k with dfin := k.dfin ++ [r] } : Hw).addNotice fin pid n st).showDfin) ∧
  (∀ (h : Hw) (fin pid : Nat) (n : List Byte) (st : Bool), h.dfin.any (fun r => r.is fin pid (field n 0 2) && r.closedAt.isNone) = false →
    4 ≤ (h.dfin.filter fun r => r.fin == fin && r.pid == pid && r.closedAt.isNone).length →
    h.takeNotice fin pid n st = ((h.dfinRecord fin 4 pid (field n 0 2)).put F.DFIN_INT_STATUS_DISCARDED 1).event (srcDfin fin) 0x0808 pid (field n 0 2)) ∧
  (∀ (s : State) (h : Hw) (fin : Fin 4) (pid : Fin 256) (r r1 r2 : DfinReq) (h1 h2 : Hw),
    s.hw = h →
    h.fabricOn = true →
    h.nextRequest fin.val pid.val = some r →
    h.dfinMove r = (r1, h1) →
    h1.dfinTurn r1 (h1.dfinPart r1) = (r2, h2) →
    h2.dfinNeed r2 ≤ r2.spent →
    (h2.dfinLines r2).length ≤ r2.paid →
    Does (.dfinRequestDone fin pid) s fun h' => h' = ((h2.dropRequest r2).runRequest r2).showDfin) ∧
  (∀ (s : State) (h : Hw) (fin : Fin 4) (pid : Fin 256) (r r1 r2 : DfinReq) (h1 h2 : Hw),
    s.hw = h →
    h.fabricOn = true →
    h.nextRequest fin.val pid.val = some r →
    h.dfinMove r = (r1, h1) →
    h1.dfinTurn r1 (h1.dfinPart r1) = (r2, h2) →
    (r2.spent < h2.dfinNeed r2 ∨ r2.paid < (h2.dfinLines r2).length) →
    Does (.dfinRequestDone fin pid) s fun h' => h' = h2) ∧
  (∀ (s : State) (h : Hw) (fin : Fin 4) (pid : Fin 256),
    s.hw = h →
    h.fabricOn = false →
    Does (.dfinRequestDone fin pid) s fun h' => h' = h) ∧
  (∀ (s : State) (h : Hw) (fin : Fin 4) (pid : Fin 256),
    s.hw = h →
    h.nextRequest fin.val pid.val = none →
    Does (.dfinRequestDone fin pid) s fun h' => h' = h) ∧
  (∀ (h : Hw) (r : DfinReq), r.stained = true → h.runRequest r = h.dfinFailed r DfinRun.start 1) ∧
  (∀ (h : Hw) (r : DfinReq) (sm bx : List Byte) (ps : List (Nat × Nat)), h.mem.translateRun r.pid r.outVa (64 + bx.length) .wr true = .ok ps →
    h.dfinWrite r sm bx = (h.writePieces r.pid (sm ++ bx) false ps).dfinAdd r) ∧
  (∀ (h : Hw) (r : DfinReq) (sm bx : List Byte) (a cs : Nat), h.mem.translateRun r.pid r.outVa (64 + bx.length) .wr true = .error (a, cs) →
    h.dfinWrite r sm bx = (h.translationFault 0 cs r.pid a).dfinFault r.fin 3 r.pid r.req)

/-- A hart's access to the window is translated and acts for the partition that runs on it: a load reads, a store sets,
an AMOADD adds, and the value goes back; one whose translation fails is recorded and reaches the guest; a PCIe
requester's access is a memory request. A memory request is one for the partition to which its requester is bound,
translated by its context, else Unsupported Request; it waits behind one that it must not pass; a function's mask
and enable settings are stored and its pending messages that are no longer masked leave. A downstream requester's
4-byte message of a routed partition sets its bit in the guest file, any other is counted as dropped. A trained
link shows its generation and width, counts a retraining, and is DEGRADED below generation 5 or width 8. A CAN
controller's new state is stored and raised once. Each clause about a command concludes that exec answers a next
state, under conditions on the state and the operands alone; the constructors covered: sobWindowAccess, pcieTlp,
pcieMsiWrite, pcieLinkTrained, canFault. -/
def Obligations.Connectors : Prop :=
  (∀ (s : State) (h : Hw) (a : WinAccess) (pid p old : Nat) (k : Hw),
    s.hw = h →
    h.fabricOn = true →
    h.hubOn = true →
    a.pcie = false →
    h.hartPid a.hart.val = some pid →
    h.mem.translate pid a.va.toNat (if a.form.val = 0 then .rd else .wr) false = .ok p →
    h.region p = .sobWin →
    h.sobWindow 2 pid ((p - 0x0500_0000_0000) / 8) (if p % 8 = 0 then a.form.val else 3) a.value.toNat = (old, k) →
    Does (.sobWindowAccess a) s fun h' => h' = if a.form.val = 1 then k else { k with fab := { k.fab with responses := k.fab.responses ++ [
      { src := 1024, pid := pid, tag := 35 + a.hart.val / 8, write := false, addr := (p - 0x0500_0000_0000) / 8, len := 8, data := leBytes 8 old, stain := false }] } }) ∧
  (∀ (s : State) (h : Hw) (a : WinAccess) (pid p : Nat),
    s.hw = h →
    h.fabricOn = true →
    h.hubOn = true →
    a.pcie = false →
    h.hartPid a.hart.val = some pid →
    h.mem.translate pid a.va.toNat (if a.form.val = 0 then .rd else .wr) false = .ok p →
    h.region p ≠ .sobWin →
    Does (.sobWindowAccess a) s fun h' => h' = h) ∧
  (∀ (s : State) (h : Hw) (a : WinAccess) (pid c : Nat),
    s.hw = h →
    h.fabricOn = true →
    h.hubOn = true →
    a.pcie = false →
    h.hartPid a.hart.val = some pid →
    h.mem.translate pid a.va.toNat (if a.form.val = 0 then .rd else .wr) false = .error c →
    Does (.sobWindowAccess a) s fun h' => h' = (h.translationFault 3 c pid a.va.toNat).toGuest pid a.hart.val (if a.form.val = 0 then 21 else 23) a.va.toNat) ∧
  (∀ (s : State) (h : Hw) (a : WinAccess),
    s.hw = h →
    a.pcie = false →
    (h.fabricOn = false ∨ h.hubOn = false ∨ h.hartPid a.hart.val = none) →
    Does (.sobWindowAccess a) s fun h' => h' = h) ∧
  (∀ (s : State) (h : Hw) (a : WinAccess),
    s.hw = h →
    a.pcie = true →
    h.portRuns a.port.val = true →
    Does (.sobWindowAccess a) s fun h' => h' = h.tlp { port := a.port, rid := a.rid, kind := if a.form.val = 0 then 0 else if a.form.val = 2 then 2 else 1, addr := a.va.setWidth 64, len := 8, data := if a.form.val = 0 then [] else leBytes (if a.form.val = 3 then 4 else 8) a.value.toNat, ro := false }) ∧
  (∀ (s : State) (h : Hw) (a : WinAccess),
    s.hw = h →
    a.pcie = true →
    h.portRuns a.port.val = false →
    Does (.sobWindowAccess a) s fun h' => h' = h) ∧
  (∀ (h : Hw) (g pid i v : Nat), h.sobWindow g pid i 0 v = h.sobAccess g pid i .read ∧ h.sobWindow g pid i 1 v = h.sobAccess g pid i (.set v) ∧
      h.sobWindow g pid i 2 v = h.sobAccess g pid i (.add v)) ∧
  (∀ (h : Hw) (g pid i v : Nat), h.holdsSob pid i = false → h.sobWindow g pid i 3 v = (0, h.sobViolation g pid i)) ∧
  (∀ (s : State) (h : Hw) (r : PcieReq) (t : Tlp),
    s.hw = h →
    r = .mem t →
    h.portRuns t.port.val = true →
    (t.addr.toNat ≠ 2 ^ 48 ∨ t.kind.val ≠ 1 ∨ h.get (F.PCIE_CFG_ROLE.port t.port.val) ≠ 0) →
    Does (.pcieTlp r) s fun h' => h' = h.tlp t) ∧
  (∀ (s : State) (h : Hw) (r : PcieReq) (t : Tlp),
    s.hw = h →
    r = .mem t →
    h.portRuns t.port.val = true →
    t.addr.toNat = 2 ^ 48 →
    t.kind.val = 1 →
    h.get (F.PCIE_CFG_ROLE.port t.port.val) = 0 →
    Does (.pcieTlp r) s fun h' => h' = h.msiWrite t.port.val t.rid.toNat t.data) ∧
  (∀ (s : State) (h : Hw) (r : PcieReq) (t : Tlp),
    s.hw = h →
    r = .mem t →
    h.portRuns t.port.val = false →
    Does (.pcieTlp r) s fun h' => h' = h) ∧
  (∀ (s : State) (h : Hw) (r : PcieReq) (port : Fin 2) (rid : BitVec 16) (en all : Bool),
    s.hw = h →
    r = .msix port rid en all →
    h.portRuns port.val = true →
    Does (.pcieTlp r) s fun h' => h' = (({ h with msix := h.msix.put (port.val * 65536 + rid.toNat) { h.msixOf port.val rid.toNat with enable := en, maskAll := all } } : Hw).sendPending
      port.val rid.toNat)) ∧
  (∀ (s : State) (h : Hw) (r : PcieReq) (port : Fin 2) (rid : BitVec 16) (e : Fin 2048) (on : Bool),
    s.hw = h →
    r = .mask port rid e on →
    h.portRuns port.val = true →
    Does (.pcieTlp r) s fun h' => h' = (({ h with msix := h.msix.put (port.val * 65536 + rid.toNat) { h.msixOf port.val rid.toNat with
        masked := if on = true then NSet.add (h.msixOf port.val rid.toNat).masked e.val else NSet.rem (h.msixOf port.val rid.toNat).masked e.val } } : Hw).sendPending
      port.val rid.toNat)) ∧
  (∀ (s : State) (h : Hw) (r : PcieReq) (port : Fin 2) (rid : BitVec 16) (e : Fin 2048) (en all : Bool),
    s.hw = h →
    (r = .mask port rid e en ∨ r = .msix port rid en all) →
    h.portRuns port.val = false →
    Does (.pcieTlp r) s fun h' => h' = h) ∧
  (∀ (s : State) (h : Hw) (r : PcieReq) (port : Fin 2) (n : Fin 65),
    s.hw = h →
    r = .vfs port n →
    Does (.pcieTlp r) s fun h' => h' = if h.portRuns port.val = true ∧ h.get (F.PCIE_CFG_ROLE.port port.val) = 1 then h.put (F.PCIE_STATUS_NUM_VF.port port.val) n.val else h) ∧
  (∀ (h : Hw) (t : Tlp), h.tlpPid t = none → h.tlp t = h.unsupported t) ∧
  (∀ (h k : Hw) (t : Tlp), h.tlpPid t = some 0 → (h.actsAsOwner (.pcie t.port t.rid)).isNone = true → k = h.ownerRefused (.pcie t.port t.rid) →
    h.tlp t = if t.kind.val = 1 then k else k.unsupported t) ∧
  (∀ (h k : Hw) (t : Tlp) (pid a c : Nat), h.tlpPid t = some pid → (pid ≠ 0 ∨ (h.actsAsOwner (.pcie t.port t.rid)).isNone = false) →
    h.mem.translateRun pid t.addr.toNat (if t.kind.val = 0 then t.len.val else t.data.length) (if t.kind.val = 0 then .rd else .wr) false = .error (a, c) →
    k = h.translationFault 4 c pid a → h.tlp t = if t.kind.val = 1 then k else k.unsupported t) ∧
  (∀ (h : Hw) (t : Tlp) (pid : Nat) (ps : List (Nat × Nat)), h.tlpPid t = some pid → (pid ≠ 0 ∨ (h.actsAsOwner (.pcie t.port t.rid)).isNone = false) →
    h.mem.translateRun pid t.addr.toNat (if t.kind.val = 0 then t.len.val else t.data.length) (if t.kind.val = 0 then .rd else .wr) false = .ok ps →
    h.tlp t = if h.sys.tlps.any (tlpBehind t) = true then h.holdTlp ⟨t, pid, ps⟩ else h.tlpTarget t pid ps) ∧
  (∀ (h : Hw) (t : Tlp) (pid : Nat) (ps : List (Nat × Nat)), h.allMemory ps = true → t.kind.val ≠ 2 → h.tlpTarget t pid ps = h.tlpMemory t pid ps) ∧
  (∀ (s : State) (h : Hw) (port : Fin 2) (rid : BitVec 16) (data : List Byte) (pid : Nat),
    s.hw = h →
    h.portRuns port.val = true →
    h.get (F.PCIE_CFG_ROLE.port port.val) = 0 →
    h.boundPid port.val rid.toNat = some pid →
    Does (.pcieMsiWrite port rid data) s fun h' => h' = if data.length = 4 ∧ bits (h.route pid) 0 2 = 2 ∧ leNat data ≠ 0 ∧ leNat data < 2048 then
        { h with gfiles := NSet.add h.gfiles (gfileKey (bits (h.route pid) 8 5) (bits (h.route pid) 13 3) (leNat data)) }
      else (h.addSat (F.PCIE_ERR_MSI_DROPPED.port port.val) 1).put (F.PCIE_INT_STATUS_MSI_DROP.port port.val) 1) ∧
  (∀ (s : State) (h : Hw) (port : Fin 2) (rid : BitVec 16) (data : List Byte),
    s.hw = h →
    h.portRuns port.val = true →
    h.get (F.PCIE_CFG_ROLE.port port.val) = 0 →
    h.boundPid port.val rid.toNat = none →
    Does (.pcieMsiWrite port rid data) s fun h' => h' = (h.addSat (F.PCIE_ERR_UR.port port.val) 1).put (F.PCIE_INT_STATUS_UR.port port.val) 1) ∧
  (∀ (s : State) (h : Hw) (port : Fin 2) (rid : BitVec 16) (data : List Byte),
    s.hw = h →
    (h.portRuns port.val = false ∨ h.get (F.PCIE_CFG_ROLE.port port.val) ≠ 0) →
    Does (.pcieMsiWrite port rid data) s fun h' => h' = h) ∧
  (∀ (s : State) (h : Hw) (port : Fin 2) (gen : Fin 6) (log2w : Fin 4) (a b : Hw),
    s.hw = h →
    gen.val ≠ 0 →
    h.fabricOn = true →
    h.blockOn 0x730 = true →
    (a = if h.on (F.PCIE_STATUS_UP.port port.val) = true then h.addSat (F.PCIE_ERR_RETRAIN.port port.val) 1 else h) →
    b = ((a.put (F.PCIE_STATUS_UP.port port.val) 1).put (F.PCIE_STATUS_GEN.port port.val) gen.val).put (F.PCIE_STATUS_LOG2_WIDTH.port port.val) log2w.val →
    Does (.pcieLinkTrained port gen log2w) s fun h' => h' = if gen.val < 5 ∨ log2w.val < 3 then (b.event (srcPort (2 + port.val)) 0x0503 0 (gen.val + 16 * log2w.val)).put (F.PCIE_INT_STATUS_DEGRADED.port port.val) 1 else b) ∧
  (∀ (s : State) (h : Hw) (port : Fin 2) (gen : Fin 6) (log2w : Fin 4),
    s.hw = h →
    (gen.val = 0 ∨ h.fabricOn = false ∨ h.blockOn 0x730 = false) →
    Does (.pcieLinkTrained port gen log2w) s fun h' => h' = h) ∧
  (∀ (s : State) (h : Hw) (ch : Fin 4) (st : Fin 6) (a : Hw),
    s.hw = h →
    h.sys.can.getD 0 ch.val ≠ st.val →
    (ch.val < 2 ∨ h.domainOn 34 = true) →
    a = { h with sys := { h.sys with can := h.sys.can.putD 0 ch.val st.val } } →
    Does (.canFault ch st) s fun h' => h' = a.event (if ch.val < 2 then srcDatum ch.val else srcPort (4 + ch.val)) 0x050C 0 st.val) ∧
  (∀ (s : State) (h : Hw) (ch : Fin 4) (st : Fin 6),
    s.hw = h →
    (h.sys.can.getD 0 ch.val = st.val ∨ 2 ≤ ch.val ∧ h.domainOn 34 = false) →
    Does (.canFault ch st) s fun h' => h' = h)

/-- For every level, accumulator with a legal tag and term that is an infinity or NaN: the integer A is unchanged and
the new tag is the join of the accumulator's tag and the term's. The join is NAN when either tag is NAN or one is
+INF and the other -INF; otherwise the tag that is not NUM, or NUM when both are NUM. It is commutative and
associative. -/
def Obligations.AccumulatorTags : Prop :=
  (∀ (lam : Int) (x : Acc) (v : Val) (t : Nat), x.tag < 4 →
    ((v = .nan ∧ t = 3) ∨ (v = .inf false ∧ t = 1) ∨ (v = .inf true ∧ t = 2)) →
    (x.addTerm lam v).1 = ⟨x.a, tagJoin x.tag t⟩) ∧
  (∀ a b : Nat, a < 4 → b < 4 →
    (tagJoin a b = 3 ↔ a = 3 ∨ b = 3 ∨ (a = 1 ∧ b = 2) ∨ (a = 2 ∧ b = 1)) ∧ (a = 0 → tagJoin a b = b) ∧ (b = 0 → tagJoin a b = a) ∧
      (a = b → tagJoin a b = a) ∧ tagJoin a b = tagJoin b a) ∧
  (∀ a b c : Nat, a < 4 → b < 4 → c < 4 → tagJoin (tagJoin a b) c = tagJoin a (tagJoin b c))

/-- For an active stencil with coat length L and a phase below it, the present stroke is a coat boundary exactly when
STROKE_COUNT mod L is PHASE, and the stroke in coat is (STROKE_COUNT - PHASE) mod L. Every stencil that
STENCIL_LOAD finds good has L from 1,000 to 200,000 and PHASE from 0 to L - 1. Two modules at the same module time
whose active stencils have the same L and PHASE are at a coat boundary together. -/
def Obligations.CoatBoundaries : Prop :=
  (∀ h : Hw, 0 < h.stn.active.coatLen → h.stn.active.phase < h.stn.active.coatLen →
    (h.atCoat = true ↔ h.now % h.stn.active.coatLen = h.stn.active.phase) ∧
      (h.coatPos : Int) = ((h.now : Int) - h.stn.active.phase) % h.stn.active.coatLen) ∧
  (∀ (h : Hw) (c : Cmd) (x : Stencil), h.judgeStencil c = .good x → 1000 ≤ x.coatLen ∧ x.coatLen ≤ 200000 ∧ x.phase < x.coatLen) ∧
  (∀ g h : Hw, g.now = h.now → g.stn.active.coatLen = h.stn.active.coatLen → g.stn.active.phase = h.stn.active.phase → g.atCoat = h.atCoat)

/-- For every DRAM channel c from 0 to 63, its controller's registers are those of block 0x600 + c, it is channel c mod
8 of device c / 8 (whose DEV_DEGRADED bit stands for it), and it attaches to a logical tile of die (c / 8) / 2, in
the westmost column of the die when the device is even and in the eastmost when it is odd. -/
def Obligations.PlacesOfChannels : Prop :=
  (∀ c : Nat, c < 64 → (F.MC_STATUS_STATE.blk c).block = 0x600 + c ∧ dieOfLogical (channelTile c) = c / 8 / 2 ∧
    (c / 8 % 2 = 0 → channelTile c % 32 % 16 = 0) ∧ (c / 8 % 2 = 1 → channelTile c % 32 % 16 = 15) ∧
    (∀ e, e < 64 → channelTile c = channelTile e → c = e))

/-- For every state with a command c at the front of its queue, step answers what exec of c answers on the state with
the queue's rest. That a step with no command waiting leaves the state as it is, is the model's choice of log entry
1. -/
def Obligations.StepRunsTheFrontCommand : Prop :=
  (∀ (c : Instr) (cs : List Instr) (s : State), s.pending = c :: cs →
    Sys2Proof.Machine.step s = Sys2Proof.Machine.exec c { s with pending := cs }) ∧
  (∀ s : State, s.pending = [] → Sys2Proof.Machine.step s = .next s)

/-- Every command in every state answers a next state in which the commands that wait are as before: none stops the
block. From a state in which n commands wait, n steps run them in their order, each on the hardware that the one
before left and with those behind it waiting, and end with the queue empty. -/
def Obligations.CommandsRunInOrder : Prop :=
  (∀ (c : Instr) (s : State), Does c s fun _ => True) ∧
  (∀ (s : State), ∃ hs : List Hw, hs.length = s.pending.length + 1 ∧ hs.head? = some s.hw ∧
    (∀ (i : Nat) (c : Instr) (a b : Hw), s.pending[i]? = some c → hs[i]? = some a → hs[i + 1]? = some b →
      Sys2Proof.Machine.exec c ⟨s.pending.drop (i + 1), a⟩ = .next ⟨s.pending.drop (i + 1), b⟩) ∧
    ∃ z, hs.getLast? = some z ∧ Host.Core.run Sys2Proof.core s.pending.length s = .next ⟨[], z⟩)

/-- In the reset state no command waits; each field of each row of the register map but TILE_ID holds the reset value
that its table gives (the values that the tables leave open are the model's choices of log entry 2); the active
stencil is the firmware stencil of R58 with L 1,000 and PHASE 0; no partition exists, every frame is UNINIT, no
context maps anything, and no tile runs a slice. That a byte never written reads 0 is the model's choice of log
entry 5. -/
def Obligations.ResetState : Prop :=
  State.reset.pending = [] ∧
  (∀ r ∈ regTable, ∀ f ∈ r.fields, ¬ (r.block = 0x100 ∧ r.off = 0) → bits (State.reset.hw.reg r.block r.off) f.lo f.len = f.reset) ∧
  (∀ b o : Nat, regSpec? b o = none → State.reset.hw.reg b o = 0) ∧
  (State.reset.hw.stn.active.coatLen = 1000 ∧ State.reset.hw.stn.active.phase = 0 ∧ State.reset.hw.stn.active.parts = [] ∧
      State.reset.hw.stn.active.trigs = [] ∧ State.reset.hw.stn.shadow = none) ∧
  (∀ p : Nat, State.reset.hw.part p = none) ∧
  (∀ f : Nat, (State.reset.hw.mem.frame f).state = 0) ∧
  (∀ c : Nat, State.reset.hw.mem.ctx c = { l1 := [], l0 := [] }) ∧
  (∀ a : Nat, State.reset.hw.mem.byte a = 0) ∧
  (∀ t : Nat, (State.reset.hw.tile t).slice = none)

/-- The invariant that every step keeps holds in the reset state. The canonical form of memory is the model's own. -/
def Obligations.ResetIsSound : Prop :=
  State.reset.Sound

/-- From every state in which each waiting command is one that the block can receive and memory lists its bytes at
rising addresses with none equal to what an unlisted address reads as, a step that answers a next state answers one
of which the same holds. The canonical form of memory is the model's own. -/
def Obligations.StepKeepsSound : Prop :=
  (∀ s s' : State, s.Sound → Sys2Proof.Machine.step s = .next s' → s'.Sound)
end

