-- ==== Sys2Proof/Laws/Maps.lean ====
section
/-! SUPPORT. Laws of the sparse maps: what a read after a change finds, and that every change keeps the
canonical form. -/

namespace Sys2Proof.Machine

variable {α : Type}

/-- A read after `put` finds the value put, or what was there. -/
theorem SMap.find_put (m : SMap α) (k j : Nat) (v : α) :
    (m.put k v).find j = if k = j then some v else m.find j := by
  induction m with
  | nil => by_cases h : k = j <;> simp [SMap.put, SMap.find, h]
  | cons e m ih =>
    obtain ⟨i, w⟩ := e
    by_cases h1 : k < i
    · rw [SMap.put, if_pos h1]; simp [SMap.find]
    · by_cases h2 : k = i
      · subst h2
        by_cases h : k = j <;> simp [SMap.put, SMap.find, h]
      · by_cases h3 : i = j
        · subst h3; simp [SMap.put, SMap.find, h1, h2]
        · simp [SMap.put, SMap.find, h1, h2, h3, ih]

@[simp] theorem SMap.find_put_same (m : SMap α) (k : Nat) (v : α) : (m.put k v).find k = some v := by
  simp [SMap.find_put]

theorem SMap.find_put_ne (m : SMap α) {k j : Nat} (v : α) (h : k ≠ j) : (m.put k v).find j = m.find j := by
  simp [SMap.find_put, h]

/-- A filter by keys finds what passes it. -/
theorem SMap.find_filter (p : Nat → Bool) (m : SMap α) (j : Nat) :
    SMap.find (m.filter fun e => p e.1) j = if p j then SMap.find m j else none := by
  induction m with
  | nil => simp [SMap.find]
  | cons e m ih =>
    obtain ⟨i, w⟩ := e
    by_cases h : p i
    · by_cases h1 : i = j
      · subst h1; simp [SMap.find, h]
      · simp [SMap.find, h, h1, ih]
    · by_cases h1 : i = j
      · subst h1; simp [h, ih]
      · simp [SMap.find, h, h1, ih]

/-- A read after `del` finds nothing at the key, and what was there elsewhere. -/
theorem SMap.find_del (m : SMap α) (k j : Nat) : (m.del k).find j = if k = j then none else m.find j := by
  have h := SMap.find_filter (fun i => decide (i ≠ k)) m j
  unfold SMap.del
  rw [h]
  by_cases e : k = j
  · simp [e]
  · have : j ≠ k := fun x => e x.symm
    simp [e, this]

/-- A read after `putD` gives the value put, or what was there. -/
theorem SMap.getD_putD [DecidableEq α] (d : α) (m : SMap α) (k j : Nat) (v : α) :
    SMap.getD d (m.putD d k v) j = if k = j then v else SMap.getD d m j := by
  unfold SMap.getD SMap.putD
  by_cases hv : v = d
  · by_cases h : k = j <;> simp [hv, SMap.find_del, h]
  · by_cases h : k = j <;> simp [hv, SMap.find_put, h]

@[simp] theorem SMap.getD_putD_same [DecidableEq α] (d : α) (m : SMap α) (k : Nat) (v : α) :
    SMap.getD d (m.putD d k v) k = v := by simp [SMap.getD_putD]

theorem SMap.getD_putD_ne [DecidableEq α] (d : α) (m : SMap α) {k j : Nat} (v : α) (h : k ≠ j) :
    SMap.getD d (m.putD d k v) j = SMap.getD d m j := by simp [SMap.getD_putD, h]

theorem SMap.getD_put (d : α) (m : SMap α) (k j : Nat) (v : α) :
    SMap.getD d (m.put k v) j = if k = j then v else SMap.getD d m j := by
  unfold SMap.getD
  by_cases h : k = j <;> simp [SMap.find_put, h]

theorem SMap.getD_del (d : α) (m : SMap α) (k j : Nat) :
    SMap.getD d (m.del k) j = if k = j then d else SMap.getD d m j := by
  unfold SMap.getD
  by_cases h : k = j <;> simp [SMap.find_del, h]

/-- A read after `upd` finds the value changed at the key, if it was listed, and what was there elsewhere. -/
theorem SMap.find_upd (m : SMap α) (k j : Nat) (f : α → α) :
    (m.upd k f).find j = if k = j then (m.find j).map f else m.find j := by
  induction m with
  | nil => simp [SMap.upd, SMap.find]
  | cons e m ih =>
    obtain ⟨i, w⟩ := e
    have ih' : SMap.find (List.map (fun e => if e.1 = k then (e.1, f e.2) else e) m) j =
        if k = j then (SMap.find m j).map f else SMap.find m j := ih
    by_cases h : i = k
    · by_cases h1 : i = j
      · subst h; subst h1; simp [SMap.upd, SMap.find]
      · subst h; simp [SMap.upd, SMap.find, h1, ih']
    · by_cases h1 : i = j
      · have : ¬ k = j := fun x => h (h1.trans x.symm)
        simp only [SMap.upd, List.map_cons, if_neg h, SMap.find, if_pos h1, if_neg this]
      · simp [SMap.upd, SMap.find, h, h1, ih']

/-- The entry that a run of values has at a key. -/
theorem SMap.find_run [DecidableEq α] (d : α) (k : Nat) (vs : List α) (j : Nat) :
    (SMap.run d k vs).find j =
      if k ≤ j ∧ j < k + vs.length then (if vs.getD (j - k) d = d then none else some (vs.getD (j - k) d)) else none := by
  induction vs generalizing k with
  | nil => simp [SMap.run, SMap.find]
  | cons v vs ih =>
    by_cases h1 : k = j
    · subst h1
      have hno : (SMap.run d (k + 1) vs).find k = none := by rw [ih]; simp
      by_cases hv : v = d
      · simp [SMap.run, hv, hno]
      · simp [SMap.run, SMap.find, hv]
    · have hstep : (SMap.run d k (v :: vs)).find j = (SMap.run d (k + 1) vs).find j := by
        by_cases hv : v = d
        · simp [SMap.run, hv]
        · simp [SMap.run, SMap.find, hv, h1]
      rw [hstep, ih]
      by_cases h2 : k + 1 ≤ j ∧ j < k + 1 + vs.length
      · have h3 : k ≤ j ∧ j < k + (v :: vs).length := by simp only [List.length_cons]; omega
        rw [if_pos h2, if_pos h3]
        obtain ⟨n, hn⟩ : ∃ n, j - k = n + 1 := ⟨j - k - 1, by omega⟩
        have h4 : j - (k + 1) = n := by omega
        rw [hn, h4]; simp
      · have h3 : ¬ (k ≤ j ∧ j < k + (v :: vs).length) := by simp only [List.length_cons]; omega
        rw [if_neg h2, if_neg h3]

/-- A find in two lists one after the other. -/
theorem SMap.find_append (a b : SMap α) (j : Nat) :
    SMap.find (a ++ b) j = (match SMap.find a j with | some v => some v | none => SMap.find b j) := by
  induction a with
  | nil => simp [SMap.find]
  | cons e a ih =>
    obtain ⟨i, w⟩ := e
    by_cases h : i = j <;> simp [SMap.find, h, ih]

/-- A read after a run of values has been put gives the run's value inside it, and what was there elsewhere. -/
theorem SMap.getD_splice [DecidableEq α] (d : α) (k : Nat) (vs : List α) (m : SMap α) (j : Nat) :
    SMap.getD d (m.splice d k vs) j =
      if k ≤ j ∧ j < k + vs.length then vs.getD (j - k) d else SMap.getD d m j := by
  induction m with
  | nil =>
    unfold SMap.getD SMap.splice
    rw [SMap.find_run]
    by_cases h : k ≤ j ∧ j < k + vs.length
    · rw [if_pos h, if_pos h]
      by_cases h1 : vs.getD (j - k) d = d <;> simp only [h1, if_true, if_false, Option.getD]
    · rw [if_neg h, if_neg h]; simp [SMap.find]
  | cons e m ih =>
    obtain ⟨i, w⟩ := e
    by_cases hi : i < k
    · have hs : SMap.splice d k vs ((i, w) :: m) = (i, w) :: SMap.splice d k vs m := by simp [SMap.splice, hi]
      rw [hs]
      by_cases h1 : i = j
      · have : ¬ (k ≤ j ∧ j < k + vs.length) := by omega
        rw [if_neg this]; simp [SMap.getD, SMap.find, h1]
      · have e1 : SMap.getD d ((i, w) :: SMap.splice d k vs m) j = SMap.getD d (SMap.splice d k vs m) j := by
          simp [SMap.getD, SMap.find, h1]
        have e2 : SMap.getD d ((i, w) :: m) j = SMap.getD d m j := by simp [SMap.getD, SMap.find, h1]
        rw [e1, e2, ih]
    · have hs : SMap.splice d k vs ((i, w) :: m) = SMap.run d k vs ++
          ((i, w) :: m).filter (fun e => ! (decide (k ≤ e.1) && decide (e.1 < k + vs.length))) := by
        simp only [SMap.splice, if_neg hi]
      rw [hs]
      unfold SMap.getD
      rw [SMap.find_append, SMap.find_run, SMap.find_filter (fun i => ! (decide (k ≤ i) && decide (i < k + vs.length)))]
      by_cases h : k ≤ j ∧ j < k + vs.length
      · rw [if_pos h, if_pos h]
        by_cases h1 : vs.getD (j - k) d = d
        · simp only [h1, if_true, h.1, h.2]; simp
        · simp only [h1, if_false]; simp
      · rw [if_neg h, if_neg h]
        have : (! (decide (k ≤ j) && decide (j < k + vs.length))) = true := by
          simp only [Bool.not_eq_true', Bool.and_eq_false_iff, decide_eq_false_iff_not]
          omega
        simp only [this, if_true]

/-! The canonical form. -/

theorem SMap.wfFrom_mono [DecidableEq α] {d : α} {m : SMap α} {lo lo' : Nat} (h : lo' ≤ lo)
    (w : SMap.wfFrom d lo m = true) : SMap.wfFrom d lo' m = true := by
  cases m with
  | nil => rfl
  | cons e m =>
    obtain ⟨i, v⟩ := e
    simp only [SMap.wfFrom, Bool.and_eq_true, decide_eq_true_eq] at w ⊢
    exact ⟨⟨by omega, w.1.2⟩, w.2⟩

theorem SMap.wfFrom_filter [DecidableEq α] {d : α} (p : Nat × α → Bool) {m : SMap α} {lo : Nat}
    (w : SMap.wfFrom d lo m = true) : SMap.wfFrom d lo (m.filter p) = true := by
  induction m generalizing lo with
  | nil => rfl
  | cons e m ih =>
    obtain ⟨i, v⟩ := e
    simp only [SMap.wfFrom, Bool.and_eq_true, decide_eq_true_eq] at w
    by_cases h : p (i, v)
    · rw [List.filter_cons_of_pos h]
      simp only [SMap.wfFrom, Bool.and_eq_true, decide_eq_true_eq]
      exact ⟨w.1, ih w.2⟩
    · rw [List.filter_cons_of_neg h]
      exact SMap.wfFrom_mono (by omega) (ih w.2)

theorem SMap.wf_del [DecidableEq α] {d : α} {m : SMap α} (k : Nat) (w : SMap.wf d m = true) :
    SMap.wf d (m.del k) = true := SMap.wfFrom_filter _ w

theorem SMap.wfFrom_put [DecidableEq α] {d : α} {m : SMap α} {lo k : Nat} {v : α} (hv : v ≠ d) (hk : lo ≤ k)
    (w : SMap.wfFrom d lo m = true) : SMap.wfFrom d lo (m.put k v) = true := by
  induction m generalizing lo with
  | nil => simp [SMap.put, SMap.wfFrom, hv, hk]
  | cons e m ih =>
    obtain ⟨i, x⟩ := e
    simp only [SMap.wfFrom, Bool.and_eq_true, decide_eq_true_eq] at w
    unfold SMap.put
    by_cases h1 : k < i
    · rw [if_pos h1]
      simp only [SMap.wfFrom, Bool.and_eq_true, decide_eq_true_eq]
      exact ⟨⟨hk, hv⟩, ⟨by omega, w.1.2⟩, w.2⟩
    · rw [if_neg h1]
      by_cases h2 : k = i
      · rw [if_pos h2]
        simp only [SMap.wfFrom, Bool.and_eq_true, decide_eq_true_eq]
        subst h2
        exact ⟨⟨hk, hv⟩, w.2⟩
      · rw [if_neg h2]
        simp only [SMap.wfFrom, Bool.and_eq_true, decide_eq_true_eq]
        exact ⟨w.1, ih (by omega) w.2⟩

theorem SMap.wf_putD [DecidableEq α] {d : α} {m : SMap α} (k : Nat) (v : α) (w : SMap.wf d m = true) :
    SMap.wf d (m.putD d k v) = true := by
  unfold SMap.putD
  by_cases h : v = d
  · rw [if_pos h]; exact SMap.wf_del k w
  · rw [if_neg h]; exact SMap.wfFrom_put h (Nat.zero_le k) w

/-- A run is canonical from any key up to its first, and stays so with a canonical map behind it. -/
theorem SMap.wfFrom_run_append [DecidableEq α] {d : α} {m : SMap α} {lo k : Nat} (vs : List α) (hk : lo ≤ k)
    (w : SMap.wfFrom d (k + vs.length) m = true) : SMap.wfFrom d lo (SMap.run d k vs ++ m) = true := by
  induction vs generalizing lo k with
  | nil => exact SMap.wfFrom_mono hk w
  | cons v vs ih =>
    have w' : SMap.wfFrom d (k + 1 + vs.length) m = true := by
      have : k + 1 + vs.length = k + (v :: vs).length := by simp only [List.length_cons]; omega
      rw [this]; exact w
    unfold SMap.run
    by_cases h : v = d
    · rw [if_pos h]; exact ih (by omega) w'
    · rw [if_neg h]
      simp only [List.cons_append, SMap.wfFrom, Bool.and_eq_true, decide_eq_true_eq]
      exact ⟨⟨hk, h⟩, ih (Nat.le_refl _) w'⟩

theorem SMap.wfFrom_outside [DecidableEq α] {d : α} {m : SMap α} {lo k n : Nat} (hlo : k ≤ lo)
    (w : SMap.wfFrom d lo m = true) :
    SMap.wfFrom d (k + n) (m.filter fun e => ! (decide (k ≤ e.1) && decide (e.1 < k + n))) = true := by
  induction m generalizing lo with
  | nil => rfl
  | cons e m ih =>
    obtain ⟨i, v⟩ := e
    simp only [SMap.wfFrom, Bool.and_eq_true, decide_eq_true_eq] at w
    by_cases h : i < k + n
    · rw [List.filter_cons_of_neg (by simp; omega)]
      exact ih (by omega) w.2
    · rw [List.filter_cons_of_pos (by simp; omega)]
      simp only [SMap.wfFrom, Bool.and_eq_true, decide_eq_true_eq]
      exact ⟨⟨by omega, w.1.2⟩, SMap.wfFrom_filter _ w.2⟩

theorem SMap.wfFrom_splice [DecidableEq α] {d : α} {m : SMap α} {lo k : Nat} (vs : List α) (hk : lo ≤ k)
    (w : SMap.wfFrom d lo m = true) : SMap.wfFrom d lo (m.splice d k vs) = true := by
  induction m generalizing lo with
  | nil =>
    unfold SMap.splice
    have := SMap.wfFrom_run_append (d := d) (m := []) vs hk rfl
    simpa using this
  | cons e m ih =>
    obtain ⟨i, x⟩ := e
    unfold SMap.splice
    by_cases h : i < k
    · rw [if_pos h]
      simp only [SMap.wfFrom, Bool.and_eq_true, decide_eq_true_eq] at w ⊢
      exact ⟨w.1, ih (by omega) w.2⟩
    · rw [if_neg h]
      refine SMap.wfFrom_run_append vs hk (SMap.wfFrom_outside (lo := i) (by omega) ?_)
      simp only [SMap.wfFrom, Bool.and_eq_true, decide_eq_true_eq] at w ⊢
      exact ⟨⟨Nat.le_refl _, w.1.2⟩, w.2⟩

theorem SMap.wf_splice [DecidableEq α] {d : α} {m : SMap α} (k : Nat) (vs : List α) (w : SMap.wf d m = true) :
    SMap.wf d (m.splice d k vs) = true := SMap.wfFrom_splice vs (Nat.zero_le k) w

/-! Sets of numbers. -/

theorem NSet.mem_add (s : NSet) (k j : Nat) : j ∈ NSet.add s k ↔ j = k ∨ j ∈ s := by
  induction s with
  | nil => simp [NSet.add]
  | cons i s ih =>
    unfold NSet.add
    by_cases h1 : k < i
    · simp [h1]
    · by_cases h2 : k = i
      · simp [h2]
      · simp only [h1, h2, if_false, List.mem_cons, ih]
        tauto

theorem NSet.mem_rem (s : NSet) (k j : Nat) : j ∈ NSet.rem s k ↔ j ∈ s ∧ j ≠ k := by
  simp [NSet.rem]

end Sys2Proof.Machine
end

