-- ==== Sys2Proof/Laws/Regs.lean ====
section
/-! SUPPORT. Laws of the bit fields and of the register file: what a register or a field reads after a
write to it or to another. -/

namespace Sys2Proof.Machine

theorem bits_eq (w lo len : Nat) : bits w lo len = w / 2 ^ lo % 2 ^ len := by
  rw [bits, Nat.shiftRight_eq_div_pow]

theorem bits_lt (w lo len : Nat) : bits w lo len < 2 ^ len := by
  rw [bits]; exact Nat.mod_lt _ (Nat.two_pow_pos len)

theorem bits_testBit (w lo len i : Nat) : (bits w lo len).testBit i = (decide (i < len) && w.testBit (lo + i)) := by
  rw [bits, Nat.testBit_mod_two_pow, Nat.testBit_shiftRight]

/-- A number split at a field. -/
theorem split_field (w lo len : Nat) :
    w = 2 ^ (lo + len) * (w / 2 ^ (lo + len)) + (bits w lo len * 2 ^ lo + w % 2 ^ lo) := by
  have h1 := Nat.div_add_mod w (2 ^ lo)
  have h2 := Nat.div_add_mod (w / 2 ^ lo) (2 ^ len)
  have h3 : w / 2 ^ lo / 2 ^ len = w / 2 ^ (lo + len) := by rw [Nat.div_div_eq_div_mul, ← pow_add]
  rw [h3] at h2
  rw [bits_eq]
  have h4 : 2 ^ (lo + len) * (w / 2 ^ (lo + len)) = 2 ^ lo * (2 ^ len * (w / 2 ^ (lo + len))) := by
    rw [pow_add]; ring
  rw [h4]
  calc w = 2 ^ lo * (w / 2 ^ lo) + w % 2 ^ lo := h1.symm
    _ = 2 ^ lo * (2 ^ len * (w / 2 ^ (lo + len)) + w / 2 ^ lo % 2 ^ len) + w % 2 ^ lo := by rw [h2]
    _ = _ := by ring

/-- What a number with a field replaced is made of. -/
theorem setBits_eq (w lo len v : Nat) :
    setBits w lo len v = 2 ^ (lo + len) * (w / 2 ^ (lo + len)) + ((v % 2 ^ len) * 2 ^ lo + w % 2 ^ lo) := by
  have h := split_field w lo len
  unfold setBits
  have h2 : w - bits w lo len * 2 ^ lo = 2 ^ (lo + len) * (w / 2 ^ (lo + len)) + w % 2 ^ lo := by omega
  rw [h2]; omega

theorem setBits_testBit (w lo len v i : Nat) :
    (setBits w lo len v).testBit i =
      if lo ≤ i ∧ i < lo + len then v.testBit (i - lo) else w.testBit i := by
  have hlt : (v % 2 ^ len) * 2 ^ lo + w % 2 ^ lo < 2 ^ (lo + len) := by
    have h1 : v % 2 ^ len < 2 ^ len := Nat.mod_lt _ (Nat.two_pow_pos len)
    have h2 : w % 2 ^ lo < 2 ^ lo := Nat.mod_lt _ (Nat.two_pow_pos lo)
    calc (v % 2 ^ len) * 2 ^ lo + w % 2 ^ lo < (v % 2 ^ len) * 2 ^ lo + 2 ^ lo := by omega
      _ = (v % 2 ^ len + 1) * 2 ^ lo := by ring
      _ ≤ 2 ^ len * 2 ^ lo := Nat.mul_le_mul_right _ h1
      _ = 2 ^ (lo + len) := by rw [pow_add]; ring
  have hl : w % 2 ^ lo < 2 ^ lo := Nat.mod_lt _ (Nat.two_pow_pos lo)
  rw [setBits_eq, Nat.testBit_two_pow_mul_add _ hlt]
  by_cases h1 : i < lo + len
  · rw [if_pos h1, Nat.mul_comm (v % 2 ^ len), Nat.testBit_two_pow_mul_add _ hl]
    by_cases h2 : i < lo
    · rw [if_pos h2, if_neg (by omega), Nat.testBit_mod_two_pow]; simp [h2]
    · rw [if_neg h2, if_pos ⟨by omega, h1⟩, Nat.testBit_mod_two_pow]
      simp; omega
  · rw [if_neg h1, if_neg (by omega), Nat.testBit_div_two_pow]
    congr 1; omega

/-- The field that was replaced reads what was put. -/
@[simp] theorem bits_setBits_same (w lo len v : Nat) : bits (setBits w lo len v) lo len = v % 2 ^ len := by
  apply Nat.eq_of_testBit_eq
  intro i
  rw [bits_testBit, setBits_testBit, Nat.testBit_mod_two_pow]
  by_cases h : i < len
  · rw [if_pos ⟨by omega, by omega⟩]; simp [h]
  · simp [h]

/-- A field beside the one that was replaced reads as before. -/
theorem bits_setBits_beside (w lo len v lo' len' : Nat) (h : lo' + len' ≤ lo ∨ lo + len ≤ lo') :
    bits (setBits w lo len v) lo' len' = bits w lo' len' := by
  apply Nat.eq_of_testBit_eq
  intro i
  rw [bits_testBit, bits_testBit, setBits_testBit]
  by_cases h1 : i < len'
  · rw [if_neg (by omega)]
  · simp [h1]

/-- A field that lies in the one that was replaced reads its part of what was put. -/
theorem bits_setBits_inside (w lo len v lo' len' : Nat) (h1 : lo ≤ lo') (h2 : lo' + len' ≤ lo + len) :
    bits (setBits w lo len v) lo' len' = bits v (lo' - lo) len' := by
  apply Nat.eq_of_testBit_eq
  intro i
  rw [bits_testBit, bits_testBit, setBits_testBit]
  by_cases h3 : i < len'
  · rw [if_pos ⟨by omega, by omega⟩]
    have : lo' + i - lo = lo' - lo + i := by omega
    simp [h3, this]
  · simp [h3]

theorem regKey_inj {b o b' o' : Nat} (h : o < 0x10000) (h' : o' < 0x10000) :
    regKey b o = regKey b' o' ↔ b = b' ∧ o = o' := by
  unfold regKey; omega

/-- A register reads what was stored in it, and what it held when another was stored. -/
theorem Hw.reg_setReg (h : Hw) (b o v b' o' : Nat) :
    (h.setReg b o v).reg b' o' =
      if regKey b o = regKey b' o' then (if v = regReset b o then regReset b' o' else v) else h.reg b' o' := by
  unfold Hw.setReg Hw.reg SMap.putD
  by_cases hv : v = regReset b o
  · simp only [hv, if_true, SMap.find_del]
    by_cases hk : regKey b o = regKey b' o' <;> simp [hk]
  · simp only [hv, if_false, SMap.find_put]
    by_cases hk : regKey b o = regKey b' o' <;> simp [hk]

@[simp] theorem Hw.reg_setReg_same (h : Hw) (b o v : Nat) : (h.setReg b o v).reg b o = v := by
  rw [Hw.reg_setReg]
  by_cases hv : v = regReset b o <;> simp [hv]

theorem Hw.reg_setReg_ne (h : Hw) (b o v b' o' : Nat) (hk : regKey b o ≠ regKey b' o') :
    (h.setReg b o v).reg b' o' = h.reg b' o' := by
  rw [Hw.reg_setReg, if_neg hk]

/-- A field reads what hardware has put into it. -/
@[simp] theorem Hw.get_put_same (h : Hw) (f : Fld) (v : Nat) : (h.put f v).get f = v % 2 ^ f.len := by
  simp [Hw.get, Hw.put]

/-- A field of another register reads as before. -/
theorem Hw.get_put_reg (h : Hw) (f g : Fld) (v : Nat) (hk : regKey f.block f.off ≠ regKey g.block g.off) :
    (h.put f v).get g = h.get g := by
  simp [Hw.get, Hw.put, Hw.reg_setReg_ne _ _ _ _ _ _ hk]

/-- A field beside it in its register reads as before. -/
theorem Hw.get_put_beside (h : Hw) (f g : Fld) (v : Nat) (hb : f.block = g.block) (ho : f.off = g.off)
    (hl : g.lo + g.len ≤ f.lo ∨ f.lo + f.len ≤ g.lo) : (h.put f v).get g = h.get g := by
  simp only [Hw.get, Hw.put, hb, ho, Hw.reg_setReg_same]
  rw [bits_setBits_beside _ _ _ _ _ _ hl]

/-- Any two fields that share no bit do not disturb each other. -/
theorem Hw.get_put_apart (h : Hw) (f g : Fld) (v : Nat)
    (ha : regKey f.block f.off ≠ regKey g.block g.off ∨
      f.block = g.block ∧ f.off = g.off ∧ (g.lo + g.len ≤ f.lo ∨ f.lo + f.len ≤ g.lo)) :
    (h.put f v).get g = h.get g := by
  rcases ha with hk | ⟨hb, ho, hl⟩
  · exact Hw.get_put_reg h f g v hk
  · exact Hw.get_put_beside h f g v hb ho hl

/-- A register other than that of the field reads as before. -/
theorem Hw.reg_put_ne (h : Hw) (f : Fld) (v b o : Nat) (hk : regKey f.block f.off ≠ regKey b o) :
    (h.put f v).reg b o = h.reg b o := by
  simp [Hw.put, Hw.reg_setReg_ne _ _ _ _ _ _ hk]

theorem Hw.get_lt (h : Hw) (f : Fld) : h.get f < 2 ^ f.len := bits_lt _ _ _

/-- A one-bit field that has been set is on, and one that has been cleared is not. -/
theorem Hw.on_put_same (h : Hw) (f : Fld) (v : Nat) : (h.put f v).on f = decide (v % 2 ^ f.len ≠ 0) := by
  simp [Hw.on]

/-- Reading goes by the register file alone. -/
theorem Hw.get_congr {a b : Hw} (h : a.regs = b.regs) (f : Fld) : a.get f = b.get f := by
  simp [Hw.get, Hw.reg, h]

end Sys2Proof.Machine
end

