-- ==== Sys2Proof/Laws/State.lean ====
section
/-! SUPPORT. The fields of the state under its named updates: every field that an update does not name is
as before. -/

namespace Sys2Proof.Machine

@[simp] theorem State.next_eq (f : Hw → Hw) (s : State) : s.next f = .next { s with hw := f s.hw } := rfl

@[simp] theorem Hw.setReg_freeIx (h : Hw) (b o v : Nat) : (h.setReg b o v).freeIx = h.freeIx := rfl
@[simp] theorem Hw.setReg_rndIx (h : Hw) (b o v : Nat) : (h.setReg b o v).rndIx = h.rndIx := rfl
@[simp] theorem Hw.setReg_mem (h : Hw) (b o v : Nat) : (h.setReg b o v).mem = h.mem := rfl
@[simp] theorem Hw.setReg_parts (h : Hw) (b o v : Nat) : (h.setReg b o v).parts = h.parts := rfl
@[simp] theorem Hw.setReg_cmds (h : Hw) (b o v : Nat) : (h.setReg b o v).cmds = h.cmds := rfl
@[simp] theorem Hw.setReg_fetched (h : Hw) (b o v : Nat) : (h.setReg b o v).fetched = h.fetched := rfl
@[simp] theorem Hw.setReg_mram (h : Hw) (b o v : Nat) : (h.setReg b o v).mram = h.mram := rfl
@[simp] theorem Hw.setReg_sobs (h : Hw) (b o v : Nat) : (h.setReg b o v).sobs = h.sobs := rfl
@[simp] theorem Hw.setReg_watches (h : Hw) (b o v : Nat) : (h.setReg b o v).watches = h.watches := rfl
@[simp] theorem Hw.setReg_evt (h : Hw) (b o v : Nat) : (h.setReg b o v).evt = h.evt := rfl
@[simp] theorem Hw.setReg_stn (h : Hw) (b o v : Nat) : (h.setReg b o v).stn = h.stn := rfl
@[simp] theorem Hw.setReg_vec (h : Hw) (b o v : Nat) : (h.setReg b o v).vec = h.vec := rfl
@[simp] theorem Hw.setReg_tiles (h : Hw) (b o v : Nat) : (h.setReg b o v).tiles = h.tiles := rfl
@[simp] theorem Hw.setReg_fab (h : Hw) (b o v : Nat) : (h.setReg b o v).fab = h.fab := rfl
@[simp] theorem Hw.setReg_models (h : Hw) (b o v : Nat) : (h.setReg b o v).models = h.models := rfl
@[simp] theorem Hw.setReg_jobs (h : Hw) (b o v : Nat) : (h.setReg b o v).jobs = h.jobs := rfl
@[simp] theorem Hw.setReg_dup (h : Hw) (b o v : Nat) : (h.setReg b o v).dup = h.dup := rfl
@[simp] theorem Hw.setReg_kv (h : Hw) (b o v : Nat) : (h.setReg b o v).kv = h.kv := rfl
@[simp] theorem Hw.setReg_cfg (h : Hw) (b o v : Nat) : (h.setReg b o v).cfg = h.cfg := rfl
@[simp] theorem Hw.setReg_msix (h : Hw) (b o v : Nat) : (h.setReg b o v).msix = h.msix := rfl
@[simp] theorem Hw.setReg_gfiles (h : Hw) (b o v : Nat) : (h.setReg b o v).gfiles = h.gfiles := rfl
@[simp] theorem Hw.setReg_outs (h : Hw) (b o v : Nat) : (h.setReg b o v).outs = h.outs := rfl
@[simp] theorem Hw.setReg_health (h : Hw) (b o v : Nat) : (h.setReg b o v).health = h.health := rfl
@[simp] theorem Hw.setReg_scores (h : Hw) (b o v : Nat) : (h.setReg b o v).scores = h.scores := rfl
@[simp] theorem Hw.setReg_watch (h : Hw) (b o v : Nat) : (h.setReg b o v).watch = h.watch := rfl
@[simp] theorem Hw.setReg_advised (h : Hw) (b o v : Nat) : (h.setReg b o v).advised = h.advised := rfl
@[simp] theorem Hw.setReg_healthAt (h : Hw) (b o v : Nat) : (h.setReg b o v).healthAt = h.healthAt := rfl
@[simp] theorem Hw.setReg_coatLog (h : Hw) (b o v : Nat) : (h.setReg b o v).coatLog = h.coatLog := rfl
@[simp] theorem Hw.setReg_freezeReq (h : Hw) (b o v : Nat) : (h.setReg b o v).freezeReq = h.freezeReq := rfl
@[simp] theorem Hw.setReg_seqStopped (h : Hw) (b o v : Nat) : (h.setReg b o v).seqStopped = h.seqStopped := rfl
@[simp] theorem Hw.setReg_detected (h : Hw) (b o v : Nat) : (h.setReg b o v).detected = h.detected := rfl
@[simp] theorem Hw.setReg_dfin (h : Hw) (b o v : Nat) : (h.setReg b o v).dfin = h.dfin := rfl
@[simp] theorem Hw.setReg_ing (h : Hw) (b o v : Nat) : (h.setReg b o v).ing = h.ing := rfl
@[simp] theorem Hw.setReg_fus (h : Hw) (b o v : Nat) : (h.setReg b o v).fus = h.fus := rfl
@[simp] theorem Hw.setReg_datA (h : Hw) (b o v : Nat) : (h.setReg b o v).datA = h.datA := rfl
@[simp] theorem Hw.setReg_datB (h : Hw) (b o v : Nat) : (h.setReg b o v).datB = h.datB := rfl
@[simp] theorem Hw.setReg_trv (h : Hw) (b o v : Nat) : (h.setReg b o v).trv = h.trv := rfl
@[simp] theorem Hw.setReg_sys (h : Hw) (b o v : Nat) : (h.setReg b o v).sys = h.sys := rfl
@[simp] theorem Hw.setReg_tile (h : Hw) (b o v : Nat) (u : Nat) : (h.setReg b o v).tile u = h.tile u := rfl
@[simp] theorem Hw.setReg_queue (h : Hw) (b o v : Nat) (u w : Nat) : (h.setReg b o v).queue u w = h.queue u w := rfl
@[simp] theorem Hw.setReg_part (h : Hw) (b o v : Nat) (u : Nat) : (h.setReg b o v).part u = h.part u := rfl
@[simp] theorem Hw.setReg_cmd (h : Hw) (b o v : Nat) (u w x : Nat) : (h.setReg b o v).cmd? u w x = h.cmd? u w x := rfl

@[simp] theorem Hw.put_freeIx (h : Hw) (f : Fld) (v : Nat) : (h.put f v).freeIx = h.freeIx := rfl
@[simp] theorem Hw.put_rndIx (h : Hw) (f : Fld) (v : Nat) : (h.put f v).rndIx = h.rndIx := rfl
@[simp] theorem Hw.put_mem (h : Hw) (f : Fld) (v : Nat) : (h.put f v).mem = h.mem := rfl
@[simp] theorem Hw.put_parts (h : Hw) (f : Fld) (v : Nat) : (h.put f v).parts = h.parts := rfl
@[simp] theorem Hw.put_cmds (h : Hw) (f : Fld) (v : Nat) : (h.put f v).cmds = h.cmds := rfl
@[simp] theorem Hw.put_fetched (h : Hw) (f : Fld) (v : Nat) : (h.put f v).fetched = h.fetched := rfl
@[simp] theorem Hw.put_mram (h : Hw) (f : Fld) (v : Nat) : (h.put f v).mram = h.mram := rfl
@[simp] theorem Hw.put_sobs (h : Hw) (f : Fld) (v : Nat) : (h.put f v).sobs = h.sobs := rfl
@[simp] theorem Hw.put_watches (h : Hw) (f : Fld) (v : Nat) : (h.put f v).watches = h.watches := rfl
@[simp] theorem Hw.put_evt (h : Hw) (f : Fld) (v : Nat) : (h.put f v).evt = h.evt := rfl
@[simp] theorem Hw.put_stn (h : Hw) (f : Fld) (v : Nat) : (h.put f v).stn = h.stn := rfl
@[simp] theorem Hw.put_vec (h : Hw) (f : Fld) (v : Nat) : (h.put f v).vec = h.vec := rfl
@[simp] theorem Hw.put_tiles (h : Hw) (f : Fld) (v : Nat) : (h.put f v).tiles = h.tiles := rfl
@[simp] theorem Hw.put_fab (h : Hw) (f : Fld) (v : Nat) : (h.put f v).fab = h.fab := rfl
@[simp] theorem Hw.put_models (h : Hw) (f : Fld) (v : Nat) : (h.put f v).models = h.models := rfl
@[simp] theorem Hw.put_jobs (h : Hw) (f : Fld) (v : Nat) : (h.put f v).jobs = h.jobs := rfl
@[simp] theorem Hw.put_dup (h : Hw) (f : Fld) (v : Nat) : (h.put f v).dup = h.dup := rfl
@[simp] theorem Hw.put_kv (h : Hw) (f : Fld) (v : Nat) : (h.put f v).kv = h.kv := rfl
@[simp] theorem Hw.put_cfg (h : Hw) (f : Fld) (v : Nat) : (h.put f v).cfg = h.cfg := rfl
@[simp] theorem Hw.put_msix (h : Hw) (f : Fld) (v : Nat) : (h.put f v).msix = h.msix := rfl
@[simp] theorem Hw.put_gfiles (h : Hw) (f : Fld) (v : Nat) : (h.put f v).gfiles = h.gfiles := rfl
@[simp] theorem Hw.put_outs (h : Hw) (f : Fld) (v : Nat) : (h.put f v).outs = h.outs := rfl
@[simp] theorem Hw.put_health (h : Hw) (f : Fld) (v : Nat) : (h.put f v).health = h.health := rfl
@[simp] theorem Hw.put_scores (h : Hw) (f : Fld) (v : Nat) : (h.put f v).scores = h.scores := rfl
@[simp] theorem Hw.put_watch (h : Hw) (f : Fld) (v : Nat) : (h.put f v).watch = h.watch := rfl
@[simp] theorem Hw.put_advised (h : Hw) (f : Fld) (v : Nat) : (h.put f v).advised = h.advised := rfl
@[simp] theorem Hw.put_healthAt (h : Hw) (f : Fld) (v : Nat) : (h.put f v).healthAt = h.healthAt := rfl
@[simp] theorem Hw.put_coatLog (h : Hw) (f : Fld) (v : Nat) : (h.put f v).coatLog = h.coatLog := rfl
@[simp] theorem Hw.put_freezeReq (h : Hw) (f : Fld) (v : Nat) : (h.put f v).freezeReq = h.freezeReq := rfl
@[simp] theorem Hw.put_seqStopped (h : Hw) (f : Fld) (v : Nat) : (h.put f v).seqStopped = h.seqStopped := rfl
@[simp] theorem Hw.put_detected (h : Hw) (f : Fld) (v : Nat) : (h.put f v).detected = h.detected := rfl
@[simp] theorem Hw.put_dfin (h : Hw) (f : Fld) (v : Nat) : (h.put f v).dfin = h.dfin := rfl
@[simp] theorem Hw.put_ing (h : Hw) (f : Fld) (v : Nat) : (h.put f v).ing = h.ing := rfl
@[simp] theorem Hw.put_fus (h : Hw) (f : Fld) (v : Nat) : (h.put f v).fus = h.fus := rfl
@[simp] theorem Hw.put_datA (h : Hw) (f : Fld) (v : Nat) : (h.put f v).datA = h.datA := rfl
@[simp] theorem Hw.put_datB (h : Hw) (f : Fld) (v : Nat) : (h.put f v).datB = h.datB := rfl
@[simp] theorem Hw.put_trv (h : Hw) (f : Fld) (v : Nat) : (h.put f v).trv = h.trv := rfl
@[simp] theorem Hw.put_sys (h : Hw) (f : Fld) (v : Nat) : (h.put f v).sys = h.sys := rfl
@[simp] theorem Hw.put_tile (h : Hw) (f : Fld) (v : Nat) (u : Nat) : (h.put f v).tile u = h.tile u := rfl
@[simp] theorem Hw.put_queue (h : Hw) (f : Fld) (v : Nat) (u w : Nat) : (h.put f v).queue u w = h.queue u w := rfl
@[simp] theorem Hw.put_part (h : Hw) (f : Fld) (v : Nat) (u : Nat) : (h.put f v).part u = h.part u := rfl
@[simp] theorem Hw.put_cmd (h : Hw) (f : Fld) (v : Nat) (u w x : Nat) : (h.put f v).cmd? u w x = h.cmd? u w x := rfl

@[simp] theorem Hw.addSat_freeIx (h : Hw) (f : Fld) (n : Nat) : (h.addSat f n).freeIx = h.freeIx := rfl
@[simp] theorem Hw.addSat_rndIx (h : Hw) (f : Fld) (n : Nat) : (h.addSat f n).rndIx = h.rndIx := rfl
@[simp] theorem Hw.addSat_mem (h : Hw) (f : Fld) (n : Nat) : (h.addSat f n).mem = h.mem := rfl
@[simp] theorem Hw.addSat_parts (h : Hw) (f : Fld) (n : Nat) : (h.addSat f n).parts = h.parts := rfl
@[simp] theorem Hw.addSat_cmds (h : Hw) (f : Fld) (n : Nat) : (h.addSat f n).cmds = h.cmds := rfl
@[simp] theorem Hw.addSat_fetched (h : Hw) (f : Fld) (n : Nat) : (h.addSat f n).fetched = h.fetched := rfl
@[simp] theorem Hw.addSat_mram (h : Hw) (f : Fld) (n : Nat) : (h.addSat f n).mram = h.mram := rfl
@[simp] theorem Hw.addSat_sobs (h : Hw) (f : Fld) (n : Nat) : (h.addSat f n).sobs = h.sobs := rfl
@[simp] theorem Hw.addSat_watches (h : Hw) (f : Fld) (n : Nat) : (h.addSat f n).watches = h.watches := rfl
@[simp] theorem Hw.addSat_evt (h : Hw) (f : Fld) (n : Nat) : (h.addSat f n).evt = h.evt := rfl
@[simp] theorem Hw.addSat_stn (h : Hw) (f : Fld) (n : Nat) : (h.addSat f n).stn = h.stn := rfl
@[simp] theorem Hw.addSat_vec (h : Hw) (f : Fld) (n : Nat) : (h.addSat f n).vec = h.vec := rfl
@[simp] theorem Hw.addSat_tiles (h : Hw) (f : Fld) (n : Nat) : (h.addSat f n).tiles = h.tiles := rfl
@[simp] theorem Hw.addSat_fab (h : Hw) (f : Fld) (n : Nat) : (h.addSat f n).fab = h.fab := rfl
@[simp] theorem Hw.addSat_models (h : Hw) (f : Fld) (n : Nat) : (h.addSat f n).models = h.models := rfl
@[simp] theorem Hw.addSat_jobs (h : Hw) (f : Fld) (n : Nat) : (h.addSat f n).jobs = h.jobs := rfl
@[simp] theorem Hw.addSat_dup (h : Hw) (f : Fld) (n : Nat) : (h.addSat f n).dup = h.dup := rfl
@[simp] theorem Hw.addSat_kv (h : Hw) (f : Fld) (n : Nat) : (h.addSat f n).kv = h.kv := rfl
@[simp] theorem Hw.addSat_cfg (h : Hw) (f : Fld) (n : Nat) : (h.addSat f n).cfg = h.cfg := rfl
@[simp] theorem Hw.addSat_msix (h : Hw) (f : Fld) (n : Nat) : (h.addSat f n).msix = h.msix := rfl
@[simp] theorem Hw.addSat_gfiles (h : Hw) (f : Fld) (n : Nat) : (h.addSat f n).gfiles = h.gfiles := rfl
@[simp] theorem Hw.addSat_outs (h : Hw) (f : Fld) (n : Nat) : (h.addSat f n).outs = h.outs := rfl
@[simp] theorem Hw.addSat_health (h : Hw) (f : Fld) (n : Nat) : (h.addSat f n).health = h.health := rfl
@[simp] theorem Hw.addSat_scores (h : Hw) (f : Fld) (n : Nat) : (h.addSat f n).scores = h.scores := rfl
@[simp] theorem Hw.addSat_watch (h : Hw) (f : Fld) (n : Nat) : (h.addSat f n).watch = h.watch := rfl
@[simp] theorem Hw.addSat_advised (h : Hw) (f : Fld) (n : Nat) : (h.addSat f n).advised = h.advised := rfl
@[simp] theorem Hw.addSat_healthAt (h : Hw) (f : Fld) (n : Nat) : (h.addSat f n).healthAt = h.healthAt := rfl
@[simp] theorem Hw.addSat_coatLog (h : Hw) (f : Fld) (n : Nat) : (h.addSat f n).coatLog = h.coatLog := rfl
@[simp] theorem Hw.addSat_freezeReq (h : Hw) (f : Fld) (n : Nat) : (h.addSat f n).freezeReq = h.freezeReq := rfl
@[simp] theorem Hw.addSat_seqStopped (h : Hw) (f : Fld) (n : Nat) : (h.addSat f n).seqStopped = h.seqStopped := rfl
@[simp] theorem Hw.addSat_detected (h : Hw) (f : Fld) (n : Nat) : (h.addSat f n).detected = h.detected := rfl
@[simp] theorem Hw.addSat_dfin (h : Hw) (f : Fld) (n : Nat) : (h.addSat f n).dfin = h.dfin := rfl
@[simp] theorem Hw.addSat_ing (h : Hw) (f : Fld) (n : Nat) : (h.addSat f n).ing = h.ing := rfl
@[simp] theorem Hw.addSat_fus (h : Hw) (f : Fld) (n : Nat) : (h.addSat f n).fus = h.fus := rfl
@[simp] theorem Hw.addSat_datA (h : Hw) (f : Fld) (n : Nat) : (h.addSat f n).datA = h.datA := rfl
@[simp] theorem Hw.addSat_datB (h : Hw) (f : Fld) (n : Nat) : (h.addSat f n).datB = h.datB := rfl
@[simp] theorem Hw.addSat_trv (h : Hw) (f : Fld) (n : Nat) : (h.addSat f n).trv = h.trv := rfl
@[simp] theorem Hw.addSat_sys (h : Hw) (f : Fld) (n : Nat) : (h.addSat f n).sys = h.sys := rfl
@[simp] theorem Hw.addSat_tile (h : Hw) (f : Fld) (n : Nat) (u : Nat) : (h.addSat f n).tile u = h.tile u := rfl
@[simp] theorem Hw.addSat_queue (h : Hw) (f : Fld) (n : Nat) (u w : Nat) : (h.addSat f n).queue u w = h.queue u w := rfl
@[simp] theorem Hw.addSat_part (h : Hw) (f : Fld) (n : Nat) (u : Nat) : (h.addSat f n).part u = h.part u := rfl
@[simp] theorem Hw.addSat_cmd (h : Hw) (f : Fld) (n : Nat) (u w x : Nat) : (h.addSat f n).cmd? u w x = h.cmd? u w x := rfl

@[simp] theorem Hw.addWrap_freeIx (h : Hw) (f : Fld) (n : Nat) : (h.addWrap f n).freeIx = h.freeIx := rfl
@[simp] theorem Hw.addWrap_rndIx (h : Hw) (f : Fld) (n : Nat) : (h.addWrap f n).rndIx = h.rndIx := rfl
@[simp] theorem Hw.addWrap_mem (h : Hw) (f : Fld) (n : Nat) : (h.addWrap f n).mem = h.mem := rfl
@[simp] theorem Hw.addWrap_parts (h : Hw) (f : Fld) (n : Nat) : (h.addWrap f n).parts = h.parts := rfl
@[simp] theorem Hw.addWrap_cmds (h : Hw) (f : Fld) (n : Nat) : (h.addWrap f n).cmds = h.cmds := rfl
@[simp] theorem Hw.addWrap_fetched (h : Hw) (f : Fld) (n : Nat) : (h.addWrap f n).fetched = h.fetched := rfl
@[simp] theorem Hw.addWrap_mram (h : Hw) (f : Fld) (n : Nat) : (h.addWrap f n).mram = h.mram := rfl
@[simp] theorem Hw.addWrap_sobs (h : Hw) (f : Fld) (n : Nat) : (h.addWrap f n).sobs = h.sobs := rfl
@[simp] theorem Hw.addWrap_watches (h : Hw) (f : Fld) (n : Nat) : (h.addWrap f n).watches = h.watches := rfl
@[simp] theorem Hw.addWrap_evt (h : Hw) (f : Fld) (n : Nat) : (h.addWrap f n).evt = h.evt := rfl
@[simp] theorem Hw.addWrap_stn (h : Hw) (f : Fld) (n : Nat) : (h.addWrap f n).stn = h.stn := rfl
@[simp] theorem Hw.addWrap_vec (h : Hw) (f : Fld) (n : Nat) : (h.addWrap f n).vec = h.vec := rfl
@[simp] theorem Hw.addWrap_tiles (h : Hw) (f : Fld) (n : Nat) : (h.addWrap f n).tiles = h.tiles := rfl
@[simp] theorem Hw.addWrap_fab (h : Hw) (f : Fld) (n : Nat) : (h.addWrap f n).fab = h.fab := rfl
@[simp] theorem Hw.addWrap_models (h : Hw) (f : Fld) (n : Nat) : (h.addWrap f n).models = h.models := rfl
@[simp] theorem Hw.addWrap_jobs (h : Hw) (f : Fld) (n : Nat) : (h.addWrap f n).jobs = h.jobs := rfl
@[simp] theorem Hw.addWrap_dup (h : Hw) (f : Fld) (n : Nat) : (h.addWrap f n).dup = h.dup := rfl
@[simp] theorem Hw.addWrap_kv (h : Hw) (f : Fld) (n : Nat) : (h.addWrap f n).kv = h.kv := rfl
@[simp] theorem Hw.addWrap_cfg (h : Hw) (f : Fld) (n : Nat) : (h.addWrap f n).cfg = h.cfg := rfl
@[simp] theorem Hw.addWrap_msix (h : Hw) (f : Fld) (n : Nat) : (h.addWrap f n).msix = h.msix := rfl
@[simp] theorem Hw.addWrap_gfiles (h : Hw) (f : Fld) (n : Nat) : (h.addWrap f n).gfiles = h.gfiles := rfl
@[simp] theorem Hw.addWrap_outs (h : Hw) (f : Fld) (n : Nat) : (h.addWrap f n).outs = h.outs := rfl
@[simp] theorem Hw.addWrap_health (h : Hw) (f : Fld) (n : Nat) : (h.addWrap f n).health = h.health := rfl
@[simp] theorem Hw.addWrap_scores (h : Hw) (f : Fld) (n : Nat) : (h.addWrap f n).scores = h.scores := rfl
@[simp] theorem Hw.addWrap_watch (h : Hw) (f : Fld) (n : Nat) : (h.addWrap f n).watch = h.watch := rfl
@[simp] theorem Hw.addWrap_advised (h : Hw) (f : Fld) (n : Nat) : (h.addWrap f n).advised = h.advised := rfl
@[simp] theorem Hw.addWrap_healthAt (h : Hw) (f : Fld) (n : Nat) : (h.addWrap f n).healthAt = h.healthAt := rfl
@[simp] theorem Hw.addWrap_coatLog (h : Hw) (f : Fld) (n : Nat) : (h.addWrap f n).coatLog = h.coatLog := rfl
@[simp] theorem Hw.addWrap_freezeReq (h : Hw) (f : Fld) (n : Nat) : (h.addWrap f n).freezeReq = h.freezeReq := rfl
@[simp] theorem Hw.addWrap_seqStopped (h : Hw) (f : Fld) (n : Nat) : (h.addWrap f n).seqStopped = h.seqStopped := rfl
@[simp] theorem Hw.addWrap_detected (h : Hw) (f : Fld) (n : Nat) : (h.addWrap f n).detected = h.detected := rfl
@[simp] theorem Hw.addWrap_dfin (h : Hw) (f : Fld) (n : Nat) : (h.addWrap f n).dfin = h.dfin := rfl
@[simp] theorem Hw.addWrap_ing (h : Hw) (f : Fld) (n : Nat) : (h.addWrap f n).ing = h.ing := rfl
@[simp] theorem Hw.addWrap_fus (h : Hw) (f : Fld) (n : Nat) : (h.addWrap f n).fus = h.fus := rfl
@[simp] theorem Hw.addWrap_datA (h : Hw) (f : Fld) (n : Nat) : (h.addWrap f n).datA = h.datA := rfl
@[simp] theorem Hw.addWrap_datB (h : Hw) (f : Fld) (n : Nat) : (h.addWrap f n).datB = h.datB := rfl
@[simp] theorem Hw.addWrap_trv (h : Hw) (f : Fld) (n : Nat) : (h.addWrap f n).trv = h.trv := rfl
@[simp] theorem Hw.addWrap_sys (h : Hw) (f : Fld) (n : Nat) : (h.addWrap f n).sys = h.sys := rfl
@[simp] theorem Hw.addWrap_tile (h : Hw) (f : Fld) (n : Nat) (u : Nat) : (h.addWrap f n).tile u = h.tile u := rfl
@[simp] theorem Hw.addWrap_queue (h : Hw) (f : Fld) (n : Nat) (u w : Nat) : (h.addWrap f n).queue u w = h.queue u w := rfl
@[simp] theorem Hw.addWrap_part (h : Hw) (f : Fld) (n : Nat) (u : Nat) : (h.addWrap f n).part u = h.part u := rfl
@[simp] theorem Hw.addWrap_cmd (h : Hw) (f : Fld) (n : Nat) (u w x : Nat) : (h.addWrap f n).cmd? u w x = h.cmd? u w x := rfl

@[simp] theorem Hw.modQueue_regs (h : Hw) (p q : Nat) (f : Queue → Queue) : (h.modQueue p q f).regs = h.regs := rfl
@[simp] theorem Hw.modQueue_freeIx (h : Hw) (p q : Nat) (f : Queue → Queue) : (h.modQueue p q f).freeIx = h.freeIx := rfl
@[simp] theorem Hw.modQueue_rndIx (h : Hw) (p q : Nat) (f : Queue → Queue) : (h.modQueue p q f).rndIx = h.rndIx := rfl
@[simp] theorem Hw.modQueue_mem (h : Hw) (p q : Nat) (f : Queue → Queue) : (h.modQueue p q f).mem = h.mem := rfl
@[simp] theorem Hw.modQueue_cmds (h : Hw) (p q : Nat) (f : Queue → Queue) : (h.modQueue p q f).cmds = h.cmds := rfl
@[simp] theorem Hw.modQueue_fetched (h : Hw) (p q : Nat) (f : Queue → Queue) : (h.modQueue p q f).fetched = h.fetched := rfl
@[simp] theorem Hw.modQueue_mram (h : Hw) (p q : Nat) (f : Queue → Queue) : (h.modQueue p q f).mram = h.mram := rfl
@[simp] theorem Hw.modQueue_sobs (h : Hw) (p q : Nat) (f : Queue → Queue) : (h.modQueue p q f).sobs = h.sobs := rfl
@[simp] theorem Hw.modQueue_watches (h : Hw) (p q : Nat) (f : Queue → Queue) : (h.modQueue p q f).watches = h.watches := rfl
@[simp] theorem Hw.modQueue_evt (h : Hw) (p q : Nat) (f : Queue → Queue) : (h.modQueue p q f).evt = h.evt := rfl
@[simp] theorem Hw.modQueue_stn (h : Hw) (p q : Nat) (f : Queue → Queue) : (h.modQueue p q f).stn = h.stn := rfl
@[simp] theorem Hw.modQueue_vec (h : Hw) (p q : Nat) (f : Queue → Queue) : (h.modQueue p q f).vec = h.vec := rfl
@[simp] theorem Hw.modQueue_tiles (h : Hw) (p q : Nat) (f : Queue → Queue) : (h.modQueue p q f).tiles = h.tiles := rfl
@[simp] theorem Hw.modQueue_fab (h : Hw) (p q : Nat) (f : Queue → Queue) : (h.modQueue p q f).fab = h.fab := rfl
@[simp] theorem Hw.modQueue_models (h : Hw) (p q : Nat) (f : Queue → Queue) : (h.modQueue p q f).models = h.models := rfl
@[simp] theorem Hw.modQueue_jobs (h : Hw) (p q : Nat) (f : Queue → Queue) : (h.modQueue p q f).jobs = h.jobs := rfl
@[simp] theorem Hw.modQueue_dup (h : Hw) (p q : Nat) (f : Queue → Queue) : (h.modQueue p q f).dup = h.dup := rfl
@[simp] theorem Hw.modQueue_kv (h : Hw) (p q : Nat) (f : Queue → Queue) : (h.modQueue p q f).kv = h.kv := rfl
@[simp] theorem Hw.modQueue_cfg (h : Hw) (p q : Nat) (f : Queue → Queue) : (h.modQueue p q f).cfg = h.cfg := rfl
@[simp] theorem Hw.modQueue_msix (h : Hw) (p q : Nat) (f : Queue → Queue) : (h.modQueue p q f).msix = h.msix := rfl
@[simp] theorem Hw.modQueue_gfiles (h : Hw) (p q : Nat) (f : Queue → Queue) : (h.modQueue p q f).gfiles = h.gfiles := rfl
@[simp] theorem Hw.modQueue_outs (h : Hw) (p q : Nat) (f : Queue → Queue) : (h.modQueue p q f).outs = h.outs := rfl
@[simp] theorem Hw.modQueue_health (h : Hw) (p q : Nat) (f : Queue → Queue) : (h.modQueue p q f).health = h.health := rfl
@[simp] theorem Hw.modQueue_scores (h : Hw) (p q : Nat) (f : Queue → Queue) : (h.modQueue p q f).scores = h.scores := rfl
@[simp] theorem Hw.modQueue_watch (h : Hw) (p q : Nat) (f : Queue → Queue) : (h.modQueue p q f).watch = h.watch := rfl
@[simp] theorem Hw.modQueue_advised (h : Hw) (p q : Nat) (f : Queue → Queue) : (h.modQueue p q f).advised = h.advised := rfl
@[simp] theorem Hw.modQueue_healthAt (h : Hw) (p q : Nat) (f : Queue → Queue) : (h.modQueue p q f).healthAt = h.healthAt := rfl
@[simp] theorem Hw.modQueue_coatLog (h : Hw) (p q : Nat) (f : Queue → Queue) : (h.modQueue p q f).coatLog = h.coatLog := rfl
@[simp] theorem Hw.modQueue_freezeReq (h : Hw) (p q : Nat) (f : Queue → Queue) : (h.modQueue p q f).freezeReq = h.freezeReq := rfl
@[simp] theorem Hw.modQueue_seqStopped (h : Hw) (p q : Nat) (f : Queue → Queue) : (h.modQueue p q f).seqStopped = h.seqStopped := rfl
@[simp] theorem Hw.modQueue_detected (h : Hw) (p q : Nat) (f : Queue → Queue) : (h.modQueue p q f).detected = h.detected := rfl
@[simp] theorem Hw.modQueue_dfin (h : Hw) (p q : Nat) (f : Queue → Queue) : (h.modQueue p q f).dfin = h.dfin := rfl
@[simp] theorem Hw.modQueue_ing (h : Hw) (p q : Nat) (f : Queue → Queue) : (h.modQueue p q f).ing = h.ing := rfl
@[simp] theorem Hw.modQueue_fus (h : Hw) (p q : Nat) (f : Queue → Queue) : (h.modQueue p q f).fus = h.fus := rfl
@[simp] theorem Hw.modQueue_datA (h : Hw) (p q : Nat) (f : Queue → Queue) : (h.modQueue p q f).datA = h.datA := rfl
@[simp] theorem Hw.modQueue_datB (h : Hw) (p q : Nat) (f : Queue → Queue) : (h.modQueue p q f).datB = h.datB := rfl
@[simp] theorem Hw.modQueue_trv (h : Hw) (p q : Nat) (f : Queue → Queue) : (h.modQueue p q f).trv = h.trv := rfl
@[simp] theorem Hw.modQueue_sys (h : Hw) (p q : Nat) (f : Queue → Queue) : (h.modQueue p q f).sys = h.sys := rfl
@[simp] theorem Hw.modQueue_get (h : Hw) (p q : Nat) (f : Queue → Queue) (x : Fld) : (h.modQueue p q f).get x = h.get x := rfl
@[simp] theorem Hw.modQueue_on (h : Hw) (p q : Nat) (f : Queue → Queue) (x : Fld) : (h.modQueue p q f).on x = h.on x := rfl
@[simp] theorem Hw.modQueue_now (h : Hw) (p q : Nat) (f : Queue → Queue) : (h.modQueue p q f).now = h.now := rfl
@[simp] theorem Hw.modQueue_mode (h : Hw) (p q : Nat) (f : Queue → Queue) : (h.modQueue p q f).mode = h.mode := rfl
@[simp] theorem Hw.modQueue_tile (h : Hw) (p q : Nat) (f : Queue → Queue) (u : Nat) : (h.modQueue p q f).tile u = h.tile u := rfl
@[simp] theorem Hw.modQueue_cmd (h : Hw) (p q : Nat) (f : Queue → Queue) (u w x : Nat) : (h.modQueue p q f).cmd? u w x = h.cmd? u w x := rfl

@[simp] theorem Hw.modPart_regs (h : Hw) (p : Nat) (f : Part → Part) : (h.modPart p f).regs = h.regs := rfl
@[simp] theorem Hw.modPart_freeIx (h : Hw) (p : Nat) (f : Part → Part) : (h.modPart p f).freeIx = h.freeIx := rfl
@[simp] theorem Hw.modPart_rndIx (h : Hw) (p : Nat) (f : Part → Part) : (h.modPart p f).rndIx = h.rndIx := rfl
@[simp] theorem Hw.modPart_mem (h : Hw) (p : Nat) (f : Part → Part) : (h.modPart p f).mem = h.mem := rfl
@[simp] theorem Hw.modPart_cmds (h : Hw) (p : Nat) (f : Part → Part) : (h.modPart p f).cmds = h.cmds := rfl
@[simp] theorem Hw.modPart_fetched (h : Hw) (p : Nat) (f : Part → Part) : (h.modPart p f).fetched = h.fetched := rfl
@[simp] theorem Hw.modPart_mram (h : Hw) (p : Nat) (f : Part → Part) : (h.modPart p f).mram = h.mram := rfl
@[simp] theorem Hw.modPart_sobs (h : Hw) (p : Nat) (f : Part → Part) : (h.modPart p f).sobs = h.sobs := rfl
@[simp] theorem Hw.modPart_watches (h : Hw) (p : Nat) (f : Part → Part) : (h.modPart p f).watches = h.watches := rfl
@[simp] theorem Hw.modPart_evt (h : Hw) (p : Nat) (f : Part → Part) : (h.modPart p f).evt = h.evt := rfl
@[simp] theorem Hw.modPart_stn (h : Hw) (p : Nat) (f : Part → Part) : (h.modPart p f).stn = h.stn := rfl
@[simp] theorem Hw.modPart_vec (h : Hw) (p : Nat) (f : Part → Part) : (h.modPart p f).vec = h.vec := rfl
@[simp] theorem Hw.modPart_tiles (h : Hw) (p : Nat) (f : Part → Part) : (h.modPart p f).tiles = h.tiles := rfl
@[simp] theorem Hw.modPart_fab (h : Hw) (p : Nat) (f : Part → Part) : (h.modPart p f).fab = h.fab := rfl
@[simp] theorem Hw.modPart_models (h : Hw) (p : Nat) (f : Part → Part) : (h.modPart p f).models = h.models := rfl
@[simp] theorem Hw.modPart_jobs (h : Hw) (p : Nat) (f : Part → Part) : (h.modPart p f).jobs = h.jobs := rfl
@[simp] theorem Hw.modPart_dup (h : Hw) (p : Nat) (f : Part → Part) : (h.modPart p f).dup = h.dup := rfl
@[simp] theorem Hw.modPart_kv (h : Hw) (p : Nat) (f : Part → Part) : (h.modPart p f).kv = h.kv := rfl
@[simp] theorem Hw.modPart_cfg (h : Hw) (p : Nat) (f : Part → Part) : (h.modPart p f).cfg = h.cfg := rfl
@[simp] theorem Hw.modPart_msix (h : Hw) (p : Nat) (f : Part → Part) : (h.modPart p f).msix = h.msix := rfl
@[simp] theorem Hw.modPart_gfiles (h : Hw) (p : Nat) (f : Part → Part) : (h.modPart p f).gfiles = h.gfiles := rfl
@[simp] theorem Hw.modPart_outs (h : Hw) (p : Nat) (f : Part → Part) : (h.modPart p f).outs = h.outs := rfl
@[simp] theorem Hw.modPart_health (h : Hw) (p : Nat) (f : Part → Part) : (h.modPart p f).health = h.health := rfl
@[simp] theorem Hw.modPart_scores (h : Hw) (p : Nat) (f : Part → Part) : (h.modPart p f).scores = h.scores := rfl
@[simp] theorem Hw.modPart_watch (h : Hw) (p : Nat) (f : Part → Part) : (h.modPart p f).watch = h.watch := rfl
@[simp] theorem Hw.modPart_advised (h : Hw) (p : Nat) (f : Part → Part) : (h.modPart p f).advised = h.advised := rfl
@[simp] theorem Hw.modPart_healthAt (h : Hw) (p : Nat) (f : Part → Part) : (h.modPart p f).healthAt = h.healthAt := rfl
@[simp] theorem Hw.modPart_coatLog (h : Hw) (p : Nat) (f : Part → Part) : (h.modPart p f).coatLog = h.coatLog := rfl
@[simp] theorem Hw.modPart_freezeReq (h : Hw) (p : Nat) (f : Part → Part) : (h.modPart p f).freezeReq = h.freezeReq := rfl
@[simp] theorem Hw.modPart_seqStopped (h : Hw) (p : Nat) (f : Part → Part) : (h.modPart p f).seqStopped = h.seqStopped := rfl
@[simp] theorem Hw.modPart_detected (h : Hw) (p : Nat) (f : Part → Part) : (h.modPart p f).detected = h.detected := rfl
@[simp] theorem Hw.modPart_dfin (h : Hw) (p : Nat) (f : Part → Part) : (h.modPart p f).dfin = h.dfin := rfl
@[simp] theorem Hw.modPart_ing (h : Hw) (p : Nat) (f : Part → Part) : (h.modPart p f).ing = h.ing := rfl
@[simp] theorem Hw.modPart_fus (h : Hw) (p : Nat) (f : Part → Part) : (h.modPart p f).fus = h.fus := rfl
@[simp] theorem Hw.modPart_datA (h : Hw) (p : Nat) (f : Part → Part) : (h.modPart p f).datA = h.datA := rfl
@[simp] theorem Hw.modPart_datB (h : Hw) (p : Nat) (f : Part → Part) : (h.modPart p f).datB = h.datB := rfl
@[simp] theorem Hw.modPart_trv (h : Hw) (p : Nat) (f : Part → Part) : (h.modPart p f).trv = h.trv := rfl
@[simp] theorem Hw.modPart_sys (h : Hw) (p : Nat) (f : Part → Part) : (h.modPart p f).sys = h.sys := rfl
@[simp] theorem Hw.modPart_get (h : Hw) (p : Nat) (f : Part → Part) (x : Fld) : (h.modPart p f).get x = h.get x := rfl
@[simp] theorem Hw.modPart_on (h : Hw) (p : Nat) (f : Part → Part) (x : Fld) : (h.modPart p f).on x = h.on x := rfl
@[simp] theorem Hw.modPart_now (h : Hw) (p : Nat) (f : Part → Part) : (h.modPart p f).now = h.now := rfl
@[simp] theorem Hw.modPart_mode (h : Hw) (p : Nat) (f : Part → Part) : (h.modPart p f).mode = h.mode := rfl
@[simp] theorem Hw.modPart_tile (h : Hw) (p : Nat) (f : Part → Part) (u : Nat) : (h.modPart p f).tile u = h.tile u := rfl
@[simp] theorem Hw.modPart_cmd (h : Hw) (p : Nat) (f : Part → Part) (u w x : Nat) : (h.modPart p f).cmd? u w x = h.cmd? u w x := rfl

@[simp] theorem Hw.modCmd_regs (h : Hw) (p q n : Nat) (f : Cmd → Cmd) : (h.modCmd p q n f).regs = h.regs := rfl
@[simp] theorem Hw.modCmd_freeIx (h : Hw) (p q n : Nat) (f : Cmd → Cmd) : (h.modCmd p q n f).freeIx = h.freeIx := rfl
@[simp] theorem Hw.modCmd_rndIx (h : Hw) (p q n : Nat) (f : Cmd → Cmd) : (h.modCmd p q n f).rndIx = h.rndIx := rfl
@[simp] theorem Hw.modCmd_mem (h : Hw) (p q n : Nat) (f : Cmd → Cmd) : (h.modCmd p q n f).mem = h.mem := rfl
@[simp] theorem Hw.modCmd_parts (h : Hw) (p q n : Nat) (f : Cmd → Cmd) : (h.modCmd p q n f).parts = h.parts := rfl
@[simp] theorem Hw.modCmd_fetched (h : Hw) (p q n : Nat) (f : Cmd → Cmd) : (h.modCmd p q n f).fetched = h.fetched := rfl
@[simp] theorem Hw.modCmd_mram (h : Hw) (p q n : Nat) (f : Cmd → Cmd) : (h.modCmd p q n f).mram = h.mram := rfl
@[simp] theorem Hw.modCmd_sobs (h : Hw) (p q n : Nat) (f : Cmd → Cmd) : (h.modCmd p q n f).sobs = h.sobs := rfl
@[simp] theorem Hw.modCmd_watches (h : Hw) (p q n : Nat) (f : Cmd → Cmd) : (h.modCmd p q n f).watches = h.watches := rfl
@[simp] theorem Hw.modCmd_evt (h : Hw) (p q n : Nat) (f : Cmd → Cmd) : (h.modCmd p q n f).evt = h.evt := rfl
@[simp] theorem Hw.modCmd_stn (h : Hw) (p q n : Nat) (f : Cmd → Cmd) : (h.modCmd p q n f).stn = h.stn := rfl
@[simp] theorem Hw.modCmd_vec (h : Hw) (p q n : Nat) (f : Cmd → Cmd) : (h.modCmd p q n f).vec = h.vec := rfl
@[simp] theorem Hw.modCmd_tiles (h : Hw) (p q n : Nat) (f : Cmd → Cmd) : (h.modCmd p q n f).tiles = h.tiles := rfl
@[simp] theorem Hw.modCmd_fab (h : Hw) (p q n : Nat) (f : Cmd → Cmd) : (h.modCmd p q n f).fab = h.fab := rfl
@[simp] theorem Hw.modCmd_models (h : Hw) (p q n : Nat) (f : Cmd → Cmd) : (h.modCmd p q n f).models = h.models := rfl
@[simp] theorem Hw.modCmd_jobs (h : Hw) (p q n : Nat) (f : Cmd → Cmd) : (h.modCmd p q n f).jobs = h.jobs := rfl
@[simp] theorem Hw.modCmd_dup (h : Hw) (p q n : Nat) (f : Cmd → Cmd) : (h.modCmd p q n f).dup = h.dup := rfl
@[simp] theorem Hw.modCmd_kv (h : Hw) (p q n : Nat) (f : Cmd → Cmd) : (h.modCmd p q n f).kv = h.kv := rfl
@[simp] theorem Hw.modCmd_cfg (h : Hw) (p q n : Nat) (f : Cmd → Cmd) : (h.modCmd p q n f).cfg = h.cfg := rfl
@[simp] theorem Hw.modCmd_msix (h : Hw) (p q n : Nat) (f : Cmd → Cmd) : (h.modCmd p q n f).msix = h.msix := rfl
@[simp] theorem Hw.modCmd_gfiles (h : Hw) (p q n : Nat) (f : Cmd → Cmd) : (h.modCmd p q n f).gfiles = h.gfiles := rfl
@[simp] theorem Hw.modCmd_outs (h : Hw) (p q n : Nat) (f : Cmd → Cmd) : (h.modCmd p q n f).outs = h.outs := rfl
@[simp] theorem Hw.modCmd_health (h : Hw) (p q n : Nat) (f : Cmd → Cmd) : (h.modCmd p q n f).health = h.health := rfl
@[simp] theorem Hw.modCmd_scores (h : Hw) (p q n : Nat) (f : Cmd → Cmd) : (h.modCmd p q n f).scores = h.scores := rfl
@[simp] theorem Hw.modCmd_watch (h : Hw) (p q n : Nat) (f : Cmd → Cmd) : (h.modCmd p q n f).watch = h.watch := rfl
@[simp] theorem Hw.modCmd_advised (h : Hw) (p q n : Nat) (f : Cmd → Cmd) : (h.modCmd p q n f).advised = h.advised := rfl
@[simp] theorem Hw.modCmd_healthAt (h : Hw) (p q n : Nat) (f : Cmd → Cmd) : (h.modCmd p q n f).healthAt = h.healthAt := rfl
@[simp] theorem Hw.modCmd_coatLog (h : Hw) (p q n : Nat) (f : Cmd → Cmd) : (h.modCmd p q n f).coatLog = h.coatLog := rfl
@[simp] theorem Hw.modCmd_freezeReq (h : Hw) (p q n : Nat) (f : Cmd → Cmd) : (h.modCmd p q n f).freezeReq = h.freezeReq := rfl
@[simp] theorem Hw.modCmd_seqStopped (h : Hw) (p q n : Nat) (f : Cmd → Cmd) : (h.modCmd p q n f).seqStopped = h.seqStopped := rfl
@[simp] theorem Hw.modCmd_detected (h : Hw) (p q n : Nat) (f : Cmd → Cmd) : (h.modCmd p q n f).detected = h.detected := rfl
@[simp] theorem Hw.modCmd_dfin (h : Hw) (p q n : Nat) (f : Cmd → Cmd) : (h.modCmd p q n f).dfin = h.dfin := rfl
@[simp] theorem Hw.modCmd_ing (h : Hw) (p q n : Nat) (f : Cmd → Cmd) : (h.modCmd p q n f).ing = h.ing := rfl
@[simp] theorem Hw.modCmd_fus (h : Hw) (p q n : Nat) (f : Cmd → Cmd) : (h.modCmd p q n f).fus = h.fus := rfl
@[simp] theorem Hw.modCmd_datA (h : Hw) (p q n : Nat) (f : Cmd → Cmd) : (h.modCmd p q n f).datA = h.datA := rfl
@[simp] theorem Hw.modCmd_datB (h : Hw) (p q n : Nat) (f : Cmd → Cmd) : (h.modCmd p q n f).datB = h.datB := rfl
@[simp] theorem Hw.modCmd_trv (h : Hw) (p q n : Nat) (f : Cmd → Cmd) : (h.modCmd p q n f).trv = h.trv := rfl
@[simp] theorem Hw.modCmd_sys (h : Hw) (p q n : Nat) (f : Cmd → Cmd) : (h.modCmd p q n f).sys = h.sys := rfl
@[simp] theorem Hw.modCmd_get (h : Hw) (p q n : Nat) (f : Cmd → Cmd) (x : Fld) : (h.modCmd p q n f).get x = h.get x := rfl
@[simp] theorem Hw.modCmd_on (h : Hw) (p q n : Nat) (f : Cmd → Cmd) (x : Fld) : (h.modCmd p q n f).on x = h.on x := rfl
@[simp] theorem Hw.modCmd_now (h : Hw) (p q n : Nat) (f : Cmd → Cmd) : (h.modCmd p q n f).now = h.now := rfl
@[simp] theorem Hw.modCmd_mode (h : Hw) (p q n : Nat) (f : Cmd → Cmd) : (h.modCmd p q n f).mode = h.mode := rfl
@[simp] theorem Hw.modCmd_tile (h : Hw) (p q n : Nat) (f : Cmd → Cmd) (u : Nat) : (h.modCmd p q n f).tile u = h.tile u := rfl
@[simp] theorem Hw.modCmd_queue (h : Hw) (p q n : Nat) (f : Cmd → Cmd) (u w : Nat) : (h.modCmd p q n f).queue u w = h.queue u w := rfl
@[simp] theorem Hw.modCmd_part (h : Hw) (p q n : Nat) (f : Cmd → Cmd) (u : Nat) : (h.modCmd p q n f).part u = h.part u := rfl

@[simp] theorem Hw.modDram_regs (h : Hw) (f : Dram → Dram) : (h.modDram f).regs = h.regs := rfl
@[simp] theorem Hw.modDram_freeIx (h : Hw) (f : Dram → Dram) : (h.modDram f).freeIx = h.freeIx := rfl
@[simp] theorem Hw.modDram_rndIx (h : Hw) (f : Dram → Dram) : (h.modDram f).rndIx = h.rndIx := rfl
@[simp] theorem Hw.modDram_mem (h : Hw) (f : Dram → Dram) : (h.modDram f).mem = h.mem := rfl
@[simp] theorem Hw.modDram_parts (h : Hw) (f : Dram → Dram) : (h.modDram f).parts = h.parts := rfl
@[simp] theorem Hw.modDram_cmds (h : Hw) (f : Dram → Dram) : (h.modDram f).cmds = h.cmds := rfl
@[simp] theorem Hw.modDram_fetched (h : Hw) (f : Dram → Dram) : (h.modDram f).fetched = h.fetched := rfl
@[simp] theorem Hw.modDram_mram (h : Hw) (f : Dram → Dram) : (h.modDram f).mram = h.mram := rfl
@[simp] theorem Hw.modDram_sobs (h : Hw) (f : Dram → Dram) : (h.modDram f).sobs = h.sobs := rfl
@[simp] theorem Hw.modDram_watches (h : Hw) (f : Dram → Dram) : (h.modDram f).watches = h.watches := rfl
@[simp] theorem Hw.modDram_evt (h : Hw) (f : Dram → Dram) : (h.modDram f).evt = h.evt := rfl
@[simp] theorem Hw.modDram_stn (h : Hw) (f : Dram → Dram) : (h.modDram f).stn = h.stn := rfl
@[simp] theorem Hw.modDram_vec (h : Hw) (f : Dram → Dram) : (h.modDram f).vec = h.vec := rfl
@[simp] theorem Hw.modDram_tiles (h : Hw) (f : Dram → Dram) : (h.modDram f).tiles = h.tiles := rfl
@[simp] theorem Hw.modDram_fab (h : Hw) (f : Dram → Dram) : (h.modDram f).fab = h.fab := rfl
@[simp] theorem Hw.modDram_models (h : Hw) (f : Dram → Dram) : (h.modDram f).models = h.models := rfl
@[simp] theorem Hw.modDram_jobs (h : Hw) (f : Dram → Dram) : (h.modDram f).jobs = h.jobs := rfl
@[simp] theorem Hw.modDram_dup (h : Hw) (f : Dram → Dram) : (h.modDram f).dup = h.dup := rfl
@[simp] theorem Hw.modDram_kv (h : Hw) (f : Dram → Dram) : (h.modDram f).kv = h.kv := rfl
@[simp] theorem Hw.modDram_cfg (h : Hw) (f : Dram → Dram) : (h.modDram f).cfg = h.cfg := rfl
@[simp] theorem Hw.modDram_msix (h : Hw) (f : Dram → Dram) : (h.modDram f).msix = h.msix := rfl
@[simp] theorem Hw.modDram_gfiles (h : Hw) (f : Dram → Dram) : (h.modDram f).gfiles = h.gfiles := rfl
@[simp] theorem Hw.modDram_outs (h : Hw) (f : Dram → Dram) : (h.modDram f).outs = h.outs := rfl
@[simp] theorem Hw.modDram_health (h : Hw) (f : Dram → Dram) : (h.modDram f).health = h.health := rfl
@[simp] theorem Hw.modDram_scores (h : Hw) (f : Dram → Dram) : (h.modDram f).scores = h.scores := rfl
@[simp] theorem Hw.modDram_watch (h : Hw) (f : Dram → Dram) : (h.modDram f).watch = h.watch := rfl
@[simp] theorem Hw.modDram_advised (h : Hw) (f : Dram → Dram) : (h.modDram f).advised = h.advised := rfl
@[simp] theorem Hw.modDram_healthAt (h : Hw) (f : Dram → Dram) : (h.modDram f).healthAt = h.healthAt := rfl
@[simp] theorem Hw.modDram_coatLog (h : Hw) (f : Dram → Dram) : (h.modDram f).coatLog = h.coatLog := rfl
@[simp] theorem Hw.modDram_freezeReq (h : Hw) (f : Dram → Dram) : (h.modDram f).freezeReq = h.freezeReq := rfl
@[simp] theorem Hw.modDram_seqStopped (h : Hw) (f : Dram → Dram) : (h.modDram f).seqStopped = h.seqStopped := rfl
@[simp] theorem Hw.modDram_detected (h : Hw) (f : Dram → Dram) : (h.modDram f).detected = h.detected := rfl
@[simp] theorem Hw.modDram_dfin (h : Hw) (f : Dram → Dram) : (h.modDram f).dfin = h.dfin := rfl
@[simp] theorem Hw.modDram_ing (h : Hw) (f : Dram → Dram) : (h.modDram f).ing = h.ing := rfl
@[simp] theorem Hw.modDram_fus (h : Hw) (f : Dram → Dram) : (h.modDram f).fus = h.fus := rfl
@[simp] theorem Hw.modDram_datA (h : Hw) (f : Dram → Dram) : (h.modDram f).datA = h.datA := rfl
@[simp] theorem Hw.modDram_datB (h : Hw) (f : Dram → Dram) : (h.modDram f).datB = h.datB := rfl
@[simp] theorem Hw.modDram_trv (h : Hw) (f : Dram → Dram) : (h.modDram f).trv = h.trv := rfl
@[simp] theorem Hw.modDram_get (h : Hw) (f : Dram → Dram) (x : Fld) : (h.modDram f).get x = h.get x := rfl
@[simp] theorem Hw.modDram_on (h : Hw) (f : Dram → Dram) (x : Fld) : (h.modDram f).on x = h.on x := rfl
@[simp] theorem Hw.modDram_now (h : Hw) (f : Dram → Dram) : (h.modDram f).now = h.now := rfl
@[simp] theorem Hw.modDram_mode (h : Hw) (f : Dram → Dram) : (h.modDram f).mode = h.mode := rfl
@[simp] theorem Hw.modDram_tile (h : Hw) (f : Dram → Dram) (u : Nat) : (h.modDram f).tile u = h.tile u := rfl
@[simp] theorem Hw.modDram_queue (h : Hw) (f : Dram → Dram) (u w : Nat) : (h.modDram f).queue u w = h.queue u w := rfl
@[simp] theorem Hw.modDram_part (h : Hw) (f : Dram → Dram) (u : Nat) : (h.modDram f).part u = h.part u := rfl
@[simp] theorem Hw.modDram_cmd (h : Hw) (f : Dram → Dram) (u w x : Nat) : (h.modDram f).cmd? u w x = h.cmd? u w x := rfl

@[simp] theorem Hw.modTile_regs (h : Hw) (t : Nat) (f : Tile → Tile) : (h.modTile t f).regs = h.regs := rfl
@[simp] theorem Hw.modTile_freeIx (h : Hw) (t : Nat) (f : Tile → Tile) : (h.modTile t f).freeIx = h.freeIx := rfl
@[simp] theorem Hw.modTile_rndIx (h : Hw) (t : Nat) (f : Tile → Tile) : (h.modTile t f).rndIx = h.rndIx := rfl
@[simp] theorem Hw.modTile_mem (h : Hw) (t : Nat) (f : Tile → Tile) : (h.modTile t f).mem = h.mem := rfl
@[simp] theorem Hw.modTile_parts (h : Hw) (t : Nat) (f : Tile → Tile) : (h.modTile t f).parts = h.parts := rfl
@[simp] theorem Hw.modTile_cmds (h : Hw) (t : Nat) (f : Tile → Tile) : (h.modTile t f).cmds = h.cmds := rfl
@[simp] theorem Hw.modTile_fetched (h : Hw) (t : Nat) (f : Tile → Tile) : (h.modTile t f).fetched = h.fetched := rfl
@[simp] theorem Hw.modTile_mram (h : Hw) (t : Nat) (f : Tile → Tile) : (h.modTile t f).mram = h.mram := rfl
@[simp] theorem Hw.modTile_sobs (h : Hw) (t : Nat) (f : Tile → Tile) : (h.modTile t f).sobs = h.sobs := rfl
@[simp] theorem Hw.modTile_watches (h : Hw) (t : Nat) (f : Tile → Tile) : (h.modTile t f).watches = h.watches := rfl
@[simp] theorem Hw.modTile_evt (h : Hw) (t : Nat) (f : Tile → Tile) : (h.modTile t f).evt = h.evt := rfl
@[simp] theorem Hw.modTile_stn (h : Hw) (t : Nat) (f : Tile → Tile) : (h.modTile t f).stn = h.stn := rfl
@[simp] theorem Hw.modTile_vec (h : Hw) (t : Nat) (f : Tile → Tile) : (h.modTile t f).vec = h.vec := rfl
@[simp] theorem Hw.modTile_fab (h : Hw) (t : Nat) (f : Tile → Tile) : (h.modTile t f).fab = h.fab := rfl
@[simp] theorem Hw.modTile_models (h : Hw) (t : Nat) (f : Tile → Tile) : (h.modTile t f).models = h.models := rfl
@[simp] theorem Hw.modTile_jobs (h : Hw) (t : Nat) (f : Tile → Tile) : (h.modTile t f).jobs = h.jobs := rfl
@[simp] theorem Hw.modTile_dup (h : Hw) (t : Nat) (f : Tile → Tile) : (h.modTile t f).dup = h.dup := rfl
@[simp] theorem Hw.modTile_kv (h : Hw) (t : Nat) (f : Tile → Tile) : (h.modTile t f).kv = h.kv := rfl
@[simp] theorem Hw.modTile_cfg (h : Hw) (t : Nat) (f : Tile → Tile) : (h.modTile t f).cfg = h.cfg := rfl
@[simp] theorem Hw.modTile_msix (h : Hw) (t : Nat) (f : Tile → Tile) : (h.modTile t f).msix = h.msix := rfl
@[simp] theorem Hw.modTile_gfiles (h : Hw) (t : Nat) (f : Tile → Tile) : (h.modTile t f).gfiles = h.gfiles := rfl
@[simp] theorem Hw.modTile_outs (h : Hw) (t : Nat) (f : Tile → Tile) : (h.modTile t f).outs = h.outs := rfl
@[simp] theorem Hw.modTile_health (h : Hw) (t : Nat) (f : Tile → Tile) : (h.modTile t f).health = h.health := rfl
@[simp] theorem Hw.modTile_scores (h : Hw) (t : Nat) (f : Tile → Tile) : (h.modTile t f).scores = h.scores := rfl
@[simp] theorem Hw.modTile_watch (h : Hw) (t : Nat) (f : Tile → Tile) : (h.modTile t f).watch = h.watch := rfl
@[simp] theorem Hw.modTile_advised (h : Hw) (t : Nat) (f : Tile → Tile) : (h.modTile t f).advised = h.advised := rfl
@[simp] theorem Hw.modTile_healthAt (h : Hw) (t : Nat) (f : Tile → Tile) : (h.modTile t f).healthAt = h.healthAt := rfl
@[simp] theorem Hw.modTile_coatLog (h : Hw) (t : Nat) (f : Tile → Tile) : (h.modTile t f).coatLog = h.coatLog := rfl
@[simp] theorem Hw.modTile_freezeReq (h : Hw) (t : Nat) (f : Tile → Tile) : (h.modTile t f).freezeReq = h.freezeReq := rfl
@[simp] theorem Hw.modTile_seqStopped (h : Hw) (t : Nat) (f : Tile → Tile) : (h.modTile t f).seqStopped = h.seqStopped := rfl
@[simp] theorem Hw.modTile_detected (h : Hw) (t : Nat) (f : Tile → Tile) : (h.modTile t f).detected = h.detected := rfl
@[simp] theorem Hw.modTile_dfin (h : Hw) (t : Nat) (f : Tile → Tile) : (h.modTile t f).dfin = h.dfin := rfl
@[simp] theorem Hw.modTile_ing (h : Hw) (t : Nat) (f : Tile → Tile) : (h.modTile t f).ing = h.ing := rfl
@[simp] theorem Hw.modTile_fus (h : Hw) (t : Nat) (f : Tile → Tile) : (h.modTile t f).fus = h.fus := rfl
@[simp] theorem Hw.modTile_datA (h : Hw) (t : Nat) (f : Tile → Tile) : (h.modTile t f).datA = h.datA := rfl
@[simp] theorem Hw.modTile_datB (h : Hw) (t : Nat) (f : Tile → Tile) : (h.modTile t f).datB = h.datB := rfl
@[simp] theorem Hw.modTile_trv (h : Hw) (t : Nat) (f : Tile → Tile) : (h.modTile t f).trv = h.trv := rfl
@[simp] theorem Hw.modTile_sys (h : Hw) (t : Nat) (f : Tile → Tile) : (h.modTile t f).sys = h.sys := rfl
@[simp] theorem Hw.modTile_get (h : Hw) (t : Nat) (f : Tile → Tile) (x : Fld) : (h.modTile t f).get x = h.get x := rfl
@[simp] theorem Hw.modTile_on (h : Hw) (t : Nat) (f : Tile → Tile) (x : Fld) : (h.modTile t f).on x = h.on x := rfl
@[simp] theorem Hw.modTile_now (h : Hw) (t : Nat) (f : Tile → Tile) : (h.modTile t f).now = h.now := rfl
@[simp] theorem Hw.modTile_mode (h : Hw) (t : Nat) (f : Tile → Tile) : (h.modTile t f).mode = h.mode := rfl
@[simp] theorem Hw.modTile_queue (h : Hw) (t : Nat) (f : Tile → Tile) (u w : Nat) : (h.modTile t f).queue u w = h.queue u w := rfl
@[simp] theorem Hw.modTile_part (h : Hw) (t : Nat) (f : Tile → Tile) (u : Nat) : (h.modTile t f).part u = h.part u := rfl
@[simp] theorem Hw.modTile_cmd (h : Hw) (t : Nat) (f : Tile → Tile) (u w x : Nat) : (h.modTile t f).cmd? u w x = h.cmd? u w x := rfl

@[simp] theorem Hw.modSeq_regs (h : Hw) (t : Nat) (f : Seq → Seq) : (h.modSeq t f).regs = h.regs := rfl
@[simp] theorem Hw.modSeq_freeIx (h : Hw) (t : Nat) (f : Seq → Seq) : (h.modSeq t f).freeIx = h.freeIx := rfl
@[simp] theorem Hw.modSeq_rndIx (h : Hw) (t : Nat) (f : Seq → Seq) : (h.modSeq t f).rndIx = h.rndIx := rfl
@[simp] theorem Hw.modSeq_mem (h : Hw) (t : Nat) (f : Seq → Seq) : (h.modSeq t f).mem = h.mem := rfl
@[simp] theorem Hw.modSeq_parts (h : Hw) (t : Nat) (f : Seq → Seq) : (h.modSeq t f).parts = h.parts := rfl
@[simp] theorem Hw.modSeq_cmds (h : Hw) (t : Nat) (f : Seq → Seq) : (h.modSeq t f).cmds = h.cmds := rfl
@[simp] theorem Hw.modSeq_fetched (h : Hw) (t : Nat) (f : Seq → Seq) : (h.modSeq t f).fetched = h.fetched := rfl
@[simp] theorem Hw.modSeq_mram (h : Hw) (t : Nat) (f : Seq → Seq) : (h.modSeq t f).mram = h.mram := rfl
@[simp] theorem Hw.modSeq_sobs (h : Hw) (t : Nat) (f : Seq → Seq) : (h.modSeq t f).sobs = h.sobs := rfl
@[simp] theorem Hw.modSeq_watches (h : Hw) (t : Nat) (f : Seq → Seq) : (h.modSeq t f).watches = h.watches := rfl
@[simp] theorem Hw.modSeq_evt (h : Hw) (t : Nat) (f : Seq → Seq) : (h.modSeq t f).evt = h.evt := rfl
@[simp] theorem Hw.modSeq_stn (h : Hw) (t : Nat) (f : Seq → Seq) : (h.modSeq t f).stn = h.stn := rfl
@[simp] theorem Hw.modSeq_vec (h : Hw) (t : Nat) (f : Seq → Seq) : (h.modSeq t f).vec = h.vec := rfl
@[simp] theorem Hw.modSeq_fab (h : Hw) (t : Nat) (f : Seq → Seq) : (h.modSeq t f).fab = h.fab := rfl
@[simp] theorem Hw.modSeq_models (h : Hw) (t : Nat) (f : Seq → Seq) : (h.modSeq t f).models = h.models := rfl
@[simp] theorem Hw.modSeq_jobs (h : Hw) (t : Nat) (f : Seq → Seq) : (h.modSeq t f).jobs = h.jobs := rfl
@[simp] theorem Hw.modSeq_dup (h : Hw) (t : Nat) (f : Seq → Seq) : (h.modSeq t f).dup = h.dup := rfl
@[simp] theorem Hw.modSeq_kv (h : Hw) (t : Nat) (f : Seq → Seq) : (h.modSeq t f).kv = h.kv := rfl
@[simp] theorem Hw.modSeq_cfg (h : Hw) (t : Nat) (f : Seq → Seq) : (h.modSeq t f).cfg = h.cfg := rfl
@[simp] theorem Hw.modSeq_msix (h : Hw) (t : Nat) (f : Seq → Seq) : (h.modSeq t f).msix = h.msix := rfl
@[simp] theorem Hw.modSeq_gfiles (h : Hw) (t : Nat) (f : Seq → Seq) : (h.modSeq t f).gfiles = h.gfiles := rfl
@[simp] theorem Hw.modSeq_outs (h : Hw) (t : Nat) (f : Seq → Seq) : (h.modSeq t f).outs = h.outs := rfl
@[simp] theorem Hw.modSeq_health (h : Hw) (t : Nat) (f : Seq → Seq) : (h.modSeq t f).health = h.health := rfl
@[simp] theorem Hw.modSeq_scores (h : Hw) (t : Nat) (f : Seq → Seq) : (h.modSeq t f).scores = h.scores := rfl
@[simp] theorem Hw.modSeq_watch (h : Hw) (t : Nat) (f : Seq → Seq) : (h.modSeq t f).watch = h.watch := rfl
@[simp] theorem Hw.modSeq_advised (h : Hw) (t : Nat) (f : Seq → Seq) : (h.modSeq t f).advised = h.advised := rfl
@[simp] theorem Hw.modSeq_healthAt (h : Hw) (t : Nat) (f : Seq → Seq) : (h.modSeq t f).healthAt = h.healthAt := rfl
@[simp] theorem Hw.modSeq_coatLog (h : Hw) (t : Nat) (f : Seq → Seq) : (h.modSeq t f).coatLog = h.coatLog := rfl
@[simp] theorem Hw.modSeq_freezeReq (h : Hw) (t : Nat) (f : Seq → Seq) : (h.modSeq t f).freezeReq = h.freezeReq := rfl
@[simp] theorem Hw.modSeq_seqStopped (h : Hw) (t : Nat) (f : Seq → Seq) : (h.modSeq t f).seqStopped = h.seqStopped := rfl
@[simp] theorem Hw.modSeq_detected (h : Hw) (t : Nat) (f : Seq → Seq) : (h.modSeq t f).detected = h.detected := rfl
@[simp] theorem Hw.modSeq_dfin (h : Hw) (t : Nat) (f : Seq → Seq) : (h.modSeq t f).dfin = h.dfin := rfl
@[simp] theorem Hw.modSeq_ing (h : Hw) (t : Nat) (f : Seq → Seq) : (h.modSeq t f).ing = h.ing := rfl
@[simp] theorem Hw.modSeq_fus (h : Hw) (t : Nat) (f : Seq → Seq) : (h.modSeq t f).fus = h.fus := rfl
@[simp] theorem Hw.modSeq_datA (h : Hw) (t : Nat) (f : Seq → Seq) : (h.modSeq t f).datA = h.datA := rfl
@[simp] theorem Hw.modSeq_datB (h : Hw) (t : Nat) (f : Seq → Seq) : (h.modSeq t f).datB = h.datB := rfl
@[simp] theorem Hw.modSeq_trv (h : Hw) (t : Nat) (f : Seq → Seq) : (h.modSeq t f).trv = h.trv := rfl
@[simp] theorem Hw.modSeq_sys (h : Hw) (t : Nat) (f : Seq → Seq) : (h.modSeq t f).sys = h.sys := rfl
@[simp] theorem Hw.modSeq_get (h : Hw) (t : Nat) (f : Seq → Seq) (x : Fld) : (h.modSeq t f).get x = h.get x := rfl
@[simp] theorem Hw.modSeq_on (h : Hw) (t : Nat) (f : Seq → Seq) (x : Fld) : (h.modSeq t f).on x = h.on x := rfl
@[simp] theorem Hw.modSeq_now (h : Hw) (t : Nat) (f : Seq → Seq) : (h.modSeq t f).now = h.now := rfl
@[simp] theorem Hw.modSeq_mode (h : Hw) (t : Nat) (f : Seq → Seq) : (h.modSeq t f).mode = h.mode := rfl
@[simp] theorem Hw.modSeq_queue (h : Hw) (t : Nat) (f : Seq → Seq) (u w : Nat) : (h.modSeq t f).queue u w = h.queue u w := rfl
@[simp] theorem Hw.modSeq_part (h : Hw) (t : Nat) (f : Seq → Seq) (u : Nat) : (h.modSeq t f).part u = h.part u := rfl
@[simp] theorem Hw.modSeq_cmd (h : Hw) (t : Nat) (f : Seq → Seq) (u w x : Nat) : (h.modSeq t f).cmd? u w x = h.cmd? u w x := rfl

@[simp] theorem Hw.modSlice_regs (h : Hw) (t : Nat) (f : Slice → Slice) : (h.modSlice t f).regs = h.regs := rfl
@[simp] theorem Hw.modSlice_freeIx (h : Hw) (t : Nat) (f : Slice → Slice) : (h.modSlice t f).freeIx = h.freeIx := rfl
@[simp] theorem Hw.modSlice_rndIx (h : Hw) (t : Nat) (f : Slice → Slice) : (h.modSlice t f).rndIx = h.rndIx := rfl
@[simp] theorem Hw.modSlice_mem (h : Hw) (t : Nat) (f : Slice → Slice) : (h.modSlice t f).mem = h.mem := rfl
@[simp] theorem Hw.modSlice_parts (h : Hw) (t : Nat) (f : Slice → Slice) : (h.modSlice t f).parts = h.parts := rfl
@[simp] theorem Hw.modSlice_cmds (h : Hw) (t : Nat) (f : Slice → Slice) : (h.modSlice t f).cmds = h.cmds := rfl
@[simp] theorem Hw.modSlice_fetched (h : Hw) (t : Nat) (f : Slice → Slice) : (h.modSlice t f).fetched = h.fetched := rfl
@[simp] theorem Hw.modSlice_mram (h : Hw) (t : Nat) (f : Slice → Slice) : (h.modSlice t f).mram = h.mram := rfl
@[simp] theorem Hw.modSlice_sobs (h : Hw) (t : Nat) (f : Slice → Slice) : (h.modSlice t f).sobs = h.sobs := rfl
@[simp] theorem Hw.modSlice_watches (h : Hw) (t : Nat) (f : Slice → Slice) : (h.modSlice t f).watches = h.watches := rfl
@[simp] theorem Hw.modSlice_evt (h : Hw) (t : Nat) (f : Slice → Slice) : (h.modSlice t f).evt = h.evt := rfl
@[simp] theorem Hw.modSlice_stn (h : Hw) (t : Nat) (f : Slice → Slice) : (h.modSlice t f).stn = h.stn := rfl
@[simp] theorem Hw.modSlice_vec (h : Hw) (t : Nat) (f : Slice → Slice) : (h.modSlice t f).vec = h.vec := rfl
@[simp] theorem Hw.modSlice_fab (h : Hw) (t : Nat) (f : Slice → Slice) : (h.modSlice t f).fab = h.fab := rfl
@[simp] theorem Hw.modSlice_models (h : Hw) (t : Nat) (f : Slice → Slice) : (h.modSlice t f).models = h.models := rfl
@[simp] theorem Hw.modSlice_jobs (h : Hw) (t : Nat) (f : Slice → Slice) : (h.modSlice t f).jobs = h.jobs := rfl
@[simp] theorem Hw.modSlice_dup (h : Hw) (t : Nat) (f : Slice → Slice) : (h.modSlice t f).dup = h.dup := rfl
@[simp] theorem Hw.modSlice_kv (h : Hw) (t : Nat) (f : Slice → Slice) : (h.modSlice t f).kv = h.kv := rfl
@[simp] theorem Hw.modSlice_cfg (h : Hw) (t : Nat) (f : Slice → Slice) : (h.modSlice t f).cfg = h.cfg := rfl
@[simp] theorem Hw.modSlice_msix (h : Hw) (t : Nat) (f : Slice → Slice) : (h.modSlice t f).msix = h.msix := rfl
@[simp] theorem Hw.modSlice_gfiles (h : Hw) (t : Nat) (f : Slice → Slice) : (h.modSlice t f).gfiles = h.gfiles := rfl
@[simp] theorem Hw.modSlice_outs (h : Hw) (t : Nat) (f : Slice → Slice) : (h.modSlice t f).outs = h.outs := rfl
@[simp] theorem Hw.modSlice_health (h : Hw) (t : Nat) (f : Slice → Slice) : (h.modSlice t f).health = h.health := rfl
@[simp] theorem Hw.modSlice_scores (h : Hw) (t : Nat) (f : Slice → Slice) : (h.modSlice t f).scores = h.scores := rfl
@[simp] theorem Hw.modSlice_watch (h : Hw) (t : Nat) (f : Slice → Slice) : (h.modSlice t f).watch = h.watch := rfl
@[simp] theorem Hw.modSlice_advised (h : Hw) (t : Nat) (f : Slice → Slice) : (h.modSlice t f).advised = h.advised := rfl
@[simp] theorem Hw.modSlice_healthAt (h : Hw) (t : Nat) (f : Slice → Slice) : (h.modSlice t f).healthAt = h.healthAt := rfl
@[simp] theorem Hw.modSlice_coatLog (h : Hw) (t : Nat) (f : Slice → Slice) : (h.modSlice t f).coatLog = h.coatLog := rfl
@[simp] theorem Hw.modSlice_freezeReq (h : Hw) (t : Nat) (f : Slice → Slice) : (h.modSlice t f).freezeReq = h.freezeReq := rfl
@[simp] theorem Hw.modSlice_seqStopped (h : Hw) (t : Nat) (f : Slice → Slice) : (h.modSlice t f).seqStopped = h.seqStopped := rfl
@[simp] theorem Hw.modSlice_detected (h : Hw) (t : Nat) (f : Slice → Slice) : (h.modSlice t f).detected = h.detected := rfl
@[simp] theorem Hw.modSlice_dfin (h : Hw) (t : Nat) (f : Slice → Slice) : (h.modSlice t f).dfin = h.dfin := rfl
@[simp] theorem Hw.modSlice_ing (h : Hw) (t : Nat) (f : Slice → Slice) : (h.modSlice t f).ing = h.ing := rfl
@[simp] theorem Hw.modSlice_fus (h : Hw) (t : Nat) (f : Slice → Slice) : (h.modSlice t f).fus = h.fus := rfl
@[simp] theorem Hw.modSlice_datA (h : Hw) (t : Nat) (f : Slice → Slice) : (h.modSlice t f).datA = h.datA := rfl
@[simp] theorem Hw.modSlice_datB (h : Hw) (t : Nat) (f : Slice → Slice) : (h.modSlice t f).datB = h.datB := rfl
@[simp] theorem Hw.modSlice_trv (h : Hw) (t : Nat) (f : Slice → Slice) : (h.modSlice t f).trv = h.trv := rfl
@[simp] theorem Hw.modSlice_sys (h : Hw) (t : Nat) (f : Slice → Slice) : (h.modSlice t f).sys = h.sys := rfl
@[simp] theorem Hw.modSlice_get (h : Hw) (t : Nat) (f : Slice → Slice) (x : Fld) : (h.modSlice t f).get x = h.get x := rfl
@[simp] theorem Hw.modSlice_on (h : Hw) (t : Nat) (f : Slice → Slice) (x : Fld) : (h.modSlice t f).on x = h.on x := rfl
@[simp] theorem Hw.modSlice_now (h : Hw) (t : Nat) (f : Slice → Slice) : (h.modSlice t f).now = h.now := rfl
@[simp] theorem Hw.modSlice_mode (h : Hw) (t : Nat) (f : Slice → Slice) : (h.modSlice t f).mode = h.mode := rfl
@[simp] theorem Hw.modSlice_queue (h : Hw) (t : Nat) (f : Slice → Slice) (u w : Nat) : (h.modSlice t f).queue u w = h.queue u w := rfl
@[simp] theorem Hw.modSlice_part (h : Hw) (t : Nat) (f : Slice → Slice) (u : Nat) : (h.modSlice t f).part u = h.part u := rfl
@[simp] theorem Hw.modSlice_cmd (h : Hw) (t : Nat) (f : Slice → Slice) (u w x : Nat) : (h.modSlice t f).cmd? u w x = h.cmd? u w x := rfl

@[simp] theorem Hw.modCam_regs (h : Hw) (p : Nat) (f : CamSt → CamSt) : (h.modCam p f).regs = h.regs := rfl
@[simp] theorem Hw.modCam_freeIx (h : Hw) (p : Nat) (f : CamSt → CamSt) : (h.modCam p f).freeIx = h.freeIx := rfl
@[simp] theorem Hw.modCam_rndIx (h : Hw) (p : Nat) (f : CamSt → CamSt) : (h.modCam p f).rndIx = h.rndIx := rfl
@[simp] theorem Hw.modCam_mem (h : Hw) (p : Nat) (f : CamSt → CamSt) : (h.modCam p f).mem = h.mem := rfl
@[simp] theorem Hw.modCam_parts (h : Hw) (p : Nat) (f : CamSt → CamSt) : (h.modCam p f).parts = h.parts := rfl
@[simp] theorem Hw.modCam_cmds (h : Hw) (p : Nat) (f : CamSt → CamSt) : (h.modCam p f).cmds = h.cmds := rfl
@[simp] theorem Hw.modCam_fetched (h : Hw) (p : Nat) (f : CamSt → CamSt) : (h.modCam p f).fetched = h.fetched := rfl
@[simp] theorem Hw.modCam_mram (h : Hw) (p : Nat) (f : CamSt → CamSt) : (h.modCam p f).mram = h.mram := rfl
@[simp] theorem Hw.modCam_sobs (h : Hw) (p : Nat) (f : CamSt → CamSt) : (h.modCam p f).sobs = h.sobs := rfl
@[simp] theorem Hw.modCam_watches (h : Hw) (p : Nat) (f : CamSt → CamSt) : (h.modCam p f).watches = h.watches := rfl
@[simp] theorem Hw.modCam_evt (h : Hw) (p : Nat) (f : CamSt → CamSt) : (h.modCam p f).evt = h.evt := rfl
@[simp] theorem Hw.modCam_stn (h : Hw) (p : Nat) (f : CamSt → CamSt) : (h.modCam p f).stn = h.stn := rfl
@[simp] theorem Hw.modCam_vec (h : Hw) (p : Nat) (f : CamSt → CamSt) : (h.modCam p f).vec = h.vec := rfl
@[simp] theorem Hw.modCam_tiles (h : Hw) (p : Nat) (f : CamSt → CamSt) : (h.modCam p f).tiles = h.tiles := rfl
@[simp] theorem Hw.modCam_fab (h : Hw) (p : Nat) (f : CamSt → CamSt) : (h.modCam p f).fab = h.fab := rfl
@[simp] theorem Hw.modCam_models (h : Hw) (p : Nat) (f : CamSt → CamSt) : (h.modCam p f).models = h.models := rfl
@[simp] theorem Hw.modCam_jobs (h : Hw) (p : Nat) (f : CamSt → CamSt) : (h.modCam p f).jobs = h.jobs := rfl
@[simp] theorem Hw.modCam_dup (h : Hw) (p : Nat) (f : CamSt → CamSt) : (h.modCam p f).dup = h.dup := rfl
@[simp] theorem Hw.modCam_kv (h : Hw) (p : Nat) (f : CamSt → CamSt) : (h.modCam p f).kv = h.kv := rfl
@[simp] theorem Hw.modCam_cfg (h : Hw) (p : Nat) (f : CamSt → CamSt) : (h.modCam p f).cfg = h.cfg := rfl
@[simp] theorem Hw.modCam_msix (h : Hw) (p : Nat) (f : CamSt → CamSt) : (h.modCam p f).msix = h.msix := rfl
@[simp] theorem Hw.modCam_gfiles (h : Hw) (p : Nat) (f : CamSt → CamSt) : (h.modCam p f).gfiles = h.gfiles := rfl
@[simp] theorem Hw.modCam_outs (h : Hw) (p : Nat) (f : CamSt → CamSt) : (h.modCam p f).outs = h.outs := rfl
@[simp] theorem Hw.modCam_health (h : Hw) (p : Nat) (f : CamSt → CamSt) : (h.modCam p f).health = h.health := rfl
@[simp] theorem Hw.modCam_scores (h : Hw) (p : Nat) (f : CamSt → CamSt) : (h.modCam p f).scores = h.scores := rfl
@[simp] theorem Hw.modCam_watch (h : Hw) (p : Nat) (f : CamSt → CamSt) : (h.modCam p f).watch = h.watch := rfl
@[simp] theorem Hw.modCam_advised (h : Hw) (p : Nat) (f : CamSt → CamSt) : (h.modCam p f).advised = h.advised := rfl
@[simp] theorem Hw.modCam_healthAt (h : Hw) (p : Nat) (f : CamSt → CamSt) : (h.modCam p f).healthAt = h.healthAt := rfl
@[simp] theorem Hw.modCam_coatLog (h : Hw) (p : Nat) (f : CamSt → CamSt) : (h.modCam p f).coatLog = h.coatLog := rfl
@[simp] theorem Hw.modCam_freezeReq (h : Hw) (p : Nat) (f : CamSt → CamSt) : (h.modCam p f).freezeReq = h.freezeReq := rfl
@[simp] theorem Hw.modCam_seqStopped (h : Hw) (p : Nat) (f : CamSt → CamSt) : (h.modCam p f).seqStopped = h.seqStopped := rfl
@[simp] theorem Hw.modCam_detected (h : Hw) (p : Nat) (f : CamSt → CamSt) : (h.modCam p f).detected = h.detected := rfl
@[simp] theorem Hw.modCam_dfin (h : Hw) (p : Nat) (f : CamSt → CamSt) : (h.modCam p f).dfin = h.dfin := rfl
@[simp] theorem Hw.modCam_fus (h : Hw) (p : Nat) (f : CamSt → CamSt) : (h.modCam p f).fus = h.fus := rfl
@[simp] theorem Hw.modCam_datA (h : Hw) (p : Nat) (f : CamSt → CamSt) : (h.modCam p f).datA = h.datA := rfl
@[simp] theorem Hw.modCam_datB (h : Hw) (p : Nat) (f : CamSt → CamSt) : (h.modCam p f).datB = h.datB := rfl
@[simp] theorem Hw.modCam_trv (h : Hw) (p : Nat) (f : CamSt → CamSt) : (h.modCam p f).trv = h.trv := rfl
@[simp] theorem Hw.modCam_sys (h : Hw) (p : Nat) (f : CamSt → CamSt) : (h.modCam p f).sys = h.sys := rfl
@[simp] theorem Hw.modCam_get (h : Hw) (p : Nat) (f : CamSt → CamSt) (x : Fld) : (h.modCam p f).get x = h.get x := rfl
@[simp] theorem Hw.modCam_on (h : Hw) (p : Nat) (f : CamSt → CamSt) (x : Fld) : (h.modCam p f).on x = h.on x := rfl
@[simp] theorem Hw.modCam_now (h : Hw) (p : Nat) (f : CamSt → CamSt) : (h.modCam p f).now = h.now := rfl
@[simp] theorem Hw.modCam_mode (h : Hw) (p : Nat) (f : CamSt → CamSt) : (h.modCam p f).mode = h.mode := rfl
@[simp] theorem Hw.modCam_tile (h : Hw) (p : Nat) (f : CamSt → CamSt) (u : Nat) : (h.modCam p f).tile u = h.tile u := rfl
@[simp] theorem Hw.modCam_queue (h : Hw) (p : Nat) (f : CamSt → CamSt) (u w : Nat) : (h.modCam p f).queue u w = h.queue u w := rfl
@[simp] theorem Hw.modCam_part (h : Hw) (p : Nat) (f : CamSt → CamSt) (u : Nat) : (h.modCam p f).part u = h.part u := rfl
@[simp] theorem Hw.modCam_cmd (h : Hw) (p : Nat) (f : CamSt → CamSt) (u w x : Nat) : (h.modCam p f).cmd? u w x = h.cmd? u w x := rfl

@[simp] theorem Hw.modStream_regs (h : Hw) (k : Nat) (f : Stream → Stream) : (h.modStream k f).regs = h.regs := rfl
@[simp] theorem Hw.modStream_freeIx (h : Hw) (k : Nat) (f : Stream → Stream) : (h.modStream k f).freeIx = h.freeIx := rfl
@[simp] theorem Hw.modStream_rndIx (h : Hw) (k : Nat) (f : Stream → Stream) : (h.modStream k f).rndIx = h.rndIx := rfl
@[simp] theorem Hw.modStream_mem (h : Hw) (k : Nat) (f : Stream → Stream) : (h.modStream k f).mem = h.mem := rfl
@[simp] theorem Hw.modStream_parts (h : Hw) (k : Nat) (f : Stream → Stream) : (h.modStream k f).parts = h.parts := rfl
@[simp] theorem Hw.modStream_cmds (h : Hw) (k : Nat) (f : Stream → Stream) : (h.modStream k f).cmds = h.cmds := rfl
@[simp] theorem Hw.modStream_fetched (h : Hw) (k : Nat) (f : Stream → Stream) : (h.modStream k f).fetched = h.fetched := rfl
@[simp] theorem Hw.modStream_mram (h : Hw) (k : Nat) (f : Stream → Stream) : (h.modStream k f).mram = h.mram := rfl
@[simp] theorem Hw.modStream_sobs (h : Hw) (k : Nat) (f : Stream → Stream) : (h.modStream k f).sobs = h.sobs := rfl
@[simp] theorem Hw.modStream_watches (h : Hw) (k : Nat) (f : Stream → Stream) : (h.modStream k f).watches = h.watches := rfl
@[simp] theorem Hw.modStream_evt (h : Hw) (k : Nat) (f : Stream → Stream) : (h.modStream k f).evt = h.evt := rfl
@[simp] theorem Hw.modStream_stn (h : Hw) (k : Nat) (f : Stream → Stream) : (h.modStream k f).stn = h.stn := rfl
@[simp] theorem Hw.modStream_vec (h : Hw) (k : Nat) (f : Stream → Stream) : (h.modStream k f).vec = h.vec := rfl
@[simp] theorem Hw.modStream_tiles (h : Hw) (k : Nat) (f : Stream → Stream) : (h.modStream k f).tiles = h.tiles := rfl
@[simp] theorem Hw.modStream_fab (h : Hw) (k : Nat) (f : Stream → Stream) : (h.modStream k f).fab = h.fab := rfl
@[simp] theorem Hw.modStream_models (h : Hw) (k : Nat) (f : Stream → Stream) : (h.modStream k f).models = h.models := rfl
@[simp] theorem Hw.modStream_jobs (h : Hw) (k : Nat) (f : Stream → Stream) : (h.modStream k f).jobs = h.jobs := rfl
@[simp] theorem Hw.modStream_dup (h : Hw) (k : Nat) (f : Stream → Stream) : (h.modStream k f).dup = h.dup := rfl
@[simp] theorem Hw.modStream_kv (h : Hw) (k : Nat) (f : Stream → Stream) : (h.modStream k f).kv = h.kv := rfl
@[simp] theorem Hw.modStream_cfg (h : Hw) (k : Nat) (f : Stream → Stream) : (h.modStream k f).cfg = h.cfg := rfl
@[simp] theorem Hw.modStream_msix (h : Hw) (k : Nat) (f : Stream → Stream) : (h.modStream k f).msix = h.msix := rfl
@[simp] theorem Hw.modStream_gfiles (h : Hw) (k : Nat) (f : Stream → Stream) : (h.modStream k f).gfiles = h.gfiles := rfl
@[simp] theorem Hw.modStream_outs (h : Hw) (k : Nat) (f : Stream → Stream) : (h.modStream k f).outs = h.outs := rfl
@[simp] theorem Hw.modStream_health (h : Hw) (k : Nat) (f : Stream → Stream) : (h.modStream k f).health = h.health := rfl
@[simp] theorem Hw.modStream_scores (h : Hw) (k : Nat) (f : Stream → Stream) : (h.modStream k f).scores = h.scores := rfl
@[simp] theorem Hw.modStream_watch (h : Hw) (k : Nat) (f : Stream → Stream) : (h.modStream k f).watch = h.watch := rfl
@[simp] theorem Hw.modStream_advised (h : Hw) (k : Nat) (f : Stream → Stream) : (h.modStream k f).advised = h.advised := rfl
@[simp] theorem Hw.modStream_healthAt (h : Hw) (k : Nat) (f : Stream → Stream) : (h.modStream k f).healthAt = h.healthAt := rfl
@[simp] theorem Hw.modStream_coatLog (h : Hw) (k : Nat) (f : Stream → Stream) : (h.modStream k f).coatLog = h.coatLog := rfl
@[simp] theorem Hw.modStream_freezeReq (h : Hw) (k : Nat) (f : Stream → Stream) : (h.modStream k f).freezeReq = h.freezeReq := rfl
@[simp] theorem Hw.modStream_seqStopped (h : Hw) (k : Nat) (f : Stream → Stream) : (h.modStream k f).seqStopped = h.seqStopped := rfl
@[simp] theorem Hw.modStream_detected (h : Hw) (k : Nat) (f : Stream → Stream) : (h.modStream k f).detected = h.detected := rfl
@[simp] theorem Hw.modStream_dfin (h : Hw) (k : Nat) (f : Stream → Stream) : (h.modStream k f).dfin = h.dfin := rfl
@[simp] theorem Hw.modStream_fus (h : Hw) (k : Nat) (f : Stream → Stream) : (h.modStream k f).fus = h.fus := rfl
@[simp] theorem Hw.modStream_datA (h : Hw) (k : Nat) (f : Stream → Stream) : (h.modStream k f).datA = h.datA := rfl
@[simp] theorem Hw.modStream_datB (h : Hw) (k : Nat) (f : Stream → Stream) : (h.modStream k f).datB = h.datB := rfl
@[simp] theorem Hw.modStream_trv (h : Hw) (k : Nat) (f : Stream → Stream) : (h.modStream k f).trv = h.trv := rfl
@[simp] theorem Hw.modStream_sys (h : Hw) (k : Nat) (f : Stream → Stream) : (h.modStream k f).sys = h.sys := rfl
@[simp] theorem Hw.modStream_get (h : Hw) (k : Nat) (f : Stream → Stream) (x : Fld) : (h.modStream k f).get x = h.get x := rfl
@[simp] theorem Hw.modStream_on (h : Hw) (k : Nat) (f : Stream → Stream) (x : Fld) : (h.modStream k f).on x = h.on x := rfl
@[simp] theorem Hw.modStream_now (h : Hw) (k : Nat) (f : Stream → Stream) : (h.modStream k f).now = h.now := rfl
@[simp] theorem Hw.modStream_mode (h : Hw) (k : Nat) (f : Stream → Stream) : (h.modStream k f).mode = h.mode := rfl
@[simp] theorem Hw.modStream_tile (h : Hw) (k : Nat) (f : Stream → Stream) (u : Nat) : (h.modStream k f).tile u = h.tile u := rfl
@[simp] theorem Hw.modStream_queue (h : Hw) (k : Nat) (f : Stream → Stream) (u w : Nat) : (h.modStream k f).queue u w = h.queue u w := rfl
@[simp] theorem Hw.modStream_part (h : Hw) (k : Nat) (f : Stream → Stream) (u : Nat) : (h.modStream k f).part u = h.part u := rfl
@[simp] theorem Hw.modStream_cmd (h : Hw) (k : Nat) (f : Stream → Stream) (u w x : Nat) : (h.modStream k f).cmd? u w x = h.cmd? u w x := rfl

@[simp] theorem Hw.modModel_regs (h : Hw) (p n : Nat) (f : Model → Model) : (h.modModel p n f).regs = h.regs := rfl
@[simp] theorem Hw.modModel_freeIx (h : Hw) (p n : Nat) (f : Model → Model) : (h.modModel p n f).freeIx = h.freeIx := rfl
@[simp] theorem Hw.modModel_rndIx (h : Hw) (p n : Nat) (f : Model → Model) : (h.modModel p n f).rndIx = h.rndIx := rfl
@[simp] theorem Hw.modModel_mem (h : Hw) (p n : Nat) (f : Model → Model) : (h.modModel p n f).mem = h.mem := rfl
@[simp] theorem Hw.modModel_parts (h : Hw) (p n : Nat) (f : Model → Model) : (h.modModel p n f).parts = h.parts := rfl
@[simp] theorem Hw.modModel_cmds (h : Hw) (p n : Nat) (f : Model → Model) : (h.modModel p n f).cmds = h.cmds := rfl
@[simp] theorem Hw.modModel_fetched (h : Hw) (p n : Nat) (f : Model → Model) : (h.modModel p n f).fetched = h.fetched := rfl
@[simp] theorem Hw.modModel_mram (h : Hw) (p n : Nat) (f : Model → Model) : (h.modModel p n f).mram = h.mram := rfl
@[simp] theorem Hw.modModel_sobs (h : Hw) (p n : Nat) (f : Model → Model) : (h.modModel p n f).sobs = h.sobs := rfl
@[simp] theorem Hw.modModel_watches (h : Hw) (p n : Nat) (f : Model → Model) : (h.modModel p n f).watches = h.watches := rfl
@[simp] theorem Hw.modModel_evt (h : Hw) (p n : Nat) (f : Model → Model) : (h.modModel p n f).evt = h.evt := rfl
@[simp] theorem Hw.modModel_stn (h : Hw) (p n : Nat) (f : Model → Model) : (h.modModel p n f).stn = h.stn := rfl
@[simp] theorem Hw.modModel_vec (h : Hw) (p n : Nat) (f : Model → Model) : (h.modModel p n f).vec = h.vec := rfl
@[simp] theorem Hw.modModel_tiles (h : Hw) (p n : Nat) (f : Model → Model) : (h.modModel p n f).tiles = h.tiles := rfl
@[simp] theorem Hw.modModel_fab (h : Hw) (p n : Nat) (f : Model → Model) : (h.modModel p n f).fab = h.fab := rfl
@[simp] theorem Hw.modModel_jobs (h : Hw) (p n : Nat) (f : Model → Model) : (h.modModel p n f).jobs = h.jobs := rfl
@[simp] theorem Hw.modModel_dup (h : Hw) (p n : Nat) (f : Model → Model) : (h.modModel p n f).dup = h.dup := rfl
@[simp] theorem Hw.modModel_kv (h : Hw) (p n : Nat) (f : Model → Model) : (h.modModel p n f).kv = h.kv := rfl
@[simp] theorem Hw.modModel_cfg (h : Hw) (p n : Nat) (f : Model → Model) : (h.modModel p n f).cfg = h.cfg := rfl
@[simp] theorem Hw.modModel_msix (h : Hw) (p n : Nat) (f : Model → Model) : (h.modModel p n f).msix = h.msix := rfl
@[simp] theorem Hw.modModel_gfiles (h : Hw) (p n : Nat) (f : Model → Model) : (h.modModel p n f).gfiles = h.gfiles := rfl
@[simp] theorem Hw.modModel_outs (h : Hw) (p n : Nat) (f : Model → Model) : (h.modModel p n f).outs = h.outs := rfl
@[simp] theorem Hw.modModel_health (h : Hw) (p n : Nat) (f : Model → Model) : (h.modModel p n f).health = h.health := rfl
@[simp] theorem Hw.modModel_scores (h : Hw) (p n : Nat) (f : Model → Model) : (h.modModel p n f).scores = h.scores := rfl
@[simp] theorem Hw.modModel_watch (h : Hw) (p n : Nat) (f : Model → Model) : (h.modModel p n f).watch = h.watch := rfl
@[simp] theorem Hw.modModel_advised (h : Hw) (p n : Nat) (f : Model → Model) : (h.modModel p n f).advised = h.advised := rfl
@[simp] theorem Hw.modModel_healthAt (h : Hw) (p n : Nat) (f : Model → Model) : (h.modModel p n f).healthAt = h.healthAt := rfl
@[simp] theorem Hw.modModel_coatLog (h : Hw) (p n : Nat) (f : Model → Model) : (h.modModel p n f).coatLog = h.coatLog := rfl
@[simp] theorem Hw.modModel_freezeReq (h : Hw) (p n : Nat) (f : Model → Model) : (h.modModel p n f).freezeReq = h.freezeReq := rfl
@[simp] theorem Hw.modModel_seqStopped (h : Hw) (p n : Nat) (f : Model → Model) : (h.modModel p n f).seqStopped = h.seqStopped := rfl
@[simp] theorem Hw.modModel_detected (h : Hw) (p n : Nat) (f : Model → Model) : (h.modModel p n f).detected = h.detected := rfl
@[simp] theorem Hw.modModel_dfin (h : Hw) (p n : Nat) (f : Model → Model) : (h.modModel p n f).dfin = h.dfin := rfl
@[simp] theorem Hw.modModel_ing (h : Hw) (p n : Nat) (f : Model → Model) : (h.modModel p n f).ing = h.ing := rfl
@[simp] theorem Hw.modModel_fus (h : Hw) (p n : Nat) (f : Model → Model) : (h.modModel p n f).fus = h.fus := rfl
@[simp] theorem Hw.modModel_datA (h : Hw) (p n : Nat) (f : Model → Model) : (h.modModel p n f).datA = h.datA := rfl
@[simp] theorem Hw.modModel_datB (h : Hw) (p n : Nat) (f : Model → Model) : (h.modModel p n f).datB = h.datB := rfl
@[simp] theorem Hw.modModel_trv (h : Hw) (p n : Nat) (f : Model → Model) : (h.modModel p n f).trv = h.trv := rfl
@[simp] theorem Hw.modModel_sys (h : Hw) (p n : Nat) (f : Model → Model) : (h.modModel p n f).sys = h.sys := rfl
@[simp] theorem Hw.modModel_get (h : Hw) (p n : Nat) (f : Model → Model) (x : Fld) : (h.modModel p n f).get x = h.get x := rfl
@[simp] theorem Hw.modModel_on (h : Hw) (p n : Nat) (f : Model → Model) (x : Fld) : (h.modModel p n f).on x = h.on x := rfl
@[simp] theorem Hw.modModel_now (h : Hw) (p n : Nat) (f : Model → Model) : (h.modModel p n f).now = h.now := rfl
@[simp] theorem Hw.modModel_mode (h : Hw) (p n : Nat) (f : Model → Model) : (h.modModel p n f).mode = h.mode := rfl
@[simp] theorem Hw.modModel_tile (h : Hw) (p n : Nat) (f : Model → Model) (u : Nat) : (h.modModel p n f).tile u = h.tile u := rfl
@[simp] theorem Hw.modModel_queue (h : Hw) (p n : Nat) (f : Model → Model) (u w : Nat) : (h.modModel p n f).queue u w = h.queue u w := rfl
@[simp] theorem Hw.modModel_part (h : Hw) (p n : Nat) (f : Model → Model) (u : Nat) : (h.modModel p n f).part u = h.part u := rfl
@[simp] theorem Hw.modModel_cmd (h : Hw) (p n : Nat) (f : Model → Model) (u w x : Nat) : (h.modModel p n f).cmd? u w x = h.cmd? u w x := rfl

@[simp] theorem Hw.modJob_regs (h : Hw) (p q n : Nat) (f : Job → Job) : (h.modJob p q n f).regs = h.regs := rfl
@[simp] theorem Hw.modJob_freeIx (h : Hw) (p q n : Nat) (f : Job → Job) : (h.modJob p q n f).freeIx = h.freeIx := rfl
@[simp] theorem Hw.modJob_rndIx (h : Hw) (p q n : Nat) (f : Job → Job) : (h.modJob p q n f).rndIx = h.rndIx := rfl
@[simp] theorem Hw.modJob_mem (h : Hw) (p q n : Nat) (f : Job → Job) : (h.modJob p q n f).mem = h.mem := rfl
@[simp] theorem Hw.modJob_parts (h : Hw) (p q n : Nat) (f : Job → Job) : (h.modJob p q n f).parts = h.parts := rfl
@[simp] theorem Hw.modJob_cmds (h : Hw) (p q n : Nat) (f : Job → Job) : (h.modJob p q n f).cmds = h.cmds := rfl
@[simp] theorem Hw.modJob_fetched (h : Hw) (p q n : Nat) (f : Job → Job) : (h.modJob p q n f).fetched = h.fetched := rfl
@[simp] theorem Hw.modJob_mram (h : Hw) (p q n : Nat) (f : Job → Job) : (h.modJob p q n f).mram = h.mram := rfl
@[simp] theorem Hw.modJob_sobs (h : Hw) (p q n : Nat) (f : Job → Job) : (h.modJob p q n f).sobs = h.sobs := rfl
@[simp] theorem Hw.modJob_watches (h : Hw) (p q n : Nat) (f : Job → Job) : (h.modJob p q n f).watches = h.watches := rfl
@[simp] theorem Hw.modJob_evt (h : Hw) (p q n : Nat) (f : Job → Job) : (h.modJob p q n f).evt = h.evt := rfl
@[simp] theorem Hw.modJob_stn (h : Hw) (p q n : Nat) (f : Job → Job) : (h.modJob p q n f).stn = h.stn := rfl
@[simp] theorem Hw.modJob_vec (h : Hw) (p q n : Nat) (f : Job → Job) : (h.modJob p q n f).vec = h.vec := rfl
@[simp] theorem Hw.modJob_tiles (h : Hw) (p q n : Nat) (f : Job → Job) : (h.modJob p q n f).tiles = h.tiles := rfl
@[simp] theorem Hw.modJob_fab (h : Hw) (p q n : Nat) (f : Job → Job) : (h.modJob p q n f).fab = h.fab := rfl
@[simp] theorem Hw.modJob_models (h : Hw) (p q n : Nat) (f : Job → Job) : (h.modJob p q n f).models = h.models := rfl
@[simp] theorem Hw.modJob_dup (h : Hw) (p q n : Nat) (f : Job → Job) : (h.modJob p q n f).dup = h.dup := rfl
@[simp] theorem Hw.modJob_kv (h : Hw) (p q n : Nat) (f : Job → Job) : (h.modJob p q n f).kv = h.kv := rfl
@[simp] theorem Hw.modJob_cfg (h : Hw) (p q n : Nat) (f : Job → Job) : (h.modJob p q n f).cfg = h.cfg := rfl
@[simp] theorem Hw.modJob_msix (h : Hw) (p q n : Nat) (f : Job → Job) : (h.modJob p q n f).msix = h.msix := rfl
@[simp] theorem Hw.modJob_gfiles (h : Hw) (p q n : Nat) (f : Job → Job) : (h.modJob p q n f).gfiles = h.gfiles := rfl
@[simp] theorem Hw.modJob_outs (h : Hw) (p q n : Nat) (f : Job → Job) : (h.modJob p q n f).outs = h.outs := rfl
@[simp] theorem Hw.modJob_health (h : Hw) (p q n : Nat) (f : Job → Job) : (h.modJob p q n f).health = h.health := rfl
@[simp] theorem Hw.modJob_scores (h : Hw) (p q n : Nat) (f : Job → Job) : (h.modJob p q n f).scores = h.scores := rfl
@[simp] theorem Hw.modJob_watch (h : Hw) (p q n : Nat) (f : Job → Job) : (h.modJob p q n f).watch = h.watch := rfl
@[simp] theorem Hw.modJob_advised (h : Hw) (p q n : Nat) (f : Job → Job) : (h.modJob p q n f).advised = h.advised := rfl
@[simp] theorem Hw.modJob_healthAt (h : Hw) (p q n : Nat) (f : Job → Job) : (h.modJob p q n f).healthAt = h.healthAt := rfl
@[simp] theorem Hw.modJob_coatLog (h : Hw) (p q n : Nat) (f : Job → Job) : (h.modJob p q n f).coatLog = h.coatLog := rfl
@[simp] theorem Hw.modJob_freezeReq (h : Hw) (p q n : Nat) (f : Job → Job) : (h.modJob p q n f).freezeReq = h.freezeReq := rfl
@[simp] theorem Hw.modJob_seqStopped (h : Hw) (p q n : Nat) (f : Job → Job) : (h.modJob p q n f).seqStopped = h.seqStopped := rfl
@[simp] theorem Hw.modJob_detected (h : Hw) (p q n : Nat) (f : Job → Job) : (h.modJob p q n f).detected = h.detected := rfl
@[simp] theorem Hw.modJob_dfin (h : Hw) (p q n : Nat) (f : Job → Job) : (h.modJob p q n f).dfin = h.dfin := rfl
@[simp] theorem Hw.modJob_ing (h : Hw) (p q n : Nat) (f : Job → Job) : (h.modJob p q n f).ing = h.ing := rfl
@[simp] theorem Hw.modJob_fus (h : Hw) (p q n : Nat) (f : Job → Job) : (h.modJob p q n f).fus = h.fus := rfl
@[simp] theorem Hw.modJob_datA (h : Hw) (p q n : Nat) (f : Job → Job) : (h.modJob p q n f).datA = h.datA := rfl
@[simp] theorem Hw.modJob_datB (h : Hw) (p q n : Nat) (f : Job → Job) : (h.modJob p q n f).datB = h.datB := rfl
@[simp] theorem Hw.modJob_trv (h : Hw) (p q n : Nat) (f : Job → Job) : (h.modJob p q n f).trv = h.trv := rfl
@[simp] theorem Hw.modJob_sys (h : Hw) (p q n : Nat) (f : Job → Job) : (h.modJob p q n f).sys = h.sys := rfl
@[simp] theorem Hw.modJob_get (h : Hw) (p q n : Nat) (f : Job → Job) (x : Fld) : (h.modJob p q n f).get x = h.get x := rfl
@[simp] theorem Hw.modJob_on (h : Hw) (p q n : Nat) (f : Job → Job) (x : Fld) : (h.modJob p q n f).on x = h.on x := rfl
@[simp] theorem Hw.modJob_now (h : Hw) (p q n : Nat) (f : Job → Job) : (h.modJob p q n f).now = h.now := rfl
@[simp] theorem Hw.modJob_mode (h : Hw) (p q n : Nat) (f : Job → Job) : (h.modJob p q n f).mode = h.mode := rfl
@[simp] theorem Hw.modJob_tile (h : Hw) (p q n : Nat) (f : Job → Job) (u : Nat) : (h.modJob p q n f).tile u = h.tile u := rfl
@[simp] theorem Hw.modJob_queue (h : Hw) (p q n : Nat) (f : Job → Job) (u w : Nat) : (h.modJob p q n f).queue u w = h.queue u w := rfl
@[simp] theorem Hw.modJob_part (h : Hw) (p q n : Nat) (f : Job → Job) (u : Nat) : (h.modJob p q n f).part u = h.part u := rfl
@[simp] theorem Hw.modJob_cmd (h : Hw) (p q n : Nat) (f : Job → Job) (u w x : Nat) : (h.modJob p q n f).cmd? u w x = h.cmd? u w x := rfl

@[simp] theorem Hw.modGov_regs (h : Hw) (f : Gov → Gov) : (h.modGov f).regs = h.regs := rfl
@[simp] theorem Hw.modGov_freeIx (h : Hw) (f : Gov → Gov) : (h.modGov f).freeIx = h.freeIx := rfl
@[simp] theorem Hw.modGov_rndIx (h : Hw) (f : Gov → Gov) : (h.modGov f).rndIx = h.rndIx := rfl
@[simp] theorem Hw.modGov_mem (h : Hw) (f : Gov → Gov) : (h.modGov f).mem = h.mem := rfl
@[simp] theorem Hw.modGov_parts (h : Hw) (f : Gov → Gov) : (h.modGov f).parts = h.parts := rfl
@[simp] theorem Hw.modGov_cmds (h : Hw) (f : Gov → Gov) : (h.modGov f).cmds = h.cmds := rfl
@[simp] theorem Hw.modGov_fetched (h : Hw) (f : Gov → Gov) : (h.modGov f).fetched = h.fetched := rfl
@[simp] theorem Hw.modGov_mram (h : Hw) (f : Gov → Gov) : (h.modGov f).mram = h.mram := rfl
@[simp] theorem Hw.modGov_sobs (h : Hw) (f : Gov → Gov) : (h.modGov f).sobs = h.sobs := rfl
@[simp] theorem Hw.modGov_watches (h : Hw) (f : Gov → Gov) : (h.modGov f).watches = h.watches := rfl
@[simp] theorem Hw.modGov_evt (h : Hw) (f : Gov → Gov) : (h.modGov f).evt = h.evt := rfl
@[simp] theorem Hw.modGov_stn (h : Hw) (f : Gov → Gov) : (h.modGov f).stn = h.stn := rfl
@[simp] theorem Hw.modGov_vec (h : Hw) (f : Gov → Gov) : (h.modGov f).vec = h.vec := rfl
@[simp] theorem Hw.modGov_tiles (h : Hw) (f : Gov → Gov) : (h.modGov f).tiles = h.tiles := rfl
@[simp] theorem Hw.modGov_fab (h : Hw) (f : Gov → Gov) : (h.modGov f).fab = h.fab := rfl
@[simp] theorem Hw.modGov_models (h : Hw) (f : Gov → Gov) : (h.modGov f).models = h.models := rfl
@[simp] theorem Hw.modGov_jobs (h : Hw) (f : Gov → Gov) : (h.modGov f).jobs = h.jobs := rfl
@[simp] theorem Hw.modGov_dup (h : Hw) (f : Gov → Gov) : (h.modGov f).dup = h.dup := rfl
@[simp] theorem Hw.modGov_kv (h : Hw) (f : Gov → Gov) : (h.modGov f).kv = h.kv := rfl
@[simp] theorem Hw.modGov_cfg (h : Hw) (f : Gov → Gov) : (h.modGov f).cfg = h.cfg := rfl
@[simp] theorem Hw.modGov_msix (h : Hw) (f : Gov → Gov) : (h.modGov f).msix = h.msix := rfl
@[simp] theorem Hw.modGov_gfiles (h : Hw) (f : Gov → Gov) : (h.modGov f).gfiles = h.gfiles := rfl
@[simp] theorem Hw.modGov_outs (h : Hw) (f : Gov → Gov) : (h.modGov f).outs = h.outs := rfl
@[simp] theorem Hw.modGov_health (h : Hw) (f : Gov → Gov) : (h.modGov f).health = h.health := rfl
@[simp] theorem Hw.modGov_scores (h : Hw) (f : Gov → Gov) : (h.modGov f).scores = h.scores := rfl
@[simp] theorem Hw.modGov_watch (h : Hw) (f : Gov → Gov) : (h.modGov f).watch = h.watch := rfl
@[simp] theorem Hw.modGov_advised (h : Hw) (f : Gov → Gov) : (h.modGov f).advised = h.advised := rfl
@[simp] theorem Hw.modGov_healthAt (h : Hw) (f : Gov → Gov) : (h.modGov f).healthAt = h.healthAt := rfl
@[simp] theorem Hw.modGov_coatLog (h : Hw) (f : Gov → Gov) : (h.modGov f).coatLog = h.coatLog := rfl
@[simp] theorem Hw.modGov_freezeReq (h : Hw) (f : Gov → Gov) : (h.modGov f).freezeReq = h.freezeReq := rfl
@[simp] theorem Hw.modGov_seqStopped (h : Hw) (f : Gov → Gov) : (h.modGov f).seqStopped = h.seqStopped := rfl
@[simp] theorem Hw.modGov_detected (h : Hw) (f : Gov → Gov) : (h.modGov f).detected = h.detected := rfl
@[simp] theorem Hw.modGov_dfin (h : Hw) (f : Gov → Gov) : (h.modGov f).dfin = h.dfin := rfl
@[simp] theorem Hw.modGov_ing (h : Hw) (f : Gov → Gov) : (h.modGov f).ing = h.ing := rfl
@[simp] theorem Hw.modGov_fus (h : Hw) (f : Gov → Gov) : (h.modGov f).fus = h.fus := rfl
@[simp] theorem Hw.modGov_datA (h : Hw) (f : Gov → Gov) : (h.modGov f).datA = h.datA := rfl
@[simp] theorem Hw.modGov_datB (h : Hw) (f : Gov → Gov) : (h.modGov f).datB = h.datB := rfl
@[simp] theorem Hw.modGov_trv (h : Hw) (f : Gov → Gov) : (h.modGov f).trv = h.trv := rfl
@[simp] theorem Hw.modGov_get (h : Hw) (f : Gov → Gov) (x : Fld) : (h.modGov f).get x = h.get x := rfl
@[simp] theorem Hw.modGov_on (h : Hw) (f : Gov → Gov) (x : Fld) : (h.modGov f).on x = h.on x := rfl
@[simp] theorem Hw.modGov_now (h : Hw) (f : Gov → Gov) : (h.modGov f).now = h.now := rfl
@[simp] theorem Hw.modGov_mode (h : Hw) (f : Gov → Gov) : (h.modGov f).mode = h.mode := rfl
@[simp] theorem Hw.modGov_tile (h : Hw) (f : Gov → Gov) (u : Nat) : (h.modGov f).tile u = h.tile u := rfl
@[simp] theorem Hw.modGov_queue (h : Hw) (f : Gov → Gov) (u w : Nat) : (h.modGov f).queue u w = h.queue u w := rfl
@[simp] theorem Hw.modGov_part (h : Hw) (f : Gov → Gov) (u : Nat) : (h.modGov f).part u = h.part u := rfl
@[simp] theorem Hw.modGov_cmd (h : Hw) (f : Gov → Gov) (u w x : Nat) : (h.modGov f).cmd? u w x = h.cmd? u w x := rfl

@[simp] theorem Hw.modGrp_regs (h : Hw) (f : Group → Group) : (h.modGrp f).regs = h.regs := rfl
@[simp] theorem Hw.modGrp_freeIx (h : Hw) (f : Group → Group) : (h.modGrp f).freeIx = h.freeIx := rfl
@[simp] theorem Hw.modGrp_rndIx (h : Hw) (f : Group → Group) : (h.modGrp f).rndIx = h.rndIx := rfl
@[simp] theorem Hw.modGrp_mem (h : Hw) (f : Group → Group) : (h.modGrp f).mem = h.mem := rfl
@[simp] theorem Hw.modGrp_parts (h : Hw) (f : Group → Group) : (h.modGrp f).parts = h.parts := rfl
@[simp] theorem Hw.modGrp_cmds (h : Hw) (f : Group → Group) : (h.modGrp f).cmds = h.cmds := rfl
@[simp] theorem Hw.modGrp_fetched (h : Hw) (f : Group → Group) : (h.modGrp f).fetched = h.fetched := rfl
@[simp] theorem Hw.modGrp_mram (h : Hw) (f : Group → Group) : (h.modGrp f).mram = h.mram := rfl
@[simp] theorem Hw.modGrp_sobs (h : Hw) (f : Group → Group) : (h.modGrp f).sobs = h.sobs := rfl
@[simp] theorem Hw.modGrp_watches (h : Hw) (f : Group → Group) : (h.modGrp f).watches = h.watches := rfl
@[simp] theorem Hw.modGrp_evt (h : Hw) (f : Group → Group) : (h.modGrp f).evt = h.evt := rfl
@[simp] theorem Hw.modGrp_stn (h : Hw) (f : Group → Group) : (h.modGrp f).stn = h.stn := rfl
@[simp] theorem Hw.modGrp_vec (h : Hw) (f : Group → Group) : (h.modGrp f).vec = h.vec := rfl
@[simp] theorem Hw.modGrp_tiles (h : Hw) (f : Group → Group) : (h.modGrp f).tiles = h.tiles := rfl
@[simp] theorem Hw.modGrp_fab (h : Hw) (f : Group → Group) : (h.modGrp f).fab = h.fab := rfl
@[simp] theorem Hw.modGrp_models (h : Hw) (f : Group → Group) : (h.modGrp f).models = h.models := rfl
@[simp] theorem Hw.modGrp_jobs (h : Hw) (f : Group → Group) : (h.modGrp f).jobs = h.jobs := rfl
@[simp] theorem Hw.modGrp_dup (h : Hw) (f : Group → Group) : (h.modGrp f).dup = h.dup := rfl
@[simp] theorem Hw.modGrp_kv (h : Hw) (f : Group → Group) : (h.modGrp f).kv = h.kv := rfl
@[simp] theorem Hw.modGrp_cfg (h : Hw) (f : Group → Group) : (h.modGrp f).cfg = h.cfg := rfl
@[simp] theorem Hw.modGrp_msix (h : Hw) (f : Group → Group) : (h.modGrp f).msix = h.msix := rfl
@[simp] theorem Hw.modGrp_gfiles (h : Hw) (f : Group → Group) : (h.modGrp f).gfiles = h.gfiles := rfl
@[simp] theorem Hw.modGrp_outs (h : Hw) (f : Group → Group) : (h.modGrp f).outs = h.outs := rfl
@[simp] theorem Hw.modGrp_health (h : Hw) (f : Group → Group) : (h.modGrp f).health = h.health := rfl
@[simp] theorem Hw.modGrp_scores (h : Hw) (f : Group → Group) : (h.modGrp f).scores = h.scores := rfl
@[simp] theorem Hw.modGrp_watch (h : Hw) (f : Group → Group) : (h.modGrp f).watch = h.watch := rfl
@[simp] theorem Hw.modGrp_advised (h : Hw) (f : Group → Group) : (h.modGrp f).advised = h.advised := rfl
@[simp] theorem Hw.modGrp_healthAt (h : Hw) (f : Group → Group) : (h.modGrp f).healthAt = h.healthAt := rfl
@[simp] theorem Hw.modGrp_coatLog (h : Hw) (f : Group → Group) : (h.modGrp f).coatLog = h.coatLog := rfl
@[simp] theorem Hw.modGrp_freezeReq (h : Hw) (f : Group → Group) : (h.modGrp f).freezeReq = h.freezeReq := rfl
@[simp] theorem Hw.modGrp_seqStopped (h : Hw) (f : Group → Group) : (h.modGrp f).seqStopped = h.seqStopped := rfl
@[simp] theorem Hw.modGrp_detected (h : Hw) (f : Group → Group) : (h.modGrp f).detected = h.detected := rfl
@[simp] theorem Hw.modGrp_dfin (h : Hw) (f : Group → Group) : (h.modGrp f).dfin = h.dfin := rfl
@[simp] theorem Hw.modGrp_ing (h : Hw) (f : Group → Group) : (h.modGrp f).ing = h.ing := rfl
@[simp] theorem Hw.modGrp_fus (h : Hw) (f : Group → Group) : (h.modGrp f).fus = h.fus := rfl
@[simp] theorem Hw.modGrp_datA (h : Hw) (f : Group → Group) : (h.modGrp f).datA = h.datA := rfl
@[simp] theorem Hw.modGrp_datB (h : Hw) (f : Group → Group) : (h.modGrp f).datB = h.datB := rfl
@[simp] theorem Hw.modGrp_trv (h : Hw) (f : Group → Group) : (h.modGrp f).trv = h.trv := rfl
@[simp] theorem Hw.modGrp_get (h : Hw) (f : Group → Group) (x : Fld) : (h.modGrp f).get x = h.get x := rfl
@[simp] theorem Hw.modGrp_on (h : Hw) (f : Group → Group) (x : Fld) : (h.modGrp f).on x = h.on x := rfl
@[simp] theorem Hw.modGrp_now (h : Hw) (f : Group → Group) : (h.modGrp f).now = h.now := rfl
@[simp] theorem Hw.modGrp_mode (h : Hw) (f : Group → Group) : (h.modGrp f).mode = h.mode := rfl
@[simp] theorem Hw.modGrp_tile (h : Hw) (f : Group → Group) (u : Nat) : (h.modGrp f).tile u = h.tile u := rfl
@[simp] theorem Hw.modGrp_queue (h : Hw) (f : Group → Group) (u w : Nat) : (h.modGrp f).queue u w = h.queue u w := rfl
@[simp] theorem Hw.modGrp_part (h : Hw) (f : Group → Group) (u : Nat) : (h.modGrp f).part u = h.part u := rfl
@[simp] theorem Hw.modGrp_cmd (h : Hw) (f : Group → Group) (u w x : Nat) : (h.modGrp f).cmd? u w x = h.cmd? u w x := rfl

@[simp] theorem Hw.modApc_regs (h : Hw) (f : Apc → Apc) : (h.modApc f).regs = h.regs := rfl
@[simp] theorem Hw.modApc_freeIx (h : Hw) (f : Apc → Apc) : (h.modApc f).freeIx = h.freeIx := rfl
@[simp] theorem Hw.modApc_rndIx (h : Hw) (f : Apc → Apc) : (h.modApc f).rndIx = h.rndIx := rfl
@[simp] theorem Hw.modApc_mem (h : Hw) (f : Apc → Apc) : (h.modApc f).mem = h.mem := rfl
@[simp] theorem Hw.modApc_parts (h : Hw) (f : Apc → Apc) : (h.modApc f).parts = h.parts := rfl
@[simp] theorem Hw.modApc_cmds (h : Hw) (f : Apc → Apc) : (h.modApc f).cmds = h.cmds := rfl
@[simp] theorem Hw.modApc_fetched (h : Hw) (f : Apc → Apc) : (h.modApc f).fetched = h.fetched := rfl
@[simp] theorem Hw.modApc_mram (h : Hw) (f : Apc → Apc) : (h.modApc f).mram = h.mram := rfl
@[simp] theorem Hw.modApc_sobs (h : Hw) (f : Apc → Apc) : (h.modApc f).sobs = h.sobs := rfl
@[simp] theorem Hw.modApc_watches (h : Hw) (f : Apc → Apc) : (h.modApc f).watches = h.watches := rfl
@[simp] theorem Hw.modApc_evt (h : Hw) (f : Apc → Apc) : (h.modApc f).evt = h.evt := rfl
@[simp] theorem Hw.modApc_stn (h : Hw) (f : Apc → Apc) : (h.modApc f).stn = h.stn := rfl
@[simp] theorem Hw.modApc_vec (h : Hw) (f : Apc → Apc) : (h.modApc f).vec = h.vec := rfl
@[simp] theorem Hw.modApc_tiles (h : Hw) (f : Apc → Apc) : (h.modApc f).tiles = h.tiles := rfl
@[simp] theorem Hw.modApc_fab (h : Hw) (f : Apc → Apc) : (h.modApc f).fab = h.fab := rfl
@[simp] theorem Hw.modApc_models (h : Hw) (f : Apc → Apc) : (h.modApc f).models = h.models := rfl
@[simp] theorem Hw.modApc_jobs (h : Hw) (f : Apc → Apc) : (h.modApc f).jobs = h.jobs := rfl
@[simp] theorem Hw.modApc_dup (h : Hw) (f : Apc → Apc) : (h.modApc f).dup = h.dup := rfl
@[simp] theorem Hw.modApc_kv (h : Hw) (f : Apc → Apc) : (h.modApc f).kv = h.kv := rfl
@[simp] theorem Hw.modApc_cfg (h : Hw) (f : Apc → Apc) : (h.modApc f).cfg = h.cfg := rfl
@[simp] theorem Hw.modApc_msix (h : Hw) (f : Apc → Apc) : (h.modApc f).msix = h.msix := rfl
@[simp] theorem Hw.modApc_gfiles (h : Hw) (f : Apc → Apc) : (h.modApc f).gfiles = h.gfiles := rfl
@[simp] theorem Hw.modApc_outs (h : Hw) (f : Apc → Apc) : (h.modApc f).outs = h.outs := rfl
@[simp] theorem Hw.modApc_health (h : Hw) (f : Apc → Apc) : (h.modApc f).health = h.health := rfl
@[simp] theorem Hw.modApc_scores (h : Hw) (f : Apc → Apc) : (h.modApc f).scores = h.scores := rfl
@[simp] theorem Hw.modApc_watch (h : Hw) (f : Apc → Apc) : (h.modApc f).watch = h.watch := rfl
@[simp] theorem Hw.modApc_advised (h : Hw) (f : Apc → Apc) : (h.modApc f).advised = h.advised := rfl
@[simp] theorem Hw.modApc_healthAt (h : Hw) (f : Apc → Apc) : (h.modApc f).healthAt = h.healthAt := rfl
@[simp] theorem Hw.modApc_coatLog (h : Hw) (f : Apc → Apc) : (h.modApc f).coatLog = h.coatLog := rfl
@[simp] theorem Hw.modApc_freezeReq (h : Hw) (f : Apc → Apc) : (h.modApc f).freezeReq = h.freezeReq := rfl
@[simp] theorem Hw.modApc_seqStopped (h : Hw) (f : Apc → Apc) : (h.modApc f).seqStopped = h.seqStopped := rfl
@[simp] theorem Hw.modApc_detected (h : Hw) (f : Apc → Apc) : (h.modApc f).detected = h.detected := rfl
@[simp] theorem Hw.modApc_dfin (h : Hw) (f : Apc → Apc) : (h.modApc f).dfin = h.dfin := rfl
@[simp] theorem Hw.modApc_ing (h : Hw) (f : Apc → Apc) : (h.modApc f).ing = h.ing := rfl
@[simp] theorem Hw.modApc_fus (h : Hw) (f : Apc → Apc) : (h.modApc f).fus = h.fus := rfl
@[simp] theorem Hw.modApc_datA (h : Hw) (f : Apc → Apc) : (h.modApc f).datA = h.datA := rfl
@[simp] theorem Hw.modApc_datB (h : Hw) (f : Apc → Apc) : (h.modApc f).datB = h.datB := rfl
@[simp] theorem Hw.modApc_trv (h : Hw) (f : Apc → Apc) : (h.modApc f).trv = h.trv := rfl
@[simp] theorem Hw.modApc_get (h : Hw) (f : Apc → Apc) (x : Fld) : (h.modApc f).get x = h.get x := rfl
@[simp] theorem Hw.modApc_on (h : Hw) (f : Apc → Apc) (x : Fld) : (h.modApc f).on x = h.on x := rfl
@[simp] theorem Hw.modApc_now (h : Hw) (f : Apc → Apc) : (h.modApc f).now = h.now := rfl
@[simp] theorem Hw.modApc_mode (h : Hw) (f : Apc → Apc) : (h.modApc f).mode = h.mode := rfl
@[simp] theorem Hw.modApc_tile (h : Hw) (f : Apc → Apc) (u : Nat) : (h.modApc f).tile u = h.tile u := rfl
@[simp] theorem Hw.modApc_queue (h : Hw) (f : Apc → Apc) (u w : Nat) : (h.modApc f).queue u w = h.queue u w := rfl
@[simp] theorem Hw.modApc_part (h : Hw) (f : Apc → Apc) (u : Nat) : (h.modApc f).part u = h.part u := rfl
@[simp] theorem Hw.modApc_cmd (h : Hw) (f : Apc → Apc) (u w x : Nat) : (h.modApc f).cmd? u w x = h.cmd? u w x := rfl

@[simp] theorem Hw.modArb_regs (h : Hw) (i : Nat) (f : Arb → Arb) : (h.modArb i f).regs = h.regs := rfl
@[simp] theorem Hw.modArb_freeIx (h : Hw) (i : Nat) (f : Arb → Arb) : (h.modArb i f).freeIx = h.freeIx := rfl
@[simp] theorem Hw.modArb_rndIx (h : Hw) (i : Nat) (f : Arb → Arb) : (h.modArb i f).rndIx = h.rndIx := rfl
@[simp] theorem Hw.modArb_mem (h : Hw) (i : Nat) (f : Arb → Arb) : (h.modArb i f).mem = h.mem := rfl
@[simp] theorem Hw.modArb_parts (h : Hw) (i : Nat) (f : Arb → Arb) : (h.modArb i f).parts = h.parts := rfl
@[simp] theorem Hw.modArb_cmds (h : Hw) (i : Nat) (f : Arb → Arb) : (h.modArb i f).cmds = h.cmds := rfl
@[simp] theorem Hw.modArb_fetched (h : Hw) (i : Nat) (f : Arb → Arb) : (h.modArb i f).fetched = h.fetched := rfl
@[simp] theorem Hw.modArb_mram (h : Hw) (i : Nat) (f : Arb → Arb) : (h.modArb i f).mram = h.mram := rfl
@[simp] theorem Hw.modArb_sobs (h : Hw) (i : Nat) (f : Arb → Arb) : (h.modArb i f).sobs = h.sobs := rfl
@[simp] theorem Hw.modArb_watches (h : Hw) (i : Nat) (f : Arb → Arb) : (h.modArb i f).watches = h.watches := rfl
@[simp] theorem Hw.modArb_evt (h : Hw) (i : Nat) (f : Arb → Arb) : (h.modArb i f).evt = h.evt := rfl
@[simp] theorem Hw.modArb_stn (h : Hw) (i : Nat) (f : Arb → Arb) : (h.modArb i f).stn = h.stn := rfl
@[simp] theorem Hw.modArb_vec (h : Hw) (i : Nat) (f : Arb → Arb) : (h.modArb i f).vec = h.vec := rfl
@[simp] theorem Hw.modArb_tiles (h : Hw) (i : Nat) (f : Arb → Arb) : (h.modArb i f).tiles = h.tiles := rfl
@[simp] theorem Hw.modArb_fab (h : Hw) (i : Nat) (f : Arb → Arb) : (h.modArb i f).fab = h.fab := rfl
@[simp] theorem Hw.modArb_models (h : Hw) (i : Nat) (f : Arb → Arb) : (h.modArb i f).models = h.models := rfl
@[simp] theorem Hw.modArb_jobs (h : Hw) (i : Nat) (f : Arb → Arb) : (h.modArb i f).jobs = h.jobs := rfl
@[simp] theorem Hw.modArb_dup (h : Hw) (i : Nat) (f : Arb → Arb) : (h.modArb i f).dup = h.dup := rfl
@[simp] theorem Hw.modArb_kv (h : Hw) (i : Nat) (f : Arb → Arb) : (h.modArb i f).kv = h.kv := rfl
@[simp] theorem Hw.modArb_cfg (h : Hw) (i : Nat) (f : Arb → Arb) : (h.modArb i f).cfg = h.cfg := rfl
@[simp] theorem Hw.modArb_msix (h : Hw) (i : Nat) (f : Arb → Arb) : (h.modArb i f).msix = h.msix := rfl
@[simp] theorem Hw.modArb_gfiles (h : Hw) (i : Nat) (f : Arb → Arb) : (h.modArb i f).gfiles = h.gfiles := rfl
@[simp] theorem Hw.modArb_outs (h : Hw) (i : Nat) (f : Arb → Arb) : (h.modArb i f).outs = h.outs := rfl
@[simp] theorem Hw.modArb_health (h : Hw) (i : Nat) (f : Arb → Arb) : (h.modArb i f).health = h.health := rfl
@[simp] theorem Hw.modArb_scores (h : Hw) (i : Nat) (f : Arb → Arb) : (h.modArb i f).scores = h.scores := rfl
@[simp] theorem Hw.modArb_watch (h : Hw) (i : Nat) (f : Arb → Arb) : (h.modArb i f).watch = h.watch := rfl
@[simp] theorem Hw.modArb_advised (h : Hw) (i : Nat) (f : Arb → Arb) : (h.modArb i f).advised = h.advised := rfl
@[simp] theorem Hw.modArb_healthAt (h : Hw) (i : Nat) (f : Arb → Arb) : (h.modArb i f).healthAt = h.healthAt := rfl
@[simp] theorem Hw.modArb_coatLog (h : Hw) (i : Nat) (f : Arb → Arb) : (h.modArb i f).coatLog = h.coatLog := rfl
@[simp] theorem Hw.modArb_freezeReq (h : Hw) (i : Nat) (f : Arb → Arb) : (h.modArb i f).freezeReq = h.freezeReq := rfl
@[simp] theorem Hw.modArb_seqStopped (h : Hw) (i : Nat) (f : Arb → Arb) : (h.modArb i f).seqStopped = h.seqStopped := rfl
@[simp] theorem Hw.modArb_detected (h : Hw) (i : Nat) (f : Arb → Arb) : (h.modArb i f).detected = h.detected := rfl
@[simp] theorem Hw.modArb_dfin (h : Hw) (i : Nat) (f : Arb → Arb) : (h.modArb i f).dfin = h.dfin := rfl
@[simp] theorem Hw.modArb_ing (h : Hw) (i : Nat) (f : Arb → Arb) : (h.modArb i f).ing = h.ing := rfl
@[simp] theorem Hw.modArb_fus (h : Hw) (i : Nat) (f : Arb → Arb) : (h.modArb i f).fus = h.fus := rfl
@[simp] theorem Hw.modArb_datA (h : Hw) (i : Nat) (f : Arb → Arb) : (h.modArb i f).datA = h.datA := rfl
@[simp] theorem Hw.modArb_datB (h : Hw) (i : Nat) (f : Arb → Arb) : (h.modArb i f).datB = h.datB := rfl
@[simp] theorem Hw.modArb_trv (h : Hw) (i : Nat) (f : Arb → Arb) : (h.modArb i f).trv = h.trv := rfl
@[simp] theorem Hw.modArb_get (h : Hw) (i : Nat) (f : Arb → Arb) (x : Fld) : (h.modArb i f).get x = h.get x := rfl
@[simp] theorem Hw.modArb_on (h : Hw) (i : Nat) (f : Arb → Arb) (x : Fld) : (h.modArb i f).on x = h.on x := rfl
@[simp] theorem Hw.modArb_now (h : Hw) (i : Nat) (f : Arb → Arb) : (h.modArb i f).now = h.now := rfl
@[simp] theorem Hw.modArb_mode (h : Hw) (i : Nat) (f : Arb → Arb) : (h.modArb i f).mode = h.mode := rfl
@[simp] theorem Hw.modArb_tile (h : Hw) (i : Nat) (f : Arb → Arb) (u : Nat) : (h.modArb i f).tile u = h.tile u := rfl
@[simp] theorem Hw.modArb_queue (h : Hw) (i : Nat) (f : Arb → Arb) (u w : Nat) : (h.modArb i f).queue u w = h.queue u w := rfl
@[simp] theorem Hw.modArb_part (h : Hw) (i : Nat) (f : Arb → Arb) (u : Nat) : (h.modArb i f).part u = h.part u := rfl
@[simp] theorem Hw.modArb_cmd (h : Hw) (i : Nat) (f : Arb → Arb) (u w x : Nat) : (h.modArb i f).cmd? u w x = h.cmd? u w x := rfl

@[simp] theorem Hw.post1_regs (h : Hw) (m : Msg) : (h.post1 m).regs = h.regs := rfl
@[simp] theorem Hw.post1_freeIx (h : Hw) (m : Msg) : (h.post1 m).freeIx = h.freeIx := rfl
@[simp] theorem Hw.post1_rndIx (h : Hw) (m : Msg) : (h.post1 m).rndIx = h.rndIx := rfl
@[simp] theorem Hw.post1_mem (h : Hw) (m : Msg) : (h.post1 m).mem = h.mem := rfl
@[simp] theorem Hw.post1_parts (h : Hw) (m : Msg) : (h.post1 m).parts = h.parts := rfl
@[simp] theorem Hw.post1_cmds (h : Hw) (m : Msg) : (h.post1 m).cmds = h.cmds := rfl
@[simp] theorem Hw.post1_fetched (h : Hw) (m : Msg) : (h.post1 m).fetched = h.fetched := rfl
@[simp] theorem Hw.post1_mram (h : Hw) (m : Msg) : (h.post1 m).mram = h.mram := rfl
@[simp] theorem Hw.post1_sobs (h : Hw) (m : Msg) : (h.post1 m).sobs = h.sobs := rfl
@[simp] theorem Hw.post1_watches (h : Hw) (m : Msg) : (h.post1 m).watches = h.watches := rfl
@[simp] theorem Hw.post1_evt (h : Hw) (m : Msg) : (h.post1 m).evt = h.evt := rfl
@[simp] theorem Hw.post1_stn (h : Hw) (m : Msg) : (h.post1 m).stn = h.stn := rfl
@[simp] theorem Hw.post1_vec (h : Hw) (m : Msg) : (h.post1 m).vec = h.vec := rfl
@[simp] theorem Hw.post1_tiles (h : Hw) (m : Msg) : (h.post1 m).tiles = h.tiles := rfl
@[simp] theorem Hw.post1_models (h : Hw) (m : Msg) : (h.post1 m).models = h.models := rfl
@[simp] theorem Hw.post1_jobs (h : Hw) (m : Msg) : (h.post1 m).jobs = h.jobs := rfl
@[simp] theorem Hw.post1_dup (h : Hw) (m : Msg) : (h.post1 m).dup = h.dup := rfl
@[simp] theorem Hw.post1_kv (h : Hw) (m : Msg) : (h.post1 m).kv = h.kv := rfl
@[simp] theorem Hw.post1_cfg (h : Hw) (m : Msg) : (h.post1 m).cfg = h.cfg := rfl
@[simp] theorem Hw.post1_msix (h : Hw) (m : Msg) : (h.post1 m).msix = h.msix := rfl
@[simp] theorem Hw.post1_gfiles (h : Hw) (m : Msg) : (h.post1 m).gfiles = h.gfiles := rfl
@[simp] theorem Hw.post1_outs (h : Hw) (m : Msg) : (h.post1 m).outs = h.outs := rfl
@[simp] theorem Hw.post1_health (h : Hw) (m : Msg) : (h.post1 m).health = h.health := rfl
@[simp] theorem Hw.post1_scores (h : Hw) (m : Msg) : (h.post1 m).scores = h.scores := rfl
@[simp] theorem Hw.post1_watch (h : Hw) (m : Msg) : (h.post1 m).watch = h.watch := rfl
@[simp] theorem Hw.post1_advised (h : Hw) (m : Msg) : (h.post1 m).advised = h.advised := rfl
@[simp] theorem Hw.post1_healthAt (h : Hw) (m : Msg) : (h.post1 m).healthAt = h.healthAt := rfl
@[simp] theorem Hw.post1_coatLog (h : Hw) (m : Msg) : (h.post1 m).coatLog = h.coatLog := rfl
@[simp] theorem Hw.post1_freezeReq (h : Hw) (m : Msg) : (h.post1 m).freezeReq = h.freezeReq := rfl
@[simp] theorem Hw.post1_seqStopped (h : Hw) (m : Msg) : (h.post1 m).seqStopped = h.seqStopped := rfl
@[simp] theorem Hw.post1_detected (h : Hw) (m : Msg) : (h.post1 m).detected = h.detected := rfl
@[simp] theorem Hw.post1_dfin (h : Hw) (m : Msg) : (h.post1 m).dfin = h.dfin := rfl
@[simp] theorem Hw.post1_ing (h : Hw) (m : Msg) : (h.post1 m).ing = h.ing := rfl
@[simp] theorem Hw.post1_fus (h : Hw) (m : Msg) : (h.post1 m).fus = h.fus := rfl
@[simp] theorem Hw.post1_datA (h : Hw) (m : Msg) : (h.post1 m).datA = h.datA := rfl
@[simp] theorem Hw.post1_datB (h : Hw) (m : Msg) : (h.post1 m).datB = h.datB := rfl
@[simp] theorem Hw.post1_trv (h : Hw) (m : Msg) : (h.post1 m).trv = h.trv := rfl
@[simp] theorem Hw.post1_sys (h : Hw) (m : Msg) : (h.post1 m).sys = h.sys := rfl
@[simp] theorem Hw.post1_get (h : Hw) (m : Msg) (x : Fld) : (h.post1 m).get x = h.get x := rfl
@[simp] theorem Hw.post1_on (h : Hw) (m : Msg) (x : Fld) : (h.post1 m).on x = h.on x := rfl
@[simp] theorem Hw.post1_now (h : Hw) (m : Msg) : (h.post1 m).now = h.now := rfl
@[simp] theorem Hw.post1_mode (h : Hw) (m : Msg) : (h.post1 m).mode = h.mode := rfl
@[simp] theorem Hw.post1_tile (h : Hw) (m : Msg) (u : Nat) : (h.post1 m).tile u = h.tile u := rfl
@[simp] theorem Hw.post1_queue (h : Hw) (m : Msg) (u w : Nat) : (h.post1 m).queue u w = h.queue u w := rfl
@[simp] theorem Hw.post1_part (h : Hw) (m : Msg) (u : Nat) : (h.post1 m).part u = h.part u := rfl
@[simp] theorem Hw.post1_cmd (h : Hw) (m : Msg) (u w x : Nat) : (h.post1 m).cmd? u w x = h.cmd? u w x := rfl

@[simp] theorem Hw.setSeq_regs (h : Hw) (p n : Nat) (s : SeqRec) : (h.setSeq p n s).regs = h.regs := rfl
@[simp] theorem Hw.setSeq_freeIx (h : Hw) (p n : Nat) (s : SeqRec) : (h.setSeq p n s).freeIx = h.freeIx := rfl
@[simp] theorem Hw.setSeq_rndIx (h : Hw) (p n : Nat) (s : SeqRec) : (h.setSeq p n s).rndIx = h.rndIx := rfl
@[simp] theorem Hw.setSeq_mem (h : Hw) (p n : Nat) (s : SeqRec) : (h.setSeq p n s).mem = h.mem := rfl
@[simp] theorem Hw.setSeq_parts (h : Hw) (p n : Nat) (s : SeqRec) : (h.setSeq p n s).parts = h.parts := rfl
@[simp] theorem Hw.setSeq_cmds (h : Hw) (p n : Nat) (s : SeqRec) : (h.setSeq p n s).cmds = h.cmds := rfl
@[simp] theorem Hw.setSeq_fetched (h : Hw) (p n : Nat) (s : SeqRec) : (h.setSeq p n s).fetched = h.fetched := rfl
@[simp] theorem Hw.setSeq_mram (h : Hw) (p n : Nat) (s : SeqRec) : (h.setSeq p n s).mram = h.mram := rfl
@[simp] theorem Hw.setSeq_sobs (h : Hw) (p n : Nat) (s : SeqRec) : (h.setSeq p n s).sobs = h.sobs := rfl
@[simp] theorem Hw.setSeq_watches (h : Hw) (p n : Nat) (s : SeqRec) : (h.setSeq p n s).watches = h.watches := rfl
@[simp] theorem Hw.setSeq_evt (h : Hw) (p n : Nat) (s : SeqRec) : (h.setSeq p n s).evt = h.evt := rfl
@[simp] theorem Hw.setSeq_stn (h : Hw) (p n : Nat) (s : SeqRec) : (h.setSeq p n s).stn = h.stn := rfl
@[simp] theorem Hw.setSeq_vec (h : Hw) (p n : Nat) (s : SeqRec) : (h.setSeq p n s).vec = h.vec := rfl
@[simp] theorem Hw.setSeq_tiles (h : Hw) (p n : Nat) (s : SeqRec) : (h.setSeq p n s).tiles = h.tiles := rfl
@[simp] theorem Hw.setSeq_fab (h : Hw) (p n : Nat) (s : SeqRec) : (h.setSeq p n s).fab = h.fab := rfl
@[simp] theorem Hw.setSeq_models (h : Hw) (p n : Nat) (s : SeqRec) : (h.setSeq p n s).models = h.models := rfl
@[simp] theorem Hw.setSeq_jobs (h : Hw) (p n : Nat) (s : SeqRec) : (h.setSeq p n s).jobs = h.jobs := rfl
@[simp] theorem Hw.setSeq_dup (h : Hw) (p n : Nat) (s : SeqRec) : (h.setSeq p n s).dup = h.dup := rfl
@[simp] theorem Hw.setSeq_cfg (h : Hw) (p n : Nat) (s : SeqRec) : (h.setSeq p n s).cfg = h.cfg := rfl
@[simp] theorem Hw.setSeq_msix (h : Hw) (p n : Nat) (s : SeqRec) : (h.setSeq p n s).msix = h.msix := rfl
@[simp] theorem Hw.setSeq_gfiles (h : Hw) (p n : Nat) (s : SeqRec) : (h.setSeq p n s).gfiles = h.gfiles := rfl
@[simp] theorem Hw.setSeq_outs (h : Hw) (p n : Nat) (s : SeqRec) : (h.setSeq p n s).outs = h.outs := rfl
@[simp] theorem Hw.setSeq_health (h : Hw) (p n : Nat) (s : SeqRec) : (h.setSeq p n s).health = h.health := rfl
@[simp] theorem Hw.setSeq_scores (h : Hw) (p n : Nat) (s : SeqRec) : (h.setSeq p n s).scores = h.scores := rfl
@[simp] theorem Hw.setSeq_watch (h : Hw) (p n : Nat) (s : SeqRec) : (h.setSeq p n s).watch = h.watch := rfl
@[simp] theorem Hw.setSeq_advised (h : Hw) (p n : Nat) (s : SeqRec) : (h.setSeq p n s).advised = h.advised := rfl
@[simp] theorem Hw.setSeq_healthAt (h : Hw) (p n : Nat) (s : SeqRec) : (h.setSeq p n s).healthAt = h.healthAt := rfl
@[simp] theorem Hw.setSeq_coatLog (h : Hw) (p n : Nat) (s : SeqRec) : (h.setSeq p n s).coatLog = h.coatLog := rfl
@[simp] theorem Hw.setSeq_freezeReq (h : Hw) (p n : Nat) (s : SeqRec) : (h.setSeq p n s).freezeReq = h.freezeReq := rfl
@[simp] theorem Hw.setSeq_seqStopped (h : Hw) (p n : Nat) (s : SeqRec) : (h.setSeq p n s).seqStopped = h.seqStopped := rfl
@[simp] theorem Hw.setSeq_detected (h : Hw) (p n : Nat) (s : SeqRec) : (h.setSeq p n s).detected = h.detected := rfl
@[simp] theorem Hw.setSeq_dfin (h : Hw) (p n : Nat) (s : SeqRec) : (h.setSeq p n s).dfin = h.dfin := rfl
@[simp] theorem Hw.setSeq_ing (h : Hw) (p n : Nat) (s : SeqRec) : (h.setSeq p n s).ing = h.ing := rfl
@[simp] theorem Hw.setSeq_fus (h : Hw) (p n : Nat) (s : SeqRec) : (h.setSeq p n s).fus = h.fus := rfl
@[simp] theorem Hw.setSeq_datA (h : Hw) (p n : Nat) (s : SeqRec) : (h.setSeq p n s).datA = h.datA := rfl
@[simp] theorem Hw.setSeq_datB (h : Hw) (p n : Nat) (s : SeqRec) : (h.setSeq p n s).datB = h.datB := rfl
@[simp] theorem Hw.setSeq_trv (h : Hw) (p n : Nat) (s : SeqRec) : (h.setSeq p n s).trv = h.trv := rfl
@[simp] theorem Hw.setSeq_sys (h : Hw) (p n : Nat) (s : SeqRec) : (h.setSeq p n s).sys = h.sys := rfl
@[simp] theorem Hw.setSeq_get (h : Hw) (p n : Nat) (s : SeqRec) (x : Fld) : (h.setSeq p n s).get x = h.get x := rfl
@[simp] theorem Hw.setSeq_on (h : Hw) (p n : Nat) (s : SeqRec) (x : Fld) : (h.setSeq p n s).on x = h.on x := rfl
@[simp] theorem Hw.setSeq_now (h : Hw) (p n : Nat) (s : SeqRec) : (h.setSeq p n s).now = h.now := rfl
@[simp] theorem Hw.setSeq_mode (h : Hw) (p n : Nat) (s : SeqRec) : (h.setSeq p n s).mode = h.mode := rfl
@[simp] theorem Hw.setSeq_tile (h : Hw) (p n : Nat) (s : SeqRec) (u : Nat) : (h.setSeq p n s).tile u = h.tile u := rfl
@[simp] theorem Hw.setSeq_queue (h : Hw) (p n : Nat) (s : SeqRec) (u w : Nat) : (h.setSeq p n s).queue u w = h.queue u w := rfl
@[simp] theorem Hw.setSeq_part (h : Hw) (p n : Nat) (s : SeqRec) (u : Nat) : (h.setSeq p n s).part u = h.part u := rfl
@[simp] theorem Hw.setSeq_cmd (h : Hw) (p n : Nat) (s : SeqRec) (u w x : Nat) : (h.setSeq p n s).cmd? u w x = h.cmd? u w x := rfl

@[simp] theorem Hw.setSheet_regs (h : Hw) (n : Nat) (r : SheetRec) : (h.setSheet n r).regs = h.regs := rfl
@[simp] theorem Hw.setSheet_freeIx (h : Hw) (n : Nat) (r : SheetRec) : (h.setSheet n r).freeIx = h.freeIx := rfl
@[simp] theorem Hw.setSheet_rndIx (h : Hw) (n : Nat) (r : SheetRec) : (h.setSheet n r).rndIx = h.rndIx := rfl
@[simp] theorem Hw.setSheet_mem (h : Hw) (n : Nat) (r : SheetRec) : (h.setSheet n r).mem = h.mem := rfl
@[simp] theorem Hw.setSheet_parts (h : Hw) (n : Nat) (r : SheetRec) : (h.setSheet n r).parts = h.parts := rfl
@[simp] theorem Hw.setSheet_cmds (h : Hw) (n : Nat) (r : SheetRec) : (h.setSheet n r).cmds = h.cmds := rfl
@[simp] theorem Hw.setSheet_fetched (h : Hw) (n : Nat) (r : SheetRec) : (h.setSheet n r).fetched = h.fetched := rfl
@[simp] theorem Hw.setSheet_mram (h : Hw) (n : Nat) (r : SheetRec) : (h.setSheet n r).mram = h.mram := rfl
@[simp] theorem Hw.setSheet_sobs (h : Hw) (n : Nat) (r : SheetRec) : (h.setSheet n r).sobs = h.sobs := rfl
@[simp] theorem Hw.setSheet_watches (h : Hw) (n : Nat) (r : SheetRec) : (h.setSheet n r).watches = h.watches := rfl
@[simp] theorem Hw.setSheet_evt (h : Hw) (n : Nat) (r : SheetRec) : (h.setSheet n r).evt = h.evt := rfl
@[simp] theorem Hw.setSheet_stn (h : Hw) (n : Nat) (r : SheetRec) : (h.setSheet n r).stn = h.stn := rfl
@[simp] theorem Hw.setSheet_vec (h : Hw) (n : Nat) (r : SheetRec) : (h.setSheet n r).vec = h.vec := rfl
@[simp] theorem Hw.setSheet_tiles (h : Hw) (n : Nat) (r : SheetRec) : (h.setSheet n r).tiles = h.tiles := rfl
@[simp] theorem Hw.setSheet_fab (h : Hw) (n : Nat) (r : SheetRec) : (h.setSheet n r).fab = h.fab := rfl
@[simp] theorem Hw.setSheet_models (h : Hw) (n : Nat) (r : SheetRec) : (h.setSheet n r).models = h.models := rfl
@[simp] theorem Hw.setSheet_jobs (h : Hw) (n : Nat) (r : SheetRec) : (h.setSheet n r).jobs = h.jobs := rfl
@[simp] theorem Hw.setSheet_dup (h : Hw) (n : Nat) (r : SheetRec) : (h.setSheet n r).dup = h.dup := rfl
@[simp] theorem Hw.setSheet_cfg (h : Hw) (n : Nat) (r : SheetRec) : (h.setSheet n r).cfg = h.cfg := rfl
@[simp] theorem Hw.setSheet_msix (h : Hw) (n : Nat) (r : SheetRec) : (h.setSheet n r).msix = h.msix := rfl
@[simp] theorem Hw.setSheet_gfiles (h : Hw) (n : Nat) (r : SheetRec) : (h.setSheet n r).gfiles = h.gfiles := rfl
@[simp] theorem Hw.setSheet_outs (h : Hw) (n : Nat) (r : SheetRec) : (h.setSheet n r).outs = h.outs := rfl
@[simp] theorem Hw.setSheet_health (h : Hw) (n : Nat) (r : SheetRec) : (h.setSheet n r).health = h.health := rfl
@[simp] theorem Hw.setSheet_scores (h : Hw) (n : Nat) (r : SheetRec) : (h.setSheet n r).scores = h.scores := rfl
@[simp] theorem Hw.setSheet_watch (h : Hw) (n : Nat) (r : SheetRec) : (h.setSheet n r).watch = h.watch := rfl
@[simp] theorem Hw.setSheet_advised (h : Hw) (n : Nat) (r : SheetRec) : (h.setSheet n r).advised = h.advised := rfl
@[simp] theorem Hw.setSheet_healthAt (h : Hw) (n : Nat) (r : SheetRec) : (h.setSheet n r).healthAt = h.healthAt := rfl
@[simp] theorem Hw.setSheet_coatLog (h : Hw) (n : Nat) (r : SheetRec) : (h.setSheet n r).coatLog = h.coatLog := rfl
@[simp] theorem Hw.setSheet_freezeReq (h : Hw) (n : Nat) (r : SheetRec) : (h.setSheet n r).freezeReq = h.freezeReq := rfl
@[simp] theorem Hw.setSheet_seqStopped (h : Hw) (n : Nat) (r : SheetRec) : (h.setSheet n r).seqStopped = h.seqStopped := rfl
@[simp] theorem Hw.setSheet_detected (h : Hw) (n : Nat) (r : SheetRec) : (h.setSheet n r).detected = h.detected := rfl
@[simp] theorem Hw.setSheet_dfin (h : Hw) (n : Nat) (r : SheetRec) : (h.setSheet n r).dfin = h.dfin := rfl
@[simp] theorem Hw.setSheet_ing (h : Hw) (n : Nat) (r : SheetRec) : (h.setSheet n r).ing = h.ing := rfl
@[simp] theorem Hw.setSheet_fus (h : Hw) (n : Nat) (r : SheetRec) : (h.setSheet n r).fus = h.fus := rfl
@[simp] theorem Hw.setSheet_datA (h : Hw) (n : Nat) (r : SheetRec) : (h.setSheet n r).datA = h.datA := rfl
@[simp] theorem Hw.setSheet_datB (h : Hw) (n : Nat) (r : SheetRec) : (h.setSheet n r).datB = h.datB := rfl
@[simp] theorem Hw.setSheet_trv (h : Hw) (n : Nat) (r : SheetRec) : (h.setSheet n r).trv = h.trv := rfl
@[simp] theorem Hw.setSheet_sys (h : Hw) (n : Nat) (r : SheetRec) : (h.setSheet n r).sys = h.sys := rfl
@[simp] theorem Hw.setSheet_get (h : Hw) (n : Nat) (r : SheetRec) (x : Fld) : (h.setSheet n r).get x = h.get x := rfl
@[simp] theorem Hw.setSheet_on (h : Hw) (n : Nat) (r : SheetRec) (x : Fld) : (h.setSheet n r).on x = h.on x := rfl
@[simp] theorem Hw.setSheet_now (h : Hw) (n : Nat) (r : SheetRec) : (h.setSheet n r).now = h.now := rfl
@[simp] theorem Hw.setSheet_mode (h : Hw) (n : Nat) (r : SheetRec) : (h.setSheet n r).mode = h.mode := rfl
@[simp] theorem Hw.setSheet_tile (h : Hw) (n : Nat) (r : SheetRec) (u : Nat) : (h.setSheet n r).tile u = h.tile u := rfl
@[simp] theorem Hw.setSheet_queue (h : Hw) (n : Nat) (r : SheetRec) (u w : Nat) : (h.setSheet n r).queue u w = h.queue u w := rfl
@[simp] theorem Hw.setSheet_part (h : Hw) (n : Nat) (r : SheetRec) (u : Nat) : (h.setSheet n r).part u = h.part u := rfl
@[simp] theorem Hw.setSheet_cmd (h : Hw) (n : Nat) (r : SheetRec) (u w x : Nat) : (h.setSheet n r).cmd? u w x = h.cmd? u w x := rfl

/-- The tile that was changed. -/
@[simp] theorem Hw.modTile_tile_same (h : Hw) (t : Nat) (f : Tile → Tile) : (h.modTile t f).tile t = f (h.tile t) := by
  simp [Hw.modTile, Hw.tile]

/-- Every other tile is as before. -/
theorem Hw.modTile_tile_ne (h : Hw) {t u : Nat} (f : Tile → Tile) (hu : t ≠ u) : (h.modTile t f).tile u = h.tile u := by
  simp [Hw.modTile, Hw.tile, SMap.getD_putD_ne _ _ _ hu]

theorem Hw.modTile_tile (h : Hw) (t u : Nat) (f : Tile → Tile) :
    (h.modTile t f).tile u = if t = u then f (h.tile u) else h.tile u := by
  by_cases e : t = u
  · subst e; simp
  · simp [Hw.modTile_tile_ne h f e, e]

@[simp] theorem Hw.modSeq_tile_same (h : Hw) (t : Nat) (f : Seq → Seq) :
    (h.modSeq t f).tile t = { h.tile t with seq := f (h.tile t).seq } := by simp [Hw.modSeq]

theorem Hw.modSeq_tile_ne (h : Hw) {t u : Nat} (f : Seq → Seq) (hu : t ≠ u) : (h.modSeq t f).tile u = h.tile u :=
  Hw.modTile_tile_ne h _ hu

@[simp] theorem Hw.modSlice_tile_same (h : Hw) (t : Nat) (f : Slice → Slice) :
    (h.modSlice t f).tile t = { h.tile t with slice := (h.tile t).slice.map f } := by simp [Hw.modSlice]

theorem Hw.modSlice_tile_ne (h : Hw) {t u : Nat} (f : Slice → Slice) (hu : t ≠ u) : (h.modSlice t f).tile u = h.tile u :=
  Hw.modTile_tile_ne h _ hu

/-- A partition and a queue after a change of a queue. -/
theorem Hw.modQueue_queue (h : Hw) (p q p' q' : Nat) (f : Queue → Queue) :
    (h.modQueue p q f).queue p' q' = if p = p' ∧ q = q' then (h.queue p' q').map f else h.queue p' q' := by
  simp only [Hw.queue, Hw.part, Hw.modQueue, SMap.find_upd]
  by_cases e : p = p'
  · subst e
    cases hp : h.parts.find p with
    | none => simp
    | some x =>
      by_cases e2 : q = q' <;> simp [SMap.find_upd, e2]
  · simp [e]

/-- A command after a change of one. -/
theorem Hw.modCmd_cmd (h : Hw) (p q n p' q' n' : Nat) (f : Cmd → Cmd)
    (hf : ∀ c : Cmd, (f c).pid = c.pid ∧ (f c).queue = c.queue ∧ (f c).num = c.num) :
    (h.modCmd p q n f).cmd? p' q' n' =
      if p = p' ∧ q = q' ∧ n = n' then (h.cmd? p' q' n').map f else h.cmd? p' q' n' := by
  have hs : ∀ c : Cmd, (f c).same p' q' n' = c.same p' q' n' := fun c => by
    obtain ⟨a, b, d⟩ := hf c
    simp [Cmd.same, a, b, d]
  have key : ∀ cs : List Cmd, (cs.map fun c => if c.same p q n then f c else c).find? (fun c => c.same p' q' n') =
      if p = p' ∧ q = q' ∧ n = n' then (cs.find? fun c => c.same p' q' n').map f else cs.find? fun c => c.same p' q' n' := by
    intro cs
    induction cs with
    | nil => simp
    | cons c cs ih =>
      rw [List.map_cons, List.find?_cons, List.find?_cons]
      by_cases e1 : c.same p q n = true
      · rw [if_pos e1, hs]
        by_cases e2 : c.same p' q' n' = true
        · have : p = p' ∧ q = q' ∧ n = n' := by
            simp only [Cmd.same, Bool.and_eq_true, beq_iff_eq] at e1 e2
            omega
          simp [e2, this]
        · simp only [Bool.not_eq_true] at e2
          simp only [e2]; exact ih
      · rw [if_neg e1]
        by_cases e2 : c.same p' q' n' = true
        · have : ¬ (p = p' ∧ q = q' ∧ n = n') := by
            rintro ⟨rfl, rfl, rfl⟩; exact e1 e2
          simp [e2, this]
        · simp only [Bool.not_eq_true] at e2
          simp only [e2]; exact ih
  exact key h.cmds

end Sys2Proof.Machine
end

