-- ==== Sys2Proof/Laws/Issue.lean ====
section
/-! SUPPORT. What a packet command does when it begins at once, and how a command completes. -/

namespace Sys2Proof.Machine

open Sys2Proof

/-- A command that is ready begins: the row's effect on the state in which it has begun. -/
theorem Hw.issue_ready {h : Hw} {sp : OpSpec} {q : QRef} {p : Packet} {qu : Queue} {c : Cmd} (r : Ready h sp q p qu c)
    (eff : Hw → Cmd → Hw) : h.issue sp q p eff = eff (begunHw h sp q qu (rowPacket sp.opc p)) c := by
  obtain ⟨r1, r2, r3, r4, r5, r6, r7, rc, r8, r9, r10, r11, r12⟩ := r
  obtain ⟨g, hg⟩ := Option.isSome_iff_exists.mp rc
  have eg : cameHw h q qu (rowPacket sp.opc p) = g := by rw [cameHw, hg]; rfl
  rw [eg] at r8 r9 r11 r12
  have hn : c.entry = none := by rw [r8]; rfl
  have hp : (mkCmd g q qu (rowPacket sp.opc p) 0).port = c.port := by rw [r8]; rfl
  have hc : mkCmd g q qu (rowPacket sp.opc p) (((g.part q.pid.val).map (·.nextSeq)).getD 1) = c := by
    rw [r8]; rfl
  unfold Hw.issue Hw.takeNext
  simp only [Hw.presents, r1, r2, r3, r4, r6, r7, r5, hg, Hw.judge, r9, hc, r10, Bool.not_true, Bool.not_false, Bool.and_self,
    Bool.false_eq_true, if_false]
  simp only [r11, Option.any, Cmd.complete, hn, begunHw, takenHw, eg, ← r8, Hw.begins, r12, r10]
  simp

/-- A command that begins does not change which commands have begun. -/
theorem Hw.startCount_modCmd (h : Hw) (p q n t : Nat) (f : Cmd → Cmd) (x : Cmd) (hx : h.cmd? p q n = some x)
    (hs : ∀ y, (f y).pid = y.pid ∧ (f y).queue = y.queue ∧ (f y).num = y.num) (hb : (f x).begun = x.begun) (k a : Nat) :
    (h.modCmd p q n f).startCount p q t k a = h.startCount p q t k a := by
  induction k generalizing a with
  | zero => rfl
  | succ k ih =>
    unfold Hw.startCount
    have e : ((h.modCmd p q n f).cmd? p q a).all (·.begun) = (h.cmd? p q a).all (·.begun) := by
      rw [Hw.modCmd_cmd _ _ _ _ _ _ _ _ hs]
      split
      · next g =>
        obtain ⟨-, -, rfl⟩ := g
        rw [hx]; simp [hb]
      · rfl
    rw [e, ih]

/-- A finished command holds its entry; one that is complete already keeps the entry it has (R207). -/
theorem Hw.finish_cmd (h : Hw) (c x : Cmd) (st r d : Nat) (hx : h.cmd? c.pid c.queue c.num = some x) :
    (h.finish c st r d).cmd? c.pid c.queue c.num =
      some (if x.entry.isSome then x
        else { x with begun := true, finishAt := h.now, entry := some (x.mkEntry h.now st r d {}) }) := by
  unfold Hw.finish Hw.finishAt Hw.countStarted
  rw [Hw.modQueue_cmd, Hw.modCmd_cmd]
  · simp only [and_self, if_true, hx, Option.map]
  · intro y
    split <;> exact ⟨rfl, rfl, rfl⟩

end Sys2Proof.Machine
end

