-- ==== Sys2Proof/Laws/Effects.lean ====
section
/-! SUPPORT. What the shared operations leave alone: `mute` forgets what raising events and counting errors
may change, `calm` also what reading and writing memory may change; a shared operation keeps what stays. -/

namespace Sys2Proof.Machine

open Sys2Proof

theorem Hw.calm_of_mute {a b : Hw} (e : a.mute = b.mute) : a.calm = b.calm := congrArg Hw.quell e

/-- Folding a step that keeps something keeps it. -/
theorem foldl_keeps {α β γ : Type} (P : α → γ) (f : α → β → α) (hf : ∀ a x, P (f a x) = P a) (l : List β) (a : α) :
    P (l.foldl f a) = P a := by
  induction l generalizing a with
  | nil => rfl
  | cons x l ih => rw [List.foldl_cons, ih, hf]

@[simp] theorem Hw.mute_setReg (h : Hw) (b o v : Nat) : (h.setReg b o v).mute = h.mute := rfl
@[simp] theorem Hw.mute_put (h : Hw) (f : Fld) (v : Nat) : (h.put f v).mute = h.mute := rfl
@[simp] theorem Hw.mute_addSat (h : Hw) (f : Fld) (n : Nat) : (h.addSat f n).mute = h.mute := Hw.mute_put _ _ _
@[simp] theorem Hw.mute_addWrap (h : Hw) (f : Fld) (n : Nat) : (h.addWrap f n).mute = h.mute := Hw.mute_put _ _ _
@[simp] theorem Hw.mute_raiseBit (h : Hw) (f : Fld) (n : Nat) : (h.raiseBit f n).mute = h.mute := Hw.mute_put _ _ _
@[simp] theorem Hw.mute_free (h : Hw) : h.free.2.mute = h.mute := rfl
@[simp] theorem Hw.mute_setTrace (h : Hw) (t : Trace) : (h.setTrace t).mute = h.mute := rfl
@[simp] theorem Hw.mute_setStaged (h : Hw) (s : Nat) (q : List EvtEntry) : (h.setStaged s q).mute = h.mute := rfl
@[simp] theorem Hw.mute_freezeReq (h : Hw) (b : Bool) : ({ h with freezeReq := b } : Hw).mute = h.mute := rfl
@[simp] theorem Hw.mute_evt (h : Hw) (e : EvtSt) : ({ h with evt := e } : Hw).mute = h.mute := rfl
@[simp] theorem Hw.mute_healthAdd (h : Hw) (p i n : Nat) : (h.healthAdd p i n).mute = h.mute := rfl

/-- Taking a trace record. -/
@[simp] theorem Hw.mute_traceAdd (h : Hw) (k p : Nat) (d : List Byte) : (h.traceAdd k p d).mute = h.mute := by
  unfold Hw.traceAdd
  cases h.sys.trace with
  | none => rfl
  | some t =>
    dsimp only
    split
    · rfl
    · split
      · split
        · rw [Hw.mute_put, Hw.mute_addSat]
        · rw [Hw.mute_setTrace, Hw.mute_addWrap, Hw.mute_free]
      · split
        · rw [Hw.mute_put, Hw.mute_addSat]
        · rw [Hw.mute_setTrace, Hw.mute_addWrap, Hw.mute_free]

@[simp] theorem Hw.mute_freezeOnEvent (h : Hw) (s t : Nat) : (h.freezeOnEvent s t).mute = h.mute := by
  unfold Hw.freezeOnEvent
  split
  · exact Hw.mute_freezeReq h true
  · rfl

@[simp] theorem Hw.mute_loseEvents (h : Hw) (s n : Nat) : (h.loseEvents s n).mute = h.mute := by
  simp only [Hw.loseEvents, Hw.mute_put, Hw.mute_addWrap, Hw.mute_evt]

/-- Raising an event (R457, R462). -/
@[simp] theorem Hw.mute_event (h : Hw) (s t p d : Nat) : (h.event s t p d).mute = h.mute := by
  unfold Hw.event
  split
  · simp only [Hw.mute_addWrap]
  · split
    · simp only [Hw.mute_traceAdd, Hw.mute_freezeOnEvent, Hw.mute_put, Hw.mute_setStaged]
    · simp only [Hw.mute_loseEvents]

@[simp] theorem Hw.mute_hairTile (h : Hw) (t : Nat) : (h.hairTile t).mute = h.mute := by
  unfold Hw.hairTile
  dsimp only
  split <;> simp only [Hw.mute_put, Hw.mute_raiseBit, Hw.mute_event, Hw.mute_healthAdd]

@[simp] theorem Hw.mute_hairChannel (h : Hw) (c : Nat) : (h.hairChannel c).mute = h.mute := by
  unfold Hw.hairChannel
  dsimp only
  split <;> simp only [Hw.mute_put, Hw.mute_raiseBit, Hw.mute_event, Hw.mute_healthAdd]

theorem Hw.calm_ite {a b : Hw} {x : Hw} {c : Prop} [Decidable c] (ha : a.calm = x) (hb : b.calm = x) :
    (if c then a else b).calm = x := by
  split
  · exact ha
  · exact hb

theorem Mem.bare_ite {a b x : Mem} {c : Prop} [Decidable c] (ha : a.bare = x) (hb : b.bare = x) :
    (if c then a else b).bare = x := by
  split
  · exact ha
  · exact hb

/-- Everything that counting errors and raising events keeps, memory accesses keep too. -/
@[simp] theorem Hw.calm_put (h : Hw) (f : Fld) (v : Nat) : (h.put f v).calm = h.calm := Hw.calm_of_mute (Hw.mute_put _ _ _)
@[simp] theorem Hw.calm_event (h : Hw) (s t p d : Nat) : (h.event s t p d).calm = h.calm :=
  Hw.calm_of_mute (Hw.mute_event _ _ _ _ _)
@[simp] theorem Hw.calm_detect (h : Hw) (k : Nat) (d : Option Nat) (p : Nat) : (h.detect k d p).calm = h.calm := rfl
@[simp] theorem Hw.calm_modDram (h : Hw) (f : Dram → Dram) : (h.modDram f).calm = h.calm := rfl
theorem Hw.calm_mem (h : Hw) (m : Mem) (e : m.bare = h.mem.bare) : ({ h with mem := m } : Hw).calm = h.calm := by
  have e1 : ({ h with mem := m } : Hw).calm = ({ h.calm with mem := m.bare } : Hw) := rfl
  rw [e1, e]; rfl

@[simp] theorem Hw.calm_queueScrub (h : Hw) (l : Nat) : (h.queueScrub l).calm = h.calm := by
  unfold Hw.queueScrub
  split
  · rfl
  · rw [Hw.calm_modDram]

@[simp] theorem Hw.calm_countCorrected (h : Hw) (c : Nat) : (h.countCorrected c).calm = h.calm := by
  apply Hw.calm_of_mute
  rw [Hw.countCorrected, Hw.mute_hairChannel, Hw.mute_addSat]

@[simp] theorem Hw.calm_countUncorr (h : Hw) (c l : Nat) : (h.countUncorr c l).calm = h.calm := by
  apply Hw.calm_of_mute
  unfold Hw.countUncorr
  dsimp only
  split
  · rw [Hw.mute_event, Hw.mute_put, Hw.mute_addSat]
  · rw [Hw.mute_healthAdd, Hw.mute_event, Hw.mute_put, Hw.mute_addSat]

/-- A read of a line counts and queues (R417, R418). -/
@[simp] theorem Hw.calm_noteRead (h : Hw) (l : Nat) : (h.noteRead l).calm = h.calm := by
  unfold Hw.noteRead
  dsimp only
  split
  · rfl
  · have e : ∀ (c : Prop) [Decidable c], (if c then (h.countCorrected (channelOf (h.mem.place (l * 64)))).queueScrub l
        else h).calm = h.calm := fun c _ =>
      Hw.calm_ite (by rw [Hw.calm_queueScrub, Hw.calm_countCorrected]) rfl
    refine Hw.calm_ite (e _) ?_
    split
    · exact e _
    · split
      · exact e _
      · rw [Hw.calm_queueScrub, Hw.calm_countCorrected]; exact e _
      · rw [Hw.calm_queueScrub, Hw.calm_countUncorr]; exact e _

@[simp] theorem Hw.calm_defineLine (h : Hw) (l : Nat) : (h.defineLine l).calm = h.calm := by
  unfold Hw.defineLine
  split
  · rfl
  · rw [foldl_keeps Hw.calm]
    · exact Hw.calm_mem _ _ rfl
    · intro a x
      exact (Hw.calm_mem a.free.2 _ rfl).trans (Hw.calm_of_mute (Hw.mute_free a))

/-- Reading memory as PID 0. -/
@[simp] theorem Hw.calm_load (h : Hw) (a n : Nat) : (h.load a n).2.2.calm = h.calm := by
  unfold Hw.load
  dsimp only
  rw [foldl_keeps Hw.calm _ (fun b x => Hw.calm_noteRead b x), foldl_keeps Hw.calm _ (fun b x => Hw.calm_defineLine b x)]

@[simp] theorem Mem.bare_setBytes (m : Mem) (a : Nat) (bs : List Byte) : (m.setBytes a bs).bare = m.bare := rfl
@[simp] theorem Mem.bare_addStain (m : Mem) (g : Nat) : (m.addStain g).bare = m.bare := rfl
@[simp] theorem Mem.bare_clearStain (m : Mem) (g : Nat) : (m.clearStain g).bare = m.bare := rfl

@[simp] theorem Mem.bare_writeStain (m : Mem) (a n : Nat) (st : Bool) : (m.writeStain a n st).bare = m.bare := by
  unfold Mem.writeStain
  split
  · apply foldl_keeps Mem.bare
    intro a x; rfl
  · apply foldl_keeps Mem.bare
    intro a x; exact Mem.bare_ite rfl rfl

@[simp] theorem Hw.calm_settleLine (h : Hw) (a n l : Nat) : (h.settleLine a n l).calm = h.calm := by
  unfold Hw.settleLine
  dsimp only
  split
  · rfl
  · rw [Hw.calm_modDram]
    refine Hw.calm_mem h _ ?_
    split
    · apply (foldl_keeps Mem.bare _ _ _ _).trans
      · rfl
      · intro a x; exact Mem.bare_ite rfl rfl
    · rfl

@[simp] theorem Hw.calm_noteStripe (h : Hw) (l : Nat) : (h.noteStripe l).calm = h.calm := by
  unfold Hw.noteStripe
  split
  · rfl
  · rw [Hw.calm_modDram]

theorem Hw.calm_partLine (h : Hw) (a : Nat) (bs : List Byte) (l : Nat) :
    (if bs.length = 64 then
        let p := h.mem.place (l * 64) / 64
        let h := if (h.sys.dram.faults.find p).isSome then h.modDram fun d => { d with faults := d.faults.del p } else h
        if h.mem.lineDefined l then h else { h with mem := { h.mem with written := NSet.add h.mem.written l } }
      else (h.defineLine l).settleLine a bs.length l).calm = h.calm := by
  have e : ∀ (c : Prop) [Decidable c] (f : Dram → Dram), (if c then h.modDram f else h).calm = h.calm := fun c _ f =>
    Hw.calm_ite (Hw.calm_modDram _ _) rfl
  refine Hw.calm_ite ?_ ?_
  · exact Hw.calm_ite (e _ _) ((Hw.calm_mem _ _ rfl).trans (e _ _))
  · rw [Hw.calm_settleLine, Hw.calm_defineLine]

/-- Writing the part of a run that lies in one line. -/
@[simp] theorem Hw.calm_storeLine (h : Hw) (a : Nat) (bs : List Byte) (st : Bool) (l : Nat) :
    (h.storeLine a bs st l).calm = h.calm := by
  unfold Hw.storeLine
  dsimp only
  split
  · rfl
  · rw [Hw.calm_noteStripe]
    refine (Hw.calm_mem _ _ ?_).trans ?_
    · rw [Mem.bare_writeStain, Mem.bare_setBytes]
    · refine Hw.calm_ite ?_ ?_
      · rw [Hw.calm_modDram]
        refine (Hw.calm_mem _ _ ?_).trans ?_
        · apply foldl_keeps Mem.bare
          intro a x; exact Mem.bare_ite rfl rfl
        · exact Hw.calm_partLine h a bs l
      · exact Hw.calm_partLine h a bs l

theorem Hw.calm_storeParts (h : Hw) (a : Nat) (bs : List Byte) (st : Bool) (ps : List (Nat × Nat × Nat)) :
    (h.storeParts a bs st ps).calm = h.calm := by
  induction ps generalizing h a bs with
  | nil => rfl
  | cons p ps ih => unfold Hw.storeParts; rw [ih, Hw.calm_storeLine]

/-- Writing memory as PID 0. -/
@[simp] theorem Hw.calm_store (h : Hw) (a : Nat) (bs : List Byte) (st : Bool) : (h.store a bs st).calm = h.calm :=
  Hw.calm_storeParts _ _ _ _ _

@[simp] theorem Hw.calm_pmmuRecord (h : Hw) (a c p d : Nat) : (h.pmmuRecord a c p d).calm = h.calm := by
  unfold Hw.pmmuRecord
  split
  · rw [Hw.calm_put]
  · rw [Hw.calm_put, Hw.calm_put, Hw.calm_put, Hw.calm_put, Hw.calm_put, Hw.calm_put]

/-- A failed translation (R178). -/
@[simp] theorem Hw.calm_translationFault (h : Hw) (a c p v : Nat) : (h.translationFault a c p v).calm = h.calm := by
  rw [Hw.translationFault, Hw.calm_event, Hw.calm_put, Hw.calm_pmmuRecord]

@[simp] theorem Hw.calm_ownerViolation (h : Hw) (p a : Nat) : (h.ownerViolation p a).calm = h.calm := by
  rw [Hw.ownerViolation, Hw.calm_detect, Hw.calm_event, Hw.calm_put, Hw.calm_pmmuRecord]

@[simp] theorem Hw.calm_portRead (h : Hw) (p a n : Nat) : (h.portRead p a n).2.2.calm = h.calm := by
  unfold Hw.portRead
  split
  · rw [Hw.calm_load]
  · rw [Hw.calm_ownerViolation]

@[simp] theorem Hw.calm_portWrite (h : Hw) (p a : Nat) (bs : List Byte) (st : Bool) :
    (h.portWrite p a bs st).calm = h.calm := by
  unfold Hw.portWrite
  split
  · rw [Hw.calm_store]
  · rw [Hw.calm_ownerViolation]

theorem Hw.calm_readPieces (h : Hw) (p : Nat) (ps : List (Nat × Nat)) : (h.readPieces p ps).2.2.calm = h.calm := by
  induction ps generalizing h with
  | nil => rfl
  | cons e ps ih => obtain ⟨a, n⟩ := e; unfold Hw.readPieces; dsimp only; rw [ih, Hw.calm_portRead]

theorem Hw.calm_writePieces (h : Hw) (p : Nat) (bs : List Byte) (st : Bool) (ps : List (Nat × Nat)) :
    (h.writePieces p bs st ps).calm = h.calm := by
  induction ps generalizing h bs with
  | nil => rfl
  | cons e ps ih => obtain ⟨a, n⟩ := e; unfold Hw.writePieces; rw [ih, Hw.calm_portWrite]

/-- Reading memory by virtual address (R177). -/
@[simp] theorem Hw.calm_readVa (h : Hw) (g p v n : Nat) (acc : Acs) : (h.readVa g p v n acc).2.calm = h.calm := by
  unfold Hw.readVa
  split
  · rw [Hw.calm_translationFault]
  · exact Hw.calm_readPieces _ _ _

/-- Writing memory by virtual address (R177). -/
@[simp] theorem Hw.calm_writeVa (h : Hw) (g p v : Nat) (bs : List Byte) (st : Bool) :
    (h.writeVa g p v bs st).2.calm = h.calm := by
  unfold Hw.writeVa
  split
  · rw [Hw.calm_translationFault]
  · exact Hw.calm_writePieces _ _ _ _ _

/-- Writing a queue's mirror (R196). -/
@[simp] theorem Hw.calm_writeMirror (h : Hw) (p q : Nat) : (h.writeMirror p q).calm = h.calm := by
  unfold Hw.writeMirror
  split
  · rw [Hw.calm_writeVa]
  · rfl

/-- What `calm` keeps, field by field. -/
theorem Hw.calm_keeps {a b : Hw} (e : a.calm = b.calm) :
    a.parts = b.parts ∧ a.cmds = b.cmds ∧ a.fetched = b.fetched ∧ a.mram = b.mram ∧ a.sobs = b.sobs ∧
    a.watches = b.watches ∧ a.stn = b.stn ∧ a.tiles = b.tiles ∧ a.fab = b.fab ∧ a.models = b.models ∧ a.jobs = b.jobs ∧
    a.kv = b.kv ∧ a.cfg = b.cfg ∧ a.ing = b.ing ∧ a.fus = b.fus ∧ a.trv = b.trv ∧ a.outs = b.outs := by
  have k : ∀ {γ : Type} (g : Hw → γ), g a.calm = g b.calm := fun g => congrArg g e
  exact ⟨k (·.parts), k (·.cmds), k (·.fetched), k (·.mram), k (·.sobs), k (·.watches), k (·.stn), k (·.tiles),
    k (·.fab), k (·.models), k (·.jobs), k (·.kv), k (·.cfg), k (·.ing), k (·.fus), k (·.trv), k (·.outs)⟩

/-- Beginning a command marks it begun and leaves every other command as it was. -/
theorem Hw.begin_cmds (h : Hw) (c : Cmd) :
    (h.begin c).cmds = h.cmds.map fun x => if x.same c.pid c.queue c.num then { x with begun := true } else x := by
  have e := Hw.mute_traceAdd (h.modCmd c.pid c.queue c.num fun c => { c with begun := true }) 0 c.pid
    (leBytes 2 c.opc ++ leBytes 6 c.seq)
  exact congrArg (fun h : Hw => h.cmds) e

end Sys2Proof.Machine
end

