-- ==== Sys2Proof/Laws/TileRun.lean ====
section
/-! SUPPORT. How a tile's computations run to their end: `Runs` says that a computation completes and what
then holds, step by step; and what a tile's computation leaves alone. -/

namespace Sys2Proof.Machine

open Sys2Proof

/-- A computation of a tile completes from a state, with a value and a state of which `Q` holds. -/
def Runs {α : Type} (m : T α) (h : Hw) (Q : α → Hw → Prop) : Prop :=
  ∃ a h', m.run h = (.ok a, h') ∧ Q a h'

theorem Runs.mono {α : Type} {m : T α} {h : Hw} {P Q : α → Hw → Prop} (r : Runs m h P)
    (i : ∀ a h', P a h' → Q a h') : Runs m h Q := by
  obtain ⟨a, h', e, p⟩ := r
  exact ⟨a, h', e, i a h' p⟩

theorem runs_pure {α : Type} (a : α) (h : Hw) (Q : α → Hw → Prop) : Runs (pure a) h Q ↔ Q a h := by
  constructor
  · rintro ⟨b, h', e, q⟩
    cases e
    exact q
  · intro q
    exact ⟨a, h, rfl, q⟩

theorem runs_bind {α β : Type} (m : T α) (f : α → T β) (h : Hw) (Q : β → Hw → Prop) :
    Runs (m >>= f) h Q ↔ Runs m h (fun a h' => Runs (f a) h' Q) := by
  have e : (m >>= f).run h = match m.run h with
      | (.ok a, h') => (f a).run h'
      | (.error s, h') => (.error s, h') := by
    show (ExceptT.run (ExceptT.bind m f)) h = _
    unfold ExceptT.bind ExceptT.run ExceptT.mk
    show (ExceptT.bindCont f (m h).1) (m h).2 = _
    cases hm : m h with
    | mk r h' => cases r <;> rfl
  unfold Runs
  rw [e]
  cases hm : m.run h with
  | mk r h' =>
    cases r with
    | error s =>
      constructor
      · rintro ⟨b, h', e, q⟩; cases e
      · rintro ⟨b, h', e, q⟩; cases e
    | ok a =>
      constructor
      · intro r; exact ⟨a, h', rfl, r⟩
      · rintro ⟨b, h2, e, q⟩; cases e; exact q

theorem runs_map {α β : Type} (m : T α) (f : α → β) (h : Hw) (Q : β → Hw → Prop) :
    Runs (f <$> m) h Q ↔ Runs m h (fun a h' => Q (f a) h') := by
  rw [← bind_pure_comp, runs_bind]
  simp only [runs_pure]

theorem runs_get (h : Hw) (Q : Hw → Hw → Prop) : Runs get h Q ↔ Q h h := by
  constructor
  · rintro ⟨b, h', e, q⟩; cases e; exact q
  · intro q; exact ⟨h, h, rfl, q⟩

theorem runs_set (x h : Hw) (Q : PUnit → Hw → Prop) : Runs (set x) h Q ↔ Q ⟨⟩ x := by
  constructor
  · rintro ⟨b, h', e, q⟩; cases e; exact q
  · intro q; exact ⟨⟨⟩, x, rfl, q⟩

theorem runs_modify (f : Hw → Hw) (h : Hw) (Q : PUnit → Hw → Prop) : Runs (modify f) h Q ↔ Q ⟨⟩ (f h) := by
  constructor
  · rintro ⟨b, h', e, q⟩; cases e; exact q
  · intro q; exact ⟨⟨⟩, f h, rfl, q⟩

theorem runs_throw {α : Type} (s : Stop) (h : Hw) (Q : α → Hw → Prop) : Runs (throw s) h Q ↔ False := by
  constructor
  · rintro ⟨b, h', e, q⟩; cases e
  · exact False.elim

theorem runs_need (c : Bool) (s : Stop) (h : Hw) (Q : Unit → Hw → Prop) : Runs (need c s) h Q ↔ c = true ∧ Q () h := by
  unfold need
  cases c <;> simp [runs_pure, runs_throw]

theorem runs_useClean (b : Bool) (h : Hw) (Q : Unit → Hw → Prop) : Runs (useClean b) h Q ↔ b = false ∧ Q () h := by
  unfold useClean
  cases b <;> simp [runs_pure, runs_throw]

theorem runs_ite {α : Type} (c : Prop) [Decidable c] (x y : T α) (h : Hw) (Q : α → Hw → Prop) :
    Runs (if c then x else y) h Q ↔ (c → Runs x h Q) ∧ (¬ c → Runs y h Q) := by
  split <;> simp_all

/-- A loop over a list keeps an invariant. -/
theorem runs_forM {α : Type} (l : List α) (f : α → T PUnit) (h : Hw) (I : Hw → Prop) (i0 : I h)
    (hf : ∀ x ∈ l, ∀ k, I k → Runs (f x) k fun _ k' => I k') : Runs (l.forM f) h fun _ k => I k := by
  induction l generalizing h with
  | nil => exact (runs_pure _ _ _).2 i0
  | cons x l ih =>
    show Runs (f x >>= fun _ => l.forM f) h _
    rw [runs_bind]
    exact (hf x (List.mem_cons_self ..) h i0).mono fun _ k i =>
      ih k i fun y hy => hf y (List.mem_cons_of_mem _ hy)

/-- Computing a value for every element of a list keeps an invariant, and the values have a property each. -/
theorem runs_mapM {α β : Type} (l : List α) (f : α → T β) (h : Hw) (I : Hw → Prop) (P : α → β → Prop) (i0 : I h)
    (hf : ∀ x ∈ l, ∀ k, I k → Runs (f x) k fun y k' => P x y ∧ I k') :
    Runs (l.mapM f) h fun ys k => List.Forall₂ P l ys ∧ I k := by
  induction l generalizing h with
  | nil => rw [List.mapM_nil]; exact (runs_pure _ _ _).2 ⟨.nil, i0⟩
  | cons x l ih =>
    rw [List.mapM_cons, runs_bind]
    refine (hf x (List.mem_cons_self ..) h i0).mono fun y k i => ?_
    rw [runs_bind]
    refine (ih k i.2 fun z hz => hf z (List.mem_cons_of_mem _ hz)).mono fun ys k' i' => ?_
    rw [runs_pure]
    exact ⟨.cons i.1 i'.1, i'.2⟩

/-- Computing values that the state gives without changing it. -/
theorem runs_mapM_pure {α β : Type} (l : List α) (f : α → T β) (g : α → β) (h : Hw) (Q : List β → Hw → Prop)
    (hf : ∀ x ∈ l, ∀ P : β → Hw → Prop, P (g x) h → Runs (f x) h P) (q : Q (l.map g) h) : Runs (l.mapM f) h Q := by
  induction l generalizing Q with
  | nil => rw [List.mapM_nil]; exact (runs_pure _ _ _).2 q
  | cons x l ih =>
    rw [List.mapM_cons, runs_bind]
    refine hf x (List.mem_cons_self ..) _ ?_
    rw [runs_bind]
    refine ih _ (fun z hz => hf z (List.mem_cons_of_mem _ hz)) ?_
    rw [runs_pure]
    exact q

end Sys2Proof.Machine
end

