-- ==== Sys2Proof/Laws/TileFrame.lean ====
section
/-! SUPPORT. What the shared operations of a tile leave alone, and what keeps a tile free of stain. -/

namespace Sys2Proof.Machine

open Sys2Proof

/-- A field of another block keeps its value when a field is set. -/
theorem Hw.get_put_block (h : Hw) (f g : Fld) (v : Nat) (hf : f.off < 0x10000) (hg : g.off < 0x10000)
    (hb : g.block ≠ f.block) : (h.put f v).get g = h.get g := by
  refine Hw.get_put_reg h f g v fun e => hb ?_
  exact ((regKey_inj hf hg).1 e).1.symm

theorem Hw.get_addSat_block (h : Hw) (f g : Fld) (n : Nat) (hf : f.off < 0x10000) (hg : g.off < 0x10000)
    (hb : g.block ≠ f.block) : (h.addSat f n).get g = h.get g := Hw.get_put_block h f g _ hf hg hb

theorem Hw.get_addWrap_block (h : Hw) (f g : Fld) (n : Nat) (hf : f.off < 0x10000) (hg : g.off < 0x10000)
    (hb : g.block ≠ f.block) : (h.addWrap f n).get g = h.get g := Hw.get_put_block h f g _ hf hg hb

theorem Hw.get_traceAdd (h : Hw) (k p : Nat) (d : List Byte) (g : Fld) (hg : g.off < 0x10000) (hb : g.block ≠ 0x7C0) :
    (h.traceAdd k p d).get g = h.get g := by
  unfold Hw.traceAdd
  cases h.sys.trace with
  | none => rfl
  | some t =>
    dsimp only
    generalize (if t.strokeAt = h.now then t.inStroke else 0) = n
    split
    · rfl
    · split
      · rw [Hw.get_put_block _ _ _ _ (by decide) hg hb, Hw.get_addSat_block _ _ _ _ (by decide) hg hb]
      · rw [show ∀ (x : Hw) (t : Trace), (x.setTrace t).get g = x.get g from fun _ _ => rfl,
          Hw.get_addWrap_block _ _ _ _ (by decide) hg hb]
        rfl

theorem Hw.get_loseEvents (h : Hw) (s n : Nat) (g : Fld) (hg : g.off < 0x10000) (hb : g.block ≠ 0x028) :
    (h.loseEvents s n).get g = h.get g := by
  unfold Hw.loseEvents
  rw [Hw.get_put_block _ _ _ _ (by decide) hg hb, Hw.get_addWrap_block _ _ _ _ (by decide) hg hb]
  rfl

theorem Hw.get_freezeOnEvent (h : Hw) (s t : Nat) (g : Fld) : (h.freezeOnEvent s t).get g = h.get g := by
  unfold Hw.freezeOnEvent
  split <;> rfl

/-- Raising an event changes registers of the event log and of the debug block only. -/
theorem Hw.get_event (h : Hw) (s t p d : Nat) (g : Fld) (hg : g.off < 0x10000) (hb : g.block ≠ 0x028) (hc : g.block ≠ 0x7C0) :
    (h.event s t p d).get g = h.get g := by
  unfold Hw.event
  split
  · rw [Hw.get_addWrap_block _ _ _ _ (by decide) hg hb]
  · split
    · dsimp only
      rw [Hw.get_traceAdd _ _ _ _ _ hg hc, Hw.get_freezeOnEvent, Hw.get_put_block _ _ _ _ (by decide) hg hb]
      rfl
    · rw [Hw.get_loseEvents _ _ _ _ hg hb]

theorem Hw.get_hairTile (h : Hw) (t : Nat) (g : Fld) (ht : t < 1152) (hg : g.off < 0x10000) (h0 : g.block ≠ 0x028)
    (h1 : g.block ≠ 0x7C0) (h2 : g.block ≠ 0x640) : (h.hairTile t).get g = h.get g := by
  unfold Hw.hairTile
  dsimp only
  have e1 : (F.ECC_TILE_LEVEL_LEVEL.nth t).off < 0x10000 := by simp only [Fld.nth, F.ECC_TILE_LEVEL_LEVEL]; omega
  have e2 : ((F.ECC_HAIR_OVF_TILE_OVF.nth (t / 64)).bit (t % 64)).off < 0x10000 := by
    simp only [Fld.nth, Fld.bit, F.ECC_HAIR_OVF_TILE_OVF]; omega
  split
  · exact Hw.get_put_block _ _ _ _ e1 hg h2
  · rw [show ∀ (x : Hw) (a b c : Nat), (x.healthAdd a b c).get g = x.get g from fun _ _ _ _ => rfl,
      Hw.get_event _ _ _ _ _ _ hg h0 h1, Hw.get_put_block _ _ _ _ (by decide) hg h2, Hw.raiseBit,
      Hw.get_put_block _ _ _ _ e2 hg h2, Hw.get_put_block _ _ _ _ e1 hg h2]

theorem OnlyTile.refl (t : Nat) (h : Hw) : OnlyTile t h h := ⟨fun _ _ => rfl, rfl, fun _ _ _ _ _ _ => rfl⟩

theorem OnlyTile.trans {t : Nat} {a b c : Hw} (x : OnlyTile t a b) (y : OnlyTile t b c) : OnlyTile t a c :=
  ⟨fun u hu => (y.others u hu).trans (x.others u hu), y.rest.trans x.rest,
   fun f h0 h1 h2 h3 h4 => (y.regs f h0 h1 h2 h3 h4).trans (x.regs f h0 h1 h2 h3 h4)⟩

theorem OnlyTile.modTile (t : Nat) (h : Hw) (f : Tile → Tile) : OnlyTile t h (h.modTile t f) :=
  ⟨fun _ hu => Hw.modTile_tile_ne h f (Ne.symm hu), rfl, fun _ _ _ _ _ _ => rfl⟩

theorem OnlyTile.modSeq (t : Nat) (h : Hw) (f : Seq → Seq) : OnlyTile t h (h.modSeq t f) := OnlyTile.modTile t h _

theorem OnlyTile.modSlice (t : Nat) (h : Hw) (f : Slice → Slice) : OnlyTile t h (h.modSlice t f) := OnlyTile.modTile t h _

/-- A change that keeps the tiles and what is not muted. -/
theorem OnlyTile.of_mute {t : Nat} {h h' : Hw} (e : h'.mute = h.mute)
    (r : ∀ f : Fld, f.off < 0x10000 → f.block ≠ 0x028 → f.block ≠ 0x7C0 → f.block ≠ 0x640 → f.block ≠ 0x100 + t →
      h'.get f = h.get f) : OnlyTile t h h' := by
  have e2 : h'.mute.tiles = h.mute.tiles := by rw [e]
  have et : h'.tiles = h.tiles := e2
  refine ⟨fun u _ => ?_, by rw [e], r⟩
  simp only [Hw.tile, et]

theorem OnlyTile.event (t : Nat) (h : Hw) (s y p d : Nat) : OnlyTile t h (h.event s y p d) :=
  OnlyTile.of_mute (Hw.mute_event ..) fun f h0 h1 h2 _ _ => Hw.get_event _ _ _ _ _ f h0 h1 h2

theorem OnlyTile.free (t : Nat) (h : Hw) : OnlyTile t h h.free.2 :=
  OnlyTile.of_mute (Hw.mute_free h) fun _ _ _ _ _ _ => rfl


/-- A change of a tile by which nothing but its correctable errors and the notes of the halves read changes: what reading
SRAM does to a tile without stain. -/
structure ReadOnly (t : Nat) (h h' : Hw) : Prop where
  only : OnlyTile t h h'
  tile : ∃ (w : NSet) (r : Slice → List (Nat × Nat)), h'.tile t =
    { h.tile t with weakGranules := w, slice := (h.tile t).slice.map fun s => { s with readHalves := r s } }
  window : ∀ pid a, h'.inWindow t pid a = h.inWindow t pid a

theorem ReadOnly.refl (t : Nat) (h : Hw) : ReadOnly t h h := by
  refine ⟨OnlyTile.refl t h, ⟨(h.tile t).weakGranules, fun s => s.readHalves, ?_⟩, fun _ _ => rfl⟩
  cases (h.tile t)
  simp only [Option.map_id']

theorem ReadOnly.trans {t : Nat} {a b c : Hw} (x : ReadOnly t a b) (y : ReadOnly t b c) : ReadOnly t a c := by
  obtain ⟨w, r, e⟩ := x.tile
  obtain ⟨w', r', e'⟩ := y.tile
  refine ⟨x.only.trans y.only, ⟨w', fun s => r' { s with readHalves := r s }, ?_⟩,
    fun p q => (y.window p q).trans (x.window p q)⟩
  rw [e', e]
  simp only [Option.map_map, Function.comp_def]

theorem ReadOnly.clean {t : Nat} {h h' : Hw} (x : ReadOnly t h h') (c : Clean h t) : Clean h' t := by
  obtain ⟨w, r, e⟩ := x.tile
  obtain ⟨c1, c2, c3, c4, c5⟩ := c
  refine ⟨?_, ?_, ?_, ?_, ?_⟩
  · rw [e]
    cases hs : (h.tile t).slice with
    | none => rw [hs] at c1; exact c1
    | some s => rw [hs] at c1; exact c1
  all_goals rw [e]; assumption

theorem any_congr_mem {α : Type} {l : List α} {p q : α → Bool} (e : ∀ x ∈ l, p x = q x) : l.any p = l.any q := by
  induction l with
  | nil => rfl
  | cons x l ih =>
    rw [List.any_cons, List.any_cons, e x (List.mem_cons_self ..), ih fun y hy => e y (List.mem_cons_of_mem _ hy)]

/-- The windows of a tile go by its window registers alone. -/
theorem Hw.inWindow_congr {h h' : Hw} {t : Nat}
    (r : ∀ f : Fld, f.off < 0x10000 → f.block = 0x100 + t → f.off ≠ F.TILE_SRAM_ERR_CORRECTED.off → h'.get f = h.get f)
    (pid a : Nat) : h'.inWindow t pid a = h.inWindow t pid a := by
  unfold Hw.inWindow Hw.on
  refine any_congr_mem fun i hi => ?_
  have hi : i < 8 := List.mem_range.1 hi
  rw [r _ ?_ rfl ?_, r _ ?_ rfl ?_, r _ ?_ rfl ?_, r _ ?_ rfl ?_] <;>
    simp only [Fld.nth, Fld.blk, F.TILE_SWIN_VALID, F.TILE_SWIN_PID, F.TILE_SWIN_FIRST, F.TILE_SWIN_LAST,
      F.TILE_SRAM_ERR_CORRECTED] <;> omega

theorem ReadOnly.event {t : Nat} (ht : t < 1152) (h : Hw) (s y p d : Nat) : ReadOnly t h (h.event s y p d) := by
  refine ⟨OnlyTile.event t h s y p d, ?_, ?_⟩
  · have e : (h.event s y p d).tile t = h.tile t := by
      have e : (h.event s y p d).mute.tiles = h.mute.tiles := by rw [Hw.mute_event]
      have et : (h.event s y p d).tiles = h.tiles := e
      simp only [Hw.tile, et]
    rw [e]
    exact (ReadOnly.refl t h).tile
  · exact Hw.inWindow_congr fun f h0 h1 _ => Hw.get_event _ _ _ _ _ f h0 (by omega) (by omega)

/-- A field of another register of a tile's block, when a field is set. -/
theorem Hw.get_put_off (h : Hw) (f g : Fld) (v : Nat) (hf : f.off < 0x10000) (hg : g.off < 0x10000)
    (ho : g.off ≠ f.off) : (h.put f v).get g = h.get g := by
  refine Hw.get_put_reg h f g v fun e => ho ?_
  exact ((regKey_inj hf hg).1 e).2.symm

theorem tile_of_mute {h h' : Hw} (e : h'.mute = h.mute) (u : Nat) : h'.tile u = h.tile u := by
  have e2 : h'.mute.tiles = h.mute.tiles := by rw [e]
  have et : h'.tiles = h.tiles := e2
  simp only [Hw.tile, et]

/-- Correcting an error in a granule, when no granule holds an uncorrectable one (R104). -/
theorem ReadOnly.sramErrors {t : Nat} (ht : t < 1152) (h : Hw) (g : Nat) (hb : (h.tile t).badGranules = []) :
    ReadOnly t h (h.sramErrors t g) := by
  unfold Hw.sramErrors
  simp only [hb, List.contains_nil, Bool.false_eq_true, if_false]
  split
  · have hm : ∀ x : Hw, ((x.addSat (F.TILE_SRAM_ERR_CORRECTED.blk t) 1).hairTile t).mute = x.mute := fun x => by
      rw [Hw.mute_hairTile, Hw.mute_addSat]
    have he : (F.TILE_SRAM_ERR_CORRECTED.blk t).off < 0x10000 := by
      simp only [Fld.blk, F.TILE_SRAM_ERR_CORRECTED]; omega
    refine ⟨OnlyTile.trans (OnlyTile.modTile t h _) (OnlyTile.of_mute (hm _) fun f h0 h1 h2 h3 h4 => ?_), ?_, ?_⟩
    · rw [Hw.get_hairTile _ t f ht h0 h1 h2 h3]
      exact Hw.get_addSat_block _ _ _ _ he h0 h4
    · refine ⟨NSet.rem (h.tile t).weakGranules g, fun s => s.readHalves, ?_⟩
      rw [tile_of_mute (hm _), Hw.modTile_tile_same]
      cases (h.tile t)
      simp only [Option.map_id']
    · refine Hw.inWindow_congr fun f h0 h1 h2 => ?_
      rw [Hw.get_hairTile _ t f ht h0 (by omega) (by omega) (by omega)]
      exact Hw.get_put_off _ _ _ _ he h0 h2
  · exact ReadOnly.refl t h

theorem ReadOnly.visitRead {t : Nat} (ht : t < 1152) (pid : Nat) (gs : List Nat) (h : Hw)
    (hb : (h.tile t).badGranules = []) : ReadOnly t h (h.visitRead t pid gs) := by
  induction gs generalizing h with
  | nil => exact ReadOnly.refl t h
  | cons g gs ih =>
    have hs : ReadOnly t h (if h.inWindow t pid (g * 32) then h.sramErrors t g else h.windowEvent t pid (g * 32)) := by
      split
      · exact ReadOnly.sramErrors ht h g hb
      · exact ReadOnly.event ht h _ _ _ _
    refine hs.trans (ih _ ?_)
    obtain ⟨w, r, e⟩ := hs.tile
    rw [e]; exact hb

theorem ReadOnly.noteHalves (t : Nat) (h : Hw) (a n : Nat) : ReadOnly t h (h.noteHalves t a n) := by
  unfold Hw.noteHalves
  split
  · split
    · dsimp only
      generalize List.filter _ _ = x
      split
      · exact ReadOnly.refl t h
      · refine ⟨OnlyTile.modSlice t h _, ?_, fun _ _ => rfl⟩
        refine ⟨(h.tile t).weakGranules, fun s => s.readHalves ++ x, ?_⟩
        unfold Hw.modSlice
        rw [Hw.modTile_tile_same]
    · exact ReadOnly.refl t h
  · exact ReadOnly.refl t h

/-- Reading SRAM of a tile without stain (R77). -/
theorem Hw.rdSram_clean {t : Nat} (ht : t < 1152) (h : Hw) (pid a n : Nat) (hb : (h.tile t).badGranules = [])
    (hs : (h.tile t).stain = []) :
    ReadOnly t h (h.rdSram t pid a n).2 ∧ (h.rdSram t pid a n).1 = sramBytes h t pid a n := by
  have r : ReadOnly t h ((h.visitRead t pid (granules a n)).noteHalves t a n) :=
    (ReadOnly.visitRead ht pid _ h hb).trans (ReadOnly.noteHalves t _ a n)
  refine ⟨r, ?_⟩
  obtain ⟨w, q, e⟩ := r.tile
  unfold Hw.rdSram sramBytes bytesIn
  refine List.map_congr_left fun i _ => ?_
  rw [r.window, e]
  simp only [hs, List.contains_nil]
  split <;> rfl

theorem bytesIn_clean (h : Hw) (t : Nat) (m : SMap Byte) (pid a n : Nat) : (bytesIn h t m pid a n).any (·.2) = false := by
  unfold bytesIn
  rw [List.any_map]
  exact List.any_eq_false.2 fun _ _ => by simp

theorem sramBytes_clean (h : Hw) (t pid a n : Nat) : (sramBytes h t pid a n).any (·.2) = false := bytesIn_clean ..

theorem ReadOnly.sramBytes {t : Nat} {h h' : Hw} (r : ReadOnly t h h') (pid a n : Nat) :
    Machine.sramBytes h' t pid a n = Machine.sramBytes h t pid a n := by
  obtain ⟨w, q, e⟩ := r.tile
  unfold Machine.sramBytes bytesIn
  refine List.map_congr_left fun i _ => ?_
  rw [r.window, e]

/-- Writing to a tile without stain: the bytes that `p` gives take their new values, the others keep theirs. -/
structure Wrote (t : Nat) (h h' : Hw) (p : Nat → Option Byte) : Prop where
  only : OnlyTile t h h'
  tile : ∃ (w : NSet) (m : SMap Byte), h'.tile t = { h.tile t with weakGranules := w, sram := m } ∧
    ∀ b, SMap.getD 0 m b = (p b).getD (SMap.getD 0 (h.tile t).sram b)
  window : ∀ pid a, h'.inWindow t pid a = h.inWindow t pid a

theorem Wrote.refl (t : Nat) (h : Hw) : Wrote t h h fun _ => none :=
  ⟨OnlyTile.refl t h, ⟨_, _, rfl, fun _ => rfl⟩, fun _ _ => rfl⟩

theorem Wrote.trans {t : Nat} {a b c : Hw} {p q : Nat → Option Byte} (x : Wrote t a b p) (y : Wrote t b c q) :
    Wrote t a c fun i => (q i).or (p i) := by
  obtain ⟨w, m, e, f⟩ := x.tile
  obtain ⟨w', m', e', f'⟩ := y.tile
  refine ⟨x.only.trans y.only, ⟨w', m', by rw [e', e], fun i => ?_⟩, fun u v => (y.window u v).trans (x.window u v)⟩
  rw [f', e]
  dsimp only
  rw [f]
  cases q i <;> rfl

theorem Wrote.congr {t : Nat} {a b : Hw} {p q : Nat → Option Byte} (x : Wrote t a b p) (e : ∀ i, p i = q i) :
    Wrote t a b q := by
  have : p = q := funext e
  rw [← this]; exact x

/-- Putting values at the keys of a list of pairs, the last one for a key standing. -/
theorem foldl_putD {α : Type} [DecidableEq α] (d : α) (v : Nat → α) (ks : List Nat) (m : SMap α) (j : Nat) :
    SMap.getD d (ks.foldl (fun m k => SMap.putD d m k (v k)) m) j = if j ∈ ks then v j else SMap.getD d m j := by
  induction ks generalizing m with
  | nil => simp
  | cons k ks ih =>
    rw [List.foldl_cons, ih, SMap.getD_putD]
    by_cases h1 : j ∈ ks
    · simp [h1]
    · by_cases h2 : k = j
      · subst h2; simp [h1]
      · have h3 : ¬ j = k := fun e => h2 e.symm
        simp [h1, h2, h3]

theorem stainAfter_clean (ws : List (Nat × SByte)) (h : ws.any (·.2.2) = false) (g : Nat) : stainAfter [] g ws = [] := by
  unfold stainAfter
  dsimp only
  have e : (ws.filter fun w => w.1 / 32 == g).any (·.2.2) = false := by
    rw [List.any_eq_false] at h ⊢
    exact fun x hx => h x (List.mem_filter.1 hx).1
  rw [e, if_neg Bool.false_ne_true]
  split <;> rfl

/-- Placing unstained bytes in a tile without stain. -/
theorem Wrote.pokeSram (t : Nat) (h : Hw) (a : Nat) (bs : List SByte) (hs : (h.tile t).stain = [])
    (hb : (h.tile t).badGranules = []) (hc : bs.any (·.2) = false) :
    Wrote t h (h.pokeSram t a bs) fun b => if a ≤ b ∧ b < a + bs.length then some (bs.getD (b - a) (0, false)).1 else none := by
  unfold Hw.pokeSram
  generalize hw : ((List.range bs.length).map fun i => (a + i, bs.getD i (0, false))) = ws
  have hws : ws.any (·.2.2) = false := by
    rw [← hw, List.any_map, List.any_eq_false]
    intro i hi
    rw [List.any_eq_false] at hc
    have hi : i < bs.length := List.mem_range.1 hi
    have e := hc (bs.getD i (0, false)) (by
      rw [List.getD_eq_getElem _ _ hi]; exact List.getElem_mem hi)
    simpa using e
  refine ⟨OnlyTile.modTile t h _, ?_, fun _ _ => rfl⟩
  refine ⟨(h.tile t).weakGranules.filter fun g =>
    ! ((granules a bs.length).contains g && wholeHalf a bs.length g),
    ws.foldl (fun m w => SMap.putD 0 m w.1 w.2.1) (h.tile t).sram, ?_, ?_⟩
  · dsimp only
    rw [Hw.modTile_tile_same]
    have e1 : (granules a bs.length).foldl (fun s g => stainAfter s g ws) (h.tile t).stain = (h.tile t).stain := by
      rw [hs]
      generalize granules a bs.length = gs
      induction gs with
      | nil => rfl
      | cons g gs ih => rw [List.foldl_cons, stainAfter_clean ws hws, ih]
    rw [e1, hb]
    cases ht : h.tile t
    rw [ht] at hb
    dsimp only at hb
    simp only [List.filter_nil]
  · intro b
    have e : ws.foldl (fun m w => SMap.putD 0 m w.1 w.2.1) (h.tile t).sram =
        (upto a bs.length).foldl (fun m k => SMap.putD 0 m k (bs.getD (k - a) (0, false)).1) (h.tile t).sram := by
      rw [← hw, upto, List.foldl_map, List.foldl_map]
      simp only [Nat.add_sub_cancel_left]
    rw [e, foldl_putD (0 : Byte) (fun k => (bs.getD (k - a) (0, false)).1)]
    have hm : b ∈ upto a bs.length ↔ a ≤ b ∧ b < a + bs.length := by
      unfold upto
      rw [List.mem_map]
      constructor
      · rintro ⟨i, hi, rfl⟩
        have := List.mem_range.1 hi
        omega
      · intro ⟨h1, h2⟩
        exact ⟨b - a, List.mem_range.2 (by omega), by omega⟩
    simp only [hm]
    split <;> rfl

theorem Wrote.stain {t : Nat} {h h' : Hw} {p : Nat → Option Byte} (x : Wrote t h h' p) :
    (h'.tile t).stain = (h.tile t).stain ∧ (h'.tile t).badGranules = (h.tile t).badGranules := by
  obtain ⟨w, m, e, _⟩ := x.tile
  rw [e]; exact ⟨rfl, rfl⟩

/-- The windows hold pages of 4 KiB. -/
theorem Hw.inWindow_page (h : Hw) (t pid : Nat) {a b : Nat} (e : a / 4096 = b / 4096) :
    h.inWindow t pid a = h.inWindow t pid b := by
  unfold Hw.inWindow
  rw [e]

theorem any_sub {α : Type} {p : α → Bool} {l l' : List α} (h : l.any p = false) (hs : ∀ x ∈ l', x ∈ l) : l'.any p = false := by
  rw [List.any_eq_false] at h ⊢
  exact fun x hx => h x (hs x hx)

theorem Wrote.wrGranule {t : Nat} (ht : t < 1152) (h : Hw) (pid a : Nat) (bs : List SByte) (g : Nat)
    (hs : (h.tile t).stain = []) (hb : (h.tile t).badGranules = []) (hc : bs.any (·.2) = false)
    (hg : a < g * 32 + 32 ∧ g * 32 < a + bs.length) :
    Wrote t h (h.wrGranule t pid a bs g) fun b => if b / 32 = g then writtenBy h t pid a bs b else none := by
  unfold Hw.wrGranule
  by_cases hw : h.inWindow t pid (g * 32) = true
  · rw [if_pos hw]
    dsimp only
    have hlen : ((bs.drop (max a (g * 32) - a)).take (min (a + bs.length) (g * 32 + 32) - max a (g * 32))).length =
        min (a + bs.length) (g * 32 + 32) - max a (g * 32) := by
      rw [List.length_take, List.length_drop]; omega
    refine (Wrote.pokeSram t h _ _ hs hb ?_).congr fun b => ?_
    · exact any_sub hc fun x hx => List.mem_of_mem_drop (List.mem_of_mem_take hx)
    · rw [hlen]
      unfold writtenBy
      by_cases hbg : b / 32 = g
      · have hwb : h.inWindow t pid b = true := by rw [← hw]; exact Hw.inWindow_page h t pid (by omega)
        rw [if_pos hbg, hwb]
        by_cases hr : a ≤ b ∧ b < a + bs.length
        · have h1 : max a (g * 32) ≤ b ∧ b < max a (g * 32) + (min (a + bs.length) (g * 32 + 32) - max a (g * 32)) := by omega
          rw [if_pos h1, if_pos ⟨hr.1, hr.2, rfl⟩]
          congr 2
          simp only [List.getD_eq_getElem?_getD]
          rw [List.getElem?_take_of_lt (by omega), List.getElem?_drop]
          congr 2
          omega
        · rw [if_neg (by omega), if_neg (by tauto)]
      · rw [if_neg hbg, if_neg (by omega)]
  · rw [if_neg hw]
    refine ⟨?_, ?_, ?_⟩
    · exact OnlyTile.event t h _ _ _ _
    · have e : (h.windowEvent t pid (g * 32)).tile t = h.tile t := tile_of_mute (Hw.mute_event _ _ _ _ _) t
      refine ⟨(h.tile t).weakGranules, (h.tile t).sram, e, fun b => ?_⟩
      unfold writtenBy
      by_cases hbg : b / 32 = g
      · have hwb : h.inWindow t pid b = false := by
          rw [Hw.inWindow_page h t pid (show b / 4096 = g * 32 / 4096 by omega)]
          exact Bool.eq_false_iff.2 hw
        rw [if_pos hbg, hwb]
        simp
      · rw [if_neg hbg]; rfl
    · exact (ReadOnly.event ht h _ _ _ _).window

theorem mem_granules {a n g : Nat} : g ∈ granules a n ↔ 0 < n ∧ a < g * 32 + 32 ∧ g * 32 < a + n := by
  unfold granules halves
  by_cases hn : n = 0
  · subst hn
    simp
  · rw [if_neg hn, upto, List.mem_map]
    constructor
    · rintro ⟨i, hi, rfl⟩
      have := List.mem_range.1 hi
      omega
    · intro h1
      exact ⟨g - a / 32, List.mem_range.2 (by omega), by omega⟩

/-- Writing a run of unstained bytes in a tile without stain (R77). -/
theorem Wrote.wrSram {t : Nat} (ht : t < 1152) (h : Hw) (pid a : Nat) (bs : List SByte)
    (hs : (h.tile t).stain = []) (hb : (h.tile t).badGranules = []) (hc : bs.any (·.2) = false) :
    Wrote t h (h.wrSram t pid a bs) (writtenBy h t pid a bs) := by
  have key : ∀ (gs : List Nat) (k : Hw), (∀ g ∈ gs, a < g * 32 + 32 ∧ g * 32 < a + bs.length) →
      (k.tile t).stain = [] → (k.tile t).badGranules = [] → (∀ p b, k.inWindow t p b = h.inWindow t p b) →
      Wrote t k (gs.foldl (fun h g => h.wrGranule t pid a bs g) k)
        fun b => if b / 32 ∈ gs then writtenBy h t pid a bs b else none := by
    intro gs
    induction gs with
    | nil => intro k _ _ _ _; exact (Wrote.refl t k).congr fun b => by simp
    | cons g gs ih =>
      intro k hg hs hb hwin
      rw [List.foldl_cons]
      have w1 := Wrote.wrGranule ht k pid a bs g hs hb hc (hg g (List.mem_cons_self ..))
      have w2 := ih _ (fun x hx => hg x (List.mem_cons_of_mem _ hx)) (by rw [w1.stain.1]; exact hs) (by rw [w1.stain.2]; exact hb)
        (fun p b => (w1.window p b).trans (hwin p b))
      refine (w1.trans w2).congr fun b => ?_
      have e : writtenBy k t pid a bs b = writtenBy h t pid a bs b := by
        unfold writtenBy
        rw [hwin]
      rw [e]
      by_cases h1 : b / 32 ∈ gs
      · simp only [h1, if_true, List.mem_cons, or_true]
        cases writtenBy h t pid a bs b <;> simp
      · simp only [h1, if_false, List.mem_cons, or_false]
        rfl
  unfold Hw.wrSram
  refine (key _ h (fun g hg => (mem_granules.1 hg).2) hs hb fun _ _ => rfl).congr fun b => ?_
  by_cases h1 : b / 32 ∈ granules a bs.length
  · rw [if_pos h1]
  · rw [if_neg h1]
    unfold writtenBy
    rw [if_neg]
    intro ⟨h2, h3, _⟩
    exact h1 (mem_granules.2 (by omega))

@[simp] theorem Tile.withSeq_seq (x : Tile) (q : Seq) : (x.withSeq q).seq = q := rfl
@[simp] theorem Tile.withSeq_withSeq (x : Tile) (q r : Seq) : (x.withSeq q).withSeq r = x.withSeq r := rfl

theorem Mid.of_read {t : Nat} {s : Slice} {h k : Hw} (r : ReadOnly t h k) (hs : (h.tile t).slice = some s) :
    Mid t s h k (h.tile t) := by
  obtain ⟨w, q, e⟩ := r.tile
  refine ⟨r.only, ⟨w, q s, ?_⟩, r.window⟩
  rw [e, hs]
  rfl

theorem Mid.read {t : Nat} {s : Slice} {h k k' : Hw} {x : Tile} (m : Mid t s h k x) (r : ReadOnly t k k') :
    Mid t s h k' x := by
  obtain ⟨w, q, e⟩ := m.tile
  obtain ⟨w', q', e'⟩ := r.tile
  refine ⟨m.only.trans r.only, ⟨w', q' { s with readHalves := q }, ?_⟩, fun p a => (r.window p a).trans (m.window p a)⟩
  rw [e', e]
  rfl

theorem Mid.modSeq {t : Nat} {s : Slice} {h k : Hw} {x : Tile} (m : Mid t s h k x) (f : Seq → Seq) :
    Mid t s h (k.modSeq t f) (x.withSeq (f x.seq)) := by
  obtain ⟨w, q, e⟩ := m.tile
  refine ⟨m.only.trans (OnlyTile.modSeq t k f), ⟨w, q, ?_⟩, m.window⟩
  unfold Hw.modSeq
  rw [Hw.modTile_tile_same, e]
  rfl

/-- A change of the tile that does not look at its errors or its slice. -/
theorem Mid.modTile {t : Nat} {s : Slice} {h k : Hw} {x : Tile} (m : Mid t s h k x) (f : Tile → Tile)
    (hf : ∀ (x : Tile) (w : NSet) (y : Option Slice),
      f { x with weakGranules := w, slice := y } = { f x with weakGranules := w, slice := y }) :
    Mid t s h (k.modTile t f) (f x) := by
  obtain ⟨w, q, e⟩ := m.tile
  refine ⟨m.only.trans (OnlyTile.modTile t k f), ⟨w, q, ?_⟩, m.window⟩
  rw [Hw.modTile_tile_same, e, hf]

theorem Mid.free {t : Nat} {s : Slice} {h k : Hw} {x : Tile} (m : Mid t s h k x) : Mid t s h k.free.2 x :=
  ⟨m.only.trans (OnlyTile.free t k), m.tile, m.window⟩

/-- Writing unstained bytes. -/
theorem Mid.wrote {t : Nat} {s : Slice} {h k k' : Hw} {x : Tile} {p : Nat → Option Byte} (m : Mid t s h k x)
    (w : Wrote t k k' p) : ∃ y, Mid t s h k' { x with sram := y } ∧
      ∀ b, SMap.getD 0 y b = (p b).getD (SMap.getD 0 x.sram b) := by
  obtain ⟨u, q, e⟩ := m.tile
  obtain ⟨u', y, e', f⟩ := w.tile
  refine ⟨y, ⟨m.only.trans w.only, ⟨u', q, ?_⟩, fun p a => (w.window p a).trans (m.window p a)⟩, fun b => ?_⟩
  · rw [e', e]
  · rw [f, e]

theorem Mid.seq {t : Nat} {s : Slice} {h k : Hw} {x : Tile} (m : Mid t s h k x) :
    (k.tile t).seq = x.seq := by
  obtain ⟨w, q, e⟩ := m.tile
  rw [e]

theorem Mid.slice {t : Nat} {s : Slice} {h k : Hw} {x : Tile} (m : Mid t s h k x) :
    ∃ r, (k.tile t).slice = some { s with readHalves := r } := by
  obtain ⟨w, q, e⟩ := m.tile
  exact ⟨q, by rw [e]⟩

theorem Mid.accs {t : Nat} {s : Slice} {h k : Hw} {x : Tile} (m : Mid t s h k x) :
    (k.tile t).accs = x.accs := by
  obtain ⟨w, q, e⟩ := m.tile
  rw [e]

theorem Mid.done {t : Nat} {s : Slice} {h k : Hw} {x : Tile} (m : Mid t s h k x) : TileStep t s h k x := ⟨m.only, m.tile⟩

theorem TileStep.modSeq {t : Nat} {s : Slice} {h k : Hw} {x : Tile} (m : TileStep t s h k x) (f : Seq → Seq) :
    TileStep t s h (k.modSeq t f) (x.withSeq (f x.seq)) := by
  obtain ⟨w, q, e⟩ := m.tile
  refine ⟨m.only.trans (OnlyTile.modSeq t k f), ⟨w, q, ?_⟩⟩
  unfold Hw.modSeq
  rw [Hw.modTile_tile_same, e]
  rfl

end Sys2Proof.Machine
end

