-- ==== Sys2Proof/Laws/Tvi.lean ====
section
/-! SUPPORT. What issuing a TVI instruction does when it completes. -/

namespace Sys2Proof.Machine

open Sys2Proof

/-- A computation that completes settles as its completion says. -/
theorem settle_runs {m : T Unit} {h : Hw} {Q : Unit → Hw → Prop} (r : Runs m h Q) (t insn : Nat) (go : Hw → Hw)
    (stay : Bool → Hw → Hw) : ∃ h', Q () h' ∧ settle t insn go stay (runT m h) = go h' := by
  obtain ⟨_, h', e, q⟩ := r
  refine ⟨h', q, ?_⟩
  unfold runT
  show settle t insn go stay (m.run h) = _
  rw [e]
  rfl

/-- A TVI instruction that is ready runs its computation on a state that its fetch has only read. -/
theorem Hw.issueTvi_eq {h : Hw} {t : Nat} {s : Slice} {op w : Nat} (ht : t < 1152) (r : TviReady h t s op w)
    (h1 : op ≠ 0) (h2 : op < 0x20) (jump : Bool) (eff : Nat → T Unit) :
    ∃ k, ReadOnly t h k ∧ h.issueTvi t op jump eff =
      settle t w (fun h => if jump then h else h.nextPc t) (fun _ h => h) (runT (eff w) k) := by
  obtain ⟨r1, r2, r3, r4, r5, r6, r7, r8, r9⟩ := r
  obtain ⟨ro, rb⟩ := Hw.rdSram_clean ht h s.pid (h.tile t).seq.pc 4 r4.sound r4.sram
  refine ⟨_, ro, ?_⟩
  have hw : bits (leNat ((sramBytes h t s.pid (h.tile t).seq.pc 4).map (·.1))) 0 6 = op := by rw [← r6]; exact r7
  obtain ⟨kk, rr, et⟩ := ro.tile
  have hop : ¬ (op = 0 ∨ 0x20 ≤ op) := by omega
  unfold Hw.issueTvi
  rw [r1, if_pos rfl, r5]
  dsimp only
  rw [r2, if_neg Bool.false_ne_true, if_neg (by rw [r3]; exact fun h => h rfl), rb, sramBytes_clean,
    if_neg Bool.false_ne_true, hw, if_neg hop, if_neg (by exact fun h => h rfl), ← r6]
  unfold Hw.runTvi
  rw [r7]
  dsimp only
  have hp : ((h.rdSram t s.pid (h.tile t).seq.pc 4).2.tile t).seq = (h.tile t).seq := by rw [et]
  rw [hp]
  have c1 : (isScalarOp op && ! bit ((h.tile t).seq.p.getD (insnP w) 0) 0) = false := by
    cases hs : isScalarOp op
    · rfl
    · rw [r8 hs]; rfl
  have c2 : (hasW op && insnW w == 3) = false := by
    cases hs : hasW op
    · rfl
    · have := r9 hs
      simp only [Bool.true_and, beq_eq_false_iff_ne]
      exact this
  rw [c1, c2, if_neg Bool.false_ne_true, if_neg Bool.false_ne_true]

/-- A TVI instruction that is ready and completes. -/
theorem Hw.issueTvi_runs {h : Hw} {t : Nat} {s : Slice} {op w : Nat} (ht : t < 1152) (r : TviReady h t s op w)
    (h1 : op ≠ 0) (h2 : op < 0x20) (jump : Bool) (eff : Nat → T Unit) (Q : Hw → Prop)
    (run : ∀ k, ReadOnly t h k → Runs (eff w) k fun _ k' => Q k') :
    ∃ k', Q k' ∧ h.issueTvi t op jump eff = if jump then k' else k'.nextPc t := by
  obtain ⟨k, ro, e⟩ := Hw.issueTvi_eq ht r h1 h2 jump eff
  obtain ⟨k', q, e'⟩ := settle_runs (run _ ro) t w (fun h => if jump then h else h.nextPc t) (fun _ h => h)
  exact ⟨k', q, e.trans e'⟩

/-- A step of a program that moves on to the next instruction. -/
theorem Hw.issueTvi_next {h : Hw} {t : Nat} {s : Slice} {op w : Nat} (ht : t < 1152) (r : TviReady h t s op w)
    (h1 : op ≠ 0) (h2 : op < 0x20) (eff : Nat → T Unit) (x : Tile) (q : Seq)
    (run : ∀ k, Mid t s h k (h.tile t) → Clean k t → Runs (eff w) k fun _ k' => Mid t s h k' (x.withSeq q)) :
    TileStep t s h (h.issueTvi t op false eff) (x.withSeq q.bump) := by
  obtain ⟨k', m, e⟩ := Hw.issueTvi_runs ht r h1 h2 false eff (fun k' => Mid t s h k' (x.withSeq q)) fun k ro =>
    run k (Mid.of_read ro r.slice) (ro.clean r.clean)
  rw [e]
  exact m.done.modSeq Seq.bump

/-- A step of a program that sets the program counter itself. -/
theorem Hw.issueTvi_jump {h : Hw} {t : Nat} {s : Slice} {op w : Nat} (ht : t < 1152) (r : TviReady h t s op w)
    (h1 : op ≠ 0) (h2 : op < 0x20) (eff : Nat → T Unit) (x : Tile)
    (run : ∀ k, Mid t s h k (h.tile t) → Clean k t → Runs (eff w) k fun _ k' => Mid t s h k' x) :
    TileStep t s h (h.issueTvi t op true eff) x := by
  obtain ⟨k', q, e⟩ := Hw.issueTvi_runs ht r h1 h2 true eff (fun k' => Mid t s h k' x) fun k ro =>
    run k (Mid.of_read ro r.slice) (ro.clean r.clean)
  rw [e]
  exact q.done

theorem runs_seqT (t : Nat) (h : Hw) (Q : Seq → Hw → Prop) : Runs (seqT t) h Q ↔ Q (h.tile t).seq h := by
  unfold seqT
  rw [runs_bind, runs_get, runs_pure]

/-- A scalar without stain as a use. -/
theorem runs_useS (t i : Nat) (h : Hw) (c : Clean h t) (Q : Nat → Hw → Prop) :
    Runs (useS t i) h Q ↔ Q ((h.tile t).seq.scalar i).1 h := by
  unfold useS
  rw [runs_bind, runs_seqT]
  have e : ((h.tile t).seq.scalar i).2 = false := by
    unfold Seq.scalar
    split
    · rfl
    · exact c.scalars i
  cases hx : (h.tile t).seq.scalar i with
  | mk v st =>
    rw [hx] at e
    dsimp only at e
    subst e
    rw [runs_bind, runs_useClean, runs_pure]
    simp

theorem runs_setS (t i v : Nat) (st : Bool) (h : Hw) (Q : Unit → Hw → Prop) :
    Runs (setS t i v st) h Q ↔ Q () (if i = 0 then h else h.modSeq t fun q => q.withS i v st) := by
  unfold setS Seq.withS
  split
  · rw [runs_pure]
  · rw [runs_modify]

theorem Tile.withSeq_self (x : Tile) : x.withSeq x.seq = x := rfl

theorem Mid.withS {t : Nat} {s : Slice} {h k : Hw} {x : Tile} (m : Mid t s h k x) (i v : Nat) (st : Bool) :
    Mid t s h (if i = 0 then k else k.modSeq t fun q => q.withS i v st) (x.withSeq (x.seq.withS i v st)) := by
  split
  · have e : x.seq.withS i v st = x.seq := by
      unfold Seq.withS
      simp_all
    rw [e]; exact m
  · exact m.modSeq _

/-- `SADDI`. -/
theorem saddi_step {h : Hw} {t : Nat} {s : Slice} {w : Nat} (ht : t < 1152) (r : TviReady h t s 0x11 w) :
    TileStep t s h (h.issueTvi t 0x11 false (tviSaddi t)) ((h.tile t).withSeq ((h.tile t).seq.withS (insnSd w)
      (addSigned 32 ((h.tile t).seq.scalar (insnSa w)).1 (insnImm15 w)) false).bump) := by
  refine Hw.issueTvi_next ht r (by decide) (by decide) _ _ _ fun k m c => ?_
  unfold tviSaddi
  rw [runs_bind, runs_useS _ _ _ c, runs_setS, m.seq]
  exact m.withS _ _ _

/-- `SLUI`. -/
theorem slui_step {h : Hw} {t : Nat} {s : Slice} {w : Nat} (ht : t < 1152) (r : TviReady h t s 0x12 w) :
    TileStep t s h (h.issueTvi t 0x12 false (tviSlui t))
      ((h.tile t).withSeq ((h.tile t).seq.withS (insnSd w) (insnImm19 w * 8192) false).bump) := by
  refine Hw.issueTvi_next ht r (by decide) (by decide) _ _ _ fun k m c => ?_
  unfold tviSlui
  rw [runs_setS]
  exact m.withS _ _ _

/-- `NOP`. -/
theorem tviNop_step {h : Hw} {t : Nat} {s : Slice} {w : Nat} (ht : t < 1152) (r : TviReady h t s 0x1F w) :
    TileStep t s h (h.issueTvi t 0x1F false fun _ => pure ()) ((h.tile t).withSeq (h.tile t).seq.bump) := by
  refine Hw.issueTvi_next ht r (by decide) (by decide) _ _ _ fun k m c => ?_
  rw [runs_pure]
  exact m

theorem salu_value {q : Seq} {w : Nat} (h : insnSFn w ≤ 12) : q.salu w =
    q.withS (insnSd w) ((saluFn (insnSFn w) (q.scalar (insnSa w)).1 (q.scalar (insnSb w)).1).getD 0) false := by
  unfold Seq.salu
  dsimp only
  split <;> first | omega | rfl

/-- `SALU`. -/
theorem salu_step {h : Hw} {t : Nat} {s : Slice} {w : Nat} (ht : t < 1152) (r : TviReady h t s 0x10 w)
    (hf : insnSFn w ≤ 12 ∨ 16 ≤ insnSFn w ∧ insnSFn w ≤ 21) :
    TileStep t s h (h.issueTvi t 0x10 false (tviSalu t)) ((h.tile t).withSeq ((h.tile t).seq.salu w).bump) := by
  refine Hw.issueTvi_next ht r (by decide) (by decide) _ _ _ fun k m c => ?_
  unfold tviSalu
  dsimp only
  by_cases h1 : insnSFn w ≤ 12
  · rw [if_pos h1, runs_bind, runs_useS _ _ _ c, runs_bind, runs_useS _ _ _ c, runs_setS, m.seq, salu_value h1]
    exact m.withS _ _ _
  · rw [if_neg h1]
    by_cases h2 : insnSFn w = 18
    · rw [if_pos h2, runs_bind, runs_seqT, runs_setS, m.seq, Seq.salu, h2]
      exact m.withS _ _ _
    · rw [if_neg h2]
      by_cases h3 : insnSFn w = 21
      · rw [if_pos h3, runs_bind, runs_seqT, runs_setS, m.seq, Seq.salu, h3]
        exact m.withS _ _ _
      · rw [if_neg h3, runs_bind, runs_need]
        refine ⟨by simp; omega, ?_⟩
        rw [runs_bind, runs_useS _ _ _ c, runs_modify, m.seq, Seq.salu]
        have h4 : insnSFn w = 16 ∨ insnSFn w = 17 ∨ insnSFn w = 19 ∨ insnSFn w = 20 := by omega
        obtain h4 | h4 | h4 | h4 := h4 <;> rw [h4] <;> exact m.modSeq _

theorem runs_jumpBy {t : Nat} {d : Int} {h : Hw} {Q : Unit → Hw → Prop} :
    Runs (jumpBy t d) h Q ↔ Q () (h.modSeq t fun q => { q with pc := addSigned 19 (h.tile t).seq.pc (4 * d) % 2 ^ 19 }) := by
  unfold jumpBy
  rw [runs_bind, runs_seqT]
  unfold setPc
  rw [runs_modify]

theorem Mid.jump {t : Nat} {s : Slice} {h k : Hw} {x : Tile} (m : Mid t s h k x) (d : Int) :
    Mid t s h (k.modSeq t fun q => { q with pc := addSigned 19 (k.tile t).seq.pc (4 * d) % 2 ^ 19 })
      (x.withSeq (x.seq.jump d)) := by
  have e := m.modSeq fun q => { q with pc := addSigned 19 x.seq.pc (4 * d) % 2 ^ 19 }
  rw [m.seq]
  exact e

/-- `JMP`. -/
theorem jmp_step {h : Hw} {t : Nat} {s : Slice} {w : Nat} (ht : t < 1152) (r : TviReady h t s 0x16 w) :
    TileStep t s h (h.issueTvi t 0x16 true (tviJmp t)) ((h.tile t).withSeq ((h.tile t).seq.jump (sx 19 (insnImm19 w)))) := by
  refine Hw.issueTvi_jump ht r (by decide) (by decide) _ _ fun k m c => ?_
  unfold tviJmp
  rw [runs_jumpBy]
  exact m.jump _

/-- `BR`. -/
theorem br_step {h : Hw} {t : Nat} {s : Slice} {w : Nat} (ht : t < 1152) (r : TviReady h t s 0x15 w)
    (hc : insnCond w ≠ 7) :
    TileStep t s h (h.issueTvi t 0x15 true (tviBr t)) ((h.tile t).withSeq ((h.tile t).seq.branch w)) := by
  refine Hw.issueTvi_jump ht r (by decide) (by decide) _ _ fun k m c => ?_
  unfold tviBr
  dsimp only
  rw [runs_bind, runs_need]
  refine ⟨by simp [hc], ?_⟩
  rw [runs_ite, Seq.branch]
  constructor
  · intro h6
    rw [runs_bind, runs_seqT, runs_bind, runs_modify, runs_jumpBy, m.seq, if_pos h6]
    exact (m.modSeq _).jump _
  · intro h6
    rw [runs_bind, runs_useS _ _ _ c, runs_jumpBy, if_neg h6]
    have e := m.jump (if condHolds (insnCond w) ((h.tile t).seq.scalar (insnBrSa w)).1 = true then insnImm16 w else 1)
    rw [m.seq] at e ⊢
    exact e

theorem runs_setP (t i v : Nat) (h : Hw) (Q : Unit → Hw → Prop) :
    Runs (setP t i v) h Q ↔ Q () (if i = 0 then h else h.modSeq t fun q => q.withP i v) := by
  unfold setP Seq.withP
  split
  · rw [runs_pure]
  · rw [runs_modify]

theorem Mid.withP {t : Nat} {s : Slice} {h k : Hw} {x : Tile} (m : Mid t s h k x) (i v : Nat) :
    Mid t s h (if i = 0 then k else k.modSeq t fun q => q.withP i v) (x.withSeq (x.seq.withP i v)) := by
  split
  · have e : x.seq.withP i v = x.seq := by
      unfold Seq.withP
      simp_all
    rw [e]; exact m
  · exact m.modSeq _

/-- `PSET`. -/
theorem pset_step {h : Hw} {t : Nat} {s : Slice} {w : Nat} (ht : t < 1152) (r : TviReady h t s 0x19 w)
    (hf : insnFn w ≤ 5) :
    TileStep t s h (h.issueTvi t 0x19 false (tviPset t)) ((h.tile t).withSeq ((h.tile t).seq.withP (insnVd w % 8)
      (psetValue (insnFn w) ((h.tile t).seq.p.getD (insnP w) 0) ((h.tile t).seq.p.getD (insnVd w % 8) 0)
        ((h.tile t).seq.p.getD (insnVa w % 8) 0) ((h.tile t).seq.p.getD (insnVb w % 8) 0))).bump) := by
  refine Hw.issueTvi_next ht r (by decide) (by decide) _ _ _ fun k m c => ?_
  unfold tviPset
  dsimp only
  rw [runs_bind, runs_need]
  refine ⟨by simp [hf], ?_⟩
  rw [runs_bind, runs_seqT, runs_setP, m.seq]
  exact m.withP _ _

/-- `HALT`. -/
theorem halt_step {h : Hw} {t : Nat} {s : Slice} {w : Nat} (ht : t < 1152) (r : TviReady h t s 0x1E w) :
    TileStep t s h (h.issueTvi t 0x1E true (tviHalt t))
      ((h.tile t).withSeq { (h.tile t).seq with inProg := false, todIdx := (h.tile t).seq.afterProg }) := by
  refine Hw.issueTvi_jump ht r (by decide) (by decide) _ _ fun k m c => ?_
  unfold tviHalt
  rw [runs_modify]
  exact m.modSeq _

theorem runs_sliceT {t : Nat} {s : Slice} {h k : Hw} {x : Tile} (m : Mid t s h k x) (Q : Slice → Hw → Prop)
    (q : ∀ r, (k.tile t).slice = some { s with readHalves := r } → Q { s with readHalves := r } k) : Runs (sliceT t) k Q := by
  obtain ⟨r, e⟩ := m.slice
  unfold sliceT
  rw [runs_bind, runs_get, e]
  exact (runs_pure _ _ _).2 (q r e)

/-- Reading SRAM without stain. -/
theorem runs_rdT {t : Nat} {s : Slice} {h k : Hw} {x : Tile} (ht : t < 1152) (m : Mid t s h k x) (h1 : x.stain = [])
    (h2 : x.badGranules = []) (a n : Nat) (Q : List SByte → Hw → Prop)
    (q : ∀ k', Mid t s h k' x → Q (bytesIn h t x.sram s.pid a n) k') : Runs (rdT t a n) k Q := by
  unfold rdT
  rw [runs_bind]
  refine runs_sliceT m _ fun r e => ?_
  rw [runs_bind, runs_get]
  obtain ⟨w, y, et⟩ := m.tile
  obtain ⟨ro, rb⟩ := Hw.rdSram_clean ht k s.pid a n (by rw [et]; exact h2) (by rw [et]; exact h1)
  have eb : (k.rdSram t s.pid a n).1 = bytesIn h t x.sram s.pid a n := by
    rw [rb]
    unfold sramBytes bytesIn
    refine List.map_congr_left fun i _ => ?_
    rw [m.window, et]
  have hq := q _ (m.read ro)
  rw [← eb] at hq
  dsimp only
  cases hx : k.rdSram t s.pid a n with
  | mk bs k' =>
    rw [hx] at hq
    dsimp only at hq ⊢
    rw [runs_bind, runs_set, runs_pure]
    exact hq

/-- Reading SRAM without stain as a use. -/
theorem runs_useT {t : Nat} {s : Slice} {h k : Hw} {x : Tile} (ht : t < 1152) (m : Mid t s h k x) (h1 : x.stain = [])
    (h2 : x.badGranules = []) (a n : Nat) (Q : List Byte → Hw → Prop)
    (q : ∀ k', Mid t s h k' x → Q ((bytesIn h t x.sram s.pid a n).map (·.1)) k') : Runs (useT t a n) k Q := by
  unfold useT
  rw [runs_bind]
  refine runs_rdT ht m h1 h2 a n _ fun k' m' => ?_
  rw [runs_bind, runs_useClean, runs_pure]
  exact ⟨bytesIn_clean _ _ _ _ _ _, q k' m'⟩

/-- Writing unstained bytes to SRAM without stain. -/
theorem runs_wrT {t : Nat} {s : Slice} {h k : Hw} {x : Tile} (ht : t < 1152) (m : Mid t s h k x) (h1 : x.stain = [])
    (h2 : x.badGranules = []) (a : Nat) (bs : List SByte) (hb : bs.any (·.2) = false) (Q : Unit → Hw → Prop)
    (q : ∀ k' y, Mid t s h k' { x with sram := y } →
      (∀ b, SMap.getD 0 y b = (writtenBy h t s.pid a bs b).getD (SMap.getD 0 x.sram b)) → Q () k') :
    Runs (wrT t a bs) k Q := by
  unfold wrT
  rw [runs_bind]
  refine runs_sliceT m _ fun r e => ?_
  rw [runs_modify]
  obtain ⟨w, u, et⟩ := m.tile
  have wr := Wrote.wrSram ht k s.pid a bs (by rw [et]; exact h1) (by rw [et]; exact h2) hb
  obtain ⟨y, m', f⟩ := m.wrote wr
  refine q _ y m' fun b => ?_
  rw [f]
  unfold writtenBy
  rw [m.window]

/-- `SLD`. -/
theorem sld_step {h : Hw} {t : Nat} {s : Slice} {w a : Nat} (ht : t < 1152) (r : TviReady h t s 0x13 w)
    (ha : a = addSigned 32 ((h.tile t).seq.scalar (insnSa w)).1 (insnImm15 w)) (h4 : a % 4 = 0) :
    TileStep t s h (h.issueTvi t 0x13 false (tviSld t)) ((h.tile t).withSeq ((h.tile t).seq.withS (insnSd w)
      (leNat ((sramBytes h t s.pid a 4).map (·.1))) false).bump) := by
  refine Hw.issueTvi_next ht r (by decide) (by decide) _ _ _ fun k m c => ?_
  unfold tviSld siAddr
  rw [runs_bind, runs_bind, runs_useS _ _ _ c]
  dsimp only
  rw [m.seq, ← ha, runs_bind, runs_need]
  refine ⟨by simp [h4], ?_⟩
  rw [runs_pure, runs_bind]
  refine runs_rdT ht m r.clean.sram r.clean.sound a 4 _ fun k' m' => ?_
  rw [runs_setS, bytesIn_clean]
  exact m'.withS _ _ _

theorem withStain_clean (bs : List Byte) : (withStain false bs).any (·.2) = false := by
  unfold withStain
  rw [List.any_map, List.any_eq_false]
  intro x _
  simp

/-- `SST`. -/
theorem sst_step {h : Hw} {t : Nat} {s : Slice} {w a : Nat} (ht : t < 1152) (r : TviReady h t s 0x14 w)
    (ha : a = addSigned 32 ((h.tile t).seq.scalar (insnSa w)).1 (insnImm15 w)) (h4 : a % 4 = 0) :
    ∃ y, TileStep t s h (h.issueTvi t 0x14 false (tviSst t)) ({ h.tile t with sram := y }.withSeq (h.tile t).seq.bump) ∧
      ∀ b, SMap.getD 0 y b = (writtenBy h t s.pid a
        (withStain false (leBytes 4 ((h.tile t).seq.scalar (insnSd w)).1)) b).getD (SMap.getD 0 (h.tile t).sram b) := by
  obtain ⟨k', ⟨y, m, f⟩, e⟩ := Hw.issueTvi_runs ht r (by decide) (by decide) false (tviSst t)
    (fun k' => ∃ y, Mid t s h k' { h.tile t with sram := y } ∧ ∀ b, SMap.getD 0 y b = (writtenBy h t s.pid a
        (withStain false (leBytes 4 ((h.tile t).seq.scalar (insnSd w)).1)) b).getD (SMap.getD 0 (h.tile t).sram b)) fun k ro => by
      have m := Mid.of_read ro r.slice
      have c := ro.clean r.clean
      unfold tviSst siAddr
      rw [runs_bind, runs_bind, runs_useS _ _ _ c]
      dsimp only
      rw [m.seq, ← ha, runs_bind, runs_need]
      refine ⟨by simp [h4], ?_⟩
      rw [runs_pure, runs_bind, runs_seqT, m.seq]
      have hst : ((h.tile t).seq.scalar (insnSd w)).2 = false := by
        unfold Seq.scalar
        split
        · rfl
        · exact r.clean.scalars _
      revert hst
      generalize (h.tile t).seq.scalar (insnSd w) = e
      intro hst
      obtain ⟨v, st⟩ := e
      dsimp only at hst ⊢
      subst hst
      exact runs_wrT ht m r.clean.sram r.clean.sound a _ (withStain_clean _) _ fun k' y m' f => ⟨y, m', f⟩
  refine ⟨y, ?_, f⟩
  rw [e]
  exact m.done.modSeq Seq.bump

/-- A frame that can be popped. -/
theorem runs_popFrame {t : Nat} {s : Slice} {h k : Hw} {x : Tile} (ht : t < 1152) (m : Mid t s h k x) (h1 : x.stain = [])
    (h2 : x.badGranules = []) (size type : Nat) (hp : x.seq.canPop size = true)
    (hty : field ((bytesIn h t x.sram s.pid x.seq.vsp size).map (·.1)) 0 1 = type) (Q : List SByte → Hw → Prop)
    (q : ∀ k', Mid t s h k' x → Q (bytesIn h t x.sram s.pid x.seq.vsp size) k') : Runs (popFrame t size type) k Q := by
  unfold popFrame
  rw [runs_bind, runs_seqT, m.seq, runs_bind, runs_need]
  refine ⟨hp, ?_⟩
  rw [runs_bind]
  refine runs_rdT ht m h1 h2 _ _ _ fun k' m' => ?_
  rw [runs_bind, runs_useClean]
  refine ⟨any_sub (bytesIn_clean h t x.sram s.pid x.seq.vsp size) fun y hy => List.mem_of_mem_take hy, ?_⟩
  dsimp only
  rw [runs_bind, runs_need]
  refine ⟨by rw [hty]; simp, ?_⟩
  rw [runs_pure]
  exact q k' m'

/-- `RET`. -/
theorem ret_step {h : Hw} {t : Nat} {s : Slice} {w : Nat} {bs : List Byte} (ht : t < 1152) (r : TviReady h t s 0x18 w)
    (hp : (h.tile t).seq.canPop 32 = true) (hb : bs = (sramBytes h t s.pid (h.tile t).seq.vsp 32).map (·.1))
    (hty : field bs 0 1 = 1) :
    TileStep t s h (h.issueTvi t 0x18 true (tviRet t)) ((h.tile t).withSeq
      { (h.tile t).seq with vsp := (h.tile t).seq.vsp + 32, pc := field bs 4 4 % 2 ^ 19 }) := by
  refine Hw.issueTvi_jump ht r (by decide) (by decide) _ _ fun k m c => ?_
  unfold tviRet
  rw [runs_bind]
  refine runs_popFrame ht m r.clean.sram r.clean.sound 32 1 hp (by rw [hb] at hty; exact hty) _ fun k' m' => ?_
  rw [runs_bind, runs_modify]
  unfold setPc
  rw [runs_modify]
  have e := (m'.modSeq fun q => { q with vsp := q.vsp + 32 }).modSeq fun q => { q with pc := field bs 4 4 % 2 ^ 19 }
  rw [hb] at e ⊢
  exact e

theorem bytesIn_stain (h : Hw) (t : Nat) (m : SMap Byte) (pid a n i k : Nat) :
    (((bytesIn h t m pid a n).drop i).take k).any (·.2) = false :=
  any_sub (bytesIn_clean h t m pid a n) fun _ hy => List.mem_of_mem_drop (List.mem_of_mem_take hy)

theorem runs_forM_setS {t : Nat} {s : Slice} {h : Hw} (f : Nat → Nat) (l : List Nat) (k : Hw) (x : Tile) (q : Seq)
    (m : Mid t s h k (x.withSeq q)) :
    Runs (l.forM fun i => setS t (i + 1) (f i) false) k fun _ k' =>
      Mid t s h k' (x.withSeq (l.foldl (fun (q : Seq) i => q.withS (i + 1) (f i) false) q)) := by
  induction l generalizing k q with
  | nil => exact (runs_pure _ _ _).2 m
  | cons i l ih =>
    show Runs (setS t (i + 1) (f i) false >>= fun _ => l.forM fun i => setS t (i + 1) (f i) false) k _
    rw [runs_bind, runs_setS]
    exact ih _ _ (m.withS _ _ _)

/-- `XRET`. -/
theorem xret_step {h : Hw} {t : Nat} {s : Slice} {w : Nat} {bs : List Byte} (ht : t < 1152) (r : TviReady h t s 0x1B w)
    (hp : (h.tile t).seq.canPop 64 = true) (hb : bs = (sramBytes h t s.pid (h.tile t).seq.vsp 64).map (·.1))
    (hty : field bs 0 1 = 2) :
    TileStep t s h (h.issueTvi t 0x1B true (tviXret t)) ((h.tile t).withSeq ((h.tile t).seq.xret bs)) := by
  refine Hw.issueTvi_jump ht r (by decide) (by decide) _ _ fun k m c => ?_
  unfold tviXret
  rw [runs_bind]
  refine runs_popFrame ht m r.clean.sram r.clean.sound 64 2 hp (by rw [hb] at hty; exact hty) _ fun k' m' => ?_
  have hbs : (bytesIn h t (h.tile t).sram s.pid (h.tile t).seq.vsp 64).map (·.1) = bs := hb.symm
  rw [hbs]
  dsimp only
  simp only [bytesIn_stain]
  rw [runs_bind]
  refine (runs_forM_setS (fun i => field bs (24 + 4 * i) 4) (List.range 4) k' (h.tile t) (h.tile t).seq m').mono
    fun _ k2 m2 => ?_
  rw [runs_modify]
  exact m2.modSeq _

/-- `CALL`. -/
theorem call_step {h : Hw} {t : Nat} {s : Slice} {w : Nat} (ht : t < 1152) (r : TviReady h t s 0x17 w)
    (hp : (h.tile t).seq.canPush 32 = true) :
    ∃ y, TileStep t s h (h.issueTvi t 0x17 true (tviCall t)) ({ h.tile t with sram := y }.withSeq
        ({ (h.tile t).seq with vsp := (h.tile t).seq.vsp - 32 }.jump (sx 19 (insnImm19 w)))) ∧
      ∀ b, SMap.getD 0 y b = (writtenBy h t s.pid ((h.tile t).seq.vsp - 32)
        (withStain false (callFrame (h.tile t).seq)) b).getD (SMap.getD 0 (h.tile t).sram b) := by
  obtain ⟨k', ⟨y, m, f⟩, e⟩ := Hw.issueTvi_runs ht r (by decide) (by decide) true (tviCall t)
    (fun k' => ∃ y, Mid t s h k' ({ h.tile t with sram := y }.withSeq
        ({ (h.tile t).seq with vsp := (h.tile t).seq.vsp - 32 }.jump (sx 19 (insnImm19 w)))) ∧
      ∀ b, SMap.getD 0 y b = (writtenBy h t s.pid ((h.tile t).seq.vsp - 32)
        (withStain false (callFrame (h.tile t).seq)) b).getD (SMap.getD 0 (h.tile t).sram b)) fun k ro => by
      have m := Mid.of_read ro r.slice
      unfold tviCall
      rw [runs_bind, runs_seqT, m.seq, runs_bind, runs_need]
      refine ⟨hp, ?_⟩
      rw [runs_bind]
      refine runs_wrT ht m r.clean.sram r.clean.sound _ _ (withStain_clean _) _ fun k' y m' f => ?_
      rw [runs_bind, runs_modify, runs_jumpBy]
      exact ⟨y, (m'.modSeq _).jump _, f⟩
  refine ⟨y, ?_, f⟩
  rw [e]
  exact m.done

theorem excFrame_clean (q : Seq) (c : ∀ i, q.sStain.getD i false = false) (cause pc info insn : Nat) :
    (excFrame q cause pc info insn).any (·.2) = false := by
  unfold excFrame
  dsimp only
  simp only [List.any_append, withStain_clean, c, Bool.or_self]

/-- Taking an exception, when a handler is set and none runs (R98, R99). -/
theorem Mid.raiseExc {t : Nat} {s : Slice} {h k : Hw} {x : Tile} (ht : t < 1152) (m : Mid t s h k x) (h1 : x.stain = [])
    (h2 : x.badGranules = []) (hc : ∀ i, x.seq.sStain.getD i false = false) (hx : x.seq.xlive = false) (he : x.seq.exb ≠ 0)
    (hp : x.seq.canPush 64 = true) (cause info insn : Nat) :
    ∃ y, Mid t s h (k.raiseExc t cause info insn) ({ x with sram := y }.withSeq (x.seq.raised cause)) ∧
      ∀ b, SMap.getD 0 y b = (writtenBy h t s.pid (x.seq.vsp - 64)
        (excFrame x.seq cause (if x.seq.inProg then x.seq.pc else 0) info insn) b).getD (SMap.getD 0 x.sram b) := by
  unfold Hw.raiseExc
  obtain ⟨r, e⟩ := m.slice
  obtain ⟨w, u, et⟩ := m.tile
  rw [m.seq, e]
  dsimp only
  rw [hx, if_neg Bool.false_ne_true, if_neg he, hp]
  simp only [Bool.not_true, Bool.false_eq_true, if_false, Option.map, Option.getD]
  have wr := Wrote.wrSram ht k s.pid (x.seq.vsp - 64) (excFrame x.seq cause (if x.seq.inProg then x.seq.pc else 0) info insn)
    (by rw [et]; exact h1) (by rw [et]; exact h2) (excFrame_clean _ hc _ _ _ _)
  obtain ⟨y, m', f⟩ := m.wrote wr
  have ew : writtenBy k t s.pid = writtenBy h t s.pid := by
    funext a bs b
    unfold writtenBy
    rw [m.window]
  rw [ew] at f
  exact ⟨y, m'.modSeq _, f⟩

/-- `TRAP`, when a handler is set and none runs. -/
theorem trap_step {h : Hw} {t : Nat} {s : Slice} {w : Nat} (ht : t < 1152) (r : TviReady h t s 0x1A w)
    (hx : (h.tile t).seq.xlive = false) (he : (h.tile t).seq.exb ≠ 0) (hp : (h.tile t).seq.canPush 64 = true) :
    ∃ y, Mid t s h (h.issueTvi t 0x1A true (tviTrap t)) ({ h.tile t with sram := y }.withSeq ((h.tile t).seq.raised 5)) ∧
      ∀ b, SMap.getD 0 y b = (writtenBy h t s.pid ((h.tile t).seq.vsp - 64)
        (excFrame (h.tile t).seq 5 (if (h.tile t).seq.inProg then (h.tile t).seq.pc else 0) (insnImm19 w) w) b).getD
          (SMap.getD 0 (h.tile t).sram b) := by
  obtain ⟨k, ro, e⟩ := Hw.issueTvi_eq ht r (by decide) (by decide) true (tviTrap t)
  rw [e]
  exact Mid.raiseExc ht (Mid.of_read ro r.slice) r.clean.sram r.clean.sound r.clean.scalars hx he hp 5 (insnImm19 w) w

/-- `ABORT`: the slice is abandoned. -/
theorem abort_step {h : Hw} {t : Nat} {s : Slice} {w : Nat} (ht : t < 1152) (r : TviReady h t s 0x1C w) :
    ∃ k, ReadOnly t h k ∧ h.issueTvi t 0x1C true (tviAbort t) =
      k.abandon t (if (h.tile t).seq.xlive then (h.tile t).seq.excCause else 0) := by
  obtain ⟨k, ro, e⟩ := Hw.issueTvi_eq ht r (by decide) (by decide) true (tviAbort t)
  obtain ⟨w', q, et⟩ := ro.tile
  refine ⟨k, ro, ?_⟩
  rw [e]
  have hs : (k.tile t).seq = (h.tile t).seq := by rw [et]
  show k.abandon t (if (k.tile t).seq.xlive then (k.tile t).seq.excCause else 0) = _
  rw [hs]

end Sys2Proof.Machine
end

