-- ==== Sys2Proof/Laws/Lanes.lean ====
section
/-! SUPPORT. What the vector instructions of TVI do when they complete. -/

namespace Sys2Proof.Machine

open Sys2Proof

/-- Writing lanes of a register, each lane once. -/
theorem bits_lanes (n : Nat) (ws : List (Nat × Nat × Bool)) (r j : Nat) (hd : (ws.map (·.1)).Nodup) :
    (∀ y st, (j, y, st) ∈ ws → bits (ws.foldl (fun r e => setBits r (n * e.1) n e.2.1) r) (n * j) n = y % 2 ^ n) ∧
    (j ∉ ws.map (·.1) → bits (ws.foldl (fun r e => setBits r (n * e.1) n e.2.1) r) (n * j) n = bits r (n * j) n) := by
  induction ws generalizing r with
  | nil => simp
  | cons e ws ih =>
    rw [List.map_cons, List.nodup_cons] at hd
    obtain ⟨i1, i2⟩ := ih (setBits r (n * e.1) n e.2.1) hd.2
    refine ⟨fun y st hm => ?_, fun hj => ?_⟩
    · rw [List.foldl_cons]
      rcases List.mem_cons.1 hm with he | hm
      · subst he
        rw [i2 hd.1]
        exact bits_setBits_same _ _ _ _
      · exact i1 y st hm
    · rw [List.foldl_cons]
      rw [List.map_cons, List.mem_cons, not_or] at hj
      rw [i2 hj.2]
      apply bits_setBits_beside
      rcases Nat.lt_or_gt_of_ne hj.1 with h1 | h1
      · left
        calc n * j + n = n * (j + 1) := by ring
          _ ≤ n * e.1 := Nat.mul_le_mul_left n h1
      · right
        calc n * e.1 + n = n * (e.1 + 1) := by ring
          _ ≤ n * j := Nat.mul_le_mul_left n h1

theorem segStain_clean (n : Nat) (ws : List (Nat × Bool)) (h : ws.any (·.2) = false) : segStain 0 n ws = 0 := by
  have key : ∀ (l : List Nat) (p : Nat → Bool), (∀ i ∈ l, p i = false) →
      l.foldl (fun v i => if p i then v + 2 ^ i else v) 0 = 0 := by
    intro l
    induction l with
    | nil => intros; rfl
    | cons i l ih =>
      intro p hp
      rw [List.foldl_cons, hp i (List.mem_cons_self ..)]
      exact ih p fun j hj => hp j (List.mem_cons_of_mem _ hj)
  unfold segStain mask
  apply key
  intro i _
  dsimp only
  have e : (ws.filter fun e => segOf n e.1 == i).any (·.2) = false :=
    any_sub h fun x hx => (List.mem_filter.1 hx).1
  rw [e]
  simp [bit]

/-- A vector lane without stain as a use. -/
theorem runs_useLane {t : Nat} {s : Slice} {h k : Hw} {x : Tile} {q : Seq} (m : Mid t s h k (x.withSeq q))
    (hq : ∀ v, q.vStain.getD 0 v = 0) (v n i : Nat) (Q : Nat → Hw → Prop) :
    Runs (useLane t v n i) k Q ↔ Q (q.vlane v n i) k := by
  unfold useLane
  rw [runs_bind, runs_seqT, m.seq, Tile.withSeq_seq, runs_bind, runs_useClean, runs_pure]
  have e : q.vstained v n i = false := by
    unfold Seq.vstained bit
    rw [hq]
    exact Nat.zero_testBit _
  rw [e]
  simp

/-- The values of a list of lanes: each satisfies its relation, and the overflow flag collects theirs. -/
theorem runs_mapM_mid {α β : Type} {t : Nat} {s : Slice} {h : Hw} {x : Tile} {q : Seq} (f : α → T β) (R : α → β → Prop)
    (ov : α → Bool) (l : List α)
    (hf : ∀ i ∈ l, ∀ k o, Mid t s h k (x.withSeq { q with overflow := o }) → ∀ P : β → Hw → Prop,
      (∀ y k', R i y → Mid t s h k' (x.withSeq { q with overflow := o || ov i }) → P y k') → Runs (f i) k P)
    (k : Hw) (o : Bool) (m : Mid t s h k (x.withSeq { q with overflow := o })) (Q : List β → Hw → Prop)
    (fin : ∀ ys k', List.Forall₂ R l ys → Mid t s h k' (x.withSeq { q with overflow := o || l.any ov }) → Q ys k') :
    Runs (l.mapM f) k Q := by
  induction l generalizing k o Q with
  | nil =>
    rw [List.mapM_nil, runs_pure]
    exact fin [] k .nil (by rw [List.any_nil, Bool.or_false]; exact m)
  | cons i l ih =>
    rw [List.mapM_cons, runs_bind]
    refine hf i (List.mem_cons_self ..) k o m _ fun y k' hy m' => ?_
    rw [runs_bind]
    refine ih (fun j hj => hf j (List.mem_cons_of_mem _ hj)) k' _ m' _ fun ys k2 hys m2 => ?_
    rw [runs_pure]
    refine fin _ _ (.cons hy hys) ?_
    rw [List.any_cons, ← Bool.or_assoc]
    exact m2

theorem enabled_mem {q : Seq} {w k i : Nat} : i ∈ (List.range k).filter (q.lane w) ↔ q.enabledLane w k i := by
  rw [List.mem_filter, List.mem_range]; rfl

theorem enabled_nodup (q : Seq) (w k : Nat) : ((List.range k).filter (q.lane w)).Nodup := List.Nodup.filter _ List.nodup_range

/-- Writing lanes of a register that nothing stains. -/
theorem runs_setLanes {t : Nat} {s : Slice} {h k : Hw} {x : Tile} {q0 q : Seq} {v n : Nat} {ov : Bool}
    {is : List Nat} {ws : List (Nat × Nat × Bool)} {R : Nat → Nat → Prop} (m : Mid t s h k (x.withSeq q))
    (hq : q = { q0 with overflow := q0.overflow || ov }) (hc : ∀ v, q0.vStain.getD 0 v = 0) (hd : is.Nodup)
    (hw : List.Forall₂ (fun i (e : Nat × Nat × Bool) => e.1 = i ∧ e.2.2 = false ∧ R i e.2.1) is ws) (Q : Unit → Hw → Prop)
    (fin : ∀ k' q', Mid t s h k' (x.withSeq q') →
      LanesSet q0 q' v n ov (fun i y => (i ∈ is → ∃ z, R i z ∧ y = z % 2 ^ n) ∧ (i ∉ is → y = q0.vlane v n i)) → Q () k') :
    Runs (setLanes t v n ws) k Q := by
  unfold setLanes
  rw [runs_modify]
  refine fin _ _ (m.modSeq _) ?_
  have hkeys : ws.map (·.1) = is := by
    clear fin hd
    induction hw with
    | nil => rfl
    | cons h1 _ ih => rw [List.map_cons, h1.1, ih]
  have hst : (ws.map fun e => (e.1, e.2.2)).any (·.2) = false := by
    clear fin hd hkeys
    induction hw with
    | nil => rfl
    | cons h1 _ ih => rw [List.map_cons, List.any_cons, h1.2.1, ih]; rfl
  have hmem : ∀ i ∈ is, ∃ z st, (i, z, st) ∈ ws ∧ R i z := by
    clear fin hd hkeys hst
    induction hw with
    | nil => intro i hi; exact absurd hi List.not_mem_nil
    | cons h1 _ ih =>
      rename_i a e l l' _
      intro i hi
      rcases List.mem_cons.1 hi with rfl | hi
      · refine ⟨e.2.1, e.2.2, ?_, h1.2.2⟩
        rw [← h1.1]
        exact List.mem_cons_self ..
      · obtain ⟨z, st, hz, hr⟩ := ih i hi
        exact ⟨z, st, List.mem_cons_of_mem _ hz, hr⟩
  subst hq
  have hv : ({ q0 with overflow := q0.overflow || ov } : Seq).v = q0.v := rfl
  refine ⟨fun i => ?_, fun j hj => ?_, fun j => ?_, rfl⟩
  · obtain ⟨b1, b2⟩ := bits_lanes n ws (q0.v.getD 0 v) i (by rw [hkeys]; exact hd)
    unfold Seq.vlane
    dsimp only [Tile.withSeq]
    rw [SMap.getD_putD_same]
    refine ⟨fun hi => ?_, fun hi => ?_⟩
    · obtain ⟨z, st, hz, hr⟩ := hmem i hi
      exact ⟨z, hr, b1 z st hz⟩
    · exact b2 (by rw [hkeys]; exact hi)
  · dsimp only [Tile.withSeq]
    exact SMap.getD_putD_ne _ _ _ (Ne.symm hj)
  · dsimp only [Tile.withSeq]
    rw [hc v, segStain_clean n _ hst, SMap.getD_putD]
    split
    · rfl
    · exact hc j

/-- Computing the enabled lanes. -/
theorem runs_mapLanes {t : Nat} {s : Slice} {h k : Hw} {x : Tile} {q : Seq} {w v n c : Nat} (f : Nat → T Nat)
    (g : Nat → Nat) (ov : Nat → Bool) (m : Mid t s h k (x.withSeq q)) (hc : ∀ v, q.vStain.getD 0 v = 0)
    (hf : ∀ i, ∀ k o, Mid t s h k (x.withSeq { q with overflow := o }) → ∀ P : Nat → Hw → Prop,
      (∀ k', Mid t s h k' (x.withSeq { q with overflow := o || ov i }) → P (g i) k') → Runs (f i) k P)
    (Q : Unit → Hw → Prop)
    (fin : ∀ k' q', Mid t s h k' (x.withSeq q') →
      LanesSet q q' v n (((List.range c).filter (q.lane w)).any ov)
        (fun i y => (q.enabledLane w c i → y = g i % 2 ^ n) ∧ (¬ q.enabledLane w c i → y = q.vlane v n i)) → Q () k') :
    Runs (mapLanes t w v n c f) k Q := by
  unfold mapLanes enabled
  rw [runs_bind, runs_bind, runs_seqT, runs_pure, m.seq, Tile.withSeq_seq, runs_bind]
  refine runs_mapM_mid _ (fun i e => e.1 = i ∧ e.2.2 = false ∧ e.2.1 = g i % 2 ^ n) ov _ (fun i _ k o m P hP => ?_) k
    q.overflow m _ fun ws k' hw m' => ?_
  · rw [runs_bind]
    refine hf i k o m _ fun k' m' => ?_
    rw [runs_pure]
    exact hP _ _ ⟨rfl, rfl, rfl⟩ m'
  · refine runs_setLanes (R := fun i z => z = g i % 2 ^ n) m' rfl hc (enabled_nodup q w c) hw _ fun k2 q' m2 l => ?_
    refine fin k2 q' m2 ⟨fun i => ?_, l.others, l.clean, l.rest⟩
    obtain ⟨l1, l2⟩ := l.lanes i
    rw [enabled_mem] at l1 l2
    refine ⟨fun hi => ?_, l2⟩
    obtain ⟨z, hz, hy⟩ := l1 hi
    rw [hy, hz, Nat.mod_mod]

/-- A step of a program that moves on, with what holds of the tile that it leaves. -/
theorem Hw.issueTvi_some {h : Hw} {t : Nat} {s : Slice} {op w : Nat} (ht : t < 1152) (r : TviReady h t s op w)
    (h1 : op ≠ 0) (h2 : op < 0x20) (eff : Nat → T Unit) (P : Tile → Prop)
    (run : ∀ k, Mid t s h k (h.tile t) → Runs (eff w) k fun _ k' => ∃ y, Mid t s h k' y ∧ P y) :
    ∃ y, TileStep t s h (h.issueTvi t op false eff) (y.withSeq y.seq.bump) ∧ P y := by
  obtain ⟨k', ⟨y, m, hp⟩, e⟩ := Hw.issueTvi_runs ht r h1 h2 false eff (fun k' => ∃ y, Mid t s h k' y ∧ P y) fun k ro =>
    run k (Mid.of_read ro r.slice)
  refine ⟨y, ?_, hp⟩
  rw [e]
  exact m.done.modSeq Seq.bump

/-- A step of a program that changes the sequencer only. -/
theorem Hw.issueTvi_seq {h : Hw} {t : Nat} {s : Slice} {op w : Nat} (ht : t < 1152) (r : TviReady h t s op w)
    (h1 : op ≠ 0) (h2 : op < 0x20) (eff : Nat → T Unit) (P : Seq → Prop)
    (run : ∀ k, Mid t s h k ((h.tile t).withSeq (h.tile t).seq) →
      Runs (eff w) k fun _ k' => ∃ q, Mid t s h k' ((h.tile t).withSeq q) ∧ P q) :
    ∃ q, TileStep t s h (h.issueTvi t op false eff) ((h.tile t).withSeq q.bump) ∧ P q := by
  obtain ⟨y, ts, q, rfl, hp⟩ := Hw.issueTvi_some ht r h1 h2 eff (fun y => ∃ q, y = (h.tile t).withSeq q ∧ P q) fun k m =>
    (run k m).mono fun _ k' ⟨q, m', hp⟩ => ⟨_, m', q, rfl, hp⟩
  exact ⟨q, ts, hp⟩

theorem valuLanes_runs {t : Nat} {s : Slice} {h k : Hw} {x : Tile} {q : Seq} {w : Nat} (m : Mid t s h k (x.withSeq q))
    (hc : ∀ v, q.vStain.getD 0 v = 0) (second : Nat → T Nat) (b : Nat → Nat) (hl : fnLegal (insnFn w) = true)
    (hs : ∀ i, ∀ k o, Mid t s h k (x.withSeq { q with overflow := o }) → ∀ P : Nat → Hw → Prop, P (b i) k → Runs (second i) k P) :
    Runs (valuLanes t w second) k fun _ k' => ∃ q', Mid t s h k' (x.withSeq q') ∧
      LanesSet q q' (insnVd w) (laneBits (insnW w)) false (fun i y =>
        (q.enabledLane w (laneCount (insnW w)) i → y = q.valuLane w b i % 2 ^ laneBits (insnW w)) ∧
        (¬ q.enabledLane w (laneCount (insnW w)) i → y = q.vlane (insnVd w) (laneBits (insnW w)) i)) := by
  unfold valuLanes
  dsimp only
  rw [runs_bind, runs_need]
  refine ⟨hl, ?_⟩
  refine runs_mapLanes _ (q.valuLane w b) (fun _ => false) m hc (fun i k o m P hP => ?_) _ fun k' q' m' l => ?_
  · have hP := hP k (by rw [Bool.or_false]; exact m)
    have hc2 : ∀ v, ({ q with overflow := o } : Seq).vStain.getD 0 v = 0 := hc
    have ev : ∀ v n i, ({ q with overflow := o } : Seq).vlane v n i = q.vlane v n i := fun _ _ _ => rfl
    rw [runs_bind, runs_useLane m hc2, ev]
    unfold Seq.valuLane at hP
    dsimp only at hP
    by_cases hb : fnBinary (insnFn w) = true
    · simp only [hb, if_true] at hP ⊢
      rw [runs_bind]
      refine hs i k o m _ ?_
      by_cases h3 : (insnFn w % 32 == 3) = true
      · simp only [h3, if_true] at hP ⊢
        rw [runs_bind, runs_useLane m hc2, ev, runs_pure]
        exact hP
      · simp only [h3, Bool.false_eq_true, if_false] at hP ⊢
        rw [runs_bind, runs_pure, runs_pure]
        exact hP
    · simp only [hb, Bool.false_eq_true, if_false] at hP ⊢
      rw [runs_bind, runs_pure]
      by_cases h3 : (insnFn w % 32 == 3) = true
      · simp only [h3, if_true] at hP ⊢
        rw [runs_bind, runs_useLane m hc2, ev, runs_pure]
        exact hP
      · simp only [h3, Bool.false_eq_true, if_false] at hP ⊢
        rw [runs_bind, runs_pure, runs_pure]
        exact hP
  · refine ⟨q', m', ?_⟩
    have e : ∀ l : List Nat, l.any (fun _ => false) = false := fun l => by induction l <;> simp_all
    rw [e] at l
    exact l

/-- `VALU`. -/
theorem valu_step {h : Hw} {t : Nat} {s : Slice} {w : Nat} (ht : t < 1152) (r : TviReady h t s 0x01 w)
    (hl : fnLegal (insnFn w) = true) :
    ∃ q', TileStep t s h (h.issueTvi t 0x01 false (tviValu t)) ((h.tile t).withSeq q'.bump) ∧
      LanesSet (h.tile t).seq q' (insnVd w) (laneBits (insnW w)) false (fun i y =>
        ((h.tile t).seq.enabledLane w (laneCount (insnW w)) i →
          y = (h.tile t).seq.valuLane w ((h.tile t).seq.vlane (insnVb w) (laneBits (insnW w))) i % 2 ^ laneBits (insnW w)) ∧
        (¬ (h.tile t).seq.enabledLane w (laneCount (insnW w)) i →
          y = (h.tile t).seq.vlane (insnVd w) (laneBits (insnW w)) i)) := by
  refine Hw.issueTvi_seq ht r (by decide) (by decide) _ _ fun k m => ?_
  refine valuLanes_runs m r.clean.vectors _ _ hl fun i k o m P hP => ?_
  have hc2 : ∀ v, ({ (h.tile t).seq with overflow := o } : Seq).vStain.getD 0 v = 0 := r.clean.vectors
  exact (runs_useLane m hc2 _ _ _ _).2 hP

/-- A scalar without stain in the middle of a step. -/
theorem runs_useS_mid {t : Nat} {s : Slice} {h k : Hw} {x : Tile} {q : Seq} (m : Mid t s h k (x.withSeq q))
    (hq : ∀ i, q.sStain.getD i false = false) (i : Nat) (Q : Nat → Hw → Prop) :
    Runs (useS t i) k Q ↔ Q (q.scalar i).1 k := by
  unfold useS
  rw [runs_bind, runs_seqT, m.seq, Tile.withSeq_seq]
  have e : (q.scalar i).2 = false := by
    unfold Seq.scalar
    split
    · rfl
    · exact hq i
  revert e
  generalize q.scalar i = y
  intro e
  obtain ⟨v, st⟩ := y
  dsimp only at e ⊢
  subst e
  rw [runs_bind, runs_useClean, runs_pure]
  simp

/-- `VALUX`. -/
theorem valux_step {h : Hw} {t : Nat} {s : Slice} {w : Nat} (ht : t < 1152) (r : TviReady h t s 0x02 w)
    (hl : fnLegal (insnFn w) = true) :
    ∃ q', TileStep t s h (h.issueTvi t 0x02 false (tviValux t)) ((h.tile t).withSeq q'.bump) ∧
      LanesSet (h.tile t).seq q' (insnVd w) (laneBits (insnW w)) false (fun i y =>
        ((h.tile t).seq.enabledLane w (laneCount (insnW w)) i →
          y = (h.tile t).seq.valuLane w (fun _ => ((h.tile t).seq.scalar (insnXSb w)).1 % 2 ^ laneBits (insnW w)) i %
            2 ^ laneBits (insnW w)) ∧
        (¬ (h.tile t).seq.enabledLane w (laneCount (insnW w)) i →
          y = (h.tile t).seq.vlane (insnVd w) (laneBits (insnW w)) i)) := by
  refine Hw.issueTvi_seq ht r (by decide) (by decide) _ _ fun k m => ?_
  refine valuLanes_runs m r.clean.vectors _ _ hl fun i k o m P hP => ?_
  have hc2 : ∀ v, ({ (h.tile t).seq with overflow := o } : Seq).sStain.getD v false = false := r.clean.scalars
  rw [runs_bind, runs_useS_mid m hc2, runs_pure]
  exact hP

theorem runs_flagsT {t : Nat} {s : Slice} {h k : Hw} {x : Tile} {q : Seq} {o : Bool}
    (m : Mid t s h k (x.withSeq { q with overflow := o })) (b : Bool) (Q : Unit → Hw → Prop)
    (fin : ∀ k', Mid t s h k' (x.withSeq { q with overflow := o || b }) → Q () k') : Runs (flagsT t false b) k Q := by
  unfold flagsT
  cases b with
  | false =>
    simp only [Bool.or_self, Bool.false_eq_true, if_false]
    rw [runs_pure]
    exact fin k (by rw [Bool.or_false]; exact m)
  | true =>
    simp only [Bool.or_true, if_true]
    rw [runs_modify]
    have e := m.modSeq fun q => { q with inexact := q.inexact || false, overflow := q.overflow || true }
    simp only [Bool.or_false, Bool.or_true] at e fin ⊢
    exact fin _ e

/-- `VLUT`. -/
theorem vlut_step {h : Hw} {t : Nat} {s : Slice} {w : Nat} (ht : t < 1152) (r : TviReady h t s 0x0A w) :
    ∃ q', TileStep t s h (h.issueTvi t 0x0A false (tviVlut t)) ((h.tile t).withSeq q'.bump) ∧
      LanesSet (h.tile t).seq q' (insnVd w) (laneBits (insnW w))
        (((List.range (laneCount (insnW w))).filter ((h.tile t).seq.lane w)).any fun i =>
          ((h.tile t).seq.vlutLane w ((h.tile t).luts.getD [] (insnFn w % 8)) i).2) (fun i y =>
        ((h.tile t).seq.enabledLane w (laneCount (insnW w)) i →
          y = ((h.tile t).seq.vlutLane w ((h.tile t).luts.getD [] (insnFn w % 8)) i).1 % 2 ^ laneBits (insnW w)) ∧
        (¬ (h.tile t).seq.enabledLane w (laneCount (insnW w)) i →
          y = (h.tile t).seq.vlane (insnVd w) (laneBits (insnW w)) i)) := by
  refine Hw.issueTvi_seq ht r (by decide) (by decide) _ _ fun k m => ?_
  unfold tviVlut
  dsimp only
  rw [runs_bind, runs_get]
  have el : (k.tile t).luts = (h.tile t).luts := by
    obtain ⟨_, _, e⟩ := m.tile
    rw [e]; rfl
  rw [el]
  generalize (h.tile t).luts.getD [] (insnFn w % 8) = ws
  refine runs_mapLanes _ (fun i => ((h.tile t).seq.vlutLane w ws i).1) (fun i => ((h.tile t).seq.vlutLane w ws i).2) m
    r.clean.vectors (fun i k o m P hP => ?_) _ fun k' q' m' l => ⟨q', m', l⟩
  have hc2 : ∀ v, ({ (h.tile t).seq with overflow := o } : Seq).vStain.getD 0 v = 0 := r.clean.vectors
  have ev : ∀ v n i, ({ (h.tile t).seq with overflow := o } : Seq).vlane v n i = (h.tile t).seq.vlane v n i := fun _ _ _ => rfl
  rw [runs_bind, runs_useLane m hc2, ev]
  unfold Seq.vlutLane at hP
  dsimp only at hP
  by_cases h0 : insnW w = 0
  · simp only [h0, if_true] at hP ⊢
    rw [runs_pure]
    exact hP k (by rw [Bool.or_false]; exact m)
  · simp only [h0, if_false] at hP ⊢
    revert hP
    generalize toFp (laneFp (insnW w)) Rnd.rne _ = y
    intro hP
    obtain ⟨y, ov⟩ := y
    dsimp only at hP ⊢
    rw [runs_bind]
    refine runs_flagsT m ov _ fun k' m' => ?_
    rw [runs_pure]
    exact hP k' m'

/-- `VCVT`. -/
theorem vcvt_step {h : Hw} {t : Nat} {s : Slice} {w : Nat} (ht : t < 1152) (r : TviReady h t s 0x0E w) :
    ∃ q', TileStep t s h (h.issueTvi t 0x0E false (tviVcvt t)) ((h.tile t).withSeq q'.bump) ∧
      LanesSet (h.tile t).seq q' (insnVd w) (laneBits (insnW w))
        (((List.range (laneCount (insnW w))).filter ((h.tile t).seq.lane w)).any fun i =>
          ((h.tile t).seq.vcvtLane w i).2) (fun i y =>
        ((h.tile t).seq.enabledLane w (laneCount (insnW w)) i →
          y = ((h.tile t).seq.vcvtLane w i).1 % 2 ^ laneBits (insnW w)) ∧
        (¬ (h.tile t).seq.enabledLane w (laneCount (insnW w)) i →
          y = (h.tile t).seq.vlane (insnVd w) (laneBits (insnW w)) i)) := by
  refine Hw.issueTvi_seq ht r (by decide) (by decide) _ _ fun k m => ?_
  unfold tviVcvt
  dsimp only
  rw [runs_bind, runs_seqT, m.seq, Tile.withSeq_seq]
  refine runs_mapLanes _ (fun i => ((h.tile t).seq.vcvtLane w i).1) (fun i => ((h.tile t).seq.vcvtLane w i).2) m
    r.clean.vectors (fun i k o m P hP => ?_) _ fun k' q' m' l => ⟨q', m', l⟩
  have hc2 : ∀ v, ({ (h.tile t).seq with overflow := o } : Seq).vStain.getD 0 v = 0 := r.clean.vectors
  have ev : ∀ v n i, ({ (h.tile t).seq with overflow := o } : Seq).vlane v n i = (h.tile t).seq.vlane v n i := fun _ _ _ => rfl
  rw [runs_bind, runs_useLane m hc2, ev]
  unfold Seq.vcvtLane at hP
  dsimp only at hP
  revert hP
  generalize toElem _ _ _ = y
  intro hP
  obtain ⟨y, ov⟩ := y
  dsimp only at hP ⊢
  rw [runs_bind]
  refine runs_flagsT m ov _ fun k' m' => ?_
  rw [runs_pure]
  exact hP k' m'

/-- `VCMP`. -/
theorem vcmp_step {h : Hw} {t : Nat} {s : Slice} {w : Nat} (ht : t < 1152) (r : TviReady h t s 0x03 w) :
    TileStep t s h (h.issueTvi t 0x03 false (tviVcmp t)) ((h.tile t).withSeq
      ((h.tile t).seq.withP (insnVd w % 8) ((h.tile t).seq.vcmp w)).bump) := by
  refine Hw.issueTvi_next ht r (by decide) (by decide) _ _ _ fun k m c => ?_
  unfold tviVcmp enabled
  dsimp only
  rw [runs_bind, runs_bind, runs_seqT, runs_pure, m.seq, runs_bind]
  have m0 : Mid t s h k ((h.tile t).withSeq (h.tile t).seq) := m
  refine runs_mapM_pure _ _ (fun i => (i, relation (insnFn w % 4) (bit (insnFn w) 5) (insnW w)
      ((h.tile t).seq.vlane (insnVa w) (laneBits (insnW w)) i) ((h.tile t).seq.vlane (insnVb w) (laneBits (insnW w)) i)))
    k _ (fun i _ P hP => ?_) ?_
  · rw [runs_bind, runs_useLane m0 r.clean.vectors, runs_bind, runs_useLane m0 r.clean.vectors, runs_pure]
    exact hP
  · rw [runs_bind, runs_seqT, runs_setP, m.seq, List.foldl_map]
    exact m.withP _ _

theorem writesBy_cons (h : Hw) (t pid a : Nat) (bs : List SByte) (ws : List (Nat × List SByte)) (b : Nat) :
    writesBy h t pid ((a, bs) :: ws) b = (writesBy h t pid ws b).or (writtenBy h t pid a bs b) := rfl

/-- A tile state in which nothing is stained. -/
structure Clear (x : Tile) : Prop where
  sram : x.stain = []
  sound : x.badGranules = []
  scalars : ∀ i, x.seq.sStain.getD i false = false

theorem Clean.clear {h : Hw} {t : Nat} (c : Clean h t) : Clear (h.tile t) := ⟨c.sram, c.sound, c.scalars⟩

/-- Clearing stain where there is none. -/
theorem mid_sealRows {t : Nat} {s : Slice} {h k : Hw} {x : Tile} (m : Mid t s h k x) (c : Clear x) (pid : Nat) (rows : List (Nat × List SByte)) :
    Mid t s h (k.sealRows t pid rows) x := by
  unfold Hw.sealRows
  generalize coverage rows = gs
  induction gs generalizing k with
  | nil => exact m
  | cons g gs ih =>
    rw [List.foldl_cons]
    refine ih ?_
    split
    · have e : { x with stain := NSet.rem x.stain g.1 } = x := by
        have := c.sram
        cases x
        dsimp only at this ⊢
        subst this
        rfl
      have m' := m.modTile (fun y => { y with stain := NSet.rem y.stain g.1 }) fun _ _ _ => rfl
      rw [e] at m'
      exact m'
    · exact m

theorem runs_sealT {t : Nat} {s : Slice} {h k : Hw} {x : Tile} (m : Mid t s h k x) (c : Clear x) (rows : List (Nat × List SByte)) (Q : Unit → Hw → Prop)
    (fin : ∀ k', Mid t s h k' x → Q () k') : Runs (sealT t rows) k Q := by
  unfold sealT
  rw [runs_bind]
  refine runs_sliceT m _ fun r e => ?_
  rw [runs_modify]
  exact fin _ (mid_sealRows m c _ _)

/-- Writing an operation's rows of unstained bytes. -/
theorem runs_wrRows {t : Nat} {s : Slice} {h k : Hw} {x : Tile} (ht : t < 1152) (m : Mid t s h k x) (c : Clear x) (rows : List (Nat × List SByte))
    (hb : ∀ r ∈ rows, r.2.any (·.2) = false) (Q : Unit → Hw → Prop)
    (fin : ∀ k' y, Mid t s h k' { x with sram := y } → SramAfter h t s.pid x.sram rows y → Q () k') :
    Runs (wrRows t rows) k Q := by
  unfold wrRows
  rw [runs_bind]
  refine runs_sliceT m _ fun r e => ?_
  rw [runs_modify]
  have key : ∀ (l : List (Nat × List SByte)) (k : Hw) (y : SMap Byte), (∀ r ∈ l, r.2.any (·.2) = false) →
      Mid t s h k { x with sram := y } → ∃ z, Mid t s h (l.foldl (fun h r => h.wrSram t s.pid r.1 r.2) k) { x with sram := z } ∧
        SramAfter h t s.pid y l z := by
    intro l
    induction l with
    | nil => intro k y _ m; exact ⟨y, m, fun _ => rfl⟩
    | cons e l ih =>
      intro k y hl m
      obtain ⟨a, bs⟩ := e
      rw [List.foldl_cons]
      obtain ⟨w, u, et⟩ := m.tile
      have wr := Wrote.wrSram ht k s.pid a bs (by rw [et]; exact c.sram) (by rw [et]; exact c.sound) (hl _ (List.mem_cons_self ..))
      obtain ⟨y', m', f⟩ := m.wrote wr
      obtain ⟨z, m2, f2⟩ := ih _ y' (fun r hr => hl r (List.mem_cons_of_mem _ hr)) m'
      refine ⟨z, m2, fun b => ?_⟩
      have ew : writtenBy k t s.pid a bs = writtenBy h t s.pid a bs := by
        funext b
        unfold writtenBy
        rw [m.window]
      have f2b := f2 b
      have fb := f b
      rw [ew] at fb
      rw [f2b, writesBy_cons, fb]
      cases writesBy h t s.pid l b <;> rfl
  obtain ⟨z, m', f⟩ := key rows k x.sram hb m
  exact fin _ z (mid_sealRows m' ⟨c.sram, c.sound, c.scalars⟩ _ _) f

/-- `VLD`. -/
theorem vld_step {h : Hw} {t : Nat} {s : Slice} {w : Nat} (ht : t < 1152) (r : TviReady h t s 0x04 w)
    (ha : ((h.tile t).seq.scalar (insnMSb w)).1 % 32 = 0) :
    ∃ q', TileStep t s h (h.issueTvi t 0x04 false (tviVld t)) ((h.tile t).withSeq q'.bump) ∧
      LanesSet (h.tile t).seq q' (insnVd w) 32 false (fun i y =>
        ((h.tile t).seq.enabledLane w 64 i → y = leNat ((((sramBytes h t s.pid ((h.tile t).seq.vmAddr w) 256).drop (4 * i)).take 4).map (·.1)) % 2 ^ 32) ∧
        (¬ (h.tile t).seq.enabledLane w 64 i → y = (h.tile t).seq.vlane (insnVd w) 32 i)) := by
  refine Hw.issueTvi_seq ht r (by decide) (by decide) _ _ fun k m => ?_
  unfold tviVld vmAddr enabled
  rw [runs_bind, runs_bind, runs_useS_mid m r.clean.scalars, runs_bind, runs_need]
  refine ⟨by rw [ha]; rfl, ?_⟩
  rw [runs_pure, runs_bind]
  refine runs_rdT ht m r.clean.sram r.clean.sound _ _ _ fun k' m' => ?_
  rw [runs_bind, runs_bind, runs_seqT, runs_pure, m'.seq, Tile.withSeq_seq]
  refine runs_setLanes (q0 := (h.tile t).seq) (ov := false) (is := (List.range 64).filter ((h.tile t).seq.lane w))
    (R := fun i z => z = leNat ((((sramBytes h t s.pid ((h.tile t).seq.vmAddr w) 256).drop (4 * i)).take 4).map (·.1)))
    m' (by rw [Bool.or_false]) r.clean.vectors (enabled_nodup _ _ _) ?_ _ fun k2 q' m2 l => ?_
  · rw [List.forall₂_map_right_iff]
    refine List.forall₂_same.2 fun i _ => ⟨rfl, bytesIn_stain _ _ _ _ _ _ _ _, rfl⟩
  · refine ⟨q', m2, fun i => ?_, l.others, l.clean, l.rest⟩
    obtain ⟨l1, l2⟩ := l.lanes i
    rw [enabled_mem] at l1 l2
    refine ⟨fun hi => ?_, l2⟩
    obtain ⟨z, rfl, hy⟩ := l1 hi
    exact hy

theorem vstained_clean {q : Seq} (hq : ∀ v, q.vStain.getD 0 v = 0) (v n i : Nat) : q.vstained v n i = false := by
  unfold Seq.vstained bit
  rw [hq]
  exact Nat.zero_testBit _

/-- `VST`. -/
theorem vst_step {h : Hw} {t : Nat} {s : Slice} {w : Nat} (ht : t < 1152) (r : TviReady h t s 0x05 w)
    (ha : ((h.tile t).seq.scalar (insnMSb w)).1 % 32 = 0) :
    ∃ y, TileStep t s h (h.issueTvi t 0x05 false (tviVst t)) ({ h.tile t with sram := y }.withSeq (h.tile t).seq.bump) ∧
      SramAfter h t s.pid (h.tile t).sram (((h.tile t).seq.lanesOn w 64).map fun i =>
        ((h.tile t).seq.vmAddr w + 4 * i, withStain false (leBytes 4 ((h.tile t).seq.vlane (insnVd w) 32 i)))) y := by
  obtain ⟨y, ts, z, rfl, f⟩ := Hw.issueTvi_some ht r (by decide) (by decide) (tviVst t) (fun y => ∃ z, y = { h.tile t with sram := z } ∧
    SramAfter h t s.pid (h.tile t).sram (((h.tile t).seq.lanesOn w 64).map fun i =>
        ((h.tile t).seq.vmAddr w + 4 * i, withStain false (leBytes 4 ((h.tile t).seq.vlane (insnVd w) 32 i)))) z) fun k m => by
      have m : Mid t s h k ((h.tile t).withSeq (h.tile t).seq) := m
      unfold tviVst vmAddr enabled
      rw [runs_bind, runs_bind, runs_useS_mid m r.clean.scalars, runs_bind, runs_need]
      refine ⟨by rw [ha]; rfl, ?_⟩
      rw [runs_pure, runs_bind, runs_seqT, m.seq, Tile.withSeq_seq]
      dsimp only
      rw [runs_bind, runs_bind, runs_seqT, runs_pure, m.seq, Tile.withSeq_seq]
      simp only [vstained_clean r.clean.vectors]
      refine runs_wrRows ht m ⟨r.clean.sram, r.clean.sound, r.clean.scalars⟩ _ (fun e he => ?_) _ fun k' z m' f => ⟨_, m', z, rfl, f⟩
      obtain ⟨i, _, rfl⟩ := List.mem_map.1 he
      exact withStain_clean _
  exact ⟨z, ts, f⟩

/-- The word addresses of the enabled lanes, when each is a multiple of 4. -/
theorem runs_wordAddrs {t : Nat} {s : Slice} {h k : Hw} {x : Tile} {q : Seq} (m : Mid t s h k (x.withSeq q))
    (hq : ∀ v, q.vStain.getD 0 v = 0) (w : Nat) (ha : ∀ i, q.enabledLane w 64 i → q.laneAddr w i % 4 = 0)
    (Q : List (Nat × Nat) → Hw → Prop) (fin : Q ((q.lanesOn w 64).map fun i => (i, q.laneAddr w i)) k) :
    Runs (wordAddrs t w) k Q := by
  unfold wordAddrs enabled
  rw [runs_bind, runs_bind, runs_seqT, runs_pure, m.seq, Tile.withSeq_seq]
  refine runs_mapM_pure _ _ (fun i => (i, q.laneAddr w i)) k _ (fun i hi P hP => ?_) fin
  rw [runs_bind, runs_useLane m hq, runs_bind, runs_need, runs_pure]
  refine ⟨?_, hP⟩
  have := ha i (enabled_mem.1 hi)
  unfold Seq.laneAddr at this
  rw [this]; rfl

/-- `VGATH`. -/
theorem vgath_step {h : Hw} {t : Nat} {s : Slice} {w : Nat} (ht : t < 1152) (r : TviReady h t s 0x06 w)
    (ha : ∀ i, (h.tile t).seq.enabledLane w 64 i → (h.tile t).seq.laneAddr w i % 4 = 0) :
    ∃ q', TileStep t s h (h.issueTvi t 0x06 false (tviVgath t)) ((h.tile t).withSeq q'.bump) ∧
      LanesSet (h.tile t).seq q' (insnVd w) 32 false (fun i y =>
        ((h.tile t).seq.enabledLane w 64 i → y = leNat ((sramBytes h t s.pid ((h.tile t).seq.laneAddr w i) 4).map (·.1)) % 2 ^ 32) ∧
        (¬ (h.tile t).seq.enabledLane w 64 i → y = (h.tile t).seq.vlane (insnVd w) 32 i)) := by
  refine Hw.issueTvi_seq ht r (by decide) (by decide) _ _ fun k m => ?_
  unfold tviVgath
  rw [runs_bind]
  refine runs_wordAddrs m r.clean.vectors w ha _ ?_
  rw [runs_bind]
  have mo : Mid t s h k ((h.tile t).withSeq { (h.tile t).seq with overflow := (h.tile t).seq.overflow }) := m
  refine runs_mapM_mid (q := (h.tile t).seq) _ (fun (e : Nat × Nat) (y : Nat × Nat × Bool) => y.1 = e.1 ∧ y.2.2 = false ∧
    y.2.1 = leNat ((sramBytes h t s.pid e.2 4).map (·.1))) (fun _ => false) _ (fun e _ k o m P hP => ?_) k _ mo _
    fun ws k' hw m' => ?_
  · obtain ⟨i, a⟩ := e
    dsimp only
    rw [runs_bind]
    refine runs_rdT ht m r.clean.sram r.clean.sound a 4 _ fun k' m' => ?_
    rw [runs_pure]
    exact hP _ _ ⟨rfl, bytesIn_clean _ _ _ _ _ _, rfl⟩ (by rw [Bool.or_false]; exact m')
  · have ef : ((h.tile t).seq.lanesOn w 64 |>.map fun i => (i, (h.tile t).seq.laneAddr w i)).any (fun _ => false) = false := by
      rw [List.any_eq_false]; simp
    rw [ef] at m'
    rw [List.forall₂_map_left_iff] at hw
    refine runs_setLanes (q0 := (h.tile t).seq) (ov := false) (is := (h.tile t).seq.lanesOn w 64)
      (R := fun i z => z = leNat ((sramBytes h t s.pid ((h.tile t).seq.laneAddr w i) 4).map (·.1)))
      m' rfl r.clean.vectors (enabled_nodup _ _ _) hw _ fun k2 q' m2 l => ?_
    refine ⟨q', m2, fun i => ?_, l.others, l.clean, l.rest⟩
    obtain ⟨l1, l2⟩ := l.lanes i
    unfold Seq.lanesOn at l1 l2
    rw [enabled_mem] at l1 l2
    refine ⟨fun hi => ?_, l2⟩
    obtain ⟨z, rfl, hy⟩ := l1 hi
    exact hy

/-- `VSCAT`. -/
theorem vscat_step {h : Hw} {t : Nat} {s : Slice} {w : Nat} (ht : t < 1152) (r : TviReady h t s 0x07 w)
    (ha : ∀ i, (h.tile t).seq.enabledLane w 64 i → (h.tile t).seq.laneAddr w i % 4 = 0) :
    ∃ y, TileStep t s h (h.issueTvi t 0x07 false (tviVscat t)) ({ h.tile t with sram := y }.withSeq (h.tile t).seq.bump) ∧
      SramAfter h t s.pid (h.tile t).sram (((h.tile t).seq.lanesOn w 64).map fun i =>
        ((h.tile t).seq.laneAddr w i, withStain false (leBytes 4 ((h.tile t).seq.vlane (insnVb w) 32 i)))) y := by
  obtain ⟨y, ts, z, rfl, f⟩ := Hw.issueTvi_some ht r (by decide) (by decide) (tviVscat t) (fun y => ∃ z, y = { h.tile t with sram := z } ∧
    SramAfter h t s.pid (h.tile t).sram (((h.tile t).seq.lanesOn w 64).map fun i =>
        ((h.tile t).seq.laneAddr w i, withStain false (leBytes 4 ((h.tile t).seq.vlane (insnVb w) 32 i)))) z) fun k m => by
      have m : Mid t s h k ((h.tile t).withSeq (h.tile t).seq) := m
      unfold tviVscat
      rw [runs_bind]
      refine runs_wordAddrs m r.clean.vectors w ha _ ?_
      rw [runs_bind, runs_seqT, m.seq, Tile.withSeq_seq]
      dsimp only
      simp only [vstained_clean r.clean.vectors]
      refine runs_wrRows ht m ⟨r.clean.sram, r.clean.sound, r.clean.scalars⟩ _ (fun e he => ?_) _ fun k' z m' f =>
        ⟨_, m', z, rfl, by rw [List.map_map] at f; exact f⟩
      obtain ⟨i, _, rfl⟩ := List.mem_map.1 he
      exact withStain_clean _
  exact ⟨z, ts, f⟩

/-- A free word. -/
theorem runs_freeT {t : Nat} {s : Slice} {h k : Hw} {x : Tile} (m : Mid t s h k x) (Q : Nat → Hw → Prop)
    (fin : ∀ y k', Mid t s h k' x → Q y k') : Runs freeT k Q := by
  unfold freeT
  rw [runs_bind, runs_get]
  have mf := m.free
  revert mf
  generalize k.free = e
  intro mf
  obtain ⟨wd, k'⟩ := e
  dsimp only at mf ⊢
  rw [runs_bind, runs_set, runs_pure]
  exact fin _ _ mf

/-- Writing the enabled lanes from a list of results. -/
theorem runs_setLanes_on {t : Nat} {s : Slice} {h k : Hw} {x : Tile} {q0 q : Seq} {v n c w : Nat} {ov : Bool}
    {ws : List (Nat × Nat × Bool)} {R : Nat → Nat → Prop} (m : Mid t s h k (x.withSeq q))
    (hq : q = { q0 with overflow := q0.overflow || ov }) (hc : ∀ v, q0.vStain.getD 0 v = 0)
    (hw : List.Forall₂ (fun i (e : Nat × Nat × Bool) => e.1 = i ∧ e.2.2 = false ∧ R i e.2.1) (q0.lanesOn w c) ws)
    (Q : Unit → Hw → Prop)
    (fin : ∀ k' q', Mid t s h k' (x.withSeq q') →
      LanesSet q0 q' v n ov (fun i y => (q0.enabledLane w c i → ∃ z, R i z ∧ y = z % 2 ^ n) ∧
        (¬ q0.enabledLane w c i → y = q0.vlane v n i)) → Q () k') :
    Runs (setLanes t v n ws) k Q := by
  refine runs_setLanes m hq hc (enabled_nodup q0 w c) hw Q fun k' q' m' l => fin k' q' m' ⟨fun i => ?_, l.others, l.clean, l.rest⟩
  obtain ⟨l1, l2⟩ := l.lanes i
  rw [enabled_mem] at l1 l2
  exact ⟨l1, l2⟩

theorem mid_overflow {t : Nat} {s : Slice} {h k : Hw} {x : Tile} {q : Seq} (m : Mid t s h k (x.withSeq q)) :
    Mid t s h k (x.withSeq { q with overflow := q.overflow }) := m

/-- `VPERM`. -/
theorem vperm_step {h : Hw} {t : Nat} {s : Slice} {w : Nat} (ht : t < 1152) (r : TviReady h t s 0x0D w)
    (hf : insnFn w ≤ 3) :
    ∃ q', TileStep t s h (h.issueTvi t 0x0D false (tviVperm t)) ((h.tile t).withSeq q'.bump) ∧
      LanesSet (h.tile t).seq q' (insnVd w) (laneBits (insnW w)) false (fun i y =>
        ((h.tile t).seq.enabledLane w (laneCount (insnW w)) i → ∀ j,
          permSource (insnFn w) (laneCount (insnW w)) i ((h.tile t).seq.vlane (insnVb w) (laneBits (insnW w))) = some j →
            y = (h.tile t).seq.vlane (insnVa w) (laneBits (insnW w)) j % 2 ^ laneBits (insnW w)) ∧
        (¬ (h.tile t).seq.enabledLane w (laneCount (insnW w)) i →
          y = (h.tile t).seq.vlane (insnVd w) (laneBits (insnW w)) i)) := by
  refine Hw.issueTvi_seq ht r (by decide) (by decide) _ _ fun k m => ?_
  unfold tviVperm enabled
  dsimp only
  rw [runs_bind, runs_need]
  refine ⟨by simp [hf], ?_⟩
  rw [runs_bind, runs_seqT, m.seq, Tile.withSeq_seq, runs_bind, runs_bind, runs_seqT, runs_pure, m.seq, Tile.withSeq_seq, runs_bind]
  simp only [vstained_clean r.clean.vectors, Bool.and_false, Bool.or_false]
  refine runs_mapM_mid (q := (h.tile t).seq) _ (fun i (e : Nat × Nat × Bool) => e.1 = i ∧ e.2.2 = false ∧ ∀ j,
      permSource (insnFn w) (laneCount (insnW w)) i ((h.tile t).seq.vlane (insnVb w) (laneBits (insnW w))) = some j →
        e.2.1 = (h.tile t).seq.vlane (insnVa w) (laneBits (insnW w)) j) (fun _ => false) _ (fun i _ k o m P hP => ?_) k _
    (mid_overflow m) _ fun ws k' hw m' => ?_
  · cases hp : permSource (insnFn w) (laneCount (insnW w)) i ((h.tile t).seq.vlane (insnVb w) (laneBits (insnW w))) with
    | some j =>
      dsimp only
      rw [runs_pure]
      refine hP _ _ ⟨rfl, rfl, fun j' hj => ?_⟩ (by rw [Bool.or_false]; exact m)
      rw [hp] at hj
      cases hj
      rfl
    | none =>
      dsimp only
      rw [runs_bind]
      refine runs_freeT m _ fun y k' m' => ?_
      rw [runs_pure]
      refine hP _ _ ⟨rfl, rfl, fun j' hj => ?_⟩ (by rw [Bool.or_false]; exact m')
      rw [hp] at hj
      cases hj
  · have ef : ((List.range (laneCount (insnW w))).filter ((h.tile t).seq.lane w)).any (fun _ => false) = false := by
      rw [List.any_eq_false]; simp
    rw [ef] at m'
    refine runs_setLanes_on (q0 := (h.tile t).seq) (ov := false) (w := w) (c := laneCount (insnW w)) (R := fun i z => ∀ j,
      permSource (insnFn w) (laneCount (insnW w)) i ((h.tile t).seq.vlane (insnVb w) (laneBits (insnW w))) = some j →
        z = (h.tile t).seq.vlane (insnVa w) (laneBits (insnW w)) j) m' rfl r.clean.vectors hw _ fun k2 q' m2 l => ?_
    refine ⟨q', m2, fun i => ⟨fun hi j hj => ?_, (l.lanes i).2⟩, l.others, l.clean, l.rest⟩
    obtain ⟨z, hz, hy⟩ := (l.lanes i).1 hi
    rw [hy, hz j hj]

/-- `VMV` from a lane to a scalar; a lane number beyond the register reads a free value. -/
theorem vmv_lane_step {h : Hw} {t : Nat} {s : Slice} {w : Nat} (ht : t < 1152) (r : TviReady h t s 0x0F w)
    (hf : insnFn w = 0) :
    ∃ y, TileStep t s h (h.issueTvi t 0x0F false (tviVmv t))
        ((h.tile t).withSeq ((h.tile t).seq.withS (insnVd w % 16) y false).bump) ∧
      (((h.tile t).seq.scalar (insnXSb w)).1 < laneCount (insnW w) →
        y = (h.tile t).seq.vlane (insnVa w) (laneBits (insnW w)) ((h.tile t).seq.scalar (insnXSb w)).1) := by
  obtain ⟨q, ts, y, rfl, hy⟩ := Hw.issueTvi_seq ht r (by decide) (by decide) (tviVmv t) (fun q => ∃ y,
      q = (h.tile t).seq.withS (insnVd w % 16) y false ∧ (((h.tile t).seq.scalar (insnXSb w)).1 < laneCount (insnW w) →
        y = (h.tile t).seq.vlane (insnVa w) (laneBits (insnW w)) ((h.tile t).seq.scalar (insnXSb w)).1)) fun k m => by
    unfold tviVmv
    dsimp only
    rw [runs_bind, runs_need]
    refine ⟨by simp [hf], ?_⟩
    rw [runs_bind, runs_seqT, m.seq, Tile.withSeq_seq]
    have hst : ((h.tile t).seq.scalar (insnXSb w)).2 = false := by
      unfold Seq.scalar
      split
      · rfl
      · exact r.clean.scalars _
    revert hst
    generalize (h.tile t).seq.scalar (insnXSb w) = e
    intro hst
    obtain ⟨v, st⟩ := e
    dsimp only at hst ⊢
    subst hst
    rw [if_pos hf, runs_ite]
    simp only [vstained_clean r.clean.vectors, Bool.or_false]
    constructor
    · intro hv
      rw [runs_setS]
      exact ⟨_, m.withS _ _ _, _, rfl, fun _ => rfl⟩
    · intro hv
      rw [runs_bind]
      refine runs_freeT m _ fun y k' m' => ?_
      rw [runs_setS]
      exact ⟨_, m'.withS _ _ _, _, rfl, fun hv' => absurd hv' hv⟩
  exact ⟨y, ts, hy⟩

/-- `VMV` from a scalar to lanes. -/
theorem vmv_scalar_step {h : Hw} {t : Nat} {s : Slice} {w : Nat} (ht : t < 1152) (r : TviReady h t s 0x0F w)
    (hf : insnFn w = 1) :
    ∃ q', TileStep t s h (h.issueTvi t 0x0F false (tviVmv t)) ((h.tile t).withSeq q'.bump) ∧
      LanesSet (h.tile t).seq q' (insnVd w) (laneBits (insnW w)) false (fun i y =>
        ((h.tile t).seq.enabledLane w (laneCount (insnW w)) i →
          y = ((h.tile t).seq.scalar (insnXSb w)).1 % 2 ^ laneBits (insnW w)) ∧
        (¬ (h.tile t).seq.enabledLane w (laneCount (insnW w)) i →
          y = (h.tile t).seq.vlane (insnVd w) (laneBits (insnW w)) i)) := by
  refine Hw.issueTvi_seq ht r (by decide) (by decide) _ _ fun k m => ?_
  unfold tviVmv enabled
  dsimp only
  rw [runs_bind, runs_need]
  refine ⟨by simp [hf], ?_⟩
  rw [runs_bind, runs_seqT, m.seq, Tile.withSeq_seq]
  have hst : ((h.tile t).seq.scalar (insnXSb w)).2 = false := by
    unfold Seq.scalar
    split
    · rfl
    · exact r.clean.scalars _
  revert hst
  generalize (h.tile t).seq.scalar (insnXSb w) = e
  intro hst
  obtain ⟨v, st⟩ := e
  dsimp only at hst ⊢
  subst hst
  have h1 : ¬ insnFn w = 0 := by omega
  rw [if_neg h1, runs_bind, runs_bind, runs_seqT, runs_pure, m.seq, Tile.withSeq_seq]
  refine runs_setLanes_on (q0 := (h.tile t).seq) (ov := false) (w := w) (c := laneCount (insnW w))
    (R := fun _ z => z = v % 2 ^ laneBits (insnW w)) m (by rw [Bool.or_false]) r.clean.vectors ?_ _ fun k2 q' m2 l => ?_
  · rw [List.forall₂_map_right_iff]
    exact List.forall₂_same.2 fun i _ => ⟨rfl, rfl, rfl⟩
  · refine ⟨q', m2, fun i => ⟨fun hi => ?_, (l.lanes i).2⟩, l.others, l.clean, l.rest⟩
    obtain ⟨z, rfl, hy⟩ := (l.lanes i).1 hi
    rw [hy, Nat.mod_mod]

/-- Reading pairs of lanes without stain. -/
theorem runs_usePairs {t : Nat} {s : Slice} {h k : Hw} {x : Tile} {q : Seq} (m : Mid t s h k (x.withSeq q))
    (hq : ∀ v, q.vStain.getD 0 v = 0) (w : Nat) (is : List Nat) (Q : List (Nat × Nat) → Hw → Prop)
    (fin : Q (is.map fun i => (q.vlane (insnVa w) 32 i, q.vlane (insnVb w) 32 i)) k) : Runs (usePairs t w is) k Q := by
  unfold usePairs
  refine runs_mapM_pure _ _ _ k _ (fun i _ P hP => ?_) fin
  rw [runs_bind, runs_useLane m hq, runs_bind, runs_useLane m hq, runs_pure]
  exact hP

theorem zip_forall (is : List Nat) (rs : List (Nat × Nat)) (hl : rs.length = is.length) (f : Nat × Nat → Nat) :
    List.Forall₂ (fun i (e : Nat × Nat × Bool) => e.1 = i ∧ e.2.2 = false ∧
      ∃ k, ∃ hk : k < is.length, is[k] = i ∧ e.2.1 = f (rs.getD k (0, 0))) is ((List.zip is rs).map fun e => (e.1, f e.2, false)) := by
  rw [List.forall₂_iff_get]
  refine ⟨by simp [hl], fun k h1 h2 => ?_⟩
  simp only [List.get_eq_getElem, List.getElem_map, List.getElem_zip]
  refine ⟨trivial, trivial, k, h1, rfl, ?_⟩
  rw [List.getD_eq_getElem _ _ (by omega)]

/-- Writing a pair of registers: the k-th enabled lane takes the k-th pair. -/
theorem runs_setPair {t : Nat} {s : Slice} {h k : Hw} {x : Tile} {q : Seq} {w c : Nat} {rs : List (Nat × Nat)}
    (m : Mid t s h k (x.withSeq q)) (hc : ∀ v, q.vStain.getD 0 v = 0) (hl : rs.length = (q.lanesOn w c).length)
    (Q : Unit → Hw → Prop)
    (fin : ∀ k' q1 q', Mid t s h k' (x.withSeq q') →
      LanesSet q q1 (insnVd w) 32 false (fun i y => (∀ k, (q.lanesOn w c)[k]? = some i → y = (rs.getD k (0, 0)).1 % 2 ^ 32) ∧
        (¬ q.enabledLane w c i → y = q.vlane (insnVd w) 32 i)) →
      LanesSet q1 q' ((insnVd w + 1) % 32) 32 false (fun i y =>
        (∀ k, (q.lanesOn w c)[k]? = some i → y = (rs.getD k (0, 0)).2 % 2 ^ 32) ∧
        (¬ q.enabledLane w c i → y = q1.vlane ((insnVd w + 1) % 32) 32 i)) → Q () k') :
    Runs (setPair t w (q.lanesOn w c) rs) k Q := by
  unfold setPair
  dsimp only
  have hn := enabled_nodup q w c
  have key : ∀ {i : Nat} {f : Nat × Nat → Nat} {z : Nat}, (∃ k, ∃ hk : k < (q.lanesOn w c).length,
      (q.lanesOn w c)[k] = i ∧ z = f (rs.getD k (0, 0))) → ∀ k, (q.lanesOn w c)[k]? = some i → z = f (rs.getD k (0, 0)) := by
    rintro i f z ⟨k, hk, hi, rfl⟩ k' hk'
    obtain ⟨h', e'⟩ := List.getElem?_eq_some_iff.1 hk'
    have := (List.Nodup.getElem_inj_iff hn (i := k) (j := k') (hi := hk) (hj := h')).1 (hi.trans e'.symm)
    rw [this]
  rw [runs_bind]
  refine runs_setLanes_on (q0 := q) (ov := false) (w := w) (c := c) (R := fun i z => ∃ k, ∃ hk : k < (q.lanesOn w c).length,
      (q.lanesOn w c)[k] = i ∧ z = (rs.getD k (0, 0)).1) m (by rw [Bool.or_false]) hc (zip_forall _ rs hl (·.1)) _
    fun k' q1 m1 l1 => ?_
  have e1 : q1.lanesOn w c = q.lanesOn w c := by rw [l1.rest]; rfl
  have e2 : ∀ i, q1.enabledLane w c i ↔ q.enabledLane w c i := fun i => by rw [l1.rest]; rfl
  refine runs_setLanes_on (q0 := q1) (ov := false) (w := w) (c := c) (R := fun i z => ∃ k, ∃ hk : k < (q.lanesOn w c).length,
      (q.lanesOn w c)[k] = i ∧ z = (rs.getD k (0, 0)).2) m1 (by rw [Bool.or_false]) l1.clean ?_ _ fun k2 q' m2 l2 => ?_
  · rw [e1]
    exact zip_forall _ rs hl (·.2)
  · refine fin k2 q1 q' m2 ⟨fun i => ⟨fun j hj => ?_, (l1.lanes i).2⟩, l1.others, l1.clean, l1.rest⟩
      ⟨fun i => ⟨fun j hj => ?_, fun hi => (l2.lanes i).2 (mt (e2 i).1 hi)⟩, l2.others, l2.clean, l2.rest⟩
    · obtain ⟨z, hz, hy⟩ := (l1.lanes i).1 (enabled_mem.1 (List.mem_of_getElem? hj))
      rw [hy, key hz j hj]
    · obtain ⟨z, hz, hy⟩ := (l2.lanes i).1 ((e2 i).2 (enabled_mem.1 (List.mem_of_getElem? hj)))
      rw [hy, key (f := (·.2)) hz j hj]

theorem length_insertBy {α : Type} (le : α → α → Bool) (a : α) (l : List α) : (insertBy le a l).length = l.length + 1 := by
  induction l with
  | nil => rfl
  | cons b l ih =>
    unfold insertBy
    split <;> simp_all

theorem length_sortBy {α : Type} (le : α → α → Bool) (l : List α) : (sortBy le l).length = l.length := by
  have key : ∀ (l acc : List α), (l.foldl (fun acc x => insertBy le x acc) acc).length = acc.length + l.length := by
    intro l
    induction l with
    | nil => intro acc; rfl
    | cons a l ih =>
      intro acc
      rw [List.foldl_cons, ih, length_insertBy, List.length_cons]
      omega
  unfold sortBy
  rw [key]
  simp

/-- `VSORT`. -/
theorem vsort_step {h : Hw} {t : Nat} {s : Slice} {w : Nat} (ht : t < 1152) (r : TviReady h t s 0x0B w) :
    ∃ q', TileStep t s h (h.issueTvi t 0x0B false (tviVsort t)) ((h.tile t).withSeq q'.bump) ∧
      PairSet (h.tile t).seq q' w ((h.tile t).seq.vsorted w) := by
  refine Hw.issueTvi_seq ht r (by decide) (by decide) _ _ fun k m => ?_
  unfold tviVsort enabled
  rw [runs_bind, runs_bind, runs_seqT, runs_pure, m.seq, Tile.withSeq_seq, runs_bind]
  refine runs_usePairs m r.clean.vectors _ _ _ ?_
  rw [List.map_map]
  refine runs_setPair (c := 64) m r.clean.vectors ?_ _ fun k' q1 q' m' l1 l2 => ⟨q', m', q1, l1, l2⟩
  unfold sortKeys
  rw [List.length_map, length_sortBy, List.length_map]
  rfl

/-- `VFFT` of a stage that 64 points have. -/
theorem vfft_step {h : Hw} {t : Nat} {s : Slice} {w : Nat} (ht : t < 1152) (r : TviReady h t s 0x0C w)
    (hs : insnFn w % 8 ≤ 5) :
    ∃ q', TileStep t s h (h.issueTvi t 0x0C false (tviVfft t)) ((h.tile t).withSeq q'.bump) ∧
      PairSet (h.tile t).seq q' w ((h.tile t).seq.vffted w) := by
  refine Hw.issueTvi_seq ht r (by decide) (by decide) _ _ fun k m => ?_
  unfold tviVfft enabled
  dsimp only
  rw [runs_bind, runs_bind, runs_seqT, runs_pure, m.seq, Tile.withSeq_seq, if_pos hs, runs_bind]
  refine runs_usePairs m r.clean.vectors _ _ _ ?_
  exact runs_setPair (c := 64) m r.clean.vectors (by rw [List.length_map]; rfl) _ fun k' q1 q' m' l1 l2 => ⟨q', m', q1, l1, l2⟩

/-- `VFFT` of a stage beyond: it completes, with free values. -/
theorem vfft_free_step {h : Hw} {t : Nat} {s : Slice} {w : Nat} (ht : t < 1152) (r : TviReady h t s 0x0C w)
    (hs : 5 < insnFn w % 8) :
    ∃ rs q', TileStep t s h (h.issueTvi t 0x0C false (tviVfft t)) ((h.tile t).withSeq q'.bump) ∧
      PairSet (h.tile t).seq q' w rs := by
  obtain ⟨q', ts, rs, f⟩ := Hw.issueTvi_seq ht r (by decide) (by decide) (tviVfft t)
      (fun q' => ∃ rs, PairSet (h.tile t).seq q' w rs) fun k m => by
    unfold tviVfft enabled
    dsimp only
    rw [runs_bind, runs_bind, runs_seqT, runs_pure, m.seq, Tile.withSeq_seq, if_neg (by omega), runs_bind]
    refine runs_usePairs m r.clean.vectors _ _ _ ?_
    rw [runs_bind]
    refine (runs_mapM ((List.range 64).filter ((h.tile t).seq.lane w)) _ k
      (fun k => Mid t s h k ((h.tile t).withSeq (h.tile t).seq)) (fun _ _ => True) m fun i _ k m => ?_).mono fun rs k' ⟨hl, m'⟩ => ?_
    · rw [runs_bind]
      refine runs_freeT m _ fun y k' m' => ?_
      rw [runs_bind]
      refine runs_freeT m' _ fun y k' m' => ?_
      rw [runs_pure]
      exact ⟨trivial, m'⟩
    · exact runs_setPair (c := 64) m' r.clean.vectors hl.length_eq.symm _ fun k' q1 q' m' l1 l2 => ⟨q', m', rs, q1, l1, l2⟩
  exact ⟨rs, q', ts, f⟩

/-- Adding terms into one accumulator. -/
theorem runs_addAcc {t : Nat} {s : Slice} {h k : Hw} {x : Tile} (m : Mid t s h k x) (f : Nat) (lam : Int) (ts : List Val)
    (Q : Unit → Hw → Prop) (fin : ∀ k', Mid t s h k' (x.addAcc f lam ts) → Q () k') : Runs (addAccs t f lam [ts]) k Q := by
  unfold addAccs
  show Runs ((List.range 1).forM _) k Q
  rw [show List.range 1 = [0] from rfl]
  show Runs ((get >>= _) >>= fun _ => pure ()) k Q
  rw [runs_bind, runs_bind, runs_get]
  rw [show [ts].getD 0 [] = ts from rfl, Nat.add_zero]
  dsimp only
  rw [runs_bind]
  have ea : (k.tile t).acc f = x.acc f := by unfold Tile.acc; rw [m.accs]
  rw [ea]
  unfold setAccT
  rw [runs_modify]
  have m1 := m.modTile (fun y => { y with accs := y.accs.putD Acc.zero f ((x.acc f).addTerms lam ts).1 }) fun _ _ _ => rfl
  unfold flagsT
  unfold Tile.addAcc at fin
  revert fin m1
  generalize (x.acc f).addTerms lam ts = e
  obtain ⟨b, inx⟩ := e
  intro fin m1
  dsimp only at fin m1 ⊢
  rw [Bool.or_false]
  cases inx with
  | false =>
    rw [if_neg Bool.false_ne_true, runs_pure, runs_pure]
    simp only [Bool.or_false] at fin
    exact fin _ m1
  | true =>
    rw [if_pos rfl, runs_modify, runs_pure]
    simp only [Bool.or_true, Bool.or_false] at fin ⊢
    exact fin _ (m1.modSeq fun q => { q with inexact := true, overflow := q.overflow })

theorem runs_vlevelT {t : Nat} {s : Slice} {h k : Hw} {x : Tile} (m : Mid t s h k x) (Q : Int → Hw → Prop) :
    Runs (vlevelT t) k Q ↔ Q (sx 8 x.seq.vlevel) k := by
  unfold vlevelT
  rw [runs_bind, runs_seqT, runs_pure, m.seq]

/-- `VMACC`. -/
theorem vmacc_step {h : Hw} {t : Nat} {s : Slice} {w : Nat} (ht : t < 1152) (r : TviReady h t s 0x08 w) :
    ∃ y, TileStep t s h (h.issueTvi t 0x08 false (tviVmacc t)) (y.withSeq y.seq.bump) ∧
      y = ((h.tile t).seq.lanesOn w (laneCount (insnW w))).foldl (fun y i =>
        y.addAcc (((h.tile t).seq.acb + i) % 1024) (sx 8 (h.tile t).seq.vlevel) [(h.tile t).seq.vmaccTerm w i]) (h.tile t) := by
  refine Hw.issueTvi_some ht r (by decide) (by decide) _ _ fun k m => ?_
  have m : Mid t s h k ((h.tile t).withSeq (h.tile t).seq) := m
  unfold tviVmacc enabled
  dsimp only
  rw [runs_bind, runs_vlevelT m, runs_bind, runs_seqT, m.seq, Tile.withSeq_seq, runs_bind, runs_bind, runs_seqT, runs_pure, m.seq,
    Tile.withSeq_seq, runs_bind]
  refine runs_mapM_pure _ _ (fun i => (i, (h.tile t).seq.vmaccTerm w i)) k _ (fun i _ P hP => ?_) ?_
  · rw [runs_bind, runs_useLane m r.clean.vectors, runs_bind, runs_useLane m r.clean.vectors, runs_pure]
    exact hP
  · have key : ∀ (l : List Nat) (k : Hw) (x : Tile), Mid t s h k x →
        Runs ((l.map fun i => (i, (h.tile t).seq.vmaccTerm w i)).forM fun (i, p) =>
          addAccs t (((h.tile t).seq.acb + i) % 1024) (sx 8 (h.tile t).seq.vlevel) [[p]]) k fun _ k' =>
          Mid t s h k' (l.foldl (fun y i => y.addAcc (((h.tile t).seq.acb + i) % 1024) (sx 8 (h.tile t).seq.vlevel)
            [(h.tile t).seq.vmaccTerm w i]) x) := by
      intro l
      induction l with
      | nil => intro k x m; exact (runs_pure _ _ _).2 m
      | cons i l ih =>
        intro k x m
        show Runs (addAccs t _ _ _ >>= fun _ => (l.map fun i => (i, (h.tile t).seq.vmaccTerm w i)).forM _) k _
        rw [runs_bind]
        exact runs_addAcc m _ _ _ _ fun k' m' => ih k' _ m'
    exact (key _ k _ m).mono fun _ k' m' => ⟨_, m', rfl⟩

/-- `VRED` into the accumulator at `ACB`. -/
theorem vred_sum_step {h : Hw} {t : Nat} {s : Slice} {w : Nat} (ht : t < 1152) (r : TviReady h t s 0x09 w)
    (hf : insnFn w = 0) :
    ∃ y, TileStep t s h (h.issueTvi t 0x09 false (tviVred t)) (y.withSeq y.seq.bump) ∧
      y = (h.tile t).addAcc (h.tile t).seq.acb (sx 8 (h.tile t).seq.vlevel) ((h.tile t).seq.vredTerms w) := by
  refine Hw.issueTvi_some ht r (by decide) (by decide) _ _ fun k m => ?_
  have m : Mid t s h k ((h.tile t).withSeq (h.tile t).seq) := m
  unfold tviVred enabled
  dsimp only
  rw [runs_bind, runs_need]
  refine ⟨by rw [hf]; rfl, ?_⟩
  rw [runs_bind, runs_bind, runs_seqT, runs_pure, m.seq, Tile.withSeq_seq, runs_bind]
  refine runs_mapM_pure _ _ (fun i => laneVal true (insnW w) ((h.tile t).seq.vlane (insnVa w) (laneBits (insnW w)) i)) k _
    (fun i _ P hP => ?_) ?_
  · rw [runs_bind, runs_useLane m r.clean.vectors, runs_pure]
    exact hP
  · rw [if_pos hf, runs_bind, runs_seqT, m.seq, Tile.withSeq_seq, runs_bind, runs_vlevelT m]
    exact runs_addAcc m _ _ _ _ fun k' m' => ⟨_, m', rfl⟩

/-- `VRED` to the largest or smallest value, in lane 0. -/
theorem vred_extreme_step {h : Hw} {t : Nat} {s : Slice} {w : Nat} (ht : t < 1152) (r : TviReady h t s 0x09 w)
    (hf : insnFn w = 1 ∨ insnFn w = 2) :
    ∃ q', TileStep t s h (h.issueTvi t 0x09 false (tviVred t)) ((h.tile t).withSeq q'.bump) ∧
      (((h.tile t).seq.enabledLane w (laneCount (insnW w)) 0 ∧
        LanesSet (h.tile t).seq q' (insnVd w) (laneBits (insnW w)) false (fun i y =>
          (i = 0 → y = (laneFp (insnW w)).lane (extreme (insnFn w == 1) ((h.tile t).seq.vredTerms w)) % 2 ^ laneBits (insnW w)) ∧
          (i ≠ 0 → y = (h.tile t).seq.vlane (insnVd w) (laneBits (insnW w)) i))) ∨
       (¬ (h.tile t).seq.enabledLane w (laneCount (insnW w)) 0 ∧ q' = (h.tile t).seq)) := by
  refine Hw.issueTvi_seq ht r (by decide) (by decide) _ _ fun k m => ?_
  unfold tviVred enabled
  dsimp only
  rw [runs_bind, runs_need]
  refine ⟨by simp; omega, ?_⟩
  rw [runs_bind, runs_bind, runs_seqT, runs_pure, m.seq, Tile.withSeq_seq, runs_bind]
  refine runs_mapM_pure _ _ (fun i => laneVal true (insnW w) ((h.tile t).seq.vlane (insnVa w) (laneBits (insnW w)) i)) k _
    (fun i _ P hP => ?_) ?_
  · rw [runs_bind, runs_useLane m r.clean.vectors, runs_pure]
    exact hP
  · rw [if_neg (by omega), runs_ite]
    constructor
    · intro h0
      have h0 : (h.tile t).seq.enabledLane w (laneCount (insnW w)) 0 := enabled_mem.1 (List.contains_iff_mem.1 h0)
      refine runs_setLanes (q0 := (h.tile t).seq) (ov := false) (is := [0])
        (R := fun _ z => z = (laneFp (insnW w)).lane (extreme (insnFn w == 1) ((h.tile t).seq.vredTerms w)))
        m (by rw [Bool.or_false]) r.clean.vectors (List.nodup_singleton 0)
        (.cons ⟨rfl, rfl, rfl⟩ .nil) _ fun k2 q' m2 l => ?_
      refine ⟨q', m2, .inl ⟨h0, fun i => ⟨fun hi => ?_, fun hi => ?_⟩, l.others, l.clean, l.rest⟩⟩
      · obtain ⟨z, rfl, hy⟩ := (l.lanes i).1 (by rw [hi]; exact List.mem_singleton.2 rfl)
        exact hy
      · exact (l.lanes i).2 (by rw [List.mem_singleton]; exact hi)
    · intro h0
      rw [runs_pure]
      refine ⟨_, m, .inr ⟨fun hi => h0 ?_, rfl⟩⟩
      exact List.contains_iff_mem.2 (enabled_mem.2 hi)

/-- Reading accumulators into lanes, with or without clearing them. -/
theorem runs_accrd {t : Nat} {s : Slice} {h : Hw} {w n : Nat} (x : Tile) (l : List Nat) (hd : l.Nodup) (hl : ∀ i ∈ l, i < 1024)
    (k : Hw) (A : SMap Acc) (o : Bool) (m : Mid t s h k ({ x with accs := A }.withSeq { x.seq with overflow := o }))
    (ha : ∀ i ∈ l, A.getD Acc.zero ((x.seq.acb + i) % 1024) = x.acc ((x.seq.acb + i) % 1024))
    (f : Nat → T (Nat × Nat × Bool)) (g : Nat → T Nat) (hg : ∀ i, g i = (do
      let j := (x.seq.acb + i) % 1024
      let a := ((← get).tile t).acc j
      let (y, ov) := toElem (bits (insnFn w) 0 4) (laneRnd x.seq (bit (insnFn w) 4) i) (a.val (sx 8 x.seq.vlevel))
      flagsT t false ov
      if bit (insnFn w) 5 then setAccT t j Acc.zero else pure ()
      pure y)) (hf : ∀ i, f i = (do pure (i, (← g i) % 2 ^ n, false)))
    (Q : List (Nat × Nat × Bool) → Hw → Prop)
    (fin : ∀ ys k' A', List.Forall₂ (fun i (e : Nat × Nat × Bool) => e.1 = i ∧ e.2.2 = false ∧ e.2.1 = (x.accrdLane w i).1 % 2 ^ n) l ys →
      Mid t s h k' ({ x with accs := A' }.withSeq { x.seq with overflow := o || l.any fun i => (x.accrdLane w i).2 }) →
      (∀ j, A'.getD Acc.zero j = if bit (insnFn w) 5 = true ∧ ∃ i ∈ l, j = (x.seq.acb + i) % 1024 then Acc.zero
        else A.getD Acc.zero j) → Q ys k') :
    Runs (l.mapM f) k Q := by
  induction l generalizing k A o Q with
  | nil =>
    rw [List.mapM_nil, runs_pure]
    refine fin [] k A .nil (by rw [List.any_nil, Bool.or_false]; exact m) fun j => ?_
    simp
  | cons i l ih =>
    rw [List.nodup_cons] at hd
    rw [List.mapM_cons, runs_bind, hf, runs_bind, hg, runs_bind, runs_get]
    have ea : (k.tile t).acc ((x.seq.acb + i) % 1024) = x.acc ((x.seq.acb + i) % 1024) := by
      unfold Tile.acc
      rw [m.accs]
      exact ha i (List.mem_cons_self ..)
    have hy : toElem (bits (insnFn w) 0 4) (laneRnd x.seq (bit (insnFn w) 4) i)
        (Acc.val (sx 8 x.seq.vlevel) (x.acc ((x.seq.acb + i) % 1024))) = x.accrdLane w i := rfl
    dsimp only
    rw [ea, hy]
    rw [runs_bind]
    refine runs_flagsT m _ _ fun k1 m1 => ?_
    rw [runs_ite]
    constructor
    · intro hb
      unfold setAccT
      rw [runs_bind, runs_modify, runs_pure, runs_pure, runs_bind]
      have m2 := m1.modTile (fun y => { y with accs := y.accs.putD Acc.zero ((x.seq.acb + i) % 1024) Acc.zero }) fun _ _ _ => rfl
      refine ih hd.2 (fun j hj => hl j (List.mem_cons_of_mem _ hj)) _ (A.putD Acc.zero ((x.seq.acb + i) % 1024) Acc.zero) _ m2
        (fun j hj => ?_) _ fun ys k' A' hf2 m' hA => ?_
      · rw [SMap.getD_putD_ne _ _ _ ?_]
        · exact ha j (List.mem_cons_of_mem _ hj)
        · intro e
          have h1 := hl j (List.mem_cons_of_mem _ hj)
          have h2 := hl i (List.mem_cons_self ..)
          have : i = j := by omega
          subst this
          exact hd.1 hj
      · rw [runs_pure]
        refine fin _ k' A' (.cons ⟨rfl, rfl, rfl⟩ hf2) (by rw [List.any_cons, ← Bool.or_assoc]; exact m') fun j => ?_
        rw [hA j, SMap.getD_putD]
        by_cases h1 : ∃ i ∈ l, j = (x.seq.acb + i) % 1024
        · obtain ⟨i', h2, h3⟩ := h1
          rw [if_pos ⟨hb, i', h2, h3⟩, if_pos ⟨hb, i', List.mem_cons_of_mem _ h2, h3⟩]
        · rw [if_neg (fun h => h1 h.2)]
          by_cases h2 : (x.seq.acb + i) % 1024 = j
          · rw [if_pos h2, if_pos ⟨hb, i, List.mem_cons_self .., h2.symm⟩]
          · rw [if_neg h2, if_neg]
            rintro ⟨_, i', h3, h4⟩
            rcases List.mem_cons.1 h3 with rfl | h3
            · exact h2 h4.symm
            · exact h1 ⟨i', h3, h4⟩
    · intro hb
      rw [runs_pure, runs_pure, runs_bind]
      refine ih hd.2 (fun j hj => hl j (List.mem_cons_of_mem _ hj)) _ A _ m1
        (fun j hj => ha j (List.mem_cons_of_mem _ hj)) _ fun ys k' A' hf2 m' hA => ?_
      rw [runs_pure]
      refine fin _ k' A' (.cons ⟨rfl, rfl, rfl⟩ hf2) (by rw [List.any_cons, ← Bool.or_assoc]; exact m') fun j => ?_
      rw [hA j, if_neg (fun h => hb h.1), if_neg (fun h => hb h.1)]

/-- `ACCRD`. -/
theorem accrd_step {h : Hw} {t : Nat} {s : Slice} {w : Nat} (ht : t < 1152) (r : TviReady h t s 0x1D w) :
    ∃ A q', TileStep t s h (h.issueTvi t 0x1D false (tviAccrd t)) ({ h.tile t with accs := A }.withSeq q'.bump) ∧
      LanesSet (h.tile t).seq q' (insnVd w) (laneBits (insnW w))
        (((h.tile t).seq.lanesOn w (laneCount (insnW w))).any fun i => ((h.tile t).accrdLane w i).2) (fun i y =>
        ((h.tile t).seq.enabledLane w (laneCount (insnW w)) i →
          y = ((h.tile t).accrdLane w i).1 % 2 ^ laneBits (insnW w)) ∧
        (¬ (h.tile t).seq.enabledLane w (laneCount (insnW w)) i →
          y = (h.tile t).seq.vlane (insnVd w) (laneBits (insnW w)) i)) ∧
      ∀ j, (bit (insnFn w) 5 = true → (∃ i, (h.tile t).seq.enabledLane w (laneCount (insnW w)) i ∧
          j = ((h.tile t).seq.acb + i) % 1024) → A.getD Acc.zero j = Acc.zero) ∧
        (¬ (bit (insnFn w) 5 = true ∧ ∃ i, (h.tile t).seq.enabledLane w (laneCount (insnW w)) i ∧
          j = ((h.tile t).seq.acb + i) % 1024) → A.getD Acc.zero j = (h.tile t).acc j) := by
  obtain ⟨y, ts, A, q', rfl, hq, hA⟩ := Hw.issueTvi_some ht r (by decide) (by decide) (tviAccrd t) (fun y => ∃ A q',
      y = { h.tile t with accs := A }.withSeq q' ∧
      LanesSet (h.tile t).seq q' (insnVd w) (laneBits (insnW w))
        (((h.tile t).seq.lanesOn w (laneCount (insnW w))).any fun i => ((h.tile t).accrdLane w i).2) (fun i y =>
        ((h.tile t).seq.enabledLane w (laneCount (insnW w)) i →
          y = ((h.tile t).accrdLane w i).1 % 2 ^ laneBits (insnW w)) ∧
        (¬ (h.tile t).seq.enabledLane w (laneCount (insnW w)) i →
          y = (h.tile t).seq.vlane (insnVd w) (laneBits (insnW w)) i)) ∧
      ∀ j, (bit (insnFn w) 5 = true → (∃ i, (h.tile t).seq.enabledLane w (laneCount (insnW w)) i ∧
          j = ((h.tile t).seq.acb + i) % 1024) → A.getD Acc.zero j = Acc.zero) ∧
        (¬ (bit (insnFn w) 5 = true ∧ ∃ i, (h.tile t).seq.enabledLane w (laneCount (insnW w)) i ∧
          j = ((h.tile t).seq.acb + i) % 1024) → A.getD Acc.zero j = (h.tile t).acc j)) fun k m => by
    have m : Mid t s h k ({ h.tile t with accs := (h.tile t).accs }.withSeq
      { (h.tile t).seq with overflow := (h.tile t).seq.overflow }) := m
    unfold tviAccrd mapLanes enabled
    dsimp only
    rw [runs_bind, runs_seqT, m.seq, Tile.withSeq_seq, runs_bind, runs_vlevelT m, runs_bind, runs_bind, runs_seqT, runs_pure,
      m.seq, Tile.withSeq_seq, runs_bind]
    have hlen : laneCount (insnW w) ≤ 1024 := by unfold laneCount; split <;> omega
    refine runs_accrd (n := laneBits (insnW w)) (w := w) (h.tile t) ((h.tile t).seq.lanesOn w (laneCount (insnW w)))
      (enabled_nodup _ _ _) (fun i hi => by have := (enabled_mem.1 hi).1; omega) k (h.tile t).accs _ m (fun i _ => rfl) _ _
      (fun i => rfl) (fun i => rfl) _ fun ys k' A hf m' hA => ?_
    · refine runs_setLanes_on (q0 := (h.tile t).seq) (w := w) (c := laneCount (insnW w))
        (R := fun i z => z = ((h.tile t).accrdLane w i).1 % 2 ^ laneBits (insnW w)) m' rfl r.clean.vectors hf _ fun k2 q' m2 l => ?_
      refine ⟨_, m2, A, q', rfl, ⟨fun i => ⟨fun hi => ?_, (l.lanes i).2⟩, l.others, l.clean, l.rest⟩, fun j => ?_⟩
      · obtain ⟨z, rfl, hy⟩ := (l.lanes i).1 hi
        rw [hy, Nat.mod_mod]
      · rw [hA j]
        have e : (∃ i ∈ (h.tile t).seq.lanesOn w (laneCount (insnW w)), j = ((h.tile t).seq.acb + i) % 1024) ↔
            ∃ i, (h.tile t).seq.enabledLane w (laneCount (insnW w)) i ∧ j = ((h.tile t).seq.acb + i) % 1024 :=
          ⟨fun ⟨i, hi, hj⟩ => ⟨i, enabled_mem.1 hi, hj⟩, fun ⟨i, hi, hj⟩ => ⟨i, enabled_mem.2 hi, hj⟩⟩
        refine ⟨fun hb hi => if_pos ⟨hb, e.2 hi⟩, fun hn => ?_⟩
        rw [if_neg fun hh => hn ⟨hh.1, e.1 hh.2⟩]
        rfl
  exact ⟨A, q', ts, hq, hA⟩

end Sys2Proof.Machine
end

