-- ==== Sys2Proof/Laws/Memory.lean ====
section
/-! SUPPORT. Every operation that changes DRAM or scratch memory keeps memory's canonical form. -/

namespace Sys2Proof.Machine

open Sys2Proof

/-- Memories that list the same bytes are canonical together. -/
theorem Memory.wf_of_cells {m n : Mem} (e : m.cells = n.cells) : Memory.wf m = Memory.wf n :=
  congrArg (SMap.wf 0) e

/-! Operations on memory. -/

theorem Mem.setByte_wf {m : Mem} (a : Nat) (v : Byte) (w : Memory.wf m = true) : Memory.wf (m.setByte a v) = true :=
  SMap.wf_putD a v w

theorem Mem.setBytes_wf {m : Mem} (a : Nat) (bs : List Byte) (w : Memory.wf m = true) :
    Memory.wf (m.setBytes a bs) = true := SMap.wf_splice a bs w

@[simp] theorem Mem.addStain_cells (m : Mem) (g : Nat) : (m.addStain g).cells = m.cells := rfl
@[simp] theorem Mem.clearStain_cells (m : Mem) (g : Nat) : (m.clearStain g).cells = m.cells := rfl
@[simp] theorem Mem.setFrame_cells (m : Mem) (f : Nat) (e : Frame) : (m.setFrame f e).cells = m.cells := rfl
@[simp] theorem Mem.setCtx_cells (m : Mem) (c : Nat) (x : Ctx) : (m.setCtx c x).cells = m.cells := rfl
@[simp] theorem Mem.fillSet_cells (m : Mem) (f : Nat) : (m.fillSet f).cells = m.cells := rfl

@[simp] theorem Mem.cleanFrame_cells (m : Mem) (f : Nat) : (m.cleanFrame f).cells = m.cells := by
  unfold Mem.cleanFrame; dsimp only; split <;> rfl

@[simp] theorem Mem.frameMapped_cells (m : Mem) (c f : Nat) : (m.frameMapped c f).cells = m.cells := by
  unfold Mem.frameMapped; dsimp only; (repeat' split) <;> rfl

@[simp] theorem Mem.frameUnmapped_cells (m : Mem) (f : Nat) : (m.frameUnmapped f).cells = m.cells := by
  unfold Mem.frameUnmapped; dsimp only; (repeat' split) <;> rfl

@[simp] theorem Mem.writeStain_cells (m : Mem) (a n : Nat) (st : Bool) : (m.writeStain a n st).cells = m.cells := by
  unfold Mem.writeStain
  split
  · exact foldl_keeps Mem.cells (fun m l => (m.addStain (2 * l)).addStain (2 * l + 1)) (fun _ _ => rfl) _ _
  · refine foldl_keeps Mem.cells _ (fun m g => ?_) _ _
    split <;> rfl

theorem Mem.frames_cells (fs : List Nat) (g : Mem → Nat → Frame) (m : Mem) :
    (fs.foldl (fun (x : Mem) f => x.setFrame f (g x f)) m).cells = m.cells :=
  foldl_keeps Mem.cells (fun (x : Mem) f => x.setFrame f (g x f)) (fun _ _ => rfl) fs m

theorem MapReq.convert_cells (h : Hw) (m : MapReq) : (m.convert h).cells = h.mem.cells := by
  unfold MapReq.convert
  split
  · refine foldl_keeps Mem.cells _ (fun x b => ?_) _ _
    split
    · rfl
    · exact Mem.frames_cells _ (fun x f => { x.frame f with
        striped := m.striped && decide (f % 32 < 24), firmware := m.striped && decide (24 ≤ f % 32) }) _
  · rfl

/-- The memory that `MAP` leaves is canonical. -/
theorem Mem.mapped_wf (h : Hw) (r : MapReq) (x : Ctx) (fs : List Nat) (w : Memory.wf h.mem = true) :
    Memory.wf (fs.foldl (fun y f => y.frameMapped r.ctx f) ((r.convert h).setCtx r.ctx x)) = true := by
  rw [Memory.wf_of_cells (foldl_keeps Mem.cells _ (fun m f => Mem.frameMapped_cells m r.ctx f) fs _), Memory.wf_of_cells
    (Mem.setCtx_cells _ _ _), Memory.wf_of_cells (MapReq.convert_cells h r)]
  exact w

/-! Operations on the state. -/

/-- Folding a step that keeps memory canonical keeps it canonical. -/
theorem Hw.foldl_wf {β : Type} (f : Hw → β → Hw) (hf : ∀ h x, Memory.wf h.mem = true → Memory.wf (f h x).mem = true)
    (l : List β) (h : Hw) (w : Memory.wf h.mem = true) : Memory.wf (l.foldl f h).mem = true := by
  induction l generalizing h with
  | nil => exact w
  | cons x l ih => exact ih (f h x) (hf h x w)

theorem Hw.defineLine_wf {h : Hw} (l : Nat) (w : Memory.wf h.mem = true) : Memory.wf (h.defineLine l).mem = true := by
  unfold Hw.defineLine
  split
  · exact w
  · exact Hw.foldl_wf _ (fun _ _ w => Mem.setBytes_wf _ _ w) _ _ w

theorem Hw.settleLine_wf {h : Hw} (a n l : Nat) (w : Memory.wf h.mem = true) :
    Memory.wf (h.settleLine a n l).mem = true := by
  unfold Hw.settleLine
  dsimp only
  split
  · exact w
  · split
    · refine Eq.trans (Memory.wf_of_cells ?_) (Mem.setBytes_wf (l * 64) (h.lineBytes l) w)
      refine foldl_keeps Mem.cells _ (fun m g => ?_) _ _
      split <;> rfl
    · exact Mem.setBytes_wf _ _ w

@[simp] theorem Hw.noteStripe_mem (h : Hw) (l : Nat) : (h.noteStripe l).mem = h.mem := by
  unfold Hw.noteStripe; split <;> rfl

theorem Mem.marks_wf (q : Nat → Bool) (gs : List Nat) {m : Mem} (w : Memory.wf m = true) :
    Memory.wf (gs.foldl (fun (m : Mem) g => if q g then m.addStain g else m.clearStain g) m) = true := by
  refine Eq.trans (Memory.wf_of_cells ?_) w
  refine foldl_keeps Mem.cells _ (fun m g => ?_) _ _
  split <;> rfl

theorem Hw.storeLine_wf {h : Hw} (a : Nat) (bs : List Byte) (st : Bool) (l : Nat) (w : Memory.wf h.mem = true) :
    Memory.wf (h.storeLine a bs st l).mem = true := by
  unfold Hw.storeLine
  extract_lets n p h1 x1 x2 x3 x4 x5
  have w1 : Memory.wf h1.mem = true := by
    have e : h1.mem = h.mem := by simp only [h1]; split <;> rfl
    rw [e]; exact w
  have w2 : Memory.wf x2.mem = true := by
    simp only [x2]
    split
    · split
      · exact w1
      · exact w1
    · exact Hw.settleLine_wf _ _ _ (Hw.defineLine_wf _ w)
  have w3 : Memory.wf x5.mem = true := by
    simp only [x5]
    split
    · exact Mem.marks_wf _ _ w2
    · exact w2
  split
  · exact w
  · rw [Hw.noteStripe_mem]
    exact (Memory.wf_of_cells (Mem.writeStain_cells _ _ _ _)).trans (Mem.setBytes_wf _ _ w3)

theorem Hw.storeParts_wf (st : Bool) (ps : List (Nat × Nat × Nat)) {h : Hw} (a : Nat) (bs : List Byte)
    (w : Memory.wf h.mem = true) : Memory.wf (h.storeParts a bs st ps).mem = true := by
  induction ps generalizing h a bs with
  | nil => exact w
  | cons p ps ih => exact ih _ _ (Hw.storeLine_wf _ _ _ _ w)

/-- Writing a run of bytes. -/
theorem Hw.store_wf {h : Hw} (a : Nat) (bs : List Byte) (st : Bool) (w : Memory.wf h.mem = true) :
    Memory.wf (h.store a bs st).mem = true := Hw.storeParts_wf _ _ _ _ w

@[simp] theorem Hw.queueScrub_mem (h : Hw) (l : Nat) : (h.queueScrub l).mem = h.mem := by
  unfold Hw.queueScrub; split <;> rfl

/-- A memory is canonical after a loss of stripe writes that were not durable. -/
theorem Hw.loseDurable_wf {h : Hw} (c : Nat) (w : Memory.wf h.mem = true) : Memory.wf (h.loseDurable c).mem = true := by
  unfold Hw.loseDurable
  generalize (h.sys.dram.durable.partition fun e => e.2.1 == c) = p
  exact (Memory.wf_of_cells (foldl_keeps Mem.cells (fun (m : Mem) (e : Nat × Nat × Nat × Nat) =>
    (m.addStain (2 * e.2.2.1)).addStain (2 * e.2.2.1 + 1)) (fun _ _ => rfl) p.1 h.mem)).trans w

theorem Hw.rewriteLine_wf {h : Hw} (l : Nat) (w : Memory.wf h.mem = true) : Memory.wf (h.rewriteLine l).mem = true := by
  unfold Hw.rewriteLine
  extract_lets p set bad lost bs m m'
  have w1 : Memory.wf m = true := by
    simp only [m]
    split
    · exact Mem.setBytes_wf _ _ w
    · exact w
  have w2 : Memory.wf m' = true := Mem.marks_wf (fun g => set.contains g || lost) _ w1
  clear_value m'
  exact w2

theorem Hw.rebuildStripe_wf {h : Hw} (x : StripeAt) (w : Memory.wf h.mem = true) :
    Memory.wf (h.rebuildStripe x).mem = true := by
  unfold Hw.rebuildStripe
  refine Hw.foldl_wf _ (fun h k w => ?_) _ _ w
  split
  · refine Hw.foldl_wf _ (fun h l w => ?_) _ _ w
    exact Mem.marks_wf (fun _ => h.gStained _) _ w
  · exact w

@[simp] theorem Hw.event_mem (h : Hw) (s t p d : Nat) : (h.event s t p d).mem = h.mem := by
  have e := congrArg (fun h : Hw => h.mem) (Hw.mute_event h s t p d)
  exact e

@[simp] theorem Hw.pmmuRecord_mem (h : Hw) (a c p d : Nat) : (h.pmmuRecord a c p d).mem = h.mem := by
  unfold Hw.pmmuRecord
  split <;> rfl

@[simp] theorem Hw.ownerViolation_mem (h : Hw) (p a : Nat) : (h.ownerViolation p a).mem = h.mem := by
  unfold Hw.ownerViolation
  rw [show ∀ (x : Hw) (k : Nat) (d : Option Nat) (p : Nat), (x.detect k d p).mem = x.mem from fun _ _ _ _ => rfl, Hw.event_mem,
    Hw.put_mem, Hw.pmmuRecord_mem]

theorem Hw.portWrite_wf {h : Hw} (p a : Nat) (bs : List Byte) (st : Bool) (w : Memory.wf h.mem = true) :
    Memory.wf (h.portWrite p a bs st).mem = true := by
  unfold Hw.portWrite
  split
  · exact Hw.store_wf a bs st w
  · rw [Hw.ownerViolation_mem]; exact w

@[simp] theorem Hw.pushL2_mem (h : Hw) (e : Nat × L2Line) : (h.pushL2 e).mem = h.mem := by
  unfold Hw.pushL2
  split <;> rfl

theorem Hw.cleanSc_wf {h : Hw} (l : Nat) (w : Memory.wf h.mem = true) : Memory.wf (h.cleanSc l).mem = true := by
  unfold Hw.cleanSc
  split
  · split
    · exact Hw.portWrite_wf _ _ _ _ w
    · exact w
  · exact w

/-- Writing cached lines back. -/
theorem Hw.purge_wf {h : Hw} (p : Nat × L2Line → Bool) (q : Nat → Bool) (w : Memory.wf h.mem = true) :
    Memory.wf (h.purge p q).mem = true :=
  Hw.foldl_wf Hw.cleanSc (fun _ l w => Hw.cleanSc_wf l w) _ _
    (Hw.foldl_wf Hw.pushL2 (fun h e w => by rw [Hw.pushL2_mem]; exact w) _ _ w)

theorem Hw.unmapPages_wf {h : Hw} (c va n : Nat) (w : Memory.wf h.mem = true) :
    Memory.wf (h.unmapPages c va n).2.2.mem = true :=
  (Memory.wf_of_cells (Mem.setCtx_cells _ _ _)).trans w

theorem Hw.unmapFrames_wf {h : Hw} (c : Nat) (fs : NSet) (w : Memory.wf h.mem = true) :
    Memory.wf (h.unmapFrames c fs).mem = true :=
  (Memory.wf_of_cells (foldl_keeps Mem.cells Mem.frameUnmapped Mem.frameUnmapped_cells fs (h.leaveFrames c fs).mem)).trans
    (Hw.purge_wf _ _ w)

theorem Hw.unmapRange_wf {h : Hw} (c va n : Nat) (w : Memory.wf h.mem = true) :
    Memory.wf (h.unmapRange c va n).2.mem = true :=
  Hw.unmapFrames_wf c _ (Hw.unmapPages_wf c va n w)

/-- The memory right after reset is canonical. -/
theorem State.reset_memory_wf : Memory.wf State.reset.hw.mem = true := rfl

end Sys2Proof.Machine
end

