-- ==== Sys2Proof/Laws/Tod.lean ====
section
/-! SUPPORT. What issuing a TOD does when it completes, and how its operands are read and written. -/

namespace Sys2Proof.Machine

open Sys2Proof

/-- A TOD that is ready runs its computation on a state that its fetch has only read. -/
theorem Hw.issueTod_eq {h : Hw} {t : Nat} {s : Slice} {opc : Nat} {d : List Byte} (ht : t < 1152) (r : TodReady h t s opc d)
    (ho : todOpcodes.contains opc = true) (eff : Header → List Byte → T Unit) :
    ∃ k, ReadOnly t h k ∧ h.issueTod t opc eff =
      settle t (header d).opc (fun h => h.advanceTod t (header d)) (fun net h => h.stayTod t d net) (runT (eff (header d) d) k) := by
  obtain ⟨r1, r2, r3, r4, r5, r6, r7, ri, ru, r8, r9⟩ := r
  obtain ⟨ro, rb⟩ := Hw.rdSram_clean ht h s.pid (s.list + 64 * (h.tile t).seq.todIdx) 64 r4.sound r4.sram
  refine ⟨_, ro, ?_⟩
  obtain ⟨kk, rr, et⟩ := ro.tile
  unfold Hw.issueTod
  rw [ri]
  dsimp only
  unfold Hw.issueNext Hw.fetchTod
  rw [r1, if_pos rfl, r5]
  have hd : (sramBytes h t s.pid (s.list + 64 * (h.tile t).seq.todIdx) 64).map (·.1) = d := r6.symm
  dsimp only [Option.map]
  rw [r2, if_neg Bool.false_ne_true, if_neg (by rw [r3]; exact fun h => h rfl), rb, sramBytes_clean,
    if_neg Bool.false_ne_true, hd, r7, ho]
  have hq : h.predTrue t (header d) = true := by
    unfold Hw.predTrue
    rw [bne_iff_ne]; exact r9
  rw [Bool.not_true, if_neg Bool.false_ne_true, hq, ru, if_neg (by rintro (h | h) <;> simp at h)]
  unfold Hw.runTod
  have hp : ((h.rdSram t s.pid (s.list + 64 * (h.tile t).seq.todIdx) 64).2.tile t).seq = (h.tile t).seq := by rw [et]
  dsimp only
  rw [r8, if_neg Bool.false_ne_true, hp, if_neg (by rw [beq_iff_eq]; exact r9)]

theorem Hw.advanceTod_eq (h : Hw) (t : Nat) (hd : Header) : h.advanceTod t hd = h.modSeq t fun q => q.advance hd := by
  unfold Hw.advanceTod Seq.advance
  congr 1

/-- A TOD that is ready and completes. -/
theorem Hw.issueTod_runs {h : Hw} {t : Nat} {s : Slice} {opc : Nat} {d : List Byte} (ht : t < 1152) (r : TodReady h t s opc d)
    (ho : todOpcodes.contains opc = true) (eff : Header → List Byte → T Unit) (Q : Hw → Prop)
    (run : ∀ k, ReadOnly t h k → Runs (eff (header d) d) k fun _ k' => Q k') :
    ∃ k', Q k' ∧ h.issueTod t opc eff = k'.modSeq t fun q => q.advance (header d) := by
  obtain ⟨k, ro, e⟩ := Hw.issueTod_eq ht r ho eff
  obtain ⟨k', q, e'⟩ := settle_runs (run _ ro) t (header d).opc (fun h => h.advanceTod t (header d)) (fun net h => h.stayTod t d net)
  refine ⟨k', q, ?_⟩
  rw [e, e', Hw.advanceTod_eq]

/-- A TOD that changes its tile only, its slice becoming `s'`. -/
theorem Hw.issueTod_some {h : Hw} {t : Nat} {s : Slice} {opc : Nat} {d : List Byte} (ht : t < 1152) (r : TodReady h t s opc d)
    (ho : todOpcodes.contains opc = true) (eff : Header → List Byte → T Unit) (P : Slice → Tile → Prop)
    (run : ∀ k, Mid t s h k (h.tile t) → Runs (eff (header d) d) k fun _ k' => ∃ s' y, Mid t s' h k' y ∧ P s' y) :
    ∃ s' y, TileStep t s' h (h.issueTod t opc eff) (y.withSeq (y.seq.advance (header d))) ∧ P s' y := by
  obtain ⟨k', ⟨s', y, m, hp⟩, e⟩ := Hw.issueTod_runs ht r ho eff (fun k' => ∃ s' y, Mid t s' h k' y ∧ P s' y) fun k ro =>
    run k (Mid.of_read ro r.slice)
  refine ⟨s', y, ?_, hp⟩
  rw [e]
  exact m.done.modSeq _

/-- Admitting an operand. -/
theorem runs_admit {o : Opnd} {ks : List Nat} (ha : o.admits ks = true) (k : Hw) (Q : Unit → Hw → Prop) :
    Runs (o.demand ks) k Q ↔ Q () k := by
  unfold Opnd.admits at ha
  rw [Bool.and_eq_true, Bool.and_eq_true] at ha
  obtain ⟨⟨h1, h2⟩, h3⟩ := ha
  unfold Opnd.demand
  rw [runs_bind, runs_need, runs_bind, runs_need]
  simp only [h1, h2, true_and]
  split at h3 <;> simp_all [runs_need, runs_pure]

theorem runs_admit3 {d : List Byte} {a b c : List Nat} (ha : admits3 d a b c = true) (k : Hw) (Q : Unit → Hw → Prop) :
    Runs (admit3 d a b c) k Q ↔ Q () k := by
  unfold admits3 at ha
  rw [Bool.and_eq_true, Bool.and_eq_true] at ha
  unfold admit3
  rw [runs_bind, runs_admit ha.1.1, runs_bind, runs_admit ha.1.2, runs_admit ha.2]

end Sys2Proof.Machine
end

