-- ==== Sys2Proof/Laws/Opnd.lean ====
section
/-! SUPPORT. How a TOD's operands are read and written on a tile without stain. -/

namespace Sys2Proof.Machine

open Sys2Proof

variable {t : Nat} {s : Slice} {h : Hw} {x : Tile}

/-- Values read one after the other. -/
theorem runs_mapM_read {α β : Type} (f : α → T β) (g : α → β) (l : List α)
    (hf : ∀ i ∈ l, ∀ k, Mid t s h k x → ∀ P : β → Hw → Prop, (∀ k', Mid t s h k' x → P (g i) k') → Runs (f i) k P)
    (k : Hw) (m : Mid t s h k x) (Q : List β → Hw → Prop) (fin : ∀ k', Mid t s h k' x → Q (l.map g) k') :
    Runs (l.mapM f) k Q := by
  induction l generalizing k Q with
  | nil => rw [List.mapM_nil, runs_pure]; exact fin k m
  | cons i l ih =>
    rw [List.mapM_cons, runs_bind]
    refine hf i (List.mem_cons_self ..) k m _ fun k' m' => ?_
    rw [runs_bind]
    refine ih (fun j hj => hf j (List.mem_cons_of_mem _ hj)) k' m' _ fun k2 m2 => ?_
    rw [runs_pure]
    exact fin k2 m2

theorem scalar_clear (c : Clear x) (i : Nat) : (x.seq.scalar i).2 = false := by
  unfold Seq.scalar
  split
  · rfl
  · exact c.scalars i

theorem runs_baseVal {k : Hw} (m : Mid t s h k x) (c : Clear x) (o : Opnd) (Q : Nat → Hw → Prop) :
    Runs (o.baseVal t) k Q ↔ Q (x.seq.scalar o.base).1 k := by
  unfold Opnd.baseVal
  rw [runs_bind, runs_get, m.seq]
  have e := scalar_clear c o.base
  revert e
  generalize x.seq.scalar o.base = y
  obtain ⟨v, st⟩ := y
  intro e
  dsimp only at e ⊢
  subst e
  rw [runs_bind, runs_useClean, runs_pure]
  simp

theorem runs_addr {k : Hw} (m : Mid t s h k x) (c : Clear x) (o : Opnd) (Q : Nat → Hw → Prop) :
    Runs (o.addr t) k Q ↔ Q (o.addrIn x.seq) k := by
  unfold Opnd.addr
  rw [runs_bind, runs_baseVal m c, runs_pure]
  rfl

theorem runs_encs (ht : t < 1152) {k : Hw} (m : Mid t s h k x) (c : Clear x) (o : Opnd) (f : Nat) (hp : packable f o.d0 = true)
    (Q : List Nat → Hw → Prop) (fin : ∀ k', Mid t s h k' x → Q (o.encsIn h t s.pid x f) k') : Runs (o.encs t f) k Q := by
  unfold Opnd.encs Opnd.packs
  rw [runs_bind, runs_need]
  refine ⟨hp, ?_⟩
  rw [runs_bind, runs_addr m c, runs_bind]
  refine runs_mapM_read (h := h) (x := x) (s := s) _
    (fun r : Nat => unpack f o.d0 ((bytesIn h t x.sram s.pid (o.addrIn x.seq + r) (rowLen f o.d0)).map (·.1))) _
    (fun r _ k m P hP => ?_) k m _ fun k' m' => ?_
  · rw [runs_bind]
    refine runs_useT ht m c.sram c.sound _ _ _ fun k' m' => ?_
    rw [runs_pure]
    exact hP k' m'
  · rw [runs_pure]
    exact fin k' m'

theorem runs_vals (ht : t < 1152) {k : Hw} (m : Mid t s h k x) (c : Clear x) (o : Opnd) (f : Nat) (hp : packable f o.d0 = true)
    (Q : List Val → Hw → Prop) (fin : ∀ k', Mid t s h k' x → Q (o.valsIn h t s.pid x f) k') : Runs (o.vals t f) k Q := by
  unfold Opnd.vals
  rw [runs_bind]
  refine runs_encs ht m c o f hp _ fun k' m' => ?_
  unfold Opnd.valsIn at fin
  rw [runs_ite]
  constructor
  · intro hx
    simp only [hx, if_true] at fin
    unfold Opnd.scales
    rw [runs_bind]
    refine runs_useT ht m' c.sram c.sound _ _ _ fun k2 m2 => ?_
    rw [runs_pure]
    exact fin k2 m2
  · intro hx
    simp only [hx, Bool.false_eq_true, if_false] at fin
    rw [runs_pure]
    exact fin k' m'

theorem runs_valRows (ht : t < 1152) {k : Hw} (m : Mid t s h k x) (c : Clear x) (o : Opnd) (f : Nat) (hp : packable f o.d0 = true)
    (Q : List (List Val) → Hw → Prop) (fin : ∀ k', Mid t s h k' x → Q (o.rowsIn h t s.pid x f) k') : Runs (o.valRows t f) k Q := by
  unfold Opnd.valRows
  rw [runs_bind]
  refine runs_vals ht m c o f hp _ fun k' m' => ?_
  rw [runs_pure]
  exact fin k' m'

theorem writesBy_append (h : Hw) (t pid : Nat) (a b : List (Nat × List SByte)) (i : Nat) :
    writesBy h t pid (a ++ b) i = (writesBy h t pid b i).or (writesBy h t pid a i) := by
  induction a with
  | nil => simp [writesBy]
  | cons e a ih =>
    obtain ⟨u, bs⟩ := e
    rw [List.cons_append, writesBy_cons, writesBy_cons, ih, Option.or_assoc]

theorem SramAfter.append {h : Hw} {t pid : Nat} {m y z : SMap Byte} {a b : List (Nat × List SByte)}
    (p : SramAfter h t pid m a y) (q : SramAfter h t pid y b z) : SramAfter h t pid m (a ++ b) z := by
  intro i
  rw [q i, p i, writesBy_append]
  cases writesBy h t pid b i <;> rfl

theorem Mid.overflow {k : Hw} (m : Mid t s h k x) (b : Bool) (Q : Unit → Hw → Prop)
    (fin : ∀ k', Mid t s h k' { x with seq := { x.seq with overflow := x.seq.overflow || b } } → Q () k') :
    Runs (flagsT t false b) k Q := by
  refine runs_flagsT (q := x.seq) (o := x.seq.overflow) (x := x) m b Q fun k' m' => fin k' m'

theorem runs_putEncs (ht : t < 1152) {k : Hw} (m : Mid t s h k x) (c : Clear x) (o : Opnd) (f : Nat) (es : List Nat)
    (Q : Unit → Hw → Prop)
    (fin : ∀ k' y, Mid t s h k' { x with sram := y } → SramAfter h t s.pid x.sram (o.encWrites x.seq f es) y → Q () k') :
    Runs (o.putEncs t f es) k Q := by
  unfold Opnd.putEncs
  rw [runs_bind, runs_addr m c]
  refine runs_wrRows ht m c _ (fun r hr => ?_) _ fin
  obtain ⟨i, _, rfl⟩ := List.mem_map.1 hr
  exact withStain_clean _

theorem runs_putVals (ht : t < 1152) {k : Hw} (m : Mid t s h k x) (c : Clear x) (o : Opnd) (hd : Header) (vs : List Val)
    (hp : packable hd.fmtOut o.d0 = true) (Q : Unit → Hw → Prop)
    (fin : ∀ k' y, Mid t s h k' y → ValsPut h t s.pid o hd vs x y → Q () k') : Runs (o.putVals t hd vs) k Q := by
  unfold Opnd.putVals Opnd.packs
  rw [runs_bind, runs_need]
  refine ⟨hp, ?_⟩
  rw [runs_bind, runs_get, m.seq]
  dsimp only
  unfold ValsPut Opnd.valWrites valsOver at fin
  rw [runs_ite]
  constructor
  · intro hx
    simp only [hx, if_true] at fin
    rw [runs_bind]
    refine runs_putEncs ht m c o hd.fmtOut _ _ fun k1 y1 m1 f1 => ?_
    rw [runs_bind]
    refine runs_wrT ht m1 c.sram c.sound _ _ (withStain_clean _) _ fun k2 y2 m2 f2 => ?_
    refine m2.overflow _ _ fun k3 m3 => ?_
    refine fin k3 _ m3 ⟨y2, rfl, f1.append ?_⟩
    intro b
    rw [f2, writesBy_cons]
    rfl
  · intro hx
    simp only [hx, Bool.false_eq_true, if_false] at fin
    rw [runs_bind]
    refine runs_putEncs ht m c o hd.fmtOut _ _ fun k1 y1 m1 f1 => ?_
    refine m1.overflow _ _ fun k3 m3 => ?_
    refine fin k3 _ m3 ⟨y1, rfl, ?_⟩
    rw [List.map_map] at f1
    exact f1

/-- Collecting overflow keeps a tile free of stain. -/
theorem Clear.noteFlags (c : Clear x) (i o : Bool) : Clear (x.noteFlags i o) := ⟨c.sram, c.sound, c.scalars⟩

theorem runs_putOver (ht : t < 1152) {k : Hw} (m : Mid t s h k x) (c : Clear x) (o : Opnd) (hd : Header) (ovf : Bool)
    (vs : List Val) (hp : packable hd.fmtOut o.d0 = true) (Q : Unit → Hw → Prop)
    (fin : ∀ k' y, Mid t s h k' y → ValsPut h t s.pid o hd vs (x.noteFlags false ovf) y → Q () k') :
    Runs (o.putOver t hd ovf vs) k Q := by
  unfold Opnd.putOver Opnd.packs
  rw [runs_bind, runs_need]
  refine ⟨hp, ?_⟩
  rw [runs_bind]
  refine m.overflow _ _ fun k1 m1 => ?_
  have e : x.noteFlags false ovf = { x with seq := { x.seq with overflow := x.seq.overflow || ovf } } := by
    simp [Tile.noteFlags, Tile.withSeq]
  rw [← e] at m1
  exact runs_putVals ht m1 (c.noteFlags _ _) o hd vs hp Q fin

/-- The reading level. -/
theorem runs_levelT {k : Hw} (m : Mid t s h k x) (hd : Header) (Q : Int → Hw → Prop)
    (fin : ∀ lam k', LevelIs x s hd lam → Mid t s h k' x → Q lam k') : Runs (levelT t hd) k Q := by
  unfold levelT
  rw [runs_ite]
  constructor
  · intro ha
    rw [runs_bind]
    refine runs_sliceT m _ fun r e => ?_
    rw [runs_bind, runs_get, m.seq]
    have el : (k.tile t).lvlJobs = x.lvlJobs := by
      obtain ⟨_, _, e⟩ := m.tile
      rw [e]
    rw [el]
    dsimp only
    rw [runs_ite]
    constructor
    · intro hl
      rw [runs_pure]
      exact fin _ k ⟨fun h => (by rw [ha] at h; cases h), fun _ _ => rfl⟩ m
    · intro hl
      have mf := m.free
      revert mf
      generalize k.free = e
      intro mf
      obtain ⟨wd, k'⟩ := e
      dsimp only at mf ⊢
      rw [runs_bind, runs_set, runs_pure]
      exact fin _ _ ⟨fun h => (by rw [ha] at h; cases h), fun _ h => absurd h hl⟩ mf
  · intro ha
    rw [runs_pure]
    exact fin _ k ⟨fun _ => rfl, fun h => absurd h ha⟩ m

theorem runs_clearAccs {k : Hw} (m : Mid t s h k x) (i n : Nat) (Q : Unit → Hw → Prop)
    (fin : ∀ k', Mid t s h k' (x.cleared i n) → Q () k') : Runs (clearAccs t i n) k Q := by
  unfold clearAccs
  rw [runs_modify]
  exact fin _ (m.modTile (fun y => y.cleared i n) fun _ _ _ => rfl)

theorem runs_addAccs {k : Hw} (m : Mid t s h k x) (f : Nat) (lam : Int) (terms : List (List Val)) (Q : Unit → Hw → Prop)
    (fin : ∀ k', Mid t s h k' (x.addAll f lam terms) → Q () k') : Runs (addAccs t f lam terms) k Q := by
  unfold addAccs
  unfold Tile.addAll at fin
  generalize List.range terms.length = l at fin ⊢
  induction l generalizing k x with
  | nil => exact (runs_pure _ _ _).2 (fin k m)
  | cons i l ih =>
    show Runs (_ >>= fun _ => l.forM _) k Q
    rw [runs_bind]
    have one := fun (Q : Unit → Hw → Prop) => runs_addAcc m (f + i) lam (terms.getD i []) Q
    unfold addAccs at one
    have e1 : ∀ (g : Nat → T Unit), (List.range 1).forM g = g 0 := fun g => by
      show (g 0 >>= fun _ => pure ()) = g 0
      exact bind_pure (g 0)
    simp only [List.length_cons, List.length_nil, Nat.zero_add, e1, List.getD_cons_zero, Nat.add_zero] at one
    refine one _ fun k' m' => ?_
    exact ih m' fin

end Sys2Proof.Machine
end

