-- ==== Sys2Proof/Laws/Packets.lean ====
section
/-! SUPPORT. What a packet row's meaning finds: the command it acts for has begun, and `finish` ends it. -/

namespace Sys2Proof.Machine

open Sys2Proof

/-- The state a packet row acts on holds its command, begun. -/
theorem begun_cmd {h sp q p qu c b} (a : Acting h sp q p qu c b) :
    b.cmd? c.pid c.queue c.num = some { c with begun := true } := by
  obtain ⟨r, rfl⟩ := a
  unfold begunHw takenHw
  simp only []
  rw [← r.isCmd]
  have hf := r.first
  generalize sp.onAccept _ c = k at hf ⊢
  unfold Hw.cmd?
  rw [Hw.begin_cmds, List.find?_map]
  have same : (fun x : Cmd => x.same c.pid c.queue c.num) ∘
      (fun x : Cmd => if x.same c.pid c.queue c.num then { x with begun := true } else x) =
        fun x => x.same c.pid c.queue c.num := by
    funext x
    simp only [Function.comp]
    split <;> simp_all [Cmd.same]
  rw [same]
  unfold Hw.cmd? at hf
  rw [hf]
  have := List.find?_some hf
  simp_all

/-- The command of a packet row that acts was not entered through a lane. -/
theorem acting_entry {h sp q p qu c b} (a : Acting h sp q p qu c b) : c.entry = none := by
  rw [a.ready.isCmd]
  rfl

/-- `finish` ends a command that has begun. -/
theorem ends_of {b : Hw} {c : Cmd} (hc : b.cmd? c.pid c.queue c.num = some { c with begun := true }) (he : c.entry = none)
    (st r d : Nat) : Ends b (b.finish c st r d) c st r d := by
  refine ⟨?_, ?_⟩
  · have := Hw.finish_cmd b c _ st r d hc
    unfold Completed
    rw [this]
    simp only [he, Option.isSome]
    exact ⟨_, rfl, rfl, rfl, rfl, rfl, rfl, rfl, rfl⟩
  · have key : ∀ f : Cmd → Cmd, (∀ y, (f y).pid = y.pid ∧ (f y).queue = y.queue ∧ (f y).num = y.num) →
        (f { c with begun := true }).begun = true →
        { (b.modCmd c.pid c.queue c.num f).countStarted c.pid c.queue with cmds := b.cmds } = b.countStarted c.pid c.queue := by
      intro f hi hf
      have e : ∀ t k a, (b.modCmd c.pid c.queue c.num f).startCount c.pid c.queue t k a = b.startCount c.pid c.queue t k a :=
        fun t k a => Hw.startCount_modCmd b _ _ _ t f _ hc hi hf k a
      have l : (b.modCmd c.pid c.queue c.num f).cmds.length = b.cmds.length := by simp [Hw.modCmd]
      unfold Hw.countStarted
      simp only [e, l]
      rfl
    exact key _ (fun y => by split <;> exact ⟨rfl, rfl, rfl⟩) (by split <;> rfl)

/-- In the state a packet row acts on, `finish` ends its command with the completion that is named. -/
theorem acting_ends {h sp q p qu c b} (a : Acting h sp q p qu c b) (st r d : Nat) :
    Ends b (b.finish c st r d) c st r d :=
  ends_of (begun_cmd a) (acting_entry a) st r d

end Sys2Proof.Machine
end

