-- ==== Sys2Proof/Laws/SysState.lean ====
section
/-! SUPPORT. The fields of `Sys` under the updates of one of its parts, and the fields of the state under the updates
of a batch, a Datum and the requests that wait at a PCIe port. -/

namespace Sys2Proof.Machine

@[simp] theorem Hw.modDram_sys_dram (h : Hw) (f : Dram → Dram) : (h.modDram f).sys.dram = f h.sys.dram := rfl
@[simp] theorem Hw.modDram_sys_arbs (h : Hw) (f : Dram → Dram) : (h.modDram f).sys.arbs = h.sys.arbs := rfl
@[simp] theorem Hw.modDram_sys_apc (h : Hw) (f : Dram → Dram) : (h.modDram f).sys.apc = h.sys.apc := rfl
@[simp] theorem Hw.modDram_sys_gov (h : Hw) (f : Dram → Dram) : (h.modDram f).sys.gov = h.sys.gov := rfl
@[simp] theorem Hw.modDram_sys_trace (h : Hw) (f : Dram → Dram) : (h.modDram f).sys.trace = h.sys.trace := rfl
@[simp] theorem Hw.modDram_sys_flash (h : Hw) (f : Dram → Dram) : (h.modDram f).sys.flash = h.sys.flash := rfl
@[simp] theorem Hw.modDram_sys_grp (h : Hw) (f : Dram → Dram) : (h.modDram f).sys.grp = h.sys.grp := rfl
@[simp] theorem Hw.modDram_sys_wake (h : Hw) (f : Dram → Dram) : (h.modDram f).sys.wake = h.sys.wake := rfl
@[simp] theorem Hw.modDram_sys_wakeAt (h : Hw) (f : Dram → Dram) : (h.modDram f).sys.wakeAt = h.sys.wakeAt := rfl
@[simp] theorem Hw.modDram_sys_frzLow (h : Hw) (f : Dram → Dram) : (h.modDram f).sys.frzLow = h.sys.frzLow := rfl
@[simp] theorem Hw.modDram_sys_porstLow (h : Hw) (f : Dram → Dram) : (h.modDram f).sys.porstLow = h.sys.porstLow := rfl
@[simp] theorem Hw.modDram_sys_lost (h : Hw) (f : Dram → Dram) : (h.modDram f).sys.lost = h.sys.lost := rfl
@[simp] theorem Hw.modDram_sys_lossStage (h : Hw) (f : Dram → Dram) : (h.modDram f).sys.lossStage = h.sys.lossStage := rfl
@[simp] theorem Hw.modDram_sys_startStop (h : Hw) (f : Dram → Dram) : (h.modDram f).sys.startStop = h.sys.startStop := rfl
@[simp] theorem Hw.modDram_sys_recoveryB (h : Hw) (f : Dram → Dram) : (h.modDram f).sys.recoveryB = h.sys.recoveryB := rfl
@[simp] theorem Hw.modDram_sys_frozenAt (h : Hw) (f : Dram → Dram) : (h.modDram f).sys.frozenAt = h.sys.frozenAt := rfl
@[simp] theorem Hw.modDram_sys_dbgLevel (h : Hw) (f : Dram → Dram) : (h.modDram f).sys.dbgLevel = h.sys.dbgLevel := rfl
@[simp] theorem Hw.modDram_sys_tapRefused (h : Hw) (f : Dram → Dram) : (h.modDram f).sys.tapRefused = h.sys.tapRefused := rfl
@[simp] theorem Hw.modDram_sys_dieDue (h : Hw) (f : Dram → Dram) : (h.modDram f).sys.dieDue = h.sys.dieDue := rfl
@[simp] theorem Hw.modDram_sys_step (h : Hw) (f : Dram → Dram) : (h.modDram f).sys.step = h.sys.step := rfl
@[simp] theorem Hw.modDram_sys_srcInUse (h : Hw) (f : Dram → Dram) : (h.modDram f).sys.srcInUse = h.sys.srcInUse := rfl
@[simp] theorem Hw.modDram_sys_srcAt (h : Hw) (f : Dram → Dram) : (h.modDram f).sys.srcAt = h.sys.srcAt := rfl
@[simp] theorem Hw.modDram_sys_locks (h : Hw) (f : Dram → Dram) : (h.modDram f).sys.locks = h.sys.locks := rfl
@[simp] theorem Hw.modDram_sys_measured (h : Hw) (f : Dram → Dram) : (h.modDram f).sys.measured = h.sys.measured := rfl
@[simp] theorem Hw.modDram_sys_ppsAt (h : Hw) (f : Dram → Dram) : (h.modDram f).sys.ppsAt = h.sys.ppsAt := rfl
@[simp] theorem Hw.modDram_sys_can (h : Hw) (f : Dram → Dram) : (h.modDram f).sys.can = h.sys.can := rfl
@[simp] theorem Hw.modDram_sys_missed (h : Hw) (f : Dram → Dram) : (h.modDram f).sys.missed = h.sys.missed := rfl
@[simp] theorem Hw.modDram_sys_coatExcluded (h : Hw) (f : Dram → Dram) : (h.modDram f).sys.coatExcluded = h.sys.coatExcluded := rfl
@[simp] theorem Hw.modDram_sys_ownerSrc (h : Hw) (f : Dram → Dram) : (h.modDram f).sys.ownerSrc = h.sys.ownerSrc := rfl
@[simp] theorem Hw.modDram_sys_refLost (h : Hw) (f : Dram → Dram) : (h.modDram f).sys.refLost = h.sys.refLost := rfl
@[simp] theorem Hw.modDram_sys_tlps (h : Hw) (f : Dram → Dram) : (h.modDram f).sys.tlps = h.sys.tlps := rfl
@[simp] theorem Hw.modDram_sys_wakeReq (h : Hw) (f : Dram → Dram) : (h.modDram f).sys.wakeReq = h.sys.wakeReq := rfl
@[simp] theorem Hw.modDram_sys_modeAt (h : Hw) (f : Dram → Dram) : (h.modDram f).sys.modeAt = h.sys.modeAt := rfl
@[simp] theorem Hw.modDram_sys_frozenIx (h : Hw) (f : Dram → Dram) : (h.modDram f).sys.frozenIx = h.sys.frozenIx := rfl
@[simp] theorem Hw.modDram_sys_checkRead (h : Hw) (f : Dram → Dram) : (h.modDram f).sys.checkRead = h.sys.checkRead := rfl
@[simp] theorem Hw.modDram_sys_label (h : Hw) (f : Dram → Dram) : (h.modDram f).sys.label = h.sys.label := rfl
@[simp] theorem Hw.modDram_sys_unmaps (h : Hw) (f : Dram → Dram) : (h.modDram f).sys.unmaps = h.sys.unmaps := rfl
@[simp] theorem Hw.modDram_sys_kept (h : Hw) (f : Dram → Dram) : (h.modDram f).sys.kept = h.sys.kept := rfl

@[simp] theorem Hw.modApc_sys_dram (h : Hw) (f : Apc → Apc) : (h.modApc f).sys.dram = h.sys.dram := rfl
@[simp] theorem Hw.modApc_sys_arbs (h : Hw) (f : Apc → Apc) : (h.modApc f).sys.arbs = h.sys.arbs := rfl
@[simp] theorem Hw.modApc_sys_apc (h : Hw) (f : Apc → Apc) : (h.modApc f).sys.apc = f h.sys.apc := rfl
@[simp] theorem Hw.modApc_sys_gov (h : Hw) (f : Apc → Apc) : (h.modApc f).sys.gov = h.sys.gov := rfl
@[simp] theorem Hw.modApc_sys_trace (h : Hw) (f : Apc → Apc) : (h.modApc f).sys.trace = h.sys.trace := rfl
@[simp] theorem Hw.modApc_sys_flash (h : Hw) (f : Apc → Apc) : (h.modApc f).sys.flash = h.sys.flash := rfl
@[simp] theorem Hw.modApc_sys_grp (h : Hw) (f : Apc → Apc) : (h.modApc f).sys.grp = h.sys.grp := rfl
@[simp] theorem Hw.modApc_sys_wake (h : Hw) (f : Apc → Apc) : (h.modApc f).sys.wake = h.sys.wake := rfl
@[simp] theorem Hw.modApc_sys_wakeAt (h : Hw) (f : Apc → Apc) : (h.modApc f).sys.wakeAt = h.sys.wakeAt := rfl
@[simp] theorem Hw.modApc_sys_frzLow (h : Hw) (f : Apc → Apc) : (h.modApc f).sys.frzLow = h.sys.frzLow := rfl
@[simp] theorem Hw.modApc_sys_porstLow (h : Hw) (f : Apc → Apc) : (h.modApc f).sys.porstLow = h.sys.porstLow := rfl
@[simp] theorem Hw.modApc_sys_lost (h : Hw) (f : Apc → Apc) : (h.modApc f).sys.lost = h.sys.lost := rfl
@[simp] theorem Hw.modApc_sys_lossStage (h : Hw) (f : Apc → Apc) : (h.modApc f).sys.lossStage = h.sys.lossStage := rfl
@[simp] theorem Hw.modApc_sys_startStop (h : Hw) (f : Apc → Apc) : (h.modApc f).sys.startStop = h.sys.startStop := rfl
@[simp] theorem Hw.modApc_sys_recoveryB (h : Hw) (f : Apc → Apc) : (h.modApc f).sys.recoveryB = h.sys.recoveryB := rfl
@[simp] theorem Hw.modApc_sys_frozenAt (h : Hw) (f : Apc → Apc) : (h.modApc f).sys.frozenAt = h.sys.frozenAt := rfl
@[simp] theorem Hw.modApc_sys_dbgLevel (h : Hw) (f : Apc → Apc) : (h.modApc f).sys.dbgLevel = h.sys.dbgLevel := rfl
@[simp] theorem Hw.modApc_sys_tapRefused (h : Hw) (f : Apc → Apc) : (h.modApc f).sys.tapRefused = h.sys.tapRefused := rfl
@[simp] theorem Hw.modApc_sys_dieDue (h : Hw) (f : Apc → Apc) : (h.modApc f).sys.dieDue = h.sys.dieDue := rfl
@[simp] theorem Hw.modApc_sys_step (h : Hw) (f : Apc → Apc) : (h.modApc f).sys.step = h.sys.step := rfl
@[simp] theorem Hw.modApc_sys_srcInUse (h : Hw) (f : Apc → Apc) : (h.modApc f).sys.srcInUse = h.sys.srcInUse := rfl
@[simp] theorem Hw.modApc_sys_srcAt (h : Hw) (f : Apc → Apc) : (h.modApc f).sys.srcAt = h.sys.srcAt := rfl
@[simp] theorem Hw.modApc_sys_locks (h : Hw) (f : Apc → Apc) : (h.modApc f).sys.locks = h.sys.locks := rfl
@[simp] theorem Hw.modApc_sys_measured (h : Hw) (f : Apc → Apc) : (h.modApc f).sys.measured = h.sys.measured := rfl
@[simp] theorem Hw.modApc_sys_ppsAt (h : Hw) (f : Apc → Apc) : (h.modApc f).sys.ppsAt = h.sys.ppsAt := rfl
@[simp] theorem Hw.modApc_sys_can (h : Hw) (f : Apc → Apc) : (h.modApc f).sys.can = h.sys.can := rfl
@[simp] theorem Hw.modApc_sys_missed (h : Hw) (f : Apc → Apc) : (h.modApc f).sys.missed = h.sys.missed := rfl
@[simp] theorem Hw.modApc_sys_coatExcluded (h : Hw) (f : Apc → Apc) : (h.modApc f).sys.coatExcluded = h.sys.coatExcluded := rfl
@[simp] theorem Hw.modApc_sys_ownerSrc (h : Hw) (f : Apc → Apc) : (h.modApc f).sys.ownerSrc = h.sys.ownerSrc := rfl
@[simp] theorem Hw.modApc_sys_refLost (h : Hw) (f : Apc → Apc) : (h.modApc f).sys.refLost = h.sys.refLost := rfl
@[simp] theorem Hw.modApc_sys_tlps (h : Hw) (f : Apc → Apc) : (h.modApc f).sys.tlps = h.sys.tlps := rfl
@[simp] theorem Hw.modApc_sys_wakeReq (h : Hw) (f : Apc → Apc) : (h.modApc f).sys.wakeReq = h.sys.wakeReq := rfl
@[simp] theorem Hw.modApc_sys_modeAt (h : Hw) (f : Apc → Apc) : (h.modApc f).sys.modeAt = h.sys.modeAt := rfl
@[simp] theorem Hw.modApc_sys_frozenIx (h : Hw) (f : Apc → Apc) : (h.modApc f).sys.frozenIx = h.sys.frozenIx := rfl
@[simp] theorem Hw.modApc_sys_checkRead (h : Hw) (f : Apc → Apc) : (h.modApc f).sys.checkRead = h.sys.checkRead := rfl
@[simp] theorem Hw.modApc_sys_label (h : Hw) (f : Apc → Apc) : (h.modApc f).sys.label = h.sys.label := rfl
@[simp] theorem Hw.modApc_sys_unmaps (h : Hw) (f : Apc → Apc) : (h.modApc f).sys.unmaps = h.sys.unmaps := rfl
@[simp] theorem Hw.modApc_sys_kept (h : Hw) (f : Apc → Apc) : (h.modApc f).sys.kept = h.sys.kept := rfl

@[simp] theorem Hw.modGov_sys_dram (h : Hw) (f : Gov → Gov) : (h.modGov f).sys.dram = h.sys.dram := rfl
@[simp] theorem Hw.modGov_sys_arbs (h : Hw) (f : Gov → Gov) : (h.modGov f).sys.arbs = h.sys.arbs := rfl
@[simp] theorem Hw.modGov_sys_apc (h : Hw) (f : Gov → Gov) : (h.modGov f).sys.apc = h.sys.apc := rfl
@[simp] theorem Hw.modGov_sys_gov (h : Hw) (f : Gov → Gov) : (h.modGov f).sys.gov = f h.sys.gov := rfl
@[simp] theorem Hw.modGov_sys_trace (h : Hw) (f : Gov → Gov) : (h.modGov f).sys.trace = h.sys.trace := rfl
@[simp] theorem Hw.modGov_sys_flash (h : Hw) (f : Gov → Gov) : (h.modGov f).sys.flash = h.sys.flash := rfl
@[simp] theorem Hw.modGov_sys_grp (h : Hw) (f : Gov → Gov) : (h.modGov f).sys.grp = h.sys.grp := rfl
@[simp] theorem Hw.modGov_sys_wake (h : Hw) (f : Gov → Gov) : (h.modGov f).sys.wake = h.sys.wake := rfl
@[simp] theorem Hw.modGov_sys_wakeAt (h : Hw) (f : Gov → Gov) : (h.modGov f).sys.wakeAt = h.sys.wakeAt := rfl
@[simp] theorem Hw.modGov_sys_frzLow (h : Hw) (f : Gov → Gov) : (h.modGov f).sys.frzLow = h.sys.frzLow := rfl
@[simp] theorem Hw.modGov_sys_porstLow (h : Hw) (f : Gov → Gov) : (h.modGov f).sys.porstLow = h.sys.porstLow := rfl
@[simp] theorem Hw.modGov_sys_lost (h : Hw) (f : Gov → Gov) : (h.modGov f).sys.lost = h.sys.lost := rfl
@[simp] theorem Hw.modGov_sys_lossStage (h : Hw) (f : Gov → Gov) : (h.modGov f).sys.lossStage = h.sys.lossStage := rfl
@[simp] theorem Hw.modGov_sys_startStop (h : Hw) (f : Gov → Gov) : (h.modGov f).sys.startStop = h.sys.startStop := rfl
@[simp] theorem Hw.modGov_sys_recoveryB (h : Hw) (f : Gov → Gov) : (h.modGov f).sys.recoveryB = h.sys.recoveryB := rfl
@[simp] theorem Hw.modGov_sys_frozenAt (h : Hw) (f : Gov → Gov) : (h.modGov f).sys.frozenAt = h.sys.frozenAt := rfl
@[simp] theorem Hw.modGov_sys_dbgLevel (h : Hw) (f : Gov → Gov) : (h.modGov f).sys.dbgLevel = h.sys.dbgLevel := rfl
@[simp] theorem Hw.modGov_sys_tapRefused (h : Hw) (f : Gov → Gov) : (h.modGov f).sys.tapRefused = h.sys.tapRefused := rfl
@[simp] theorem Hw.modGov_sys_dieDue (h : Hw) (f : Gov → Gov) : (h.modGov f).sys.dieDue = h.sys.dieDue := rfl
@[simp] theorem Hw.modGov_sys_step (h : Hw) (f : Gov → Gov) : (h.modGov f).sys.step = h.sys.step := rfl
@[simp] theorem Hw.modGov_sys_srcInUse (h : Hw) (f : Gov → Gov) : (h.modGov f).sys.srcInUse = h.sys.srcInUse := rfl
@[simp] theorem Hw.modGov_sys_srcAt (h : Hw) (f : Gov → Gov) : (h.modGov f).sys.srcAt = h.sys.srcAt := rfl
@[simp] theorem Hw.modGov_sys_locks (h : Hw) (f : Gov → Gov) : (h.modGov f).sys.locks = h.sys.locks := rfl
@[simp] theorem Hw.modGov_sys_measured (h : Hw) (f : Gov → Gov) : (h.modGov f).sys.measured = h.sys.measured := rfl
@[simp] theorem Hw.modGov_sys_ppsAt (h : Hw) (f : Gov → Gov) : (h.modGov f).sys.ppsAt = h.sys.ppsAt := rfl
@[simp] theorem Hw.modGov_sys_can (h : Hw) (f : Gov → Gov) : (h.modGov f).sys.can = h.sys.can := rfl
@[simp] theorem Hw.modGov_sys_missed (h : Hw) (f : Gov → Gov) : (h.modGov f).sys.missed = h.sys.missed := rfl
@[simp] theorem Hw.modGov_sys_coatExcluded (h : Hw) (f : Gov → Gov) : (h.modGov f).sys.coatExcluded = h.sys.coatExcluded := rfl
@[simp] theorem Hw.modGov_sys_ownerSrc (h : Hw) (f : Gov → Gov) : (h.modGov f).sys.ownerSrc = h.sys.ownerSrc := rfl
@[simp] theorem Hw.modGov_sys_refLost (h : Hw) (f : Gov → Gov) : (h.modGov f).sys.refLost = h.sys.refLost := rfl
@[simp] theorem Hw.modGov_sys_tlps (h : Hw) (f : Gov → Gov) : (h.modGov f).sys.tlps = h.sys.tlps := rfl
@[simp] theorem Hw.modGov_sys_wakeReq (h : Hw) (f : Gov → Gov) : (h.modGov f).sys.wakeReq = h.sys.wakeReq := rfl
@[simp] theorem Hw.modGov_sys_modeAt (h : Hw) (f : Gov → Gov) : (h.modGov f).sys.modeAt = h.sys.modeAt := rfl
@[simp] theorem Hw.modGov_sys_frozenIx (h : Hw) (f : Gov → Gov) : (h.modGov f).sys.frozenIx = h.sys.frozenIx := rfl
@[simp] theorem Hw.modGov_sys_checkRead (h : Hw) (f : Gov → Gov) : (h.modGov f).sys.checkRead = h.sys.checkRead := rfl
@[simp] theorem Hw.modGov_sys_label (h : Hw) (f : Gov → Gov) : (h.modGov f).sys.label = h.sys.label := rfl
@[simp] theorem Hw.modGov_sys_unmaps (h : Hw) (f : Gov → Gov) : (h.modGov f).sys.unmaps = h.sys.unmaps := rfl
@[simp] theorem Hw.modGov_sys_kept (h : Hw) (f : Gov → Gov) : (h.modGov f).sys.kept = h.sys.kept := rfl

@[simp] theorem Hw.modGrp_sys_dram (h : Hw) (f : Group → Group) : (h.modGrp f).sys.dram = h.sys.dram := rfl
@[simp] theorem Hw.modGrp_sys_arbs (h : Hw) (f : Group → Group) : (h.modGrp f).sys.arbs = h.sys.arbs := rfl
@[simp] theorem Hw.modGrp_sys_apc (h : Hw) (f : Group → Group) : (h.modGrp f).sys.apc = h.sys.apc := rfl
@[simp] theorem Hw.modGrp_sys_gov (h : Hw) (f : Group → Group) : (h.modGrp f).sys.gov = h.sys.gov := rfl
@[simp] theorem Hw.modGrp_sys_trace (h : Hw) (f : Group → Group) : (h.modGrp f).sys.trace = h.sys.trace := rfl
@[simp] theorem Hw.modGrp_sys_flash (h : Hw) (f : Group → Group) : (h.modGrp f).sys.flash = h.sys.flash := rfl
@[simp] theorem Hw.modGrp_sys_grp (h : Hw) (f : Group → Group) : (h.modGrp f).sys.grp = f h.sys.grp := rfl
@[simp] theorem Hw.modGrp_sys_wake (h : Hw) (f : Group → Group) : (h.modGrp f).sys.wake = h.sys.wake := rfl
@[simp] theorem Hw.modGrp_sys_wakeAt (h : Hw) (f : Group → Group) : (h.modGrp f).sys.wakeAt = h.sys.wakeAt := rfl
@[simp] theorem Hw.modGrp_sys_frzLow (h : Hw) (f : Group → Group) : (h.modGrp f).sys.frzLow = h.sys.frzLow := rfl
@[simp] theorem Hw.modGrp_sys_porstLow (h : Hw) (f : Group → Group) : (h.modGrp f).sys.porstLow = h.sys.porstLow := rfl
@[simp] theorem Hw.modGrp_sys_lost (h : Hw) (f : Group → Group) : (h.modGrp f).sys.lost = h.sys.lost := rfl
@[simp] theorem Hw.modGrp_sys_lossStage (h : Hw) (f : Group → Group) : (h.modGrp f).sys.lossStage = h.sys.lossStage := rfl
@[simp] theorem Hw.modGrp_sys_startStop (h : Hw) (f : Group → Group) : (h.modGrp f).sys.startStop = h.sys.startStop := rfl
@[simp] theorem Hw.modGrp_sys_recoveryB (h : Hw) (f : Group → Group) : (h.modGrp f).sys.recoveryB = h.sys.recoveryB := rfl
@[simp] theorem Hw.modGrp_sys_frozenAt (h : Hw) (f : Group → Group) : (h.modGrp f).sys.frozenAt = h.sys.frozenAt := rfl
@[simp] theorem Hw.modGrp_sys_dbgLevel (h : Hw) (f : Group → Group) : (h.modGrp f).sys.dbgLevel = h.sys.dbgLevel := rfl
@[simp] theorem Hw.modGrp_sys_tapRefused (h : Hw) (f : Group → Group) : (h.modGrp f).sys.tapRefused = h.sys.tapRefused := rfl
@[simp] theorem Hw.modGrp_sys_dieDue (h : Hw) (f : Group → Group) : (h.modGrp f).sys.dieDue = h.sys.dieDue := rfl
@[simp] theorem Hw.modGrp_sys_step (h : Hw) (f : Group → Group) : (h.modGrp f).sys.step = h.sys.step := rfl
@[simp] theorem Hw.modGrp_sys_srcInUse (h : Hw) (f : Group → Group) : (h.modGrp f).sys.srcInUse = h.sys.srcInUse := rfl
@[simp] theorem Hw.modGrp_sys_srcAt (h : Hw) (f : Group → Group) : (h.modGrp f).sys.srcAt = h.sys.srcAt := rfl
@[simp] theorem Hw.modGrp_sys_locks (h : Hw) (f : Group → Group) : (h.modGrp f).sys.locks = h.sys.locks := rfl
@[simp] theorem Hw.modGrp_sys_measured (h : Hw) (f : Group → Group) : (h.modGrp f).sys.measured = h.sys.measured := rfl
@[simp] theorem Hw.modGrp_sys_ppsAt (h : Hw) (f : Group → Group) : (h.modGrp f).sys.ppsAt = h.sys.ppsAt := rfl
@[simp] theorem Hw.modGrp_sys_can (h : Hw) (f : Group → Group) : (h.modGrp f).sys.can = h.sys.can := rfl
@[simp] theorem Hw.modGrp_sys_missed (h : Hw) (f : Group → Group) : (h.modGrp f).sys.missed = h.sys.missed := rfl
@[simp] theorem Hw.modGrp_sys_coatExcluded (h : Hw) (f : Group → Group) : (h.modGrp f).sys.coatExcluded = h.sys.coatExcluded := rfl
@[simp] theorem Hw.modGrp_sys_ownerSrc (h : Hw) (f : Group → Group) : (h.modGrp f).sys.ownerSrc = h.sys.ownerSrc := rfl
@[simp] theorem Hw.modGrp_sys_refLost (h : Hw) (f : Group → Group) : (h.modGrp f).sys.refLost = h.sys.refLost := rfl
@[simp] theorem Hw.modGrp_sys_tlps (h : Hw) (f : Group → Group) : (h.modGrp f).sys.tlps = h.sys.tlps := rfl
@[simp] theorem Hw.modGrp_sys_wakeReq (h : Hw) (f : Group → Group) : (h.modGrp f).sys.wakeReq = h.sys.wakeReq := rfl
@[simp] theorem Hw.modGrp_sys_modeAt (h : Hw) (f : Group → Group) : (h.modGrp f).sys.modeAt = h.sys.modeAt := rfl
@[simp] theorem Hw.modGrp_sys_frozenIx (h : Hw) (f : Group → Group) : (h.modGrp f).sys.frozenIx = h.sys.frozenIx := rfl
@[simp] theorem Hw.modGrp_sys_checkRead (h : Hw) (f : Group → Group) : (h.modGrp f).sys.checkRead = h.sys.checkRead := rfl
@[simp] theorem Hw.modGrp_sys_label (h : Hw) (f : Group → Group) : (h.modGrp f).sys.label = h.sys.label := rfl
@[simp] theorem Hw.modGrp_sys_unmaps (h : Hw) (f : Group → Group) : (h.modGrp f).sys.unmaps = h.sys.unmaps := rfl
@[simp] theorem Hw.modGrp_sys_kept (h : Hw) (f : Group → Group) : (h.modGrp f).sys.kept = h.sys.kept := rfl

@[simp] theorem Hw.modArb_sys_dram (h : Hw) (i : Nat) (f : Arb → Arb) : (h.modArb i f).sys.dram = h.sys.dram := rfl
@[simp] theorem Hw.modArb_sys_apc (h : Hw) (i : Nat) (f : Arb → Arb) : (h.modArb i f).sys.apc = h.sys.apc := rfl
@[simp] theorem Hw.modArb_sys_gov (h : Hw) (i : Nat) (f : Arb → Arb) : (h.modArb i f).sys.gov = h.sys.gov := rfl
@[simp] theorem Hw.modArb_sys_trace (h : Hw) (i : Nat) (f : Arb → Arb) : (h.modArb i f).sys.trace = h.sys.trace := rfl
@[simp] theorem Hw.modArb_sys_flash (h : Hw) (i : Nat) (f : Arb → Arb) : (h.modArb i f).sys.flash = h.sys.flash := rfl
@[simp] theorem Hw.modArb_sys_grp (h : Hw) (i : Nat) (f : Arb → Arb) : (h.modArb i f).sys.grp = h.sys.grp := rfl
@[simp] theorem Hw.modArb_sys_wake (h : Hw) (i : Nat) (f : Arb → Arb) : (h.modArb i f).sys.wake = h.sys.wake := rfl
@[simp] theorem Hw.modArb_sys_wakeAt (h : Hw) (i : Nat) (f : Arb → Arb) : (h.modArb i f).sys.wakeAt = h.sys.wakeAt := rfl
@[simp] theorem Hw.modArb_sys_frzLow (h : Hw) (i : Nat) (f : Arb → Arb) : (h.modArb i f).sys.frzLow = h.sys.frzLow := rfl
@[simp] theorem Hw.modArb_sys_porstLow (h : Hw) (i : Nat) (f : Arb → Arb) : (h.modArb i f).sys.porstLow = h.sys.porstLow := rfl
@[simp] theorem Hw.modArb_sys_lost (h : Hw) (i : Nat) (f : Arb → Arb) : (h.modArb i f).sys.lost = h.sys.lost := rfl
@[simp] theorem Hw.modArb_sys_lossStage (h : Hw) (i : Nat) (f : Arb → Arb) : (h.modArb i f).sys.lossStage = h.sys.lossStage := rfl
@[simp] theorem Hw.modArb_sys_startStop (h : Hw) (i : Nat) (f : Arb → Arb) : (h.modArb i f).sys.startStop = h.sys.startStop := rfl
@[simp] theorem Hw.modArb_sys_recoveryB (h : Hw) (i : Nat) (f : Arb → Arb) : (h.modArb i f).sys.recoveryB = h.sys.recoveryB := rfl
@[simp] theorem Hw.modArb_sys_frozenAt (h : Hw) (i : Nat) (f : Arb → Arb) : (h.modArb i f).sys.frozenAt = h.sys.frozenAt := rfl
@[simp] theorem Hw.modArb_sys_dbgLevel (h : Hw) (i : Nat) (f : Arb → Arb) : (h.modArb i f).sys.dbgLevel = h.sys.dbgLevel := rfl
@[simp] theorem Hw.modArb_sys_tapRefused (h : Hw) (i : Nat) (f : Arb → Arb) : (h.modArb i f).sys.tapRefused = h.sys.tapRefused := rfl
@[simp] theorem Hw.modArb_sys_dieDue (h : Hw) (i : Nat) (f : Arb → Arb) : (h.modArb i f).sys.dieDue = h.sys.dieDue := rfl
@[simp] theorem Hw.modArb_sys_step (h : Hw) (i : Nat) (f : Arb → Arb) : (h.modArb i f).sys.step = h.sys.step := rfl
@[simp] theorem Hw.modArb_sys_srcInUse (h : Hw) (i : Nat) (f : Arb → Arb) : (h.modArb i f).sys.srcInUse = h.sys.srcInUse := rfl
@[simp] theorem Hw.modArb_sys_srcAt (h : Hw) (i : Nat) (f : Arb → Arb) : (h.modArb i f).sys.srcAt = h.sys.srcAt := rfl
@[simp] theorem Hw.modArb_sys_locks (h : Hw) (i : Nat) (f : Arb → Arb) : (h.modArb i f).sys.locks = h.sys.locks := rfl
@[simp] theorem Hw.modArb_sys_measured (h : Hw) (i : Nat) (f : Arb → Arb) : (h.modArb i f).sys.measured = h.sys.measured := rfl
@[simp] theorem Hw.modArb_sys_ppsAt (h : Hw) (i : Nat) (f : Arb → Arb) : (h.modArb i f).sys.ppsAt = h.sys.ppsAt := rfl
@[simp] theorem Hw.modArb_sys_can (h : Hw) (i : Nat) (f : Arb → Arb) : (h.modArb i f).sys.can = h.sys.can := rfl
@[simp] theorem Hw.modArb_sys_missed (h : Hw) (i : Nat) (f : Arb → Arb) : (h.modArb i f).sys.missed = h.sys.missed := rfl
@[simp] theorem Hw.modArb_sys_coatExcluded (h : Hw) (i : Nat) (f : Arb → Arb) : (h.modArb i f).sys.coatExcluded = h.sys.coatExcluded := rfl
@[simp] theorem Hw.modArb_sys_ownerSrc (h : Hw) (i : Nat) (f : Arb → Arb) : (h.modArb i f).sys.ownerSrc = h.sys.ownerSrc := rfl
@[simp] theorem Hw.modArb_sys_refLost (h : Hw) (i : Nat) (f : Arb → Arb) : (h.modArb i f).sys.refLost = h.sys.refLost := rfl
@[simp] theorem Hw.modArb_sys_tlps (h : Hw) (i : Nat) (f : Arb → Arb) : (h.modArb i f).sys.tlps = h.sys.tlps := rfl
@[simp] theorem Hw.modArb_sys_wakeReq (h : Hw) (i : Nat) (f : Arb → Arb) : (h.modArb i f).sys.wakeReq = h.sys.wakeReq := rfl
@[simp] theorem Hw.modArb_sys_modeAt (h : Hw) (i : Nat) (f : Arb → Arb) : (h.modArb i f).sys.modeAt = h.sys.modeAt := rfl
@[simp] theorem Hw.modArb_sys_frozenIx (h : Hw) (i : Nat) (f : Arb → Arb) : (h.modArb i f).sys.frozenIx = h.sys.frozenIx := rfl
@[simp] theorem Hw.modArb_sys_checkRead (h : Hw) (i : Nat) (f : Arb → Arb) : (h.modArb i f).sys.checkRead = h.sys.checkRead := rfl
@[simp] theorem Hw.modArb_sys_label (h : Hw) (i : Nat) (f : Arb → Arb) : (h.modArb i f).sys.label = h.sys.label := rfl
@[simp] theorem Hw.modArb_sys_unmaps (h : Hw) (i : Nat) (f : Arb → Arb) : (h.modArb i f).sys.unmaps = h.sys.unmaps := rfl
@[simp] theorem Hw.modArb_sys_kept (h : Hw) (i : Nat) (f : Arb → Arb) : (h.modArb i f).sys.kept = h.sys.kept := rfl

@[simp] theorem Hw.holdTlp_sys_dram (h : Hw) (w : WaitTlp) : (h.holdTlp w).sys.dram = h.sys.dram := rfl
@[simp] theorem Hw.holdTlp_sys_arbs (h : Hw) (w : WaitTlp) : (h.holdTlp w).sys.arbs = h.sys.arbs := rfl
@[simp] theorem Hw.holdTlp_sys_apc (h : Hw) (w : WaitTlp) : (h.holdTlp w).sys.apc = h.sys.apc := rfl
@[simp] theorem Hw.holdTlp_sys_gov (h : Hw) (w : WaitTlp) : (h.holdTlp w).sys.gov = h.sys.gov := rfl
@[simp] theorem Hw.holdTlp_sys_trace (h : Hw) (w : WaitTlp) : (h.holdTlp w).sys.trace = h.sys.trace := rfl
@[simp] theorem Hw.holdTlp_sys_flash (h : Hw) (w : WaitTlp) : (h.holdTlp w).sys.flash = h.sys.flash := rfl
@[simp] theorem Hw.holdTlp_sys_grp (h : Hw) (w : WaitTlp) : (h.holdTlp w).sys.grp = h.sys.grp := rfl
@[simp] theorem Hw.holdTlp_sys_wake (h : Hw) (w : WaitTlp) : (h.holdTlp w).sys.wake = h.sys.wake := rfl
@[simp] theorem Hw.holdTlp_sys_wakeAt (h : Hw) (w : WaitTlp) : (h.holdTlp w).sys.wakeAt = h.sys.wakeAt := rfl
@[simp] theorem Hw.holdTlp_sys_frzLow (h : Hw) (w : WaitTlp) : (h.holdTlp w).sys.frzLow = h.sys.frzLow := rfl
@[simp] theorem Hw.holdTlp_sys_porstLow (h : Hw) (w : WaitTlp) : (h.holdTlp w).sys.porstLow = h.sys.porstLow := rfl
@[simp] theorem Hw.holdTlp_sys_lost (h : Hw) (w : WaitTlp) : (h.holdTlp w).sys.lost = h.sys.lost := rfl
@[simp] theorem Hw.holdTlp_sys_lossStage (h : Hw) (w : WaitTlp) : (h.holdTlp w).sys.lossStage = h.sys.lossStage := rfl
@[simp] theorem Hw.holdTlp_sys_startStop (h : Hw) (w : WaitTlp) : (h.holdTlp w).sys.startStop = h.sys.startStop := rfl
@[simp] theorem Hw.holdTlp_sys_recoveryB (h : Hw) (w : WaitTlp) : (h.holdTlp w).sys.recoveryB = h.sys.recoveryB := rfl
@[simp] theorem Hw.holdTlp_sys_frozenAt (h : Hw) (w : WaitTlp) : (h.holdTlp w).sys.frozenAt = h.sys.frozenAt := rfl
@[simp] theorem Hw.holdTlp_sys_dbgLevel (h : Hw) (w : WaitTlp) : (h.holdTlp w).sys.dbgLevel = h.sys.dbgLevel := rfl
@[simp] theorem Hw.holdTlp_sys_tapRefused (h : Hw) (w : WaitTlp) : (h.holdTlp w).sys.tapRefused = h.sys.tapRefused := rfl
@[simp] theorem Hw.holdTlp_sys_dieDue (h : Hw) (w : WaitTlp) : (h.holdTlp w).sys.dieDue = h.sys.dieDue := rfl
@[simp] theorem Hw.holdTlp_sys_step (h : Hw) (w : WaitTlp) : (h.holdTlp w).sys.step = h.sys.step := rfl
@[simp] theorem Hw.holdTlp_sys_srcInUse (h : Hw) (w : WaitTlp) : (h.holdTlp w).sys.srcInUse = h.sys.srcInUse := rfl
@[simp] theorem Hw.holdTlp_sys_srcAt (h : Hw) (w : WaitTlp) : (h.holdTlp w).sys.srcAt = h.sys.srcAt := rfl
@[simp] theorem Hw.holdTlp_sys_locks (h : Hw) (w : WaitTlp) : (h.holdTlp w).sys.locks = h.sys.locks := rfl
@[simp] theorem Hw.holdTlp_sys_measured (h : Hw) (w : WaitTlp) : (h.holdTlp w).sys.measured = h.sys.measured := rfl
@[simp] theorem Hw.holdTlp_sys_ppsAt (h : Hw) (w : WaitTlp) : (h.holdTlp w).sys.ppsAt = h.sys.ppsAt := rfl
@[simp] theorem Hw.holdTlp_sys_can (h : Hw) (w : WaitTlp) : (h.holdTlp w).sys.can = h.sys.can := rfl
@[simp] theorem Hw.holdTlp_sys_missed (h : Hw) (w : WaitTlp) : (h.holdTlp w).sys.missed = h.sys.missed := rfl
@[simp] theorem Hw.holdTlp_sys_coatExcluded (h : Hw) (w : WaitTlp) : (h.holdTlp w).sys.coatExcluded = h.sys.coatExcluded := rfl
@[simp] theorem Hw.holdTlp_sys_ownerSrc (h : Hw) (w : WaitTlp) : (h.holdTlp w).sys.ownerSrc = h.sys.ownerSrc := rfl
@[simp] theorem Hw.holdTlp_sys_refLost (h : Hw) (w : WaitTlp) : (h.holdTlp w).sys.refLost = h.sys.refLost := rfl
@[simp] theorem Hw.holdTlp_sys_tlps (h : Hw) (w : WaitTlp) : (h.holdTlp w).sys.tlps = h.sys.tlps ++ [w] := rfl
@[simp] theorem Hw.holdTlp_sys_wakeReq (h : Hw) (w : WaitTlp) : (h.holdTlp w).sys.wakeReq = h.sys.wakeReq := rfl
@[simp] theorem Hw.holdTlp_sys_modeAt (h : Hw) (w : WaitTlp) : (h.holdTlp w).sys.modeAt = h.sys.modeAt := rfl
@[simp] theorem Hw.holdTlp_sys_frozenIx (h : Hw) (w : WaitTlp) : (h.holdTlp w).sys.frozenIx = h.sys.frozenIx := rfl
@[simp] theorem Hw.holdTlp_sys_checkRead (h : Hw) (w : WaitTlp) : (h.holdTlp w).sys.checkRead = h.sys.checkRead := rfl
@[simp] theorem Hw.holdTlp_sys_label (h : Hw) (w : WaitTlp) : (h.holdTlp w).sys.label = h.sys.label := rfl
@[simp] theorem Hw.holdTlp_sys_unmaps (h : Hw) (w : WaitTlp) : (h.holdTlp w).sys.unmaps = h.sys.unmaps := rfl
@[simp] theorem Hw.holdTlp_sys_kept (h : Hw) (w : WaitTlp) : (h.holdTlp w).sys.kept = h.sys.kept := rfl

@[simp] theorem Hw.modBatch_regs (h : Hw) (b : FusBatch) (f : FusBatch → FusBatch) : (h.modBatch b f).regs = h.regs := rfl
@[simp] theorem Hw.modBatch_freeIx (h : Hw) (b : FusBatch) (f : FusBatch → FusBatch) : (h.modBatch b f).freeIx = h.freeIx := rfl
@[simp] theorem Hw.modBatch_rndIx (h : Hw) (b : FusBatch) (f : FusBatch → FusBatch) : (h.modBatch b f).rndIx = h.rndIx := rfl
@[simp] theorem Hw.modBatch_mem (h : Hw) (b : FusBatch) (f : FusBatch → FusBatch) : (h.modBatch b f).mem = h.mem := rfl
@[simp] theorem Hw.modBatch_parts (h : Hw) (b : FusBatch) (f : FusBatch → FusBatch) : (h.modBatch b f).parts = h.parts := rfl
@[simp] theorem Hw.modBatch_cmds (h : Hw) (b : FusBatch) (f : FusBatch → FusBatch) : (h.modBatch b f).cmds = h.cmds := rfl
@[simp] theorem Hw.modBatch_fetched (h : Hw) (b : FusBatch) (f : FusBatch → FusBatch) : (h.modBatch b f).fetched = h.fetched := rfl
@[simp] theorem Hw.modBatch_mram (h : Hw) (b : FusBatch) (f : FusBatch → FusBatch) : (h.modBatch b f).mram = h.mram := rfl
@[simp] theorem Hw.modBatch_sobs (h : Hw) (b : FusBatch) (f : FusBatch → FusBatch) : (h.modBatch b f).sobs = h.sobs := rfl
@[simp] theorem Hw.modBatch_watches (h : Hw) (b : FusBatch) (f : FusBatch → FusBatch) : (h.modBatch b f).watches = h.watches := rfl
@[simp] theorem Hw.modBatch_evt (h : Hw) (b : FusBatch) (f : FusBatch → FusBatch) : (h.modBatch b f).evt = h.evt := rfl
@[simp] theorem Hw.modBatch_stn (h : Hw) (b : FusBatch) (f : FusBatch → FusBatch) : (h.modBatch b f).stn = h.stn := rfl
@[simp] theorem Hw.modBatch_vec (h : Hw) (b : FusBatch) (f : FusBatch → FusBatch) : (h.modBatch b f).vec = h.vec := rfl
@[simp] theorem Hw.modBatch_tiles (h : Hw) (b : FusBatch) (f : FusBatch → FusBatch) : (h.modBatch b f).tiles = h.tiles := rfl
@[simp] theorem Hw.modBatch_fab (h : Hw) (b : FusBatch) (f : FusBatch → FusBatch) : (h.modBatch b f).fab = h.fab := rfl
@[simp] theorem Hw.modBatch_models (h : Hw) (b : FusBatch) (f : FusBatch → FusBatch) : (h.modBatch b f).models = h.models := rfl
@[simp] theorem Hw.modBatch_jobs (h : Hw) (b : FusBatch) (f : FusBatch → FusBatch) : (h.modBatch b f).jobs = h.jobs := rfl
@[simp] theorem Hw.modBatch_dup (h : Hw) (b : FusBatch) (f : FusBatch → FusBatch) : (h.modBatch b f).dup = h.dup := rfl
@[simp] theorem Hw.modBatch_kv (h : Hw) (b : FusBatch) (f : FusBatch → FusBatch) : (h.modBatch b f).kv = h.kv := rfl
@[simp] theorem Hw.modBatch_cfg (h : Hw) (b : FusBatch) (f : FusBatch → FusBatch) : (h.modBatch b f).cfg = h.cfg := rfl
@[simp] theorem Hw.modBatch_msix (h : Hw) (b : FusBatch) (f : FusBatch → FusBatch) : (h.modBatch b f).msix = h.msix := rfl
@[simp] theorem Hw.modBatch_gfiles (h : Hw) (b : FusBatch) (f : FusBatch → FusBatch) : (h.modBatch b f).gfiles = h.gfiles := rfl
@[simp] theorem Hw.modBatch_outs (h : Hw) (b : FusBatch) (f : FusBatch → FusBatch) : (h.modBatch b f).outs = h.outs := rfl
@[simp] theorem Hw.modBatch_health (h : Hw) (b : FusBatch) (f : FusBatch → FusBatch) : (h.modBatch b f).health = h.health := rfl
@[simp] theorem Hw.modBatch_scores (h : Hw) (b : FusBatch) (f : FusBatch → FusBatch) : (h.modBatch b f).scores = h.scores := rfl
@[simp] theorem Hw.modBatch_watch (h : Hw) (b : FusBatch) (f : FusBatch → FusBatch) : (h.modBatch b f).watch = h.watch := rfl
@[simp] theorem Hw.modBatch_advised (h : Hw) (b : FusBatch) (f : FusBatch → FusBatch) : (h.modBatch b f).advised = h.advised := rfl
@[simp] theorem Hw.modBatch_healthAt (h : Hw) (b : FusBatch) (f : FusBatch → FusBatch) : (h.modBatch b f).healthAt = h.healthAt := rfl
@[simp] theorem Hw.modBatch_coatLog (h : Hw) (b : FusBatch) (f : FusBatch → FusBatch) : (h.modBatch b f).coatLog = h.coatLog := rfl
@[simp] theorem Hw.modBatch_freezeReq (h : Hw) (b : FusBatch) (f : FusBatch → FusBatch) : (h.modBatch b f).freezeReq = h.freezeReq := rfl
@[simp] theorem Hw.modBatch_seqStopped (h : Hw) (b : FusBatch) (f : FusBatch → FusBatch) : (h.modBatch b f).seqStopped = h.seqStopped := rfl
@[simp] theorem Hw.modBatch_detected (h : Hw) (b : FusBatch) (f : FusBatch → FusBatch) : (h.modBatch b f).detected = h.detected := rfl
@[simp] theorem Hw.modBatch_dfin (h : Hw) (b : FusBatch) (f : FusBatch → FusBatch) : (h.modBatch b f).dfin = h.dfin := rfl
@[simp] theorem Hw.modBatch_ing (h : Hw) (b : FusBatch) (f : FusBatch → FusBatch) : (h.modBatch b f).ing = h.ing := rfl
@[simp] theorem Hw.modBatch_datA (h : Hw) (b : FusBatch) (f : FusBatch → FusBatch) : (h.modBatch b f).datA = h.datA := rfl
@[simp] theorem Hw.modBatch_datB (h : Hw) (b : FusBatch) (f : FusBatch → FusBatch) : (h.modBatch b f).datB = h.datB := rfl
@[simp] theorem Hw.modBatch_trv (h : Hw) (b : FusBatch) (f : FusBatch → FusBatch) : (h.modBatch b f).trv = h.trv := rfl
@[simp] theorem Hw.modBatch_sys (h : Hw) (b : FusBatch) (f : FusBatch → FusBatch) : (h.modBatch b f).sys = h.sys := rfl

@[simp] theorem Hw.modDatum_regs (h : Hw) (d : Nat) (f : Datum → Datum) : (h.modDatum d f).regs = h.regs := by
  unfold Hw.modDatum; split <;> rfl
@[simp] theorem Hw.modDatum_freeIx (h : Hw) (d : Nat) (f : Datum → Datum) : (h.modDatum d f).freeIx = h.freeIx := by
  unfold Hw.modDatum; split <;> rfl
@[simp] theorem Hw.modDatum_rndIx (h : Hw) (d : Nat) (f : Datum → Datum) : (h.modDatum d f).rndIx = h.rndIx := by
  unfold Hw.modDatum; split <;> rfl
@[simp] theorem Hw.modDatum_mem (h : Hw) (d : Nat) (f : Datum → Datum) : (h.modDatum d f).mem = h.mem := by
  unfold Hw.modDatum; split <;> rfl
@[simp] theorem Hw.modDatum_parts (h : Hw) (d : Nat) (f : Datum → Datum) : (h.modDatum d f).parts = h.parts := by
  unfold Hw.modDatum; split <;> rfl
@[simp] theorem Hw.modDatum_cmds (h : Hw) (d : Nat) (f : Datum → Datum) : (h.modDatum d f).cmds = h.cmds := by
  unfold Hw.modDatum; split <;> rfl
@[simp] theorem Hw.modDatum_fetched (h : Hw) (d : Nat) (f : Datum → Datum) : (h.modDatum d f).fetched = h.fetched := by
  unfold Hw.modDatum; split <;> rfl
@[simp] theorem Hw.modDatum_mram (h : Hw) (d : Nat) (f : Datum → Datum) : (h.modDatum d f).mram = h.mram := by
  unfold Hw.modDatum; split <;> rfl
@[simp] theorem Hw.modDatum_sobs (h : Hw) (d : Nat) (f : Datum → Datum) : (h.modDatum d f).sobs = h.sobs := by
  unfold Hw.modDatum; split <;> rfl
@[simp] theorem Hw.modDatum_watches (h : Hw) (d : Nat) (f : Datum → Datum) : (h.modDatum d f).watches = h.watches := by
  unfold Hw.modDatum; split <;> rfl
@[simp] theorem Hw.modDatum_evt (h : Hw) (d : Nat) (f : Datum → Datum) : (h.modDatum d f).evt = h.evt := by
  unfold Hw.modDatum; split <;> rfl
@[simp] theorem Hw.modDatum_stn (h : Hw) (d : Nat) (f : Datum → Datum) : (h.modDatum d f).stn = h.stn := by
  unfold Hw.modDatum; split <;> rfl
@[simp] theorem Hw.modDatum_vec (h : Hw) (d : Nat) (f : Datum → Datum) : (h.modDatum d f).vec = h.vec := by
  unfold Hw.modDatum; split <;> rfl
@[simp] theorem Hw.modDatum_tiles (h : Hw) (d : Nat) (f : Datum → Datum) : (h.modDatum d f).tiles = h.tiles := by
  unfold Hw.modDatum; split <;> rfl
@[simp] theorem Hw.modDatum_fab (h : Hw) (d : Nat) (f : Datum → Datum) : (h.modDatum d f).fab = h.fab := by
  unfold Hw.modDatum; split <;> rfl
@[simp] theorem Hw.modDatum_models (h : Hw) (d : Nat) (f : Datum → Datum) : (h.modDatum d f).models = h.models := by
  unfold Hw.modDatum; split <;> rfl
@[simp] theorem Hw.modDatum_jobs (h : Hw) (d : Nat) (f : Datum → Datum) : (h.modDatum d f).jobs = h.jobs := by
  unfold Hw.modDatum; split <;> rfl
@[simp] theorem Hw.modDatum_dup (h : Hw) (d : Nat) (f : Datum → Datum) : (h.modDatum d f).dup = h.dup := by
  unfold Hw.modDatum; split <;> rfl
@[simp] theorem Hw.modDatum_kv (h : Hw) (d : Nat) (f : Datum → Datum) : (h.modDatum d f).kv = h.kv := by
  unfold Hw.modDatum; split <;> rfl
@[simp] theorem Hw.modDatum_cfg (h : Hw) (d : Nat) (f : Datum → Datum) : (h.modDatum d f).cfg = h.cfg := by
  unfold Hw.modDatum; split <;> rfl
@[simp] theorem Hw.modDatum_msix (h : Hw) (d : Nat) (f : Datum → Datum) : (h.modDatum d f).msix = h.msix := by
  unfold Hw.modDatum; split <;> rfl
@[simp] theorem Hw.modDatum_gfiles (h : Hw) (d : Nat) (f : Datum → Datum) : (h.modDatum d f).gfiles = h.gfiles := by
  unfold Hw.modDatum; split <;> rfl
@[simp] theorem Hw.modDatum_outs (h : Hw) (d : Nat) (f : Datum → Datum) : (h.modDatum d f).outs = h.outs := by
  unfold Hw.modDatum; split <;> rfl
@[simp] theorem Hw.modDatum_health (h : Hw) (d : Nat) (f : Datum → Datum) : (h.modDatum d f).health = h.health := by
  unfold Hw.modDatum; split <;> rfl
@[simp] theorem Hw.modDatum_scores (h : Hw) (d : Nat) (f : Datum → Datum) : (h.modDatum d f).scores = h.scores := by
  unfold Hw.modDatum; split <;> rfl
@[simp] theorem Hw.modDatum_watch (h : Hw) (d : Nat) (f : Datum → Datum) : (h.modDatum d f).watch = h.watch := by
  unfold Hw.modDatum; split <;> rfl
@[simp] theorem Hw.modDatum_advised (h : Hw) (d : Nat) (f : Datum → Datum) : (h.modDatum d f).advised = h.advised := by
  unfold Hw.modDatum; split <;> rfl
@[simp] theorem Hw.modDatum_healthAt (h : Hw) (d : Nat) (f : Datum → Datum) : (h.modDatum d f).healthAt = h.healthAt := by
  unfold Hw.modDatum; split <;> rfl
@[simp] theorem Hw.modDatum_coatLog (h : Hw) (d : Nat) (f : Datum → Datum) : (h.modDatum d f).coatLog = h.coatLog := by
  unfold Hw.modDatum; split <;> rfl
@[simp] theorem Hw.modDatum_freezeReq (h : Hw) (d : Nat) (f : Datum → Datum) : (h.modDatum d f).freezeReq = h.freezeReq := by
  unfold Hw.modDatum; split <;> rfl
@[simp] theorem Hw.modDatum_seqStopped (h : Hw) (d : Nat) (f : Datum → Datum) : (h.modDatum d f).seqStopped = h.seqStopped := by
  unfold Hw.modDatum; split <;> rfl
@[simp] theorem Hw.modDatum_detected (h : Hw) (d : Nat) (f : Datum → Datum) : (h.modDatum d f).detected = h.detected := by
  unfold Hw.modDatum; split <;> rfl
@[simp] theorem Hw.modDatum_dfin (h : Hw) (d : Nat) (f : Datum → Datum) : (h.modDatum d f).dfin = h.dfin := by
  unfold Hw.modDatum; split <;> rfl
@[simp] theorem Hw.modDatum_ing (h : Hw) (d : Nat) (f : Datum → Datum) : (h.modDatum d f).ing = h.ing := by
  unfold Hw.modDatum; split <;> rfl
@[simp] theorem Hw.modDatum_fus (h : Hw) (d : Nat) (f : Datum → Datum) : (h.modDatum d f).fus = h.fus := by
  unfold Hw.modDatum; split <;> rfl
@[simp] theorem Hw.modDatum_trv (h : Hw) (d : Nat) (f : Datum → Datum) : (h.modDatum d f).trv = h.trv := by
  unfold Hw.modDatum; split <;> rfl
@[simp] theorem Hw.modDatum_sys (h : Hw) (d : Nat) (f : Datum → Datum) : (h.modDatum d f).sys = h.sys := by
  unfold Hw.modDatum; split <;> rfl

end Sys2Proof.Machine
end

