-- ==== Sys2Proof/Laws/TodVals.lean ====
section
/-! SUPPORT. What each TOD that computes values in its own tile does when it completes. -/

namespace Sys2Proof.Machine

open Sys2Proof

variable {h : Hw} {t : Nat} {s : Slice} {d : List Byte}

/-- A TOD whose computation goes through admitted operands. -/
theorem TodReady.done {opc : Nat} (ht : t < 1152) (r : TodReady h t s opc d) (ho : todOpcodes.contains opc = true)
    (eff : Header → List Byte → T Unit) (P : Slice → Tile → Prop)
    (run : ∀ k, Mid t s h k (h.tile t) → Clear (h.tile t) →
      Runs (eff (header d) d) k fun _ k' => ∃ s' y, Mid t s' h k' y ∧ P s' y) :
    TodDone h (h.issueTod t opc eff) t d P :=
  Hw.issueTod_some ht r ho eff P fun k m => run k m r.clean.clear

/-- Going on after a choice between a computation and a value. -/
theorem runs_or {α β : Type} (c : Prop) [Decidable c] (x y : T α) {k : Hw} {Q : β → Hw → Prop} (J : α → T β)
    (hp : c → Runs x k fun a k => Runs (J a) k Q) (hn : ¬ c → Runs y k fun a k => Runs (J a) k Q) :
    Runs (if c then x >>= J else y >>= J) k Q := by
  rw [runs_ite, runs_bind, runs_bind]
  exact ⟨hp, hn⟩

theorem admits_kind {o : Opnd} {ks : List Nat} (ha : o.admits ks = true) : o.kind ∈ ks := by
  unfold Opnd.admits at ha
  rw [Bool.and_eq_true, Bool.and_eq_true] at ha
  simpa using ha.1.2

theorem out_kind {d : List Byte} {a b c : List Nat} (ha : admits3 d a b c = true) : (opnd d 2).kind ∈ c := by
  unfold admits3 at ha
  rw [Bool.and_eq_true] at ha
  exact admits_kind ha.2

theorem Mid.inexact {k : Hw} {x : Tile} (m : Mid t s h k x) (b : Bool) (Q : Unit → Hw → Prop)
    (fin : ∀ k', Mid t s h k' (x.noteInexact b) → Q () k') : Runs (flagsT t b false) k Q := by
  unfold flagsT
  unfold Tile.noteInexact at fin
  cases b with
  | false =>
    simp only [Bool.or_false, Bool.false_eq_true, if_false] at fin ⊢
    rw [runs_pure]
    exact fin k m
  | true =>
    simp only [Bool.or_false, Bool.or_true, if_true] at fin ⊢
    rw [runs_modify]
    have e := m.modSeq fun q => { q with inexact := q.inexact || true, overflow := q.overflow || false }
    simp only [Bool.or_false, Bool.or_true] at e
    exact fin _ e

theorem norm_step (ht : t < 1152) (r : TodReady h t s 0x24 d) (ha : admits3 d [1] [1] [1] = true)
    (h1 : ((opnd d 1).d0 == (opnd d 0).d0) = true) (h2 : (opnd d 2).sameShape (opnd d 0) = true)
    (pa : packable (header d).fmtA (opnd d 0).d0 = true) (pb : packable (header d).fmtB (opnd d 1).d0 = true)
    (po : packable (header d).fmtOut (opnd d 2).d0 = true) :
    TodDone h (h.issueTod t 0x24 (todNorm t)) t d (GivesOver h t s d
      ((rowsAt h t s d 0 (header d).fmtA ++ (rowsAt h t s d 1 (header d).fmtB).take 2).any fun x => x.any f32over)
      (((rowsAt h t s d 0 (header d).fmtA).flatMap fun x => normRow (bit (header d).param 0) (bits (header d).param 32 32)
        (x.map toF32) (((rowsAt h t s d 1 (header d).fmtB).getD 0 []).map toF32)
        (((rowsAt h t s d 1 (header d).fmtB).getD 1 []).map toF32)).map f32v)) := by
  refine r.done ht (by decide) _ _ fun k m c => ?_
  unfold todNorm
  rw [runs_bind, runs_admit3 ha, runs_bind, runs_need]
  refine ⟨h1, ?_⟩
  rw [runs_bind, runs_need]
  refine ⟨h2, ?_⟩
  rw [runs_bind]
  refine runs_valRows ht m c _ _ pa _ fun k m => ?_
  rw [runs_bind]
  refine runs_valRows ht m c _ _ pb _ fun k m => ?_
  exact runs_putOver ht m c _ _ _ _ po _ fun k' y m v => ⟨s, y, m, rfl, v⟩

theorem softmax_step (ht : t < 1152) (r : TodReady h t s 0x25 d) (ha : admits3 d [1] [0] [1] = true)
    (h2 : (opnd d 2).sameShape (opnd d 0) = true)
    (pa : packable (header d).fmtA (opnd d 0).d0 = true)
    (po : packable (header d).fmtOut (opnd d 2).d0 = true) :
    TodDone h (h.issueTod t 0x25 (todSoftmax t)) t d (GivesOver h t s d ((rowsAt h t s d 0 (header d).fmtA).any fun x => x.any f32over)
      (((rowsAt h t s d 0 (header d).fmtA).flatMap fun x => softmaxRow (bit (header d).param 0)
        (x.map toF32)).map f32v)) := by
  refine r.done ht (by decide) _ _ fun k m c => ?_
  unfold todSoftmax
  rw [runs_bind, runs_admit3 ha, runs_bind, runs_need]
  refine ⟨h2, ?_⟩
  rw [runs_bind]
  refine runs_valRows ht m c _ _ pa _ fun k m => ?_
  exact runs_putOver ht m c _ _ _ _ po _ fun k' y m v => ⟨s, y, m, rfl, v⟩

theorem runs_convertT (ht : t < 1152) {k : Hw} (m : Mid t s h k (h.tile t)) (c : Clear (h.tile t))
    (ha : admits3 d [1] [0] [1] = true) (h2 : ((opnd d 2).count == (opnd d 0).count) = true)
    (pa : packable (header d).fmtA (opnd d 0).d0 = true) (po : packable (header d).fmtOut (opnd d 2).d0 = true) :
    Runs (convertT t (header d) d) k fun _ k' => ∃ s' y, Mid t s' h k' y ∧
      Gives h t s d (valsAt h t s d 0 (header d).fmtA) s' y := by
  unfold convertT
  rw [runs_bind, runs_admit3 ha, runs_bind, runs_need]
  refine ⟨h2, ?_⟩
  rw [runs_bind]
  refine runs_vals ht m c _ _ pa _ fun k m => ?_
  exact runs_putVals ht m c _ _ _ po _ fun k' y m v => ⟨s, y, m, rfl, v⟩

theorem convert_step (ht : t < 1152) (r : TodReady h t s 0x2F d)
    (ha : admits3 d [1] [0] [1] = true) (h2 : ((opnd d 2).count == (opnd d 0).count) = true)
    (pa : packable (header d).fmtA (opnd d 0).d0 = true) (po : packable (header d).fmtOut (opnd d 2).d0 = true) :
    TodDone h (h.issueTod t 0x2F (convertT t)) t d (Gives h t s d (valsAt h t s d 0 (header d).fmtA)) :=
  r.done ht (by decide) _ _ fun _ m c => runs_convertT ht m c ha h2 pa po

theorem quant_step (ht : t < 1152) (r : TodReady h t s 0x29 d)
    (ha : admits3 d [1] [0] [1] = true) (h2 : ((opnd d 2).count == (opnd d 0).count) = true)
    (pa : packable (header d).fmtA (opnd d 0).d0 = true) (po : packable (header d).fmtOut (opnd d 2).d0 = true)
    (hq : mxOrInt (header d).fmtOut = true) :
    TodDone h (h.issueTod t 0x29 (todQuant t)) t d (Gives h t s d (valsAt h t s d 0 (header d).fmtA)) :=
  r.done ht (by decide) _ _ fun _ m c => by
    unfold todQuant
    rw [runs_bind, runs_need]
    exact ⟨hq, runs_convertT ht m c ha h2 pa po⟩

theorem dequant_step (ht : t < 1152) (r : TodReady h t s 0x2A d)
    (ha : admits3 d [1] [0] [1] = true) (h2 : ((opnd d 2).count == (opnd d 0).count) = true)
    (pa : packable (header d).fmtA (opnd d 0).d0 = true) (po : packable (header d).fmtOut (opnd d 2).d0 = true)
    (hq : mxOrInt (header d).fmtA = true) :
    TodDone h (h.issueTod t 0x2A (todDequant t)) t d (Gives h t s d (valsAt h t s d 0 (header d).fmtA)) :=
  r.done ht (by decide) _ _ fun _ m c => by
    unfold todDequant
    rw [runs_bind, runs_need]
    exact ⟨hq, runs_convertT ht m c ha h2 pa po⟩

theorem fft_step (ht : t < 1152) (r : TodReady h t s 0x2E d) (ha : admits3 d [1] [0] [1] = true)
    (hb : 1 ≤ bits (header d).param 0 3 ∧ bits (header d).param 0 3 ≤ 6)
    (h1 : (opnd d 0).d0 = 2 * 2 ^ bits (header d).param 0 3)
    (h2 : bit (header d).param 3 = true → (opnd d 0).d1 = 2 ^ bits (header d).param 0 3)
    (h3 : (opnd d 2).sameShape (opnd d 0) = true)
    (pa : packable (header d).fmtA (opnd d 0).d0 = true) (po : packable (header d).fmtOut (opnd d 2).d0 = true) :
    TodDone h (h.issueTod t 0x2E (todFft t)) t d (GivesOver h t s d ((valsAt h t s d 0 (header d).fmtA).any f32over)
      ((fftOut d (valsAt h t s d 0 (header d).fmtA)).flatMap fun z => [f32v z.1, f32v z.2])) := by
  refine r.done ht (by decide) _ _ fun k m c => ?_
  unfold todFft
  rw [runs_bind, runs_admit3 ha, runs_bind, runs_need]
  refine ⟨by simp [hb.1, hb.2], ?_⟩
  rw [runs_bind, runs_need]
  refine ⟨?_, ?_⟩
  · rw [Bool.and_eq_true, Bool.or_eq_true, beq_iff_eq, beq_iff_eq]
    refine ⟨h1, ?_⟩
    cases hx : bit (header d).param 3
    · exact .inl rfl
    · exact .inr (h2 hx)
  rw [runs_bind, runs_need]
  refine ⟨h3, ?_⟩
  rw [runs_bind]
  refine runs_vals ht m c _ _ pa _ fun k m => ?_
  exact runs_putOver ht m c _ _ _ _ po _ fun k' y m v => ⟨s, y, m, rfl, v⟩

theorem eltwise_step (ht : t < 1152) (r : TodReady h t s 0x22 d) (hf : fnLegal (bits (header d).param 0 6) = true)
    (ha : admits3 d [1] (if fnBinary (bits (header d).param 0 6) then [1] else [0, 1]) [1] = true)
    (h2 : ((opnd d 2).count == (opnd d 0).count) = true)
    (h1 : fnBinary (bits (header d).param 0 6) = true → (opnd d 1).count = (opnd d 0).count ∧
      packable (header d).fmtB (opnd d 1).d0 = true)
    (pa : packable (header d).fmtA (opnd d 0).d0 = true) (po : packable (header d).fmtOut (opnd d 2).d0 = true) :
    TodDone h (h.issueTod t 0x22 (todEltwise t)) t d (GivesOver h t s d (eltwiseOver h t s d) (eltwiseOut h t s d)) := by
  refine r.done ht (by decide) _ _ fun k m c => ?_
  unfold todEltwise
  rw [runs_bind, runs_need]
  refine ⟨hf, ?_⟩
  rw [runs_bind, runs_admit3 ha, runs_bind, runs_need]
  refine ⟨h2, ?_⟩
  rw [runs_bind, runs_need]
  refine ⟨?_, ?_⟩
  · cases hx : fnBinary (bits (header d).param 0 6)
    · rfl
    · rw [Bool.not_true, Bool.false_or, beq_iff_eq]
      exact (h1 hx).1
  rw [runs_bind]
  refine runs_vals ht m c _ _ pa _ fun k m => ?_
  refine runs_or _ _ _ _ (fun hb => ?_) fun hb => ?_
  · refine runs_vals ht m c _ _ (h1 hb).2 _ fun k m => ?_
    refine runs_or _ _ _ _ (fun hz => ?_) fun hz => ?_
    · refine runs_vals ht m c _ _ po _ fun k m => ?_
      exact runs_putOver ht m c _ _ _ _ po _ fun k' y m v => ⟨s, y, m, rfl, by
        unfold eltwiseOut eltwiseOver valsAt; dsimp only; rw [if_pos hb, if_pos hz]; exact v⟩
    · refine (runs_pure _ _ _).2 ?_
      exact runs_putOver ht m c _ _ _ _ po _ fun k' y m v => ⟨s, y, m, rfl, by
        unfold eltwiseOut eltwiseOver valsAt; dsimp only; rw [if_pos hb, if_neg hz]; exact v⟩
  · refine (runs_pure _ _ _).2 ?_
    refine runs_or _ _ _ _ (fun hz => ?_) fun hz => ?_
    · refine runs_vals ht m c _ _ po _ fun k m => ?_
      exact runs_putOver ht m c _ _ _ _ po _ fun k' y m v => ⟨s, y, m, rfl, by
        unfold eltwiseOut eltwiseOver valsAt; dsimp only; rw [if_neg hb, if_pos hz]; exact v⟩
    · refine (runs_pure _ _ _).2 ?_
      exact runs_putOver ht m c _ _ _ _ po _ fun k' y m v => ⟨s, y, m, rfl, by
        unfold eltwiseOut eltwiseOver valsAt; dsimp only; rw [if_neg hb, if_neg hz]; exact v⟩

/-- Sums of terms, kept where a vector TOD keeps them. -/
theorem runs_sums (ht : t < 1152) {k : Hw} (m : Mid t s h k (h.tile t)) (c : Clear (h.tile t)) (ts : List (List Val))
    (lam : Int) (hl : LevelIs (h.tile t) s (header d) lam) (f : Int → Acc → Val)
    (po : ((header d).hold || packable (header d).fmtOut (opnd d 2).d0) = true) (hk : (opnd d 2).kind ≠ 3) :
    Runs (workOut t (header d) (opnd d 2) lam ts (f lam)) k fun _ k' =>
      ∃ s' y, Mid t s' h k' y ∧ Accumulates h t s d ts f s' y := by
  have fin : ∀ (k' : Hw) (y : Tile), Mid t s h k' y → (if (header d).hold then y = (h.tile t).noteInexact ((workSums lam ts).any (·.2))
      else ValsPut h t s.pid (opnd d 2) (header d) ((workSums lam ts).map fun r => f lam r.1)
        ((h.tile t).noteInexact ((workSums lam ts).any (·.2))) y) →
      ∃ s' y, Mid t s' h k' y ∧ Accumulates h t s d ts f s' y := fun k' y m v =>
    ⟨s, y, m, rfl, lam, hl, fun h => absurd h hk, fun _ => v⟩
  unfold workOut Opnd.packs
  dsimp only
  rw [runs_ite]
  constructor
  · intro hh
    exact m.inexact _ _ fun k m => fin k _ m (by rw [if_pos hh]; rfl)
  · intro hh
    have pk : packable (header d).fmtOut (opnd d 2).d0 = true := by
      rcases Bool.or_eq_true _ _ ▸ po with h | h
      · exact absurd h hh
      · exact h
    rw [runs_bind, runs_need]
    refine ⟨pk, ?_⟩
    rw [runs_bind]
    refine m.inexact _ _ fun k m => ?_
    exact runs_putVals ht m ⟨c.sram, c.sound, c.scalars⟩ _ _ _ pk _ fun k' y m v => fin k' y m (by rw [if_neg hh]; exact v)

theorem runs_intoAccs {k : Hw} (m : Mid t s h k (h.tile t)) (ts : List (List Val))
    (lam : Int) (hl : LevelIs (h.tile t) s (header d) lam) (f : Int → Acc → Val) (hk : (opnd d 2).kind = 3) :
    Runs (do
      if (header d).keep then pure () else clearAccs t (opnd d 2).acc ts.length
      addAccs t (opnd d 2).acc lam ts) k fun _ k' =>
      ∃ s' y, Mid t s' h k' y ∧ Accumulates h t s d ts f s' y := by
  have fin : ∀ k x, Mid t s h k x → x = (if (header d).keep then h.tile t else (h.tile t).cleared (opnd d 2).acc ts.length) →
      Runs (addAccs t (opnd d 2).acc lam ts) k fun _ k' => ∃ s' y, Mid t s' h k' y ∧ Accumulates h t s d ts f s' y :=
    fun k x m e => runs_addAccs m _ _ _ _ fun k' m' => ⟨s, _, m', rfl, lam, hl, fun _ => by rw [← e], fun h => absurd hk h⟩
  dsimp only
  rw [runs_ite]
  refine ⟨fun hb => ?_, fun hb => ?_⟩
  · exact fin k _ m (by rw [if_pos hb])
  · refine (runs_bind _ _ _ _).2 ?_
    exact runs_clearAccs m _ _ _ fun k' m' => fin k' _ m' (by rw [if_neg hb])

theorem reduce_step (ht : t < 1152) (r : TodReady h t s 0x26 d) (hop : bits (header d).param 0 2 ≠ 3)
    (hax : bits (header d).param 2 2 ≠ 3)
    (ha : admits3 d [1] [0] (if bits (header d).param 0 2 = 0 then [1, 3] else [1]) = true)
    (pa : packable (header d).fmtA (opnd d 0).d0 = true)
    (ts : List (List Val)) (hts : ts = reduceTerms (bits (header d).param 2 2) (opnd d 0).d0 (opnd d 0).d1 (opnd d 0).d2
      (valsAt h t s d 0 (header d).fmtA))
    (h3 : (opnd d 2).kind = 3 → ts.length + (opnd d 2).acc ≤ 1024)
    (h1 : (opnd d 2).kind ≠ 3 → (opnd d 2).count = ts.length)
    (po : (opnd d 2).kind ≠ 3 → ((decide (bits (header d).param 0 2 = 0) && (header d).hold) ||
      packable (header d).fmtOut (opnd d 2).d0) = true) :
    TodDone h (h.issueTod t 0x26 (todReduce t)) t d fun s' y =>
      (bits (header d).param 0 2 ≠ 0 → Gives h t s d (ts.map (extreme (bits (header d).param 0 2 == 1))) s' y) ∧
      (bits (header d).param 0 2 = 0 → Accumulates h t s d ts (fun lam a => a.val lam) s' y) := by
  refine r.done ht (by decide) _ _ fun k m c => ?_
  unfold todReduce
  dsimp only
  rw [runs_bind, runs_need]
  refine ⟨by simpa using hop, ?_⟩
  rw [runs_bind, runs_need]
  refine ⟨by simpa using hax, ?_⟩
  rw [runs_bind, runs_admit3 ha]
  rw [runs_bind]
  refine runs_vals ht m c _ _ pa _ fun k m => ?_
  have e := hts.symm
  unfold valsAt at e
  rw [e, runs_ite]
  constructor
  · intro ho
    have hk : (opnd d 2).kind ≠ 3 := fun hk => by
      rw [if_neg ho] at ha
      have := out_kind ha; rw [hk] at this; revert this; decide
    rw [runs_bind, runs_need]
    refine ⟨by rw [beq_iff_eq]; exact h1 hk, ?_⟩
    have pk := po hk
    rw [decide_eq_false ho, Bool.false_and, Bool.false_or] at pk
    exact runs_putVals ht m c _ _ _ pk _ fun k' y m v => ⟨s, y, m, fun _ => ⟨rfl, v⟩, fun h => absurd h ho⟩
  · intro ho
    rw [runs_bind]
    refine runs_levelT m _ _ fun lam k hl m => ?_
    have fin : ∀ (k' : Hw), (∃ s' y, Mid t s' h k' y ∧ Accumulates h t s d ts (fun lam a => a.val lam) s' y) →
        ∃ s' y, Mid t s' h k' y ∧ ((bits (header d).param 0 2 ≠ 0 → Gives h t s d (ts.map (extreme (bits (header d).param 0 2 == 1))) s' y) ∧
      (bits (header d).param 0 2 = 0 → Accumulates h t s d ts (fun lam a => a.val lam) s' y)) :=
      fun k' ⟨s', y, m, a⟩ => ⟨s', y, m, fun h => absurd (not_not.1 ho) h, fun _ => a⟩
    rw [runs_ite]
    constructor
    · intro hk
      rw [runs_bind, runs_need]
      refine ⟨by simpa using h3 hk, ?_⟩
      exact (runs_intoAccs m ts lam hl _ hk).mono fun _ k' h => fin k' h
    · intro hk
      rw [runs_bind, runs_need]
      refine ⟨by rw [beq_iff_eq]; exact h1 hk, ?_⟩
      have pk := po hk
      rw [decide_eq_true (not_not.1 ho), Bool.true_and] at pk
      exact (runs_sums ht m c ts lam hl (fun lam a => a.val lam) pk hk).mono fun _ k' h => fin k' h

end Sys2Proof.Machine
end

