-- ==== Sys2Proof/Laws/TodMoves.lean ====
section
/-! SUPPORT. What the TODs that look up, pool, order and move rows do when they complete. -/

namespace Sys2Proof.Machine

open Sys2Proof

variable {h : Hw} {t : Nat} {s : Slice} {d : List Byte}

theorem Mid.lut {k : Hw} {x : Tile} (m : Mid t s h k x) (i : Nat) : (k.tile t).lut i = x.lut i := by
  obtain ⟨_, _, e⟩ := m.tile
  rw [e]
  rfl

theorem level_exists (x : Tile) (s : Slice) (hd : Header) : ∃ lam, LevelIs x s hd lam := by
  cases ha : hd.autoLevel with
  | false => exact ⟨sx 8 hd.level, fun _ => rfl, fun h => by rw [ha] at h; cases h⟩
  | true => exact ⟨sx 8 x.seq.lvl, fun h => by (rw [ha] at h; cases h), fun _ _ => rfl⟩

/-- Rows copied one after the other. -/
theorem runs_copyRows (ht : t < 1152) {k : Hw} {x : Tile} (m : Mid t s h k x) (c : Clear x) (l : List Nat)
    (f g : Nat → Nat) (n : Nat) :
    Runs (l.mapM fun i => do
      let bs ← rdT t (f i) n
      wrRow t (g i) bs) k fun _ k' => ∃ y, Mid t s h k' { x with sram := y } ∧
        CopiedRows h t s.pid n (l.map fun i => (f i, g i)) x.sram y := by
  induction l generalizing k x with
  | nil => rw [List.mapM_nil]; exact (runs_pure _ _ _).2 ⟨x.sram, m, rfl⟩
  | cons i l ih =>
    rw [List.mapM_cons, runs_bind, runs_bind]
    refine runs_rdT ht m c.sram c.sound _ _ _ fun k m => ?_
    unfold wrRow
    rw [runs_bind]
    refine runs_wrT ht m c.sram c.sound _ _ (bytesIn_clean ..) _ fun k y m e => ?_
    rw [runs_pure, runs_bind]
    have c' : Clear { x with sram := y } := ⟨c.sram, c.sound, c.scalars⟩
    refine (ih m c').mono fun _ k' ⟨z, m, f⟩ => ?_
    rw [runs_pure]
    exact ⟨z, m, y, e, f⟩

theorem forall₂_right {α β : Type} {P : β → Prop} {l : List α} {l' : List β} (h : List.Forall₂ (fun _ b => P b) l l') :
    ∀ b ∈ l', P b := by
  induction h with
  | nil => intro b hb; cases hb
  | cons p _ ih =>
    intro b hb
    rcases List.mem_cons.1 hb with rfl | hb
    · exact p
    · exact ih b hb

/-- Rows of which every byte becomes a free value, one after the other. -/
theorem runs_freeRows (ht : t < 1152) {k : Hw} {x : Tile} (m : Mid t s h k x) (c : Clear x) (l : List Nat)
    (f g : Nat → Nat) (n : Nat) :
    Runs (l.mapM fun i => do
      let bs ← rdT t (f i) n
      wrRow t (g i) (← freeRow bs)) k fun _ k' => ∃ ws y, Mid t s h k' { x with sram := y } ∧
        (ws.map fun e : Nat × List SByte => (e.1, e.2.length)) = (l.map fun i => (g i, n)) ∧
        SramAfter h t s.pid x.sram ws y := by
  induction l generalizing k x with
  | nil => rw [List.mapM_nil]; exact (runs_pure _ _ _).2 ⟨[], x.sram, m, rfl, fun _ => rfl⟩
  | cons i l ih =>
    rw [List.mapM_cons, runs_bind, runs_bind]
    refine runs_rdT ht m c.sram c.sound _ _ _ fun k m => ?_
    rw [runs_bind]
    have free : Runs (freeRow (bytesIn h t x.sram s.pid (f i) n)) k fun bs k' =>
        List.Forall₂ (fun _ b => b.2 = false) (bytesIn h t x.sram s.pid (f i) n) bs ∧ Mid t s h k' x := by
      unfold freeRow
      refine runs_mapM _ _ _ (fun k => Mid t s h k x) _ m fun b hb k m => ?_
      rw [runs_bind]
      refine runs_freeT m _ fun v k' m' => ?_
      rw [runs_pure]
      have := bytesIn_clean h t x.sram s.pid (f i) n
      rw [List.any_eq_false] at this
      exact ⟨by simpa using this b hb, m'⟩
    refine free.mono fun bs k ⟨hb, m⟩ => ?_
    have hc : bs.any (·.2) = false := by
      rw [List.any_eq_false]
      intro b hm
      rw [forall₂_right hb b hm]; simp
    have hl : bs.length = n := by
      rw [← hb.length_eq]
      simp [bytesIn]
    unfold wrRow
    rw [runs_bind]
    refine runs_wrT ht m c.sram c.sound _ _ hc _ fun k y m e => ?_
    rw [runs_pure, runs_bind]
    have c' : Clear { x with sram := y } := ⟨c.sram, c.sound, c.scalars⟩
    refine (ih m c').mono fun _ k' ⟨ws, z, m, hw, f⟩ => ?_
    rw [runs_pure]
    refine ⟨(g i, bs) :: ws, z, m, by simp [hw, hl], fun b => ?_⟩
    rw [f b, writesBy_cons, e b]
    cases writesBy h t s.pid ws b <;> rfl

theorem act_step (ht : t < 1152) (r : TodReady h t s 0x23 d) (ha : admits3 d [1, 3] [0] [1] = true)
    (n : Nat) (hn : n = if (opnd d 0).kind = 3 then (opnd d 0).d0 * (opnd d 0).d1 else (opnd d 0).count)
    (h2 : (opnd d 2).count = n)
    (pa : (opnd d 0).kind ≠ 3 → packable (header d).fmtA (opnd d 0).d0 = true)
    (po : packable (header d).fmtOut (opnd d 2).d0 = true) :
    TodDone h (h.issueTod t 0x23 (todAct t)) t d fun s' y => ∃ lam, LevelIs (h.tile t) s (header d) lam ∧
      GivesOver h t s d ((actIn h t s d n lam).any f32over) ((actIn h t s d n lam).map fun v =>
        f32v (lutApply ((h.tile t).lut (bits (header d).param 0 3)) (toF32 v))) s' y := by
  refine r.done ht (by decide) _ _ fun k m c => ?_
  unfold todAct
  dsimp only
  have e := hn.symm
  unfold Opnd.count at e
  rw [runs_bind, runs_admit3 ha, runs_bind, runs_need, e]
  refine ⟨by rw [beq_iff_eq]; exact h2, ?_⟩
  rw [runs_ite]
  constructor
  · intro hk
    rw [runs_bind]
    refine runs_levelT m _ _ fun lam k hl m => ?_
    rw [runs_bind, runs_get, runs_bind, runs_pure, runs_bind, runs_get, m.lut]
    have ea : ∀ i, (k.tile t).acc i = (h.tile t).acc i := fun i => by unfold Tile.acc; rw [m.accs]
    simp only [ea]
    exact runs_putOver ht m c _ _ _ _ po _ fun k' y m v => ⟨s, y, m, lam, hl, rfl, by rw [actIn, if_pos hk]; exact v⟩
  · intro hk
    rw [runs_bind]
    refine runs_vals ht m c _ _ (pa hk) _ fun k m => ?_
    rw [runs_bind, runs_get, m.lut]
    refine runs_putOver ht m c _ _ _ _ po _ fun k' y m v => ⟨s, y, m, ?_⟩
    obtain ⟨lam, hl⟩ := level_exists (h.tile t) s (header d)
    exact ⟨lam, hl, rfl, by rw [actIn, if_neg hk]; exact v⟩

theorem pool_step (ht : t < 1152) (r : TodReady h t s 0x21 d) (ha : admits3 d [1] [0] [1] = true)
    (hm : bits (header d).param 0 2 ≠ 3) (hw : bits (header d).param 2 4 ≠ 0 ∧ bits (header d).param 6 4 ≠ 0)
    (h2 : (opnd d 2).d0 = (opnd d 0).d0)
    (pa : packable (header d).fmtA (opnd d 0).d0 = true)
    (po : ((decide (bits (header d).param 0 2 ≠ 0) && (header d).hold) || packable (header d).fmtOut (opnd d 2).d0) = true) :
    TodDone h (h.issueTod t 0x21 (todPool t)) t d fun s' y =>
      (bits (header d).param 0 2 = 0 → Gives h t s d ((poolWindows h t s d).map (extreme true)) s' y) ∧
      (bits (header d).param 0 2 ≠ 0 → Accumulates h t s d (poolWindows h t s d) (fun lam a =>
        if bits (header d).param 0 2 = 1 then (a.val lam).div (Val.ofInt (bits (header d).param 2 4 * bits (header d).param 6 4))
        else a.val lam) s' y) := by
  refine r.done ht (by decide) _ _ fun k m c => ?_
  have hk : (opnd d 2).kind ≠ 3 := by
    have := out_kind ha
    intro hk
    rw [hk] at this
    revert this
    decide
  unfold todPool
  dsimp only
  rw [runs_bind, runs_admit3 ha]
  rw [runs_bind, runs_need]
  refine ⟨by simpa using hm, ?_⟩
  rw [runs_bind, runs_need]
  refine ⟨by simpa using hw, ?_⟩
  rw [runs_bind, runs_need]
  refine ⟨by rw [beq_iff_eq]; exact h2, ?_⟩
  rw [runs_bind]
  refine runs_valRows ht m c _ _ pa _ fun k m => ?_
  rw [runs_ite]
  constructor
  · intro ho
    rw [decide_eq_false (not_not.2 ho), Bool.false_and, Bool.false_or] at po
    exact runs_putVals ht m c _ _ _ po _ fun k' y m v => ⟨s, y, m, fun _ => ⟨rfl, v⟩, fun h => absurd ho h⟩
  · intro ho
    rw [decide_eq_true ho, Bool.true_and] at po
    rw [runs_bind]
    refine runs_levelT m _ _ fun lam k hl m => ?_
    exact (runs_sums ht m c (poolWindows h t s d) lam hl (fun lam a =>
        if bits (header d).param 0 2 = 1 then (a.val lam).div (Val.ofInt (bits (header d).param 2 4 * bits (header d).param 6 4))
        else a.val lam) po hk).mono fun _ k' ⟨s', y, m, a⟩ => ⟨s', y, m, fun h => absurd h ho, fun _ => a⟩

theorem runs_keyedRows (ht : t < 1152) {k : Hw} (m : Mid t s h k (h.tile t)) (c : Clear (h.tile t))
    (h1 : ((opnd d 1).sameShape (opnd d 0)) = true)
    (pa : packable (header d).fmtA (opnd d 0).d0 = true) (pb : packable (header d).fmtB (opnd d 1).d0 = true)
    (Q : List (List (Val × Nat)) → Hw → Prop) (fin : ∀ k, Mid t s h k (h.tile t) → Q (keyedIn h t s d) k) :
    Runs (keyedRows t (header d) (opnd d 0) (opnd d 1)) k Q := by
  unfold keyedRows
  rw [runs_bind, runs_need]
  refine ⟨h1, ?_⟩
  rw [runs_bind]
  refine runs_valRows ht m c _ _ pa _ fun k m => ?_
  rw [runs_bind]
  refine runs_encs ht m c _ _ pb _ fun k m => ?_
  rw [runs_pure]
  exact fin k m

theorem runs_putKeyed (ht : t < 1152) {k : Hw} (m : Mid t s h k (h.tile t)) (c : Clear (h.tile t))
    (po : packable (header d).fmtOut (opnd d 2).d0 = true) (rows : List (List (Val × Nat))) :
    Runs (putKeyed t (header d) (opnd d 2) rows) k fun _ k' => ∃ s' y, Mid t s' h k' y ∧ GivesKeyed h t s d rows s' y := by
  unfold putKeyed Opnd.packs
  rw [runs_bind, runs_need]
  refine ⟨po, ?_⟩
  dsimp only
  rw [runs_bind, runs_get, m.seq, runs_bind]
  refine m.overflow _ _ fun k m => ?_
  rw [runs_bind]
  have en : ∀ b, (h.tile t).noteFlags false b = { h.tile t with seq := { (h.tile t).seq with overflow := (h.tile t).seq.overflow || b } } :=
    fun b => by simp [Tile.noteFlags, Tile.withSeq]
  refine runs_putEncs ht m ⟨c.sram, c.sound, c.scalars⟩ _ _ _ _ fun k' y m f => ?_
  rw [runs_ite]
  constructor
  · intro hx
    refine runs_wrRows ht m ⟨c.sram, c.sound, c.scalars⟩ _ (fun e he => ?_) _ fun k' z m g =>
      ⟨s, _, m, rfl, z, by rw [en], ?_⟩
    · obtain ⟨i, _, rfl⟩ := List.mem_map.1 he
      exact withStain_clean _
    · unfold keyedWrites
      dsimp only
      rw [if_pos hx]
      exact f.append g
  · intro hx
    rw [runs_pure]
    refine ⟨s, _, m, rfl, y, by rw [en], ?_⟩
    unfold keyedWrites
    dsimp only
    rw [if_neg hx, List.append_nil]
    exact f

theorem topk_step (ht : t < 1152) (r : TodReady h t s 0x27 d) (ha : admits3 d [1] [1] [1] = true)
    (n : Nat) (hn : n = bits (header d).param 0 11) (hr : 1 ≤ n ∧ n ≤ 1024)
    (h2 : (opnd d 2).d0 = n ∧ (opnd d 2).d1 * (opnd d 2).d2 = 2 * ((opnd d 0).d1 * (opnd d 0).d2))
    (h1 : ((opnd d 1).sameShape (opnd d 0)) = true)
    (pa : packable (header d).fmtA (opnd d 0).d0 = true) (pb : packable (header d).fmtB (opnd d 1).d0 = true)
    (po : packable (header d).fmtOut (opnd d 2).d0 = true) :
    TodDone h (h.issueTod t 0x27 (todTopk t)) t d (GivesKeyed h t s d
      ((keyedIn h t s d).map fun l => (sortKeys true l).take n ++ List.replicate (n - l.length) (Val.zero, 0))) := by
  refine r.done ht (by decide) _ _ fun k m c => ?_
  unfold todTopk
  dsimp only
  rw [runs_bind, runs_admit3 ha, runs_bind, runs_need, ← hn]
  refine ⟨by simpa using hr, ?_⟩
  rw [runs_bind, runs_need]
  refine ⟨by simpa using h2, ?_⟩
  rw [runs_bind]
  refine runs_keyedRows ht m c h1 pa pb _ fun k m => ?_
  exact runs_putKeyed ht m c po _

theorem sort_step (ht : t < 1152) (r : TodReady h t s 0x28 d) (ha : admits3 d [1] [1] [1] = true)
    (h2 : (opnd d 2).d0 = (opnd d 0).d0 ∧ (opnd d 2).d1 * (opnd d 2).d2 = 2 * ((opnd d 0).d1 * (opnd d 0).d2))
    (h1 : ((opnd d 1).sameShape (opnd d 0)) = true)
    (pa : packable (header d).fmtA (opnd d 0).d0 = true) (pb : packable (header d).fmtB (opnd d 1).d0 = true)
    (po : packable (header d).fmtOut (opnd d 2).d0 = true) :
    TodDone h (h.issueTod t 0x28 (todSort t)) t d (GivesKeyed h t s d
      ((keyedIn h t s d).map (sortKeys (bit (header d).param 0)))) := by
  refine r.done ht (by decide) _ _ fun k m c => ?_
  unfold todSort
  dsimp only
  rw [runs_bind, runs_admit3 ha, runs_bind, runs_need]
  refine ⟨by simpa using h2, ?_⟩
  rw [runs_bind]
  refine runs_keyedRows ht m c h1 pa pb _ fun k m => ?_
  exact runs_putKeyed ht m c po _

theorem runs_rowAt (ht : t < 1152) {k : Hw} {x : Tile} (m : Mid t s h k x) (c : Clear x) (o : Opnd) (f : Nat) (i : Int)
    (hp : packable f o.d0 = true) (Q : List Val → Hw → Prop)
    (fin : ∀ k', Mid t s h k' x → Q (o.rowAtIn h t s.pid x f i) k') : Runs (o.rowAt t f i) k Q := by
  unfold Opnd.rowAt Opnd.packs
  rw [runs_bind, runs_need]
  refine ⟨hp, ?_⟩
  rw [runs_bind, runs_addr m c]
  dsimp only
  rw [runs_bind]
  refine runs_useT ht m c.sram c.sound _ _ _ fun k m => ?_
  unfold Opnd.rowAtIn at fin
  rw [runs_ite]
  constructor
  · intro hx
    simp only [hx, if_true] at fin
    rw [runs_bind]
    refine runs_useT ht m c.sram c.sound _ _ _ fun k m => ?_
    rw [runs_pure]
    exact fin k m
  · intro hx
    simp only [hx, Bool.false_eq_true, if_false] at fin
    rw [runs_pure]
    exact fin k m

theorem gather_step (ht : t < 1152) (r : TodReady h t s 0x2C d) (ha : admits3 d [1] [1] [1] = true)
    (is : List Int) (hi : is = (valsAt h t s d 1 (header d).fmtB).map indexOf)
    (h2 : (opnd d 2).count = (opnd d 0).d0 * is.length)
    (pa : packable (header d).fmtA (opnd d 0).d0 = true) (pb : packable (header d).fmtB (opnd d 1).d0 = true)
    (po : packable (header d).fmtOut (opnd d 2).d0 = true) :
    TodDone h (h.issueTod t 0x2C (todGather t)) t d (Gives h t s d
      (is.map fun i => (opnd d 0).rowAtIn h t s.pid (h.tile t) (header d).fmtA i).flatten) := by
  refine r.done ht (by decide) _ _ fun k m c => ?_
  subst hi
  unfold todGather
  dsimp only
  rw [runs_bind, runs_admit3 ha, runs_bind]
  refine runs_vals ht m c _ _ pb _ fun k m => ?_
  rw [runs_bind, runs_need]
  rw [List.length_map] at h2
  refine ⟨by rw [beq_iff_eq]; exact h2, ?_⟩
  rw [runs_bind]
  refine runs_mapM_read (h := h) (x := h.tile t) (s := s) _
    (fun i : Val => (opnd d 0).rowAtIn h t s.pid (h.tile t) (header d).fmtA (indexOf i)) _
    (fun i _ k m P hP => runs_rowAt ht m c _ _ _ pa _ hP) k m _ fun k m => ?_
  rw [List.map_map]
  exact runs_putVals ht m c _ _ _ po _ fun k' y m v => ⟨s, y, m, rfl, v⟩

theorem fill_step (ht : t < 1152) (r : TodReady h t s 0x31 d) (ha : admits3 d [0] [0] [1] = true)
    (po : packable (header d).fmtOut (opnd d 2).d0 = true) :
    TodDone h (h.issueTod t 0x31 (todFill t)) t d (Stores h t s (fillWrites h t d)) := by
  refine r.done ht (by decide) _ _ fun k m c => ?_
  unfold todFill Opnd.packs
  dsimp only
  rw [runs_bind, runs_admit3 ha, runs_bind, runs_need]
  refine ⟨po, ?_⟩
  rw [runs_bind, runs_addr m c]
  refine runs_wrRows ht m c _ (fun e he => ?_) _ fun k' y m f => ⟨s, _, m, rfl, y, rfl, f⟩
  obtain ⟨i, _, rfl⟩ := List.mem_map.1 he
  rw [List.any_map, List.any_eq_false]
  intro _ _
  simp

theorem copy_step (ht : t < 1152) (r : TodReady h t s 0x30 d) (ha : admits3 d [1] [0] [1] = true)
    (h2 : (opnd d 2).sameShape (opnd d 0) = true) (pa : packable (header d).fmtA (opnd d 0).d0 = true) :
    TodDone h (h.issueTod t 0x30 (todCopy t)) t d fun s' y => s' = s ∧ ∃ m, y = { h.tile t with sram := m } ∧
      CopiedRows h t s.pid (rowLen (header d).fmtA (opnd d 0).d0)
        ((List.range (opnd d 0).rowOffs.length).map fun i =>
          ((opnd d 0).addrIn (h.tile t).seq + (opnd d 0).rowOffs.getD i 0,
           (opnd d 2).addrIn (h.tile t).seq + (opnd d 2).rowOffs.getD i 0)) (h.tile t).sram m := by
  refine r.done ht (by decide) _ _ fun k m c => ?_
  unfold todCopy Opnd.packs
  dsimp only
  rw [runs_bind, runs_admit3 ha, runs_bind, runs_need]
  refine ⟨h2, ?_⟩
  rw [runs_bind, runs_need]
  refine ⟨pa, ?_⟩
  rw [runs_bind, runs_addr m c, runs_bind, runs_addr m c, runs_bind]
  exact (runs_copyRows ht m c _ _ _ _).mono fun _ k' ⟨y, m, f⟩ =>
    runs_sealT m ⟨c.sram, c.sound, c.scalars⟩ _ _ fun k' m => ⟨s, _, m, rfl, y, rfl, f⟩

end Sys2Proof.Machine
end

