-- ==== Sys2Proof/Laws/TodSimple.lean ====
section
/-! SUPPORT. What the TODs of the sequencer and the accumulators and the receiving TODs of the mesh do when they
complete; `TRANSPOSE`, `DWCONV` and `SCATTER`. -/

namespace Sys2Proof.Machine

open Sys2Proof

variable {h : Hw} {t : Nat} {s : Slice} {d : List Byte}

theorem nop_step (ht : t < 1152) (r : TodReady h t s 0x00 d) (ha : admits3 d [0] [0] [0] = true) :
    TodDone h (h.issueTod t 0x00 todNop) t d fun s' y => s' = s ∧ y = h.tile t := by
  refine r.done ht (by decide) _ _ fun k m c => ?_
  unfold todNop
  rw [runs_admit3 ha]
  exact ⟨s, _, m, rfl, rfl⟩

theorem sets_step (ht : t < 1152) (r : TodReady h t s 0x01 d) (ha : admits3 d [0] [0] [0] = true)
    (hr : bits (header d).param 0 5 ≤ 23) :
    TodDone h (h.issueTod t 0x01 (todSets t)) t d fun s' y =>
      s' = s ∧ y = (h.tile t).sets s (header d).param := by
  refine r.done ht (by decide) _ _ fun k m c => ?_
  unfold todSets
  dsimp only
  rw [runs_bind, runs_admit3 ha, runs_bind, runs_need]
  refine ⟨by simpa using hr, ?_⟩
  rw [runs_bind, runs_get, m.seq]
  have keep : bits (header d).param 0 5 ≠ 22 → ∀ q, q = (h.tile t).seq.sets (header d).param →
      (h.tile t).withSeq q = (h.tile t).sets s (header d).param := fun hn q e => by
    unfold Tile.sets
    rw [if_neg hn, e]
    rfl
  rw [runs_ite]
  constructor
  · intro h1
    rw [scalar_clear c, Bool.and_false, runs_setS]
    refine ⟨s, _, m.withS _ _ _, rfl, keep (by omega) _ ?_⟩
    unfold Seq.sets
    rw [if_pos h1]
  · intro h1
    rw [runs_ite]
    constructor
    · intro h2
      rw [runs_modify]
      refine ⟨s, _, m.modSeq _, rfl, keep (by omega) _ ?_⟩
      unfold Seq.sets
      rw [if_neg h1, if_pos h2]
    · intro h2
      rw [runs_ite]
      constructor
      · intro h3
        rw [runs_modify]
        refine ⟨s, _, m.modSeq _, rfl, keep (by omega) _ ?_⟩
        unfold Seq.sets
        rw [if_neg h1, if_neg h2, if_pos h3]
      · intro h3
        rw [runs_ite]
        constructor
        · intro h4
          rw [runs_modify]
          refine ⟨s, _, m.modSeq _, rfl, keep (by omega) _ ?_⟩
          unfold Seq.sets
          rw [if_neg h1, if_neg h2, if_neg h3, if_pos h4]
        · intro h4
          rw [runs_ite]
          constructor
          · intro h5
            rw [runs_bind]
            refine runs_sliceT m _ fun r e => ?_
            rw [runs_modify]
            refine ⟨s, _, m.modTile _ fun _ _ _ => rfl, rfl, ?_⟩
            unfold Tile.sets Seq.sets
            dsimp only
            rw [if_neg h1, if_neg h2, if_neg h3, if_neg h4, if_pos h5, if_pos h5]
            rfl
          · intro h5
            rw [runs_modify]
            refine ⟨s, _, m.modSeq _, rfl, keep h5 _ ?_⟩
            unfold Seq.sets
            rw [if_neg h1, if_neg h2, if_neg h3, if_neg h4, if_neg h5]

theorem vprog_step (ht : t < 1152) (r : TodReady h t s 0x05 d) (ha : admits3 d [0] [0] [0] = true)
    (he : bits (header d).param 0 19 % 4 = 0) :
    TodDone h (h.issueTod t 0x05 (todVprog t)) t d fun s' y => s' = s ∧ ∃ lam, LevelIs (h.tile t) s (header d) lam ∧
      y = (h.tile t).withSeq { (h.tile t).seq with
        pc := bits (header d).param 0 19, inProg := true, vlevel := unsx 8 lam } := by
  refine r.done ht (by decide) _ _ fun k m c => ?_
  unfold todVprog
  dsimp only
  rw [runs_bind, runs_admit3 ha, runs_bind, runs_need]
  refine ⟨by simpa using he, ?_⟩
  rw [runs_bind]
  refine runs_levelT m _ _ fun lam k hl m => ?_
  rw [runs_modify]
  exact ⟨s, _, m.modSeq _, rfl, lam, hl, rfl⟩

theorem lutLoad_step (ht : t < 1152) (r : TodReady h t s 0x06 d) (ha : admits3 d [1] [0] [0] = true)
    (pa : packable (header d).fmtA (opnd d 0).d0 = true) (bs : List Byte)
    (hb : bs = ((opnd d 0).rowOffs.map fun r => (sramBytes h t s.pid ((opnd d 0).addrIn (h.tile t).seq + r)
      (rowLen (header d).fmtA (opnd d 0).d0)).map (·.1)).flatten) (hl : bs.length = 1040) :
    TodDone h (h.issueTod t 0x06 (todLutLoad t)) t d fun s' y => s' = s ∧
      y = { h.tile t with
        luts := (h.tile t).luts.put (bits (header d).param 0 3) ((List.range 260).map fun i => field bs (4 * i) 4) } := by
  refine r.done ht (by decide) _ _ fun k m c => ?_
  unfold todLutLoad
  dsimp only
  rw [runs_bind, runs_admit3 ha, runs_bind]
  unfold rowBytes Opnd.packs
  rw [runs_bind, runs_need]
  refine ⟨pa, ?_⟩
  rw [runs_bind, runs_addr m c, runs_bind]
  refine runs_mapM_read (h := h) (x := h.tile t) (s := s) _
    (fun r : Nat => (sramBytes h t s.pid ((opnd d 0).addrIn (h.tile t).seq + r)
      (rowLen (header d).fmtA (opnd d 0).d0)).map (·.1)) _
    (fun i _ k m P hP => runs_useT ht m c.sram c.sound _ _ _ hP) k m _ fun k m => ?_
  rw [runs_pure, runs_bind, runs_need, ← hb]
  refine ⟨by simpa using hl, ?_⟩
  rw [runs_modify]
  exact ⟨s, _, m.modTile _ fun _ _ _ => rfl, rfl, rfl⟩

theorem accClear_step (ht : t < 1152) (r : TodReady h t s 0x16 d) (ha : admits3 d [0] [0] [3] = true) :
    TodDone h (h.issueTod t 0x16 (todAccClear t)) t d fun s' y => s' = s ∧
      y = (h.tile t).cleared (opnd d 2).acc ((opnd d 2).d0 * (opnd d 2).d1) := by
  refine r.done ht (by decide) _ _ fun k m c => ?_
  unfold todAccClear
  rw [runs_bind, runs_admit3 ha]
  exact runs_clearAccs m _ _ _ fun k m => ⟨s, _, m, rfl, rfl⟩

theorem accRead_step (ht : t < 1152) (r : TodReady h t s 0x17 d) (ha : admits3 d [3] [0] [1] = true)
    (h2 : (opnd d 2).count = (opnd d 0).d0 * (opnd d 0).d1) (po : packable (header d).fmtOut (opnd d 2).d0 = true) :
    TodDone h (h.issueTod t 0x17 (todAccRead t)) t d fun s' y => s' = s ∧ ∃ lam z, LevelIs (h.tile t) s (header d) lam ∧
      ValsPut h t s.pid (opnd d 2) (header d) ((List.range ((opnd d 0).d0 * (opnd d 0).d1)).map fun i =>
        ((h.tile t).acc ((opnd d 0).acc + i)).val lam) (h.tile t) z ∧
      y = if bit (header d).param 0 then z.cleared (opnd d 0).acc ((opnd d 0).d0 * (opnd d 0).d1) else z := by
  refine r.done ht (by decide) _ _ fun k m c => ?_
  unfold todAccRead
  dsimp only
  rw [runs_bind, runs_admit3 ha, runs_bind, runs_need]
  refine ⟨by rw [beq_iff_eq]; exact h2, ?_⟩
  rw [runs_bind]
  refine runs_levelT m _ _ fun lam k hl m => ?_
  rw [runs_bind, runs_get]
  have ea : ∀ i, (k.tile t).acc i = (h.tile t).acc i := fun i => by unfold Tile.acc; rw [m.accs]
  simp only [ea]
  rw [runs_bind]
  refine runs_putVals ht m c _ _ _ po _ fun k' z m v => ?_
  rw [runs_ite]
  constructor
  · intro hb
    exact runs_clearAccs m _ _ _ fun k m => ⟨s, _, m, rfl, lam, z, hl, v, by rw [if_pos hb]⟩
  · intro hb
    rw [runs_pure]
    exact ⟨s, _, m, rfl, lam, z, hl, v, by rw [if_neg hb]⟩

theorem recv_step (ht : t < 1152) (r : TodReady h t s 0x41 d) (ha : admits3 d [4] [0] [0] = true)
    (hn : (opnd d 0).bytes ≤ (h.tile t).arrivedOn (opnd d 0).tile (opnd d 0).slot) :
    TodDone h (h.issueTod t 0x41 (todRecv t)) t d fun s' y => s' = s ∧ y = h.tile t := by
  refine r.done ht (by decide) _ _ fun k m c => ?_
  unfold todRecv
  dsimp only
  rw [runs_bind, runs_admit3 ha, runs_bind, runs_baseVal m c, runs_bind, runs_get, runs_need]
  have e : (k.tile t).arrivedOn (opnd d 0).tile (opnd d 0).slot = (h.tile t).arrivedOn (opnd d 0).tile (opnd d 0).slot := by
    obtain ⟨_, _, e⟩ := m.tile
    rw [e]
    rfl
  rw [e]
  exact ⟨by simpa using hn, s, _, m, rfl, rfl⟩

theorem levelRecv_step (ht : t < 1152) (r : TodReady h t s 0x45 d) (ha : admits3 d [0] [0] [0] = true)
    (e : Nat × Nat × Nat) (he : ((h.tile t).lvlIn.find? fun e => e.1 == bits (header d).param 0 4 && e.2.1 == s.pid) = some e) :
    TodDone h (h.issueTod t 0x45 (todLevelRecv t)) t d fun s' y => s' = s ∧ y = { h.tile t with
      seq := { (h.tile t).seq with lvl := e.2.2 }
      lvlIn := (h.tile t).lvlIn.erase e
      lvlKept := (h.tile t).lvlKept.put (s.pid * 1024 + s.act) e.2.2
      lvlJobs := if (h.tile t).lvlJobs.contains (s.pid, s.seq) then (h.tile t).lvlJobs
        else (h.tile t).lvlJobs ++ [(s.pid, s.seq)] } := by
  refine r.done ht (by decide) _ _ fun k m c => ?_
  unfold todLevelRecv
  dsimp only
  rw [runs_bind, runs_admit3 ha, runs_bind]
  refine runs_sliceT m _ fun q eq => ?_
  rw [runs_bind, runs_get]
  have el : (k.tile t).lvlIn = (h.tile t).lvlIn := by
    obtain ⟨_, _, e⟩ := m.tile
    rw [e]
  rw [el, he]
  dsimp only
  rw [runs_modify]
  exact ⟨s, _, m.modTile _ fun _ _ _ => rfl, rfl, rfl⟩

theorem haloRecv_step (ht : t < 1152) (r : TodReady h t s 0x43 d)
    (ha : ((bit (header d).param 0 || (opnd d 0).admits [4]) && (opnd d 1).admits [0] && (opnd d 2).admits [1]) = true)
    (h1 : ¬ ((opnd d 2).d1 > 8 ∧ (opnd d 2).d2 > 8)) (hx : isMx (header d).fmtA = false)
    (po : packable (header d).fmtA (opnd d 2).d0 = true) (n : Nat) (hn : n = rowLen (header d).fmtA (opnd d 2).d0)
    (hz : bit (header d).param 0 = false → n * (opnd d 2).d1 * (opnd d 2).d2 = (opnd d 0).bytes ∧
      (opnd d 0).bytes ≤ (h.tile t).haloOn s.pid (opnd d 0).tile (opnd d 0).slot ((h.tile t).seq.scalar 15).1) :
    TodDone h (h.issueTod t 0x43 (todHaloRecv t)) t d fun s' y => s' = s ∧ ∃ m, y = { h.tile t with sram := m } ∧
      (bit (header d).param 0 = true → SramAfter h t s.pid (h.tile t).sram ((opnd d 2).rowOffs.map fun r =>
        ((opnd d 2).addrIn (h.tile t).seq + r, withStain false (zeros n))) m) ∧
      (bit (header d).param 0 = false → ((h.tile t).areasOf s.pid).any (fun a => a.slot == (opnd d 0).slot) = false →
        CopiedRows h t s.pid n ((List.range (opnd d 2).rowOffs.length).map fun i =>
        (haloAddr ((opnd d 0).addrIn (h.tile t).seq) ((h.tile t).seq.scalar 15).1 (opnd d 0).bytes + i * n,
         (opnd d 2).addrIn (h.tile t).seq + (opnd d 2).rowOffs.getD i 0)) (h.tile t).sram m) ∧
      (bit (header d).param 0 = false → ((h.tile t).areasOf s.pid).any (fun a => a.slot == (opnd d 0).slot) = true →
        ∃ ws, (ws.map fun e : Nat × List SByte => (e.1, e.2.length)) = ((List.range (opnd d 2).rowOffs.length).map fun i =>
          ((opnd d 2).addrIn (h.tile t).seq + (opnd d 2).rowOffs.getD i 0, n)) ∧ SramAfter h t s.pid (h.tile t).sram ws m) := by
  refine r.done ht (by decide) _ _ fun k m c => ?_
  unfold todHaloRecv
  dsimp only
  have strip : ∀ (b : Nat) (k : Hw) (Q : Unit → Hw → Prop), n * (opnd d 2).d1 * (opnd d 2).d2 = b → Q () k →
      Runs (checkStrip (header d).fmtA b (opnd d 2)) k Q := by
    intro b k Q e q
    unfold checkStrip Opnd.packs
    rw [runs_bind, runs_need]
    refine ⟨by simp; omega, ?_⟩
    rw [runs_bind, runs_need]
    refine ⟨by rw [hx]; rfl, ?_⟩
    rw [runs_bind, runs_need]
    refine ⟨po, ?_⟩
    rw [runs_need, ← hn]
    exact ⟨by simpa using e, q⟩
  rw [Bool.and_eq_true, Bool.and_eq_true] at ha
  obtain ⟨⟨h0, h00⟩, h01⟩ := ha
  rw [runs_ite]
  constructor
  · intro hb
    rw [runs_bind, runs_admit h00, runs_bind, runs_admit h01, runs_bind, runs_addr m c, if_pos hb,
      runs_bind]
    refine strip _ k _ (by rw [hn]) ?_
    rw [← hn]
    refine runs_wrRows ht m c _ (fun e he => ?_) _ fun k' y m f =>
      ⟨s, _, m, rfl, y, rfl, fun _ => f, fun h => by (rw [hb] at h; cases h), fun h => by (rw [hb] at h; cases h)⟩
    obtain ⟨i, _, rfl⟩ := List.mem_map.1 he
    exact withStain_clean _
  · intro hb
    have hb' : bit (header d).param 0 = false := by simpa using hb
    rw [hb', Bool.false_or] at h0
    rw [runs_bind, runs_admit h0, runs_bind, runs_admit h00, runs_bind, runs_admit h01, runs_bind, runs_addr m c, if_neg hb,
      runs_bind]
    refine strip _ k _ (hz hb').1 ?_
    rw [runs_bind, runs_addr m c, runs_bind]
    refine runs_sliceT m _ fun q eq => ?_
    rw [runs_bind, runs_get, runs_bind, runs_need]
    have eh : ∀ p a b c, (k.tile t).haloOn p a b c = (h.tile t).haloOn p a b c := fun p a b c => by
      obtain ⟨_, _, e⟩ := m.tile
      rw [e]
      rfl
    have ea : (k.tile t).areasOf = (h.tile t).areasOf := by
      obtain ⟨_, _, e⟩ := m.tile
      rw [e]
      rfl
    rw [eh, m.seq, ea]
    refine ⟨by simpa using (hz hb').2, ?_⟩
    rw [← hn, runs_bind]
    cases ho : ((h.tile t).areasOf s.pid).any fun a => a.slot == (opnd d 0).slot with
    | false =>
      simp only [Bool.false_eq_true, if_false, pure_bind]
      refine (runs_copyRows ht m c _ _ _ _).mono fun _ k' ⟨y, m, f⟩ =>
        runs_sealT m ⟨c.sram, c.sound, c.scalars⟩ _ _ fun k' m =>
          ⟨s, _, m, rfl, y, rfl, fun h => absurd h hb, fun _ _ => f, fun _ h => by cases h⟩
    | true =>
      simp only [if_true]
      refine (runs_freeRows ht m c _ _ _ _).mono fun _ k' ⟨ws, y, m, hw, f⟩ =>
        runs_sealT m ⟨c.sram, c.sound, c.scalars⟩ _ _ fun k' m =>
          ⟨s, _, m, rfl, y, rfl, fun h => absurd h hb, fun _ h => (by cases h), fun _ _ => ⟨ws, hw, f⟩⟩

theorem dwconv_step (ht : t < 1152) (r : TodReady h t s 0x20 d) (ha : admits3 d [1] [1] [1, 3] = true)
    (g : Nat) (hg : g = bits (header d).param 24 8 + 1) (hc : (convOf (header d).param).fits = true)
    (hf : macFormats (header d) = true) (oh : Nat) (ho : oh = if (opnd d 2).kind = 3 then 1 else (opnd d 2).d2)
    (hd : (opnd d 0).d0 % g = 0 ∧ (opnd d 1).d2 % g = 0)
    (hb : (opnd d 1).d0 = (opnd d 0).d0 / g ∧ (opnd d 1).d1 = (convOf (header d).param).kh * (convOf (header d).param).kw)
    (hn : (opnd d 2).d1 * oh * (opnd d 1).d2 ≤ 1024) (h2 : (opnd d 2).d0 = (opnd d 1).d2)
    (pa : packable (header d).fmtA (opnd d 0).d0 = true) (pb : packable (header d).fmtB (opnd d 1).d0 = true)
    (h3 : (opnd d 2).kind = 3 → (convIn h t s d g).length + (opnd d 2).acc ≤ 1024)
    (po : (opnd d 2).kind ≠ 3 → ((header d).hold || packable (header d).fmtOut (opnd d 2).d0) = true) :
    TodDone h (h.issueTod t 0x20 (todDwconv t)) t d
      (Accumulates h t s d (convIn h t s d g) fun lam a => a.val lam) := by
  refine r.done ht (by decide) _ _ fun k m c => ?_
  unfold todDwconv checkFilter macFmts
  dsimp only
  unfold macFormats at hf
  rw [Bool.and_eq_true, decide_eq_true_eq, decide_eq_true_eq] at hf
  rw [runs_bind, runs_admit3 ha, runs_bind, runs_need]
  refine ⟨hc, ?_⟩
  rw [runs_bind, runs_bind, runs_need]
  refine ⟨by simpa using hf.1, ?_⟩
  rw [runs_need]
  refine ⟨by simpa using hf.2, ?_⟩
  rw [← hg, ← ho, runs_bind, runs_need]
  refine ⟨by simpa using hd, ?_⟩
  rw [runs_bind, runs_need]
  refine ⟨by simpa using hb, ?_⟩
  rw [runs_bind, runs_need]
  refine ⟨by simpa using hn, ?_⟩
  rw [runs_bind, runs_need]
  refine ⟨by simpa using h2, ?_⟩
  rw [runs_bind]
  refine runs_valRows ht m c _ _ pa _ fun k m => ?_
  rw [runs_bind]
  refine runs_valRows ht m c _ _ pb _ fun k m => ?_
  rw [runs_bind]
  refine runs_levelT m _ _ fun lam k hl m => ?_
  have e : convTerms (convOf (header d).param) (opnd d 0).d2 (opnd d 0).d1 (opnd d 0).d0 (opnd d 1).d2 g (opnd d 2).d1 oh
      ((opnd d 0).rowsIn h t s.pid (h.tile t) (header d).fmtA) ((opnd d 1).rowsIn h t s.pid (h.tile t) (header d).fmtB) =
      convIn h t s d g := by
    rw [ho]
    rfl
  rw [e, runs_ite]
  constructor
  · intro hk
    rw [runs_bind, runs_need]
    refine ⟨by simpa using h3 hk, ?_⟩
    exact runs_intoAccs m _ lam hl _ hk
  · intro hk
    exact runs_sums ht m c _ lam hl (fun lam a => a.val lam) (po hk) hk

end Sys2Proof.Machine
end

