-- ==== Sys2Proof/Laws/TodMacSteps.lean ====
section
/-! SUPPORT. What the TODs of the MAC array do when they complete. -/

namespace Sys2Proof.Machine

open Sys2Proof

variable {h : Hw} {t : Nat} {s : Slice} {d : List Byte}

theorem Mid.modSliceTo {k : Hw} {x : Tile} (m : Mid t s h k x) (f : Slice → Slice)
    (hf : ∀ r, f { s with readHalves := r } = { f s with readHalves := r }) : Mid t (f s) h (k.modSlice t f) x := by
  obtain ⟨w, r, e⟩ := m.tile
  refine ⟨m.only.trans (OnlyTile.modSlice t k f), ⟨w, r, ?_⟩, m.window⟩
  unfold Hw.modSlice
  rw [Hw.modTile_tile_same, e]
  show { x with weakGranules := w, slice := some (f { s with readHalves := r }) } = _
  rw [hf]

theorem runs_freeAcc {k : Hw} {x : Tile} (m : Mid t s h k x) (Q : Acc → Hw → Prop)
    (fin : ∀ a k', Mid t s h k' x → Q a k') : Runs freeAcc k Q := by
  unfold freeAcc
  rw [runs_bind, runs_get]
  have mf := m.free
  revert mf
  generalize k.free = e
  intro mf
  obtain ⟨a, k1⟩ := e
  dsimp only at mf ⊢
  have mg := mf.free
  revert mg
  generalize k1.free = e
  intro mg
  obtain ⟨b, k2⟩ := e
  dsimp only at mg ⊢
  rw [runs_bind, runs_set, runs_pure]
  exact fin _ _ mg

theorem Mid.cell {k : Hw} {x : Tile} (m : Mid t s h k x) (i : Nat) : (k.tile t).cell i = x.cell i := by
  obtain ⟨_, _, e⟩ := m.tile
  rw [e]
  rfl

theorem runs_addCells {k : Hw} {x : Tile} (m : Mid t s h k x) (lam : Int) (terms : List (List Val)) (Q : Unit → Hw → Prop)
    (fin : ∀ k', Mid t s h k' (x.addCells lam terms) → Q () k') : Runs (addCells t lam terms) k Q := by
  unfold addCells
  unfold Tile.addCells at fin
  generalize List.range terms.length = l at fin ⊢
  induction l generalizing k x with
  | nil => exact (runs_pure _ _ _).2 (fin k m)
  | cons i l ih =>
    show Runs (_ >>= fun _ => l.forM _) k Q
    rw [List.foldl_cons] at fin
    rw [runs_bind, runs_bind, runs_get, m.cell]
    revert fin
    generalize (x.cell i).addTerms lam (terms.getD i []) = e
    obtain ⟨b, inx⟩ := e
    intro fin
    dsimp only at fin ⊢
    rw [runs_bind, runs_modify]
    have m1 := m.modTile (fun y => { y with cells := y.cells.putD Acc.zero i b }) fun _ _ _ => rfl
    exact m1.inexact inx _ fun k' m' => ih m' fin

/-- The free cells from which an operation of another shape goes on. -/
theorem runs_freeCells {k : Hw} {x : Tile} (m : Mid t s h k x) (l : List Nat) (Q : Unit → Hw → Prop)
    (fin : ∀ k' c, Mid t s h k' { x with cells := c } → Q () k') :
    Runs (l.forM fun i => do
      let a ← freeAcc
      modify fun h => h.modTile t fun x => { x with cells := x.cells.putD Acc.zero i a }) k Q := by
  induction l generalizing k x with
  | nil => exact (runs_pure _ _ _).2 (fin k x.cells m)
  | cons i l ih =>
    show Runs (_ >>= fun _ => l.forM _) k Q
    rw [runs_bind, runs_bind]
    refine runs_freeAcc m _ fun a k m => ?_
    rw [runs_modify]
    exact ih (m.modTile (fun y => { y with cells := y.cells.putD Acc.zero i a }) fun _ _ _ => rfl) fin

theorem runs_prepareCells {k : Hw} {x : Tile} (m : Mid t s h k x) (rows cols : Nat) (lam : Int) (hd : Header) (Q : Unit → Hw → Prop)
    (fin : ∀ k' c, Mid t s h k' { x with cells := c } → CellsFrom x s hd (rows, cols, lam) c → Q () k') :
    Runs (prepareCells t rows cols lam hd.keep) k Q := by
  unfold prepareCells
  rw [runs_bind]
  refine runs_sliceT m _ fun r e => ?_
  rw [runs_ite]
  constructor
  · intro hk
    have hk' : hd.keep = false := by simpa using hk
    rw [runs_modify]
    exact fin _ [] (m.modTile (fun y => { y with cells := [] }) fun _ _ _ => rfl)
      ⟨fun _ => rfl, fun h => by rw [hk'] at h; cases h⟩
  · intro hk
    have hk' : hd.keep = true := by simpa using hk
    rw [runs_ite]
    constructor
    · intro hm
      refine runs_freeCells m _ _ fun k' c m' => fin k' c m' ⟨fun h => by (rw [hk'] at h; cases h), fun _ h => ?_⟩
      simp only [Bool.and_eq_true, decide_eq_true_eq] at hm
      rcases h with h | h
      · rw [h] at hm; exact absurd hm.1 (by simp)
      · exact absurd h hm.2
    · intro hm
      rw [runs_pure]
      exact fin k x.cells m ⟨fun h => by (rw [hk'] at h; cases h), fun _ _ => rfl⟩

theorem Tile.addCells_clear {x : Tile} (c : Clear x) (lam : Int) (terms : List (List Val)) : Clear (x.addCells lam terms) := by
  unfold Tile.addCells
  generalize List.range terms.length = l
  induction l generalizing x with
  | nil => exact c
  | cons i l ih => exact ih ⟨c.sram, c.sound, c.scalars⟩

theorem runs_macOut (ht : t < 1152) {k : Hw} (m : Mid t s h k (h.tile t)) (c : Clear (h.tile t)) (rows cols : Nat)
    (terms : List (List Val)) (hf : macFits d rows cols = true) :
    Runs (macOut t (header d) (opnd d 2) rows cols terms) k fun _ k' =>
      ∃ s' y, Mid t s' h k' y ∧ MacOut h t s d rows cols terms s' y := by
  unfold macFits at hf
  unfold macOut
  rw [runs_bind]
  refine runs_levelT m _ _ fun lam k hl m => ?_
  rw [runs_ite]
  constructor
  · intro hk
    rw [if_pos hk] at hf
    rw [runs_bind, runs_need]
    refine ⟨hf, ?_⟩
    have fin : ∀ k x, Mid t s h k x → x = (if (header d).keep then h.tile t else (h.tile t).cleared (opnd d 2).acc (rows * cols)) →
        Runs (do addAccs t (opnd d 2).acc lam terms; noteMac t (0, 0, lam)) k fun _ k' =>
          ∃ s' y, Mid t s' h k' y ∧ MacOut h t s d rows cols terms s' y := by
      intro k x m e
      rw [runs_bind]
      refine runs_addAccs m _ _ _ _ fun k' m' => ?_
      unfold noteMac
      rw [runs_modify]
      exact ⟨_, _, m'.modSliceTo _ fun _ => rfl, lam, hl, fun _ => ⟨rfl, by rw [← e]⟩, fun h => absurd hk h⟩
    rw [runs_ite]
    constructor
    · intro hb; exact fin k _ m (by rw [if_pos hb])
    · intro hb
      refine (runs_bind _ _ _ _).2 ?_
      exact runs_clearAccs m _ _ _ fun k' m' => fin k' _ m' (by rw [if_neg hb])
  · intro hk
    rw [if_neg hk] at hf
    have fin : ∀ k, Mid t s h k (h.tile t) → Runs (do
        prepareCells t rows cols lam (header d).keep
        addCells t lam terms
        noteMac t (rows, cols, lam)
        if (header d).hold then pure ()
        else
          let x := (← get).tile t
          (opnd d 2).putVals t (header d) ((List.range (rows * cols)).map fun i => (x.cell i).val lam)) k fun _ k' =>
          ∃ s' y, Mid t s' h k' y ∧ MacOut h t s d rows cols terms s' y := by
      intro k m
      rw [runs_bind]
      refine runs_prepareCells m _ _ _ _ _ fun k c0 m hc => ?_
      rw [runs_bind]
      refine runs_addCells m _ _ _ fun k m => ?_
      unfold noteMac
      rw [runs_bind, runs_modify]
      have m := m.modSliceTo (fun s => { s with lastMac := some (rows, cols, lam) }) fun _ => rfl
      rw [runs_ite]
      constructor
      · intro hb
        rw [runs_pure]
        exact ⟨_, _, m, lam, hl, fun h => absurd h hk, fun _ => ⟨rfl, c0, hc, by rw [if_pos hb]⟩⟩
      · intro hb
        have po : packable (header d).fmtOut (opnd d 2).d0 = true := by
          rw [Bool.or_eq_true] at hf
          exact hf.resolve_left hb
        rw [runs_bind, runs_get]
        simp only [m.cell]
        refine runs_putVals ht m ?_ _ _ _ po _ fun k' y m' v =>
          ⟨_, _, m', lam, hl, fun h => absurd h hk, fun _ => ⟨rfl, c0, hc, by rw [if_neg hb]; exact v⟩⟩
        exact Tile.addCells_clear (x := { h.tile t with cells := c0 }) ⟨c.sram, c.sound, c.scalars⟩ _ _
    rw [runs_ite]
    constructor
    · intro hb; exact fin k m
    · intro hb
      rw [Bool.or_eq_true] at hf
      unfold Opnd.packs
      rw [runs_bind, runs_need]
      exact ⟨hf.resolve_left hb, fin k m⟩

theorem runs_freeTerms {k : Hw} {x : Tile} (m : Mid t s h k x) (l : List Nat) (Q : List (List Val) → Hw → Prop)
    (fin : ∀ fs k', Mid t s h k' x → Q fs k') :
    Runs (l.mapM fun _ => do pure [(← freeAcc).val 48]) k Q := by
  induction l generalizing k Q with
  | nil => rw [List.mapM_nil, runs_pure]; exact fin _ k m
  | cons i l ih =>
    rw [List.mapM_cons, runs_bind, runs_bind]
    refine runs_freeAcc m _ fun a k m => ?_
    rw [runs_pure, runs_bind]
    refine ih m _ fun fs k m => ?_
    rw [runs_pure]
    exact fin _ k m

theorem runs_checkMatmul {k : Hw} (hp : productFits d = true) (Q : Unit → Hw → Prop) (q : Q () k) :
    Runs (checkMatmul (header d) ((opnd d 0).d1 * (opnd d 0).d2) ((opnd d 1).d1 * (opnd d 1).d2) (opnd d 0).d0) k Q := by
  unfold productFits macFormats at hp
  simp only [Bool.and_eq_true, decide_eq_true_eq] at hp
  obtain ⟨⟨⟨⟨fa, fb⟩, h1⟩, h2⟩, h3⟩ := hp
  unfold checkMatmul macFmts
  rw [runs_bind, runs_bind, runs_need]
  refine ⟨by simpa using fa, ?_⟩
  rw [runs_need]
  refine ⟨by simpa using fb, ?_⟩
  rw [runs_bind, runs_need]
  refine ⟨by simpa using h1, ?_⟩
  rw [runs_bind, runs_need]
  refine ⟨by simpa using h2, ?_⟩
  rw [runs_need]
  exact ⟨h3, q⟩

theorem matmul_step (ht : t < 1152) (r : TodReady h t s 0x10 d) (ha : admits3 d [1] [1] [1, 3] = true)
    (hp : productFits d = true) (h1 : (opnd d 0).d0 = (opnd d 1).d0) (ho : outFits d = true)
    (hm : macFits d ((opnd d 0).d1 * (opnd d 0).d2) ((opnd d 1).d1 * (opnd d 1).d2) = true)
    (pa : packable (header d).fmtA (opnd d 0).d0 = true) (pb : packable (header d).fmtB (opnd d 1).d0 = true) :
    TodDone h (h.issueTod t 0x10 (todMatmul t)) t d
      (MacOut h t s d ((opnd d 0).d1 * (opnd d 0).d2) ((opnd d 1).d1 * (opnd d 1).d2)
        ((rowsAt h t s d 0 (header d).fmtA).flatMap fun x => (rowsAt h t s d 1 (header d).fmtB).map fun y => dotTerms x y)) := by
  refine r.done ht (by decide) _ _ fun k m c => ?_
  unfold todMatmul
  dsimp only
  rw [runs_bind, runs_admit3 ha, runs_bind]
  refine runs_checkMatmul hp _ ?_
  rw [runs_bind, runs_need]
  refine ⟨by rw [beq_iff_eq]; exact h1, ?_⟩
  unfold checkOut
  rw [runs_bind, runs_need]
  refine ⟨ho, ?_⟩
  rw [runs_bind]
  refine runs_valRows ht m c _ _ pa _ fun k m => ?_
  rw [runs_bind]
  refine runs_valRows ht m c _ _ pb _ fun k m => ?_
  exact runs_macOut ht m c _ _ _ hm

theorem matmulSparse_step (ht : t < 1152) (r : TodReady h t s 0x11 d) (ha : admits3 d [1] [1] [1, 3] = true)
    (hp : productFits d = true) (h16 : (is16 (header d).fmtA || is16 (header d).fmtB) = false)
    (h4 : (opnd d 0).d0 % 4 = 0) (h64 : isMx (header d).fmtB = true → (opnd d 0).d0 % 64 = 0)
    (h1 : (opnd d 1).d0 = (opnd d 0).d0 / 2) (ho : outFits d = true)
    (hm : macFits d ((opnd d 0).d1 * (opnd d 0).d2) ((opnd d 1).d1 * (opnd d 1).d2) = true)
    (pa : packable (header d).fmtA (opnd d 0).d0 = true) (pb : packable (header d).fmtB (opnd d 1).d0 = true) :
    TodDone h (h.issueTod t 0x11 (todMatmulSparse t)) t d fun s' y =>
      ∃ terms, (∀ ex, sparseRows h t s d = some ex →
        terms = (rowsAt h t s d 0 (header d).fmtA).flatMap fun x => ex.map fun y => dotTerms x y) ∧
      MacOut h t s d ((opnd d 0).d1 * (opnd d 0).d2) ((opnd d 1).d1 * (opnd d 1).d2) terms s' y := by
  refine r.done ht (by decide) _ _ fun k m c => ?_
  unfold todMatmulSparse
  dsimp only
  rw [runs_bind, runs_admit3 ha, runs_bind]
  refine runs_checkMatmul hp _ ?_
  rw [runs_bind, runs_need, h16]
  refine ⟨rfl, ?_⟩
  rw [runs_bind, runs_need]
  refine ⟨?_, ?_⟩
  · rw [Bool.and_eq_true, beq_iff_eq]
    refine ⟨h4, ?_⟩
    cases hx : isMx (header d).fmtB
    · rfl
    · simpa using h64 hx
  rw [runs_bind, runs_need]
  refine ⟨by rw [beq_iff_eq]; exact h1, ?_⟩
  unfold checkOut
  rw [runs_bind, runs_need]
  refine ⟨ho, ?_⟩
  rw [runs_bind]
  refine runs_valRows ht m c _ _ pa _ fun k m => ?_
  rw [runs_bind]
  refine runs_valRows ht m c _ _ pb _ fun k m => ?_
  rw [runs_bind]
  refine runs_useT ht m c.sram c.sound _ _ _ fun k m => ?_
  have e : sparseRows h t s d = (List.range ((opnd d 1).d1 * (opnd d 1).d2)).mapM fun i =>
    expandRow (((opnd d 1).rowsIn h t s.pid (h.tile t) (header d).fmtB).getD i [])
      (metaRow ((bytesIn h t (h.tile t).sram s.pid (bits (header d).param 0 19)
        (cdiv ((opnd d 1).d1 * (opnd d 1).d2 * ((opnd d 0).d0 / 4)) 2)).map (·.1)) i ((opnd d 0).d0 / 4)) := rfl
  rw [← e]
  cases hs : sparseRows h t s d with
  | some ex =>
    dsimp only
    exact (runs_macOut ht m c _ _ _ hm).mono fun _ k' ⟨s', y, m, o⟩ =>
      ⟨s', y, m, _, fun ex' h => by (cases h; rfl), o⟩
  | none =>
    dsimp only
    rw [runs_bind]
    refine runs_freeTerms m _ _ fun fs k m => ?_
    exact (runs_macOut ht m c _ _ _ hm).mono fun _ k' ⟨s', y, m, o⟩ =>
      ⟨s', y, m, _, fun ex' h => (by cases h), o⟩

theorem conv2d_step (ht : t < 1152) (r : TodReady h t s 0x12 d) (ha : admits3 d [1] [1] [1, 3] = true)
    (hc : (convOf (header d).param).fits = true)
    (hf : macFormats (header d) = true) (oh : Nat) (hoh : oh = if (opnd d 2).kind = 3 then 1 else (opnd d 2).d2)
    (hb : (opnd d 0).d0 = (opnd d 1).d0 ∧ (opnd d 1).d1 = (convOf (header d).param).kh * (convOf (header d).param).kw)
    (hn : (opnd d 2).d1 * oh ≤ 32) (hN : (opnd d 1).d2 ≤ macN (header d).fmtA (header d).fmtB)
    (h2 : (opnd d 2).d0 = (opnd d 1).d2)
    (hx : (! (isMx (header d).fmtA || isMx (header d).fmtB) || (opnd d 0).d0 % 32 == 0) = true)
    (pa : packable (header d).fmtA (opnd d 0).d0 = true) (pb : packable (header d).fmtB (opnd d 1).d0 = true)
    (hm : macFits d ((opnd d 2).d1 * oh) (opnd d 1).d2 = true) :
    TodDone h (h.issueTod t 0x12 (todConv2d t)) t d
      (MacOut h t s d ((opnd d 2).d1 * oh) (opnd d 1).d2 (convIn h t s d 1)) := by
  refine r.done ht (by decide) _ _ fun k m c => ?_
  unfold todConv2d checkFilter macFmts
  dsimp only
  unfold macFormats at hf
  rw [Bool.and_eq_true, decide_eq_true_eq, decide_eq_true_eq] at hf
  rw [runs_bind, runs_admit3 ha, runs_bind, runs_need]
  refine ⟨hc, ?_⟩
  rw [runs_bind, runs_bind, runs_need]
  refine ⟨by simpa using hf.1, ?_⟩
  rw [runs_need]
  refine ⟨by simpa using hf.2, ?_⟩
  rw [← hoh, runs_bind, runs_need]
  refine ⟨by simpa using hb, ?_⟩
  rw [runs_bind, runs_need]
  refine ⟨by simpa using hn, ?_⟩
  rw [runs_bind, runs_need]
  refine ⟨by simpa using hN, ?_⟩
  rw [runs_bind, runs_need]
  refine ⟨by simpa using h2, ?_⟩
  rw [runs_bind, runs_need]
  refine ⟨hx, ?_⟩
  rw [runs_bind]
  refine runs_valRows ht m c _ _ pa _ fun k m => ?_
  rw [runs_bind]
  refine runs_valRows ht m c _ _ pb _ fun k m => ?_
  have e : convTerms (convOf (header d).param) (opnd d 0).d2 (opnd d 0).d1 (opnd d 0).d0 (opnd d 1).d2 1 (opnd d 2).d1 oh
      ((opnd d 0).rowsIn h t s.pid (h.tile t) (header d).fmtA) ((opnd d 1).rowsIn h t s.pid (h.tile t) (header d).fmtB) =
      convIn h t s d 1 := by
    rw [hoh]
    rfl
  rw [e]
  exact runs_macOut ht m c _ _ _ hm

theorem conv2dFft_step (ht : t < 1152) (r : TodReady h t s 0x13 d) (ha : admits3 d [1] [1] [1] = true)
    (hf : fftConvFits d = true)
    (pa : packable (header d).fmtA (opnd d 0).d0 = true)
    (pb : packable (if (fftConvOf (header d).param).mode = 1 then 0xF else (header d).fmtB) (opnd d 1).d0 = true)
    (po : packable (header d).fmtOut (opnd d 2).d0 = true)
    (h2 : (fftConvOf (header d).param).mode = 2 → (opnd d 2).count = (spectraOf h t s d).length *
      2 ^ (fftConvOf (header d).param).b * 2 ^ (fftConvOf (header d).param).b * 2) :
    TodDone h (h.issueTod t 0x13 (todConv2dFft t)) t d fun s' y => s' = s ∧
      ((fftConvOf (header d).param).mode = 2 → Stores h t s ((opnd d 2).encWrites (h.tile t).seq 0xF
        ((spectraOf h t s d).flatMap fun z => z.flatMap fun z => [z.1, z.2])) s' y) ∧
      ((fftConvOf (header d).param).mode = 1 → GivesOver h t s d
        ((rowsAt h t s d 0 (header d).fmtA).any fun r => r.any f32over) (fftConvOut h t s d (spectraIn h t s d)) s' y) ∧
      ((fftConvOf (header d).param).mode = 0 → GivesOver h t s d
        (((rowsAt h t s d 0 (header d).fmtA).any fun r => r.any f32over) ||
          (rowsAt h t s d 1 (header d).fmtB).any fun r => r.any f32over)
        (fftConvOut h t s d (spectraOf h t s d)) s' y) := by
  refine r.done ht (by decide) _ _ fun k m c => ?_
  unfold fftConvFits at hf
  simp only [Bool.and_eq_true] at hf
  obtain ⟨⟨⟨⟨⟨f1, f2⟩, f3⟩, f4⟩, f5⟩, f6⟩ := hf
  unfold todConv2dFft
  dsimp only
  rw [runs_bind, runs_need]
  refine ⟨f1, ?_⟩
  rw [runs_bind, runs_need]
  refine ⟨f2, ?_⟩
  rw [runs_bind, runs_admit3 ha, runs_bind, runs_need]
  refine ⟨by rw [Bool.and_eq_true]; exact f3, ?_⟩
  rw [runs_bind, runs_need]
  refine ⟨by rw [Bool.and_eq_true]; exact f4, ?_⟩
  rw [runs_bind, runs_need]
  refine ⟨by rw [Bool.and_eq_true]; exact f5, ?_⟩
  rw [runs_bind, runs_need]
  refine ⟨f6, ?_⟩
  rw [runs_ite]
  constructor
  · intro hm
    rw [if_neg (by rw [hm]; decide)] at pb
    rw [runs_bind]
    refine runs_valRows ht m c _ _ pb _ fun k m => ?_
    rw [runs_bind, runs_need]
    refine ⟨by rw [beq_iff_eq]; exact h2 hm, ?_⟩
    exact runs_putEncs ht m c _ _ _ _ fun k y m f =>
      ⟨s, _, m, rfl, fun _ => ⟨rfl, y, rfl, f⟩, fun h => absurd (hm.symm.trans h) (by decide),
        fun h => absurd (hm.symm.trans h) (by decide)⟩
  · intro hm
    rw [runs_bind]
    refine runs_valRows ht m c _ _ pa _ fun k m => ?_
    rw [runs_ite]
    constructor
    · intro h1
      rw [if_pos h1] at pb
      rw [runs_bind]
      unfold readSpectra
      rw [runs_bind]
      refine runs_encs ht m c _ _ pb _ fun k m => ?_
      rw [runs_pure, runs_bind, runs_pure]
      refine runs_putOver ht m c _ _ _ _ po _ fun k y m v => ⟨s, y, m, rfl, fun h => absurd h hm, fun _ => ⟨rfl, ?_⟩,
        fun h => absurd (h1.symm.trans h) (by decide)⟩
      simp only [h1, Nat.one_ne_zero, decide_false, Bool.false_and, Bool.or_false] at v
      exact v
    · intro h1
      rw [if_neg h1] at pb
      rw [runs_bind]
      refine runs_valRows ht m c _ _ pb _ fun k m => ?_
      rw [runs_bind, runs_pure]
      refine runs_putOver ht m c _ _ _ _ po _ fun k y m v => ⟨s, y, m, rfl, fun h => absurd h hm, fun h => absurd h h1,
        fun h0 => ⟨rfl, ?_⟩⟩
      simp only [h0, decide_true, Bool.true_and] at v
      exact v

end Sys2Proof.Machine
end

