-- ==== Sys2Proof/Laws/TodScatter.lean ====
section
/-! SUPPORT. What `TRANSPOSE` and `SCATTER` do when they complete. -/

namespace Sys2Proof.Machine

open Sys2Proof

variable {h : Hw} {t : Nat} {s : Slice} {d : List Byte}

theorem getD_clean {α : Type} (l : List (α × Bool)) (hl : ∀ e ∈ l, e.2 = false) (i : Nat) (a : α) :
    (l.getD i (a, false)).2 = false := by
  rw [List.getD_eq_getElem?_getD]
  cases hx : l[i]? with
  | none => rfl
  | some e => exact hl e (List.mem_of_getElem? hx)

theorem unpackS_clean (c n : Nat) (bs : List SByte) (hb : bs.any (·.2) = false) : ∀ e ∈ unpackS c n bs, e.2 = false := by
  intro e he
  unfold unpackS at he
  obtain ⟨i, _, rfl⟩ := List.mem_map.1 he
  dsimp only
  rw [List.any_eq_false]
  intro j _
  have : ∀ e ∈ bs, e.2 = false := fun e he => by simpa using List.any_eq_false.1 hb e he
  rw [getD_clean bs this]
  exact Bool.false_ne_true

theorem packS_clean (c : Nat) (es : List (Nat × Bool)) (he : ∀ e ∈ es, e.2 = false) : (packS c es).any (·.2) = false := by
  rw [List.any_eq_false]
  intro e hm
  unfold packS at hm
  obtain ⟨j, _, rfl⟩ := List.mem_map.1 hm
  dsimp only
  rw [Bool.not_eq_true, List.any_eq_false]
  intro i _
  rw [getD_clean es he]
  exact Bool.false_ne_true

theorem transpose_step (ht : t < 1152) (r : TodReady h t s 0x2B d) (ha : admits3 d [1] [0] [1] = true)
    (h2 : (opnd d 2).d0 = (opnd d 0).d1 ∧ (opnd d 2).d1 = (opnd d 0).d0 ∧ (opnd d 2).d2 = (opnd d 0).d2)
    (pa : packable (header d).fmtA (opnd d 0).d0 = true) (po : packable (header d).fmtA (opnd d 2).d0 = true) :
    TodDone h (h.issueTod t 0x2B (todTranspose t)) t d (Stores h t s (transposeWrites h t s d)) := by
  refine r.done ht (by decide) _ _ fun k m c => ?_
  unfold todTranspose Opnd.packs
  dsimp only
  rw [runs_bind, runs_admit3 ha, runs_bind, runs_need]
  refine ⟨by simpa [and_assoc] using h2, ?_⟩
  rw [runs_bind, runs_need]
  refine ⟨pa, ?_⟩
  rw [runs_bind, runs_need]
  refine ⟨po, ?_⟩
  rw [runs_bind, runs_addr m c, runs_bind, runs_addr m c, runs_bind]
  refine runs_mapM_read (h := h) (x := h.tile t) (s := s) _
    (fun r : Nat => unpackS (header d).fmtA (opnd d 0).d0 (sramBytes h t s.pid ((opnd d 0).addrIn (h.tile t).seq + r)
      (rowLen (header d).fmtA (opnd d 0).d0))) _
    (fun i _ k m P hP => ?_) k m _ fun k m => ?_
  · rw [runs_bind]
    refine runs_rdT ht m c.sram c.sound _ _ _ fun k m => ?_
    rw [runs_pure]
    exact hP k m
  · refine runs_wrRows ht m c _ (fun e he => ?_) _ fun k y m f => ⟨s, _, m, rfl, y, rfl, f⟩
    obtain ⟨i, _, he⟩ := List.mem_flatMap.1 he
    obtain ⟨j, _, rfl⟩ := List.mem_map.1 he
    refine packS_clean _ _ fun e he => ?_
    obtain ⟨u, _, rfl⟩ := List.mem_map.1 he
    refine getD_clean _ (fun e he => ?_) _ _
    rw [List.getD_eq_getElem?_getD, List.getElem?_map] at he
    cases hx : (opnd d 0).rowOffs[i * (opnd d 0).d1 + u]? with
    | none => rw [hx] at he; cases he
    | some r =>
      rw [hx] at he
      exact unpackS_clean _ _ _ (sramBytes_clean ..) e he

theorem Scattered.clear {pid : Nat} {is : List Int} {y : Tile} (c : Clear (h.tile t)) (z : Scattered h t pid d is y) :
    Clear y := by
  rw [z.flags]
  exact ⟨c.sram, c.sound, c.scalars⟩

theorem Scattered.addr {pid : Nat} {is : List Int} {y : Tile} (z : Scattered h t pid d is y) (o : Opnd) :
    o.addrIn y.seq = o.addrIn (h.tile t).seq := by
  rw [z.flags]
  rfl

theorem Scattered.noteInexact {pid : Nat} {is : List Int} {y : Tile} (z : Scattered h t pid d is y) (b : Bool) :
    Scattered h t pid d is (y.noteInexact b) := by
  refine ⟨?_, z.rows⟩
  unfold Tile.noteInexact Tile.withSeq
  rw [z.flags]

theorem Scattered.noteOverflow {pid : Nat} {is : List Int} {y : Tile} (z : Scattered h t pid d is y) (b : Bool) :
    Scattered h t pid d is { y with seq := { y.seq with overflow := y.seq.overflow || b } } := by
  refine ⟨?_, z.rows⟩
  dsimp only
  rw [z.flags]

theorem Scattered.write {pid : Nat} {is : List Int} {y : Tile} (z : Scattered h t pid d is y) {a : Nat}
    {m : SMap Byte} {bs : List SByte} (hw : rowWrites h t d is [(a, bs)])
    (f : ∀ b, SMap.getD 0 m b = (writtenBy h t pid a bs b).getD (SMap.getD 0 y.sram b)) :
    Scattered h t pid d is { y with sram := m } := by
  refine ⟨?_, ?_⟩
  · dsimp only
    rw [z.flags]
  · obtain ⟨ws, hs, sa⟩ := z.rows
    refine ⟨ws ++ [(a, bs)], fun e he => ?_, ?_⟩
    · rcases List.mem_append.1 he with h | h
      · exact hs e h
      · exact hw e h
    · refine sa.append fun b => ?_
      rw [f]
      rfl

theorem runs_putRowAt (ht : t < 1152) {k : Hw} {is : List Int} {y : Tile} (m : Mid t s h k y) (c : Clear (h.tile t))
    (z : Scattered h t s.pid d is y) {i : Int} (hi : i ∈ is)
    (po : packable (header d).fmtOut (opnd d 2).d0 = true) (vs : List Val) :
    Runs ((opnd d 2).putRowAt t (header d) i vs) k fun _ k' => ∃ y, Mid t s h k' y ∧ Scattered h t s.pid d is y := by
  unfold Opnd.putRowAt Opnd.packs
  have cy := z.clear c
  rw [runs_bind, runs_addr m cy, runs_bind, runs_need]
  refine ⟨po, ?_⟩
  rw [runs_bind, runs_get]
  generalize convRow (header d) (k.tile t).seq (i.toNat * (opnd d 2).d0) vs = e
  obtain ⟨es, sc, ov⟩ := e
  dsimp only
  rw [runs_bind, z.addr]
  refine runs_wrT ht m cy.sram cy.sound _ _ (withStain_clean _) _ fun k y' m f => ?_
  have z1 := z.write (fun e he => by rw [List.mem_singleton] at he; exact ⟨i, hi, .inl (by rw [he])⟩) f
  have c1 := z1.clear c
  rw [runs_ite]
  constructor
  · intro hx
    rw [runs_bind]
    refine runs_wrT ht m c1.sram c1.sound _ _ (withStain_clean _) _ fun k y2 m g => ?_
    have z2 := z1.write (fun e he => by rw [List.mem_singleton] at he; exact ⟨i, hi, .inr ⟨hx, by rw [he]⟩⟩) g
    exact m.overflow _ _ fun k m => ⟨_, m, z2.noteOverflow _⟩
  · intro hx
    exact m.overflow _ _ fun k m => ⟨_, m, z1.noteOverflow _⟩

theorem runs_forM_scattered {α : Type} {is : List Int} (l : List α) (f : α → T Unit)
    (hf : ∀ i ∈ l, ∀ k y, Mid t s h k y → Scattered h t s.pid d is y →
      Runs (f i) k fun _ k' => ∃ y, Mid t s h k' y ∧ Scattered h t s.pid d is y)
    (k : Hw) (y : Tile) (m : Mid t s h k y) (z : Scattered h t s.pid d is y) :
    Runs (l.forM f) k fun _ k' => ∃ y, Mid t s h k' y ∧ Scattered h t s.pid d is y := by
  induction l generalizing k y with
  | nil => exact (runs_pure _ _ _).2 ⟨y, m, z⟩
  | cons i l ih =>
    show Runs (_ >>= fun _ => l.forM _) k _
    rw [runs_bind]
    refine (hf i (List.mem_cons_self ..) k y m z).mono fun _ k ⟨y, m, z⟩ => ?_
    exact ih (fun j hj => hf j (List.mem_cons_of_mem _ hj)) k y m z

theorem mem_distinct (l : List Int) : ∀ i ∈ distinct l, i ∈ l := by
  have key : ∀ (l m : List Int), ∀ i ∈ l.foldl (fun m i => if m.contains i then m else m ++ [i]) m, i ∈ m ∨ i ∈ l := by
    intro l
    induction l with
    | nil => intro m i hi; exact .inl hi
    | cons a l ih =>
      intro m i hi
      rw [List.foldl_cons] at hi
      rcases ih _ i hi with h | h
      · split at h
        · exact .inl h
        · rcases List.mem_append.1 h with h | h
          · exact .inl h
          · rw [List.mem_singleton] at h
            exact .inr (h ▸ List.mem_cons_self ..)
      · exact .inr (List.mem_cons_of_mem _ h)
  intro i hi
  rcases key l [] i hi with h | h
  · cases h
  · exact h

theorem scatter_step (ht : t < 1152) (r : TodReady h t s 0x2D d) (ha : admits3 d [1] [1] [1] = true)
    (hm : bits (header d).param 0 2 ≠ 3) (h2 : (opnd d 2).d0 = (opnd d 0).d0)
    (h1 : (scatterIx h t s d).length = (rowsAt h t s d 0 (header d).fmtA).length)
    (pa : packable (header d).fmtA (opnd d 0).d0 = true) (pb : packable (header d).fmtB (opnd d 1).d0 = true)
    (po : packable (header d).fmtOut (opnd d 2).d0 = true) :
    TodDone h (h.issueTod t 0x2D (todScatter t)) t d fun s' y =>
      s' = s ∧ Scattered h t s.pid d (scatterIx h t s d) y := by
  refine r.done ht (by decide) _ _ fun k m c => ?_
  unfold todScatter
  dsimp only
  rw [runs_bind, runs_need]
  refine ⟨by simpa using hm, ?_⟩
  rw [runs_bind, runs_admit3 ha, runs_bind, runs_need]
  refine ⟨by rw [beq_iff_eq]; exact h2, ?_⟩
  rw [runs_bind]
  refine runs_valRows ht m c _ _ pa _ fun k m => ?_
  rw [runs_bind]
  refine runs_vals ht m c _ _ pb _ fun k m => ?_
  rw [runs_bind, runs_need]
  refine ⟨by rw [beq_iff_eq]; exact h1, ?_⟩
  have z0 : Scattered h t s.pid d (scatterIx h t s d) (h.tile t) := by
    refine ⟨?_, [], fun e he => (by cases he), fun _ => rfl⟩
    generalize h.tile t = x
    cases x
    rfl
  have body : ∀ (lam : Int) (k : Hw), Mid t s h k (h.tile t) →
      Runs ((distinct (scatterIx h t s d)).forM fun i => do
        let rows := (((scatterIx h t s d).zip (rowsAt h t s d 0 (header d).fmtA)).filter fun p => p.1 == i).map (·.2)
        if bits (header d).param 0 2 = 0 then (opnd d 2).putRowAt t (header d) i (rows.getLastD [])
        else
          let old ← (opnd d 2).rowAt t (header d).fmtOut i
          let cols := (List.range (opnd d 2).d0).map fun e => (old :: rows).map fun r => r.getD e Val.zero
          if bits (header d).param 0 2 = 2 then (opnd d 2).putRowAt t (header d) i (cols.map (extreme true))
          else
            let rs := cols.map (Acc.zero.addTerms lam)
            if (header d).hold then flagsT t (rs.any (·.2)) false
            else
              (opnd d 2).packs (header d).fmtOut
              flagsT t (rs.any (·.2)) false
              (opnd d 2).putRowAt t (header d) i (rs.map fun r => r.1.val lam)) k fun _ k' =>
      ∃ s' y, Mid t s' h k' y ∧ s' = s ∧ Scattered h t s.pid d (scatterIx h t s d) y := by
    intro lam k m
    refine (runs_forM_scattered _ _ (fun i hi k y m z => ?_) k _ m z0).mono fun _ k ⟨y, m, z⟩ => ⟨s, y, m, rfl, z⟩
    have hi' := mem_distinct _ i hi
    dsimp only
    rw [runs_ite]
    constructor
    · intro _
      exact runs_putRowAt ht m c z hi' po _
    · intro _
      rw [runs_bind]
      refine runs_rowAt ht m (z.clear c) _ _ _ po _ fun k m => ?_
      rw [runs_ite]
      constructor
      · intro _
        exact runs_putRowAt ht m c z hi' po _
      · intro _
        rw [runs_ite]
        constructor
        · intro _
          exact m.inexact _ _ fun k m => ⟨_, m, z.noteInexact _⟩
        · intro _
          unfold Opnd.packs
          rw [runs_bind, runs_need]
          refine ⟨po, ?_⟩
          rw [runs_bind]
          exact m.inexact _ _ fun k m => runs_putRowAt ht m c (z.noteInexact _) hi' po _
  rw [runs_ite]
  constructor
  · intro _
    rw [runs_bind]
    exact runs_levelT m _ _ fun lam k hl m => body lam k m
  · intro _
    rw [runs_bind, runs_pure]
    exact body 0 k m

end Sys2Proof.Machine
end

