-- ==== Sys2Proof/Laws/TodAttnSteps.lean ====
section
/-! SUPPORT. What `ATTN_BLOCK` does when it completes on a block in SRAM. -/

namespace Sys2Proof.Machine

open Sys2Proof

variable {h : Hw} {t : Nat} {s : Slice} {d : List Byte}

theorem Mid.flags {k : Hw} {x : Tile} (m : Mid t s h k x) (i o : Bool) (Q : Unit → Hw → Prop)
    (fin : ∀ k', Mid t s h k' (x.noteFlags i o) → Q () k') : Runs (flagsT t i o) k Q := by
  unfold flagsT
  unfold Tile.noteFlags at fin
  rw [runs_ite]
  constructor
  · intro _
    rw [runs_modify]
    exact fin _ (m.modSeq fun q => { q with inexact := q.inexact || i, overflow := q.overflow || o })
  · intro hn
    simp only [Bool.or_eq_true, not_or, Bool.not_eq_true] at hn
    rw [runs_pure]
    rw [hn.1, hn.2] at fin
    simp only [Bool.or_false] at fin
    exact fin k m

theorem runs_readMatrix (ht : t < 1152) {k : Hw} (m : Mid t s h k (h.tile t)) (c : Clear (h.tile t)) (f a rows cols : Nat)
    (Q : List (List Val) → Hw → Prop) (fin : ∀ k, Mid t s h k (h.tile t) → Q (matrixIn h t s f a rows cols) k) :
    Runs (readMatrix t f a rows cols) k Q := by
  unfold readMatrix
  refine runs_mapM_read (h := h) (x := h.tile t) (s := s) _
    (fun r : Nat => (unpack f cols ((sramBytes h t s.pid (a + r * rowLen f cols) (rowLen f cols)).map (fun b : SByte => b.1))).map (elemVal f)) _
    (fun i _ k m P hP => ?_) k m _ fin
  rw [runs_bind]
  refine runs_useT ht m c.sram c.sound _ _ _ fun k m => ?_
  rw [runs_pure]
  exact hP k m

theorem leBytes_length (n w : Nat) : (leBytes n w).length = n := by
  induction n generalizing w with
  | zero => rfl
  | succ n ih => unfold leBytes; rw [List.length_cons, ih]

theorem runs_scratch (ht : t < 1152) {k : Hw} {x : Tile} (m : Mid t s h k x) (c : Clear x) (a : Attn) (Q : Unit → Hw → Prop)
    (fin : ∀ k' ws y, Mid t s h k' { x with sram := y } → writesWithin a.work (128 * a.dh) ws →
      SramAfter h t s.pid x.sram ws y → Q () k') : Runs (scratchWork t a) k Q := by
  unfold scratchWork
  have key : ∀ (l : List Nat) (k : Hw) (x : Tile), Mid t s h k x → Clear x → (∀ i ∈ l, i < 16 * a.dh) →
      Runs (l.mapM fun i => do
        let (w, h) := (← get).free
        set h
        wrRow t (a.work + 8 * i) (withStain false (leBytes 8 w.toNat))) k fun _ k' => ∃ ws y, Mid t s h k' { x with sram := y } ∧
          writesWithin a.work (128 * a.dh) ws ∧ SramAfter h t s.pid x.sram ws y := by
    intro l
    induction l with
    | nil =>
      intro k x m c _
      rw [List.mapM_nil]
      exact (runs_pure _ _ _).2 ⟨[], x.sram, m, fun e he => (by cases he), fun _ => rfl⟩
    | cons i l ih =>
      intro k x m c hl
      rw [List.mapM_cons, runs_bind, runs_bind, runs_get]
      have mf := m.free
      revert mf
      generalize k.free = e
      intro mf
      obtain ⟨w, k1⟩ := e
      dsimp only at mf ⊢
      unfold wrRow
      rw [runs_bind, runs_set, runs_bind]
      refine runs_wrT ht mf c.sram c.sound _ _ (withStain_clean _) _ fun k2 y m2 f => ?_
      rw [runs_pure, runs_bind]
      refine (ih k2 { x with sram := y } m2 ⟨c.sram, c.sound, c.scalars⟩ fun j hj => hl j (List.mem_cons_of_mem _ hj)).mono
        fun _ k3 ⟨ws, z, m3, hw, g⟩ => ?_
      rw [runs_pure]
      refine ⟨(a.work + 8 * i, withStain false (leBytes 8 w.toNat)) :: ws, z, m3, fun e he => ?_, ?_⟩
      · rcases List.mem_cons.1 he with h | h
        · rw [h]
          have := hl i (List.mem_cons_self ..)
          unfold withStain
          rw [List.length_map, leBytes_length]
          omega
        · exact hw e h
      · exact SramAfter.append (a := [_]) (fun b => by rw [f]; rfl) g
  rw [runs_bind]
  refine (key _ k x m c fun i hi => List.mem_range.1 hi).mono fun _ k ⟨ws, y, m, hw, f⟩ => ?_
  exact runs_sealT m ⟨c.sram, c.sound, c.scalars⟩ _ _ fun k m => fin k ws y m hw f

/-- The descriptor and the checks of its ranges. -/
theorem runs_attn (ht : t < 1152) {mode : Nat} (hr : attnReady h t s d mode) (h3 : mode ≠ 3) {k : Hw}
    (m : Mid t s h k (h.tile t)) (c : Clear (h.tile t)) (Q : Unit → Hw → Prop)
    (fin : ∀ k, Mid t s h k (h.tile t) → Runs (if mode = 0 then attnScan t (header d) (attnIn h t s d) d
      else if mode = 1 then attnAcc t (header d) (attnIn h t s d) d
      else attnFinish t (header d) (attnIn h t s d) d) k Q) : Runs (todAttnBlock t (header d) d) k Q := by
  obtain ⟨h1, h2, ok⟩ := hr
  unfold todAttnBlock
  dsimp only
  rw [h1, runs_bind, runs_need]
  refine ⟨by simpa using h3, ?_⟩
  rw [runs_bind, runs_need]
  refine ⟨by simpa using h2, ?_⟩
  rw [runs_bind]
  refine runs_useT ht m c.sram c.sound _ _ _ fun k m => ?_
  rw [runs_bind, runs_need]
  exact ⟨ok, fin k m⟩

/-- The queries and the block of a SCAN or an ACC. -/
theorem runs_queries (ht : t < 1152) {k : Hw} (m : Mid t s h k (h.tile t)) (c : Clear (h.tile t)) {x : Attn}
    (hs : attnShape x d = true) (Q : List (List Val) → Hw → Prop)
    (fin : ∀ k, Mid t s h k (h.tile t) → Q (rowsAt h t s d 0 (header d).fmtA) k) :
    Runs (queries t (header d) x (opnd d 0)) k Q := by
  unfold attnShape at hs
  unfold macFormats at hs
  simp only [Bool.and_eq_true] at hs
  obtain ⟨⟨⟨⟨⟨⟨f1, f2⟩, h2⟩, _⟩, _⟩, pa⟩, _⟩ := hs
  unfold queries macFmts
  rw [runs_bind, runs_bind, runs_need]
  refine ⟨by simpa using f1, ?_⟩
  rw [runs_need]
  refine ⟨by simpa using f2, ?_⟩
  rw [runs_bind, runs_need]
  refine ⟨by rw [Bool.and_eq_true]; exact h2, ?_⟩
  exact runs_valRows ht m c _ _ pa _ fin

theorem runs_attnBlock (ht : t < 1152) {k : Hw} (m : Mid t s h k (h.tile t)) (c : Clear (h.tile t)) {x : Attn}
    (hs : attnShape x d = true) (Q : Option (List (List Val) × Nat × Nat) → Hw → Prop)
    (fin : ∀ k, Mid t s h k (h.tile t) → Q (some (rowsAt h t s d 1 (header d).fmtB, x.kpos, (opnd d 1).d0)) k) :
    Runs (attnBlock t (header d) x (opnd d 1)) k Q := by
  unfold attnShape at hs
  simp only [Bool.and_eq_true] at hs
  obtain ⟨⟨⟨⟨⟨_, _⟩, h3⟩, h5⟩, _⟩, pb⟩ := hs
  unfold attnBlock
  rw [runs_bind]
  refine runs_sliceT m _ fun r e => ?_
  rw [runs_ite]
  refine ⟨fun _ => ?_, fun h => absurd (by simpa using h3) h⟩
  rw [runs_bind, runs_need]
  refine ⟨by rw [Bool.and_eq_true]; exact h5, ?_⟩
  rw [runs_bind]
  refine runs_valRows ht m c _ _ pb _ fun k m => ?_
  rw [runs_pure]
  exact fin k m

theorem attnScan_step (ht : t < 1152) (r : TodReady h t s 0x14 d) (hr : attnReady h t s d 0)
    (ha : admits3 d [1] [1, 2] [1] = true) (hs : attnShape (attnIn h t s d) d = true)
    (h2 : (opnd d 2).count = (opnd d 0).d1 * (opnd d 0).d2) :
    TodDone h (h.issueTod t 0x14 (todAttnBlock t)) t d fun s' y => s' = s ∧ ∃ ws m,
      writesWithin (attnIn h t s d).work (128 * (attnIn h t s d).dh) ws ∧
      y = { (h.tile t).noteFlags ((attnKeys h t s d).2.1 || (scanScores h t s d).any fun r => r.any (·.2.1))
        ((attnKeys h t s d).2.2 || (scanScores h t s d).any fun r => r.any (·.2.2)) with sram := m } ∧
      SramAfter h t s.pid (h.tile t).sram (ws ++ (opnd d 2).encWrites (h.tile t).seq 2 (scanMaxima h t s d)) m := by
  refine r.done ht (by decide) _ _ fun k m c => ?_
  refine runs_attn ht hr (by decide) m c _ fun k m => ?_
  rw [if_pos rfl]
  unfold attnScan
  dsimp only
  rw [runs_bind, runs_admit3 ha, runs_bind]
  refine runs_queries ht m c hs _ fun k m => ?_
  rw [runs_bind, runs_need]
  refine ⟨by rw [beq_iff_eq]; exact h2, ?_⟩
  rw [runs_bind]
  refine runs_attnBlock ht m c hs _ fun k m => ?_
  dsimp only
  rw [runs_bind]
  refine runs_readMatrix ht m c _ _ _ _ _ fun k m => ?_
  have ek : attnKeys h t s d = expand (attnIn h t s d).fmtE (attnIn h t s d).lk (matrixIn h t s (attnIn h t s d).fmtW
    (attnIn h t s d).wk (attnIn h t s d).dh (opnd d 1).d0) (rowsAt h t s d 1 (header d).fmtB) := rfl
  rw [← ek]
  have fin : ∀ (k : Hw) (old : List Nat), Mid t s h k (h.tile t) →
      old = (if (header d).keep then (opnd d 2).encsIn h t s.pid (h.tile t) 2
        else List.replicate ((opnd d 0).d1 * (opnd d 0).d2) 0x80000000) →
      Runs (do
        flagsT t ((attnKeys h t s d).2.1 || (scanScores h t s d).any fun r => r.any (·.2.1))
          ((attnKeys h t s d).2.2 || (scanScores h t s d).any fun r => r.any (·.2.2))
        scratchWork t (attnIn h t s d)
        (opnd d 2).putEncs t 2 ((List.range ((opnd d 0).d1 * (opnd d 0).d2)).map fun r =>
          unsx 32 ((((scanScores h t s d).getD r []).filterMap fun e => ceilClamp e.1).foldl max (sx 32 (old.getD r 0))))) k
      fun _ k' => ∃ s' y, Mid t s' h k' y ∧ s' = s ∧ ∃ ws m,
      writesWithin (attnIn h t s d).work (128 * (attnIn h t s d).dh) ws ∧
      y = { (h.tile t).noteFlags ((attnKeys h t s d).2.1 || (scanScores h t s d).any fun r => r.any (·.2.1))
        ((attnKeys h t s d).2.2 || (scanScores h t s d).any fun r => r.any (·.2.2)) with sram := m } ∧
      SramAfter h t s.pid (h.tile t).sram (ws ++ (opnd d 2).encWrites (h.tile t).seq 2 (scanMaxima h t s d)) m := by
    intro k old m eo
    subst eo
    rw [runs_bind]
    refine m.flags _ _ _ fun k m => ?_
    have c1 : Clear ((h.tile t).noteFlags ((attnKeys h t s d).2.1 || (scanScores h t s d).any fun r => r.any (·.2.1))
        ((attnKeys h t s d).2.2 || (scanScores h t s d).any fun r => r.any (·.2.2))) := ⟨c.sram, c.sound, c.scalars⟩
    rw [runs_bind]
    refine runs_scratch ht m c1 _ _ fun k ws y m hw f => ?_
    exact runs_putEncs ht m ⟨c.sram, c.sound, c.scalars⟩ _ _ _ _ fun k z m g =>
      ⟨s, _, m, rfl, ws, z, hw, rfl, f.append g⟩
  rw [runs_ite]
  constructor
  · intro hk
    rw [runs_bind]
    refine runs_encs ht m c _ _ (by unfold packable; simp [fmtBits, isMx]) _ fun k m => ?_
    exact fin k _ m (by rw [if_pos hk])
  · intro hk
    rw [runs_bind, runs_pure]
    exact fin k _ m (by rw [if_neg hk])

theorem runs_addCarry {k : Hw} {x : Tile} (m : Mid t s h k x) (f : Nat) (l : List Acc) (Q : Unit → Hw → Prop)
    (fin : ∀ k', Mid t s h k' (x.addCarry f l) → Q () k') : Runs (addCarry t f l) k Q := by
  unfold addCarry
  unfold Tile.addCarry at fin
  generalize List.range l.length = is at fin ⊢
  induction is generalizing k x with
  | nil => exact (runs_pure _ _ _).2 (fin k m)
  | cons i is ih =>
    show Runs (_ >>= fun _ => is.forM _) k Q
    rw [runs_bind, runs_bind, runs_get]
    have ea : ∀ i, (k.tile t).acc i = x.acc i := fun i => by unfold Tile.acc; rw [m.accs]
    dsimp only
    rw [ea]
    unfold setAccT
    rw [runs_modify]
    let b : Acc := ⟨((x.acc (f + i)).a + (l.getD i Acc.zero).a) % 2 ^ 96, tagJoin (x.acc (f + i)).tag (l.getD i Acc.zero).tag⟩
    exact ih (m.modTile (fun y => { y with accs := y.accs.putD Acc.zero (f + i) b }) fun _ _ _ => rfl) fin

theorem runs_readCarry (ht : t < 1152) {k : Hw} (m : Mid t s h k (h.tile t)) (c : Clear (h.tile t)) (a n half : Nat)
    (Q : List Acc → Hw → Prop) (fin : ∀ k, Mid t s h k (h.tile t) → Q (carryIn h t s a n half) k) :
    Runs (readCarry t a n half) k Q := by
  unfold readCarry
  rw [runs_bind]
  refine runs_useT ht m c.sram c.sound _ _ _ fun k m => ?_
  rw [runs_pure]
  exact fin k m

theorem Tile.addCarry_clear {x : Tile} (c : Clear x) (f : Nat) (l : List Acc) : Clear (x.addCarry f l) := by
  unfold Tile.addCarry
  generalize List.range l.length = is
  induction is generalizing x with
  | nil => exact c
  | cons i is ih => exact ih ⟨c.sram, c.sound, c.scalars⟩

theorem attnFinish_step (ht : t < 1152) (r : TodReady h t s 0x14 d) (hr : attnReady h t s d 2)
    (ha : admits3 d [3] [0] [1] = true)
    (h2 : (opnd d 2).d0 = (attnIn h t s d).dh ∧ (opnd d 2).d1 * (opnd d 2).d2 ≤ 32)
    (n : Nat) (hn : n = (opnd d 2).d1 * (opnd d 2).d2 * ((attnIn h t s d).dh + 1))
    (h3 : n + (opnd d 0).acc ≤ 1024) (po : packable (header d).fmtOut (opnd d 2).d0 = true)
    (z : Tile) (hz : z = if (attnIn h t s d).carry ≠ 0 then (h.tile t).addCarry (opnd d 0).acc
        (carryIn h t s (attnIn h t s d).carry n ((((h.tile t).seq.scalar 15).1 + 1) % 2)) else h.tile t) :
    TodDone h (h.issueTod t 0x14 (todAttnBlock t)) t d fun s' y => s' = s ∧
      ValsPut h t s.pid (opnd d 2) (header d) (finishVals (attnIn h t s d) d z) z y := by
  refine r.done ht (by decide) _ _ fun k m c => ?_
  refine runs_attn ht hr (by decide) m c _ fun k m => ?_
  rw [if_neg (by decide), if_neg (by decide)]
  unfold attnFinish
  dsimp only
  rw [runs_bind, runs_admit3 ha, runs_bind, runs_need, ← hn]
  refine ⟨by simpa using h2, ?_⟩
  rw [runs_bind, runs_need]
  refine ⟨by simpa using h3, ?_⟩
  have fin : ∀ k, Mid t s h k z → Clear z → Runs (do
      let y := (← get).tile t
      (opnd d 2).putVals t (header d) ((List.range ((opnd d 2).d1 * (opnd d 2).d2)).flatMap fun r =>
        (List.range (attnIn h t s d).dh).map fun k => quotient (y.acc ((opnd d 0).acc + r * (attnIn h t s d).dh + k))
          (y.acc ((opnd d 0).acc + (opnd d 2).d1 * (opnd d 2).d2 * (attnIn h t s d).dh + r)))) k fun _ k' =>
      ∃ s' y, Mid t s' h k' y ∧ s' = s ∧ ValsPut h t s.pid (opnd d 2) (header d) (finishVals (attnIn h t s d) d z) z y := by
    intro k m cz
    rw [runs_bind, runs_get]
    have ea : ∀ i, (k.tile t).acc i = z.acc i := fun i => by unfold Tile.acc; rw [m.accs]
    simp only [ea]
    exact runs_putVals ht m cz _ _ _ po _ fun k y m v => ⟨s, y, m, rfl, v⟩
  rw [runs_ite]
  constructor
  · intro hc
    rw [if_pos hc] at hz
    rw [runs_bind, runs_get, m.seq, runs_bind]
    refine runs_readCarry ht m c _ _ _ _ fun k m => ?_
    rw [runs_bind]
    refine runs_addCarry m _ _ _ fun k m => ?_
    rw [← hz] at m
    exact fin k m (by rw [hz]; exact Tile.addCarry_clear c _ _)
  · intro hc
    rw [if_neg hc] at hz
    subst hz
    exact fin k m c

theorem Tile.addCarry_seq (x : Tile) (f : Nat) (l : List Acc) :
    (x.addCarry f l).seq = x.seq ∧ (x.addCarry f l).lvlJobs = x.lvlJobs := by
  unfold Tile.addCarry
  generalize List.range l.length = is
  induction is generalizing x with
  | nil => exact ⟨rfl, rfl⟩
  | cons i is ih => exact ⟨(ih _).1, (ih _).2⟩

theorem accStart_seq : (accStart h t s d).seq = (h.tile t).seq ∧ (accStart h t s d).lvlJobs = (h.tile t).lvlJobs := by
  unfold accStart
  dsimp only
  split
  · split
    · exact Tile.addCarry_seq _ _ _
    · exact ⟨rfl, rfl⟩
  · exact ⟨rfl, rfl⟩

theorem accStart_clear (c : Clear (h.tile t)) : Clear (accStart h t s d) := by
  unfold accStart
  dsimp only
  split
  · split
    · exact Tile.addCarry_clear c _ _
    · exact c
  · exact ⟨c.sram, c.sound, c.scalars⟩

theorem Tile.addAll_clear {x : Tile} (c : Clear x) (f : Nat) (lam : Int) (l : List (List Val)) : Clear (x.addAll f lam l) := by
  unfold Tile.addAll
  generalize List.range l.length = is
  induction is generalizing x with
  | nil => exact c
  | cons i is ih => exact ih ⟨c.sram, c.sound, c.scalars⟩

theorem Tile.addAll_sram (x : Tile) (f : Nat) (lam : Int) (l : List (List Val)) : (x.addAll f lam l).sram = x.sram := by
  unfold Tile.addAll
  generalize List.range l.length = is
  induction is generalizing x with
  | nil => rfl
  | cons i is ih => exact ih _

theorem Tile.addCarry_sram (x : Tile) (f : Nat) (l : List Acc) : (x.addCarry f l).sram = x.sram := by
  unfold Tile.addCarry
  generalize List.range l.length = is
  induction is generalizing x with
  | nil => rfl
  | cons i is ih => exact ih _

theorem accStart_sram : ((accStart h t s d).noteFlags (accFlags h t s d).1 (accFlags h t s d).2).sram = (h.tile t).sram := by
  show (accStart h t s d).sram = _
  unfold accStart
  dsimp only
  split
  · split
    · exact Tile.addCarry_sram _ _ _
    · rfl
  · rfl

theorem runs_writeCarry (ht : t < 1152) {s : Slice} {k : Hw} {x : Tile} (m : Mid t s h k x) (c : Clear x) (a f n half : Nat)
    (Q : Unit → Hw → Prop)
    (fin : ∀ k' y, Mid t s h k' { x with sram := y } → SramAfter h t s.pid x.sram [(a + half * (16 * n), x.carryBytes f n)] y →
      Q () k') : Runs (writeCarry t a f n half) k Q := by
  unfold writeCarry
  rw [runs_bind, runs_get]
  have ea : ∀ i, (k.tile t).acc i = x.acc i := fun i => by unfold Tile.acc; rw [m.accs]
  simp only [ea]
  exact runs_wrT ht m c.sram c.sound _ _ (withStain_clean _) _ fun k' y m f => fin k' y m fun b => by rw [f]; rfl

theorem attnAcc_step (ht : t < 1152) (r : TodReady h t s 0x14 d) (hr : attnReady h t s d 1)
    (ha : admits3 d [1] [1, 2] [3] = true) (hs : attnShape (attnIn h t s d) d = true)
    (n : Nat) (hn : n = (opnd d 0).d1 * (opnd d 0).d2 * ((attnIn h t s d).dh + 1))
    (h3 : n + (opnd d 2).acc ≤ 1024) :
    TodDone h (h.issueTod t 0x14 (todAttnBlock t)) t d (AccDone h t s d n) := by
  refine r.done ht (by decide) _ _ fun k m c => ?_
  refine runs_attn ht hr (by decide) m c _ fun k m => ?_
  rw [if_neg (by decide), if_pos rfl]
  unfold attnAcc
  dsimp only
  rw [runs_bind, runs_admit3 ha, runs_bind]
  refine runs_queries ht m c hs _ fun k m => ?_
  rw [runs_bind, runs_need, ← hn]
  refine ⟨by simpa using h3, ?_⟩
  rw [runs_bind]
  refine runs_attnBlock ht m c hs _ fun k m => ?_
  dsimp only
  rw [runs_bind]
  refine runs_readMatrix ht m c _ _ _ _ _ fun k m => ?_
  rw [runs_bind]
  refine runs_readMatrix ht m c _ _ _ _ _ fun k m => ?_
  have ek : attnKeys h t s d = expand (attnIn h t s d).fmtE (attnIn h t s d).lk (matrixIn h t s (attnIn h t s d).fmtW
    (attnIn h t s d).wk (attnIn h t s d).dh (opnd d 1).d0) (rowsAt h t s d 1 (header d).fmtB) := rfl
  have ev : attnVals h t s d = expand (attnIn h t s d).fmtE (attnIn h t s d).lv (matrixIn h t s (attnIn h t s d).fmtW
    (attnIn h t s d).wv (attnIn h t s d).dh (opnd d 1).d0) (rowsAt h t s d 1 (header d).fmtB) := rfl
  rw [← ek, ← ev]
  rw [runs_bind]
  refine runs_useT ht m c.sram c.sound _ _ _ fun k m => ?_
  rw [runs_bind, runs_get, m.seq, runs_bind]
  refine runs_sliceT m _ fun q eq => ?_
  have last : ∀ (s' : Slice) (k : Hw), Mid t s' h k (accStart h t s d) → s'.pid = s.pid → s'.seq = s.seq →
      s' = (if (attnIn h t s d).carry ≠ 0 then { s with carryRead := NSet.add s.carryRead (attnIn h t s d).carry } else s) →
      Runs (do
        let lam ← levelT t (header d)
        flagsT t (accFlags h t s d).1 (accFlags h t s d).2
        scratchWork t (attnIn h t s d)
        addAccs t (opnd d 2).acc lam ((accRows h t s d).flatMap (·.1))
        addAccs t ((opnd d 2).acc + (opnd d 0).d1 * (opnd d 0).d2 * (attnIn h t s d).dh) lam ((accRows h t s d).map (·.2.1))
        if (attnIn h t s d).carry ≠ 0 then
          writeCarry t (attnIn h t s d).carry (opnd d 2).acc n (((h.tile t).seq.scalar 15).1 % 2) else pure ()) k
      fun _ k' => ∃ s' y, Mid t s' h k' y ∧ AccDone h t s d n s' y := by
    intro s' k m ep eq es
    rw [runs_bind]
    refine runs_levelT m _ _ fun lam k hl m => ?_
    have hl' : LevelIs (h.tile t) s (header d) lam := by
      unfold LevelIs at hl ⊢
      rw [ep, eq, accStart_seq.1, accStart_seq.2] at hl
      exact hl
    rw [runs_bind]
    refine m.flags _ _ _ fun k m => ?_
    have c1 : Clear ((accStart h t s d).noteFlags (accFlags h t s d).1 (accFlags h t s d).2) :=
      have c0 := accStart_clear (s := s) (d := d) c
      ⟨c0.sram, c0.sound, c0.scalars⟩
    rw [runs_bind]
    refine runs_scratch ht m c1 _ _ fun k ws w m hw f => ?_
    rw [ep] at f
    rw [accStart_sram] at f
    rw [runs_bind]
    refine runs_addAccs m _ _ _ _ fun k m => ?_
    rw [runs_bind]
    refine runs_addAccs m _ _ _ _ fun k m => ?_
    rw [runs_ite]
    constructor
    · intro hc
      have c2 := Tile.addAll_clear (Tile.addAll_clear
        (x := { (accStart h t s d).noteFlags (accFlags h t s d).1 (accFlags h t s d).2 with sram := w })
        ⟨c1.sram, c1.sound, c1.scalars⟩ (opnd d 2).acc lam ((accRows h t s d).flatMap (·.1)))
        ((opnd d 2).acc + (opnd d 0).d1 * (opnd d 0).d2 * (attnIn h t s d).dh) lam ((accRows h t s d).map (·.2.1))
      refine runs_writeCarry ht m c2 _ _ _ _ _ fun k y m g => ?_
      rw [ep] at g
      rw [Tile.addAll_sram, Tile.addAll_sram] at g
      exact ⟨s', _, m, es, lam, ws, w, hl', hw, f, _, rfl, fun h => absurd h hc, fun _ => ⟨y, rfl, g⟩⟩
    · intro hc
      rw [runs_pure]
      exact ⟨s', _, m, es, lam, ws, w, hl', hw, f, _, rfl, fun _ => rfl, fun h => absurd h hc⟩
  have mark : ∀ (k : Hw), Mid t s h k (accStart h t s d) → Runs (do
        if (attnIn h t s d).carry ≠ 0 then
          modify fun h' => h'.modSlice t fun s' => { s' with carryRead := NSet.add s'.carryRead (attnIn h t s d).carry }
        else pure ()
        let lam ← levelT t (header d)
        flagsT t (accFlags h t s d).1 (accFlags h t s d).2
        scratchWork t (attnIn h t s d)
        addAccs t (opnd d 2).acc lam ((accRows h t s d).flatMap (·.1))
        addAccs t ((opnd d 2).acc + (opnd d 0).d1 * (opnd d 0).d2 * (attnIn h t s d).dh) lam ((accRows h t s d).map (·.2.1))
        if (attnIn h t s d).carry ≠ 0 then
          writeCarry t (attnIn h t s d).carry (opnd d 2).acc n (((h.tile t).seq.scalar 15).1 % 2) else pure ()) k
      fun _ k' => ∃ s' y, Mid t s' h k' y ∧ AccDone h t s d n s' y := by
    intro k m
    dsimp only
    rw [runs_ite]
    constructor
    · intro hc
      rw [runs_bind, runs_modify]
      exact last _ _ (m.modSliceTo (fun s' => { s' with carryRead := NSet.add s'.carryRead (attnIn h t s d).carry }) fun _ => rfl)
        rfl rfl (by rw [if_pos hc])
    · intro hc
      exact last s k m rfl rfl (by rw [if_neg hc])
  rw [runs_ite]
  constructor
  · intro hk
    rw [runs_ite]
    constructor
    · intro hc
      rw [runs_bind]
      refine runs_readCarry ht m c _ _ _ _ fun k m => ?_
      rw [runs_bind]
      refine runs_addCarry m _ _ _ fun k m => ?_
      refine mark k ?_
      unfold accStart
      dsimp only
      rw [if_pos hk, if_pos hc, ← hn]
      exact m
    · intro hc
      refine mark k ?_
      unfold accStart
      dsimp only
      rw [if_pos hk, if_neg hc]
      exact m
  · intro hk
    rw [runs_bind]
    refine runs_clearAccs m _ _ _ fun k m => ?_
    refine mark k ?_
    unfold accStart
    dsimp only
    rw [if_neg hk, ← hn]
    exact m

end Sys2Proof.Machine
end

