-- ==== Sys2Proof/Laws/TodFar.lean ====
section
/-! SUPPORT. What the TODs that act outside their tile do when they complete. -/

namespace Sys2Proof.Machine

open Sys2Proof

variable {h : Hw} {t : Nat} {s : Slice} {d : List Byte}

/-- A TOD whose computation ends in an effect on the state that its reads leave. -/
theorem TodReady.acts {opc : Nat} (ht : t < 1152) (r : TodReady h t s opc d) (ho : todOpcodes.contains opc = true)
    (eff : Header → List Byte → T Unit) (f : Hw → Hw)
    (run : ∀ k, Mid t s h k (h.tile t) → Clear (h.tile t) →
      Runs (eff (header d) d) k fun _ k' => ∃ k, Mid t s h k (h.tile t) ∧ k' = f k) :
    TodActs h (h.issueTod t opc eff) t s d f := by
  obtain ⟨k', ⟨k, m, e1⟩, e2⟩ := Hw.issueTod_runs ht r ho eff (fun k' => ∃ k, Mid t s h k (h.tile t) ∧ k' = f k) fun k ro =>
    run k (Mid.of_read ro r.slice) r.clean.clear
  exact ⟨k, m, by rw [e2, e1]; rfl⟩

theorem Mid.keeps {k : Hw} {x : Tile} (m : Mid t s h k x) :
    k.parts = h.parts ∧ k.sobs = h.sobs ∧ k.stn = h.stn ∧ k.fab = h.fab ∧ k.mem = h.mem ∧ k.jobs = h.jobs := by
  have e := m.only.rest
  have g : ∀ {γ : Type} (f : Hw → γ), f { k.mute with tiles := [] } = f { h.mute with tiles := [] } := fun f => congrArg f e
  exact ⟨g (·.parts), g (·.sobs), g (·.stn), g (·.fab), g (·.mem), g (·.jobs)⟩

theorem Mid.physFor {k : Hw} {x : Tile} (m : Mid t s h k x) (p l : Nat) : k.physFor p l = h.physFor p l := by
  unfold Hw.physFor Hw.physOf Hw.redirect Hw.rowMask
  rw [m.keeps.2.2.2.1]

theorem Mid.clsOf {k : Hw} {x : Tile} (m : Mid t s h k x) (p : Nat) : k.clsOf p = h.clsOf p := by
  unfold Hw.clsOf Hw.part
  rw [m.keeps.1]

theorem runs_moveBytes (ht : t < 1152) {k : Hw} (m : Mid t s h k (h.tile t)) (c : Clear (h.tile t))
    (pa : packable (header d).fmtA (opnd d 0).d0 = true) (Q : List SByte → Hw → Prop)
    (fin : ∀ k, Mid t s h k (h.tile t) → Q (bytesAt h t s d) k) : Runs (moveBytes t (header d).fmtA (opnd d 0)) k Q := by
  unfold moveBytes Opnd.packs
  rw [runs_bind, runs_need]
  refine ⟨pa, ?_⟩
  rw [runs_bind, runs_addr m c, runs_bind]
  refine runs_mapM_read (h := h) (x := h.tile t) (s := s) _
    (fun r : Nat => sramBytes h t s.pid ((opnd d 0).addrIn (h.tile t).seq + r) (rowLen (header d).fmtA (opnd d 0).d0)) _
    (fun i _ k m P hP => runs_rdT ht m c.sram c.sound _ _ _ hP) k m _ fun k m => ?_
  rw [runs_pure]
  exact fin k m

theorem runs_sendMsg {k : Hw} (m : Mid t s h k (h.tile t)) (type : Nat) (hn : (bytesAt h t s d).length ≤ 524288) :
    Runs (sendMsg t type ((opnd d 2).addrIn (h.tile t).seq) (opnd d 2) (bytesAt h t s d)) k
      fun _ k' => ∃ k, Mid t s h k (h.tile t) ∧ k' = sends h t s d type k := by
  unfold sendMsg
  rw [runs_bind]
  refine runs_sliceT m _ fun r e => ?_
  rw [runs_bind, runs_need]
  refine ⟨by rw [decide_eq_true_eq]; exact hn, ?_⟩
  rw [runs_modify]
  refine ⟨k, m, ?_⟩
  dsimp only
  rw [m.clsOf]
  rfl

theorem send_step (ht : t < 1152) (r : TodReady h t s 0x40 d) (ha : admits3 d [1] [0] [4] = true)
    (hs : (opnd d 2).slot ≠ 15) (pa : packable (header d).fmtA (opnd d 0).d0 = true)
    (hl : (bytesAt h t s d).length ≤ 524288) :
    TodActs h (h.issueTod t 0x40 (todSend t)) t s d (sends h t s d 0) := by
  refine r.acts ht (by decide) _ _ fun k m c => ?_
  unfold todSend
  dsimp only
  rw [runs_bind, runs_admit3 ha, runs_bind, runs_addr m c, runs_ite]
  refine ⟨fun h => absurd h hs, fun _ => ?_⟩
  rw [runs_bind]
  exact runs_moveBytes ht m c pa _ fun k m => runs_sendMsg m 0 hl

theorem sendNotice_step (ht : t < 1152) (r : TodReady h t s 0x40 d) (ha : admits3 d [1] [0] [4] = true)
    (hs : (opnd d 2).slot = 15) (f : Nat) (hf : finisherOf (opnd d 2).tile = some f)
    (hn : rowLen (header d).fmtA (opnd d 0).d0 * (opnd d 0).d1 * (opnd d 0).d2 = 64)
    (hl : s.stagedBytes + 64 ≤ s.stageLimit) (pa : packable (header d).fmtA (opnd d 0).d0 = true) :
    TodDone h (h.issueTod t 0x40 (todSend t)) t d fun s' y => y = h.tile t ∧ s' = { s with
      notices := s.notices ++ [BitVec.ofNat 8 (f + 128 * b2n ((bytesAt h t s d).any (·.2))) :: (bytesAt h t s d).map (·.1)] } := by
  refine r.done ht (by decide) _ _ fun k m c => ?_
  unfold todSend
  dsimp only
  rw [runs_bind, runs_admit3 ha, runs_bind, runs_addr m c, runs_ite]
  refine ⟨fun _ => ?_, fun h => absurd hs h⟩
  rw [hf]
  dsimp only
  rw [runs_bind, runs_need]
  refine ⟨by rw [beq_iff_eq]; exact hn, ?_⟩
  rw [runs_bind]
  refine runs_sliceT m _ fun q e => ?_
  rw [runs_bind, runs_need]
  refine ⟨by rw [decide_eq_true_eq]; exact hl, ?_⟩
  rw [runs_bind]
  refine runs_moveBytes ht m c pa _ fun k m => ?_
  rw [runs_modify]
  exact ⟨_, _, m.modSliceTo _ fun _ => rfl, rfl, rfl⟩

theorem haloSend_step (ht : t < 1152) (r : TodReady h t s 0x42 d) (ha : admits3 d [1] [0] [4] = true)
    (h1 : ¬ ((opnd d 0).d1 > 8 ∧ (opnd d 0).d2 > 8)) (hx : isMx (header d).fmtA = false)
    (hb : rowLen (header d).fmtA (opnd d 0).d0 * (opnd d 0).d1 * (opnd d 0).d2 = (opnd d 2).bytes)
    (pa : packable (header d).fmtA (opnd d 0).d0 = true) (hl : (bytesAt h t s d).length ≤ 524288) :
    TodActs h (h.issueTod t 0x42 (todHaloSend t)) t s d (sends h t s d 1) := by
  refine r.acts ht (by decide) _ _ fun k m c => ?_
  unfold todHaloSend checkStrip Opnd.packs
  dsimp only
  rw [runs_bind, runs_admit3 ha, runs_bind, runs_bind, runs_need]
  refine ⟨by simp; omega, ?_⟩
  rw [runs_bind, runs_need]
  refine ⟨by rw [hx]; rfl, ?_⟩
  rw [runs_bind, runs_need]
  refine ⟨pa, ?_⟩
  rw [runs_need]
  refine ⟨by rw [beq_iff_eq]; exact hb, ?_⟩
  rw [runs_bind, runs_addr m c, runs_bind]
  exact runs_moveBytes ht m c pa _ fun k m => runs_sendMsg m 1 hl

theorem expscan_step (ht : t < 1152) (r : TodReady h t s 0x15 d) (ha : admits3 d [1] [1] [4] = true)
    (hp : productFits d = true) (h1 : (opnd d 0).d0 = (opnd d 1).d0)
    (pa : packable (header d).fmtA (opnd d 0).d0 = true) (pb : packable (header d).fmtB (opnd d 1).d0 = true) :
    TodActs h (h.issueTod t 0x15 (todExpscan t)) t s d (sendsExp h t s d) := by
  refine r.acts ht (by decide) _ _ fun k m c => ?_
  unfold todExpscan
  dsimp only
  rw [runs_bind, runs_admit3 ha, runs_bind]
  refine runs_checkMatmul hp _ ?_
  rw [runs_bind, runs_need]
  refine ⟨by rw [beq_iff_eq]; exact h1, ?_⟩
  rw [runs_bind, runs_baseVal m c, runs_bind]
  refine runs_valRows ht m c _ _ pa _ fun k m => ?_
  rw [runs_bind]
  refine runs_valRows ht m c _ _ pb _ fun k m => ?_
  rw [runs_bind]
  refine runs_sliceT m _ fun q e => ?_
  rw [runs_modify]
  refine ⟨k, m, ?_⟩
  rw [m.physFor]
  rfl

theorem levelSend_step (ht : t < 1152) (r : TodReady h t s 0x44 d) (ha : admits3 d [0] [0] [4] = true)
    (hc : bits (header d).param 4 11 ≤ (expsFor h t s d).length) :
    TodActs h (h.issueTod t 0x44 (todLevelSend t)) t s d (sendsLevel h t s d) := by
  refine r.acts ht (by decide) _ _ fun k m c => ?_
  unfold todLevelSend
  dsimp only
  rw [runs_bind, runs_admit3 ha, runs_bind, runs_baseVal m c, runs_bind]
  refine runs_sliceT m _ fun q e => ?_
  rw [runs_bind, runs_get]
  have ee : (k.tile t).expIn = (h.tile t).expIn := by
    obtain ⟨_, _, e⟩ := m.tile
    rw [e]
  rw [ee, runs_bind, runs_need]
  refine ⟨by rw [decide_eq_true_eq]; exact hc, ?_⟩
  rw [runs_modify]
  exact ⟨k, m, rfl⟩

theorem Mid.reach {k : Hw} {x : Tile} (m : Mid t s h k x) (key : Nat × Nat × Nat × Nat × Nat) :
    (k.reach key).fab = (h.reach key).fab := by
  have e := m.keeps.2.2.2.1
  unfold Hw.reach
  rw [e]
  by_cases hc : h.fab.barriers.contains key = true
  · rw [if_pos hc, if_pos hc, e]
  · rw [if_neg hc, if_neg hc]

theorem barrier_step (ht : t < 1152) (r : TodReady h t s 0x03 d) (ha : admits3 d [4] [0] [0] = true)
    (hc : bits (header d).param 4 11 ≤ (h.reach (barrierKey t s d)).reachedBy (barrierKey t s d)) :
    TodActs h (h.issueTod t 0x03 (todBarrier t)) t s d (fun k => k.reach (barrierKey t s d)) := by
  refine r.acts ht (by decide) _ _ fun k m c => ?_
  unfold todBarrier
  dsimp only
  rw [runs_bind, runs_admit3 ha, runs_bind]
  refine runs_sliceT m _ fun q e => ?_
  rw [runs_bind, runs_baseVal m c, runs_bind, runs_modify, runs_bind, runs_get, runs_need]
  refine ⟨?_, k, m, rfl⟩
  rw [decide_eq_true_eq]
  have e : (k.reach (barrierKey t s d)).reachedBy (barrierKey t s d) = (h.reach (barrierKey t s d)).reachedBy (barrierKey t s d) := by
    unfold Hw.reachedBy
    rw [m.reach]
  rw [← e] at hc
  exact hc

theorem Mid.edgeTokens {k : Hw} {x : Tile} (m : Mid t s h k x) (p e : Nat) : k.edgeTokens p e = h.edgeTokens p e := by
  unfold Hw.edgeTokens
  rw [m.keeps.2.2.1]

theorem Mid.chargeEdges {k g : Hw} {x : Tile} (m : Mid t s h k x) {p : Nat} {cs : SMap Nat} (e : h.chargeEdges p cs = some g) :
    k.chargeEdges p cs = some { k with stn := g.stn } := by
  unfold Hw.chargeEdges at e ⊢
  simp only [m.edgeTokens, m.keeps.2.2.1]
  split at e
  · next hp =>
    rw [if_pos hp]
    cases e
    rw [← m.keeps.2.2.1]
  · next hp =>
    rw [if_neg hp]
    split at e
    · next hc =>
      rw [if_pos hc]
      cases e
      rfl
    · cases e

theorem sobOpRead_step (ht : t < 1152) (r : TodReady h t s 0x04 d) (ha : admits3 d [0] [0] [0] = true)
    (ho : bits (header d).param 0 2 = 2) (hh : h.holdsSob s.pid (bits (header d).param 16 16) = true)
    (g : Hw) (hg : h.chargeEdges s.pid (readPath s.pos) = some g) :
    TodActs h (h.issueTod t 0x04 (todSobOp t)) t s d (readsSob h t d g) := by
  refine r.acts ht (by decide) _ _ fun k m c => ?_
  unfold todSobOp
  dsimp only
  rw [runs_bind, runs_admit3 ha, runs_bind, runs_need, ho]
  refine ⟨rfl, ?_⟩
  rw [runs_bind]
  refine runs_sliceT m _ fun q e => ?_
  rw [if_pos rfl, runs_bind, runs_get]
  dsimp only
  rw [m.chargeEdges hg]
  have hk : ({ k with stn := g.stn } : Hw).holdsSob s.pid (bits (header d).param 16 16) = true := by
    rw [← hh]
    unfold Hw.holdsSob Hw.sobOwner
    have hb : bits (header d).param 16 16 < 65536 := Nat.mod_lt _ (by decide)
    generalize bits (header d).param 16 16 = i at hb ⊢
    show (_ || (_ && k.get _ == _)) = _
    rw [m.only.regs]
    · show 0x1000 + 8 * (i / 64 / 8) < 0x10000; omega
    · show (0x020 : Nat) ≠ 0x028; decide
    · show (0x020 : Nat) ≠ 0x7C0; decide
    · show (0x020 : Nat) ≠ 0x640; decide
    · show (0x020 : Nat) ≠ 0x100 + t; omega
  unfold Hw.sobAccess
  dsimp only
  rw [if_pos hk]
  unfold Hw.sobPerform
  dsimp only
  rw [runs_bind, runs_set, runs_setS]
  refine ⟨k, m, ?_⟩
  unfold readsSob Hw.sob
  dsimp only
  rw [m.keeps.2.1]

theorem sobOpWrite_step (ht : t < 1152) (r : TodReady h t s 0x04 d) (ha : admits3 d [0] [0] [0] = true)
    (ho : bits (header d).param 0 2 < 2) :
    TodDone h (h.issueTod t 0x04 (todSobOp t)) t d fun s' y => y = h.tile t ∧ s' = { s with
      sobs := s.sobs ++ [{ idx := bits (header d).param 16 16, add := bits (header d).param 0 2 == 1,
                           value := ((h.tile t).seq.scalar (bits (header d).param 2 4)).1 }] } := by
  refine r.done ht (by decide) _ _ fun k m c => ?_
  unfold todSobOp
  dsimp only
  rw [runs_bind, runs_admit3 ha, runs_bind, runs_need]
  refine ⟨by rw [decide_eq_true_eq]; omega, ?_⟩
  rw [runs_bind]
  refine runs_sliceT m _ fun q e => ?_
  rw [runs_ite]
  refine ⟨fun h => absurd h (by omega), fun _ => ?_⟩
  rw [runs_bind, runs_get, m.seq]
  have e2 := scalar_clear c (bits (header d).param 2 4)
  revert e2
  generalize (h.tile t).seq.scalar (bits (header d).param 2 4) = y
  obtain ⟨v, st⟩ := y
  intro e2
  dsimp only at e2 ⊢
  subst e2
  rw [runs_bind, runs_useClean, runs_modify]
  exact ⟨rfl, _, _, m.modSliceTo _ fun _ => rfl, rfl, rfl⟩

theorem selftest_step (ht : t < 1152) (r : TodReady h t s 0x07 d) (ha : admits3 d [0] [0] [0] = true)
    (hp : s.pid = 0) (is : List Nat) (hi : is = if bit (header d).param 4 then List.range 16 else [bits (header d).param 0 4]) :
    TodActs h (h.issueTod t 0x07 (todSelftest t)) t s d fun k =>
      let k := is.foldl (fun h i => h.runSection t i) k
      if is.any fun i => (k.tile t).answers i == 2 then k.retireTile t 0 none else k := by
  refine r.acts ht (by decide) _ _ fun k m c => ?_
  unfold todSelftest
  dsimp only
  rw [runs_bind, runs_admit3 ha, runs_bind]
  refine runs_sliceT m _ fun q e => ?_
  rw [runs_bind, runs_need, ← hi]
  refine ⟨by rw [beq_iff_eq]; exact hp, ?_⟩
  rw [runs_bind, runs_modify, runs_bind, runs_get, runs_ite]
  constructor
  · intro hb
    rw [runs_set]
    exact ⟨k, m, by rw [if_pos hb]⟩
  · intro hb
    rw [runs_pure]
    exact ⟨k, m, by rw [if_neg hb]⟩

theorem Mid.rowPieces {k : Hw} {x : Tile} (m : Mid t s h k x) (p : Nat) (rows : List (Nat × Nat)) (a : Acs) :
    k.rowPieces p rows a = h.rowPieces p rows a := by
  unfold Hw.rowPieces
  rw [m.keeps.2.2.2.2.1]

theorem dmaStore_step (ht : t < 1152) (r : TodReady h t s 0x51 d) (ha : admits3 d [1] [0] [2] = true)
    (hr : (opnd d 2).rows = (opnd d 0).d1 * (opnd d 0).d2) (hd : bit (header d).param 0 = false)
    (hl : s.stagedBytes + (opnd d 2).rows * (opnd d 2).rowBytes ≤ s.stageLimit)
    (rows : List (List (Nat × Nat))) (ht2 : h.rowPieces s.pid (dmaRows h t 2 d) .wr = .ok rows) :
    TodDone h (h.issueTod t 0x51 (todDmaStore t)) t d fun s' y => y = h.tile t ∧
      s' = { s with staged := s.staged ++ dmaStaged h t s d } := by
  refine r.done ht (by decide) _ _ fun k m c => ?_
  unfold todDmaStore checkRows
  dsimp only
  rw [runs_bind, runs_admit3 ha, runs_bind, runs_need]
  refine ⟨by rw [beq_iff_eq]; exact hr, ?_⟩
  rw [runs_bind, runs_baseVal m c, runs_bind, runs_addr m c, runs_bind]
  refine runs_sliceT m _ fun q e => ?_
  rw [runs_bind, runs_need]
  refine ⟨by rw [decide_eq_true_eq]; exact hl, ?_⟩
  rw [if_neg (by rw [hd]; exact Bool.false_ne_true), runs_bind, runs_get, m.rowPieces]
  have e2 : h.rowPieces s.pid ((opnd d 2).memRows (((opnd d 2).va + ((h.tile t).seq.scalar (opnd d 2).base).1) % 2 ^ 48)) .wr = .ok rows := ht2
  rw [e2]
  dsimp only
  have key : ∀ (l : List Nat) (s' : Slice) (k : Hw), Mid t s' h k (h.tile t) → s'.pid = s.pid →
      Runs (l.forM fun i => do
        let bs ← rdT t ((opnd d 0).addrIn (h.tile t).seq + (opnd d 0).rowOffs.getD i 0) (opnd d 2).rowBytes
        stage t (stagePieces (((opnd d 2).memRows (((opnd d 2).va + ((h.tile t).seq.scalar (opnd d 2).base).1) % 2 ^ 48)).getD i (0, 0)).1 none bs)) k
      fun _ k' => ∃ s2 y, Mid t s2 h k' y ∧ y = h.tile t ∧ s2 = { s' with staged := s'.staged ++ (l.flatMap fun i =>
        stagePieces ((dmaRows h t 2 d).getD i (0, 0)).1 none
          (sramBytes h t s.pid ((opnd d 0).addrIn (h.tile t).seq + (opnd d 0).rowOffs.getD i 0) (opnd d 2).rowBytes)) } := by
    intro l
    induction l with
    | nil =>
      intro s' k m _
      refine (runs_pure _ _ _).2 ⟨s', _, m, rfl, ?_⟩
      rw [List.flatMap_nil, List.append_nil]
    | cons i l ih =>
      intro s' k m ep
      show Runs (_ >>= fun _ => l.forM _) k _
      rw [runs_bind, runs_bind]
      refine runs_rdT ht m c.sram c.sound _ _ _ fun k m => ?_
      unfold stage
      rw [runs_modify]
      refine (ih _ _ (m.modSliceTo (fun x => { x with staged := x.staged ++ stagePieces (((opnd d 2).memRows (((opnd d 2).va + ((h.tile t).seq.scalar (opnd d 2).base).1) % 2 ^ 48)).getD i (0, 0)).1 none (bytesIn h t (h.tile t).sram s'.pid ((opnd d 0).addrIn (h.tile t).seq + (opnd d 0).rowOffs.getD i 0) (opnd d 2).rowBytes) })
        fun _ => rfl) ep).mono fun _ k' ⟨s2, y, m, ey, es⟩ => ⟨s2, y, m, ey, ?_⟩
      rw [es, ep]
      dsimp only
      rw [List.append_assoc, List.flatMap_cons]
      rfl
  exact key _ s k m rfl

end Sys2Proof.Machine
end

