-- ==== Sys2Proof/Laws/TodDmaSteps.lean ====
section
/-! SUPPORT. What `COMMIT` and `DMA_LOAD` do when they complete. -/

namespace Sys2Proof.Machine

open Sys2Proof

variable {h : Hw} {t : Nat} {s : Slice} {d : List Byte}

/-- Taking tokens at the edges depends on the budgets only, and changes only them. -/
theorem Hw.chargeEdges_congr {a b g : Hw} (hs : a.stn = b.stn) {p : Nat} {cs : SMap Nat} (e : b.chargeEdges p cs = some g) :
    a.chargeEdges p cs = some { a with stn := g.stn } := by
  unfold Hw.chargeEdges Hw.edgeTokens at e ⊢
  rw [hs]
  split at e
  · next hp =>
    rw [if_pos hp]
    cases e
    rw [← hs]
  · next hp =>
    rw [if_neg hp]
    split at e
    · next hc =>
      rw [if_pos hc]
      cases e
      rfl
    · cases e

/-- Taking tokens at the memory ports depends on memory and on the budgets only, and changes only the budgets. -/
theorem Hw.chargeDram_congr {a b g : Hw} (hm : a.mem = b.mem) (hs : a.stn = b.stn) {p : Nat} {runs : List (Nat × Nat)} {wr : Bool}
    (e : b.chargeDram p runs wr = some g) : a.chargeDram p runs wr = some { a with stn := g.stn } := by
  have ec : a.mem.channelCosts wr runs = b.mem.channelCosts wr runs := by rw [hm]
  unfold Hw.chargeDram Hw.dramTokens at e ⊢
  rw [hs, ec]
  split at e
  · next hp =>
    rw [if_pos hp]
    cases e
    rw [← hs]
  · next hp =>
    rw [if_neg hp]
    dsimp only at e ⊢
    split at e
    · next hc =>
      rw [if_pos hc]
      cases e
      rfl
    · cases e

/-- Whether a port is held depends on the stations' queues, on memory and on the slices of the other tiles. -/
theorem Hw.portsBusy_congr {a b : Hw} (hm : a.mem = b.mem) (hf : a.fab = b.fab) {t : Nat} (ho : ∀ u, u ≠ t → a.tile u = b.tile u)
    (pid : Nat) (runs : List (Nat × Nat)) (wr : Bool) : a.portsBusy t pid runs wr = b.portsBusy t pid runs wr := by
  unfold Hw.portsBusy
  rw [hm, hf]
  generalize List.range 1152 = l
  refine congrArg (fun f => List.any _ f) (funext fun e => congrArg (or _) ?_)
  refine congrArg (fun f => List.any _ f) (funext fun u => ?_)
  by_cases hu : u = t
  · subst hu
    simp
  · rw [ho u hu]

/-- Taking tokens for a tile's transfer. -/
theorem Hw.chargeDma_congr {a b g : Hw} (hm : a.mem = b.mem) (hs : a.stn = b.stn) (hf : a.fab = b.fab) {t : Nat}
    (ho : ∀ u, u ≠ t → a.tile u = b.tile u) {pid : Nat} {runs : List (Nat × Nat)} {wr : Bool}
    (e : b.chargeDma t pid runs wr = .ok g) : a.chargeDma t pid runs wr = .ok { a with stn := g.stn } := by
  unfold Hw.chargeDma at e ⊢
  rw [Hw.portsBusy_congr hm hf ho]
  split at e
  · cases e
  · next hb =>
    rw [if_neg hb]
    split at e
    · cases e
    · next x hx =>
      rw [Hw.chargeDram_congr hm hs hx]
      have ec : a.mem.edgeCosts (t / 288) wr runs = b.mem.edgeCosts (t / 288) wr runs := by rw [hm]
      dsimp only
      rw [ec]
      split at e
      · cases e
      · next y hy =>
        have := Hw.chargeEdges_congr (a := { a with stn := x.stn }) (b := x) rfl hy
        rw [this]
        cases e
        rfl

theorem Mid.chargeDma {k g : Hw} {x : Tile} (m : Mid t s h k x) {pid : Nat} {runs : List (Nat × Nat)} {wr : Bool}
    (e : h.chargeDma t pid runs wr = .ok g) : k.chargeDma t pid runs wr = .ok { k with stn := g.stn } :=
  Hw.chargeDma_congr m.keeps.2.2.2.2.1 m.keeps.2.2.1 m.keeps.2.2.2.1 m.only.others e

theorem commit_step (ht : t < 1152) (r : TodReady h t s 0x02 d) (ha : admits3 d [0, 1] [0] [0] = true)
    (hd : s.dup = false) (hf : bit (header d).param 0 = true) (hc : CommitPaid h t s) :
    TodActs h (h.issueTod t 0x02 (todCommit t)) t s d (commits t s) := by
  refine r.acts ht (by decide) _ _ fun k m c => ?_
  unfold todCommit
  dsimp only
  rw [runs_bind, runs_admit3 ha, runs_bind]
  refine runs_sliceT m _ fun q e => ?_
  dsimp only
  rw [hd, Bool.and_false, Bool.false_and, if_neg Bool.false_ne_true, if_pos hf, runs_bind, runs_get,
    if_neg Bool.false_ne_true]
  obtain ⟨g, hg⟩ := hc k m
  have es : k.sliceAt t s = { s with readHalves := q } := by unfold Hw.sliceAt; rw [e]; rfl
  rw [hd] at es
  rw [es] at hg
  rw [hg]
  dsimp only
  rw [runs_set]
  refine ⟨k, m, ?_⟩
  unfold commits
  rw [es, hg]

/-- A `COMMIT` of direct stores pays as the state before the TOD can. -/
theorem CommitPaid.of_direct (hl : ∀ x ∈ s.staged, x.list = none) {g : Hw} (hc : h.chargeCommit t s = .ok g) : CommitPaid h t s := by
  intro k m
  obtain ⟨w, q, et⟩ := m.tile
  have es : k.sliceAt t s = { s with readHalves := q } := by unfold Hw.sliceAt; rw [et]; rfl
  have er : k.stagedRuns t s.pid s.staged = h.stagedRuns t s.pid s.staged := by
    unfold Hw.stagedRuns
    rw [m.keeps.2.2.2.2.1]
    unfold List.flatMap
    refine congrArg List.flatten (List.map_congr_left fun x hx => ?_)
    rw [hl x hx]
  rw [es]
  unfold Hw.chargeCommit at hc ⊢
  dsimp only at hc ⊢
  rw [er]
  split at hc
  · cases hc
  · next y hy =>
    rw [m.chargeDma hy]
    dsimp only
    split at hc
    · next hs =>
      rw [if_pos hs]
      exact ⟨_, rfl⟩
    · next hs =>
      rw [if_neg hs]
      unfold Hw.chargeSobs at hc ⊢
      dsimp only at hc ⊢
      split at hc
      · cases hc
      · next z hz =>
        split at hz
        · cases hz
        · next z' hz' =>
          rw [Hw.chargeEdges_congr (a := { k with stn := y.stn }) (b := y) rfl hz']
          exact ⟨_, rfl⟩

theorem commitPlain_step (ht : t < 1152) (r : TodReady h t s 0x02 d) (ha : admits3 d [0, 1] [0] [0] = true)
    (hs : (bit (header d).param 1 && s.dup && (opnd d 0).kind == 1) = false) (hf : bit (header d).param 0 = false) :
    TodDone h (h.issueTod t 0x02 (todCommit t)) t d fun s' y => s' = s ∧ y = h.tile t := by
  refine r.done ht (by decide) _ _ fun k m c => ?_
  unfold todCommit
  dsimp only
  rw [runs_bind, runs_admit3 ha, runs_bind]
  refine runs_sliceT m _ fun q e => ?_
  dsimp only
  rw [hs, if_neg Bool.false_ne_true, if_neg (by rw [hf]; exact Bool.false_ne_true), runs_pure]
  exact ⟨s, _, m, rfl, rfl⟩

theorem Hw.slice_wrSram (h : Hw) (t pid a : Nat) (bs : List SByte) : ((h.wrSram t pid a bs).tile t).slice = (h.tile t).slice := by
  unfold Hw.wrSram
  generalize granules a bs.length = gs
  induction gs generalizing h with
  | nil => rfl
  | cons g gs ih =>
    rw [List.foldl_cons, ih]
    unfold Hw.wrGranule
    split
    · dsimp only
      unfold Hw.pokeSram
      rw [Hw.modTile_tile_same]
    · exact congrArg Tile.slice (tile_of_mute (Hw.mute_event _ _ _ _ _) t)

theorem Hw.tile_dmaRead (h : Hw) (pid : Nat) (ps : List (Nat × Nat)) (t : Nat) : ((h.dmaRead pid ps).2).tile t = h.tile t := by
  induction ps generalizing h with
  | nil => rfl
  | cons p ps ih =>
    obtain ⟨a, n⟩ := p
    unfold Hw.dmaRead
    have e := Hw.calm_portRead h pid a n
    revert e
    generalize h.portRead pid a n = x
    obtain ⟨bs, st, h1⟩ := x
    intro e
    dsimp only at e ⊢
    have := ih h1
    revert this
    generalize h1.dmaRead pid ps = y
    obtain ⟨rest, h2⟩ := y
    intro e2
    dsimp only at e2 ⊢
    rw [e2]
    have := (Hw.calm_keeps e).2.2.2.2.2.2.2.1
    unfold Hw.tile
    rw [this]

theorem runs_arrive (od : Nat) (offs : List Nat) (rows : List (List (Nat × Nat))) (l : List Nat) (pid : Nat) (k : Hw)
    (acc : List (Nat × List SByte)) (hk : ∃ s1 : Slice, (k.tile t).slice = some s1 ∧ s1.pid = pid) :
    Runs (l.mapM fun i => do
      let (bs, h) := (← get).dmaRead pid (rows.getD i [])
      set h
      wrRow t (od + offs.getD i 0) bs) k fun ws k' =>
      (∃ s1 : Slice, (k'.tile t).slice = some s1 ∧ s1.pid = pid) ∧
      l.foldl (fun (e : List (Nat × List SByte) × Hw) i =>
        let (bs, k) := e.2.dmaRead pid (rows.getD i [])
        (e.1 ++ [(od + offs.getD i 0, bs)], k.wrSram t pid (od + offs.getD i 0) bs)) (acc, k) = (acc ++ ws, k') := by
  induction l generalizing k acc with
  | nil => rw [List.mapM_nil]; exact (runs_pure _ _ _).2 ⟨hk, by rw [List.append_nil]; rfl⟩
  | cons i l ih =>
    rw [List.mapM_cons]
    simp only [List.foldl_cons]
    obtain ⟨s1, e1, e2⟩ := hk
    have et := Hw.tile_dmaRead k pid (rows.getD i []) t
    rw [runs_bind, runs_bind, runs_get]
    revert et
    generalize k.dmaRead pid (rows.getD i []) = x
    obtain ⟨bs, k1⟩ := x
    intro et
    dsimp only at et ⊢
    rw [runs_bind, runs_set]
    unfold wrRow wrT sliceT
    rw [runs_bind, runs_bind, runs_bind, runs_get, et, e1]
    dsimp only
    rw [runs_pure, runs_modify, runs_pure, runs_bind, e2]
    refine (ih (k1.wrSram t pid (od + offs.getD i 0) bs) (acc ++ [(od + offs.getD i 0, bs)]) ⟨s1, ?_, e2⟩).mono
      fun ws k' ⟨a, b⟩ => ?_
    · rw [Hw.slice_wrSram, et, e1]
    · rw [runs_pure]
      refine ⟨a, ?_⟩
      rw [b, List.append_assoc]
      rfl

theorem dmaLoad_step (ht : t < 1152) (r : TodReady h t s 0x50 d) (ha : admits3 d [2] [0] [1] = true)
    (hr : (opnd d 0).rows = (opnd d 2).d1 * (opnd d 2).d2) (hd : bit (header d).param 0 = false)
    (rows : List (List (Nat × Nat))) (ht2 : h.rowPieces s.pid (dmaRows h t 0 d) .rd = .ok rows) (h2 : Hw)
    (hc : h.chargeDma t s.pid rows.flatten false = .ok h2) :
    TodActs h (h.issueTod t 0x50 (todDmaLoad t)) t s d fun k =>
      dmaArrive t s.pid ((opnd d 2).addrIn (h.tile t).seq) (opnd d 2).rowOffs rows { k with stn := h2.stn } := by
  refine r.acts ht (by decide) _ _ fun k m c => ?_
  unfold todDmaLoad checkRows
  dsimp only
  rw [runs_bind, runs_admit3 ha, runs_bind, runs_need]
  refine ⟨by rw [beq_iff_eq]; exact hr, ?_⟩
  rw [runs_bind, runs_baseVal m c, runs_bind, runs_addr m c, runs_bind]
  refine runs_sliceT m _ fun q e => ?_
  dsimp only
  rw [if_neg (by rw [hd]; exact Bool.false_ne_true), runs_bind, runs_get, m.rowPieces]
  have e2 : h.rowPieces s.pid ((opnd d 0).memRows (((opnd d 0).va + ((h.tile t).seq.scalar (opnd d 0).base).1) % 2 ^ 48)) .rd = .ok rows := ht2
  rw [e2]
  dsimp only
  rw [runs_bind]
  unfold chargeT
  rw [runs_bind, runs_get, m.chargeDma hc]
  dsimp only
  rw [runs_set, runs_bind]
  refine (runs_arrive (t := t) ((opnd d 2).addrIn (h.tile t).seq) (opnd d 2).rowOffs rows _ s.pid ({ k with stn := h2.stn } : Hw) []
    ⟨_, e, rfl⟩).mono fun ws k' ⟨⟨s1, e1, e2⟩, f⟩ => ?_
  unfold sealT sliceT
  rw [runs_bind, runs_bind, runs_get, e1]
  dsimp only
  rw [runs_pure, runs_modify, e2]
  refine ⟨k, m, ?_⟩
  unfold dmaArrive
  dsimp only at f ⊢
  rw [f, List.nil_append]

end Sys2Proof.Machine
end

