-- ==== Sys2Proof/Laws/Walk.lean ====
section
/-! SUPPORT. The walk of the four levels of page tables (R175) finds the leaf that translation uses. -/

namespace Sys2Proof.Machine

/-- A table pointer is valid and no leaf. -/
theorem pointer_bits (n : Nat) : bit (1 + 0x1000 * n) 0 = true ∧ bit (1 + 0x1000 * n) 1 = false := by
  constructor
  · simp [bit, Nat.testBit_zero]; omega
  · simp [bit, Nat.testBit_succ, Nat.testBit_zero]; omega

/-- An entry found in a map is one of its entries. -/
theorem SMap.mem_of_find {α : Type} : ∀ {m : SMap α} {k : Nat} {v : α}, m.find k = some v → (k, v) ∈ m
  | (j, w) :: m, k, v, h => by
    simp only [SMap.find] at h
    split at h
    · next e => subst e; cases h; exact List.mem_cons_self
    · exact List.mem_cons_of_mem _ (SMap.mem_of_find h)

/-- The leaves of a context are valid (R176). -/
def Ctx.valid (x : Ctx) : Prop := ∀ e, e ∈ x.l1 ∨ e ∈ x.l0 → bit e.2 0 = true ∧ bit e.2 1 = true

theorem Ctx.below_l1 {x : Ctx} {va e : Nat} (h : x.l1.find (va / 2 ^ 21) = some e) :
    x.below 3 (va / 2 ^ 39) = true ∧ x.below 2 (va / 2 ^ 30) = true := by
  have m := SMap.mem_of_find h
  constructor <;> simp only [Ctx.below, Bool.or_eq_true, Bool.and_eq_true, List.any_eq_true] <;>
    exact .inr ⟨by decide, _, m, by simp only [beq_iff_eq, Nat.div_div_eq_div_mul]; norm_num⟩

theorem Ctx.below_l0 {x : Ctx} {va e : Nat} (h : x.l0.find (va / 2 ^ 12) = some e) :
    x.below 3 (va / 2 ^ 39) = true ∧ x.below 2 (va / 2 ^ 30) = true ∧ x.below 1 (va / 2 ^ 21) = true := by
  have m := SMap.mem_of_find h
  refine ⟨?_, ?_, ?_⟩ <;> simp only [Ctx.below, Bool.or_eq_true, List.any_eq_true] <;>
    exact .inl ⟨_, m, by simp only [beq_iff_eq, Nat.div_div_eq_div_mul]; norm_num⟩

/-- An entry that is no leaf of level 1 is not valid or a pointer. -/
theorem pointer_or_zero (b : Bool) (n : Nat) :
    bit (if b then 1 + 0x1000 * n else 0) 0 = b ∧ bit (if b then 1 + 0x1000 * n else 0) 1 = false := by
  cases b
  · simp [bit]
  · exact pointer_bits n

/-- The walk through a context's tables finds exactly its leaf (R175). -/
theorem Mem.walk_eq_leaf {m : Mem} {c : Nat} (v : (m.ctx c).valid) (va : Nat) : m.walk c va = m.leaf c va := by
  have p3 := pointer_or_zero ((m.ctx c).below 3 (va / 2 ^ 39)) (Config.tablePage c 2 (va / 2 ^ 39)).toNat
  have p2 := pointer_or_zero ((m.ctx c).below 2 (va / 2 ^ 30)) (Config.tablePage c 1 (va / 2 ^ 30)).toNat
  have p1 := pointer_or_zero ((m.ctx c).below 1 (va / 2 ^ 21)) (Config.tablePage c 0 (va / 2 ^ 21)).toNat
  have e3 : m.entry c 3 (va / 2 ^ 39) = if (m.ctx c).below 3 (va / 2 ^ 39) then 1 + 0x1000 * (Config.tablePage c 2 (va / 2 ^ 39)).toNat else 0 := rfl
  have e2 : m.entry c 2 (va / 2 ^ 30) = if (m.ctx c).below 2 (va / 2 ^ 30) then 1 + 0x1000 * (Config.tablePage c 1 (va / 2 ^ 30)).toNat else 0 := rfl
  have e1 : m.entry c 1 (va / 2 ^ 21) = ((m.ctx c).l1.find (va / 2 ^ 21)).getD
      (if (m.ctx c).below 1 (va / 2 ^ 21) then 1 + 0x1000 * (Config.tablePage c 0 (va / 2 ^ 21)).toNat else 0) := rfl
  have e0 : m.entry c 0 (va / 2 ^ 12) = ((m.ctx c).l0.find (va / 2 ^ 12)).getD 0 := rfl
  have lf : m.leaf c va = match (m.ctx c).l1.find (va / 2 ^ 21) with
      | some e => some (e, 0x20_0000)
      | none => ((m.ctx c).l0.find (va / 2 ^ 12)).map fun e => (e, 0x1000) := rfl
  simp only [Mem.walk, lf, e3, e2, e1, e0, p3, p2]
  cases h1 : (m.ctx c).l1.find (va / 2 ^ 21) with
  | some e =>
    have b := Ctx.below_l1 h1
    have k := v _ (.inl (SMap.mem_of_find h1))
    simp only [b.1, b.2, k.1, k.2, Option.getD_some, Option.getD_none, Bool.not_true, Bool.not_false,
      Bool.or_false, Bool.false_or, Bool.or_true, Bool.true_or, if_true, Bool.false_eq_true, if_false,
        Bool.and_self, Bool.false_and, Option.map_some, Option.map_none, ite_self]
  | none =>
    cases h0 : (m.ctx c).l0.find (va / 2 ^ 12) with
    | some e =>
      have b := Ctx.below_l0 h0
      have k := v _ (.inr (SMap.mem_of_find h0))
      simp only [b.1, b.2.1, b.2.2, pointer_bits, k.1, k.2, Option.getD_some, Option.getD_none, Bool.not_true,
        Bool.not_false, Bool.or_false, Bool.false_or, Bool.or_true, Bool.true_or, if_true, Bool.false_eq_true,
          if_false, Bool.and_self, Bool.false_and, Option.map_some, Option.map_none, ite_self]
    | none =>
      have z : bit 0 0 = false := rfl
      simp only [p1, z, Option.getD_some, Option.getD_none, Bool.not_true, Bool.not_false, Bool.or_false,
        Bool.false_or, Bool.or_true, Bool.true_or, if_true, Bool.false_eq_true, if_false, Bool.and_self,
          Bool.false_and, Option.map_some, Option.map_none, ite_self]

end Sys2Proof.Machine
end

