-- ==== Sys2Proof/Tests/Slice0.lean ====
section
/-! SUPPORT. Tests of this model: ill-formed commands that WellFormed refuses, the manual's worked examples and tables,
and for each statement with hypotheses a theorem that shows, clause by clause, a state and operands that meet them all
together. -/

namespace Sys2Proof.Tests

open Sys2Proof Sys2Proof.Machine

set_option Elab.async false

/-! ## Ill-formed commands, worked examples and tables -/

/-- Receives a packet whose first byte is not the opcode of its row. -/
theorem test_wf_packet_opcode : Instr.wellFormed (.echo ⟨0, 0, 0, none⟩ (zeros 64)) = false := by decide +kernel

/-- A packet of a length that is no whole chunk. -/
theorem test_wf_packet_length : Instr.wellFormed (.nop ⟨0, 0, 0, none⟩ (zeros 63)) = false := by decide +kernel

/-- A flit with 63 payload bytes. -/
theorem test_wf_flit : Instr.wellFormed (.flitRoute 0 0 (some ⟨0, zeros 63⟩)) = false := by decide +kernel

/-- A memory write that carries fewer bytes than it says. -/
theorem test_wf_mem : Instr.wellFormed (.memRequestArrival 0 ⟨0, 0, 0, true, 0, 64, zeros 32, false⟩) = false := by decide +kernel

/-- A sweep of 127 Vref codes. -/
theorem test_wf_sweep : Instr.wellFormed (.trainingComplete 0 ⟨List.replicate 127 0, List.replicate 128 0⟩
    ⟨List.replicate 128 0, List.replicate 128 0⟩) = false := by decide +kernel

/-- Seven edge modules. -/
theorem test_wf_bring_up : Instr.wellFormed (.moduleWarm ⟨[], List.replicate 7 0, 0, true⟩) = false := by decide +kernel

/-- An identity of 17 bytes. -/
theorem test_wf_identity : Instr.wellFormed (.cameraIdentityRead 0 (some (zeros 17))) = false := by decide +kernel

/-- An Ethernet frame shorter than its addresses and type. -/
theorem test_wf_ethernet : Instr.wellFormed (.lidarFrame 0 ⟨true, false, zeros 13⟩ 0) = false := by decide +kernel

/-- 97 temperatures. -/
theorem test_wf_temperatures : Instr.wellFormed (.temperatureSample (List.replicate 97 0)) = false := by decide +kernel

/-- A peer frame longer than an Ethernet frame. -/
theorem test_wf_peer : Instr.wellFormed (.peerFrame 0 (.frame true (zeros 9217))) = false := by decide +kernel

/-- A read of a core that carries data. -/
theorem test_wf_core_read : Instr.wellFormed (.apcMemoryRequest ⟨0, 3, 0, 8, [1], false⟩) = false := by decide +kernel

/-- A FetchAdd of 5 bytes. -/
theorem test_wf_tlp : Instr.wellFormed (.pcieTlp (.mem ⟨0, 0, 2, 0, 0, zeros 5, false⟩)) = false := by decide +kernel

/-- A message-signalled interrupt of one byte. -/
theorem test_wf_msi : Instr.wellFormed (.pcieMsiWrite 0 0 [1#8]) = false := by decide

/-- A block of an image that is too short. -/
theorem test_wf_image : Instr.wellFormed (.imageFrame ⟨0, 0, 0, zeros 63, false⟩) = false := by decide +kernel

/-- A long packet of more bytes than its word count can name. -/
theorem test_wf_long_packet : Instr.wellFormed (.longPacket 0 ⟨0, 0, 0, false, false, zeros 65536⟩) = false := by decide +kernel

/-- The 64 bytes of TOD 0 of the worked stroke program (03_tile.md). -/
def workedTod : List Byte :=
  [0x10, 0x08, 0x1E, 0x00, 0x33, 0x00, 0x00, 0x00, 0x00, 0x00, 0x00, 0x00, 0x00, 0x00, 0x00, 0x00,
   0x00, 0x80, 0x00, 0x01, 0x00, 0x04, 0x20, 0x00, 0x01, 0x00, 0x00, 0x04, 0x00, 0x00, 0x00, 0x00,
   0x00, 0x00, 0x01, 0x01, 0x00, 0x04, 0x20, 0x00, 0x01, 0x00, 0x00, 0x04, 0x00, 0x00, 0x00, 0x00,
   0x00, 0x00, 0x00, 0x03, 0x20, 0x00, 0x20, 0x00, 0x00, 0x00, 0x00, 0x00, 0x00, 0x00, 0x00, 0x00]

/-- Its header: MATMUL, ACC_HOLD, LEVEL 30, formats 0x3 and 0x3. -/
theorem test_worked_header : (header workedTod).opc = 0x10 ∧ (header workedTod).hold = true ∧ (header workedTod).keep = false ∧
    (header workedTod).level = 30 ∧ (header workedTod).fmtA = 3 ∧ (header workedTod).fmtB = 3 := by decide +kernel

/-- Its operands: SRAM at 0x8000, 1,024 by 32, STRIDE1 1,024; SRAM at 0x10000; accumulators 0, 32 by 32. -/
theorem test_worked_operands :
    ((opnd workedTod 0).kind, (opnd workedTod 0).offset, (opnd workedTod 0).d0, (opnd workedTod 0).d1, (opnd workedTod 0).s1) =
      (1, 0x8000, 1024, 32, 1024) ∧
    ((opnd workedTod 1).kind, (opnd workedTod 1).offset) = (1, 0x10000) ∧
    ((opnd workedTod 2).kind, (opnd workedTod 2).acc, (opnd workedTod 2).d0, (opnd workedTod 2).d1) = (3, 0, 32, 32) := by decide +kernel

/-- The largest finite FP8 values are 448 and 57,344, and 0x7F of E4M3 is a NaN (R110). -/
theorem test_fp8_values : Val.lt (elemVal 3 0x7E) (.num false 448 0) = false ∧ Val.lt (.num false 448 0) (elemVal 3 0x7E) = false ∧
    Val.lt (elemVal 4 0x7B) (.num false 57344 0) = false ∧ Val.lt (.num false 57344 0) (elemVal 4 0x7B) = false ∧
    elemVal 3 0x7F = .nan := by decide +kernel

/-- Two 4-bit elements a byte, the first in bits 3:0; four 6-bit elements in 3 bytes (R111). -/
theorem test_packing : unpack 0 2 [0x21] = [1, 2] ∧ unpack 5 4 [0x41, 0x20, 0x0C] = [1, 1, 2, 3] := by decide +kernel

/-- The worked stencil's windows refill 5,120, 2,560 and 512 bytes a channel (02_strokes_coats_stencils.md). -/
theorem test_dram_refill : [327680, 163840, 32768].map (fun b => dramRefill b 64) = [5120, 2560, 512] := by decide +kernel

/-- The worked example of due strokes (08_models_residency_deadlines.md): with window 0 at strokes 10,000 to 35,999 and a
deadline of 39,500, R = 20,000 is still possible after stroke 15,999 and no longer after stroke 16,000. -/
theorem test_due_strokes :
    let s : Stencil := { Stencil.firmware with coatLen := 50000, wins := [⟨10000, 26000, 0, 0, 0, 0, 400, 0xFFFF⟩] }
    s.winsBetween 0 16000 39500 = 20000 ∧ s.winsBetween 0 16001 39500 = 19999 ∧ s.winsBetween 0 30000 39500 = 6000 := by
  decide +kernel

/-- CRC-32C of the digits 1 to 9, the check value that is published for the code (log entry 6). -/
theorem test_crc : crc32c ((List.range 9).map fun i => BitVec.ofNat 8 (0x31 + i)) = 0xE3069283 := by decide +kernel

/-! ## The parts of a result -/

/-- The value of a result that is `.ok`. -/
def okGet {ε α : Type} : (e : Except ε α) → e.toBool = true → α
  | .ok a, _ => a

/-- The reason of a result that is `.error`. -/
def errGet {ε α : Type} : (e : Except ε α) → e.toBool = false → ε
  | .error a, _ => a

/-- A value that is present is `some` of it. -/
theorem w_some {α : Type} {o : Option α} (h : o.isSome = true) : o = some (o.get h) := (Option.some_get h).symm

/-- A result that succeeds is `.ok` of its value. -/
theorem w_ok {ε α : Type} {e : Except ε α} (h : e.toBool = true) : e = .ok (okGet e h) := by
  cases e with
  | ok a => rfl
  | error a => cases h

/-- A result that fails is `.error` of its reason. -/
theorem w_error {ε α : Type} {e : Except ε α} (h : e.toBool = false) : e = .error (errGet e h) := by
  cases e with
  | ok a => cases h
  | error a => rfl

/-- A pair whose first part succeeds. -/
theorem w_okFst {ε α β : Type} {p : Except ε α × β} (h : p.1.toBool = true) : p = (.ok (okGet p.1 h), p.2) := by
  obtain ⟨e, b⟩ := p
  exact congrArg (·, b) (w_ok h)

/-- A pair whose first part fails. -/
theorem w_errFst {ε α β : Type} {p : Except ε α × β} (h : p.1.toBool = false) : p = (.error (errGet p.1 h), p.2) := by
  obtain ⟨e, b⟩ := p
  exact congrArg (·, b) (w_error h)

/-- A pair whose first part succeeds with a given flag. -/
theorem w_okFlag {ε α β : Type} {p : Except ε (α × Bool) × β} {v : Bool} (h : p.1.toBool = true) (hv : (okGet p.1 h).2 = v) :
    p = (.ok ((okGet p.1 h).1, v), p.2) := by
  subst hv; exact w_okFst h

/-- A pair whose first part is present. -/
theorem w_someFst {α β : Type} {p : Option α × β} (h : p.1.isSome = true) : p = (some (p.1.get h), p.2) := by
  obtain ⟨o, b⟩ := p
  exact congrArg (·, b) (w_some h)

/-- A pair whose second part is present. -/
theorem w_someSnd {α β : Type} {p : β × Option α} (h : p.2.isSome = true) : p = (p.1, some (p.2.get h)) := by
  obtain ⟨b, o⟩ := p
  exact congrArg (b, ·) (w_some h)

/-- A pair with a given first part. -/
theorem w_fst {α β : Type} {p : α × β} {a : α} (h : p.1 = a) : p = (a, p.2) := by
  subst h; rfl

/-- A list of one element. -/
theorem w_single {α : Type} {l : List α} (h : l.length = 1) : l = [l[0]] := by
  match l, h with
  | [a], _ => rfl

/-- A list that is not empty. -/
theorem w_cons {α : Type} {l : List α} (h : l ≠ []) : l = l.head h :: l.tail := (List.cons_head_tail h).symm

/-- A pair of its parts. -/
theorem w_pair {α β : Type} {p : α × β} : p = (p.1, p.2) := rfl

/-- A triple of its parts. -/
theorem w_triple {α β γ : Type} {p : α × β × γ} : p = (p.1, p.2.1, p.2.2) := rfl

/-- A pair that is present. -/
theorem w_somePair {α β : Type} {o : Option (α × β)} (h : o.isSome = true) : o = some ((o.get h).1, (o.get h).2) := w_some h

/-- A triple that is present. -/
theorem w_someTriple {α β γ : Type} {o : Option (α × β × γ)} (h : o.isSome = true) :
    o = some ((o.get h).1, (o.get h).2.1, (o.get h).2.2) := w_some h

/-- What is absent is no value of any form. -/
theorem w_none {α β : Type} {o : Option α} (h : o.isNone = true) (f : β → α) : ∀ t, o ≠ some (f t) := by
  intro t e; rw [e] at h; cases h

/-- The stencil that was kept. -/
def keptStencil : Option Kept → Option Stencil
  | some (.stencil s) => some s
  | _ => none

/-- The partition record that was kept. -/
def keptPart : Option Kept → Option CreateRec
  | some (.part r) => some r
  | _ => none

/-- The stream that was kept. -/
def keptStream : Option Kept → Option (Nat × Stream)
  | some (.stream n x) => some (n, x)
  | _ => none

/-- A pair whose first part is a kept stencil. -/
theorem w_stencil {β : Type} {p : Option Kept × β} (h : (keptStencil p.1).isSome = true) :
    p = (some (.stencil ((keptStencil p.1).get h)), p.2) := by
  obtain ⟨o, b⟩ := p
  cases o with
  | none => cases h
  | some x =>
    cases x with
    | stencil s => rfl
    | _ => cases h

/-- A pair whose first part is a kept partition record. -/
theorem w_part {β : Type} {p : Option Kept × β} (h : (keptPart p.1).isSome = true) :
    p = (some (.part ((keptPart p.1).get h)), p.2) := by
  obtain ⟨o, b⟩ := p
  cases o with
  | none => cases h
  | some x =>
    cases x with
    | part r => rfl
    | _ => cases h

/-- A pair whose first part is a kept stream. -/
theorem w_stream {β : Type} {p : Option Kept × β} (h : (keptStream p.1).isSome = true) :
    p = (some (.stream ((keptStream p.1).get h).1 ((keptStream p.1).get h).2), p.2) := by
  obtain ⟨o, b⟩ := p
  cases o with
  | none => cases h
  | some x =>
    cases x with
    | stream n x => rfl
    | _ => cases h

/-- A pair whose first part succeeds with a given first flag. -/
theorem w_okMid {ε α γ β : Type} {p : Except ε (α × Bool × γ) × β} {v : Bool} (h : p.1.toBool = true) (hv : (okGet p.1 h).2.1 = v) :
    p = (.ok ((okGet p.1 h).1, v, (okGet p.1 h).2.2), p.2) := by
  subst hv; exact w_okFst h

/-- What is absent is no value that is present. -/
theorem w_vacant {α : Type} {o : Option α} {x : α} {P : Prop} (h : o.isNone = true) (e : o = some x) : P := by
  subst e; cases h

/-- A result that fails is `.error` of the two parts of its reason. -/
theorem w_errorPair {α β γ : Type} {e : Except (α × β) γ} (h : e.toBool = false) :
    e = .error ((errGet e h).1, (errGet e h).2) := w_error h

/-- A pair with a given second part. -/
theorem w_snd {α β : Type} {p : α × β} {b : β} (h : p.2 = b) : p = (p.1, b) := by
  subst h; rfl

/-! ## States and operands -/

/-- Whether a packet row is ready, computed. -/
def readyB (h : Hw) (sp : OpSpec) (q : QRef) (p : Packet) (qu : Queue) : Bool :=
  let k := cameHw h q qu (rowPacket sp.opc p)
  let c := acceptedCmd k q qu (rowPacket sp.opc p)
  let a := sp.onAccept (k.take c (slotsOf (rowPacket sp.opc p))) c
  h.sequencing && h.cpRuns q.cp.val && ! h.quiet && ! (h.part q.pid.val).any (·.destroying) &&
  decide (h.queue q.pid.val q.queue.val = some qu) && (h.waiting q.pid.val q.queue.val).isNone && ! h.isHeld q &&
  (h.presented q qu (rowPacket sp.opc p)).isSome && (sp.check k (mkCmd k q qu (rowPacket sp.opc p) 0)).isNone &&
  (superseded c.opc c.port q.rival).isNone && decide (a.cmd? c.pid c.queue c.num = some c) && a.canBegin c

/-- The command that a packet row takes. -/
def cmdOf (h : Hw) (sp : OpSpec) (q : QRef) (p : Packet) (qu : Queue) : Cmd :=
  acceptedCmd (cameHw h q qu (rowPacket sp.opc p)) q qu (rowPacket sp.opc p)

/-- A row that is ready by computation meets the hypotheses of the packet statements. -/
theorem acting_of {h : Hw} {sp : OpSpec} {q : QRef} {p : Packet} {qu : Queue} (e : readyB h sp q p qu = true) :
    Acting h sp q p qu (cmdOf h sp q p qu) (begunHw h sp q qu (rowPacket sp.opc p)) := by
  unfold readyB at e
  simp only [Bool.and_eq_true, Bool.not_eq_true', decide_eq_true_eq, Option.isNone_iff_eq_none] at e
  obtain ⟨⟨⟨⟨⟨⟨⟨⟨⟨⟨⟨e1, e2⟩, e3⟩, e4⟩, e5⟩, e6⟩, e7⟩, e8⟩, e9⟩, e10⟩, e11⟩, e12⟩ := e
  exact ⟨⟨e1, e2, e3, e4, e5, e6, e7, e8, rfl, e9, e10, e11, e12⟩, rfl⟩

/-- Whether a packet row is taken, computed. -/
def takingB (h : Hw) (sp : OpSpec) (q : QRef) (p : Packet) (qu : Queue) : Bool :=
  let k := cameHw h q qu (rowPacket sp.opc p)
  let c := acceptedCmd k q qu (rowPacket sp.opc p)
  h.presents q && decide (h.queue q.pid.val q.queue.val = some qu) && ! h.isHeld q &&
  (h.presented q qu (rowPacket sp.opc p)).isSome && (sp.check k (mkCmd k q qu (rowPacket sp.opc p) 0)).isNone &&
  (superseded c.opc c.port q.rival).isNone

/-- A row that is taken by computation meets the hypotheses of the statements on acceptance. -/
theorem taking_of {h : Hw} {sp : OpSpec} {q : QRef} {p : Packet} {qu : Queue} (e : takingB h sp q p qu = true) :
    Taking h sp q p qu (cmdOf h sp q p qu) (takenHw h sp q qu (rowPacket sp.opc p)) := by
  unfold takingB at e
  simp only [Bool.and_eq_true, Bool.not_eq_true', decide_eq_true_eq, Option.isNone_iff_eq_none] at e
  obtain ⟨⟨⟨⟨⟨e1, e2⟩, e3⟩, e4⟩, e5⟩, e6⟩ := e
  exact ⟨e1, e2, e3, e4, rfl, e5, e6, rfl⟩

/-- A submission queue of 256 slots with one packet waiting. -/
def queueAt (n : Nat) : Queue :=
  { desc := { sqVa := 0x10000 * n, cqVa := 0x10000 * n + 0x4000, mirrorVa := 0x10000 * n + 0x8000, log2Size := 8, vector := 0 },
    sqTail := 8, sqHead := 0, cqHead := 0, nTaken := 0, nStarted := 0, nPosted := 0, lastSeq := 0, mirror := 0,
      fetchedSlots := 0, sobSeq := 0 }

/-- A partition of a class with every right and one queue. -/
def partOf (cls : Nat) : Part :=
  { cls := cls, rights := 255, jnlQuota := 100, sheetQuota := 100, seqQuota := 100, nextSeq := 1, destroying := false, shed := false, allot := none, queues := [(0, queueAt 0)] }

/-- The reset state with power, three partitions and stroke 100. -/
def run : Hw :=
  { (Hw.reset.put F.PWR_DOMAIN_ON (2^48-1)).put F.TIME_COUNT_STROKE_COUNT 100 with parts := [(0, partOf 0), (1, partOf 0), (2, partOf 1)] }

/-- Queue 0 of partition 0. -/
def Q : QRef := {pid := 0, queue := 0, cp := 0, rival := none}

/-- Queue 0 of partition 1. -/
def Q1 : QRef := {pid := 1, queue := 0, cp := 0, rival := none}

/-- A packet of 64 bytes, zero but for the bytes listed. -/
def pk (l : List (Nat × Nat)) : Packet := (List.range 64).map fun i => BitVec.ofNat 8 ((l.find? fun e => e.1 ==
  i).elim 0 (·.2))

/-- Changes the system part. -/
def sysOf (f : Sys → Sys) (h : Hw) : Hw := { h with sys := f h.sys }

/-- Changes the stencils. -/
def stnOf (f : StnSt → StnSt) (h : Hw) : Hw := { h with stn := f h.stn }

/-- Changes the hub. -/
def trvOf (f : TrvHub → TrvHub) (h : Hw) : Hw := { h with trv := f h.trv }

/-- Changes the configuration. -/
def cfgOf (f : Cfg → Cfg) (h : Hw) : Hw := { h with cfg := f h.cfg }

/-- Changes the fabric. -/
def fabOf (f : Fabric → Fabric) (h : Hw) : Hw := { h with fab := f h.fab }

/-- Changes the group. -/
def grpOf (f : Group → Group) (h : Hw) : Hw := sysOf (fun s => { s with grp := f s.grp }) h

/-- The state at a stroke. -/
def atTime (n : Nat) (h : Hw) : Hw := h.put F.TIME_COUNT_STROKE_COUNT n

/-- A frame that a partition owns. -/
def ownFrame (p : Nat) : Frame :=
  { owner := p, set := 0, shared := false, state := 3, striped := false, firmware := false }

/-- Sixteen leaves that map 64 KiB pages to one frame. -/
def leaves (f : Nat) : SMap Nat := (List.range 16).map fun i => (i, 0x21F + f * 0x10000 + i * 0x1000)

/-- The state with the first MiB mapped for partitions 0 and 1. -/
def mapped (h : Hw) : Hw :=
  { h with mem := { h.mem with frames := [(16, ownFrame 0), (17, ownFrame 1)], ctxs := [(0, ⟨[], leaves 16⟩), (1, ⟨[], leaves 17⟩)] } }

/-- A running state in which the command processor serves both partitions. -/
def served : Hw := stnOf (fun s => { s with cpOps := [(0, 8), (1, 8)] }) (mapped run)

/-- A fetched packet. -/
def fetchedOf (p : Nat) (pkt : List Byte) (st : Bool) (e : Option (Nat × Nat)) : Fetched :=
  { pid := p, queue := 0, cp := 0, slot := 0, slots := 1, pkt := pkt, stained := st, extStained := st, fault := e, grantAt := 100 }

/-- The state with one fetched packet. -/
def withFetched (f : Fetched) : Hw := { served with fetched := [f] }

/-- A begun command, with or without its entry. -/
def cmd0 (e : Option Entry) : Cmd :=
  { pid := 0, queue := 0, num := 0, seq := 1, slot := 0, port := 2, pkt := zeros 64, acceptAt := 50, begun := true, finishAt := 60, entry := e, posted := false, recs := [0] }

/-- A completion entry without a fault. -/
def entry0 : Entry :=
  { status := 0, relocated := false, inexact := false, overflow := false, duplexChecked := false, queue := 0, tag := 0, seq := 1, slot := 0, result := 0, doneAt := 60, detail := 0 }

/-- A state with a shadow stencil and an agreed boundary. -/
def swapping : Hw := stnOf (fun s => { s with shadow := some Stencil.firmware, swapAt := some 16 }) ((atTime 2000
  run).put F.MOD_START_FULL_ST 1)

/-- Changes one datum. -/
def datOf (f : Datum → Datum) (h : Hw) : Hw := { h with datA := f h.datA }

/-- Changes the application cores. -/
def apcOf (f : Apc → Apc) (h : Hw) : Hw := sysOf (fun s => { s with apc := f s.apc }) h

/-- Changes the events. -/
def evtOf (f : EvtSt → EvtSt) (h : Hw) : Hw := { h with evt := f h.evt }

/-- An allotment of one whole coat of core 0. -/
def allot0 : Allot :=
  { slices := [{ core := 0, start := 0, count := 1000 }], ways := [], entry := 0, irqCore := 0, gfile := 1 }

/-- A state in which partition 1 runs on a core. -/
def onCore : Hw := apcOf (fun a => { a with running := [(0, 1)] }) (served.modPart 1 fun p =>
  { p with allot := some allot0 })

/-- A staged event. -/
def staged0 : EvtEntry :=
  { type := 0x0601, firstAt := 0, lastAt := 0, count := 1, pid := 0, detail := 0, mixedPid := false, mixedDetail := false, spanSat := false }

/-- The channel of the address 0x100000. -/
def ch0 : Nat := channelOf (served.mem.place 0x100000)

/-- A state whose channel is in service. -/
def live : Hw := served.put (F.MC_STATUS_STATE.blk ch0) 1

/-- A request of 64 bytes. -/
def memReq (w : Bool) : MemReq :=
  { src := 0, pid := 0, tag := 0, write := w, addr := 0x100000, len := 64, data := if w then zeros 64 else [], stain := false }

/-- A state with one granted request. -/
def granted (w : Bool) : Hw := live.modArb ch0 fun a => { a with granted := [memReq w] }

/-- A state with one STRIPED block. -/
def striped : Hw :=
  { live with mem := { live.mem with frames := (upto 64 24).map fun f => (f, { ownFrame 1 with striped := true }) } }

/-- A message of a type. -/
def msgOf (t : Nat) : Msg :=
  { src := 0, dst := 1, pid := 0, cls := 0, type := t, slot := 0, k := 0, addr := 0, bytes := 64, pieces := [{ idx := 0, data := zeros 64, stain := false }] }

/-- A state with one message in the mesh. -/
def inMesh (t : Nat) : Hw := fabOf (fun f => { f with local_ := [(1, (msgOf t).toFlits)] }) run

/-- A slice that runs at tile 0. -/
def slice0 (p : Nat) : Slice :=
  { pid := p, act := 0, handle := 0, copy := 0, queue := 0, num := 0, seq := 1, k := 0, list := 0x1000, dup := false, state := .running, staged := [], sobs := [], sent := [], notices := [], sig := 0, readHalves := [], lastMac := none, carryRead := [], failed := none, pos := 0, fMin := 400, waits := [], portsHeld := [] }

/-- A relocation. -/
def reloc0 (s : Bool) : Reloc :=
  { shift := s, die := 0, row := 0, retired := some 5, logical := 5, target := 17, pid := 1, sinceStroke := 50, cmd := none }

/-- A stencil that lists partition 1 with one window. -/
def act1 : Stencil :=
  { Stencil.firmware with acts := [{ pid := 1, kind := 0, duplex := false, fragTag := 0 }], tsets := [1], parts := [{ pid := 1, cls := 0, priority := 0, cpOps := 8, fusCycles := 950, trvShare := 1, apcBytes := 64 }], wins := [{ start := 0, count := 900, act := 0, tset := 0, dramBytes := 64, d2dFlits := 0, fMin := 400, partner := 0xFFFF }] }

/-- Sets fields. -/
def puts (l : List (Fld × Nat)) (h : Hw) : Hw := l.foldl (fun x e => x.put e.1 e.2) h

/-- A job of batch 1. -/
def job0 : Job :=
  { pid := 1, queue := 0, num := 0, seq := 1, handle := 0, batch := 1, dl := some 1000, args := [], fragTag := 0, begun := none, under := false, beginsEver := false, progress := [], nextCp := 0, miss := none, mainDone := 0, relocated := false, inexact := false, overflow := false, matched := 0, reports := [], redo := none, mismatchedOnce := false, fail := none, cancelled := none, group := false, gseq := 0, fired := true }

/-- A tile entry of a copy. -/
def entryOf (c l : Nat) : TileEntry :=
  { logical := l, copy := c, first := 0, last := 127, stkLo := 0x7F000, stkHi := 0x7FFE0, arg := 0, loads := [], areas := [], runs := [] }

/-- A model of one batch and one way. -/
def model0 : Model :=
  { va := 0x100000, bytes := 4096, duplex := false, isUndercoat := false, hasUndercoat := false, streaming := false, imageId := 1, undercoatId := 0, ucHandle := 1, fragTag := 0, batches := [1], js := [1], streamBytes := 0, ways := [[entryOf 0 0]], miles := [], state := 2, way := 0, pinned := false, ucPinned := false, useStamp := 0, wantInstall := false, installed := 4096 }

/-- A state with a job of a model. -/
def withJob (j : Job) (m : Model) : Hw :=
  { stnOf (fun s => { s with active := act1 }) served with jobs := [j], models := [(64, m)], cmds := [{ cmd0 none with pid := 1 }] }

/-- A duplex model. -/
def twoCopies : Model := { model0 with duplex := true, ways := [[entryOf 0 0, entryOf 1 256]] }

/-- Changes the ingest part. -/
def ingOf (f : Ingest → Ingest) (h : Hw) : Hw := { h with ing := f h.ing }

/-- A sensor buffer that is empty. -/
def buf0 : IngBuf :=
  { n := 0, bufFull := false, incomplete := false, hdrErr := false, crcErr := false, overflow := false, stained := false, late := false, untriggered := false, remapped := false, tStart := 0, tEnd := 0, tTrig := 0, bytes := 0, units := 0, off := 0, frameNum := 0, phys := 0, crcCount := 0, coat := 0, pos := 0, firstAt := 0, failed := false }

/-- A camera stream of four buffers. -/
def stream0 : Stream :=
  { lidar := false, hold := false, emb := false, port := 0, doneSob := 300, relSob := 301, rate := 1000, bufVa := 0x4000, bufBytes := 4096, nBuf := 4, recVa := 0x2000, doneAdd := 1, vc := 0, dt := 0x2B, pitch := 64, srcMac := 0, etherType := 0, udpDst := 0, faulted := false, opened := 1, completed := 0, lostTotal := 0, lostSince := 0, cur := some buf0, done := [] }

/-- A state with camera port 0 in service. -/
def camRun : Hw := puts [(F.CAM_STATUS_LINK.blk 0, 2), (F.CAM_STATUS_MAP.blk 0, 0), (F.CAM_STATUS_PWR_STATE.blk 0,
  1), (F.CAM_CTRL_IDCHK.blk 0, 1)] served

/-- A state with a stream at port 0. -/
def withStream (s : Stream) : Hw := ingOf (fun g => { g with streams := [(0, s)] }) camRun

/-- A state with lidar port 0 in service. -/
def lidRun : Hw := puts [(F.LID_STATUS_LINK.blk 0, 2), (F.LID_STATUS_MAP.blk 0, 0), (F.LID_CTRL_LINK_EN.blk 0, 1)]
  (withStream { stream0 with lidar := true })

/-- A state whose stencil triggers port 0. -/
def trig0 : Hw := stnOf (fun s =>
  { s with active := { act1 with trigs := [{ port := 0, adj := 0, offset := 100, cur := 0, next := none }] } })
  camRun

/-- Changes a camera port. -/
def camWith (f : CamSt → CamSt) : Hw := camRun.modCam 0 f

/-- The output of a fusion batch. -/
def out0 : FusOut :=
  { flags := 0, nMeas := 1, coarse := 0, gated := 0, assigned := 0, born := 0, deleted := 0, records := [], tracks := [], nextId := 1, cycles := [10] }

/-- A fusion batch with its output. -/
def batch0 : FusBatch :=
  { pid := 0, queue := 0, num := 0, seq := 1, set := 0, m := 1, measVa := 0, outVa := 0x1000, workVa := 0x2000, outMode := 0, tValid := 0, dl := none, ready := true, used := 0, saved := false, back := false, owes := [], written := false, stained := false, out := some out0 }

/-- A state with a fusion batch. -/
def withBatch (b : FusBatch) : Hw :=
  { stnOf (fun s => { s with fusCycles := [(0, 950)] }) served with fus := { sets := [], batches := [b], running := none, ranAt := none }, cmds := [cmd0 none] }

/-- A trajectory. -/
def traj0 : Traj := { pid := 1, seq := 1, bytes := zeros 64, shaped := false }

/-- A candidate. -/
def cand0 : Cand :=
  { pid := 1, queue := 0, num := 0, seq := 1, dl := none, resVa := 0, traj := traj0, toShape := true }

/-- A verdict. -/
def verdict0 : Verdict :=
  { stroke := 90, kind := 0, outcome := 0, reason := 0, margin := 0, bytes := zeros 64, ofPending := false, cand := none, complete := false, compared := false }

/-- A waiting trajectory. -/
def order0 (d : Bool) : TrajOrder := { dust := d, traj := traj0, queue := 0, num := 0, at_ := 50 }

/-- A waiting survey. -/
def update0 : SurveyUpd :=
  { pid := 1, queue := 0, num := 0, acceptAt := 50, bytes := zeros 192, delivered := false }

/-- Changes both data. -/
def bothDat (f : Datum → Datum) (h : Hw) : Hw := { h with datA := f h.datA, datB := f h.datB }

/-- A group of two members. -/
def group0 : Hw := puts [(F.PEER_STATUS_N, 2), (F.PEER_STATUS_STATE, 2), (F.PEER_STATUS_LINK0, 1),
  (F.PEER_STATUS_LINK1, 1), (F.PEER_MEMBERS_IN_SERVICE, 3), (F.PEER_STATUS_STANDBY, 1)] served

/-- The configuration of a group of two. -/
def gconf : List Byte := putField (putField (zeros 288) 12 1 1) 32 1 1

/-- A group job. -/
def gjob0 : GJob :=
  { pid := 1, queue := 0, num := 0, gseq := 5, dseq := 1, worker := 1, subDl := 50, subLimit := 40, place := 0, dispatched := true, reissued := false, issuedAt := 0, sentAt := 0, failed := none, xfer := [], dl := none, got := 0, cancelled := none }

/-- A request of a final. -/
def req0 (c : Option Nat) : DfinReq :=
  { fin := 0, pid := 1, req := 0, desc := zeros 64, descVa := 0, ranges := [], finals := 0, closedAt := c, stained := false, seen := [], spent := 0, paid := 0 }

/-- A notice for tile 0. -/
def notice0 : Msg := { msgOf 9 with dst := 0 }

/-- A state with PCIe port 0 bound to partition 1. -/
def pcieRun : Hw := puts [(F.PCIE_STATUS_UP.port 0, 1), (F.PCIE_BIND_VALID.port 0, 1), (F.PCIE_BIND_PID.port 0, 1)]
  served

/-- A PCIe read. -/
def tlp0 : Tlp := { port := 0, rid := 0, kind := 0, addr := 0x2000, len := 64, data := [], ro := false }

/-- Whether a run of entries can be read, computed. -/
def runIn (b : Hw) (c : Cmd) (s : SeqRec) (i n : Nat) : Bool :=
  s.layers == 0 && (b.readRun c.pid s 0 i n).1.toOption.any fun e => ! e.2

/-- The entries of a run. -/
def runEs (b : Hw) (c : Cmd) (s : SeqRec) (i n : Nat) : List (List Nat) :=
  match (b.readRun c.pid s 0 i n).1 with
  | .ok e => [e.1]
  | .error _ => []

/-- The state after a run of entries is read. -/
def runHw (b : Hw) (c : Cmd) (s : SeqRec) (i n : Nat) : Hw := (b.readRun c.pid s 0 i n).2

/-- A run that can be read by computation reads its entries. -/
theorem reads_of {b : Hw} {c : Cmd} {s : SeqRec} {i n : Nat} (h : runIn b c s i n = true) :
    ReadsEntries b c s i n (runEs b c s i n) (runHw b c s i n) := by
  intro f
  unfold runIn at h
  simp only [Bool.and_eq_true, beq_iff_eq] at h
  obtain ⟨hl, hr⟩ := h
  rw [hl]
  unfold runEs runHw Hw.withEntries Hw.withEntries
  rw [hl]
  cases e : b.readRun c.pid s 0 i n with
  | mk r k =>
    rw [e] at hr
    cases r with
    | error x => cases hr
    | ok x =>
      obtain ⟨es, st⟩ := x
      cases st with
      | true => cases hr
      | false => rfl

/-- The state without commands. -/
def noCmds (h : Hw) : Hw := { h with cmds := [] }

/-- A state with a model and no job. -/
def jobless : Hw := { withJob job0 model0 with jobs := [], cmds := [] }

/-- A state with one model. -/
def withModel (m : Model) : Hw := { served with models := [(0, m)] }

/-- A state that manages a group of two. -/
def managed : Hw := puts [(F.PEER_STATUS_N, 2), (F.PEER_STATUS_STATE, 2)] (grpOf (fun g =>
  { g with config := gconf }) jobless)

/-- A sequence. -/
def seq0 (rank cap len : Nat) : SeqRec :=
  { plVa := 0x3000, len := len, cap := cap, dieTokens := 0, layers := 0, log2Rank := rank, fmt := 3, position := false, node := noNode, lenAtStart := 0 }

/-- A state with one sequence for each of two partitions. -/
def withSeq (s : SeqRec) : Hw := { served with kv := { served.kv with seqs := [(0, s), (65536, s)] } }

/-- A state with four sheets of a sequence. -/
def ownSheets (h : Hw) : Hw :=
  cfgOf (fun c => { c with nPlain := 8 })
    ({ h with kv := { h.kv with sheets := (upto 1 4).map fun i => (i, { ref := 1, owner := 1, gaz := false, zeroed := true, reserved := false, link := 0 }) } }.store
    0x113000 ((upto 1 4).flatMap (leBytes 4)) false)

/-- The bytes of a stencil of two activities. -/
def stnBytes : List Byte :=
  let act (k : Nat) : List Byte := putField (zeros 16) 1 1 k
  let win (s n a : Nat) : List Byte :=
    putField (putField (putField (putField (putField (putField (zeros 32) 0 4 s) 4 4 n) 8 2 a) 10 2 0x3FF) 18 2 400)
      20 2 0xFFFF
  let head := putField (putField (putField (putField (putField (zeros 64) 0 4 0x53544E32) 4 2 2) 8 4 1000) 18 2 2)
    22 2 2
  let all := head ++ act 2 ++ act 1 ++ win 0 8 0 ++ win 960 40 1
  putField all 60 4 (crc32c all)

/-- The bytes of an ingest record. -/
def recBytes (av : Nat) : List Byte :=
  putField (putField (putField (putField (putField (zeros 832) 0 1 5) 2 1 1) 4 4 5) 16 6 av) 88 1 6

/-- The bytes of an image of one tile. -/
def image0 : List Byte :=
  let tile := putField (putField (putField (putField (putField (putField (zeros 64) 5 1 127) 12 4 256) 16 4 256) 32
    8 336) 40 8 336) 48 8 336
  let way := putField (putField (zeros 16) 0 8 272) 8 2 1
  let head := putField (putField (putField (putField (putField (putField (putField (putField (putField (zeros 256) 0
    4 0x32494D4C) 4 2 2) 30 1 1) 31 1 1) 40 2 1) 56 4 1) 88 8 336) 96 8 256) 104 8 336
  let all := head ++ way ++ tile
  putField all 252 4 (crc32c all)

/-- The state in BENCH mode. -/
def bench : Hw := served.put F.MOD_MODE_MODE 4

/-- The state with a tile retired. -/
def gone (t : Nat) (h : Hw) : Hw := fabOf (fun f => { f with retired := [t] }) h

/-- A fusion set of one track. -/
def set0 : FusSet :=
  { cfg := zeros 1024, model := 0, threeD := false, nExtra := 0, capacity := 16, nextId := 2, lastValid := none, tracks := [(0, { id := 1, confirmed := true, cls := 0, hits := 1, misses := 0, time := 0, x := [0, 0, 0, 0], p := List.replicate 10 0, tLast := [], nis := [], stained := false })] }

/-- A state with a fusion set for each of two partitions. -/
def fusRun : Hw := stnOf (fun s => { s with active := act1 })
  { served with fus := { served.fus with sets := [(0, set0), (4, set0)] } }

/-- A state whose stencil lists partition 1. -/
def shared : Hw := stnOf (fun s => { s with active := act1 }) served

/-- The bytes of an envelope. -/
def env0 : List Byte :=
  [(0, 0x3DCC_CCCD), (8, 0x3DCC_CCCD), (12, 0x3F00_0000), (16, 0x3F00_0000), (20, 0x3A83_126F), (24, 0x3A83_126F),
    (28, 0x3DCC_CCCD), (44, 1000), (48, 1), (76, 0x3D4C_CCCD)].foldl (fun b e => putField b e.1 4 e.2) (zeros 320)

/-- A state with a sheet pool. -/
def pooled : Hw := cfgOf (fun c => { c with nPlain := 1000, nStriped := 1000 }) served

/-- The state with bytes at an address. -/
def filled (a : Nat) (bs : List Byte) (h : Hw) : Hw :=
  let es := ((List.range bs.length).zip bs).filter fun e => e.2 ≠ 0
  { h with mem := { h.mem with cells := es.map fun e => ⟨a + e.1, e.2⟩ } }

/-- Whether the image of a MODEL_LOAD can be read, computed. -/
def imgB (b : Hw) (c : Cmd) : Bool :=
  decide (b.models.length < 1024) && (imagePages b c.pid (c.f 24 6) (c.f 32 6)).all (fun x => x.2.toBool) &&
  (b.cmdRead c.pid (c.f 24 6) (c.f 32 6)).1.toOption.any fun x => ! x.2

/-- The pages of an image that can be read. -/
def imgPages (b : Hw) (c : Cmd) : List Nat := (imagePages b c.pid (c.f 24 6) (c.f 32 6)).map fun x => match x.2 with
  | .ok a => a
  | .error _ => 0

/-- The bytes of an image that can be read. -/
def imgBytes (b : Hw) (c : Cmd) : List Byte := match (b.cmdRead c.pid (c.f 24 6) (c.f 32 6)).1 with
  | .ok x => x.1
  | .error _ => []

/-- An image that can be read by computation meets ImageRead. -/
theorem img_of {b : Hw} {c : Cmd} (e : imgB b c = true)
    (p : imagePages b c.pid (c.f 24 6) (c.f 32 6) =
      (List.range (imgPages b c).length).map fun i => (i, (Except.ok ((imgPages b c).getD i 0) : Except Nat Nat))) :
    ImageRead b c (imgPages b c) (imgBytes b c) (b.cmdRead c.pid (c.f 24 6) (c.f 32 6)).2 := by
  unfold imgB at e
  simp only [Bool.and_eq_true, decide_eq_true_eq] at e
  refine ⟨e.1.1, p, ?_⟩
  have h := e.2
  unfold imgBytes
  cases r : b.cmdRead c.pid (c.f 24 6) (c.f 32 6) with
  | mk x k =>
    rw [r] at h
    cases x with
    | error x => cases h
    | ok x =>
      obtain ⟨bs, st⟩ := x
      cases st with
      | true => cases h
      | false => rfl

/-- Whether the reading of a record fails, computed. -/
def recEndB (b : Hw) (c : Cmd) (va n : Nat) : Bool := (b.cmdRead c.pid va n).1.toOption.all fun x => x.2

/-- The state after the reading of a record has failed. -/
def recEndHw (b : Hw) (c : Cmd) (va n : Nat) : Hw :=
  match b.cmdRead c.pid va n with
  | (.error e, j) => j.failPage c e
  | (.ok _, j) => j.finish c 0x3001 0 0xFFFF_FFFF

/-- A reading that fails by computation meets RecordEnds. -/
theorem recEnd_of {b : Hw} {c : Cmd} {va n : Nat} (h : recEndB b c va n = true) : RecordEnds b c va n (recEndHw b c
  va n) := by
  unfold recEndB at h
  unfold RecordEnds recEndHw
  cases r : b.cmdRead c.pid va n with
  | mk x k =>
    rw [r] at h
    cases x with
    | error x => exact ⟨k, .inl ⟨x, rfl, rfl⟩⟩
    | ok x =>
      obtain ⟨bs, st⟩ := x
      cases st with
      | true => exact ⟨k, .inr ⟨bs, rfl, rfl⟩⟩
      | false => cases h

/-- Whether the reading of page-list entries fails, computed. -/
def entEndB (b : Hw) (c : Cmd) (s : SeqRec) (i n : Nat) : Bool := (b.readRun c.pid s 0 i n).1.toOption.all fun x =>
  x.2

/-- The state after the reading of page-list entries has failed. -/
def entEndHw (b : Hw) (c : Cmd) (s : SeqRec) (i n : Nat) : Hw :=
  match b.readRun c.pid s 0 i n with
  | (.error e, j) => j.failPage c e
  | (.ok _, j) => j.finish c 0x3001 0 0xFFFF_FFFF

/-- A reading that fails by computation meets EntriesEnd. -/
theorem entEnd_of {b : Hw} {c : Cmd} {s : SeqRec} {i n : Nat} (h : entEndB b c s i n = true) :
    EntriesEnd b c s i n (entEndHw b c s i n) := by
  unfold entEndB at h
  unfold EntriesEnd entEndHw
  cases r : b.readRun c.pid s 0 i n with
  | mk x k =>
    rw [r] at h
    cases x with
    | error x => exact ⟨0, [], b, k, Nat.zero_le _, fun _ => rfl, .inl ⟨x, r, rfl⟩⟩
    | ok x =>
      obtain ⟨bs, st⟩ := x
      cases st with
      | true => exact ⟨0, [], b, k, Nat.zero_le _, fun _ => rfl, .inr ⟨bs, r, rfl⟩⟩
      | false => cases h

/-- Whether nothing of a tile is stained or bad, computed. -/
def cleanB (h : Hw) (t : Nat) : Bool :=
  ((h.tile t).slice.any fun s => s.state == .running) && (h.tile t).stain.isEmpty && (h.tile t).badGranules.isEmpty
    &&
  (h.tile t).seq.sStain.all (! ·) && (h.tile t).seq.vStain.isEmpty

/-- A tile that is clean by computation is clean. -/
theorem clean_of {h : Hw} {t : Nat} (e : cleanB h t = true) : Clean h t := by
  unfold cleanB at e
  simp only [Bool.and_eq_true, List.isEmpty_iff, List.all_eq_true, Bool.not_eq_true'] at e
  obtain ⟨⟨⟨⟨e1, e2⟩, e3⟩, e4⟩, e5⟩ := e
  refine ⟨e1, e2, e3, fun i => ?_, fun v => by rw [e5]; rfl⟩
  rw [List.getD_eq_getElem?_getD]
  cases k : (h.tile t).seq.sStain[i]? with
  | none => rfl
  | some b => exact e4 b (List.mem_of_getElem? k)

/-- Whether a TVI row is ready, computed. -/
def tviB (h : Hw) (t : Nat) (s : Slice) (op w : Nat) : Bool :=
  h.tileRuns t true && ! (h.tile t).parityBad && (h.tile t).seq.pc % 4 == 0 && cleanB h t && decide ((h.tile
    t).slice = some s) &&
  w == leNat ((sramBytes h t s.pid (h.tile t).seq.pc 4).map (·.1)) && bits w 0 6 == op &&
  (! isScalarOp op || bit ((h.tile t).seq.p.getD (insnP w) 0) 0) && (! hasW op || insnW w != 3)

/-- A TVI row that is ready by computation meets the hypotheses of its statements. -/
theorem tvi_of {h : Hw} {t : Nat} {s : Slice} {op w : Nat} (e : tviB h t s op w = true) : TviReady h t s op w := by
  unfold tviB at e
  simp only [Bool.and_eq_true, Bool.or_eq_true, Bool.not_eq_true', beq_iff_eq, bne_iff_ne, decide_eq_true_eq] at e
  obtain ⟨⟨⟨⟨⟨⟨⟨⟨e1, e2⟩, e3⟩, e4⟩, e5⟩, e6⟩, e7⟩, e8⟩, e9⟩ := e
  exact ⟨e1, e2, e3, clean_of e4, e5, e6, e7, fun k => e8.resolve_left (by rw [k]; decide),
    fun k => e9.resolve_left (by rw [k]; decide)⟩

/-- Whether a TOD row is ready, computed. -/
def todB (h : Hw) (t : Nat) (s : Slice) (opc : Nat) (d : List Byte) : Bool :=
  h.tileRuns t false && ! (h.tile t).parityBad && s.list % 64 == 0 && cleanB h t && decide ((h.tile t).slice = some
    s) &&
  d == todBytes h t s && field d 0 1 == opc && (h.waitingTod t opc).isNone && s.canIssue (header d) true && !
    ((header d).loopEn && (header d).back == 0) &&
  bit ((h.tile t).seq.p.getD (header d).pred 0) 0 != (header d).pneg

/-- A TOD row that is ready by computation meets the hypotheses of its statements. -/
theorem tod_of {h : Hw} {t : Nat} {s : Slice} {opc : Nat} {d : List Byte} (e : todB h t s opc d = true) : TodReady h
  t s opc d := by
  unfold todB at e
  simp only [Bool.and_eq_true, Bool.not_eq_true', beq_iff_eq, bne_iff_ne, decide_eq_true_eq,
    Option.isNone_iff_eq_none] at e
  obtain ⟨⟨⟨⟨⟨⟨⟨⟨⟨⟨e1, e2⟩, e3⟩, e4⟩, e5⟩, e6⟩, e7⟩, e8⟩, e9⟩, e10⟩, e11⟩ := e
  exact ⟨e1, e2, e3, clean_of e4, e5, e6, e7, e8, e9, e10, e11⟩

/-- The bytes that are not zero, by address. -/
def cellsOf (l : List (Nat × List Byte)) : SMap Byte :=
  l.flatMap fun e => (((List.range e.2.length).zip e.2).filter fun x => x.2 ≠ 0).map fun x => (e.1 + x.1, x.2)

/-- A state in which tile 0 runs a slice over given SRAM. -/
def tileHw (pid : Nat) (l : List (Nat × List Byte)) (f : Tile → Tile) : Hw :=
  (puts [((F.TILE_SWIN_VALID.blk 0).nth 0, 1), ((F.TILE_SWIN_PID.blk 0).nth 0, pid), ((F.TILE_SWIN_LAST.blk 0).nth
    0, 127)] served).modTile 0
    fun x => f { x with slice := some (slice0 pid), sram := cellsOf l }

/-- Changes the sequencer. -/
def seqOf (f : Seq → Seq) (x : Tile) : Tile := { x with seq := f x.seq }

/-- A state whose program stands at a word. -/
def tviHw (w : Nat) (f : Seq → Seq) : Hw := tileHw 1 [(0x100, leBytes 4 w)] (seqOf fun q => f
  { q with inProg := true, pc := 0x100 })

/-- A state whose list stands at a descriptor. -/
def todHw (pid : Nat) (d : List Byte) (l : List (Nat × List Byte)) (f : Tile → Tile) : Hw := tileHw pid ((0x1000, d)
  :: l) f

/-- A descriptor of its parts. -/
def tod (opc fmts param : Nat) (a b d : List Byte) : List Byte := leBytes 1 opc ++ zeros 3 ++ leBytes 4 fmts ++
  leBytes 8 param ++ a ++ b ++ d

/-- No operand. -/
def op0 : List Byte := zeros 16

/-- An operand in SRAM. -/
def op1 (off n m k : Nat) : List Byte := leBytes 4 (off + 0x1000000) ++ leBytes 2 n ++ leBytes 2 m ++ leBytes 2 k ++
  zeros 6

/-- An operand in memory. -/
def op2 (va n rows : Nat) : List Byte := leBytes 4 0x2000000 ++ leBytes 6 va ++ leBytes 2 n ++ leBytes 2 rows ++
  zeros 2

/-- An operand in accumulators. -/
def op3 (a n m : Nat) : List Byte := leBytes 4 (a + 0x3000000) ++ leBytes 2 n ++ leBytes 2 m ++ zeros 8

/-- An operand in other tiles. -/
def op4 (x y slot n : Nat) : List Byte := leBytes 4 0x4000000 ++ leBytes 1 x ++ leBytes 1 y ++ leBytes 1 x ++
  leBytes 1 y ++ leBytes 2 slot ++ leBytes 4 n ++ zeros 2

/-- The operands of an attention descriptor. -/
def attn0 : List Byte := leBytes 12 0 ++ leBytes 2 32 ++ leBytes 1 0x31 ++ zeros 25 ++ List.replicate 8 255 ++ zeros
  16

/-- A state with one stained granule. -/
def stainAt (a : Nat) (h : Hw) : Hw := h.store a (zeros 32) true

/-- A manager with a group job in progress. -/
def onGroup : Hw := grpOf (fun g => { g with jobs := [{ gjob0 with num := 77, gseq := 5 }] })
  { jobless with cmds := [{ cmd0 none with pid := 1, num := 77, seq := 5 }] }

/-- The image of image0 with an undercoat. -/
def imageUc : List Byte :=
  let b := putField (putField (putField image0 6 2 4) 16 8 7) 252 4 0
  putField b 252 4 (crc32c b)

/-- The undercoat that imageUc names. -/
def undercoat0 : Model := { model0 with isUndercoat := true, imageId := 7 }

/-- A sequence whose first block is published. -/
def noded (s : SeqRec) : Hw :=
  { withSeq s with kv := { (withSeq s).kv with gaz := { nodes := [(0, { hash := (gazChain (gazSeed 0 s) (zeros 1024) 1).headD 0, ns := 0, parent := noNode, depth := 1, pub := 1, state := 1, refs := 0, children := 0, tbl := 0, layers := 0, rankfmt := 0, entry := 0 })], table := [], entries := [] } } }

/-- A module in OFF. -/
def offHw : Hw := run.put F.MOD_MODE_MODE 0

/-- A state with the mode OFF. -/
def offed (h : Hw) : Hw := h.put F.MOD_MODE_MODE 0

/-- A state in which page 0 of a partition maps a DPA. -/
def doored (pid : Nat) (dpa : Nat) (h : Hw) : Hw :=
  { h with mem := { h.mem with ctxs := [(pid, ⟨[], [(0, 0x20F + dpa)]⟩)] } }

/-- A state in which core 0 is a source of the owner. -/
def ownerCore : Hw := cfgOf (fun c => { c with sources := [{ pcie := false, id := 1, drive := true }] }) onCore

/-- A packet of two slots in a slot. -/
def extAt (slot : Nat) : Hw := served.store (0x100000 + 64 * slot) (putField (zeros 32) 2 1 1) false

/-- A boot image with a digest. -/
def imgAt (d : Nat) : FlashImg := { bytes := [], version := 1, secver := 1, digest := d, good := true }

/-- A slice that has staged nothing owes nothing at its final COMMIT. -/
theorem paid_of {h : Hw} {t : Nat} {s : Slice} (a : s.staged = []) (b : s.sobs = []) (c : s.pid = 0) : CommitPaid h
  t s := by
  intro k m
  obtain ⟨w, r, e⟩ := m.tile
  have f : k.sliceAt t s = { s with readHalves := r } := by unfold Hw.sliceAt; rw [e]; rfl
  refine ⟨k, ?_⟩
  rw [f]
  unfold Hw.chargeCommit
  simp only [a, b, c]
  rfl

/-- A message waiting at input 1 of router 0. -/
def inEast : Hw := fabOf (fun f => { f with inq := [(1, (msgOf 0).toFlits)] }) run

/-- The note of a tile that ran no slice. -/
def overrun0 : Overrun := { stroke := 50, pid := 0, act := 0, cause := 4, seq := 1, k := 0, worked := false }

/-- A tile with such a note. -/
def overran : Hw := run.modTile 0 fun x => { x with overruns := [overrun0] }

/-- A state in which every block of sync objects is owned. -/
def sobFull : Hw := (upto 0 128).foldl (fun h i => h.put
  { block := 0x020, off := 0x1000 + 8 * i, lo := 0, len := 64 } 0x0101010101010101) run

/-! ## The hypotheses of the statements are met -/

/-- For clauses of PacketResultsAndSyncObjects with hypotheses, states and operands that meet them (part 1 of 2). -/
theorem witness_PacketResultsAndSyncObjects :
    (∃ (st : State) (q : QRef) (p : Packet) (qu : Queue) (c : Cmd) (b : Hw),
      (Acting st.hw specNop q p qu c b)) ∧
    (∃ (st : State) (q : QRef) (p : Packet) (qu : Queue) (c : Cmd) (b : Hw),
      (Acting st.hw specFence q p qu c b)) ∧
    (∃ (st : State) (q : QRef) (p : Packet) (qu : Queue) (c : Cmd) (b : Hw),
      (Acting st.hw specEcho q p qu c b)) ∧
    (∃ (st : State) (q : QRef) (p : Packet) (qu : Queue) (c : Cmd) (b : Hw),
      (Acting st.hw specQuery q p qu c b)) ∧
    (∃ (st : State) (q : QRef) (p : Packet) (qu : Queue) (c : Cmd) (b : Hw),
      (Acting st.hw specMemQuery q p qu c b)) := by
  refine ⟨?_, ?_, ?_, ?_, ?_⟩
  · exact ⟨⟨[], served⟩, Q, zeros 64, queueAt 0, _, _, acting_of (by decide +kernel)⟩
  · exact ⟨⟨[], served⟩, Q, zeros 64, queueAt 0, _, _, acting_of (by decide +kernel)⟩
  · exact ⟨⟨[], served⟩, Q, zeros 64, queueAt 0, _, _, acting_of (by decide +kernel)⟩
  · exact ⟨⟨[], served⟩, Q, zeros 64, queueAt 0, _, _, acting_of (by decide +kernel)⟩
  · exact ⟨⟨[], served⟩, Q, zeros 64, queueAt 0, _, _, acting_of (by decide +kernel)⟩

/-- For clauses of PacketResultsAndSyncObjects with hypotheses, states and operands that meet them (part 2 of 2). -/
theorem witness_PacketResultsAndSyncObjects_2 :
    (∃ (st : State) (q : QRef) (p : Packet) (qu : Queue) (c : Cmd) (b : Hw),
      (Acting st.hw specSobSet q p qu c b) ∧
      (b.holdsSob c.pid (c.f 16 2) = true) ∧
      (∀ w ∈ b.watches, w.same c = false)) ∧
    (∃ (st : State) (q : QRef) (p : Packet) (qu : Queue) (c : Cmd) (b : Hw),
      (Acting st.hw specSobAdd q p qu c b) ∧
      (b.holdsSob c.pid (c.f 16 2) = true) ∧
      (∀ w ∈ b.watches, w.same c = false)) ∧
    (∃ (st : State) (q : QRef) (p : Packet) (qu : Queue) (c : Cmd) (b : Hw),
      (Acting st.hw specSobRead q p qu c b) ∧
      (b.holdsSob c.pid (c.f 16 2) = true)) ∧
    (∃ (st : State) (q : QRef) (p : Packet) (qu : Queue) (c : Cmd) (b : Hw),
      (Acting st.hw specSobWait q p qu c b) ∧
      (∀ w ∈ b.watches, w.same c = false)) := by
  refine ⟨?_, ?_, ?_, ?_⟩
  · exact ⟨⟨[], served⟩, Q, zeros 64, queueAt 0, _, _, acting_of (by decide +kernel), by decide +kernel⟩
  · exact ⟨⟨[], served⟩, Q, zeros 64, queueAt 0, _, _, acting_of (by decide +kernel), by decide +kernel⟩
  · exact ⟨⟨[], served⟩, Q, zeros 64, queueAt 0, _, _, acting_of (by decide +kernel), by decide +kernel⟩
  · exact ⟨⟨[], served⟩, Q, zeros 64, queueAt 0, _, _, acting_of (by decide +kernel), by decide +kernel⟩

/-- For clauses of PacketMemoryAndMapping with hypotheses, states and operands that meet them (part 1 of 3). -/
theorem witness_PacketMemoryAndMapping :
    (∃ (st : State) (q : QRef) (p : Packet) (qu : Queue) (c : Cmd) (b : Hw) (k : Hw),
      (Acting st.hw specMemFill q p qu c b) ∧
      ((b.spendDram c.pid (fillRange c).1 (fillRange c).2 true).cmdWrite c.pid (fillRange c).1 (patternBytes (c.f 32
      8) (fillRange c).2) false = (none, k)) ∧
      fillPhys c = false) ∧
    (∃ (st : State) (q : QRef) (p : Packet) (qu : Queue) (c : Cmd) (b : Hw) (e : Nat × Nat) (k : Hw),
      (Acting st.hw specMemFill q p qu c b) ∧
      ((b.spendDram c.pid (fillRange c).1 (fillRange c).2 true).cmdWrite c.pid (fillRange c).1 (patternBytes (c.f 32
      8) (fillRange c).2) false = (some e, k)) ∧
      fillPhys c = false) ∧
    (∃ (st : State) (q : QRef) (p : Packet) (qu : Queue) (c : Cmd) (b : Hw),
      (Acting st.hw specMemFill q p qu c b) ∧
      fillPhys c = true) ∧
    (∃ (st : State) (q : QRef) (p : Packet) (qu : Queue) (c : Cmd) (b : Hw),
      (Acting st.hw specMemCopy q p qu c b) ∧
      c.f 32 6 < 64) ∧
    (∃ (st : State) (q : QRef) (p : Packet) (qu : Queue) (c : Cmd) (b : Hw) (k : Hw) (k2 : Hw) (k3 : Hw) (bs : List
      Byte) (sd : Bool),
      (Acting st.hw specMemCopy q p qu c b) ∧
      (k = (b.spendDram c.pid (c.f 16 6 / 64 * 64) 64 false).spendDram c.pid (c.f 24 6 / 64 * 64) 64 true) ∧
      (k.cmdRead c.pid (c.f 16 6 / 64 * 64) 64 = (.ok (bs, sd), k2)) ∧
      (k2.cmdWrite c.pid (c.f 24 6 / 64 * 64) bs sd = (none, k3)) ∧
      (c.f 32 6 / 64 = 1) ∧
      (c.f 16 6 / 64 ≠ c.f 24 6 / 64)) := by
  refine ⟨?_, ?_, ?_, ?_, ?_⟩
  · exact ⟨⟨[], served⟩, Q, (pk [(17, 64), (24, 64)]), queueAt 0, _, _, _, acting_of (by decide +kernel), w_fst
      (by decide +kernel), by decide +kernel⟩
  · exact ⟨⟨[], served⟩, Q, (pk [(18, 16), (24, 64)]), queueAt 0, _, _, _, _, acting_of (by decide +kernel),
      w_someFst (by decide +kernel), by decide +kernel⟩
  · exact ⟨⟨[], served⟩, Q, (pk [(18, 64), (26, 1), (30, 1)]), queueAt 0, _, _, acting_of (by decide +kernel),
      by decide +kernel⟩
  · exact ⟨⟨[], served⟩, Q, (pk [(25, 1)]), queueAt 0, _, _, acting_of (by decide +kernel), by decide +kernel⟩
  · exact ⟨⟨[], served⟩, Q, (pk [(16, 0), (25, 1), (32, 64)]), queueAt 0, _, _, _, _, _, _, _, acting_of
      (by decide +kernel), rfl, w_okFst (by decide +kernel), w_fst (by decide +kernel), by decide +kernel⟩

/-- For clauses of PacketMemoryAndMapping with hypotheses, states and operands that meet them (part 2 of 3). -/
theorem witness_PacketMemoryAndMapping_2 :
    (∃ (st : State) (q : QRef) (p : Packet) (qu : Queue) (c : Cmd) (b : Hw) (k : Hw),
      (Acting st.hw specMemCopy q p qu c b) ∧
      (copiedLines c.pid (c.f 16 6 / 64 * 64) (c.f 24 6 / 64 * 64) (decide (c.f 16 6 / 64 * 64 < c.f 24 6 / 64 * 64
      + c.f 32 6 / 64 * 64) && decide (c.f 24 6 / 64 * 64 < c.f 16 6 / 64 * 64 + c.f 32 6 / 64 * 64)) (List.range
      (c.f 32 6 / 64)) ((b.spendDram c.pid (c.f 16 6 / 64 * 64) (c.f 32 6 / 64 * 64) false).spendDram c.pid (c.f 24
      6 / 64 * 64) (c.f 32 6 / 64 * 64) true) = some k)) ∧
    (∃ (st : State) (q : QRef) (p : Packet) (qu : Queue) (c : Cmd) (b : Hw) (i : Nat) (e : Nat × Nat) (k : Hw) (k2 :
      Hw),
      (Acting st.hw specMemCopy q p qu c b) ∧
      (copiedLines c.pid (c.f 16 6 / 64 * 64) (c.f 24 6 / 64 * 64) (decide (c.f 16 6 / 64 * 64 < c.f 24 6 / 64 * 64
      + c.f 32 6 / 64 * 64) && decide (c.f 24 6 / 64 * 64 < c.f 16 6 / 64 * 64 + c.f 32 6 / 64 * 64)) (List.range i)
      ((b.spendDram c.pid (c.f 16 6 / 64 * 64) (c.f 32 6 / 64 * 64) false).spendDram c.pid (c.f 24 6 / 64 * 64) (c.f
      32 6 / 64 * 64) true) = some k) ∧
      (k.cmdRead c.pid (c.f 16 6 / 64 * 64 + 64 * i) 64 = (.error e, k2)) ∧
      (i < c.f 32 6 / 64)) ∧
    (∃ (st : State) (q : QRef) (p : Packet) (qu : Queue) (c : Cmd) (b : Hw) (i : Nat) (e : Nat × Nat) (bs : List
      Byte) (sd : Bool) (k : Hw) (k2 : Hw) (k3 : Hw),
      (Acting st.hw specMemCopy q p qu c b) ∧
      (copiedLines c.pid (c.f 16 6 / 64 * 64) (c.f 24 6 / 64 * 64) false (List.range i) ((b.spendDram c.pid (c.f 16
      6 / 64 * 64) (c.f 32 6 / 64 * 64) false).spendDram c.pid (c.f 24 6 / 64 * 64) (c.f 32 6 / 64 * 64) true) =
      some k) ∧
      (k.cmdRead c.pid (c.f 16 6 / 64 * 64 + 64 * i) 64 = (.ok (bs, sd), k2)) ∧
      (k2.cmdWrite c.pid (c.f 24 6 / 64 * 64 + 64 * i) bs sd = (some e, k3)) ∧
      ((decide (c.f 16 6 / 64 * 64 < c.f 24 6 / 64 * 64 + c.f 32 6 / 64 * 64) && decide (c.f 24 6 / 64 * 64 < c.f 16
      6 / 64 * 64 + c.f 32 6 / 64 * 64)) = false) ∧
      (i < c.f 32 6 / 64)) ∧
    (∃ (st : State) (q : QRef) (p : Packet) (qu : Queue) (c : Cmd) (b : Hw) (m : Mem),
      (Acting st.hw specMap q p qu c b) ∧
      (m = ((mapReq c).frames b).foldl (fun x f => x.frameMapped (mapReq c).ctx f) (((mapReq c).convert b).setCtx
      (mapReq c).ctx ((mapReq c).enter b (((mapReq c).convert b).ctx (mapReq c).ctx))))) ∧
    (∃ (st : State) (q : QRef) (p : Packet) (qu : Queue) (c : Cmd) (b : Hw) (n : Nat) (fs : NSet) (k : Hw),
      (Acting st.hw specUnmap q p qu c b) ∧
      (b.unmapPages (c.f 16 1) (c.f 24 6) (c.f 32 6) = (n, fs, k)) ∧
      (k.translated (c.f 16 1) fs = false)) := by
  refine ⟨?_, ?_, ?_, ?_, ?_⟩
  · exact ⟨⟨[], served⟩, Q, (pk [(16, 0), (25, 1), (32, 64)]), queueAt 0, _, _, _, acting_of (by decide +kernel),
      w_some (by decide +kernel)⟩
  · exact ⟨⟨[], served⟩, Q, (pk [(18, 16), (32, 64)]), queueAt 0, _, _, 0, _, _, _, acting_of (by decide +kernel),
      w_some (by decide +kernel), w_errFst (by decide +kernel), by decide +kernel⟩
  · exact ⟨⟨[], served⟩, Q, (pk [(26, 16), (32, 64)]), queueAt 0, _, _, 0, _, _, _, _, _, _, acting_of
      (by decide +kernel), w_some (by decide +kernel), w_okFst (by decide +kernel), w_someFst (by decide +kernel),
      by decide +kernel⟩
  · exact ⟨⟨[], { served with mem := served.mem.setFrame 64 { ownFrame 0 with state := 2 } }⟩, Q, (pk [(16, 0), (17,
      12), (20, 1), (26, 1), (34, 64)]), queueAt 0, _, _, _, acting_of (by decide +kernel), rfl⟩
  · exact ⟨⟨[], served⟩, Q, zeros 64, queueAt 0, _, _, _, _, _, acting_of (by decide +kernel), w_triple,
      by decide +kernel⟩

/-- For clauses of PacketMemoryAndMapping with hypotheses, states and operands that meet them (part 3 of 3). -/
theorem witness_PacketMemoryAndMapping_3 :
    (∃ (st : State) (q : QRef) (p : Packet) (qu : Queue) (c : Cmd) (b : Hw) (n : Nat) (fs : NSet) (k : Hw),
      (Acting st.hw specUnmap q p qu c b) ∧
      (b.unmapPages (c.f 16 1) (c.f 24 6) (c.f 32 6) = (n, fs, k)) ∧
      (k.translated (c.f 16 1) fs = true)) ∧
    (∃ (h : Hw) (u : Unmapping),
      (h.sys.unmaps = [u])) := by
  refine ⟨?_, ?_⟩
  · exact ⟨⟨[], (served.modArb ch0 fun a => { a with granted := [memReq false] })⟩, Q, (pk [(33, 16)]), queueAt 0,
      _, _, _, _, _, acting_of (by decide +kernel), w_triple, by decide +kernel⟩
  · exact ⟨(sysOf (fun s => { s with unmaps := [⟨0, 77, 0, [16], 1⟩] }) served), _, w_single (by decide +kernel)⟩

/-- For clauses of PacketModels with hypotheses, states and operands that meet them (part 1 of 3). -/
theorem witness_PacketModels :
    (∃ (st : State) (q : QRef) (p : Packet) (qu : Queue) (c : Cmd) (b : Hw),
      (Acting st.hw specModelLoad q p qu c b) ∧
      1024 ≤ b.models.length) ∧
    (∃ (st : State) (q : QRef) (p : Packet) (qu : Queue) (c : Cmd) (b : Hw) (i : Nat) (e : Nat) (a : Nat),
      (Acting st.hw specModelLoad q p qu c b) ∧
      ((imagePages b c.pid (c.f 24 6) (c.f 32 6)).find? (fun x => match x.2 with | .error _ => true | .ok _ => false) = some (i, .error e)) ∧
      (a = ((pieces (c.f 24 6) (c.f 32 6)).getD i (c.f 24 6, 0)).1) ∧
      b.models.length < 1024) ∧
    (∃ (st : State) (q : QRef) (p : Packet) (qu : Queue) (c : Cmd) (b : Hw) (ps : List Nat) (k : Hw),
      (Acting st.hw specModelLoad q p qu c b) ∧
      (RecordEnds b c (c.f 24 6) (c.f 32 6) k) ∧
      b.models.length < 1024 ∧
      (imagePages b c.pid (c.f 24 6) (c.f 32 6) = (List.range ps.length).map fun i => (i, (Except.ok (ps.getD i 0) :
      Except Nat Nat)))) ∧
    (∃ (st : State) (q : QRef) (p : Packet) (qu : Queue) (c : Cmd) (b : Hw) (ps : List Nat) (bs : List Byte) (k :
      Hw) (off : Nat),
      (Acting st.hw specModelLoad q p qu c b) ∧
      (ImageRead b c ps bs k) ∧
      (parseImage bs (c.f 24 6) (c.f 32 6) = .error off)) ∧
    (∃ (st : State) (q : QRef) (p : Packet) (qu : Queue) (c : Cmd) (b : Hw) (ps : List Nat) (bs : List Byte) (k :
      Hw) (m : Model) (i : Nat),
      (Acting st.hw specModelLoad q p qu c b) ∧
      (ImageRead b c ps bs k) ∧
      (parseImage bs (c.f 24 6) (c.f 32 6) = .ok m) ∧
      classFault k c.pid ps m = some i) := by
  refine ⟨?_, ?_, ?_, ?_, ?_⟩
  · exact ⟨⟨[],
      { (filled 0x110000 image0 (served.modPart 1 fun p => { p with cls := 1 })) with models := (upto 128 1024).map fun i => (i, model0) }⟩,
      Q1, (pk [(32, 80), (33, 1)]), queueAt 0, _, _, acting_of (by decide +kernel), by decide +kernel⟩
  · exact ⟨⟨[], (filled 0x110000 image0 (served.modPart 1 fun p => { p with cls := 1 }))⟩, Q1, (pk [(32, 80), (33,
      1), (26, 16)]), queueAt 0, _, _, _, _, _, acting_of (by decide +kernel), w_some (by decide +kernel), rfl,
      by decide +kernel⟩
  · exact ⟨⟨[], ((filled 0x110000 image0 (served.modPart 1 fun p => { p with cls := 1 })).store 0x110000
      (image0.take 32) true)⟩, Q1, (pk [(32, 80), (33, 1)]), queueAt 0, _, _, [0x110000], _, acting_of
      (by decide +kernel), recEnd_of (by decide +kernel), by decide +kernel⟩
  · exact ⟨⟨[], (served.modPart 1 fun p => { p with cls := 1 })⟩, Q1, (pk [(32, 80), (33, 1)]), queueAt 0, _, _, _,
      _, _, _, acting_of (by decide +kernel), img_of (by decide +kernel) (by decide +kernel), w_error
      (by decide +kernel)⟩
  · exact ⟨⟨[], (filled 0x110000 image0 served)⟩, Q1, (pk [(32, 80), (33, 1)]), queueAt 0, _, _, _, _, _, _, _,
      acting_of (by decide +kernel), img_of (by decide +kernel) (by decide +kernel), w_ok (by decide +kernel),
      w_some (by decide +kernel)⟩

/-- For clauses of PacketModels with hypotheses, states and operands that meet them (part 2 of 3). -/
theorem witness_PacketModels_2 :
    (∃ (st : State) (q : QRef) (p : Packet) (qu : Queue) (c : Cmd) (b : Hw) (ps : List Nat) (bs : List Byte) (k :
      Hw) (m : Model),
      (Acting st.hw specModelLoad q p qu c b) ∧
      (ImageRead b c ps bs k) ∧
      (parseImage bs (c.f 24 6) (c.f 32 6) = .ok m) ∧
      classFault k c.pid ps m = none ∧
      m.hasUndercoat = true ∧
      (ucFits k c.pid (c.f 17 1) m = false)) ∧
    (∃ (st : State) (q : QRef) (p : Packet) (qu : Queue) (c : Cmd) (b : Hw) (ps : List Nat) (bs : List Byte) (k :
      Hw) (m : Model) (i : Nat),
      (Acting st.hw specModelLoad q p qu c b) ∧
      (ImageRead b c ps bs k) ∧
      (parseImage bs (c.f 24 6) (c.f 32 6) = .ok m) ∧
      k.claimConflict c.pid m = some i ∧
      classFault k c.pid ps m = none ∧
      (m.hasUndercoat = false ∨ ucFits k c.pid (c.f 17 1) m = true)) ∧
    (∃ (st : State) (q : QRef) (p : Packet) (qu : Queue) (c : Cmd) (b : Hw) (ps : List Nat) (bs : List Byte) (k :
      Hw) (m : Model),
      (Acting st.hw specModelLoad q p qu c b) ∧
      (ImageRead b c ps bs k) ∧
      (parseImage bs (c.f 24 6) (c.f 32 6) = .ok m) ∧
      classFault k c.pid ps m = none ∧
      m.hasUndercoat = false ∧
      k.claimConflict c.pid m = none) ∧
    (∃ (st : State) (q : QRef) (p : Packet) (qu : Queue) (c : Cmd) (b : Hw) (ps : List Nat) (bs : List Byte) (k :
      Hw) (m : Model),
      (Acting st.hw specModelLoad q p qu c b) ∧
      (ImageRead b c ps bs k) ∧
      (parseImage bs (c.f 24 6) (c.f 32 6) = .ok m) ∧
      classFault k c.pid ps m = none ∧
      m.hasUndercoat = true ∧
      (ucFits k c.pid (c.f 17 1) m = true) ∧
      k.claimConflict c.pid m = none) ∧
    (∃ (st : State) (q : QRef) (p : Packet) (qu : Queue) (c : Cmd) (b : Hw),
      (Acting st.hw specModelPin q p qu c b)) := by
  refine ⟨?_, ?_, ?_, ?_, ?_⟩
  · exact ⟨⟨[], (filled 0x110000 imageUc (served.modPart 1 fun p => { p with cls := 1 }))⟩, Q1, (pk [(32, 80), (33,
      1)]), queueAt 0, _, _, _, _, _, _, acting_of (by decide +kernel), img_of (by decide +kernel)
      (by decide +kernel), w_ok (by decide +kernel), by decide +kernel⟩
  · exact ⟨⟨[],
      { (filled 0x110000 image0 (served.modPart 1 fun p => { p with cls := 1 })) with models := [(128, model0)] }⟩,
      Q1, (pk [(32, 80), (33, 1)]), queueAt 0, _, _, _, _, _, _, _, acting_of (by decide +kernel), img_of
      (by decide +kernel) (by decide +kernel), w_ok (by decide +kernel), w_some (by decide +kernel),
      by decide +kernel⟩
  · exact ⟨⟨[], (filled 0x110000 image0 (served.modPart 1 fun p => { p with cls := 1 }))⟩, Q1, (pk [(32, 80), (33,
      1)]), queueAt 0, _, _, _, _, _, _, acting_of (by decide +kernel), img_of (by decide +kernel)
      (by decide +kernel), w_ok (by decide +kernel), by decide +kernel⟩
  · exact ⟨⟨[],
      { (filled 0x110000 imageUc (served.modPart 1 fun p => { p with cls := 1 })) with models := [(65, undercoat0)] }⟩,
      Q1, (pk [(32, 80), (33, 1), (17, 1)]), queueAt 0, _, _, _, _, _, _, acting_of (by decide +kernel), img_of
      (by decide +kernel) (by decide +kernel), w_ok (by decide +kernel), by decide +kernel⟩
  · exact ⟨⟨[], (withModel model0)⟩, Q, zeros 64, queueAt 0, _, _, acting_of (by decide +kernel)⟩

/-- For clauses of PacketModels with hypotheses, states and operands that meet them (part 3 of 3). -/
theorem witness_PacketModels_3 :
    (∃ (st : State) (q : QRef) (p : Packet) (qu : Queue) (c : Cmd) (b : Hw),
      (Acting st.hw specModelUnpin q p qu c b)) ∧
    (∃ (st : State) (q : QRef) (p : Packet) (qu : Queue) (c : Cmd) (b : Hw),
      (Acting st.hw specModelEvict q p qu c b) ∧
      (bit (c.f 17 1) 0 = false)) ∧
    (∃ (st : State) (q : QRef) (p : Packet) (qu : Queue) (c : Cmd) (b : Hw) (m : Model),
      (Acting st.hw specModelEvict q p qu c b) ∧
      ((b.toRegistered c.pid (mHandle c)).model c.pid (mHandle c) = some m) ∧
      (bit (c.f 17 1) 0 = true)) ∧
    (∃ (st : State) (q : QRef) (p : Packet) (qu : Queue) (c : Cmd) (b : Hw) (m : Model) (k : Hw),
      (Acting st.hw specModelQuery q p qu c b) ∧
      (b.model c.pid (mHandle c) = some m) ∧
      (b.cmdWrite c.pid (c.f 24 6 / 32 * 32) (modelRecord b c.pid (mHandle c) m) false = (none, k))) := by
  refine ⟨?_, ?_, ?_, ?_⟩
  · exact ⟨⟨[], (withModel model0)⟩, Q, zeros 64, queueAt 0, _, _, acting_of (by decide +kernel)⟩
  · exact ⟨⟨[], (withModel model0)⟩, Q, zeros 64, queueAt 0, _, _, acting_of (by decide +kernel), by decide +kernel⟩
  · exact ⟨⟨[], (withModel model0)⟩, Q, (pk [(17, 1)]), queueAt 0, _, _, _, acting_of (by decide +kernel), w_some
      (by decide +kernel), by decide +kernel⟩
  · exact ⟨⟨[], (withModel model0)⟩, Q, zeros 64, queueAt 0, _, _, _, _, acting_of (by decide +kernel), w_some
      (by decide +kernel), w_fst (by decide +kernel)⟩

/-- For clauses of PacketJobs with hypotheses, states and operands that meet them (part 1 of 2). -/
theorem witness_PacketJobs :
    (∃ (st : State) (q : QRef) (p : Packet) (qu : Queue) (c : Cmd) (b : Hw),
      (Taking st.hw specJobSubmit q p qu c b) ∧
      subPlace c = 0) ∧
    (∃ (st : State) (q : QRef) (p : Packet) (qu : Queue) (c : Cmd) (b : Hw),
      (Taking st.hw specJobSubmit q p qu c b) ∧
      (st.hw.groupSubmit q qu (rowPacket 0x40 p) = true)) ∧
    (∃ (st : State) (q : QRef) (p : Packet) (qu : Queue) (c : Cmd) (b : Hw) (j : Job),
      (Acting st.hw specJobCancel q p qu c b) ∧
      (b.jobBySeq c.pid (c.f 16 6) = some j)) ∧
    (∃ (st : State) (q : QRef) (p : Packet) (qu : Queue) (c : Cmd) (b : Hw) (g : GJob) (k : Hw),
      (Acting st.hw specJobCancel q p qu c b) ∧
      (b.gjobBySeq c.pid (c.f 16 6) = some g) ∧
      (k =
      { b with sys := { b.sys with grp := { b.sys.grp with jobs := b.sys.grp.jobs.map fun x => if x.gseq = g.gseq then { x with cancelled := some (x.cancelled.getD c.seq) } else x } } })
      ∧
      (b.jobBySeq c.pid (c.f 16 6) = none)) ∧
    (∃ (st : State) (q : QRef) (p : Packet) (qu : Queue) (c : Cmd) (b : Hw),
      (Acting st.hw specJobCancel q p qu c b) ∧
      (b.jobBySeq c.pid (c.f 16 6) = none) ∧
      (b.gjobBySeq c.pid (c.f 16 6) = none)) := by
  refine ⟨?_, ?_, ?_, ?_, ?_⟩
  · exact ⟨⟨[], jobless⟩, Q1, (pk [(18, 1)]), queueAt 0, _, _, taking_of (by decide +kernel), by decide +kernel⟩
  · exact ⟨⟨[], managed⟩, Q1, (pk [(17, 15), (18, 1)]), queueAt 0, _, _, taking_of (by decide +kernel),
      by decide +kernel⟩
  · exact ⟨⟨[], (noCmds (withJob job0 model0))⟩, Q1, (pk [(16, 1)]), queueAt 0, _, _, _, acting_of
      (by decide +kernel), w_some (by decide +kernel)⟩
  · exact ⟨⟨[], onGroup⟩, Q1, (pk [(16, 5)]), queueAt 0, _, _, _, _, acting_of (by decide +kernel), w_some
      (by decide +kernel), rfl, by decide +kernel⟩
  · exact ⟨⟨[], jobless⟩, Q1, (pk [(16, 9)]), queueAt 0, _, _, acting_of (by decide +kernel), by decide +kernel⟩

/-- For clauses of PacketJobs with hypotheses, states and operands that meet them (part 2 of 2). -/
theorem witness_PacketJobs_2 :
    (∃ (st : State) (q : QRef) (p : Packet) (qu : Queue) (c : Cmd) (b : Hw) (j : Job),
      (Acting st.hw specJobQuery q p qu c b) ∧
      (b.jobBySeq c.pid (c.f 16 6) = some j)) ∧
    (∃ (st : State) (q : QRef) (p : Packet) (qu : Queue) (c : Cmd) (b : Hw) (g : GJob),
      (Acting st.hw specJobQuery q p qu c b) ∧
      (b.gjobBySeq c.pid (c.f 16 6) = some g) ∧
      (b.jobBySeq c.pid (c.f 16 6) = none)) ∧
    (∃ (st : State) (q : QRef) (p : Packet) (qu : Queue) (c : Cmd) (b : Hw),
      (Acting st.hw specJobQuery q p qu c b) ∧
      (b.jobBySeq c.pid (c.f 16 6) = none) ∧
      (b.gjobBySeq c.pid (c.f 16 6) = none)) := by
  refine ⟨?_, ?_, ?_⟩
  · exact ⟨⟨[], (noCmds (withJob job0 model0))⟩, Q1, (pk [(16, 1)]), queueAt 0, _, _, _, acting_of
      (by decide +kernel), w_some (by decide +kernel)⟩
  · exact ⟨⟨[], onGroup⟩, Q1, (pk [(16, 5)]), queueAt 0, _, _, _, acting_of (by decide +kernel), w_some
      (by decide +kernel), by decide +kernel⟩
  · exact ⟨⟨[], jobless⟩, Q1, (pk [(16, 9)]), queueAt 0, _, _, acting_of (by decide +kernel), by decide +kernel⟩

/-- For clauses of PacketSequencesAndGazetteer with hypotheses, states and operands that meet them (part 1 of 5). -/
theorem witness_PacketSequencesAndGazetteer :
    (∃ (st : State) (q : QRef) (p : Packet) (qu : Queue) (c : Cmd) (b : Hw),
      (Acting st.hw specSeqCreate q p qu c b) ∧
      (b.runsFault c.pid (createSeqRec c) 0 (createSeqRec c).maxs = none)) ∧
    (∃ (st : State) (q : QRef) (p : Packet) (qu : Queue) (c : Cmd) (b : Hw) (a : Nat) (e : Nat),
      (Acting st.hw specSeqCreate q p qu c b) ∧
      (b.runsFault c.pid (createSeqRec c) 0 (createSeqRec c).maxs = some (a, e))) ∧
    (∃ (st : State) (q : QRef) (p : Packet) (qu : Queue) (c : Cmd) (b : Hw) (s : SeqRec) (x : Nat) (e : Nat),
      (Acting st.hw specSeqFork q p qu c b) ∧
      (b.seqOf c.pid (c.f 16 2) = some s) ∧
      (b.runsFault c.pid { s with plVa := c.f 24 6 } 0 s.maxs = some (x, e))) ∧
    (∃ (st : State) (q : QRef) (p : Packet) (qu : Queue) (c : Cmd) (b : Hw) (s : SeqRec) (k : Hw),
      (Acting st.hw specSeqFork q p qu c b) ∧
      (b.seqOf c.pid (c.f 16 2) = some s) ∧
      (EntriesEnd b c s 0 s.maxs k) ∧
      (b.runsFault c.pid { s with plVa := c.f 24 6 } 0 s.maxs = none)) ∧
    (∃ (st : State) (q : QRef) (p : Packet) (qu : Queue) (c : Cmd) (b : Hw) (s : SeqRec) (es : List (List Nat)) (k :
      Hw),
      (Acting st.hw specSeqFork q p qu c b) ∧
      (b.seqOf c.pid (c.f 16 2) = some s) ∧
      (ReadsEntries b c s 0 s.maxs es k) ∧
      (b.runsFault c.pid { s with plVa := c.f 24 6 } 0 s.maxs = none)) := by
  refine ⟨?_, ?_, ?_, ?_, ?_⟩
  · exact ⟨⟨[], served⟩, Q, (pk [(25, 48), (33, 1), (41, 53)]), queueAt 0, _, _, acting_of (by decide +kernel),
      by decide +kernel⟩
  · exact ⟨⟨[], served⟩, Q, (pk [(26, 16), (33, 1), (41, 53)]), queueAt 0, _, _, _, _, acting_of
      (by decide +kernel), w_somePair (by decide +kernel)⟩
  · exact ⟨⟨[], (withSeq (seq0 5 256 0))⟩, Q, (pk [(18, 1), (26, 16)]), queueAt 0, _, _, _, _, _, acting_of
      (by decide +kernel), w_some (by decide +kernel), w_somePair (by decide +kernel)⟩
  · exact ⟨⟨[], (stainAt 0x103000 (withSeq (seq0 5 256 0)))⟩, Q, (pk [(18, 1), (25, 64)]), queueAt 0, _, _, _, _,
      acting_of (by decide +kernel), w_some (by decide +kernel), entEnd_of (by decide +kernel), by decide +kernel⟩
  · exact ⟨⟨[], (withSeq (seq0 5 256 0))⟩, Q, (pk [(18, 1), (25, 64)]), queueAt 0, _, _, _, _, _, acting_of
      (by decide +kernel), w_some (by decide +kernel), reads_of (by decide +kernel), by decide +kernel⟩

/-- For clauses of PacketSequencesAndGazetteer with hypotheses, states and operands that meet them (part 2 of 5). -/
theorem witness_PacketSequencesAndGazetteer_2 :
    (∃ (st : State) (q : QRef) (p : Packet) (qu : Queue) (c : Cmd) (b : Hw) (s : SeqRec),
      (Acting st.hw specSeqTruncate q p qu c b) ∧
      (b.seqOf c.pid (c.f 16 2) = some s) ∧
      (s.len < bits (c.f 20 4) 0 21)) ∧
    (∃ (st : State) (q : QRef) (p : Packet) (qu : Queue) (c : Cmd) (b : Hw) (s : SeqRec) (n : Nat) (i : Nat) (es :
      List (List Nat)) (k : Hw),
      (Acting st.hw specSeqTruncate q p qu c b) ∧
      (b.seqOf c.pid (c.f 16 2) = some s) ∧
      (n = bits (c.f 20 4) 0 21) ∧
      i = cdiv n s.tps ∧
      (ReadsEntries b c s i (s.maxs - i) es k) ∧
      n ≤ s.len) ∧
    (∃ (st : State) (q : QRef) (p : Packet) (qu : Queue) (c : Cmd) (b : Hw) (s : SeqRec) (i : Nat) (k : Hw),
      (Acting st.hw specSeqTruncate q p qu c b) ∧
      (b.seqOf c.pid (c.f 16 2) = some s) ∧
      (i = cdiv (bits (c.f 20 4) 0 21) s.tps) ∧
      (EntriesEnd b c s i (s.maxs - i) k) ∧
      (bits (c.f 20 4) 0 21 ≤ s.len)) ∧
    (∃ (st : State) (q : QRef) (p : Packet) (qu : Queue) (c : Cmd) (b : Hw) (s : SeqRec) (k : Hw),
      (Acting st.hw specSeqFree q p qu c b) ∧
      (b.seqOf c.pid (c.f 16 2) = some s) ∧
      (EntriesEnd b c s 0 s.maxs k)) ∧
    (∃ (st : State) (q : QRef) (p : Packet) (qu : Queue) (c : Cmd) (b : Hw) (s : SeqRec) (es : List (List Nat)) (k :
      Hw),
      (Acting st.hw specSeqFree q p qu c b) ∧
      (b.seqOf c.pid (c.f 16 2) = some s) ∧
      (ReadsEntries b c s 0 s.maxs es k)) := by
  refine ⟨?_, ?_, ?_, ?_, ?_⟩
  · exact ⟨⟨[], (withSeq (seq0 5 256 0))⟩, Q, (pk [(20, 5)]), queueAt 0, _, _, _, acting_of (by decide +kernel),
      w_some (by decide +kernel), by decide +kernel⟩
  · exact ⟨⟨[], (withSeq (seq0 5 256 0))⟩, Q, zeros 64, queueAt 0, _, _, _, _, _, _, _, acting_of
      (by decide +kernel), w_some (by decide +kernel), rfl, rfl, reads_of (by decide +kernel), by decide +kernel⟩
  · exact ⟨⟨[], (stainAt 0x103000 (withSeq (seq0 5 256 8)))⟩, Q, (zeros 64), queueAt 0, _, _, _, _, _, acting_of
      (by decide +kernel), w_some (by decide +kernel), rfl, entEnd_of (by decide +kernel), by decide +kernel⟩
  · exact ⟨⟨[], (stainAt 0x103000 (withSeq (seq0 5 256 0)))⟩, Q, (zeros 64), queueAt 0, _, _, _, _, acting_of
      (by decide +kernel), w_some (by decide +kernel), entEnd_of (by decide +kernel)⟩
  · exact ⟨⟨[], (withSeq (seq0 5 256 0))⟩, Q, zeros 64, queueAt 0, _, _, _, _, _, acting_of (by decide +kernel),
      w_some (by decide +kernel), reads_of (by decide +kernel)⟩

/-- For clauses of PacketSequencesAndGazetteer with hypotheses, states and operands that meet them (part 3 of 5). -/
theorem witness_PacketSequencesAndGazetteer_3 :
    (∃ (st : State) (q : QRef) (p : Packet) (qu : Queue) (c : Cmd) (b : Hw) (s : SeqRec) (e : Nat × Nat) (k : Hw),
      (Acting st.hw specSeqQuery q p qu c b) ∧
      (b.seqOf c.pid (c.f 16 2) = some s) ∧
      (b.cmdWrite c.pid (c.f 24 6 / 32 * 32) s.bytes false = (some e, k))) ∧
    (∃ (st : State) (q : QRef) (p : Packet) (qu : Queue) (c : Cmd) (b : Hw) (s : SeqRec) (k : Hw),
      (Acting st.hw specSeqQuery q p qu c b) ∧
      (b.seqOf c.pid (c.f 16 2) = some s) ∧
      (b.cmdWrite c.pid (c.f 24 6 / 32 * 32) s.bytes false = (none, k))) ∧
    (∃ (st : State) (q : QRef) (p : Packet) (qu : Queue) (c : Cmd) (b : Hw) (s : SeqRec) (e : Nat) (tok : List Byte)
      (k : Hw) (k2 : Hw) (k3 : Hw) (es : List (List Nat)) (r : PubState),
      (Acting st.hw specGazPublish q p qu c b) ∧
      (b.seqOf c.pid (c.f 16 2) = some s) ∧
      b.freeEntry c.pid = some e ∧
      (b.cmdRead c.pid (c.f 24 6) (1024 * c.f 20 2) = (.ok (tok, false), k)) ∧
      (ReadsEntries k c s 0 (c.f 20 2 * (256 / s.tps)) es k2) ∧
      (k2.publish c.pid e (c.f 32 8) s es 1 (gazChain (gazSeed (c.f 32 8) s) tok (c.f 20 2)) ⟨0, noNode, 0, []⟩ =
      (r, k3)) ∧
      (r.made = []) ∧
      r.depth = 0) ∧
    (∃ (st : State) (q : QRef) (p : Packet) (qu : Queue) (c : Cmd) (b : Hw) (s : SeqRec) (e : Nat) (tok : List Byte)
      (k : Hw) (k2 : Hw) (k3 : Hw) (es : List (List Nat)) (r : PubState),
      (Acting st.hw specGazPublish q p qu c b) ∧
      (b.seqOf c.pid (c.f 16 2) = some s) ∧
      b.freeEntry c.pid = some e ∧
      (b.cmdRead c.pid (c.f 24 6) (1024 * c.f 20 2) = (.ok (tok, false), k)) ∧
      (ReadsEntries k c s 0 (c.f 20 2 * (256 / s.tps)) es k2) ∧
      (k2.publish c.pid e (c.f 32 8) s es 1 (gazChain (gazSeed (c.f 32 8) s) tok (c.f 20 2)) ⟨0, noNode, 0, []⟩ =
      (r, k3)) ∧
      (r.made = []) ∧
      r.depth ≠ 0) ∧
    (∃ (st : State) (q : QRef) (p : Packet) (qu : Queue) (c : Cmd) (b : Hw) (s : SeqRec) (e : Nat) (tok : List Byte)
      (k : Hw) (k2 : Hw) (k3 : Hw) (es : List (List Nat)) (r : PubState),
      (Acting st.hw specGazPublish q p qu c b) ∧
      (b.seqOf c.pid (c.f 16 2) = some s) ∧
      b.freeEntry c.pid = some e ∧
      (b.cmdRead c.pid (c.f 24 6) (1024 * c.f 20 2) = (.ok (tok, false), k)) ∧
      (ReadsEntries k c s 0 (c.f 20 2 * (256 / s.tps)) es k2) ∧
      (k2.publish c.pid e (c.f 32 8) s es 1 (gazChain (gazSeed (c.f 32 8) s) tok (c.f 20 2)) ⟨0, noNode, 0, []⟩ =
      (r, k3)) ∧
      (r.made ≠ []) ∧
      r.depth ≠ 0) := by
  refine ⟨?_, ?_, ?_, ?_, ?_⟩
  · exact ⟨⟨[], (withSeq (seq0 5 256 0))⟩, Q, (pk [(26, 16)]), queueAt 0, _, _, _, _, _, acting_of
      (by decide +kernel), w_some (by decide +kernel), w_someFst (by decide +kernel)⟩
  · exact ⟨⟨[], (withSeq (seq0 5 256 0))⟩, Q, zeros 64, queueAt 0, _, _, _, _, acting_of (by decide +kernel), w_some
      (by decide +kernel), w_fst (by decide +kernel)⟩
  · exact ⟨⟨[], (withSeq (seq0 10 256 256))⟩, Q1, (pk [(20, 1)]), queueAt 0, _, _, _, _, _, _, _, _, _, _, acting_of
      (by decide +kernel), w_some (by decide +kernel), w_some (by decide +kernel), w_okFlag (by decide +kernel)
      (by decide +kernel), reads_of (by decide +kernel), w_pair, by decide +kernel⟩
  · exact ⟨⟨[], (noded (seq0 10 256 256))⟩, Q1, (pk [(20, 1)]), queueAt 0, _, _, _, _, _, _, _, _, _, _, acting_of
      (by decide +kernel), w_some (by decide +kernel), w_some (by decide +kernel), w_okFlag (by decide +kernel)
      (by decide +kernel), reads_of (by decide +kernel), w_pair, by decide +kernel⟩
  · exact ⟨⟨[], (ownSheets (withSeq (seq0 10 256 256)))⟩, Q1, (pk [(20, 1)]), queueAt 0, _, _, _, _, _, _, _, _, _,
      _, acting_of (by decide +kernel), w_some (by decide +kernel), w_some (by decide +kernel), w_okFlag
      (by decide +kernel) (by decide +kernel), reads_of (by decide +kernel), w_pair, by decide +kernel⟩

/-- For clauses of PacketSequencesAndGazetteer with hypotheses, states and operands that meet them (part 4 of 5). -/
theorem witness_PacketSequencesAndGazetteer_4 :
    (∃ (st : State) (q : QRef) (p : Packet) (qu : Queue) (c : Cmd) (b : Hw) (s : SeqRec) (k : Hw),
      (Acting st.hw specGazPublish q p qu c b) ∧
      (b.seqOf c.pid (c.f 16 2) = some s) ∧
      (RecordEnds b c (c.f 24 6) (1024 * c.f 20 2) k) ∧
      ((b.freeEntry c.pid).isSome = true)) ∧
    (∃ (st : State) (q : QRef) (p : Packet) (qu : Queue) (c : Cmd) (b : Hw) (s : SeqRec) (tok : List Byte) (k : Hw)
      (k2 : Hw),
      (Acting st.hw specGazPublish q p qu c b) ∧
      (b.seqOf c.pid (c.f 16 2) = some s) ∧
      (b.cmdRead c.pid (c.f 24 6) (1024 * c.f 20 2) = (.ok (tok, false), k)) ∧
      (EntriesEnd k c s 0 (c.f 20 2 * (256 / s.tps)) k2) ∧
      ((b.freeEntry c.pid).isSome = true)) ∧
    (∃ (st : State) (q : QRef) (p : Packet) (qu : Queue) (c : Cmd) (b : Hw) (s : SeqRec) (tok : List Byte) (k : Hw),
      (Acting st.hw specGazLookup q p qu c b) ∧
      (b.seqOf c.pid (c.f 16 2) = some s) ∧
      (b.cmdRead c.pid (c.f 24 6) (1024 * c.f 20 2) = (.ok (tok, false), k)) ∧
      (k.chainNodes noNode (gazChain (gazSeed (c.f 32 8) s) tok (min (c.f 20 2) (s.cap / 256))) = [])) ∧
    (∃ (st : State) (q : QRef) (p : Packet) (qu : Queue) (c : Cmd) (b : Hw) (s : SeqRec) (tok : List Byte) (k : Hw)
      (k2 : Hw) (ns : List Nat),
      (Acting st.hw specGazLookup q p qu c b) ∧
      (b.seqOf c.pid (c.f 16 2) = some s) ∧
      (b.cmdRead c.pid (c.f 24 6) (1024 * c.f 20 2) = (.ok (tok, false), k)) ∧
      (ns = k.chainNodes noNode (gazChain (gazSeed (c.f 32 8) s) tok (min (c.f 20 2) (s.cap / 256)))) ∧
      (k.writeLayers c.pid s 0 0 ((List.range (s.layers + 1)).map fun l => k.nodeEntries l ns) = (none, k2)) ∧
      (ns ≠ [])) ∧
    (∃ (st : State) (q : QRef) (p : Packet) (qu : Queue) (c : Cmd) (b : Hw) (s : SeqRec) (k : Hw),
      (Acting st.hw specGazLookup q p qu c b) ∧
      (b.seqOf c.pid (c.f 16 2) = some s) ∧
      (RecordEnds b c (c.f 24 6) (1024 * c.f 20 2) k)) := by
  refine ⟨?_, ?_, ?_, ?_, ?_⟩
  · exact ⟨⟨[], (withSeq (seq0 10 256 256))⟩, Q1, (pk [(20, 1), (26, 16)]), queueAt 0, _, _, _, _, acting_of
      (by decide +kernel), w_some (by decide +kernel), recEnd_of (by decide +kernel), by decide +kernel⟩
  · exact ⟨⟨[], (stainAt 0x113000 (withSeq (seq0 10 256 256)))⟩, Q1, (pk [(20, 1)]), queueAt 0, _, _, _, _, _, _,
      acting_of (by decide +kernel), w_some (by decide +kernel), w_okFlag (by decide +kernel) (by decide +kernel),
      entEnd_of (by decide +kernel), by decide +kernel⟩
  · exact ⟨⟨[], (withSeq (seq0 10 256 0))⟩, Q1, (pk [(20, 1)]), queueAt 0, _, _, _, _, _, acting_of
      (by decide +kernel), w_some (by decide +kernel), w_okFlag (by decide +kernel) (by decide +kernel),
      by decide +kernel⟩
  · exact ⟨⟨[],
      { withSeq (seq0 10 256 0) with kv := { (withSeq (seq0 10 256 0)).kv with gaz := { nodes := [(0, { hash := (gazChain (gazSeed 0 (seq0 10 256 0)) (zeros 1024) 1).headD 0, ns := 0, parent := noNode, depth := 1, pub := 1, state := 1, refs := 0, children := 0, tbl := 0, layers := 0, rankfmt := 0, entry := 0 })], table := [], entries := [] } } }⟩,
      Q1, (pk [(20, 1)]), queueAt 0, _, _, _, _, _, _, _, acting_of (by decide +kernel), w_some (by decide +kernel),
      w_okFlag (by decide +kernel) (by decide +kernel), rfl, w_fst (by decide +kernel), by decide +kernel⟩
  · exact ⟨⟨[], (withSeq (seq0 10 256 0))⟩, Q1, (pk [(20, 1), (26, 16)]), queueAt 0, _, _, _, _, acting_of
      (by decide +kernel), w_some (by decide +kernel), recEnd_of (by decide +kernel)⟩

/-- For clauses of PacketSequencesAndGazetteer with hypotheses, states and operands that meet them (part 5 of 5). -/
theorem witness_PacketSequencesAndGazetteer_5 :
    ∃ (st : State) (q : QRef) (p : Packet) (qu : Queue) (c : Cmd) (b : Hw),
    (Acting st.hw specGazRetire q p qu c b) :=
  ⟨⟨[], served⟩, Q, zeros 64, queueAt 0, _, _, acting_of (by decide +kernel)⟩

/-- For clauses of PacketStencilsAndPartitions with hypotheses, states and operands that meet them (part 1 of 5). -/
theorem witness_PacketStencilsAndPartitions :
    (∃ (st : State) (q : QRef) (p : Packet) (qu : Queue) (c : Cmd) (b : Hw) (s : Stencil) (k : Hw),
      (Acting st.hw specStencilLoad q p qu c b) ∧
      (b.takeKept c = (some (.stencil s), k))) ∧
    (∃ (st : State) (q : QRef) (p : Packet) (qu : Queue) (c : Cmd) (b : Hw) (j : Hw) (k : Hw) (e : Nat × Nat),
      (Acting st.hw specStencilLoad q p qu c b) ∧
      (b.takeKept c = (none, j)) ∧
      (j.cmdRead c.pid (c.f 24 6) (min (c.f 32 4) 289696) = (.error e, k))) ∧
    (∃ (st : State) (q : QRef) (p : Packet) (qu : Queue) (c : Cmd) (b : Hw) (j : Hw) (k : Hw),
      (Acting st.hw specStencilLoad q p qu c b) ∧
      (b.takeKept c = (none, j)) ∧
      (RecordEnds j c (c.f 24 6) (min (c.f 32 4) 289696) k)) ∧
    (∃ (st : State) (q : QRef) (p : Packet) (qu : Queue) (c : Cmd) (b : Hw) (j : Hw) (k : Hw) (bs : List Byte),
      (Acting st.hw specStencilLoad q p qu c b) ∧
      (b.takeKept c = (none, j)) ∧
      (j.cmdRead c.pid (c.f 24 6) (min (c.f 32 4) 289696) = (.ok (bs, false), k))) ∧
    (∃ (st : State) (q : QRef) (p : Packet) (qu : Queue) (c : Cmd) (b : Hw),
      (Acting st.hw specStencilSwap q p qu c b) ∧
      b.stn.swapAt = none) := by
  refine ⟨?_, ?_, ?_, ?_, ?_⟩
  · exact ⟨⟨[], (filled 0x100000 stnBytes served)⟩, Q, (pk [(32, 160)]), queueAt 0, _, _, _, _, acting_of
      (by decide +kernel), w_stencil (by decide +kernel)⟩
  · exact ⟨⟨[], served⟩, Q, (pk [(26, 16), (32, 160)]), queueAt 0, _, _, _, _, _, acting_of (by decide +kernel),
      w_fst (by decide +kernel), w_errFst (by decide +kernel)⟩
  · exact ⟨⟨[], served⟩, Q, (pk [(26, 16), (32, 160)]), queueAt 0, _, _, _, _, acting_of (by decide +kernel), w_fst
      (by decide +kernel), recEnd_of (by decide +kernel)⟩
  · exact ⟨⟨[], (stainAt 0x108000 served)⟩, Q, (pk [(25, 128), (32, 64)]), queueAt 0, _, _, _, _, _, acting_of
      (by decide +kernel), w_fst (by decide +kernel), w_okFlag (by decide +kernel) (by decide +kernel)⟩
  · exact ⟨⟨[], (stnOf (fun s => { s with shadow := some Stencil.firmware }) served)⟩, Q, zeros 64, queueAt 0, _, _,
      acting_of (by decide +kernel), by decide +kernel⟩

/-- For clauses of PacketStencilsAndPartitions with hypotheses, states and operands that meet them (part 2 of 5). -/
theorem witness_PacketStencilsAndPartitions_2 :
    (∃ (st : State) (q : QRef) (p : Packet) (qu : Queue) (c : Cmd) (b : Hw),
      (Acting st.hw specStencilSwap q p qu c b) ∧
      b.stn.swapAt.isSome = true) ∧
    (∃ (st : State) (q : QRef) (p : Packet) (qu : Queue) (c : Cmd) (b : Hw),
      (Acting st.hw specBudgetSet q p qu c b)) ∧
    (∃ (st : State) (q : QRef) (p : Packet) (qu : Queue) (c : Cmd) (b : Hw) (r : CreateRec) (k : Hw),
      (Acting st.hw specPartCreate q p qu c b) ∧
      (b.takeKept c = (some (.part r), k))) ∧
    (∃ (st : State) (q : QRef) (p : Packet) (qu : Queue) (c : Cmd) (b : Hw) (j : Hw) (k : Hw) (e : Nat × Nat),
      (Acting st.hw specPartCreate q p qu c b) ∧
      (b.takeKept c = (none, j)) ∧
      (j.cmdRead c.pid (c.f 24 6) 832 = (.error e, k))) ∧
    (∃ (st : State) (q : QRef) (p : Packet) (qu : Queue) (c : Cmd) (b : Hw) (j : Hw) (k : Hw),
      (Acting st.hw specPartCreate q p qu c b) ∧
      (b.takeKept c = (none, j)) ∧
      (RecordEnds j c (c.f 24 6) 832 k)) := by
  refine ⟨?_, ?_, ?_, ?_, ?_⟩
  · exact ⟨⟨[], (stnOf (fun s => { s with shadow := some Stencil.firmware, swapAt := some 50 }) served)⟩, Q, zeros
      64, queueAt 0, _, _, acting_of (by decide +kernel), by decide +kernel⟩
  · exact ⟨⟨[], shared⟩, Q, (pk [(16, 1), (17, 1)]), queueAt 0, _, _, acting_of (by decide +kernel)⟩
  · exact ⟨⟨[], (filled 0x100000 (recBytes 0) pooled)⟩, Q, zeros 64, queueAt 0, _, _, _, _, acting_of
      (by decide +kernel), w_part (by decide +kernel)⟩
  · exact ⟨⟨[], served⟩, Q, (pk [(26, 16)]), queueAt 0, _, _, _, _, _, acting_of (by decide +kernel), w_fst
      (by decide +kernel), w_errFst (by decide +kernel)⟩
  · exact ⟨⟨[], served⟩, Q, (pk [(26, 16)]), queueAt 0, _, _, _, _, acting_of (by decide +kernel), w_fst
      (by decide +kernel), recEnd_of (by decide +kernel)⟩

/-- For clauses of PacketStencilsAndPartitions with hypotheses, states and operands that meet them (part 3 of 5). -/
theorem witness_PacketStencilsAndPartitions_3 :
    (∃ (st : State) (q : QRef) (p : Packet) (qu : Queue) (c : Cmd) (b : Hw) (j : Hw) (k : Hw) (bs : List Byte),
      (Acting st.hw specPartCreate q p qu c b) ∧
      (b.takeKept c = (none, j)) ∧
      (j.cmdRead c.pid (c.f 24 6) 832 = (.ok (bs, false), k)) ∧
      field bs 16 6 = 0) ∧
    (∃ (st : State) (q : QRef) (p : Packet) (qu : Queue) (c : Cmd) (b : Hw) (j : Hw) (k : Hw) (l : Hw) (bs : List
      Byte) (al : List Byte),
      (Acting st.hw specPartCreate q p qu c b) ∧
      (b.takeKept c = (none, j)) ∧
      (j.cmdRead c.pid (c.f 24 6) 832 = (.ok (bs, false), k)) ∧
      (k.cmdRead c.pid (field bs 16 6) 288 = (.ok (al, false), l)) ∧
      field bs 16 6 ≠ 0) ∧
    (∃ (st : State) (q : QRef) (p : Packet) (qu : Queue) (c : Cmd) (b : Hw) (j : Hw) (k : Hw) (l : Hw) (bs : List
      Byte),
      (Acting st.hw specPartCreate q p qu c b) ∧
      (b.takeKept c = (none, j)) ∧
      (j.cmdRead c.pid (c.f 24 6) 832 = (.ok (bs, false), k)) ∧
      (RecordEnds k c (field bs 16 6) 288 l) ∧
      field bs 16 6 ≠ 0) ∧
    (∃ (st : State) (q : QRef) (p : Packet) (qu : Queue) (c : Cmd) (b : Hw),
      (Acting st.hw specPartReset q p qu c b) ∧
      st.hw.sys.lost = none) ∧
    (∃ (s : State) (_q : QRef) (_p : Packet),
      s.hw.sys.lost.isSome = true) := by
  refine ⟨?_, ?_, ?_, ?_, ?_⟩
  · exact ⟨⟨[], (stainAt 0x108000 served)⟩, Q, (pk [(25, 125)]), queueAt 0, _, _, _, _, _, acting_of
      (by decide +kernel), w_fst (by decide +kernel), w_okFlag (by decide +kernel) (by decide +kernel),
      by decide +kernel⟩
  · exact ⟨⟨[], (stainAt 0x108000 (served.store 0x107D00 (putField (zeros 32) 16 6 0x400) false))⟩, Q, (pk [(25,
      125)]), queueAt 0, _, _, _, _, _, _, _, acting_of (by decide +kernel), w_fst (by decide +kernel), w_okFlag
      (by decide +kernel) (by decide +kernel), w_okFlag (by decide +kernel) (by decide +kernel), by decide +kernel⟩
  · exact ⟨⟨[], (stainAt 0x108000 (served.store 0x107D00 (putField (zeros 32) 16 6 0x200000) false))⟩, Q, (pk [(25,
      125)]), queueAt 0, _, _, _, _, _, _, acting_of (by decide +kernel), w_fst (by decide +kernel), w_okFlag
      (by decide +kernel) (by decide +kernel), recEnd_of (by decide +kernel), by decide +kernel⟩
  · exact ⟨⟨[], served⟩, Q, (pk [(16, 1)]), queueAt 0, _, _, acting_of (by decide +kernel), by decide +kernel⟩
  · exact ⟨⟨[], { served with sys := { served.sys with lost := some 0 } }⟩, Q, (pk [(16, 1)]), by decide +kernel⟩

/-- For clauses of PacketStencilsAndPartitions with hypotheses, states and operands that meet them (part 4 of 5). -/
theorem witness_PacketStencilsAndPartitions_4 :
    (∃ (b : Hw) (_c : Cmd),
      b.freeBlock = none) ∧
    (∃ (st : State) (q : QRef) (p : Packet) (qu : Queue) (c : Cmd) (b : Hw) (k : Hw),
      (Acting st.hw specGroupConfig q p qu c b) ∧
      (RecordEnds b c (c.f 24 6) 288 k)) ∧
    (∃ (st : State) (q : QRef) (p : Packet) (qu : Queue) (c : Cmd) (b : Hw),
      (Acting st.hw specPartDestroy q p qu c b)) ∧
    (∃ (st : State) (q : QRef) (p : Packet) (qu : Queue) (c : Cmd) (b : Hw),
      (Acting st.hw specGrant q p qu c b)) ∧
    (∃ (st : State) (q : QRef) (p : Packet) (qu : Queue) (c : Cmd) (b : Hw) (n : Nat),
      (Acting st.hw specSobAlloc q p qu c b) ∧
      b.freeBlock = some n) := by
  refine ⟨?_, ?_, ?_, ?_, ?_⟩
  · exact ⟨sobFull, cmd0 none, by decide +kernel⟩
  · exact ⟨⟨[], served⟩, Q, (pk [(26, 16)]), queueAt 0, _, _, _, acting_of (by decide +kernel), recEnd_of
      (by decide +kernel)⟩
  · exact ⟨⟨[], served⟩, Q, (pk [(16, 1)]), queueAt 0, _, _, acting_of (by decide +kernel)⟩
  · exact ⟨⟨[], served⟩, Q, (pk [(16, 1)]), queueAt 0, _, _, acting_of (by decide +kernel)⟩
  · exact ⟨⟨[], served⟩, Q, (pk [(16, 1)]), queueAt 0, _, _, _, acting_of (by decide +kernel), w_some
      (by decide +kernel)⟩

/-- For clauses of PacketStencilsAndPartitions with hypotheses, states and operands that meet them (part 5 of 5). -/
theorem witness_PacketStencilsAndPartitions_5 :
    (∃ (st : State) (q : QRef) (p : Packet) (qu : Queue) (c : Cmd) (b : Hw) (bs : List Byte) (k : Hw),
      (Acting st.hw specGroupConfig q p qu c b) ∧
      (b.cmdRead c.pid (c.f 24 6) 288 = (.ok (bs, false), k))) ∧
    (∃ (h : Hw) (c : Cmd) (s : Stencil), h.judgeStencil c = .good s) := by
  refine ⟨?_, ?_⟩
  · exact ⟨⟨[], served⟩, Q, zeros 64, queueAt 0, _, _, _, _, acting_of (by decide +kernel), w_okFlag
      (by decide +kernel) (by decide +kernel)⟩
  · exact ⟨filled 0x100000 stnBytes served, { cmd0 none with pkt := pk [(0, 0xC5), (32, 0xA0)] }, Stencil.firmware,
      by decide +kernel⟩

/-- For clauses of PacketModes with hypotheses, states and operands that meet them (part 1 of 2). -/
theorem witness_PacketModes :
    (∃ (st : State) (q : QRef) (p : Packet) (qu : Queue) (c : Cmd) (b : Hw) (_u : BringUp),
      (Acting st.hw specModeSet q p qu c b) ∧
      ((st.hw.sys.lost.isSome || (benchMode st.hw.mode && st.hw.freezeDue)) = false) ∧
      c.f 16 1 = 1) ∧
    (∃ (st : State) (q : QRef) (p : Packet) (qu : Queue) (c : Cmd) (b : Hw) (_u : BringUp),
      (Acting st.hw specModeSet q p qu c b) ∧
      ((st.hw.sys.lost.isSome || (benchMode st.hw.mode && st.hw.freezeDue)) = false) ∧
      c.f 16 1 ≠ 1 ∧
      c.f 16 1 ≠ 2) ∧
    (∃ (st : State) (q : QRef) (p : Packet) (qu : Queue) (c : Cmd) (b : Hw) (_u : BringUp),
      (Acting st.hw specModeSet q p qu c b) ∧
      ((st.hw.sys.lost.isSome || (benchMode st.hw.mode && st.hw.freezeDue)) = false) ∧
      c.f 16 1 = 2 ∧
      b.mode = 2 ∧
      (bit (c.f 17 1) 0 = true)) ∧
    (∃ (st : State) (q : QRef) (p : Packet) (qu : Queue) (c : Cmd) (b : Hw) (_u : BringUp),
      (Acting st.hw specModeSet q p qu c b) ∧
      ((st.hw.sys.lost.isSome || (benchMode st.hw.mode && st.hw.freezeDue)) = false) ∧
      c.f 16 1 = 2 ∧
      b.mode ≠ 2 ∧
      (bit (c.f 17 1) 0 = false ∨ b.mode = 3)) ∧
    (∃ (st : State) (q : QRef) (p : Packet) (qu : Queue) (c : Cmd) (b : Hw) (_u : BringUp),
      (Acting st.hw specModeSet q p qu c b) ∧
      ((st.hw.sys.lost.isSome || (benchMode st.hw.mode && st.hw.freezeDue)) = false) ∧
      c.f 16 1 = 2 ∧
      b.mode ≠ 2 ∧
      b.mode ≠ 3 ∧
      (bit (c.f 17 1) 0 = true)) := by
  refine ⟨?_, ?_, ?_, ?_, ?_⟩
  · exact ⟨⟨[], served⟩, Q, (pk [(16, 1)]), queueAt 0, _, _, ⟨[], [], 15, true⟩, acting_of (by decide +kernel),
      by decide +kernel⟩
  · exact ⟨⟨[], served⟩, Q, (pk [(16, 4)]), queueAt 0, _, _, ⟨[], [], 15, true⟩, acting_of (by decide +kernel),
      by decide +kernel⟩
  · exact ⟨⟨[], served⟩, Q, (pk [(16, 2), (17, 1)]), queueAt 0, _, _, ⟨[], [], 15, true⟩, acting_of
      (by decide +kernel), by decide +kernel⟩
  · exact ⟨⟨[], (served.put F.MOD_MODE_MODE 3)⟩, Q, (pk [(16, 2)]), queueAt 0, _, _, ⟨[], [], 15, true⟩, acting_of
      (by decide +kernel), by decide +kernel⟩
  · exact ⟨⟨[], (served.put F.MOD_MODE_MODE 4)⟩, Q, (pk [(16, 2), (17, 1)]), queueAt 0, _, _, ⟨[], [], 15, true⟩,
      acting_of (by decide +kernel), by decide +kernel⟩

/-- For clauses of PacketModes with hypotheses, states and operands that meet them (part 2 of 2). -/
theorem witness_PacketModes_2 :
    ∃ (s : State) (_q : QRef) (_p : Packet) (_u : BringUp),
    ((s.hw.sys.lost.isSome || (benchMode s.hw.mode && s.hw.freezeDue)) = true) :=
  ⟨⟨[], { bench with freezeReq := true }⟩, Q, (pk [(16, 1)]), ⟨[], [], 15, true⟩, by decide +kernel⟩

/-- For clauses of PacketUnitsAndDebug with hypotheses, states and operands that meet them (part 1 of 4). -/
theorem witness_PacketUnitsAndDebug :
    (∃ (st : State) (q : QRef) (p : Packet) (qu : Queue) (c : Cmd) (b : Hw),
      (Acting st.hw specFreezeArm q p qu c b) ∧
      (bit (c.f 16 1) 2 = true)) ∧
    (∃ (st : State) (q : QRef) (p : Packet) (qu : Queue) (c : Cmd) (b : Hw),
      (Acting st.hw specFreezeArm q p qu c b) ∧
      (bit (c.f 16 1) 2 = false)) ∧
    (∃ (st : State) (q : QRef) (p : Packet) (qu : Queue) (c : Cmd) (b : Hw) (bad : List (Fin 9)) (ts : List Nat) (f
      : Nat) (n : Nat) (j : Hw) (k : Hw),
      (Acting st.hw specSelftestRun q p qu c b) ∧
      (ts = b.testTiles (c.f 16 1) (c.f 18 2)) ∧
      (f = if 2 ≤ c.f 16 1 then countNat 9 (fun r => bad.any fun x => x.val == r) else 0) ∧
      (n = if 2 ≤ c.f 16 1 then 9 else 0) ∧
      (j = ts.foldl (fun x t => if (x.tile t).fails = true then (x.runAllSections t).retireTile t 0 none else
      x.runAllSections t) b) ∧
      (k = if 2 ≤ c.f 16 1 then (List.range 9).foldl (fun x r => [0, 1].foldl (fun x d => x.checkerTest d r none (!
      bad.any fun y => y.val == r)) x) j else j)) ∧
    (∃ (st : State) (q : QRef) (p : Packet) (qu : Queue) (c : Cmd) (b : Hw) (bs : List Byte) (k : Hw) (x : Hw) (y :
      Hw),
      (Acting st.hw specDebugUnlock q p qu c b) ∧
      (b.cmdRead c.pid (c.f 24 6) 128 = (.ok (bs, false), k)) ∧
      (x = { k with sys := { k.sys with dbgLevel := max k.sys.dbgLevel (field bs 4 1) } }) ∧
      (y = if x.comparatorsOff then x else x.breakLockstep 3)) ∧
    (∃ (st : State) (q : QRef) (p : Packet) (qu : Queue) (c : Cmd) (b : Hw) (k : Hw),
      (Acting st.hw specDebugUnlock q p qu c b) ∧
      (RecordEnds b c (c.f 24 6) 128 k)) := by
  refine ⟨?_, ?_, ?_, ?_, ?_⟩
  · exact ⟨⟨[], bench⟩, Q, (pk [(16, 4)]), queueAt 0, _, _, acting_of (by decide +kernel), by decide +kernel⟩
  · exact ⟨⟨[], bench⟩, Q, zeros 64, queueAt 0, _, _, acting_of (by decide +kernel), by decide +kernel⟩
  · exact ⟨⟨[], bench⟩, Q, zeros 64, queueAt 0, _, _, [], _, _, _, _, _, acting_of (by decide +kernel), rfl, rfl,
      rfl, rfl, rfl⟩
  · exact ⟨⟨[], ((bench.put F.MOD_ID_SUFFIX 0x44).store 0x100000 (putField (zeros 128) 4 1 1) false)⟩, Q, zeros 64,
      queueAt 0, _, _, _, _, _, _, acting_of (by decide +kernel), w_okFlag (by decide +kernel) (by decide +kernel),
      rfl, rfl⟩
  · exact ⟨⟨[], (bench.put F.MOD_ID_SUFFIX 0x44)⟩, Q, (pk [(26, 16)]), queueAt 0, _, _, _, acting_of
      (by decide +kernel), recEnd_of (by decide +kernel)⟩

/-- For clauses of PacketUnitsAndDebug with hypotheses, states and operands that meet them (part 2 of 4). -/
theorem witness_PacketUnitsAndDebug_2 :
    (∃ (st : State) (q : QRef) (p : Packet) (qu : Queue) (c : Cmd) (b : Hw),
      (Acting st.hw specTraceConfig q p qu c b) ∧
      c.f 16 1 = 0) ∧
    (∃ (st : State) (q : QRef) (p : Packet) (qu : Queue) (c : Cmd) (b : Hw) (k : Hw) (t : Trace),
      (Acting st.hw specTraceConfig q p qu c b) ∧
      k = b.flushTrace.stopTrace ∧
      (t =
      { va := c.f 24 6, log2Size := c.f 16 1, src := c.f 17 1 % 16, tileX := c.f 18 1, tileY := c.f 19 1, inst := c.f 20 1, queue := [], strokeAt := k.now, inStroke := 0 })
      ∧
      c.f 16 1 ≠ 0) ∧
    (∃ (st : State) (q : QRef) (p : Packet) (qu : Queue) (c : Cmd) (b : Hw) (k : Hw),
      (Acting st.hw specHealthRead q p qu c b) ∧
      (b.cmdWrite c.pid (c.f 24 6) (b.healthSection (c.f 16 1)) false = (none, k))) ∧
    (∃ (st : State) (q : QRef) (p : Packet) (qu : Queue) (c : Cmd) (b : Hw) (e : Nat × Nat) (k : Hw),
      (Acting st.hw specHealthRead q p qu c b) ∧
      (b.cmdWrite c.pid (c.f 24 6) (b.healthSection (c.f 16 1)) false = (some e, k))) ∧
    (∃ (st : State) (q : QRef) (p : Packet) (qu : Queue) (c : Cmd) (b : Hw),
      (Acting st.hw specTileRetire q p qu c b)) := by
  refine ⟨?_, ?_, ?_, ?_, ?_⟩
  · exact ⟨⟨[], bench⟩, Q, zeros 64, queueAt 0, _, _, acting_of (by decide +kernel), by decide +kernel⟩
  · exact ⟨⟨[], bench⟩, Q, (pk [(16, 6)]), queueAt 0, _, _, _, _, acting_of (by decide +kernel), rfl, rfl,
      by decide +kernel⟩
  · exact ⟨⟨[], served⟩, Q, zeros 64, queueAt 0, _, _, _, acting_of (by decide +kernel), w_fst (by decide +kernel)⟩
  · exact ⟨⟨[], served⟩, Q, (pk [(26, 16)]), queueAt 0, _, _, _, _, acting_of (by decide +kernel), w_someFst
      (by decide +kernel)⟩
  · exact ⟨⟨[], served⟩, Q, zeros 64, queueAt 0, _, _, acting_of (by decide +kernel)⟩

/-- For clauses of PacketUnitsAndDebug with hypotheses, states and operands that meet them (part 3 of 4). -/
theorem witness_PacketUnitsAndDebug_3 :
    (∃ (st : State) (q : QRef) (p : Packet) (qu : Queue) (c : Cmd) (b : Hw) (k : Hw),
      (Acting st.hw specTileReinstate q p qu c b) ∧
      (k = (b.put (F.TILE_STATE_STATE.blk (c.f 16 2)) 5).runAllSections (c.f 16 2)) ∧
      ((b.tile (c.f 16 2)).passes = true)) ∧
    (∃ (st : State) (q : QRef) (p : Packet) (qu : Queue) (c : Cmd) (b : Hw) (k : Hw),
      (Acting st.hw specTileReinstate q p qu c b) ∧
      (k = (b.put (F.TILE_STATE_STATE.blk (c.f 16 2)) 5).runAllSections (c.f 16 2)) ∧
      ((b.tile (c.f 16 2)).passes = false)) ∧
    (∃ (st : State) (q : QRef) (p : Packet) (qu : Queue) (c : Cmd) (b : Hw),
      (Acting st.hw specChannelRetire q p qu c b) ∧
      (b.chRetired (c.f 16 1) = true)) ∧
    (∃ (st : State) (q : QRef) (p : Packet) (qu : Queue) (c : Cmd) (b : Hw),
      (Acting st.hw specChannelRetire q p qu c b) ∧
      (b.chRetired (c.f 16 1) = false)) ∧
    (∃ (st : State) (q : QRef) (p : Packet) (qu : Queue) (c : Cmd) (b : Hw),
      (Acting st.hw specSafePolicy q p qu c b) ∧
      b.deliverable = true) := by
  refine ⟨?_, ?_, ?_, ?_, ?_⟩
  · exact ⟨⟨[], (gone 5 served)⟩, Q, (pk [(16, 5)]), queueAt 0, _, _, _, acting_of (by decide +kernel), rfl,
      by decide +kernel⟩
  · exact ⟨⟨[], ((gone 5 served).modTile 5 fun x => { x with condition := [2] })⟩, Q, (pk [(16, 5)]), queueAt 0, _,
      _, _, acting_of (by decide +kernel), rfl, by decide +kernel⟩
  · exact ⟨⟨[], (served.put (F.MC_STATUS_STATE.blk 0) 3)⟩, Q, zeros 64, queueAt 0, _, _, acting_of
      (by decide +kernel), by decide +kernel⟩
  · exact ⟨⟨[], served⟩, Q, (zeros 64), queueAt 0, _, _, acting_of (by decide +kernel), by decide +kernel⟩
  · exact ⟨⟨[], served⟩, Q, (zeros 64), queueAt 0, _, _, acting_of (by decide +kernel), by decide +kernel⟩

/-- For clauses of PacketUnitsAndDebug with hypotheses, states and operands that meet them (part 4 of 4). -/
theorem witness_PacketUnitsAndDebug_4 :
    (∃ (st : State) (q : QRef) (p : Packet) (qu : Queue) (c : Cmd) (b : Hw),
      (Acting st.hw specSafePolicy q p qu c b) ∧
      b.deliverable = false) ∧
    (∃ (st : State) (q : QRef) (p : Packet) (qu : Queue) (c : Cmd) (b : Hw) (k : Hw),
      (Acting st.hw specEventConfig q p qu c b) ∧
      (k = ((b.setRing (c.f 24 6) (c.f 16 1)).put F.EVT_GROUPS_ENABLE (bits (c.f 20 2) 0 9)).put F.EVT_GROUPS_NOTIFY
      (bits (c.f 22 2) 0 9))) := by
  refine ⟨?_, ?_⟩
  · exact ⟨⟨[], { served with datB := { served.datB with down := true } }⟩, Q, zeros 64, queueAt 0, _, _, acting_of
      (by decide +kernel), by decide +kernel⟩
  · exact ⟨⟨[], served⟩, Q, zeros 64, queueAt 0, _, _, _, acting_of (by decide +kernel), rfl⟩

/-- For each clause of TviScalarResults with hypotheses, a state and operands that meet them. -/
theorem witness_TviScalarResults :
    (∃ (st : State) (t : Fin 1152) (s : Slice) (w : Nat),
      (TviReady st.hw t.val s 0x11 w)) ∧
    (∃ (st : State) (t : Fin 1152) (s : Slice) (w : Nat),
      (TviReady st.hw t.val s 0x12 w)) ∧
    (∃ (st : State) (t : Fin 1152) (s : Slice) (w : Nat),
      (TviReady st.hw t.val s 0x10 w) ∧
      (insnSFn w ≤ 12 ∨ 16 ≤ insnSFn w ∧ insnSFn w ≤ 21)) ∧
    (∃ (st : State) (t : Fin 1152) (s : Slice) (w : Nat),
      (TviReady st.hw t.val s 0x19 w) ∧
      insnFn w ≤ 5) ∧
    (∃ (st : State) (t : Fin 1152) (s : Slice) (w : Nat),
      (TviReady st.hw t.val s 0x1F w)) := by
  refine ⟨?_, ?_, ?_, ?_, ?_⟩
  · exact ⟨⟨[], (tviHw 0x11 id)⟩, 0, slice0 1, 0x11, tvi_of (by decide +kernel)⟩
  · exact ⟨⟨[], (tviHw 0x12 id)⟩, 0, slice0 1, 0x12, tvi_of (by decide +kernel)⟩
  · exact ⟨⟨[], (tviHw 0x10 id)⟩, 0, slice0 1, 0x10, tvi_of (by decide +kernel), by decide +kernel⟩
  · exact ⟨⟨[], (tviHw 0x19 id)⟩, 0, slice0 1, 0x19, tvi_of (by decide +kernel), by decide +kernel⟩
  · exact ⟨⟨[], (tviHw 0x1F id)⟩, 0, slice0 1, 0x1F, tvi_of (by decide +kernel)⟩

/-- For each clause of TviMemory with hypotheses, a state and operands that meet them. -/
theorem witness_TviMemory :
    (∃ (st : State) (t : Fin 1152) (s : Slice) (w : Nat) (a : Nat),
      (TviReady st.hw t.val s 0x13 w) ∧
      (a = addSigned 32 ((st.hw.tile t.val).seq.scalar (insnSa w)).1 (insnImm15 w)) ∧
      (a % 4 = 0)) ∧
    (∃ (st : State) (t : Fin 1152) (s : Slice) (w : Nat) (a : Nat),
      (TviReady st.hw t.val s 0x14 w) ∧
      (a = addSigned 32 ((st.hw.tile t.val).seq.scalar (insnSa w)).1 (insnImm15 w)) ∧
      (a % 4 = 0)) ∧
    (∃ (st : State) (t : Fin 1152) (s : Slice) (w : Nat),
      (TviReady st.hw t.val s 0x04 w) ∧
      (((st.hw.tile t.val).seq.scalar (insnMSb w)).1 % 32 = 0)) ∧
    (∃ (st : State) (t : Fin 1152) (s : Slice) (w : Nat),
      (TviReady st.hw t.val s 0x05 w) ∧
      (((st.hw.tile t.val).seq.scalar (insnMSb w)).1 % 32 = 0)) ∧
    (∃ (st : State) (t : Fin 1152) (s : Slice) (w : Nat),
      (TviReady st.hw t.val s 0x06 w) ∧
      (∀ i, (st.hw.tile t.val).seq.enabledLane w 64 i → (st.hw.tile t.val).seq.laneAddr w i % 4 = 0)) ∧
    (∃ (st : State) (t : Fin 1152) (s : Slice) (w : Nat),
      (TviReady st.hw t.val s 0x07 w) ∧
      (∀ i, (st.hw.tile t.val).seq.enabledLane w 64 i → (st.hw.tile t.val).seq.laneAddr w i % 4 = 0)) := by
  refine ⟨?_, ?_, ?_, ?_, ?_, ?_⟩
  · exact ⟨⟨[], (tviHw 0x13 id)⟩, 0, slice0 1, 0x13, _, tvi_of (by decide +kernel), rfl, by decide +kernel⟩
  · exact ⟨⟨[], (tviHw 0x14 id)⟩, 0, slice0 1, 0x14, _, tvi_of (by decide +kernel), rfl, by decide +kernel⟩
  · exact ⟨⟨[], (tviHw 0x4 id)⟩, 0, slice0 1, 0x4, tvi_of (by decide +kernel), by decide +kernel⟩
  · exact ⟨⟨[], (tviHw 0x5 id)⟩, 0, slice0 1, 0x5, tvi_of (by decide +kernel), by decide +kernel⟩
  · exact ⟨⟨[], (tviHw 0x6 id)⟩, 0, slice0 1, 0x6, tvi_of (by decide +kernel), fun i e => (by decide +kernel : ∀ j <
      64, _ % 4 = 0) i e.1⟩
  · exact ⟨⟨[], (tviHw 0x7 id)⟩, 0, slice0 1, 0x7, tvi_of (by decide +kernel), fun i e => (by decide +kernel : ∀ j <
      64, _ % 4 = 0) i e.1⟩

/-- For each clause of TviControlFlowAndExceptions with hypotheses, a state and operands that meet them. -/
theorem witness_TviControlFlowAndExceptions :
    (∃ (st : State) (t : Fin 1152) (s : Slice) (w : Nat),
      (TviReady st.hw t.val s 0x1A w) ∧
      ((st.hw.tile t.val).seq.xlive = false) ∧
      ((st.hw.tile t.val).seq.exb ≠ 0) ∧
      ((st.hw.tile t.val).seq.canPush 64 = true)) ∧
    (∃ (st : State) (t : Fin 1152) (s : Slice) (w : Nat),
      (TviReady st.hw t.val s 0x1C w)) ∧
    (∃ (st : State) (t : Fin 1152) (s : Slice) (w : Nat),
      (TviReady st.hw t.val s 0x16 w)) ∧
    (∃ (st : State) (t : Fin 1152) (s : Slice) (w : Nat),
      (TviReady st.hw t.val s 0x15 w) ∧
      insnCond w ≠ 7) ∧
    (∃ (st : State) (t : Fin 1152) (s : Slice) (w : Nat),
      (TviReady st.hw t.val s 0x17 w) ∧
      ((st.hw.tile t.val).seq.canPush 32 = true)) ∧
    (∃ (st : State) (t : Fin 1152) (s : Slice) (w : Nat) (bs : List Byte),
      (TviReady st.hw t.val s 0x18 w) ∧
      (bs = (sramBytes st.hw t.val s.pid (st.hw.tile t.val).seq.vsp 32).map (·.1)) ∧
      ((st.hw.tile t.val).seq.canPop 32 = true) ∧
      field bs 0 1 = 1) ∧
    (∃ (st : State) (t : Fin 1152) (s : Slice) (w : Nat) (bs : List Byte),
      (TviReady st.hw t.val s 0x1B w) ∧
      (bs = (sramBytes st.hw t.val s.pid (st.hw.tile t.val).seq.vsp 64).map (·.1)) ∧
      ((st.hw.tile t.val).seq.canPop 64 = true) ∧
      field bs 0 1 = 2) ∧
    (∃ (st : State) (t : Fin 1152) (s : Slice) (w : Nat),
      (TviReady st.hw t.val s 0x1E w)) := by
  refine ⟨?_, ?_, ?_, ?_, ?_, ?_, ?_, ?_⟩
  · exact ⟨⟨[], (tviHw 0x1A (fun q => { q with exb := 0x200, vsp := 0x2000, stkLo := 0x1000, stkHi := 0x2000 }))⟩,
      0, slice0 1, 0x1A, tvi_of (by decide +kernel), by decide +kernel⟩
  · exact ⟨⟨[], (tviHw 0x1C id)⟩, 0, slice0 1, 0x1C, tvi_of (by decide +kernel)⟩
  · exact ⟨⟨[], (tviHw 0x16 id)⟩, 0, slice0 1, 0x16, tvi_of (by decide +kernel)⟩
  · exact ⟨⟨[], (tviHw 0x15 id)⟩, 0, slice0 1, 0x15, tvi_of (by decide +kernel), by decide +kernel⟩
  · exact ⟨⟨[], (tviHw 0x17 (fun q => { q with exb := 0x200, vsp := 0x2000, stkLo := 0x1000, stkHi := 0x2000 }))⟩,
      0, slice0 1, 0x17, tvi_of (by decide +kernel), by decide +kernel⟩
  · exact ⟨⟨[], (tileHw 1 [(0x100, leBytes 4 0x18), (0x1000, leBytes 1 1)] (seqOf fun q =>
      { q with inProg := true, pc := 0x100, vsp := 0x1000, stkLo := 0x1000, stkHi := 0x2000 }))⟩, 0, slice0 1, 0x18,
      _, tvi_of (by decide +kernel), rfl, by decide +kernel⟩
  · exact ⟨⟨[], (tileHw 1 [(0x100, leBytes 4 0x1B), (0x1000, leBytes 1 2)] (seqOf fun q =>
      { q with inProg := true, pc := 0x100, vsp := 0x1000, stkLo := 0x1000, stkHi := 0x2000 }))⟩, 0, slice0 1, 0x1B,
      _, tvi_of (by decide +kernel), rfl, by decide +kernel⟩
  · exact ⟨⟨[], (tviHw 0x1E id)⟩, 0, slice0 1, 0x1E, tvi_of (by decide +kernel)⟩

/-- For each clause of TviLaneResults with hypotheses, a state and operands that meet them. -/
theorem witness_TviLaneResults :
    (∃ (st : State) (t : Fin 1152) (s : Slice) (w : Nat),
      (TviReady st.hw t.val s 0x01 w) ∧
      (fnLegal (insnFn w) = true)) ∧
    (∃ (st : State) (t : Fin 1152) (s : Slice) (w : Nat),
      (TviReady st.hw t.val s 0x02 w) ∧
      (fnLegal (insnFn w) = true)) ∧
    (∃ (st : State) (t : Fin 1152) (s : Slice) (w : Nat),
      (TviReady st.hw t.val s 0x03 w)) ∧
    (∃ (st : State) (t : Fin 1152) (s : Slice) (w : Nat),
      (TviReady st.hw t.val s 0x0A w)) ∧
    (∃ (st : State) (t : Fin 1152) (s : Slice) (w : Nat),
      (TviReady st.hw t.val s 0x0E w)) ∧
    (∃ (st : State) (t : Fin 1152) (s : Slice) (w : Nat),
      (TviReady st.hw t.val s 0x0D w) ∧
      insnFn w ≤ 3) ∧
    (∃ (st : State) (t : Fin 1152) (s : Slice) (w : Nat),
      (TviReady st.hw t.val s 0x0F w) ∧
      insnFn w = 0) ∧
    (∃ (st : State) (t : Fin 1152) (s : Slice) (w : Nat),
      (TviReady st.hw t.val s 0x0F w) ∧
      insnFn w = 1) := by
  refine ⟨?_, ?_, ?_, ?_, ?_, ?_, ?_, ?_⟩
  · exact ⟨⟨[], (tviHw (0x1 + 0 * 2 ^ 26) id)⟩, 0, slice0 1, (0x1 + 0 * 2 ^ 26), tvi_of (by decide +kernel),
      by decide +kernel⟩
  · exact ⟨⟨[], (tviHw (0x2 + 0 * 2 ^ 26) id)⟩, 0, slice0 1, (0x2 + 0 * 2 ^ 26), tvi_of (by decide +kernel),
      by decide +kernel⟩
  · exact ⟨⟨[], (tviHw 3 id)⟩, 0, slice0 1, 3, tvi_of (by decide +kernel)⟩
  · exact ⟨⟨[], (tviHw 0xA id)⟩, 0, slice0 1, 0xA, tvi_of (by decide +kernel)⟩
  · exact ⟨⟨[], (tviHw 0xE id)⟩, 0, slice0 1, 0xE, tvi_of (by decide +kernel)⟩
  · exact ⟨⟨[], (tviHw (0xD + 1 * 2 ^ 26) id)⟩, 0, slice0 1, (0xD + 1 * 2 ^ 26), tvi_of (by decide +kernel),
      by decide +kernel⟩
  · exact ⟨⟨[], (tviHw 0xF id)⟩, 0, slice0 1, 0xF, tvi_of (by decide +kernel), by decide +kernel⟩
  · exact ⟨⟨[], (tviHw (0xF + 1 * 2 ^ 26) id)⟩, 0, slice0 1, (0xF + 1 * 2 ^ 26), tvi_of (by decide +kernel),
      by decide +kernel⟩

/-- For each clause of TviAccumulatorsSortAndFft with hypotheses, a state and operands that meet them. -/
theorem witness_TviAccumulatorsSortAndFft :
    (∃ (st : State) (t : Fin 1152) (s : Slice) (w : Nat),
      (TviReady st.hw t.val s 0x0B w)) ∧
    (∃ (st : State) (t : Fin 1152) (s : Slice) (w : Nat),
      (TviReady st.hw t.val s 0x0C w) ∧
      (insnFn w % 8 ≤ 5)) ∧
    (∃ (st : State) (t : Fin 1152) (s : Slice) (w : Nat),
      (TviReady st.hw t.val s 0x0C w) ∧
      (5 < insnFn w % 8)) ∧
    (∃ (st : State) (t : Fin 1152) (s : Slice) (w : Nat),
      (TviReady st.hw t.val s 0x08 w)) ∧
    (∃ (st : State) (t : Fin 1152) (s : Slice) (w : Nat),
      (TviReady st.hw t.val s 0x09 w) ∧
      insnFn w = 0) ∧
    (∃ (st : State) (t : Fin 1152) (s : Slice) (w : Nat),
      (TviReady st.hw t.val s 0x09 w) ∧
      (insnFn w = 1 ∨ insnFn w = 2)) ∧
    (∃ (st : State) (t : Fin 1152) (s : Slice) (w : Nat),
      (TviReady st.hw t.val s 0x1D w)) := by
  refine ⟨?_, ?_, ?_, ?_, ?_, ?_, ?_⟩
  · exact ⟨⟨[], (tviHw 0xB id)⟩, 0, slice0 1, 0xB, tvi_of (by decide +kernel)⟩
  · exact ⟨⟨[], (tviHw (0xC + 2 * 2 ^ 26) id)⟩, 0, slice0 1, (0xC + 2 * 2 ^ 26), tvi_of (by decide +kernel),
      by decide +kernel⟩
  · exact ⟨⟨[], (tviHw (0xC + 6 * 2 ^ 26) id)⟩, 0, slice0 1, (0xC + 6 * 2 ^ 26), tvi_of (by decide +kernel),
      by decide +kernel⟩
  · exact ⟨⟨[], (tviHw 8 id)⟩, 0, slice0 1, 8, tvi_of (by decide +kernel)⟩
  · exact ⟨⟨[], (tviHw 9 id)⟩, 0, slice0 1, 9, tvi_of (by decide +kernel), by decide +kernel⟩
  · exact ⟨⟨[], (tviHw (0x9 + 1 * 2 ^ 26) id)⟩, 0, slice0 1, (0x9 + 1 * 2 ^ 26), tvi_of (by decide +kernel),
      by decide +kernel⟩
  · exact ⟨⟨[], (tviHw 0x1D id)⟩, 0, slice0 1, 0x1D, tvi_of (by decide +kernel)⟩

/-- For each clause of TodSequencer with hypotheses, a state and operands that meet them. -/
theorem witness_TodSequencer :
    (∃ (st : State) (t : Fin 1152) (s : Slice) (d : List Byte),
      (TodReady st.hw t.val s 0x00 d) ∧
      (admits3 d [0] [0] [0] = true)) ∧
    (∃ (st : State) (t : Fin 1152) (s : Slice) (d : List Byte),
      (TodReady st.hw t.val s 0x01 d) ∧
      (admits3 d [0] [0] [0] = true) ∧
      (bits (header d).param 0 5 ≤ 23)) ∧
    (∃ (st : State) (t : Fin 1152) (s : Slice) (d : List Byte),
      (TodReady st.hw t.val s 0x05 d) ∧
      (admits3 d [0] [0] [0] = true) ∧
      (bits (header d).param 0 19 % 4 = 0)) ∧
    (∃ (st : State) (t : Fin 1152) (s : Slice) (d : List Byte),
      (TodReady st.hw t.val s 0x02 d) ∧
      (admits3 d [0, 1] [0] [0] = true) ∧
      ((bit (header d).param 1 && s.dup && (opnd d 0).kind == 1) = false) ∧
      (bit (header d).param 0 = false)) ∧
    (∃ (st : State) (t : Fin 1152) (s : Slice) (d : List Byte) (bs : List Byte),
      (TodReady st.hw t.val s 0x06 d) ∧
      (bs = ((opnd d 0).rowOffs.map fun r => (sramBytes st.hw t.val s.pid ((opnd d 0).addrIn (st.hw.tile t.val).seq
      + r) (rowLen (header d).fmtA (opnd d 0).d0)).map (·.1)).flatten) ∧
      (admits3 d [1] [0] [0] = true) ∧
      (packable (header d).fmtA (opnd d 0).d0 = true) ∧
      bs.length = 1040) ∧
    (∃ (st : State) (t : Fin 1152) (s : Slice) (d : List Byte) (g : Hw),
      (TodReady st.hw t.val s 0x04 d) ∧
      (st.hw.chargeEdges s.pid (readPath s.pos) = some g) ∧
      (admits3 d [0] [0] [0] = true) ∧
      (bits (header d).param 0 2 = 2) ∧
      (st.hw.holdsSob s.pid (bits (header d).param 16 16) = true)) ∧
    (∃ (st : State) (t : Fin 1152) (s : Slice) (d : List Byte),
      (TodReady st.hw t.val s 0x04 d) ∧
      (admits3 d [0] [0] [0] = true) ∧
      (bits (header d).param 0 2 < 2)) := by
  refine ⟨?_, ?_, ?_, ?_, ?_, ?_, ?_⟩
  · exact ⟨⟨[], (todHw 1 (tod 0x0 0x111 0x0 op0 op0 op0) [] id)⟩, 0, slice0 1, (tod 0x0 0x111 0x0 op0 op0 op0),
      tod_of (by decide +kernel), by decide +kernel⟩
  · exact ⟨⟨[], (todHw 1 (tod 0x1 0x111 0x0 op0 op0 op0) [] id)⟩, 0, slice0 1, (tod 0x1 0x111 0x0 op0 op0 op0),
      tod_of (by decide +kernel), by decide +kernel⟩
  · exact ⟨⟨[], (todHw 1 (tod 0x5 0x111 0x0 op0 op0 op0) [] id)⟩, 0, slice0 1, (tod 0x5 0x111 0x0 op0 op0 op0),
      tod_of (by decide +kernel), by decide +kernel⟩
  · exact ⟨⟨[], (todHw 1 (tod 0x2 0x111 0x0 op0 op0 op0) [] id)⟩, 0, slice0 1, (tod 0x2 0x111 0x0 op0 op0 op0),
      tod_of (by decide +kernel), by decide +kernel⟩
  · exact ⟨⟨[], (todHw 1 (tod 0x6 0x111 0x0 (op1 0x2000 1040 1 1) op0 op0) [] id)⟩, 0, slice0 1, (tod 0x6 0x111 0x0
      (op1 0x2000 1040 1 1) op0 op0), _, tod_of (by decide +kernel), rfl, by decide +kernel⟩
  · exact ⟨⟨[], (stnOf (fun s => { s with d2dTokens := (upto 0 16).map fun e => (e*256+1, 100) }) (((todHw 1 (tod
      0x4 0x111 0x12C0002 op0 op0 op0) [] id)).put F.SOB_OWNER_OWNER (2^32)))⟩, 0, slice0 1, (tod 0x4 0x111
      0x12C0002 op0 op0 op0), _, tod_of (by decide +kernel), w_some (by decide +kernel), by decide +kernel⟩
  · exact ⟨⟨[], (todHw 1 (tod 0x4 0x111 0x12C0000 op0 op0 op0) [] id)⟩, 0, slice0 1, (tod 0x4 0x111 0x12C0000 op0
      op0 op0), tod_of (by decide +kernel), by decide +kernel⟩

/-- For each clause of TodProducts with hypotheses, a state and operands that meet them. -/
theorem witness_TodProducts :
    (∃ (st : State) (t : Fin 1152) (s : Slice) (d : List Byte),
      (TodReady st.hw t.val s 0x10 d) ∧
      (admits3 d [1] [1] [1, 3] = true) ∧
      productFits d = true ∧
      ((opnd d 0).d0 = (opnd d 1).d0) ∧
      outFits d = true ∧
      (macFits d ((opnd d 0).d1 * (opnd d 0).d2) ((opnd d 1).d1 * (opnd d 1).d2) = true) ∧
      (packable (header d).fmtA (opnd d 0).d0 = true) ∧
      (packable (header d).fmtB (opnd d 1).d0 = true)) ∧
    (∃ (st : State) (t : Fin 1152) (s : Slice) (d : List Byte),
      (TodReady st.hw t.val s 0x11 d) ∧
      (admits3 d [1] [1] [1, 3] = true) ∧
      productFits d = true ∧
      ((is16 (header d).fmtA || is16 (header d).fmtB) = false) ∧
      ((opnd d 0).d0 % 4 = 0) ∧
      (isMx (header d).fmtB = true → (opnd d 0).d0 % 64 = 0) ∧
      ((opnd d 1).d0 = (opnd d 0).d0 / 2) ∧
      outFits d = true ∧
      (macFits d ((opnd d 0).d1 * (opnd d 0).d2) ((opnd d 1).d1 * (opnd d 1).d2) = true) ∧
      (packable (header d).fmtA (opnd d 0).d0 = true) ∧
      (packable (header d).fmtB (opnd d 1).d0 = true)) ∧
    (∃ (st : State) (t : Fin 1152) (s : Slice) (d : List Byte) (oh : Nat),
      (TodReady st.hw t.val s 0x12 d) ∧
      (oh = if (opnd d 2).kind = 3 then 1 else (opnd d 2).d2) ∧
      (admits3 d [1] [1] [1, 3] = true) ∧
      ((convOf (header d).param).fits = true) ∧
      (macFormats (header d) = true) ∧
      ((opnd d 0).d0 = (opnd d 1).d0 ∧ (opnd d 1).d1 = (convOf (header d).param).kh * (convOf (header d).param).kw)
      ∧
      ((opnd d 2).d1 * oh ≤ 32) ∧
      ((opnd d 1).d2 ≤ macN (header d).fmtA (header d).fmtB) ∧
      ((opnd d 2).d0 = (opnd d 1).d2) ∧
      ((! (isMx (header d).fmtA || isMx (header d).fmtB) || (opnd d 0).d0 % 32 == 0) = true) ∧
      (packable (header d).fmtA (opnd d 0).d0 = true) ∧
      (packable (header d).fmtB (opnd d 1).d0 = true) ∧
      (macFits d ((opnd d 2).d1 * oh) (opnd d 1).d2 = true)) := by
  refine ⟨?_, ?_, ?_⟩
  · exact ⟨⟨[], (todHw 1 (tod 0x10 0x111 0x0 (op1 0x2000 4 1 1) (op1 0x3000 4 1 1) (op1 0x4000 1 1 1)) [] id)⟩, 0,
      slice0 1, (tod 0x10 0x111 0x0 (op1 0x2000 4 1 1) (op1 0x3000 4 1 1) (op1 0x4000 1 1 1)), tod_of
      (by decide +kernel), by decide +kernel⟩
  · exact ⟨⟨[], (todHw 1 (tod 0x11 0x111 0x0 (op1 0x2000 4 1 1) (op1 0x3000 2 1 1) (op1 0x4000 1 1 1)) [] id)⟩, 0,
      slice0 1, (tod 0x11 0x111 0x0 (op1 0x2000 4 1 1) (op1 0x3000 2 1 1) (op1 0x4000 1 1 1)), tod_of
      (by decide +kernel), by decide +kernel⟩
  · exact ⟨⟨[], (todHw 1 (tod 0x12 0x111 0x11 (op1 0x2000 4 1 1) (op1 0x3000 4 1 1) (op1 0x4000 1 1 1)) [] id)⟩, 0,
      slice0 1, (tod 0x12 0x111 0x11 (op1 0x2000 4 1 1) (op1 0x3000 4 1 1) (op1 0x4000 1 1 1)), _, tod_of
      (by decide +kernel), rfl, by decide +kernel⟩

/-- For each clause of TodAccumulatorOps with hypotheses, a state and operands that meet them. -/
theorem witness_TodAccumulatorOps :
    (∃ (st : State) (t : Fin 1152) (s : Slice) (d : List Byte),
      (TodReady st.hw t.val s 0x16 d) ∧
      (admits3 d [0] [0] [3] = true)) ∧
    (∃ (st : State) (t : Fin 1152) (s : Slice) (d : List Byte),
      (TodReady st.hw t.val s 0x17 d) ∧
      (admits3 d [3] [0] [1] = true) ∧
      ((opnd d 2).count = (opnd d 0).d0 * (opnd d 0).d1) ∧
      (packable (header d).fmtOut (opnd d 2).d0 = true)) ∧
    (∃ (st : State) (t : Fin 1152) (s : Slice) (d : List Byte),
      (TodReady st.hw t.val s 0x15 d) ∧
      (admits3 d [1] [1] [4] = true) ∧
      productFits d = true ∧
      ((opnd d 0).d0 = (opnd d 1).d0) ∧
      (packable (header d).fmtA (opnd d 0).d0 = true) ∧
      (packable (header d).fmtB (opnd d 1).d0 = true)) ∧
    (∃ (st : State) (t : Fin 1152) (s : Slice) (d : List Byte),
      (TodReady st.hw t.val s 0x13 d) ∧
      (admits3 d [1] [1] [1] = true) ∧
      fftConvFits d = true ∧
      (packable (header d).fmtA (opnd d 0).d0 = true) ∧
      (packable (if (fftConvOf (header d).param).mode = 1 then 0xF else (header d).fmtB) (opnd d 1).d0 = true) ∧
      (packable (header d).fmtOut (opnd d 2).d0 = true) ∧
      ((fftConvOf (header d).param).mode = 2 → (opnd d 2).count = (spectraOf st.hw t.val s d).length * 2 ^
      (fftConvOf (header d).param).b * 2 ^ (fftConvOf (header d).param).b * 2)) := by
  refine ⟨?_, ?_, ?_, ?_⟩
  · exact ⟨⟨[], (todHw 1 (tod 0x16 0x111 0x0 op0 op0 (op3 5 2 2)) [] id)⟩, 0, slice0 1, (tod 0x16 0x111 0x0 op0 op0
      (op3 5 2 2)), tod_of (by decide +kernel), by decide +kernel⟩
  · exact ⟨⟨[], (todHw 1 (tod 0x17 0x111 0x0 (op3 5 2 2) op0 (op1 0x4000 4 1 1)) [] id)⟩, 0, slice0 1, (tod 0x17
      0x111 0x0 (op3 5 2 2) op0 (op1 0x4000 4 1 1)), tod_of (by decide +kernel), by decide +kernel⟩
  · exact ⟨⟨[], (todHw 1 (tod 0x15 0x111 0x0 (op1 0x2000 4 1 1) (op1 0x3000 4 1 1) (op4 1 0 2 4)) [] id)⟩, 0, slice0
      1, (tod 0x15 0x111 0x0 (op1 0x2000 4 1 1) (op1 0x3000 4 1 1) (op4 1 0 2 4)), tod_of (by decide +kernel),
      by decide +kernel⟩
  · exact ⟨⟨[], (todHw 1 (tod 0x13 0x111 0x0 (op1 0x2000 1 1 1) (op1 0x3000 81 1 1) (op1 0x4000 1 1 1)) [] id)⟩, 0,
      slice0 1, (tod 0x13 0x111 0x0 (op1 0x2000 1 1 1) (op1 0x3000 81 1 1) (op1 0x4000 1 1 1)), tod_of
      (by decide +kernel), by decide +kernel⟩

/-- For each clause of TodAttention with hypotheses, a state and operands that meet them. -/
theorem witness_TodAttention :
    (∃ (st : State) (t : Fin 1152) (s : Slice) (d : List Byte),
      (TodReady st.hw t.val s 0x14 d) ∧
      (attnReady st.hw t.val s d 0) ∧
      (admits3 d [1] [1, 2] [1] = true) ∧
      (attnShape (attnIn st.hw t.val s d) d = true) ∧
      ((opnd d 2).count = (opnd d 0).d1 * (opnd d 0).d2)) ∧
    (∃ (st : State) (t : Fin 1152) (s : Slice) (d : List Byte) (n : Nat),
      (TodReady st.hw t.val s 0x14 d) ∧
      (attnReady st.hw t.val s d 1) ∧
      (n = (opnd d 0).d1 * (opnd d 0).d2 * ((attnIn st.hw t.val s d).dh + 1)) ∧
      (admits3 d [1] [1, 2] [3] = true) ∧
      (attnShape (attnIn st.hw t.val s d) d = true) ∧
      (n + (opnd d 2).acc ≤ 1024)) ∧
    (∃ (st : State) (t : Fin 1152) (s : Slice) (d : List Byte) (n : Nat) (z : Tile),
      (TodReady st.hw t.val s 0x14 d) ∧
      (attnReady st.hw t.val s d 2) ∧
      (n = (opnd d 2).d1 * (opnd d 2).d2 * ((attnIn st.hw t.val s d).dh + 1)) ∧
      (z = if (attnIn st.hw t.val s d).carry ≠ 0 then (st.hw.tile t.val).addCarry (opnd d 0).acc (carryIn st.hw
      t.val s (attnIn st.hw t.val s d).carry n ((((st.hw.tile t.val).seq.scalar 15).1 + 1) % 2)) else st.hw.tile
      t.val) ∧
      (admits3 d [3] [0] [1] = true) ∧
      ((opnd d 2).d0 = (attnIn st.hw t.val s d).dh ∧ (opnd d 2).d1 * (opnd d 2).d2 ≤ 32) ∧
      (n + (opnd d 0).acc ≤ 1024) ∧
      (packable (header d).fmtOut (opnd d 2).d0 = true)) := by
  refine ⟨?_, ?_, ?_⟩
  · exact ⟨⟨[], (todHw 1 (tod 0x14 0x33 0x8000 (op1 0x2000 32 1 1) (op1 0x3000 32 32 1) (op1 0x4000 1 1 1))
      [(0x8000, attn0)] id)⟩, 0, slice0 1, (tod 0x14 0x33 0x8000 (op1 0x2000 32 1 1) (op1 0x3000 32 32 1) (op1
      0x4000 1 1 1)), tod_of (by decide +kernel), by unfold attnReady; decide +kernel, by decide +kernel⟩
  · exact ⟨⟨[], (todHw 1 (tod 0x14 0x33 0x88000 (op1 0x2000 32 1 1) (op1 0x3000 32 32 1) (op3 0 1 1)) [(0x8000,
      attn0)] id)⟩, 0, slice0 1, (tod 0x14 0x33 0x88000 (op1 0x2000 32 1 1) (op1 0x3000 32 32 1) (op3 0 1 1)), _,
      tod_of (by decide +kernel), by unfold attnReady; decide +kernel, rfl, by decide +kernel⟩
  · exact ⟨⟨[], (todHw 1 (tod 0x14 0x133 0x108000 (op3 0 1 1) op0 (op1 0x4000 32 1 1)) [(0x8000, attn0)] id)⟩, 0,
      slice0 1, (tod 0x14 0x133 0x108000 (op3 0 1 1) op0 (op1 0x4000 32 1 1)), _, _, tod_of (by decide +kernel), by
      unfold attnReady; decide +kernel, rfl, rfl, by decide +kernel⟩

/-- For clauses of TodVectorResults with hypotheses, states and operands that meet them (part 1 of 2). -/
theorem witness_TodVectorResults :
    (∃ (st : State) (t : Fin 1152) (s : Slice) (d : List Byte),
      (TodReady st.hw t.val s 0x22 d) ∧
      (fnLegal (bits (header d).param 0 6) = true) ∧
      (admits3 d [1] (if fnBinary (bits (header d).param 0 6) then [1] else [0, 1]) [1] = true) ∧
      (((opnd d 2).count == (opnd d 0).count) = true) ∧
      (fnBinary (bits (header d).param 0 6) = true → (opnd d 1).count = (opnd d 0).count ∧ packable (header d).fmtB
      (opnd d 1).d0 = true) ∧
      (packable (header d).fmtA (opnd d 0).d0 = true) ∧
      (packable (header d).fmtOut (opnd d 2).d0 = true)) ∧
    (∃ (st : State) (t : Fin 1152) (s : Slice) (d : List Byte) (n : Nat),
      (TodReady st.hw t.val s 0x23 d) ∧
      (n = if (opnd d 0).kind = 3 then (opnd d 0).d0 * (opnd d 0).d1 else (opnd d 0).count) ∧
      (admits3 d [1, 3] [0] [1] = true) ∧
      ((opnd d 2).count = n) ∧
      ((opnd d 0).kind ≠ 3 → packable (header d).fmtA (opnd d 0).d0 = true) ∧
      (packable (header d).fmtOut (opnd d 2).d0 = true)) ∧
    (∃ (st : State) (t : Fin 1152) (s : Slice) (d : List Byte),
      (TodReady st.hw t.val s 0x24 d) ∧
      (admits3 d [1] [1] [1] = true) ∧
      (((opnd d 1).d0 == (opnd d 0).d0) = true) ∧
      ((opnd d 2).sameShape (opnd d 0) = true) ∧
      (packable (header d).fmtA (opnd d 0).d0 = true) ∧
      (packable (header d).fmtB (opnd d 1).d0 = true) ∧
      (packable (header d).fmtOut (opnd d 2).d0 = true)) ∧
    (∃ (st : State) (t : Fin 1152) (s : Slice) (d : List Byte),
      (TodReady st.hw t.val s 0x25 d) ∧
      (admits3 d [1] [0] [1] = true) ∧
      ((opnd d 2).sameShape (opnd d 0) = true) ∧
      (packable (header d).fmtA (opnd d 0).d0 = true) ∧
      (packable (header d).fmtOut (opnd d 2).d0 = true)) ∧
    (∃ (st : State) (t : Fin 1152) (s : Slice) (d : List Byte) (ts : List (List Val)),
      (TodReady st.hw t.val s 0x26 d) ∧
      (ts = reduceTerms (bits (header d).param 2 2) (opnd d 0).d0 (opnd d 0).d1 (opnd d 0).d2 (valsAt st.hw t.val s
      d 0 (header d).fmtA)) ∧
      (bits (header d).param 0 2 ≠ 3) ∧
      (bits (header d).param 2 2 ≠ 3) ∧
      (admits3 d [1] [0] (if bits (header d).param 0 2 = 0 then [1, 3] else [1]) = true) ∧
      (packable (header d).fmtA (opnd d 0).d0 = true) ∧
      ((opnd d 2).kind = 3 → ts.length + (opnd d 2).acc ≤ 1024) ∧
      ((opnd d 2).kind ≠ 3 → (opnd d 2).count = ts.length) ∧
      ((opnd d 2).kind ≠ 3 → ((decide (bits (header d).param 0 2 = 0) && (header d).hold) || packable (header
      d).fmtOut (opnd d 2).d0) = true)) ∧
    (∃ (st : State) (t : Fin 1152) (s : Slice) (d : List Byte),
      (TodReady st.hw t.val s 0x21 d) ∧
      (admits3 d [1] [0] [1] = true) ∧
      (bits (header d).param 0 2 ≠ 3) ∧
      (bits (header d).param 2 4 ≠ 0 ∧ bits (header d).param 6 4 ≠ 0) ∧
      ((opnd d 2).d0 = (opnd d 0).d0) ∧
      (packable (header d).fmtA (opnd d 0).d0 = true) ∧
      (((decide (bits (header d).param 0 2 ≠ 0) && (header d).hold) || packable (header d).fmtOut (opnd d 2).d0) =
      true)) ∧
    (∃ (st : State) (t : Fin 1152) (s : Slice) (d : List Byte) (g : Nat) (oh : Nat),
      (TodReady st.hw t.val s 0x20 d) ∧
      (g = bits (header d).param 24 8 + 1) ∧
      (oh = if (opnd d 2).kind = 3 then 1 else (opnd d 2).d2) ∧
      (admits3 d [1] [1] [1, 3] = true) ∧
      ((convOf (header d).param).fits = true) ∧
      (macFormats (header d) = true) ∧
      ((opnd d 0).d0 % g = 0 ∧ (opnd d 1).d2 % g = 0) ∧
      ((opnd d 1).d0 = (opnd d 0).d0 / g ∧ (opnd d 1).d1 = (convOf (header d).param).kh * (convOf (header
      d).param).kw) ∧
      ((opnd d 2).d1 * oh * (opnd d 1).d2 ≤ 1024) ∧
      ((opnd d 2).d0 = (opnd d 1).d2) ∧
      (packable (header d).fmtA (opnd d 0).d0 = true) ∧
      (packable (header d).fmtB (opnd d 1).d0 = true) ∧
      ((opnd d 2).kind = 3 → (convIn st.hw t.val s d g).length + (opnd d 2).acc ≤ 1024) ∧
      ((opnd d 2).kind ≠ 3 → ((header d).hold || packable (header d).fmtOut (opnd d 2).d0) = true)) ∧
    (∃ (st : State) (t : Fin 1152) (s : Slice) (d : List Byte) (n : Nat),
      (TodReady st.hw t.val s 0x27 d) ∧
      (n = bits (header d).param 0 11) ∧
      (admits3 d [1] [1] [1] = true) ∧
      (1 ≤ n ∧ n ≤ 1024) ∧
      ((opnd d 2).d0 = n ∧ (opnd d 2).d1 * (opnd d 2).d2 = 2 * ((opnd d 0).d1 * (opnd d 0).d2)) ∧
      (((opnd d 1).sameShape (opnd d 0)) = true) ∧
      (packable (header d).fmtA (opnd d 0).d0 = true) ∧
      (packable (header d).fmtB (opnd d 1).d0 = true) ∧
      (packable (header d).fmtOut (opnd d 2).d0 = true)) ∧
    (∃ (st : State) (t : Fin 1152) (s : Slice) (d : List Byte),
      (TodReady st.hw t.val s 0x28 d) ∧
      (admits3 d [1] [1] [1] = true) ∧
      ((opnd d 2).d0 = (opnd d 0).d0 ∧ (opnd d 2).d1 * (opnd d 2).d2 = 2 * ((opnd d 0).d1 * (opnd d 0).d2)) ∧
      (((opnd d 1).sameShape (opnd d 0)) = true) ∧
      (packable (header d).fmtA (opnd d 0).d0 = true) ∧
      (packable (header d).fmtB (opnd d 1).d0 = true) ∧
      (packable (header d).fmtOut (opnd d 2).d0 = true)) ∧
    (∃ (st : State) (t : Fin 1152) (s : Slice) (d : List Byte),
      (TodReady st.hw t.val s 0x29 d) ∧
      (admits3 d [1] [0] [1] = true) ∧
      (((opnd d 2).count == (opnd d 0).count) = true) ∧
      (packable (header d).fmtA (opnd d 0).d0 = true) ∧
      (packable (header d).fmtOut (opnd d 2).d0 = true) ∧
      (mxOrInt (header d).fmtOut = true)) ∧
    (∃ (st : State) (t : Fin 1152) (s : Slice) (d : List Byte),
      (TodReady st.hw t.val s 0x2A d) ∧
      (admits3 d [1] [0] [1] = true) ∧
      (((opnd d 2).count == (opnd d 0).count) = true) ∧
      (packable (header d).fmtA (opnd d 0).d0 = true) ∧
      (packable (header d).fmtOut (opnd d 2).d0 = true) ∧
      (mxOrInt (header d).fmtA = true)) ∧
    (∃ (st : State) (t : Fin 1152) (s : Slice) (d : List Byte),
      (TodReady st.hw t.val s 0x2F d) ∧
      (admits3 d [1] [0] [1] = true) ∧
      (((opnd d 2).count == (opnd d 0).count) = true) ∧
      (packable (header d).fmtA (opnd d 0).d0 = true) ∧
      (packable (header d).fmtOut (opnd d 2).d0 = true)) := by
  refine ⟨?_, ?_, ?_, ?_, ?_, ?_, ?_, ?_, ?_, ?_, ?_, ?_⟩
  · exact ⟨⟨[], (todHw 1 (tod 0x22 0x111 0x0 (op1 0x2000 4 1 1) (op1 0x3000 4 1 1) (op1 0x4000 4 1 1)) [] id)⟩, 0,
      slice0 1, (tod 0x22 0x111 0x0 (op1 0x2000 4 1 1) (op1 0x3000 4 1 1) (op1 0x4000 4 1 1)), tod_of
      (by decide +kernel), by decide +kernel⟩
  · exact ⟨⟨[], (todHw 1 (tod 0x23 0x111 0x0 (op1 0x2000 4 1 1) op0 (op1 0x4000 4 1 1)) [] id)⟩, 0, slice0 1, (tod
      0x23 0x111 0x0 (op1 0x2000 4 1 1) op0 (op1 0x4000 4 1 1)), _, tod_of (by decide +kernel), rfl,
      by decide +kernel⟩
  · exact ⟨⟨[], (todHw 1 (tod 0x24 0x111 0x0 (op1 0x2000 4 1 1) (op1 0x3000 4 1 1) (op1 0x4000 4 1 1)) [] id)⟩, 0,
      slice0 1, (tod 0x24 0x111 0x0 (op1 0x2000 4 1 1) (op1 0x3000 4 1 1) (op1 0x4000 4 1 1)), tod_of
      (by decide +kernel), by decide +kernel⟩
  · exact ⟨⟨[], (todHw 1 (tod 0x25 0x111 0x0 (op1 0x2000 4 1 1) op0 (op1 0x4000 4 1 1)) [] id)⟩, 0, slice0 1, (tod
      0x25 0x111 0x0 (op1 0x2000 4 1 1) op0 (op1 0x4000 4 1 1)), tod_of (by decide +kernel), by decide +kernel⟩
  · exact ⟨⟨[], (todHw 1 (tod 0x26 0x111 0x0 (op1 0x2000 4 1 1) op0 (op1 0x4000 1 1 1)) [] id)⟩, 0, slice0 1, (tod
      0x26 0x111 0x0 (op1 0x2000 4 1 1) op0 (op1 0x4000 1 1 1)), _, tod_of (by decide +kernel), rfl,
      by decide +kernel⟩
  · exact ⟨⟨[], (todHw 1 (tod 0x21 0x111 0x44 (op1 0x2000 4 1 1) op0 (op1 0x4000 4 1 1)) [] id)⟩, 0, slice0 1, (tod
      0x21 0x111 0x44 (op1 0x2000 4 1 1) op0 (op1 0x4000 4 1 1)), tod_of (by decide +kernel), by decide +kernel⟩
  · exact ⟨⟨[], (todHw 1 (tod 0x20 0x111 0x11 (op1 0x2000 4 1 1) (op1 0x3000 4 1 1) (op1 0x4000 1 1 1)) [] id)⟩, 0,
      slice0 1, (tod 0x20 0x111 0x11 (op1 0x2000 4 1 1) (op1 0x3000 4 1 1) (op1 0x4000 1 1 1)), _, _, tod_of
      (by decide +kernel), rfl, rfl, by decide +kernel⟩
  · exact ⟨⟨[], (todHw 1 (tod 0x27 0x111 0x2 (op1 0x2000 4 1 1) (op1 0x3000 4 1 1) (op1 0x4000 2 2 1)) [] id)⟩, 0,
      slice0 1, (tod 0x27 0x111 0x2 (op1 0x2000 4 1 1) (op1 0x3000 4 1 1) (op1 0x4000 2 2 1)), _, tod_of
      (by decide +kernel), rfl, by decide +kernel⟩
  · exact ⟨⟨[], (todHw 1 (tod 0x28 0x111 0x0 (op1 0x2000 4 1 1) (op1 0x3000 4 1 1) (op1 0x4000 4 2 1)) [] id)⟩, 0,
      slice0 1, (tod 0x28 0x111 0x0 (op1 0x2000 4 1 1) (op1 0x3000 4 1 1) (op1 0x4000 4 2 1)), tod_of
      (by decide +kernel), by decide +kernel⟩
  · exact ⟨⟨[], (todHw 1 (tod 0x29 0x111 0x0 (op1 0x2000 4 1 1) op0 (op1 0x4000 4 1 1)) [] id)⟩, 0, slice0 1, (tod
      0x29 0x111 0x0 (op1 0x2000 4 1 1) op0 (op1 0x4000 4 1 1)), tod_of (by decide +kernel), by decide +kernel⟩
  · exact ⟨⟨[], (todHw 1 (tod 0x2A 0x111 0x0 (op1 0x2000 4 1 1) op0 (op1 0x4000 4 1 1)) [] id)⟩, 0, slice0 1, (tod
      0x2A 0x111 0x0 (op1 0x2000 4 1 1) op0 (op1 0x4000 4 1 1)), tod_of (by decide +kernel), by decide +kernel⟩
  · exact ⟨⟨[], (todHw 1 (tod 0x2F 0x111 0x0 (op1 0x2000 4 1 1) op0 (op1 0x4000 4 1 1)) [] id)⟩, 0, slice0 1, (tod
      0x2F 0x111 0x0 (op1 0x2000 4 1 1) op0 (op1 0x4000 4 1 1)), tod_of (by decide +kernel), by decide +kernel⟩

/-- For clauses of TodVectorResults with hypotheses, states and operands that meet them (part 2 of 2). -/
theorem witness_TodVectorResults_2 :
    ∃ (st : State) (t : Fin 1152) (s : Slice) (d : List Byte),
    (TodReady st.hw t.val s 0x2E d) ∧
    (admits3 d [1] [0] [1] = true) ∧
    (1 ≤ bits (header d).param 0 3 ∧ bits (header d).param 0 3 ≤ 6) ∧
    ((opnd d 0).d0 = 2 * 2 ^ bits (header d).param 0 3) ∧
    (bit (header d).param 3 = true → (opnd d 0).d1 = 2 ^ bits (header d).param 0 3) ∧
    ((opnd d 2).sameShape (opnd d 0) = true) ∧
    (packable (header d).fmtA (opnd d 0).d0 = true) ∧
    (packable (header d).fmtOut (opnd d 2).d0 = true) :=
  ⟨⟨[], (todHw 1 (tod 0x2E 0x111 0x1 (op1 0x2000 4 1 1) op0 (op1 0x4000 4 1 1)) [] id)⟩, 0, slice0 1, (tod 0x2E
    0x111 0x1 (op1 0x2000 4 1 1) op0 (op1 0x4000 4 1 1)), tod_of (by decide +kernel), by decide +kernel⟩

/-- For each clause of TodMovesAndDramAccess with hypotheses, a state and operands that meet them. -/
theorem witness_TodMovesAndDramAccess :
    (∃ (st : State) (t : Fin 1152) (s : Slice) (d : List Byte),
      (TodReady st.hw t.val s 0x30 d) ∧
      (admits3 d [1] [0] [1] = true) ∧
      ((opnd d 2).sameShape (opnd d 0) = true) ∧
      (packable (header d).fmtA (opnd d 0).d0 = true)) ∧
    (∃ (st : State) (t : Fin 1152) (s : Slice) (d : List Byte),
      (TodReady st.hw t.val s 0x31 d) ∧
      (admits3 d [0] [0] [1] = true) ∧
      (packable (header d).fmtOut (opnd d 2).d0 = true)) ∧
    (∃ (st : State) (t : Fin 1152) (s : Slice) (d : List Byte),
      (TodReady st.hw t.val s 0x2B d) ∧
      (admits3 d [1] [0] [1] = true) ∧
      ((opnd d 2).d0 = (opnd d 0).d1 ∧ (opnd d 2).d1 = (opnd d 0).d0 ∧ (opnd d 2).d2 = (opnd d 0).d2) ∧
      (packable (header d).fmtA (opnd d 0).d0 = true) ∧
      (packable (header d).fmtA (opnd d 2).d0 = true)) ∧
    (∃ (st : State) (t : Fin 1152) (s : Slice) (d : List Byte) (is : List Int),
      (TodReady st.hw t.val s 0x2C d) ∧
      (is = (valsAt st.hw t.val s d 1 (header d).fmtB).map indexOf) ∧
      (admits3 d [1] [1] [1] = true) ∧
      ((opnd d 2).count = (opnd d 0).d0 * is.length) ∧
      (packable (header d).fmtA (opnd d 0).d0 = true) ∧
      (packable (header d).fmtB (opnd d 1).d0 = true) ∧
      (packable (header d).fmtOut (opnd d 2).d0 = true)) ∧
    (∃ (st : State) (t : Fin 1152) (s : Slice) (d : List Byte),
      (TodReady st.hw t.val s 0x2D d) ∧
      (admits3 d [1] [1] [1] = true) ∧
      (bits (header d).param 0 2 ≠ 3) ∧
      ((opnd d 2).d0 = (opnd d 0).d0) ∧
      ((scatterIx st.hw t.val s d).length = (rowsAt st.hw t.val s d 0 (header d).fmtA).length) ∧
      (packable (header d).fmtA (opnd d 0).d0 = true) ∧
      (packable (header d).fmtB (opnd d 1).d0 = true) ∧
      (packable (header d).fmtOut (opnd d 2).d0 = true)) ∧
    (∃ (st : State) (t : Fin 1152) (s : Slice) (d : List Byte) (rows : List (List (Nat × Nat))) (h2 : Hw),
      (TodReady st.hw t.val s 0x50 d) ∧
      (st.hw.rowPieces s.pid (dmaRows st.hw t.val 0 d) .rd = .ok rows) ∧
      st.hw.chargeDma t.val s.pid rows.flatten false = .ok h2 ∧
      (admits3 d [2] [0] [1] = true) ∧
      ((opnd d 0).rows = (opnd d 2).d1 * (opnd d 2).d2) ∧
      (bit (header d).param 0 = false)) ∧
    (∃ (st : State) (t : Fin 1152) (s : Slice) (d : List Byte) (rows : List (List (Nat × Nat))),
      (TodReady st.hw t.val s 0x51 d) ∧
      (st.hw.rowPieces s.pid (dmaRows st.hw t.val 2 d) .wr = .ok rows) ∧
      (admits3 d [1] [0] [2] = true) ∧
      ((opnd d 2).rows = (opnd d 0).d1 * (opnd d 0).d2) ∧
      (bit (header d).param 0 = false) ∧
      (s.stagedBytes + (opnd d 2).rows * (opnd d 2).rowBytes ≤ s.stageLimit)) ∧
    (∃ (st : State) (t : Fin 1152) (s : Slice) (d : List Byte),
      (TodReady st.hw t.val s 0x02 d) ∧
      (CommitPaid st.hw t.val s) ∧
      (admits3 d [0, 1] [0] [0] = true) ∧
      s.dup = false ∧
      (bit (header d).param 0 = true)) := by
  refine ⟨?_, ?_, ?_, ?_, ?_, ?_, ?_, ?_⟩
  · exact ⟨⟨[], (todHw 1 (tod 0x30 0x111 0x0 (op1 0x2000 4 1 1) op0 (op1 0x4000 4 1 1)) [] id)⟩, 0, slice0 1, (tod
      0x30 0x111 0x0 (op1 0x2000 4 1 1) op0 (op1 0x4000 4 1 1)), tod_of (by decide +kernel), by decide +kernel⟩
  · exact ⟨⟨[], (todHw 1 (tod 0x31 0x111 0x0 op0 op0 (op1 0x4000 4 1 1)) [] id)⟩, 0, slice0 1, (tod 0x31 0x111 0x0
      op0 op0 (op1 0x4000 4 1 1)), tod_of (by decide +kernel), by decide +kernel⟩
  · exact ⟨⟨[], (todHw 1 (tod 0x2B 0x111 0x0 (op1 0x2000 4 1 1) op0 (op1 0x4000 1 4 1)) [] id)⟩, 0, slice0 1, (tod
      0x2B 0x111 0x0 (op1 0x2000 4 1 1) op0 (op1 0x4000 1 4 1)), tod_of (by decide +kernel), by decide +kernel⟩
  · exact ⟨⟨[], (todHw 1 (tod 0x2C 0x111 0x0 (op1 0x2000 4 1 1) (op1 0x3000 1 1 1) (op1 0x4000 4 1 1)) [] id)⟩, 0,
      slice0 1, (tod 0x2C 0x111 0x0 (op1 0x2000 4 1 1) (op1 0x3000 1 1 1) (op1 0x4000 4 1 1)), _, tod_of
      (by decide +kernel), rfl, by decide +kernel⟩
  · exact ⟨⟨[], (todHw 1 (tod 0x2D 0x111 0x0 (op1 0x2000 4 1 1) (op1 0x3000 1 1 1) (op1 0x4000 4 1 1)) [] id)⟩, 0,
      slice0 1, (tod 0x2D 0x111 0x0 (op1 0x2000 4 1 1) (op1 0x3000 1 1 1) (op1 0x4000 4 1 1)), tod_of
      (by decide +kernel), by decide +kernel⟩
  · exact ⟨⟨[], (todHw 0 (tod 0x50 0x111 0x0 (op2 0x2000 64 1) op0 (op1 0x4000 64 1 1)) [] id)⟩, 0, slice0 0, (tod
      0x50 0x111 0x0 (op2 0x2000 64 1) op0 (op1 0x4000 64 1 1)), _, _, tod_of (by decide +kernel), w_ok
      (by decide +kernel), w_ok (by decide +kernel), by decide +kernel⟩
  · exact ⟨⟨[], (todHw 0 (tod 0x51 0x111 0x0 (op1 0x2000 64 1 1) op0 (op2 0x2000 64 1)) [] id)⟩, 0, slice0 0, (tod
      0x51 0x111 0x0 (op1 0x2000 64 1 1) op0 (op2 0x2000 64 1)), _, tod_of (by decide +kernel), w_ok
      (by decide +kernel), by decide +kernel⟩
  · exact ⟨⟨[], (todHw 0 (tod 0x2 0x111 0x1 op0 op0 op0) [] id)⟩, 0, slice0 0, (tod 0x2 0x111 0x1 op0 op0 op0),
      tod_of (by decide +kernel), paid_of rfl rfl rfl, by decide +kernel⟩

/-- For each clause of TodMessagesAndMeetings with hypotheses, a state and operands that meet them. -/
theorem witness_TodMessagesAndMeetings :
    (∃ (st : State) (t : Fin 1152) (s : Slice) (d : List Byte),
      (TodReady st.hw t.val s 0x40 d) ∧
      (admits3 d [1] [0] [4] = true) ∧
      ((opnd d 2).slot ≠ 15) ∧
      (packable (header d).fmtA (opnd d 0).d0 = true) ∧
      ((bytesAt st.hw t.val s d).length ≤ 524288)) ∧
    (∃ (st : State) (t : Fin 1152) (s : Slice) (d : List Byte) (f : Nat),
      (TodReady st.hw t.val s 0x40 d) ∧
      (finisherOf (opnd d 2).tile = some f) ∧
      (admits3 d [1] [0] [4] = true) ∧
      ((opnd d 2).slot = 15) ∧
      (rowLen (header d).fmtA (opnd d 0).d0 * (opnd d 0).d1 * (opnd d 0).d2 = 64) ∧
      (s.stagedBytes + 64 ≤ s.stageLimit) ∧
      (packable (header d).fmtA (opnd d 0).d0 = true)) ∧
    (∃ (st : State) (t : Fin 1152) (s : Slice) (d : List Byte),
      (TodReady st.hw t.val s 0x42 d) ∧
      (admits3 d [1] [0] [4] = true) ∧
      (¬ ((opnd d 0).d1 > 8 ∧ (opnd d 0).d2 > 8)) ∧
      (isMx (header d).fmtA = false) ∧
      (rowLen (header d).fmtA (opnd d 0).d0 * (opnd d 0).d1 * (opnd d 0).d2 = (opnd d 2).bytes) ∧
      (packable (header d).fmtA (opnd d 0).d0 = true) ∧
      ((bytesAt st.hw t.val s d).length ≤ 524288)) ∧
    (∃ (st : State) (t : Fin 1152) (s : Slice) (d : List Byte) (n : Nat),
      (TodReady st.hw t.val s 0x43 d) ∧
      (n = rowLen (header d).fmtA (opnd d 2).d0) ∧
      (((bit (header d).param 0 || (opnd d 0).admits [4]) && (opnd d 1).admits [0] && (opnd d 2).admits [1]) = true)
      ∧
      (¬ ((opnd d 2).d1 > 8 ∧ (opnd d 2).d2 > 8)) ∧
      (isMx (header d).fmtA = false) ∧
      (packable (header d).fmtA (opnd d 2).d0 = true) ∧
      (bit (header d).param 0 = false → n * (opnd d 2).d1 * (opnd d 2).d2 = (opnd d 0).bytes ∧ (opnd d 0).bytes ≤
      (st.hw.tile t.val).haloOn s.pid (opnd d 0).tile (opnd d 0).slot ((st.hw.tile t.val).seq.scalar 15).1)) ∧
    (∃ (st : State) (t : Fin 1152) (s : Slice) (d : List Byte),
      (TodReady st.hw t.val s 0x44 d) ∧
      (admits3 d [0] [0] [4] = true) ∧
      (bits (header d).param 4 11 ≤ (expsFor st.hw t.val s d).length)) ∧
    (∃ (st : State) (t : Fin 1152) (s : Slice) (d : List Byte),
      (TodReady st.hw t.val s 0x03 d) ∧
      (admits3 d [4] [0] [0] = true) ∧
      (bits (header d).param 4 11 ≤ (st.hw.reach (barrierKey t.val s d)).reachedBy (barrierKey t.val s d))) ∧
    (∃ (st : State) (t : Fin 1152) (s : Slice) (d : List Byte),
      (TodReady st.hw t.val s 0x41 d) ∧
      (admits3 d [4] [0] [0] = true) ∧
      ((opnd d 0).bytes ≤ (st.hw.tile t.val).arrivedOn (opnd d 0).tile (opnd d 0).slot)) ∧
    (∃ (st : State) (t : Fin 1152) (s : Slice) (d : List Byte) (e : Nat × Nat × Nat),
      (TodReady st.hw t.val s 0x45 d) ∧
      (((st.hw.tile t.val).lvlIn.find? fun e => e.1 == bits (header d).param 0 4 && e.2.1 == s.pid) = some e) ∧
      (admits3 d [0] [0] [0] = true)) ∧
    (∃ (st : State) (t : Fin 1152) (s : Slice) (d : List Byte) (is : List Nat),
      (TodReady st.hw t.val s 0x07 d) ∧
      (is = if bit (header d).param 4 then List.range 16 else [bits (header d).param 0 4]) ∧
      (admits3 d [0] [0] [0] = true) ∧
      s.pid = 0) := by
  refine ⟨?_, ?_, ?_, ?_, ?_, ?_, ?_, ?_, ?_⟩
  · exact ⟨⟨[], (todHw 1 (tod 0x40 0x111 0x0 (op1 0x2000 4 1 1) op0 (op4 1 0 2 4)) [] id)⟩, 0, slice0 1, (tod 0x40
      0x111 0x0 (op1 0x2000 4 1 1) op0 (op4 1 0 2 4)), tod_of (by decide +kernel), by decide +kernel⟩
  · exact ⟨⟨[], (todHw 1 (tod 0x40 0x111 0x0 (op1 0x2000 64 1 1) op0 (op4 0 0 15 64)) [] id)⟩, 0, slice0 1, (tod
      0x40 0x111 0x0 (op1 0x2000 64 1 1) op0 (op4 0 0 15 64)), _, tod_of (by decide +kernel), w_some
      (by decide +kernel), by decide +kernel⟩
  · exact ⟨⟨[], (todHw 1 (tod 0x42 0x111 0x0 (op1 0x2000 4 1 1) op0 (op4 1 0 2 4)) [] id)⟩, 0, slice0 1, (tod 0x42
      0x111 0x0 (op1 0x2000 4 1 1) op0 (op4 1 0 2 4)), tod_of (by decide +kernel), by decide +kernel⟩
  · exact ⟨⟨[], (todHw 1 (tod 0x43 0x111 0x0 (op4 1 0 2 4) op0 (op1 0x4000 4 1 1)) [] (fun x =>
      { x with landed := [⟨1, 2, 1, 0, true, 4⟩] }))⟩, 0, slice0 1, (tod 0x43 0x111 0x0 (op4 1 0 2 4) op0 (op1
      0x4000 4 1 1)), _, tod_of (by decide +kernel), rfl, by decide +kernel⟩
  · exact ⟨⟨[], (todHw 1 (tod 0x44 0x111 0x0 op0 op0 (op4 1 0 2 4)) [] id)⟩, 0, slice0 1, (tod 0x44 0x111 0x0 op0
      op0 (op4 1 0 2 4)), tod_of (by decide +kernel), by decide +kernel⟩
  · exact ⟨⟨[], (todHw 1 (tod 0x3 0x111 0x0 (op4 1 0 2 4) op0 op0) [] id)⟩, 0, slice0 1, (tod 0x3 0x111 0x0 (op4 1 0
      2 4) op0 op0), tod_of (by decide +kernel), by decide +kernel⟩
  · exact ⟨⟨[], (todHw 1 (tod 0x41 0x111 0x0 (op4 1 0 2 4) op0 op0) [] (fun x =>
      { x with arrived := [(1, 2, 4)] }))⟩, 0, slice0 1, (tod 0x41 0x111 0x0 (op4 1 0 2 4) op0 op0), tod_of
      (by decide +kernel), by decide +kernel⟩
  · exact ⟨⟨[], (todHw 1 (tod 0x45 0x111 0x0 op0 op0 op0) [] (fun x => { x with lvlIn := [(0, 1, 3)] }))⟩, 0, slice0
      1, (tod 0x45 0x111 0x0 op0 op0 op0), _, tod_of (by decide +kernel), w_some (by decide +kernel),
      by decide +kernel⟩
  · exact ⟨⟨[], (todHw 0 (tod 0x7 0x111 0x0 op0 op0 op0) [] id)⟩, 0, slice0 0, (tod 0x7 0x111 0x0 op0 op0 op0), _,
      tod_of (by decide +kernel), rfl, by decide +kernel⟩

/-- For each clause of DoorbellWrites with hypotheses, a state and operands that meet them. -/
theorem witness_DoorbellWrites :
    (∃ (s : State) (h : Hw) (src : DoorSrc) (page : BitVec 36) (off : BitVec 12) (_v : BitVec 64) (ctx : Nat) (a :
      Nat) (pg : Nat) (q : Nat),
      s.hw = h ∧
      h.sourceCtx src = some ctx ∧
      (h.mem.translate ctx (page ++ off).toNat .wr false = .ok a) ∧
      (pg = (a - 0x0480_0000_0000) / 4096) ∧
      h.hubOn = true ∧
      h.region a = .doorbell ∧
      pg ≠ 0 ∧
      ((h.actsAsOwner src).isSome = true ∨ h.sourcePid src = some pg) ∧
      q < 16 ∧
      (a % 4096 = 16 * q) ∧
      ((h.queue pg q).isSome = true) ∧
      (q ≠ 15 ∨ (h.grpPart pg).isSome = false ∨ h.isManager = true)) ∧
    (∃ (s : State) (h : Hw) (src : DoorSrc) (page : BitVec 36) (off : BitVec 12) (_v : BitVec 64) (ctx : Nat) (a :
      Nat) (pg : Nat) (q : Nat),
      s.hw = h ∧
      h.sourceCtx src = some ctx ∧
      (h.mem.translate ctx (page ++ off).toNat .wr false = .ok a) ∧
      (pg = (a - 0x0480_0000_0000) / 4096) ∧
      h.hubOn = true ∧
      h.region a = .doorbell ∧
      pg ≠ 0 ∧
      ((h.actsAsOwner src).isSome = true ∨ h.sourcePid src = some pg) ∧
      q < 16 ∧
      (a % 4096 = 16 * q + 8) ∧
      ((h.queue pg q).isSome = true) ∧
      (q ≠ 15 ∨ (h.grpPart pg).isSome = false ∨ h.isManager = true)) ∧
    (∃ (s : State) (h : Hw) (src : DoorSrc) (page : BitVec 36) (off : BitVec 12) (_v : BitVec 64) (ctx : Nat) (a :
      Nat) (pg : Nat) (i : Nat) (q : Nat),
      s.hw = h ∧
      h.sourceCtx src = some ctx ∧
      (h.mem.translate ctx (page ++ off).toNat .wr false = .ok a) ∧
      (pg = (a - 0x0480_0000_0000) / 4096) ∧
      h.actsAsOwner src = some i ∧
      h.hubOn = true ∧
      h.region a = .doorbell ∧
      pg = 0 ∧
      q < 16 ∧
      (a % 4096 = 16 * q) ∧
      ((h.queue pg q).isSome = true) ∧
      (q ≠ 15 ∨ (h.grpPart pg).isSome = false ∨ h.isManager = true)) ∧
    (∃ (s : State) (h : Hw) (src : DoorSrc) (page : BitVec 36) (off : BitVec 12) (v : BitVec 64) (ctx : Nat) (a :
      Nat) (pg : Nat) (i : Nat) (q : Nat) (k : Hw),
      s.hw = h ∧
      h.sourceCtx src = some ctx ∧
      (h.mem.translate ctx (page ++ off).toNat .wr false = .ok a) ∧
      (pg = (a - 0x0480_0000_0000) / 4096) ∧
      h.actsAsOwner src = some i ∧
      (k = (h.modQueue 0 q fun x => { x with cqHead := v.toNat % 2 ^ 32 }).freeConsumed 0 q) ∧
      h.hubOn = true ∧
      h.region a = .doorbell ∧
      pg = 0 ∧
      q < 16 ∧
      (a % 4096 = 16 * q + 8) ∧
      ((h.queue pg q).isSome = true) ∧
      (q ≠ 15 ∨ (h.grpPart pg).isSome = false ∨ h.isManager = true)) ∧
    (∃ (s : State) (h : Hw) (src : DoorSrc) (page : BitVec 36) (off : BitVec 12) (_v : BitVec 64) (ctx : Nat) (a :
      Nat) (pg : Nat) (q : Nat),
      s.hw = h ∧
      h.sourceCtx src = some ctx ∧
      (h.mem.translate ctx (page ++ off).toNat .wr false = .ok a) ∧
      (pg = (a - 0x0480_0000_0000) / 4096) ∧
      (q = a % 4096 / 16) ∧
      h.hubOn = true ∧
      h.region a = .doorbell ∧
      pg ≠ 0 ∧
      ((h.actsAsOwner src).isSome = true ∨ h.sourcePid src = some pg) ∧
      (16 ≤ q ∨ (h.queue pg q).isNone = true ∨ (q = 15 ∧ (h.grpPart pg).isSome = true ∧ h.isManager = false) ∨ (a %
      16 ≠ 0 ∧ a % 16 ≠ 8))) ∧
    (∃ (s : State) (h : Hw) (src : DoorSrc) (page : BitVec 36) (off : BitVec 12) (_v : BitVec 64) (ctx : Nat) (a :
      Nat) (pg : Nat),
      s.hw = h ∧
      h.sourceCtx src = some ctx ∧
      (h.mem.translate ctx (page ++ off).toNat .wr false = .ok a) ∧
      (pg = (a - 0x0480_0000_0000) / 4096) ∧
      h.hubOn = true ∧
      h.region a = .doorbell ∧
      h.actsAsOwner src = none ∧
      pg = 0) ∧
    (∃ (s : State) (h : Hw) (src : DoorSrc) (page : BitVec 36) (off : BitVec 12) (_v : BitVec 64) (ctx : Nat) (a :
      Nat) (pg : Nat),
      s.hw = h ∧
      h.sourceCtx src = some ctx ∧
      (h.mem.translate ctx (page ++ off).toNat .wr false = .ok a) ∧
      (pg = (a - 0x0480_0000_0000) / 4096) ∧
      h.hubOn = true ∧
      h.region a = .doorbell ∧
      h.actsAsOwner src = none ∧
      pg ≠ 0 ∧
      h.sourcePid src ≠ some pg) ∧
    (∃ (s : State) (h : Hw) (src : DoorSrc) (page : BitVec 36) (off : BitVec 12) (_v : BitVec 64) (ctx : Nat) (a :
      Nat),
      s.hw = h ∧
      h.sourceCtx src = some ctx ∧
      (h.mem.translate ctx (page ++ off).toNat .wr false = .ok a) ∧
      h.hubOn = true ∧
      h.region a ≠ .doorbell) ∧
    (∃ (s : State) (h : Hw) (src : DoorSrc) (page : BitVec 36) (off : BitVec 12) (_v : BitVec 64) (ctx : Nat) (e :
      Nat),
      s.hw = h ∧
      h.sourceCtx src = some ctx ∧
      (h.mem.translate ctx (page ++ off).toNat .wr false = .error e) ∧
      h.hubOn = true) ∧
    (∃ (s : State) (h : Hw) (port : Fin 2) (rid : BitVec 16) (_page : BitVec 36) (_off : BitVec 12) (_v : BitVec
      64),
      s.hw = h ∧
      h.hubOn = true ∧
      (h.sourceCtx (.pcie port rid) = none)) ∧
    (∃ (s : State) (h : Hw) (hart : Fin 32) (_page : BitVec 36) (_off : BitVec 12) (_v : BitVec 64),
      s.hw = h ∧
      h.hubOn = true ∧
      (h.sourceCtx (.core hart) = none)) ∧
    (∃ (s : State) (h : Hw) (_src : DoorSrc) (_page : BitVec 36) (_off : BitVec 12) (_v : BitVec 64),
      s.hw = h ∧
      h.hubOn = false) := by
  refine ⟨?_, ?_, ?_, ?_, ?_, ?_, ?_, ?_, ?_, ?_, ?_, ?_⟩
  · exact ⟨⟨[], (doored 1 (0x0480_0000_0000 + 4096) onCore)⟩, (doored 1 (0x0480_0000_0000 + 4096) onCore), .core 0,
      0, 0, 0, _, _, _, 0, rfl, w_some (by decide +kernel), w_ok (by decide +kernel), rfl, by decide +kernel⟩
  · exact ⟨⟨[], (doored 1 (0x0480_0000_0000 + 4096) onCore)⟩, (doored 1 (0x0480_0000_0000 + 4096) onCore), .core 0,
      0, 8, 0, _, _, _, 0, rfl, w_some (by decide +kernel), w_ok (by decide +kernel), rfl, by decide +kernel⟩
  · exact ⟨⟨[], (doored 0 0x0480_0000_0000 ownerCore)⟩, (doored 0 0x0480_0000_0000 ownerCore), .core 0, 0, 0, 0, _,
      _, _, _, 0, rfl, w_some (by decide +kernel), w_ok (by decide +kernel), rfl, w_some (by decide +kernel),
      by decide +kernel⟩
  · exact ⟨⟨[], (doored 0 0x0480_0000_0000 ownerCore)⟩, (doored 0 0x0480_0000_0000 ownerCore), .core 0, 0, 8, 0, _,
      _, _, _, 0, _, rfl, w_some (by decide +kernel), w_ok (by decide +kernel), rfl, w_some (by decide +kernel),
      rfl, by decide +kernel⟩
  · exact ⟨⟨[], (doored 1 (0x0480_0000_0000 + 4096) onCore)⟩, (doored 1 (0x0480_0000_0000 + 4096) onCore), .core 0,
      0, 1, 0, _, _, _, _, rfl, w_some (by decide +kernel), w_ok (by decide +kernel), rfl, rfl, by decide +kernel⟩
  · exact ⟨⟨[], (doored 1 (0x0480_0000_0000 + 0) onCore)⟩, (doored 1 (0x0480_0000_0000 + 0) onCore), .core 0, 0, 0,
      0, _, _, _, rfl, w_some (by decide +kernel), w_ok (by decide +kernel), rfl, by decide +kernel⟩
  · exact ⟨⟨[], (doored 1 (0x0480_0000_0000 + 8192) onCore)⟩, (doored 1 (0x0480_0000_0000 + 8192) onCore), .core 0,
      0, 0, 0, _, _, _, rfl, w_some (by decide +kernel), w_ok (by decide +kernel), rfl, by decide +kernel⟩
  · exact ⟨⟨[], onCore⟩, onCore, .core 0, 0, 0, 0, _, _, rfl, w_some (by decide +kernel), w_ok (by decide +kernel),
      by decide +kernel⟩
  · exact ⟨⟨[], onCore⟩, onCore, .core 0, 1000, 0, 0, _, _, rfl, w_some (by decide +kernel), w_error
      (by decide +kernel), by decide +kernel⟩
  · exact ⟨⟨[], (cfgOf (fun c => { c with sources := [{ pcie := false, id := 1, drive := true }] }) run)⟩, (cfgOf
      (fun c => { c with sources := [{ pcie := false, id := 1, drive := true }] }) run), 0, 0, 0, 0, 0, rfl,
      by decide +kernel⟩
  · exact ⟨⟨[], (cfgOf (fun c => { c with sources := [{ pcie := false, id := 1, drive := true }] }) run)⟩, (cfgOf
      (fun c => { c with sources := [{ pcie := false, id := 1, drive := true }] }) run), 0, 0, 0, 0, rfl,
      by decide +kernel⟩
  · exact ⟨⟨[], Hw.reset⟩, Hw.reset, .core 0, 0, 0, 0, rfl, by decide +kernel⟩

/-- For clauses of CommandFetchAndAcceptance with hypotheses, states and operands that meet them (part 1 of 2). -/
theorem witness_CommandFetchAndAcceptance :
    (∃ (s : State) (h : Hw) (pid : Fin 256) (queue : Fin 16) (cp : Fin 4) (qu : Queue) (n : Nat) (bs : List Byte)
      (cs : List Byte) (late : Bool) (st : Bool) (k : Hw) (k2 : Hw),
      s.hw = h ∧
      h.queue pid.val queue.val = some qu ∧
      (h.readFirst pid.val qu qu.fetchPoint = (.ok (bs, false, late), k)) ∧
      n = slotsOf bs ∧
      (k.readChunks pid.val qu (n - 1) (qu.fetchPoint + 1) = (.ok (cs, st), k2)) ∧
      h.sequencing = true ∧
      h.hubOn = true ∧
      h.cpRuns cp.val = true ∧
      (((h.part pid.val).map (·.destroying)).getD false = false) ∧
      qu.submitted ≠ 0 ∧
      h.fetchWait pid.val queue.val qu 1 = none ∧
      n ≤ qu.submitted ∧
      k.fetchWait pid.val queue.val qu n = none ∧
      k2.fetchWait pid.val queue.val qu n = none) ∧
    (∃ (s : State) (h : Hw) (pid : Fin 256) (queue : Fin 16) (cp : Fin 4) (qu : Queue) (n : Nat) (bs : List Byte)
      (late : Bool) (e : Nat × Nat) (k : Hw) (k2 : Hw),
      s.hw = h ∧
      h.queue pid.val queue.val = some qu ∧
      (h.readFirst pid.val qu qu.fetchPoint = (.ok (bs, false, late), k)) ∧
      n = slotsOf bs ∧
      (k.readChunks pid.val qu (n - 1) (qu.fetchPoint + 1) = (.error e, k2)) ∧
      h.sequencing = true ∧
      h.hubOn = true ∧
      h.cpRuns cp.val = true ∧
      (((h.part pid.val).map (·.destroying)).getD false = false) ∧
      qu.submitted ≠ 0 ∧
      h.fetchWait pid.val queue.val qu 1 = none ∧
      n ≤ qu.submitted ∧
      k.fetchWait pid.val queue.val qu n = none ∧
      k2.fetchWait pid.val queue.val qu n = none) ∧
    (∃ (s : State) (h : Hw) (pid : Fin 256) (queue : Fin 16) (cp : Fin 4) (qu : Queue) (bs : List Byte) (late :
      Bool) (k : Hw),
      s.hw = h ∧
      h.queue pid.val queue.val = some qu ∧
      (h.readFirst pid.val qu qu.fetchPoint = (.ok (bs, true, late), k)) ∧
      h.sequencing = true ∧
      h.hubOn = true ∧
      h.cpRuns cp.val = true ∧
      (((h.part pid.val).map (·.destroying)).getD false = false) ∧
      qu.submitted ≠ 0 ∧
      h.fetchWait pid.val queue.val qu 1 = none ∧
      k.fetchWait pid.val queue.val qu 1 = none) ∧
    (∃ (s : State) (h : Hw) (pid : Fin 256) (queue : Fin 16) (cp : Fin 4) (qu : Queue) (e : Nat × Nat) (k : Hw),
      s.hw = h ∧
      h.queue pid.val queue.val = some qu ∧
      (h.readFirst pid.val qu qu.fetchPoint = (.error e, k)) ∧
      h.sequencing = true ∧
      h.hubOn = true ∧
      h.cpRuns cp.val = true ∧
      (((h.part pid.val).map (·.destroying)).getD false = false) ∧
      qu.submitted ≠ 0 ∧
      h.fetchWait pid.val queue.val qu 1 = none ∧
      k.fetchWait pid.val queue.val qu 1 = none) ∧
    (∃ (s : State) (h : Hw) (pid : Fin 256) (queue : Fin 16) (cp : Fin 4) (qu : Queue) (w : Nat),
      s.hw = h ∧
      h.queue pid.val queue.val = some qu ∧
      h.fetchWait pid.val queue.val qu 1 = some w ∧
      h.sequencing = true ∧
      h.hubOn = true ∧
      h.cpRuns cp.val = true ∧
      (((h.part pid.val).map (·.destroying)).getD false = false) ∧
      qu.submitted ≠ 0) ∧
    (∃ (s : State) (h : Hw) (pid : Fin 256) (queue : Fin 16) (cp : Fin 4) (qu : Queue) (w : Nat) (bs : List Byte)
      (late : Bool) (k : Hw),
      s.hw = h ∧
      h.queue pid.val queue.val = some qu ∧
      (h.readFirst pid.val qu qu.fetchPoint = (.ok (bs, false, late), k)) ∧
      (k.fetchWait pid.val queue.val qu (slotsOf bs) = some w) ∧
      h.sequencing = true ∧
      h.hubOn = true ∧
      h.cpRuns cp.val = true ∧
      (((h.part pid.val).map (·.destroying)).getD false = false) ∧
      qu.submitted ≠ 0 ∧
      h.fetchWait pid.val queue.val qu 1 = none ∧
      slotsOf bs ≤ qu.submitted) ∧
    (∃ (s : State) (h : Hw) (pid : Fin 256) (queue : Fin 16) (cp : Fin 4) (qu : Queue) (bs : List Byte) (late :
      Bool) (k : Hw),
      s.hw = h ∧
      h.queue pid.val queue.val = some qu ∧
      (h.readFirst pid.val qu qu.fetchPoint = (.ok (bs, false, late), k)) ∧
      h.sequencing = true ∧
      h.hubOn = true ∧
      h.cpRuns cp.val = true ∧
      (((h.part pid.val).map (·.destroying)).getD false = false) ∧
      qu.submitted ≠ 0 ∧
      h.fetchWait pid.val queue.val qu 1 = none ∧
      qu.submitted < slotsOf bs) ∧
    (∃ (s : State) (h : Hw) (pid : Fin 256) (queue : Fin 16) (cp : Fin 4) (qu : Queue),
      s.hw = h ∧
      h.queue pid.val queue.val = some qu ∧
      h.sequencing = true ∧
      h.hubOn = true ∧
      h.cpRuns cp.val = true ∧
      (((h.part pid.val).map (·.destroying)).getD false = false) ∧
      qu.submitted = 0) ∧
    (∃ (s : State) (h : Hw) (pid : Fin 256) (queue : Fin 16) (cp : Fin 4),
      s.hw = h ∧
      (h.queue pid.val queue.val = none ∨ h.sequencing = false ∨ h.cpRuns cp.val = false ∨ (h.part pid.val).any
      (·.destroying) = true)) ∧
    (∃ (s : State) (h : Hw) (pid : Fin 256) (queue : Fin 16) (rival : Option Rival) (f : Fetched) (qu : Queue) (q :
      QRef) (g : Hw) (sp : OpSpec) (c : Cmd),
      s.hw = h ∧
      h.oldestFetched pid.val queue.val = some f ∧
      h.queue pid.val queue.val = some qu ∧
      (q = { pid := pid, queue := queue, cp := ⟨f.cp % 4, Nat.mod_lt _ (by decide)⟩, rival := rival }) ∧
      g = h.unfetch f ∧
      (sp = specOf (field f.pkt 0 1)) ∧
      c = acceptedCmd g q qu f.pkt ∧
      h.presents q = true ∧
      h.isHeld q = false ∧
      f.fault = none ∧
      f.stained = false ∧
      (¬(field f.pkt 0 1 = 0x40 ∧ h.groupSubmit q qu f.pkt = true)) ∧
      (sp.check g (mkCmd g q qu f.pkt 0) = none) ∧
      superseded c.opc c.port rival = none) ∧
    (∃ (s : State) (h : Hw) (pid : Fin 256) (queue : Fin 16) (rival : Option Rival) (f : Fetched) (qu : Queue) (q :
      QRef) (g : Hw) (sp : OpSpec) (c : Cmd) (x : Nat) (y : Nat) (z : Nat),
      s.hw = h ∧
      h.oldestFetched pid.val queue.val = some f ∧
      h.queue pid.val queue.val = some qu ∧
      (q = { pid := pid, queue := queue, cp := ⟨f.cp % 4, Nat.mod_lt _ (by decide)⟩, rival := rival }) ∧
      g = h.unfetch f ∧
      (sp = specOf (field f.pkt 0 1)) ∧
      (sp.check g (mkCmd g q qu f.pkt 0) = some (x, y, z)) ∧
      (c =
      { mkCmd g q qu f.pkt 0 with begun := true, finishAt := g.now, entry := some ((mkCmd g q qu f.pkt 0).mkEntry g.now x y z {}) })
      ∧
      h.presents q = true ∧
      h.isHeld q = false ∧
      f.fault = none ∧
      f.stained = false ∧
      (¬(field f.pkt 0 1 = 0x40 ∧ h.groupSubmit q qu f.pkt = true))) ∧
    (∃ (s : State) (h : Hw) (pid : Fin 256) (queue : Fin 16) (rival : Option Rival) (f : Fetched) (qu : Queue) (q :
      QRef) (g : Hw) (sp : OpSpec) (c : Cmd) (p : Nat),
      s.hw = h ∧
      h.oldestFetched pid.val queue.val = some f ∧
      h.queue pid.val queue.val = some qu ∧
      (q = { pid := pid, queue := queue, cp := ⟨f.cp % 4, Nat.mod_lt _ (by decide)⟩, rival := rival }) ∧
      g = h.unfetch f ∧
      (sp = specOf (field f.pkt 0 1)) ∧
      c = acceptedCmd g q qu f.pkt ∧
      superseded c.opc c.port rival = some p ∧
      h.presents q = true ∧
      h.isHeld q = false ∧
      f.fault = none ∧
      f.stained = false ∧
      (¬(field f.pkt 0 1 = 0x40 ∧ h.groupSubmit q qu f.pkt = true)) ∧
      (sp.check g (mkCmd g q qu f.pkt 0) = none)) := by
  refine ⟨?_, ?_, ?_, ?_, ?_, ?_, ?_, ?_, ?_, ?_, ?_, ?_⟩
  · exact ⟨⟨[], served⟩, served, 0, 0, 0, _, _, _, _, _, _, _, _, rfl, w_some (by decide +kernel), w_okMid
      (by decide +kernel) (by decide +kernel), rfl, w_okFst (by decide +kernel), by decide +kernel⟩
  · exact ⟨⟨[], ({ (extAt 63) with mem := { (extAt 63).mem with ctxs := [(0, ⟨[], [(0, 0x20F + 0x100000)]⟩)] } } :
      Hw).modQueue 0 0 fun q => { q with sqTail := 66, sqHead := 63, nTaken := 63, cqHead := 63 }⟩,
      ({ (extAt 63) with mem := { (extAt 63).mem with ctxs := [(0, ⟨[], [(0, 0x20F + 0x100000)]⟩)] } } :
      Hw).modQueue 0 0 fun q => { q with sqTail := 66, sqHead := 63, nTaken := 63, cqHead := 63 }, 0, 0, 0, _, _, _,
      _, _, _, _, rfl, w_some (by decide +kernel), w_okMid (by decide +kernel) (by decide +kernel), rfl, w_errFst
      (by decide +kernel), by decide +kernel⟩
  · exact ⟨⟨[], { served with mem := { served.mem with stain := [0x100000/32, 0x100000/32+1] } }⟩,
      { served with mem := { served.mem with stain := [0x100000/32, 0x100000/32+1] } }, 0, 0, 0, _, _, _, _, rfl,
      w_some (by decide +kernel), w_okMid (by decide +kernel) (by decide +kernel), by decide +kernel⟩
  · exact ⟨⟨[], { served with mem := { served.mem with ctxs := [] } }⟩,
      { served with mem := { served.mem with ctxs := [] } }, 0, 0, 0, _, _, _, rfl, w_some (by decide +kernel),
      w_errFst (by decide +kernel), by decide +kernel⟩
  · exact ⟨⟨[], (served.modQueue 0 0 fun q => { q with sqTail := 0 })⟩, (served.modQueue 0 0 fun q =>
      { q with sqTail := 0 }), 2, 0, 0, _, _, rfl, w_some (by decide +kernel), w_some (by decide +kernel),
      by decide +kernel⟩
  · exact ⟨⟨[], stnOf (fun s => { s with cpOps := [(0, 1)] }) (extAt 0)⟩, stnOf (fun s =>
      { s with cpOps := [(0, 1)] }) (extAt 0), 0, 0, 0, _, _, _, _, _, rfl, w_some (by decide +kernel), w_okMid
      (by decide +kernel) (by decide +kernel), w_some (by decide +kernel), by decide +kernel⟩
  · exact ⟨⟨[], (extAt 0).modQueue 0 0 fun q => { q with sqTail := 1 }⟩, (extAt 0).modQueue 0 0 fun q =>
      { q with sqTail := 1 }, 0, 0, 0, _, _, _, _, rfl, w_some (by decide +kernel), w_okMid (by decide +kernel)
      (by decide +kernel), by decide +kernel⟩
  · exact ⟨⟨[], (served.modQueue 0 0 fun q => { q with sqTail := 0 })⟩, (served.modQueue 0 0 fun q =>
      { q with sqTail := 0 }), 0, 0, 0, _, rfl, w_some (by decide +kernel), by decide +kernel⟩
  · exact ⟨⟨[], (served.modQueue 0 0 fun q => { q with sqTail := 0 })⟩, (served.modQueue 0 0 fun q =>
      { q with sqTail := 0 }), 0, 1, 0, rfl, by decide +kernel⟩
  · exact ⟨⟨[], withFetched (fetchedOf 0 (zeros 64) false none)⟩, withFetched (fetchedOf 0 (zeros 64) false none),
      0, 0, none, _, _, _, _, _, _, rfl, w_some (by decide +kernel), w_some (by decide +kernel), rfl, rfl, rfl, rfl,
      by decide +kernel⟩
  · exact ⟨⟨[], withFetched (fetchedOf 1 (pk [(0,0xC0)]) false none)⟩, withFetched (fetchedOf 1 (pk [(0,0xC0)])
      false none), 1, 0, some ⟨0⟩, _, _, _, _, _, _, _, _, _, rfl, w_some (by decide +kernel), w_some
      (by decide +kernel), rfl, rfl, rfl, w_someTriple (by decide +kernel), rfl, by decide +kernel⟩
  · exact ⟨⟨[], puts [(F.PEER_STATUS_N, 2), (F.PEER_STATUS_STATE, 2)] (stnOf (fun s => { s with active := act1 })
      (grpOf (fun g => { g with config := gconf })
      { withFetched (fetchedOf 1 (pk [(0, 0x40), (17, 15), (18, 1)]) false none) with models := [(64, model0)] }))⟩,
      puts [(F.PEER_STATUS_N, 2), (F.PEER_STATUS_STATE, 2)] (stnOf (fun s => { s with active := act1 }) (grpOf (fun
      g => { g with config := gconf })
      { withFetched (fetchedOf 1 (pk [(0, 0x40), (17, 15), (18, 1)]) false none) with models := [(64, model0)] })),
      1, 0, some ⟨2⟩, _, _, _, _, _, _, _, rfl, w_some (by decide +kernel), w_some (by decide +kernel), rfl, rfl,
      rfl, rfl, w_some (by decide +kernel), by decide +kernel⟩

/-- For clauses of CommandFetchAndAcceptance with hypotheses, states and operands that meet them (part 2 of 2). -/
theorem witness_CommandFetchAndAcceptance_2 :
    (∃ (s : State) (h : Hw) (pid : Fin 256) (queue : Fin 16) (rival : Option Rival) (f : Fetched) (qu : Queue) (q :
      QRef),
      s.hw = h ∧
      h.oldestFetched pid.val queue.val = some f ∧
      h.queue pid.val queue.val = some qu ∧
      (q = { pid := pid, queue := queue, cp := ⟨f.cp % 4, Nat.mod_lt _ (by decide)⟩, rival := rival }) ∧
      h.presents q = true ∧
      h.isHeld q = false ∧
      f.fault = none ∧
      f.stained = false ∧
      field f.pkt 0 1 = 0x40 ∧
      h.groupSubmit q qu f.pkt = true) ∧
    (∃ (s : State) (h : Hw) (pid : Fin 256) (queue : Fin 16) (rival : Option Rival) (f : Fetched) (qu : Queue) (q :
      QRef),
      s.hw = h ∧
      h.oldestFetched pid.val queue.val = some f ∧
      h.queue pid.val queue.val = some qu ∧
      (q = { pid := pid, queue := queue, cp := ⟨f.cp % 4, Nat.mod_lt _ (by decide)⟩, rival := rival }) ∧
      h.presents q = true ∧
      h.isHeld q = false ∧
      f.fault = none ∧
      f.stained = true) ∧
    (∃ (s : State) (h : Hw) (pid : Fin 256) (queue : Fin 16) (rival : Option Rival) (f : Fetched) (qu : Queue) (q :
      QRef) (st : Nat) (d : Nat),
      s.hw = h ∧
      h.oldestFetched pid.val queue.val = some f ∧
      h.queue pid.val queue.val = some qu ∧
      (q = { pid := pid, queue := queue, cp := ⟨f.cp % 4, Nat.mod_lt _ (by decide)⟩, rival := rival }) ∧
      (f.fault = some (st, d)) ∧
      h.presents q = true ∧
      h.isHeld q = false) ∧
    (∃ (s : State) (h : Hw) (pid : Fin 256) (queue : Fin 16) (rival : Option Rival) (f : Fetched) (qu : Queue) (q :
      QRef),
      s.hw = h ∧
      h.oldestFetched pid.val queue.val = some f ∧
      h.queue pid.val queue.val = some qu ∧
      (q = { pid := pid, queue := queue, cp := ⟨f.cp % 4, Nat.mod_lt _ (by decide)⟩, rival := rival }) ∧
      (h.presents q = false ∨ h.isHeld q = true)) ∧
    (∃ (s : State) (h : Hw) (pid : Fin 256) (queue : Fin 16) (_rival : Option Rival),
      s.hw = h ∧
      (h.oldestFetched pid.val queue.val = none ∨ h.queue pid.val queue.val = none)) := by
  refine ⟨?_, ?_, ?_, ?_, ?_⟩
  · exact ⟨⟨[], puts [(F.PEER_STATUS_N, 2), (F.PEER_STATUS_STATE, 2)] (stnOf (fun s => { s with active := act1 })
      (grpOf (fun g => { g with config := gconf })
      { withFetched (fetchedOf 1 (pk [(0, 0x40), (17, 15), (18, 1)]) false none) with models := [(64, model0)] }))⟩,
      puts [(F.PEER_STATUS_N, 2), (F.PEER_STATUS_STATE, 2)] (stnOf (fun s => { s with active := act1 }) (grpOf (fun
      g => { g with config := gconf })
      { withFetched (fetchedOf 1 (pk [(0, 0x40), (17, 15), (18, 1)]) false none) with models := [(64, model0)] })),
      1, 0, some ⟨0⟩, _, _, _, rfl, w_some (by decide +kernel), w_some (by decide +kernel), rfl, by decide +kernel⟩
  · exact ⟨⟨[], withFetched (fetchedOf 0 (zeros 64) true none)⟩, withFetched (fetchedOf 0 (zeros 64) true none), 0,
      0, none, _, _, _, rfl, w_some (by decide +kernel), w_some (by decide +kernel), rfl, by decide +kernel⟩
  · exact ⟨⟨[], withFetched (fetchedOf 0 (zeros 64) false (some (0x3002, 0)))⟩, withFetched (fetchedOf 0 (zeros 64)
      false (some (0x3002, 0))), 0, 0, none, _, _, _, _, _, rfl, w_some (by decide +kernel), w_some
      (by decide +kernel), rfl, w_somePair (by decide +kernel), by decide +kernel⟩
  · exact ⟨⟨[], offed (withFetched (fetchedOf 0 (zeros 64) false none))⟩, offed (withFetched (fetchedOf 0 (zeros 64)
      false none)), 0, 0, none, _, _, _, rfl, w_some (by decide +kernel), w_some (by decide +kernel), rfl,
      by decide +kernel⟩
  · exact ⟨⟨[], withFetched (fetchedOf 0 (zeros 64) false (some (0x3002, 0)))⟩, withFetched (fetchedOf 0 (zeros 64)
      false (some (0x3002, 0))), 1, 0, some ⟨0⟩, rfl, by decide +kernel⟩

/-- For each clause of CompletionsAndProcessorFaults with hypotheses, a state and operands that meet them. -/
theorem witness_CompletionsAndProcessorFaults :
    (∃ (s : State) (h : Hw) (pid : Fin 256) (queue : Fin 16) (c : Cmd) (e : Entry) (a : Hw) (b : Hw) (d : Hw),
      s.hw = h ∧
      h.toPost pid.val queue.val = some c ∧
      c.entry = some e ∧
      (a = ((h.sobOnDone c e.status).modQueue pid.val queue.val fun x =>
      { x with nPosted := (x.nPosted + 1) % 2 ^ 32 }).modCmd pid.val queue.val c.num fun x =>
      { x with posted := true }) ∧
      (b = if c.seq = 0 then a else a.setMram pid.val queue.val fun m => { m with post := c.seq }) ∧
      (d = (b.writeEntry c e).writeMirror pid.val queue.val) ∧
      h.sequencing = true ∧
      h.quiet = false) ∧
    (∃ (s : State) (h : Hw) (pid : Fin 256) (queue : Fin 16) (c : Cmd),
      s.hw = h ∧
      h.toPost pid.val queue.val = some c ∧
      h.sequencing = true ∧
      h.quiet = false ∧
      c.entry = none) ∧
    (∃ (s : State) (h : Hw) (pid : Fin 256) (queue : Fin 16),
      s.hw = h ∧
      (h.sequencing = false ∨ h.quiet = true ∨ h.toPost pid.val queue.val = none)) ∧
    (∃ (s : State) (h : Hw) (cp : Fin 4) (kind : Fin 3),
      s.hw = h ∧
      h.hubOn = true ∧
      kind.val = 0 ∧
      h.cpRuns cp.val = true ∧
      h.comparatorsOff = false) ∧
    (∃ (s : State) (h : Hw) (cp : Fin 4) (kind : Fin 3),
      s.hw = h ∧
      h.hubOn = true ∧
      kind.val = 1 ∧
      h.cpRuns cp.val = true) ∧
    (∃ (s : State) (h : Hw) (_cp : Fin 4) (kind : Fin 3),
      s.hw = h ∧
      h.hubOn = true ∧
      kind.val = 2) ∧
    (∃ (s : State) (h : Hw) (cp : Fin 4) (kind : Fin 3),
      s.hw = h ∧
      (h.hubOn = false ∨ (kind.val ≠ 2 ∧ h.cpRuns cp.val = false) ∨ (kind.val = 0 ∧ h.comparatorsOff = true))) ∧
    (∃ (s : State) (h : Hw) (cp : Fin 4),
      s.hw = h ∧
      (h.hubOn = false ∨ h.cpRuns cp.val = false)) ∧
    (∃ (s : State) (h : Hw) (cp : Fin 4),
      s.hw = h ∧
      h.hubOn = true ∧
      h.cpRuns cp.val = true) ∧
    (∃ (s : State) (h : Hw) (cp : Fin 4) (by_ : Fin 4) (a : Hw) (b : Hw),
      s.hw = h ∧
      (a = ((((h.put F.JNL_RECOVERY_RERUN 0).put F.JNL_RECOVERY_REPOSTED 0).put F.JNL_RECOVERY_ABORTED
      0).dropFetched fun f => f.cp == cp.val).put (F.CP_INT_STATUS_TAKEOVER.blk cp.val) 1) ∧
      (b = a.rerun fun c => c.port == 3 + cp.val || (c.port == 2 && a.on (F.CP_STATUS_OWNER_Q.blk cp.val))) ∧
      h.hubOn = true ∧
      h.sequencing = true ∧
      (h.get (F.CP_STATUS_STATE.blk cp.val) = 1) ∧
      h.cpRuns by_.val = true ∧
      (h.on (F.CP_INT_STATUS_TAKEOVER.blk cp.val) = false)) ∧
    (∃ (s : State) (h : Hw) (cp : Fin 4) (by_ : Fin 4),
      s.hw = h ∧
      (h.hubOn = false ∨ h.sequencing = false ∨ h.get (F.CP_STATUS_STATE.blk cp.val) ≠ 1 ∨ h.cpRuns by_.val = false
      ∨ h.on (F.CP_INT_STATUS_TAKEOVER.blk cp.val) = true)) := by
  refine ⟨?_, ?_, ?_, ?_, ?_, ?_, ?_, ?_, ?_, ?_, ?_⟩
  · exact ⟨⟨[], { served with cmds := [cmd0 (some entry0)] }⟩, { served with cmds := [cmd0 (some entry0)] }, 0, 0,
      _, _, _, _, _, rfl, w_some (by decide +kernel), w_some (by decide +kernel), rfl, rfl, rfl, by decide +kernel⟩
  · exact ⟨⟨[], { served with cmds := [cmd0 none] }⟩, { served with cmds := [cmd0 none] }, 0, 0, _, rfl, w_some
      (by decide +kernel), by decide +kernel⟩
  · exact ⟨⟨[], { served with cmds := [cmd0 none] }⟩, { served with cmds := [cmd0 none] }, 0, 1, rfl,
      by decide +kernel⟩
  · exact ⟨⟨[], served⟩, served, 0, 0, rfl, by decide +kernel⟩
  · exact ⟨⟨[], served⟩, served, 0, 1, rfl, by decide +kernel⟩
  · exact ⟨⟨[], served⟩, served, 0, 2, rfl, by decide +kernel⟩
  · exact ⟨⟨[], Hw.reset⟩, Hw.reset, 0, 0, rfl, by decide +kernel⟩
  · exact ⟨⟨[], Hw.reset⟩, Hw.reset, 0, rfl, by decide +kernel⟩
  · exact ⟨⟨[], served⟩, served, 0, rfl, by decide +kernel⟩
  · exact ⟨⟨[], (run.put (F.CP_STATUS_STATE.blk 1) 1)⟩, (run.put (F.CP_STATUS_STATE.blk 1) 1), 1, 0, _, _, rfl, rfl,
      rfl, by decide +kernel⟩
  · exact ⟨⟨[], (run.put (F.CP_STATUS_STATE.blk 1) 1)⟩, (run.put (F.CP_STATUS_STATE.blk 1) 1), 0, 0, rfl,
      by decide +kernel⟩

/-- For clauses of CoatBoundaryActions with hypotheses, states and operands that meet them (part 1 of 2). -/
theorem witness_CoatBoundaryActions :
    (∃ (s : State) (h : Hw) (new : Stencil),
      s.hw = h ∧
      h.dueSwap = some new ∧
      h.sequencing = true ∧
      h.stn.swapCmd = none) ∧
    (∃ (s : State) (h : Hw) (new : Stencil) (p : Nat) (q : Nat) (n : Nat),
      s.hw = h ∧
      h.dueSwap = some new ∧
      (h.stn.swapCmd = some (p, q, n)) ∧
      h.sequencing = true) ∧
    (∃ (s : State) (h : Hw),
      s.hw = h ∧
      h.sequencing = true ∧
      h.dueSwap = none) ∧
    (∃ (s : State) (h : Hw) (bs : List BudgetChange) (a : Hw),
      s.hw = h ∧
      (bs = h.stn.budgets.filter fun b => decide (h.acceptedAt b.pid b.queue b.num < h.now)) ∧
      (a =
      { h with stn := { h.stn with active := bs.foldl Stencil.applyBudget h.stn.active, budgets := h.stn.budgets.filter fun b => ! decide (h.acceptedAt b.pid b.queue b.num < h.now) } })
      ∧
      h.sequencing = true ∧
      h.boundaryDue = true ∧
      (bs ≠ [])) ∧
    (∃ (s : State) (h : Hw),
      s.hw = h ∧
      h.sequencing = true ∧
      h.boundaryDue = true ∧
      ((h.stn.budgets.filter fun b => decide (h.acceptedAt b.pid b.queue b.num < h.now)) = [])) ∧
    (∃ (s : State) (h : Hw),
      s.hw = h ∧
      h.sequencing = true ∧
      h.boundaryDue = true) ∧
    (∃ (s : State) (h : Hw),
      s.hw = h ∧
      h.sequencing = true ∧
      h.boundaryDue = true ∧
      (h.fab.admitted = [])) ∧
    (∃ (s : State) (h : Hw) (t : Nat) (p : Nat) (q : Nat) (n : Nat) (a : Hw),
      s.hw = h ∧
      (h.fab.admitted = [(t, p, q, n)]) ∧
      (a =
      { h with fab := { h.fab with admitted := [], retired := NSet.rem h.fab.retired t, mramRetired := NSet.rem h.fab.mramRetired t } })
      ∧
      h.sequencing = true ∧
      h.boundaryDue = true) ∧
    (∃ (s : State) (h : Hw),
      s.hw = h ∧
      h.sequencing = true ∧
      h.boundaryDue = true) ∧
    (∃ (s : State) (h : Hw) (a : Hw) (b : Hw),
      s.hw = h ∧
      (a = ((((h.countCoat.timeStep).swapStep.budgetStep).adjustStep).admitStep).endBridge.fillVacancies) ∧
      (b = ((a.reloadCoat.addWrap F.STN_COAT_COUNT_COATS 1).showStencil).trvCoat.revokeShareless) ∧
      h.sequencing = true ∧
      h.boundaryDue = true) ∧
    (∃ (s : State) (h : Hw),
      s.hw = h ∧
      ((h.sequencing && h.boundaryDue) = false)) ∧
    (∃ (s : State) (h : Hw),
      s.hw = h ∧
      h.sequencing = false) := by
  refine ⟨?_, ?_, ?_, ?_, ?_, ?_, ?_, ?_, ?_, ?_, ?_, ?_⟩
  · exact ⟨⟨[], swapping⟩, swapping, _, rfl, w_some (by decide +kernel), by decide +kernel⟩
  · exact ⟨⟨[], (stnOf (fun s => { s with swapCmd := some (0, 0, 0) }) swapping)⟩, (stnOf (fun s =>
      { s with swapCmd := some (0, 0, 0) }) swapping), _, _, _, _, rfl, w_some (by decide +kernel), w_someTriple
      (by decide +kernel), by decide +kernel⟩
  · exact ⟨⟨[], run⟩, run, rfl, by decide +kernel⟩
  · exact ⟨⟨[], (stnOf (fun s =>
      { s with budgets := [{ pid := 1, queue := 0, num := 0, row := none, window := 0, dramBytes := 64, d2dFlits := 0 }] })
      (atTime 2000 run))⟩, (stnOf (fun s =>
      { s with budgets := [{ pid := 1, queue := 0, num := 0, row := none, window := 0, dramBytes := 64, d2dFlits := 0 }] })
      (atTime 2000 run)), _, _, rfl, rfl, rfl, by decide +kernel⟩
  · exact ⟨⟨[], (atTime 2000 run)⟩, (atTime 2000 run), rfl, by decide +kernel⟩
  · exact ⟨⟨[], (atTime 2000 run)⟩, (atTime 2000 run), rfl, by decide +kernel⟩
  · exact ⟨⟨[], (atTime 2000 run)⟩, (atTime 2000 run), rfl, by decide +kernel⟩
  · exact ⟨⟨[], (fabOf (fun f => { f with admitted := [(5, 0, 0, 0)] }) (atTime 2000 run))⟩, (fabOf (fun f =>
      { f with admitted := [(5, 0, 0, 0)] }) (atTime 2000 run)), _, _, _, _, _, rfl, w_single (by decide +kernel),
      rfl, by decide +kernel⟩
  · exact ⟨⟨[], (atTime 2000 run)⟩, (atTime 2000 run), rfl, by decide +kernel⟩
  · exact ⟨⟨[], (atTime 2000 run)⟩, (atTime 2000 run), _, _, rfl, rfl, rfl, by decide +kernel⟩
  · exact ⟨⟨[], run⟩, run, rfl, by decide +kernel⟩
  · exact ⟨⟨[], Hw.reset⟩, Hw.reset, rfl, by decide +kernel⟩

/-- For clauses of CoatBoundaryActions with hypotheses, states and operands that meet them (part 2 of 2). -/
theorem witness_CoatBoundaryActions_2 :
    (∃ (s : State) (h : Hw),
      s.hw = h ∧
      h.sequencing = false) ∧
    (∃ (s : State) (h : Hw),
      s.hw = h ∧
      h.sequencing = false) ∧
    (∃ (s : State) (h : Hw),
      s.hw = h ∧
      h.sequencing = false) ∧
    (∃ (s : State) (h : Hw),
      s.hw = h ∧
      h.boundaryDue = false) ∧
    (∃ (s : State) (h : Hw),
      s.hw = h ∧
      h.boundaryDue = false) ∧
    (∃ (s : State) (h : Hw),
      s.hw = h ∧
      h.boundaryDue = false) := by
  refine ⟨?_, ?_, ?_, ?_, ?_, ?_⟩
  · exact ⟨⟨[], Hw.reset⟩, Hw.reset, rfl, by decide +kernel⟩
  · exact ⟨⟨[], Hw.reset⟩, Hw.reset, rfl, by decide +kernel⟩
  · exact ⟨⟨[], Hw.reset⟩, Hw.reset, rfl, by decide +kernel⟩
  · exact ⟨⟨[], run⟩, run, rfl, by decide +kernel⟩
  · exact ⟨⟨[], run⟩, run, rfl, by decide +kernel⟩
  · exact ⟨⟨[], run⟩, run, rfl, by decide +kernel⟩

/-- For each clause of StrokePulses with hypotheses, a state and operands that meet them. -/
theorem witness_StrokePulses :
    (∃ (s : State) (h : Hw) (a : Hw) (b : Hw) (d : Hw),
      s.hw = h ∧
      (a = if h.fabricOn = true then h.settleStroke.dfinStroke.creditInstalls h else h) ∧
      b = a.tick ∧
      (d = if b.fabricOn = true then b.openStroke else b) ∧
      h.pulses = true) ∧
    (∃ (s : State) (h : Hw),
      s.hw = h ∧
      h.pulses = false ∧
      h.datumsAlone = false) ∧
    (∃ (s : State) (h : Hw),
      s.hw = h ∧
      h.pulses = false ∧
      h.datumsAlone = true) ∧
    (∃ f : Fld, regKey f.block f.off ≠ regKey 0x002 0) := by
  refine ⟨?_, ?_, ?_, ?_⟩
  · exact ⟨⟨[], run⟩, run, _, _, _, rfl, rfl, rfl, rfl, by decide +kernel⟩
  · exact ⟨⟨[], (run.put F.MOD_MODE_MODE 0)⟩, (run.put F.MOD_MODE_MODE 0), rfl, by decide +kernel⟩
  · exact ⟨⟨[], (sysOf (fun s => { s with refLost := true }) run)⟩, (sysOf (fun s => { s with refLost := true })
      run), rfl, by decide +kernel⟩
  · exact ⟨F.MOD_MODE_MODE, by decide +kernel⟩

/-- For clauses of PowerInputsAndLoss with hypotheses, states and operands that meet them (part 1 of 2). -/
theorem witness_PowerInputsAndLoss :
    (∃ (s : State) (h : Hw) (j2 : Bool) (mv : BitVec 17) (f : Fld) (g : Fld),
      s.hw = h ∧
      (f = if j2 then F.PWR_STATUS_J2_OK else F.PWR_STATUS_J1_OK) ∧
      (g = if j2 then F.PWR_INPUT_J2_MV else F.PWR_INPUT_J1_MV) ∧
      ((h.on f && ! inputOk j2 mv.toNat) = false)) ∧
    (∃ (s : State) (h : Hw) (j2 : Bool) (mv : BitVec 17) (f : Fld) (g : Fld),
      s.hw = h ∧
      (f = if j2 then F.PWR_STATUS_J2_OK else F.PWR_STATUS_J1_OK) ∧
      (g = if j2 then F.PWR_INPUT_J2_MV else F.PWR_INPUT_J1_MV) ∧
      h.on f = true ∧
      inputOk j2 mv.toNat = false) ∧
    (∃ (s : State) (h : Hw) (k : Fin 48) (a : Hw),
      s.hw = h ∧
      (a = (h.put (F.PWR_RAIL_FAULT_FAULT.bit k.val) 1).put F.PWR_INT_STATUS_RAIL 1) ∧
      h.domainOn k.val = true ∧
      ((h.sys.lost.isSome && j1Domains.contains k.val) = false) ∧
      h.on F.DBG_STATUS_FROZEN = false) ∧
    (∃ (s : State) (h : Hw) (k : Fin 48) (a : Hw),
      s.hw = h ∧
      (a = (h.put (F.PWR_RAIL_FAULT_FAULT.bit k.val) 1).put F.PWR_INT_STATUS_RAIL 1) ∧
      h.domainOn k.val = true ∧
      ((h.sys.lost.isSome && j1Domains.contains k.val) = false) ∧
      h.on F.DBG_STATUS_FROZEN = true) ∧
    (∃ (s : State) (h : Hw) (k : Fin 48),
      s.hw = h ∧
      (h.domainOn k.val = false ∨ (h.sys.lost.isSome = true ∧ j1Domains.contains k.val = true))) ∧
    (∃ (s : State) (h : Hw) (mv : BitVec 17) (a : Hw) (u : Hw),
      s.hw = h ∧
      (a = (h.setInput false mv.toNat).2) ∧
      (u = if a.sys.frozenAt = some a.now then
      { a with seqStopped := false, sys := { a.sys with frozenAt := none } } else a) ∧
      a.sys.lost = none ∧
      a.mode ≠ 0 ∧
      a.on F.DBG_STATUS_FROZEN = false) ∧
    (∃ (s : State) (h : Hw) (mv : BitVec 17) (a : Hw) (u : Hw),
      s.hw = h ∧
      (a = (h.setInput false mv.toNat).2) ∧
      (u = if a.sys.frozenAt = some a.now then
      { a with seqStopped := false, sys := { a.sys with frozenAt := none } } else a) ∧
      a.sys.lost = none ∧
      a.mode ≠ 0 ∧
      a.on F.DBG_STATUS_FROZEN = false) ∧
    (∃ (s : State) (h : Hw) (a : Hw) (u : Hw),
      s.hw = h ∧
      a = h ∧
      (u = if a.sys.frozenAt = some a.now then
      { a with seqStopped := false, sys := { a.sys with frozenAt := none } } else a) ∧
      a.sys.lost = none ∧
      a.mode ≠ 0 ∧
      a.on F.DBG_STATUS_FROZEN = false) ∧
    (∃ (s : State) (h : Hw) (mv : BitVec 17) (a : Hw),
      s.hw = h ∧
      (a = (h.setInput false mv.toNat).2) ∧
      a.sys.lost = none ∧
      a.mode ≠ 0 ∧
      a.on F.DBG_STATUS_FROZEN = true) ∧
    (∃ (s : State) (h : Hw) (mv : BitVec 17) (a : Hw),
      s.hw = h ∧
      (a = (h.setInput false mv.toNat).2) ∧
      (a.sys.lost.isSome = true ∨ a.mode = 0)) ∧
    (∃ (s : State) (h : Hw) (mv : BitVec 17) (a : Hw),
      s.hw = h ∧
      (a = (h.setInput false mv.toNat).2) ∧
      a.sys.lost = none ∧
      a.mode ≠ 0 ∧
      a.on F.DBG_STATUS_FROZEN = true) ∧
    (∃ (s : State) (h : Hw) (mv : BitVec 17) (a : Hw),
      s.hw = h ∧
      (a = (h.setInput false mv.toNat).2) ∧
      (a.sys.lost.isSome = true ∨ a.mode = 0)) := by
  refine ⟨?_, ?_, ?_, ?_, ?_, ?_, ?_, ?_, ?_, ?_, ?_, ?_⟩
  · exact ⟨⟨[], (run.put F.PWR_STATUS_J1_OK 1)⟩, (run.put F.PWR_STATUS_J1_OK 1), false, 48000, _, _, rfl, rfl, rfl,
      by decide +kernel⟩
  · exact ⟨⟨[], (run.put F.PWR_STATUS_J1_OK 1)⟩, (run.put F.PWR_STATUS_J1_OK 1), false, 0, _, _, rfl, rfl, rfl,
      by decide +kernel⟩
  · exact ⟨⟨[], run⟩, run, 0, _, rfl, rfl, by decide +kernel⟩
  · exact ⟨⟨[], (run.put F.DBG_STATUS_FROZEN 1)⟩, (run.put F.DBG_STATUS_FROZEN 1), 0, _, rfl, rfl,
      by decide +kernel⟩
  · exact ⟨⟨[], Hw.reset⟩, Hw.reset, 0, rfl, by decide +kernel⟩
  · exact ⟨⟨[], run⟩, run, 0, _, _, rfl, rfl, rfl, by decide +kernel⟩
  · exact ⟨⟨[], Hw.reset⟩, Hw.reset, 0, _, _, rfl, rfl, rfl, by decide +kernel⟩
  · exact ⟨⟨[], run⟩, run, _, _, rfl, rfl, rfl, by decide +kernel⟩
  · exact ⟨⟨[], (run.put F.DBG_STATUS_FROZEN 1)⟩, (run.put F.DBG_STATUS_FROZEN 1), 0, _, rfl, rfl,
      by decide +kernel⟩
  · exact ⟨⟨[], offHw⟩, offHw, 0, _, rfl, rfl, by decide +kernel⟩
  · exact ⟨⟨[], (run.put F.DBG_STATUS_FROZEN 1)⟩, (run.put F.DBG_STATUS_FROZEN 1), 0, _, rfl, rfl,
      by decide +kernel⟩
  · exact ⟨⟨[], offHw⟩, offHw, 0, _, rfl, rfl, by decide +kernel⟩

/-- For clauses of PowerInputsAndLoss with hypotheses, states and operands that meet them (part 2 of 2). -/
theorem witness_PowerInputsAndLoss_2 :
    (∃ (s : State) (h : Hw) (a : Hw),
      s.hw = h ∧
      a = h ∧
      a.sys.lost = none ∧
      a.mode ≠ 0 ∧
      a.on F.DBG_STATUS_FROZEN = true) ∧
    (∃ (s : State) (h : Hw) (a : Hw),
      s.hw = h ∧
      a = h ∧
      (a.sys.lost.isSome = true ∨ a.mode = 0)) ∧
    (∃ (s : State) (h : Hw) (_gotA : Bool) (_gotB : Bool) (t : Nat),
      s.hw = h ∧
      h.sys.lost = some t ∧
      h.sys.lossStage < 3 ∧
      (t + lossAt h.sys.lossStage ≤ h.now)) ∧
    (∃ (s : State) (h : Hw) (_gotA : Bool) (_gotB : Bool),
      s.hw = h ∧
      (∀ t, h.sys.lost = some t → 3 ≤ h.sys.lossStage ∨ h.now < t + lossAt h.sys.lossStage)) ∧
    (∃ (s : State) (h : Hw) (mv : BitVec 17) (a : Hw) (b : Hw) (d : Hw),
      s.hw = h ∧
      (a = (h.setInput true mv.toNat).2) ∧
      (b = ((a.switchAll [36, 37, 38, 39, 40, 41, 47] false).downDatum 0).downDatum 1) ∧
      (∀ t, b.trv.hubReason ≠ some (0x0A, t)) ∧
      (d = { b with trv := { b.trv with hubReason := some (0x06, b.now) } }) ∧
      (a.domainOn 36 = true ∨ a.domainOn 39 = true)) ∧
    (∃ (s : State) (h : Hw) (mv : BitVec 17) (a : Hw) (b : Hw) (t : Nat),
      s.hw = h ∧
      (a = (h.setInput true mv.toNat).2) ∧
      (b = ((a.switchAll [36, 37, 38, 39, 40, 41, 47] false).downDatum 0).downDatum 1) ∧
      (b.trv.hubReason = some (0x0A, t)) ∧
      (a.domainOn 36 = true ∨ a.domainOn 39 = true)) ∧
    (∃ (s : State) (h : Hw) (mv : BitVec 17) (a : Hw),
      s.hw = h ∧
      (a = (h.setInput true mv.toNat).2) ∧
      a.domainOn 36 = false ∧
      a.domainOn 39 = false) := by
  refine ⟨?_, ?_, ?_, ?_, ?_, ?_, ?_⟩
  · exact ⟨⟨[], (run.put F.DBG_STATUS_FROZEN 1)⟩, (run.put F.DBG_STATUS_FROZEN 1), _, rfl, rfl, by decide +kernel⟩
  · exact ⟨⟨[], (run.put F.MOD_MODE_MODE 0)⟩, (run.put F.MOD_MODE_MODE 0), _, rfl, rfl, by decide +kernel⟩
  · exact ⟨⟨[], (sysOf (fun s => { s with lost := some 0 }) (atTime 100000 run))⟩, (sysOf (fun s =>
      { s with lost := some 0 }) (atTime 100000 run)), false, false, _, rfl, w_some (by decide +kernel),
      by decide +kernel⟩
  · exact ⟨⟨[], run⟩, run, false, false, rfl, fun _ e => w_vacant (by decide +kernel) e⟩
  · exact ⟨⟨[], served⟩, served, 0, _, _, _, rfl, rfl, rfl, w_none (by decide +kernel) _, rfl, by decide +kernel⟩
  · exact ⟨⟨[], (trvOf (fun t => { t with hubReason := some (10, 5) }) run)⟩, (trvOf (fun t =>
      { t with hubReason := some (10, 5) }) run), 0, _, _, _, rfl, rfl, rfl, w_somePair (by decide +kernel),
      by decide +kernel⟩
  · exact ⟨⟨[], Hw.reset⟩, Hw.reset, 0, _, rfl, rfl, by decide +kernel⟩

/-- For each clause of PowerGovernor with hypotheses, a state and operands that meet them. -/
theorem witness_PowerGovernor :
    (∃ (s : State) (h : Hw) (p : PowerSample) (a : Hw) (b : Hw) (d : Hw),
      s.hw = h ∧
      (a = (((h.put F.PWR_POWER_J1_MA p.j1ma.toNat).put F.PWR_POWER_IN_W p.inW.toNat).put F.PWR_POWER_J2_MA
      p.j2ma.toNat).put F.PWR_POWER_CAM_W p.camW.toNat) ∧
      (b = a.modGov fun g => { g with evalAt := a.now }) ∧
      (d = if b.limitW ≤ p.peakW.toNat + 100 then b.modGov fun g => { g with noBoostAt := b.now } else b) ∧
      h.running = true ∧
      (h.sys.gov.evalAt + 100 ≤ h.now)) ∧
    (∃ (s : State) (h : Hw) (_p : PowerSample),
      s.hw = h ∧
      (h.running = false ∨ h.now < h.sys.gov.evalAt + 100)) ∧
    (∃ (s : State) (h : Hw) (a : Hw),
      s.hw = h ∧
      (a = h.modGov fun g => { g with raiseAt := h.now }) ∧
      h.running = true ∧
      (h.sys.gov.raiseAt + 1000 ≤ h.now) ∧
      (((List.range 4).all fun n => a.dieCap n == 1400 && a.apcClock n == 26) = false)) ∧
    (∃ (s : State) (h : Hw) (a : Hw) (b : Hw),
      s.hw = h ∧
      (a = h.modGov fun g => { g with raiseAt := h.now }) ∧
      (b = (a.modGov fun g => { g with withdrawn := false }).refreshBoost) ∧
      h.running = true ∧
      (h.sys.gov.raiseAt + 1000 ≤ h.now) ∧
      (((List.range 4).all fun n => a.dieCap n == 1400 && a.apcClock n == 26) = true)) ∧
    (∃ (s : State) (h : Hw),
      s.hw = h ∧
      (h.running = false ∨ h.now < h.sys.gov.raiseAt + 1000)) ∧
    (∃ (s : State) (h : Hw),
      s.hw = h ∧
      h.running = true ∧
      h.activeCapacity h.stn.active h.isShed = none) ∧
    (∃ (s : State) (h : Hw) (k : Nat) (i : Nat) (p : Nat) (g : Hw),
      s.hw = h ∧
      (h.activeCapacity h.stn.active h.isShed = some (k, i)) ∧
      ((h.shedOrder.find? fun p => ! h.isShed p && decide (h.failingLoad k h.isShed (fun q => h.isShed q || q == p)
      < h.failingLoad k h.isShed h.isShed)) = some p) ∧
      (g = (h.shedPart p (h.shedCause k)).shedUntilFit 255) ∧
      h.running = true) ∧
    (∃ (s : State) (h : Hw) (k : Nat) (i : Nat),
      s.hw = h ∧
      (h.activeCapacity h.stn.active h.isShed = some (k, i)) ∧
      h.running = true ∧
      ((h.shedOrder.find? fun p => ! h.isShed p && decide (h.failingLoad k h.isShed (fun q => h.isShed q || q == p)
      < h.failingLoad k h.isShed h.isShed)) = none)) ∧
    (∃ (s : State) (h : Hw),
      s.hw = h ∧
      h.running = false) ∧
    (∃ (s : State) (h : Hw) (ts : List (BitVec 8)) (a : Hw) (b : Hw),
      s.hw = h ∧
      (a = (List.zip (List.range 96) ts).foldl (fun x e => x.sampleSensor e.1 e.2) (h.modGov fun g =>
      { g with sampleAt := h.now })) ∧
      (b = (List.range 4).foldl (fun x d => (x.dieTime d).thermalStop d) a) ∧
      h.running = true ∧
      (h.sys.gov.sampleAt + 100 ≤ h.now)) ∧
    (∃ (s : State) (h : Hw) (_ts : List (BitVec 8)),
      s.hw = h ∧
      (h.running = false ∨ h.now < h.sys.gov.sampleAt + 100)) := by
  refine ⟨?_, ?_, ?_, ?_, ?_, ?_, ?_, ?_, ?_, ?_, ?_⟩
  · exact ⟨⟨[], served⟩, served, ⟨0,0,0,0,0,0,0,none⟩, _, _, _, rfl, rfl, rfl, rfl, by decide +kernel⟩
  · exact ⟨⟨[], Hw.reset⟩, Hw.reset, ⟨0,0,0,0,0,0,0,none⟩, rfl, by decide +kernel⟩
  · exact ⟨⟨[], (atTime 1000 (run.setReg 1 0x38 0))⟩, (atTime 1000 (run.setReg 1 0x38 0)), _, rfl, rfl,
      by decide +kernel⟩
  · exact ⟨⟨[], (atTime 1000 (run.setReg 1 0x38 (1400 + 1400 * 2^16 + 1400 * 2^32 + 1400 * 2^48)))⟩, (atTime 1000
      (run.setReg 1 0x38 (1400 + 1400 * 2^16 + 1400 * 2^32 + 1400 * 2^48))), _, _, rfl, rfl, rfl, by decide +kernel⟩
  · exact ⟨⟨[], run⟩, run, rfl, by decide +kernel⟩
  · exact ⟨⟨[], run⟩, run, rfl, by decide +kernel⟩
  · exact ⟨⟨[], (stnOf (fun s =>
      { s with active := { act1 with acts := [{ pid := 2, kind := 0, duplex := false, fragTag := 0 }], wins := [{ start := 0, count := 900, act := 0, tset := 0, dramBytes := 10000000, d2dFlits := 0, fMin := 400, partner := 0xFFFF }] } })
      live)⟩, (stnOf (fun s =>
      { s with active := { act1 with acts := [{ pid := 2, kind := 0, duplex := false, fragTag := 0 }], wins := [{ start := 0, count := 900, act := 0, tset := 0, dramBytes := 10000000, d2dFlits := 0, fMin := 400, partner := 0xFFFF }] } })
      live), _, _, _, _, rfl, w_somePair (by decide +kernel), w_some (by decide +kernel), rfl, by decide +kernel⟩
  · exact ⟨⟨[],
      { (stnOf (fun s => { s with active := { act1 with acts := [{ pid := 2, kind := 0, duplex := false, fragTag := 0 }], wins := [{ start := 0, count := 900, act := 0, tset := 0, dramBytes := 10000000, d2dFlits := 0, fMin := 400, partner := 0xFFFF }] } }) live) with parts := [(0, partOf 0)] }⟩,
      { (stnOf (fun s => { s with active := { act1 with acts := [{ pid := 2, kind := 0, duplex := false, fragTag := 0 }], wins := [{ start := 0, count := 900, act := 0, tset := 0, dramBytes := 10000000, d2dFlits := 0, fMin := 400, partner := 0xFFFF }] } }) live) with parts := [(0, partOf 0)] },
      _, _, rfl, w_somePair (by decide +kernel), by decide +kernel⟩
  · exact ⟨⟨[], offHw⟩, offHw, rfl, by decide +kernel⟩
  · exact ⟨⟨[], served⟩, served, [], _, _, rfl, rfl, rfl, by decide +kernel⟩
  · exact ⟨⟨[], Hw.reset⟩, Hw.reset, [], rfl, by decide +kernel⟩

/-- For clauses of ModuleModes with hypotheses, states and operands that meet them (part 1 of 2). -/
theorem witness_ModuleModes :
    (∃ (s : State) (h : Hw) (high : Bool) (a : Hw),
      s.hw = h ∧
      (a =
      { h with sys := { h.sys with wake := high, wakeAt := if high = h.sys.wake then h.sys.wakeAt else h.now } }) ∧
      high = true ∧
      h.mode = 0 ∧
      h.sys.lost = none) ∧
    (∃ (s : State) (h : Hw) (high : Bool) (a : Hw),
      s.hw = h ∧
      (a =
      { h with sys := { h.sys with wake := high, wakeAt := if high = h.sys.wake then h.sys.wakeAt else h.now } }) ∧
      high = true ∧
      h.mode = 1) ∧
    (∃ (s : State) (h : Hw) (high : Bool) (a : Hw),
      s.hw = h ∧
      (a =
      { h with sys := { h.sys with wake := high, wakeAt := if high = h.sys.wake then h.sys.wakeAt else h.now } }) ∧
      (high = false ∨ 2 ≤ h.mode ∨ (h.mode = 0 ∧ h.sys.lost.isSome = true))) ∧
    (∃ (s : State) (h : Hw),
      s.hw = h ∧
      h.mode = 2 ∧
      h.sequencing = true ∧
      h.sys.lost = none ∧
      h.wakeLowFor h.cfg.parkDelay = true) ∧
    (∃ (s : State) (h : Hw) (ch : Fin 2),
      s.hw = h ∧
      h.mode = 1 ∧
      ((h.cfg.can[ch.val]?).any (·.wake) = true)) ∧
    (∃ (s : State) (h : Hw) (_b : BringUp),
      s.hw = h ∧
      h.mode = 1 ∧
      h.sys.lost = none ∧
      ((h.sys.wake || h.sys.wakeReq) = true)) ∧
    (∃ (s : State) (h : Hw),
      s.hw = h ∧
      h.mode = 1 ∧
      h.sys.lost = none ∧
      h.sys.wakeReq = false ∧
      h.wakeLowFor h.cfg.offDelay = true) ∧
    (∃ (s : State) (h : Hw) (low : Bool) (a : Hw),
      s.hw = h ∧
      (a = { h with sys := { h.sys with porstLow := low } }) ∧
      low = true ∧
      h.sys.lost = none) ∧
    (∃ (s : State) (h : Hw) (low : Bool) (a : Hw) (n : Hw),
      s.hw = h ∧
      (a = { h with sys := { h.sys with porstLow := low } }) ∧
      n = a.porst 1 ∧
      low = true ∧
      h.sys.lost.isSome = true) ∧
    (∃ (s : State) (h : Hw) (low : Bool),
      s.hw = h ∧
      low = false) ∧
    (∃ (s : State) (h : Hw) (mv : BitVec 17),
      s.hw = h ∧
      h.sys.lost.isSome = true ∧
      3 ≤ h.sys.lossStage ∧
      inputOk false mv.toNat = true) ∧
    (∃ (s : State) (h : Hw),
      s.hw = h ∧
      (h.mode ≠ 2 ∨ h.sequencing = false ∨ h.sys.lost.isSome = true ∨ h.wakeLowFor h.cfg.parkDelay = false)) := by
  refine ⟨?_, ?_, ?_, ?_, ?_, ?_, ?_, ?_, ?_, ?_, ?_, ?_⟩
  · exact ⟨⟨[], (run.put F.MOD_MODE_MODE 0)⟩, (run.put F.MOD_MODE_MODE 0), true, _, rfl, rfl, by decide +kernel⟩
  · exact ⟨⟨[], (run.put F.MOD_MODE_MODE 1)⟩, (run.put F.MOD_MODE_MODE 1), true, _, rfl, rfl, by decide +kernel⟩
  · exact ⟨⟨[], (run.put F.MOD_MODE_MODE 0)⟩, (run.put F.MOD_MODE_MODE 0), false, _, rfl, rfl, by decide +kernel⟩
  · exact ⟨⟨[], (cfgOf (fun c => { c with parkDelay := 1 }) (sysOf (fun s => { s with wake := false }) (atTime
      1000000 run)))⟩, (cfgOf (fun c => { c with parkDelay := 1 }) (sysOf (fun s => { s with wake := false })
      (atTime 1000000 run))), rfl, by decide +kernel⟩
  · exact ⟨⟨[], (cfgOf (fun c =>
      { c with can := [{ nominalKbit := 500, dataKbit := 2000, terminated := true, priorityId := 0, sdu := 0, accept := 0, wake := true }] })
      (run.put F.MOD_MODE_MODE 1))⟩, (cfgOf (fun c =>
      { c with can := [{ nominalKbit := 500, dataKbit := 2000, terminated := true, priorityId := 0, sdu := 0, accept := 0, wake := true }] })
      (run.put F.MOD_MODE_MODE 1)), 0, rfl, by decide +kernel⟩
  · exact ⟨⟨[], (run.put F.MOD_MODE_MODE 1)⟩, (run.put F.MOD_MODE_MODE 1), ⟨[], [], 15, true⟩, rfl,
      by decide +kernel⟩
  · exact ⟨⟨[], (cfgOf (fun c => { c with offDelay := 1 }) (sysOf (fun s => { s with wake := false }) (atTime
      1000000 (run.put F.MOD_MODE_MODE 1))))⟩, (cfgOf (fun c => { c with offDelay := 1 }) (sysOf (fun s =>
      { s with wake := false }) (atTime 1000000 (run.put F.MOD_MODE_MODE 1)))), rfl, by decide +kernel⟩
  · exact ⟨⟨[], run⟩, run, true, _, rfl, rfl, by decide +kernel⟩
  · exact ⟨⟨[], (sysOf (fun s => { s with lost := some 0 }) run)⟩, (sysOf (fun s => { s with lost := some 0 }) run),
      true, _, _, rfl, rfl, rfl, by decide +kernel⟩
  · exact ⟨⟨[], (sysOf (fun s => { s with lost := some 0 }) run)⟩, (sysOf (fun s => { s with lost := some 0 }) run),
      _, rfl, rfl⟩
  · exact ⟨⟨[], (sysOf (fun s => { s with lost := some 0, lossStage := 3 }) run)⟩, (sysOf (fun s =>
      { s with lost := some 0, lossStage := 3 }) run), 48000, rfl, by decide +kernel⟩
  · exact ⟨⟨[], run⟩, run, rfl, by decide +kernel⟩

/-- For clauses of ModuleModes with hypotheses, states and operands that meet them (part 2 of 2). -/
theorem witness_ModuleModes_2 :
    (∃ (s : State) (h : Hw) (ch : Fin 2),
      s.hw = h ∧
      (h.mode ≠ 1 ∨ (h.cfg.can[ch.val]?).any (·.wake) = false)) ∧
    (∃ (s : State) (h : Hw) (_b : BringUp),
      s.hw = h ∧
      (h.mode ≠ 1 ∨ h.sys.lost.isSome = true ∨ (h.sys.wake || h.sys.wakeReq) = false)) ∧
    (∃ (s : State) (h : Hw),
      s.hw = h ∧
      (h.mode ≠ 1 ∨ h.sys.lost.isSome = true ∨ h.sys.wakeReq = true ∨ h.wakeLowFor h.cfg.offDelay = false)) ∧
    (∃ (s : State) (h : Hw) (mv : BitVec 17),
      s.hw = h ∧
      (h.sys.lost = none ∨ h.sys.lossStage < 3 ∨ inputOk false mv.toNat = false)) ∧
    (∃ (s : State) (h : Hw) (_b : BringUp),
      s.hw = h ∧
      (h.fabricOn = false ∨ h.hubOn = false ∨ (List.range 4).any h.cpRuns = true)) ∧
    (∃ (s : State) (h : Hw) (_b : BringUp),
      s.hw = h ∧
      h.fabricOn = true ∧
      h.hubOn = true ∧
      ((List.range 4).any h.cpRuns = false)) := by
  refine ⟨?_, ?_, ?_, ?_, ?_, ?_⟩
  · exact ⟨⟨[], (cfgOf (fun c =>
      { c with can := [{ nominalKbit := 500, dataKbit := 2000, terminated := true, priorityId := 0, sdu := 0, accept := 0, wake := true }] })
      (run.put F.MOD_MODE_MODE 1))⟩, (cfgOf (fun c =>
      { c with can := [{ nominalKbit := 500, dataKbit := 2000, terminated := true, priorityId := 0, sdu := 0, accept := 0, wake := true }] })
      (run.put F.MOD_MODE_MODE 1)), 1, rfl, by decide +kernel⟩
  · exact ⟨⟨[], run⟩, run, ⟨[], [], 15, true⟩, rfl, by decide +kernel⟩
  · exact ⟨⟨[], run⟩, run, rfl, by decide +kernel⟩
  · exact ⟨⟨[], (sysOf (fun s => { s with lost := some 0, lossStage := 3 }) run)⟩, (sysOf (fun s =>
      { s with lost := some 0, lossStage := 3 }) run), 0, rfl, by decide +kernel⟩
  · exact ⟨⟨[], run⟩, run, ⟨[], [], 15, true⟩, rfl, by decide +kernel⟩
  · exact ⟨⟨[], ((List.range 4).foldl (fun h c => h.put (F.CP_STATUS_STATE.blk c) 1) run)⟩, ((List.range 4).foldl
      (fun h c => h.put (F.CP_STATUS_STATE.blk c) 1) run), ⟨[], [], 15, true⟩, rfl, by decide +kernel⟩

/-- For clauses of StartUpAndResets with hypotheses, states and operands that meet them (part 1 of 3). -/
theorem witness_StartUpAndResets :
    (∃ (s : State) (h : Hw) (b : BringUp) (j1 : BitVec 17) (j2 : BitVec 17) (hubOk : Bool) (src : StartInput) (a :
      Hw) (g : Hw) (hub : FlashImg) (cfg : FlashImg) (recB : Bool),
      s.hw = h ∧
      (a = (((h.readLabel src.label).setInput false j1.toNat).2.setInput true j2.toNat).2.switchAll [36, 37, 38, 39,
      40, 41, 47] true) ∧
      a.sys.flash.booting 0 1 = some hub ∧
      a.sys.flash.booting 0 2 = some cfg ∧
      (recB = (a.sys.flash.bootOf 1 0).isNone) ∧
      (g = { a with sys := { a.sys with flash := { a.sys.flash with booted := (List.range 6).foldl (fun m i => match a.sys.flash.bootOf (i / 3) (i % 3) with | some s => if recB && decide (3 ≤ i) then m else SMap.put m i s | none => m) [] } } }) ∧
      hubOk = true ∧
      h.mode = 2 ∧
      h.get F.MOD_START_STEP = 0 ∧
      h.sys.porstLow = false ∧
      h.sys.startStop = false ∧
      h.sys.lost = none ∧
      inputOk false j1.toNat = true ∧
      inputOk true j2.toNat = true ∧
      ((a.sys.flash.bootOf 0 0).isSome = true) ∧
      ((recB || ((a.sys.flash.booting 1 1).any (fun j => j.digest == hub.digest) && (a.sys.flash.booting 1 2).any
      fun j => j.digest == cfg.digest)) = true) ∧
      b.cpPass ≠ 0) ∧
    (∃ (s : State) (h : Hw) (_b : BringUp) (j1 : BitVec 17) (j2 : BitVec 17) (hubOk : Bool) (src : StartInput) (a :
      Hw) (g : Hw) (hub : FlashImg) (cfg : FlashImg) (recB : Bool),
      s.hw = h ∧
      (a = (((h.readLabel src.label).setInput false j1.toNat).2.setInput true j2.toNat).2.switchAll [36, 37, 38, 39,
      40, 41, 47] true) ∧
      a.sys.flash.booting 0 1 = some hub ∧
      a.sys.flash.booting 0 2 = some cfg ∧
      (recB = (a.sys.flash.bootOf 1 0).isNone) ∧
      (g = { a with sys := { a.sys with flash := { a.sys.flash with booted := (List.range 6).foldl (fun m i => match a.sys.flash.bootOf (i / 3) (i % 3) with | some s => if recB && decide (3 ≤ i) then m else SMap.put m i s | none => m) [] } } }) ∧
      hubOk = false ∧
      h.mode = 2 ∧
      h.get F.MOD_START_STEP = 0 ∧
      h.sys.porstLow = false ∧
      h.sys.startStop = false ∧
      h.sys.lost = none ∧
      inputOk false j1.toNat = true ∧
      inputOk true j2.toNat = true ∧
      ((a.sys.flash.bootOf 0 0).isSome = true) ∧
      ((recB || ((a.sys.flash.booting 1 1).any (fun j => j.digest == hub.digest) && (a.sys.flash.booting 1 2).any
      fun j => j.digest == cfg.digest)) = true)) ∧
    (∃ (s : State) (h : Hw) (b : BringUp) (j1 : BitVec 17) (j2 : BitVec 17) (hubOk : Bool) (src : StartInput) (a :
      Hw) (g : Hw) (k : Hw) (hub : FlashImg) (cfg : FlashImg) (recB : Bool),
      s.hw = h ∧
      (a = (((h.readLabel src.label).setInput false j1.toNat).2.setInput true j2.toNat).2.switchAll [36, 37, 38, 39,
      40, 41, 47] true) ∧
      a.sys.flash.booting 0 1 = some hub ∧
      a.sys.flash.booting 0 2 = some cfg ∧
      (recB = (a.sys.flash.bootOf 1 0).isNone) ∧
      (g = { a with sys := { a.sys with flash := { a.sys.flash with booted := (List.range 6).foldl (fun m i => match a.sys.flash.bootOf (i / 3) (i % 3) with | some s => if recB && decide (3 ≤ i) then m else SMap.put m i s | none => m) [] } } }) ∧
      hubOk = true ∧
      (k = (g.switchAll hubDomains true).bringCps b) ∧
      h.mode = 2 ∧
      h.get F.MOD_START_STEP = 0 ∧
      h.sys.porstLow = false ∧
      h.sys.startStop = false ∧
      h.sys.lost = none ∧
      inputOk false j1.toNat = true ∧
      inputOk true j2.toNat = true ∧
      ((a.sys.flash.bootOf 0 0).isSome = true) ∧
      ((recB || ((a.sys.flash.booting 1 1).any (fun j => j.digest == hub.digest) && (a.sys.flash.booting 1 2).any
      fun j => j.digest == cfg.digest)) = true) ∧
      b.cpPass = 0) ∧
    (∃ (s : State) (h : Hw) (_b : BringUp) (j1 : BitVec 17) (j2 : BitVec 17) (_hubOk : Bool) (src : StartInput) (a :
      Hw) (hub : FlashImg) (cfg : FlashImg) (recB : Bool),
      s.hw = h ∧
      (a = (((h.readLabel src.label).setInput false j1.toNat).2.setInput true j2.toNat).2.switchAll [36, 37, 38, 39,
      40, 41, 47] true) ∧
      a.sys.flash.booting 0 1 = some hub ∧
      a.sys.flash.booting 0 2 = some cfg ∧
      (recB = (a.sys.flash.bootOf 1 0).isNone) ∧
      h.mode = 2 ∧
      h.get F.MOD_START_STEP = 0 ∧
      h.sys.porstLow = false ∧
      h.sys.startStop = false ∧
      h.sys.lost = none ∧
      inputOk false j1.toNat = true ∧
      inputOk true j2.toNat = true ∧
      ((a.sys.flash.bootOf 0 0).isSome = true) ∧
      recB = false ∧
      (((a.sys.flash.booting 1 1).any (fun j => j.digest == hub.digest) && (a.sys.flash.booting 1 2).any fun j =>
      j.digest == cfg.digest) = false)) ∧
    (∃ (s : State) (h : Hw) (_b : BringUp) (j1 : BitVec 17) (j2 : BitVec 17) (_hubOk : Bool) (src : StartInput) (a :
      Hw),
      s.hw = h ∧
      (a = (((h.readLabel src.label).setInput false j1.toNat).2.setInput true j2.toNat).2.switchAll [36, 37, 38, 39,
      40, 41, 47] true) ∧
      h.mode = 2 ∧
      h.get F.MOD_START_STEP = 0 ∧
      h.sys.porstLow = false ∧
      h.sys.startStop = false ∧
      h.sys.lost = none ∧
      inputOk false j1.toNat = true ∧
      inputOk true j2.toNat = true ∧
      ((a.sys.flash.bootOf 0 0).isSome = true) ∧
      (a.sys.flash.booting 0 1 = none ∨ a.sys.flash.booting 0 2 = none)) ∧
    (∃ (s : State) (h : Hw) (_b : BringUp) (j1 : BitVec 17) (j2 : BitVec 17) (_hubOk : Bool) (src : StartInput) (a :
      Hw),
      s.hw = h ∧
      (a = (((h.readLabel src.label).setInput false j1.toNat).2.setInput true j2.toNat).2.switchAll [36, 37, 38, 39,
      40, 41, 47] true) ∧
      h.mode = 2 ∧
      h.get F.MOD_START_STEP = 0 ∧
      h.sys.porstLow = false ∧
      h.sys.startStop = false ∧
      h.sys.lost = none ∧
      inputOk false j1.toNat = true ∧
      inputOk true j2.toNat = true ∧
      a.sys.flash.bootOf 0 0 = none) ∧
    (∃ (s : State) (h : Hw) (_b : BringUp) (j1 : BitVec 17) (j2 : BitVec 17) (_hubOk : Bool) (_src : StartInput),
      s.hw = h ∧
      h.mode = 2 ∧
      h.get F.MOD_START_STEP = 0 ∧
      h.sys.porstLow = false ∧
      h.sys.startStop = false ∧
      h.sys.lost = none ∧
      (inputOk false j1.toNat = false ∨ inputOk true j2.toNat = false)) ∧
    (∃ (s : State) (h : Hw) (_b : BringUp) (_j1 : BitVec 17) (_j2 : BitVec 17) (_hubOk : Bool) (_src : StartInput),
      s.hw = h ∧
      (h.mode ≠ 2 ∨ h.get F.MOD_START_STEP ≠ 0 ∨ h.sys.porstLow = true ∨ h.sys.startStop = true ∨ h.sys.lost.isSome
      = true)) ∧
    (∃ (s : State) (h : Hw),
      s.hw = h ∧
      (h.get F.MOD_START_STEP ≠ 10 ∨ h.fabricOn = false)) ∧
    (∃ (s : State) (h : Hw) (_x : ImageFrame),
      s.hw = h ∧
      ((h.mode ≠ 5 ∧ h.sys.startStop = false) ∨ h.datA.down = true)) ∧
    (∃ (s : State) (h : Hw) (x : ImageFrame) (n : Nat) (m : SMap Byte) (i : FlashImg) (f : Flash) (fa : Flash) (fb :
      Flash) (a : Bool) (b : Bool),
      s.hw = h ∧
      n = x.data.length ∧
      (m = (List.range n).foldl (fun m i => SMap.put m (x.off.toNat + i) (x.data.getD i 0)) (h.sys.flash.update.getD
      [] x.kind.val)) ∧
      (i = if updateWhole m (x.off.toNat + n) then imageOf x.kind.val (updateBytes m (x.off.toNat + n)) else
      { bytes := [], version := 0, secver := 0, digest := 0, good := false }) ∧
      (f = { h.sys.flash with update := h.sys.flash.update.del x.kind.val }) ∧
      (f.install 0 x.kind.val i = (fa, a)) ∧
      (fa.install 1 x.kind.val i = (fb, b)) ∧
      (h.mode = 5 ∨ h.sys.startStop = true) ∧
      h.datA.down = false ∧
      64 ≤ n ∧
      n ≤ 1024 ∧
      crc32c x.data = x.crc.toNat ∧
      x.last = true) ∧
    (∃ (s : State) (h : Hw) (a : Hw),
      s.hw = h ∧
      (a = (List.range 1152).foldl (fun x t => if (x.tile t).fails then x.retireTile t 0 none else x) h) ∧
      h.get F.MOD_START_STEP = 10 ∧
      h.fabricOn = true) := by
  refine ⟨?_, ?_, ?_, ?_, ?_, ?_, ?_, ?_, ?_, ?_, ?_, ?_⟩
  · exact ⟨⟨[], run⟩, run, ⟨[], [], 15, true⟩, 48000, 12000, _, ⟨⟨false, 0, 0, 1, 2024, 1⟩, none⟩, _, _, _, _, _,
      rfl, rfl, w_some (by decide +kernel), w_some (by decide +kernel), rfl, rfl, rfl, by decide +kernel⟩
  · exact ⟨⟨[], run⟩, run, ⟨[], [], 15, true⟩, 48000, 12000, _, ⟨⟨false, 0, 0, 1, 2024, 1⟩, none⟩, _, _, _, _, _,
      rfl, rfl, w_some (by decide +kernel), w_some (by decide +kernel), rfl, rfl, rfl, by decide +kernel⟩
  · exact ⟨⟨[], run⟩, run, ⟨[], [], 0, true⟩, 48000, 12000, _, ⟨⟨false, 0, 0, 1, 2024, 1⟩, none⟩, _, _, _, _, _, _,
      rfl, rfl, w_some (by decide +kernel), w_some (by decide +kernel), rfl, rfl, rfl, rfl, by decide +kernel⟩
  · exact ⟨⟨[], (sysOf (fun s =>
      { s with flash := { s.flash with slots := [(0, imgAt 0), (2, imgAt 0), (4, imgAt 0), (6, imgAt 0), (8, imgAt 1), (10, imgAt 0)] } })
      Hw.reset)⟩, (sysOf (fun s =>
      { s with flash := { s.flash with slots := [(0, imgAt 0), (2, imgAt 0), (4, imgAt 0), (6, imgAt 0), (8, imgAt 1), (10, imgAt 0)] } })
      Hw.reset), ⟨[], [], 15, true⟩, 48000, 12000, false, ⟨⟨false, 0, 0, 1, 2024, 1⟩, none⟩, _, _, _, _, rfl, rfl,
      w_some (by decide +kernel), w_some (by decide +kernel), rfl, by decide +kernel⟩
  · exact ⟨⟨[], (sysOf (fun s => { s with flash := { s.flash with slots := [(0, imgAt 0)] } }) Hw.reset)⟩, (sysOf
      (fun s => { s with flash := { s.flash with slots := [(0, imgAt 0)] } }) Hw.reset), ⟨[], [], 15, true⟩, 48000,
      12000, false, ⟨⟨false, 0, 0, 1, 2024, 1⟩, none⟩, _, rfl, rfl, by decide +kernel⟩
  · exact ⟨⟨[], (sysOf (fun s => { s with flash := { s.flash with slots := [] } }) Hw.reset)⟩, (sysOf (fun s =>
      { s with flash := { s.flash with slots := [] } }) Hw.reset), ⟨[], [], 15, true⟩, 48000, 12000, false, ⟨⟨false,
      0, 0, 1, 2024, 1⟩, none⟩, _, rfl, rfl, by decide +kernel⟩
  · exact ⟨⟨[], (sysOf (fun s => { s with flash := { s.flash with slots := [] } }) Hw.reset)⟩, (sysOf (fun s =>
      { s with flash := { s.flash with slots := [] } }) Hw.reset), ⟨[], [], 15, true⟩, 0, 0, false, ⟨⟨false, 0, 0,
      1, 2024, 1⟩, none⟩, rfl, by decide +kernel⟩
  · exact ⟨⟨[], (offed ((sysOf (fun s => { s with flash := { s.flash with slots := [] } }) Hw.reset)))⟩, (offed
      ((sysOf (fun s => { s with flash := { s.flash with slots := [] } }) Hw.reset))), ⟨[], [], 15, true⟩, 0, 0,
      false, ⟨⟨false, 0, 0, 1, 2024, 1⟩, none⟩, rfl, by decide +kernel⟩
  · exact ⟨⟨[], run⟩, run, rfl, by decide +kernel⟩
  · exact ⟨⟨[], run⟩, run, ⟨0,0,0,zeros 64,false⟩, rfl, by decide +kernel⟩
  · exact ⟨⟨[], (run.put F.MOD_MODE_MODE 5)⟩, (run.put F.MOD_MODE_MODE 5), ⟨0,0,BitVec.ofNat 32 (crc32c (zeros
      64)),zeros 64,true⟩, _, _, _, _, _, _, _, _, rfl, rfl, rfl, rfl, rfl, w_pair, w_pair, by decide +kernel⟩
  · exact ⟨⟨[], (run.put F.MOD_START_STEP 10)⟩, (run.put F.MOD_START_STEP 10), _, rfl, rfl, by decide +kernel⟩

/-- For clauses of StartUpAndResets with hypotheses, states and operands that meet them (part 2 of 3). -/
theorem witness_StartUpAndResets_2 :
    (∃ (s : State) (h : Hw) (x : ImageFrame),
      s.hw = h ∧
      (x.data.length < 64 ∨ 1024 < x.data.length ∨ crc32c x.data ≠ x.crc.toNat)) ∧
    (∃ (s : State) (h : Hw) (x : ImageFrame) (n : Nat) (m : SMap Byte),
      s.hw = h ∧
      n = x.data.length ∧
      (m = (List.range n).foldl (fun m i => SMap.put m (x.off.toNat + i) (x.data.getD i 0)) (h.sys.flash.update.getD
      [] x.kind.val)) ∧
      (h.mode = 5 ∨ h.sys.startStop = true) ∧
      h.datA.down = false ∧
      64 ≤ n ∧
      n ≤ 1024 ∧
      crc32c x.data = x.crc.toNat ∧
      x.last = false) ∧
    (∃ (s : State) (h : Hw) (d : Fin 4),
      s.hw = h ∧
      h.running = true ∧
      h.sys.gov.dieHeld.contains d.val = false) ∧
    (∃ (s : State) (h : Hw) (d : Fin 4),
      s.hw = h ∧
      (h.running = false ∨ h.sys.gov.dieHeld.contains d.val = true)) ∧
    (∃ (s : State) (h : Hw) (r : Restart),
      s.hw = h ∧
      h.trv.restart = some r ∧
      (h.running = false ∨ r.begun = true ∨ h.now < r.since + 600)) ∧
    (∃ (s : State) (h : Hw) (r : Restart),
      s.hw = h ∧
      h.trv.restart = some r ∧
      (h.running = false ∨ r.begun = false ∨ r.dies.any h.sys.gov.dieHeld.contains = true)) ∧
    (∃ (s : State) (h : Hw) (r : Restart),
      s.hw = h ∧
      h.trv.restart = some r ∧
      (h.now < r.since + 750000)) ∧
    (∃ (s : State) (h : Hw) (r : Restart) (a : Hw) (b : Hw),
      s.hw = h ∧
      h.trv.restart = some r ∧
      (a = (r.dies.filter h.dieUp?).foldl (fun x d => x.dieDown d) h) ∧
      (b = { a with trv := { a.trv with restart := some { r with begun := true } } }) ∧
      h.running = true ∧
      r.begun = false ∧
      (r.since + 600 ≤ h.now)) ∧
    (∃ (s : State) (h : Hw) (r : Restart) (a : Hw) (b : Hw) (d : Hw),
      s.hw = h ∧
      h.trv.restart = some r ∧
      (a = (r.dies.filter fun d => ! h.dieUp? d).foldl (fun x d => x.dieBack d) h) ∧
      (b = { a with trv := { a.trv with restart := none, restartedAt := some a.now } }) ∧
      (d = (b.unlatch 0 dieReason).unlatch 1 dieReason) ∧
      h.running = true ∧
      r.begun = true ∧
      r.dies.any h.sys.gov.dieHeld.contains = false) ∧
    (∃ (s : State) (h : Hw) (r : Restart),
      s.hw = h ∧
      h.trv.restart = some r ∧
      (r.since + 750000 ≤ h.now)) ∧
    (∃ (s : State) (h : Hw),
      s.hw = h ∧
      h.trv.restart = none) ∧
    (∃ (s : State) (h : Hw),
      s.hw = h ∧
      h.trv.restart = none) := by
  refine ⟨?_, ?_, ?_, ?_, ?_, ?_, ?_, ?_, ?_, ?_, ?_, ?_⟩
  · exact ⟨⟨[], (run.put F.MOD_MODE_MODE 5)⟩, (run.put F.MOD_MODE_MODE 5), ⟨0,0,0,zeros 64,false⟩, rfl,
      by decide +kernel⟩
  · exact ⟨⟨[], (run.put F.MOD_MODE_MODE 5)⟩, (run.put F.MOD_MODE_MODE 5), ⟨0,0,BitVec.ofNat 32 (crc32c (zeros
      64)),zeros 64,false⟩, _, _, rfl, rfl, rfl, by decide +kernel⟩
  · exact ⟨⟨[], Hw.reset⟩, Hw.reset, 0, rfl, by decide +kernel⟩
  · exact ⟨⟨[], offHw⟩, offHw, 0, rfl, by decide +kernel⟩
  · exact ⟨⟨[], (offed ((trvOf (fun t => { t with restart := some { dies := [1], since := 0, begun := false } })
      (atTime 600 run))))⟩, (offed ((trvOf (fun t =>
      { t with restart := some { dies := [1], since := 0, begun := false } }) (atTime 600 run)))), _, rfl, w_some
      (by decide +kernel), by decide +kernel⟩
  · exact ⟨⟨[], (offed ((trvOf (fun t => { t with restart := some { dies := [1], since := 0, begun := true } })
      run)))⟩, (offed ((trvOf (fun t => { t with restart := some { dies := [1], since := 0, begun := true } })
      run))), _, rfl, w_some (by decide +kernel), by decide +kernel⟩
  · exact ⟨⟨[], (trvOf (fun t => { t with restart := some { dies := [1], since := 0, begun := true } }) run)⟩,
      (trvOf (fun t => { t with restart := some { dies := [1], since := 0, begun := true } }) run), _, rfl, w_some
      (by decide +kernel), by decide +kernel⟩
  · exact ⟨⟨[], (trvOf (fun t => { t with restart := some { dies := [1], since := 0, begun := false } }) (atTime 600
      run))⟩, (trvOf (fun t => { t with restart := some { dies := [1], since := 0, begun := false } }) (atTime 600
      run)), _, _, _, rfl, w_some (by decide +kernel), rfl, rfl, by decide +kernel⟩
  · exact ⟨⟨[], (trvOf (fun t => { t with restart := some { dies := [1], since := 0, begun := true } }) run)⟩,
      (trvOf (fun t => { t with restart := some { dies := [1], since := 0, begun := true } }) run), _, _, _, _, rfl,
      w_some (by decide +kernel), rfl, rfl, rfl, by decide +kernel⟩
  · exact ⟨⟨[], (trvOf (fun t => { t with restart := some { dies := [1], since := 0, begun := true } }) (atTime
      750000 run))⟩, (trvOf (fun t => { t with restart := some { dies := [1], since := 0, begun := true } }) (atTime
      750000 run)), _, rfl, w_some (by decide +kernel), by decide +kernel⟩
  · exact ⟨⟨[], run⟩, run, rfl, by decide +kernel⟩
  · exact ⟨⟨[], run⟩, run, rfl, by decide +kernel⟩

/-- For clauses of StartUpAndResets with hypotheses, states and operands that meet them (part 3 of 3). -/
theorem witness_StartUpAndResets_3 :
    ∃ (s : State) (h : Hw),
    s.hw = h ∧
    h.trv.restart = none :=
  ⟨⟨[], run⟩, run, rfl, by decide +kernel⟩

/-- For clauses of FreezeAndTap with hypotheses, states and operands that meet them (part 1 of 2). -/
theorem witness_FreezeAndTap :
    (∃ (s : State) (h : Hw) (a : Hw),
      s.hw = h ∧
      (a = { h with freezeReq := false, seqStopped := true, sys := { h.sys with frozenAt := some h.now } }) ∧
      benchMode h.mode = true ∧
      h.sys.modeAt < h.now ∧
      h.sys.lost = none ∧
      h.sys.frozenAt = none ∧
      h.freezeDue = true) ∧
    (∃ (s : State) (h : Hw),
      s.hw = h ∧
      (h.freezeDue = false ∨ benchMode h.mode = false ∨ h.now ≤ h.sys.modeAt ∨ h.sys.lost.isSome = true ∨
      h.sys.frozenAt.isSome = true)) ∧
    (∃ (s : State) (h : Hw) (a : Hw),
      s.hw = h ∧
      (a = { h with freeIx := h.freeIx + 1, sys := { h.sys with frozenIx := h.freeIx } }) ∧
      h.atFreezePoint = true ∧
      h.on F.DBG_STATUS_FROZEN = false ∧
      h.sys.lost = none) ∧
    (∃ (s : State) (h : Hw),
      s.hw = h ∧
      h.atFreezePoint = true ∧
      h.on F.DBG_STATUS_FROZEN = false ∧
      h.sys.lost.isSome = true) ∧
    (∃ (s : State) (h : Hw),
      s.hw = h ∧
      (h.atFreezePoint = false ∨ h.on F.DBG_STATUS_FROZEN = true)) ∧
    (∃ (s : State) (h : Hw) (low : Bool),
      s.hw = h ∧
      low = h.sys.frzLow) ∧
    (∃ (s : State) (h : Hw) (low : Bool),
      s.hw = h ∧
      low = true ∧
      h.sys.frzLow = false ∧
      benchMode h.mode = false ∧
      h.mode ≠ 2 ∧
      h.mode ≠ 3) ∧
    (∃ (s : State) (h : Hw) (low : Bool),
      s.hw = h ∧
      low = true ∧
      h.sys.frzLow = false ∧
      benchMode h.mode = true) ∧
    (∃ (s : State) (h : Hw) (low : Bool) (a : Hw),
      s.hw = h ∧
      low = true ∧
      (a = { h with sys := { h.sys with frzLow := true } }) ∧
      h.sys.frzLow = false ∧
      (h.mode = 2 ∨ h.mode = 3)) ∧
    (∃ (s : State) (h : Hw) (low : Bool),
      s.hw = h ∧
      low = false) ∧
    (∃ (s : State) (h : Hw) (low : Bool) (a : Hw),
      s.hw = h ∧
      low = true ∧
      a = h.put F.DBG_STATUS_DBG_EN 1 ∧
      h.on F.DBG_STATUS_DBG_EN = false ∧
      benchMode a.mode = true ∧
      a.comparatorsOff = false) ∧
    (∃ (s : State) (h : Hw) (low : Bool),
      s.hw = h ∧
      low = h.on F.DBG_STATUS_DBG_EN) := by
  refine ⟨?_, ?_, ?_, ?_, ?_, ?_, ?_, ?_, ?_, ?_, ?_, ?_⟩
  · exact ⟨⟨[], { ((run.put F.MOD_MODE_MODE 4)) with freezeReq := true }⟩,
      { ((run.put F.MOD_MODE_MODE 4)) with freezeReq := true }, _, rfl, rfl, by decide +kernel⟩
  · exact ⟨⟨[], run⟩, run, rfl, by decide +kernel⟩
  · exact ⟨⟨[], (sysOf (fun s => { s with frozenAt := some 50 }) run)⟩, (sysOf (fun s =>
      { s with frozenAt := some 50 }) run), _, rfl, rfl, by decide +kernel⟩
  · exact ⟨⟨[], (sysOf (fun s => { s with lost := some 60 }) (sysOf (fun s => { s with frozenAt := some 50 })
      run))⟩, (sysOf (fun s => { s with lost := some 60 }) (sysOf (fun s => { s with frozenAt := some 50 }) run)),
      rfl, by decide +kernel⟩
  · exact ⟨⟨[], run⟩, run, rfl, by decide +kernel⟩
  · exact ⟨⟨[], (run.put F.MOD_MODE_MODE 4)⟩, (run.put F.MOD_MODE_MODE 4), _, rfl, rfl⟩
  · exact ⟨⟨[], (run.put F.MOD_MODE_MODE 0)⟩, (run.put F.MOD_MODE_MODE 0), _, rfl, rfl, by decide +kernel⟩
  · exact ⟨⟨[], (run.put F.MOD_MODE_MODE 4)⟩, (run.put F.MOD_MODE_MODE 4), _, rfl, rfl, by decide +kernel⟩
  · exact ⟨⟨[], run⟩, run, _, _, rfl, rfl, rfl, by decide +kernel⟩
  · exact ⟨⟨[], (run.put F.MOD_MODE_MODE 4)⟩, (run.put F.MOD_MODE_MODE 4), _, rfl, rfl⟩
  · exact ⟨⟨[], (run.put F.MOD_MODE_MODE 4)⟩, (run.put F.MOD_MODE_MODE 4), _, _, rfl, rfl, rfl, by decide +kernel⟩
  · exact ⟨⟨[], (run.put F.DBG_STATUS_DBG_EN 1)⟩, (run.put F.DBG_STATUS_DBG_EN 1), _, rfl, rfl⟩

/-- For clauses of FreezeAndTap with hypotheses, states and operands that meet them (part 2 of 2). -/
theorem witness_FreezeAndTap_2 :
    (∃ (s : State) (h : Hw) (low : Bool) (a : Hw),
      s.hw = h ∧
      low = true ∧
      a = h.put F.DBG_STATUS_DBG_EN 1 ∧
      h.on F.DBG_STATUS_DBG_EN = false ∧
      ((benchMode a.mode = true ∧ a.comparatorsOff = true) ∨ (benchMode a.mode = false ∧ a.mode ≠ 3))) ∧
    (∃ (s : State) (h : Hw) (low : Bool) (a : Hw),
      s.hw = h ∧
      low = true ∧
      a = h.put F.DBG_STATUS_DBG_EN 1 ∧
      h.on F.DBG_STATUS_DBG_EN = false ∧
      benchMode a.mode = false ∧
      a.mode = 3) ∧
    (∃ (s : State) (h : Hw) (low : Bool),
      s.hw = h ∧
      low = false ∧
      h.on F.DBG_STATUS_DBG_EN = true) ∧
    (∃ (s : State) (h : Hw) (op : TapOp),
      s.hw = h ∧
      h.mode ≠ 0 ∧
      tapNeeds op ≤ h.get F.DBG_STATUS_LEVEL) ∧
    (∃ (s : State) (h : Hw) (op : TapOp) (a : Hw),
      s.hw = h ∧
      (a = (h.debugRefused 2).put F.DBG_INT_STATUS_REFUSED 1) ∧
      h.mode ≠ 0 ∧
      h.get F.DBG_STATUS_LEVEL < tapNeeds op ∧
      h.sys.tapRefused = false ∧
      h.on F.DBG_STATUS_FROZEN = false) ∧
    (∃ (s : State) (h : Hw) (op : TapOp),
      s.hw = h ∧
      h.mode ≠ 0 ∧
      h.get F.DBG_STATUS_LEVEL < tapNeeds op ∧
      (h.sys.tapRefused = true ∨ h.on F.DBG_STATUS_FROZEN = true)) ∧
    (∃ (s : State) (h : Hw) (_op : TapOp),
      s.hw = h ∧
      h.mode = 0) := by
  refine ⟨?_, ?_, ?_, ?_, ?_, ?_, ?_⟩
  · exact ⟨⟨[], run⟩, run, _, _, rfl, rfl, rfl, by decide +kernel⟩
  · exact ⟨⟨[], (run.put F.MOD_MODE_MODE 3)⟩, (run.put F.MOD_MODE_MODE 3), _, _, rfl, rfl, rfl, by decide +kernel⟩
  · exact ⟨⟨[], (run.put F.DBG_STATUS_DBG_EN 1)⟩, (run.put F.DBG_STATUS_DBG_EN 1), _, rfl, rfl, by decide +kernel⟩
  · exact ⟨⟨[], run⟩, run, .idcode, rfl, by decide +kernel⟩
  · exact ⟨⟨[], run⟩, run, .dbg 0, _, rfl, rfl, by decide +kernel⟩
  · exact ⟨⟨[], (run.put F.DBG_STATUS_FROZEN 1)⟩, (run.put F.DBG_STATUS_FROZEN 1), .dbg 0, rfl, by decide +kernel⟩
  · exact ⟨⟨[], (run.put F.MOD_MODE_MODE 0)⟩, (run.put F.MOD_MODE_MODE 0), .idcode, rfl, by decide +kernel⟩

/-- For clauses of ModuleTime with hypotheses, states and operands that meet them (part 1 of 2). -/
theorem witness_ModuleTime :
    (∃ (s : State) (h : Hw) (port : Fin 2) (_off : BitVec 64) (_clockId : BitVec 64) (a : Hw),
      s.hw = h ∧
      (a = (h.addSat (F.BB_COUNT_RX.nth port.val) 1).put (if port.val = 0 then F.BB_STATUS_PTP0 else
      F.BB_STATUS_PTP1) 1) ∧
      h.timeRuns = true ∧
      h.sys.srcInUse = port.val) ∧
    (∃ (s : State) (h : Hw) (port : Fin 2) (_off : BitVec 64) (_clockId : BitVec 64) (a : Hw),
      s.hw = h ∧
      (a = (h.addSat (F.BB_COUNT_RX.nth port.val) 1).put (if port.val = 0 then F.BB_STATUS_PTP0 else
      F.BB_STATUS_PTP1) 1) ∧
      h.timeRuns = true ∧
      h.sys.srcInUse ≠ port.val) ∧
    (∃ (s : State) (h : Hw) (ns10 : Fin 100) (good : Bool) (t : Nat),
      s.hw = h ∧
      (t = 1000 * h.now + 10 * ns10.val) ∧
      good = true ∧
      (∀ x, h.sys.ppsAt = some x → (nearSecond x t).natAbs ≤ 10000) ∧
      h.timeRuns = true ∧
      h.sys.srcInUse = 2) ∧
    (∃ (s : State) (h : Hw) (ns10 : Fin 100) (good : Bool) (t : Nat),
      s.hw = h ∧
      (t = 1000 * h.now + 10 * ns10.val) ∧
      good = true ∧
      (∀ x, h.sys.ppsAt = some x → (nearSecond x t).natAbs ≤ 10000) ∧
      h.timeRuns = true ∧
      h.sys.srcInUse ≠ 2) ∧
    (∃ (s : State) (h : Hw) (ns10 : Fin 100) (good : Bool) (t : Nat) (x : Nat),
      s.hw = h ∧
      (t = 1000 * h.now + 10 * ns10.val) ∧
      good = true ∧
      h.sys.ppsAt = some x ∧
      h.timeRuns = true ∧
      (10000 < (nearSecond x t).natAbs)) ∧
    (∃ (s : State) (h : Hw) (_port : Fin 2) (_off : BitVec 64) (_clockId : BitVec 64),
      s.hw = h ∧
      h.timeRuns = false) ∧
    (∃ (s : State) (h : Hw) (_ns10 : Fin 100) (good : Bool),
      s.hw = h ∧
      (good = false ∨ h.timeRuns = false)) ∧
    (∃ (s : State) (h : Hw) (_left : Bool),
      s.hw = h ∧
      (∀ x, h.sys.ppsAt = some x → x + 2500000000 ≤ 1000 * h.now) ∧
      h.timeRuns = true ∧
      h.sys.srcInUse = 2) ∧
    (∃ (s : State) (h : Hw) (left : Bool) (a : Hw),
      s.hw = h ∧
      (a = if left then h.put (if h.sys.srcInUse = 0 then F.BB_STATUS_PTP0 else F.BB_STATUS_PTP1) 0 else h) ∧
      h.timeRuns = true ∧
      h.sys.srcInUse < 2) ∧
    (∃ (s : State) (h : Hw) (_left : Bool) (x : Nat),
      s.hw = h ∧
      h.sys.ppsAt = some x ∧
      h.timeRuns = true ∧
      h.sys.srcInUse = 2 ∧
      (1000 * h.now < x + 2500000000)) ∧
    (∃ (s : State) (h : Hw) (_left : Bool),
      s.hw = h ∧
      (h.sys.srcInUse = 3 ∨ h.timeRuns = false)) ∧
    (∃ (s : State) (h : Hw) (v : BitVec 64),
      s.hw = h ∧
      h.hubOn = true ∧
      h.locked 0x002 = false ∧
      bits v.toNat 0 2 ≠ h.get F.TIME_SRC_SRC) := by
  refine ⟨?_, ?_, ?_, ?_, ?_, ?_, ?_, ?_, ?_, ?_, ?_, ?_⟩
  · exact ⟨⟨[], (sysOf (fun s => { s with srcInUse := 0 }) run)⟩, (sysOf (fun s => { s with srcInUse := 0 }) run),
      0, 0, 0, _, rfl, rfl, by decide +kernel⟩
  · exact ⟨⟨[], (sysOf (fun s => { s with srcInUse := 0 }) run)⟩, (sysOf (fun s => { s with srcInUse := 0 }) run),
      1, 0, 0, _, rfl, rfl, by decide +kernel⟩
  · exact ⟨⟨[], (sysOf (fun s => { s with srcInUse := 2 }) run)⟩, (sysOf (fun s => { s with srcInUse := 2 }) run),
      0, _, _, rfl, rfl, rfl, fun _ e => w_vacant (by decide +kernel) e, by decide +kernel⟩
  · exact ⟨⟨[], run⟩, run, 0, _, _, rfl, rfl, rfl, fun _ e => w_vacant (by decide +kernel) e, by decide +kernel⟩
  · exact ⟨⟨[], (sysOf (fun s => { s with srcInUse := 2, ppsAt := some 0 }) run)⟩, (sysOf (fun s =>
      { s with srcInUse := 2, ppsAt := some 0 }) run), 0, _, _, _, rfl, rfl, rfl, w_some (by decide +kernel),
      by decide +kernel⟩
  · exact ⟨⟨[], Hw.reset⟩, Hw.reset, 0, 0, 0, rfl, by decide +kernel⟩
  · exact ⟨⟨[], (sysOf (fun s => { s with srcInUse := 2, ppsAt := some 0 }) run)⟩, (sysOf (fun s =>
      { s with srcInUse := 2, ppsAt := some 0 }) run), 0, false, rfl, by decide +kernel⟩
  · exact ⟨⟨[], (sysOf (fun s => { s with srcInUse := 2 }) run)⟩, (sysOf (fun s => { s with srcInUse := 2 }) run),
      false, rfl, fun _ e => w_vacant (by decide +kernel) e, by decide +kernel⟩
  · exact ⟨⟨[], (sysOf (fun s => { s with srcInUse := 0 }) run)⟩, (sysOf (fun s => { s with srcInUse := 0 }) run),
      false, _, rfl, rfl, by decide +kernel⟩
  · exact ⟨⟨[], (sysOf (fun s => { s with srcInUse := 2, ppsAt := some 0 }) run)⟩, (sysOf (fun s =>
      { s with srcInUse := 2, ppsAt := some 0 }) run), false, _, rfl, w_some (by decide +kernel), by decide +kernel⟩
  · exact ⟨⟨[], run⟩, run, false, rfl, by decide +kernel⟩
  · exact ⟨⟨[], served⟩, served, 0, rfl, by decide +kernel⟩

/-- For clauses of ModuleTime with hypotheses, states and operands that meet them (part 2 of 2). -/
theorem witness_ModuleTime_2 :
    (∃ (s : State) (h : Hw) (v : BitVec 64),
      s.hw = h ∧
      (h.hubOn = false ∨ h.locked 0x002 = true ∨ bits v.toNat 0 2 = h.get F.TIME_SRC_SRC)) ∧
    (∃ (s : State) (h : Hw) (v : BitVec 64),
      s.hw = h ∧
      h.hubOn = true ∧
      (h.mode = 2 ∨ h.mode = 4 ∨ h.mode = 5) ∧
      h.stn.swapAt = none ∧
      h.sys.step = none ∧
      ((sx 64 v.toNat).natAbs ≤ 2 ^ 62)) ∧
    (∃ (s : State) (h : Hw) (v : BitVec 64),
      s.hw = h ∧
      h.hubOn = true ∧
      (h.stn.swapAt.isSome = true ∨ h.sys.step.isSome = true ∨ 2 ^ 62 < (sx 64 v.toNat).natAbs ∨ (h.mode ≠ 2 ∧
      h.mode ≠ 4 ∧ h.mode ≠ 5))) ∧
    (∃ (s : State) (h : Hw) (_v : BitVec 64),
      s.hw = h ∧
      h.hubOn = false) ∧
    (∃ (s : State) (h : Hw) (d : Int) (at_ : Nat),
      s.hw = h ∧
      (h.timeRuns = false ∨ (h.sys.step = some (d, at_) ∧ (h.boundaryDue = false ∨ h.now < at_ + 16)))) ∧
    (∃ (s : State) (h : Hw) (d : Int) (at_ : Nat) (a : Hw) (b : Hw),
      s.hw = h ∧
      (h.sys.step = some (d, at_)) ∧
      (a = { h.budgetStep with sys := { h.budgetStep.sys with step := none } }) ∧
      (b = (a.moveTimes d).put F.TIME_COUNT_STROKE_COUNT (moved (d - 1) a.now % 2 ^ 64)) ∧
      h.timeRuns = true ∧
      h.boundaryDue = true ∧
      (at_ + 16 ≤ h.now)) ∧
    (∃ (s : State) (h : Hw),
      s.hw = h ∧
      h.sys.step = none) ∧
    (∃ (s : State) (h : Hw) (a : Hw),
      s.hw = h ∧
      (a = { h with sys := { h.sys with refLost := true } })) := by
  refine ⟨?_, ?_, ?_, ?_, ?_, ?_, ?_, ?_⟩
  · exact ⟨⟨[], Hw.reset⟩, Hw.reset, 0, rfl, by decide +kernel⟩
  · exact ⟨⟨[], run⟩, run, 0, rfl, by decide +kernel⟩
  · exact ⟨⟨[], (run.put F.MOD_MODE_MODE 3)⟩, (run.put F.MOD_MODE_MODE 3), 0, rfl, by decide +kernel⟩
  · exact ⟨⟨[], Hw.reset⟩, Hw.reset, 0, rfl, by decide +kernel⟩
  · exact ⟨⟨[], Hw.reset⟩, Hw.reset, 0, 0, rfl, by decide +kernel⟩
  · exact ⟨⟨[], (sysOf (fun s => { s with step := some (5, 16) }) (atTime 2000 run))⟩, (sysOf (fun s =>
      { s with step := some (5, 16) }) (atTime 2000 run)), _, _, _, _, rfl, w_somePair (by decide +kernel), rfl,
      rfl, by decide +kernel⟩
  · exact ⟨⟨[], run⟩, run, rfl, by decide +kernel⟩
  · exact ⟨⟨[], Hw.reset⟩, Hw.reset, _, rfl, rfl⟩

/-- For clauses of DatumLinks with hypotheses, states and operands that meet them (part 1 of 2). -/
theorem witness_DatumLinks :
    (∃ (s : State) (h : Hw) (d : Fin 2) (valid : Bool) (_differ : Bool) (a : Hw) (b : Hw),
      s.hw = h ∧
      valid = true ∧
      (a = h.modDatum d.val fun x => { x with peerAt := h.datNow d.val }) ∧
      (b = (a.put (F.DTM_STATUS_PEER_OK.datum d.val) 1).put (F.DTM_LINKS_XLINK_OK.datum d.val) 1) ∧
      h.datumOn d.val = true ∧
      (h.datumOn (1 - d.val) = true)) ∧
    (∃ (s : State) (h : Hw) (d : Fin 2) (valid : Bool) (_differ : Bool),
      s.hw = h ∧
      (valid = false ∨ h.datumOn d.val = false ∨ h.datumOn (1 - d.val) = false)) ∧
    (∃ (s : State) (h : Hw) (d : Fin 2),
      s.hw = h ∧
      h.datumOn d.val = true ∧
      ((h.datum d.val).peerAt + 4 ≤ h.datNow d.val)) ∧
    (∃ (s : State) (h : Hw) (d : Fin 2),
      s.hw = h ∧
      (h.datumOn d.val = false ∨ h.datNow d.val < (h.datum d.val).peerAt + 4)) ∧
    (∃ (s : State) (h : Hw) (d : Fin 2) (e : Fin 5) (fails : Fin 3) (_spread : Fin 256),
      s.hw = h ∧
      h.datumOn d.val = true ∧
      ((h.datum d.val).linkLost.contains e.val = false) ∧
      fails.val = 2) ∧
    (∃ (s : State) (h : Hw) (d : Fin 2) (e : Fin 5) (fails : Fin 3) (spread : Fin 256) (a : Hw) (b : Hw) (g : Hw),
      s.hw = h ∧
      (a = (h.modDatum d.val fun x => { x with linkAt := x.linkAt.put e.val (h.datNow d.val) }).put
      ((F.DTM_LINKS_MON_OK.bit e.val).datum d.val) 1) ∧
      (b = if a.get (F.DTM_CLOCK_SPREAD.datum d.val) < spread.val then a.put (F.DTM_CLOCK_SPREAD.datum d.val)
      spread.val else a) ∧
      (g = if 50 < spread.val then b.latchOwn d.val 0x08 none 0 else b) ∧
      h.datumOn d.val = true ∧
      ((h.datum d.val).linkLost.contains e.val = false) ∧
      fails.val ≠ 2) ∧
    (∃ (s : State) (h : Hw) (d : Fin 2) (e : Fin 5) (_fails : Fin 3) (_spread : Fin 256),
      s.hw = h ∧
      (h.datumOn d.val = false ∨ (h.datum d.val).linkLost.contains e.val = true)) ∧
    (∃ (s : State) (h : Hw) (d : Fin 2) (e : Fin 5) (second : Bool),
      s.hw = h ∧
      h.datumOn d.val = true ∧
      ((h.datum d.val).linkLost.contains e.val = false) ∧
      (second = true ∨ (h.datum d.val).linkAt.getD 0 e.val + 4 ≤ h.datNow d.val)) ∧
    (∃ (s : State) (h : Hw) (d : Fin 2) (e : Fin 5) (second : Bool),
      s.hw = h ∧
      (h.datumOn d.val = false ∨ (h.datum d.val).linkLost.contains e.val = true ∨ (second = false ∧ h.datNow d.val <
      (h.datum d.val).linkAt.getD 0 e.val + 4))) ∧
    (∃ (s : State) (h : Hw) (d : Fin 2),
      s.hw = h ∧
      (h.datumOn d.val = false ∨ h.on (F.DTM_STATUS_LOCKSTEP_BROKEN.datum d.val) = true)) ∧
    (∃ (s : State) (h : Hw) (d : Fin 2),
      s.hw = h ∧
      ((h.datum d.val).stopped = true)) ∧
    (∃ (s : State) (h : Hw) (d : Fin 2) (a : Hw),
      s.hw = h ∧
      (a = (h.modDatum d.val fun x => { x with stopped := true }).driveLoop d.val) ∧
      h.datumOn d.val = true ∧
      (h.on (F.DTM_STATUS_LOCKSTEP_BROKEN.datum d.val) = false)) := by
  refine ⟨?_, ?_, ?_, ?_, ?_, ?_, ?_, ?_, ?_, ?_, ?_, ?_⟩
  · exact ⟨⟨[], Hw.reset⟩, Hw.reset, 0, _, false, _, _, rfl, rfl, rfl, rfl, by decide +kernel⟩
  · exact ⟨⟨[], Hw.reset⟩, Hw.reset, 0, false, false, rfl, by decide +kernel⟩
  · exact ⟨⟨[], (bothDat (fun x => { x with time := 100 }) run)⟩, (bothDat (fun x => { x with time := 100 }) run),
      0, rfl, by decide +kernel⟩
  · exact ⟨⟨[], Hw.reset⟩, Hw.reset, 0, rfl, by decide +kernel⟩
  · exact ⟨⟨[], (datOf (fun x => { x with linkLost := [4] }) run)⟩, (datOf (fun x => { x with linkLost := [4] })
      run), 0, 0, 2, 0, rfl, by decide +kernel⟩
  · exact ⟨⟨[], (datOf (fun x => { x with linkLost := [4] }) run)⟩, (datOf (fun x => { x with linkLost := [4] })
      run), 0, 0, 0, 0, _, _, _, rfl, rfl, rfl, rfl, by decide +kernel⟩
  · exact ⟨⟨[], (datOf (fun x => { x with linkLost := [4] }) run)⟩, (datOf (fun x => { x with linkLost := [4] })
      run), 0, 4, 0, 0, rfl, by decide +kernel⟩
  · exact ⟨⟨[], Hw.reset⟩, Hw.reset, 0, 0, true, rfl, by decide +kernel⟩
  · exact ⟨⟨[], Hw.reset⟩, Hw.reset, 0, 0, false, rfl, by decide +kernel⟩
  · exact ⟨⟨[], (bothDat (fun x => { x with down := true }) run)⟩, (bothDat (fun x => { x with down := true }) run),
      0, rfl, by decide +kernel⟩
  · exact ⟨⟨[], (bothDat (fun x => { x with stopped := true }) run)⟩, (bothDat (fun x => { x with stopped := true })
      run), 0, rfl, by decide +kernel⟩
  · exact ⟨⟨[], Hw.reset⟩, Hw.reset, 0, _, rfl, rfl, by decide +kernel⟩

/-- For clauses of DatumLinks with hypotheses, states and operands that meet them (part 2 of 2). -/
theorem witness_DatumLinks_2 :
    ∃ (s : State) (h : Hw) (d : Fin 2) (a : Hw),
    s.hw = h ∧
    (a = ((h.resetBlocks (0x780 + 8 * d.val) (0x780 + 8 * d.val)).resetBlocks (0x790 + 8 * d.val) (0x790 + 8 *
      d.val)).put (F.DTM_STATUS_LOCKSTEP_BROKEN.datum d.val) (b2n (h.on (F.DTM_STATUS_LOCKSTEP_BROKEN.datum
      d.val)))) ∧
    ((h.datum d.val).stopped = false) :=
  ⟨⟨[], Hw.reset⟩, Hw.reset, 0, _, rfl, rfl, by decide +kernel⟩

/-- For each clause of DatumOutputs with hypotheses, a state and operands that meet them. -/
theorem witness_DatumOutputs :
    (∃ (s : State) (h : Hw) (d : Fin 2) (ppm : BitVec 16) (a : Hw) (b : Hw),
      s.hw = h ∧
      (a = (h.put (F.DTM_CLOCK_PPM.datum d.val) ppm.toNat).latchDue d.val) ∧
      h.datumOn d.val = true ∧
      (b = if ppm.toInt < -2000 ∨ 2000 < ppm.toInt then a.latchOwn d.val 0x08 none 0 else a)) ∧
    (∃ (s : State) (h : Hw) (d : Fin 2) (_ppm : BitVec 16),
      s.hw = h ∧
      h.datumOn d.val = false) ∧
    (∃ (s : State) (h : Hw) (d : Fin 2) (ip : Fin 65536) (in_ : Fin 65536) (mv : Fin 65536) (n : Bool) (a : Hw),
      s.hw = h ∧
      (n = (decide (ip.val ≤ in_.val + 2000) && decide (in_.val ≤ ip.val + 2000) && decide (100 * ip.val ≤ 1000 *
      mv.val) && decide (1000 * mv.val ≤ 400 * ip.val))) ∧
      (a = h.put (F.DTM_STATUS_LOOP_READ.datum d.val) (b2n (decide (18000 ≤ ip.val) && decide (ip.val ≤ 22000) &&
      n))) ∧
      h.datumOn d.val = true ∧
      (a.datNow d.val ≤ (h.datum d.val).levelAt)) ∧
    (∃ (s : State) (h : Hw) (d : Fin 2) (ip : Fin 65536) (in_ : Fin 65536) (mv : Fin 65536) (n : Bool) (e : Bool) (a
      : Hw) (b : Hw),
      s.hw = h ∧
      (n = (decide (ip.val ≤ in_.val + 2000) && decide (in_.val ≤ ip.val + 2000) && decide (100 * ip.val ≤ 1000 *
      mv.val) && decide (1000 * mv.val ≤ 400 * ip.val))) ∧
      (a = h.put (F.DTM_STATUS_LOOP_READ.datum d.val) (b2n (decide (18000 ≤ ip.val) && decide (ip.val ≤ 22000) &&
      n))) ∧
      (e = if (h.datum d.val).level = 2 then decide (18000 ≤ ip.val) && decide (ip.val ≤ 22000) && n else if
      (h.datum d.val).level = 1 then decide (6000 ≤ ip.val) && decide (ip.val ≤ 10000) && n else decide (ip.val <
      500) && decide (in_.val < 500)) ∧
      (b = a.modDatum d.val fun x => { x with differs := x.differs + 1 }) ∧
      h.datumOn d.val = true ∧
      ((h.datum d.val).levelAt < a.datNow d.val)) ∧
    (∃ (s : State) (h : Hw) (d : Fin 2) (_ip : Fin 65536) (_in_ : Fin 65536) (_mv : Fin 65536),
      s.hw = h ∧
      h.datumOn d.val = false) ∧
    (∃ (s : State) (h : Hw) (src : Fin 3) (r : List Byte) (a : Hw) (b : Hw),
      s.hw = h ∧
      r = h.datumRecord src.val ∧
      (a = h.modDatum src.val fun x =>
      { x with sentKey := recordKey r, sentAt := some (h.datNow src.val), sentCount := x.sentCount + 1, lastRec := r })
      ∧
      (b = if a.safeOut && decide (a.sys.can.getD 0 src.val ≤ 1) then
      { a with outs := a.outs ++ [.can src.val (a.cfg.can.getD src.val default).priorityId (a.cfg.can.getD src.val default).sdu (a.cfg.can.getD src.val default).accept r] }
      else a) ∧
      src.val < 2 ∧
      h.datumOn src.val = true ∧
      h.sys.frozenAt = none ∧
      (recordDue (h.datNow src.val) (recordKey r) (h.datum src.val).sentKey (h.datum src.val).sentAt = true)) ∧
    (∃ (s : State) (h : Hw) (src : Fin 3) (r : List Byte),
      s.hw = h ∧
      r = h.hubRecord ∧
      src.val = 2 ∧
      h.hubOn = true ∧
      h.sys.frozenAt = none ∧
      (recordDue h.now (recordKey r) h.trv.hubKey h.trv.hubSentAt = true)) ∧
    (∃ (s : State) (h : Hw) (src : Fin 3),
      s.hw = h ∧
      src.val < 2 ∧
      (h.datumOn src.val = false ∨ h.sys.frozenAt.isSome = true ∨ recordDue (h.datNow src.val) (recordKey
      (h.datumRecord src.val)) (h.datum src.val).sentKey (h.datum src.val).sentAt = false)) ∧
    (∃ (s : State) (h : Hw) (src : Fin 3),
      s.hw = h ∧
      src.val = 2 ∧
      (h.hubOn = false ∨ h.sys.frozenAt.isSome = true ∨ recordDue h.now (recordKey h.hubRecord) h.trv.hubKey
      h.trv.hubSentAt = false)) ∧
    (∃ (s : State) (h : Hw) (d : Fin 2) (row : Fin 9) (_die : Option (Fin 4)) (pass : Bool) (a : Hw) (b : Hw) (t :
      NSet),
      s.hw = h ∧
      (a = (h.put (F.DTM_SELFTEST_CHECKER.datum d.val) row.val).put (F.DTM_SELFTEST_RESULT.datum d.val) (if pass
      then 1 else 2)) ∧
      (t = NSet.add (a.datum d.val).tested row.val) ∧
      (b = if t.length = 9 then (a.put (F.DTM_SELFTEST_ROTATION_AT.datum d.val) (a.datNow d.val % 2 ^ 32)).modDatum
      d.val (fun x => { x with tested := [] }) else a.modDatum d.val fun x => { x with tested := t }) ∧
      h.datumOn d.val = true) ∧
    (∃ (s : State) (h : Hw) (d : Fin 2) (_row : Fin 9) (_die : Option (Fin 4)) (_pass : Bool),
      s.hw = h ∧
      h.datumOn d.val = false) := by
  refine ⟨?_, ?_, ?_, ?_, ?_, ?_, ?_, ?_, ?_, ?_, ?_⟩
  · exact ⟨⟨[], (datOf (fun x => { x with down := true }) run)⟩, (datOf (fun x => { x with down := true }) run), 1,
      0, _, (datOf (fun x => { x with down := true }) run), rfl, rfl, by decide +kernel⟩
  · exact ⟨⟨[], (datOf (fun x => { x with down := true }) run)⟩, (datOf (fun x => { x with down := true }) run), 0,
      0, rfl, by decide +kernel⟩
  · exact ⟨⟨[], Hw.reset⟩, Hw.reset, 0, 0, 0, 0, _, _, rfl, rfl, rfl, by decide +kernel⟩
  · exact ⟨⟨[], (bothDat (fun x => { x with time := 100 }) run)⟩, (bothDat (fun x => { x with time := 100 }) run),
      0, 0, 0, 2000, _, _, _, _, rfl, rfl, rfl, rfl, rfl, by decide +kernel⟩
  · exact ⟨⟨[], (bothDat (fun x => { x with down := true }) run)⟩, (bothDat (fun x => { x with down := true }) run),
      0, 0, 0, 0, rfl, by decide +kernel⟩
  · exact ⟨⟨[], Hw.reset⟩, Hw.reset, 0, _, _, _, rfl, rfl, rfl, rfl, by decide +kernel⟩
  · exact ⟨⟨[], served⟩, served, 2, _, rfl, rfl, by decide +kernel⟩
  · exact ⟨⟨[], (bothDat (fun x => { x with down := true }) run)⟩, (bothDat (fun x => { x with down := true }) run),
      0, rfl, by decide +kernel⟩
  · exact ⟨⟨[], Hw.reset⟩, Hw.reset, 2, rfl, by decide +kernel⟩
  · exact ⟨⟨[], (datOf (fun x => { x with down := true }) run)⟩, (datOf (fun x => { x with down := true }) run), 1,
      0, none, false, _, _, _, rfl, rfl, rfl, rfl, by decide +kernel⟩
  · exact ⟨⟨[], (datOf (fun x => { x with down := true }) run)⟩, (datOf (fun x => { x with down := true }) run), 0,
      0, none, false, rfl, by decide +kernel⟩

/-- For clauses of ApplicationCores with hypotheses, states and operands that meet them (part 1 of 2). -/
theorem witness_ApplicationCores :
    (∃ (s : State) (h : Hw) (hart : Fin 32) (pid : Nat),
      s.hw = h ∧
      h.sliceOwner hart.val = some pid ∧
      h.hartOn hart.val = true ∧
      h.sys.apc.running.find hart.val ≠ some pid) ∧
    (∃ (s : State) (h : Hw) (hart : Fin 32),
      s.hw = h ∧
      (h.hartOn hart.val = false ∨ h.sliceOwner hart.val = none) ∧
      ((h.sys.apc.running.find hart.val).isSome = true)) ∧
    (∃ (s : State) (h : Hw) (hart : Fin 32),
      s.hw = h ∧
      (h.sys.apc.running.find hart.val = if h.hartOn hart.val then h.sliceOwner hart.val else none)) ∧
    (∃ (s : State) (h : Hw) (pid : Fin 256) (hart : Fin 32) (cmp : Option (BitVec 64)) (ns10 : Fin 100) (v : BitVec
      64),
      s.hw = h ∧
      cmp = some v ∧
      h.onHart pid.val hart.val = true ∧
      h.csrTime ns10.val < v.toNat) ∧
    (∃ (s : State) (h : Hw) (pid : Fin 256) (hart : Fin 32) (cmp : Option (BitVec 64)) (ns10 : Fin 100) (v : Nat),
      s.hw = h ∧
      cmp = none ∧
      (h.sys.apc.timers.find (timerKey pid.val hart.val) = some v) ∧
      h.onHart pid.val hart.val = true ∧
      v ≤ h.csrTime ns10.val ∧
      (h.sys.apc.timerTaken.contains (timerKey pid.val hart.val) = false)) ∧
    (∃ (s : State) (h : Hw) (pid : Fin 256) (hart : Fin 32) (cmp : Option (BitVec 64)) (ns10 : Fin 100),
      s.hw = h ∧
      cmp = none ∧
      (∀ v, h.sys.apc.timers.find (timerKey pid.val hart.val) = some v → h.csrTime ns10.val < v ∨
      h.sys.apc.timerTaken.contains (timerKey pid.val hart.val) = true) ∧
      h.onHart pid.val hart.val = true) ∧
    (∃ (s : State) (h : Hw) (pid : Fin 256) (hart : Fin 32) (cmp : Option (BitVec 64)) (ns10 : Fin 100) (v : BitVec
      64) (a : Hw),
      s.hw = h ∧
      cmp = some v ∧
      (a = h.modApc fun a =>
      { a with timers := a.timers.put (timerKey pid.val hart.val) v.toNat, timerDue := a.timerDue.filter (· ≠ timerKey pid.val hart.val), timerTaken := a.timerTaken.filter (· ≠ timerKey pid.val hart.val) })
      ∧
      h.onHart pid.val hart.val = true ∧
      v.toNat ≤ h.csrTime ns10.val) ∧
    (∃ (s : State) (h : Hw) (pid : Fin 256) (hart : Fin 32) (_cmp : Option (BitVec 64)) (_ns10 : Fin 100),
      s.hw = h ∧
      h.onHart pid.val hart.val = false) ∧
    (∃ (s : State) (h : Hw) (o : ApcOp) (pid : Nat) (r : ApcReq) (a : Nat) (e : Nat),
      s.hw = h ∧
      h.sys.apc.running.find o.hart.val = some pid ∧
      (r =
      { pid := pid, hart := o.hart.val, kind := o.kind.val, va := o.va.toNat, data := o.data.take 64, hit := o.hit, nc := false, ps := [], paid := false })
      ∧
      (h.mem.translateRun pid (apcSpan o).1 (apcSpan o).2 r.acs false = .error (a, e)) ∧
      h.runsOn pid o.hart.val = true) ∧
    (∃ (s : State) (h : Hw) (o : ApcOp) (pid : Nat) (r : ApcReq) (ps : List (Nat × Nat)),
      s.hw = h ∧
      h.sys.apc.running.find o.hart.val = some pid ∧
      (r =
      { pid := pid, hart := o.hart.val, kind := o.kind.val, va := o.va.toNat, data := o.data.take 64, hit := o.hit, nc := false, ps := [], paid := false })
      ∧
      h.runsOn pid o.hart.val = true ∧
      (h.mem.translateRun pid (apcSpan o).1 (apcSpan o).2 r.acs false = .ok ps) ∧
      (ps.any (fun x => h.region x.1 == .regs) = true)) ∧
    (∃ (s : State) (h : Hw) (o : ApcOp) (pid : Nat) (r : ApcReq) (ps : List (Nat × Nat)),
      s.hw = h ∧
      h.sys.apc.running.find o.hart.val = some pid ∧
      (r =
      { pid := pid, hart := o.hart.val, kind := o.kind.val, va := o.va.toNat, data := o.data.take 64, hit := o.hit, nc := false, ps := [], paid := false })
      ∧
      h.runsOn pid o.hart.val = true ∧
      (h.mem.translateRun pid (apcSpan o).1 (apcSpan o).2 r.acs false = .ok ps) ∧
      (ps.any (fun x => h.region x.1 == .regs) = false) ∧
      h.allMemory ps = false) ∧
    (∃ (s : State) (h : Hw) (o : ApcOp) (pid : Nat) (r : ApcReq) (ps : List (Nat × Nat)),
      s.hw = h ∧
      h.sys.apc.running.find o.hart.val = some pid ∧
      (r =
      { pid := pid, hart := o.hart.val, kind := o.kind.val, va := o.va.toNat, data := o.data.take 64, hit := o.hit, nc := h.uncached pid o.va.toNat ps, ps := ps, paid := false })
      ∧
      h.runsOn pid o.hart.val = true ∧
      (h.mem.translateRun pid (apcSpan o).1 (apcSpan o).2 r.acs false = .ok ps) ∧
      (ps.any (fun x => h.region x.1 == .regs) = false) ∧
      h.allMemory ps = true ∧
      h.inCluster r = true) := by
  refine ⟨?_, ?_, ?_, ?_, ?_, ?_, ?_, ?_, ?_, ?_, ?_, ?_⟩
  · exact ⟨⟨[], (apcOf (fun a => { a with running := [] }) onCore)⟩, (apcOf (fun a => { a with running := [] })
      onCore), 0, _, rfl, w_some (by decide +kernel), by decide +kernel⟩
  · exact ⟨⟨[], (apcOf (fun a => { a with running := [(0, 1)] }) run)⟩, (apcOf (fun a =>
      { a with running := [(0, 1)] }) run), 0, rfl, by decide +kernel⟩
  · exact ⟨⟨[], (apcOf (fun a => { a with running := [(0, 1)] }) run)⟩, (apcOf (fun a =>
      { a with running := [(0, 1)] }) run), 1, rfl, by decide +kernel⟩
  · exact ⟨⟨[], onCore⟩, onCore, 1, 0, _, 0, 48000, rfl, rfl, by decide +kernel⟩
  · exact ⟨⟨[], (apcOf (fun a => { a with timers := [(timerKey 1 0, 5)] }) onCore)⟩, (apcOf (fun a =>
      { a with timers := [(timerKey 1 0, 5)] }) onCore), 1, 0, _, 0, _, rfl, rfl, w_some (by decide +kernel),
      by decide +kernel⟩
  · exact ⟨⟨[], onCore⟩, onCore, 1, 0, _, 0, rfl, rfl, fun _ e => w_vacant (by decide +kernel) e, by decide +kernel⟩
  · exact ⟨⟨[], (apcOf (fun a => { a with timers := [(timerKey 1 0, 5)] }) onCore)⟩, (apcOf (fun a =>
      { a with timers := [(timerKey 1 0, 5)] }) onCore), 1, 0, _, 0, 0, _, rfl, rfl, rfl, by decide +kernel⟩
  · exact ⟨⟨[], onCore⟩, onCore, 0, 0, some 1000000, 0, rfl, by decide +kernel⟩
  · exact ⟨⟨[], (apcOf (fun a => { a with running := [(0, 1)] })
      { onCore with mem := { onCore.mem with ctxs := [] } })⟩, (apcOf (fun a => { a with running := [(0, 1)] })
      { onCore with mem := { onCore.mem with ctxs := [] } }), ⟨0,3,0,8,[], false⟩, _, _, _, _, rfl, w_some
      (by decide +kernel), rfl, w_errorPair (by decide +kernel), by decide +kernel⟩
  · exact ⟨⟨[], (doored 1 0x0400_0000_0000 onCore)⟩, (doored 1 0x0400_0000_0000 onCore), ⟨0,0,0,0,[], true⟩, _, _,
      [(0x0400_0000_0000, 64)], rfl, w_some (by decide +kernel), rfl, by decide +kernel⟩
  · exact ⟨⟨[], (doored 1 0x0480_0000_0000 onCore)⟩, (doored 1 0x0480_0000_0000 onCore), ⟨0,0,0,0,[], true⟩, _, _,
      [(0x0480_0000_0000, 64)], rfl, w_some (by decide +kernel), rfl, by decide +kernel⟩
  · exact ⟨⟨[], onCore⟩, onCore, ⟨0,9,0,0,[], false⟩, _, _, [(0x110000, 64)], rfl, w_some (by decide +kernel), rfl,
      by decide +kernel⟩

/-- For clauses of ApplicationCores with hypotheses, states and operands that meet them (part 2 of 2). -/
theorem witness_ApplicationCores_2 :
    (∃ (s : State) (h : Hw) (o : ApcOp) (pid : Nat) (r : ApcReq) (ps : List (Nat × Nat)),
      s.hw = h ∧
      h.sys.apc.running.find o.hart.val = some pid ∧
      (r =
      { pid := pid, hart := o.hart.val, kind := o.kind.val, va := o.va.toNat, data := o.data.take 64, hit := o.hit, nc := h.uncached pid o.va.toNat ps, ps := ps, paid := false })
      ∧
      h.runsOn pid o.hart.val = true ∧
      (h.mem.translateRun pid (apcSpan o).1 (apcSpan o).2 r.acs false = .ok ps) ∧
      (ps.any (fun x => h.region x.1 == .regs) = false) ∧
      h.allMemory ps = true ∧
      h.inCluster r = false ∧
      (h.stn.apcBytes.getD 0 (o.hart.val / 8 * 256 + pid) < 64)) ∧
    (∃ (s : State) (h : Hw) (o : ApcOp) (pid : Nat) (r : ApcReq) (ps : List (Nat × Nat)) (n : Nat) (f : Hw) (g :
      Hw),
      s.hw = h ∧
      h.sys.apc.running.find o.hart.val = some pid ∧
      (r =
      { pid := pid, hart := o.hart.val, kind := o.kind.val, va := o.va.toNat, data := o.data.take 64, hit := o.hit, nc := h.uncached pid o.va.toNat ps, ps := ps, paid := false })
      ∧
      (n = h.stn.apcBytes.getD 0 (o.hart.val / 8 * 256 + pid)) ∧
      (f = { h with stn := { h.stn with apcBytes := h.stn.apcBytes.putD 0 (o.hart.val / 8 * 256 + pid) (n - 64) } })
      ∧
      (g = if r.nc || decide (r.kind = 1 ∨ r.kind = 8) then f else f.snoop r.dpa) ∧
      h.runsOn pid o.hart.val = true ∧
      (h.mem.translateRun pid (apcSpan o).1 (apcSpan o).2 r.acs false = .ok ps) ∧
      (ps.any (fun x => h.region x.1 == .regs) = false) ∧
      h.allMemory ps = true ∧
      h.inCluster r = false ∧
      64 ≤ n ∧
      (g.misses { r with paid := true } = false)) ∧
    (∃ (s : State) (h : Hw) (o : ApcOp) (pid : Nat) (r : ApcReq) (ps : List (Nat × Nat)) (n : Nat) (f : Hw) (g :
      Hw),
      s.hw = h ∧
      h.sys.apc.running.find o.hart.val = some pid ∧
      (r =
      { pid := pid, hart := o.hart.val, kind := o.kind.val, va := o.va.toNat, data := o.data.take 64, hit := o.hit, nc := h.uncached pid o.va.toNat ps, ps := ps, paid := false })
      ∧
      (n = h.stn.apcBytes.getD 0 (o.hart.val / 8 * 256 + pid)) ∧
      (f = { h with stn := { h.stn with apcBytes := h.stn.apcBytes.putD 0 (o.hart.val / 8 * 256 + pid) (n - 64) } })
      ∧
      (g = if r.nc || decide (r.kind = 1 ∨ r.kind = 8) then f else f.snoop r.dpa) ∧
      h.runsOn pid o.hart.val = true ∧
      (h.mem.translateRun pid (apcSpan o).1 (apcSpan o).2 r.acs false = .ok ps) ∧
      (ps.any (fun x => h.region x.1 == .regs) = false) ∧
      h.allMemory ps = true ∧
      h.inCluster r = false ∧
      64 ≤ n ∧
      (g.misses { r with paid := true } = true) ∧
      ((g.quiet && ps.any fun p => g.region p.1 == .dram) = true)) ∧
    (∃ (s : State) (h : Hw) (o : ApcOp) (pid : Nat) (r : ApcReq) (ps : List (Nat × Nat)) (n : Nat) (f : Hw) (g :
      Hw),
      s.hw = h ∧
      h.sys.apc.running.find o.hart.val = some pid ∧
      (r =
      { pid := pid, hart := o.hart.val, kind := o.kind.val, va := o.va.toNat, data := o.data.take 64, hit := o.hit, nc := h.uncached pid o.va.toNat ps, ps := ps, paid := false })
      ∧
      (n = h.stn.apcBytes.getD 0 (o.hart.val / 8 * 256 + pid)) ∧
      (f = { h with stn := { h.stn with apcBytes := h.stn.apcBytes.putD 0 (o.hart.val / 8 * 256 + pid) (n - 64) } })
      ∧
      (g = if r.nc || decide (r.kind = 1 ∨ r.kind = 8) then f else f.snoop r.dpa) ∧
      h.runsOn pid o.hart.val = true ∧
      (h.mem.translateRun pid (apcSpan o).1 (apcSpan o).2 r.acs false = .ok ps) ∧
      (ps.any (fun x => h.region x.1 == .regs) = false) ∧
      h.allMemory ps = true ∧
      h.inCluster r = false ∧
      64 ≤ n ∧
      (g.misses { r with paid := true } = true) ∧
      ((g.quiet && ps.any fun p => g.region p.1 == .dram) = false) ∧
      (g.chargeDram pid ps (r.acs == .wr && decide (r.kind ≠ 6 ∧ r.kind ≠ 7) || decide (10 ≤ r.kind)) = none)) ∧
    (∃ (s : State) (h : Hw) (o : ApcOp) (pid : Nat) (r : ApcReq) (ps : List (Nat × Nat)) (k : Hw) (n : Nat) (f : Hw)
      (g : Hw),
      s.hw = h ∧
      h.sys.apc.running.find o.hart.val = some pid ∧
      (r =
      { pid := pid, hart := o.hart.val, kind := o.kind.val, va := o.va.toNat, data := o.data.take 64, hit := o.hit, nc := h.uncached pid o.va.toNat ps, ps := ps, paid := false })
      ∧
      (n = h.stn.apcBytes.getD 0 (o.hart.val / 8 * 256 + pid)) ∧
      (f = { h with stn := { h.stn with apcBytes := h.stn.apcBytes.putD 0 (o.hart.val / 8 * 256 + pid) (n - 64) } })
      ∧
      (g = if r.nc || decide (r.kind = 1 ∨ r.kind = 8) then f else f.snoop r.dpa) ∧
      (g.chargeDram pid ps (r.acs == .wr && decide (r.kind ≠ 6 ∧ r.kind ≠ 7) || decide (10 ≤ r.kind)) = some k) ∧
      h.runsOn pid o.hart.val = true ∧
      (h.mem.translateRun pid (apcSpan o).1 (apcSpan o).2 r.acs false = .ok ps) ∧
      (ps.any (fun x => h.region x.1 == .regs) = false) ∧
      h.allMemory ps = true ∧
      h.inCluster r = false ∧
      64 ≤ n ∧
      (g.misses { r with paid := true } = true) ∧
      ((g.quiet && ps.any fun p => g.region p.1 == .dram) = false)) ∧
    (∃ (s : State) (h : Hw) (o : ApcOp),
      s.hw = h ∧
      (∀ p, h.sys.apc.running.find o.hart.val = some p → h.runsOn p o.hart.val = false)) := by
  refine ⟨?_, ?_, ?_, ?_, ?_, ?_⟩
  · exact ⟨⟨[], onCore⟩, onCore, ⟨0,0,0,0,[], true⟩, _, _, [(0x110000, 64)], rfl, w_some (by decide +kernel), rfl,
      by decide +kernel⟩
  · exact ⟨⟨[], (apcOf (fun a =>
      { a with sysc := [(0x110000 / 64, ⟨1, zeros 64, false, false⟩), (0x110000, ⟨1, zeros 64, false, false⟩)] })
      (stnOf (fun s => { s with apcBytes := [(1, 64)] }) onCore))⟩, (apcOf (fun a =>
      { a with sysc := [(0x110000 / 64, ⟨1, zeros 64, false, false⟩), (0x110000, ⟨1, zeros 64, false, false⟩)] })
      (stnOf (fun s => { s with apcBytes := [(1, 64)] }) onCore)), ⟨0,0,0,0,[], true⟩, _, _, [(0x110000, 64)], _, _,
      _, rfl, w_some (by decide +kernel), rfl, rfl, rfl, rfl, by decide +kernel⟩
  · exact ⟨⟨[], (stnOf (fun s =>
      { s with active := { act1 with acts := [{ pid := 1, kind := 1, duplex := false, fragTag := 0 }] } }) (stnOf
      (fun s => { s with apcBytes := [(1, 64)] }) onCore))⟩, (stnOf (fun s =>
      { s with active := { act1 with acts := [{ pid := 1, kind := 1, duplex := false, fragTag := 0 }] } }) (stnOf
      (fun s => { s with apcBytes := [(1, 64)] }) onCore)), ⟨0,0,0,0,[], true⟩, _, _, [(0x110000, 64)], _, _, _,
      rfl, w_some (by decide +kernel), rfl, rfl, rfl, rfl, by decide +kernel⟩
  · exact ⟨⟨[], (stnOf (fun s => { s with apcBytes := [(1, 64)] }) onCore)⟩, (stnOf (fun s =>
      { s with apcBytes := [(1, 64)] }) onCore), ⟨0,0,0,0,[], true⟩, _, _, [(0x110000, 64)], _, _, _, rfl, w_some
      (by decide +kernel), rfl, rfl, rfl, rfl, by decide +kernel⟩
  · exact ⟨⟨[], (stnOf (fun s => { s with dramTokens := (upto 0 64).map fun c => (c * 256 + 1, 1000000) }) (stnOf
      (fun s => { s with apcBytes := [(1, 64)] }) onCore))⟩, (stnOf (fun s =>
      { s with dramTokens := (upto 0 64).map fun c => (c * 256 + 1, 1000000) }) (stnOf (fun s =>
      { s with apcBytes := [(1, 64)] }) onCore)), ⟨0,0,0,0,[], true⟩, _, _, [(0x110000, 64)], _, _, _, _, rfl,
      w_some (by decide +kernel), rfl, rfl, rfl, rfl, w_some (by decide +kernel), by decide +kernel⟩
  · exact ⟨⟨[], (apcOf (fun a => { a with running := [] }) onCore)⟩, (apcOf (fun a => { a with running := [] })
      onCore), ⟨0,3,0,8,[], false⟩, rfl, fun _ e => w_vacant (by decide +kernel) e⟩

/-- For each clause of EventsAndHealth with hypotheses, a state and operands that meet them. -/
theorem witness_EventsAndHealth :
    (∃ (s : State) (h : Hw) (a : Hw),
      s.hw = h ∧
      (a = ({ h with evt := { h.evt with wroteAt := some h.now } } : Hw).stageLost) ∧
      1 < h.mode ∧
      h.hubOn = true ∧
      h.evt.wroteAt ≠ some h.now) ∧
    (∃ (s : State) (h : Hw),
      s.hw = h ∧
      (h.mode ≤ 1 ∨ h.hubOn = false ∨ h.evt.wroteAt = some h.now)) ∧
    (∃ (h : Hw) (k : Hw) (a : Hw) (_n : Nat) (src : Nat) (tail : Nat) (e : EvtEntry) (es : List EvtEntry),
      h.evt.nextSource = some src ∧
      (h.evt.staged.getD [] src = e :: es) ∧
      tail = h.get F.EVT_TAIL_TAIL ∧
      (h.writeVa 2 0 (h.get F.EVT_RING_BASE * 64 + 64 * (tail % 2 ^ h.get F.EVT_RING_LOG2_SIZE)) (e.record src
      ((h.get F.EVT_SEQ_SEQ + 1) % 2 ^ 32) (h.evt.lost.getD 0 src) (phaseOf tail (2 ^ h.get F.EVT_RING_LOG2_SIZE))
      h.now) false = (none, k)) ∧
      h.writeRecord = some a ∧
      h.on F.EVT_STATUS_RING_VALID = true ∧
      h.ringFull = false) ∧
    (∃ (h : Hw) (k : Hw) (_n : Nat) (src : Nat) (tail : Nat) (e : EvtEntry) (es : List EvtEntry) (x : Nat × Nat),
      h.evt.nextSource = some src ∧
      (h.evt.staged.getD [] src = e :: es) ∧
      tail = h.get F.EVT_TAIL_TAIL ∧
      (h.writeVa 2 0 (h.get F.EVT_RING_BASE * 64 + 64 * (tail % 2 ^ h.get F.EVT_RING_LOG2_SIZE)) (e.record src
      ((h.get F.EVT_SEQ_SEQ + 1) % 2 ^ 32) (h.evt.lost.getD 0 src) (phaseOf tail (2 ^ h.get F.EVT_RING_LOG2_SIZE))
      h.now) false = (some x, k)) ∧
      h.on F.EVT_STATUS_RING_VALID = true ∧
      h.ringFull = false) ∧
    (∃ (s : State) (h : Hw),
      s.hw = h) ∧
    (∃ (s : State) (h : Hw) (a : SMap (List EvtEntry)),
      s.hw = h ∧
      a = h.evt.staged ∧
      (a = [])) ∧
    (∃ (s : State) (h : Hw) (n : Nat) (es : List EvtEntry) (kept : List EvtEntry) (a : Hw),
      s.hw = h ∧
      (h.evt.staged = [(n, es)]) ∧
      (kept = es.filter fun x => ! decide (x.firstAt + 2 ^ 39 ≤ h.now)) ∧
      (a = { h with evt := { h.evt with staged := SMap.putD [] h.evt.staged n kept } }) ∧
      kept.length < es.length) ∧
    (∃ (s : State) (h : Hw) (v : BitVec 64) (a : Hw),
      s.hw = h ∧
      (a = h.put F.EVT_HEAD_HEAD (v.toNat % 2 ^ 32)) ∧
      h.hubOn = true) ∧
    (∃ (s : State) (h : Hw) (a : Hw) (x : SMap Nat),
      s.hw = h ∧
      (a = (List.range 1280).foldl (fun y p => y.judgePart p) h) ∧
      (x = h.sheetHeader.foldl (fun m e => m.put e.1 e.2) ((List.range 1280).foldl (fun m p => SMap.putD 1000 m p
      (h.sheetWord p)) [])) ∧
      2 ≤ h.mode ∧
      h.hubOn = true ∧
      (h.healthAt / 2 ^ 20 < h.now / 2 ^ 20)) ∧
    (∃ (s : State) (h : Hw),
      s.hw = h ∧
      (h.now / 2 ^ 20 ≤ h.healthAt / 2 ^ 20 ∨ h.mode < 2 ∨ h.hubOn = false)) ∧
    (∃ (s : State) (h : Hw) (_v : BitVec 64),
      s.hw = h ∧
      h.hubOn = false) := by
  refine ⟨?_, ?_, ?_, ?_, ?_, ?_, ?_, ?_, ?_, ?_, ?_⟩
  · exact ⟨⟨[], served⟩, served, _, rfl, rfl, by decide +kernel⟩
  · exact ⟨⟨[], Hw.reset⟩, Hw.reset, rfl, by decide +kernel⟩
  · exact ⟨(((evtOf (fun e => { e with staged := [(5, [staged0])] }) served).put F.EVT_STATUS_RING_VALID 1).put
      F.EVT_RING_LOG2_SIZE 4), _, _, 0, _, _, _, _, w_some (by decide +kernel), w_cons (by decide +kernel), rfl,
      w_fst (by decide +kernel), w_some (by decide +kernel), by decide +kernel⟩
  · exact ⟨(((((evtOf (fun e => { e with staged := [(5, [staged0])] }) served).put F.EVT_STATUS_RING_VALID 1).put
      F.EVT_RING_LOG2_SIZE 4)).put F.EVT_RING_BASE 0x10000), _, 0, _, _, _, _, _, w_some (by decide +kernel), w_cons
      (by decide +kernel), rfl, w_someFst (by decide +kernel), by decide +kernel⟩
  · exact ⟨⟨[], (evtOf (fun e => { e with staged := [(5, [staged0])] }) (atTime (2^39) run))⟩, (evtOf (fun e =>
      { e with staged := [(5, [staged0])] }) (atTime (2^39) run)), rfl⟩
  · exact ⟨⟨[], run⟩, run, _, rfl, rfl, by decide +kernel⟩
  · exact ⟨⟨[], (evtOf (fun e => { e with staged := [(5, [staged0])] }) (atTime (2^39) run))⟩, (evtOf (fun e =>
      { e with staged := [(5, [staged0])] }) (atTime (2^39) run)), _, _, _, _, rfl, w_single (by decide +kernel),
      rfl, rfl, by decide +kernel⟩
  · exact ⟨⟨[], served⟩, served, 0, _, rfl, rfl, by decide +kernel⟩
  · exact ⟨⟨[], (atTime (2^20) run)⟩, (atTime (2^20) run), _, _, rfl, rfl, rfl, by decide +kernel⟩
  · exact ⟨⟨[], run⟩, run, rfl, by decide +kernel⟩
  · exact ⟨⟨[], Hw.reset⟩, Hw.reset, 0, rfl, by decide +kernel⟩

/-- For clauses of RegisterAccess with hypotheses, states and operands that meet them (part 1 of 2). -/
theorem witness_RegisterAccess :
    (∃ (s : State) (h : Hw) (w : RegWrite) (r : RegSpec),
      s.hw = h ∧
      (regSpec? w.block.toNat w.off.toNat = some r) ∧
      h.hubOn = true ∧
      w.pid.val = 0 ∧
      w.whole = true ∧
      (w.off.toNat % 8 = 0) ∧
      h.blockOn w.block.toNat = true ∧
      (w.block.toNat = 0x010 ∨ w.block.toNat = 0x640 ∨ w.block.toNat = 0x648)) ∧
    (∃ (s : State) (h : Hw) (w : RegWrite),
      s.hw = h ∧
      h.hubOn = true ∧
      w.pid.val = 0 ∧
      w.whole = true ∧
      (w.off.toNat % 8 = 0) ∧
      h.blockOn w.block.toNat = true ∧
      (¬(w.block.toNat = 0x000 ∧ w.off.toNat = 0x50)) ∧
      (¬(w.block.toNat = 0x002 ∧ (w.off.toNat = 0x10 ∨ w.off.toNat = 0x30))) ∧
      (¬(w.block.toNat = 0x018 ∧ w.off.toNat = 0x10 ∧ h.scratchMapped = true))) ∧
    (∃ (s : State) (h : Hw) (w : RegWrite),
      s.hw = h ∧
      h.hubOn = true ∧
      w.pid.val = 0 ∧
      w.whole = true ∧
      (w.off.toNat % 8 = 0) ∧
      h.blockOn w.block.toNat = true ∧
      w.block.toNat = 0x000 ∧
      w.off.toNat = 0x50) ∧
    (∃ (s : State) (h : Hw) (w : RegWrite),
      s.hw = h ∧
      h.hubOn = true ∧
      w.pid.val = 0 ∧
      w.whole = true ∧
      (w.off.toNat % 8 = 0) ∧
      h.blockOn w.block.toNat = true ∧
      w.block.toNat = 0x002 ∧
      w.off.toNat = 0x10) ∧
    (∃ (s : State) (h : Hw) (w : RegWrite),
      s.hw = h ∧
      h.hubOn = true ∧
      w.pid.val = 0 ∧
      w.whole = true ∧
      (w.off.toNat % 8 = 0) ∧
      h.blockOn w.block.toNat = true ∧
      w.block.toNat = 0x002 ∧
      w.off.toNat = 0x30) ∧
    (∃ (s : State) (h : Hw) (w : RegWrite),
      s.hw = h ∧
      h.hubOn = true ∧
      w.pid.val = 0 ∧
      w.whole = true ∧
      (w.off.toNat % 8 = 0) ∧
      h.blockOn w.block.toNat = true ∧
      w.block.toNat = 0x018 ∧
      w.off.toNat = 0x10 ∧
      h.scratchMapped = true) ∧
    (∃ (s : State) (h : Hw) (w : RegWrite),
      s.hw = h ∧
      h.hubOn = true ∧
      w.pid.val = 0 ∧
      w.whole = true ∧
      (w.off.toNat % 8 = 0) ∧
      h.blockOn w.block.toNat = false) ∧
    (∃ (s : State) (h : Hw) (w : RegWrite),
      s.hw = h ∧
      h.hubOn = true ∧
      (w.pid.val ≠ 0 ∨ w.whole = false ∨ w.off.toNat % 8 ≠ 0)) ∧
    (∃ (s : State) (h : Hw) (_w : RegWrite),
      s.hw = h ∧
      h.hubOn = false) ∧
    (∃ (s : State) (h : Hw) (v : BitVec 64),
      s.hw = h ∧
      h.hubOn = true ∧
      bit v.toNat 0 = true ∧
      h.summary = false) ∧
    (∃ (s : State) (h : Hw) (v : BitVec 64),
      s.hw = h ∧
      h.hubOn = true ∧
      bit v.toNat 0 = true ∧
      h.summary = true ∧
      h.get F.MOD_INT_VECTOR_VECTOR ≠ 0) ∧
    (∃ (s : State) (h : Hw) (v : BitVec 64),
      s.hw = h ∧
      h.hubOn = true ∧
      bit v.toNat 0 = true ∧
      h.summary = true ∧
      h.get F.MOD_INT_VECTOR_VECTOR = 0) := by
  refine ⟨?_, ?_, ?_, ?_, ?_, ?_, ?_, ?_, ?_, ?_, ?_, ?_⟩
  · exact ⟨⟨[], run⟩, run, ⟨0,0x010,0,true,0⟩, _, rfl, w_some (by decide +kernel), by decide +kernel⟩
  · exact ⟨⟨[], run⟩, run, ⟨0,0x010,0,true,0⟩, rfl, by decide +kernel⟩
  · exact ⟨⟨[], run⟩, run, ⟨0,0,0x50,true,0⟩, rfl, by decide +kernel⟩
  · exact ⟨⟨[], run⟩, run, ⟨0,2,0x10,true,0⟩, rfl, by decide +kernel⟩
  · exact ⟨⟨[], run⟩, run, ⟨0,2,0x30,true,0⟩, rfl, by decide +kernel⟩
  · exact ⟨⟨[], { served with mem := { served.mem with frames := [(3670016, ownFrame 0)] } }⟩,
      { served with mem := { served.mem with frames := [(3670016, ownFrame 0)] } }, ⟨0,0x18,0x10,true,0⟩, rfl,
      by decide +kernel⟩
  · exact ⟨⟨[], (Hw.reset.put F.PWR_DOMAIN_ON (2^28))⟩, (Hw.reset.put F.PWR_DOMAIN_ON (2^28)), ⟨0,0x100,0,true,0⟩,
      rfl, by decide +kernel⟩
  · exact ⟨⟨[], run⟩, run, ⟨1,0,0,true,0⟩, rfl, by decide +kernel⟩
  · exact ⟨⟨[], Hw.reset⟩, Hw.reset, ⟨1,0,0,true,0⟩, rfl, by decide +kernel⟩
  · exact ⟨⟨[], run⟩, run, 1, rfl, by decide +kernel⟩
  · exact ⟨⟨[], (puts [(F.MOD_INT_MASK_MASK, 2^64-1), (F.PWR_INT_STATUS_RAIL, 1), (F.PWR_INT_ENABLE_EN, 2^20-1),
      (F.MOD_INT_VECTOR_VECTOR, 3)] run)⟩, (puts [(F.MOD_INT_MASK_MASK, 2^64-1), (F.PWR_INT_STATUS_RAIL, 1),
      (F.PWR_INT_ENABLE_EN, 2^20-1), (F.MOD_INT_VECTOR_VECTOR, 3)] run), 1, rfl, by decide +kernel⟩
  · exact ⟨⟨[], (puts [(F.MOD_INT_MASK_MASK, 2^64-1), (F.PWR_INT_STATUS_RAIL, 1), (F.PWR_INT_ENABLE_EN, 2^20-1)]
      run)⟩, (puts [(F.MOD_INT_MASK_MASK, 2^64-1), (F.PWR_INT_STATUS_RAIL, 1), (F.PWR_INT_ENABLE_EN, 2^20-1)] run),
      1, rfl, by decide +kernel⟩

/-- For clauses of RegisterAccess with hypotheses, states and operands that meet them (part 2 of 2). -/
theorem witness_RegisterAccess_2 :
    (∃ (s : State) (h : Hw) (v : BitVec 64),
      s.hw = h ∧
      (h.hubOn = false ∨ bit v.toNat 0 = false)) ∧
    (∃ (s : State) (h : Hw) (q : Fin 24) (on : Bool) (above : Bool) (a : Hw),
      s.hw = h ∧
      (a = h.put (F.CAM_CTRL_PWR_EN.blk q.val) (b2n on)) ∧
      h.hubOn = true ∧
      (h.blockOn (0x700 + q.val) = true) ∧
      (on = false ∨ above = false ∨ a.camRail = false ∨ a.get (F.CAM_STATUS_PWR_STATE.blk q.val) ≠ 0)) ∧
    (∃ (s : State) (h : Hw) (q : Fin 24) (on : Bool) (above : Bool) (a : Hw),
      s.hw = h ∧
      (a = h.put (F.CAM_CTRL_PWR_EN.blk q.val) (b2n on)) ∧
      above = true ∧
      h.hubOn = true ∧
      (h.blockOn (0x700 + q.val) = true) ∧
      on = true ∧
      a.camRail = true ∧
      (a.get (F.CAM_STATUS_PWR_STATE.blk q.val) = 0)) ∧
    (∃ (s : State) (h : Hw) (q : Fin 24) (_on : Bool) (_above : Bool),
      s.hw = h ∧
      (h.hubOn = false ∨ h.blockOn (0x700 + q.val) = false)) := by
  refine ⟨?_, ?_, ?_, ?_⟩
  · exact ⟨⟨[], (puts [(F.MOD_INT_MASK_MASK, 2^64-1), (F.PWR_INT_STATUS_RAIL, 1), (F.PWR_INT_ENABLE_EN, 2^20-1),
      (F.MOD_INT_VECTOR_VECTOR, 3)] run)⟩, (puts [(F.MOD_INT_MASK_MASK, 2^64-1), (F.PWR_INT_STATUS_RAIL, 1),
      (F.PWR_INT_ENABLE_EN, 2^20-1), (F.MOD_INT_VECTOR_VECTOR, 3)] run), 0, rfl, by decide +kernel⟩
  · exact ⟨⟨[], served⟩, served, 0, false, false, _, rfl, rfl, by decide +kernel⟩
  · exact ⟨⟨[], served⟩, served, 0, true, _, _, rfl, rfl, rfl, by decide +kernel⟩
  · exact ⟨⟨[], Hw.reset⟩, Hw.reset, 0, false, false, rfl, by decide +kernel⟩

/-- For each clause of RegisterFields with hypotheses, a state and operands that meet them. -/
theorem witness_RegisterFields :
    (∃ (r : RegSpec) (f : FieldSpec), r ∈ regTable ∧ f ∈ r.fields) ∧
    (∃ (r : RegSpec) (i : Nat), r ∈ regTable ∧ ∀ f ∈ r.fields, i < f.lo ∨ f.lo + f.len ≤ i) ∧
    (∃ (f : FieldSpec) (i : Nat), i < f.len) := by
  refine ⟨?_, ?_, ?_⟩
  · exact ⟨regTable.headD ⟨0, 0, 0, 0, 0, []⟩, (regTable.headD ⟨0, 0, 0, 0, 0, []⟩).fields.headD ⟨0, 0, .ro, 0⟩,
      by decide +kernel, by decide +kernel⟩
  · exact ⟨regTable.headD ⟨0, 0, 0, 0, 0, []⟩, 63, by decide +kernel, by decide +kernel⟩
  · exact ⟨⟨4, 8, .rw, 0⟩, 7, by decide⟩

/-- For clauses of DramMaintenance with hypotheses, states and operands that meet them (part 1 of 2). -/
theorem witness_DramMaintenance :
    (∃ (s : State) (h : Hw) (c : Fin 64),
      s.hw = h ∧
      h.chAlive c.val = true) ∧
    (∃ (s : State) (h : Hw) (c : Fin 64),
      s.hw = h ∧
      h.chAlive c.val = false) ∧
    (∃ (s : State) (h : Hw) (c : Fin 64),
      s.hw = h ∧
      (h.sys.dram.scrub.find? (fun e => channelOf (h.mem.place (e.1 * 64)) == c.val) = none ∨ h.quiet = true ∨
      h.chAlive c.val = false)) ∧
    (∃ (s : State) (h : Hw) (c : Fin 64) (e : Nat × Nat),
      s.hw = h ∧
      (h.sys.dram.scrub.find? (fun e => channelOf (h.mem.place (e.1 * 64)) == c.val) = some e) ∧
      h.quiet = false ∧
      h.chAlive c.val = true) ∧
    (∃ (s : State) (h : Hw) (c : Fin 64) (_u : LineUpset) (l : Nat),
      s.hw = h ∧
      (h.patrolNext c.val (h.sys.dram.patrol.getD 0 c.val) = some l) ∧
      h.patrolRuns = true ∧
      h.chRetired c.val = false ∧
      h.sys.dram.patrolled.contains c.val = false) ∧
    (∃ (s : State) (h : Hw) (c : Fin 64) (_u : LineUpset),
      s.hw = h ∧
      h.patrolRuns = true ∧
      h.chRetired c.val = false ∧
      h.sys.dram.patrolled.contains c.val = false ∧
      (h.patrolNext c.val (h.sys.dram.patrol.getD 0 c.val) = none)) ∧
    (∃ (s : State) (h : Hw) (c : Fin 64) (_u : LineUpset),
      s.hw = h ∧
      (h.patrolRuns = false ∨ h.chRetired c.val = true ∨ h.sys.dram.patrolled.contains c.val = true)) ∧
    (∃ (s : State) (h : Hw),
      s.hw = h ∧
      h.fabricOn = true ∧
      h.sys.dram.lateRaised = false ∧
      (h.sys.dram.passAt + 32000000 < h.now)) ∧
    (∃ (s : State) (h : Hw),
      s.hw = h ∧
      (h.fabricOn = false ∨ h.sys.dram.lateRaised = true ∨ h.now ≤ h.sys.dram.passAt + 32000000)) ∧
    (∃ (s : State) (h : Hw) (a : Hw) (b : Hw),
      s.hw = h ∧
      (a = if h.now % 2 ^ h.get F.ECC_HAIR_CH_LEAK = 0 then (List.range 64).foldl (fun x c => x.leakOne
      (F.ECC_CH_LEVEL_LEVEL.nth c)) h else h) ∧
      (b = if h.now % 2 ^ h.get F.ECC_HAIR_TILE_LEAK = 0 then (List.range 1152).foldl (fun x t => x.leakOne
      (F.ECC_TILE_LEVEL_LEVEL.nth t)) a else a) ∧
      h.fabricOn = true ∧
      h.sys.dram.leakAt < h.now) ∧
    (∃ (s : State) (h : Hw),
      s.hw = h ∧
      (h.fabricOn = false ∨ h.now ≤ h.sys.dram.leakAt)) ∧
    (∃ (s : State) (h : Hw),
      s.hw = h ∧
      h.fabricOn = true ∧
      ((h.stn.active.wins.any fun w => (h.stn.active.winAct w).kind == 1 && decide (w.start = h.coatPos)) = true)) := by
  refine ⟨?_, ?_, ?_, ?_, ?_, ?_, ?_, ?_, ?_, ?_, ?_, ?_⟩
  · exact ⟨⟨[], live⟩, live, 1, rfl, by decide +kernel⟩
  · exact ⟨⟨[], live⟩, live, 0, rfl, by decide +kernel⟩
  · exact ⟨⟨[], (live.modDram fun d => { d with scrub := [(0x100000/64, 0)] })⟩, (live.modDram fun d =>
      { d with scrub := [(0x100000/64, 0)] }), 0, rfl, by decide +kernel⟩
  · exact ⟨⟨[], (live.modDram fun d => { d with scrub := [(0x100000/64, 0)] })⟩, (live.modDram fun d =>
      { d with scrub := [(0x100000/64, 0)] }), 1, _, rfl, w_some (by decide +kernel), by decide +kernel⟩
  · exact ⟨⟨[], live⟩, live, 0, ⟨[], 0⟩, _, rfl, w_some (by decide +kernel), by decide +kernel⟩
  · exact ⟨⟨[], run⟩, run, 0, ⟨[], 0⟩, rfl, by decide +kernel⟩
  · exact ⟨⟨[], (offed (live))⟩, (offed (live)), 0, ⟨[], 0⟩, rfl, by decide +kernel⟩
  · exact ⟨⟨[], (atTime 32000001 run)⟩, (atTime 32000001 run), rfl, by decide +kernel⟩
  · exact ⟨⟨[], run⟩, run, rfl, by decide +kernel⟩
  · exact ⟨⟨[], served⟩, served, _, _, rfl, rfl, rfl, by decide +kernel⟩
  · exact ⟨⟨[], Hw.reset⟩, Hw.reset, rfl, by decide +kernel⟩
  · exact ⟨⟨[], (atTime 960 run)⟩, (atTime 960 run), rfl, by decide +kernel⟩

/-- For clauses of DramMaintenance with hypotheses, states and operands that meet them (part 2 of 2). -/
theorem witness_DramMaintenance_2 :
    (∃ (s : State) (h : Hw),
      s.hw = h ∧
      (h.fabricOn = false ∨ (h.stn.active.wins.any fun w => (h.stn.active.winAct w).kind == 1 && decide (w.start =
      h.coatPos)) = false)) ∧
    (∃ (s : State) (h : Hw) (c : Fin 64) (_a : LaneSweep) (_b : LaneSweep),
      s.hw = h ∧
      (∀ t0, h.sys.dram.trainAt.find c.val = some t0 → h.fabricOn = false ∨ h.now < t0 + 32)) ∧
    (∃ (s : State) (h : Hw) (c : Fin 64) (a : LaneSweep) (b : LaneSweep) (t0 : Nat) (k : Hw),
      s.hw = h ∧
      h.sys.dram.trainAt.find c.val = some t0 ∧
      (h.trainChannel c.val a b = (true, k)) ∧
      h.fabricOn = true ∧
      (t0 + 32 ≤ h.now)) ∧
    (∃ (s : State) (h : Hw) (c : Fin 64) (a : LaneSweep) (b : LaneSweep) (t0 : Nat) (k : Hw),
      s.hw = h ∧
      h.sys.dram.trainAt.find c.val = some t0 ∧
      (h.trainChannel c.val a b = (false, k)) ∧
      h.fabricOn = true ∧
      (t0 + 32 ≤ h.now)) ∧
    (∃ (s : State) (h : Hw) (_stripe : Fin 14680064),
      s.hw = h ∧
      h.fabricOn = true ∧
      h.quiet = false) ∧
    (∃ (s : State) (h : Hw) (_stripe : Fin 14680064),
      s.hw = h ∧
      (h.fabricOn = false ∨ h.quiet = true)) ∧
    (∃ (s : State) (h : Hw),
      s.hw = h ∧
      (h.fabricOn = false ∨ h.quiet = true ∨ h.sys.dram.rebuild.isEmpty = true)) ∧
    (∃ (s : State) (h : Hw) (x : StripeAt) (a : Hw),
      s.hw = h ∧
      (h.stripeFrom (h.get F.ECC_REBUILD_POS) = some x) ∧
      (a = (h.rebuildStripe x).put F.ECC_REBUILD_POS (x.base + 1)) ∧
      h.fabricOn = true ∧
      h.quiet = false ∧
      h.sys.dram.rebuild.isEmpty = false ∧
      (a.stripeFrom (x.base + 1) = none)) ∧
    (∃ (s : State) (h : Hw) (e : Fin 6),
      s.hw = h ∧
      (h.fabricOn = false ∨ h.edgeModules e.val = 0)) ∧
    (∃ (s : State) (h : Hw),
      s.hw = h ∧
      h.fabricOn = true ∧
      h.quiet = false ∧
      h.sys.dram.rebuild.isEmpty = false ∧
      (h.stripeFrom (h.get F.ECC_REBUILD_POS) = none)) ∧
    (∃ (s : State) (h : Hw) (x : StripeAt) (y : StripeAt) (a : Hw),
      s.hw = h ∧
      (h.stripeFrom (h.get F.ECC_REBUILD_POS) = some x) ∧
      (a = (h.rebuildStripe x).put F.ECC_REBUILD_POS (x.base + 1)) ∧
      (a.stripeFrom (x.base + 1) = some y) ∧
      h.fabricOn = true ∧
      h.quiet = false ∧
      h.sys.dram.rebuild.isEmpty = false) ∧
    (∃ (s : State) (h : Hw) (e : Fin 6) (n : Nat) (a : Hw) (b : Hw),
      s.hw = h ∧
      n = h.edgeModules e.val ∧
      (a = { h with fab := { h.fab with modules := h.fab.modules.put e.val (n - 1) } }) ∧
      (b = (a.event (srcEdge (2 * e.val)) 0x050A 0 (n - 1)).healthAdd (partEdge e.val) inEdgeLost 1) ∧
      h.fabricOn = true ∧
      0 < n) := by
  refine ⟨?_, ?_, ?_, ?_, ?_, ?_, ?_, ?_, ?_, ?_, ?_, ?_⟩
  · exact ⟨⟨[], run⟩, run, rfl, by decide +kernel⟩
  · exact ⟨⟨[], live⟩, live, 0, ⟨List.replicate 128 (2^64-1), List.replicate 128 (2^64-1)⟩, ⟨List.replicate 128
      (2^64-1), List.replicate 128 (2^64-1)⟩, rfl, fun _ e => w_vacant (by decide +kernel) e⟩
  · exact ⟨⟨[], (live.modDram fun d => { d with trainAt := [(0, 0)] })⟩, (live.modDram fun d =>
      { d with trainAt := [(0, 0)] }), 0, ⟨List.replicate 128 (2^64-1), List.replicate 128 (2^64-1)⟩,
      ⟨List.replicate 128 (2^64-1), List.replicate 128 (2^64-1)⟩, _, _, rfl, w_some (by decide +kernel), w_fst
      (by decide +kernel), by decide +kernel⟩
  · exact ⟨⟨[], (live.modDram fun d => { d with trainAt := [(0, 0)] })⟩, (live.modDram fun d =>
      { d with trainAt := [(0, 0)] }), 0, ⟨List.replicate 128 (2^64-1), List.replicate 128 (2^64-1)⟩, ⟨[],[]⟩, _, _,
      rfl, w_some (by decide +kernel), w_fst (by decide +kernel), by decide +kernel⟩
  · exact ⟨⟨[], Hw.reset⟩, Hw.reset, 0, rfl, by decide +kernel⟩
  · exact ⟨⟨[], offHw⟩, offHw, 0, rfl, by decide +kernel⟩
  · exact ⟨⟨[], run⟩, run, rfl, by decide +kernel⟩
  · exact ⟨⟨[], ((striped.modDram fun d => { d with rebuild := [0] }).put F.ECC_REBUILD_POS 0x5FC000)⟩,
      ((striped.modDram fun d => { d with rebuild := [0] }).put F.ECC_REBUILD_POS 0x5FC000), _, _, rfl, w_some
      (by decide +kernel), rfl, by decide +kernel⟩
  · exact ⟨⟨[], offHw⟩, offHw, 0, rfl, by decide +kernel⟩
  · exact ⟨⟨[], (live.modDram fun d => { d with rebuild := [0] })⟩, (live.modDram fun d =>
      { d with rebuild := [0] }), rfl, by decide +kernel⟩
  · exact ⟨⟨[], ((striped.modDram fun d => { d with rebuild := [0] }).put F.ECC_REBUILD_POS 0)⟩, ((striped.modDram
      fun d => { d with rebuild := [0] }).put F.ECC_REBUILD_POS 0), _, _, _, rfl, w_some (by decide +kernel), rfl,
      w_some (by decide +kernel), by decide +kernel⟩
  · exact ⟨⟨[], Hw.reset⟩, Hw.reset, 0, _, _, _, rfl, rfl, rfl, rfl, by decide +kernel⟩

/-- For clauses of MemoryRequests with hypotheses, states and operands that meet them (part 1 of 2). -/
theorem witness_MemoryRequests :
    (∃ (s : State) (h : Hw) (c : Fin 64) (m : MemMsg) (r : MemReq) (g : Hw),
      s.hw = h ∧
      (r =
      { src := m.src.val, pid := m.pid.val, tag := m.tag.toNat, write := m.write, addr := m.addr.toNat, len := m.len.val, data := m.data, stain := m.stain })
      ∧
      g = h.takeRequest c.val r ∧
      h.fabricOn = true ∧
      g.stationOk c.val r = false) ∧
    (∃ (s : State) (h : Hw) (c : Fin 64) (m : MemMsg) (r : MemReq) (g : Hw),
      s.hw = h ∧
      (r =
      { src := m.src.val, pid := m.pid.val, tag := m.tag.toNat, write := m.write, addr := m.addr.toNat, len := m.len.val, data := m.data, stain := m.stain })
      ∧
      g = h.takeRequest c.val r ∧
      h.fabricOn = true ∧
      g.stationOk c.val r = true ∧
      g.chRetired c.val = true) ∧
    (∃ (s : State) (h : Hw) (c : Fin 64) (m : MemMsg) (r : MemReq) (g : Hw),
      s.hw = h ∧
      (r =
      { src := m.src.val, pid := m.pid.val, tag := m.tag.toNat, write := m.write, addr := m.addr.toNat, len := m.len.val, data := m.data, stain := m.stain })
      ∧
      g = h.takeRequest c.val r ∧
      h.fabricOn = true ∧
      g.stationOk c.val r = true ∧
      g.chRetired c.val = false ∧
      r.src < 1024 ∧
      (8 ≤ (g.stationLoad c.val r.src).length)) ∧
    (∃ (s : State) (h : Hw) (c : Fin 64) (m : MemMsg) (r : MemReq) (g : Hw),
      s.hw = h ∧
      (r =
      { src := m.src.val, pid := m.pid.val, tag := m.tag.toNat, write := m.write, addr := m.addr.toNat, len := m.len.val, data := m.data, stain := m.stain })
      ∧
      g = h.takeRequest c.val r ∧
      h.fabricOn = true ∧
      g.stationOk c.val r = true ∧
      g.chRetired c.val = false ∧
      (1024 ≤ r.src ∨ (g.stationLoad c.val r.src).length < 8) ∧
      (8 ≤ (g.fab.stationQ.getD [] (c.val * 256 + r.pid)).length)) ∧
    (∃ (s : State) (h : Hw) (c : Fin 64) (m : MemMsg) (r : MemReq) (g : Hw),
      s.hw = h ∧
      (r =
      { src := m.src.val, pid := m.pid.val, tag := m.tag.toNat, write := m.write, addr := m.addr.toNat, len := m.len.val, data := m.data, stain := m.stain })
      ∧
      g = h.takeRequest c.val r ∧
      h.fabricOn = true ∧
      g.stationOk c.val r = true ∧
      g.chRetired c.val = false ∧
      (1024 ≤ r.src ∨ (g.stationLoad c.val r.src).length < 8) ∧
      ((g.fab.stationQ.getD [] (c.val * 256 + r.pid)).length < 8)) ∧
    (∃ (s : State) (h : Hw) (_c : Fin 64) (_m : MemMsg),
      s.hw = h ∧
      h.fabricOn = false) ∧
    (∃ (s : State) (h : Hw) (i : Fin 78) (_ops : ArbInput),
      s.hw = h ∧
      h.fabricOn = true ∧
      ((h.arb i.val).freeze = none) ∧
      i.val < 64) ∧
    (∃ (s : State) (h : Hw) (i : Fin 78) (_ops : ArbInput),
      s.hw = h ∧
      h.fabricOn = true ∧
      ((h.arb i.val).freeze = none) ∧
      64 ≤ i.val ∧
      i.val < 76) ∧
    (∃ (s : State) (h : Hw) (i : Fin 78) (_ops : ArbInput),
      s.hw = h ∧
      h.fabricOn = true ∧
      ((h.arb i.val).freeze = none) ∧
      i.val = 76) ∧
    (∃ (s : State) (h : Hw) (i : Fin 78) (_ops : ArbInput),
      s.hw = h ∧
      h.fabricOn = true ∧
      ((h.arb i.val).freeze = none) ∧
      i.val = 77) ∧
    (∃ (s : State) (h : Hw) (i : Fin 78) (_ops : ArbInput),
      s.hw = h ∧
      (h.fabricOn = false ∨ (h.arb i.val).freeze.isSome = true)) ∧
    (∃ (h : Hw) (c : Nat) (p : Nat) (r : MemReq) (el : List Nat) (a : Arb),
      el = h.portWaiters c ∧
      ((h.arb c).pick el h.portWeight = some (p, a)) ∧
      h.portHead c p = some r ∧
      c < 64 ∧
      ((h.portWaiters c).all (fun x => h.portEligible c x) = true) ∧
      (h.get (F.MC_STATUS_STATE.blk c) = 1) ∧
      h.slotsUsed c < h.portSlots) := by
  refine ⟨?_, ?_, ?_, ?_, ?_, ?_, ?_, ?_, ?_, ?_, ?_, ?_⟩
  · exact ⟨⟨[], (live.put (F.MC_STATUS_STATE.blk ch0) 3)⟩, (live.put (F.MC_STATUS_STATE.blk ch0) 3), 0,
      ⟨0,0,0,false,0x100000,64,[],false⟩, _, _, rfl, rfl, rfl, by decide +kernel⟩
  · exact ⟨⟨[], (live.put (F.MC_STATUS_STATE.blk ch0) 3)⟩, (live.put (F.MC_STATUS_STATE.blk ch0) 3), 1,
      ⟨0,0,0,false,0x100000,64,[],false⟩, _, _, rfl, rfl, rfl, by decide +kernel⟩
  · exact ⟨⟨[], (fabOf (fun f =>
      { f with stationQ := [(ch0 * 256, (upto 1 8).map fun t => { memReq false with tag := t })] }) live)⟩, (fabOf
      (fun f => { f with stationQ := [(ch0 * 256, (upto 1 8).map fun t => { memReq false with tag := t })] }) live),
      1, ⟨0,0,0,false,0x100000,64,[],false⟩, _, _, rfl, rfl, rfl, by decide +kernel⟩
  · exact ⟨⟨[], (fabOf (fun f => { f with stationQ := [(ch0 * 256, List.replicate 8 (memReq false))] }) live)⟩,
      (fabOf (fun f => { f with stationQ := [(ch0 * 256, List.replicate 8 (memReq false))] }) live), 1,
      ⟨0,0,0,false,0x100000,64,[],false⟩, _, _, rfl, rfl, rfl, by decide +kernel⟩
  · exact ⟨⟨[], run⟩, run, 1, ⟨0,0,0,false,0x100000,64,[],false⟩, _, _, rfl, rfl, rfl, by decide +kernel⟩
  · exact ⟨⟨[], (offed ((live.put (F.MC_STATUS_STATE.blk ch0) 3)))⟩, (offed ((live.put (F.MC_STATUS_STATE.blk ch0)
      3))), 0, ⟨0,0,0,false,0x100000,64,[],false⟩, rfl, by decide +kernel⟩
  · exact ⟨⟨[], live⟩, live, 0, ⟨[], 0⟩, rfl, by decide +kernel⟩
  · exact ⟨⟨[], run⟩, run, 64, ⟨[], 0⟩, rfl, by decide +kernel⟩
  · exact ⟨⟨[], run⟩, run, 76, ⟨[], 0⟩, rfl, by decide +kernel⟩
  · exact ⟨⟨[], run⟩, run, 77, ⟨[], 0⟩, rfl, by decide +kernel⟩
  · exact ⟨⟨[], (offed (run))⟩, (offed (run)), 76, ⟨[], 0⟩, rfl, by decide +kernel⟩
  · exact ⟨(fabOf (fun f => { f with stationQ := [(ch0 * 256, [memReq false])] }) live), 1, _, _, _, _, rfl,
      w_somePair (by decide +kernel), w_some (by decide +kernel), by decide +kernel⟩

/-- For clauses of MemoryRequests with hypotheses, states and operands that meet them (part 2 of 2). -/
theorem witness_MemoryRequests_2 :
    (∃ (s : State) (h : Hw) (c : Fin 64) (_u : LineUpset) (_act : Bool),
      s.hw = h ∧
      (h.fabricOn = false ∨ (h.arb c.val).granted = [])) ∧
    (∃ (s : State) (h : Hw) (c : Fin 64) (u : LineUpset) (act : Bool) (r : MemReq) (rs : List MemReq) (a : Hw) (b :
      Hw) (d : Hw) (k : Hw) (bs : List Byte) (sd : Bool),
      s.hw = h ∧
      (a = if act = true then h.neighbourRefresh c.val else h) ∧
      ((a.arb c.val).granted = r :: rs) ∧
      (b = (a.modArb c.val fun x => { x with granted := rs }).upsetLine (r.addr / 64) u) ∧
      (d = if u.errors.isEmpty = true then b else b.countStripes a.lostStripes) ∧
      (d.portRead r.pid r.addr r.len = (bs, sd, k)) ∧
      h.fabricOn = true ∧
      ((h.arb c.val).granted ≠ []) ∧
      r.write = false) ∧
    (∃ (s : State) (h : Hw) (c : Fin 64) (u : LineUpset) (act : Bool) (r : MemReq) (rs : List MemReq) (a : Hw) (b :
      Hw) (d : Hw) (k : Hw),
      s.hw = h ∧
      (a = if act = true then h.neighbourRefresh c.val else h) ∧
      ((a.arb c.val).granted = r :: rs) ∧
      (b = (a.modArb c.val fun x => { x with granted := rs }).upsetLine (r.addr / 64) u) ∧
      (d = if u.errors.isEmpty = true then b else b.countStripes a.lostStripes) ∧
      k = d.portWrite r.pid r.addr r.data r.stain ∧
      h.fabricOn = true ∧
      ((h.arb c.val).granted ≠ []) ∧
      r.write = true) ∧
    (∃ (s : State) (h : Hw) (c : Fin 64),
      s.hw = h ∧
      (h.fabricOn = false ∨ (∃ r, h.sys.dram.retiring.find? (fun r => r.channel == c.val) = some r ∧ h.now < r.at_ +
      3))) ∧
    (∃ (s : State) (h : Hw) (c : Fin 64),
      s.hw = h ∧
      h.fabricOn = true ∧
      (h.sys.dram.retiring.find? (fun r => r.channel == c.val) = none)) ∧
    (∃ (s : State) (h : Hw) (c : Fin 64) (r : Retiring) (l : List Retiring × List Retiring) (a : Hw) (b : Hw) (d :
      Hw) (e : Hw) (g : Hw),
      s.hw = h ∧
      (h.sys.dram.retiring.find? (fun r => r.channel == c.val) = some r) ∧
      (l = h.sys.dram.retiring.partition fun r => r.channel == c.val) ∧
      (a = h.modDram fun d =>
      { d with retiring := l.2, scrub := d.scrub.filter fun e => h.mem.channelAt (e.1 * 64) ≠ c.val }) ∧
      (b = (((a.put (F.MC_STATUS_STATE.blk c.val) 3).put (F.MC_STATUS_CAUSE.blk c.val) r.cause).put
      (F.MC_STATUS_TRAIN_DUE.blk c.val) 0).put (F.MC_INT_STATUS_RETIRED.blk c.val) 1) ∧
      (d = (((((b.put (F.ECC_RETIRED_CH.bit c.val) 1).put (F.ECC_STATUS_DEV_DEGRADED.bit (c.val / 8)) 1).event
      (srcChannel c.val) 0x0105 0 r.cause).loseDurable c.val).answerRetired c.val)) ∧
      (e = l.1.foldl (fun h r => match r.cmd with | some (p, q, n) => h.finishAt p q n 0 0 0 {} | none => h) d) ∧
      (g = if 3 ≤ countNat 8 (fun m => e.chRetired (8 * (c.val / 8) + m)) then e.loseDevice (c.val / 8) else e) ∧
      h.fabricOn = true ∧
      (r.at_ + 3 ≤ h.now)) := by
  refine ⟨?_, ?_, ?_, ?_, ?_, ?_⟩
  · exact ⟨⟨[], granted true⟩, granted true, 0, ⟨[], 0⟩, false, rfl, by decide +kernel⟩
  · exact ⟨⟨[], granted false⟩, granted false, 1, ⟨[], 0⟩, false, _, _, _, _, _, _, _, _, rfl, rfl, w_cons
      (by decide +kernel), rfl, rfl, w_triple, by decide +kernel⟩
  · exact ⟨⟨[], granted true⟩, granted true, 1, ⟨[], 0⟩, false, _, _, _, _, _, _, rfl, rfl, w_cons
      (by decide +kernel), rfl, rfl, rfl, by decide +kernel⟩
  · exact ⟨⟨[], (offed ((live.modDram fun d =>
      { d with retiring := [{ channel := 0, cause := 1, at_ := 50, cmd := none }] })))⟩, (offed ((live.modDram fun d
      => { d with retiring := [{ channel := 0, cause := 1, at_ := 50, cmd := none }] }))), 0, rfl,
      by decide +kernel⟩
  · exact ⟨⟨[], (live.modDram fun d =>
      { d with retiring := [{ channel := 0, cause := 1, at_ := 50, cmd := none }] })⟩, (live.modDram fun d =>
      { d with retiring := [{ channel := 0, cause := 1, at_ := 50, cmd := none }] }), 1, rfl, by decide +kernel⟩
  · exact ⟨⟨[], (live.modDram fun d =>
      { d with retiring := [{ channel := 0, cause := 1, at_ := 50, cmd := none }] })⟩, (live.modDram fun d =>
      { d with retiring := [{ channel := 0, cause := 1, at_ := 50, cmd := none }] }), 0, _, _, _, _, _, _, _, rfl,
      w_some (by decide +kernel), rfl, rfl, rfl, rfl, rfl, rfl, by decide +kernel⟩

/-- For clauses of MeshMessages with hypotheses, states and operands that meet them (part 1 of 2). -/
theorem witness_MeshMessages :
    (∃ (s : State) (h : Hw) (l : Fin 1024) (port : Fin 5) (a : Option FlitIn) (k : Hw),
      s.hw = h ∧
      (k = (match a with | some x => h.arriveFlit l.val port.val x | none => h)) ∧
      h.fabricOn = true ∧
      ((k.fab.inq.getD [] (5 * l.val + port.val)).head? = none)) ∧
    (∃ (s : State) (h : Hw) (l : Fin 1024) (port : Fin 5) (a : Option FlitIn) (k : Hw) (f : Flit),
      s.hw = h ∧
      (k = (match a with | some x => h.arriveFlit l.val port.val x | none => h)) ∧
      ((k.fab.inq.getD [] (5 * l.val + port.val)).head? = some f) ∧
      h.fabricOn = true) ∧
    (∃ (s : State) (h : Hw) (_l : Fin 1024) (_port : Fin 5) (_a : Option FlitIn),
      s.hw = h ∧
      h.fabricOn = false) ∧
    (∃ (_h : Hw) (_l : Nat) (_port : Nat) (x : FlitIn) (f : Flit),
      (f = ⟨x.header.toNat, fit 64 x.payload⟩)) ∧
    (∃ (l : Nat) (dst : Nat) (_ty : Nat),
      l < 1024 ∧
      dst < 1024) ∧
    (∃ (s : State) (h : Hw) (src : Fin 1024) (dst : Fin 1024) (m : Msg) (k : Hw) (t : Nat) (rows : List (Nat × List
      SByte)),
      s.hw = h ∧
      (h.takeMsg src.val dst.val [0, 1] = (some m, k)) ∧
      k.physFor m.pid m.dst = some t ∧
      (rows = m.pieces.map fun p => (landAddr ((k.tile t).areasOf m.pid) m + 64 * p.idx, p.sbytes)) ∧
      h.fabricOn = true) ∧
    (∃ (s : State) (h : Hw) (src : Fin 1024) (dst : Fin 1024) (m : Msg) (k : Hw) (t : Nat),
      s.hw = h ∧
      (h.takeMsg src.val dst.val [0xA] = (some m, k)) ∧
      k.physFor m.pid m.dst = some t ∧
      h.fabricOn = true) ∧
    (∃ (s : State) (h : Hw) (src : Fin 1024) (dst : Fin 1024) (m : Msg) (k : Hw) (t : Nat),
      s.hw = h ∧
      (h.takeMsg src.val dst.val [0xB] = (some m, k)) ∧
      k.physFor m.pid m.dst = some t ∧
      h.fabricOn = true) ∧
    (∃ (s : State) (h : Hw) (src : Fin 1024) (dst : Fin 1024) (m : Msg) (k : Hw),
      s.hw = h ∧
      (h.takeMsg src.val dst.val [0, 1] = (some m, k)) ∧
      h.fabricOn = true ∧
      k.physFor m.pid m.dst = none) ∧
    (∃ (s : State) (h : Hw) (src : Fin 1024) (dst : Fin 1024) (m : Msg) (k : Hw),
      s.hw = h ∧
      (h.takeMsg src.val dst.val [0xA] = (some m, k)) ∧
      h.fabricOn = true ∧
      k.physFor m.pid m.dst = none) ∧
    (∃ (s : State) (h : Hw) (src : Fin 1024) (dst : Fin 1024) (m : Msg) (k : Hw),
      s.hw = h ∧
      (h.takeMsg src.val dst.val [0xB] = (some m, k)) ∧
      h.fabricOn = true ∧
      k.physFor m.pid m.dst = none) ∧
    (∃ (s : State) (h : Hw) (src : Fin 1024) (dst : Fin 1024) (k : Hw),
      s.hw = h ∧
      (h.takeMsg src.val dst.val [0, 1] = (none, k)) ∧
      h.fabricOn = true) := by
  refine ⟨?_, ?_, ?_, ?_, ?_, ?_, ?_, ?_, ?_, ?_, ?_, ?_⟩
  · exact ⟨⟨[], (fabOf (fun f => { f with inq := [(0, [{ header := 0, payload := zeros 64 }])] }) run)⟩, (fabOf (fun
      f => { f with inq := [(0, [{ header := 0, payload := zeros 64 }])] }) run), 0, 1, none, _, rfl, rfl,
      by decide +kernel⟩
  · exact ⟨⟨[], (fabOf (fun f => { f with inq := [(0, [{ header := 0, payload := zeros 64 }])] }) run)⟩, (fabOf (fun
      f => { f with inq := [(0, [{ header := 0, payload := zeros 64 }])] }) run), 0, 0, none, _, _, rfl, rfl, w_some
      (by decide +kernel), by decide +kernel⟩
  · exact ⟨⟨[], (offed ((fabOf (fun f => { f with inq := [(0, [{ header := 0, payload := zeros 64 }])] }) run)))⟩,
      (offed ((fabOf (fun f => { f with inq := [(0, [{ header := 0, payload := zeros 64 }])] }) run))), 0, 0, none,
      rfl, by decide +kernel⟩
  · exact ⟨Hw.reset, 0, 0, ⟨BitVec.ofNat 64 (hdrSeal (hdrWay 1 0 + hdrKind 5 0 false true)), zeros 64⟩, _, rfl⟩
  · exact ⟨0, 0, 0, by decide +kernel⟩
  · exact ⟨⟨[], inMesh 0⟩, inMesh 0, 0, 1, _, _, _, _, rfl, w_someFst (by decide +kernel), w_some
      (by decide +kernel), rfl, by decide +kernel⟩
  · exact ⟨⟨[], inMesh 0xA⟩, inMesh 0xA, 0, 1, _, _, _, rfl, w_someFst (by decide +kernel), w_some
      (by decide +kernel), by decide +kernel⟩
  · exact ⟨⟨[], inMesh 0xB⟩, inMesh 0xB, 0, 1, _, _, _, rfl, w_someFst (by decide +kernel), w_some
      (by decide +kernel), by decide +kernel⟩
  · exact ⟨⟨[], (fabOf (fun f => { f with rowMask := [(0, 0)] }) (inMesh 0))⟩, (fabOf (fun f =>
      { f with rowMask := [(0, 0)] }) (inMesh 0)), 0, 1, _, _, rfl, w_someFst (by decide +kernel),
      by decide +kernel⟩
  · exact ⟨⟨[], (fabOf (fun f => { f with rowMask := [(0, 0)] }) (inMesh 0xA))⟩, (fabOf (fun f =>
      { f with rowMask := [(0, 0)] }) (inMesh 0xA)), 0, 1, _, _, rfl, w_someFst (by decide +kernel),
      by decide +kernel⟩
  · exact ⟨⟨[], (fabOf (fun f => { f with rowMask := [(0, 0)] }) (inMesh 0xB))⟩, (fabOf (fun f =>
      { f with rowMask := [(0, 0)] }) (inMesh 0xB)), 0, 1, _, _, rfl, w_someFst (by decide +kernel),
      by decide +kernel⟩
  · exact ⟨⟨[], inMesh 0⟩, inMesh 0, 0, 0, _, rfl, w_fst (by decide +kernel), by decide +kernel⟩

/-- For clauses of MeshMessages with hypotheses, states and operands that meet them (part 2 of 2). -/
theorem witness_MeshMessages_2 :
    (∃ (s : State) (h : Hw) (src : Fin 1024) (dst : Fin 1024) (k : Hw),
      s.hw = h ∧
      (h.takeMsg src.val dst.val [0xA] = (none, k)) ∧
      h.fabricOn = true) ∧
    (∃ (s : State) (h : Hw) (src : Fin 1024) (dst : Fin 1024) (k : Hw),
      s.hw = h ∧
      (h.takeMsg src.val dst.val [0xB] = (none, k)) ∧
      h.fabricOn = true) ∧
    (∃ (s : State) (h : Hw) (_src : Fin 1024) (_dst : Fin 1024),
      s.hw = h ∧
      h.fabricOn = false) ∧
    (∃ (s : State) (h : Hw) (_src : Fin 1024) (_dst : Fin 1024),
      s.hw = h ∧
      h.fabricOn = false) ∧
    (∃ (s : State) (h : Hw) (_src : Fin 1024) (_dst : Fin 1024),
      s.hw = h ∧
      h.fabricOn = false) ∧
    (∃ (h : Hw) (l o c p i : Nat) (f : Flit), h.outPick l o = some (c, p, i, f)) ∧
    (∃ (h : Hw) (l o c : Nat), c = classTurns.getD (h.fab.outSeq.getD 0 (5 * l + o)) 0 ∧ ∃ p, p < 5 ∧ (h.readyAt l o
      c p).isSome = true) := by
  refine ⟨?_, ?_, ?_, ?_, ?_, ?_, ?_⟩
  · exact ⟨⟨[], inMesh 0xA⟩, inMesh 0xA, 0, 0, _, rfl, w_fst (by decide +kernel), by decide +kernel⟩
  · exact ⟨⟨[], inMesh 0xB⟩, inMesh 0xB, 0, 0, _, rfl, w_fst (by decide +kernel), by decide +kernel⟩
  · exact ⟨⟨[], (offed (inMesh 0))⟩, (offed (inMesh 0)), 0, 0, rfl, by decide +kernel⟩
  · exact ⟨⟨[], (offed (inMesh 0xA))⟩, (offed (inMesh 0xA)), 0, 0, rfl, by decide +kernel⟩
  · exact ⟨⟨[], (offed (inMesh 0xB))⟩, (offed (inMesh 0xB)), 0, 0, rfl, by decide +kernel⟩
  · exact ⟨inEast, 0, 1, 0, 1, 0, (msgOf 0).toFlits.headD ⟨0, []⟩, by decide +kernel⟩
  · exact ⟨inEast, 0, 1, _, rfl, 1, by decide +kernel⟩

/-- For clauses of TileGates with hypotheses, states and operands that meet them (part 1 of 2). -/
theorem witness_TileGates :
    (∃ (s : State) (h : Hw) (t : TilePulse) (n : Nat) (a : Hw) (b : Hw),
      s.hw = h ∧
      n = t.tile.val ∧
      (a = ((((h.upsetTile n t.upset).closeStroke n t.upset.slack).creditIdle n).endTest n).modTile n fun x =>
      { x with pulsedAt := h.now, slice := x.slice.filter fun y => decide (y.state = .running) }) ∧
      (b = a.put (F.TILE_CLK_MHZ.blk n) (a.tileClock n)) ∧
      h.fabricOn = true ∧
      h.seqStopped = false ∧
      (h.domainOn (tileDomain n) = true) ∧
      (h.sys.gov.dieHeld.contains (n / 288) = false) ∧
      ((h.tile n).pulsedAt < h.now)) ∧
    (∃ (s : State) (h : Hw) (t : TilePulse) (n : Nat),
      s.hw = h ∧
      n = t.tile.val ∧
      (h.fabricOn = false ∨ h.seqStopped = true ∨ h.domainOn (tileDomain n) = false ∨ h.sys.gov.dieHeld.contains (n
      / 288) = true ∨ h.now ≤ (h.tile n).pulsedAt)) ∧
    (∃ (h : Hw) (t : Nat) (_slack : Bool),
      ((h.tile t).slice = none)) ∧
    (∃ (h : Hw) (t : Nat) (sl : Slice) (_slack : Bool),
      ((h.tile t).slice = some sl)) ∧
    (∃ (h : Hw) (t : Nat),
      h.gateWindow t = none) ∧
    (∃ (h : Hw) (t : Nat) (l : Nat) (w : WinRow),
      (h.gateWindow t = some (w, l)) ∧
      ((h.stn.active.winAct w).kind ≠ 2)) ∧
    (∃ (h : Hw) (a : Hw) (t : Nat) (l : Nat) (pid : Nat) (w : WinRow),
      (a = h.put (F.TILE_STATE_HOLD.blk t) 0) ∧
      (a.gateWindow t = some (w, l)) ∧
      pid = a.stn.active.winPid w) ∧
    (∃ (_h : Hw) (t : Nat),
      t < 1152) ∧
    (∃ (s : State) (h : Hw) (t : Fin 1152),
      s.hw = h ∧
      h.fabricOn = true ∧
      h.fab.retired.contains t.val = false ∧
      ((h.tile t.val).lateRaised = false) ∧
      ((h.tile t.val).rotationAt + 100000 ≤ h.now)) ∧
    (∃ (s : State) (h : Hw) (t : Fin 1152),
      s.hw = h ∧
      (h.fabricOn = false ∨ h.fab.retired.contains t.val = true ∨ (h.tile t.val).lateRaised = true ∨ h.now < (h.tile
      t.val).rotationAt + 100000)) ∧
    (∃ (s : State) (h : Hw) (row : Fin 64) (x : Reloc),
      s.hw = h ∧
      (h.fab.relocs.find? (fun x => x.shift && x.die * 16 + x.row == row.val) = some x) ∧
      h.fabricOn = true ∧
      (x.sinceStroke + 2 ≤ h.now)) ∧
    (∃ (s : State) (h : Hw) (row : Fin 64),
      s.hw = h ∧
      (h.fab.relocs.find? (fun x => x.shift && x.die * 16 + x.row == row.val) = none)) := by
  refine ⟨?_, ?_, ?_, ?_, ?_, ?_, ?_, ?_, ?_, ?_, ?_, ?_⟩
  · exact ⟨⟨[], served⟩, served, ⟨0, ⟨false, [], [], [], false⟩⟩, _, _, _, rfl, rfl, rfl, rfl, by decide +kernel⟩
  · exact ⟨⟨[], Hw.reset⟩, Hw.reset, ⟨0, ⟨false, [], [], [], false⟩⟩, _, rfl, rfl, by decide +kernel⟩
  · exact ⟨(stnOf (fun s => { s with active := act1 }) run), 0, false, by decide +kernel⟩
  · exact ⟨(run.modTile 0 fun x => { x with slice := some (slice0 1) }), 0, _, false, w_some (by decide +kernel)⟩
  · exact ⟨(stnOf (fun s => { s with active := act1 }) run), 1, by decide +kernel⟩
  · exact ⟨(stnOf (fun s => { s with active := act1 }) run), 0, _, _, w_somePair (by decide +kernel),
      by decide +kernel⟩
  · exact ⟨(stnOf (fun s => { s with active := act1 }) run), _, 0, _, _, _, rfl, w_somePair (by decide +kernel),
      rfl⟩
  · exact ⟨(stnOf (fun s => { s with active := act1 }) run), 0, by decide +kernel⟩
  · exact ⟨⟨[], (atTime 100000 run)⟩, (atTime 100000 run), 0, rfl, by decide +kernel⟩
  · exact ⟨⟨[], run⟩, run, 0, rfl, by decide +kernel⟩
  · exact ⟨⟨[], (fabOf (fun f => { f with relocs := [reloc0 true] }) run)⟩, (fabOf (fun f =>
      { f with relocs := [reloc0 true] }) run), 0, _, rfl, w_some (by decide +kernel), by decide +kernel⟩
  · exact ⟨⟨[], (fabOf (fun f => { f with relocs := [reloc0 true] }) run)⟩, (fabOf (fun f =>
      { f with relocs := [reloc0 true] }) run), 1, rfl, by decide +kernel⟩

/-- For clauses of TileGates with hypotheses, states and operands that meet them (part 2 of 2). -/
theorem witness_TileGates_2 :
    (∃ (s : State) (h : Hw) (row : Fin 64) (x : Reloc),
      s.hw = h ∧
      (h.fab.relocs.find? (fun x => x.shift && x.die * 16 + x.row == row.val) = some x) ∧
      (h.fabricOn = false ∨ h.now < x.sinceStroke + 2)) ∧
    (∃ (s : State) (h : Hw) (l : Fin 1024) (pid : Fin 256) (x : Reloc),
      s.hw = h ∧
      (h.fab.relocs.find? (fun x => ! x.shift && x.logical == l.val && x.pid == pid.val) = some x) ∧
      (h.fabricOn = false ∨ h.now ≤ x.sinceStroke)) ∧
    (∃ (s : State) (h : Hw) (l : Fin 1024) (pid : Fin 256) (x : Reloc),
      s.hw = h ∧
      (h.fab.relocs.find? (fun x => ! x.shift && x.logical == l.val && x.pid == pid.val) = some x) ∧
      h.fabricOn = true ∧
      x.sinceStroke < h.now) ∧
    (∃ (s : State) (h : Hw) (l : Fin 1024) (pid : Fin 256),
      s.hw = h ∧
      (h.fab.relocs.find? (fun x => ! x.shift && x.logical == l.val && x.pid == pid.val) = none)) ∧
    (∃ (h a : Hw) (t : Nat) (o : Overrun), a = h.put (F.TILE_STATE_HOLD.blk t) 0 ∧ a.gateWindow t = none ∧ (a.tile
      t).incident 0 0 = some o) := by
  refine ⟨?_, ?_, ?_, ?_, ?_⟩
  · exact ⟨⟨[], (offed ((fabOf (fun f => { f with relocs := [reloc0 true] }) run)))⟩, (offed ((fabOf (fun f =>
      { f with relocs := [reloc0 true] }) run))), 0, _, rfl, w_some (by decide +kernel), by decide +kernel⟩
  · exact ⟨⟨[], (fabOf (fun f => { f with relocs := [reloc0 false] }) (atTime 50 run))⟩, (fabOf (fun f =>
      { f with relocs := [reloc0 false] }) (atTime 50 run)), 5, 1, _, rfl, w_some (by decide +kernel),
      by decide +kernel⟩
  · exact ⟨⟨[], (fabOf (fun f => { f with relocs := [reloc0 false] }) run)⟩, (fabOf (fun f =>
      { f with relocs := [reloc0 false] }) run), 5, 1, _, rfl, w_some (by decide +kernel), by decide +kernel⟩
  · exact ⟨⟨[], (fabOf (fun f => { f with relocs := [reloc0 false] }) run)⟩, (fabOf (fun f =>
      { f with relocs := [reloc0 false] }) run), 5, 0, rfl, by decide +kernel⟩
  · exact ⟨overran, _, 0, overrun0, rfl, by decide +kernel⟩

/-- For clauses of JobEvents with hypotheses, states and operands that meet them (part 1 of 3). -/
theorem witness_JobEvents :
    (∃ (s : State) (h : Hw) (pid : Fin 256) (act : Fin 1024) (j : Job) (m : Model),
      s.hw = h ∧
      h.actHead act.val = some j ∧
      h.runModel j = some m ∧
      h.fabricOn = true ∧
      j.pid = pid.val ∧
      j.begun = none ∧
      h.mayBegin j = true ∧
      h.actOn act.val = true ∧
      h.isShed pid.val = false ∧
      j.cancelled = none ∧
      j.fail = none ∧
      h.gateFired j = true ∧
      ((h.jobHandles j).filter (fun hd => ! h.resident pid.val hd) = []) ∧
      h.installingIn pid.val j.fragTag = false) ∧
    (∃ (s : State) (h : Hw) (pid : Fin 256) (act : Fin 1024) (j : Job) (xs : List Nat),
      s.hw = h ∧
      h.actHead act.val = some j ∧
      (xs = (h.jobHandles j).filter fun hd => ! h.resident pid.val hd) ∧
      h.fabricOn = true ∧
      j.pid = pid.val ∧
      j.begun = none ∧
      h.mayBegin j = true ∧
      h.actOn act.val = true ∧
      h.isShed pid.val = false ∧
      j.cancelled = none ∧
      j.fail = none ∧
      h.gateFired j = true ∧
      (xs ≠ [])) ∧
    (∃ (s : State) (h : Hw) (_pid : Fin 256) (act : Fin 1024),
      s.hw = h ∧
      (h.fabricOn = false ∨ h.actHead act.val = none)) ∧
    (∃ (s : State) (h : Hw) (pid : Fin 256) (act : Fin 1024) (j : Job),
      s.hw = h ∧
      h.actHead act.val = some j ∧
      (j.pid ≠ pid.val ∨ j.begun.isSome = true ∨ h.mayBegin j = false ∨ h.actOn act.val = false ∨ h.isShed pid.val =
      true ∨ j.cancelled.isSome = true ∨ j.fail.isSome = true ∨ h.gateFired j = false)) ∧
    (∃ (s : State) (h : Hw) (pid : Fin 256) (act : Fin 1024) (j : Job),
      s.hw = h ∧
      h.actHead act.val = some j ∧
      h.fabricOn = true ∧
      j.pid = pid.val ∧
      j.begun = none ∧
      h.mayBegin j = true ∧
      h.actOn act.val = true ∧
      h.isShed pid.val = false ∧
      j.cancelled = none ∧
      j.fail = none ∧
      h.gateFired j = true ∧
      ((h.jobHandles j).filter (fun hd => ! h.resident pid.val hd) = []) ∧
      h.installingIn pid.val j.fragTag = true) ∧
    (∃ (h : Hw) (j : Job) (m : Model) (x : Job),
      (x ∈ (h.beginJob j m).jobs) ∧
      x.pid = j.pid ∧
      x.queue = j.queue ∧
      x.num = j.num) ∧
    (∃ (s : State) (h : Hw) (pid : Fin 256) (seq : BitVec 48) (j : Job) (act : Nat) (dl : Nat) (c : Nat) (t : Nat)
      (m : Model),
      s.hw = h ∧
      h.jobBySeq pid.val seq.toNat = some j ∧
      h.jobAct j = some act ∧
      j.dl = some dl ∧
      h.runModel j = some m ∧
      (j.miss = some (c, t)) ∧
      h.sequencing = true ∧
      j.redo = none ∧
      j.mismatchedOnce = false ∧
      h.secondFailure j = false ∧
      t < h.now) ∧
    (∃ (s : State) (h : Hw) (pid : Fin 256) (seq : BitVec 48) (j : Job) (act : Nat) (dl : Nat) (c : Nat) (t : Nat)
      (m : Model),
      s.hw = h ∧
      h.jobBySeq pid.val seq.toNat = some j ∧
      h.jobAct j = some act ∧
      j.dl = some dl ∧
      h.runModel j = some m ∧
      (j.miss = some (c, t)) ∧
      h.sequencing = true ∧
      j.redo = none ∧
      j.mismatchedOnce = false ∧
      h.secondFailure j = false ∧
      h.now ≤ t) ∧
    (∃ (s : State) (h : Hw) (pid : Fin 256) (seq : BitVec 48) (j : Job) (act : Nat) (dl : Nat) (c : Nat) (c0 : Nat)
      (m : Model),
      s.hw = h ∧
      h.jobBySeq pid.val seq.toNat = some j ∧
      h.jobAct j = some act ∧
      j.dl = some dl ∧
      h.runModel j = some m ∧
      (h.project j m act dl (h.now + 1) (m.miles.length + 2) j.nextCp = (c0, some c)) ∧
      h.sequencing = true ∧
      j.redo = none ∧
      j.mismatchedOnce = false ∧
      h.secondFailure j = false ∧
      j.miss = none) ∧
    (∃ (s : State) (h : Hw) (pid : Fin 256) (seq : BitVec 48) (j : Job) (act : Nat) (dl : Nat) (c : Nat) (r : Nat)
      (m : Model) (k : Hw),
      s.hw = h ∧
      h.jobBySeq pid.val seq.toNat = some j ∧
      h.jobAct j = some act ∧
      j.dl = some dl ∧
      h.runModel j = some m ∧
      (h.project j m act dl (h.now + 1) (m.miles.length + 2) j.nextCp = (c, none)) ∧
      (k = h.modJob j.pid j.queue j.num fun x => { x with nextCp := c }) ∧
      Hw.cpRemaining j m c = some r ∧
      h.sequencing = true ∧
      j.redo = none ∧
      j.mismatchedOnce = false ∧
      h.secondFailure j = false ∧
      j.miss = none) ∧
    (∃ (s : State) (h : Hw) (pid : Fin 256) (seq : BitVec 48) (j : Job) (act : Nat) (dl : Nat) (c : Nat) (m :
      Model),
      s.hw = h ∧
      h.jobBySeq pid.val seq.toNat = some j ∧
      h.jobAct j = some act ∧
      j.dl = some dl ∧
      h.runModel j = some m ∧
      (h.project j m act dl (h.now + 1) (m.miles.length + 2) j.nextCp = (c, none)) ∧
      h.sequencing = true ∧
      j.redo = none ∧
      j.mismatchedOnce = false ∧
      h.secondFailure j = false ∧
      j.miss = none ∧
      Hw.cpRemaining j m c = none) ∧
    (∃ (s : State) (h : Hw) (pid : Fin 256) (seq : BitVec 48) (j : Job),
      s.hw = h ∧
      h.jobBySeq pid.val seq.toNat = some j ∧
      (j.dl = none ∨ h.jobAct j = none ∨ h.runModel j = none ∨ j.redo.isSome = true ∨ j.mismatchedOnce = true ∨
      h.secondFailure j = true)) := by
  refine ⟨?_, ?_, ?_, ?_, ?_, ?_, ?_, ?_, ?_, ?_, ?_, ?_⟩
  · exact ⟨⟨[], (withJob (job0) (model0))⟩, (withJob (job0) (model0)), 1, 0, _, _, rfl, w_some (by decide +kernel),
      w_some (by decide +kernel), by decide +kernel⟩
  · exact ⟨⟨[], (withJob (job0) ({ model0 with state := 0 }))⟩, (withJob (job0) ({ model0 with state := 0 })), 1, 0,
      _, _, rfl, w_some (by decide +kernel), rfl, by decide +kernel⟩
  · exact ⟨⟨[], run⟩, run, 0, 0, rfl, by decide +kernel⟩
  · exact ⟨⟨[], (withJob (job0) ({ model0 with state := 0 }))⟩, (withJob (job0) ({ model0 with state := 0 })), 0, 0,
      _, rfl, w_some (by decide +kernel), by decide +kernel⟩
  · exact ⟨⟨[], { (withJob job0 model0) with models := [(64, model0), (65, { model0 with state := 1 })] }⟩,
      { (withJob job0 model0) with models := [(64, model0), (65, { model0 with state := 1 })] }, 1, 0, _, rfl,
      w_some (by decide +kernel), by decide +kernel⟩
  · exact ⟨(withJob (job0) (model0)), job0, model0, ((withJob job0 model0).beginJob job0 model0).jobs.getD 0 job0,
      by decide +kernel⟩
  · exact ⟨⟨[], (withJob ({ job0 with miss := some (0, 50), begun := some 50 }) (model0))⟩, (withJob
      ({ job0 with miss := some (0, 50), begun := some 50 }) (model0)), 1, 1, _, _, _, _, _, _, rfl, w_some
      (by decide +kernel), w_some (by decide +kernel), w_some (by decide +kernel), w_some (by decide +kernel),
      w_somePair (by decide +kernel), by decide +kernel⟩
  · exact ⟨⟨[], (withJob ({ job0 with miss := some (0, 150), begun := some 50 }) (model0))⟩, (withJob
      ({ job0 with miss := some (0, 150), begun := some 50 }) (model0)), 1, 1, _, _, _, _, _, _, rfl, w_some
      (by decide +kernel), w_some (by decide +kernel), w_some (by decide +kernel), w_some (by decide +kernel),
      w_somePair (by decide +kernel), by decide +kernel⟩
  · exact ⟨⟨[], (withJob ({ job0 with dl := some 50, begun := some 50 }) (model0))⟩, (withJob
      ({ job0 with dl := some 50, begun := some 50 }) (model0)), 1, 1, _, _, _, _, _, _, rfl, w_some
      (by decide +kernel), w_some (by decide +kernel), w_some (by decide +kernel), w_some (by decide +kernel),
      w_someSnd (by decide +kernel), by decide +kernel⟩
  · exact ⟨⟨[], (withJob ({ job0 with dl := some 5000, begun := some 50 }) (model0))⟩, (withJob
      ({ job0 with dl := some 5000, begun := some 50 }) (model0)), 1, 1, _, _, _, _, _, _, _, rfl, w_some
      (by decide +kernel), w_some (by decide +kernel), w_some (by decide +kernel), w_some (by decide +kernel), w_snd
      (by decide +kernel), rfl, w_some (by decide +kernel), by decide +kernel⟩
  · exact ⟨⟨[], (withJob ({ job0 with dl := some 1000000, begun := some 50, nextCp := 5 }) (model0))⟩, (withJob
      ({ job0 with dl := some 1000000, begun := some 50, nextCp := 5 }) (model0)), 1, 1, _, _, _, _, _, rfl, w_some
      (by decide +kernel), w_some (by decide +kernel), w_some (by decide +kernel), w_some (by decide +kernel), w_snd
      (by decide +kernel), by decide +kernel⟩
  · exact ⟨⟨[], (withJob { job0 with dl := none } model0)⟩, (withJob { job0 with dl := none } model0), 1, 1, _, rfl,
      w_some (by decide +kernel), by decide +kernel⟩

/-- For clauses of JobEvents with hypotheses, states and operands that meet them (part 2 of 3). -/
theorem witness_JobEvents_2 :
    (∃ (s : State) (h : Hw) (pid : Fin 256) (seq : BitVec 48),
      s.hw = h ∧
      (h.sequencing = false ∨ h.jobBySeq pid.val seq.toNat = none)) ∧
    (∃ (h : Hw) (b : Stencil) (j : Job) (act : Nat) (dl : Nat) (_cp : Nat) (m : Model),
      ((h.inBank b).jobAct j = some act) ∧
      j.dl = some dl ∧
      h.model j.pid j.handle = some m ∧
      (j.under = true ∨ m.hasUndercoat = false)) ∧
    (∃ (h : Hw) (b : Stencil) (j : Job) (act : Nat) (dl : Nat) (_cp : Nat) (m : Model) (u : Model),
      ((h.inBank b).jobAct j = some act) ∧
      j.dl = some dl ∧
      h.model j.pid j.handle = some m ∧
      h.model j.pid m.ucHandle = some u ∧
      j.under = false ∧
      m.hasUndercoat = true) ∧
    (∃ (s : State) (h : Hw) (pid : Fin 256) (seq : BitVec 48) (_copy : Fin 2) (_k : BitVec 32) (_die : Fin 4),
      s.hw = h ∧
      (h.fabricOn = false ∨ h.jobBySeq pid.val seq.toNat = none)) ∧
    (∃ (s : State) (h : Hw) (pid : Fin 256) (seq : BitVec 48) (copy : Fin 2) (k : BitVec 32) (die : Fin 4) (j :
      Job),
      s.hw = h ∧
      h.jobBySeq pid.val seq.toNat = some j ∧
      ((h.runModel j).any (·.duplex) = false ∨ j.begun = none ∨ k.toNat < j.matched ∨ h.diePassed j copy.val die.val
      k.toNat = false ∨ (j.reportsOf copy.val k.toNat).any (fun r => r.2.1 == die.val) = true)) ∧
    (∃ (s : State) (h : Hw) (pid : Fin 256) (seq : BitVec 48) (copy : Fin 2) (k : BitVec 32) (die : Fin 4) (j :
      Job),
      s.hw = h ∧
      h.jobBySeq pid.val seq.toNat = some j ∧
      h.fabricOn = true ∧
      ((h.runModel j).any (·.duplex) = true) ∧
      j.begun.isSome = true ∧
      j.matched ≤ k.toNat ∧
      h.diePassed j copy.val die.val k.toNat = true ∧
      ((j.reportsOf copy.val k.toNat).any (fun r => r.2.1 == die.val) = false)) ∧
    (∃ (h : Hw) (pid : Nat) (seq : Nat) (_n : Nat) (a : Nat) (b : Nat) (j : Job),
      h.jobBySeq pid seq = some j ∧
      h.copyTotal j 0 j.matched = some a ∧
      h.copyTotal j 1 j.matched = some b ∧
      j.redo = none) ∧
    (∃ (s : State) (h : Hw) (pid : Fin 256) (seq : BitVec 48) (j : Job) (c : Nat),
      s.hw = h ∧
      h.jobBySeq pid.val seq.toNat = some j ∧
      h.fabricOn = true ∧
      j.redo = none ∧
      c < 2 ∧
      ((h.copyTotal j c j.matched).isSome = true) ∧
      ((j.reportsOf c j.matched).all (fun r => decide (r.2.2.2.2.2 + 2100 ≤ h.now)) = true) ∧
      (h.copyTotal j (1 - c) j.matched = none)) ∧
    (∃ (s : State) (h : Hw) (pid : Fin 256) (seq : BitVec 48),
      s.hw = h ∧
      (h.fabricOn = false ∨ h.jobBySeq pid.val seq.toNat = none)) ∧
    (∃ (s : State) (h : Hw) (pid : Fin 256) (seq : BitVec 48) (j : Job),
      s.hw = h ∧
      h.jobBySeq pid.val seq.toNat = some j ∧
      (j.redo.isSome = true ∨ (∀ c, c < 2 → ¬ ((h.copyTotal j c j.matched).isSome = true ∧ (j.reportsOf c
      j.matched).all (fun r => decide (r.2.2.2.2.2 + 2100 ≤ h.now)) = true ∧ h.copyTotal j (1 - c) j.matched =
      none)))) ∧
    (∃ (s : State) (h : Hw) (pid : Fin 256) (hd : Fin 64) (m : Model) (k : Hw) (segs : List (Nat × LoadSeg)),
      s.hw = h ∧
      h.model pid.val hd.val = some m ∧
      (segs = (m.ways.getD m.way []).flatMap fun e => match h.physFor pid.val e.logical with | some t => e.loads.map fun l => (t, l) | none => []) ∧
      h.loadAll pid.val m.va segs = .ok k ∧
      h.fabricOn = true ∧
      m.state = 1 ∧
      m.loadBytes ≤ m.installed) ∧
    (∃ (s : State) (h : Hw) (pid : Fin 256) (hd : Fin 64) (m : Model) (k : Hw) (a : Nat) (e : Nat) (segs : List (Nat
      × LoadSeg)),
      s.hw = h ∧
      h.model pid.val hd.val = some m ∧
      (segs = (m.ways.getD m.way []).flatMap fun e => match h.physFor pid.val e.logical with | some t => e.loads.map fun l => (t, l) | none => []) ∧
      (h.loadAll pid.val m.va segs = .error (a, e, k)) ∧
      h.fabricOn = true ∧
      m.state = 1 ∧
      m.loadBytes ≤ m.installed) := by
  refine ⟨?_, ?_, ?_, ?_, ?_, ?_, ?_, ?_, ?_, ?_, ?_, ?_⟩
  · exact ⟨⟨[], (withJob ({ job0 with miss := some (0, 50), begun := some 50 }) (model0))⟩, (withJob
      ({ job0 with miss := some (0, 50), begun := some 50 }) (model0)), 0, 0, rfl, by decide +kernel⟩
  · exact ⟨(withJob (job0) (model0)), act1, job0, _, _, 0, _, w_some (by decide +kernel), w_some
      (by decide +kernel), w_some (by decide +kernel), by decide +kernel⟩
  · exact
      ⟨{ (withJob job0 model0) with models := [(64, { model0 with hasUndercoat := true }), (65, { model0 with isUndercoat := true })] },
      act1, job0, _, _, 0, _, _, w_some (by decide +kernel), w_some (by decide +kernel), w_some (by decide +kernel),
      w_some (by decide +kernel), by decide +kernel⟩
  · exact ⟨⟨[], (withJob ({ job0 with begun := some 50, progress := [(0, 1), (1280, 1)], reports := [] })
      (twoCopies))⟩, (withJob ({ job0 with begun := some 50, progress := [(0, 1), (1280, 1)], reports := [] })
      (twoCopies)), 0, 0, 0, 0, 0, rfl, by decide +kernel⟩
  · exact ⟨⟨[], (withJob ({ job0 with begun := some 50, progress := [(0, 1), (1280, 1)], reports := [] })
      (twoCopies))⟩, (withJob ({ job0 with begun := some 50, progress := [(0, 1), (1280, 1)], reports := [] })
      (twoCopies)), 1, 1, 0, 0, 1, _, rfl, w_some (by decide +kernel), by decide +kernel⟩
  · exact ⟨⟨[], (withJob ({ job0 with begun := some 50, progress := [(0, 1), (1280, 1)], reports := [] })
      (twoCopies))⟩, (withJob ({ job0 with begun := some 50, progress := [(0, 1), (1280, 1)], reports := [] })
      (twoCopies)), 1, 1, 0, 0, 0, _, rfl, w_some (by decide +kernel), by decide +kernel⟩
  · exact ⟨(withJob
      ({ job0 with begun := some 50, progress := [(0, 1), (1280, 1)], reports := [(0, 0, 0, 1, 7, 100), (1, 0, 0, 1, 7, 100)] })
      (twoCopies)), 1, 1, 0, _, _, _, w_some (by decide +kernel), w_some (by decide +kernel), w_some
      (by decide +kernel), by decide +kernel⟩
  · exact ⟨⟨[], (atTime 5000 (withJob
      ({ job0 with begun := some 50, progress := [(0, 1), (1280, 1)], reports := [(0, 0, 0, 1, 7, 100)] })
      twoCopies))⟩, (atTime 5000 (withJob
      ({ job0 with begun := some 50, progress := [(0, 1), (1280, 1)], reports := [(0, 0, 0, 1, 7, 100)] })
      twoCopies)), 1, 1, _, 0, rfl, w_some (by decide +kernel), by decide +kernel⟩
  · exact ⟨⟨[], (atTime 5000 (withJob
      ({ job0 with begun := some 50, progress := [(0, 1), (1280, 1)], reports := [(0, 0, 0, 1, 7, 100)] })
      twoCopies))⟩, (atTime 5000 (withJob
      ({ job0 with begun := some 50, progress := [(0, 1), (1280, 1)], reports := [(0, 0, 0, 1, 7, 100)] })
      twoCopies)), 0, 0, rfl, by decide +kernel⟩
  · exact ⟨⟨[], (withJob ({ job0 with redo := some 5 }) (model0))⟩, (withJob ({ job0 with redo := some 5 })
      (model0)), 1, 1, _, rfl, w_some (by decide +kernel), Or.inl (by decide +kernel)⟩
  · exact ⟨⟨[], (withJob (job0) ({ model0 with state := 1 }))⟩, (withJob (job0) ({ model0 with state := 1 })), 1, 0,
      _, _, _, rfl, w_some (by decide +kernel), rfl, w_ok (by decide +kernel), by decide +kernel⟩
  · exact ⟨⟨[], (withJob job0
      { model0 with state := 1, va := 0x200000, ways := [[{ entryOf 0 0 with loads := [⟨0, 0, 64⟩] }]] })⟩, (withJob
      job0 { model0 with state := 1, va := 0x200000, ways := [[{ entryOf 0 0 with loads := [⟨0, 0, 64⟩] }]] }), 1,
      0, _, _, _, _, _, rfl, w_some (by decide +kernel), rfl, w_error (by decide +kernel), by decide +kernel⟩

/-- For clauses of JobEvents with hypotheses, states and operands that meet them (part 3 of 3). -/
theorem witness_JobEvents_3 :
    (∃ (s : State) (h : Hw) (pid : Fin 256) (hd : Fin 64),
      s.hw = h ∧
      (h.fabricOn = false ∨ h.model pid.val hd.val = none)) ∧
    (∃ (s : State) (h : Hw) (pid : Fin 256) (hd : Fin 64) (m : Model),
      s.hw = h ∧
      h.model pid.val hd.val = some m ∧
      h.fabricOn = true ∧
      (m.state ≠ 1 ∨ m.installed < m.loadBytes)) ∧
    (∃ (s : State) (h : Hw) (n : BitVec 32),
      s.hw = h ∧
      h.fabricOn = true ∧
      h.sheetExists n.toNat = true ∧
      ((h.sheet n.toNat).owner = 0) ∧
      ((h.sheet n.toNat).gaz = false) ∧
      ((h.sheet n.toNat).reserved = false) ∧
      ((h.sheet n.toNat).ref = 0) ∧
      ((h.sheet n.toNat).zeroed = false)) ∧
    (∃ (s : State) (h : Hw) (n : BitVec 32),
      s.hw = h ∧
      (h.fabricOn = false ∨ h.sheetExists n.toNat = false ∨ (h.sheet n.toNat).owner ≠ 0 ∨ (h.sheet n.toNat).gaz =
      true ∨ (h.sheet n.toNat).reserved = true ∨ (h.sheet n.toNat).ref ≠ 0 ∨ (h.sheet n.toNat).zeroed = true)) := by
  refine ⟨?_, ?_, ?_, ?_⟩
  · exact ⟨⟨[], (withJob (job0) ({ model0 with state := 1 }))⟩, (withJob (job0) ({ model0 with state := 1 })), 0, 0,
      rfl, by decide +kernel⟩
  · exact ⟨⟨[], (withJob (job0) (model0))⟩, (withJob (job0) (model0)), 1, 0, _, rfl, w_some (by decide +kernel),
      by decide +kernel⟩
  · exact ⟨⟨[], (cfgOf (fun c => { c with nPlain := 4 })
      { run with kv := { run.kv with sheets := [(1, { SheetRec.free with zeroed := false })] } })⟩, (cfgOf (fun c =>
      { c with nPlain := 4 })
      { run with kv := { run.kv with sheets := [(1, { SheetRec.free with zeroed := false })] } }), 1, rfl,
      by decide +kernel⟩
  · exact ⟨⟨[], run⟩, run, 1, rfl, by decide +kernel⟩

/-- For clauses of PacketStreamsAndFusion with hypotheses, states and operands that meet them (part 1 of 5). -/
theorem witness_PacketStreamsAndFusion :
    (∃ (st : State) (q : QRef) (p : Packet) (qu : Queue) (c : Cmd) (b : Hw) (n : Nat) (k : Hw) (x : Stream),
      (Acting st.hw specStreamOpen q p qu c b) ∧
      (b.takeKept c = (some (.stream n x), k))) ∧
    (∃ (st : State) (q : QRef) (p : Packet) (qu : Queue) (c : Cmd) (b : Hw) (j : Hw) (k : Hw),
      (Acting st.hw specStreamOpen q p qu c b) ∧
      (b.takeKept c = (none, j)) ∧
      (RecordEnds j c (c.f 24 6) 64 k)) ∧
    (∃ (b : Hw) (j : Hw) (k : Hw) (c : Cmd) (bs : List Byte),
      (b.takeKept c = (none, j)) ∧
      (j.cmdRead c.pid (c.f 24 6) 64 = (.ok (bs, false), k))) ∧
    (∃ (h : Hw) (c : Cmd) (x : Stream),
      h.readStream c = some x) ∧
    (∃ (st : State) (q : QRef) (p : Packet) (qu : Queue) (c : Cmd) (b : Hw),
      (Acting st.hw specStreamClose q p qu c b)) := by
  refine ⟨?_, ?_, ?_, ?_, ?_⟩
  · exact ⟨⟨[], ((puts [(F.SOB_OWNER_OWNER, 2^32), (F.CAM_CTRL_PID.blk 0, 1)] served).store 0x110000 (putField
      (putField (zeros 64) 2 2 300) 20 2 4) false)⟩, Q1, zeros 64, queueAt 0, _, _, _, _, _, acting_of
      (by decide +kernel), w_stream (by decide +kernel)⟩
  · exact ⟨⟨[], (puts [(F.SOB_OWNER_OWNER, 2^32), (F.CAM_CTRL_PID.blk 0, 1)] served)⟩, Q1, (pk [(26, 16)]), queueAt
      0, _, _, _, _, acting_of (by decide +kernel), w_fst (by decide +kernel), recEnd_of (by decide +kernel)⟩
  · exact ⟨(stainAt 0x118000 (puts [(F.SOB_OWNER_OWNER, 2^32), (F.CAM_CTRL_PID.blk 0, 1)] served)), _, _, cmd0 none,
      _, w_fst (by decide +kernel), w_okFlag (by decide +kernel) (by decide +kernel)⟩
  · exact ⟨served, cmd0 none, _, w_some (by decide +kernel)⟩
  · exact ⟨⟨[], (withStream stream0)⟩, Q, zeros 64, queueAt 0, _, _, acting_of (by decide +kernel)⟩

/-- For clauses of PacketStreamsAndFusion with hypotheses, states and operands that meet them (part 2 of 5). -/
theorem witness_PacketStreamsAndFusion_2 :
    (∃ (h : Hw) (k : Nat) (n : Nat) (w : IngWrite),
      ((h.stream k).isSome = true) ∧
      (w ∈ (h.closeStream k).ing.share.getD [] n)) ∧
    (∃ (st : State) (q : QRef) (p : Packet) (qu : Queue) (c : Cmd) (b : Hw),
      (Acting st.hw specStreamQuery q p qu c b)) ∧
    (∃ (h : Hw) (k : Nat),
      h.stream k = none) ∧
    (∃ (st : State) (q : QRef) (p : Packet) (qu : Queue) (c : Cmd) (b : Hw) (x : Stream) (t : TrigRow),
      (Acting st.hw specTriggerSet q p qu c b) ∧
      (b.stream (streamKey c.pid (c.f 16 1)) = some x) ∧
      ((trigsOf b.stn.active.trigs x.port)[c.f 17 1]? = some t)) ∧
    (∃ (b : Hw) (c : Cmd),
      (b.stream (streamKey c.pid (c.f 16 1)) = none)) := by
  refine ⟨?_, ?_, ?_, ?_, ?_⟩
  · exact ⟨(ingOf (fun g =>
      { g with share := [(0, [{ key := 0, n := 0, va := 0, data := [], stain := false }, { key := 5, n := 0, va := 0, data := [], stain := false }])] })
      (withStream stream0)), 0, 0, { key := 5, n := 0, va := 0, data := [], stain := false }, by decide +kernel⟩
  · exact ⟨⟨[], served⟩, Q, zeros 64, queueAt 0, _, _, acting_of (by decide +kernel)⟩
  · exact ⟨(ingOf (fun g =>
      { g with share := [(0, [{ key := 0, n := 0, va := 0, data := [], stain := false }, { key := 5, n := 0, va := 0, data := [], stain := false }])] })
      (withStream stream0)), 1, by decide +kernel⟩
  · exact ⟨⟨[], (ingOf (fun g => { g with streams := [(0, stream0)] }) trig0)⟩, Q, zeros 64, queueAt 0, _, _, _, _,
      acting_of (by decide +kernel), w_some (by decide +kernel), w_some (by decide +kernel)⟩
  · exact ⟨served, cmd0 none, by decide +kernel⟩

/-- For clauses of PacketStreamsAndFusion with hypotheses, states and operands that meet them (part 3 of 5). -/
theorem witness_PacketStreamsAndFusion_3 :
    (∃ (st : State) (q : QRef) (p : Packet) (qu : Queue) (c : Cmd) (b : Hw) (x : Stream),
      (Acting st.hw specTriggerSet q p qu c b) ∧
      (b.stream (streamKey c.pid (c.f 16 1)) = some x) ∧
      ((trigsOf b.stn.active.trigs x.port)[c.f 17 1]? = none)) ∧
    (∃ (st : State) (q : QRef) (p : Packet) (qu : Queue) (c : Cmd) (b : Hw),
      (Acting st.hw specFusConfig q p qu c b) ∧
      (bit (c.f 17 1) 0 = true)) ∧
    (∃ (st : State) (q : QRef) (p : Packet) (qu : Queue) (c : Cmd) (b : Hw) (bs : List Byte) (k : Hw),
      (Acting st.hw specFusConfig q p qu c b) ∧
      (b.cmdRead c.pid (c.f 24 6) 1024 = (.ok (bs, false), k)) ∧
      (bit (c.f 17 1) 0 = false)) ∧
    (∃ (st : State) (q : QRef) (p : Packet) (qu : Queue) (c : Cmd) (b : Hw) (k : Hw),
      (Acting st.hw specFusConfig q p qu c b) ∧
      (RecordEnds b c (c.f 24 6) 1024 k) ∧
      (bit (c.f 17 1) 0 = false)) ∧
    (∃ (st : State) (q : QRef) (p : Packet) (qu : Queue) (c : Cmd) (b : Hw),
      (Acting st.hw specFusBatch q p qu c b)) := by
  refine ⟨?_, ?_, ?_, ?_, ?_⟩
  · exact ⟨⟨[], (ingOf (fun g => { g with streams := [(0, stream0)] }) trig0)⟩, Q, (pk [(17, 5)]), queueAt 0, _, _,
      _, acting_of (by decide +kernel), w_some (by decide +kernel), by decide +kernel⟩
  · exact ⟨⟨[], fusRun⟩, Q, (pk [(17, 1), (20, 1)]), queueAt 0, _, _, acting_of (by decide +kernel),
      by decide +kernel⟩
  · exact ⟨⟨[], fusRun⟩, Q, (pk [(20, 1)]), queueAt 0, _, _, _, _, acting_of (by decide +kernel), w_okFlag
      (by decide +kernel) (by decide +kernel), by decide +kernel⟩
  · exact ⟨⟨[], fusRun⟩, Q, (pk [(26, 16), (20, 1)]), queueAt 0, _, _, _, acting_of (by decide +kernel), recEnd_of
      (by decide +kernel), by decide +kernel⟩
  · exact ⟨⟨[], fusRun⟩, Q1, (pk [(20, 1)]), queueAt 0, _, _, acting_of (by decide +kernel)⟩

/-- For clauses of PacketStreamsAndFusion with hypotheses, states and operands that meet them (part 4 of 5). -/
theorem witness_PacketStreamsAndFusion_4 :
    (∃ (st : State) (q : QRef) (p : Packet) (qu : Queue) (c : Cmd) (b : Hw) (x : FusSet) (rs : List (List Byte ×
      Bool)) (ps : List (Nat × Nat)),
      (Acting st.hw specFusRead q p qu c b) ∧
      (b.fusSet c.pid (c.f 16 1) = some x) ∧
      (rs = (x.tracks.filter fun e => c.f 17 1 == 0 || e.2.confirmed).map fun e => (e.2.record e.1 (b2n
      e.2.confirmed) (x.lastValid.getD 0) (x.q 8) x.n false none, e.2.stained)) ∧
      (b.mem.translateRun c.pid (c.f 24 6) (64 + 512 * rs.length) .wr true = .ok ps)) ∧
    (∃ (st : State) (q : QRef) (p : Packet) (qu : Queue) (c : Cmd) (b : Hw) (x : FusSet) (n : Nat) (a : Nat) (e :
      Nat),
      (Acting st.hw specFusRead q p qu c b) ∧
      (b.fusSet c.pid (c.f 16 1) = some x) ∧
      (n = (x.tracks.filter fun e => c.f 17 1 == 0 || e.2.confirmed).length) ∧
      (b.mem.translateRun c.pid (c.f 24 6) (64 + 512 * n) .wr true = .error (a, e))) ∧
    (∃ (b : Hw) (c : Cmd),
      (b.fusSet c.pid (c.f 16 1) = none)) ∧
    (∃ (b : Hw) (c : Cmd),
      (b.fusSet c.pid (c.f 16 1) = none)) ∧
    (∃ (st : State) (q : QRef) (p : Packet) (qu : Queue) (c : Cmd) (b : Hw) (x : FusSet) (e : Nat × FusTrack),
      (Acting st.hw specFusDropTrack q p qu c b) ∧
      (b.fusSet c.pid (c.f 16 1) = some x) ∧
      (x.tracks.find? (fun e => e.2.id == c.f 20 4) = some e)) := by
  refine ⟨?_, ?_, ?_, ?_, ?_⟩
  · exact ⟨⟨[], fusRun⟩, Q, zeros 64, queueAt 0, _, _, _, _, _, acting_of (by decide +kernel), w_some
      (by decide +kernel), rfl, w_ok (by decide +kernel)⟩
  · exact ⟨⟨[], fusRun⟩, Q, (pk [(26, 16)]), queueAt 0, _, _, _, _, _, _, acting_of (by decide +kernel), w_some
      (by decide +kernel), rfl, w_errorPair (by decide +kernel)⟩
  · exact ⟨served, cmd0 none, by decide +kernel⟩
  · exact ⟨served, cmd0 none, by decide +kernel⟩
  · exact ⟨⟨[], fusRun⟩, Q, (pk [(20, 1)]), queueAt 0, _, _, _, _, acting_of (by decide +kernel), w_some
      (by decide +kernel), w_some (by decide +kernel)⟩

/-- For clauses of PacketStreamsAndFusion with hypotheses, states and operands that meet them (part 5 of 5). -/
theorem witness_PacketStreamsAndFusion_5 :
    ∃ (st : State) (q : QRef) (p : Packet) (qu : Queue) (c : Cmd) (b : Hw) (x : FusSet),
    (Acting st.hw specFusDropTrack q p qu c b) ∧
    (b.fusSet c.pid (c.f 16 1) = some x) ∧
    (x.tracks.find? (fun e => e.2.id == c.f 20 4) = none) :=
  ⟨⟨[], fusRun⟩, Q, (pk [(20, 2)]), queueAt 0, _, _, _, acting_of (by decide +kernel), w_some (by decide +kernel),
    by decide +kernel⟩

/-- For clauses of CameraLinksAndTriggers with hypotheses, states and operands that meet them (part 1 of 2). -/
theorem witness_CameraLinksAndTriggers :
    (∃ (s : State) (h : Hw) (p : Fin 24) (m : Nat) (a : Hw),
      s.hw = h ∧
      (m = h.get (F.CAM_STATUS_MAP.blk p.val)) ∧
      (a = if (h.cam p.val).armed = true then h.noFrame p.val else h) ∧
      h.fabricOn = true ∧
      ((h.stn.active.trigs.any fun t => t.port == p.val && t.offset + t.cur == h.coatPos) = true) ∧
      ((h.cam p.val).lastTrig ≠ some h.now) ∧
      m ≠ 31) ∧
    (∃ (s : State) (h : Hw) (p : Fin 24),
      s.hw = h ∧
      h.fabricOn = true ∧
      ((h.stn.active.trigs.any fun t => t.port == p.val && t.offset + t.cur == h.coatPos) = true) ∧
      ((h.cam p.val).lastTrig ≠ some h.now) ∧
      (h.get (F.CAM_STATUS_MAP.blk p.val) = 31) ∧
      h.camUp p.val = false) ∧
    (∃ (s : State) (h : Hw) (p : Fin 24),
      s.hw = h ∧
      h.fabricOn = true ∧
      ((h.stn.active.trigs.any fun t => t.port == p.val && t.offset + t.cur == h.coatPos) = true) ∧
      ((h.cam p.val).lastTrig ≠ some h.now) ∧
      (h.get (F.CAM_STATUS_MAP.blk p.val) = 31) ∧
      h.camUp p.val = true) ∧
    (∃ (s : State) (h : Hw) (p : Fin 24),
      s.hw = h ∧
      (h.fabricOn = false ∨ (h.stn.active.trigs.any fun t => t.port == p.val && t.offset + t.cur == h.coatPos) =
      false ∨ (h.cam p.val).lastTrig = some h.now)) ∧
    (∃ (s : State) (h : Hw) (p : Fin 24) (q : Nat) (t : Nat) (a : Hw),
      s.hw = h ∧
      ((h.cam p.val).lowAt = some (q, t)) ∧
      (a = h.modCam p.val fun x => { x with lowAt := none }) ∧
      h.fabricOn = true ∧
      t ≤ h.now) ∧
    (∃ (s : State) (h : Hw) (p : Fin 24),
      s.hw = h ∧
      (∀ q t, (h.cam p.val).lowAt = some (q, t) → h.fabricOn = false ∨ h.now < t)) ∧
    (∃ (s : State) (h : Hw) (q : Fin 24) (gear : Fin 6) (hi : Nat) (lo : Nat) (a : Hw) (b : Hw),
      s.hw = h ∧
      (h.camGears q.val = (hi, lo)) ∧
      (a = ((h.put (F.CAM_STATUS_LINK.blk q.val) 2).put (F.CAM_STATUS_GEAR_NOW.blk q.val) gear.val).modCam q.val fun
      x => { x with idRead := 0 }) ∧
      (b = if gear.val < hi then (a.event (srcCam q.val) 0x0503 0 gear.val).healthAdd (partPort q.val) inRetrain 1
      else a) ∧
      h.fabricOn = true ∧
      (h.get (F.CAM_STATUS_LINK.blk q.val) = 1) ∧
      lo ≤ gear.val ∧
      gear.val ≤ hi) ∧
    (∃ (s : State) (h : Hw) (q : Fin 24) (gear : Fin 6) (hi : Nat) (lo : Nat),
      s.hw = h ∧
      (h.camGears q.val = (hi, lo)) ∧
      (h.fabricOn = false ∨ gear.val < lo ∨ hi < gear.val ∨ h.get (F.CAM_STATUS_LINK.blk q.val) ≠ 1)) ∧
    (∃ (s : State) (h : Hw) (q : Fin 24) (hi : Nat) (lo : Nat),
      s.hw = h ∧
      (h.camGears q.val = (hi, lo)) ∧
      h.fabricOn = true ∧
      (h.get (F.CAM_STATUS_LINK.blk q.val) = 1) ∧
      (20000 * (hi - lo + 1) ≤ h.now - (h.cam q.val).trainAt)) ∧
    (∃ (s : State) (h : Hw) (q : Fin 24),
      s.hw = h ∧
      h.fabricOn = true ∧
      (h.get (F.CAM_STATUS_LINK.blk q.val) = 3) ∧
      (100000 ≤ h.now - (h.cam q.val).trainAt)) ∧
    (∃ (s : State) (h : Hw) (q : Fin 24) (hi : Nat) (lo : Nat),
      s.hw = h ∧
      (h.camGears q.val = (hi, lo)) ∧
      (h.fabricOn = false ∨ ¬ (h.get (F.CAM_STATUS_LINK.blk q.val) = 1 ∧ 20000 * (hi - lo + 1) ≤ h.now - (h.cam
      q.val).trainAt) ∧ ¬ (h.get (F.CAM_STATUS_LINK.blk q.val) = 3 ∧ 100000 ≤ h.now - (h.cam q.val).trainAt))) ∧
    (∃ (s : State) (h : Hw) (q : Fin 24) (_id : Option (List Byte)),
      s.hw = h ∧
      h.fabricOn = true ∧
      h.camUp q.val = true ∧
      (h.on (F.CAM_CTRL_IDCHK.blk q.val) = true)) := by
  refine ⟨?_, ?_, ?_, ?_, ?_, ?_, ?_, ?_, ?_, ?_, ?_, ?_⟩
  · exact ⟨⟨[], trig0⟩, trig0, 0, _, _, rfl, rfl, rfl, by decide +kernel⟩
  · exact ⟨⟨[], (puts [(F.CAM_STATUS_LINK.blk 0, 0), (F.CAM_STATUS_MAP.blk 0, 31)] trig0)⟩, (puts
      [(F.CAM_STATUS_LINK.blk 0, 0), (F.CAM_STATUS_MAP.blk 0, 31)] trig0), 0, rfl, by decide +kernel⟩
  · exact ⟨⟨[], (puts [(F.CAM_STATUS_MAP.blk 0, 31)] trig0)⟩, (puts [(F.CAM_STATUS_MAP.blk 0, 31)] trig0), 0, rfl,
      by decide +kernel⟩
  · exact ⟨⟨[], (puts [(F.CAM_STATUS_LINK.blk 0, 0), (F.CAM_STATUS_MAP.blk 0, 31)] trig0)⟩, (puts
      [(F.CAM_STATUS_LINK.blk 0, 0), (F.CAM_STATUS_MAP.blk 0, 31)] trig0), 1, rfl, by decide +kernel⟩
  · exact ⟨⟨[], (camWith fun x => { x with lowAt := some (0, 50) })⟩, (camWith fun x =>
      { x with lowAt := some (0, 50) }), 0, _, _, _, rfl, w_somePair (by decide +kernel), rfl, by decide +kernel⟩
  · exact ⟨⟨[], camRun⟩, camRun, 0, rfl, fun _ _ e => w_vacant (by decide +kernel) e⟩
  · exact ⟨⟨[], (camRun.put (F.CAM_STATUS_LINK.blk 0) 1)⟩, (camRun.put (F.CAM_STATUS_LINK.blk 0) 1), 0, 1, _, _, _,
      _, rfl, w_pair, rfl, rfl, by decide +kernel⟩
  · exact ⟨⟨[], (camRun.put (F.CAM_STATUS_LINK.blk 0) 1)⟩, (camRun.put (F.CAM_STATUS_LINK.blk 0) 1), 0, 0, _, _,
      rfl, w_pair, by decide +kernel⟩
  · exact ⟨⟨[], (atTime 200000 (camRun.put (F.CAM_STATUS_LINK.blk 0) 1))⟩, (atTime 200000 (camRun.put
      (F.CAM_STATUS_LINK.blk 0) 1)), 0, _, _, rfl, w_pair, by decide +kernel⟩
  · exact ⟨⟨[], (atTime 200000 (camRun.put (F.CAM_STATUS_LINK.blk 0) 3))⟩, (atTime 200000 (camRun.put
      (F.CAM_STATUS_LINK.blk 0) 3)), 0, rfl, by decide +kernel⟩
  · exact ⟨⟨[], (atTime 200000 (camRun.put (F.CAM_STATUS_LINK.blk 0) 1))⟩, (atTime 200000 (camRun.put
      (F.CAM_STATUS_LINK.blk 0) 1)), 1, _, _, rfl, w_pair, by decide +kernel⟩
  · exact ⟨⟨[], camRun⟩, camRun, 0, none, rfl, by decide +kernel⟩

/-- For clauses of CameraLinksAndTriggers with hypotheses, states and operands that meet them (part 2 of 2). -/
theorem witness_CameraLinksAndTriggers_2 :
    (∃ (s : State) (h : Hw) (q : Fin 24) (_id : Option (List Byte)),
      s.hw = h ∧
      (h.fabricOn = false ∨ h.camUp q.val = false ∨ h.on (F.CAM_CTRL_IDCHK.blk q.val) = false)) ∧
    (∃ (h : Hw) (q : Nat) (f : Nat) (p : Nat),
      f = h.idFound q ∧
      ((List.range 24).filter (fun p => h.idExp p == f) = [p]) ∧
      q < 24 ∧
      h.camUp q = true ∧
      (h.on (F.CAM_CTRL_IDCHK.blk q) = true) ∧
      ((h.cam q).idRead = 1) ∧
      (∀ r, r < 24 → r ≠ q → h.idKnown r = true → h.idFound r ≠ f)) := by
  refine ⟨?_, ?_⟩
  · exact ⟨⟨[], camRun⟩, camRun, 1, none, rfl, by decide +kernel⟩
  · exact ⟨(puts [(F.CAM_ID_FOUND_ID_FOUND.blk 0, 5), (F.CAM_ID_EXP_ID_EXP.blk 0, 5)] (camWith fun x =>
      { x with idRead := 1 })), 0, _, _, rfl, w_single (by decide +kernel), by decide +kernel⟩

/-- For clauses of Frames with hypotheses, states and operands that meet them (part 1 of 3). -/
theorem witness_Frames :
    (∃ (s : State) (h : Hw) (q : Fin 24) (vc : Fin 16) (_num : BitVec 16) (_ns10 : Fin 100) (p : Nat) (k : Nat) (x :
      Stream) (a : Hw),
      s.hw = h ∧
      h.camOf q.val = some p ∧
      h.streamOn false p = some k ∧
      h.stream k = some x ∧
      (a = (h.modCam p fun y => { y with armed := false }).cutBuf k) ∧
      h.fabricOn = true ∧
      h.camUp q.val = true ∧
      x.vc = vc.val ∧
      x.faulted = false) ∧
    (∃ (s : State) (h : Hw) (q : Fin 24) (vc : Fin 16) (_num : BitVec 16) (_ns10 : Fin 100) (p : Nat) (k : Nat) (x :
      Stream),
      s.hw = h ∧
      h.camOf q.val = some p ∧
      h.streamOn false p = some k ∧
      h.stream k = some x ∧
      h.fabricOn = true ∧
      h.camUp q.val = true ∧
      x.vc = vc.val ∧
      x.faulted = true) ∧
    (∃ (s : State) (h : Hw) (q : Fin 24) (vc : Fin 16) (_num : BitVec 16) (_ns10 : Fin 100) (p : Nat) (k : Nat) (x :
      Stream),
      s.hw = h ∧
      h.camOf q.val = some p ∧
      h.streamOn false p = some k ∧
      h.stream k = some x ∧
      h.fabricOn = true ∧
      h.camUp q.val = true ∧
      x.vc ≠ vc.val) ∧
    (∃ (s : State) (h : Hw) (q : Fin 24) (_vc : Fin 16) (_num : BitVec 16) (_ns10 : Fin 100) (p : Nat),
      s.hw = h ∧
      h.camOf q.val = some p ∧
      h.fabricOn = true ∧
      h.camUp q.val = true ∧
      ((h.streamOn false p).bind h.stream = none)) ∧
    (∃ (s : State) (h : Hw) (q : Fin 24) (_vc : Fin 16) (_num : BitVec 16) (_ns10 : Fin 100),
      s.hw = h ∧
      (h.fabricOn = false ∨ h.camUp q.val = false ∨ h.camOf q.val = none)) ∧
    (∃ (s : State) (h : Hw) (q : Fin 24) (p : CsiPacket) (a : Hw) (k : Nat) (x : Stream) (y : IngBuf),
      s.hw = h ∧
      (a = if p.hdr = 1 then h.addSat (F.CAM_ERR_HDR_CORR.blk q.val) 1 else h) ∧
      (a.camStream q.val = some (k, x)) ∧
      x.cur = some y ∧
      h.fabricOn = true ∧
      h.camUp q.val = true ∧
      p.hdr ≠ 2 ∧
      oddType p.dt.toNat = false ∧
      x.vc = p.vc.val ∧
      (p.dt.toNat = x.dt ∨ x.emb = true ∧ p.dt.toNat = 0x12) ∧
      (p.dt.toNat = 0x12 ∨ 0x18 ≤ p.dt.toNat) ∧
      x.faulted = false ∧
      y.failed = false) ∧
    (∃ (s : State) (h : Hw) (q : Fin 24) (p : CsiPacket) (a : Hw) (k : Nat) (x : Stream) (y : IngBuf),
      s.hw = h ∧
      (a = if p.hdr = 1 then h.addSat (F.CAM_ERR_HDR_CORR.blk q.val) 1 else h) ∧
      (a.camStream q.val = some (k, x)) ∧
      x.cur = some y ∧
      h.fabricOn = true ∧
      h.camUp q.val = true ∧
      p.hdr ≠ 2 ∧
      oddType p.dt.toNat = false ∧
      (x.vc ≠ p.vc.val ∨ (p.dt.toNat ≠ x.dt ∧ (x.emb = false ∨ p.dt.toNat ≠ 0x12)) ∨ x.faulted = true ∨ y.failed =
      true)) ∧
    (∃ (s : State) (h : Hw) (q : Fin 24) (p : CsiPacket) (a : Hw),
      s.hw = h ∧
      (a = if p.hdr = 1 then h.addSat (F.CAM_ERR_HDR_CORR.blk q.val) 1 else h) ∧
      (∀ k x, a.camStream q.val = some (k, x) → x.cur = none) ∧
      h.fabricOn = true ∧
      h.camUp q.val = true ∧
      p.hdr ≠ 2 ∧
      oddType p.dt.toNat = false) ∧
    (∃ (s : State) (h : Hw) (q : Fin 24) (p : CsiPacket) (a : Hw),
      s.hw = h ∧
      (a = if p.hdr = 1 then h.addSat (F.CAM_ERR_HDR_CORR.blk q.val) 1 else h) ∧
      h.fabricOn = true ∧
      h.camUp q.val = true ∧
      p.hdr ≠ 2 ∧
      oddType p.dt.toNat = true) ∧
    (∃ (s : State) (h : Hw) (q : Fin 24) (p : CsiPacket) (a : Hw) (k : Nat) (x : Stream),
      s.hw = h ∧
      (a = h.addSat (F.CAM_ERR_HDR_UNCORR.blk q.val) 1) ∧
      (a.camStream q.val = some (k, x)) ∧
      h.fabricOn = true ∧
      h.camUp q.val = true ∧
      p.hdr = 2) ∧
    (∃ (s : State) (h : Hw) (q : Fin 24) (p : CsiPacket) (a : Hw),
      s.hw = h ∧
      (a = h.addSat (F.CAM_ERR_HDR_UNCORR.blk q.val) 1) ∧
      h.fabricOn = true ∧
      h.camUp q.val = true ∧
      p.hdr = 2 ∧
      a.camStream q.val = none) ∧
    (∃ (s : State) (h : Hw) (q : Fin 24) (_p : CsiPacket),
      s.hw = h ∧
      (h.fabricOn = false ∨ h.camUp q.val = false)) := by
  refine ⟨?_, ?_, ?_, ?_, ?_, ?_, ?_, ?_, ?_, ?_, ?_, ?_⟩
  · exact ⟨⟨[], (withStream stream0)⟩, (withStream stream0), 0, 0, 0, 0, _, _, _, _, rfl, w_some
      (by decide +kernel), w_some (by decide +kernel), w_some (by decide +kernel), rfl, by decide +kernel⟩
  · exact ⟨⟨[], (withStream { stream0 with faulted := true })⟩, (withStream { stream0 with faulted := true }), 0, 0,
      0, 0, _, _, _, rfl, w_some (by decide +kernel), w_some (by decide +kernel), w_some (by decide +kernel),
      by decide +kernel⟩
  · exact ⟨⟨[], (withStream stream0)⟩, (withStream stream0), 0, 1, 0, 0, _, _, _, rfl, w_some (by decide +kernel),
      w_some (by decide +kernel), w_some (by decide +kernel), by decide +kernel⟩
  · exact ⟨⟨[], camRun⟩, camRun, 0, 0, 0, 0, _, rfl, w_some (by decide +kernel), by decide +kernel⟩
  · exact ⟨⟨[], (withStream stream0)⟩, (withStream stream0), 1, 0, 0, 0, rfl, by decide +kernel⟩
  · exact ⟨⟨[], (withStream stream0)⟩, (withStream stream0), 0, ⟨0,0x2B,0,false,false,zeros 64⟩, _, _, _, _, rfl,
      rfl, w_somePair (by decide +kernel), w_some (by decide +kernel), by decide +kernel⟩
  · exact ⟨⟨[], (withStream stream0)⟩, (withStream stream0), 0, ⟨0,0x2C,0,false,false,zeros 64⟩, _, _, _, _, rfl,
      rfl, w_somePair (by decide +kernel), w_some (by decide +kernel), by decide +kernel⟩
  · exact ⟨⟨[], camRun⟩, camRun, 0, ⟨0,0x2B,0,false,false,zeros 64⟩, _, rfl, rfl, fun _ _ e => w_vacant
      (by decide +kernel) e, by decide +kernel⟩
  · exact ⟨⟨[], (withStream stream0)⟩, (withStream stream0), 0, ⟨0,0x02,0,false,false,zeros 64⟩, _, rfl, rfl,
      by decide +kernel⟩
  · exact ⟨⟨[], (withStream stream0)⟩, (withStream stream0), 0, ⟨0,0x2B,2,false,false,zeros 64⟩, _, _, _, rfl, rfl,
      w_somePair (by decide +kernel), by decide +kernel⟩
  · exact ⟨⟨[], camRun⟩, camRun, 0, ⟨0,0x2B,2,false,false,zeros 64⟩, _, rfl, rfl, by decide +kernel⟩
  · exact ⟨⟨[], (withStream stream0)⟩, (withStream stream0), 1, ⟨0,0x2B,2,false,false,zeros 64⟩, rfl,
      by decide +kernel⟩

/-- For clauses of Frames with hypotheses, states and operands that meet them (part 2 of 3). -/
theorem witness_Frames_2 :
    (∃ (s : State) (h : Hw) (q : Fin 24) (vc : Fin 16) (_ns10 : Fin 100) (k : Nat) (x : Stream),
      s.hw = h ∧
      (h.camStream q.val = some (k, x)) ∧
      h.fabricOn = true ∧
      h.camUp q.val = true ∧
      x.vc = vc.val) ∧
    (∃ (s : State) (h : Hw) (q : Fin 24) (vc : Fin 16) (_ns10 : Fin 100),
      s.hw = h ∧
      (∀ k x, h.camStream q.val = some (k, x) → h.fabricOn = false ∨ h.camUp q.val = false ∨ x.vc ≠ vc.val)) ∧
    (∃ (s : State) (h : Hw) (q : Fin 8) (f : EthFrame) (_ns10 : Fin 100),
      s.hw = h ∧
      h.fabricOn = true ∧
      (h.get (F.LID_STATUS_LINK.blk q.val) = 2) ∧
      (f.bytes.length < 60 ∨ 9212 < f.bytes.length)) ∧
    (∃ (s : State) (h : Hw) (q : Fin 8) (f : EthFrame) (_ns10 : Fin 100),
      s.hw = h ∧
      h.fabricOn = true ∧
      (h.get (F.LID_STATUS_LINK.blk q.val) = 2) ∧
      60 ≤ f.bytes.length ∧
      f.bytes.length ≤ 9212 ∧
      f.fcsOk = false) ∧
    (∃ (s : State) (h : Hw) (q : Fin 8) (f : EthFrame) (_ns10 : Fin 100) (a : Hw) (e : Nat × Stream),
      s.hw = h ∧
      (a = (h.ing.streams.filter fun e => e.2.lidar && e.2.srcMac ≠ 0 && e.2.srcMac == beNat ((f.bytes.drop 6).take
      6) && e.2.port ≠ q.val).foldl (fun x e => x.strayFrame q.val e.2.port) h) ∧
      (a.ing.streams.find? (fun e => e.2.lidar && a.physPort e.2 == some q.val && e.2.matchesFrame f.bytes) = some
      e) ∧
      h.fabricOn = true ∧
      (h.get (F.LID_STATUS_LINK.blk q.val) = 2) ∧
      60 ≤ f.bytes.length ∧
      f.bytes.length ≤ 9212 ∧
      f.fcsOk = true) ∧
    (∃ (s : State) (h : Hw) (q : Fin 8) (f : EthFrame) (_ns10 : Fin 100) (a : Hw),
      s.hw = h ∧
      (a = (h.ing.streams.filter fun e => e.2.lidar && e.2.srcMac ≠ 0 && e.2.srcMac == beNat ((f.bytes.drop 6).take
      6) && e.2.port ≠ q.val).foldl (fun x e => x.strayFrame q.val e.2.port) h) ∧
      h.fabricOn = true ∧
      (h.get (F.LID_STATUS_LINK.blk q.val) = 2) ∧
      60 ≤ f.bytes.length ∧
      f.bytes.length ≤ 9212 ∧
      f.fcsOk = true ∧
      (a.ing.streams.find? (fun e => e.2.lidar && a.physPort e.2 == some q.val && e.2.matchesFrame f.bytes) = none)) ∧
    (∃ (s : State) (h : Hw) (q : Fin 8) (_f : EthFrame) (_ns10 : Fin 100),
      s.hw = h ∧
      (h.fabricOn = false ∨ h.get (F.LID_STATUS_LINK.blk q.val) ≠ 2)) ∧
    (∃ (s : State) (h : Hw) (pid : Fin 256) (hd : Fin 32) (x : Stream) (y : IngBuf),
      s.hw = h ∧
      (h.stream (streamKey pid.val hd.val) = some x) ∧
      x.cur = some y ∧
      h.fabricOn = true ∧
      x.lidar = true ∧
      (y.firstAt + x.pitch ≤ h.now)) ∧
    (∃ (s : State) (h : Hw) (pid : Fin 256) (hd : Fin 32),
      s.hw = h ∧
      (∀ x, h.stream (streamKey pid.val hd.val) = some x → h.fabricOn = false ∨ x.lidar = false ∨ (∀ y, x.cur = some
      y → h.now < y.firstAt + x.pitch))) ∧
    (∃ (s : State) (h : Hw) (pid : Fin 256) (hd : Fin 32) (n : Nat) (x : Stream) (y : IngBuf) (ys : List IngBuf)
      (rec : List Byte) (g : Hw) (a : Hw),
      s.hw = h ∧
      n = streamKey pid.val hd.val ∧
      h.stream n = some x ∧
      (x.done = y :: ys) ∧
      (h.streamBytes x (recordOf x y) = (rec, g)) ∧
      (g.writeVa 5 (n / 32) (x.recVa + 64 * (y.n % max x.nBuf 1)) rec false = (none, a)) ∧
      h.fabricOn = true ∧
      x.faulted = false ∧
      h.quiet = false ∧
      h.undrained n y.n = false ∧
      (a.holdsSob (n / 32) x.doneSob = true)) ∧
    (∃ (s : State) (h : Hw) (pid : Fin 256) (hd : Fin 32) (n : Nat) (x : Stream) (y : IngBuf) (ys : List IngBuf)
      (rec : List Byte) (g : Hw) (a : Hw),
      s.hw = h ∧
      n = streamKey pid.val hd.val ∧
      h.stream n = some x ∧
      (x.done = y :: ys) ∧
      (h.streamBytes x (recordOf x y) = (rec, g)) ∧
      (g.writeVa 5 (n / 32) (x.recVa + 64 * (y.n % max x.nBuf 1)) rec false = (none, a)) ∧
      h.fabricOn = true ∧
      x.faulted = false ∧
      h.quiet = false ∧
      h.undrained n y.n = false ∧
      (a.holdsSob (n / 32) x.doneSob = false)) ∧
    (∃ (s : State) (h : Hw) (pid : Fin 256) (hd : Fin 32) (n : Nat) (x : Stream) (y : IngBuf) (ys : List IngBuf)
      (rec : List Byte) (g : Hw) (a : Hw) (e : Nat × Nat),
      s.hw = h ∧
      n = streamKey pid.val hd.val ∧
      h.stream n = some x ∧
      (x.done = y :: ys) ∧
      (h.streamBytes x (recordOf x y) = (rec, g)) ∧
      (g.writeVa 5 (n / 32) (x.recVa + 64 * (y.n % max x.nBuf 1)) rec false = (some e, a)) ∧
      h.fabricOn = true ∧
      x.faulted = false ∧
      h.quiet = false ∧
      h.undrained n y.n = false) := by
  refine ⟨?_, ?_, ?_, ?_, ?_, ?_, ?_, ?_, ?_, ?_, ?_, ?_⟩
  · exact ⟨⟨[], (withStream stream0)⟩, (withStream stream0), 0, 0, 0, _, _, rfl, w_somePair (by decide +kernel),
      by decide +kernel⟩
  · exact ⟨⟨[], camRun⟩, camRun, 0, 0, 0, rfl, fun _ _ e => w_vacant (by decide +kernel) e⟩
  · exact ⟨⟨[], lidRun⟩, lidRun, 0, ⟨true,false,[]⟩, 0, rfl, by decide +kernel⟩
  · exact ⟨⟨[], lidRun⟩, lidRun, 0, ⟨false,false,zeros 64⟩, 0, rfl, by decide +kernel⟩
  · exact ⟨⟨[], lidRun⟩, lidRun, 0, ⟨true,false,zeros 64⟩, 0, _, _, rfl, rfl, w_some (by decide +kernel),
      by decide +kernel⟩
  · exact ⟨⟨[], (puts [(F.LID_STATUS_LINK.blk 0, 2)] run)⟩, (puts [(F.LID_STATUS_LINK.blk 0, 2)] run), 0,
      ⟨true,false,zeros 64⟩, 0, _, rfl, rfl, by decide +kernel⟩
  · exact ⟨⟨[], lidRun⟩, lidRun, 1, ⟨true,false,[]⟩, 0, rfl, by decide +kernel⟩
  · exact ⟨⟨[], lidRun⟩, lidRun, 0, 0, _, _, rfl, w_some (by decide +kernel), w_some (by decide +kernel),
      by decide +kernel⟩
  · exact ⟨⟨[], camRun⟩, camRun, 0, 0, rfl, fun _ e => w_vacant (by decide +kernel) e⟩
  · exact ⟨⟨[], (withStream { stream0 with done := [buf0] })⟩, (withStream { stream0 with done := [buf0] }), 0, 0,
      _, _, _, _, _, _, _, rfl, rfl, w_some (by decide +kernel), w_cons (by decide +kernel), w_pair, w_fst
      (by decide +kernel), by decide +kernel⟩
  · exact ⟨⟨[], (ingOf (fun g => { g with streams := [(32, { stream0 with done := [buf0] })] }) camRun)⟩, (ingOf
      (fun g => { g with streams := [(32, { stream0 with done := [buf0] })] }) camRun), 1, 0, _, _, _, _, _, _, _,
      rfl, rfl, w_some (by decide +kernel), w_cons (by decide +kernel), w_pair, w_fst (by decide +kernel),
      by decide +kernel⟩
  · exact ⟨⟨[], (ingOf (fun g => { g with streams := [(32, { stream0 with done := [buf0], recVa := 0x200000 })] })
      camRun)⟩, (ingOf (fun g => { g with streams := [(32, { stream0 with done := [buf0], recVa := 0x200000 })] })
      camRun), 1, 0, _, _, _, _, _, _, _, _, rfl, rfl, w_some (by decide +kernel), w_cons (by decide +kernel),
      w_pair, w_someFst (by decide +kernel), by decide +kernel⟩

/-- For clauses of Frames with hypotheses, states and operands that meet them (part 3 of 3). -/
theorem witness_Frames_3 :
    ∃ (s : State) (h : Hw) (pid : Fin 256) (hd : Fin 32) (n : Nat),
    s.hw = h ∧
    n = streamKey pid.val hd.val ∧
    (h.fabricOn = false ∨ h.quiet = true ∨ h.stream n = none ∨ (∃ x, h.stream n = some x ∧ (x.done = [] ∨ x.faulted
      = true ∨ ∃ y ys, x.done = y :: ys ∧ h.undrained n y.n = true))) :=
  ⟨⟨[], (offed ((withStream { stream0 with done := [buf0] })))⟩, (offed ((withStream
    { stream0 with done := [buf0] }))), 0, 0, _, rfl, rfl, Or.inl (by decide +kernel)⟩

/-- For clauses of CameraPowerAndEthernetLinks with hypotheses, states and operands that meet them (part 1 of 2). -/
theorem witness_CameraPowerAndEthernetLinks :
    (∃ (s : State) (h : Hw) (q : Fin 24) (ma : BitVec 16) (_mv : BitVec 16),
      s.hw = h ∧
      (h.get (F.CAM_STATUS_PWR_STATE.blk q.val) = 1) ∧
      ma.toNat < 20) ∧
    (∃ (s : State) (h : Hw) (q : Fin 24) (ma : BitVec 16) (_mv : BitVec 16),
      s.hw = h ∧
      (h.get (F.CAM_STATUS_PWR_STATE.blk q.val) ≠ 1 ∨ 20 ≤ ma.toNat)) ∧
    (∃ (s : State) (h : Hw) (q : Fin 24) (ma : BitVec 16) (_mv : BitVec 16),
      s.hw = h ∧
      h.camPowered q.val = true ∧
      (10 * max 10 (min 125 (h.get (F.CAM_CTRL_ILIM.blk q.val))) < ma.toNat)) ∧
    (∃ (s : State) (h : Hw) (q : Fin 24) (ma : BitVec 16) (_mv : BitVec 16),
      s.hw = h ∧
      (h.camPowered q.val = false ∨ ma.toNat ≤ 10 * max 10 (min 125 (h.get (F.CAM_CTRL_ILIM.blk q.val))))) ∧
    (∃ (s : State) (h : Hw) (q : Fin 24) (ma : BitVec 16) (_mv : BitVec 16),
      s.hw = h ∧
      h.camPowered q.val = true ∧
      3000 < ma.toNat) ∧
    (∃ (s : State) (h : Hw) (q : Fin 24) (_ma : BitVec 16) (_mv : BitVec 16),
      s.hw = h ∧
      h.camPowered q.val = true) ∧
    (∃ (s : State) (h : Hw) (q : Fin 24) (ma : BitVec 16) (_mv : BitVec 16),
      s.hw = h ∧
      (h.camPowered q.val = false ∨ ma.toNat ≤ 3000)) ∧
    (∃ (s : State) (h : Hw) (q : Fin 24) (_ma : BitVec 16) (_mv : BitVec 16),
      s.hw = h ∧
      h.camPowered q.val = false) ∧
    (∃ (h : Hw) (a : Hw) (q : Nat) (st : Nat) (ma : Nat) (mv : Nat),
      (a = ((((h.put (F.CAM_PWR_MEAS_MA.blk q) ma).put (F.CAM_PWR_MEAS_MV.blk q) mv).put (F.CAM_STATUS_PWR_STATE.blk
      q) st).put (F.CAM_INT_STATUS_PWR_FAULT.blk q) 1).event (srcCam q) 0x0506 0 st)) ∧
    (∃ (s : State) (h : Hw) (ma : BitVec 16) (q : Nat),
      s.hw = h ∧
      ((List.range 24).reverse.find? h.camPowered = some q) ∧
      12500 < ma.toNat) ∧
    (∃ (s : State) (h : Hw) (ma : BitVec 16),
      s.hw = h ∧
      (ma.toNat ≤ 12500 ∨ (List.range 24).reverse.find? h.camPowered = none)) ∧
    (∃ (s : State) (h : Hw) (p : Fin 40) (a : Hw),
      s.hw = h ∧
      a = h.setEth p.val 2 ∧
      h.ethEnabled p.val = true ∧
      h.ethUp p.val = false ∧
      2 ≤ h.mode) := by
  refine ⟨?_, ?_, ?_, ?_, ?_, ?_, ?_, ?_, ?_, ?_, ?_, ?_⟩
  · exact ⟨⟨[], camRun⟩, camRun, 0, 5, 0, rfl, by decide +kernel⟩
  · exact ⟨⟨[], camRun⟩, camRun, 1, 5, 0, rfl, by decide +kernel⟩
  · exact ⟨⟨[], camRun⟩, camRun, 0, 2000, 0, rfl, by decide +kernel⟩
  · exact ⟨⟨[], camRun⟩, camRun, 1, 2000, 0, rfl, by decide +kernel⟩
  · exact ⟨⟨[], camRun⟩, camRun, 0, 4000, 0, rfl, by decide +kernel⟩
  · exact ⟨⟨[], camRun⟩, camRun, 0, 0, 0, rfl, by decide +kernel⟩
  · exact ⟨⟨[], camRun⟩, camRun, 1, 4000, 0, rfl, by decide +kernel⟩
  · exact ⟨⟨[], camRun⟩, camRun, 1, 0, 0, rfl, by decide +kernel⟩
  · exact ⟨Hw.reset, _, 0, 0, 0, 0, rfl⟩
  · exact ⟨⟨[], camRun⟩, camRun, 13000, _, rfl, w_some (by decide +kernel), by decide +kernel⟩
  · exact ⟨⟨[], run⟩, run, 13000, rfl, by decide +kernel⟩
  · exact ⟨⟨[], Hw.reset⟩, Hw.reset, 39, _, rfl, rfl, by decide +kernel⟩

/-- For clauses of CameraPowerAndEthernetLinks with hypotheses, states and operands that meet them (part 2 of 2). -/
theorem witness_CameraPowerAndEthernetLinks_2 :
    (∃ (s : State) (h : Hw) (p : Fin 40),
      s.hw = h ∧
      (h.ethEnabled p.val = false ∨ h.ethUp p.val = true ∨ h.mode < 2)) ∧
    (∃ (s : State) (h : Hw) (p : Fin 40),
      s.hw = h ∧
      p.val < 24 ∧
      h.camUp p.val = true) ∧
    (∃ (s : State) (h : Hw) (p : Fin 40),
      s.hw = h ∧
      24 ≤ p.val ∧
      h.ethUp p.val = true) ∧
    (∃ (s : State) (h : Hw) (p : Fin 40),
      s.hw = h ∧
      (p.val < 24 ∧ h.camUp p.val = false ∨ 24 ≤ p.val ∧ h.ethUp p.val = false)) ∧
    (∃ (s : State) (h : Hw) (p : Fin 40) (r : Fin 3) (a : Hw),
      s.hw = h ∧
      (∀ t, h.ing.pairAt.find p.val = some t → t + 100000 ≤ h.now) ∧
      (a =
      { h with ing := { h.ing with pairs := h.ing.pairs.putD 0 p.val r.val, pairAt := h.ing.pairAt.put p.val h.now } })
      ∧
      24 ≤ p.val ∧
      p.val < 36 ∧
      2 ≤ h.mode ∧
      h.ethEnabled p.val = true ∧
      h.ethUp p.val = false) ∧
    (∃ (s : State) (h : Hw) (p : Fin 40) (_r : Fin 3),
      s.hw = h ∧
      (h.ethUp p.val = true ∨ p.val < 24 ∨ 36 ≤ p.val ∨ h.mode < 2 ∨ h.ethEnabled p.val = false ∨ (∃ t,
      h.ing.pairAt.find p.val = some t ∧ h.now < t + 100000))) := by
  refine ⟨?_, ?_, ?_, ?_, ?_, ?_⟩
  · exact ⟨⟨[], Hw.reset⟩, Hw.reset, 0, rfl, by decide +kernel⟩
  · exact ⟨⟨[], camRun⟩, camRun, 0, rfl, by decide +kernel⟩
  · exact ⟨⟨[], lidRun⟩, lidRun, 24, rfl, by decide +kernel⟩
  · exact ⟨⟨[], camRun⟩, camRun, 24, rfl, by decide +kernel⟩
  · exact ⟨⟨[], (lidRun.put (F.LID_STATUS_LINK.blk 0) 0)⟩, (lidRun.put (F.LID_STATUS_LINK.blk 0) 0), 24, 0, _, rfl,
      fun _ e => w_vacant (by decide +kernel) e, rfl, by decide +kernel⟩
  · exact ⟨⟨[], run⟩, run, 24, 0, rfl, by decide +kernel⟩

/-- For clauses of FusionEngine with hypotheses, states and operands that meet them (part 1 of 2). -/
theorem witness_FusionEngine :
    (∃ (s : State) (h : Hw) (u : Option FusUpset) (g : Hw),
      s.hw = h ∧
      (g = (match u with | some e => h.fusUpset e | none => h)) ∧
      h.fabricOn = true ∧
      g.fus.ranAt = some g.now) ∧
    (∃ (s : State) (h : Hw) (u : Option FusUpset) (g : Hw) (a : Hw),
      s.hw = h ∧
      (g = (match u with | some e => h.fusUpset e | none => h)) ∧
      (a = ({ g with fus := { g.fus with ranAt := some g.now } } : Hw).fusShort.fusPayAll.fusBringBack) ∧
      h.fabricOn = true ∧
      g.fus.ranAt ≠ some g.now ∧
      a.fusPick = none) ∧
    (∃ (s : State) (h : Hw) (u : Option FusUpset) (g : Hw) (a : Hw) (x : FusBatch),
      s.hw = h ∧
      (g = (match u with | some e => h.fusUpset e | none => h)) ∧
      (a = ({ g with fus := { g.fus with ranAt := some g.now } } : Hw).fusShort.fusPayAll.fusBringBack) ∧
      a.fusPick = some x ∧
      h.fabricOn = true ∧
      g.fus.ranAt ≠ some g.now ∧
      x.out.isSome = true) ∧
    (∃ (s : State) (h : Hw) (u : Option FusUpset) (g : Hw) (a : Hw) (k : Hw) (x : FusBatch),
      s.hw = h ∧
      (g = (match u with | some e => h.fusUpset e | none => h)) ∧
      (a = ({ g with fus := { g.fus with ranAt := some g.now } } : Hw).fusShort.fusPayAll.fusBringBack) ∧
      a.fusPick = some x ∧
      ((a.fusSwitch (some x)).fusBegin x = .error k) ∧
      h.fabricOn = true ∧
      g.fus.ranAt ≠ some g.now ∧
      x.out = none) ∧
    (∃ (s : State) (h : Hw) (u : Option FusUpset) (g : Hw) (a : Hw) (k : Hw) (x : FusBatch),
      s.hw = h ∧
      (g = (match u with | some e => h.fusUpset e | none => h)) ∧
      (a = ({ g with fus := { g.fus with ranAt := some g.now } } : Hw).fusShort.fusPayAll.fusBringBack) ∧
      a.fusPick = some x ∧
      ((a.fusSwitch (some x)).fusBegin x = .ok k) ∧
      h.fabricOn = true ∧
      g.fus.ranAt ≠ some g.now ∧
      x.out = none) ∧
    (∃ (s : State) (h : Hw) (_u : Option FusUpset),
      s.hw = h ∧
      h.fabricOn = false) ∧
    (∃ (h : Hw) (x : FusBatch) (o : FusOut),
      x.out = some o ∧
      (h.fus.batches.find? (fun y => y.pid == x.pid && y.queue == x.queue && y.num == x.num) = some x) ∧
      x.stained = false) ∧
    (∃ (s : State) (h : Hw) (pid : Fin 256) (set : Fin 4) (x : FusBatch) (o : FusOut),
      s.hw = h ∧
      (h.fus.batches.find? (fun x => x.pid == pid.val && x.set == set.val && x.out.isSome) = some x) ∧
      x.out = some o ∧
      h.fabricOn = true ∧
      h.fusLate x = true) ∧
    (∃ (s : State) (h : Hw) (pid : Fin 256) (set : Fin 4) (x : FusBatch) (o : FusOut),
      s.hw = h ∧
      (h.fus.batches.find? (fun x => x.pid == pid.val && x.set == set.val && x.out.isSome) = some x) ∧
      x.out = some o ∧
      h.fabricOn = true ∧
      h.fusLate x = false ∧
      x.stained = true) ∧
    (∃ (s : State) (h : Hw) (pid : Fin 256) (set : Fin 4) (x : FusBatch) (o : FusOut),
      s.hw = h ∧
      (h.fus.batches.find? (fun x => x.pid == pid.val && x.set == set.val && x.out.isSome) = some x) ∧
      x.out = some o ∧
      h.fabricOn = true ∧
      h.fusLate x = false ∧
      x.stained = false ∧
      x.used < o.total) ∧
    (∃ (s : State) (h : Hw) (pid : Fin 256) (set : Fin 4) (x : FusBatch) (y : FusBatch) (o : FusOut) (n : Nat) (g :
      Hw),
      s.hw = h ∧
      (h.fus.batches.find? (fun x => x.pid == pid.val && x.set == set.val && x.out.isSome) = some x) ∧
      x.out = some o ∧
      (y = if x.written = true then x else { x with written := true, owes := linesOf x.outVa o.outBytes true }) ∧
      (h.payLines x.pid y.owes = (n, g)) ∧
      h.fabricOn = true ∧
      h.fusLate x = false ∧
      x.stained = false ∧
      o.total ≤ x.used ∧
      n < y.owes.length) ∧
    (∃ (s : State) (h : Hw) (pid : Fin 256) (set : Fin 4) (x : FusBatch) (y : FusBatch) (o : FusOut) (n : Nat) (g :
      Hw),
      s.hw = h ∧
      (h.fus.batches.find? (fun x => x.pid == pid.val && x.set == set.val && x.out.isSome) = some x) ∧
      x.out = some o ∧
      (y = if x.written = true then x else { x with written := true, owes := linesOf x.outVa o.outBytes true }) ∧
      (h.payLines x.pid y.owes = (n, g)) ∧
      h.fabricOn = true ∧
      h.fusLate x = false ∧
      x.stained = false ∧
      o.total ≤ x.used ∧
      y.owes.length ≤ n ∧
      o.flags = 1 ∧
      o.nMeas = 0) := by
  refine ⟨?_, ?_, ?_, ?_, ?_, ?_, ?_, ?_, ?_, ?_, ?_, ?_⟩
  · exact ⟨⟨[], { run with fus := { run.fus with ranAt := some 100 } }⟩,
      { run with fus := { run.fus with ranAt := some 100 } }, none, _, rfl, rfl, by decide +kernel⟩
  · exact ⟨⟨[], run⟩, run, none, _, _, rfl, rfl, rfl, by decide +kernel⟩
  · exact ⟨⟨[], (withBatch batch0)⟩, (withBatch batch0), none, _, _, _, rfl, rfl, rfl, w_some (by decide +kernel),
      by decide +kernel⟩
  · exact ⟨⟨[], (withBatch { batch0 with out := none })⟩, (withBatch { batch0 with out := none }), none, _, _, _, _,
      rfl, rfl, rfl, w_some (by decide +kernel), w_error (by decide +kernel), by decide +kernel⟩
  · exact ⟨⟨[],
      { (withBatch { batch0 with out := none }) with fus := { (withBatch { batch0 with out := none }).fus with sets := [(0, set0)] } }⟩,
      { (withBatch { batch0 with out := none }) with fus := { (withBatch { batch0 with out := none }).fus with sets := [(0, set0)] } },
      none, _, _, _, _, rfl, rfl, rfl, w_some (by decide +kernel), w_ok (by decide +kernel), by decide +kernel⟩
  · exact ⟨⟨[], offHw⟩, offHw, none, rfl, by decide +kernel⟩
  · exact ⟨(withBatch batch0), batch0, _, w_some (by decide +kernel), by decide +kernel⟩
  · exact ⟨⟨[], (withBatch { batch0 with dl := some 50 })⟩, (withBatch { batch0 with dl := some 50 }), 0, 0, _, _,
      rfl, w_some (by decide +kernel), w_some (by decide +kernel), by decide +kernel⟩
  · exact ⟨⟨[], (withBatch { batch0 with stained := true })⟩, (withBatch { batch0 with stained := true }), 0, 0, _,
      _, rfl, w_some (by decide +kernel), w_some (by decide +kernel), by decide +kernel⟩
  · exact ⟨⟨[], (withBatch batch0)⟩, (withBatch batch0), 0, 0, _, _, rfl, w_some (by decide +kernel), w_some
      (by decide +kernel), by decide +kernel⟩
  · exact ⟨⟨[], (withBatch { batch0 with used := 10, pid := 1 })⟩, (withBatch { batch0 with used := 10, pid := 1 }),
      1, 0, _, _, _, _, _, rfl, w_some (by decide +kernel), w_some (by decide +kernel), rfl, w_pair,
      by decide +kernel⟩
  · exact ⟨⟨[], (withBatch { batch0 with used := 10, out := some { out0 with flags := 1, nMeas := 0 } })⟩,
      (withBatch { batch0 with used := 10, out := some { out0 with flags := 1, nMeas := 0 } }), 0, 0, _, _, _, _, _,
      rfl, w_some (by decide +kernel), w_some (by decide +kernel), rfl, w_pair, by decide +kernel⟩

/-- For clauses of FusionEngine with hypotheses, states and operands that meet them (part 2 of 2). -/
theorem witness_FusionEngine_2 :
    (∃ (s : State) (h : Hw) (pid : Fin 256) (set : Fin 4) (x : FusBatch) (y : FusBatch) (o : FusOut) (n : Nat) (g :
      Hw) (e : Nat × Nat) (k : Hw),
      s.hw = h ∧
      (h.fus.batches.find? (fun x => x.pid == pid.val && x.set == set.val && x.out.isSome) = some x) ∧
      x.out = some o ∧
      (y = if x.written = true then x else { x with written := true, owes := linesOf x.outVa o.outBytes true }) ∧
      (h.payLines x.pid y.owes = (n, g)) ∧
      (g.writeVa 2 y.pid y.outVa (fusSummary o.records.length o.nMeas o.coarse o.gated o.assigned o.born o.deleted
      o.flags o.total g.now ++ o.records.flatten) false = (some e, k)) ∧
      h.fabricOn = true ∧
      h.fusLate x = false ∧
      x.stained = false ∧
      o.total ≤ x.used ∧
      y.owes.length ≤ n ∧
      (¬ (o.flags = 1 ∧ o.nMeas = 0))) ∧
    (∃ (s : State) (h : Hw) (pid : Fin 256) (set : Fin 4) (x : FusBatch) (y : FusBatch) (o : FusOut) (n : Nat) (g :
      Hw) (k : Hw),
      s.hw = h ∧
      (h.fus.batches.find? (fun x => x.pid == pid.val && x.set == set.val && x.out.isSome) = some x) ∧
      x.out = some o ∧
      (y = if x.written = true then x else { x with written := true, owes := linesOf x.outVa o.outBytes true }) ∧
      (h.payLines x.pid y.owes = (n, g)) ∧
      (g.writeVa 2 y.pid y.outVa (fusSummary o.records.length o.nMeas o.coarse o.gated o.assigned o.born o.deleted
      o.flags o.total g.now ++ o.records.flatten) false = (none, k)) ∧
      h.fabricOn = true ∧
      h.fusLate x = false ∧
      x.stained = false ∧
      o.total ≤ x.used ∧
      y.owes.length ≤ n ∧
      (¬ (o.flags = 1 ∧ o.nMeas = 0))) ∧
    (∃ (s : State) (h : Hw) (pid : Fin 256) (set : Fin 4),
      s.hw = h ∧
      (h.fabricOn = false ∨ h.fus.batches.find? (fun x => x.pid == pid.val && x.set == set.val && x.out.isSome) =
      none)) ∧
    (∃ (s : State) (h : Hw),
      s.hw = h ∧
      h.fabricOn = true) ∧
    (∃ (s : State) (h : Hw),
      s.hw = h ∧
      h.fabricOn = false) ∧
    (∃ (s : State) (h : Hw),
      s.hw = h ∧
      h.fabricOn = true ∧
      (h.fus.batches.filter h.fusLate = [])) ∧
    (∃ (s : State) (h : Hw) (x : FusBatch),
      s.hw = h ∧
      (h.fus.batches.filter h.fusLate = [x]) ∧
      h.fabricOn = true) := by
  refine ⟨?_, ?_, ?_, ?_, ?_, ?_, ?_⟩
  · exact ⟨⟨[], (withBatch { batch0 with used := 10, outVa := 0x200000 })⟩, (withBatch
      { batch0 with used := 10, outVa := 0x200000 }), 0, 0, _, _, _, _, _, _, _, rfl, w_some (by decide +kernel),
      w_some (by decide +kernel), rfl, w_pair, w_someFst (by decide +kernel), by decide +kernel⟩
  · exact ⟨⟨[], (withBatch { batch0 with used := 10 })⟩, (withBatch { batch0 with used := 10 }), 0, 0, _, _, _, _,
      _, _, rfl, w_some (by decide +kernel), w_some (by decide +kernel), rfl, w_pair, w_fst (by decide +kernel),
      by decide +kernel⟩
  · exact ⟨⟨[], (withBatch { batch0 with dl := some 50 })⟩, (withBatch { batch0 with dl := some 50 }), 0, 1, rfl,
      by decide +kernel⟩
  · exact ⟨⟨[], (withBatch { batch0 with dl := some 50 })⟩, (withBatch { batch0 with dl := some 50 }), rfl,
      by decide +kernel⟩
  · exact ⟨⟨[], offHw⟩, offHw, rfl, by decide +kernel⟩
  · exact ⟨⟨[], run⟩, run, rfl, by decide +kernel⟩
  · exact ⟨⟨[], (withBatch { batch0 with dl := some 50 })⟩, (withBatch { batch0 with dl := some 50 }), _, rfl,
      w_single (by decide +kernel), by decide +kernel⟩

/-- For clauses of PacketTraverse with hypotheses, states and operands that meet them (part 1 of 4). -/
theorem witness_PacketTraverse :
    (∃ (st : State) (q : QRef) (p : Packet) (qu : Queue) (c : Cmd) (b : Hw) (bs : List Byte) (k : Hw),
      (Acting st.hw specTrvSurveyUpdate q p qu c b) ∧
      (b.cmdRead c.pid (c.f 24 6) (min (c.f 32 4) 295104) = (.ok (bs, false), k))) ∧
    (∃ (st : State) (q : QRef) (p : Packet) (qu : Queue) (c : Cmd) (b : Hw) (k : Hw),
      (Acting st.hw specTrvSurveyUpdate q p qu c b) ∧
      (RecordEnds b c (c.f 24 6) (min (c.f 32 4) 295104) k)) ∧
    (∃ (st : State) (q : QRef) (p : Packet) (qu : Queue) (c : Cmd) (b : Hw) (k : Hw),
      (Acting st.hw specTrvEnvelope q p qu c b) ∧
      (RecordEnds b c (c.f 24 6) 320 k)) ∧
    (∃ (st : State) (q : QRef) (p : Packet) (qu : Queue) (c : Cmd) (b : Hw) (bs : List Byte) (k : Hw),
      (Acting st.hw specTrvEnvelope q p qu c b) ∧
      (b.cmdRead c.pid (c.f 24 6) 320 = (.ok (bs, false), k)) ∧
      k.deliverable = false) ∧
    (∃ (st : State) (q : QRef) (p : Packet) (qu : Queue) (c : Cmd) (b : Hw) (bs : List Byte) (k : Hw) (o : Nat),
      (Acting st.hw specTrvEnvelope q p qu c b) ∧
      (b.cmdRead c.pid (c.f 24 6) 320 = (.ok (bs, false), k)) ∧
      (envFault bs (fun n => n == 0 || (k.exists? n && k.clsOf n == 0)) = some o) ∧
      k.deliverable = true) := by
  refine ⟨?_, ?_, ?_, ?_, ?_⟩
  · exact ⟨⟨[], (bothDat (fun x => { x with env := some (putField (zeros 320) 49 1 1) }) served)⟩, Q1, zeros 64,
      queueAt 0, _, _, _, _, acting_of (by decide +kernel), w_okFlag (by decide +kernel) (by decide +kernel)⟩
  · exact ⟨⟨[], (bothDat (fun x => { x with env := some (putField (zeros 320) 49 1 1) }) served)⟩, Q1, (pk [(26,
      16), (32, 64)]), queueAt 0, _, _, _, acting_of (by decide +kernel), recEnd_of (by decide +kernel)⟩
  · exact ⟨⟨[], served⟩, Q, (pk [(26, 16)]), queueAt 0, _, _, _, acting_of (by decide +kernel), recEnd_of
      (by decide +kernel)⟩
  · exact ⟨⟨[], (datOf (fun x => { x with linkLost := [4] }) shared)⟩, Q, (zeros 64), queueAt 0, _, _, _, _,
      acting_of (by decide +kernel), w_okFlag (by decide +kernel) (by decide +kernel), by decide +kernel⟩
  · exact ⟨⟨[], served⟩, Q, zeros 64, queueAt 0, _, _, _, _, _, acting_of (by decide +kernel), w_okFlag
      (by decide +kernel) (by decide +kernel), w_some (by decide +kernel), by decide +kernel⟩

/-- For clauses of PacketTraverse with hypotheses, states and operands that meet them (part 2 of 4). -/
theorem witness_PacketTraverse_2 :
    (∃ (st : State) (q : QRef) (p : Packet) (qu : Queue) (c : Cmd) (b : Hw) (bs : List Byte) (k : Hw),
      (Acting st.hw specTrvEnvelope q p qu c b) ∧
      (b.cmdRead c.pid (c.f 24 6) 320 = (.ok (bs, false), k)) ∧
      k.deliverable = true ∧
      (envFault bs (fun n => n == 0 || (k.exists? n && k.clsOf n == 0)) = none)) ∧
    (∃ (st : State) (q : QRef) (p : Packet) (qu : Queue) (c : Cmd) (b : Hw) (k : Hw),
      (Acting st.hw specTrvCommit q p qu c b) ∧
      (RecordEnds b c (c.f 24 6) 64 k)) ∧
    (∃ (st : State) (q : QRef) (p : Packet) (qu : Queue) (c : Cmd) (b : Hw) (k : Hw),
      (Acting st.hw specTrvDustSheet q p qu c b) ∧
      (RecordEnds b c (c.f 24 6) 64 k)) ∧
    (∃ (st : State) (q : QRef) (p : Packet) (qu : Queue) (c : Cmd) (b : Hw) (k : Hw),
      (Acting st.hw specTrvCheck q p qu c b) ∧
      (RecordEnds b c (c.f 24 6) 64 k)) ∧
    (∃ (st : State) (q : QRef) (p : Packet) (qu : Queue) (c : Cmd) (b : Hw) (hd : List Byte) (k : Hw) (k2 : Hw),
      (Acting st.hw specTrvCommit q p qu c b) ∧
      (b.cmdRead c.pid (c.f 24 6) 64 = (.ok (hd, false), k)) ∧
      (RecordEnds k c (c.f 24 6) (trajBytes hd) k2)) := by
  refine ⟨?_, ?_, ?_, ?_, ?_⟩
  · exact ⟨⟨[], (filled 0x100000 env0 served)⟩, Q, zeros 64, queueAt 0, _, _, _, _, acting_of (by decide +kernel),
      w_okFlag (by decide +kernel) (by decide +kernel), by decide +kernel⟩
  · exact ⟨⟨[], shared⟩, Q1, (pk [(26, 16)]), queueAt 0, _, _, _, acting_of (by decide +kernel), recEnd_of
      (by decide +kernel)⟩
  · exact ⟨⟨[], shared⟩, Q1, (pk [(26, 16)]), queueAt 0, _, _, _, acting_of (by decide +kernel), recEnd_of
      (by decide +kernel)⟩
  · exact ⟨⟨[], shared⟩, Q1, (pk [(26, 16)]), queueAt 0, _, _, _, acting_of (by decide +kernel), recEnd_of
      (by decide +kernel)⟩
  · exact ⟨⟨[], (shared.store 0x11FFC0 (putField (zeros 32) 2 2 1) false)⟩, Q1, (pk [(24, 192), (25, 255)]), queueAt
      0, _, _, _, _, _, acting_of (by decide +kernel), w_okFlag (by decide +kernel) (by decide +kernel), recEnd_of
      (by decide +kernel)⟩

/-- For clauses of PacketTraverse with hypotheses, states and operands that meet them (part 3 of 4). -/
theorem witness_PacketTraverse_3 :
    (∃ (st : State) (q : QRef) (p : Packet) (qu : Queue) (c : Cmd) (b : Hw) (hd : List Byte) (k : Hw) (k2 : Hw),
      (Acting st.hw specTrvDustSheet q p qu c b) ∧
      (b.cmdRead c.pid (c.f 24 6) 64 = (.ok (hd, false), k)) ∧
      (RecordEnds k c (c.f 24 6) (trajBytes hd) k2)) ∧
    (∃ (st : State) (q : QRef) (p : Packet) (qu : Queue) (c : Cmd) (b : Hw) (hd : List Byte) (k : Hw) (k2 : Hw),
      (Acting st.hw specTrvCheck q p qu c b) ∧
      (b.cmdRead c.pid (c.f 24 6) 64 = (.ok (hd, false), k)) ∧
      (RecordEnds k c (c.f 24 6) (trajBytes hd) k2)) ∧
    (∃ (st : State) (q : QRef) (p : Packet) (qu : Queue) (c : Cmd) (b : Hw) (hd : List Byte) (bs : List Byte) (k :
      Hw) (k2 : Hw),
      (Acting st.hw specTrvCommit q p qu c b) ∧
      (b.cmdRead c.pid (c.f 24 6) 64 = (.ok (hd, false), k)) ∧
      (k.cmdRead c.pid (c.f 24 6) (trajBytes hd) = (.ok (bs, false), k2)) ∧
      k2.deliverable = false) ∧
    (∃ (st : State) (q : QRef) (p : Packet) (qu : Queue) (c : Cmd) (b : Hw) (hd : List Byte) (bs : List Byte) (k :
      Hw) (k2 : Hw),
      (Acting st.hw specTrvDustSheet q p qu c b) ∧
      (b.cmdRead c.pid (c.f 24 6) 64 = (.ok (hd, false), k)) ∧
      (k.cmdRead c.pid (c.f 24 6) (trajBytes hd) = (.ok (bs, false), k2)) ∧
      k2.deliverable = false) ∧
    (∃ (st : State) (q : QRef) (p : Packet) (qu : Queue) (c : Cmd) (b : Hw) (hd : List Byte) (bs : List Byte) (k :
      Hw) (k2 : Hw),
      (Acting st.hw specTrvCheck q p qu c b) ∧
      (b.cmdRead c.pid (c.f 24 6) 64 = (.ok (hd, false), k)) ∧
      (k.cmdRead c.pid (c.f 24 6) (trajBytes hd) = (.ok (bs, false), k2)) ∧
      k2.deliverable = false) := by
  refine ⟨?_, ?_, ?_, ?_, ?_⟩
  · exact ⟨⟨[], (shared.store 0x11FFC0 (putField (zeros 32) 2 2 1) false)⟩, Q1, (pk [(24, 192), (25, 255)]), queueAt
      0, _, _, _, _, _, acting_of (by decide +kernel), w_okFlag (by decide +kernel) (by decide +kernel), recEnd_of
      (by decide +kernel)⟩
  · exact ⟨⟨[], (shared.store 0x11FFC0 (putField (zeros 32) 2 2 1) false)⟩, Q1, (pk [(24, 192), (25, 255)]), queueAt
      0, _, _, _, _, _, acting_of (by decide +kernel), w_okFlag (by decide +kernel) (by decide +kernel), recEnd_of
      (by decide +kernel)⟩
  · exact ⟨⟨[], (datOf (fun x => { x with linkLost := [4] }) shared)⟩, Q1, (zeros 64), queueAt 0, _, _, _, _, _, _,
      acting_of (by decide +kernel), w_okFlag (by decide +kernel) (by decide +kernel), w_okFlag (by decide +kernel)
      (by decide +kernel), by decide +kernel⟩
  · exact ⟨⟨[], (datOf (fun x => { x with linkLost := [4] }) shared)⟩, Q1, (zeros 64), queueAt 0, _, _, _, _, _, _,
      acting_of (by decide +kernel), w_okFlag (by decide +kernel) (by decide +kernel), w_okFlag (by decide +kernel)
      (by decide +kernel), by decide +kernel⟩
  · exact ⟨⟨[], (datOf (fun x => { x with linkLost := [4] }) shared)⟩, Q1, (zeros 64), queueAt 0, _, _, _, _, _, _,
      acting_of (by decide +kernel), w_okFlag (by decide +kernel) (by decide +kernel), w_okFlag (by decide +kernel)
      (by decide +kernel), by decide +kernel⟩

/-- For clauses of PacketTraverse with hypotheses, states and operands that meet them (part 4 of 4). -/
theorem witness_PacketTraverse_4 :
    (∃ (st : State) (q : QRef) (p : Packet) (qu : Queue) (c : Cmd) (b : Hw) (hd : List Byte) (bs : List Byte) (k :
      Hw) (k2 : Hw),
      (Acting st.hw specTrvCommit q p qu c b) ∧
      (b.cmdRead c.pid (c.f 24 6) 64 = (.ok (hd, false), k)) ∧
      (k.cmdRead c.pid (c.f 24 6) (trajBytes hd) = (.ok (bs, false), k2)) ∧
      k2.deliverable = true) ∧
    (∃ (st : State) (q : QRef) (p : Packet) (qu : Queue) (c : Cmd) (b : Hw) (hd : List Byte) (bs : List Byte) (k :
      Hw) (k2 : Hw),
      (Acting st.hw specTrvDustSheet q p qu c b) ∧
      (b.cmdRead c.pid (c.f 24 6) 64 = (.ok (hd, false), k)) ∧
      (k.cmdRead c.pid (c.f 24 6) (trajBytes hd) = (.ok (bs, false), k2)) ∧
      k2.deliverable = true) ∧
    (∃ (st : State) (q : QRef) (p : Packet) (qu : Queue) (c : Cmd) (b : Hw) (hd : List Byte) (bs : List Byte) (k :
      Hw) (k2 : Hw) (x : Cand),
      (Acting st.hw specTrvCheck q p qu c b) ∧
      (b.cmdRead c.pid (c.f 24 6) 64 = (.ok (hd, false), k)) ∧
      (k.cmdRead c.pid (c.f 24 6) (trajBytes hd) = (.ok (bs, false), k2)) ∧
      (x =
      { pid := c.pid, queue := c.queue, num := c.num, seq := c.seq, resVa := c.f 32 6 / 64 * 64, dl := if c.f 40 4 = 0 then none else some (c.acceptAt + c.f 40 4), traj := { pid := c.pid, seq := c.seq, bytes := bs, shaped := false }, toShape := field bs 0 1 == 1 })
      ∧
      k2.deliverable = true) := by
  refine ⟨?_, ?_, ?_⟩
  · exact ⟨⟨[], served⟩, Q1, zeros 64, queueAt 0, _, _, _, _, _, _, acting_of (by decide +kernel), w_okFlag
      (by decide +kernel) (by decide +kernel), w_okFlag (by decide +kernel) (by decide +kernel), by decide +kernel⟩
  · exact ⟨⟨[], served⟩, Q1, zeros 64, queueAt 0, _, _, _, _, _, _, acting_of (by decide +kernel), w_okFlag
      (by decide +kernel) (by decide +kernel), w_okFlag (by decide +kernel) (by decide +kernel), by decide +kernel⟩
  · exact ⟨⟨[], shared⟩, Q1, zeros 64, queueAt 0, _, _, _, _, _, _, _, acting_of (by decide +kernel), w_okFlag
      (by decide +kernel) (by decide +kernel), w_okFlag (by decide +kernel) (by decide +kernel), rfl,
      by decide +kernel⟩

/-- For clauses of TraverseEvents with hypotheses, states and operands that meet them (part 1 of 3). -/
theorem witness_TraverseEvents :
    (∃ (s : State) (h : Hw) (d : Fin 2) (u : Option TrvUpset) (a : Hw) (k : Hw) (v : Verdict),
      s.hw = h ∧
      (a = (match u with | some e => h.trvUpset d.val e | none => h).trvBoundary) ∧
      (a.slotChoice d.val = (v, k)) ∧
      h.datumOn d.val = true ∧
      ((a.datum d.val).slotAt ≠ some (a.datNow d.val))) ∧
    (∃ (s : State) (h : Hw) (d : Fin 2) (u : Option TrvUpset) (a : Hw),
      s.hw = h ∧
      (a = (match u with | some e => h.trvUpset d.val e | none => h).trvBoundary) ∧
      h.datumOn d.val = true ∧
      ((a.datum d.val).slotAt = some (a.datNow d.val))) ∧
    (∃ (s : State) (h : Hw) (d : Fin 2) (_u : Option TrvUpset),
      s.hw = h ∧
      h.datumOn d.val = false) ∧
    (∃ (h : Hw) (d : Nat),
      (h.datNow d % 100 = 0)) ∧
    (∃ (h : Hw) (d : Nat) (t : Traj),
      ((h.datum d).pendingDust = some t) ∧
      (h.datNow d % 100 = 50)) ∧
    (∃ (h : Hw) (d : Nat),
      (h.datNow d % 100 = 50) ∧
      ((h.datum d).pendingDust = none)) ∧
    (∃ (h : Hw) (d : Nat),
      (h.datNow d % 100 ≠ 0) ∧
      (h.datNow d % 100 ≠ 50) ∧
      ((h.datum d).owedAt.any (fun a => decide (a ≤ h.datNow d)) = true) ∧
      ((h.datum d).dust.isSome = true)) ∧
    (∃ (h : Hw) (k : Hw) (d : Nat) (o : Option Cand),
      (h.takeCand d = (o, k)) ∧
      (h.datNow d % 100 ≠ 0) ∧
      (h.datNow d % 100 ≠ 50) ∧
      ((h.datum d).owedAt.any (fun a => decide (a ≤ h.datNow d)) = false ∨ (h.datum d).dust = none)) ∧
    (∃ (s : State) (h : Hw) (d : Fin 2) (v : Verdict),
      s.hw = h ∧
      ((h.datum d.val).slots.filter (fun v => ! v.complete && decide (v.stroke + 2 ≤ h.datNow d.val)) = [v]) ∧
      h.datumOn d.val = true) ∧
    (∃ (s : State) (h : Hw) (d : Fin 2),
      s.hw = h ∧
      h.datumOn d.val = true ∧
      ((h.datum d.val).slots.filter (fun v => ! v.complete && decide (v.stroke + 2 ≤ h.datNow d.val)) = [])) ∧
    (∃ (h : Hw) (d : Nat) (v : Verdict) (y : Verdict),
      d < 2 ∧
      (y ∈ ((h.completeVerdict d v).datum d).slots) ∧
      (y = v ∨ y = { v with complete := true })) ∧
    (∃ (s : State) (h : Hw) (d : Fin 2),
      s.hw = h ∧
      h.datumOn d.val = true) := by
  refine ⟨?_, ?_, ?_, ?_, ?_, ?_, ?_, ?_, ?_, ?_, ?_, ?_⟩
  · exact ⟨⟨[], (bothDat (fun x => { x with slotAt := some 100 }) run)⟩, (bothDat (fun x =>
      { x with slotAt := some 100 }) run), 0, none, _, _, _, rfl, rfl, w_pair, by decide +kernel⟩
  · exact ⟨⟨[], (bothDat (fun x => { x with slotAt := some 0 }) run)⟩, (bothDat (fun x =>
      { x with slotAt := some 0 }) run), 0, none, _, rfl, rfl, by decide +kernel⟩
  · exact ⟨⟨[], (bothDat (fun x => { x with down := true }) run)⟩, (bothDat (fun x => { x with down := true }) run),
      0, none, rfl, by decide +kernel⟩
  · exact ⟨(bothDat (fun x => { x with pendingDust := some traj0 }) (atTime 150 run)), 0, by decide +kernel⟩
  · exact ⟨(bothDat (fun x => { x with time := 150, pendingDust := some traj0 }) run), 0, _, w_some
      (by decide +kernel), by decide +kernel⟩
  · exact ⟨(bothDat (fun x => { x with time := 150 }) run), 0, by decide +kernel⟩
  · exact ⟨(bothDat (fun x => { x with time := 110, owedAt := some 0, dust := some traj0 }) run), 0,
      by decide +kernel⟩
  · exact ⟨(bothDat (fun x => { x with time := 110 }) run), _, 0, _, w_pair, by decide +kernel⟩
  · exact ⟨⟨[], (bothDat (fun x => { x with time := 110, slots := [verdict0] }) run)⟩, (bothDat (fun x =>
      { x with time := 110, slots := [verdict0] }) run), 0, _, rfl, w_single (by decide +kernel), by decide +kernel⟩
  · exact ⟨⟨[], (bothDat (fun x => { x with slots := [verdict0] }) run)⟩, (bothDat (fun x =>
      { x with slots := [verdict0] }) run), 0, rfl, by decide +kernel⟩
  · exact ⟨(bothDat (fun x => { x with slots := [verdict0] }) run), 0, verdict0, { verdict0 with complete := true },
      by decide +kernel⟩
  · exact ⟨⟨[], (bothDat (fun x => { x with slots := [verdict0] }) run)⟩, (bothDat (fun x =>
      { x with slots := [verdict0] }) run), 0, rfl, by decide +kernel⟩

/-- For clauses of TraverseEvents with hypotheses, states and operands that meet them (part 2 of 3). -/
theorem witness_TraverseEvents_2 :
    (∃ (s : State) (h : Hw) (d : Fin 2),
      s.hw = h ∧
      h.datumOn d.val = false) ∧
    (∃ (s : State) (h : Hw) (d : Fin 2) (_arrives : Bool),
      s.hw = h ∧
      h.datumOn d.val = false) ∧
    (∃ (s : State) (h : Hw) (d : Fin 2) (arrives : Bool) (k : Hw) (x : Datum),
      s.hw = h ∧
      (k = ((h.datum d.val).slots.filter fun v => v.complete && ! v.compared && decide (v.stroke + 3 ≤ h.datNow
      d.val)).foldl (fun y v => y.compareOne d.val arrives v) h) ∧
      (x = k.datA.prune k.datB (k.datNow 0)) ∧
      h.datumOn d.val = true) ∧
    (∃ (h : Hw) (a : Hw) (d : Nat) (v : Verdict),
      (a = h.modDatum d (fun x =>
      { x with slots := x.slots.map fun y => if y = v then { y with compared := true } else y })) ∧
      v.cand = none) ∧
    (∃ (s : State) (h : Hw),
      s.hw = h) ∧
    (∃ (h : Hw) (a : Hw) (k : Hw) (o : TrajOrder),
      (a = h.datumsOn.foldl (fun x d => (x.modDatum d fun y => { y with committed := some o.traj }).showTrv d) h) ∧
      (k =
      { a with trv := { a.trv with orders := a.trv.orders.filter fun x => ! (x.traj.pid == o.traj.pid && x.queue == o.queue && x.num == o.num), sentCommit := some o.traj } })
      ∧
      o.dust = false) ∧
    (∃ (h : Hw) (a : Hw) (k : Hw) (o : TrajOrder),
      (a = h.datumsOn.foldl (fun x d => (x.modDatum d fun y => { y with pendingDust := some o.traj }).showTrv d) h)
      ∧
      (k =
      { a with trv := { a.trv with orders := a.trv.orders.filter fun x => ! (x.traj.pid == o.traj.pid && x.queue == o.queue && x.num == o.num), sentDust := some o.traj } })
      ∧
      o.dust = true) ∧
    (∃ (s : State) (h : Hw) (ok : Bool) (u : SurveyUpd),
      s.hw = h ∧
      (h.trv.updates.find? (fun u => ! u.delivered) = some u) ∧
      ok = true ∧
      h.deliverable = true ∧
      u.late h.trvNow = false) ∧
    (∃ (s : State) (h : Hw) (ok : Bool) (u : SurveyUpd),
      s.hw = h ∧
      (h.trv.updates.find? (fun u => ! u.delivered) = some u) ∧
      (ok = false ∨ h.deliverable = false ∨ u.late h.trvNow = true)) ∧
    (∃ (s : State) (h : Hw) (_ok : Bool),
      s.hw = h ∧
      (h.trv.updates.find? (fun u => ! u.delivered) = none)) ∧
    (∃ (s : State) (h : Hw),
      s.hw = h) ∧
    (∃ (_h : Hw) (u : SurveyUpd),
      u.delivered = false) := by
  refine ⟨?_, ?_, ?_, ?_, ?_, ?_, ?_, ?_, ?_, ?_, ?_, ?_⟩
  · exact ⟨⟨[], (bothDat (fun x => { x with down := true }) run)⟩, (bothDat (fun x => { x with down := true }) run),
      0, rfl, by decide +kernel⟩
  · exact ⟨⟨[], (bothDat (fun x => { x with down := true }) run)⟩, (bothDat (fun x => { x with down := true }) run),
      0, false, rfl, by decide +kernel⟩
  · exact ⟨⟨[], Hw.reset⟩, Hw.reset, 0, false, _, _, rfl, rfl, rfl, by decide +kernel⟩
  · exact ⟨(bothDat (fun x => { x with slots := [verdict0] }) run), _, 0, verdict0, rfl, by decide +kernel⟩
  · exact ⟨⟨[], (trvOf (fun t => { t with orders := [order0 true] }) run)⟩, (trvOf (fun t =>
      { t with orders := [order0 true] }) run), rfl⟩
  · exact ⟨(bothDat (fun x => { x with slots := [verdict0] }) run), _, _, order0 false, rfl, rfl, by decide +kernel⟩
  · exact ⟨(bothDat (fun x => { x with pendingDust := some traj0 }) (atTime 150 run)), _, _, order0 true, rfl, rfl,
      by decide +kernel⟩
  · exact ⟨⟨[], (trvOf (fun t => { t with updates := [update0] }) run)⟩, (trvOf (fun t =>
      { t with updates := [update0] }) run), _, _, rfl, w_some (by decide +kernel), rfl, by decide +kernel⟩
  · exact ⟨⟨[], (trvOf (fun t => { t with updates := [update0] }) run)⟩, (trvOf (fun t =>
      { t with updates := [update0] }) run), false, _, rfl, w_some (by decide +kernel), by decide +kernel⟩
  · exact ⟨⟨[], run⟩, run, false, rfl, by decide +kernel⟩
  · exact ⟨⟨[], (trvOf (fun t => { t with updates := [update0] }) (atTime 4000 run))⟩, (trvOf (fun t =>
      { t with updates := [update0] }) (atTime 4000 run)), rfl⟩
  · exact ⟨(bothDat (fun x => { x with pendingDust := some traj0 }) (atTime 150 run)), update0, by decide +kernel⟩

/-- For clauses of TraverseEvents with hypotheses, states and operands that meet them (part 3 of 3). -/
theorem witness_TraverseEvents_3 :
    (∃ (x : Datum) (bs : List Byte),
      updFault bs = none ∧
      ((applyUpdate x.survey bs).fits = true)) ∧
    (∃ (s : State) (h : Hw),
      s.hw = h) ∧
    (∃ (s : State) (h : Hw),
      s.hw = h ∧
      (∀ d, d ∈ h.datumsOn → (h.datum d).queue.find? (fun c => c.toShape) = none)) ∧
    (∃ (s : State) (h : Hw) (d : Nat) (c : Cand),
      s.hw = h ∧
      (h.datumsOn = [d]) ∧
      ((h.datum d).queue.find? (fun c => c.toShape) = some c)) ∧
    (∃ (s : State) (h : Hw) (c : Cand) (e : Cand) (a : Hw),
      s.hw = h ∧
      ((h.datum 0).queue.find? (fun c => c.toShape) = some c) ∧
      a = h.shapeIn 0 c ∧
      ((a.datum 1).queue.find? (fun c => c.toShape) = some e) ∧
      (h.datumsOn = [0, 1])) ∧
    (∃ (s : State) (h : Hw) (a : Hw) (late : Cand → Bool) (cut : Datum → Datum),
      s.hw = h ∧
      (late = fun c => c.dl.any fun x => decide (x < h.trvNow)) ∧
      (a = ((h.datA.queue ++ h.datB.queue).filter late).foldl (fun y c => y.finishAt c.pid c.queue c.num 0x3004 0 0
      {}) h) ∧
      (cut = fun x => { x with queue := x.queue.filter fun c => ! late c })) := by
  refine ⟨?_, ?_, ?_, ?_, ?_, ?_⟩
  · exact ⟨Datum.reset, zeros 192, by decide +kernel⟩
  · exact ⟨⟨[],
      { (bothDat (fun x => { x with queue := [cand0] }) run) with datB := { run.datB with down := true } }⟩,
      { (bothDat (fun x => { x with queue := [cand0] }) run) with datB := { run.datB with down := true } }, rfl⟩
  · exact ⟨⟨[], run⟩, run, rfl, by decide +kernel⟩
  · exact ⟨⟨[],
      { (bothDat (fun x => { x with queue := [cand0] }) run) with datB := { run.datB with down := true } }⟩,
      { (bothDat (fun x => { x with queue := [cand0] }) run) with datB := { run.datB with down := true } }, _, _,
      rfl, w_single (by decide +kernel), w_some (by decide +kernel)⟩
  · exact ⟨⟨[], (bothDat (fun x => { x with queue := [cand0] }) run)⟩, (bothDat (fun x =>
      { x with queue := [cand0] }) run), _, _, _, rfl, w_some (by decide +kernel), rfl, w_some (by decide +kernel),
      by decide +kernel⟩
  · exact ⟨⟨[], Hw.reset⟩, Hw.reset, _, _, _, rfl, rfl, rfl, rfl⟩

/-- For clauses of GroupEvents with hypotheses, states and operands that meet them (part 1 of 3). -/
theorem witness_GroupEvents :
    (∃ (s : State) (h : Hw) (port : Fin 2) (e : PeerEvent),
      s.hw = h ∧
      e = .noAck ∧
      h.hubOn = true ∧
      h.peerUp port.val = true ∧
      h.grpN ≠ 0) ∧
    (∃ (s : State) (h : Hw) (port : Fin 2) (e : PeerEvent) (ok : Bool) (f : List Byte),
      s.hw = h ∧
      e = .frame ok f ∧
      h.hubOn = true ∧
      h.peerUp port.val = true ∧
      h.grpN ≠ 0 ∧
      (ok = false ∨ 9 < field f 0 1)) ∧
    (∃ (s : State) (h : Hw) (port : Fin 2) (e : PeerEvent) (f : List Byte),
      s.hw = h ∧
      e = .frame true f ∧
      h.hubOn = true ∧
      h.peerUp port.val = true ∧
      h.grpN ≠ 0 ∧
      field f 0 1 = 0) ∧
    (∃ (s : State) (h : Hw) (port : Fin 2) (e : PeerEvent) (f : List Byte),
      s.hw = h ∧
      e = .frame true f ∧
      h.hubOn = true ∧
      h.peerUp port.val = true ∧
      h.grpN ≠ 0 ∧
      0 < field f 0 1 ∧
      field f 0 1 ≤ 9 ∧
      (field f 4 4 ≠ (h.peerPort port.val).nextRecv)) ∧
    (∃ (s : State) (h : Hw) (port : Fin 2) (e : PeerEvent) (f : List Byte),
      s.hw = h ∧
      e = .frame true f ∧
      h.hubOn = true ∧
      h.peerUp port.val = true ∧
      h.grpN ≠ 0 ∧
      0 < field f 0 1 ∧
      field f 0 1 ≤ 9 ∧
      (field f 4 4 = (h.peerPort port.val).nextRecv)) ∧
    (∃ (s : State) (h : Hw) (port : Fin 2) (_e : PeerEvent),
      s.hw = h ∧
      (h.hubOn = false ∨ h.peerUp port.val = false ∨ h.grpN = 0)) ∧
    (∃ (s : State) (h : Hw) (i : Fin 8),
      s.hw = h ∧
      h.grpRuns = true ∧
      h.isManager = true ∧
      i.val ≠ h.grpSelf ∧
      ((h.gmember i.val).heardAt + 1000 ≤ h.now)) ∧
    (∃ (s : State) (h : Hw) (i : Fin 8),
      s.hw = h ∧
      (h.grpRuns = false ∨ h.isManager = false ∨ i.val = h.grpSelf ∨ h.now < (h.gmember i.val).heardAt + 1000)) ∧
    (∃ (s : State) (h : Hw) (i : Fin 8) (a : Hw) (b : Hw) (d : Hw) (e : Hw),
      s.hw = h ∧
      (a = ((h.put (F.PEER_MEMBERS_LOST.bit i.val) 0).put (F.PEER_MEMBERS_IN_SERVICE.bit i.val) 1)) ∧
      (b = a.modMember i.val fun m => { m with lost := false, back := false, heardAt := a.now }) ∧
      (d = if b.get F.PEER_MEMBERS_LOST = 0 then b.put F.PEER_STATUS_STATE 2 else b) ∧
      (e = if d.get F.PEER_STATUS_STANDBY = 15 then d.newStandby else d) ∧
      h.grpRuns = true ∧
      (bit (h.get F.PEER_MEMBERS_LOST) i.val = true) ∧
      ((h.gmember i.val).back = true) ∧
      h.boundaryNow = true ∧
      ((h.gmember i.val).crc = some (grpCrc h.sys.grp.config))) ∧
    (∃ (s : State) (h : Hw) (i : Fin 8),
      s.hw = h ∧
      (h.grpRuns = false ∨ bit (h.get F.PEER_MEMBERS_LOST) i.val = false ∨ h.boundaryNow = false ∨ (h.gmember
      i.val).back = false ∨ (h.gmember i.val).crc ≠ some (grpCrc h.sys.grp.config))) ∧
    (∃ (s : State) (h : Hw) (_sup : List ShardMsg),
      s.hw = h ∧
      h.grpRuns = true ∧
      h.isManager = false ∧
      h.managerGone = true ∧
      h.get F.PEER_STATUS_STANDBY = h.grpSelf) ∧
    (∃ (s : State) (h : Hw) (_sup : List ShardMsg) (x : Nat) (y : Nat),
      s.hw = h ∧
      (x = (h.gmember (h.get F.PEER_STATUS_MANAGER)).heardAt) ∧
      (y = (h.gmember (h.get F.PEER_STATUS_STANDBY)).heardAt) ∧
      h.grpRuns = true ∧
      h.isManager = false ∧
      h.managerGone = true ∧
      h.get F.PEER_STATUS_STANDBY ≠ h.grpSelf ∧
      (h.silent (h.get F.PEER_STATUS_STANDBY) = true) ∧
      (max x y - min x y < h.stn.active.coatLen)) := by
  refine ⟨?_, ?_, ?_, ?_, ?_, ?_, ?_, ?_, ?_, ?_, ?_, ?_⟩
  · exact ⟨⟨[], group0⟩, group0, 0, _, rfl, rfl, by decide +kernel⟩
  · exact ⟨⟨[], group0⟩, group0, 0, _, false, [], rfl, rfl, by decide +kernel⟩
  · exact ⟨⟨[], group0⟩, group0, 0, _, [], rfl, rfl, by decide +kernel⟩
  · exact ⟨⟨[], group0⟩, group0, 0, _, (putField (putField (zeros 64) 0 1 1) 4 4 1), rfl, rfl, by decide +kernel⟩
  · exact ⟨⟨[], group0⟩, group0, 0, _, (putField (zeros 64) 0 1 1), rfl, rfl, by decide +kernel⟩
  · exact ⟨⟨[], run⟩, run, 0, .noAck, rfl, by decide +kernel⟩
  · exact ⟨⟨[], (atTime 1100 group0)⟩, (atTime 1100 group0), 1, rfl, by decide +kernel⟩
  · exact ⟨⟨[], (atTime 1100 group0)⟩, (atTime 1100 group0), 0, rfl, by decide +kernel⟩
  · exact ⟨⟨[], (grpOf (fun g =>
      { g with config := [], members := [(1, { heardAt := 0, crc := some (grpCrc []), lost := true, back := true, recA := none, recB := none, stopped := false })] })
      ((atTime 1000 group0).put (F.PEER_MEMBERS_LOST.bit 1) 1))⟩, (grpOf (fun g =>
      { g with config := [], members := [(1, { heardAt := 0, crc := some (grpCrc []), lost := true, back := true, recA := none, recB := none, stopped := false })] })
      ((atTime 1000 group0).put (F.PEER_MEMBERS_LOST.bit 1) 1)), 1, _, _, _, _, rfl, rfl, rfl, rfl, rfl,
      by decide +kernel⟩
  · exact ⟨⟨[], run⟩, run, 1, rfl, by decide +kernel⟩
  · exact ⟨⟨[], (puts [(F.PEER_STATUS_STANDBY, 0), (F.PEER_STATUS_MANAGER, 1)] (atTime 5000 group0))⟩, (puts
      [(F.PEER_STATUS_STANDBY, 0), (F.PEER_STATUS_MANAGER, 1)] (atTime 5000 group0)), [], rfl, by decide +kernel⟩
  · exact ⟨⟨[], (puts [(F.PEER_STATUS_STANDBY, 1), (F.PEER_STATUS_MANAGER, 2), (F.PEER_STATUS_N, 3)] (atTime 5000
      group0))⟩, (puts [(F.PEER_STATUS_STANDBY, 1), (F.PEER_STATUS_MANAGER, 2), (F.PEER_STATUS_N, 3)] (atTime 5000
      group0)), [], _, _, rfl, rfl, rfl, by decide +kernel⟩

/-- For clauses of GroupEvents with hypotheses, states and operands that meet them (part 2 of 3). -/
theorem witness_GroupEvents_2 :
    (∃ (s : State) (h : Hw) (_sup : List ShardMsg),
      s.hw = h ∧
      (h.grpRuns = false ∨ h.isManager = true ∨ h.managerGone = false)) ∧
    (∃ (s : State) (h : Hw) (_sup : List ShardMsg) (x : Nat) (y : Nat),
      s.hw = h ∧
      (x = (h.gmember (h.get F.PEER_STATUS_MANAGER)).heardAt) ∧
      (y = (h.gmember (h.get F.PEER_STATUS_STANDBY)).heardAt) ∧
      h.get F.PEER_STATUS_STANDBY ≠ h.grpSelf ∧
      (h.silent (h.get F.PEER_STATUS_STANDBY) = false ∨ h.stn.active.coatLen ≤ max x y - min x y)) ∧
    (∃ (s : State) (h : Hw),
      s.hw = h ∧
      h.grpRuns = true ∧
      h.isManager = true ∧
      h.boundaryNow = true ∧
      0 < field h.sys.grp.config 12 1 ∧
      (h.get F.STN_COAT_COUNT_COATS % field h.sys.grp.config 12 1 = 0)) ∧
    (∃ (s : State) (h : Hw),
      s.hw = h ∧
      (h.grpRuns = false ∨ h.isManager = false ∨ h.boundaryNow = false ∨ field h.sys.grp.config 12 1 = 0 ∨ h.get
      F.STN_COAT_COUNT_COATS % field h.sys.grp.config 12 1 ≠ 0)) ∧
    (∃ (s : State) (h : Hw) (p : Fin 2) (ofs : BitVec 32) (a : Hw) (b : Hw) (m : Nat),
      s.hw = h ∧
      (a = h.modGrp fun g =>
      { g with offsets := g.offsets.put p.val ofs.toInt, badOffsets := g.badOffsets.putD 0 p.val 0 }) ∧
      (b = a.put (if p.val = 0 then F.PEER_OFFSET_OFS0 else F.PEER_OFFSET_OFS1) (unsx 16 ofs.toInt)) ∧
      m = max 1 b.grpN ∧
      h.hubOn = true ∧
      h.grpN ≠ 0 ∧
      h.peerUp p.val = true ∧
      ofs.toInt.natAbs ≤ 2000) ∧
    (∃ (s : State) (h : Hw) (p : Fin 2) (ofs : BitVec 32) (a : Hw) (b : Hw) (c : Hw) (n : Nat) (k : Nat),
      s.hw = h ∧
      (k = h.sys.grp.badOffsets.getD 0 p.val + 1) ∧
      (a = h.modGrp fun g =>
      { g with offsets := g.offsets.put p.val ofs.toInt, badOffsets := g.badOffsets.putD 0 p.val k }) ∧
      (b = a.put (if p.val = 0 then F.PEER_OFFSET_OFS0 else F.PEER_OFFSET_OFS1) (unsx 16 (max (-32768) (min 32767
      ofs.toInt)))) ∧
      (n = (if p.val = 0 then (b.grpSelf + 1) % max 1 b.grpN else (b.grpSelf + max 1 b.grpN - 1) % max 1 b.grpN)) ∧
      (c = b.sendPeer 2 n 0 0 0 []) ∧
      h.hubOn = true ∧
      h.grpN ≠ 0 ∧
      h.peerUp p.val = true ∧
      2000 < ofs.toInt.natAbs) ∧
    (∃ (s : State) (h : Hw) (p : Fin 2) (_ofs : BitVec 32),
      s.hw = h ∧
      (h.hubOn = false ∨ h.grpN = 0 ∨ h.peerUp p.val = false)) ∧
    (∃ (s : State) (h : Hw) (_d : Fin 2) (m : Option MgmtMsg),
      s.hw = h ∧
      m = none) ∧
    (∃ (h : Hw) (a : Hw) (d : Nat),
      (a = h.modGrp (fun g => if d = 0 then { g with sentA := some h.now, recA := h.memberRecord } else
      { g with sentB := some h.now, recB := h.memberRecord })) ∧
      d < 2 ∧
      h.datumOn d = true ∧
      h.grpN ≠ 0 ∧
      ((if d = 0 then h.sys.grp.sentA else h.sys.grp.sentB) = none)) ∧
    (∃ (h : Hw) (a : Hw) (d : Nat) (t : Nat),
      ((if d = 0 then h.sys.grp.sentA else h.sys.grp.sentB) = some t) ∧
      (a = h.modGrp (fun g => if d = 0 then { g with sentA := some h.now, recA := h.memberRecord } else
      { g with sentB := some h.now, recB := h.memberRecord })) ∧
      d < 2 ∧
      h.datumOn d = true ∧
      h.grpN ≠ 0 ∧
      (t + 1000 ≤ h.now ∨ h.memberRecord ≠ if d = 0 then h.sys.grp.recA else h.sys.grp.recB)) ∧
    (∃ (h : Hw) (d : Nat) (t : Nat),
      d < 2 ∧
      (h.datumOn d = false ∨ h.grpN = 0 ∨ (if d = 0 then h.sys.grp.sentA else h.sys.grp.sentB) = some t ∧ h.now < t
      + 1000 ∧ h.memberRecord = if d = 0 then h.sys.grp.recA else h.sys.grp.recB)) ∧
    (∃ (s : State) (h : Hw) (d : Fin 2) (m : Option MgmtMsg) (x : MgmtMsg),
      s.hw = h ∧
      m = some x ∧
      h.datumOn d.val = true ∧
      0 < h.grpN) := by
  refine ⟨?_, ?_, ?_, ?_, ?_, ?_, ?_, ?_, ?_, ?_, ?_, ?_⟩
  · exact ⟨⟨[], run⟩, run, [], rfl, by decide +kernel⟩
  · exact ⟨⟨[], run⟩, run, [], _, _, rfl, rfl, rfl, by decide +kernel⟩
  · exact ⟨⟨[], (grpOf (fun g => { g with config := gconf }) (atTime 1000 group0))⟩, (grpOf (fun g =>
      { g with config := gconf }) (atTime 1000 group0)), rfl, by decide +kernel⟩
  · exact ⟨⟨[], run⟩, run, rfl, by decide +kernel⟩
  · exact ⟨⟨[], group0⟩, group0, 0, 0, _, _, _, rfl, rfl, rfl, rfl, by decide +kernel⟩
  · exact ⟨⟨[], group0⟩, group0, 0, 48000, _, _, _, _, _, rfl, rfl, rfl, rfl, rfl, rfl, by decide +kernel⟩
  · exact ⟨⟨[], run⟩, run, 0, 0, rfl, by decide +kernel⟩
  · exact ⟨⟨[], group0⟩, group0, 0, _, rfl, rfl⟩
  · exact ⟨group0, _, 0, rfl, by decide +kernel⟩
  · exact ⟨(grpOf (fun g => { g with sentA := some 0, sentB := some 0 }) (atTime 2000 group0)), _, 0, _, w_some
      (by decide +kernel), rfl, by decide +kernel⟩
  · exact ⟨(bothDat (fun x => { x with down := true }) run), 0, 0, by decide +kernel⟩
  · exact ⟨⟨[], group0⟩, group0, 0, _, .join 0 1 0, rfl, rfl, by decide +kernel⟩

/-- For clauses of GroupEvents with hypotheses, states and operands that meet them (part 3 of 3). -/
theorem witness_GroupEvents_3 :
    (∃ (s : State) (h : Hw) (d : Fin 2) (m : Option MgmtMsg) (x : MgmtMsg),
      s.hw = h ∧
      m = some x ∧
      (h.datumOn d.val = false ∨ h.grpN = 0)) ∧
    (∃ (s : State) (h : Hw) (gseq : BitVec 48) (j : GJob),
      s.hw = h ∧
      (h.sys.grp.jobs.find? (fun j => j.gseq == gseq.toNat) = some j) ∧
      h.grpRuns = true ∧
      h.isManager = true ∧
      j.dispatched = true ∧
      j.worker ≠ 15 ∧
      j.subDl < h.now) ∧
    (∃ (s : State) (h : Hw) (gseq : BitVec 48) (j : GJob),
      s.hw = h ∧
      (h.sys.grp.jobs.find? (fun j => j.gseq == gseq.toNat) = some j) ∧
      h.grpRuns = true ∧
      h.isManager = true ∧
      (j.dispatched = false ∨ j.worker = 15 ∨ h.now ≤ j.subDl)) ∧
    (∃ (s : State) (h : Hw) (_gseq : BitVec 48),
      s.hw = h ∧
      (h.grpRuns = false ∨ h.isManager = false)) ∧
    (∃ (s : State) (h : Hw) (gseq : BitVec 48),
      s.hw = h ∧
      h.grpRuns = true ∧
      h.isManager = true ∧
      (h.sys.grp.jobs.find? (fun j => j.gseq == gseq.toNat) = none)) := by
  refine ⟨?_, ?_, ?_, ?_, ?_⟩
  · exact ⟨⟨[], run⟩, run, 0, _, .join 0 1 0, rfl, rfl, by decide +kernel⟩
  · exact ⟨⟨[], (grpOf (fun g => { g with jobs := [gjob0] }) group0)⟩, (grpOf (fun g => { g with jobs := [gjob0] })
      group0), 5, _, rfl, w_some (by decide +kernel), by decide +kernel⟩
  · exact ⟨⟨[], (grpOf (fun g => { g with jobs := [{ gjob0 with subDl := 1000 }] }) group0)⟩, (grpOf (fun g =>
      { g with jobs := [{ gjob0 with subDl := 1000 }] }) group0), 5, _, rfl, w_some (by decide +kernel),
      by decide +kernel⟩
  · exact ⟨⟨[], run⟩, run, 5, rfl, by decide +kernel⟩
  · exact ⟨⟨[], group0⟩, group0, 5, rfl, by decide +kernel⟩

/-- For clauses of DetectionFinishers with hypotheses, states and operands that meet them (part 1 of 2). -/
theorem witness_DetectionFinishers :
    (∃ (s : State) (h : Hw) (src : Fin 1024) (fin : Fin 4) (m : Msg) (k : Hw),
      s.hw = h ∧
      (h.takeDfin src.val fin.val = (some m, k)) ∧
      h.fabricOn = true) ∧
    (∃ (s : State) (h : Hw) (src : Fin 1024) (fin : Fin 4) (k : Hw),
      s.hw = h ∧
      (h.takeDfin src.val fin.val = (none, k)) ∧
      h.fabricOn = true) ∧
    (∃ (s : State) (h : Hw) (_src : Fin 1024) (_fin : Fin 4),
      s.hw = h ∧
      h.fabricOn = false) ∧
    (∃ (h : Hw) (k : Hw) (fin : Nat) (pid : Nat) (n : List Byte) (st : Bool) (r : DfinReq),
      (h.dfin.filter (fun r => r.is fin pid (field n 0 2) && r.closedAt.isNone) = [r]) ∧
      (k =
      { h with dfin := h.dfin.filter (fun r => ! (r.is fin pid (field n 0 2) && r.closedAt.isNone)) ++ [{ r with ranges := r.ranges ++ [(bits (field n 4 4) 0 17, bits (field n 8 4) 0 17)], seen := h.seeRecords r (bits (field n 4 4) 0 17) (bits (field n 8 4) 0 17), finals := r.finals + b2n (bit (field n 2 1) 0), stained := r.stained || st, closedAt := if st = true ∨ r.nSend ≤ r.finals + b2n (bit (field n 2 1) 0) then some h.now else none }] })) ∧
    (∃ (h : Hw) (k : Hw) (fin : Nat) (pid : Nat) (a : Nat) (c : Nat) (n : List Byte) (_st : Bool),
      (h.readVa 0 pid (field n 16 6 / 128 * 128) 128 = (.error (a, c), k)) ∧
      (h.dfin.any (fun r => r.is fin pid (field n 0 2) && r.closedAt.isNone) = false) ∧
      ((h.dfin.filter fun r => r.fin == fin && r.pid == pid && r.closedAt.isNone).length < 4)) ∧
    (∃ (h : Hw) (k : Hw) (fin : Nat) (pid : Nat) (n : List Byte) (bs : List Byte) (_st : Bool) (ds : Bool) (r :
      DfinReq),
      (h.readVa 0 pid (field n 16 6 / 128 * 128) 128 = (.ok (bs, ds), k)) ∧
      (r =
      { fin := fin, pid := pid, req := field n 0 2, desc := bs, descVa := field n 16 6 / 128 * 128, ranges := [], finals := 0, closedAt := none, stained := ds, seen := [], spent := 0, paid := 0 })
      ∧
      (h.dfin.any (fun r => r.is fin pid (field n 0 2) && r.closedAt.isNone) = false) ∧
      ((h.dfin.filter fun r => r.fin == fin && r.pid == pid && r.closedAt.isNone).length < 4)) ∧
    (∃ (h : Hw) (fin : Nat) (pid : Nat) (n : List Byte) (_st : Bool),
      (h.dfin.any (fun r => r.is fin pid (field n 0 2) && r.closedAt.isNone) = false) ∧
      (4 ≤ (h.dfin.filter fun r => r.fin == fin && r.pid == pid && r.closedAt.isNone).length)) ∧
    (∃ (s : State) (h : Hw) (fin : Fin 4) (pid : Fin 256) (r : DfinReq) (r1 : DfinReq) (r2 : DfinReq) (h1 : Hw) (h2
      : Hw),
      s.hw = h ∧
      h.nextRequest fin.val pid.val = some r ∧
      (h.dfinMove r = (r1, h1)) ∧
      (h1.dfinTurn r1 (h1.dfinPart r1) = (r2, h2)) ∧
      h.fabricOn = true ∧
      h2.dfinNeed r2 ≤ r2.spent ∧
      ((h2.dfinLines r2).length ≤ r2.paid)) ∧
    (∃ (s : State) (h : Hw) (fin : Fin 4) (pid : Fin 256) (r : DfinReq) (r1 : DfinReq) (r2 : DfinReq) (h1 : Hw) (h2
      : Hw),
      s.hw = h ∧
      h.nextRequest fin.val pid.val = some r ∧
      (h.dfinMove r = (r1, h1)) ∧
      (h1.dfinTurn r1 (h1.dfinPart r1) = (r2, h2)) ∧
      h.fabricOn = true ∧
      (r2.spent < h2.dfinNeed r2 ∨ r2.paid < (h2.dfinLines r2).length)) ∧
    (∃ (s : State) (h : Hw) (_fin : Fin 4) (_pid : Fin 256),
      s.hw = h ∧
      h.fabricOn = false) ∧
    (∃ (s : State) (h : Hw) (fin : Fin 4) (pid : Fin 256),
      s.hw = h ∧
      h.nextRequest fin.val pid.val = none) ∧
    (∃ (_h : Hw) (r : DfinReq),
      r.stained = true) := by
  refine ⟨?_, ?_, ?_, ?_, ?_, ?_, ?_, ?_, ?_, ?_, ?_, ?_⟩
  · exact ⟨⟨[], (fabOf (fun f => { f with station := [(0, notice0.toFlits)] }) run)⟩, (fabOf (fun f =>
      { f with station := [(0, notice0.toFlits)] }) run), 0, 0, _, _, rfl, w_someFst (by decide +kernel),
      by decide +kernel⟩
  · exact ⟨⟨[], (fabOf (fun f => { f with station := [(0, notice0.toFlits)] }) run)⟩, (fabOf (fun f =>
      { f with station := [(0, notice0.toFlits)] }) run), 0, 1, _, rfl, w_fst (by decide +kernel),
      by decide +kernel⟩
  · exact ⟨⟨[], (offed ((fabOf (fun f => { f with station := [(0, notice0.toFlits)] }) run)))⟩, (offed ((fabOf (fun
      f => { f with station := [(0, notice0.toFlits)] }) run))), 0, 0, rfl, by decide +kernel⟩
  · exact ⟨{ run with dfin := [req0 none] }, _, 0, 1, zeros 64, false, _, w_single (by decide +kernel), rfl⟩
  · exact ⟨{ run with dfin := (List.range 4).map fun i => { req0 none with req := i + 1 } }, _, 0, 0, _, _, zeros
      64, false, w_errFst (by decide +kernel), by decide +kernel⟩
  · exact ⟨served, _, 0, 0, zeros 64, _, false, _, _, w_okFst (by decide +kernel), rfl, by decide +kernel⟩
  · exact ⟨{ run with dfin := (List.range 4).map fun i => { req0 none with req := i + 1 } }, 0, 1, zeros 64, false,
      by decide +kernel⟩
  · exact ⟨⟨[], { run with dfin := [req0 (some 50)] }⟩, { run with dfin := [req0 (some 50)] }, 0, 1, _, _, _, _, _,
      rfl, w_some (by decide +kernel), w_pair, w_pair, by decide +kernel⟩
  · exact ⟨⟨[],
      { run with dfin := [req0 (some 50)], fab := { run.fab with dfinUsed := (upto 0 16).map fun i => (i, 10000000) } }⟩,
      { run with dfin := [req0 (some 50)], fab := { run.fab with dfinUsed := (upto 0 16).map fun i => (i, 10000000) } },
      0, 1, _, _, _, _, _, rfl, w_some (by decide +kernel), w_pair, w_pair, by decide +kernel⟩
  · exact ⟨⟨[], (offed ({ run with dfin := [req0 (some 50)] }))⟩, (offed ({ run with dfin := [req0 (some 50)] })),
      0, 0, rfl, by decide +kernel⟩
  · exact ⟨⟨[], { run with dfin := [req0 (some 50)] }⟩, { run with dfin := [req0 (some 50)] }, 0, 0, rfl,
      by decide +kernel⟩
  · exact ⟨run, { req0 none with stained := true }, by decide +kernel⟩

/-- For clauses of DetectionFinishers with hypotheses, states and operands that meet them (part 2 of 2). -/
theorem witness_DetectionFinishers_2 :
    (∃ (h : Hw) (r : DfinReq) (_sm : List Byte) (bx : List Byte) (ps : List (Nat × Nat)),
      (h.mem.translateRun r.pid r.outVa (64 + bx.length) .wr true = .ok ps)) ∧
    (∃ (h : Hw) (r : DfinReq) (_sm : List Byte) (bx : List Byte) (a : Nat) (cs : Nat),
      (h.mem.translateRun r.pid r.outVa (64 + bx.length) .wr true = .error (a, cs))) := by
  refine ⟨?_, ?_⟩
  · exact ⟨served, { req0 none with desc := putField (zeros 64) 32 6 0x110000 }, zeros 64, [], _, w_ok
      (by decide +kernel)⟩
  · exact ⟨run, req0 none, zeros 64, [], _, _, w_errorPair (by decide +kernel)⟩

/-- For clauses of Connectors with hypotheses, states and operands that meet them (part 1 of 3). -/
theorem witness_Connectors :
    (∃ (s : State) (h : Hw) (a : WinAccess) (pid : Nat) (p : Nat) (old : Nat) (k : Hw),
      s.hw = h ∧
      h.hartPid a.hart.val = some pid ∧
      (h.mem.translate pid a.va.toNat (if a.form.val = 0 then .rd else .wr) false = .ok p) ∧
      (h.sobWindow 2 pid ((p - 0x0500_0000_0000) / 8) (if p % 8 = 0 then a.form.val else 3) a.value.toNat = (old,
      k)) ∧
      h.fabricOn = true ∧
      h.hubOn = true ∧
      a.pcie = false ∧
      h.region p = .sobWin) ∧
    (∃ (s : State) (h : Hw) (a : WinAccess) (pid : Nat) (p : Nat),
      s.hw = h ∧
      h.hartPid a.hart.val = some pid ∧
      (h.mem.translate pid a.va.toNat (if a.form.val = 0 then .rd else .wr) false = .ok p) ∧
      h.fabricOn = true ∧
      h.hubOn = true ∧
      a.pcie = false ∧
      h.region p ≠ .sobWin) ∧
    (∃ (s : State) (h : Hw) (a : WinAccess) (pid : Nat) (c : Nat),
      s.hw = h ∧
      h.hartPid a.hart.val = some pid ∧
      (h.mem.translate pid a.va.toNat (if a.form.val = 0 then .rd else .wr) false = .error c) ∧
      h.fabricOn = true ∧
      h.hubOn = true ∧
      a.pcie = false) ∧
    (∃ (s : State) (h : Hw) (a : WinAccess),
      s.hw = h ∧
      a.pcie = false ∧
      (h.fabricOn = false ∨ h.hubOn = false ∨ h.hartPid a.hart.val = none)) ∧
    (∃ (s : State) (h : Hw) (a : WinAccess),
      s.hw = h ∧
      a.pcie = true ∧
      h.portRuns a.port.val = true) ∧
    (∃ (s : State) (h : Hw) (a : WinAccess),
      s.hw = h ∧
      a.pcie = true ∧
      h.portRuns a.port.val = false) ∧
    (∃ (h : Hw) (_g : Nat) (pid : Nat) (i : Nat) (_v : Nat),
      h.holdsSob pid i = false) ∧
    (∃ (s : State) (h : Hw) (r : PcieReq) (t : Tlp),
      s.hw = h ∧
      r = .mem t ∧
      h.portRuns t.port.val = true ∧
      (t.addr.toNat ≠ 2 ^ 48 ∨ t.kind.val ≠ 1 ∨ h.get (F.PCIE_CFG_ROLE.port t.port.val) ≠ 0)) ∧
    (∃ (s : State) (h : Hw) (r : PcieReq) (t : Tlp),
      s.hw = h ∧
      r = .mem t ∧
      h.portRuns t.port.val = true ∧
      (t.addr.toNat = 2 ^ 48) ∧
      t.kind.val = 1 ∧
      (h.get (F.PCIE_CFG_ROLE.port t.port.val) = 0)) ∧
    (∃ (s : State) (h : Hw) (r : PcieReq) (t : Tlp),
      s.hw = h ∧
      r = .mem t ∧
      h.portRuns t.port.val = false) ∧
    (∃ (s : State) (h : Hw) (r : PcieReq) (port : Fin 2) (rid : BitVec 16) (en : Bool) (all : Bool),
      s.hw = h ∧
      r = .msix port rid en all ∧
      h.portRuns port.val = true) ∧
    (∃ (s : State) (h : Hw) (r : PcieReq) (port : Fin 2) (rid : BitVec 16) (e : Fin 2048) (on : Bool),
      s.hw = h ∧
      r = .mask port rid e on ∧
      h.portRuns port.val = true) := by
  refine ⟨?_, ?_, ?_, ?_, ?_, ?_, ?_, ?_, ?_, ?_, ?_, ?_⟩
  · exact ⟨⟨[], (doored 1 0x0500_0000_0000 onCore)⟩, (doored 1 0x0500_0000_0000 onCore), ⟨false,0,0,0,0,8,5⟩, _, _,
      _, _, rfl, w_some (by decide +kernel), w_ok (by decide +kernel), w_pair, by decide +kernel⟩
  · exact ⟨⟨[], onCore⟩, onCore, ⟨false,0,0,0,0,300,5⟩, _, _, rfl, w_some (by decide +kernel), w_ok
      (by decide +kernel), by decide +kernel⟩
  · exact ⟨⟨[], onCore⟩, onCore, ⟨false,0,0,0,0,0x300000,5⟩, _, _, rfl, w_some (by decide +kernel), w_error
      (by decide +kernel), by decide +kernel⟩
  · exact ⟨⟨[], pcieRun⟩, pcieRun, ⟨false,0,0,0,0,300,5⟩, rfl, by decide +kernel⟩
  · exact ⟨⟨[], pcieRun⟩, pcieRun, ⟨true,0,0,0,0,300,5⟩, rfl, by decide +kernel⟩
  · exact ⟨⟨[], onCore⟩, onCore, ⟨true,0,0,0,0,300,5⟩, rfl, by decide +kernel⟩
  · exact ⟨served, 0, 1, 0, 0, by decide +kernel⟩
  · exact ⟨⟨[], pcieRun⟩, pcieRun, _, tlp0, rfl, rfl, by decide +kernel⟩
  · exact ⟨⟨[], pcieRun⟩, pcieRun, _, { tlp0 with addr := 0x1000000000000, kind := 1, data := zeros 4 }, rfl, rfl,
      by decide +kernel⟩
  · exact ⟨⟨[], served⟩, served, _, tlp0, rfl, rfl, by decide +kernel⟩
  · exact ⟨⟨[], pcieRun⟩, pcieRun, _, 0, 0, true, false, rfl, rfl, by decide +kernel⟩
  · exact ⟨⟨[], pcieRun⟩, pcieRun, _, 0, 0, 0, false, rfl, rfl, by decide +kernel⟩

/-- For clauses of Connectors with hypotheses, states and operands that meet them (part 2 of 3). -/
theorem witness_Connectors_2 :
    (∃ (s : State) (h : Hw) (r : PcieReq) (port : Fin 2) (rid : BitVec 16) (e : Fin 2048) (en : Bool) (all : Bool),
      s.hw = h ∧
      (r = .mask port rid e en ∨ r = .msix port rid en all) ∧
      h.portRuns port.val = false) ∧
    (∃ (s : State) (h : Hw) (r : PcieReq) (port : Fin 2) (n : Fin 65),
      s.hw = h ∧
      r = .vfs port n) ∧
    (∃ (h : Hw) (t : Tlp),
      h.tlpPid t = none) ∧
    (∃ (h : Hw) (k : Hw) (t : Tlp),
      (k = h.ownerRefused (.pcie t.port t.rid)) ∧
      h.tlpPid t = some 0 ∧
      ((h.actsAsOwner (.pcie t.port t.rid)).isNone = true)) ∧
    (∃ (h : Hw) (k : Hw) (t : Tlp) (pid : Nat) (a : Nat) (c : Nat),
      h.tlpPid t = some pid ∧
      (h.mem.translateRun pid t.addr.toNat (if t.kind.val = 0 then t.len.val else t.data.length) (if t.kind.val = 0
      then .rd else .wr) false = .error (a, c)) ∧
      k = h.translationFault 4 c pid a ∧
      (pid ≠ 0 ∨ (h.actsAsOwner (.pcie t.port t.rid)).isNone = false)) ∧
    (∃ (h : Hw) (t : Tlp) (pid : Nat) (ps : List (Nat × Nat)),
      h.tlpPid t = some pid ∧
      (h.mem.translateRun pid t.addr.toNat (if t.kind.val = 0 then t.len.val else t.data.length) (if t.kind.val = 0
      then .rd else .wr) false = .ok ps) ∧
      (pid ≠ 0 ∨ (h.actsAsOwner (.pcie t.port t.rid)).isNone = false)) ∧
    (∃ (h : Hw) (t : Tlp) (_pid : Nat) (ps : List (Nat × Nat)),
      h.allMemory ps = true ∧
      t.kind.val ≠ 2) ∧
    (∃ (s : State) (h : Hw) (port : Fin 2) (rid : BitVec 16) (_data : List Byte) (pid : Nat),
      s.hw = h ∧
      h.boundPid port.val rid.toNat = some pid ∧
      h.portRuns port.val = true ∧
      (h.get (F.PCIE_CFG_ROLE.port port.val) = 0)) ∧
    (∃ (s : State) (h : Hw) (port : Fin 2) (rid : BitVec 16) (_data : List Byte),
      s.hw = h ∧
      h.portRuns port.val = true ∧
      (h.get (F.PCIE_CFG_ROLE.port port.val) = 0) ∧
      h.boundPid port.val rid.toNat = none) ∧
    (∃ (s : State) (h : Hw) (port : Fin 2) (_rid : BitVec 16) (_data : List Byte),
      s.hw = h ∧
      (h.portRuns port.val = false ∨ h.get (F.PCIE_CFG_ROLE.port port.val) ≠ 0)) ∧
    (∃ (s : State) (h : Hw) (port : Fin 2) (gen : Fin 6) (log2w : Fin 4) (a : Hw) (b : Hw),
      s.hw = h ∧
      (a = if h.on (F.PCIE_STATUS_UP.port port.val) = true then h.addSat (F.PCIE_ERR_RETRAIN.port port.val) 1 else
      h) ∧
      (b = ((a.put (F.PCIE_STATUS_UP.port port.val) 1).put (F.PCIE_STATUS_GEN.port port.val) gen.val).put
      (F.PCIE_STATUS_LOG2_WIDTH.port port.val) log2w.val) ∧
      gen.val ≠ 0 ∧
      h.fabricOn = true ∧
      h.blockOn 0x730 = true) ∧
    (∃ (s : State) (h : Hw) (_port : Fin 2) (gen : Fin 6) (_log2w : Fin 4),
      s.hw = h ∧
      (gen.val = 0 ∨ h.fabricOn = false ∨ h.blockOn 0x730 = false)) := by
  refine ⟨?_, ?_, ?_, ?_, ?_, ?_, ?_, ?_, ?_, ?_, ?_, ?_⟩
  · exact ⟨⟨[], served⟩, served, .msix 0 0 true false, 0, 0, 0, true, false, rfl, by decide +kernel⟩
  · exact ⟨⟨[], served⟩, served, _, 0, 0, rfl, rfl⟩
  · exact ⟨served, tlp0, by decide +kernel⟩
  · exact ⟨cfgOf (fun c => { c with sources := [{ pcie := true, id := 0, drive := false }] }) ((puts
      [(F.PCIE_STATUS_UP.port 0, 1)] served).put F.MOD_MODE_MODE 3), _, tlp0, rfl, by decide +kernel⟩
  · exact ⟨pcieRun, _, { tlp0 with addr := 0x300000 }, _, _, _, w_some (by decide +kernel), w_errorPair
      (by decide +kernel), rfl, by decide +kernel⟩
  · exact ⟨pcieRun, tlp0, _, _, w_some (by decide +kernel), w_ok (by decide +kernel), by decide +kernel⟩
  · exact ⟨pcieRun, tlp0, 0, [], by decide +kernel⟩
  · exact ⟨⟨[], pcieRun⟩, pcieRun, 0, 0, [], _, rfl, w_some (by decide +kernel), by decide +kernel⟩
  · exact ⟨⟨[], pcieRun⟩, pcieRun, 0, 1, [], rfl, by decide +kernel⟩
  · exact ⟨⟨[], pcieRun⟩, pcieRun, 1, 0, [], rfl, by decide +kernel⟩
  · exact ⟨⟨[], served⟩, served, 0, 1, 0, _, _, rfl, rfl, rfl, by decide +kernel⟩
  · exact ⟨⟨[], Hw.reset⟩, Hw.reset, 0, 0, 0, rfl, by decide +kernel⟩

/-- For clauses of Connectors with hypotheses, states and operands that meet them (part 3 of 3). -/
theorem witness_Connectors_3 :
    (∃ (s : State) (h : Hw) (ch : Fin 4) (st : Fin 6) (a : Hw),
      s.hw = h ∧
      (a = { h with sys := { h.sys with can := h.sys.can.putD 0 ch.val st.val } }) ∧
      h.sys.can.getD 0 ch.val ≠ st.val ∧
      (ch.val < 2 ∨ h.domainOn 34 = true)) ∧
    (∃ (s : State) (h : Hw) (ch : Fin 4) (st : Fin 6),
      s.hw = h ∧
      (h.sys.can.getD 0 ch.val = st.val ∨ 2 ≤ ch.val ∧ h.domainOn 34 = false)) := by
  refine ⟨?_, ?_⟩
  · exact ⟨⟨[], Hw.reset⟩, Hw.reset, 0, 1, _, rfl, rfl, by decide +kernel⟩
  · exact ⟨⟨[], Hw.reset⟩, Hw.reset, 0, 0, rfl, by decide +kernel⟩

/-- For each clause of AccumulatorTags with hypotheses, a state and operands that meet them. -/
theorem witness_AccumulatorTags :
    (∃ (_lam : Int) (x : Acc) (v : Val) (t : Nat),
      x.tag < 4 ∧
      ((v = .nan ∧ t = 3) ∨ (v = .inf false ∧ t = 1) ∨ (v = .inf true ∧ t = 2))) ∧
    (∃ (a : Nat) (b : Nat),
      a < 4 ∧
      b < 4) ∧
    (∃ (a : Nat) (b : Nat) (c : Nat),
      a < 4 ∧
      b < 4 ∧
      c < 4) := by
  refine ⟨?_, ?_, ?_⟩
  · exact ⟨0, ⟨0, 0⟩, .nan, 3, by decide +kernel⟩
  · exact ⟨0, 0, by decide +kernel⟩
  · exact ⟨0, 0, 0, by decide +kernel⟩

/-- For each clause of CoatBoundaries with hypotheses, a state and operands that meet them. -/
theorem witness_CoatBoundaries :
    (∃ (h : Hw),
      0 < h.stn.active.coatLen ∧
      h.stn.active.phase < h.stn.active.coatLen) ∧
    (∃ (g : Hw) (h : Hw),
      g.now = h.now ∧
      g.stn.active.coatLen = h.stn.active.coatLen ∧
      g.stn.active.phase = h.stn.active.phase) ∧
    (∃ (h : Hw) (c : Cmd) (x : Stencil), h.judgeStencil c = .good x) := by
  refine ⟨?_, ?_, ?_⟩
  · exact ⟨Hw.reset, by decide +kernel⟩
  · exact ⟨Hw.reset, Hw.reset, by decide +kernel⟩
  · exact ⟨filled 0x100000 stnBytes served, { cmd0 none with pkt := pk [(0, 0xC5), (32, 0xA0)] }, Stencil.firmware,
      by decide +kernel⟩

/-- States and operands that meet the hypotheses of PlacesOfChannels. -/
theorem witness_PlacesOfChannels :
    ∃ (c : Nat),
    c < 64 :=
  ⟨0, by decide +kernel⟩

/-- For each clause of StepRunsTheFrontCommand with hypotheses, a state and operands that meet them. -/
theorem witness_StepRunsTheFrontCommand :
    (∃ (s : State),
      (s.pending = [])) ∧
    (∃ (c : Instr) (cs : List Instr) (s : State), s.pending = c :: cs) := by
  refine ⟨?_, ?_⟩
  · exact ⟨⟨[], Hw.reset⟩, by decide +kernel⟩
  · exact ⟨.capacityShed, [.strokePulse], ⟨[.capacityShed, .strokePulse], run⟩, rfl⟩

/-- For each clause of ResetState with hypotheses, a state and operands that meet them. -/
theorem witness_ResetState :
    (∃ (b : Nat) (o : Nat),
      (regSpec? b o = none)) ∧
    (∃ (r : RegSpec) (f : FieldSpec), r ∈ regTable ∧ f ∈ r.fields ∧ ¬ (r.block = 0x100 ∧ r.off = 0)) := by
  refine ⟨?_, ?_⟩
  · exact ⟨0, 1, by decide +kernel⟩
  · exact ⟨regTable.headD ⟨0, 0, 0, 0, 0, []⟩, (regTable.headD ⟨0, 0, 0, 0, 0, []⟩).fields.headD ⟨0, 0, .ro, 0⟩,
      by decide +kernel, by decide +kernel, by decide +kernel⟩

/-- States and operands that meet the hypotheses of StepKeepsSound. -/
theorem witness_StepKeepsSound :
    ∃ s s' : State, s.Sound ∧ Sys2Proof.Machine.step s = .next s' :=
  ⟨⟨[.capacityShed], State.reset.hw⟩, _, ⟨by decide +kernel, by decide +kernel⟩, rfl⟩

end Sys2Proof.Tests
end

namespace Sys2Proof.Machine

/-! The register map (R14, R15): a write and a reset act field by field. -/

/-- Two fields of a register that share no bit. -/
def FieldSpec.apart (f g : FieldSpec) : Prop := f.lo + f.len ≤ g.lo ∨ g.lo + g.len ≤ f.lo

/-- A register with each field of a list set to its value under `g`. -/
def setFieldsBy (g : FieldSpec → Nat) (fs : List FieldSpec) (w : Nat) : Nat :=
  fs.foldl (fun acc f => setBits acc f.lo f.len (g f)) w

@[simp] theorem setFieldsBy_nil (g : FieldSpec → Nat) (w : Nat) : setFieldsBy g [] w = w := rfl

@[simp] theorem setFieldsBy_cons (g : FieldSpec → Nat) (f : FieldSpec) (fs : List FieldSpec) (w : Nat) :
    setFieldsBy g (f :: fs) w = setFieldsBy g fs (setBits w f.lo f.len (g f)) := rfl

theorem RegSpec.written_eq (r : RegSpec) (locked : Bool) (old v : Nat) :
    r.written locked old v = setFieldsBy (fun f => f.written locked old v) r.fields old := rfl

/-- A bit that lies in none of the fields set keeps its value. -/
theorem testBit_setFieldsBy_outside (g : FieldSpec → Nat) (fs : List FieldSpec) (w i : Nat)
    (hout : ∀ f ∈ fs, i < f.lo ∨ f.lo + f.len ≤ i) : (setFieldsBy g fs w).testBit i = w.testBit i := by
  induction fs generalizing w with
  | nil => rfl
  | cons f fs ih =>
    obtain ⟨hf, hfs⟩ := List.forall_mem_cons.mp hout
    rw [setFieldsBy_cons, ih _ hfs, setBits_testBit, if_neg (by omega)]

/-- A field apart from all the fields set reads as before. -/
theorem bits_setFieldsBy_apart (g : FieldSpec → Nat) (fs : List FieldSpec) (w : Nat) (f : FieldSpec)
    (hapart : ∀ e ∈ fs, f.apart e) : bits (setFieldsBy g fs w) f.lo f.len = bits w f.lo f.len := by
  induction fs generalizing w with
  | nil => rfl
  | cons e fs ih =>
    obtain ⟨he, hfs⟩ := List.forall_mem_cons.mp hapart
    rw [setFieldsBy_cons, ih _ hfs, bits_setBits_beside _ _ _ _ _ _ he]

/-- Of fields set that lie apart, each reads the value it was set to. -/
theorem bits_setFieldsBy_mem (g : FieldSpec → Nat) {fs : List FieldSpec} (w : Nat) {f : FieldSpec}
    (hpair : fs.Pairwise FieldSpec.apart) (hf : f ∈ fs) :
    bits (setFieldsBy g fs w) f.lo f.len = g f % 2 ^ f.len := by
  induction fs generalizing w with
  | nil => cases hf
  | cons e fs ih =>
    obtain ⟨he, hfs⟩ := List.pairwise_cons.mp hpair
    rw [setFieldsBy_cons]
    rcases List.mem_cons.mp hf with rfl | hmem
    · rw [bits_setFieldsBy_apart g fs _ f he, bits_setBits_same]
    · exact ih _ hfs hmem

/-- In every row of the register map the fields lie apart. -/
theorem regTable_fields_apart : ∀ r ∈ regTable, r.fields.Pairwise FieldSpec.apart := by
  unfold FieldSpec.apart
  decide +kernel

/-- A number is its bits that another lacks and its bits that the other has. -/
theorem ldiff_add_land (a b : Nat) : a.ldiff b + (a &&& b) = a := by
  induction a using Nat.binaryRec generalizing b with
  | zero => simp [Nat.ldiff]
  | bit p m ih =>
    cases b using Nat.bitCasesOn with
    | bit q n =>
      have hhigh := ih n
      rw [Nat.ldiff_bit, Nat.land_bit]
      cases p <;> cases q <;> simp [Nat.bit_val] <;> omega

/-- Taking off the bits that two numbers share leaves those that the other lacks. -/
theorem testBit_sub_land (a b i : Nat) : (a - (a &&& b)).testBit i = (a.testBit i && ! b.testBit i) := by
  have hsub : a - (a &&& b) = a.ldiff b := Nat.sub_eq_of_eq_add (ldiff_add_land a b).symm
  rw [hsub, Nat.testBit_ldiff]

/-- What each access code leaves in a field, bit by bit (R14). -/
theorem FieldSpec.written_testBit (f : FieldSpec) (locked : Bool) (old v i : Nat) (hi : i < f.len) :
    (f.written locked old v).testBit i = match f.acc with
      | .ro => old.testBit (f.lo + i)
      | .rw => v.testBit (f.lo + i)
      | .wo => false
      | .w1c => old.testBit (f.lo + i) && ! v.testBit (f.lo + i)
      | .w1s => old.testBit (f.lo + i) || v.testBit (f.lo + i)
      | .rwl => if locked then old.testBit (f.lo + i) else v.testBit (f.lo + i) := by
  have hbit : ∀ w, (bits w f.lo f.len).testBit i = w.testBit (f.lo + i) := fun w => by simp [bits_testBit, hi]
  unfold FieldSpec.written
  cases f.acc with
  | ro | rw => exact hbit _
  | wo => exact Nat.zero_testBit i
  | w1c => simp only [testBit_sub_land, hbit]
  | w1s => simp only [Nat.testBit_lor, hbit]
  | rwl => cases locked <;> exact hbit _

/-- Settles O37: the fields of every row lie apart, so each takes its own value and no write reaches a reserved bit. -/
theorem registerFields : Obligations.RegisterFields := by
  refine ⟨fun r f locked old v hr hf => ?_, fun r locked old v i _ hout => ?_, FieldSpec.written_testBit⟩
  · rw [RegSpec.written_eq, bits_setFieldsBy_mem _ old (regTable_fields_apart r hr) hf]
  · rw [RegSpec.written_eq, testBit_setFieldsBy_outside _ r.fields old i hout]

end Sys2Proof.Machine

namespace Sys2Proof.Machine

/-! The reset state (R15, R58, R170, R422, R557, R608). -/

/-- Adding a value that fits to a field that reads 0 sets the field. -/
theorem add_mul_two_pow_eq_setBits {w lo len v : Nat} (hfit : v < 2 ^ len) (hzero : bits w lo len = 0) :
    w + v * 2 ^ lo = setBits w lo len v := by
  rw [setBits, hzero, Nat.mod_eq_of_lt hfit, Nat.zero_mul, Nat.sub_zero]

/-- The sum of reset values that fit into fields that lie apart sets each field to its reset value. -/
theorem foldl_reset_eq_setFieldsBy (fs : List FieldSpec) (w : Nat) (hpair : fs.Pairwise FieldSpec.apart)
    (hfit : ∀ f ∈ fs, f.reset < 2 ^ f.len) (hzero : ∀ f ∈ fs, bits w f.lo f.len = 0) :
    fs.foldl (fun v f => v + f.reset * 2 ^ f.lo) w = setFieldsBy FieldSpec.reset fs w := by
  induction fs generalizing w with
  | nil => rfl
  | cons f fs ih =>
    obtain ⟨hf, hfs⟩ := List.pairwise_cons.mp hpair
    obtain ⟨hfitf, hfitfs⟩ := List.forall_mem_cons.mp hfit
    obtain ⟨hzerof, hzerofs⟩ := List.forall_mem_cons.mp hzero
    rw [List.foldl_cons, setFieldsBy_cons, add_mul_two_pow_eq_setBits hfitf hzerof]
    refine ih _ hfs hfitfs fun e he => ?_
    rw [bits_setBits_beside _ _ _ _ _ _ (hf e he).symm, hzerofs e he]

theorem regTable_resets_fit : ∀ r ∈ regTable, ∀ f ∈ r.fields, f.reset < 2 ^ f.len := by decide +kernel

/-- No two rows of the register map describe the same register: a row is found at its own place. -/
theorem regSpec?_of_mem : ∀ r ∈ regTable, regSpec? r.block r.off = some r := by decide +kernel

/-- In the tile blocks only the row of `TILE_ID` stands at offset 0 (R109). -/
theorem regTable_tileId : ∀ r ∈ regTable, 0x100 ≤ r.block ∧ r.block ≤ 0x57F ∧ r.off = 0 → r.block = 0x100 := by
  decide +kernel

/-- Each field of a row of the register map reads its reset value in the row's reset value. -/
theorem bits_reset_of_mem {r : RegSpec} {f : FieldSpec} (hr : r ∈ regTable) (hf : f ∈ r.fields) :
    bits r.reset f.lo f.len = f.reset := by
  have hpair := regTable_fields_apart r hr
  have hfit := regTable_resets_fit r hr
  rw [RegSpec.reset, foldl_reset_eq_setFieldsBy r.fields 0 hpair hfit (fun e _ => by simp [bits]),
    bits_setFieldsBy_mem _ 0 hpair hf, Nat.mod_eq_of_lt (hfit f hf)]

/-- A register reads the reset value of its row, but for `TILE_ID`. -/
theorem regReset_of_mem {r : RegSpec} (hr : r ∈ regTable) (htile : ¬ (r.block = 0x100 ∧ r.off = 0)) :
    regReset r.block r.off = r.reset := by
  have hplace : ¬ (0x100 ≤ r.block ∧ r.block ≤ 0x57F ∧ r.off = 0) := fun h =>
    htile ⟨regTable_tileId r hr h, h.2.2⟩
  simp only [regReset, regSpec?_of_mem r hr, if_neg hplace]

theorem regReset_of_unlisted {b o : Nat} (h : regSpec? b o = none) : regReset b o = 0 := by
  simp only [regReset, h]

/-- At reset the register file lists nothing, so each register reads its reset value. -/
theorem State.reset_reg (b o : Nat) : State.reset.hw.reg b o = regReset b o := rfl

/-- Settles O58: the register file of the reset state lists nothing, and neither does any other map of it. -/
theorem resetState : Obligations.ResetState := by
  refine ⟨rfl, fun r hr f hf htile => ?_, fun b o hno => ?_, ⟨rfl, rfl, rfl, rfl, rfl⟩, fun _ => rfl, fun _ => rfl,
    fun _ => rfl, fun _ => rfl, fun _ => rfl⟩
  · rw [State.reset_reg, regReset_of_mem hr htile, bits_reset_of_mem hr hf]
  · rw [State.reset_reg, regReset_of_unlisted hno]

end Sys2Proof.Machine

namespace Sys2Proof.Machine

/-- A command whose meaning changes the hardware by `f` leaves what `f` makes of it. -/
theorem does_of_next {c : Instr} {s : State} {h h' : Hw} {f : Hw → Hw} (e : Host.Outcome State Fault Refusal)
    (hs : s.hw = h) (hexec : exec c s = e) (hnext : e = s.next f) (hf : f h = h') : Does c s fun x => x = h' :=
  ⟨f s.hw, hexec.trans hnext, by rw [hs, hf]⟩

/-! The register region (R14 to R16, R180, R609, R611): what an access does. -/

section
variable {s : State} {h h' : Hw} {w : RegWrite} (hs : s.hw = h)
include hs

/-- An 8-byte aligned write of PID 0, with the hub on, is a register write of the owner (R609). -/
theorem does_registerWrite_taken (hhub : h.hubOn = true) (hpid : w.pid.val = 0) (hwhole : w.whole = true)
    (halign : w.off.toNat % 8 = 0) (hwrite : h.writeReg w.block.toNat w.off.toNat w.value.toNat = h') :
    Does (.registerWrite w) s fun x => x = h' := by
  refine does_of_next (execRegisterWrite w s) hs rfl rfl ?_
  rw [hhub, hpid, hwhole, halign]
  exact hwrite

/-- An access of another PID, of another size or unaligned is refused with its event (R180, R609). -/
theorem does_registerWrite_refused (hhub : h.hubOn = true)
    (hbad : w.pid.val ≠ 0 ∨ w.whole = false ∨ w.off.toNat % 8 ≠ 0) :
    Does (.registerWrite w) s fun x => x = h.event srcFw 0x0805 w.pid.val w.block.toNat := by
  have hrefused : (decide (w.pid.val ≠ 0) || ! w.whole || decide (w.off.toNat % 8 ≠ 0)) = true := by
    simpa only [Bool.or_eq_true, decide_eq_true_eq, Bool.not_eq_true', or_assoc] using hbad
  refine does_of_next (execRegisterWrite w s) hs rfl rfl ?_
  rw [hhub, if_neg (by decide), if_pos hrefused, Hw.regRefused]

/-- With the hub off no access acts. -/
theorem does_registerWrite_hubOff (hhub : h.hubOn = false) : Does (.registerWrite w) s fun x => x = h := by
  refine does_of_next (execRegisterWrite w s) hs rfl rfl ?_
  rw [hhub, Bool.not_false, if_pos rfl]

end

section
variable {h : Hw} {b : Nat}

/-- A block that cannot be reached takes no write (R611). -/
theorem Hw.writeReg_unreached (o v : Nat) (hblock : h.blockOn b = false) : h.writeReg b o v = h := by
  rw [Hw.writeReg, hblock, Bool.not_false, Bool.or_true, if_pos rfl]

variable (hhub : h.hubOn = true) (hblock : h.blockOn b = true)
include hhub hblock

/-- The registers whose writes act by themselves, and the rest, whose fields take the write (R609). -/
theorem Hw.writeReg_reached (o v : Nat) : h.writeReg b o v =
    if b = 0x000 ∧ o = 0x50 then h.writeEoi v
    else if b = 0x002 ∧ o = 0x10 then h.writeSrc v
    else if b = 0x002 ∧ o = 0x30 then h.writeStep v
    else if b = 0x018 ∧ o = 0x10 ∧ h.scratchMapped then h
    else h.afterWrite b o (h.writeFields b o v) := by
  rw [Hw.writeReg, hhub, hblock]
  rfl

theorem Hw.writeReg_fields {o : Nat} (v : Nat) (heoi : ¬ (b = 0x000 ∧ o = 0x50))
    (htime : ¬ (b = 0x002 ∧ (o = 0x10 ∨ o = 0x30))) (hscratch : ¬ (b = 0x018 ∧ o = 0x10 ∧ h.scratchMapped = true)) :
    h.writeReg b o v = h.afterWrite b o (h.writeFields b o v) := by
  rw [Hw.writeReg_reached hhub hblock, if_neg heoi, if_neg fun e => htime ⟨e.1, .inl e.2⟩,
    if_neg fun e => htime ⟨e.1, .inr e.2⟩, if_neg hscratch]

end

/-- A register of the map takes a 64-bit write in its fields (R14, R15). -/
theorem Hw.writeFields_of_listed {h : Hw} {b o : Nat} {r : RegSpec} (hr : regSpec? b o = some r) (v : BitVec 64) :
    h.writeFields b o v.toNat = h.setReg b o (r.written (h.locked b) (h.reg b o) v.toNat) := by
  simp only [Hw.writeFields, hr, Nat.mod_eq_of_lt v.isLt]

/-- A write of the sequencer's, the mesh's or the arbiters' block does nothing beyond its fields. -/
theorem Hw.afterWrite_plain (h0 h : Hw) (o : Nat) {b : Nat} (hb : b = 0x010 ∨ b = 0x640 ∨ b = 0x648) :
    h0.afterWrite b o h = h := by
  rcases hb with rfl | rfl | rfl <;> simp [Hw.afterWrite]

/-! `MOD_INT_EOI` (R615). -/

theorem Hw.writeEoi_zero {h : Hw} {v : Nat} (hv : bit v 0 = false) : h.writeEoi v = h := by
  simp only [Hw.writeEoi, hv, Bool.not_false, if_true]

/-- An acknowledgement clears `INSVC` when nothing is pending, and raises the vector again when something is. -/
theorem Hw.writeEoi_one {h : Hw} {v : Nat} (hv : bit v 0 = true) : h.writeEoi v =
    if h.summary = true then
      if h.get F.MOD_INT_VECTOR_VECTOR ≠ 0 then
        (h.raiseVector 0 (h.get F.MOD_INT_VECTOR_VECTOR)).put F.MOD_INT_VECTOR_INSVC 1
      else h
    else h.put F.MOD_INT_VECTOR_INSVC 0 := by
  cases hsum : h.summary <;> simp [Hw.writeEoi, hv, hsum]

theorem does_modIntEoi {s : State} {h h' : Hw} {v : BitVec 64} (hs : s.hw = h)
    (heoi : (if h.hubOn = true then h.writeEoi v.toNat else h) = h') : Does (.modIntEoi v) s fun x => x = h' :=
  does_of_next (execModIntEoi v s) hs rfl rfl heoi

/-! `PWR_EN` of a camera port (R316). -/

section
variable {s : State} {h : Hw} {q : Fin 24} {on above : Bool} (hs : s.hw = h)
include hs

theorem does_pwrEnWrite_unreached (hoff : h.hubOn = false ∨ h.blockOn (0x700 + q.val) = false) :
    Does (.pwrEnWrite q on above) s fun x => x = h := by
  refine does_of_next (execPwrEnWrite q on above s) hs rfl rfl ?_
  rw [if_pos (by simpa only [Bool.or_eq_true, Bool.not_eq_true'] using hoff)]

/-- The write of `PWR_EN` is followed by the switch, or faults it when the conductor lies above the rail. -/
theorem does_pwrEnWrite_reached {a h' : Hw} (hhub : h.hubOn = true) (hblock : h.blockOn (0x700 + q.val) = true)
    (ha : a = h.put (F.CAM_CTRL_PWR_EN.blk q.val) (b2n on))
    (hswitch : (if on && above && a.camRail && a.get (F.CAM_STATUS_PWR_STATE.blk q.val) == 0 then
        a.camFault q.val 5 (a.get (F.CAM_PWR_MEAS_MA.blk q.val)) (a.get (F.CAM_PWR_MEAS_MV.blk q.val))
      else a.camPower q.val) = h') : Does (.pwrEnWrite q on above) s fun x => x = h' := by
  refine does_of_next (execPwrEnWrite q on above s) hs rfl rfl ?_
  rw [hhub, hblock, ← ha]
  exact hswitch

end

/-- Settles O36: each clause names the branch of `writeReg`, `writeEoi` or the camera switch that its conditions
select. -/
theorem registerAccess : Obligations.RegisterAccess := by
  refine ⟨?_, ?_, ?_, ?_, ?_, ?_, ?_, ?_, ?_, ?_, ?_, ?_, ?_, ?_, ?_, ?_⟩
  · intro s h w r hs hhub hpid hwhole halign hblock hr hplain
    refine does_registerWrite_taken hs hhub hpid hwhole halign ?_
    rw [Hw.writeReg_fields hhub hblock _ (by omega) (by omega) (by omega), Hw.afterWrite_plain _ _ _ hplain,
      Hw.writeFields_of_listed hr]
  · intro s h w hs hhub hpid hwhole halign hblock heoi htime hscratch
    exact does_registerWrite_taken hs hhub hpid hwhole halign (Hw.writeReg_fields hhub hblock _ heoi htime hscratch)
  · intro s h w hs hhub hpid hwhole halign hblock hb ho
    refine does_registerWrite_taken hs hhub hpid hwhole halign ?_
    rw [Hw.writeReg_reached hhub hblock, if_pos ⟨hb, ho⟩]
  · intro s h w hs hhub hpid hwhole halign hblock hb ho
    refine does_registerWrite_taken hs hhub hpid hwhole halign ?_
    rw [Hw.writeReg_reached hhub hblock, if_neg (by omega), if_pos ⟨hb, ho⟩]
  · intro s h w hs hhub hpid hwhole halign hblock hb ho
    refine does_registerWrite_taken hs hhub hpid hwhole halign ?_
    rw [Hw.writeReg_reached hhub hblock, if_neg (by omega), if_neg (by omega), if_pos ⟨hb, ho⟩]
  · intro s h w hs hhub hpid hwhole halign hblock hb ho hmapped
    refine does_registerWrite_taken hs hhub hpid hwhole halign ?_
    rw [Hw.writeReg_reached hhub hblock, if_neg (by omega), if_neg (by omega), if_neg (by omega),
      if_pos ⟨hb, ho, hmapped⟩]
  · intro s h w hs hhub hpid hwhole halign hblock
    exact does_registerWrite_taken hs hhub hpid hwhole halign (Hw.writeReg_unreached _ _ hblock)
  · intro s h w hs hhub hbad
    exact does_registerWrite_refused hs hhub hbad
  · intro s h w hs hhub
    exact does_registerWrite_hubOff hs hhub
  · intro s h v hs hhub hv hsum
    refine does_modIntEoi hs ?_
    rw [if_pos hhub, Hw.writeEoi_one hv, if_neg (by simp [hsum])]
  · intro s h v hs hhub hv hsum hvec
    refine does_modIntEoi hs ?_
    rw [if_pos hhub, Hw.writeEoi_one hv, if_pos hsum, if_pos hvec]
  · intro s h v hs hhub hv hsum hvec
    refine does_modIntEoi hs ?_
    rw [if_pos hhub, Hw.writeEoi_one hv, if_pos hsum, if_neg (not_not.mpr hvec)]
  · intro s h v hs hoff
    refine does_modIntEoi hs ?_
    rcases hoff with hhub | hv
    · rw [if_neg (by simp [hhub])]
    · rw [Hw.writeEoi_zero hv, ite_self]
  · intro s h q on above a hs hhub hblock ha hfollow
    refine does_pwrEnWrite_reached hs hhub hblock ha (if_neg ?_)
    rcases hfollow with e | e | e | e <;> simp [e]
  · intro s h q on above a hs hhub hblock ha hon habove hrail hopen
    refine does_pwrEnWrite_reached hs hhub hblock ha (if_pos ?_)
    simp [hon, habove, hrail, hopen]
  · intro s h q on above hs hoff
    exact does_pwrEnWrite_unreached hs hoff

end Sys2Proof.Machine

namespace Sys2Proof.Machine

/-! Start-up (R4, R552, R553, R556, R559): where it begins, and where each of its steps stops it. -/

section
variable {s : State} {h : Hw} {b : BringUp} {j1 j2 : BitVec 17} {hubOk : Bool} {src : StartInput} (hs : s.hw = h)
include hs

/-- From PORST, released, not stopped and with power, `STARTUP` reads the label and goes on to measure the inputs. -/
theorem does_startup_begins {h' : Hw} (hmode : h.mode = 2) (hstep : h.get F.MOD_START_STEP = 0)
    (hporst : h.sys.porstLow = false) (hstop : h.sys.startStop = false) (hlost : h.sys.lost = none)
    (hrun : (h.readLabel src.label).startup b j1.toNat j2.toNat hubOk src.source = h') :
    Does (.startup b j1 j2 hubOk src) s fun x => x = h' := by
  refine does_of_next (execStartup b j1 j2 hubOk src s) hs rfl rfl ?_
  rw [if_pos (by simp [hmode, hstep, hporst, hstop, hlost])]
  exact hrun

theorem does_startup_idle
    (hidle : h.mode ≠ 2 ∨ h.get F.MOD_START_STEP ≠ 0 ∨ h.sys.porstLow = true ∨ h.sys.startStop = true ∨
      h.sys.lost.isSome = true) : Does (.startup b j1 j2 hubOk src) s fun x => x = h := by
  refine does_of_next (execStartup b j1 j2 hubOk src s) hs rfl rfl (if_neg ?_)
  simpa [-not_and, not_and_or, Option.isSome_iff_ne_none] using hidle

end

/-- A start with the inputs that it measures: an input out of its range ends it before anything is powered (R556). -/
theorem Hw.startup_inputs_out (k : Hw) (b : BringUp) {j1 j2 : Nat} (hubOk : Bool) (src : Option (BitVec 64))
    (hout : inputOk false j1 = false ∨ inputOk true j2 = false) :
    k.startup b j1 j2 hubOk src = ((k.setInput false j1).2.setInput true j2).2 := by
  have hany : (! inputOk false j1 || ! inputOk true j2) = true := by
    simpa only [Bool.or_eq_true, Bool.not_eq_true'] using hout
  simp only [Hw.startup, hany, if_true]

/-- The flash whose Datums have noted the slots that they boot (R553); a Datum B in recovery boots none. -/
def Flash.notingBooted (f : Flash) (recB : Bool) : Flash :=
  { f with booted := (List.range 6).foldl (fun m i =>
      match f.bootOf (i / 3) (i % 3) with
      | some s => if recB && decide (3 ≤ i) then m else SMap.put m i s
      | none => m) [] }

/-- Whether Datum B boots the hub and configuration images that Datum A boots (R552). -/
def Flash.sameImages (f : Flash) (hub cfg : FlashImg) : Bool :=
  (f.booting 1 1).any (fun j => j.digest == hub.digest) && (f.booting 1 2).any fun j => j.digest == cfg.digest

section
variable {k a : Hw} {b : BringUp} {j1 j2 : Nat} {hubOk : Bool} {src : Option (BitVec 64)}
  (hj1 : inputOk false j1 = true) (hj2 : inputOk true j2 = true)
  (ha : a = ((k.setInput false j1).2.setInput true j2).2.switchAll [36, 37, 38, 39, 40, 41, 47] true)
include hj1 hj2 ha

/-- With both inputs in range and the safe side powered, Datum A without a bootable image stops the start at step 1. -/
theorem Hw.startup_noDatumA (hboot : a.sys.flash.bootOf 0 0 = none) : k.startup b j1 j2 hubOk src = a.stopStart 1 := by
  simp only [Hw.startup, hj1, hj2, ← ha, hboot, Bool.not_true, Bool.or_self, Bool.false_eq_true, if_false,
    Option.isNone_none, if_true]

variable (hboot : (a.sys.flash.bootOf 0 0).isSome = true)
include hboot

theorem Hw.startup_noImages (hnone : a.sys.flash.booting 0 1 = none ∨ a.sys.flash.booting 0 2 = none) :
    k.startup b j1 j2 hubOk src = a.stopStart 2 := by
  simp only [Hw.startup, hj1, hj2, ← ha, Option.isNone_eq_false_iff.mpr hboot, Bool.not_true, Bool.or_self,
    Bool.false_eq_true, if_false]
  split
  next hub cfg hhub hcfg => simp [hhub, hcfg] at hnone
  next => rfl

variable {hub cfg : FlashImg} {recB : Bool} (hhub : a.sys.flash.booting 0 1 = some hub)
  (hcfg : a.sys.flash.booting 0 2 = some cfg) (hrecB : recB = (a.sys.flash.bootOf 1 0).isNone)
include hhub hcfg hrecB

/-- With Datum A's images bootable, Datum B's must equal them unless it is in recovery; then the hub's confirmation and
its processors decide how far the start goes. -/
theorem Hw.startup_images {g : Hw} (hg : g = { a with sys := { a.sys with flash := a.sys.flash.notingBooted recB } }) :
    k.startup b j1 j2 hubOk src =
      if (! recB && ! a.sys.flash.sameImages hub cfg) = true then a.stopStart 2
      else if hubOk = false then g.stopStart 3
      else if b.cpPass = 0 then ((g.switchAll hubDomains true).bringCps b).stopStart 4
      else g.startRest b src hub cfg recB := by
  subst hg
  simp only [Hw.startup, hj1, hj2, ← ha, Option.isNone_eq_false_iff.mpr hboot, hhub, hcfg, ← hrecB, Bool.not_true,
    Bool.or_self, Bool.false_eq_true, if_false, Bool.not_eq_true']
  rfl

/-- Without equal images in the two Datums the start stops at step 2. -/
theorem Hw.startup_imagesDiffer (hrec : recB = false) (hdiffer : a.sys.flash.sameImages hub cfg = false) :
    k.startup b j1 j2 hubOk src = a.stopStart 2 := by
  rw [Hw.startup_images hj1 hj2 ha hboot hhub hcfg hrecB rfl, hrec, hdiffer]
  rfl

theorem Hw.startup_imagesAgree {g : Hw} (hsame : (recB || a.sys.flash.sameImages hub cfg) = true)
    (hg : g = { a with sys := { a.sys with flash := a.sys.flash.notingBooted recB } }) :
    k.startup b j1 j2 hubOk src =
      if hubOk = false then g.stopStart 3
      else if b.cpPass = 0 then ((g.switchAll hubDomains true).bringCps b).stopStart 4
      else g.startRest b src hub cfg recB := by
  rw [Hw.startup_images hj1 hj2 ha hboot hhub hcfg hrecB hg, ← Bool.not_or, hsame, if_neg (by decide)]

end

/-! Image frames (R554). -/

/-- Whether Datum A waits for images and the frame's length and CRC are right (R554). -/
def Hw.takesFrame (h : Hw) (x : ImageFrame) : Prop :=
  (h.mode = 5 ∨ h.sys.startStop = true) ∧ h.datA.down = false ∧ 64 ≤ x.data.length ∧ x.data.length ≤ 1024 ∧
    crc32c x.data = x.crc.toNat

/-- The update with the bytes of a frame. -/
def Flash.joined (f : Flash) (x : ImageFrame) : SMap Byte :=
  (List.range x.data.length).foldl (fun m i => SMap.put m (x.off.toNat + i) (x.data.getD i 0)) (f.update.getD [] x.kind.val)

/-- The image that the bytes of an update make up to a length; with a byte missing it is none that verifies. -/
def updateImage (kind : Nat) (m : SMap Byte) (len : Nat) : FlashImg :=
  if updateWhole m len then imageOf kind (updateBytes m len)
  else { bytes := [], version := 0, secver := 0, digest := 0, good := false }

theorem Hw.not_takesFrame_iff (h : Hw) (x : ImageFrame) : ¬ h.takesFrame x ↔
    (h.mode ≠ 5 ∧ ! h.sys.startStop) ∨ h.datA.down ∨ x.data.length < 64 ∨ 1024 < x.data.length ∨
      crc32c x.data ≠ x.crc.toNat := by
  simp only [Hw.takesFrame, not_and_or, not_or, not_le, ne_eq, Bool.not_eq_true, Bool.not_eq_false, Bool.not_eq_true']

section
variable {s : State} {h : Hw} {x : ImageFrame} (hs : s.hw = h)
include hs

theorem does_imageFrame_dropped (hnot : ¬ h.takesFrame x) : Does (.imageFrame x) s fun y => y = h :=
  does_of_next (execImageFrame x s) hs rfl rfl (if_pos ((h.not_takesFrame_iff x).mp hnot))

variable (htakes : h.takesFrame x)
include htakes

/-- A frame that is not the last joins its image. -/
theorem does_imageFrame_joins {m : SMap Byte} (hlast : x.last = false) (hm : m = h.sys.flash.joined x) :
    Does (.imageFrame x) s fun y => y =
      { h with sys := { h.sys with flash := { h.sys.flash with update := h.sys.flash.update.put x.kind.val m } } } := by
  subst hm
  refine does_of_next (execImageFrame x s) hs rfl rfl ((if_neg ?_).trans (if_pos (by rw [hlast]; rfl)))
  exact mt (h.not_takesFrame_iff x).mpr (not_not.mpr htakes)

/-- After the last frame both Datums install the image that has arrived, and the answer leaves. -/
theorem does_imageFrame_installs {i : FlashImg} {f fa fb : Flash} {a b : Bool} (hlast : x.last = true)
    (hi : i = updateImage x.kind.val (h.sys.flash.joined x) (x.off.toNat + x.data.length))
    (hf : f = { h.sys.flash with update := h.sys.flash.update.del x.kind.val })
    (ha : f.install 0 x.kind.val i = (fa, a)) (hb : fa.install 1 x.kind.val i = (fb, b)) :
    Does (.imageFrame x) s fun y => y =
      { h with sys := { h.sys with flash := fb }, outs := h.outs ++ [.ethernet 2 [if a && b then 0 else 1]] } := by
  obtain ⟨rfl, rfl⟩ := Prod.mk.inj ha
  obtain ⟨rfl, rfl⟩ := Prod.mk.inj hb
  subst hi hf
  refine does_of_next (execImageFrame x s) hs rfl rfl ((if_neg ?_).trans (if_neg (by rw [hlast]; decide)))
  exact mt (h.not_takesFrame_iff x).mpr (not_not.mpr htakes)

end

/-! Die resets (R449, R564). -/

section
variable {s : State} {h : Hw} {d : Fin 4} (hs : s.hw = h)
include hs

/-- A die resets in a running module when no temperature holds it; a die that is up goes down first. -/
theorem does_dieReset_free (hrun : h.running = true) (hfree : h.sys.gov.dieHeld.contains d.val = false) :
    Does (.dieReset d) s fun x => x = (if h.dieUp? d.val = true then h.dieDown d.val else h).dieBack d.val := by
  refine does_of_next (execDieReset d s) hs rfl rfl (if_neg ?_)
  simp only [hrun, hfree, Bool.not_true, Bool.or_self, Bool.false_eq_true, not_false_eq_true]

theorem does_dieReset_held (hheld : h.running = false ∨ h.sys.gov.dieHeld.contains d.val = true) :
    Does (.dieReset d) s fun x => x = h := by
  refine does_of_next (execDieReset d s) hs rfl rfl (if_pos ?_)
  simpa only [Bool.or_eq_true, Bool.not_eq_true'] using hheld

end

/-! `FULL_SELFTEST_DONE` (R558). -/

section
variable {s : State} {h : Hw} (hs : s.hw = h)
include hs

theorem does_fullSelftestDone_idle (hidle : h.get F.MOD_START_STEP ≠ 10 ∨ h.fabricOn = false) :
    Does .fullSelftestDone s fun x => x = h := by
  refine does_of_next (execFullSelftestDone s) hs rfl rfl (if_pos ?_)
  simpa only [Bool.not_eq_true'] using hidle

/-- At step 10 every tile that fails the self-test is retired, and step 11 shows that the test is done. -/
theorem does_fullSelftestDone_ends {a : Hw} (hstep : h.get F.MOD_START_STEP = 10) (hfabric : h.fabricOn = true)
    (ha : a = (List.range 1152).foldl (fun x t => if (x.tile t).fails then x.retireTile t 0 none else x) h) :
    Does .fullSelftestDone s fun x => x =
      ((a.put F.MOD_START_STEP 11).put F.MOD_START_FULL_ST 1).put F.MOD_INT_STATUS_SELFTEST 1 := by
  refine does_of_next (execFullSelftestDone s) hs rfl rfl ?_
  rw [if_neg (by simp [hstep, hfabric]), ha]

/-! Restarts under the Firad-1-compatible policy (R401, R402). -/

/-- The three commands of a restart change nothing while there is none. -/
theorem does_restart_none (hnone : h.trv.restart = none) {c : Instr}
    (hc : c = .dieRestart ∨ c = .restartComplete ∨ c = .restartTimeout) : Does c s fun x => x = h := by
  rcases hc with rfl | rfl | rfl
  · exact does_of_next (execDieRestart s) hs rfl rfl (by simp only [hnone])
  · exact does_of_next (execRestartComplete s) hs rfl rfl (by simp only [hnone])
  · exact does_of_next (execRestartTimeout s) hs rfl rfl (by simp only [hnone])

variable {r : Restart} (hr : h.trv.restart = some r)
include hr

/-- Before S+600, and once it has begun, a restart takes no die down. -/
theorem does_dieRestart_idle (hidle : h.running = false ∨ r.begun = true ∨ h.now < r.since + 600) :
    Does .dieRestart s fun x => x = h := by
  refine does_of_next (execDieRestart s) hs rfl rfl ?_
  simp only [hr]
  exact if_pos (by simpa [or_assoc] using hidle)

/-- At S+600 the dies of the restart that are up go down, and both Datums that run report it. -/
theorem does_dieRestart_begins {a b : Hw} (hrun : h.running = true) (hbegun : r.begun = false)
    (hdue : r.since + 600 ≤ h.now) (ha : a = (r.dies.filter h.dieUp?).foldl (fun x d => x.dieDown d) h)
    (hb : b = { a with trv := { a.trv with restart := some { r with begun := true } } }) :
    Does .dieRestart s fun x => x =
      b.datumsOn.foldl (fun x d => x.event (srcDatum d) 0x0406 0 (mask 4 fun i => r.dies.contains i)) b := by
  subst ha hb
  refine does_of_next (execDieRestart s) hs rfl rfl ?_
  simp only [hr]
  exact if_neg (by simp [hrun, hbegun, hdue])

theorem does_restartComplete_idle
    (hidle : h.running = false ∨ r.begun = false ∨ r.dies.any h.sys.gov.dieHeld.contains = true) :
    Does .restartComplete s fun x => x = h := by
  refine does_of_next (execRestartComplete s) hs rfl rfl ?_
  simp only [hr]
  exact if_pos (by simpa only [Bool.or_eq_true, Bool.not_eq_true', or_assoc] using hidle)

/-- A restart whose dies no temperature holds brings them back, ends, and clears the reasons in both Datums. -/
theorem does_restartComplete_ends {a b d : Hw} (hrun : h.running = true) (hbegun : r.begun = true)
    (hfree : r.dies.any h.sys.gov.dieHeld.contains = false)
    (ha : a = (r.dies.filter fun d => ! h.dieUp? d).foldl (fun x d => x.dieBack d) h)
    (hb : b = { a with trv := { a.trv with restart := none, restartedAt := some a.now } })
    (hd : d = (b.unlatch 0 dieReason).unlatch 1 dieReason) :
    Does .restartComplete s fun x => x = d.datumsOn.foldl (fun x d =>
      (x.put (F.DTM_INT_STATUS_RESTART_DONE.datum d) 1).event (srcDatum d) 0x0406 0 (r.bits + 256)) d := by
  subst ha hb hd
  refine does_of_next (execRestartComplete s) hs rfl rfl ?_
  simp only [hr]
  exact if_neg (by simp only [hrun, hbegun, hfree]; decide)

theorem does_restartTimeout_early (hearly : h.now < r.since + 750000) : Does .restartTimeout s fun x => x = h := by
  refine does_of_next (execRestartTimeout s) hs rfl rfl ?_
  simp only [hr]
  exact if_pos hearly

/-- At S+750,000 the restart ends and the registers of both Datums follow. -/
theorem does_restartTimeout_ends (hlate : r.since + 750000 ≤ h.now) :
    Does .restartTimeout s fun x => x =
      (({ h with trv := { h.trv with restart := none } } : Hw).showDtm 0).showDtm 1 := by
  refine does_of_next (execRestartTimeout s) hs rfl rfl ?_
  simp only [hr]
  exact if_neg (by omega)

end

/-- Settles O29: each clause about a start follows the start to the step that ends it. -/
theorem startUpAndResets : Obligations.StartUpAndResets := by
  refine ⟨?_, ?_, ?_, ?_, ?_, ?_, ?_, fun s h b j1 j2 hubOk src hs => does_startup_idle hs,
    fun s h hs => does_fullSelftestDone_idle hs, ?_, ?_,
    fun s h a hs => does_fullSelftestDone_ends hs, ?_, ?_, fun s h d hs => does_dieReset_free hs,
    fun s h d hs => does_dieReset_held hs, fun s h r hs hr => does_dieRestart_idle hs hr,
    fun s h r hs hr => does_restartComplete_idle hs hr, fun s h r hs hr => does_restartTimeout_early hs hr,
    fun s h r a b hs hr => does_dieRestart_begins hs hr, fun s h r a b d hs hr => does_restartComplete_ends hs hr,
    fun s h r hs hr => does_restartTimeout_ends hs hr, fun s h hs hr => does_restart_none hs hr (.inr (.inr rfl)),
    fun s h hs hr => does_restart_none hs hr (.inl rfl), fun s h hs hr => does_restart_none hs hr (.inr (.inl rfl))⟩
  · intro s h b j1 j2 hubOk src a g hub cfg recB hs hmode hstep hporst hstop hlost hj1 hj2 ha hboot hhub hcfg hrecB
      hsame hg hok hpass
    refine does_startup_begins hs hmode hstep hporst hstop hlost ?_
    rw [Hw.startup_imagesAgree hj1 hj2 ha hboot hhub hcfg hrecB hsame hg, if_neg (by simp [hok]), if_neg hpass]
  · intro s h b j1 j2 hubOk src a g hub cfg recB hs hmode hstep hporst hstop hlost hj1 hj2 ha hboot hhub hcfg hrecB
      hsame hg hok
    refine does_startup_begins hs hmode hstep hporst hstop hlost ?_
    rw [Hw.startup_imagesAgree hj1 hj2 ha hboot hhub hcfg hrecB hsame hg, if_pos hok, Hw.stopStart]
  · intro s h b j1 j2 hubOk src a g k hub cfg recB hs hmode hstep hporst hstop hlost hj1 hj2 ha hboot hhub hcfg hrecB
      hsame hg hok hpass hk
    refine does_startup_begins hs hmode hstep hporst hstop hlost ?_
    rw [Hw.startup_imagesAgree hj1 hj2 ha hboot hhub hcfg hrecB hsame hg, if_neg (by simp [hok]), if_pos hpass, ← hk,
      Hw.stopStart]
  · intro s h b j1 j2 hubOk src a hub cfg recB hs hmode hstep hporst hstop hlost hj1 hj2 ha hboot hhub hcfg hrecB
      hrec hdiffer
    exact does_startup_begins hs hmode hstep hporst hstop hlost
      (Hw.startup_imagesDiffer hj1 hj2 ha hboot hhub hcfg hrecB hrec hdiffer)
  · intro s h b j1 j2 hubOk src a hs hmode hstep hporst hstop hlost hj1 hj2 ha hboot hnone
    exact does_startup_begins hs hmode hstep hporst hstop hlost (Hw.startup_noImages hj1 hj2 ha hboot hnone)
  · intro s h b j1 j2 hubOk src a hs hmode hstep hporst hstop hlost hj1 hj2 ha hboot
    exact does_startup_begins hs hmode hstep hporst hstop hlost (Hw.startup_noDatumA hj1 hj2 ha hboot)
  · intro s h b j1 j2 hubOk src hs hmode hstep hporst hstop hlost hout
    exact does_startup_begins hs hmode hstep hporst hstop hlost (Hw.startup_inputs_out _ b hubOk src.source hout)
  · intro s h x hs hwaits
    refine does_imageFrame_dropped hs ?_
    rintro ⟨hmode, hdown, -⟩
    rcases hwaits with ⟨hmode', hstop'⟩ | hdown'
    · simp [hmode', hstop'] at hmode
    · simp [hdown'] at hdown
  · intro s h x n m i f fa fb a b hs hmode hdown hn hlo hhi hcrc hlast hm hi hf
    subst hn hm
    exact does_imageFrame_installs hs ⟨hmode, hdown, hlo, hhi, hcrc⟩ hlast hi hf
  · intro s h x hs hbad
    refine does_imageFrame_dropped hs ?_
    rintro ⟨-, -, hlo, hhi, hcrc⟩
    omega
  · intro s h x n m hs hmode hdown hn hlo hhi hcrc hlast hm
    subst hn
    exact does_imageFrame_joins hs ⟨hmode, hdown, hlo, hhi, hcrc⟩ hlast hm

end Sys2Proof.Machine

namespace Sys2Proof.Machine

/-! The order of the block's commands (log entries 1 and 43): every meaning changes the hardware alone, and a run takes
the commands that wait one by one. -/

/-- Every command of every row answers a next state: its meaning is one change of the hardware (`State.next`), so none
stops the block and none is without a meaning. -/
theorem does_true (c : Instr) (s : State) : Does c s fun _ => True := by
  cases c <;> exact ⟨_, rfl, trivial⟩

theorem run_succ_of_next {M : Host.Core} {x y : M.State} (n : Nat) (hstep : M.step x = .next y) :
    M.run (n + 1) x = M.run n y := by
  rw [Host.Core.run, hstep]

/-- A run's first step takes the command at the front; the run goes on with the commands behind it. -/
theorem run_cons {c : Instr} {cs : List Instr} {a b : Hw} (n : Nat) (hexec : exec c ⟨cs, a⟩ = .next ⟨cs, b⟩) :
    Host.Core.run Sys2Proof.core (n + 1) ⟨c :: cs, a⟩ = Host.Core.run Sys2Proof.core n ⟨cs, b⟩ :=
  run_succ_of_next n hexec

/-- Settles O57: the waiting commands in turn, from the one at the front, each on the hardware that the one before it
left. -/
theorem commandsRunInOrder : Obligations.CommandsRunInOrder := by
  refine ⟨does_true, fun ⟨cs, h⟩ => ?_⟩
  induction cs generalizing h with
  | nil => exact ⟨[h], rfl, rfl, by simp, h, rfl, rfl⟩
  | cons c cs ih =>
    obtain ⟨h', hexec, -⟩ := does_true c ⟨cs, h⟩
    obtain ⟨hs, hlen, hhead, hsteps, z, hlast, hrun⟩ := ih h'
    refine ⟨h :: hs, congrArg (· + 1) hlen, rfl, ?_, z, by simp [List.getLast?_cons, hlast],
      (run_cons cs.length hexec).trans hrun⟩
    intro i d a b hd ha hb
    cases i with
    | zero =>
      obtain rfl : c = d := Option.some.inj hd
      obtain rfl : h = a := Option.some.inj ha
      obtain rfl : h' = b := Option.some.inj (hhead.symm.trans (List.head?_eq_getElem?.trans hb))
      exact hexec
    | succ i => exact hsteps i d a b hd ha hb

end Sys2Proof.Machine

namespace Sys2Proof.Machine

/-! Where the DRAM channels attach (R22, R142): the row and the column of a channel's logical tile. -/

theorem channelTile_row (c : Nat) : channelTile c / 32 = 16 * (c / 8 / 2 / 2) + 2 * (c % 8) + c / 8 % 2 := by
  simp only [channelTile]
  omega

theorem channelTile_column (c : Nat) : channelTile c % 32 = 16 * (c / 8 / 2 % 2) + 15 * (c / 8 % 2) := by
  simp only [channelTile]
  omega

/-- Channel m of device d attaches in row 2m + d mod 2 of die d / 2, at its column 0 or 15 (R22, R142). -/
theorem rowOfLogical_channelTile (c : Nat) :
    rowOfLogical (channelTile c) = (c / 8 / 2 * 16 + (2 * (c % 8) + c / 8 % 2), 15 * (c / 8 % 2)) := by
  have hdieColumn : channelTile c % 32 / 16 = c / 8 / 2 % 2 := by rw [channelTile_column]; omega
  have hdieRow : channelTile c / 32 / 16 = c / 8 / 2 / 2 := by rw [channelTile_row]; omega
  have hrow : channelTile c / 32 % 16 = 2 * (c % 8) + c / 8 % 2 := by rw [channelTile_row]; omega
  have hcolumn : channelTile c % 32 % 16 = 15 * (c / 8 % 2) := by rw [channelTile_column]; omega
  rw [rowOfLogical, hdieColumn, hdieRow, hrow, hcolumn, Nat.mod_add_div]

theorem dieOfLogical_channelTile (c : Nat) : dieOfLogical (channelTile c) = c / 8 / 2 := by
  rw [dieOfLogical, rowOfLogical_channelTile]
  omega

/-- No two channels attach to one tile: its row and its column on its die tell the channel and the device apart. -/
theorem channelTile_injective : Function.Injective channelTile := by
  intro c e htile
  have hplace := congrArg rowOfLogical htile
  rw [rowOfLogical_channelTile, rowOfLogical_channelTile] at hplace
  obtain ⟨hrow, hcolumn⟩ := Prod.mk.inj hplace
  omega

/-- Settles O55: the tile's column on its die is 15 times the device's parity. -/
theorem placesOfChannels : Obligations.PlacesOfChannels := by
  intro c _
  have hcolumn : channelTile c % 32 % 16 = 15 * (c / 8 % 2) := congrArg Prod.snd (rowOfLogical_channelTile c)
  exact ⟨rfl, dieOfLogical_channelTile c, fun heven => by rw [hcolumn, heven], fun hodd => by rw [hcolumn, hodd],
    fun e _ htile => channelTile_injective htile⟩

end Sys2Proof.Machine

namespace Sys2Proof.Machine

/-! The stroke pulse (R34, R40, R572): what a stroke begins with, and what passes where no pulse comes. -/

theorem Hw.get_tick (h : Hw) (f : Fld) :
    h.tick.get f = (h.put F.TIME_COUNT_STROKE_COUNT ((h.now + 1) % 2 ^ 64)).get f :=
  Hw.get_congr rfl f

@[simp] theorem Hw.tick_now (h : Hw) : h.tick.now = (h.now + 1) % 2 ^ 64 := by
  rw [Hw.now, Hw.get_tick, Hw.get_put_same]
  exact Nat.mod_mod _ _

@[simp] theorem Hw.tick_vec (h : Hw) : h.tick.vec = { h.vec with raised := [], oldRoutes := [] } := rfl

/-- Only the register of STROKE_COUNT moves at the start of a stroke. -/
theorem Hw.get_tick_of_ne (h : Hw) {f : Fld} (hf : regKey f.block f.off ≠ regKey 0x002 0) : h.tick.get f = h.get f := by
  rw [Hw.get_tick]
  exact Hw.get_put_reg h _ f _ hf.symm

section
variable {s : State} {h : Hw} (hs : s.hw = h)
include hs

theorem does_strokePulse_comes (hpulses : h.pulses = true) : Does .strokePulse s fun x => x = h.strokePulse :=
  does_of_next (execStrokePulse s) hs rfl rfl (if_pos hpulses)

theorem does_strokePulse_datumsAlone (hpulses : h.pulses = false) (halone : h.datumsAlone = true) :
    Does .strokePulse s fun x => x = h.tickDatums := by
  refine does_of_next (execStrokePulse s) hs rfl rfl ?_
  rw [hpulses, halone, if_neg (by decide), if_pos rfl]

theorem does_strokePulse_idle (hpulses : h.pulses = false) (halone : h.datumsAlone = false) :
    Does .strokePulse s fun x => x = h := by
  refine does_of_next (execStrokePulse s) hs rfl rfl ?_
  rw [hpulses, halone, if_neg (by decide), if_neg (by decide)]

end

/-- Settles O25: the three cases of a pulse, and the start of a stroke. -/
theorem strokePulses : Obligations.StrokePulses := by
  refine ⟨?_, fun s h hs => does_strokePulse_idle hs, fun s h hs => does_strokePulse_datumsAlone hs,
    fun h => ⟨h.tick_now, h.tick_vec, fun f => h.get_tick_of_ne⟩⟩
  intro s h a b d hs hpulses ha hb hd
  have hstroke : h.strokePulse = (d.freezeMemory.refuseLate).ownerSummary := by
    rw [hd, hb, ha, Hw.strokePulse]
  rw [← hstroke]
  exact does_strokePulse_comes hs hpulses

end Sys2Proof.Machine

namespace Sys2Proof.Machine

/-! Coat boundaries (R45, R48, R68). -/

/-- A stroke lies a whole number of coats after the phase exactly when it leaves the phase modulo the coat length. -/
theorem add_coat_sub_phase_mod_eq_zero_iff {n l p : Nat} (hphase : p < l) : (n + (l - p)) % l = 0 ↔ n % l = p := by
  have hcoat : (n + (l - p)) % l = (n % l + (l - p)) % l := (Nat.mod_add_mod n l (l - p)).symm
  have hpos : n % l < l := Nat.mod_lt n (by omega)
  rw [hcoat]
  rcases Nat.lt_or_ge (n % l) p with hbefore | hafter
  · rw [Nat.mod_eq_of_lt (by omega)]
    omega
  · rw [Nat.mod_eq_sub_mod (by omega), Nat.mod_eq_of_lt (by omega)]
    omega

theorem Stencil.pos_eq_zero_iff {s : Stencil} (hphase : s.phase < s.coatLen) (n : Nat) :
    s.pos n = 0 ↔ n % s.coatLen = s.phase :=
  add_coat_sub_phase_mod_eq_zero_iff hphase

/-- The stroke in coat counts from the phase (R45). -/
theorem Stencil.pos_eq_emod {s : Stencil} (hphase : s.phase < s.coatLen) (n : Nat) :
    (s.pos n : Int) = ((n : Int) - s.phase) % s.coatLen := by
  have hshift : ((n + (s.coatLen - s.phase) : Nat) : Int) = (n : Int) - s.phase + s.coatLen := by omega
  rw [Stencil.pos, Int.natCast_emod, hshift, Int.add_emod_right]

theorem Hw.atCoat_iff (h : Hw) : h.atCoat = true ↔ h.stn.active.pos h.now = 0 := by
  rw [Hw.atCoat, beq_iff_eq, Hw.coatPos]

theorem except_bind_ok {ε α β : Type} {x : Except ε α} {f : α → Except ε β} {b : β} (h : x >>= f = .ok b) :
    ∃ a, x = .ok a ∧ f a = .ok b := by
  cases x with
  | error e => cases h
  | ok a => exact ⟨a, rfl, h⟩

/-- An image that is read without a fault has its coat length and its phase in their ranges (R47, check 3 of R68). -/
theorem parseStencil_ranges {bs : List Byte} {x : Stencil} (hparse : parseStencil bs = .ok x) :
    1000 ≤ x.coatLen ∧ x.coatLen ≤ 200000 ∧ x.phase < x.coatLen := by
  unfold parseStencil at hparse
  simp only [] at hparse
  split at hparse
  · cases hparse
  · next hok =>
    simp only [Bool.not_eq_true', Bool.not_eq_false, Bool.and_eq_true, decide_eq_true_eq] at hok
    obtain ⟨ps, -, hparse⟩ := except_bind_ok hparse
    obtain ⟨as, -, hparse⟩ := except_bind_ok hparse
    obtain ⟨ts, -, hparse⟩ := except_bind_ok hparse
    obtain ⟨ws, -, hparse⟩ := except_bind_ok hparse
    obtain ⟨gs, -, hparse⟩ := except_bind_ok hparse
    cases hparse
    exact ⟨by tauto, by tauto, by tauto⟩

/-- A stencil that the checks find good was read from its image. -/
theorem Hw.judgeStencil_good {h : Hw} {c : Cmd} {x : Stencil} (hgood : h.judgeStencil c = .good x) :
    ∃ bs, parseStencil bs = .ok x := by
  unfold Hw.judgeStencil at hgood
  simp only [] at hgood
  split at hgood
  · cases hgood
  split at hgood
  · cases hgood
  split at hgood
  · cases hgood
  · cases hgood
  · next bs _ =>
    refine ⟨bs, ?_⟩
    split at hgood
    · cases hgood
    · next y hy =>
      rw [hy]
      split at hgood
      · cases hgood
      · cases hgood
        rfl

/-- Settles O54: the stroke in coat is the time since the phase modulo L, and check 3 of R68 bounds L and the phase. -/
theorem coatBoundaries : Obligations.CoatBoundaries := by
  refine ⟨fun h _ hphase => ⟨h.atCoat_iff.trans (Stencil.pos_eq_zero_iff hphase _), Stencil.pos_eq_emod hphase _⟩,
    ?_, ?_⟩
  · intro h c x hgood
    obtain ⟨bs, hparse⟩ := Hw.judgeStencil_good hgood
    exact parseStencil_ranges hparse
  · intro g h hnow hlen hphase
    rw [Bool.eq_iff_iff, Hw.atCoat_iff, Hw.atCoat_iff, Stencil.pos, Stencil.pos, hnow, hlen, hphase]

end Sys2Proof.Machine

namespace Sys2Proof.Machine

/-! The actions of a coat boundary (R46): the steps, and the rows that take one of them each. -/

section
variable {h : Hw}

theorem Hw.swapStep_idle (hdue : h.dueSwap = none) : h.swapStep = h := by
  rw [Hw.swapStep, hdue]

theorem Hw.swapStep_uncommanded {new : Stencil} (hdue : h.dueSwap = some new) (hcmd : h.stn.swapCmd = none) :
    h.swapStep = h.swapNow new := by
  simp only [Hw.swapStep, hdue, hcmd]

/-- A swap that a command asked for completes it with the number of the coat that begins (R55). -/
theorem Hw.swapStep_commanded {new : Stencil} {p q n : Nat} (hdue : h.dueSwap = some new)
    (hcmd : h.stn.swapCmd = some (p, q, n)) : h.swapStep =
      (h.swapNow new).finishAt p q n 0 (((h.swapNow new).get F.STN_COAT_COUNT_COATS + 1) % 2 ^ 64) 0 {} := by
  simp only [Hw.swapStep, hdue, hcmd]

theorem Hw.budgetStep_idle (hdue : h.boundaryDue = false) : h.budgetStep = h := by
  rw [Hw.budgetStep, hdue, Bool.not_false, if_pos rfl]

/-- With no change accepted before the boundary, no budget moves. -/
theorem Hw.budgetStep_none (hdue : h.boundaryDue = true)
    (hnone : (h.stn.budgets.filter fun b => decide (h.acceptedAt b.pid b.queue b.num < h.now)) = []) :
    h.budgetStep = h := by
  have hall : (h.stn.budgets.filter fun b => ! decide (h.acceptedAt b.pid b.queue b.num < h.now)) = h.stn.budgets := by
    rw [List.filter_eq_self]
    intro b hb
    simpa using List.filter_eq_nil_iff.mp hnone b hb
  simp only [Hw.budgetStep, hdue, hnone, hall]
  rfl

/-- The changes accepted before the boundary are applied in their order, and their commands complete (R59). -/
theorem Hw.budgetStep_some {bs : List BudgetChange} {a : Hw} (hdue : h.boundaryDue = true)
    (hbs : bs = h.stn.budgets.filter fun b => decide (h.acceptedAt b.pid b.queue b.num < h.now)) (hsome : bs ≠ [])
    (ha : a = { h with stn := { h.stn with
      active := bs.foldl Stencil.applyBudget h.stn.active
      budgets := h.stn.budgets.filter fun b => ! decide (h.acceptedAt b.pid b.queue b.num < h.now) } }) :
    h.budgetStep = bs.foldl (fun x b => x.finishAt b.pid b.queue b.num 0 0 0 {}) (a.refillAfter h) := by
  have hnonempty : bs.isEmpty = false := by simpa using hsome
  subst ha
  simp only [Hw.budgetStep, hdue, ← hbs, hnonempty]
  rfl

theorem Hw.adjustStep_idle (hdue : h.boundaryDue = false) : h.adjustStep = h := by
  rw [Hw.adjustStep, hdue, Bool.not_false, if_pos rfl]

theorem Hw.adjustStep_due (hdue : h.boundaryDue = true) : h.adjustStep =
    { h with stn := { h.stn with active := { h.stn.active with
      trigs := h.stn.active.trigs.map fun t => { t with cur := t.next.getD t.cur, next := none } } } } := by
  rw [Hw.adjustStep, hdue]
  rfl

theorem Hw.admitStep_idle (hdue : h.boundaryDue = false) : h.admitStep = h := by
  rw [Hw.admitStep, hdue, Bool.not_false, if_pos rfl]

/-- An admitted tile leaves the retirement masks and becomes `ACTIVE`, and its command completes (R451). -/
def Hw.admitTile (h : Hw) (a : Nat × Nat × Nat × Nat) : Hw :=
  let h := { h with fab := { h.fab with
    retired := NSet.rem h.fab.retired a.1, mramRetired := NSet.rem h.fab.mramRetired a.1 } }
  ((h.put (F.TILE_STATE_STATE.blk a.1) 1).event (srcTile a.1) 0x0207 0 0).finishAt a.2.1 a.2.2.1 a.2.2.2 0 0 0 {}

theorem Hw.admitStep_due (hdue : h.boundaryDue = true) : h.admitStep =
    h.fab.admitted.foldl Hw.admitTile { h with fab := { h.fab with admitted := [] } } := by
  rw [Hw.admitStep, hdue]
  rfl

/-- The whole of R46, in its order. -/
theorem Hw.coatBoundary_eq {a b : Hw}
    (ha : a = ((((h.countCoat.timeStep).swapStep.budgetStep).adjustStep).admitStep).endBridge.fillVacancies)
    (hb : b = ((a.reloadCoat.addWrap F.STN_COAT_COUNT_COATS 1).showStencil).trvCoat.revokeShareless) :
    h.coatBoundary = { b with stn := { b.stn with coatDone := some b.now } } := by
  rw [hb, ha, Hw.coatBoundary]

end

section
variable {s : State} {h : Hw} (hs : s.hw = h)
include hs

theorem does_stencilSwapEffect {h' : Hw} (hruns : h.sequencing = true) (hstep : h.swapStep = h') :
    Does .stencilSwapEffect s fun x => x = h' :=
  does_of_next (execStencilSwapEffect s) hs rfl rfl ((if_pos hruns).trans hstep)

theorem does_budgetSetEffect {h' : Hw} (hruns : h.sequencing = true) (hstep : h.budgetStep = h') :
    Does .budgetSetEffect s fun x => x = h' :=
  does_of_next (execBudgetSetEffect s) hs rfl rfl ((if_pos hruns).trans hstep)

theorem does_triggerAdjustEffect {h' : Hw} (hruns : h.sequencing = true) (hstep : h.adjustStep = h') :
    Does .triggerAdjustEffect s fun x => x = h' :=
  does_of_next (execTriggerAdjustEffect s) hs rfl rfl ((if_pos hruns).trans hstep)

theorem does_tileAdmission {h' : Hw} (hruns : h.sequencing = true) (hstep : h.admitStep = h') :
    Does .tileAdmission s fun x => x = h' :=
  does_of_next (execTileAdmission s) hs rfl rfl ((if_pos hruns).trans hstep)

/-- While the sequencer does not run, none of the rows acts. -/
theorem does_coatRow_stopped {c : Instr} (hstops : h.sequencing = false)
    (hc : c = .stencilSwapEffect ∨ c = .budgetSetEffect ∨ c = .triggerAdjustEffect ∨ c = .tileAdmission) :
    Does c s fun x => x = h := by
  have hidle {x : Hw} : (if h.sequencing = true then x else h) = h := if_neg (by simp [hstops])
  rcases hc with rfl | rfl | rfl | rfl
  · exact does_of_next (execStencilSwapEffect s) hs rfl rfl hidle
  · exact does_of_next (execBudgetSetEffect s) hs rfl rfl hidle
  · exact does_of_next (execTriggerAdjustEffect s) hs rfl rfl hidle
  · exact does_of_next (execTileAdmission s) hs rfl rfl hidle

/-- At a stroke that is no boundary, or whose actions are done, the rows of steps 3 to 5 change nothing. -/
theorem does_coatRow_undue {c : Instr} (hdue : h.boundaryDue = false)
    (hc : c = .budgetSetEffect ∨ c = .triggerAdjustEffect ∨ c = .tileAdmission) : Does c s fun x => x = h := by
  cases hruns : h.sequencing with
  | false => exact does_coatRow_stopped hs hruns (.inr hc)
  | true =>
    rcases hc with rfl | rfl | rfl
    · exact does_budgetSetEffect hs hruns (Hw.budgetStep_idle hdue)
    · exact does_triggerAdjustEffect hs hruns (Hw.adjustStep_idle hdue)
    · exact does_tileAdmission hs hruns (Hw.admitStep_idle hdue)

theorem does_coatBoundary_due (hruns : h.sequencing = true) (hdue : h.boundaryDue = true) :
    Does .coatBoundary s fun x => x = h.coatBoundary :=
  does_of_next (execCoatBoundary s) hs rfl rfl (if_pos (by rw [hruns, hdue]; rfl))

theorem does_coatBoundary_idle (hidle : (h.sequencing && h.boundaryDue) = false) :
    Does .coatBoundary s fun x => x = h :=
  does_of_next (execCoatBoundary s) hs rfl rfl (if_neg (by simp [hidle]))

end

/-- Settles O24: each row takes one step of R46, and `COAT_BOUNDARY` takes them all. -/
theorem coatBoundaryActions : Obligations.CoatBoundaryActions := by
  refine ⟨?_, ?_, ?_, ?_, ?_, ?_, ?_, ?_, ?_, ?_, fun s h hs => does_coatBoundary_idle hs,
    fun s h hs hstops => does_coatRow_stopped hs hstops (by simp),
    fun s h hs hstops => does_coatRow_stopped hs hstops (by simp),
    fun s h hs hstops => does_coatRow_stopped hs hstops (by simp),
    fun s h hs hstops => does_coatRow_stopped hs hstops (by simp),
    fun s h hs hdue => does_coatRow_undue hs hdue (by simp),
    fun s h hs hdue => does_coatRow_undue hs hdue (by simp),
    fun s h hs hdue => does_coatRow_undue hs hdue (by simp)⟩
  · intro s h new hs hruns hdue hcmd
    exact does_stencilSwapEffect hs hruns (Hw.swapStep_uncommanded hdue hcmd)
  · intro s h new p q n hs hruns hdue hcmd
    exact does_stencilSwapEffect hs hruns (Hw.swapStep_commanded hdue hcmd)
  · intro s h hs hruns hdue
    exact does_stencilSwapEffect hs hruns (Hw.swapStep_idle hdue)
  · intro s h bs a hs hruns hdue hbs hsome ha
    exact does_budgetSetEffect hs hruns (Hw.budgetStep_some hdue hbs hsome ha)
  · intro s h hs hruns hdue hnone
    exact does_budgetSetEffect hs hruns (Hw.budgetStep_none hdue hnone)
  · intro s h hs hruns hdue
    exact does_triggerAdjustEffect hs hruns (Hw.adjustStep_due hdue)
  · intro s h hs hruns hdue hnone
    refine does_tileAdmission hs hruns ?_
    rw [Hw.admitStep_due hdue, hnone, List.foldl_nil, ← hnone]
  · intro s h t p q n a hs hruns hdue hone ha
    refine does_tileAdmission hs hruns ?_
    rw [Hw.admitStep_due hdue, hone, ha]
    rfl
  · intro s h hs hruns hdue
    exact does_tileAdmission hs hruns (Hw.admitStep_due hdue)
  · intro s h a b hs hruns hdue ha hb
    rw [← Hw.coatBoundary_eq ha hb]
    exact does_coatBoundary_due hs hruns hdue

end Sys2Proof.Machine

namespace Sys2Proof.Machine

/-! Module time (R40, R43, R517, R537, R619, R620): its sources, its steps and the loss of its reference. -/

section
variable {s : State} {h : Hw} (hs : s.hw = h)
include hs

theorem does_ptpSync_received {port : Fin 2} {off clockId : BitVec 64} {a h' : Hw} (hruns : h.timeRuns = true)
    (ha : a = (h.addSat (F.BB_COUNT_RX.nth port.val) 1).put
      (if port.val = 0 then F.BB_STATUS_PTP0 else F.BB_STATUS_PTP1) 1)
    (hselect : (if h.sys.srcInUse = port.val then
      (a.put F.TIME_GM_CLOCK_ID clockId.toNat).measured off.toInt else a) = h') :
    Does (.ptpSync port off clockId) s fun x => x = h' := by
  have hsys : a.sys = h.sys := by rw [ha, Hw.put_sys, Hw.addSat_sys]
  refine does_of_next (execPtpSync port off clockId s) hs rfl rfl ?_
  rw [hruns, ← ha]
  rw [← hsys] at hselect
  exact hselect

theorem does_ptpSync_idle {port : Fin 2} {off clockId : BitVec 64} (hruns : h.timeRuns = false) :
    Does (.ptpSync port off clockId) s fun x => x = h :=
  does_of_next (execPtpSync port off clockId s) hs rfl rfl (if_pos (by simp [hruns]))

theorem does_ppsInEdge_unusable {ns10 : Fin 100} {good : Bool} (hbad : good = false ∨ h.timeRuns = false) :
    Does (.ppsInEdge ns10 good) s fun x => x = h := by
  refine does_of_next (execPpsInEdge ns10 good s) hs rfl rfl ?_
  rcases hbad with hgood | hruns
  · rw [hgood]
    exact ite_self h
  · rw [hruns]
    rfl

/-- A good edge near the predicted second is noted, and steers when PPS_IN is selected. -/
theorem does_ppsInEdge_near {ns10 : Fin 100} {good : Bool} {t : Nat} {h' : Hw} (hruns : h.timeRuns = true)
    (ht : t = 1000 * h.now + 10 * ns10.val) (hgood : good = true)
    (hnear : ∀ x, h.sys.ppsAt = some x → (nearSecond x t).natAbs ≤ 10000)
    (hselect : (if h.sys.srcInUse = 2 then
        (({ h with sys := { h.sys with ppsAt := some t } } : Hw).put F.TIME_GM_CLOCK_ID 0).measured (nearSecond 0 t)
      else { h with sys := { h.sys with ppsAt := some t } }) = h') :
    Does (.ppsInEdge ns10 good) s fun x => x = h' := by
  refine does_of_next (execPpsInEdge ns10 good s) hs rfl rfl ?_
  subst hselect hgood
  rw [← ht]
  cases hpps : h.sys.ppsAt with
  | none => rw [hruns]; rfl
  | some x => simp [hruns, hnear x hpps]

/-- An edge more than 10 µs from the predicted second is counted as rejected (R537). -/
theorem does_ppsInEdge_far {ns10 : Fin 100} {good : Bool} {t x : Nat} (hruns : h.timeRuns = true)
    (ht : t = 1000 * h.now + 10 * ns10.val) (hgood : good = true) (hpps : h.sys.ppsAt = some x)
    (hfar : 10000 < (nearSecond x t).natAbs) :
    Does (.ppsInEdge ns10 good) s fun y =>
      y = (h.addSat F.TIME_STATUS_PPS_REJECT 1).put F.TIME_INT_STATUS_PPS_REJECT 1 := by
  refine does_of_next (execPpsInEdge ns10 good s) hs rfl rfl ?_
  subst hgood
  rw [← ht]
  simp [hruns, hpps, hfar]

theorem does_holdover_idle {left : Bool} (hidle : h.sys.srcInUse = 3 ∨ h.timeRuns = false) :
    Does (.holdover left) s fun x => x = h := by
  refine does_of_next (execHoldover left s) hs rfl rfl (if_pos ?_)
  rcases hidle with e | e <;> simp [e]

/-- With PPS_IN in use, the source is lost when no usable edge has come for 2.5 s (R537). -/
theorem does_holdover_pps {left : Bool} {h' : Hw} (hruns : h.timeRuns = true) (huse : h.sys.srcInUse = 2)
    (hsilent : (if h.sys.ppsAt.all (fun a => decide (a + 2500000000 ≤ 1000 * h.now)) = true then h.sourceLost
      else h) = h') :
    Does (.holdover left) s fun x => x = h' :=
  does_of_next (execHoldover left s) hs rfl rfl
    ((if_neg (by simp [hruns, huse])).trans ((if_pos huse).trans hsilent))

theorem does_holdover_port {left : Bool} {a : Hw} (hruns : h.timeRuns = true) (huse : h.sys.srcInUse < 2)
    (ha : a = if left then h.put (if h.sys.srcInUse = 0 then F.BB_STATUS_PTP0 else F.BB_STATUS_PTP1) 0 else h) :
    Does (.holdover left) s fun x => x = a.sourceLost := by
  subst ha
  have hother : ¬ (! h.timeRuns || h.sys.srcInUse == 3) = true := by
    simp [hruns, show h.sys.srcInUse ≠ 3 by omega]
  exact does_of_next (execHoldover left s) hs rfl rfl ((if_neg hother).trans (if_neg (by omega)))

theorem does_timeSrcWrite {v : BitVec 64} {h' : Hw} (hwrite : (if h.hubOn = true then h.writeSrc v.toNat else h) = h') :
    Does (.timeSrcWrite v) s fun x => x = h' :=
  does_of_next (execTimeSrcWrite v s) hs rfl rfl hwrite

theorem does_timeStep {v : BitVec 64} {h' : Hw} (hwrite : (if h.hubOn = true then h.writeStep v.toNat else h) = h') :
    Does (.timeStep v) s fun x => x = h' :=
  does_of_next (execTimeStep v s) hs rfl rfl hwrite

theorem does_timeStepEffect {h' : Hw} (hstep : (if h.timeRuns = true then h.timeStep else h) = h') :
    Does .timeStepEffect s fun x => x = h' :=
  does_of_next (execTimeStepEffect s) hs rfl rfl hstep

end

section
variable {h : Hw} {v : Nat}

theorem Hw.writeSrc_noted (hfree : h.locked 0x002 = false) (hother : bits v 0 2 ≠ h.get F.TIME_SRC_SRC) :
    h.writeSrc v = { h.put F.TIME_SRC_SRC (bits v 0 2) with sys := { h.sys with srcAt := some h.now } } :=
  if_neg (by simp [hfree, hother])

theorem Hw.writeSrc_ignored (hsame : h.locked 0x002 = true ∨ bits v 0 2 = h.get F.TIME_SRC_SRC) : h.writeSrc v = h :=
  if_pos (by simpa only [Bool.or_eq_true, beq_iff_eq] using hsame)

/-- What a write of `TIME_STEP` needs to be taken (R620). -/
def Hw.takesStep (h : Hw) (v : Nat) : Prop :=
  (h.mode = 2 ∨ h.mode = 4 ∨ h.mode = 5) ∧ h.stn.swapAt = none ∧ h.sys.step = none ∧ (sx 64 v).natAbs ≤ 2 ^ 62

theorem Hw.writeStep_taken (htakes : h.takesStep v) : h.writeStep v =
    { h.put F.TIME_STATUS_STEP_PENDING 1 with sys := { h.sys with step := some (sx 64 v, h.now) } } := by
  obtain ⟨hmode, hswap, hstep, hsize⟩ := htakes
  exact if_pos (by simpa [hmode, hswap, hstep, or_assoc] using hsize)

theorem Hw.writeStep_refused (hrefuses : ¬ h.takesStep v) : h.writeStep v = h.put F.TIME_INT_STATUS_STEP_REFUSED 1 := by
  refine if_neg fun hok => hrefuses ?_
  simp only [Bool.and_eq_true, Bool.or_eq_true, beq_iff_eq, decide_eq_true_eq, Option.isNone_iff_eq_none] at hok
  obtain ⟨⟨⟨hmode, hswap⟩, hstep⟩, hsize⟩ := hok
  exact ⟨or_assoc.mp hmode, hswap, hstep, hsize⟩

theorem Hw.timeStep_none (hnone : h.sys.step = none) : h.timeStep = h := by
  rw [Hw.timeStep, hnone]

/-- A step waits for a coat boundary at least 16 strokes after its write (R620). -/
theorem Hw.timeStep_waits {d : Int} {at_ : Nat} (hstep : h.sys.step = some (d, at_))
    (hwaits : h.boundaryDue = false ∨ h.now < at_ + 16) : h.timeStep = h := by
  simp only [Hw.timeStep, hstep]
  exact if_pos (by simpa only [Bool.or_eq_true, Bool.not_eq_true', decide_eq_true_eq] using hwaits)

theorem Hw.timeStep_acts {d : Int} {at_ : Nat} {a b : Hw} (hstep : h.sys.step = some (d, at_))
    (hdue : h.boundaryDue = true) (hold : at_ + 16 ≤ h.now)
    (ha : a = { h.budgetStep with sys := { h.budgetStep.sys with step := none } })
    (hb : b = (a.moveTimes d).put F.TIME_COUNT_STROKE_COUNT (moved (d - 1) a.now % 2 ^ 64)) : h.timeStep =
      ((((b.put F.TIME_STATUS_STEP_PENDING 0).put F.TIME_INT_STATUS_STEP_DONE 1).setBridge).showStencil).refillBuckets := by
  rw [hb, ha]
  simp only [Hw.timeStep, hstep]
  exact if_neg (by simp [hdue, hold])

end

/-- The loss of the reference: each Datum that runs loses its monitor links and latches `CLOCK` (R517). -/
theorem does_referenceLoss {s : State} {h a : Hw} (hs : s.hw = h) (ha : a = { h with sys := { h.sys with refLost := true } }) :
    Does .referenceLoss s fun x => x = a.datumsOn.foldl (fun x d =>
      ((((upto 0 5).foldl (fun x e => x.loseMonitor d e) x).latchOwn d 0x08 none 0).setHold d).driveLoop d) a := by
  rw [ha]
  exact does_of_next (execReferenceLoss s) hs rfl rfl rfl

/-- Settles O31: each clause names the branch of its row, or of the write or step that the row hands on to. -/
theorem moduleTime : Obligations.ModuleTime := by
  refine ⟨?_, ?_, ?_, ?_, ?_, fun s h port off clockId hs => does_ptpSync_idle hs,
    fun s h ns10 good hs => does_ppsInEdge_unusable hs, ?_, fun s h left a hs => does_holdover_port hs, ?_,
    fun s h left hs => does_holdover_idle hs, ?_, ?_, ?_, ?_, ?_, ?_, ?_, ?_, fun s h a hs => does_referenceLoss hs⟩
  · intro s h port off clockId a hs hruns ha huse
    exact does_ptpSync_received hs hruns ha (if_pos huse)
  · intro s h port off clockId a hs hruns ha huse
    exact does_ptpSync_received hs hruns ha (if_neg huse)
  · intro s h ns10 good t hs hruns ht hgood hnear huse
    exact does_ppsInEdge_near hs hruns ht hgood hnear (if_pos huse)
  · intro s h ns10 good t hs hruns ht hgood hnear huse
    exact does_ppsInEdge_near hs hruns ht hgood hnear (if_neg huse)
  · intro s h ns10 good t x hs
    exact does_ppsInEdge_far hs
  · intro s h left hs hruns huse hsilent
    refine does_holdover_pps hs hruns huse (if_pos ?_)
    cases hpps : h.sys.ppsAt with
    | none => rfl
    | some x =>
      rw [Option.all_some, decide_eq_true_eq]
      exact hsilent x hpps
  · intro s h left x hs hruns huse hpps hlive
    refine does_holdover_pps hs hruns huse (if_neg ?_)
    rw [hpps, Option.all_some, decide_eq_true_eq]
    exact Nat.not_le.mpr hlive
  · intro s h v hs hhub hfree hother
    exact does_timeSrcWrite hs ((if_pos hhub).trans (Hw.writeSrc_noted hfree hother))
  · intro s h v hs hidle
    refine does_timeSrcWrite hs ?_
    rcases hidle with hhub | hsame
    · rw [hhub, if_neg (by decide)]
    · rw [Hw.writeSrc_ignored hsame, ite_self]
  · intro s h v hs hhub hmode hswap hstep hsize
    exact does_timeStep hs ((if_pos hhub).trans (Hw.writeStep_taken ⟨hmode, hswap, hstep, hsize⟩))
  · intro s h v hs hhub hbad
    refine does_timeStep hs ((if_pos hhub).trans (Hw.writeStep_refused ?_))
    rintro ⟨hmode, hswap, hstep, hsize⟩
    rcases hbad with hbad | hbad | hbad | hbad
    · simp [hswap] at hbad
    · simp [hstep] at hbad
    · omega
    · omega
  · intro s h v hs hhub
    exact does_timeStep hs (if_neg (by simp [hhub]))
  · intro s h d at_ hs hidle
    refine does_timeStepEffect hs ?_
    rcases hidle with hruns | ⟨hstep, hwaits⟩
    · rw [hruns, if_neg (by decide)]
    · rw [Hw.timeStep_waits hstep hwaits, ite_self]
  · intro s h d at_ a b hs hruns hstep hdue hold ha hb
    exact does_timeStepEffect hs ((if_pos hruns).trans (Hw.timeStep_acts hstep hdue hold ha hb))
  · intro s h hs hnone
    refine does_timeStepEffect hs ?_
    rw [Hw.timeStep_none hnone, ite_self]

end Sys2Proof.Machine

namespace Sys2Proof.Machine

/-! The application cores (R493, R496 to R501): slices, guest timers and regulated requests. -/

section
variable {h : Hw} {hart : Nat}

theorem Hw.sliceEnd_same (hsame : h.sys.apc.running.find hart = if h.hartOn hart then h.sliceOwner hart else none) :
    h.sliceEnd hart = h :=
  if_pos hsame

theorem Hw.sliceEnd_runs {pid : Nat} (hon : h.hartOn hart = true) (howner : h.sliceOwner hart = some pid)
    (hother : h.sys.apc.running.find hart ≠ some pid) : h.sliceEnd hart = h.modApc fun a => a.runOn hart pid h.now := by
  simp only [Hw.sliceEnd, hon, if_true, howner, if_neg hother]

theorem Hw.sliceEnd_stops (hnone : h.hartOn hart = false ∨ h.sliceOwner hart = none)
    (hran : (h.sys.apc.running.find hart).isSome = true) : h.sliceEnd hart = h.modApc fun a => a.stop hart := by
  have howner : (if h.hartOn hart = true then h.sliceOwner hart else none) = none := by
    rcases hnone with e | e <;> simp [e]
  have hran' : h.sys.apc.running.find hart ≠ none := Option.isSome_iff_ne_none.mp hran
  simp only [Hw.sliceEnd, howner, if_neg hran']

end

theorem does_apcSliceEnd {s : State} {h h' : Hw} {hart : Fin 32} (hs : s.hw = h) (hend : h.sliceEnd hart = h') :
    Does (.apcSliceEnd hart) s fun x => x = h' :=
  does_of_next (execApcSliceEnd hart s) hs rfl rfl hend

/-! Guest timers (R493): a write sets the timer, and a timer that is due is taken or kept. -/

/-- A guest's write of `vstimecmp`: the timer has its value, and nothing of it is due or taken. -/
def Apc.setTimer (a : Apc) (k v : Nat) : Apc :=
  { a with timers := a.timers.put k v, timerDue := a.timerDue.filter (· ≠ k),
           timerTaken := a.timerTaken.filter (· ≠ k) }

/-- A timer that is due is taken while the partition runs on the hart, and else kept as due. -/
def Apc.noteTimer (a : Apc) (runs : Bool) (k : Nat) : Apc :=
  if runs then { a with timerTaken := NSet.add a.timerTaken k } else { a with timerDue := NSet.add a.timerDue k }

/-- The comparison of a timer with the time, `ns10` steps of 10 ns after the stroke pulse. -/
def Hw.compareTimer (h : Hw) (pid hart ns10 : Nat) : Hw :=
  match h.sys.apc.timers.find (timerKey pid hart) with
  | none => h
  | some v =>
    if h.csrTime ns10 < v ∨ h.sys.apc.timerTaken.contains (timerKey pid hart) then h
    else h.modApc fun a => a.noteTimer (h.runsOn pid hart) (timerKey pid hart)

section
variable {h : Hw} {pid hart ns10 : Nat}

theorem Hw.guestTimer_elsewhere (cmp : Option (BitVec 64)) (helse : h.onHart pid hart = false) :
    h.guestTimer pid hart cmp ns10 = h :=
  if_pos (by simp [helse])

theorem Hw.guestTimer_compares (hon : h.onHart pid hart = true) :
    h.guestTimer pid hart none ns10 = h.compareTimer pid hart ns10 := by
  rw [Hw.guestTimer, hon]
  rfl

theorem Hw.guestTimer_writes (v : BitVec 64) (hon : h.onHart pid hart = true) :
    h.guestTimer pid hart (some v) ns10 =
      (h.modApc fun a => a.setTimer (timerKey pid hart) v.toNat).compareTimer pid hart ns10 := by
  rw [Hw.guestTimer, hon]
  rfl

theorem Hw.compareTimer_due {v : Nat} (htimer : h.sys.apc.timers.find (timerKey pid hart) = some v)
    (hdue : v ≤ h.csrTime ns10) (hfree : h.sys.apc.timerTaken.contains (timerKey pid hart) = false) :
    h.compareTimer pid hart ns10 = h.modApc fun a => a.noteTimer (h.runsOn pid hart) (timerKey pid hart) := by
  simp only [Hw.compareTimer, htimer]
  exact if_neg (by rw [hfree]; simpa using hdue)

theorem Hw.compareTimer_idle (hidle : ∀ v, h.sys.apc.timers.find (timerKey pid hart) = some v →
      h.csrTime ns10 < v ∨ h.sys.apc.timerTaken.contains (timerKey pid hart) = true) :
    h.compareTimer pid hart ns10 = h := by
  unfold Hw.compareTimer
  split
  · rfl
  · next v htimer => exact if_pos (hidle v htimer)

end

@[simp] theorem Apc.timers_setTimer (a : Apc) (k v : Nat) : (a.setTimer k v).timers.find k = some v :=
  SMap.find_put_same a.timers k v

@[simp] theorem Apc.timerTaken_setTimer (a : Apc) (k v : Nat) : (a.setTimer k v).timerTaken.contains k = false := by
  simp [Apc.setTimer]

@[simp] theorem Hw.modApc_apc (h : Hw) (f : Apc → Apc) : (h.modApc f).sys.apc = f h.sys.apc := rfl

theorem does_guestTimer {s : State} {h h' : Hw} {pid : Fin 256} {hart : Fin 32} {cmp : Option (BitVec 64)}
    {ns10 : Fin 100} (hs : s.hw = h) (htimer : h.guestTimer pid hart cmp ns10 = h') :
    Does (.guestTimer pid hart cmp ns10) s fun x => x = h' :=
  does_of_next (execGuestTimer pid hart cmp ns10 s) hs rfl rfl htimer

/-! Requests (R499 to R501): their translation, and the regulator. -/

/-- The request that a core's operation makes, on the pieces to which its address translates. -/
def requestOf (o : ApcOp) (pid : Nat) (nc : Bool) (ps : List (Nat × Nat)) : ApcReq :=
  { pid := pid, hart := o.hart.val, kind := o.kind.val, va := o.va.toNat, data := o.data.take 64, hit := o.hit, nc := nc,
    ps := ps, paid := false }

section
variable {h : Hw} {o : ApcOp} {pid : Nat}

theorem Hw.apcRequest_idle (hidle : ∀ p, h.sys.apc.running.find o.hart.val = some p → h.runsOn p o.hart.val = false) :
    h.apcRequest o = h := by
  unfold Hw.apcRequest
  split
  · rfl
  · next p hp => exact if_pos (by simp [hidle p hp])

variable (hpid : h.sys.apc.running.find o.hart.val = some pid) (hruns : h.runsOn pid o.hart.val = true)
include hpid hruns

theorem Hw.apcRequest_pageFails {a e : Nat}
    (hrun : h.mem.translateRun pid (apcSpan o).1 (apcSpan o).2 (requestOf o pid false []).acs false = .error (a, e)) :
    h.apcRequest o =
      (h.translationFault 3 e pid a).guestFault (requestOf o pid false []) (requestOf o pid false []).pageCause := by
  unfold requestOf at hrun
  simp only [Hw.apcRequest, hpid, hruns, hrun]
  rfl

variable {ps : List (Nat × Nat)}
  (hrun : h.mem.translateRun pid (apcSpan o).1 (apcSpan o).2 (requestOf o pid false []).acs false = .ok ps)
include hrun

/-- Registers are refused with their event, what is no memory takes no request, and memory is served (R180, R499). -/
theorem Hw.apcRequest_translated : h.apcRequest o =
    if ps.any (fun x => h.region x.1 == .regs) = true then
      h.event srcFw 0x0805 pid (((ps.map (·.1)).headD 0 - 0x0400_0000_0000) / 65536)
    else if h.allMemory ps = true then h.apcServe (requestOf o pid (h.uncached pid o.va.toNat ps) ps)
    else h := by
  unfold requestOf at hrun
  simp only [Hw.apcRequest, hpid, hruns, hrun]
  rfl

theorem Hw.apcRequest_served (hregs : ps.any (fun x => h.region x.1 == .regs) = false) (hmem : h.allMemory ps = true) :
    h.apcRequest o = h.apcServe (requestOf o pid (h.uncached pid o.va.toNat ps) ps) := by
  rw [Hw.apcRequest_translated hpid hruns hrun, hregs, if_neg (by decide), if_pos hmem]

end

/-- Whether the DRAM buckets take a request's traffic as writes. -/
def ApcReq.chargesWrite (r : ApcReq) : Bool :=
  r.acs == .wr && decide (r.kind ≠ 6 ∧ r.kind ≠ 7) || decide (10 ≤ r.kind)

/-- What a request does once the regulator has let it pass: a hit is performed, and a miss waits in a QUIET window and
without DRAM tokens (R70, R499, R500). -/
def Hw.apcPassed (h : Hw) (r : ApcReq) : Hw :=
  if ! h.misses r then h.apcPerform r
  else if h.quiet && r.ps.any fun p => h.region p.1 == .dram then h.apcWait r
  else match h.chargeDram r.pid r.ps r.chargesWrite with
  | none => (h.noteExhausted r.pid 0).apcWait r
  | some h => h.apcPerform r

section
variable {h : Hw} {r : ApcReq}

theorem Hw.apcServe_local (hlocal : h.inCluster r = true) : h.apcServe r = h.apcLocal r :=
  if_pos hlocal

/-- Without 64 bytes of its cluster's budget a request waits (R500). -/
theorem Hw.apcServe_unfunded (houtside : h.inCluster r = false) (hpaid : r.paid = false)
    (hshort : h.stn.apcBytes.getD 0 (r.hart / 8 * 256 + r.pid) < 64) :
    h.apcServe r = (h.noteExhausted r.pid 3).apcWait r := by
  rw [Hw.apcServe, houtside, if_neg (by decide), if_pos (by simp [hpaid, hshort])]

/-- A request that the budget covers takes 64 bytes of it, and other clusters' changed lines come back (R183, R500). -/
theorem Hw.apcServe_funded {n : Nat} {f g : Hw} (houtside : h.inCluster r = false) (hpaid : r.paid = false)
    (hn : n = h.stn.apcBytes.getD 0 (r.hart / 8 * 256 + r.pid)) (hbudget : 64 ≤ n)
    (hf : f = { h with stn := { h.stn with apcBytes := h.stn.apcBytes.putD 0 (r.hart / 8 * 256 + r.pid) (n - 64) } })
    (hg : g = if r.nc || decide (r.kind = 1 ∨ r.kind = 8) then f else f.snoop r.dpa) :
    h.apcServe r = g.apcPassed { r with paid := true } := by
  have henough : ¬ n < 64 := Nat.not_lt.mpr hbudget
  rw [hg, hf]
  simp only [Hw.apcServe, houtside, hpaid, ← hn, henough]
  rfl

theorem Hw.apcPassed_hit (hhit : h.misses r = false) : h.apcPassed r = h.apcPerform r :=
  if_pos (by simp [hhit])

variable (hmiss : h.misses r = true)
include hmiss

theorem Hw.apcPassed_quiet (hquiet : (h.quiet && r.ps.any fun p => h.region p.1 == .dram) = true) :
    h.apcPassed r = h.apcWait r := by
  rw [Hw.apcPassed, hmiss, if_neg (by decide), if_pos hquiet]

variable (hopen : (h.quiet && r.ps.any fun p => h.region p.1 == .dram) = false)
include hopen

theorem Hw.apcPassed_unfunded
    (hcharge : h.chargeDram r.pid r.ps r.chargesWrite = none) :
    h.apcPassed r = (h.noteExhausted r.pid 0).apcWait r := by
  simp only [Hw.apcPassed, hmiss, hopen, hcharge]
  rfl

theorem Hw.apcPassed_performs {k : Hw}
    (hcharge : h.chargeDram r.pid r.ps r.chargesWrite = some k) :
    h.apcPassed r = k.apcPerform r := by
  simp only [Hw.apcPassed, hmiss, hopen, hcharge]
  rfl

end

theorem does_apcMemoryRequest {s : State} {h h' : Hw} {o : ApcOp} (hs : s.hw = h) (hrequest : h.apcRequest o = h') :
    Does (.apcMemoryRequest o) s fun x => x = h' :=
  does_of_next (execApcMemoryRequest o s) hs rfl rfl hrequest

/-- Settles O34: the slice of a hart, the write and the comparison of a timer, and the way of a request through
translation, budget, system cache and DRAM buckets. -/
theorem applicationCores : Obligations.ApplicationCores := by
  refine ⟨fun s h hart pid hs hon howner hother => does_apcSliceEnd hs (Hw.sliceEnd_runs hon howner hother),
    fun s h hart hs hnone hran => does_apcSliceEnd hs (Hw.sliceEnd_stops hnone hran),
    fun s h hart hs hsame => does_apcSliceEnd hs (Hw.sliceEnd_same hsame), ?_, ?_, ?_, ?_,
    fun s h pid hart cmp ns10 hs helse => does_guestTimer hs (Hw.guestTimer_elsewhere cmp helse), ?_, ?_, ?_, ?_, ?_,
    ?_, ?_, ?_, ?_, fun s h o hs hidle => does_apcMemoryRequest hs (Hw.apcRequest_idle hidle)⟩
  · intro s h pid hart cmp ns10 v hs hon hcmp hlater
    subst hcmp
    refine does_guestTimer hs ((Hw.guestTimer_writes v hon).trans (Hw.compareTimer_idle fun w htimer => .inl ?_))
    rw [Hw.modApc_apc, Apc.timers_setTimer] at htimer
    exact Option.some.inj htimer ▸ hlater
  · intro s h pid hart cmp ns10 v hs hon hcmp htimer hdue hfree
    subst hcmp
    exact does_guestTimer hs ((Hw.guestTimer_compares hon).trans (Hw.compareTimer_due htimer hdue hfree))
  · intro s h pid hart cmp ns10 hs hon hcmp hidle
    subst hcmp
    exact does_guestTimer hs ((Hw.guestTimer_compares hon).trans (Hw.compareTimer_idle hidle))
  · intro s h pid hart cmp ns10 v a hs hon hcmp hdue ha
    subst hcmp ha
    exact does_guestTimer hs ((Hw.guestTimer_writes v hon).trans
      (Hw.compareTimer_due (Apc.timers_setTimer _ _ _) hdue (Apc.timerTaken_setTimer _ _ _)))
  · intro s h o pid r a e hs hpid hruns hr hrun
    subst hr
    exact does_apcMemoryRequest hs (Hw.apcRequest_pageFails hpid hruns hrun)
  · intro s h o pid r ps hs hpid hruns hr hrun hregs
    subst hr
    exact does_apcMemoryRequest hs ((Hw.apcRequest_translated hpid hruns hrun).trans (if_pos hregs))
  · intro s h o pid r ps hs hpid hruns hr hrun hregs hmem
    subst hr
    refine does_apcMemoryRequest hs ?_
    rw [Hw.apcRequest_translated hpid hruns hrun, hregs, hmem, if_neg (by decide), if_neg (by decide)]
  · intro s h o pid r ps hs hpid hruns hr hrun hregs hmem hlocal
    subst hr
    exact does_apcMemoryRequest hs ((Hw.apcRequest_served hpid hruns hrun hregs hmem).trans (Hw.apcServe_local hlocal))
  · intro s h o pid r ps hs hpid hruns hr hrun hregs hmem houtside hshort
    subst hr
    exact does_apcMemoryRequest hs
      ((Hw.apcRequest_served hpid hruns hrun hregs hmem).trans (Hw.apcServe_unfunded houtside rfl hshort))
  · intro s h o pid r ps n f g hs hpid hruns hr hrun hregs hmem houtside hn hbudget hf hg hhit
    subst hr
    refine does_apcMemoryRequest hs ((Hw.apcRequest_served hpid hruns hrun hregs hmem).trans ?_)
    exact (Hw.apcServe_funded houtside rfl hn hbudget hf hg).trans (Hw.apcPassed_hit hhit)
  · intro s h o pid r ps n f g hs hpid hruns hr hrun hregs hmem houtside hn hbudget hf hg hmiss hquiet
    subst hr
    refine does_apcMemoryRequest hs ((Hw.apcRequest_served hpid hruns hrun hregs hmem).trans ?_)
    exact (Hw.apcServe_funded houtside rfl hn hbudget hf hg).trans (Hw.apcPassed_quiet hmiss hquiet)
  · intro s h o pid r ps n f g hs hpid hruns hr hrun hregs hmem houtside hn hbudget hf hg hmiss hopen hcharge
    subst hr
    refine does_apcMemoryRequest hs ((Hw.apcRequest_served hpid hruns hrun hregs hmem).trans ?_)
    exact (Hw.apcServe_funded houtside rfl hn hbudget hf hg).trans (Hw.apcPassed_unfunded hmiss hopen hcharge)
  · intro s h o pid r ps k n f g hs hpid hruns hr hrun hregs hmem houtside hn hbudget hf hg hmiss hopen hcharge
    subst hr
    refine does_apcMemoryRequest hs ((Hw.apcRequest_served hpid hruns hrun hregs hmem).trans ?_)
    exact (Hw.apcServe_funded houtside rfl hn hbudget hf hg).trans (Hw.apcPassed_performs hmiss hopen hcharge)

end Sys2Proof.Machine

namespace Sys2Proof.Machine

/-! Frame-sync triggers (R54, R319, R321). -/

section
variable {h : Hw} {p : Nat}

theorem Hw.fireTrigger_up (hmap : h.get (F.CAM_STATUS_MAP.blk p) = 31) (hup : h.camUp p = true) : h.fireTrigger p = h := by
  rw [Hw.fireTrigger, if_pos hmap, if_pos hup]

/-- With no port delivering the camera and its own link down, the trigger is dropped with its event (R319). -/
theorem Hw.fireTrigger_dropped (hmap : h.get (F.CAM_STATUS_MAP.blk p) = 31) (hdown : h.camUp p = false) :
    h.fireTrigger p = ((h.put F.STN_INT_STATUS_TRIGGER_DROPPED 1).put (F.CAM_INT_STATUS_TRIG_DROPPED.blk p) 1).event
      (srcCam p) 0x0501 0 p := by
  rw [Hw.fireTrigger, if_pos hmap, hdown, if_neg (by decide), Hw.dropTrigger]

/-- A trigger drives the GPIO of the port in `MAP`; one that no Frame Start answered counts a lost frame (R321). -/
theorem Hw.fireTrigger_drives {m : Nat} {a : Hw} (hm : m = h.get (F.CAM_STATUS_MAP.blk p)) (hmap : m ≠ 31)
    (ha : a = if (h.cam p).armed = true then h.noFrame p else h) : ∃ k : Hw,
      k = a.modCam p (fun x => { x with
        lastTrig := some a.now, armed := true
        lowAt := some (m, a.now + max 1 (a.get (F.CAM_CTRL_TRIG_WIDTH.blk p))) }) ∧
      h.fireTrigger p = { k with outs := a.outs ++ [.trigger m (a.get (F.CAM_CTRL_TRIG_GPIO.blk p)) true] } := by
  refine ⟨_, rfl, ?_⟩
  rw [Hw.fireTrigger, ← hm, if_neg hmap, ← ha]
  simp only [Hw.modCam_outs, Hw.modCam_get]

end

section
variable {s : State} {h h' : Hw} {p : Fin 24} (hs : s.hw = h)
include hs

theorem does_cameraTrigger_fires (hon : h.fabricOn = true)
    (hdue : (h.stn.active.trigs.any fun t => t.port == p.val && t.offset + t.cur == h.coatPos) = true)
    (honce : (h.cam p.val).lastTrig ≠ some h.now) (hfire : h.fireTrigger p.val = h') :
    Does (.cameraTrigger p) s fun x => x = h' := by
  refine does_of_next (execCameraTrigger p s) hs rfl rfl ((if_pos ?_).trans hfire)
  rw [hon, hdue, decide_eq_true honce]
  rfl

theorem does_cameraTrigger_idle (hidle : h.fabricOn = false ∨
      (h.stn.active.trigs.any fun t => t.port == p.val && t.offset + t.cur == h.coatPos) = false ∨
      (h.cam p.val).lastTrig = some h.now) : Does (.cameraTrigger p) s fun x => x = h := by
  refine does_of_next (execCameraTrigger p s) hs rfl rfl (if_neg ?_)
  rcases hidle with e | e | e <;> simp [e]

theorem does_triggerLow_idle (hidle : ∀ q t, (h.cam p.val).lowAt = some (q, t) → h.fabricOn = false ∨ h.now < t) :
    Does (.triggerLow p) s fun x => x = h := by
  refine does_of_next (execTriggerLow p s) hs rfl rfl ?_
  split
  · next q t hlow =>
    refine if_neg fun ⟨hon, hdue⟩ => ?_
    rcases hidle q t hlow with hoff | hearly
    · simp [hon] at hoff
    · omega
  · rfl

/-- A GPIO that is due falls, when the link of its port is still up (R321). -/
theorem does_triggerLow_due {q t : Nat} {a : Hw} (hon : h.fabricOn = true) (hlow : (h.cam p.val).lowAt = some (q, t))
    (hdue : t ≤ h.now) (ha : a = h.modCam p.val fun x => { x with lowAt := none }) :
    Does (.triggerLow p) s fun x => x = if a.camUp q = true then
      { a with outs := a.outs ++ [.trigger q (a.get (F.CAM_CTRL_TRIG_GPIO.blk p.val)) false] } else a := by
  refine does_of_next (execTriggerLow p s) hs rfl rfl ?_
  simp only [hlow, ha]
  exact if_pos ⟨hon, hdue⟩

end

/-! Camera links (R317, R334). -/

section
variable {s : State} {h : Hw} {q : Fin 24} {hi lo : Nat} (hs : s.hw = h)
include hs

theorem does_camLinkUp_comes {gear : Fin 6} {a b : Hw} (hon : h.fabricOn = true) (hgears : h.camGears q.val = (hi, lo))
    (htrains : h.get (F.CAM_STATUS_LINK.blk q.val) = 1) (hlo : lo ≤ gear.val) (hhi : gear.val ≤ hi)
    (ha : a = ((h.put (F.CAM_STATUS_LINK.blk q.val) 2).put (F.CAM_STATUS_GEAR_NOW.blk q.val) gear.val).modCam q.val
      fun x => { x with idRead := 0 })
    (hb : b = if gear.val < hi then (a.event (srcCam q.val) 0x0503 0 gear.val).healthAdd (partPort q.val) inRetrain 1 else a) :
    Does (.camLinkUp q gear) s fun x => x = (b.askIdentity q.val).judgeCams none := by
  refine does_of_next (execCamLinkUp q gear s) hs rfl rfl ?_
  simp only [hgears]
  rw [if_pos (by simp [hon, htrains, hlo, hhi]), ← ha, ← hb]

theorem does_camLinkUp_idle {gear : Fin 6} (hgears : h.camGears q.val = (hi, lo))
    (hidle : h.fabricOn = false ∨ gear.val < lo ∨ hi < gear.val ∨ h.get (F.CAM_STATUS_LINK.blk q.val) ≠ 1) :
    Does (.camLinkUp q gear) s fun x => x = h := by
  refine does_of_next (execCamLinkUp q gear s) hs rfl rfl ?_
  simp only [hgears]
  refine if_neg ?_
  rcases hidle with e | e | e | e <;> simp [e]

/-- The row of `CAM_LINK_RETRY` by the gears of its port (R317). -/
theorem does_camLinkRetry {h' : Hw} (hgears : h.camGears q.val = (hi, lo))
    (hretry : (if h.fabricOn = false then h
      else if h.get (F.CAM_STATUS_LINK.blk q.val) = 1 ∧ 20000 * (hi - lo + 1) ≤ h.now - (h.cam q.val).trainAt then
        h.put (F.CAM_STATUS_LINK.blk q.val) 3
      else if h.get (F.CAM_STATUS_LINK.blk q.val) = 3 ∧ 100000 ≤ h.now - (h.cam q.val).trainAt then
        (h.put (F.CAM_STATUS_LINK.blk q.val) 1).modCam q.val fun x => { x with trainAt := h.now }
      else h) = h') : Does (.camLinkRetry q) s fun x => x = h' := by
  refine does_of_next (execCamLinkRetry q s) hs rfl rfl ?_
  simp only [hgears, Bool.not_eq_true']
  exact hretry

end

/-! Camera identities (R318). -/

section
variable {s : State} {h : Hw} {q : Fin 24} {id : Option (List Byte)} (hs : s.hw = h)
include hs

theorem does_cameraIdentityRead_read {h' : Hw} (hon : h.fabricOn = true) (hup : h.camUp q.val = true)
    (hcheck : h.on (F.CAM_CTRL_IDCHK.blk q.val) = true)
    (hread : (match id with
      | some bs => (h.putIdentity q.val bs).modCam q.val fun x => { x with idRead := 1 }
      | none => h.modCam q.val fun x => { x with idRead := 2 }).judgeCams (some q.val) = h') :
    Does (.cameraIdentityRead q id) s fun x => x = h' := by
  refine does_of_next (execCameraIdentityRead q id s) hs rfl rfl ((if_pos (by simp [hon, hup, hcheck])).trans ?_)
  cases id with
  | none => exact hread
  | some bs => exact hread

theorem does_cameraIdentityRead_idle
    (hidle : h.fabricOn = false ∨ h.camUp q.val = false ∨ h.on (F.CAM_CTRL_IDCHK.blk q.val) = false) :
    Does (.cameraIdentityRead q id) s fun x => x = h := by
  refine does_of_next (execCameraIdentityRead q id s) hs rfl rfl (if_neg ?_)
  rcases hidle with e | e | e <;> simp [e]

end

/-- An identity that one logical camera expects and no other port shows is good at that camera's own port, and
swapped at another (R318). -/
theorem Hw.judgeId_unique {h : Hw} {q f p : Nat} (hup : h.camUp q = true) (hcheck : h.on (F.CAM_CTRL_IDCHK.blk q) = true)
    (hread : (h.cam q).idRead = 1) (hf : f = h.idFound q) (hone : (List.range 24).filter (fun p => h.idExp p == f) = [p])
    (halone : ∀ r, r < 24 → r ≠ q → h.idKnown r = true → h.idFound r ≠ f) :
    h.judgeId q = if p = q then (1, 31) else (2, p) := by
  have hother : ((List.range 24).any fun r => r ≠ q && h.idKnown r && h.idFound r == f) = false := by
    rw [List.any_eq_false]
    intro r hr
    have := halone r (List.mem_range.mp hr)
    simp only [Bool.and_eq_true, decide_eq_true_eq, beq_iff_eq]
    tauto
  rw [Hw.judgeId, hup, hcheck, hread, ← hf]
  simp only [hone, hother]
  rfl

/-- Settles O44: a trigger's three ways, the fall of a GPIO, and the states of a link and of its camera's identity. -/
theorem cameraLinksAndTriggers : Obligations.CameraLinksAndTriggers := by
  refine ⟨?_, ?_, ?_, fun s h p hs => does_cameraTrigger_idle hs, fun s h p q t a hs => does_triggerLow_due hs,
    fun s h p hs => does_triggerLow_idle hs, fun s h q gear hi lo a b hs => does_camLinkUp_comes hs,
    fun s h q gear hi lo hs => does_camLinkUp_idle hs, ?_, ?_, ?_, ?_,
    fun s h q id hs => does_cameraIdentityRead_idle hs, fun h q f p _ => Hw.judgeId_unique⟩
  · intro s h p m a hs hon hdue honce hm hmap ha
    obtain ⟨k, hk, hfire⟩ := Hw.fireTrigger_drives hm hmap ha
    obtain ⟨x, hexec, rfl⟩ := does_cameraTrigger_fires hs hon hdue honce hfire
    exact ⟨_, hexec, k, hk, rfl⟩
  · intro s h p hs hon hdue honce hmap hdown
    exact does_cameraTrigger_fires hs hon hdue honce (Hw.fireTrigger_dropped hmap hdown)
  · intro s h p hs hon hdue honce hmap hup
    exact does_cameraTrigger_fires hs hon hdue honce (Hw.fireTrigger_up hmap hup)
  · intro s h q hi lo hs hon hgears htrains hlate
    refine does_camLinkRetry hs hgears ?_
    rw [if_neg (by simp [hon]), if_pos ⟨htrains, hlate⟩]
  · intro s h q hs hon hdown hlate
    refine does_camLinkRetry hs rfl ?_
    rw [if_neg (by simp [hon]), if_neg (by omega), if_pos ⟨hdown, hlate⟩]
  · intro s h q hi lo hs hgears hidle
    refine does_camLinkRetry hs hgears ?_
    rcases hidle with hoff | ⟨htrains, hdown⟩
    · rw [if_pos hoff]
    · rw [if_neg htrains, if_neg hdown, ite_self]
  · intro s h q id hs hon hup hcheck
    exact does_cameraIdentityRead_read hs hon hup hcheck rfl

end Sys2Proof.Machine

namespace Sys2Proof.Machine

/-! A tile's stroke pulse (R42, R63 to R65, R78, R103): the stroke that ends, the clock, and the gate. -/

/-- When a tile takes a pulse: the fabric runs, its quadrant is on, no temperature holds its die, and it has not pulsed in
this stroke. -/
def Hw.takesPulse (h : Hw) (t : Nat) : Prop :=
  h.fabricOn = true ∧ h.seqStopped = false ∧ h.domainOn (tileDomain t) = true ∧
    h.sys.gov.dieHeld.contains (t / 288) = false ∧ (h.tile t).pulsedAt < h.now

/-- A tile at its pulse: only a slice that still runs stays with it. -/
def Tile.pulsed (x : Tile) (now : Nat) : Tile :=
  { x with pulsedAt := now, slice := match x.slice with
      | some s => if s.state = .running then x.slice else none
      | none => none }

theorem Tile.pulsed_eq_filter (x : Tile) (now : Nat) :
    x.pulsed now = { x with pulsedAt := now, slice := x.slice.filter fun y => decide (y.state = .running) } := by
  rw [Tile.pulsed]
  cases x.slice with
  | none => rfl
  | some s => by_cases hruns : s.state = .running <;> simp [hruns, Option.filter]

section
variable {h : Hw} {t : Nat} {u : TileUpset}

theorem Hw.takesPulse_iff : h.takesPulse t ↔
    ¬ (! h.fabricOn || h.seqStopped || ! h.domainOn (tileDomain t) || h.sys.gov.dieHeld.contains (t / 288) ||
      decide (h.now ≤ (h.tile t).pulsedAt)) = true := by
  simp only [Hw.takesPulse, Bool.or_eq_true, Bool.not_eq_true', decide_eq_true_eq, not_or, Bool.not_eq_false,
    Bool.not_eq_true, not_le, and_assoc]

theorem Hw.tilePulse_idle (hidle : ¬ h.takesPulse t) : h.tilePulse t u = h :=
  if_pos (not_not.mp fun hno => hidle (Hw.takesPulse_iff.mpr hno))

theorem Hw.tilePulse_acts {a b : Hw} (htakes : h.takesPulse t)
    (ha : a = ((((h.upsetTile t u).closeStroke t u.slack).creditIdle t).endTest t).modTile t fun x =>
      { x with pulsedAt := h.now, slice := x.slice.filter fun y => decide (y.state = .running) })
    (hb : b = a.put (F.TILE_CLK_MHZ.blk t) (a.tileClock t)) :
    h.tilePulse t u = (b.resendMem fun r => decide (r.src < 1024) && b.physOf r.src == some t).openGate t := by
  simp only [← Tile.pulsed_eq_filter] at ha
  rw [hb, ha]
  exact if_neg (Hw.takesPulse_iff.mp htakes)

end

/-! The stroke that ends at a tile (R65, R78, R103). -/

section
variable {h : Hw} {t : Nat} {slack : Bool}

theorem Hw.closeStroke_none (hslice : (h.tile t).slice = none) : h.closeStroke t slack = h := by
  simp only [Hw.closeStroke, hslice]

variable {sl : Slice} (hslice : (h.tile t).slice = some sl)
include hslice

theorem Hw.closeStroke_running (hstate : sl.state = .running) : h.closeStroke t slack =
    ((((h.event (srcTile t) 0x0301 sl.pid (h.cutCause t sl + sl.act % 1024 * 65536)).addSat F.STN_OVERRUN_COUNT_COUNT 1).put
      F.STN_INT_STATUS_OVERRUN 1).endSlice t .cutOff).noteFailure t sl (h.cutCause t sl) := by
  simp only [Hw.closeStroke, hslice, hstate, Hw.cutOff]

theorem Hw.closeStroke_faultStop (hstate : sl.state = .faultStop) :
    h.closeStroke t slack = (h.noteFailure t sl 4).modTile t fun x => { x with slice := none } := by
  simp only [Hw.closeStroke, hslice, hstate, Hw.noteFaultStop]

theorem Hw.closeStroke_committed (hstate : sl.state = .committed) :
    h.closeStroke t slack = h.closeCommitted t sl slack := by
  simp only [Hw.closeStroke, hslice, hstate]

end

/-! The clock and the gate of the stroke that begins (R63, R109, R159, R519). -/

section
variable {h : Hw} {t l : Nat} {w : WinRow}

theorem Hw.tileClock_free (hwindow : h.gateWindow t = none) : h.tileClock t = 400 := by
  simp only [Hw.tileClock, hwindow]

theorem Hw.tileClock_window (hwindow : h.gateWindow t = some (w, l)) (hkind : (h.stn.active.winAct w).kind ≠ 2) :
    h.tileClock t = max (cdiv w.fMin 100 * 100) (min (h.dieCap (t / 288)) h.baseClock) := by
  simp only [Hw.tileClock, hwindow, if_neg hkind]

variable {a : Hw} (ha : a = h.put (F.TILE_STATE_HOLD.blk t) 0)
include ha

theorem Hw.openGate_free (hwindow : a.gateWindow t = none) (hsound : (a.tile t).incident 0 0 = none) :
    h.openGate t = a.idleStroke t := by
  simp only [Hw.openGate, ← ha, hwindow, hsound]

theorem Hw.openGate_freeIncident {o : Overrun} (hwindow : a.gateWindow t = none)
    (hincident : (a.tile t).incident 0 0 = some o) : h.openGate t = (a.workIncident t 0 o).shutGate t := by
  simp only [Hw.openGate, ← ha, hwindow, hincident]

variable {pid : Nat} (hwindow : a.gateWindow t = some (w, l)) (hpid : pid = a.stn.active.winPid w)
include hwindow hpid

theorem Hw.openGate_closed (hclosed : pid = 0 ∨ a.isShed pid = true ∨ a.inShift t = true) :
    h.openGate t = a.idleStroke t := by
  simp only [Hw.openGate, ← ha, hwindow, ← hpid, if_pos hclosed]

variable (hopen : ¬ (pid = 0 ∨ a.isShed pid = true ∨ a.inShift t = true))
include hopen

theorem Hw.openGate_incident {o : Overrun} (hincident : (a.tile t).incident pid w.act = some o) :
    h.openGate t = (a.workIncident t l o).shutGate t := by
  simp only [Hw.openGate, ← ha, hwindow, ← hpid, if_neg hopen, hincident]

theorem Hw.openGate_sound (hsound : (a.tile t).incident pid w.act = none) :
    h.openGate t = if a.get (F.TILE_STATE_STATE.blk t) = 0 then a.gateRun t l pid w else a.idleStroke t := by
  simp only [Hw.openGate, ← ha, hwindow, ← hpid, if_neg hopen, hsound]

end

/-- A field of a block's register reads as before when one further up in the register is put. -/
theorem Hw.get_put_blk_above (h : Hw) (f g : Fld) (t v : Nat) (hblock : f.block = g.block) (hoff : f.off = g.off)
    (habove : g.lo + g.len ≤ f.lo) : (h.put (f.blk t) v).get (g.blk t) = h.get (g.blk t) :=
  Hw.get_put_beside h (f.blk t) (g.blk t) v (congrArg (· + t) hblock) hoff (.inl habove)

/-- A shut gate shows no partition and no activity (R109). -/
theorem Hw.shutGate_shows (h : Hw) (t : Nat) : (h.shutGate t).get (F.TILE_STATE_GATE.blk t) = 0 ∧
    (h.shutGate t).get (F.TILE_STATE_PID.blk t) = 0 ∧ (h.shutGate t).get (F.TILE_STATE_ACT.blk t) = 0 := by
  refine ⟨?_, ?_, Hw.get_put_same _ _ _⟩
  · rw [Hw.shutGate, Hw.get_put_blk_above _ F.TILE_STATE_ACT F.TILE_STATE_GATE _ _ rfl rfl (by decide),
      Hw.get_put_blk_above _ F.TILE_STATE_PID F.TILE_STATE_GATE _ _ rfl rfl (by decide), Hw.get_put_same, Nat.zero_mod]
  · rw [Hw.shutGate, Hw.get_put_blk_above _ F.TILE_STATE_ACT F.TILE_STATE_PID _ _ rfl rfl (by decide), Hw.get_put_same,
      Nat.zero_mod]

theorem does_tileStrokePulse {s : State} {h h' : Hw} {t : TilePulse} {n : Nat} (hs : s.hw = h) (hn : n = t.tile.val)
    (hpulse : h.tilePulse n t.upset = h') : Does (.tileStrokePulse t) s fun x => x = h' :=
  does_of_next (execTileStrokePulse t s) hs rfl rfl (hn ▸ hpulse)

/-! Late rotations and relocations (R108, R159, R160). -/

section
variable {s : State} {h : Hw} (hs : s.hw = h)
include hs

theorem does_stLate_marks {t : Fin 1152} (hon : h.fabricOn = true) (hserves : h.fab.retired.contains t.val = false)
    (honce : (h.tile t.val).lateRaised = false) (hlate : (h.tile t.val).rotationAt + 100000 ≤ h.now) :
    Does (.stLate t) s fun x => x = ((h.put (F.TILE_INT_STATUS_ST_LATE.blk t.val) 1).event (srcTile t.val) 0x0204 0 0).modTile
      t.val fun x => { x with lateRaised := true } := by
  refine does_of_next (execStLate t s) hs rfl rfl (if_pos ?_)
  rw [hon, hserves, honce, decide_eq_true hlate]
  rfl

theorem does_stLate_idle {t : Fin 1152} (hidle : h.fabricOn = false ∨ h.fab.retired.contains t.val = true ∨
      (h.tile t.val).lateRaised = true ∨ h.now < (h.tile t.val).rotationAt + 100000) :
    Does (.stLate t) s fun x => x = h := by
  refine does_of_next (execStLate t s) hs rfl rfl (if_neg ?_)
  simp only [Bool.and_eq_true, Bool.not_eq_true', decide_eq_true_eq]
  rintro ⟨⟨⟨hon, hserves⟩, honce⟩, hlate⟩
  simp only [hon, hserves, honce, Bool.true_eq_false, Bool.false_eq_true, false_or] at hidle
  omega

theorem does_rowShiftComplete_none {row : Fin 64}
    (hnone : (h.fab.relocs.find? fun x => x.shift && x.die * 16 + x.row == row.val) = none) :
    Does (.rowShiftComplete row) s fun x => x = h :=
  does_of_next (execRowShiftComplete row s) hs rfl rfl (by simp only [hnone])

/-- A row shift ends at the second pulse after it began (R159). -/
theorem does_rowShiftComplete {row : Fin 64} {x : Reloc} {h' : Hw}
    (hfind : (h.fab.relocs.find? fun x => x.shift && x.die * 16 + x.row == row.val) = some x)
    (hends : (if h.fabricOn = true ∧ x.sinceStroke + 2 ≤ h.now then h.completeShift x else h) = h') :
    Does (.rowShiftComplete row) s fun y => y = h' := by
  refine does_of_next (execRowShiftComplete row s) hs rfl rfl ?_
  simp only [hfind]
  exact hends

theorem does_substituteCopyComplete_none {l : Fin 1024} {pid : Fin 256}
    (hnone : (h.fab.relocs.find? fun x => ! x.shift && x.logical == l.val && x.pid == pid.val) = none) :
    Does (.substituteCopyComplete l pid) s fun x => x = h :=
  does_of_next (execSubstituteCopyComplete l pid s) hs rfl rfl (by simp only [hnone])

/-- The copy of a substitute ends at the pulse after it began (R160). -/
theorem does_substituteCopyComplete {l : Fin 1024} {pid : Fin 256} {x : Reloc} {h' : Hw}
    (hfind : (h.fab.relocs.find? fun x => ! x.shift && x.logical == l.val && x.pid == pid.val) = some x)
    (hends : (if h.fabricOn = true ∧ x.sinceStroke < h.now then h.completeSubstitute x else h) = h') :
    Does (.substituteCopyComplete l pid) s fun y => y = h' := by
  refine does_of_next (execSubstituteCopyComplete l pid s) hs rfl rfl ?_
  simp only [hfind]
  exact hends

end

/-- Settles O41: a pulse's order, the ways a stroke ends and a gate opens, and the rows of late and moved tiles. -/
theorem tileGates : Obligations.TileGates := by
  refine ⟨?_, ?_, fun h t slack => Hw.closeStroke_none, ?_, fun h t => Hw.tileClock_free,
    fun h t l w => Hw.tileClock_window, ?_, ?_, fun h t _ => h.shutGate_shows t, fun s h t hs => does_stLate_marks hs,
    fun s h t hs => does_stLate_idle hs, ?_, fun s h row hs => does_rowShiftComplete_none hs, ?_, ?_, ?_,
    fun s h l pid hs => does_substituteCopyComplete_none hs⟩
  · intro s h t n a b hs hon hn hruns hdomain hheld honce ha hb
    exact does_tileStrokePulse hs hn (Hw.tilePulse_acts ⟨hon, hruns, hdomain, hheld, honce⟩ ha hb)
  · intro s h t n hs hn hidle
    refine does_tileStrokePulse hs hn (Hw.tilePulse_idle ?_)
    rintro ⟨hon, hruns, hdomain, hheld, honce⟩
    simp only [hon, hruns, hdomain, hheld, Bool.true_eq_false, Bool.false_eq_true, false_or] at hidle
    omega
  · intro h t sl slack hslice
    exact ⟨Hw.closeStroke_running hslice, Hw.closeStroke_faultStop hslice, Hw.closeStroke_committed hslice⟩
  · intro h a t ha hwindow
    exact ⟨Hw.openGate_free ha hwindow, fun o => Hw.openGate_freeIncident ha hwindow⟩
  · intro h a t l pid w ha hwindow hpid
    refine ⟨Hw.openGate_closed ha hwindow hpid, fun hpart hshed hshift => ?_⟩
    have hopen : ¬ (pid = 0 ∨ a.isShed pid = true ∨ a.inShift t = true) := by simp [hpart, hshed, hshift]
    exact ⟨fun o => Hw.openGate_incident ha hwindow hpid hopen, Hw.openGate_sound ha hwindow hpid hopen⟩
  · intro s h row x hs hon hfind hdue
    exact does_rowShiftComplete hs hfind (if_pos ⟨hon, hdue⟩)
  · intro s h row x hs hfind hearly
    refine does_rowShiftComplete hs hfind (if_neg ?_)
    rintro ⟨hon, hdue⟩
    simp only [hon, Bool.true_eq_false, false_or] at hearly
    omega
  · intro s h l pid x hs hfind hearly
    refine does_substituteCopyComplete hs hfind (if_neg ?_)
    rintro ⟨hon, hdue⟩
    simp only [hon, Bool.true_eq_false, false_or] at hearly
    omega
  · intro s h l pid x hs hon hfind hdue
    exact does_substituteCopyComplete hs hfind (if_pos ⟨hon, hdue⟩)

end Sys2Proof.Machine

namespace Sys2Proof.Machine

/-! The fusion engine's stroke (R347, R349): an error of its store, and the batch that gets the stroke. -/

section
variable {h : Hw}

/-- The state in which the engine chooses the batch that gets the stroke. -/
def Hw.fusReadied (h : Hw) : Hw :=
  ({ h with fus := { h.fus with ranAt := some h.now } } : Hw).fusShort.fusPayAll.fusBringBack

theorem Hw.fusStroke_idle {a : Hw} (ha : a = h.fusReadied) (hpick : a.fusPick = none) :
    h.fusStroke = a.fusSwitch none := by
  rw [Hw.fusReadied] at ha
  simp only [Hw.fusStroke, ← ha, hpick]

variable {a : Hw} {x : FusBatch} (ha : a = h.fusReadied) (hpick : a.fusPick = some x)
include ha hpick

theorem Hw.fusStroke_gives (hout : x.out.isSome = true) : h.fusStroke = (a.fusSwitch (some x)).fusGive x := by
  have hbegun : x.out.isNone = false := by simpa using hout
  rw [Hw.fusReadied] at ha
  simp only [Hw.fusStroke, ← ha, hpick, hbegun]
  rfl

variable (hnew : x.out = none)
include hnew

theorem Hw.fusStroke_fails {k : Hw} (hbegin : (a.fusSwitch (some x)).fusBegin x = .error k) : h.fusStroke = k := by
  rw [Hw.fusReadied] at ha
  simp only [Hw.fusStroke, ← ha, hpick, hnew, hbegin]
  rfl

theorem Hw.fusStroke_begins {k : Hw} (hbegin : (a.fusSwitch (some x)).fusBegin x = .ok k) :
    h.fusStroke = k.fusPayAll.fusGive x := by
  rw [Hw.fusReadied] at ha
  simp only [Hw.fusStroke, ← ha, hpick, hnew, hbegin]
  rfl

end

section
variable {s : State} {h : Hw} {u : Option FusUpset} (hs : s.hw = h)
include hs

theorem does_fusionSchedule_off (hoff : h.fabricOn = false) : Does (.fusionSchedule u) s fun x => x = h :=
  does_of_next (execFusionSchedule u s) hs rfl rfl (if_pos (by simp [hoff]))

variable {g : Hw} (hon : h.fabricOn = true) (hg : g = match u with | some e => h.fusUpset e | none => h)
include hon hg

/-- The engine acts once in a stroke. -/
theorem does_fusionSchedule {h' : Hw}
    (hstroke : (if g.fus.ranAt = some g.now then g else g.fusStroke.showFus) = h') :
    Does (.fusionSchedule u) s fun x => x = h' := by
  refine does_of_next (execFusionSchedule u s) hs rfl rfl ((if_neg (by simp [hon])).trans ?_)
  subst hg
  cases u with
  | none => exact hstroke
  | some e => exact hstroke

theorem does_fusionSchedule_once {f : Hw} (honce : g.fus.ranAt ≠ some g.now) (hstroke : g.fusStroke = f) :
    Does (.fusionSchedule u) s fun x => x = f.showFus :=
  does_fusionSchedule hs hon hg ((if_neg honce).trans (congrArg Hw.showFus hstroke))

end

/-! What the engine's operations leave of its batches and sets. -/

@[simp] theorem Hw.noteExhausted_fus (h : Hw) (pid dim : Nat) : (h.noteExhausted pid dim).fus = h.fus := by
  unfold Hw.noteExhausted
  exact (apply_ite Hw.fus _ _ _).trans (ite_self _)

@[simp] theorem Hw.showFus_fus (h : Hw) : h.showFus.fus = h.fus := by
  simp only [Hw.showFus]
  split <;> rw [Hw.put_fus, Hw.put_fus, Hw.put_fus, Hw.put_fus, Hw.put_fus]

@[simp] theorem Hw.fusRecord_fus (h : Hw) (cause pid set : Nat) : (h.fusRecord cause pid set).fus = h.fus := by
  simp only [Hw.fusRecord]
  split
  · rw [Hw.put_fus]
  · rw [Hw.put_fus, Hw.put_fus, Hw.put_fus, Hw.put_fus, Hw.put_fus]

@[simp] theorem Hw.finishAt_fus (h : Hw) (pid q n st r d : Nat) (w : WorkFlags) :
    (h.finishAt pid q n st r d w).fus = h.fus := by
  simp only [Hw.finishAt, Hw.countStarted, Hw.modQueue_fus, Hw.modCmd_fus]

theorem Hw.dropBatch_sets (h : Hw) (x : FusBatch) : (h.dropBatch x).fus.sets = h.fus.sets := by
  simp only [Hw.dropBatch]
  rw [Hw.showFus_fus]

theorem Hw.dropBatch_batches (h : Hw) (x : FusBatch) : (h.dropBatch x).fus.batches =
    h.fus.batches.filter fun y => ! (y.pid == x.pid && y.queue == x.queue && y.num == x.num) := by
  simp only [Hw.dropBatch]
  rw [Hw.showFus_fus]

/-- A failure takes its batch out of the engine after its note in `FUS_FAULT0`, if it makes one. -/
theorem Hw.fusFail_fus (h : Hw) (x : FusBatch) (cause : Option Nat) (st d : Nat) :
    ∃ k : Hw, k.fus = h.fus ∧ (h.fusFail x cause st d).fus = (k.dropBatch x).fus := by
  simp only [Hw.fusFail]
  rw [Hw.finishAt_fus, Hw.addSat_fus]
  refine ⟨_, ?_, rfl⟩
  cases cause with
  | none => rfl
  | some c => exact (Hw.put_fus _ _ _).trans (Hw.fusRecord_fus _ _ _ _)

/-- A batch that ends without a commit leaves the sets as they are. -/
theorem Hw.fusFail_sets (h : Hw) (x : FusBatch) (cause : Option Nat) (st d : Nat) :
    (h.fusFail x cause st d).fus.sets = h.fus.sets := by
  obtain ⟨k, hk, hfail⟩ := h.fusFail_fus x cause st d
  rw [hfail, Hw.dropBatch_sets, hk]

/-- A batch that ends without a commit is gone. -/
theorem Hw.fusFail_gone {h : Hw} {x y : FusBatch} {cause : Option Nat} {st d : Nat}
    (hy : y ∈ (h.fusFail x cause st d).fus.batches) : ¬ (y.pid = x.pid ∧ y.queue = x.queue ∧ y.num = x.num) := by
  obtain ⟨k, -, hfail⟩ := h.fusFail_fus x cause st d
  rw [hfail, Hw.dropBatch_batches] at hy
  rintro ⟨hpid, hqueue, hnum⟩
  simpa [hpid, hqueue, hnum] using (List.mem_filter.mp hy).2

/-- A changed batch is what the change makes of a batch of the engine. -/
theorem Hw.mem_modBatch {h : Hw} {x y : FusBatch} {f : FusBatch → FusBatch} (hy : y ∈ (h.modBatch x f).fus.batches)
    (hname : y.pid = x.pid ∧ y.queue = x.queue ∧ y.num = x.num) : ∃ z ∈ h.fus.batches, y = f z := by
  obtain ⟨z, hz, rfl⟩ := List.mem_map.mp hy
  refine ⟨z, hz, ?_⟩
  split at hname
  · next hsame => exact if_pos hsame
  · next hother => exact absurd hname hother

/-- The cycles that a batch takes of a stroke (R60, R349). -/
def Hw.fusCyclesFor (h : Hw) (x : FusBatch) (o : FusOut) : Nat :=
  if x.owes.isEmpty then min (min 950 (o.total - x.used)) (h.stn.fusCycles.getD 0 x.pid) else 0

/-- A batch holds the engine and has taken `n` cycles of its partition's. -/
def Hw.fusTaken (h : Hw) (x : FusBatch) (n : Nat) : Hw :=
  let h := h.modBatch x fun y => { y with used := y.used + n }
  let left := h.stn.fusCycles.getD 0 x.pid - n
  let h := { h with stn := { h.stn with fusCycles := SMap.putD 0 h.stn.fusCycles x.pid left } }
  let h := h.addWrap F.FUS_CYCLES_COUNT n
  { h with fus := { h.fus with running := some (x.pid, x.queue, x.num) } }

theorem Hw.fusTaken_fus (h : Hw) (x : FusBatch) (n : Nat) : (h.fusTaken x n).fus =
    { (h.modBatch x fun y => { y with used := y.used + n }).fus with running := some (x.pid, x.queue, x.num) } := rfl

/-- The batch that gets the stroke takes its cycles; when they run out the partition counts it (R62). -/
theorem Hw.fusGive_eq {h : Hw} {x : FusBatch} {o : FusOut}
    (hfind : h.fus.batches.find? (fun y => y.pid == x.pid && y.queue == x.queue && y.num == x.num) = some x)
    (hsound : x.stained = false) (hout : x.out = some o) : h.fusGive x =
      if h.fusCyclesFor x o = h.stn.fusCycles.getD 0 x.pid ∧ x.used + h.fusCyclesFor x o < o.total then
        (h.fusTaken x (h.fusCyclesFor x o)).noteExhausted x.pid 5
      else h.fusTaken x (h.fusCyclesFor x o) := by
  simp only [Hw.fusGive, hfind, hsound, hout]
  rfl

theorem Hw.fusGive_fus {h : Hw} {x : FusBatch} {o : FusOut}
    (hfind : h.fus.batches.find? (fun y => y.pid == x.pid && y.queue == x.queue && y.num == x.num) = some x)
    (hsound : x.stained = false) (hout : x.out = some o) :
    (h.fusGive x).fus = (h.fusTaken x (h.fusCyclesFor x o)).fus := by
  rw [Hw.fusGive_eq hfind hsound hout, apply_ite Hw.fus, Hw.noteExhausted_fus, ite_self]

/-! The end of a batch (R341, R350 to R352). -/

section
variable {s : State} {h : Hw} {pid : Fin 256} {set : Fin 4} (hs : s.hw = h)
include hs

theorem does_fusionBatchCommit_none (hnone : h.fabricOn = false ∨
      h.fus.batches.find? (fun x => x.pid == pid.val && x.set == set.val && x.out.isSome) = none) :
    Does (.fusionBatchCommit pid set) s fun x => x = h := by
  refine does_of_next (execFusionBatchCommit pid set s) hs rfl rfl ?_
  rcases hnone with hoff | hnone
  · exact if_pos (by simp [hoff])
  · simp only [hnone]
    exact ite_self h

/-- A batch with its results: a late or stained one fails, and one that has taken all its cycles ends. -/
theorem does_fusionBatchCommit {x : FusBatch} {o : FusOut} {h' : Hw} (hon : h.fabricOn = true)
    (hfind : h.fus.batches.find? (fun x => x.pid == pid.val && x.set == set.val && x.out.isSome) = some x)
    (hout : x.out = some o)
    (hends : (if h.fusLate x = true then h.fusFail x (some 3) 0x3004 x.stage
      else if x.stained = true then h.fusFail x (some 0) 0x3001 0xFFFF_FFFF
      else if o.total ≤ x.used then h.fusEnd x o else h) = h') :
    Does (.fusionBatchCommit pid set) s fun y => y = h' := by
  refine does_of_next (execFusionBatchCommit pid set s) hs rfl rfl ((if_neg (by simp [hon])).trans ?_)
  simp only [hfind, hout]
  exact hends

theorem does_fusionBatchCommit_ends {x : FusBatch} {o : FusOut} {h' : Hw} (hon : h.fabricOn = true)
    (hfind : h.fus.batches.find? (fun x => x.pid == pid.val && x.set == set.val && x.out.isSome) = some x)
    (hout : x.out = some o) (hlate : h.fusLate x = false) (hsound : x.stained = false) (hused : o.total ≤ x.used)
    (hend : h.fusEnd x o = h') : Does (.fusionBatchCommit pid set) s fun y => y = h' := by
  refine does_fusionBatchCommit hs hon hfind hout ?_
  rw [hlate, hsound, if_neg (by decide), if_neg (by decide), if_pos hused, hend]

theorem does_fusionDeadline_off (hoff : h.fabricOn = false) : Does .fusionDeadline s fun x => x = h :=
  does_of_next (execFusionDeadline s) hs rfl rfl (if_pos (by simp [hoff]))

/-- Every batch that is past its deadline fails (R351). -/
theorem does_fusionDeadline (hon : h.fabricOn = true) : Does .fusionDeadline s fun x =>
    x = (h.fus.batches.filter h.fusLate).foldl (fun y x => y.fusFail x (some 3) 0x3004 x.stage) h :=
  does_of_next (execFusionDeadline s) hs rfl rfl (if_neg (by simp [hon]))

end

/-- A batch at its commit: it owes the traffic of its output (R60). -/
def FusBatch.writing (x : FusBatch) (o : FusOut) : FusBatch :=
  if x.written = true then x else { x with written := true, owes := linesOf x.outVa o.outBytes true }

theorem FusBatch.writing_pid (x : FusBatch) (o : FusOut) : (x.writing o).pid = x.pid := by
  unfold FusBatch.writing
  split <;> rfl

section
variable {h g : Hw} {x y : FusBatch} {o : FusOut} {n : Nat} (hy : y = x.writing o)
  (hpay : h.payLines x.pid y.owes = (n, g))
include hy hpay

theorem Hw.fusEnd_eq : h.fusEnd x o =
    if y.owes.length ≤ n then g.fusCommit y o
    else g.modBatch y fun z => { z with written := true, owes := y.owes.drop n } := by
  have hpid : y.pid = x.pid := by rw [hy, FusBatch.writing_pid]
  rw [← hpid] at hpay
  rw [Hw.fusEnd, ← FusBatch.writing, ← hy]
  simp only [hpay]

theorem Hw.fusEnd_owes (howes : n < y.owes.length) :
    h.fusEnd x o = g.modBatch y fun z => { z with written := true, owes := y.owes.drop n } :=
  (Hw.fusEnd_eq hy hpay).trans (if_neg (Nat.not_le.mpr howes))

theorem Hw.fusEnd_paid (hpaid : y.owes.length ≤ n) : h.fusEnd x o = g.fusCommit y o :=
  (Hw.fusEnd_eq hy hpay).trans (if_pos hpaid)

end

/-- The bytes of a batch's output: summary and records (R345). -/
def FusOut.output (o : FusOut) (now : Nat) : List Byte :=
  fusSummary o.records.length o.nMeas o.coarse o.gated o.assigned o.born o.deleted o.flags o.total now ++
    o.records.flatten

section
variable {h : Hw} {x : FusBatch} {o : FusOut}

/-- A batch whose time lies before its set's counts as failed, and its command completes with status 0 (R341, R350). -/
theorem Hw.fusCommit_outOfOrder (hflags : o.flags = 1) (hmeas : o.nMeas = 0) : h.fusCommit x o =
    ((h.dropBatch x).addSat F.FUS_BATCHES_FAILED 1).finishAt x.pid x.queue x.num 0 o.result 0 {} :=
  if_pos ⟨hflags, hmeas⟩

variable (horder : ¬ (o.flags = 1 ∧ o.nMeas = 0))
include horder

theorem Hw.fusCommit_pageFails {e : Nat × Nat} {k : Hw}
    (hwrite : h.writeVa 2 x.pid x.outVa (o.output h.now) false = (some e, k)) : h.fusCommit x o = k.fusPage x e := by
  rw [FusOut.output] at hwrite
  simp only [Hw.fusCommit, if_neg horder, hwrite]

/-- With summary and records written, the set takes tracks, next identifier and `T_VALID` together (R352). -/
theorem Hw.fusCommit_writes {k m : Hw} (hwrite : h.writeVa 2 x.pid x.outVa (o.output h.now) false = (none, k))
    (hm : m = { k with fus := { k.fus with sets := k.fus.sets.upd (fusKey x.pid x.set) fun z =>
      { z with tracks := o.tracks, nextId := o.nextId, lastValid := some x.tValid } } }) :
    h.fusCommit x o =
      ((m.dropBatch x).addSat F.FUS_BATCHES_DONE 1).finishAt x.pid x.queue x.num 0 o.result 0 {} := by
  rw [FusOut.output] at hwrite
  simp only [Hw.fusCommit, if_neg horder, hwrite, hm]

end

/-- Settles O47: who gets the stroke, what he takes of it, and how a batch ends. -/
theorem fusionEngine : Obligations.FusionEngine := by
  refine ⟨?_, ?_, ?_, ?_, ?_, fun s h u hs => does_fusionSchedule_off hs, fun h => rfl, ?_, ?_, ?_, ?_, ?_, ?_, ?_, ?_,
    fun s h pid set hs => does_fusionBatchCommit_none hs, fun s h hs => does_fusionDeadline hs,
    fun s h hs => does_fusionDeadline_off hs, ?_, ?_,
    fun h x cause st d => ⟨h.fusFail_sets x cause st d, fun y => Hw.fusFail_gone⟩⟩
  · intro s h u g hs hon hg honce
    exact does_fusionSchedule hs hon hg (if_pos honce)
  · intro s h u g a hs hon hg honce ha hpick
    exact does_fusionSchedule_once hs hon hg honce (Hw.fusStroke_idle ha hpick)
  · intro s h u g a x hs hon hg honce ha hpick hout
    exact does_fusionSchedule_once hs hon hg honce (Hw.fusStroke_gives ha hpick hout)
  · intro s h u g a k x hs hon hg honce ha hpick hnew hbegin
    exact does_fusionSchedule_once hs hon hg honce (Hw.fusStroke_fails ha hpick hnew hbegin)
  · intro s h u g a k x hs hon hg honce ha hpick hnew hbegin
    exact does_fusionSchedule_once hs hon hg honce (Hw.fusStroke_begins ha hpick hnew hbegin)
  · intro h x o hfind hsound hout
    rw [Hw.fusGive_fus hfind hsound hout, Hw.fusTaken_fus]
    exact ⟨fun y hy hpid hqueue hnum => Hw.mem_modBatch hy ⟨hpid, hqueue, hnum⟩, rfl, rfl⟩
  · intro s h pid set x o hs hon hfind hout hlate
    exact does_fusionBatchCommit hs hon hfind hout (if_pos hlate)
  · intro s h pid set x o hs hon hfind hout hlate hstained
    refine does_fusionBatchCommit hs hon hfind hout ?_
    rw [hlate, if_neg (by decide), if_pos hstained]
  · intro s h pid set x o hs hon hfind hout hlate hsound hused
    refine does_fusionBatchCommit hs hon hfind hout ?_
    rw [hlate, hsound, if_neg (by decide), if_neg (by decide), if_neg (Nat.not_le.mpr hused)]
  · intro s h pid set x y o n g hs hon hfind hout hlate hsound hused hy hpay howes
    exact does_fusionBatchCommit_ends hs hon hfind hout hlate hsound hused (Hw.fusEnd_owes hy hpay howes)
  · intro s h pid set x y o n g hs hon hfind hout hlate hsound hused hy hpay hpaid hflags hmeas
    exact does_fusionBatchCommit_ends hs hon hfind hout hlate hsound hused
      ((Hw.fusEnd_paid hy hpay hpaid).trans (Hw.fusCommit_outOfOrder hflags hmeas))
  · intro s h pid set x y o n g e k hs hon hfind hout hlate hsound hused hy hpay hpaid horder hwrite
    exact does_fusionBatchCommit_ends hs hon hfind hout hlate hsound hused
      ((Hw.fusEnd_paid hy hpay hpaid).trans (Hw.fusCommit_pageFails horder hwrite))
  · intro s h pid set x y o n g k hs hon hfind hout hlate hsound hused hy hpay hpaid horder hwrite
    obtain ⟨h', hexec, rfl⟩ := does_fusionBatchCommit_ends hs hon hfind hout hlate hsound hused
      ((Hw.fusEnd_paid hy hpay hpaid).trans (Hw.fusCommit_writes horder hwrite rfl))
    exact ⟨_, hexec, _, rfl, rfl⟩
  · intro s h hs hon hnone
    have hdeadline := does_fusionDeadline hs hon
    rwa [hnone] at hdeadline
  · intro s h x hs hon hone
    have hdeadline := does_fusionDeadline hs hon
    rwa [hone] at hdeadline

end Sys2Proof.Machine

namespace Sys2Proof.Machine

/-! Packet commands (R200, R204 to R209): the state on which a row acts, and the records that it reads. -/

/-- A row of the packet commands whose command begins now does what its effect does to the state in which it has begun. -/
theorem does_of_acting {i : Instr} {st : State} {sp : OpSpec} {q : QRef} {p : Packet} {qu : Queue} {c : Cmd} {b h' : Hw}
    {eff : Hw → Cmd → Hw} (e : Host.Outcome State Fault Refusal) (hacting : Acting st.hw sp q p qu c b)
    (hexec : exec i st = e) (hnext : e = st.next fun h => h.issue sp q p eff) (heff : eff b c = h') {P : Hw → Prop}
    (hP : P h') : Does i st P := by
  refine ⟨_, hexec.trans hnext, ?_⟩
  show P (st.hw.issue sp q p eff)
  rw [Hw.issue_ready hacting.ready, ← hacting.state, heff]
  exact hP

theorem Hw.cmd?_congr {a b : Hw} (hcmds : a.cmds = b.cmds) (pid q n : Nat) : a.cmd? pid q n = b.cmd? pid q n := by
  rw [Hw.cmd?, Hw.cmd?, hcmds]

/-- In a state with the commands of that on which a row acts, `finish` ends its command. -/
theorem acting_ends_of_cmds {h : Hw} {sp : OpSpec} {q : QRef} {p : Packet} {qu : Queue} {c : Cmd} {b k : Hw}
    (hacting : Acting h sp q p qu c b) (hcmds : k.cmds = b.cmds) (st r d : Nat) : Ends k (k.finish c st r d) c st r d :=
  ends_of ((Hw.cmd?_congr hcmds _ _ _).trans (begun_cmd hacting)) (acting_entry hacting) st r d

section
variable {b k : Hw} {c : Cmd} {va n : Nat}

theorem Hw.withRecord_error {e : Nat × Nat} (hread : b.cmdRead c.pid va n = (.error e, k)) (f : Hw → List Byte → Hw) :
    b.withRecord c va n f = k.failPage c e := by
  simp only [Hw.withRecord, hread]

theorem Hw.withRecord_ok {bs : List Byte} (hread : b.cmdRead c.pid va n = (.ok (bs, false), k)) (f : Hw → List Byte → Hw) :
    b.withRecord c va n f = f k bs := by
  simp only [Hw.withRecord, hread]
  rfl

/-- A record whose page fails or that is stained ends its command, whatever would have followed (R106, R178). -/
theorem Hw.withRecord_ends (hends : RecordEnds b c va n k) (f : Hw → List Byte → Hw) : b.withRecord c va n f = k := by
  obtain ⟨j, ⟨e, hread, rfl⟩ | ⟨bs, hread, rfl⟩⟩ := hends
  · exact Hw.withRecord_error hread f
  · simp only [Hw.withRecord, hread]
    rfl

theorem Hw.cmdRead_cmds {x : Except (Nat × Nat) (List Byte × Bool)} {pid : Nat} (hread : b.cmdRead pid va n = (x, k)) :
    k.cmds = b.cmds := by
  have hcalm : (b.cmdRead pid va n).2.calm = b.calm := Hw.calm_readVa b 2 pid va n .rd
  rw [hread] at hcalm
  obtain ⟨-, hcmds, -⟩ := Hw.calm_keeps hcalm
  exact hcmds

theorem Hw.takeKept_cmds {x : Option Kept} (htake : b.takeKept c = (x, k)) : k.cmds = b.cmds :=
  (congrArg (fun y => y.2.cmds) htake).symm

end

theorem Hw.mem_kept_keep (h : Hw) (c : Cmd) (k : Kept) : (c.pid, c.queue, c.num, k) ∈ (h.keep c k).sys.kept :=
  List.mem_append_right _ (List.mem_singleton_self _)

/-- The beginning of a command changes neither the sequencer's state nor the fusion engine's. -/
theorem Hw.begin_keeps (h : Hw) (c : Cmd) : (h.begin c).stn = h.stn ∧ (h.begin c).fus = h.fus := by
  have hmute := Hw.mute_traceAdd (h.modCmd c.pid c.queue c.num fun c => { c with begun := true }) 0 c.pid
    (leBytes 2 c.opc ++ leBytes 6 c.seq)
  have hstn := congrArg (fun h : Hw => h.stn) hmute
  have hfus := congrArg (fun h : Hw => h.fus) hmute
  exact ⟨hstn, hfus⟩

/-- The state on which a row acts is what its acceptance made, begun. -/
theorem acting_begin {h : Hw} {sp : OpSpec} {q : QRef} {p : Packet} {qu : Queue} {c : Cmd} {b : Hw}
    (hacting : Acting h sp q p qu c b) : b =
      (sp.onAccept ((cameHw h q qu (rowPacket sp.opc p)).take c (slotsOf (rowPacket sp.opc p))) c).begin c := by
  rw [hacting.state, begunHw, takenHw, ← hacting.ready.isCmd]

/-! Stencil commands (R55, R57, R59, R68). -/

section
variable {b j k : Hw} {c : Cmd}

theorem stencilLoad_kept {s : Stencil} (htake : b.takeKept c = (some (.stencil s), k)) : stencilLoad b c =
    ((({ k with stn := { k.stn with shadow := some s } } : Hw).put F.STN_STATUS_SHADOW_VALID 1).loadResult 0 0).done c 0 := by
  simp only [stencilLoad, htake]

theorem stencilLoad_unread (htake : b.takeKept c = (none, j)) :
    stencilLoad b c = j.withRecord c (c.f 24 6) (min (c.f 32 4) 289696) fun h _ => h.wildEnd c := by
  simp only [stencilLoad, htake]

theorem Hw.loadResult_cmds (h : Hw) (check item : Nat) : (h.loadResult check item).cmds = h.cmds := by
  rw [Hw.loadResult, Hw.put_cmds, Hw.put_cmds, Hw.put_cmds]

theorem stencilSwap_notes (hfree : b.stn.swapAt = none) : stencilSwap b c =
    ({ b with stn := { b.stn with swapAt := some c.acceptAt, swapCmd := some (c.pid, c.queue, c.num) } } : Hw).put
      F.STN_STATUS_SWAP_PENDING 1 := by
  simp only [stencilSwap, hfree]

theorem stencilSwap_stands (hpending : b.stn.swapAt.isSome = true) :
    stencilSwap b c = b.done c (b.get F.STN_COAT_COUNT_COATS) := by
  obtain ⟨at_, hat⟩ := Option.isSome_iff_exists.mp hpending
  simp only [stencilSwap, hat]

theorem stencilAccepted_kept {h : Hw} {s : Stencil} (hgood : h.judgeStencil c = .good s) :
    (c.pid, c.queue, c.num, Kept.stencil s) ∈ (specStencilLoad.onAccept h c).sys.kept := by
  have haccept : specStencilLoad.onAccept h c = h.keep c (.stencil s) := by
    simp only [specStencilLoad, stencilAccepted, hgood]
  rw [haccept]
  exact h.mem_kept_keep c _

theorem budgetAccepted_mem {h : Hw} {x : BudgetChange} (hadmitted : budgetOf h c = some x) :
    { x with num := c.num } ∈ (specBudgetSet.onAccept h c).stn.budgets := by
  have haccept : specBudgetSet.onAccept h c =
      { h with stn := { h.stn with budgets := h.stn.budgets ++ [{ x with num := c.num }] } } := by
    simp only [specBudgetSet, hadmitted]
  rw [haccept]
  exact List.mem_append_right _ (List.mem_singleton_self _)

end

/-! The making of a partition (R163, R602). -/

theorem Hw.bindRequester_keeps (h : Hw) (pid : Nat) (q : Nat × Nat) :
    (h.bindRequester pid q).parts = h.parts ∧ (h.bindRequester pid q).cmds = h.cmds := by
  unfold Hw.bindRequester
  split
  · constructor
    · rw [Hw.put_parts, Hw.put_parts, Hw.put_parts]
    · rw [Hw.put_cmds, Hw.put_cmds, Hw.put_cmds]
  · exact ⟨rfl, rfl⟩

theorem Hw.setRoute_keeps (h : Hw) (pid r : Nat) : (h.setRoute pid r).parts = h.parts ∧ (h.setRoute pid r).cmds = h.cmds := by
  have hput : ∀ k : Hw, (if pid = 0 then k.put F.MOD_INT_STATUS_ROUTE 1 else k).parts = k.parts ∧
      (if pid = 0 then k.put F.MOD_INT_STATUS_ROUTE 1 else k).cmds = k.cmds := by
    intro k
    split
    · exact ⟨rfl, rfl⟩
    · exact ⟨rfl, rfl⟩
  simp only [Hw.setRoute]
  split
  · exact ⟨rfl, rfl⟩
  · obtain ⟨hparts, hcmds⟩ := hput _
    rw [hparts, hcmds, Hw.setReg_parts, Hw.setReg_cmds]
    split
    · exact ⟨rfl, rfl⟩
    · exact ⟨rfl, rfl⟩

/-- The partition that a creation record makes: no rights, numbers from 1, its queues with counters at 0 (R163, R602). -/
def Hw.newPart (h : Hw) (r : CreateRec) : Part :=
  { cls := r.cls, rights := 0, jnlQuota := r.jnl, sheetQuota := r.sheets, seqQuota := r.seqs, nextSeq := 1,
    destroying := false, shed := false, allot := r.allot.map fun a => { a with gfile := h.freeGfile a.irqCore },
    queues := queueMap r.queues }

theorem Hw.createPart_parts (h : Hw) (r : CreateRec) : (h.createPart r).parts = h.parts.put r.pid (h.newPart r) :=
  (Hw.setRoute_keeps _ _ _).1.trans (foldl_keeps Hw.parts _ (fun a q => (a.bindRequester_keeps r.pid q).1) r.reqs _ |>.trans
    (Hw.put_parts _ _ _))

theorem Hw.createPart_cmds (h : Hw) (r : CreateRec) : (h.createPart r).cmds = h.cmds :=
  (Hw.setRoute_keeps _ _ _).2.trans (foldl_keeps Hw.cmds _ (fun a q => (a.bindRequester_keeps r.pid q).2) r.reqs _ |>.trans
    (Hw.put_cmds _ _ _))

theorem Hw.createPart_part (h : Hw) (r : CreateRec) : (h.createPart r).part r.pid = some (h.newPart r) := by
  rw [Hw.part, Hw.createPart_parts, SMap.find_put_same]

/-- A change that leaves a new queue as it is leaves a new partition's queues as they are. -/
theorem queueMap_upd (ds : List QueueDesc) (q : Nat) {f : Queue → Queue} (hf : ∀ d, f (Queue.fresh d) = Queue.fresh d) :
    (queueMap ds).upd q f = queueMap ds := by
  rw [queueMap, SMap.upd, List.map_map]
  refine List.map_congr_left fun i _ => ?_
  simp only [Function.comp_apply, hf, ite_self]

/-- Of a queue from which no command has been taken, none has begun. -/
theorem Hw.startCount_none (h : Hw) (pid q n : Nat) : h.startCount pid q 0 n 0 = 0 := by
  cases n with
  | zero => rfl
  | succ n => simp [Hw.startCount]

theorem Hw.modQueue_part (h : Hw) (pid q p : Nat) (f : Queue → Queue) : (h.modQueue pid q f).part p =
    if pid = p then (h.part p).map fun x => { x with queues := x.queues.upd q f } else h.part p :=
  SMap.find_upd h.parts pid p fun x => { x with queues := x.queues.upd q f }

/-- The end of a command leaves a new partition as it is: none of its queues counts a command (R216). -/
theorem Hw.finish_newPart {h : Hw} {p : Nat} {x : Part} {ds : List QueueDesc} (hpart : h.part p = some x)
    (hqueues : x.queues = queueMap ds) (c : Cmd) (st r d : Nat) : (h.finish c st r d).part p = some x := by
  rw [Hw.finish, Hw.finishAt, Hw.countStarted, Hw.modQueue_part, Hw.modCmd_part, hpart]
  split
  · rw [Option.map_some, hqueues, queueMap_upd, ← hqueues]
    intro d
    rw [Queue.fresh, Hw.startCount_none]
  · rfl

section
variable {b j k l : Hw} {c : Cmd}

theorem partCreate_kept {r : CreateRec} (htake : b.takeKept c = (some (.part r), k)) :
    partCreate b c = (k.createPart r).done c 0 := by
  simp only [partCreate, htake]

theorem partCreate_unread (htake : b.takeKept c = (none, j)) : partCreate b c =
    j.withRecord c (c.f 24 6) 832 fun h bs =>
      if field bs 16 6 = 0 then h.wildEnd c else h.withRecord c (field bs 16 6) 288 fun h _ => h.wildEnd c := by
  simp only [partCreate, htake]

theorem partCreate_plain {bs : List Byte} (htake : b.takeKept c = (none, j))
    (hread : j.cmdRead c.pid (c.f 24 6) 832 = (.ok (bs, false), k)) (hplain : field bs 16 6 = 0) :
    partCreate b c = k.wildEnd c := by
  rw [partCreate_unread htake, Hw.withRecord_ok hread, if_pos hplain]

/-- A record that names an allotment record is read with it (R494, R602). -/
theorem partCreate_allotted {bs : List Byte} (htake : b.takeKept c = (none, j))
    (hread : j.cmdRead c.pid (c.f 24 6) 832 = (.ok (bs, false), k)) (hallot : field bs 16 6 ≠ 0) :
    partCreate b c = k.withRecord c (field bs 16 6) 288 fun h _ => h.wildEnd c := by
  rw [partCreate_unread htake, Hw.withRecord_ok hread, if_neg hallot]

theorem partAccepted_kept {h : Hw} {r : CreateRec} (hgood : h.readCreate c = .good r) :
    (c.pid, c.queue, c.num, Kept.part r) ∈ (specPartCreate.onAccept h c).sys.kept := by
  have haccept : specPartCreate.onAccept h c = h.keep c (.part r) := by simp only [specPartCreate, hgood]
  rw [haccept]
  exact h.mem_kept_keep c _

theorem Hw.allocBlock_cmds (h : Hw) (pid n : Nat) : (h.allocBlock pid n).cmds = h.cmds := by
  simp only [Hw.allocBlock]
  rw [Hw.put_cmds, Hw.setSobOwner, Hw.put_cmds]

theorem sobAlloc_free {n : Nat} (hfree : b.freeBlock = some n) : sobAlloc b c = (b.allocBlock (c.f 16 1) n).done c n := by
  unfold sobAlloc
  split
  · next m hm =>
    cases hfree.symm.trans hm
    rfl
  · next hno => cases hfree.symm.trans hno

theorem sobAlloc_none (hnone : b.freeBlock = none) : sobAlloc b c = b.wildEnd c := by
  unfold sobAlloc
  split
  · next m hm => cases hnone.symm.trans hm
  · rfl

end

/-- `PART_RESET` acts as the other packet commands do while no main-power loss runs (R527). -/
theorem does_partReset {st : State} {q : QRef} {p : Packet} {qu : Queue} {c : Cmd} {b : Hw}
    (hacting : Acting st.hw specPartReset q p qu c b) (hmain : st.hw.sys.lost = none) :
    Does (.partReset q p) st fun x => x = ((b.partReset (c.f 16 1)).reinstallPinned).done c 0 := by
  refine does_of_next (execPartReset q p st) rfl rfl rfl ((if_neg (by simp [hmain])).trans ?_)
  rw [Hw.issue_ready hacting.ready, ← hacting.state]

theorem does_partReset_lost {s : State} {q : QRef} {p : Packet} (hlost : s.hw.sys.lost.isSome = true) :
    Does (.partReset q p) s fun x => x = s.hw :=
  does_of_next (execPartReset q p s) rfl rfl rfl (if_pos hlost)

/-- Settles O6: each row's effect on the state in which its command has begun, from the branch that its conditions
select. -/
theorem packetStencilsAndPartitions : Obligations.PacketStencilsAndPartitions := by
  refine ⟨?_, ?_, ?_, ?_, fun h c s => stencilAccepted_kept, ?_, ?_, ?_, ?_, ?_, ?_, ?_, ?_, ?_,
    fun h c r => partAccepted_kept, fun st q p qu c b => does_partReset, fun s q p => does_partReset_lost,
    fun b c => sobAlloc_none, ?_, ?_, ?_, ?_, ?_⟩
  · intro st q p qu c b s k hacting htake
    have hcmds : k.cmds = b.cmds := Hw.takeKept_cmds htake
    refine does_of_acting (execStencilLoad q p st) hacting rfl rfl (stencilLoad_kept htake)
      (acting_ends_of_cmds hacting ?_ 0 0 0)
    rw [Hw.loadResult_cmds, Hw.put_cmds]
    exact hcmds
  · intro st q p qu c b j k e hacting htake hread
    exact does_of_acting (execStencilLoad q p st) hacting rfl rfl
      ((stencilLoad_unread htake).trans (Hw.withRecord_error hread _)) rfl
  · intro st q p qu c b j k hacting htake hends
    exact does_of_acting (execStencilLoad q p st) hacting rfl rfl
      ((stencilLoad_unread htake).trans (Hw.withRecord_ends hends _)) rfl
  · intro st q p qu c b j k bs hacting htake hread
    exact does_of_acting (execStencilLoad q p st) hacting rfl rfl
      ((stencilLoad_unread htake).trans (Hw.withRecord_ok hread _)) rfl
  · intro st q p qu c b hacting hfree
    exact does_of_acting (execStencilSwap q p st) hacting rfl rfl (stencilSwap_notes hfree) rfl
  · intro st q p qu c b hacting hpending
    exact does_of_acting (execStencilSwap q p st) hacting rfl rfl (stencilSwap_stands hpending)
      (acting_ends hacting 0 _ 0)
  · intro st q p qu c b hacting
    refine does_of_acting (execBudgetSet q p st) hacting rfl rfl rfl ⟨rfl, fun x hadmitted => ?_⟩
    rw [acting_begin hacting, (Hw.begin_keeps _ _).1]
    exact budgetAccepted_mem hadmitted
  · intro st q p qu c b r k hacting htake
    have hcmds : (k.createPart r).cmds = b.cmds := (k.createPart_cmds r).trans (Hw.takeKept_cmds htake)
    exact does_of_acting (execPartCreate q p st) hacting rfl rfl (partCreate_kept htake)
      ⟨acting_ends_of_cmds hacting hcmds 0 0 0, k.newPart r, Hw.finish_newPart (k.createPart_part r) rfl c 0 0 0, rfl, rfl,
        rfl, rfl, rfl, rfl, rfl, rfl⟩
  · intro st q p qu c b j k e hacting htake hread
    exact does_of_acting (execPartCreate q p st) hacting rfl rfl
      ((partCreate_unread htake).trans (Hw.withRecord_error hread _)) rfl
  · intro st q p qu c b j k hacting htake hends
    exact does_of_acting (execPartCreate q p st) hacting rfl rfl
      ((partCreate_unread htake).trans (Hw.withRecord_ends hends _)) rfl
  · intro st q p qu c b j k bs hacting htake hread hplain
    exact does_of_acting (execPartCreate q p st) hacting rfl rfl (partCreate_plain htake hread hplain) rfl
  · intro st q p qu c b j k l bs al hacting htake hread hallot hread2
    exact does_of_acting (execPartCreate q p st) hacting rfl rfl
      ((partCreate_allotted htake hread hallot).trans (Hw.withRecord_ok hread2 _)) rfl
  · intro st q p qu c b j k l bs hacting htake hread hallot hends
    exact does_of_acting (execPartCreate q p st) hacting rfl rfl
      ((partCreate_allotted htake hread hallot).trans (Hw.withRecord_ends hends _)) rfl
  · intro st q p qu c b k hacting hends
    exact does_of_acting (execGroupConfig q p st) hacting rfl rfl (Hw.withRecord_ends hends _) rfl
  · intro st q p qu c b hacting
    exact does_of_acting (execPartDestroy q p st) hacting rfl rfl rfl rfl
  · intro st q p qu c b hacting
    exact does_of_acting (execGrant q p st) hacting rfl rfl rfl (acting_ends_of_cmds hacting (Hw.modPart_cmds _ _ _) 0 0 0)
  · intro st q p qu c b n hacting hfree
    exact does_of_acting (execSobAlloc q p st) hacting rfl rfl (sobAlloc_free hfree) 
      (acting_ends_of_cmds hacting (Hw.allocBlock_cmds b _ n) 0 n 0)
  · intro st q p qu c b bs k hacting hread
    exact does_of_acting (execGroupConfig q p st) hacting rfl rfl (Hw.withRecord_ok hread _) rfl

end Sys2Proof.Machine

namespace Sys2Proof.Machine

/-! Stream commands (R54, R322, R332, R333). -/

section
variable {b j k : Hw} {c : Cmd}

theorem streamOpen_kept {n : Nat} {x : Stream} (htake : b.takeKept c = (some (.stream n x), k)) :
    streamOpen b c = (k.openStream n x).done c (if ((k.openStream n x).physPort x).isSome = true then 1 else 2) := by
  simp only [streamOpen, htake]
  rfl

theorem streamOpen_unread (htake : b.takeKept c = (none, j)) :
    streamOpen b c = j.withRecord c (c.f 24 6) 64 fun h _ => h.wildEnd c := by
  simp only [streamOpen, htake]

theorem streamAccepted_kept {h : Hw} {x : Stream} (hread : h.readStream c = some x) :
    (c.pid, c.queue, c.num, Kept.stream (streamKey c.pid (c.f 16 1)) x) ∈ (specStreamOpen.onAccept h c).sys.kept := by
  have haccept : specStreamOpen.onAccept h c = h.keep c (.stream (streamKey c.pid (c.f 16 1)) x) := by
    simp only [specStreamOpen, hread]
  rw [haccept]
  exact h.mem_kept_keep c _

theorem streamResult_closed {h : Hw} {n : Nat} (hnone : h.stream n = none) : streamResult h n = 0xFF00 := by
  simp only [streamResult, hnone]

theorem triggerSet_freed (hnone : b.stream (streamKey c.pid (c.f 16 1)) = none) : triggerSet b c = b.wildEnd c := by
  simp only [triggerSet, hnone]

variable {x : Stream} (hstream : b.stream (streamKey c.pid (c.f 16 1)) = some x)
include hstream

/-- The adjustment of a trigger that the port has waits for the next coat boundary (R54). -/
theorem triggerSet_notes {t : TrigRow} (htrig : (trigsOf b.stn.active.trigs x.port)[c.f 17 1]? = some t) :
    triggerSet b c = ({ b with stn := { b.stn with active := { b.stn.active with trigs := b.stn.active.trigs.map fun y =>
      if y = t then { y with next := some (min (c.f 18 2) y.adj) } else y } } } : Hw).done c 0 := by
  simp only [triggerSet, hstream, htrig]

theorem triggerSet_missing (hnone : (trigsOf b.stn.active.trigs x.port)[c.f 17 1]? = none) :
    triggerSet b c = b.done c 1 := by
  simp only [triggerSet, hstream, hnone]

end

theorem Hw.closeStream_cmds (h : Hw) (n : Nat) : (h.closeStream n).cmds = h.cmds := by
  unfold Hw.closeStream
  split <;> rfl

/-- A closed stream is gone (R332). -/
theorem Hw.closeStream_stream (h : Hw) (n : Nat) : (h.closeStream n).stream n = none := by
  unfold Hw.closeStream
  split
  · next hnone => exact hnone
  · exact (SMap.find_del _ n n).trans (if_pos rfl)

@[simp] theorem Hw.finish_ing (h : Hw) (c : Cmd) (st r d : Nat) : (h.finish c st r d).ing = h.ing := by
  rw [Hw.finish, Hw.finishAt, Hw.countStarted, Hw.modQueue_ing, Hw.modCmd_ing]

/-- The holding area of the ports without the bytes of a stream (R324, R332). -/
def withoutStream (n : Nat) (share m : SMap (List IngWrite)) : SMap (List IngWrite) :=
  share.foldl (fun (m : SMap (List IngWrite)) e => SMap.putD [] m e.1 (e.2.filter fun w => w.key ≠ n)) m

theorem withoutStream_key_ne (n : Nat) (share m : SMap (List IngWrite))
    (hm : ∀ i, ∀ w ∈ SMap.getD [] m i, w.key ≠ n) (i : Nat) : ∀ w ∈ SMap.getD [] (withoutStream n share m) i, w.key ≠ n := by
  induction share generalizing m with
  | nil => exact hm i
  | cons e share ih =>
    refine ih _ fun p w hw => ?_
    rw [SMap.getD_putD] at hw
    split at hw
    · simpa using (List.mem_filter.mp hw).2
    · exact hm p w hw

/-- No undrained byte of a closed stream stays in a port's share (R332). -/
theorem Hw.closeStream_share {h : Hw} {n i : Nat} {w : IngWrite} (hopen : (h.stream n).isSome = true)
    (hw : w ∈ (h.closeStream n).ing.share.getD [] i) : w.key ≠ n := by
  obtain ⟨x, hx⟩ := Option.isSome_iff_exists.mp hopen
  have hshare : (h.closeStream n).ing.share = withoutStream n h.ing.share [] := by
    simp only [Hw.closeStream, hx]
    rfl
  rw [hshare] at hw
  exact withoutStream_key_ne n h.ing.share [] (fun _ _ hnil => absurd hnil List.not_mem_nil) i w hw

/-! Fusion commands (R336, R341, R350, R352). -/

theorem Hw.showFus_cmds (h : Hw) : h.showFus.cmds = h.cmds := by
  simp only [Hw.showFus]
  split <;> rw [Hw.put_cmds, Hw.put_cmds, Hw.put_cmds, Hw.put_cmds, Hw.put_cmds]

theorem Hw.setFusSets_cmds (h : Hw) (m : SMap FusSet) : (h.setFusSets m).cmds = h.cmds :=
  Hw.showFus_cmds _

/-- Records are written by accesses to memory alone. -/
theorem Hw.calm_writeRecords (h : Hw) (pid va : Nat) (rs : List (List Byte × Bool)) :
    (h.writeRecords pid va rs).calm = h.calm := by
  induction rs generalizing h va with
  | nil => rfl
  | cons r rs ih => rw [Hw.writeRecords, ih, Hw.calm_writeVa]

theorem Hw.writeRecords_cmds (h : Hw) (pid va : Nat) (rs : List (List Byte × Bool)) :
    (h.writeRecords pid va rs).cmds = h.cmds := by
  obtain ⟨-, hcmds, -⟩ := Hw.calm_keeps (h.calm_writeRecords pid va rs)
  exact hcmds

section
variable {b k : Hw} {c : Cmd}

theorem fusConfig_releases (hrelease : bit (c.f 17 1) 0 = true) :
    fusConfig b c = (b.setFusSets (b.fus.sets.del (fusKey c.pid (c.f 16 1)))).done c 0 :=
  if_pos hrelease

/-- The set that a `FUS_CONFIG` makes of a record: no tracks, and the identifiers going on (R336). -/
def fusSetOf (h : Hw) (c : Cmd) (bs : List Byte) : FusSet :=
  { cfg := bs, model := c.f 18 1, threeD := bit (c.f 17 1) 1, nExtra := c.f 19 1, capacity := c.f 20 2,
    nextId := ((h.fus.sets.find (fusKey c.pid (c.f 16 1))).map (·.nextId)).getD 1, lastValid := none, tracks := [] }

theorem fusConfig_makes (hmake : bit (c.f 17 1) 0 = false) : fusConfig b c =
    b.withRecord c (c.f 24 6) 1024 fun h bs =>
      (h.setFusSets (h.fus.sets.put (fusKey c.pid (c.f 16 1)) (fusSetOf h c bs))).done c 0 :=
  if_neg (by simp [hmake])

theorem fusRead_released (hnone : b.fusSet c.pid (c.f 16 1) = none) : fusRead b c = b.done c 0 := by
  simp only [fusRead, hnone]

theorem fusDropTrack_released (hnone : b.fusSet c.pid (c.f 16 1) = none) : fusDropTrack b c = b.done c 0 := by
  simp only [fusDropTrack, hnone, Option.bind_none]

variable {x : FusSet} (hset : b.fusSet c.pid (c.f 16 1) = some x)
include hset

theorem fusRead_writes {rs : List (List Byte × Bool)} {ps : List (Nat × Nat)}
    (hrs : rs = (x.tracks.filter fun e => c.f 17 1 == 0 || e.2.confirmed).map fun e =>
      (e.2.record e.1 (b2n e.2.confirmed) (x.lastValid.getD 0) (x.q 8) x.n false none, e.2.stained))
    (hrun : b.mem.translateRun c.pid (c.f 24 6) (64 + 512 * rs.length) .wr true = .ok ps) : fusRead b c =
      (b.writeRecords c.pid (c.f 24 6) ((fusSummary rs.length 0 0 0 0 0 0 0 0 b.now, false) :: rs)).done c rs.length := by
  simp only [fusRead, hset, ← hrs, hrun]

/-- Nothing is written unless every page translates (R352). -/
theorem fusRead_pageFails {n a e : Nat} (hn : n = (x.tracks.filter fun e => c.f 17 1 == 0 || e.2.confirmed).length)
    (hrun : b.mem.translateRun c.pid (c.f 24 6) (64 + 512 * n) .wr true = .error (a, e)) :
    fusRead b c = (b.translationFault 2 e c.pid a).failPage c (a, e) := by
  simp only [fusRead, hset, List.length_map, ← hn, hrun]

theorem fusDropTrack_frees {e : Nat × FusTrack} (htrack : x.tracks.find? (fun e => e.2.id == c.f 20 4) = some e) :
    fusDropTrack b c = ({ b with fus := { b.fus with sets := b.fus.sets.upd (fusKey c.pid (c.f 16 1)) fun y =>
      { y with tracks := y.tracks.del e.1 } } } : Hw).done c 1 := by
  simp only [fusDropTrack, hset, Option.bind_some, htrack]

theorem fusDropTrack_missing (hnone : x.tracks.find? (fun e => e.2.id == c.f 20 4) = none) :
    fusDropTrack b c = b.done c 0 := by
  simp only [fusDropTrack, hset, Option.bind_some, hnone]

end

/-- The batch that a `FUS_BATCH` enters at its acceptance (R350). -/
def acceptedBatch (c : Cmd) : FusBatch :=
  { pid := c.pid, queue := c.queue, num := c.num, seq := c.seq, set := c.f 16 1, m := c.f 20 4, measVa := c.f 24 6,
    outVa := c.f 32 6, workVa := c.f 40 6, outMode := min (c.f 17 1) 1, tValid := c.f 48 8,
    dl := if c.f 56 4 = 0 then none else some (c.acceptAt + c.f 56 4), ready := false, used := 0, saved := false,
    back := false, owes := [], written := false, stained := false, out := none }

theorem Hw.acceptedBatch_mem_addBatch (h : Hw) (c : Cmd) : acceptedBatch c ∈ (h.addBatch c).fus.batches :=
  List.mem_append_right _ (List.mem_singleton_self _)

/-- The batches named by a command become ready when it begins. -/
theorem does_fusBatch {st : State} {q : QRef} {p : Packet} {qu : Queue} {c : Cmd} {b : Hw}
    (hacting : Acting st.hw specFusBatch q p qu c b) : Does (.fusBatch q p) st fun h' => h'.cmds = b.cmds ∧
      ({ acceptedBatch c with ready := true } : FusBatch) ∈ h'.fus.batches := by
  have hmem : acceptedBatch c ∈ b.fus.batches := by
    rw [acting_begin hacting, (Hw.begin_keeps _ _).2]
    exact Hw.acceptedBatch_mem_addBatch _ c
  obtain ⟨x, hfind⟩ : ∃ x, b.fus.batches.find? (fun y => y.pid == c.pid && y.queue == c.queue && y.num == c.num) = some x :=
    Option.isSome_iff_exists.mp (List.find?_isSome.mpr ⟨_, hmem, by simp [acceptedBatch]⟩)
  have hname : (acceptedBatch c).pid = x.pid ∧ (acceptedBatch c).queue = x.queue ∧ (acceptedBatch c).num = x.num := by
    have hx := List.find?_some hfind
    simp only [Bool.and_eq_true, beq_iff_eq] at hx
    obtain ⟨⟨hpid, hqueue⟩, hnum⟩ := hx
    exact ⟨hpid.symm, hqueue.symm, hnum.symm⟩
  exact does_of_acting (execFusBatch q p st) hacting rfl rfl
    (by simp only [hfind] : _ = b.modBatch x fun y => { y with ready := true })
    ⟨Hw.modBatch_cmds _ _ _, List.mem_map.mpr ⟨_, hmem, if_pos hname⟩⟩

/-- Settles O43: each row's effect on the state in which its command has begun, from the branch that its conditions
select. -/
theorem packetStreamsAndFusion : Obligations.PacketStreamsAndFusion := by
  refine ⟨?_, ?_, ?_, fun h c x => streamAccepted_kept, ?_, fun h k n w => Hw.closeStream_share, ?_,
    fun h k => streamResult_closed, ?_, fun b c => triggerSet_freed, ?_, ?_, ?_, ?_, ?_, ?_, ?_,
    fun b c => fusRead_released, fun b c => fusDropTrack_released, ?_, ?_⟩
  · intro st q p qu c b n k x hacting htake
    have hcmds : k.cmds = b.cmds := Hw.takeKept_cmds htake
    exact does_of_acting (execStreamOpen q p st) hacting rfl rfl (streamOpen_kept htake)
      (acting_ends_of_cmds hacting (by exact hcmds) 0 _ 0)
  · intro st q p qu c b j k hacting htake hends
    exact does_of_acting (execStreamOpen q p st) hacting rfl rfl
      ((streamOpen_unread htake).trans (Hw.withRecord_ends hends _)) rfl
  · intro b j k c bs htake hread
    exact (streamOpen_unread htake).trans (Hw.withRecord_ok hread _)
  · intro st q p qu c b hacting
    refine does_of_acting (execStreamClose q p st) hacting rfl rfl rfl
      ⟨?_, acting_ends_of_cmds hacting (Hw.closeStream_cmds b _) 0 0 0⟩
    rw [Hw.done, Hw.stream, Hw.finish_ing]
    exact Hw.closeStream_stream b _
  · intro st q p qu c b hacting
    exact does_of_acting (execStreamQuery q p st) hacting rfl rfl rfl (acting_ends hacting 0 _ 0)
  · intro st q p qu c b x t hacting hstream htrig
    exact does_of_acting (execTriggerSet q p st) hacting rfl rfl (triggerSet_notes hstream htrig)
      (acting_ends_of_cmds hacting (by rfl) 0 0 0)
  · intro st q p qu c b x hacting hstream hnone
    exact does_of_acting (execTriggerSet q p st) hacting rfl rfl (triggerSet_missing hstream hnone)
      (acting_ends hacting 0 1 0)
  · intro st q p qu c b hacting hrelease
    exact does_of_acting (execFusConfig q p st) hacting rfl rfl (fusConfig_releases hrelease)
      (acting_ends_of_cmds hacting (Hw.setFusSets_cmds b _) 0 0 0)
  · intro st q p qu c b bs k hacting hmake hread
    exact does_of_acting (execFusConfig q p st) hacting rfl rfl
      ((fusConfig_makes hmake).trans (Hw.withRecord_ok hread _))
      (acting_ends_of_cmds hacting ((Hw.setFusSets_cmds k _).trans (Hw.cmdRead_cmds hread)) 0 0 0)
  · intro st q p qu c b k hacting hmake hends
    exact does_of_acting (execFusConfig q p st) hacting rfl rfl
      ((fusConfig_makes hmake).trans (Hw.withRecord_ends hends _)) rfl
  · intro st q p qu c b hacting
    obtain ⟨h', hexec, hcmds, hmem⟩ := does_fusBatch hacting
    exact ⟨h', hexec, hcmds, _, hmem, rfl, rfl, rfl, rfl, rfl, rfl, rfl, rfl, rfl, rfl, rfl, rfl, rfl⟩
  · intro st q p qu c b x rs ps hacting hset hrs hrun
    exact does_of_acting (execFusRead q p st) hacting rfl rfl (fusRead_writes hset hrs hrun)
      (acting_ends_of_cmds hacting (Hw.writeRecords_cmds b _ _ _) 0 _ 0)
  · intro st q p qu c b x n a e hacting hset hn hrun
    exact does_of_acting (execFusRead q p st) hacting rfl rfl (fusRead_pageFails hset hn hrun) rfl
  · intro st q p qu c b x e hacting hset htrack
    exact does_of_acting (execFusDropTrack q p st) hacting rfl rfl (fusDropTrack_frees hset htrack)
      (acting_ends_of_cmds hacting (by rfl) 0 1 0)
  · intro st q p qu c b x hacting hset hnone
    exact does_of_acting (execFusDropTrack q p st) hacting rfl rfl (fusDropTrack_missing hset hnone)
      (acting_ends hacting 0 0 0)

end Sys2Proof.Machine

namespace Sys2Proof.Machine

/-! The TVI rows (R89 to R99) and the TOD rows (R81 to R87) of a tile: each row's step is stated under `Laws/`, and a row
does what its step leaves. -/

/-- A command whose meaning changes the hardware by `f` does what holds of the hardware that `f` makes. -/
theorem does_of_holds {c : Instr} {st : State} {f : Hw → Hw} {P : Hw → Prop} (e : Host.Outcome State Fault Refusal)
    (hexec : exec c st = e) (hnext : e = st.next f) (hf : P (f st.hw)) : Does c st P :=
  ⟨f st.hw, hexec.trans hnext, hf⟩

/-- Settles O9: the step of each row writes its one register and moves the program counter on. -/
theorem tviScalarResults : Obligations.TviScalarResults := by
  refine ⟨?_, ?_, ?_, ?_, ?_⟩
  · intro st t s w hready
    exact does_of_holds (execSaddi t st) rfl rfl (saddi_step t.isLt hready)
  · intro st t s w hready
    exact does_of_holds (execSlui t st) rfl rfl (slui_step t.isLt hready)
  · intro st t s w hready hfn
    exact does_of_holds (execSalu t st) rfl rfl (salu_step t.isLt hready hfn)
  · intro st t s w hready hfn
    exact does_of_holds (execPset t st) rfl rfl (pset_step t.isLt hready hfn)
  · intro st t s w hready
    exact does_of_holds (execTviNop t st) rfl rfl (tviNop_step t.isLt hready)

/-- Settles O10: at aligned addresses the step of each row moves the words or the enabled lanes that it names. -/
theorem tviMemory : Obligations.TviMemory := by
  refine ⟨?_, ?_, ?_, ?_, ?_, ?_⟩
  · intro st t s w a hready ha halign
    exact does_of_holds (execSld t st) rfl rfl (sld_step t.isLt hready ha halign)
  · intro st t s w a hready ha halign
    exact does_of_holds (execSst t st) rfl rfl (sst_step t.isLt hready ha halign)
  · intro st t s w hready halign
    exact does_of_holds (execVld t st) rfl rfl (vld_step t.isLt hready halign)
  · intro st t s w hready halign
    exact does_of_holds (execVst t st) rfl rfl (vst_step t.isLt hready halign)
  · intro st t s w hready halign
    exact does_of_holds (execVgath t st) rfl rfl (vgath_step t.isLt hready halign)
  · intro st t s w hready halign
    exact does_of_holds (execVscat t st) rfl rfl (vscat_step t.isLt hready halign)

/-- `ABORT` abandons the slice from a state that its fetch has only read (R90). -/
theorem abort_abandons {h : Hw} {t : Nat} {s : Slice} {w : Nat} (ht : t < 1152) (hready : TviReady h t s 0x1C w) :
    ∃ k, Mid t s h k (h.tile t) ∧ h.issueTvi t 0x1C true (tviAbort t) =
      k.abandon t (if (h.tile t).seq.xlive then (h.tile t).seq.excCause else 0) := by
  obtain ⟨k, hread, habandon⟩ := abort_step ht hready
  exact ⟨k, Mid.of_read hread hready.slice, habandon⟩

/-- Settles O11: the step of each row sets the program counter, the stack or the slice. -/
theorem tviControlFlowAndExceptions : Obligations.TviControlFlowAndExceptions := by
  refine ⟨?_, ?_, ?_, ?_, ?_, ?_, ?_, ?_⟩
  · intro st t s w hready hxlive hexb hpush
    exact does_of_holds (execTrap t st) rfl rfl (trap_step t.isLt hready hxlive hexb hpush)
  · intro st t s w hready
    exact does_of_holds (execAbort t st) rfl rfl (abort_abandons t.isLt hready)
  · intro st t s w hready
    exact does_of_holds (execJmp t st) rfl rfl (jmp_step t.isLt hready)
  · intro st t s w hready hcond
    exact does_of_holds (execBr t st) rfl rfl (br_step t.isLt hready hcond)
  · intro st t s w hready hpush
    exact does_of_holds (execCall t st) rfl rfl (call_step t.isLt hready hpush)
  · intro st t s w bs hready hpop hbytes htype
    exact does_of_holds (execRet t st) rfl rfl (ret_step t.isLt hready hpop hbytes htype)
  · intro st t s w bs hready hpop hbytes htype
    exact does_of_holds (execXret t st) rfl rfl (xret_step t.isLt hready hpop hbytes htype)
  · intro st t s w hready
    exact does_of_holds (execHalt t st) rfl rfl (halt_step t.isLt hready)

/-- Settles O12: the step of each row writes the enabled lanes of its register, or the one register that it names. -/
theorem tviLaneResults : Obligations.TviLaneResults := by
  refine ⟨?_, ?_, ?_, ?_, ?_, ?_, ?_, ?_⟩
  · intro st t s w hready hlegal
    exact does_of_holds (execValu t st) rfl rfl (valu_step t.isLt hready hlegal)
  · intro st t s w hready hlegal
    exact does_of_holds (execValux t st) rfl rfl (valux_step t.isLt hready hlegal)
  · intro st t s w hready
    exact does_of_holds (execVcmp t st) rfl rfl (vcmp_step t.isLt hready)
  · intro st t s w hready
    exact does_of_holds (execVlut t st) rfl rfl (vlut_step t.isLt hready)
  · intro st t s w hready
    exact does_of_holds (execVcvt t st) rfl rfl (vcvt_step t.isLt hready)
  · intro st t s w hready hfn
    exact does_of_holds (execVperm t st) rfl rfl (vperm_step t.isLt hready hfn)
  · intro st t s w hready hfn
    exact does_of_holds (execVmv t st) rfl rfl (vmv_lane_step t.isLt hready hfn)
  · intro st t s w hready hfn
    exact does_of_holds (execVmv t st) rfl rfl (vmv_scalar_step t.isLt hready hfn)

/-- Settles O13: the step of each row writes the pair of registers, or acts on the accumulators. -/
theorem tviAccumulatorsSortAndFft : Obligations.TviAccumulatorsSortAndFft := by
  refine ⟨?_, ?_, ?_, ?_, ?_, ?_, ?_⟩
  · intro st t s w hready
    exact does_of_holds (execVsort t st) rfl rfl (vsort_step t.isLt hready)
  · intro st t s w hready hstage
    exact does_of_holds (execVfft t st) rfl rfl (vfft_step t.isLt hready hstage)
  · intro st t s w hready hstage
    exact does_of_holds (execVfft t st) rfl rfl (vfft_free_step t.isLt hready hstage)
  · intro st t s w hready
    exact does_of_holds (execVmacc t st) rfl rfl (vmacc_step t.isLt hready)
  · intro st t s w hready hfn
    exact does_of_holds (execVred t st) rfl rfl (vred_sum_step t.isLt hready hfn)
  · intro st t s w hready hfn
    exact does_of_holds (execVred t st) rfl rfl (vred_extreme_step t.isLt hready hfn)
  · intro st t s w hready
    exact does_of_holds (execAccrd t st) rfl rfl (accrd_step t.isLt hready)

/-- Settles O14: the step of each row has its effect, and the sequencer moves on under the loop field. -/
theorem todSequencer : Obligations.TodSequencer := by
  refine ⟨?_, ?_, ?_, ?_, ?_, ?_, ?_⟩
  · intro st t s d hready hadmits
    exact does_of_holds (execTodNop t st) rfl rfl (nop_step t.isLt hready hadmits)
  · intro st t s d hready hadmits hreg
    exact does_of_holds (execSets t st) rfl rfl (sets_step t.isLt hready hadmits hreg)
  · intro st t s d hready hadmits halign
    exact does_of_holds (execVprog t st) rfl rfl (vprog_step t.isLt hready hadmits halign)
  · intro st t s d hready hadmits hnosig hnofinal
    exact does_of_holds (execCommit t st) rfl rfl (commitPlain_step t.isLt hready hadmits hnosig hnofinal)
  · intro st t s d hready hadmits hpack bs hbytes hlength
    exact does_of_holds (execLutLoad t st) rfl rfl (lutLoad_step t.isLt hready hadmits hpack bs hbytes hlength)
  · intro st t s d hready hadmits hop hholds g hcharge
    exact does_of_holds (execSobOp t st) rfl rfl (sobOpRead_step t.isLt hready hadmits hop hholds g hcharge)
  · intro st t s d hready hadmits hop
    exact does_of_holds (execSobOp t st) rfl rfl (sobOpWrite_step t.isLt hready hadmits hop)

/-- Settles O15: the step of each row sums its terms exactly where operand 2 says. -/
theorem todProducts : Obligations.TodProducts := by
  refine ⟨?_, ?_, ?_⟩
  · intro st t s d hready hadmits hfits hdepth hout hmac hpackA hpackB
    exact does_of_holds (execMatmul t st) rfl rfl
      (matmul_step t.isLt hready hadmits hfits hdepth hout hmac hpackA hpackB)
  · intro st t s d hready hadmits hfits hnot16 hfour hmx hdepth hout hmac hpackA hpackB
    exact does_of_holds (execMatmulSparse t st) rfl rfl
      (matmulSparse_step t.isLt hready hadmits hfits hnot16 hfour hmx hdepth hout hmac hpackA hpackB)
  · intro st t s d hready hadmits hfilter hformats oh hoh hfits hrows hcols hdepth hmx hpackA hpackB hmac
    exact does_of_holds (execConv2d t st) rfl rfl
      (conv2d_step t.isLt hready hadmits hfilter hformats oh hoh hfits hrows hcols hdepth hmx hpackA hpackB hmac)

/-- Settles O16: the step of each row has the result of its row. -/
theorem todAccumulatorOps : Obligations.TodAccumulatorOps := by
  refine ⟨?_, ?_, ?_, ?_⟩
  · intro st t s d hready hadmits
    exact does_of_holds (execAccClear t st) rfl rfl (accClear_step t.isLt hready hadmits)
  · intro st t s d hready hadmits hcount hpack
    exact does_of_holds (execAccRead t st) rfl rfl (accRead_step t.isLt hready hadmits hcount hpack)
  · intro st t s d hready hadmits hfits hdepth hpackA hpackB
    exact does_of_holds (execExpscan t st) rfl rfl (expscan_step t.isLt hready hadmits hfits hdepth hpackA hpackB)
  · intro st t s d hready hadmits hfits hpackA hpackB hpackOut hcount
    exact does_of_holds (execConv2dFft t st) rfl rfl
      (conv2dFft_step t.isLt hready hadmits hfits hpackA hpackB hpackOut hcount)

/-- Settles O17: the steps of SCAN, ACC and FINISH. -/
theorem todAttention : Obligations.TodAttention := by
  refine ⟨?_, ?_, ?_⟩
  · intro st t s d hready hscan hadmits hshape hcount
    exact does_of_holds (execAttnBlock t st) rfl rfl (attnScan_step t.isLt hready hscan hadmits hshape hcount)
  · intro st t s d hready hacc hadmits hshape n hn hroom
    exact does_of_holds (execAttnBlock t st) rfl rfl (attnAcc_step t.isLt hready hacc hadmits hshape n hn hroom)
  · intro st t s d hready hfinish hadmits hshape n hn hroom hpack z hz
    exact does_of_holds (execAttnBlock t st) rfl rfl
      (attnFinish_step t.isLt hready hfinish hadmits hshape n hn hroom hpack z hz)

/-- Settles O18: the step of each row writes its results to operand 2. -/
theorem todVectorResults : Obligations.TodVectorResults := by
  refine ⟨?_, ?_, ?_, ?_, ?_, ?_, ?_, ?_, ?_, ?_, ?_, ?_, ?_⟩
  · intro st t s d hready hlegal hadmits hcount hbinary hpackA hpackOut
    exact does_of_holds (execEltwise t st) rfl rfl
      (eltwise_step t.isLt hready hlegal hadmits hcount hbinary hpackA hpackOut)
  · intro st t s d hready hadmits n hn hcount hpackA hpackOut
    exact does_of_holds (execAct t st) rfl rfl (act_step t.isLt hready hadmits n hn hcount hpackA hpackOut)
  · intro st t s d hready hadmits hparams hshape hpackA hpackB hpackOut
    exact does_of_holds (execNorm t st) rfl rfl
      (norm_step t.isLt hready hadmits hparams hshape hpackA hpackB hpackOut)
  · intro st t s d hready hadmits hshape hpackA hpackOut
    exact does_of_holds (execSoftmax t st) rfl rfl (softmax_step t.isLt hready hadmits hshape hpackA hpackOut)
  · intro st t s d hready hop haxis hadmits hpackA ts hts hroom hcount hpackOut
    exact does_of_holds (execReduce t st) rfl rfl
      (reduce_step t.isLt hready hop haxis hadmits hpackA ts hts hroom hcount hpackOut)
  · intro st t s d hready hadmits hmode hwindow hchannels hpackA hpackOut
    exact does_of_holds (execPool t st) rfl rfl
      (pool_step t.isLt hready hadmits hmode hwindow hchannels hpackA hpackOut)
  · intro st t s d hready hadmits g hg hfilter hformats oh hoh hgroups hfits houtputs hchannels hpackA hpackB hroom
      hpackOut
    exact does_of_holds (execDwconv t st) rfl rfl (dwconv_step t.isLt hready hadmits g hg hfilter hformats oh hoh hgroups
      hfits houtputs hchannels hpackA hpackB hroom hpackOut)
  · intro st t s d hready hadmits n hn hrange hshape hpayloads hpackA hpackB hpackOut
    exact does_of_holds (execTopk t st) rfl rfl
      (topk_step t.isLt hready hadmits n hn hrange hshape hpayloads hpackA hpackB hpackOut)
  · intro st t s d hready hadmits hshape hpayloads hpackA hpackB hpackOut
    exact does_of_holds (execSort t st) rfl rfl
      (sort_step t.isLt hready hadmits hshape hpayloads hpackA hpackB hpackOut)
  · intro st t s d hready hadmits hcount hpackA hpackOut hformat
    exact does_of_holds (execQuant t st) rfl rfl (quant_step t.isLt hready hadmits hcount hpackA hpackOut hformat)
  · intro st t s d hready hadmits hcount hpackA hpackOut hformat
    exact does_of_holds (execDequant t st) rfl rfl (dequant_step t.isLt hready hadmits hcount hpackA hpackOut hformat)
  · intro st t s d hready hadmits hcount hpackA hpackOut
    exact does_of_holds (execConvert t st) rfl rfl (convert_step t.isLt hready hadmits hcount hpackA hpackOut)
  · intro st t s d hready hadmits hpoints hrow hplane hshape hpackA hpackOut
    exact does_of_holds (execFft t st) rfl rfl
      (fft_step t.isLt hready hadmits hpoints hrow hplane hshape hpackA hpackOut)

/-- Settles O20: the step of each row sends or takes what it exchanges, or completes its wait. -/
theorem todMessagesAndMeetings : Obligations.TodMessagesAndMeetings := by
  refine ⟨?_, ?_, ?_, ?_, ?_, ?_, ?_, ?_, ?_⟩
  · intro st t s d hready hadmits hslot hpack hlength
    exact does_of_holds (execSend t st) rfl rfl (send_step t.isLt hready hadmits hslot hpack hlength)
  · intro st t s d hready hadmits hslot f hfinisher hbytes hroom hpack
    exact does_of_holds (execSend t st) rfl rfl
      (sendNotice_step t.isLt hready hadmits hslot f hfinisher hbytes hroom hpack)
  · intro st t s d hready hadmits hstrip hplain hbytes hpack hlength
    exact does_of_holds (execHaloSend t st) rfl rfl
      (haloSend_step t.isLt hready hadmits hstrip hplain hbytes hpack hlength)
  · intro st t s d hready hadmits hstrip hplain hpack n hn harrived
    exact does_of_holds (execHaloRecv t st) rfl rfl
      (haloRecv_step t.isLt hready hadmits hstrip hplain hpack n hn harrived)
  · intro st t s d hready hadmits hcount
    exact does_of_holds (execLevelSend t st) rfl rfl (levelSend_step t.isLt hready hadmits hcount)
  · intro st t s d hready hadmits hcount
    exact does_of_holds (execBarrier t st) rfl rfl (barrier_step t.isLt hready hadmits hcount)
  · intro st t s d hready hadmits harrived
    exact does_of_holds (execRecv t st) rfl rfl (recv_step t.isLt hready hadmits harrived)
  · intro st t s d hready hadmits e hfound
    exact does_of_holds (execLevelRecv t st) rfl rfl (levelRecv_step t.isLt hready hadmits e hfound)
  · intro st t s d hready hadmits hfirmware is his
    exact does_of_holds (execTodSelftest t st) rfl rfl (selftest_step t.isLt hready hadmits hfirmware is his)

end Sys2Proof.Machine

namespace Sys2Proof.Machine

/-! The mesh (R141 to R160): a flit that arrives, the choice of an output and the way of a flit, and the landing of a
message. -/

section
variable {h k : Hw} {l port : Nat} {a : Option FlitIn} (hfabric : h.fabricOn = true)
  (hk : a.elim h (h.arriveFlit l port) = k)
include hfabric hk

/-- A router with nothing at the named input does nothing beyond the arrival. -/
theorem Hw.flitStep_idle (hhead : (k.fab.inq.getD [] (5 * l + port)).head? = none) : h.flitStep l port a = k := by
  subst hk
  cases a <;> simp_all [Hw.flitStep]

/-- A router serves the output for which the first flit of the named input waits (R148, R150). -/
theorem Hw.flitStep_serves {f : Flit} (hhead : (k.fab.inq.getD [] (5 * l + port)).head? = some f) :
    h.flitStep l port a = k.serveOutput l (k.outputOf l f) := by
  subst hk
  cases a <;> simp_all [Hw.flitStep]

end

theorem Hw.flitStep_fabricOff {h : Hw} (hoff : h.fabricOn = false) (l port : Nat) (a : Option FlitIn) :
    h.flitStep l port a = h := by
  simp only [Hw.flitStep, hoff, Bool.not_false, if_true]

section
variable {h : Hw} {l port : Nat} {x : FlitIn} {f : Flit} (hf : f = ⟨x.header.toNat, fit 64 x.payload⟩)
include hf

/-- A flit that fails its header check (R145). -/
theorem Hw.arriveFlit_bad (hbad : hdrGood f.header = false) :
    h.arriveFlit l port x = h.badFlit l port (hdrPid f.header) := by
  subst hf
  rw [Hw.arriveFlit, hbad, Bool.not_false, if_pos rfl]

variable (hgood : hdrGood f.header = true)
include hgood

/-- The local port stamps a flit and checks it again (R145, R146). -/
theorem Hw.arriveFlit_local (hport : port = portLocal) : h.arriveFlit l port x =
    if hdrGood (h.stamped l f).header then h.enqueue l port (h.stamped l f) else h := by
  subst hf
  rw [Hw.arriveFlit, hgood, Bool.not_true, if_neg Bool.false_ne_true, if_pos hport]

/-- A flit from the hub crosses its attach (R141). -/
theorem Hw.arriveFlit_attach (hport : port = portSouth) (hrow : l < 32) :
    h.arriveFlit l port x = h.toEdge (8 + 2 * dieOfLogical l) (5 * l + port) f := by
  subst hf
  rw [Hw.arriveFlit, hgood, Bool.not_true, if_neg Bool.false_ne_true, if_neg (by rw [hport]; decide), if_pos ⟨hport, hrow⟩]

theorem Hw.arriveFlit_joins (hport : port ≠ portLocal) (hinside : ¬ (port = portSouth ∧ l < 32)) :
    h.arriveFlit l port x = h.enqueue l port f := by
  subst hf
  rw [Hw.arriveFlit, hgood, Bool.not_true, if_neg Bool.false_ne_true, if_neg hport, if_neg hinside]

end

theorem Hw.badFlit_local (h : Hw) (l pid : Nat) : h.badFlit l portLocal pid = h.faultStop (h.routerTile l) 4 := rfl

theorem Hw.badFlit_elsewhere (h : Hw) (l pid : Nat) {port : Nat} (hport : port ≠ portLocal) : h.badFlit l port pid =
    (({ h with fab := { h.fab with headerBad := NSet.add h.fab.headerBad (h.routerTile l) } } : Hw).event
      (srcTile (h.routerTile l)) 0x0208 pid port).healthAdd (partDie (h.routerTile l / 288)) inFlit 1 :=
  if_neg hport

/-- In a search over a range that finds something, what is found stands at the first place that gives something. -/
theorem findSome?_range_first {α : Type} (g : Nat → Option α) (n : Nat) (hex : ∃ i, i < n ∧ (g i).isSome = true) :
    ∃ i x, (List.range n).findSome? g = some x ∧ i < n ∧ g i = some x ∧ ∀ y, y < i → g y = none := by
  induction n with
  | zero => obtain ⟨i, hi, -⟩ := hex; omega
  | succ n ih =>
    rw [List.range_succ, List.findSome?_append]
    by_cases hearly : ∃ i, i < n ∧ (g i).isSome = true
    · obtain ⟨i, x, hfind, hi, hx, hfirst⟩ := ih hearly
      exact ⟨i, x, by rw [hfind, Option.some_or], by omega, hx, hfirst⟩
    · have hnone : ∀ i, i < n → g i = none := fun i hi =>
        Option.not_isSome_iff_eq_none.mp fun hsome => hearly ⟨i, hi, hsome⟩
      obtain ⟨i, hi, hsome⟩ := hex
      obtain rfl : i = n := by
        by_contra hne
        exact hearly ⟨i, by omega, hsome⟩
      obtain ⟨x, hx⟩ := Option.isSome_iff_exists.mp hsome
      refine ⟨i, x, ?_, hi, hx, hnone⟩
      rw [List.findSome?_eq_none_iff.mpr fun y hy => hnone y (List.mem_range.mp hy)]
      simp [hx]

/-- The class whose turn it is has a flit ready for the output: the output takes, of the inputs in turn after the last one
that it served, the first that has one (R150). -/
theorem Hw.outPick_turn (h : Hw) (l o c : Nat) (hc : c = classTurns.getD (h.fab.outSeq.getD 0 (5 * l + o)) 0)
    (hready : ∃ p, p < 5 ∧ (h.readyAt l o c p).isSome = true) :
    ∃ p i f, h.outPick l o = some (c, p, i, f) ∧ p < 5 ∧ h.readyAt l o c p = some (i, f) ∧
      ∀ y, y < (p + 9 - h.fab.outTurn.getD 4 ((5 * l + o) * 4 + c)) % 5 →
        h.readyAt l o c ((h.fab.outTurn.getD 4 ((5 * l + o) * 4 + c) + 1 + y) % 5) = none := by
  obtain ⟨p, hp, hsome⟩ := hready
  have hstart : ∃ i, i < 5 ∧ ((h.readyAt l o c ((h.fab.outTurn.getD 4 ((5 * l + o) * 4 + c) + 1 + i) % 5)).map fun x =>
      (c, (h.fab.outTurn.getD 4 ((5 * l + o) * 4 + c) + 1 + i) % 5, x.1, x.2)).isSome = true := by
    generalize h.fab.outTurn.getD 4 ((5 * l + o) * 4 + c) = last
    refine ⟨(p + 4 * (last + 1)) % 5, by omega, ?_⟩
    rw [Option.isSome_map, show (last + 1 + (p + 4 * (last + 1)) % 5) % 5 = p by omega]
    exact hsome
  obtain ⟨j, x, hfind, hj, hx, hfirst⟩ := findSome?_range_first _ 5 hstart
  obtain ⟨⟨i, f⟩, hat, rfl⟩ := Option.map_eq_some_iff.mp hx
  refine ⟨_, i, f, ?_, Nat.mod_lt _ (by decide), hat, fun y hy => ?_⟩
  · rw [Hw.outPick, ← hc, List.findSome?_cons]
    simp only [List.findSome?_map, Function.comp_def]
    rw [hfind]
  · exact Option.map_eq_none_iff.mp (hfirst y (by omega))

/-- The flit that an output chooses leaves its input, and the turns of class and input move on (R150). -/
theorem Hw.serveOutput_picked {h : Hw} {l o c p i : Nat} {f : Flit} (hpick : h.outPick l o = some (c, p, i, f)) :
    h.serveOutput l o = ({ h with fab := { h.fab with
      inq := SMap.putD [] h.fab.inq (5 * l + p) ((h.fab.inq.getD [] (5 * l + p)).eraseIdx i)
      outSeq := SMap.putD 0 h.fab.outSeq (5 * l + o) ((h.fab.outSeq.getD 0 (5 * l + o) + 1) % 10)
      outTurn := SMap.putD 4 h.fab.outTurn ((5 * l + o) * 4 + c) p } } : Hw).forward l f := by
  simp only [Hw.serveOutput, hpick]

theorem Hw.serveOutput_unpicked {h : Hw} {l o : Nat} (hpick : h.outPick l o = none) : h.serveOutput l o = h := by
  simp only [Hw.serveOutput, hpick]

/-! Where a flit goes (R148). -/

section
variable {h : Hw} {l m p : Nat} {f : Flit}

theorem Hw.forward_within (hhop : h.nextHop l f = .to m p) (hpath : edgePath (dieOfLogical l) (dieOfLogical m) = []) :
    h.forward l f = h.enqueue m p f := by
  simp only [Hw.forward, hhop, hpath]

theorem Hw.forward_over {d : Nat} {ds : List Nat} (hhop : h.nextHop l f = .to m p)
    (hpath : edgePath (dieOfLogical l) (dieOfLogical m) = d :: ds) : h.forward l f = h.toEdge d (5 * m + p) f := by
  simp only [Hw.forward, hhop, hpath]

theorem Hw.forward_station (hhop : h.nextHop l f = .station) : h.forward l f =
    if hdrType f.header = 7 ∨ hdrType f.header = 0xC then h.toEdge (9 + 2 * dieOfLogical l) 5120 f
    else { h with fab := { h.fab with station := h.fab.station.mod [] l (· ++ [f]) } } := by
  simp only [Hw.forward, hhop]

theorem Hw.forward_here (hhop : h.nextHop l f = .here) : h.forward l f =
    if landsHere (hdrType f.header) then { h with fab := { h.fab with local_ := h.fab.local_.mod [] l (· ++ [f]) } }
    else h := by
  simp only [Hw.forward, hhop]

end

section
variable {l dst : Nat} (ty : Nat)

theorem hopOf_east (hx : l % 32 < dst % 32) : hopOf l dst ty = .to (l + 1) portWest := if_pos hx

theorem hopOf_west (hx : dst % 32 < l % 32) : hopOf l dst ty = .to (l - 1) portEast := by
  rw [hopOf, if_neg (by omega), if_pos hx]

theorem hopOf_south (hx : l % 32 = dst % 32) (hy : l / 32 < dst / 32) : hopOf l dst ty = .to (l + 32) portSouth := by
  rw [hopOf, if_neg (by omega), if_neg (by omega), if_pos hy]

theorem hopOf_north (hx : l % 32 = dst % 32) (hy : dst / 32 < l / 32) : hopOf l dst ty = .to (l - 32) portNorth := by
  rw [hopOf, if_neg (by omega), if_neg (by omega), if_neg (by omega), if_pos hy]

theorem hopOf_self (l : Nat) : hopOf l l ty = if diverts l ty = true then .station else .here := by
  rw [hopOf, if_neg (by omega), if_neg (by omega), if_neg (by omega), if_neg (by omega)]

end

/-! The messages that arrive (R154 to R156). -/

section
variable {s : State} {h k : Hw} {src dst : Fin 1024} (hs : s.hw = h)
include hs

/-- With the fabric off no message arrives. -/
theorem does_arrival_fabricOff (hoff : h.fabricOn = false) {c : Instr} (hrow : c = .dataMessageLanding src dst ∨
    c = .commitNotice src dst ∨ c = .releaseNotice src dst) : Does c s fun x => x = h := by
  rcases hrow with rfl | rfl | rfl
  · exact does_of_next (execDataMessageLanding src dst s) hs rfl rfl (by simp [hoff])
  · exact does_of_next (execCommitNotice src dst s) hs rfl rfl (by simp [hoff])
  · exact does_of_next (execReleaseNotice src dst s) hs rfl rfl (by simp [hoff])

variable {o : Option Msg} (hfabric : h.fabricOn = true)
include hfabric

theorem does_dataMessageLanding (htake : h.takeMsg src.val dst.val [0, 1] = (o, k)) :
    Does (.dataMessageLanding src dst) s fun x => x = o.elim k k.landMsg := by
  refine does_of_next (execDataMessageLanding src dst s) hs rfl rfl ?_
  cases o <;> simp only [hfabric, htake, if_true] <;> rfl

theorem does_commitNotice (htake : h.takeMsg src.val dst.val [0xA] = (o, k)) :
    Does (.commitNotice src dst) s fun x => x = o.elim k k.commitArrives := by
  refine does_of_next (execCommitNotice src dst s) hs rfl rfl ?_
  cases o <;> simp only [hfabric, htake, if_true] <;> rfl

theorem does_releaseNotice (htake : h.takeMsg src.val dst.val [0xB] = (o, k)) :
    Does (.releaseNotice src dst) s fun x => x = o.elim k k.releaseArrives := by
  refine does_of_next (execReleaseNotice src dst s) hs rfl rfl ?_
  cases o <;> simp only [hfabric, htake, if_true] <;> rfl

end

section
variable {h : Hw} {m : Msg}

/-- A message lands row by row, its rows are sealed and its arrival is noted (R145, R154). -/
theorem Hw.landMsg_lands {t : Nat} {rows : List (Nat × List SByte)} (hphys : h.physFor m.pid m.dst = some t)
    (hrows : rows = m.pieces.map fun p => (landAddr ((h.tile t).areasOf m.pid) m + 64 * p.idx, p.sbytes)) :
    h.landMsg m = ((rows.foldl (fun x r => x.wrSram t m.pid r.1 r.2) h).sealRows t m.pid rows).modTile t fun x =>
      { x with arrived := x.arrived ++ [(m.src, m.slot, m.got)]
               landed := x.landed ++ [⟨m.src, m.slot, m.pid, m.k, m.type == 1, m.got⟩] } := by
  simp only [Hw.landMsg, hphys, hrows]

/-- A `COMMIT` joins the area of its slot (R155). -/
theorem Hw.commitArrives_joins {t : Nat} (hphys : h.physFor m.pid m.dst = some t) :
    h.commitArrives m = h.modTile t fun x => { x with binds := x.binds.map fun y =>
      if y.pid = m.pid then { y with areas := y.areas.map fun a =>
        if a.slot = m.slot then { a with got := a.got ++ [(m.src, m.k, m.bytes, h.now)] } else a }
      else y } := by
  simp only [Hw.commitArrives, hphys, beq_iff_eq]

/-- A `RELEASE` frees the half that its producer owed (R156). -/
theorem Hw.releaseArrives_frees {t : Nat} (hphys : h.physFor m.pid m.dst = some t) :
    h.releaseArrives m = h.modTile t fun x => { x with owed := x.owed.map fun o =>
      if o.1 % 262144 = m.src + 1024 * m.pid ∧ o.2.1 = m.slot ∧ o.2.2.1 = m.k ∧ o.2.2.2 = none then
        (o.1, o.2.1, o.2.2.1, some h.now) else o } := by
  simp only [Hw.releaseArrives, hphys, Bool.and_eq_true, beq_iff_eq, Option.isNone_iff_eq_none, and_assoc]

/-! A message for a place that no tile serves is lost. -/

theorem Hw.landMsg_nowhere (hphys : h.physFor m.pid m.dst = none) : h.landMsg m = h := by
  simp only [Hw.landMsg, hphys]

theorem Hw.commitArrives_nowhere (hphys : h.physFor m.pid m.dst = none) : h.commitArrives m = h := by
  simp only [Hw.commitArrives, hphys]

theorem Hw.releaseArrives_nowhere (hphys : h.physFor m.pid m.dst = none) : h.releaseArrives m = h := by
  simp only [Hw.releaseArrives, hphys]

end

/-- What arrives at a router, in the words of the statement and as one expression. -/
theorem Hw.arrival_elim {h k : Hw} {l port : Nat} {a : Option FlitIn}
    (hk : k = (match a with | some x => h.arriveFlit l port x | none => h)) : a.elim h (h.arriveFlit l port) = k := by
  rw [hk]
  cases a <;> rfl

/-- Settles O40: each clause from the case of the router's step, or of the arrival, that its conditions select. -/
theorem meshMessages : Obligations.MeshMessages := by
  refine ⟨?_, ?_, ?_, ?_, fun h l o => ⟨Hw.serveOutput_unpicked, fun c p i f => Hw.serveOutput_picked⟩, Hw.outPick_turn,
    ?_, ?_, ?_, ?_, ?_, ?_, ?_, ?_, ?_, ?_, ?_, ?_, ?_, ?_⟩
  · intro s h l port a k hs hfabric hk hhead
    exact does_of_next (execFlitRoute l port a s) hs rfl rfl (Hw.flitStep_idle hfabric (Hw.arrival_elim hk) hhead)
  · intro s h l port a k f hs hfabric hk hhead
    exact does_of_next (execFlitRoute l port a s) hs rfl rfl (Hw.flitStep_serves hfabric (Hw.arrival_elim hk) hhead)
  · intro s h l port a hs hoff
    exact does_of_next (execFlitRoute l port a s) hs rfl rfl (Hw.flitStep_fabricOff hoff l port a)
  · intro h l port x f hf
    refine ⟨?_, ?_, ?_, ?_, Hw.arriveFlit_attach hf, Hw.arriveFlit_joins hf⟩
    · rintro hbad rfl
      exact (Hw.arriveFlit_bad hf hbad).trans (Hw.badFlit_local h l _)
    · intro hbad hport
      rw [Hw.arriveFlit_bad hf hbad, Hw.badFlit_elsewhere h l _ hport]
    · intro hgood hport hstamped
      rw [Hw.arriveFlit_local hf hgood hport, if_pos hstamped]
    · intro hgood hport hstamped
      rw [Hw.arriveFlit_local hf hgood hport, if_neg (by rw [hstamped]; decide)]
  · intro h l f
    refine ⟨fun m p => Hw.forward_within, fun m p d ds => Hw.forward_over, ?_, ?_, ?_, ?_⟩
    · intro hhop h7 hC
      rw [Hw.forward_station hhop, if_neg (not_or.mpr ⟨h7, hC⟩)]
    · intro hhop htype
      rw [Hw.forward_station hhop, if_pos htype]
    · intro hhop hlands
      rw [Hw.forward_here hhop, if_pos hlands]
    · intro hhop hgone
      rw [Hw.forward_here hhop, if_neg (by rw [hgone]; decide)]
  · intro l dst ty _ _
    exact ⟨hopOf_east ty, hopOf_west ty, hopOf_south ty, hopOf_north ty, fun hself => hself ▸ hopOf_self ty l⟩
  · intro s h src dst m k t rows hs hfabric htake hphys hrows
    rw [← Hw.landMsg_lands hphys hrows]
    exact does_dataMessageLanding hs hfabric htake
  · intro s h src dst m k t hs hfabric htake hphys
    rw [← Hw.commitArrives_joins hphys]
    exact does_commitNotice hs hfabric htake
  · intro s h src dst m k t hs hfabric htake hphys
    rw [← Hw.releaseArrives_frees hphys]
    exact does_releaseNotice hs hfabric htake
  · intro s h src dst m k hs hfabric htake hphys
    simpa only [Option.elim_some, Hw.landMsg_nowhere hphys] using does_dataMessageLanding hs hfabric htake
  · intro s h src dst m k hs hfabric htake hphys
    simpa only [Option.elim_some, Hw.commitArrives_nowhere hphys] using does_commitNotice hs hfabric htake
  · intro s h src dst m k hs hfabric htake hphys
    simpa only [Option.elim_some, Hw.releaseArrives_nowhere hphys] using does_releaseNotice hs hfabric htake
  · exact fun s h src dst k hs hfabric => does_dataMessageLanding hs hfabric
  · exact fun s h src dst k hs hfabric => does_commitNotice hs hfabric
  · exact fun s h src dst k hs hfabric => does_releaseNotice hs hfabric
  · exact fun s h src dst hs hoff => does_arrival_fabricOff hs hoff (.inl rfl)
  · exact fun s h src dst hs hoff => does_arrival_fabricOff hs hoff (.inr (.inl rfl))
  · exact fun s h src dst hs hoff => does_arrival_fabricOff hs hoff (.inr (.inr rfl))

end Sys2Proof.Machine

namespace Sys2Proof.Machine

/-! The tags of the flush accumulator (R119): under `tagJoin` NUM is the identity, NAN absorbs, and two tags that
differ, neither of them NUM, give NAN. -/

section
variable {a b : Nat}

@[simp] theorem tagJoin_num_left (b : Nat) : tagJoin 0 b = b := rfl

@[simp] theorem tagJoin_num_right (a : Nat) : tagJoin a 0 = a := by
  by_cases ha : a = 0 <;> simp [tagJoin, ha]

@[simp] theorem tagJoin_self (a : Nat) : tagJoin a a = a := by
  simp [tagJoin]

theorem tagJoin_of_ne (ha : a ≠ 0) (hb : b ≠ 0) (hab : a ≠ b) : tagJoin a b = 3 := by
  simp [tagJoin, ha, hb, hab]

theorem tagJoin_comm (a b : Nat) : tagJoin a b = tagJoin b a := by
  rcases eq_or_ne a 0 with rfl | ha
  · simp
  rcases eq_or_ne b 0 with rfl | hb
  · simp
  rcases eq_or_ne a b with rfl | hab
  · rfl
  · rw [tagJoin_of_ne ha hb hab, tagJoin_of_ne hb ha hab.symm]

@[simp] theorem tagJoin_nan_right (a : Nat) : tagJoin a 3 = 3 := by
  rcases eq_or_ne a 0 with rfl | ha
  · rfl
  rcases eq_or_ne a 3 with rfl | hne
  · rfl
  · exact tagJoin_of_ne ha (by decide) hne

@[simp] theorem tagJoin_nan_left (b : Nat) : tagJoin 3 b = 3 := by
  rw [tagJoin_comm, tagJoin_nan_right]

/-- A tag joined before adds nothing when it is joined again. -/
theorem tagJoin_tagJoin_self (a b : Nat) : tagJoin a (tagJoin a b) = tagJoin a b := by
  rcases eq_or_ne a 0 with rfl | ha
  · simp
  rcases eq_or_ne b 0 with rfl | hb
  · simp
  rcases eq_or_ne a b with rfl | hab
  · simp
  · rw [tagJoin_of_ne ha hb hab, tagJoin_nan_right]

theorem tagJoin_assoc (a b c : Nat) : tagJoin (tagJoin a b) c = tagJoin a (tagJoin b c) := by
  rcases eq_or_ne a 0 with rfl | ha
  · simp
  rcases eq_or_ne b 0 with rfl | hb
  · simp
  rcases eq_or_ne c 0 with rfl | hc
  · simp
  rcases eq_or_ne a b with rfl | hab
  · rw [tagJoin_self, tagJoin_tagJoin_self]
  rcases eq_or_ne b c with rfl | hbc
  · rw [tagJoin_self, tagJoin_comm, tagJoin_comm a, tagJoin_tagJoin_self]
  · rw [tagJoin_of_ne ha hb hab, tagJoin_of_ne hb hc hbc, tagJoin_nan_left, tagJoin_nan_right]

/-- The join is NAN exactly for a tag NAN or for the two infinities of opposite sign (R119). -/
theorem tagJoin_eq_nan_iff (ha : a < 4) (hb : b < 4) :
    tagJoin a b = 3 ↔ a = 3 ∨ b = 3 ∨ (a = 1 ∧ b = 2) ∨ (a = 2 ∧ b = 1) := by
  rcases eq_or_ne a 0 with rfl | ha0
  · simp
  rcases eq_or_ne b 0 with rfl | hb0
  · simp
  rcases eq_or_ne a b with rfl | hab
  · rw [tagJoin_self]
    omega
  · rw [tagJoin_of_ne ha0 hb0 hab]
    omega

end

section
variable (lam : Int) (x : Acc)

theorem Acc.addTerm_nan : (x.addTerm lam .nan).1 = ⟨x.a, tagJoin x.tag 3⟩ := by
  rw [tagJoin_nan_right, Acc.addTerm]

theorem Acc.addTerm_inf (s : Bool) : (x.addTerm lam (.inf s)).1 = ⟨x.a, tagJoin x.tag (if s then 2 else 1)⟩ := rfl

end

/-- Settles O53: the tags form a semilattice with least element NUM and greatest NAN, in which the two infinities do
not compare. -/
theorem accumulatorTags : Obligations.AccumulatorTags := by
  refine ⟨?_, ?_, fun a b c _ _ _ => tagJoin_assoc a b c⟩
  · rintro lam x v t - (⟨rfl, rfl⟩ | ⟨rfl, rfl⟩ | ⟨rfl, rfl⟩)
    · exact x.addTerm_nan lam
    · exact x.addTerm_inf lam false
    · exact x.addTerm_inf lam true
  · intro a b ha hb
    refine ⟨tagJoin_eq_nan_iff ha hb, ?_, ?_, ?_, tagJoin_comm a b⟩
    · rintro rfl
      exact tagJoin_num_left b
    · rintro rfl
      exact tagJoin_num_right a
    · rintro rfl
      exact tagJoin_self a

end Sys2Proof.Machine

namespace Sys2Proof.Machine

/-! The upkeep of DRAM (R412 to R433): each row acts under its own conditions, and under no others. -/

section
variable {h : Hw}

/-- The hairline counters have leaked in this stroke already (R424). -/
theorem Hw.leak_done (hdone : h.now ≤ h.sys.dram.leakAt) : h.leak = h := if_pos hdone

/-- The first leak of a stroke: both kinds of counters leak as the stroke's number says, and `leakAt` notes it (R424). -/
theorem Hw.leak_due {a b : Hw} (hdue : h.sys.dram.leakAt < h.now)
    (ha : a = if h.now % 2 ^ h.get F.ECC_HAIR_CH_LEAK = 0 then
      (List.range 64).foldl (fun x c => x.leakOne (F.ECC_CH_LEVEL_LEVEL.nth c)) h else h)
    (hb : b = if h.now % 2 ^ h.get F.ECC_HAIR_TILE_LEAK = 0 then
      (List.range 1152).foldl (fun x t => x.leakOne (F.ECC_TILE_LEVEL_LEVEL.nth t)) a else a) :
    h.leak = b.modDram fun d => { d with leakAt := b.now } := by
  subst hb ha
  rw [Hw.leak, if_neg (Nat.not_le.mpr hdue)]
  simp only [beq_iff_eq]

/-- Retraining waits for the start of a QUIET window (R413). -/
theorem Hw.retrain_idle (hidle : h.fabricOn = false ∨ (h.stn.active.wins.any fun w =>
    (h.stn.active.winAct w).kind == 1 && decide (w.start = h.coatPos)) = false) : h.retrain = h :=
  if_pos (by simpa only [Bool.or_eq_true, Bool.not_eq_true'] using hidle)

/-- At the start of a QUIET window the channels that are due begin to retrain (R413). -/
theorem Hw.retrain_begins (hfabric : h.fabricOn = true) (hstarts : (h.stn.active.wins.any fun w =>
    (h.stn.active.winAct w).kind == 1 && decide (w.start = h.coatPos)) = true) :
    h.retrain = (List.range 64).foldl (fun x c =>
      if (x.on (F.MC_STATUS_TRAIN_DUE.blk c) && x.get (F.MC_STATUS_STATE.blk c) == 1 &&
          ! (x.sys.dram.retiring.any fun r => r.channel == c)) = true then
        (x.put (F.MC_STATUS_STATE.blk c) 2).modDram fun d => { d with trainAt := d.trainAt.put c x.now }
      else x) h :=
  if_neg (by rw [hfabric, hstarts]; decide)

end

section
variable {s : State} {h : Hw} {c : Fin 64} (hs : s.hw = h)
include hs

theorem does_scrubRewrite_idle
    (hidle : h.sys.dram.scrub.find? (fun e => channelOf (h.mem.place (e.1 * 64)) == c.val) = none ∨ h.quiet = true ∨
      h.chAlive c.val = false) : Does (.scrubRewrite c) s fun x => x = h := by
  refine does_of_next (execScrubRewrite c s) hs rfl rfl ?_
  cases hfind : h.sys.dram.scrub.find? fun e => channelOf (h.mem.place (e.1 * 64)) == c.val with
  | none => rfl
  | some e => exact if_pos (by simpa [hfind] using hidle)

/-- The oldest line on the channel's scrub queue is rewritten and leaves the queue (R418). -/
theorem does_scrubRewrite_rewrites {e : Nat × Nat}
    (hfind : h.sys.dram.scrub.find? (fun e => channelOf (h.mem.place (e.1 * 64)) == c.val) = some e)
    (hquiet : h.quiet = false) (halive : h.chAlive c.val = true) : Does (.scrubRewrite c) s fun x =>
      x = (h.rewriteLine e.1).modDram fun d => { d with scrub := d.scrub.filter fun x => x.1 ≠ e.1 } := by
  refine does_of_next (execScrubRewrite c s) hs rfl rfl ?_
  simp only [hfind]
  exact if_neg (by rw [hquiet, halive]; decide)

theorem does_patrolRead_idle {u : LineUpset}
    (hidle : h.patrolRuns = false ∨ h.chRetired c.val = true ∨ h.sys.dram.patrolled.contains c.val = true) :
    Does (.patrolRead c u) s fun x => x = h :=
  does_of_next (execPatrolRead c u s) hs rfl rfl
    (if_pos (by simpa only [Bool.or_eq_true, Bool.not_eq_true', or_assoc] using hidle))

/-- The patrol on a channel in service, in a pass that has not ended there: it reads the next line, or ends the
channel's pass (R423). -/
theorem does_patrolRead {u : LineUpset} (hruns : h.patrolRuns = true) (hserves : h.chRetired c.val = false)
    (hopen : h.sys.dram.patrolled.contains c.val = false) : Does (.patrolRead c u) s fun x =>
      x = match h.patrolNext c.val (h.sys.dram.patrol.getD 0 c.val) with
        | some l => ((h.upsetLine l u).patrolLine l).modDram fun d => { d with patrol := d.patrol.put c.val (l + 1) }
        | none => (h.modDram fun d => { d with patrolled := NSet.add d.patrolled c.val }).patrolPass :=
  does_of_next (execPatrolRead c u s) hs rfl rfl (if_neg (by rw [hruns, hserves, hopen]; decide))

theorem does_patrolLate_idle
    (hidle : h.fabricOn = false ∨ h.sys.dram.lateRaised = true ∨ h.now ≤ h.sys.dram.passAt + 32000000) :
    Does .patrolLate s fun x => x = h := by
  refine does_of_next (execPatrolLate s) hs rfl rfl (if_neg ?_)
  simp only [Bool.and_eq_true, Bool.not_eq_true', decide_eq_true_eq]
  rintro ⟨⟨hfabric, honce⟩, hlate⟩
  simp only [hfabric, honce, Bool.true_eq_false, Bool.false_eq_true, false_or] at hidle
  omega

theorem does_patrolLate_raises (hfabric : h.fabricOn = true) (honce : h.sys.dram.lateRaised = false)
    (hlate : h.sys.dram.passAt + 32000000 < h.now) : Does .patrolLate s fun x =>
      x = ((h.put F.ECC_INT_STATUS_PATROL_LATE 1).event srcEcc 0x0109 0 0).modDram fun d =>
        { d with lateRaised := true } :=
  does_of_next (execPatrolLate s) hs rfl rfl (if_pos (by rw [hfabric, honce, decide_eq_true hlate]; rfl))

theorem does_hairlineLeak {h' : Hw} (hleak : (if h.fabricOn = true then h.leak else h) = h') :
    Does .hairlineLeak s fun x => x = h' :=
  does_of_next (execHairlineLeak s) hs rfl rfl hleak

theorem does_retraining {h' : Hw} (hretrain : h.retrain = h') : Does .retraining s fun x => x = h' :=
  does_of_next (execRetraining s) hs rfl rfl hretrain

theorem does_trainingComplete_idle {a b : LaneSweep}
    (hidle : ∀ t0, h.sys.dram.trainAt.find c.val = some t0 → h.fabricOn = false ∨ h.now < t0 + 32) :
    Does (.trainingComplete c a b) s fun x => x = h := by
  refine does_of_next (execTrainingComplete c a b s) hs rfl rfl ?_
  cases hfind : h.sys.dram.trainAt.find c.val with
  | none => rfl
  | some t0 =>
    exact if_pos (by simpa only [Bool.or_eq_true, Bool.not_eq_true', decide_eq_true_eq] using hidle t0 hfind)

/-- After 32 strokes a channel whose training found a choice on both lanes is in service; one without begins to retire
(R412, R414). -/
theorem does_trainingComplete_ends {a b : LaneSweep} {t0 : Nat} {ok : Bool} {k : Hw} (hfabric : h.fabricOn = true)
    (hfind : h.sys.dram.trainAt.find c.val = some t0) (hends : t0 + 32 ≤ h.now)
    (htrain : h.trainChannel c.val a b = (ok, k)) : Does (.trainingComplete c a b) s fun x =>
      x = if ok = true then k.put (F.MC_STATUS_STATE.blk c.val) 1
        else (k.put (F.MC_STATUS_STATE.blk c.val) 1).startRetire c.val 1 none := by
  have hdue : ¬ ((! h.fabricOn || decide (h.now < t0 + 32)) = true) := by
    rw [hfabric, decide_eq_false (Nat.not_lt.mpr hends)]
    decide
  refine does_of_next (execTrainingComplete c a b s) hs rfl rfl ?_
  simp only [hfind, if_neg hdue, htrain]
  cases ok <;> rfl

theorem does_stripeRebuild_idle
    (hidle : h.fabricOn = false ∨ h.quiet = true ∨ h.sys.dram.rebuild.isEmpty = true) :
    Does .stripeRebuild s fun x => x = h :=
  does_of_next (execStripeRebuild s) hs rfl rfl
    (if_pos (by simpa only [Bool.or_eq_true, Bool.not_eq_true', or_assoc] using hidle))

section
variable (hfabric : h.fabricOn = true) (hquiet : h.quiet = false) (hrebuild : h.sys.dram.rebuild.isEmpty = false)
include hfabric hquiet hrebuild

/-- No stripe is left at the place of the rebuild, which ends (R433). -/
theorem does_stripeRebuild_none (hnone : h.stripeFrom (h.get F.ECC_REBUILD_POS) = none) :
    Does .stripeRebuild s fun x =>
      x = (h.put F.ECC_REBUILD_POS 0xFFFF_FFFF_FFFF).modDram fun d => { d with rebuild := [] } := by
  refine does_of_next (execStripeRebuild s) hs rfl rfl ((if_neg ?_).trans ?_)
  · rw [hfabric, hquiet, hrebuild]
    decide
  · simp only [hnone]

/-- The next stripe is rebuilt, and the place moves to the stripe after it or, after the last one, the rebuild ends
(R433). -/
theorem does_stripeRebuild_stripe {x : StripeAt} {a : Hw}
    (hstripe : h.stripeFrom (h.get F.ECC_REBUILD_POS) = some x)
    (ha : a = (h.rebuildStripe x).put F.ECC_REBUILD_POS (x.base + 1)) : Does .stripeRebuild s fun k =>
      k = ((a.stripeFrom (x.base + 1)).elim
        ((a.put F.ECC_REBUILD_POS 0xFFFF_FFFF_FFFF).modDram fun d => { d with rebuild := [] })
        fun y => a.put F.ECC_REBUILD_POS y.base).countStripes h.lostStripes := by
  subst ha
  refine does_of_next (execStripeRebuild s) hs rfl rfl ((if_neg ?_).trans ?_)
  · rw [hfabric, hquiet, hrebuild]
    decide
  · simp only [hstripe]
    cases ((h.rebuildStripe x).put F.ECC_REBUILD_POS (x.base + 1)).stripeFrom (x.base + 1) <;> rfl

end

theorem does_edgeModuleLost_idle {e : Fin 6} (hidle : h.fabricOn = false ∨ h.edgeModules e.val = 0) :
    Does (.edgeModuleLost e) s fun x => x = h :=
  does_of_next (execEdgeModuleLost e s) hs rfl rfl
    (if_pos (by simpa only [Bool.or_eq_true, Bool.not_eq_true', decide_eq_true_eq] using hidle))

/-- An edge goes on with one module less; the loss of a second is a die fault of the dies at its ends (R153). -/
theorem does_edgeModuleLost_loses {e : Fin 6} {n : Nat} {a b : Hw} (hfabric : h.fabricOn = true)
    (hn : n = h.edgeModules e.val) (hsome : 0 < n)
    (ha : a = { h with fab := { h.fab with modules := h.fab.modules.put e.val (n - 1) } })
    (hb : b = (a.event (srcEdge (2 * e.val)) 0x050A 0 (n - 1)).healthAdd (partEdge e.val) inEdgeLost 1) :
    Does (.edgeModuleLost e) s fun x => x = if n + 1 ≤ (if e.val < 4 then 6 else 4) then
      (edgeDies e.val).foldl (fun x d => x.dieFault d 1) b else b := by
  subst hb ha hn
  refine does_of_next (execEdgeModuleLost e s) hs rfl rfl (if_neg ?_)
  rw [hfabric, decide_eq_false (Nat.pos_iff_ne_zero.mp hsome)]
  decide

end

/-- Settles O38: each row of the upkeep of DRAM, by the case that its conditions select. -/
theorem dramMaintenance : Obligations.DramMaintenance := by
  refine ⟨?_, ?_, ?_, ?_, ?_, ?_, ?_, ?_, ?_, ?_, ?_, ?_, ?_, ?_, ?_, ?_, ?_, ?_, ?_, ?_, ?_, ?_, ?_, ?_⟩
  · intro s h c hs halive
    exact does_of_next (execRefresh c s) hs rfl rfl (if_pos halive)
  · intro s h c hs hdead
    exact does_of_next (execRefresh c s) hs rfl rfl (if_neg (Bool.eq_false_iff.mp hdead))
  · exact fun s h c hs => does_scrubRewrite_idle hs
  · exact fun s h c e hs => does_scrubRewrite_rewrites hs
  · intro s h c u l hs hruns hserves hopen hnext
    simpa only [hnext] using does_patrolRead (u := u) hs hruns hserves hopen
  · intro s h c u hs hruns hserves hopen hnext
    simpa only [hnext] using does_patrolRead (u := u) hs hruns hserves hopen
  · exact fun s h c u hs => does_patrolRead_idle hs
  · exact fun s h hs => does_patrolLate_raises hs
  · exact fun s h hs => does_patrolLate_idle hs
  · intro s h a b hs hfabric hdue ha hb
    exact does_hairlineLeak hs ((if_pos hfabric).trans (Hw.leak_due hdue ha hb))
  · rintro s h hs (hoff | hdone)
    · exact does_hairlineLeak hs (if_neg (Bool.eq_false_iff.mp hoff))
    · exact does_hairlineLeak hs (by rw [Hw.leak_done hdone, ite_self])
  · exact fun s h hs hfabric hstarts => does_retraining hs (Hw.retrain_begins hfabric hstarts)
  · exact fun s h hs hidle => does_retraining hs (Hw.retrain_idle hidle)
  · exact fun s h c a b hs => does_trainingComplete_idle hs
  · exact fun s h c a b t0 k hs => does_trainingComplete_ends (ok := true) hs
  · exact fun s h c a b t0 k hs => does_trainingComplete_ends (ok := false) hs
  · intro s h stripe hs hfabric hquiet
    exact does_of_next (execStripeWriteDurable stripe s) hs rfl rfl (if_pos (by rw [hfabric, hquiet]; rfl))
  · intro s h stripe hs hidle
    exact does_of_next (execStripeWriteDurable stripe s) hs rfl rfl (if_neg (by rcases hidle with h | h <;> simp [h]))
  · exact fun s h hs => does_stripeRebuild_idle hs
  · intro s h x a hs hfabric hquiet hrebuild hstripe ha hlast
    simpa only [hlast, Option.elim_none] using does_stripeRebuild_stripe hs hfabric hquiet hrebuild hstripe ha
  · exact fun s h e hs => does_edgeModuleLost_idle hs
  · exact fun s h hs => does_stripeRebuild_none hs
  · intro s h x y a hs hfabric hquiet hrebuild hstripe ha hnext
    simpa only [hnext, Option.elim_some] using does_stripeRebuild_stripe hs hfabric hquiet hrebuild hstripe ha
  · exact fun s h e n a b hs => does_edgeModuleLost_loses hs

end Sys2Proof.Machine

namespace Sys2Proof.Machine

/-! The memory stations and their arbiters (R151, R417, R431 to R440). -/

/-! A request at a station (R151). -/

section
variable {h : Hw} {c : Nat} {r : MemReq}

theorem Hw.joinMem_full (hfull : 8 ≤ (h.fab.stationQ.getD [] (c * 256 + r.pid)).length) :
    h.joinMem c r = { h with fab := { h.fab with retryMarks := h.fab.retryMarks ++ [r] } } := if_pos hfull

theorem Hw.joinMem_room (hroom : (h.fab.stationQ.getD [] (c * 256 + r.pid)).length < 8) :
    h.joinMem c r = { h with fab := { h.fab with
      stationQ := h.fab.stationQ.mod [] (c * 256 + r.pid) (· ++ [r]) } } := if_neg (Nat.not_le.mpr hroom)

theorem Hw.arriveMem_elsewhere (hbad : h.stationOk c r = false) : h.arriveMem c r =
    h.event (srcTile (h.routerTile (channelTile c))) 0x0209 r.pid (if r.write then 4 else 3) :=
  if_pos (by rw [hbad]; rfl)

variable (hok : h.stationOk c r = true)
include hok

/-- A request that is for the station: whether its channel is retired comes first, then what its tile has outstanding. -/
theorem Hw.arriveMem_here : h.arriveMem c r =
    if h.chRetired c = true then { h with fab := { h.fab with responses := h.fab.responses ++ [r.retired] } }
    else if r.src < 1024 ∧ 8 ≤ (h.stationLoad c r.src).length then
      { h with fab := { h.fab with heldBack := h.fab.heldBack ++ [r] } }
    else h.joinMem c r :=
  if_neg (by rw [hok]; decide)

theorem Hw.arriveMem_retired (hretired : h.chRetired c = true) :
    h.arriveMem c r = { h with fab := { h.fab with responses := h.fab.responses ++ [r.retired] } } := by
  rw [Hw.arriveMem_here hok, if_pos hretired]

variable (hserves : h.chRetired c = false)
include hserves

theorem Hw.arriveMem_heldBack (htile : r.src < 1024) (hload : 8 ≤ (h.stationLoad c r.src).length) :
    h.arriveMem c r = { h with fab := { h.fab with heldBack := h.fab.heldBack ++ [r] } } := by
  rw [Hw.arriveMem_here hok, if_neg (Bool.eq_false_iff.mp hserves), if_pos ⟨htile, hload⟩]

theorem Hw.arriveMem_joins (hfree : 1024 ≤ r.src ∨ (h.stationLoad c r.src).length < 8) :
    h.arriveMem c r = h.joinMem c r := by
  rw [Hw.arriveMem_here hok, if_neg (Bool.eq_false_iff.mp hserves), if_neg (by omega)]

end

/-! What a grant leaves of its arbiter (R437, R439, R441). -/

/-- Raising events and counting errors leaves the arbiters alone. -/
theorem Hw.arb_of_mute {a b : Hw} (e : a.mute = b.mute) (i : Nat) : a.arb i = b.arb i := by
  have harb : a.mute.arb i = b.mute.arb i := by rw [e]
  exact harb

@[simp] theorem Hw.modArb_arb_same (h : Hw) (i : Nat) (f : Arb → Arb) : (h.modArb i f).arb i = f (h.arb i) := by
  simp only [Hw.modArb, Hw.arb, SMap.mod, SMap.getD_put, if_true]

@[simp] theorem Hw.starve_arb (h : Hw) (i p j : Nat) : (h.starve i p).arb j = h.arb j :=
  Hw.arb_of_mute (by rw [Hw.starve, Hw.mute_event, Hw.mute_put, Hw.mute_put]) j

/-- Noting a grant keeps the bursts granted. -/
@[simp] theorem Hw.noteGrant_granted (h : Hw) (i r : Nat) (el : List Nat) (pidOf : Nat → Nat) (hint : Nat) :
    ((h.noteGrant i r el pidOf hint).arb i).granted = (h.arb i).granted := by
  have hstarve : ∀ (l : List Nat) (k : Hw), (l.foldl (fun k x =>
      if (k.arb i).waiting.getD 0 x = k.starveAt i + 1 then k.starve i (pidOf x) else k) k).arb i = k.arb i := by
    refine foldl_keeps (fun k : Hw => k.arb i) _ fun k x => ?_
    split
    · exact Hw.starve_arb k i (pidOf x) i
    · rfl
  unfold Hw.noteGrant
  dsimp only
  split
  · rw [Hw.arb_of_mute (Hw.mute_traceAdd _ _ _ _), hstarve, Hw.modArb_arb_same]
  · rw [hstarve, Hw.modArb_arb_same]

@[simp] theorem Hw.useSlots_granted (h : Hw) (i n : Nat) : ((h.useSlots i n).arb i).granted = (h.arb i).granted := by
  rw [Hw.useSlots, Hw.modArb_arb_same]

/-- A pick moves the ring and keeps the bursts granted. -/
theorem Arb.pick_granted {a a' : Arb} {el : List Nat} {weight : Nat → Nat} {r : Nat}
    (hpick : a.pick el weight = some (r, a')) : a'.granted = a.granted := by
  unfold Arb.pick at hpick
  split at hpick
  · cases hpick
    rfl
  · split at hpick
    · cases hpick
      rfl
    · cases hpick

/-- When every waiter of a port has its tokens, no budget is noted as exhausted. -/
theorem Hw.noteExhausted_none (h : Hw) (ws : List Nat) (d : Nat) :
    ws.foldl (fun x p => if ws.contains p = true then x else x.noteExhausted p d) h = h := by
  refine (List.foldl_ext _ (fun x _ => x) h fun x p hp => ?_).trans (List.foldl_fixed ws)
  rw [if_pos (List.contains_iff_mem.mpr hp)]

/-- A grant of a memory port adds the first burst of the first request of the partition that the ring picks (R409,
R438). -/
theorem Hw.grantPort_granted {h : Hw} {c p : Nat} {r : MemReq} {a : Arb}
    (htokens : (h.portWaiters c).all (fun x => h.portEligible c x) = true) (hstate : h.get (F.MC_STATUS_STATE.blk c) = 1)
    (hslots : h.slotsUsed c < h.portSlots) (hpick : (h.arb c).pick (h.portWaiters c) h.portWeight = some (p, a))
    (hhead : h.portHead c p = some r) :
    ((h.grantPort c).arb c).granted = (h.arb c).granted ++ [r.burst.1] := by
  have hall : (h.portWaiters c).filter (h.portEligible c) = h.portWaiters c :=
    List.filter_eq_self.mpr (List.all_eq_true.mp htokens)
  have hserves : ¬ (h.get (F.MC_STATUS_STATE.blk c) ≠ 1 ∨ h.portSlots ≤ h.slotsUsed c) := by omega
  unfold Hw.grantPort
  simp only [hall, Hw.noteExhausted_none, if_neg hserves, hpick, hhead, Hw.useSlots_granted, Hw.noteGrant_granted]
  rw [← Arb.pick_granted hpick]
  exact congrArg Arb.granted (Hw.modArb_arb_same _ c _)

/-! A burst (R416, R417, R420). -/

/-- The stripes lost before are read only when the line takes errors, which is when they count. -/
theorem Hw.countStripes_unless (b : Hw) (clean : Bool) (lost : List Nat) :
    (if clean = true then b else b.countStripes (if clean = true then [] else lost)) =
      if clean = true then b else b.countStripes lost := by
  cases clean <;> rfl

section
variable {c : Nat} {u : LineUpset} {r : MemReq} {rs : List MemReq} {a b d k : Hw}
  (hgranted : (a.arb c).granted = r :: rs)
  (hb : b = (a.modArb c fun x => { x with granted := rs }).upsetLine (r.addr / 64) u)
  (hd : d = if u.errors.isEmpty = true then b else b.countStripes a.lostStripes)
include hgranted hb hd

/-- A burst that reads is answered with the bytes and the stain of its line. -/
theorem Hw.serveBurst_read {bs : List Byte} {sd : Bool} (hread : r.write = false)
    (hk : d.portRead r.pid r.addr r.len = (bs, sd, k)) : a.serveBurst c u =
      ((({ k with fab := { k.fab with
        responses := k.fab.responses ++ [{ r with data := bs, stain := sd }] } } : Hw).sendHeld c).showFrozen
          c).settleUnmaps := by
  simp only [Hw.serveBurst, hgranted, Hw.countStripes_unless, ← hb, ← hd, hread, hk, Bool.false_eq_true, if_false]

/-- A burst that writes is acknowledged. -/
theorem Hw.serveBurst_write (hwrite : r.write = true) (hk : k = d.portWrite r.pid r.addr r.data r.stain) :
    a.serveBurst c u = ((({ k with fab := { k.fab with
        responses := k.fab.responses ++ [{ r with data := [], stain := false }] } } : Hw).sendHeld c).showFrozen
          c).settleUnmaps := by
  simp only [Hw.serveBurst, hgranted, Hw.countStripes_unless, ← hb, ← hd, ← hk, hwrite, if_true]

end

section
variable {s : State} {h : Hw} (hs : s.hw = h)
include hs

theorem does_memRequestArrival {c : Fin 64} {m : MemMsg} {r : MemReq} {g h' : Hw} (hfabric : h.fabricOn = true)
    (hr : r = { src := m.src.val, pid := m.pid.val, tag := m.tag.toNat, write := m.write, addr := m.addr.toNat,
                len := m.len.val, data := m.data, stain := m.stain })
    (hg : g = h.takeRequest c.val r) (harrive : g.arriveMem c.val r = h') :
    Does (.memRequestArrival c m) s fun x => x = h' := by
  subst harrive hg hr
  exact does_of_next (execMemRequestArrival c m s) hs rfl rfl (if_pos hfabric)

theorem does_arbitrationPhase_idle {i : Fin 78} {ops : ArbInput}
    (hidle : h.fabricOn = false ∨ (h.arb i.val).freeze.isSome = true) :
    Does (.arbitrationPhase i ops) s fun x => x = h :=
  does_of_next (execArbitrationPhase i ops s) hs rfl rfl
    (if_pos (by simpa only [Bool.or_eq_true, Bool.not_eq_true'] using hidle))

/-- A phase of an arbiter that is not frozen: a memory port, an edge, the store or the fetch (R438, R440). -/
theorem does_arbitrationPhase {i : Fin 78} {ops : ArbInput} {h' : Hw} (hfabric : h.fabricOn = true)
    (hfree : (h.arb i.val).freeze = none)
    (hphase : (if i.val < 64 then (h.grantPort i.val).flushTrace
      else if i.val < 76 then (h.grantEdge (i.val - 64) ops.retries.val).flushTrace
      else if i.val = 76 then (h.storeRound ops.ops).flushTrace
      else h.grantFetch.flushTrace) = h') : Does (.arbitrationPhase i ops) s fun x => x = h' :=
  does_of_next (execArbitrationPhase i ops s) hs rfl rfl ((if_neg (by rw [hfabric, hfree]; decide)).trans hphase)

theorem does_memoryBurst_idle {c : Fin 64} {u : LineUpset} {act : Bool}
    (hidle : h.fabricOn = false ∨ (h.arb c.val).granted = []) : Does (.memoryBurst c u act) s fun x => x = h :=
  does_of_next (execMemoryBurst c u act s) hs rfl rfl
    (if_pos (by simpa only [Bool.or_eq_true, Bool.not_eq_true', List.isEmpty_iff] using hidle))

/-- A burst that was granted, after the neighbour refresh of a row that it activates (R416). -/
theorem does_memoryBurst {c : Fin 64} {u : LineUpset} {act : Bool} {a h' : Hw} (hfabric : h.fabricOn = true)
    (hsome : (h.arb c.val).granted ≠ []) (ha : a = if act = true then h.neighbourRefresh c.val else h)
    (hburst : a.serveBurst c.val u = h') : Does (.memoryBurst c u act) s fun x => x = h' := by
  subst hburst ha
  exact does_of_next (execMemoryBurst c u act s) hs rfl rfl
    (if_neg (by rw [hfabric, List.isEmpty_eq_false_iff.mpr hsome]; decide))

theorem does_channelRetirement {c : Fin 64} {h' : Hw}
    (hretire : (if h.fabricOn = true then h.completeRetire c.val else h) = h') :
    Does (.channelRetirement c) s fun x => x = h' :=
  does_of_next (execChannelRetirement c s) hs rfl rfl hretire

end

/-! The end of a retirement (R431, R432). -/

section
variable {h : Hw} {c : Nat}

theorem Hw.completeRetire_none (hnone : h.sys.dram.retiring.find? (fun r => r.channel == c) = none) :
    h.completeRetire c = h := by
  simp only [Hw.completeRetire, hnone]

variable {r : Retiring} (hfind : h.sys.dram.retiring.find? (fun r => r.channel == c) = some r)
include hfind

theorem Hw.completeRetire_early (hearly : h.now < r.at_ + 3) : h.completeRetire c = h := by
  simp only [Hw.completeRetire, hfind, if_pos hearly]

/-- A retirement that is 3 strokes old ends: the channel reads as retired, with its cause. -/
theorem Hw.completeRetire_ends {l : List Retiring × List Retiring} {a b d e g : Hw} (hends : r.at_ + 3 ≤ h.now)
    (hl : l = h.sys.dram.retiring.partition fun r => r.channel == c)
    (ha : a = h.modDram fun d =>
      { d with retiring := l.2, scrub := d.scrub.filter fun e => h.mem.channelAt (e.1 * 64) ≠ c })
    (hb : b = (((a.put (F.MC_STATUS_STATE.blk c) 3).put (F.MC_STATUS_CAUSE.blk c) r.cause).put
      (F.MC_STATUS_TRAIN_DUE.blk c) 0).put (F.MC_INT_STATUS_RETIRED.blk c) 1)
    (hd : d = (((((b.put (F.ECC_RETIRED_CH.bit c) 1).put (F.ECC_STATUS_DEV_DEGRADED.bit (c / 8)) 1).event
      (srcChannel c) 0x0105 0 r.cause).loseDurable c).answerRetired c))
    (he : e = l.1.foldl (fun h r => match r.cmd with | some (p, q, n) => h.finishAt p q n 0 0 0 {} | none => h) d)
    (hg : g = if 3 ≤ countNat 8 (fun m => e.chRetired (8 * (c / 8) + m)) then e.loseDevice (c / 8) else e) :
    h.completeRetire c = g.countStripes h.lostStripes := by
  subst hg he hd hb ha hl
  simp only [Hw.completeRetire, hfind]
  exact if_neg (Nat.not_lt.mpr hends)

end

/-- Settles O39: each clause from the case of the station, of the arbiter or of the burst that its conditions select. -/
theorem memoryRequests : Obligations.MemoryRequests := by
  refine ⟨?_, ?_, ?_, ?_, ?_, ?_, ?_, ?_, ?_, ?_, ?_, ?_, ?_, ?_, ?_, ?_, ?_, ?_⟩
  · intro s h c m r g hs hfabric hr hg hbad
    exact does_memRequestArrival hs hfabric hr hg (Hw.arriveMem_elsewhere hbad)
  · intro s h c m r g hs hfabric hr hg hok hretired
    exact does_memRequestArrival hs hfabric hr hg (Hw.arriveMem_retired hok hretired)
  · intro s h c m r g hs hfabric hr hg hok hserves htile hload
    exact does_memRequestArrival hs hfabric hr hg (Hw.arriveMem_heldBack hok hserves htile hload)
  · intro s h c m r g hs hfabric hr hg hok hserves hfree hfull
    exact does_memRequestArrival hs hfabric hr hg ((Hw.arriveMem_joins hok hserves hfree).trans (Hw.joinMem_full hfull))
  · intro s h c m r g hs hfabric hr hg hok hserves hfree hroom
    exact does_memRequestArrival hs hfabric hr hg ((Hw.arriveMem_joins hok hserves hfree).trans (Hw.joinMem_room hroom))
  · intro s h c m hs hoff
    exact does_of_next (execMemRequestArrival c m s) hs rfl rfl (if_neg (Bool.eq_false_iff.mp hoff))
  · intro s h i ops hs hfabric hfree hport
    exact does_arbitrationPhase hs hfabric hfree (if_pos hport)
  · intro s h i ops hs hfabric hfree hlo hhi
    exact does_arbitrationPhase hs hfabric hfree (by rw [if_neg (by omega), if_pos hhi])
  · intro s h i ops hs hfabric hfree hstore
    exact does_arbitrationPhase hs hfabric hfree (by rw [if_neg (by omega), if_neg (by omega), if_pos hstore])
  · intro s h i ops hs hfabric hfree hfetch
    exact does_arbitrationPhase hs hfabric hfree (by rw [if_neg (by omega), if_neg (by omega), if_neg (by omega)])
  · exact fun s h i ops hs => does_arbitrationPhase_idle hs
  · rintro h c p r el a - htokens rfl hstate hslots hpick hhead
    exact Hw.grantPort_granted htokens hstate hslots hpick hhead
  · exact fun s h c u act hs => does_memoryBurst_idle hs
  · intro s h c u act r rs a b d k bs sd hs hfabric hsome ha hgranted hb hd hread hk
    exact does_memoryBurst hs hfabric hsome ha (Hw.serveBurst_read hgranted hb hd hread hk)
  · intro s h c u act r rs a b d k hs hfabric hsome ha hgranted hb hd hwrite hk
    exact does_memoryBurst hs hfabric hsome ha (Hw.serveBurst_write hgranted hb hd hwrite hk)
  · rintro s h c hs (hoff | ⟨r, hfind, hearly⟩)
    · exact does_channelRetirement hs (if_neg (Bool.eq_false_iff.mp hoff))
    · exact does_channelRetirement hs (by rw [Hw.completeRetire_early hfind hearly, ite_self])
  · intro s h c hs hfabric hnone
    exact does_channelRetirement hs ((if_pos hfabric).trans (Hw.completeRetire_none hnone))
  · intro s h c r l a b d e g hs hfabric hfind hends hl ha hb hd he hg
    exact does_channelRetirement hs ((if_pos hfabric).trans (Hw.completeRetire_ends hfind hends hl ha hb hd he hg))

end Sys2Proof.Machine

namespace Sys2Proof.Machine

open Sys2Proof

/-! Memory keeps its canonical form (R170, R422): `h.Canon` for the hardware, `Keeps` for a computation of a tile. Each
function of the model has one lemma that says that it leaves canonical memory canonical, whose proof goes through the
function's own branches and cites the lemmas of the functions that it calls. -/

/-- Memory has its canonical form. -/
def Hw.Canon (h : Hw) : Prop := Memory.wf h.mem = true

/-- A computation of a tile leaves canonical memory canonical. -/
def Keeps {α : Type} (m : T α) : Prop := ∀ h : Hw, h.Canon → (m h).2.Canon

/-- What acceptance and refusal of an opcode do leaves canonical memory canonical. -/
structure OpSpec.Canon (sp : OpSpec) : Prop where
  accept : ∀ {h c}, Hw.Canon h → (sp.onAccept h c).Canon
  refuse : ∀ {h c}, Hw.Canon h → (sp.onRefuse h c).Canon

theorem OpSpec.Canon.plain {sp : OpSpec} (ha : sp.onAccept = fun h _ => h := by rfl)
    (hr : sp.onRefuse = fun h _ => h := by rfl) : sp.Canon :=
  ⟨fun w => by rw [ha]; exact w, fun w => by rw [hr]; exact w⟩

namespace Hw.Canon

variable {α β : Type} {h k : Hw}

/-- A change of other parts of the hardware than memory. -/
theorem update {regs freeIx rndIx parts cmds fetched mram sobs watches evt stn vec tiles fab models jobs dup kv cfg msix
      gfiles outs health scores watch advised healthAt coatLog freezeReq seqStopped detected dfin ing fus datA datB trv sys}
    (w : h.Canon) :
    Hw.Canon ⟨regs, freeIx, rndIx, h.mem, parts, cmds, fetched, mram, sobs, watches, evt, stn, vec, tiles, fab, models,
      jobs, dup, kv, cfg, msix, gfiles, outs, health, scores, watch, advised, healthAt, coatLog, freezeReq, seqStopped,
      detected, dfin, ing, fus, datA, datB, trv, sys⟩ := w

theorem ite {c : Prop} [Decidable c] (hh : h.Canon) (hk : k.Canon) : (if c then h else k).Canon := by
  split
  · exact hh
  · exact hk

theorem foldl {f : Hw → β → Hw} {l : List β} (w : h.Canon)
    (hf : ∀ h x, h.Canon → (f h x).Canon) : (l.foldl f h).Canon := Hw.foldl_wf f hf l h w

theorem foldl₂ {f : α × Hw → β → α × Hw} {l : List β} {b : α × Hw} (w : b.2.Canon)
    (hf : ∀ b x, b.2.Canon → (f b x).2.Canon) : (l.foldl f b).2.Canon := by
  induction l generalizing b with
  | nil => exact w
  | cons x l ih => exact ih (hf b x w)

theorem foldl₃ {γ : Type} {f : α × β × Hw → γ → α × β × Hw} {l : List γ} {b : α × β × Hw} (w : b.2.2.Canon)
    (hf : ∀ b x, b.2.2.Canon → (f b x).2.2.Canon) : (l.foldl f b).2.2.Canon := by
  induction l generalizing b with
  | nil => exact w
  | cons x l ih => exact ih (hf b x w)

/-- A fold whose state carries the hardware first. -/
theorem foldl₁ {f : Hw × α → β → Hw × α} {l : List β} {b : Hw × α} (w : b.1.Canon)
    (hf : ∀ b x, b.1.Canon → (f b x).1.Canon) : (l.foldl f b).1.Canon := by
  induction l generalizing b with
  | nil => exact w
  | cons x l ih => exact ih (hf b x w)

theorem getD {o : Option Hw} (w : h.Canon) (ho : ∀ k, o = some k → k.Canon) : (o.getD h).Canon := by
  cases o with
  | none => exact w
  | some k => exact ho k rfl

/-- The same bytes listed. -/
theorem of_cells (w : h.Canon) (e : k.mem.cells = h.mem.cells) : k.Canon := (Memory.wf_of_cells e).trans w

theorem of_pair {p : α × Hw} {a : α} (w : p.2.Canon) (e : p = (a, k)) : k.Canon := by
  rw [e] at w; exact w

theorem of_triple {p : α × β × Hw} {a : α} {b : β} (w : p.2.2.Canon) (e : p = (a, b, k)) : k.Canon := by
  rw [e] at w; exact w

theorem of_quad {γ : Type} {p : α × β × γ × Hw} {a : α} {b : β} {c : γ} (w : p.2.2.2.Canon) (e : p = (a, b, c, k)) :
    k.Canon := by
  rw [e] at w; exact w

theorem of_fst {p : Hw × α} {a : α} (w : p.1.Canon) (e : p = (k, a)) : k.Canon := by
  rw [e] at w; exact w

end Hw.Canon

namespace Keeps

variable {α β : Type}

theorem pure {a : α} : Keeps (pure a : T α) := fun _ w => w
theorem throw {e : Stop} : Keeps (throw e : T α) := fun _ w => w

theorem set {h : Hw} (w : h.Canon) : Keeps (set h : T PUnit) := fun _ _ => w

theorem modify {f : Hw → Hw} (hf : ∀ h, h.Canon → (f h).Canon) : Keeps (modify f : T PUnit) :=
  fun h w => hf h w

theorem bind {m : T α} {f : α → T β} (hm : Keeps m) (hf : ∀ a, Keeps (f a)) : Keeps (m >>= f) := by
  intro h w
  have hrun : (m >>= f) h = match m h with
    | (.ok a, k) => f a k
    | (.error e, k) => (.error e, k) := by
    show ExceptT.bindCont f (m h).1 (m h).2 = _
    rcases m h with ⟨_ | _, _⟩ <;> rfl
  have w1 := hm h w
  rw [hrun]
  split
  next a k e => exact hf a k (w1.of_pair e)
  next e => exact w1.of_pair e

/-- What follows a read of the state may use that the state read is canonical. -/
theorem get_bind {f : Hw → T β} (hf : ∀ h, h.Canon → Keeps (f h)) : Keeps (MonadState.get >>= f) :=
  fun h w => hf h w h w

theorem ite {m n : T α} {c : Prop} [Decidable c] (hm : Keeps m) (hn : Keeps n) :
    Keeps (if c then m else n) := by
  split
  · exact hm
  · exact hn

theorem mapM {f : α → T β} {l : List α} (hf : ∀ a, Keeps (f a)) : Keeps (l.mapM f) := by
  induction l with
  | nil => rw [List.mapM_nil]; exact pure
  | cons a l ih => rw [List.mapM_cons]; exact (hf a).bind fun _ => ih.bind fun _ => pure

theorem forM {f : α → T PUnit} {l : List α} (hf : ∀ a, Keeps (f a)) : Keeps (l.forM f) := by
  induction l with
  | nil => exact pure
  | cons a l ih => exact (hf a).bind fun _ => ih

theorem foldlM {l : List β} {b : α} {f : α → β → T α} (hf : ∀ a b, Keeps (f a b)) : Keeps (l.foldlM f b) := by
  induction l generalizing b with
  | nil => exact pure
  | cons a l ih =>
    rw [List.foldlM_cons]
    exact (hf b a).bind fun _ => ih

end Keeps

end Sys2Proof.Machine

namespace Sys2Proof.Machine

open Sys2Proof

section

variable {h : Hw}

/-! Functions of `Machine/Regs`. -/

theorem Hw.Canon.setReg {block off v} (w : h.Canon) : (h.setReg block off v).Canon := by
  unfold Hw.setReg; exact w.update

theorem Hw.Canon.setFields {block off v} (w : h.Canon) : (h.setFields block off v).Canon := by
  unfold Hw.setFields
  split
  · exact w.setReg
  · exact w

theorem Hw.Canon.put {f v} (w : h.Canon) : (h.put f v).Canon := by
  unfold Hw.put; exact w.setReg

theorem Hw.Canon.raiseBit {f n} (w : h.Canon) : (h.raiseBit f n).Canon := by
  unfold Hw.raiseBit; exact w.put

theorem Hw.Canon.addSat {f n} (w : h.Canon) : (h.addSat f n).Canon := by
  unfold Hw.addSat; exact w.put

theorem Hw.Canon.addWrap {f n} (w : h.Canon) : (h.addWrap f n).Canon := by
  unfold Hw.addWrap; exact w.put

theorem Hw.Canon.resetBlocks {lo hi} (w : h.Canon) : (h.resetBlocks lo hi).Canon := by
  unfold Hw.resetBlocks; exact w.update

theorem Hw.Canon.switch {k on} (w : h.Canon) : (h.switch k on).Canon := by
  unfold Hw.switch; exact w.put

theorem Hw.Canon.free (w : h.Canon) : h.free.2.Canon := by
  unfold Hw.free; exact w.update

theorem Hw.Canon.freeBytes {a1} (w : h.Canon) : (h.freeBytes a1).2.Canon := by
  induction a1 generalizing h with
  | zero => exact w
  | succ n ih =>
    unfold Hw.freeBytes
    exact ih w.free

theorem Hw.Canon.random (w : h.Canon) : h.random.2.Canon := by
  unfold Hw.random; exact w.update

/-! Functions of `Machine/Events`. -/

theorem Hw.Canon.loseEvents {src n} (w : h.Canon) : (h.loseEvents src n).Canon := by
  unfold Hw.loseEvents; exact w.update.addWrap.put

theorem Hw.Canon.freezeOnEvent {src type} (w : h.Canon) : (h.freezeOnEvent src type).Canon := by
  unfold Hw.freezeOnEvent; exact .ite w.update w

theorem Hw.Canon.setTrace {t} (w : h.Canon) : (h.setTrace t).Canon := by
  unfold Hw.setTrace; exact w.update

theorem Hw.Canon.traceAdd {kind pid data} (w : h.Canon) : (h.traceAdd kind pid data).Canon := by
  unfold Hw.traceAdd
  split
  · exact w
  · exact .ite w (.ite w.addSat.put w.free.addWrap.setTrace)

theorem Hw.Canon.setStaged {src q} (w : h.Canon) : (h.setStaged src q).Canon := by
  unfold Hw.setStaged; exact w.update

theorem Hw.Canon.event {src type pid detail} (w : h.Canon) : (h.event src type pid detail).Canon := by
  unfold Hw.event
  refine .ite w.addWrap ?_
  split
  · exact w.setStaged.put.freezeOnEvent.traceAdd
  · exact w.loseEvents

theorem Hw.Canon.setRoute {pid r} (w : h.Canon) : (h.setRoute pid r).Canon := by
  unfold Hw.setRoute
  extract_lets +onlyGivenNames old
  refine .ite w ?_
  extract_lets +onlyGivenNames k k1
  have wk1 : k1.Canon := by
    unfold k1
    split
    · exact w
    · exact w.update
  exact .ite wk1.setReg.put wk1.setReg

theorem Hw.Canon.dropVector {pid} (w : h.Canon) : (h.dropVector pid).Canon := by
  unfold Hw.dropVector; exact w.addSat.put.put

theorem Hw.Canon.sendMsix {pid port rid v} (w : h.Canon) : (h.sendMsix pid port rid v).Canon := by
  unfold Hw.sendMsix; exact .ite w.dropVector.addSat.put (.ite w.update w.update)

theorem Hw.Canon.raiseVector {pid v} (w : h.Canon) : (h.raiseVector pid v).Canon := by
  unfold Hw.raiseVector
  refine .ite w ?_
  extract_lets +onlyGivenNames r
  refine .ite w ?_
  extract_lets +onlyGivenNames k
  extract_lets +onlyGivenNames k1
  have wk1 : k1.Canon := w.update
  split
  · exact wk1.update
  · exact wk1.sendMsix
  · exact wk1.dropVector

theorem Hw.Canon.ownerSummary (w : h.Canon) : h.ownerSummary.Canon := by
  unfold Hw.ownerSummary; exact .ite w.raiseVector.put w

/-! Functions of `Machine/Health`. -/

theorem Hw.Canon.healthAdd {part input n} (w : h.Canon) : (h.healthAdd part input n).Canon := by
  unfold Hw.healthAdd; exact w.update

theorem Hw.Canon.hairTile {t} (w : h.Canon) : (h.hairTile t).Canon := by
  unfold Hw.hairTile; exact .ite w.put w.put.raiseBit.put.event.healthAdd

theorem Hw.Canon.hairChannel {c} (w : h.Canon) : (h.hairChannel c).Canon := by
  unfold Hw.hairChannel; exact .ite w.put w.put.raiseBit.put.event.healthAdd

theorem Hw.Canon.dieFault {d detail} (w : h.Canon) : (h.dieFault d detail).Canon := by
  unfold Hw.dieFault; exact .ite w.event w.event.update

/-! Functions of `Machine/Mem`. -/

theorem Hw.Canon.defineLine {l} (w : h.Canon) : (h.defineLine l).Canon := Hw.defineLine_wf l w

theorem Hw.Canon.modDram {f} (w : h.Canon) : (h.modDram f).Canon := by
  unfold Hw.modDram; exact w.update

theorem Hw.Canon.queueScrub {l} (w : h.Canon) : (h.queueScrub l).Canon := by
  unfold Hw.queueScrub; exact .ite w w.modDram

theorem Hw.Canon.countCorrected {c} (w : h.Canon) : (h.countCorrected c).Canon := by
  unfold Hw.countCorrected; exact w.addSat.hairChannel

theorem Hw.Canon.countUncorr {c line} (w : h.Canon) : (h.countUncorr c line).Canon := by
  unfold Hw.countUncorr; exact .ite w.addSat.put.event w.addSat.put.event.healthAdd

theorem Hw.Canon.noteRead {l} (w : h.Canon) : (h.noteRead l).Canon := by
  unfold Hw.noteRead
  extract_lets +onlyGivenNames p c
  refine .ite w ?_
  extract_lets +onlyGivenNames both split k
  have wk : k.Canon := .ite w.countCorrected.queueScrub w
  refine .ite wk ?_
  split
  · exact wk
  · split
    · exact wk
    · exact wk.countCorrected.queueScrub
    · exact wk.countUncorr.queueScrub

theorem Hw.Canon.load {a n} (w : h.Canon) : (h.load a n).2.2.Canon := by
  unfold Hw.load; exact .foldl (w.foldl (fun _ _ v => v.defineLine)) fun _ _ v => v.noteRead

theorem Hw.Canon.store {a bs st} (w : h.Canon) : (h.store a bs st).Canon := Hw.store_wf a bs st w

theorem Hw.Canon.detect {code die pid} (w : h.Canon) : (h.detect code die pid).Canon := by
  unfold Hw.detect; exact w.update

theorem Hw.Canon.pmmuRecord {agent cause pid addr} (w : h.Canon) : (h.pmmuRecord agent cause pid addr).Canon := by
  unfold Hw.pmmuRecord; exact .ite w.put w.put.put.put.put.put.put

theorem Hw.Canon.translationFault {agent cause pid va} (w : h.Canon) :
    (h.translationFault agent cause pid va).Canon := by
  unfold Hw.translationFault; exact w.pmmuRecord.put.event

theorem Hw.Canon.ownerViolation {pid a} (w : h.Canon) : (h.ownerViolation pid a).Canon := by
  unfold Hw.ownerViolation; exact w.pmmuRecord.put.event.detect

theorem Hw.Canon.portRead {pid a n} (w : h.Canon) : (h.portRead pid a n).2.2.Canon := by
  unfold Hw.portRead
  split
  · exact w.load
  · exact w.ownerViolation

theorem Hw.Canon.portWrite {pid a bs st} (w : h.Canon) :
    (h.portWrite pid a bs st).Canon := Hw.portWrite_wf pid a bs st w

theorem Hw.Canon.readPieces {pid a2} (w : h.Canon) : (h.readPieces pid a2).2.2.Canon := by
  induction a2 generalizing h with
  | nil => exact w
  | cons a as ih =>
    unfold Hw.readPieces
    exact ih w.portRead

theorem Hw.Canon.writePieces {pid bs st a4} (w : h.Canon) : (h.writePieces pid bs st a4).Canon := by
  induction a4 generalizing h bs with
  | nil => exact w
  | cons a as ih =>
    unfold Hw.writePieces
    exact ih w.portWrite

theorem Hw.Canon.readVa {agent pid va n acc} (w : h.Canon) : (h.readVa agent pid va n acc).2.Canon := by
  unfold Hw.readVa
  split
  · exact w.translationFault
  · exact w.readPieces

theorem Hw.Canon.writeVa {agent pid va bs st} (w : h.Canon) : (h.writeVa agent pid va bs st).2.Canon := by
  unfold Hw.writeVa
  split
  · exact w.translationFault
  · exact w.writePieces

/-! Functions of `Machine/Caches`. -/

theorem Hw.Canon.modApc {f} (w : h.Canon) : (h.modApc f).Canon := by
  unfold Hw.modApc; exact w.update

theorem Hw.Canon.putSc {l x} (w : h.Canon) : (h.putSc l x).Canon := by
  unfold Hw.putSc; exact w.modApc

theorem Hw.Canon.pushL2 {e} (w : h.Canon) : (h.pushL2 e).Canon := by
  unfold Hw.pushL2; exact .ite w.putSc.modApc w

theorem Hw.Canon.snoop {l} (w : h.Canon) : (h.snoop l).Canon := by
  unfold Hw.snoop; exact w.foldl fun _ _ v => v.pushL2

theorem Hw.Canon.cleanSc {l} (w : h.Canon) : (h.cleanSc l).Canon := Hw.cleanSc_wf l w

theorem Hw.Canon.purge {p q} (w : h.Canon) : (h.purge p q).Canon := by
  unfold Hw.purge; exact .modApc (.foldl (.modApc (w.foldl (fun _ _ v => v.pushL2))) (fun _ _ v => v.cleanSc))

theorem Hw.Canon.discardLine {l} (w : h.Canon) : (h.discardLine l).Canon := by
  unfold Hw.discardLine; exact w.modApc

theorem Hw.Canon.ownLine {k l} (w : h.Canon) : (h.ownLine k l).Canon := by
  unfold Hw.ownLine; exact w.modApc

theorem Hw.Canon.invalidate {ps} (w : h.Canon) : (h.invalidate ps).Canon := by
  unfold Hw.invalidate; exact w.purge

theorem Hw.Canon.writeThrough {pid bs st ps} (w : h.Canon) : (h.writeThrough pid bs st ps).Canon := by
  unfold Hw.writeThrough; exact w.invalidate.writePieces

theorem Hw.Canon.cohRead {pid a n} (w : h.Canon) : (h.cohRead pid a n).2.2.Canon := by
  unfold Hw.cohRead
  extract_lets +onlyGivenNames k
  have wk : k.Canon := .ite w.snoop w
  split
  · split
    · exact wk
    · exact wk.portRead
  · exact wk.portRead

/-! Functions of `Machine/CmdBase`. -/

theorem Hw.Canon.modQueue {pid q f} (w : h.Canon) : (h.modQueue pid q f).Canon := by
  unfold Hw.modQueue; exact w.update

theorem Hw.Canon.modPart {pid f} (w : h.Canon) : (h.modPart pid f).Canon := by
  unfold Hw.modPart; exact w.update

theorem Hw.Canon.keep {c k} (w : h.Canon) : (h.keep c k).Canon := by
  unfold Hw.keep; exact w.update

theorem Hw.Canon.takeKept {c} (w : h.Canon) : (h.takeKept c).2.Canon := by
  unfold Hw.takeKept; exact w.update

theorem Hw.Canon.modCmd {pid q num f} (w : h.Canon) : (h.modCmd pid q num f).Canon := by
  unfold Hw.modCmd; exact w.update

theorem Hw.Canon.countStarted {pid q} (w : h.Canon) : (h.countStarted pid q).Canon := by
  unfold Hw.countStarted; exact w.modQueue

theorem Hw.Canon.finishAt {pid q num status result detail a7} (w : h.Canon) :
    (h.finishAt pid q num status result detail a7).Canon := by
  unfold Hw.finishAt; exact w.modCmd.countStarted

theorem Hw.Canon.finish {c status result detail} (w : h.Canon) : (h.finish c status result detail).Canon := by
  unfold Hw.finish; exact w.finishAt

theorem Hw.Canon.done {c result} (w : h.Canon) : (h.done c result).Canon := by
  unfold Hw.done; exact w.finish

theorem Hw.Canon.wildEnd {c} (w : h.Canon) : (h.wildEnd c).Canon := by
  unfold Hw.wildEnd; exact w.free.free.free.finish

theorem Hw.Canon.failPage {c e} (w : h.Canon) : (h.failPage c e).Canon := by
  unfold Hw.failPage; exact w.finish

/-! Functions of `Machine/Sync`. -/

theorem Hw.Canon.setSobOwner {blk pid} (w : h.Canon) : (h.setSobOwner blk pid).Canon := by
  unfold Hw.setSobOwner; exact w.put

theorem Hw.Canon.sobViolation {agent pid idx} (w : h.Canon) : (h.sobViolation agent pid idx).Canon := by
  unfold Hw.sobViolation; exact .event (.put (.ite w.put w.put.put.put.put.put))

theorem Hw.Canon.settleWatches {v a2} (w : h.Canon) : (h.settleWatches v a2).Canon := by
  induction a2 with
  | nil => exact w
  | cons a as ih =>
    unfold Hw.settleWatches
    exact .ite ih.finishAt ih.update

theorem Hw.Canon.evalWatches {idx v} (w : h.Canon) : (h.evalWatches idx v).Canon := by
  unfold Hw.evalWatches; exact w.update.settleWatches

theorem Hw.Canon.sobPerform {idx op} (w : h.Canon) : (h.sobPerform idx op).2.Canon := by
  unfold Hw.sobPerform
  extract_lets +onlyGivenNames old
  split
  · exact w
  · exact w.update.evalWatches
  · exact w.update.evalWatches

theorem Hw.Canon.sobAccess {agent pid idx op} (w : h.Canon) : (h.sobAccess agent pid idx op).2.Canon := by
  unfold Hw.sobAccess
  split
  · exact w.sobPerform
  · exact w.sobViolation

/-! Functions of `Machine/Cmds`. -/

theorem Hw.Canon.writeMirror {pid q} (w : h.Canon) : (h.writeMirror pid q).Canon := by
  unfold Hw.writeMirror
  split
  · exact w.writeVa
  · exact w

theorem Hw.Canon.setMirror {pid q st} (w : h.Canon) : (h.setMirror pid q st).Canon := by
  unfold Hw.setMirror; exact .ite w.modQueue.writeMirror w.modQueue

theorem Hw.Canon.setMram {pid q f} (w : h.Canon) : (h.setMram pid q f).Canon := by
  unfold Hw.setMram; exact w.update

theorem Hw.Canon.take {c slots} (w : h.Canon) : (h.take c slots).Canon := by
  unfold Hw.take; exact .writeMirror (.ite w.update.modQueue.put w.update.modQueue.put.addWrap.modPart.setMram)

theorem Hw.Canon.begin {c} (w : h.Canon) : (h.begin c).Canon := by
  unfold Hw.begin; exact w.modCmd.traceAdd.countStarted

theorem Hw.Canon.unfetch {f} (w : h.Canon) : (h.unfetch f).Canon := by
  unfold Hw.unfetch; exact w.modQueue.update

theorem Hw.Canon.judge {sp q qu pkt} (w : h.Canon) (hsp : sp.Canon) : (h.judge sp q qu pkt).2.Canon := by
  unfold Hw.judge
  dsimp only
  split
  · exact hsp.refuse w.take.countStarted
  · split
    · exact w.take.begin.finish
    · exact hsp.accept w.take

theorem Hw.Canon.chargeFetch {pid cp n} (w : h.Canon) : (h.chargeFetch pid cp n).Canon := by
  unfold Hw.chargeFetch; exact w.update.put

theorem Hw.Canon.presented {q qu pkt k} (w : h.Canon) (e : h.presented q qu pkt = some k) : k.Canon := by
  unfold Hw.presented at e
  split at e
  · obtain ⟨-, e⟩ := Option.ite_none_right_eq_some.mp e
    cases e
    exact w.unfetch
  · obtain ⟨-, e⟩ := Option.ite_none_right_eq_some.mp e
    cases e
    exact w.chargeFetch

theorem Hw.Canon.begins {q c eff} (w : h.Canon) (heff : ∀ h y1, h.Canon → (eff h y1).Canon) :
    (h.begins q c eff).Canon := by
  unfold Hw.begins
  refine .ite w ?_
  split
  · exact w.begin.finish
  · exact heff _ _ w.begin

theorem Hw.Canon.takeNext {sp q pkt} (w : h.Canon) (hsp : sp.Canon) : (h.takeNext sp q pkt).2.Canon := by
  unfold Hw.takeNext
  split
  · exact w
  · split
    · exact w
    · split
      · exact w
      next e2 => exact (w.presented e2).judge hsp

theorem Hw.Canon.issue {sp q p eff} (w : h.Canon) (hsp : sp.Canon) (heff : ∀ h y1, h.Canon → (eff h y1).Canon) :
    (h.issue sp q p eff).Canon := by
  unfold Hw.issue
  refine .ite w ?_
  extract_lets +onlyGivenNames pkt
  split
  · exact .ite (w.begins (fun _ _ v => heff _ _ v)) (w.takeNext hsp)
  · split
    next e3 =>
      exact .ite ((w.takeNext hsp).of_pair e3) (((w.takeNext hsp).of_pair e3).begins (fun _ _ v => heff _ _ v))
    next e3 => exact (w.takeNext hsp).of_pair e3

theorem Hw.Canon.cmdRead {pid va n} (w : h.Canon) : (h.cmdRead pid va n).2.Canon := by
  unfold Hw.cmdRead; exact w.readVa

theorem Hw.Canon.cmdWrite {pid va bs st} (w : h.Canon) : (h.cmdWrite pid va bs st).2.Canon := by
  unfold Hw.cmdWrite; exact w.writeVa

theorem Hw.Canon.withRecord {c va n k} (w : h.Canon) (hk : ∀ h y1, h.Canon → (k h y1).Canon) :
    (h.withRecord c va n k).Canon := by
  unfold Hw.withRecord
  split
  next e => exact (w.cmdRead.of_pair e).failPage
  next e => exact .ite (w.cmdRead.of_pair e).finish (hk _ _ (w.cmdRead.of_pair e))

theorem Hw.Canon.doneWriting {c va bs result} (w : h.Canon) : (h.doneWriting c va bs result).Canon := by
  unfold Hw.doneWriting
  split
  next e => exact (w.cmdWrite.of_pair e).failPage
  next e => exact (w.cmdWrite.of_pair e).done

theorem Hw.Canon.sobCommand {c idx op} (w : h.Canon) : (h.sobCommand c idx op).2.Canon := by
  unfold Hw.sobCommand
  split
  · split
    · exact w
    · exact w.sobAccess.modQueue
  · exact w

theorem Hw.Canon.sobOnDone {c status} (w : h.Canon) : (h.sobOnDone c status).Canon := by
  unfold Hw.sobOnDone; exact .ite w.sobCommand w

theorem Hw.Canon.writeEntry {c e} (w : h.Canon) : (h.writeEntry c e).Canon := by
  unfold Hw.writeEntry
  split
  · exact w.writeVa
  · exact w

theorem Hw.Canon.post {pid q} (w : h.Canon) : (h.post pid q).Canon := by
  unfold Hw.post
  split
  · exact w
  · split
    · exact w
    · extract_lets +onlyGivenNames k k1 k2 k3 k4 k5
      have wk : k.Canon := w.sobOnDone
      have wk1 : k1.Canon := wk.modQueue
      have wk2 : k2.Canon := wk1.modCmd
      have wk3 : k3.Canon := .ite wk2 wk2.setMram
      have wk4 : k4.Canon := wk3.writeEntry
      have wk5 : k5.Canon := wk4.writeMirror
      exact .ite wk5.raiseVector wk5

theorem Hw.Canon.freeConsumed {pid q} (w : h.Canon) : (h.freeConsumed pid q).Canon := by
  unfold Hw.freeConsumed
  split
  · exact w
  · exact w.update.put

/-! Functions of `Machine/TileOps`. -/

theorem Hw.Canon.modTile {t f} (w : h.Canon) : (h.modTile t f).Canon := by
  unfold Hw.modTile; exact w.update

theorem Hw.Canon.modSeq {t f} (w : h.Canon) : (h.modSeq t f).Canon := by
  unfold Hw.modSeq; exact w.modTile

theorem Hw.Canon.modSlice {t f} (w : h.Canon) : (h.modSlice t f).Canon := by
  unfold Hw.modSlice; exact w.modTile

theorem Hw.Canon.windowEvent {t pid a} (w : h.Canon) : (h.windowEvent t pid a).Canon := by
  unfold Hw.windowEvent; exact w.event

theorem Hw.Canon.sramErrors {t g} (w : h.Canon) : (h.sramErrors t g).Canon := by
  unfold Hw.sramErrors; exact .ite w.modTile.addSat.event.healthAdd (.ite w.modTile.addSat.hairTile w)

theorem Hw.Canon.visitRead {t pid a3} (w : h.Canon) : (h.visitRead t pid a3).Canon := by
  induction a3 generalizing h with
  | nil => exact w
  | cons a as ih =>
    unfold Hw.visitRead
    exact ih (.ite w.sramErrors w.windowEvent)

theorem Hw.Canon.noteHalves {t a n} (w : h.Canon) : (h.noteHalves t a n).Canon := by
  unfold Hw.noteHalves
  split
  · split
    · exact .ite w w.modSlice
    · exact w
  · exact w

theorem Hw.Canon.rdSram {t pid a n} (w : h.Canon) : (h.rdSram t pid a n).2.Canon := by
  unfold Hw.rdSram; exact w.visitRead.noteHalves

theorem Hw.Canon.pokeSram {t a bs} (w : h.Canon) : (h.pokeSram t a bs).Canon := by
  unfold Hw.pokeSram; exact w.modTile

theorem Hw.Canon.wrGranule {t pid a bs g} (w : h.Canon) : (h.wrGranule t pid a bs g).Canon := by
  unfold Hw.wrGranule; exact .ite w.pokeSram w.windowEvent

theorem Hw.Canon.wrSram {t pid a bs} (w : h.Canon) : (h.wrSram t pid a bs).Canon := by
  unfold Hw.wrSram; exact w.foldl fun _ _ v => v.wrGranule

theorem Hw.Canon.sealRows {t pid rows} (w : h.Canon) : (h.sealRows t pid rows).Canon := by
  unfold Hw.sealRows; exact w.foldl fun _ _ v => .ite v.modTile v

theorem Hw.Canon.modJob {pid q num f} (w : h.Canon) : (h.modJob pid q num f).Canon := by
  unfold Hw.modJob; exact w.update

theorem Hw.Canon.failJob {s status detail} (w : h.Canon) : (h.failJob s status detail).Canon := by
  unfold Hw.failJob; exact w.modJob

theorem Hw.Canon.dropReservations {t} (w : h.Canon) : (h.dropReservations t).Canon := by
  unfold Hw.dropReservations; exact w.update

theorem Hw.Canon.endSlice {t e} (w : h.Canon) : (h.endSlice t e).Canon := by
  unfold Hw.endSlice; exact w.dropReservations.modSlice.modSeq.put

theorem Hw.Canon.consume {t} (w : h.Canon) : (h.consume t).Canon := by
  unfold Hw.consume
  split
  · exact w.put.event.failJob.endSlice
  · exact w

theorem Hw.Canon.faultRecord {t cause} (w : h.Canon) : (h.faultRecord t cause).Canon := by
  unfold Hw.faultRecord; exact .ite w.put w.put.put.put.put.put.put.put.put.put.put

theorem Hw.Canon.faultStop {t cause} (w : h.Canon) : (h.faultStop t cause).Canon := by
  unfold Hw.faultStop
  exact .ite (.endSlice (.event (.put (.put (.faultRecord (.ite w w.modTile)))))) (.put (.event (.put (.put
    (.faultRecord (.ite w w.modTile))))))

theorem Hw.Canon.abandon {t code} (w : h.Canon) : (h.abandon t code).Canon := by
  unfold Hw.abandon
  split
  · exact w.event.failJob.endSlice
  · exact w

theorem Hw.Canon.raiseExc {t cause info insn} (w : h.Canon) : (h.raiseExc t cause info insn).Canon := by
  unfold Hw.raiseExc; exact .ite w.faultStop (.ite w.abandon (.ite w.faultStop w.wrSram.modSeq))

/-! Functions of `Machine/Operands`. -/

theorem Keeps.need {c s} : Keeps (need c s) := by
  unfold Machine.need; exact .ite .pure .throw

theorem Keeps.freeT : Keeps freeT := by
  unfold Machine.freeT; exact .get_bind fun _ v => .bind (.set v.free) fun _ => .pure

theorem Keeps.useClean {stained} : Keeps (useClean stained) := by
  unfold Machine.useClean; exact .ite .throw .pure

theorem Keeps.demand {o ks} : Keeps (Opnd.demand o ks) := by
  unfold Opnd.demand
  refine .bind .need fun _ => .bind .need fun _ => ?_
  split
  · exact .need
  · exact .need
  · exact .need
  · exact .need
  · exact .pure

theorem Keeps.sliceT {t} : Keeps (sliceT t) := by
  unfold Machine.sliceT
  refine .get_bind fun _ v => ?_
  split
  · exact .pure
  · exact .throw

theorem Keeps.baseVal {o t} : Keeps (Opnd.baseVal o t) := by
  unfold Opnd.baseVal; exact .get_bind fun _ v => .bind .useClean fun _ => .pure

theorem Keeps.addr {o t} : Keeps (Opnd.addr o t) := by
  unfold Opnd.addr; exact .bind .baseVal fun _ => .pure

theorem Keeps.rdT {t a n} : Keeps (rdT t a n) := by
  unfold Machine.rdT; exact .bind .sliceT fun _ => .get_bind fun _ v => .bind (.set v.rdSram) fun _ => .pure

theorem Keeps.useT {t a n} : Keeps (useT t a n) := by
  unfold Machine.useT; exact .bind .rdT fun _ => .bind .useClean fun _ => .pure

theorem Keeps.wrT {t a bs} : Keeps (wrT t a bs) := by
  unfold Machine.wrT; exact .bind .sliceT fun _ => .modify fun _ v => v.wrSram

theorem Keeps.wrRows {t rows} : Keeps (wrRows t rows) := by
  unfold Machine.wrRows; exact .bind .sliceT fun _ => .modify fun _ v => .sealRows (v.foldl (fun _ _ u => u.wrSram))

theorem Keeps.wrRow {t a bs} : Keeps (wrRow t a bs) := by
  unfold Machine.wrRow; exact .bind .wrT fun _ => .pure

theorem Keeps.sealT {t rows} : Keeps (sealT t rows) := by
  unfold Machine.sealT; exact .bind .sliceT fun _ => .modify fun _ v => v.sealRows

theorem Keeps.packs {o c} : Keeps (Opnd.packs o c) := by
  unfold Opnd.packs; exact .need

theorem Keeps.encs {o t c} : Keeps (Opnd.encs o t c) := by
  unfold Opnd.encs
  exact .bind .packs fun _ => .bind .addr fun _ => .bind (.mapM (fun _ => .bind .useT fun _ => .pure)) fun _ => .pure

theorem Keeps.scales {o t} : Keeps (Opnd.scales o t) := by
  unfold Opnd.scales; exact .useT

theorem Keeps.vals {o t c} : Keeps (Opnd.vals o t c) := by
  unfold Opnd.vals; exact .bind .encs fun _ => .ite (.bind .scales fun _ => .pure) .pure

theorem Keeps.putEncs {o t c es} : Keeps (Opnd.putEncs o t c es) := by
  unfold Opnd.putEncs; exact .bind .addr fun _ => .wrRows

theorem Keeps.flagsT {t inexact overflow} : Keeps (flagsT t inexact overflow) := by
  unfold Machine.flagsT; exact .ite (.modify fun _ v => v.modSeq) .pure

theorem Keeps.putVals {o t hd vs} : Keeps (Opnd.putVals o t hd vs) := by
  unfold Opnd.putVals
  exact .bind .packs fun _ => .get_bind fun _ v => .ite (.bind .putEncs fun _ => .bind .wrT fun _ => .flagsT) (.bind
    .putEncs fun _ => .flagsT)

theorem Keeps.putOver {o t hd ovf vs} : Keeps (Opnd.putOver o t hd ovf vs) := by
  unfold Opnd.putOver; exact .bind .packs fun _ => .bind .flagsT fun _ => .putVals

theorem Keeps.levelT {t hd} : Keeps (levelT t hd) := by
  unfold Machine.levelT
  exact .ite (.bind .sliceT fun _ => .get_bind fun _ v => .ite .pure (.bind (.set v.free) fun _ => .pure)) .pure

theorem Keeps.setAccT {t i a} : Keeps (setAccT t i a) := by
  unfold Machine.setAccT; exact .modify fun _ v => v.modTile

theorem Keeps.clearAccs {t i n} : Keeps (clearAccs t i n) := by
  unfold Machine.clearAccs; exact .modify fun _ v => v.modTile

theorem Keeps.addAccs {t f lam terms} : Keeps (addAccs t f lam terms) := by
  unfold Machine.addAccs; exact .forM fun _ => .get_bind fun _ v => .bind .setAccT fun _ => .flagsT

theorem Keeps.macFmts {hd} : Keeps (macFmts hd) := by
  unfold Machine.macFmts; exact .bind .need fun _ => .need

/-! Functions of `Machine/SheetOps`. -/

theorem Hw.Canon.setSeq {pid hd s} (w : h.Canon) : (h.setSeq pid hd s).Canon := by
  unfold Hw.setSeq; exact w.update

theorem Hw.Canon.setSheet {n r} (w : h.Canon) : (h.setSheet n r).Canon := by
  unfold Hw.setSheet; exact w.update

theorem Hw.Canon.takeSheet {pid r k} (w : h.Canon) (e : h.takeSheet pid r = some k) : k.2.Canon := by
  unfold Hw.takeSheet at e
  split at e
  · obtain ⟨-, e⟩ := Option.ite_none_right_eq_some.mp e
    obtain ⟨n, -, rfl⟩ := Option.map_eq_some_iff.mp e
    exact w.setSheet
  · cases e

theorem Hw.Canon.freeSheet {n} (w : h.Canon) : (h.freeSheet n).Canon := by
  unfold Hw.freeSheet; exact w.setSheet

theorem Hw.Canon.releaseSheet {pid n} (w : h.Canon) : (h.releaseSheet pid n).Canon := by
  unfold Hw.releaseSheet; exact .ite (.ite w.freeSheet w.setSheet) w

theorem Hw.Canon.readEntry {pid s layer i} (w : h.Canon) : (h.readEntry pid s layer i).2.Canon := by
  unfold Hw.readEntry
  split
  next e => exact w.readVa.of_pair e
  next e => exact w.readVa.of_pair e

theorem Hw.Canon.writeEntryPl {pid s layer i n} (w : h.Canon) : (h.writeEntryPl pid s layer i n).Canon := by
  unfold Hw.writeEntryPl
  split
  · exact w.writePieces
  · exact w.translationFault

theorem Hw.Canon.walkEvent {t pid hd a4} (w : h.Canon) : (h.walkEvent t pid hd a4).Canon := by
  unfold Hw.walkEvent
  split
  · exact w
  · exact w.event
  · exact w.event
  · exact w.event
  · exact w
  · exact w

theorem Hw.Canon.noteExhausted {pid dim} (w : h.Canon) : (h.noteExhausted pid dim).Canon := by
  unfold Hw.noteExhausted; exact .ite w w.update

theorem Hw.Canon.chargeDram {pid runs wr k} (w : h.Canon) (e : h.chargeDram pid runs wr = some k) : k.Canon := by
  unfold Hw.chargeDram at e
  split at e
  · cases e; exact w
  · obtain ⟨-, e⟩ := Option.ite_none_right_eq_some.mp e
    cases e
    exact w.update

theorem Hw.Canon.payLine {pid l k} (w : h.Canon) (e : h.payLine pid l = some k) : k.Canon := by
  unfold Hw.payLine at e
  split at e
  · cases e; exact w
  · exact w.chargeDram e

theorem Hw.Canon.payLines {pid a2} (w : h.Canon) : (h.payLines pid a2).2.Canon := by
  induction a2 generalizing h with
  | nil => exact w
  | cons a as ih =>
    unfold Hw.payLines
    split
    · exact w.noteExhausted
    next e => exact ih (w.payLine e)

theorem Hw.Canon.chargeEdges {pid cs k} (w : h.Canon) (e : h.chargeEdges pid cs = some k) : k.Canon := by
  unfold Hw.chargeEdges at e
  split at e
  · cases e; exact w
  · obtain ⟨-, e⟩ := Option.ite_none_right_eq_some.mp e
    cases e
    exact w.update

theorem Hw.Canon.chargeDma_ok {t pid runs wr k} (w : h.Canon) (e : h.chargeDma t pid runs wr = .ok k) : k.Canon := by
  unfold Hw.chargeDma at e
  split at e
  · cases e
  · split at e
    · cases e
    next e1 =>
      split at e
      · cases e
      next e2 => cases e; exact (w.chargeDram e1).chargeEdges e2

theorem Hw.Canon.noteShort {t pid dim runs wr} (w : h.Canon) : (h.noteShort t pid dim runs wr).Canon := by
  unfold Hw.noteShort; exact .ite w.noteExhausted (.modTile (.ite w w.noteExhausted))

theorem Hw.Canon.copySheet {src dst} (w : h.Canon) : (h.copySheet src dst).Canon := by
  unfold Hw.copySheet; exact w.foldl fun _ _ v => v.load.store

theorem Hw.Canon.chargeCopy_ok {t pid src dst k} (w : h.Canon) (e : h.chargeCopy t pid src dst = .ok k) :
    k.Canon := by
  unfold Hw.chargeCopy at e
  split at e
  · cases e
  next e1 =>
    split at e
    · cases e
    next e2 => cases e; exact (w.chargeDma_ok e1).chargeDma_ok e2

theorem Hw.Canon.chargeCopy_error {t pid src dst d} (w : h.Canon) (e : h.chargeCopy t pid src dst = .error d) :
    d.2.Canon := by
  unfold Hw.chargeCopy at e
  split at e
  · cases e; exact w.noteShort
  · split at e
    · cases e; exact w.noteShort
    · cases e

theorem Hw.Canon.unreserve {t sk pk} (w : h.Canon) : (h.unreserve t sk pk).Canon := by
  unfold Hw.unreserve; exact w.update

theorem Hw.Canon.walkStore {t pid hd s layer i} (w : h.Canon) : (h.walkStore t pid hd s layer i).2.Canon := by
  unfold Hw.walkStore
  split
  next e => exact w.readEntry.of_pair e
  next e =>
    have wread := w.readEntry.of_pair e
    split
    · exact wread
    · extract_lets +onlyGivenNames r
      split
      · exact wread
      · split
        · exact wread
        · split
          · exact wread
          next e1 =>
            extract_lets +onlyGivenNames kv k
            have wk : k.Canon := .update (wread.takeSheet e1)
            split
            · exact wk
            · split
              next e2 => exact wk.chargeCopy_error e2
              next e2 =>
                dsimp -zeta only
                exact (wk.chargeCopy_ok e2).copySheet

theorem Hw.Canon.resolveStore {t pid hd s layer i} (w : h.Canon) : (h.resolveStore t pid hd s layer i).2.Canon := by
  unfold Hw.resolveStore
  extract_lets +onlyGivenNames sk pk install
  extract_lets +onlyGivenNames install1
  have winstall1 : ∀ x0 h, h.Canon → (install1 x0 h).Canon := fun _ _ v => v.setSheet.writeEntryPl.unreserve
  split
  next e2 => exact w.readEntry.of_pair e2
  next e2 =>
    split
    · split
      · exact winstall1 _ _ (w.readEntry.of_pair e2)
      · split
        next e5 => exact winstall1 _ _ ((w.readEntry.of_pair e2).takeSheet e5)
        · exact w.readEntry.of_pair e2
    · split
      · exact w.readEntry.of_pair e2
      · extract_lets +onlyGivenNames r
        split
        · split
          · exact (w.readEntry.of_pair e2).freeSheet.unreserve
          · exact w.readEntry.of_pair e2
        · extract_lets +onlyGivenNames old
          have wold : ∀ h, h.Canon → (old h).Canon := fun _ v => .ite v v.setSheet
          split
          · exact wold _ (winstall1 _ _ (.ite (w.readEntry.of_pair e2) (w.readEntry.of_pair e2).copySheet))
          · split
            next e9 => exact wold _ (winstall1 _ _ ((w.readEntry.of_pair e2).takeSheet e9).copySheet)
            · exact w.readEntry.of_pair e2

theorem Hw.Canon.walkToken {pid s layer pos} (w : h.Canon) : (h.walkToken pid s layer pos).2.Canon := by
  unfold Hw.walkToken
  split
  · exact w
  · split
    · exact w
    · split
      next e2 => exact w.readEntry.of_pair e2
      next e2 =>
        split
        · exact w.readEntry.of_pair e2
        · split
          · exact w.readEntry.of_pair e2
          · exact (w.readEntry.of_pair e2).load

/-! Functions of `Machine/Housekeeping`. -/

theorem Hw.Canon.cmdNop {q p} (w : h.Canon) : (cmdNop q p h).Canon := by
  unfold Machine.cmdNop; exact w.issue .plain fun _ _ v => v.done

theorem Hw.Canon.cmdFence {q p} (w : h.Canon) : (cmdFence q p h).Canon := by
  unfold Machine.cmdFence; exact w.issue .plain fun _ _ v => v.done

theorem Hw.Canon.cmdEcho {q p} (w : h.Canon) : (cmdEcho q p h).Canon := by
  unfold Machine.cmdEcho; exact w.issue .plain fun _ _ v => v.done

theorem Hw.Canon.spendDram {pid va n wr} (w : h.Canon) : (h.spendDram pid va n wr).Canon := by
  unfold Hw.spendDram
  refine .ite w ?_
  split
  · exact w
  · exact .update (.ite w.noteExhausted w)

theorem Hw.Canon.fillEffect {c} (w : h.Canon) : (fillEffect h c).Canon := by
  unfold Machine.fillEffect
  dsimp -zeta only
  refine .ite (.done (.store (w.of_cells ?_))) w.spendDram.doneWriting
  exact foldl_keeps Mem.cells _ Mem.cleanFrame_cells _ _

theorem Hw.Canon.cmdMemFill {q p} (w : h.Canon) : (cmdMemFill q p h).Canon := by
  unfold Machine.cmdMemFill; exact w.issue .plain fun _ _ v => v.fillEffect

theorem Hw.Canon.copyLines {c src dst total overlap n} (w : h.Canon) :
    (copyLines c src dst total overlap n h).Canon := by
  induction n generalizing h with
  | zero => exact w.done
  | succ n ih =>
    unfold Machine.copyLines
    dsimp -zeta only
    extract_lets +onlyGivenNames i
    split
    next e => exact (w.cmdRead.of_pair e).failPage
    next bs _ k e =>
      have wk := w.cmdRead.of_pair e
      have wfree : (if overlap then k.freeBytes 8 else (bs, k)).2.Canon := by
        split
        · exact wk.freeBytes
        · exact wk
      split
      next e => exact (wfree.cmdWrite.of_pair e).failPage
      next e => exact ih (wfree.cmdWrite.of_pair e)

theorem Hw.Canon.copyEffect {c} (w : h.Canon) : (copyEffect h c).Canon := by
  unfold Machine.copyEffect; exact w.spendDram.spendDram.copyLines

theorem Hw.Canon.cmdMemCopy {q p} (w : h.Canon) : (cmdMemCopy q p h).Canon := by
  unfold Machine.cmdMemCopy; exact w.issue .plain fun _ _ v => v.copyEffect

theorem Hw.Canon.cmdMemQuery {q p} (w : h.Canon) : (cmdMemQuery q p h).Canon := by
  unfold Machine.cmdMemQuery; exact w.issue .plain fun _ _ v => v.done

/-! Functions of `Machine/PartCmds`. -/

theorem Hw.Canon.bindRequester {pid q} (w : h.Canon) : (h.bindRequester pid q).Canon := by
  unfold Hw.bindRequester
  split
  · exact w.put.put.put
  · exact w

theorem Hw.Canon.createPart {r} (w : h.Canon) : (h.createPart r).Canon := by
  unfold Hw.createPart; exact .setRoute (w.update.put.foldl (fun _ _ v => v.bindRequester))

theorem Hw.Canon.partCreate {c} (w : h.Canon) : (partCreate h c).Canon := by
  unfold Machine.partCreate
  split
  next e => exact (w.takeKept.of_pair e).createPart.done
  next e' =>
    exact (w.takeKept.of_pair e').withRecord (fun _ _ v => .ite v.wildEnd (v.withRecord (fun _ _ u => u.wildEnd)))

theorem Hw.Canon.allocBlock {pid b} (w : h.Canon) : (h.allocBlock pid b).Canon := by
  unfold Hw.allocBlock; exact w.setSobOwner.put.update

theorem Hw.Canon.sobAlloc {c} (w : h.Canon) : (sobAlloc h c).Canon := by
  unfold Machine.sobAlloc
  split
  · exact w.allocBlock.done
  · exact w.wildEnd

/-! Functions of `Machine/JobOps`. -/

theorem Hw.Canon.dropJob {j} (w : h.Canon) : (h.dropJob j).Canon := by
  unfold Hw.dropJob; exact w.update

theorem Hw.Canon.noteMissed {j status} (w : h.Canon) : (h.noteMissed j status).Canon := by
  unfold Hw.noteMissed
  split
  · exact w
  · exact .ite w (.ite w.update w.update)

theorem Hw.Canon.endJob {j status detail} (w : h.Canon) : (h.endJob j status detail).Canon := by
  unfold Hw.endJob; exact .dropJob (.finishAt (.ite w.noteMissed w))

theorem Hw.Canon.finishJob {j} (w : h.Canon) : (h.finishJob j).Canon := by
  unfold Hw.finishJob; exact w.finishAt.dropJob

theorem Hw.Canon.settleDone {pid q num} (w : h.Canon) : (h.settleDone pid q num).Canon := by
  unfold Hw.settleDone
  split
  · exact .ite w.finishJob w
  · exact w

theorem Hw.Canon.credit {pid q num slot k} (w : h.Canon) : (h.credit pid q num slot k).Canon := by
  unfold Hw.credit; exact w.modJob

/-! Functions of `Machine/Placement`. -/

theorem Hw.Canon.reserveShort {pid l} (w : h.Canon) : (h.reserveShort pid l).Canon := by
  unfold Hw.reserveShort; exact .ite w w.update.put.event

theorem Hw.Canon.startSubstitute {l pid cmd} (w : h.Canon) : (h.startSubstitute l pid cmd).Canon := by
  unfold Hw.startSubstitute
  extract_lets +onlyGivenNames d red
  split
  · exact .ite w.update w.reserveShort
  · exact w.reserveShort

theorem Hw.Canon.startSubstitutes {l cmd} (w : h.Canon) : (h.startSubstitutes l cmd).Canon := by
  unfold Hw.startSubstitutes; exact w.foldl fun _ _ v => v.startSubstitute

theorem Hw.Canon.fillVacancies (w : h.Canon) : h.fillVacancies.Canon := by
  unfold Hw.fillVacancies; exact w.foldl fun _ _ v => v.foldl (fun _ _ u => .ite u u.startSubstitute)

theorem Hw.Canon.markRetired {t cause} (w : h.Canon) : (h.markRetired t cause).Canon := by
  unfold Hw.markRetired; exact w.update.put.event

theorem Hw.Canon.retireTile {t cause cmd} (w : h.Canon) : (h.retireTile t cause cmd).Canon := by
  unfold Hw.retireTile
  dsimp only
  refine .ite w ?_
  have wk1 : Hw.Canon (((match (h.tile t).slice with
      | some s => if s.draining then h.failJob s 0x3008 1 else h
      | none => h).endSlice t .abandoned).markRetired t cause) := by
    refine .markRetired (.endSlice ?_)
    split
    · exact .ite w.failJob w
    · exact w
  split
  · split
    · exact .finishAt wk1
    · exact wk1
  · split
    · exact .update wk1
    · refine .ite ?_ (.startSubstitutes (.update wk1))
      split
      · exact .finishAt (.startSubstitutes (.update wk1))
      · exact .startSubstitutes (.update wk1)

theorem Hw.Canon.moveWindows {src dst} (w : h.Canon) : (h.moveWindows src dst).Canon := by
  unfold Hw.moveWindows; exact w.foldl fun _ _ v => v.setReg

theorem Hw.Canon.clearWindows {t} (w : h.Canon) : (h.clearWindows t).Canon := by
  unfold Hw.clearWindows; exact w.foldl fun _ _ v => v.setReg

theorem Hw.Canon.markRelocated {t pid} (w : h.Canon) : (h.markRelocated t pid).Canon := by
  unfold Hw.markRelocated; exact w.update

theorem Hw.Canon.moveTile {src dst} (w : h.Canon) : (h.moveTile src dst).Canon := by
  unfold Hw.moveTile; exact w.markRelocated.modTile.moveWindows.put

theorem Hw.Canon.completeShift {x} (w : h.Canon) : (h.completeShift x).Canon := by
  unfold Hw.completeShift
  extract_lets +onlyGivenNames r c was k old k1 k2 m k3 k4
  have wk : k.Canon := w.foldl (fun _ _ v => v.moveTile)
  have wk2 : k2.Canon := wk.modTile
  have wm : m.Canon := wk2.clearWindows
  extract_lets +onlyGivenNames k5 k6
  have wk5 : k5.Canon := wm.update
  have wk6 : k6.Canon := wk5.event
  split
  · exact wk6.finishAt
  · exact wk6

theorem Hw.Canon.rebuildDie {d} (w : h.Canon) : (h.rebuildDie d).Canon := by
  unfold Hw.rebuildDie; exact w.update.foldl fun _ _ v => v.put

/-! Functions of `Machine/StnOps`. -/

theorem Hw.Canon.refillBuckets (w : h.Canon) : h.refillBuckets.Canon := by
  unfold Hw.refillBuckets; exact w.update

theorem Hw.Canon.refillStroke (w : h.Canon) : h.refillStroke.Canon := by
  unfold Hw.refillStroke; exact w.update.refillBuckets

theorem Hw.Canon.refillAfter {old} (w : h.Canon) : (h.refillAfter old).Canon := by
  unfold Hw.refillAfter; exact w.update.refillBuckets

theorem Hw.Canon.reloadCoat (w : h.Canon) : h.reloadCoat.Canon := by
  unfold Hw.reloadCoat; exact w.update

/-! Functions of `Machine/Apc`. -/

theorem Hw.Canon.sliceEnd {hart} (w : h.Canon) : (h.sliceEnd hart).Canon := by
  unfold Hw.sliceEnd; exact .ite w w.modApc

theorem Hw.Canon.guestTimer {pid hart cmp ns10} (w : h.Canon) : (h.guestTimer pid hart cmp ns10).Canon := by
  unfold Hw.guestTimer
  extract_lets +onlyGivenNames k
  refine .ite w ?_
  extract_lets +onlyGivenNames k1
  have wk1 : k1.Canon := by
    unfold k1
    split
    · exact w
    · exact w.modApc
  split
  · exact wk1
  · exact .ite wk1 wk1.modApc

theorem Hw.Canon.toGuest {pid hart cause addr} (w : h.Canon) : (h.toGuest pid hart cause addr).Canon := by
  unfold Hw.toGuest; exact w.modApc

theorem Hw.Canon.guestFault {r cause} (w : h.Canon) : (h.guestFault r cause).Canon := by
  unfold Hw.guestFault; exact w.toGuest

theorem Hw.Canon.consumed {r st} (w : h.Canon) : (h.consumed r st).Canon := by
  unfold Hw.consumed
  split
  · exact w.guestFault
  · exact w

theorem Hw.Canon.hitL2 {r x} (w : h.Canon) : (h.hitL2 r x).Canon := by
  unfold Hw.hitL2; exact .ite w.ownLine.modApc w.consumed

theorem Hw.Canon.fillL2 {r bs st} (w : h.Canon) : (h.fillL2 r bs st).Canon := by
  unfold Hw.fillL2; exact .modApc (.ite w.ownLine w)

theorem Hw.Canon.writeBack {r x held} (w : h.Canon) : (h.writeBack r x held).Canon := by
  unfold Hw.writeBack
  exact .ite (.modApc (.ite w.pushL2 w.pushL2.cleanSc.modApc)) (.ite w.pushL2 w.pushL2.cleanSc.modApc)

theorem Hw.Canon.blockOp {r} (w : h.Canon) : (h.blockOp r).Canon := by
  unfold Hw.blockOp; exact .ite w.snoop.cleanSc.discardLine w.snoop.cleanSc

theorem Hw.Canon.apcAccess {r} (w : h.Canon) : (h.apcAccess r).Canon := by
  unfold Hw.apcAccess
  refine .ite w.writePieces (.ite w.readPieces.consumed ?_)
  extract_lets +onlyGivenNames held
  split
  · exact .consumed (.ite w w.fillL2)
  · exact .ite w.cleanSc.modApc.readPieces.consumed w.cleanSc.modApc.readPieces.putSc.fillL2.consumed

theorem Hw.Canon.apcPerform {r} (w : h.Canon) : (h.apcPerform r).Canon := by
  unfold Hw.apcPerform
  refine .ite ?_ (.ite w.blockOp w.apcAccess)
  split
  · exact w.writeBack
  · exact w

theorem Hw.Canon.apcWait {r} (w : h.Canon) : (h.apcWait r).Canon := by
  unfold Hw.apcWait; exact w.modApc

theorem Hw.Canon.apcLocal {r} (w : h.Canon) : (h.apcLocal r).Canon := by
  unfold Hw.apcLocal
  refine .ite w (.ite w.modApc (.ite w.discardLine (.ite w ?_)))
  split
  · exact w.hitL2
  · exact w

theorem Hw.Canon.apcServe {r} (w : h.Canon) : (h.apcServe r).Canon := by
  unfold Hw.apcServe
  refine .ite w.apcLocal ?_
  extract_lets +onlyGivenNames b left
  refine .ite w.noteExhausted.apcWait ?_
  extract_lets +onlyGivenNames k r1 k1
  have wr1 : r1.Canon := .ite w w.update
  extract_lets +onlyGivenNames k2
  have wk2 : k2.Canon := .ite wr1 wr1.snoop
  refine .ite wk2.apcPerform (.ite wk2.apcWait ?_)
  split
  · exact wk2.noteExhausted.apcWait
  next e6 => exact (wk2.chargeDram e6).apcPerform

theorem Hw.Canon.apcRetry (w : h.Canon) : h.apcRetry.Canon := by
  unfold Hw.apcRetry; exact w.modApc.foldl fun _ _ v => v.apcServe

theorem Hw.Canon.apcRequest {o} (w : h.Canon) : (h.apcRequest o).Canon := by
  unfold Hw.apcRequest
  split
  · exact w
  · refine .ite w ?_
    extract_lets +onlyGivenNames r sp
    split
    · exact w.translationFault.guestFault
    · exact .ite w.event (.ite w.apcServe w)

theorem Hw.Canon.clearGfile {pid} (w : h.Canon) : (h.clearGfile pid).Canon := by
  unfold Hw.clearGfile
  split
  · exact w
  · exact w.update

theorem Hw.Canon.apcPartReset {pid} (w : h.Canon) : (h.apcPartReset pid).Canon := by
  unfold Hw.apcPartReset; exact .ite w w.clearGfile.purge.modApc

theorem Hw.Canon.apcStroke (w : h.Canon) : h.apcStroke.Canon := by
  unfold Hw.apcStroke; exact w.modApc.apcRetry

theorem Hw.Canon.apcDestroy {pid} (w : h.Canon) : (h.apcDestroy pid).Canon := by
  unfold Hw.apcDestroy; exact w.apcPartReset.modApc

theorem Hw.Canon.apcWarm (w : h.Canon) : h.apcWarm.Canon := by
  unfold Hw.apcWarm; exact w.purge.modApc

/-! Functions of `Machine/Fetch`. -/

theorem Hw.Canon.readChunk {pid q slot} (w : h.Canon) : (h.readChunk pid q slot).2.Canon := by
  unfold Hw.readChunk; exact w.readVa

theorem Hw.Canon.readFirst {pid q slot} (w : h.Canon) : (h.readFirst pid q slot).2.Canon := by
  unfold Hw.readFirst
  extract_lets +onlyGivenNames va
  split
  next e1 => exact w.readVa.of_pair e1
  next e1 =>
    split
    next e2 => exact (w.readVa.of_pair e1).readVa.of_pair e2
    next e2 => exact (w.readVa.of_pair e1).readVa.of_pair e2

theorem Hw.Canon.readChunks {pid q a3 a4} (w : h.Canon) : (h.readChunks pid q a3 a4).2.Canon := by
  induction a3 generalizing h a4 with
  | zero => exact w
  | succ n ih =>
    unfold Hw.readChunks
    split
    next e => exact w.readChunk.of_pair e
    next e =>
      split
      next e1 => exact (ih (w.readChunk.of_pair e)).of_pair e1
      next e1 => exact (ih (w.readChunk.of_pair e)).of_pair e1

theorem Hw.Canon.serveOwner {pid cp} (w : h.Canon) : (h.serveOwner pid cp).Canon := by
  unfold Hw.serveOwner; exact .ite w (.put (w.foldl (fun _ _ v => v.put)))

theorem Hw.Canon.enterFetched {f} (w : h.Canon) : (h.enterFetched f).Canon := by
  unfold Hw.enterFetched; exact w.update.modQueue.chargeFetch.serveOwner.setMirror

theorem Hw.Canon.fetchNext {pid q cp} (w : h.Canon) : (h.fetchNext pid q cp).Canon := by
  unfold Hw.fetchNext
  split
  · exact w
  next x1 _ =>
    refine .ite w (.ite w.setMirror ?_)
    extract_lets +onlyGivenNames base go
    have wgo : ∀ h x1, h.Canon → (go h x1).Canon := by
      intro _ _ v
      unfold go
      split
      · exact v.enterFetched
      · exact .setMirror (.ite v.noteExhausted v)
    split
    · exact .setMirror (.ite w.noteExhausted w)
    · split
      next e4 => exact wgo _ _ (w.readFirst.of_pair e4)
      next e4 => exact wgo _ _ (w.readFirst.of_pair e4)
      next e4 =>
        extract_lets +onlyGivenNames n
        refine .ite (w.readFirst.of_pair e4).setMirror ?_
        split
        · exact .setMirror (.ite (w.readFirst.of_pair e4).noteExhausted (w.readFirst.of_pair e4))
        · split
          next e8 => exact wgo _ _ ((w.readFirst.of_pair e4).readChunks.of_pair e8)
          next e8 => exact wgo _ _ ((w.readFirst.of_pair e4).readChunks.of_pair e8)

/-! Functions of `Machine/Flits`. -/

theorem Hw.Canon.post1 {m} (w : h.Canon) : (h.post1 m).Canon := by
  unfold Hw.post1; exact w.update

/-! Functions of `Machine/Station`. -/

theorem Hw.Canon.joinMem {c r} (w : h.Canon) : (h.joinMem c r).Canon := by
  unfold Hw.joinMem; exact .ite w.update w.update

theorem Hw.Canon.arriveMem {c r} (w : h.Canon) : (h.arriveMem c r).Canon := by
  unfold Hw.arriveMem; exact .ite w.event (.ite w.update (.ite w.update w.joinMem))

theorem Hw.Canon.sendHeld {c} (w : h.Canon) : (h.sendHeld c).Canon := by
  unfold Hw.sendHeld
  split
  · exact w.update.arriveMem
  · exact w

theorem Hw.Canon.resendMem {mine} (w : h.Canon) : (h.resendMem mine).Canon := by
  unfold Hw.resendMem; exact w.update.foldl fun _ _ v => v.arriveMem

/-! Functions of `Machine/Dram`. -/

theorem Hw.Canon.setLane {c lane r a4} (w : h.Canon) : (h.setLane c lane r a4).Canon := by
  unfold Hw.setLane; exact w.put.put.put.put.put.put.put.put

theorem Hw.Canon.noteMarginal {c lane} (w : h.Canon) : (h.noteMarginal c lane).Canon := by
  unfold Hw.noteMarginal; exact .ite w.put.event w

theorem Hw.Canon.trainChannel {c a b} (w : h.Canon) : (h.trainChannel c a b).2.Canon := by
  unfold Hw.trainChannel
  extract_lets +onlyGivenNames k k1 k2
  have wk : k.Canon := w.put.put
  have wk1 : k1.Canon := wk.addSat.put
  have wk2 : k2.Canon := wk1.modDram
  split
  · exact .ite wk2.setLane.setLane.noteMarginal.noteMarginal.healthAdd wk2.setLane.setLane.noteMarginal.noteMarginal
  · exact wk2

theorem Hw.Canon.modArb {i f} (w : h.Canon) : (h.modArb i f).Canon := by
  unfold Hw.modArb; exact w.update

theorem Hw.Canon.showFrozen {i} (w : h.Canon) : (h.showFrozen i).Canon := by
  unfold Hw.showFrozen; exact w.put

theorem Hw.Canon.freezeArb {i on} (w : h.Canon) : (h.freezeArb i on).Canon := by
  unfold Hw.freezeArb; exact w.modArb.showFrozen

theorem Hw.Canon.startRetire {c cause cmd} (w : h.Canon) : (h.startRetire c cause cmd).Canon := by
  unfold Hw.startRetire; exact .ite w w.modDram.freezeArb

theorem Hw.Canon.countStripes {before} (w : h.Canon) : (h.countStripes before).Canon := by
  unfold Hw.countStripes; exact w.put.put.foldl fun _ _ v => .ite v v.put.event

theorem Hw.Canon.rebuildJournal (w : h.Canon) : h.rebuildJournal.Canon := by
  unfold Hw.rebuildJournal
  extract_lets +onlyGivenNames k posted k1
  have wk : k.Canon := w.put.put
  have wk1 : k1.Canon := wk.addSat
  refine wk1.foldl fun _ _ z => ?_
  split
  · exact z.writeEntry
  · exact z

theorem Hw.Canon.loseDevice {d} (w : h.Canon) : (h.loseDevice d).Canon := by
  unfold Hw.loseDevice
  exact .ite w (.rebuildJournal (w.put.put.event.foldl (fun _ _ v => .ite v.put v.put.startRetire)))

theorem Hw.Canon.answerRetired {c} (w : h.Canon) : (h.answerRetired c).Canon := by
  unfold Hw.answerRetired; exact w.update

theorem Hw.Canon.loseDurable {c} (w : h.Canon) : (h.loseDurable c).Canon := Hw.loseDurable_wf c w

theorem Hw.Canon.completeRetire {c} (w : h.Canon) : (h.completeRetire c).Canon := by
  unfold Hw.completeRetire
  split
  · exact w
  · refine .ite w ?_
    dsimp -zeta only
    extract_lets +onlyGivenNames before k k1 k2 k3 k4 k5 k6
    have wk : k.Canon := w.modDram
    have wk1 : k1.Canon := wk.put.put
    have wk2 : k2.Canon := wk1.put.put
    have wk3 : k3.Canon := wk2.put.put
    have wk4 : k4.Canon := wk3.event.loseDurable.answerRetired
    have wk5 : k5.Canon := by
      unfold k5
      refine wk4.foldl fun _ _ q => ?_
      split
      · exact q.finishAt
      · exact q
    have wk6 : k6.Canon := .ite wk5.loseDevice wk5
    exact wk6.countStripes

theorem Hw.Canon.retrain (w : h.Canon) : h.retrain.Canon := by
  unfold Hw.retrain; exact .ite w (w.foldl (fun _ _ v => .ite v.put.modDram v))

theorem Hw.Canon.upsetLine {l u} (w : h.Canon) : (h.upsetLine l u).Canon := by
  unfold Hw.upsetLine; exact .ite w w.modDram

theorem Hw.Canon.rewriteLine {l} (w : h.Canon) : (h.rewriteLine l).Canon := Hw.rewriteLine_wf l w

theorem Hw.Canon.patrolLine {l} (w : h.Canon) : (h.patrolLine l).Canon := by
  unfold Hw.patrolLine
  extract_lets +onlyGivenNames bad before k k1 k2
  have wk : k.Canon := w.noteRead
  have wk1 : k1.Canon := .ite wk.rewriteLine.modDram wk
  have wk2 : k2.Canon := by
    unfold k2
    split
    · exact wk1.modDram
    · exact wk1
  exact .ite wk2.countStripes wk2

theorem Hw.Canon.patrolPass (w : h.Canon) : h.patrolPass.Canon := by
  unfold Hw.patrolPass; exact .ite w.addSat.put.modDram w

theorem Hw.Canon.leakOne {f} (w : h.Canon) : (h.leakOne f).Canon := by
  unfold Hw.leakOne; exact .ite w w.put

theorem Hw.Canon.leak (w : h.Canon) : h.leak.Canon := by
  unfold Hw.leak
  exact .ite w (.modDram (.ite (.foldl (.ite (w.foldl (fun _ _ v => v.leakOne)) w) (fun _ _ v => v.leakOne)) (.ite
    (w.foldl (fun _ _ v => v.leakOne)) w)))

theorem Hw.Canon.clampHairlines (w : h.Canon) : h.clampHairlines.Canon := by
  unfold Hw.clampHairlines; exact w.foldl (fun _ _ v => .ite (.ite v.put v) (.ite (.ite v.put v) v))

theorem Hw.Canon.startRebuild (w : h.Canon) : h.startRebuild.Canon := by
  unfold Hw.startRebuild
  split
  · exact w.put
  · exact w.put.modDram

theorem Hw.Canon.rebuildStripe {x} (w : h.Canon) : (h.rebuildStripe x).Canon := Hw.rebuildStripe_wf x w

theorem Hw.Canon.readmit {c} (w : h.Canon) : (h.readmit c).Canon := by
  unfold Hw.readmit
  extract_lets +onlyGivenNames k k1 m k2 k3 d n k4
  have v1 : k1.Canon := .freezeArb w.put.put.put
  have v2 : k2.Canon := v1.of_cells rfl
  have v4 : k4.Canon := .put v2.modDram
  exact .ite (.ite (.put (v4.put.foldl (fun _ _ q => q.put))) (v4.put.foldl (fun _ _ q => q.put))) v4

/-! Functions of `Machine/MapCmds`. -/

theorem Hw.Canon.showSets (w : h.Canon) : h.showSets.Canon := by
  unfold Hw.showSets; exact w.put

theorem Hw.Canon.mapEffect {c} (w : h.Canon) : (mapEffect h c).Canon :=
  .done (.showSets (Mem.mapped_wf h (mapReq c) _ _ w))

theorem Hw.Canon.unmapPages {ctx va n} (w : h.Canon) :
    (h.unmapPages ctx va n).2.2.Canon := Hw.unmapPages_wf ctx va n w

theorem Hw.Canon.unmapFrames {ctx fs} (w : h.Canon) : (h.unmapFrames ctx fs).Canon := Hw.unmapFrames_wf ctx fs w

theorem Hw.Canon.unmapRange {ctx va n} (w : h.Canon) : (h.unmapRange ctx va n).2.Canon := by
  unfold Hw.unmapRange; exact w.unmapPages.unmapFrames

theorem Hw.Canon.showUnmaps (w : h.Canon) : h.showUnmaps.Canon := by
  unfold Hw.showUnmaps; exact w.put

theorem Hw.Canon.settleUnmap {u} (w : h.Canon) : (h.settleUnmap u).Canon := by
  unfold Hw.settleUnmap; exact .ite w.update w.unmapFrames.finishAt

theorem Hw.Canon.settleUnmaps (w : h.Canon) : h.settleUnmaps.Canon := by
  unfold Hw.settleUnmaps; exact .showUnmaps (w.update.foldl (fun _ _ v => v.settleUnmap))

/-! Functions of `Machine/SelfTest`. -/

theorem Hw.Canon.runSection {t i} (w : h.Canon) : (h.runSection t i).Canon := by
  unfold Hw.runSection
  extract_lets +onlyGivenNames r k k1 k2 k3 k4
  have wk : k.Canon := w.put.put
  have wk1 : k1.Canon := .ite wk.healthAdd wk
  have wk2 : k2.Canon := .ite wk1.put.event wk1
  have wk4 : k4.Canon := .ite wk2.update.dieFault wk2
  exact .modTile (.ite wk4.put.modTile wk4)

theorem Hw.Canon.runAllSections {t} (w : h.Canon) : (h.runAllSections t).Canon := by
  unfold Hw.runAllSections; exact w.foldl fun _ _ v => v.runSection

theorem Hw.Canon.rotateSection {t} (w : h.Canon) : (h.rotateSection t).Canon := by
  unfold Hw.rotateSection; exact .ite w.runSection.retireTile w.runSection

/-! Functions of `Machine/TodBase`. -/

theorem Hw.Canon.advanceTod {t hd} (w : h.Canon) : (h.advanceTod t hd).Canon := by
  unfold Hw.advanceTod; exact w.modSeq

theorem Hw.Canon.noteWait {t a2} (w : h.Canon) : (h.noteWait t a2).Canon := by
  unfold Hw.noteWait; exact w.modSlice

theorem Hw.Canon.endWait {t a2} (w : h.Canon) : (h.endWait t a2).Canon := by
  unfold Hw.endWait; exact w.modSlice

theorem Hw.Canon.settle {t insn go stay r} (w : r.2.Canon) (hgo : ∀ h, h.Canon → (go h).Canon)
    (hstay : ∀ b h, h.Canon → (stay b h).Canon) : (settle t insn go stay r).Canon := by
  obtain ⟨r, k⟩ := r
  cases r with
  | ok => exact hgo k w
  | error e =>
    cases e with
    | exc => exact .raiseExc w
    | consumed => exact .consume w
    | fault => exact .faultStop w
    | waitNet => exact hstay true k w
    | waitDram => exact hstay false k w

theorem Hw.Canon.runT {m} (w : h.Canon) (hm : Keeps m) : (runT m h).2.Canon := hm h w

theorem Hw.Canon.stayTod {t d net} (w : h.Canon) : (h.stayTod t d net).Canon := by
  unfold Hw.stayTod; exact .ite w.noteWait w.noteWait.advanceTod

theorem Hw.Canon.runTod {t d eff} (w : h.Canon) (heff : ∀ y0 y1, Keeps (eff y0 y1)) : (h.runTod t d eff).Canon := by
  unfold Hw.runTod
  exact .ite w.raiseExc (.ite w.advanceTod ((w.runT (heff _ _)).settle (fun _ v => v.advanceTod) fun _ _ v =>
    v.stayTod))

theorem Hw.Canon.backTo {t q0} (w : h.Canon) : (h.backTo t q0).Canon := by
  unfold Hw.backTo; exact w.modSeq

theorem Hw.Canon.retryTod {t hd eff} (w : h.Canon) (heff : ∀ y0 y1, Keeps (eff y0 y1)) :
    (h.retryTod t hd eff).Canon := by
  unfold Hw.retryTod
  exact .ite ((w.runT (heff _ _)).settle (fun _ v => v.endWait.advanceTod) fun _ _ v => v)
    (.backTo ((w.modSeq.runT (heff _ _)).settle (fun _ v => v.endWait) fun _ _ v => v))

theorem Hw.Canon.fetchTod {t k} (w : h.Canon) (e : h.fetchTod t = some k) : k.2.2.Canon := by
  unfold Hw.fetchTod at e
  obtain ⟨-, e⟩ := Option.ite_none_right_eq_some.mp e
  obtain ⟨s, -, rfl⟩ := Option.map_eq_some_iff.mp e
  exact w.rdSram

theorem Hw.Canon.issueNext {t opc eff} (w : h.Canon) (heff : ∀ y0 y1, Keeps (eff y0 y1)) :
    (h.issueNext t opc eff).Canon := by
  unfold Hw.issueNext
  split
  · exact w
  next e =>
    exact .ite w.faultStop (.ite w.raiseExc (.ite (w.fetchTod e).consume (.ite (w.fetchTod e).raiseExc (.ite w
      ((w.fetchTod e).runTod (fun _ _ => heff _ _))))))

theorem Hw.Canon.issueTod {t opc eff} (w : h.Canon) (heff : ∀ y0 y1, Keeps (eff y0 y1)) :
    (h.issueTod t opc eff).Canon := by
  unfold Hw.issueTod
  split
  · exact w.retryTod fun _ _ => heff _ _
  · exact w.issueNext fun _ _ => heff _ _

/-! Functions of `Machine/CommitOps`. -/

theorem Hw.Canon.writeStaged {pid x} (w : h.Canon) : (h.writeStaged pid x).Canon := by
  unfold Hw.writeStaged
  split
  · exact w.writeVa
  · split
    · exact w
    · split
      next e2 => exact (w.readEntry.of_pair e2).store
      next e2 => exact w.readEntry.of_pair e2

theorem Hw.Canon.resolveAll_ok {t pid l k} (w : h.Canon) (e : h.resolveAll t pid l = .ok k) : k.Canon := by
  induction l generalizing h with
  | nil => cases e; exact w
  | cons p l ih =>
    unfold Hw.resolveAll at e
    split at e
    · cases e
    · split at e
      next e1 => exact ih (w.resolveStore.of_pair e1) e
      · cases e

theorem Hw.Canon.growLens {pid l} (w : h.Canon) : (h.growLens pid l).Canon := by
  unfold Hw.growLens
  refine w.foldl fun _ _ v => ?_
  split
  · exact v
  · split
    · exact .ite v.setSeq v
    · exact v

theorem Hw.Canon.performStores_ok {t pid l k} (w : h.Canon) (e : h.performStores t pid l = .ok k) : k.Canon := by
  unfold Hw.performStores at e
  split at e
  · cases e
  · split at e
    · cases e
    next e1 => cases e; exact .growLens ((w.resolveAll_ok e1).foldl fun _ _ v => v.writeStaged)

theorem Hw.Canon.performStores_error {t pid l x} (w : h.Canon) (e : h.performStores t pid l = .error x) :
    x.2.2.Canon := by
  unfold Hw.performStores at e
  split at e
  · cases e; exact w.translationFault
  · split at e
    · cases e
      dsimp only
      split
      · exact w.translationFault
      · exact w.walkEvent
    · cases e

theorem Hw.Canon.performSobs {pid l} (w : h.Canon) : (h.performSobs pid l).Canon := by
  unfold Hw.performSobs; exact w.foldl fun _ _ v => v.sobAccess

theorem Hw.Canon.chargeSobs_ok {s k} (w : h.Canon) (e : h.chargeSobs s = .ok k) : k.Canon := by
  unfold Hw.chargeSobs at e
  split at e
  · cases e
  next e1 => cases e; exact w.chargeEdges e1

theorem Hw.Canon.chargeCommit_ok {t s k} (w : h.Canon) (e : h.chargeCommit t s = .ok k) : k.Canon := by
  unfold Hw.chargeCommit at e
  dsimp only at e
  split at e
  · cases e
  next e1 =>
    split at e
    · cases e; exact w.chargeDma_ok e1
    · split at e
      · cases e
      next e2 => cases e; exact (w.chargeDma_ok e1).chargeSobs_ok e2

theorem Hw.Canon.chargeCommit_error {t s k} (w : h.Canon) (e : h.chargeCommit t s = .error k) : k.Canon := by
  unfold Hw.chargeCommit at e
  dsimp only at e
  split at e
  · cases e; exact w.noteShort
  · split at e
    · cases e
    · split at e
      · cases e; exact w.noteExhausted
      · cases e

theorem Hw.Canon.sendNotices {s src l} (w : h.Canon) : (h.sendNotices s src l).Canon := by
  unfold Hw.sendNotices; exact w.foldl fun _ _ v => v.post1

theorem Hw.Canon.sendCommits {t s src} (w : h.Canon) : (h.sendCommits t s src).Canon := by
  unfold Hw.sendCommits; exact w.foldl fun _ _ v => .ite v.post1.modTile v.post1

theorem Hw.Canon.sendReleases {t s src l} (w : h.Canon) : (h.sendReleases t s src l).Canon := by
  unfold Hw.sendReleases
  refine w.foldl fun _ _ v => ?_
  split
  · exact v
  · split
    · exact v
    · split
      · exact v
      · exact .modTile (v.foldl (fun _ _ u => u.post1))

theorem Hw.Canon.creditJob {t s src} (w : h.Canon) : (h.creditJob t s src).Canon := by
  unfold Hw.creditJob; exact .modJob (.ite w.credit w)

theorem Hw.Canon.closeSlice {t} (w : h.Canon) : (h.closeSlice t).Canon := by
  unfold Hw.closeSlice; exact w.dropReservations.modSlice

theorem Hw.Canon.finalCommit {t s} (w : h.Canon) : (h.finalCommit t s).Canon := by
  unfold Hw.finalCommit
  extract_lets +onlyGivenNames src
  split
  · exact w.failJob.closeSlice
  · refine .ite w.update.sendCommits.creditJob.modSlice ?_
    split
    next e3 => exact (w.performStores_error e3).failJob.closeSlice
    next e3 =>
      exact (w.performStores_ok e3).sendNotices.performSobs.sendCommits.sendReleases.creditJob.closeSlice.settleDone

/-! Functions of `Machine/Mesh`. -/

theorem Hw.Canon.enqueue {l port f} (w : h.Canon) : (h.enqueue l port f).Canon := by
  unfold Hw.enqueue; exact w.update

theorem Hw.Canon.toEdge {dir target f} (w : h.Canon) : (h.toEdge dir target f).Canon := by
  unfold Hw.toEdge; exact w.update

theorem Hw.Canon.badFlit {l port pid} (w : h.Canon) : (h.badFlit l port pid).Canon := by
  unfold Hw.badFlit; exact .ite w.faultStop w.update.event.healthAdd

theorem Hw.Canon.arriveFlit {l port x} (w : h.Canon) : (h.arriveFlit l port x).Canon := by
  unfold Hw.arriveFlit; exact .ite w.badFlit (.ite (.ite w.enqueue w) (.ite w.toEdge w.enqueue))

theorem Hw.Canon.forward {l f} (w : h.Canon) : (h.forward l f).Canon := by
  unfold Hw.forward
  split
  · split
    · exact w.toEdge
    · exact w.enqueue
  · exact .ite w.toEdge w.update
  · exact .ite w.update w

theorem Hw.Canon.serveOutput {l o} (w : h.Canon) : (h.serveOutput l o).Canon := by
  unfold Hw.serveOutput
  split
  · exact w
  · exact w.update.forward

theorem Hw.Canon.flitStep {l port a} (w : h.Canon) : (h.flitStep l port a).Canon := by
  unfold Hw.flitStep
  refine .ite w ?_
  extract_lets +onlyGivenNames k
  have wk : k.Canon := by
    unfold k
    split
    · exact w.arriveFlit
    · exact w
  split
  · exact wk
  · exact wk.serveOutput

theorem Hw.Canon.takeMsg {src dst types} (w : h.Canon) : (h.takeMsg src dst types).2.Canon := by
  unfold Hw.takeMsg
  extract_lets +onlyGivenNames want
  split
  · exact w
  · exact w.update

theorem Hw.Canon.takeDfin {src fin} (w : h.Canon) : (h.takeDfin src fin).2.Canon := by
  unfold Hw.takeDfin
  extract_lets +onlyGivenNames l
  split
  · exact w
  · exact w.update

theorem Hw.Canon.landMsg {m} (w : h.Canon) : (h.landMsg m).Canon := by
  unfold Hw.landMsg
  split
  · exact w
  · exact .modTile (.sealRows (w.foldl (fun _ _ v => v.wrSram)))

theorem Hw.Canon.commitArrives {m} (w : h.Canon) : (h.commitArrives m).Canon := by
  unfold Hw.commitArrives
  split
  · exact w
  · exact w.modTile

theorem Hw.Canon.releaseArrives {m} (w : h.Canon) : (h.releaseArrives m).Canon := by
  unfold Hw.releaseArrives
  split
  · exact w
  · exact w.modTile

/-! Functions of `Machine/Arbiter`. -/

theorem Hw.Canon.takeRequest {c r} (w : h.Canon) : (h.takeRequest c r).Canon := by
  unfold Hw.takeRequest; exact w.update

theorem Hw.Canon.starve {i pid} (w : h.Canon) : (h.starve i pid).Canon := by
  unfold Hw.starve; exact w.put.put.event

theorem Hw.Canon.noteGrant {i r el pidOf hint} (w : h.Canon) : (h.noteGrant i r el pidOf hint).Canon := by
  unfold Hw.noteGrant
  exact .ite (.traceAdd (w.modArb.foldl (fun _ _ v => .ite v.starve v))) (w.modArb.foldl (fun _ _ v => .ite v.starve
    v))

theorem Hw.Canon.useSlots {i n} (w : h.Canon) : (h.useSlots i n).Canon := by
  unfold Hw.useSlots; exact w.modArb

theorem Hw.Canon.grantPort {c} (w : h.Canon) : (h.grantPort c).Canon := by
  unfold Hw.grantPort
  extract_lets +onlyGivenNames ws el k
  have wk : k.Canon := w.foldl fun _ _ v => .ite v v.noteExhausted
  refine .ite wk ?_
  extract_lets +onlyGivenNames a
  split
  · exact wk
  · split
    · exact wk
    · exact .useSlots (.noteGrant (.update (.modArb (wk.getD fun _ => wk.chargeDram))))

theorem Hw.Canon.serveBurst {c u} (w : h.Canon) : (h.serveBurst c u).Canon := by
  unfold Hw.serveBurst
  split
  · exact w
  next x1 x2 _ =>
    extract_lets +onlyGivenNames before k k1 answer k2
    have wk : k.Canon := w.modArb.upsetLine
    have wk1 : k1.Canon := .ite wk wk.countStripes
    have wanswer : ∀ h x1 x2, h.Canon → (answer h x1 x2).Canon := fun _ _ _ z => z.update
    have wk2 : k2.Canon := .ite (wanswer _ _ _ wk1.portWrite) (wanswer _ _ _ wk1.portRead)
    exact wk2.sendHeld.showFrozen.settleUnmaps

theorem Hw.Canon.neighbourRefresh {c} (w : h.Canon) : (h.neighbourRefresh c).Canon := by
  unfold Hw.neighbourRefresh; exact .ite w.random.addWrap w.random

theorem Hw.Canon.crossed {x} (w : h.Canon) : (h.crossed x).Canon := by
  unfold Hw.crossed; exact .ite w.update w

theorem Hw.Canon.grantEdge {dir retries} (w : h.Canon) : (h.grantEdge dir retries).Canon := by
  unfold Hw.grantEdge
  extract_lets +onlyGivenNames i ws el k
  have wk : k.Canon := w.foldl fun _ _ v => .ite v v.noteExhausted
  refine .ite wk ?_
  extract_lets +onlyGivenNames a
  split
  · exact wk
  · split
    · exact wk
    · extract_lets +onlyGivenNames k1 fab k2 k3
      have wk2 : k2.Canon := .update (wk.getD fun _ => wk.chargeEdges)
      have wk3 : k3.Canon := .ite wk2 wk2.healthAdd
      exact wk3.crossed.modArb.noteGrant.useSlots

theorem Hw.Canon.storeRound {ops} (w : h.Canon) : (h.storeRound ops).Canon := by
  unfold Hw.storeRound; exact w.foldl fun _ _ v => v.sobAccess.update.noteGrant

theorem Hw.Canon.showWaits {cp} (w : h.Canon) : (h.showWaits cp).Canon := by
  unfold Hw.showWaits; exact w.foldl fun _ _ v => .ite v v.fetchNext

theorem Hw.Canon.grantFetch (w : h.Canon) : h.grantFetch.Canon := by
  unfold Hw.grantFetch
  split
  · exact w
  · extract_lets +onlyGivenNames k el a
    have wk : k.Canon := w.showWaits
    split
    · exact wk
    · extract_lets +onlyGivenNames pid
      split
      · exact wk
      · exact wk.fetchNext.modArb.noteGrant.useSlots

theorem Hw.Canon.flushTrace (w : h.Canon) : h.flushTrace.Canon := by
  unfold Hw.flushTrace
  split
  · exact w
  · exact .ite w (.update (w.foldl (fun _ _ v => v.writeVa)))

/-! Functions of `Machine/Traverse`. -/

theorem Hw.Canon.modDatum {d f} (w : h.Canon) : (h.modDatum d f).Canon := by
  unfold Hw.modDatum; exact .ite w.update w.update

theorem Hw.Canon.showTrv {d} (w : h.Canon) : (h.showTrv d).Canon := by
  unfold Hw.showTrv
  extract_lets +onlyGivenNames x k k1 k2 k3 k4 k5
  have wk : k.Canon := w.put.put
  have wk1 : k1.Canon := wk.put.put
  have wk2 : k2.Canon := wk1.put.put
  have wk3 : k3.Canon := wk2.put.put
  have wk4 : k4.Canon := wk3.put.put
  have wk5 : k5.Canon := wk4.put.put
  split
  · exact wk5.put.put.put
  · exact wk5.put.put.put

theorem Hw.Canon.trvFault {d cause pid} (w : h.Canon) : (h.trvFault d cause pid).Canon := by
  unfold Hw.trvFault; exact .ite w.put.put w.put.put.put.put.put

theorem Hw.Canon.deliveryFailed {pid q num} (w : h.Canon) : (h.deliveryFailed pid q num).Canon := by
  unfold Hw.deliveryFailed; exact .finishAt (.detect (w.foldl (fun _ _ v => v.trvFault)))

/-! Functions of `Machine/TravCmds`. -/

theorem Hw.Canon.trvSurveyUpdate {c} (w : h.Canon) : (trvSurveyUpdate h c).Canon := by
  unfold Machine.trvSurveyUpdate; exact w.withRecord fun _ _ v => v.update

theorem Hw.Canon.dropUpdate {u} (w : h.Canon) : (h.dropUpdate u).Canon := by
  unfold Hw.dropUpdate; exact w.update

theorem Hw.Canon.failUpdate {u} (w : h.Canon) : (h.failUpdate u).Canon := by
  unfold Hw.failUpdate; exact w.dropUpdate.deliveryFailed

theorem Hw.Canon.applySurvey {u} (w : h.Canon) : (h.applySurvey u).Canon := by
  unfold Hw.applySurvey
  refine .ite w.failUpdate ?_
  extract_lets +onlyGivenNames r k idx
  have wk : k.Canon := by
    unfold k
    refine w.foldl fun _ _ v => ?_
    dsimp -zeta only
    extract_lets +onlyGivenNames k1 k2
    have wk1 : k1.Canon := v.modDatum
    have wk2 : k2.Canon := by
      unfold k2
      refine .ite ?_ wk1.trvFault
      split
      · exact wk1.put.put
      · exact wk1
    exact wk2.showTrv
  exact wk.dropUpdate.finishAt

theorem Hw.Canon.applySurveys (w : h.Canon) : h.applySurveys.Canon := by
  unfold Hw.applySurveys; exact w.foldl fun _ _ v => v.applySurvey

theorem Hw.Canon.trvEnvelope {c} (w : h.Canon) : (trvEnvelope h c).Canon := by
  unfold Machine.trvEnvelope
  refine w.withRecord fun _ _ v => .ite v.deliveryFailed ?_
  split
  · exact v.done
  · exact .done (v.foldl (fun _ _ u => u.modDatum.showTrv))

theorem Hw.Canon.withTraj {c k} (w : h.Canon) (hk : ∀ h y1, h.Canon → (k h y1).Canon) : (h.withTraj c k).Canon := by
  unfold Hw.withTraj; exact w.withRecord fun _ _ v => v.withRecord (fun _ _ u => hk _ _ u)

theorem Hw.Canon.orderTraj {dust c} (w : h.Canon) : (h.orderTraj dust c).Canon := by
  unfold Hw.orderTraj; exact w.withTraj fun _ _ v => .ite v.update v.deliveryFailed

theorem Hw.Canon.sendBbOn {k f} (w : h.Canon) : (h.sendBbOn k f).Canon := by
  unfold Hw.sendBbOn; exact .ite w.addSat.update w.addSat

theorem Hw.Canon.sendBb {data} (w : h.Canon) : (h.sendBb data).Canon := by
  unfold Hw.sendBb; exact .ite w.sendBbOn.sendBbOn w

theorem Hw.Canon.sendTraj {dust t} (w : h.Canon) : (h.sendTraj dust t).Canon := by
  unfold Hw.sendTraj; exact w.foldl fun _ _ v => v.sendBb

theorem Hw.Canon.adoptTraj {o} (w : h.Canon) : (h.adoptTraj o).Canon := by
  unfold Hw.adoptTraj
  exact .finishAt (.ite (.update (w.foldl (fun _ _ v => v.modDatum.showTrv))) (.sendTraj (.update (w.foldl (fun
    _ _ v => v.modDatum.showTrv)))))

theorem Hw.Canon.adoptTrajs (w : h.Canon) : h.adoptTrajs.Canon := by
  unfold Hw.adoptTrajs; exact w.foldl fun _ _ v => v.adoptTraj

theorem Hw.Canon.trvBoundary (w : h.Canon) : h.trvBoundary.Canon := by
  unfold Hw.trvBoundary; exact w.applySurveys.adoptTrajs

theorem Hw.Canon.trvCheck {c} (w : h.Canon) : (trvCheck h c).Canon := by
  unfold Machine.trvCheck
  exact w.withTraj (fun _ _ v => .ite v.deliveryFailed (v.foldl (fun _ _ u => u.modDatum.showTrv)))

theorem Hw.Canon.dropCand {d c} (w : h.Canon) : (h.dropCand d c).Canon := by
  unfold Hw.dropCand; exact w.modDatum.showTrv

theorem Hw.Canon.shapeIn {d c} (w : h.Canon) : (h.shapeIn d c).Canon := by
  unfold Hw.shapeIn
  extract_lets +onlyGivenNames x made
  cases made with
  | ok b => exact w.modDatum
  | error r => exact w.modDatum.dropCand.addWrap

theorem Hw.Canon.endCands {p status detail} (w : h.Canon) : (h.endCands p status detail).Canon := by
  unfold Hw.endCands; exact .showTrv (.showTrv (.update (w.foldl (fun _ _ v => v.finishAt))))

theorem Hw.Canon.revokeCands {pid} (w : h.Canon) : (h.revokeCands pid).Canon := by
  unfold Hw.revokeCands; exact w.endCands

theorem Hw.Canon.abortCands {pid detail} (w : h.Canon) : (h.abortCands pid detail).Canon := by
  unfold Hw.abortCands; exact .endCands (.update (w.foldl (fun _ _ v => v.finishAt)))

theorem Hw.Canon.chooseCand {d} (w : h.Canon) : (h.chooseCand d).2.Canon := by
  unfold Hw.chooseCand
  split
  · exact w.update.dropCand.modDatum
  · exact w.update

theorem Hw.Canon.takeCand {d} (w : h.Canon) : (h.takeCand d).2.Canon := by
  unfold Hw.takeCand
  extract_lets +onlyGivenNames k
  have wk : k.Canon := w.foldl (fun _ _ v => .ite v.noteExhausted v)
  split
  · split
    · split
      · exact wk.dropCand.modDatum
      · exact wk
    · exact wk.chooseCand
  · exact wk.chooseCand

theorem Hw.Canon.brakeBegins {d} (w : h.Canon) : (h.brakeBegins d).Canon := by
  unfold Hw.brakeBegins; exact .ite w w.modDatum.put.event

theorem Hw.Canon.slotChoice {d} (w : h.Canon) : (h.slotChoice d).2.Canon := by
  unfold Hw.slotChoice
  extract_lets +onlyGivenNames x m
  split
  · exact w
  · split
    · split
      · exact w
      · split
        · exact w
        · exact w.brakeBegins
    · split
      · exact w.modDatum
      · split
        next e4 => exact w.takeCand.of_pair e4
        next e4 => exact w.takeCand.of_pair e4

theorem Hw.Canon.trvUpset {d u} (w : h.Canon) : (h.trvUpset d u).Canon := by
  unfold Hw.trvUpset; exact w.modDatum.trvFault.event.healthAdd

theorem Hw.Canon.dustVerdict {d v} (w : h.Canon) : (h.dustVerdict d v).Canon := by
  unfold Hw.dustVerdict
  extract_lets +onlyGivenNames x
  refine .ite w (.ite (.ite ?_ w.modDatum) w.modDatum)
  extract_lets +onlyGivenNames t k k1
  have wk1 : k1.Canon := .ite w.modDatum.event w.modDatum
  cases t with
  | none => exact wk1
  | some t => exact .ite wk1.sendTraj wk1

theorem Hw.Canon.completeVerdict {d v} (w : h.Canon) : (h.completeVerdict d v).Canon := by
  unfold Hw.completeVerdict
  extract_lets +onlyGivenNames k k1 k2 last k3
  have wk : k.Canon := w.addWrap
  have wk1 : k1.Canon := wk.modDatum
  have wk2 : k2.Canon := .ite wk1.put wk1
  have wlast : ∀ h x1 x2 x3, h.Canon → (last h x1 x2 x3).Canon := fun _ _ _ _ y => y.put.put.put
  have wk3 : k3.Canon := wlast _ _ _ _ wk2
  exact .showTrv (.dustVerdict (.ite (.ite wk3.put wk3) (.ite (wlast _ _ _ _ wk2) wk2)))

theorem Hw.Canon.finishCand {c} (w : h.Canon) : (h.finishCand c).Canon := by
  unfold Hw.finishCand
  extract_lets +onlyGivenNames of a b ok bytes
  have wbytes : ∀ v h, h.Canon → (bytes v h).2.Canon := by
    intro v h w
    cases v with
    | none => exact w.freeBytes
    | some v => exact w
  dsimp -zeta only
  extract_lets +onlyGivenNames t extra cut k
  have wk : k.Canon := .update (wbytes b _ (wbytes a h w))
  split
  next e => exact (wk.writeVa.of_pair e).finishAt
  next e => exact (wk.writeVa.of_pair e).finishAt

theorem Hw.Canon.compareOne {d arrives v} (w : h.Canon) : (h.compareOne d arrives v).Canon := by
  unfold Hw.compareOne
  extract_lets +onlyGivenNames peer agree k k1
  have wk : k.Canon := w.modDatum
  have wk1 : k1.Canon := .ite wk wk.trvFault.detect
  split
  · exact .ite wk1.finishCand wk1
  · exact wk1

theorem Hw.Canon.trvCoat (w : h.Canon) : h.trvCoat.Canon := by
  unfold Hw.trvCoat
  extract_lets +onlyGivenNames k
  have wk : k.Canon := w.foldl (fun _ _ v => v.modDatum.showTrv)
  split
  · extract_lets +onlyGivenNames k1
    have wk1 : k1.Canon := by
      unfold k1
      split
      · exact wk.sendTraj
      · exact wk
    split
    · exact wk1.sendTraj
    · exact wk1
  · exact wk

/-! Functions of `Machine/DatumOps`. -/

theorem Hw.Canon.showDtm {d} (w : h.Canon) : (h.showDtm d).Canon := by
  unfold Hw.showDtm; exact w.put.put.put.put.put

theorem Hw.Canon.latch {d code die pid s0} (w : h.Canon) : (h.latch d code die pid s0).Canon := by
  unfold Hw.latch
  refine .ite w ?_
  extract_lets +onlyGivenNames die1 k
  have wk : k.Canon := w.modDatum
  exact .ite wk (.showDtm (.event (.put (.ite (.put (.ite wk.modDatum.update wk.modDatum)) (.put (.put (.put (.put
    (.put (.ite wk.modDatum.update wk.modDatum))))))))))

theorem Hw.Canon.latchOwn {d code die pid} (w : h.Canon) : (h.latchOwn d code die pid).Canon := by
  unfold Hw.latchOwn; exact w.latch.update

theorem Hw.Canon.latchDue {d} (w : h.Canon) : (h.latchDue d).Canon := by
  unfold Hw.latchDue; exact .ite w (w.update.foldl (fun _ _ v => v.latch))

theorem Hw.Canon.unlatch {d gone} (w : h.Canon) : (h.unlatch d gone).Canon := by
  unfold Hw.unlatch; exact w.modDatum.showDtm

theorem Hw.Canon.clearAtStandby {d} (w : h.Canon) : (h.clearAtStandby d).Canon := by
  unfold Hw.clearAtStandby; exact .ite w w.unlatch

theorem Hw.Canon.clearAtWarm {d} (w : h.Canon) : (h.clearAtWarm d).Canon := by
  unfold Hw.clearAtWarm; exact w.unlatch

theorem Hw.Canon.driveLoop {d} (w : h.Canon) : (h.driveLoop d).Canon := by
  unfold Hw.driveLoop; exact .ite w.put w.put.modDatum

theorem Hw.Canon.setHold {d} (w : h.Canon) : (h.setHold d).Canon := by
  unfold Hw.setHold; exact .ite (.event (.put (.put (.put (.ite w w.modDatum))))) (.put (.put (.ite w w.modDatum)))

theorem Hw.Canon.startRestart {d} (w : h.Canon) : (h.startRestart d).Canon := by
  unfold Hw.startRestart; exact .ite w.update.showDtm.showDtm w

theorem Hw.Canon.evalDatum {d ppm} (w : h.Canon) : (h.evalDatum d ppm).Canon := by
  unfold Hw.evalDatum
  exact .ite w.driveLoop (.driveLoop (.setHold (.startRestart (.ite w.put.latchDue.latchOwn w.put.latchDue))))

theorem Hw.Canon.loseMonitor {d e} (w : h.Canon) : (h.loseMonitor d e).Canon := by
  unfold Hw.loseMonitor; exact .ite w w.modDatum.put.latchOwn

theorem Hw.Canon.breakLockstep {kind} (w : h.Canon) : (h.breakLockstep kind).Canon := by
  unfold Hw.breakLockstep; exact w.foldl fun _ _ v => v.put.event.latch

theorem Hw.Canon.sendCan {d r} (w : h.Canon) : (h.sendCan d r).Canon := by
  unfold Hw.sendCan; exact .ite w.update w

theorem Hw.Canon.sendDatumRecord {d} (w : h.Canon) : (h.sendDatumRecord d).Canon := by
  unfold Hw.sendDatumRecord; exact .ite (.ite w.modDatum.sendCan.sendBb w.modDatum.sendCan) w

theorem Hw.Canon.sendHubRecord (w : h.Canon) : h.sendHubRecord.Canon := by
  unfold Hw.sendHubRecord; exact .ite w.update.sendBb w

theorem Hw.Canon.checkerTest {d row die pass} (w : h.Canon) : (h.checkerTest d row die pass).Canon := by
  unfold Hw.checkerTest
  exact .ite w (.ite (.ite w.put.put.put.modDatum w.put.put.modDatum) (.latchOwn (.event (.put (.ite
    w.put.put.put.modDatum w.put.put.modDatum)))))

theorem Hw.Canon.resetDatum {d} (w : h.Canon) : (h.resetDatum d).Canon := by
  unfold Hw.resetDatum; exact w.resetBlocks.resetBlocks.put.modDatum

/-! Functions of `Machine/Finisher`. -/

theorem Hw.Canon.dfinRecord {fin cause pid req} (w : h.Canon) : (h.dfinRecord fin cause pid req).Canon := by
  unfold Hw.dfinRecord; exact .ite w.put w.put.put.put.put.put.put

theorem Hw.Canon.dfinFault {fin cause pid req} (w : h.Canon) : (h.dfinFault fin cause pid req).Canon := by
  unfold Hw.dfinFault; exact w.dfinRecord.put

theorem Hw.Canon.showDfin (w : h.Canon) : h.showDfin.Canon := by
  unfold Hw.showDfin; exact w.foldl fun _ _ v => v.put.put.put

theorem Hw.Canon.addNotice {fin pid n stained} (w : h.Canon) : (h.addNotice fin pid n stained).Canon := by
  unfold Hw.addNotice; exact w.update

theorem Hw.Canon.openRequest {fin pid n} (w : h.Canon) : (h.openRequest fin pid n).1.Canon := by
  unfold Hw.openRequest
  extract_lets +onlyGivenNames req va
  split
  next e1 => exact (w.readVa.of_pair e1).dfinFault
  next e1 => exact (w.readVa.of_pair e1).update

theorem Hw.Canon.takeNotice {fin pid n stained} (w : h.Canon) : (h.takeNotice fin pid n stained).Canon := by
  unfold Hw.takeNotice
  extract_lets +onlyGivenNames req
  refine .ite w.addNotice.showDfin (.ite w.dfinRecord.put.event ?_)
  split
  next e => exact (w.openRequest.of_fst e).addNotice.showDfin
  next e => exact w.openRequest.of_fst e

theorem Hw.Canon.readAnchor {r rec} (w : h.Canon) : (h.readAnchor r rec).2.Canon := by
  unfold Hw.readAnchor
  split
  · split
    next e1 => exact w.readVa.of_pair e1
    next e1 => exact w.readVa.of_pair e1
  · exact w

theorem Hw.Canon.readCandidate {r x i} (w : h.Canon) : (h.readCandidate r x i).2.Canon := by
  unfold Hw.readCandidate
  split
  · exact w
  · split
    next e1 => exact w.readVa.of_pair e1
    next e1 =>
      extract_lets +onlyGivenNames x4
      split
      · exact w.readVa.of_pair e1
      · split
        · exact w.readVa.of_pair e1
        · extract_lets +onlyGivenNames x5 score
          split
          · exact w.readVa.of_pair e1
          · split
            next e7 => exact (w.readVa.of_pair e1).readAnchor.of_pair e7
            next e7 =>
              extract_lets +onlyGivenNames b
              split
              · exact (w.readVa.of_pair e1).readAnchor.of_pair e7
              · exact (w.readVa.of_pair e1).readAnchor.of_pair e7

theorem Hw.Canon.dfinAdd {r} (w : h.Canon) : (h.dfinAdd r).Canon := by
  unfold Hw.dfinAdd; exact w.sobAccess

theorem Hw.Canon.dfinWrite {r summary boxes} (w : h.Canon) : (h.dfinWrite r summary boxes).Canon := by
  unfold Hw.dfinWrite
  split
  · exact w.translationFault.dfinFault
  · exact w.writePieces.dfinAdd

theorem Hw.Canon.dfinFailed {r x status} (w : h.Canon) : (h.dfinFailed r x status).Canon := by
  unfold Hw.dfinFailed; exact .dfinWrite (.free (.ite w.dfinFault.event w.dfinFault))

theorem Hw.Canon.dfinWild {r} (w : h.Canon) : (h.dfinWild r).Canon := by
  unfold Hw.dfinWild; exact w.freeBytes.dfinWrite

theorem Hw.Canon.dfinScratch {r} (w : h.Canon) : (h.dfinScratch r).2.Canon := by
  unfold Hw.dfinScratch
  dsimp -zeta only
  split
  next e1 => exact w.freeBytes.writeVa.of_pair e1
  next e1 => exact w.freeBytes.writeVa.of_pair e1

theorem Hw.Canon.readRecords {r} (w : h.Canon) : (h.readRecords r).2.Canon := by
  unfold Hw.readRecords; exact w.foldl₂ fun _ _ v => v.readCandidate

theorem Hw.Canon.runRequest {r} (w : h.Canon) : (h.runRequest r).Canon := by
  unfold Hw.runRequest
  refine .ite w.dfinFailed (.ite w.dfinWild (.ite w.readRecords.dfinWild ?_))
  split
  · exact w.readRecords.dfinFailed
  · split
    next e => exact (w.readRecords.dfinScratch.of_pair e).dfinFailed
    next e => exact (w.readRecords.dfinScratch.of_pair e).dfinWrite

theorem Hw.Canon.dropRequest {r} (w : h.Canon) : (h.dropRequest r).Canon := by
  unfold Hw.dropRequest; exact w.update.addSat

theorem Hw.Canon.putRequest {r r'} (w : h.Canon) : (h.putRequest r r').Canon := by
  unfold Hw.putRequest; exact w.update

theorem Hw.Canon.dfinMove {r} (w : h.Canon) : (h.dfinMove r).2.Canon := by
  unfold Hw.dfinMove; exact w.payLines.putRequest

theorem Hw.Canon.dfinSpend {fin c n} (w : h.Canon) : (h.dfinSpend fin c n).Canon := by
  unfold Hw.dfinSpend; exact w.update

theorem Hw.Canon.dfinTurn {r n} (w : h.Canon) : (h.dfinTurn r n).2.Canon := by
  unfold Hw.dfinTurn; exact w.dfinSpend.putRequest.update

theorem Hw.Canon.dfinQuanta {fin c a3} (w : h.Canon) : (h.dfinQuanta fin c a3).Canon := by
  induction a3 generalizing h with
  | zero => exact w
  | succ n ih =>
    unfold Hw.dfinQuanta
    split
    · exact .ite w (ih w.dfinTurn)
    · exact w

theorem Hw.Canon.dfinStroke (w : h.Canon) : h.dfinStroke.Canon := by
  unfold Hw.dfinStroke
  exact .ite w (.update (.foldl (w.foldl (fun _ _ v => v.foldl (fun _ _ u => u.dfinQuanta))) (fun _ _ v =>
    v.dfinMove)))

theorem Hw.Canon.dfinPartReset {pid} (w : h.Canon) : (h.dfinPartReset pid).Canon := by
  unfold Hw.dfinPartReset; exact w.update.showDfin

theorem Hw.Canon.dfinDieReset {fin} (w : h.Canon) : (h.dfinDieReset fin).Canon := by
  unfold Hw.dfinDieReset; exact .showDfin (w.update.foldl (fun _ _ v => v.dfinWrite))

/-! Functions of `Machine/Images`. -/

theorem Hw.Canon.modModel {pid hd f} (w : h.Canon) : (h.modModel pid hd f).Canon := by
  unfold Hw.modModel; exact w.update

theorem Hw.Canon.setWindows {t} (w : h.Canon) : (h.setWindows t).Canon := by
  unfold Hw.setWindows; exact .modTile (w.foldl (fun _ _ v => v.setReg))

theorem Hw.Canon.zeroUnits {t m} (w : h.Canon) : (h.zeroUnits t m).Canon := by
  unfold Hw.zeroUnits; exact w.modTile

theorem Hw.Canon.register {pid hd m} (w : h.Canon) : (h.register pid hd m).Canon := by
  unfold Hw.register
  extract_lets +onlyGivenNames before k ls
  have wk : k.Canon := w.update
  refine wk.foldl fun _ _ u => ?_
  split
  · exact u.zeroUnits.setWindows
  · exact u

theorem Hw.Canon.unregister {pid hd} (w : h.Canon) : (h.unregister pid hd).Canon := by
  unfold Hw.unregister
  split
  · exact w
  · exact w.update.foldl fun _ _ v => v.setWindows

theorem Hw.Canon.unbind {pid hd} (w : h.Canon) : (h.unbind pid hd).Canon := by
  unfold Hw.unbind; exact w.update

theorem Hw.Canon.toRegistered {pid hd} (w : h.Canon) : (h.toRegistered pid hd).Canon := by
  unfold Hw.toRegistered; exact w.unbind.modModel

theorem Hw.Canon.install {pid hd} (w : h.Canon) : (h.install pid hd).Canon := by
  unfold Hw.install
  split
  · exact w
  · refine .ite w ?_
    split
    · exact w.modModel
    · exact .modModel (w.foldl (fun _ _ v => v.toRegistered))

theorem Hw.Canon.reinstall {pid} (w : h.Canon) : (h.reinstall pid).Canon := by
  unfold Hw.reinstall; exact w.foldl fun _ _ v => v.install

theorem Hw.Canon.bindModel {pid hd m} (w : h.Canon) : (h.bindModel pid hd m).Canon := by
  unfold Hw.bindModel
  refine w.unbind.foldl fun _ _ v => ?_
  split
  · exact v.modTile
  · exact v

theorem Hw.Canon.loadSegment_ok {pid t va s k} (w : h.Canon) (e : h.loadSegment pid t va s = .ok k) : k.Canon := by
  unfold Hw.loadSegment at e
  split at e
  · cases e
  · cases e
    exact .wrSram (Hw.Canon.foldl₂ (α := List SByte) w fun _ _ v => v.portRead)

theorem Hw.Canon.loadAll_ok {pid va l k} (w : h.Canon) (e : h.loadAll pid va l = .ok k) : k.Canon := by
  induction l generalizing h with
  | nil => cases e; exact w
  | cons p l ih =>
    unfold Hw.loadAll at e
    split at e
    · cases e
    next e1 => exact ih (w.loadSegment_ok e1) e

theorem Hw.Canon.loadAll_error {pid va l x} (w : h.Canon) (e : h.loadAll pid va l = .error x) : x.2.2.Canon := by
  induction l generalizing h with
  | nil => cases e
  | cons p l ih =>
    unfold Hw.loadAll at e
    split at e
    · cases e; exact w
    next e1 => exact ih (w.loadSegment_ok e1) e

/-! Functions of `Machine/SyncCmds`. -/

theorem Hw.Canon.cmdSobSet {q p} (w : h.Canon) : (cmdSobSet q p h).Canon := by
  unfold Machine.cmdSobSet; exact w.issue .plain fun _ _ v => v.sobCommand.done

theorem Hw.Canon.cmdSobAdd {q p} (w : h.Canon) : (cmdSobAdd q p h).Canon := by
  unfold Machine.cmdSobAdd; exact w.issue .plain fun _ _ v => v.sobCommand.done

theorem Hw.Canon.registerWatch {a1} (w : h.Canon) : (h.registerWatch a1).Canon := by
  unfold Hw.registerWatch; exact .ite w w.update.settleWatches

theorem Hw.Canon.cmdSobWait {q p} (w : h.Canon) : (cmdSobWait q p h).Canon := by
  unfold Machine.cmdSobWait; exact w.issue .plain fun _ _ v => v.registerWatch

theorem Hw.Canon.cmdSobRead {q p} (w : h.Canon) : (cmdSobRead q p h).Canon := by
  unfold Machine.cmdSobRead; exact w.issue .plain fun _ _ v => v.sobAccess.done

theorem Hw.Canon.watchTimeouts (w : h.Canon) : h.watchTimeouts.Canon := by
  unfold Hw.watchTimeouts; exact .update (w.foldl (fun _ _ v => v.finishAt))

/-! Functions of `Machine/Jobs`. -/

theorem Hw.Canon.jobCancel {c} (w : h.Canon) : (jobCancel h c).Canon := by
  unfold Machine.jobCancel
  split
  · split
    · exact w.done
    · exact w.update.done
  · exact w.modJob.done

theorem Hw.Canon.writeArgs {j m} (w : h.Canon) : (h.writeArgs j m).Canon := by
  unfold Hw.writeArgs
  refine w.foldl fun _ _ v => ?_
  split
  · exact v.wrSram
  · exact v

theorem Hw.Canon.clearInputs {j} (w : h.Canon) : (h.clearInputs j).Canon := by
  unfold Hw.clearInputs; exact w.foldl fun _ _ v => v.modTile

theorem Hw.Canon.beginSubmit {j} (w : h.Canon) : (h.beginSubmit j).Canon := by
  unfold Hw.beginSubmit
  split
  · exact .ite w w.begin
  · exact w

theorem Hw.Canon.beginJob {j m} (w : h.Canon) : (h.beginJob j m).Canon := by
  unfold Hw.beginJob; exact .modJob (w.beginSubmit.clearInputs.writeArgs.foldl (fun _ _ v => v.modModel))

theorem Hw.Canon.tryBegin {pid act} (w : h.Canon) : (h.tryBegin pid act).Canon := by
  unfold Hw.tryBegin
  split
  · exact w
  · refine .ite w ?_
    extract_lets +onlyGivenNames missing
    refine .ite (w.foldl (fun _ _ v => v.install)) (.ite w ?_)
    split
    · exact w.beginJob
    · exact w

theorem Hw.Canon.switchJob {j} (w : h.Canon) : (h.switchJob j).Canon := by
  unfold Hw.switchJob; exact w.event.update.modJob

theorem Hw.Canon.actMiss {b j cp} (w : h.Canon) : (h.actMiss b j cp).Canon := by
  unfold Hw.actMiss
  extract_lets +onlyGivenNames failed
  have wfailed : ∀ h, h.Canon → (failed h).Canon := fun _ v => v.event.endJob
  split
  · refine .ite (wfailed _ w) ?_
    split
    · exact .ite (wfailed _ w) w.switchJob
    · exact wfailed _ w
  · exact wfailed _ w

theorem Hw.Canon.missStep {b a j} (w : h.Canon) : (h.missStep b a j).Canon := by
  unfold Hw.missStep
  split
  next x1 _ _ _ _ _ _ _ =>
    extract_lets +onlyGivenNames noted
    have wnoted : ∀ h x1, h.Canon → (noted h x1).Canon := fun _ _ v => v.modJob
    refine .ite w ?_
    split
    · exact .ite w.actMiss w
    · split
      · exact .ite w.actMiss (wnoted _ _ w)
      · extract_lets +onlyGivenNames k
        have wk : k.Canon := w.modJob
        split
        · exact .ite (wnoted _ _ wk) wk
        · exact wk
  · exact w

theorem Hw.Canon.settleJob {j} (w : h.Canon) : (h.settleJob j).Canon := by
  unfold Hw.settleJob
  split
  · exact w.endJob
  · exact w.endJob
  · exact w

theorem Hw.Canon.creditIdle {t} (w : h.Canon) : (h.creditIdle t).Canon := by
  unfold Hw.creditIdle
  split
  · exact w.credit.modTile.settleDone
  · exact w

theorem Hw.Canon.countDuplex {f} (w : h.Canon) : (h.countDuplex f).Canon := by
  unfold Hw.countDuplex; exact w.foldl fun _ _ v => v.addSat

theorem Hw.Canon.showMismatch (w : h.Canon) : h.showMismatch.Canon := by
  unfold Hw.showMismatch; exact w.countDuplex.foldl fun _ _ v => v.put

theorem Hw.Canon.mismatchEvent {pid detail} (w : h.Canon) : (h.mismatchEvent pid detail).Canon := by
  unfold Hw.mismatchEvent; exact w.event.event

theorem Hw.Canon.performHeld {j d} (w : h.Canon) : (h.performHeld j d).Canon := by
  unfold Hw.performHeld
  extract_lets +onlyGivenNames s src
  split
  next e1 => exact (w.performStores_error e1).failJob
  next e1 => exact (w.performStores_ok e1).sendNotices.performSobs.sendReleases

theorem Hw.Canon.payInOrder {l : List (Hw → Except Hw Hw)} (w : h.Canon)
    (hl : ∀ f ∈ l, ∀ h, h.Canon → (∀ k, f h = .ok k → k.Canon) ∧ ∀ k, f h = .error k → k.Canon) :
    (Hw.payInOrder l h).1.Canon := by
  induction l generalizing h with
  | nil => exact w
  | cons f l ih =>
    obtain ⟨hok, herror⟩ := hl f List.mem_cons_self h w
    unfold Hw.payInOrder
    split
    next e => exact herror _ e
    next e => exact ih (hok _ e) fun g hg => hl g (List.mem_cons_of_mem f hg)

theorem Hw.Canon.heldCost {d : DupHeld} {f k} (hf : f ∈ heldCosts d) (w : h.Canon)
    (e : f h = .ok k ∨ f h = .error k) :
    k.Canon := by
  unfold heldCosts at hf
  rw [List.mem_append, List.mem_map, List.mem_map] at hf
  obtain ⟨x, -, rfl⟩ | ⟨x, -, rfl⟩ := hf
  · dsimp only at e
    split at e
    next e1 =>
      obtain e | e := e
      · cases e; exact w.chargeDma_ok e1
      · cases e
    · obtain e | e := e
      · cases e
      · cases e; exact w.noteShort
  · dsimp only at e
    split at e
    next e1 =>
      obtain e | e := e
      · cases e; exact w.chargeEdges e1
      · cases e
    · obtain e | e := e
      · cases e
      · cases e; exact w.noteExhausted

theorem Hw.Canon.tryHeld {j d} (w : h.Canon) : (h.tryHeld j d).Canon := by
  have wpay {n} : (Hw.payInOrder ((heldCosts d).drop n) h).1.Canon := by
    refine w.payInOrder fun f hf h w => ?_
    have hf := List.mem_of_mem_drop hf
    exact ⟨fun k e => w.heldCost hf (.inl e), fun k e => w.heldCost hf (.inr e)⟩
  unfold Hw.tryHeld
  split
  next e =>
    have wk := wpay.of_fst e
    exact .ite (.performHeld wk.update) wk.update

theorem Hw.Canon.matchStroke {j k} (w : h.Canon) : (h.matchStroke j k).Canon := by
  unfold Hw.matchStroke
  extract_lets +onlyGivenNames k1
  have wk1 : k1.Canon := w.foldl (fun _ _ v => v.tryHeld)
  exact .ite wk1 (.modJob (.ite wk1.countDuplex.countDuplex.mismatchEvent wk1.countDuplex))

theorem Hw.Canon.mismatchStroke {j k} (w : h.Canon) : (h.mismatchStroke j k).Canon := by
  unfold Hw.mismatchStroke
  exact .ite (w.showMismatch.endJob.foldl (fun _ _ v => v.detect)) w.showMismatch.mismatchEvent.modJob

theorem Hw.Canon.compareCopies {pid seq a3} (w : h.Canon) : (h.compareCopies pid seq a3).Canon := by
  induction a3 generalizing h with
  | zero => exact w
  | succ n ih =>
    unfold Hw.compareCopies
    split
    · exact w
    · refine .ite w ?_
      split
      · exact .ite (.ite (ih w.matchStroke.settleDone) w.matchStroke) w.mismatchStroke
      · exact w

theorem Hw.Canon.duplexReport {pid seq copy k die} (w : h.Canon) : (h.duplexReport pid seq copy k die).Canon := by
  unfold Hw.duplexReport
  split
  · exact w
  · exact .ite w w.modJob.compareCopies

theorem Hw.Canon.duplexTimeout {pid seq} (w : h.Canon) : (h.duplexTimeout pid seq).Canon := by
  unfold Hw.duplexTimeout
  split
  · exact w
  · exact .ite w.mismatchStroke w

theorem Hw.Canon.duplexPause {j} (w : h.Canon) : (h.duplexPause j).Canon := by
  unfold Hw.duplexPause
  split
  · exact w
  · exact .modJob (w.update.foldl (fun _ _ v => v.modTile))

/-! Functions of `Machine/StnCmds`. -/

theorem Hw.Canon.loadResult {check item} (w : h.Canon) : (h.loadResult check item).Canon := by
  unfold Hw.loadResult; exact w.put.put.put

theorem Hw.Canon.stencilRefused {c} (w : h.Canon) : (stencilRefused h c).Canon := by
  unfold Machine.stencilRefused
  refine .ite w ?_
  split
  · exact w.loadResult.put.event
  · exact w

theorem Hw.Canon.stencilAccepted {c} (w : h.Canon) : (stencilAccepted h c).Canon := by
  unfold Machine.stencilAccepted
  split
  · exact w.keep
  · exact w

theorem Hw.Canon.stencilLoad {c} (w : h.Canon) : (stencilLoad h c).Canon := by
  unfold Machine.stencilLoad
  split
  next e => exact (w.takeKept.of_pair e).update.put.loadResult.done
  next e' => exact (w.takeKept.of_pair e').withRecord (fun _ _ v => v.wildEnd)

theorem Hw.Canon.stencilSwap {c} (w : h.Canon) : (stencilSwap h c).Canon := by
  unfold Machine.stencilSwap
  split
  · exact w.done
  · exact w.update.put

theorem Hw.Canon.setBridge (w : h.Canon) : h.setBridge.Canon := by
  unfold Hw.setBridge; exact .ite w.update.put w.update.put

theorem Hw.Canon.showStencil (w : h.Canon) : h.showStencil.Canon := by
  unfold Hw.showStencil; exact w.put.put.put.put

theorem Hw.Canon.revokeLost (w : h.Canon) : h.revokeLost.Canon := by
  unfold Hw.revokeLost; exact .update (w.foldl (fun _ _ v => v.endJob))

theorem Hw.Canon.supersedeBudgets (w : h.Canon) : h.supersedeBudgets.Canon := by
  unfold Hw.supersedeBudgets; exact w.update.foldl fun _ _ v => v.finishAt

theorem Hw.Canon.swapNow {new} (w : h.Canon) : (h.swapNow new).Canon := by
  unfold Hw.swapNow
  exact w.update.put.put.put.put.setBridge.showStencil.event.supersedeBudgets.revokeLost.refillAfter

theorem Hw.Canon.swapStep (w : h.Canon) : h.swapStep.Canon := by
  unfold Hw.swapStep
  split
  · exact w
  · dsimp only
    split
    · exact w.swapNow.finishAt
    · exact w.swapNow

theorem Hw.Canon.budgetStep (w : h.Canon) : h.budgetStep.Canon := by
  unfold Hw.budgetStep; exact .ite w (.foldl (.ite w.update w.update.refillAfter) (fun _ _ v => v.finishAt))

theorem Hw.Canon.adjustStep (w : h.Canon) : h.adjustStep.Canon := by
  unfold Hw.adjustStep; exact .ite w w.update

theorem Hw.Canon.admitStep (w : h.Canon) : h.admitStep.Canon := by
  unfold Hw.admitStep; exact .ite w (w.update.foldl (fun _ _ v => v.update.put.event.finishAt))

/-! Functions of `Machine/PeerOps`. -/

theorem Hw.Canon.modGrp {f} (w : h.Canon) : (h.modGrp f).Canon := by
  unfold Hw.modGrp; exact w.update

theorem Hw.Canon.modMember {i f} (w : h.Canon) : (h.modMember i f).Canon := by
  unfold Hw.modMember; exact w.modGrp

theorem Hw.Canon.modPeerPort {p f} (w : h.Canon) : (h.modPeerPort p f).Canon := by
  unfold Hw.modPeerPort; exact w.modGrp

theorem Hw.Canon.refillPeer (w : h.Canon) : h.refillPeer.Canon := by
  unfold Hw.refillPeer; exact w.modGrp

theorem Hw.Canon.wirePeer {p f} (w : h.Canon) : (h.wirePeer p f).Canon := by
  unfold Hw.wirePeer; exact w.modPeerPort.update

theorem Hw.Canon.pumpPeer {p n waits kept fs} (w : h.Canon) : (h.pumpPeer p n waits kept fs).Canon := by
  induction n generalizing h waits kept fs with
  | zero => exact w.modPeerPort
  | succ n ih =>
    cases fs with
    | nil => exact w.modPeerPort
    | cons f fs =>
      unfold Hw.pumpPeer
      extract_lets +onlyGivenNames b len tok
      refine .ite w.modPeerPort (.ite (ih w) ?_)
      extract_lets +onlyGivenNames size pay
      have wpay : ∀ h, h.Canon → (pay h).Canon := fun _ v => v.modGrp
      exact .ite (ih (wpay _ w.wirePeer)) (.ite (ih w) (ih (wpay _ w.wirePeer)))

theorem Hw.Canon.pump {p} (w : h.Canon) : (h.pump p).Canon := by
  unfold Hw.pump; exact .ite w w.pumpPeer

theorem Hw.Canon.queuePeer {p f} (w : h.Canon) : (h.queuePeer p f).Canon := by
  unfold Hw.queuePeer; exact w.modPeerPort.pump

theorem Hw.Canon.sendPeer {ptype dst pid dseq off payload} (w : h.Canon) :
    (h.sendPeer ptype dst pid dseq off payload).Canon := by
  unfold Hw.sendPeer; exact .ite w (.ite w.queuePeer.queuePeer w.queuePeer)

theorem Hw.Canon.ackPeer {p next} (w : h.Canon) : (h.ackPeer p next).Canon := by
  unfold Hw.ackPeer; exact w.modPeerPort.pump

theorem Hw.Canon.resendPeer {p} (w : h.Canon) : (h.resendPeer p).Canon := by
  unfold Hw.resendPeer; exact w.addSat.healthAdd.update

theorem Hw.Canon.sendShard {n num i j b} (w : h.Canon) : (h.sendShard n num i j b).Canon := by
  unfold Hw.sendShard; exact .ite w.modGrp (w.foldl (fun _ _ v => v.sendPeer))

theorem Hw.Canon.sendShards {num b} (w : h.Canon) : (h.sendShards num b).Canon := by
  unfold Hw.sendShards; exact w.foldl fun _ _ v => v.sendShard

theorem Hw.Canon.writeGrpRecord {b} (w : h.Canon) : (h.writeGrpRecord b).2.Canon := by
  unfold Hw.writeGrpRecord; exact w.modGrp.sendShards

theorem Hw.Canon.reencode (w : h.Canon) : h.reencode.Canon := by
  unfold Hw.reencode; exact .foldl (w.foldl (fun _ _ v => v.sendShards)) fun _ _ v => v.sendShards

/-! Functions of `Machine/GroupOps`. -/

theorem Hw.Canon.registerGate {c} (w : h.Canon) : (h.registerGate c).Canon := by
  unfold Hw.registerGate; exact .ite w.registerWatch w

theorem Hw.Canon.submitAccepted {gseq c} (w : h.Canon) : (submitAccepted gseq h c).Canon := by
  unfold Machine.submitAccepted; exact .ite w.registerGate.update w.registerGate.modGrp

theorem OpSpec.Canon.specJobSubmit : specJobSubmit.Canon := ⟨fun w => w.submitAccepted, fun w => w⟩

theorem Hw.Canon.readUnits {pid a2} (w : h.Canon) : (h.readUnits pid a2).2.2.2.Canon := by
  induction a2 generalizing h with
  | nil => exact w
  | cons a as ih =>
    unfold Hw.readUnits
    split
    next e => exact w.readVa.of_pair e
    next e => exact ih (w.readVa.of_pair e)

theorem Hw.Canon.writeUnits {pid a2 a3} (w : h.Canon) : (h.writeUnits pid a2 a3).2.Canon := by
  induction a2 generalizing h a3 with
  | nil => exact w
  | cons a as ih =>
    unfold Hw.writeUnits
    split
    next e => exact w.writeVa.of_pair e
    next e => exact ih (w.writeVa.of_pair e)

theorem Hw.Canon.sendData {ptype dst pid dseq bs} (w : h.Canon) : (h.sendData ptype dst pid dseq bs).Canon := by
  unfold Hw.sendData; exact w.foldl fun _ _ v => v.sendPeer

theorem Hw.Canon.sendSegs {ptype dst pid dseq segs bs} (w : h.Canon) :
    (h.sendSegs ptype dst pid dseq segs bs).Canon :=
  Hw.Canon.foldl₁ (α := List Byte) w fun _ _ v => v.sendData

theorem Hw.Canon.stainedExit {port pid} (w : h.Canon) : (h.stainedExit port pid).Canon := by
  unfold Hw.stainedExit; exact w.event

theorem Hw.Canon.modGJob {gseq f} (w : h.Canon) : (h.modGJob gseq f).Canon := by
  unfold Hw.modGJob; exact w.modGrp

theorem Hw.Canon.dropGJob {j} (w : h.Canon) : (h.dropGJob j).Canon := by
  unfold Hw.dropGJob; exact w.modGrp.update

theorem Hw.Canon.endGJob {j status detail a4} (w : h.Canon) : (h.endGJob j status detail a4).Canon := by
  unfold Hw.endGJob; exact w.finishAt.writeGrpRecord.dropGJob

theorem Hw.Canon.runLocal {j c} (w : h.Canon) : (h.runLocal j c).Canon := by
  unfold Hw.runLocal; exact w.writeGrpRecord.update.modGJob

theorem Hw.Canon.dispatchTo {j c a3} (w : h.Canon) : (h.dispatchTo j c a3).Canon := by
  unfold Hw.dispatchTo
  split
  next e => exact (w.readVa.of_pair e).endGJob
  next k0 e =>
    have wk0 := w.readVa.of_pair e
    refine .ite wk0.endGJob ?_
    dsimp -zeta only
    extract_lets +onlyGivenNames d limit dl k k1 k2 k3
    have wk : k.Canon := by
      refine .modGrp ?_
      split
      · exact wk0
      · exact wk0.freeBytes
    have wk3 : k3.Canon := wk.writeGrpRecord.modGJob.addSat.sendPeer
    split
    next e => exact (wk3.readUnits.of_quad e).endGJob
    next e =>
      have wread := wk3.readUnits.of_quad e
      exact .ite wread.sendSegs.stainedExit.endGJob wread.sendSegs

theorem Hw.Canon.startGJob {j c} (w : h.Canon) : (h.startGJob j c).Canon := by
  unfold Hw.startGJob
  extract_lets +onlyGivenNames worker
  cases worker with
  | none => exact w.runLocal
  | some n => exact .dispatchTo (.ite w w.begin)

theorem Hw.Canon.noteWork {spent useful} (w : h.Canon) : (h.noteWork spent useful).Canon := by
  unfold Hw.noteWork; exact w.modGrp

theorem Hw.Canon.showProgress (w : h.Canon) : h.showProgress.Canon := by
  unfold Hw.showProgress; exact w.put

/-- The kernel is kept from evaluating the choice of a worker. -/
theorem Hw.Canon.reissue {j spent} (w : h.Canon) : (h.reissue j spent).Canon := by
  unfold Hw.reissue
  obtain ⟨choose, e⟩ : ∃ f, f = Hw.chooseWorker := ⟨_, rfl⟩
  rw [← e]
  split
  · exact w.dropGJob
  · extract_lets +onlyGivenNames k k1 k2
    have wk2 : k2.Canon := .ite w.addSat.put.event.noteWork.showProgress w.addSat.put.event
    dsimp only
    split
    · exact wk2.modGJob.dispatchTo
    · exact wk2.modGJob.runLocal

theorem Hw.Canon.grpDone {dseq p} (w : h.Canon) : (h.grpDone dseq p).Canon := by
  unfold Hw.grpDone
  split
  · exact w.addSat.event
  · exact .ite w.reissue w.noteWork.showProgress.endGJob

theorem Hw.Canon.grpDataOut {dseq bs} (w : h.Canon) : (h.grpDataOut dseq bs).Canon := by
  unfold Hw.grpDataOut
  split
  · exact w.addSat.event
  · extract_lets +onlyGivenNames us
    split
    next e2 => exact (w.writeUnits.of_pair e2).endGJob
    next e2 => exact (w.writeUnits.of_pair e2).modGJob

theorem Hw.Canon.gjobStroke {j} (w : h.Canon) : (h.gjobStroke j).Canon := by
  unfold Hw.gjobStroke
  split
  · exact w.dropGJob
  · extract_lets +onlyGivenNames local_
    refine .ite w.dropGJob ?_
    split
    · exact .ite w w.endGJob
    · exact .ite w.event.endGJob (.ite w.startGJob w)

theorem Hw.Canon.modSub {dseq f} (w : h.Canon) : (h.modSub dseq f).Canon := by
  unfold Hw.modSub; exact w.modGrp

theorem Hw.Canon.endSub {s status detail flags strokes} (w : h.Canon) :
    (h.endSub s status detail flags strokes).Canon := by
  unfold Hw.endSub; exact .modGrp (.ite w.grpDone w.sendPeer)

theorem Hw.Canon.enterSub {s} (w : h.Canon) : (h.enterSub s).Canon := by
  unfold Hw.enterSub
  dsimp only
  split
  · exact w.endSub
  · exact .ite w.endSub (.modSub (w.modQueue.judge .specJobSubmit))

theorem Hw.Canon.grpDataIn {dseq bs} (w : h.Canon) : (h.grpDataIn dseq bs).Canon := by
  unfold Hw.grpDataIn
  split
  · exact w
  · extract_lets +onlyGivenNames us
    split
    next e2 => exact (w.writeUnits.of_pair e2).endSub
    next e2 => exact .ite (w.writeUnits.of_pair e2).modSub.enterSub (w.writeUnits.of_pair e2).modSub

theorem Hw.Canon.grpDispatch {src pid dseq p} (w : h.Canon) : (h.grpDispatch src pid dseq p).Canon := by
  unfold Hw.grpDispatch; exact .ite w.endSub (.ite w.modGrp.enterSub w.modGrp)

theorem Hw.Canon.subStroke {s} (w : h.Canon) : (h.subStroke s).Canon := by
  unfold Hw.subStroke
  split
  · exact w
  · split
    · exact w.endSub
    · split
      · exact w
      · extract_lets +onlyGivenNames fl
        refine .ite ?_ w.endSub
        split
        next e => exact (w.readUnits.of_quad e).endSub
        next e =>
          have wread := w.readUnits.of_quad e
          extract_lets +onlyGivenNames k
          have wk : k.Canon := .ite wread.grpDataOut wread.sendSegs
          exact .ite wk.stainedExit.endSub wk.endSub

theorem Hw.Canon.consumeSubs (w : h.Canon) : h.consumeSubs.Canon := by
  unfold Hw.consumeSubs
  refine .ite w (w.foldl (fun _ _ v => ?_))
  extract_lets +onlyGivenNames pid
  split
  · exact .ite v v.modQueue.freeConsumed
  · exact v

/-! Functions of `Machine/Ingest`. -/

theorem Hw.Canon.modCam {p f} (w : h.Canon) : (h.modCam p f).Canon := by
  unfold Hw.modCam; exact w.update

theorem Hw.Canon.modStream {k f} (w : h.Canon) : (h.modStream k f).Canon := by
  unfold Hw.modStream; exact w.update

theorem Hw.Canon.hold {q a2} (w : h.Canon) : (h.hold q a2).Canon := by
  unfold Hw.hold; exact .ite w w.update

theorem Hw.Canon.loseFrames {k n} (w : h.Canon) : (h.loseFrames k n).Canon := by
  unfold Hw.loseFrames
  split
  · exact w
  · exact .ite w.modStream.addSat w.modStream.addSat

theorem Hw.Canon.closeBuf {k f} (w : h.Canon) : (h.closeBuf k f).Canon := by
  unfold Hw.closeBuf; exact w.modStream

theorem Hw.Canon.cutBuf {k} (w : h.Canon) : (h.cutBuf k).Canon := by
  unfold Hw.cutBuf; exact w.closeBuf

theorem Hw.Canon.openBuf {k s phys stamp frameNum late untrig} (w : h.Canon) :
    (h.openBuf k s phys stamp frameNum late untrig).Canon := by
  unfold Hw.openBuf; exact w.modStream

theorem Hw.Canon.streamBytes {s bs} (w : h.Canon) : (h.streamBytes s bs).2.Canon := by
  unfold Hw.streamBytes
  split
  · exact w
  · exact w.freeBytes

theorem Hw.Canon.drainWrite {a1} (w : h.Canon) : (h.drainWrite a1).Canon := by
  unfold Hw.drainWrite
  split
  · exact w
  · refine .ite w ?_
    extract_lets +onlyGivenNames pid
    split
    · exact w.translationFault.modStream
    · exact .ite w.streamBytes.writeThrough.modStream w.streamBytes.writeThrough

theorem Hw.Canon.drainPort {q a2 a3} (w : h.Canon) : (h.drainPort q a2 a3).Canon := by
  induction a2 generalizing h a3 with
  | zero => exact w
  | succ n ih =>
    unfold Hw.drainPort
    split
    · exact w
    · exact .ite w (ih w.update.drainWrite)

theorem Hw.Canon.drainSpare {a1 a2 a3} (w : h.Canon) : (h.drainSpare a1 a2 a3).Canon := by
  induction a1 generalizing h a2 a3 with
  | zero => exact w
  | succ n ih =>
    unfold Hw.drainSpare
    exact .ite w.drainPort.update (ih w.drainPort)

theorem Hw.Canon.drainIngest (w : h.Canon) : h.drainIngest.Canon := by
  unfold Hw.drainIngest
  refine .ite w ?_
  split
  next e =>
    have wk := (Hw.Canon.foldl₁ (α := Nat) w fun _ _ v => v.drainPort).of_fst e
    exact .ite wk wk.drainSpare

theorem Hw.Canon.faultStream {k s} (w : h.Canon) : (h.faultStream k s).Canon := by
  unfold Hw.faultStream; exact w.modStream.event

theorem Hw.Canon.completeBuf {k} (w : h.Canon) : (h.completeBuf k).Canon := by
  unfold Hw.completeBuf
  split
  · exact w
  · split
    · exact w
    · refine .ite w ?_
      dsimp -zeta only
      split
      next e4 => exact (w.streamBytes.writeVa.of_pair e4).faultStream
      next e4 =>
        exact .ite (w.streamBytes.writeVa.of_pair e4).faultStream (.ite (w.streamBytes.writeVa.of_pair
          e4).sobPerform.modStream (w.streamBytes.writeVa.of_pair e4).sobPerform.modStream.addSat)

theorem Hw.Canon.setId {q fresh} (w : h.Canon) : (h.setId q fresh).Canon := by
  unfold Hw.setId; exact .ite (.ite w.put.put.put.event.put.event w.put.put.put.event) w.put.put

theorem Hw.Canon.remapCams (w : h.Canon) : h.remapCams.Canon := by
  unfold Hw.remapCams
  refine w.foldl fun _ _ v => ?_
  extract_lets +onlyGivenNames m
  refine .ite v ?_
  extract_lets +onlyGivenNames k
  have wk : k.Canon := v.put
  split
  · exact wk.cutBuf
  · exact wk

theorem Hw.Canon.judgeCams {q} (w : h.Canon) : (h.judgeCams q).Canon := by
  unfold Hw.judgeCams; exact .remapCams (w.foldl (fun _ _ v => v.setId))

theorem Hw.Canon.camLost {q link} (w : h.Canon) : (h.camLost q link).Canon := by
  unfold Hw.camLost
  exact .ite (.judgeCams (.ite w.put.put.modCam.put.event.addSat.healthAdd w.put.put.modCam.put.event))
    w.put.put.modCam

theorem Hw.Canon.camFollow {q} (w : h.Canon) : (h.camFollow q).Canon := by
  unfold Hw.camFollow; exact .ite (.ite w.put.modCam w) (.ite w (.ite w w.camLost))

theorem Hw.Canon.camFault {q st ma mv} (w : h.Canon) : (h.camFault q st ma mv).Canon := by
  unfold Hw.camFault; exact w.put.put.put.put.event.camFollow

theorem Hw.Canon.camPower {q} (w : h.Canon) : (h.camPower q).Canon := by
  unfold Hw.camPower; exact .camFollow (.ite w.put (.ite w.put w))

theorem Hw.Canon.remapLids (w : h.Canon) : h.remapLids.Canon := by
  unfold Hw.remapLids
  refine w.foldl fun _ _ v => ?_
  extract_lets +onlyGivenNames f m up
  refine .ite v ?_
  extract_lets +onlyGivenNames n
  refine .ite v ?_
  extract_lets +onlyGivenNames k
  have wk : k.Canon := v.put
  split
  · exact wk.cutBuf
  · exact wk

/-! Functions of `Machine/IngestCmds`. -/

theorem Hw.Canon.openStream {k s} (w : h.Canon) : (h.openStream k s).Canon := by
  unfold Hw.openStream; exact w.update

theorem Hw.Canon.streamOpen {c} (w : h.Canon) : (streamOpen h c).Canon := by
  unfold Machine.streamOpen
  split
  next e => exact (w.takeKept.of_pair e).openStream.done
  next e' => exact (w.takeKept.of_pair e').withRecord (fun _ _ v => v.wildEnd)

theorem Hw.Canon.closeStream {k} (w : h.Canon) : (h.closeStream k).Canon := by
  unfold Hw.closeStream
  split
  · exact w
  · exact w.update

theorem Hw.Canon.triggerSet {c} (w : h.Canon) : (triggerSet h c).Canon := by
  unfold Machine.triggerSet
  split
  · exact w.wildEnd
  · split
    · exact w.done
    · exact w.update.done

theorem Hw.Canon.dropTrigger {p} (w : h.Canon) : (h.dropTrigger p).Canon := by
  unfold Hw.dropTrigger; exact w.put.put.event

theorem Hw.Canon.noFrame {p} (w : h.Canon) : (h.noFrame p).Canon := by
  unfold Hw.noFrame
  extract_lets +onlyGivenNames k
  have wk : k.Canon := by
    unfold k
    split
    · exact w.loseFrames
    · exact w.addSat
  exact wk.put.event

theorem Hw.Canon.fireTrigger {p} (w : h.Canon) : (h.fireTrigger p).Canon := by
  unfold Hw.fireTrigger; exact .ite (.ite w w.dropTrigger) (.update (.modCam (.ite w.noFrame w)))

theorem Hw.Canon.askIdentity {q} (w : h.Canon) : (h.askIdentity q).Canon := by
  unfold Hw.askIdentity; exact .ite w.update w

theorem Hw.Canon.putIdentity {q id} (w : h.Canon) : (h.putIdentity q id).Canon := by
  unfold Hw.putIdentity; exact w.put.put

theorem Hw.Canon.frameStart {q vc num ns10} (w : h.Canon) : (h.frameStart q vc num ns10).Canon := by
  unfold Hw.frameStart
  split
  · exact w
  · extract_lets +onlyGivenNames k
    split
    · exact w.modCam
    · exact .ite w (.ite w.modCam.cutBuf (.ite w.modCam.cutBuf.openBuf w.modCam.cutBuf.loseFrames))

theorem Hw.Canon.modCur {k f} (w : h.Canon) : (h.modCur k f).Canon := by
  unfold Hw.modCur; exact w.modStream

theorem Hw.Canon.overflow {lidar q n} (w : h.Canon) : (h.overflow lidar q n).Canon := by
  unfold Hw.overflow; exact .ite w.put.event w.put.event

theorem Hw.Canon.takeLine {q k s b p} (w : h.Canon) : (h.takeLine q k s b p).Canon := by
  unfold Hw.takeLine; exact .modCur (.ite (.addSat (.ite w.hold.overflow w.hold)) (.ite w.hold.overflow w.hold))

theorem Hw.Canon.longPacket {q p} (w : h.Canon) : (h.longPacket q p).Canon := by
  unfold Hw.longPacket
  extract_lets +onlyGivenNames k
  have wk : k.Canon := .ite w.addSat w
  refine .ite ?_ (.ite wk.modCam ?_)
  · extract_lets +onlyGivenNames k1
    have wk1 : k1.Canon := wk.addSat
    split
    · exact wk1.modCur
    · exact wk1
  · split
    · exact wk
    · split
      · exact wk
      · exact .ite wk.takeLine wk

theorem Hw.Canon.strayFrame {q p} (w : h.Canon) : (h.strayFrame q p).Canon := by
  unfold Hw.strayFrame
  extract_lets +onlyGivenNames rem k
  have wk : k.Canon := .ite w w.put.put.event
  refine .ite ?_ wk
  extract_lets +onlyGivenNames k1
  have wk1 : k1.Canon := wk.put
  split
  · exact wk1.cutBuf
  · exact wk1

theorem Hw.Canon.dropLidar {k} (w : h.Canon) : (h.dropLidar k).Canon := by
  unfold Hw.dropLidar; exact w.loseFrames

theorem Hw.Canon.packFrame {q k s b stamp f} (w : h.Canon) : (h.packFrame q k s b stamp f).Canon := by
  unfold Hw.packFrame; exact .ite w.overflow.dropLidar.modCur w.hold.addSat.modCur

theorem Hw.Canon.takeFrame {q k stamp f} (w : h.Canon) : (h.takeFrame q k stamp f).Canon := by
  unfold Hw.takeFrame
  split
  · exact w
  · refine .ite w ?_
    extract_lets +onlyGivenNames need k1
    have wk1 : k1.Canon := .ite w.closeBuf w
    split
    · exact wk1
    · split
      · exact .ite wk1 wk1.packFrame
      · refine .ite wk1.dropLidar ?_
        extract_lets +onlyGivenNames k2
        have wk2 : k2.Canon := wk1.openBuf
        split
        · exact wk2.packFrame
        · exact wk2

theorem Hw.Canon.lidarFrame {q stamp f} (w : h.Canon) : (h.lidarFrame q stamp f).Canon := by
  unfold Hw.lidarFrame
  refine .ite w (.ite w.addSat ?_)
  extract_lets +onlyGivenNames src strays k
  have wk : k.Canon := w.foldl (fun _ _ v => v.strayFrame)
  split
  · exact wk.takeFrame
  · exact wk.addSat

theorem Hw.Canon.setEth {p st} (w : h.Canon) : (h.setEth p st).Canon := by
  unfold Hw.setEth
  exact .ite w.put (.ite w.put (.ite w.put (.ite w.update.put (.ite w.update.put (.ite w.put.put.put (.ite w.put
    w.put))))))

theorem Hw.Canon.ethLost {p} (w : h.Canon) : (h.ethLost p).Canon := by
  unfold Hw.ethLost
  extract_lets +onlyGivenNames k
  have wk : k.Canon := w.setEth
  refine .ite wk.put.addSat.event ?_
  extract_lets +onlyGivenNames k1
  have wk1 : k1.Canon := wk.event.healthAdd
  exact .ite (.remapLids (wk1.put.foldl (fun _ _ z => z.cutBuf))) (.ite wk1.put (.ite wk1.put (.ite wk1.put wk1)))

/-! Functions of `Machine/Fusion`. -/

theorem Hw.Canon.showFus (w : h.Canon) : h.showFus.Canon := by
  unfold Hw.showFus
  extract_lets +onlyGivenNames k k1
  have wk : k.Canon := w.put
  have wk1 : k1.Canon := wk.put
  split
  · exact wk1.put.put.put
  · exact wk1.put.put.put

theorem Hw.Canon.setFusSets {m} (w : h.Canon) : (h.setFusSets m).Canon := by
  unfold Hw.setFusSets; exact w.update.showFus

theorem Hw.Canon.fusConfig {c} (w : h.Canon) : (fusConfig h c).Canon := by
  unfold Machine.fusConfig; exact .ite w.setFusSets.done (w.withRecord (fun _ _ v => v.setFusSets.done))

theorem Hw.Canon.freeWords {a1} (w : h.Canon) : (h.freeWords a1).2.Canon := by
  induction a1 generalizing h with
  | zero => exact w
  | succ n ih =>
    unfold Hw.freeWords
    exact ih w.free

theorem Hw.Canon.wildOut {s o} (w : h.Canon) : (h.wildOut s o).2.Canon := by
  unfold Hw.wildOut; exact .free (.foldl₂ (w.foldl₂ (fun _ _ v => v.freeBytes)) (fun _ _ v => v.freeWords.freeWords))

theorem Hw.Canon.dropBatch {b} (w : h.Canon) : (h.dropBatch b).Canon := by
  unfold Hw.dropBatch; exact w.update.showFus

theorem Hw.Canon.fusRecord {cause pid set} (w : h.Canon) : (h.fusRecord cause pid set).Canon := by
  unfold Hw.fusRecord; exact .ite w.put w.put.put.put.put.put

theorem Hw.Canon.fusFail {b cause status detail} (w : h.Canon) : (h.fusFail b cause status detail).Canon := by
  unfold Hw.fusFail
  extract_lets +onlyGivenNames k
  have wk : k.Canon := by
    unfold k
    split
    · exact w.fusRecord.put
    · exact w
  exact wk.dropBatch.addSat.finishAt

theorem Hw.Canon.fusPage {b e} (w : h.Canon) : (h.fusPage b e).Canon := by
  unfold Hw.fusPage; exact w.fusFail

theorem Hw.Canon.fusAbort {pid status detail} (w : h.Canon) : (h.fusAbort pid status detail).Canon := by
  unfold Hw.fusAbort; exact w.foldl fun _ _ v => v.fusFail

theorem Hw.Canon.fusRelease {pid} (w : h.Canon) : (h.fusRelease pid).Canon := by
  unfold Hw.fusRelease; exact w.setFusSets

theorem Hw.Canon.fusWarm (w : h.Canon) : h.fusWarm.Canon := by
  unfold Hw.fusWarm; exact .setFusSets (w.foldl (fun _ _ v => v.fusFail))

theorem Hw.Canon.addBatch {c} (w : h.Canon) : (h.addBatch c).Canon := by
  unfold Hw.addBatch; exact w.update

theorem Hw.Canon.modBatch {b f} (w : h.Canon) : (h.modBatch b f).Canon := by
  unfold Hw.modBatch; exact w.update

theorem Hw.Canon.fusWild {b} (w : h.Canon) : (h.fusWild b).Canon := by
  unfold Hw.fusWild; exact w.free.free.free.dropBatch.addSat.finishAt

theorem Hw.Canon.fusBegin_ok {b k} (w : h.Canon) (e : h.fusBegin b = .ok k) : k.Canon := by
  unfold Hw.fusBegin at e
  split at e
  · cases e
  · split at e
    · cases e; exact w.modBatch
    · split at e
      · cases e
      next e1 =>
        have v := w.readVa.of_pair e1
        split at e
        · cases e
        · dsimp only at e
          split at e
          · cases e; exact v.modBatch
          · cases e; exact v.wildOut.modBatch

theorem Hw.Canon.fusBegin_error {b k} (w : h.Canon) (e : h.fusBegin b = .error k) : k.Canon := by
  unfold Hw.fusBegin at e
  split at e
  · cases e; exact w.fusWild
  · split at e
    · cases e
    · split at e
      next e1 => cases e; exact (w.readVa.of_pair e1).fusPage
      next e1 =>
        split at e
        · cases e; exact (w.readVa.of_pair e1).fusFail
        · cases e

/-- The kernel is kept from evaluating the write of 3,932,160 bytes. -/
theorem Hw.Canon.fusSave {b} (w : h.Canon) : (h.fusSave b).Canon := by
  generalize e : Hw.fusSave = f
  delta Hw.fusSave at e
  subst e
  obtain ⟨words, hwords⟩ : ∃ n, n = 491520 := ⟨_, rfl⟩
  obtain ⟨size, hsize⟩ : ∃ n, n = 3932160 := ⟨_, rfl⟩
  rw [← hwords, ← hsize]
  dsimp only
  split
  · exact w.translationFault.fusPage
  · exact w.freeBytes.writePieces.modBatch

/-- The kernel is kept from evaluating the read of 3,932,160 bytes. -/
theorem Hw.Canon.fusRestore {b} (w : h.Canon) : (h.fusRestore b).Canon := by
  generalize e : Hw.fusRestore = f
  delta Hw.fusRestore at e
  subst e
  dsimp only
  split
  next e => exact (w.readVa.of_pair e).fusPage
  next e => exact .ite (w.readVa.of_pair e).fusFail (w.readVa.of_pair e).modBatch

theorem Hw.Canon.fusPay {b} (w : h.Canon) : (h.fusPay b).Canon := by
  unfold Hw.fusPay; exact w.payLines.modBatch

theorem Hw.Canon.fusPayAll (w : h.Canon) : h.fusPayAll.Canon := by
  unfold Hw.fusPayAll; exact w.foldl fun _ _ v => v.fusPay

theorem Hw.Canon.fusBringBack (w : h.Canon) : h.fusBringBack.Canon := by
  unfold Hw.fusBringBack
  refine .ite w ?_
  split
  · exact w.fusRestore.fusPayAll
  · exact w

theorem Hw.Canon.fusUpset {u} (w : h.Canon) : (h.fusUpset u).Canon := by
  unfold Hw.fusUpset
  split
  · exact w.addSat
  · exact w.update.addSat.put.fusRecord.event
  · extract_lets +onlyGivenNames b pid k
    have wk : k.Canon := by
      unfold k
      cases b with
      | none => exact w
      | some b => exact w.modBatch
    exact wk.addSat.put.fusRecord.event

theorem Hw.Canon.fusSwitch {next} (w : h.Canon) : (h.fusSwitch next).Canon := by
  unfold Hw.fusSwitch
  split
  · exact .ite w (.ite w.update.fusSave w.update)
  · exact w

theorem Hw.Canon.fusGive {b} (w : h.Canon) : (h.fusGive b).Canon := by
  unfold Hw.fusGive
  split
  · exact w
  · refine .ite w.fusFail ?_
    split
    · exact w
    · exact .ite w.modBatch.update.addWrap.update.noteExhausted w.modBatch.update.addWrap.update

theorem Hw.Canon.fusShort (w : h.Canon) : h.fusShort.Canon := by
  unfold Hw.fusShort; exact w.foldl fun _ _ v => v.noteExhausted

theorem Hw.Canon.fusStroke (w : h.Canon) : h.fusStroke.Canon := by
  unfold Hw.fusStroke
  extract_lets +onlyGivenNames fus k k1 next k2
  have wk2 : k2.Canon := w.update.fusShort.fusPayAll.fusBringBack.fusSwitch
  cases next with
  | none => exact wk2
  | some b =>
    dsimp only
    cases b.out.isNone with
    | false => exact wk2.fusGive
    | true =>
      rw [if_pos rfl]
      cases e : k2.fusBegin b with
      | error k => exact wk2.fusBegin_error e
      | ok k => exact (wk2.fusBegin_ok e).fusPayAll.fusGive

theorem Hw.Canon.fusCommit {b o} (w : h.Canon) : (h.fusCommit b o).Canon := by
  unfold Hw.fusCommit
  refine .ite w.dropBatch.addSat.finishAt ?_
  extract_lets +onlyGivenNames sm
  split
  next e2 => exact (w.writeVa.of_pair e2).fusPage
  next e2 => exact (w.writeVa.of_pair e2).update.dropBatch.addSat.finishAt

theorem Hw.Canon.fusEnd {b o} (w : h.Canon) : (h.fusEnd b o).Canon := by
  unfold Hw.fusEnd; exact .ite w.payLines.fusCommit w.payLines.modBatch

theorem Hw.Canon.writeRecords {pid va a3} (w : h.Canon) : (h.writeRecords pid va a3).Canon := by
  induction a3 generalizing h va with
  | nil => exact w
  | cons a as ih =>
    unfold Hw.writeRecords
    exact ih w.writeVa

theorem Hw.Canon.fusRead {c} (w : h.Canon) : (fusRead h c).Canon := by
  unfold Machine.fusRead
  split
  · exact w.done
  · extract_lets +onlyGivenNames tv ts recs all
    split
    · exact w.translationFault.failPage
    · exact w.writeRecords.done

theorem Hw.Canon.fusDropTrack {c} (w : h.Canon) : (fusDropTrack h c).Canon := by
  unfold Machine.fusDropTrack
  split
  · exact w.update.done
  · exact w.done

/-! Functions of `Machine/Units`. -/

theorem Hw.Canon.reinstate {t c} (w : h.Canon) : (h.reinstate t c).Canon := by
  unfold Hw.reinstate; exact .ite w.put.runAllSections.update w.put.runAllSections.put.done

theorem Hw.Canon.shedPart {pid cause} (w : h.Canon) : (h.shedPart pid cause).Canon := by
  unfold Hw.shedPart; exact .event (.update (.revokeCands (.fusAbort (w.modPart.foldl (fun _ _ v => v.endJob)))))

theorem Hw.Canon.shedUntilFit {a1} (w : h.Canon) : (h.shedUntilFit a1).Canon := by
  induction a1 generalizing h with
  | zero => exact w
  | succ n ih =>
    unfold Hw.shedUntilFit
    split
    · exact w
    · extract_lets +onlyGivenNames here
      split
      · exact ih w.shedPart
      · exact w

theorem Hw.Canon.shedAndPlace (w : h.Canon) : h.shedAndPlace.Canon := by
  unfold Hw.shedAndPlace; exact .ite w.shedUntilFit w.shedUntilFit.fillVacancies

theorem Hw.Canon.setRing {va log2Size} (w : h.Canon) : (h.setRing va log2Size).Canon := by
  unfold Hw.setRing; exact w.put.put.put.put.put.put.put

theorem Hw.Canon.stageLost (w : h.Canon) : h.stageLost.Canon := by
  unfold Hw.stageLost; exact w.foldl fun _ _ v => v.update

theorem Hw.Canon.writeRecord {k} (w : h.Canon) (e : h.writeRecord = some k) : k.Canon := by
  unfold Hw.writeRecord at e
  split at e
  · cases e
  · split at e
    · cases e
    · dsimp only at e
      split at e
      next e1 => cases e; exact (w.writeVa.of_pair e1).put.put.put
      next e1 =>
        have v := w.writeVa.of_pair e1
        cases e
        exact .ite (.raiseVector (.update (.put (.put (.put (.addWrap v.update)))))) (.put (.put (.put (.addWrap
          v.update))))

theorem Hw.Canon.writeRecords16 {a1} (w : h.Canon) : (h.writeRecords16 a1).Canon := by
  induction a1 generalizing h with
  | zero => exact w
  | succ n ih =>
    unfold Hw.writeRecords16
    refine .ite w (.ite (.ite w.put.put w) ?_)
    split
    next e1 => exact ih (w.writeRecord e1)
    · exact w

theorem Hw.Canon.judgePart {part} (w : h.Canon) : (h.judgePart part).Canon := by
  unfold Hw.judgePart
  extract_lets +onlyGivenNames s k
  have wk : k.Canon := .ite (.ite w.update w) (.ite w.update.event w)
  exact .ite (.ite wk.update wk) (.ite wk.update.event wk)

theorem Hw.Canon.updateHealth (w : h.Canon) : h.updateHealth.Canon := by
  unfold Hw.updateHealth; exact .update (w.foldl (fun _ _ v => v.judgePart))

/-! Functions of `Machine/Resets`. -/

theorem Hw.Canon.clearTiles {mine} (w : h.Canon) : (h.clearTiles mine).Canon := by
  unfold Hw.clearTiles; exact .update (w.foldl (fun _ _ v => v.dropReservations))

theorem Hw.Canon.clearMesh {gone} (w : h.Canon) : (h.clearMesh gone).Canon := by
  unfold Hw.clearMesh; exact w.update

theorem Hw.Canon.endRelocs {d} (w : h.Canon) : (h.endRelocs d).Canon := by
  unfold Hw.endRelocs
  refine w.foldl fun _ _ v => ?_
  split
  · exact v.finishAt
  · exact v

theorem Hw.Canon.reinstallPinned (w : h.Canon) : h.reinstallPinned.Canon := by
  unfold Hw.reinstallPinned; exact .foldl (w.foldl (fun _ _ v => v.install)) fun _ _ v => v.install

theorem Hw.Canon.restoreWindows {mine} (w : h.Canon) : (h.restoreWindows mine).Canon := by
  unfold Hw.restoreWindows; exact w.foldl fun _ _ v => v.setWindows

theorem Hw.Canon.switchAll {ks on} (w : h.Canon) : (h.switchAll ks on).Canon := by
  unfold Hw.switchAll; exact w.foldl fun _ _ v => v.switch

theorem Hw.Canon.dieDown {d} (w : h.Canon) : (h.dieDown d).Canon := by
  unfold Hw.dieDown
  extract_lets +onlyGivenNames mine hit lost k k1 k2 dfin k3 k4
  have wk : k.Canon := w.foldl (fun _ _ v => v.endJob)
  have wk1 : k1.Canon := wk.foldl (fun _ _ u => u.toRegistered)
  have wk2 : k2.Canon := wk1.clearTiles.clearMesh
  have wk3 : k3.Canon := wk2.update.showDfin
  have wk4 : k4.Canon := wk3.resetBlocks
  exact wk4.switchAll.event

theorem Hw.Canon.testDie {d} (w : h.Canon) : (h.testDie d).Canon := by
  unfold Hw.testDie; exact w.foldl fun _ _ v => .ite v (.ite v.runAllSections.markRetired.update v.runAllSections)

theorem Hw.Canon.dieBack {d} (w : h.Canon) : (h.dieBack d).Canon := by
  unfold Hw.dieBack; exact w.switchAll.testDie.endRelocs.rebuildDie.restoreWindows.reinstallPinned.dfinDieReset.update

theorem Hw.Canon.bringChannel {b c} (w : h.Canon) : (h.bringChannel b c).Canon := by
  unfold Hw.bringChannel
  extract_lets +onlyGivenNames was
  split
  next e1 => exact .ite (w.trainChannel.of_pair e1).readmit (w.trainChannel.of_pair e1).put
  next e1 => exact .ite (w.trainChannel.of_pair e1) (w.trainChannel.of_pair e1).put.startRetire

theorem Hw.Canon.bringEdges {b} (w : h.Canon) : (h.bringEdges b).Canon := by
  unfold Hw.bringEdges; exact w.update

theorem Hw.Canon.bringCps {b} (w : h.Canon) : (h.bringCps b).Canon := by
  unfold Hw.bringCps
  extract_lets +onlyGivenNames k k1
  have wk : k.Canon := w.foldl (fun _ _ v => v.put)
  have wk1 : k1.Canon := wk.foldl (fun _ _ u => u.put)
  split
  · exact wk1.put
  · exact wk1

theorem Hw.Canon.dropFetched {f} (w : h.Canon) : (h.dropFetched f).Canon := by
  unfold Hw.dropFetched; exact .update (w.foldl (fun _ _ v => v.modQueue))

theorem Hw.Canon.rerunOrders (w : h.Canon) : h.rerunOrders.Canon := by
  unfold Hw.rerunOrders; exact w.update.foldl fun _ _ v => v.modCmd

theorem Hw.Canon.rerun {mine} (w : h.Canon) : (h.rerun mine).Canon := by
  unfold Hw.rerun; exact w.addSat

theorem Hw.Canon.postAll {pid q a3} (w : h.Canon) : (h.postAll pid q a3).Canon := by
  induction a3 generalizing h with
  | zero => exact w
  | succ n ih =>
    unfold Hw.postAll
    split
    · exact ih w.post.addSat
    · exact w

theorem Hw.Canon.recoverQueues (w : h.Canon) : h.recoverQueues.Canon := by
  unfold Hw.recoverQueues
  exact .put (.foldl (w.foldl (fun _ _ v => v.setMirror)) (fun _ _ v => v.foldl (fun _ _ u => u.postAll)))

theorem Hw.Canon.abortEngines (w : h.Canon) : h.abortEngines.Canon := by
  unfold Hw.abortEngines
  exact .update (.foldl (.abortCands (.fusWarm (.foldl (w.foldl (fun _ _ v => v.endJob)) (fun _ _ v => v.endGJob))))
    (fun _ _ v => v.finishAt))

theorem Hw.Canon.loseBuffers (w : h.Canon) : h.loseBuffers.Canon := by
  unfold Hw.loseBuffers
  refine w.foldl fun _ _ v => ?_
  split
  · exact v
  · exact v.update.modStream

theorem Hw.Canon.resetFabric (w : h.Canon) : h.resetFabric.Canon := by
  unfold Hw.resetFabric
  extract_lets +onlyGivenNames k k1 k2 k3 k4 arbs
  have wk : k.Canon := w.foldl (fun _ _ v => v.toRegistered)
  have wk1 : k1.Canon := wk.clearTiles.clearMesh
  have wk3 : k3.Canon := wk1.update
  have wk4 : k4.Canon := wk3.resetBlocks
  have warbs : arbs.Canon := wk4.foldl (fun _ _ x => x.endRelocs.rebuildDie.dfinDieReset)
  exact warbs.update

theorem Hw.Canon.settleRetiring (w : h.Canon) : h.settleRetiring.Canon := by
  unfold Hw.settleRetiring; exact w.modDram.modDram.foldl fun _ _ v => v.completeRetire

theorem Hw.Canon.warmReset {b} (w : h.Canon) : (h.warmReset b).Canon := by
  unfold Hw.warmReset
  extract_lets +onlyGivenNames k before k1 k2 k3 k4 k5 k6 k7 k8 k9 k10 k11 k12 k13
  have wk : k.Canon := w.put.put.put
  have wk1 : k1.Canon := wk.abortEngines
  have wk2 : k2.Canon := wk1.put
  have wk3 : k3.Canon := wk2.rerun.rerunOrders.dropFetched.loseBuffers
  have wk4 : k4.Canon := wk3.update
  have wk5 : k5.Canon := wk4.settleRetiring.resetFabric
  have wk6 : k6.Canon := wk5.resetBlocks.bringCps.bringEdges
  have wk7 : k7.Canon := wk6.switchAll
  have wk8 : k8.Canon := wk7.foldl (fun _ _ w9 => w9.bringChannel)
  have wk9 : k9.Canon := .ite wk8 wk8.startRebuild
  have wk10 : k10.Canon := wk9.restoreWindows.reinstallPinned.apcWarm.clearAtWarm
  have wk11 : k11.Canon := wk10.clearAtWarm
  have wk13 : k13.Canon := wk11.update
  exact wk13.showDtm.showDtm.addSat.put.event.recoverQueues

theorem Hw.Canon.markStale {d which} (w : h.Canon) : (h.markStale d which).Canon := by
  unfold Hw.markStale; exact w.update

theorem Hw.Canon.showLabel (w : h.Canon) : h.showLabel.Canon := by
  unfold Hw.showLabel
  split
  · exact w
  · exact w.put.put.put.put.put.put

theorem Hw.Canon.porst {last} (_ : h.Canon) : (h.porst last).Canon := by
  unfold Hw.porst
  dsimp -zeta only
  extract_lets +onlyGivenNames k dbg r fresh tiles sys₀ gov₀ sys fab₀ n n1 n2
  have wr : r.Canon := State.reset_memory_wf
  have wn : n.Canon := wr.update
  have wn2 : n2.Canon := wn.put.put.put.showLabel
  exact .ite wn2 wn2.put

theorem Hw.Canon.moduleWarm {b} (w : h.Canon) : (h.moduleWarm b).Canon := by
  unfold Hw.moduleWarm; exact .ite w.warmReset w.porst

/-! Functions of `Machine/TileGate`. -/

theorem Hw.Canon.tileFault {t pid seq l} (w : h.Canon) : (h.tileFault t pid seq l).Canon := by
  unfold Hw.tileFault
  extract_lets +onlyGivenNames k
  have wk : k.Canon := by
    unfold k
    split
    · exact w.modJob
    · exact w
  exact .ite wk.detect wk

theorem Hw.Canon.noteFailure {t s cause} (w : h.Canon) : (h.noteFailure t s cause).Canon := by
  unfold Hw.noteFailure; exact .ite w.tileFault.modTile w.modTile

theorem Hw.Canon.cutOff {t s} (w : h.Canon) : (h.cutOff t s).Canon := by
  unfold Hw.cutOff; exact w.event.addSat.put.endSlice.noteFailure

theorem Hw.Canon.noteFaultStop {t s} (w : h.Canon) : (h.noteFaultStop t s).Canon := by
  unfold Hw.noteFaultStop; exact w.noteFailure.modTile

theorem Hw.Canon.closeCommitted {t s slack} (w : h.Canon) : (h.closeCommitted t s slack).Canon := by
  unfold Hw.closeCommitted; exact .ite w.modTile.rotateSection w.modTile

theorem Hw.Canon.closeStroke {t slack} (w : h.Canon) : (h.closeStroke t slack).Canon := by
  unfold Hw.closeStroke
  split
  · exact w
  · split
    · exact w.cutOff
    · exact w.noteFaultStop
    · exact w.closeCommitted
    · exact w

theorem Hw.Canon.afterSound {t l o} (w : h.Canon) : (h.afterSound t l o).Canon := by
  unfold Hw.afterSound; exact .ite w.modTile (.ite w.tileFault.modTile w.modTile)

theorem Hw.Canon.testTile {t} (w : h.Canon) : (h.testTile t).1.Canon := by
  unfold Hw.testTile; exact .ite w.runAllSections.put.retireTile w.runAllSections.put

theorem Hw.Canon.workIncident {t l o} (w : h.Canon) : (h.workIncident t l o).Canon := by
  unfold Hw.workIncident
  exact .ite (.ite (.testTile (.ite w.modTile w)) (.afterSound (.testTile (.ite w.modTile w)))) w.afterSound

theorem Hw.Canon.workDuplexTest {t} (w : h.Canon) : (h.workDuplexTest t).Canon := by
  unfold Hw.workDuplexTest; exact w.modTile.testTile

theorem Hw.Canon.scrub {t} (w : h.Canon) : (h.scrub t).Canon := by
  unfold Hw.scrub; exact .modTile (w.foldl (fun _ _ v => v.sramErrors))

theorem Hw.Canon.shutGate {t} (w : h.Canon) : (h.shutGate t).Canon := by
  unfold Hw.shutGate; exact w.put.put.put

theorem Hw.Canon.idleStroke {t} (w : h.Canon) : (h.idleStroke t).Canon := by
  unfold Hw.idleStroke; exact .ite w.shutGate.rotateSection (.ite w.shutGate w.shutGate.scrub)

theorem Hw.Canon.traceGate {l act pid k hold} (w : h.Canon) : (h.traceGate l act pid k hold).Canon := by
  unfold Hw.traceGate; exact .ite w.traceAdd w

theorem Hw.Canon.startSlice {t a2 j b dup k list} (w : h.Canon) : (h.startSlice t a2 j b dup k list).Canon := by
  unfold Hw.startSlice; exact w.modTile.put.put.put.put.put.put

theorem Hw.Canon.holdTile {t} (w : h.Canon) : (h.holdTile t).Canon := by
  unfold Hw.holdTile; exact w.put.idleStroke

theorem Hw.Canon.gateFor {t l a3 j m b} (w : h.Canon) : (h.gateFor t l a3 j m b).Canon := by
  unfold Hw.gateFor
  extract_lets +onlyGivenNames act k
  refine .ite w.idleStroke (.ite w.traceGate.holdTile ?_)
  split
  · exact w.modTile.idleStroke
  · exact .ite w.traceGate.startSlice w.traceGate.holdTile

theorem Hw.Canon.gateRun {t l pid a4} (w : h.Canon) : (h.gateRun t l pid a4).Canon := by
  unfold Hw.gateRun
  split
  · exact w.idleStroke
  · refine .ite w.idleStroke ?_
    split
    · exact .ite w.workDuplexTest.shutGate w.gateFor
    · exact w.idleStroke

theorem Hw.Canon.openGate {t} (w : h.Canon) : (h.openGate t).Canon := by
  unfold Hw.openGate
  extract_lets +onlyGivenNames k x
  have wk : k.Canon := w.put
  split
  · split
    · exact wk.workIncident.shutGate
    · exact wk.idleStroke
  · extract_lets +onlyGivenNames pid
    refine .ite wk.idleStroke ?_
    split
    · exact wk.workIncident.shutGate
    · exact .ite wk.gateRun wk.idleStroke

theorem Hw.Canon.upsetTile {t u} (w : h.Canon) : (h.upsetTile t u).Canon := by
  unfold Hw.upsetTile; exact w.modTile

theorem Hw.Canon.endTest {t} (w : h.Canon) : (h.endTest t).Canon := by
  unfold Hw.endTest; exact .ite w.put w

theorem Hw.Canon.tilePulse {t u} (w : h.Canon) : (h.tilePulse t u).Canon := by
  unfold Hw.tilePulse; exact .ite w w.upsetTile.closeStroke.creditIdle.endTest.modTile.put.resendMem.openGate

theorem Hw.Canon.completeSubstitute {x} (w : h.Canon) : (h.completeSubstitute x).Canon := by
  unfold Hw.completeSubstitute
  split
  · exact w
  · extract_lets +onlyGivenNames inW k k1 k2 k3
    have wk : k.Canon := by
      unfold k
      split
      · exact w
      · exact w.markRelocated.modTile
    have wk2 : k2.Canon := wk.update
    have wk3 : k3.Canon := wk2.setWindows
    extract_lets +onlyGivenNames k4
    have wk4 : k4.Canon := wk3.event
    split
    · exact .ite wk4 wk4.finishAt
    · exact wk4

/-! Functions of `Machine/Power`. -/

theorem Hw.Canon.setInput {j2 mv} (w : h.Canon) : (h.setInput j2 mv).2.Canon := by
  unfold Hw.setInput
  extract_lets +onlyGivenNames ok f was k
  have wk : k.Canon := w.put.put
  split
  · exact wk.put
  · exact wk

theorem Hw.Canon.followCams (w : h.Canon) : h.followCams.Canon := by
  unfold Hw.followCams; exact w.foldl fun _ _ v => v.camPower

theorem Hw.Canon.mainPowerLoss (w : h.Canon) : h.mainPowerLoss.Canon := by
  unfold Hw.mainPowerLoss
  exact .ite w (.ite w.update.switchAll.put (.detect (.event (.followCams (.switch (.update (.ite w.update w)))))))

theorem Hw.Canon.lossStep {stage gotA gotB} (w : h.Canon) : (h.lossStep stage gotA gotB).Canon := by
  unfold Hw.lossStep
  split
  · exact w.switchAll.foldl fun _ _ v => v.sliceEnd
  · exact w.switchAll
  · extract_lets +onlyGivenNames k k1 k2
    have wk : k.Canon := w.sendHubRecord.switchAll
    have wk1 : k1.Canon := .ite wk wk.markStale
    have wk2 : k2.Canon := .ite wk1 wk1.markStale
    exact wk2.put

theorem Hw.Canon.downDatum {d} (w : h.Canon) : (h.downDatum d).Canon := by
  unfold Hw.downDatum; exact w.resetDatum.modDatum.driveLoop

theorem Hw.Canon.railReaction {k} (w : h.Canon) : (h.railReaction k).Canon := by
  unfold Hw.railReaction
  exact .ite (.ite w.dieFault (.ite w.dieFault (.ite w.loseDevice.loseDevice w.dieFault))) (.ite w.mainPowerLoss
    (.ite (w.switch.foldl (fun _ _ v => v.sliceEnd)) (.ite (w.switch.foldl (fun _ _ v => v.fusAbort)) (.ite
    w.resetDatum.driveLoop.latchOwn (.ite w.loseDevice.loseDevice (.ite (w.switch.followCams.foldl (fun _ _ v =>
    v.put.event)) (w.switch.foldl (fun _ _ v => v.driveLoop.latchOwn))))))))

theorem Hw.Canon.modGov {f} (w : h.Canon) : (h.modGov f).Canon := by
  unfold Hw.modGov; exact w.update

theorem Hw.Canon.refreshBoost (w : h.Canon) : h.refreshBoost.Canon := by
  unfold Hw.refreshBoost; exact w.put

theorem Hw.Canon.showCapping (w : h.Canon) : h.showCapping.Canon := by
  unfold Hw.showCapping; exact w.put

theorem Hw.Canon.setCap {d mhz} (w : h.Canon) : (h.setCap d mhz).Canon := by
  unfold Hw.setCap; exact w.setReg.put.event.showCapping

theorem Hw.Canon.setApcClock {k v} (w : h.Canon) : (h.setApcClock k v).Canon := by
  unfold Hw.setApcClock; exact w.modGov.showCapping

theorem Hw.Canon.capAction {p e k} (w : h.Canon) (hk : h.capAction p e = some k) : k.Canon := by
  unfold Hw.capAction at hk
  split at hk
  · cases hk; exact w.modGov.refreshBoost
  · replace hk := Option.or_eq_some_iff.mp (Option.orElse_eq_or.symm.trans hk)
    obtain hk | ⟨-, hk⟩ := hk
    · obtain ⟨d, -, hk⟩ := Option.bind_eq_some_iff.mp hk
      obtain ⟨-, hk⟩ := Option.ite_none_right_eq_some.mp hk
      cases hk
      exact w.setCap
    · obtain ⟨d, -, hk⟩ := Option.bind_eq_some_iff.mp hk
      obtain ⟨-, hk⟩ := Option.ite_none_right_eq_some.mp hk
      cases hk
      exact w.setApcClock

theorem Hw.Canon.stuckElement {e} (w : h.Canon) : (h.stuckElement e).Canon := by
  unfold Hw.stuckElement
  split
  · exact w.modGov
  · refine .ite w ?_
    extract_lets +onlyGivenNames k
    have wk : k.Canon := w.modGov
    split
    · exact wk.shedPart
    · exact wk

theorem Hw.Canon.evalElement {p e} (w : h.Canon) : (h.evalElement p e).Canon := by
  unfold Hw.evalElement
  extract_lets +onlyGivenNames clear
  have wclear : ∀ h, h.Canon → (clear h).Canon := fun _ v => v.modGov
  refine .ite ?_ (wclear _ w)
  split
  next e2 => exact wclear _ (w.capAction e2)
  · exact w.stuckElement

theorem Hw.Canon.raiseElement {e} (w : h.Canon) : (h.raiseElement e).Canon := by
  unfold Hw.raiseElement; exact .ite w (.ite (.ite w.setCap w) (.ite w.setApcClock w))

theorem Hw.Canon.sampleSensor {s b} (w : h.Canon) : (h.sampleSensor s b).Canon := by
  unfold Hw.sampleSensor
  extract_lets +onlyGivenNames t k reached was k1 k2 k3
  have wk : k.Canon := w.modGov
  have wk1 : k1.Canon := wk.modGov
  have wk2 : k2.Canon := .ite wk1.put.event wk1
  have wk3 : k3.Canon := wk2.modGov
  exact .ite (.detect (.ite (wk3.foldl (fun _ _ x => x.healthAdd)) wk2)) (.ite (wk3.foldl (fun _ _ x => x.healthAdd))
    wk2)

theorem Hw.Canon.dieTime {d} (w : h.Canon) : (h.dieTime d).Canon := by
  unfold Hw.dieTime; exact .ite w.healthAdd w

theorem Hw.Canon.thermalStop {d} (w : h.Canon) : (h.thermalStop d).Canon := by
  unfold Hw.thermalStop; exact .ite (.ite w.modGov.dieBack w) (.ite (.ite w.modGov.dieDown w.modGov) w)

theorem Hw.Canon.sampleCoolant (w : h.Canon) : h.sampleCoolant.Canon := by
  unfold Hw.sampleCoolant; exact .ite w.put.put.modGov.put.put.put.event w.put.put.modGov.put.put

/-! Functions of `Machine/Time`. -/

theorem Hw.Canon.sourceLost (w : h.Canon) : h.sourceLost.Canon := by
  unfold Hw.sourceLost; exact .ite w.put.update w.put.update.put.put.event

theorem Hw.Canon.steer (w : h.Canon) : h.steer.Canon := by
  unfold Hw.steer; exact w.free.put

theorem Hw.Canon.measured {off} (w : h.Canon) : (h.measured off).Canon := by
  unfold Hw.measured
  extract_lets +onlyGivenNames k sat k1 n k2
  have wk : k.Canon := .ite w.put.event w
  have wk1 : k1.Canon := wk.put.steer
  exact .ite wk1.update.put (.ite wk1.update.put.put wk1.update)

theorem Hw.Canon.writeSrc {v} (w : h.Canon) : (h.writeSrc v).Canon := by
  unfold Hw.writeSrc; exact .ite w w.put.update

theorem Hw.Canon.switchSource (w : h.Canon) : h.switchSource.Canon := by
  unfold Hw.switchSource
  split
  · exact w
  · exact .ite (.ite w.update.put w.update) (.sourceLost (.ite w.update.put w.update))

theorem Hw.Canon.writeStep {v} (w : h.Canon) : (h.writeStep v).Canon := by
  unfold Hw.writeStep; exact .ite w.put.update w.put

theorem Hw.Canon.moveTimes {d} (w : h.Canon) : (h.moveTimes d).Canon := by
  unfold Hw.moveTimes; exact w.update

theorem Hw.Canon.timeStep (w : h.Canon) : h.timeStep.Canon := by
  unfold Hw.timeStep
  split
  · exact w
  · exact .ite w w.budgetStep.update.moveTimes.put.put.put.setBridge.showStencil.refillBuckets

theorem Hw.Canon.cancelStep (w : h.Canon) : h.cancelStep.Canon := by
  unfold Hw.cancelStep; exact .ite w w.put.put.update

/-! Functions of `Machine/Registers`. -/

theorem Hw.Canon.readReg {block off} (w : h.Canon) : (h.readReg block off).2.Canon := by
  unfold Hw.readReg
  split
  · exact w.free
  · exact .ite w.put w

theorem Hw.Canon.writeEoi {v} (w : h.Canon) : (h.writeEoi v).Canon := by
  unfold Hw.writeEoi; exact .ite w (.ite w.raiseVector.put (.ite w w.put))

theorem Hw.Canon.followEth {p} (w : h.Canon) : (h.followEth p).Canon := by
  unfold Hw.followEth; exact .ite (.ite w w.setEth) (.ite w.ethLost.setEth w.setEth)

theorem Hw.Canon.keepPid {lidar p f k} (w : h.Canon) : (keepPid k lidar p f h).Canon := by
  unfold Machine.keepPid; exact .ite w.put w

theorem Hw.Canon.writeFields {block off v} (w : h.Canon) : (h.writeFields block off v).Canon := by
  unfold Hw.writeFields
  split
  · exact w
  · exact w.setReg

theorem Hw.Canon.afterWrite {block off} {k : Hw} (w : h.Canon) : (k.afterWrite block off h).Canon := by
  unfold Hw.afterWrite
  refine .ite (.ite w.keepPid.camPower.judgeCams (.ite w.judgeCams w)) (.ite (.ite w.keepPid.followEth.remapLids w)
    (.ite ?_ (.ite w.refreshBoost (.ite (.ite w.put w) w))))
  extract_lets +onlyGivenNames k1 k2
  have wk1 : k1.Canon := .ite w.put w
  have wk2 : k2.Canon := .ite wk1.put wk1
  exact wk2.followEth.followEth

theorem Hw.Canon.writeReg {block off v} (w : h.Canon) : (h.writeReg block off v).Canon := by
  unfold Hw.writeReg
  exact .ite w (.ite w.writeEoi (.ite w.writeSrc (.ite w.writeStep (.ite w w.writeFields.afterWrite))))

theorem Hw.Canon.regRefused {pid block} (w : h.Canon) : (h.regRefused pid block).Canon := by
  unfold Hw.regRefused; exact w.event

/-! Functions of `Machine/CpCmds`. -/

theorem Hw.Canon.ownerRefused {src} (w : h.Canon) : (h.ownerRefused src).Canon := by
  unfold Hw.ownerRefused; exact w.event

theorem Hw.Canon.ringDoorbell {page off v} (w : h.Canon) : (h.ringDoorbell page off v).Canon := by
  unfold Hw.ringDoorbell; exact .ite w (.ite w (.ite w.modQueue (.ite w.modQueue.freeConsumed w)))

theorem Hw.Canon.doorbell {src page off v} (w : h.Canon) : (h.doorbell src page off v).Canon := by
  unfold Hw.doorbell
  split
  · exact .ite w.ringDoorbell.update w.ringDoorbell
  · exact .ite w.ownerRefused (.ite w.ringDoorbell w.event)

theorem Hw.Canon.sourceFault {src ctx va cause} (w : h.Canon) : (h.sourceFault src ctx va cause).Canon := by
  unfold Hw.sourceFault
  split
  · exact w.translationFault.toGuest
  · exact w.translationFault

theorem Hw.Canon.doorbellAt {src va v} (w : h.Canon) : (h.doorbellAt src va v).Canon := by
  unfold Hw.doorbellAt
  split
  · split
    · exact w
    · exact w.addSat.put
  · split
    · exact w.sourceFault
    · exact .ite w.doorbell w

theorem Hw.Canon.stopCp {cp cause} (w : h.Canon) : (h.stopCp cp cause).Canon := by
  unfold Hw.stopCp; exact .put (.ite w.put.put w.put.put.put.put)

/-! Functions of `Machine/Connectors`. -/

theorem Hw.Canon.sobWindow {agent pid idx form v} (w : h.Canon) : (h.sobWindow agent pid idx form v).2.Canon := by
  unfold Hw.sobWindow
  split
  · exact w.sobAccess
  · split
    · exact w.sobAccess
    · split
      · exact w.sobAccess
      · split
        · exact w.sobViolation
        · exact w.free.free.sobPerform

theorem Hw.Canon.complete {t status poisoned bs} (w : h.Canon) : (h.complete t status poisoned bs).Canon := by
  unfold Hw.complete; exact w.update

theorem Hw.Canon.unsupported {t} (w : h.Canon) : (h.unsupported t).Canon := by
  unfold Hw.unsupported; exact .ite w.addSat.put w.addSat.put.complete

theorem Hw.Canon.readOut {pid a2} (w : h.Canon) : (h.readOut pid a2).2.2.Canon := by
  induction a2 generalizing h with
  | nil => exact w
  | cons a as ih =>
    unfold Hw.readOut
    exact ih w.cohRead

theorem Hw.Canon.holdTlp {a1} (w : h.Canon) : (h.holdTlp a1).Canon := by
  unfold Hw.holdTlp; exact w.update

theorem Hw.Canon.tlpMemory {t pid ps} (w : h.Canon) : (h.tlpMemory t pid ps).Canon := by
  unfold Hw.tlpMemory
  refine .ite w.holdTlp ?_
  split
  · exact w.noteExhausted.holdTlp
  next e1 =>
    exact .ite (w.chargeDram e1).writeThrough (.complete (.ite (w.chargeDram e1).readOut.event.addSat.put
      (w.chargeDram e1).readOut))

/-- The kernel is kept from evaluating the subtraction of the window's base. -/
theorem Hw.Canon.tlpRegs {t pid a n} (w : h.Canon) : (h.tlpRegs t pid a n).Canon := by
  unfold Hw.tlpRegs
  obtain ⟨base, e⟩ : ∃ k, k = 0x0400_0000_0000 := ⟨_, rfl⟩
  rw [← e]
  extract_lets +onlyGivenNames o block off
  exact .ite (.ite w.regRefused w.regRefused.complete) (.ite (.ite w.readReg.complete w.regRefused.complete)
    (.ite w.writeReg (.ite w.regRefused w.regRefused.complete)))

theorem Hw.Canon.tlpDoorbell {t a n} (w : h.Canon) : (h.tlpDoorbell t a n).Canon := by
  unfold Hw.tlpDoorbell; exact .ite w.complete (.ite (.ite w.doorbell w) w.unsupported)

theorem Hw.Canon.tlpSob {t pid a n} (w : h.Canon) : (h.tlpSob t pid a n).Canon := by
  unfold Hw.tlpSob; exact .ite w.sobWindow w.sobWindow.complete

theorem Hw.Canon.tlpSram {t a n} (w : h.Canon) : (h.tlpSram t a n).Canon := by
  unfold Hw.tlpSram; exact .ite (.ite w.pokeSram w) (.ite w.complete w.unsupported)

theorem Hw.Canon.tlpTarget {t pid ps} (w : h.Canon) : (h.tlpTarget t pid ps).Canon := by
  unfold Hw.tlpTarget
  refine .ite w.tlpMemory ?_
  split
  · split
    · exact w.tlpRegs
    · exact w.tlpDoorbell
    · exact w.tlpSob
    · exact w.tlpSram
    · exact w.unsupported
  · exact w.unsupported

theorem Hw.Canon.tlpServe {a1} (w : h.Canon) : (h.tlpServe a1).Canon := by
  unfold Hw.tlpServe; exact .ite w.holdTlp w.tlpTarget

theorem Hw.Canon.tlp {t} (w : h.Canon) : (h.tlp t).Canon := by
  unfold Hw.tlp
  extract_lets +onlyGivenNames n
  split
  · exact w.unsupported
  · refine .ite (.ite w.ownerRefused w.ownerRefused.unsupported) ?_
    split
    · exact .ite w.translationFault w.translationFault.unsupported
    · exact w.tlpServe

theorem Hw.Canon.coreWindow {hart va form v} (w : h.Canon) : (h.coreWindow hart va form v).Canon := by
  unfold Hw.coreWindow
  split
  · exact w
  · split
    · exact w.translationFault.toGuest
    · exact .ite w (.ite w.sobWindow w.sobWindow.update)

theorem Hw.Canon.retryTlps (w : h.Canon) : h.retryTlps.Canon := by
  unfold Hw.retryTlps; exact .ite (w.update.foldl (fun _ _ v => v.tlpServe)) w

theorem Hw.Canon.msiWrite {port rid bs} (w : h.Canon) : (h.msiWrite port rid bs).Canon := by
  unfold Hw.msiWrite
  split
  · exact w.addSat.put
  · exact .ite w.update w.addSat.put

theorem Hw.Canon.sendPending {port rid} (w : h.Canon) : (h.sendPending port rid).Canon := by
  unfold Hw.sendPending; exact .ite w w.update

/-! Functions of `Machine/Modes`. -/

theorem Hw.Canon.stopTrace (w : h.Canon) : h.stopTrace.Canon := by
  unfold Hw.stopTrace; exact w.update.put

theorem Hw.Canon.showLevel (w : h.Canon) : h.showLevel.Canon := by
  unfold Hw.showLevel; exact w.put

theorem Hw.Canon.honourPins (w : h.Canon) : h.honourPins.Canon := by
  unfold Hw.honourPins; exact .ite (.breakLockstep (.ite w.update w)) (.ite w.update w)

theorem Hw.Canon.advanceFuses (w : h.Canon) : h.advanceFuses.Canon := by
  unfold Hw.advanceFuses; exact w.update

theorem Hw.Canon.setMode {m} (w : h.Canon) : (h.setMode m).Canon := by
  unfold Hw.setMode
  extract_lets +onlyGivenNames old k k1 k2 k3 k4
  have wk : k.Canon := w.put.put.put
  have wk1 : k1.Canon := .ite (.stopTrace (.ite wk wk.put)) wk
  have wk2 : k2.Canon := .ite wk1.advanceFuses.cancelStep.setRoute (.ite wk1.setRoute wk1)
  have wk3 : k3.Canon := .ite wk2.honourPins wk2
  exact .showLevel (.update (.ite wk3.update wk3))

theorem Hw.Canon.changeMode {m} (w : h.Canon) : (h.changeMode m).Canon := by
  unfold Hw.changeMode; exact w.setMode.put.event

theorem Hw.Canon.closeStreams (w : h.Canon) : h.closeStreams.Canon := by
  unfold Hw.closeStreams; exact w.foldl fun _ _ v => v.closeStream

theorem Hw.Canon.setChannels {from_ to_} (w : h.Canon) : (h.setChannels from_ to_).Canon := by
  unfold Hw.setChannels; exact w.foldl fun _ _ v => .ite v.put v

theorem Hw.Canon.dropLinks (w : h.Canon) : h.dropLinks.Canon := by
  unfold Hw.dropLinks; exact w.foldl fun _ _ v => v.setEth

theorem Hw.Canon.trainLinks (w : h.Canon) : h.trainLinks.Canon := by
  unfold Hw.trainLinks; exact w.foldl fun _ _ v => v.followEth

theorem Hw.Canon.park (w : h.Canon) : h.park.Canon := by
  unfold Hw.park
  extract_lets +onlyGivenNames k n k1 k2 k3 k4
  have wk : k.Canon := w.abortEngines.rerunOrders.dropFetched.loseBuffers
  have wk1 : k1.Canon := wk.foldl (fun _ _ u => u.foldl (fun _ _ z => z.postAll))
  have wk2 : k2.Canon := wk1.closeStreams.changeMode.setChannels
  have wk4 : k4.Canon := wk2.update
  exact wk4.dropLinks.switchAll.followCams.clearTiles.foldl fun _ _ x => x.sliceEnd

theorem Hw.Canon.unpark {b} (w : h.Canon) : (h.unpark b).Canon := by
  unfold Hw.unpark
  refine .ite w.porst ?_
  extract_lets +onlyGivenNames k k1 k2 k3 k4
  have wk : k.Canon := w.switchAll
  have wk1 : k1.Canon := wk.foldl (fun _ _ u => .ite u u.bringChannel)
  have wk2 : k2.Canon := wk1.warmReset
  have wk3 : k3.Canon := wk2.foldl (fun _ _ y => .ite y y.testDie.rebuildDie)
  exact wk3.update.changeMode.followCams.trainLinks.put

theorem Hw.Canon.modeEffect {b c} (w : h.Canon) : (modeEffect b h c).Canon := by
  unfold Machine.modeEffect
  extract_lets +onlyGivenNames m old k
  have wk : k.Canon := w.done
  exact .ite wk.park (.ite wk.changeMode (.ite (.moduleWarm (.ite wk wk.changeMode.clearAtStandby.clearAtStandby))
    (.ite wk wk.changeMode.clearAtStandby.clearAtStandby)))

/-! Functions of `Machine/Startup`. -/

theorem Hw.Canon.stopStart {step} (w : h.Canon) : (h.stopStart step).Canon := by
  unfold Hw.stopStart; exact w.put.update

theorem Hw.Canon.layFirmware (w : h.Canon) : h.layFirmware.Canon := by
  unfold Hw.layFirmware
  extract_lets +onlyGivenNames c runs low own frames leaves l0
  exact .put (w.of_cells rfl)

theorem Hw.Canon.applyConfig (w : h.Canon) : h.applyConfig.Canon := by
  unfold Hw.applyConfig
  extract_lets +onlyGivenNames c k k1 k2 k3 k4 k5
  have wk : k.Canon := w.foldl (fun _ _ v => v.setFields)
  have wk1 : k1.Canon := wk.foldl (fun _ _ u => u.setReg)
  have wk2 : k2.Canon := wk1.put.put
  have wk3 : k3.Canon := wk2.setFields.setFields
  have wk4 : k4.Canon := wk3.put.put
  extract_lets +onlyGivenNames k6
  have wk6 : k6.Canon := wk4.update
  split
  · exact wk6.setRing
  · exact wk6

theorem Hw.Canon.openOwner (w : h.Canon) : h.openOwner.Canon := by
  unfold Hw.openOwner; exact w.update.setRoute

theorem Hw.Canon.startDatum {d} (w : h.Canon) : (h.startDatum d).Canon := by
  unfold Hw.startDatum; exact w.modDatum.put.put.put.setHold

theorem Hw.Canon.recoverB (w : h.Canon) : h.recoverB.Canon := by
  unfold Hw.recoverB; exact w.modDatum.update.put.put.latch

theorem Hw.Canon.startRest {b src hub cfg recB} (w : h.Canon) : (h.startRest b src hub cfg recB).Canon := by
  unfold Hw.startRest
  extract_lets +onlyGivenNames k k1 k2 k3 k4 k5 k6 k7 k8 k9 k10 k11 k12
  have wk1 : k1.Canon := by
    unfold k1
    split
    · exact w.put.update
    · exact w
  have wk2 : k2.Canon := wk1.update
  have wk3 : k3.Canon := wk2.put.put
  have wk4 : k4.Canon := wk3.put.switchAll
  have wk5 : k5.Canon := wk4.bringCps.bringEdges
  have wk6 : k6.Canon := wk5.foldl (fun _ _ q => q.bringChannel)
  have wk7 : k7.Canon := wk6.layFirmware
  have wk8 : k8.Canon := wk7.foldl (fun _ _ w8 => w8.testDie.rebuildDie)
  have wk9 : k9.Canon := wk8.applyConfig.startDatum.startDatum
  have wk10 : k10.Canon := .ite wk9.recoverB wk9
  exact .put (.trainLinks (.followCams (.changeMode (.showStencil (.put (.openOwner (.ite wk10.update.put
    wk10.update)))))))

theorem Hw.Canon.startup {b j1 j2 hubOk src} (w : h.Canon) : (h.startup b j1 j2 hubOk src).Canon := by
  unfold Hw.startup
  extract_lets +onlyGivenNames k
  have wk : k.Canon := w.setInput.setInput
  refine .ite wk ?_
  extract_lets +onlyGivenNames k1 f
  have wk1 : k1.Canon := wk.switchAll
  refine .ite wk1.stopStart ?_
  extract_lets +onlyGivenNames recB
  split
  · exact .ite wk1.stopStart (.ite wk1.update.stopStart (.ite wk1.update.switchAll.bringCps.stopStart
      wk1.update.startRest))
  · exact wk1.stopStart

theorem Hw.Canon.readLabel {label} (w : h.Canon) : (h.readLabel label).Canon := by
  unfold Hw.readLabel; exact w.update.showLabel

/-! Functions of `Machine/Freeze`. -/

theorem Hw.Canon.debugRefused {kind} (w : h.Canon) : (h.debugRefused kind).Canon := by
  unfold Hw.debugRefused; exact w.event

theorem Hw.Canon.armRefused {c} (w : h.Canon) : (armRefused h c).Canon := by
  unfold Machine.armRefused; exact .ite (.ite w.put.debugRefused w.put) w

theorem Hw.Canon.freezeMemory (w : h.Canon) : h.freezeMemory.Canon := by
  unfold Hw.freezeMemory; exact .ite (.setChannels (w.foldl (fun _ _ v => v.freezeArb))) w

theorem Hw.Canon.dataLine {l} (w : h.Canon) : (h.dataLine l).2.Canon := by
  unfold Hw.dataLine
  split
  · exact w
  · exact w.defineLine

theorem Hw.Canon.heldLine {a} (w : h.Canon) : (h.heldLine a).2.2.2.Canon := by
  unfold Hw.heldLine
  extract_lets +onlyGivenNames take b
  have wtake : ∀ l, (take h l).2.2.2.Canon := fun _ => w.dataLine
  split
  · exact wtake _
  · extract_lets +onlyGivenNames s k share
    split
    · exact wtake _
    · split
      · exact w
      · exact w.foldl₂ fun _ _ v => v.dataLine

theorem Hw.Canon.checkLine {c g} (w : h.Canon) : (h.checkLine c g).2.Canon := by
  unfold Hw.checkLine
  have wfold {f : List Byte × Nat × Hw → Nat → List Byte × Nat × Hw} (hf : ∀ b x, b.2.2.Canon → (f b x).2.2.Canon) :
      ((List.range 7).foldl f ([], 0, h)).2.2.Canon := Hw.Canon.foldl₃ w hf
  split
  next e =>
    refine Hw.Canon.of_triple (wfold fun b x v => ?_) e
    exact v.heldLine

theorem Hw.Canon.lineRecord {c p} (w : h.Canon) : (h.lineRecord c p).2.Canon := by
  unfold Hw.lineRecord
  extract_lets +onlyGivenNames key copiesFree
  split
  · exact w
  · split
    · exact w.checkLine.update
    · extract_lets +onlyGivenNames a
      split
      next k e =>
        have wk := w.heldLine.of_quad e
        extract_lets +onlyGivenNames es raw
        split
        · exact wk
        · exact wk

theorem Hw.Canon.tapOut {v} (w : h.Canon) : (h.tapOut v).Canon := by
  unfold Hw.tapOut; exact w.update

theorem Hw.Canon.tapFrozen {item} (w : h.Canon) : (h.tapFrozen item).Canon := by
  unfold Hw.tapFrozen; exact w.update

theorem Hw.Canon.tapGives {op} (w : h.Canon) : (h.tapGives op).Canon := by
  unfold Hw.tapGives
  extract_lets +onlyGivenNames frozen
  split
  · exact w.tapFrozen
  · exact w.tapOut
  · exact w.tapOut
  · exact .ite w.tapFrozen w.tapOut
  · exact .ite w.tapOut w.tapOut
  · exact .ite w.tapOut w.tapOut
  · exact .ite w.setChannels.put.tapOut w.tapOut
  · exact .ite w.lineRecord.tapOut w.tapOut
  · exact .ite (.tapOut (.free (.ite w w.breakLockstep))) w.tapOut

/-! Functions of `Machine/GroupCmds`. -/

theorem Hw.Canon.acceptHeld {x} (w : h.Canon) : (h.acceptHeld x).Canon := by
  unfold Hw.acceptHeld
  extract_lets +onlyGivenNames k
  have wk : k.Canon := w.modGrp
  split
  · exact wk
  · exact .submitAccepted (.take (wk.getD fun _ => wk.presented))

theorem Hw.Canon.acceptReady (w : h.Canon) : h.acceptReady.Canon := by
  unfold Hw.acceptReady; exact w.foldl fun _ _ v => v.acceptHeld

theorem Hw.Canon.holdSubmit {q pkt} (w : h.Canon) : (h.holdSubmit q pkt).Canon := by
  unfold Hw.holdSubmit; exact w.writeGrpRecord.modGrp.acceptReady

theorem Hw.Canon.sendJoin (w : h.Canon) : h.sendJoin.Canon := by
  unfold Hw.sendJoin; exact w.sendPeer.update

theorem Hw.Canon.enterGroup {b} (w : h.Canon) : (h.enterGroup b).Canon := by
  unfold Hw.enterGroup
  exact .ite w.modGrp.put.put.put.put.put.put.put.put.put.put.put.put
    w.modGrp.put.put.put.put.put.put.modGrp.put.put.put.put.put.put.sendJoin

theorem Hw.Canon.tryForm (w : h.Canon) : h.tryForm.Canon := by
  unfold Hw.tryForm
  exact .ite w (.ite (.put (.put (.foldl (.put (.ite w.put w)) (fun _ _ v => v.modMember)))) (.put (.ite w.put w)))

theorem Hw.Canon.newStandby (w : h.Canon) : h.newStandby.Canon := by
  unfold Hw.newStandby; exact w.put

theorem Hw.Canon.loseMember {i} (w : h.Canon) : (h.loseMember i).Canon := by
  unfold Hw.loseMember
  refine .ite w ?_
  extract_lets +onlyGivenNames k k1 k2
  have wk : k.Canon := w.put.put.put
  have wk1 : k1.Canon := wk.put.modMember
  have wk2 : k2.Canon := .ite wk1.newStandby wk1
  exact .ite wk2 wk2.event.modGrp.reencode.acceptReady

theorem Hw.Canon.settleCkpts (w : h.Canon) : h.settleCkpts.Canon := by
  unfold Hw.settleCkpts; exact w.foldl fun _ _ v => v.modGrp.writeGrpRecord

theorem Hw.Canon.shardAck {src num upTo} (w : h.Canon) : (h.shardAck src num upTo).Canon := by
  unfold Hw.shardAck; exact w.modGrp.acceptReady.settleCkpts

theorem Hw.Canon.followManager {epoch manager} (w : h.Canon) : (h.followManager epoch manager).Canon := by
  unfold Hw.followManager; exact .ite w.put.put.put.modGrp.newStandby w

theorem Hw.Canon.handlePeer {f} (w : h.Canon) : (h.handlePeer f).Canon := by
  unfold Hw.handlePeer
  extract_lets +onlyGivenNames src pid dseq p fromManager
  split
  · exact w.followManager
  · exact .ite w.grpDispatch w
  · exact .ite w.grpDataIn w
  · exact .ite w.grpDataOut w
  · exact .ite w.grpDone w
  · exact w.modGrp.sendPeer
  · exact .ite w.shardAck w
  · exact .tryForm (.ite w.modMember.sendJoin w.modMember)
  · exact w

theorem Hw.Canon.takePeer {port f} (w : h.Canon) : (h.takePeer port f).Canon := by
  unfold Hw.takePeer
  exact .ite w.modMember (.ite w.modMember.handlePeer (.ite (.handlePeer (.ite w.modMember w.modMember.queuePeer))
    w.modMember.queuePeer))

theorem Hw.Canon.sendAck {port} (w : h.Canon) : (h.sendAck port).Canon := by
  unfold Hw.sendAck; exact w.update

theorem Hw.Canon.crossedPeer {port} (w : h.Canon) : (h.crossedPeer port).Canon := by
  unfold Hw.crossedPeer; exact w.put.put.addSat.event.put.put

theorem Hw.Canon.peerEvent {port e} (w : h.Canon) : (h.peerEvent port e).Canon := by
  unfold Hw.peerEvent
  refine .ite w ?_
  split
  · exact w.resendPeer
  · exact .ite w.addSat (.ite (.ite w.crossedPeer w.ackPeer) (.ite w.sendAck w.modPeerPort.sendAck.takePeer))

theorem Hw.Canon.showSeen (w : h.Canon) : h.showSeen.Canon := by
  unfold Hw.showSeen; exact w.put.put

theorem Hw.Canon.sendMember {d} (w : h.Canon) : (h.sendMember d).Canon := by
  unfold Hw.sendMember; exact .ite w w.modGrp.update

theorem Hw.Canon.takeMember {d m} (w : h.Canon) : (h.takeMember d m).Canon := by
  unfold Hw.takeMember
  split
  · exact .ite w (.showSeen (.ite w.modMember.followManager w.modMember))
  · exact .ite w w.modMember.tryForm

theorem Hw.Canon.restoreCkpt {e b} (w : h.Canon) : (h.restoreCkpt e b).Canon := by
  unfold Hw.restoreCkpt
  extract_lets +onlyGivenNames pid n
  split
  next e1 => exact w.writeVa.of_pair e1
  next e1 => exact (w.writeVa.of_pair e1).modGrp.sobAccess

theorem Hw.Canon.adoptJob {old r} (w : h.Canon) : (h.adoptJob old r).Canon := by
  unfold Hw.adoptJob
  dsimp only
  split
  · exact w
  · split
    · refine .ite (.reissue (.modGrp ?_)) (.modGrp ?_)
      · split
        next e3 => exact w.freeBytes.take.begin.readVa.of_pair e3
        next e3' => exact w.freeBytes.take.begin.readVa.of_pair e3'
      · split
        next e3 => exact w.freeBytes.take.begin.readVa.of_pair e3
        next e3' => exact w.freeBytes.take.begin.readVa.of_pair e3'
    · exact w.freeBytes.take.begin.modGrp

theorem Hw.Canon.takeOver {sup} (w : h.Canon) : (h.takeOver sup).Canon := by
  unfold Hw.takeOver
  extract_lets +onlyGivenNames old ms nums whole recs k k1 top k2 k3 k4 k5 open_
  have wk : k.Canon := w.addWrap.put
  have wk1 : k1.Canon := wk.put.loseMember
  have wk2 : k2.Canon := wk1.modGrp
  have wk3 : k3.Canon := wk2.newStandby
  have wk4 : k4.Canon := wk3.sendPeer.sendMember.sendMember
  have wk5 : k5.Canon := by
    unfold k5
    refine wk4.foldl fun _ _ q => ?_
    split
    · exact q.restoreCkpt
    · exact q
  exact .reencode (wk5.foldl (fun _ _ w7 => w7.adoptJob))

theorem Hw.Canon.capture {e} (w : h.Canon) : (h.capture e).Canon := by
  unfold Hw.capture
  extract_lets +onlyGivenNames pid n
  refine .ite w ?_
  split
  next e1 => exact w.readUnits.of_quad e1
  next e1 =>
    have wread := w.readUnits.of_quad e1
    extract_lets +onlyGivenNames num k
    have wk : k.Canon := .ite wread.stainedExit wread
    exact wk.modGrp.sobAccess.sendShards.settleCkpts

theorem Hw.Canon.groupStroke (w : h.Canon) : h.groupStroke.Canon := by
  unfold Hw.groupStroke
  refine .ite w ?_
  extract_lets +onlyGivenNames k k1 k2 k3 k4 k5
  have wk : k.Canon := w.refillPeer
  have wk1 : k1.Canon := wk.pump.pump
  have wk2 : k2.Canon := .ite wk1.sendPeer wk1
  have wk3 : k3.Canon := wk2.tryForm.acceptReady
  have wk4 : k4.Canon := wk3.foldl (fun _ _ x => x.gjobStroke)
  have wk5 : k5.Canon := wk4.foldl (fun _ _ q => q.subStroke)
  exact wk5.consumeSubs.showSeen

theorem Hw.Canon.grpPartReset {pid} (w : h.Canon) : (h.grpPartReset pid).Canon := by
  unfold Hw.grpPartReset; exact .modGrp (.foldl (w.foldl (fun _ _ v => v.endGJob)) (fun _ _ v => v.endSub))

/-! Functions of `Machine/ModelCmds`. -/

theorem Hw.Canon.loadChecked {c pages bs} (w : h.Canon) : (loadChecked h c pages bs).Canon := by
  unfold Machine.loadChecked
  extract_lets +onlyGivenNames hd uc
  split
  · exact w.done
  · split
    · exact w.done
    · refine .ite w.done ?_
      split
      · exact w.done
      · exact .done (.ite w.register.modModel.install w.register)

theorem Hw.Canon.modelLoad {c} (w : h.Canon) : (modelLoad h c).Canon := by
  unfold Machine.modelLoad
  extract_lets +onlyGivenNames va n
  refine .ite w.done ?_
  extract_lets +onlyGivenNames ps
  split
  · exact .ite w.translationFault.failPage w.translationFault.done
  · exact w.done
  · exact w.withRecord fun _ _ v => v.loadChecked

theorem Hw.Canon.dropUcPin {pid m} (w : h.Canon) : (h.dropUcPin pid m).Canon := by
  unfold Hw.dropUcPin; exact .ite w.modModel w

theorem Hw.Canon.modelEvict {c} (w : h.Canon) : (modelEvict h c).Canon := by
  unfold Machine.modelEvict
  extract_lets +onlyGivenNames hd k k1
  have wk : k.Canon := w.toRegistered
  have wk1 : k1.Canon := by
    unfold k1
    refine .ite ?_ wk
    split
    · exact wk.unregister.dropUcPin
    · exact wk
  exact wk1.reinstall.done

theorem Hw.Canon.failWaiting {pid hd status detail} (w : h.Canon) : (h.failWaiting pid hd status detail).Canon := by
  unfold Hw.failWaiting; exact w.foldl fun _ _ v => v.endJob

theorem Hw.Canon.finishInstall {pid hd} (w : h.Canon) : (h.finishInstall pid hd).Canon := by
  unfold Hw.finishInstall
  split
  · exact w
  · refine .ite ?_ w
    extract_lets +onlyGivenNames segs
    split
    next e3 => exact (w.loadAll_ok e3).bindModel.modModel
    next e3 => exact (w.loadAll_error e3).translationFault.toRegistered.failWaiting

/-! Functions of `Machine/SeqCmds`. -/

theorem Hw.Canon.readRun {pid s layer i n} (w : h.Canon) : (h.readRun pid s layer i n).2.Canon := by
  unfold Hw.readRun
  split
  next e => exact w.readVa.of_pair e
  next e => exact w.readVa.of_pair e

theorem Hw.Canon.writeRun {pid s layer i es} (w : h.Canon) : (h.writeRun pid s layer i es).2.Canon := by
  unfold Hw.writeRun
  split
  · exact w.translationFault
  · exact w.writePieces

theorem Hw.Canon.withEntries {c s i n acc k a7} (w : h.Canon) (hk : ∀ h y1, h.Canon → (k h y1).Canon) :
    (h.withEntries c s i n acc k a7).Canon := by
  induction a7 generalizing h acc with
  | zero =>
    unfold Hw.withEntries
    exact hk _ _ w
  | succ n ih =>
    unfold Hw.withEntries
    split
    next e => exact (w.readRun.of_pair e).failPage
    next e => exact .ite (w.readRun.of_pair e).finish (ih (w.readRun.of_pair e))

theorem Hw.Canon.writeLayers {pid s i a4 a5} (w : h.Canon) : (h.writeLayers pid s i a4 a5).2.Canon := by
  induction a5 generalizing h a4 with
  | nil => exact w
  | cons a as ih =>
    unfold Hw.writeLayers
    split
    next e => exact w.writeRun.of_pair e
    next e => exact ih (w.writeRun.of_pair e)

theorem Hw.Canon.modNode {n f} (w : h.Canon) : (h.modNode n f).Canon := by
  unfold Hw.modNode; exact w.update

theorem Hw.Canon.freeNode {n a2} (w : h.Canon) : (h.freeNode n a2).Canon := by
  induction a2 generalizing h n with
  | zero => exact w
  | succ n ih =>
    unfold Hw.freeNode
    split
    · exact w
    · exact .ite (ih (.modNode (.update (w.foldl (fun _ _ v => v.freeSheet))))) w

theorem Hw.Canon.detach {n} (w : h.Canon) : (h.detach n).Canon := by
  unfold Hw.detach; exact .ite w w.modNode.freeNode

theorem Hw.Canon.attach {n} (w : h.Canon) : (h.attach n).Canon := by
  unfold Hw.attach; exact .ite w w.modNode

theorem Hw.Canon.moveAttach {pid hd s n} (w : h.Canon) : (h.moveAttach pid hd s n).Canon := by
  unfold Hw.moveAttach; exact .ite w w.setSeq.attach.detach

theorem Hw.Canon.seqCreate {c} (w : h.Canon) : (seqCreate h c).Canon := by
  unfold Machine.seqCreate
  extract_lets +onlyGivenNames s
  split
  · exact w.translationFault.failPage
  · exact w.writeLayers.setSeq.done

theorem Hw.Canon.shareSheet {pid n} (w : h.Canon) : (h.shareSheet pid n).Canon := by
  unfold Hw.shareSheet; exact .ite w.setSheet w

theorem Hw.Canon.seqFork {c} (w : h.Canon) : (seqFork h c).Canon := by
  unfold Machine.seqFork
  split
  · exact w.wildEnd
  · extract_lets +onlyGivenNames dst
    split
    · exact w.translationFault.failPage
    · exact w.withEntries (fun _ _ v => .done (.setSeq (.attach (v.writeLayers.foldl (fun _ _ u => u.shareSheet)))))

theorem Hw.Canon.dropEntries {c s i k} (w : h.Canon) (hk : ∀ h, h.Canon → (k h).Canon) :
    (h.dropEntries c s i k).Canon := by
  unfold Hw.dropEntries; exact w.withEntries (fun _ _ v => hk _ (v.writeLayers.foldl (fun _ _ u => u.releaseSheet)))

theorem Hw.Canon.seqTruncate {c} (w : h.Canon) : (seqTruncate h c).Canon := by
  unfold Machine.seqTruncate
  extract_lets +onlyGivenNames hd n
  split
  · exact w.wildEnd
  · exact .ite w.done (w.dropEntries (fun _ v => v.setSeq.moveAttach.done))

theorem Hw.Canon.dropSeq {pid hd s} (w : h.Canon) : (h.dropSeq pid hd s).Canon := by
  unfold Hw.dropSeq; exact w.update.detach

theorem Hw.Canon.seqFree {c} (w : h.Canon) : (seqFree h c).Canon := by
  unfold Machine.seqFree
  extract_lets +onlyGivenNames hd
  split
  · exact w.wildEnd
  · exact w.withEntries (fun _ _ v => .done (.dropSeq (v.foldl (fun _ _ u => u.releaseSheet))))

theorem Hw.Canon.makeNode {pid entry n tbl ns parent hash depth s sheets} (w : h.Canon) :
    (h.makeNode pid entry n tbl ns parent hash depth s sheets).Canon := by
  unfold Hw.makeNode; exact .modNode (w.update.foldl (fun _ _ v => v.setSheet))

theorem Hw.Canon.publish {pid entry ns s es a6 a7 a8} (w : h.Canon) :
    (h.publish pid entry ns s es a6 a7 a8).2.Canon := by
  induction a7 generalizing h a6 a8 with
  | nil => exact w
  | cons a as ih =>
    unfold Hw.publish
    split
    · exact ih w
    · extract_lets +onlyGivenNames per sheets
      split
      · exact w
      · split
        · exact w
        · exact w
        · exact ih w.makeNode

theorem Hw.Canon.gazPublish {c} (w : h.Canon) : (gazPublish h c).Canon := by
  unfold Machine.gazPublish
  extract_lets +onlyGivenNames hd n
  split
  · exact w.withRecord (fun _ _ v => v.withEntries (fun _ _ u => .done (.ite (.ite u.publish u.publish.update)
      (.moveAttach (.ite u.publish u.publish.update)))))
  · exact w.wildEnd

theorem Hw.Canon.gazLookup {c} (w : h.Canon) : (gazLookup h c).Canon := by
  unfold Machine.gazLookup
  extract_lets +onlyGivenNames hd n
  split
  · exact w.wildEnd
  · refine w.withRecord fun _ _ v => ?_
    extract_lets +onlyGivenNames chain ns
    refine .ite v.done ?_
    extract_lets +onlyGivenNames es
    split
    next e6 => exact (v.writeLayers.of_pair e6).failPage
    next e6 => exact (v.writeLayers.of_pair e6).setSeq.attach.done

theorem Hw.Canon.retireEntry {pid entry} (w : h.Canon) : (h.retireEntry pid entry).2.Canon := by
  unfold Hw.retireEntry; exact .foldl (w.update.foldl (fun _ _ v => v.modNode)) fun _ _ v => v.freeNode

theorem Hw.Canon.zeroSheet {n} (w : h.Canon) : (h.zeroSheet n).Canon := by
  unfold Hw.zeroSheet; exact .ite (.setSheet (w.foldl (fun _ _ v => v.store))) w

/-! Functions of `Machine/Teardown`. -/

theorem Hw.Canon.endSlices {pid} (w : h.Canon) : (h.endSlices pid).Canon := by
  unfold Hw.endSlices
  exact .update (.foldl (w.foldl (fun _ _ v => v.endSlice.modTile)) (fun _ _ v => v.dropReservations))

theorem Hw.Canon.clearUnits {pid cs} (w : h.Canon) : (h.clearUnits pid cs).Canon := by
  unfold Hw.clearUnits
  refine w.foldl fun _ _ v => ?_
  split
  · exact v.zeroUnits
  · exact v

theorem Hw.Canon.clearClaims {pid} (w : h.Canon) : (h.clearClaims pid).Canon := by
  unfold Hw.clearClaims; exact w.foldl fun _ _ v => v.toRegistered.clearUnits

theorem Hw.Canon.endWork {pid} (w : h.Canon) : (h.endWork pid).Canon := by
  unfold Hw.endWork
  exact .foldl (.dfinPartReset (.update (.abortCands (.fusAbort (.endSlices (w.grpPartReset.foldl (fun _ _ v =>
    v.endJob))))))) fun _ _ v => v.closeStream

theorem Hw.Canon.dropDoorbells {pid} (w : h.Canon) : (h.dropDoorbells pid).Canon := by
  unfold Hw.dropDoorbells; exact w.dropFetched.modPart

theorem Hw.Canon.partReset {pid} (w : h.Canon) : (h.partReset pid).Canon := by
  unfold Hw.partReset
  exact .event (.apcPartReset (.dropDoorbells (w.endWork.clearClaims.update.foldl (fun _ _ v => v.finish))))

theorem Hw.Canon.freeSeq {pid hd} (w : h.Canon) : (h.freeSeq pid hd).Canon := by
  unfold Hw.freeSeq
  extract_lets +onlyGivenNames c k
  have wk : k.Canon := w.seqFree
  split
  · exact wk.dropSeq
  · exact wk

theorem Hw.Canon.retireNodes {pid} (w : h.Canon) : (h.retireNodes pid).Canon := by
  unfold Hw.retireNodes
  extract_lets +onlyGivenNames es mine k k1 k2
  have wk : k.Canon := by
    unfold k
    refine w.foldl fun _ _ v => ?_
    split
    · exact v.foldl fun _ _ u => u.setSheet
    · exact v
  have wk1 : k1.Canon := wk.foldl (fun _ _ u => u.retireEntry)
  have wk2 : k2.Canon := wk1.foldl (fun _ _ z => z.modNode)
  exact wk2.foldl fun _ _ y => y.freeNode

theorem Hw.Canon.freePart {pid} (w : h.Canon) : (h.freePart pid).Canon := by
  unfold Hw.freePart
  extract_lets +onlyGivenNames seqs k k1 k2 k3 k4 recs quota k5 k6
  have wk : k.Canon := .retireNodes (w.foldl (fun _ _ v => v.freeSeq))
  have wk1 : k1.Canon := wk.unmapRange.fusRelease.apcDestroy
  have wk2 : k2.Canon := wk1.foldl (fun _ _ z => z.unregister)
  have wk3 : k3.Canon := wk2.foldl (fun _ _ y => y.setSobOwner.put)
  have wk4 : k4.Canon := wk3.foldl (fun _ _ x => x.foldl (fun _ _ q => .ite q.put.put.put q))
  have wk5 : k5.Canon := wk4.put
  have wk6 : k6.Canon := wk5.put.setRoute
  exact wk6.update

theorem Hw.Canon.destroyStep (w : h.Canon) : h.destroyStep.Canon := by
  unfold Hw.destroyStep
  refine w.foldl fun _ _ v => .ite ?_ v
  extract_lets +onlyGivenNames cmd k
  have wk : k.Canon := v.freePart
  cases cmd with
  | none => exact wk
  | some c => exact wk.done

theorem Hw.Canon.selftestRun {bad c} (w : h.Canon) : (selftestRun bad h c).Canon := by
  unfold Machine.selftestRun
  extract_lets +onlyGivenNames target ts fails rot pass fail result k k1
  have wk : k.Canon := w.foldl (fun _ _ v => .ite v.runAllSections.retireTile v.runAllSections)
  have wk1 : k1.Canon := .ite (wk.foldl (fun _ _ u => u.foldl (fun _ _ z => z.checkerTest))) wk
  exact wk1.done

/-! Functions of `Machine/QueueSteps`. -/

theorem Hw.Canon.acceptSpoilt {q qu f status detail} (w : h.Canon) : (h.acceptSpoilt q qu f status detail).Canon := by
  unfold Hw.acceptSpoilt; exact w.unfetch.take.begin.finish

theorem OpSpec.Canon.specPartCreate : specPartCreate.Canon := by
  refine ⟨fun {h c} w => ?_, fun w => w⟩
  show Hw.Canon (match h.readCreate c with | .good r => h.keep c (.part r) | _ => h)
  split
  · exact w.keep
  · exact w

theorem OpSpec.Canon.specStencilLoad : specStencilLoad.Canon :=
  ⟨fun w => w.stencilAccepted, fun w => w.stencilRefused⟩

theorem OpSpec.Canon.specBudgetSet : specBudgetSet.Canon := by
  refine ⟨fun {h c} w => ?_, fun w => w⟩
  show Hw.Canon (match budgetOf h c with
    | some b => { h with stn := { h.stn with budgets := h.stn.budgets ++ [{ b with num := c.num }] } }
    | none => h)
  split
  · exact w.update
  · exact w

theorem OpSpec.Canon.specStreamOpen : specStreamOpen.Canon := by
  refine ⟨fun {h c} w => ?_, fun w => w⟩
  show Hw.Canon (match h.readStream c with
    | some s => h.keep c (.stream (streamKey c.pid (c.f 16 1)) s)
    | none => h)
  split
  · exact w.keep
  · exact w

theorem OpSpec.Canon.specFusBatch : specFusBatch.Canon := ⟨fun w => w.addBatch, fun w => w⟩

theorem OpSpec.Canon.specTrvSurveyUpdate : specTrvSurveyUpdate.Canon := ⟨fun w => w.update, fun w => w⟩

theorem OpSpec.Canon.specTrvDustSheet : specTrvDustSheet.Canon := ⟨fun w => w.update, fun w => w⟩

theorem OpSpec.Canon.specFreezeArm : specFreezeArm.Canon := ⟨fun w => w, fun w => w.armRefused⟩

theorem OpSpec.Canon.specDebugUnlock : specDebugUnlock.Canon :=
  ⟨fun w => w, fun w => .ite w.debugRefused.random.put.put (.ite w.debugRefused w)⟩

theorem OpSpec.Canon.specOf {opc} : (specOf opc).Canon := by
  have hbasic : ∀ sp ∈ opsBasic, sp.Canon := by
    simp only [opsBasic, List.forall_mem_cons]
    exact ⟨.plain, .plain, .plain, .plain, .plain, .plain, .plain, .plain, .plain, .plain, .plain,
      List.forall_mem_nil _⟩
  have hmodel : ∀ sp ∈ opsModel, sp.Canon := by
    simp only [opsModel, List.forall_mem_cons]
    exact ⟨.plain, .plain, .plain, .plain, .plain, .specJobSubmit, .plain, .plain, List.forall_mem_nil _⟩
  have hseq : ∀ sp ∈ opsSeq, sp.Canon := by
    simp only [opsSeq, List.forall_mem_cons]
    exact ⟨.plain, .plain, .plain, .plain, .plain, .plain, .plain, .plain, List.forall_mem_nil _⟩
  have hunit : ∀ sp ∈ opsUnit, sp.Canon := by
    simp only [opsUnit, List.forall_mem_cons]
    exact ⟨.specStreamOpen, .plain, .plain, .plain, .plain, .specFusBatch, .plain, .plain, .specTrvSurveyUpdate,
      .plain,
      .plain, .specTrvDustSheet, .plain, List.forall_mem_nil _⟩
  have howner : ∀ sp ∈ opsOwner, sp.Canon := by
    simp only [opsOwner, List.forall_mem_cons]
    exact ⟨.specPartCreate, .plain, .plain, .plain, .plain, .specStencilLoad, .plain, .specBudgetSet, .plain, .plain,
      .plain, .plain, .plain, .plain, .plain, .plain, .plain, .plain, .specFreezeArm, .plain, .specDebugUnlock,
        .plain,
      List.forall_mem_nil _⟩
  unfold Machine.specOf
  split
  next sp e =>
    have hmem := List.mem_of_find?_eq_some e
    simp only [List.mem_append] at hmem
    obtain (((hmem | hmem) | hmem) | hmem) | hmem := hmem
    · exact hbasic sp hmem
    · exact hmodel sp hmem
    · exact hseq sp hmem
    · exact hunit sp hmem
    · exact howner sp hmem
  · exact .plain

theorem Hw.Canon.acceptFetched {pid queue rival} (w : h.Canon) : (h.acceptFetched pid queue rival).Canon := by
  unfold Hw.acceptFetched
  split
  · extract_lets +onlyGivenNames q
    refine .ite w ?_
    split
    · exact w.acceptSpoilt
    · exact .ite w.acceptSpoilt (.ite w.holdSubmit (w.unfetch.judge .specOf))
  · exact w

/-! Functions of `Machine/Strokes`. -/

theorem Hw.Canon.settleStroke (w : h.Canon) : h.settleStroke.Canon := by
  unfold Hw.settleStroke
  exact .foldl (.foldl (.foldl (w.foldl (fun _ _ v => v.creditIdle)) (fun _ _ v => v.settleDone)) (fun _ _ v =>
    v.settleJob)) fun _ _ v => v.duplexPause

theorem Hw.Canon.moveLines {pid va a3} (w : h.Canon) : (h.moveLines pid va a3).2.Canon := by
  induction a3 generalizing h with
  | nil => exact w
  | cons a as ih =>
    unfold Hw.moveLines
    split
    · exact ih w
    · split
      · exact w.noteExhausted
      next e1 => exact ih (w.chargeDram e1)

theorem Hw.Canon.moveLoads {pid va a3 a4} (w : h.Canon) : (h.moveLoads pid va a3 a4).2.Canon := by
  induction a3 generalizing h a4 with
  | nil => exact w
  | cons a as ih =>
    unfold Hw.moveLoads
    split
    · exact ih w
    · dsimp -zeta only
      split
      · exact w.moveLines
      · exact ih w.moveLines

theorem Hw.Canon.creditInstalls {h0} (w : h.Canon) : (h.creditInstalls h0).Canon := by
  unfold Hw.creditInstalls; exact w.foldl fun _ _ v => .ite v.moveLoads.modModel v

theorem Hw.Canon.noteDeadlines (w : h.Canon) : h.noteDeadlines.Canon := by
  unfold Hw.noteDeadlines
  exact .ite (.update (w.foldl (fun _ _ v => v.noteMissed))) (w.foldl (fun _ _ v => v.noteMissed))

theorem Hw.Canon.countCoat (w : h.Canon) : h.countCoat.Canon := by
  unfold Hw.countCoat; exact .ite w.update.event w.update

theorem Hw.Canon.tickDatums (w : h.Canon) : h.tickDatums.Canon := by
  unfold Hw.tickDatums; exact w.update

theorem Hw.Canon.tick (w : h.Canon) : h.tick.Canon := by
  unfold Hw.tick; exact w.addWrap.tickDatums.update

theorem Hw.Canon.freshStroke (w : h.Canon) : h.freshStroke.Canon := by
  unfold Hw.freshStroke; exact w.update

theorem Hw.Canon.refill (w : h.Canon) : h.refill.Canon := by
  unfold Hw.refill; exact w.refillStroke.update

theorem Hw.Canon.lidarTime (w : h.Canon) : h.lidarTime.Canon := by
  unfold Hw.lidarTime; exact .ite w w.update

theorem Hw.Canon.openStroke (w : h.Canon) : h.openStroke.Canon := by
  unfold Hw.openStroke
  extract_lets +onlyGivenNames k bank k1 k2 k3 k4 k5 k6
  have wk : k.Canon := w.freshStroke.refill.switchSource
  have wk1 : k1.Canon := wk.foldl (fun _ _ u => u.missStep)
  have wk2 : k2.Canon := wk1.foldl (fun _ _ z => .ite z.compareCopies z)
  have wk3 : k3.Canon := wk2.foldl (fun _ _ y => y.reinstall)
  have wk4 : k4.Canon := wk3.watchTimeouts.groupStroke.apcStroke.retryTlps
  have wk5 : k5.Canon := wk4.resendMem
  have wk6 : k6.Canon := wk5.drainIngest.flushTrace.clampHairlines.refreshBoost
  exact wk6.lidarTime.settleUnmaps.destroyStep.noteDeadlines.put

theorem Hw.Canon.refuseLate (w : h.Canon) : h.refuseLate.Canon := by
  unfold Hw.refuseLate
  split
  · exact .ite w.update w
  · exact w

theorem Hw.Canon.strokePulse (w : h.Canon) : h.strokePulse.Canon := by
  unfold Hw.strokePulse
  extract_lets +onlyGivenNames k k1 k2
  have wk : k.Canon := .ite w.settleStroke.dfinStroke.creditInstalls w
  have wk1 : k1.Canon := wk.tick
  have wk2 : k2.Canon := .ite wk1.openStroke wk1
  exact wk2.freezeMemory.refuseLate.ownerSummary

theorem Hw.Canon.endBridge (w : h.Canon) : h.endBridge.Canon := by
  unfold Hw.endBridge; exact .ite w.setBridge w

theorem Hw.Canon.revokeShareless (w : h.Canon) : h.revokeShareless.Canon := by
  unfold Hw.revokeShareless; exact w.foldl fun _ _ v => v.revokeCands

theorem Hw.Canon.coatBoundary (w : h.Canon) : h.coatBoundary.Canon := by
  unfold Hw.coatBoundary
  exact
    w.countCoat.timeStep.swapStep.budgetStep.adjustStep.admitStep.endBridge.fillVacancies.reloadCoat.addWrap.showStencil.trvCoat.revokeShareless.update

/-! Functions of `Machine/MacOps`. -/

theorem Keeps.freeAcc : Keeps freeAcc := by
  unfold Machine.freeAcc; exact .get_bind fun _ v => .bind (.set v.free.free) fun _ => .pure

theorem Keeps.prepareCells {t rows cols lam keep} : Keeps (prepareCells t rows cols lam keep) := by
  unfold Machine.prepareCells
  exact .bind .sliceT fun _ => .ite (.modify fun _ v => v.modTile) (.ite (.forM (fun _ => .bind .freeAcc fun _ =>
    .modify fun _ v => v.modTile)) .pure)

theorem Keeps.addCells {t lam terms} : Keeps (addCells t lam terms) := by
  unfold Machine.addCells
  exact .forM fun _ => .get_bind fun _ v => .bind (.modify fun _ u => u.modTile) fun _ => .flagsT

theorem Keeps.noteMac {t m} : Keeps (noteMac t m) := by
  unfold Machine.noteMac; exact .modify fun _ v => v.modSlice

theorem Keeps.macOut {t hd o rows cols terms} : Keeps (macOut t hd o rows cols terms) := by
  unfold Machine.macOut
  refine .bind .levelT fun _ => .ite (.bind .need fun _ => .ite (.bind .addAccs fun _ => .noteMac) (.bind .clearAccs
    fun _ => .bind .addAccs fun _ => .noteMac)) ?_
  extract_lets +onlyGivenNames x
  have wx : ∀ y, Keeps (x y) := fun _ => .bind .prepareCells fun _ => .bind .addCells fun _ => .bind .noteMac
    fun _ => .ite .pure (.get_bind fun _ v => .putVals)
  exact .ite (wx ⟨⟩) (.bind .packs fun _ => wx ⟨⟩)

theorem Keeps.valRows {o t c} : Keeps (Opnd.valRows o t c) := by
  unfold Opnd.valRows; exact .bind .vals fun _ => .pure

theorem Keeps.checkMatmul {hd m n k} : Keeps (checkMatmul hd m n k) := by
  unfold Machine.checkMatmul; exact .bind .macFmts fun _ => .bind .need fun _ => .bind .need fun _ => .need

theorem Keeps.checkOut {o cols rows} : Keeps (checkOut o cols rows) := by
  unfold Machine.checkOut; exact .need

theorem Keeps.checkFilter {c} : Keeps (checkFilter c) := by
  unfold Machine.checkFilter; exact .need

/-! Functions of `Machine/TodSeq`. -/

theorem Keeps.admit3 {d a b c} : Keeps (admit3 d a b c) := by
  unfold Machine.admit3; exact .bind .demand fun _ => .bind .demand fun _ => .demand

theorem Keeps.setS {t i v st} : Keeps (setS t i v st) := by
  unfold Machine.setS; exact .ite .pure (.modify fun _ v => v.modSeq)

theorem Keeps.todNop {x d} : Keeps (todNop x d) := by
  unfold Machine.todNop; exact .admit3

theorem Keeps.todSets {t hd d} : Keeps (todSets t hd d) := by
  unfold Machine.todSets
  refine .bind .admit3 fun _ => ?_
  extract_lets +onlyGivenNames reg add v
  refine .bind .need fun _ => .get_bind fun _ v => ?_
  extract_lets +onlyGivenNames q upd
  exact .ite .setS (.ite (.modify fun _ v => v.modSeq) (.ite (.modify fun _ v => v.modSeq) (.ite (.modify fun _ v =>
    v.modSeq) (.ite (.bind .sliceT fun _ => .modify fun _ v => v.modTile) (.modify fun _ v => v.modSeq)))))

theorem Keeps.opndGranules {t c o} : Keeps (opndGranules t c o) := by
  unfold Machine.opndGranules; exact .bind .packs fun _ => .bind .addr fun _ => .pure

theorem Keeps.sigBytes {t hd o} : Keeps (sigBytes t hd o) := by
  unfold Machine.sigBytes; exact .bind .opndGranules fun _ => .bind (.mapM (fun _ => .useT)) fun _ => .pure

theorem Keeps.rowBytes {t c o} : Keeps (rowBytes t c o) := by
  unfold Machine.rowBytes
  exact .bind .packs fun _ => .bind .addr fun _ => .bind (.mapM (fun _ => .useT)) fun _ => .pure

theorem Keeps.todCommit {t hd d} : Keeps (todCommit t hd d) := by
  unfold Machine.todCommit
  refine .bind .admit3 fun _ => .bind .sliceT fun _ => ?_
  extract_lets +onlyGivenNames o x
  have wx : ∀ y, Keeps (x y) := by
    intro _
    unfold x
    refine .ite (.get_bind fun _ v => .ite (.bind .useClean fun _ => ?_) ?_) .pure
    · split
      · exact .set v.finalCommit
      · exact .pure
    · split
      next e3 => exact .bind (.set (v.chargeCommit_error e3)) fun _ => .throw
      next e3 => exact .set (v.chargeCommit_ok e3).finalCommit
  exact .ite (.get_bind fun _ v => .bind .sigBytes fun _ => .bind (.modify fun _ u => u.modSlice) fun _ => wx ⟨⟩)
    (wx ⟨⟩)

theorem Keeps.todBarrier {t hd d} : Keeps (todBarrier t hd d) := by
  unfold Machine.todBarrier
  exact .bind .admit3 fun _ => .bind .sliceT fun _ => .bind .baseVal fun _ => .bind (.modify fun _ v => .ite v
    v.update) fun _ => .get_bind fun _ v => .need

theorem Keeps.todSobOp {t hd d} : Keeps (todSobOp t hd d) := by
  unfold Machine.todSobOp
  refine .bind .admit3 fun _ => ?_
  extract_lets +onlyGivenNames op r idx
  refine .bind .need fun _ => .bind .sliceT fun _ => .ite (.get_bind fun _ v => ?_) (.get_bind fun _ v => .bind
    .useClean fun _ => .modify fun _ u => u.modSlice)
  split
  · exact .bind (.modify fun _ v => v.noteExhausted) fun _ => .throw
  next e3 => exact .bind (.set (v.chargeEdges e3).sobAccess) fun _ => .setS

theorem Keeps.todVprog {t hd d} : Keeps (todVprog t hd d) := by
  unfold Machine.todVprog
  exact .bind .admit3 fun _ => .bind .need fun _ => .bind .levelT fun _ => .modify fun _ v => v.modSeq

theorem Keeps.todLutLoad {t hd d} : Keeps (todLutLoad t hd d) := by
  unfold Machine.todLutLoad
  exact .bind .admit3 fun _ => .bind .rowBytes fun _ => .bind .need fun _ => .modify fun _ v => v.modTile

theorem Keeps.todSelftest {t hd d} : Keeps (todSelftest t hd d) := by
  unfold Machine.todSelftest
  exact .bind .admit3 fun _ => .bind .sliceT fun _ => .bind .need fun _ => .bind (.modify fun _ v => v.foldl (fun
    _ _ u => u.runSection)) fun _ => .get_bind fun _ v => .ite (.set v.retireTile) .pure

/-! Functions of `Machine/TodNet`. -/

theorem Keeps.moveBytes {t c o} : Keeps (moveBytes t c o) := by
  unfold Machine.moveBytes
  exact .bind .packs fun _ => .bind .addr fun _ => .bind (.mapM (fun _ => .rdT)) fun _ => .pure

theorem Keeps.sendMsg {t type addr o bs} : Keeps (sendMsg t type addr o bs) := by
  unfold Machine.sendMsg; exact .bind .sliceT fun _ => .bind .need fun _ => .modify fun _ v => v.post1.modSlice

theorem Keeps.todSend {t hd d} : Keeps (todSend t hd d) := by
  unfold Machine.todSend
  refine .bind .admit3 fun _ => ?_
  extract_lets +onlyGivenNames a o
  refine .bind .addr fun _ => .ite ?_ (.bind .moveBytes fun _ => .sendMsg)
  extract_lets +onlyGivenNames n
  split
  · exact .throw
  · exact .bind .need fun _ => .bind .sliceT fun _ => .bind .need fun _ => .bind .moveBytes fun _ => .modify
      fun _ v => v.modSlice

theorem Keeps.todRecv {t x d} : Keeps (todRecv t x d) := by
  unfold Machine.todRecv; exact .bind .admit3 fun _ => .bind .baseVal fun _ => .get_bind fun _ v => .need

theorem Keeps.checkStrip {c bytes o} : Keeps (checkStrip c bytes o) := by
  unfold Machine.checkStrip; exact .bind .need fun _ => .bind .need fun _ => .bind .packs fun _ => .need

theorem Keeps.todHaloSend {t hd d} : Keeps (todHaloSend t hd d) := by
  unfold Machine.todHaloSend
  exact .bind .admit3 fun _ => .bind .checkStrip fun _ => .bind .addr fun _ => .bind .moveBytes fun _ => .sendMsg

theorem Keeps.freeRow {bs} : Keeps (freeRow bs) := by
  unfold Machine.freeRow; exact .mapM fun _ => .bind .freeT fun _ => .pure

theorem Keeps.todHaloRecv {t hd d} : Keeps (todHaloRecv t hd d) := by
  unfold Machine.todHaloRecv
  extract_lets +onlyGivenNames zero x
  extract_lets +onlyGivenNames x1
  extract_lets +onlyGivenNames x2
  extract_lets +onlyGivenNames x3
  extract_lets +onlyGivenNames x4
  have wx4 : ∀ y, Keeps (x4 y) := by
    intro _
    unfold x4
    exact .bind .demand fun _ => .bind .demand fun _ => .bind .addr fun _ => .ite (.bind .checkStrip fun _ =>
      .wrRows) (.bind .checkStrip fun _ => .bind .addr fun _ => .bind .sliceT fun _ => .get_bind fun _ v => .bind
      .need fun _ => .bind (.mapM (fun _ => .bind .rdT fun _ => .ite (.bind .freeRow fun _ => .wrRow) (.bind .pure
      fun _ => .wrRow))) fun _ => .sealT)
  exact .ite (wx4 ⟨⟩) (.bind .demand fun _ => wx4 ⟨⟩)

theorem Keeps.todLevelSend {t hd d} : Keeps (todLevelSend t hd d) := by
  unfold Machine.todLevelSend
  refine .bind .admit3 fun _ => ?_
  extract_lets +onlyGivenNames o
  refine .bind .baseVal fun _ => .bind .sliceT fun _ => .get_bind fun _ _ => .bind .need fun _ => .modify fun _ v =>
    ?_
  refine v.modTile.foldl fun h l z => ?_
  split
  · exact z.modTile
  · exact z

theorem Keeps.todLevelRecv {t hd d} : Keeps (todLevelRecv t hd d) := by
  unfold Machine.todLevelRecv
  refine .bind .admit3 fun _ => .bind .sliceT fun _ => ?_
  extract_lets +onlyGivenNames id
  refine .get_bind fun _ v => ?_
  extract_lets +onlyGivenNames x
  split
  · exact .throw
  · exact .modify fun _ v => v.modTile

/-! Functions of `Machine/TodDma`. -/

theorem Keeps.noteFail {t status detail} : Keeps (noteFail t status detail) := by
  unfold Machine.noteFail; exact .modify fun _ v => v.modSlice

theorem Keeps.checkRows {m s} : Keeps (checkRows m s) := by
  unfold Machine.checkRows; exact .need

theorem Keeps.chargeT {t pid runs} : Keeps (chargeT t pid runs) := by
  unfold Machine.chargeT
  refine .get_bind fun _ v => ?_
  split
  next e1 => exact .set (v.chargeDma_ok e1)
  · exact .bind (.modify fun _ v => v.noteShort) fun _ => .throw

theorem Hw.Canon.dmaRead {pid a2} (w : h.Canon) : (h.dmaRead pid a2).2.Canon := by
  induction a2 generalizing h with
  | nil => exact w
  | cons a as ih =>
    unfold Hw.dmaRead
    exact ih w.portRead

theorem Keeps.walkSeq {t pid hd layer} : Keeps (walkSeq t pid hd layer) := by
  unfold Machine.walkSeq
  refine .get_bind fun _ v => ?_
  split
  · exact .ite .pure (.bind (.modify fun _ v => v.walkEvent) fun _ => .bind .noteFail fun _ => .pure)
  · exact .bind (.modify fun _ v => v.walkEvent) fun _ => .bind .noteFail fun _ => .pure

theorem Keeps.walkFail {t pid hd va e} : Keeps (walkFail t pid hd va e) := by
  unfold Machine.walkFail
  split
  · exact .throw
  · exact .throw
  · exact .bind (.modify fun _ v => v.walkEvent) fun _ => .noteFail

theorem Keeps.walkTokens {t pid hd layer pos n s} : Keeps (walkTokens t pid hd layer pos n s) := by
  unfold Machine.walkTokens
  refine .get_bind fun _ _ => .bind .chargeT fun _ => .foldlM fun acc p => ?_
  cases acc with
  | none => exact .pure
  | some l =>
    refine .get_bind fun _ w => ?_
    split
    next e => exact .bind (.set (w.walkToken.of_pair e)) fun _ => .pure
    next e => exact .bind (.set (w.walkToken.of_pair e)) fun _ => .bind .walkFail fun _ => .pure

theorem Keeps.todDmaLoad {t hd d} : Keeps (todDmaLoad t hd d) := by
  unfold Machine.todDmaLoad
  refine .bind .admit3 fun _ => ?_
  extract_lets +onlyGivenNames a o
  refine .bind .checkRows fun _ => .bind .baseVal fun _ => .bind .addr fun _ => .bind .sliceT fun _ => ?_
  extract_lets +onlyGivenNames offs
  refine .ite (.bind .walkSeq fun _ => ?_) (.get_bind fun _ v => ?_)
  · split
    · exact .pure
    · refine .bind .need fun _ => .bind .walkTokens fun _ => ?_
      split
      · exact .pure
      · exact .wrRows
  · split
    · exact .bind (.modify fun _ v => v.translationFault) fun _ => .noteFail
    · exact .bind .chargeT fun _ => .bind (.mapM (fun _ => .get_bind fun _ v => .bind (.set v.dmaRead) fun _ =>
        .wrRow)) fun _ => .sealT

theorem Keeps.stage {t l} : Keeps (stage t l) := by
  unfold Machine.stage; exact .modify fun _ v => v.modSlice

theorem Keeps.walkStores {t pid hd layer pos n s} : Keeps (walkStores t pid hd layer pos n s) := by
  unfold Machine.walkStores
  refine .foldlM fun ok i => .ite .pure (.get_bind fun _ w => ?_)
  split
  next e => exact .bind (.set (w.walkStore.of_pair e)) fun _ => .pure
  next e => exact .bind (.set (w.walkStore.of_pair e)) fun _ => .bind .walkFail fun _ => .pure

theorem Keeps.todDmaStore {t hd d} : Keeps (todDmaStore t hd d) := by
  unfold Machine.todDmaStore
  refine .bind .admit3 fun _ => ?_
  extract_lets +onlyGivenNames a o
  refine .bind .checkRows fun _ => .bind .baseVal fun _ => .bind .addr fun _ => .bind .sliceT fun _ => .bind .need
    fun _ => ?_
  extract_lets +onlyGivenNames offs
  refine .ite (.bind .walkSeq fun _ => ?_) ?_
  · split
    · exact .pure
    · exact .bind .need fun _ => .ite .walkFail (.bind .walkStores fun _ => .ite (.forM (fun _ => .bind .rdT fun _ =>
        .stage)) .pure)
  · extract_lets +onlyGivenNames rows
    refine .get_bind fun _ v => ?_
    split
    · exact .bind (.modify fun _ v => v.translationFault) fun _ => .noteFail
    · exact .forM fun _ => .bind .rdT fun _ => .stage

/-! Functions of `Machine/TodAttn`. -/

theorem Keeps.readMatrix {t c a rows cols} : Keeps (readMatrix t c a rows cols) := by
  unfold Machine.readMatrix; exact .mapM fun _ => .bind .useT fun _ => .pure

theorem Keeps.latentVals {c n toks} : Keeps (latentVals c n toks) := by
  unfold Machine.latentVals; exact .bind .useClean fun _ => .pure

theorem Keeps.attnBlock {t hd x b} : Keeps (attnBlock t hd x b) := by
  unfold Machine.attnBlock
  refine .bind .sliceT fun _ => .ite (.bind .need fun _ => .bind .valRows fun _ => .pure) (.bind .walkSeq fun _ => ?_)
  split
  · exact .pure
  · refine .bind .need fun _ => ?_
    extract_lets +onlyGivenNames self
    refine .get_bind fun _ v => .bind .useClean fun _ => ?_
    extract_lets +onlyGivenNames step rho j n ring
    refine .get_bind fun _ v => ?_
    extract_lets +onlyGivenNames s15 x2
    extract_lets +onlyGivenNames x3
    extract_lets +onlyGivenNames x4
    have wx4 : ∀ y, Keeps (x4 y) := by
      intro _
      unfold x4
      split
      · exact .pure
      · exact .ite (.bind .sendMsg fun _ => .bind .latentVals fun _ => .pure) (.bind .latentVals fun _ => .pure)
    exact .ite (.get_bind fun _ u => .bind .rdT fun _ => .bind .pure fun _ => wx4 _) (.ite (.bind .pure fun _ => wx4
      _) (.bind .walkTokens fun _ => wx4 _))

theorem Keeps.scratchWork {t x} : Keeps (scratchWork t x) := by
  unfold Machine.scratchWork
  exact .bind (.mapM (fun _ => .get_bind fun _ v => .bind (.set v.free) fun _ => .wrRow)) fun _ => .sealT

theorem Keeps.queries {t hd x a} : Keeps (queries t hd x a) := by
  unfold Machine.queries; exact .bind .macFmts fun _ => .bind .need fun _ => .valRows

theorem Keeps.attnScan {t hd x d} : Keeps (attnScan t hd x d) := by
  unfold Machine.attnScan
  refine .bind .admit3 fun _ => ?_
  extract_lets +onlyGivenNames a o m
  refine .bind .queries fun _ => .bind .need fun _ => .bind .attnBlock fun _ => ?_
  split
  · exact .pure
  · refine .bind .readMatrix fun _ => ?_
    dsimp -zeta only
    extract_lets +onlyGivenNames x4
    extract_lets +onlyGivenNames x5
    have wx5 : ∀ y, Keeps (x5 y) := fun _ => .bind .flagsT fun _ => .bind .scratchWork fun _ => .putEncs
    exact .ite (.bind .encs fun _ => wx5 _) (.bind .pure fun _ => wx5 _)

theorem Keeps.readCarry {t a n half} : Keeps (readCarry t a n half) := by
  unfold Machine.readCarry; exact .bind .useT fun _ => .pure

theorem Keeps.addCarry {t f l} : Keeps (addCarry t f l) := by
  unfold Machine.addCarry; exact .forM fun _ => .get_bind fun _ v => .setAccT

theorem Keeps.writeCarry {t a f n half} : Keeps (writeCarry t a f n half) := by
  unfold Machine.writeCarry; exact .get_bind fun _ v => .wrT

theorem Keeps.attnAcc {t hd x d} : Keeps (attnAcc t hd x d) := by
  unfold Machine.attnAcc
  refine .bind .admit3 fun _ => ?_
  extract_lets +onlyGivenNames a o m n f
  refine .bind .queries fun _ => .bind .need fun _ => .bind .attnBlock fun _ => ?_
  split
  · exact .pure
  · refine .bind .readMatrix fun _ => .bind .readMatrix fun _ => .bind .useT fun _ => .get_bind fun _ v => ?_
    extract_lets +onlyGivenNames s15
    refine .bind .sliceT fun _ => ?_
    extract_lets +onlyGivenNames x4
    extract_lets +onlyGivenNames x5
    have wx5 : ∀ y, Keeps (x5 y) := by
      intro _
      unfold x5
      exact .bind .levelT fun _ => .bind .flagsT fun _ => .bind .scratchWork fun _ => .bind .addAccs fun _ => .bind
        .addAccs fun _ => .ite .writeCarry .pure
    extract_lets +onlyGivenNames x6
    have wx6 : ∀ y, Keeps (x6 y) := fun _ => .ite (.bind (.modify fun _ v => v.modSlice) fun _ => wx5 ⟨⟩) (wx5 ⟨⟩)
    exact .ite (.ite (.bind .readCarry fun _ => .bind .addCarry fun _ => wx6 ⟨⟩) (wx6 ⟨⟩)) (.bind .clearAccs fun _ =>
      wx6 ⟨⟩)

theorem Keeps.attnFinish {t hd x d} : Keeps (attnFinish t hd x d) := by
  unfold Machine.attnFinish
  refine .bind .admit3 fun _ => ?_
  extract_lets +onlyGivenNames a o m n f
  exact .bind .need fun _ => .bind .need fun _ => .ite (.get_bind fun _ v => .bind .readCarry fun _ => .bind
    .addCarry fun _ => .get_bind fun _ u => .putVals) (.get_bind fun _ v => .putVals)

theorem Keeps.todAttnBlock {t hd d} : Keeps (todAttnBlock t hd d) := by
  unfold Machine.todAttnBlock
  exact .bind .need fun _ => .bind .need fun _ => .bind .useT fun _ => .bind .need fun _ => .ite .attnScan (.ite
    .attnAcc .attnFinish)

/-! Functions of `Machine/TodMac`. -/

theorem Keeps.todMatmul {t hd d} : Keeps (todMatmul t hd d) := by
  unfold Machine.todMatmul
  exact .bind .admit3 fun _ => .bind .checkMatmul fun _ => .bind .need fun _ => .bind .checkOut fun _ => .bind
    .valRows fun _ => .bind .valRows fun _ => .macOut

theorem Keeps.todMatmulSparse {t hd d} : Keeps (todMatmulSparse t hd d) := by
  unfold Machine.todMatmulSparse
  refine .bind .admit3 fun _ => ?_
  extract_lets +onlyGivenNames a b o m n k
  refine .bind .checkMatmul fun _ => .bind .need fun _ => .bind .need fun _ => .bind .need fun _ => .bind .checkOut
    fun _ => .bind .valRows fun _ => .bind .valRows fun _ => ?_
  extract_lets +onlyGivenNames g
  refine .bind .useT fun _ => ?_
  split
  · exact .macOut
  · exact .bind (.mapM (fun _ => .bind .freeAcc fun _ => .pure)) fun _ => .macOut

theorem Keeps.todConv2d {t hd d} : Keeps (todConv2d t hd d) := by
  unfold Machine.todConv2d
  refine .bind .admit3 fun _ => ?_
  extract_lets +onlyGivenNames a b o c
  refine .bind .checkFilter fun _ => .bind .macFmts fun _ => ?_
  extract_lets +onlyGivenNames oh
  exact .bind .need fun _ => .bind .need fun _ => .bind .need fun _ => .bind .need fun _ => .bind .need fun _ =>
    .bind .valRows fun _ => .bind .valRows fun _ => .macOut

theorem Keeps.readSpectra {t f b} : Keeps (readSpectra t f b) := by
  unfold Machine.readSpectra; exact .bind .encs fun _ => .pure

theorem Keeps.todConv2dFft {t hd d} : Keeps (todConv2dFft t hd d) := by
  unfold Machine.todConv2dFft
  extract_lets +onlyGivenNames f
  refine .bind .need fun _ => .bind .need fun _ => .bind .admit3 fun _ => ?_
  extract_lets +onlyGivenNames a b o n
  exact .bind .need fun _ => .bind .need fun _ => .bind .need fun _ => .bind .need fun _ => .ite (.bind .valRows
    fun _ => .bind .need fun _ => .putEncs) (.bind .valRows fun _ => .ite (.bind .readSpectra fun _ => .bind .pure
    fun _ => .putOver) (.bind .valRows fun _ => .bind .pure fun _ => .putOver))

theorem Keeps.todExpscan {t hd d} : Keeps (todExpscan t hd d) := by
  unfold Machine.todExpscan
  refine .bind .admit3 fun _ => ?_
  extract_lets +onlyGivenNames a b o
  refine .bind .checkMatmul fun _ => .bind .need fun _ => .bind .baseVal fun _ => .bind .valRows fun _ => .bind
    .valRows fun _ => ?_
  extract_lets +onlyGivenNames e
  refine .bind .sliceT fun _ => .modify fun _ v => ?_
  split
  · exact v.modTile
  · exact v

theorem Keeps.todAccClear {t x d} : Keeps (todAccClear t x d) := by
  unfold Machine.todAccClear; exact .bind .admit3 fun _ => .clearAccs

theorem Keeps.todAccRead {t hd d} : Keeps (todAccRead t hd d) := by
  unfold Machine.todAccRead
  exact .bind .admit3 fun _ => .bind .need fun _ => .bind .levelT fun _ => .get_bind fun _ v => .bind .putVals
    fun _ => .ite .clearAccs .pure

/-! Functions of `Machine/TodVec`. -/

theorem Keeps.workOut {t hd o lam ts f} : Keeps (workOut t hd o lam ts f) := by
  unfold Machine.workOut; exact .ite .flagsT (.bind .packs fun _ => .bind .flagsT fun _ => .putVals)

theorem Keeps.todDwconv {t hd d} : Keeps (todDwconv t hd d) := by
  unfold Machine.todDwconv
  refine .bind .admit3 fun _ => ?_
  extract_lets +onlyGivenNames a b o c g
  refine .bind .checkFilter fun _ => .bind .macFmts fun _ => ?_
  extract_lets +onlyGivenNames oh
  exact .bind .need fun _ => .bind .need fun _ => .bind .need fun _ => .bind .need fun _ => .bind .valRows fun _ =>
    .bind .valRows fun _ => .bind .levelT fun _ => .ite (.bind .need fun _ => .ite .addAccs (.bind .clearAccs
    fun _ => .addAccs)) .workOut

theorem Keeps.todPool {t hd d} : Keeps (todPool t hd d) := by
  unfold Machine.todPool
  exact .bind .admit3 fun _ => .bind .need fun _ => .bind .need fun _ => .bind .need fun _ => .bind .valRows fun _ =>
    .ite .putVals (.bind .levelT fun _ => .workOut)

theorem Keeps.todEltwise {t hd d} : Keeps (todEltwise t hd d) := by
  unfold Machine.todEltwise
  extract_lets +onlyGivenNames fn
  refine .bind .need fun _ => .bind .admit3 fun _ => ?_
  extract_lets +onlyGivenNames a b o n
  refine .bind .need fun _ => .bind .need fun _ => .bind .vals fun _ => ?_
  extract_lets +onlyGivenNames x
  have wx : ∀ y, Keeps (x y) := fun _ => .ite (.bind .vals fun _ => .putOver) (.bind .pure fun _ => .putOver)
  exact .ite (.bind .vals fun _ => wx _) (.bind .pure fun _ => wx _)

theorem Keeps.todAct {t hd d} : Keeps (todAct t hd d) := by
  unfold Machine.todAct
  refine .bind .admit3 fun _ => ?_
  extract_lets +onlyGivenNames a o n
  refine .bind .need fun _ => ?_
  extract_lets +onlyGivenNames x
  have wx : ∀ y, Keeps (x y) := fun _ => .get_bind fun _ v => .putOver
  exact .ite (.bind .levelT fun _ => .get_bind fun _ v => .bind .pure fun _ => wx _) (.bind .vals fun _ => wx _)

theorem Keeps.todNorm {t hd d} : Keeps (todNorm t hd d) := by
  unfold Machine.todNorm
  exact .bind .admit3 fun _ => .bind .need fun _ => .bind .need fun _ => .bind .valRows fun _ => .bind .valRows
    fun _ => .putOver

theorem Keeps.todSoftmax {t hd d} : Keeps (todSoftmax t hd d) := by
  unfold Machine.todSoftmax; exact .bind .admit3 fun _ => .bind .need fun _ => .bind .valRows fun _ => .putOver

theorem Keeps.todReduce {t hd d} : Keeps (todReduce t hd d) := by
  unfold Machine.todReduce
  extract_lets +onlyGivenNames op axis
  refine .bind .need fun _ => .bind .need fun _ => .bind .admit3 fun _ => ?_
  extract_lets +onlyGivenNames a o
  refine .bind .vals fun _ => ?_
  extract_lets +onlyGivenNames ts
  exact .ite (.bind .need fun _ => .putVals) (.bind .levelT fun _ => .ite (.bind .need fun _ => .ite .addAccs (.bind
    .clearAccs fun _ => .addAccs)) (.bind .need fun _ => .workOut))

theorem Keeps.putKeyed {t hd o rows} : Keeps (putKeyed t hd o rows) := by
  unfold Machine.putKeyed
  exact .bind .packs fun _ => .get_bind fun _ v => .bind .flagsT fun _ => .bind .putEncs fun _ => .ite .wrRows .pure

theorem Keeps.keyedRows {t hd a b} : Keeps (keyedRows t hd a b) := by
  unfold Machine.keyedRows; exact .bind .need fun _ => .bind .valRows fun _ => .bind .encs fun _ => .pure

theorem Keeps.todTopk {t hd d} : Keeps (todTopk t hd d) := by
  unfold Machine.todTopk
  exact .bind .admit3 fun _ => .bind .need fun _ => .bind .need fun _ => .bind .keyedRows fun _ => .putKeyed

theorem Keeps.todSort {t hd d} : Keeps (todSort t hd d) := by
  unfold Machine.todSort; exact .bind .admit3 fun _ => .bind .need fun _ => .bind .keyedRows fun _ => .putKeyed

theorem Keeps.convertT {t hd d} : Keeps (convertT t hd d) := by
  unfold Machine.convertT; exact .bind .admit3 fun _ => .bind .need fun _ => .bind .vals fun _ => .putVals

theorem Keeps.todQuant {t hd d} : Keeps (todQuant t hd d) := by
  unfold Machine.todQuant; exact .bind .need fun _ => .convertT

theorem Keeps.todDequant {t hd d} : Keeps (todDequant t hd d) := by
  unfold Machine.todDequant; exact .bind .need fun _ => .convertT

theorem Keeps.todTranspose {t hd d} : Keeps (todTranspose t hd d) := by
  unfold Machine.todTranspose
  refine .bind .admit3 fun _ => ?_
  extract_lets +onlyGivenNames a o
  exact .bind .need fun _ => .bind .packs fun _ => .bind .packs fun _ => .bind .addr fun _ => .bind .addr fun _ =>
    .bind (.mapM (fun _ => .bind .rdT fun _ => .pure)) fun _ => .wrRows

theorem Keeps.rowAt {o t c i} : Keeps (Opnd.rowAt o t c i) := by
  unfold Opnd.rowAt
  exact .bind .packs fun _ => .bind .addr fun _ => .bind .useT fun _ => .ite (.bind .useT fun _ => .pure) .pure

theorem Keeps.todGather {t hd d} : Keeps (todGather t hd d) := by
  unfold Machine.todGather
  exact .bind .admit3 fun _ => .bind .vals fun _ => .bind .need fun _ => .bind (.mapM (fun _ => .rowAt)) fun _ =>
    .putVals

theorem Keeps.putRowAt {o t hd i vs} : Keeps (Opnd.putRowAt o t hd i vs) := by
  unfold Opnd.putRowAt
  exact .bind .addr fun _ => .bind .packs fun _ => .get_bind fun _ v => .bind .wrT fun _ => .ite (.bind .wrT fun _ =>
    .flagsT) .flagsT

theorem Keeps.todScatter {t hd d} : Keeps (todScatter t hd d) := by
  unfold Machine.todScatter
  extract_lets +onlyGivenNames mode
  refine .bind .need fun _ => .bind .admit3 fun _ => ?_
  extract_lets +onlyGivenNames a b o
  refine .bind .need fun _ => .bind .valRows fun _ => .bind .vals fun _ => ?_
  extract_lets +onlyGivenNames is
  refine .bind .need fun _ => ?_
  extract_lets +onlyGivenNames pairs x
  have wx : ∀ y, Keeps (x y) := by
    intro _
    unfold x
    exact .forM (fun _ => .ite .putRowAt (.bind .rowAt fun _ => .ite .putRowAt (.ite .flagsT (.bind .packs fun _ =>
      .bind .flagsT fun _ => .putRowAt))))
  exact .ite (.bind .levelT fun _ => wx _) (.bind .pure fun _ => wx _)

theorem Keeps.todFft {t hd d} : Keeps (todFft t hd d) := by
  unfold Machine.todFft
  exact .bind .admit3 fun _ => .bind .need fun _ => .bind .need fun _ => .bind .need fun _ => .bind .vals fun _ =>
    .putOver

theorem Keeps.todFill {t hd d} : Keeps (todFill t hd d) := by
  unfold Machine.todFill; exact .bind .admit3 fun _ => .bind .packs fun _ => .bind .addr fun _ => .wrRows

theorem Keeps.todCopy {t hd d} : Keeps (todCopy t hd d) := by
  unfold Machine.todCopy
  refine .bind .admit3 fun _ => ?_
  extract_lets +onlyGivenNames a o
  exact .bind .need fun _ => .bind .packs fun _ => .bind .addr fun _ => .bind .addr fun _ => .bind (.mapM (fun _ =>
    .bind .rdT fun _ => .wrRow)) fun _ => .sealT

/-! Functions of `Machine/TviBase`. -/

theorem Hw.Canon.nextPc {t} (w : h.Canon) : (h.nextPc t).Canon := by
  unfold Hw.nextPc; exact w.modSeq

theorem Hw.Canon.runTvi {t i jump eff} (w : h.Canon) (heff : ∀ y0, Keeps (eff y0)) :
    (h.runTvi t i jump eff).Canon := by
  unfold Hw.runTvi
  exact .ite w.nextPc (.ite w.raiseExc ((w.runT (heff _)).settle (fun _ v => .ite v v.nextPc) fun _ _ v => v))

theorem Hw.Canon.issueTvi {t op jump eff} (w : h.Canon) (heff : ∀ y0, Keeps (eff y0)) :
    (h.issueTvi t op jump eff).Canon := by
  unfold Hw.issueTvi
  refine .ite ?_ w
  split
  · exact w
  · exact .ite w.faultStop (.ite w.raiseExc (.ite w.rdSram.consume (.ite w.rdSram.raiseExc (.ite w (w.rdSram.runTvi
      (fun _ => heff _))))))

theorem Keeps.seqT {t} : Keeps (seqT t) := by
  unfold Machine.seqT; exact .get_bind fun _ v => .pure

theorem Keeps.useLane {t v n i} : Keeps (useLane t v n i) := by
  unfold Machine.useLane; exact .bind .seqT fun _ => .bind .useClean fun _ => .pure

theorem Keeps.useS {t i} : Keeps (useS t i) := by
  unfold Machine.useS; exact .bind .seqT fun _ => .bind .useClean fun _ => .pure

theorem Keeps.setLanes {t v n ws} : Keeps (setLanes t v n ws) := by
  unfold Machine.setLanes; exact .modify fun _ v => v.modSeq

theorem Keeps.enabled {t a1 k} : Keeps (enabled t a1 k) := by
  unfold Machine.enabled; exact .bind .seqT fun _ => .pure

theorem Keeps.mapLanes {t a1 v n k f} (hf : ∀ y0, Keeps (f y0)) : Keeps (mapLanes t a1 v n k f) := by
  unfold Machine.mapLanes
  exact .bind .enabled fun _ => .bind (.mapM (fun _ => .bind (hf _) fun _ => .pure)) fun _ => .setLanes

theorem Keeps.setP {t i v} : Keeps (setP t i v) := by
  unfold Machine.setP; exact .ite .pure (.modify fun _ v => v.modSeq)

theorem Keeps.setPc {t v} : Keeps (setPc t v) := by
  unfold Machine.setPc; exact .modify fun _ v => v.modSeq

/-! Functions of `Machine/TviScalar`. -/

theorem Keeps.tviSalu {t a1} : Keeps (tviSalu t a1) := by
  unfold Machine.tviSalu
  extract_lets +onlyGivenNames fn d
  exact .ite (.bind .useS fun _ => .bind .useS fun _ => .setS) (.ite (.bind .seqT fun _ => .setS) (.ite (.bind .seqT
    fun _ => .setS) (.bind .need fun _ => .bind .useS fun _ => .modify fun _ v => v.modSeq)))

theorem Keeps.tviSaddi {t a1} : Keeps (tviSaddi t a1) := by
  unfold Machine.tviSaddi; exact .bind .useS fun _ => .setS

theorem Keeps.tviSlui {t a1} : Keeps (tviSlui t a1) := by
  unfold Machine.tviSlui; exact .setS

theorem Keeps.siAddr {t a1} : Keeps (siAddr t a1) := by
  unfold Machine.siAddr; exact .bind .useS fun _ => .bind .need fun _ => .pure

theorem Keeps.tviSld {t a1} : Keeps (tviSld t a1) := by
  unfold Machine.tviSld; exact .bind .siAddr fun _ => .bind .rdT fun _ => .setS

theorem Keeps.tviSst {t a1} : Keeps (tviSst t a1) := by
  unfold Machine.tviSst; exact .bind .siAddr fun _ => .bind .seqT fun _ => .wrT

theorem Keeps.jumpBy {t d} : Keeps (jumpBy t d) := by
  unfold Machine.jumpBy; exact .bind .seqT fun _ => .setPc

theorem Keeps.tviBr {t a1} : Keeps (tviBr t a1) := by
  unfold Machine.tviBr
  exact .bind .need fun _ => .ite (.bind .seqT fun _ => .bind (.modify fun _ v => v.modSeq) fun _ => .jumpBy) (.bind
    .useS fun _ => .jumpBy)

theorem Keeps.tviJmp {t a1} : Keeps (tviJmp t a1) := by
  unfold Machine.tviJmp; exact .jumpBy

theorem Keeps.tviCall {t a1} : Keeps (tviCall t a1) := by
  unfold Machine.tviCall
  exact .bind .seqT fun _ => .bind .need fun _ => .bind .wrT fun _ => .bind (.modify fun _ v => v.modSeq) fun _ =>
    .jumpBy

theorem Keeps.popFrame {t size type} : Keeps (popFrame t size type) := by
  unfold Machine.popFrame
  exact .bind .seqT fun _ => .bind .need fun _ => .bind .rdT fun _ => .bind .useClean fun _ => .bind .need fun _ =>
    .pure

theorem Keeps.tviRet {t _w} : Keeps (tviRet t _w) := by
  unfold Machine.tviRet; exact .bind .popFrame fun _ => .bind (.modify fun _ v => v.modSeq) fun _ => .setPc

theorem Keeps.tviTrap {_t a1} : Keeps (tviTrap _t a1) := by
  unfold Machine.tviTrap; exact .throw

theorem Keeps.tviXret {t _w} : Keeps (tviXret t _w) := by
  unfold Machine.tviXret
  exact .bind .popFrame fun _ => .bind (.forM (fun _ => .setS)) fun _ => .modify fun _ v => v.modSeq

theorem Keeps.tviAbort {t _w} : Keeps (tviAbort t _w) := by
  unfold Machine.tviAbort; exact .modify fun _ v => v.abandon

theorem Keeps.tviHalt {t _w} : Keeps (tviHalt t _w) := by
  unfold Machine.tviHalt; exact .modify fun _ v => v.modSeq

/-! Functions of `Machine/TviVec`. -/

theorem Keeps.valuLanes {t a1 second} (hsecond : ∀ y0, Keeps (second y0)) : Keeps (valuLanes t a1 second) := by
  unfold Machine.valuLanes
  extract_lets +onlyGivenNames wc fn
  refine .bind .need fun _ => ?_
  extract_lets +onlyGivenNames n
  refine .mapLanes fun _ => .bind .useLane fun _ => ?_
  extract_lets +onlyGivenNames x
  have wx : ∀ y, Keeps (x y) := fun _ => .ite (.bind .useLane fun _ => .pure) (.bind .pure fun _ => .pure)
  exact .ite (.bind (hsecond _) fun _ => wx _) (.bind .pure fun _ => wx _)

theorem Keeps.tviValu {t a1} : Keeps (tviValu t a1) := by
  unfold Machine.tviValu; exact .valuLanes fun _ => .useLane

theorem Keeps.tviValux {t a1} : Keeps (tviValux t a1) := by
  unfold Machine.tviValux; exact .valuLanes fun _ => .bind .useS fun _ => .pure

theorem Keeps.tviVcmp {t a1} : Keeps (tviVcmp t a1) := by
  unfold Machine.tviVcmp
  exact .bind .enabled fun _ => .bind (.mapM (fun _ => .bind .useLane fun _ => .bind .useLane fun _ => .pure))
    fun _ => .bind .seqT fun _ => .setP

theorem Keeps.vmAddr {t a1} : Keeps (vmAddr t a1) := by
  unfold Machine.vmAddr; exact .bind .useS fun _ => .bind .need fun _ => .pure

theorem Keeps.tviVld {t a1} : Keeps (tviVld t a1) := by
  unfold Machine.tviVld; exact .bind .vmAddr fun _ => .bind .rdT fun _ => .bind .enabled fun _ => .setLanes

theorem Keeps.tviVst {t a1} : Keeps (tviVst t a1) := by
  unfold Machine.tviVst; exact .bind .vmAddr fun _ => .bind .seqT fun _ => .bind .enabled fun _ => .wrRows

theorem Keeps.wordAddrs {t a1} : Keeps (wordAddrs t a1) := by
  unfold Machine.wordAddrs
  exact .bind .enabled fun _ => .mapM fun _ => .bind .useLane fun _ => .bind .need fun _ => .pure

theorem Keeps.tviVgath {t a1} : Keeps (tviVgath t a1) := by
  unfold Machine.tviVgath
  exact .bind .wordAddrs fun _ => .bind (.mapM (fun _ => .bind .rdT fun _ => .pure)) fun _ => .setLanes

theorem Keeps.tviVscat {t a1} : Keeps (tviVscat t a1) := by
  unfold Machine.tviVscat; exact .bind .wordAddrs fun _ => .bind .seqT fun _ => .wrRows

theorem Keeps.vlevelT {t} : Keeps (vlevelT t) := by
  unfold Machine.vlevelT; exact .bind .seqT fun _ => .pure

theorem Keeps.tviVmacc {t a1} : Keeps (tviVmacc t a1) := by
  unfold Machine.tviVmacc
  extract_lets +onlyGivenNames wc n fp
  exact .bind .vlevelT fun _ => .bind .seqT fun _ => .bind .enabled fun _ => .bind (.mapM (fun _ => .bind .useLane
    fun _ => .bind .useLane fun _ => .pure)) fun _ => .forM fun _ => .addAccs

theorem Keeps.tviVred {t a1} : Keeps (tviVred t a1) := by
  unfold Machine.tviVred
  extract_lets +onlyGivenNames wc n fn
  exact .bind .need fun _ => .bind .enabled fun _ => .bind (.mapM (fun _ => .bind .useLane fun _ => .pure)) fun _ =>
    .ite (.bind .seqT fun _ => .bind .vlevelT fun _ => .addAccs) (.ite .setLanes .pure)

theorem Keeps.tviVlut {t a1} : Keeps (tviVlut t a1) := by
  unfold Machine.tviVlut
  exact .get_bind fun _ v => .mapLanes fun _ => .bind .useLane fun _ => .ite .pure (.bind .flagsT fun _ => .pure)

theorem Keeps.setPair {t a1 is rs} : Keeps (setPair t a1 is rs) := by
  unfold Machine.setPair; exact .bind .setLanes fun _ => .setLanes

theorem Keeps.usePairs {t a1 is} : Keeps (usePairs t a1 is) := by
  unfold Machine.usePairs; exact .mapM fun _ => .bind .useLane fun _ => .bind .useLane fun _ => .pure

theorem Keeps.tviVsort {t a1} : Keeps (tviVsort t a1) := by
  unfold Machine.tviVsort; exact .bind .enabled fun _ => .bind .usePairs fun _ => .setPair

theorem Keeps.tviVfft {t a1} : Keeps (tviVfft t a1) := by
  unfold Machine.tviVfft
  extract_lets +onlyGivenNames st
  exact .bind .enabled fun _ => .ite (.bind .usePairs fun _ => .setPair) (.bind .usePairs fun _ => .bind (.mapM (fun
    _ => .bind .freeT fun _ => .bind .freeT fun _ => .pure)) fun _ => .setPair)

theorem Keeps.tviVperm {t a1} : Keeps (tviVperm t a1) := by
  unfold Machine.tviVperm
  extract_lets +onlyGivenNames wc n k fn
  refine .bind .need fun _ => .bind .seqT fun _ => .bind .enabled fun _ => .bind (.mapM (fun _ => ?_)) fun _ =>
    .setLanes
  split
  · exact .pure
  · exact .bind .freeT fun _ => .pure

theorem Keeps.tviVcvt {t a1} : Keeps (tviVcvt t a1) := by
  unfold Machine.tviVcvt
  exact .bind .seqT fun _ => .mapLanes fun _ => .bind .useLane fun _ => .bind .flagsT fun _ => .pure

theorem Keeps.tviVmv {t a1} : Keeps (tviVmv t a1) := by
  unfold Machine.tviVmv
  exact .bind .need fun _ => .bind .seqT fun _ => .ite (.ite .setS (.bind .freeT fun _ => .setS)) (.bind .enabled
    fun _ => .setLanes)

theorem Keeps.tviPset {t a1} : Keeps (tviPset t a1) := by
  unfold Machine.tviPset; exact .bind .need fun _ => .bind .seqT fun _ => .setP

theorem Keeps.tviAccrd {t a1} : Keeps (tviAccrd t a1) := by
  unfold Machine.tviAccrd
  extract_lets +onlyGivenNames n fmt
  exact .bind .seqT fun _ => .bind .vlevelT fun _ => .mapLanes fun _ => .get_bind fun _ v => .bind .flagsT fun _ =>
    .ite (.bind .setAccT fun _ => .pure) .pure

end

end Sys2Proof.Machine

namespace Sys2Proof.Machine

open Sys2Proof

/-- Every command leaves canonical memory canonical. -/
theorem does_canon (c : Instr) {s : State} (w : s.hw.Canon) : Does c s Hw.Canon := by
  cases c with
  | nop => exact ⟨_, rfl, w.cmdNop⟩
  | fence => exact ⟨_, rfl, w.cmdFence⟩
  | echo => exact ⟨_, rfl, w.cmdEcho⟩
  | query => exact ⟨_, rfl, w.issue .plain fun _ _ v => v.done⟩
  | memFill => exact ⟨_, rfl, w.cmdMemFill⟩
  | memCopy => exact ⟨_, rfl, w.cmdMemCopy⟩
  | memQuery => exact ⟨_, rfl, w.cmdMemQuery⟩
  | sobSet => exact ⟨_, rfl, w.cmdSobSet⟩
  | sobAdd => exact ⟨_, rfl, w.cmdSobAdd⟩
  | sobWait => exact ⟨_, rfl, w.cmdSobWait⟩
  | sobRead => exact ⟨_, rfl, w.cmdSobRead⟩
  | modelLoad => exact ⟨_, rfl, w.issue .plain fun _ _ v => v.modelLoad⟩
  | modelPin => exact ⟨_, rfl, w.issue .plain fun _ _ v => v.modModel.install.done⟩
  | modelUnpin => exact ⟨_, rfl, w.issue .plain fun _ _ v => v.modModel.reinstall.done⟩
  | modelEvict => exact ⟨_, rfl, w.issue .plain fun _ _ v => v.modelEvict⟩
  | modelQuery =>
    refine ⟨_, rfl, ?_⟩
    refine w.issue .plain (fun _ _ v => ?_)
    split
    · exact v.doneWriting
    · exact v.done
  | jobSubmit =>
    refine ⟨_, rfl, ?_⟩
    beta_reduce
    extract_lets +onlyGivenNames pkt
    split
    · exact w
    · exact .ite w (.ite w.holdSubmit (w.takeNext .specJobSubmit))
  | jobCancel => exact ⟨_, rfl, w.issue .plain fun _ _ v => v.jobCancel⟩
  | jobQuery =>
    refine ⟨_, rfl, ?_⟩
    refine w.issue .plain (fun _ _ v => ?_)
    split
    · exact v.done
    · exact v.done
  | seqCreate => exact ⟨_, rfl, w.issue .plain fun _ _ v => v.seqCreate⟩
  | seqFork => exact ⟨_, rfl, w.issue .plain fun _ _ v => v.seqFork⟩
  | seqTruncate => exact ⟨_, rfl, w.issue .plain fun _ _ v => v.seqTruncate⟩
  | seqFree => exact ⟨_, rfl, w.issue .plain fun _ _ v => v.seqFree⟩
  | seqQuery =>
    refine ⟨_, rfl, ?_⟩
    refine w.issue .plain (fun _ _ v => ?_)
    split
    · exact v.doneWriting
    · exact v.wildEnd
  | gazPublish => exact ⟨_, rfl, w.issue .plain fun _ _ v => v.gazPublish⟩
  | gazLookup => exact ⟨_, rfl, w.issue .plain fun _ _ v => v.gazLookup⟩
  | gazRetire => exact ⟨_, rfl, w.issue .plain fun _ _ v => v.retireEntry.done⟩
  | streamOpen => exact ⟨_, rfl, w.issue .specStreamOpen fun _ _ v => v.streamOpen⟩
  | streamClose => exact ⟨_, rfl, w.issue .plain fun _ _ v => v.closeStream.done⟩
  | streamQuery => exact ⟨_, rfl, w.issue .plain fun _ _ v => v.done⟩
  | triggerSet => exact ⟨_, rfl, w.issue .plain fun _ _ v => v.triggerSet⟩
  | fusConfig => exact ⟨_, rfl, w.issue .plain fun _ _ v => v.fusConfig⟩
  | fusBatch =>
    refine ⟨_, rfl, ?_⟩
    refine w.issue .specFusBatch (fun _ _ v => ?_)
    split
    · exact v.modBatch
    · exact v
  | fusRead => exact ⟨_, rfl, w.issue .plain fun _ _ v => v.fusRead⟩
  | fusDropTrack => exact ⟨_, rfl, w.issue .plain fun _ _ v => v.fusDropTrack⟩
  | trvSurveyUpdate => exact ⟨_, rfl, w.issue .specTrvSurveyUpdate fun _ _ v => v.trvSurveyUpdate⟩
  | trvCheck => exact ⟨_, rfl, w.issue .plain fun _ _ v => v.trvCheck⟩
  | trvCommit => exact ⟨_, rfl, w.issue .plain fun _ _ v => v.orderTraj⟩
  | trvDustSheet => exact ⟨_, rfl, w.issue .specTrvDustSheet fun _ _ v => v.orderTraj⟩
  | trvEnvelope => exact ⟨_, rfl, w.issue .plain fun _ _ v => v.trvEnvelope⟩
  | partCreate => exact ⟨_, rfl, w.issue .specPartCreate fun _ _ v => v.partCreate⟩
  | partDestroy => exact ⟨_, rfl, w.issue .plain fun _ _ v => v.partReset.modPart⟩
  | partReset => exact ⟨_, rfl, .ite w (w.issue .plain (fun _ _ v => v.partReset.reinstallPinned.done))⟩
  | map => exact ⟨_, rfl, w.issue .plain fun _ _ v => v.mapEffect⟩
  | unmap => exact ⟨_, rfl, w.issue .plain fun _ _ v => v.unmapPages.settleUnmap.showUnmaps⟩
  | stencilLoad => exact ⟨_, rfl, w.issue .specStencilLoad fun _ _ v => v.stencilLoad⟩
  | stencilSwap => exact ⟨_, rfl, w.issue .plain fun _ _ v => v.stencilSwap⟩
  | budgetSet => exact ⟨_, rfl, w.issue .specBudgetSet fun _ _ v => v⟩
  | grant => exact ⟨_, rfl, w.issue .plain fun _ _ v => v.modPart.done⟩
  | sobAlloc => exact ⟨_, rfl, w.issue .plain fun _ _ v => v.sobAlloc⟩
  | healthRead => exact ⟨_, rfl, w.issue .plain fun _ _ v => v.doneWriting⟩
  | tileRetire => exact ⟨_, rfl, w.issue .plain fun _ _ v => v.retireTile⟩
  | tileReinstate => exact ⟨_, rfl, w.issue .plain fun _ _ v => v.reinstate⟩
  | channelRetire => exact ⟨_, rfl, w.issue .plain fun _ _ v => .ite v.done v.startRetire⟩
  | modeSet => exact ⟨_, rfl, .ite w (w.issue .plain (fun _ _ v => v.modeEffect))⟩
  | safePolicy => exact ⟨_, rfl, w.issue .plain fun _ _ v => .ite v.put.put.done v.deliveryFailed⟩
  | groupConfig => exact ⟨_, rfl, w.issue .plain (fun _ _ v => v.withRecord (fun _ _ u => u.enterGroup.done))⟩
  | eventConfig => exact ⟨_, rfl, w.issue .plain fun _ _ v => v.setRing.put.put.update.done⟩
  | freezeArm => exact ⟨_, rfl, w.issue .specFreezeArm (fun _ _ v => .done (.ite v.put v.put.put.put.put.put))⟩
  | selftestRun => exact ⟨_, rfl, w.issue .plain fun _ _ v => v.selftestRun⟩
  | debugUnlock => exact ⟨_, rfl, w.issue .specDebugUnlock (fun _ _ v => v.withRecord (fun _ _ u => .done (.put
      (.showLevel (.ite u.update u.update.breakLockstep)))))⟩
  | traceConfig => exact ⟨_, rfl, w.issue .plain (fun _ _ v => .done (.ite v.flushTrace.stopTrace
      v.flushTrace.stopTrace.update.put.put))⟩
  | doorbellWrite => exact ⟨_, rfl, .ite w.doorbellAt w⟩
  | fetchGrant => exact ⟨_, rfl, w.fetchNext⟩
  | commandAccept => exact ⟨_, rfl, w.acceptFetched⟩
  | completionPost => exact ⟨_, rfl, .ite w.post w⟩
  | cpLockstepMismatch => exact ⟨_, rfl, .ite w (.ite w.detect (.ite w w.stopCp.detect))⟩
  | cpTakeover => exact ⟨_, rfl, .ite w (.event (.recoverQueues (.ite w.put.put.put.dropFetched.put.rerun.put.put
      w.put.put.put.dropFetched.put.rerun)))⟩
  | strokePulse => exact ⟨_, rfl, .ite w.strokePulse (.ite w.tickDatums w)⟩
  | coatBoundary => exact ⟨_, rfl, .ite w.coatBoundary w⟩
  | stencilSwapEffect => exact ⟨_, rfl, .ite w.swapStep w⟩
  | budgetSetEffect => exact ⟨_, rfl, .ite w.budgetStep w⟩
  | triggerAdjustEffect => exact ⟨_, rfl, .ite w.adjustStep w⟩
  | tileAdmission => exact ⟨_, rfl, .ite w.admitStep w⟩
  | cameraTrigger => exact ⟨_, rfl, .ite w.fireTrigger w⟩
  | triggerLow =>
    refine ⟨_, rfl, ?_⟩
    beta_reduce
    split
    · exact .ite (.ite w.modCam.update w.modCam) w
    · exact w
  | tileStrokePulse => exact ⟨_, rfl, w.tilePulse⟩
  | stLate => exact ⟨_, rfl, .ite w.put.event.modTile w⟩
  | rowShiftComplete =>
    refine ⟨_, rfl, ?_⟩
    beta_reduce
    split
    · exact .ite w.completeShift w
    · exact w
  | substituteCopyComplete =>
    refine ⟨_, rfl, ?_⟩
    beta_reduce
    split
    · exact .ite w.completeSubstitute w
    · exact w
  | todNop => exact ⟨_, rfl, w.issueTod (fun _ _ => .todNop)⟩
  | sets => exact ⟨_, rfl, w.issueTod (fun _ _ => .todSets)⟩
  | commit => exact ⟨_, rfl, w.issueTod (fun _ _ => .todCommit)⟩
  | barrier => exact ⟨_, rfl, w.issueTod (fun _ _ => .todBarrier)⟩
  | sobOp => exact ⟨_, rfl, w.issueTod (fun _ _ => .todSobOp)⟩
  | vprog => exact ⟨_, rfl, w.issueTod (fun _ _ => .todVprog)⟩
  | lutLoad => exact ⟨_, rfl, w.issueTod (fun _ _ => .todLutLoad)⟩
  | todSelftest => exact ⟨_, rfl, w.issueTod (fun _ _ => .todSelftest)⟩
  | matmul => exact ⟨_, rfl, w.issueTod (fun _ _ => .todMatmul)⟩
  | matmulSparse => exact ⟨_, rfl, w.issueTod (fun _ _ => .todMatmulSparse)⟩
  | conv2d => exact ⟨_, rfl, w.issueTod (fun _ _ => .todConv2d)⟩
  | conv2dFft => exact ⟨_, rfl, w.issueTod (fun _ _ => .todConv2dFft)⟩
  | attnBlock => exact ⟨_, rfl, w.issueTod (fun _ _ => .todAttnBlock)⟩
  | expscan => exact ⟨_, rfl, w.issueTod (fun _ _ => .todExpscan)⟩
  | accClear => exact ⟨_, rfl, w.issueTod (fun _ _ => .todAccClear)⟩
  | accRead => exact ⟨_, rfl, w.issueTod (fun _ _ => .todAccRead)⟩
  | dwconv => exact ⟨_, rfl, w.issueTod (fun _ _ => .todDwconv)⟩
  | pool => exact ⟨_, rfl, w.issueTod (fun _ _ => .todPool)⟩
  | eltwise => exact ⟨_, rfl, w.issueTod (fun _ _ => .todEltwise)⟩
  | act => exact ⟨_, rfl, w.issueTod (fun _ _ => .todAct)⟩
  | norm => exact ⟨_, rfl, w.issueTod (fun _ _ => .todNorm)⟩
  | softmax => exact ⟨_, rfl, w.issueTod (fun _ _ => .todSoftmax)⟩
  | reduce => exact ⟨_, rfl, w.issueTod (fun _ _ => .todReduce)⟩
  | topk => exact ⟨_, rfl, w.issueTod (fun _ _ => .todTopk)⟩
  | sort => exact ⟨_, rfl, w.issueTod (fun _ _ => .todSort)⟩
  | quant => exact ⟨_, rfl, w.issueTod (fun _ _ => .todQuant)⟩
  | dequant => exact ⟨_, rfl, w.issueTod (fun _ _ => .todDequant)⟩
  | transpose => exact ⟨_, rfl, w.issueTod (fun _ _ => .todTranspose)⟩
  | gather => exact ⟨_, rfl, w.issueTod (fun _ _ => .todGather)⟩
  | scatter => exact ⟨_, rfl, w.issueTod (fun _ _ => .todScatter)⟩
  | fft => exact ⟨_, rfl, w.issueTod (fun _ _ => .todFft)⟩
  | convert => exact ⟨_, rfl, w.issueTod (fun _ _ => .convertT)⟩
  | copy => exact ⟨_, rfl, w.issueTod (fun _ _ => .todCopy)⟩
  | fill => exact ⟨_, rfl, w.issueTod (fun _ _ => .todFill)⟩
  | send => exact ⟨_, rfl, w.issueTod (fun _ _ => .todSend)⟩
  | recv => exact ⟨_, rfl, w.issueTod (fun _ _ => .todRecv)⟩
  | haloSend => exact ⟨_, rfl, w.issueTod (fun _ _ => .todHaloSend)⟩
  | haloRecv => exact ⟨_, rfl, w.issueTod (fun _ _ => .todHaloRecv)⟩
  | levelSend => exact ⟨_, rfl, w.issueTod (fun _ _ => .todLevelSend)⟩
  | levelRecv => exact ⟨_, rfl, w.issueTod (fun _ _ => .todLevelRecv)⟩
  | dmaLoad => exact ⟨_, rfl, w.issueTod (fun _ _ => .todDmaLoad)⟩
  | dmaStore => exact ⟨_, rfl, w.issueTod (fun _ _ => .todDmaStore)⟩
  | valu => exact ⟨_, rfl, w.issueTvi (fun _ => .tviValu)⟩
  | valux => exact ⟨_, rfl, w.issueTvi (fun _ => .tviValux)⟩
  | vcmp => exact ⟨_, rfl, w.issueTvi (fun _ => .tviVcmp)⟩
  | vld => exact ⟨_, rfl, w.issueTvi (fun _ => .tviVld)⟩
  | vst => exact ⟨_, rfl, w.issueTvi (fun _ => .tviVst)⟩
  | vgath => exact ⟨_, rfl, w.issueTvi (fun _ => .tviVgath)⟩
  | vscat => exact ⟨_, rfl, w.issueTvi (fun _ => .tviVscat)⟩
  | vmacc => exact ⟨_, rfl, w.issueTvi (fun _ => .tviVmacc)⟩
  | vred => exact ⟨_, rfl, w.issueTvi (fun _ => .tviVred)⟩
  | vlut => exact ⟨_, rfl, w.issueTvi (fun _ => .tviVlut)⟩
  | vsort => exact ⟨_, rfl, w.issueTvi (fun _ => .tviVsort)⟩
  | vfft => exact ⟨_, rfl, w.issueTvi (fun _ => .tviVfft)⟩
  | vperm => exact ⟨_, rfl, w.issueTvi (fun _ => .tviVperm)⟩
  | vcvt => exact ⟨_, rfl, w.issueTvi (fun _ => .tviVcvt)⟩
  | vmv => exact ⟨_, rfl, w.issueTvi (fun _ => .tviVmv)⟩
  | salu => exact ⟨_, rfl, w.issueTvi (fun _ => .tviSalu)⟩
  | saddi => exact ⟨_, rfl, w.issueTvi (fun _ => .tviSaddi)⟩
  | slui => exact ⟨_, rfl, w.issueTvi (fun _ => .tviSlui)⟩
  | sld => exact ⟨_, rfl, w.issueTvi (fun _ => .tviSld)⟩
  | sst => exact ⟨_, rfl, w.issueTvi (fun _ => .tviSst)⟩
  | br => exact ⟨_, rfl, w.issueTvi (fun _ => .tviBr)⟩
  | jmp => exact ⟨_, rfl, w.issueTvi (fun _ => .tviJmp)⟩
  | call => exact ⟨_, rfl, w.issueTvi (fun _ => .tviCall)⟩
  | ret => exact ⟨_, rfl, w.issueTvi (fun _ => .tviRet)⟩
  | pset => exact ⟨_, rfl, w.issueTvi (fun _ => .tviPset)⟩
  | trap => exact ⟨_, rfl, w.issueTvi (fun _ => .tviTrap)⟩
  | xret => exact ⟨_, rfl, w.issueTvi (fun _ => .tviXret)⟩
  | abort => exact ⟨_, rfl, w.issueTvi (fun _ => .tviAbort)⟩
  | accrd => exact ⟨_, rfl, w.issueTvi (fun _ => .tviAccrd)⟩
  | halt => exact ⟨_, rfl, w.issueTvi (fun _ => .tviHalt)⟩
  | tviNop => exact ⟨_, rfl, w.issueTvi (fun _ => .pure)⟩
  | flitRoute => exact ⟨_, rfl, w.flitStep⟩
  | dataMessageLanding =>
    refine ⟨_, rfl, ?_⟩
    refine .ite ?_ w
    split
    next e1 =>
      exact (w.takeMsg.of_pair e1).landMsg
    next e1 =>
      exact (w.takeMsg.of_pair e1)
  | commitNotice =>
    refine ⟨_, rfl, ?_⟩
    refine .ite ?_ w
    split
    next e1 =>
      exact (w.takeMsg.of_pair e1).commitArrives
    next e1 =>
      exact (w.takeMsg.of_pair e1)
  | releaseNotice =>
    refine ⟨_, rfl, ?_⟩
    refine .ite ?_ w
    split
    next e1 =>
      exact (w.takeMsg.of_pair e1).releaseArrives
    next e1 =>
      exact (w.takeMsg.of_pair e1)
  | memRequestArrival => exact ⟨_, rfl, .ite w.takeRequest.arriveMem w⟩
  | arbitrationPhase => exact ⟨_, rfl, .ite w (.ite w.grantPort.flushTrace (.ite w.grantEdge.flushTrace (.ite
      w.storeRound.flushTrace w.grantFetch.flushTrace)))⟩
  | memoryBurst => exact ⟨_, rfl, .ite w (.serveBurst (.ite w.neighbourRefresh w))⟩
  | stripeWriteDurable => exact ⟨_, rfl, .ite w.modDram w⟩
  | scrubRewrite =>
    refine ⟨_, rfl, ?_⟩
    beta_reduce
    split
    · exact .ite w w.rewriteLine.modDram
    · exact w
  | patrolRead =>
    refine ⟨_, rfl, ?_⟩
    refine .ite w ?_
    split
    · exact w.upsetLine.patrolLine.modDram
    · exact w.modDram.patrolPass
  | patrolLate => exact ⟨_, rfl, .ite w.put.event.modDram w⟩
  | hairlineLeak => exact ⟨_, rfl, .ite w.leak w⟩
  | refresh => exact ⟨_, rfl, .ite w.modDram w⟩
  | retraining => exact ⟨_, rfl, w.retrain⟩
  | trainingComplete =>
    refine ⟨_, rfl, ?_⟩
    beta_reduce
    split
    · refine .ite w ?_
      split
      next e2 =>
        exact (w.trainChannel.of_pair e2).put
      next e2 =>
        exact (w.trainChannel.of_pair e2).put.startRetire
    · exact w
  | channelRetirement => exact ⟨_, rfl, .ite w.completeRetire w⟩
  | stripeRebuild =>
    refine ⟨_, rfl, ?_⟩
    refine .ite w ?_
    split
    · exact w.put.modDram
    · extract_lets +onlyGivenNames before k k1
      have wk : k.Canon := w.rebuildStripe.put
      have wk1 : k1.Canon := by
        unfold k1
        split
        · exact wk.put
        · exact wk.put.modDram
      exact wk1.countStripes
  | edgeModuleLost => exact ⟨_, rfl, .ite w (.ite (w.update.event.healthAdd.foldl (fun _ _ v => v.dieFault))
      w.update.event.healthAdd)⟩
  | installationComplete => exact ⟨_, rfl, .ite w.finishInstall w⟩
  | jobBegin => exact ⟨_, rfl, .ite w.tryBegin w⟩
  | deadlineMiss =>
    refine ⟨_, rfl, ?_⟩
    refine .ite ?_ w
    split
    · exact w.missStep
    · exact w
  | duplexReport => exact ⟨_, rfl, .ite w.duplexReport w⟩
  | duplexReportTimeout => exact ⟨_, rfl, .ite w.duplexTimeout w⟩
  | sheetZeroed => exact ⟨_, rfl, .ite w.zeroSheet w⟩
  | dfinNotice =>
    refine ⟨_, rfl, ?_⟩
    refine .ite ?_ w
    split
    next e1 =>
      exact (w.takeDfin.of_pair e1).takeNotice
    next e1 =>
      exact (w.takeDfin.of_pair e1)
  | dfinRequestDone =>
    refine ⟨_, rfl, ?_⟩
    refine .ite ?_ w
    split
    · exact .ite w.dfinMove.dfinTurn w.dfinMove.dfinTurn.dropRequest.runRequest.showDfin
    · exact w
  | camLinkUp => exact ⟨_, rfl, .ite (.judgeCams (.askIdentity (.ite w.put.put.modCam.event.healthAdd
      w.put.put.modCam))) w⟩
  | camLinkRetry => exact ⟨_, rfl, .ite w (.ite w.put (.ite w.put.modCam w))⟩
  | linkDown => exact ⟨_, rfl, .ite (.ite w.camLost w) (.ite w.ethLost w)⟩
  | cameraIdentityRead =>
    refine ⟨_, rfl, ?_⟩
    refine .ite ?_ w
    extract_lets +onlyGivenNames k
    have wk : k.Canon := by
      unfold k
      split
      · exact w.putIdentity.modCam
      · exact w.modCam
    exact wk.judgeCams
  | frameStart => exact ⟨_, rfl, .ite w.frameStart w⟩
  | longPacket => exact ⟨_, rfl, .ite w.longPacket w⟩
  | frameEnd =>
    refine ⟨_, rfl, ?_⟩
    beta_reduce
    split
    · exact .ite w.closeBuf w
    · exact w
  | lidarFrame => exact ⟨_, rfl, .ite w.lidarFrame w⟩
  | lidarFlush =>
    refine ⟨_, rfl, ?_⟩
    beta_reduce
    extract_lets +onlyGivenNames k
    split
    · exact .ite w.closeBuf w
    · exact w
  | bufferComplete => exact ⟨_, rfl, .ite w.completeBuf w⟩
  | powerOpen => exact ⟨_, rfl, .ite w.camFault w⟩
  | powerOvercurrent => exact ⟨_, rfl, .ite w.camFault w⟩
  | powerShortGnd => exact ⟨_, rfl, .ite w.camFault w⟩
  | powerShortBat => exact ⟨_, rfl, .ite w.camFault w⟩
  | camrailTrip =>
    refine ⟨_, rfl, ?_⟩
    beta_reduce
    split
    · exact .ite w.put.put.camFault w
    · exact w
  | fusionSchedule =>
    refine ⟨_, rfl, ?_⟩
    refine .ite w ?_
    extract_lets +onlyGivenNames k
    have wk : k.Canon := by
      unfold k
      split
      · exact w.fusUpset
      · exact w
    exact .ite wk wk.fusStroke.showFus
  | fusionBatchCommit =>
    refine ⟨_, rfl, ?_⟩
    refine .ite w ?_
    split
    · split
      · exact .ite w.fusFail (.ite w.fusFail (.ite w.fusEnd w))
      · exact w
    · exact w
  | fusionDeadline => exact ⟨_, rfl, .ite w (w.foldl (fun _ _ v => v.fusFail))⟩
  | verdictSlot =>
    refine ⟨_, rfl, ?_⟩
    refine .ite w ?_
    extract_lets +onlyGivenNames k k1
    have wk : k.Canon := by
      unfold k
      split
      · exact w.trvUpset
      · exact w
    have wk1 : k1.Canon := wk.trvBoundary
    exact .ite wk1 wk1.slotChoice.modDatum.showTrv
  | verdictRecordComplete => exact ⟨_, rfl, .ite w (w.foldl (fun _ _ v => v.completeVerdict))⟩
  | verdictCompare => exact ⟨_, rfl, .ite w (.update (w.foldl (fun _ _ v => v.compareOne)))⟩
  | trajectoryAdoption => exact ⟨_, rfl, w.adoptTrajs⟩
  | surveyDelivery =>
    refine ⟨_, rfl, ?_⟩
    beta_reduce
    split
    · exact w
    · exact .ite w.update w.failUpdate
  | surveyApply => exact ⟨_, rfl, w.applySurveys⟩
  | shaperComplete =>
    refine ⟨_, rfl, ?_⟩
    refine w.foldl (fun _ _ v => ?_)
    split
    · exact v.shapeIn
    · exact v
  | candidateDeadline => exact ⟨_, rfl, w.endCands⟩
  | heartbeat => exact ⟨_, rfl, .ite w (.latchDue (.ite w.modDatum.put.put.detect w.modDatum.put.put))⟩
  | peerLost => exact ⟨_, rfl, .ite w.put.put.latchOwn w⟩
  | monitorLinkMessage => exact ⟨_, rfl, .ite w (.ite w.loseMonitor (.latchDue (.ite (.latchOwn (.ite
      w.modDatum.put.put w.modDatum.put)) (.ite w.modDatum.put.put w.modDatum.put))))⟩
  | monitorLinkLost => exact ⟨_, rfl, .ite w.loseMonitor w⟩
  | datumLockstepMismatch => exact ⟨_, rfl, .ite w w.modDatum.driveLoop.update⟩
  | outValidEvaluation => exact ⟨_, rfl, w.evalDatum⟩
  | loopReadback => exact ⟨_, rfl, .ite w (.ite w.put (.ite w.put.modDatum (.ite w.put.modDatum.latchOwn.driveLoop
      w.put.modDatum)))⟩
  | statusRecordSend => exact ⟨_, rfl, .ite w.sendDatumRecord w.sendHubRecord⟩
  | checkerTest => exact ⟨_, rfl, w.checkerTest⟩
  | dieRestart =>
    refine ⟨_, rfl, ?_⟩
    beta_reduce
    split
    · exact w
    · exact .ite w (.foldl (.update (w.foldl (fun _ _ v => v.dieDown))) (fun _ _ v => v.event))
  | restartComplete =>
    refine ⟨_, rfl, ?_⟩
    beta_reduce
    split
    · exact w
    · exact .ite w (.foldl (.foldl (.update (w.foldl (fun _ _ v => v.dieBack))) (fun _ _ v => v.unlatch)) (fun
        _ _ v => v.put.event))
  | restartTimeout =>
    refine ⟨_, rfl, ?_⟩
    beta_reduce
    split
    · exact w
    · exact .ite w w.update.showDtm.showDtm
  | mainPowerLoss => exact ⟨_, rfl, w.setInput.mainPowerLoss⟩
  | lossSequenceStage =>
    refine ⟨_, rfl, ?_⟩
    beta_reduce
    split
    · exact w
    · exact .ite w w.update.lossStep
  | aux12Loss =>
    refine ⟨_, rfl, ?_⟩
    beta_reduce
    extract_lets +onlyGivenNames k
    have wk : k.Canon := w.setInput
    refine .ite wk ?_
    extract_lets +onlyGivenNames k1 k2
    have wk1 : k1.Canon := wk.switchAll.downDatum.downDatum
    extract_lets +onlyGivenNames k3
    have wk3 : k3.Canon := by
      unfold k3
      split
      · exact wk1
      · exact wk1.update
    exact wk3.update
  | j1Overvoltage => exact ⟨_, rfl, w.setInput.mainPowerLoss⟩
  | inputRange => exact ⟨_, rfl, .ite w.setInput.event w.setInput⟩
  | railFault => exact ⟨_, rfl, .ite w (.ite w.put.put w.put.put.event.railReaction)⟩
  | returnCurrentStop => exact ⟨_, rfl, w.mainPowerLoss⟩
  | governorEvaluation => exact ⟨_, rfl, .ite w (.foldl (.refreshBoost (.ite w.put.put.put.put.modGov.modGov
      w.put.put.put.put.modGov)) (fun _ _ v => v.evalElement))⟩
  | governorRaise => exact ⟨_, rfl, .ite w (.ite (.ite w.modGov.modGov.refreshBoost w.modGov) (w.modGov.foldl (fun
      _ _ v => v.raiseElement)))⟩
  | capacityShed => exact ⟨_, rfl, .ite w.shedAndPlace w⟩
  | temperatureSample => exact ⟨_, rfl, .ite w (.refreshBoost (.sampleCoolant (.foldl (w.modGov.foldl (fun _ _ v =>
      v.sampleSensor)) (fun _ _ v => v.dieTime.thermalStop))))⟩
  | eventRecordWrite => exact ⟨_, rfl, .ite w w.update.stageLost.writeRecords16⟩
  | eventEntryExpiry => exact ⟨_, rfl, w.foldl fun _ _ v => .ite v v.update.put.loseEvents⟩
  | healthUpdate => exact ⟨_, rfl, .ite w.updateHealth w⟩
  | peerFrame => exact ⟨_, rfl, w.peerEvent⟩
  | subjobTimeout =>
    refine ⟨_, rfl, ?_⟩
    refine .ite w ?_
    split
    · exact .ite w.reissue w
    · exact w
  | workerLost => exact ⟨_, rfl, .ite w.loseMember w⟩
  | memberRejoin =>
    refine ⟨_, rfl, ?_⟩
    beta_reduce
    extract_lets +onlyGivenNames m
    refine .ite ?_ w
    extract_lets +onlyGivenNames k k1 k2 k3
    have wk : k.Canon := w.put.put
    have wk1 : k1.Canon := wk.modMember
    have wk2 : k2.Canon := .ite wk1.put wk1
    have wk3 : k3.Canon := .ite wk2.newStandby wk2
    exact .ite wk3.reencode wk3
  | managerTakeover => exact ⟨_, rfl, .ite w (.ite w.takeOver (.ite w.put w))⟩
  | checkpointCapture => exact ⟨_, rfl, .ite (w.foldl (fun _ _ v => v.capture)) w⟩
  | peerTimeMeasure => exact ⟨_, rfl, .ite w (.ite w.modGrp.put.sendPeer.loseMember w.modGrp.put.sendPeer)⟩
  | memberRecordSend =>
    refine ⟨_, rfl, ?_⟩
    beta_reduce
    split
    · exact w.sendMember
    · exact .ite w.takeMember w
  | apcSliceEnd => exact ⟨_, rfl, w.sliceEnd⟩
  | guestTimer => exact ⟨_, rfl, w.guestTimer⟩
  | apcMemoryRequest => exact ⟨_, rfl, w.apcRequest⟩
  | sobWindowAccess => exact ⟨_, rfl, .ite (.ite w.tlp w) (.ite w.coreWindow w)⟩
  | pcieTlp =>
    refine ⟨_, rfl, ?_⟩
    beta_reduce
    split
    · exact .ite w (.ite w.msiWrite w.tlp)
    · exact .ite w w.update.sendPending
    · exact .ite w w.update.sendPending
    · exact .ite w.put w
  | pcieMsiWrite => exact ⟨_, rfl, .ite w.msiWrite w⟩
  | pcieLinkTrained => exact ⟨_, rfl, .ite w (.ite (.put (.event (.put (.put (.put (.ite w.addSat w)))))) (.put (.put
      (.put (.ite w.addSat w)))))⟩
  | frzN => exact ⟨_, rfl, .ite w (.ite w.update (.ite w.update.update (.ite w.update.debugRefused.put w.update)))⟩
  | porstN => exact ⟨_, rfl, .ite w.update (.ite w.update.porst.update w.update.porst)⟩
  | wake => exact ⟨_, rfl, .ite w.update.porst (.ite w.update.update w.update)⟩
  | ppsInEdge => exact ⟨_, rfl, .ite w (.ite w (.ite w.addSat.put (.ite w.update.put.measured w.update)))⟩
  | dbgEnN => exact ⟨_, rfl, .ite w (.showLevel (.ite w.put (.ite (.ite w.put w.put.breakLockstep) (.ite
      w.put.debugRefused w.put))))⟩
  | canWake => exact ⟨_, rfl, .ite w.update w⟩
  | canFault => exact ⟨_, rfl, .ite w w.update.event⟩
  | pairDiagnostic => exact ⟨_, rfl, .ite (.ite w.update (.ite w.update.event.put (.ite w.update.event.put
      w.update.event))) w⟩
  | ptpSync => exact ⟨_, rfl, .ite w (.ite w.addSat.put.put.measured w.addSat.put)⟩
  | holdover => exact ⟨_, rfl, .ite w (.ite (.ite w.sourceLost w) (.sourceLost (.ite w.put w)))⟩
  | startup => exact ⟨_, rfl, .ite w.readLabel.startup w⟩
  | fullSelftestDone => exact ⟨_, rfl, .ite w (.put (.put (.put (w.foldl (fun _ _ v => .ite v.retireTile v)))))⟩
  | parkDelayExpiry => exact ⟨_, rfl, .ite w.park w⟩
  | offDelayExpiry => exact ⟨_, rfl, .ite w.porst.put.put w⟩
  | parkedExit => exact ⟨_, rfl, .ite w.update.unpark w⟩
  | moduleWarm => exact ⟨_, rfl, .ite w.moduleWarm w⟩
  | dieReset => exact ⟨_, rfl, .ite w (.dieBack (.ite w.dieDown w))⟩
  | datumReset => exact ⟨_, rfl, .ite w w.resetDatum⟩
  | imageFrame => exact ⟨_, rfl, .ite w (.ite w.update w.update)⟩
  | freeze => exact ⟨_, rfl, .ite w.update.driveLoop.driveLoop w⟩
  | freezePoint => exact ⟨_, rfl, .ite w (.ite w.update.switchAll.put w.update.put.setMode.put)⟩
  | tapInstruction => exact ⟨_, rfl, .ite w (.ite w.tapGives (.tapOut (.update (.ite w w.debugRefused.put))))⟩
  | registerWrite => exact ⟨_, rfl, .ite w (.ite w.regRefused w.writeReg)⟩
  | modIntEoi => exact ⟨_, rfl, .ite w.writeEoi w⟩
  | timeStep => exact ⟨_, rfl, .ite w.writeStep w⟩
  | timeStepEffect => exact ⟨_, rfl, .ite w.timeStep w⟩
  | timeSrcWrite => exact ⟨_, rfl, .ite w.writeSrc w⟩
  | evtHeadWrite => exact ⟨_, rfl, .ite w (.ite w.put.put w.put)⟩
  | pwrEnWrite => exact ⟨_, rfl, .ite w (.ite w.put.camFault w.put.camPower)⟩
  | mainPowerReturn => exact ⟨_, rfl, .ite w.porst.setInput w⟩
  | referenceLoss => exact ⟨_, rfl, w.update.foldl (fun _ _ v => .driveLoop (.setHold (.latchOwn (v.foldl (fun
      _ _ u => u.loseMonitor)))))⟩
  | cpWatchdog => exact ⟨_, rfl, .ite w.stopCp w⟩
  | linkUp => exact ⟨_, rfl, .ite (.ite w.setEth.update.remapLids (.ite w.setEth.update.put.event w.setEth.update)) w⟩

/-- Settles O60: the command that a step takes off the queue changes the hardware alone, and every change of the
hardware leaves memory canonical. -/
theorem stepKeepsSound : Obligations.StepKeepsSound := by
  rintro ⟨pending, hw⟩ s' ⟨hpending, w⟩ hstep
  cases pending with
  | nil =>
    cases hstep
    exact ⟨hpending, w⟩
  | cons c rest =>
    obtain ⟨hw', hexec, w'⟩ := does_canon c (s := ⟨rest, hw⟩) w
    cases hexec.symm.trans hstep
    exact ⟨fun x hx => hpending x (List.mem_cons_of_mem c hx), w'⟩

end Sys2Proof.Machine

namespace Sys2Proof.Machine

open Sys2Proof

/-- Settles O59: no command waits after reset, and memory is the array of the reset state. -/
theorem resetIsSound : Obligations.ResetIsSound := by
  refine ⟨fun c hc => ?_, State.reset_memory_wf⟩
  cases hc

end Sys2Proof.Machine

namespace Sys2Proof.Machine

open Sys2Proof

/-! Sync objects (R188, R223, R224): what the evaluation of watches leaves alone. -/

theorem Hw.queue_congr {a b : Hw} (e : a.parts = b.parts) (pid q : Nat) : a.queue pid q = b.queue pid q := by
  rw [Hw.queue, Hw.queue, Hw.part, Hw.part, e]

theorem Watch.fire_keeps (w : Watch) (v n : Nat) : (Watch.fire w v n).pid = w.pid ∧ (Watch.fire w v n).queue = w.queue ∧
    (Watch.fire w v n).num = w.num ∧ (Watch.fire w v n).gate = w.gate := by
  induction n generalizing w with
  | zero => exact ⟨rfl, rfl, rfl, rfl⟩
  | succ n ih =>
    unfold Watch.fire
    split
    · exact ih _
    · exact ⟨rfl, rfl, rfl, rfl⟩

/-- The evaluation of a watch leaves its name and its kind. -/
theorem Watch.eval_keeps (w : Watch) (v : Nat) : (w.eval v).pid = w.pid ∧ (w.eval v).queue = w.queue ∧
    (w.eval v).num = w.num ∧ (w.eval v).gate = w.gate := by
  unfold Watch.eval
  split
  · exact ⟨rfl, rfl, rfl, rfl⟩
  · exact w.fire_keeps v _

@[simp] theorem Watch.same_eval (w : Watch) (v : Nat) (c : Cmd) : (w.eval v).same c = w.same c := by
  obtain ⟨hpid, hqueue, hnum, -⟩ := w.eval_keeps v
  rw [Watch.same, Watch.same, hpid, hqueue, hnum]

section
variable {h : Hw} {c : Cmd} {v : Nat} {ws : List Watch}

/-- The end of a command leaves every command of another name as it was. -/
theorem Hw.finishAt_cmd_other {pid q n : Nat} (hother : ¬ (pid = c.pid ∧ q = c.queue ∧ n = c.num)) (st r d : Nat)
    (w : WorkFlags) : (h.finishAt pid q n st r d w).cmd? c.pid c.queue c.num = h.cmd? c.pid c.queue c.num := by
  rw [Hw.finishAt, Hw.countStarted, Hw.modQueue_cmd, Hw.modCmd_cmd, if_neg hother]
  intro y
  split <;> exact ⟨rfl, rfl, rfl⟩

theorem Hw.settleWatches_sobs (h : Hw) (v : Nat) (ws : List Watch) : (h.settleWatches v ws).sobs = h.sobs := by
  induction ws with
  | nil => rfl
  | cons w ws ih =>
    unfold Hw.settleWatches
    dsimp only
    split
    · exact ih
    · exact ih

/-- Watches of other names do not complete a command. -/
theorem Hw.settleWatches_cmd (hws : ∀ w ∈ ws, w.same c = false) :
    (h.settleWatches v ws).cmd? c.pid c.queue c.num = h.cmd? c.pid c.queue c.num := by
  induction ws with
  | nil => rfl
  | cons w ws ih =>
    have hrest := ih fun x hx => hws x (List.mem_cons_of_mem w hx)
    unfold Hw.settleWatches
    dsimp only
    split
    · rw [Hw.finishAt_cmd_other, hrest]
      have hw := hws w List.mem_cons_self
      simpa [Watch.same, and_assoc] using hw
    · exact hrest

theorem Hw.settleWatches_append (h : Hw) (v : Nat) (ws xs : List Watch) :
    h.settleWatches v (ws ++ xs) = (h.settleWatches v xs).settleWatches v ws := by
  induction ws with
  | nil => rfl
  | cons w ws ih =>
    rw [List.cons_append, Hw.settleWatches, Hw.settleWatches, ih]

theorem Hw.mem_settleWatches {w : Watch} (hw : w ∈ h.watches) : w ∈ (h.settleWatches v ws).watches := by
  induction ws with
  | nil => exact hw
  | cons x ws ih =>
    unfold Hw.settleWatches
    dsimp only
    split
    · exact ih
    · exact List.mem_cons_of_mem x ih

theorem Hw.evalWatches_sobs (h : Hw) (i v : Nat) : (h.evalWatches i v).sobs = h.sobs := Hw.settleWatches_sobs _ _ _

theorem Hw.evalWatches_cmd {i : Nat} (hws : ∀ w ∈ h.watches, w.same c = false) :
    (h.evalWatches i v).cmd? c.pid c.queue c.num = h.cmd? c.pid c.queue c.num := by
  refine Hw.settleWatches_cmd fun w hw => ?_
  obtain ⟨x, hx, rfl⟩ := List.mem_map.mp hw
  split
  · rw [Watch.same_eval, hws x hx]
  · exact hws x hx

/-! The operation of a command on its object is applied once (R208, R223). -/

theorem Hw.sobAccess_held {pid i : Nat} (hheld : h.holdsSob pid i = true) (agent : Nat) (op : SobOp) :
    h.sobAccess agent pid i op = h.sobPerform i op := if_pos hheld

/-- The state after an object has taken a value and its watches have been evaluated. -/
def Hw.sobPut (h : Hw) (i v : Nat) : Hw := ({ h with sobs := h.sobs.putD 0 i v } : Hw).evalWatches i v

theorem Hw.sobPerform_set (i n : Nat) : h.sobPerform i (.set n) = (h.sob i, h.sobPut i (n % 2 ^ 64)) := rfl

theorem Hw.sobPerform_add (i n : Nat) : h.sobPerform i (.add n) = (h.sob i, h.sobPut i ((h.sob i + n) % 2 ^ 64)) := rfl

theorem Hw.sobPut_sob (h : Hw) (i v k : Nat) : (h.sobPut i v).sob k = if i = k then v else h.sob k := by
  rw [Hw.sobPut, Hw.sob, Hw.evalWatches_sobs]
  exact SMap.getD_putD 0 h.sobs i k v

theorem Hw.sobPut_cmd {i : Nat} (hws : ∀ w ∈ h.watches, w.same c = false) :
    (h.sobPut i v).cmd? c.pid c.queue c.num = h.cmd? c.pid c.queue c.num := Hw.evalWatches_cmd hws

theorem Hw.sobCommand_again {x : Queue} (hqueue : h.queue c.pid c.queue = some x) (hseq : c.seq ≤ x.sobSeq) (i : Nat)
    (op : SobOp) : h.sobCommand c i op = (h.sob i, h) := by
  simp only [Hw.sobCommand, hqueue, if_pos hseq]

theorem Hw.sobCommand_first {x : Queue} {i : Nat} (hqueue : h.queue c.pid c.queue = some x) (hseq : ¬ c.seq ≤ x.sobSeq)
    (hheld : h.holdsSob c.pid i = true) (op : SobOp) : h.sobCommand c i op = ((h.sobPerform i op).1,
      (h.sobPerform i op).2.modQueue c.pid c.queue fun q => { q with sobSeq := c.seq }) := by
  simp only [Hw.sobCommand, hqueue, if_neg hseq, Hw.sobAccess_held hheld]

end

/-! The queue of the command that acts. -/

theorem Hw.modQueue_queue_isSome (h : Hw) (p q p' q' : Nat) (f : Queue → Queue) :
    ((h.modQueue p q f).queue p' q').isSome = (h.queue p' q').isSome := by
  rw [Hw.modQueue_queue]
  split
  · rw [Option.isSome_map]
  · rfl

theorem Hw.traceAdd_parts (h : Hw) (k p : Nat) (d : List Byte) : (h.traceAdd k p d).parts = h.parts :=
  (Hw.calm_keeps (Hw.calm_of_mute (h.mute_traceAdd k p d))).1

theorem Hw.begin_queue_isSome (h : Hw) (c : Cmd) (p q : Nat) : ((h.begin c).queue p q).isSome = (h.queue p q).isSome := by
  rw [Hw.begin, Hw.countStarted, Hw.modQueue_queue_isSome, Hw.queue_congr (Hw.traceAdd_parts _ _ _ _), Hw.modCmd_queue]

theorem Hw.writeMirror_queue (h : Hw) (pid q p' q' : Nat) : (h.writeMirror pid q).queue p' q' = h.queue p' q' :=
  Hw.queue_congr (Hw.calm_keeps (h.calm_writeMirror pid q)).1 p' q'

theorem Hw.modPart_nextSeq_queue (h : Hw) (pid n p q : Nat) :
    (h.modPart pid fun x => { x with nextSeq := x.nextSeq + n }).queue p q = h.queue p q := by
  rw [Hw.queue, Hw.queue, Hw.part, Hw.part]
  show ((SMap.upd h.parts pid fun x => { x with nextSeq := x.nextSeq + n }).find p).bind _ = _
  rw [SMap.find_upd]
  split
  · cases h.parts.find p with
    | none => rfl
    | some x => rfl
  · rfl

theorem Hw.take_queue_isSome (h : Hw) (c : Cmd) (n p q : Nat) : ((h.take c n).queue p q).isSome = (h.queue p q).isSome := by
  unfold Hw.take
  extract_lets a1 a2 a3 a4 a5 a6 a7
  rw [Hw.writeMirror_queue]
  have ha2 : (a2.queue p q).isSome = (h.queue p q).isSome := Hw.modQueue_queue_isSome a1 _ _ _ _ _
  unfold a7
  split
  · exact ha2
  · show (a5.queue p q).isSome = _
    rw [Hw.modPart_nextSeq_queue]
    exact ha2

theorem Hw.presented_queue_isSome {h k : Hw} {q : QRef} {qu : Queue} {pkt : Packet} (hk : h.presented q qu pkt = some k)
    (p n : Nat) : (k.queue p n).isSome = (h.queue p n).isSome := by
  unfold Hw.presented at hk
  split at hk
  · obtain ⟨-, hk⟩ := Option.ite_none_right_eq_some.mp hk
    cases hk
    exact Hw.modQueue_queue_isSome h _ _ _ _ _
  · obtain ⟨-, hk⟩ := Option.ite_none_right_eq_some.mp hk
    cases hk
    rfl

section
variable {h : Hw} {sp : OpSpec} {q : QRef} {p : Packet} {qu : Queue} {c : Cmd} {b : Hw}

/-- The queue of a command that acts exists, when its acceptance itself does nothing. -/
theorem acting_queue (hacting : Acting h sp q p qu c b) (hplain : ∀ h c, sp.onAccept h c = h) :
    ∃ x, b.queue c.pid c.queue = some x := by
  have hcmd := hacting.ready.isCmd
  have hcame : (h.presented q qu (rowPacket sp.opc p)).isSome = true := hacting.ready.comes
  obtain ⟨g, hg⟩ := Option.isSome_iff_exists.mp hcame
  have hbase : (g.queue q.pid.val q.queue.val).isSome = true := by
    rw [Hw.presented_queue_isSome hg, hacting.ready.queue]
    rfl
  rw [← Option.isSome_iff_exists, acting_begin hacting, Hw.begin_queue_isSome, hplain, Hw.take_queue_isSome, cameHw, hg]
  rw [hcmd]
  exact hbase

/-- What `SOB_SET` and `SOB_ADD` do with their object, and that their command still waits to be ended. -/
theorem acting_sobCommand (hacting : Acting h sp q p qu c b) (hplain : ∀ h c, sp.onAccept h c = h) {i n : Nat} {op : SobOp}
    (hheld : b.holdsSob c.pid i = true) (hws : ∀ w ∈ b.watches, w.same c = false)
    (hop : b.sobPerform i op = (b.sob i, b.sobPut i n)) : ∃ x, b.queue c.pid c.queue = some x ∧
      (b.sobCommand c i op).1 = b.sob i ∧
      (b.sobCommand c i op).2.cmd? c.pid c.queue c.num = some { c with begun := true } ∧
      ∀ k, (b.sobCommand c i op).2.sob k = if i = k ∧ ¬ c.seq ≤ x.sobSeq then n else b.sob k := by
  obtain ⟨x, hx⟩ := acting_queue hacting hplain
  refine ⟨x, hx, ?_⟩
  by_cases hseq : c.seq ≤ x.sobSeq
  · rw [Hw.sobCommand_again hx hseq]
    exact ⟨rfl, begun_cmd hacting, fun k => by rw [if_neg fun e => e.2 hseq]⟩
  · rw [Hw.sobCommand_first hx hseq hheld, hop]
    refine ⟨rfl, ?_, fun k => ?_⟩
    · rw [Hw.modQueue_cmd, Hw.sobPut_cmd hws]
      exact begun_cmd hacting
    · show (b.sobPut i n).sob k = _
      rw [Hw.sobPut_sob]
      simp only [hseq, not_false_eq_true, and_true]

theorem does_sobSet {st : State} (hacting : Acting st.hw specSobSet q p qu c b)
    (hheld : b.holdsSob c.pid (c.f 16 2) = true) (hws : ∀ w ∈ b.watches, w.same c = false) :
    Does (.sobSet q p) st fun h' => Completed h' c 0 0 0 ∧ (∀ k, k ≠ c.f 16 2 → h'.sob k = b.sob k) ∧
      ∃ x, b.queue c.pid c.queue = some x ∧
        h'.sob (c.f 16 2) = if c.seq ≤ x.sobSeq then b.sob (c.f 16 2) else c.f 24 8 % 2 ^ 64 := by
  obtain ⟨x, hx, -, hcmd, hsob⟩ := acting_sobCommand hacting (fun _ _ => rfl) hheld hws (Hw.sobPerform_set _ (c.f 24 8))
  refine does_of_acting (execSobSet q p st) hacting rfl rfl rfl ⟨(ends_of hcmd (acting_entry hacting) 0 0 0).1, ?_, x, hx, ?_⟩
  · intro k hk
    exact (hsob k).trans (if_neg fun e => hk e.1.symm)
  · refine (hsob _).trans ?_
    simp only [true_and, ite_not]

theorem does_sobAdd {st : State} (hacting : Acting st.hw specSobAdd q p qu c b)
    (hheld : b.holdsSob c.pid (c.f 16 2) = true) (hws : ∀ w ∈ b.watches, w.same c = false) :
    Does (.sobAdd q p) st fun h' => (∀ k, k ≠ c.f 16 2 → h'.sob k = b.sob k) ∧
      ∃ x, b.queue c.pid c.queue = some x ∧ Completed h' c 0 (b.sob (c.f 16 2)) 0 ∧
        h'.sob (c.f 16 2) = if c.seq ≤ x.sobSeq then b.sob (c.f 16 2) else (b.sob (c.f 16 2) + c.f 24 8) % 2 ^ 64 := by
  obtain ⟨x, hx, hold, hcmd, hsob⟩ :=
    acting_sobCommand hacting (fun _ _ => rfl) hheld hws (Hw.sobPerform_add _ (c.f 24 8))
  refine does_of_acting (execSobAdd q p st) hacting rfl rfl rfl ⟨?_, x, hx, ?_, ?_⟩
  · intro k hk
    exact (hsob k).trans (if_neg fun e => hk e.1.symm)
  · have hend := (ends_of hcmd (acting_entry hacting) 0 (b.sob (c.f 16 2)) 0).1
    rw [← hold] at hend ⊢
    exact hend
  · refine (hsob _).trans ?_
    simp only [true_and, ite_not]

theorem does_sobRead {st : State} (hacting : Acting st.hw specSobRead q p qu c b)
    (hheld : b.holdsSob c.pid (c.f 16 2) = true) :
    Does (.sobRead q p) st fun h' => Ends b h' c 0 (b.sob (c.f 16 2)) 0 := by
  refine does_of_acting (execSobRead q p st) hacting rfl rfl ?_ (acting_ends hacting 0 (b.sob (c.f 16 2)) 0)
  rw [Hw.sobAccess_held hheld]
  rfl

/-- The registration of a watch under a new name: its own first evaluation, then the watches that stand. -/
theorem Hw.registerWatch_new {w : Watch} (hws : ∀ x ∈ b.watches, x.same c = false) (hpid : w.pid = c.pid)
    (hqueue : w.queue = c.queue) (hnum : w.num = c.num) {i : Nat} (hsob : w.sob = i) : b.registerWatch w =
      (({ b with watches := [] } : Hw).settleWatches (b.sob i) [w.eval (b.sob i)]).settleWatches (b.sob i) b.watches := by
  rw [Hw.registerWatch, hsob, if_neg, Hw.settleWatches_append]
  rw [Bool.not_eq_true, List.any_eq_false]
  intro x hx
  rw [hpid, hqueue, hnum]
  exact Bool.eq_false_iff.mp (hws x hx)

/-- A watch under a command's name that is done completes the command with the value. -/
theorem Hw.settleWatches_done {k : Hw} {w : Watch} {v : Nat} (hpid : w.pid = c.pid) (hqueue : w.queue = c.queue)
    (hnum : w.num = c.num) (hgate : w.gate = false) (hdone : w.done = true) :
    k.settleWatches v [w] = k.done c v := by
  simp only [Hw.settleWatches, hgate, hdone, hpid, hqueue, hnum, Bool.not_false, Bool.and_self, if_true]
  rfl

theorem does_sobWait {st : State} (hacting : Acting st.hw specSobWait q p qu c b)
    (hws : ∀ w ∈ b.watches, w.same c = false) : Does (.sobWait q p) st fun h' => (∀ k, h'.sob k = b.sob k) ∧
      (((waitWatch b c).eval (b.sob (c.f 16 2))).done = true → Completed h' c 0 (b.sob (c.f 16 2)) 0) ∧
      (((waitWatch b c).eval (b.sob (c.f 16 2))).done = false →
        (waitWatch b c).eval (b.sob (c.f 16 2)) ∈ h'.watches) := by
  obtain ⟨hpid, hqueue, hnum, hgate⟩ := (waitWatch b c).eval_keeps (b.sob (c.f 16 2))
  refine does_of_acting (execSobWait q p st) hacting rfl rfl
    (Hw.registerWatch_new (i := c.f 16 2) hws rfl rfl rfl rfl) ⟨?_, ?_, ?_⟩
  · intro k
    rw [Hw.sob, Hw.settleWatches_sobs, Hw.settleWatches_sobs]
    rfl
  · intro hdone
    rw [Hw.settleWatches_done hpid hqueue hnum hgate hdone, Completed, Hw.settleWatches_cmd hws]
    exact (acting_ends_of_cmds (k := { b with watches := [] }) hacting rfl 0 (b.sob (c.f 16 2)) 0).1
  · intro hdone
    refine Hw.mem_settleWatches ?_
    rw [Hw.settleWatches, hdone, Bool.false_and, if_neg Bool.false_ne_true]
    exact List.mem_cons_self

/-- Settles O1: each command's effect on the state in which it has begun; what the watches of other commands do to it and
to the objects is said once, over the list of watches. -/
theorem packetResultsAndSyncObjects : Obligations.PacketResultsAndSyncObjects := by
  refine ⟨?_, ?_, ?_, ?_, ?_, fun _ _ _ _ _ _ => does_sobSet, fun _ _ _ _ _ _ => does_sobAdd,
    fun _ _ _ _ _ _ => does_sobRead, fun _ _ _ _ _ _ => does_sobWait⟩
  · intro st q p qu c b hacting
    exact does_of_acting (execNop q p st) hacting rfl rfl rfl (acting_ends hacting 0 0 0)
  · intro st q p qu c b hacting
    exact does_of_acting (execFence q p st) hacting rfl rfl rfl (acting_ends hacting 0 0 0)
  · intro st q p qu c b hacting
    exact does_of_acting (execEcho q p st) hacting rfl rfl rfl (acting_ends hacting 0 (c.f 16 8) 0)
  · intro st q p qu c b hacting
    exact does_of_acting (execQuery q p st) hacting rfl rfl rfl (acting_ends hacting 0 (queryValue b c) 0)
  · intro st q p qu c b hacting
    exact does_of_acting (execMemQuery q p st) hacting rfl rfl rfl (acting_ends hacting 0 _ 0)

end

end Sys2Proof.Machine

namespace Sys2Proof.Machine

open Sys2Proof

/-! Transfers of the command processor (R60, R588, R589): what they leave of the commands. -/

section
variable {h k : Hw} {pid va n : Nat}

theorem Hw.noteExhausted_cmds (h : Hw) (pid dim : Nat) : (h.noteExhausted pid dim).cmds = h.cmds := by
  unfold Hw.noteExhausted
  exact (apply_ite Hw.cmds _ _ _).trans (ite_self _)

@[simp] theorem Hw.spendDram_cmds (h : Hw) (pid va n : Nat) (wr : Bool) : (h.spendDram pid va n wr).cmds = h.cmds := by
  unfold Hw.spendDram
  split
  · rfl
  · split
    · rfl
    · show (ite _ _ _ : Hw).cmds = _
      split
      · exact h.noteExhausted_cmds pid 0
      · rfl

/-- A transfer of no bytes takes nothing. -/
theorem Hw.spendDram_none (h : Hw) (pid va : Nat) (wr : Bool) : h.spendDram pid va 0 wr = h := by
  unfold Hw.spendDram
  split <;> rfl

theorem Hw.freeBytes_cmds (h : Hw) (n : Nat) : (h.freeBytes n).2.cmds = h.cmds := by
  induction n generalizing h with
  | zero => rfl
  | succ n ih => exact (ih h.free.2).trans rfl

theorem Hw.cmdWrite_calm {x : Option (Nat × Nat)} {bs : List Byte} {st : Bool}
    (hwrite : h.cmdWrite pid va bs st = (x, k)) : k.calm = h.calm := by
  have hcalm : (h.cmdWrite pid va bs st).2.calm = h.calm := Hw.calm_writeVa h 2 pid va bs st
  rwa [hwrite] at hcalm

theorem Hw.cmdWrite_cmds {x : Option (Nat × Nat)} {bs : List Byte} {st : Bool}
    (hwrite : h.cmdWrite pid va bs st = (x, k)) : k.cmds = h.cmds :=
  (Hw.calm_keeps (Hw.cmdWrite_calm hwrite)).2.1

end

/-! MEM_COPY (R420, R588): `copyLines` follows `copiedLines` line by line. -/

section
variable {c : Cmd} {src dst total : Nat} {overlap : Bool}

/-- A line that has been copied leaves the rest to be copied from the state after it. -/
theorem copiedLines_cons {i : Nat} {l : List Nat} {h k : Hw}
    (hcopied : copiedLines c.pid src dst overlap (i :: l) h = some k) :
    ∃ j, j.cmds = h.cmds ∧ copiedLines c.pid src dst overlap l j = some k ∧
      ∀ m, total / 64 = i + (m + 1) →
        copyLines c src dst total overlap (m + 1) h = copyLines c src dst total overlap m j := by
  simp only [copiedLines] at hcopied
  split at hcopied
  next => cases hcopied
  next bs st k1 hread =>
    split at hcopied
    next => cases hcopied
    next k2 hwrite =>
      have hfree : (if overlap = true then k1.freeBytes 8 else (bs, k1)).2.cmds = k1.cmds := by
        split
        · exact k1.freeBytes_cmds 8
        · rfl
      refine ⟨k2, (Hw.cmdWrite_cmds hwrite).trans (hfree.trans (Hw.cmdRead_cmds hread)), hcopied, fun m hm => ?_⟩
      have hi : total / 64 - (m + 1) = i := by omega
      simp only [copyLines, hi, hread, hwrite]

theorem copiedLines_cmds {l : List Nat} {h k : Hw} (hcopied : copiedLines c.pid src dst overlap l h = some k) :
    k.cmds = h.cmds := by
  induction l generalizing h with
  | nil => cases hcopied; rfl
  | cons i l ih =>
    obtain ⟨j, hj, hrest, -⟩ := copiedLines_cons (total := 0) hcopied
    exact (ih hrest).trans hj

/-- The lines that have been copied leave the lines after them. -/
theorem copyLines_after (i : Nat) {s m : Nat} {h k : Hw} (hlines : total / 64 = s + (i + m))
    (hcopied : copiedLines c.pid src dst overlap (List.range' s i) h = some k) :
    copyLines c src dst total overlap (i + m) h = copyLines c src dst total overlap m k := by
  induction i generalizing s h with
  | zero =>
    cases hcopied
    rw [Nat.zero_add]
  | succ i ih =>
    rw [List.range'_succ] at hcopied
    obtain ⟨j, -, hrest, hstep⟩ := copiedLines_cons (total := total) hcopied
    have hfirst := hstep (i + m) (by omega)
    have hindex : i + 1 + m = i + m + 1 := by omega
    rw [hindex, hfirst]
    exact ih (by omega) hrest

/-- The copying of `n` lines, `i` of which have been copied. -/
theorem copyLines_reaches {i m n : Nat} {h k : Hw} (hn : n = i + m)
    (hcopied : copiedLines c.pid src dst overlap (List.range i) h = some k) :
    copyLines c src dst (n * 64) overlap n h = copyLines c src dst (n * 64) overlap m k := by
  rw [List.range_eq_range'] at hcopied
  have hlines : n * 64 / 64 = 0 + (i + m) := by omega
  rw [← copyLines_after i hlines hcopied, hn]

theorem copyLines_readFails {i m : Nat} {h k : Hw} {e : Nat × Nat}
    (hread : h.cmdRead c.pid (src + 64 * i) 64 = (.error e, k)) :
    copyLines c src dst ((i + (m + 1)) * 64) overlap (m + 1) h = k.failPage c e := by
  have hi : (i + (m + 1)) * 64 / 64 - (m + 1) = i := by omega
  simp only [copyLines, hi, hread]

theorem copyLines_writeFails {i m : Nat} {h j k : Hw} {e : Nat × Nat} {bs : List Byte} {st : Bool}
    (hread : h.cmdRead c.pid (src + 64 * i) 64 = (.ok (bs, st), j))
    (hwrite : j.cmdWrite c.pid (dst + 64 * i) bs st = (some e, k)) :
    copyLines c src dst ((i + (m + 1)) * 64) false (m + 1) h = k.failPage c e := by
  have hi : (i + (m + 1)) * 64 / 64 - (m + 1) = i := by omega
  simp only [copyLines, hi, hread, Bool.false_eq_true, if_false, hwrite]

end

/-- The effect of MEM_COPY by the count of its lines. -/
theorem copyEffect_lines (b : Hw) (c : Cmd) : copyEffect b c =
    copyLines c (c.f 16 6 / 64 * 64) (c.f 24 6 / 64 * 64) (c.f 32 6 / 64 * 64)
      (decide (c.f 16 6 / 64 * 64 < c.f 24 6 / 64 * 64 + c.f 32 6 / 64 * 64) &&
        decide (c.f 24 6 / 64 * 64 < c.f 16 6 / 64 * 64 + c.f 32 6 / 64 * 64)) (c.f 32 6 / 64)
      ((b.spendDram c.pid (c.f 16 6 / 64 * 64) (c.f 32 6 / 64 * 64) false).spendDram c.pid (c.f 24 6 / 64 * 64)
        (c.f 32 6 / 64 * 64) true) := by
  rw [copyEffect, Nat.mul_div_cancel _ (Nat.zero_lt_succ 63)]

section
variable {st : State} {q : QRef} {p : Packet} {qu : Queue} {c : Cmd} {b k : Hw}

theorem does_memCopy {h' : Hw} {P : Hw → Prop} (hacting : Acting st.hw specMemCopy q p qu c b)
    (heff : copyEffect b c = h') (hP : P h') : Does (.memCopy q p) st P :=
  does_of_acting (execMemCopy q p st) hacting rfl rfl heff hP

/-- MEM_COPY of lines none of whose pages fails. -/
theorem does_memCopy_whole (hacting : Acting st.hw specMemCopy q p qu c b)
    (hcopied : copiedLines c.pid (c.f 16 6 / 64 * 64) (c.f 24 6 / 64 * 64)
      (decide (c.f 16 6 / 64 * 64 < c.f 24 6 / 64 * 64 + c.f 32 6 / 64 * 64) &&
        decide (c.f 24 6 / 64 * 64 < c.f 16 6 / 64 * 64 + c.f 32 6 / 64 * 64)) (List.range (c.f 32 6 / 64))
      ((b.spendDram c.pid (c.f 16 6 / 64 * 64) (c.f 32 6 / 64 * 64) false).spendDram c.pid (c.f 24 6 / 64 * 64)
        (c.f 32 6 / 64 * 64) true) = some k) :
    Does (.memCopy q p) st fun h' => Ends k h' c 0 (c.f 32 6 / 64 * 64) 0 := by
  have hcmds : k.cmds = b.cmds := by rw [copiedLines_cmds hcopied, Hw.spendDram_cmds, Hw.spendDram_cmds]
  refine does_memCopy hacting ?_ (acting_ends_of_cmds hacting hcmds 0 (c.f 32 6 / 64 * 64) 0)
  rw [copyEffect_lines, copyLines_reaches (Nat.add_zero _).symm hcopied]
  rfl

theorem does_memCopy_readFails {i : Nat} {e : Nat × Nat} {k2 : Hw} (hacting : Acting st.hw specMemCopy q p qu c b)
    (hi : i < c.f 32 6 / 64)
    (hcopied : copiedLines c.pid (c.f 16 6 / 64 * 64) (c.f 24 6 / 64 * 64)
      (decide (c.f 16 6 / 64 * 64 < c.f 24 6 / 64 * 64 + c.f 32 6 / 64 * 64) &&
        decide (c.f 24 6 / 64 * 64 < c.f 16 6 / 64 * 64 + c.f 32 6 / 64 * 64)) (List.range i)
      ((b.spendDram c.pid (c.f 16 6 / 64 * 64) (c.f 32 6 / 64 * 64) false).spendDram c.pid (c.f 24 6 / 64 * 64)
        (c.f 32 6 / 64 * 64) true) = some k)
    (hread : k.cmdRead c.pid (c.f 16 6 / 64 * 64 + 64 * i) 64 = (.error e, k2)) :
    Does (.memCopy q p) st fun h' => h' = k2.failPage c e := by
  refine does_memCopy hacting ?_ rfl
  obtain ⟨m, hm⟩ : ∃ m, c.f 32 6 / 64 = i + (m + 1) := ⟨c.f 32 6 / 64 - i - 1, by omega⟩
  rw [copyEffect_lines, copyLines_reaches hm hcopied, hm, copyLines_readFails hread]

theorem does_memCopy_writeFails {i : Nat} {e : Nat × Nat} {bs : List Byte} {sd : Bool} {k2 k3 : Hw}
    (hacting : Acting st.hw specMemCopy q p qu c b)
    (happart : (decide (c.f 16 6 / 64 * 64 < c.f 24 6 / 64 * 64 + c.f 32 6 / 64 * 64) &&
      decide (c.f 24 6 / 64 * 64 < c.f 16 6 / 64 * 64 + c.f 32 6 / 64 * 64)) = false)
    (hi : i < c.f 32 6 / 64)
    (hcopied : copiedLines c.pid (c.f 16 6 / 64 * 64) (c.f 24 6 / 64 * 64) false (List.range i)
      ((b.spendDram c.pid (c.f 16 6 / 64 * 64) (c.f 32 6 / 64 * 64) false).spendDram c.pid (c.f 24 6 / 64 * 64)
        (c.f 32 6 / 64 * 64) true) = some k)
    (hread : k.cmdRead c.pid (c.f 16 6 / 64 * 64 + 64 * i) 64 = (.ok (bs, sd), k2))
    (hwrite : k2.cmdWrite c.pid (c.f 24 6 / 64 * 64 + 64 * i) bs sd = (some e, k3)) :
    Does (.memCopy q p) st fun h' => h' = k3.failPage c e := by
  refine does_memCopy hacting ?_ rfl
  obtain ⟨m, hm⟩ : ∃ m, c.f 32 6 / 64 = i + (m + 1) := ⟨c.f 32 6 / 64 - i - 1, by omega⟩
  rw [copyEffect_lines, happart, copyLines_reaches hm hcopied, hm, copyLines_writeFails hread hwrite]

/-- MEM_COPY of one line to another. -/
theorem does_memCopy_line {bs : List Byte} {sd : Bool} {k2 k3 : Hw} (hacting : Acting st.hw specMemCopy q p qu c b)
    (hone : c.f 32 6 / 64 = 1) (hother : c.f 16 6 / 64 ≠ c.f 24 6 / 64)
    (hk : k = (b.spendDram c.pid (c.f 16 6 / 64 * 64) 64 false).spendDram c.pid (c.f 24 6 / 64 * 64) 64 true)
    (hread : k.cmdRead c.pid (c.f 16 6 / 64 * 64) 64 = (.ok (bs, sd), k2))
    (hwrite : k2.cmdWrite c.pid (c.f 24 6 / 64 * 64) bs sd = (none, k3)) :
    Does (.memCopy q p) st fun h' => Ends k3 h' c 0 64 0 := by
  have happart : (decide (c.f 16 6 / 64 * 64 < c.f 24 6 / 64 * 64 + 64) &&
      decide (c.f 24 6 / 64 * 64 < c.f 16 6 / 64 * 64 + 64)) = false := by
    rw [Bool.and_eq_false_iff, decide_eq_false_iff_not, decide_eq_false_iff_not]
    omega
  have hwhole := does_memCopy_whole (k := k3) hacting
  rw [hone, Nat.one_mul, happart, ← hk] at hwhole
  refine hwhole ?_
  simp only [List.range_one, copiedLines, Nat.mul_zero, Nat.add_zero, hread, Bool.false_eq_true, if_false, hwrite]

/-! MEM_FILL (R588, R589). -/

theorem does_memFill {h' : Hw} {P : Hw → Prop} (hacting : Acting st.hw specMemFill q p qu c b)
    (heff : fillEffect b c = h') (hP : P h') : Does (.memFill q p) st P :=
  does_of_acting (execMemFill q p st) hacting rfl rfl heff hP

theorem fillEffect_virtual (hvirtual : fillPhys c = false) : fillEffect b c =
    (b.spendDram c.pid (fillRange c).1 (fillRange c).2 true).doneWriting c (fillRange c).1
      (patternBytes (c.f 32 8) (fillRange c).2) (fillRange c).2 := by
  simp only [fillEffect, hvirtual, Bool.false_eq_true, if_false]

theorem fillEffect_physical (hphys : fillPhys c = true) : fillEffect b c =
    (({ b with mem := (upto ((fillRange c).1 / 0x10000) ((fillRange c).2 / 0x10000)).foldl Mem.cleanFrame b.mem } :
      Hw).store (fillRange c).1 (patternBytes (c.f 32 8) (fillRange c).2) false).done c (fillRange c).2 := by
  simp only [fillEffect, hphys, if_true]

/-! MAP and UNMAP (R172, R174, R603, R604). -/

theorem Hw.leaveFrames_cmds (h : Hw) (ctx : Nat) (fs : NSet) : (h.leaveFrames ctx fs).cmds = h.cmds := by
  have hclean : ∀ (h : Hw) (l : Nat), (h.cleanSc l).cmds = h.cmds := by
    intro h l
    unfold Hw.cleanSc
    split
    · split
      · exact (Hw.calm_keeps (Hw.calm_portWrite _ _ _ _ _)).2.1
      · rfl
    · rfl
  have hpush : ∀ (h : Hw) (e : Nat × L2Line), (h.pushL2 e).cmds = h.cmds := by
    intro h e
    unfold Hw.pushL2
    split <;> rfl
  unfold Hw.leaveFrames Hw.purge
  simp only [Hw.modApc_cmds, foldl_keeps (fun h : Hw => h.cmds) Hw.cleanSc hclean]
  exact foldl_keeps (fun h : Hw => h.cmds) Hw.pushL2 hpush _ _

theorem Hw.unmapFrames_cmds (h : Hw) (ctx : Nat) (fs : NSet) : (h.unmapFrames ctx fs).cmds = h.cmds := by
  rw [Hw.unmapFrames, Hw.showSets, Hw.put_cmds]
  exact h.leaveFrames_cmds ctx fs

/-- A command that only the owner may give is the owner's. -/
theorem acting_owner {h : Hw} {sp : OpSpec} (hacting : Acting h sp q p qu c b) (howner : sp.issuer = .owner) :
    c.pid = 0 := by
  have hadmitted := hacting.ready.admitted
  unfold OpSpec.check at hadmitted
  split at hadmitted
  next => cases hadmitted
  next hpermits =>
    have hpid : c.pid = q.pid.val := by rw [hacting.ready.isCmd]; rfl
    have hzero : (q.pid.val == 0) = true := by
      by_contra hno
      refine hpermits ?_
      rw [OpSpec.permits, howner]
      show (! (q.pid.val == 0) || _ || _) = true
      rw [Bool.not_eq_true] at hno
      rw [hno]
      rfl
    rw [hpid]
    exact beq_iff_eq.mp hzero

theorem does_unmap {n : Nat} {fs : NSet} {h' : Hw} {P : Hw → Prop} (hacting : Acting st.hw specUnmap q p qu c b)
    (hpages : b.unmapPages (c.f 16 1) (c.f 24 6) (c.f 32 6) = (n, fs, k))
    (hsettle : k.settleUnmap { queue := c.queue, num := c.num, ctx := c.f 16 1, frames := fs, pages := n } = h')
    (hP : P h'.showUnmaps) : Does (.unmap q p) st P := by
  refine does_of_acting (execUnmap q p st) hacting rfl rfl ?_ hP
  rw [hpages, ← hsettle]

theorem Hw.settleUnmap_free {h : Hw} {u : Unmapping} (hfree : h.translated u.ctx u.frames = false) :
    h.settleUnmap u = (h.unmapFrames u.ctx u.frames).finishAt 0 u.queue u.num 0 u.pages 0 {} := by
  rw [Hw.settleUnmap, hfree, if_neg Bool.false_ne_true]

theorem Hw.settleUnmap_waits {h : Hw} {u : Unmapping} (hleft : h.translated u.ctx u.frames = true) :
    h.settleUnmap u = { h with sys := { h.sys with unmaps := h.sys.unmaps ++ [u] } } := by
  rw [Hw.settleUnmap, hleft, if_pos rfl]

/-- The pages have left the context, which changes no command. -/
theorem Hw.unmapPages_cmds {ctx va n m : Nat} {fs : NSet} (hpages : b.unmapPages ctx va n = (m, fs, k)) :
    k.cmds = b.cmds :=
  (congrArg (fun x => x.2.2.cmds) hpages).symm

theorem does_unmap_ends {n : Nat} {fs : NSet} (hacting : Acting st.hw specUnmap q p qu c b)
    (hpages : b.unmapPages (c.f 16 1) (c.f 24 6) (c.f 32 6) = (n, fs, k))
    (hfree : k.translated (c.f 16 1) fs = false) : Does (.unmap q p) st fun h' => Completed h' c 0 n 0 ∧
      h' = ((k.unmapFrames (c.f 16 1) fs).finishAt 0 c.queue c.num 0 n 0 {}).showUnmaps := by
  refine does_unmap hacting hpages (Hw.settleUnmap_free hfree) ⟨?_, rfl⟩
  have hcmds := (k.unmapFrames_cmds (c.f 16 1) fs).trans (Hw.unmapPages_cmds hpages)
  have hend := (acting_ends_of_cmds hacting hcmds 0 n 0).1
  rw [Hw.finish, acting_owner hacting rfl] at hend
  rw [Completed, ← Hw.cmd?_congr (Hw.put_cmds _ F.PMMU_STATUS_INV_BUSY _)] at hend
  exact hend

theorem does_unmap_waits {n : Nat} {fs : NSet} (hacting : Acting st.hw specUnmap q p qu c b)
    (hpages : b.unmapPages (c.f 16 1) (c.f 24 6) (c.f 32 6) = (n, fs, k))
    (hleft : k.translated (c.f 16 1) fs = true) : Does (.unmap q p) st fun h' =>
      h' = ({ k with sys := { k.sys with unmaps := k.sys.unmaps ++
        [{ queue := c.queue, num := c.num, ctx := c.f 16 1, frames := fs, pages := n }] } } : Hw).showUnmaps ∧
      h'.get F.PMMU_STATUS_INV_BUSY = 1 := by
  refine does_unmap hacting hpages (Hw.settleUnmap_waits hleft) ⟨rfl, ?_⟩
  rw [Hw.showUnmaps, Hw.get_put_same]
  have hsome : (k.sys.unmaps ++ [(⟨c.queue, c.num, c.f 16 1, fs, n⟩ : Unmapping)]).isEmpty = false :=
    List.isEmpty_eq_false_iff.mpr (List.concat_ne_nil _ _)
  exact congrArg (fun x => b2n (! x) % 2 ^ F.PMMU_STATUS_INV_BUSY.len) hsome

/-- The one UNMAP that waits is looked at again. -/
theorem Hw.settleUnmaps_one {h : Hw} {u : Unmapping} (hone : h.sys.unmaps = [u]) : h.settleUnmaps =
    (({ h with sys := { h.sys with unmaps := [] } } : Hw).settleUnmap u).showUnmaps := by
  rw [Hw.settleUnmaps, hone, List.foldl_cons, List.foldl_nil]

theorem Hw.settleUnmaps_waits {h : Hw} {u : Unmapping} (hone : h.sys.unmaps = [u])
    (hleft : h.translated u.ctx u.frames = true) : h.settleUnmaps = h.showUnmaps := by
  rw [Hw.settleUnmaps_one hone,
    Hw.settleUnmap_waits (h := { h with sys := { h.sys with unmaps := [] } }) hleft]
  show Hw.showUnmaps { h with sys := { h.sys with unmaps := [u] } } = _
  rw [← hone]

end

/-- Settles O2: the transfers line by line against `copiedLines`; MAP and UNMAP along the branch that their requests
choose. -/
theorem packetMemoryAndMapping : Obligations.PacketMemoryAndMapping := by
  refine ⟨?_, ?_, ?_, ?_, ?_, ?_, ?_, ?_, ?_, ?_, ?_, ?_⟩
  · intro st q p qu c b k hacting hvirtual hwrite
    have hcmds : k.cmds = b.cmds := by rw [Hw.cmdWrite_cmds hwrite, Hw.spendDram_cmds]
    refine does_memFill hacting ?_ ⟨acting_ends_of_cmds hacting hcmds 0 (fillRange c).2 0, Hw.cmdWrite_calm hwrite⟩
    rw [fillEffect_virtual hvirtual, Hw.doneWriting, hwrite]
    rfl
  · intro st q p qu c b e k hacting hvirtual hwrite
    refine does_memFill hacting ?_ rfl
    rw [fillEffect_virtual hvirtual, Hw.doneWriting, hwrite]
  · intro st q p qu c b hacting hphys
    refine does_memFill hacting (fillEffect_physical hphys) (acting_ends_of_cmds hacting ?_ 0 (fillRange c).2 0)
    exact (Hw.calm_keeps (Hw.calm_store _ _ _ _)).2.1
  · intro st q p qu c b hacting hshort
    have hnone : c.f 32 6 / 64 = 0 := by omega
    refine does_memCopy hacting ?_ ⟨b, rfl, acting_ends hacting 0 0 0⟩
    rw [copyEffect_lines, hnone, Nat.zero_mul, Hw.spendDram_none, Hw.spendDram_none]
    rfl
  · intro st q p qu c b k k2 k3 bs sd hacting
    exact does_memCopy_line hacting
  · intro st q p qu c b k hacting
    exact does_memCopy_whole hacting
  · intro st q p qu c b i e k k2 hacting
    exact does_memCopy_readFails hacting
  · intro st q p qu c b i e bs sd k k2 k3 hacting
    exact does_memCopy_writeFails hacting
  · intro st q p qu c b m hacting hm
    have hcmds : (({ b with mem := m } : Hw).showSets).cmds = b.cmds := Hw.put_cmds _ _ _
    refine does_of_acting (execMap q p st) hacting rfl rfl ?_ (acting_ends_of_cmds hacting hcmds 0 0 0)
    rw [hm]
    rfl
  · intro st q p qu c b n fs k hacting
    exact does_unmap_ends hacting
  · intro st q p qu c b n fs k hacting
    exact does_unmap_waits hacting
  · intro h u hone
    refine ⟨fun hfree => ?_, Hw.settleUnmaps_waits hone⟩
    rw [Hw.settleUnmaps_one hone, Hw.settleUnmap_free (h := { h with sys := { h.sys with unmaps := [] } }) hfree]

end Sys2Proof.Machine

namespace Sys2Proof.Machine

open Sys2Proof

/-! MODEL_LOAD of an image of which a page does not translate (R231, R593). -/

/-- What a command does is one thing: a property that it is said to bring about holds of the state that it answers. -/
theorem Does.holds_of {i : Instr} {st : State} {P : Hw → Prop} {k : Hw} (hdoes : Does i st P)
    (hanswers : Does i st fun h' => h' = k) : P k := by
  obtain ⟨a, hexec, hP⟩ := hdoes
  obtain ⟨_, hexec', rfl⟩ := hanswers
  rw [hexec] at hexec'
  injection hexec' with hnext
  injection hnext with _ hhw
  exact hhw ▸ hP

/-- A command has one completion. -/
theorem Completed.result_unique {h : Hw} {c : Cmd} {s s' r r' d d' : Nat} (h1 : Completed h c s r d)
    (h2 : Completed h c s' r' d') : r % 2 ^ 64 = r' % 2 ^ 64 := by
  obtain ⟨e, he, -, hr, -⟩ := h1
  obtain ⟨e', he', -, hr', -⟩ := h2
  obtain rfl : e = e' := Option.some.inj (he.symm.trans he')
  exact hr.symm.trans hr'

/-- Whether a page of an image does not translate. -/
def pageFails (x : Nat × Except Nat Nat) : Bool :=
  match x.2 with
  | .error _ => true
  | .ok _ => false

/-- The first page that does not translate, and is no DEV page, completes the command with ACCESS and its number. -/
theorem modelLoad_access {b : Hw} {c : Cmd} {i e : Nat} (hroom : b.models.length < 1024)
    (hfind : (imagePages b c.pid (c.f 24 6) (c.f 32 6)).find? pageFails = some (i, .error e)) (hnoDev : e ≠ 3) :
    modelLoad b c =
      (b.translationFault 2 e c.pid ((pieces (c.f 24 6) (c.f 32 6)).getD i (c.f 24 6, 0)).1).done c (loadResult 2 i) := by
  have hload : modelLoad b c = match (imagePages b c.pid (c.f 24 6) (c.f 32 6)).find? pageFails with
      | some (i, .error e) =>
        if e = 3 then (b.translationFault 2 e c.pid ((pieces (c.f 24 6) (c.f 32 6)).getD i (c.f 24 6, 0)).1).failPage c
          (((pieces (c.f 24 6) (c.f 32 6)).getD i (c.f 24 6, 0)).1, 3)
        else (b.translationFault 2 e c.pid ((pieces (c.f 24 6) (c.f 32 6)).getD i (c.f 24 6, 0)).1).done c (loadResult 2 i)
      | some (i, .ok _) => b.done c (loadResult 2 i)
      | none => b.withRecord c (c.f 24 6) (c.f 32 6) fun h bs =>
          loadChecked h c ((imagePages b c.pid (c.f 24 6) (c.f 32 6)).map fun p => match p.2 with
            | .ok a => a
            | .error _ => 0) bs := by
    rw [modelLoad, if_neg (Nat.not_le.mpr hroom)]
    rfl
  rw [hload, hfind]
  exact if_neg hnoDev

/-- The completion of that command. -/
theorem does_modelLoad_access {st : State} {q : QRef} {p : Packet} {qu : Queue} {c : Cmd} {b : Hw} {i e : Nat}
    (hacting : Acting st.hw specModelLoad q p qu c b) (hroom : b.models.length < 1024)
    (hfind : (imagePages b c.pid (c.f 24 6) (c.f 32 6)).find? pageFails = some (i, .error e)) (hnoDev : e ≠ 3) :
    ∃ k, Completed k c 0 (2 + i * 256) 0 ∧ Does (.modelLoad q p) st fun h' => h' = k := by
  have hcmds := (Hw.calm_keeps
    (Hw.calm_translationFault b 2 e c.pid ((pieces (c.f 24 6) (c.f 32 6)).getD i (c.f 24 6, 0)).1)).2.1
  have hend := (acting_ends_of_cmds hacting hcmds 0 (2 + i * 256) 0).1
  exact ⟨_, hend, does_of_acting (execModelLoad q p st) hacting rfl rfl (modelLoad_access hroom hfind hnoDev) rfl⟩

/-! The contexts of the state on which a packet row acts. -/

theorem Hw.ctxs_of_calm {a b : Hw} (hcalm : a.calm = b.calm) : a.mem.ctxs = b.mem.ctxs :=
  congrArg (fun k => k.mem.ctxs) hcalm

theorem Hw.presented_ctxs {h k : Hw} {q : QRef} {qu : Queue} {pkt : Packet} (hcame : h.presented q qu pkt = some k) :
    k.mem.ctxs = h.mem.ctxs := by
  unfold Hw.presented at hcame
  split at hcame
  · split at hcame
    · cases hcame; rfl
    · cases hcame
  · dsimp only at hcame
    split at hcame
    · cases hcame; rfl
    · cases hcame

theorem Hw.take_ctxs (h : Hw) (c : Cmd) (n : Nat) : (h.take c n).mem.ctxs = h.mem.ctxs := by
  unfold Hw.take
  refine (Hw.ctxs_of_calm (Hw.calm_writeMirror _ _ _)).trans ?_
  dsimp only
  split <;> rfl

theorem Hw.begin_ctxs (h : Hw) (c : Cmd) : (h.begin c).mem.ctxs = h.mem.ctxs := by
  have hmute := Hw.mute_traceAdd (h.modCmd c.pid c.queue c.num fun c => { c with begun := true }) 0 c.pid
    (leBytes 2 c.opc ++ leBytes 6 c.seq)
  exact (Hw.ctxs_of_calm (Hw.calm_of_mute hmute)).trans rfl

/-- A row whose acceptance does nothing more acts with the contexts as they were. -/
theorem acting_ctxs {h : Hw} {sp : OpSpec} {q : QRef} {p : Packet} {qu : Queue} {c : Cmd} {b : Hw}
    (hacting : Acting h sp q p qu c b) (hplain : ∀ h c, sp.onAccept h c = h) : b.mem.ctxs = h.mem.ctxs := by
  obtain ⟨k, hk⟩ := Option.isSome_iff_exists.mp hacting.ready.comes
  have hcame : (cameHw h q qu (rowPacket sp.opc p)).mem.ctxs = h.mem.ctxs := by
    rw [cameHw, hk]
    exact Hw.presented_ctxs hk
  rw [acting_begin hacting, hplain, Hw.begin_ctxs, Hw.take_ctxs, hcame]

/-! The counterexample to O3: a context that maps the 2^23 level-1 pages from virtual address 0 on, for reading, and an
image of 2^44 + 4096 bytes there.  Its pages 0 to 2^32 - 1 translate and page 2^32 does not. -/

/-- A context with a readable page of 2 MiB at each of the first 2^23 places. -/
def wideCtx : Ctx := ⟨(List.range' 0 (2 ^ 23)).map fun i => (i, 0x207), []⟩

/-- Queue 0 of the owner, with one packet waiting. -/
def wideQueue : Queue :=
  { desc := { sqVa := 0, cqVa := 0x4000, mirrorVa := 0x8000, log2Size := 8, vector := 0 }, sqTail := 1, sqHead := 0,
    cqHead := 0, nTaken := 0, nStarted := 0, nPosted := 0, lastSeq := 0, mirror := 0, fetchedSlots := 0, sobSeq := 0 }

/-- The reset state with power, in which the owner has that context and that queue, and the command processor a budget. -/
def wideHw : Hw :=
  let h := Hw.reset.put F.PWR_DOMAIN_ON (2 ^ 48 - 1)
  { h with
    parts := [(0, { cls := 0, rights := 255, jnlQuota := 100, sheetQuota := 0, seqQuota := 0, nextSeq := 1,
                    destroying := false, shed := false, allot := none, queues := [(0, wideQueue)] })]
    stn := { h.stn with cpOps := [(0, 8)] }
    mem := { h.mem with ctxs := [(0, wideCtx)] } }

def wideRef : QRef := { pid := 0, queue := 0, cp := 0, rival := none }

/-- A MODEL_LOAD of 2^44 + 4096 bytes at virtual address 0, for handle 0. -/
def widePacket : Packet := zeros 33 ++ [16] ++ zeros 3 ++ [16] ++ zeros 26

def wideCmd : Cmd :=
  acceptedCmd (cameHw wideHw wideRef wideQueue (rowPacket 0x30 widePacket)) wideRef wideQueue (rowPacket 0x30 widePacket)

theorem wide_ready : Ready wideHw specModelLoad wideRef widePacket wideQueue wideCmd where
  runs := by decide +kernel
  serves := by decide +kernel
  open_ := by decide +kernel
  alive := by decide +kernel
  queue := by decide +kernel
  front := by decide +kernel
  free := by decide +kernel
  comes := by decide +kernel
  isCmd := rfl
  admitted := by decide +kernel
  norival := by decide +kernel
  first := by decide +kernel
  turn := by decide +kernel

theorem SMap.find_map_range' {α : Type} (v : α) (s n k : Nat) :
    SMap.find ((List.range' s n).map fun i => (i, v)) k = if s ≤ k ∧ k < s + n then some v else none := by
  induction n generalizing s with
  | zero => exact (if_neg (by omega)).symm
  | succ n ih =>
    rw [List.range'_succ, List.map_cons, SMap.find, ih]
    by_cases hk : s = k
    · rw [if_pos hk, if_pos (by omega)]
    · rw [if_neg hk]
      exact if_congr (by omega) rfl rfl

section
variable {m : Mem}

theorem wide_leaf (hctxs : m.ctxs = [(0, wideCtx)]) (va : Nat) :
    m.leaf 0 va = if va < 2 ^ 44 then some (0x207, 0x20_0000) else none := by
  have hctx : m.ctx 0 = wideCtx := by
    rw [Mem.ctx, hctxs]
    rfl
  have hfind : wideCtx.l1.find (va / 0x20_0000) = if va < 2 ^ 44 then some 0x207 else none :=
    (SMap.find_map_range' 0x207 0 (2 ^ 23) _).trans (if_congr (by omega) rfl rfl)
  rw [Mem.leaf, hctx, hfind]
  by_cases hva : va < 2 ^ 44
  · rw [if_pos hva, if_pos hva]
  · rw [if_neg hva, if_neg hva]
    rfl

/-- The pages below 2^44 translate. -/
theorem wide_translates (hctxs : m.ctxs = [(0, wideCtx)]) {va : Nat} (hva : va < 2 ^ 44) :
    ∃ d, m.translate 0 va .rd true = .ok d := by
  rw [Mem.translate, wide_leaf hctxs, if_pos hva]
  exact ⟨_, rfl⟩

/-- The pages from 2^44 on have no leaf. -/
theorem wide_fails (hctxs : m.ctxs = [(0, wideCtx)]) {va : Nat} (hva : 2 ^ 44 ≤ va) :
    m.translate 0 va .rd true = .error 0 := by
  rw [Mem.translate, wide_leaf hctxs, if_neg (Nat.not_lt.mpr hva)]

end

/-- A run of whole pages from virtual address 0 on is cut at each page. -/
theorem pieces_zero {n : Nat} (hn : 0 < n) : (pieces 0 (n * 0x1000)).length = n ∧
    ∀ i < n, ∀ d, ((pieces 0 (n * 0x1000)).getD i d).1 = i * 0x1000 := by
  have hcount : (0 + n * 0x1000 - 1) / 0x1000 - 0 / 0x1000 + 1 = n := by omega
  rw [pieces, if_neg (by omega), hcount, upto]
  refine ⟨by simp, fun i hi d => ?_⟩
  rw [List.getD_eq_getElem _ _ (by simpa using hi)]
  simp

/-- The first page of the image that does not translate is page 2^32. -/
theorem wide_find {b : Hw} (hctxs : b.mem.ctxs = [(0, wideCtx)]) :
    (imagePages b 0 0 ((2 ^ 32 + 1) * 0x1000)).find? pageFails = some (2 ^ 32, .error 0) := by
  obtain ⟨hlength, hpiece⟩ := pieces_zero (n := 2 ^ 32 + 1) (Nat.succ_pos _)
  have hpage : ∀ i < 2 ^ 32 + 1, b.mem.translate 0 ((pieces 0 ((2 ^ 32 + 1) * 0x1000)).getD i (0, 0)).1 .rd true =
      b.mem.translate 0 (i * 0x1000) .rd true := fun i hi => by rw [hpiece i hi]
  have hlast : b.mem.translate 0 ((pieces 0 ((2 ^ 32 + 1) * 0x1000)).getD (2 ^ 32) (0, 0)).1 .rd true = .error 0 :=
    (hpage _ (Nat.lt_succ_self _)).trans (wide_fails hctxs (by norm_num))
  have hfirst : (List.range (2 ^ 32 + 1)).find? (pageFails ∘ fun i => (i, b.mem.translate 0
      ((pieces 0 ((2 ^ 32 + 1) * 0x1000)).getD i (0, 0)).1 .rd true)) = some (2 ^ 32) := by
    rw [List.find?_range_eq_some]
    refine ⟨?_, List.mem_range.mpr (Nat.lt_succ_self _), fun i hi => ?_⟩
    · rw [Function.comp_apply, pageFails, hlast]
    · obtain ⟨d, hd⟩ := wide_translates hctxs (va := i * 0x1000) (by omega)
      rw [Function.comp_apply, pageFails, hpage i (Nat.lt_succ_of_lt hi), hd]
      rfl
  rw [imagePages]
  simp only [hlength, List.find?_map, hfirst, Option.map_some, hlast]

/-- Refutes O3: of an image whose first page that does not translate is page 2^32, MODEL_LOAD answers ACCESS with the
number whole, 2 + 2^32 * 256, where the obligation takes the number modulo 2^32 and says 2. -/
theorem not_packetModels : ¬ Obligations.PacketModels := by
  rintro ⟨-, haccess, -⟩
  have hacting : Acting wideHw specModelLoad wideRef widePacket wideQueue wideCmd _ := ⟨wide_ready, rfl⟩
  have hpid : wideCmd.pid = 0 := rfl
  have hva : wideCmd.f 24 6 = 0 := by decide +kernel
  have hlen : wideCmd.f 32 6 = (2 ^ 32 + 1) * 0x1000 := by decide +kernel
  have hroom : (begunHw wideHw specModelLoad wideRef wideQueue (rowPacket specModelLoad.opc widePacket)).models.length <
      1024 := by decide +kernel
  have hfind : (imagePages (begunHw wideHw specModelLoad wideRef wideQueue (rowPacket specModelLoad.opc widePacket))
      wideCmd.pid (wideCmd.f 24 6) (wideCmd.f 32 6)).find? pageFails = some (2 ^ 32, .error 0) := by
    rw [hpid, hva, hlen]
    exact wide_find (acting_ctxs hacting fun _ _ => rfl)
  have hclaim := haccess ⟨[], wideHw⟩ wideRef widePacket wideQueue wideCmd _ (2 ^ 32) 0 _ hacting hroom hfind rfl
  obtain ⟨k, hk, hanswers⟩ := does_modelLoad_access (st := ⟨[], wideHw⟩) hacting hroom hfind (by decide)
  have hend := (hclaim.holds_of hanswers).1 (by decide)
  exact absurd (hk.result_unique hend.1) (by decide)

end Sys2Proof.Machine

namespace Sys2Proof.Machine

open Sys2Proof

/-! A queue's counters on its doorbell page (R197, R479). -/

section
variable {h : Hw} {page q off v : Nat}

/-- Queue 15 of a group partition takes no write on a worker. -/
theorem Hw.ringDoorbell_taken (hq : off / 16 = q) (hsmall : q < 16) (hqueue : (h.queue page q).isSome = true)
    (hworker : q ≠ 15 ∨ (h.grpPart page).isSome = false ∨ h.isManager = true) : h.ringDoorbell page off v =
      if off % 16 = 0 then h.modQueue page q fun x => { x with sqTail := v % 2 ^ 32 }
      else if off % 16 = 8 then (h.modQueue page q fun x => { x with cqHead := v % 2 ^ 32 }).freeConsumed page q
      else h := by
  have hpresent : ¬ (decide (0x100 ≤ off) || (h.queue page q).isNone) = true := by
    rw [Option.isNone_eq_false_iff.mpr hqueue, Bool.or_false, decide_eq_true_eq]
    omega
  have hserves : ¬ (decide (q = 15) && (h.grpPart page).isSome && ! h.isManager) = true := by
    rw [Bool.and_eq_true, Bool.and_eq_true, decide_eq_true_eq, Bool.not_eq_true']
    rintro ⟨⟨h15, hgroup⟩, hnot⟩
    rcases hworker with hother | hnone | hmanager
    · exact hother h15
    · exact Bool.false_ne_true (hnone.symm.trans hgroup)
    · exact Bool.false_ne_true (hnot.symm.trans hmanager)
  simp only [Hw.ringDoorbell, hq, if_neg hpresent, if_neg hserves]

theorem Hw.ringDoorbell_tail (hoff : off = 16 * q) (hsmall : q < 16) (hqueue : (h.queue page q).isSome = true)
    (hworker : q ≠ 15 ∨ (h.grpPart page).isSome = false ∨ h.isManager = true) :
    h.ringDoorbell page off v = h.modQueue page q fun x => { x with sqTail := v % 2 ^ 32 } := by
  rw [Hw.ringDoorbell_taken (q := q) (by omega) hsmall hqueue hworker, if_pos (by omega)]

theorem Hw.ringDoorbell_head (hoff : off = 16 * q + 8) (hsmall : q < 16) (hqueue : (h.queue page q).isSome = true)
    (hworker : q ≠ 15 ∨ (h.grpPart page).isSome = false ∨ h.isManager = true) : h.ringDoorbell page off v =
      (h.modQueue page q fun x => { x with cqHead := v % 2 ^ 32 }).freeConsumed page q := by
  rw [Hw.ringDoorbell_taken (q := q) (by omega) hsmall hqueue hworker, if_neg (by omega), if_pos (by omega)]

/-- An offset beyond the queues, an absent queue, queue 15 of a group partition on a worker, and any other offset. -/
theorem Hw.ringDoorbell_ignored (hq : q = off / 16) (hbad : 16 ≤ q ∨ (h.queue page q).isNone = true ∨
      (q = 15 ∧ (h.grpPart page).isSome = true ∧ h.isManager = false) ∨ (off % 16 ≠ 0 ∧ off % 16 ≠ 8)) :
    h.ringDoorbell page off v = h := by
  simp only [Hw.ringDoorbell, ← hq]
  rcases hbad with hbeyond | habsent | ⟨h15, hgroup, hworker⟩ | ⟨hnotTail, hnotHead⟩
  · have hoff : decide (0x100 ≤ off) = true := decide_eq_true (by omega)
    rw [hoff, Bool.true_or, if_pos rfl]
  · rw [habsent, Bool.or_true, if_pos rfl]
  · rw [h15, hgroup, hworker, if_pos (by rfl : (decide (15 = 15) && true && ! false) = true), ite_self]
  · rw [if_neg hnotTail, if_neg hnotHead, ite_self, ite_self]

end

/-! A source's write to a doorbell page (R180, R198). -/

section
variable {h : Hw} {src : DoorSrc} {page off v i : Nat}

/-- A source that acts for the owner, and one that writes its own page, ring a queue of a partition. -/
theorem Hw.doorbell_rings (hpage : page ≠ 0) (hown : (h.actsAsOwner src).isSome = true ∨ h.sourcePid src = some page) :
    h.doorbell src page off v = h.ringDoorbell page off v := by
  unfold Hw.doorbell
  split
  next i howner => rw [if_neg hpage]
  next howner =>
    have hpid : h.sourcePid src = some page := hown.resolve_left (by rw [howner]; exact Bool.false_ne_true)
    rw [if_neg hpage, if_pos hpid]

theorem Hw.doorbell_owner (howner : h.actsAsOwner src = some i) : h.doorbell src 0 off v =
    { h.ringDoorbell 0 off v with sys := { h.sys with ownerSrc := some i } } := by
  rw [Hw.doorbell, howner]
  exact if_pos rfl

theorem Hw.doorbell_notOwner (howner : h.actsAsOwner src = none) : h.doorbell src 0 off v = h.ownerRefused src := by
  rw [Hw.doorbell, howner]
  exact if_pos rfl

theorem Hw.doorbell_foreign (howner : h.actsAsOwner src = none) (hpage : page ≠ 0) (hother : h.sourcePid src ≠ some page) :
    h.doorbell src page off v = h.event srcFw 0x0806 ((h.sourcePid src).getD 0) page := by
  rw [Hw.doorbell, howner]
  exact (if_neg hpage).trans (if_neg hother)

end

/-! The write by its virtual address (R169, R177). -/

section
variable {s : State} {h h' : Hw} {src : DoorSrc} {page : BitVec 36} {off : BitVec 12} {v : BitVec 64} {ctx a : Nat}

theorem does_doorbellWrite (hs : s.hw = h) (hhub : h.hubOn = true)
    (hat : h.doorbellAt src (page ++ off).toNat v.toNat = h') : Does (.doorbellWrite src page off v) s fun x => x = h' :=
  does_of_next (execDoorbellWrite src page off v s) hs rfl rfl ((if_pos hhub).trans hat)

section
variable (hs : s.hw = h) (hhub : h.hubOn = true) (hctx : h.sourceCtx src = some ctx)
include hs hhub hctx

theorem does_doorbellWrite_fault {e : Nat} (hfault : h.mem.translate ctx (page ++ off).toNat .wr false = .error e) :
    Does (.doorbellWrite src page off v) s fun x => x = h.sourceFault src ctx (page ++ off).toNat e := by
  refine does_doorbellWrite hs hhub ?_
  simp only [Hw.doorbellAt, hctx, hfault]

variable (hmaps : h.mem.translate ctx (page ++ off).toNat .wr false = .ok a)
include hmaps

theorem does_doorbellWrite_elsewhere (hregion : h.region a ≠ .doorbell) :
    Does (.doorbellWrite src page off v) s fun x => x = h := by
  refine does_doorbellWrite hs hhub ?_
  simp only [Hw.doorbellAt, hctx, hmaps, if_neg hregion]

theorem does_doorbellWrite_page {pg : Nat} (hregion : h.region a = .doorbell) (hpg : pg = (a - 0x0480_0000_0000) / 4096)
    (hdoorbell : h.doorbell src pg (a % 4096) v.toNat = h') : Does (.doorbellWrite src page off v) s fun x => x = h' := by
  refine does_doorbellWrite hs hhub ?_
  simp only [Hw.doorbellAt, hctx, hmaps, if_pos hregion, ← hpg, hdoorbell]

end

end

/-- Settles O21: the write along its address, its source and its offset. -/
theorem doorbellWrites : Obligations.DoorbellWrites := by
  refine ⟨?_, ?_, ?_, ?_, ?_, ?_, ?_, ?_, ?_, ?_, ?_, ?_⟩
  · intro s h src page off v ctx a pg q hs hhub hctx hmaps hregion hpg hpage hown hsmall hoff hqueue hworker
    exact does_doorbellWrite_page hs hhub hctx hmaps hregion hpg
      ((Hw.doorbell_rings hpage hown).trans (Hw.ringDoorbell_tail hoff hsmall hqueue hworker))
  · intro s h src page off v ctx a pg q hs hhub hctx hmaps hregion hpg hpage hown hsmall hoff hqueue hworker
    exact does_doorbellWrite_page hs hhub hctx hmaps hregion hpg
      ((Hw.doorbell_rings hpage hown).trans (Hw.ringDoorbell_head hoff hsmall hqueue hworker))
  · intro s h src page off v ctx a pg i q hs hhub hctx hmaps hregion hpg howner hzero hsmall hoff hqueue hworker
    subst hzero
    refine does_doorbellWrite_page hs hhub hctx hmaps hregion hpg ?_
    rw [Hw.doorbell_owner howner, Hw.ringDoorbell_tail hoff hsmall hqueue hworker]
  · intro s h src page off v ctx a pg i q k hs hhub hctx hmaps hregion hpg howner hzero hsmall hoff hqueue hworker hk
    subst hzero
    refine does_doorbellWrite_page hs hhub hctx hmaps hregion hpg ?_
    rw [Hw.doorbell_owner howner, Hw.ringDoorbell_head hoff hsmall hqueue hworker, hk]
  · intro s h src page off v ctx a pg q hs hhub hctx hmaps hregion hpg hpage hown hq hbad
    have hlow : a % 4096 % 16 = a % 16 := by omega
    rw [← hlow] at hbad
    exact does_doorbellWrite_page hs hhub hctx hmaps hregion hpg
      ((Hw.doorbell_rings hpage hown).trans (Hw.ringDoorbell_ignored hq hbad))
  · intro s h src page off v ctx a pg hs hhub hctx hmaps hregion hpg howner hzero
    subst hzero
    exact does_doorbellWrite_page hs hhub hctx hmaps hregion hpg (Hw.doorbell_notOwner howner)
  · intro s h src page off v ctx a pg hs hhub hctx hmaps hregion hpg howner hpage hother
    exact does_doorbellWrite_page hs hhub hctx hmaps hregion hpg (Hw.doorbell_foreign howner hpage hother)
  · intro s h src page off v ctx a hs hhub hctx hmaps hregion
    exact does_doorbellWrite_elsewhere hs hhub hctx hmaps hregion
  · intro s h src page off v ctx e hs hhub hctx hfault
    exact does_doorbellWrite_fault hs hhub hctx hfault
  · intro s h port rid page off v hs hhub hctx
    refine does_doorbellWrite hs hhub ?_
    simp only [Hw.doorbellAt, hctx]
  · intro s h hart page off v hs hhub hctx
    refine does_doorbellWrite hs hhub ?_
    simp only [Hw.doorbellAt, hctx]
  · intro s h src page off v hs hhub
    refine does_of_next (execDoorbellWrite src page off v s) hs rfl rfl ?_
    rw [hhub, if_neg Bool.false_ne_true]

end Sys2Proof.Machine

namespace Sys2Proof.Machine

open Sys2Proof

/-! The fetch of a queue's next command (R201 to R203). -/

/-- A queue of a partition that is not being destroyed, with the sequencer, the hub and the processor running. -/
structure Served (h : Hw) (pid q cp : Nat) (qu : Queue) : Prop where
  sequences : h.sequencing = true
  hub : h.hubOn = true
  runs : h.cpRuns cp = true
  alive : ((h.part pid).map (·.destroying)).getD false = false
  queue : h.queue pid q = some qu

/-- The command at the fetch point of a queue as a fetch enters it when nothing of it has been read. -/
def fetchBase (h : Hw) (pid q cp : Nat) (qu : Queue) : Fetched :=
  { pid := pid, queue := q, cp := cp, slot := qu.fetchPoint % 2 ^ qu.desc.log2Size, slots := 1, pkt := [],
    stained := false, extStained := false, fault := none, grantAt := h.now }

/-- A condition that does not hold shows its state in the mirror, and a budget that is reached is counted (R62, R201). -/
def Hw.showWait (h : Hw) (pid q w : Nat) : Hw := (if w = mirBudget then h.noteExhausted pid 2 else h).setMirror pid q w

section
variable {h k k2 : Hw} {pid q cp n w : Nat} {qu : Queue} {bs cs : List Byte} {late st : Bool} {e : Nat × Nat}

/-- Where no fetch takes place: no queue, or the sequencer, the processor or the partition does not serve it. -/
theorem Hw.fetchNext_stopped (hstop : h.queue pid q = none ∨ h.sequencing = false ∨ h.cpRuns cp = false ∨
    (h.part pid).any (·.destroying) = true) : h.fetchNext pid q cp = h := by
  unfold Hw.fetchNext
  split
  · rfl
  next qu hqueue =>
    refine if_pos ?_
    have hdying : (h.part pid).any (·.destroying) = ((h.part pid).map (·.destroying)).getD false := by
      cases h.part pid <;> rfl
    rw [hqueue, hdying] at hstop
    rcases hstop with hnone | hseq | hcp | hdead
    · cases hnone
    · rw [hseq, Bool.not_false, Bool.true_or, Bool.true_or, Bool.true_or]
    · rw [hcp, Bool.not_false, Bool.or_true, Bool.true_or]
    · rw [hdead, Bool.or_true]

section
variable (hserved : Served h pid q cp qu)
include hserved

theorem Served.not_stopped :
    ¬ (! h.sequencing || ! h.hubOn || ! h.cpRuns cp || ((h.part pid).map (·.destroying)).getD false) = true := by
  rw [hserved.sequences, hserved.hub, hserved.runs, hserved.alive]
  exact Bool.false_ne_true

theorem Served.fetchNext_idle (hnothing : qu.submitted = 0) : h.fetchNext pid q cp = h.setMirror pid q mirIdle := by
  simp only [Hw.fetchNext, hserved.queue, if_neg hserved.not_stopped, if_pos hnothing]

variable (hsub : qu.submitted ≠ 0)
include hsub

theorem Served.fetchNext_waits (hwait : h.fetchWait pid q qu 1 = some w) :
    h.fetchNext pid q cp = h.showWait pid q w := by
  simp only [Hw.fetchNext, hserved.queue, if_neg hserved.not_stopped, if_neg hsub, hwait]
  rfl

variable (hwait : h.fetchWait pid q qu 1 = none)
include hwait

theorem Served.fetchNext_faults (hread : h.readFirst pid qu qu.fetchPoint = (.error e, k))
    (hstill : k.fetchWait pid q qu 1 = none) : h.fetchNext pid q cp =
      k.enterFetched { fetchBase h pid q cp qu with pkt := zeros 64, fault := some (pageStatus e) } := by
  simp only [Hw.fetchNext, hserved.queue, if_neg hserved.not_stopped, if_neg hsub, hwait, hread, hstill]
  rfl

theorem Served.fetchNext_stained (hread : h.readFirst pid qu qu.fetchPoint = (.ok (bs, true, late), k))
    (hstill : k.fetchWait pid q qu 1 = none) : h.fetchNext pid q cp =
      k.enterFetched { fetchBase h pid q cp qu with pkt := bs, stained := true, extStained := true } := by
  simp only [Hw.fetchNext, hserved.queue, if_neg hserved.not_stopped, if_neg hsub, hwait, hread, hstill]
  rfl

variable (hread : h.readFirst pid qu qu.fetchPoint = (.ok (bs, false, late), k))
include hread

theorem Served.fetchNext_unwritten (hshort : qu.submitted < slotsOf bs) :
    h.fetchNext pid q cp = k.setMirror pid q mirIdle := by
  simp only [Hw.fetchNext, hserved.queue, if_neg hserved.not_stopped, if_neg hsub, hwait, hread, if_pos hshort]

variable (hlong : slotsOf bs ≤ qu.submitted)
include hlong

theorem Served.fetchNext_waitsWhole (hwhole : k.fetchWait pid q qu (slotsOf bs) = some w) :
    h.fetchNext pid q cp = k.showWait pid q w := by
  simp only [Hw.fetchNext, hserved.queue, if_neg hserved.not_stopped, if_neg hsub, hwait, hread,
    if_neg (Nat.not_lt.mpr hlong), hwhole]
  rfl

variable (hwhole : k.fetchWait pid q qu (slotsOf bs) = none)
include hwhole

theorem Served.fetchNext_lateFault
    (hchunks : k.readChunks pid qu (slotsOf bs - 1) (qu.fetchPoint + 1) = (.error e, k2))
    (hstill : k2.fetchWait pid q qu (slotsOf bs) = none) : h.fetchNext pid q cp =
      k2.enterFetched { fetchBase h pid q cp qu with
        pkt := bs ++ zeros (64 * (slotsOf bs - 1)), slots := slotsOf bs, fault := some (pageStatus e) } := by
  simp only [Hw.fetchNext, hserved.queue, if_neg hserved.not_stopped, if_neg hsub, hwait, hread,
    if_neg (Nat.not_lt.mpr hlong), hwhole, hchunks, hstill]
  rfl

theorem Served.fetchNext_enters
    (hchunks : k.readChunks pid qu (slotsOf bs - 1) (qu.fetchPoint + 1) = (.ok (cs, st), k2))
    (hstill : k2.fetchWait pid q qu (slotsOf bs) = none) : h.fetchNext pid q cp =
      k2.enterFetched { fetchBase h pid q cp qu with
        pkt := bs ++ cs, slots := slotsOf bs, stained := late || st } := by
  simp only [Hw.fetchNext, hserved.queue, if_neg hserved.not_stopped, if_neg hsub, hwait, hread,
    if_neg (Nat.not_lt.mpr hlong), hwhole, hchunks, hstill]
  rfl

end

end

theorem does_fetchGrant {s : State} {h h' : Hw} {pid : Fin 256} {queue : Fin 16} {cp : Fin 4} (hs : s.hw = h)
    (hfetch : h.fetchNext pid.val queue.val cp.val = h') : Does (.fetchGrant pid queue cp) s fun x => x = h' :=
  does_of_next (execFetchGrant pid queue cp s) hs rfl rfl hfetch

/-! The acceptance of the oldest fetched command (R203 to R205, R221). -/

section
variable {h : Hw} {sp : OpSpec} {q : QRef} {qu : Queue} {pkt : Packet}

theorem Hw.judge_accepts {c : Cmd} (hadmitted : sp.check h (mkCmd h q qu pkt 0) = none) (hc : c = acceptedCmd h q qu pkt)
    (hnorival : superseded c.opc c.port q.rival = none) :
    (h.judge sp q qu pkt).2 = sp.onAccept (h.take c (slotsOf pkt)) c := by
  rw [acceptedCmd] at hc
  simp only [Hw.judge, hadmitted, ← hc, hnorival]

theorem Hw.judge_supersedes {c : Cmd} {p : Nat} (hadmitted : sp.check h (mkCmd h q qu pkt 0) = none)
    (hc : c = acceptedCmd h q qu pkt) (hrival : superseded c.opc c.port q.rival = some p) :
    (h.judge sp q qu pkt).2 = ((h.take c (slotsOf pkt)).begin c).finish c 0x4002 0 p := by
  rw [acceptedCmd] at hc
  simp only [Hw.judge, hadmitted, ← hc, hrival]

theorem Hw.judge_refuses {c : Cmd} {x y z : Nat} (hrefused : sp.check h (mkCmd h q qu pkt 0) = some (x, y, z))
    (hc : c = { mkCmd h q qu pkt 0 with
      begun := true, finishAt := h.now, entry := some ((mkCmd h q qu pkt 0).mkEntry h.now x y z {}) }) :
    (h.judge sp q qu pkt).2 = sp.onRefuse ((h.take c (slotsOf pkt)).countStarted c.pid c.queue) c := by
  have hpid : c.pid = (mkCmd h q qu pkt 0).pid := by rw [hc]
  have hqueue : c.queue = (mkCmd h q qu pkt 0).queue := by rw [hc]
  simp only [Hw.judge, hrefused, ← hc, hpid, hqueue]

end

section
variable {h : Hw} {pid : Fin 256} {queue : Fin 16} {rival : Option Rival} {f : Fetched} {qu : Queue} {q : QRef}

theorem Hw.acceptFetched_none (hnone : h.oldestFetched pid.val queue.val = none ∨ h.queue pid.val queue.val = none) :
    h.acceptFetched pid queue rival = h := by
  unfold Hw.acceptFetched
  split
  next f qu hfetched hqueue =>
    rcases hnone with hnone | hnone
    · cases hfetched.symm.trans hnone
    · cases hqueue.symm.trans hnone
  next => rfl

section
variable (hfetched : h.oldestFetched pid.val queue.val = some f) (hqueue : h.queue pid.val queue.val = some qu)
    (hq : q = { pid := pid, queue := queue, cp := ⟨f.cp % 4, Nat.mod_lt _ (by decide)⟩, rival := rival })
include hfetched hqueue hq

theorem Hw.acceptFetched_unserved (hstop : h.presents q = false ∨ h.isHeld q = true) :
    h.acceptFetched pid queue rival = h := by
  have hstays : (! h.presents q || h.isHeld q) = true := by
    rcases hstop with hstop | hheld
    · rw [hstop, Bool.not_false, Bool.true_or]
    · rw [hheld, Bool.or_true]
  simp only [Hw.acceptFetched, hfetched, hqueue, ← hq, hstays, if_true]

variable (hpresents : h.presents q = true) (hfree : h.isHeld q = false)
include hpresents hfree

theorem Hw.acceptFetched_fault {st d : Nat} (hfault : f.fault = some (st, d)) :
    h.acceptFetched pid queue rival = h.acceptSpoilt q qu f st d := by
  simp only [Hw.acceptFetched, hfetched, hqueue, ← hq, hpresents, hfree, Bool.not_true, Bool.or_self,
    Bool.false_eq_true, if_false, hfault]

variable (hwhole : f.fault = none)
include hwhole

theorem Hw.acceptFetched_stained (hstained : f.stained = true) :
    h.acceptFetched pid queue rival = h.acceptSpoilt q qu f 0x3001 0xFFFF_FFFF := by
  simp only [Hw.acceptFetched, hfetched, hqueue, ← hq, hpresents, hfree, Bool.not_true, Bool.or_self,
    Bool.false_eq_true, if_false, hwhole, hstained, if_true]

variable (hclean : f.stained = false)
include hclean

theorem Hw.acceptFetched_group (hgroup : field f.pkt 0 1 = 0x40 ∧ h.groupSubmit q qu f.pkt = true) :
    h.acceptFetched pid queue rival = h.holdSubmit q f.pkt := by
  simp only [Hw.acceptFetched, hfetched, hqueue, ← hq, hpresents, hfree, Bool.not_true, Bool.or_self,
    Bool.false_eq_true, if_false, hwhole, hclean, if_pos hgroup]

theorem Hw.acceptFetched_judged (hown : ¬ (field f.pkt 0 1 = 0x40 ∧ h.groupSubmit q qu f.pkt = true)) :
    h.acceptFetched pid queue rival = ((h.unfetch f).judge (specOf (field f.pkt 0 1)) q qu f.pkt).2 := by
  simp only [Hw.acceptFetched, hfetched, hqueue, ← hq, hpresents, hfree, Bool.not_true, Bool.or_self,
    Bool.false_eq_true, if_false, hwhole, hclean, if_neg hown]

end

theorem does_commandAccept {s : State} {h' : Hw} (hs : s.hw = h) (haccept : h.acceptFetched pid queue rival = h') :
    Does (.commandAccept pid queue rival) s fun x => x = h' :=
  does_of_next (execCommandAccept pid queue rival s) hs rfl rfl haccept

end

/-- Settles O22: the fetch and the acceptance, each along the branch that its conditions choose. -/
theorem commandFetchAndAcceptance : Obligations.CommandFetchAndAcceptance := by
  refine ⟨?_, ?_, ?_, ?_, ?_, ?_, ?_, ?_, ?_, ?_, ?_, ?_, ?_, ?_, ?_, ?_, ?_⟩
  · intro s h pid queue cp qu n bs cs late st k k2 hs hseq hhub hcp halive hqueue hsub hwait hread hn hlong hwhole hchunks
      hstill
    subst hn
    exact does_fetchGrant hs (Served.fetchNext_enters ⟨hseq, hhub, hcp, halive, hqueue⟩ hsub hwait hread hlong hwhole
      hchunks hstill)
  · intro s h pid queue cp qu n bs late e k k2 hs hseq hhub hcp halive hqueue hsub hwait hread hn hlong hwhole hchunks
      hstill
    subst hn
    exact does_fetchGrant hs (Served.fetchNext_lateFault ⟨hseq, hhub, hcp, halive, hqueue⟩ hsub hwait hread hlong hwhole
      hchunks hstill)
  · intro s h pid queue cp qu bs late k hs hseq hhub hcp halive hqueue hsub hwait hread hstill
    exact does_fetchGrant hs (Served.fetchNext_stained ⟨hseq, hhub, hcp, halive, hqueue⟩ hsub hwait hread hstill)
  · intro s h pid queue cp qu e k hs hseq hhub hcp halive hqueue hsub hwait hread hstill
    exact does_fetchGrant hs (Served.fetchNext_faults ⟨hseq, hhub, hcp, halive, hqueue⟩ hsub hwait hread hstill)
  · intro s h pid queue cp qu w hs hseq hhub hcp halive hqueue hsub hwait
    exact does_fetchGrant hs (Served.fetchNext_waits ⟨hseq, hhub, hcp, halive, hqueue⟩ hsub hwait)
  · intro s h pid queue cp qu w bs late k hs hseq hhub hcp halive hqueue hsub hwait hread hlong hwhole
    exact does_fetchGrant hs (Served.fetchNext_waitsWhole ⟨hseq, hhub, hcp, halive, hqueue⟩ hsub hwait hread hlong hwhole)
  · intro s h pid queue cp qu bs late k hs hseq hhub hcp halive hqueue hsub hwait hread hshort
    exact does_fetchGrant hs (Served.fetchNext_unwritten ⟨hseq, hhub, hcp, halive, hqueue⟩ hsub hwait hread hshort)
  · intro s h pid queue cp qu hs hseq hhub hcp halive hqueue hnothing
    exact does_fetchGrant hs (Served.fetchNext_idle ⟨hseq, hhub, hcp, halive, hqueue⟩ hnothing)
  · intro s h pid queue cp hs hstop
    exact does_fetchGrant hs (Hw.fetchNext_stopped hstop)
  · intro s h pid queue rival f qu q g sp c hs hfetched hqueue hq hpresents hfree hwhole hclean hown hg hsp hadmitted hc
      hnorival
    have hrival : q.rival = rival := by rw [hq]
    subst hg hsp
    exact does_commandAccept hs ((Hw.acceptFetched_judged hfetched hqueue hq hpresents hfree hwhole hclean hown).trans
      (Hw.judge_accepts hadmitted hc (hrival ▸ hnorival)))
  · intro s h pid queue rival f qu q g sp c x y z hs hfetched hqueue hq hpresents hfree hwhole hclean hown hg hsp hrefused hc
    subst hg hsp
    exact does_commandAccept hs ((Hw.acceptFetched_judged hfetched hqueue hq hpresents hfree hwhole hclean hown).trans
      (Hw.judge_refuses hrefused hc))
  · intro s h pid queue rival f qu q g sp c p hs hfetched hqueue hq hpresents hfree hwhole hclean hown hg hsp hadmitted hc
      hwins
    have hrival : q.rival = rival := by rw [hq]
    subst hg hsp
    exact does_commandAccept hs ((Hw.acceptFetched_judged hfetched hqueue hq hpresents hfree hwhole hclean hown).trans
      (Hw.judge_supersedes hadmitted hc (hrival ▸ hwins)))
  · intro s h pid queue rival f qu q hs hfetched hqueue hq hpresents hfree hwhole hclean hopc hgroup
    exact does_commandAccept hs (Hw.acceptFetched_group hfetched hqueue hq hpresents hfree hwhole hclean ⟨hopc, hgroup⟩)
  · intro s h pid queue rival f qu q hs hfetched hqueue hq hpresents hfree hwhole hstained
    exact does_commandAccept hs (Hw.acceptFetched_stained hfetched hqueue hq hpresents hfree hwhole hstained)
  · intro s h pid queue rival f qu q st d hs hfetched hqueue hq hpresents hfree hfault
    exact does_commandAccept hs (Hw.acceptFetched_fault hfetched hqueue hq hpresents hfree hfault)
  · intro s h pid queue rival f qu q hs hfetched hqueue hq hstop
    exact does_commandAccept hs (Hw.acceptFetched_unserved hfetched hqueue hq hstop)
  · intro s h pid queue rival hs hnone
    exact does_commandAccept hs (Hw.acceptFetched_none hnone)

end Sys2Proof.Machine

namespace Sys2Proof.Machine

open Sys2Proof

/-! The sync-object window (R177, R188, R618). -/

section
variable {h k : Hw} {hart va form v pid : Nat}

theorem Hw.coreWindow_idle (hpid : h.hartPid hart = none) : h.coreWindow hart va form v = h := by
  simp only [Hw.coreWindow, hpid]

theorem Hw.coreWindow_fault {c : Nat} (hpid : h.hartPid hart = some pid)
    (hfault : h.mem.translate pid va (if form = 0 then .rd else .wr) false = .error c) : h.coreWindow hart va form v =
      (h.translationFault 3 c pid va).toGuest pid hart (if form = 0 then 21 else 23) va := by
  simp only [Hw.coreWindow, hpid, hfault]

theorem Hw.coreWindow_elsewhere {a : Nat} (hpid : h.hartPid hart = some pid)
    (hmaps : h.mem.translate pid va (if form = 0 then .rd else .wr) false = .ok a) (hregion : h.region a ≠ .sobWin) :
    h.coreWindow hart va form v = h := by
  simp only [Hw.coreWindow, hpid, hmaps, if_pos hregion]

/-- An access to the window acts for the partition that runs on the hart, and what is not a store answers. -/
theorem Hw.coreWindow_acts {a old : Nat} (hpid : h.hartPid hart = some pid)
    (hmaps : h.mem.translate pid va (if form = 0 then .rd else .wr) false = .ok a) (hregion : h.region a = .sobWin)
    (hwindow : h.sobWindow 2 pid ((a - 0x0500_0000_0000) / 8) (if a % 8 = 0 then form else 3) v = (old, k)) :
    h.coreWindow hart va form v = if form = 1 then k else { k with fab := { k.fab with responses := k.fab.responses ++ [
      { src := 1024, pid := pid, tag := 35 + hart / 8, write := false, addr := (a - 0x0500_0000_0000) / 8, len := 8,
        data := leBytes 8 old, stain := false }] } } := by
  simp only [Hw.coreWindow, hpid, hmaps, if_neg (not_not.mpr hregion), hwindow]

/-- An access of no whole object, to one that the partition does not hold. -/
theorem Hw.sobWindow_violation {g i : Nat} (hheld : h.holdsSob pid i = false) :
    h.sobWindow g pid i 3 v = (0, h.sobViolation g pid i) := by
  simp only [Hw.sobWindow, hheld, Bool.not_false, if_true]
  rfl

theorem does_sobWindowAccess_core {s : State} {h' : Hw} {a : WinAccess} (hs : s.hw = h) (hfabric : h.fabricOn = true)
    (hhub : h.hubOn = true) (hcore : a.pcie = false)
    (hwindow : h.coreWindow a.hart.val a.va.toNat a.form.val a.value.toNat = h') :
    Does (.sobWindowAccess a) s fun x => x = h' := by
  refine does_of_next (execSobWindowAccess a s) hs rfl rfl ?_
  rw [hcore, hfabric, hhub, if_neg Bool.false_ne_true, ← hwindow]
  rfl

theorem does_sobWindowAccess_idle {s : State} {a : WinAccess} (hs : s.hw = h) (hcore : a.pcie = false)
    (hstop : h.fabricOn = false ∨ h.hubOn = false ∨ h.hartPid a.hart.val = none) :
    Does (.sobWindowAccess a) s fun x => x = h := by
  refine does_of_next (execSobWindowAccess a s) hs rfl rfl ?_
  rw [hcore, if_neg Bool.false_ne_true]
  rcases hstop with hfabric | hhub | hpid
  · rw [hfabric, Bool.false_and, if_neg Bool.false_ne_true]
  · rw [hhub, Bool.and_false, if_neg Bool.false_ne_true]
  · rw [Hw.coreWindow_idle hpid, ite_self]

/-- A PCIe requester's access is a memory request at its port. -/
theorem does_sobWindowAccess_pcie {s : State} {a : WinAccess} (hs : s.hw = h) (hpcie : a.pcie = true) :
    Does (.sobWindowAccess a) s fun x => x = if h.portRuns a.port.val then h.tlp (winTlp a) else h :=
  does_of_next (execSobWindowAccess a s) hs rfl rfl (if_pos hpcie)

end

/-! A PCIe memory request (R177, R180, R617): the partition for which it acts, and its translation. -/

section
variable {h k : Hw} {t : Tlp} {pid : Nat}

theorem Hw.tlp_unbound (hpid : h.tlpPid t = none) : h.tlp t = h.unsupported t := by
  simp only [Hw.tlp, hpid]

/-- A requester that may not act for the owner now reaches nothing of context 0. -/
theorem Hw.tlp_refused (hpid : h.tlpPid t = some 0) (howner : (h.actsAsOwner (.pcie t.port t.rid)).isNone = true)
    (hk : k = h.ownerRefused (.pcie t.port t.rid)) : h.tlp t = if t.kind.val = 1 then k else k.unsupported t := by
  simp only [Hw.tlp, hpid, howner, hk, decide_true, Bool.and_self, if_true]

section
variable (hacts : pid ≠ 0 ∨ (h.actsAsOwner (.pcie t.port t.rid)).isNone = false)
include hacts

theorem Hw.tlp_admitted : ¬ (decide (pid = 0) && (h.actsAsOwner (.pcie t.port t.rid)).isNone) = true := by
  rw [Bool.and_eq_true, decide_eq_true_eq]
  rintro ⟨hzero, hnone⟩
  rcases hacts with hother | howner
  · exact hother hzero
  · exact Bool.false_ne_true (howner.symm.trans hnone)

theorem Hw.tlp_fault {a c : Nat} (hpid : h.tlpPid t = some pid)
    (hfault : h.mem.translateRun pid t.addr.toNat (if t.kind.val = 0 then t.len.val else t.data.length)
      (if t.kind.val = 0 then .rd else .wr) false = .error (a, c)) (hk : k = h.translationFault 4 c pid a) :
    h.tlp t = if t.kind.val = 1 then k else k.unsupported t := by
  simp only [Hw.tlp, hpid, if_neg (Hw.tlp_admitted hacts), hfault, hk]

theorem Hw.tlp_served {ps : List (Nat × Nat)} (hpid : h.tlpPid t = some pid)
    (hmaps : h.mem.translateRun pid t.addr.toNat (if t.kind.val = 0 then t.len.val else t.data.length)
      (if t.kind.val = 0 then .rd else .wr) false = .ok ps) :
    h.tlp t = if h.sys.tlps.any (tlpBehind t) = true then h.holdTlp ⟨t, pid, ps⟩ else h.tlpTarget t pid ps := by
  simp only [Hw.tlp, hpid, if_neg (Hw.tlp_admitted hacts), hmaps, Hw.tlpServe]

end

end

/-! A request or a setting at a PCIe port (R545, R617, R623). -/

section
variable {s : State} {h h' : Hw}

theorem does_pcieTlp_mem {t : Tlp} (hs : s.hw = h) (hruns : h.portRuns t.port.val = true)
    (hmem : (if t.addr.toNat = 2 ^ 48 ∧ t.kind.val = 1 ∧ h.get (F.PCIE_CFG_ROLE.port t.port.val) = 0 then
      h.msiWrite t.port.val t.rid.toNat t.data else h.tlp t) = h') : Does (.pcieTlp (.mem t)) s fun x => x = h' := by
  refine does_of_next (execPcieTlp (.mem t) s) hs rfl rfl ((if_neg ?_).trans hmem)
  rw [hruns]
  exact Bool.false_ne_true

theorem does_pcieTlp_mem_down {t : Tlp} (hs : s.hw = h) (hdown : h.portRuns t.port.val = false) :
    Does (.pcieTlp (.mem t)) s fun x => x = h := by
  refine does_of_next (execPcieTlp (.mem t) s) hs rfl rfl (if_pos ?_)
  rw [hdown, Bool.not_false]

theorem does_pcieTlp_msix {port : Fin 2} {rid : BitVec 16} {en all : Bool} (hs : s.hw = h) :
    Does (.pcieTlp (.msix port rid en all)) s fun x => x = if ! h.portRuns port.val then h else
      ({ h with
          msix := h.msix.put (port.val * 65536 + rid.toNat) { h.msixOf port.val rid.toNat with enable := en, maskAll := all } } :
        Hw).sendPending port.val rid.toNat :=
  does_of_next (execPcieTlp (.msix port rid en all) s) hs rfl rfl rfl

theorem does_pcieTlp_mask {port : Fin 2} {rid : BitVec 16} {e : Fin 2048} {on : Bool} (hs : s.hw = h) :
    Does (.pcieTlp (.mask port rid e on)) s fun x => x = if ! h.portRuns port.val then h else
      ({ h with msix := h.msix.put (port.val * 65536 + rid.toNat) { h.msixOf port.val rid.toNat with
        masked := if on = true then NSet.add (h.msixOf port.val rid.toNat).masked e.val
          else NSet.rem (h.msixOf port.val rid.toNat).masked e.val } } : Hw).sendPending port.val rid.toNat :=
  does_of_next (execPcieTlp (.mask port rid e on) s) hs rfl rfl rfl

theorem does_pcieTlp_vfs {port : Fin 2} {n : Fin 65} (hs : s.hw = h) :
    Does (.pcieTlp (.vfs port n)) s fun x => x = if h.portRuns port.val = true ∧ h.get (F.PCIE_CFG_ROLE.port port.val) = 1 then
      h.put (F.PCIE_STATUS_NUM_VF.port port.val) n.val else h := by
  refine does_of_next (execPcieTlp (.vfs port n) s) hs rfl rfl (if_congr ?_ rfl rfl)
  rw [Bool.and_eq_true, beq_iff_eq]

/-! A message of a downstream requester (R623). -/

theorem does_pcieMsiWrite {port : Fin 2} {rid : BitVec 16} {data : List Byte} (hs : s.hw = h)
    (hruns : h.portRuns port.val = true) (hrole : h.get (F.PCIE_CFG_ROLE.port port.val) = 0)
    (hwrite : h.msiWrite port.val rid.toNat data = h') : Does (.pcieMsiWrite port rid data) s fun x => x = h' := by
  refine does_of_next (execPcieMsiWrite port rid data s) hs rfl rfl ?_
  rw [hruns, hrole]
  exact hwrite

theorem does_pcieMsiWrite_idle {port : Fin 2} {rid : BitVec 16} {data : List Byte} (hs : s.hw = h)
    (hstop : h.portRuns port.val = false ∨ h.get (F.PCIE_CFG_ROLE.port port.val) ≠ 0) :
    Does (.pcieMsiWrite port rid data) s fun x => x = h := by
  refine does_of_next (execPcieMsiWrite port rid data s) hs rfl rfl (if_neg ?_)
  rw [Bool.and_eq_true, beq_iff_eq]
  rintro ⟨hruns, hrole⟩
  rcases hstop with hdown | hother
  · exact Bool.false_ne_true (hdown.symm.trans hruns)
  · exact hother hrole

theorem Hw.msiWrite_bound {port rid pid : Nat} {data : List Byte} (hbound : h.boundPid port rid = some pid) :
    h.msiWrite port rid data =
      if data.length = 4 ∧ bits (h.route pid) 0 2 = 2 ∧ leNat data ≠ 0 ∧ leNat data < 2048 then
        { h with gfiles := NSet.add h.gfiles (gfileKey (bits (h.route pid) 8 5) (bits (h.route pid) 13 3) (leNat data)) }
      else (h.addSat (F.PCIE_ERR_MSI_DROPPED.port port) 1).put (F.PCIE_INT_STATUS_MSI_DROP.port port) 1 := by
  simp only [Hw.msiWrite, hbound]

theorem Hw.msiWrite_unbound {port rid : Nat} {data : List Byte} (hnone : h.boundPid port rid = none) :
    h.msiWrite port rid data = (h.addSat (F.PCIE_ERR_UR.port port) 1).put (F.PCIE_INT_STATUS_UR.port port) 1 := by
  simp only [Hw.msiWrite, hnone]

/-! A trained link, and the state of a CAN controller (R539, R545). -/

theorem does_pcieLinkTrained_up {port : Fin 2} {gen : Fin 6} {log2w : Fin 4} {a b : Hw} (hs : s.hw = h)
    (hgen : gen.val ≠ 0) (hfabric : h.fabricOn = true) (hblock : h.blockOn 0x730 = true)
    (ha : a = if h.on (F.PCIE_STATUS_UP.port port.val) = true then h.addSat (F.PCIE_ERR_RETRAIN.port port.val) 1 else h)
    (hb : b = ((a.put (F.PCIE_STATUS_UP.port port.val) 1).put (F.PCIE_STATUS_GEN.port port.val) gen.val).put
      (F.PCIE_STATUS_LOG2_WIDTH.port port.val) log2w.val) :
    Does (.pcieLinkTrained port gen log2w) s fun x => x = if gen.val < 5 ∨ log2w.val < 3 then
      (b.event (srcPort (2 + port.val)) 0x0503 0 (gen.val + 16 * log2w.val)).put (F.PCIE_INT_STATUS_DEGRADED.port port.val) 1
      else b := by
  refine does_of_next (execPcieLinkTrained port gen log2w s) hs rfl rfl ?_
  rw [hfabric, hblock, decide_eq_false hgen, hb, ha]
  rfl

theorem does_pcieLinkTrained_down {port : Fin 2} {gen : Fin 6} {log2w : Fin 4} (hs : s.hw = h)
    (hdown : gen.val = 0 ∨ h.fabricOn = false ∨ h.blockOn 0x730 = false) :
    Does (.pcieLinkTrained port gen log2w) s fun x => x = h := by
  refine does_of_next (execPcieLinkTrained port gen log2w s) hs rfl rfl (if_pos ?_)
  rcases hdown with hgen | hfabric | hblock
  · rw [decide_eq_true hgen, Bool.true_or, Bool.true_or]
  · rw [hfabric, Bool.not_false, Bool.or_true, Bool.true_or]
  · rw [hblock, Bool.not_false, Bool.or_true]

theorem does_canFault_new {ch : Fin 4} {st : Fin 6} {a : Hw} (hs : s.hw = h) (hnew : h.sys.can.getD 0 ch.val ≠ st.val)
    (hpowered : ch.val < 2 ∨ h.domainOn 34 = true)
    (ha : a = { h with sys := { h.sys with can := h.sys.can.putD 0 ch.val st.val } }) : Does (.canFault ch st) s fun x =>
      x = a.event (if ch.val < 2 then srcDatum ch.val else srcPort (4 + ch.val)) 0x050C 0 st.val := by
  refine does_of_next (execCanFault ch st s) hs rfl rfl ?_
  have hruns : (decide (2 ≤ ch.val) && ! h.domainOn 34) = false := by
    rcases hpowered with hlow | hon
    · rw [decide_eq_false (Nat.not_le.mpr hlow), Bool.false_and]
    · rw [hon, Bool.not_true, Bool.and_false]
  rw [decide_eq_false hnew, hruns, ha]
  rfl

theorem does_canFault_same {ch : Fin 4} {st : Fin 6} (hs : s.hw = h)
    (hsame : h.sys.can.getD 0 ch.val = st.val ∨ 2 ≤ ch.val ∧ h.domainOn 34 = false) :
    Does (.canFault ch st) s fun x => x = h := by
  refine does_of_next (execCanFault ch st s) hs rfl rfl (if_pos ?_)
  rcases hsame with hsame | ⟨hhigh, hoff⟩
  · rw [decide_eq_true hsame, Bool.true_or]
  · rw [decide_eq_true hhigh, hoff, Bool.not_false, Bool.and_self, Bool.or_true]

end

/-- Settles O52: each clause from the case of the window, of the port or of the controller that its conditions select. -/
theorem connectors : Obligations.Connectors := by
  refine ⟨?_, ?_, ?_, ?_, ?_, ?_, ?_, ?_, ?_, ?_, ?_, ?_, ?_, ?_, ?_, ?_, ?_, ?_, ?_, ?_, ?_, ?_, ?_, ?_, ?_, ?_, ?_⟩
  · intro s h a pid p old k hs hfabric hhub hcore hpid hmaps hregion hwindow
    exact does_sobWindowAccess_core hs hfabric hhub hcore (Hw.coreWindow_acts hpid hmaps hregion hwindow)
  · intro s h a pid p hs hfabric hhub hcore hpid hmaps hregion
    exact does_sobWindowAccess_core hs hfabric hhub hcore (Hw.coreWindow_elsewhere hpid hmaps hregion)
  · intro s h a pid c hs hfabric hhub hcore hpid hfault
    exact does_sobWindowAccess_core hs hfabric hhub hcore (Hw.coreWindow_fault hpid hfault)
  · exact fun s h a => does_sobWindowAccess_idle
  · intro s h a hs hpcie hruns
    have hacts := does_sobWindowAccess_pcie hs hpcie
    rwa [hruns, if_pos rfl] at hacts
  · intro s h a hs hpcie hdown
    have hacts := does_sobWindowAccess_pcie hs hpcie
    rwa [hdown, if_neg Bool.false_ne_true] at hacts
  · exact fun h g pid i v => ⟨rfl, rfl, rfl⟩
  · exact fun h g pid i v => Hw.sobWindow_violation
  · rintro s h - t hs rfl hruns hother
    exact does_pcieTlp_mem hs hruns (if_neg (by tauto))
  · rintro s h - t hs rfl hruns haddr hkind hrole
    exact does_pcieTlp_mem hs hruns (if_pos ⟨haddr, hkind, hrole⟩)
  · rintro s h - t hs rfl hdown
    exact does_pcieTlp_mem_down hs hdown
  · rintro s h - port rid en all hs rfl hruns
    have hacts := does_pcieTlp_msix (port := port) (rid := rid) (en := en) (all := all) hs
    rwa [hruns, Bool.not_true, if_neg Bool.false_ne_true] at hacts
  · rintro s h - port rid e on hs rfl hruns
    have hacts := does_pcieTlp_mask (port := port) (rid := rid) (e := e) (on := on) hs
    rwa [hruns, Bool.not_true, if_neg Bool.false_ne_true] at hacts
  · rintro s h r port rid e en all hs (rfl | rfl) hdown
    · have hacts := does_pcieTlp_mask (port := port) (rid := rid) (e := e) (on := en) hs
      rwa [hdown, Bool.not_false, if_pos rfl] at hacts
    · have hacts := does_pcieTlp_msix (port := port) (rid := rid) (en := en) (all := all) hs
      rwa [hdown, Bool.not_false, if_pos rfl] at hacts
  · rintro s h - port n hs rfl
    exact does_pcieTlp_vfs hs
  · exact fun h t => Hw.tlp_unbound
  · exact fun h k t => Hw.tlp_refused
  · exact fun h k t pid a c hpid hacts => Hw.tlp_fault hacts hpid
  · exact fun h t pid ps hpid hacts => Hw.tlp_served hacts hpid
  · exact fun h t pid ps hmemory hkind => if_pos ⟨hkind, hmemory⟩
  · intro s h port rid data pid hs hruns hrole hbound
    exact does_pcieMsiWrite hs hruns hrole (Hw.msiWrite_bound hbound)
  · intro s h port rid data hs hruns hrole hnone
    exact does_pcieMsiWrite hs hruns hrole (Hw.msiWrite_unbound hnone)
  · exact fun s h port rid data => does_pcieMsiWrite_idle
  · exact fun s h port gen log2w a b => does_pcieLinkTrained_up
  · exact fun s h port gen log2w => does_pcieLinkTrained_down
  · exact fun s h ch st a => does_canFault_new
  · exact fun s h ch st => does_canFault_same

end Sys2Proof.Machine

namespace Sys2Proof.Machine

/-! One step of the block (log entries 1 and 43). -/

theorem step_cons (c : Instr) (cs : List Instr) (h : Hw) : step ⟨c :: cs, h⟩ = exec c ⟨cs, h⟩ := rfl

theorem step_nil (h : Hw) : step ⟨[], h⟩ = .next ⟨[], h⟩ := rfl

/-- Settles O56: a step looks at nothing but the front of the queue. -/
theorem stepRunsTheFrontCommand : Obligations.StepRunsTheFrontCommand := by
  constructor
  · rintro c cs ⟨_, h⟩ rfl
    exact step_cons c cs h
  · rintro ⟨_, h⟩ rfl
    exact step_nil h

end Sys2Proof.Machine

namespace Sys2Proof.Machine

open Sys2Proof

/-! The posting of a completion (R209, R211). -/

section
variable {h : Hw} {pid q : Nat} {c : Cmd}

theorem Hw.post_none (hnone : h.toPost pid q = none) : h.post pid q = h := by
  simp only [Hw.post, hnone]

theorem Hw.post_unfinished (hc : h.toPost pid q = some c) (hentry : c.entry = none) : h.post pid q = h := by
  simp only [Hw.post, hc, hentry]

/-- A finished command is posted: its addition, the queue's count, the pairs of the Datums, its entry, and the vector. -/
theorem Hw.post_finished {e : Entry} {a b d : Hw} (hc : h.toPost pid q = some c) (hentry : c.entry = some e)
    (ha : a = ((h.sobOnDone c e.status).modQueue pid q fun x => { x with nPosted := (x.nPosted + 1) % 2 ^ 32 }).modCmd
      pid q c.num fun x => { x with posted := true })
    (hb : b = if c.seq = 0 then a else a.setMram pid q fun m => { m with post := c.seq })
    (hd : d = (b.writeEntry c e).writeMirror pid q) : h.post pid q =
      if c.notify = true then d.raiseVector pid (((d.queue pid q).map (·.desc.vector)).getD 0) else d := by
  simp only [Hw.post, hc, hentry, hd, hb, ha]

end

section
variable {s : State} {h : Hw} {pid : Fin 256} {queue : Fin 16} (hs : s.hw = h)
include hs

theorem does_completionPost {h' : Hw} (hruns : h.sequencing = true) (hopen : h.quiet = false)
    (hpost : h.post pid.val queue.val = h') : Does (.completionPost pid queue) s fun x => x = h' := by
  refine does_of_next (execCompletionPost pid queue s) hs rfl rfl ?_
  rw [hruns, hopen]
  exact hpost

theorem does_completionPost_idle
    (hidle : h.sequencing = false ∨ h.quiet = true ∨ h.toPost pid.val queue.val = none) :
    Does (.completionPost pid queue) s fun x => x = h := by
  refine does_of_next (execCompletionPost pid queue s) hs rfl rfl ?_
  rcases hidle with hstop | hquiet | hnone
  · rw [hstop, Bool.false_and, if_neg Bool.false_ne_true]
  · rw [hquiet, Bool.not_true, Bool.and_false, if_neg Bool.false_ne_true]
  · rw [Hw.post_none hnone, ite_self]

end

/-! The stop of a command processor (R225, R384), and the takeover of its queues (R217, R218). -/

section
variable {s : State} {h a b : Hw} {cp by_ : Fin 4} {kind : Fin 3} (hs : s.hw = h)
include hs

/-- A mismatch that the comparators see, or an error in the processor's own memories, stops it with the kind as cause. -/
theorem does_cpLockstepMismatch_stops (hhub : h.hubOn = true) (hown : kind.val ≠ 2)
    (hruns : h.cpRuns cp.val = true) (hseen : kind.val ≠ 0 ∨ h.comparatorsOff = false) :
    Does (.cpLockstepMismatch cp kind) s fun x =>
      x = (h.stopCp cp.val kind.val).detect (if kind.val = 0 then 0x02 else 0x03) none 0 := by
  refine does_of_next (execCpLockstepMismatch cp kind s) hs rfl rfl ?_
  have hstops : (! h.cpRuns cp.val || (kind.val == 0 && h.comparatorsOff)) = false := by
    rcases hseen with hkind | hcompare
    · rw [hruns, beq_false_of_ne hkind]; rfl
    · rw [hruns, hcompare, Bool.and_false]; rfl
  rw [hhub, hstops, Bool.not_true, if_neg Bool.false_ne_true, if_neg hown, if_neg Bool.false_ne_true]

/-- An error in the journal engine's memories or the system-cache tags stops no processor (R384). -/
theorem does_cpLockstepMismatch_shared (hhub : h.hubOn = true) (hshared : kind.val = 2) :
    Does (.cpLockstepMismatch cp kind) s fun x => x = h.detect 0x03 none 0 := by
  refine does_of_next (execCpLockstepMismatch cp kind s) hs rfl rfl ?_
  rw [hhub, Bool.not_true, if_neg Bool.false_ne_true, if_pos hshared]

theorem does_cpLockstepMismatch_idle (hidle : h.hubOn = false ∨
    (kind.val ≠ 2 ∧ h.cpRuns cp.val = false) ∨ (kind.val = 0 ∧ h.comparatorsOff = true)) :
    Does (.cpLockstepMismatch cp kind) s fun x => x = h := by
  refine does_of_next (execCpLockstepMismatch cp kind s) hs rfl rfl ?_
  rcases hidle with hhub | ⟨hown, hstopped⟩ | ⟨hkind, hcompare⟩
  · rw [hhub, Bool.not_false, if_pos rfl]
  · rw [if_neg hown, hstopped, Bool.not_false, Bool.true_or, if_pos rfl, ite_self]
  · have hown : kind.val ≠ 2 := hkind.trans_ne (by decide)
    rw [if_neg hown, hkind, hcompare, beq_self_eq_true, Bool.and_self, Bool.or_true, if_pos rfl, ite_self]

theorem does_cpWatchdog_stops (hhub : h.hubOn = true) (hruns : h.cpRuns cp.val = true) :
    Does (.cpWatchdog cp) s fun x => x = h.stopCp cp.val 2 :=
  does_of_next (execCpWatchdog cp s) hs rfl rfl (if_pos (by rw [hhub, hruns, Bool.and_self]))

theorem does_cpWatchdog_idle (hidle : h.hubOn = false ∨ h.cpRuns cp.val = false) :
    Does (.cpWatchdog cp) s fun x => x = h := by
  refine does_of_next (execCpWatchdog cp s) hs rfl rfl (if_neg ?_)
  rwa [Bool.and_eq_true, not_and_or, Bool.not_eq_true, Bool.not_eq_true]

/-- A running processor takes the queues of a stopped one that no other has taken. -/
theorem does_cpTakeover_takes (hhub : h.hubOn = true) (hseq : h.sequencing = true)
    (hstopped : h.get (F.CP_STATUS_STATE.blk cp.val) = 1) (hruns : h.cpRuns by_.val = true)
    (hfirst : h.on (F.CP_INT_STATUS_TAKEOVER.blk cp.val) = false)
    (ha : a = ((((h.put F.JNL_RECOVERY_RERUN 0).put F.JNL_RECOVERY_REPOSTED 0).put F.JNL_RECOVERY_ABORTED 0).dropFetched
      fun f => f.cp == cp.val).put (F.CP_INT_STATUS_TAKEOVER.blk cp.val) 1)
    (hb : b = a.rerun fun c => c.port == 3 + cp.val || (c.port == 2 && a.on (F.CP_STATUS_OWNER_Q.blk cp.val))) :
    Does (.cpTakeover cp by_) s fun x => x = (if b.on (F.CP_STATUS_OWNER_Q.blk cp.val) = true then
      (b.put (F.CP_STATUS_OWNER_Q.blk cp.val) 0).put (F.CP_STATUS_OWNER_Q.blk by_.val) 1 else b).recoverQueues.event
        (srcCp cp.val) 0x090A 0 by_.val := by
  subst hb ha
  refine does_of_next (execCpTakeover cp by_ s) hs rfl rfl (if_neg ?_)
  rw [hhub, hseq, hstopped, hruns, hfirst]
  decide

theorem does_cpTakeover_idle (hidle : h.hubOn = false ∨ h.sequencing = false ∨
    h.get (F.CP_STATUS_STATE.blk cp.val) ≠ 1 ∨ h.cpRuns by_.val = false ∨
    h.on (F.CP_INT_STATUS_TAKEOVER.blk cp.val) = true) : Does (.cpTakeover cp by_) s fun x => x = h := by
  refine does_of_next (execCpTakeover cp by_ s) hs rfl rfl (if_pos ?_)
  simpa only [Bool.or_eq_true, Bool.not_eq_true', decide_eq_true_eq, or_assoc] using hidle

end

/-- Settles O23: what posting does by the state of the next command, and each fault of a processor by its kind. -/
theorem completionsAndProcessorFaults : Obligations.CompletionsAndProcessorFaults := by
  refine ⟨?_, ?_, ?_, ?_, ?_, ?_, ?_, ?_, ?_, ?_, ?_⟩
  · intro s h pid queue c e a b d hs hruns hopen hc hentry ha hb hd
    exact does_completionPost hs hruns hopen (Hw.post_finished hc hentry ha hb hd)
  · intro s h pid queue c hs hruns hopen hc hentry
    exact does_completionPost hs hruns hopen (Hw.post_unfinished hc hentry)
  · exact fun s h pid queue => does_completionPost_idle
  · intro s h cp kind hs hhub hkind hruns hcompare
    have hstops := does_cpLockstepMismatch_stops hs hhub (kind := kind) (by omega) hruns (.inr hcompare)
    rwa [hkind, if_pos rfl] at hstops
  · intro s h cp kind hs hhub hkind hruns
    have hstops := does_cpLockstepMismatch_stops hs hhub (kind := kind) (by omega) hruns (.inl (by omega))
    rwa [hkind, if_neg Nat.one_ne_zero] at hstops
  · exact fun s h cp kind => does_cpLockstepMismatch_shared
  · exact fun s h cp kind => does_cpLockstepMismatch_idle
  · exact fun s h cp => does_cpWatchdog_idle
  · exact fun s h cp => does_cpWatchdog_stops
  · exact fun s h cp by_ a b => does_cpTakeover_takes
  · exact fun s h cp by_ => does_cpTakeover_idle

end Sys2Proof.Machine

namespace Sys2Proof.Machine

open Sys2Proof

/-! The inputs (R506, R528). -/

section
variable {h : Hw} {j2 : Bool} {mv : Nat} {f g : Fld} (hf : f = if j2 then F.PWR_STATUS_J2_OK else F.PWR_STATUS_J1_OK)
  (hg : g = if j2 then F.PWR_INPUT_J2_MV else F.PWR_INPUT_J1_MV)
include hf hg

theorem Hw.setInput_stays (hstays : (h.on f && ! inputOk j2 mv) = false) :
    h.setInput j2 mv = (false, (h.put f (b2n (inputOk j2 mv))).put g mv) := by
  subst hf hg
  simp only [Hw.setInput, hstays, Bool.false_eq_true, if_false]

/-- An input leaves its range: it was in range and no longer is. -/
theorem Hw.setInput_leaves (hwas : h.on f = true) (hout : inputOk j2 mv = false) :
    h.setInput j2 mv = (true, ((h.put f 0).put g mv).put F.PWR_INT_STATUS_INPUT_RANGE 1) := by
  subst hf hg
  simp only [Hw.setInput, hwas, hout, Bool.not_false, Bool.and_self, if_true, b2n]
  rfl

end

theorem does_inputRange {s : State} {h k : Hw} {j2 left : Bool} {mv : BitVec 17} (hs : s.hw = h)
    (hset : h.setInput j2 mv.toNat = (left, k)) : Does (.inputRange j2 mv) s fun x =>
      x = if left = true then k.event srcPower 0x0602 0 (b2n j2 + mv.toNat * 256) else k := by
  refine does_of_next (execInputRange j2 mv s) hs rfl rfl ?_
  rw [hset]

/-! Rails (R515, R527, R573). -/

/-- Showing a rail's fault leaves the freeze bit as it is. -/
theorem Hw.frozen_showRail (h : Hw) (k : Nat) :
    ((h.put (F.PWR_RAIL_FAULT_FAULT.bit k) 1).put F.PWR_INT_STATUS_RAIL 1).on F.DBG_STATUS_FROZEN =
      h.on F.DBG_STATUS_FROZEN := by
  rw [Hw.on, Hw.get_put_block _ _ _ _ (by decide) (by decide) (by decide),
    Hw.get_put_block h (F.PWR_RAIL_FAULT_FAULT.bit k) _ _ (show 0x30 < 0x10000 by decide) (by decide)
      (show 0x7C0 ≠ 0x1 by decide), Hw.on]

section
variable {s : State} {h : Hw} {k : Fin 48} (hs : s.hw = h)
include hs

/-- In a domain that is on and that no loss sequence is switching off, a fault is shown, and acts unless frozen. -/
theorem does_railFault_shows {a : Hw} (hon : h.domainOn k.val = true)
    (hkept : (h.sys.lost.isSome && j1Domains.contains k.val) = false)
    (ha : a = (h.put (F.PWR_RAIL_FAULT_FAULT.bit k.val) 1).put F.PWR_INT_STATUS_RAIL 1) :
    Does (.railFault k) s fun x => x = if h.on F.DBG_STATUS_FROZEN = true then a
      else (a.event srcPower 0x0606 0 k.val).railReaction k.val := by
  refine does_of_next (execRailFault k s) hs rfl rfl ?_
  rw [hon, hkept, Bool.not_true, Bool.or_self, if_neg Bool.false_ne_true, ha]
  simp only [Hw.frozen_showRail]

theorem does_railFault_idle
    (hidle : h.domainOn k.val = false ∨ (h.sys.lost.isSome = true ∧ j1Domains.contains k.val = true)) :
    Does (.railFault k) s fun x => x = h := by
  refine does_of_next (execRailFault k s) hs rfl rfl (if_pos ?_)
  rwa [Bool.or_eq_true, Bool.not_eq_true', Bool.and_eq_true]

end

/-! Main-power loss (R220, R512, R573, R581). -/

section
variable {h u : Hw}

theorem Hw.mainPowerLoss_ignored (hover : h.sys.lost.isSome = true ∨ h.mode = 0) : h.mainPowerLoss = h := by
  rw [Hw.mainPowerLoss, if_pos]
  rwa [Bool.or_eq_true, decide_eq_true_eq]

section
variable (hlost : h.sys.lost = none) (hmode : h.mode ≠ 0)
include hlost hmode

theorem Hw.loss_detectable : ¬ (h.sys.lost.isSome || decide (h.mode = 0)) = true := by
  rw [hlost, decide_eq_false hmode]
  exact Bool.false_ne_true

theorem Hw.mainPowerLoss_frozen (hfrozen : h.on F.DBG_STATUS_FROZEN = true) : h.mainPowerLoss =
    (({ h with sys := { h.sys with lost := some h.now, lossStage := 3 } } : Hw).switchAll (List.range 48) false).put
      F.MOD_MODE_MODE 0 := by
  rw [Hw.mainPowerLoss, if_neg (Hw.loss_detectable hlost hmode), if_pos hfrozen]

/-- The loss is noted on the state without a freeze of this stroke, which is not performed (R581). -/
theorem Hw.mainPowerLoss_noted (hfrozen : h.on F.DBG_STATUS_FROZEN = false)
    (hu : u = if h.sys.frozenAt = some h.now then { h with seqStopped := false, sys := { h.sys with frozenAt := none } } else h) :
    h.mainPowerLoss = ((({ u with
      sys := { u.sys with lost := some u.now, lossStage := 0 }
      trv := { u.trv with hubReason := some (0x0A, u.now) } } : Hw).switch 46 false).followCams.event
        srcPower 0x0601 0 0).detect 0x0A none 0 := by
  rw [Hw.mainPowerLoss, if_neg (Hw.loss_detectable hlost hmode), if_neg (by simp [hfrozen]), hu]

end

end

section
variable {s : State} {h a h' : Hw} {gotA gotB : Bool} {t : Nat} (hs : s.hw = h)
include hs

/-- Both losses of J1 act alike, on the state in which its voltage is measured. -/
theorem does_j1Loss {c : Instr} {mv : BitVec 17} (hc : c = .mainPowerLoss mv ∨ c = .j1Overvoltage mv)
    (ha : a = (h.setInput false mv.toNat).2) (hloss : a.mainPowerLoss = h') : Does c s fun x => x = h' := by
  subst ha
  rcases hc with rfl | rfl
  · exact does_of_next (execMainPowerLoss mv s) hs rfl rfl hloss
  · exact does_of_next (execJ1Overvoltage mv s) hs rfl rfl hloss

theorem does_returnCurrentStop (ha : a = h) (hloss : a.mainPowerLoss = h') :
    Does .returnCurrentStop s fun x => x = h' :=
  does_of_next (execReturnCurrentStop s) hs rfl rfl (ha ▸ hloss)

theorem does_lossSequenceStage_due (hlost : h.sys.lost = some t)
    (hstage : h.sys.lossStage < 3) (hdue : t + lossAt h.sys.lossStage ≤ h.now) :
    Does (.lossSequenceStage gotA gotB) s fun x =>
      x = ({ h with sys := { h.sys with lossStage := h.sys.lossStage + 1 } } : Hw).lossStep h.sys.lossStage gotA gotB := by
  refine does_of_next (execLossSequenceStage gotA gotB s) hs rfl rfl ?_
  simp only [hlost]
  exact if_neg (by omega)

theorem does_lossSequenceStage_idle
    (hidle : ∀ t, h.sys.lost = some t → 3 ≤ h.sys.lossStage ∨ h.now < t + lossAt h.sys.lossStage) :
    Does (.lossSequenceStage gotA gotB) s fun x => x = h := by
  refine does_of_next (execLossSequenceStage gotA gotB s) hs rfl rfl ?_
  cases hlost : h.sys.lost with
  | none => rfl
  | some t => exact if_pos (hidle t hlost)

end

/-! The loss of J2 (R400). -/

section
variable {s : State} {h a b : Hw} {mv : BitVec 17} (hs : s.hw = h) (ha : a = (h.setInput true mv.toNat).2)
include hs ha

theorem does_aux12Loss_unsupplied (hA : a.domainOn 36 = false) (hB : a.domainOn 39 = false) :
    Does (.aux12Loss mv) s fun x => x = a := by
  subst ha
  refine does_of_next (execAux12Loss mv s) hs rfl rfl (if_pos ?_)
  rw [hA, hB, Bool.not_false, Bool.and_self]

/-- With a Datum's supply on, both Datums go down and what was detected is dropped; the hub keeps the reason MAIN_POWER,
and no other. -/
theorem does_aux12Loss_supplied {d : Hw} (hsupplied : a.domainOn 36 = true ∨ a.domainOn 39 = true)
    (hb : b = ((a.switchAll [36, 37, 38, 39, 40, 41, 47] false).downDatum 0).downDatum 1)
    (hreason : (∃ t, b.trv.hubReason = some (0x0A, t)) ∧ d = b ∨ (∀ t, b.trv.hubReason ≠ some (0x0A, t)) ∧
      d = { b with trv := { b.trv with hubReason := some (0x06, b.now) } }) :
    Does (.aux12Loss mv) s fun x => x = { d with detected := [] } := by
  have hon : ¬ (! a.domainOn 36 && ! a.domainOn 39) = true := by
    simpa only [Bool.and_eq_true, Bool.not_eq_true', not_and_or, Bool.not_eq_false] using hsupplied
  refine does_of_next (execAux12Loss mv s) hs rfl rfl ?_
  simp only [← ha, if_neg hon, ← hb]
  rcases hreason with ⟨⟨t, hmain⟩, rfl⟩ | ⟨hother, rfl⟩
  · simp only [hmain]
  · split
    next t hmain => exact absurd hmain (hother t)
    next => rfl

end

/-- Settles O26: each input by whether it leaves its range, each loss by what is known of it before. -/
theorem powerInputsAndLoss : Obligations.PowerInputsAndLoss := by
  refine ⟨?_, ?_, ?_, ?_, ?_, ?_, ?_, ?_, ?_, ?_, ?_, ?_, ?_, ?_, ?_, ?_, ?_, ?_, ?_⟩
  · intro s h j2 mv f g hs hf hg hstays
    exact does_inputRange hs (Hw.setInput_stays hf hg hstays)
  · intro s h j2 mv f g hs hf hg hwas hout
    exact does_inputRange hs (Hw.setInput_leaves hf hg hwas hout)
  · intro s h k a hs hon hkept hfrozen ha
    have hshows := does_railFault_shows hs hon hkept ha
    rwa [hfrozen, if_neg Bool.false_ne_true] at hshows
  · intro s h k a hs hon hkept hfrozen ha
    have hshows := does_railFault_shows hs hon hkept ha
    rwa [hfrozen, if_pos rfl] at hshows
  · exact fun s h k => does_railFault_idle
  · intro s h mv a u hs ha hlost hmode hfrozen hu
    exact does_j1Loss hs (.inl rfl) ha (Hw.mainPowerLoss_noted hlost hmode hfrozen hu)
  · intro s h mv a u hs ha hlost hmode hfrozen hu
    exact does_j1Loss hs (.inr rfl) ha (Hw.mainPowerLoss_noted hlost hmode hfrozen hu)
  · intro s h a u hs ha hlost hmode hfrozen hu
    exact does_returnCurrentStop hs ha (Hw.mainPowerLoss_noted hlost hmode hfrozen hu)
  · intro s h mv a hs ha hlost hmode hfrozen
    exact does_j1Loss hs (.inl rfl) ha (Hw.mainPowerLoss_frozen hlost hmode hfrozen)
  · intro s h mv a hs ha hover
    exact does_j1Loss hs (.inl rfl) ha (Hw.mainPowerLoss_ignored hover)
  · intro s h mv a hs ha hlost hmode hfrozen
    exact does_j1Loss hs (.inr rfl) ha (Hw.mainPowerLoss_frozen hlost hmode hfrozen)
  · intro s h mv a hs ha hover
    exact does_j1Loss hs (.inr rfl) ha (Hw.mainPowerLoss_ignored hover)
  · intro s h a hs ha hlost hmode hfrozen
    exact does_returnCurrentStop hs ha (Hw.mainPowerLoss_frozen hlost hmode hfrozen)
  · intro s h a hs ha hover
    exact does_returnCurrentStop hs ha (Hw.mainPowerLoss_ignored hover)
  · exact fun s h gotA gotB t => does_lossSequenceStage_due
  · exact fun s h gotA gotB => does_lossSequenceStage_idle
  · intro s h mv a b d hs ha hsupplied hb hother hd
    exact does_aux12Loss_supplied hs ha hsupplied hb (.inr ⟨hother, hd⟩)
  · intro s h mv a b t hs ha hsupplied hb hmain
    exact does_aux12Loss_supplied hs ha hsupplied hb (.inl ⟨⟨t, hmain⟩, rfl⟩)
  · intro s h mv a hs ha hA hB
    exact does_aux12Loss_unsupplied hs ha hA hB

end Sys2Proof.Machine

namespace Sys2Proof.Machine

open Sys2Proof

/-! Job packets (R240, R241, R479, R481, R595, R597). -/

section
variable {h : Hw} {sp : OpSpec} {q : QRef} {p : Packet} {qu : Queue} {c : Cmd} {b : Hw}

/-- A packet that is accepted now is taken from its queue. -/
theorem Taking.takeNext (htaking : Taking h sp q p qu c b) : (h.takeNext sp q (rowPacket sp.opc p)).2 = b := by
  obtain ⟨-, hqueue, hfree, hcomes, hcmd, hadmitted, hnorival, hstate⟩ := htaking
  obtain ⟨g, hg⟩ := Option.isSome_iff_exists.mp hcomes
  have hcame : cameHw h q qu (rowPacket sp.opc p) = g := by rw [cameHw, hg, Option.getD_some]
  rw [hcame] at hcmd hadmitted
  simp only [Hw.takeNext, hfree, Bool.false_eq_true, if_false, hqueue, hg]
  rw [Hw.judge_accepts hadmitted hcmd hnorival, hstate, takenHw, hcame, ← hcmd]

/-- Where a submission is placed is in its packet alone. -/
theorem Taking.subPlace_eq (htaking : Taking h sp q p qu c b) :
    subPlace (mkCmd h q qu (rowPacket sp.opc p) 0) = subPlace c := by
  rw [htaking.isCmd]
  rfl

theorem Hw.groupSubmit_local {pkt : Packet} (hlocal : subPlace (mkCmd h q qu pkt 0) = 0) :
    h.groupSubmit q qu pkt = false := by
  simp only [Hw.groupSubmit, hlocal, ne_eq, not_true_eq_false, decide_false, Bool.false_and]

theorem submitAccepted_local (gseq : Nat) (hlocal : subPlace c = 0) :
    (h.registerGate c).jobFor c ∈ (submitAccepted gseq h c).jobs := by
  rw [submitAccepted, if_pos hlocal]
  exact List.mem_append_right _ (List.mem_singleton_self _)

/-- A submission that is accepted now is taken, unless it is one to the group, which is held. -/
theorem does_jobSubmit {st : State} {h' : Hw} {P : Hw → Prop} (htaking : Taking st.hw specJobSubmit q p qu c b)
    (hends : (if st.hw.groupSubmit q qu (rowPacket 0x40 p) then st.hw.holdSubmit q (rowPacket 0x40 p) else b) = h')
    (hP : P h') : Does (.jobSubmit q p) st P := by
  have hcomes : (st.hw.presented q qu (rowPacket 0x40 p)).isSome = true := htaking.comes
  have htaken : (st.hw.takeNext specJobSubmit q (rowPacket 0x40 p)).2 = b := htaking.takeNext
  refine ⟨h', ?_, hP⟩
  show execJobSubmit q p st = _
  rw [execJobSubmit, State.next, ← hends]
  simp only [htaking.queue, htaking.presents, htaking.free, Bool.not_true, Bool.or_self, Bool.false_eq_true, if_false,
    hcomes, Bool.and_true, htaken]

end

section
variable {b : Hw} {c : Cmd}

theorem jobCancel_local {j : Job} (hjob : b.jobBySeq c.pid (c.f 16 6) = some j) : jobCancel b c =
    (b.modJob j.pid j.queue j.num fun j => { j with cancelled := some (j.cancelled.getD c.seq) }).done c 1 := by
  simp only [jobCancel, hjob]

section
variable (hnone : b.jobBySeq c.pid (c.f 16 6) = none)
include hnone

theorem jobCancel_group {g : GJob} {k : Hw} (hgroup : b.gjobBySeq c.pid (c.f 16 6) = some g)
    (hk : k = { b with sys := { b.sys with grp := { b.sys.grp with jobs := b.sys.grp.jobs.map fun x =>
      if x.gseq = g.gseq then { x with cancelled := some (x.cancelled.getD c.seq) } else x } } }) :
    jobCancel b c = k.done c 1 := by
  simp only [jobCancel, hnone, hgroup, hk]

theorem jobCancel_unknown (hgroup : b.gjobBySeq c.pid (c.f 16 6) = none) : jobCancel b c = b.done c 0 := by
  simp only [jobCancel, hnone, hgroup]

end

end

/-- Settles O4: a submission by its acceptance, a cancellation and a query by the job that their number names. -/
theorem packetJobs : Obligations.PacketJobs := by
  refine ⟨?_, ?_, ?_, ?_, ?_, ?_, ?_, ?_⟩
  · intro st q p qu c b htaking hlocal
    have hgroup : st.hw.groupSubmit q qu (rowPacket 0x40 p) = false :=
      Hw.groupSubmit_local (htaking.subPlace_eq.trans hlocal)
    have haccepted : b = submitAccepted 0 ((cameHw st.hw q qu (rowPacket 0x40 p)).take c (slotsOf (rowPacket 0x40 p))) c := by
      rw [htaking.state, takenHw, htaking.isCmd]
      rfl
    refine does_jobSubmit htaking (if_neg (hgroup ▸ Bool.false_ne_true)) ⟨rfl, ?_⟩
    rw [haccepted]
    exact ⟨_, submitAccepted_local 0 hlocal, rfl, rfl, rfl, rfl, rfl, rfl, rfl, rfl, rfl⟩
  · intro st q p qu c b htaking hgroup
    exact does_jobSubmit htaking (if_pos hgroup) rfl
  · intro st q p qu c b j hacting hjob
    exact does_of_acting (execJobCancel q p st) hacting rfl rfl (jobCancel_local hjob)
      (acting_ends_of_cmds hacting (Hw.modJob_cmds _ _ _ _ _) 0 1 0)
  · intro st q p qu c b g k hacting hnone hgroup hk
    have hcmds : k.cmds = b.cmds := by rw [hk]
    exact does_of_acting (execJobCancel q p st) hacting rfl rfl (jobCancel_group hnone hgroup hk)
      (acting_ends_of_cmds hacting hcmds 0 1 0)
  · intro st q p qu c b hacting hnone hgroup
    exact does_of_acting (execJobCancel q p st) hacting rfl rfl (jobCancel_unknown hnone hgroup)
      (acting_ends hacting 0 0 0)
  · intro st q p qu c b j hacting hjob
    exact does_of_acting (execJobQuery q p st) hacting rfl rfl (by simp only [hjob]; rfl) (acting_ends hacting 0 _ 0)
  · intro st q p qu c b g hacting hnone hgroup
    exact does_of_acting (execJobQuery q p st) hacting rfl rfl (by simp only [hnone, hgroup]; rfl)
      (acting_ends hacting 0 _ 0)
  · intro st q p qu c b hacting hnone hgroup
    exact does_of_acting (execJobQuery q p st) hacting rfl rfl (by simp only [hnone, hgroup]; rfl)
      (acting_ends hacting 0 _ 0)

end Sys2Proof.Machine

namespace Sys2Proof.Machine

open Sys2Proof

/-! Rows that act while a condition of the module holds. -/

section
variable {c : Instr} {s : State} {h h' : Hw} {on : Hw → Bool} {f : Hw → Hw}

theorem does_while_on (e : Host.Outcome State Fault Refusal) (hs : s.hw = h) (hexec : exec c s = e)
    (hnext : e = s.next fun h => if on h then f h else h) (hon : on h = true) (hf : f h = h') :
    Does c s fun x => x = h' :=
  does_of_next e hs hexec hnext ((if_pos hon).trans hf)

theorem does_while_idle (e : Host.Outcome State Fault Refusal) (hs : s.hw = h) (hexec : exec c s = e)
    (hnext : e = s.next fun h => if on h then f h else h) (hidle : on h = false ∨ f h = h) :
    Does c s fun x => x = h := by
  refine does_of_next e hs hexec hnext ?_
  rcases hidle with hoff | hsame
  · exact if_neg (hoff ▸ Bool.false_ne_true)
  · exact (congrArg (ite _ · h) hsame).trans (ite_self h)

end

/-! Beginning a job (R234, R236, R241). -/

/-- The head of an activity, when nothing but its images and their windows can hold it up (R241). -/
structure Startable (h : Hw) (pid act : Nat) (j : Job) : Prop where
  head : h.actHead act = some j
  owned : j.pid = pid
  fresh : j.begun = none
  turn : h.mayBegin j = true
  on : h.actOn act = true
  fed : h.isShed pid = false
  wanted : j.cancelled = none
  unfailed : j.fail = none
  fired : h.gateFired j = true

section
variable {h : Hw} {pid act : Nat} {j : Job} {m : Model}

theorem Hw.tryBegin_blocked (hhead : h.actHead act = some j)
    (hblocked : j.pid ≠ pid ∨ j.begun.isSome = true ∨ h.mayBegin j = false ∨ h.actOn act = false ∨ h.isShed pid = true ∨
      j.cancelled.isSome = true ∨ j.fail.isSome = true ∨ h.gateFired j = false) : h.tryBegin pid act = h := by
  simp only [Hw.tryBegin, hhead]
  refine if_pos ?_
  simpa only [Bool.or_eq_true, Bool.not_eq_true', decide_eq_true_eq, or_assoc] using hblocked

theorem Hw.tryBegin_headless (hnone : h.actHead act = none) : h.tryBegin pid act = h := by
  simp only [Hw.tryBegin, hnone]

section
variable (hstart : Startable h pid act j)
include hstart

theorem Startable.not_blocked : ¬ (j.pid ≠ pid || j.begun.isSome || ! h.mayBegin j || ! h.actOn act || h.isShed pid ||
    j.cancelled.isSome || j.fail.isSome || ! h.gateFired j) = true := by
  rw [hstart.owned, hstart.fresh, hstart.turn, hstart.on, hstart.fed, hstart.wanted, hstart.unfailed, hstart.fired]
  simp

theorem Startable.tryBegin_installs (hmissing : (h.jobHandles j).filter (fun hd => ! h.resident pid hd) ≠ []) :
    h.tryBegin pid act =
      ((h.jobHandles j).filter fun hd => ! h.resident pid hd).foldl (fun x hd => x.install pid hd) h := by
  simp only [Hw.tryBegin, hstart.head, if_neg hstart.not_blocked, if_pos hmissing]

variable (hresident : (h.jobHandles j).filter (fun hd => ! h.resident pid hd) = [])
include hresident

theorem Startable.tryBegin_waits (hbusy : h.installingIn pid j.fragTag = true) : h.tryBegin pid act = h := by
  simp only [Hw.tryBegin, hstart.head, if_neg hstart.not_blocked, if_neg (not_not_intro hresident), if_pos hbusy]

theorem Startable.tryBegin_begins (hfree : h.installingIn pid j.fragTag = false) (hruns : h.runModel j = some m) :
    h.tryBegin pid act = h.beginJob j m := by
  simp only [Hw.tryBegin, hstart.head, if_neg hstart.not_blocked, if_neg (not_not_intro hresident), hfree,
    Bool.false_eq_true, if_false, hruns]

end

/-- A job named by a change of jobs has been changed. -/
theorem Hw.mem_modJob {p q n : Nat} {f : Job → Job} {x : Job} (hx : x ∈ (h.modJob p q n f).jobs) (hpid : x.pid = p)
    (hqueue : x.queue = q) (hnum : x.num = n) : ∃ y, x = f y := by
  obtain ⟨y, -, hy⟩ := List.mem_map.mp hx
  by_cases hnamed : (y.pid == p && y.queue == q && y.num == n) = true
  · exact ⟨y, hy.symm.trans (if_pos hnamed)⟩
  · obtain rfl : y = x := (if_neg hnamed).symm.trans hy
    simp [hpid, hqueue, hnum] at hnamed

theorem Hw.stampModels_now (hds : List Nat) (h : Hw) :
    (hds.foldl (fun h hd => h.modModel pid hd fun m => { m with useStamp := h.now }) h).now = h.now :=
  foldl_keeps Hw.now _ (fun h _ => Hw.modModel_now h _ _ _) hds h

/-- The stroke in which a job begins, and its progress then. -/
theorem Hw.beginJob_begun {x : Job} (hx : x ∈ (h.beginJob j m).jobs) (hpid : x.pid = j.pid) (hqueue : x.queue = j.queue)
    (hnum : x.num = j.num) : x.begun = some (((h.beginSubmit j).clearInputs j).writeArgs j m).now ∧ x.progress = [] ∧
      x.nextCp = 0 ∧ x.matched = 0 ∧ x.reports = [] ∧ x.redo = none := by
  obtain ⟨y, rfl⟩ := Hw.mem_modJob hx hpid hqueue hnum
  exact ⟨congrArg some (Hw.stampModels_now _ _), rfl, rfl, rfl, rfl, rfl⟩

end

/-! The deadline monitor (R244, R245, R247). -/

/-- A job that the monitor evaluates: it runs in an activity under a deadline, no mismatch of it is being resolved and no
redo of it has failed. -/
structure Monitored (h : Hw) (j : Job) (act dl : Nat) (m : Model) : Prop where
  placed : h.jobAct j = some act
  due : j.dl = some dl
  runs : h.runModel j = some m
  steady : j.redo = none
  matched : j.mismatchedOnce = false
  single : h.secondFailure j = false

section
variable {h : Hw} {j : Job} {act dl c r t : Nat} {m : Model}

theorem Hw.inBank_active (h : Hw) : h.inBank h.stn.active = h := rfl

theorem Hw.missStep_unmonitored (a : Nat) (hun : j.dl = none ∨ h.jobAct j = none ∨ h.runModel j = none ∨
    j.redo.isSome = true ∨ j.mismatchedOnce = true ∨ h.secondFailure j = true) : h.missStep h.stn.active a j = h := by
  unfold Hw.missStep
  rw [Hw.inBank_active]
  split
  next act dl m hact hdl hruns =>
    refine if_pos ?_
    rw [hact, hdl, hruns] at hun
    simpa only [reduceCtorEq, false_or, Bool.or_eq_true, or_assoc] using hun
  next => rfl

section
variable (hmon : Monitored h j act dl m)
include hmon

theorem Monitored.not_excused : ¬ (j.redo.isSome || j.mismatchedOnce || h.secondFailure j) = true := by
  rw [hmon.steady, hmon.matched, hmon.single]
  exact Bool.false_ne_true

theorem Monitored.missStep_again (a : Nat) (hmiss : j.miss = some (c, t)) :
    h.missStep h.stn.active a j = if t < h.now then h.actMiss h.stn.active j c else h := by
  simp only [Hw.missStep, Hw.inBank_active, hmon.placed, hmon.due, hmon.runs, if_neg hmon.not_excused, hmiss]

variable (hnew : j.miss = none)
include hnew

theorem Monitored.missStep_notes {c0 : Nat}
    (hlate : h.project j m act dl (h.now + 1) (m.miles.length + 2) j.nextCp = (c0, some c)) :
    h.missStep h.stn.active (h.now + 1) j = h.modJob j.pid j.queue j.num fun x => { x with miss := some (c, h.now) } := by
  simp only [Hw.missStep, Hw.inBank_active, hmon.placed, hmon.due, hmon.runs, if_neg hmon.not_excused, hnew, hlate,
    if_neg (Nat.succ_ne_self _)]

variable (hmet : h.project j m act dl (h.now + 1) (m.miles.length + 2) j.nextCp = (c, none))
include hmet

theorem Monitored.missStep_projects {k : Hw} (hk : k = h.modJob j.pid j.queue j.num fun x => { x with nextCp := c })
    (hleft : Hw.cpRemaining j m c = some r) : h.missStep h.stn.active (h.now + 1) j =
      if k.passedDue act r dl = true then k.modJob j.pid j.queue j.num fun x => { x with miss := some (c, k.now) } else k := by
  subst hk
  simp only [Hw.missStep, Hw.inBank_active, hmon.placed, hmon.due, hmon.runs, if_neg hmon.not_excused, hnew, hmet, hleft]
  rfl

theorem Monitored.missStep_advances (hleft : Hw.cpRemaining j m c = none) : h.missStep h.stn.active (h.now + 1) j =
    h.modJob j.pid j.queue j.num fun x => { x with nextCp := c } := by
  simp only [Hw.missStep, Hw.inBank_active, hmon.placed, hmon.due, hmon.runs, if_neg hmon.not_excused, hnew, hmet, hleft]

end

section
variable {b : Stencil} {u : Model} (hact : (h.inBank b).jobAct j = some act) (hdl : j.dl = some dl)
  (hm : h.model j.pid j.handle = some m)
include hact hdl hm

theorem Hw.actMiss_last (hlast : j.under = true ∨ m.hasUndercoat = false) : h.actMiss b j c =
    (h.event srcSeq 0x0304 j.pid j.seq).endJob j 0x3004 (c + if j.under = true then 0x100 else 0) := by
  have hfails : (j.under || ! m.hasUndercoat) = true := by
    rwa [Bool.or_eq_true, Bool.not_eq_true']
  simp only [Hw.actMiss, hact, hdl, hm, hfails, if_true]

theorem Hw.actMiss_undercoat (hmain : j.under = false) (hunder : m.hasUndercoat = true)
    (hu : h.model j.pid m.ucHandle = some u) : h.actMiss b j c =
      if (h.inBank b).passedDue act (u.jobLen j.batch) dl = true then
        (h.event srcSeq 0x0304 j.pid j.seq).endJob j 0x3004 c
      else h.switchJob j := by
  simp only [Hw.actMiss, hact, hdl, hm, hmain, hunder, hu, Bool.not_true, Bool.or_self, Bool.false_eq_true, if_false,
    Nat.add_zero]

end

end

section
variable {s : State} {h h' : Hw} {pid : Fin 256} {seq : BitVec 48} {j : Job} (hs : s.hw = h)
include hs

theorem does_deadlineMiss (hseq : h.sequencing = true) (hjob : h.jobBySeq pid.val seq.toNat = some j)
    (hstep : h.missStep h.stn.active (h.now + 1) j = h') : Does (.deadlineMiss pid seq) s fun x => x = h' := by
  refine does_while_on (execDeadlineMiss pid seq s) hs rfl rfl hseq ?_
  simp only [hjob, hstep]

theorem does_deadlineMiss_jobless (hidle : h.sequencing = false ∨ h.jobBySeq pid.val seq.toNat = none) :
    Does (.deadlineMiss pid seq) s fun x => x = h := by
  refine does_while_idle (execDeadlineMiss pid seq s) hs rfl rfl (hidle.imp_right fun hnone => ?_)
  simp only [hnone]

theorem does_deadlineMiss_same (hjob : h.jobBySeq pid.val seq.toNat = some j)
    (hsame : h.missStep h.stn.active (h.now + 1) j = h) : Does (.deadlineMiss pid seq) s fun x => x = h := by
  refine does_while_idle (execDeadlineMiss pid seq s) hs rfl rfl (.inr ?_)
  simp only [hjob, hsame]

end

/-! The copies of a `DUPLEX` job (R386, R389, R390). -/

section
variable {h : Hw} {pid seq copy k die : Nat} {j : Job}

theorem Hw.duplexReport_jobless (hnone : h.jobBySeq pid seq = none) : h.duplexReport pid seq copy k die = h := by
  simp only [Hw.duplexReport, hnone]

theorem Hw.duplexReport_unwanted (hjob : h.jobBySeq pid seq = some j)
    (hun : (h.runModel j).any (·.duplex) = false ∨ j.begun = none ∨ k < j.matched ∨ h.diePassed j copy die k = false ∨
      (j.reportsOf copy k).any (fun r => r.2.1 == die) = true) : h.duplexReport pid seq copy k die = h := by
  simp only [Hw.duplexReport, hjob]
  refine if_pos ?_
  simpa only [Bool.or_eq_true, Bool.not_eq_true', Option.isNone_iff_eq_none, decide_eq_true_eq, or_assoc] using hun

theorem Hw.duplexReport_joins (hjob : h.jobBySeq pid seq = some j) (hduplex : (h.runModel j).any (·.duplex) = true)
    (hbegun : j.begun.isSome = true) (hopen : j.matched ≤ k) (hpassed : h.diePassed j copy die k = true)
    (hfirst : (j.reportsOf copy k).any (fun r => r.2.1 == die) = false) : h.duplexReport pid seq copy k die =
      (h.modJob j.pid j.queue j.num fun x => { x with reports := x.reports ++
        [(copy, die, k, (h.copyTiles j copy die).length, h.dieSum j copy die k, h.now)] }).compareCopies pid seq 3 := by
  have hnone : j.begun.isNone = false := by rw [← Option.not_isSome, hbegun, Bool.not_true]
  simp only [Hw.duplexReport, hjob, hduplex, hnone, decide_eq_false (Nat.not_lt.mpr hopen), hpassed, hfirst, Bool.not_true,
    Bool.or_self, Bool.false_eq_true, if_false]

theorem Hw.compareCopies_totals {a b : Nat} (n : Nat) (hjob : h.jobBySeq pid seq = some j) (hredo : j.redo = none)
    (ha : h.copyTotal j 0 j.matched = some a) (hb : h.copyTotal j 1 j.matched = some b) :
    h.compareCopies pid seq (n + 1) = if a = b then
        (if ((h.matchStroke j j.matched).heldOf j j.matched).isEmpty = true then
          ((h.matchStroke j j.matched).settleDone j.pid j.queue j.num).compareCopies pid seq n
         else h.matchStroke j j.matched)
      else h.mismatchStroke j j.matched := by
  simp only [Hw.compareCopies, hjob, hredo, Option.isSome_none, Bool.false_eq_true, if_false, ha, hb]

/-- A copy of a job has reported on all its dies, and the other copy's report has been out too long (R390). -/
def Overdue (h : Hw) (j : Job) (c : Nat) : Prop :=
  (h.copyTotal j c j.matched).isSome = true ∧
    (j.reportsOf c j.matched).all (fun r => decide (r.2.2.2.2.2 + 2100 ≤ h.now)) = true ∧
    h.copyTotal j (1 - c) j.matched = none

theorem Hw.duplexTimeout_jobless (hnone : h.jobBySeq pid seq = none) : h.duplexTimeout pid seq = h := by
  simp only [Hw.duplexTimeout, hnone]

theorem Hw.duplexTimeout_overdue {c : Nat} (hjob : h.jobBySeq pid seq = some j) (hredo : j.redo = none) (hc : c < 2)
    (hlate : Overdue h j c) : h.duplexTimeout pid seq = h.mismatchStroke j j.matched := by
  obtain ⟨htotal, hold, hother⟩ := hlate
  simp only [Hw.duplexTimeout, hjob]
  refine if_pos ?_
  rw [hredo]
  obtain rfl | rfl : c = 0 ∨ c = 1 := by omega
  · rw [htotal, hold, hother]
    rfl
  · rw [htotal, hold, hother]
    simp

theorem Hw.duplexTimeout_waits (hjob : h.jobBySeq pid seq = some j)
    (hwait : j.redo.isSome = true ∨ ∀ c, c < 2 → ¬ Overdue h j c) : h.duplexTimeout pid seq = h := by
  simp only [Hw.duplexTimeout, hjob]
  refine if_neg ?_
  simp only [Bool.and_eq_true, Bool.or_eq_true, Option.isNone_iff_eq_none]
  rintro ⟨hredo, ⟨⟨htotal, hold⟩, hother⟩ | ⟨⟨htotal, hold⟩, hother⟩⟩
  all_goals
    rw [hredo, Option.isSome_none] at hwait
    have hnever := hwait.resolve_left Bool.false_ne_true
  · exact hnever 0 (by omega) ⟨htotal, hold, hother⟩
  · exact hnever 1 (by omega) ⟨htotal, hold, hother⟩

end

/-! The end of an installation (R236), and the zeroing of a free sheet (R261). -/

/-- The load segments of the way in which an image is installed, each with the physical tile it is for. -/
def Hw.waySegs (h : Hw) (pid : Nat) (m : Model) : List (Nat × LoadSeg) :=
  (m.ways.getD m.way []).flatMap fun e => match h.physFor pid e.logical with
    | some t => e.loads.map fun l => (t, l)
    | none => []

section
variable {h k : Hw} {pid hd : Nat} {m : Model}

theorem Hw.finishInstall_unregistered (hnone : h.model pid hd = none) : h.finishInstall pid hd = h := by
  simp only [Hw.finishInstall, hnone]

section
variable (hm : h.model pid hd = some m)
include hm

theorem Hw.finishInstall_unready (hwait : m.state ≠ 1 ∨ m.installed < m.loadBytes) : h.finishInstall pid hd = h := by
  simp only [Hw.finishInstall, hm]
  exact if_neg (by omega)

variable (hinstalling : m.state = 1) (hloaded : m.loadBytes ≤ m.installed)
include hinstalling hloaded

theorem Hw.finishInstall_binds (hload : h.loadAll pid m.va (h.waySegs pid m) = .ok k) :
    h.finishInstall pid hd = (k.bindModel pid hd m).modModel pid hd fun x => { x with state := 2 } := by
  simp only [Hw.finishInstall, hm, if_pos (And.intro hinstalling hloaded)]
  split
  next k' hk =>
    obtain rfl : k' = k := Except.ok.inj (hk.symm.trans hload)
    rfl
  next a e k' hk => cases hk.symm.trans hload

theorem Hw.finishInstall_fails {a e : Nat} (hload : h.loadAll pid m.va (h.waySegs pid m) = .error (a, e, k)) :
    h.finishInstall pid hd = ((k.translationFault 0 e pid a).toRegistered pid hd).failWaiting pid hd
      (pageStatus (a, e)).1 (pageStatus (a, e)).2 := by
  simp only [Hw.finishInstall, hm, if_pos (And.intro hinstalling hloaded)]
  split
  next k' hk => cases hk.symm.trans hload
  next a' e' k' hk =>
    cases hk.symm.trans hload
    rfl

end

end

section
variable {h : Hw} {n : Nat}

theorem Hw.store_sheetDpa (h : Hw) (a : Nat) (bs : List Byte) (st : Bool) (n : Nat) :
    (h.store a bs st).sheetDpa n = h.sheetDpa n := by
  have hcfg : (h.store a bs st).cfg = h.cfg := congrArg (fun k => k.cfg) (Hw.calm_store h a bs st)
  simp only [Hw.sheetDpa, hcfg]

/-- A sheet does not move while it is written. -/
theorem Hw.foldl_store_sheetDpa (bs : List Byte) (st : Bool) (l : List Nat) {a : Nat} (hbase : h.sheetDpa n = a) :
    l.foldl (fun k i => k.store (k.sheetDpa n + 64 * i) bs st) h = l.foldl (fun k i => k.store (a + 64 * i) bs st) h := by
  induction l generalizing h with
  | nil => rfl
  | cons i l ih =>
    rw [List.foldl_cons, List.foldl_cons, hbase]
    exact ih ((Hw.store_sheetDpa h _ _ _ n).trans hbase)

theorem Hw.zeroSheet_free (hexists : h.sheetExists n = true) (howner : (h.sheet n).owner = 0)
    (hgaz : (h.sheet n).gaz = false) (hreserved : (h.sheet n).reserved = false) (href : (h.sheet n).ref = 0)
    (hdirty : (h.sheet n).zeroed = false) : h.zeroSheet n =
      ((List.range 1024).foldl (fun x i => x.store (h.sheetDpa n + 64 * i) (zeros 64) false) h).setSheet n SheetRec.free := by
  simp only [Hw.zeroSheet, hexists, howner, hgaz, hreserved, href, hdirty, beq_self_eq_true, Bool.not_false,
    Bool.and_self, if_true, Hw.foldl_store_sheetDpa _ _ _ rfl]

theorem Hw.zeroSheet_held (hheld : h.sheetExists n = false ∨ (h.sheet n).owner ≠ 0 ∨ (h.sheet n).gaz = true ∨
    (h.sheet n).reserved = true ∨ (h.sheet n).ref ≠ 0 ∨ (h.sheet n).zeroed = true) : h.zeroSheet n = h := by
  rw [Hw.zeroSheet]
  refine if_neg ?_
  simp only [Bool.and_eq_true, Bool.not_eq_true', beq_iff_eq]
  rintro ⟨⟨⟨⟨⟨hexists, howner⟩, hgaz⟩, hreserved⟩, href⟩, hdirty⟩
  simp [hexists, howner, hgaz, hreserved, href, hdirty] at hheld

end

/-- Settles O42: each row by the branch that its conditions choose. -/
theorem jobEvents : Obligations.JobEvents := by
  refine ⟨?_, ?_, ?_, ?_, ?_, fun h j m x => Hw.beginJob_begun, ?_, ?_, ?_, ?_, ?_, ?_,
    fun s h pid seq => does_deadlineMiss_jobless, fun h b j act dl cp m => Hw.actMiss_last,
    fun h b j act dl cp m u => Hw.actMiss_undercoat, ?_, ?_, ?_,
    fun h pid seq n a b j => Hw.compareCopies_totals n, ?_, ?_, ?_, ?_, ?_, ?_, ?_, ?_, ?_⟩
  · intro s h pid act j m hs hon hhead hpid hfresh hturn hact hfed hwanted hunfailed hfired hresident hfree hruns
    exact does_while_on (execJobBegin pid act s) hs rfl rfl hon
      (Startable.tryBegin_begins ⟨hhead, hpid, hfresh, hturn, hact, hfed, hwanted, hunfailed, hfired⟩ hresident hfree hruns)
  · intro s h pid act j xs hs hon hhead hpid hfresh hturn hact hfed hwanted hunfailed hfired hxs hmissing
    subst hxs
    exact does_while_on (execJobBegin pid act s) hs rfl rfl hon
      (Startable.tryBegin_installs ⟨hhead, hpid, hfresh, hturn, hact, hfed, hwanted, hunfailed, hfired⟩ hmissing)
  · intro s h pid act hs hidle
    exact does_while_idle (execJobBegin pid act s) hs rfl rfl (hidle.imp_right Hw.tryBegin_headless)
  · intro s h pid act j hs hhead hblocked
    exact does_while_idle (execJobBegin pid act s) hs rfl rfl (.inr (Hw.tryBegin_blocked hhead hblocked))
  · intro s h pid act j hs _ hhead hpid hfresh hturn hact hfed hwanted hunfailed hfired hresident hbusy
    exact does_while_idle (execJobBegin pid act s) hs rfl rfl (.inr
      (Startable.tryBegin_waits ⟨hhead, hpid, hfresh, hturn, hact, hfed, hwanted, hunfailed, hfired⟩ hresident hbusy))
  · intro s h pid seq j act dl c t m hs hseq hjob hplaced hdue hruns hsteady hmatched hsingle hmiss hpast
    exact does_deadlineMiss hs hseq hjob
      ((Monitored.missStep_again ⟨hplaced, hdue, hruns, hsteady, hmatched, hsingle⟩ _ hmiss).trans (if_pos hpast))
  · intro s h pid seq j act dl c t m hs hseq hjob hplaced hdue hruns hsteady hmatched hsingle hmiss hpresent
    exact does_deadlineMiss hs hseq hjob ((Monitored.missStep_again ⟨hplaced, hdue, hruns, hsteady, hmatched, hsingle⟩ _
      hmiss).trans (if_neg (Nat.not_lt.mpr hpresent)))
  · intro s h pid seq j act dl c c0 m hs hseq hjob hplaced hdue hruns hsteady hmatched hsingle hnew hlate
    exact does_deadlineMiss hs hseq hjob
      (Monitored.missStep_notes ⟨hplaced, hdue, hruns, hsteady, hmatched, hsingle⟩ hnew hlate)
  · intro s h pid seq j act dl c r m k hs hseq hjob hplaced hdue hruns hsteady hmatched hsingle hnew hmet hk hleft
    exact does_deadlineMiss hs hseq hjob
      (Monitored.missStep_projects ⟨hplaced, hdue, hruns, hsteady, hmatched, hsingle⟩ hnew hmet hk hleft)
  · intro s h pid seq j act dl c m hs hseq hjob hplaced hdue hruns hsteady hmatched hsingle hnew hmet hleft
    exact does_deadlineMiss hs hseq hjob
      (Monitored.missStep_advances ⟨hplaced, hdue, hruns, hsteady, hmatched, hsingle⟩ hnew hmet hleft)
  · intro s h pid seq j hs hjob hun
    exact does_deadlineMiss_same hs hjob (Hw.missStep_unmonitored _ hun)
  · intro s h pid seq copy k die hs hidle
    exact does_while_idle (execDuplexReport pid seq copy k die s) hs rfl rfl (hidle.imp_right Hw.duplexReport_jobless)
  · intro s h pid seq copy k die j hs hjob hun
    exact does_while_idle (execDuplexReport pid seq copy k die s) hs rfl rfl (.inr (Hw.duplexReport_unwanted hjob hun))
  · intro s h pid seq copy k die j hs hon hjob hduplex hbegun hopen hpassed hfirst
    exact does_while_on (execDuplexReport pid seq copy k die s) hs rfl rfl hon
      (Hw.duplexReport_joins hjob hduplex hbegun hopen hpassed hfirst)
  · intro s h pid seq j c hs hon hjob hredo hc htotal hold hother
    exact does_while_on (execDuplexReportTimeout pid seq s) hs rfl rfl hon
      (Hw.duplexTimeout_overdue hjob hredo hc ⟨htotal, hold, hother⟩)
  · intro s h pid seq hs hidle
    exact does_while_idle (execDuplexReportTimeout pid seq s) hs rfl rfl (hidle.imp_right Hw.duplexTimeout_jobless)
  · intro s h pid seq j hs hjob hwait
    exact does_while_idle (execDuplexReportTimeout pid seq s) hs rfl rfl (.inr (Hw.duplexTimeout_waits hjob hwait))
  · intro s h pid hd m k segs hs hon hm hinstalling hloaded hsegs hload
    subst hsegs
    exact does_while_on (execInstallationComplete pid hd s) hs rfl rfl hon
      (Hw.finishInstall_binds hm hinstalling hloaded hload)
  · intro s h pid hd m k a e segs hs hon hm hinstalling hloaded hsegs hload
    subst hsegs
    exact does_while_on (execInstallationComplete pid hd s) hs rfl rfl hon
      (Hw.finishInstall_fails hm hinstalling hloaded hload)
  · intro s h pid hd hs hidle
    exact does_while_idle (execInstallationComplete pid hd s) hs rfl rfl (hidle.imp_right Hw.finishInstall_unregistered)
  · intro s h pid hd m hs _ hm hwait
    exact does_while_idle (execInstallationComplete pid hd s) hs rfl rfl (.inr (Hw.finishInstall_unready hm hwait))
  · intro s h n hs hon hexists howner hgaz hreserved href hdirty
    exact does_while_on (execSheetZeroed n s) hs rfl rfl hon
      (Hw.zeroSheet_free hexists howner hgaz hreserved href hdirty)
  · intro s h n hs hidle
    exact does_while_idle (execSheetZeroed n s) hs rfl rfl (hidle.imp_right Hw.zeroSheet_held)

end Sys2Proof.Machine

namespace Sys2Proof.Machine

open Sys2Proof

/-! Page lists (R264): what reading and writing their entries leaves alone. -/

section
variable {h b k : Hw} {c : Cmd} {s : SeqRec} {i n : Nat}

theorem Hw.calm_readRun (h : Hw) (pid : Nat) (s : SeqRec) (layer i n : Nat) :
    (h.readRun pid s layer i n).2.calm = h.calm := by
  have hcalm := Hw.calm_readVa h 2 pid (s.entryVa layer i) (4 * n) .table
  unfold Hw.readRun
  split
  next hread => rwa [hread] at hcalm
  next hread => rwa [hread] at hcalm

theorem Hw.calm_writeRun (h : Hw) (pid : Nat) (s : SeqRec) (layer i : Nat) (es : List Nat) :
    (h.writeRun pid s layer i es).2.calm = h.calm := by
  unfold Hw.writeRun
  split
  · exact Hw.calm_translationFault _ _ _ _ _
  · exact Hw.calm_writePieces _ _ _ _ _

theorem Hw.calm_writeLayers (h : Hw) (pid : Nat) (s : SeqRec) (i l : Nat) (es : List (List Nat)) :
    (h.writeLayers pid s i l es).2.calm = h.calm := by
  induction es generalizing h l with
  | nil => rfl
  | cons e es ih =>
    have hcalm := h.calm_writeRun pid s l i e
    unfold Hw.writeLayers
    split
    next hwrite => rwa [hwrite] at hcalm
    next hwrite =>
      rw [hwrite] at hcalm
      exact (ih _ _).trans hcalm

theorem Hw.writeLayers_cmds (h : Hw) (pid : Nat) (s : SeqRec) (i l : Nat) (es : List (List Nat)) :
    (h.writeLayers pid s i l es).2.cmds = h.cmds := by
  obtain ⟨-, hcmds, -⟩ := Hw.calm_keeps (h.calm_writeLayers pid s i l es)
  exact hcmds

/-- The reading of entries goes on with what it has read, or ends whatever would have followed. -/
theorem Hw.withEntries_cases (h : Hw) (c : Cmd) (s : SeqRec) (i n : Nat) (acc : List (List Nat)) (m : Nat) :
    (∃ k es, k.calm = h.calm ∧ ∀ f, h.withEntries c s i n acc f m = f k es) ∨
      ∃ k, ∀ f, h.withEntries c s i n acc f m = k := by
  induction m generalizing h acc with
  | zero => exact .inl ⟨h, acc, rfl, fun _ => rfl⟩
  | succ m ih =>
    have hcalm := h.calm_readRun c.pid s (s.layers - m) i n
    simp only [Hw.withEntries]
    rcases hread : h.readRun c.pid s (s.layers - m) i n with ⟨e | ⟨es, stained⟩, j⟩
    · exact .inr ⟨_, fun _ => rfl⟩
    · rw [hread] at hcalm
      cases stained with
      | true => exact .inr ⟨_, fun _ => rfl⟩
      | false =>
        obtain ⟨k, xs, hk, hgoes⟩ | hends := ih j (acc ++ [es])
        · exact .inl ⟨k, xs, hk.trans hcalm, hgoes⟩
        · exact .inr hends

/-- Entries that are read leave the commands as they were. -/
theorem ReadsEntries.cmds {es : List (List Nat)} (hreads : ReadsEntries b c s i n es k) : k.cmds = b.cmds := by
  obtain ⟨j, xs, hj, hgoes⟩ | ⟨j, hends⟩ := b.withEntries_cases c s i n [] (s.layers + 1)
  · have hkj : k = j := (hreads fun h _ => h).symm.trans (hgoes fun h _ => h)
    obtain ⟨-, hcmds, -⟩ := Hw.calm_keeps hj
    rw [hkj, hcmds]
  · have hall : ∀ x : Hw, x = j := fun x => (hreads fun _ _ => x).symm.trans (hends _)
    rw [hall k, hall b]

/-- A failed translation or a stained entry ends the command, whatever would have followed (R106, R178). -/
theorem Hw.withEntries_ends (hends : EntriesEnd b c s i n k) (f : Hw → List (List Nat) → Hw) :
    b.withEntries c s i n [] f (s.layers + 1) = k := by
  obtain ⟨m, es, j, j2, hm, hreaches, hlast⟩ := hends
  have hleft : s.layers + 1 - m = s.layers - m + 1 := by omega
  have hlayer : s.layers - (s.layers - m) = m := by omega
  rw [hreaches, hleft, Hw.withEntries, hlayer]
  rcases hlast with ⟨e, hread, rfl⟩ | ⟨x, hread, rfl⟩
  · rw [hread]
  · rw [hread]
    rfl

end

/-! The sheet pool and the gazetteer (R261, R266, R276 to R280): what changing their records leaves alone. -/

/-- A state but for the records of sheets and the gazetteer. -/
def Hw.offPool (h : Hw) : Hw := { h with kv := { h.kv with sheets := [], gaz := ⟨[], [], []⟩ } }

theorem Hw.cmds_of_offPool {a b : Hw} (hoff : a.offPool = b.offPool) : a.cmds = b.cmds :=
  congrArg (fun k : Hw => k.cmds) (a₁ := a.offPool) (a₂ := b.offPool) hoff

theorem Hw.seqOf_of_offPool {a b : Hw} (hoff : a.offPool = b.offPool) (pid hd : Nat) : a.seqOf pid hd = b.seqOf pid hd :=
  congrArg (fun k : Hw => k.seqOf pid hd) (a₁ := a.offPool) (a₂ := b.offPool) hoff

theorem Hw.offPool_ite {a b x : Hw} {p : Prop} [Decidable p] (ha : a.offPool = x) (hb : b.offPool = x) :
    (if p then a else b).offPool = x := by
  split
  · exact ha
  · exact hb

section
variable (h : Hw) (pid n : Nat)

theorem Hw.offPool_setSheet (r : SheetRec) : (h.setSheet n r).offPool = h.offPool := rfl

theorem Hw.offPool_freeSheet : (h.freeSheet n).offPool = h.offPool := h.offPool_setSheet n _

theorem Hw.offPool_releaseSheet : (h.releaseSheet pid n).offPool = h.offPool :=
  Hw.offPool_ite (Hw.offPool_ite rfl rfl) rfl

theorem Hw.offPool_shareSheet : (h.shareSheet pid n).offPool = h.offPool := Hw.offPool_ite rfl rfl

theorem Hw.offPool_modNode (f : GazNode → GazNode) : (h.modNode n f).offPool = h.offPool := rfl

theorem Hw.offPool_freeNode (fuel : Nat) : (h.freeNode n fuel).offPool = h.offPool := by
  induction fuel generalizing h n with
  | zero => rfl
  | succ fuel ih =>
    unfold Hw.freeNode
    split
    · rfl
    · exact Hw.offPool_ite ((ih _ _).trans (foldl_keeps Hw.offPool _ Hw.offPool_freeSheet _ _)) rfl

theorem Hw.offPool_attach : (h.attach n).offPool = h.offPool := Hw.offPool_ite rfl (h.offPool_modNode n _)

theorem Hw.offPool_detach : (h.detach n).offPool = h.offPool := Hw.offPool_ite rfl (Hw.offPool_freeNode _ n _)

theorem Hw.offPool_makeNode (entry tbl ns parent hash depth : Nat) (s : SeqRec) (sheets : List Nat) :
    (h.makeNode pid entry n tbl ns parent hash depth s sheets).offPool = h.offPool :=
  (Hw.offPool_modNode _ parent _).trans (foldl_keeps Hw.offPool _ (fun a m => a.offPool_setSheet m _) sheets _)

theorem Hw.offPool_publish (entry ns : Nat) (s : SeqRec) (es : List (List Nat)) (j : Nat) (xs : List Nat) (st : PubState) :
    (h.publish pid entry ns s es j xs st).2.offPool = h.offPool := by
  induction xs generalizing h j st with
  | nil => rfl
  | cons x xs ih =>
    unfold Hw.publish
    split
    · exact ih _ _ _
    · dsimp only
      split
      · rfl
      · split
        · rfl
        · rfl
        · exact (ih _ _ _).trans (Hw.offPool_makeNode _ _ _ _ _ _ _ _ _ _ _)

theorem Hw.offPool_retireEntry (entry : Nat) : (h.retireEntry pid entry).2.offPool = h.offPool :=
  (foldl_keeps Hw.offPool _ (fun a m => a.offPool_freeNode m 4096) _ _).trans
    (foldl_keeps Hw.offPool _ (fun a m => a.offPool_modNode m _) _ _)

end

section
variable (h : Hw) (pid hd n : Nat) (s : SeqRec) (l : List Nat)

theorem Hw.foldl_releaseSheet_cmds : (l.foldl (fun h n => h.releaseSheet pid n) h).cmds = h.cmds :=
  Hw.cmds_of_offPool (foldl_keeps Hw.offPool _ (fun a m => a.offPool_releaseSheet pid m) _ _)

theorem Hw.foldl_shareSheet_cmds : (l.foldl (fun h n => h.shareSheet pid n) h).cmds = h.cmds :=
  Hw.cmds_of_offPool (foldl_keeps Hw.offPool _ (fun a m => a.offPool_shareSheet pid m) _ _)

theorem Hw.attach_cmds : (h.attach n).cmds = h.cmds := Hw.cmds_of_offPool (h.offPool_attach n)

theorem Hw.detach_cmds : (h.detach n).cmds = h.cmds := Hw.cmds_of_offPool (h.offPool_detach n)

theorem Hw.moveAttach_cmds : (h.moveAttach pid hd s n).cmds = h.cmds := by
  unfold Hw.moveAttach
  split
  · rfl
  · rw [Hw.detach_cmds, Hw.attach_cmds, Hw.setSeq_cmds]

theorem Hw.dropSeq_cmds : (h.dropSeq pid hd s).cmds = h.cmds := Hw.detach_cmds _ _

/-! Sequence records: what a handle names after each change. -/

theorem Hw.setSeq_seqOf : (h.setSeq pid hd s).seqOf pid hd = some s := SMap.find_put_same _ _ _

theorem Hw.dropSeq_seqOf : (h.dropSeq pid hd s).seqOf pid hd = none :=
  (Hw.seqOf_of_offPool (Hw.offPool_detach _ _) _ _).trans ((SMap.find_del _ _ _).trans (if_pos rfl))

theorem Hw.finish_seqOf (c : Cmd) (st r d : Nat) : (h.finish c st r d).seqOf pid hd = h.seqOf pid hd := rfl

end

/-! The effects of the SEQ commands, by what they find (R265). -/

section
variable {b : Hw} {c : Cmd} {s : SeqRec} {a e : Nat}

theorem seqCreate_reached (hreached : b.runsFault c.pid (createSeqRec c) 0 (createSeqRec c).maxs = none) :
    seqCreate b c = ((b.writeLayers c.pid (createSeqRec c) 0 0 ((createSeqRec c).blank (createSeqRec c).maxs)).2.setSeq
      c.pid (c.f 16 2) (createSeqRec c)).done c 0 := by
  simp only [seqCreate, hreached]

theorem seqCreate_fault (hfault : b.runsFault c.pid (createSeqRec c) 0 (createSeqRec c).maxs = some (a, e)) :
    seqCreate b c = (b.translationFault 2 e c.pid a).failPage c (a, e) := by
  simp only [seqCreate, hfault]

/-- Where the page list lies does not change how many entries it has (R264). -/
theorem SeqRec.maxs_plVa (s : SeqRec) (va : Nat) : ({ s with plVa := va } : SeqRec).maxs = s.maxs := rfl

section
variable (hseq : b.seqOf c.pid (c.f 16 2) = some s)
include hseq

theorem seqFork_fault (hfault : b.runsFault c.pid { s with plVa := c.f 24 6 } 0 s.maxs = some (a, e)) :
    seqFork b c = (b.translationFault 2 e c.pid a).failPage c (a, e) := by
  simp only [seqFork, hseq, SeqRec.maxs_plVa, hfault]

/-- A fork whose page list is within reach goes on with the entries of its source. -/
theorem seqFork_reached (hreached : b.runsFault c.pid { s with plVa := c.f 24 6 } 0 s.maxs = none) :
    seqFork b c = b.withEntries c s 0 s.maxs [] (fun h es =>
      (((es.flatten.foldl (fun h n => h.shareSheet c.pid n)
        (h.writeLayers c.pid { s with plVa := c.f 24 6 } 0 0 es).2).attach s.node).setSeq c.pid (c.f 18 2)
          { s with plVa := c.f 24 6 }).done c 0) (s.layers + 1) := by
  simp only [seqFork, hseq, SeqRec.maxs_plVa, hreached]

theorem seqTruncate_longer (hlonger : s.len < bits (c.f 20 4) 0 21) : seqTruncate b c = b.done c s.len := by
  simp only [seqTruncate, hseq, if_pos hlonger]

/-- A truncation to no more than LEN goes on with the entries beyond it. -/
theorem seqTruncate_within (hwithin : bits (c.f 20 4) 0 21 ≤ s.len) :
    seqTruncate b c = b.dropEntries c s (cdiv (bits (c.f 20 4) 0 21) s.tps) fun h =>
      ((h.setSeq c.pid (c.f 16 2) { s with len := bits (c.f 20 4) 0 21 }).moveAttach c.pid (c.f 16 2)
        { s with len := bits (c.f 20 4) 0 21 } (h.atDepth s.node (cdiv (bits (c.f 20 4) 0 21) 256) 4097)).done c
          (bits (c.f 20 4) 0 21) := by
  simp only [seqTruncate, hseq, if_neg (Nat.not_lt.mpr hwithin)]

theorem seqFree_live : seqFree b c = b.withEntries c s 0 s.maxs [] (fun h es =>
    ((es.flatten.foldl (fun h m => h.releaseSheet c.pid m) h).dropSeq c.pid (c.f 16 2) s).done c 0) (s.layers + 1) := by
  simp only [seqFree, hseq]

end

end

/-! The effects of the GAZ commands, by what they find (R277, R278). -/

/-- A publish that created nodes notes them under its entry handle (R277). -/
def Hw.noteEntry (h : Hw) (pid e : Nat) (made : List Nat) : Hw :=
  { h with kv := { h.kv with gaz := { h.kv.gaz with entries := h.kv.gaz.entries.put (pid * 1024 + e) made } } }

/-- What a publish does after it has walked its chain (R277). -/
def publishEnd (c : Cmd) (s : SeqRec) (e : Nat) (r : PubState) (h : Hw) : Hw :=
  let h := if r.made.isEmpty then h else h.noteEntry c.pid e r.made
  (if r.depth = 0 then h else h.moveAttach c.pid (c.f 16 2) s r.at_).done c
    (r.depth + r.reason * 2 ^ 13 + (if r.made.isEmpty then 0x3FF else e) * 2 ^ 16)

section
variable {b : Hw} {c : Cmd} {s : SeqRec} {k : Hw} {e : Nat} {tok : List Byte}

section
variable (hseq : b.seqOf c.pid (c.f 16 2) = some s)
include hseq

/-- A publish reads its tokens, then the entries of its blocks, and walks its chain. -/
theorem gazPublish_free (hentry : b.freeEntry c.pid = some e) :
    gazPublish b c = b.withRecord c (c.f 24 6) (1024 * c.f 20 2) fun h tok =>
      h.withEntries c s 0 (c.f 20 2 * (256 / s.tps)) [] (fun h es =>
        publishEnd c s e
          (h.publish c.pid e (c.f 32 8) s es 1 (gazChain (gazSeed (c.f 32 8) s) tok (c.f 20 2)) ⟨0, noNode, 0, []⟩).1
          (h.publish c.pid e (c.f 32 8) s es 1 (gazChain (gazSeed (c.f 32 8) s) tok (c.f 20 2)) ⟨0, noNode, 0, []⟩).2)
        (s.layers + 1) := by
  simp only [gazPublish, hseq, hentry]
  rfl

theorem gazLookup_unreadable (hends : RecordEnds b c (c.f 24 6) (1024 * c.f 20 2) k) : gazLookup b c = k := by
  simp only [gazLookup, hseq, Hw.withRecord_ends hends]

section
variable (hread : b.cmdRead c.pid (c.f 24 6) (1024 * c.f 20 2) = (.ok (tok, false), k))
include hread

theorem gazLookup_unknown
    (hnone : k.chainNodes noNode (gazChain (gazSeed (c.f 32 8) s) tok (min (c.f 20 2) (s.cap / 256))) = []) :
    gazLookup b c = k.done c 0 := by
  simp only [gazLookup, hseq, Hw.withRecord_ok hread, hnone]
  rfl

section
variable {ns : List Nat}
  (hns : k.chainNodes noNode (gazChain (gazSeed (c.f 32 8) s) tok (min (c.f 20 2) (s.cap / 256))) = ns) (hsome : ns ≠ [])
include hns hsome

theorem gazLookup_attaches {k2 : Hw} (hwrite : k.writeLayers c.pid s 0 0
      ((List.range (s.layers + 1)).map fun l => k.nodeEntries l ns) = (none, k2)) :
    gazLookup b c = ((k2.setSeq c.pid (c.f 16 2) { s with len := 256 * ns.length, node := ns.getLastD noNode }).attach
      (ns.getLastD noNode)).done c ns.length := by
  simp only [gazLookup, hseq, Hw.withRecord_ok hread, hns, List.isEmpty_eq_false_iff.mpr hsome, Bool.false_eq_true,
    if_false, hwrite]

theorem gazLookup_pageFails {k2 : Hw} {x : Nat × Nat} (hwrite : k.writeLayers c.pid s 0 0
      ((List.range (s.layers + 1)).map fun l => k.nodeEntries l ns) = (some x, k2)) :
    gazLookup b c = k2.failPage c x := by
  simp only [gazLookup, hseq, Hw.withRecord_ok hread, hns, List.isEmpty_eq_false_iff.mpr hsome, Bool.false_eq_true,
    if_false, hwrite]

end

end

end

end

/-! The GAZ_PUBLISH that has walked its chain. -/

section
variable {st : State} {q : QRef} {p : Packet} {qu : Queue} {c : Cmd} {b k k2 k3 : Hw} {s : SeqRec} {e : Nat} {tok : List Byte}
  {es : List (List Nat)} {r : PubState}
  (hacting : Acting st.hw specGazPublish q p qu c b) (hseq : b.seqOf c.pid (c.f 16 2) = some s)
  (hentry : b.freeEntry c.pid = some e)
  (hread : b.cmdRead c.pid (c.f 24 6) (1024 * c.f 20 2) = (.ok (tok, false), k))
  (hreads : ReadsEntries k c s 0 (c.f 20 2 * (256 / s.tps)) es k2)
  (hpublish : k2.publish c.pid e (c.f 32 8) s es 1 (gazChain (gazSeed (c.f 32 8) s) tok (c.f 20 2)) ⟨0, noNode, 0, []⟩ =
    (r, k3))
include hacting hseq hentry hread hreads hpublish

theorem does_gazPublish {x : Hw} {v : Nat} (hcmds : x.cmds = k3.cmds) (hend : publishEnd c s e r k3 = x.done c v) :
    Does (.gazPublish q p) st fun h' => Ends x h' c 0 v 0 := by
  have hwalk : k3.cmds = k2.cmds := by
    have hoff := k2.offPool_publish c.pid e (c.f 32 8) s es 1 (gazChain (gazSeed (c.f 32 8) s) tok (c.f 20 2))
      ⟨0, noNode, 0, []⟩
    rw [hpublish] at hoff
    exact Hw.cmds_of_offPool hoff
  have hbegun : x.cmds = b.cmds := by rw [hcmds, hwalk, hreads.cmds, Hw.cmdRead_cmds hread]
  refine does_of_acting (execGazPublish q p st) hacting rfl rfl ?_ (acting_ends_of_cmds hacting hbegun 0 v 0)
  rw [gazPublish_free hseq hentry, Hw.withRecord_ok hread, hreads, hpublish]
  exact hend

theorem does_gazPublish_none (hmade : r.made = []) (hdepth : r.depth = 0) :
    Does (.gazPublish q p) st fun h' => Ends k3 h' c 0 (r.reason * 2 ^ 13 + 0x3FF * 2 ^ 16) 0 := by
  refine does_gazPublish hacting hseq hentry hread hreads hpublish rfl ?_
  simp only [publishEnd, hmade, hdepth, List.isEmpty_nil, if_true, Nat.zero_add]

theorem does_gazPublish_found (hmade : r.made = []) (hdepth : r.depth ≠ 0) :
    Does (.gazPublish q p) st fun h' => Ends (k3.moveAttach c.pid (c.f 16 2) s r.at_) h' c 0
      (r.depth + r.reason * 2 ^ 13 + 0x3FF * 2 ^ 16) 0 := by
  refine does_gazPublish hacting hseq hentry hread hreads hpublish (Hw.moveAttach_cmds _ _ _ _ _) ?_
  simp only [publishEnd, hmade, hdepth, List.isEmpty_nil, if_true, if_false]

theorem does_gazPublish_makes (hmade : r.made ≠ []) (hdepth : r.depth ≠ 0) :
    Does (.gazPublish q p) st fun h' => Ends ((k3.noteEntry c.pid e r.made).moveAttach c.pid (c.f 16 2) s r.at_) h' c 0
      (r.depth + r.reason * 2 ^ 13 + e * 2 ^ 16) 0 := by
  refine does_gazPublish hacting hseq hentry hread hreads hpublish (Hw.moveAttach_cmds _ _ _ _ _) ?_
  simp only [publishEnd, List.isEmpty_eq_false_iff.mpr hmade, hdepth, Bool.false_eq_true, if_false]

end

/-- Settles O5: each command along the branch that its hypotheses choose; what reading entries, changing sheets and
changing gazetteer nodes leave alone is said once, and so the command that acts still waits to be ended. -/
theorem packetSequencesAndGazetteer : Obligations.PacketSequencesAndGazetteer := by
  refine ⟨?_, ?_, ?_, ?_, ?_, ?_, ?_, ?_, ?_, ?_, ?_, ?_, ?_, ?_, ?_, ?_, ?_, ?_, ?_, ?_, ?_, ?_⟩
  · intro st q p qu c b hacting hreached
    have hcalm := b.calm_writeLayers c.pid (createSeqRec c) 0 0 ((createSeqRec c).blank (createSeqRec c).maxs)
    refine does_of_acting (execSeqCreate q p st) hacting rfl rfl (seqCreate_reached hreached)
      ⟨?_, rfl, _, hcalm, acting_ends_of_cmds hacting ?_ 0 0 0⟩
    · rw [Hw.done, Hw.finish_seqOf, Hw.setSeq_seqOf]
    · rw [Hw.setSeq_cmds, Hw.writeLayers_cmds]
  · intro st q p qu c b a e hacting hfault
    exact does_of_acting (execSeqCreate q p st) hacting rfl rfl (seqCreate_fault hfault) rfl
  · intro st q p qu c b s x e hacting hseq hfault
    exact does_of_acting (execSeqFork q p st) hacting rfl rfl (seqFork_fault hseq hfault) rfl
  · intro st q p qu c b s k hacting hseq hreached hends
    exact does_of_acting (execSeqFork q p st) hacting rfl rfl
      ((seqFork_reached hseq hreached).trans (Hw.withEntries_ends hends _)) rfl
  · intro st q p qu c b s es k hacting hseq hreached hreads
    refine does_of_acting (execSeqFork q p st) hacting rfl rfl ((seqFork_reached hseq hreached).trans (hreads _))
      (acting_ends_of_cmds hacting ?_ 0 0 0)
    rw [Hw.setSeq_cmds, Hw.attach_cmds, Hw.foldl_shareSheet_cmds, Hw.writeLayers_cmds, hreads.cmds]
  · intro st q p qu c b s hacting hseq hlonger
    exact does_of_acting (execSeqTruncate q p st) hacting rfl rfl (seqTruncate_longer hseq hlonger)
      (acting_ends hacting 0 _ 0)
  · intro st q p qu c b s n i es k hacting hseq hn hwithin hi hreads
    subst hn hi
    refine does_of_acting (execSeqTruncate q p st) hacting rfl rfl
      ((seqTruncate_within hseq hwithin).trans (hreads _)) ⟨_, rfl, acting_ends_of_cmds hacting ?_ 0 _ 0⟩
    rw [Hw.moveAttach_cmds, Hw.setSeq_cmds, Hw.foldl_releaseSheet_cmds, Hw.writeLayers_cmds, hreads.cmds]
  · intro st q p qu c b s i k hacting hseq hwithin hi hends
    subst hi
    exact does_of_acting (execSeqTruncate q p st) hacting rfl rfl
      ((seqTruncate_within hseq hwithin).trans (Hw.withEntries_ends hends _)) rfl
  · intro st q p qu c b s k hacting hseq hends
    exact does_of_acting (execSeqFree q p st) hacting rfl rfl
      ((seqFree_live hseq).trans (Hw.withEntries_ends hends _)) rfl
  · intro st q p qu c b s es k hacting hseq hreads
    refine does_of_acting (execSeqFree q p st) hacting rfl rfl ((seqFree_live hseq).trans (hreads _))
      ⟨?_, acting_ends_of_cmds hacting ?_ 0 0 0⟩
    · rw [Hw.done, Hw.finish_seqOf, Hw.dropSeq_seqOf]
    · rw [Hw.dropSeq_cmds, Hw.foldl_releaseSheet_cmds, hreads.cmds]
  · intro st q p qu c b s e k hacting hseq hwrite
    refine does_of_acting (execSeqQuery q p st) hacting rfl rfl ?_ rfl
    simp only [hseq, Hw.doneWriting, hwrite]
  · intro st q p qu c b s k hacting hseq hwrite
    refine does_of_acting (execSeqQuery q p st) hacting rfl rfl ?_
      (acting_ends_of_cmds hacting (Hw.cmdWrite_cmds hwrite) 0 _ 0)
    simp only [hseq, Hw.doneWriting, hwrite]
    rfl
  · intro st q p qu c b s e tok k k2 k3 es r
    exact does_gazPublish_none
  · intro st q p qu c b s e tok k k2 k3 es r
    exact does_gazPublish_found
  · intro st q p qu c b s e tok k k2 k3 es r
    exact does_gazPublish_makes
  · intro st q p qu c b s k hacting hseq hfree hends
    obtain ⟨e, hentry⟩ := Option.isSome_iff_exists.mp hfree
    exact does_of_acting (execGazPublish q p st) hacting rfl rfl
      ((gazPublish_free hseq hentry).trans (Hw.withRecord_ends hends _)) rfl
  · intro st q p qu c b s tok k k2 hacting hseq hfree hread hends
    obtain ⟨e, hentry⟩ := Option.isSome_iff_exists.mp hfree
    exact does_of_acting (execGazPublish q p st) hacting rfl rfl
      ((gazPublish_free hseq hentry).trans ((Hw.withRecord_ok hread _).trans (Hw.withEntries_ends hends _))) rfl
  · intro st q p qu c b s tok k hacting hseq hread hnone
    exact does_of_acting (execGazLookup q p st) hacting rfl rfl (gazLookup_unknown hseq hread hnone)
      (acting_ends_of_cmds hacting (Hw.cmdRead_cmds hread) 0 0 0)
  · intro st q p qu c b s tok k k2 ns hacting hseq hread hns hsome hwrite
    have hcmds : k2.cmds = k.cmds := by
      have hlayers := k.writeLayers_cmds c.pid s 0 0 ((List.range (s.layers + 1)).map fun l => k.nodeEntries l ns)
      rwa [hwrite] at hlayers
    refine does_of_acting (execGazLookup q p st) hacting rfl rfl (gazLookup_attaches hseq hread hns.symm hsome hwrite)
      (acting_ends_of_cmds hacting ?_ 0 _ 0)
    rw [Hw.attach_cmds, Hw.setSeq_cmds, hcmds, Hw.cmdRead_cmds hread]
  · intro st q p qu c b s k hacting hseq hends
    exact does_of_acting (execGazLookup q p st) hacting rfl rfl (gazLookup_unreadable hseq hends) rfl
  · intro st q p qu c b s tok k k2 ns e hacting hseq hread hns hsome hwrite
    exact does_of_acting (execGazLookup q p st) hacting rfl rfl (gazLookup_pageFails hseq hread hns hsome hwrite) rfl
  · intro st q p qu c b hacting
    exact does_of_acting (execGazRetire q p st) hacting rfl rfl rfl (acting_ends_of_cmds hacting
      (Hw.cmds_of_offPool (b.offPool_retireEntry c.pid (c.f 16 2))) 0 _ 0)

end Sys2Proof.Machine

namespace Sys2Proof.Machine

/-! Detection notices (R298 to R300, R309): a request is joined, opened or refused. -/

/-- A request that a notice names and that has not closed: the one that the notice joins (R300). -/
def DfinReq.joins (fin pid : Nat) (n : List Byte) (r : DfinReq) : Bool := r.is fin pid (field n 0 2) && r.closedAt.isNone

/-- A request that a notice has joined: its ranges grow, and it closes at its last FINAL or when stained (R300). -/
def Hw.joined (h : Hw) (n : List Byte) (st : Bool) (r : DfinReq) : DfinReq :=
  { r with
      ranges := r.ranges ++ [(bits (field n 4 4) 0 17, bits (field n 8 4) 0 17)]
      seen := h.seeRecords r (bits (field n 4 4) 0 17) (bits (field n 8 4) 0 17)
      finals := r.finals + b2n (bit (field n 2 1) 0)
      stained := r.stained || st
      closedAt := if st = true ∨ r.nSend ≤ r.finals + b2n (bit (field n 2 1) 0) then some h.now else none }

/-- The request that a notice opens, with the descriptor of its DESC_VA (R300). -/
def openedReq (fin pid : Nat) (n bs : List Byte) (ds : Bool) : DfinReq :=
  { fin := fin, pid := pid, req := field n 0 2, desc := bs, descVa := field n 16 6 / 128 * 128, ranges := [], finals := 0,
    closedAt := none, stained := ds, seen := [], spent := 0, paid := 0 }

section
variable (h : Hw) {k : Hw} {fin pid : Nat} {n : List Byte} (st : Bool)

/-- The requests that a notice does not join keep their order, and those that it joins come after them. -/
theorem Hw.addNotice_eq : h.addNotice fin pid n st =
    { h with
        dfin := (h.dfin.filter fun r => ! r.joins fin pid n) ++
          (h.dfin.filter (·.joins fin pid n)).map (h.joined n st) } := by
  simp only [Hw.addNotice, List.partition_eq_filter_filter, Bool.or_eq_true, decide_eq_true_eq]
  rfl

/-- Opening ends on the fault of a descriptor that cannot be read (R309). -/
theorem Hw.openRequest_unreadable {x : Nat × Nat}
    (hread : h.readVa 0 pid (field n 16 6 / 128 * 128) 128 = (.error x, k)) :
    h.openRequest fin pid n = (k.dfinFault fin 3 pid (field n 0 2), false) := by
  rw [Hw.openRequest, hread]

theorem Hw.openRequest_readable {bs : List Byte} {ds : Bool}
    (hread : h.readVa 0 pid (field n 16 6 / 128 * 128) 128 = (.ok (bs, ds), k)) :
    h.openRequest fin pid n = ({ k with dfin := k.dfin ++ [openedReq fin pid n bs ds] }, true) := by
  rw [Hw.openRequest, hread]
  rfl

/-- A notice that finds its request open joins it. -/
theorem Hw.takeNotice_joins (hopen : h.dfin.any (·.joins fin pid n) = true) :
    h.takeNotice fin pid n st = (h.addNotice fin pid n st).showDfin :=
  if_pos hopen

section
variable {h} (hnone : h.dfin.any (·.joins fin pid n) = false)
include hnone

/-- A fifth request of a PID is refused with its security event (R300). -/
theorem Hw.takeNotice_discards
    (hfull : 4 ≤ (h.dfin.filter fun r => r.fin == fin && r.pid == pid && r.closedAt.isNone).length) :
    h.takeNotice fin pid n st =
      ((h.dfinRecord fin 4 pid (field n 0 2)).put F.DFIN_INT_STATUS_DISCARDED 1).event (srcDfin fin) 0x0808 pid
        (field n 0 2) :=
  (if_neg (ne_true_of_eq_false hnone)).trans (if_pos hfull)

section
variable (hroom : (h.dfin.filter fun r => r.fin == fin && r.pid == pid && r.closedAt.isNone).length < 4)
include hroom

/-- With room, a notice that finds no request open opens one. -/
theorem Hw.takeNotice_opens : h.takeNotice fin pid n st =
    if (h.openRequest fin pid n).2 then ((h.openRequest fin pid n).1.addNotice fin pid n st).showDfin
    else (h.openRequest fin pid n).1 := by
  refine ((if_neg (ne_true_of_eq_false hnone)).trans (if_neg (Nat.not_le.mpr hroom))).trans ?_
  rcases h.openRequest fin pid n with ⟨a, opened⟩
  cases opened <;> rfl

theorem Hw.takeNotice_unreadable {x : Nat × Nat}
    (hread : h.readVa 0 pid (field n 16 6 / 128 * 128) 128 = (.error x, k)) :
    h.takeNotice fin pid n st = k.dfinFault fin 3 pid (field n 0 2) := by
  rw [Hw.takeNotice_opens st hnone hroom, h.openRequest_unreadable hread, if_neg Bool.false_ne_true]

theorem Hw.takeNotice_readable {bs : List Byte} {ds : Bool}
    (hread : h.readVa 0 pid (field n 16 6 / 128 * 128) 128 = (.ok (bs, ds), k)) :
    h.takeNotice fin pid n st =
      (({ k with dfin := k.dfin ++ [openedReq fin pid n bs ds] } : Hw).addNotice fin pid n st).showDfin := by
  rw [Hw.takeNotice_opens st hnone hroom, h.openRequest_readable hread, if_pos rfl]

end

end

/-- A notice that finds one request open joins that one, which then stands last. -/
theorem Hw.takeNotice_joins_one {r : DfinReq} (hone : h.dfin.filter (·.joins fin pid n) = [r]) :
    h.takeNotice fin pid n st =
      ({ h with dfin := (h.dfin.filter fun r => ! r.joins fin pid n) ++ [h.joined n st r] } : Hw).showDfin := by
  have hmem : r ∈ h.dfin ∧ r.joins fin pid n = true := List.mem_filter.mp (hone ▸ List.mem_singleton_self r)
  rw [h.takeNotice_joins st (List.any_eq_true.mpr ⟨r, hmem⟩), Hw.addNotice_eq, hone, List.map_singleton]

end

/-! The ends of requests (R307, R309): where the summary goes, and what follows it. -/

section
variable (h : Hw) (r : DfinReq)

theorem Hw.runRequest_stained (hst : r.stained = true) : h.runRequest r = h.dfinFailed r DfinRun.start 1 := if_pos hst

variable (sm : List Byte) {bx : List Byte}

theorem Hw.dfinWrite_translated {ps : List (Nat × Nat)}
    (hrun : h.mem.translateRun r.pid r.outVa (64 + bx.length) .wr true = .ok ps) :
    h.dfinWrite r sm bx = (h.writePieces r.pid (sm ++ bx) false ps).dfinAdd r := by
  rw [Hw.dfinWrite, hrun]

theorem Hw.dfinWrite_untranslated {a c : Nat}
    (hrun : h.mem.translateRun r.pid r.outVa (64 + bx.length) .wr true = .error (a, c)) :
    h.dfinWrite r sm bx = (h.translationFault 0 c r.pid a).dfinFault r.fin 3 r.pid r.req := by
  rw [Hw.dfinWrite, hrun]

end

/-! The rows of the finishers: `DFIN_NOTICE` and `DFIN_REQUEST_DONE`. -/

section
variable {s : State} {h k : Hw} {src : Fin 1024} {fin : Fin 4} {pid : Fin 256} {m : Msg} {r r1 r2 : DfinReq} {h1 h2 : Hw}
  (hs : s.hw = h)
include hs

theorem does_dfinNotice_reaches (hon : h.fabricOn = true) (htake : h.takeDfin src.val fin.val = (some m, k)) :
    Does (.dfinNotice src fin) s fun x =>
      x = k.takeNotice fin.val m.pid (fit 64 (m.pieces.flatMap (·.data))) (m.pieces.any (·.stain)) := by
  refine does_of_next (execDfinNotice src fin s) hs rfl rfl ?_
  rw [if_pos hon, htake]

theorem does_dfinNotice_none (hon : h.fabricOn = true) (htake : h.takeDfin src.val fin.val = (none, k)) :
    Does (.dfinNotice src fin) s fun x => x = k := by
  refine does_of_next (execDfinNotice src fin s) hs rfl rfl ?_
  rw [if_pos hon, htake]

theorem does_dfinNotice_off (hoff : h.fabricOn = false) : Does (.dfinNotice src fin) s fun x => x = h :=
  does_of_next (execDfinNotice src fin s) hs rfl rfl (if_neg (ne_true_of_eq_false hoff))

theorem does_dfinRequestDone_off (hoff : h.fabricOn = false) : Does (.dfinRequestDone fin pid) s fun x => x = h :=
  does_of_next (execDfinRequestDone fin pid s) hs rfl rfl (if_neg (ne_true_of_eq_false hoff))

theorem does_dfinRequestDone_none (hnone : h.nextRequest fin.val pid.val = none) :
    Does (.dfinRequestDone fin pid) s fun x => x = h := by
  refine does_of_next (execDfinRequestDone fin pid s) hs rfl rfl ?_
  rw [hnone]
  exact ite_self h

/-- The oldest closed request moves on and takes its turn, and ends when it has nothing left to wait for. -/
theorem does_dfinRequestDone_next (hon : h.fabricOn = true) (hnext : h.nextRequest fin.val pid.val = some r)
    (hmove : h.dfinMove r = (r1, h1)) (hturn : h1.dfinTurn r1 (h1.dfinPart r1) = (r2, h2)) :
    Does (.dfinRequestDone fin pid) s fun x => x =
      if r2.spent < h2.dfinNeed r2 ∨ r2.paid < (h2.dfinLines r2).length then h2
      else ((h2.dropRequest r2).runRequest r2).showDfin := by
  refine does_of_next (execDfinRequestDone fin pid s) hs rfl rfl ?_
  simp only [if_pos hon, hnext, hmove, hturn]

end

/-- Settles O51: a notice by the request that it finds open, a closed request by what it still waits for, and a summary
by the translation of OUT_VA. -/
theorem detectionFinishers : Obligations.DetectionFinishers := by
  refine ⟨?_, ?_, ?_, ?_, ?_, ?_, ?_, ?_, ?_, ?_, ?_, ?_, ?_, ?_⟩
  · intro s h src fin m k
    exact does_dfinNotice_reaches
  · intro s h src fin k
    exact does_dfinNotice_none
  · intro s h src fin
    exact does_dfinNotice_off
  · intro h k fin pid n st r hone hk
    subst hk
    exact h.takeNotice_joins_one st hone
  · intro h k fin pid a c n st hnone hroom hread
    exact Hw.takeNotice_unreadable st hnone hroom hread
  · intro h k fin pid n bs st ds r hnone hroom hread hr
    subst hr
    exact Hw.takeNotice_readable st hnone hroom hread
  · intro h fin pid n st hnone hfull
    exact Hw.takeNotice_discards st hnone hfull
  · intro s h fin pid r r1 r2 h1 h2 hs hon hnext hmove hturn hneed hlines
    have hends := does_dfinRequestDone_next hs hon hnext hmove hturn
    rwa [if_neg (not_or.mpr ⟨Nat.not_lt.mpr hneed, Nat.not_lt.mpr hlines⟩)] at hends
  · intro s h fin pid r r1 r2 h1 h2 hs hon hnext hmove hturn hwaits
    have hstays := does_dfinRequestDone_next hs hon hnext hmove hturn
    rwa [if_pos hwaits] at hstays
  · intro s h fin pid
    exact does_dfinRequestDone_off
  · intro s h fin pid
    exact does_dfinRequestDone_none
  · intro h r
    exact h.runRequest_stained r
  · intro h r sm bx ps
    exact h.dfinWrite_translated r sm
  · intro h r sm bx a cs
    exact h.dfinWrite_untranslated r sm

end Sys2Proof.Machine

namespace Sys2Proof.Machine

open Sys2Proof

/-! Frame Starts (R321, R327, R329): the stream of the port that a virtual channel feeds. -/

section
variable {h : Hw} {q vc num ns10 p : Nat} (hcam : h.camOf q = some p)
include hcam

theorem Hw.frameStart_unclaimed (hnone : (h.streamOn false p).bind h.stream = none) :
    h.frameStart q vc num ns10 = h.modCam p fun y => { y with armed := false } := by
  have hno : ((h.streamOn false p).bind fun k => (h.stream k).map fun s => (k, s)) = none := by
    cases hon : h.streamOn false p with
    | none => rfl
    | some k =>
      rw [hon, Option.bind_some] at hnone
      rw [Option.bind_some, hnone, Option.map_none]
  simp only [Hw.frameStart, hcam, hno]

/-- A Frame Start of another virtual channel is not the stream's; one of its own cuts the buffer in progress short, and
opens the next one unless the stream is faulted or its consumer has not released enough. -/
theorem Hw.frameStart_stream {k : Nat} {x : Stream} {a : Hw} (hon : h.streamOn false p = some k)
    (hstream : h.stream k = some x) (ha : a = (h.modCam p fun y => { y with armed := false }).cutBuf k) :
    h.frameStart q vc num ns10 =
      if x.vc ≠ vc then h
      else if x.faulted = true then a
      else if a.mayOpen x = true then a.openBuf k x q (h.now * 1000 + 10 * ns10) num
        ((h.cam p).lastTrig.any fun t => decide (h.get (F.CAM_CTRL_FS_WINDOW.blk p) < h.now - t)) (! (h.cam p).armed)
      else a.loseFrames k 1 := by
  have hfeeds : ((h.streamOn false p).bind fun k => (h.stream k).map fun s => (k, s)) = some (k, x) := by
    rw [hon, Option.bind_some, hstream, Option.map_some]
  subst ha
  simp only [Hw.frameStart, hcam, hfeeds]
  rfl

end

section
variable {s : State} {h : Hw} {q : Fin 24} {vc : Fin 16} {num : BitVec 16} {ns10 : Fin 100} (hs : s.hw = h)
include hs

theorem does_frameStart {h' : Hw} (hon : h.fabricOn = true) (hup : h.camUp q.val = true)
    (hstart : h.frameStart q.val vc.val num.toNat ns10.val = h') :
    Does (.frameStart q vc num ns10) s fun x => x = h' :=
  does_while_on (execFrameStart q vc num ns10 s) hs rfl rfl (by rw [hon, hup, Bool.and_self]) hstart

theorem does_frameStart_idle (hidle : h.fabricOn = false ∨ h.camUp q.val = false ∨ h.camOf q.val = none) :
    Does (.frameStart q vc num ns10) s fun x => x = h := by
  refine does_while_idle (execFrameStart q vc num ns10 s) hs rfl rfl ?_
  rcases hidle with e | e | e
  · exact .inl (by rw [e, Bool.false_and])
  · exact .inl (by rw [e, Bool.and_false])
  · exact .inr (by rw [Hw.frameStart, e])

end

/-! Long packets (R314, R327). -/

section
variable {h a : Hw} {q : Nat} {p : CsiPacket}

/-- A packet whose header cannot be corrected marks the buffer in progress of the port's stream. -/
theorem Hw.longPacket_uncorrected (hhdr : p.hdr = 2) (ha : a = h.addSat (F.CAM_ERR_HDR_UNCORR.blk q) 1) :
    h.longPacket q p = (a.camStream q).elim a fun e =>
      a.modStream e.1 fun z => { z with cur := z.cur.map fun y => { y with hdrErr := true } } := by
  have hbad : p.hdr ≠ 1 := by
    rw [hhdr]
    decide
  simp only [Hw.longPacket, if_neg hbad, if_pos hhdr, ← ha]
  cases a.camStream q <;> rfl

section
variable (hhdr : p.hdr ≠ 2) (ha : a = if p.hdr = 1 then h.addSat (F.CAM_ERR_HDR_CORR.blk q) 1 else h)
include hhdr ha

theorem Hw.longPacket_unsupported (hodd : oddType p.dt.toNat = true) :
    h.longPacket q p = a.modCam q fun x => { x with unclaimed := x.unclaimed + 1 } := by
  simp only [Hw.longPacket, ← ha, hhdr, hodd, if_false, if_true]

variable (hdt : oddType p.dt.toNat = false)
include hdt

theorem Hw.longPacket_unopened (hnone : ∀ k x, a.camStream q = some (k, x) → x.cur = none) : h.longPacket q p = a := by
  simp only [Hw.longPacket, ← ha, hhdr, hdt, if_false, Bool.false_eq_true]
  cases hstream : a.camStream q with
  | none => rfl
  | some e => simp only [hnone e.1 e.2 hstream]

/-- A line joins the buffer in progress when the stream takes its channel and its type and neither has failed. -/
theorem Hw.longPacket_line {k : Nat} {x : Stream} {y : IngBuf} (hstream : a.camStream q = some (k, x))
    (hcur : x.cur = some y) : h.longPacket q p =
      if x.vc = p.vc.val ∧ (p.dt.toNat = x.dt ∨ x.emb = true ∧ p.dt.toNat = 0x12) ∧
        (p.dt.toNat = 0x12 ∨ 0x18 ≤ p.dt.toNat) ∧ x.faulted = false ∧ y.failed = false
      then a.takeLine q k x y p else a := by
  simp only [Hw.longPacket, ← ha, hhdr, hdt, hstream, hcur, if_false, Bool.false_eq_true, Bool.not_eq_true']

end

end

section
variable {s : State} {h : Hw} {q : Fin 24} (hs : s.hw = h)
include hs

theorem does_longPacket {p : CsiPacket} {h' : Hw} (hon : h.fabricOn = true) (hup : h.camUp q.val = true)
    (hpacket : h.longPacket q.val p = h') : Does (.longPacket q p) s fun x => x = h' :=
  does_while_on (execLongPacket q p s) hs rfl rfl (by rw [hon, hup, Bool.and_self]) hpacket

theorem does_longPacket_idle {p : CsiPacket} (hidle : h.fabricOn = false ∨ h.camUp q.val = false) :
    Does (.longPacket q p) s fun x => x = h := by
  refine does_while_idle (execLongPacket q p s) hs rfl rfl (.inl ?_)
  rwa [Bool.and_eq_false_iff]

/-- A Frame End of the stream's channel closes the buffer in progress with its time (R327, R331). -/
theorem does_frameEnd {vc : Fin 16} {ns10 : Fin 100} {k : Nat} {x : Stream} (hon : h.fabricOn = true)
    (hup : h.camUp q.val = true) (hstream : h.camStream q.val = some (k, x)) (hvc : x.vc = vc.val) :
    Does (.frameEnd q vc ns10) s fun y =>
      y = h.closeBuf k fun z => { z with tEnd := h.now * 1000 + 10 * ns10.val } := by
  refine does_of_next (execFrameEnd q vc ns10 s) hs rfl rfl ?_
  simp only [hstream]
  exact if_pos (by simp [hon, hup, hvc])

theorem does_frameEnd_idle {vc : Fin 16} {ns10 : Fin 100} (hidle : ∀ k x, h.camStream q.val = some (k, x) →
      h.fabricOn = false ∨ h.camUp q.val = false ∨ x.vc ≠ vc.val) : Does (.frameEnd q vc ns10) s fun x => x = h := by
  refine does_of_next (execFrameEnd q vc ns10 s) hs rfl rfl ?_
  cases hstream : h.camStream q.val with
  | none => rfl
  | some e =>
    refine if_neg ?_
    rcases hidle e.1 e.2 hstream with off | off | off <;> simp [off]

end

/-! Lidar frames (R315, R320, R323, R328). -/

section
variable {h a : Hw} {q stamp : Nat} {f : EthFrame}

theorem Hw.lidarFrame_badLength (hlength : f.bytes.length < 60 ∨ 9212 < f.bytes.length) : h.lidarFrame q stamp f = h :=
  if_pos hlength

variable (hlow : 60 ≤ f.bytes.length) (hhigh : f.bytes.length ≤ 9212)
include hlow hhigh

theorem Hw.lidarFrame_badCheck (hcheck : f.fcsOk = false) :
    h.lidarFrame q stamp f = h.addSat (F.LID_ERR_FCS.blk q) 1 :=
  (if_neg (by omega)).trans (if_pos (by rw [hcheck, Bool.not_false]))

/-- A sound frame is noted on every other port of its source, and its stream takes it if there is one. -/
theorem Hw.lidarFrame_sound (hcheck : f.fcsOk = true)
    (ha : a = (h.ing.streams.filter fun e =>
      e.2.lidar && e.2.srcMac ≠ 0 && e.2.srcMac == beNat ((f.bytes.drop 6).take 6) && e.2.port ≠ q).foldl
        (fun x e => x.strayFrame q e.2.port) h) : h.lidarFrame q stamp f =
      (a.ing.streams.find? fun e => e.2.lidar && a.physPort e.2 == some q && e.2.matchesFrame f.bytes).elim
        (a.addSat (F.LID_ERR_UNCLAIMED.blk q) 1) fun e => a.takeFrame q e.1 stamp f := by
  have hlength : ¬ (f.bytes.length < 60 ∨ 9212 < f.bytes.length) := by omega
  simp only [Hw.lidarFrame, hlength, hcheck, ← ha, if_false, Bool.not_true, Bool.false_eq_true]
  cases a.ing.streams.find? fun e => e.2.lidar && a.physPort e.2 == some q && e.2.matchesFrame f.bytes <;> rfl

end

section
variable {s : State} {h : Hw} {q : Fin 8} {f : EthFrame} {ns10 : Fin 100} (hs : s.hw = h)
include hs

theorem does_lidarFrame {h' : Hw} (hon : h.fabricOn = true) (hup : h.get (F.LID_STATUS_LINK.blk q.val) = 2)
    (hframe : h.lidarFrame q.val (h.now * 1000 + 10 * ns10.val) f = h') :
    Does (.lidarFrame q f ns10) s fun x => x = h' :=
  does_while_on (execLidarFrame q f ns10 s) hs rfl rfl (by rw [hon, hup]; rfl) hframe

theorem does_lidarFrame_idle (hidle : h.fabricOn = false ∨ h.get (F.LID_STATUS_LINK.blk q.val) ≠ 2) :
    Does (.lidarFrame q f ns10) s fun x => x = h := by
  refine does_while_idle (execLidarFrame q f ns10 s) hs rfl rfl (.inl ?_)
  rwa [Bool.and_eq_false_iff, beq_eq_false_iff_ne]

end

section
variable {s : State} {h : Hw} {pid : Fin 256} {hd : Fin 32} (hs : s.hw = h)
include hs

theorem does_lidarFlush {x : Stream} {y : IngBuf} (hon : h.fabricOn = true)
    (hstream : h.stream (streamKey pid.val hd.val) = some x) (hlidar : x.lidar = true) (hcur : x.cur = some y)
    (hold : y.firstAt + x.pitch ≤ h.now) :
    Does (.lidarFlush pid hd) s fun z => z = h.closeBuf (streamKey pid.val hd.val) id := by
  refine does_of_next (execLidarFlush pid hd s) hs rfl rfl ?_
  simp only [hstream]
  exact if_pos (by simp [hon, hlidar, hcur, hold])

theorem does_lidarFlush_idle (hidle : ∀ x, h.stream (streamKey pid.val hd.val) = some x →
      h.fabricOn = false ∨ x.lidar = false ∨ ∀ y, x.cur = some y → h.now < y.firstAt + x.pitch) :
    Does (.lidarFlush pid hd) s fun z => z = h := by
  refine does_of_next (execLidarFlush pid hd s) hs rfl rfl ?_
  cases hstream : h.stream (streamKey pid.val hd.val) with
  | none => simp only [hstream]
  | some x =>
    simp only [hstream]
    refine if_neg ?_
    rcases hidle x hstream with off | camera | young
    · simp [off]
    · simp [camera]
    · cases hcur : x.cur with
      | none => simp
      | some y => simp [young y hcur]

end

/-! Completion of a buffer (R329, R332). -/

theorem Hw.completeBuf_idle {h : Hw} {n : Nat} (hidle : h.quiet = true ∨ h.stream n = none ∨
      ∃ x, h.stream n = some x ∧ (x.done = [] ∨ x.faulted = true ∨ ∃ y ys, x.done = y :: ys ∧ h.undrained n y.n = true)) :
    h.completeBuf n = h := by
  cases hstream : h.stream n with
  | none => simp only [Hw.completeBuf, hstream]
  | some x =>
    cases hdone : x.done with
    | nil => simp only [Hw.completeBuf, hstream, hdone]
    | cons y ys =>
      simp only [Hw.completeBuf, hstream, hdone]
      refine if_pos ?_
      rcases hidle with hquiet | hnone | ⟨z, hz, hrest⟩
      · simp [hquiet]
      · exact absurd (hnone.symm.trans hstream) (Option.some_ne_none x).symm
      · obtain rfl := Option.some.inj (hstream.symm.trans hz)
        rcases hrest with hempty | hfaulted | ⟨w, ws, hw, hheld⟩
        · exact absurd (hempty.symm.trans hdone) (List.cons_ne_nil y ys).symm
        · simp [hfaulted]
        · obtain ⟨rfl, -⟩ := List.cons.inj (hdone.symm.trans hw)
          simp [hheld]

section
variable {h g a : Hw} {n : Nat} {x : Stream} {y : IngBuf} {ys : List IngBuf} {rec : List Byte}
  {o : Option (Nat × Nat)} (hstream : h.stream n = some x) (hdone : x.done = y :: ys) (hsound : x.faulted = false)
  (hopen : h.quiet = false) (hdrained : h.undrained n y.n = false) (hbytes : h.streamBytes x (recordOf x y) = (rec, g))
  (hwrite : g.writeVa 5 (n / 32) (x.recVa + 64 * (y.n % max x.nBuf 1)) rec false = (o, a))
include hstream hdone hsound hopen hdrained hbytes hwrite

/-- The oldest drained buffer writes its record and then adds; a page that fails and an object that is not held fault
the stream. -/
theorem Hw.completeBuf_drained : h.completeBuf n =
    if o.isSome = true ∨ a.holdsSob (n / 32) x.doneSob = false then a.faultStream n x
    else
      let k := (a.sobPerform x.doneSob (.add x.doneAdd)).2.modStream n fun z =>
        { z with done := ys, completed := (z.completed + 1) % 2 ^ 32, lostSince := 0 }
      if x.lidar = true then k else k.addSat (F.CAM_COUNT_FRAMES.blk x.port) 1 := by
  simp only [Hw.completeBuf, hstream, hdone, hsound, hopen, hdrained, hbytes, hwrite, Bool.or_self, Bool.false_eq_true,
    if_false]
  cases o with
  | some e => exact (if_pos (.inl rfl)).symm
  | none =>
    simp only [Option.isSome_none, Bool.false_eq_true, false_or, Bool.not_eq_true']

end

theorem does_bufferComplete {s : State} {h h' : Hw} {pid : Fin 256} {hd : Fin 32} {n : Nat} (hs : s.hw = h)
    (hon : h.fabricOn = true) (hn : n = streamKey pid.val hd.val) (hends : h.completeBuf n = h') :
    Does (.bufferComplete pid hd) s fun x => x = h' := by
  subst hn
  exact does_while_on (execBufferComplete pid hd s) hs rfl rfl hon hends

/-- Settles O45: a packet by the stream that it meets, and a buffer by what its completion meets. -/
theorem frames : Obligations.Frames := by
  refine ⟨?_, ?_, ?_, ?_, fun s h q vc num ns10 hs => does_frameStart_idle hs, ?_, ?_, ?_, ?_, ?_, ?_,
    fun s h q p hs => does_longPacket_idle hs, fun s h q vc ns10 k x hs => does_frameEnd hs,
    fun s h q vc ns10 hs => does_frameEnd_idle hs, ?_, ?_, ?_, ?_, fun s h q f ns10 hs => does_lidarFrame_idle hs,
    fun s h pid hd x y hs => does_lidarFlush hs, fun s h pid hd hs => does_lidarFlush_idle hs, ?_, ?_, ?_, ?_⟩
  · intro s h q vc num ns10 p k x a hs hon hup hcam hfeeds hstream hvc hsound ha
    refine does_frameStart hs hon hup ((Hw.frameStart_stream hcam hfeeds hstream ha).trans ?_)
    rw [if_neg (not_not.mpr hvc), hsound, if_neg Bool.false_ne_true]
  · intro s h q vc num ns10 p k x hs hon hup hcam hfeeds hstream hvc hfaulted
    refine does_frameStart hs hon hup ((Hw.frameStart_stream hcam hfeeds hstream rfl).trans ?_)
    rw [if_neg (not_not.mpr hvc), if_pos hfaulted]
  · intro s h q vc num ns10 p k x hs hon hup hcam hfeeds hstream hvc
    exact does_frameStart hs hon hup ((Hw.frameStart_stream hcam hfeeds hstream rfl).trans (if_pos hvc))
  · intro s h q vc num ns10 p hs hon hup hcam hnone
    exact does_frameStart hs hon hup (Hw.frameStart_unclaimed hcam hnone)
  · intro s h q p a k x y hs hon hup hhdr ha hdt hstream hcur hvc htype hline hsound hkept
    exact does_longPacket hs hon hup
      ((Hw.longPacket_line hhdr ha hdt hstream hcur).trans (if_pos ⟨hvc, htype, hline, hsound, hkept⟩))
  · intro s h q p a k x y hs hon hup hhdr ha hdt hstream hcur hother
    refine does_longPacket hs hon hup ((Hw.longPacket_line hhdr ha hdt hstream hcur).trans (if_neg ?_))
    rintro ⟨hvc, htype, -, hsound, hkept⟩
    rcases hother with e | ⟨hdiffers, e⟩ | e | e
    · exact e hvc
    · rcases htype with e' | ⟨hemb, hembedded⟩
      · exact hdiffers e'
      · exact e.elim (fun e => Bool.false_ne_true (e.symm.trans hemb)) fun e => e hembedded
    · exact Bool.false_ne_true (hsound.symm.trans e)
    · exact Bool.false_ne_true (hkept.symm.trans e)
  · intro s h q p a hs hon hup hhdr ha hdt hnone
    exact does_longPacket hs hon hup (Hw.longPacket_unopened hhdr ha hdt hnone)
  · intro s h q p a hs hon hup hhdr ha hodd
    exact does_longPacket hs hon hup (Hw.longPacket_unsupported hhdr ha hodd)
  · intro s h q p a k x hs hon hup hhdr ha hstream
    refine does_longPacket hs hon hup ((Hw.longPacket_uncorrected hhdr ha).trans ?_)
    rw [hstream, Option.elim_some]
  · intro s h q p a hs hon hup hhdr ha hnone
    refine does_longPacket hs hon hup ((Hw.longPacket_uncorrected hhdr ha).trans ?_)
    rw [hnone, Option.elim_none]
  · intro s h q f ns10 hs hon hup hlength
    exact does_lidarFrame hs hon hup (Hw.lidarFrame_badLength hlength)
  · intro s h q f ns10 hs hon hup hlow hhigh hcheck
    exact does_lidarFrame hs hon hup (Hw.lidarFrame_badCheck hlow hhigh hcheck)
  · intro s h q f ns10 a e hs hon hup hlow hhigh hcheck ha hclaims
    refine does_lidarFrame hs hon hup ((Hw.lidarFrame_sound hlow hhigh hcheck ha).trans ?_)
    rw [hclaims, Option.elim_some]
  · intro s h q f ns10 a hs hon hup hlow hhigh hcheck ha hnone
    refine does_lidarFrame hs hon hup ((Hw.lidarFrame_sound hlow hhigh hcheck ha).trans ?_)
    rw [hnone, Option.elim_none]
  · intro s h pid hd n x y ys rec g a hs hon hn hstream hdone hsound hopen hdrained hbytes hwrite hheld
    have hends := Hw.completeBuf_drained hstream hdone hsound hopen hdrained hbytes hwrite
    obtain ⟨h', hexec, rfl⟩ := does_bufferComplete hs hon hn (hends.trans (if_neg (by simp [hheld])))
    exact ⟨_, hexec, _, rfl, rfl⟩
  · intro s h pid hd n x y ys rec g a hs hon hn hstream hdone hsound hopen hdrained hbytes hwrite hforeign
    have hends := Hw.completeBuf_drained hstream hdone hsound hopen hdrained hbytes hwrite
    exact does_bufferComplete hs hon hn (hends.trans (if_pos (.inr hforeign)))
  · intro s h pid hd n x y ys rec g a e hs hon hn hstream hdone hsound hopen hdrained hbytes hwrite
    have hends := Hw.completeBuf_drained hstream hdone hsound hopen hdrained hbytes hwrite
    exact does_bufferComplete hs hon hn (hends.trans (if_pos (.inl rfl)))
  · intro s h pid hd n hs hn hidle
    subst hn
    exact does_while_idle (execBufferComplete pid hd s) hs rfl rfl (hidle.imp_right Hw.completeBuf_idle)

end Sys2Proof.Machine

namespace Sys2Proof.Machine

open Sys2Proof

/-! Faults of camera switches (R316, R508, R541). -/

section
variable {s : State} {h : Hw} {q : Fin 24} {ma mv : BitVec 16} (hs : s.hw = h)
include hs

theorem does_camrailTrip_trips {n : Nat} (hfind : (List.range 24).reverse.find? h.camPowered = some n)
    (hover : 12500 < ma.toNat) : Does (.camrailTrip ma) s fun x =>
      x = ((h.put F.PWR_STATUS_CAMRAIL_TRIP 1).put F.PWR_INT_STATUS_CAMRAIL 1).camFault n 3
        (h.get (F.CAM_PWR_MEAS_MA.blk n)) (h.get (F.CAM_PWR_MEAS_MV.blk n)) := by
  refine does_of_next (execCamrailTrip ma s) hs rfl rfl ?_
  simp only [hfind]
  exact if_pos hover

theorem does_camrailTrip_idle
    (hidle : ma.toNat ≤ 12500 ∨ (List.range 24).reverse.find? h.camPowered = none) :
    Does (.camrailTrip ma) s fun x => x = h := by
  refine does_of_next (execCamrailTrip ma s) hs rfl rfl ?_
  cases hfind : (List.range 24).reverse.find? h.camPowered with
  | none => rfl
  | some n => exact if_neg (Nat.not_lt.mpr (hidle.resolve_right (hfind ▸ Option.some_ne_none n)))

end

/-! Ethernet and camera links (R317, R542, R543). -/

section
variable {s : State} {h : Hw} {p : Fin 40} (hs : s.hw = h)
include hs

theorem does_linkUp_comes {a k : Hw} (henabled : h.ethEnabled p.val = true) (hdown : h.ethUp p.val = false)
    (hmode : 2 ≤ h.mode) (ha : a = h.setEth p.val 2)
    (hk : k = { a with ing := { a.ing with pairs := a.ing.pairs.del p.val, pairAt := a.ing.pairAt.del p.val } }) :
    Does (.linkUp p) s fun x => x = if p.val < 32 then k.remapLids
      else if 38 ≤ p.val then (k.put F.PEER_INT_STATUS_LINK 1).event (ethSource p.val) 0x0701 0 0 else k := by
  subst ha hk
  exact does_of_next (execLinkUp p s) hs rfl rfl (if_pos (by simp [henabled, hdown, hmode]))

theorem does_linkUp_idle (hidle : h.ethEnabled p.val = false ∨ h.ethUp p.val = true ∨ h.mode < 2) :
    Does (.linkUp p) s fun x => x = h := by
  refine does_of_next (execLinkUp p s) hs rfl rfl (if_neg ?_)
  rcases hidle with e | e | e <;> simp [e]

theorem does_linkDown {h' : Hw}
    (hends : (if p.val < 24 then (if h.camUp p.val then h.camLost p.val (if h.camPowered p.val then 1 else 0) else h)
      else if h.ethUp p.val then h.ethLost p.val else h) = h') : Does (.linkDown p) s fun x => x = h' :=
  does_of_next (execLinkDown p s) hs rfl rfl hends

end

/-- The cable of a link is diagnosed while the link is down, once in 100,000 strokes (R543). -/
def Hw.diagnoses (h : Hw) (p : Nat) : Bool :=
  decide (24 ≤ p) && decide (p < 36) && decide (2 ≤ h.mode) && h.ethEnabled p && ! h.ethUp p &&
    (h.ing.pairAt.find p).all fun t => decide (t + 100000 ≤ h.now)

/-- The state in which the result of a diagnosis is noted. -/
def Hw.notePair (h : Hw) (p r : Nat) : Hw :=
  { h with ing := { h.ing with pairs := h.ing.pairs.putD 0 p r, pairAt := h.ing.pairAt.put p h.now } }

section
variable {s : State} {h : Hw} {p : Fin 40} {r : Fin 3} (hs : s.hw = h)
include hs

theorem does_pairDiagnostic {h' k : Hw} (hk : k = (h.notePair p.val r.val).event (ethSource p.val) 0x050B 0 (r.val - 1))
    (hends : (if h.diagnoses p.val = true then
        if r.val = 0 ∨ r.val = h.ing.pairs.getD 0 p.val then h.notePair p.val r.val
        else if p.val = 32 then k.put F.BB_INT_STATUS_PAIR_FAULT0 1
        else if p.val = 33 then k.put F.BB_INT_STATUS_PAIR_FAULT1 1
        else k
      else h) = h') : Does (.pairDiagnostic p r) s fun x => x = h' := by
  subst hk
  rw [Hw.diagnoses] at hends
  refine does_of_next (execPairDiagnostic p r s) hs rfl rfl ?_
  cases hlast : h.ing.pairAt.find p.val with
  | none => rw [hlast] at hends; exact hends
  | some t => rw [hlast] at hends; exact hends

end

theorem Hw.diagnoses_iff {h : Hw} {p : Nat} : h.diagnoses p = true ↔
    24 ≤ p ∧ p < 36 ∧ 2 ≤ h.mode ∧ h.ethEnabled p = true ∧ h.ethUp p = false ∧
      ∀ t, h.ing.pairAt.find p = some t → t + 100000 ≤ h.now := by
  simp only [Hw.diagnoses, Bool.and_eq_true, decide_eq_true_eq, Bool.not_eq_true', Option.all_eq_true, and_assoc]

/-- Settles O46: a fault by the switch and what is measured, a link by whether it is up. -/
theorem cameraPowerAndEthernetLinks : Obligations.CameraPowerAndEthernetLinks := by
  refine ⟨?_, ?_, ?_, ?_, ?_, ?_, ?_, ?_, ?_, fun s h ma q hs => does_camrailTrip_trips hs,
    fun s h ma hs => does_camrailTrip_idle hs, ?_, fun s h p hs => does_linkUp_idle hs, ?_, ?_, ?_, ?_, ?_⟩
  · intro s h q ma mv hs hon hlow
    exact does_of_next (execPowerOpen q ma mv s) hs rfl rfl (if_pos ⟨hon, hlow⟩)
  · intro s h q ma mv hs hidle
    exact does_of_next (execPowerOpen q ma mv s) hs rfl rfl (if_neg (by omega))
  · intro s h q ma mv hs hon hover
    exact does_of_next (execPowerOvercurrent q ma mv s) hs rfl rfl (if_pos ⟨hon, hover⟩)
  · intro s h q ma mv hs hidle
    refine does_of_next (execPowerOvercurrent q ma mv s) hs rfl rfl (if_neg ?_)
    rintro ⟨hon, hover⟩
    exact hidle.elim (fun hoff => Bool.false_ne_true (hoff.symm.trans hon)) (Nat.not_le.mpr hover)
  · intro s h q ma mv hs hon hover
    exact does_of_next (execPowerShortGnd q ma mv s) hs rfl rfl (if_pos ⟨hon, hover⟩)
  · intro s h q ma mv hs hon
    exact does_of_next (execPowerShortBat q ma mv s) hs rfl rfl (if_pos hon)
  · intro s h q ma mv hs hidle
    refine does_of_next (execPowerShortGnd q ma mv s) hs rfl rfl (if_neg ?_)
    rintro ⟨hon, hover⟩
    exact hidle.elim (fun hoff => Bool.false_ne_true (hoff.symm.trans hon)) (Nat.not_le.mpr hover)
  · intro s h q ma mv hs hoff
    exact does_of_next (execPowerShortBat q ma mv s) hs rfl rfl (if_neg (hoff ▸ Bool.false_ne_true))
  · rintro h a q st ma mv rfl
    rfl
  · intro s h p a hs henabled hdown hmode ha
    obtain ⟨h', hexec, rfl⟩ := does_linkUp_comes hs henabled hdown hmode ha rfl
    exact ⟨_, hexec, _, rfl, rfl⟩
  · intro s h p hs hcam hup
    exact does_linkDown hs ((if_pos hcam).trans (if_pos hup))
  · intro s h p hs hother hup
    exact does_linkDown hs ((if_neg (Nat.not_lt.mpr hother)).trans (if_pos hup))
  · intro s h p hs hdown
    refine does_linkDown hs ?_
    rcases hdown with ⟨hcam, hdown⟩ | ⟨hother, hdown⟩
    · rw [if_pos hcam, hdown, if_neg Bool.false_ne_true]
    · rw [if_neg (Nat.not_lt.mpr hother), hdown, if_neg Bool.false_ne_true]
  · intro s h p r a hs hlow hhigh hmode henabled hdown hdue ha
    subst ha
    obtain ⟨h', hexec, rfl⟩ := does_pairDiagnostic hs rfl
      (if_pos (Hw.diagnoses_iff.mpr ⟨hlow, hhigh, hmode, henabled, hdown, hdue⟩))
    exact ⟨_, hexec, _, rfl, rfl⟩
  · intro s h p r hs hidle
    refine does_pairDiagnostic hs rfl (if_neg fun hdiagnoses => ?_)
    obtain ⟨hlow, hhigh, hmode, henabled, hdown, hdue⟩ := Hw.diagnoses_iff.mp hdiagnoses
    rcases hidle with e | e | e | e | e | ⟨t, hlast, hearly⟩
    · exact Bool.false_ne_true (hdown.symm.trans e)
    · omega
    · omega
    · omega
    · exact Bool.false_ne_true (e.symm.trans henabled)
    · exact absurd (hdue t hlast) (Nat.not_le.mpr hearly)

end Sys2Proof.Machine

namespace Sys2Proof.Machine

open Sys2Proof

/-! The TRV commands (R359, R362, R363, R371, R375): the record that they read, and what they do with it. -/

section
variable {b k k2 : Hw} {c : Cmd} {hd bs : List Byte}

theorem Hw.withTraj_headEnds (hends : RecordEnds b c (c.f 24 6) 64 k) (f : Hw → List Byte → Hw) : b.withTraj c f = k :=
  Hw.withRecord_ends hends _

section
variable (hhead : b.cmdRead c.pid (c.f 24 6) 64 = (.ok (hd, false), k))
include hhead

/-- The header of a trajectory record says how long the record is (R363). -/
theorem Hw.withTraj_head (f : Hw → List Byte → Hw) : b.withTraj c f = k.withRecord c (c.f 24 6) (trajBytes hd) f :=
  Hw.withRecord_ok hhead _

theorem Hw.withTraj_bodyEnds (hends : RecordEnds k c (c.f 24 6) (trajBytes hd) k2) (f : Hw → List Byte → Hw) :
    b.withTraj c f = k2 :=
  (Hw.withTraj_head hhead f).trans (Hw.withRecord_ends hends f)

variable (hbody : k.cmdRead c.pid (c.f 24 6) (trajBytes hd) = (.ok (bs, false), k2))
include hbody

theorem Hw.withTraj_ok (f : Hw → List Byte → Hw) : b.withTraj c f = f k2 bs :=
  (Hw.withTraj_head hhead f).trans (Hw.withRecord_ok hbody f)

theorem Hw.orderTraj_delivered (dust : Bool) (hdelivers : k2.deliverable = true) : b.orderTraj dust c =
    { k2 with trv := { k2.trv with orders := k2.trv.orders ++
      [{ dust := dust, traj := { pid := c.pid, seq := c.seq, bytes := bs, shaped := false }, queue := c.queue, num := c.num,
         at_ := k2.now }] } } :=
  (Hw.withTraj_ok hhead hbody _).trans (if_pos hdelivers)

theorem trvCheck_queued (hdelivers : k2.deliverable = true) {x : Cand}
    (hx : x = { pid := c.pid, queue := c.queue, num := c.num, seq := c.seq, resVa := c.f 32 6 / 64 * 64,
                dl := if c.f 40 4 = 0 then none else some (c.acceptAt + c.f 40 4),
                traj := { pid := c.pid, seq := c.seq, bytes := bs, shaped := false }, toShape := field bs 0 1 == 1 }) :
    trvCheck b c =
      k2.datumsOn.foldl (fun y d => (y.modDatum d fun z => { z with queue := z.queue ++ [x] }).showTrv d) k2 := by
  subst hx
  exact (Hw.withTraj_ok hhead hbody _).trans (if_neg (by simp only [hdelivers]; decide))

variable (hmissed : k2.deliverable = false)
include hmissed

theorem Hw.orderTraj_undelivered (dust : Bool) : b.orderTraj dust c = k2.deliveryFailed c.pid c.queue c.num :=
  (Hw.withTraj_ok hhead hbody _).trans (if_neg (hmissed ▸ Bool.false_ne_true))

theorem trvCheck_undelivered : trvCheck b c = k2.deliveryFailed c.pid c.queue c.num :=
  (Hw.withTraj_ok hhead hbody _).trans (if_pos (by simp only [hmissed]; decide))

end

section
variable (hread : b.cmdRead c.pid (c.f 24 6) 320 = (.ok (bs, false), k))
include hread

theorem trvEnvelope_undelivered (hmissed : k.deliverable = false) :
    trvEnvelope b c = k.deliveryFailed c.pid c.queue c.num :=
  (Hw.withRecord_ok hread _).trans (if_pos (by simp only [hmissed]; decide))

variable (hdelivers : k.deliverable = true)
include hdelivers

/-- An unsound envelope is refused with the place of its fault (R362). -/
theorem trvEnvelope_unsound {o : Nat}
    (hfault : envFault bs (fun n => n == 0 || (k.exists? n && k.clsOf n == 0)) = some o) :
    trvEnvelope b c = k.done c (1 + o) := by
  rw [trvEnvelope, Hw.withRecord_ok hread, hdelivers, hfault]
  rfl

theorem trvEnvelope_sound (hsound : envFault bs (fun n => n == 0 || (k.exists? n && k.clsOf n == 0)) = none) :
    trvEnvelope b c = (k.datumsOn.foldl (fun x d => (x.modDatum d fun y =>
      { y with envPrev := y.slotEnv (x.datNow d), env := some bs, envAt := x.datNow d }).showTrv d) k).done c 0 := by
  rw [trvEnvelope, Hw.withRecord_ok hread, hdelivers, hsound]
  rfl

end

end

theorem Hw.showTrv_cmds (h : Hw) (d : Nat) : (h.showTrv d).cmds = h.cmds := by
  have hput (k : Hw) (f : Fld) (v : Nat) : (k.put f v).cmds = k.cmds := Hw.put_cmds k f v
  simp only [Hw.showTrv]
  split <;> simp only [hput]

theorem Hw.foldl_showTrv_cmds (f : Hw → Nat → Datum → Datum) (l : List Nat) (h : Hw) :
    (l.foldl (fun x d => (x.modDatum d (f x d)).showTrv d) h).cmds = h.cmds := by
  induction l generalizing h with
  | nil => rfl
  | cons d l ih => rw [List.foldl_cons, ih, Hw.showTrv_cmds, Hw.modDatum_cmds]

/-- Settles O48: each command by what it reads and by whether its record reaches both Datums. -/
theorem packetTraverse : Obligations.PacketTraverse := by
  refine ⟨?_, ?_, ?_, ?_, ?_, ?_, ?_, ?_, ?_, ?_, ?_, ?_, ?_, ?_, ?_, ?_, ?_, ?_⟩
  · intro st q p qu c b bs k hacting hread
    exact does_of_acting (execTrvSurveyUpdate q p st) hacting rfl rfl (Hw.withRecord_ok hread _) ⟨_, rfl, rfl⟩
  · intro st q p qu c b k hacting hends
    exact does_of_acting (execTrvSurveyUpdate q p st) hacting rfl rfl (Hw.withRecord_ends hends _) rfl
  · intro st q p qu c b k hacting hends
    exact does_of_acting (execTrvEnvelope q p st) hacting rfl rfl (Hw.withRecord_ends hends _) rfl
  · intro st q p qu c b bs k hacting hread hmissed
    exact does_of_acting (execTrvEnvelope q p st) hacting rfl rfl (trvEnvelope_undelivered hread hmissed) rfl
  · intro st q p qu c b bs k o hacting hread hdelivers hfault
    exact does_of_acting (execTrvEnvelope q p st) hacting rfl rfl (trvEnvelope_unsound hread hdelivers hfault)
      (acting_ends_of_cmds hacting (Hw.cmdRead_cmds hread) 0 (1 + o) 0)
  · intro st q p qu c b bs k hacting hread hdelivers hsound
    exact does_of_acting (execTrvEnvelope q p st) hacting rfl rfl (trvEnvelope_sound hread hdelivers hsound)
      (acting_ends_of_cmds hacting ((Hw.foldl_showTrv_cmds _ _ _).trans (Hw.cmdRead_cmds hread)) 0 0 0)
  · intro st q p qu c b k hacting hends
    exact does_of_acting (execTrvCommit q p st) hacting rfl rfl (Hw.withTraj_headEnds hends _) rfl
  · intro st q p qu c b k hacting hends
    exact does_of_acting (execTrvDustSheet q p st) hacting rfl rfl (Hw.withTraj_headEnds hends _) rfl
  · intro st q p qu c b k hacting hends
    exact does_of_acting (execTrvCheck q p st) hacting rfl rfl (Hw.withTraj_headEnds hends _) rfl
  · intro st q p qu c b hd k k2 hacting hhead hends
    exact does_of_acting (execTrvCommit q p st) hacting rfl rfl (Hw.withTraj_bodyEnds hhead hends _) rfl
  · intro st q p qu c b hd k k2 hacting hhead hends
    exact does_of_acting (execTrvDustSheet q p st) hacting rfl rfl (Hw.withTraj_bodyEnds hhead hends _) rfl
  · intro st q p qu c b hd k k2 hacting hhead hends
    exact does_of_acting (execTrvCheck q p st) hacting rfl rfl (Hw.withTraj_bodyEnds hhead hends _) rfl
  · intro st q p qu c b hd bs k k2 hacting hhead hbody hmissed
    exact does_of_acting (execTrvCommit q p st) hacting rfl rfl (Hw.orderTraj_undelivered hhead hbody hmissed false) rfl
  · intro st q p qu c b hd bs k k2 hacting hhead hbody hmissed
    exact does_of_acting (execTrvDustSheet q p st) hacting rfl rfl (Hw.orderTraj_undelivered hhead hbody hmissed true) rfl
  · intro st q p qu c b hd bs k k2 hacting hhead hbody hmissed
    exact does_of_acting (execTrvCheck q p st) hacting rfl rfl (trvCheck_undelivered hhead hbody hmissed) rfl
  · intro st q p qu c b hd bs k k2 hacting hhead hbody hdelivers
    exact does_of_acting (execTrvCommit q p st) hacting rfl rfl (Hw.orderTraj_delivered hhead hbody false hdelivers)
      ⟨_, rfl, rfl⟩
  · intro st q p qu c b hd bs k k2 hacting hhead hbody hdelivers
    exact does_of_acting (execTrvDustSheet q p st) hacting rfl rfl (Hw.orderTraj_delivered hhead hbody true hdelivers)
      ⟨_, rfl, rfl⟩
  · intro st q p qu c b hd bs k k2 x hacting hhead hbody hdelivers hx
    exact does_of_acting (execTrvCheck q p st) hacting rfl rfl (trvCheck_queued hhead hbody hdelivers hx) rfl

end Sys2Proof.Machine

namespace Sys2Proof.Machine

open Sys2Proof

/-! The slot of a stroke (R369, R376): which trajectory it checks. -/

section
variable {s : State} {h a : Hw} {d : Fin 2} {u : Option TrvUpset} (hs : s.hw = h)
include hs

theorem does_verdictSlot_off (hoff : h.datumOn d.val = false) : Does (.verdictSlot d u) s fun x => x = h :=
  does_of_next (execVerdictSlot d u s) hs rfl rfl (if_pos (by simp [hoff]))

/-- After an error of its store and the boundary, a Datum that runs uses its slot once in a stroke. -/
theorem does_verdictSlot {h' : Hw} (hon : h.datumOn d.val = true)
    (ha : a = (match u with | some e => h.trvUpset d.val e | none => h).trvBoundary)
    (hslot : (if (a.datum d.val).slotAt = some (a.datNow d.val) then a
      else ((a.slotChoice d.val).2.modDatum d.val fun x => { x with
        slots := x.slots ++ [(a.slotChoice d.val).1]
        slotAt := some ((a.slotChoice d.val).2.datNow d.val) }).showTrv d.val) = h') :
    Does (.verdictSlot d u) s fun x => x = h' := by
  refine does_of_next (execVerdictSlot d u s) hs rfl rfl ((if_neg (by simp [hon])).trans ?_)
  subst ha
  cases u with
  | none => exact hslot
  | some e => exact hslot

end

section
variable {h k : Hw} {d : Nat}

theorem Hw.slotChoice_committed (hphase : h.datNow d % 100 = 0) :
    h.slotChoice d = (h.slotVerdict d 0 (h.datum d).committed false none, h) :=
  if_pos hphase

section
variable (hphase : h.datNow d % 100 = 50)
include hphase

theorem Hw.slotChoice_pending {t : Traj} (hpending : (h.datum d).pendingDust = some t) :
    h.slotChoice d = (h.slotVerdict d 1 (some t) true none, h) := by
  simp only [Hw.slotChoice, hphase, hpending, Nat.reduceEqDiff, if_false, if_true]

/-- Without a pending dust sheet the held one is checked while it is valid, and else the brake profile (R376). -/
theorem Hw.slotChoice_held (hnone : (h.datum d).pendingDust = none) : h.slotChoice d =
    if h.dustValid d = true then (h.slotVerdict d 1 (h.datum d).dust false none, h)
    else ((h.brakeBegins d).slotVerdict d 3 (h.datum d).committed false none, h.brakeBegins d) := by
  simp only [Hw.slotChoice, hphase, hnone, Nat.reduceEqDiff, if_false, if_true]

end

section
variable (hphase : h.datNow d % 100 ≠ 0) (hother : h.datNow d % 100 ≠ 50)
include hphase hother

theorem Hw.slotChoice_owed (howed : (h.datum d).owedAt.any (fun a => decide (a ≤ h.datNow d)) = true)
    (hheld : (h.datum d).dust.isSome = true) : h.slotChoice d =
      (h.slotVerdict d 1 (h.datum d).dust false none, h.modDatum d fun x => { x with owedAt := none }) := by
  simp only [Hw.slotChoice, hphase, hother, howed, hheld, if_false, Bool.and_self, if_true]

theorem Hw.slotChoice_candidate {o : Option Cand}
    (hfree : (h.datum d).owedAt.any (fun a => decide (a ≤ h.datNow d)) = false ∨ (h.datum d).dust = none)
    (htake : h.takeCand d = (o, k)) : h.slotChoice d = match o with
      | some c => (k.slotVerdict d 2 (some c.traj) false (some c), k)
      | none => (k.slotVerdict d 0 (h.datum d).committed false none, k) := by
  have hnot : ((h.datum d).owedAt.any (fun a => decide (a ≤ h.datNow d)) && (h.datum d).dust.isSome) = false := by
    rcases hfree with howed | hdust
    · rw [howed, Bool.false_and]
    · rw [hdust, Option.isSome_none, Bool.and_false]
  simp only [Hw.slotChoice, hphase, hother, hnot, htake, if_false, Bool.false_eq_true]
  cases o <;> rfl

end

end

/-! Records of verdicts (R372 to R374). -/

section
variable {s : State} {h : Hw} {d : Fin 2} {arrives : Bool} (hs : s.hw = h)
include hs

theorem does_verdictRecordComplete_off (hoff : h.datumOn d.val = false) :
    Does (.verdictRecordComplete d) s fun x => x = h :=
  does_of_next (execVerdictRecordComplete d s) hs rfl rfl (if_pos (by simp [hoff]))

theorem does_verdictRecordComplete (hon : h.datumOn d.val = true) : Does (.verdictRecordComplete d) s fun x =>
    x = ((h.datum d.val).slots.filter fun v => ! v.complete && decide (v.stroke + 2 ≤ h.datNow d.val)).foldl
      (fun x v => x.completeVerdict d.val v) h :=
  does_of_next (execVerdictRecordComplete d s) hs rfl rfl (if_neg (by simp [hon]))

theorem does_verdictCompare_off (hoff : h.datumOn d.val = false) :
    Does (.verdictCompare d arrives) s fun x => x = h :=
  does_of_next (execVerdictCompare d arrives s) hs rfl rfl (if_pos (by simp [hoff]))

theorem does_verdictCompare {k : Hw} {x : Datum} (hon : h.datumOn d.val = true)
    (hk : k = ((h.datum d.val).slots.filter fun v =>
      v.complete && ! v.compared && decide (v.stroke + 3 ≤ h.datNow d.val)).foldl
        (fun y v => y.compareOne d.val arrives v) h)
    (hx : x = k.datA.prune k.datB (k.datNow 0)) :
    Does (.verdictCompare d arrives) s fun y => y = { k with datA := x, datB := k.datB.prune x (k.datNow 1) } := by
  subst hk hx
  exact does_of_next (execVerdictCompare d arrives s) hs rfl rfl (if_neg (by simp [hon]))

end

/-- A verdict without a candidate whose record does not arrive is a detected fault (R374). -/
theorem Hw.compareOne_missing {h a : Hw} {d : Nat} {v : Verdict} (hnone : v.cand = none)
    (ha : a = h.modDatum d (fun x => { x with
      slots := x.slots.map fun y => if y = v then { y with compared := true } else y })) :
    h.compareOne d false v = (a.trvFault d 3 0).detect 0x05 none 0 := by
  simp only [Hw.compareOne, hnone, Bool.false_and, Bool.false_eq_true, if_false, ha]

theorem Hw.datum_congr {a b : Hw} (hA : a.datA = b.datA) (hB : a.datB = b.datB) (d : Nat) : a.datum d = b.datum d := by
  rw [Hw.datum, Hw.datum, hA, hB]

theorem Hw.datum_of_mute {a b : Hw} (hmute : a.mute = b.mute) (d : Nat) : a.datum d = b.datum d :=
  have hA : a.mute.datA = b.mute.datA := congrArg (·.datA) hmute
  have hB : a.mute.datB = b.mute.datB := congrArg (·.datB) hmute
  Hw.datum_congr hA hB d

theorem Hw.datum_modDatum (h : Hw) (d : Nat) (f : Datum → Datum) : (h.modDatum d f).datum d = f (h.datum d) := by
  by_cases hA : d = 0 <;> simp only [Hw.modDatum, Hw.datum, hA, if_true, if_false]

theorem Hw.datum_sendBb (h : Hw) (bs : List Byte) (d : Nat) : (h.sendBb bs).datum d = h.datum d := by
  have hport (h : Hw) (k : Nat) (f : List Byte) : (h.sendBbOn k f).datum d = h.datum d := by
    unfold Hw.sendBbOn
    generalize (if k = 0 then F.BB_STATUS_LINK0 else F.BB_STATUS_LINK1) = link
    split
    · exact Hw.datum_congr (Hw.addSat_datA h (F.BB_COUNT_TX.nth k) 1) (Hw.addSat_datB h (F.BB_COUNT_TX.nth k) 1) d
    · exact Hw.datum_of_mute (Hw.mute_addSat _ _ _) d
  unfold Hw.sendBb
  split
  · rw [hport, hport]
  · rfl

theorem Hw.datum_sendTraj (h : Hw) (dust : Bool) (t : Traj) (d : Nat) : (h.sendTraj dust t).datum d = h.datum d := by
  simp only [Hw.sendTraj]
  generalize cdiv t.bytes.length 1024 = n
  induction List.range n generalizing h with
  | nil => rfl
  | cons i l ih => exact (ih _).trans (h.datum_sendBb _ d)

/-- A verdict changes which dust sheet a Datum holds, and none of its slots (R375, R376). -/
theorem Hw.slots_dustVerdict (h : Hw) (d : Nat) (v : Verdict) :
    ((h.dustVerdict d v).datum d).slots = (h.datum d).slots := by
  have hbrake (k : Hw) (b : Bool) :
      (if b = true then k.event (srcDatum d) 0x0404 0 0 else k).datum d = k.datum d := by
    split
    · exact Hw.datum_of_mute (Hw.mute_event _ _ _ _ _) d
    · rfl
  have hsend (k : Hw) (t : Traj) : (if d = k.datumsOn.headD 0 then k.sendTraj true t else k).datum d = k.datum d := by
    split
    · exact Hw.datum_sendTraj _ _ _ d
    · rfl
  simp only [Hw.dustVerdict]
  split
  · rfl
  · split
    · split
      · cases hpending : (h.datum d).pendingDust with
        | none => simp only [hbrake, Hw.datum_modDatum]
        | some t => simp only [hsend, hbrake, Hw.datum_modDatum]
      · rw [Hw.datum_modDatum]
    · rw [Hw.datum_modDatum]

/-- The registers show a verdict's completion; of the slots, only its own changes (R372, R378). -/
theorem Hw.slots_completeVerdict (h : Hw) (d : Nat) (v : Verdict) : ((h.completeVerdict d v).datum d).slots =
    (h.datum d).slots.map fun y => if y = v then { y with complete := true } else y := by
  have hput (k : Hw) (f : Fld) (n : Nat) : (k.put f n).datum d = k.datum d := Hw.datum_of_mute (Hw.mute_put _ _ _) d
  have hshow (k : Hw) : (k.showTrv d).datum d = k.datum d := by
    simp only [Hw.showTrv]
    split <;> simp only [hput]
  simp only [Hw.completeVerdict, hshow, Hw.slots_dustVerdict, apply_ite (fun k : Hw => k.datum d), hput, ite_self,
    Hw.datum_modDatum]
  rw [Hw.datum_of_mute (Hw.mute_addWrap _ _ _)]

theorem Hw.complete_of_completeVerdict {h : Hw} {d : Nat} {v y : Verdict}
    (hy : y ∈ ((h.completeVerdict d v).datum d).slots) (hv : y = v ∨ y = { v with complete := true }) :
    y.complete = true := by
  rw [Hw.slots_completeVerdict] at hy
  obtain ⟨z, -, rfl⟩ := List.mem_map.mp hy
  split at hv
  next hsame => rw [if_pos hsame]
  next hother =>
    rw [if_neg hother]
    rcases hv with hsame | hdone
    · exact absurd hsame hother
    · rw [hdone]

/-! Adoption, updates, the shaper and deadlines (R359, R366, R371, R375). -/

section
variable {h a k : Hw} {o : TrajOrder}

theorem Hw.adoptTraj_commit (hcommit : o.dust = false)
    (ha : a = h.datumsOn.foldl (fun x d => (x.modDatum d fun y => { y with committed := some o.traj }).showTrv d) h)
    (hk : k = { a with trv := { a.trv with
      orders := a.trv.orders.filter fun x => ! (x.traj.pid == o.traj.pid && x.queue == o.queue && x.num == o.num)
      sentCommit := some o.traj } }) :
    h.adoptTraj o = (k.sendTraj false o.traj).finishAt o.traj.pid o.queue o.num 0 0 0 {} := by
  subst hk ha
  simp only [Hw.adoptTraj, hcommit, Bool.false_eq_true, if_false]

theorem Hw.adoptTraj_dust (hdust : o.dust = true)
    (ha : a = h.datumsOn.foldl (fun x d => (x.modDatum d fun y => { y with pendingDust := some o.traj }).showTrv d) h)
    (hk : k = { a with trv := { a.trv with
      orders := a.trv.orders.filter fun x => ! (x.traj.pid == o.traj.pid && x.queue == o.queue && x.num == o.num)
      sentDust := some o.traj } }) :
    h.adoptTraj o = k.finishAt o.traj.pid o.queue o.num 0 0 0 {} := by
  subst hk ha
  simp only [Hw.adoptTraj, hdust, if_true]

end

section
variable {s : State} {h : Hw} (hs : s.hw = h)
include hs

theorem does_surveyDelivery_none {ok : Bool} (hnone : h.trv.updates.find? (fun u => ! u.delivered) = none) :
    Does (.surveyDelivery ok) s fun x => x = h := by
  refine does_of_next (execSurveyDelivery ok s) hs rfl rfl ?_
  simp only [hnone]

/-- The oldest update reaches both Datums in time, or fails (R359). -/
theorem does_surveyDelivery {ok : Bool} {u : SurveyUpd} {h' : Hw}
    (hfind : h.trv.updates.find? (fun u => ! u.delivered) = some u)
    (hends : (if ok && h.deliverable && ! u.late h.trvNow then
        { h with trv := { h.trv with updates := h.trv.updates.map fun x => if x = u then { x with delivered := true } else x } }
      else h.failUpdate u) = h') : Does (.surveyDelivery ok) s fun x => x = h' := by
  refine does_of_next (execSurveyDelivery ok s) hs rfl rfl ?_
  simp only [hfind]
  exact hends

/-- In each Datum that runs the shaper takes the oldest record that waits for it. -/
theorem does_shaperComplete {f : Hw → Nat → Hw}
    (hf : ∀ x d, f x d = ((x.datum d).queue.find? fun c => c.toShape).elim x (x.shapeIn d)) :
    Does .shaperComplete s fun x => x = h.datumsOn.foldl f h := by
  refine does_of_next (execShaperComplete s) hs rfl rfl (congrArg (List.foldl · h h.datumsOn) ?_)
  funext x d
  rw [hf]
  cases (x.datum d).queue.find? fun c => c.toShape <;> rfl

/-- Candidates past their deadline leave both queues, and their commands end (R371). -/
theorem does_candidateDeadline {a : Hw} {late : Cand → Bool} {cut : Datum → Datum}
    (hlate : late = fun c => c.dl.any fun x => decide (x < h.trvNow))
    (ha : a = ((h.datA.queue ++ h.datB.queue).filter late).foldl
      (fun y c => y.finishAt c.pid c.queue c.num 0x3004 0 0 {}) h)
    (hcut : cut = fun x => { x with queue := x.queue.filter fun c => ! late c }) :
    Does .candidateDeadline s fun x =>
      x = (({ a with datA := cut a.datA, datB := cut a.datB } : Hw).showTrv 0).showTrv 1 := by
  subst hcut ha hlate
  exact does_of_next (execCandidateDeadline s) hs rfl rfl rfl

end

theorem Hw.applySurvey_undelivered {h : Hw} {u : SurveyUpd} (hmissed : u.delivered = false) :
    h.applySurvey u = (h.dropUpdate u).deliveryFailed u.pid u.queue u.num :=
  if_pos (by rw [hmissed, Bool.not_false])

theorem Datum.takeUpdate_fits {x : Datum} {bs : List Byte} (hsound : updFault bs = none)
    (hfits : (applyUpdate x.survey bs).fits = true) : x.takeUpdate bs =
      (0, { x with survey := some { applyUpdate x.survey bs with seq := (x.surveys + 1) % 2 ^ 32 }, surveys := x.surveys + 1 }) := by
  simp only [Datum.takeUpdate, hsound, hfits, Option.isSome_none, Bool.false_eq_true, if_false, if_true]

theorem foldl_eq_of_fixed {α β : Type} {f : α → β → α} {a : α} {l : List β} (hfixed : ∀ b ∈ l, f a b = a) :
    l.foldl f a = a := by
  induction l with
  | nil => rfl
  | cons b l ih =>
    rw [List.foldl_cons, hfixed b List.mem_cons_self]
    exact ih fun c hc => hfixed c (List.mem_cons_of_mem b hc)

/-- Settles O49: the slot by the phase of its stroke, and the records, orders, updates and candidates by what is due. -/
theorem traverseEvents : Obligations.TraverseEvents := by
  refine ⟨?_, ?_, fun s h d u hs => does_verdictSlot_off hs, fun h d => Hw.slotChoice_committed,
    fun h d t hphase => Hw.slotChoice_pending hphase, fun h d => Hw.slotChoice_held, fun h d => Hw.slotChoice_owed, ?_, ?_, ?_, ?_,
    fun s h d hs => does_verdictRecordComplete hs, fun s h d hs => does_verdictRecordComplete_off hs,
    fun s h d arrives hs => does_verdictCompare_off hs, fun s h d arrives k x hs => does_verdictCompare hs,
    fun h a d v => Hw.compareOne_missing, ?_, fun h a k o => Hw.adoptTraj_commit, fun h a k o => Hw.adoptTraj_dust,
    ?_, ?_, fun s h ok hs => does_surveyDelivery_none hs, ?_, fun h u => Hw.applySurvey_undelivered,
    fun x bs => Datum.takeUpdate_fits, ?_, ?_, ?_, ?_, ?_⟩
  · intro s h d u a k v hs hon ha hfree hchoice
    refine does_verdictSlot hs hon ha ?_
    rw [if_neg hfree, hchoice]
  · intro s h d u a hs hon ha hused
    exact does_verdictSlot hs hon ha (if_pos hused)
  · intro h k d o hphase hother hfree htake
    rw [Hw.slotChoice_candidate hphase hother hfree htake]
    cases o <;> rfl
  · intro s h d v hs hon hone
    have hcompletes := does_verdictRecordComplete hs hon
    rwa [hone] at hcompletes
  · intro s h d hs hon hnone
    have hcompletes := does_verdictRecordComplete hs hon
    rwa [hnone] at hcompletes
  · exact fun h d v y _ => Hw.complete_of_completeVerdict
  · exact fun s h hs => does_of_next (execTrajectoryAdoption s) hs rfl rfl rfl
  · intro s h ok u hs hfind hok hdelivers hearly
    exact does_surveyDelivery hs hfind (if_pos (by simp [hok, hdelivers, hearly]))
  · intro s h ok u hs hfind hfails
    refine does_surveyDelivery hs hfind (if_neg ?_)
    rcases hfails with e | e | e <;> simp [e]
  · exact fun s h hs => does_of_next (execSurveyApply s) hs rfl rfl rfl
  · exact fun s h hs => does_of_next (execShaperComplete s) hs rfl rfl rfl
  · intro s h hs hnone
    have hshapes := does_shaperComplete hs fun _ _ => rfl
    rwa [foldl_eq_of_fixed fun d hd => by rw [hnone d hd]; rfl] at hshapes
  · intro s h d c hs hon hfind
    have hshapes := does_shaperComplete hs fun _ _ => rfl
    rwa [hon, List.foldl_cons, List.foldl_nil, hfind] at hshapes
  · intro s h c e a hs hon hfind ha hnext
    have hshapes := does_shaperComplete hs fun _ _ => rfl
    rwa [hon, List.foldl_cons, List.foldl_cons, List.foldl_nil, hfind, Option.elim_some, ← ha, hnext] at hshapes
  · intro s h a late cut hs hlate ha hcut
    obtain ⟨h', hexec, rfl⟩ := does_candidateDeadline hs hlate ha hcut
    exact ⟨_, hexec, _, rfl, rfl⟩

end Sys2Proof.Machine

namespace Sys2Proof.Machine

open Sys2Proof

/-! `MODE_SET` (R561 to R564): its effect by the mode that it names and the mode before. -/

section
variable {u : BringUp} {b : Hw} {c : Cmd}

theorem modeEffect_parks (hparked : c.f 16 1 = 1) : modeEffect u b c = (b.done c 0).park := if_pos hparked

theorem modeEffect_changes (hparked : c.f 16 1 ≠ 1) (hstandby : c.f 16 1 ≠ 2) :
    modeEffect u b c = (b.done c 0).changeMode (c.f 16 1) :=
  (if_neg hparked).trans (if_pos hstandby)

/-- From STANDBY the mode stays; from any other the causes that are gone clear at the entry (R395). -/
theorem modeEffect_standby {k : Hw} (hstandby : c.f 16 1 = 2)
    (hk : k = if b.mode = 2 then b.done c 0 else (((b.done c 0).changeMode 2).clearAtStandby 0).clearAtStandby 1) :
    modeEffect u b c = if bit (c.f 17 1) 0 = true ∧ b.mode ≠ 3 then k.moduleWarm u else k := by
  simp only [modeEffect, hstandby, ← hk, Nat.reduceEqDiff, if_false, ne_eq, not_true_eq_false, Bool.and_eq_true,
    decide_eq_true_eq]

/-- A MODE_SET is taken unless a freeze or a loss of main power goes first (R527, R581). -/
theorem does_modeSet {st : State} {q : QRef} {p : Packet} {qu : Queue} {h' : Hw}
    (hacting : Acting st.hw specModeSet q p qu c b)
    (hfirst : (st.hw.sys.lost.isSome || (benchMode st.hw.mode && st.hw.freezeDue)) = false)
    (heff : modeEffect u b c = h') : Does (.modeSet q p u) st fun x => x = h' := by
  have hissue : st.hw.issue specModeSet q p (modeEffect u) = h' := by
    rw [Hw.issue_ready hacting.ready, ← hacting.state, heff]
  exact does_of_next (execModeSet q p u st) rfl rfl rfl ((if_neg (hfirst ▸ Bool.false_ne_true)).trans hissue)

end

/-- Settles O7: the mode that the command names, and for STANDBY the mode before and `WARM`. -/
theorem packetModes : Obligations.PacketModes := by
  refine ⟨?_, ?_, ?_, ?_, ?_, ?_⟩
  · intro st q p qu c b u hacting hfirst hparked
    exact does_modeSet hacting hfirst (modeEffect_parks hparked)
  · intro st q p qu c b u hacting hfirst hparked hstandby
    exact does_modeSet hacting hfirst (modeEffect_changes hparked hstandby)
  · intro st q p qu c b u hacting hfirst hstandby hold hwarm
    refine does_modeSet hacting hfirst ((modeEffect_standby hstandby (if_pos hold).symm).trans (if_pos ⟨hwarm, ?_⟩))
    omega
  · intro st q p qu c b u hacting hfirst hstandby hold hcold
    refine does_modeSet hacting hfirst ((modeEffect_standby hstandby (if_neg hold).symm).trans (if_neg ?_))
    rintro ⟨hwarm, hdrive⟩
    exact hcold.elim (fun hoff => Bool.false_ne_true (hoff.symm.trans hwarm)) hdrive
  · intro st q p qu c b u hacting hfirst hstandby hold hdrive hwarm
    exact does_modeSet hacting hfirst
      ((modeEffect_standby hstandby (if_neg hold).symm).trans (if_pos ⟨hwarm, hdrive⟩))
  · intro s q p u hfirst
    exact does_of_next (execModeSet q p u s) rfl rfl rfl (if_pos hfirst)

end Sys2Proof.Machine

namespace Sys2Proof.Machine

open Sys2Proof

/-! The owner's unit and debug commands (R404, R406, R430, R451, R575 to R579, R606): their effects. -/

theorem Hw.setRing_cmds (h : Hw) (va n : Nat) : (h.setRing va n).cmds = h.cmds := by
  rw [Hw.setRing, Hw.put_cmds, Hw.put_cmds, Hw.put_cmds, Hw.put_cmds, Hw.put_cmds, Hw.put_cmds, Hw.put_cmds]

section
variable {b k : Hw} {c : Cmd} {va : Nat} {bs : List Byte}

theorem Hw.doneWriting_written (hwrite : b.cmdWrite c.pid va bs false = (none, k)) (r : Nat) :
    b.doneWriting c va bs r = k.done c r := by
  rw [Hw.doneWriting, hwrite]

theorem Hw.doneWriting_pageFails {e : Nat × Nat} (hwrite : b.cmdWrite c.pid va bs false = (some e, k)) (r : Nat) :
    b.doneWriting c va bs r = k.failPage c e := by
  rw [Hw.doneWriting, hwrite]

end

section
variable {b k : Hw} {t : Nat} {c : Cmd} (hk : k = (b.put (F.TILE_STATE_STATE.blk t) 5).runAllSections t)
include hk

/-- A tile whose sections all give PASS waits for its admission with its command (R451). -/
theorem Hw.reinstate_passes (hpasses : (b.tile t).passes = true) : b.reinstate t c =
    { k with fab := { k.fab with admitted := k.fab.admitted ++ [(t, c.pid, c.queue, c.num)] } } := by
  simp only [Hw.reinstate, hpasses, if_true, hk]

theorem Hw.reinstate_fails (hfails : (b.tile t).passes = false) :
    b.reinstate t c = (k.put (F.TILE_STATE_STATE.blk t) 4).done c 1 := by
  simp only [Hw.reinstate, hfails, Bool.false_eq_true, if_false, hk]

end

/-- The checkers are rotated, and count among the sections, for targets 2 and 3 (R404, R606). -/
theorem selftestRun_eq {bad : List (Fin 9)} {b j k : Hw} {c : Cmd} {ts : List Nat} {f n : Nat}
    (hts : ts = b.testTiles (c.f 16 1) (c.f 18 2))
    (hf : f = if 2 ≤ c.f 16 1 then countNat 9 (fun r => bad.any fun x => x.val == r) else 0)
    (hn : n = if 2 ≤ c.f 16 1 then 9 else 0)
    (hj : j = ts.foldl (fun x t => if (x.tile t).fails = true then (x.runAllSections t).retireTile t 0 none
      else x.runAllSections t) b)
    (hk : k = if 2 ≤ c.f 16 1 then (List.range 9).foldl (fun x r => [0, 1].foldl (fun x d =>
      x.checkerTest d r none (! bad.any fun y => y.val == r)) x) j else j) :
    selftestRun bad b c = k.done c (min 65535 (b.countSections ts 0 + (n - f)) +
      min 65535 (b.countSections ts 1) * 2 ^ 16 + min 65535 (b.countSections ts 2 + f) * 2 ^ 32) := by
  subst hts hf hn hj hk
  by_cases hrot : 2 ≤ c.f 16 1 <;> simp only [selftestRun, hrot, decide_true, decide_false, if_true, if_false,
    Bool.false_eq_true, Nat.sub_zero]

/-- Settles O8: each command's effect on the state in which it has begun. -/
theorem packetUnitsAndDebug : Obligations.PacketUnitsAndDebug := by
  refine ⟨?_, ?_, ?_, ?_, ?_, ?_, ?_, ?_, ?_, ?_, ?_, ?_, ?_, ?_, ?_, ?_, ?_⟩
  · intro st q p qu c b hacting hdisarm
    exact does_of_acting (execFreezeArm q p st) hacting rfl rfl (congrArg (fun k : Hw => k.done c 0) (if_pos hdisarm))
      (acting_ends_of_cmds hacting (Hw.put_cmds _ _ _) 0 0 0)
  · intro st q p qu c b hacting harm
    exact does_of_acting (execFreezeArm q p st) hacting rfl rfl
      (congrArg (fun k : Hw => k.done c 0) (if_neg (harm ▸ Bool.false_ne_true)))
      (acting_ends_of_cmds hacting
        (by rw [Hw.put_cmds, Hw.put_cmds, Hw.put_cmds, Hw.put_cmds, Hw.put_cmds]) 0 0 0)
  · intro st q p qu c b bad ts f n j k hacting hts hf hn hj hk
    exact does_of_acting (execSelftestRun q p bad st) hacting rfl rfl (selftestRun_eq hts hf hn hj hk) rfl
  · intro st q p qu c b bs k x y hacting hread hx hy
    subst hx hy
    exact does_of_acting (execDebugUnlock q p st) hacting rfl rfl (Hw.withRecord_ok hread _) rfl
  · intro st q p qu c b k hacting hends
    exact does_of_acting (execDebugUnlock q p st) hacting rfl rfl (Hw.withRecord_ends hends _) rfl
  · intro st q p qu c b hacting hoff
    exact does_of_acting (execTraceConfig q p st) hacting rfl rfl (congrArg (fun k : Hw => k.done c 0) (if_pos hoff)) rfl
  · intro st q p qu c b k t hacting hon hk ht
    subst hk ht
    exact does_of_acting (execTraceConfig q p st) hacting rfl rfl (congrArg (fun k : Hw => k.done c 0) (if_neg hon)) rfl
  · intro st q p qu c b k hacting hwrite
    exact does_of_acting (execHealthRead q p st) hacting rfl rfl (Hw.doneWriting_written hwrite 0)
      (acting_ends_of_cmds hacting (Hw.cmdWrite_cmds hwrite) 0 0 0)
  · intro st q p qu c b e k hacting hwrite
    exact does_of_acting (execHealthRead q p st) hacting rfl rfl (Hw.doneWriting_pageFails hwrite 0) rfl
  · intro st q p qu c b hacting
    exact does_of_acting (execTileRetire q p st) hacting rfl rfl rfl rfl
  · intro st q p qu c b k hacting hpasses hk
    exact does_of_acting (execTileReinstate q p st) hacting rfl rfl (Hw.reinstate_passes hk hpasses) rfl
  · intro st q p qu c b k hacting hfails hk
    exact does_of_acting (execTileReinstate q p st) hacting rfl rfl (Hw.reinstate_fails hk hfails) rfl
  · intro st q p qu c b hacting hretired
    exact does_of_acting (execChannelRetire q p st) hacting rfl rfl (if_pos hretired) (acting_ends hacting 0 0 0)
  · intro st q p qu c b hacting hserving
    exact does_of_acting (execChannelRetire q p st) hacting rfl rfl (if_neg (hserving ▸ Bool.false_ne_true)) rfl
  · intro st q p qu c b hacting hdeliverable
    exact does_of_acting (execSafePolicy q p st) hacting rfl rfl (if_pos hdeliverable)
      (acting_ends_of_cmds hacting (by rw [Hw.put_cmds, Hw.put_cmds]) 0 0 0)
  · intro st q p qu c b hacting hunreached
    exact does_of_acting (execSafePolicy q p st) hacting rfl rfl (if_neg (hunreached ▸ Bool.false_ne_true)) rfl
  · intro st q p qu c b k hacting hk
    subst hk
    exact does_of_acting (execEventConfig q p st) hacting rfl rfl rfl
      (acting_ends_of_cmds hacting (by rw [Hw.put_cmds, Hw.put_cmds, Hw.setRing_cmds]) 0 0 0)

end Sys2Proof.Machine

namespace Sys2Proof.Machine

open Sys2Proof

/-! Freeze and its point (R570, R572, R573). -/

section
variable {s : State} {h a : Hw} (hs : s.hw = h)
include hs

theorem does_freeze_acts (hmode : benchMode h.mode = true) (hlater : h.sys.modeAt < h.now) (hpower : h.sys.lost = none)
    (honce : h.sys.frozenAt = none) (hdue : h.freezeDue = true)
    (ha : a = { h with freezeReq := false, seqStopped := true, sys := { h.sys with frozenAt := some h.now } }) :
    Does .freeze s fun x => x = (a.driveLoop 0).driveLoop 1 := by
  subst ha
  exact does_of_next (execFreeze s) hs rfl rfl (if_pos (by simp [hmode, hlater, hpower, honce, hdue]))

theorem does_freeze_idle (hidle : h.freezeDue = false ∨ benchMode h.mode = false ∨ h.now ≤ h.sys.modeAt ∨
      h.sys.lost.isSome = true ∨ h.sys.frozenAt.isSome = true) : Does .freeze s fun x => x = h := by
  refine does_of_next (execFreeze s) hs rfl rfl (if_neg ?_)
  rw [← Option.not_isNone, ← Option.not_isNone] at hidle
  rcases hidle with e | e | e | e | e
  · simp [e]
  · simp [e]
  · simp [Nat.not_lt.mpr e]
  · simp only [Bool.not_eq_true'] at e
    simp only [e, Bool.and_false, Bool.false_and, Bool.false_eq_true, not_false_eq_true]
  · simp only [Bool.not_eq_true'] at e
    simp only [e, Bool.and_false, Bool.false_and, Bool.false_eq_true, not_false_eq_true]

theorem does_freezePoint_idle (hidle : h.atFreezePoint = false ∨ h.on F.DBG_STATUS_FROZEN = true) :
    Does .freezePoint s fun x => x = h := by
  refine does_of_next (execFreezePoint s) hs rfl rfl (if_pos ?_)
  rwa [Bool.or_eq_true, Bool.not_eq_true']

/-- At its point the module freezes, or switches off when main power is lost. -/
theorem does_freezePoint {h' : Hw} (hpoint : h.atFreezePoint = true) (hrunning : h.on F.DBG_STATUS_FROZEN = false)
    (hacts : (if h.sys.lost.isSome = true then
        (({ h with sys := { h.sys with lossStage := 3 } } : Hw).switchAll (List.range 48) false).put F.MOD_MODE_MODE 0
      else ((({ h with freeIx := h.freeIx + 1, sys := { h.sys with frozenIx := h.freeIx } } : Hw).put
        F.DBG_FREEZE_AT_STROKE h.now).setMode 6).put F.DBG_STATUS_FROZEN 1) = h') : Does .freezePoint s fun x => x = h' :=
  does_of_next (execFreezePoint s) hs rfl rfl ((if_neg (by simp [hpoint, hrunning])).trans hacts)

end

/-! The pins (R406, R537, R570). -/

section
variable {s : State} {h a : Hw} {low : Bool} (hs : s.hw = h)
include hs

theorem does_frzN_same (hsame : low = h.sys.frzLow) : Does (.frzN low) s fun x => x = h :=
  does_of_next (execFrzN low s) hs rfl rfl (if_pos hsame)

theorem does_frzN_released (hlow : low = false) :
    Does (.frzN low) s fun x => x = { h with sys := { h.sys with frzLow := false } } := by
  subst hlow
  refine does_of_next (execFrzN false s) hs rfl rfl ?_
  by_cases hsame : false = h.sys.frzLow
  · exact (if_pos hsame).trans (by rw [hsame])
  · exact if_neg hsame

/-- An assertion of FRZ_N asks for the freeze in BENCH and SERVICE, and is reported in STANDBY and DRIVE. -/
theorem does_frzN_asserted {h' : Hw} (hlow : low = true) (hwas : h.sys.frzLow = false)
    (ha : a = { h with sys := { h.sys with frzLow := true } })
    (hacts : (if benchMode h.mode = true then { a with freezeReq := true }
      else if h.mode = 2 ∨ h.mode = 3 then (a.debugRefused 0).put F.DBG_INT_STATUS_REFUSED 1 else a) = h') :
    Does (.frzN low) s fun x => x = h' := by
  subst hlow ha
  exact does_of_next (execFrzN true s) hs rfl rfl ((if_neg (by rw [hwas]; decide)).trans hacts)

theorem does_dbgEnN_same (hsame : low = h.on F.DBG_STATUS_DBG_EN) : Does (.dbgEnN low) s fun x => x = h :=
  does_of_next (execDbgEnN low s) hs rfl rfl (if_pos hsame)

theorem does_dbgEnN_released (hlow : low = false) (hwas : h.on F.DBG_STATUS_DBG_EN = true) :
    Does (.dbgEnN low) s fun x => x = (h.put F.DBG_STATUS_DBG_EN 0).showLevel := by
  subst hlow
  exact does_of_next (execDbgEnN false s) hs rfl rfl (if_neg (by rw [hwas]; decide))

/-- An assertion of DBG_EN_N breaks lockstep in BENCH and SERVICE, unless it is broken, and is reported in DRIVE. -/
theorem does_dbgEnN_asserted {b : Hw} (hlow : low = true) (hwas : h.on F.DBG_STATUS_DBG_EN = false)
    (ha : a = h.put F.DBG_STATUS_DBG_EN 1)
    (hb : (if benchMode a.mode = true then (if a.comparatorsOff = true then a else a.breakLockstep 2)
      else if a.mode = 3 then a.debugRefused 2 else a) = b) : Does (.dbgEnN low) s fun x => x = b.showLevel := by
  subst hlow ha hb
  exact does_of_next (execDbgEnN true s) hs rfl rfl (if_neg (by rw [hwas]; decide))

end

/-! TAP instructions (R575, R577, R578). -/

section
variable {s : State} {h a : Hw} {op : TapOp} (hs : s.hw = h)
include hs

theorem does_tapInstruction_off (hoff : h.mode = 0) : Does (.tapInstruction op) s fun x => x = h :=
  does_of_next (execTapInstruction op s) hs rfl rfl (if_pos hoff)

variable (hon : h.mode ≠ 0)
include hon

theorem does_tapInstruction_gives (hlevel : tapNeeds op ≤ h.get F.DBG_STATUS_LEVEL) :
    Does (.tapInstruction op) s fun x => x = h.tapGives op :=
  does_of_next (execTapInstruction op s) hs rfl rfl ((if_neg hon).trans (if_pos hlevel))

/-- An instruction above the level acts as BYPASS, after its report. -/
theorem does_tapInstruction_bypass (hlevel : h.get F.DBG_STATUS_LEVEL < tapNeeds op)
    (ha : a = if (h.sys.tapRefused || h.on F.DBG_STATUS_FROZEN) = true then h
      else (h.debugRefused 2).put F.DBG_INT_STATUS_REFUSED 1) :
    Does (.tapInstruction op) s fun x => x =
      ({ a with sys := { a.sys with tapRefused := a.sys.tapRefused || ! a.on F.DBG_STATUS_FROZEN } } : Hw).tapOut 0 := by
  subst ha
  exact does_of_next (execTapInstruction op s) hs rfl rfl ((if_neg hon).trans (if_neg (Nat.not_le.mpr hlevel)))

end

/-- Settles O30: the freeze by what lets it act, the pins by their old level and the mode, TAP by the level. -/
theorem freezeAndTap : Obligations.FreezeAndTap := by
  refine ⟨fun s h a hs => does_freeze_acts hs, fun s h hs => does_freeze_idle hs, ?_, ?_, fun s h hs => does_freezePoint_idle hs,
    fun s h low hs => does_frzN_same hs, ?_, ?_, ?_, fun s h low hs => does_frzN_released hs, ?_, fun s h low hs => does_dbgEnN_same hs,
    ?_, ?_, fun s h low hs => does_dbgEnN_released hs, fun s h op hs => does_tapInstruction_gives hs, ?_, ?_,
    fun s h op hs => does_tapInstruction_off hs⟩
  · intro s h a hs hpoint hrunning hpower ha
    subst ha
    exact does_freezePoint hs hpoint hrunning (if_neg (by simp [hpower]))
  · intro s h hs hpoint hrunning hlost
    exact does_freezePoint hs hpoint hrunning (if_pos hlost)
  · intro s h low hs hlow hwas hmode hstandby hdrive
    exact does_frzN_asserted hs hlow hwas rfl
      ((if_neg (hmode ▸ Bool.false_ne_true)).trans (if_neg (not_or.mpr ⟨hstandby, hdrive⟩)))
  · intro s h low hs hlow hwas hmode
    exact does_frzN_asserted hs hlow hwas rfl (if_pos hmode)
  · intro s h low a hs hlow hwas hmode ha
    have hother : benchMode h.mode = false := by rcases hmode with e | e <;> rw [e] <;> rfl
    exact does_frzN_asserted hs hlow hwas ha ((if_neg (hother ▸ Bool.false_ne_true)).trans (if_pos hmode))
  · intro s h low a hs hlow hwas ha hmode hpaired
    exact does_dbgEnN_asserted hs hlow hwas ha ((if_pos hmode).trans (if_neg (hpaired ▸ Bool.false_ne_true)))
  · intro s h low a hs hlow hwas ha hmode
    refine does_dbgEnN_asserted hs hlow hwas ha ?_
    rcases hmode with ⟨hbench, hbroken⟩ | ⟨hother, hdrive⟩
    · exact (if_pos hbench).trans (if_pos hbroken)
    · exact (if_neg (hother ▸ Bool.false_ne_true)).trans (if_neg hdrive)
  · intro s h low a hs hlow hwas ha hother hdrive
    exact does_dbgEnN_asserted hs hlow hwas ha ((if_neg (hother ▸ Bool.false_ne_true)).trans (if_pos hdrive))
  · intro s h op a hs hon hlevel hfirst hrunning ha
    exact does_tapInstruction_bypass hs hon hlevel (by simp only [hfirst, hrunning, ha, Bool.or_self, Bool.false_eq_true, if_false])
  · intro s h op hs hon hlevel hagain
    refine does_tapInstruction_bypass hs hon hlevel (if_pos ?_).symm
    rwa [Bool.or_eq_true]

end Sys2Proof.Machine

namespace Sys2Proof.Machine

open Sys2Proof

/-! The cross-link (R382). -/

section
variable {s : State} {h : Hw} {d : Fin 2} (hs : s.hw = h)
include hs

theorem does_heartbeat {valid differ : Bool} {a b : Hw} (hon : h.datumOn d.val = true)
    (hpeer : h.datumOn (1 - d.val) = true) (hvalid : valid = true)
    (ha : a = h.modDatum d.val fun x => { x with peerAt := h.datNow d.val })
    (hb : b = (a.put (F.DTM_STATUS_PEER_OK.datum d.val) 1).put (F.DTM_LINKS_XLINK_OK.datum d.val) 1) :
    Does (.heartbeat d valid differ) s fun x => x = (if differ then b.detect 0x05 none 0 else b).latchDue d.val := by
  subst ha hb
  exact does_of_next (execHeartbeat d valid differ s) hs rfl rfl (if_neg (by simp [hon, hpeer, hvalid]))

theorem does_heartbeat_idle {valid differ : Bool}
    (hidle : valid = false ∨ h.datumOn d.val = false ∨ h.datumOn (1 - d.val) = false) :
    Does (.heartbeat d valid differ) s fun x => x = h := by
  refine does_of_next (execHeartbeat d valid differ s) hs rfl rfl (if_pos ?_)
  rcases hidle with e | e | e <;> simp [e]

theorem does_peerLost (hon : h.datumOn d.val = true) (hsilent : (h.datum d.val).peerAt + 4 ≤ h.datNow d.val) :
    Does (.peerLost d) s fun x => x = ((h.put (F.DTM_STATUS_PEER_OK.datum d.val) 0).put
      (F.DTM_LINKS_XLINK_OK.datum d.val) 0).latchOwn d.val 0x06 none 0 :=
  does_of_next (execPeerLost d s) hs rfl rfl (if_pos (by simp [hon, hsilent]))

theorem does_peerLost_idle (hidle : h.datumOn d.val = false ∨ h.datNow d.val < (h.datum d.val).peerAt + 4) :
    Does (.peerLost d) s fun x => x = h := by
  refine does_of_next (execPeerLost d s) hs rfl rfl (if_neg ?_)
  rcases hidle with e | e <;> simp [e]

end

/-! Monitor links (R381, R403). -/

theorem Hw.loseMonitor_again {h : Hw} {d e : Nat} (hlost : (h.datum d).linkLost.contains e = true) :
    h.loseMonitor d e = h :=
  if_pos hlost

/-- A link is lost once. -/
theorem Hw.loseMonitor_first {h : Hw} {d e : Nat} (hheld : (h.datum d).linkLost.contains e = false) :
    h.loseMonitor d e = ((h.modDatum d fun x => { x with linkLost := NSet.add x.linkLost e }).put
      ((F.DTM_LINKS_MON_OK.bit e).datum d) 0).latchOwn d 0x07 (some e) 0 :=
  if_neg (hheld ▸ Bool.false_ne_true)

section
variable {s : State} {h : Hw} {d : Fin 2} {e : Fin 5} (hs : s.hw = h)
include hs

theorem does_monitorLinkMessage_idle {fails : Fin 3} {spread : Fin 256}
    (hidle : h.datumOn d.val = false ∨ (h.datum d.val).linkLost.contains e.val = true) :
    Does (.monitorLinkMessage d e fails spread) s fun x => x = h := by
  refine does_of_next (execMonitorLinkMessage d e fails spread s) hs rfl rfl (if_pos ?_)
  rwa [Bool.or_eq_true, Bool.not_eq_true']

section
variable {fails : Fin 3} {spread : Fin 256} (hon : h.datumOn d.val = true)
  (hheld : (h.datum d.val).linkLost.contains e.val = false)
include hon hheld

theorem does_monitorLinkMessage_fails (hfails : fails.val = 2) :
    Does (.monitorLinkMessage d e fails spread) s fun x => x = h.loseMonitor d.val e.val := by
  refine does_of_next (execMonitorLinkMessage d e fails spread s) hs rfl rfl ?_
  rw [hon, hheld, if_neg (by decide), if_pos hfails]

theorem does_monitorLinkMessage_good {a b g : Hw} (hfails : fails.val ≠ 2)
    (ha : a = (h.modDatum d.val fun x => { x with linkAt := x.linkAt.put e.val (h.datNow d.val) }).put
      ((F.DTM_LINKS_MON_OK.bit e.val).datum d.val) 1)
    (hb : b = if a.get (F.DTM_CLOCK_SPREAD.datum d.val) < spread.val then
      a.put (F.DTM_CLOCK_SPREAD.datum d.val) spread.val else a)
    (hg : g = if 50 < spread.val then b.latchOwn d.val 0x08 none 0 else b) :
    Does (.monitorLinkMessage d e fails spread) s fun x => x = g.latchDue d.val := by
  subst ha hb hg
  refine does_of_next (execMonitorLinkMessage d e fails spread s) hs rfl rfl ?_
  rw [hon, hheld, if_neg (by decide), if_neg hfails]

end

theorem does_monitorLinkLost {second : Bool} (hon : h.datumOn d.val = true)
    (hsilent : second = true ∨ (h.datum d.val).linkAt.getD 0 e.val + 4 ≤ h.datNow d.val) :
    Does (.monitorLinkLost d e second) s fun x => x = h.loseMonitor d.val e.val := by
  refine does_of_next (execMonitorLinkLost d e second s) hs rfl rfl (if_pos ?_)
  rwa [hon, Bool.true_and, Bool.or_eq_true, decide_eq_true_eq]

theorem does_monitorLinkLost_idle {second : Bool} (hidle : h.datumOn d.val = false ∨
      (h.datum d.val).linkLost.contains e.val = true ∨
      (second = false ∧ h.datNow d.val < (h.datum d.val).linkAt.getD 0 e.val + 4)) :
    Does (.monitorLinkLost d e second) s fun x => x = h := by
  refine does_of_next (execMonitorLinkLost d e second s) hs rfl rfl ?_
  rcases hidle with hoff | hlost | ⟨hfirst, hheard⟩
  · exact if_neg (by simp [hoff])
  · rw [Hw.loseMonitor_again hlost, ite_self]
  · exact if_neg (by simp [hfirst, hheard])

end

/-! Lockstep and a Datum's own reset (R383, R566). -/

section
variable {s : State} {h : Hw} {d : Fin 2} (hs : s.hw = h)
include hs

theorem does_datumLockstepMismatch {a : Hw} (hon : h.datumOn d.val = true)
    (hpaired : h.on (F.DTM_STATUS_LOCKSTEP_BROKEN.datum d.val) = false)
    (ha : a = (h.modDatum d.val fun x => { x with stopped := true }).driveLoop d.val) :
    Does (.datumLockstepMismatch d) s fun x => x = { a with detected := a.detected ++
      [{ code := 0x01, die := none, pid := 0, atStroke := a.datNow d.val, toA := d.val = 1, toB := d.val = 0 }] } := by
  subst ha
  exact does_of_next (execDatumLockstepMismatch d s) hs rfl rfl (if_neg (by simp [hon, hpaired]))

theorem does_datumLockstepMismatch_idle
    (hidle : h.datumOn d.val = false ∨ h.on (F.DTM_STATUS_LOCKSTEP_BROKEN.datum d.val) = true) :
    Does (.datumLockstepMismatch d) s fun x => x = h := by
  refine does_of_next (execDatumLockstepMismatch d s) hs rfl rfl (if_pos ?_)
  rwa [Bool.or_eq_true, Bool.not_eq_true']

theorem does_datumReset {a : Hw} (hruns : (h.datum d.val).stopped = false)
    (ha : a = ((h.resetBlocks (0x780 + 8 * d.val) (0x780 + 8 * d.val)).resetBlocks
      (0x790 + 8 * d.val) (0x790 + 8 * d.val)).put (F.DTM_STATUS_LOCKSTEP_BROKEN.datum d.val)
        (b2n (h.on (F.DTM_STATUS_LOCKSTEP_BROKEN.datum d.val)))) :
    Does (.datumReset d) s fun x => x = a.modDatum d.val fun _ =>
      { Datum.reset with loopOff := true, time := a.now, levelAt := a.now, peerAt := a.now } := by
  subst ha
  exact does_of_next (execDatumReset d s) hs rfl rfl (if_neg (hruns ▸ Bool.false_ne_true))

theorem does_datumReset_stopped (hstopped : (h.datum d.val).stopped = true) : Does (.datumReset d) s fun x => x = h :=
  does_of_next (execDatumReset d s) hs rfl rfl (if_pos hstopped)

end

/-- Settles O32: each row by whether its Datum runs and what it hears. -/
theorem datumLinks : Obligations.DatumLinks := by
  refine ⟨fun s h d valid differ a b hs => does_heartbeat hs, fun s h d valid differ hs => does_heartbeat_idle hs,
    fun s h d hs => does_peerLost hs, fun s h d hs => does_peerLost_idle hs, ?_,
    fun s h d e fails spread a b g hs hon hheld => does_monitorLinkMessage_good hs hon hheld,
    fun s h d e fails spread hs => does_monitorLinkMessage_idle hs, ?_, fun s h d e second hs => does_monitorLinkLost_idle hs,
    fun s h d hs => does_datumLockstepMismatch_idle hs, fun s h d hs => does_datumReset_stopped hs,
    fun s h d a hs => does_datumLockstepMismatch hs, fun s h d a hs => does_datumReset hs⟩
  · intro s h d e fails spread hs hon hheld hfails
    rw [← Hw.loseMonitor_first hheld]
    exact does_monitorLinkMessage_fails hs hon hheld hfails
  · intro s h d e second hs hon hheld hsilent
    rw [← Hw.loseMonitor_first hheld]
    exact does_monitorLinkLost hs hon hsilent

end Sys2Proof.Machine

namespace Sys2Proof.Machine

open Sys2Proof

/-! Evaluation and readback of a Datum's loop (R393, R403, R535). -/

section
variable {s : State} {h : Hw} {d : Fin 2} (hs : s.hw = h)
include hs

theorem does_outValidEvaluation {ppm : BitVec 16} {a b : Hw} (hon : h.datumOn d.val = true)
    (ha : a = (h.put (F.DTM_CLOCK_PPM.datum d.val) ppm.toNat).latchDue d.val)
    (hb : b = if ppm.toInt < -2000 ∨ 2000 < ppm.toInt then a.latchOwn d.val 0x08 none 0 else a) :
    Does (.outValidEvaluation d ppm) s fun x => x = ((b.startRestart d.val).setHold d.val).driveLoop d.val := by
  subst ha hb
  exact does_of_next (execOutValidEvaluation d ppm s) hs rfl rfl (if_neg (by simp [hon]))

theorem does_outValidEvaluation_off {ppm : BitVec 16} (hoff : h.datumOn d.val = false) :
    Does (.outValidEvaluation d ppm) s fun x => x = h.driveLoop d.val :=
  does_of_next (execOutValidEvaluation d ppm s) hs rfl rfl (if_pos (by simp [hoff]))

theorem does_loopReadback_off {ip in_ mv : Fin 65536} (hoff : h.datumOn d.val = false) :
    Does (.loopReadback d ip in_ mv) s fun x => x = h :=
  does_of_next (execLoopReadback d ip in_ mv s) hs rfl rfl (if_pos (by simp [hoff]))

/-- The readback shows whether the loop reads ACTIVE; from the stroke after the last command on it is compared with the
level, and the second difference in a row is the loop's fault. -/
theorem does_loopReadback {ip in_ mv : Fin 65536} {n e : Bool} {a b h' : Hw} (hon : h.datumOn d.val = true)
    (hn : n = (decide (ip.val ≤ in_.val + 2000) && decide (in_.val ≤ ip.val + 2000) &&
      decide (100 * ip.val ≤ 1000 * mv.val) && decide (1000 * mv.val ≤ 400 * ip.val)))
    (ha : a = h.put (F.DTM_STATUS_LOOP_READ.datum d.val) (b2n (decide (18000 ≤ ip.val) && decide (ip.val ≤ 22000) && n)))
    (he : e = if (h.datum d.val).level = 2 then decide (18000 ≤ ip.val) && decide (ip.val ≤ 22000) && n
      else if (h.datum d.val).level = 1 then decide (6000 ≤ ip.val) && decide (ip.val ≤ 10000) && n
      else decide (ip.val < 500) && decide (in_.val < 500))
    (hb : b = a.modDatum d.val fun x => { x with differs := x.differs + 1 })
    (hends : (if a.datNow d.val ≤ (h.datum d.val).levelAt then a
      else if e = true then a.modDatum d.val fun x => { x with differs := 0 }
      else if 2 ≤ (h.datum d.val).differs + 1 then (b.latchOwn d.val 0x09 none 0).driveLoop d.val else b) = h') :
    Does (.loopReadback d ip in_ mv) s fun x => x = h' := by
  subst hn he hb ha
  exact does_of_next (execLoopReadback d ip in_ mv s) hs rfl rfl ((if_neg (by simp [hon])).trans hends)

end

/-! Status records (R397, R398, R534). -/

section
variable {s : State} {h : Hw} {src : Fin 3} {r : List Byte} (hs : s.hw = h)
include hs

theorem does_statusRecordSend {h' : Hw}
    (hsend : (if src.val < 2 then h.sendDatumRecord src.val else h.sendHubRecord) = h') :
    Does (.statusRecordSend src) s fun x => x = h' :=
  does_of_next (execStatusRecordSend src s) hs rfl rfl hsend

end

section
variable {h a b : Hw} {d : Nat} {r : List Byte}

/-- A record that is due leaves on CAN XL while the channel can transmit, and on the backbone while the hub can be told. -/
theorem Hw.sendDatumRecord_due (hon : h.datumOn d = true) (hclocks : h.sys.frozenAt = none) (hr : r = h.datumRecord d)
    (hdue : recordDue (h.datNow d) (recordKey r) (h.datum d).sentKey (h.datum d).sentAt = true)
    (ha : a = h.modDatum d fun x => { x with
      sentKey := recordKey r, sentAt := some (h.datNow d), sentCount := x.sentCount + 1, lastRec := r })
    (hb : b = a.sendCan d r) : h.sendDatumRecord d =
      if (! (h.datum d).linkLost.contains 4 && b.hubOn) = true then b.sendBb r else b := by
  subst hb ha
  simp only [Hw.sendDatumRecord, ← hr, hon, hclocks, hdue, Option.isNone_none, Bool.and_self, if_true]

theorem Hw.sendDatumRecord_idle (hidle : h.datumOn d = false ∨ h.sys.frozenAt.isSome = true ∨
      recordDue (h.datNow d) (recordKey (h.datumRecord d)) (h.datum d).sentKey (h.datum d).sentAt = false) :
    h.sendDatumRecord d = h := by
  rw [← Option.not_isNone, Bool.not_eq_true'] at hidle
  rw [Hw.sendDatumRecord]
  rcases hidle with e | e | e <;> simp only [e, Bool.and_false, Bool.false_and, Bool.false_eq_true, if_false]

theorem Hw.sendHubRecord_due (hon : h.hubOn = true) (hclocks : h.sys.frozenAt = none) (hr : r = h.hubRecord)
    (hdue : recordDue h.now (recordKey r) h.trv.hubKey h.trv.hubSentAt = true) : h.sendHubRecord =
      ({ h with trv := { h.trv with hubKey := recordKey r, hubSentAt := some h.now, hubCount := h.trv.hubCount + 1 } } :
        Hw).sendBb r := by
  simp only [Hw.sendHubRecord, ← hr, hon, hclocks, hdue, Option.isNone_none, Bool.and_self, if_true]

theorem Hw.sendHubRecord_idle (hidle : h.hubOn = false ∨ h.sys.frozenAt.isSome = true ∨
      recordDue h.now (recordKey h.hubRecord) h.trv.hubKey h.trv.hubSentAt = false) : h.sendHubRecord = h := by
  rw [← Option.not_isNone, Bool.not_eq_true'] at hidle
  rw [Hw.sendHubRecord]
  rcases hidle with e | e | e <;> simp only [e, Bool.and_false, Bool.false_and, Bool.false_eq_true, if_false]

end

/-! Tests of the checkers (R404). -/

section
variable {h a b : Hw} {d row : Nat} {die : Option Nat} {pass : Bool} {t : NSet}

theorem Hw.checkerTest_off (hoff : h.datumOn d = false) : h.checkerTest d row die pass = h :=
  if_pos (by simp [hoff])

theorem Hw.checkerTest_on (hon : h.datumOn d = true)
    (ha : a = (h.put (F.DTM_SELFTEST_CHECKER.datum d) row).put (F.DTM_SELFTEST_RESULT.datum d) (if pass then 1 else 2))
    (ht : t = NSet.add (a.datum d).tested row)
    (hb : b = if t.length = 9 then (a.put (F.DTM_SELFTEST_ROTATION_AT.datum d) (a.datNow d % 2 ^ 32)).modDatum d
        (fun x => { x with tested := [] })
      else a.modDatum d fun x => { x with tested := t }) :
    h.checkerTest d row die pass = if pass then b else
      ((b.put (F.DTM_INT_STATUS_CHECKER_FAIL.datum d) 1).event (srcDatum d) 0x0405 0 row).latchOwn d 0x0E die 0 := by
  subst hb ht ha
  exact if_neg (by simp [hon])

end

/-- Settles O33: the evaluation, the readback and the records of a Datum by whether it runs and what is due. -/
theorem datumOutputs : Obligations.DatumOutputs := by
  refine ⟨fun s h d ppm a b hs => does_outValidEvaluation hs, fun s h d ppm hs => does_outValidEvaluation_off hs, ?_, ?_,
    fun s h d ip in_ mv hs => does_loopReadback_off hs, ?_, ?_, ?_, ?_, ?_, ?_⟩
  · intro s h d ip in_ mv n a hs hon hn ha hsame
    exact does_loopReadback hs hon hn ha rfl rfl (if_pos hsame)
  · intro s h d ip in_ mv n e a b hs hon hn ha hlater he hb
    refine does_loopReadback hs hon hn ha he hb ((if_neg (Nat.not_le.mpr hlater)).trans ?_)
    simp only [Nat.reduceLeDiff]
  · intro s h src r a b hs hsrc hon hclocks hr hdue ha hb
    exact does_statusRecordSend hs ((if_pos hsrc).trans (Hw.sendDatumRecord_due hon hclocks hr hdue ha hb))
  · intro s h src r hs hsrc hon hclocks hr hdue
    exact does_statusRecordSend hs ((if_neg (by omega)).trans (Hw.sendHubRecord_due hon hclocks hr hdue))
  · intro s h src hs hsrc hidle
    exact does_statusRecordSend hs ((if_pos hsrc).trans (Hw.sendDatumRecord_idle hidle))
  · intro s h src hs hsrc hidle
    exact does_statusRecordSend hs ((if_neg (by omega)).trans (Hw.sendHubRecord_idle hidle))
  · intro s h d row die pass a b t hs hon ha ht hb
    exact does_of_next (execCheckerTest d row die pass s) hs rfl rfl (Hw.checkerTest_on hon ha ht hb)
  · intro s h d row die pass hs hoff
    exact does_of_next (execCheckerTest d row die pass s) hs rfl rfl (Hw.checkerTest_off hoff)

end Sys2Proof.Machine

namespace Sys2Proof.Machine

open Sys2Proof

/-! The governor's rows, each at its own interval (R520 to R522). -/

section
variable {s : State} {h : Hw} (hs : s.hw = h)
include hs

/-- A row of the governor acts in a running module, once in its interval. -/
theorem does_paced {c : Instr} {h' : Hw} {at_ : Hw → Nat} {n : Nat} {f : Hw → Hw}
    (e : Host.Outcome State Fault Refusal) (hexec : exec c s = e)
    (hnext : e = s.next fun h => if ! h.running || decide (h.now < at_ h + n) then h else f h)
    (hruns : h.running = true) (hdue : at_ h + n ≤ h.now) (hf : f h = h') : Does c s fun x => x = h' :=
  does_of_next e hs hexec hnext ((if_neg (by simp [hruns, hdue])).trans hf)

theorem does_paced_idle {c : Instr} {at_ : Hw → Nat} {n : Nat} {f : Hw → Hw} (e : Host.Outcome State Fault Refusal)
    (hexec : exec c s = e)
    (hnext : e = s.next fun h => if ! h.running || decide (h.now < at_ h + n) then h else f h)
    (hidle : h.running = false ∨ h.now < at_ h + n) : Does c s fun x => x = h := by
  refine does_of_next e hs hexec hnext (if_pos ?_)
  rwa [Bool.or_eq_true, Bool.not_eq_true', decide_eq_true_eq]

theorem does_governorRaise {a h' : Hw} (hruns : h.running = true) (hdue : h.sys.gov.raiseAt + 1000 ≤ h.now)
    (ha : a = h.modGov fun g => { g with raiseAt := h.now })
    (hraise : (if ((List.range 4).all fun n => a.dieCap n == 1400 && a.apcClock n == 26) = true then
        if (a.modGov fun g => { g with withdrawn := false }).refreshBoost.on F.PWR_STATUS_BOOST = true then
          (a.modGov fun g => { g with withdrawn := false }).refreshBoost
        else a
      else (List.range 8).foldl (fun x e => x.raiseElement e) a) = h') : Does .governorRaise s fun x => x = h' := by
  subst ha
  exact does_paced hs (at_ := (·.sys.gov.raiseAt)) (execGovernorRaise s) rfl rfl hruns hdue hraise

end

/-! Shedding (R453): one partition after another, until the capacity checks fit or none that helps is left. -/

section
variable {h : Hw}

theorem Hw.shedUntilFit_fits (n : Nat) (hfits : h.activeCapacity h.stn.active h.isShed = none) :
    h.shedUntilFit (n + 1) = h := by
  rw [Hw.shedUntilFit, hfits]

section
variable {k i : Nat} (hover : h.activeCapacity h.stn.active h.isShed = some (k, i))
include hover

theorem Hw.shedUntilFit_sheds (n : Nat) {p : Nat} (hhelps : (h.shedOrder.find? fun p => ! h.isShed p &&
      decide (h.failingLoad k h.isShed (fun q => h.isShed q || q == p) < h.failingLoad k h.isShed h.isShed)) = some p) :
    h.shedUntilFit (n + 1) = (h.shedPart p (h.shedCause k)).shedUntilFit n := by
  simp only [Hw.shedUntilFit, hover, hhelps]

theorem Hw.shedUntilFit_helpless (n : Nat) (hnone : (h.shedOrder.find? fun p => ! h.isShed p &&
      decide (h.failingLoad k h.isShed (fun q => h.isShed q || q == p) < h.failingLoad k h.isShed h.isShed)) = none) :
    h.shedUntilFit (n + 1) = h := by
  simp only [Hw.shedUntilFit, hover, hnone]

end

/-- Once the capacity is shared out, vacant positions are placed. -/
theorem does_capacityShed {s : State} {g : Hw} (hs : s.hw = h) (hruns : h.running = true)
    (hshed : h.shedUntilFit 256 = g) :
    Does .capacityShed s fun x => x = if g.fab.unplaced = [] then g else g.fillVacancies := by
  subst hshed
  exact does_while_on (execCapacityShed s) hs rfl rfl hruns rfl

end

/-- Settles O27: each row of the governor by its interval, and shedding by its first partition. -/
theorem powerGovernor : Obligations.PowerGovernor := by
  refine ⟨?_, ?_, ?_, ?_, ?_, ?_, ?_, ?_, ?_, ?_, ?_⟩
  · intro s h p a b d hs hruns hdue ha hb hd
    subst hd hb ha
    exact does_paced hs (at_ := (·.sys.gov.evalAt)) (execGovernorEvaluation p s) rfl rfl hruns hdue rfl
  · intro s h p hs hidle
    exact does_paced_idle hs (at_ := (·.sys.gov.evalAt)) (execGovernorEvaluation p s) rfl rfl hidle
  · intro s h a hs hruns hdue ha hlow
    exact does_governorRaise hs hruns hdue ha (if_neg (hlow ▸ Bool.false_ne_true))
  · intro s h a b hs hruns hdue ha hfull hb
    subst hb
    exact does_governorRaise hs hruns hdue ha (if_pos hfull)
  · intro s h hs hidle
    exact does_paced_idle hs (at_ := (·.sys.gov.raiseAt)) (execGovernorRaise s) rfl rfl hidle
  · intro s h hs hruns hfits
    exact does_capacityShed hs hruns (Hw.shedUntilFit_fits 255 hfits)
  · intro s h k i p g hs hruns hover hhelps hg
    exact does_capacityShed hs hruns ((Hw.shedUntilFit_sheds hover 255 hhelps).trans hg.symm)
  · intro s h k i hs hruns hover hnone
    exact does_capacityShed hs hruns (Hw.shedUntilFit_helpless hover 255 hnone)
  · intro s h hs hoff
    exact does_while_idle (execCapacityShed s) hs rfl rfl (.inl hoff)
  · intro s h ts a b hs hruns hdue ha hb
    refine does_paced hs (at_ := (·.sys.gov.sampleAt)) (execTemperatureSample ts s) rfl rfl hruns hdue ?_
    rw [hb, ha]
  · intro s h ts hs hidle
    exact does_paced_idle hs (at_ := (·.sys.gov.sampleAt)) (execTemperatureSample ts s) rfl rfl hidle

end Sys2Proof.Machine

namespace Sys2Proof.Machine

open Sys2Proof

/-! Rows that act under a condition on the state. -/

section
variable {c : Instr} {s : State} {h h' : Hw} {p : Hw → Prop} [DecidablePred p] {f : Hw → Hw}

theorem does_when (e : Host.Outcome State Fault Refusal) (hs : s.hw = h) (hexec : exec c s = e)
    (hnext : e = s.next fun h => if p h then f h else h) (hp : p h) (hf : f h = h') : Does c s fun x => x = h' :=
  does_of_next e hs hexec hnext ((if_pos hp).trans hf)

theorem does_unless (e : Host.Outcome State Fault Refusal) (hs : s.hw = h) (hexec : exec c s = e)
    (hnext : e = s.next fun h => if p h then f h else h) (hp : ¬ p h) : Does c s fun x => x = h :=
  does_of_next e hs hexec hnext (if_neg hp)

end

/-! The WAKE and PORST_N pins (R510, R537, R561). -/

section
variable {s : State} {h a : Hw} (hs : s.hw = h)
include hs

/-- WAKE read high starts the module from OFF and asks for a wake in PARKED. -/
theorem does_wake {high : Bool} {h' : Hw}
    (ha : a = { h with sys := { h.sys with wake := high, wakeAt := if high = h.sys.wake then h.sys.wakeAt else h.now } })
    (hacts : (if high = true ∧ h.mode = 0 ∧ h.sys.lost.isNone = true then a.porst 0
      else if high = true ∧ h.mode = 1 then { a with sys := { a.sys with wakeReq := true } } else a) = h') :
    Does (.wake high) s fun x => x = h' := by
  subst ha
  exact does_of_next (execWake high s) hs rfl rfl hacts

theorem does_porstN {low : Bool} {n h' : Hw} (hlow : low = true) (ha : a = { h with sys := { h.sys with porstLow := low } })
    (hn : n = a.porst 1)
    (hends : (if h.sys.lost.isSome = true then { n with sys := { n.sys with lost := h.sys.lost, lossStage := 3 } }
      else n) = h') : Does (.porstN low) s fun x => x = h' := by
  subst hn ha hlow
  exact does_of_next (execPorstN true s) hs rfl rfl hends

theorem does_porstN_released {low : Bool} (hlow : low = false) :
    Does (.porstN low) s fun x => x = { h with sys := { h.sys with porstLow := false } } := by
  subst hlow
  exact does_of_next (execPorstN false s) hs rfl rfl rfl

/-! `MODULE_WARM` of the firmware (R564). -/

theorem does_moduleWarm {b : BringUp} (hfabric : h.fabricOn = true) (hhub : h.hubOn = true)
    (hnone : (List.range 4).any h.cpRuns = false) : Does (.moduleWarm b) s fun x => x = h.moduleWarm b :=
  does_while_on (execModuleWarm b s) hs rfl rfl (by rw [hfabric, hhub, hnone]; rfl) rfl

theorem does_moduleWarm_idle {b : BringUp}
    (hidle : h.fabricOn = false ∨ h.hubOn = false ∨ (List.range 4).any h.cpRuns = true) :
    Does (.moduleWarm b) s fun x => x = h := by
  refine does_while_idle (execModuleWarm b s) hs rfl rfl (.inl ?_)
  rcases hidle with e | e | e <;> simp [e]

end

/-- Settles O28: each row by the conditions under which the mode changes. -/
theorem moduleModes : Obligations.ModuleModes := by
  refine ⟨?_, ?_, ?_, ?_, ?_, ?_, ?_, ?_, ?_, fun s h low hs => does_porstN_released hs, ?_, ?_, ?_, ?_, ?_, ?_,
    fun s h b hs => does_moduleWarm_idle hs, fun s h b hs => does_moduleWarm hs⟩
  · intro s h high a hs ha hhigh hoff hpower
    exact does_wake hs ha (if_pos ⟨hhigh, hoff, Option.isNone_iff_eq_none.mpr hpower⟩)
  · intro s h high a hs ha hhigh hparked
    exact does_wake hs ha ((if_neg (by omega)).trans (if_pos ⟨hhigh, hparked⟩))
  · intro s h high a hs ha hidle
    refine does_wake hs ha ((if_neg ?_).trans (if_neg ?_))
    · rintro ⟨hhigh, hoff, hpower⟩
      rcases hidle with e | e | ⟨-, e⟩
      · exact Bool.false_ne_true (e.symm.trans hhigh)
      · omega
      · rw [Option.isNone_iff_eq_none] at hpower
        simp [hpower] at e
    · rintro ⟨hhigh, hparked⟩
      rcases hidle with e | e | ⟨e, -⟩
      · exact Bool.false_ne_true (e.symm.trans hhigh)
      · omega
      · omega
  · intro s h hs hmode hseq hpower hlow
    exact does_when (execParkDelayExpiry s) hs rfl rfl ⟨hmode, hseq, Option.isNone_iff_eq_none.mpr hpower, hlow⟩ rfl
  · intro s h ch hs hmode henabled
    exact does_when (execCanWake ch s) hs rfl rfl ⟨hmode, henabled⟩ rfl
  · intro s h b hs hmode hpower hasked
    exact does_when (execParkedExit b s) hs rfl rfl ⟨hmode, Option.isNone_iff_eq_none.mpr hpower, hasked⟩ rfl
  · intro s h hs hmode hpower hunasked hlow
    exact does_when (execOffDelayExpiry s) hs rfl rfl
      ⟨hmode, Option.isNone_iff_eq_none.mpr hpower, by rw [hunasked, Bool.not_false], hlow⟩ rfl
  · intro s h low a hs ha hlow hpower
    exact does_porstN hs hlow ha rfl (if_neg (by simp [hpower]))
  · intro s h low a n hs ha hlow hlost hn
    exact does_porstN hs hlow ha hn (if_pos hlost)
  · intro s h mv hs hlost hstage hin
    exact does_when (execMainPowerReturn mv s) hs rfl rfl ⟨hlost, hstage, hin⟩ rfl
  · intro s h hs hidle
    refine does_unless (execParkDelayExpiry s) hs rfl rfl ?_
    rintro ⟨hmode, hseq, hpower, hlow⟩
    rw [Option.isNone_iff_eq_none] at hpower
    simp [hmode, hseq, hpower, hlow] at hidle
  · intro s h ch hs hidle
    refine does_unless (execCanWake ch s) hs rfl rfl ?_
    rintro ⟨hmode, henabled⟩
    simp [hmode, henabled] at hidle
  · intro s h b hs hidle
    refine does_unless (execParkedExit b s) hs rfl rfl ?_
    rintro ⟨hmode, hpower, hasked⟩
    rw [Option.isNone_iff_eq_none] at hpower
    rw [hmode, hpower, hasked] at hidle
    simp at hidle
  · intro s h hs hidle
    refine does_unless (execOffDelayExpiry s) hs rfl rfl ?_
    rintro ⟨hmode, hpower, hunasked, hlow⟩
    rw [Option.isNone_iff_eq_none] at hpower
    rw [Bool.not_eq_true'] at hunasked
    simp [hmode, hpower, hunasked, hlow] at hidle
  · intro s h mv hs hidle
    refine does_unless (execMainPowerReturn mv s) hs rfl rfl ?_
    rintro ⟨hlost, hstage, hin⟩
    rcases hidle with e | e | e
    · simp [e] at hlost
    · omega
    · exact Bool.false_ne_true (e.symm.trans hin)

end Sys2Proof.Machine

namespace Sys2Proof.Machine

open Sys2Proof

/-! What a vector on a route leaves alone (R617): it touches the MOD and the PCIE block, and no memory. -/

section
variable {α : Type} {g : Hw → α}
  (hput : ∀ (k : Hw) (f : Fld) (v : Nat), f.block = 0 ∨ f.block = 0x730 → f.off < 0x10000 → g (k.put f v) = g k)
include hput

theorem Hw.dropVector_keeps (h : Hw) (pid : Nat) : g (h.dropVector pid) = g h := by
  have hcount : g (h.addSat F.MOD_VEC_DROP_COUNT 1) = g h := hput h _ _ (.inl rfl) (by decide)
  rw [Hw.dropVector, hput _ _ _ (.inl rfl) (by decide), hput _ _ _ (.inl rfl) (by decide), hcount]

variable (houts : ∀ (k : Hw) (o : List Out), g { k with outs := o } = g k)
  (hmsix : ∀ (k : Hw) (m : SMap MsixFn), g { k with msix := m } = g k)
include houts hmsix

theorem Hw.sendMsix_keeps (h : Hw) (pid rid v : Nat) {port : Nat} (hport : port < 2) :
    g (h.sendMsix pid port rid v) = g h := by
  have hcount (k : Hw) : g (k.addSat (F.PCIE_ERR_MSI_DROPPED.port port) 1) = g k :=
    hput k _ _ (.inr rfl) (show 0x10 + 0x800 * port < 0x10000 by omega)
  simp only [Hw.sendMsix]
  split
  · rw [hput _ _ _ (.inr rfl) (show 0x18 + 0x800 * port < 0x10000 by omega), hcount, Hw.dropVector_keeps hput]
  · split
    · exact hmsix _ _
    · exact houts _ _

theorem Hw.raiseVector_keeps (hvec : ∀ (k : Hw) (x : VecSt), g { k with vec := x } = g k)
    (hgfiles : ∀ (k : Hw) (x : NSet), g { k with gfiles := x } = g k) (h : Hw) (pid v : Nat) :
    g (h.raiseVector pid v) = g h := by
  have hraised := hvec h { h.vec with raised := (h.routeAtStart pid, v) :: h.vec.raised }
  simp only [Hw.raiseVector]
  split
  · rfl
  · split
    · rfl
    · split
      · exact (hgfiles _ _).trans hraised
      · exact (Hw.sendMsix_keeps hput houts hmsix _ _ _ _ (bits_lt _ 2 1)).trans hraised
      · exact (Hw.dropVector_keeps hput _ _).trans hraised

end

theorem Hw.mem_raiseVector (h : Hw) (pid v : Nat) : (h.raiseVector pid v).mem = h.mem :=
  Hw.raiseVector_keeps (g := (·.mem)) (fun k f v _ _ => Hw.put_mem k f v) (fun _ _ => rfl) (fun _ _ => rfl)
    (fun _ _ => rfl) (fun _ _ => rfl) h pid v

theorem Hw.evt_raiseVector (h : Hw) (pid v : Nat) : (h.raiseVector pid v).evt = h.evt :=
  Hw.raiseVector_keeps (g := (·.evt)) (fun k f v _ _ => Hw.put_evt k f v) (fun _ _ => rfl) (fun _ _ => rfl)
    (fun _ _ => rfl) (fun _ _ => rfl) h pid v

/-- The registers of the event ring are not touched. -/
theorem Hw.get_raiseVector (h : Hw) (pid v : Nat) {f : Fld} (hblock : f.block = 0x28) (hoff : f.off < 0x10000) :
    (h.raiseVector pid v).get f = h.get f := by
  refine Hw.raiseVector_keeps (g := (·.get f)) (fun k e v he ho => Hw.get_put_block k e f v ho hoff ?_)
    (fun _ _ => rfl) (fun _ _ => rfl) (fun _ _ => rfl) (fun _ _ => rfl) h pid v
  omega

/-! One record of the event ring (R459, R460). -/

/-- The state in which the entry of a source has been written: tail and sequence number have moved on. -/
def Hw.ringAdvanced (k : Hw) (src seq : Nat) (rest : List EvtEntry) : Hw :=
  let k := { k with evt := { k.evt with staged := SMap.putD [] k.evt.staged src rest, lost := k.evt.lost.del src,
                                        lastServed := src } }
  let k := (k.addWrap F.EVT_TAIL_TAIL 1).put F.EVT_SEQ_SEQ seq
  (k.put F.EVT_INT_STATUS_RECORD 1).put F.EVT_STAGED_ENTRIES k.countStaged

/-- The vector of the ring is raised for a group that notifies, once in a stroke. -/
def Hw.ringNotified (k : Hw) (e : EvtEntry) : Hw :=
  if bit (k.get F.EVT_GROUPS_NOTIFY) (e.type / 256 - 1) && k.evt.vectorAt ≠ some k.now then
    ({ k with evt := { k.evt with vectorAt := some k.now } } : Hw).raiseVector 0 k.evt.vector
  else k

section
variable (k : Hw) (src seq : Nat) (rest : List EvtEntry) (e : EvtEntry)

theorem Hw.ringAdvanced_mem : (k.ringAdvanced src seq rest).mem = k.mem := by
  rw [Hw.ringAdvanced, Hw.put_mem, Hw.put_mem, Hw.put_mem, Hw.addWrap_mem]

theorem Hw.ringAdvanced_lastServed : (k.ringAdvanced src seq rest).evt.lastServed = src := by
  rw [Hw.ringAdvanced, Hw.put_evt, Hw.put_evt, Hw.put_evt, Hw.addWrap_evt]

theorem Hw.ringAdvanced_seq (hseq : seq < 2 ^ 32) : (k.ringAdvanced src seq rest).get F.EVT_SEQ_SEQ = seq := by
  rw [Hw.ringAdvanced, Hw.get_put_off _ _ _ _ (by decide) (by decide) (by decide),
    Hw.get_put_off _ _ _ _ (by decide) (by decide) (by decide), Hw.get_put_same]
  exact Nat.mod_eq_of_lt hseq

theorem Hw.ringAdvanced_tail :
    (k.ringAdvanced src seq rest).get F.EVT_TAIL_TAIL = (k.get F.EVT_TAIL_TAIL + 1) % 2 ^ 32 := by
  rw [Hw.ringAdvanced, Hw.get_put_off _ _ _ _ (by decide) (by decide) (by decide),
    Hw.get_put_off _ _ _ _ (by decide) (by decide) (by decide),
    Hw.get_put_off _ _ _ _ (by decide) (by decide) (by decide), Hw.addWrap, Hw.get_put_same]
  exact Nat.mod_mod _ _

/-- A notification changes neither memory nor where the ring stands. -/
theorem Hw.ringNotified_keeps : (k.ringNotified e).mem = k.mem ∧ (k.ringNotified e).evt.lastServed = k.evt.lastServed ∧
    (k.ringNotified e).get F.EVT_TAIL_TAIL = k.get F.EVT_TAIL_TAIL ∧
    (k.ringNotified e).get F.EVT_SEQ_SEQ = k.get F.EVT_SEQ_SEQ := by
  unfold Hw.ringNotified
  split
  · rw [Hw.mem_raiseVector, Hw.evt_raiseVector, Hw.get_raiseVector _ _ _ rfl (by decide),
      Hw.get_raiseVector _ _ _ rfl (by decide)]
    exact ⟨rfl, rfl, rfl, rfl⟩
  · exact ⟨rfl, rfl, rfl, rfl⟩

end

section
variable {h k : Hw} {src tail : Nat} {e : EvtEntry} {es : List EvtEntry} {o : Option (Nat × Nat)}
  (hnext : h.evt.nextSource = some src) (hstaged : h.evt.staged.getD [] src = e :: es)
  (htail : tail = h.get F.EVT_TAIL_TAIL)
  (hwrite : h.writeVa 2 0 (h.get F.EVT_RING_BASE * 64 + 64 * (tail % 2 ^ h.get F.EVT_RING_LOG2_SIZE))
    (e.record src ((h.get F.EVT_SEQ_SEQ + 1) % 2 ^ 32) (h.evt.lost.getD 0 src)
      (phaseOf tail (2 ^ h.get F.EVT_RING_LOG2_SIZE)) h.now) false = (o, k))
include hnext hstaged htail hwrite

theorem Hw.writeRecord_written (ho : o = none) : ∃ rest, h.writeRecord =
    some ((k.ringAdvanced src ((h.get F.EVT_SEQ_SEQ + 1) % 2 ^ 32) rest).ringNotified e) := by
  rw [htail, ho] at hwrite
  simp only [Hw.writeRecord, hnext, hstaged, hwrite]
  exact ⟨_, rfl⟩

theorem Hw.writeRecord_pageFails {x : Nat × Nat} (ho : o = some x) : h.writeRecord =
    some (((k.put F.EVT_STATUS_FAULT 1).put F.EVT_STATUS_RING_VALID 0).put F.EVT_INT_STATUS_RING_FAULT 1) := by
  rw [htail, ho] at hwrite
  simp only [Hw.writeRecord, hnext, hstaged, hwrite]

end

section
variable {h a : Hw} (n : Nat)

theorem Hw.writeRecords16_invalid (hinvalid : h.on F.EVT_STATUS_RING_VALID = false) : h.writeRecords16 n = h := by
  cases n with
  | zero => rfl
  | succ n => exact if_pos (by rw [hinvalid, Bool.not_false])

variable (hvalid : h.on F.EVT_STATUS_RING_VALID = true)
include hvalid

theorem Hw.writeRecords16_full (hfull : h.ringFull = true) : h.writeRecords16 (n + 1) =
    if h.evt.nextSource.isSome = true then (h.put F.EVT_STATUS_RING_FULL 1).put F.EVT_INT_STATUS_RING_FULL 1 else h :=
  (if_neg (by simp [hvalid])).trans (if_pos hfull)

variable (hroom : h.ringFull = false)
include hroom

theorem Hw.writeRecords16_next (hrecord : h.writeRecord = some a) : h.writeRecords16 (n + 1) = a.writeRecords16 n := by
  simp only [Hw.writeRecords16, hvalid, hroom, hrecord, Bool.not_true, Bool.false_eq_true, if_false]

theorem Hw.writeRecords16_done (hnone : h.evt.nextSource = none) : h.writeRecords16 n = h := by
  cases n with
  | zero => rfl
  | succ n =>
    have hrecord : h.writeRecord = none := by rw [Hw.writeRecord, hnone]
    simp only [Hw.writeRecords16, hvalid, hroom, hrecord, Bool.not_true, Bool.false_eq_true, if_false]

end

/-! The rows (R460, R464, R470). -/

/-- The entries of a source that have waited 2^39 strokes are dropped and counted. -/
def Hw.expire (h : Hw) (e : Nat × List EvtEntry) : Hw :=
  let old := e.2.filter fun x => decide (x.firstAt + 2 ^ 39 ≤ h.now)
  if old.isEmpty then h
  else
    let kept := e.2.filter fun x => ! decide (x.firstAt + 2 ^ 39 ≤ h.now)
    let h := { h with evt := { h.evt with staged := SMap.putD [] h.evt.staged e.1 kept } }
    (h.put F.EVT_STAGED_ENTRIES h.countStaged).loseEvents e.1 old.length

theorem Hw.expire_drops {h a : Hw} {n : Nat} {es kept : List EvtEntry}
    (hkept : kept = es.filter fun x => ! decide (x.firstAt + 2 ^ 39 ≤ h.now)) (hfewer : kept.length < es.length)
    (ha : a = { h with evt := { h.evt with staged := SMap.putD [] h.evt.staged n kept } }) :
    h.expire (n, es) = (a.put F.EVT_STAGED_ENTRIES a.countStaged).loseEvents n (es.length - kept.length) := by
  have hparts := List.length_eq_length_filter_add (l := es) fun x => decide (x.firstAt + 2 ^ 39 ≤ h.now)
  rw [← hkept] at hparts
  have hold : (es.filter fun x => decide (x.firstAt + 2 ^ 39 ≤ h.now)).isEmpty = false := by
    rw [List.isEmpty_eq_false_iff, ← List.length_pos_iff]
    omega
  have hcount : (es.filter fun x => decide (x.firstAt + 2 ^ 39 ≤ h.now)).length = es.length - kept.length := by omega
  simp only [Hw.expire, hold, hcount, ← hkept, ← ha, Bool.false_eq_true, if_false]

section
variable {s : State} {h : Hw} (hs : s.hw = h)
include hs

theorem does_eventRecordWrite {a : Hw} (hmode : 1 < h.mode) (hhub : h.hubOn = true) (honce : h.evt.wroteAt ≠ some h.now)
    (ha : a = ({ h with evt := { h.evt with wroteAt := some h.now } } : Hw).stageLost) :
    Does .eventRecordWrite s fun x => x = a.writeRecords16 16 := by
  subst ha
  refine does_of_next (execEventRecordWrite s) hs rfl rfl (if_neg ?_)
  simp [hhub, honce, Nat.not_le.mpr hmode]

theorem does_eventRecordWrite_idle (hidle : h.mode ≤ 1 ∨ h.hubOn = false ∨ h.evt.wroteAt = some h.now) :
    Does .eventRecordWrite s fun x => x = h := by
  refine does_of_next (execEventRecordWrite s) hs rfl rfl (if_pos ?_)
  rcases hidle with e | e | e <;> simp [e]

theorem does_eventEntryExpiry : Does .eventEntryExpiry s fun x => x = h.evt.staged.foldl Hw.expire h :=
  does_of_next (execEventEntryExpiry s) hs rfl rfl rfl

theorem does_evtHeadWrite {v : BitVec 64} {a : Hw} (hhub : h.hubOn = true)
    (ha : a = h.put F.EVT_HEAD_HEAD (v.toNat % 2 ^ 32)) : Does (.evtHeadWrite v) s fun x =>
      x = if (a.on F.EVT_STATUS_RING_FULL && ! a.ringFull) = true then a.put F.EVT_STATUS_RING_FULL 0 else a := by
  subst ha
  exact does_of_next (execEvtHeadWrite v s) hs rfl rfl (if_neg (by simp [hhub]))

theorem does_evtHeadWrite_hubOff {v : BitVec 64} (hoff : h.hubOn = false) : Does (.evtHeadWrite v) s fun x => x = h :=
  does_of_next (execEvtHeadWrite v s) hs rfl rfl (if_pos (by rw [hoff, Bool.not_false]))

theorem does_healthUpdate (hmode : 2 ≤ h.mode) (hhub : h.hubOn = true) (hdue : h.healthAt / 2 ^ 20 < h.now / 2 ^ 20) :
    Does .healthUpdate s fun x => x = h.updateHealth :=
  does_when (execHealthUpdate s) hs rfl rfl ⟨hmode, hhub, hdue⟩ rfl

theorem does_healthUpdate_idle (hidle : h.now / 2 ^ 20 ≤ h.healthAt / 2 ^ 20 ∨ h.mode < 2 ∨ h.hubOn = false) :
    Does .healthUpdate s fun x => x = h := by
  refine does_unless (execHealthUpdate s) hs rfl rfl ?_
  rintro ⟨hmode, hhub, hdue⟩
  rcases hidle with e | e | e
  · exact absurd hdue (Nat.not_lt.mpr e)
  · exact absurd hmode (Nat.not_le.mpr e)
  · exact Bool.false_ne_true (e.symm.trans hhub)

end

/-- Settles O35: the records one after another, and each row by whether it is due. -/
theorem eventsAndHealth : Obligations.EventsAndHealth := by
  refine ⟨fun s h a hs => does_eventRecordWrite hs, fun s h hs => does_eventRecordWrite_idle hs, ?_, ?_, ?_, ?_, ?_, ?_,
    fun s h v a hs => does_evtHeadWrite hs, ?_, fun s h hs => does_healthUpdate_idle hs,
    fun s h v hs => does_evtHeadWrite_hubOff hs⟩
  · intro h k a n src tail e es hvalid hroom hnext hstaged htail hwrite hrecord
    obtain ⟨rest, hwritten⟩ := Hw.writeRecord_written hnext hstaged htail hwrite rfl
    obtain rfl := Option.some.inj (hwritten.symm.trans hrecord)
    obtain ⟨hmem, hserved, hat, hseq⟩ :=
      (k.ringAdvanced src ((h.get F.EVT_SEQ_SEQ + 1) % 2 ^ 32) rest).ringNotified_keeps e
    rw [hmem, hserved, hat, hseq, Hw.ringAdvanced_mem, Hw.ringAdvanced_lastServed, Hw.ringAdvanced_tail,
      Hw.ringAdvanced_seq _ _ _ _ (Nat.mod_lt _ (by decide))]
    exact ⟨rfl, rfl, rfl, rfl, Hw.writeRecords16_next n hvalid hroom hrecord⟩
  · exact fun h n => ⟨Hw.writeRecords16_invalid n, Hw.writeRecords16_done n, Hw.writeRecords16_full n⟩
  · intro h k n src tail e es x hvalid hroom hnext hstaged htail hwrite
    exact Hw.writeRecords16_next n hvalid hroom (Hw.writeRecord_pageFails hnext hstaged htail hwrite rfl)
  · exact fun s h hs => does_eventEntryExpiry hs
  · intro s h a hs ha hempty
    have hexpires := does_eventEntryExpiry hs
    rwa [← ha, hempty] at hexpires
  · intro s h n es kept a hs hone hkept hfewer ha
    have hexpires := does_eventEntryExpiry hs
    rw [hone, List.foldl_cons, List.foldl_nil, Hw.expire_drops hkept hfewer ha] at hexpires
    exact hexpires
  · intro s h a x hs hmode hhub hdue ha hx
    rw [ha, hx]
    exact does_healthUpdate hs hmode hhub hdue

end Sys2Proof.Machine

namespace Sys2Proof.Machine

open Sys2Proof

/-! Frames of the peer links (R473). -/

section
variable {h : Hw} {port : Nat}

theorem Hw.peerEvent_idle {e : PeerEvent} (hidle : h.hubOn = false ∨ h.peerUp port = false ∨ h.grpN = 0) :
    h.peerEvent port e = h := by
  refine if_pos ?_
  rcases hidle with off | off | off <;> simp [off]

variable (hhub : h.hubOn = true) (hup : h.peerUp port = true) (hgroup : h.grpN ≠ 0)
include hhub hup hgroup

theorem Hw.peerEvent_noAck : h.peerEvent port .noAck = h.resendPeer port :=
  if_neg (by simp [hhub, hup, hgroup])

/-- A frame by its check, its kind and its place in the sequence. -/
theorem Hw.peerEvent_frame (ok : Bool) (f : List Byte) : h.peerEvent port (.frame ok f) =
    if ok = false ∨ 9 < field f 0 1 then h.addSat (F.PEER_LINK_CRC_ERR.nth port) 1
    else if field f 0 1 = 0 then
      if linkCrossed port f = true then h.crossedPeer port else h.ackPeer port (field f 16 4)
    else if field f 4 4 ≠ (h.peerPort port).nextRecv then h.sendAck port
    else ((h.modPeerPort port fun x => { x with nextRecv := (x.nextRecv + 1) % 2 ^ 32 }).sendAck port).takePeer port
      (fit (32 + field f 24 4 % 4096) f) := by
  simp only [Hw.peerEvent, hhub, hup, hgroup, Bool.not_true, Bool.or_self, decide_false, Bool.false_eq_true, if_false,
    Bool.or_eq_true, Bool.not_eq_true', decide_eq_true_eq]

end

theorem does_peerFrame {s : State} {h h' : Hw} {port : Fin 2} {e : PeerEvent} (hs : s.hw = h)
    (hevent : h.peerEvent port.val e = h') : Does (.peerFrame port e) s fun x => x = h' :=
  does_of_next (execPeerFrame port e s) hs rfl rfl hevent

/-! Members of the group (R478, R486, R487). -/

section
variable {s : State} {h : Hw} {i : Fin 8} (hs : s.hw = h)
include hs

theorem does_workerLost (hruns : h.grpRuns = true) (hmanager : h.isManager = true) (hother : i.val ≠ h.grpSelf)
    (hsilent : (h.gmember i.val).heardAt + 1000 ≤ h.now) : Does (.workerLost i) s fun x => x = h.loseMember i.val :=
  does_while_on (execWorkerLost i s) hs rfl rfl (by simp [hruns, hmanager, hother, hsilent]) rfl

theorem does_workerLost_idle (hidle : h.grpRuns = false ∨ h.isManager = false ∨ i.val = h.grpSelf ∨
      h.now < (h.gmember i.val).heardAt + 1000) : Does (.workerLost i) s fun x => x = h := by
  refine does_while_idle (execWorkerLost i s) hs rfl rfl (.inl ?_)
  rcases hidle with e | e | e | e <;> simp [e]

/-- A lost member is back in service at a coat boundary when its frames come again and its record agrees (R486). -/
theorem does_memberRejoin {a b d e : Hw} (hruns : h.grpRuns = true)
    (hlost : bit (h.get F.PEER_MEMBERS_LOST) i.val = true) (hback : (h.gmember i.val).back = true)
    (hcoat : h.boundaryNow = true) (hcrc : (h.gmember i.val).crc = some (grpCrc h.sys.grp.config))
    (ha : a = (h.put (F.PEER_MEMBERS_LOST.bit i.val) 0).put (F.PEER_MEMBERS_IN_SERVICE.bit i.val) 1)
    (hb : b = a.modMember i.val fun m => { m with lost := false, back := false, heardAt := a.now })
    (hd : d = if b.get F.PEER_MEMBERS_LOST = 0 then b.put F.PEER_STATUS_STATE 2 else b)
    (he : e = if d.get F.PEER_STATUS_STANDBY = 15 then d.newStandby else d) :
    Does (.memberRejoin i) s fun x => x = if e.isManager = true then e.reencode else e := by
  refine does_of_next (execMemberRejoin i s) hs rfl rfl ((if_pos ?_).trans ?_)
  · simp [hruns, hlost, hback, hcoat, hcrc]
  · rw [he, hd, hb, ha]

theorem does_memberRejoin_idle (hidle : h.grpRuns = false ∨ bit (h.get F.PEER_MEMBERS_LOST) i.val = false ∨
      h.boundaryNow = false ∨ (h.gmember i.val).back = false ∨
      (h.gmember i.val).crc ≠ some (grpCrc h.sys.grp.config)) : Does (.memberRejoin i) s fun x => x = h := by
  refine does_of_next (execMemberRejoin i s) hs rfl rfl (if_neg ?_)
  rcases hidle with e | e | e | e | e <;> simp [e]

/-- The standby takes over; a member that has lost both within a coat runs alone. -/
theorem does_managerTakeover {sup : List ShardMsg} {h' : Hw} (hruns : h.grpRuns = true) (hworker : h.isManager = false)
    (hgone : h.managerGone = true)
    (hacts : (if h.get F.PEER_STATUS_STANDBY = h.grpSelf then h.takeOver sup
      else if (h.silent (h.get F.PEER_STATUS_STANDBY) && decide (
          max (h.gmember (h.get F.PEER_STATUS_MANAGER)).heardAt (h.gmember (h.get F.PEER_STATUS_STANDBY)).heardAt -
          min (h.gmember (h.get F.PEER_STATUS_MANAGER)).heardAt (h.gmember (h.get F.PEER_STATUS_STANDBY)).heardAt <
            h.stn.active.coatLen)) = true then h.put F.PEER_STATUS_STATE 4
      else h) = h') : Does (.managerTakeover sup) s fun x => x = h' :=
  does_of_next (execManagerTakeover sup s) hs rfl rfl ((if_neg (by simp [hruns, hworker, hgone])).trans hacts)

theorem does_managerTakeover_idle {sup : List ShardMsg}
    (hidle : h.grpRuns = false ∨ h.isManager = true ∨ h.managerGone = false) :
    Does (.managerTakeover sup) s fun x => x = h := by
  refine does_of_next (execManagerTakeover sup s) hs rfl rfl (if_pos ?_)
  rcases hidle with e | e | e <;> simp [e]

theorem does_checkpointCapture (hruns : h.grpRuns = true) (hmanager : h.isManager = true) (hcoat : h.boundaryNow = true)
    (hon : 0 < field h.sys.grp.config 12 1)
    (hdue : h.get F.STN_COAT_COUNT_COATS % field h.sys.grp.config 12 1 = 0) :
    Does .checkpointCapture s fun x => x = (grpEntries h.sys.grp.config).foldl Hw.capture h :=
  does_while_on (execCheckpointCapture s) hs rfl rfl (by simp [hruns, hmanager, hcoat, hon, hdue]) rfl

theorem does_checkpointCapture_idle (hidle : h.grpRuns = false ∨ h.isManager = false ∨ h.boundaryNow = false ∨
      field h.sys.grp.config 12 1 = 0 ∨ h.get F.STN_COAT_COUNT_COATS % field h.sys.grp.config 12 1 ≠ 0) :
    Does .checkpointCapture s fun x => x = h := by
  refine does_while_idle (execCheckpointCapture s) hs rfl rfl (.inl ?_)
  rcases hidle with e | e | e | e | e <;> simp [e]

end

/-! Time offsets of the peer links (R477). -/

theorem clamp_eq (o : Int) : (if o < -32768 then -32768 else if 32767 < o then 32767 else o) =
    max (-32768) (min 32767 o) := by
  split_ifs <;> omega

section
variable {s : State} {h : Hw} {p : Fin 2} {ofs : BitVec 32} (hs : s.hw = h)
include hs

theorem does_peerTimeMeasure_idle (hidle : h.hubOn = false ∨ h.grpN = 0 ∨ h.peerUp p.val = false) :
    Does (.peerTimeMeasure p ofs) s fun x => x = h := by
  refine does_of_next (execPeerTimeMeasure p ofs s) hs rfl rfl (if_pos ?_)
  rcases hidle with e | e | e <;> simp [e]

/-- A measurement is noted and told to the neighbour; the third bad one in a row loses it. -/
theorem does_peerTimeMeasure {a b c : Hw} {k n : Nat} (hhub : h.hubOn = true) (hgroup : h.grpN ≠ 0)
    (hup : h.peerUp p.val = true)
    (hk : k = if 2000 < ofs.toInt.natAbs then h.sys.grp.badOffsets.getD 0 p.val + 1 else 0)
    (ha : a = h.modGrp fun g => { g with
      offsets := g.offsets.put p.val ofs.toInt, badOffsets := g.badOffsets.putD 0 p.val k })
    (hb : b = a.put (if p.val = 0 then F.PEER_OFFSET_OFS0 else F.PEER_OFFSET_OFS1)
      (unsx 16 (max (-32768) (min 32767 ofs.toInt))))
    (hn : n = if p.val = 0 then (b.grpSelf + 1) % max 1 b.grpN else (b.grpSelf + max 1 b.grpN - 1) % max 1 b.grpN)
    (hc : c = b.sendPeer 2 n 0 0 0 []) : Does (.peerTimeMeasure p ofs) s fun x => x = if 3 ≤ k then
        c.loseMember (if p.val = 0 then (c.grpSelf + 1) % max 1 b.grpN else (c.grpSelf + max 1 b.grpN - 1) % max 1 b.grpN)
      else c := by
  refine does_of_next (execPeerTimeMeasure p ofs s) hs rfl rfl ((if_neg (by simp [hhub, hgroup, hup])).trans ?_)
  simp only [clamp_eq, decide_eq_true_eq, ← hk, ← ha, ← hb, ← hn, ← hc]

end

/-! Member records (R478). -/

/-- A member record is due when none has been sent, after 1,000 strokes and after a change. -/
def Hw.memberDue (h : Hw) (d : Nat) : Prop :=
  ∀ t, (if d = 0 then h.sys.grp.sentA else h.sys.grp.sentB) = some t →
    t + 1000 ≤ h.now ∨ h.memberRecord ≠ if d = 0 then h.sys.grp.recA else h.sys.grp.recB

section
variable {h : Hw} {d : Nat}

theorem Hw.sendMember_due {a : Hw} (hon : h.datumOn d = true) (hgroup : h.grpN ≠ 0) (hdue : h.memberDue d)
    (ha : a = h.modGrp fun g => if d = 0 then { g with sentA := some h.now, recA := h.memberRecord }
      else { g with sentB := some h.now, recB := h.memberRecord }) : h.sendMember d =
      { a with outs := a.outs ++ [.ethernet (2 + d) ((leBytes 6 h.cfg.memberMac).reverse ++ [0x88, 0xB6] ++ h.memberRecord)] } := by
  simp only [Hw.sendMember, hon, hgroup, ← ha]
  cases hsent : (if d = 0 then h.sys.grp.sentA else h.sys.grp.sentB) with
  | none => rfl
  | some t => exact if_neg (by simpa [or_iff_not_imp_left] using hdue t hsent)

theorem Hw.sendMember_idle (hidle : h.datumOn d = false ∨ h.grpN = 0 ∨ ¬ h.memberDue d) : h.sendMember d = h := by
  refine if_pos ?_
  rcases hidle with hoff | halone | hsame
  · simp [hoff]
  · simp [halone]
  · rw [Hw.memberDue] at hsame
    cases hsent : (if d = 0 then h.sys.grp.sentA else h.sys.grp.sentB) with
    | none => simp [hsent] at hsame
    | some t => simpa [hsent] using Or.inr hsame

end

section
variable {s : State} {h : Hw} {d : Fin 2} {m : Option MgmtMsg} (hs : s.hw = h)
include hs

theorem does_memberRecordSend_sends (hnone : m = none) :
    Does (.memberRecordSend d m) s fun x => x = h.sendMember d.val := by
  subst hnone
  exact does_of_next (execMemberRecordSend d none s) hs rfl rfl rfl

theorem does_memberRecordSend_takes {x : MgmtMsg} {h' : Hw} (hsome : m = some x)
    (htakes : (if (h.datumOn d.val && decide (0 < h.grpN)) = true then h.takeMember d.val x else h) = h') :
    Does (.memberRecordSend d m) s fun x => x = h' := by
  subst hsome
  exact does_of_next (execMemberRecordSend d (some x) s) hs rfl rfl htakes

end

/-! Attempts of group jobs (R486). -/

section
variable {s : State} {h : Hw} {gseq : BitVec 48} (hs : s.hw = h)
include hs

theorem does_subjobTimeout_worker (hidle : h.grpRuns = false ∨ h.isManager = false) :
    Does (.subjobTimeout gseq) s fun x => x = h := by
  refine does_of_next (execSubjobTimeout gseq s) hs rfl rfl (if_pos ?_)
  rcases hidle with e | e <;> simp [e]

variable (hruns : h.grpRuns = true) (hmanager : h.isManager = true)
include hruns hmanager

theorem does_subjobTimeout_none (hnone : (h.sys.grp.jobs.find? fun j => j.gseq == gseq.toNat) = none) :
    Does (.subjobTimeout gseq) s fun x => x = h := by
  refine does_of_next (execSubjobTimeout gseq s) hs rfl rfl ((if_neg (by simp [hruns, hmanager])).trans ?_)
  simp only [hnone]

theorem does_subjobTimeout {j : GJob} {h' : Hw}
    (hfind : (h.sys.grp.jobs.find? fun j => j.gseq == gseq.toNat) = some j)
    (hends : (if (j.dispatched && j.worker ≠ 15 && decide (j.subDl < h.now)) = true then h.reissue j (h.now - j.sentAt)
      else h) = h') : Does (.subjobTimeout gseq) s fun x => x = h' := by
  refine does_of_next (execSubjobTimeout gseq s) hs rfl rfl ((if_neg (by simp [hruns, hmanager])).trans ?_)
  simp only [hfind]
  exact hends

end

/-- Settles O50: a frame by its place in the sequence, and each row of the group by what is due. -/
theorem groupEvents : Obligations.GroupEvents := by
  refine ⟨?_, ?_, ?_, ?_, ?_, fun s h port e hs hidle => does_peerFrame hs (Hw.peerEvent_idle hidle),
    fun s h i hs => does_workerLost hs, fun s h i hs => does_workerLost_idle hs,
    fun s h i a b d e hs => does_memberRejoin hs, fun s h i hs => does_memberRejoin_idle hs, ?_, ?_,
    fun s h sup hs => does_managerTakeover_idle hs, ?_, fun s h hs => does_checkpointCapture hs,
    fun s h hs => does_checkpointCapture_idle hs, ?_, ?_, fun s h p ofs hs => does_peerTimeMeasure_idle hs,
    fun s h d m hs => does_memberRecordSend_sends hs, ?_, ?_, ?_, ?_, ?_, ?_, ?_,
    fun s h gseq hs => does_subjobTimeout_worker hs,
    fun s h gseq hs hruns hmanager => does_subjobTimeout_none hs hruns hmanager⟩
  · intro s h port e hs hhub hup hgroup he
    exact does_peerFrame hs (he ▸ Hw.peerEvent_noAck hhub hup hgroup)
  · intro s h port e ok f hs hhub hup hgroup he hbad
    rw [he]
    exact does_peerFrame hs ((Hw.peerEvent_frame hhub hup hgroup ok f).trans (if_pos hbad))
  · intro s h port e f hs hhub hup hgroup he hlink
    rw [he]
    refine does_peerFrame hs ((Hw.peerEvent_frame hhub hup hgroup true f).trans ?_)
    rw [if_neg (by simp [hlink]), if_pos hlink]
  · intro s h port e f hs hhub hup hgroup he hpos hkind hseq
    rw [he]
    refine does_peerFrame hs ((Hw.peerEvent_frame hhub hup hgroup true f).trans ?_)
    rw [if_neg (by simp [hkind]), if_neg hpos.ne', if_pos hseq]
  · intro s h port e f hs hhub hup hgroup he hpos hkind hseq
    rw [he]
    refine does_peerFrame hs ((Hw.peerEvent_frame hhub hup hgroup true f).trans ?_)
    rw [if_neg (by simp [hkind]), if_neg hpos.ne', if_neg (not_not.mpr hseq)]
  · intro s h sup hs hruns hworker hgone hself
    exact does_managerTakeover hs hruns hworker hgone (if_pos hself)
  · intro s h sup x y hs hruns hworker hgone hother hsilent hx hy hcoat
    subst hx hy
    refine does_managerTakeover hs hruns hworker hgone ((if_neg hother).trans (if_pos ?_))
    rw [hsilent, decide_eq_true hcoat, Bool.and_self]
  · intro s h sup x y hs hother hx hy hapart
    subst hx hy
    by_cases hidle : h.grpRuns = false ∨ h.isManager = true ∨ h.managerGone = false
    · exact does_managerTakeover_idle hs hidle
    · simp only [not_or, Bool.not_eq_false, Bool.not_eq_true] at hidle
      obtain ⟨hruns, hworker, hgone⟩ := hidle
      refine does_managerTakeover hs hruns hworker hgone ((if_neg hother).trans (if_neg ?_))
      rw [Bool.and_eq_true, decide_eq_true_eq]
      rintro ⟨hsilent, hcoat⟩
      rcases hapart with e | e
      · exact Bool.false_ne_true (e.symm.trans hsilent)
      · exact absurd hcoat (Nat.not_lt.mpr e)
  · intro s h p ofs a b m hs hhub hgroup hup hnear ha hb hm
    have hclamp : max (-32768) (min 32767 ofs.toInt) = ofs.toInt := by omega
    rw [hm]
    exact does_peerTimeMeasure hs hhub hgroup hup (if_neg (Nat.not_lt.mpr hnear)).symm ha (by rw [hclamp, hb]) rfl rfl
  · intro s h p ofs a b c n k hs hhub hgroup hup hfar hk ha hb hn hc
    exact does_peerTimeMeasure hs hhub hgroup hup (hk.trans (if_pos hfar).symm) ha hb hn hc
  · intro h a d hd hon hgroup hsent ha
    exact Hw.sendMember_due hon hgroup (fun t ht => absurd (hsent.symm.trans ht) (Option.some_ne_none t).symm) ha
  · intro h a d t hd hon hgroup hsent hdue ha
    refine Hw.sendMember_due hon hgroup (fun u hu => ?_) ha
    obtain rfl := Option.some.inj (hsent.symm.trans hu)
    exact hdue
  · intro h d t hd hidle
    refine Hw.sendMember_idle (hidle.imp_right (Or.imp_right ?_))
    rintro ⟨hsent, hearly, hsame⟩ hdue
    exact (hdue t hsent).elim (Nat.not_le.mpr hearly) fun hchanged => hchanged hsame
  · intro s h d m x hs hm hon hgroup
    exact does_memberRecordSend_takes hs hm (if_pos (by simp [hon, hgroup]))
  · intro s h d m x hs hm hidle
    refine does_memberRecordSend_takes hs hm (if_neg ?_)
    rcases hidle with e | e <;> simp [e]
  · intro s h gseq j hs hruns hmanager hfind hsent hworker hlate
    exact does_subjobTimeout hs hruns hmanager hfind (if_pos (by simp [hsent, hworker, hlate]))
  · intro s h gseq j hs hruns hmanager hfind hidle
    refine does_subjobTimeout hs hruns hmanager hfind (if_neg ?_)
    rcases hidle with e | e | e <;> simp [e]

end Sys2Proof.Machine
